-- ==== Sys2Proof/Word.lean ====
section
/-! DEFINITION. The word types of the module and the index types of its units
(00_scope.md R3, R10: Table 3). -/

namespace Sys2Proof

abbrev Byte := BitVec 8
abbrev W16 := BitVec 16
abbrev W32 := BitVec 32
abbrev W64 := BitVec 64

/-- A compute die, R10. -/
abbrev Die := Fin 8
/-- A physical core of a die, R10. -/
abbrev PCore := Fin 32
/-- A logical core of a die, R10. -/
abbrev LCore := Fin 28
/-- A memory controller of a die, R10. -/
abbrev Mc := Fin 4
/-- A Miotos port of the module, R10: ports 2d and 2d + 1 lie on die d. -/
abbrev PortId := Fin 16
/-- A fabric ring of the module, R10. -/
abbrev FRing := Fin 8
/-- A job context, R10. -/
abbrev CtxId := Fin 64
/-- A submission ring, module-wide number 4n + k, R10. -/
abbrev RingId := Fin 256
/-- A DMA queue, numbered 16d + q across the module, R300. -/
abbrev QueueId := Fin 128
/-- A clock island of a die as R424 numbers them. -/
abbrev Island := Fin 43

end Sys2Proof
end

