-- ==== Sys2Proof/Syntax.lean ====
section
/-! DEFINITION. The commands of the module: one constructor of Instr for each row of
opcode_table.json, in the table's order. The table gives the rows no operands, so each
constructor carries what the rule it rests on lets its sender choose or what the outside
world supplies (an address, a value, a measured quantity), and which unit the step is of. -/

namespace Sys2Proof

/-- The access path of a register access: BAR0 of the physical function, an MCTP endpoint
through Henlan, or an MCTP endpoint using the development subset (R5, R488, R514). -/
inductive Path where
  | bar0
  | henlan (endpoint : Nat)
  | dev (endpoint : Nat)
  deriving DecidableEq, Repr

/-- The functions of R24 that have a state word. -/
inductive FuncId where
  | core (d : Die) (p : PCore)
  | teasel (d : Die)
  | vetch (d : Die)
  | media (d : Die)
  | stream (d : Die) (h : Fin 256)
  | dmaq (q : QueueId)
  | port (p : PortId)
  | ctx (n : CtxId)
  | ring (r : RingId)
  deriving DecidableEq, Repr

/-- The rows and columns of the matrix array that mismatch in one run and the run's number in the record, R69; index 128 is not
used: the checksum row's comparison is per column and the checksum column's per row. -/
structure Csum where
  rows : List (Fin 128)
  cols : List (Fin 128)
  run : Nat := 0
  deriving DecidableEq, Repr

/-- What may befall a tile-operation record while it runs: a checksum mismatch (R71), residue
mismatches of one row (R74: one is recomputed, a second takes the unit out), device addresses of the lines and
codewords it reads whose ECC error was corrected (R78, R289), and the lines of its core, by their offset in the core's
window, that it reads with an uncorrectable error found only then (R78, R83). -/
structure RecEv where
  csum : Option Csum := none
  residue : Nat := 0
  ce : List Nat := []
  ue : List Nat := []
  deriving DecidableEq, Repr

/-- How the read of a descriptor slot fails, R329. -/
inductive ReadFail where
  | unsupportedRequest
  | completerAbort
  | poisoned
  | timeout
  deriving DecidableEq, Repr

/-- A fabric packet, R372 Table 2, with the CRC-32 it carries and the Miotos port by which it arrives or leaves. -/
structure Packet where
  dst : W16
  src : W16
  kind : Byte
  rail : Bool := false
  detoured : Bool := false
  channel : Bool := false
  copy : Bool := false
  sat : Bool := false
  eMax : Byte := 0
  group : W16 := 0
  bucket : W16 := 0
  step : W64 := 0
  asRank : W32 := 0
  index : W32 := 0
  payload : List Byte := []
  crc : W32 := 0
  port : PortId := 0
  deriving DecidableEq, Repr

/-- An SPDM transport, R474: the DOE mailbox, or MCTP over I3C or SMBus. -/
inductive Transport where
  | doe
  | mctp
  deriving DecidableEq, Repr

/-- Where a row of an HBM stack lies: pseudo-channel, bank, row. -/
structure RowId where
  pc : Fin 32
  bank : Fin 48
  row : Nat
  deriving DecidableEq, Repr

/-- A unit that fails self-test in step 6 or 7 of start-up (R459), or whose fault a loop-back finds (R490). -/
inductive TestFail where
  | core (d : Die) (p : PCore)
  | arrayRow (d : Die) (p : PCore) (row : Fin 129)
  | arrayCol (d : Die) (p : PCore) (col : Fin 129)
  | spadBank (d : Die) (p : PCore) (bank : Fin 32)
  | galleryBank (d : Die) (bank : Fin 64)
  | hbmRow (d : Die) (m : Mc) (row : RowId)
  | hbmBank (d : Die) (m : Mc) (row : RowId)
  | hbmLane (d : Die) (m : Mc) (pc : Fin 32) (lane : Nat)
  | fabricLane (p : PortId) (tx : Bool) (lane : Fin 8)
  | laser (p : PortId) (laser : Fin 5)
  | teasel (d : Die)
  | media (d : Die)
  | bridge (b : Fin 12)
  | clockGen (d : Die)
  | dieUnit (d : Die)
  | hubHalf (b : Bool)
  deriving DecidableEq, Repr

/-- What the outside world supplies to a completing start-up step (R457): units failing
self-test, ports failing training, and whether each hub half unseals its key (R472). -/
structure StartupEv where
  fails : List TestFail := []
  portFails : List PortId := []
  unsealA : Bool := true
  unsealB : Bool := true
  deriving DecidableEq, Repr

/-- What the meters of a die read for an interval of the ledger (R412 to R414): in nJ the energy of its rails, with the
media engine's share of VSH, the codewords that its two ports sent, the cycles of its media island, and those spent on
each context's samples. -/
structure DieMeas where
  vcg : List Nat := [0, 0, 0, 0]
  vsh : Nat := 0
  media : Nat := 0
  vmc : Nat := 0
  vdm : Nat := 0
  vhbm : Nat := 0
  vopt : Nat := 0
  words : Nat × Nat := (0, 0)
  medCyc : Nat := 0
  medParts : List (CtxId × Nat) := []
  deriving DecidableEq, Repr

/-- A rail group, R399: those of a die in the order of PWD_STATUS.DEGRADED with VDM behind it, then the hub's, which
lie on no die. -/
inductive Rail where
  | vcg (g : Fin 4)
  | vsh
  | vmc
  | vhbm
  | vopt
  | vdm
  | vhubA
  | vhubB
  | vstby
  deriving DecidableEq, Repr

/-- A feed, R396. -/
inductive Feed where
  | a
  | b
  deriving DecidableEq, Repr

/-- A bridge of R13: E0 to E9, then H0 and H4 as 10 and 11. -/
abbrev Bridge := Fin 12

/-- The unit of a die without a spare that fails, R435. -/
inductive DieUnit where
  | landing
  | mc (m : Mc)
  | stack (m : Mc)
  | management
  deriving DecidableEq, Repr

/-- A rectangle of pixels of a decoded picture; of an audio sample, `w` coded values of each channel from `x` on. -/
structure Rect where
  x : Nat
  y : Nat := 0
  w : Nat
  h : Nat := 1
  deriving DecidableEq, Repr

/-- A damage event of a sample (R276): the first byte that failed, the picture or audio frame, the part, the first
damaged block, the error code, the damaged region, and when it was detected. -/
structure Damage where
  byteOffset : Nat
  unit : Nat
  part : Nat
  blockX : Nat
  blockY : Nat
  error : Nat
  region : List Rect := []
  tDetect : Nat := 0
  deriving DecidableEq, Repr

/-- What a decode or encode of a sample meets (R267, R276, R278, R284): damage events, the region that is predicted
from concealed data, residue mismatches, and the time of the attempt that a residue mismatch abandoned, in µs. -/
structure DecodeEv where
  damage : List Damage := []
  refRegion : List Rect := []
  residue : Nat := 0
  abandonedUs : Nat := 0
  deriving DecidableEq, Repr

/-- What the headers of a sample claim (R279): width (audio: channels), height (audio: coded values per channel),
depth, units, and the byte offset of the field that exceeds its maximum; the components of a picture with their
subsampling, whether it is RGB, and whether it is an intra random-access picture (R278); the coded rate of audio and
whether its values are FP32 (R271); and what the decode of a picture that is dropped as stale meets (R283). -/
structure HeaderClaim where
  width : Nat := 0
  height : Nat := 0
  depth : Nat := 8
  units : Nat := 1
  offset : Nat := 0
  comps : Nat := 3
  sub : List (Nat × Nat) := []
  rgb : Bool := false
  intra : Bool := false
  rate : Nat := 0
  float : Bool := false
  drop : DecodeEv := {}
  deriving DecidableEq, Repr

/-- What a scrub read finds, R292. -/
inductive ScrubFind where
  | clean
  | corrected
  | uncorrectable
  deriving DecidableEq, Repr

/-- The MCTP control messages and I3C address assignments of R503. -/
inductive MctpMsg where
  | setdasa (static addr : BitVec 7)
  | entdaa (addr : BitVec 7)
  | setEndpointId (dest : BitVec 7) (eid : Byte)
  | getEndpointId (dest : BitVec 7)
  deriving DecidableEq, Repr

/-- The commands of the module. -/
inductive Instr where
  -- register access, R5 to R9
  | lowWordRead (path : Path) (off : Nat)
  | highWordRead (path : Path) (off : Nat)
  | misalignedAccess (path : Path) (off size : Nat) (write : Option Nat)
  | registerWrite (path : Path) (off : Nat) (wide : Bool) (val : W64)
  | rcRegisterRead (path : Path) (off : Nat) (event : Nat)
  | w1cWrite (path : Path) (off : Nat) (val set : W32)
  -- function state words, R24, R25
  | functionEnable (path : Path) (f : FuncId)
  | functionDisable (path : Path) (f : FuncId)
  | startingComplete (f : FuncId)
  | drainComplete (f : FuncId)
  | regionCommit (path : Path)
  | regionCommitDone
  | coreDisable (path : Path) (d : Die) (p : PCore)
  | contextEnable (path : Path) (n : CtxId)
  -- BAR4, configuration space, doorbells
  | bar4CtlWrite (path : Path) (val : W64)
  | barResize (log2 : Nat)
  | bar4Read (off len : Nat) (ce : List Nat := [])
  | bar4Write (off : Nat) (bytes : List Byte)
  | configRequest (off size : Nat) (write : Option Nat)
  | ringDoorbell (off size : Nat) (val : Option W32)
  | eventDoorbell (off size : Nat) (val : W32)
  -- descriptors fetched from a submission ring
  | slotFetchStall (r : RingId) (fail : Option ReadFail)
  | invalidDescriptor (r : RingId)
  | dispatch (r : RingId)
  | copy (r : RingId)
  | fill (r : RingId)
  | compare (r : RingId)
  | fence (r : RingId)
  | fenceComplete (seq : Nat)
  | semSignal (r : RingId)
  | semSignalApply (seq : Nat)
  | semWait (r : RingId)
  | semWaitSatisfied (seq : Nat)
  | semWaitTimeout (seq : Nat)
  | timestamp (r : RingId)
  | timestampWrite (seq : Nat)
  | energyQuery (r : RingId)
  | mediaOpen (r : RingId)
  | mediaSubmit (r : RingId)
  | mediaClose (r : RingId)
  | planLoad (r : RingId)
  | planLoadCheck (seq : Nat) (readFail : Option Nat) (ce : List Nat := [])
  | planUnload (r : RingId)
  | planUnloadEffect (seq : Nat)
  | reduceScatter (r : RingId)
  | allGather (r : RingId)
  | allReduce (r : RingId)
  | exponentMax (r : RingId)
  | permute (r : RingId)
  | holdoffExpiry (r : RingId)
  -- the PCIe link
  | linkTraining (bad : BitVec 16) (rate : Fin 4)
  | linkNarrow (lane : Fin 16) (l0p : Bool)
  | d3hotEntry
  | d0Return
  -- resets and start-up
  | powerOn (voltA voltB : Nat) (slotId : Fin 16)
  | perstAssert (lowNs : Nat)
  | perstDeassert
  | hotReset
  | resetReq (lowNs : Nat)
  | secResetWarm (path : Path) (key : W16)
  | secResetCold (path : Path) (key : W16)
  | henlanWarmReset (endpoint : Nat)
  | henlanColdReset (endpoint : Nat)
  | startupStepDone (ev : StartupEv)
  | secRecover (path : Path)
  | secCommitSvn (path : Path)
  -- SPDM
  | getVersion (t : Transport)
  | getCapabilities (t : Transport) (version : Byte) (ctExponent : Nat)
  | negotiateAlgorithms (t : Transport) (asym hash dhe aead keySched : Bool)
  | getDigests (t : Transport)
  | getCertificate (t : Transport) (slot : Fin 8) (offset length : Nat)
  | challenge (t : Transport) (slot : Fin 8) (summary : Byte) (nonce : BitVec 256)
  | getMeasurements (t : Transport) (index : Byte) (signed : Bool) (nonce : BitVec 256)
  | keyExchange (t : Transport) (slot : Fin 8) (exchange : List Byte) (mutualAuth : Bool)
  | finish (t : Transport) (session : Nat) (hmacOk : Bool)
  | endSession (t : Transport) (session : Nat)
  | heartbeat (t : Transport) (session : Nat)
  | keyUpdate (t : Transport) (session : Nat) (both : Bool)
  | chunkSend (t : Transport) (handle seqNo : Nat) (last : Bool) (chunk : List Byte)
  | chunkGet (t : Transport) (handle seqNo : Nat)
  | respondIfReady (t : Transport) (token : Nat)
  | getCsr (t : Transport)
  | setCertificate (t : Transport)
  | pskExchange (t : Transport)
  | getKeyPairInfo (t : Transport)
  -- scheduling
  | dispatchStart (seq : Nat) (ce : List Nat := [])
  | preemption (seq : Nat)
  | switchStepDone (seq : Nat) (ce : List Nat := [])
  | dispatchResume (seq : Nat)
  | dispatchComplete (seq : Nat)
  -- tile-operation records, on logical core c of die d
  | mm (d : Die) (c : LCore) (ev : RecEv)
  | mv (d : Die) (c : LCore) (ev : RecEv)
  | conv (d : Die) (c : LCore) (ev : RecEv)
  | tconv (d : Die) (c : LCore) (ev : RecEv)
  | tconvComplete (d : Die)
  | attb (d : Die) (c : LCore) (ev : RecEv)
  | stagingFill (d : Die) (c : LCore) (parity : Nat) (ce : List Nat := [])
  | vetchWalkDone (d : Die) (n : CtxId) (va : Nat) (ce : List Nat := [])
  | attm (d : Die) (c : LCore) (ev : RecEv)
  | vec (d : Die) (c : LCore) (ev : RecEv)
  | norm (d : Die) (c : LCore) (ev : RecEv)
  | red (d : Die) (c : LCore) (ev : RecEv)
  | maxPool (d : Die) (c : LCore) (ev : RecEv)
  | avgPool (d : Die) (c : LCore) (ev : RecEv)
  | sort (d : Die) (c : LCore) (ev : RecEv)
  | nms (d : Die) (c : LCore) (ev : RecEv)
  | boxd (d : Die) (c : LCore) (ev : RecEv)
  | load (d : Die) (c : LCore) (ev : RecEv)
  | store (d : Die) (c : LCore) (ev : RecEv)
  | pref (d : Die) (c : LCore) (ev : RecEv)
  | rotSend (d : Die) (c : LCore) (ev : RecEv)
  | rotReceive (d : Die) (c : LCore)
  | haloSend (d : Die) (c : LCore) (ev : RecEv)
  | haloReceive (d : Die) (c : LCore)
  | racc (d : Die) (c : LCore) (ev : RecEv)
  | qsclQuantise (d : Die) (c : LCore) (ev : RecEv)
  | qsclExpScan (d : Die) (c : LCore) (ev : RecEv)
  | dqsc (d : Die) (c : LCore) (ev : RecEv)
  | gnrmPartial (d : Die) (c : LCore) (ev : RecEv)
  | gnrmFinish (d : Die) (c : LCore) (ev : RecEv)
  | gnrmClip (d : Die) (c : LCore) (ev : RecEv)
  | rngmApply (d : Die) (c : LCore) (ev : RecEv)
  | rngmRaw (d : Die) (c : LCore) (ev : RecEv)
  | bar (d : Die) (c : LCore)
  | barGenerationComplete (n : CtxId) (d : Die) (id : Fin 64)
  | wait (d : Die) (c : LCore)
  | waitSatisfied (d : Die) (c : LCore)
  | signal (d : Die) (c : LCore)
  | barrierWatchdog (d : Die) (c : LCore)
  | recordComplete (d : Die) (c : LCore) (pos : Nat)
  | runReplay (d : Die) (c : LCore) (ev : RecEv)
  | coreRetireDone (d : Die) (p : PCore)
  | spadBankMigrate (d : Die) (p : PCore) (bank : Fin 32)
  | spadBankSwitch (d : Die) (p : PCore) (spare : Fin 2)
  | accEccThreshold (d : Die) (p : PCore)
  -- collectives
  | armReceive (pkt : Packet)
  | contribReceive (pkt : Packet) (ce : List Nat := [])
  | endReceive (pkt : Packet) (ce : List Nat := [])
  | shardReceive (pkt : Packet)
  | hopReceive (pkt : Packet)
  | sendClose (seq : Nat)
  | ownerTimeout (seq : Nat)
  | senderTimeout (seq : Nat)
  | gatherPartTimeout (seq : Nat) (part : Fin 16)
  | permuteCycleAbandon (seq : Nat)
  | collectiveComplete (seq : Nat)
  -- media samples
  | sampleDecodeStart (d : Die) (h : Fin 256) (claim : HeaderClaim)
  | sampleDecodeDone (d : Die) (h : Fin 256) (sample : Nat) (ev : DecodeEv)
  | sampleDeliver (d : Die) (h : Fin 256)
  | sampleLate (d : Die) (h : Fin 256) (sample : Nat) (ev : DecodeEv := {})
  -- DMA
  | dmaChunkDone (q : QueueId) (parity : Nat) (ce : List Nat := [])
  | dmaHostReadError (q : QueueId) (fail : ReadFail)
  | dmaComplete (seq : Nat)
  -- HBM
  -- the codeword: `word` of the 256 B block of device addresses
  | scrubRead (d : Die) (m : Mc) (block : Nat) (word : Fin 8) (found : ScrubFind)
  | rowRetire (d : Die) (m : Mc) (row : RowId)
  | migrationSwitch (d : Die) (m : Mc)
  | hbmLaneRepair (d : Die) (m : Mc) (pc : Fin 32) (lane : Nat)
  | pcRetrain (d : Die) (m : Mc) (pc : Fin 32)
  | pcRetrainDone (d : Die) (m : Mc)
  -- job faults
  | faultPoint (cause : Byte) (d : Die) (hubSide : Bool) (charged : List CtxId) (addr : Nat)
  | recoveryStepDone
  -- the fabric
  | packetForward (inPort : PortId) (pkt : Packet)
  | codewordLoss (p : PortId) (lane : Fin 9) (count : Nat)
  | routeReceive (pkt : Packet)
  | admitReceive (pkt : Packet)
  | admitAccept (minus plus : Packet)
  | admitWithdraw (pkt : Packet)
  | admitRequestTimeout (i : FRing)
  | timeReceive (pkt : Packet) (arrivalPs : Nat)
  | echoReceive (pkt : Packet)
  | fabAdmitRequest (path : Path) (val : W32)
  | fabLeaveRequest (path : Path) (val : W32)
  | switchOpenReported (i : FRing)
  | segmentTrained (i : FRing)
  | trainingTimeout (i : FRing)
  | switchClosedReported (i : FRing)
  | segmentDown (i : FRing) (plusSide : Bool)
  | segmentUp (i : FRing) (plusSide : Bool)
  | neighbourLoss (i : FRing) (plusSide : Bool) (packets : Nat)
  | timeExchange
  | fabricLaneSpare (p : PortId) (tx : Bool) (lane : Fin 8)
  | laserSpare (p : PortId) (laser : Fin 5)
  | lndLoopbackSelect (path : Path) (p : PortId) (depth : Fin 8) (echoOk : Bool)
  -- power, clocks, temperature, energy
  | feedDisconnect (f : Feed) (volt : Nat)
  | feedReconnect (f : Feed) (volt : Nat)
  | phaseFail (d : Die) (g : Rail)
  | islandClockRaise (d : Die) (x : Island)
  | islandClockLower (d : Die) (x : Island)
  | timingMonitor (d : Die) (need : List (Island × Nat))
  | droopStart (d : Die) (x : Island) (dropMv : Nat)
  | droopEnd (d : Die) (x : Island) (cycles lastNs : Nat)
  | inputCurrentStep (milliamp : Nat)
  | powerCapStep (watt : Nat)
  | clkgenSwitch (d : Die)
  | dieTimeCheck (offsets : List (Die × Int))
  | thermalReport (d : Die) (temps : List (Island × Int)) (hbmTemps : List (Mc × Int))
  | thermalCapStep (d : Die) (x : Island)
  | thermalMove (d : Die) (p : PCore)
  | ledgerUpdate (dies : List DieMeas) (hub inA inB voltA voltB : Nat)
  | counterSample (n : CtxId)
  | ecalRefine (vals : List Nat)
  -- availability
  | galleryBankMigrate (d : Die) (bank : Fin 64)
  | galleryBankSwitch (d : Die) (spare : Fin 4)
  | bridgeFail (b : Bridge)
  | newelFail (d : Die)
  | twinTakeoverDone (d : Die)
  | hubHalfFail
  | hubTakeoverDone
  | hubSwap (path : Path)
  | storeWrite
  | storeWriteDone
  | fwStage (path : Path)
  | fwStageDone
  | fwActivate (path : Path)
  | fwActivateStepDone
  | fwAbort (path : Path)
  | fwStartCheckFail
  | fwSelectNext (path : Path)
  -- observation and field test
  | traceEnable (path : Path) (val : W32)
  | devLevelWrite (path : Path) (val : W32)
  | hifLoopbackSelect (path : Path) (depth : Fin 4) (seconds : Byte)
  | pcieLoopbackEnd (errors : Nat)
  | farendLoopbackEnter
  | farendLoopbackExit
  | mcLoopbackSelect (path : Path) (d : Die) (m : Mc) (depth : Fin 4) (pc : Fin 32)
  | medLoopbackSelect (path : Path) (d : Die) (depth : Fin 4)
  | loopbackStop (path : Path) (off : Nat)
  | loopbackPassDone (off : Nat) (checked errors : Nat) (found : List TestFail := [])
  | resetReqRelease
  | dieUnitFailure (d : Die) (u : DieUnit)
  | standbyTwinFault (d : Die)
  | standbyHalfFail
  | mctpControlMessage (msg : MctpMsg)
  deriving DecidableEq, Repr

end Sys2Proof
end

