-- ==== Sys2Proof/Decode.lean ====
section
/-! DEFINITION. The command a word of opcode_table.json spells. The table gives its rows no bits,
so no word spells a command. -/

namespace Sys2Proof

/-- The command that a word spells by the table's bits: none of its rows has bits. -/
def decodeTableWord (_nbits _w : Nat) : Option Instr := none

end Sys2Proof
end

