-- ==== Sys2Proof/Config.lean ====
section
/-! DEFINITION. What the manual leaves open, as constants without a body: free values, the
implementation's own codecs and signatures. Nothing can be proved of a value of theirs. -/

namespace Sys2Proof

/-- A decoded picture in coded components: size, bit depth, whether it is RGB, the factors by which each component is
subsampled in the two directions (1 where not listed), and its planes by rows (R264, R267). -/
structure Pic where
  w : Nat := 0
  h : Nat := 0
  depth : Nat := 8
  rgb : Bool := false
  sub : List (Nat × Nat) := []
  planes : List (List (List Nat)) := []
  deriving DecidableEq, Repr, Inhabited

/-- An SPDM request as a large request that CHUNK_SEND assembles spells it (R473 Table 6). -/
inductive SpdmReq where
  | getVersion
  | getCapabilities (version : BitVec 8) (ctExponent : Nat)
  | negotiateAlgorithms (asym hash dhe aead keySched : Bool)
  | getDigests
  | getCertificate (slot : Fin 8) (offset length : Nat)
  | challenge (slot : Fin 8) (summary : BitVec 8) (nonce : BitVec 256)
  | getMeasurements (index : BitVec 8) (signed : Bool) (nonce : BitVec 256)
  | keyExchange (slot : Fin 8) (exchange : List (BitVec 8)) (mutualAuth : Bool)
  | finish (session : Nat) (hmacOk : Bool)
  | endSession (session : Nat)
  | heartbeat (session : Nat)
  | keyUpdate (session : Nat)
  | respondIfReady (token : Nat)
  | unsupported
  deriving DecidableEq, Repr

end Sys2Proof

namespace Sys2Proof.Config

/-- The value that the manual leaves undefined, drawn number `n` of the run (State.free counts
the draws). Log 2. -/
opaque freeValue (w : Nat) (n : Nat) : BitVec w

/-- An undefined byte of device memory: what a region reads as after a commit changed it for the
`g`-th time of the run (R30). Log 2. -/
opaque freeMem (g a : Nat) : BitVec 8

/-- The address within its stack of a codeword of HBM by its stack and device address, which the manual does not
give (R286, R292). Log 87. -/
opaque stackAddr : (stack addr : Nat) → Nat

/-- The row of a stack address, as a number of pseudo-channel, bank and row (R286, R293). Log 87. -/
opaque stackRow : (stackAddr : Nat) → Nat

/-- Never drawn on by a result whose bounds round alike: the rounding of an exp or log whose bounds
of 192 fraction bits do not decide it (R85). Log 14. -/
opaque unpinned (tag : Nat) : BitVec 32

/-- Component `c` at column `x` and row `y` of the picture that a codec's standard gives for a sample, of the stream
block, the parameter block, the sample's bytes and what the codec keeps of earlier samples, `hist` (R251, R252).
Log 20. -/
opaque decodePicture : (block param sample : List Byte) → (hist c x y : Nat) → Nat

/-- The coded value `i` of channel `c` of a FLAC or Opus sample: an integer's bits, or an FP32 code (R251, R252).
Log 20. -/
opaque decodeAudio : (block param sample : List Byte) → (hist c i : Nat) → Nat

/-- What a codec keeps after a sample, of what it kept before and, for pictures that depend on one another, of the
picture that stays as a reference (R253, R272, R278). Log 20. -/
opaque codecHistory : (block param sample : List Byte) → (hist : Nat) → (shown : Option Pic) → Nat

/-- The bitstream of an encode, of the input tensor and of what the encoder keeps of earlier ones (R253, R266).
Log 20. -/
opaque encodeSample : (block param tensor : List Byte) → (hist : Nat) → List Byte

/-- The cut-off of the resampling filter between two rates, as a fraction of half the coded rate: numerator and
denominator (R271). Log 105. -/
opaque audioCutoff : (rateIn rateOut : Nat) → Nat × Nat

/-- The height of a triangular filter of the mel scale: numerator and denominator (R271). Log 105. -/
opaque melHeight : (param : List Byte) → (rate filter : Nat) → Nat × Nat

/-- The measurement summary hash of type all over the blocks, whose form is that of DMTF DSP0274 (R473).
Log 21. -/
opaque measurementSummary : List (BitVec 512) → List Byte

/-- The request that the bytes of a large request spell, none where they spell none: the messages' form is that of DMTF
DSP0274 (R473). Log 47. -/
opaque spdmRequest : List Byte → Option SpdmReq

/-- Bytes of the largest SPDM response that is sent in one message; larger ones go by CHUNK_GET (R473).
Log 21. -/
opaque spdmTransfer : Nat

/-- The signature of the module over a transcript, R475. Log 21. -/
opaque sign : (transcript : List Byte) → List Byte

/-- The DER certificate chain of slot 0, R471. Log 21. -/
opaque certChain : List Byte

/-- The module's exchange data of a session of a number, R474. Log 21. -/
opaque exchangeData : (session : Nat) → (requester : List Byte) → List Byte

/-- The time an application of an instruction takes is not modelled; whether an image's bytes
carry a valid certificate path to the firmware root, R463. Log 22. -/
opaque imageCertOk : List Byte → Bool

/-- Whether the signature over an image's header verifies under its certificate, R463. Log 22. -/
opaque imageSigOk : List Byte → Bool

/-- The bytes that measurement block 7 is the digest of: image bank, SVN_FLOOR, development access level and
active hub half, in a layout that the manual does not give (R468). Log 21. -/
opaque securityState : (bank : Bool) → (floor level : Nat) → (half : Bool) → List (BitVec 8)

/-- e_die of a clock step in nJ as measured at manufacture (R419). Log 4. -/
opaque factoryEcal : Nat → BitVec 16

/-- The calibrated current in A of a rail group's islands at a clock step (R400), and the voltage in mV that an island
requires at a step (R402): values of manufacture, which the manual does not state. Log 46. -/
opaque railCurrent : (die group step : Nat) → Nat
opaque stepMv : (die island step : Nat) → Nat

/-- The bytes of a store section whose form is private to the module's firmware, of a write number (R443). Log 115. -/
opaque storeSection : (number seq : Nat) → List (BitVec 8)

/-- The measurement of the boot ROM (R468). Log 21. -/
opaque bootRom : BitVec 512

/-- The configuration-space offset of the MSI-X Message Control word, which the manual does not
give (R318, R337). Log 7. -/
opaque msixControlOff : Nat

/-- The configuration-space offsets of the PCI Express and Power Management capabilities, which the manual does not
give (R318). Log 7. -/
opaque pcieCapOff : Nat
opaque pmCapOff : Nat

/-- The configuration-space offsets of the extended capabilities after AER, which the manual does not give (R318):
Resizable BAR, DOE, Device 3, and the physical layers of 32, 64 and 128 GT/s. Log 7. -/
opaque extCapOff : Nat → Nat

/-- The bits of a PCI configuration register that the manual does not name (R317, R318), by
offset. Log 7. -/
opaque cfgSpace : Nat → BitVec 32

end Sys2Proof.Config
end

