-- ==== Sys2Proof/Machine/State.lean ====
section
/-! DEFINITION. The state of the module as plain data, and the state right after a cold reset.
Registers live in one register file keyed by BAR0 offset; what the module's own engines hold
(queues, function states, placed records, open collectives, ...) is structured data. -/

namespace Sys2Proof.Machine

/-- A sparse map over Nat keys: keys strictly rising, no entry equal to the value an unlisted
key reads as. Read and written only by the operations of Ops.lean. -/
abbrev SMap (α : Type) := List (Nat × α)

/-- The states of a function, R24. -/
inductive FnSt where
  | off
  | starting
  | on
  | draining
  deriving DecidableEq, Repr

/-- A function's state word, Table 7 of Module architecture, with the disable that R24 records
while STARTING. -/
structure Fn where
  st : FnSt := .off
  en : Bool := false
  pendingOn : Bool := false
  disableRecorded : Bool := false
  deriving DecidableEq, Repr

/-- The latch that a low-word read leaves for one access path and register, R5. -/
structure Latch where
  path : Path
  off : Nat
  high : W32
  deriving DecidableEq, Repr

/-- The algorithms of the SPDM responder, R473: BaseAsymAlgo TPM_ALG_ECDSA_ECC_NIST_P521, BaseHashAlgo and
MeasurementHashAlgo TPM_ALG_SHA_512, DHE SECP_521_R1, AEAD AES-256-GCM, KeySchedule SPDM. -/
inductive SpdmAlg where
  | asymEcdsaP521
  | hashSha512
  | measSha512
  | dheSecp521r1
  | aeadAes256Gcm
  | keyScheduleSpdm
  deriving DecidableEq, Repr

/-- SPDM responses, R473 to R475. -/
inductive SpdmResp where
  | version (entries : List Byte)
  | capabilities (ctExponent : Nat)
  | algorithms (sel : List SpdmAlg)
  | digests (digest : Option (BitVec 512))
  | certificate (portion : List Byte) (remainder : Nat)
  | challengeAuth (digest summary sig : List Byte)
  | measurements (blocks : List (Nat × BitVec 512)) (sig : Option (List Byte))
  | keyExchangeRsp (session : Nat) (exchange sig : List Byte)
  | finishRsp
  | endSessionAck
  | heartbeatAck
  | keyUpdateAck
  | chunkSendAck (handle seqNo : Nat)
  | chunkResponse (handle seqNo : Nat) (last : Bool) (chunk : List Byte)
  | errBusy
  | errInvalidRequest
  | errUnexpectedRequest
  | errUnsupportedRequest
  | errUnspecified
  | errResponseNotReady (token : Nat)
  | errInvalidSession
  | errDecrypt
  | errVersionMismatch
  | errSessionLimit
  | errLargeResponse (handle : Nat)
  deriving DecidableEq, Repr

/-- What the module sends outside: the model's record of observations, oldest first. -/
inductive Out where
  | readData (path : Path) (bytes : Nat) (val : W64)
  | readOnes (path : Path) (bytes : Nat)
  | accessRefused (path : Path)
  | henlanNotReady (endpoint : Nat)
  | bar4Data (bytes : List Byte)
  | bar4UnsupportedRequest
  | bar4CompleterAbort
  | cfgData (val : Nat)
  | cfgRetry
  | bar2Data (bytes val : Nat)
  | msix (vector : Nat)
  | packet (pkt : Packet)
  | forwarded (outPort : Nat) (pkt : Packet)
  | spdm (t : Transport) (r : SpdmResp)
  | mctpReply (eid : Byte)
  deriving DecidableEq, Repr

/-- The applied mode of an HBM region, R28. -/
inductive Region where
  | interleaved
  | homed (home : Die)
  | unbacked
  deriving DecidableEq, Repr

/-- Issue state of a placed record, R61 to R63. -/
inductive PlSt where
  | placed
  | issued
  deriving DecidableEq, Repr

/-- A record placed on a core: its DISPATCH, stream and index, its 32 bytes, the address of the
die's operand table, its place in the core's placement order, when it issued, and, for a paged
ATTB, whether its staging fill has run or has asked Vetch for its pages (R173), and the running time an issued BAR or WAIT has
waited (R127). `data` marks a record whose effects are done; `dests` are the ranges outside its core that an
issued record writes. -/
structure Placed where
  seq : Nat
  ctx : CtxId
  stream : Nat
  idx : Nat
  raw : BitVec 256
  opdBase : Nat
  pos : Nat
  st : PlSt := .placed
  issuedAt : Nat := 0
  gen : Nat := 0
  staged : Bool := false
  asked : Bool := false
  waited : Nat := 0
  data : Bool := true
  dests : List (Nat × Nat) := []
  deriving DecidableEq, Repr

/-- Role of a physical core, Table 9 of The compute core. -/
inductive Role where
  | inService
  | spare
  | retired
  deriving DecidableEq, Repr

/-- A physical core: role and logical index (R96), the records placed on it in order (R61), the
SAT and NAN flags of its slots, the record awaiting replay and its run (R71), the spare a retirement copies to
(R72), when it was last moved (R411), whether its retirement waits for a thermal move in progress on its die (R411), when the fault
of its retirement and that of its scratchpad bank under copy were detected (R446), its 64 B lines with an uncorrectable error, by offset in its window (R78, R83), and the times of corrected errors by
scratchpad bank, 32 for the accumulator store (R79, R83). -/
structure Core where
  role : Role := .spare
  logical : Option LCore := none
  queue : List Placed := []
  nextPos : Nat := 0
  accFlags : BitVec 64 := 0
  replay : Option Nat := none
  replayRun : Nat := 0
  retireTo : Option PCore := none
  thermalMove : Bool := false
  movedAt : Option Nat := none
  stopped : Bool := false
  retireWait : Bool := false
  since : Nat := 0
  bankAt : Nat := 0
  badLines : List Nat := []
  ceTimes : SMap (List Nat) := []
  deriving DecidableEq, Repr

/-- A barrier generation under way: its ID, the die of a die-scope barrier, generation number,
participants that have issued, and COUNT (R123). -/
structure BarGen where
  id : Nat
  seq : Nat
  die : Option Die
  gen : Nat
  issued : List (Nat × Nat)
  count : Nat
  deriving DecidableEq, Repr

/-- An event entry waiting for room in its context's event ring, with the descriptor's ring
(R335). -/
structure EventEnt where
  ring : RingId
  index : Nat
  ty : Byte
  status : Byte
  detail : W16
  time : Nat
  seq : Option Nat
  deriving DecidableEq, Repr

/-- A job context: event ring indices (R335), whether a recovery found its event ring full (R360), semaphores and stall counters by 256 × die + index
(R125, R220), barrier generations (R123), ledger totals (R417), sample number (R481), the dies of
which its save area holds a saved state (R353), what each saved part held as it was saved, by
die, and the semaphores changed since (R354, R357). -/
structure Ctx where
  prod : Nat := 0
  phase : Bool := false
  cons : Nat := 0
  evWait : List EventEnt := []
  evHold : Bool := false
  sems : SMap Nat := []
  stalls : SMap Nat := []
  bars : List BarGen := []
  coreE : Nat := 0
  hbmE : Nat := 0
  portE : Nat := 0
  mediaE : Nat := 0
  winStart : Nat := 0
  winUsed : Nat := 0
  exhausted : Bool := false
  sampleSeq : Nat := 0
  savedDies : List Die := []
  savedMem : SMap (List (Nat × Byte)) := []
  semMoved : List Nat := []
  deriving DecidableEq, Repr

/-- A submission ring beyond its registers: DISPATCHes and others fetched since it left OFF
(R481), the SEM_WAIT that holds fetching (R330), whether fetch is stopped at a slot until the
next doorbell (R329), and the interrupt holdoff (R337). -/
structure Ring where
  fetched : Nat := 0
  semHold : Option Nat := none
  stopped : Bool := false
  holdoffEnd : Option Nat := none
  held : Bool := false
  deriving DecidableEq, Repr

/-- Progress of a fetched descriptor. -/
inductive DescSt where
  | waiting
  | started
  | done
  deriving DecidableEq, Repr

/-- A descriptor in flight (R330): fetch order, ring, slot, type and the 64 bytes read at fetch
followed by a DISPATCH's argument block, whether an open FENCE holds its start (R311), its number among the ring's fetches (R481), start time, the outcome so far of a DMA descriptor (R307, R309), and when it completed. -/
structure Desc where
  seq : Nat
  ring : RingId
  slot : Nat
  ty : Nat
  bytes : List Byte
  st : DescSt := .waiting
  held : Bool := false
  fetchNo : Nat := 0
  time : Nat := 0
  failed : BitVec 16 := 0
  mism : BitVec 16 := 0
  cmpFirst : Option Nat := none
  cmpCount : Nat := 0
  status : Byte := 0
  detail : W16 := 0
  deriving DecidableEq, Repr

/-- State of a plan handle, R139, R140. -/
inductive PlanSt where
  | loading
  | loaded
  | unloading
  deriving DecidableEq, Repr

/-- A plan under a handle of a context: its area in HBM, length, descriptor that loads it, and
the prefetch depth of its header (R119, R139). -/
structure Plan where
  ctx : CtxId
  handle : Nat
  st : PlanSt
  area : Nat
  size : Nat
  loadSeq : Nat
  unloadSeq : Option Nat := none
  depth : Nat := 4
  deriving DecidableEq, Repr

/-- An open chain of a plan group with its dies and streams on each, R147, R150. -/
structure Chain where
  ctx : CtxId
  handle : Nat
  group : Nat
  dies : List Die
  streams : Nat
  deriving DecidableEq, Repr

/-- State of an admitted DISPATCH, R346, R355, R357. -/
inductive DispSt where
  | ready
  | switching
  | running
  | preempted
  deriving DecidableEq, Repr

/-- The command counter set of a DISPATCH on a die and its context, R481 Table 1: `cyc` holds its cycle counts of arrays, Speedwells,
vector units, issue waits and Teasel, and `cycNs` the core and Teasel nanoseconds of each that the counts do not hold yet
(log 38). -/
structure Counters where
  seq : Nat := 0
  owner : Option CtxId := none
  epoch : W64 := 0
  runNs : Nat := 0
  stallNs : Nat := 0
  hbmRd : Nat := 0
  hbmWr : Nat := 0
  moveBytes : Nat := 0
  replays : Nat := 0
  cyc : List Nat := [0, 0, 0, 0, 0]
  cycNs : List Nat := [0, 0, 0, 0, 0]
  restored : Bool := false
  paused : Bool := false
  deriving DecidableEq, Repr

/-- An admitted DISPATCH: context, ring, slot and fetch count, plan and entry, variant, dies and
their section addresses, extents and arguments, deadline, budget, cost W, planned clock, run
time so far, energy, sticky flags (R50), chain role and
group, and while it is pre-empted its placed records by 28 × die + core and its counters by die. -/
structure Disp where
  seq : Nat
  ctx : CtxId
  ring : RingId
  slot : Nat
  fetchNo : Nat
  handle : Nat
  entry : Nat
  variant : Nat
  dies : List Die
  sections : List (Die × Nat)
  ndim : Nat
  dims : List Nat
  args : List W64
  deadline : Option Nat
  budget : Option Nat
  cost : Nat
  mhz : Nat
  watchdogMs : Nat
  role : Nat
  group : Nat
  st : DispSt := .ready
  begun : Bool := false
  runTime : Nat := 0
  since : Nat := 0
  energy : Nat := 0
  capped : Bool := false
  sat : Bool := false
  nan : Bool := false
  parked : SMap (List Placed) := []
  ctrs : SMap Counters := []
  deriving DecidableEq, Repr

/-- A way of Vetch's translation buffer, R175. -/
structure TlbEnt where
  set : Nat
  way : Nat
  ctx : CtxId
  page : Nat
  addr : Nat
  deriving DecidableEq, Repr

/-- A clock island: planned clock and set frequency, caps of a degraded rail group and of heat in
MHz (R405), the thermal stop, a droop in progress, the times until which droops raise its guard
(R404), the voltage it needs and its own supply's (R402, R403), and since when it is at or above MOVE_C (R411). -/
structure IslandSt where
  plan : Nat := 1400
  freq : Nat := 0
  capRail : Nat := 1600
  capThermal : Nat := 1600
  stopped : Bool := false
  droop : Bool := false
  raised : List Nat := []
  needMv : Nat := 0
  setMv : Nat := 0
  hotSince : Option Nat := none
  capAt : Option Nat := none
  deriving DecidableEq, Repr

/-- Newel's standby twin, AVL_DIE.TWIN of R438. -/
inductive Twin where
  | standby
  | active
  | failed
  deriving DecidableEq, Repr

/-- A compute die: what holds it (R341), the context whose state is on it (R347), whether what
its cores hold is of a context that has closed, the command
counters, when the DISPATCH started with the counters of the one before it, what held the die at the start of the present
sample instant, the periodic samples still to be written, and when final samples were written (R481 to R483), Teasel's running record (R93), Vetch's buffer, pointers,
sampled roots and walks (R174, R175), the sampled MM_1X1 (R189), Newel's takeover with the time
of its failure, its twin, and whether the twin that takes over has failed too (R431, R438), when the faults of the Gallery banks under copy were detected, by spare (R446), islands, the voltages of its VCG and VSH rails by rail group (R403), loss (R435), whether Teasel (R95) or the media engine (R284) is out of service,
a thermal move under way (R411), and the times of corrected errors by Gallery bank (R432). -/
structure DieSt where
  run : Option Nat := none
  lastCtx : Option CtxId := none
  stale : Bool := false
  ctr : Counters := {}
  startedAt : Option Nat := none
  prevCtr : Option (CtxId × Counters) := none
  snap : Option (Nat × Option (CtxId × Counters)) := none
  due : List (Nat × CtxId × Counters) := []
  finalAt : Option Nat := none
  teaRun : Option Placed := none
  tlb : List TlbEnt := []
  tlbPtr : SMap Nat := []
  roots : SMap Nat := []
  walks : List (CtxId × Nat) := []
  mm1x1 : Bool := true
  takeover : Bool := false
  takeAt : Nat := 0
  galAt : SMap Nat := []
  twin : Twin := .standby
  newelOn : Bool := true
  newelAgain : Bool := false
  railOn : Bool := false
  lost : Bool := false
  teaselOut : Bool := false
  mediaOut : Bool := false
  islands : SMap IslandSt := []
  railMv : SMap Nat := []
  moving : Option PCore := none
  galCe : SMap (List Nat) := []
  deriving DecidableEq, Repr

/-- One credit that a receiving ROT or HALO has granted to its sender: opcode, DISPATCH, receiving
and sending die and stream, and the receiving record's place on its core (R122). -/
structure Credit where
  op : Nat
  seq : Nat
  rDie : Die
  rStream : Nat
  sDie : Die
  sStream : Nat
  pos : Nat
  deriving DecidableEq, Repr

/-- A permute cycle that this rank leads or takes part in, R246: its head, the index that a leader's present move
fills, the staging half of a leader (2 for a rank that does not lead it), the time at which that move began or, without
leading, of the last message, and whether it has ended, by completion or by being abandoned (R247). -/
structure PermCycle where
  head : Nat
  x : Nat
  half : Nat
  since : Nat := 0
  done : Bool := false
  failed : Bool := false
  deriving DecidableEq, Repr

/-- An open collective, R225 to R247: the block's bytes, the rank table, count table and map as read at its
start, T_START, the areas that R241 guards; of the sender role whether sending has closed and which owners
timed out, with CONTRIBs sent by owner; of the owner role the messages and END counts by copy, the copies
chosen by rank, the commit pointer, its end, marks by copy and unit and committed marks by unit, and
duplicates; of a gather the pieces of units that arrived, owner states, failed parts, ranks served and when it began; of
a permute its cycles, heads still to lead, cycles led to completion, pieces of units arrived, own indices filled, and how
many cycles were abandoned and the first of them. Copies are keyed 2 × rank + (1 for a backup copy), the messages that
reached a controller 32 × copy + controller. -/
structure Coll where
  seq : Nat
  ctx : CtxId
  block : List Byte
  table : List Nat := []
  counts : List Nat := []
  map : List Nat := []
  start : Nat
  guards : List (Nat × Nat) := []
  senderDone : Bool := false
  senderTimedOut : Bool := false
  skipOwners : List Nat := []
  sent : SMap Nat := []
  unsent : Nat := 0
  got : SMap Nat := []
  gotAt : SMap Nat := []
  ends : SMap Nat := []
  chosen : SMap Nat := []
  nextRank : Nat := 0
  ownerDone : Bool := false
  ownerTimedOut : Bool := false
  marks : SMap (Int × Bool) := []
  units : SMap (Int × Bool) := []
  dups : Nat := 0
  arrived : List Nat := []
  ownerStates : SMap (Nat × Bool × Nat) := []
  failedParts : BitVec 16 := 0
  served : List Nat := []
  gatherFrom : Nat := 0
  cycles : List PermCycle := []
  heads : List Nat := []
  ledDone : Nat := 0
  hopGot : SMap (List Nat) := []
  landed : List Nat := []
  abandoned : Nat := 0
  abandon : Option (Nat × Nat) := none
  deriving DecidableEq, Repr

/-- An ARM that has been recorded, R234, with how many of its arrivals no gather or reduction has used up (log 100). -/
structure Arm where
  group : Nat
  bucket : Nat
  step : Nat
  rank : Nat
  fresh : Nat := 0
  deriving DecidableEq, Repr

/-- A combining entry of a memory controller, R231, of an open collective: its line with the owner, its
16 sums, contribution count, e_max and SAT marker. Entries stand in the order of their allocation. -/
structure Comb where
  ctrl : Nat
  coll : Nat
  line : Nat
  owner : Nat
  vals : List Int
  count : Nat
  eMax : Int
  sat : Bool
  deriving DecidableEq, Repr

/-- Progress of a media sample. -/
inductive SampleSt where
  | queued
  | decoding
  | decoded
  deriving DecidableEq, Repr

/-- A media sample of a stream, R262 to R265: its descriptor, index, source, capture time, override block, END,
epoch; its slot, start time, headers and what the codec kept then, whether it is concealed whole for want of an intra
picture (R279), time lost to an abandoned attempt in µs, what its decode found, and its picture as delivered. -/
structure Sample where
  seq : Nat
  sample : Nat
  src : Nat
  len : Nat
  capture : Nat
  ovr : Option (List Byte)
  last : Bool
  epoch : Nat
  st : SampleSt := .queued
  slot : Nat := 0
  tStart : Nat := 0
  claim : HeaderClaim := {}
  hist : Nat := 0
  lost : Bool := false
  abandonedUs : Nat := 0
  decodeUs : Nat := 0
  late : Bool := false
  refused : Bool := false
  concealed : Bool := false
  refConcealed : Bool := false
  dmgN : Nat := 0
  dmgFirst : Nat := 0
  pic : Option Pic := none
  deriving DecidableEq, Repr

/-- A media stream context, R255 to R284: the handle it serves when moved, owner, stream and parameter block, a
MEDIA_OPEN that waits for its restart, the descriptors that opening and closing complete, accepted and waiting
samples, slots taken, epoch and position (R273), running counts of damage and late samples, decode times of
R280, start times of the pictures of the last second and size of the last picture (R254), whether a reference is
concealed (R278) or lost until an intra picture (R279), the previous picture in delivery order (R277), and what the codec
keeps. Of an audio stream, coded rate, channels, coded values taken and output samples formed, and the last of each with
their marks: coded values, resampled and gained samples, and samples as delayed (R271). -/
structure Stream where
  handle : Nat := 0
  moved : Bool := false
  owner : Option CtxId := none
  block : List Byte := []
  param : List Byte := []
  next : Option (List Byte × List Byte × Nat) := none
  openSeq : Option Nat := none
  closeSeqs : List Nat := []
  queue : List Sample := []
  waiting : List Sample := []
  started : Nat := 0
  epoch : Nat := 0
  posInEpoch : Nat := 0
  dmg : Nat := 0
  late : Nat := 0
  times : List Nat := []
  starts : List Nat := []
  lastSize : Option (Nat × Nat) := none
  refBad : Bool := false
  refLost : Bool := false
  prev : Option Pic := none
  hist : Nat := 0
  rate : Nat := 0
  chans : Nat := 0
  inCount : Nat := 0
  outCount : Nat := 0
  pcm : List (List Nat × Nat) := []
  outs : List (List Nat × Nat) := []
  line : List (List Nat × Nat) := []
  deriving DecidableEq, Repr

/-- A part of a DMA descriptor assigned to a queue, with its chunks still to do (R302, R303), and whether the first
of them had started when its context was stopped (R314). -/
structure DmaPart where
  seq : Nat
  part : Nat
  chunks : List Nat
  busy : Bool := false
  deriving DecidableEq, Repr

/-- A memory controller beyond its registers: times of corrected codewords by row key, retired
rows by bank key, retired banks, the migration under way (bank?, key) and when it began, spare lanes used by
pseudo-channel, codewords scrubbed in the pass under way with the stack address of the last one and the time at which
the next is due (R292), the stack's temperature as last reported and, by pseudo-channel, the time and temperature of
the last training (R297), and the halved request rate of R410. Temperatures in units of 0.125 °C. -/
structure McSt where
  ceTimes : SMap (List Nat) := []
  retiredRows : SMap Nat := []
  bankRetired : List Nat := []
  mig : Option (Bool × Nat) := none
  migAt : Nat := 0
  laneUsed : SMap Nat := []
  scrubLast : Option Nat := none
  scrubNext : Nat := 0
  temp : Option Int := none
  trained : SMap (Nat × Option Int) := []
  throttled : Bool := false
  deriving DecidableEq, Repr

/-- Ring states, R383 Table 4. -/
inductive RingSt where
  | bypassed
  | loopTrained
  | requested
  | switching
  | training
  | admitted
  | leaving
  deriving DecidableEq, Repr

/-- A fabric ring of the module: state, switch sensed CLOSED, REASON, segments up, and the time
it entered its state (R379, R383, R395). -/
structure FRingSt where
  st : RingSt := .bypassed
  closed : Bool := true
  reason : Nat := 0
  plusUp : Bool := false
  minusUp : Bool := false
  since : Nat := 0
  deriving DecidableEq, Repr

/-- The fabric manager: rings still to admit and to leave (R385), the view of R376 (admitted
addresses, down segments by minus-side address and ring, eligible time masters), whether the own
address is admitted, segments whose traffic stands on the other rail (R384, R393), the last exchange
of TIME packets (R389), the lock, and the correction still to slew with the count of the oscillator
that paces it (R391); of the neighbour on each side of each ring the transmit stamp of its last TIME packet and the own
stamp of its arrival, in ps, when an offset was last measured, and the correction of the own frequency in parts per
10^9 (R389). An acceptance names the requester's address. -/
structure Fab where
  admitQ : List FRing := []
  leaveQ : List (FRing × Nat) := []
  admittedAddrs : List Nat := []
  downSegs : List (Nat × Nat) := []
  selfAdmitted : Bool := false
  moved : List (FRing × Bool) := []
  accepted : List (FRing × Bool × Nat) := []
  masters : List Nat := []
  lastExchange : Option Nat := none
  locked : Bool := false
  slew : Int := 0
  osc : Nat := 0
  stamps : SMap (Nat × Nat) := []
  lastOffset : Option Nat := none
  freq : Int := 0
  deriving DecidableEq, Repr

/-- A Miotos port's working lasers lost (R387) and good lanes per direction (R388). -/
structure PortSt where
  lasersOut : Nat := 0
  txGood : Nat := 9
  rxGood : Nat := 9
  trained : Bool := false
  deriving DecidableEq, Repr

/-- A firmware image bank as R463 and R464 see it: whether the header, certificate, signature,
the digest of the hub firmware and those of the other components check, the security version and the measured digests of header and components. -/
structure Image where
  headerOk : Bool := true
  certOk : Bool := true
  sigOk : Bool := true
  hubDigestOk : Bool := true
  digestsOk : Bool := true
  svn : Nat := 0
  header : BitVec 512 := 0
  comps : List (BitVec 512) := [0, 0, 0, 0]
  deriving DecidableEq, Repr

/-- A fault record, R446 Table 5. -/
structure FaultRec where
  time : Nat
  seq : Nat
  cls : Nat
  kind : Nat
  die : Nat
  unit : Nat
  detail : Nat
  pauseUs : Nat
  addr : Nat
  left : Nat
  deriving DecidableEq, Repr

/-- The spare map of store section 1 (R443): retired cores, array and bank substitutions,
Gallery banks, and units lost. -/
structure SpareMap where
  cores : List (Nat × Nat) := []
  arrays : List (Nat × W32) := []
  spads : List (Nat × W32) := []
  gallery : List (Nat × W32) := []
  hbm : List (Nat × McSt) := []
  ports : List (Nat × PortSt × W32) := []
  phases : List (Nat × Nat) := []
  lostDies : List Die := []
  hubAFailed : Bool := false
  hubBFailed : Bool := false
  deriving DecidableEq, Repr

/-- What a configuration bank carries, R443: sticky registers, the spare map, the region map,
the fault log, the calibration, the boot selection and SVN_FLOOR. -/
structure StoreData where
  sticky : List (Nat × W64) := []
  spares : SpareMap := {}
  regions : SMap (Nat × Nat) := []
  log : SMap FaultRec := []
  logSeq : Nat := 0
  repairs : Nat := 0
  ecal : List Nat := []
  ecalAt : Option Nat := none
  bank : Bool := false
  svnFloor : Nat := 0
  identityOk : Bool := true
  deriving DecidableEq, Repr

/-- A configuration bank, R443, R445. -/
structure Bank where
  valid : Bool := true
  seq : Nat := 0
  data : StoreData := {}
  deriving DecidableEq, Repr

/-- The persistent store: two configuration banks, two image banks, the working copy that
holds changes not yet written, a write in progress to a bank (R442 to R444), and whether the last start-up found no valid
bank (R445). -/
structure Store where
  a : Bank := { seq := 1 }
  b : Bank := { valid := false, seq := 0 }
  cur : StoreData := {}
  dirty : Bool := false
  writing : Option Bool := none
  written : StoreData := {}
  lost : Bool := false
  imgA : Image := {}
  imgB : Image := {}
  deriving DecidableEq, Repr

/-- A log entry of R468: block index, fabric time, digest. -/
structure MeasEnt where
  block : Nat
  time : Nat
  digest : BitVec 512
  deriving DecidableEq, Repr

/-- The measurement log, R468, R469. -/
structure Meas where
  blocks : SMap (BitVec 512) := []
  log : List MeasEnt := []
  count : Nat := 0
  digest : BitVec 512 := 0
  deriving DecidableEq, Repr

/-- Connection state of an SPDM transport: the last stage of negotiation passed, the requester's CT exponent,
sessions open and whether each is established, a response held for RESPOND_IF_READY, chunks received and their
number, and the large response that CHUNK_GET reads, with its handle (R473, R475). -/
structure Spdm where
  stage : Nat := 0
  ct : Nat := 20
  sessions : List (Nat × Bool) := []
  nextSession : Nat := 0
  notReady : Option (Nat × SpdmResp) := none
  chunks : List Byte := []
  chunkNo : Nat := 0
  large : List Byte := []
  handle : Nat := 0
  deriving DecidableEq, Repr

/-- Kinds of reset, R452. -/
inductive ResetKind where
  | powerOn
  | warm
  | cold
  deriving DecidableEq, Repr

/-- Start-up and pins: the last step completed, whether the module is powered, which reset began
it, the pins of R501, the link's waiting, recovery of R466, the spread of the clocks in force (R421, `ssc`), the
sampled SLOT_ID (R503), and which feeds are connected (R397). -/
structure Boot where
  powered : Bool := true
  stage : Nat := 0
  kind : ResetKind := .cold
  since : Nat := 0
  recovery : Bool := false
  perstLow : Bool := false
  resetReqLow : Bool := false
  modPwrgd : Bool := false
  thermAlert : Bool := false
  linkUp : Bool := false
  cfgReady : Bool := false
  ssc : Bool := true
  slotId : Fin 16 := 0
  dynAddr : Option (BitVec 7) := none
  eid : Byte := 0
  oos : Bool := false
  feedA : Bool := true
  feedB : Bool := true
  deriving DecidableEq, Repr

/-- The hub halves, R439 to R441: B active, the standby able to take over, a change-over in
progress, whether it was requested and when it began, whether the half that takes over has failed too (R431), messages
and completions held until it ends (R440), which half failed; and link and power states. -/
structure Hub where
  activeB : Bool := false
  standbyOk : Bool := false
  takeover : Bool := false
  requested : Bool := false
  takeAt : Nat := 0
  again : Bool := false
  msixHeld : List Nat := []
  answers : List (Nat × Byte × W16) := []
  aFailed : Bool := false
  bFailed : Bool := false
  canSignA : Bool := false
  canSignB : Bool := false
  d3hot : Bool := false
  linkLoopback : Bool := false
  msixEnable : Bool := false
  msixFnMask : Bool := false
  badLanes : BitVec 16 := 0
  bars : List Nat := [0, 0, 0]
  devCtl : Nat := 0x2810
  farEnd : Bool := false
  powerCap : Nat := 18
  currentCap : Nat := 18
  powerDown : Bool := false
  currentDown : Bool := false
  powerAt : Option Nat := none
  currentAt : Option Nat := none
  bar4Log2 : Nat := 36
  bridges : List Bridge := []
  loopSince : Nat := 0
  outOfService : Bool := false
  deriving DecidableEq, Repr

/-- Steps of a live activation, R448: a die whose Newel is about to hand over and one that hands over; and of its
rollback, R449: the dies still to return to the old image, one that returns, whether the hub half returns too, and the
RESULT to be shown. -/
inductive FwAct where
  | idle
  | standbyLoading
  | twinsLoading
  | handOver (d : Nat)
  | handing (d : Nat)
  | selecting
  | reloading
  | undo (l : List Nat) (hub : Bool) (result : Nat)
  | undoing (d : Nat) (l : List Nat) (hub : Bool) (result : Nat)
  | undone (result : Nat)
  deriving DecidableEq, Repr

/-- Firmware update state, R447 to R449: the running bank and image, the staged image. -/
structure Fw where
  act : FwAct := .idle
  staged : Option Image := none
  running : Image := {}
  switched : List Nat := []
  deriving DecidableEq, Repr

/-- A switch of a die set, R355: the step completed, the incoming DISPATCH and its dies, the DISPATCHes that it
pre-empts, and the contexts whose state stood on the dies as it began. -/
structure Switch where
  step : Nat
  inSeq : Nat
  dies : List Die
  outs : List Nat
  outCtxs : List (Die × CtxId) := []
  deriving DecidableEq, Repr

/-- A recovery, R360: the step completed, cause, charged contexts, die, t0, the slots that each
ring skips, and whether a unit of the hub detected the fault; and, when the module leaves service after it, KIND, DIE and UNIT of the loss (R436). -/
structure Recovery where
  step : Nat
  cause : Byte
  die : Nat
  charged : List CtxId
  recorded : Nat
  t0 : Nat
  skips : List (RingId × Nat × Nat)
  hubSide : Bool := false
  loss : Option (Nat × Nat × Nat) := none
  deriving DecidableEq, Repr

/-- A detected job fault that has not yet reached HIF, R359. -/
structure FaultReport where
  cause : Byte
  die : Nat
  ctxs : List CtxId
  addr : Nat
  hubSide : Bool := false
  deriving DecidableEq, Repr

/-- Arbiter pointers of R21 that rules of this model name: the fetcher over 256 rings, with the
grant under way and the slots it has left (R330), the
deadline-less order over 64 contexts, and the semaphore waits of each die over its cores. -/
structure Arb where
  fetch : Nat := 0
  grant : Option (RingId × Nat) := none
  noDeadline : Nat := 0
  sem : SMap Nat := []
  deriving DecidableEq, Repr

/-- The state of the module. `hops` holds the HOPs that came before their PERMUTE started here (R246), `busyNs`, by
register offset, the nanoseconds in which a cycle counter's unit was busy and which the counter does not hold yet
(log 38), `acct` what the present interval of the ledger has seen and `ledgerQ` the update instants that are due, each
with its interval (R413, R414). -/
structure State where
  pending : List Instr := []
  out : List Out := []
  free : Nat := 0
  now : Nat := 0
  regs : SMap W64 := []
  latches : List Latch := []
  mem : SMap Byte := []
  hostMem : SMap Byte := []
  bad : List Nat := []
  scrambled : SMap Nat := []
  held : List Instr := []
  regionMap : SMap Region := []
  commitBusy : Bool := false
  fns : SMap Fn := []
  ctxs : SMap Ctx := []
  rings : SMap Ring := []
  nextSeq : Nat := 0
  descs : List Desc := []
  plans : List Plan := []
  chains : List Chain := []
  disps : List Disp := []
  switches : List Switch := []
  recovery : Option Recovery := none
  reports : List FaultReport := []
  arb : Arb := {}
  cores : SMap Core := []
  dies : SMap DieSt := []
  credits : List Credit := []
  colls : List Coll := []
  combs : List Comb := []
  arms : List Arm := []
  hops : List Packet := []
  streams : SMap Stream := []
  dmaq : SMap (List DmaPart) := []
  mcs : SMap McSt := []
  frings : SMap FRingSt := []
  ports : SMap PortSt := []
  fab : Fab := {}
  hub : Hub := {}
  store : Store := {}
  meas : Meas := {}
  spdmDoe : Spdm := {}
  spdmMctp : Spdm := {}
  boot : Boot := {}
  fw : Fw := {}
  ledgerFrac : SMap Nat := []
  trcSeq : SMap Nat := []
  trcDrop : SMap Nat := []
  trcTok : SMap (Nat × Nat) := []
  busyNs : SMap Nat := []
  acct : SMap Nat := []
  ledgerQ : List (Nat × SMap Nat) := []
  deriving DecidableEq, Repr

/-- What stops the machine. -/
inductive Fault where
  /-- Raised by no command: the manual names no condition that stops the module for good (a job
  fault recovers, R360; power loss and out of service are states, R398, R436). Safe. -/
  | unreachable
  deriving DecidableEq, Repr

/-- Why a command has no meaning. -/
inductive Refusal where
  /-- Raised by the arm of a command that is not modelled yet, by its mnemonic. Safe: nothing
  can be proved about such a command. -/
  | notModelled (mnemonic : String)
  deriving DecidableEq, Repr

/-- The module right after a cold reset (R9, R452): no start-up step done, every function OFF,
every register at the value of its Reset column, and where the manual gives none at zero
(log 1); fabric time 0; the persistent store as log 4 says. -/
def State.reset : State := {}

end Sys2Proof.Machine
end

