-- ==== Sys2Proof/Machine/Ops.lean ====
section
/-! DEFINITION. The operations that every meaning is built from: sparse maps, bit fields, bytes,
memory, and the accessors of the structured parts of the state. -/

namespace Sys2Proof.Machine

/-! ### Sparse maps -/

/-- The entry at a key. -/
def SMap.find {α : Type} (m : SMap α) (k : Nat) : Option α :=
  match m with
  | [] => none
  | (k', v) :: rest => if k' = k then some v else SMap.find rest k

/-- The map with an entry at `k`, keys kept rising. -/
def SMap.put {α : Type} (m : SMap α) (k : Nat) (v : α) : SMap α :=
  match m with
  | [] => [(k, v)]
  | (k', v') :: rest =>
    if k < k' then (k, v) :: (k', v') :: rest
    else if k = k' then (k, v) :: rest
    else (k', v') :: SMap.put rest k v

/-- The map without an entry at `k`. -/
def SMap.del {α : Type} (m : SMap α) (k : Nat) : SMap α :=
  match m with
  | [] => []
  | (k', v') :: rest => if k' = k then SMap.del rest k else (k', v') :: SMap.del rest k

/-- The entry at a key, or what an unlisted key reads as. -/
def SMap.getD {α : Type} (m : SMap α) (k : Nat) (d : α) : α :=
  match SMap.find m k with
  | some v => v
  | none => d

/-- Writes a value, dropping the entry when the value is what an unlisted key reads as. -/
def SMap.set {α : Type} [DecidableEq α] (m : SMap α) (k : Nat) (d v : α) : SMap α :=
  if v = d then SMap.del m k else SMap.put m k v

/-- Whether keys rise strictly from above a bound. -/
def SMap.risesFrom {α : Type} : Nat → SMap α → Bool
  | _, [] => true
  | b, (k, _) :: rest => decide (b ≤ k) && SMap.risesFrom (k + 1) rest

/-- Keys strictly rising. -/
def SMap.sorted {α : Type} (m : SMap α) : Bool := SMap.risesFrom 0 m

/-- The canonical form of a map: keys strictly rising, and no entry equal to what an unlisted
key reads as, which `d` gives. -/
def SMap.wf {α : Type} [DecidableEq α] (d : Nat → α) (m : SMap α) : Bool :=
  SMap.sorted m && m.all (fun e => decide (e.2 ≠ d e.1))

/-! ### Bits and bytes -/

/-- x[hi:lo], R3. -/
def bits (x hi lo : Nat) : Nat := (x / 2 ^ lo) % 2 ^ (hi + 1 - lo)

/-- x with bits hi to lo replaced by `v`. -/
def setBits (x hi lo v : Nat) : Nat :=
  x - bits x hi lo * 2 ^ lo + (v % 2 ^ (hi + 1 - lo)) * 2 ^ lo

/-- A field of a register value. -/
def fld (v : W64) (hi lo : Nat) : Nat := bits v.toNat hi lo

/-- A register value with a field replaced. -/
def setFld (v : W64) (hi lo x : Nat) : W64 := BitVec.ofNat 64 (setBits v.toNat hi lo x)

/-- The unsigned number of a little-endian byte list, R3. -/
def leNat : List Byte → Nat
  | [] => 0
  | b :: rest => b.toNat + 256 * leNat rest

/-- The `n` little-endian bytes of a number, R3. -/
def toLe : Nat → Nat → List Byte
  | 0, _ => []
  | n + 1, x => BitVec.ofNat 8 x :: toLe n (x / 256)

/-- The two's complement value of a number of `w` bits. -/
def sgn (w x : Nat) : Int := if x % 2 ^ w < 2 ^ (w - 1) then (x % 2 ^ w : Nat) else (x % 2 ^ w : Nat) - (2 ^ w : Nat)

/-- The `w`-bit two's complement pattern of an integer. -/
def unsgn (w : Nat) (x : Int) : Nat := (x % (2 ^ w : Nat)).toNat

/-- `n` bytes of a list from an offset, missing bytes zero. -/
def slice (bs : List Byte) (off n : Nat) : List Byte :=
  let t := (bs.drop off).take n
  t ++ List.replicate (n - t.length) 0

/-- A little-endian field of `n` bytes at an offset. -/
def leAt (bs : List Byte) (off n : Nat) : Nat := leNat (slice bs off n)

/-- Bytes of a list replaced from an offset. -/
def splice (bs : List Byte) (off : Nat) (new : List Byte) : List Byte :=
  bs.take off ++ new ++ bs.drop (off + new.length)

/-- Whether all bytes of a range of a list are zero. -/
def zeroIn (bs : List Byte) (off n : Nat) : Bool := (slice bs off n).all (fun b => b == 0)

/-- min(a, b) saturation of a counter. -/
def satAdd (a k m : Nat) : Nat := min (a + k) m

/-- Division rounded up. -/
def ceilDiv (a b : Nat) : Nat := (a + b - 1) / b

/-- The first `some` of a list of checks, in order. -/
def firstSome {α : Type} : List (Option α) → Option α
  | [] => none
  | some a :: _ => some a
  | none :: rest => firstSome rest

/-- A check: `some c` when it fails. -/
def failIf {α : Type} (b : Bool) (c : α) : Option α := if b then some c else none

/-! ### Memory -/

/-- A byte of a memory; `d` gives what an unlisted byte reads as. -/
def memByte (d : Nat → Byte) (m : SMap Byte) (a : Nat) : Byte := SMap.getD m a (d a)

/-- Writes a byte of a memory, keeping the canonical form. -/
def memSet (d : Nat → Byte) (m : SMap Byte) (a : Nat) (b : Byte) : SMap Byte :=
  SMap.set m a (d a) b

/-- `n` bytes of a memory. -/
def memRead (d : Nat → Byte) (m : SMap Byte) (a : Nat) : Nat → List Byte
  | 0 => []
  | n + 1 => memByte d m a :: memRead d m (a + 1) n

/-- Writes bytes into a memory from an address. -/
def memWrite (d : Nat → Byte) (m : SMap Byte) (a : Nat) : List Byte → SMap Byte
  | [] => m
  | b :: rest => memWrite d (memSet d m a b) (a + 1) rest

/-- The canonical form of a memory. -/
def Memory.wf (d : Nat → Byte) (m : SMap Byte) : Bool := SMap.wf d m

/-- What an unlisted device byte reads as: zero after start-up (R454); in a region whose mode or
home a commit changed, an undefined value (R30). -/
def State.devDefault (s : State) (a : Nat) : Byte :=
  let g := SMap.getD s.scrambled (a / 2 ^ 30) 0
  if g = 0 then 0 else Config.freeMem g a

/-- What an unlisted host byte reads as (log 3). -/
def hostDefault (_ : Nat) : Byte := 0

/-- The canonical form of device memory. -/
def State.memWf (s : State) : Bool := Memory.wf s.devDefault s.mem

/-- The canonical form of host memory. -/
def State.hostWf (s : State) : Bool := Memory.wf hostDefault s.hostMem

/-- Bit 63 of an address field marks a host bus address, R11. -/
def isHost (a : Nat) : Bool := decide (2 ^ 63 ≤ a)

/-- The host bus address of an address field, R11. -/
def hostAddr (a : Nat) : Nat := a % 2 ^ 63

/-- Whether an address field keeps R11: a host address, or bits 62:48 zero. -/
def addrOk (a : Nat) : Bool := isHost a || decide (a < 2 ^ 48)

/-- Device bytes. -/
def State.devRead (s : State) (a n : Nat) : List Byte := memRead s.devDefault s.mem a n

/-- Writes device bytes. -/
def State.devWrite (s : State) (a : Nat) (bs : List Byte) : State :=
  { s with mem := memWrite s.devDefault s.mem a bs }

/-- Bytes at an address field of R11, in host or device memory. -/
def State.anyRead (s : State) (a n : Nat) : List Byte :=
  if isHost a then memRead hostDefault s.hostMem (hostAddr a) n else s.devRead a n

/-- Writes bytes at an address field of R11. -/
def State.anyWrite (s : State) (a : Nat) (bs : List Byte) : State :=
  if isHost a then { s with hostMem := memWrite hostDefault s.hostMem (hostAddr a) bs }
  else s.devWrite a bs

/-- A device word of `n` bytes. -/
def State.devNat (s : State) (a n : Nat) : Nat := leNat (s.devRead a n)

/-! ### Lists -/

/-- Replaces the elements for which `p` holds. -/
def updIf {α : Type} (l : List α) (p : α → Bool) (f : α → α) : List α :=
  l.map (fun x => if p x then f x else x)

/-- `f 0, …, f (n − 1)`. -/
def tab {α : Type} (n : Nat) (f : Nat → α) : List α := (List.range n).map f

/-- Sum of a list. -/
def natSum (l : List Nat) : Nat := l.foldl (fun a b => a + b) 0

/-- Largest of a list, 0 when empty. -/
def natMax (l : List Nat) : Nat := l.foldl (fun a b => max a b) 0

/-- Smallest of a non-empty list, `d` when empty. -/
def natMinD (d : Nat) : List Nat → Nat
  | [] => d
  | a :: rest => rest.foldl (fun x y => min x y) a

/-- Distinct elements, order of first occurrence kept. -/
def dedupKeep {α : Type} [DecidableEq α] (l : List α) : List α :=
  l.foldl (fun acc x => if acc.contains x then acc else acc ++ [x]) []

/-- All dies. -/
def allDies : List Die := List.finRange 8

/-- All physical cores of a die. -/
def allPCores : List PCore := List.finRange 32

/-- The round-robin arbiter of R21: the first requesting index from the pointer on, with the
new pointer. -/
def arbitrate (req : Nat → Bool) (q n : Nat) : Option (Nat × Nat) :=
  ((List.range n).map (fun k => (q + k) % n)).find? req |>.map (fun i => (i, (i + 1) % n))

/-- Whether two half-open ranges overlap. -/
def overlaps (a n b m : Nat) : Bool := decide (a < b + m) && decide (b < a + n)

/-! ### The structured parts of the state -/

/-- The key of a function in State.fns. -/
def fnKey : FuncId → Nat
  | .core d p => 32 * d.val + p.val
  | .teasel d => 0x200 + d.val
  | .vetch d => 0x210 + d.val
  | .media d => 0x220 + d.val
  | .port p => 0x230 + p.val
  | .ctx n => 0x240 + n.val
  | .dmaq q => 0x300 + q.val
  | .ring r => 0x400 + r.val
  | .stream d h => 0x800 + 256 * d.val + h.val

/-- A function's state word as the model holds it. -/
def State.fn (s : State) (f : FuncId) : Fn := SMap.getD s.fns (fnKey f) {}

/-- Replaces a function's state. -/
def State.setFn (s : State) (f : FuncId) (v : Fn) : State :=
  { s with fns := SMap.put s.fns (fnKey f) v }

/-- Whether a function is in a state. -/
def State.fnIs (s : State) (f : FuncId) (x : FnSt) : Bool := decide ((s.fn f).st = x)

/-- A job context's data. -/
def State.ctx (s : State) (n : CtxId) : Ctx := SMap.getD s.ctxs n.val {}

/-- Changes a job context's data. -/
def State.modCtx (s : State) (n : CtxId) (f : Ctx → Ctx) : State :=
  { s with ctxs := SMap.put s.ctxs n.val (f (s.ctx n)) }

/-- A submission ring's data. -/
def State.ring (s : State) (r : RingId) : Ring := SMap.getD s.rings r.val {}

/-- Changes a submission ring's data. -/
def State.modRing (s : State) (r : RingId) (f : Ring → Ring) : State :=
  { s with rings := SMap.put s.rings r.val (f (s.ring r)) }

/-- The context of a ring, R327: r = 4n + k. -/
def ringCtx (r : RingId) : CtxId := ⟨r.val / 4, by omega⟩

/-- The rings of a context. -/
def ctxRings (n : CtxId) : List RingId :=
  (List.finRange 4).map (fun k => ⟨4 * n.val + k.val, by omega⟩)

/-- A physical core. -/
def State.core (s : State) (d : Die) (p : PCore) : Core := SMap.getD s.cores (32 * d.val + p.val) {}

/-- Changes a physical core. -/
def State.modCore (s : State) (d : Die) (p : PCore) (f : Core → Core) : State :=
  { s with cores := SMap.put s.cores (32 * d.val + p.val) (f (s.core d p)) }

/-- The physical core that serves a logical core, R10. -/
def State.phys (s : State) (d : Die) (c : LCore) : Option PCore :=
  allPCores.find? (fun p =>
    decide ((s.core d p).role = .inService) && decide ((s.core d p).logical = some c))

/-- A compute die. -/
def State.die (s : State) (d : Die) : DieSt := SMap.getD s.dies d.val {}

/-- Changes a compute die. -/
def State.modDie (s : State) (d : Die) (f : DieSt → DieSt) : State :=
  { s with dies := SMap.put s.dies d.val (f (s.die d)) }

/-- The key of a stream context in State.streams. -/
def strKey (d : Die) (h : Fin 256) : Nat := 256 * d.val + h.val

/-- A media stream context. -/
def State.stream (s : State) (d : Die) (h : Fin 256) : Stream := SMap.getD s.streams (strKey d h) {}

/-- Changes a media stream context. -/
def State.modStream (s : State) (d : Die) (h : Fin 256) (f : Stream → Stream) : State :=
  { s with streams := SMap.put s.streams (strKey d h) (f (s.stream d h)) }

/-- The parts on a DMA queue. -/
def State.dq (s : State) (q : QueueId) : List DmaPart := SMap.getD s.dmaq q.val []

/-- Replaces the parts on a DMA queue. -/
def State.setDq (s : State) (q : QueueId) (l : List DmaPart) : State :=
  { s with dmaq := SMap.put s.dmaq q.val l }

/-- A memory controller. -/
def State.mc (s : State) (d : Die) (m : Mc) : McSt := SMap.getD s.mcs (4 * d.val + m.val) {}

/-- Changes a memory controller. -/
def State.modMc (s : State) (d : Die) (m : Mc) (f : McSt → McSt) : State :=
  { s with mcs := SMap.put s.mcs (4 * d.val + m.val) (f (s.mc d m)) }

/-- A fabric ring of the module. -/
def State.fring (s : State) (i : FRing) : FRingSt := SMap.getD s.frings i.val {}

/-- Changes a fabric ring of the module. -/
def State.modFring (s : State) (i : FRing) (f : FRingSt → FRingSt) : State :=
  { s with frings := SMap.put s.frings i.val (f (s.fring i)) }

/-- A Miotos port. -/
def State.port (s : State) (p : PortId) : PortSt := SMap.getD s.ports p.val {}

/-- Changes a Miotos port. -/
def State.modPort (s : State) (p : PortId) (f : PortSt → PortSt) : State :=
  { s with ports := SMap.put s.ports p.val (f (s.port p)) }

/-- A clock island of a die. -/
def State.island (s : State) (d : Die) (x : Island) : IslandSt :=
  SMap.getD (s.die d).islands x.val {}

/-- Changes a clock island of a die. -/
def State.modIsland (s : State) (d : Die) (x : Island) (f : IslandSt → IslandSt) : State :=
  s.modDie d (fun ds => { ds with islands := SMap.put ds.islands x.val (f (s.island d x)) })

/-- A semaphore of a context on a die, R125. -/
def State.sem (s : State) (n : CtxId) (die idx : Nat) : Nat :=
  SMap.getD (s.ctx n).sems (256 * die + idx) 0

/-- Sets a semaphore. -/
def State.setSem (s : State) (n : CtxId) (die idx v : Nat) : State :=
  s.modCtx n (fun c => { c with
    sems := SMap.set c.sems (256 * die + idx) 0 v
    semMoved := if c.savedDies.any (fun d => d.val == die) then dedupKeep (c.semMoved ++ [256 * die + idx])
                else c.semMoved })

/-- Sets a stall counter of R220. -/
def State.setStall (s : State) (n : CtxId) (key v : Nat) : State :=
  s.modCtx n (fun c => { c with stalls := SMap.set c.stalls key 0 v })

/-- Keys of the account of a ledger interval (R414, R415): the nanoseconds for which a context held a die, the bytes that
a stack moved and those of a context's requests by their source (a die, or 8 for the hub), the packet bytes of a port and
those of a context's collectives, and the DISPATCHes that ran. -/
def acHold (d n : Nat) : Nat := 64 * d + n
def acStack (k : Nat) : Nat := 0x1000 + k
def acPort (p : Nat) : Nat := 0x2000 + p
def acPortCtx (p n : Nat) : Nat := 0x3000 + 64 * p + n
def acReq (k n src : Nat) : Nat := 0x10000 + (k * 64 + n) * 16 + src
def acRan (seq : Nat) : Nat := 0x100000 + seq

/-- Adds to an entry of the account of the present interval. -/
def State.account (s : State) (key v : Nat) : State :=
  { s with acct := SMap.set s.acct key 0 (SMap.getD s.acct key 0 + v) }

/-- The interval between update instants of the ledger in ns, R413. -/
def ledgerNs : Nat := 100000

/-- Appends to what the module has sent outside. -/
def State.emit (s : State) (o : Out) : State := { s with out := s.out ++ [o] }

/-- A free value, drawn from the state's counter. -/
def State.freeBits (s : State) (w : Nat) : BitVec w × State :=
  (Config.freeValue w s.free, { s with free := s.free + 1 })

/-- Draws `n` free bytes. -/
def State.freeBytes (s : State) : Nat → List Byte × State
  | 0 => ([], s)
  | n + 1 =>
    let b := Config.freeValue 8 s.free
    let (rest, s') := State.freeBytes { s with free := s.free + 1 } n
    (b :: rest, s')

/-- Makes `n` bytes at an address field undefined: each a free value. -/
def State.scramble (s : State) (a n : Nat) : State :=
  let (bs, s') := s.freeBytes n
  s'.anyWrite a bs

/-- Bytes of a device range become undefined. -/
def State.devScramble (s : State) (a n : Nat) : State :=
  let (bs, s') := s.freeBytes n
  s'.devWrite a bs

/-- A descriptor in flight. -/
def State.desc (s : State) (seq : Nat) : Option Desc := s.descs.find? (fun x => x.seq == seq)

/-- Changes a descriptor in flight; its number and its ring stay. -/
def State.modDesc (s : State) (seq : Nat) (f : Desc → Desc) : State :=
  { s with descs := updIf s.descs (fun x => x.seq == seq) (fun x => { f x with seq := x.seq, ring := x.ring }) }

/-- An admitted DISPATCH. -/
def State.disp (s : State) (seq : Nat) : Option Disp := s.disps.find? (fun x => x.seq == seq)

/-- Changes an admitted DISPATCH. -/
def State.modDisp (s : State) (seq : Nat) (f : Disp → Disp) : State :=
  { s with disps := updIf s.disps (fun x => x.seq == seq) f }

/-- An open collective. -/
def State.coll (s : State) (seq : Nat) : Option Coll := s.colls.find? (fun x => x.seq == seq)

/-- Changes an open collective. -/
def State.modColl (s : State) (seq : Nat) (f : Coll → Coll) : State :=
  { s with colls := updIf s.colls (fun x => x.seq == seq) f }

end Sys2Proof.Machine
end

