-- ==== Sys2Proof/Machine/Digest.lean ====
section
/-! DEFINITION. SHA-512, the digest of plan images, store banks and measurements (R131, R443,
R468): FIPS 180-4 over a list of bytes. -/

namespace Sys2Proof.Machine

/-- The largest number below 2^bits above `r` whose k-th power is at most `n`, bit by bit. -/
def rootBits (k n : Nat) : Nat → Nat → Nat
  | 0, r => r
  | b + 1, r => if (r + 2 ^ b) ^ k ≤ n then rootBits k n b (r + 2 ^ b) else rootBits k n b r

/-- The first 64 fraction bits of the k-th root of `p`, for a root below 64. -/
def rootFraction (k p : Nat) : Nat := rootBits k (p * 2 ^ (64 * k)) 70 0 % 2 ^ 64

/-- Whether a number below 441 is prime: no smaller divisor below 21. -/
def smallPrime (n : Nat) : Bool := decide (2 ≤ n) && (List.range 21).all (fun d => decide (d < 2) || decide (n ≤ d) || decide (n % d ≠ 0))

/-- The first 80 primes. -/
def shaPrimes : List Nat := (List.range 410).filter smallPrime

/-- The initial hash value: fractions of the square roots of the first 8 primes. -/
def shaInit : List Nat := (shaPrimes.take 8).map (rootFraction 2)

/-- The 80 round constants: fractions of the cube roots of the first 80 primes. -/
def shaK : List Nat := shaPrimes.map (rootFraction 3)

/-- Rotation right of a 64-bit word. -/
def rotr (x n : Nat) : Nat := (x / 2 ^ n ||| x * 2 ^ (64 - n)) % 2 ^ 64

/-- Sums modulo 2^64. -/
def add64 (l : List Nat) : Nat := natSum l % 2 ^ 64

/-- A big-endian word of 8 bytes. -/
def beNat (bs : List Byte) : Nat := bs.foldl (fun a b => a * 256 + b.toNat) 0

/-- The 8 big-endian bytes of a word. -/
def beBytes (x : Nat) : List Byte := (toLe 8 x).reverse

/-- Extends the message schedule, latest word first, by `n` words. -/
def shaSchedule : Nat → List Nat → List Nat
  | 0, w => w
  | n + 1, w =>
    let g := fun k => w.getD (k - 1) 0
    let s0 := rotr (g 15) 1 ^^^ rotr (g 15) 8 ^^^ (g 15 / 2 ^ 7)
    let s1 := rotr (g 2) 19 ^^^ rotr (g 2) 61 ^^^ (g 2 / 2 ^ 6)
    shaSchedule n (add64 [g 16, s0, g 7, s1] :: w)

/-- One round over the eight working words. -/
def shaRound (v : List Nat) (kw : Nat) : List Nat :=
  match v with
  | [a, b, c, d, e, f, g, h] =>
    let s1 := rotr e 14 ^^^ rotr e 18 ^^^ rotr e 41
    let ch := (e &&& f) ^^^ ((2 ^ 64 - 1 - e) &&& g)
    let t1 := add64 [h, s1, ch, kw]
    let s0 := rotr a 28 ^^^ rotr a 34 ^^^ rotr a 39
    let maj := (a &&& b) ^^^ (a &&& c) ^^^ (b &&& c)
    [add64 [t1, s0, maj], a, b, c, add64 [d, t1], e, f, g]
  | _ => v

/-- Compresses one block of 128 bytes. -/
def shaBlock (h : List Nat) (block : List Byte) : List Nat :=
  let w0 := tab 16 (fun k => beNat (slice block (8 * k) 8))
  let w := (shaSchedule 64 w0.reverse).reverse
  let v := (w.zip shaK).foldl (fun v x => shaRound v (add64 [x.1, x.2])) h
  (h.zip v).map (fun x => add64 [x.1, x.2])

/-- The padded message: a 1 bit, zeros, and the length in bits in 16 big-endian bytes. -/
def shaPad (bs : List Byte) : List Byte :=
  let n := bs.length
  let z := (239 - n % 128) % 128
  bs ++ [0x80] ++ List.replicate z 0 ++ List.replicate 8 0 ++ beBytes (8 * n)

/-- Compresses `n` blocks from a list. -/
def shaBlocks : Nat → List Nat → List Byte → List Nat
  | 0, h, _ => h
  | n + 1, h, bs => shaBlocks n (shaBlock h (bs.take 128)) (bs.drop 128)

/-- SHA-512: the 64 digest bytes. -/
def sha512 (bs : List Byte) : List Byte :=
  let p := shaPad bs
  (shaBlocks (p.length / 128) shaInit p).flatMap beBytes

/-- SHA-512 as a 512-bit value, first byte lowest. -/
def sha512v (bs : List Byte) : BitVec 512 := BitVec.ofNat 512 (leNat (sha512 bs))

end Sys2Proof.Machine
end

