-- ==== Sys2Proof/Machine/Regs.lean ====
section
/-! DEFINITION. The register map (20_register_map_and_status_codes.md R510 to R516 and the owning
chapters' tables): every register with its place, access type, reset value and writable bits. -/

namespace Sys2Proof.Machine

/-- Access types of R9, and the function state word of R24. A W1C row's mask names its W1C bits,
its other bits being read only. -/
inductive Acc where
  | ro
  | rw
  | wo
  | w1c
  | rc
  | rws
  | fn
  deriving DecidableEq, Repr

/-- A row of the register map: whether it lies in a die's 1 MiB, the offset of its first register
(from BAR0, or from the die's base), how it repeats, its access, whether it is 64 bits wide (R4),
its reset value, and the bits that take a written value (R7). -/
structure RegRow where
  die : Bool := false
  base : Nat
  n1 : Nat := 1
  s1 : Nat := 8
  n2 : Nat := 1
  s2 : Nat := 8
  acc : Acc
  wide : Bool := false
  rst : Nat := 0
  mask : Nat := 0
  deriving DecidableEq, Repr

/-- The registers. `trc…` are those of the hub's TRC block, `trd…` of a die's; `msix…` are the
32-bit words of the MSI-X table (R4, log 7). -/
inductive RegId where
  | hifLinkStatus
  | hifLinkCtl
  | hifLinkEvents
  | hifBar4Ctl
  | hifBar4Err
  | hifInflight
  | hifFaultInfo
  | hifFaultAddr
  | hifFaultTime
  | hifFaultCount
  | hifSwitchCount
  | hifDeadlineMiss
  | hifSchedRefused
  | hifLoopback
  | hifLoopErr
  | hifCtxState
  | hifCtxCfg
  | hifCtxEvqBase
  | hifCtxEvqProd
  | hifCtxEvqCons
  | hifCtxSched
  | hifCtxDispEnergy
  | hifCtxRange
  | hifCtxSaveBase
  | hifCtxEnergyBudget
  | hifRingState
  | hifRingCfg
  | hifRingBase
  | hifRingHead
  | hifRingTail
  | hifRingStat
  | msixAddr
  | msixAddrHi
  | msixData
  | msixCtl
  | msixPending
  | secBootStatus
  | secReset
  | secResetCause
  | secCtl
  | secSvn
  | secIdentity
  | secMeasCount
  | secMeasSel
  | secRcvSrc
  | secRcvLen
  | secJobReadyTime
  | secSvnFloor
  | secMeasEntry
  | secLogDigest
  | pwrFeedStatus
  | pwrCap
  | pwrEvents
  | pwrInEnergyA
  | pwrInEnergyB
  | pwrInputW
  | pwrLedgerTime
  | pwrUnattr
  | pwrDomEnergy
  | pwrCtxTotal
  | pwrCtxWindow
  | pwrEcal
  | timeNow
  | timeCtl
  | timeDieOffset
  | avlStatus
  | avlDegraded
  | avlCtl
  | avlRepairs
  | avlLogSeq
  | avlLogSel
  | avlLogData
  | avlStoreStatus
  | avlStoreSeq
  | avlFwSrc
  | avlFwLen
  | avlFwStatus
  | avlDie
  | trcCtl
  | trcRingBase
  | trcRingSize
  | trcRingProd
  | trcRingCons
  | trcDev
  | trcLost
  | trcCtxSampleBase
  | trcCtxSampleCfg
  | trcCtxSampleSeq
  | fabAddr
  | fabDims
  | fabAdmit
  | fabEvent
  | fabRingState
  | fabTimeCtl
  | fabTimeStatus
  | fabTimeOffset
  | fabTimeStep
  | fabUnreach
  | fabLost
  | mgtRegionCommit
  | mgtRegion
  | newConvCtl
  | newSemStall
  | coreState
  | coreId
  | coreArrayMap
  | coreSpadMap
  | coreAccFlags
  | coreCsumLast
  | coreCsumCount
  | coreReplayCount
  | coreEccCe
  | coreFreq
  | coreCycArray
  | coreCycSpeedwell
  | coreCycVector
  | coreCycIssueWait
  | galSpareMap
  | galEccCe
  | galEccUe
  | galRdBytes
  | galWrBytes
  | lndPortState
  | lndPortStatus
  | lndLoopback
  | lndFecCorr
  | lndFecUncorr
  | lndRetry
  | lndDrop
  | lndTxBytes
  | lndRxBytes
  | lndLoopErr
  | lndRxPower
  | lndTransitBytes
  | mcStatus
  | mcEccCe
  | mcEccUe
  | mcUeAddr
  | mcScrubCtl
  | mcScrubPass
  | mcRetire
  | mcMigrate
  | mcLaneRepair
  | mcRetrain
  | mcRdBytes
  | mcWrBytes
  | mcCycBusy
  | mcLoopback
  | mcLoopErr
  | mcRedCombUsed
  | mcRedAdds
  | mcRedFlushCount
  | mcRedEvict
  | mcRedLate
  | mcRedDup
  | medState
  | medLoad
  | medOpen
  | medSamples
  | medConcealed
  | medHdrRefused
  | medLate
  | medStale
  | medCycDec
  | medCycEnc
  | medCheckCount
  | medLoopback
  | medLoopResult
  | medStreamState
  | medStreamHandle
  | teaState
  | teaCheckCount
  | teaQueue
  | teaCycBusy
  | vetState
  | vetHits
  | vetMisses
  | vetCycWalk
  | vetFaultAddr
  | vetFaultInfo
  | vetParityCount
  | vetRoot
  | dmaQState
  | dmaQCfg
  | dmaQLevel
  | dmaQBytes
  | dmaPartFail
  | dmaCheckCount
  | trdMask
  | trdCtxMask
  | trdCtxMaskNone
  | trdRecords
  | trdLost
  | trdTokens
  | pwdStatus
  | pwdPhases
  | pwdThermCtl
  | pwdEvents
  | pwdStretchCyc
  | pwdDroopCount
  | pwdThermalMoves
  | pwdIsland
  deriving DecidableEq, Repr

/-- The row of a register. -/
def RegId.row : RegId → RegRow
  | .hifLinkStatus => { base := 0x0, acc := .ro, rst := 0x18 }
  | .hifLinkCtl => { base := 0x4, acc := .rws, rst := 0x3, mask := 0x1F }
  | .hifLinkEvents => { base := 0x8, acc := .rc }
  | .hifBar4Ctl => { base := 0x10, acc := .rw, wide := true, rst := 0x400000, mask := 0xFFFFC0FF0000 }
  | .hifBar4Err => { base := 0x18, acc := .rc }
  | .hifInflight => { base := 0x1C, acc := .ro }
  | .hifFaultInfo => { base := 0x20, acc := .ro }
  | .hifFaultAddr => { base := 0x28, acc := .ro, wide := true }
  | .hifFaultTime => { base := 0x30, acc := .ro, wide := true }
  | .hifFaultCount => { base := 0x38, acc := .rc }
  | .hifSwitchCount => { base := 0x40, acc := .ro, wide := true }
  | .hifDeadlineMiss => { base := 0x48, acc := .ro, wide := true }
  | .hifSchedRefused => { base := 0x50, acc := .rc }
  | .hifLoopback => { base := 0x60, acc := .rw, mask := 0xFF03 }
  | .hifLoopErr => { base := 0x64, acc := .rc }
  | .hifCtxState => { base := 0x1000, n1 := 64, s1 := 0x40, acc := .fn }
  | .hifCtxCfg => { base := 0x1004, n1 := 64, s1 := 0x40, acc := .rw, rst := 0x6000000, mask := 0x1FFFFFFF }
  | .hifCtxEvqBase => { base := 0x1008, n1 := 64, s1 := 0x40, acc := .rw, wide := true, mask := 0xFFFFFFFFFFFFFFFF }
  | .hifCtxEvqProd => { base := 0x1010, n1 := 64, s1 := 0x40, acc := .ro }
  | .hifCtxEvqCons => { base := 0x1014, n1 := 64, s1 := 0x40, acc := .ro }
  | .hifCtxSched => { base := 0x1018, n1 := 64, s1 := 0x40, acc := .rw, rst := 0x14AF03E8, mask := 0xFFFFFFFF }
  | .hifCtxDispEnergy => { base := 0x101C, n1 := 64, s1 := 0x40, acc := .rw, mask := 0xFFFFFFFF }
  | .hifCtxRange => { base := 0x1020, n1 := 64, s1 := 0x40, n2 := 4, s2 := 4, acc := .rw, mask := 0x3FF03FF }
  | .hifCtxSaveBase => { base := 0x1030, n1 := 64, s1 := 0x40, acc := .rw, wide := true, mask := 0xFFFFFFFFF000 }
  | .hifCtxEnergyBudget => { base := 0x1038, n1 := 64, s1 := 0x40, acc := .rw, wide := true, mask := 0xFFFFFFFFFFFFFFFF }
  | .hifRingState => { base := 0x2000, n1 := 256, s1 := 0x20, acc := .fn }
  | .hifRingCfg => { base := 0x2004, n1 := 256, s1 := 0x20, acc := .rw, rst := 0x1, mask := 0xFF9F }
  | .hifRingBase => { base := 0x2008, n1 := 256, s1 := 0x20, acc := .rw, wide := true, mask := 0xFFFFFFFFFFFFFFFF }
  | .hifRingHead => { base := 0x2010, n1 := 256, s1 := 0x20, acc := .rw, mask := 0xFFFF }
  | .hifRingTail => { base := 0x2014, n1 := 256, s1 := 0x20, acc := .ro }
  | .hifRingStat => { base := 0x2018, n1 := 256, s1 := 0x20, acc := .w1c, mask := 0x5 }
  | .msixAddr => { base := 0x8000, n1 := 1024, s1 := 0x10, acc := .rw, mask := 0xFFFFFFFC }
  | .msixAddrHi => { base := 0x8004, n1 := 1024, s1 := 0x10, acc := .rw, mask := 0xFFFFFFFF }
  | .msixData => { base := 0x8008, n1 := 1024, s1 := 0x10, acc := .rw, mask := 0xFFFFFFFF }
  | .msixCtl => { base := 0x800C, n1 := 1024, s1 := 0x10, acc := .rw, rst := 0x1, mask := 0x1 }
  | .msixPending => { base := 0xC000, n1 := 32, s1 := 0x4, acc := .ro }
  | .secBootStatus => { base := 0x10000, acc := .ro }
  | .secReset => { base := 0x10004, acc := .wo }
  | .secResetCause => { base := 0x10008, acc := .ro }
  | .secCtl => { base := 0x1000C, acc := .wo }
  | .secSvn => { base := 0x10010, acc := .ro }
  | .secIdentity => { base := 0x10014, acc := .ro }
  | .secMeasCount => { base := 0x10018, acc := .ro }
  | .secMeasSel => { base := 0x1001C, acc := .rw, mask := 0xFF }
  | .secRcvSrc => { base := 0x10020, acc := .rw, wide := true, mask := 0xFFFFFFFFFFFFFFFF }
  | .secRcvLen => { base := 0x10028, acc := .rw, mask := 0xFFFFFFFF }
  | .secJobReadyTime => { base := 0x10030, acc := .ro, wide := true }
  | .secSvnFloor => { base := 0x10038, acc := .ro }
  | .secMeasEntry => { base := 0x10080, n1 := 20, s1 := 0x4, acc := .ro }
  | .secLogDigest => { base := 0x10100, n1 := 16, s1 := 0x4, acc := .ro }
  | .pwrFeedStatus => { base := 0x20000, acc := .ro }
  | .pwrCap => { base := 0x20004, acc := .rws, rst := 0x1388, mask := 0x1FFF }
  | .pwrEvents => { base := 0x20008, acc := .rc }
  | .pwrInEnergyA => { base := 0x20010, acc := .ro, wide := true }
  | .pwrInEnergyB => { base := 0x20018, acc := .ro, wide := true }
  | .pwrInputW => { base := 0x20020, acc := .ro }
  | .pwrLedgerTime => { base := 0x20028, acc := .ro, wide := true }
  | .pwrUnattr => { base := 0x20030, acc := .ro, wide := true }
  | .pwrDomEnergy => { base := 0x20100, n1 := 89, s1 := 0x8, acc := .ro, wide := true }
  | .pwrCtxTotal => { base := 0x20800, n1 := 64, s1 := 0x10, acc := .ro, wide := true }
  | .pwrCtxWindow => { base := 0x20808, n1 := 64, s1 := 0x10, acc := .ro, wide := true }
  | .pwrEcal => { base := 0x20C00, n1 := 19, s1 := 0x4, acc := .ro }
  | .timeNow => { base := 0x30000, acc := .ro, wide := true }
  | .timeCtl => { base := 0x30008, acc := .rws, rst := 0x3, mask := 0x3 }
  | .timeDieOffset => { base := 0x30040, n1 := 8, s1 := 0x4, acc := .ro }
  | .avlStatus => { base := 0x40000, acc := .ro }
  | .avlDegraded => { base := 0x40004, acc := .ro }
  | .avlCtl => { base := 0x40008, acc := .wo }
  | .avlRepairs => { base := 0x40010, acc := .ro, wide := true }
  | .avlLogSeq => { base := 0x40018, acc := .ro, wide := true }
  | .avlLogSel => { base := 0x40020, acc := .rw, mask := 0xFFF }
  | .avlLogData => { base := 0x40040, n1 := 16, s1 := 0x4, acc := .ro }
  | .avlStoreStatus => { base := 0x40080, acc := .ro }
  | .avlStoreSeq => { base := 0x40088, acc := .ro, wide := true }
  | .avlFwSrc => { base := 0x40090, acc := .rw, wide := true, mask := 0xFFFFFFFFFFFFFFFF }
  | .avlFwLen => { base := 0x40098, acc := .rw, mask := 0xFFFFFFFF }
  | .avlFwStatus => { base := 0x4009C, acc := .ro }
  | .avlDie => { base := 0x40100, n1 := 8, s1 := 0x4, acc := .ro, rst := 0x4041C }
  | .trcCtl => { base := 0x50000, acc := .rw, rst := 0x100, mask := 0x1F03 }
  | .trcRingBase => { base := 0x50008, acc := .rw, wide := true, mask := 0xFFFFFFF00000 }
  | .trcRingSize => { base := 0x50010, acc := .rw, wide := true, mask := 0xFFFFFFFFFFFFFFFF }
  | .trcRingProd => { base := 0x50018, acc := .ro, wide := true }
  | .trcRingCons => { base := 0x50020, acc := .rw, wide := true, mask := 0xFFFFFFFFFFFFFFFF }
  | .trcDev => { base := 0x50028, acc := .rws, mask := 0x3 }
  | .trcLost => { base := 0x5002C, acc := .rc }
  | .trcCtxSampleBase => { base := 0x51000, n1 := 64, s1 := 0x20, acc := .rw, wide := true, mask := 0xFFFFFFFFFFFFFFFF }
  | .trcCtxSampleCfg => { base := 0x51008, n1 := 64, s1 := 0x20, acc := .rw, rst := 0x4, mask := 0xFF1F }
  | .trcCtxSampleSeq => { base := 0x5100C, n1 := 64, s1 := 0x20, acc := .ro }
  | .fabAddr => { base := 0x70000, acc := .rw, mask := 0xFFFF }
  | .fabDims => { base := 0x70004, acc := .rw, mask := 0xFFFF }
  | .fabAdmit => { base := 0x70008, acc := .wo }
  | .fabEvent => { base := 0x7000C, acc := .w1c, mask := 0x1F }
  | .fabRingState => { base := 0x70010, n1 := 8, s1 := 0x4, acc := .ro, rst := 0x10 }
  | .fabTimeCtl => { base := 0x70040, acc := .rws, mask := 0x1 }
  | .fabTimeStatus => { base := 0x70044, acc := .ro }
  | .fabTimeOffset => { base := 0x70048, acc := .ro }
  | .fabTimeStep => { base := 0x70050, acc := .ro, wide := true }
  | .fabUnreach => { base := 0x70058, acc := .rc }
  | .fabLost => { base := 0x7005C, acc := .rc }
  | .mgtRegionCommit => { base := 0x80FF0, acc := .ro }
  | .mgtRegion => { base := 0x81000, n1 := 752, s1 := 0x4, acc := .rw, mask := 0x73 }
  | .newConvCtl => { die := true, base := 0xC0, acc := .rw, rst := 0x1, mask := 0x1 }
  | .newSemStall => { die := true, base := 0x1000, n1 := 256, s1 := 0x8, acc := .ro, wide := true }
  | .coreState => { die := true, base := 0x10000, n1 := 32, s1 := 0x1000, acc := .fn }
  | .coreId => { die := true, base := 0x10004, n1 := 32, s1 := 0x1000, acc := .ro }
  | .coreArrayMap => { die := true, base := 0x10008, n1 := 32, s1 := 0x1000, acc := .ro, rst := 0xFFFFFFFF }
  | .coreSpadMap => { die := true, base := 0x1000C, n1 := 32, s1 := 0x1000, acc := .ro, rst := 0x3F3F }
  | .coreAccFlags => { die := true, base := 0x10010, n1 := 32, s1 := 0x1000, acc := .ro, wide := true }
  | .coreCsumLast => { die := true, base := 0x10018, n1 := 32, s1 := 0x1000, acc := .ro }
  | .coreCsumCount => { die := true, base := 0x1001C, n1 := 32, s1 := 0x1000, acc := .rc }
  | .coreReplayCount => { die := true, base := 0x10020, n1 := 32, s1 := 0x1000, acc := .rc }
  | .coreEccCe => { die := true, base := 0x10024, n1 := 32, s1 := 0x1000, acc := .rc }
  | .coreFreq => { die := true, base := 0x10028, n1 := 32, s1 := 0x1000, acc := .ro }
  | .coreCycArray => { die := true, base := 0x10030, n1 := 32, s1 := 0x1000, acc := .ro, wide := true }
  | .coreCycSpeedwell => { die := true, base := 0x10038, n1 := 32, s1 := 0x1000, acc := .ro, wide := true }
  | .coreCycVector => { die := true, base := 0x10040, n1 := 32, s1 := 0x1000, acc := .ro, wide := true }
  | .coreCycIssueWait => { die := true, base := 0x10048, n1 := 32, s1 := 0x1000, acc := .ro, wide := true }
  | .galSpareMap => { die := true, base := 0x40000, acc := .ro, rst := 0x7F7F7F7F }
  | .galEccCe => { die := true, base := 0x40008, acc := .ro, wide := true }
  | .galEccUe => { die := true, base := 0x40010, acc := .ro, wide := true }
  | .galRdBytes => { die := true, base := 0x40018, acc := .ro, wide := true }
  | .galWrBytes => { die := true, base := 0x40020, acc := .ro, wide := true }
  | .lndPortState => { die := true, base := 0x50000, n1 := 2, s1 := 0x100, acc := .fn }
  | .lndPortStatus => { die := true, base := 0x50004, n1 := 2, s1 := 0x100, acc := .ro, rst := 0xFF0000 }
  | .lndLoopback => { die := true, base := 0x50008, n1 := 2, s1 := 0x100, acc := .rw, mask := 0x7 }
  | .lndFecCorr => { die := true, base := 0x50010, n1 := 2, s1 := 0x100, acc := .ro, wide := true }
  | .lndFecUncorr => { die := true, base := 0x50018, n1 := 2, s1 := 0x100, acc := .ro, wide := true }
  | .lndRetry => { die := true, base := 0x50020, n1 := 2, s1 := 0x100, acc := .rc }
  | .lndDrop => { die := true, base := 0x50024, n1 := 2, s1 := 0x100, acc := .rc }
  | .lndTxBytes => { die := true, base := 0x50028, n1 := 2, s1 := 0x100, acc := .ro, wide := true }
  | .lndRxBytes => { die := true, base := 0x50030, n1 := 2, s1 := 0x100, acc := .ro, wide := true }
  | .lndLoopErr => { die := true, base := 0x50038, n1 := 2, s1 := 0x100, acc := .rc }
  | .lndRxPower => { die := true, base := 0x5003C, n1 := 2, s1 := 0x100, acc := .ro }
  | .lndTransitBytes => { die := true, base := 0x50200, acc := .ro, wide := true }
  | .mcStatus => { die := true, base := 0x60000, n1 := 4, s1 := 0x4000, acc := .ro }
  | .mcEccCe => { die := true, base := 0x60008, n1 := 4, s1 := 0x4000, acc := .ro, wide := true }
  | .mcEccUe => { die := true, base := 0x60010, n1 := 4, s1 := 0x4000, acc := .ro, wide := true }
  | .mcUeAddr => { die := true, base := 0x60018, n1 := 4, s1 := 0x4000, acc := .ro, wide := true }
  | .mcScrubCtl => { die := true, base := 0x60020, n1 := 4, s1 := 0x4000, acc := .rw, rst := 0x118, mask := 0x1FF }
  | .mcScrubPass => { die := true, base := 0x60024, n1 := 4, s1 := 0x4000, acc := .ro }
  | .mcRetire => { die := true, base := 0x60028, n1 := 4, s1 := 0x4000, acc := .ro }
  | .mcMigrate => { die := true, base := 0x6002C, n1 := 4, s1 := 0x4000, acc := .ro }
  | .mcLaneRepair => { die := true, base := 0x60030, n1 := 4, s1 := 0x4000, acc := .ro }
  | .mcRetrain => { die := true, base := 0x60038, n1 := 4, s1 := 0x4000, acc := .ro, wide := true }
  | .mcRdBytes => { die := true, base := 0x60040, n1 := 4, s1 := 0x4000, acc := .ro, wide := true }
  | .mcWrBytes => { die := true, base := 0x60048, n1 := 4, s1 := 0x4000, acc := .ro, wide := true }
  | .mcCycBusy => { die := true, base := 0x60050, n1 := 4, s1 := 0x4000, acc := .ro, wide := true }
  | .mcLoopback => { die := true, base := 0x60060, n1 := 4, s1 := 0x4000, acc := .rw, mask := 0x1F3 }
  | .mcLoopErr => { die := true, base := 0x60064, n1 := 4, s1 := 0x4000, acc := .rc }
  | .mcRedCombUsed => { die := true, base := 0x63000, n1 := 4, s1 := 0x4000, acc := .ro }
  | .mcRedAdds => { die := true, base := 0x63008, n1 := 4, s1 := 0x4000, acc := .ro, wide := true }
  | .mcRedFlushCount => { die := true, base := 0x63010, n1 := 4, s1 := 0x4000, acc := .ro, wide := true }
  | .mcRedEvict => { die := true, base := 0x63018, n1 := 4, s1 := 0x4000, acc := .ro, wide := true }
  | .mcRedLate => { die := true, base := 0x63020, n1 := 4, s1 := 0x4000, acc := .rc }
  | .mcRedDup => { die := true, base := 0x63024, n1 := 4, s1 := 0x4000, acc := .rc }
  | .medState => { die := true, base := 0x70000, acc := .fn }
  | .medLoad => { die := true, base := 0x70004, acc := .ro }
  | .medOpen => { die := true, base := 0x70008, acc := .ro }
  | .medSamples => { die := true, base := 0x70010, acc := .ro, wide := true }
  | .medConcealed => { die := true, base := 0x70018, acc := .ro, wide := true }
  | .medHdrRefused => { die := true, base := 0x70020, acc := .ro, wide := true }
  | .medLate => { die := true, base := 0x70028, acc := .ro, wide := true }
  | .medStale => { die := true, base := 0x70030, acc := .ro, wide := true }
  | .medCycDec => { die := true, base := 0x70038, acc := .ro, wide := true }
  | .medCycEnc => { die := true, base := 0x70040, acc := .ro, wide := true }
  | .medCheckCount => { die := true, base := 0x70048, acc := .rc }
  | .medLoopback => { die := true, base := 0x70050, acc := .rw, mask := 0x3 }
  | .medLoopResult => { die := true, base := 0x70054, acc := .rc }
  | .medStreamState => { die := true, base := 0x71000, n1 := 256, s1 := 0x4, acc := .ro }
  | .medStreamHandle => { die := true, base := 0x71400, n1 := 256, s1 := 0x4, acc := .ro }
  | .teaState => { die := true, base := 0x80000, acc := .fn }
  | .teaCheckCount => { die := true, base := 0x80004, acc := .rc }
  | .teaQueue => { die := true, base := 0x80008, acc := .ro }
  | .teaCycBusy => { die := true, base := 0x80010, acc := .ro, wide := true }
  | .vetState => { die := true, base := 0x90000, acc := .fn }
  | .vetHits => { die := true, base := 0x90008, acc := .ro, wide := true }
  | .vetMisses => { die := true, base := 0x90010, acc := .ro, wide := true }
  | .vetCycWalk => { die := true, base := 0x90018, acc := .ro, wide := true }
  | .vetFaultAddr => { die := true, base := 0x90020, acc := .ro, wide := true }
  | .vetFaultInfo => { die := true, base := 0x90028, acc := .ro }
  | .vetParityCount => { die := true, base := 0x9002C, acc := .rc }
  | .vetRoot => { die := true, base := 0x90100, n1 := 64, s1 := 0x8, acc := .rw, wide := true, mask := 0xFFFFFFFFC000 }
  | .dmaQState => { die := true, base := 0xA0000, n1 := 16, s1 := 0x10, acc := .fn }
  | .dmaQCfg => { die := true, base := 0xA0004, n1 := 16, s1 := 0x10, acc := .rw, rst := 0x400010, mask := 0xFF01FF }
  | .dmaQLevel => { die := true, base := 0xA0008, n1 := 16, s1 := 0x10, acc := .ro }
  | .dmaQBytes => { die := true, base := 0xA0100, n1 := 16, s1 := 0x8, acc := .ro, wide := true }
  | .dmaPartFail => { die := true, base := 0xA0180, acc := .rc }
  | .dmaCheckCount => { die := true, base := 0xA0184, acc := .rc }
  | .trdMask => { die := true, base := 0xB0000, acc := .rw, mask := 0x3FFE }
  | .trdCtxMask => { die := true, base := 0xB0008, acc := .rw, wide := true, mask := 0xFFFFFFFFFFFFFFFF }
  | .trdCtxMaskNone => { die := true, base := 0xB0010, acc := .rw, mask := 0x1 }
  | .trdRecords => { die := true, base := 0xB0018, acc := .ro, wide := true }
  | .trdLost => { die := true, base := 0xB0020, acc := .rc }
  | .trdTokens => { die := true, base := 0xB0024, acc := .ro }
  | .pwdStatus => { die := true, base := 0xC0000, acc := .ro }
  | .pwdPhases => { die := true, base := 0xC0004, acc := .ro, rst := 0x56468888 }
  | .pwdThermCtl => { die := true, base := 0xC0008, acc := .rw, rst := 0x158, mask := 0x1FF }
  | .pwdEvents => { die := true, base := 0xC000C, acc := .rc }
  | .pwdStretchCyc => { die := true, base := 0xC0010, acc := .ro, wide := true }
  | .pwdDroopCount => { die := true, base := 0xC0018, acc := .rc }
  | .pwdThermalMoves => { die := true, base := 0xC001C, acc := .rc }
  | .pwdIsland => { die := true, base := 0xC0100, n1 := 43, s1 := 0x4, acc := .ro, rst := 0x6000 }

/-- All registers of the hub blocks. -/
def RegId.hubAll : List RegId :=
  ([.hifLinkStatus, .hifLinkCtl, .hifLinkEvents, .hifBar4Ctl, .hifBar4Err,
    .hifInflight, .hifFaultInfo, .hifFaultAddr, .hifFaultTime, .hifFaultCount,
    .hifSwitchCount, .hifDeadlineMiss, .hifSchedRefused, .hifLoopback, .hifLoopErr,
    .hifCtxState, .hifCtxCfg, .hifCtxEvqBase, .hifCtxEvqProd, .hifCtxEvqCons,
    .hifCtxSched, .hifCtxDispEnergy, .hifCtxRange, .hifCtxSaveBase] : List RegId) ++
  ([.hifCtxEnergyBudget, .hifRingState, .hifRingCfg, .hifRingBase, .hifRingHead,
    .hifRingTail, .hifRingStat, .msixAddr, .msixAddrHi, .msixData, .msixCtl,
    .msixPending, .secBootStatus, .secReset, .secResetCause, .secCtl,
    .secSvn, .secIdentity, .secMeasCount, .secMeasSel, .secRcvSrc,
    .secRcvLen, .secJobReadyTime, .secSvnFloor, .secMeasEntry] : List RegId) ++
  ([.secLogDigest, .pwrFeedStatus, .pwrCap, .pwrEvents, .pwrInEnergyA,
    .pwrInEnergyB, .pwrInputW, .pwrLedgerTime, .pwrUnattr, .pwrDomEnergy,
    .pwrCtxTotal, .pwrCtxWindow, .pwrEcal, .timeNow, .timeCtl,
    .timeDieOffset, .avlStatus, .avlDegraded, .avlCtl, .avlRepairs,
    .avlLogSeq, .avlLogSel, .avlLogData, .avlStoreStatus] : List RegId) ++
  ([.avlStoreSeq, .avlFwSrc, .avlFwLen, .avlFwStatus, .avlDie,
    .trcCtl, .trcRingBase, .trcRingSize, .trcRingProd, .trcRingCons,
    .trcDev, .trcLost, .trcCtxSampleBase, .trcCtxSampleCfg, .trcCtxSampleSeq,
    .fabAddr, .fabDims, .fabAdmit, .fabEvent, .fabRingState,
    .fabTimeCtl, .fabTimeStatus, .fabTimeOffset, .fabTimeStep] : List RegId) ++
  ([.fabUnreach, .fabLost, .mgtRegionCommit, .mgtRegion] : List RegId)

/-- All registers of a die's blocks. -/
def RegId.dieAll : List RegId :=
  ([.newConvCtl, .newSemStall, .coreState, .coreId, .coreArrayMap,
    .coreSpadMap, .coreAccFlags, .coreCsumLast, .coreCsumCount, .coreReplayCount,
    .coreEccCe, .coreFreq, .coreCycArray, .coreCycSpeedwell, .coreCycVector,
    .coreCycIssueWait, .galSpareMap, .galEccCe, .galEccUe, .galRdBytes,
    .galWrBytes, .lndPortState, .lndPortStatus, .lndLoopback] : List RegId) ++
  ([.lndFecCorr, .lndFecUncorr, .lndRetry, .lndDrop, .lndTxBytes,
    .lndRxBytes, .lndLoopErr, .lndRxPower, .lndTransitBytes, .mcStatus,
    .mcEccCe, .mcEccUe, .mcUeAddr, .mcScrubCtl, .mcScrubPass,
    .mcRetire, .mcMigrate, .mcLaneRepair, .mcRetrain, .mcRdBytes,
    .mcWrBytes, .mcCycBusy, .mcLoopback, .mcLoopErr] : List RegId) ++
  ([.mcRedCombUsed, .mcRedAdds, .mcRedFlushCount, .mcRedEvict, .mcRedLate,
    .mcRedDup, .medState, .medLoad, .medOpen, .medSamples,
    .medConcealed, .medHdrRefused, .medLate, .medStale, .medCycDec,
    .medCycEnc, .medCheckCount, .medLoopback, .medLoopResult, .medStreamState,
    .medStreamHandle, .teaState, .teaCheckCount, .teaQueue] : List RegId) ++
  ([.teaCycBusy, .vetState, .vetHits, .vetMisses, .vetCycWalk,
    .vetFaultAddr, .vetFaultInfo, .vetParityCount, .vetRoot, .dmaQState,
    .dmaQCfg, .dmaQLevel, .dmaQBytes, .dmaPartFail, .dmaCheckCount,
    .trdMask, .trdCtxMask, .trdCtxMaskNone, .trdRecords, .trdLost,
    .trdTokens, .pwdStatus, .pwdPhases, .pwdThermCtl] : List RegId) ++
  ([.pwdEvents, .pwdStretchCyc, .pwdDroopCount, .pwdThermalMoves, .pwdIsland] : List RegId)

/-- A place in the register map: register, die, indices, and whether the offset names the high
word of a 64-bit register. -/
structure RegRef where
  id : RegId
  d : Nat
  i : Nat
  j : Nat
  high : Bool
  deriving DecidableEq, Repr

/-- The BAR0 offset of the low word of a register, R4. -/
def RegId.off (r : RegId) (d i j : Nat) : Nat :=
  (if r.row.die then 0x100000 * (d + 1) else 0) + r.row.base + i * r.row.s1 + j * r.row.s2

/-- Whether an offset, relative to the register's block, names the register, and which word. -/
def RegId.locate (r : RegId) (d rel : Nat) : Option RegRef :=
  let w := r.row
  if rel < w.base then none
  else
    let i := (rel - w.base) / w.s1
    let j := (rel - w.base) % w.s1 / w.s2
    let z := (rel - w.base) % w.s1 % w.s2
    if i < w.n1 ∧ j < w.n2 ∧ (z = 0 ∨ (w.wide = true ∧ z = 4)) then some ⟨r, d, i, j, z == 4⟩
    else none

/-- The register that holds the 32-bit word at a BAR0 offset, none at a reserved offset (R510). -/
def regAt (off : Nat) : Option RegRef :=
  if off < 0x090000 then RegId.hubAll.findSome? (fun r => r.locate 0 off)
  else if 0x100000 ≤ off ∧ off < 0x900000 then
    let d := off / 0x100000 - 1
    RegId.dieAll.findSome? (fun r => r.locate d (off % 0x100000))
  else none

/-- A register's stored value; a register that nothing has changed holds its reset value. -/
def State.reg (s : State) (r : RegId) (d i j : Nat) : W64 :=
  SMap.getD s.regs (r.off d i j) (BitVec.ofNat 64 r.row.rst)

/-- Stores a register's value. -/
def State.setReg (s : State) (r : RegId) (d i j : Nat) (v : W64) : State :=
  { s with regs := SMap.put s.regs (r.off d i j) v }

/-- Changes a register's value. -/
def State.modReg (s : State) (r : RegId) (d i j : Nat) (f : W64 → W64) : State :=
  s.setReg r d i j (f (s.reg r d i j))

/-- A field of a register. -/
def State.regFld (s : State) (r : RegId) (d i j hi lo : Nat) : Nat := fld (s.reg r d i j) hi lo

/-- Sets a field of a register. -/
def State.setRegFld (s : State) (r : RegId) (d i j hi lo x : Nat) : State :=
  s.modReg r d i j (fun v => setFld v hi lo x)

/-- Adds to a counter register, which wraps at its width (log 8). -/
def State.bump (s : State) (r : RegId) (d i k : Nat) : State :=
  s.modReg r d i 0 (fun v =>
    if r.row.wide then v + BitVec.ofNat 64 k else BitVec.ofNat 64 ((v.toNat + k) % 2 ^ 32))

/-- Adds to a field that saturates at its largest value. -/
def State.bumpSat (s : State) (r : RegId) (d i hi lo k : Nat) : State :=
  s.modReg r d i 0 (fun v => setFld v hi lo (satAdd (fld v hi lo) k (2 ^ (hi + 1 - lo) - 1)))

/-- The register stored under an offset is named by the same row (for the checks of tests). -/
def RegId.self (r : RegId) (d i j : Nat) : Bool :=
  regAt (r.off d i j) == some ⟨r, if r.row.die then d else 0, i, j, false⟩

end Sys2Proof.Machine
end

