-- ==== Sys2Proof/Machine/Map.lean ====
section
/-! DEFINITION. Where device addresses lie (R26 to R28), the Landing ports and the paths of traffic inside the module
(R16 to R19, R22, R434), and what an access to HBM or Gallery does there: corrected and uncorrectable codewords (R288
to R293), byte counters (R315), guarded areas (R241). -/

namespace Sys2Proof.Machine

/-! ### Device addresses -/

/-- The applied mode of an HBM region; all module-interleaved after a cold reset (R31). -/
def State.region (s : State) (j : Nat) : Region := SMap.getD s.regionMap j .interleaved

/-- Whether a device address lies in the HBM range of R26 Table 8. -/
def inHbm (a : Nat) : Bool := decide (a < 0xBC00000000)

/-- Whether an HBM address is backed by storage, R28. -/
def State.hbmBacked (s : State) (a : Nat) : Bool :=
  inHbm a && decide (s.region (a / 2 ^ 30) ≠ .unbacked)

/-- The die whose Gallery window holds an address, with the offset (R26). -/
def galOf (a : Nat) : Option (Nat × Nat) :=
  if 0xF000000000 ≤ a ∧ a < 0xF080000000 then
    some ((a - 0xF000000000) / 0x10000000, (a - 0xF000000000) % 0x10000000)
  else none

/-- The Gallery window's start of a die, R26. -/
def galBase (d : Nat) : Nat := 0xF000000000 + d * 0x10000000

/-- Backed bytes of a Gallery window: 192 MiB (R26). -/
def galBytes : Nat := 0xC000000

/-- The window of a physical core, R26. -/
def coreBase (d p : Nat) : Nat := 0xF800000000 + d * 0x20000000 + p * 0x01000000

/-- The HBM stack that holds an address, R28. -/
def State.stackOf (s : State) (a : Nat) : Nat :=
  match s.region (a / 2 ^ 30) with
  | .homed h => 4 * h.val + bits a 9 8
  | _ => bits a 16 12

/-- The Gallery bank of a window offset: 256 B blocks over 64 banks (R27). -/
def galBank (off : Nat) : Nat := off / 256 % 64

/-! ### Paths inside the module, R17, R434 -/

/-- Column and row of a die. -/
def dieCol (d : Nat) : Nat := d % 4
def dieRow (d : Nat) : Nat := d / 4

/-- The bridge between two neighbouring dies: E0 to E2 and E3 to E5 along the rows, E6 to E9 the columns. -/
def bridgeOf (a b : Nat) : Nat :=
  if dieRow a = dieRow b then 3 * dieRow a + min (dieCol a) (dieCol b) else 6 + dieCol a

/-- The dies from column `c` to column `e` of a row, both named. -/
def rowDies (row c e : Nat) : List Nat :=
  if c ≤ e then (List.range (e + 1 - c)).map (fun k => 4 * row + c + k)
  else (List.range (c + 1 - e)).map (fun k => 4 * row + c - k)

/-- Row first, then column. -/
def rowFirst (a b : Nat) : List Nat :=
  rowDies (dieRow a) (dieCol a) (dieCol b) ++ (if dieRow a = dieRow b then [] else [b])

/-- Column first, then row. -/
def colFirst (a b : Nat) : List Nat :=
  (if dieRow a = dieRow b then [] else [a]) ++ rowDies (dieRow b) (dieCol a) (dieCol b)

/-- Whether a path crosses a failed bridge. -/
def State.pathBroken (s : State) (l : List Nat) : Bool :=
  (l.zip (l.drop 1)).any (fun (a, b) => s.hub.bridges.any (fun e => e.val == bridgeOf a b))

/-- The path of a pair for which both orders cross the failed bridge, R434. -/
def detourPath (a b : Nat) : List Nat :=
  if dieCol a = dieCol b then
    let c := if dieCol a = 3 then 2 else dieCol a + 1
    [a, 4 * dieRow a + c, 4 * dieRow b + c, b]
  else a :: rowDies (1 - dieRow a) (dieCol a) (dieCol b) ++ [b]

/-- The dies on the path from die `a` to die `b`. -/
def State.diePath (s : State) (a b : Nat) : List Nat :=
  let p := rowFirst a b
  let q := colFirst a b
  if !s.pathBroken p then p else if !s.pathBroken q then q else detourPath a b

/-- The dies on the path between the hub and die `d`: from die 0 over H0 for `d` at most 3, from die 4 over H4 for the
others, and from the die of the remaining hub bridge when its own is lost (R17). -/
def State.hubPath (s : State) (d : Nat) : List Nat :=
  let near := if d ≤ 3 then 0 else 4
  let lost := s.hub.bridges.contains (if d ≤ 3 then 10 else 11)
  s.diePath (if lost then 4 - near else near) d

/-- The dies on the path from a source, a die or with `none` the hub, to die `d`. -/
def State.sitePath (s : State) (src : Option Die) (d : Die) : List Nat :=
  match src with
  | some a => s.diePath a.val d.val
  | none => s.hubPath d.val

/-! ### Landing, R16, R22 -/

/-- What a Landing port attaches to. -/
inductive LandEnd where
  | network
  | bridge (b : Bridge)
  | miotos (p : PortId)
  | controller (m : Mc)
  deriving DecidableEq, Repr

/-- A bridge by its number. -/
def bridgeNo (n : Nat) : Bridge := ⟨n % 12, Nat.mod_lt _ (by decide)⟩

/-- Landing port `k` of die `d`, Table 5; none where it is absent. -/
def landPort (d : Die) (k : Fin 11) : Option LandEnd :=
  match k.val with
  | 0 => some .network
  | 1 => if dieCol d.val = 0 then none else some (.bridge (bridgeNo (bridgeOf d.val (d.val - 1))))
  | 2 => if dieCol d.val = 3 then none else some (.bridge (bridgeNo (bridgeOf d.val (d.val + 1))))
  | 3 => some (.bridge (bridgeNo (6 + dieCol d.val)))
  | 4 => if d = 0 then some (.bridge 10) else if d = 4 then some (.bridge 11) else none
  | 5 => some (.miotos ⟨2 * d.val, by omega⟩)
  | 6 => some (.miotos ⟨2 * d.val + 1, by omega⟩)
  | n => some (.controller ⟨(n - 7) % 4, Nat.mod_lt _ (by decide)⟩)

/-- The Landing port of die `d` by which an operation of a source of the module enters the die. -/
def State.entryPort (s : State) (src : Option Die) (d : Die) : Fin 11 :=
  match (s.sitePath src d).reverse with
  | _ :: a :: _ => if dieRow a ≠ dieRow d.val then 3 else if a < d.val then 1 else 2
  | _ => if src.isSome then 0 else 4

/-- The place in a controller's address queue of an operation that came through a Landing port, or of scrub or
migration, among the operations of one cycle (R22, R298). -/
def queueRank : Option (Fin 11) → Nat
  | some k => k.val
  | none => 11

/-- An operation put behind those of a lower or the same rank. -/
def queuePut {α : Type} (x : Option (Fin 11) × α) : List (Option (Fin 11) × α) → List (Option (Fin 11) × α)
  | [] => [x]
  | y :: rest => if queueRank x.1 < queueRank y.1 then x :: y :: rest else y :: queuePut x rest

/-- The order in which operations that reach a controller in one cycle enter its address queue: by increasing Landing
port, scrub and migration last (R22, R298). The commands of a run arrive in their own order (log 88). -/
def queueOrder {α : Type} (l : List (Option (Fin 11) × α)) : List (Option (Fin 11) × α) :=
  l.foldl (fun acc x => queuePut x acc) []

/-! ### Channels between clock islands, R19 -/

/-- The islands of a die's shared units, as R424 numbers them. -/
def islGallery : Island := 32
def islLanding : Island := 33
def islMedia : Island := 38
def islTeasel : Island := 39
def islNewel : Island := 40
def islMc (m : Mc) : Island := ⟨34 + m.val, by omega⟩
def islCore (p : PCore) : Island := ⟨p.val, by omega⟩

/-- Whether an island's clock runs; a stopped one holds what is sent to it (R19, R410). -/
def State.clockRuns (s : State) (d : Die) (x : Island) : Bool :=
  !(s.island d (if x = islNewel ∧ (s.die d).twin = .active then 41 else x)).stopped

/-- Whether Landing runs on every die of a path. -/
def State.pathRuns (s : State) (l : List Nat) : Bool :=
  l.all (fun d => s.clockRuns ⟨d % 8, Nat.mod_lt _ (by decide)⟩ islLanding)

/-- Whether what a source sends to stack `k` is taken: Landing on the way and the stack's controller run. -/
def State.stackRuns (s : State) (src : Option Die) (k : Nat) : Bool :=
  let d : Die := ⟨k / 4 % 8, Nat.mod_lt _ (by decide)⟩
  s.pathRuns (s.sitePath src d) && s.clockRuns d (islMc ⟨k % 4, Nat.mod_lt _ (by decide)⟩)

/-- The first address of an uncorrectable codeword met in a range: codewords of 32 B (R288). -/
def State.badIn (s : State) (a len : Nat) : Option Nat :=
  s.bad.find? (fun c => overlaps a len c 32)

/-- An uncorrectable codeword that a write of a range covers only in part (R291). -/
def State.badPartial (s : State) (a len : Nat) : Option Nat :=
  s.bad.find? (fun c => overlaps a len c 32 && !(decide (a ≤ c) && decide (c + 32 ≤ a + len)))

/-- Aligned 256 B pieces of a range as (address, length). -/
def pieces (a len : Nat) : List (Nat × Nat) :=
  ((List.range ((a + len + 255) / 256 - a / 256)).map (fun k =>
    let b := (a / 256 + k) * 256
    let lo := max a b
    let hi := min (a + len) (b + 256)
    (lo, hi - lo)))

/-- Whether the channels on the way from a source take an access to a range of device memory now (R19). -/
def State.memRuns (s : State) (src : Option Die) (a len : Nat) : Bool :=
  if inHbm a then
    (List.range 32).all (fun k => s.stackRuns src k || !(pieces a len).any (fun p => s.stackOf p.1 == k))
  else match galOf a with
    | some (g, _) =>
      let d : Die := ⟨g % 8, Nat.mod_lt _ (by decide)⟩
      s.clockRuns d islGallery && (src == some d || s.pathRuns (s.sitePath src d))
    | none => true

/-- The same for an address field of R11. -/
def State.sideRuns (s : State) (src : Option Die) (a len : Nat) : Bool := isHost a || s.memRuns src a len

/-- Counts bytes of a range in the controllers' or Galleries' byte counters (R315, R516). -/
def State.countBytes (s : State) (write : Bool) (a len : Nat) : State :=
  if len = 0 then s
  else if inHbm a then
    (pieces a len).foldl (fun s (b, n) =>
      let k := s.stackOf b
      (s.bump (if write then .mcWrBytes else .mcRdBytes) (k / 4) (k % 4) n).account (acStack k) n) s
  else match galOf a with
    | some (d, _) => s.bump (if write then .galWrBytes else .galRdBytes) d 0 len
    | none => s

/-- Counts bytes of a range of HBM as a context's request from a die, or from the hub (R414, R415). -/
def State.chargeBytes (s : State) (n : CtxId) (src : Option Die) (a len : Nat) : State :=
  if inHbm a && decide (len ≠ 0) then
    (pieces a len).foldl (fun s (b, k) => s.account (acReq (s.stackOf b) n.val ((src.map (fun d => d.val)).getD 8)) k) s
  else s

/-- Clears the errors of the codewords that a write covers (R291). -/
def State.clearBad (s : State) (a len : Nat) : State :=
  { s with bad := s.bad.filter (fun c => !(decide (a ≤ c) && decide (c + 32 ≤ a + len))) }

/-- A write into an area that an open collective guards: the 64 B lines of the area that it writes hold undefined bytes
until the collective completes, a line that the area ends in as a whole (R241). -/
def State.spoil (s : State) (a len : Nat) : State :=
  if len = 0 then s
  else
    (s.colls.flatMap (fun c => c.guards)).foldl (fun s (b, n) =>
      let lo := max (a / 64) (b / 64) * 64
      let hi := min (ceilDiv (a + len) 64) (ceilDiv (b + n) 64) * 64
      if overlaps a len b n then s.devScramble lo (hi - lo) else s) s

/-- A device write that has been allowed: bytes, counters, cleared errors. -/
def State.putBytes (s : State) (a : Nat) (bs : List Byte) : State :=
  (((s.devWrite a bs).clearBad a bs.length).countBytes true a bs.length).spoil a bs.length

/-- A write by an open collective itself, which R241 does not concern. -/
def State.collPut (s : State) (a : Nat) (bs : List Byte) : State :=
  ((s.devWrite a bs).clearBad a bs.length).countBytes true a bs.length

/-- A write by the module's own, of no job: bytes that cover part of an uncorrectable codeword are dropped, since they
cannot be merged (R291, log 12). -/
def State.ownPut (s : State) (a : Nat) (bs : List Byte) : State :=
  if (s.badPartial a bs.length).isSome then s else s.putBytes a bs

/-! ### Rows and corrected codewords, R289, R293 -/

/-- Key of a row of a stack: 48 banks of 16,384 rows of 1 KiB per pseudo-channel (R286). -/
def rowKey (r : RowId) : Nat := (r.pc.val * 48 + r.bank.val) * 16384 + r.row

/-- Key of a row's bank. -/
def bankKeyOf (k : Nat) : Nat := k / 16384

/-- 24 h in ns. -/
def dayNs : Nat := 86400 * 10 ^ 9

/-- Times of a row's corrected codewords within the last 24 h. -/
def recentCe (l : List Nat) (now : Nat) : List Nat := l.filter (fun t => decide (now < t + dayNs))

/-- The row of an HBM address as a key, with its stack. -/
def State.rowAt (s : State) (a : Nat) : Nat × Nat :=
  let k := s.stackOf a
  (k, Config.stackRow (Config.stackAddr k (a / 32 * 32)) % (32 * 48 * 16384))

/-- A corrected codeword of HBM: it counts in MC_ECC_CE and towards its row. -/
def State.countHbmCe (s : State) (a : Nat) : State :=
  let (k, row) := s.rowAt a
  let d : Die := ⟨k / 4 % 8, Nat.mod_lt _ (by decide)⟩
  let m : Mc := ⟨k % 4, Nat.mod_lt _ (by decide)⟩
  (s.bump .mcEccCe d.val m.val 1).modMc d m (fun x =>
    { x with ceTimes := SMap.put x.ceTimes row (recentCe (SMap.getD x.ceTimes row []) s.now ++ [s.now]) })

/-- The core whose privileged window holds an address, with the offset (R26). -/
def coreAt (a : Nat) : Option (Die × PCore × Nat) :=
  let o := a - 0xF800000000
  if 0xF800000000 ≤ a ∧ o < 8 * 0x20000000 then
    some (⟨o / 0x20000000 % 8, Nat.mod_lt _ (by decide)⟩,
      ⟨o % 0x20000000 / 0x01000000 % 32, Nat.mod_lt _ (by decide)⟩, o % 0x01000000)
  else none

/-- Times of the last second of fabric time (R79, R83, R432). -/
def recentSec (l : List Nat) (now : Nat) : List Nat := l.filter (fun t => decide (now < t + 10 ^ 9))

/-- Whether 8 of the times lie within 1 s (R79, R83, R432). -/
def eightCe (l : List Nat) (now : Nat) : Bool := decide (8 ≤ (recentSec l now).length)

/-- Number of a core's memory as its corrected errors are counted: the logical scratchpad bank of R75, 32 for the
accumulator store. -/
def coreBank (off : Nat) : Nat := if off < 0x800000 then off / 64 % 32 else 32

/-- A corrected line of a Gallery: counted, and for its bank (R432). -/
def State.countGalCe (s : State) (g off : Nat) : State :=
  (s.bump .galEccCe g 0 1).modDie ⟨g % 8, Nat.mod_lt _ (by decide)⟩ (fun x =>
    { x with galCe := SMap.put x.galCe (galBank off) (recentSec (SMap.getD x.galCe (galBank off) []) s.now ++ [s.now]) })

/-- A corrected line of a core: counted, and for its bank or the accumulator store (R78, R79, R83). -/
def State.countCoreCe (s : State) (d : Die) (p : PCore) (off : Nat) : State :=
  (s.bump .coreEccCe d.val p.val 1).modCore d p (fun k =>
    { k with ceTimes := SMap.put k.ceTimes (coreBank off) (recentSec (SMap.getD k.ceTimes (coreBank off) []) s.now ++
                          [s.now]) })

/-- A corrected error at a device address, counted where it lies. -/
def State.countCeAt (s : State) (a : Nat) : State :=
  if inHbm a then s.countHbmCe a
  else match galOf a, coreAt a with
    | some (g, off), _ => s.countGalCe g off
    | none, some (d, p, off) => s.countCoreCe d p off
    | none, none => s

/-- Bytes of the codeword or line of ECC at a device address (R78, R288). -/
def eccLine (a : Nat) : Nat := if inHbm a then 32 else 64

/-- The corrected errors at addresses `ce` that reads of runs meet, each line once (R78, R289, R432). -/
def State.countCes (s : State) (runs : List (Nat × Nat)) (ce : List Nat) : State :=
  ((dedupKeep (ce.map (fun c => c / eccLine c * eccLine c))).filter (fun c =>
    runs.any (fun r => decide (r.2 ≠ 0) && overlaps c (eccLine c) r.1 r.2))).foldl State.countCeAt s

/-- The same for one range. -/
def State.readCe (s : State) (a len : Nat) (ce : List Nat) : State := s.countCes [(a, len)] ce

/-- An undefined subset of a list, which keeps it in order. -/
def State.freeSome {α : Type} (s : State) (l : List α) : List α × State :=
  let b := Config.freeValue l.length s.free
  ((l.zipIdx.filter (fun x => b.getLsbD x.2)).map (fun x => x.1), { s with free := s.free + 1 })

/-- Codewords of HBM and lines of Gallery that a range touches. -/
def eccLines (a len : Nat) : List Nat :=
  if len ≠ 0 ∧ (inHbm a || (galOf a).isSome) = true then
    tab ((a + len - 1) / eccLine a + 1 - a / eccLine a) (fun k => (a / eccLine a + k) * eccLine a)
  else []

/-- A read whose command does not name the corrected errors that it meets: which of its codewords were corrected is open,
and each that was counts (R289, R432, log 102). -/
def State.freeCe (s : State) (a len : Nat) : State :=
  match eccLines a len with
  | [] => s
  | l =>
    let (met, s) := s.freeSome l
    met.foldl State.countCeAt s

/-- A read that the hub or an engine makes for a context from a die, or with `none` from the hub: its bytes, their share
of the ledger and the corrected errors met are counted (R289, R315, R414). Host memory counts nothing. -/
def State.jobRead (s : State) (n : CtxId) (src : Option Die) (a len : Nat) : State :=
  ((s.countBytes false a len).chargeBytes n src a len).freeCe a len

/-- Counts the bytes of runs that lie in Gallery or HBM. -/
def State.countRuns (s : State) (write : Bool) (runs : List (Nat × Nat)) : State :=
  runs.foldl (fun s (a, n) => s.countBytes write a n) s

/-- Counts runs of HBM as a context's requests from a die (R414, R415). -/
def State.chargeRuns (s : State) (n : CtxId) (src : Option Die) (runs : List (Nat × Nat)) : State :=
  runs.foldl (fun s r => s.chargeBytes n src r.1 r.2) s

/-- The die of a semaphore by a field's bits 10:8. -/
def semDie (sem : Nat) : Die := ⟨bits sem 10 8 % 8, Nat.mod_lt _ (by decide)⟩

/-- Whether Newel decides for a die: no takeover of its twin runs, the die is not lost, and its clock runs (R438, R435,
R19). -/
def State.newelUp (s : State) (d : Die) : Bool := !(s.die d).takeover && !(s.die d).lost && s.clockRuns d islNewel

/-- A codeword found uncorrectable without a job: counted, address kept (R290 Table 1). -/
def State.countUe (s : State) (a : Nat) : State :=
  let k := s.stackOf a
  (s.bump .mcEccUe (k / 4) (k % 4) 1).setReg .mcUeAddr (k / 4) (k % 4) 0 (BitVec.ofNat 64 (a % 2 ^ 48))

end Sys2Proof.Machine
end

