-- ==== Sys2Proof/Machine/Completion.lean ====
section
/-! DEFINITION. What every family reports through: trace records (R485 to R487), MSI-X messages
(R337), fault records (R427, R446), job-fault reports (R359), and the completion of a descriptor
(R332, R335, R336). -/

namespace Sys2Proof.Machine

/-! ### Trace -/

/-- Whether a record of a source, kind and context is selected, R485. A die's records pass its
masks; the hub has no mask and its records are all selected (log 9). -/
def State.traceSel (s : State) (src kind ctx : Nat) : Bool :=
  (s.reg .trcCtl 0 0 0).getLsbD 0 &&
  (decide (8 ≤ src) ||
    ((kind == 0x0E || (s.reg .trdMask src 0 0).getLsbD kind) &&
     (if ctx < 64 then (s.reg .trdCtxMask src 0 0).getLsbD ctx
      else (s.reg .trdCtxMaskNone src 0 0).getLsbD 0)))

/-- The die whose regulator a source's records take tokens from, R486. -/
def State.traceReg (s : State) (src : Nat) : Nat :=
  if src < 8 then src else if (s.die 0).lost then 4 else 0

/-- Tokens of a die's regulator in units of 10^-4 B, R486: RATE/1,000 of 3,276.8 GB/s is
3.2768 × RATE B per ns; at most 64 KiB held. -/
def State.traceTokens (s : State) (d : Nat) : Nat :=
  let (tok, t) := SMap.getD s.trcTok d (0, 0)
  min (tok + (s.now - t) * (s.regFld .trcCtl 0 0 0 12 8 * 32768)) (65536 * 10000)

/-- Settles what every regulator has gained, before RATE changes. -/
def State.settleTokens (s : State) : State :=
  { s with trcTok := tab 8 (fun d => (d, s.traceTokens d, s.now)) }

/-- A trace record's 32 bytes, R485 Table 2. -/
def traceBytes (time seq src unit kind ctx : Nat) (data : List Byte) : List Byte :=
  toLe 8 time ++ toLe 4 seq ++ toLe 1 src ++ toLe 1 unit ++ toLe 1 kind ++ toLe 1 ctx ++
    slice data 0 16

/-- Writes one record into the ring and advances its offset and the source's SEQ. -/
def State.traceWrite (s : State) (src unit kind ctx : Nat) (data : List Byte) : State :=
  let prod := (s.reg .trcRingProd 0 0 0).toNat
  let base := (s.reg .trcRingBase 0 0 0).toNat
  let size := (s.reg .trcRingSize 0 0 0).toNat
  let seq := SMap.getD s.trcSeq src 0
  let s := s.ownPut (base + prod) (traceBytes s.now seq src unit kind ctx data)
  let s := { s with trcSeq := SMap.put s.trcSeq src ((seq + 1) % 2 ^ 32) }
  let s := s.setReg .trcRingProd 0 0 0
    (BitVec.ofNat 64 (if prod + 32 < size then prod + 32 else 0))
  if src < 8 then s.bump .trdRecords src 0 1 else s

/-- Whether `n` records fit before the consumer offset, R487: MODE 0 always; in MODE 1 no record's bytes reach it, nor
does the producer's offset. -/
def State.traceRoom (s : State) (n : Nat) : Bool :=
  if (s.reg .trcCtl 0 0 0).getLsbD 1 then
    let prod := (s.reg .trcRingProd 0 0 0).toNat
    let cons := (s.reg .trcRingCons 0 0 0).toNat
    let size := (s.reg .trcRingSize 0 0 0).toNat
    decide (prod % size = cons % size) && decide (32 * n < size) ||
      decide (32 * n < (cons % size + size - prod % size) % size)
  else true

/-- TRACE_RECORD: a selected event writes a record when its tokens and the ring allow, else it is
dropped and counted; after drops the next record is preceded by one of KIND 0x0E (R486). -/
def State.traceRec (s : State) (src unit kind ctx : Nat) (data : List Byte) : State :=
  if s.traceSel src kind ctx then
    let d := s.traceReg src
    let tok := s.traceTokens d
    let drop := SMap.getD s.trcDrop src 0
    let n := if drop = 0 then 1 else 2
    if n * 320000 ≤ tok ∧ s.traceRoom n = true then
      let s := { s with trcTok := SMap.put s.trcTok d (tok - n * 320000, s.now) }
      let s := if drop = 0 then s
        else { s.traceWrite src unit 0x0E 0x40 (toLe 8 drop) with
               trcDrop := SMap.set s.trcDrop src 0 0 }
      s.traceWrite src unit kind ctx data
    else
      let s := { s with trcDrop := SMap.set s.trcDrop src 0 (drop + 1),
                        trcTok := SMap.put s.trcTok d (tok, s.now) }
      if src < 8 then s.bump .trdLost src 0 1 else s.bump .trcLost 0 0 1
  else s

/-- DATA of a record: the first field in 8 bytes, each further one in 4 (log 9). -/
def traceData : List Nat → List Byte
  | [] => []
  | a :: rest => toLe 8 a ++ (rest.map (toLe 4)).flatten

/-! ### MSI-X -/

/-- An MSI-X message on a vector under the masking rules of PCI Express (R337, log 7): sent when
enabled and unmasked, held in the pending bit when masked, not sent while MSI-X is disabled. -/
def State.msixSend (s : State) (v : Nat) : State :=
  if s.hub.msixEnable then
    if s.hub.msixFnMask || (s.reg .msixCtl 0 v 0).getLsbD 0 then
      s.modReg .msixPending 0 (v / 32) 0 (fun w => setFld w (v % 32) (v % 32) 1)
    else s.emit (.msix v)
  else s

/-- An MSI-X message; within a change-over of hub halves it waits (R440). -/
def State.msix (s : State) (v : Nat) : State :=
  if s.hub.takeover then { s with hub := { s.hub with msixHeld := s.hub.msixHeld ++ [v] } } else s.msixSend v

/-- Sends the messages that waited for a change-over of hub halves. -/
def State.msixRelease (s : State) : State :=
  s.hub.msixHeld.foldl State.msixSend { s with hub := { s.hub with msixHeld := [] } }

/-- The job-fault, repair, energy and fabric vectors of R337. -/
def vecFault : Nat := 256
def vecRepair : Nat := 257
def vecEnergy : Nat := 258
def vecFabric : Nat := 259

/-- The message of a ring's event, with the holdoff of R337. -/
def State.ringMsix (s : State) (r : RingId) : State :=
  let cfg := s.reg .hifRingCfg 0 r.val 0
  let hold := fld cfg 15 8
  if cfg.getLsbD 7 then
    match (s.ring r).holdoffEnd with
    | some t =>
      if s.now < t ∧ hold ≠ 0 then s.modRing r (fun x => { x with held := true })
      else if hold = 0 then (s.msix r.val).modRing r (fun x => { x with held := false, holdoffEnd := none })
      else (s.msix r.val).modRing r
        (fun x => { x with held := false, holdoffEnd := some (s.now + hold * 1000) })
    | none =>
      if hold = 0 then s.msix r.val
      else (s.msix r.val).modRing r (fun x => { x with holdoffEnd := some (s.now + hold * 1000) })
  else s

/-! ### Fault records and degradation -/

/-- Classes of a fault record, R446. -/
def clsRepaired : Nat := 1
def clsJobFault : Nat := 2
def clsDegraded : Nat := 3
def clsOutOfService : Nat := 4

/-- KIND codes of R429 Tables 2 and 3 and R446. -/
def kCore : Nat := 0x01
def kArrayLine : Nat := 0x02
def kSpadBank : Nat := 0x03
def kGalleryBank : Nat := 0x04
def kHbmRow : Nat := 0x05
def kHbmBank : Nat := 0x06
def kHbmLane : Nat := 0x07
def kFabricLane : Nat := 0x08
def kLaser : Nat := 0x09
def kPhase : Nat := 0x0A
def kClockGen : Nat := 0x0B
def kNewel : Nat := 0x0C
def kHubHalf : Nat := 0x0D
def kFeed : Nat := 0x0E
def kPcieWidth : Nat := 0x0F
def kBridge : Nat := 0x10
def kHubBridge : Nat := 0x11
def kTeasel : Nat := 0x12
def kMedia : Nat := 0x13
def kDmaQueue : Nat := 0x14
def kDieLost : Nat := 0x15
def kJobFault : Nat := 0x20

/-- The 64 bytes of a fault record, R446 Table 5. -/
def FaultRec.bytes (x : FaultRec) : List Byte :=
  toLe 8 x.time ++ toLe 8 x.seq ++ toLe 1 x.cls ++ toLe 1 x.kind ++ toLe 1 x.die ++ [0] ++ toLe 4 x.unit ++
    toLe 4 x.detail ++ toLe 4 x.pauseUs ++ toLe 8 x.addr ++ toLe 4 x.left ++ List.replicate 20 0

/-- DIE of a fault record for the hub. -/
def hubDie : Nat := 0xFF

/-- Writes one fault record (R427, R446) of a detection time and a measured pause in µs: the next SEQ, at index SEQ mod
4,096 of section 3. -/
def State.logRec (s : State) (time pause cls kind die unit detail addr left : Nat) : State :=
  let cur := s.store.cur
  let rec' : FaultRec := { time, seq := cur.logSeq, cls, kind, die, unit, detail, pauseUs := pause, addr, left }
  { s with
    store := { s.store with
      dirty := true
      cur := { cur with
        log := SMap.put cur.log (cur.logSeq % 4096) rec'
        logSeq := cur.logSeq + 1
        repairs := if cls = clsRepaired then cur.repairs + 1 else cur.repairs } } }

/-- The pause in µs of a repair of which the module's own hardware takes both instants: a free value within its bound
(R429, R446). -/
def State.pauseOf (s : State) (pauseMax : Nat) : Nat := (Config.freeValue 32 s.free).toNat % (pauseMax + 1)

/-- A fault record of a fault detected now. -/
def State.logFault (s : State) (cls kind die unit detail pauseMax addr left : Nat) : State :=
  { s with free := s.free + 1 }.logRec s.now (s.pauseOf pauseMax) cls kind die unit detail addr left

/-- The trace record of a repair with its pause, KIND 0x09, from the hub that decides it (R485, log 9). -/
def State.traceRepair (s : State) (kind unit pause : Nat) : State :=
  s.traceRec 8 0x30 0x09 0x40 (traceData [kind, unit, pause])

/-- A repaired event of a fault detected at `time`, with its pause: a record of CLASS 1 and vector 257 (R426, R427).
`last`, when it used the last spare of its kind in its unit, adds the CLASS 3 record and the degraded bit. -/
def State.repairedAt (s : State) (time pause kind die unit detail addr left : Nat) (last : Bool) : State :=
  let s := (s.logRec time pause clsRepaired kind die unit detail addr left).traceRepair kind unit pause
  let s := if last then
      (s.logRec time 0 clsDegraded kind die unit detail addr left).setRegFld .avlDegraded 0 0 0 kind kind 1
    else s
  s.msix vecRepair

/-- A repaired event of a fault that is detected and repaired in one command. -/
def State.repaired (s : State) (kind die unit detail pauseMax addr left : Nat) (last : Bool) : State :=
  { s with free := s.free + 1 }.repairedAt s.now (s.pauseOf pauseMax) kind die unit detail addr left last

/-- A repaired event of a fault detected at `time` whose pause ends now. -/
def State.repairedSince (s : State) (time kind die unit detail addr left : Nat) (last : Bool) : State :=
  s.repairedAt time ((s.now - time) / 1000) kind die unit detail addr left last

/-- A degraded event: a record of CLASS 3, the bit of AVL_DEGRADED and vector 257 (R426). -/
def State.degraded (s : State) (kind die unit detail pauseMax addr left : Nat) : State :=
  let s := s.logFault clsDegraded kind die unit detail pauseMax addr left
  (s.setRegFld .avlDegraded 0 0 0 kind kind 1).msix vecRepair

/-- A job fault detected in a unit of die `die`, charged to contexts, with the address for CAUSE
0x01 and 0x02; it waits to reach HIF (R358, R359). A unit of the hub reports die 0. -/
def State.raise (s : State) (cause : Byte) (die : Nat) (ctxs : List CtxId) (addr : Nat) : State :=
  { s with reports := s.reports ++
      [{ cause, die := if die = hubDie then 0 else die, ctxs, addr := addr % 2 ^ 48, hubSide := die == hubDie }] }

/-- Job-fault causes, R357 Table 5. -/
def causeAddr : Byte := 0x01
def causeMem : Byte := 0x02
def causeSem : Byte := 0x03
def causeWatchdog : Byte := 0x04

/-- The place at which a fault of the hub's own accesses is detected: the hub. -/
def hubSideDie : Nat := hubDie

/-- A status quadword or an event entry that the hub writes for context `n`: into host memory, or device memory; bytes
that cover part of an uncorrectable codeword are not written and are a job fault of the context (R291), but a recovery
under way raises no further one for them (log 89). -/
def State.hubPut (s : State) (n : CtxId) (a : Nat) (bs : List Byte) : State :=
  if isHost a then s.anyWrite a bs
  else match s.badPartial a bs.length with
    | some c => if s.recovery.isSome then s else s.raise causeMem hubSideDie [n] c
    | none => (s.putBytes a bs).chargeBytes n none a bs.length

/-! ### Status codes, R338 Table 8 -/

def stOk : Byte := 0x00
def stOkEmpty : Byte := 0x01
def stMismatch : Byte := 0x03
def stBadDesc : Byte := 0x10
def stBadPlan : Byte := 0x11
def stShape : Byte := 0x12
def stAlign : Byte := 0x13
def stLength : Byte := 0x14
def stFilter : Byte := 0x15
def stEnergy : Byte := 0x16
def stDeadline : Byte := 0x17
def stSaturated : Byte := 0x20
def stNan : Byte := 0x21
def stConcealed : Byte := 0x22
def stLate : Byte := 0x23
def stStale : Byte := 0x24
def stPartial : Byte := 0x25
def stBackup : Byte := 0x26
def stCancelled : Byte := 0x30
def stJobFault : Byte := 0x40
def stJobLost : Byte := 0x41
def stTimeout : Byte := 0x42

/-! ### Descriptor completion -/

/-- Slots of a ring, R327. -/
def State.ringSize (s : State) (r : RingId) : Nat := 2 ^ s.regFld .hifRingCfg 0 r.val 0 4 0

/-- Address field of a ring's slot: base + 64 i, R327. -/
def State.slotAddr (s : State) (r : RingId) (slot : Nat) : Nat :=
  (s.reg .hifRingBase 0 r.val 0).toNat + 64 * slot

/-- The status quadword of R332 that the module writes: OWN clear. -/
def statusWord (status : Byte) (detail : W16) (time : Nat) : Nat :=
  time % 2 ^ 32 + detail.toNat * 2 ^ 32 + status.toNat * 2 ^ 48

/-- Entries of a context's event ring, R335. -/
def State.evqSize (s : State) (n : CtxId) : Nat := 2 ^ s.regFld .hifCtxCfg 0 n.val 0 28 24

/-- The bytes of an event entry, R335 Table 6. -/
def eventBytes (e : EventEnt) (phase : Bool) : List Byte :=
  toLe 2 e.index ++ toLe 1 (e.ring.val % 4 + (if phase then 128 else 0)) ++ [e.ty, e.status, 0] ++
    toLe 2 e.detail.toNat ++ toLe 8 e.time

/-- Whether an entry may be written: p + 1 differs from the last consumer index (R335). -/
def State.evqRoom (s : State) (n : CtxId) : Bool :=
  let c := s.ctx n
  decide ((c.prod + 1) % s.evqSize n ≠ c.cons)

/-- EVENT_ENTRY_WRITE: writes an entry at p, advances p and PHASE, ends the descriptor's flight
and sends the ring's message (R335, R336 steps 3 and 4, R330). -/
def State.eventWrite (s : State) (n : CtxId) (e : EventEnt) : State :=
  let c := s.ctx n
  let p := (c.prod + 1) % s.evqSize n
  let s := s.hubPut n ((s.reg .hifCtxEvqBase 0 n.val 0).toNat + 16 * c.prod)
    (eventBytes e c.phase)
  let s := s.modCtx n (fun c => { c with prod := p, phase := if p = 0 then !c.phase else c.phase })
  let s := match e.seq with
    | some q => { s with descs := s.descs.filter (fun x => x.seq != q) }
    | none => s
  s.ringMsix e.ring

/-- Writes a context's waiting entries in completion order while there is room. -/
def State.eventDrainN (s : State) (n : CtxId) : Nat → State
  | 0 => s
  | k + 1 =>
    match (s.ctx n).evWait with
    | [] => s
    | e :: rest =>
      if s.evqRoom n then
        State.eventDrainN ((s.modCtx n (fun c => { c with evWait := rest })).eventWrite n e) n k
      else s

/-- Writes a context's waiting entries in completion order while there is room; with none left, a context that a recovery
held goes on (R360). -/
def State.eventDrain (s : State) (n : CtxId) : State :=
  let s := s.eventDrainN n (s.ctx n).evWait.length
  if (s.ctx n).evHold && (s.ctx n).evWait.isEmpty then s.modCtx n (fun c => { c with evHold := false }) else s

/-- An event entry of a context, written once room exists, in order (R335). -/
def State.eventPush (s : State) (n : CtxId) (e : EventEnt) : State :=
  (s.modCtx n (fun c => { c with evWait := c.evWait ++ [e] })).eventDrain n

/-- DESCRIPTOR_COMPLETION, steps 2 to 4 of R336: the status quadword in one write, then the event
entry unless SILENT, then the message. A completed SEM_WAIT lets its ring fetch again (R330). -/
def State.complete (s : State) (seq : Nat) (status : Byte) (detail : W16) : State :=
  match s.desc seq with
  | none => s
  | some x =>
    if x.st = .done then s
    else
      let s := s.hubPut (ringCtx x.ring) (s.slotAddr x.ring x.slot + 0x38) (toLe 8 (statusWord status detail s.now))
      let s := s.modRing x.ring (fun r =>
        { r with semHold := if r.semHold = some seq then none else r.semHold })
      if (leAt x.bytes 1 1) % 2 = 1 then
        { s with descs := s.descs.filter (fun y => y.seq != seq) }
      else
        let s := s.modDesc seq (fun y => { y with st := .done, status := status, detail := detail })
        s.eventPush (ringCtx x.ring)
          { ring := x.ring, index := x.slot, ty := BitVec.ofNat 8 x.ty, status, detail,
            time := s.now, seq := some seq }

/-- Completes a descriptor that an engine has ended; within a change-over of hub halves its status waits (R440). -/
def State.answer (s : State) (seq : Nat) (status : Byte) (detail : W16) : State :=
  if s.hub.takeover then { s with hub := { s.hub with answers := s.hub.answers ++ [(seq, status, detail)] } }
  else s.complete seq status detail

/-- The completions that waited for a change-over of hub halves, in their order. -/
def State.answersRelease (s : State) : State :=
  s.hub.answers.foldl (fun s e => s.complete e.1 e.2.1 e.2.2) { s with hub := { s.hub with answers := [] } }

/-- Whether a descriptor has completed (its status quadword is written). -/
def State.isDone (s : State) (seq : Nat) : Bool :=
  match s.desc seq with
  | none => true
  | some x => decide (x.st = .done)

/-- Descriptors not yet completed of those fetched before `seq` for which `p` holds. -/
def State.earlierOpen (s : State) (seq : Nat) (p : Desc → Bool) : Bool :=
  s.descs.any (fun x => decide (x.seq < seq) && decide (x.st ≠ .done) && p x)

end Sys2Proof.Machine
end

