-- ==== Sys2Proof/Machine/Functions.lean ====
section
/-! DEFINITION. The function state words of R24 and R25, job contexts and submission rings as
functions (R324 to R327), and the HBM region map (R28 to R31). -/

namespace Sys2Proof.Machine

/-! ### The transitions of R24 Table 6 -/

/-- The code of a state in a function state word, R25 Table 7. -/
def FnSt.code : FnSt → Nat
  | .off => 0
  | .starting => 1
  | .on => 2
  | .draining => 3

/-- The function state word, R25 Table 7. -/
def Fn.word (f : Fn) : W64 :=
  BitVec.ofNat 64 (f.st.code + (if f.pendingOn then 4 else 0) + (if f.en then 256 else 0))

/-- An enable written, Table 6; EN reads the last value written. -/
def Fn.enable (f : Fn) : Fn :=
  match f.st with
  | .off => { f with en := true, st := .starting, disableRecorded := false }
  | .starting => { f with en := true }
  | .on => { f with en := true }
  | .draining => { f with en := true, pendingOn := true }

/-- A disable written, Table 6. -/
def Fn.disable (f : Fn) : Fn :=
  match f.st with
  | .off => { f with en := false }
  | .starting => { f with en := false, disableRecorded := true }
  | .on => { f with en := false, st := .draining }
  | .draining => { f with en := false, pendingOn := false }

/-- Start-up of the function completes, Table 6. -/
def Fn.started (f : Fn) : Fn :=
  match f.st with
  | .starting =>
    if f.disableRecorded then { f with st := .draining, disableRecorded := false }
    else { f with st := .on }
  | _ => f

/-- All accepted work of a DRAINING function has completed, Table 6. -/
def Fn.drained (f : Fn) : Fn :=
  match f.st with
  | .draining =>
    if f.pendingOn then { f with st := .starting, pendingOn := false } else { f with st := .off }
  | _ => f

/-! ### Regions and ranges -/

/-- FIRST and COUNT of the used HBM ranges of a context, R325. -/
def State.ranges (s : State) (n : CtxId) : List (Nat × Nat) :=
  ((List.range 4).map (fun i =>
    let v := s.reg .hifCtxRange 0 n.val i
    (fld v 9 0, fld v 25 16))).filter (fun x => decide (x.2 ≠ 0))

/-- Whether a region is named in a context's ranges. -/
def State.hasRegion (s : State) (n : CtxId) (j : Nat) : Bool :=
  (s.ranges n).any (fun (f, c) => decide (f ≤ j) && decide (j < f + c))

/-- GAL_BASE and GAL_SIZE of a context in bytes, R325. -/
def State.share (s : State) (n : CtxId) : Nat × Nat :=
  let v := s.reg .hifCtxCfg 0 n.val 0
  (fld v 11 0 * 0x10000, fld v 23 12 * 0x10000)

/-- Whether a context is not OFF. -/
def State.ctxOpen (s : State) (n : CtxId) : Bool := decide ((s.fn (.ctx n)).st ≠ .off)

/-- Whether a region lies in the ranges of a context that is not OFF, R325 (MGT_REGION.HELD). -/
def State.regionHeld (s : State) (j : Nat) : Bool :=
  (List.finRange 64).any (fun n => s.ctxOpen n && s.hasRegion n j)

/-- Whether `len` bytes from an HBM address lie in backed regions of a context's ranges. -/
def State.hbmInRanges (s : State) (n : CtxId) (a len : Nat) : Bool :=
  (List.range ((a + len - 1) / 2 ^ 30 + 1 - a / 2 ^ 30)).all (fun k =>
    let j := a / 2 ^ 30 + k
    s.hbmBacked (j * 2 ^ 30) && s.hasRegion n j)

/-- Whether `len` bytes of Gallery lie in a context's share, R325. -/
def State.galInShare (s : State) (n : CtxId) (a len : Nat) : Bool :=
  match galOf a with
  | some (_, o) =>
    let (b, z) := s.share n
    decide (b ≤ o) && decide (o + len ≤ b + z) && decide (o + len ≤ galBytes)
  | none => false

/-- Whether a job of a context may access `len` bytes at a device address, R26. -/
def State.jobMay (s : State) (n : CtxId) (a len : Nat) : Bool :=
  decide (len = 0) ||
    (if inHbm a then decide (a + len ≤ 0xBC00000000) && s.hbmInRanges n a len
     else s.galInShare n a len)

/-- A map is valid when 8 × L_d + I ≤ 752 for every die, R29. -/
def mapValid (m : List Region) : Bool :=
  let inter := (m.filter (fun r => decide (r = .interleaved))).length
  allDies.all (fun d =>
    decide (8 * (m.filter (fun r => decide (r = .homed d))).length + inter ≤ 752))

/-- The region a shadow register names, R28 Table 9: MODE 3 is unbacked. -/
def shadowRegion (v : W64) : Region :=
  match fld v 1 0 with
  | 0 => .interleaved
  | 1 => .homed ⟨fld v 6 4 % 8, Nat.mod_lt _ (by decide)⟩
  | _ => .unbacked

/-- The shadow map. -/
def State.shadowMap (s : State) : List Region := tab 752 (fun j => shadowRegion (s.reg .mgtRegion 0 j 0))

/-- The applied map. -/
def State.appliedMap (s : State) : List Region := tab 752 (fun j => s.region j)

/-- Applies a map as a whole: contents of every changed region become undefined (R30). -/
def State.applyMap (s : State) (m : List Region) : State :=
  let changed := (List.range 752).filter (fun j => decide (m.getD j .interleaved ≠ s.region j))
  let g := s.free + 1
  { s with
    free := s.free + 1
    regionMap := (List.range 752).foldl (fun acc j => SMap.set acc j .interleaved (m.getD j .interleaved)) []
    scrambled := changed.foldl (fun acc j => SMap.put acc j g) s.scrambled
    mem := s.mem.filter (fun e => !(changed.contains (e.1 / 2 ^ 30))) }

/-- The store keeps the applied map (section 2, R443). -/
def regionRows (m : List Region) : SMap (Nat × Nat) :=
  ((List.range 752).map (fun j =>
    (j, match m.getD j .interleaved with
      | .interleaved => (0, 0)
      | .homed h => (1, h.val)
      | .unbacked => (2, 0)))).filter (fun e => decide (e.2 ≠ (0, 0)))

/-- The region of a stored row. -/
def rowRegion : Nat × Nat → Region
  | (0, _) => .interleaved
  | (1, h) => .homed ⟨h % 8, Nat.mod_lt _ (by decide)⟩
  | _ => .unbacked

/-- RESULT of a commit: 1 when the map breaks R29, 2 when a HELD region would change, 0 applied
(R30, Table 10). -/
def State.commitResult (s : State) (m : List Region) : Nat :=
  if !mapValid m then 1
  else if (List.range 752).any (fun j =>
      decide (m.getD j .interleaved ≠ s.region j) && s.regionHeld j) then 2
  else 0

/-- A write of GO: the check and application begin (RESULT 3), or are ignored while one runs. -/
def regionCommit (s : State) : State :=
  if s.commitBusy then s else { s with commitBusy := true }.setRegFld .mgtRegionCommit 0 0 0 2 1 3

/-- The commit ends: the whole shadow map applies, or nothing does (R30). DESIGN CHOICE (log 119): the shadow map is that
of the commit's end, so that a write to it while RESULT is 3 counts. -/
def regionCommitDone (s : State) : State :=
  let m := s.shadowMap
  let r := s.commitResult m
  let s := { s with commitBusy := false }.setRegFld .mgtRegionCommit 0 0 0 2 1 r
  if r = 0 then
    let s := s.applyMap m
    { s with store := { s.store with dirty := true, cur := { s.store.cur with regions := regionRows m } } }
  else s

/-- REGION_COMMIT_DONE, R30. -/
def execRegionCommitDone (s : State) : Host.Outcome State Fault Refusal :=
  .next (if s.commitBusy then regionCommitDone s else s)

/-! ### Contexts -/

/-- The enabled trace ring's range, R487. -/
def State.traceRange (s : State) : Option (Nat × Nat) :=
  if (s.reg .trcCtl 0 0 0).getLsbD 0 then
    some ((s.reg .trcRingBase 0 0 0).toNat, (s.reg .trcRingSize 0 0 0).toNat)
  else none

/-- The context number `n` as an open context other than `m`. -/
def State.otherOpen (s : State) (m : CtxId) : List CtxId :=
  (List.finRange 64).filter (fun n => decide (n ≠ m) && s.ctxOpen n)

/-- ERR 1: a range passes region 751 or includes an unbacked region, overlaps a range of a
context that is not OFF, or an enabled trace ring (R325, R487). -/
def State.rangeBad (s : State) (n : CtxId) : Bool :=
  (s.ranges n).any (fun (f, c) =>
    decide (752 < f + c) ||
    (List.range c).any (fun k => decide (s.region (f + k) = .unbacked)) ||
    (s.otherOpen n).any (fun m => (s.ranges m).any (fun (g, e) => overlaps f c g e)) ||
    (match s.traceRange with
     | some (b, z) => overlaps (f * 2 ^ 30) (c * 2 ^ 30) b z
     | none => false))

/-- ERR 2: the share passes 192 MiB or overlaps that of a context that is not OFF; a share without bytes overlaps
none (R325). -/
def State.shareBad (s : State) (n : CtxId) : Bool :=
  let (b, z) := s.share n
  decide (galBytes < b + z) ||
    (s.otherOpen n).any (fun m =>
      let (b', z') := s.share m
      decide (z ≠ 0) && decide (z' ≠ 0) && overlaps b z b' z')

/-- ERR 3: the event ring breaks R335. -/
def State.evqBad (s : State) (n : CtxId) : Bool :=
  let l := s.regFld .hifCtxCfg 0 n.val 0 28 24
  let a := (s.reg .hifCtxEvqBase 0 n.val 0).toNat
  decide (l < 6) || decide (16 < l) || decide (a % 64 ≠ 0) || !addrOk a

/-- Bytes of a save area, R354: 8 × 473 MiB. -/
def saveBytes : Nat := 3784 * 2 ^ 20

/-- ERR 4: the save area is not wholly in module-interleaved regions of the ranges (R354). -/
def State.saveBad (s : State) (n : CtxId) : Bool :=
  let a := (s.reg .hifCtxSaveBase 0 n.val 0).toNat
  !((List.range ((a + saveBytes - 1) / 2 ^ 30 + 1 - a / 2 ^ 30)).all (fun k =>
      let j := a / 2 ^ 30 + k
      decide (j < 752) && decide (s.region j = .interleaved) && s.hasRegion n j))

/-- ERR 7: the sample ring lies outside the context's HBM ranges (R484). -/
def State.sampleBad (s : State) (n : CtxId) : Bool :=
  let a := (s.reg .trcCtxSampleBase 0 n.val 0).toNat
  let len := 128 * 2 ^ s.regFld .trcCtxSampleCfg 0 n.val 0 4 0
  !(decide (a + len ≤ 0xBC00000000) && s.hbmInRanges n a len)

/-- The enable's error in the order of R517 Table 5; 0 when none applies. -/
def State.enableErr (s : State) (n : CtxId) : Nat :=
  if s.boot.stage < 10 then 6
  else if s.hub.outOfService then 5
  else if s.rangeBad n then 1
  else if s.shareBad n then 2
  else if s.evqBad n then 3
  else if s.saveBad n then 4
  else if s.sampleBad n then 7
  else 0

/-- A context starts: an event ring without entries and PHASE 1, semaphores at zero, a ledger at zero (R325, R326, R335,
R417), and no sample of its life before. -/
def State.ctxStart (s : State) (n : CtxId) : State :=
  let w := max 1 (s.regFld .hifCtxSched 0 n.val 0 12 0) * 1000000
  let s := { s with
    ctxs := SMap.put s.ctxs n.val { winStart := s.now / w * w, phase := true }
    dies := s.dies.map (fun (e : Nat × DieSt) => (e.1, { e.2 with due := e.2.due.filter (fun x => decide (x.2.1 ≠ n)) })) }
  (s.setReg .pwrCtxTotal 0 n.val 0 0).setReg .pwrCtxWindow 0 n.val 0 0

/-- An enable written to a context: in OFF it is checked and starts the context with an empty
event ring, semaphores at zero and cleared energy totals, or sets ERR and stays OFF with EN
reading the value written (R325, R335, R326, log 10), except that before step 10 of start-up the enable is
ignored and only sets ERR (R458); in other states Table 6 applies. -/
def contextEnable (n : CtxId) (s : State) : State :=
  if s.fnIs (.ctx n) .off then
    let e := s.enableErr n
    let s := s.setRegFld .hifCtxCfg 0 n.val 0 31 29 e
    if e = 6 then s
    else if e = 0 then
      let s := s.ctxStart n
      s.setFn (.ctx n) (s.fn (.ctx n)).enable
    else s.setFn (.ctx n) { s.fn (.ctx n) with en := true }
  else s.setFn (.ctx n) (s.fn (.ctx n)).enable

/-- Every (die, stream) pair. -/
def allStreams : List (Die × Fin 256) :=
  allDies.flatMap (fun d => (List.finRange 256).map (fun h => (d, h)))

/-- A function sent to OFF by its owner's rule; EN reads the last value written. -/
def Fn.forceOff (f : Fn) : Fn := { f with st := .off, pendingOn := false, disableRecorded := false }

/-- Sends a stream straight to OFF, its waiting and running samples dropped. -/
def State.streamOff (s : State) (d : Die) (h : Fin 256) : State :=
  (s.setFn (.stream d h) (s.fn (.stream d h)).forceOff).modStream d h (fun _ => {})

/-- Bytes of a core's window that hold state: scratchpad and accumulator store (R76, R80). -/
def coreBytes : Nat := 0xA00000

/-- Start and size of a context's saved part of a die, R354. -/
def partSize : Nat := 0x1D900000
def State.partBase (s : State) (n : CtxId) (d : Die) : Nat :=
  (s.reg .hifCtxSaveBase 0 n.val 0).toNat + d.val * partSize

/-- The stored bytes of a range. -/
def State.rangeMem (s : State) (a len : Nat) : List (Nat × Byte) :=
  s.mem.filter (fun x => decide (a ≤ x.1) && decide (x.1 < a + len))

/-- What a context's saved part of a die holds now is what a restore will find. -/
def State.keepPart (s : State) (n : CtxId) (d : Die) : State :=
  let m := s.rangeMem (s.partBase n d) partSize
  s.modCtx n (fun c => { c with savedMem := SMap.put c.savedMem d.val m })

/-- What the cores of a chain closed without a tail hold on a die is undefined (R152), on the cores where the chain's
context has the die. -/
def chainLostOn (c : Chain) (d : Die) (s : State) : State :=
  allPCores.foldl (fun s p =>
    match (s.core d p).logical with
    | some k =>
      if (s.core d p).role = .inService ∧ k.val < c.streams then
        let (f, s) := s.freeBits 64
        (s.scramble (coreBase d.val p.val) coreBytes).modCore d p (fun z => { z with accFlags := f })
      else s
    | none => s) s

/-- The same where another context has the die and the chain's data is saved: in the save area, as the restore reads it
back. Bytes of the area that software has written give an undefined restore anyway (R354). -/
def chainLostSaved (c : Chain) (d : Die) (s : State) : State :=
  let a := s.partBase c.ctx d
  let kept := SMap.getD (s.ctx c.ctx).savedMem d.val [] == s.rangeMem a partSize
  let s := (s.scramble a (c.streams * coreBytes)).scramble (a + 0x1D800000) (8 * c.streams)
  if kept then s.keepPart c.ctx d else s

/-- A chain closes without a tail: what its cores hold is undefined, wherever its context's state of the die is: on the
die, in the save area, or within a switch in both. -/
def State.chainLost (s : State) (c : Chain) : State :=
  c.dies.foldl (fun s d =>
    let s := if (s.die d).lastCtx = some c.ctx then chainLostOn c d s else s
    if (s.ctx c.ctx).savedDies.contains d then chainLostSaved c d s else s) s

/-- Closes the chains for which `p` holds without a tail, R152. -/
def State.closeChains (s : State) (p : Chain → Bool) : State :=
  let gone := s.chains.filter p
  gone.foldl State.chainLost { s with chains := s.chains.filter (fun c => !p c) }

/-- What a closed context left on dies is no other job's: the dies are zeroed before their next use
(R353, log 36). -/
def State.staleDies (s : State) (n : CtxId) : State :=
  (allDies.filter (fun d => decide ((s.die d).lastCtx = some n))).foldl (fun s d =>
    s.modDie d (fun x => { x with lastCtx := none, stale := true })) s

/-- CONTEXT_OFF, R326: plans unloaded, chains closed, semaphores and stall counters discarded,
streams sent OFF, rings set OFF. -/
def contextOff (n : CtxId) (s : State) : State :=
  let s := { s with plans := s.plans.filter (fun p => decide (p.ctx ≠ n)) }
  let s := (s.closeChains (fun c => decide (c.ctx = n))).staleDies n
  let s := s.modCtx n (fun c => { c with sems := [], stalls := [], bars := [], savedDies := [], savedMem := [], semMoved := [] })
  let s := (allStreams.filter (fun (d, h) =>
      decide ((s.stream d h).owner = some n))).foldl (fun s (d, h) => s.streamOff d h) s
  (ctxRings n).foldl (fun s r => s.setFn (.ring r) (s.fn (.ring r)).forceOff) s

/-! ### Rings -/

/-- A ring leaves OFF: TAIL is set equal to HEAD and the fetch count restarts (R327, R481); a holdoff period under
way runs on (R337). -/
def ringLeaveOff (r : RingId) (s : State) : State :=
  let head := fld (s.reg .hifRingHead 0 r.val 0) 15 0
  (s.setReg .hifRingTail 0 r.val 0 (BitVec.ofNat 64 head)).modRing r
    (fun x => { holdoffEnd := x.holdoffEnd, held := x.held })

/-! ### Enable, disable, started, drained -/

/-- Whether software's write of EN reaches a function: the EN of a media stream is read only
(R259). -/
def enWritable : FuncId → Bool
  | .stream _ _ => false
  | _ => true

/-- EN = 1 written to a function state word (R24). A ring leaving OFF takes TAIL from HEAD. -/
def functionEnable (f : FuncId) (s : State) : State :=
  if enWritable f then
    match f with
    | .ctx n => contextEnable n s
    | .ring r =>
      let s' := if s.fnIs f .off then ringLeaveOff r s else s
      s'.setFn f (s'.fn f).enable
    | _ => s.setFn f (s.fn f).enable
  else s

/-- The ring of a port: ring i enters at port i and leaves at port i + 8 (R10). -/
def portRing (p : PortId) : FRing := ⟨p.val % 8, Nat.mod_lt _ (by decide)⟩

/-- EN = 0 written to a function state word (R24); for a port its ring follows (portDisable). -/
def functionDisable (f : FuncId) (s : State) : State :=
  if enWritable f then
    s.setFn f (s.fn f).disable
  else s

/-! ### Routing of handles, R255, R284 -/

def homeDie (x : Nat) : Die := ⟨x / 256 % 8, Nat.mod_lt _ (by decide)⟩
def homeIdx (x : Nat) : Fin 256 := ⟨x % 256, Nat.mod_lt _ (by decide)⟩

/-- The handle that a stream context serves. -/
def State.handleOf (s : State) (d : Die) (h : Fin 256) : Nat :=
  if (s.stream d h).moved then (s.stream d h).handle else strKey d h

/-- The context that serves a moved handle. -/
def State.movedTo (s : State) (x : Nat) : Option (Die × Fin 256) :=
  allStreams.find? (fun (d, h) => (s.stream d h).moved && (s.stream d h).handle == x)

/-- Whether a handle's home context serves a stream moved to it (check 0x030B). -/
def State.homeTaken (s : State) (x : Nat) : Bool :=
  let y := s.stream (homeDie x) (homeIdx x)
  y.moved && y.handle != x

/-- The context that a handle names; none while no context serves it and its home engine is OFF or its home context
serves another handle. -/
def State.mediaRoute (s : State) (x : Nat) : Option (Die × Fin 256) :=
  match s.movedTo x with
  | some p => some p
  | none => if s.fnIs (.media (homeDie x)) .off || s.homeTaken x then none else some (homeDie x, homeIdx x)

/-- MEDIA_SUBMITs of a stream's owner for it that have been fetched and have not started. -/
def State.submitsHeld (s : State) (d : Die) (h : Fin 256) : List Nat :=
  (s.descs.filter (fun x => x.ty == 0x08 && decide (x.st = .waiting) &&
    decide (s.mediaRoute (leAt x.bytes 2 2) = some (d, h)) && decide (some (ringCtx x.ring) = (s.stream d h).owner))).map
    (fun x => x.seq)

/-- Whether a MEDIA_SUBMIT was fetched before every MEDIA_CLOSE of the stream (R259). -/
def Stream.beforeClose (x : Stream) (q : Nat) : Bool := x.closeSeqs.all (fun c => decide (q < c))

/-- A stream's accepted work: its queue, and every MEDIA_SUBMIT fetched before its MEDIA_CLOSE that waits or that a
FENCE holds (R259). -/
def State.streamWork (s : State) (d : Die) (h : Fin 256) : Bool :=
  let x := s.stream d h
  !x.queue.isEmpty || x.waiting.any (fun m => x.beforeClose m.seq) || (s.submitsHeld d h).any x.beforeClose


/-! ### Accepted work -/

/-- Whether a function holds accepted work that has not completed (R24, and the owning chapters:
R97, R98, R177, R285, R259, R300, R369, R324, R327). -/
def State.hasWork (s : State) : FuncId → Bool
  | .core d p => (s.core d p).queue.any (fun x => decide (x.st = .issued)) || (s.core d p).replay.isSome
  | .teasel d => (s.die d).teaRun.isSome
  | .vetch d => !(s.die d).walks.isEmpty
  | .media d => (List.finRange 256).any (fun h => !s.fnIs (.stream d h) .off)
  | .stream d h => s.streamWork d h
  | .dmaq q => !(s.dq q).isEmpty
  | .port p => decide ((s.fring (portRing p)).st ≠ .bypassed)
  | .ctx n => s.descs.any (fun x => decide (ringCtx x.ring = n))
  | .ring r => s.descs.any (fun x => decide (x.ring = r))

end Sys2Proof.Machine
end

