-- ==== Sys2Proof/Machine/Rings.lean ====
section
/-! DEFINITION. Submission rings (R322, R327 to R334): doorbells, the fetcher, the common
descriptor checks, and what every fetched descriptor goes through. -/

namespace Sys2Proof.Machine

/-! ### Doorbells -/

/-- A context of a BAR2 offset: pages of 4 KiB, R322. -/
def pageCtx (off : Nat) : Option CtxId :=
  if h : off / 0x1000 < 64 then some ⟨off / 0x1000, h⟩ else none

/-- The ring whose doorbell lies at a BAR2 offset, R518 Table 6. -/
def doorbellRing (off : Nat) : Option RingId :=
  let o := off % 0x1000
  if h : off / 0x1000 < 64 ∧ o / 0x40 < 4 ∧ o % 0x40 = 0 then
    some ⟨4 * (off / 0x1000) + o / 0x40, by omega⟩
  else none

/-- The context whose event doorbell lies at a BAR2 offset, R518 Table 6. -/
def eventDoorbellCtx (off : Nat) : Option CtxId :=
  if off % 0x1000 = 0x100 then pageCtx off else none

/-- A doorbell of a ring: the new tail, or ignored with DB_ERR when the value is at or above the
ring size or the ring is OFF; a later doorbell restarts a stopped ring (R328, R329). -/
def ringDoorbell (r : RingId) (val : W32) (s : State) : State :=
  if s.ringSize r ≤ val.toNat ∨ s.fnIs (.ring r) .off = true then
    s.setRegFld .hifRingStat 0 r.val 0 0 0 1
  else
    (s.setReg .hifRingTail 0 r.val 0 (BitVec.ofNat 64 (val.toNat % 2 ^ 16))).modRing r
      (fun x => { x with stopped := false })

/-- A write at a BAR2 offset of `size` bytes: only aligned 32-bit writes to a doorbell take effect. A read, `none`,
returns zero (R322). -/
def ringDoorbellAt (off size : Nat) (val : Option W32) (s : State) : State :=
  match val, doorbellRing off with
  | none, _ => s.emit (.bar2Data size 0)
  | some v, some r => if size = 4 then ringDoorbell r v s else s
  | some _, none => s

/-- An event doorbell: records the consumer index and writes entries that waited for room, or is
ignored at or above the event ring's size and while the context is OFF (R335, R518). -/
def eventDoorbell (n : CtxId) (val : W32) (s : State) : State :=
  if s.evqSize n ≤ val.toNat ∨ s.fnIs (.ctx n) .off = true then s
  else (s.modCtx n (fun c => { c with cons := val.toNat })).eventDrain n

/-- The event doorbell at a BAR2 offset. -/
def eventDoorbellAt (off size : Nat) (val : W32) (s : State) : State :=
  match eventDoorbellCtx off with
  | some n => if size = 4 then eventDoorbell n val s else s
  | none => s

/-! ### Fetch -/

/-- Descriptors of a ring in flight, R330. -/
def State.inflight (s : State) (r : RingId) : Nat :=
  (s.descs.filter (fun x => decide (x.ring = r))).length

/-- Whether the hub runs (no change-over of halves under way, R440). -/
def State.hubUp (s : State) : Bool := !s.hub.takeover

/-- Whether a ring may be fetched: ring and context ON (R327), slots pending (R328), not stopped
at a slot (R329), no SEM_WAIT open (R333), below both in-flight limits (R330), the function in D0
(R318), no recovery stopping fetch and no entry of one waiting for room (R360), the hub running (R440). -/
def State.canFetch (s : State) (r : RingId) : Bool :=
  s.fnIs (.ring r) .on && s.fnIs (.ctx (ringCtx r)) .on && s.hubUp && !s.hub.d3hot &&
  s.recovery.isNone && !(s.ctx (ringCtx r)).evHold && !(s.ring r).stopped && (s.ring r).semHold.isNone &&
  decide (s.regFld .hifRingHead 0 r.val 0 15 0 % s.ringSize r ≠
    s.regFld .hifRingTail 0 r.val 0 15 0 % s.ringSize r) &&
  decide (s.inflight r < 64) && decide (s.descs.length < 512)

/-- The fetcher's requesting rings by number. -/
def State.fetchReq (s : State) (i : Nat) : Bool :=
  if h : i < 256 then s.canFetch ⟨i, h⟩ else false

/-- The slots left to a ring in the fetcher's grant, with the pointer afterwards: the grant under
way while it lasts, else the next grant of R21, of up to 8 slots (R330). -/
def State.grantFor (s : State) (r : RingId) : Option (Nat × Nat) :=
  let fresh := match arbitrate s.fetchReq s.arb.fetch 256 with
    | some (i, q) => if i = r.val then some (8, q) else none
    | none => none
  match s.arb.grant with
  | some (g, k) =>
    if 0 < k ∧ s.canFetch g = true then (if g = r then some (k, s.arb.fetch) else none) else fresh
  | none => fresh

/-- The slot a ring fetches next: HEAD, taken modulo the ring size. -/
def State.headSlot (s : State) (r : RingId) : Nat :=
  s.regFld .hifRingHead 0 r.val 0 15 0 % s.ringSize r

/-- The 64 bytes of the slot at HEAD. -/
def State.headBytes (s : State) (r : RingId) : List Byte :=
  s.anyRead (s.slotAddr r (s.headSlot r)) 64

/-- OWN of a descriptor's bytes, R332. -/
def ownSet (b : List Byte) : Bool := decide (128 ≤ leAt b 0x3F 1)

/-- An uncorrectable codeword in the slot at HEAD, in device memory (R290). -/
def State.slotBad (s : State) (r : RingId) : Option Nat := s.badIn (s.slotAddr r (s.headSlot r)) 64

/-- Whether the fetcher reads ring r's slot at HEAD next, its read ends well, and OWN is set in it. -/
def State.fetchable (s : State) (r : RingId) : Bool :=
  (s.grantFor r).isSome && (s.slotBad r).isNone && ownSet (s.headBytes r)

/-- Takes the slot at HEAD: HEAD advances past it, OWN_STALL clears, the descriptor is in flight
with the bytes read (R328 step 3, R331); a SEM_WAIT ends the grant and holds its ring (R330). -/
def State.fetch (s : State) (r : RingId) : State × Desc :=
  let slot := s.headSlot r
  let b := s.headBytes r
  let ty := leAt b 0 1
  let x : Desc := { seq := s.nextSeq, ring := r, slot, ty, bytes := b, time := s.now }
  let (k, q) := (s.grantFor r).getD (0, s.arb.fetch)
  let s := s.jobRead (ringCtx r) none (s.slotAddr r slot) 64
  let s := s.setReg .hifRingHead 0 r.val 0 (BitVec.ofNat 64 ((slot + 1) % s.ringSize r))
  let s := s.setRegFld .hifRingStat 0 r.val 0 1 1 0
  let s := s.modRing r (fun y =>
    { y with fetched := y.fetched + 1, semHold := if ty = 0x07 then some x.seq else none })
  ({ s with
      descs := s.descs ++ [x]
      nextSeq := s.nextSeq + 1
      arb := { s.arb with fetch := q, grant := if ty = 0x07 then none else some (r, k - 1) } }, x)

/-- SLOT_FETCH_STALL: OWN clear in the slot, or its read fails; the ring stops there until the
next doorbell (R329). An uncorrectable codeword of a slot in device memory is a job fault of the ring's context
(R290). -/
def slotFetchStall (r : RingId) (fail : Option ReadFail) (s : State) : State :=
  let q := ((s.grantFor r).getD (0, s.arb.fetch)).2
  let s := { s with arb := { s.arb with fetch := q, grant := none } }
  match fail with
  | some _ => (s.setRegFld .hifRingStat 0 r.val 0 2 2 1).modRing r (fun x => { x with stopped := true })
  | none =>
    match s.slotBad r with
    | some c => s.raise causeMem hubSideDie [ringCtx r] c
    | none =>
      if ownSet (s.headBytes r) then s
      else
        let s := s.jobRead (ringCtx r) none (s.slotAddr r (s.headSlot r)) 64
        (s.setRegFld .hifRingStat 0 r.val 0 1 1 1).modRing r (fun x => { x with stopped := true })

/-- SLOT_FETCH_STALL. -/
def execSlotFetchStall (r : RingId) (fail : Option ReadFail) (s : State) :
    Host.Outcome State Fault Refusal :=
  .next (if (s.grantFor r).isSome && (fail.isSome || (s.slotBad r).isSome || !ownSet (s.headBytes r)) then
      slotFetchStall r fail s
    else s)

/-! ### The common checks, R334 Table 5 -/

/-- Bytes that Table 4 names for a type, with the bits of each that are not reserved: FLAGS bits,
then byte ranges named whole. -/
def flagMask : Nat → Nat
  | 0x01 => 0x03
  | 0x02 => 0x03
  | 0x03 => 0x03
  | 0x04 => 0x03
  | 0x05 => 0x07
  | 0x06 => 0x07
  | 0x07 => 0x05
  | 0x08 => 0x07
  | _ => 0x01

/-- Offset and length of the fields of a type in bytes 2 to 0x37, R331 Table 4. -/
def fieldRanges : Nat → List (Nat × Nat)
  | 0x01 => [(2, 1), (4, 2), (0x08, 8), (0x10, 12), (0x20, 8), (0x28, 8)]
  | 0x02 => [(2, 4), (0x08, 8), (0x10, 8), (0x18, 8)]
  | 0x03 => [(2, 4), (0x08, 8), (0x18, 8), (0x20, 8)]
  | 0x04 => [(2, 5), (0x08, 8), (0x10, 8), (0x18, 8), (0x20, 8), (0x28, 8)]
  | 0x05 => []
  | 0x06 => [(2, 2), (0x08, 4)]
  | 0x07 => [(2, 2), (0x08, 4), (0x0C, 4)]
  | 0x08 => [(2, 2), (0x08, 8), (0x10, 8), (0x18, 4), (0x20, 8), (0x28, 8)]
  | 0x09 => [(2, 2), (0x08, 8)]
  | 0x0A => [(2, 2)]
  | 0x0B => [(2, 1), (0x08, 8), (0x10, 8), (0x18, 8), (0x20, 8)]
  | 0x0C => [(2, 1)]
  | 0x0D => [(0x08, 8)]
  | 0x0E => [(0x08, 8)]
  | 0x0F => [(0x08, 8)]
  | _ => []

/-- Whether a reserved byte or bit of a descriptor is non-zero (R8, R331): bytes outside the
fields, FLAGS bits outside the type's, and bits 15:11 of a SEM field. -/
def reservedSet (b : List Byte) : Bool :=
  let ty := leAt b 0 1
  decide (leAt b 1 1 &&& (0xFF - flagMask ty) ≠ 0) ||
  (List.range 0x36).any (fun k =>
    let o := k + 2
    !(fieldRanges ty).any (fun (f, n) => decide (f ≤ o) && decide (o < f + n)) &&
      decide (leAt b o 1 ≠ 0)) ||
  ((ty == 0x06 || ty == 0x07) && decide (leAt b 2 2 / 2 ^ 11 ≠ 0))

/-- ARGS of a DISPATCH, R331. -/
def argsFlag (b : List Byte) : Bool := leAt b 0 1 == 1 && decide (bits (leAt b 1 1) 1 1 = 1)

/-- Whether argument quadword 0 is non-zero (R333), read where context `n` may read the block. -/
def State.arg0Set (s : State) (n : CtxId) (b : List Byte) : Bool :=
  argsFlag b && addrOk (leAt b 0x20 8) && (isHost (leAt b 0x20 8) || s.jobMay n (leAt b 0x20 8) 128) &&
    decide (leNat (s.anyRead (leAt b 0x20 8) 8) ≠ 0)

/-- The address fields of a descriptor, and those that must hold a device address (R11, R331, R334 check 3). -/
def addrFields (b : List Byte) : List (Nat × Bool) :=
  match leAt b 0 1 with
  | 0x01 => [(leAt b 0x20 8, false)]
  | 0x02 => [(leAt b 0x10 8, false), (leAt b 0x18 8, false)]
  | 0x03 => [(leAt b 0x18 8, false)]
  | 0x04 => [(leAt b 0x10 8, false), (leAt b 0x18 8, false), (leAt b 0x28 8, false)]
  | 0x08 => [(leAt b 0x10 8, true), (leAt b 0x28 8, true)]
  | 0x09 => [(leAt b 0x08 8, true)]
  | 0x0B => [(leAt b 0x08 8, false), (leAt b 0x18 8, true), (leAt b 0x20 8, false)]
  | 0x0D => [(leAt b 0x08 8, true)]
  | 0x0E => [(leAt b 0x08 8, false)]
  | 0x0F => [(leAt b 0x08 8, false)]
  | _ => []

/-- Check 4 of R334: a field outside its range. -/
def rangeSet (b : List Byte) : Bool :=
  match leAt b 0 1 with
  | 0x01 => decide (15 < leAt b 2 1)
  | 0x04 => decide (1 < leAt b 6 1)
  | 0x06 => decide (leAt b 0x08 4 = 0)
  | 0x08 => decide (2047 < leAt b 2 2) || decide (2 ^ 48 ≤ leAt b 0x08 8)
  | 0x09 => decide (2047 < leAt b 2 2)
  | 0x0A => decide (2047 < leAt b 2 2)
  | 0x0B => decide (15 < leAt b 2 1)
  | 0x0C => decide (15 < leAt b 2 1)
  | _ => false

/-- Check 5 of R334: a misaligned address. -/
def misaligned (b : List Byte) : Bool :=
  match leAt b 0 1 with
  | 0x01 => decide (leAt b 0x20 8 % 64 ≠ 0)
  | 0x09 => decide (leAt b 0x08 8 % 64 ≠ 0)
  | 0x0B => decide (leAt b 0x20 8 % 64 ≠ 0)
  | 0x0D => decide (leAt b 0x08 8 % 64 ≠ 0)
  | 0x0E => decide (leAt b 0x08 8 % 8 ≠ 0)
  | 0x0F => decide (leAt b 0x08 8 % 64 ≠ 0)
  | _ => false

/-- The first failing check of R334 with its status and DETAIL. -/
def State.commonCheck (s : State) (n : CtxId) (b : List Byte) : Option (Byte × W16) :=
  let ty := leAt b 0 1
  firstSome [
    failIf (reservedSet b || s.arg0Set n b) (stBadDesc, 0x0501),
    failIf (ty == 0 || decide (0x0F < ty)) (stBadDesc, 0x0502),
    failIf ((addrFields b).any (fun (a, dev) => !addrOk a || (dev && isHost a))) (stBadDesc, 0x0503),
    failIf (rangeSet b) (stBadDesc, 0x0504),
    failIf (misaligned b) (stAlign, 0x0505)]

/-! ### Fences and starts -/

/-- Whether a descriptor `f` is a FENCE that has not completed and whose scope covers ring `r`:
its own ring, or with SCOPE 1 every ring of its context (R311). -/
def fenceCovers (f : Desc) (r : RingId) : Bool :=
  f.ty == 0x05 && decide (f.st ≠ .done) &&
    (if bits (leAt f.bytes 1 1) 1 1 = 1 then decide (ringCtx f.ring = ringCtx r) else decide (f.ring = r))

/-- Whether an earlier FENCE still holds a descriptor's start, R311. -/
def State.fenceHeld (s : State) (x : Desc) : Bool :=
  s.descs.any (fun f => decide (f.seq < x.seq) && fenceCovers f x.ring)

/-- Descriptors a FENCE or SEM_SIGNAL covers: those of its scope fetched before it (R311, R312). -/
def covered (x y : Desc) : Bool :=
  decide (y.seq < x.seq) &&
    (if bits (leAt x.bytes 1 1) 1 1 = 1 then decide (ringCtx y.ring = ringCtx x.ring)
     else decide (y.ring = x.ring))

/-- Whether every covered descriptor has completed. -/
def State.coveredDone (s : State) (x : Desc) : Bool :=
  s.descs.all (fun y => !covered x y || decide (y.st = .done))

/-- A device or host access of a context's descriptor: illegal device addresses raise a job fault
(R26); host addresses are not translated or checked. -/
def State.ctxMay (s : State) (n : CtxId) (a len : Nat) : Bool := isHost a || s.jobMay n a len

/-- A hub-side illegal address of a context. -/
def State.illegal (s : State) (n : CtxId) (a : Nat) : State := s.raise causeAddr hubSideDie [n] a

/-- Marks a descriptor started. -/
def State.markStarted (s : State) (seq : Nat) : State :=
  s.modDesc seq (fun y => { y with st := .started, held := false, time := s.now })

/-- FETCH of a descriptor whose bytes pass `ok`: the common checks, then the type's own checks made at
fetch, then `atFetch`, what its fetch does, then its start, held while an earlier FENCE holds it. An
out-of-service module completes every descriptor with CANCELLED (R436 step 3). -/
def fetchThen (r : RingId) (ok : List Byte → Bool) (check : State → Desc → Option (Byte × W16))
    (atFetch : Desc → State → State) (start : Nat → State → State) (s : State) : State :=
  if s.fetchable r && ok (s.headBytes r) then
    let (s, x) := s.fetch r
    if s.hub.outOfService then s.complete x.seq stCancelled 0
    else
      match s.commonCheck (ringCtx x.ring) x.bytes with
      | some (st, dt) => s.complete x.seq st dt
      | none =>
        match check s x with
        | some (st, dt) => s.complete x.seq st dt
        | none =>
          let s := atFetch x s
          if s.isDone x.seq then s
          else if s.fenceHeld x then s.modDesc x.seq (fun y => { y with held := true })
          else start x.seq s
  else s

/-- FETCH of a descriptor whose fetch does nothing beyond its checks. -/
def fetchAs (r : RingId) (ok : List Byte → Bool) (check : State → Desc → Option (Byte × W16))
    (start : Nat → State → State) (s : State) : State :=
  fetchThen r ok check (fun _ s => s) start s

/-- Whether a slot's TYPE is `t`. -/
def tyIs (t : Nat) (b : List Byte) : Bool := leAt b 0 1 == t

/-- No checks beyond the common ones. -/
def noCheck (_ : State) (_ : Desc) : Option (Byte × W16) := none

/-- INVALID_DESCRIPTOR: TYPE 0x00 or above 0x0F is refused by the common checks (R334). -/
def execInvalidDescriptor (r : RingId) (s : State) : Host.Outcome State Fault Refusal :=
  .next (fetchAs r (fun b => tyIs 0 b || decide (0x0F < leAt b 0 1)) noCheck (fun _ s => s) s)

/-! ### FENCE, SEM_SIGNAL, SEM_WAIT, TIMESTAMP, ENERGY_QUERY -/

/-- FENCE: from its fetch it holds later descriptors of its scope (R311). -/
def execFence (r : RingId) (s : State) : Host.Outcome State Fault Refusal :=
  .next (fetchAs r (tyIs 0x05) noCheck (fun q s => s.markStarted q) s)

/-- SEM_SIGNAL: waits for the covered descriptors (R312). -/
def execSemSignal (r : RingId) (s : State) : Host.Outcome State Fault Refusal :=
  .next (fetchAs r (tyIs 0x06) noCheck (fun q s => s.markStarted q) s)

/-- Adds to a semaphore; past 2^32 − 1 a job fault of the context (R125). -/
def State.semAdd (s : State) (n : CtxId) (die idx v : Nat) : State × Bool :=
  let w := s.sem n die idx + v
  if 2 ^ 32 ≤ w then (s.raise causeSem die [n] 0, false) else (s.setSem n die idx w, true)

/-- SEM_SIGNAL_APPLY: the covered descriptors have completed, so VALUE is added (R312). -/
def semSignalApply (x : Desc) (s : State) : State :=
  let n := ringCtx x.ring
  let sem := leAt x.bytes 2 2
  match s.semAdd n (bits sem 10 8) (bits sem 7 0) (leAt x.bytes 0x08 4) with
  | (s, true) => s.complete x.seq stOk 0
  | (s, false) => s

/-- Whether Newel, which holds a die's semaphores (R437), runs on the die of the semaphore that a SEM field names (R14,
R438). -/
def State.semUp (s : State) (x : Desc) : Bool := s.newelUp (semDie (leAt x.bytes 2 2))

/-- Whether a descriptor in flight has a type, has started and may act now. -/
def State.started (s : State) (seq ty : Nat) : Option Desc :=
  (s.desc seq).filter (fun x => x.ty == ty && decide (x.st = .started) && s.hubUp && s.recovery.isNone)

/-- SEM_SIGNAL_APPLY. -/
def execSemSignalApply (seq : Nat) (s : State) : Host.Outcome State Fault Refusal :=
  .next (match s.started seq 0x06 with
    | some x => if s.coveredDone x && s.semUp x then semSignalApply x s else s
    | none => s)

/-- SEM_WAIT: starts at fetch and holds later fetches from its ring (R333). -/
def execSemWait (r : RingId) (s : State) : Host.Outcome State Fault Refusal :=
  .next (fetchAs r (tyIs 0x07) noCheck (fun q s => s.markStarted q) s)

/-- The semaphore of a SEM field. -/
def State.semOf (s : State) (x : Desc) : Nat :=
  s.sem (ringCtx x.ring) (bits (leAt x.bytes 2 2) 10 8) (bits (leAt x.bytes 2 2) 7 0)

/-- SEM_WAIT_SATISFIED: the semaphore is at least VALUE; CONSUME subtracts it (R333). -/
def semWaitSatisfied (x : Desc) (s : State) : State :=
  let sem := leAt x.bytes 2 2
  let s := if bits (leAt x.bytes 1 1) 2 2 = 1 then
      s.setSem (ringCtx x.ring) (bits sem 10 8) (bits sem 7 0) (s.semOf x - leAt x.bytes 0x08 4)
    else s
  s.complete x.seq stOk 0

/-- SEM_WAIT_SATISFIED. -/
def execSemWaitSatisfied (seq : Nat) (s : State) : Host.Outcome State Fault Refusal :=
  .next (match s.started seq 0x07 with
    | some x => if leAt x.bytes 0x08 4 ≤ s.semOf x ∧ s.semUp x = true then semWaitSatisfied x s else s
    | none => s)

/-- Whether LIMIT has expired: non-zero, and LIMIT µs have passed since the start. -/
def State.limitOver (s : State) (x : Desc) : Bool :=
  decide (leAt x.bytes 0x0C 4 ≠ 0) && decide (x.time + leAt x.bytes 0x0C 4 * 1000 ≤ s.now)

/-- SEM_WAIT_TIMEOUT: completes with WAIT_TIMEOUT and consumes nothing (R333). -/
def execSemWaitTimeout (seq : Nat) (s : State) : Host.Outcome State Fault Refusal :=
  .next (match s.started seq 0x07 with
    | some x =>
      if s.limitOver x ∧ s.semOf x < leAt x.bytes 0x08 4 then s.complete seq stTimeout 0 else s
    | none => s)

/-- TIMESTAMP: waits for the earlier descriptors of its ring (R333). -/
def execTimestamp (r : RingId) (s : State) : Host.Outcome State Fault Refusal :=
  .next (fetchAs r (tyIs 0x0E) noCheck (fun q s => s.markStarted q) s)

/-- The ledger record of a context, R418 Table 5. -/
def State.ledgerRecord (s : State) (n : CtxId) : List Byte :=
  let c := s.ctx n
  let capped := s.disps.any (fun d => decide (d.ctx = n) && decide (d.st = .running)) &&
    (c.exhausted || s.disps.any (fun d => decide (d.ctx = n) && decide (d.st = .running) && d.capped))
  toLe 8 (s.reg .pwrLedgerTime 0 0 0).toNat ++ toLe 8 c.winStart ++ toLe 8 c.winUsed ++
  toLe 8 c.coreE ++ toLe 8 c.hbmE ++ toLe 8 c.portE ++ toLe 8 c.mediaE ++ toLe 1 n.val ++
  toLe 1 ((if c.exhausted then 1 else 0) + (if capped then 2 else 0)) ++ toLe 6 0

/-! ### Interrupt holdoff -/

/-- HOLDOFF_EXPIRY: at the end of a holdoff period one further message is sent for the events held
back in it, which begins a new period; with none held the period just ends (R337). -/
def holdoffExpiry (r : RingId) (s : State) : State :=
  let hold := s.regFld .hifRingCfg 0 r.val 0 15 8
  if (s.ring r).held then
    (s.msix r.val).modRing r (fun x => { x with held := false, holdoffEnd := some (s.now + hold * 1000) })
  else s.modRing r (fun x => { x with holdoffEnd := none })

/-- HOLDOFF_EXPIRY. -/
def execHoldoffExpiry (r : RingId) (s : State) : Host.Outcome State Fault Refusal :=
  .next (match (s.ring r).holdoffEnd with
    | some t => if t ≤ s.now then holdoffExpiry r s else s
    | none => s)

end Sys2Proof.Machine
end

