-- ==== Sys2Proof/Machine/Memory.lean ====
section
/-! DEFINITION. Accesses to device memory: job reads and writes with their job faults (R26, R290,
R291), the byte counters of controllers and Gallery (R315, R516), host access through BAR4 (R323),
and HBM upkeep: scrub, retirement, lanes and retraining (R289 to R297). -/

namespace Sys2Proof.Machine

/-! ### Job accesses -/

/-- The lowest address of a range for which `bad` holds, which changes at multiples of 4 KiB only. -/
def firstAt (bad : Nat → Bool) (a len : Nat) : Nat :=
  ((a :: (List.range (len / 4096 + 1)).map (fun k => (a / 4096 + 1 + k) * 4096)).find?
    (fun b => decide (b < a + len) && bad b)).getD a

/-- Whether a job's read of a context completes, with the cause and address of its job fault: the
lowest illegal address, or the uncorrectable codeword met (log 25). -/
def State.readFault (s : State) (n : CtxId) (a len : Nat) : Option (Byte × Nat) :=
  if s.jobMay n a len then (s.badIn a len).map (fun c => (causeMem, c))
  else some (causeAddr, firstAt (fun b => !s.jobMay n b 1) a len)

/-- The context whose loaded plan area a range touches, R138. -/
def State.planAreaOf (s : State) (a len : Nat) : Option CtxId :=
  (s.plans.find? (fun p => decide (p.st ≠ .loading) && overlaps a len p.area (ceilDiv p.size 4096 * 4096))).map (fun p => p.ctx)

/-- The same for a write, which a loaded plan's area does not take (R138). -/
def State.writeFault (s : State) (n : CtxId) (a len : Nat) : Option (Byte × Nat) :=
  if s.jobMay n a len ∧ s.planAreaOf a len ≠ some n then
    (s.badPartial a len).map (fun c => (causeMem, c))
  else some (causeAddr, firstAt (fun b => !s.jobMay n b 1 || s.planAreaOf b 1 == some n) a len)

/-- The first fault of a list of reads. -/
def State.readsFault (s : State) (n : CtxId) (l : List (Nat × Nat)) : Option (Byte × Nat) :=
  l.findSome? (fun r => s.readFault n r.1 r.2)

/-- The first fault of a list of writes. -/
def State.writesFault (s : State) (n : CtxId) (l : List (Nat × Nat)) : Option (Byte × Nat) :=
  l.findSome? (fun r => s.writeFault n r.1 r.2)

/-- A hub-side write of a context's descriptor: host bytes, or device bytes under the rules of a job's
write (R26, R138, R291); whether it was made. -/
def State.hubWrite (s : State) (n : CtxId) (a : Nat) (bs : List Byte) : State × Bool :=
  if isHost a then (s.anyWrite a bs, true)
  else match s.writeFault n a bs.length with
    | some (c, x) => (s.raise c hubSideDie [n] x, false)
    | none => ((s.putBytes a bs).chargeBytes n none a bs.length, true)

/-! ### TIMESTAMP and ENERGY_QUERY -/

/-- TIMESTAMP_WRITE: writes the fabric time to ADDR and completes with the same time (R333). -/
def timestampWrite (x : Desc) (s : State) : State :=
  match s.hubWrite (ringCtx x.ring) (leAt x.bytes 0x08 8) (toLe 8 s.now) with
  | (s, true) => s.complete x.seq stOk 0
  | (s, false) => s

/-- TIMESTAMP_WRITE; the hub's write waits for stopped islands on its way (R19). -/
def execTimestampWrite (seq : Nat) (s : State) : Host.Outcome State Fault Refusal :=
  .next (match s.started seq 0x0E with
    | some x =>
      if s.earlierOpen seq (fun y => decide (y.ring = x.ring)) || !s.sideRuns none (leAt x.bytes 0x08 8) 8 then s
      else timestampWrite x s
    | none => s)

/-- ENERGY_QUERY writes the context's ledger record to ADDR (R333, R418). -/
def energyQuery (q : Nat) (s : State) : State :=
  match s.desc q with
  | some x =>
    let n := ringCtx x.ring
    match (s.markStarted q).hubWrite n (leAt x.bytes 0x08 8) (s.ledgerRecord n) with
    | (s, true) => s.complete q stOk 0
    | (s, false) => s
  | none => s

/-- ENERGY_QUERY. -/
def execEnergyQuery (r : RingId) (s : State) : Host.Outcome State Fault Refusal :=
  .next (fetchAs r (tyIs 0x0F) noCheck energyQuery s)

/-! ### BAR4, R323 -/

/-- The BAR4 window's size in effect (R321). -/
def State.bar4Size (s : State) : Nat := 2 ^ s.hub.bar4Log2

/-- BASE of HIF_BAR4_CTL. -/
def State.bar4Base (s : State) : Nat := s.regFld .hifBar4Ctl 0 0 0 47 30 * 2 ^ 30

/-- OWNER of HIF_BAR4_CTL: a context, or none for 0x40. -/
def State.bar4Owner (s : State) : Option CtxId :=
  let o := s.regFld .hifBar4Ctl 0 0 0 23 16
  if h : o < 64 then some ⟨o, h⟩ else none

/-- Whether BAR4 refuses an access of `len` bytes at an offset, R323. -/
def State.bar4Refuses (s : State) (off len : Nat) : Bool :=
  let a := s.bar4Base + off
  decide (s.bar4Size < off + len) || decide (0xBC00000000 < a + len) ||
    !(List.range ((a + len - 1) / 2 ^ 30 + 1 - a / 2 ^ 30)).all (fun k =>
        s.hbmBacked ((a / 2 ^ 30 + k) * 2 ^ 30)) ||
    (match s.bar4Owner with
     | some n => !s.hbmInRanges n a len
     | none => false)

/-- BAR4_CTL_WRITE: ignored as a whole when OWNER or BASE is not valid (R323). -/
def bar4CtlWrite (val : W64) (s : State) : State :=
  let owner := fld val 23 16
  let base := fld val 47 30 * 2 ^ 30
  if 0x40 < owner ∨ base % s.bar4Size ≠ 0 then s
  else s.setReg .hifBar4Ctl 0 0 0
    (BitVec.ofNat 64 (val.toNat &&& RegId.hifBar4Ctl.row.mask))

/-- BAR_RESIZE: a power of two from 1 GiB to 512 GiB; clears the bits of BASE below the new size
(R321, R323). -/
def barResize (log2 : Nat) (s : State) : State :=
  if 30 ≤ log2 ∧ log2 ≤ 39 then
    let s := { s with hub := { s.hub with bar4Log2 := log2 } }
    let base := s.bar4Base
    s.setRegFld .hifBar4Ctl 0 0 0 47 30 ((base - base % 2 ^ log2) / 2 ^ 30)
  else s

/-- BAR4_READ: HBM bytes at BASE + offset; Unsupported Request and a count when refused; Completer
Abort and a count for an uncorrectable codeword (R323, R290); `ce` names codewords met with a correctable error
(R289). -/
def bar4Read (off len : Nat) (ce : List Nat) (s : State) : State :=
  let a := s.bar4Base + off
  if s.bar4Refuses off len then (s.bump .hifBar4Err 0 0 1).emit .bar4UnsupportedRequest
  else match s.badIn a len with
    | some c => (s.countUe c).emit .bar4CompleterAbort
    | none => ((s.countBytes false a len).readCe a len ce).emit (.bar4Data (s.devRead a len))

/-- BAR4_WRITE: into HBM at BASE + offset; dropped and counted when refused; into a loaded plan
area of the owner an illegal address of the owner, and without an owner dropped and counted
(R323, R138). A write that covers part of an uncorrectable codeword is a job fault of the owner
(R291); without an owner it is dropped and the error stays (log 12). -/
def bar4Write (off : Nat) (bs : List Byte) (s : State) : State :=
  let a := s.bar4Base + off
  let len := bs.length
  if s.bar4Refuses off len then s.bump .hifBar4Err 0 0 1
  else match s.bar4Owner, s.planAreaOf a len with
    | none, some _ => s.bump .hifBar4Err 0 0 1
    | o, area =>
      match (if area = o then o.filter (fun _ => area.isSome) else none), s.badPartial a len, o with
      | some n, _, _ => s.illegal n a
      | none, some c, some n => s.raise causeMem hubSideDie [n] c
      | none, some _, none => s
      | none, none, _ => s.putBytes a bs

/-! ### HBM upkeep -/

/-- Codewords of a scrub pass: those that hold addressable data, of a retired row or bank at the spare in use (R292,
log 87). An interleaved region puts 32 MiB on each stack, a homed one 256 MiB on each stack of its die. -/
def State.scrubTotal (s : State) (d : Die) (_ : Mc) : Nat :=
  natSum ((List.range 752).map (fun j => match s.region j with
    | .interleaved => 2 ^ 25 / 32
    | .homed h => if h = d then 2 ^ 28 / 32 else 0
    | .unbacked => 0))

/-- Period of a scrub pass in ns: PERIOD_H hours. -/
def State.scrubPeriod (s : State) (d : Die) (m : Mc) : Nat :=
  s.regFld .mcScrubCtl d.val m.val 0 7 0 * 3600 * 10 ^ 9

/-- Stack index of a controller, R10. -/
def stackIx (d : Die) (m : Mc) : Nat := 4 * d.val + m.val

/-- Whether a codeword of HBM is one that a controller's scrub has still to read in its pass: on its stack, and above
the last one in stack address (R292). -/
def State.scrubLeft (s : State) (d : Die) (m : Mc) (c : Nat) : Bool :=
  s.hbmBacked c && s.stackOf c == stackIx d m &&
    (match (s.mc d m).scrubLast with
     | some l => decide (l < Config.stackAddr (stackIx d m) c)
     | none => true)

/-- Codewords of the device addresses of HBM. -/
def hbmWords : Nat := 752 * 2 ^ 25

/-- Whether the codeword at a device address is the next that a controller's scrub reads: the lowest in stack address
of those left in the pass, and due at the even rate of PERIOD_H (R292). -/
def State.scrubNextOk (s : State) (d : Die) (m : Mc) (addr : Nat) : Bool :=
  let c := addr / 32 * 32
  s.scrubLeft d m c && decide ((s.mc d m).scrubNext ≤ s.now) &&
    decide (∀ w < hbmWords, s.scrubLeft d m (32 * w) = true →
      Config.stackAddr (stackIx d m) c ≤ Config.stackAddr (stackIx d m) (32 * w))

/-- Whether codewords are left in a controller's pass. -/
def State.scrubMore (s : State) (d : Die) (m : Mc) : Bool := decide (∃ w < hbmWords, s.scrubLeft d m (32 * w) = true)

/-- SCRUB_READ of one codeword at a device address, with what it finds: a correctable error counts
in MC_ECC_CE and towards its row (R289, R293), an uncorrectable one, as one met before stays, in MC_ECC_UE (R290);
the last codeword of the stack ends the pass (R292). -/
def scrubRead (d : Die) (m : Mc) (addr : Nat) (found : ScrubFind) (s : State) : State :=
  let c := addr / 32 * 32
  let s := s.account (acStack (stackIx d m)) 32
  let found := if s.bad.contains c then .uncorrectable else found
  let s := match found with
    | .clean => s
    | .corrected => s.countHbmCe c
    | .uncorrectable =>
      let s := s.countUe c
      { s with bad := if s.bad.contains c then s.bad else s.bad ++ [c] }
  let due := s.now + s.scrubPeriod d m / max 1 (s.scrubTotal d m)
  let s := s.modMc d m (fun x =>
    { x with scrubLast := some (Config.stackAddr (stackIx d m) c), scrubNext := due })
  if s.scrubMore d m then s
  else (s.bump .mcScrubPass d.val m.val 1).modMc d m (fun x => { x with scrubLast := none })

/-- Whether a controller runs: after HBM is up in start-up, while the die's rails are on, and its island's clock
runs. -/
def State.mcUp (s : State) (d : Die) (m : Mc) : Bool :=
  decide (7 ≤ s.boot.stage) && (s.die d).railOn && s.clockRuns d (islMc m)

/-- SCRUB_READ, of codeword `word` of a 256 B block of device addresses. -/
def execScrubRead (d : Die) (m : Mc) (block : Nat) (word : Fin 8) (found : ScrubFind) (s : State) :
    Host.Outcome State Fault Refusal :=
  .next (if s.mcUp d m && (s.reg .mcScrubCtl d.val m.val 0).getLsbD 8 && s.scrubNextOk d m (256 * block + 32 * word) then
      scrubRead d m (256 * block + 32 * word) found s
    else s)

/-- Starts a migration: MC_MIGRATE shows it (R294, R315). -/
def State.startMig (s : State) (d : Die) (m : Mc) (isBank : Bool) (key : Nat) : State :=
  (s.setReg .mcMigrate d.val m.val 0 (BitVec.ofNat 64 (2 ^ 31 + (if isBank then 2 ^ 30 else 0)))).modMc d m
    (fun x => { x with mig := some (isBank, key), migAt := s.now })

/-- ROW_RETIRE: 4 corrected codewords within 24 h start the row's migration; with all 16,384 spare
rows in use the row stays and the controller is degraded (R293, R295). -/
def rowRetire (d : Die) (m : Mc) (row : RowId) (s : State) : State :=
  if s.regFld .mcRetire d.val m.val 0 14 0 < 16384 then s.startMig d m false (rowKey row)
  else
    let s := s.setRegFld .mcStatus d.val m.val 0 7 7 1
    s.degraded kHbmRow d.val (stackIx d m) row.row 0 0 0

/-- ROW_RETIRE. -/
def execRowRetire (d : Die) (m : Mc) (row : RowId) (s : State) : Host.Outcome State Fault Refusal :=
  .next (if s.mcUp d m && (s.mc d m).mig.isNone &&
      decide (4 ≤ (recentCe (SMap.getD (s.mc d m).ceTimes (rowKey row) []) s.now).length) then
      rowRetire d m row s
    else s)

/-- Retired rows and banks and used spare lanes, as the spare map holds them by stack (R443, R293). -/
def State.saveHbmMap (s : State) (d : Die) (m : Mc) : State :=
  let x := s.mc d m
  let v : McSt := { retiredRows := x.retiredRows, bankRetired := x.bankRetired, laneUsed := x.laneUsed }
  let cur := s.store.cur
  { s with store := { s.store with dirty := true, cur := { cur with
      spares := { cur.spares with hbm := SMap.put cur.spares.hbm (stackIx d m) v } } } }

/-- The uncorrectable codewords that a migration's copy meets: those of the row or bank. Each counts in MC_ECC_UE
with its address kept, and stays uncorrectable at its new place (R290, R294). -/
def State.migrationUes (s : State) (d : Die) (m : Mc) (isBank : Bool) (key : Nat) : List Nat :=
  s.bad.filter (fun c => inHbm c &&
    (let (k, row) := s.rowAt c
     k == stackIx d m && (if isBank then bankKeyOf row == key else row == key)))

/-- MIGRATION_SWITCH: the copy has ended and the controller goes to the spare. A bank retires once
64 of its rows have, while spare banks are left, and frees their entries (R293 to R295). -/
def migrationSwitch (d : Die) (m : Mc) (isBank : Bool) (key : Nat) (s : State) : State :=
  let s := (s.migrationUes d m isBank key).foldl State.countUe s
  let s := s.account (acStack (stackIx d m)) (if isBank then 2 * 16384 * 1024 else 2 * 1024)
  let s := (s.setReg .mcMigrate d.val m.val 0 0).modMc d m (fun x => { x with mig := none })
  let rows := s.regFld .mcRetire d.val m.val 0 14 0
  let banks := s.regFld .mcRetire d.val m.val 0 19 15
  if isBank then
    let freed := SMap.getD (s.mc d m).retiredRows key 0
    let s := s.setRegFld .mcRetire d.val m.val 0 19 15 (banks + 1)
    let s := s.setRegFld .mcRetire d.val m.val 0 14 0 (rows - freed)
    let s := s.modMc d m (fun x =>
      { x with
        retiredRows := SMap.del x.retiredRows key, bankRetired := x.bankRetired ++ [key]
        ceTimes := x.ceTimes.filter (fun e => bankKeyOf e.1 != key) })
    (s.repairedAt (s.mc d m).migAt 0 kHbmBank d.val (stackIx d m) key 0 (31 - (banks + 1)) (banks + 1 == 31)).saveHbmMap d m
  else
    let bk := bankKeyOf key
    let n := SMap.getD (s.mc d m).retiredRows bk 0 + 1
    let s := s.setRegFld .mcRetire d.val m.val 0 14 0 (rows + 1)
    let s := s.modMc d m (fun x =>
      { x with retiredRows := SMap.put x.retiredRows bk n, ceTimes := SMap.del x.ceTimes key })
    let s := (s.repairedAt (s.mc d m).migAt 0 kHbmRow d.val (stackIx d m) (key % 16384) 0 (16384 - (rows + 1))
      (rows + 1 == 16384)).saveHbmMap d m
    if 64 ≤ n ∧ banks < 31 then s.startMig d m true bk else s

/-- MIGRATION_SWITCH. -/
def execMigrationSwitch (d : Die) (m : Mc) (s : State) : Host.Outcome State Fault Refusal :=
  .next (match (s.mc d m).mig with
    | some (b, k) => if s.mcUp d m then migrationSwitch d m b k s else s
    | none => s)

/-- HBM_LANE_REPAIR: a failing data lane moves to one of the pseudo-channel's 2 spares, or stays
in service and degrades the controller (R296). -/
def hbmLaneRepair (d : Die) (m : Mc) (pc : Fin 32) (lane : Nat) (s : State) : State :=
  let used := SMap.getD (s.mc d m).laneUsed pc.val 0
  if used < 2 then
    let s := s.modMc d m (fun x => { x with laneUsed := SMap.put x.laneUsed pc.val (used + 1) })
    let s := s.setRegFld .mcLaneRepair d.val m.val 0 6 0 (s.regFld .mcLaneRepair d.val m.val 0 6 0 + 1)
    (s.repaired kHbmLane d.val (stackIx d m) lane 200 0 (2 - (used + 1)) (used + 1 == 2)).saveHbmMap d m
  else
    let s := s.setRegFld .mcStatus d.val m.val 0 6 6 1
    let s := s.bumpSat .mcLaneRepair d.val m.val 15 8 1
    s.degraded kHbmLane d.val (stackIx d m) lane 200 0 0

/-- HBM_LANE_REPAIR. -/
def execHbmLaneRepair (d : Die) (m : Mc) (pc : Fin 32) (lane : Nat) (s : State) :
    Host.Outcome State Fault Refusal :=
  .next (if s.mcUp d m then hbmLaneRepair d m pc lane s else s)

/-- PC_RETRAIN: one pseudo-channel of a stack retrains at a time; its requests wait (R297). -/
def pcRetrain (d : Die) (m : Mc) (pc : Fin 32) (s : State) : State :=
  s.modReg .mcStatus d.val m.val 0 (fun v => setFld (setFld v 5 5 1) 4 0 pc.val)

/-- Whether a pseudo-channel is due for training: 500 ms after its last one, or with the stack's temperature changed by
4 °C since then, where both temperatures have been reported (R297). -/
def State.retrainDue (s : State) (d : Die) (m : Mc) (pc : Fin 32) : Bool :=
  let (t, temp) := SMap.getD (s.mc d m).trained pc.val (0, none)
  decide (t + 500000000 ≤ s.now) ||
    (match temp, (s.mc d m).temp with
     | some a, some b => decide (32 ≤ b - a) || decide (32 ≤ a - b)
     | _, _ => false)

/-- PC_RETRAIN. -/
def execPcRetrain (d : Die) (m : Mc) (pc : Fin 32) (s : State) : Host.Outcome State Fault Refusal :=
  .next (if s.mcUp d m && decide (s.regFld .mcStatus d.val m.val 0 5 5 = 0) && s.retrainDue d m pc then pcRetrain d m pc s else s)

/-- PC_RETRAIN_DONE: the retrain ends and counts in MC_RETRAIN (R297, R315). -/
def pcRetrainDone (d : Die) (m : Mc) (s : State) : State :=
  let pc := s.regFld .mcStatus d.val m.val 0 4 0
  let s := s.modMc d m (fun x => { x with trained := SMap.put x.trained pc (s.now, x.temp) })
  (s.modReg .mcStatus d.val m.val 0 (fun v => setFld (setFld v 5 5 0) 4 0 0)).bump .mcRetrain d.val m.val 1

/-- PC_RETRAIN_DONE. -/
def execPcRetrainDone (d : Die) (m : Mc) (s : State) : Host.Outcome State Fault Refusal :=
  .next (if s.regFld .mcStatus d.val m.val 0 5 5 = 1 then pcRetrainDone d m s else s)

end Sys2Proof.Machine
end

