-- ==== Sys2Proof/Machine/Flags.lean ====
section
/-! DEFINITION. Number formats, exact arithmetic, every rounding, and the SAT and NAN flags each
raises (02_arithmetic_and_accumulation.md R32 to R60, 03_compute_core.md R84 to R87). -/

namespace Sys2Proof.Machine

/-- The flags a result raises: SAT and NAN (R48, R35). -/
structure Fl where
  sat : Bool := false
  nan : Bool := false
  deriving DecidableEq, Repr

/-- Both results' flags. -/
def Fl.or (a b : Fl) : Fl := { sat := a.sat || b.sat, nan := a.nan || b.nan }

def flNone : Fl := {}
def flSat : Fl := { sat := true }
def flNan : Fl := { nan := true }

/-! ### Exact values -/

/-- An exact finite value m × 2^e with a sign, the sign kept for zero. -/
structure Num where
  neg : Bool
  m : Nat
  e : Int
  deriving DecidableEq, Repr

/-- 2^k for a non-negative integer k, 1 below. -/
def p2 (k : Int) : Nat := 2 ^ k.toNat

/-- Signed significand. -/
def Num.int (x : Num) : Int := if x.neg then -(x.m : Int) else (x.m : Int)

/-- A value from a signed significand; zero is +0. -/
def Num.ofInt (i e : Int) : Num := { neg := decide (i < 0), m := i.natAbs, e }

def Num.zero : Num := { neg := false, m := 0, e := 0 }

def Num.negate (x : Num) : Num := { x with neg := !x.neg }

/-- Exact sum; an exact zero is −0 only for (−0) + (−0). -/
def Num.add (x y : Num) : Num :=
  let e := min x.e y.e
  let i := x.int * (p2 (x.e - e) : Int) + y.int * (p2 (y.e - e) : Int)
  if i = 0 then { neg := x.neg && y.neg && x.m == 0 && y.m == 0, m := 0, e := 0 } else Num.ofInt i e

/-- Exact product. -/
def Num.mul (x y : Num) : Num := { neg := x.neg != y.neg, m := x.m * y.m, e := x.e + y.e }

/-- Scales by 2^k. -/
def Num.scale (x : Num) (k : Int) : Num := { x with e := x.e + k }

/-- x < y as values. -/
def Num.lt (x y : Num) : Bool :=
  let e := min x.e y.e
  decide (x.int * (p2 (x.e - e) : Int) < y.int * (p2 (y.e - e) : Int))

/-- x = y as values. -/
def Num.eqv (x y : Num) : Bool := !x.lt y && !y.lt x

def Num.isZero (x : Num) : Bool := x.m == 0

/-- Exact sum of a list from +0; an exact zero is +0 (R37, R55). -/
def Num.sum (l : List Num) : Num :=
  let r := l.foldl Num.add Num.zero
  if r.m = 0 then Num.zero else r

/-- Exponent of the leading bit of num/den × 2^e, both non-zero. -/
def leadExp (num den : Nat) (e : Int) : Int :=
  let l : Int := (Nat.log2 num : Int) - (Nat.log2 den : Int)
  let below := decide (num * p2 (-l) < den * p2 l)
  (if below then l - 1 else l) + e

/-- round_ne of N / D to an integer, ties to even. -/
def roundDiv (n d : Nat) : Nat :=
  let q := n / d
  let r := n % d
  if d < 2 * r ∨ (2 * r = d ∧ q % 2 = 1) then q + 1 else q

/-- round_ne of num/den × 2^e to a multiple of 2^k: the multiple. -/
def roundTo (num den : Nat) (e k : Int) : Nat := roundDiv (num * p2 (e - k)) (den * p2 (k - e))

/-! ### Floating-point formats, R32 Table 1 -/

/-- A binary format: sign bit above `bits − 1` bits, `man` mantissa bits, smallest subnormal
2^lsb, code of the largest finite value, code of the canonical NaN, and whether the code after
the largest finite is infinity. -/
structure FFmt where
  bits : Nat
  man : Nat
  lsb : Int
  maxCode : Nat
  nanCode : Nat
  hasInf : Bool
  hasNan : Bool := true
  deriving DecidableEq, Repr

def fE4M3 : FFmt := { bits := 8, man := 3, lsb := -9, maxCode := 0x7E, nanCode := 0x7F, hasInf := false }
def fE5M2 : FFmt := { bits := 8, man := 2, lsb := -16, maxCode := 0x7B, nanCode := 0x7F, hasInf := true }
def fE2M1 : FFmt :=
  { bits := 4, man := 1, lsb := -1, maxCode := 7, nanCode := 0, hasInf := false, hasNan := false }
def fBF16 : FFmt := { bits := 16, man := 7, lsb := -133, maxCode := 0x7F7F, nanCode := 0x7FC0, hasInf := true }
def fFP16 : FFmt := { bits := 16, man := 10, lsb := -24, maxCode := 0x7BFF, nanCode := 0x7E00, hasInf := true }
def fFP32 : FFmt :=
  { bits := 32, man := 23, lsb := -149, maxCode := 0x7F7FFFFF, nanCode := 0x7FC00000, hasInf := true }

/-- A decoded element. -/
inductive FV where
  | nan
  | inf (neg : Bool)
  | fin (x : Num)
  deriving DecidableEq, Repr

/-- The finite value of a magnitude code. -/
def FFmt.mag (f : FFmt) (neg : Bool) (c : Nat) : Num :=
  let field := c / 2 ^ f.man
  let man := c % 2 ^ f.man
  if field = 0 then { neg, m := man, e := f.lsb }
  else { neg, m := 2 ^ f.man + man, e := f.lsb + (field : Int) - 1 }

/-- Decodes a code of a format. -/
def FFmt.decode (f : FFmt) (code : Nat) : FV :=
  let neg := decide (code / 2 ^ (f.bits - 1) % 2 = 1)
  let c := code % 2 ^ (f.bits - 1)
  if c ≤ f.maxCode then .fin (f.mag neg c)
  else if f.hasInf && c == f.maxCode + 1 then .inf neg
  else .nan

/-- The largest finite value of a format. -/
def FFmt.maxNum (f : FFmt) (neg : Bool) : Num := f.mag neg f.maxCode

/-- The code with a sign. -/
def FFmt.signed (f : FFmt) (neg : Bool) (c : Nat) : Nat := if neg then c + 2 ^ (f.bits - 1) else c

/-- round_ne of num/den × 2^e into a format, subnormals exact; overflow is judged after the
rounding and takes the largest finite value with SAT (R48, R51). -/
def FFmt.round (f : FFmt) (neg : Bool) (num den : Nat) (e : Int) : Nat × Fl :=
  if num = 0 then (f.signed neg 0, flNone)
  else
    let k := max (leadExp num den e - f.man) f.lsb
    let q := roundTo num den e k
    let c :=
      if q < 2 ^ f.man then q
      else
        let (q, k) := if q = 2 ^ (f.man + 1) then (2 ^ f.man, k + 1) else (q, k)
        (k - f.lsb + 1).toNat * 2 ^ f.man + (q - 2 ^ f.man)
    if f.maxCode < c then (f.signed neg f.maxCode, flSat) else (f.signed neg c, flNone)

/-- Rounds an exact value into a format. -/
def FFmt.ofNum (f : FFmt) (x : Num) : Nat × Fl := f.round x.neg x.m 1 x.e

/-- An operand element for a product: NaN, or its finite value with an infinity replaced by the
largest finite value and SAT (R35, R36). -/
def FFmt.operand (f : FFmt) (code : Nat) : Option Num × Fl :=
  match f.decode code with
  | .nan => (none, flNan)
  | .inf neg => (some (f.maxNum neg), flSat)
  | .fin x => (some x, flNone)

/-! ### Format codes of tile operations, R105 Table 4 -/

def fmE4M3 : Nat := 0x01
def fmE5M2 : Nat := 0x02
def fmMx8a : Nat := 0x03
def fmMx8b : Nat := 0x04
def fmMx4 : Nat := 0x05
def fmBF16 : Nat := 0x06
def fmFP16 : Nat := 0x07
def fmFP32 : Nat := 0x08
def fmINT8 : Nat := 0x09
def fmINT32 : Nat := 0x0A
def fmRI32 : Nat := 0x0B
def fmRI64 : Nat := 0x0C
def fmU8 : Nat := 0x0D
def fmU16 : Nat := 0x0E

/-- Twice the element size in bytes (MXFP4 is half a byte), R105 Table 4. -/
def fmtHalfBytes : Nat → Nat
  | 0x05 => 1
  | 0x06 => 4
  | 0x07 => 4
  | 0x08 => 8
  | 0x0A => 8
  | 0x0B => 8
  | 0x0C => 16
  | 0x0E => 4
  | _ => 2

/-- Bytes of `n` contiguous elements. -/
def fmtBytes (fmt n : Nat) : Nat := (fmtHalfBytes fmt * n + 1) / 2

/-- Whether a format is an MX format. -/
def isMx (fmt : Nat) : Bool := fmt == fmMx8a || fmt == fmMx8b || fmt == fmMx4

/-- The element format of a floating-point format code. -/
def ffmtOf : Nat → FFmt
  | 0x01 => fE4M3
  | 0x02 => fE5M2
  | 0x03 => fE4M3
  | 0x04 => fE5M2
  | 0x05 => fE2M1
  | 0x06 => fBF16
  | 0x07 => fFP16
  | _ => fFP32

/-- Whether a format code is an integer format. -/
def isIntFmt (fmt : Nat) : Bool :=
  fmt == fmINT8 || fmt == fmINT32 || fmt == fmRI32 || fmt == fmRI64 || fmt == fmU8 || fmt == fmU16

/-- The exact integer of an integer code. -/
def intOf (fmt code : Nat) : Int :=
  if fmt = fmINT8 then sgn 8 code
  else if fmt = fmINT32 ∨ fmt = fmRI32 then sgn 32 code
  else if fmt = fmRI64 then sgn 64 code
  else (code : Int)

/-- An element as an operand of a matrix product, before any MX scale. -/
def elemOperand (fmt code : Nat) : Option Num × Fl :=
  if isIntFmt fmt then (some (Num.ofInt (intOf fmt code) 0), flNone)
  else (ffmtOf fmt).operand code

/-! ### FP32 results of the vector unit, R85 -/

/-- A source of an elementary step: an FP32 code, or an exact value (an INT32 source, R115). -/
inductive Src where
  | code (c : Nat)
  | exact (x : Num)
  deriving DecidableEq, Repr

/-- The value of a source: none for NaN; an infinite input is replaced and sets SAT (R85). -/
def Src.val : Src → Option Num × Fl
  | .code c => fFP32.operand c
  | .exact x => (some x, flNone)

/-- The canonical NaN in FP32, R35. -/
def nan32 : Nat := 0x7FC00000

/-- A result code with its flags. -/
abbrev Res := Nat × Fl

/-- The canonical NaN with NAN. -/
def resNan (f : Fl) : Res := (nan32, f.or flNan)

/-- The largest finite FP32 value with SAT. -/
def resMax (neg : Bool) (f : Fl) : Res := (fFP32.signed neg fFP32.maxCode, f.or flSat)

/-- Rounds an exact value to FP32. -/
def res32 (x : Num) (f : Fl) : Res :=
  let (c, g) := fFP32.ofNum x
  (c, f.or g)

/-- One-argument elementary steps. -/
def lift1 (g : Num → Fl → Res) (a : Src) : Res :=
  match a.val with
  | (none, f) => resNan f
  | (some x, f) => g x f

/-- Two-argument elementary steps: a NaN input gives the canonical NaN. -/
def lift2 (g : Num → Num → Fl → Res) (a b : Src) : Res :=
  match a.val, b.val with
  | (some x, f), (some y, h) => g x y (f.or h)
  | (_, f), (_, h) => resNan (f.or h)

/-- FP32 add, R85. -/
def vAdd (a b : Src) : Res := lift2 (fun x y f => res32 (x.add y) f) a b

/-- FP32 subtract. -/
def vSub (a b : Src) : Res := lift2 (fun x y f => res32 (x.add y.negate) f) a b

/-- FP32 multiply. -/
def vMul (a b : Src) : Res := lift2 (fun x y f => res32 (x.mul y) f) a b

/-- Fused multiply-add: exact product and sum, one rounding. -/
def vFma (a b c : Src) : Res :=
  match a.val, b.val, c.val with
  | (some x, f), (some y, g), (some z, h) => res32 ((x.mul y).add z) ((f.or g).or h)
  | (_, f), (_, g), (_, h) => resNan ((f.or g).or h)

/-- FP32 divide: 0/0 is invalid; x/±0 takes the largest finite value with SAT. -/
def vDiv (a b : Src) : Res :=
  lift2 (fun x y f =>
    let neg := x.neg != y.neg
    if y.m = 0 then (if x.m = 0 then resNan f else resMax neg f)
    else
      let (c, g) := fFP32.round neg x.m y.m (x.e - y.e)
      (c, f.or g)) a b

/-- Reciprocal. -/
def vRecip (a : Src) : Res := vDiv (.code 0x3F800000) a

/-- The order of FP32 values with −0 below +0 (R55). -/
def Num.ltz (x y : Num) : Bool := x.lt y || (x.m == 0 && y.m == 0 && x.neg && !y.neg)

/-- min(x, y) with NaN propagating. -/
def vMin (a b : Src) : Res := lift2 (fun x y f => res32 (if y.ltz x then y else x) f) a b

/-- max(x, y) with NaN propagating; +0 counts as larger than −0. -/
def vMax (a b : Src) : Res := lift2 (fun x y f => res32 (if x.ltz y then y else x) f) a b

/-- A value kept by a select or a conversion. -/
def vKeep (a : Src) : Res := lift1 res32 a

/-- Integer square root of `n` below 4^k, bit by bit. -/
def isqrtBits (n : Nat) : Nat → Nat → Nat
  | 0, r => r
  | k + 1, r => isqrtBits n k (if (r + 2 ^ k) * (r + 2 ^ k) ≤ n then r + 2 ^ k else r)

/-- floor(sqrt(n)). -/
def isqrt (n : Nat) : Nat := isqrtBits n (Nat.log2 n / 2 + 1) 0

/-- FP32 square root: −0 for −0, invalid below zero. -/
def vSqrt (a : Src) : Res :=
  lift1 (fun x f =>
    if x.m = 0 then (fFP32.signed x.neg 0, f)
    else if x.neg then resNan f
    else
      -- 64 more bits than needed, an even exponent, and a sticky bit for an inexact root
      let s : Nat := if (x.e % 2 : Int) = 0 then 128 else 129
      let n := x.m * 2 ^ s
      let r := isqrt n
      let q := 2 * r + (if r * r = n then 0 else 1)
      let (c, g) := fFP32.round false q 1 ((x.e - s) / 2 - 1)
      (c, f.or g)) a

/-- FP32 reciprocal square root: ±0 takes the largest finite value with the zero's sign and SAT. -/
def vRsqrt (a : Src) : Res :=
  lift1 (fun x f =>
    if x.m = 0 then resMax x.neg f
    else if x.neg then resNan f
    else
      -- 1 / sqrt(m 2^e) = sqrt(2^s / m) 2^(-(e + s)/2), s of e's parity
      let s : Nat := if (x.e % 2 : Int) = 0 then 256 else 257
      let t : Nat := s + 2 * (Nat.log2 x.m / 2)
      let n := 2 ^ t / x.m
      let r := isqrt n
      let q := 2 * r + (if r * r * x.m = 2 ^ t then 0 else 1)
      let (c, g) := fFP32.round false q 1 (-((x.e + t) / 2) - 1)
      (c, f.or g)) a

/-! ### exp and log, correctly rounded from bounds -/

/-- Fraction bits of the bounds. -/
def tPrec : Nat := 192

/-- Bounds in units of 2^-tPrec of the sum of a series whose term i + 1 is term i × num / (den ×
(i + 1)), plus `rem` for the rest. -/
def expSeries (num den : Nat) : Nat → Nat → Nat → Nat → Nat × Nat
  | 0, _, lo, hi => (lo, 2 * hi + 2)
  | n + 1, i, lo, hi =>
    let (l, h) := expSeries num den n (i + 1) (lo * num / (den * (i + 1)))
      (hi * num / (den * (i + 1)) + 1)
    (lo + l, hi + h)

/-- Bounds of e^(num/den) for 0 ≤ num/den ≤ 1. -/
def expUnit (num den : Nat) : Nat × Nat := expSeries num den 64 0 (2 ^ tPrec) (2 ^ tPrec)

/-- Rounds when both bounds round alike, else draws on an unspecified value. -/
def pinned (neg : Bool) (lo hi : Nat × Nat × Int) (tag : Nat) : Res :=
  let a := fFP32.round neg lo.1 lo.2.1 lo.2.2
  let b := fFP32.round neg hi.1 hi.2.1 hi.2.2
  if a = b then a else ((Config.unpinned tag).toNat, flNone)

/-- FP32 exp: exact e^x rounded once (R85). Below −104 it rounds to +0, above 89 it overflows. -/
def vExp (a : Src) : Res :=
  lift1 (fun x f =>
    if x.m = 0 then (0x3F800000, f)
    else
      let den := p2 (-x.e)
      let num := x.m * p2 x.e
      let n := num / den
      if x.neg then
        if 104 ≤ n then (0, f)
        else
          -- e^-(n + r) = 1 / (e^n e^r)
          let (rl, rh) := expUnit (num % den) den
          let (el, eh) := expUnit 1 1
          let k := tPrec * (n + 1)
          let (c, g) := pinned false (2 ^ k, rh * eh ^ n, 0) (2 ^ k, rl * el ^ n, 0) x.m
          (c, f.or g)
      else if 89 ≤ n then resMax false f
      else
        let (rl, rh) := expUnit (num % den) den
        let (el, eh) := expUnit 1 1
        let k : Int := -((tPrec * (n + 1) : Nat) : Int)
        let (c, g) := pinned false (rl * el ^ n, 1, k) (rh * eh ^ n, 1, k) x.m
        (c, f.or g)) a

/-- Bounds in units of 2^-tPrec of Σ t^(2i+1)/(2i+1) for t = num/den ≤ 1/3, from term `i` with
power bounds `lo`, `hi`. -/
def atanhSeries (num den : Nat) : Nat → Nat → Nat → Nat → Nat × Nat
  | 0, _, _, hi => (0, 2 * hi + 2)
  | n + 1, i, lo, hi =>
    let (l, h) := atanhSeries num den n (i + 1) (lo * num * num / (den * den))
      (hi * num * num / (den * den) + 1)
    (lo / (2 * i + 1) + l, hi / (2 * i + 1) + 1 + h)

/-- Bounds of atanh(num/den) for num/den ≤ 1/3. -/
def atanhB (num den : Nat) : Nat × Nat :=
  atanhSeries num den 64 0 (2 ^ tPrec * num / den) (2 ^ tPrec * num / den + 1)

/-- FP32 log: exact ln x rounded once; log(±0) takes the negative largest finite value with SAT,
a negative input is invalid (R85). -/
def vLog (a : Src) : Res :=
  lift1 (fun x f =>
    if x.m = 0 then resMax true f
    else if x.neg then resNan f
    else
      -- x = z 2^k with 2/3 ≤ z < 4/3, z = num/den
      let l := Nat.log2 x.m
      let up := decide (4 * 2 ^ l ≤ 3 * x.m)
      let num := x.m
      let den := if up then 2 ^ (l + 1) else 2 ^ l
      let k : Int := x.e + l + (if up then 1 else 0)
      let neg := decide (num < den)
      let (tl, th) := atanhB (if neg then den - num else num - den) (num + den)
      let (ll, lh) := atanhB 1 3
      -- ln x = 2 k atanh(1/3) + 2 atanh((z − 1)/(z + 1)) in units of 2^-tPrec
      let zl : Int := if neg then -(2 * th : Int) else 2 * tl
      let zh : Int := if neg then -(2 * tl : Int) else 2 * th
      let lo := zl + (if 0 ≤ k then 2 * k * ll else 2 * k * lh)
      let hi := zh + (if 0 ≤ k then 2 * k * lh else 2 * k * ll)
      if num = den ∧ k = 0 then (0, f)
      else
        let (c, g) := pinned (decide (hi ≤ 0)) (lo.natAbs, 1, -(tPrec : Int))
          (hi.natAbs, 1, -(tPrec : Int)) x.m
        (c, f.or g)) a

/-! ### Composite functions, R86 Table 7 -/

/-- A step inside a composite function: an overflow takes the largest finite value, no flag. -/
def inner (r : Res) : Src := .code r.1

def f1 : Src := .code 0x3F800000
def f2 : Src := .code 0x40000000
def fHalf : Src := .code 0x3F000000
def fMinus2 : Src := .code 0xC0000000

/-- −x. -/
def srcNeg : Src → Src
  | .code c => .code (if c < 2 ^ 31 then c + 2 ^ 31 else c - 2 ^ 31)
  | .exact x => .exact x.negate

/-- The FP32 value nearest a decimal num/den. -/
def constF (num den : Nat) : Src := .code (fFP32.round false num den 0).1

/-- A composite function: its final result sets the flags; an infinite input is replaced at the
start and sets SAT; a NaN input gives NaN. -/
def composite (g : Src → Res) (a : Src) : Res :=
  match a.val with
  | (none, f) => resNan f
  | (some x, f) =>
    let start : Src := match a with
      | .code c => if f.sat then .code (fFP32.signed x.neg fFP32.maxCode) else .code c
      | .exact y => .exact y
    let (c, h) := g start
    (c, f.or h)

def sigmoidSteps (x : Src) : Res :=
  let e := inner (vExp (srcNeg x))
  let d := inner (vAdd f1 e)
  vRecip d

def siluSteps (x : Src) : Res := vMul x (inner (sigmoidSteps x))

def tanhSteps (x : Src) : Res :=
  let e := inner (vExp (inner (vMul f2 x)))
  let d := inner (vAdd e f1)
  let q := inner (vRecip d)
  vFma fMinus2 q f1

def geluSteps (x : Src) : Res :=
  let u := inner (vMul x x)
  let u := inner (vMul u x)
  let v := inner (vFma (constF 44715 1000000) u x)
  let t := inner (tanhSteps (inner (vMul (constF 797884561 1000000000) v)))
  let r := inner (vMul fHalf x)
  vFma r t r

def softplusSteps (x : Src) : Res :=
  let e := inner (vExp x)
  let d := inner (vAdd e f1)
  vLog d

/-- relu: x when x > 0, +0 otherwise including −0; NaN gives NaN (R112 Table 10). -/
def vRelu (a : Src) : Res := lift1 (fun x f => if x.neg || x.m == 0 then (0, f) else res32 x f) a

/-- The element-wise step of a code, R112 Table 10. -/
def ewStep (ew : Nat) (a : Src) : Res :=
  match ew with
  | 0x01 => vRelu a
  | 0x02 => composite geluSteps a
  | 0x03 => composite siluSteps a
  | 0x04 => composite sigmoidSteps a
  | 0x05 => composite tanhSteps a
  | 0x06 => composite softplusSteps a
  | _ => vKeep a

/-! ### Reductions, R55 and R87 -/

/-- Values of sources with their flags, none when any is NaN. -/
def srcVals (l : List Src) : Option (List Num) × Fl :=
  l.foldr (fun a acc =>
    match a.val, acc with
    | (some x, f), (some xs, g) => (some (x :: xs), f.or g)
    | (_, f), (_, g) => (none, f.or g)) (some [], flNone)

/-- Exact sum rounded once. -/
def redSum (l : List Src) : Res :=
  match srcVals l with
  | (some xs, f) => res32 (Num.sum xs) f
  | (none, f) => resNan f

/-- Exact sum of exact squares rounded once. -/
def redSumSq (l : List Src) : Res :=
  match srcVals l with
  | (some xs, f) => res32 (Num.sum (xs.map (fun x => x.mul x))) f
  | (none, f) => resNan f

/-- Largest value, +0 above −0. -/
def redMax (l : List Src) : Res :=
  match srcVals l with
  | (some (x :: xs), f) => res32 (xs.foldl (fun a b => if a.ltz b then b else a) x) f
  | (some [], f) => (0, f)
  | (none, f) => resNan f

/-- Smallest value, −0 below +0. -/
def redMin (l : List Src) : Res :=
  match srcVals l with
  | (some (x :: xs), f) => res32 (xs.foldl (fun a b => if b.ltz a then b else a) x) f
  | (some [], f) => (0, f)
  | (none, f) => resNan f

/-! ### Accumulation, R38 to R45 -/

/-- Consecutive chunks of `g` elements, the last one short. `fuel` bounds their number. -/
def chunksOf {α : Type} (g : Nat) : Nat → List α → List (List α)
  | 0, _ => []
  | _ + 1, [] => []
  | fuel + 1, x :: xs => (x :: xs).take g :: chunksOf g fuel ((x :: xs).drop g)

/-- Groups or runs of a list, R38. -/
def groupsOf {α : Type} (g : Nat) (l : List α) : List (List α) := chunksOf (max g 1) l.length l

/-- An accumulator element: an FP32 code; NaN stays NaN, an infinite initial value is replaced
with SAT (R36, R49). The flags are those raised. -/
def accStep (a : Res) (s : Num) : Res :=
  match fFP32.operand a.1 with
  | (none, f) => resNan (a.2.or f)
  | (some x, f) =>
    let r := x.add s
    res32 (if r.m = 0 then Num.zero else r) (a.2.or f)

/-- FP8 runs: each run's exact sum is added with one rounding (R40). -/
def fp8Acc (runLen : Nat) (a : Res) (ps : List Num) : Res :=
  (groupsOf runLen ps).foldl (fun acc run => accStep acc (Num.sum run)) a

/-- The alignment of one group: products truncated towards zero to 2^(e_max − 30) (R42). -/
def alignedSum (g : List Num) : Option Num :=
  let nz := g.filter (fun x => decide (x.m ≠ 0))
  match nz with
  | [] => none
  | x :: xs =>
    let eMax := xs.foldl (fun e y => max e (leadExp y.m 1 y.e)) (leadExp x.m 1 x.e)
    let k := eMax - 30
    let t := nz.map (fun y =>
      let q := y.m * p2 (y.e - k) / p2 (k - y.e)
      if y.neg then -(q : Int) else (q : Int))
    some (Num.ofInt (t.foldl (fun a b => a + b) 0) k)

/-- Aligned groups: each group sum is added with one rounding; a group of zero products leaves
the element, except that −0 becomes +0 (R42). -/
def groupAcc (g : Nat) (a : Res) (ps : List Num) : Res :=
  (groupsOf g ps).foldl (fun acc grp =>
    match alignedSum grp with
    | some s => accStep acc s
    | none => accStep acc Num.zero) a

/-- round_ne_32: 32 significant bits, unbounded exponent (R43). -/
def round32sig (x : Num) : Num :=
  if x.m = 0 then Num.zero
  else
    let k := leadExp x.m 1 x.e - 31
    { neg := x.neg, m := roundTo x.m 1 x.e k, e := k }

/-- MX runs over block contributions: R is a float of 32 significant bits, cleared at the start
of each run; the run's value is added with one rounding (R43). -/
def mxAcc (runBlocks : Nat) (a : Res) (bs : List Num) : Res :=
  (groupsOf runBlocks bs).foldl (fun acc run =>
    accStep acc (run.foldl (fun r b => round32sig (r.add b)) Num.zero)) a

/-- Saturates an exact integer to INT32 with SAT (R44). -/
def sat32 (x : Int) : Int × Fl :=
  if x < -(2 ^ 31 : Int) then (-(2 ^ 31 : Int), flSat)
  else if (2 ^ 31 - 1 : Int) < x then ((2 ^ 31 - 1 : Int), flSat) else (x, flNone)

/-- INT8 groups into an INT32 element, saturating after each group (R44). -/
def intAcc (g : Nat) (a : Int × Fl) (ps : List Int) : Int × Fl :=
  (groupsOf g ps).foldl (fun acc grp =>
    let (v, f) := sat32 (acc.1 + grp.foldl (fun a b => a + b) 0)
    (v, acc.2.or f)) a

/-- The BF16 value nearest x, bounded by the largest finite BF16 without a flag (R45). -/
def bf16Near (x : Num) : Num :=
  match fBF16.decode (fBF16.ofNum x).1 with
  | .fin y => y
  | _ => Num.zero

/-- The three terms of one FP32 product, in order (R45). -/
def threePass (x y : Num) : List Num :=
  let hx := bf16Near x
  let lx := bf16Near (x.add hx.negate)
  let hy := bf16Near y
  let ly := bf16Near (y.add hy.negate)
  [hx.mul hy, hx.mul ly, lx.mul hy]

/-- The group size of a GROUP field, R101 Table 1. -/
def groupSize (g : Nat) : Nat := 4 * 2 ^ g

/-- L_run of a RUN field, R39: 4,096 when 0. -/
def runLen (run : Nat) : Nat := if run = 0 then 4096 else run

/-! ### Conversions, R51 to R53, R57 to R60 -/

/-- FP32 to a floating-point format: NaN gives the target's canonical NaN and NAN, an infinity is
replaced with SAT (R51). -/
def convFp (f : FFmt) (c : Nat) : Res :=
  match fFP32.operand c with
  | (none, fl) => (f.nanCode, fl.or flNan)
  | (some x, fl) =>
    let (r, g) := f.ofNum x
    (r, fl.or g)

/-- e_elem of R52 for an MX format. -/
def mxElemExp (fmt : Nat) : Int := if fmt = fmMx4 then 2 else if fmt = fmMx8a then 8 else 15

/-- One MX block from FP32 codes: scale code, element codes and flags (R52). -/
def convMxBlock (fmt : Nat) (cs : List Nat) : Nat × List Nat × Fl :=
  let f := ffmtOf fmt
  let (vals, fl) := srcVals (cs.map Src.code)
  match vals with
  | none => (0xFF, cs.map (fun _ => 0), fl.or flNan)
  | some xs =>
    let nz := xs.filter (fun x => decide (x.m ≠ 0))
    match nz with
    | [] => (0, cs.map (fun _ => 0), fl)
    | y :: ys =>
      let lg := ys.foldl (fun e x => max e (leadExp x.m 1 x.e)) (leadExp y.m 1 y.e)
      let s : Int := max 0 (min 254 (lg - mxElemExp fmt + 127))
      (s.toNat, xs.map (fun x => (f.round x.neg x.m 1 (x.e - (s - 127))).1), fl)

/-- An integer shifted right, rounding to nearest with ties to even. -/
def shiftNe (x : Int) (sh : Nat) : Int :=
  let q := roundDiv x.natAbs (2 ^ sh)
  if x < 0 then -(q : Int) else (q : Int)

/-- INT32 to INT8 with SHIFT (R53). -/
def convInt8 (x : Int) (sh : Nat) : Res :=
  let v := shiftNe x sh
  if v < -128 then (0x80, flSat) else if 127 < v then (0x7F, flSat) else (unsgn 8 v, flNone)

/-- QSCL: FP32 to RI32 at scale exponent E (R58). -/
def qscl (c : Nat) (e : Int) : Res :=
  match fFP32.operand c with
  | (none, _) => (0, flNan)
  | (some x, f) =>
    let q := roundTo x.m 1 (x.e + 31 - e) 0
    let lim := 2 ^ 31 - 1
    let (m, g) := if lim < q then (lim, flSat) else (q, flNone)
    (unsgn 32 (if x.neg then -(m : Int) else (m : Int)), f.or g)

/-- DQSC: RI64 to FP32 at scale exponent E (R60). -/
def dqsc (s : Nat) (e : Int) : Res := res32 (Num.ofInt (sgn 64 s) (e - 31)) flNone

end Sys2Proof.Machine
end

