-- ==== Sys2Proof/Machine/Operands.lean ====
section
/-! DEFINITION. Tile-operation records and their operands (04_tile_operations.md R99 to R109):
record fields, operand descriptors, extents, where an element lies, reading and writing matrices,
the memory a matrix touches, and the blocks and slots of the issue rules (R62, R63). -/

namespace Sys2Proof.Machine

/-! ### Record fields, R101 Table 1 and Tables 5 to 9 -/

/-- `n` bytes from byte `o` of a record or descriptor held as a number. -/
def rB (r o n : Nat) : Nat := r / 2 ^ (8 * o) % 2 ^ (8 * n)

def rOp (r : Nat) : Nat := rB r 0 1
def rStat (r : Nat) : Nat := bits r 9 8
def rGroup (r : Nat) : Nat := bits r 11 10
def rAcc (r : Nat) : Bool := bits r 12 12 == 1
def rZfill (r : Nat) : Bool := bits r 13 13 == 1
def rRowstat (r : Nat) : Bool := bits r 14 14 == 1
def rBias (r : Nat) : Bool := bits r 15 15 == 1
def rRun (r : Nat) : Nat := bits r 28 16
def rOutfmt (r : Nat) : Nat := rB r 4 1
def rEw (r : Nat) : Nat := rB r 5 1
def rShift (r : Nat) : Nat := bits r 52 48

/-- Opcodes, R101 Table 2. -/
def opMM : Nat := 0x01
def opMV : Nat := 0x02
def opCONV : Nat := 0x03
def opATTB : Nat := 0x04
def opATTM : Nat := 0x05
def opVEC : Nat := 0x10
def opNORM : Nat := 0x11
def opRED : Nat := 0x12
def opSORT : Nat := 0x13
def opNMS : Nat := 0x14
def opBOXD : Nat := 0x15
def opTCONV : Nat := 0x16
def opLOAD : Nat := 0x20
def opSTORE : Nat := 0x21
def opROT : Nat := 0x22
def opHALO : Nat := 0x23
def opRACC : Nat := 0x30
def opQSCL : Nat := 0x31
def opDQSC : Nat := 0x32
def opGNRM : Nat := 0x33
def opRNGM : Nat := 0x40
def opBAR : Nat := 0x50
def opWAIT : Nat := 0x51
def opSIGNAL : Nat := 0x52
def opPREF : Nat := 0x53

/-- The body of a record, R101 Table 2. -/
inductive Group where
  | array
  | attention
  | vector
  | move
  | sync
  deriving DecidableEq, Repr

/-- The group of an opcode, none when it is undefined. -/
def opGroup (op : Nat) : Option Group :=
  if op = opMM ∨ op = opMV ∨ op = opCONV ∨ op = opTCONV then some .array
  else if op = opATTB ∨ op = opATTM then some .attention
  else if op = opVEC ∨ op = opNORM ∨ op = opRED ∨ op = opSORT ∨ op = opNMS ∨ op = opBOXD ∨
      op = opQSCL ∨ op = opDQSC ∨ op = opGNRM ∨ op = opRNGM then some .vector
  else if op = opLOAD ∨ op = opSTORE ∨ op = opROT ∨ op = opHALO ∨ op = opRACC ∨ op = opPREF then
    some .move
  else if op = opBAR ∨ op = opWAIT ∨ op = opSIGNAL then some .sync
  else none

/-- FUNC, AXIS, IMM and IMM2 of a vector body. -/
def vFunc (r : Nat) : Nat := rB r 21 1
def vAxis (r : Nat) : Nat := rB r 22 1
def vImm (r : Nat) : Nat := rB r 24 4
def vImm2 (r : Nat) : Nat := rB r 28 4

/-- Window fields of a CONV or TCONV, R186. -/
structure Win where
  kh : Nat
  kw : Nat
  sv : Nat
  sh : Nat
  dv : Nat
  dh : Nat
  pt : Nat
  pb : Nat
  pl : Nat
  pr : Nat
  deriving DecidableEq, Repr

/-- The window of a CONV or TCONV record. -/
def convWin (r : Nat) : Win :=
  { kh := bits (rB r 30 1) 3 0, kw := bits (rB r 30 1) 7 4,
    sv := bits (rB r 28 1) 2 0 + 1, sh := bits (rB r 28 1) 5 3 + 1,
    dv := bits (rB r 29 1) 2 0 + 1, dh := bits (rB r 29 1) 5 3 + 1,
    pt := bits (rB r 26 1) 3 0, pb := bits (rB r 26 1) 7 4,
    pl := bits (rB r 27 1) 3 0, pr := bits (rB r 27 1) 7 4 }

/-- The window of a pooling RED, R194 Table 5. -/
def poolWin (r : Nat) : Win :=
  let a := vImm r
  let b := vImm2 r
  { kh := bits a 3 0, kw := bits a 7 4, sv := bits a 10 8 + 1, sh := bits a 13 11 + 1,
    dv := bits a 16 14 + 1, dh := bits a 19 17 + 1,
    pt := bits b 3 0, pb := bits b 7 4, pl := bits b 11 8, pr := bits b 15 12 }

/-- H_w, rows of the window that are read, R183. -/
def Win.rows (w : Win) : Nat := (w.kh - 1) * w.dv + 1 - w.pt - w.pb

/-- W_w, columns of the window that are read for `vm` output pixels, R183. -/
def Win.cols (w : Win) (vm : Nat) : Nat := (vm - 1) * w.sh + (w.kw - 1) * w.dh + 1 - w.pl - w.pr

/-- The input position of output pixel x and filter position (fy, fx), none in the padding (R183). -/
def Win.pos (w : Win) (vm x fy fx : Nat) : Option (Nat × Nat) :=
  let r := fy * w.dv
  let q := x * w.sh + fx * w.dh
  if w.pt ≤ r ∧ r - w.pt < w.rows ∧ w.pl ≤ q ∧ q - w.pl < w.cols vm then some (r - w.pt, q - w.pl)
  else none

/-- The rows of the window that some filter row reads (R183). -/
def Win.readRows (w : Win) : List Nat :=
  (List.range w.rows).filter (fun r => (List.range w.kh).any (fun fy => fy * w.dv == r + w.pt))

/-- The columns that some output pixel reads, as runs of columns that follow each other (R183). -/
def Win.readCols (w : Win) (vm : Nat) : List (Nat × Nat) :=
  ((List.range (w.cols vm)).filter (fun q => (List.range vm).any (fun x => (List.range w.kw).any (fun fx =>
    x * w.sh + fx * w.dh == q + w.pl)))).foldr (fun q l => match l with
      | (a, n) :: rest => if a = q + 1 then (q, n + 1) :: rest else (q, 1) :: l
      | [] => [(q, 1)]) []

/-! ### Extents, R106 -/

/-- The tile extent of a size code. -/
def tileExt (code : Nat) : Nat := 128 * 2 ^ (code % 4)

/-- The valid extent of an extent descriptor under run-time extents. -/
def validExt (t desc : Nat) (dims : List Nat) : Nat :=
  let src := desc / 2 ^ 14 % 4
  let val := desc % 2 ^ 14
  if src = 0 then val else min t (dims.getD (src - 1) 0 - 128 * val)

/-- The extents of a record in its body's order, as (size code, extent descriptor). -/
def recExtents (r : Nat) : List (Nat × Nat) :=
  match opGroup (rOp r) with
  | some .array =>
    let z := rB r 24 1
    [(bits z 1 0, rB r 18 2), (bits z 3 2, rB r 20 2), (bits z 5 4, rB r 22 2)]
  | some .attention =>
    let z := rB r 22 1
    if rOp r = opATTM then [(bits z 1 0, rB r 18 2)]
    else [(bits z 1 0, rB r 18 2), (bits z 3 2, rB r 20 2)]
  | some .vector =>
    let z := rB r 20 1
    [(bits z 1 0, rB r 16 2), (bits z 3 2, rB r 18 2)]
  | some .move =>
    let z := rB r 16 1
    [(bits z 1 0, rB r 12 2), (bits z 3 2, rB r 14 2)]
  | _ => []

/-- The tile extents of a record; MV counts its four vectors (R88, R107). -/
def tileExts (r : Nat) : List Nat :=
  if rOp r = opMV then 4 :: ((recExtents r).drop 1).map (fun x => tileExt x.1)
  else (recExtents r).map (fun x => tileExt x.1)

/-- The valid extents of a record. -/
def validExts (r : Nat) (dims : List Nat) : List Nat :=
  (recExtents r).map (fun x => validExt (tileExt x.1) x.2 dims)

/-- Whether a record is empty: some valid extent is 0 (R110). -/
def isEmptyRec (r : Nat) (dims : List Nat) : Bool := (validExts r dims).any (fun v => v == 0)

/-! ### Operand descriptors, R102 to R104 -/

/-- An operand descriptor with its argument added. -/
structure Opd where
  addr : Nat
  scale : Nat
  pitch : Nat
  spitch : Nat
  fmt : Nat
  space : Nat
  base : Nat
  trans : Bool
  deriving DecidableEq, Repr

/-- The descriptor of 32 bytes held as a number, before any argument. -/
def Opd.ofNat (o : Nat) : Opd :=
  { addr := rB o 0 8, scale := rB o 8 8, pitch := rB o 16 4, spitch := rB o 20 4, fmt := rB o 24 1,
    space := bits (rB o 25 1) 2 0, base := bits (rB o 25 1) 7 4, trans := bits (rB o 26 1) 0 0 == 1 }

/-- BASE adds the dispatch argument of its number to ADDR and SCALE_ADDR, R103. -/
def Opd.withArgs (o : Opd) (args : List W64) : Opd :=
  if o.base = 0 then o
  else
    let a := (args.getD o.base 0).toNat
    { o with addr := (o.addr + a) % 2 ^ 64, scale := (o.scale + a) % 2 ^ 64 }

def spScratch : Nat := 0
def spAcc : Nat := 1
def spGallery : Nat := 2
def spHbm : Nat := 3

/-- No operand. -/
def noOpd : Nat := 0xFFFF

/-- What a record runs with: its core, its placement, and its DISPATCH. -/
structure Env where
  d : Die
  p : PCore
  x : Placed
  y : Disp
  deriving DecidableEq, Repr

/-- The record of an environment. -/
def Env.r (e : Env) : Nat := e.x.raw.toNat

/-- Valid extent number `k` of the record. -/
def Env.v (e : Env) (k : Nat) : Nat := (validExts e.r e.y.dims).getD k 0

/-- Tile extent number `k` of the record. -/
def Env.t (e : Env) (k : Nat) : Nat := (tileExts e.r).getD k 128

/-- The operand descriptor of an index in the die's operand table. -/
def State.opd (s : State) (e : Env) (ix : Nat) : Opd :=
  (Opd.ofNat (s.devNat (e.x.opdBase + 32 * ix) 32)).withArgs e.y.args

/-! ### Where a matrix lies, R104, R80, R81 -/

/-- A matrix in device memory: the device address of its first byte (of its first slot for the
accumulator space), pitch, format, orientation, slots per row band, and its scales. -/
structure Loc where
  space : Nat
  base : Nat
  pitch : Nat
  fmt : Nat
  trans : Bool
  per : Nat
  sbase : Nat
  spitch : Nat
  deriving DecidableEq, Repr

/-- Slots per row band of a tile of `tc` columns. -/
def slotsPer (tc : Nat) : Nat := max 1 (ceilDiv tc 128)

/-- Where an operand of tile width `tc` lies for a core. Scales of an operand in the accumulator
space lie at SCALE_ADDR bytes into the accumulator store (log 13). -/
def Opd.locOn (o : Opd) (core tc : Nat) : Loc :=
  let home := if o.space = spScratch then core
    else if o.space = spAcc then core + 0x800000 else 0
  { space := o.space
    base := if o.space = spAcc then home + 0x10000 * (o.addr % 32) else home + o.addr
    pitch := o.pitch, fmt := o.fmt, trans := o.trans, per := slotsPer tc
    sbase := home + o.scale, spitch := o.spitch }

/-- Where operand `ix` of a record lies, for a tile width. -/
def State.loc (s : State) (e : Env) (ix tc : Nat) : Loc :=
  (s.opd e ix).locOn (coreBase e.d.val e.p.val) tc

/-- The slots of a core as a matrix of 32-bit words from a first slot. -/
def slotLoc (core first tc : Nat) : Loc :=
  { space := spAcc, base := core + 0x800000 + 0x10000 * first, pitch := 0, fmt := fmFP32,
    trans := false, per := slotsPer tc, sbase := 0, spitch := 0 }

/-- Byte address of element (i, j), and its nibble for MXFP4. -/
def Loc.place (l : Loc) (i j : Nat) : Nat × Nat :=
  if l.space = spAcc then
    (l.base + ((i / 128) * l.per + j / 128) * 0x10000 + ((i % 128) * 128 + j % 128) * 4, 0)
  else
    let (a, b) := if l.trans then (j, i) else (i, j)
    (l.base + a * l.pitch + fmtHalfBytes l.fmt * b / 2, fmtHalfBytes l.fmt * b % 2)

/-- Element (i, j)'s code. A slot's narrow element is the low bits of its word (R80); an 8-byte
element has no place in a slot's word, so its upper half there is not stated (log 23). -/
def State.elem (s : State) (l : Loc) (i j : Nat) : Nat :=
  let (a, nib) := l.place i j
  if l.space = spAcc then
    let w := s.devNat a 4
    if l.fmt = fmRI64 then w + 2 ^ 32 * (Config.unpinned a).toNat
    else w % 2 ^ (4 * fmtHalfBytes l.fmt)
  else if l.fmt = fmMx4 then (s.devNat a 1 / 16 ^ nib) % 16
  else s.devNat a (fmtHalfBytes l.fmt / 2)

/-- Writes element (i, j). A slot's other bits become zero (R80). -/
def State.putElem (s : State) (l : Loc) (i j c : Nat) : State :=
  let (a, nib) := l.place i j
  if l.space = spAcc then s.devWrite a (toLe 4 (c % 2 ^ 32))
  else if l.fmt = fmMx4 then
    s.devWrite a (toLe 1 (setBits (s.devNat a 1) (4 * nib + 3) (4 * nib) c))
  else s.devWrite a (toLe (fmtHalfBytes l.fmt / 2) c)

/-- The valid region of a matrix. -/
def State.mat (s : State) (l : Loc) (r c : Nat) : List (List Nat) :=
  tab r (fun i => tab c (fun j => s.elem l i j))

/-- Writes one row of codes from column `j`. -/
def State.putRow (s : State) (l : Loc) (i j : Nat) : List Nat → State
  | [] => s
  | c :: rest => State.putRow (s.putElem l i j c) l i (j + 1) rest

/-- Writes rows of codes from row `i`. -/
def State.putRows (s : State) (l : Loc) (i : Nat) : List (List Nat) → State
  | [] => s
  | row :: rest => State.putRows (s.putRow l i 0 row) l (i + 1) rest

/-- The scale byte of row or column `i` and block `b`, R104. -/
def State.scale (s : State) (l : Loc) (i b : Nat) : Nat := s.devNat (l.sbase + i * l.spitch + b) 1

/-- Writes rows of scale bytes from row `i`. -/
def State.putScales (s : State) (l : Loc) (i : Nat) : List (List Nat) → State
  | [] => s
  | row :: rest =>
    State.putScales (s.devWrite (l.sbase + i * l.spitch) (row.map (BitVec.ofNat 8))) l (i + 1) rest

/-! ### The memory a matrix touches -/

/-- Runs of bytes of the valid region, one per stored row (R108, R118). -/
def Loc.runs (l : Loc) (r c : Nat) : List (Nat × Nat) :=
  if r = 0 ∨ c = 0 ∨ l.space = spAcc then []
  else
    let (major, minor) := if l.trans then (c, r) else (r, c)
    tab major (fun k => (l.base + k * l.pitch, fmtBytes l.fmt minor))

/-- Runs of scale bytes: `rows` rows of `cols` elements along K or the output row. -/
def Loc.scaleRuns (l : Loc) (rows cols : Nat) : List (Nat × Nat) :=
  if isMx l.fmt && decide (0 < rows) && decide (0 < cols) then
    tab rows (fun k => (l.sbase + k * l.spitch, ceilDiv cols 32))
  else []

/-- Runs of bytes in the slots that an r × c matrix of the accumulator space takes, one per row of a slot. -/
def Loc.slotRuns (l : Loc) (r c : Nat) : List (Nat × Nat) :=
  (List.range r).flatMap (fun i => tab (ceilDiv c 128) (fun b =>
    ((l.place i (128 * b)).1, 4 * min 128 (c - 128 * b))))

/-- Runs outside the core, which R26 checks. -/
def Loc.outer (l : Loc) (runs : List (Nat × Nat)) : List (Nat × Nat) :=
  if l.space = spGallery ∨ l.space = spHbm then runs else []

/-- Elements and scales of a matrix as stored, for a source or a move. -/
def Loc.allRuns (l : Loc) (r c : Nat) : List (Nat × Nat) :=
  l.runs r c ++ (if l.trans then l.scaleRuns c r else l.scaleRuns r c)

/-! ### Blocks and slots, R63 -/

/-- Scratchpad blocks of 16 KiB that a core-local range touches. -/
def blockKeys (off len : Nat) : List Nat :=
  if len = 0 then [] else tab ((off + len - 1) / 16384 + 1 - off / 16384) (fun k => off / 16384 + k)

/-- The key of a slot among blocks and slots. -/
def slotKey (k : Nat) : Nat := 512 + k

/-- Slots of a matrix of a tile width from a first slot, R81. -/
def slotsOf (first r c per : Nat) : List Nat :=
  (List.range (ceilDiv r 128)).flatMap (fun i => tab (ceilDiv c 128) (fun j => first + i * per + j))

/-- Columns that a write of `c` columns covers in a format. -/
def mxCols (fmt c : Nat) : Nat := if isMx fmt then ceilDiv c 32 * 32 else c

/-- Blocks and slots that a range of a core's window touches. -/
def byteKeys (off len : Nat) : List Nat :=
  if off < 0x800000 then blockKeys off len
  else if len = 0 then []
  else tab ((off + len - 1) / 0x10000 + 1 - off / 0x10000) (fun k => slotKey (off / 0x10000 - 128 + k))

/-- One use that a record makes of an operand: the byte of the record that holds its index, rows,
columns, tile width, whether the record writes it, and for the window of a CONV, TCONV or pooling RED its output
pixels. -/
structure Use where
  fld : Nat
  r : Nat
  c : Nat
  tc : Nat
  wr : Bool
  px : Nat
  deriving DecidableEq, Repr

/-- C of a CONV or TCONV: its valid K divided by kh × kw (R182); 0 for the filter of dimension 0 that the loader
refuses (R186). -/
def convC (r vk : Nat) : Nat := vk / ((convWin r).kh * (convWin r).kw)

/-- Scale bytes that a QSCL or DQSC of r × c elements reaches: bytes 0 to x div 4,096 (R227). -/
def scaleCount (rec0 r c : Nat) : Nat :=
  let (a, b) := if vAxis rec0 = 0 then (r, c) else (c, r)
  (vImm rec0 + (a - 1) * vImm2 rec0 + (b - 1)) / 4096 + 1

/-- The uses a record makes of its operands at extents `x` in tiles `t`. -/
def recUses (r : Nat) (x t : List Nat) : List Use :=
  let op := rOp r
  let x0 := x.getD 0 0
  let x1 := x.getD 1 0
  let x2 := x.getD 2 0
  let t1 := t.getD 1 128
  let t2 := t.getD 2 128
  if op = opMM ∨ op = opMV then
    [⟨8, x0, x2, t2, false, 0⟩, ⟨10, x2, x1, t1, false, 0⟩, ⟨12, x0, x1, t1, true, 0⟩,
     ⟨14, 1, x1, t1, false, 0⟩, ⟨16, x0, 2, 128, true, 0⟩]
  else if op = opCONV ∨ op = opTCONV then
    let w := convWin r
    [⟨8, w.rows, w.cols x0 * convC r x2, t2, false, x0⟩, ⟨10, x2, x1, t1, false, 0⟩,
     ⟨12, x0, x1, t1, true, 0⟩, ⟨14, 1, x1, t1, false, 0⟩, ⟨16, x0, 2, 128, true, 0⟩]
  else if op = opATTB then
    [⟨8, x0, 128, 128, false, 0⟩, ⟨10, x1, 128, 128, false, 0⟩, ⟨12, x1, 128, 128, false, 0⟩,
     ⟨14, x0, x1, t1, false, 0⟩]
  else if op = opATTM then [⟨8, x0, 128, 128, false, 0⟩, ⟨16, x0, 128, 128, true, 0⟩]
  else if op = opVEC then
    let f := vFunc r
    let y : Use := if f = 0x10 ∨ f = 0x11 then ⟨10, 1, x1, t1, false, 0⟩
      else if f = 0x12 ∨ f = 0x13 then ⟨10, x0, 1, 128, false, 0⟩ else ⟨10, x0, x1, t1, false, 0⟩
    [⟨8, x0, x1, t1, false, 0⟩, y, ⟨12, x0, x1, t1, true, 0⟩]
  else if op = opNORM then
    let n := if vAxis r = 0 then t1 else t.getD 0 128
    [⟨8, x0, x1, t1, false, 0⟩, ⟨12, x0, x1, t1, true, 0⟩,
     ⟨14, 1, if vFunc r = 1 then 2 * n else n, 128, false, 0⟩]
  else if op = opRED ∧ vFunc r < 0x10 then
    [⟨8, x0, x1, t1, false, 0⟩,
     if vAxis r = 0 then ⟨12, x0, 1, 128, true, 0⟩ else ⟨12, 1, x1, t1, true, 0⟩]
  else if op = opRED then
    let w := poolWin r
    [⟨8, w.rows, w.cols x0 * x1, t1, false, x0⟩, ⟨12, x0, x1, t1, true, 0⟩]
  else if op = opSORT then
    [⟨8, x0, x1, t1, false, 0⟩, ⟨10, x0, 2 * vImm r, t1, false, 0⟩, ⟨12, x0, 2 * vImm r, t1, true, 0⟩]
  else if op = opNMS then
    [⟨8, 5, t1, t1, false, 0⟩, ⟨10, 1, t1, t1, false, 0⟩, ⟨12, 1, t1, t1, true, 0⟩, ⟨14, 1, 3, 128, false, 0⟩]
  else if op = opBOXD then
    [⟨8, x0, 4, 128, false, 0⟩, ⟨10, x0, 4, 128, false, 0⟩, ⟨12, x0, 4, 128, true, 0⟩]
  else if op = opQSCL then
    [⟨8, x0, x1, t1, false, 0⟩,
     if vFunc r = 2 then ⟨12, 1, scaleCount r x0 x1, 128, true, 0⟩ else ⟨12, x0, x1, t1, true, 0⟩,
     ⟨14, 1, scaleCount r x0 x1, 128, false, 0⟩]
  else if op = opDQSC then
    [⟨8, x0, x1, t1, false, 0⟩, ⟨12, x0, x1, t1, true, 0⟩, ⟨14, 1, scaleCount r x0 x1, 128, false, 0⟩]
  else if op = opGNRM then
    if vFunc r = 1 then [⟨8, x0, x1, t1, false, 0⟩, ⟨12, 1, 2, 128, true, 0⟩, ⟨14, 1, 4, 128, false, 0⟩]
    else if vFunc r = 2 then [⟨8, 1, 2, 128, false, 0⟩, ⟨12, 1, 4, 128, true, 0⟩, ⟨14, 1, 4, 128, false, 0⟩]
    else [⟨8, x0, x1, t1, false, 0⟩, ⟨10, 1, 4, 128, false, 0⟩, ⟨12, x0, x1, t1, true, 0⟩]
  else if op = opRNGM then
    [⟨8, x0, x1, t1, false, 0⟩, ⟨12, x0, x1, t1, true, 0⟩, ⟨14, 1, 8, 128, false, 0⟩]
  else if op = opRACC then [⟨8, x0, x1, t1, false, 0⟩, ⟨10, x0, x1, t1, true, 0⟩]
  else if opGroup op = some .move then [⟨8, x0, x1, t1, false, 0⟩, ⟨10, x0, x1, t1, true, 0⟩]
  else []

/-- The uses of an NMS of `n` candidates that writes `k` words of its kept list (R198 Table 6). -/
def nmsUses (n k : Nat) : List Use :=
  [⟨8, 5, n, 128, false, 0⟩, ⟨10, 1, n, 128, false, 0⟩, ⟨12, 1, k, 128, true, 0⟩, ⟨14, 1, 3, 128, false, 0⟩]

/-- The most candidates that an NMS reads, whose number only its run tells: 65,536, or as many as a row of OPD_X holds
(R198, log 118). -/
def nmsMost (x : Opd) : Nat := if x.trans then 65536 else min 65536 (x.pitch / 4)

/-- The uses by which a record's blocks are tracked: an NMS's are those of the most candidates. -/
def heldUses (od : Nat → Opd) (r : Nat) (l : List Use) : List Use :=
  if rOp r = opNMS then nmsUses (nmsMost (od (rB r 8 2))) (nmsMost (od (rB r 8 2)) + 1) else l

/-- The operand index a use names in its record. -/
def Use.ix (r : Nat) (u : Use) : Nat := rB r u.fld 2

/-- Whether a use is the statistics operand of R114, whose rows of 8 bytes follow each other without a pitch. -/
def Use.isStat (r : Nat) (u : Use) : Bool := decide (opGroup (rOp r) = some .array) && u.fld == 16

/-- Whether a use is written with its MX blocks along the output row (R104), not as stored (R116). -/
def Use.isOut (r : Nat) (u : Use) : Bool :=
  u.wr && (decide (opGroup (rOp r) ≠ some .move) || (rOp r == opSTORE && rOutfmt r != 0))

/-- The window of a record. -/
def recWin (r : Nat) : Win := if rOp r = opRED then poolWin r else convWin r

/-- Runs of bytes that a window of `vm` output pixels and `c` channels reads: padding, and the rows and pixels that its
strides and dilations pass over, are not read (R183). -/
def Loc.windowRuns (l : Loc) (w : Win) (vm c : Nat) : List (Nat × Nat) :=
  if c = 0 then []
  else w.readRows.flatMap (fun r => (w.readCols vm).map (fun (q, n) =>
    (l.base + r * l.pitch + fmtHalfBytes l.fmt * (q * c) / 2, fmtBytes l.fmt (n * c))))

/-- Runs of bytes that a use of an operand covers for a core, elements and scales. -/
def Use.runs (r core : Nat) (x : Opd) (u : Use) : List (Nat × Nat) :=
  let l := x.locOn core u.tc
  if u.r = 0 ∨ u.c = 0 then []
  else if 0 < u.px ∧ x.space ≠ spAcc then l.windowRuns (recWin r) u.px (u.c / (recWin r).cols u.px)
  else if u.isStat r then [(l.base, 8 * u.r)]
  else
    (if x.space = spAcc then l.slotRuns u.r u.c else l.runs u.r (if u.isOut r then mxCols l.fmt u.c else u.c)) ++
      (if u.isOut r || !l.trans then l.scaleRuns u.r u.c else l.scaleRuns u.c u.r)

/-- Blocks and slots that a use of an operand covers (R63). -/
def Use.keys (r : Nat) (x : Opd) (u : Use) : List Nat :=
  if x.space = spScratch then ((u.runs r 0 x).flatMap (fun a => byteKeys a.1 a.2)).filter (fun k => decide (k < 512))
  else if x.space = spAcc then (u.runs r 0 x).flatMap (fun a => byteKeys a.1 a.2) else []

/-- Staging slots per group of a PAGED ATTB, R173: n = ceil(T_KV × 128 × w / 65,536). -/
def stageSlots (tkv fmt : Nat) : Nat := ceilDiv (tkv * 128 * fmtHalfBytes fmt / 2) 65536

/-- Slots a record names itself, as (read, written): the output slots of an array record (R81,
R88) and the running state and staging slots of an attention record (R154), the staging slots written by its fill
(R173). `kfmt` and `vfmt` are the formats of OPD_K and OPD_V. -/
def recSlots (r : Nat) (x t : List Nat) (kfmt vfmt : Nat) : List Nat × List Nat :=
  let op := rOp r
  if op = opMM ∨ op = opMV ∨ op = opCONV then
    let l := slotsOf (bits (rB r 25 1) 4 0) (x.getD 0 0) (x.getD 1 0) (slotsPer (t.getD 1 128))
    (if rAcc r then l else [], l)
  else if op = opATTB ∨ op = opATTM then
    let o := slotsOf (bits (rB r 24 1) 4 0) (x.getD 0 0) 128 1
    let m := bits (rB r 25 1) 4 0
    let st := if op = opATTB ∧ bits (rB r 23 1) 2 2 = 1 then
        tab (stageSlots (t.getD 1 128) kfmt + stageSlots (t.getD 1 128) vfmt) (fun k => m + 1 + k)
      else []
    let run := if x.getD 0 0 = 0 then [] else o ++ [m]
    ((if op = opATTB ∧ bits (rB r 23 1) 0 0 = 1 then [] else run) ++ st, run ++ st)
  else ([], [])

/-- A paged operand is a virtual address and no block of the scratchpad (R173). -/
def pagedUse (r : Nat) (u : Use) : Bool :=
  rOp r == opATTB && bits (rB r 23 1) 2 2 == 1 && (u.fld == 10 || u.fld == 12)

/-- Blocks and slots that a record reads and writes, with descriptors from `od` (R62, R63). -/
def footprint (od : Nat → Opd) (r : Nat) (x t : List Nat) : List Nat × List Nat :=
  let named := (heldUses od r (recUses r x t)).filter (fun u => u.ix r != noOpd && !pagedUse r u)
  let keys := fun (wr : Bool) => (named.filter (fun u => u.wr == wr)).flatMap (fun u => u.keys r (od (u.ix r)))
  let sl := recSlots r x t (od (rB r 10 2)).fmt (od (rB r 12 2)).fmt
  (dedupKeep (keys false ++ sl.1.map slotKey), dedupKeep (keys true ++ sl.2.map slotKey))

/-- Blocks and slots of a placed record at its valid extents. -/
def State.foot (s : State) (e : Env) : List Nat × List Nat :=
  if isEmptyRec e.r e.y.dims && !rZfill e.r then ([], [])
  else footprint (s.opd e) e.r (validExts e.r e.y.dims) (tileExts e.r)

/-- The uses that a placed record makes of its operands at its valid extents: none when it is empty (R110), but for
ZFILL, which writes. OPD_DST of a RACC is no device address (R228). An NMS reads the candidates that OPD_P counts and
has written the kept list that OPD_Z counts (R198). -/
def State.uses (s : State) (e : Env) : List Use :=
  let held (o : Nat) : Nat := s.elem (s.loc e (rB e.r o 2) 128) 0 0
  let all := if rOp e.r = opNMS then nmsUses (min (held 14) 65536) (min (held 12) 65536 + 1)
    else recUses e.r (validExts e.r e.y.dims) (tileExts e.r)
  let l := all.filter (fun u =>
    u.ix e.r != noOpd && !pagedUse e.r u && !(rOp e.r == opRACC && u.fld == 10))
  if isEmptyRec e.r e.y.dims then
    (if rZfill e.r && decide (e.v 0 ≠ 0) && decide (e.v 1 ≠ 0) then l.filter (fun u => u.wr || u.fld == 14) else [])
  else l

/-- Runs of device bytes that a placed record reads or writes as operands. -/
def State.opdRuns (s : State) (e : Env) (wr : Bool) : List (Nat × Nat) :=
  ((s.uses e).filter (fun u => u.wr == wr)).flatMap (fun u =>
    u.runs e.r (coreBase e.d.val e.p.val) (s.opd e (u.ix e.r)))

/-- Whether two lists share an element. -/
def meets (a b : List Nat) : Bool := a.any (fun x => b.contains x)

end Sys2Proof.Machine
end

