-- ==== Sys2Proof/Machine/Tiles.lean ====
section
/-! DEFINITION. Running a tile-operation record: which record a unit issues next (R61 to R64), how
its results reach slots and memory with their flags (R48 to R50, R85, R112 to R114), what a
mismatch does (R69 to R74), and the retirement of a core (R72, R433). -/

namespace Sys2Proof.Machine

/-! ### Units and issue -/

/-- The unit of a core that runs an opcode, R101 Table 2; Teasel for TCONV. -/
inductive UnitK where
  | array
  | speedwell
  | vector
  | move
  | sync
  | teasel
  deriving DecidableEq, Repr

/-- The unit of an opcode. ATTB needs the vector unit besides the array. -/
def unitOf (op : Nat) : UnitK :=
  if op = opMM ∨ op = opCONV ∨ op = opATTB then .array
  else if op = opMV then .speedwell
  else if op = opTCONV then .teasel
  else if op = opBAR ∨ op = opWAIT ∨ op = opSIGNAL then .sync
  else if opGroup op = some .move then .move
  else .vector

/-- The opcode of a placed record. -/
def Placed.op (x : Placed) : Nat := rOp x.raw.toNat

/-- Whether a record is a ROT or HALO that receives (DIR 1), or one that sends. -/
def Placed.recv (x : Placed) : Bool := (x.op == opROT || x.op == opHALO) && bits (rB x.raw.toNat 18 1) 7 7 == 1
def Placed.send (x : Placed) : Bool := (x.op == opROT || x.op == opHALO) && bits (rB x.raw.toNat 18 1) 7 7 == 0

/-- The unit of a placed record. -/
def Placed.unit (x : Placed) : UnitK := unitOf x.op

/-- Whether a placed record takes a unit: its own, ATTB the vector unit too (R62), and with Teasel out of service a
TCONV the array (R95). -/
def State.takes (s : State) (d : Die) (x : Placed) (u : UnitK) : Bool :=
  decide (x.unit = u) || (x.op == opATTB && decide (u = .vector)) ||
    (x.op == opTCONV && decide (u = .array) && (s.die d).teaselOut)

/-- Whether a record may issue before an earlier one of its unit: a receive, which issues when its destination is free,
before a send that waits for its credit (R122, log 29). -/
def Placed.passes (x z : Placed) : Bool := x.recv && z.send

/-- Whether a placed ATTB has its keys and values in pages (R173). -/
def Placed.paged (x : Placed) : Bool := x.op == opATTB && bits (rB x.raw.toNat 23 1) 2 2 == 1

/-- The environment of a placed record of a running DISPATCH. -/
def State.envOf (s : State) (d : Die) (p : PCore) (x : Placed) : Option Env :=
  (s.disp x.seq).map (fun y => { d, p, x, y })

/-- The first placed record of a unit that has not issued (R61), or the first receive that may pass sends. -/
def State.candidate (s : State) (d : Die) (c : LCore) (u : UnitK) (recv : Bool := false) : Option Env :=
  match s.phys d c with
  | none => none
  | some p =>
    match (s.core d p).queue.find? (fun x => decide (x.st = .placed) && s.takes d x u && (!recv || x.recv)) with
    | none => none
    | some x => s.envOf d p x

/-- Uncompleted records placed earlier on the core. -/
def State.earlierOn (s : State) (e : Env) : List Placed :=
  (s.core e.d e.p).queue.filter (fun z => decide (z.pos < e.x.pos))

/-- Whether a die's cores may issue: the DISPATCH is running, no switch drains its die (R355), no
recovery runs (R360). -/
def State.dieIssues (s : State) (e : Env) : Bool :=
  decide (e.y.st = .running) && s.recovery.isNone &&
    !s.switches.any (fun w => w.dies.contains e.d)

/-- Whether the core can issue: ON (R97), its island's clock running, not stopped by a retirement, no replay under way
(R71). -/
def State.coreIssues (s : State) (e : Env) : Bool :=
  let k := s.core e.d e.p
  s.fnIs (.core e.d e.p) .on && s.clockRuns e.d (islCore e.p) && !k.stopped && k.replay.isNone

/-- Whether the channels to the Gallery and HBM bytes that a record names take its accesses now (R19). -/
def State.waysOpen (s : State) (e : Env) : Bool :=
  (s.opdRuns e false ++ s.opdRuns e true).all (fun a => s.memRuns (some e.d) a.1 a.2)

/-- Whether a hazard of R62 lies between a record and an earlier uncompleted one. -/
def State.hazard (s : State) (e : Env) (z : Placed) : Bool :=
  match s.envOf e.d e.p z with
  | none => false
  | some f =>
    let mine := s.foot e
    let theirs := s.foot f
    meets theirs.2 (mine.1 ++ mine.2) || meets theirs.1 mine.2

/-- A paged ATTB placed earlier whose staging fill has not run comes first on the move unit (R61,
R173), and its fill writes the staging slots. -/
def State.fillFirst (s : State) (e : Env) : Bool :=
  decide (e.x.unit = .move) && (s.earlierOn e).any (fun z => z.paged && !z.staged)

/-- Whether a record may issue (R61, R62): no uncompleted BAR or WAIT before it (R123, R125), no
hazard, and each unit's earlier records issued. Units accept an operation when its command comes
(log 24). -/
def State.mayIssue (s : State) (e : Env) : Bool :=
  let before := s.earlierOn e
  s.dieIssues e && s.coreIssues e &&
    before.all (fun z => z.op != opBAR && z.op != opWAIT) &&
    before.all (fun z => !s.hazard e z) &&
    before.all (fun z => decide (z.st = .issued) || !s.takes e.d z e.x.unit || e.x.passes z) &&
    (e.x.op != opATTB || before.all (fun z => decide (z.st = .issued) || !s.takes e.d z .vector)) &&
    !s.fillFirst e && (!e.x.paged || e.x.staged) && s.waysOpen e

/-- Changes a placed record of a core. -/
def State.modPlaced (s : State) (d : Die) (p : PCore) (pos : Nat) (f : Placed → Placed) : State :=
  s.modCore d p (fun k => { k with queue := updIf k.queue (fun x => x.pos == pos) f })

/-- Issues a record: it runs to completion (R64); a trace record of KIND 0x03 (R485). -/
def State.markIssued (s : State) (e : Env) : State :=
  (s.modPlaced e.d e.p e.x.pos (fun x => { x with st := .issued, issuedAt := s.now })).traceRec
    e.d.val e.x.stream 0x03 e.x.ctx.val (traceData [e.x.stream, e.x.idx, e.x.op])

/-- Takes a completed record off its core, with a trace record of KIND 0x04. -/
def State.markDone (s : State) (e : Env) : State :=
  (s.modCore e.d e.p (fun k => { k with queue := k.queue.filter (fun x => x.pos != e.x.pos) })).traceRec
    e.d.val e.x.stream 0x04 e.x.ctx.val (traceData [e.x.stream, e.x.idx, e.x.op])

/-- Changes the command counters of a die. -/
def State.modCtr (s : State) (d : Die) (f : Counters → Counters) : State :=
  s.modDie d (fun x => { x with ctr := f x.ctr })

/-! ### Slots and flags -/

/-- The flags of slot `k` in CORE_ACC_FLAGS, R96. -/
def slotFl (w : BitVec 64) (k : Nat) : Fl :=
  { sat := w.getLsbD (2 * k), nan := w.getLsbD (2 * k + 1) }

/-- CORE_ACC_FLAGS with the flags of slot `k` replaced. -/
def setSlotFl (w : BitVec 64) (k : Nat) (f : Fl) : BitVec 64 :=
  setFld w (2 * k + 1) (2 * k) ((if f.sat then 1 else 0) + (if f.nan then 2 else 0))

/-- Flags of a list of flags. -/
def flAll (l : List Fl) : Fl := l.foldl Fl.or flNone

/-- Flags of the cells of one 128 × 128 tile of a matrix of flags. -/
def tileFl (cells : List (List Fl)) (bi bj : Nat) : Fl :=
  flAll (((cells.drop (128 * bi)).take 128).map (fun row => flAll ((row.drop (128 * bj)).take 128)))

/-- Slots of a matrix of flags with the flags each receives. -/
def slotFlags (first per : Nat) (cells : List (List Fl)) : List (Nat × Fl) :=
  (List.range (ceilDiv cells.length 128)).flatMap (fun bi =>
    tab (ceilDiv ((cells.headD []).length) 128) (fun bj => (first + bi * per + bj, tileFl cells bi bj)))

/-- Writes flags of slots: an overwrite clears them first, an accumulation keeps them (R49). The
flags that the slots then hold are answered (R50). -/
def State.putSlotFlags (s : State) (d : Die) (p : PCore) (keep : Bool) (l : List (Nat × Fl)) :
    State × Fl :=
  let w := l.foldl (fun w (k, f) => setSlotFl w k (if keep then (slotFl w k).or f else f))
    (s.core d p).accFlags
  (s.modCore d p (fun k => { k with accFlags := w }), flAll (l.map (fun x => slotFl w x.1)))

/-- The flags that slots hold, which a record that accumulates into them reports (R50). -/
def State.heldFl (s : State) (d : Die) (p : PCore) (l : List Nat) : Fl :=
  flAll (l.map (slotFl (s.core d p).accFlags))

/-- Notes the flags a record sets for its DISPATCH's completion status (R50). -/
def State.noteFl (s : State) (seq : Nat) (f : Fl) : State :=
  if f.sat || f.nan then s.modDisp seq (fun y => { y with sat := y.sat || f.sat, nan := y.nan || f.nan })
  else s

/-! ### Reading and writing what a record names -/

/-- Bytes of runs that lie in HBM. -/
def hbmBytes (runs : List (Nat × Nat)) : Nat :=
  natSum ((runs.filter (fun r => inHbm r.1)).map (fun r => r.2))

/-- Counts a record's traffic (R315, R516, R481). -/
def State.useRuns (s : State) (e : Env) (write : Bool) (runs : List (Nat × Nat)) : State :=
  let h := hbmBytes runs
  let s := (s.countRuns write runs).chargeRuns e.x.ctx (some e.d) runs
  if h = 0 then s
  else s.modCtr e.d (fun c => if write then { c with hbmWr := c.hbmWr + h } else { c with hbmRd := c.hbmRd + h })

/-- Runs the rest of a record when its reads and writes outside the core are allowed, and else
reports the job fault of its context (R26, R290, R291) without any other effect (log 25). -/
def guarded (e : Env) (reads writes : List (Nat × Nat)) (k : State → State) (s : State) : State :=
  match s.readsFault e.x.ctx reads with
  | some (c, a) => s.raise c e.d.val [e.x.ctx] a
  | none =>
    match s.writesFault e.x.ctx writes with
    | some (c, a) => s.raise c e.d.val [e.x.ctx] a
    | none =>
      let s := writes.foldl (fun s (a, n) => s.spoil a n) (k ((s.useRuns e false reads).useRuns e true writes))
      s.modPlaced e.d e.p e.x.pos (fun x => { x with dests := writes })

/-- A row padded with zero codes to whole MX blocks (R109). -/
def padMx (fmt : Nat) (row : List Nat) : List Nat :=
  if isMx fmt then row ++ List.replicate (ceilDiv row.length 32 * 32 - row.length) 0 else row

/-- Runs outside the core that a write of an r × c matrix covers, with its scales along rows. -/
def Loc.outRuns (l : Loc) (r c : Nat) : List (Nat × Nat) :=
  l.outer (l.runs r (mxCols l.fmt c) ++ l.scaleRuns r c)

/-- Runs outside the core that a read of an r × c matrix with its scales covers. -/
def Loc.inRuns (l : Loc) (r c : Nat) : List (Nat × Nat) := l.outer (l.allRuns r c)

/-- Writes a matrix of codes with its scale rows. Errors of codewords written whole clear. -/
def State.storeMat (s : State) (l : Loc) (codes scales : List (List Nat)) : State :=
  let s := s.putRows l 0 (codes.map (padMx l.fmt))
  let s := if isMx l.fmt then s.putScales l 0 scales else s
  (l.outRuns codes.length (codes.headD []).length).foldl (fun s (a, n) => s.clearBad a n) s

/-! ### The output path, R112 -/

/-- What the output path gives: codes, MX scales, row statistics, and flags of the result and of
the statistics by row. -/
structure OutRes where
  codes : List (List Nat)
  scales : List (List Nat) := []
  stats : List (Nat × Nat) := []
  fl : Fl := {}
  statFl : List Fl := []
  deriving DecidableEq, Repr

/-- Whether an FP32 code is a NaN. -/
def isNan32 (c : Nat) : Bool := decide (fFP32.decode c = .nan)

/-- Converts a matrix of accumulator codes by OUTFMT, R51 to R53. With OUTFMT 0x00 an FP32 element leaves unchanged,
and a NaN among them sets NAN; OUTFMT 0x08 rounds to FP32 by Table 5, where a NaN becomes canonical and an infinity the
largest finite value with SAT (log 91). -/
def convRows (isInt : Bool) (outfmt shift : Nat) (rows : List (List Nat)) : OutRes :=
  if isInt ∧ (outfmt = 0 ∨ outfmt = fmINT32) then { codes := rows }
  else if outfmt = 0 then { codes := rows, fl := { nan := rows.any (fun row => row.any isNan32) } }
  else if outfmt = fmINT8 then
    let r := rows.map (fun row => row.map (fun x => convInt8 (sgn 32 x) shift))
    { codes := r.map (fun row => row.map (fun x => x.1)),
      fl := flAll (r.map (fun row => flAll (row.map (fun x => x.2)))) }
  else if isMx outfmt then
    let r := rows.map (fun row => (groupsOf 32 row).map (convMxBlock outfmt))
    { codes := r.map (fun bs => (bs.map (fun b => b.2.1)).flatten),
      scales := r.map (fun bs => bs.map (fun b => b.1)),
      fl := flAll (r.map (fun bs => flAll (bs.map (fun b => b.2.2)))) }
  else
    let r := rows.map (fun row => row.map (convFp (ffmtOf outfmt)))
    { codes := r.map (fun row => row.map (fun x => x.1)),
      fl := flAll (r.map (fun row => flAll (row.map (fun x => x.2)))) }

/-- Step 1 of R112 on one element. -/
def biasAdd (isInt : Bool) (x b : Nat) : Res :=
  if isInt then
    let (v, f) := sat32 (sgn 32 x + sgn 32 b)
    (unsgn 32 v, f)
  else vAdd (.code x) (.code b)

/-- Steps 1 and 2 of R112 on one element. -/
def biasEw (isInt : Bool) (bias : Option Nat) (ew x : Nat) : Res :=
  let (y, f) := match bias with
    | some b => biasAdd isInt x b
    | none => (x, flNone)
  if ew = 0 then (y, f)
  else
    let (z, g) := ewStep ew (.code y)
    (z, f.or g)

/-- Row maximum and row sum of FP32 codes, R54, R55. -/
def rowStats (row : List Nat) : (Nat × Nat) × Fl :=
  let m := redMax (row.map Src.code)
  let t := redSum (row.map Src.code)
  ((m.1, t.1), m.2.or t.2)

/-- Steps 1 to 4 of the output path, R112. -/
def outPath (isInt : Bool) (bias : Option (List Nat)) (ew : Nat) (stat : Bool) (outfmt shift : Nat)
    (vals : List (List Nat)) : OutRes :=
  let r := vals.map (fun row => row.zipIdx.map (fun (x, j) =>
    biasEw isInt (bias.map (fun (b : List Nat) => b.getD j 0)) ew x))
  let rows := r.map (fun row => row.map (fun x => x.1))
  let st := if stat then rows.map rowStats else []
  let c := convRows isInt outfmt shift rows
  { c with
    stats := st.map (fun x => x.1)
    statFl := st.map (fun x => x.2)
    fl := c.fl.or (flAll (r.map (fun row => flAll (row.map (fun x => x.2))))) }

/-- Writes row statistics: maximum at ADDR + 8i, sum at ADDR + 8i + 4 (R114). -/
def State.putStats (s : State) (a : Nat) (stats : List (Nat × Nat)) : State :=
  s.devWrite a ((stats.map (fun x => toLe 4 x.1 ++ toLe 4 x.2)).flatten)

/-! ### Cores leaving service -/

/-- Logical cores in service on a die. -/
def State.inService (s : State) (d : Die) : List PCore :=
  allPCores.filter (fun p => decide ((s.core d p).role = .inService))

/-- Spare cores of a die that no retirement under way has taken. -/
def State.spareCores (s : State) (d : Die) : List PCore :=
  allPCores.filter (fun p => decide ((s.core d p).role = .spare) &&
    !allPCores.any (fun q => decide ((s.core d q).retireTo = some p)))

/-- Contexts with a running DISPATCH or live state on a die (R353, R433). -/
def State.liveOn (s : State) (d : Die) : List CtxId :=
  (List.finRange 64).filter (fun n =>
    s.disps.any (fun y => decide (y.ctx = n) && y.dies.contains d && decide (y.st ≠ .ready)) ||
    s.chains.any (fun c => decide (c.ctx = n) && c.dies.contains d))

/-- Gives a die's logical indices to its in-service cores in increasing physical index (R433). -/
def State.renumber (s : State) (d : Die) : State :=
  ((s.inService d).zipIdx).foldl (fun s (p, i) =>
    if h : i < 28 then s.modCore d p (fun k => { k with logical := some ⟨i, h⟩ }) else s) s

/-- Whether a die's logical indices are not 0 to L − 1. -/
def State.hasGap (s : State) (d : Die) : Bool :=
  let l := s.inService d
  !(List.range l.length).all (fun i => l.any (fun p =>
    match (s.core d p).logical with
    | some c => c.val == i
    | none => false))

/-- The spare map keeps a retired core (section 1, R443). -/
def State.saveRetired (s : State) (d : Die) (p : PCore) : State :=
  { s with store := { s.store with
      dirty := true
      cur := { s.store.cur with spares := { s.store.cur.spares with
        cores := s.store.cur.spares.cores ++ [(d.val, p.val)] } } } }

/-- A core is lost without a spare (R433): its state is gone, a job fault of the contexts with work
or state on the die, or the indices given out at once. -/
def coreLost (d : Die) (p : PCore) (s : State) : State :=
  let live := s.liveOn d
  let s := s.modCore d p (fun k => { k with
    role := .retired, logical := none, queue := [], replay := none, retireTo := none, stopped := false, badLines := [] })
  let s := s.setFn (.core d p) (s.fn (.core d p)).forceOff
  let s := (s.saveRetired d p).degraded kCore d.val p.val 0 300 0 0
  if live.isEmpty then s.renumber d
  else s.raise causeMem d.val live (coreBase d.val p.val)

/-- A spare core fails: it is retired, and a core that was to move to it takes another spare or is lost
(R433). -/
def spareLost (d : Die) (p : PCore) (s : State) : State :=
  let s := (s.modCore d p (fun k => { k with role := .retired })).saveRetired d p
  let left := (s.spareCores d).length
  let s := s.repaired kCore d.val p.val 0 300 0 left (left == 0)
  match allPCores.find? (fun q => decide ((s.core d q).retireTo = some p)) with
  | none => s
  | some q =>
    match s.spareCores d with
    | z :: _ => s.modCore d q (fun k => { k with retireTo := some z })
    | [] =>
      if (s.core d q).thermalMove then
        (s.modCore d q (fun k => { k with thermalMove := false, retireTo := none, stopped := false })).modDie d
          (fun x => { x with moving := none })
      else coreLost d q s

/-- Starts the retirement of a core in service: issue stops and the spare of the die with the lowest physical index takes
its state (log 92), or it is lost. -/
def retireStart (d : Die) (p : PCore) (s : State) : State :=
  if (s.core d p).retireTo.isSome then s
  else match s.spareCores d with
    | q :: _ => s.modCore d p (fun k => { k with stopped := true, retireTo := some q })
    | [] => coreLost d p s

/-- The retirements of a die that waited for its thermal move (R411): a core that the move took out of service is a spare
that has failed. -/
def retireWaiting (d : Die) (s : State) : State :=
  if (s.die d).moving.isSome then s
  else (allPCores.filter (fun p => (s.core d p).retireWait)).foldl (fun s p =>
    let s := s.modCore d p (fun k => { k with retireWait := false })
    match (s.core d p).role with
    | .retired => s
    | .spare => spareLost d p s
    | .inService => retireStart d p s) s

/-- Retires a core by R72. Issue stops at once; a thermal move in progress on the die completes first (R411). -/
def retireCore (d : Die) (p : PCore) (s : State) : State :=
  match (s.core d p).role with
  | .retired => s
  | .spare => retireWaiting d (spareLost d p s)
  | .inService =>
    let s := s.modCtr d (fun c => { c with paused := true })
    let s := if (s.core d p).retireWait || ((s.core d p).retireTo.isSome && !(s.core d p).thermalMove) then s
      else s.modCore d p (fun k => { k with since := s.now })
    if (s.die d).moving.isSome then s.modCore d p (fun k => { k with stopped := true, retireWait := true })
    else retireStart d p s

/-- Device bytes of a range become those an unlisted byte of a core or Gallery reads as: zero. -/
def State.clearRange (s : State) (a len : Nat) : State :=
  { s with mem := s.mem.filter (fun x => !(decide (a ≤ x.1) && decide (x.1 < a + len))) }

/-- Copies a range of device bytes onto a range that reads as zero where it lists nothing. -/
def State.copyRange (s : State) (src dst len : Nat) : State :=
  let moved := s.mem.filter (fun x => decide (src ≤ x.1) && decide (x.1 < src + len))
  moved.foldl (fun s x => s.devWrite (x.1 - src + dst) [x.2]) (s.clearRange dst len)

/-- The state of a core stands on a spare of its die, which takes the logical index and the queue (R72);
the old core keeps nothing and goes OFF. -/
def coreMoved (d : Die) (p q : PCore) (role : Role) (s : State) : State :=
  let k := s.core d p
  let s := s.copyRange (coreBase d.val p.val) (coreBase d.val q.val) coreBytes
  let s := s.modCore d q (fun z => { z with
    role := .inService, logical := k.logical, queue := k.queue, nextPos := k.nextPos,
    accFlags := k.accFlags, replay := k.replay, replayRun := k.replayRun, stopped := false, badLines := k.badLines
    movedAt := if k.thermalMove then some s.now else k.movedAt })
  let s := s.setFn (.core d q) { s.fn (.core d q) with st := .on, en := true }
  let s := s.modCore d p (fun z => { z with
    role, logical := none, queue := [], replay := none, retireTo := none, stopped := false
    thermalMove := false, badLines := [] })
  s.setFn (.core d p) (s.fn (.core d p)).forceOff

/-- CORE_RETIRE_DONE: the old core is retired, recorded in the spare map and reported (R72, R433); after a
thermal move it is a spare, the move is only counted, and retirements that waited for it start (R411). -/
def coreRetireDone (d : Die) (p q : PCore) (s : State) : State :=
  if (s.core d p).thermalMove then
    retireWaiting d (((coreMoved d p q .spare s).modDie d (fun x => { x with moving := none })).bump .pwdThermalMoves d.val 0 1)
  else
    let since := (s.core d p).since
    let s := coreMoved d p q .retired s
    let left := (s.spareCores d).length
    (s.saveRetired d p).repairedSince since kCore d.val p.val 0 0 left (left == 0)

/-- Whether a core's state may go to its spare: issue has stopped, and before a thermal move its issued
operations have completed. -/
def State.retireReady (s : State) (d : Die) (p : PCore) : Bool :=
  let k := s.core d p
  k.stopped && (!k.thermalMove || (k.replay.isNone && k.queue.all (fun x => decide (x.st = .placed))))

/-- CORE_RETIRE_DONE. -/
def coreRetireDoneEv (d : Die) (p : PCore) (s : State) : State :=
  match (s.core d p).retireTo with
  | some q => if s.retireReady d p then coreRetireDone d p q s else s
  | none => s

/-! ### Checksum and residue mismatches -/

/-- The action of R71 Table 4 for the rows and columns that mismatch; 0 with no mismatch. -/
def csumAction (m : Csum) : Nat :=
  let r := (dedupKeep m.rows).length
  let c := (dedupKeep m.cols).length
  if r = 1 ∧ 1 ≤ c then 2
  else if c = 1 ∧ 2 ≤ r then 3
  else if r = 0 ∧ 1 ≤ c then 4
  else if 1 ≤ r ∧ c = 0 then 5
  else if 2 ≤ r ∧ 2 ≤ c then 1
  else 0

/-- ROW or COL of CORE_CSUM_LAST: the line, 0xFE for two or more, 0x80 for the checksum line, which
mismatching lines of the other kind alone point to (log 26). -/
def csumLine (l : List (Fin 128)) : Nat :=
  match dedupKeep l with
  | [] => 0x80
  | [a] => a.val
  | _ => 0xFE

/-- The lower free field of CORE_ARRAY_MAP for a spare row or column, as its low bit. -/
def freeLine (v : W64) (isRow : Bool) : Option Nat :=
  let lo := if isRow then 0 else 16
  if fld v (lo + 7) lo = 0xFF then some lo
  else if fld v (lo + 15) (lo + 8) = 0xFF then some (lo + 8) else none

/-- Spare rows and columns of an array not in use. -/
def linesLeft (v : W64) : Nat :=
  ([7, 15, 23, 31].filter (fun h => fld v h (h - 7) = 0xFF)).length

/-- Records a mismatch in CORE_CSUM_LAST (R96 Table 12). -/
def State.csumLast (s : State) (e : Env) (action slot row col : Nat) : State :=
  s.setReg .coreCsumLast e.d.val e.p.val 0
    (BitVec.ofNat 64 (action * 2 ^ 29 + slot * 2 ^ 24 + row * 2 ^ 16 + col * 2 ^ 8))

/-- First accumulator slot of an array or attention record. -/
def firstSlot (r : Nat) : Nat :=
  if opGroup (rOp r) = some .attention then bits (rB r 24 1) 4 0 else bits (rB r 25 1) 4 0

/-- The spare map keeps CORE_ARRAY_MAP. -/
def State.saveArrayMap (s : State) (d : Die) (p : PCore) : State :=
  let v := BitVec.ofNat 32 (s.reg .coreArrayMap d.val p.val 0).toNat
  { s with store := { s.store with
      dirty := true
      cur := { s.store.cur with spares := { s.store.cur.spares with
        arrays := SMap.put s.store.cur.spares.arrays (32 * d.val + p.val) v } } } }

/-- A checksum mismatch in a run of an issued record (R71, R72): the run is discarded and awaits its replay
after the action of Table 4, or the core is retired when `again`, or when no spare line is left. -/
def csumMismatch (e : Env) (m : Csum) (again : Bool) (s : State) : State :=
  let act := csumAction m
  let row := csumLine m.rows
  let col := csumLine m.cols
  let slot := firstSlot e.r
  let s := s.bump .coreCsumCount e.d.val e.p.val 1
  let s := s.modPlaced e.d e.p e.x.pos (fun x => { x with data := false })
  let s := s.modCore e.d e.p (fun k => { k with replay := some e.x.pos, replayRun := m.run })
  let s := s.modCtr e.d (fun c => { c with paused := true })
  let v := s.reg .coreArrayMap e.d.val e.p.val 0
  let line := if act = 2 then row else if act = 3 then col else 0x80
  let spare := freeLine v (act == 2 || act == 4)
  if again then retireCore e.d e.p (s.csumLast e 6 slot row col)
  else if act = 1 then
    (s.csumLast e 1 slot row col).repaired kArrayLine e.d.val e.p.val (col + row * 256 + 0x10000) 2 0
      (linesLeft v) false
  else match spare with
    | none => retireCore e.d e.p (s.csumLast e 6 slot row col)
    | some lo =>
      let s := s.setRegFld .coreArrayMap e.d.val e.p.val 0 (lo + 7) lo line
      let left := linesLeft (s.reg .coreArrayMap e.d.val e.p.val 0)
      ((s.csumLast e act slot row col).saveArrayMap e.d e.p).repaired kArrayLine e.d.val e.p.val
        (col + row * 256 + act * 0x10000) 22 0 left (left == 0)

/-- Counts a replayed run or recomputed row (R96, R481). -/
def State.countReplay (s : State) (d : Die) (p : PCore) : State :=
  (s.bump .coreReplayCount d.val p.val 1).modCtr d (fun c => { c with replays := c.replays + 1 })

/-- A second residue mismatch of one row, after the row was recomputed, retires the core; the record replays on the
spare (R74). -/
def residueRetire (e : Env) (s : State) : State :=
  let s := (s.countReplay e.d e.p).modPlaced e.d e.p e.x.pos (fun x => { x with data := false })
  retireCore e.d e.p (s.modCore e.d e.p (fun k => { k with replay := some e.x.pos }))

/-- Whether a record that runs on a core is checked by the array's checksums rather than by
residues: array operations, and a TCONV that runs as a CONV (R95). -/
def csumChecked (op : Nat) : Bool := decide (unitOf op = .array) || op == opTCONV

/-- Whether residues check a record's results: those of Speedwell and the vector unit, so the vector half of an ATTB
and whatever leaves through the output path or forms row statistics (R74, R112). -/
def State.residueChecked (s : State) (e : Env) : Bool :=
  match e.x.unit with
  | .speedwell => true
  | .vector => true
  | .array => e.x.op == opATTB || rB e.r 12 2 != noOpd || rRowstat e.r
  | .teasel => true
  | .move => e.x.op == opSTORE && (s.opd e (rB e.r 8 2)).space == spAcc
  | .sync => false

/-! ### The lines of a core, R78, R83 -/

/-- Runs of the slots that a record reads itself: those it accumulates into, the running state of an attention record
and its staged tokens. -/
def State.slotReads (s : State) (e : Env) : List (Nat × Nat) :=
  let core := coreBase e.d.val e.p.val
  let op := e.x.op
  if isEmptyRec e.r e.y.dims then []
  else if op = opMM ∨ op = opMV ∨ op = opCONV then
    (if rAcc e.r then (slotLoc core (firstSlot e.r) (e.t 1)).slotRuns (e.v 0) (e.v 1) else [])
  else if op = opATTB ∨ op = opATTM then
    let m := bits (rB e.r 25 1) 4 0
    let w := fun (o : Nat) => 128 * (fmtHalfBytes (s.opd e (rB e.r o 2)).fmt / 2)
    (if op = opATTB ∧ bits (rB e.r 23 1) 0 0 = 1 then []
     else (slotLoc core (firstSlot e.r) 128).slotRuns (e.v 0) 128 ++
       (slotLoc core m 128).slotRuns (min 128 (e.v 0)) (2 * ceilDiv (e.v 0) 128)) ++
    (if e.x.paged then
      [(core + 0x800000 + 0x10000 * (m + 1), e.v 1 * w 10),
       (core + 0x800000 + 0x10000 * (m + 1 + stageSlots (e.t 1) (s.opd e (rB e.r 10 2)).fmt), e.v 1 * w 12)]
     else [])
  else []

/-- Runs of the slots that a record writes: its outputs, and of an attention record the statistics in M_SLOT. -/
def slotWrites (e : Env) : List (Nat × Nat) :=
  let core := coreBase e.d.val e.p.val
  let op := e.x.op
  if op = opMM ∨ op = opMV ∨ op = opCONV then
    (if isEmptyRec e.r e.y.dims && !rZfill e.r then []
     else (slotLoc core (firstSlot e.r) (e.t 1)).slotRuns (e.v 0) (e.v 1))
  else if (op = opATTB ∨ op = opATTM) ∧ isEmptyRec e.r e.y.dims = false then
    let m := slotLoc core (bits (rB e.r 25 1) 4 0) 128
    (slotLoc core (firstSlot e.r) 128).slotRuns (e.v 0) 128 ++
      tab (min 128 (e.v 0)) (fun i => ((m.place i 0).1, 8 * ceilDiv (e.v 0 - i) 128))
  else []

/-- Everything a record reads. -/
def State.recReads (s : State) (e : Env) : List (Nat × Nat) := s.opdRuns e false ++ s.slotReads e

/-- The lines at offsets of a core with an uncorrectable error that reads of runs meet. -/
def badMet (core : Nat) (lines : List Nat) (runs : List (Nat × Nat)) : Option Nat :=
  lines.find? (fun l => runs.any (fun r => decide (r.2 ≠ 0) && overlaps (core + l) 64 r.1 r.2))

/-- Whether runs cover every byte of a line. -/
def lineCovered (runs : List (Nat × Nat)) (a : Nat) : Bool :=
  (List.range 64).all (fun b => runs.any (fun r => decide (r.1 ≤ a + b) && decide (a + b < r.1 + r.2)))

/-- The errors of a core's lines that writes of runs cover whole are gone (R78). -/
def State.clearLines (s : State) (d : Die) (p : PCore) (runs : List (Nat × Nat)) : State :=
  if (s.core d p).badLines.isEmpty then s
  else s.modCore d p (fun k =>
    { k with badLines := k.badLines.filter (fun l => !lineCovered runs (coreBase d.val p.val + l)) })

/-- The effect of a record; it clears the errors of the lines it writes whole, unless it ends in a job fault. What a
receive writes comes with its send. -/
def effClear (eff : Env → State → State) (e : Env) (s : State) : State :=
  let t := eff e s
  if t.reports = s.reports ∧ e.x.recv = false then t.clearLines e.d e.p (t.opdRuns e true ++ slotWrites e) else t

/-- Lines of a core newly found uncorrectable by what a record reads. -/
def newBad (core : Nat) (ue : List Nat) (runs : List (Nat × Nat)) : List Nat :=
  (dedupKeep (ue.map (fun l => l / 64 * 64))).filter (fun l => (badMet core [l] runs).isSome)

/-- Corrected errors that a record's reads meet are counted (R78, R289, R432), lines found uncorrectable are kept, and
reading such a line is a job fault of its context in place of the record's effect (R78, R83). -/
def withEcc (e : Env) (ev : RecEv) (k : State → State) (s : State) : State :=
  let reads := s.recReads e
  let core := coreBase e.d.val e.p.val
  let s := s.countCes reads ev.ce
  let bad := newBad core ev.ue reads
  let s := if bad.isEmpty then s
    else s.modCore e.d e.p (fun z => { z with badLines := dedupKeep (z.badLines ++ bad) })
  match badMet core (s.core e.d e.p).badLines reads with
  | some l => s.raise causeMem e.d.val [e.x.ctx] (core + l)
  | none => k s

/-- A record that issues, with what befalls it: corrected errors are counted (R78), a mismatch
discards or recomputes, and else its effect stands (R64, R71, R74). -/
def runIssued (eff : Env → State → State) (e : Env) (ev : RecEv) (s : State) : State :=
  withEcc e ev (fun s =>
    let live := !isEmptyRec e.r e.y.dims
    match ev.csum with
    | some m =>
      if csumChecked e.x.op && csumAction m != 0 && live then csumMismatch e m false s
      else effClear eff e s
    | none =>
      if s.residueChecked e = false ∨ ev.residue = 0 ∨ live = false then effClear eff e s
      else if ev.residue = 1 then effClear eff e (s.countReplay e.d e.p)
      else residueRetire e s) s

/-- A record command: the unit's next record, when it has opcode `op` and passes `ok` and may
issue, issues with its effect. -/
def runOn (u : UnitK) (op : Nat) (ok : Nat → Bool) (eff : Env → State → State) (d : Die) (c : LCore)
    (ev : RecEv) (s : State) (recv : Bool := false) : State :=
  match s.candidate d c u recv with
  | none => s
  | some e =>
    if e.x.op == op && ok e.r && s.mayIssue e then runIssued eff e ev (s.markIssued e) else s

/-- A record command on the unit of its opcode. -/
def runRecord (op : Nat) (ok : Nat → Bool) (eff : Env → State → State) (d : Die) (c : LCore)
    (ev : RecEv) (s : State) : State :=
  runOn (unitOf op) op ok eff d c ev s

/-- Any record of the opcode. -/
def anyRec (_ : Nat) : Bool := true

/-- RECORD_COMPLETE: an issued record whose work is done completes (R64, R117, R122); a core whose clock is stopped holds
it (R410). -/
def execRecordComplete (d : Die) (c : LCore) (pos : Nat) (s : State) : Host.Outcome State Fault Refusal :=
  .next (match s.phys d c with
    | none => s
    | some p =>
      match (s.core d p).queue.find? (fun x => x.pos == pos) with
      | none => s
      | some x =>
        if s.clockRuns d (islCore p) = true ∧ x.st = .issued ∧ x.data = true ∧ x.unit ≠ .sync ∧
            (s.die d).teaRun.map (fun t => (t.stream, t.pos)) ≠ some (x.stream, x.pos) then
          match s.envOf d p x with
          | some e => s.markDone e
          | none => s
        else s)

/-! ### Banks and ECC thresholds -/

/-- SPAD_BANK_MIGRATE: the copy of a bank into the lower free spare starts (log 92), or with both in use the
core is retired (R79). -/
def spadBankMigrate (d : Die) (p : PCore) (bank : Fin 32) (s : State) : State :=
  let s := s.modCore d p (fun k => { k with ceTimes := SMap.del k.ceTimes bank.val, bankAt := s.now })
  let v := s.reg .coreSpadMap d.val p.val 0
  if fld v 5 0 = 0x3F then s.setReg .coreSpadMap d.val p.val 0 (setFld (setFld v 5 0 bank.val) 6 6 1)
  else if fld v 13 8 = 0x3F then
    s.setReg .coreSpadMap d.val p.val 0 (setFld (setFld v 13 8 bank.val) 14 14 1)
  else retireCore d p s

/-- SPAD_BANK_MIGRATE, once the bank has had 8 corrected errors within 1 s. -/
def execSpadBankMigrate (d : Die) (p : PCore) (bank : Fin 32) (s : State) :
    Host.Outcome State Fault Refusal :=
  .next (if s.fnIs (.core d p) .on && !(s.core d p).stopped &&
      eightCe (SMap.getD (s.core d p).ceTimes bank.val []) s.now then spadBankMigrate d p bank s else s)

/-- SPAD_BANK_SWITCH: the copy ends and the spare bank serves (R79). -/
def spadBankSwitch (d : Die) (p : PCore) (spare : Fin 2) (s : State) : State :=
  let lo := 8 * spare.val
  let v := s.reg .coreSpadMap d.val p.val 0
  let s := s.setReg .coreSpadMap d.val p.val 0 (setFld v (lo + 6) (lo + 6) 0)
  let w := BitVec.ofNat 32 (s.reg .coreSpadMap d.val p.val 0).toNat
  let s := { s with store := { s.store with
    dirty := true
    cur := { s.store.cur with spares := { s.store.cur.spares with
      spads := SMap.put s.store.cur.spares.spads (32 * d.val + p.val) w } } } }
  let left := if fld v 13 8 = 0x3F ∨ fld v 5 0 = 0x3F then 1 else 0
  s.repairedAt (s.core d p).bankAt 0 kSpadBank d.val p.val (fld v (lo + 5) lo) 0 left (left == 0)

/-- SPAD_BANK_SWITCH. -/
def execSpadBankSwitch (d : Die) (p : PCore) (spare : Fin 2) (s : State) :
    Host.Outcome State Fault Refusal :=
  .next (if s.regFld .coreSpadMap d.val p.val 0 (8 * spare.val + 6) (8 * spare.val + 6) = 1 then
      spadBankSwitch d p spare s
    else s)

/-- ACC_ECC_THRESHOLD: 8 corrected errors of the accumulator store within 1 s retire the core (R83). -/
def execAccEccThreshold (d : Die) (p : PCore) (s : State) : Host.Outcome State Fault Refusal :=
  .next (if s.fnIs (.core d p) .on && !(s.core d p).stopped &&
      eightCe (SMap.getD (s.core d p).ceTimes 32 []) s.now then retireCore d p s else s)

end Sys2Proof.Machine
end

