-- ==== Sys2Proof/Machine/Array.lean ====
section
/-! DEFINITION. Matrix products: MM, MV, CONV and TCONV (R34 to R45, R65 to R70, R88 to R95, R108
to R114, R182 to R191). -/

namespace Sys2Proof.Machine

/-! ### One output element -/

/-- Products of operand pairs, none when any element is NaN, with the flags of the operands (R35,
R36). -/
def prodTerms (fa fb : Nat) (ps : List (Nat × Nat)) : Option (List (Num × Num)) × Fl :=
  ps.foldr (fun (x, y) acc =>
    match elemOperand fa x, elemOperand fb y, acc with
    | (some a, f), (some b, g), (some l, h) => (some ((a, b) :: l), (f.or g).or h)
    | (_, f), (_, g), (_, h) => (none, (f.or g).or h)) (some [], flNone)

/-- A dot product over an accumulator element for the FP8, BF16, FP16 and FP32 pairings. -/
def dotFp (fa fb group run a0 : Nat) (ps : List (Nat × Nat)) : Res :=
  match prodTerms fa fb ps with
  | (none, f) => resNan (f.or (fFP32.operand a0).2)
  | (some l, f) =>
    if fa = fmE4M3 ∨ fa = fmE5M2 then fp8Acc (runLen run) (a0, f) (l.map (fun x => x.1.mul x.2))
    else if fa = fmFP32 then
      groupAcc (groupSize group) (a0, f) ((l.map (fun x => threePass x.1 x.2)).flatten)
    else groupAcc (groupSize group) (a0, f) (l.map (fun x => x.1.mul x.2))

/-- The contribution of one pair of MX blocks (R43): none when a scale is NaN. -/
def mxBlock (ps : List (Num × Num)) (sa sb : Nat) : Option Num :=
  if sa = 0xFF ∨ sb = 0xFF then none
  else some ((Num.sum (ps.map (fun x => x.1.mul x.2))).scale ((sa : Int) - 127 + ((sb : Int) - 127)))

/-- A dot product for the MX pairings; `sas` and `sbs` are the blocks' scales. -/
def dotMx (fa fb run a0 : Nat) (ps : List (Nat × Nat)) (sas sbs : List Nat) : Res :=
  match prodTerms fa fb ps with
  | (none, f) => resNan (f.or (fFP32.operand a0).2)
  | (some l, f) =>
    let bs := (groupsOf 32 l).zipIdx.map (fun (g, k) => mxBlock g (sas.getD k 0) (sbs.getD k 0))
    if bs.any Option.isNone then resNan (f.or (fFP32.operand a0).2)
    else mxAcc (ceilDiv (runLen run) 32) (a0, f) (bs.filterMap id)

/-- A dot product for INT8. -/
def dotInt (group a0 : Nat) (ps : List (Nat × Nat)) : Res :=
  let (v, f) := intAcc (groupSize group) (sgn 32 a0, flNone) (ps.map (fun x => sgn 8 x.1 * sgn 8 x.2))
  (unsgn 32 v, f)

/-- One output element from its row of A and column of B, over an initial element (R34 Table 2). -/
def productCell (fa fb group run a0 : Nat) (as bs sas sbs : List Nat) : Res :=
  if fa = fmINT8 then dotInt group a0 (as.zip bs)
  else if isMx fa then dotMx fa fb run a0 (as.zip bs) sas sbs
  else dotFp fa fb group run a0 (as.zip bs)

/-! ### The operands -/

/-- Row `i` of A as a matrix. -/
def State.rowA (s : State) (l : Loc) (vk i : Nat) : List Nat := tab vk (fun k => s.elem l i k)

/-- Row `x` of A gathered from an image through the window, padding zero (R182, R183, R185). -/
def State.rowImage (s : State) (l : Loc) (w : Win) (ch vm vk x : Nat) : List Nat :=
  tab vk (fun k =>
    let t := k / max 1 ch
    match w.pos vm x (t / max 1 w.kw) (t % max 1 w.kw) with
    | some (r, q) => s.elem l r (q * ch + k % max 1 ch)
    | none => 0)

/-- Column `j` of B. -/
def State.colB (s : State) (l : Loc) (vk j : Nat) : List Nat := tab vk (fun k => s.elem l k j)

/-- MX scales of a row of A or column of B. -/
def State.scalesOf (s : State) (l : Loc) (i vk : Nat) : List Nat :=
  if isMx l.fmt then tab (ceilDiv vk 32) (fun b => s.scale l i b) else []

/-! ### The record -/

/-- Whether the operand of a field is named. -/
def named (r fld : Nat) : Bool := rB r fld 2 != noOpd

/-- Whether A is gathered as an image. -/
def isImage (op : Nat) : Bool := op == opCONV || op == opTCONV

/-- The output elements of an array record before its output path: the initial elements when the
reduction is empty (R110). -/
def State.arrayCells (s : State) (e : Env) (init : Nat → Nat → Nat) : List (List Res) :=
  let vm := e.v 0
  let vn := e.v 1
  let vk := e.v 2
  let la := s.loc e (rB e.r 8 2) (e.t 2)
  let lb := s.loc e (rB e.r 10 2) (e.t 1)
  if vk = 0 then tab vm (fun i => tab vn (fun j => (init i j, flNone)))
  else
    let cols := tab vn (fun j => (s.colB lb vk j, s.scalesOf lb j vk))
    tab vm (fun i =>
      let row := if isImage e.x.op then s.rowImage la (convWin e.r) (convC e.r vk) vm vk i
        else s.rowA la vk i
      let sc := if isImage e.x.op then [] else s.scalesOf la i vk
      cols.zipIdx.map (fun (c, j) =>
        productCell la.fmt lb.fmt (rGroup e.r) (rRun e.r) (init i j) row c.1 sc c.2))

/-- Runs outside the core that an array record reads: A, B and the bias. -/
def State.arrayReads (s : State) (e : Env) : List (Nat × Nat) :=
  let vm := e.v 0
  let vn := e.v 1
  let vk := e.v 2
  let la := s.loc e (rB e.r 8 2) (e.t 2)
  let lb := s.loc e (rB e.r 10 2) (e.t 1)
  let w := convWin e.r
  let a := if vk = 0 then [] else if isImage e.x.op then la.outer (la.windowRuns w vm (convC e.r vk))
    else la.inRuns vm vk
  let b := if vk = 0 then [] else lb.inRuns vk vn
  a ++ b ++ (if rBias e.r then (s.loc e (rB e.r 14 2) (e.t 1)).inRuns 1 vn else [])

/-- Runs outside the core that an array record writes: OUT and the row statistics. -/
def State.arrayWrites (s : State) (e : Env) : List (Nat × Nat) :=
  let vm := e.v 0
  let vn := e.v 1
  (if named e.r 12 then (s.loc e (rB e.r 12 2) (e.t 1)).outRuns vm vn else []) ++
    (if rRowstat e.r then
      let l := s.loc e (rB e.r 16 2) 128
      l.outer [(l.base, 8 * vm)]
    else [])

/-- The output path of an array record on its elements: OUT and statistics are written (R112). -/
def State.arrayOut (s : State) (e : Env) (isInt : Bool) (vals : List (List Nat)) : OutRes :=
  let out := named e.r 12
  let bias := if out && rBias e.r then
      let l := s.loc e (rB e.r 14 2) (e.t 1)
      some (tab (e.v 1) (fun j => s.elem l 0 j))
    else none
  let o := outPath isInt bias (if out then rEw e.r else 0) (rRowstat e.r)
    (if out then rOutfmt e.r else 0) (rShift e.r) vals
  if out then o else { o with fl := flNone }

/-- Writes what the output path gave. -/
def State.putOut (s : State) (e : Env) (o : OutRes) : State :=
  let s := if named e.r 12 then s.storeMat (s.loc e (rB e.r 12 2) (e.t 1)) o.codes o.scales else s
  if rRowstat e.r then s.putStats (s.loc e (rB e.r 16 2) 128).base o.stats else s

/-- Whether an array record writes anything: a non-empty region of M × N, and a non-empty reduction
or ZFILL (R110). -/
def arrayWritesAny (e : Env) : Bool :=
  decide (e.v 0 ≠ 0) && decide (e.v 1 ≠ 0) && (decide (e.v 2 ≠ 0) || rZfill e.r)

/-- Codes of a matrix of results. -/
def resCodes (m : List (List Res)) : List (List Nat) := m.map (fun row => row.map (fun x => x.1))

/-- Flags of a matrix of results. -/
def resFlags (m : List (List Res)) : List (List Fl) := m.map (fun row => row.map (fun x => x.2))

/-- Adds each row's statistics flags to the row's elements: they are set on the tiles from which
the statistics are formed (R55, log 27). -/
def withRowFl (cells : List (List Fl)) (st : List Fl) : List (List Fl) :=
  cells.zipIdx.map (fun (row, i) => row.map (fun f => f.or (st.getD i flNone)))

/-- The slots of an array record: those of its full tile (R81). -/
def arraySlots (e : Env) : List Nat := slotsOf (firstSlot e.r) (e.t 0) (e.t 1) (slotsPer (e.t 1))

/-- The effect of MM, MV and CONV: slots, their flags, and the output path. A record that accumulates reports the flags
that the slots of its full tile then hold, an empty one with ZFILL too, even with no valid row or column (R50, R110,
log 93). DESIGN CHOICE (log 122): what the output path of an empty record with ZFILL meets is reported too. -/
def arrayEffect (e : Env) (s : State) : State :=
  if arrayWritesAny e then
    guarded e (s.arrayReads e) (s.arrayWrites e) (fun s =>
      let first := firstSlot e.r
      let l := slotLoc (coreBase e.d.val e.p.val) first (e.t 1)
      let isInt := decide ((s.opd e (rB e.r 8 2)).fmt = fmINT8)
      let cells := s.arrayCells e (fun i j => if rAcc e.r then s.elem l i j else 0)
      let vals := resCodes cells
      let o := s.arrayOut e isInt vals
      let s := s.putRows l 0 vals
      let (s, f) := s.putSlotFlags e.d e.p (rAcc e.r)
        (slotFlags first l.per (withRowFl (resFlags cells) o.statFl))
      let f := if rAcc e.r then s.heldFl e.d e.p (arraySlots e) else f
      ((s.putOut e o).noteFl e.y.seq (f.or o.fl))) s
  else if rAcc e.r && rZfill e.r then s.noteFl e.y.seq (s.heldFl e.d e.p (arraySlots e))
  else s

/-- MM. -/
def execMm (d : Die) (c : LCore) (ev : RecEv) (s : State) : Host.Outcome State Fault Refusal :=
  .next (runRecord opMM anyRec arrayEffect d c ev s)

/-- MV, on Speedwell (R88, R89). -/
def execMv (d : Die) (c : LCore) (ev : RecEv) (s : State) : Host.Outcome State Fault Refusal :=
  .next (runRecord opMV anyRec arrayEffect d c ev s)

/-- CONV; with MM_1X1 a qualifying one runs as an MM, with the same bits (R189). -/
def execConv (d : Die) (c : LCore) (ev : RecEv) (s : State) : Host.Outcome State Fault Refusal :=
  .next (runRecord opCONV anyRec arrayEffect d c ev s)

/-! ### Teasel -/

/-- Whether runs lie in a die's own Gallery window (R190). -/
def inGallery (d : Die) (runs : List (Nat × Nat)) : Option Nat :=
  (runs.find? (fun r => !(decide (galBase d.val ≤ r.1) &&
    decide (r.1 + r.2 ≤ galBase d.val + 0x10000000)))).map (fun r => r.1)

/-- The effect of a TCONV: OUT through the output path, from +0 (R94, R190). -/
def tconvEffect (e : Env) (s : State) : State :=
  if arrayWritesAny e then
    match inGallery e.d (s.arrayReads e ++ s.arrayWrites e) with
    | some a => s.raise causeAddr e.d.val [e.x.ctx] a
    | none =>
      guarded e (s.arrayReads e) (s.arrayWrites e) (fun s =>
        let isInt := decide ((s.opd e (rB e.r 8 2)).fmt = fmINT8)
        let cells := s.arrayCells e (fun _ _ => 0)
        let o := s.arrayOut e isInt (resCodes cells)
        (s.putOut e o).noteFl e.y.seq ((flAll ((resFlags cells).map flAll)).or o.fl)) s
  else s

/-- Whether Newel, when it runs, sends a TCONV now: every record placed before it has completed (R191), and the ways to
its operands are open (R19). -/
def State.tconvReady (s : State) (e : Env) : Bool :=
  s.dieIssues e && (s.earlierOn e).isEmpty && s.newelUp e.d && s.waysOpen e

/-- Teasel leaves service after a second residue mismatch on a row: it is OFF, the die is degraded,
and the TCONV waits to run on the cores (R74, R95). -/
def teaselFails (d : Die) (s : State) : State :=
  let s := s.setFn (.teasel d) (s.fn (.teasel d)).forceOff
  let s := s.modDie d (fun x => { x with teaselOut := true, teaRun := none })
  s.degraded kTeasel d.val 0 0 0 0 0

/-- A TCONV sent to Teasel: one operation at a time, in Newel's order (R93). -/
def tconvOnTeasel (e : Env) (ev : RecEv) (s : State) : State :=
  let s' := (s.modPlaced e.d e.p e.x.pos (fun x => { x with st := .issued, issuedAt := s.now })).traceRec
    e.d.val 0x23 0x03 e.x.ctx.val (traceData [e.x.stream, e.x.idx, e.x.op])
  let s' := (s'.modDie e.d (fun x => { x with teaRun := some e.x })).countCes (s.opdRuns e false) ev.ce
  if ev.residue = 0 ∨ isEmptyRec e.r e.y.dims = true then tconvEffect e s'
  else
    let s' := s'.bump .teaCheckCount e.d.val 0 ev.residue
    let s' := s'.modCtr e.d (fun c => { c with replays := c.replays + 1 })
    if ev.residue = 1 then tconvEffect e s'
    else
      -- the interrupted operation goes back to its place and restarts on the cores
      (teaselFails e.d s').modPlaced e.d e.p e.x.pos (fun x => { x with st := .placed })

/-- TCONV of the core's stream: sent to Teasel, or with Teasel out of service run as a CONV on the
core (R95). -/
def tconv (d : Die) (c : LCore) (ev : RecEv) (s : State) : State :=
  match s.candidate d c .teasel with
  | none => s
  | some e =>
    if e.x.op == opTCONV && s.tconvReady e then
      if (s.die d).teaselOut then
        if s.coreIssues e then runIssued tconvEffect e ev (s.markIssued e) else s
      else if s.fnIs (.teasel d) .on && s.clockRuns d islTeasel && (s.die d).teaRun.isNone then tconvOnTeasel e ev s
      else s
    else s

/-- TCONV. -/
def execTconv (d : Die) (c : LCore) (ev : RecEv) (s : State) : Host.Outcome State Fault Refusal :=
  .next (tconv d c ev s)

/-- The core that holds a placed record of a stream, by its place. -/
def State.holderOf (s : State) (d : Die) (x : Placed) : Option PCore :=
  allPCores.find? (fun p => (s.core d p).queue.any (fun z =>
    z.pos == x.pos && z.stream == x.stream && z.seq == x.seq))

/-- TCONV_COMPLETE: the running TCONV ends and all its writes have arrived; it leaves its stream
(R93, R191). After its context was pre-empted its record is in no queue (R357). -/
def tconvComplete (d : Die) (x : Placed) (s : State) : State :=
  let s := s.modDie d (fun y => { y with teaRun := none })
  match s.holderOf d x with
  | some p => s.modCore d p (fun k => { k with queue := k.queue.filter (fun z => !(z.pos == x.pos && z.stream == x.stream && z.seq == x.seq)) })
  | none => s

/-- TCONV_COMPLETE, while Teasel's clock runs (R410). -/
def execTconvComplete (d : Die) (s : State) : Host.Outcome State Fault Refusal :=
  .next (match (s.die d).teaRun with
    | some x =>
      if s.clockRuns d islTeasel then
        (tconvComplete d x s).traceRec d.val 0x23 0x04 x.ctx.val (traceData [x.stream, x.idx, x.op])
      else s
    | none => s)

end Sys2Proof.Machine
end

