-- ==== Sys2Proof/Machine/Vector.lean ====
section
/-! DEFINITION. Vector records: VEC, NORM, RED and pooling, BOXD, NMS, SORT (R115, R526, R87, R178
to R180, R194 to R200), and how a vector result is converted, written and flagged (R85). -/

namespace Sys2Proof.Machine

/-! ### Sources -/

/-- An element of a vector source: its exact FP32 value, an INT32's exact integer (R115); an MX
element's value times its block's scale. -/
def srcElem (fmt code : Nat) (scale : Option Nat) : Src :=
  if fmt = fmFP32 then .code code
  else if isIntFmt fmt then .exact (Num.ofInt (intOf fmt code) 0)
  else match scale, (ffmtOf fmt).decode code with
    | some 0xFF, _ => .code nan32
    | _, .nan => .code nan32
    | _, .inf neg => .code (fFP32.signed neg 0x7F800000)
    | some k, .fin x => .exact (x.scale ((k : Int) - 127))
    | none, .fin x => .exact x

/-- Element (i, j) of a vector source; MX blocks run along the stored row (log 94). -/
def State.src (s : State) (l : Loc) (i j : Nat) : Src :=
  let k := if isMx l.fmt then
      some (if l.trans then s.scale l j (i / 32) else s.scale l i (j / 32))
    else none
  srcElem l.fmt (s.elem l i j) k

/-! ### Destinations -/

/-- Flags that a conversion by OUTFMT raises, for each element of a matrix of results: an MX block's
flags are those of its elements. -/
def convFlags (isInt : Bool) (outfmt shift : Nat) (rows : List (List Nat)) : List (List Fl) :=
  if outfmt = 0 ∨ (isInt ∧ outfmt = fmINT32) then rows.map (fun row => row.map (fun _ => flNone))
  else if outfmt = fmINT8 then rows.map (fun row => row.map (fun x => (convInt8 (sgn 32 x) shift).2))
  else if isMx outfmt then
    rows.map (fun row => ((groupsOf 32 row).map (fun g =>
      let f := (convMxBlock outfmt g).2.2
      g.map (fun _ => f))).flatten)
  else rows.map (fun row => row.map (fun x => (convFp (ffmtOf outfmt) x).2))

/-- Both flags of each element. -/
def zipFl (a b : List (List Fl)) : List (List Fl) :=
  (a.zip b).map (fun (x, y) => (x.zip y).map (fun (f, g) => f.or g))

/-- Writes results to a destination: converted by OUTFMT, each slot taking the flags of the elements
written into it, as an overwrite (R82, R85, R115). -/
def State.putResult (s : State) (e : Env) (ix tc : Nat) (isInt : Bool) (outfmt shift : Nat)
    (cells : List (List Res)) : State :=
  let l := s.loc e ix tc
  let vals := resCodes cells
  let o := convRows isInt outfmt shift vals
  let fl := zipFl (resFlags cells) (convFlags isInt outfmt shift vals)
  let s := s.storeMat l o.codes o.scales
  if l.space = spAcc then
    (s.putSlotFlags e.d e.p false (slotFlags ((s.opd e ix).addr % 32) l.per fl)).1.noteFl e.y.seq
      (flAll (fl.map flAll))
  else s.noteFl e.y.seq (flAll (fl.map flAll))

/-- Writes FP32 results to the vector body's OPD_Z converted to its own FORMAT (R204, R214). -/
def State.putInZ (s : State) (e : Env) (tc : Nat) (cells : List (List Res)) : State :=
  let ix := rB e.r 12 2
  let f := (s.opd e ix).fmt
  s.putResult e ix tc false (if f = fmFP32 then 0 else f) 0 cells

/-! ### VEC, R115 Table 11 -/

/-- One result of a VEC function from x, y and the immediates. The inputs of a select are y and the value it selects
(R85, log 67). -/
def vecElem (f : Nat) (x y imm imm2 : Src) : Res :=
  match f with
  | 0x01 => vAdd x y
  | 0x02 => vSub x y
  | 0x03 => vMul x y
  | 0x04 => vFma x imm y
  | 0x05 => vMin x y
  | 0x06 => vMax x y
  | 0x07 => vFma x imm imm2
  | 0x08 => vDiv x y
  | 0x09 => vExp x
  | 0x0A => vLog x
  | 0x0B => vSqrt x
  | 0x0C => vRsqrt x
  | 0x0D => vRecip x
  | 0x0E =>
    match y.val with
    | (none, f) => resNan f
    | (some v, f) =>
      let r := vKeep (if v.m = 0 then imm else x)
      (r.1, f.or r.2)
  | 0x10 => vAdd x y
  | 0x11 => vMul x y
  | 0x12 => vAdd x y
  | 0x13 => vMul x y
  | _ => ewStep (f - 0x20) x

/-- The integer forms of VEC: exact, saturating with SAT. -/
def vecInt (f : Nat) (x y : Int) : Res :=
  let (v, fl) := sat32 (match f with
    | 0x01 => x + y
    | 0x02 => x - y
    | 0x05 => min x y
    | _ => max x y)
  (unsgn 32 v, fl)

/-- Whether a VEC takes an integer form: two INT32 sources and ADD, SUB, MIN or MAX. DESIGN CHOICE (log 67): the sums with
a row or a column, FUNC 0x10 and 0x12, take FP32 forms of two INT32 sources too. -/
def vecIsInt (f fx : Nat) (fy : Option Nat) : Bool :=
  fx == fmINT32 && fy == some fmINT32 && (f == 1 || f == 2 || f == 5 || f == 6)

/-- Where y of element (i, j) lies: a row vector, a column vector, or the same place. -/
def yPlace (f i j : Nat) : Nat × Nat :=
  if f = 0x10 ∨ f = 0x11 then (0, j) else if f = 0x12 ∨ f = 0x13 then (i, 0) else (i, j)

/-- Results of a VEC. -/
def State.vecCells (s : State) (e : Env) : List (List Res) :=
  let f := vFunc e.r
  let lx := s.loc e (rB e.r 8 2) (e.t 1)
  let yNamed := named e.r 10
  let ly := s.loc e (rB e.r 10 2) (if f = 0x12 ∨ f = 0x13 then 128 else e.t 1)
  let isInt := vecIsInt f lx.fmt (if yNamed then some ly.fmt else none)
  tab (e.v 0) (fun i => tab (e.v 1) (fun j =>
    let (yi, yj) := yPlace f i j
    if isInt then vecInt f (sgn 32 (s.elem lx i j)) (sgn 32 (s.elem ly yi yj))
    else if f = 0x0F ∧ lx.fmt = fmINT32 ∧ (rOutfmt e.r = fmINT32 ∨ rOutfmt e.r = fmINT8) then
      (s.elem lx i j, flNone)
    else vecElem f (s.src lx i j) (if yNamed then s.src ly yi yj else .code 0) (.code (vImm e.r))
      (.code (vImm2 e.r))))

/-- Whether the results of a VEC are INT32 before OUTFMT. -/
def State.vecIntOut (s : State) (e : Env) : Bool :=
  let fx := (s.opd e (rB e.r 8 2)).fmt
  let fy := if named e.r 10 then some (s.opd e (rB e.r 10 2)).fmt else none
  vecIsInt (vFunc e.r) fx fy ||
    (vFunc e.r == 0x0F && fx == fmINT32 && (rOutfmt e.r == fmINT32 || rOutfmt e.r == fmINT8))

/-- The effect of a VEC. -/
def vecEffect (e : Env) (s : State) : State :=
  if isEmptyRec e.r e.y.dims then s
  else s.putResult e (rB e.r 12 2) (e.t 1) (s.vecIntOut e) (rOutfmt e.r) (rShift e.r) (s.vecCells e)

/-- VEC. -/
def execVec (d : Die) (c : LCore) (ev : RecEv) (s : State) : Host.Outcome State Fault Refusal :=
  .next (runRecord opVEC anyRec vecEffect d c ev s)

/-! ### NORM and RED -/

/-- The valid region of a source. -/
def State.srcMat (s : State) (l : Loc) (r c : Nat) : List (List Src) :=
  tab r (fun i => tab c (fun j => s.src l i j))

/-- Columns of a matrix as rows. -/
def transpose {α : Type} (d : α) (c : Nat) (m : List (List α)) : List (List α) :=
  tab c (fun j => m.map (fun row => row.getD j d))

/-- FP32 value of a small count. -/
def natSrc (n : Nat) : Src := .exact (Num.ofInt n 0)

/-- Layer norm of one row, R115. -/
def layerNorm (xs : List Src) (gamma beta : List Nat) (eps : Src) : List Res :=
  let n := natSrc xs.length
  let sum := redSum xs
  let mu := vDiv (inner sum) n
  let ds := xs.map (fun x => vSub x (inner mu))
  let sq := redSumSq (ds.map inner)
  let v := vDiv (inner sq) n
  let ve := vAdd (inner v) eps
  let r := vRsqrt (inner ve)
  let sh := flAll ([sum.2, mu.2, sq.2, v.2, ve.2, r.2] ++ ds.map (fun d => d.2))
  ds.zipIdx.map (fun (d, i) =>
    let p := vMul (inner d) (inner r)
    let y := vFma (inner p) (.code (gamma.getD i 0)) (.code (beta.getD i 0))
    (y.1, (sh.or p.2).or y.2))

/-- RMS norm of one row. -/
def rmsNorm (xs : List Src) (gamma : List Nat) (eps : Src) : List Res :=
  let sq := redSumSq xs
  let v := vDiv (inner sq) (natSrc xs.length)
  let ve := vAdd (inner v) eps
  let r := vRsqrt (inner ve)
  let sh := flAll [sq.2, v.2, ve.2, r.2]
  xs.zipIdx.map (fun (x, i) =>
    let p := vMul x (inner r)
    let y := vMul (inner p) (.code (gamma.getD i 0))
    (y.1, (sh.or p.2).or y.2))

/-- Softmax of one row. -/
def softmaxRow (xs : List Src) : List Res :=
  let m := redMax xs
  let es := xs.map (fun x =>
    let d := vSub x (inner m)
    let y := vExp (inner d)
    (y.1, d.2.or y.2))
  let t := redSum (es.map inner)
  let sh := flAll ([m.2, t.2] ++ es.map (fun x => x.2))
  es.map (fun x =>
    let y := vDiv (inner x) (inner t)
    (y.1, sh.or y.2))

/-- Parameters γ and β of a NORM: T FP32 values each from OPD_P (R526). -/
def State.normParams (s : State) (e : Env) (n : Nat) : List Nat × List Nat :=
  if named e.r 14 then
    let a := (s.loc e (rB e.r 14 2) 128).base
    let t := if vAxis e.r = 0 then e.t 1 else e.t 0
    (tab n (fun i => s.devNat (a + 4 * i) 4),
     if vFunc e.r = 1 then tab n (fun i => s.devNat (a + 4 * t + 4 * i) 4) else [])
  else ([], [])

/-- Lines of a NORM or RED: rows for AXIS 0, columns for AXIS 1 (R526). -/
def State.lines (s : State) (e : Env) : List (List Src) :=
  let m := s.srcMat (s.loc e (rB e.r 8 2) (e.t 1)) (e.v 0) (e.v 1)
  if vAxis e.r = 0 then m else transpose (.code 0) (e.v 1) m

/-- The effect of a NORM. -/
def normEffect (e : Env) (s : State) : State :=
  if isEmptyRec e.r e.y.dims then s
  else
    let ls := s.lines e
    let n := (ls.headD []).length
    let (g, b) := s.normParams e n
    let out := ls.map (fun xs =>
      if vFunc e.r = 1 then layerNorm xs g b (.code (vImm e.r))
      else if vFunc e.r = 2 then rmsNorm xs g (.code (vImm e.r))
      else softmaxRow xs)
    let cells := if vAxis e.r = 0 then out else transpose (0, flNone) (e.v 0) out
    s.putResult e (rB e.r 12 2) (e.t 1) false (rOutfmt e.r) 0 cells

/-- NORM. -/
def execNorm (d : Die) (c : LCore) (ev : RecEv) (s : State) : Host.Outcome State Fault Refusal :=
  .next (runRecord opNORM anyRec normEffect d c ev s)

/-- The reduction of a RED function. -/
def redFn (f : Nat) (xs : List Src) : Res :=
  match f with
  | 0x01 => redSum xs
  | 0x02 => redMax xs
  | 0x03 => redMin xs
  | _ => redSumSq xs

/-- The effect of a RED other than pooling: one result per row or per column. -/
def redEffect (e : Env) (s : State) : State :=
  if isEmptyRec e.r e.y.dims then s
  else
    let rs := (s.lines e).map (redFn (vFunc e.r))
    if vAxis e.r = 0 then s.putResult e (rB e.r 12 2) 128 false (rOutfmt e.r) 0 (rs.map (fun x => [x]))
    else s.putResult e (rB e.r 12 2) (e.t 1) false (rOutfmt e.r) 0 [rs]

/-- RED with FUNC 0x01 to 0x04. -/
def execRed (d : Die) (c : LCore) (ev : RecEv) (s : State) : Host.Outcome State Fault Refusal :=
  .next (runRecord opRED (fun r => decide (vFunc r < 0x10)) redEffect d c ev s)

/-! ### Pooling, R194 to R196 -/

/-- The real positions of output pixel x's window. -/
def Win.real (w : Win) (vm x : Nat) : List (Nat × Nat) :=
  (List.range w.kh).flatMap (fun fy => (List.range w.kw).filterMap (fun fx => w.pos vm x fy fx))

/-- COUNT_PAD of a pooling record. -/
def countPad (r : Nat) : Bool := bits (vImm2 r) 16 16 == 1

/-- One pooling result: +0 without a flag where the window has no real position (R195). -/
def poolCell (r : Nat) (xs : List Src) : Res :=
  if xs.isEmpty then (0, flNone)
  else if vFunc r = 0x10 then redMax xs
  else
    let t := redSum xs
    let w := poolWin r
    let y := vDiv (inner t) (natSrc (if countPad r then w.kh * w.kw else xs.length))
    (y.1, t.2.or y.2)

/-- The effect of a pooling RED. -/
def poolEffect (e : Env) (s : State) : State :=
  if isEmptyRec e.r e.y.dims then s
  else
    let w := poolWin e.r
    let vm := e.v 0
    let ch := e.v 1
    let l := s.loc e (rB e.r 8 2) (e.t 1)
    let cells := tab vm (fun x => tab ch (fun k =>
      poolCell e.r ((w.real vm x).map (fun (r, q) => s.src l r (q * ch + k)))))
    s.putResult e (rB e.r 12 2) (e.t 1) false (rOutfmt e.r) 0 cells

/-- RED with FUNC 0x10: maximum pooling. -/
def execMaxPool (d : Die) (c : LCore) (ev : RecEv) (s : State) : Host.Outcome State Fault Refusal :=
  .next (runRecord opRED (fun r => vFunc r == 0x10) poolEffect d c ev s)

/-- RED with FUNC 0x11: average pooling. -/
def execAvgPool (d : Die) (c : LCore) (ev : RecEv) (s : State) : Host.Outcome State Fault Refusal :=
  .next (runRecord opRED (fun r => vFunc r == 0x11) poolEffect d c ev s)

/-! ### BOXD, R197 -/

/-- A sequence of flagged steps: keeps the value, joins the flags. -/
def thenFl (a : Res) (g : Src → Res) : Res :=
  let b := g (inner a)
  (b.1, a.2.or b.2)

/-- min(max(v, 0), clip) when clipping is on. -/
def clipTo (clip : Nat) (v : Res) : Res :=
  if clip = 0 then v
  else thenFl (thenFl v (fun x => vMax x (.code 0))) (fun x => vMin x (natSrc clip))

/-- One axis of a box: centre and extent give both corners. -/
def boxAxis (d0 dz a0 az clamp : Src) (clip : Nat) : Res × Res :=
  let cx := vFma d0 az a0
  let bw := thenFl (thenFl (vMin dz clamp) vExp) (fun x => vMul az x)
  let half := fun (h : Nat) =>
    let y := vFma (.code h) (inner bw) (inner cx)
    clipTo clip (y.1, (cx.2.or bw.2).or y.2)
  (half 0xBF000000, half 0x3F000000)

/-- The corners of one box. -/
def boxRow (x y : List Src) (clamp : Src) (cw ch : Nat) : List Res :=
  let g := fun (l : List Src) k => l.getD k (.code 0)
  let (x1, x2) := boxAxis (g x 0) (g x 2) (g y 0) (g y 2) clamp cw
  let (y1, y2) := boxAxis (g x 1) (g x 3) (g y 1) (g y 3) clamp ch
  [x1, y1, x2, y2]

/-- The effect of a BOXD. -/
def boxdEffect (e : Env) (s : State) : State :=
  if isEmptyRec e.r e.y.dims then s
  else
    let xs := s.srcMat (s.loc e (rB e.r 8 2) 128) (e.v 0) 4
    let ys := s.srcMat (s.loc e (rB e.r 10 2) 128) (e.v 0) 4
    let cells := (xs.zip ys).map (fun (x, y) =>
      boxRow x y (.code (vImm e.r)) (vImm2 e.r % 2 ^ 16) (vImm2 e.r / 2 ^ 16))
    s.putResult e (rB e.r 12 2) 128 false 0 0 cells

/-- BOXD. -/
def execBoxd (d : Die) (c : LCore) (ev : RecEv) (s : State) : Host.Outcome State Fault Refusal :=
  .next (runRecord opBOXD anyRec boxdEffect d c ev s)

/-! ### Ordering by score -/

/-- A scored entry: FP32 score bits (none for NaN) and index. -/
structure Scored where
  score : Option Num
  bits : Nat
  ix : Nat
  deriving DecidableEq, Repr

/-- Whether `a` comes before `b`: greater score first, +0 above −0, ties to the lower index, NaN
below every number (R179, R199). -/
def Scored.before (a b : Scored) : Bool :=
  match a.score, b.score with
  | some x, some y => y.ltz x || (!x.ltz y && decide (a.ix < b.ix))
  | some _, none => true
  | none, some _ => false
  | none, none => decide (a.ix < b.ix)

/-- Inserts an entry in order. -/
def insertScored (a : Scored) : List Scored → List Scored
  | [] => [a]
  | b :: rest => if b.before a then b :: insertScored a rest else a :: b :: rest

/-- The entries in order. -/
def sortScored (l : List Scored) : List Scored := l.foldl (fun acc x => insertScored x acc) []

/-! ### SORT, R178 to R180 -/

/-- An FP32 score as an order value. DESIGN CHOICE (log 123): an infinity stays one, beyond every finite number, and sets
no SAT. -/
def scoreNum (code : Nat) : Option Num :=
  match fFP32.decode code with
  | .nan => none
  | .inf neg => some { neg, m := 1, e := 200 }
  | .fin x => some x

/-- The empty list's entries. -/
def emptyScore : Nat := 0xFF800000

/-- FP32 bits of a score of a source format. -/
def scoreBits (fmt code : Nat) : Nat := if fmt = fmBF16 then code * 2 ^ 16 else code

/-- An entry; a NaN is held as the canonical NaN. -/
def mkScored (b ix : Nat) : Scored :=
  match scoreNum b with
  | none => { score := none, bits := nan32, ix }
  | some x => { score := some x, bits := b, ix }

/-- Entries of a running list's row; the filler of a short list is no entry. -/
def State.listRow (s : State) (l : Loc) (k i : Nat) : List Scored :=
  (List.range k).filterMap (fun t =>
    let b := s.elem l i (2 * t)
    let ix := s.elem l i (2 * t + 1)
    if b = emptyScore ∧ ix = 0xFFFFFFFF then none else some (mkScored b ix))

/-- The two words of each of `k` entries, filled up with the empty score. -/
def listWords (k : Nat) (l : List Scored) : List Nat :=
  ((List.range k).map (fun t => match l[t]? with
    | some x => [x.bits, x.ix]
    | none => [emptyScore, 0xFFFFFFFF])).flatten

/-- The effect of a SORT. -/
def sortEffect (e : Env) (s : State) : State :=
  if isEmptyRec e.r e.y.dims then s
  else
    let k := vImm e.r
    let lx := s.loc e (rB e.r 8 2) (e.t 1)
    let ly := s.loc e (rB e.r 10 2) (2 * k)
    let rows := tab (e.v 0) (fun i =>
      let old := if named e.r 10 then s.listRow ly k i else []
      let new := tab (e.v 1) (fun j =>
        mkScored (scoreBits lx.fmt (s.elem lx i j)) ((vImm2 e.r + j) % 2 ^ 32))
      let out := (sortScored (old ++ new)).take k
      (out, (new ++ out).any (fun x => x.score.isNone)))
    let nan := rows.any (fun x => x.2)
    let cells := rows.map (fun x => (listWords k x.1).map (fun w => (w, ({ nan := x.2 } : Fl))))
    (s.putResult e (rB e.r 12 2) (2 * k) true 0 0 cells).noteFl e.y.seq { nan }

/-- SORT. -/
def execSort (d : Die) (c : LCore) (ev : RecEv) (s : State) : Host.Outcome State Fault Refusal :=
  .next (runRecord opSORT anyRec sortEffect d c ev s)

/-! ### NMS, R198, R199 -/

/-- A candidate: its corners, score, class and index. -/
structure Cand where
  x1 : Src
  y1 : Src
  x2 : Src
  y2 : Src
  score : Scored
  cls : Int
  deriving DecidableEq, Repr

/-- Whether two boxes overlap above the threshold, with the flags of the steps. -/
def boxesOverlap (t : Src) (a b : Cand) : Bool × Fl :=
  let zero : Src := .code 0
  let side := fun (lo1 lo2 hi1 hi2 : Src) =>
    let hi := vMin hi1 hi2
    let lo := vMax lo1 lo2
    let d := vSub (inner hi) (inner lo)
    let r := vMax zero (inner d)
    (r.1, flAll [hi.2, lo.2, d.2, r.2])
  let iw := side a.x1 b.x1 a.x2 b.x2
  let ih := side a.y1 b.y1 a.y2 b.y2
  let inter := vMul (inner iw) (inner ih)
  let area := fun (c : Cand) =>
    let w := thenFl (vSub c.x2 c.x1) (fun x => vMax zero x)
    let h := thenFl (vSub c.y2 c.y1) (fun x => vMax zero x)
    let p := vMul (inner w) (inner h)
    (p.1, flAll [w.2, h.2, p.2])
  let aa := area a
  let ab := area b
  let u1 := vAdd (inner aa) (inner ab)
  let u := vSub (inner u1) (inner inter)
  let tu := vMul t (inner u)
  let fl := flAll [iw.2, ih.2, inter.2, aa.2, ab.2, u1.2, u.2, tu.2]
  match (inner inter).val.1, (inner tu).val.1 with
  | some x, some y => (y.lt x, fl)
  | _, _ => (false, fl)

/-- Visits candidates in score order until `limit` are kept. -/
def nmsKeep (t : Src) (agnostic : Bool) (limit : Nat) : List Cand → List Cand → Fl → List Cand × Fl
  | [], kept, f => (kept, f)
  | a :: rest, kept, f =>
    if limit ≤ kept.length then (kept, f)
    else
      let rs := (kept.filter (fun b => agnostic || b.cls == a.cls)).map (fun b => boxesOverlap t a b)
      let f := f.or (flAll (rs.map (fun x => x.2)))
      if rs.any (fun x => x.1) then nmsKeep t agnostic limit rest kept f
      else nmsKeep t agnostic limit rest (kept ++ [a]) f

/-- Inserts a candidate in score order. -/
def insertCand (a : Cand) : List Cand → List Cand
  | [] => [a]
  | b :: rest => if b.score.before a.score then b :: insertCand a rest else a :: b :: rest

/-- The address after the last byte of an r × c matrix outside the slots. -/
def Loc.stop (l : Loc) (r c : Nat) : Nat :=
  let (a, b) := if l.trans then (c, r) else (r, c)
  if a = 0 ∨ b = 0 then l.base else l.base + (a - 1) * l.pitch + fmtBytes l.fmt b

/-- The effect of an NMS. The list of candidates is read by the number that OPD_P holds; a read or
write past scratchpad offset 0x7F_FFFF is an illegal address (R198). -/
def nmsEffect (e : Env) (s : State) : State :=
  let core := coreBase e.d.val e.p.val
  let lx := s.loc e (rB e.r 8 2) 128
  let ly := s.loc e (rB e.r 10 2) 128
  let lz := s.loc e (rB e.r 12 2) 128
  let lp := s.loc e (rB e.r 14 2) 128
  let n0 := s.elem lp 0 0
  let m0 := s.elem lp 0 1
  let sat := decide (65536 < n0) || decide (65536 < m0)
  let n := min n0 65536
  let limit := min m0 65536
  let thr := scoreNum (s.elem lp 0 2)
  let limAddr := core + 0x800000
  if limAddr < lx.stop 5 n ∨ limAddr < ly.stop 1 n then
    s.raise causeAddr e.d.val [e.x.ctx] limAddr
  else
    let all := tab n (fun j =>
      let el := fun k => s.elem lx k j
      (({ x1 := .code (el 0), y1 := .code (el 1), x2 := .code (el 2), y2 := .code (el 3),
          score := mkScored (el 4) j, cls := sgn 32 (s.elem ly 0 j) } : Cand),
        isNan32 (el 0) || isNan32 (el 1) || isNan32 (el 2) || isNan32 (el 3) || isNan32 (el 4)))
    let nan := all.any (fun x => x.2)
    let part := (all.filter (fun x => !x.2 &&
      decide (0 ≤ x.1.cls) && decide (x.1.cls ≤ 1023) &&
      (match x.1.score.score, thr with
       | some v, some w => !v.lt w
       | _, _ => false))).map (fun x => x.1)
    let sorted := part.foldl (fun acc x => insertCand x acc) []
    let (kept, f) := nmsKeep (.code (vImm e.r)) (vImm2 e.r % 2 == 1) limit sorted [] flNone
    let words := kept.length :: kept.map (fun x => x.score.ix)
    if limAddr < lz.stop 1 words.length then s.raise causeAddr e.d.val [e.x.ctx] limAddr
    else (s.putRow lz 0 0 words).noteFl e.y.seq (f.or { sat, nan })

/-- NMS. -/
def execNms (d : Die) (c : LCore) (ev : RecEv) (s : State) : Host.Outcome State Fault Refusal :=
  .next (runRecord opNMS anyRec nmsEffect d c ev s)

end Sys2Proof.Machine
end

