-- ==== Sys2Proof/Machine/Attention.lean ====
section
/-! DEFINITION. Attention: ATTB, its staging fill through Vetch, and ATTM (R154 to R177). -/

namespace Sys2Proof.Machine

/-! ### Fields of an attention record -/

def aFirst (r : Nat) : Bool := bits (rB r 23 1) 0 0 == 1
def aCausal (r : Nat) : Bool := bits (rB r 23 1) 1 1 == 1
def aFinal (r : Nat) : Bool := bits (rB r 23 1) 3 3 == 1
def aOslot (r : Nat) : Nat := bits (rB r 24 1) 4 0
def aMslot (r : Nat) : Nat := bits (rB r 25 1) 4 0
def aPos (r : Nat) : Int := sgn 16 (rB r 26 2)
def aScale (r : Nat) : Nat := rB r 28 4

/-- The EMPTY marker, R154. -/
def emptyMax : Nat := 0xFF800000

/-! ### Vetch, R171 to R177 -/

/-- The page a virtual address lies in. -/
def vaPage (va : Nat) : Nat := va / 65536 % 2 ^ 32

/-- A translation held for a context. -/
def State.tlbFind (s : State) (d : Die) (n : CtxId) (page : Nat) : Option TlbEnt :=
  (s.die d).tlb.find? (fun t => decide (t.ctx = n) && t.page == page)

/-- Why a walk fails: level and REASON (R176 Table 6), or an uncorrectable codeword. -/
inductive WalkRes where
  | page (addr : Nat)
  | fails (level reason : Nat)
  | memory (addr : Nat)
  deriving DecidableEq, Repr

/-- One level of a walk: reads the 64 B line of a table that holds the 8-byte entry (R175). DESIGN CHOICE (log 28): a table
outside the context's ranges fails at the level whose line is read there. -/
def State.walkStep (s : State) (n : CtxId) (level table ix : Nat) : WalkRes :=
  let a := table + 8 * ix
  let line := a / 64 * 64
  if !s.jobMay n line 64 then .fails level 3
  else match s.badIn line 64 with
    | some c => .memory c
    | none =>
      let x := s.devNat a 8
      if x % 2 = 0 then .fails level 0
      else if bits x 63 48 ≠ 0 ∨ bits x 13 1 ≠ 0 then .fails level 1
      else
        let t := bits x 47 14 * 2 ^ 14
        if level = 3 ∧ t % 65536 ≠ 0 then .fails level 2
        else if level = 3 ∧ !s.jobMay n t 65536 then .fails level 3
        else .page t

/-- The lines that a walk reads, level by level, up to the one at which it ends. -/
def State.walkReads (s : State) (n : CtxId) (root va : Nat) : List (Nat × Nat) :=
  let line := fun (t ix : Nat) => ((t + 8 * ix) / 64 * 64, 64)
  line root (bits va 47 38) ::
    (match s.walkStep n 1 root (bits va 47 38) with
     | .page t2 => line t2 (bits va 37 27) ::
       (match s.walkStep n 2 t2 (bits va 37 27) with
        | .page t3 => [line t3 (bits va 26 16)]
        | _ => [])
     | _ => [])

/-- The three levels of a walk, R171. -/
def State.walk (s : State) (n : CtxId) (root va : Nat) : WalkRes :=
  match s.walkStep n 1 root (bits va 47 38) with
  | .page t2 =>
    match s.walkStep n 2 t2 (bits va 37 27) with
    | .page t3 => s.walkStep n 3 t3 (bits va 26 16)
    | r => r
  | r => r

/-- Places a translation: the lowest invalid way of its set, else the way at the set's pointer,
which advances modulo 8 (R175). -/
def State.tlbPut (s : State) (d : Die) (n : CtxId) (page addr : Nat) : State :=
  s.modDie d (fun x =>
    let set := page % 64
    let inSet := x.tlb.filter (fun t => t.set == set)
    match (List.range 8).find? (fun w => !inSet.any (fun t => t.way == w)) with
    | some w => { x with tlb := x.tlb ++ [⟨set, w, n, page, addr⟩] }
    | none =>
      let w := SMap.getD x.tlbPtr set 0
      { x with
        tlb := x.tlb.filter (fun t => !(t.set == set && t.way == w)) ++ [⟨set, w, n, page, addr⟩]
        tlbPtr := SMap.put x.tlbPtr set ((w + 1) % 8) })

/-- VETCH_WALK_DONE: an outstanding walk ends in a translation, or in an illegal address that Vetch
records first (R175, R176); its reads count, with the corrected errors at addresses `ce` (R289, R315). HIF receives
the virtual address (log 28). DESIGN CHOICE (log 28): the address recorded is the page's, with bits 15:0 zero. -/
def vetchWalkDone (d : Die) (n : CtxId) (page : Nat) (ce : List Nat) (s : State) : State :=
  let root := SMap.getD (s.die d).roots n.val 0
  let va := page * 65536
  let lines := (s.walkReads n root va).filter (fun r => s.jobMay n r.1 r.2)
  let s := ((s.countRuns false lines).chargeRuns n (some d) lines).countCes lines ce
  let s := s.modDie d (fun x => { x with walks := x.walks.filter (fun w => w != (n, page)) })
  match s.walk n root va with
  | .page a => s.tlbPut d n page a
  | .memory a => s.raise causeMem d.val [n] a
  | .fails level reason =>
    let s := s.setReg .vetFaultAddr d.val 0 0 (BitVec.ofNat 64 va)
    let s := s.setReg .vetFaultInfo d.val 0 0 (BitVec.ofNat 64 (n.val * 1024 + level * 256 + reason))
    s.raise causeAddr d.val [n] va

/-- VETCH_WALK_DONE; a walk waits for stopped islands on its way (R19), and for a takeover of its Newel (R438). -/
def execVetchWalkDone (d : Die) (n : CtxId) (va : Nat) (s : State) (ce : List Nat := []) : Host.Outcome State Fault Refusal :=
  .next (if (s.die d).walks.contains (n, vaPage va) && s.newelUp d &&
      (s.walkReads n (SMap.getD (s.die d).roots n.val 0) (vaPage va * 65536)).all (fun r =>
        s.memRuns (some d) r.1 r.2) then
      vetchWalkDone d n (vaPage va) ce s
    else s)

/-- Virtual address of token `t` of a paged operand, R170. -/
def tokenVa (o : Opd) (t : Nat) : Nat := o.addr + t * 128 * (fmtHalfBytes o.fmt / 2)

/-- Pages that the valid tokens of a paged operand touch. -/
def pagesOf (o : Opd) (kv : Nat) : List Nat :=
  if kv = 0 then []
  else
    let a := o.addr / 65536
    let b := (tokenVa o kv - 1) / 65536
    tab (b + 1 - a) (fun k => (a + k) % 2 ^ 32)

/-- The next paged ATTB of a core whose fill has not run, with everything before it on the move
unit issued (R61, R173). -/
def State.fillNext (s : State) (d : Die) (c : LCore) : Option Env :=
  match s.phys d c with
  | none => none
  | some p =>
    match (s.core d p).queue.find? (fun x => x.paged && !x.staged) with
    | none => none
    | some x => s.envOf d p x

/-- Staging slots of keys and values as keys of the issue rules. -/
def State.stageKeys (s : State) (e : Env) : List Nat :=
  let nk := stageSlots (e.t 1) (s.opd e (rB e.r 10 2)).fmt
  let nv := stageSlots (e.t 1) (s.opd e (rB e.r 12 2)).fmt
  tab (nk + nv) (fun k => slotKey (aMslot e.r + 1 + k))

/-- Bytes of the valid tokens as runs of device memory. -/
def State.stageRuns (s : State) (e : Env) (o : Opd) (kv : Nat) : List (Nat × Nat) :=
  tab kv (fun j => match s.tlbFind e.d e.x.ctx (vaPage (tokenVa o j)) with
    | some t => (t.addr + tokenVa o j % 65536, 128 * (fmtHalfBytes o.fmt / 2))
    | none => (0, 0))

/-- Runs of device memory that a fill reads with the translations held now. -/
def State.fillRuns (s : State) (e : Env) : List (Nat × Nat) :=
  (s.stageRuns e (s.opd e (rB e.r 10 2)) (e.v 1) ++ s.stageRuns e (s.opd e (rB e.r 12 2)) (e.v 1)).filter
    (fun r => r.2 != 0)

/-- Whether a fill may run: the move unit's earlier records have issued, no BAR or WAIT before it is
open, no uncompleted record reads or writes its slots (R61, R62), and the ways to its pages are open (R19). -/
def State.fillMay (s : State) (e : Env) : Bool :=
  let before := s.earlierOn e
  let keys := s.stageKeys e
  s.dieIssues e && s.coreIssues e && s.fnIs (.vetch e.d) .on && s.newelUp e.d &&
    before.all (fun z => z.op != opBAR && z.op != opWAIT) &&
    before.all (fun z => decide (z.st = .issued) || !s.takes e.d z .move) &&
    before.all (fun z => match s.envOf e.d e.p z with
      | some f => let g := s.foot f; !meets (g.1 ++ g.2) keys
      | none => true) &&
    (s.fillRuns e).all (fun r => s.memRuns (some e.d) r.1 r.2)

/-- Copies the valid tokens of one paged operand to a byte place in the accumulator store, zero
beyond them, up to the tile extent (R173). -/
def State.stageCopy (s : State) (e : Env) (o : Opd) (dst kv : Nat) : State :=
  let w := 128 * (fmtHalfBytes o.fmt / 2)
  (List.range (e.t 1)).foldl (fun s' j =>
    let src := if j < kv then
        match s.tlbFind e.d e.x.ctx (vaPage (tokenVa o j)) with
        | some t => s.devRead (t.addr + tokenVa o j % 65536) w
        | none => List.replicate w 0
      else List.replicate w 0
    s'.devWrite (dst + j * w) src) s

/-- The copy of a fill whose pages are all translated; its slots are overwritten (R49). -/
def stageFill (e : Env) (s : State) : State :=
  let ok := s.opd e (rB e.r 10 2)
  let ov := s.opd e (rB e.r 12 2)
  let kv := e.v 1
  let nk := stageSlots (e.t 1) ok.fmt
  let nv := stageSlots (e.t 1) ov.fmt
  let base := coreBase e.d.val e.p.val + 0x800000
  let m := aMslot e.r
  let w := fun (o : Opd) => e.t 1 * 128 * (fmtHalfBytes o.fmt / 2)
  guarded e (s.stageRuns e ok kv ++ s.stageRuns e ov kv) [] (fun s =>
    let s := s.clearLines e.d e.p [(base + 0x10000 * (m + 1), w ok), (base + 0x10000 * (m + 1 + nk), w ov)]
    let s := s.stageCopy e ok (base + 0x10000 * (m + 1)) kv
    let s := s.stageCopy e ov (base + 0x10000 * (m + 1 + nk)) kv
    let s := (s.putSlotFlags e.d e.p false (tab (nk + nv) (fun k => (m + 1 + k, flNone)))).1
    s.modPlaced e.d e.p e.x.pos (fun x => { x with staged := true })) s

/-- STAGING_FILL: asks Vetch for the block's pages, walking for those not in the buffer, up to 16
walks at once, and copies when all are translated (R173, R175). `parity` of the entries it finds
have a parity error and are discarded; `ce` names corrected errors of what it copies. DESIGN CHOICE (log 122): the fill
of an empty record runs too. -/
def stagingFill (e : Env) (parity : Nat) (ce : List Nat) (s : State) : State :=
  let n := e.x.ctx
  let pages := dedupKeep (pagesOf (s.opd e (rB e.r 10 2)) (e.v 1) ++ pagesOf (s.opd e (rB e.r 12 2)) (e.v 1))
  let found := pages.filter (fun g => (s.tlbFind e.d n g).isSome)
  let bad := found.take parity
  let s := if bad.isEmpty then s
    else (s.bump .vetParityCount e.d.val 0 bad.length).modDie e.d (fun x =>
      { x with tlb := x.tlb.filter (fun t => !(decide (t.ctx = n) && bad.contains t.page)) })
  let hit := found.filter (fun g => !bad.contains g)
  let miss := (pages.filter (fun g => !hit.contains g)).filter (fun g => !(s.die e.d).walks.contains (n, g))
  let room := 16 - (s.die e.d).walks.length
  let s := if e.x.asked then s else s.bump .vetHits e.d.val 0 hit.length
  let s := (s.bump .vetMisses e.d.val 0 (miss.take room).length).modDie e.d (fun x =>
    { x with walks := x.walks ++ (miss.take room).map (fun g => (n, g)) })
  let s := s.modPlaced e.d e.p e.x.pos (fun x => { x with asked := true })
  if pages.all (fun g => hit.contains g) then stageFill e (s.countCes (s.fillRuns e) ce) else s

/-- STAGING_FILL. -/
def execStagingFill (d : Die) (c : LCore) (parity : Nat) (s : State) (ce : List Nat := []) : Host.Outcome State Fault Refusal :=
  .next (match s.fillNext d c with
    | some e => if s.fillMay e then stagingFill e parity ce s else s
    | none => s)

/-! ### ATTB, R155 to R161 -/

/-- The running state of a row: maximum, sum, and 128 outputs, as FP32 codes. -/
structure AttRow where
  m : Nat
  l : Nat
  o : List Nat
  deriving DecidableEq, Repr

/-- A row's new state with the flags of M_SLOT and of the output slot. -/
structure AttOut where
  row : AttRow
  mFl : Fl := {}
  oFl : Fl := {}
  deriving DecidableEq, Repr

/-- An output element kept, −0 becoming +0 (R159). -/
def plusZero (c : Nat) : Nat := if c = 2 ^ 31 then 0 else c

/-- One row of an ATTB, R158: `scores` holds none where masked, and `vs` the columns of V. -/
def attbRow (w group run : Nat) (st : AttRow) (scores : List (Option Res)) (vs : List (List Nat)) : AttOut :=
  let live := scores.filterMap id
  if live.isEmpty then { row := { st with o := st.o.map plusZero } }
  else
    let scFl := flAll (live.map (fun x => x.2))
    let b := redMax (live.map inner)
    let mNew := if st.m = emptyMax then b else vMax (.code st.m) (inner b)
    let alpha := if st.m = emptyMax then ((0, flNone) : Res)
      else thenFl (vSub (.code st.m) (inner mNew)) vExp
    let ps := scores.map (fun x => match x with
      | none => ((0, flNone) : Res)
      | some r =>
        let y := thenFl (vSub (inner r) (inner mNew)) vExp
        let z := convFp (ffmtOf w) y.1
        (z.1, y.2.or z.2))
    let pFl := flAll (ps.map (fun x => x.2))
    let pCodes := ps.map (fun x => x.1)
    let t := redSum (pCodes.map (fun c => srcElem w c none))
    let l := vFma (inner alpha) (.code st.l) (inner t)
    let os := st.o.zipIdx.map (fun (c, k) =>
      let sc := vMul (inner alpha) (.code c)
      let y := dotFp w w group run sc.1 (pCodes.zip (vs.getD k []))
      (y.1, sc.2.or y.2))
    let rowFl := flAll [scFl, b.2, mNew.2, alpha.2, pFl]
    { row := { m := mNew.1, l := l.1, o := os.map (fun x => x.1) }
      mFl := flAll [rowFl, t.2, l.2]
      oFl := rowFl.or (flAll (os.map (fun x => x.2))) }

/-- Where keys or values lie: the operand, or the staging slots from a first slot (R173). -/
def State.kvLoc (s : State) (e : Env) (ix first : Nat) : Loc :=
  let o := s.opd e ix
  if e.x.paged then
    { space := spScratch, base := coreBase e.d.val e.p.val + 0x800000 + 0x10000 * first,
      pitch := 128 * (fmtHalfBytes o.fmt / 2), fmt := o.fmt, trans := false, per := 1, sbase := 0, spitch := 0 }
  else s.loc e ix 128

/-- The running state of row `i` in its slots, R154. -/
def State.attState (s : State) (e : Env) (i : Nat) : AttRow :=
  let core := coreBase e.d.val e.p.val
  let m := slotLoc core (aMslot e.r) 128
  let o := slotLoc core (aOslot e.r) 128
  { m := s.elem m (i % 128) (2 * (i / 128)), l := s.elem m (i % 128) (2 * (i / 128) + 1),
    o := tab 128 (fun c => s.elem o i c) }

/-- Writes the running state of rows. -/
def State.putAtt (s : State) (e : Env) : List (AttRow × Nat) → State
  | [] => s
  | (r, i) :: rest =>
    let core := coreBase e.d.val e.p.val
    let m := slotLoc core (aMslot e.r) 128
    let o := slotLoc core (aOslot e.r) 128
    let s := (s.putElem m (i % 128) (2 * (i / 128)) r.m).putElem m (i % 128) (2 * (i / 128) + 1) r.l
    State.putAtt (s.putRow o i 0 r.o) e rest

/-- Whether key j is masked for row i before any bias, R156. -/
def keyMasked (r i j : Nat) : Bool := aCausal r && decide ((i : Int) < 128 * aPos r + j)

/-- A bias taken exactly to FP32; +∞ in BF16 is replaced by the largest finite value of BF16 with SAT (R36, R157). -/
def biasSrc (fmt code : Nat) : Src × Fl :=
  if fmt = fmBF16 ∧ fBF16.decode code = .inf false then (.exact (fBF16.maxNum false), flSat)
  else (srcElem fmt code none, flNone)

/-- The score of one key: scaled, with its bias; none when the bias is −∞ (R156, R157). -/
def scoreOf (scale : Nat) (dot : Res) (bias : Option (Src × Fl)) : Option Res :=
  match bias with
  | none =>
    let y := vMul (.code scale) (inner dot)
    some (y.1, dot.2.or y.2)
  | some b =>
    match b.1 with
    | .code 0xFF800000 => none
    | _ =>
      let y := vFma (.code scale) (inner dot) b.1
      some (y.1, (dot.2.or b.2).or y.2)

/-- Flags of the slots of an attention record: M_SLOT and the output slot of each row band. -/
def attSlotFl (r : Nat) (outs : List AttOut) : List (Nat × Fl) :=
  (aMslot r, flAll (outs.map (fun x => x.mFl))) ::
    tab (ceilDiv outs.length 128) (fun b =>
      (aOslot r + b, flAll (((outs.drop (128 * b)).take 128).map (fun x => x.oFl))))

/-- The slots of an attention record: M_SLOT and the output slots of its full tile (R154). -/
def attAllSlots (e : Env) : List Nat := aMslot e.r :: tab (e.t 0 / 128) (fun b => aOslot e.r + b)

/-- The rows an ATTB computes. -/
def State.attbRows (s : State) (e : Env) : List AttOut :=
  let kv := e.v 1
  let lq := s.loc e (rB e.r 8 2) 128
  let okf := (s.opd e (rB e.r 10 2)).fmt
  let lk := s.kvLoc e (rB e.r 10 2) (aMslot e.r + 1)
  let lv := s.kvLoc e (rB e.r 12 2) (aMslot e.r + 1 + stageSlots (e.t 1) okf)
  let lb := s.loc e (rB e.r 14 2) (e.t 1)
  let hasBias := named e.r 14
  let ks := tab kv (fun j => s.rowA lk 128 j)
  let vs := tab 128 (fun c => tab kv (fun j => s.elem lv j c))
  tab (e.v 0) (fun i =>
    let q := s.rowA lq 128 i
    let scores := ks.zipIdx.map (fun (k, j) =>
      if keyMasked e.r i j then none
      else scoreOf (aScale e.r) (productCell lq.fmt lk.fmt (rGroup e.r) (rRun e.r) 0 q k [] [])
        (if hasBias then some (biasSrc lb.fmt (s.elem lb i j)) else none))
    let st : AttRow := if aFirst e.r then { m := emptyMax, l := 0, o := List.replicate 128 0 }
      else s.attState e i
    attbRow lv.fmt (rGroup e.r) (rRun e.r) st scores vs)

/-- The effect of an ATTB: slots written once, at its end (R161). -/
def attbEffect (e : Env) (s : State) : State :=
  if isEmptyRec e.r e.y.dims then s
  else
    let lb := s.loc e (rB e.r 14 2) (e.t 1)
    let reads := if named e.r 14 then lb.inRuns (e.v 0) (e.v 1) else []
    guarded e reads [] (fun s =>
      let outs := s.attbRows e
      let s := s.putAtt e ((outs.map (fun x => x.row)).zipIdx)
      let (s, f) := s.putSlotFlags e.d e.p (!aFirst e.r) (attSlotFl e.r outs)
      s.noteFl e.y.seq (if aFirst e.r then f else s.heldFl e.d e.p (attAllSlots e))) s

/-- ATTB. -/
def execAttb (d : Die) (c : LCore) (ev : RecEv) (s : State) : Host.Outcome State Fault Refusal :=
  .next (runRecord opATTB anyRec attbEffect d c ev s)

/-! ### ATTM, R163 to R166 -/

/-- NAN where one of the codes is a NaN. -/
def nanFl (l : List Nat) : Fl := { sat := false, nan := l.any isNan32 }

/-- Merges the peer's row into the own, R164. -/
def attmRow (a b : AttRow) : AttOut :=
  if b.m = emptyMax then { row := a }
  else if a.m = emptyMax then { row := b, mFl := nanFl [b.m, b.l], oFl := nanFl (b.m :: b.o) }
  else
    let m := vMax (.code a.m) (.code b.m)
    let aa := thenFl (vSub (.code a.m) (inner m)) vExp
    let ab := thenFl (vSub (.code b.m) (inner m)) vExp
    let la := vMul (inner aa) (.code a.l)
    let l := vFma (inner ab) (.code b.l) (inner la)
    let os := (a.o.zip b.o).map (fun (x, y) =>
      let p := vMul (inner aa) (.code x)
      let z := vFma (inner ab) (.code y) (inner p)
      (z.1, p.2.or z.2))
    let rowFl := flAll [m.2, aa.2, ab.2]
    { row := { m := m.1, l := l.1, o := os.map (fun x => x.1) }
      mFl := flAll [rowFl, la.2, l.2]
      oFl := rowFl.or (flAll (os.map (fun x => x.2))) }

/-- Place of the peer's statistics of row `i`: the image of M_SLOT columns 0 to 15 behind the output
rows, with a pitch of 64 B (R163). -/
def peerStat (l : Loc) (tq i : Nat) : Nat := l.base + tq * l.pitch + (i % 128) * 64 + 8 * (i / 128)

/-- The peer's row `i`. -/
def State.peerRow (s : State) (l : Loc) (tq i : Nat) : AttRow :=
  { m := s.devNat (peerStat l tq i) 4, l := s.devNat (peerStat l tq i + 4) 4,
    o := tab 128 (fun c => s.devNat (l.base + i * l.pitch + 4 * c) 4) }

/-- The normalised output of a row: +0 without a flag when it is EMPTY (R166). -/
def finalRow (r : AttRow) : List Res :=
  if r.m = emptyMax then r.o.map (fun _ => (0, flNone)) else r.o.map (fun c => vDiv (.code c) (.code r.l))

/-- The effect of an ATTM. It writes in accumulate mode and so reports the flags its slots hold, with OPD_Q 0xFFFF too
(R50, R164, log 93). -/
def attmEffect (e : Env) (s : State) : State :=
  if isEmptyRec e.r e.y.dims then s
  else
    let vq := e.v 0
    let lq := s.loc e (rB e.r 8 2) 128
    let hasPeer := named e.r 8
    let lo := s.loc e (rB e.r 16 2) 128
    let reads := if hasPeer then
        lq.outer (tab vq (fun i => (lq.base + i * lq.pitch, 512)) ++ tab vq (fun i => (peerStat lq (e.t 0) i, 8)))
      else []
    guarded e reads (if aFinal e.r then lo.outRuns vq 128 else []) (fun s =>
      let outs := tab vq (fun i =>
        if hasPeer then attmRow (s.attState e i) (s.peerRow lq (e.t 0) i) else { row := s.attState e i })
      let s := if hasPeer then s.putAtt e ((outs.map (fun x => x.row)).zipIdx) else s
      let s := (s.putSlotFlags e.d e.p true (attSlotFl e.r outs)).1
      let s := s.noteFl e.y.seq (s.heldFl e.d e.p (attAllSlots e))
      if aFinal e.r then
        let res := outs.map (fun x => finalRow x.row)
        let o := convRows false (rOutfmt e.r) 0 (resCodes res)
        (s.storeMat lo o.codes o.scales).noteFl e.y.seq ((flAll ((resFlags res).map flAll)).or o.fl)
      else s) s

/-- ATTM. -/
def execAttm (d : Die) (c : LCore) (ev : RecEv) (s : State) : Host.Outcome State Fault Refusal :=
  .next (runRecord opATTM anyRec attmEffect d c ev s)

end Sys2Proof.Machine
end

