-- ==== Sys2Proof/Machine/Training.lean ====
section
/-! DEFINITION. Training records: QSCL and DQSC (R57 to R60, R227), GNRM (R209 to R214) and RNGM with
its counter-based generator (R202 to R207). -/

namespace Sys2Proof.Machine

/-! ### QSCL and DQSC -/

/-- The bucket element index of element (i, j), R227. -/
def bucketIx (r i j : Nat) : Nat :=
  if vAxis r = 0 then vImm r + i * vImm2 r + j else vImm r + j * vImm2 r + i

/-- Address of the scale bytes that OPD_P names. -/
def State.paramBase (s : State) (e : Env) : Nat := (s.loc e (rB e.r 14 2) 128).base

/-- The scale E of a bucket element: the signed byte of its scale block. -/
def State.scaleExp (s : State) (e : Env) (x : Nat) : Int :=
  sgn 8 (s.devNat (s.paramBase e + x / 4096) 1)

/-- The effect of QSCL FUNC 0x01: FP32 to RI32 against the block scales (R58). -/
def quantEffect (e : Env) (s : State) : State :=
  if isEmptyRec e.r e.y.dims then s
  else
    let l := s.loc e (rB e.r 8 2) (e.t 1)
    let cells := tab (e.v 0) (fun i => tab (e.v 1) (fun j =>
      qscl (s.elem l i j) (s.scaleExp e (bucketIx e.r i j))))
    s.putResult e (rB e.r 12 2) (e.t 1) true 0 0 cells

/-- QSCL FUNC 0x01. -/
def execQsclQuantise (d : Die) (c : LCore) (ev : RecEv) (s : State) : Host.Outcome State Fault Refusal :=
  .next (runRecord opQSCL (fun r => vFunc r == 0x01) quantEffect d c ev s)

/-- The exponent of one counted element: none for zero and NaN; an infinity is replaced (R227). -/
def scanExp (x : Src) : Option Int × Fl :=
  match x.val with
  | (none, _) => (none, flNone)
  | (some x, f) => (if x.m = 0 then none else some (leadExp x.m 1 x.e), f)

/-- The largest of the exponents of a list, none when nothing counts. -/
def expMax (l : List (Option Int)) : Option Int :=
  l.foldl (fun acc x => match acc, x with
    | some a, some b => some (max a b)
    | none, y => y
    | y, none => y) none

/-- The effect of QSCL FUNC 0x02: each scale block's exponent byte takes the larger of itself and the
block's clamped exponent (R227). -/
def scanEffect (e : Env) (s : State) : State :=
  if isEmptyRec e.r e.y.dims then s
  else
    let l := s.loc e (rB e.r 8 2) (e.t 1)
    let z := (s.loc e (rB e.r 12 2) 128).base
    let els := (tab (e.v 0) (fun i => tab (e.v 1) (fun j =>
      (bucketIx e.r i j / 4096, scanExp (s.src l i j))))).flatten
    let blocks := dedupKeep (els.map (fun x => x.1))
    let s := blocks.foldl (fun s b =>
      match expMax ((els.filter (fun x => x.1 == b)).map (fun x => x.2.1)) with
      | none => s
      | some v =>
        let w := max (max (-127) (min 127 v)) (sgn 8 (s.devNat (z + b) 1))
        s.devWrite (z + b) (toLe 1 (unsgn 8 w))) s
    s.noteFl e.y.seq (flAll (els.map (fun x => x.2.2)))

/-- QSCL FUNC 0x02. -/
def execQsclExpScan (d : Die) (c : LCore) (ev : RecEv) (s : State) : Host.Outcome State Fault Refusal :=
  .next (runRecord opQSCL (fun r => vFunc r == 0x02) scanEffect d c ev s)

/-- The effect of DQSC: RI64 to FP32 against the block scales (R60). -/
def dqscEffect (e : Env) (s : State) : State :=
  if isEmptyRec e.r e.y.dims then s
  else
    let l := s.loc e (rB e.r 8 2) (e.t 1)
    let cells := tab (e.v 0) (fun i => tab (e.v 1) (fun j =>
      dqsc (s.elem l i j) (s.scaleExp e (bucketIx e.r i j))))
    s.putResult e (rB e.r 12 2) (e.t 1) false 0 0 cells

/-- DQSC. -/
def execDqsc (d : Die) (c : LCore) (ev : RecEv) (s : State) : Host.Outcome State Fault Refusal :=
  .next (runRecord opDQSC anyRec dqscEffect d c ev s)

/-! ### GNRM -/

/-- E_N of the norm parameter block, R209. -/
def State.normExp (s : State) (e : Env) : Int := sgn 8 (s.devNat (s.paramBase e) 1)

/-- The largest norm partial. -/
def normMax : Nat := 2 ^ 38 - 1

/-- A norm partial of FP32 codes: the integer and its SAT and NaN markers (R210 steps 1 to 4). -/
def normPartial (en : Int) (codes : List Nat) : Nat × Bool × Bool :=
  match srcVals (codes.map Src.code) with
  | (none, _) => (0, false, true)
  | (some xs, _) =>
    let q := Num.sum (xs.map (fun x => x.mul x))
    let v := roundTo q.m 1 (q.e + 38 - en) 0
    if normMax < v then (normMax, true, false) else (v, false, false)

/-- Marker word: SAT has weight 1 and NaN weight 2^32. -/
def marks (sat nan : Bool) : Nat := (if sat then 1 else 0) + (if nan then 2 ^ 32 else 0)

/-- The effect of GNRM FUNC 0x01, R210; an empty record writes nothing (R110). -/
def gnrmPartialEffect (e : Env) (s : State) : State :=
  if isEmptyRec e.r e.y.dims then s
  else
    let l := s.loc e (rB e.r 8 2) (e.t 1)
    let z := s.loc e (rB e.r 12 2) 128
    let (v, sat, nan) := normPartial (s.normExp e) (s.mat l (e.v 0) (e.v 1)).flatten
    if vImm e.r % 2 = 0 then s.putRow z 0 0 [v, marks sat nan]
    else
      let w := sgn 64 (s.elem z 0 0) + v
      let sat := sat || decide ((normMax : Int) < w)
      s.putRow z 0 0 [unsgn 64 (min w normMax), s.elem z 0 1 ||| marks sat nan]

/-- GNRM FUNC 0x01. -/
def execGnrmPartial (d : Die) (c : LCore) (ev : RecEv) (s : State) : Host.Outcome State Fault Refusal :=
  .next (runRecord opGNRM (fun r => vFunc r == 0x01) gnrmPartialEffect d c ev s)

/-- NEXT_EN, R213. -/
def nextEn (en : Int) (sum : Int) (marksW : Nat) : Int :=
  if marksW / 2 ^ 32 ≠ 0 then en
  else if marksW % 2 ^ 32 ≠ 0 then min 127 (en + 16)
  else if sum = 0 then en
  else max (-128) (min 127 ((Nat.log2 sum.natAbs : Int) + en - 38 + 2))

/-- The clip factor from the norm and MAX_NORM, R212: 1 when the norm is within it, the canonical
NaN when MAX_NORM is NaN or not positive. -/
def clipFactor (norm : Res) (maxNorm : Nat) : Res :=
  match fFP32.operand maxNorm, fFP32.operand norm.1 with
  | (some m, f), (some n, _) =>
    if m.neg || m.m == 0 then resNan flNone
    else if m.lt n then vDiv (.code maxNorm) (inner norm) else (0x3F800000, f)
  | _, _ => resNan flNone

/-- The four words of a norm finish with their flags, R212. -/
def normFinish (en : Int) (sum : Int) (marksW maxNorm : Nat) : List Nat × Fl :=
  let sat : Fl := { sat := decide (marksW % 2 ^ 32 ≠ 0) }
  let w3 := unsgn 32 (nextEn en sum marksW)
  if marksW / 2 ^ 32 ≠ 0 then ([nan32, nan32, nan32, w3], sat.or flNan)
  else
    let g := res32 (Num.ofInt sum (en - 38)) flNone
    let n := vSqrt (inner g)
    let c := clipFactor n maxNorm
    ([g.1, n.1, c.1, w3], flAll [sat, g.2, n.2, c.2])

/-- The effect of GNRM FUNC 0x02; a slot that it writes takes the flags as an overwrite (R49, R82, R85). -/
def gnrmFinishEffect (e : Env) (s : State) : State :=
  if isEmptyRec e.r e.y.dims then s
  else
    let x := s.loc e (rB e.r 8 2) 128
    let z := s.loc e (rB e.r 12 2) 128
    let (ws, f) := normFinish (s.normExp e) (sgn 64 (s.elem x 0 0)) (s.elem x 0 1)
      (s.devNat (s.paramBase e + 4) 4)
    let s := s.putRow z 0 0 ws
    let s := if z.space = spAcc then
        (s.putSlotFlags e.d e.p false [((s.opd e (rB e.r 12 2)).addr % 32, f)]).1
      else s
    s.noteFl e.y.seq f

/-- GNRM FUNC 0x02. -/
def execGnrmFinish (d : Die) (c : LCore) (ev : RecEv) (s : State) : Host.Outcome State Fault Refusal :=
  .next (runRecord opGNRM (fun r => vFunc r == 0x02) gnrmFinishEffect d c ev s)

/-- The effect of GNRM FUNC 0x03: each element times the clip factor, word 2 of OPD_Y (R214). -/
def gnrmClipEffect (e : Env) (s : State) : State :=
  if isEmptyRec e.r e.y.dims then s
  else
    let l := s.loc e (rB e.r 8 2) (e.t 1)
    let c := s.elem (s.loc e (rB e.r 10 2) 128) 0 2
    s.putInZ e (e.t 1) (tab (e.v 0) (fun i => tab (e.v 1) (fun j => vMul (s.src l i j) (.code c))))

/-- GNRM FUNC 0x03. -/
def execGnrmClip (d : Die) (c : LCore) (ev : RecEv) (s : State) : Host.Outcome State Fault Refusal :=
  .next (runRecord opGNRM (fun r => vFunc r == 0x03) gnrmClipEffect d c ev s)

/-! ### RNGM -/

/-- One round of Philox-4x32, R202. -/
def philoxRound (c : Nat × Nat × Nat × Nat) (k : Nat × Nat) : Nat × Nat × Nat × Nat :=
  let (c0, c1, c2, c3) := c
  let p0 := 0xD2511F53 * c0
  let p1 := 0xCD9E8D57 * c2
  ((p1 / 2 ^ 32) ^^^ c1 ^^^ k.1, p1 % 2 ^ 32, (p0 / 2 ^ 32) ^^^ c3 ^^^ k.2, p0 % 2 ^ 32)

/-- `n` rounds with the key schedule. -/
def philoxRounds : Nat → Nat × Nat × Nat × Nat → Nat × Nat → Nat × Nat × Nat × Nat
  | 0, c, _ => c
  | n + 1, c, k =>
    philoxRounds n (philoxRound c k) ((k.1 + 0x9E3779B9) % 2 ^ 32, (k.2 + 0xBB67AE85) % 2 ^ 32)

/-- Philox-4x32-10. -/
def philox (c : Nat × Nat × Nat × Nat) (k : Nat × Nat) : Nat × Nat × Nat × Nat := philoxRounds 10 c k

/-- The key block of R204 Table 1. -/
structure KeyBlock where
  seed : Nat
  step : Nat
  layer : Nat
  lcols : Nat
  drop : Nat
  scale : Nat
  deriving DecidableEq, Repr

/-- The key block that OPD_P names. -/
def State.keyBlock (s : State) (e : Env) : KeyBlock :=
  let a := s.paramBase e
  { seed := s.devNat a 8, step := s.devNat (a + 8) 8, layer := s.devNat (a + 0x10) 2,
    lcols := s.devNat (a + 0x14) 4, drop := s.devNat (a + 0x18) 4, scale := s.devNat (a + 0x1C) 4 }

/-- The word of an element index below 2^48, R203. -/
def elementWord (k : KeyBlock) (x : Nat) : Nat :=
  let q := x / 4
  let w := philox (q % 2 ^ 32, k.layer * 2 ^ 16 + bits q 45 32, k.step % 2 ^ 32, k.step / 2 ^ 32)
    (k.seed % 2 ^ 32, k.seed / 2 ^ 32)
  match x % 4 with
  | 0 => w.1
  | 1 => w.2.1
  | 2 => w.2.2.1
  | _ => w.2.2.2

/-- The element index of element (i, j), none out of range: LCOLS 0 puts every element out of range
(R204, R205, R207). -/
def rngIndex (r : Nat) (k : KeyBlock) (i j : Nat) : Option Nat :=
  let (row, col) := if vAxis r = 0 then (vImm r + i, vImm2 r + j) else (vImm r + j, vImm2 r + i)
  let x := row * k.lcols + col
  if k.lcols = 0 ∨ 2 ^ 48 ≤ x then none else some x

/-- One element of RNGM FUNC 0x01, R206: NaN stays NaN, dropped or kept. -/
def rngApply (k : KeyBlock) (ix : Option Nat) (x : Src) : Res :=
  match ix with
  | none => (0, flSat)
  | some n =>
    if elementWord k n < k.drop then
      match x.val.1 with
      | none => resNan flNone
      | some _ => (0, flNone)
    else vMul x (.code k.scale)

/-- The effect of RNGM FUNC 0x01. -/
def rngmApplyEffect (e : Env) (s : State) : State :=
  if isEmptyRec e.r e.y.dims then s
  else
    let l := s.loc e (rB e.r 8 2) (e.t 1)
    let k := s.keyBlock e
    s.putInZ e (e.t 1) (tab (e.v 0) (fun i => tab (e.v 1) (fun j =>
      rngApply k (rngIndex e.r k i j) (s.src l i j))))

/-- RNGM FUNC 0x01. -/
def execRngmApply (d : Die) (c : LCore) (ev : RecEv) (s : State) : Host.Outcome State Fault Refusal :=
  .next (runRecord opRNGM (fun r => vFunc r == 0x01) rngmApplyEffect d c ev s)

/-- The effect of RNGM FUNC 0x02: the raw words. -/
def rngmRawEffect (e : Env) (s : State) : State :=
  if isEmptyRec e.r e.y.dims then s
  else
    let k := s.keyBlock e
    s.putResult e (rB e.r 12 2) (e.t 1) true 0 0 (tab (e.v 0) (fun i => tab (e.v 1) (fun j =>
      match rngIndex e.r k i j with
      | none => (0, flSat)
      | some n => (elementWord k n, flNone))))

/-- RNGM FUNC 0x02. -/
def execRngmRaw (d : Die) (c : LCore) (ev : RecEv) (s : State) : Host.Outcome State Fault Refusal :=
  .next (runRecord opRNGM (fun r => vFunc r == 0x02) rngmRawEffect d c ev s)

end Sys2Proof.Machine
end

