-- ==== Sys2Proof/Machine/Moves.lean ====
section
/-! DEFINITION. Move records LOAD, STORE, PREF, ROT and HALO (R116 to R122, R193), and the sync
records BAR, WAIT and SIGNAL with the barrier watchdog (R123 to R128). -/

namespace Sys2Proof.Machine

/-! ### Moving a matrix -/

/-- Rows of scale bytes of a stored matrix: one for each stored row (R116). -/
def State.scaleRowsOf (s : State) (l : Loc) (r c : Nat) : List (List Nat) :=
  let (a, b) := if l.trans then (c, r) else (r, c)
  tab a (fun i => tab (ceilDiv b 32) (fun k => s.scale l i k))

/-- Codes and scales as a move carries them from a source to a destination, bits unchanged (R35,
R116). -/
def State.moveMat (s : State) (src dst : Loc) (r c : Nat) : State :=
  let codes := s.mat src r c
  let scales := s.scaleRowsOf src r c
  let s := s.putRows dst 0 codes
  let s := if isMx src.fmt then s.putScales dst 0 scales else s
  (dst.inRuns r c).foldl (fun s (a, n) => s.clearBad a n) s

/-- Bytes that runs cover. -/
def runBytes (l : List (Nat × Nat)) : Nat := natSum (l.map (fun r => r.2))

/-- Bytes of an r × c matrix with its scales as a move carries it. -/
def Loc.moveBytes (l : Loc) (r c : Nat) : Nat :=
  if l.space = spAcc then fmtBytes l.fmt (r * c) else runBytes (l.allRuns r c)

/-- Counts bytes moved (MOVE_BYTES, R481). -/
def State.countMove (s : State) (d : Die) (n : Nat) : State :=
  s.modCtr d (fun c => { c with moveBytes := c.moveBytes + n })

/-- The flags of slots that a move overwrites clear (R49, R116). -/
def State.clearSlots (s : State) (e : Env) (l : Loc) (first r c : Nat) : State :=
  if l.space = spAcc then
    (s.putSlotFlags e.d e.p false ((slotsOf first r c l.per).map (fun k => (k % 32, flNone)))).1
  else s

/-! ### LOAD, PREF, STORE -/

/-- The effect of a LOAD or PREF. -/
def loadEffect (e : Env) (s : State) : State :=
  if isEmptyRec e.r e.y.dims then s
  else
    let src := s.loc e (rB e.r 8 2) (e.t 1)
    let dst := s.loc e (rB e.r 10 2) (e.t 1)
    guarded e (src.inRuns (e.v 0) (e.v 1)) [] (fun s =>
      let s := s.moveMat src dst (e.v 0) (e.v 1)
      let s := s.clearSlots e dst ((s.opd e (rB e.r 10 2)).addr % 32) (e.v 0) (e.v 1)
      s.countMove e.d (src.moveBytes (e.v 0) (e.v 1))) s

/-- LOAD. -/
def execLoad (d : Die) (c : LCore) (ev : RecEv) (s : State) : Host.Outcome State Fault Refusal :=
  .next (runRecord opLOAD anyRec loadEffect d c ev s)

/-- PREF. -/
def execPref (d : Die) (c : LCore) (ev : RecEv) (s : State) : Host.Outcome State Fault Refusal :=
  .next (runRecord opPREF anyRec loadEffect d c ev s)

/-- The effect of a STORE: from the scratchpad bits unchanged, from slots through the output path
(R112, R113, R116). -/
def storeEffect (e : Env) (s : State) : State :=
  if isEmptyRec e.r e.y.dims then s
  else
    let src := s.loc e (rB e.r 8 2) (e.t 1)
    let dst := s.loc e (rB e.r 10 2) (e.t 1)
    let r := e.v 0
    let c := e.v 1
    if src.space = spAcc then
      guarded e [] (dst.outRuns r c) (fun s =>
        let o := outPath (src.fmt == fmINT32) none (rEw e.r) false (rOutfmt e.r) (rShift e.r) (s.mat src r c)
        ((s.storeMat dst o.codes o.scales).noteFl e.y.seq o.fl).countMove e.d (dst.moveBytes r c)) s
    else
      guarded e [] (dst.inRuns r c) (fun s =>
        (s.moveMat src dst r c).countMove e.d (src.moveBytes r c)) s

/-- STORE. -/
def execStore (d : Die) (c : LCore) (ev : RecEv) (s : State) : Host.Outcome State Fault Refusal :=
  .next (runRecord opSTORE anyRec storeEffect d c ev s)

/-! ### ROT and HALO -/

/-- PEER and PEER_DIE of a ROT or HALO. -/
def rPeer (r : Nat) : Nat := rB r 17 1
def rPeerDie (r : Nat) : Nat := bits (rB r 18 1) 2 0

/-- DIR of a record: 0 send, 1 receive. -/
def isSend (r : Nat) : Bool := bits (rB r 18 1) 7 7 == 0
def isReceive (r : Nat) : Bool := bits (rB r 18 1) 7 7 == 1

/-- The effect of a receive that issues: it grants a credit to its sender and waits for the data
(R122 step 1). -/
def receiveEffect (e : Env) (s : State) : State :=
  let s := s.modPlaced e.d e.p e.x.pos (fun x => { x with data := false })
  { s with credits := s.credits ++ [{ op := e.x.op, seq := e.x.seq, rDie := e.d, rStream := e.x.stream,
                                      sDie := ⟨rPeerDie e.r % 8, Nat.mod_lt _ (by decide)⟩,
                                      sStream := rPeer e.r, pos := e.x.pos }] }

/-- Whether a credit is for a sending record: the k-th send from a to b pairs with the k-th receive on
b from a, of the same opcode (R121). -/
def creditFor (e : Env) (k : Credit) : Bool :=
  k.op == e.x.op && k.seq == e.x.seq && decide (k.sDie = e.d) && k.sStream == e.x.stream &&
    k.rDie.val == rPeerDie e.r && k.rStream == rPeer e.r

/-- The credit that has arrived for a sending record. -/
def State.creditOf (s : State) (e : Env) : Option Credit := s.credits.find? (creditFor e)

/-- A stream's logical core, R342. -/
def streamCore (k : Nat) : Option LCore := if h : k < 28 then some ⟨k, h⟩ else none

/-- The record at a place of a stream's core, with its environment. -/
def State.recordAt (s : State) (d : Die) (stream seq pos : Nat) : Option Env :=
  match streamCore stream with
  | none => none
  | some c =>
    match s.phys d c with
    | none => none
    | some p =>
      match (s.core d p).queue.find? (fun x => x.pos == pos && x.seq == seq) with
      | none => none
      | some x => s.envOf d p x

/-- The effect of a send that issues with its credit: the data move into the receiver's destination
and both records may complete (R122 steps 3 and 4). Slots that a ROT overwrites lose their flags (R49, R82). -/
def sendEffect (e : Env) (s : State) : State :=
  match s.creditOf e with
  | none => s
  | some k =>
    match s.recordAt k.rDie k.rStream k.seq k.pos with
    | none => s
    | some f =>
      let src := s.loc e (rB e.r 8 2) (e.t 1)
      let dst := s.loc f (rB f.r 10 2) (f.t 1)
      let s := if isEmptyRec e.r e.y.dims then s
        else ((s.moveMat src dst (e.v 0) (e.v 1)).countMove e.d (src.moveBytes (e.v 0) (e.v 1))).clearLines f.d f.p
          (s.opdRuns f true)
      let s := if isEmptyRec e.r e.y.dims then s
        else s.clearSlots f dst ((s.opd f (rB f.r 10 2)).addr % 32) (e.v 0) (e.v 1)
      let s := s.modPlaced f.d f.p f.x.pos (fun x => { x with data := true })
      { s with credits := s.credits.erase k }

/-- Whether a send's credit has arrived and the receiver's core takes what it sends (R122 step 2, R19). -/
def State.sendOpen (s : State) (e : Env) : Bool :=
  match s.creditOf e with
  | none => false
  | some k =>
    match s.recordAt k.rDie k.rStream k.seq k.pos with
    | none => true
    | some f => s.clockRuns f.d (islCore f.p) && s.pathRuns (s.diePath e.d.val f.d.val)

/-- A sending ROT or HALO issues once its credit has arrived (R122 step 2). -/
def runSend (op : Nat) (d : Die) (c : LCore) (ev : RecEv) (s : State) : State :=
  match s.candidate d c .move with
  | none => s
  | some e => if s.sendOpen e then runOn .move op isSend sendEffect d c ev s else s

/-- ROT, sending. -/
def execRotSend (d : Die) (c : LCore) (ev : RecEv) (s : State) : Host.Outcome State Fault Refusal :=
  .next (runSend opROT d c ev s)

/-- ROT, receiving. -/
def execRotReceive (d : Die) (c : LCore) (s : State) : Host.Outcome State Fault Refusal :=
  .next (runOn .move opROT isReceive receiveEffect d c {} s true)

/-- HALO, sending. -/
def execHaloSend (d : Die) (c : LCore) (ev : RecEv) (s : State) : Host.Outcome State Fault Refusal :=
  .next (runSend opHALO d c ev s)

/-- HALO, receiving. -/
def execHaloReceive (d : Die) (c : LCore) (s : State) : Host.Outcome State Fault Refusal :=
  .next (runOn .move opHALO isReceive receiveEffect d c {} s true)

/-! ### Sync records, R101 Table 9 -/

def syncId (r : Nat) : Nat := rB r 8 2
def barScope (r : Nat) : Nat := rB r 10 1
def waitConsume (r : Nat) : Bool := bits (rB r 11 1) 0 0 == 1
def barCount (r : Nat) : Nat := rB r 12 2
def syncValue (r : Nat) : Nat := rB r 16 4

/-- Whether every record placed before a record on its core has completed; with its effects at issue,
their writes have arrived (R123, R125). -/
def State.allBefore (s : State) (e : Env) : Bool := (s.earlierOn e).isEmpty

/-- Whether every record placed before has issued (R125). -/
def State.allIssued (s : State) (e : Env) : Bool :=
  (s.earlierOn e).all (fun z => decide (z.st = .issued))

/-- The core's next sync record when it is of an opcode and passes `ok`. -/
def State.syncNext (s : State) (op : Nat) (d : Die) (c : LCore) (ok : State → Env → Bool) : Option Env :=
  (s.candidate d c .sync).filter (fun e => e.x.op == op && s.mayIssue e && ok s e)

/-! ### BAR -/

/-- Whether a generation is that of a BAR: its DISPATCH, ID and number (R123). -/
def genOf (e : Env) (g : BarGen) : Bool :=
  g.seq == e.x.seq && g.id == syncId e.r % 64 && g.gen == e.x.gen

/-- A BAR issues and joins its generation. -/
def barIssue (e : Env) (s : State) : State :=
  let me := (e.d.val, e.x.stream)
  (s.markIssued e).modCtx e.x.ctx (fun c =>
    if c.bars.any (genOf e) then
      { c with bars := updIf c.bars (genOf e) (fun g => { g with issued := g.issued ++ [me] }) }
    else { c with bars := c.bars ++ [{ id := syncId e.r % 64, seq := e.x.seq,
                                       die := if barScope e.r = 0 then some e.d else none,
                                       gen := e.x.gen, issued := [me], count := barCount e.r }] })

/-- BAR: issues once the earlier records of its core have completed (R123). -/
def execBar (d : Die) (c : LCore) (s : State) : Host.Outcome State Fault Refusal :=
  .next (match s.syncNext opBAR d c State.allBefore with
    | some e => barIssue e s
    | none => s)

/-- The issued BAR of a generation on a participant's core. -/
def State.barRecord (s : State) (g : BarGen) (m : Nat × Nat) : Option Env :=
  if h : m.1 < 8 then
    match streamCore m.2 with
    | none => none
    | some c =>
      match s.phys ⟨m.1, h⟩ c with
      | none => none
      | some p =>
        match (s.core ⟨m.1, h⟩ p).queue.find? (fun x =>
            x.op == opBAR && decide (x.st = .issued) && x.seq == g.seq && x.gen == g.gen &&
              syncId x.raw.toNat % 64 == g.id) with
        | none => none
        | some x => s.envOf ⟨m.1, h⟩ p x
  else none

/-- A complete generation of a context with an ID that a stream of a die has joined, its DISPATCH
running, its BARs on their cores and Newel up on their dies (R438). -/
def State.barReady (s : State) (n : CtxId) (d : Die) (id : Nat) : Option BarGen :=
  (s.ctx n).bars.find? (fun g => g.id == id && g.issued.any (fun m => m.1 == d.val) &&
    decide (g.count ≤ g.issued.length) && s.recovery.isNone &&
    g.issued.all (fun m => s.newelUp ⟨m.1 % 8, Nat.mod_lt _ (by decide)⟩) &&
    (match s.disp g.seq with
     | some y => decide (y.st = .running)
     | none => false) &&
    g.issued.all (fun m => (s.barRecord g m).isSome))

/-- All COUNT participants have issued: every participant's BAR completes (R123). -/
def barGenerationComplete (n : CtxId) (g : BarGen) (s : State) : State :=
  let s := g.issued.foldl (fun s m => match s.barRecord g m with
    | some e => s.markDone e
    | none => s) s
  let s := s.modCtx n (fun c => { c with bars := c.bars.erase g })
  (dedupKeep (g.issued.map (fun m => m.1))).foldl (fun s d =>
    s.traceRec d 0x20 0x05 n.val (traceData [g.id, g.gen])) s

/-- BAR_GENERATION_COMPLETE. -/
def execBarGenerationComplete (n : CtxId) (d : Die) (id : Fin 64) (s : State) :
    Host.Outcome State Fault Refusal :=
  .next (match s.barReady n d id.val with
    | some g => barGenerationComplete n g s
    | none => s)

/-! ### WAIT -/

/-- WAIT: issues when everything placed before has issued (R125). -/
def execWait (d : Die) (c : LCore) (s : State) : Host.Outcome State Fault Refusal :=
  .next (match s.syncNext opWAIT d c State.allIssued with
    | some e => s.markIssued e
    | none => s)

/-- The issued WAIT or BAR of a core. -/
def State.waiting (s : State) (d : Die) (c : LCore) (op : Nat) : Option Env :=
  match s.phys d c with
  | none => none
  | some p =>
    match (s.core d p).queue.find? (fun x => x.op == op && decide (x.st = .issued)) with
    | none => none
    | some x => s.envOf d p x

/-- The value of the semaphore that a WAIT or SIGNAL names. -/
def State.semNamed (s : State) (e : Env) : Nat :=
  s.sem e.x.ctx (bits (syncId e.r) 10 8) (bits (syncId e.r) 7 0)

/-- Whether the WAIT of a core may complete: the value is reached, its context and the die's Newel run (R438). -/
def State.waitMet (s : State) (d : Die) (c : LCore) : Bool :=
  match s.waiting d c opWAIT with
  | some e => decide (syncValue e.r ≤ s.semNamed e) && decide (e.y.st = .running) && s.recovery.isNone &&
      s.newelUp d
  | none => false

/-- The core that the semaphores of a die grant next, with the new pointer (R126, R21). -/
def State.semGrant (s : State) (d : Die) : Option (Nat × Nat) :=
  arbitrate (fun i => if h : i < 28 then s.waitMet d ⟨i, h⟩ else false) (SMap.getD s.arb.sem d.val 0) 28

/-- A waiting WAIT completes; with CONSUME the value is subtracted in the same step (R125). -/
def waitSatisfied (e : Env) (q : Nat) (s : State) : State :=
  let id := syncId e.r
  let v := s.semNamed e - (if waitConsume e.r then syncValue e.r else 0)
  let s := s.setSem e.x.ctx (bits id 10 8) (bits id 7 0) v
  let s := { s with arb := { s.arb with sem := SMap.put s.arb.sem e.d.val q } }
  (s.markDone e).traceRec e.d.val e.x.stream 0x06 e.x.ctx.val (traceData [bits id 10 0, v])

/-- WAIT_SATISFIED: for the core that the arbiter grants. -/
def execWaitSatisfied (d : Die) (c : LCore) (s : State) : Host.Outcome State Fault Refusal :=
  .next (match s.waiting d c opWAIT, s.semGrant d with
    | some e, some (i, q) => if i = c.val then waitSatisfied e q s else s
    | _, _ => s)

/-! ### SIGNAL and the watchdog -/

/-- SIGNAL: adds VALUE to the named semaphore; past 2^32 − 1 a job fault (R125). -/
def signalIssue (e : Env) (s : State) : State :=
  let id := syncId e.r
  match (s.markIssued e).semAdd e.x.ctx (bits id 10 8) (bits id 7 0) (syncValue e.r) with
  | (s, true) => s.markDone e
  | (s, false) => s

/-- Whether a SIGNAL may act: all before it has completed, and the Newel of the semaphore's die runs (R14, R438). -/
def State.signalMay (s : State) (e : Env) : Bool :=
  s.allBefore e && s.newelUp ⟨bits (syncId e.r) 10 8 % 8, Nat.mod_lt _ (by decide)⟩

/-- SIGNAL. -/
def execSignal (d : Die) (c : LCore) (s : State) : Host.Outcome State Fault Refusal :=
  .next (match s.syncNext opSIGNAL d c State.signalMay with
    | some e => signalIssue e s
    | none => s)

/-- Whether an issued BAR's generation is complete. -/
def State.barDone (s : State) (e : Env) : Bool :=
  (s.ctx e.x.ctx).bars.any (fun g => genOf e g && decide (g.count ≤ g.issued.length))

/-- Whether a context is running: a DISPATCH of it holds dies (R523). -/
def State.ctxRuns (s : State) (n : CtxId) : Bool :=
  s.disps.any (fun y => decide (y.ctx = n) && decide (y.st = .running))

/-- Whether a placed record is an issued BAR or WAIT. -/
def Placed.syncWait (x : Placed) : Bool := (x.op == opBAR || x.op == opWAIT) && decide (x.st = .issued)

/-- The issued BARs and WAITs of a logical core: on the core, and those that pre-emption has taken off it. -/
def State.syncWaits (s : State) (d : Die) (c : LCore) : List Env :=
  match s.phys d c with
  | none => []
  | some p => (((s.core d p).queue ++ s.disps.flatMap (fun y => SMap.getD y.parked (28 * d.val + c.val) [])).filter
      Placed.syncWait).filterMap (fun x => s.envOf d p x)

/-- Whether an issued BAR or WAIT may complete now. -/
def State.syncDone (s : State) (d : Die) (c : LCore) (e : Env) : Bool :=
  if e.x.op == opBAR then s.barDone e
  else s.waitMet d c && ((s.waiting d c opWAIT).map (fun z => (z.x.seq, z.x.pos))) == some (e.x.seq, e.x.pos)

/-- A BAR or WAIT that has waited W of its context's running time and cannot complete now; completion prevails in the same
cycle (R127). -/
def State.watchdogOver (s : State) (d : Die) (c : LCore) : Option Env :=
  (s.syncWaits d c).find? (fun e =>
    decide (e.y.watchdogMs * 10 ^ 6 ≤ e.x.waited) && s.ctxRuns e.x.ctx && !s.syncDone d c e)

/-- BARRIER_WATCHDOG: a job fault of the context (R127). -/
def execBarrierWatchdog (d : Die) (c : LCore) (s : State) : Host.Outcome State Fault Refusal :=
  .next (match s.watchdogOver d c with
    | some e => s.raise causeWatchdog d.val [e.x.ctx] 0
    | none => s)

end Sys2Proof.Machine
end

