-- ==== Sys2Proof/Machine/Replay.lean ====
section
/-! DEFINITION. The replay of a discarded run or of the record a retirement interrupted (R71, R72,
R74). -/

namespace Sys2Proof.Machine

/-- The effect of a record that checksums or residues check, by opcode. -/
def effectOf (e : Env) (s : State) : State :=
  let op := e.x.op
  let f := vFunc e.r
  if op = opATTB then attbEffect e s
  else if op = opATTM then attmEffect e s
  else if op = opTCONV then tconvEffect e s
  else if unitOf op = .array ∨ op = opMV then arrayEffect e s
  else if op = opVEC then vecEffect e s
  else if op = opNORM then normEffect e s
  else if op = opRED then (if f < 0x10 then redEffect e s else poolEffect e s)
  else if op = opSORT then sortEffect e s
  else if op = opNMS then nmsEffect e s
  else if op = opBOXD then boxdEffect e s
  else if op = opQSCL then (if f = 1 then quantEffect e s else scanEffect e s)
  else if op = opDQSC then dqscEffect e s
  else if op = opGNRM then
    (if f = 1 then gnrmPartialEffect e s else if f = 2 then gnrmFinishEffect e s else gnrmClipEffect e s)
  else if op = opRNGM then (if f = 1 then rngmApplyEffect e s else rngmRawEffect e s)
  else if op = opSTORE then storeEffect e s
  else s

/-- The record whose run a core is to replay: its repair has ended, the core serves, and its clock runs (R410). -/
def State.replayNext (s : State) (d : Die) (c : LCore) : Option Env :=
  match s.phys d c with
  | none => none
  | some p =>
    let k := s.core d p
    match k.replay with
    | none => none
    | some pos =>
      if k.stopped || k.retireTo.isSome || s.recovery.isSome || !s.clockRuns d (islCore p) then none
      else match k.queue.find? (fun x => x.pos == pos) with
        | none => none
        | some x => s.envOf d p x

/-- The replay of the record from the run that mismatched: its bits and flags stand; the same run mismatching again
retires the core, and a later run of the record takes its own action and replay (R71, R72). -/
def runReplay (e : Env) (ev : RecEv) (s : State) : State :=
  withEcc e ev (fun s =>
    let done := fun (s : State) => effClear effectOf e
      ((s.modPlaced e.d e.p e.x.pos (fun x => { x with data := true })).modCore e.d e.p
        (fun k => { k with replay := none, replayRun := 0 }))
    let run := (s.core e.d e.p).replayRun
    match ev.csum with
    | some m =>
      if csumChecked e.x.op && csumAction m != 0 && decide (run ≤ m.run) then csumMismatch e m (m.run == run) s
      else done s
    | none =>
      if s.residueChecked e = false ∨ ev.residue = 0 then done s
      else if ev.residue = 1 then done (s.countReplay e.d e.p)
      else residueRetire e s) (s.countReplay e.d e.p)

/-- RUN_REPLAY. -/
def execRunReplay (d : Die) (c : LCore) (ev : RecEv) (s : State) : Host.Outcome State Fault Refusal :=
  .next (match s.replayNext d c with
    | some e => runReplay e ev s
    | none => s)

end Sys2Proof.Machine
end

