-- ==== Sys2Proof/Machine/Plans.lean ====
section
/-! DEFINITION. Plan images (R131 to R135) and the loader's checks of operand descriptors and records
(R101 to R107, R113, R142, R181, R201, R221, R250, R524): codes 0x0020 to 0x0054. -/

namespace Sys2Proof.Machine

/-- Bytes of an image as a reader of little-endian numbers at an offset. -/
abbrev Img := Nat → Nat → Nat

/-- A check: the code of the failing check, the offset of the failing field in its structure, and the
operand descriptor's index (0xFFFF none); none when it passes. -/
abbrev Chk := Option (Nat × Nat × Nat)

/-- A failing check of a field at an offset. -/
def failAt (b : Bool) (code off : Nat) (opd : Nat := 0xFFFF) : Chk := if b then some (code, off, opd) else none

/-- The first failing check of a list of checks made one by one. -/
def firstFail {α : Type} (l : List α) (f : α → Chk) : Chk := l.findSome? f

/-! ### Operand descriptors' own fields -/

/-- Whether a format code is defined for a descriptor, R105 Table 4. -/
def fmtDefined (f : Nat) : Bool := decide (1 ≤ f) && decide (f ≤ 0x0E)

/-- ADDR bits that must be zero, R102. -/
def addrReserved (space addr : Nat) : Bool :=
  if space = spScratch then decide (addr / 2 ^ 23 ≠ 0)
  else if space = spAcc then decide (addr / 2 ^ 5 ≠ 0) else decide (addr / 2 ^ 48 ≠ 0)

/-- Checks 0x0022, 0x0028 and 0x0029 of a descriptor's own fields (R102, R103, R105, R143). -/
def descCheck (o : Nat) : Chk :=
  let x := Opd.ofNat o
  let mx := isMx x.fmt
  failAt (addrReserved x.space x.addr) 0x0022 0 <|>
  failAt (!mx && x.scale != 0) 0x0022 8 <|>
  failAt (!mx && x.spitch != 0) 0x0022 20 <|>
  failAt (!fmtDefined x.fmt) 0x0022 24 <|>
  failAt (decide (3 < x.space) || bits (rB o 25 1) 3 3 != 0) 0x0022 25 <|>
  failAt (decide (1 < rB o 26 1)) 0x0022 26 <|>
  failAt (rB o 27 5 != 0) 0x0022 27 <|>
  failAt (x.space != spAcc && x.base == 0 && x.addr % 64 != 0) 0x0028 0 <|>
  failAt (x.space != spAcc && x.base == 0 && x.scale % 64 != 0) 0x0028 8 <|>
  failAt (if x.space = spAcc then x.pitch != 0 else x.pitch % 64 != 0) 0x0028 16 <|>
  failAt (mx && x.spitch % 32 != 0) 0x0028 20 <|>
  failAt (x.base != 0 && (x.space == spScratch || x.space == spAcc)) 0x0029 25

/-! ### Record header and body fields, 0x0020 -/

/-- Header fields an opcode uses, R101 Table 2, as a mask of bytes 1 to 6. -/
def headerMask (op : Nat) : Nat :=
  let stat := 0x3
  let group := 0xC
  let zfill := 0x20
  let bias := 0x80
  let run := 0x1FFF00
  let outfmt := 0xFF000000
  let ew := 0xFF00000000
  let shift := 0x1F0000000000
  if op = opMM ∨ op = opCONV then 0x1FFFFF1FFFFF
  else if op = opMV then 0x1FFFFF1FFFFF - stat
  else if op = opATTB then group + run
  else if op = opATTM ∨ op = opNORM ∨ op = opRED then outfmt
  else if op = opVEC then outfmt + shift
  else if op = opTCONV then group + run + zfill + bias + outfmt + ew + shift
  else if op = opSTORE then outfmt + ew + shift
  else 0

/-- Fields of a body that an opcode and FUNC leave unused or reserved, as (byte offset, bytes, mask)
(R101, R115, Tables 5 to 9). Conditions that an owning chapter's check names are left to it (log 32). -/
def bodyZero (r : Nat) : List (Nat × Nat × Nat) :=
  let op := rOp r
  let f := vFunc r
  match opGroup op with
  | some .array =>
    [(24, 1, 0xC0), (25, 1, if op = opTCONV then 0xFF else 0xE0)] ++
      (if op = opCONV ∨ op = opTCONV then [(28, 1, 0xC0), (29, 1, 0xC0)] else [(26, 5, 0xFFFFFFFFFF)]) ++
      [(31, 1, 0xFF)]
  | some .attention =>
    (if op = opATTM then [(20, 2, 0xFFFF), (22, 1, 0xFC)] else [(22, 1, 0xF0)]) ++
      [(23, 1, 0xF0), (24, 1, 0xE0), (25, 1, 0xE0)] ++
      (if op = opATTM then [(26, 6, 0xFFFFFFFFFFFF)] else [])
  | some .vector =>
    let own := op == opQSCL || op == opDQSC || op == opGNRM || op == opRNGM
    let pool := op == opRED && decide (0x10 ≤ f)
    let axis := if own then 0
      else if op = opNORM ∨ op = opRED then 0xFE else 0xFF
    let imm := op == opSORT || op == opNMS || op == opBOXD || own || pool ||
      (op == opVEC && (f == 0x04 || f == 0x07 || f == 0x0E)) || (op == opNORM && (f == 1 || f == 2))
    let imm2 := op == opSORT || op == opNMS || op == opBOXD || (own && !(op == opGNRM && f == 1)) || pool ||
      (op == opVEC && f == 0x07)
    [(20, 1, 0xF0), (22, 1, axis), (23, 1, 0xFF)] ++ (if imm then [] else [(24, 4, 0xFFFFFFFF)]) ++
      (if imm2 then [] else [(28, 4, 0xFFFFFFFF)])
  | some .move =>
    [(16, 1, 0xF0)] ++
      (if op = opROT ∨ op = opHALO then [(18, 1, 0x78)] else if op = opRACC then [(18, 1, 0x78)]
       else [(17, 1, 0xFF), (18, 1, 0xFF)]) ++
      [(19, 1, 0xFF)] ++ (if op = opRACC then [] else [(20, 4, 0xFFFFFFFF)]) ++ [(24, 8, 0xFFFFFFFFFFFFFFFF)]
  | some .sync =>
    [(8, 2, if op = opBAR then 0xFFC0 else 0xF800)] ++ (if op = opBAR then [] else [(10, 1, 0xFF)]) ++
      [(11, 1, if op = opWAIT then 0xFE else 0xFF)] ++ (if op = opBAR then [] else [(12, 2, 0xFFFF)]) ++
      [(14, 2, 0xFFFF)] ++ (if op = opBAR then [(16, 4, 0xFFFFFFFF)] else []) ++
      [(20, 12, 0xFFFFFFFFFFFFFFFFFFFFFFFF)]
  | none => []

/-- FUNC values of VEC, R115 Table 11. -/
def vecFuncOk (f : Nat) : Bool :=
  (decide (1 ≤ f) && decide (f ≤ 0x13)) || (decide (0x21 ≤ f) && decide (f ≤ 0x26))

/-- Undefined values of fields, as (fails, byte offset). -/
def undefinedValues (r : Nat) (die : Nat) : List (Bool × Nat) :=
  let op := rOp r
  let f := vFunc r
  let run := rRun r
  [(rStat r == 3, 1), (rGroup r == 3 || (op == opTCONV && rGroup r != 2), 1),
   (run != 0 && (decide (run < 16) || decide (4096 < run) || run % 16 != 0), 2),
   (decide (0x0E < rOutfmt r), 4), (decide (6 < rEw r), 5)] ++
  (if op = opVEC then [(!vecFuncOk f, 21)]
   else if op = opNORM then [(f == 0 || decide (3 < f), 21), (f == 1 && vAxis r != 0, 22)]
   else if op = opRED then [(!((decide (1 ≤ f) && decide (f ≤ 4)) || f == 0x10 || f == 0x11), 21)]
   else if op = opROT ∨ op = opHALO then [(decide (27 < rPeer r), 17)]
   else if op = opBAR then
     [(decide (1 < barScope r), 10), (barCount r == 0 || decide (224 < barCount r), 12)]
   else if op = opWAIT then [(bits (syncId r) 10 8 != die, 8)]
   else if op = opSIGNAL then [(syncValue r == 0, 16)]
   else [])

/-- Check 0x0020, R101: an undefined opcode, a reserved or unused field that is not zero, or an
undefined value. -/
def check20 (r die : Nat) : Chk :=
  let op := rOp r
  if (opGroup op).isNone then some (0x0020, 0, 0xFFFF)
  else
    firstFail (List.range 6) (fun k =>
      let set := rB r (k + 1) 1 &&& (0xFF - rB (headerMask op) k 1)
      failAt (set != 0) 0x0020 (if k = 2 ∧ set % 32 ≠ 0 then 2 else k + 1)) <|>
    failAt (rB r 7 1 != 0) 0x0020 7 <|>
    firstFail (bodyZero r) (fun (o, n, m) => failAt (rB r o n &&& m != 0) 0x0020 o) <|>
    firstFail (undefinedValues r die) (fun (b, o) => failAt b 0x0020 o)

/-! ### Named operands, 0x0021 -/

/-- Whether a record must, may or must not name an operand; `own` leaves it to an owning chapter's
check. -/
inductive Need where
  | req
  | opt
  | no
  | own
  deriving DecidableEq, Repr

/-- VEC functions that take OPD_Y. -/
def vecTakesY (f : Nat) : Bool :=
  (decide (1 ≤ f) && decide (f ≤ 6)) || f == 8 || f == 0x0E || (decide (0x10 ≤ f) && decide (f ≤ 0x13))

/-- A need by a condition. -/
def needIf (b : Bool) : Need := if b then .req else .no

/-- The operand fields of a record with their needs (Tables 5 to 9, R115 and the owning chapters). -/
def needs (r : Nat) : List (Nat × Need) :=
  let op := rOp r
  let f := vFunc r
  match opGroup op with
  | some .array =>
    [(8, .req), (10, .req), (12, if op = opTCONV then .req else .opt), (14, needIf (rBias r)),
     (16, needIf (rRowstat r))]
  | some .attention =>
    if op = opATTB then [(8, .req), (10, .req), (12, .req), (14, .opt), (16, .own)]
    else [(8, .opt), (10, .no), (12, .no), (14, .no), (16, if aFinal r then .req else .own)]
  | some .vector =>
    if op = opVEC then [(8, .req), (10, needIf (vecTakesY f)), (12, .req), (14, .no)]
    else if op = opNORM then [(8, .req), (10, .no), (12, .req), (14, needIf (f == 1 || f == 2))]
    else if op = opRED then [(8, .req), (10, .no), (12, .req), (14, .no)]
    else if op = opSORT then [(8, .req), (10, .opt), (12, .req), (14, .no)]
    else if op = opNMS then [(8, .req), (10, .req), (12, .req), (14, .req)]
    else if op = opBOXD then [(8, .req), (10, .req), (12, .req), (14, .no)]
    else if op = opQSCL ∨ op = opDQSC then [(8, .req), (10, .own), (12, .req), (14, .req)]
    else if op = opGNRM then
      [(8, .req), (10, needIf (f == 3)), (12, .req), (14, needIf (f != 3))]
    else [(8, if f = 2 then .own else .req), (10, .own), (12, .req), (14, .req)]
  | some .move =>
    if op = opROT ∨ op = opHALO then
      [(8, needIf (isSend r)), (10, needIf (isReceive r))]
    else [(8, .req), (10, .req)]
  | _ => []

/-- Check 0x0021. -/
def check21 (r opdCount : Nat) : Chk :=
  firstFail (needs r) (fun (o, n) =>
    let ix := rB r o 2
    failAt (ix != noOpd && decide (opdCount ≤ ix)) 0x0021 o ix <|>
    failAt (decide (n = .req) && ix == noOpd) 0x0021 o <|>
    failAt (decide (n = .no) && ix != noOpd) 0x0021 o ix)

/-! ### Spaces and formats, 0x0022 and 0x0023 -/

/-- A descriptor of a table by index. -/
abbrev OpdTab := Nat → Opd

/-- The operand fields a record names. -/
def namedFields (r : Nat) : List Nat :=
  ((needs r).filter (fun x => rB r x.1 2 != noOpd)).map (fun x => x.1)

/-- Spaces an operand field may take; none where an owning chapter's check decides (Tables 5 to 8,
R88, R114, R116). -/
def spacesOf (r o : Nat) : Option (List Nat) :=
  let op := rOp r
  match opGroup op with
  | some .array =>
    if op = opTCONV then some [spGallery]
    else if o = 8 then some (if op = opMM then [spScratch, spAcc] else [spScratch])
    else if o = 10 then some (if op = opMV then [spScratch, spAcc, spGallery] else [spScratch, spAcc])
    else some [spScratch, spGallery, spHbm]
  | some .attention => if o = 16 then some [spScratch, spGallery, spHbm] else none
  | some .vector =>
    if op = opNMS ∨ op = opGNRM ∨ op = opSORT then none
    else if o = 14 then (if op = opNORM then some [spScratch] else none)
    else if o = 8 ∧ (op = opDQSC ∨ (op = opRED ∧ 0x10 ≤ vFunc r)) then none
    else if o = 12 ∧ op = opQSCL ∧ vFunc r = 2 then none
    else some [spScratch, spAcc]
  | some .move =>
    if op = opLOAD then some (if o = 8 then [spGallery, spHbm] else [spScratch, spAcc])
    else if op = opPREF then some (if o = 8 then [spGallery, spHbm] else [spScratch])
    else if op = opSTORE then some (if o = 8 then [spScratch, spAcc] else [spGallery, spHbm])
    else if op = opRACC then none
    else if op = opROT then some [spScratch, spAcc]
    else some [spScratch]
  | _ => none

/-- Whether a format suits an operand field, R105 Table 4 "Used by", R114, R524; fields whose format
an owning chapter's check decides pass. -/
def formatOk (r o fmt : Nat) : Bool :=
  let op := rOp r
  let plain := decide (fmt ≤ fmINT32)
  match opGroup op with
  | some .array => if o = 16 then fmt == fmFP32 else plain
  | some .attention => if o = 16 then plain else true
  | some .vector =>
    if op = opVEC ∧ o ≠ 12 then plain || fmt == fmU8 || fmt == fmU16
    else if op = opNORM ∧ o = 14 then fmt == fmFP32
    else if op = opVEC ∨ op = opNORM ∨ op = opRED then plain
    else if (op = opRNGM ∨ (op = opQSCL ∧ vFunc r = 2)) ∧ o = 8 then plain
    else if op = opRNGM ∧ o = 12 ∧ vFunc r ≠ 2 then plain && !isMx fmt && !isIntFmt fmt
    else true
  | some .move =>
    if op = opRACC then true
    else if op = opLOAD ∨ op = opSTORE then plain || fmt == fmU8 || fmt == fmU16 else plain
  | _ => true

/-- Check 0x0022 of the operands a record names. -/
def check22 (r : Nat) (od : OpdTab) : Chk :=
  firstFail (namedFields r) (fun o =>
    let ix := rB r o 2
    let x := od ix
    failAt ((match spacesOf r o with
      | some l => !l.contains x.space
      | none => false) || !formatOk r o x.fmt) 0x0022 o ix)

/-- Whether two formats pair in a matrix product, R34 Table 2. -/
def pairOk (a b : Nat) : Bool :=
  let fp8 := fun f => f == fmE4M3 || f == fmE5M2
  let mx8 := fun f => f == fmMx8a || f == fmMx8b
  (fp8 a && fp8 b) || (mx8 a && mx8 b) ||
    (a == b && (a == fmMx4 || a == fmBF16 || a == fmFP16 || a == fmFP32 || a == fmINT8))

/-- Whether a pairing is refused for the opcode: FP32 for MV (R89), MX and FP32 for TCONV, and more
than 16 channels on both sides (R92), for which a dynamic N counts as more than 16 (log 95). An MX CONV is check
0x0047. -/
def pairRefused (r fa : Nat) : Bool :=
  let op := rOp r
  (op == opMV && fa == fmFP32) ||
    (op == opTCONV && (fa == fmFP32 || isMx fa ||
      (decide (16 < convC r (validExt (tileExt (bits (rB r 24 1) 5 4)) (rB r 22 2) [])) &&
       (rB r 20 2 / 2 ^ 14 != 0 || decide (16 < rB r 20 2 % 2 ^ 14)))))

/-- The accumulator of an array record is INT32. -/
def intAccOf (r : Nat) (od : OpdTab) : Bool := (od (rB r 8 2)).fmt == fmINT8

/-- Check 0x0023. -/
def check23 (r : Nat) (od : OpdTab) : Chk :=
  let op := rOp r
  match opGroup op with
  | some .array =>
    let a := rB r 8 2
    let b := rB r 10 2
    failAt (!pairOk (od a).fmt (od b).fmt || pairRefused r (od a).fmt) 0x0023 8 a <|>
    failAt (rBias r && (od (rB r 14 2)).fmt != (if intAccOf r od then fmINT32 else fmFP32)) 0x0023 14 (rB r 14 2)
  | some .move =>
    if op = opLOAD ∨ op = opPREF ∨ (op = opSTORE ∧ (od (rB r 8 2)).space ≠ spAcc) then
      failAt ((od (rB r 8 2)).fmt != (od (rB r 10 2)).fmt) 0x0023 10 (rB r 10 2)
    else none
  | _ => none

/-! ### Extents, slots, layouts and pitches: 0x0024 to 0x0028 -/

/-- Byte offsets of the extent descriptors of a record, in its body's order. -/
def extentFields (r : Nat) : List Nat :=
  match opGroup (rOp r) with
  | some .array => [18, 20, 22]
  | some .attention => if rOp r = opATTM then [18] else [18, 20]
  | some .vector => [16, 18]
  | some .move => [12, 14]
  | _ => []

/-- Check 0x0024, R106, R107, R88. -/
def check24 (r ndim : Nat) : Chk :=
  firstFail ((extentFields r).zip (recExtents r)) (fun (o, (code, e)) =>
    failAt (if e / 2 ^ 14 = 0 then decide (tileExt code < e % 2 ^ 14) else decide (ndim < e / 2 ^ 14)) 0x0024 o) <|>
  (if rOp r = opMV then
    failAt (bits (rB r 24 1) 1 0 != 0) 0x0024 24 <|>
    failAt (rB r 18 2 / 2 ^ 14 == 0 && (rB r 18 2 == 0 || decide (4 < rB r 18 2))) 0x0024 18
   else none)

/-- Uses of operands at full tile extents. The rows of a CONV's or TCONV's A are as long as its static
valid K gives (R182, R183). -/
def fullUses (r : Nat) : List Use :=
  let t := tileExts r
  let named := fun (l : List Use) => l.filter (fun u => u.ix r != noOpd)
  if rOp r = opCONV ∨ rOp r = opTCONV then
    let a := recUses r [t.getD 0 128, t.getD 1 128, validExt (t.getD 2 128) (rB r 22 2) []] t
    named (a.filter (fun u => u.fld == 8) ++ (recUses r t t).filter (fun u => u.fld != 8))
  else named (recUses r t t)

/-- Check 0x0025, R81: output slots, and operands in the accumulator space, that pass slot 31; a window is no tile, and
a pooling RED's source there is check 0x0048. -/
def check25 (r : Nat) (od : OpdTab) : Chk :=
  let op := rOp r
  let t := tileExts r
  (if op = opMM ∨ op = opMV ∨ op = opCONV then
    failAt (decide (32 < bits (rB r 25 1) 4 0 + ceilDiv (t.getD 0 0) 128 * slotsPer (t.getD 1 128))) 0x0025 25
   else none) <|>
  firstFail (fullUses r) (fun u =>
    let x := od (u.ix r)
    failAt (x.space == spAcc && u.px == 0 && decide (32 < x.addr % 32 + ceilDiv u.r 128 * slotsPer u.c)) 0x0025 u.fld (u.ix r))

/-- Check 0x0026, R104: an accumulator operand with TRANS; an MX A with TRANS or MX B without. -/
def check26 (r : Nat) (od : OpdTab) : Chk :=
  firstFail (namedFields r) (fun o =>
    let ix := rB r o 2
    let x := od ix
    failAt ((x.space == spAcc && x.trans) ||
      (decide (opGroup (rOp r) = some .array) && isMx x.fmt &&
        ((o == 8 && x.trans) || (o == 10 && !x.trans)))) 0x0026 o ix)

/-- Stored rows and elements per stored row of a use. -/
def storedShape (x : Opd) (u : Use) : Nat × Nat := if x.trans then (u.c, u.r) else (u.r, u.c)

/-- Rows of scales and scale bytes per row: along the output row for an output, of a CONV's or TCONV's A along the full
tile K, else along the stored row (R104, R105, R116). -/
def scaleShape (r : Nat) (x : Opd) (u : Use) : Nat × Nat :=
  let (a, b) := if u.isOut r then (u.r, u.c)
    else if (rOp r = opCONV ∨ rOp r = opTCONV) ∧ u.fld = 8 then (u.r, (tileExts r).getD 2 128) else storedShape x u
  (a, ceilDiv b 32)

/-- Check 0x0027, R105: a scratchpad operand whose full tile passes offset 0x7F_FFFF. -/
def check27 (r : Nat) (od : OpdTab) : Chk :=
  firstFail (fullUses r) (fun u =>
    let x := od (u.ix r)
    let (a, b) := storedShape x u
    let (sa, sb) := scaleShape r x u
    failAt (x.space == spScratch &&
      (decide (0x800000 < x.addr + (if u.isStat r then 8 * u.r else (a - 1) * x.pitch + fmtBytes x.fmt b)) ||
       (isMx x.fmt && decide (0x800000 < x.scale + (sa - 1) * x.spitch + sb)))) 0x0027 u.fld (u.ix r))

/-- The STORE of a running state's M_SLOT columns 0 to 15, whose image R163 gives a pitch of 64 B (log 95). -/
def peerImage (r : Nat) (od : OpdTab) : Bool :=
  rOp r == opSTORE && (od (rB r 8 2)).space == spAcc && rOutfmt r == 0 && rEw r == 0 &&
    (od (rB r 10 2)).fmt == fmFP32 && rB r 14 2 == 16

/-- Check 0x0028 of pitches against the full tile, R105: the statistics operand's ROW_PITCH is zero
(R114), and NORM's OPD_P is taken as one row (log 94); a SORT's lists are check 0x0045. -/
def check28 (r : Nat) (od : OpdTab) : Chk :=
  firstFail (fullUses r) (fun u =>
    let x := od (u.ix r)
    let (_, b) := storedShape x u
    let list := rOp r == opSORT && u.fld != 8
    let row := if u.fld == 10 && peerImage r od then 64 else fmtBytes x.fmt b
    failAt (!list &&
      (if u.isStat r then x.pitch != 0
       else (x.space != spAcc && decide (x.pitch < row)) ||
         (isMx x.fmt && decide (x.spitch < (scaleShape r x u).2)))) 0x0028 u.fld (u.ix r))

/-! ### The output path, 0x002A -/

/-- The field of OUTFMT, EW, ROWSTAT and SHIFT that breaks R113 for an accumulator, of a record that writes `out`. -/
def outBad (r : Nat) (isInt : Bool) (out : Nat) : Chk :=
  let f := rOutfmt r
  failAt (if isInt then !(f == 0 || f == fmINT32 || f == fmINT8) else decide (fmINT8 ≤ f)) 0x002A 4 out <|>
  failAt (isInt && rEw r != 0) 0x002A 5 out <|> failAt (isInt && rRowstat r) 0x002A 1 out <|>
  failAt (rShift r != 0 && f != fmINT8) 0x002A 6 out

/-- The field of OUTFMT, EW and SHIFT that a record without an output path sets (R113). -/
def outSet (r out : Nat) : Chk :=
  failAt (rOutfmt r != 0) 0x002A 4 out <|> failAt (rEw r != 0) 0x002A 5 out <|> failAt (rShift r != 0) 0x002A 6 out

/-- The FORMAT that a result is written in. -/
def writtenFmt (r : Nat) (isInt : Bool) : Nat :=
  if rOutfmt r ≠ 0 then rOutfmt r else if isInt then fmINT32 else fmFP32

/-- Whether the result of a vector record before OUTFMT is INT32: the integer forms of VEC, and a
conversion of INT32 to an integer format (R115). -/
def vecIntRec (r : Nat) (od : OpdTab) : Bool :=
  rOp r == opVEC &&
    (vecIsInt (vFunc r) (od (rB r 8 2)).fmt (if rB r 10 2 = noOpd then none else some (od (rB r 10 2)).fmt) ||
     (vFunc r == 0x0F && (od (rB r 8 2)).fmt == fmINT32 && (rOutfmt r == fmINT32 || rOutfmt r == fmINT8)))

/-- Check 0x002A, R113, R115; the source of a STORE from slots is FP32 or INT32 (log 94). DESIGN CHOICE (log 67): an
integer form of VEC with a floating-point OUTFMT is refused. -/
def check2A (r : Nat) (od : OpdTab) : Chk :=
  let op := rOp r
  match opGroup op with
  | some .array =>
    let out := rB r 12 2
    let isInt := intAccOf r od
    if out = noOpd then
      outSet r noOpd <|> failAt (rBias r || (isInt && rRowstat r)) 0x002A 1
    else outBad r isInt out <|> failAt ((od out).fmt != writtenFmt r isInt) 0x002A 12 out
  | some .attention =>
    if op = opATTM then
      let out := rB r 16 2
      if out = noOpd then failAt (rOutfmt r != 0) 0x002A 4
      else outBad r false out <|> failAt ((od out).fmt != writtenFmt r false) 0x002A 16 out
    else none
  | some .vector =>
    if op = opVEC ∨ op = opNORM ∨ op = opRED then
      let z := rB r 12 2
      let isInt := vecIntRec r od
      outBad r isInt z <|> failAt ((od z).fmt != writtenFmt r isInt) 0x002A 12 z
    else none
  | some .move =>
    if op = opSTORE then
      let x := od (rB r 8 2)
      let dst := rB r 10 2
      if x.space = spAcc then
        failAt (x.fmt != fmFP32 && x.fmt != fmINT32) 0x002A 8 (rB r 8 2) <|>
        outBad r (x.fmt == fmINT32) dst <|>
        failAt ((od dst).fmt != writtenFmt r (x.fmt == fmINT32)) 0x002A 10 dst
      else outSet r dst
    else none
  | _ => none

/-! ### Windows, 0x002B and 0x002C -/

/-- Whether a window breaks Table 1 of R186 with non-zero filter dimensions: its paddings above and below are at byte
`tb` of its record, those left and right at `lr`. -/
def winBad (w : Win) (tb lr : Nat) : Chk :=
  failAt (decide (14 < w.pt) || decide (14 < w.pb) || decide ((w.kh - 1) * w.dv < w.pt + w.pb)) 0x002C tb <|>
  failAt (decide (14 < w.pl) || decide (14 < w.pr) || decide ((w.kw - 1) * w.dh < w.pl) ||
    decide ((w.kw - 1) * w.dh < w.pr)) 0x002C lr

/-- Checks 0x002B and 0x002C of a CONV, TCONV or pooling RED, R186. -/
def checkWin (r : Nat) : Chk :=
  if rOp r = opCONV ∨ rOp r = opTCONV then
    let w := convWin r
    failAt (w.kh == 0 || w.kw == 0) 0x002B 30 <|>
    winBad w 26 27
  else if rOp r = opRED ∧ 0x10 ≤ vFunc r then
    let w := poolWin r
    failAt (w.kh == 0 || w.kw == 0) 0x002B 24 <|>
    winBad w 28 29
  else none

/-! ### Attention and sorting, R181 -/

/-- Whether an FP32 code is NaN or infinite. -/
def notFinite (c : Nat) : Bool := bits c 30 23 == 0xFF

/-- Formats of Q and V, R155 Table 1. -/
def attFmt (f : Nat) : Bool := f == fmE4M3 || f == fmE5M2 || f == fmBF16 || f == fmFP16

/-- PAGED of an ATTB. -/
def aPaged (r : Nat) : Bool := bits (rB r 23 1) 2 2 == 1

/-- Check 0x0040. -/
def check40 (r : Nat) (od : OpdTab) : Chk :=
  let q := rB r 8 2
  if rOp r = opATTB then
    let k := rB r 10 2
    let v := rB r 12 2
    let b := rB r 14 2
    failAt ((od q).space != spScratch || !attFmt (od q).fmt) 0x0040 8 q <|>
    failAt (!pairOk (od q).fmt (od k).fmt || (!aPaged r && (od k).space != spScratch)) 0x0040 10 k <|>
    failAt (!attFmt (od v).fmt || (!aPaged r && (od v).space != spScratch)) 0x0040 12 v <|>
    failAt (b != noOpd && (!((od b).space == spScratch || (od b).space == spGallery) ||
      !((od b).fmt == fmFP32 || (od b).fmt == fmBF16))) 0x0040 14 b <|>
    failAt (notFinite (aScale r)) 0x0040 28
  else failAt (q != noOpd && ((od q).space != spGallery || (od q).fmt != fmFP32 || (od q).trans)) 0x0040 8 q

/-- Slots of an attention record: output, running state, staging. -/
def attSlots (r : Nat) (od : OpdTab) : List Nat :=
  let t := tileExts r
  let m := aMslot r
  tab (t.getD 0 128 / 128) (fun k => aOslot r + k) ++ [m] ++
    (if rOp r = opATTB ∧ aPaged r = true then
      tab (stageSlots (t.getD 1 128) (od (rB r 10 2)).fmt + stageSlots (t.getD 1 128) (od (rB r 12 2)).fmt)
        (fun k => m + 1 + k)
     else [])

/-- Check 0x0044 of one paged operand, R173. -/
def check44 (r o : Nat) (od : OpdTab) : Chk :=
  let ix := rB r o 2
  let x := od ix
  let w := fmtHalfBytes x.fmt / 2
  failAt (x.space != spHbm || x.trans || x.pitch != 128 * w || (x.base == 0 && x.addr % (128 * 128 * w) != 0))
    0x0044 o ix

/-- Checks 0x0040 to 0x0044. -/
def checkAtt (r : Nat) (od : OpdTab) : Chk :=
  let sl := attSlots r od
  let t := tileExts r
  let first := 128 * aPos r
  check40 r od <|>
  failAt (decide ((dedupKeep sl).length ≠ sl.length) || sl.any (fun k => decide (31 < k))) 0x0041 24 <|>
  (if rOp r = opATTB then
    failAt (aFinal r) 0x0042 23 <|> failAt (rB r 16 2 != noOpd) 0x0042 16 (rB r 16 2) <|>
    failAt (decide (first < -1048576) || decide (1048575 < first + (t.getD 1 128 : Int) - 1)) 0x0043 26 <|>
    (if aPaged r then check44 r 10 od <|> check44 r 12 od else none)
   else
    failAt (bits (rB r 23 1) 2 0 != 0) 0x0042 23 <|>
    failAt (!aFinal r && rB r 16 2 != noOpd) 0x0042 16 (rB r 16 2) <|>
    failAt (!aFinal r && rB r 8 2 == noOpd) 0x0042 8)

/-- Check 0x0045, R178, R180. -/
def check45 (r : Nat) (od : OpdTab) : Chk :=
  let k := vImm r
  let list := fun o => failAt (rB r o 2 != noOpd && ((od (rB r o 2)).fmt != fmINT32 ||
    (od (rB r o 2)).space != spScratch || decide ((od (rB r o 2)).pitch < 8 * k))) 0x0045 o (rB r o 2)
  failAt (vFunc r != 1) 0x0045 21 <|>
  failAt (!((od (rB r 8 2)).fmt == fmFP32 || (od (rB r 8 2)).fmt == fmBF16) ||
    !((od (rB r 8 2)).space == spScratch || (od (rB r 8 2)).space == spAcc)) 0x0045 8 (rB r 8 2) <|>
  list 10 <|> list 12 <|>
  failAt (k == 0 || decide (1024 < k)) 0x0045 24 <|>
  failAt (decide (1048576 < vImm2 r + (tileExts r).getD 1 128)) 0x0045 28

/-! ### Convolution, pooling and detection, R201 -/

/-- Checks 0x0046 and 0x0047. -/
def checkConv (r : Nat) (od : OpdTab) : Chk :=
  let w := convWin r
  failAt (od (rB r 8 2)).trans 0x0046 8 (rB r 8 2) <|>
  failAt (rB r 22 2 / 2 ^ 14 != 0 || rB r 22 2 % (w.kh * w.kw) != 0) 0x0046 22 <|>
  failAt (rOp r == opCONV && isMx (od (rB r 8 2)).fmt) 0x0047 8 (rB r 8 2)

/-- Check 0x0048 of a pooling RED; its window has passed checks 0x002B and 0x002C, which come first (R143, R186). -/
def check48 (r : Nat) (od : OpdTab) : Chk :=
  failAt (bits (vImm r) 31 20 != 0) 0x0048 24 <|>
  failAt (bits (vImm2 r) 31 17 != 0) 0x0048 28 <|>
  failAt (vAxis r != 0) 0x0048 22 <|>
  failAt ((od (rB r 8 2)).space != spScratch) 0x0048 8 (rB r 8 2)

/-- Check 0x0049 of a BOXD. -/
def check49 (r : Nat) (od : OpdTab) : Chk :=
  failAt (vFunc r != 1) 0x0049 21 <|> failAt (rB r 18 2 != 4) 0x0049 18 <|>
  firstFail [8, 10, 12] (fun o => failAt ((od (rB r o 2)).fmt != fmFP32) 0x0049 o (rB r o 2))

/-- Check 0x004A of an NMS. -/
def check4A (r : Nat) (od : OpdTab) : Chk :=
  failAt (vFunc r != 1) 0x004A 21 <|>
  failAt (rB r 16 2 != 1) 0x004A 16 <|> failAt (rB r 18 2 != 1) 0x004A 18 <|>
  firstFail [(8, fmFP32), (10, fmINT32), (12, fmINT32), (14, fmINT32)] (fun (o, f) =>
    failAt ((od (rB r o 2)).fmt != f || (od (rB r o 2)).space != spScratch) 0x004A o (rB r o 2)) <|>
  failAt (decide (1 < vImm2 r)) 0x004A 28

/-! ### Training and reduction, R221, R250 -/

/-- Whether an operand is a scratchpad operand of a format. -/
def padOf (r o : Nat) (od : OpdTab) (f : Nat) : Bool :=
  (od (rB r o 2)).space == spScratch && (od (rB r o 2)).fmt == f

/-- Check 0x0050 of an RNGM. -/
def check50 (r : Nat) (od : OpdTab) : Chk :=
  let f := vFunc r
  failAt (f != 1 && f != 2) 0x0050 21 <|> failAt (rB r 10 2 != noOpd) 0x0050 10 (rB r 10 2) <|>
  failAt (!padOf r 14 od fmINT32) 0x0050 14 (rB r 14 2) <|>
  failAt (f == 2 && rB r 8 2 != noOpd) 0x0050 8 (rB r 8 2) <|>
  failAt (f == 2 && (od (rB r 12 2)).fmt != fmINT32) 0x0050 12 (rB r 12 2) <|>
  failAt (decide (1 < vAxis r)) 0x0050 22

/-- Whether an operand lies in a core and has a format. -/
def coreOf (r o : Nat) (od : OpdTab) (f : Nat → Bool) : Bool :=
  decide ((od (rB r o 2)).space ≤ spAcc) && f (od (rB r o 2)).fmt

/-- Check 0x0051 of a GNRM. -/
def check51 (r : Nat) (od : OpdTab) : Chk :=
  let f := vFunc r
  let words := fun x => x == fmFP32 || x == fmINT32
  let bad := fun (b : Bool) o => failAt (!b) 0x0051 o (rB r o 2)
  failAt (f == 0 || decide (3 < f)) 0x0051 21 <|>
  (if f = 1 then
    bad (coreOf r 8 od (fun x => x == fmFP32)) 8 <|> bad (padOf r 12 od fmRI64) 12 <|>
    bad (padOf r 14 od fmINT32) 14 <|> failAt (decide (1 < vImm r)) 0x0051 24
   else if f = 2 then
    bad (padOf r 8 od fmRI64) 8 <|> bad (coreOf r 12 od words) 12 <|> bad (padOf r 14 od fmINT32) 14
   else
    bad (coreOf r 8 od (fun x => x == fmFP32)) 8 <|> bad (coreOf r 10 od words) 10 <|>
    bad (coreOf r 12 od (fun x => decide (x ≤ fmFP32) && !isMx x)) 12) <|>
  failAt (f != 1 && vImm r != 0) 0x0051 24 <|> failAt (f != 1 && vImm2 r != 0) 0x0051 28 <|>
  failAt (vAxis r != 0) 0x0051 22

/-- Check 0x0052 of a QSCL. -/
def check52 (r : Nat) (od : OpdTab) : Chk :=
  let f := vFunc r
  failAt (f != 1 && f != 2) 0x0052 21 <|> failAt (!padOf r 14 od fmINT8) 0x0052 14 (rB r 14 2) <|>
  failAt (f == 1 && (od (rB r 8 2)).fmt != fmFP32) 0x0052 8 (rB r 8 2) <|>
  failAt (if f = 1 then (od (rB r 12 2)).fmt != fmRI32 else !padOf r 12 od fmINT8) 0x0052 12 (rB r 12 2) <|>
  failAt (rB r 10 2 != noOpd) 0x0052 10 (rB r 10 2) <|> failAt (decide (1 < vAxis r)) 0x0052 22

/-- Check 0x0053 of a DQSC. -/
def check53 (r : Nat) (od : OpdTab) : Chk :=
  failAt (vFunc r != 1) 0x0053 21 <|> failAt (!padOf r 8 od fmRI64) 0x0053 8 (rB r 8 2) <|>
  failAt ((od (rB r 12 2)).fmt != fmFP32) 0x0053 12 (rB r 12 2) <|>
  failAt (!padOf r 14 od fmINT8) 0x0053 14 (rB r 14 2) <|>
  failAt (rB r 10 2 != noOpd) 0x0053 10 (rB r 10 2) <|> failAt (decide (1 < vAxis r)) 0x0053 22

/-- Check 0x0054 of a RACC. -/
def check54 (r : Nat) (od : OpdTab) : Chk :=
  failAt (!coreOf r 8 od (fun x => x == fmRI32 || x == fmRI64)) 0x0054 8 (rB r 8 2) <|>
  failAt ((od (rB r 10 2)).space != spHbm || (od (rB r 10 2)).trans) 0x0054 10 (rB r 10 2) <|>
  failAt (rB r 17 1 != 0) 0x0054 17 <|> failAt (rB r 18 1 != 0) 0x0054 18

/-- The owning chapters' checks of a record, in code order. -/
def checkOwn (r : Nat) (od : OpdTab) : Chk :=
  let op := rOp r
  if op = opATTB ∨ op = opATTM then checkAtt r od
  else if op = opSORT then check45 r od
  else if op = opCONV ∨ op = opTCONV then checkConv r od
  else if op = opRED ∧ 0x10 ≤ vFunc r then check48 r od
  else if op = opBOXD then check49 r od
  else if op = opNMS then check4A r od
  else if op = opRNGM then check50 r od
  else if op = opGNRM then check51 r od
  else if op = opQSCL then check52 r od
  else if op = opDQSC then check53 r od
  else if op = opRACC then check54 r od
  else none

/-- All checks of one record in code order (R143 step 4). -/
def recordCheck (r die ndim opdCount : Nat) (od : OpdTab) : Chk :=
  check20 r die <|> check21 r opdCount <|> check22 r od <|> check23 r od <|> check24 r ndim <|>
  check25 r od <|> check26 r od <|> check27 r od <|> check28 r od <|> check2A r od <|> checkWin r <|>
  checkOwn r od

end Sys2Proof.Machine
end

