-- ==== Sys2Proof/Machine/Image.lean ====
section
/-! DEFINITION. The loader's checks of a whole image (R131 to R135, R142, R143, R150, R120, R121, R123),
the order of prefetches (R119), and the cost figure W (R344). -/

namespace Sys2Proof.Machine

/-- What a load report names (R141): check code, place and offset. -/
structure Rep where
  code : Nat
  die : Nat := 0xFF
  entry : Nat := 0xFFFF
  variant : Nat := 0xFFFF
  stream : Nat := 0xFFFF
  operand : Nat := 0xFFFF
  record : Nat := 0xFFFFFFFF
  off : Nat := 0
  deriving DecidableEq, Repr

/-- The outcome of a list of checks: the first that fails. -/
abbrev RepChk := Option Rep

/-- A failing check, at a place `w` whose other fields are kept. -/
def repIf (b : Bool) (w : Rep) (code off : Nat) : RepChk := if b then some { w with code, off } else none

/-- The first failing check of a list, made one by one. -/
def firstRep {α : Type} (l : List α) (f : α → RepChk) : RepChk := l.findSome? f

/-- No place named. -/
def repNone : Rep := { code := 0 }

/-! ### Structures of an image -/

/-- Whether `n` bytes at an offset break R131 in an image of a size. -/
def unfit (size off n : Nat) : Bool := decide (off % 64 ≠ 0) || decide (size < off + n)

/-- Check 0x0006 of reserved fields, as offset and length. -/
def reservedRep (img : Img) (w : Rep) (l : List (Nat × Nat)) : RepChk :=
  firstRep l (fun (o, n) => repIf (img o n != 0) w 0x0006 o)

/-- Fields of the header, R131. -/
def hdrSize (img : Img) : Nat := img 8 8
def hdrEntries (img : Img) : Nat := img 0x10 2
def hdrDepth (img : Img) : Nat := if img 0x12 1 = 0 then 4 else img 0x12 1
def hdrGallery (img : Img) : Nat := img 0x14 4

/-- Offset of an entry, R132. -/
def entOff (img : Img) (i : Nat) : Nat := img 0x18 8 + 64 * i

/-- Fields of the entry at an offset, R132. -/
def entMask (img : Img) (b : Nat) : Nat := img b 1
def entNdim (img : Img) (b : Nat) : Nat := img (b + 1) 1
def entNb (img : Img) (b j : Nat) : Nat := img (b + 2 + j) 1
def entRole (img : Img) (b : Nat) : Nat := bits (img (b + 5) 1) 1 0
def entGroup (img : Img) (b : Nat) : Nat := bits (img (b + 5) 1) 5 2
def entWatchdog (img : Img) (b : Nat) : Nat := if img (b + 8) 4 = 0 then 60000 else img (b + 8) 4
def entBuckets (img : Img) (b : Nat) : Nat := img (b + 0x10) 8
def entVariants (img : Img) (b : Nat) : Nat := img (b + 0x18) 8

/-- NB' of a dimension, R134. -/
def entNbEff (img : Img) (b j : Nat) : Nat := if j < entNdim img b then entNb img b j else 1

/-- V of an entry, R134. -/
def entV (img : Img) (b : Nat) : Nat := entNbEff img b 0 * entNbEff img b 1 * entNbEff img b 2

/-- Bucket `k` of a dimension, R133. -/
def bucketAt (img : Img) (b j k : Nat) : Nat := img (entBuckets img b + 4 * (16 * j + k)) 4

/-- Offset of a variant and of its word for a die, R134. -/
def wordOff (img : Img) (b v d : Nat) : Nat := entVariants img b + 64 * v + 8 * d

/-- The die section of a variant for a die. -/
def secOff (img : Img) (b v d : Nat) : Nat := img (wordOff img b v d) 8

/-- Dies of an entry in increasing order. -/
def entDies (img : Img) (b : Nat) : List Nat := (List.range 8).filter (fun d => (entMask img b).testBit d)

/-- Fields of a die section, R135. -/
def secStreams (img : Img) (o : Nat) : Nat := img o 2
def secOpds (img : Img) (o : Nat) : Nat := img (o + 2) 2
def secOpdOff (img : Img) (o : Nat) : Nat := img (o + 8) 8
def secRecOff (img : Img) (o k : Nat) : Nat := img (o + 16 + 16 * k) 8
def secRecCount (img : Img) (o k : Nat) : Nat := img (o + 24 + 16 * k) 4

/-- The descriptors of a die section. -/
def secTab (img : Img) (o : Nat) : OpdTab := fun ix => Opd.ofNat (img (secOpdOff img o + 32 * ix) 32)

/-- The records of a stream. -/
def secRecs (img : Img) (o k : Nat) : List Nat :=
  tab (secRecCount img o k) (fun i => img (secRecOff img o k + 32 * i) 32)

/-! ### The header and an entry -/

/-- Checks of the header, R143 step 3. `digestOk` tells whether DIGEST is the computed digest, `share`
the context's Gallery share in units of 64 KiB. -/
def checkHeader (img : Img) (length share : Nat) (digestOk : Bool) : RepChk :=
  let w := repNone
  let size := hdrSize img
  repIf (img 0 4 != 0x4F4E4C41) w 0x0001 0 <|>
  repIf (img 4 2 != 1) w 0x0001 4 <|>
  repIf (decide (size < 4096) || decide (2 ^ 34 < size) || size % 64 != 0 || size != length) w 0x0002 8 <|>
  repIf (!digestOk) w 0x0003 0x40 <|>
  reservedRep img w [(6, 2), (0x13, 1), (0x20, 32)] <|>
  repIf (unfit size (img 0x18 8) (64 * hdrEntries img)) w 0x0007 0x18 <|>
  repIf (hdrEntries img == 0 || decide (4096 < hdrEntries img)) w 0x0008 0x10 <|>
  repIf (decide (hdrDepth img < 2) || decide (8 < hdrDepth img)) w 0x0008 0x12 <|>
  repIf (decide (3072 < hdrGallery img) || decide (share < hdrGallery img)) w 0x0009 0x14

/-- Checks of an entry but its variants: 0x0006, 0x0007, 0x0010, 0x0012, 0x0011. DESIGN CHOICE (log 120): a BUCKET_OFF
that is not zero with NDIM 0 is 0x0007. -/
def checkEntry (img : Img) (i : Nat) : RepChk :=
  let b := entOff img i
  let w := { repNone with entry := i }
  let size := hdrSize img
  let nd := entNdim img b
  let wd := img (b + 8) 4
  repIf (bits (img (b + 5) 1) 7 6 != 0) w 0x0006 (b + 5) <|>
  reservedRep img w [(b + 6, 2), (b + 0xC, 4), (b + 0x20, 32)] <|>
  repIf (if nd = 0 then entBuckets img b != 0 else unfit size (entBuckets img b) 192) w 0x0007 (b + 0x10) <|>
  repIf (unfit size (entVariants img b) (64 * entV img b)) w 0x0007 (b + 0x18) <|>
  repIf (entMask img b == 0) w 0x0010 b <|>
  repIf (decide (3 < nd)) w 0x0010 (b + 1) <|>
  firstRep (List.range 3) (fun j =>
    repIf (if j < nd then entNb img b j == 0 || decide (16 < entNb img b j) else entNb img b j != 0)
      w 0x0010 (b + 2 + j)) <|>
  repIf (entRole img b == 0 && entGroup img b != 0) w 0x0012 (b + 5) <|>
  repIf (wd != 0 && (decide (wd < 10) || decide (3600000 < wd))) w 0x0012 (b + 8) <|>
  (if nd = 0 then none
   else firstRep (List.range 48) (fun k =>
    let j := k / 16
    let x := bucketAt img b j (k % 16)
    let used := decide (j < nd) && decide (k % 16 < entNb img b j)
    let prev := if k % 16 = 0 then 0 else bucketAt img b j (k % 16 - 1)
    repIf (if used then decide (x ≤ prev) || decide (2097152 < x) else x != 0)
      w 0x0011 (entBuckets img b + 4 * k)))

/-! ### A variant's die sections -/

/-- A variant's offsets and words: 0x0007 of every word that is not zero, with the section's own place,
then 0x0013 (R134). -/
def checkWords (img : Img) (i v : Nat) : RepChk :=
  let b := entOff img i
  let size := hdrSize img
  let w := fun (d : Nat) => { repNone with entry := i, variant := v, die := d }
  firstRep (List.range 8) (fun d =>
    let o := secOff img b v d
    repIf (o != 0 && (unfit size o 16 || unfit size o (16 + 16 * secStreams img o))) (w d) 0x0007
      (wordOff img b v d)) <|>
  firstRep (List.range 8) (fun d =>
    repIf ((entMask img b).testBit d != (secOff img b v d != 0)) (w d) 0x0013 (wordOff img b v d))

/-- Checks of a die section but its streams' records: reserved fields, offsets, counts and descriptors. DESIGN CHOICE
(log 120): an OPD_OFF that is not zero with OPD_COUNT 0 is 0x0007. -/
def checkSection (img : Img) (o : Nat) (w : Rep) : RepChk :=
  let size := hdrSize img
  let n := secStreams img o
  let opds := secOpds img o
  reservedRep img w [(o + 4, 4)] <|>
  firstRep (List.range n) (fun k => reservedRep img { w with stream := k } [(o + 28 + 16 * k, 4)]) <|>
  repIf (if opds = 0 then secOpdOff img o != 0 else unfit size (secOpdOff img o) (32 * opds)) w 0x0007 (o + 8) <|>
  firstRep (List.range n) (fun k =>
    repIf (unfit size (secRecOff img o k) (32 * secRecCount img o k)) { w with stream := k } 0x0007
      (o + 16 + 16 * k)) <|>
  repIf (n == 0 || decide (28 < n)) w 0x0014 o <|>
  firstRep (List.range n) (fun k =>
    repIf (secRecCount img o k == 0 || decide (16777216 < secRecCount img o k)) { w with stream := k } 0x0014
      (o + 24 + 16 * k)) <|>
  firstRep (List.range opds) (fun k =>
    (descCheck (img (secOpdOff img o + 32 * k) 32)).map (fun (code, f, _) =>
      { w with code, operand := k, off := secOpdOff img o + 32 * k + f }))

/-- Checks of the records of one stream. -/
def checkStream (img : Img) (o k ndim : Nat) (w : Rep) : RepChk :=
  firstRep (List.range (secRecCount img o k)) (fun i =>
    let a := secRecOff img o k + 32 * i
    (recordCheck (img a 32) w.die ndim (secOpds img o) (secTab img o)).map (fun (code, f, ix) =>
      { w with code, stream := k, record := i, operand := ix, off := a + f }))

/-! ### Rules over the records of a variant -/

/-- A record with its place: die, stream, index, record, image offset and the section's table. -/
structure VRec where
  die : Nat
  stream : Nat
  ix : Nat
  r : Nat
  off : Nat
  sec : Nat
  deriving DecidableEq, Repr

/-- The records of a variant in order of die, stream and index. -/
def variantRecs (img : Img) (b v : Nat) : List VRec :=
  (entDies img b).flatMap (fun d =>
    let o := secOff img b v d
    (List.range (secStreams img o)).flatMap (fun k =>
      (secRecs img o k).zipIdx.map (fun (r, i) =>
        { die := d, stream := k, ix := i, r, off := secRecOff img o k + 32 * i, sec := o })))

/-- A report of a record as a whole. -/
def repRec (w : Rep) (code : Nat) (x : VRec) : Rep :=
  { w with code, die := x.die, stream := x.stream, record := x.ix, off := x.off }

/-- Whether the BARs with one ID break R123. -/
def barIdBad (bars : List VRec) : Bool :=
  match bars with
  | [] => false
  | x :: _ =>
    let count := barCount x.r
    let scope := barScope x.r
    let streams := dedupKeep (bars.map (fun y => (y.die, y.stream)))
    let uses := fun (k : Nat × Nat) => (bars.filter (fun y => (y.die, y.stream) == k)).length
    bars.any (fun y => barCount y.r != count || barScope y.r != scope) ||
      decide (streams.length ≠ count) || streams.any (fun k => uses k != uses (x.die, x.stream)) ||
      (scope == 0 && bars.any (fun y => y.die != x.die))

/-- Check 0x0030, R123: the lowest failing ID, at its first BAR. -/
def check30 (recs : List VRec) (w : Rep) : RepChk :=
  let bars := recs.filter (fun x => rOp x.r == opBAR)
  firstRep (List.range 64) (fun id =>
    let l := bars.filter (fun x => syncId x.r == id)
    if barIdBad l then l.head?.map (repRec w 0x0030) else none)

/-- Whether two records of one opcode name each other's streams in opposite directions. -/
def opposed (x y : VRec) : Bool :=
  rOp x.r == rOp y.r && isSend x.r != isSend y.r && y.die == rPeerDie x.r && y.stream == rPeer x.r &&
    x.die == rPeerDie y.r && x.stream == rPeer y.r

/-- Whether two records move between the same streams in the same direction. -/
def alike (x y : VRec) : Bool :=
  rOp x.r == rOp y.r && isSend x.r == isSend y.r && x.die == y.die && x.stream == y.stream &&
    rPeerDie x.r == rPeerDie y.r && rPeer x.r == rPeer y.r

/-- FORMAT of the operand that a ROT or HALO names. -/
def pairFmt (img : Img) (x : VRec) : Nat :=
  (secTab img x.sec (if isSend x.r then rB x.r 8 2 else rB x.r 10 2)).fmt

/-- Whether a ROT or HALO breaks R121. -/
def pairBad (img : Img) (mask : Nat) (streams : Nat → Nat) (moves : List VRec) (x : VRec) : Bool :=
  (rOp x.r == opROT && rPeerDie x.r != x.die) || !mask.testBit (rPeerDie x.r) ||
    decide (streams (rPeerDie x.r) ≤ rPeer x.r) ||
    (match (moves.filter (opposed x)).drop ((moves.filter (fun y => alike x y)).findIdx (fun y => y == x)) with
     | [] => true
     | y :: _ => rB x.r 12 5 % 2 ^ 36 != rB y.r 12 5 % 2 ^ 36 || pairFmt img x != pairFmt img y)

/-- Check 0x0031, R121. DESIGN CHOICE (log 120): its report names the first ROT or HALO that fails, by die, stream and
index. -/
def check31 (img : Img) (b v : Nat) (recs : List VRec) (w : Rep) : RepChk :=
  let moves := recs.filter (fun x => rOp x.r == opROT || rOp x.r == opHALO)
  let streams := fun d => if (entMask img b).testBit d then secStreams img (secOff img b v d) else 0
  (moves.find? (pairBad img (entMask img b) streams moves)).map (repRec w 0x0031)

/-! ### The place of prefetches, R119 -/

/-- A compute record: opcodes 0x01 to 0x15. -/
def isCompute (op : Nat) : Bool := decide (1 ≤ op) && decide (op ≤ 0x15)

/-- Records placed so far: their indices in order, the compute records among them, and the last WAIT and
PREF of the stream. -/
structure PlaceAcc where
  order : List Nat := []
  computes : List Nat := []
  wait : Option Nat := none
  pref : Option Nat := none
  deriving DecidableEq, Repr

/-- Positions up to and with an index. -/
def after (order : List Nat) : Option Nat → Nat
  | none => 0
  | some i => order.findIdx (fun x => x == i) + 1

/-- Places the next record of a stream under prefetch depth `depth` (R119). -/
def placeNext (depth : Nat) (a : PlaceAcc) (x : Nat × Nat) : PlaceAcc :=
  let (op, i) := x
  if op = opPREF then
    let t := a.computes.length
    let c := if t < depth then none else a.computes[t - depth]?
    let k := max (after a.order c) (max (after a.order a.wait) (after a.order a.pref))
    { a with order := a.order.take k ++ [i] ++ a.order.drop k, pref := some i }
  else
    { a with order := a.order ++ [i]
             computes := if isCompute op then a.computes ++ [i] else a.computes
             wait := if op = opWAIT then some i else a.wait }

/-- The order in which Newel places the records of a stream of the given opcodes, R119. -/
def placeOrder (depth : Nat) (ops : List Nat) : List Nat :=
  (ops.zipIdx.foldl (placeNext depth) {}).order

/-- Blocks and slots a record reads and writes at its full tiles (R63, log 31). -/
def fullFoot (od : OpdTab) (r : Nat) : List Nat × List Nat :=
  let named := (heldUses od r (fullUses r)).filter (fun u => !pagedUse r u)
  let keys := fun (wr : Bool) => (named.filter (fun u => u.wr == wr)).flatMap (fun u => u.keys r (od (u.ix r)))
  let sl := recSlots r (tileExts r) (tileExts r) (od (rB r 10 2)).fmt (od (rB r 12 2)).fmt
  (dedupKeep (keys false ++ sl.1.map slotKey), dedupKeep (keys true ++ sl.2.map slotKey))

/-- The first PREF of a stream that breaks R120. -/
def prefBad (depth : Nat) (od : OpdTab) (recs : List Nat) : Option Nat :=
  let order := placeOrder depth (recs.map rOp)
  (List.range recs.length).find? (fun k =>
    let r := recs.getD k 0
    rOp r == opPREF &&
      (let dst := (fullFoot od r).2
       ((order.drop (after order (some k))).filter (fun j => decide (j < k))).any (fun j =>
         let f := fullFoot od (recs.getD j 0)
         meets dst (f.1 ++ f.2))))

/-- Check 0x0032, R120. -/
def check32 (img : Img) (b v : Nat) (w : Rep) : RepChk :=
  firstRep (entDies img b) (fun d =>
    let o := secOff img b v d
    firstRep (List.range (secStreams img o)) (fun k =>
      (prefBad (hdrDepth img) (secTab img o) (secRecs img o k)).map (fun i =>
        { w with code := 0x0032, die := d, stream := k, record := i, off := secRecOff img o k + 32 * i })))

/-! ### The order of R143 -/

/-- Die sections and streams already checked: each is checked where it is first reached. -/
structure Seen where
  secs : List (Nat × Nat) := []
  streams : List (Nat × Nat × Nat) := []
  deriving DecidableEq, Repr

/-- A check result as a step of a walk. -/
def repStep {α : Type} (c : RepChk) (a : α) : Except Rep α :=
  match c with
  | some r => .error r
  | none => .ok a

/-- A stream in its turn. DESIGN CHOICE (log 120): one that two dies share is checked for each. -/
def walkStream (img : Img) (o ndim : Nat) (w : Rep) (seen : Seen) (k : Nat) : Except Rep Seen :=
  let key := (secRecOff img o k, secRecCount img o k, w.die)
  if seen.streams.contains key then .ok seen
  else repStep (checkStream img o k ndim w) { seen with streams := key :: seen.streams }

/-- A die section in its turn. DESIGN CHOICE (log 120): one that two dies share is checked for each. -/
def walkSection (img : Img) (i v : Nat) (seen : Seen) (d : Nat) : Except Rep Seen :=
  let b := entOff img i
  let o := secOff img b v d
  let w := { repNone with entry := i, variant := v, die := d }
  if seen.secs.contains (o, d) then .ok seen
  else
    match checkSection img o w with
    | some r => .error r
    | none => (List.range (secStreams img o)).foldlM (walkStream img o (entNdim img b) w)
        { seen with secs := (o, d) :: seen.secs }

/-- A variant in its turn. -/
def walkVariant (img : Img) (i : Nat) (seen : Seen) (v : Nat) : Except Rep Seen :=
  let b := entOff img i
  let w := { repNone with entry := i, variant := v }
  match checkWords img i v with
  | some r => .error r
  | none =>
    match (entDies img b).foldlM (walkSection img i v) seen with
    | .error r => .error r
    | .ok seen =>
      let recs := variantRecs img b v
      repStep (check30 recs w <|> check31 img b v recs w <|> check32 img b v w) seen

/-- An entry in its turn. -/
def walkEntry (img : Img) (seen : Seen) (i : Nat) : Except Rep Seen :=
  match checkEntry img i with
  | some r => .error r
  | none => (List.range (entV img (entOff img i))).foldlM (walkVariant img i) seen

/-! ### Chain groups, R150 -/

/-- Every die section of an entry, as (variant, die). -/
def entSections (img : Img) (b : Nat) : List (Nat × Nat) :=
  (List.range (entV img b)).flatMap (fun v => (entDies img b).map (fun d => (v, d)))

/-- The field in which two entries of a group differ, as an offset. -/
def entDiff (img : Img) (b c : Nat) : Option Nat := [0, 1, 2, 3, 4].find? (fun k => img (b + k) 1 != img (c + k) 1)

/-- The group rule of one group, given its entries in increasing index. -/
def checkGroup (img : Img) (l : List Nat) : RepChk :=
  match l with
  | [] => none
  | i0 :: _ =>
    let b0 := entOff img i0
    let w := fun (i : Nat) => { repNone with entry := i }
    let n0 := secStreams img (secOff img b0 0 ((entDies img b0).headD 0))
    let heads := l.filter (fun i => entRole img (entOff img i) == 1)
    firstRep l (fun i => (entDiff img b0 (entOff img i)).map (fun k =>
      { w i with code := 0x0012, off := entOff img i + k })) <|>
    firstRep l (fun i => firstRep (entSections img (entOff img i)) (fun (v, d) =>
      let o := secOff img (entOff img i) v d
      repIf (secStreams img o != n0) { w i with variant := v, die := d } 0x0012 o)) <|>
    (heads.drop 1).head?.map (fun i => { w i with code := 0x0012, off := entOff img i + 5 }) <|>
    repIf (heads.isEmpty || !l.any (fun i => entRole img (entOff img i) == 3)) (w i0) 0x0012 (b0 + 5)

/-- The group rule for groups in increasing number. -/
def checkGroups (img : Img) : RepChk :=
  firstRep (List.range 16) (fun g =>
    checkGroup img ((List.range (hdrEntries img)).filter (fun i =>
      entRole img (entOff img i) != 0 && entGroup img (entOff img i) == g)))

/-- Steps 3 to 5 of R143. -/
def checkImage (img : Img) (length share : Nat) (digestOk : Bool) : RepChk :=
  checkHeader img length share digestOk <|>
  match (List.range (hdrEntries img)).foldlM (walkEntry img) {} with
  | .error r => some r
  | .ok _ => checkGroups img

/-! ### Cost figures, R344 -/

/-- Twice the rate factor of a format, Table 2 of The compute core. -/
def rate2 (fmt : Nat) : Nat :=
  if fmt = fmMx4 then 1
  else if fmt = fmBF16 ∨ fmt = fmFP16 then 4
  else if fmt = fmFP32 then 12 else 2

/-- U and V of R522 for a VEC, NORM or RED. -/
def passCounts (r : Nat) : Nat × Nat :=
  let f := vFunc r
  if rOp r = opVEC then
    (if 8 ≤ f ∧ f ≤ 0xD then 4
     else if f = 0x22 then 17 else if f = 0x23 then 10 else if f = 0x24 then 9
     else if f = 0x25 then 11 else if f = 0x26 then 9 else 1, 0)
  else if rOp r = opNORM then (if f = 1 then (5, 4) else if f = 2 then (3, 3) else (11, 0))
  else (1, 0)

/-- Cycles of a vector record at its full tile: R522, R180, R196, R197, R200, R208, R215, R227. An NMS,
whose count is a run-time value, costs what R200 gives for its largest (log 35). -/
def vectorCycles (r : Nat) : Nat :=
  let op := rOp r
  let f := vFunc r
  let t := tileExts r
  let tr := t.getD 0 128
  let pass := tr * ceilDiv (t.getD 1 128) 128
  if op = opRED ∧ 0x10 ≤ f then
    let w := poolWin r
    pass * w.kh * w.kw + (if f = 0x11 then 4 * pass else 0)
  else if op = opVEC ∨ op = opNORM ∨ op = opRED then
    let (u, v) := passCounts r
    u * pass + v * ceilDiv (if vAxis r = 0 then tr else t.getD 1 128) 32
  else if op = opSORT then tr * (8 * ceilDiv (t.getD 1 128) 128 + 8 * ceilDiv (vImm r) 128)
  else if op = opNMS then 128 * 512 + 65536 * 512
  else if op = opBOXD then 16 * ceilDiv tr 128
  else if op = opQSCL then pass
  else if op = opDQSC then 2 * pass
  else if op = opGNRM then (if f = 1 then pass + 16 else if f = 2 then 64 else pass)
  else 4 * pass

/-- Bytes that a move record moves at its full tile, R116. -/
def moveCost (od : OpdTab) (r : Nat) : Nat :=
  let t := tileExts r
  let src := od (rB r 8 2)
  let x := if (rOp r = opSTORE ∧ src.space = spAcc) ∨ rB r 8 2 = noOpd then od (rB r 10 2) else src
  (x.locOn 0 (t.getD 1 128)).moveBytes (t.getD 0 128) (t.getD 1 128)

/-- Cycles of a record at its full tile, without fill and drain. -/
def recCycles (od : OpdTab) (r : Nat) : Nat :=
  let op := rOp r
  let t := tileExts r
  let x := od (rB r 8 2)
  match opGroup op with
  | some .array =>
    if op = opTCONV then 0
    else if op = opMV then
      let b := od (rB r 10 2)
      ceilDiv (fmtBytes b.fmt (t.getD 1 128 * t.getD 2 128)) (if b.space = spGallery then 512 else 1024)
    else rate2 x.fmt * (t.getD 0 128 * t.getD 1 128 * t.getD 2 128) / 32768 + (if op = opCONV then 128 else 0)
  | some .attention =>
    if op = opATTB then (rate2 x.fmt + 1) * t.getD 0 128 * t.getD 1 128 / 128 + 256
    else 4 * t.getD 0 128 + (if aFinal r then 4 * t.getD 0 128 else 0)
  | some .vector => vectorCycles r
  | some .move => ceilDiv (moveCost od r) 512
  | _ => 0

/-- Whether an MM or CONV pays fill and drain after the previous MM or CONV of its stream. -/
def paysFill (od : OpdTab) (prev : Option Nat) (r : Nat) : Bool :=
  match prev with
  | none => true
  | some q =>
    let a := fullFoot od q
    let b := fullFoot od r
    rStat q != rStat r || meets a.2 (b.1 ++ b.2) || meets a.1 b.2

/-- A stream's figure, R344. -/
def streamCost (od : OpdTab) (recs : List Nat) : Nat :=
  (recs.foldl (fun (a : Nat × Option Nat) r =>
    let mm := rOp r = opMM ∨ rOp r = opCONV
    (a.1 + recCycles od r + (if mm ∧ paysFill od a.2 r = true then 256 else 0),
     if mm then some r else a.2)) (0, none)).1

/-- W of a variant: the largest figure over its die sections and streams, R344. -/
def variantCost (img : Img) (b v : Nat) : Nat :=
  natMax ((entDies img b).flatMap (fun d =>
    let o := secOff img b v d
    tab (secStreams img o) (fun k => streamCost (secTab img o) (secRecs img o k))))

end Sys2Proof.Machine
end

