-- ==== Sys2Proof/Machine/Loader.lean ====
section
/-! DEFINITION. PLAN_LOAD and PLAN_UNLOAD (R136 to R142, R525). -/

namespace Sys2Proof.Machine

/-- Fields of a PLAN_LOAD or PLAN_UNLOAD, R331. -/
def Desc.handle (x : Desc) : Nat := leAt x.bytes 2 1
def Desc.loadSrc (x : Desc) : Nat := leAt x.bytes 0x08 8
def Desc.loadLen (x : Desc) : Nat := leAt x.bytes 0x10 8
def Desc.loadDst (x : Desc) : Nat := leAt x.bytes 0x18 8
def Desc.loadReport (x : Desc) : Nat := leAt x.bytes 0x20 8

/-- Bytes of an area: a length rounded up to a multiple of 4 KiB (R136). -/
def areaOf (len : Nat) : Nat := ceilDiv len 4096 * 4096

/-- The plan under a handle of a context. -/
def State.plan (s : State) (n : CtxId) (h : Nat) : Option Plan :=
  s.plans.find? (fun p => decide (p.ctx = n) && p.handle == h)

/-- Changes the plan under a handle of a context. -/
def State.modPlan (s : State) (n : CtxId) (h : Nat) (f : Plan → Plan) : State :=
  { s with plans := updIf s.plans (fun p => decide (p.ctx = n) && p.handle == h) f }

/-- Removes the plan under a handle of a context: its handle and its area are free. -/
def State.dropPlan (s : State) (n : CtxId) (h : Nat) : State :=
  { s with plans := s.plans.filter (fun p => !(decide (p.ctx = n) && p.handle == h)) }

/-- The bytes of an image as a loader or Newel reads them in its area; none past its length. -/
def State.img (s : State) (area len : Nat) : Img := fun off n =>
  leNat (slice (s.devRead (area + off) (min n (len - off))) 0 n)

/-- The image of a plan. -/
def State.planImg (s : State) (p : Plan) : Img := s.img p.area p.size

/-! ### The report, R141 -/

/-- Status of a check code, R142 and R181. -/
def checkStatus (code : Nat) : Byte :=
  if code = 0 then stOk
  else if code = 0x0028 then stAlign
  else if code = 0x002B then stFilter
  else if code = 0x0043 then stLength else stBadPlan

/-- The 128 bytes of a load report, R141 Table 4. -/
def reportBytes (r : Rep) (digest : List Byte) : List Byte :=
  toLe 2 r.code ++ [checkStatus r.code] ++ toLe 1 r.die ++ toLe 2 r.entry ++ toLe 2 r.variant ++
    toLe 2 r.stream ++ toLe 2 r.operand ++ toLe 4 r.record ++ toLe 8 r.off ++ List.replicate 40 0 ++
    slice digest 0 64

/-- Writes the report and then, with what becomes of the plan, completes the PLAN_LOAD (R136); a fault of that write
leaves the plan being loaded, for the job fault to end (R525). -/
def loadDone (x : Desc) (r : Rep) (digest : List Byte) (fin : State → State) (s : State) : State :=
  match s.hubWrite (ringCtx x.ring) x.loadReport (reportBytes r digest) with
  | (s, true) => (fin s).complete x.seq (checkStatus r.code) (BitVec.ofNat 16 r.code)
  | (s, false) => s

/-- A refusal without a computed digest, whose 64 bytes are free (log 34). -/
def loadRefused (x : Desc) (r : Rep) (s : State) : State :=
  let (d, s) := s.freeBytes 64
  loadDone x r d id s

/-! ### PLAN_LOAD -/

/-- Checks 0x0004 and 0x0005, R136, R139. -/
def State.loadFetchCheck (s : State) (x : Desc) : Nat :=
  let n := ringCtx x.ring
  let area := areaOf x.loadLen
  let a := x.loadDst
  if !(decide (a + area ≤ 0xBC00000000) && s.hbmInRanges n a area) then 0x0004
  else if (s.plan n x.handle).isSome ||
      s.plans.any (fun p => decide (p.ctx = n) && overlaps a area p.area (areaOf p.size)) then 0x0005
  else 0

/-- The fetch of a PLAN_LOAD: the handle and the area are in use from here, or it is refused before any
byte is copied. -/
def admitLoad (x : Desc) (s : State) : State :=
  let n := ringCtx x.ring
  let code := s.loadFetchCheck x
  if code = 0 then
    { s with plans := s.plans ++ [{ ctx := n, handle := x.handle, st := .loading, area := x.loadDst,
                                    size := x.loadLen, loadSeq := x.seq }] }
  else loadRefused x { code } s

/-- PLAN_LOAD. -/
def execPlanLoad (r : RingId) (s : State) : Host.Outcome State Fault Refusal :=
  .next (fetchThen r (tyIs 0x0B) noCheck admitLoad (fun q s => s.markStarted q) s)

/-- SHA-512 of an image taken with its DIGEST field as zero (R131). -/
def imageDigest (bs : List Byte) : List Byte :=
  sha512 (bs.zipIdx.map (fun (b, i) => if 0x40 ≤ i ∧ i < 0x80 then 0 else b))

/-- An unload of a handle that waits in flight, fetched after its load, in fetch order. -/
def State.waitingUnload (s : State) (n : CtxId) (h load : Nat) : Option Nat :=
  (s.descs.find? (fun y => y.ty == 0x0C && decide (ringCtx y.ring = n) && y.handle == h &&
    decide (y.st ≠ .done) && decide (load < y.seq))).map (fun y => y.seq)

/-- The checks of the copy of an image of `len` bytes at its destination, with the digest computed. -/
def State.checkCopy (s : State) (n : CtxId) (dst len : Nat) : RepChk × List Byte :=
  let digest := imageDigest (s.devRead dst len)
  let img := s.img dst len
  (checkImage img len ((s.share n).2 / 0x10000) (decide (tab 64 (fun k => img (0x40 + k) 1) = digest.map BitVec.toNat)),
   digest)

/-- The load of an image ends well: the plan is loaded, or being unloaded when an unload waits (R140). -/
def planLoaded (n : CtxId) (h load depth : Nat) (s : State) : State :=
  let u := s.waitingUnload n h load
  s.modPlan n h (fun p => { p with st := if u.isSome then .unloading else .loaded, unloadSeq := u, depth })

/-- PLAN_LOAD_CHECK after the copy: the checks, the report, and the plan loaded or dropped. -/
def loadChecked (x : Desc) (s : State) : State :=
  let n := ringCtx x.ring
  let (c, digest) := s.checkCopy n x.loadDst x.loadLen
  match c with
  | some r => loadDone x r digest id (s.dropPlan n x.handle)
  | none =>
    loadDone x { code := 0 } digest (planLoaded n x.handle x.seq (hdrDepth (s.img x.loadDst x.loadLen))) s

/-- PLAN_LOAD_CHECK: the copy has ended, or a read of a host source failed at an offset: then the bytes
already written are undefined and check 0x000A refuses the load (R136). An illegal device source, or an
uncorrectable codeword in it, is a job fault; `ce` names corrected errors of a device source (R289). -/
def planLoadCheck (x : Desc) (readFail : Option Nat) (ce : List Nat) (s : State) : State :=
  let n := ringCtx x.ring
  let src := x.loadSrc
  let len := x.loadLen
  match (if isHost src then none else s.readFault n src len) with
  | some (c, a) => s.raise c hubSideDie [n] a
  | none =>
    match (if isHost src then readFail else none) with
    | some off =>
      loadRefused x { code := 0x000A, off } ((s.scramble x.loadDst (min off len)).dropPlan n x.handle)
    | none =>
      match s.writeFault n x.loadDst len with
      | some (c, a) => s.raise c hubSideDie [n] a
      | none =>
        let bs := s.anyRead src len
        let s := if isHost src then s else ((s.countBytes false src len).chargeBytes n none src len).readCe src len ce
        loadChecked x ((s.putBytes x.loadDst bs).chargeBytes n none x.loadDst bs.length)

/-- PLAN_LOAD_CHECK. A failing read lies inside the source. The copy waits for stopped islands on its way (R19). -/
def execPlanLoadCheck (seq : Nat) (readFail : Option Nat) (s : State) (ce : List Nat := []) : Host.Outcome State Fault Refusal :=
  .next (match s.started seq 0x0B with
    | some x =>
      if s.plans.any (fun p => decide (p.st = .loading) && p.loadSeq == seq) &&
          (match readFail with
           | some off => decide (off < x.loadLen)
           | none => true) && s.sideRuns none x.loadSrc x.loadLen && s.memRuns none x.loadDst x.loadLen then
        planLoadCheck x readFail ce s
      else s
    | none => s)

/-! ### PLAN_UNLOAD, R140 -/

/-- The fetch of a PLAN_UNLOAD: a loaded plan is being unloaded, and DISPATCHes fetched later do not find
it. -/
def admitUnload (x : Desc) (s : State) : State :=
  let n := ringCtx x.ring
  match s.plan n x.handle with
  | some p => if p.st = .loaded then
      s.modPlan n x.handle (fun p => { p with st := .unloading, unloadSeq := some x.seq })
    else s
  | none => s

/-- The start of a PLAN_UNLOAD: it waits, or completes with OK_EMPTY when the handle is neither loaded
nor being loaded. -/
def startUnload (seq : Nat) (s : State) : State :=
  match s.desc seq with
  | none => s
  | some x =>
    match s.plan (ringCtx x.ring) x.handle with
    | some p =>
      if (p.st = .loading ∧ p.loadSeq < seq) ∨ p.unloadSeq = some seq then s.markStarted seq else s.complete seq stOkEmpty 0
    | none => s.complete seq stOkEmpty 0

/-- PLAN_UNLOAD. -/
def execPlanUnload (r : RingId) (s : State) : Host.Outcome State Fault Refusal :=
  .next (fetchThen r (tyIs 0x0C) noCheck admitUnload startUnload s)

/-- Whether a DISPATCH naming a handle of a context, fetched before `seq`, has not completed. -/
def State.namedBefore (s : State) (n : CtxId) (h seq : Nat) : Bool :=
  s.earlierOpen seq (fun y => y.ty == 0x01 && decide (ringCtx y.ring = n) && y.handle == h)

/-- PLAN_UNLOAD_EFFECT: the plan is unloaded and its open chains close; or the load it waited for was
refused, or another unload has the plan (R140). -/
def planUnloadEffect (x : Desc) (s : State) : State :=
  let n := ringCtx x.ring
  match s.plan n x.handle with
  | none => s.complete x.seq stOkEmpty 0
  | some p =>
    if p.st = .loading ∧ p.loadSeq < x.seq then s
    else if p.unloadSeq ≠ some x.seq then s.complete x.seq stOkEmpty 0
    else if s.namedBefore n x.handle x.seq then s
    else ((s.dropPlan n x.handle).closeChains (fun c => decide (c.ctx = n) && c.handle == x.handle)).complete
      x.seq stOk 0

/-- PLAN_UNLOAD_EFFECT. -/
def execPlanUnloadEffect (seq : Nat) (s : State) : Host.Outcome State Fault Refusal :=
  .next (match s.started seq 0x0C with
    | some x => planUnloadEffect x s
    | none => s)

end Sys2Proof.Machine
end

