-- ==== Sys2Proof/Machine/Clocks.lean ====
section
/-! DEFINITION. Island clocks and voltage (R401 to R408, R410, R411): effective clock and caps, raising and
lowering, timing monitors, droop, the current and power caps, generator switches, heat. -/

namespace Sys2Proof.Machine

/-- Clock step `k` in MHz, R401. -/
def stepMhz (k : Nat) : Nat := 700 + 50 * k

/-- The step of a clock. -/
def mhzStep (f : Nat) : Nat := (f - 700) / 50

/-- The core of an island, R424. -/
def islandCore (x : Island) : Option PCore := if h : x.val < 32 then some ⟨x.val, h⟩ else none

/-- The island of a core. -/
def coreIsland (p : PCore) : Island := ⟨p.val, by omega⟩

/-! ### Rail groups, R399 -/

/-- Index of a rail group: its place in PWD_STATUS.DEGRADED, VDM 8, and the hub's 9 to 11 (log 110). -/
def railIdx : Rail → Nat
  | .vcg g => g.val
  | .vsh => 4
  | .vmc => 5
  | .vhbm => 6
  | .vopt => 7
  | .vdm => 8
  | .vhubA => 9
  | .vhubB => 10
  | .vstby => 11

/-- Working phases N of a rail group. -/
def railN : Rail → Nat
  | .vcg _ => 6
  | .vsh => 4
  | .vmc => 2
  | .vhbm => 4
  | .vopt => 3
  | .vdm => 1
  | .vhubA => 2
  | .vhubB => 2
  | .vstby => 1

/-- The current in A that a number of working phases deliver, at most the group's limit: the spares add none. -/
def railAmps (g : Rail) (working : Nat) : Nat := 30 * min working (railN g)

/-- The voltages of a rail group in mV, from the lowest to the highest it may have; VHBM's and VOPT's further fixed
supplies are 400, 1,800 and 3,300 mV. -/
def railRange : Rail → Nat × Nat
  | .vcg _ => (600, 900)
  | .vsh => (650, 850)
  | .vmc => (750, 750)
  | .vhbm => (1100, 1100)
  | .vopt => (900, 900)
  | .vdm => (750, 750)
  | .vhubA => (750, 750)
  | .vhubB => (750, 750)
  | .vstby => (3300, 3300)

/-- Whether a rail group is the hub's. -/
def railHub (g : Rail) : Bool := decide (9 ≤ railIdx g)

/-- The field of PWD_PHASES of a rail group; VDM and the hub's have none. -/
def railField : Rail → Option (Nat × Nat)
  | .vcg g => some (4 * g.val + 3, 4 * g.val)
  | .vsh => some (19, 16)
  | .vmc => some (23, 20)
  | .vhbm => some (27, 24)
  | .vopt => some (31, 28)
  | _ => none

/-- The islands that an adaptive rail supplies: the cores of a VCG group, and Gallery, Landing, media engine, Teasel,
Newel and its twin of VSH. -/
def railIslands : Rail → List Island
  | .vcg g => (List.finRange 8).map (fun k => ⟨8 * g.val + k.val, by omega⟩)
  | .vsh => [32, 33, 38, 39, 40, 41]
  | _ => []

/-- The rail groups of a die whose voltage adapts. -/
def adaptiveRails : List Rail := [.vcg 0, .vcg 1, .vcg 2, .vcg 3, .vsh]

/-- The highest clock step whose calibrated current fits within the working phases, in MHz (R400). -/
def railCap (d : Die) (g : Rail) (working : Nat) : Nat :=
  stepMhz (((List.range 19).filter (fun k =>
    decide (Config.railCurrent d.val (railIdx g) k ≤ railAmps g working))).getLastD 0)

/-! ### Effective clock, R405 -/

/-- Whether an island is OFF: its rails are off, or the function that it is (R24, R405). -/
def State.islandOff (s : State) (d : Die) (x : Island) : Bool :=
  !(s.die d).railOn ||
    (match islandCore x with
     | some p => s.fnIs (.core d p) .off
     | none =>
       if x.val = 38 then s.fnIs (.media d) .off
       else if x.val = 39 then s.fnIs (.teasel d) .off
       else if x.val = 40 then !(s.die d).newelOn
       else if x.val = 41 then decide ((s.die d).twin = .failed) else false)

/-- Whether the DISPATCH that runs on a die is under the energy cap (R352). -/
def State.energyCapped (s : State) (d : Die) : Bool :=
  match (s.die d).run with
  | none => false
  | some q =>
    match s.disp q with
    | some y => y.capped || (s.ctx y.ctx).exhausted
    | none => false

/-- The planned clock of an island: R351's for a core island, 1,400 MHz for an island without a plan. -/
def State.planOf (s : State) (d : Die) (x : Island) : Nat :=
  if (islandCore x).isSome then (s.island d x).plan else 1400

/-- The caps of an island with their codes, R405 Table 2. The islands without a plan take the caps of power and input
current that the core islands take (log 111), but not the energy cap; die management takes none. -/
def State.capsOf (s : State) (d : Die) (x : Island) : List (Nat × Nat) :=
  let i := s.island d x
  if x.val = 42 then []
  else [(1, stepMhz s.hub.powerCap), (2, stepMhz s.hub.currentCap), (2, i.capRail), (3, i.capThermal)] ++
    (if (islandCore x).isSome && s.energyCapped d then [(4, 700)] else [])

/-- The effective clock with the code of the cap that sets it, the lower code for equal values (R405). -/
def State.effective (s : State) (d : Die) (x : Island) : Nat × Nat :=
  if s.islandOff d x then (0, 6)
  else if (s.island d x).stopped then (0, 5)
  else (s.capsOf d x).foldl (fun (best : Nat × Nat) (c : Nat × Nat) =>
    if c.2 < best.1 then (c.2, c.1) else best) (s.planOf d x, 0)

/-- Sets an island's frequency, with a trace record of KIND 0x08 (R485). -/
def State.setFreq (s : State) (d : Die) (x : Island) (f : Nat) : State :=
  (s.modIsland d x (fun i => { i with freq := f })).traceRec d.val 0x20 0x08 0x40
    (traceData [x.val, f, (s.effective d x).2])

/-! ### Voltage, R402, R403 -/

/-- The guard of an island in mV: 15, and 10 more for each droop of the last second that lasted 100 µs
(R403, R404). -/
def State.guardMv (s : State) (d : Die) (x : Island) : Nat :=
  15 + 10 * ((s.island d x).raised.filter (fun t => decide (s.now < t))).length

/-- The voltage of a VCG or VSH rail: the highest requirement of its islands plus 20 mV, within its range (R399,
R403). -/
def State.railNeed (s : State) (d : Die) (g : Rail) : Nat :=
  min (railRange g).2 (max (railRange g).1 (natMax ((railIslands g).map (fun x => (s.island d x).needMv)) + 20))

/-- Sets an adaptive rail; each island's own regulator trims its supply down by up to 60 mV to its requirement
(R403). -/
def setRail (d : Die) (s : State) (g : Rail) : State :=
  let mv := s.railNeed d g
  let s := s.modDie d (fun x => { x with railMv := SMap.put x.railMv (railIdx g) mv })
  (railIslands g).foldl (fun s x => s.modIsland d x (fun i => { i with setMv := max i.needMv (mv - 60) })) s

/-- Sets the adaptive rails of a die. -/
def setRails (d : Die) (s : State) : State := adaptiveRails.foldl (setRail d) s

/-- An island's requirement becomes that of a clock step, with its guard. -/
def State.needStep (s : State) (d : Die) (x : Island) (f : Nat) : State :=
  setRails d (s.modIsland d x (fun i => { i with needMv := Config.stepMv d.val x.val (mhzStep f) + s.guardMv d x }))

/-- ISLAND_CLOCK_RAISE: the voltage rises and then the frequency, by one step; an island that starts
does so at 700 MHz (R402, R410). -/
def execIslandClockRaise (d : Die) (x : Island) (s : State) : Host.Outcome State Fault Refusal :=
  let f := (s.island d x).freq
  let f' := if f < 700 then 700 else f + 50
  .next (if f < (s.effective d x).1 then (s.needStep d x f').setFreq d x f' else s)

/-- ISLAND_CLOCK_LOWER: the frequency falls to the effective clock, and the voltage follows (R402); that of an island
that stops or goes OFF stays. -/
def execIslandClockLower (d : Die) (x : Island) (s : State) : Host.Outcome State Fault Refusal :=
  let f := (s.effective d x).1
  .next (if f < (s.island d x).freq then
      (if f < 700 then s.setFreq d x f else (s.setFreq d x f).needStep d x f)
    else s)

/-- TIMING_MONITOR: the lowest voltage at which each island passes at its set frequency, plus its guard,
is what the island needs, and the rails are set to it (R403). -/
def execTimingMonitor (d : Die) (need : List (Island × Nat)) (s : State) : Host.Outcome State Fault Refusal :=
  .next (setRails d (need.foldl (fun s (x, mv) =>
    s.modIsland d x (fun i => { i with needMv := mv + s.guardMv d x })) s))

/-- DROOP_START: a drop of 30 mV or more starts lengthening cycles (R404). -/
def execDroopStart (d : Die) (x : Island) (dropMv : Nat) (s : State) : Host.Outcome State Fault Refusal :=
  .next (if 30 ≤ dropMv ∧ (s.island d x).droop = false ∧ s.islandOff d x = false then
      (s.modIsland d x (fun i => { i with droop := true })).bump .pwdDroopCount d.val 0 1
    else s)

/-- DROOP_END: the lengthened cycles are counted; a droop of 100 µs or more raises the guard for 1 s. -/
def execDroopEnd (d : Die) (x : Island) (cycles lastNs : Nat) (s : State) : Host.Outcome State Fault Refusal :=
  .next (if (s.island d x).droop then
      (s.modIsland d x (fun i => { i with
        droop := false
        raised := (i.raised.filter (fun t => decide (s.now < t))) ++
          (if 100000 ≤ lastNs then [s.now + 10 ^ 9] else []) })).bump .pwdStretchCyc d.val 0 cycles
    else s)

/-- Whether a cap may move again: at least `gap` ns after it last did. -/
def State.stepDue (s : State) (last : Option Nat) (gap : Nat) : Bool :=
  match last with
  | some t => decide (t + gap ≤ s.now)
  | none => true

/-- The current cap: above 145 A a step down every 10 µs until the current is below 140 A, and then a step up every
1 ms (R406). An activation counts in PWR_EVENTS and takes the first step at once. -/
def inputCurrentStep (milliamp : Nat) (s : State) : State :=
  let c := s.hub.currentCap
  let down := decide (145000 < milliamp) || (s.hub.currentDown && decide (140000 ≤ milliamp))
  let start := down && !s.hub.currentDown
  let go := start || s.stepDue s.hub.currentAt (if down then 10000 else 1000000)
  let s := if start then s.bumpSat .pwrEvents 0 0 15 8 1 else s
  { s with hub := { s.hub with
    currentDown := down
    currentAt := if go then some s.now else s.hub.currentAt
    currentCap := if go then (if down then c - 1 else min 18 (c + 1)) else c } }

/-- INPUT_CURRENT_STEP. -/
def execInputCurrentStep (milliamp : Nat) (s : State) : Host.Outcome State Fault Refusal :=
  .next (inputCurrentStep milliamp s)

/-- The power cap: with the average input power above PWR_CAP a step down every 10 ms until the average is below 98 % of
it, and then a step up every 100 ms (R407). An activation counts in PWR_EVENTS and takes the first step at once. -/
def powerCapStep (watt : Nat) (s : State) : State :=
  let cap := s.regFld .pwrCap 0 0 0 12 0
  let c := s.hub.powerCap
  let down := decide (cap < watt) || (s.hub.powerDown && decide (cap * 98 ≤ watt * 100))
  let start := down && !s.hub.powerDown
  let go := start || s.stepDue s.hub.powerAt (if down then 10000000 else 100000000)
  let s := s.setReg .pwrInputW 0 0 0 (BitVec.ofNat 64 (min watt 65535))
  let s := if start then s.bumpSat .pwrEvents 0 0 23 16 1 else s
  { s with hub := { s.hub with
    powerDown := down
    powerAt := if go then some s.now else s.hub.powerAt
    powerCap := if go then (if down then c - 1 else min 18 (c + 1)) else c } }

/-- POWER_CAP_STEP. -/
def execPowerCapStep (watt : Nat) (s : State) : Host.Outcome State Fault Refusal := .next (powerCapStep watt s)

/-! ### Cycle counters, R20 -/

/-- The cycle counters of an island, with their index. -/
def cycleRegs (x : Island) : List (RegId × Nat) :=
  if x.val < 32 then
    [(.coreCycArray, x.val), (.coreCycSpeedwell, x.val), (.coreCycVector, x.val), (.coreCycIssueWait, x.val)]
  else if 34 ≤ x.val ∧ x.val < 38 then [(.mcCycBusy, x.val - 34)]
  else if x = islMedia then [(.medCycDec, 0), (.medCycEnc, 0)]
  else if x = islTeasel then [(.teaCycBusy, 0)]
  else if x = islNewel ∨ x.val = 41 then [(.vetCycWalk, 0)]
  else []

/-- The cycles of a number of nanoseconds of a running island: a free number, of at most 1.6 GHz (log 38). -/
def State.freeCycles (s : State) (ns : Nat) : Nat := (Config.freeValue 64 s.free).toNat % (ns * 8 / 5 + 1)

/-- Brings a cycle counter up to now: by the cycles of the time in which its unit was busy on a running island since it
was last brought up; none when there was no such time (R409, log 38). -/
def State.settleCyc (s : State) (d : Die) (c : RegId × Nat) : State :=
  let off := c.1.off d.val c.2 0
  ({ s with free := s.free + 1, busyNs := SMap.del s.busyNs off }).bump c.1 d.val c.2 (s.freeCycles (SMap.getD s.busyNs off 0))

/-! ### Heat, R410, R411 -/

/-- What an island's temperature does: at 100 °C it stops, at 95 °C its cap goes to 700 MHz, below 90 °C a
stopped island restarts at 700 MHz (R410); the time at or above MOVE_C runs (R411). Units of 0.125 °C. -/
def islandHeat (d : Die) (x : Island) (t : Int) (s : State) : State :=
  let i := s.island d x
  let moveC : Int := s.regFld .pwdThermCtl d.val 0 0 7 0
  let s := if 800 ≤ t ∧ i.stopped = false then s.bumpSat .pwdEvents d.val 0 23 16 1 else s
  s.modIsland d x (fun i => { i with
    stopped := if 800 ≤ t then true else if t < 720 then false else i.stopped
    capThermal := if 760 ≤ t ∨ (t < 720 ∧ i.stopped = true) then 700 else i.capThermal
    hotSince := if moveC * 8 ≤ t then some (i.hotSince.getD s.now) else none })

/-- PWD_ISLAND of an island: temperature, effective clock and cap (R424). -/
def islandWord (s : State) (d : Die) (x : Island) (t : Int) : W64 :=
  let (f, c) := s.effective d x
  BitVec.ofNat 64 (unsgn 16 t * 65536 + c * 4096 + f)

/-- The junction temperature last reported, in units of 0.125 °C. -/
def State.tempOf (s : State) (d : Die) (x : Island) : Int := sgn 16 (s.regFld .pwdIsland d.val x.val 0 31 16)

/-- Whether some junction of the module is at or above 93 °C: THERM_ALERT_N is asserted (R410). -/
def State.anyHot (s : State) : Bool :=
  allDies.any (fun d => (List.finRange 43).any (fun x => decide (744 ≤ s.tempOf d x)))

/-- THERMAL_REPORT: temperatures act and PWD_ISLAND is updated; a stack at 95 °C or above has its
controller's request rate halved until it falls below 90 °C (R410). -/
def thermalReport (d : Die) (temps : List (Island × Int)) (hbmTemps : List (Mc × Int)) (s : State) : State :=
  let s := temps.foldl (fun s (x, t) => islandHeat d x t s) s
  let s := (List.finRange 43).foldl (fun s x =>
    let t := ((temps.find? (fun y => decide (y.1 = x))).map (fun y => y.2)).getD (s.tempOf d x)
    s.setReg .pwdIsland d.val x.val 0 (islandWord s d x t)) s
  let s := hbmTemps.foldl (fun s (m, t) => s.modMc d m (fun c =>
    { c with temp := some t, throttled := if 760 ≤ t then true else if t < 720 then false else c.throttled })) s
  { s with boot := { s.boot with thermAlert := s.anyHot } }

/-- The thermal cap of an island: at or above 93 °C one step down every 1 ms, below 90 °C one step up every 10 ms
(R410). -/
def thermalCapStep (d : Die) (x : Island) (s : State) : State :=
  let t := s.tempOf d x
  let at' := (s.island d x).capAt
  if 744 ≤ t ∧ s.stepDue at' 1000000 then
    s.modIsland d x (fun i => { i with capThermal := max 700 (i.capThermal - 50), capAt := some s.now })
  else if t < 720 ∧ s.stepDue at' 10000000 then
    s.modIsland d x (fun i => { i with capThermal := min 1600 (i.capThermal + 50), capAt := some s.now })
  else s

/-- THERMAL_CAP_STEP. -/
def execThermalCapStep (d : Die) (x : Island) (s : State) : Host.Outcome State Fault Refusal :=
  .next (thermalCapStep d x s)

/-- A spare core of the die that is at least 10 °C cooler than a core. -/
def State.coolSpare (s : State) (d : Die) (p : PCore) : Option PCore :=
  (s.spareCores d).find? (fun q => decide (s.tempOf d (coreIsland q) + 80 ≤ s.tempOf d (coreIsland p)))

/-- Whether R411 moves a core now: enabled, hot for 10 ms, no move or retirement under way on the die, and
its logical core not moved within 1 s. -/
def State.mayMove (s : State) (d : Die) (p : PCore) : Bool :=
  let k := s.core d p
  s.regFld .pwdThermCtl d.val 0 0 8 8 == 1 && decide (k.role = .inService) && (s.die d).moving.isNone && s.newelUp d &&
    !allPCores.any (fun q => (s.core d q).retireTo.isSome) &&
    (match (s.island d (coreIsland p)).hotSince with
     | some t => decide (t + 10 ^ 7 ≤ s.now)
     | none => false) &&
    (match k.movedAt with
     | some t => decide (t + 10 ^ 9 ≤ s.now)
     | none => true)

/-- Issue stops on the hot core, which goes to its spare once its issued operations have completed. -/
def moveStart (d : Die) (p q : PCore) (s : State) : State :=
  (s.modCore d p (fun k => { k with stopped := true, retireTo := some q, thermalMove := true })).modDie d
    (fun x => { x with moving := some p })

/-- THERMAL_MOVE. -/
def execThermalMove (d : Die) (p : PCore) (s : State) : Host.Outcome State Fault Refusal :=
  .next (match s.coolSpare d p with
    | some q => if s.mayMove d p then moveStart d p q s else s
    | none => s)

end Sys2Proof.Machine
end

