-- ==== Sys2Proof/Machine/Sched.lean ====
section
/-! DEFINITION. DISPATCH: its checks (R144, R145, R343, R347, R350, R351), order (R346), start (R174, R189,
R342), pre-emption and switches (R348, R353 to R357), and completion (R130, R349, R481). -/

namespace Sys2Proof.Machine

/-! ### Fields of a DISPATCH, R331, R333 -/

def Desc.entry (x : Desc) : Nat := leAt x.bytes 4 2
def Desc.dims (x : Desc) : List Nat := [leAt x.bytes 0x10 4, leAt x.bytes 0x14 4, leAt x.bytes 0x18 4]
def Desc.energyField (x : Desc) : Nat := leAt x.bytes 0x28 8

/-- DEADLINE; all ones means none. -/
def Desc.deadline (x : Desc) : Option Nat :=
  if leAt x.bytes 0x08 8 = 2 ^ 64 - 1 then none else some (leAt x.bytes 0x08 8)

/-- The dispatch arguments, zero without ARGS; the fetch keeps the argument block after the 64 bytes. -/
def Desc.args (x : Desc) : List W64 :=
  tab 16 (fun j => if argsFlag x.bytes then BitVec.ofNat 64 (leAt x.bytes (64 + 8 * j) 8) else 0)

/-! ### Choosing a variant, R144 -/

/-- The bucket of dimension `j` for an extent: the smallest that is not less than it. -/
def bucketFor (img : Img) (b j ext : Nat) : Option Nat :=
  (List.range (entNb img b j)).find? (fun k => decide (ext ≤ bucketAt img b j k))

/-- The bucket indices of a DISPATCH, or the lowest dimension whose extent exceeds its largest bucket. -/
def bucketsFor (img : Img) (b : Nat) (dims : List Nat) : Except Nat (List Nat) :=
  (List.range (entNdim img b)).foldlM (fun acc j =>
    match bucketFor img b j (dims.getD j 0) with
    | some k => .ok (acc ++ [k])
    | none => .error j) []

/-- The variant of bucket indices, R134. -/
def variantOf (img : Img) (b : Nat) (ks : List Nat) : Nat :=
  ks.getD 0 0 + entNbEff img b 0 * (ks.getD 1 0 + entNbEff img b 1 * ks.getD 2 0)

/-- The records of a variant with their die sections. -/
def variantNums (img : Img) (b v : Nat) : List Nat :=
  (entDies img b).flatMap (fun d =>
    let o := secOff img b v d
    (List.range (secStreams img o)).flatMap (fun k => secRecs img o k))

/-! ### Checks 1 to 8, R145 -/

/-- An MV whose dynamic valid M exceeds 4, R107. -/
def mvTooLong (dims : List Nat) (r : Nat) : Bool :=
  rOp r == opMV && rB r 18 2 / 2 ^ 14 != 0 && decide (4 < validExt 128 (rB r 18 2) dims)

/-- Operands that the paged ATTBs of a die section name as OPD_K or OPD_V. -/
def pagedOpds (img : Img) (o : Nat) : List Nat :=
  (List.range (secStreams img o)).flatMap (fun k => (secRecs img o k).flatMap (fun r =>
    if rOp r = opATTB ∧ aPaged r = true then [rB r 10 2, rB r 12 2] else []))

/-- Whether the address of a paged operand breaks R173: a key-value virtual address of 48 bits (R170), and a multiple of
128 × 128 × w. -/
def pagedAddrBad (x : Opd) : Bool :=
  decide (2 ^ 48 ≤ x.addr) || decide (x.addr % (128 * 128 * (fmtHalfBytes x.fmt / 2)) ≠ 0)

/-- The lowest operand that an argument makes break R105 or, as a paged one, R173, on the lowest die. -/
def argMisaligned (img : Img) (b v : Nat) (args : List W64) : Option Nat :=
  (entDies img b).findSome? (fun d =>
    let o := secOff img b v d
    let paged := pagedOpds img o
    (List.range (secOpds img o)).find? (fun k =>
      let x := secTab img o k
      let y := x.withArgs args
      x.base != 0 && (y.addr % 64 != 0 || (isMx y.fmt && y.scale % 64 != 0) || (paged.contains k && pagedAddrBad y))))

/-- Whether an ATTB of some variant names a dimension in EXT_Q or EXT_KV, R168. -/
def seqDim (img : Img) (b j : Nat) : Bool :=
  (List.range (entV img b)).any (fun v => (variantNums img b v).any (fun r =>
    rOp r == opATTB && (rB r 18 2 / 2 ^ 14 == j + 1 || rB r 20 2 / 2 ^ 14 == j + 1)))

/-- Whether a chain of a group is open. -/
def State.chainOpen (s : State) (n : CtxId) (h g : Nat) : Bool :=
  s.chains.any (fun c => decide (c.ctx = n) && c.handle == h && c.group == g)

/-- Whether a plan may be named by a DISPATCH fetched as `seq`: loaded, or being unloaded by a PLAN_UNLOAD
fetched later (R140). -/
def planNamed (p : Plan) (seq : Nat) : Bool :=
  match p.st with
  | .loaded => true
  | .loading => false
  | .unloading => match p.unloadSeq with
    | some u => decide (seq < u)
    | none => false

/-- Checks 1 to 4 with the plan, entry offset and variant they find. -/
def State.findVariant (s : State) (x : Desc) : Except (Byte × Nat) (Plan × Img × Nat × Nat) :=
  match (s.plan (ringCtx x.ring) x.handle).filter (fun p => planNamed p x.seq) with
  | none => .error (stBadPlan, 0x0101)
  | some p =>
    let img := s.planImg p
    if hdrEntries img ≤ x.entry then .error (stBadPlan, 0x0102)
    else
      let b := entOff img x.entry
      if (List.range 3).any (fun j => decide (entNdim img b ≤ j) && decide (x.dims.getD j 0 ≠ 0)) then
        .error (stBadDesc, 0x0103)
      else match bucketsFor img b x.dims with
        | .error j => .error (stShape, j)
        | .ok ks => .ok (p, img, b, variantOf img b ks)

/-- Checks 5 to 8. -/
def State.lateChecks (s : State) (x : Desc) (img : Img) (b v : Nat) : Option (Byte × Nat) :=
  let n := ringCtx x.ring
  let chained := s.chainOpen n x.handle (entGroup img b)
  failIf ((variantNums img b v).any (mvTooLong x.dims)) (stShape, 0x0003) <|>
  failIf (decide (2 ≤ entRole img b) && !chained) (stBadPlan, 0x0104) <|>
  failIf (entRole img b == 1 && chained) (stBadPlan, 0x0105) <|>
  (argMisaligned img b v x.args).map (fun k => (stAlign, k)) <|>
  ((List.range (entNdim img b)).find? (fun j => decide (1048576 < x.dims.getD j 0) && seqDim img b j)).map
    (fun j => (stLength, j))

/-! ### Order, R346 -/

/-- Keys of the order: deadline, context, fetch; without a deadline contexts from the pointer on. -/
def State.orderKey (s : State) (y : Disp) : Nat × Nat × Nat :=
  match y.deadline with
  | some t => (min t (2 ^ 64), y.ctx.val, y.seq)
  | none => (2 ^ 64 + 1, (y.ctx.val + 64 - s.arb.noDeadline % 64) % 64, y.seq)

/-- Whether `y` stands before `z` in the order. -/
def State.before (s : State) (y z : Disp) : Bool :=
  let a := s.orderKey y
  let b := s.orderKey z
  decide (a.1 < b.1) || (decide (a.1 = b.1) && (decide (a.2.1 < b.2.1) ||
    (decide (a.2.1 = b.2.1) && decide (a.2.2 < b.2.2))))

/-- Waiting DISPATCHes: ready or pre-empted. -/
def Disp.waits (y : Disp) : Bool := decide (y.st = .ready) || decide (y.st = .preempted)

/-- Whether two DISPATCHes share a die. -/
def shareDie (y z : Disp) : Bool := y.dies.any (fun d => z.dies.contains d)

/-- Whether no waiting DISPATCH earlier in the order uses any of a DISPATCH's dies. -/
def State.firstInOrder (s : State) (y : Disp) : Bool :=
  s.disps.all (fun z => !(z.waits && z.seq != y.seq && shareDie y z && s.before z y))

/-! ### Admission, R347, R350, R351 -/

/-- FMAX of a context. -/
def State.fmax (s : State) (n : CtxId) : Nat := s.regFld .hifCtxSched 0 n.val 0 23 13

/-- MARGIN × 50 µs of a context, in ns. -/
def State.marginNs (s : State) (n : CtxId) : Nat := s.regFld .hifCtxSched 0 n.val 0 31 24 * 50000

/-- run_time of a DISPATCH. -/
def State.ranNs (s : State) (y : Disp) : Nat := y.runTime + (if y.st = .running then s.now - y.since else 0)

/-- Switch cost of a DISPATCH in ns, R345. -/
def switchCost (y : Disp) : Nat := 50000 + 242000 * y.dies.length

/-- Inserts into a list kept in the order of R346. -/
def State.ordInsert (s : State) (y : Disp) : List Disp → List Disp
  | [] => [y]
  | z :: rest => if s.before y z then y :: z :: rest else z :: s.ordInsert y rest

/-- The admitted DISPATCHes with a deadline that use a die, with one more, in order. -/
def State.walkList (s : State) (d : Die) (x : Disp) : List Disp :=
  ((s.disps.filter (fun y => y.deadline.isSome && y.dies.contains d)) ++ [x]).foldl
    (fun l y => s.ordInsert y l) []

/-- Cycles at a clock, in ns. -/
def cycNs (w mhz : Nat) : ℚ := (w * 1000 : ℚ) / (mhz : ℚ)

/-- The walk of R347 over one die: the first DISPATCH that misses its deadline. `clock` gives each its
clock, `margin` what its deadline is reduced by. -/
def State.walkDie (s : State) (clock : Disp → Nat) (margin : Disp → Nat) :
    List Disp → Option CtxId → ℚ → Option Disp
  | [], _, _ => none
  | y :: rest, prev, t =>
    let t := if some y.ctx = prev then t else t + switchCost y
    let t := t + max 0 (cycNs y.cost (clock y) - s.ranNs y)
    if ((y.deadline.getD 0 : ℕ) : ℚ) < t + margin y then some y
    else State.walkDie s clock margin rest (some y.ctx) t

/-- The walk over all dies of a DISPATCH. -/
def State.deadlineWalk (s : State) (clock margin : Disp → Nat) (x : Disp) : Option Disp :=
  x.dies.findSome? (fun d => s.walkDie clock margin (s.walkList d x) (s.die d).lastCtx s.now)

/-- The planned clock, R351: the lowest step no higher than FMAX at which the walk passes with MARGIN;
else FMAX. -/
def State.planMhz (s : State) (x : Disp) : Nat :=
  let top := s.fmax x.ctx
  match x.deadline with
  | none => top
  | some _ =>
    ((tab 19 stepMhz).find? (fun f => decide (f ≤ top) &&
      (s.deadlineWalk (fun y => if y.seq = x.seq then f else y.mhz) (fun y => s.marginNs y.ctx) x).isNone)).getD top

/-- WINDOW_MS of a context in ns; 0 counts as 1. -/
def State.windowNs (s : State) (n : CtxId) : Nat := max 1 (s.regFld .hifCtxSched 0 n.val 0 12 0) * 10 ^ 6

/-- µJ charged to a context in the window of the present instant. -/
def State.windowUsed (s : State) (n : CtxId) : Nat :=
  if (s.ctx n).winStart = s.now / s.windowNs n * s.windowNs n then (s.ctx n).winUsed else 0

/-- ENERGY_BUDGET of a context; 0 is unlimited. -/
def State.energyBudget (s : State) (n : CtxId) : Nat := (s.reg .hifCtxEnergyBudget 0 n.val 0).toNat

/-- A DISPATCH's own budget in µJ, none for no limit (R351). -/
def State.ownBudget (s : State) (x : Desc) : Option Nat :=
  let mj := (s.reg .hifCtxDispEnergy 0 (ringCtx x.ring).val 0).toNat
  if x.energyField ≠ 0 then some x.energyField else if mj = 0 then none else some (mj * 1000)

/-- The estimate E in nJ, R351, R419. -/
def State.estimate (s : State) (y : Disp) : Nat :=
  y.cost * y.dies.length * s.regFld .pwrEcal 0 (mhzStep y.mhz) 0 15 0

/-- Dies as indices. -/
def toDies (l : List Nat) : List Die := l.filterMap (fun d => if h : d < 8 then some ⟨d, h⟩ else none)

/-- The DISPATCH that a descriptor asks for, before its clock is planned. -/
def State.mkDisp (s : State) (x : Desc) (p : Plan) (img : Img) (b v : Nat) : Disp :=
  let dies := toDies (entDies img b)
  { seq := x.seq, ctx := ringCtx x.ring, ring := x.ring, slot := x.slot
    fetchNo := x.fetchNo, handle := x.handle, entry := x.entry, variant := v, dies
    sections := dies.map (fun d => (d, p.area + secOff img b v d.val))
    ndim := entNdim img b, dims := x.dims, args := x.args, deadline := x.deadline
    budget := s.ownBudget x, cost := variantCost img b v, mhz := 1400
    watchdogMs := entWatchdog img b, role := entRole img b, group := entGroup img b }

/-- Check 9, R343: more streams on a die than its logical cores in service. -/
def State.tooManyStreams (s : State) (y : Disp) : Bool :=
  y.sections.any (fun (d, o) => decide ((s.inService d).length < s.devNat o 2))

/-- Checks 9 to 12 of Table 1; the DISPATCH with its planned clock when they pass. -/
def State.admission (s : State) (y : Disp) : Except (Byte × Nat) Disp :=
  let n := y.ctx
  let left := s.energyBudget n - s.windowUsed n
  if s.tooManyStreams y then .error (stBadPlan, 0x0106)
  else if s.energyBudget n ≠ 0 ∧ left = 0 then .error (stEnergy, 0x0001)
  else
    match (if y.deadline.isSome then s.deadlineWalk (fun z => s.fmax z.ctx) (fun _ => 0) y else none) with
    | some z => .error (stDeadline, if z.seq = y.seq then 0xFFFF else z.ctx.val)
    | none =>
      let y := { y with mhz := s.planMhz y }
      let e := s.estimate y
      if (match y.budget with
          | some k => decide (k * 1000 < e)
          | none => false) then .error (stEnergy, 0x0002)
      else if s.energyBudget n ≠ 0 ∧ left * 1000 < e then .error (stEnergy, 0x0003)
      else .ok y

/-! ### Fetch and release -/

/-- Chain group of a DISPATCH's entry when its plan is there and the entry has a role, R149. -/
def State.groupOf (s : State) (x : Desc) : Option Nat :=
  match s.plan (ringCtx x.ring) x.handle with
  | none => none
  | some p =>
    let img := s.planImg p
    let b := entOff img x.entry
    if p.st = .loading ∨ hdrEntries img ≤ x.entry ∨ entRole img b = 0 then none else some (entGroup img b)

/-- Whether an uncompleted DISPATCH of the same chain group of the same plan was fetched before (R149). -/
def State.chainHeld (s : State) (x : Desc) : Bool :=
  match s.groupOf x with
  | none => false
  | some g => s.earlierOpen x.seq (fun y =>
      y.ty == 0x01 && decide (ringCtx y.ring = ringCtx x.ring) && y.handle == x.handle && s.groupOf y == some g)

/-- Refuses a DISPATCH; refusals under checks 9 to 12 are counted. -/
def refuseDispatch (x : Desc) (e : Byte × Nat) (late : Bool) (s : State) : State :=
  (if late then s.bump .hifSchedRefused 0 0 1 else s).complete x.seq e.1 (BitVec.ofNat 16 e.2)

/-- Checks a DISPATCH that no ordering rule holds and admits or refuses it (R145, R347). -/
def decideDispatch (x : Desc) (s : State) : State :=
  match s.findVariant x with
  | .error e => refuseDispatch x e false s
  | .ok (p, img, b, v) =>
    match s.lateChecks x img b v with
    | some e => refuseDispatch x e false s
    | none =>
      match s.admission (s.mkDisp x p img b v) with
      | .error e => refuseDispatch x e true s
      | .ok y => { s.markStarted x.seq with disps := s.disps ++ [y] }

/-- A DISPATCH that nothing but its chain may hold. -/
def startDispatch (seq : Nat) (s : State) : State :=
  match s.desc seq with
  | none => s
  | some x => if s.chainHeld x then s.modDesc seq (fun y => { y with held := false }) else decideDispatch x s

/-- DISPATCHes waiting for their chain only, in fetch order. -/
def State.chainWaiting (s : State) : List Nat :=
  (s.descs.filter (fun x => x.ty == 0x01 && decide (x.st = .waiting) && !x.held)).map (fun x => x.seq)

/-- Decides the DISPATCHes that a chain no longer holds. -/
def releaseChains (s : State) : State := s.chainWaiting.foldl (fun s q => startDispatch q s) s

/-- The fetch of a DISPATCH reads its argument block once (R331, R333); a block outside the context's
ranges is an illegal address (R26). -/
def admitDispatch (x : Desc) (s : State) : State :=
  let s := s.modDesc x.seq (fun y => { y with fetchNo := (s.ring x.ring).fetched })
  if argsFlag x.bytes then
    let a := leAt x.bytes 0x20 8
    match (if isHost a then none else s.readFault (ringCtx x.ring) a 128) with
    | some (c, z) => (s.raise c hubSideDie [ringCtx x.ring] z).modDesc x.seq (fun y => { y with held := true })
    | none =>
      (s.modDesc x.seq (fun y => { y with bytes := y.bytes ++ s.anyRead a 128 })).jobRead (ringCtx x.ring) none a 128
  else s

/-- DISPATCH. -/
def execDispatch (r : RingId) (s : State) : Host.Outcome State Fault Refusal :=
  .next (releaseChains (fetchThen r (tyIs 0x01) noCheck admitDispatch
    (fun q s => match s.desc q with
      | some x => if x.held then s else startDispatch q s
      | none => s) s))

/-! ### Dies -/

/-- Whether an entry of a core's queue keeps its core from a tile boundary: issued and not a BAR, a WAIT, or
a receive that waits for its data (R97, R128). -/
def Placed.busy (x : Placed) : Bool :=
  decide (x.st = .issued) && !(decide (x.unit = .sync) || (x.recv && !x.data)) &&
    !decide (x.unit = .teasel)

/-- Whether every core of a die is at a tile boundary. -/
def State.drained (s : State) (d : Die) : Bool :=
  allPCores.all (fun p => (s.core d p).replay.isNone && !(s.core d p).queue.any Placed.busy)

/-- Whether a die is free: no switch is on it, and what held it has ended or is pre-empted and drained. -/
def State.dieFree (s : State) (d : Die) : Bool :=
  !s.switches.any (fun w => w.dies.contains d) &&
  (match (s.die d).run with
   | none => true
   | some q =>
     match s.disp q with
     | some y => decide (y.st = .preempted) && s.drained d
     | none => true)

/-- Whether a DISPATCH's dies pass from another context, or hold a saved state of its own (R353). -/
def State.needsSwitch (s : State) (y : Disp) : Bool :=
  y.dies.any (fun d => (s.die d).stale ||
    (match (s.die d).lastCtx with
     | some n => decide (n ≠ y.ctx)
     | none => false) || (s.ctx y.ctx).savedDies.contains d)

/-! ### Placing streams -/

/-- EPOCH of a DISPATCH, R481. -/
def Disp.epoch (y : Disp) : W64 := BitVec.ofNat 64 (y.slot + y.ring.val * 2 ^ 16 + y.fetchNo % 2 ^ 32 * 2 ^ 32)

/-- Generation of the record at an index: its place among the BARs of its ID in the stream (R123). -/
def barGenAt (recs : List Nat) (i : Nat) : Nat :=
  let r := recs.getD i 0
  if rOp r = opBAR then
    ((recs.take i).filter (fun z => rOp z == opBAR && syncId z == syncId r)).length
  else 0

/-- Runs of device memory that Newel's fetch of a die section reads: its header with the stream table, the records and
the operand descriptors (R102, R135, R290). -/
def State.planRuns (s : State) (y : Disp) (off : Nat) : List (Nat × Nat) :=
  let img : Img := fun o n => s.devNat (off + o) n
  let base := ((s.plan y.ctx y.handle).map (fun p => p.area)).getD 0
  let n := s.devNat off 2
  [(off, 16 + 16 * n), (base + secOpdOff img 0, 32 * s.devNat (off + 2) 2)] ++
    tab n (fun k => (base + secRecOff img 0 k, 32 * secRecCount img 0 k))

/-- Newel's fetch of a die section: the bytes it reads and the corrected codewords it meets are counted, and an
uncorrectable codeword is a job fault (R289, R290, R315). -/
def readSection (y : Disp) (d : Die) (off : Nat) (ce : List Nat) (s : State) : State :=
  let runs := s.planRuns y off
  let s := ((s.countRuns false runs).chargeRuns y.ctx (some d) runs).countCes runs ce
  match runs.findSome? (fun r => s.badIn r.1 r.2) with
  | some a => s.raise causeMem d.val [y.ctx] a
  | none => s

/-- Places one stream of a die section on its logical core in the order of R119 (R342). -/
def placeStream (y : Disp) (d : Die) (off depth k : Nat) (s : State) : State :=
  match streamCore k with
  | none => s
  | some c =>
    match s.phys d c with
    | none => s
    | some p =>
      let img : Img := fun o n => s.devNat (off + o) n
      let base := ((s.plan y.ctx y.handle).map (fun p => p.area)).getD 0
      let recs := tab (secRecCount img 0 k) (fun i => s.devNat (base + secRecOff img 0 k + 32 * i) 32)
      let opds := base + secOpdOff img 0
      let k0 := (s.core d p).nextPos
      let new := (placeOrder depth (recs.map rOp)).zipIdx.map (fun (i, j) =>
        ({ seq := y.seq, ctx := y.ctx, stream := k, idx := i, raw := BitVec.ofNat 256 (recs.getD i 0),
           opdBase := opds, pos := k0 + j, gen := barGenAt recs i } : Placed))
      s.modCore d p (fun z => { z with queue := z.queue ++ new, nextPos := k0 + new.length })

/-- Sets the planned clock of a die's core islands. -/
def State.setPlan (s : State) (d : Die) (mhz : Nat) : State :=
  allPCores.foldl (fun s p => s.modIsland d (coreIsland p) (fun i => { i with plan := mhz })) s

/-- The trace record of a DISPATCH on each of its dies. -/
def State.traceDisp (s : State) (y : Disp) (kind v : Nat) : State :=
  y.dies.foldl (fun s d => s.traceRec d.val 0x20 kind y.ctx.val (traceData [y.epoch.toNat, v])) s

/-- The counters of the command before stay for the sample of this instant (R483). -/
def DieSt.nextCtr (x : DieSt) (now : Nat) (c : Counters) : DieSt :=
  { x with prevCtr := x.ctr.owner.map (fun n => (n, x.ctr)), startedAt := some now, ctr := c }

/-- What a DISPATCH's start on a die samples and resets: the root of Vetch with the context's translations
discarded (R174), MM_1X1 (R189), and the command counters (R481). -/
def startDie (y : Disp) (d : Die) (s : State) : State :=
  let root := (s.reg .vetRoot d.val y.ctx.val 0).toNat
  let conv := (s.reg .newConvCtl d.val 0 0).getLsbD 0
  s.modDie d (fun x => { x.nextCtr s.now { seq := y.seq, owner := some y.ctx, epoch := y.epoch } with
    roots := SMap.put x.roots y.ctx.val root
    tlb := x.tlb.filter (fun t => decide (t.ctx ≠ y.ctx))
    mm1x1 := conv })

/-- The dies of a DISPATCH hold it from here; their islands take its planned clock. -/
def holdDies (y : Disp) (s : State) : State :=
  y.dies.foldl (fun s d =>
    (s.modDie d (fun x => { x with run := some y.seq, lastCtx := some y.ctx, stale := false })).setPlan d y.mhz) s

/-- The number of streams of a DISPATCH's first die section. -/
def State.streamsOf (s : State) (y : Disp) : Nat :=
  match y.sections with
  | (_, o) :: _ => s.devNat o 2
  | [] => 0

/-- A first start: samples, counters, streams placed, and a head opens its chain (R147). -/
def beginDispatch (y : Disp) (ce : List Nat) (s : State) : State :=
  let depth := ((s.plan y.ctx y.handle).map (fun p => p.depth)).getD 4
  let s := y.dies.foldl (fun s d => startDie y d s) s
  let s := holdDies y s
  let s := y.sections.foldl (fun s (d, o) => readSection y d o ce s) s
  let s := y.sections.foldl (fun s (d, o) =>
    (List.range (s.devNat o 2)).foldl (fun s k => placeStream y d o depth k s) s) s
  let s := if y.role = 1 then
      { s with chains := s.chains ++ [{ ctx := y.ctx, handle := y.handle, group := y.group, dies := y.dies
                                        streams := s.streamsOf y }] }
    else s
  s.traceDisp y 0x01 y.variant

/-- A resumption: its placed records return to their logical cores and its counters go on. -/
def resumeDispatch (y : Disp) (s : State) : State :=
  let s := y.dies.foldl (fun s d => s.modDie d (fun x =>
    x.nextCtr s.now { SMap.getD y.ctrs d.val x.ctr with restored := true })) s
  let s := holdDies y s
  let s := y.parked.foldl (fun s (key, l) =>
    if h : key < 224 then
      let d : Die := ⟨key / 28, by omega⟩
      match s.phys d ⟨key % 28, Nat.mod_lt _ (by decide)⟩ with
      | some p => s.modCore d p (fun z => { z with queue := l ++ z.queue })
      | none => s
    else s) s
  (s.modDisp y.seq (fun z => { z with parked := [], ctrs := [] })).traceDisp y 0x01 y.variant

/-- A DISPATCH runs from here: it begins or goes on. A start without a deadline moves the pointer of R346. -/
def goDispatch (y : Disp) (ce : List Nat) (s : State) : State :=
  let s := if y.begun then resumeDispatch y s else beginDispatch y ce s
  let s := s.modDisp y.seq (fun z => { z with st := .running, begun := true, since := s.now })
  if y.deadline.isNone then { s with arb := { s.arb with noDeadline := (y.ctx.val + 1) % 64 } } else s

/-! ### Pre-emption -/

/-- Takes a DISPATCH's records off the cores of a die and keeps them with its counters (R128, R481). -/
def parkDie (y : Disp) (d : Die) (s : State) : State :=
  let s := allPCores.foldl (fun s p =>
    match (s.core d p).logical with
    | none => s
    | some c =>
      let mine := (s.core d p).queue.filter (fun x => x.seq == y.seq && !decide (x.unit = .teasel ∧ x.st = .issued))
      if mine.isEmpty then s
      else (s.modDisp y.seq (fun z => { z with parked := SMap.put z.parked (28 * d.val + c.val) mine })).modCore d p
        (fun k => { k with queue := k.queue.filter (fun x => !mine.contains x) })) s
  (s.modDisp y.seq (fun z => { z with ctrs := SMap.put z.ctrs d.val (s.die d).ctr })).modDie d
    (fun x => { x with run := none })

/-- Whether a context has live state on a die: a DISPATCH pre-empted there, or a chain open there (R353). -/
def State.liveState (s : State) (n : CtxId) (d : Die) : Bool :=
  s.disps.any (fun y => decide (y.ctx = n) && decide (y.st = .preempted) && y.dies.contains d) ||
    s.chains.any (fun c => decide (c.ctx = n) && c.dies.contains d)

/-- Whether a DISPATCH is pre-empted: it has not resumed, though a switch that brings it back may run (R523). -/
def Disp.isPreempted (y : Disp) : Bool := decide (y.st = .preempted) || (decide (y.st = .switching) && y.begun)

/-- Whether a context is pre-empted (R261, R314, R523). -/
def State.ctxPreempted (s : State) (n : CtxId) : Bool :=
  s.disps.any (fun y => decide (y.ctx = n) && y.isPreempted) &&
    !s.disps.any (fun y => decide (y.ctx = n) && decide (y.st = .running))

/-- A context's DMA queues start no chunk: it is pre-empted, or a switch that may save its state has not
saved it yet (R314, R523). -/
def State.dmaStopped (s : State) (n : CtxId) : Bool :=
  s.ctxPreempted n ||
  s.switches.any (fun w => decide (w.step < 2) && w.dies.any (fun d =>
    decide ((s.die d).lastCtx = some n) && s.liveState n d))

/-- All queues. -/
def allQueues : List QueueId := List.finRange 128

/-- Whether a part on a queue is of a context. -/
def State.partOf (s : State) (n : CtxId) (p : DmaPart) : Bool :=
  match s.desc p.seq with
  | some x => decide (ringCtx x.ring = n)
  | none => false

/-- A context's queues stop with the chunk at the front of each, which has started (R314, log 97). A queue that has
stopped already starts nothing here. -/
def State.stopDma (s : State) (n : CtxId) : State :=
  if s.dmaStopped n then s
  else allQueues.foldl (fun t q => match t.dq q with
    | p :: rest => if s.partOf n p then t.setDq q ({ p with busy := true } :: rest) else t
    | [] => t) s

/-- Whether a chunk of a context that had started is still to end. -/
def State.dmaBusy (s : State) (n : CtxId) : Bool :=
  allQueues.any (fun q => match s.dq q with
    | p :: _ => p.busy && s.partOf n p
    | [] => false)

/-- Pre-empts a running DISPATCH on all of its dies: placing stops and its run time stops (R348), and when no other
DISPATCH of its context runs, the context's queues stop (R314, R523). -/
def preemptDisp (y : Disp) (s : State) : State :=
  let s := if s.disps.any (fun z => decide (z.ctx = y.ctx) && decide (z.st = .running) && z.seq != y.seq) then s
    else s.stopDma y.ctx
  (s.modDisp y.seq (fun z => { z with st := .preempted, runTime := s.ranNs y })).traceDisp y 0x02 0xFF

/-- The running DISPATCHes that X pre-empts, R348. -/
def State.victims (s : State) (x : Disp) : List Disp :=
  match x.deadline with
  | none => []
  | some t => s.disps.filter (fun y => decide (y.st = .running) && shareDie x y && decide (y.ctx ≠ x.ctx) &&
      (match y.deadline with
       | some u => decide (t < u)
       | none => true))

/-- The contexts other than `n` whose state stands on dies, by die. -/
def State.outsOn (s : State) (dies : List Die) (n : CtxId) : List (Die × CtxId) :=
  dies.filterMap (fun d => match (s.die d).lastCtx with
    | some m => if m ≠ n then some (d, m) else none
    | none => none)

/-- The contexts among them that have live state there. -/
def State.liveOuts (s : State) (dies : List Die) (n : CtxId) : List CtxId :=
  dedupKeep (((s.outsOn dies n).filter (fun x => s.liveState x.2 x.1)).map (fun x => x.2))

/-- A switch of a DISPATCH's dies begins; the queues of the contexts whose state it saves stop (R314). -/
def beginSwitch (y : Disp) (outs : List Nat) (s : State) : State :=
  let s := (s.liveOuts y.dies y.ctx).foldl State.stopDma s
  let s := s.modReg .hifSwitchCount 0 0 0 (fun v => v + 1)
  let s := s.modDisp y.seq (fun z => { z with st := .switching })
  { s with switches := s.switches ++
      [{ step := 0, inSeq := y.seq, dies := y.dies, outs, outCtxs := s.outsOn y.dies y.ctx }] }

/-- Whether the dies of a DISPATCH are free but for those that DISPATCHes of a list hold. -/
def State.freeBut (s : State) (x : Disp) (outs : List Nat) : Bool :=
  x.dies.all (fun d => !s.switches.any (fun w => w.dies.contains d) &&
    (match (s.die d).run with
     | none => true
     | some q => outs.contains q || s.dieFree d))

/-- PREEMPTION: the DISPATCHes are pre-empted, and the switch starts when only they held the dies. -/
def preemption (x : Disp) (s : State) : State :=
  let v := s.victims x
  let outs := v.map (fun y => y.seq)
  let ok := s.freeBut x outs
  let s := v.foldl (fun s y => preemptDisp y s) s
  if ok then beginSwitch x outs s else s

/-- PREEMPTION. -/
def execPreemption (seq : Nat) (s : State) : Host.Outcome State Fault Refusal :=
  .next (match s.disp seq with
    | some x =>
      if x.waits && s.firstInOrder x && !(s.victims x).isEmpty && s.recovery.isNone &&
          x.dies.all (fun d => s.newelUp d) then preemption x s
      else s
    | none => s)

/-- Whether a waiting DISPATCH can take its dies now (R346). -/
def State.canStart (s : State) (y : Disp) : Bool :=
  s.firstInOrder y && y.dies.all (fun d => s.dieFree d && s.newelUp d) && s.recovery.isNone

/-- Pre-empted DISPATCHes that still stand on a die leave it. -/
def parkOthers (y : Disp) (s : State) : State :=
  y.dies.foldl (fun s d =>
    match (s.die d).run with
    | some q => match s.disp q with
      | some z => if z.st = .preempted then parkDie z d s else s
      | none => s
    | none => s) s

/-- A waiting DISPATCH takes its dies: at once, or by a switch when they pass from another context. -/
def takeDies (y : Disp) (ce : List Nat) (s : State) : State :=
  if s.needsSwitch y then beginSwitch y [] s
  else
    let s := parkOthers y s
    match s.disp y.seq with
    | some z => goDispatch z ce s
    | none => s

/-- DISPATCH_START. -/
def execDispatchStart (seq : Nat) (s : State) (ce : List Nat := []) : Host.Outcome State Fault Refusal :=
  .next (match s.disp seq with
    | some y => if y.st = .ready ∧ s.canStart y = true then takeDies y ce s else s
    | none => s)

/-- DISPATCH_RESUME, R357. -/
def execDispatchResume (seq : Nat) (s : State) : Host.Outcome State Fault Refusal :=
  .next (match s.disp seq with
    | some y => if y.st = .preempted ∧ s.canStart y = true then takeDies y [] s else s
    | none => s)

/-! ### Save and restore, R353 to R356 -/

/-- Copies a range of device bytes as it reads. -/
def State.copyBytes (s : State) (src dst len : Nat) : State :=
  (List.range len).foldl (fun s k => s.devWrite (dst + k) (s.devRead (src + k) 1)) s

/-- A part of a save area is written whole: the bytes are counted and its codewords are good again (R291, R315). -/
def State.savedRange (s : State) (n : CtxId) (d : Die) (a len : Nat) : State :=
  ((s.clearBad a len).countBytes true a len).chargeBytes n (some d) a len

/-- The address of the first uncorrectable line that the logical cores of a die hold, in their order. -/
def State.coreBad (s : State) (d : Die) : Option Nat :=
  (List.finRange 28).findSome? (fun c => (s.phys d c).bind (fun p =>
    (s.core d p).badLines.head?.map (fun l => coreBase d.val p.val + l)))

/-- A save or a restore that reads an uncorrectable line or codeword is a job fault of the context whose state it
moves, since nothing is marked as poisoned (R290, log 98). -/
def State.moveFault (s : State) (n : CtxId) (d : Die) (a : Option Nat) : State :=
  match a with
  | some x => s.raise causeMem d.val [n] x
  | none => s

/-- The state block of a part: flags of the logical cores, semaphores and stall counters. -/
def State.stateBlock (s : State) (n : CtxId) (d : Die) : List Byte :=
  let flags := (List.finRange 28).flatMap (fun c => toLe 8 (match s.phys d c with
    | some p => (s.core d p).accFlags.toNat
    | none => 0))
  let c := s.ctx n
  slice flags 0 0x100 ++ (tab 256 (fun i => toLe 4 (SMap.getD c.sems (256 * d.val + i) 0))).flatten ++
    List.replicate 0x300 0 ++ (tab 256 (fun i => toLe 8 (SMap.getD c.stalls (256 * d.val + i) 0))).flatten

/-- Writes a context's part of a die: cores, Gallery share, flags, semaphores and stall counters; the form of the rest
of the state block is undefined. -/
def writePart (n : CtxId) (d : Die) (s : State) : State :=
  let a := s.partBase n d
  let s := (List.finRange 28).foldl (fun s c =>
    match s.phys d c with
    | some p => s.copyBytes (coreBase d.val p.val) (a + c.val * coreBytes) coreBytes
    | none => s) s
  let (b, z) := s.share n
  let s := (s.copyBytes (galBase d.val + b) (a + 0x11800000) z).countBytes false (galBase d.val + b) z
  let s := s.devWrite (a + 0x1D800000) (s.stateBlock n d)
  let s := s.scramble (a + 0x1D801000) (1020 * 1024)
  ((s.savedRange n d a (28 * coreBytes)).savedRange n d (a + 0x11800000) z).savedRange n d (a + 0x1D800000) 0x100000

/-- Saves a context's state on a die. -/
def saveDie (n : CtxId) (d : Die) (ce : List Nat) (s : State) : State :=
  let (b, z) := s.share n
  let s := s.readCe (galBase d.val + b) z ce
  let s := s.moveFault n d ((s.coreBad d).orElse (fun _ => s.badIn (galBase d.val + b) z))
  let s := (writePart n d s).keepPart n d
  s.modCtx n (fun c => { c with savedDies := c.savedDies ++ [d], semMoved := c.semMoved.filter (fun k => k / 256 ≠ d.val) })

/-- The positions of the streams of a context's pre-empted DISPATCHes on a die and its barrier generations there, as an
undefined saved state gives them: which records stand on the cores, and which participants have issued, is open. -/
def restorePos (n : CtxId) (d : Die) (s : State) : State :=
  let s := (s.disps.filter (fun y => decide (y.ctx = n))).foldl (fun s y =>
    (y.parked.filter (fun e => decide (e.1 / 28 = d.val))).foldl (fun s e =>
      let (l, s) := s.freeSome e.2
      s.modDisp y.seq (fun z => { z with parked := SMap.put z.parked e.1 l })) s) s
  (s.ctx n).bars.zipIdx.foldl (fun s g =>
    let (l, s) := s.freeSome (g.1.issued.filter (fun m => m.1 == d.val))
    s.modCtx n (fun c => { c with bars := c.bars.zipIdx.map (fun h =>
      if h.2 = g.2 then { h.1 with issued := h.1.issued.filter (fun m => m.1 != d.val) ++ l } else h.1) })) s

/-- What a restore gives when software has written the part: undefined (R354). -/
def restoreLost (n : CtxId) (d : Die) (s : State) : State :=
  let s := restorePos n d s
  let s := (List.finRange 28).foldl (fun s c =>
    match s.phys d c with
    | some p =>
      let (f, s) := s.freeBits 64
      (s.scramble (coreBase d.val p.val) coreBytes).modCore d p (fun k => { k with accFlags := f })
    | none => s) s
  let s := (List.range 256).foldl (fun s i =>
    let (v, s) := s.freeBits 32
    s.setSem n d.val i v.toNat) s
  (List.range 256).foldl (fun s i =>
    let (v, s) := s.freeBits 64
    s.setStall n (256 * d.val + i) v.toNat) s

/-- The cores and the state block of a saved part are read back (R354). A semaphore that something changed while the
context waited keeps its new value: SEM_SIGNAL and SEM_WAIT act on it then (R357, log 37). -/
def readPart (n : CtxId) (d : Die) (s : State) : State :=
  let a := s.partBase n d
  let moved := (s.ctx n).semMoved
  let s := (List.finRange 28).foldl (fun s c =>
    match s.phys d c with
    | some p =>
      (s.copyBytes (a + c.val * coreBytes) (coreBase d.val p.val) coreBytes).modCore d p (fun k =>
        { k with accFlags := BitVec.ofNat 64 (s.devNat (a + 0x1D800000 + 8 * c.val) 8) })
    | none => s) s
  (List.range 256).foldl (fun s i =>
    let s := s.setStall n (256 * d.val + i) (s.devNat (a + 0x1D800800 + 8 * i) 8)
    if moved.contains (256 * d.val + i) then s else s.setSem n d.val i (s.devNat (a + 0x1D800100 + 4 * i) 4)) s

/-- Restores a context's saved state on a die: the bytes read are counted, and its cores' lines are written whole. -/
def restoreDie (n : CtxId) (d : Die) (ce : List Nat) (s : State) : State :=
  let a := s.partBase n d
  let runs := [(a, 28 * coreBytes), (a + 0x1D800000, 0x100000)]
  let kept := SMap.getD (s.ctx n).savedMem d.val [] == s.rangeMem a partSize
  let s := ((s.countRuns false runs).chargeRuns n (some d) runs).countCes runs ce
  let s := s.moveFault n d (runs.findSome? (fun r => s.badIn r.1 r.2))
  let s := s.modCtx n (fun c => { c with savedDies := c.savedDies.filter (fun x => x ≠ d) })
  let s := if kept then readPart n d s else restoreLost n d s
  let s := s.modCtx n (fun c => { c with
    savedMem := SMap.del c.savedMem d.val, semMoved := c.semMoved.filter (fun k => k / 256 ≠ d.val) })
  (s.inService d).foldl (fun s p => s.modCore d p (fun k => { k with badLines := [] })) s

/-- Zeroes scratchpads, accumulators and flags of a die's logical cores. -/
def zeroDie (d : Die) (s : State) : State :=
  (s.inService d).foldl (fun s p =>
    (s.clearRange (coreBase d.val p.val) coreBytes).modCore d p (fun k => { k with accFlags := 0, badLines := [] })) s

/-- The effect of the next step of a switch for the incoming DISPATCH `y`, R355 Table 3. From the third step's end the
state on the dies is the incoming context's. -/
def switchEffect (w : Switch) (y : Disp) (ce : List Nat) (s : State) : State :=
  if w.step = 0 then
    w.dies.foldl (fun s d => match (s.die d).run with
      | some q => match s.disp q with
        | some z => parkDie z d s
        | none => s
      | none => s) s
  else if w.step = 1 then
    w.outCtxs.foldl (fun s (d, m) => if s.liveState m d then saveDie m d ce s else s) s
  else if w.step = 2 then
    w.dies.foldl (fun s d =>
      let s := if (s.ctx y.ctx).savedDies.contains d then restoreDie y.ctx d ce s
        else if (s.die d).stale || (match (s.die d).lastCtx with
            | some m => decide (m ≠ y.ctx)
            | none => false) then zeroDie d s
        else s
      s.modDie d (fun x => { x with lastCtx := some y.ctx, stale := false })) s
  else goDispatch y ce s

/-- Trace records of a completed switch step, of kind 0x07. -/
def traceSwitch (w : Switch) (y : Disp) (outs : List (Die × CtxId)) (s : State) : State :=
  w.dies.foldl (fun s d =>
    let o := ((outs.find? (fun x => decide (x.1 = d))).map (fun x => x.2.val)).getD 0x40
    s.traceRec d.val 0x20 0x07 y.ctx.val (traceData [w.step + 1, o, y.ctx.val])) s

/-- A step of a switch completes; after the fourth it has ended. -/
def switchStepDone (w : Switch) (y : Disp) (ce : List Nat) (s : State) : State :=
  let s := traceSwitch w y w.outCtxs (switchEffect w y ce s)
  let w' := { w with step := w.step + 1 }
  { s with switches := if w'.step = 4 then s.switches.filter (fun v => v.inSeq != w.inSeq)
                       else updIf s.switches (fun v => v.inSeq == w.inSeq) (fun _ => w') }

/-- Whether the first step of a switch has ended: the cores have drained and the outgoing contexts' chunks that had
started have ended (R97, R314, R355). -/
def State.switchDrained (s : State) (w : Switch) (y : Disp) : Bool :=
  w.dies.all (fun d => s.drained d) && (s.liveOuts w.dies y.ctx).all (fun n => !s.dmaBusy n)

/-- SWITCH_STEP_DONE, while the Newels of the switch's dies run (R438, R19). -/
def execSwitchStepDone (seq : Nat) (s : State) (ce : List Nat := []) : Host.Outcome State Fault Refusal :=
  .next (match s.switches.find? (fun w => w.inSeq == seq), s.disp seq with
    | some w, some y =>
      if s.recovery.isNone && w.dies.all (fun d => s.newelUp d) && (decide (w.step ≠ 0) || s.switchDrained w y) then
        switchStepDone w y ce s
      else s
    | _, _ => s)

/-! ### Completion -/

/-- Whether every stream of a DISPATCH has passed the implicit barrier, and its TCONVs are done (R130). -/
def State.finished (s : State) (y : Disp) : Bool :=
  y.dies.all (fun d => allPCores.all (fun p => !(s.core d p).queue.any (fun x => x.seq == y.seq)) &&
    decide ((s.die d).teaRun.map (fun t => t.seq) ≠ some y.seq))

/-- The cycle counts of a set brought up to now (log 38). -/
def State.settleCtr (s : State) (c : Counters) : Counters × State :=
  ({ c with
      cyc := (c.cyc.zip c.cycNs).zipIdx.map (fun x => x.1.1 + { s with free := s.free + x.2 }.freeCycles x.1.2)
      cycNs := c.cycNs.map (fun _ => 0) }, { s with free := s.free + 5 })

/-- Writes the counter sample of a die for instant `t` into its context's sample ring, R481, R484. -/
def writeSample (t : Nat) (n : CtxId) (d : Die) (c : Counters) (final : Bool) (s : State) : State :=
  let k := (s.ctx n).sampleSeq
  let flags := (if final then 1 else 0) + (if c.restored then 2 else 0) + (if c.paused then 4 else 0)
  let bs := toLe 8 t ++ toLe 8 c.epoch.toNat ++ toLe 4 k ++ toLe 1 d.val ++ toLe 1 flags ++ toLe 2 0 ++
    toLe 8 c.runNs ++ toLe 8 c.stallNs ++ (c.cyc.map (toLe 8)).flatten ++ toLe 8 c.hbmRd ++ toLe 8 c.hbmWr ++
    toLe 8 c.moveBytes ++ toLe 8 c.replays ++ List.replicate 16 0
  let a := (s.reg .trcCtxSampleBase 0 n.val 0).toNat
  let size := 2 ^ s.regFld .trcCtxSampleCfg 0 n.val 0 4 0
  (s.putBytes (a + 128 * (k % size)) bs).modCtx n (fun z => { z with sampleSeq := (k + 1) % 2 ^ 32 })

/-- Writes the periodic samples that are due on a die for the contexts of `p` (R481 to R483); those of a context that has
closed are not written. -/
def writeDue (p : CtxId → Bool) (d : Die) (s : State) : State :=
  let l := (s.die d).due
  let s := (l.filter (fun x => p x.2.1 && s.ctxOpen x.2.1)).foldl (fun s x => writeSample x.1 x.2.1 d x.2.2 false s) s
  s.modDie d (fun z => { z with due := l.filter (fun x => !p x.2.1) })

/-- The final sample of a die, behind the periodic ones that are due; the counts stand as it shows them. -/
def finalSample (n : CtxId) (d : Die) (s : State) : State :=
  let s := writeDue (fun m => decide (m = n)) d s
  let (c, s) := s.settleCtr (s.die d).ctr
  (writeSample s.now n d c true s).modDie d (fun x =>
    { x with run := none, finalAt := some s.now, ctr := { c with restored := false, paused := false } })

/-- Status and DETAIL of a completing DISPATCH: DONE_NAN, DONE_SATURATED, OK_EMPTY, OK (R50, R111, R339). -/
def Disp.status (y : Disp) : Byte × W16 :=
  let bits : W16 := (if y.sat then 1 else 0) + (if y.nan then 2 else 0)
  if y.nan then (stNan, bits)
  else if y.sat then (stSaturated, bits)
  else if (y.dims.take y.ndim).any (fun v => v == 0) then (stOkEmpty, 0) else (stOk, 0)

/-- A DISPATCH completes: final samples, its chain closed by a tail, its dies free, its status, and the
DISPATCHes of its chain group that it held. -/
def dispatchComplete (y : Disp) (s : State) : State :=
  let s := y.dies.foldl (fun s d => finalSample y.ctx d s) s
  let s := if y.role = 3 then
      { s with chains := s.chains.filter (fun c =>
          !(decide (c.ctx = y.ctx) && c.handle == y.handle && c.group == y.group)) }
    else s
  let late := match y.deadline with
    | some t => decide (t < s.now)
    | none => false
  let s := if late then s.modReg .hifDeadlineMiss 0 0 0 (fun v => v + 1) else s
  let (st, dt) := y.status
  let s := s.traceDisp y 0x02 st.toNat
  let s := { s with disps := s.disps.filter (fun z => z.seq != y.seq) }
  releaseChains (s.complete y.seq st dt)

/-- DISPATCH_COMPLETE. -/
def execDispatchComplete (seq : Nat) (s : State) : Host.Outcome State Fault Refusal :=
  .next (match s.disp seq with
    | some y =>
      if y.st = .running ∧ s.finished y = true ∧ s.recovery = none ∧ s.hubUp = true then dispatchComplete y s else s
    | none => s)

/-! ### Periodic samples -/

/-- PERIOD of a context's samples, in units of 100 µs. -/
def State.samplePeriod (s : State) (n : CtxId) : Nat := s.regFld .trcCtxSampleCfg 0 n.val 0 15 8

/-- What holds a die, with its counters, as a sample instant begins. -/
def State.heldBy (s : State) (d : Die) : Option (CtxId × Counters) :=
  ((s.die d).run.bind (fun q => s.disp q)).bind (fun y =>
    if y.st = .running then some (y.ctx, (s.die d).ctr) else none)

/-- The sample that a die owes for the instant that ends now, R481 to R483: none when a final sample was written in it;
where the next DISPATCH started in it, the totals of the one before; else those of the DISPATCH that holds the die, as the
instant began. -/
def State.sampleOf (s : State) (d : Die) (o : Option (CtxId × Counters)) : Option (CtxId × Counters) :=
  let x := s.die d
  if x.finalAt = some s.now then none
  else if x.startedAt = some s.now then x.prevCtr
  else match o, s.heldBy d with
    | some (n, c), some (m, c') => if n = m ∧ c.seq = c'.seq then some (n, c) else none
    | _, _ => none

/-- The sample of instant `t` becomes due on a die, when `t` is a multiple of its context's PERIOD. What happened since its
previous sample is told by it. -/
def sampleDue (t : Nat) (o : Option (CtxId × Counters)) (d : Die) (s : State) : State :=
  match s.sampleOf d o with
  | some (n, c) =>
    if s.samplePeriod n ≠ 0 ∧ t % (s.samplePeriod n * 100000) = 0 ∧ s.ctxOpen n = true then
      let (c', s) := s.settleCtr c
      s.modDie d (fun x => { x with
        due := x.due ++ [(t, n, c')]
        ctr := if x.ctr.seq = c.seq then
            { x.ctr with
              cyc := c'.cyc, cycNs := (x.ctr.cycNs.zip c.cycNs).map (fun z => z.1 - z.2)
              restored := x.ctr.restored && !c.restored, paused := x.ctr.paused && !c.paused }
          else x.ctr })
    else s
  | none => s

/-- COUNTER_SAMPLE: the periodic samples that are due for a context are written, one by each die that it held at the
instant (R481). -/
def counterSample (n : CtxId) (s : State) : State :=
  allDies.foldl (fun s d => writeDue (fun m => decide (m = n)) d s) s

/-- COUNTER_SAMPLE. -/
def execCounterSample (n : CtxId) (s : State) : Host.Outcome State Fault Refusal := .next (counterSample n s)

end Sys2Proof.Machine
end

