-- ==== Sys2Proof/Machine/Dma.lean ====
section
/-! DEFINITION. The DMA queues and COPY, FILL and COMPARE (R300 to R310, R314): the checks at fetch,
the parts on their queues, chunks, failures, and completion. -/

namespace Sys2Proof.Machine

/-! ### Fields, R303, R331 -/

def Desc.dmaQueue (x : Desc) : Nat := leAt x.bytes 2 1
def Desc.dmaSpread (x : Desc) : Nat := leAt x.bytes 3 1
def Desc.dmaMask (x : Desc) : Nat := leAt x.bytes 4 2
def Desc.dmaMode (x : Desc) : Nat := leAt x.bytes 6 1
def Desc.dmaLen (x : Desc) : Nat := leAt x.bytes 0x08 8
def Desc.dmaSrc (x : Desc) : Nat := leAt x.bytes 0x10 8
def Desc.dmaDst (x : Desc) : Nat := leAt x.bytes 0x18 8
def Desc.dmaPattern (x : Desc) : Nat := leAt x.bytes 0x20 8
def Desc.dmaResult (x : Desc) : Nat := leAt x.bytes 0x28 8

/-- Whether a descriptor reads SRC: a COPY, and a COMPARE of MODE 0. -/
def Desc.readsSrc (x : Desc) : Bool := x.ty == 0x02 || (x.ty == 0x04 && x.dmaMode == 0)

/-- The queues of a descriptor's spread, R303. -/
def Desc.spread (x : Desc) : List QueueId :=
  (List.range x.dmaSpread).filterMap (fun k =>
    if h : x.dmaQueue + k < 128 then some ⟨x.dmaQueue + k, h⟩ else none)

/-- The die of a queue and its number on it, R300. -/
def qDie (q : QueueId) : Die := ⟨q.val / 16, by omega⟩
def qNum (q : QueueId) : Nat := q.val % 16

/-- The owner of a queue, 0x40 for any context (R301). -/
def State.qOwner (s : State) (q : QueueId) : Nat := s.regFld .dmaQCfg (qDie q).val (qNum q) 0 23 16

/-- The address ranges of `len` bytes that a transfer uses, as address fields. -/
def Desc.dmaSides (x : Desc) : List Nat := (if x.readsSrc then [x.dmaSrc] else []) ++ [x.dmaDst]

/-- The checks of R304 Table 2 in order. -/
def State.dmaCheck (s : State) (x : Desc) : Option (Byte × W16) :=
  let n := (ringCtx x.ring).val
  firstSome [
    failIf (decide (128 < x.dmaQueue + x.dmaSpread) ||
      x.spread.any (fun q => decide (s.qOwner q ≠ 0x40) && decide (s.qOwner q ≠ n))) (stBadDesc, 0x0401),
    failIf (!([1, 2, 4, 8, 16].contains x.dmaSpread) || decide (x.dmaQueue % x.dmaSpread ≠ 0))
      (stBadDesc, 0x0402),
    failIf (x.ty == 0x02 && isHost x.dmaSrc && isHost x.dmaDst) (stBadDesc, 0x0403),
    failIf (decide (2 ^ 40 < x.dmaLen) ||
      x.dmaSides.any (fun a => !isHost a && decide (2 ^ 48 < a + x.dmaLen))) (stBadDesc, 0x0404),
    failIf (x.readsSrc && !isHost x.dmaSrc && !isHost x.dmaDst &&
      overlaps x.dmaSrc x.dmaLen x.dmaDst x.dmaLen && decide (x.dmaLen ≠ 0)) (stBadDesc, 0x0405),
    failIf (x.ty == 0x04 && decide (x.dmaResult % 16 ≠ 0)) (stAlign, 0x0406),
    failIf (x.spread.any (fun q => s.fnIs (.dmaq q) .off)) (stCancelled, 0)]

/-! ### Parts -/

/-- The chunks of part `k` that are performed, R303. -/
def Desc.partChunks (x : Desc) (k : Nat) : List Nat :=
  if x.dmaMask = 0 ∨ bits x.dmaMask k k = 1 then
    (List.range (ceilDiv (ceilDiv x.dmaLen 65536 - k) 16)).map (fun i => k + 16 * i)
  else []

/-- Offset and length of chunk `j`. -/
def Desc.chunkRange (x : Desc) (j : Nat) : Nat × Nat := (65536 * j, min 65536 (x.dmaLen - 65536 * j))

/-- Assigns the parts of a descriptor to the queues of its spread, behind their earlier parts (R302). -/
def assignParts (x : Desc) (s : State) : State :=
  (List.range 16).foldl (fun s k =>
    match x.spread[k % max 1 x.dmaSpread]? with
    | some q => if (x.partChunks k).isEmpty then s
        else s.setDq q (s.dq q ++ [{ seq := x.seq, part := k, chunks := x.partChunks k }])
    | none => s) s

/-- Starts a checked descriptor: CANCELLED when a queue has gone OFF, waiting while one is not ON (R14,
R304), else its parts are assigned. -/
def startDma (seq : Nat) (s : State) : State :=
  match s.desc seq with
  | none => s
  | some x =>
    if x.spread.any (fun q => s.fnIs (.dmaq q) .off) then s.complete seq stCancelled 0
    else if x.spread.all (fun q => s.fnIs (.dmaq q) .on) then assignParts x (s.markStarted seq)
    else s.modDesc seq (fun y => { y with held := false })

/-- Descriptors that wait only for their queues, in fetch order. -/
def State.dmaWaiting (s : State) : List Nat :=
  (s.descs.filter (fun x => decide (2 ≤ x.ty) && decide (x.ty ≤ 4) && decide (x.st = .waiting) && !x.held)).map
    (fun x => x.seq)

/-- A queue has changed its state: what waits for queues is tried again. -/
def dmaRetry (s : State) : State := s.dmaWaiting.foldl (fun s q => startDma q s) s

/-- COPY, R305. -/
def execCopy (r : RingId) (s : State) : Host.Outcome State Fault Refusal :=
  .next (fetchAs r (tyIs 0x02) State.dmaCheck startDma s)

/-- FILL, R306. -/
def execFill (r : RingId) (s : State) : Host.Outcome State Fault Refusal :=
  .next (fetchAs r (tyIs 0x03) State.dmaCheck startDma s)

/-- COMPARE, R307. -/
def execCompare (r : RingId) (s : State) : Host.Outcome State Fault Refusal :=
  .next (fetchAs r (tyIs 0x04) State.dmaCheck startDma s)

/-! ### Chunks -/

/-- PATTERN at an address: byte x receives byte x mod 8 (R306). -/
def patternAt (pat a n : Nat) : List Byte := tab n (fun i => BitVec.ofNat 8 (pat / 2 ^ (8 * ((a + i) % 8))))

/-- The fault of a read or write of a chunk's side, none for host memory. -/
def State.sideFault (s : State) (n : CtxId) (write : Bool) (a len : Nat) : Option (Byte × Nat) :=
  if isHost a then none else if write then s.writeFault n a len else s.readFault n a len

/-- Counts the bytes that a queue read from device memory for a context. -/
def State.countSide (s : State) (q : QueueId) (n : CtxId) (a len : Nat) : State :=
  if isHost a then s else (s.countBytes false a len).chargeBytes n (some (qDie q)) a len

/-- Writes the bytes of a chunk: into host memory, or device memory. -/
def State.putSide (s : State) (q : QueueId) (n : CtxId) (a : Nat) (bs : List Byte) : State :=
  if isHost a then s.anyWrite a bs else (s.putBytes a bs).chargeBytes n (some (qDie q)) a bs.length

/-- Offsets of the bytes in which two lists differ. -/
def diffs (a b : List Byte) : List Nat :=
  ((a.zip b).zipIdx.filter (fun (p, _) => decide (p.1 ≠ p.2))).map (fun (_, i) => i)

/-- A COMPARE's findings of one chunk, R307. -/
def noteDiffs (x : Desc) (part off : Nat) (l : List Nat) (s : State) : State :=
  match l with
  | [] => s
  | i :: _ => s.modDesc x.seq (fun y => { y with
      cmpFirst := some (min (off + i) (y.cmpFirst.getD (off + i)))
      cmpCount := y.cmpCount + l.length
      mism := y.mism ||| BitVec.ofNat 16 (2 ^ part) })

/-- Correctable errors that a chunk's reads of device memory meet (R289). -/
def State.sideCe (s : State) (a len : Nat) (ce : List Nat) : State := if isHost a then s else s.readCe a len ce

/-- The effect of one chunk on queue `q`: the transfer, or the job fault of an illegal or uncorrectable
address (R26, R290, R291). -/
def chunkEffect (q : QueueId) (x : Desc) (part j : Nat) (ce : List Nat) (s : State) : State :=
  let n := ringCtx x.ring
  let (off, len) := x.chunkRange j
  let src := x.dmaSrc + off
  let dst := x.dmaDst + off
  let f := firstSome [
    if x.readsSrc then s.sideFault n false src len else none,
    s.sideFault n (x.ty != 0x04) dst len]
  match f with
  | some (c, a) => s.raise c (qDie q).val [n] a
  | none =>
    if x.ty = 0x04 then
      let s := (if x.readsSrc then (s.countSide q n src len).sideCe src len ce else s).countSide q n dst len
      let s := s.sideCe dst len ce
      let want := if x.readsSrc then s.anyRead src len else patternAt x.dmaPattern dst len
      noteDiffs x part off (diffs want (s.anyRead dst len)) s
    else
      let bs := if x.ty = 0x02 then s.anyRead src len else patternAt x.dmaPattern dst len
      let s := if x.ty = 0x02 then (s.countSide q n src len).sideCe src len ce else s
      (s.putSide q n dst bs).bump .dmaQBytes (qDie q).val (qNum q) len

/-- Takes a part off its queue, with the trace record of its end. -/
def endPart (q : QueueId) (p : DmaPart) (n : CtxId) (status : Byte) (s : State) : State :=
  (s.setDq q ((s.dq q).filter (fun z => !(z.seq == p.seq && z.part == p.part)))).traceRec (qDie q).val 0x21 0x0D
    n.val (traceData [q.val, p.part, status.toNat])

/-- Pieces of a range that lie in one 4 KiB block each. -/
def pageRuns (a len : Nat) : List (Nat × Nat) :=
  (List.range ((a + len + 4095) / 4096 - a / 4096)).map (fun k =>
    let lo := max a ((a / 4096 + k) * 4096)
    (lo, min (a + len) ((a / 4096 + k + 1) * 4096) - lo))

/-- Whether a context may write a range, whatever its codewords hold (R26, R138). -/
def State.mayPut (s : State) (n : CtxId) (a len : Nat) : Bool :=
  isHost a || (s.jobMay n a len && decide (s.planAreaOf a len ≠ some n))

/-- The bytes of a part at its destination become undefined (R308, R314), where its context may write. -/
def scramblePart (x : Desc) (part : Nat) (s : State) : State :=
  if x.ty = 0x04 then s
  else (x.partChunks part).foldl (fun s j =>
    let (off, len) := x.chunkRange j
    (pageRuns (x.dmaDst + off) len).foldl (fun s r =>
      if s.mayPut (ringCtx x.ring) r.1 r.2 then s.scramble r.1 r.2 else s) s) s

/-- A part fails, R308. -/
def failPart (q : QueueId) (p : DmaPart) (x : Desc) (s : State) : State :=
  let s := (scramblePart x p.part s).bump .dmaPartFail (qDie q).val 0 1
  let s := s.modDesc x.seq (fun y => { y with failed := y.failed ||| BitVec.ofNat 16 (2 ^ p.part) })
  endPart q p (ringCtx x.ring) stPartial s

/-- A part that its queue, now OFF, had not started moves to the lowest queue of its spread that is ON, or
fails (R308). -/
def movePart (q : QueueId) (p : DmaPart) (s : State) : State :=
  match s.desc p.seq with
  | none => s
  | some x =>
    match x.spread.find? (fun z => s.fnIs (.dmaq z) .on) with
    | some z => (s.setDq q ((s.dq q).filter (fun w => !(w.seq == p.seq && w.part == p.part)))).setDq z (s.dq z ++ [p])
    | none => failPart q p x s

/-- The parity check mismatches twice on a chunk: the part fails, the queue goes OFF and the die is
degraded (R308). -/
def queueFail (q : QueueId) (p : DmaPart) (x : Desc) (s : State) : State :=
  let s := failPart q p x s
  let s := s.setFn (.dmaq q) (s.fn (.dmaq q)).forceOff
  let s := (s.dq q).foldl (fun s z => movePart q z s) s
  dmaRetry (s.degraded kDmaQueue (qDie q).val (qNum q) 0 0 0 0)

/-- Whether the channels take what a chunk reads and writes (R19). -/
def State.chunkRuns (s : State) (q : QueueId) (x : Desc) (j : Nat) : Bool :=
  let (off, len) := x.chunkRange j
  s.clockRuns (qDie q) islNewel && (!x.readsSrc || s.sideRuns (some (qDie q)) (x.dmaSrc + off) len) &&
    s.sideRuns (some (qDie q)) (x.dmaDst + off) len

/-- The part that a queue works on: the queue ON or DRAINING, no recovery, no island on its way stopped; of a context
that is stopped, only a chunk that had started (R314). -/
def State.dmaFront (s : State) (q : QueueId) : Option (DmaPart × Desc × Nat) :=
  if (s.fnIs (.dmaq q) .on || s.fnIs (.dmaq q) .draining) && (s.die (qDie q)).railOn && s.recovery.isNone then
    match s.dq q with
    | p :: _ =>
      match s.desc p.seq, p.chunks with
      | some x, j :: _ =>
        if (s.dmaStopped (ringCtx x.ring) && !p.busy) || !s.chunkRuns q x j then none else some (p, x, j)
      | _, _ => none
    | [] => none
  else none

/-- DMA_CHUNK_DONE: the chunk of a queue's first part ends, its parity check having mismatched `parity`
times on it; a part without a further chunk ends (R302, R308). -/
def dmaChunkDone (q : QueueId) (p : DmaPart) (x : Desc) (j parity : Nat) (ce : List Nat) (s : State) : State :=
  let s := s.bump .dmaCheckCount (qDie q).val 0 (min parity 2)
  if 2 ≤ parity then queueFail q p x s
  else
    let s := chunkEffect q x p.part j ce s
    let rest := p.chunks.drop 1
    if rest.isEmpty then
      let st := match s.desc x.seq with
        | some y => if y.mism.getLsbD p.part then stMismatch else stOk
        | none => stOk
      endPart q p (ringCtx x.ring) st s
    else s.setDq q ({ p with chunks := rest, busy := false } :: (s.dq q).drop 1)

/-- DMA_CHUNK_DONE. -/
def execDmaChunkDone (q : QueueId) (parity : Nat) (s : State) (ce : List Nat := []) : Host.Outcome State Fault Refusal :=
  .next (match s.dmaFront q with
    | some (p, x, j) => dmaChunkDone q p x j parity ce s
    | none => s)

/-- Whether a descriptor reads host memory. -/
def Desc.readsHost (x : Desc) : Bool :=
  (x.readsSrc && isHost x.dmaSrc) || (x.ty == 0x04 && isHost x.dmaDst)

/-- DMA_HOST_READ_ERROR: each way a host read fails has the same effect (R308). -/
def execDmaHostReadError (q : QueueId) (_ : ReadFail) (s : State) : Host.Outcome State Fault Refusal :=
  .next (match s.dmaFront q with
    | some (p, x, _) => if x.readsHost then failPart q p x s else s
    | none => s)

/-! ### Completion -/

/-- Whether some part of a descriptor is still on a queue. -/
def State.dmaOpen (s : State) (seq : Nat) : Bool := allQueues.any (fun q => (s.dq q).any (fun p => p.seq == seq))

/-- The COMPARE result block, R307 Table 3. -/
def Desc.cmpBlock (x : Desc) : List Byte := toLe 8 (x.cmpFirst.getD (2 ^ 64 - 1)) ++ toLe 8 x.cmpCount

/-- Completion status of R309 Table 4. -/
def Desc.dmaStatus (x : Desc) : Byte × W16 :=
  if x.failed ≠ 0 then (stPartial, x.failed)
  else if x.mism ≠ 0 then (stMismatch, x.mism)
  else if (List.range 16).all (fun k => (x.partChunks k).isEmpty) then (stOkEmpty, 0)
  else (stOk, 0)

/-- DMA_COMPLETE: a COMPARE writes its result block before its status (R307, R310). -/
def dmaComplete (x : Desc) (s : State) : State :=
  let (st, dt) := x.dmaStatus
  if x.ty = 0x04 then
    match s.hubWrite (ringCtx x.ring) x.dmaResult x.cmpBlock with
    | (s, true) => s.complete x.seq st dt
    | (s, false) => s
  else s.complete x.seq st dt

/-- DMA_COMPLETE. -/
def execDmaComplete (seq : Nat) (s : State) : Host.Outcome State Fault Refusal :=
  .next (match (s.started seq 0x02).orElse (fun _ => (s.started seq 0x03).orElse (fun _ => s.started seq 0x04)) with
    | some x =>
      if s.dmaOpen seq || (x.ty == 0x04 && !s.sideRuns none x.dmaResult 16) then s else dmaComplete x s
    | none => s)

end Sys2Proof.Machine
end

