-- ==== Sys2Proof/Machine/Fabric.lean ====
section
/-! DEFINITION. The Miotos fabric (R365 to R395): the view and the routes, packets sent and forwarded, ring
states and admission, lane and laser spares, and fabric time. -/

namespace Sys2Proof.Machine

/-! ### Addresses and the view, R365, R366, R376 -/

/-- Coordinate j of a fabric address. -/
def coord (a j : Nat) : Nat := bits a (4 * j + 3) (4 * j)

/-- An address with coordinate j replaced. -/
def withCoord (a j y : Nat) : Nat := setBits a (4 * j + 3) (4 * j) y

/-- The size of dimension j, FAB_DIMS. -/
def State.dimSize (s : State) (j : Nat) : Nat := s.regFld .fabDims 0 0 0 (4 * j + 3) (4 * j) + 1

/-- The module's fabric address, FAB_ADDR. -/
def State.ownAddr (s : State) : Nat := s.regFld .fabAddr 0 0 0 15 0

/-- Whether an address is admitted in the module's view. -/
def State.inView (s : State) (a : Nat) : Bool := s.fab.admittedAddrs.contains a

/-- A ring of a number below 8: dimension i div 2, rail i mod 2 (R366). -/
def ringNo (i : Nat) : FRing := ⟨i % 8, Nat.mod_lt _ (by decide)⟩

/-- The minus and plus ports of a ring, R366. -/
def ringPort (i : FRing) (plus : Bool) : PortId := ⟨i.val + (if plus then 8 else 0), by split <;> omega⟩

/-- The next admitted address from `a` along dimension j. -/
def State.nextOn (s : State) (a j : Nat) (plus : Bool) : Option Nat :=
  let n := s.dimSize j
  ((List.range (n - 1)).map (fun k =>
    withCoord a j ((coord a j + (if plus then k + 1 else n - (k + 1))) % n))).find? (fun b => s.inView b)

/-- Whether more than 3 bypassed positions lie between `a` and the next admitted module on a side, so that the segment
stays down (R371, log 99). -/
def State.segLong (s : State) (a j : Nat) (plus : Bool) : Bool :=
  match s.nextOn a j plus with
  | some b =>
    let n := s.dimSize j
    decide (4 < (if plus then coord b j + n - coord a j else coord a j + n - coord b j) % n)
  | none => false

/-- Whether the module's own segment on a side of a ring is up: the ring ADMITTED, the segment trained and not too long
(R371, R376, R383). -/
def State.ownSegView (s : State) (i : FRing) (plus : Bool) : Bool :=
  let x := s.fring i
  decide (x.st = .admitted) && (if plus then x.plusUp else x.minusUp) && !s.segLong s.ownAddr (i.val / 2) plus

/-- Whether it carries its traffic, too: not moved to the other rail (R384, R393). -/
def State.ownSegUp (s : State) (i : FRing) (plus : Bool) : Bool :=
  s.ownSegView i plus && !s.fab.moved.contains (i, plus)

/-- Whether the segment from `a` to its neighbour `b` on a ring is up in the view; the module's own segments
as they are. A segment is named by its minus-side address and its ring. -/
def State.segUp (s : State) (a b : Nat) (i : FRing) (plus : Bool) : Bool :=
  !s.fab.downSegs.contains (if plus then a else b, i.val) && !s.segLong a (i.val / 2) plus &&
    (decide (a ≠ s.ownAddr) || s.ownSegView i plus)

/-- Whether the path within one dimension from `a` to coordinate `y` crosses no down segment. -/
def State.pathUp (s : State) (i : FRing) (plus : Bool) (y : Nat) : Nat → Nat → Bool
  | 0, _ => false
  | k + 1, a =>
    let j := i.val / 2
    if coord a j = y then true
    else match s.nextOn a j plus with
      | some b => s.segUp a b i plus && State.pathUp s i plus y k b
      | none => false

/-- The direction of R374: plus when δ ≤ n − δ. -/
def State.plusFirst (s : State) (a dst j : Nat) : Bool :=
  let n := s.dimSize j
  let δ := (coord dst j + n - coord a j) % n
  decide (δ ≤ n - δ)

/-- The route within dimension j by the four choices of R376: direction and ring. -/
def State.routeDim (s : State) (a src dst j : Nat) : Option (Bool × FRing) :=
  let p := s.plusFirst a dst j
  let r := (src + dst) % 2
  ([(p, r), (!p, r), (p, 1 - r), (!p, 1 - r)].map (fun (d, k) => (d, ringNo (2 * j + k)))).find?
    (fun (d, i) => s.pathUp i d (coord dst j) 17 a)

/-- A hop: direction, ring, and whether it is a detour. -/
structure Hop where
  plus : Bool
  ring : FRing
  detour : Bool
  deriving DecidableEq, Repr

/-- The other rail of a ring's dimension. -/
def otherRail (i : FRing) : FRing := ringNo (2 * (i.val / 2) + (1 - i.val % 2))

/-- The hop that the view gives a packet at this module (R374, R376): in the lowest dimension that differs, or, where
that has no route and the packet has not detoured, one hop in the lowest other dimension. The manual names
no direction and rail for the detour: the choices of R376 in their order (log 40). -/
def State.viewRoute (s : State) (src dst : Nat) (detoured : Bool) : Option Hop :=
  let a := s.ownAddr
  match (List.range 4).find? (fun j => coord a j != coord dst j) with
  | none => none
  | some j =>
    match s.routeDim a src dst j with
    | some (d, i) => some ⟨d, i, false⟩
    | none =>
      if detoured then none
      else
        match (List.range 4).find? (fun k => k != j && decide (1 < s.dimSize k)) with
        | none => none
        | some k =>
          let r := (src + dst) % 2
          (([(true, r), (false, r), (true, 1 - r), (false, 1 - r)].map (fun (d, q) => (d, ringNo (2 * k + q)))).find?
            (fun (d, i) => match s.nextOn a k d with
              | some b => s.segUp a b i d
              | none => false)).map (fun (d, i) => ⟨d, i, true⟩)

/-- The hop that a packet takes: where the segment of the view's hop does not carry traffic, the other rail in the same
direction, if its segment does; else none, and the packet is discarded (R376, R384). -/
def State.route (s : State) (src dst : Nat) (detoured : Bool) : Option Hop :=
  (s.viewRoute src dst detoured).bind (fun h =>
    if s.ownSegUp h.ring h.plus then some h
    else if s.ownSegUp (otherRail h.ring) h.plus then some { h with ring := otherRail h.ring }
    else none)

/-- Whether a hop crosses the dateline of its ring, between its highest and lowest admitted coordinates. -/
def State.wraps (s : State) (h : Hop) : Bool :=
  let j := h.ring.val / 2
  match s.nextOn s.ownAddr j h.plus with
  | some b => if h.plus then decide (coord b j < coord s.ownAddr j) else decide (coord s.ownAddr j < coord b j)
  | none => false

/-! ### Events -/

/-- An event of FAB_EVENT: its bit is set and vector 259 is sent (R395, log 39). -/
def State.fabEvent (s : State) (bit : Nat) : State := (s.setRegFld .fabEvent 0 0 0 bit bit 1).msix vecFabric

/-- A packet discarded as unreachable, R376, R377. -/
def State.unreach (s : State) : State := (s.bump .fabUnreach 0 0 1).fabEvent 3

/-- The die of a port and its number there, R10. -/
def portDie (p : PortId) : Die := ⟨p.val / 2, by omega⟩
def portNum (p : PortId) : Nat := p.val % 2

/-- Bytes of a packet on the wire: header, payload, CRC-32, padding (R372). -/
def pktSize (p : Packet) : Nat := ceilDiv (32 + ceilDiv p.payload.length 16 * 16 + 4) 16 * 16

/-- The header of a packet, R372 Table 2. -/
def packetHeader (k : Packet) : List Byte :=
  toLe 2 k.dst.toNat ++ toLe 2 k.src.toNat ++
    [k.kind, BitVec.ofNat 8 (k.rail.toNat + 2 * k.detoured.toNat + 4 * k.channel.toNat),
      BitVec.ofNat 8 (k.copy.toNat + 2 * k.sat.toNat), k.eMax] ++
    toLe 2 (ceilDiv k.payload.length 16) ++ toLe 2 k.group.toNat ++ toLe 2 k.bucket.toNat ++ [0, 0] ++
    toLe 8 k.step.toNat ++ toLe 4 k.asRank.toNat ++ toLe 4 k.index.toNat

/-- One bit of the CRC-32 of IEEE 802.3, its polynomial bit-reversed, as the bits are sent. -/
def crcBit (c : W32) : W32 := if c.getLsbD 0 then (c >>> 1) ^^^ 0xEDB88320 else c >>> 1

/-- One byte of the CRC-32. -/
def crcByte (c : W32) (b : Byte) : W32 := (List.range 8).foldl (fun c _ => crcBit c) (c ^^^ b.setWidth 32)

/-- The CRC-32 of IEEE 802.3 over bytes. -/
def crc32 (bs : List Byte) : W32 := ~~~(bs.foldl crcByte 0xFFFFFFFF)

/-- The CRC-32 over a packet's header and payload, the payload filled with zeros to its LENGTH (R372). -/
def packetSum (k : Packet) : W32 :=
  crc32 (packetHeader k ++ k.payload ++ List.replicate (ceilDiv k.payload.length 16 * 16 - k.payload.length) 0)

/-- The context whose collective a packet belongs to that starts or ends on this module: of ARM, CONTRIB, END, SHARD or
HOP the open one of its GROUP and BUCKET, bytes 4 to 7 of its control block (R414 Table 4). -/
def State.pktCtx (s : State) (k : Packet) : Option CtxId :=
  if k.kind.toNat < 0x10 then
    (s.colls.find? (fun c => leAt c.block 4 2 == k.group.toNat && leAt c.block 6 2 == k.bucket.toNat)).map (fun c => c.ctx)
  else none

/-- Packet bytes at a port count for the energy ledger, as the context's too where one is named (R414). -/
def State.accountPort (s : State) (p : PortId) (n : Option CtxId) (len : Nat) : State :=
  let s := s.account (acPort p.val) len
  match n with
  | some n => s.account (acPortCtx p.val n.val) len
  | none => s

/-- A packet leaves by a hop: RAIL, DETOURED and the channel are set (R375), and its bytes are counted. Its CRC
follows the header's change, and an error in it stays one (log 107). -/
def leaveBy (h : Hop) (pkt : Packet) (sameDim : Bool) (s : State) : State × Packet :=
  let p := ringPort h.ring h.plus
  let out := { pkt with
    rail := h.ring.val % 2 == 1
    detoured := pkt.detoured || h.detour
    channel := (sameDim && pkt.channel) || s.wraps h
    port := p }
  ((s.bump .lndTxBytes (portDie p).val (portNum p) (pktSize pkt)).accountPort p
    (if pkt.src.toNat = s.ownAddr then s.pktCtx pkt else none) (pktSize pkt), { out with crc := pkt.crc ^^^ packetSum pkt ^^^ packetSum out })

/-- Sends a packet of the module's own, with its CRC, to another module, or discards it as unreachable. -/
def State.sendPacket (s : State) (pkt : Packet) : State :=
  if s.inView pkt.dst.toNat then
    match s.route s.ownAddr pkt.dst.toNat false with
    | some h =>
      let (s, pkt) := leaveBy h { pkt with crc := packetSum pkt } false s
      s.emit (.packet pkt)
    | none => s.unreach
  else s.unreach

/-- Sends a packet of the module's own to its neighbour `dst` by a side of a ring, whatever the routes: TIME, ADMIT and
ECHO, and the lane map (R375, R386). The manual names no path for an ADMIT of a ring that carries no traffic yet
(log 40). -/
def State.sendNear (s : State) (i : FRing) (plus : Bool) (dst kind : Nat) (payload : List Byte) : State :=
  let p := ringPort i plus
  let k : Packet := { dst := BitVec.ofNat 16 dst, src := BitVec.ofNat 16 s.ownAddr, kind := BitVec.ofNat 8 kind
                      rail := i.val % 2 == 1, payload, port := p }
  ((s.bump .lndTxBytes (portDie p).val (portNum p) (pktSize k)).accountPort p none (pktSize k)).emit
    (.packet { k with crc := packetSum k })

/-! ### Forwarding -/

/-- Counts a packet that arrives at its port. -/
def State.countRx (s : State) (k : Packet) : State :=
  (s.bump .lndRxBytes (portDie k.port).val (portNum k.port) (pktSize k)).accountPort k.port
    (if k.dst.toNat = s.ownAddr then s.pktCtx k else none) (pktSize k)

/-- Whether a port carries ring traffic: its ring is ADMITTED with the segment on that side up (R371, R383). -/
def State.portCarries (s : State) (p : PortId) : Bool :=
  let x := s.fring (portRing p)
  decide (x.st = .admitted) && (if 8 ≤ p.val then x.plusUp else x.minusUp) &&
    !s.segLong s.ownAddr ((portRing p).val / 2) (decide (8 ≤ p.val))

/-- PACKET_FORWARD of a transit packet: onwards by its route, or discarded and counted (R374, R376). The
bytes count in LND_TRANSIT_BYTES of each die on its way. -/
def packetForward (p : PortId) (pkt : Packet) (s : State) : State :=
  let s := s.countRx { pkt with port := p }
  match s.route pkt.src.toNat pkt.dst.toNat pkt.detoured with
  | none => s.unreach
  | some h =>
    let (s, out) := leaveBy h pkt (h.ring.val / 2 == (portRing p).val / 2) s
    let s := (s.diePath (portDie p).val (portDie out.port).val).foldl (fun s d =>
      s.bump .lndTransitBytes d 0 (pktSize pkt)) s
    s.emit (.forwarded out.port.val out)

/-- PACKET_FORWARD. -/
def execPacketForward (inPort : PortId) (pkt : Packet) (s : State) : Host.Outcome State Fault Refusal :=
  .next (if s.portCarries inPort && decide (pkt.dst.toNat ≠ s.ownAddr) then packetForward inPort pkt s else s)

/-- KIND values of R372 that are not reserved. -/
def kindDefined (k : Byte) : Bool :=
  [0x01, 0x02, 0x03, 0x04, 0x05, 0x10, 0x11, 0x12, 0x13].contains k.toNat

/-- Whether a packet is good: its CRC and a KIND that is not reserved. -/
def pktGood (k : Packet) : Bool := decide (k.crc = packetSum k) && kindDefined k.kind

/-- A packet for this module comes in at its port: its bytes count; a bad CRC or reserved KIND discards it and counts
in LND_DROP (R372); a packet of the expected KIND has its effect. -/
def takeIn (kind : Nat) (eff : Packet → State → State) (pkt : Packet) (s : State) : State :=
  let s := s.countRx pkt
  if !pktGood pkt then s.bump .lndDrop (portDie pkt.port).val (portNum pkt.port) 1
  else if pkt.kind.toNat = kind then eff pkt s else s

/-- A packet that arrives for this module on a ring that carries traffic. -/
def receive (kind : Nat) (eff : Packet → State → State) (pkt : Packet) (s : State) : State :=
  if s.portCarries pkt.port && decide (pkt.dst.toNat = s.ownAddr) then takeIn kind eff pkt s else s

/-- An ADMIT packet for this module, which may come before a ring carries traffic (log 40). -/
def receiveAdmit (eff : Packet → State → State) (pkt : Packet) (s : State) : State :=
  if s.boot.powered && decide (pkt.dst.toNat = s.ownAddr) then takeIn 0x11 eff pkt s else s

/-- CODEWORD_LOSS: `count` codewords that cannot be corrected, and the replay that makes them good; a lane's sequence
numbers and its replay buffer are the link's own (R368, log 116). -/
def execCodewordLoss (p : PortId) (_ : Fin 9) (count : Nat) (s : State) : Host.Outcome State Fault Refusal :=
  .next (if count = 0 then s
    else (s.bump .lndFecUncorr (portDie p).val (portNum p) count).bump .lndRetry (portDie p).val (portNum p) 1)

/-! ### The time path, R389, R392 -/

/-- The time master in view: the lowest eligible admitted address; the module itself is eligible while its
FAB_TIME_CTL.MASTER is set. -/
def State.timeMaster (s : State) : Option Nat :=
  let own := if (s.reg .fabTimeCtl 0 0 0).getLsbD 0 then [s.ownAddr] else []
  match (own ++ s.fab.masters.filter (fun a => decide (a ≠ s.ownAddr))).filter (fun a => s.inView a) with
  | [] => none
  | a :: rest => some (natMinD a (a :: rest))

/-- The ring to the upstream module: the first dimension to the master, rail 0 preferred. -/
def State.upstream (s : State) : Option FRing :=
  match s.timeMaster with
  | none => none
  | some m =>
    match (List.range 4).find? (fun j => coord s.ownAddr j != coord m j) with
    | none => none
    | some j =>
      let p := s.plusFirst s.ownAddr m j
      ([ringNo (2 * j), ringNo (2 * j + 1)]).find? (fun i => s.ownSegUp i p)

/-- What changes the view may change master or upstream: each such change is an event, and with another upstream, or
none, the module holds its time on its own clock until the next exchange (R392). -/
def viewStep (f : State → State) (s : State) : State :=
  let t := f s
  if t.timeMaster = s.timeMaster ∧ t.upstream = s.upstream then t
  else
    let t := if t.upstream = s.upstream then t
      else { t with fab := { t.fab with locked := false, slew := 0, lastOffset := none } }
    t.fabEvent 2

/-! ### ROUTE -/

/-- What a ROUTE announces, in the model's own payload of four bytes an entry (log 40): 0 segment down, 1
segment up, 2 address admitted, 3 address no longer admitted, 4 eligible as time master, 5 not eligible; 6 the lane map
of the sender's direction (ring 1 transmit, 0 receive) with the lane replaced, for the other end of the link. -/
def routeEntry (code ring addr : Nat) : List Byte := [BitVec.ofNat 8 code, BitVec.ofNat 8 ring] ++ toLe 2 addr

/-- Sends ROUTE with an entry to every other admitted module. -/
def State.announce (s : State) (code ring addr : Nat) : State :=
  (s.fab.admittedAddrs.filter (fun a => a ≠ s.ownAddr)).foldl (fun s a =>
    s.sendPacket { dst := BitVec.ofNat 16 a, src := BitVec.ofNat 16 s.ownAddr, kind := 0x10,
                   payload := routeEntry code ring addr }) s

/-- Adds to or takes from a list of addresses without repeats. -/
def listPut {α : Type} [DecidableEq α] (l : List α) (x : α) (on : Bool) : List α :=
  if on then (if l.contains x then l else l ++ [x]) else l.filter (fun y => y ≠ x)

/-- One entry of a ROUTE acts on the view. -/
def viewEntry (code ring addr : Nat) (f : Fab) : Fab :=
  if code ≤ 1 then { f with downSegs := listPut f.downSegs (addr, ring) (code == 0) }
  else if code ≤ 3 then { f with
    admittedAddrs := listPut f.admittedAddrs addr (code == 2)
    downSegs := f.downSegs.filter (fun e => e.1 ≠ addr) }
  else if code ≤ 5 then { f with masters := listPut f.masters addr (code == 4) }
  else f

/-- The entries of a ROUTE's payload. -/
def routeEntries (bs : List Byte) : List (Nat × Nat × Nat) :=
  (List.range (bs.length / 4)).map (fun k => (leAt bs (4 * k) 1, leAt bs (4 * k + 1) 1, leAt bs (4 * k + 2) 2))

/-- The spare map keeps a port's lane map and lasers. -/
def State.savePort (s : State) (p : PortId) : State :=
  let v := BitVec.ofNat 32 (s.reg .lndPortStatus (portDie p).val (portNum p) 0).toNat
  { s with store := { s.store with dirty := true, cur := { s.store.cur with
      spares := { s.store.cur.spares with ports := SMap.put s.store.cur.spares.ports p.val (s.port p, v) } } } }

/-- The spare of a port's direction carries a lane: its lane map, which the spare map keeps (R386). -/
def setLane (p : PortId) (tx : Bool) (lane : Nat) (s : State) : State :=
  let hi := if tx then 23 else 19
  (s.setRegFld .lndPortStatus (portDie p).val (portNum p) 0 hi (hi - 3) lane).savePort p

/-- ROUTE_RECEIVE: the module's view takes what is announced; a segment change is an event (R376). A lane map that the
other end of the link has changed is taken for the direction opposite (R386). -/
def routeReceive (pkt : Packet) (s : State) : State :=
  let l := routeEntries pkt.payload
  let s := l.foldl (fun s (c, tx, lane) => if c = 6 then setLane pkt.port (tx == 0) (lane % 16) s else s) s
  let s := viewStep (fun s => { s with fab := l.foldl (fun f (c, i, a) => viewEntry c i a f) s.fab }) s
  if l.any (fun (c, _, _) => decide (c ≤ 1)) then s.fabEvent 0 else s

/-! ### Ring states, R383 to R385 -/

/-- All rings. -/
def allRings : List FRing := List.finRange 8

/-- A ring enters a state: an event of FAB_EVENT. -/
def State.setRing (s : State) (i : FRing) (st : RingSt) (f : FRingSt → FRingSt) : State :=
  (s.modFring i (fun x => { f x with st, since := s.now })).fabEvent 1

/-- Whether a ring is in REQUESTED, SWITCHING, TRAINING or LEAVING. -/
def RingSt.moving : RingSt → Bool
  | .requested => true
  | .switching => true
  | .training => true
  | .leaving => true
  | _ => false

/-- Whether both ports of a ring are ON. -/
def State.portsOn (s : State) (i : FRing) : Bool :=
  s.fnIs (.port (ringPort i false)) .on && s.fnIs (.port (ringPort i true)) .on

/-- Whether a ring's dimension is larger than 1; before software has set the sizes any may be (R366, R457, log 62). -/
def State.ringUsed (s : State) (i : FRing) : Bool :=
  decide (1 < s.dimSize (i.val / 2)) || s.regFld .fabDims 0 0 0 15 0 == 0

/-- A BYPASSED ring of a dimension larger than 1 whose ports are ON and have trained through the bypass path
becomes LOOP_TRAINED (R383, R366). -/
def loopTrain (s : State) : State :=
  allRings.foldl (fun s i =>
    if decide ((s.fring i).st = .bypassed) && (s.fring i).closed && s.portsOn i &&
        (s.port (ringPort i false)).trained && (s.port (ringPort i true)).trained &&
        s.ringUsed i then s.setRing i .loopTrained id
    else s) s

/-- The sizes that FAB_DIMS sets: the rings of a dimension of size 1 are BYPASSED, the others train (R366). -/
def sizesSet (s : State) : State :=
  loopTrain (allRings.foldl (fun s i =>
    if (s.fring i).st = .loopTrained ∧ s.ringUsed i = false then s.setRing i .bypassed id else s) s)

/-- Whether every ring of every dimension larger than 1 is ADMITTED, and there is one. -/
def State.allAdmitted (s : State) : Bool :=
  let l := allRings.filter (fun i => decide (1 < s.dimSize (i.val / 2)))
  !l.isEmpty && l.all (fun i => decide ((s.fring i).st = .admitted))

/-- The own address stops being admitted with the first such ring that leaves ADMITTED (R385). -/
def addrLeaves (s : State) : State :=
  if s.fab.selfAdmitted && !s.allAdmitted then
    (viewStep (fun s => { s with fab := { s.fab with
      selfAdmitted := false, admittedAddrs := listPut s.fab.admittedAddrs s.ownAddr false } }) s).announce 3 0 s.ownAddr
  else s

/-- The payload of an ADMIT or ECHO packet, the model's own (log 40): 0 a request, 1 accepted, 2 refused, 3 withdrawn;
the ring, the requester's side of it, and for an ADMIT the requester's sizes. -/
def askBytes (code : Nat) (i : FRing) (plus : Bool) (dims : Nat) : List Byte :=
  [BitVec.ofNat 8 code, BitVec.ofNat 8 i.val, if plus then 1 else 0, 0] ++ toLe 2 dims

/-- What an ADMIT or ECHO packet asks or answers, of which ring, and of which of the requester's sides. -/
def askCode (k : Packet) : Nat := leAt k.payload 0 1
def askRing (k : Packet) : FRing := ringNo (leAt k.payload 1 1)
def askPlus (k : Packet) : Bool := leAt k.payload 2 1 == 1

/-- The withdrawals of the acceptances that this module at an address has given, R384; each names the requester's side,
the one opposite. -/
def withdrawals (own : Nat) (l : List (FRing × Bool × Nat)) : List Out := l.map (fun (i, p, a) =>
  let k : Packet := { dst := BitVec.ofNat 16 a, src := BitVec.ofNat 16 own, kind := 0x11, rail := i.val % 2 == 1
                      payload := askBytes 3 i (!p) 0, port := ringPort i p }
  .packet { k with crc := packetSum k })

/-- A ring's bypass is to close: what the module accepted for it is withdrawn (R384). -/
def withdrawRing (i : FRing) (s : State) : State :=
  let own := s.fab.accepted.filter (fun e => e.1 = i)
  let s := own.foldl (fun (s : State) (e : FRing × Bool × Nat) =>
    s.sendNear e.1 e.2.1 e.2.2 0x11 (askBytes 3 e.1 (!e.2.1) 0)) s
  { s with fab := { s.fab with
    accepted := s.fab.accepted.filter (fun e => e.1 ≠ i)
    moved := s.fab.moved.filter (fun e => e.1 ≠ i) } }

/-- The name of a segment on a side of one of the module's rings: its minus-side address and ring. -/
def State.segName (s : State) (i : FRing) (plus : Bool) : Nat × Nat :=
  (if plus then s.ownAddr else (s.nextOn s.ownAddr (i.val / 2) false).getD s.ownAddr, i.val)

/-- Segments of a ring on the given sides go down or up: the view changes, ROUTE is sent and FAB_EVENT shows it (R376,
R395). `f` is what becomes of the ring. -/
def segsChange (i : FRing) (sides : List Bool) (up : Bool) (f : State → State) (s : State) : State :=
  let names := sides.map (fun p => s.segName i p)
  let s := viewStep (fun s =>
    let s := f s
    { s with fab := { s.fab with
      downSegs := names.foldl (fun l x => listPut l x (!up)) s.fab.downSegs
      moved := if up then s.fab.moved.filter (fun e => !(e.1 == i && sides.contains e.2)) else s.fab.moved
      accepted := if up then s.fab.accepted.filter (fun e => !(e.1 == i && sides.contains e.2.1)) else s.fab.accepted } }) s
  names.foldl (fun s x => (s.fabEvent 0).announce (if up then 1 else 0) x.2 x.1) s

/-- The sides of a ring whose segments are up. -/
def FRingSt.sidesUp (x : FRingSt) : List Bool := (if x.minusUp then [false] else []) ++ (if x.plusUp then [true] else [])

/-- A ring goes to LEAVING with a REASON; it carries no traffic. -/
def ringLeave (i : FRing) (reason : Nat) (s : State) : State :=
  addrLeaves (segsChange i (s.fring i).sidesUp false (fun s => (withdrawRing i s).setRing i .leaving (fun x =>
    { x with reason, plusUp := false, minusUp := false })) s)

/-- Whether a ring that waits to leave may still: an ADMITTED one; with a port disabled (REASON 4), or as the module
leaves service, also one on its way there (R369, R383, R436). -/
def State.mayLeave (s : State) (e : FRing × Nat) : Bool :=
  let st := (s.fring e.1).st
  decide (st = .admitted) || ((decide (e.2 = 4) || s.hub.outOfService) && decide (st ≠ .bypassed) && decide (st ≠ .leaving))

/-- The fabric manager takes the next ring to leave: one at a time in increasing i, not while the other rail
of its dimension moves (R385). -/
def pumpLeave (s : State) : State :=
  let q := s.fab.leaveQ.filter s.mayLeave
  let s := { s with fab := { s.fab with leaveQ := q } }
  if allRings.any (fun i => decide ((s.fring i).st = .leaving)) then s
  else match q with
    | e :: rest =>
      if ((s.fring (otherRail e.1)).st).moving then s else ringLeave e.1 e.2 { s with fab := { s.fab with leaveQ := rest } }
    | [] => s

/-- The ADMIT requests of a ring to the neighbours on its two sides (R384). -/
def askNeighbours (i : FRing) (s : State) : State :=
  [false, true].foldl (fun s p => match s.nextOn s.ownAddr (i.val / 2) p with
    | some b => s.sendNear i p b 0x11 (askBytes 0 i p (s.regFld .fabDims 0 0 0 15 0))
    | none => s) s

/-- The fabric manager requests the next admission: one at a time in increasing i. The ring is LOOP_TRAINED
with both ports ON (R369), and the other rail of its dimension does not move. Its neighbours are asked (R384). -/
def pumpAdmit (s : State) : State :=
  let q := s.fab.admitQ.filter (fun i => decide ((s.fring i).st = .loopTrained) && s.portsOn i)
  let s := { s with fab := { s.fab with admitQ := q } }
  if allRings.any (fun i => ((s.fring i).st).moving && decide ((s.fring i).st ≠ .leaving)) then s
  else match q with
    | i :: rest =>
      if ((s.fring (otherRail i)).st).moving then s
      else askNeighbours i (({ s with fab := { s.fab with admitQ := rest } }).setRing i .requested id)
    | [] => s

/-- The fabric manager goes on. -/
def fabPump (s : State) : State := pumpAdmit (pumpLeave s)

/-- A ring joins those that wait to leave, in increasing i, with its REASON. -/
def queueLeave (l : List (FRing × Nat)) (i : FRing) (reason : Nat) : List (FRing × Nat) :=
  let l := l.filter (fun e => e.1 ≠ i)
  l.filter (fun e => e.1.val < i.val) ++ [(i, reason)] ++ l.filter (fun e => i.val < e.1.val)

/-- A ring is to leave: as soon as those before it have, where R385 takes them one at a time. -/
def askLeave (i : FRing) (reason : Nat) (s : State) : State :=
  fabPump { s with fab := { s.fab with leaveQ := queueLeave s.fab.leaveQ i reason } }

/-- A disable written to a port: with the port DRAINING, a ring that is not BYPASSED goes through LEAVING (R369). -/
def portDisable (p : PortId) (s : State) : State :=
  let t := functionDisable (.port p) s
  if t.fnIs (.port p) .draining then askLeave (portRing p) 4 t else t

/-- Merges a mask of rings into a waiting list in increasing order. -/
def queueRings (l : List FRing) (mask : Nat) : List FRing :=
  allRings.filter (fun i => l.contains i || bits mask i.val i.val == 1)

/-- A write of FAB_ADMIT: rings to admit in bits 7:0 and to leave in bits 15:8; a ring in both is left alone
(R385, R395). -/
def fabAdmitWrite (val : W32) (s : State) : State :=
  let a := bits val.toNat 7 0
  let l := bits val.toNat 15 8
  let both := a &&& l
  fabPump { s with fab := { s.fab with
    admitQ := queueRings s.fab.admitQ (a - both)
    leaveQ := (queueRings [] (l - both)).foldl (fun q i =>
      if q.any (fun e => e.1 = i) then q else queueLeave q i 0) s.fab.leaveQ } }

/-- Whether a coordinate lies between this module and its neighbour on a side of a ring, in its view. -/
def State.between (s : State) (i : FRing) (plus : Bool) (c : Nat) : Bool :=
  let j := i.val / 2
  let n := s.dimSize j
  let x := coord s.ownAddr j
  let y := match s.nextOn s.ownAddr j plus with
    | some b => coord b j
    | none => x
  let dist (u : Nat) : Nat := if plus then (u + n - x) % n else (x + n - u) % n
  let far := if dist y = 0 then n else dist y
  decide (0 < dist c) && decide (dist c < far)

/-- R384: whether this module, as a neighbour, accepts an ADMIT request. -/
def State.acceptsAdmit (s : State) (i : FRing) (plus : Bool) (c : Nat) (dims : W16) : Bool :=
  decide (dims.toNat = s.regFld .fabDims 0 0 0 15 0) && s.between i plus c &&
    !((s.fring i).st).moving && !((s.fring (otherRail i)).st).moving

/-- A neighbour judges an ADMIT request: on accepting, the segment's traffic moves to the other rail and the neighbour
confirms; the answer names the requester's ring and side (R384). -/
def admitJudge (pkt : Packet) (s : State) : State :=
  let i := askRing pkt
  let p := !askPlus pkt
  let src := pkt.src.toNat
  if askCode pkt ≠ 0 ∨ (s.fring i).st ≠ .admitted then s
  else if s.acceptsAdmit i p (coord src (i.val / 2)) (BitVec.ofNat 16 (leAt pkt.payload 4 2)) then
    (viewStep (fun s => { s with fab := { s.fab with
      moved := listPut s.fab.moved (i, p) true
      accepted := listPut s.fab.accepted (i, p, src) true } }) s).sendNear i p src 0x11 (askBytes 1 i (!p) 0)
  else s.sendNear i p src 0x11 (askBytes 2 i (!p) 0)

/-- ADMIT_RECEIVE. -/
def admitReceiveEv (pkt : Packet) (s : State) : State := receiveAdmit admitJudge pkt s

/-- Whether a good ADMIT packet for this module accepts, for one of its sides, the request for a ring. -/
def State.accepts (s : State) (k : Packet) (i : FRing) (plus : Bool) : Bool :=
  pktGood k && decide (k.dst.toNat = s.ownAddr) && decide (k.kind.toNat = 0x11) && askCode k == 1 &&
    decide (askRing k = i) && askPlus k == plus

/-- ADMIT_ACCEPT: both neighbours have confirmed, the one on the minus and the one on the plus side; while both ports of
the ring are ON (R369) its switch starts to open. -/
def admitAcceptEv (minus plus : Packet) (s : State) : State :=
  let i := askRing minus
  let s := receiveAdmit (fun _ s => s) plus (receiveAdmit (fun _ s => s) minus s)
  if s.accepts minus i false && s.accepts plus i true && s.portsOn i && decide ((s.fring i).st = .requested) then
    s.setRing i .switching id
  else s

/-- A neighbour refuses a request, or withdraws its acceptance; the ring returns to LOOP_TRAINED, its bypass CLOSED,
with REASON 1 (R383, R384). -/
def admitRefused (pkt : Packet) (s : State) : State :=
  let i := askRing pkt
  if (askCode pkt = 2 ∨ askCode pkt = 3) ∧ (s.fring i).st = .requested ∨ askCode pkt = 3 ∧ (s.fring i).st = .switching then
    fabPump (s.setRing i .loopTrained (fun x => { x with reason := 1, closed := true }))
  else s

/-- ADMIT_WITHDRAW. -/
def admitWithdrawEv (pkt : Packet) (s : State) : State := receiveAdmit admitRefused pkt s

/-- ADMIT_REQUEST_TIMEOUT: no answer within 5 ms. -/
def admitTimeoutEv (i : FRing) (s : State) : State :=
  if (s.fring i).st = .requested ∧ (s.fring i).since + 5000000 ≤ s.now then
    fabPump (s.setRing i .loopTrained (fun x => { x with reason := 2 }))
  else s

/-- SWITCH_OPEN_REPORTED; with a port no longer ON the ring waits to leave (R369). -/
def switchOpenEv (i : FRing) (s : State) : State :=
  if (s.fring i).st = .switching ∧ s.portsOn i = true then s.setRing i .training (fun x => { x with closed := false }) else s

/-- Both segments of a ring have trained: it is ADMITTED, and the last ring announces the address. -/
def segmentTrained (i : FRing) (s : State) : State :=
  let s := segsChange i [false, true] true (fun s => s.setRing i .admitted (fun x =>
    { x with plusUp := true, minusUp := true, reason := 0 })) s
  let s := if s.allAdmitted && !s.fab.selfAdmitted then
      let me := s.ownAddr
      let s := viewStep (fun s => { s with fab := { s.fab with
        selfAdmitted := true, admittedAddrs := listPut s.fab.admittedAddrs me true } }) s
      let s := s.announce 2 0 me
      if (s.reg .fabTimeCtl 0 0 0).getLsbD 0 then s.announce 4 0 me else s
    else s
  fabPump s

/-- Whether both segments of a ring are short enough to come up (R371). -/
def State.segsShort (s : State) (i : FRing) : Bool :=
  [false, true].all (fun p => !s.segLong s.ownAddr (i.val / 2) p)

/-- SEGMENT_TRAINED; a ring is admitted only while both its ports are ON (R369). -/
def segmentTrainedEv (i : FRing) (s : State) : State :=
  if (s.fring i).st = .training ∧ s.segsShort i = true ∧ s.portsOn i = true then segmentTrained i s else s

/-- TRAINING_TIMEOUT: not trained within 30 ms. -/
def trainingTimeoutEv (i : FRing) (s : State) : State :=
  if (s.fring i).st = .training ∧ (s.fring i).since + 30000000 ≤ s.now then fabPump (ringLeave i 3 s) else s

/-- SWITCH_CLOSED_REPORTED: the buffers are empty and the switch is CLOSED. -/
def switchClosedEv (i : FRing) (s : State) : State :=
  if (s.fring i).st = .leaving then fabPump (loopTrain (s.setRing i .bypassed (fun x => { x with closed := true }))) else s

/-- A side of an ADMITTED ring goes down or up (R376, R385). -/
def segmentChange (i : FRing) (plus up : Bool) (s : State) : State :=
  segsChange i [plus] up (fun s =>
    s.modFring i (fun x => if plus then { x with plusUp := up } else { x with minusUp := up })) s

/-- SEGMENT_DOWN. -/
def segmentDownEv (i : FRing) (plusSide : Bool) (s : State) : State :=
  if decide ((s.fring i).st = .admitted) && (if plusSide then (s.fring i).plusUp else (s.fring i).minusUp) then
    segmentChange i plusSide false s
  else s

/-- SEGMENT_UP: also what ends the moving of a segment's traffic to the other rail. -/
def segmentUpEv (i : FRing) (plusSide : Bool) (s : State) : State :=
  if decide ((s.fring i).st = .admitted) && !s.segLong s.ownAddr (i.val / 2) plusSide &&
      (!(if plusSide then (s.fring i).plusUp else (s.fring i).minusUp) || s.fab.moved.contains (i, plusSide)) then
    segmentChange i plusSide true s
  else s

/-- NEIGHBOUR_LOSS: the packets of the unacknowledged codewords towards it are lost and counted (R378). -/
def neighbourLossEv (i : FRing) (_ : Bool) (packets : Nat) (s : State) : State :=
  if (s.fring i).st = .admitted ∧ packets ≠ 0 then (s.bump .fabLost 0 0 packets).fabEvent 4 else s

/-- A neighbour asks for its far-end loop-back on an ADMITTED ring: it is accepted, and the segment's traffic moves to
the other rail while it runs (R393). -/
def echoAsked (pkt : Packet) (s : State) : State :=
  let i := askRing pkt
  let p := !askPlus pkt
  if askCode pkt = 0 ∧ (s.fring i).st = .admitted then
    (viewStep (fun s => { s with fab := { s.fab with moved := listPut s.fab.moved (i, p) true } }) s).sendNear i p
      pkt.src.toNat 0x13 (askBytes 1 i (!p) 0)
  else s

/-- ECHO_RECEIVE. -/
def echoReceiveEv (pkt : Packet) (s : State) : State := receive 0x13 echoAsked pkt s

/-! ### Fabric time -/

/-- 1 ps and 1 µs in the units of FAB_TIME_OFFSET. -/
def psNs : Int := 1000
def lockPs : Int := 1000000

/-- The most that the own frequency is corrected, in parts per 10^9 (log 117). -/
def freqMax : Int := 100000

/-- A step of fabric time, by a signed number of ns. -/
def timeStep (ns : Int) (s : State) : State :=
  { s with now := ((s.now : Int) + ns).toNat }.setReg .fabTimeStep 0 0 0 (BitVec.ofInt 64 ns)

/-- The own frequency is corrected by what has grown of the offset since the last exchange beyond what was still to
slew, in parts per 10^9 (R389, log 117). -/
def freqStep (ps : Int) (s : State) : State :=
  let f := match s.fab.lastOffset with
    | some t => if t < s.now then s.fab.freq + (ps - s.fab.slew * psNs) * 1000000 / ((s.now - t : Nat) : Int) else s.fab.freq
    | none => s.fab.freq
  { s with fab := { s.fab with lastOffset := some s.now, freq := max (-freqMax) (min freqMax f) } }

/-- An offset to the upstream: it is recorded; beyond 1 µs time steps when every context is OFF; else the error is
slewed (R389, R391). -/
def timeReceive (ps : Int) (s : State) : State :=
  let s := freqStep ps (s.setReg .fabTimeOffset 0 0 0 (BitVec.ofNat 64 (unsgn 32 ps)))
  let ok := decide (-lockPs ≤ ps ∧ ps ≤ lockPs)
  let s := { s with fab := { s.fab with locked := ok } }
  if !ok && (List.finRange 64).all (fun n => s.fnIs (.ctx n) .off) then
    { (timeStep (ps / psNs) s) with fab := { s.fab with slew := 0, locked := true } }
  else { s with fab := { s.fab with slew := ps / psNs } }

/-- The number of a side of a ring. -/
def sideNo (i : FRing) (plus : Bool) : Nat := 2 * i.val + (if plus then 1 else 0)

/-- The payload of a TIME packet, the model's own (log 40), in ps: its transmit stamp; and of the last packet of the
other end its transmit stamp and that of its arrival here, all ones where none has come. -/
def timeBytes (tx : Nat) (x : Option (Nat × Nat)) : List Byte :=
  match x with
  | some (a, b) => toLe 8 tx ++ toLe 8 a ++ toLe 8 b
  | none => toLe 8 tx ++ List.replicate 16 0xFF

/-- The offset of the other end to this module by a two-way exchange, in ps: the mean of the differences of the two ways,
where the packet tells of one that this module has sent (R389). -/
def exchangeOffset (k : Packet) (arrival : Nat) : Option Int :=
  let own := leAt k.payload 8 8
  if own = 2 ^ 64 - 1 then none
  else some ((((leAt k.payload 16 8 : Nat) : Int) - own + ((leAt k.payload 0 8 : Nat) : Int) - arrival) / 2)

/-- A TIME packet, stamped at the PHY as it arrives: its stamps are kept for the next packet the other way; that of the
upstream gives the offset (R389). -/
def timeNote (arrival : Nat) (k : Packet) (s : State) : State :=
  let i := portRing k.port
  let p := decide (8 ≤ k.port.val)
  let s := { s with fab := { s.fab with stamps := SMap.put s.fab.stamps (sideNo i p) (leAt k.payload 0 8, arrival) } }
  let toMaster := match s.timeMaster with
    | some m => s.plusFirst s.ownAddr m (i.val / 2) == p
    | none => false
  match exchangeOffset k arrival with
  | some ps => if s.upstream = some i ∧ toMaster = true then timeReceive ps s else s
  | none => s

/-- TIME_RECEIVE; time exchange goes on through a change of hub half (R378). -/
def execTimeReceive (pkt : Packet) (arrivalPs : Nat) (s : State) : Host.Outcome State Fault Refusal :=
  .next (receive 0x12 (timeNote arrivalPs) pkt s)

/-- TIME_EXCHANGE: every 1 ms a stamped TIME packet goes to each neighbour (R389). -/
def timeExchange (s : State) : State :=
  let s := { s with fab := { s.fab with lastExchange := some s.now } }
  allRings.foldl (fun s i => [false, true].foldl (fun s p =>
    match (if s.ownSegUp i p then s.nextOn s.ownAddr (i.val / 2) p else none) with
    | some b => s.sendNear i p b 0x12 (timeBytes (s.now * 1000) (SMap.find s.fab.stamps (sideNo i p)))
    | none => s) s) s

/-- TIME_EXCHANGE. -/
def execTimeExchange (s : State) : Host.Outcome State Fault Refusal :=
  .next (match s.fab.lastExchange with
    | some t => if t + 1000000 ≤ s.now then timeExchange s else s
    | none => timeExchange s)

/-! ### Spares of lanes and lasers -/

/-- What is left of a port: fewer than 4 good lanes in a direction take the ring to LEAVING, fewer than 8
halve the port and degrade it (R388). -/
def portWidth (p : PortId) (kind detail : Nat) (s : State) : State :=
  let x := s.port p
  let n := min x.txGood x.rxGood
  if n < 8 then
    let s := s.degraded kind (portDie p).val p.val detail 0 0 0
    let i := portRing p
    if n < 4 ∧ (s.fring i).st = .admitted then askLeave i 5 s else s
  else s

/-- The other end of an ADMITTED port's link learns the new lane map (R386). -/
def tellLane (p : PortId) (tx : Bool) (lane : Nat) (s : State) : State :=
  let i := portRing p
  let plus := decide (8 ≤ p.val)
  match (if (s.fring i).st = .admitted then s.nextOn s.ownAddr (i.val / 2) plus else none) with
  | some b => s.sendNear i plus b 0x10 (routeEntry 6 (if tx then 1 else 0) lane)
  | none => s

/-- FABRIC_LANE_SPARE: a failing lane of a direction moves to lane 8 (R386); with the spare in use the lane
is lost (R388). -/
def fabricLaneSpare (p : PortId) (tx : Bool) (lane : Nat) (s : State) : State :=
  let hi := if tx then 23 else 19
  let s := s.modPort p (fun x => if tx then { x with txGood := x.txGood - 1 } else { x with rxGood := x.rxGood - 1 })
  if s.regFld .lndPortStatus (portDie p).val (portNum p) 0 hi (hi - 3) = 0xF then
    ((tellLane p tx lane (setLane p tx lane s)).repaired kFabricLane (portDie p).val p.val lane 200 0 0 true)
  else portWidth p kFabricLane lane s

/-- FABRIC_LANE_SPARE. -/
def execFabricLaneSpare (p : PortId) (tx : Bool) (lane : Fin 8) (s : State) : Host.Outcome State Fault Refusal :=
  .next (if s.fnIs (.port p) .off then s else fabricLaneSpare p tx lane.val s)

/-- LASER_SPARE: one of the port's two spare lasers takes over (R387), or the laser's three transmit lanes are
lost (R388). -/
def laserSpare (p : PortId) (laser : Nat) (s : State) : State :=
  let k := (s.port p).lasersOut
  if k < 2 then
    let s := s.modPort p (fun x => { x with lasersOut := k + 1 })
    let s := s.setRegFld .lndPortStatus (portDie p).val (portNum p) 0 25 24 (k + 1)
    ((s.savePort p).repaired kLaser (portDie p).val p.val laser 500 0 (2 - (k + 1)) (k + 1 == 2))
  else portWidth p kLaser laser (s.modPort p (fun x => { x with txGood := x.txGood - 3 }))

/-- LASER_SPARE. -/
def execLaserSpare (p : PortId) (laser : Fin 5) (s : State) : Host.Outcome State Fault Refusal :=
  .next (if s.fnIs (.port p) .off then s else laserSpare p laser.val s)

end Sys2Proof.Machine
end

