-- ==== Sys2Proof/Machine/Collectives.lean ====
section
/-! DEFINITION. Gradient reduction and collectives (R222 to R248): the collective block and its checks, the
sender role with its combining entries, the owner role, gathers, the exponent pass and PERMUTE. -/

namespace Sys2Proof.Machine

/-! ### The collective block, R225 Table 3 -/

def bkOp (b : List Byte) : Nat := leAt b 0 1
def bkPlain (b : List Byte) : Bool := bits (leAt b 1 1) 0 0 == 1
def bkExplicit (b : List Byte) : Bool := bits (leAt b 1 1) 1 1 == 1
def bkCopy (b : List Byte) : Bool := bits (leAt b 1 1) 2 2 == 1
def bkGatherScale (b : List Byte) : Bool := bits (leAt b 1 1) 3 3 == 1
def bkLocal (b : List Byte) : Nat := leAt b 2 2
def bkGroup (b : List Byte) : Nat := leAt b 4 2
def bkBucket (b : List Byte) : Nat := leAt b 6 2
def bkP (b : List Byte) : Nat := leAt b 8 4
def bkAsRank (b : List Byte) : Nat := leAt b 0x0C 4
def bkStep (b : List Byte) : Nat := leAt b 0x10 8
def bkUnits (b : List Byte) : Nat := leAt b 0x18 4
def bkTail (b : List Byte) : Nat := leAt b 0x1C 4
def bkRankTable (b : List Byte) : Nat := leAt b 0x20 8
def bkCountTable (b : List Byte) : Nat := leAt b 0x28 8
def bkShard (b : List Byte) : Nat := leAt b 0x30 8
def bkHold (b : List Byte) : Nat := leAt b 0x38 8
def bkScale (b : List Byte) : Nat := leAt b 0x40 8
def bkDst (b : List Byte) : Nat := leAt b 0x48 8
def bkReport (b : List Byte) : Nat := leAt b 0x50 8
def bkLimit (b : List Byte) : Nat := leAt b 0x58 4
def bkCloseSem (b : List Byte) : Nat := leAt b 0x5C 2
def bkPresum (b : List Byte) : Nat := leAt b 0x5E 1
def bkCloseValue (b : List Byte) : Nat := leAt b 0x60 4
def bkDoneSem (b : List Byte) : Nat := leAt b 0x64 2
def bkPartMask (b : List Byte) : Nat := leAt b 0x66 2
def bkUnitBytes (b : List Byte) : Nat := leAt b 0x68 4
def bkOwnRank (b : List Byte) : Nat := leAt b 0x6C 4
def bkMap (b : List Byte) : Nat := leAt b 0x70 8

/-- Elements of a full unit: 4,096 scaled, 16 plain (R224). -/
def bkUnit (b : List Byte) : Nat := if bkPlain b then 16 else 4096

/-- Elements of the bucket, R224. -/
def bkElems (b : List Byte) : Nat :=
  (bkUnits b - 1) * bkUnit b + (if bkTail b = 0 then bkUnit b else bkTail b)

def opRS : Nat := 1
def opAG : Nat := 2
def opAR : Nat := 3
def opEM : Nat := 4
def opPM : Nat := 5

/-- Whether a block has an owner role, R240. -/
def bkOwns (b : List Byte) : Bool := (bkOp b == opRS && !bkCopy b) || bkOp b == opAR || bkOp b == opEM

/-- Whether a block gathers, R243 to R245. -/
def bkGathers (b : List Byte) : Bool := bkOp b == opAG || bkOp b == opAR || bkOp b == opEM

/-- The scale array of parity `k`: the second starts at the next multiple of 64 (R225). -/
def bkScaleArr (b : List Byte) (k : Nat) : Nat := bkScale b + (k % 2) * (ceilDiv (bkUnits b) 64 * 64)

/-- Count of rank r by R223, with an explicit count table where one is named. -/
def countOf (b : List Byte) (counts : List Nat) (r : Nat) : Nat :=
  if bkExplicit b then counts.getD r 0
  else bkUnits b / bkP b + (if r < bkUnits b % bkP b then 1 else 0)

/-- First unit of rank r by R223. -/
def firstOf (b : List Byte) (counts : List Nat) (r : Nat) : Nat :=
  if bkExplicit b then natSum (counts.take r)
  else r * (bkUnits b / bkP b) + min r (bkUnits b % bkP b)

/-- Bytes of a hold slot, R234. -/
def slotBytes (b : List Byte) (counts : List Nat) : Nat :=
  ceilDiv (countOf b counts (bkOwnRank b) * bkUnit b * 8) 4096 * 4096

/-- FABRIC_ADDR and BACKUP of a rank table entry, R222 Table 1. -/
def entAddr (e : Nat) : Nat := bits e 15 0
def entBackup (e : Nat) : Option Nat := if bits e 63 32 = 0xFFFFFFFF then none else some (bits e 63 32)

/-- The rank table and the count table of a block. -/
def State.rankTable (s : State) (b : List Byte) : List Nat :=
  tab (bkP b) (fun r => s.devNat (bkRankTable b + 8 * r) 8)
def State.countTable (s : State) (b : List Byte) : List Nat :=
  if bkExplicit b then tab (bkP b) (fun r => s.devNat (bkCountTable b + 4 * r) 4) else []
def State.permMap (s : State) (b : List Byte) : List Nat :=
  if bkOp b = opPM then tab (bkP b * bkUnits b) (fun g => s.devNat (bkMap b + 4 * g) 4) else []

/-- Areas of a block that the module uses, with their lengths. -/
def bkAreas (b : List Byte) (table counts : List Nat) : List (Nat × Nat) :=
  let own := countOf b counts (bkOwnRank b)
  let hold := (bkP b + (table.filter (fun e => (entBackup e).isSome)).length) * slotBytes b counts
  let scales := (bkScale b, ceilDiv (bkUnits b) 64 * 64 + bkUnits b)
  [(bkRankTable b, 8 * bkP b)] ++
  (if bkExplicit b then [(bkCountTable b, 4 * bkP b)] else []) ++
  (if bkOp b = opRS then
      (if bkCopy b then [] else [(bkShard b, own * bkUnit b * 8), (bkHold b, hold)]) ++
      (if bkPlain b then [] else [scales])
   else if bkOp b = opAG then
      [(bkShard b, own * bkUnitBytes b), (bkDst b, bkUnits b * bkUnitBytes b)] ++
      (if bkGatherScale b then [scales] else [])
   else if bkOp b = opAR then
      [(bkShard b, own * bkUnit b * 8), (bkHold b, hold), (bkDst b, bkUnits b * bkUnit b * 8)]
   else if bkOp b = opEM then [(bkShard b, bkUnits b), (bkHold b, hold), scales]
   else [(bkShard b, bkUnits b * bkUnitBytes b), (bkDst b, 2 * bkUnitBytes b), (bkMap b, 4 * bkP b * bkUnits b)])

/-- Whether an area of a block lies in the context's HBM ranges. -/
def State.areaIn (s : State) (n : CtxId) (a len : Nat) : Bool :=
  decide (a + len ≤ 0xBC00000000) && (decide (len = 0) || s.hbmInRanges n a len)

/-- Whether REPORT_ADDR passes check 0x0205. -/
def State.reportOk (s : State) (n : CtxId) (b : List Byte) : Bool :=
  decide (bkReport b % 64 = 0) && s.areaIn n (bkReport b) 64

/-- COLLECTIVEs that have passed their checks and are not complete, with their blocks. -/
def State.openColls (s : State) : List (Desc × List Byte) :=
  (s.descs.filter (fun x => x.ty == 0x0D && decide (x.st ≠ .done) && x.bytes.length == 192)).map
    (fun x => (x, x.bytes.drop 64))

/-- Whether a PERMUTE map is a bijection of its indices. -/
def mapBijective (m : List Nat) : Bool :=
  (List.range m.length).all (fun g => m.contains g)

/-- The checks of R226 Table 4. -/
def State.collCheck (s : State) (n : CtxId) (b : List Byte) : Option W16 :=
  let p := bkP b
  let mine := s.openColls.filter (fun (x, _) => decide (ringCtx x.ring = n))
  let table := s.rankTable b
  let counts := s.countTable b
  firstSome [
    failIf (decide (bkOp b = 0 ∨ 5 < bkOp b) || decide (bits (leAt b 1 1) 7 4 ≠ 0) ||
      decide (bits (bkCloseSem b) 15 11 ≠ 0) || decide (leAt b 0x5F 1 ≠ 0) ||
      decide (bits (bkDoneSem b) 14 11 ≠ 0) || !zeroIn b 0x78 8) 0x0201,
    failIf (decide (p = 0 ∨ 65536 < p ∨ p ≤ bkOwnRank b ∨ p ≤ bkAsRank b) ||
      (bkCopy b == decide (bkAsRank b = bkOwnRank b))) 0x0202,
    failIf (decide (bkUnits b = 0) || decide (bkUnit b < bkTail b) ||
      (bkOp b != opPM && decide (2 ^ 28 < bkElems b))) 0x0203,
    failIf ((bkExplicit b == decide (bkCountTable b = 0)) ||
      (bkExplicit b && s.areaIn n (bkCountTable b) (4 * p) && decide (natSum counts ≠ bkUnits b))) 0x0204,
    failIf ((bkAreas b table counts).any (fun (a, len) => decide (a % 4096 ≠ 0) || !s.areaIn n a len) ||
      !s.reportOk n b) 0x0205,
    failIf (mine.any (fun (_, c) => bkLocal c == bkLocal b) || s.openColls.any (fun (_, c) =>
      bkGroup c == bkGroup b && bkBucket c == bkBucket b && bkAsRank c == bkAsRank b && bkCopy c == bkCopy b)) 0x0206,
    failIf ((bkCopy b && bkOp b != opRS) || (bkGatherScale b && bkOp b != opAG) ||
      (!bkPlain b && bkOp b == opAR) || (bkPlain b && bkOp b == opEM)) 0x0207,
    failIf (table.zipIdx.any (fun (e, r) => decide (bits e 31 16 ≠ 0) || (match entBackup e with
      | some k => decide (p ≤ k) || k == r
      | none => false))) 0x0208,
    failIf (bkOp b == opPM && (decide (2 ^ 31 < p * bkUnits b) || !mapBijective (s.permMap b))) 0x0209,
    failIf (decide (64 ≤ mine.length)) 0x020A]

/-! ### Ranks of an open collective -/

/-- Whether a collective is that of a group, bucket and step. -/
def Coll.isOf (c : Coll) (group bucket step : Nat) : Bool :=
  bkGroup c.block == group && bkBucket c.block == bucket && bkStep c.block == step

def Coll.cnt (c : Coll) (r : Nat) : Nat := countOf c.block c.counts r
def Coll.first (c : Coll) (r : Nat) : Nat := firstOf c.block c.counts r

/-- The owner of a unit, R224. -/
def Coll.ownerOf (c : Coll) (u : Nat) : Nat :=
  ((List.range (bkP c.block)).find? (fun r => decide (c.first r ≤ u) && decide (u < c.first r + c.cnt r))).getD 0

/-- Whether a gather or permute runs a part, PART_MASK (R225). -/
def Coll.runsPart (c : Coll) (k : Nat) : Bool :=
  (bkOp c.block != opAG && bkOp c.block != opPM) || bkPartMask c.block == 0 || bits (bkPartMask c.block) k k == 1

/-- Place of a rank among those with a BACKUP, R234. -/
def Coll.backupIx (c : Coll) (r : Nat) : Nat := ((c.table.take r).filter (fun e => (entBackup e).isSome)).length

/-- Start of the hold slot of a copy, by 2 × rank + copy (R234). -/
def Coll.slotAt (c : Coll) (key : Nat) : Nat :=
  bkHold c.block + (if key % 2 = 1 then bkP c.block + c.backupIx (key / 2) else key / 2) * slotBytes c.block c.counts

/-- Offset of a bucket element in the sum area and in a hold slot. -/
def Coll.offOf (c : Coll) (x : Nat) : Nat := 8 * (x - c.first (bkOwnRank c.block) * bkUnit c.block)

/-- A message of a collective to a rank. -/
def Coll.msg (c : Coll) (s : State) (rank : Nat) (kind : Byte) : Packet :=
  { dst := BitVec.ofNat 16 (entAddr (c.table.getD rank 0)), src := BitVec.ofNat 16 s.ownAddr, kind
    group := BitVec.ofNat 16 (bkGroup c.block), bucket := BitVec.ofNat 16 (bkBucket c.block)
    step := BitVec.ofNat 64 (bkStep c.block), asRank := BitVec.ofNat 32 (bkAsRank c.block) }

/-- Sends a message: to the module itself its effect comes at once, else by the fabric. -/
def State.tell (s : State) (eff : Packet → State → State) (pkt : Packet) : State :=
  if pkt.dst.toNat = s.ownAddr then eff pkt s else s.sendPacket pkt

/-- The controller of a line, R231. -/
def lineCtrl (n : Nat) : Nat := n % 32

/-- Counts a message discarded as late, at the controller of its line (R238, log 41). -/
def State.countLate (s : State) (ctrl : Nat) : State := s.bump .mcRedLate (ctrl / 4) (ctrl % 4) 1

/-- An uncorrectable codeword that a collective meets is a job fault of its context, at the die of its stack
(R290, R291). -/
def State.collFault (s : State) (n : CtxId) (a : Nat) : State := s.raise causeMem (s.stackOf a / 4) [n] a

/-- A write by a collective of a context, which no uncorrectable codeword may be merged with (R291). -/
def State.collWrite (s : State) (n : CtxId) (a : Nat) (bs : List Byte) : State :=
  match s.badPartial a bs.length with
  | some x => s.collFault n x
  | none => (s.collPut a bs).chargeBytes n none a bs.length

/-- Reads bytes for a collective of a context: counted, and none where a codeword is uncorrectable (R290, R315). -/
def State.collRead (s : State) (n : CtxId) (a len : Nat) : State × Option (List Byte) :=
  match s.badIn a len with
  | some x => (s.collFault n x, none)
  | none => (s.jobRead n none a len, some (s.devRead a len))

/-- Bytes of a unit that one packet carries: 16 bytes of the payload of 4,096 (R372) hold its place and state. -/
def pieceBytes : Nat := 4080

/-! ### SHARD, R243 to R245 -/

/-- Bytes of a unit that a gather carries. -/
def Coll.unitBytes (c : Coll) : Nat :=
  if bkOp c.block = opAG ∨ bkOp c.block = opPM then bkUnitBytes c.block else if bkOp c.block = opAR then 128 else 1

/-- Packets that carry a unit. -/
def Coll.pieces (c : Coll) : Nat := max 1 (ceilDiv c.unitBytes pieceBytes)

/-- Piece `k` of a unit's bytes. -/
def piece (k : Nat) (data : List Byte) : List Byte := (data.drop (pieceBytes * k)).take pieceBytes

/-- Owner state of a SHARD (R239): q, SAT of the shard, ranks committed from backups. -/
def Coll.ownState (c : Coll) : Nat × Bool × Nat :=
  (c.nextRank, (c.units.any (fun e => e.2.2)),
    ((List.range c.nextRank).filter (fun r => SMap.getD c.chosen r 0 == 2)).length)

/-- The payload of a SHARD in the model's own layout (log 40): q, backups, SAT, the scale byte, the piece's number,
and the piece of the unit. -/
def shardPayload (st : Nat × Bool × Nat) (scale k : Nat) (data : List Byte) : List Byte :=
  toLe 4 st.1 ++ toLe 4 st.2.2 ++ [if st.2.1 then 1 else 0, BitVec.ofNat 8 scale] ++ toLe 2 0 ++ toLe 4 k ++ piece k data

/-- SHARD at a rank: the piece of the unit lands at its place, with the unit's scale byte, and the owner's state is
kept. -/
def shardNote (pkt : Packet) (s : State) : State :=
  match s.colls.find? (fun c => bkGathers c.block && c.isOf pkt.group.toNat pkt.bucket.toNat pkt.step.toNat) with
  | none => s
  | some c =>
    let u := pkt.index.toNat
    let b := c.block
    let k := leAt pkt.payload 12 4
    let id := u * c.pieces + k
    if bkUnits b ≤ u ∨ c.pieces ≤ k ∨ c.arrived.contains id = true then s
    else
      let data := slice (pkt.payload.drop 16) 0 (min pieceBytes (c.unitBytes - pieceBytes * k))
      let s :=
        if bkOp b = opEM then s.collWrite c.ctx (bkScaleArr b (bkStep b) + u) data
        else s.collWrite c.ctx (bkDst b + u * c.unitBytes + pieceBytes * k) data
      let s := if bkOp b = opAG ∧ bkGatherScale b = true then
          s.collWrite c.ctx (bkScaleArr b (bkStep b + 1) + u) (slice pkt.payload 9 1)
        else s
      let st := (leAt pkt.payload 0 4, decide (leAt pkt.payload 8 1 ≠ 0), leAt pkt.payload 4 4)
      s.modColl c.seq (fun c => { c with
        arrived := c.arrived ++ [id], ownerStates := SMap.put c.ownerStates (c.ownerOf u) st })

/-- The bytes of an own unit that a gather sends: the shard, the sum, or the next scale of the exponent
pass (R245). -/
def unitData (c : Coll) (u : Nat) (s : State) : State × Option (List Byte) :=
  let b := c.block
  if bkOp b = opEM then
    let e := (SMap.getD c.units u (-128, false)).1
    (s, some (toLe 1 (unsgn 8 (if e = -128 then 0 else max (-128) (min 127 (e + 2))))))
  else s.collRead c.ctx (bkShard b + (u - c.first (bkOwnRank b)) * c.unitBytes) c.unitBytes

/-- Reads a byte of a scale array for a collective: none where its codeword is uncorrectable (R290). -/
def Coll.scaleByte (c : Coll) (k u : Nat) (s : State) : State × Option Nat :=
  match s.collRead c.ctx (bkScaleArr c.block k + u) 1 with
  | (s, some l) => (s, some (leNat l))
  | (s, none) => (s, none)

/-- The scale byte that goes with an own unit of a gather, 0 where none does. -/
def unitScale (c : Coll) (u : Nat) (s : State) : State × Option Nat :=
  if bkOp c.block = opAG ∧ bkGatherScale c.block = true then c.scaleByte (bkStep c.block + 1) u s else (s, some 0)

/-- Sends an own unit to a rank, with its scale byte. -/
def serveUnit (c : Coll) (r u : Nat) (s : State) : State :=
  match unitScale c u s with
  | (s, none) => s
  | (s, some sc) =>
    match unitData c u s with
    | (s, none) => s
    | (s, some data) =>
      (List.range c.pieces).foldl (fun s k =>
        s.tell shardNote { c.msg s r 0x04 with
          index := BitVec.ofNat 32 u, payload := shardPayload c.ownState sc k data }) s

/-- Whether a recorded ARM is of a rank for a collective's bucket and STEP. -/
def Arm.of (c : Coll) (r : Nat) (a : Arm) : Bool :=
  a.group == bkGroup c.block && a.bucket == bkBucket c.block && a.step == bkStep c.block && a.rank == r

/-- One arrival of a rank's ARM is used up. -/
def State.useArm (s : State) (c : Coll) (r : Nat) : State :=
  { s with arms := updIf s.arms (Arm.of c r) (fun a => { a with fresh := a.fresh - 1 }) }

/-- Sends the own units to a rank that has armed. -/
def serveRank (seq r : Nat) (s : State) : State :=
  match s.coll seq with
  | none => s
  | some c =>
    let me := bkOwnRank c.block
    let s := (s.modColl seq (fun c => { c with served := c.served ++ [r] })).useArm c r
    if c.runsPart (me % 16) then
      (List.range (c.cnt me)).foldl (fun s k => serveUnit c r (c.first me + k) s) s
    else s

/-! ### ARM, R234 -/

/-- Whether the owner side of a gather is open: from the start, or once the owner role has ended (R244). -/
def Coll.serving (c : Coll) : Bool := bkOp c.block == opAG || (bkGathers c.block && c.ownerDone)

/-- Whether a rank has armed a collective's bucket for its STEP. -/
def State.armedBy (s : State) (c : Coll) (r : Nat) : Bool := s.arms.any (Arm.of c r)

/-- Whether a rank's ARM waits to be served. -/
def State.armWaits (s : State) (c : Coll) (r : Nat) : Bool := s.arms.any (fun a => Arm.of c r a && decide (0 < a.fresh))

/-- Whether a rank has armed a collective: for a gather with an ARM that waits or that it has served, so that one of an
earlier block of the bucket and STEP does not stand for it (R243, log 100). -/
def State.armedFor (s : State) (c : Coll) (r : Nat) : Bool :=
  if bkGathers c.block then s.armWaits c r || c.served.contains r else s.armedBy c r

/-- Whether WAIT_LIMIT µs have passed since a time. -/
def State.collOver (s : State) (c : Coll) (from' : Nat) : Bool :=
  decide (bkLimit c.block ≠ 0) && decide (from' + bkLimit c.block * 1000 ≤ s.now)

/-- An owner that had not armed by the sender's limit is not sent to (R237). -/
def skipLate (a : Arm) (s : State) : State :=
  if s.arms.any (fun x => decide ({ x with fresh := a.fresh } = a)) then s
  else
    let late (c : Coll) : Bool := bkOp c.block != opPM && c.isOf a.group a.bucket a.step && s.collOver c c.start &&
      !c.skipOwners.contains a.rank
    { s with colls := updIf s.colls late (fun c =>
        { c with senderTimedOut := true, skipOwners := c.skipOwners ++ [a.rank] }) }

/-- Serves the ranks whose ARMs wait for a gather, in increasing order. -/
def serveWaiting (seq : Nat) (s : State) : State :=
  match s.coll seq with
  | none => s
  | some c => ((List.range (bkP c.block)).filter (fun r => s.armWaits c r && !c.served.contains r)).foldl
      (fun s r => serveRank seq r s) s

/-- ARM recorded; a gather that serves sends the rank its units. An ALL_REDUCE's or EXPONENT_MAX's one ARM
stands for its owner role and for its gather (log 42). -/
def armNote (pkt : Packet) (s : State) : State :=
  let a : Arm := { group := pkt.group.toNat, bucket := pkt.bucket.toNat, step := pkt.step.toNat, rank := pkt.asRank.toNat }
  let same (x : Arm) : Bool := decide ({ x with fresh := 0 } = a)
  let was := (s.arms.filter same).map (fun x => x.fresh)
  let s := skipLate a s
  let s := { s with arms := s.arms.filter (fun x => !same x) ++ [{ a with fresh := natSum was + 1 }] }
  (s.colls.filter (fun c => c.serving && c.isOf a.group a.bucket a.step && !c.served.contains a.rank)).foldl
    (fun s c => serveRank c.seq a.rank s) s

/-! ### The owner role, R235 to R239 -/

/-- Next E of a unit, R239. -/
def nextScale (e : Int) (m : Int × Bool) : Int :=
  if m.2 then min 127 (e + 8) else if m.1 = -128 then e else max (-128) (min 127 (m.1 + 2))

/-- Marks merged: e_max by maximum, SAT by OR. -/
def mergeMark (a b : Int × Bool) : Int × Bool := (max a.1 b.1, a.2 || b.2)

/-- Writes the next step's scales of the own units, of a scaled bucket. -/
def writeScales (c : Coll) (s : State) : State :=
  let b := c.block
  if bkOp b = opRS ∧ bkPlain b = false then
    (List.range (c.cnt (bkOwnRank b))).foldl (fun s k =>
      let u := c.first (bkOwnRank b) + k
      match c.scaleByte (bkStep b) u s with
      | (s, none) => s
      | (s, some e) =>
        s.collWrite c.ctx (bkScaleArr b (bkStep b + 1) + u)
          (toLe 1 (unsgn 8 (nextScale (sgn 8 e) (SMap.getD c.units u (-128, false)))))) s
  else s

/-- Whether a copy is complete: its END has arrived and as many CONTRIBs as it counts (R235). -/
def Coll.copyDone (c : Coll) (key : Nat) : Bool :=
  match SMap.getD c.ends key 0 with
  | 0 => false
  | k + 1 => decide (k ≤ SMap.getD c.got key 0)

/-- Counts the messages of a copy that each controller took, as late or as duplicates. -/
def Coll.countCopy (c : Coll) (r : RegId) (key : Nat) (s : State) : State :=
  (List.range 32).foldl (fun s k => s.bump r (k / 4) (k % 4) (SMap.getD c.gotAt (32 * key + k) 0)) s

/-- The second copies still under way when the owner role ends, which will complete late (R236). -/
def Coll.lateCopies (c : Coll) : List Nat :=
  (List.range (2 * bkP c.block)).filter (fun key => decide (SMap.getD c.chosen (key / 2) 0 ≠ 0) &&
    decide (SMap.getD c.chosen (key / 2) 0 ≠ key % 2 + 1) && !c.copyDone key)

/-- The owner role ends, complete or by timeout: next scales, and a gather begins to serve (R239, R244). -/
def ownerEnd (seq : Nat) (timedOut : Bool) (s : State) : State :=
  match s.coll seq with
  | none => s
  | some c =>
    let s := c.lateCopies.foldl (fun s key => c.countCopy .mcRedLate key s) (writeScales c s)
    let s := s.modColl seq (fun c => { c with ownerDone := true, ownerTimedOut := timedOut, gatherFrom := s.now })
    if bkGathers c.block then serveWaiting seq s else s

/-- Adds `n` RI64 values of a source range into a destination range, counted at the controllers (R249, R315, log 103);
an uncorrectable codeword in either is a job fault of the context (R290, R291). -/
def addInto (x : CtxId) (src dst n : Nat) (ce : List Nat) (s : State) : State :=
  let s := ((s.countBytes false src (8 * n)).chargeRuns x none [(src, 8 * n), (dst, 8 * n)]).countCes
    [(src, 8 * n), (dst, 8 * n)] ce
  match (s.badIn src (8 * n)).orElse (fun _ => s.badIn dst (8 * n)) with
  | some a => s.collFault x a
  | none =>
    ((List.range n).foldl (fun s k =>
      let v := s.devNat (dst + 8 * k) 8 + s.devNat (src + 8 * k) 8
      let c := s.stackOf (dst + 8 * k)
      (s.devWrite (dst + 8 * k) (toLe 8 v)).bump .mcRedAdds (c / 4) (c % 4) 1) s).countBytes true dst (8 * n)

/-- Commits the chosen copy of the next rank: its slot into the sum, its marks into the units'. -/
def commitOne (c : Coll) (copy : Nat) (ce : List Nat) (s : State) : State :=
  let b := c.block
  let r := c.nextRank
  let key := 2 * r + copy
  let own := c.cnt (bkOwnRank b)
  let s := if bkOp b = opEM then s else addInto c.ctx (c.slotAt key) (bkShard b) (own * bkUnit b) ce s
  let s := s.modColl c.seq (fun c => { c with
    nextRank := r + 1
    units := (List.range own).foldl (fun m k =>
      let u := c.first (bkOwnRank b) + k
      SMap.set m u (-128, false) (mergeMark (SMap.getD m u (-128, false))
        (SMap.getD c.marks (key * bkUnits b + u) (-128, false)))) c.units })
  s.traceRec 8 0x30 0x0C c.ctx.val (traceData [bkBucket b, r, copy])

/-- Commits in rank order while the next rank has a chosen copy; after the last the owner role completes. -/
def commitRun (seq : Nat) (ce : List Nat) : Nat → State → State
  | 0, s => s
  | k + 1, s =>
    match s.coll seq with
    | none => s
    | some c =>
      if c.nextRank = bkP c.block then ownerEnd seq false s
      else match SMap.getD c.chosen c.nextRank 0 with
        | 0 => s
        | x + 1 => commitRun seq ce k (commitOne c x ce s)

/-- A copy completes, R236: the first is chosen, the second discarded as a duplicate. -/
def copyComplete (c : Coll) (key : Nat) (ce : List Nat) (s : State) : State :=
  let r := key / 2
  if SMap.getD c.chosen r 0 ≠ 0 then
    c.countCopy .mcRedDup key (s.modColl c.seq (fun c => { c with dups := c.dups + 1 }))
  else
    commitRun c.seq ce (bkP c.block + 1) (s.modColl c.seq (fun c => { c with chosen := SMap.put c.chosen r (key % 2 + 1) }))

/-- The open owner role that a message of (group, bucket, step) is for. -/
def State.ownerRole (s : State) (pkt : Packet) : Option Coll :=
  s.colls.find? (fun c => bkOwns c.block && !c.ownerDone &&
    c.isOf pkt.group.toNat pkt.bucket.toNat pkt.step.toNat)

/-- The copy of a message: 2 × rank + copy, when the rank exists and, for a backup, has one. -/
def Coll.copyKey (c : Coll) (pkt : Packet) : Option Nat :=
  let r := pkt.asRank.toNat
  if bkP c.block ≤ r then none
  else if pkt.copy then (if (entBackup (c.table.getD r 0)).isSome then some (2 * r + 1) else none)
  else some (2 * r)

/-- Adds 16 values into a line of a hold slot, counted at its controller (R249, R315); an uncorrectable codeword is a
job fault of the context (R290, R291). -/
def addValues (x : CtxId) (a : Nat) (vals : List Nat) (ce : List Nat) (s : State) : State :=
  let k := s.stackOf a
  let s := (s.chargeBytes x none a 128).readCe a 128 ce
  match s.badIn a 128 with
  | some z => s.collFault x z
  | none =>
    ((vals.zipIdx.foldl (fun s (v, k) =>
      s.devWrite (a + 8 * k) (toLe 8 (s.devNat (a + 8 * k) 8 + v))) s).countBytes true a 128).bump .mcRedAdds (k / 4)
        (k % 4) 16

/-- Adds the 16 values of a CONTRIB into the hold slot of its copy, or takes maxima in the exponent pass. -/
def addContrib (c : Coll) (key : Nat) (pkt : Packet) (ce : List Nat) (s : State) : State :=
  let b := c.block
  let me := bkOwnRank b
  let n := pkt.index.toNat
  let lo := c.first me * bkUnit b
  let vals := tab 16 (fun k => leAt pkt.payload (8 * k) 8)
  if bkOp b = opEM then
    s.modColl c.seq (fun c => { c with marks := vals.zipIdx.foldl (fun m (v, k) =>
      let u := 16 * n + k
      let at' := key * bkUnits b + u
      if u < bkUnits b then SMap.set m at' (-128, false)
        (mergeMark (SMap.getD m at' (-128, false)) (max (-128) (min 127 (sgn 64 v)), false)) else m) c.marks })
  else
    let u := 16 * n / bkUnit b
    let s := if lo ≤ 16 * n ∧ 16 * n < lo + c.cnt me * bkUnit b then
        addValues c.ctx (c.slotAt key + c.offOf (16 * n)) vals ce s
      else s
    let z := key * bkUnits b + u
    let new (m : SMap (Int × Bool)) : Int × Bool :=
      mergeMark (SMap.getD m z (-128, false)) (sgn 8 pkt.eMax.toNat, pkt.sat)
    s.modColl c.seq (fun c => { c with marks := SMap.set c.marks z (-128, false) (new c.marks) })

/-- A CONTRIB or END noted for its copy, which may complete it. -/
def noteCopy (seq key ctrl : Nat) (ce : List Nat) (f : Coll → Coll) (s : State) : State :=
  let was := ((s.coll seq).map (fun c => c.copyDone key)).getD true
  let id := 32 * key + ctrl
  let s := s.modColl seq (fun c => { f c with gotAt := SMap.put c.gotAt id (SMap.getD c.gotAt id 0 + 1) })
  match s.coll seq with
  | none => s
  | some c => if !was && c.copyDone key then copyComplete c key ce s else s

/-- CONTRIB at the owner (R235), or discarded as late (R238). -/
def contribNote (ce : List Nat) (pkt : Packet) (s : State) : State :=
  let k := lineCtrl pkt.index.toNat
  match s.ownerRole pkt with
  | none => s.countLate k
  | some c =>
    match c.copyKey pkt with
    | none => s.countLate k
    | some key =>
      noteCopy c.seq key k ce (fun c => { c with got := SMap.put c.got key (SMap.getD c.got key 0 + 1) })
        (addContrib c key pkt ce s)

/-- END at the owner, or discarded as late; its INDEX is the first line of the owner's range (log 41). -/
def endNote (ce : List Nat) (pkt : Packet) (s : State) : State :=
  let k := lineCtrl pkt.index.toNat
  match s.ownerRole pkt with
  | none => s.countLate k
  | some c =>
    match c.copyKey pkt with
    | none => s.countLate k
    | some key =>
      noteCopy c.seq key k ce (fun c => { c with ends := SMap.put c.ends key (leAt pkt.payload 0 8 + 1) }) s

/-! ### The sender role, R228 to R235 -/

/-- Sends a combining entry to its owner as one CONTRIB and frees it (R232). -/
def flushEntry (z : Comb) (s : State) : State :=
  let s := { s with combs := s.combs.erase z }
  match s.coll z.coll with
  | none => s
  | some c =>
    let s := s.modColl c.seq (fun c => { c with sent := SMap.put c.sent z.owner (SMap.getD c.sent z.owner 0 + 1) })
    let bytes := (z.vals.map (fun v => toLe 8 (unsgn 64 v))).flatten
    let eb := BitVec.ofInt 8 z.eMax
    let ix := BitVec.ofNat 32 z.line
    s.tell (contribNote [])
      { c.msg s z.owner 0x02 with copy := bkCopy c.block, sat := z.sat, eMax := eb, index := ix, payload := bytes }

/-- e_max of a scaled value, R233. -/
def valueExp (v e : Int) : Int :=
  if v = 0 then -128 else max (-127) (min 127 ((Nat.log2 v.natAbs : Int) + e - 31))

/-- Entries of a combining buffer, R231. -/
def combCap : Nat := 8192

/-- One RACC line reaches its combining controller (R231 to R233): cells are (place in the line, value), `e` the scale of
their unit. -/
def combine (c : Coll) (owner line : Nat) (e : Int) (cells : List (Nat × Int)) (s : State) : State :=
  let k := lineCtrl line
  let isIt (z : Comb) : Bool := z.coll == c.seq && z.line == line
  let s := if s.combs.any isIt then s
    else
      let full := (s.combs.filter (fun z => z.ctrl == k))
      let s := match full with
        | z :: _ => if combCap ≤ full.length then flushEntry z (s.bump .mcRedEvict (k / 4) (k % 4) 1) else s
        | [] => s
      { s with combs := s.combs ++ [{ ctrl := k, coll := c.seq, line, owner, vals := List.replicate 16 0,
                                      count := 0, eMax := -128, sat := false }] }
  let scaled := !bkPlain c.block
  let s := { s with combs := updIf s.combs isIt (fun z => { z with
    vals := cells.foldl (fun l (x : Nat × Int) => l.set x.1 (l.getD x.1 0 + x.2)) z.vals
    count := z.count + 1
    eMax := if scaled then cells.foldl (fun m (x : Nat × Int) => max m (valueExp x.2 e)) z.eMax else z.eMax
    sat := z.sat || (scaled && cells.any (fun (x : Nat × Int) => decide (x.2.natAbs = 2 ^ 31 - 1))) }) }
  let s := s.bump .mcRedAdds (k / 4) (k % 4) cells.length
  match s.combs.find? isIt with
  | some z => if z.count = bkPresum c.block then flushEntry z (s.bump .mcRedFlushCount (k / 4) (k % 4) 1) else s
  | none => s

/-- A RACC line at its controller, which reads the scale of a scaled unit (R233, R290). -/
def addLine (c : Coll) (owner line : Nat) (cells : List (Nat × Int)) (s : State) : State :=
  if bkPlain c.block then combine c owner line 0 cells s
  else match c.scaleByte (bkStep c.block) (16 * line / 4096) s with
    | (s, some e) => combine c owner line (sgn 8 e) cells s
    | (s, none) => s

/-- BUCKET and OWNER of a RACC. -/
def raccBucket (r : Nat) : Nat := rB r 20 2
def raccOwner (r : Nat) : Nat := rB r 22 2

/-- The open collective of a RACC, by LOCAL in its context. -/
def State.raccColl (s : State) (e : Env) : Option Coll :=
  s.colls.find? (fun c => decide (c.ctx = e.x.ctx) && bkLocal c.block == raccBucket e.r)

/-- Bucket index of element (i, j) of a RACC, R228. -/
def State.raccIndex (s : State) (e : Env) (i j : Nat) : Nat :=
  let o := s.opd e (rB e.r 10 2)
  let size := fmtHalfBytes o.fmt / 2
  (o.addr % 2 ^ 48 + i * o.pitch + size * j) / max 1 size

/-- Whether a RACC names an owner or an element that the sending module refuses, R230. -/
def State.raccBad (s : State) (e : Env) (c : Coll) : Bool :=
  let o := raccOwner e.r
  decide (bkP c.block ≤ o) ||
    (List.range (e.v 0)).any (fun i => (List.range (e.v 1)).any (fun j =>
      let x := s.raccIndex e i j
      decide (bkElems c.block ≤ x) || decide (x / bkUnit c.block < c.first o) ||
        decide (c.first o + c.cnt o ≤ x / bkUnit c.block)))

/-- Whether a RACC may issue beyond R62: its collective open, and its owner armed or timed out (R228, R237). -/
def State.raccReady (s : State) (e : Env) : Bool :=
  match s.raccColl e with
  | none => false
  | some c => s.raccBad e c || s.armedFor c (raccOwner e.r) || c.skipOwners.contains (raccOwner e.r)

/-- The lines of one tile row of a RACC. -/
def State.raccLines (s : State) (e : Env) (l : Loc) (i : Nat) : List (Nat × List (Nat × Int)) :=
  let cells := tab (e.v 1) (fun j => (s.raccIndex e i j, intOf l.fmt (s.elem l i j)))
  (dedupKeep (cells.map (fun x => x.1 / 16))).map (fun n =>
    (n, (cells.filter (fun x => x.1 / 16 == n)).map (fun x => (x.1 % 16, x.2))))

/-- The effect of a RACC: its lines go to the combining controllers, or, for an owner that never armed, are
counted as not sent (R228, R237); an owner or element out of range is a job fault (R230). -/
def raccEffect (e : Env) (s : State) : State :=
  if isEmptyRec e.r e.y.dims then s
  else match s.raccColl e with
    | none => s
    | some c =>
      let l := s.loc e (rB e.r 8 2) (e.t 1)
      if s.raccBad e c then s.raise causeAddr e.d.val [e.x.ctx] (s.opd e (rB e.r 10 2)).addr
      else
        let lines := (List.range (e.v 0)).flatMap (fun i => s.raccLines e l i)
        if !c.skipOwners.contains (raccOwner e.r) then
          (lines.foldl (fun s (x : Nat × List (Nat × Int)) => addLine c (raccOwner e.r) x.1 x.2 s) s).countMove e.d
            (l.moveBytes (e.v 0) (e.v 1))
        else s.modColl c.seq (fun c => { c with unsent := c.unsent + lines.length })

/-- RACC. -/
def execRacc (d : Die) (c : LCore) (ev : RecEv) (s : State) : Host.Outcome State Fault Refusal :=
  .next (match s.candidate d c (unitOf opRACC) with
    | none => s
    | some e => if s.raccReady e then runRecord opRACC anyRec raccEffect d c ev s else s)

/-- Sends the own exponent bytes of the units of an owner, a line of 16 units at a time (R245). -/
def sendExps (c : Coll) (o : Nat) (s : State) : State :=
  let lo := c.first o
  let hi := lo + c.cnt o
  if hi = lo then s
  else (List.range (ceilDiv hi 16 - lo / 16)).foldl (fun s k =>
    let n := lo / 16 + k
    let a := max lo (16 * n)
    match s.collRead c.ctx (bkShard c.block + a) (min hi (16 * n + 16) - a) with
    | (s, none) => s
    | (s, some l) =>
      let vals := tab 16 (fun j =>
        let u := 16 * n + j
        if lo ≤ u ∧ u < hi then sgn 8 (leAt l (u - a) 1) else -128)
      flushEntry { ctrl := lineCtrl n, coll := c.seq, line := n, owner := o, vals, count := 1, eMax := -128, sat := false } s)
    s

/-- SEND_CLOSE: entries are flushed in the order of allocation, and END goes to every owner that armed
(R235). -/
def sendClose (seq : Nat) (s : State) : State :=
  match s.coll seq with
  | none => s
  | some c =>
    let owners := (List.range (bkP c.block)).filter (fun r => s.armedFor c r && !c.skipOwners.contains r)
    let s := if bkOp c.block = opEM then owners.foldl (fun s o => sendExps c o s) s
      else (s.combs.filter (fun z => z.coll == seq)).foldl (fun s z => flushEntry z s) s
    let s := owners.foldl (fun s o =>
      let n := ((s.coll seq).map (fun c => SMap.getD c.sent o 0)).getD 0
      let line := BitVec.ofNat 32 (c.first o * bkUnit c.block / 16)
      s.tell (endNote []) { c.msg s o 0x03 with copy := bkCopy c.block, index := line, payload := toLe 16 n }) s
    s.modColl seq (fun c => { c with senderDone := true })

/-- Whether a collective has sending that closes: the exponent pass waits for its owners, since it sends only
then (log 42). -/
def State.mayClose (s : State) (c : Coll) : Bool :=
  let b := c.block
  let sem := bkCloseSem b
  (bkOp b == opRS || bkOp b == opAR || bkOp b == opEM) && !c.senderDone &&
    decide (bkCloseValue b ≤ s.sem c.ctx (bits sem 10 8) (bits sem 7 0)) &&
    (bkOp b != opEM || (List.range (bkP b)).all (fun r => s.armedFor c r || c.skipOwners.contains r))

/-- SEND_CLOSE. -/
def execSendClose (seq : Nat) (s : State) : Host.Outcome State Fault Refusal :=
  .next (match s.coll seq with
    | some c => if s.hubUp && s.recovery.isNone && s.mayClose c then sendClose seq s else s
    | none => s)

/-! ### Limits, R237, R243 -/

/-- OWNER_TIMEOUT. -/
def execOwnerTimeout (seq : Nat) (s : State) : Host.Outcome State Fault Refusal :=
  .next (match s.coll seq with
    | some c => if bkOwns c.block && !c.ownerDone && s.collOver c c.start && s.hubUp && s.recovery.isNone then
        ownerEnd seq true s
      else s
    | none => s)

/-- Ranks that have not armed nor timed out: owners for a sender, receivers for a gather. -/
def State.unarmed (s : State) (c : Coll) : List Nat :=
  (List.range (bkP c.block)).filter (fun r => !s.armedFor c r && !c.skipOwners.contains r)

/-- SENDER_TIMEOUT. -/
def execSenderTimeout (seq : Nat) (s : State) : Host.Outcome State Fault Refusal :=
  .next (match s.coll seq with
    | some c =>
      if bkOp c.block != opPM && s.collOver c c.start && !(s.unarmed c).isEmpty && s.hubUp && s.recovery.isNone then
        s.modColl seq (fun c => { c with senderTimedOut := true, skipOwners := c.skipOwners ++ s.unarmed c })
      else s
    | none => s)

/-- Whether every unit of the owners of a part has arrived. -/
def Coll.partArrived (c : Coll) (k : Nat) : Bool :=
  ((List.range (bkP c.block)).filter (fun r => r % 16 == k)).all (fun r =>
    (List.range (c.cnt r * c.pieces)).all (fun i => c.arrived.contains (c.first r * c.pieces + i)))

/-- Whether a gather has ended: each part that runs has arrived or failed. -/
def Coll.gatherDone (c : Coll) : Bool :=
  (List.range 16).all (fun k => !c.runsPart k || c.failedParts.getLsbD k || c.partArrived k)

/-- GATHER_PART_TIMEOUT. -/
def execGatherPartTimeout (seq : Nat) (part : Fin 16) (s : State) : Host.Outcome State Fault Refusal :=
  .next (match s.coll seq with
    | some c =>
      if c.serving && c.runsPart part.val && !c.partArrived part.val && s.collOver c c.gatherFrom && s.hubUp &&
          s.recovery.isNone then
        s.modColl seq (fun c => { c with failedParts := c.failedParts ||| BitVec.ofNat 16 (2 ^ part.val) })
      else s
    | none => s)

/-! ### PERMUTE, R246, R247 -/

/-- The rank that holds a global unit, and the unit's address on the own rank. -/
def Coll.rankOf (c : Coll) (g : Nat) : Nat := g / max 1 (bkUnits c.block)
def Coll.unitAt (c : Coll) (g : Nat) : Nat := bkShard c.block + g % max 1 (bkUnits c.block) * bkUnitBytes c.block
def Coll.mine (c : Coll) (g : Nat) : Bool := c.rankOf g == bkOwnRank c.block

/-- The smallest index on the cycle of an index. -/
def cycleMin (m : List Nat) (g : Nat) : Nat → Nat → Nat → Nat
  | 0, _, best => best
  | k + 1, x, best =>
    let y := m.getD x x
    if y = g then best else cycleMin m g k y (min best y)

/-- Heads of the cycles longer than 1 in increasing order. -/
def cycleHeads (m : List Nat) : List Nat :=
  (List.range m.length).filter (fun g => m.getD g g != g && cycleMin m g m.length g g == g)

/-- Whether a cycle touches a unit of the own rank. -/
def Coll.touches (c : Coll) (h : Nat) : Nat → Nat → Bool
  | 0, _ => false
  | k + 1, x => c.mine x || (let y := c.map.getD x x; if y = h then false else Coll.touches c h k y)

/-- The head of an index's cycle, and the own indices on it. -/
def Coll.headOf (c : Coll) (x : Nat) : Nat := cycleMin c.map x c.map.length x x
def Coll.ownOn (c : Coll) (h : Nat) : List Nat :=
  (List.range c.map.length).filter (fun x => c.mine x && c.headOf x == h)

/-- Kinds of HOP in the model's own payload (log 43): a unit's data for index INDEX, the leader's request to the rank of
the unit that INDEX receives, the receiver's report to the leader that INDEX holds its unit, and the head's data that an
abandoned cycle leaves at INDEX. -/
def hopData : Nat := 0
def hopAsk : Nat := 1
def hopDone : Nat := 2
def hopHead : Nat := 3

/-- A HOP to a rank. -/
def Coll.hop (c : Coll) (s : State) (rank kind x k : Nat) (data : List Byte) : Packet :=
  { c.msg s rank 0x05 with
    index := BitVec.ofNat 32 x, payload := toLe 4 kind ++ toLe 8 0 ++ toLe 4 k ++ piece k data }

/-- Sends a HOP; to the own rank its effect comes at once. -/
def Coll.tellRank (c : Coll) (act : Packet → State → State) (rank : Nat) (pkt : Packet) (s : State) : State :=
  if rank = bkOwnRank c.block then act pkt s else s.tell act pkt

/-- Sends a unit's data to the rank of index `x`, a piece a packet. -/
def sendUnit (act : Packet → State → State) (c : Coll) (kind x : Nat) (data : List Byte) (s : State) : State :=
  (List.range c.pieces).foldl (fun s k => c.tellRank act (c.rankOf x) (c.hop s (c.rankOf x) kind x k data) s) s

/-- Changes the permute cycle of a head. -/
def State.modCycle (s : State) (seq h : Nat) (f : PermCycle → PermCycle) : State :=
  s.modColl seq (fun c => { c with cycles := updIf c.cycles (fun z => z.head == h) f })

/-- Address of a staging half. -/
def Coll.stageAt (c : Coll) (half : Nat) : Nat := bkDst c.block + (half % 2) * bkUnitBytes c.block

/-- Sends the bytes of an area of a unit to index `x`. -/
def sendFrom (act : Packet → State → State) (c : Coll) (kind x a : Nat) (s : State) : State :=
  match s.collRead c.ctx a (bkUnitBytes c.block) with
  | (s, some data) => sendUnit act c kind x data s
  | (s, none) => s

/-- The leader's next move of a cycle: the unit that index `x` receives moves to it, or, where that is the head's, the
staged unit is written (R246). -/
def nextMove (act : Packet → State → State) (c : Coll) (z : PermCycle) (s : State) : State :=
  let src := c.map.getD z.x z.x
  if src = z.head then sendFrom act c hopData z.x (c.stageAt z.half) s
  else c.tellRank act (c.rankOf src) (c.hop s (c.rankOf src) hopAsk z.x 0 []) s

/-- Starts a cycle: a leader stages the head's unit and makes the first move. -/
def startCycle (act : Packet → State → State) (c : Coll) (h half : Nat) (s : State) : State :=
  let z : PermCycle := { head := h, x := h, half, since := s.now }
  let s := s.modColl c.seq (fun c => { c with cycles := c.cycles ++ [z] })
  if half < 2 then
    match s.collRead c.ctx (c.unitAt h) (bkUnitBytes c.block) with
    | (s, some data) => nextMove act c z (s.collWrite c.ctx (c.stageAt half) data)
    | (s, none) => s
  else s

/-- A free staging half of a leader. -/
def Coll.freeHalf (c : Coll) : Option Nat :=
  ([0, 1]).find? (fun k => !c.cycles.any (fun z => z.half == k && !z.done))

/-- Leads further cycles while a half is free and heads are left. -/
def leadMore (act : Packet → State → State) (seq : Nat) : Nat → State → State
  | 0, s => s
  | k + 1, s =>
    match s.coll seq with
    | none => s
    | some c =>
      match c.heads, c.freeHalf with
      | h :: rest, some half =>
        leadMore act seq k (startCycle act c h half (s.modColl seq (fun c => { c with heads := rest })))
      | _, _ => s

/-- Index `x` of a cycle that this rank leads holds its unit: the next move, or the cycle is complete. -/
def hopAdvance (act : Packet → State → State) (c : Coll) (x : Nat) (s : State) : State :=
  match c.cycles.find? (fun z => z.head == c.headOf x && decide (z.half < 2) && !z.done && z.x == x) with
  | none => s
  | some z =>
    let src := c.map.getD x x
    if src = z.head then
      let s := (s.modCycle c.seq z.head (fun y => { y with done := true })).modColl c.seq
        (fun c => { c with ledDone := c.ledDone + 1 })
      leadMore act c.seq (c.heads.length + 1) s
    else
      let z := { z with x := src, since := s.now }
      nextMove act c z (s.modCycle c.seq z.head (fun _ => z))

/-- An own index holds its unit: a rank that does not lead its cycle is done with it once all of its indices on it do,
and the leader hears of it. -/
def hopLanded (act : Packet → State → State) (c : Coll) (x : Nat) (s : State) : State :=
  let h := c.headOf x
  let landed := dedupKeep (c.landed ++ [x])
  let s := s.modColl c.seq (fun c => { c with landed })
  let s := if (c.ownOn h).all (fun y => landed.contains y) then
      s.modCycle c.seq h (fun y => if y.half = 2 then { y with done := true } else y)
    else s
  let lead := c.rankOf h
  c.tellRank act lead (c.hop s lead hopDone x 0 []) s

/-- The parts of a permute that have failed, with one more. -/
def Coll.failPart (c : Coll) (h : Nat) : BitVec 16 := c.failedParts ||| BitVec.ofNat 16 (2 ^ (c.rankOf h % 16))

/-- A piece of a unit for an own index: it is written, and the last of them ends the move. Data of the cycle's own move
that comes after the head's unit of an abandoned cycle is dropped. -/
def hopPiece (act : Packet → State → State) (c : Coll) (x : Nat) (last : Bool) (pkt : Packet) (s : State) : State :=
  let k := leAt pkt.payload 12 4
  let key := 2 * x + (if last then 1 else 0)
  let had := SMap.getD c.hopGot key []
  if c.pieces ≤ k ∨ had.contains k = true ∨ (last = false ∧ SMap.getD c.hopGot (2 * x + 1) [] ≠ []) then s
  else
    let data := slice (pkt.payload.drop 16) 0 (min pieceBytes (c.unitBytes - pieceBytes * k))
    let s := s.collWrite c.ctx (c.unitAt x + pieceBytes * k) data
    let s := s.modColl c.seq (fun c => { c with hopGot := SMap.put c.hopGot key (had ++ [k]) })
    if had.length + 1 < c.pieces then s
    else if last then
      (s.modCycle c.seq (c.headOf x) (fun y => { y with done := true, failed := true })).modColl c.seq
        (fun c => { c with failedParts := c.failPart (c.headOf x) })
    else hopLanded act c x s

/-- The rank that a HOP is for, by its kind. -/
def Coll.hopRank (c : Coll) (kind x : Nat) : Nat :=
  if kind = hopAsk then c.rankOf (c.map.getD x x) else if kind = hopDone then c.rankOf (c.headOf x) else c.rankOf x

/-- The open PERMUTE that a HOP is for. -/
def State.hopColl (s : State) (pkt : Packet) : Option Coll :=
  s.colls.find? (fun c => bkOp c.block == opPM && bkGroup c.block == pkt.group.toNat &&
    bkBucket c.block == pkt.bucket.toNat && decide (pkt.index.toNat < c.map.length) &&
    c.hopRank (leAt pkt.payload 0 4) pkt.index.toNat == bkOwnRank c.block)

/-- The effect of a HOP on an open PERMUTE. -/
def hopAct (act : Packet → State → State) (c : Coll) (pkt : Packet) (s : State) : State :=
  let x := pkt.index.toNat
  let kind := leAt pkt.payload 0 4
  let s := s.modCycle c.seq (c.headOf x) (fun y => if y.half = 2 then { y with since := s.now } else y)
  if kind = hopAsk then sendFrom act c hopData x (c.unitAt (c.map.getD x x)) s
  else if kind = hopDone then hopAdvance act c x s
  else hopPiece act c x (kind == hopHead) pkt s

/-- HOP at a rank; one that comes before its PERMUTE has started here is kept for it. The bound counts the messages that
a rank sends to itself on the way. -/
def hopNote : Nat → Packet → State → State
  | 0, _, s => s
  | k + 1, pkt, s =>
    match s.hopColl pkt with
    | none => { s with hops := s.hops ++ [pkt] }
    | some c => hopAct (hopNote k) c pkt s

/-- A HOP with a bound that no chain of messages of a rank to itself reaches. -/
def hopIn (pkt : Packet) (s : State) : State :=
  hopNote (4 * natMax (s.colls.map (fun c => c.map.length)) + 8) pkt s

/-- PERMUTE starts: the cycles led by other ranks that touch own units are taken part in, the own are led, at most two
at once in increasing order of head, and the HOPs that came before act. -/
def startPermute (seq : Nat) (s : State) : State :=
  match s.coll seq with
  | none => s
  | some c =>
    let heads := (cycleHeads c.map).filter (fun h => c.runsPart (c.rankOf h % 16))
    let s := (heads.filter (fun h => !c.mine h && c.touches h c.map.length h)).foldl
      (fun s h => startCycle hopIn c h 2 s) s
    let own := heads.filter (fun h => c.mine h)
    let s := leadMore hopIn seq (own.length + 1) (s.modColl seq (fun c => { c with heads := own }))
    let of' (p : Packet) : Bool := bkGroup c.block == p.group.toNat && bkBucket c.block == p.bucket.toNat
    (s.hops.filter of').foldl (fun s p => hopIn p s) { s with hops := s.hops.filter (fun p => !of' p) }

/-- A cycle is given up: its leader writes the staged unit into the last freed index (R247); its part fails. -/
def abandonCycle (seq : Nat) (z : PermCycle) (s : State) : State :=
  match s.coll seq with
  | none => s
  | some c =>
    let led := decide (z.half < 2)
    let s := s.modCycle seq z.head (fun y => { y with done := true, failed := true })
    let s := s.modColl seq (fun c => { c with
      failedParts := c.failPart z.head
      abandoned := c.abandoned + (if led then 1 else 0)
      abandon := if led && c.abandon.isNone then some (z.head, z.x) else c.abandon })
    if led then sendFrom hopIn c hopHead z.x (c.stageAt z.half) s else s

/-- PERMUTE_CYCLE_ABANDON: a move of a cycle is not done within WAIT_LIMIT. A leader abandons it and its other
running cycle and leads no more; a rank that takes part stops waiting for it. -/
def permuteAbandon (c : Coll) (s : State) : State :=
  let late := c.cycles.filter (fun z => !z.done && s.collOver c z.since)
  let led := late.any (fun z => decide (z.half < 2))
  let out := if led then late ++ c.cycles.filter (fun z => !z.done && decide (z.half < 2) && !late.contains z) else late
  let s := if led then s.modColl c.seq (fun c => { c with heads := [] }) else s
  out.foldl (fun s z => abandonCycle c.seq z s) s

/-- PERMUTE_CYCLE_ABANDON. -/
def execPermuteCycleAbandon (seq : Nat) (s : State) : Host.Outcome State Fault Refusal :=
  .next (match s.coll seq with
    | some c => if bkOp c.block == opPM && s.hubUp && s.recovery.isNone then permuteAbandon c s else s
    | none => s)

/-! ### Completion, R240 to R245 -/

/-- Whether both roles of a collective have completed. -/
def Coll.ended (c : Coll) : Bool :=
  let b := c.block
  let sender := c.senderDone || c.senderTimedOut
  if bkOp b = opRS then sender && (bkCopy b || c.ownerDone)
  else if bkOp b = opPM then c.heads.isEmpty && c.cycles.all (fun z => z.done)
  else
    (bkOp b == opAG || (sender && c.ownerDone)) && c.gatherDone &&
      (!c.runsPart (bkOwnRank b % 16) ||
        (List.range (bkP b)).all (fun r => c.served.contains r || c.skipOwners.contains r))

/-- The owner states that a status rests on: the own, or those of every owner of a gather (R244). -/
def Coll.states (c : Coll) : List (Nat × Bool × Nat) :=
  if bkOp c.block = opRS then (if bkCopy c.block then [] else [c.ownState])
  else if bkOp c.block = opAR ∨ bkOp c.block = opEM then c.ownerStates.map (fun e => e.2)
  else []

/-- Status and DETAIL, R240, R243, R244, R247, in the order of R339. -/
def Coll.status (c : Coll) : Byte × W16 :=
  let st := c.states
  let backups := natMax (st.map (fun x => x.2.2))
  let own := if bkOp c.block = opRS then c.ownerTimedOut else st.any (fun x => decide (x.1 < bkP c.block))
  let snd := c.senderTimedOut && (bkOp c.block == opRS || bkOp c.block == opAG)
  if own || snd then (stTimeout, BitVec.ofNat 16 ((if own then 1 else 0) + (if snd then 2 else 0)))
  else if c.failedParts ≠ 0 then (stPartial, c.failedParts)
  else if st.any (fun x => x.2.1) then (stSaturated, 1)
  else if backups ≠ 0 then (stBackup, BitVec.ofNat 16 (min backups 0xFFFF))
  else (stOk, 0)

/-- The report of R242; PARTS has the failed parts in bits 15:0 and a PERMUTE's abandoned cycles in bits 31:16
(log 101). -/
def Coll.report (c : Coll) (st : Byte) (dt : W16) (now : Nat) : List Byte :=
  let l := c.states
  let q := match l with
    | [] => 0
    | x :: _ => natMinD x.1 (l.map (fun y => y.1))
  let ab := match c.abandon with
    | some (h, x) => h + x * 2 ^ 32
    | none => 2 ^ 64 - 1
  [st, 0] ++ toLe 2 dt.toNat ++ toLe 4 q ++ toLe 4 (natMax (l.map (fun x => x.2.2))) ++
    toLe 4 (c.units.filter (fun e => e.2.2)).length ++ toLe 8 c.dups ++ toLe 8 c.unsent ++ toLe 8 c.start ++
    toLe 8 now ++ toLe 2 c.failedParts.toNat ++ toLe 2 (min c.abandoned 0xFFFF) ++ toLe 4 c.ledDone ++ toLe 8 ab

/-- Takes a collective off the module with its entries. Recorded ARMs stay for further blocks of the bucket and STEP; of
those of a reduction's owners one arrival each is used up (log 100). -/
def State.dropColl (s : State) (c : Coll) : State :=
  let b := c.block
  let used (a : Arm) : Bool := bkOp b == opRS && !bkCopy b && c.isOf a.group a.bucket a.step
  { s with
    colls := s.colls.filter (fun z => z.seq != c.seq)
    combs := s.combs.filter (fun z => z.coll != c.seq)
    arms := updIf s.arms used (fun a => { a with fresh := a.fresh - 1 }) }

/-- COLLECTIVE_COMPLETE: the report, DONE_SEM, the status (R240). -/
def collectiveComplete (c : Coll) (s : State) : State :=
  let (st, dt) := c.status
  let s := s.dropColl c
  let s := (s.hubWrite c.ctx (bkReport c.block) (c.report st dt s.now)).1
  let sem := bkDoneSem c.block
  if bits sem 15 15 = 1 then
    match s.semAdd c.ctx (bits sem 10 8) (bits sem 7 0) 1 with
    | (s, true) => s.complete c.seq st dt
    | (s, false) => s
  else s.complete c.seq st dt

/-- COLLECTIVE_COMPLETE. -/
def execCollectiveComplete (seq : Nat) (s : State) : Host.Outcome State Fault Refusal :=
  .next (match s.coll seq with
    | some c => if c.ended && s.hubUp && s.recovery.isNone then collectiveComplete c s else s
    | none => s)

/-! ### The COLLECTIVE descriptor, R225, R226, R234 -/

/-- BLOCK_ADDR of a slot's bytes. -/
def blockAddr (b : List Byte) : Nat := leAt b 0x08 8

/-- OP of the collective block that a ring's slot names. -/
def State.slotOp (s : State) (b : List Byte) : Nat := s.devNat (blockAddr b) 1

/-- Tables that a COLLECTIVE's fetch reads. -/
def tableRuns (b : List Byte) : List (Nat × Nat) :=
  [(bkRankTable b, 8 * bkP b)] ++ (if bkExplicit b then [(bkCountTable b, 4 * bkP b)] else []) ++
    (if bkOp b = opPM then [(bkMap b, 4 * bkP b * bkUnits b)] else [])

/-- Reads and checks the block at fetch; a refused COLLECTIVE writes its report (R226). A block outside the
context's ranges is an illegal address, and an uncorrectable codeword in the tables a job fault (R290). -/
def admitColl (x : Desc) (s : State) : State :=
  let n := ringCtx x.ring
  let a := blockAddr x.bytes
  match s.readFault n a 128 with
  | some (c, z) => (s.raise c hubSideDie [n] z).modDesc x.seq (fun y => { y with held := true })
  | none =>
    let b := s.devRead a 128
    let s := s.jobRead n none a 128
    match s.collCheck n b with
    | none =>
      let s := (tableRuns b).foldl (fun s r => s.jobRead n none r.1 r.2) s
      match (tableRuns b).findSome? (fun r => s.badIn r.1 r.2) with
      | some z => (s.collFault n z).modDesc x.seq (fun y => { y with held := true })
      | none => s.modDesc x.seq (fun y => { y with bytes := y.bytes ++ b })
    | some dt =>
      let c : Coll := { seq := x.seq, ctx := n, block := b, start := 0 }
      let s := if s.reportOk n b then (s.hubWrite n (bkReport b) (c.report stBadDesc dt s.now)).1 else s
      s.complete x.seq stBadDesc dt

/-- ARM to every rank, as owner or, for a gather, to every owner of a part that runs (R234, R243). -/
def sendArms (c : Coll) (s : State) : State :=
  (List.range (bkP c.block)).foldl (fun s r =>
    if bkOp c.block = opAG ∧ c.runsPart (r % 16) = false then s
    else s.tell armNote { c.msg s r 0x01 with asRank := BitVec.ofNat 32 (bkOwnRank c.block) }) s

/-- A gather that starts serves the ranks whose ARMs came before (R243). -/
def serveIfGather (seq : Nat) (s : State) : State :=
  match s.coll seq with
  | some c => if c.serving then serveWaiting seq s else s
  | none => s

/-- What a collective was writing when a job fault ends it (R248, R360 step 2): sum and hold areas, scale arrays, the
destination of a gather, and the area that a permute moves. -/
def Coll.writes (c : Coll) : List (Nat × Nat) :=
  let b := c.block
  let own := c.cnt (bkOwnRank b) * bkUnit b * 8
  let hold := (bkP b + (c.table.filter (fun e => (entBackup e).isSome)).length) * slotBytes b c.counts
  (if bkOwns b && bkOp b != opEM then [(bkShard b, own)] else []) ++ (if bkOwns b then [(bkHold b, hold)] else []) ++
  (if (bkOp b == opRS && !bkPlain b && !bkCopy b) || (bkOp b == opAG && bkGatherScale b) then
      [(bkScaleArr b (bkStep b + 1), bkUnits b)] else []) ++
  (if bkOp b = opEM then [(bkScaleArr b (bkStep b), bkUnits b)] else []) ++
  (if bkOp b = opAG ∨ bkOp b = opAR then [(bkDst b, bkUnits b * c.unitBytes)] else []) ++
  (if bkOp b = opPM then [(bkShard b, bkUnits b * bkUnitBytes b), (bkDst b, 2 * bkUnitBytes b)] else [])

/-- Starts a checked COLLECTIVE: the owner zeroes its sum and hold areas and sends ARM (R234); a gather arms
its owners (R243); a permute leads its cycles (R246). -/
def startColl (seq : Nat) (s : State) : State :=
  match s.desc seq with
  | none => s
  | some x =>
    if x.bytes.length ≠ 192 then s
    else
      let b := x.bytes.drop 64
      let table := s.rankTable b
      let counts := s.countTable b
      let own := countOf b counts (bkOwnRank b) * bkUnit b * 8
      let hold := (bkP b + (table.filter (fun e => (entBackup e).isSome)).length) * slotBytes b counts
      let n := ringCtx x.ring
      let sums := (if bkOwns b && bkOp b != opEM then [(bkShard b, own)] else []) ++
        (if bkOwns b then [(bkHold b, hold)] else [])
      let scale := if (bkOp b == opRS && !bkPlain b) || (bkOp b == opAG && bkGatherScale b) || bkOp b == opEM then
          [(bkScaleArr b (bkStep b + 1), bkUnits b)] else []
      let c : Coll := { seq, ctx := n, block := b, table, counts, map := s.permMap b, start := s.now
                        guards := sums ++ scale, gatherFrom := s.now }
      let s := sums.foldl (fun s (a, k) => s.collWrite n a (List.replicate k 0)) (s.markStarted seq)
      let s := { s with colls := s.colls ++ [c] }
      if bkOp b = opPM then startPermute seq s
      else if bkOp b = opRS ∧ bkCopy b = true then s
      else serveIfGather seq (sendArms c s)

/-- A COLLECTIVE's fetch for one OP. -/
def fetchColl (op : Nat) (r : RingId) (s : State) : State :=
  fetchThen r (fun b => tyIs 0x0D b && s.slotOp b == op) noCheck admitColl startColl s

/-- REDUCE_SCATTER; a block with an undefined OP is refused here (R226). -/
def execReduceScatter (r : RingId) (s : State) : Host.Outcome State Fault Refusal :=
  .next (fetchThen r (fun b => tyIs 0x0D b && !([opAG, opAR, opEM, opPM].contains (s.slotOp b))) noCheck admitColl startColl s)

/-- ALL_GATHER. -/
def execAllGather (r : RingId) (s : State) : Host.Outcome State Fault Refusal := .next (fetchColl opAG r s)

/-- ALL_REDUCE. -/
def execAllReduce (r : RingId) (s : State) : Host.Outcome State Fault Refusal := .next (fetchColl opAR r s)

/-- EXPONENT_MAX. -/
def execExponentMax (r : RingId) (s : State) : Host.Outcome State Fault Refusal := .next (fetchColl opEM r s)

/-- PERMUTE. -/
def execPermute (r : RingId) (s : State) : Host.Outcome State Fault Refusal := .next (fetchColl opPM r s)

end Sys2Proof.Machine
end

