-- ==== Sys2Proof/Machine/Picture.lean ====
section
/-! DEFINITION. The media engine's picture path (R264, R267 to R270, R274, R275): from coded components to the
tensor and the mask of a slot. -/

namespace Sys2Proof.Machine

/-! ### FP32 steps, R267 -/

def fAdd (a b : Nat) : Nat := (vAdd (.code a) (.code b)).1
def fSub (a b : Nat) : Nat := (vSub (.code a) (.code b)).1
def fMul (a b : Nat) : Nat := (vMul (.code a) (.code b)).1
def fDiv (a b : Nat) : Nat := (vDiv (.code a) (.code b)).1
def fFma (a b c : Nat) : Nat := (vFma (.code a) (.code b) (.code c)).1

/-- The FP32 code nearest an integer, and nearest a fraction. -/
def fInt (i : Int) : Nat := (fFP32.ofNum (Num.ofInt i 0)).1
def fFrac (n d : Nat) : Nat := (fFP32.round false n d 0).1

/-- pow(a, p) = exp(p × log(a)), R268. -/
def fPow (a p : Nat) : Nat := (vExp (.code (fMul p (vLog (.code a)).1))).1

/-- Whether a < b as numbers; NaN compares false. -/
def fLt (a b : Nat) : Bool :=
  match fFP32.operand a, fFP32.operand b with
  | (some x, _), (some y, _) => x.lt y
  | _, _ => false

/-- The floor of a non-negative FP32 value. -/
def fFloor (a : Nat) : Nat :=
  match fFP32.operand a with
  | (some x, _) => if x.neg then 0 else x.m * p2 x.e / p2 (-x.e)
  | _ => 0

/-! ### The stream block, R256 Table 4 -/

def sbCodec (b : List Byte) : Nat := leAt b 0 1
def sbOrder (b : List Byte) : Nat := bits (leAt b 1 1) 2 1
def sbLive (b : List Byte) : Bool := bits (leAt b 1 1) 3 3 == 1
def sbMaxW (b : List Byte) : Nat := leAt b 2 2
def sbMaxH (b : List Byte) : Nat := leAt b 4 2
def sbMaxDepth (b : List Byte) : Nat := leAt b 6 1
def sbMaxUnits (b : List Byte) : Nat := leAt b 7 1
def sbOutW (b : List Byte) : Nat := leAt b 8 2
def sbOutH (b : List Byte) : Nat := leAt b 0x0A 2
def sbCropW (b : List Byte) : Nat := if leAt b 0x0C 2 = 0 then sbMaxW b else leAt b 0x0C 2
def sbCropH (b : List Byte) : Nat := if leAt b 0x0E 2 = 0 then sbMaxH b else leAt b 0x0E 2
def sbFmt (b : List Byte) : Nat := leAt b 0x10 1
def sbChw (b : List Byte) : Bool := bits (leAt b 0x11 1) 0 0 == 1
def sbResize (b : List Byte) : Nat := bits (leAt b 0x11 1) 2 1
def sbMel (b : List Byte) : Bool := bits (leAt b 0x11 1) 3 3 == 1
def sbMatrix (b : List Byte) : Nat := bits (leAt b 0x12 1) 2 0
def sbFull (b : List Byte) : Bool := bits (leAt b 0x12 1) 3 3 == 1
def sbLinear (b : List Byte) : Bool := bits (leAt b 0x12 1) 4 4 == 1
def sbSlotBytes (b : List Byte) : Nat := leAt b 0x14 4
def sbOutAddr (b : List Byte) : Nat := leAt b 0x18 8
def sbSlots (b : List Byte) : Nat := leAt b 0x20 2
def sbFreeSem (b : List Byte) : Nat := leAt b 0x22 2
def sbFullSem (b : List Byte) : Nat := leAt b 0x24 2
def sbSeed (b : List Byte) : Nat := leAt b 0x28 8
def sbEpoch (b : List Byte) : Nat := leAt b 0x30 8
def sbN (b : List Byte) : Nat := leAt b 0x38 8
def sbBudgetAbs (b : List Byte) : Nat := leAt b 0x40 4
def sbBudgetMult (b : List Byte) : Nat := if leAt b 0x44 1 = 0 then 16 else leAt b 0x44 1
def sbMaxAge (b : List Byte) : Nat := leAt b 0x48 4
def sbLateMax (b : List Byte) : Nat := leAt b 0x4C 4
def sbLateAddr (b : List Byte) : Nat := leAt b 0x50 8
def sbDmgAddr (b : List Byte) : Nat := leAt b 0x58 8
def sbDmgCount (b : List Byte) : Nat := leAt b 0x60 4
def sbRate (b : List Byte) : Nat := leAt b 0x64 4
def sbParam (b : List Byte) : Nat := leAt b 0x68 8
def sbWork (b : List Byte) : Nat := leAt b 0x70 8
def sbWorkBytes (b : List Byte) : Nat := leAt b 0x78 4

/-- Audio codecs and encoders, R251, R253. -/
def isAudio (codec : Nat) : Bool := codec == 0x08 || codec == 0x09 || codec == 0x0A || codec == 0x88
def isEncode (codec : Nat) : Bool := decide (0x80 ≤ codec)

/-- Codecs whose pictures depend on one another, R272. -/
def isInter (codec : Nat) : Bool := codec == 0x01 || codec == 0x02 || codec == 0x03 || codec == 0x82

/-! ### Parameters and augmentation, R256 Table 5, R274, R275 -/

def prMean (p : List Byte) (c : Nat) : Nat := leAt p (4 * c) 4
def prInvStd (p : List Byte) (c : Nat) : Nat := leAt p (0x10 + 4 * c) 4

/-- Normalisation is off when INV_STD is all zero. -/
def prNormOff (p : List Byte) : Bool := zeroIn p 0x10 16

def augKind (p : List Byte) (a : Nat) : Nat := leAt p (0x20 + 16 * a) 1
def augLo (p : List Byte) (a : Nat) : Nat := leAt p (0x24 + 16 * a) 4
def augHi (p : List Byte) (a : Nat) : Nat := leAt p (0x28 + 16 * a) 4

/-- FP32 slots of Table 11: brightness, contrast, gain. -/
def augFp (a : Nat) : Bool := a == 4 || a == 5 || a == 6

/-- The key of R273. -/
def mediaKey (seed : Nat) : Nat × Nat := (seed % 2 ^ 32, (seed / 2 ^ 32 % 2 ^ 32) ^^^ 0x4D454449)

/-- The word that slot a of a sample draws, R274. -/
def augWord (seed sample epoch a : Nat) : Nat :=
  (philox (sample % 2 ^ 32, a * 2 ^ 16 + bits sample 47 32, epoch % 2 ^ 32, epoch / 2 ^ 32 % 2 ^ 32) (mediaKey seed)).1

/-- The drawn value of a slot, as a 32-bit code. -/
def augDrawn (p : List Byte) (a w : Nat) : Nat :=
  if augFp a then fFma (fFrac (bits w 31 8) (2 ^ 24)) (fSub (augHi p a) (augLo p a)) (augLo p a)
  else
    let lo := sgn 32 (augLo p a)
    let hi := sgn 32 (augHi p a)
    unsgn 32 (lo + (w : Int) * (hi - lo + 1) / (2 ^ 32 : Int))

/-- The neutral value of a slot for a picture, Table 11. -/
def augNeutral (b : List Byte) (w h a : Nat) : Nat :=
  if a = 0 then unsgn 32 (((w : Int) - sbCropW b) / 2)
  else if a = 1 then unsgn 32 (((h : Int) - sbCropH b) / 2)
  else if a = 5 ∨ a = 6 then 0x3F800000 else 0

/-- The value of slot a of a sample before its clamps: override, drawn or neutral. -/
def augValue (b p : List Byte) (sm : Sample) (w h a : Nat) : Nat :=
  match sm.ovr with
  | some o => if bits (leAt o 0 1) a a = 1 then leAt o (32 + 4 * a) 4
      else if augKind p a = 1 then augDrawn p a (augWord (sbSeed b) sm.sample sm.epoch a) else augNeutral b w h a
  | none => if augKind p a = 1 then augDrawn p a (augWord (sbSeed b) sm.sample sm.epoch a) else augNeutral b w h a

/-! ### Step 2: regions and concealment, R277 -/

/-- Whether a rectangle holds a pixel of the cell of fx × fy pixels at (x, y). -/
def rectMeets (r : Rect) (x y fx fy : Nat) : Bool :=
  decide (r.x < x + fx) && decide (x < r.x + r.w) && decide (r.y < y + fy) && decide (y < r.y + r.h)

/-- The subsampling factors of component c. -/
def picFactor (q : Pic) (c : Nat) : Nat × Nat := (max 1 (q.sub.getD c (1, 1)).1, max 1 (q.sub.getD c (1, 1)).2)

/-- Whether a component is subsampled across, and down. -/
def picSubW (q : Pic) : Bool := q.sub.any (fun z => decide (1 < z.1))
def picSubH (q : Pic) : Bool := q.sub.any (fun z => decide (1 < z.2))

/-- Component c of a pixel, of the co-sited sample (step 4). -/
def picAt (q : Pic) (c x y : Nat) : Nat :=
  ((q.planes.getD c []).getD (y / (picFactor q c).2) []).getD (x / (picFactor q c).1) 0

/-- A picture of n components whose samples `v` gives. -/
def picBuild (q : Pic) (n : Nat) (v : Nat → Nat → Nat → Nat) : Pic :=
  { q with planes := tab n (fun c =>
      tab (ceilDiv q.h (picFactor q c).2) (fun y => tab (ceilDiv q.w (picFactor q c).1) (fun x => v c x y % 2 ^ q.depth))) }

/-- A picture of mid-grey: every coded component 2^(b − 1). -/
def picGrey (q : Pic) (n : Nat) : Pic := picBuild q n (fun _ _ _ => 2 ^ (q.depth - 1))

/-- The shape of a picture that a header claims. -/
def claimShape (c : HeaderClaim) : Pic := { w := c.width, h := c.height, depth := max 1 c.depth, rgb := c.rgb, sub := c.sub }

/-- Whether a previous picture conceals one of a shape: it has its size. -/
def sameSize (q : Pic) (prev : Option Pic) : Option Pic := prev.filter (fun p => p.w == q.w && p.h == q.h)

/-- A picture with regions concealed: the co-located samples of the previous picture, else mid-grey. -/
def picConceal (q : Pic) (prev : Option Pic) (l : List Rect) : Pic :=
  { q with planes := q.planes.zipIdx.map (fun (pl, c) =>
      let (fx, fy) := picFactor q c
      pl.zipIdx.map (fun (row, y) => row.zipIdx.map (fun (v, x) =>
        if l.any (fun r => rectMeets r (x * fx) (y * fy) fx fy) then
          match sameSize q prev with
          | some p => picAt p c (x * fx) (y * fy)
          | none => 2 ^ (q.depth - 1)
        else v))) }

/-- The mark of a pixel: the largest of the regions that hold it. -/
def markAt (l : List (List Rect × Nat)) (x y : Nat) : Nat :=
  natMax (l.map (fun (rs, v) => if rs.any (fun r => rectMeets r x y 1 1) then v else 0))

/-! ### Steps 3 and 4: crop and upsampling -/

/-- Output channels: 1, 3, or 4 with an alpha plane (R264); grey with alpha takes 4 (log 104). -/
def picChans (q : Pic) : Nat :=
  if q.planes.length ≤ 1 then 1 else if q.planes.length = 3 then 3 else 4

/-- The components of a pixel by output channel: grey with alpha shows the grey in three (log 104). -/
def picVals (q : Pic) (x y : Nat) : List Nat :=
  if q.planes.length = 2 then [picAt q 0 x y, picAt q 0 x y, picAt q 0 x y, picAt q 1 x y]
  else tab (picChans q) (fun c => picAt q c x y)

/-- A crop offset: clamped, and even where a component is subsampled. -/
def cropOff (v : Int) (size crop : Nat) (even : Bool) : Nat :=
  let k := (max 0 (min v ((size : Int) - crop))).toNat
  if even then k - k % 2 else k

/-- The crop offsets of a picture. -/
def cropAt (b : List Byte) (aug : Nat → Nat) (q : Pic) : Nat × Nat :=
  (cropOff (sgn 32 (aug 0)) q.w (sbCropW b) (picSubW q), cropOff (sgn 32 (aug 1)) q.h (sbCropH b) (picSubH q))

/-- The values used for the slots of a sample of size w × h, as its header holds them: crop offsets and the shift
clamped, flips by their low bit. -/
def augUsed (b p : List Byte) (sm : Sample) (q : Pic) (a : Nat) : Nat :=
  let aug := augValue b p sm q.w q.h
  if a = 0 then (cropAt b aug q).1
  else if a = 1 then (cropAt b aug q).2
  else if a = 2 ∨ a = 3 then aug a % 2
  else if a = 7 then (max 0 (min (sgn 32 (aug 7)) 65535)).toNat
  else aug a

/-- A cropped pixel: beyond the picture mid-grey. -/
def picCrop (q : Pic) (at0 : Nat × Nat) (x y : Nat) : List Nat :=
  if at0.1 + x < q.w ∧ at0.2 + y < q.h then picVals q (at0.1 + x) (at0.2 + y)
  else List.replicate (picChans q) (2 ^ (q.depth - 1))

/-! ### Step 5: colour, R268 -/

/-- Kr and Kb of a MATRIX. -/
def krOf (m : Nat) : Nat := if m = 1 then fFrac 2126 10000 else fFrac 2627 10000
def kbOf (m : Nat) : Nat := if m = 1 then fFrac 722 10000 else fFrac 593 10000

/-- y and a colour difference of a component; below 8 bits both sides of a quotient of limited range are scaled by
2^(8 − b), which makes q an integer. -/
def lumaOf (full : Bool) (b v : Nat) : Nat :=
  let q : Int := 2 ^ (b - 8)
  if full then fDiv (fInt v) (fInt (2 ^ b - 1)) else fDiv (fInt ((v : Int) * 2 ^ (8 - b) - 16 * q)) (fInt (219 * q))
def diffOf (full : Bool) (b v : Nat) : Nat :=
  let q : Int := 2 ^ (b - 8)
  if full then fDiv (fInt ((v : Int) - 2 ^ (b - 1))) (fInt (2 ^ b - 1))
  else fDiv (fInt ((v : Int) * 2 ^ (8 - b) - 128 * q)) (fInt (224 * q))

/-- R', G', B' of a YCbCr pixel. -/
def rgbOf (m : Nat) (full : Bool) (b : Nat) (v : List Nat) : List Nat :=
  let one := fInt 1
  let kr := krOf m
  let kb := kbOf m
  let y := lumaOf full b (v.getD 0 0)
  let cb := diffOf full b (v.getD 1 0)
  let cr := diffOf full b (v.getD 2 0)
  let r := fAdd y (fMul (fMul (fInt 2) (fSub one kr)) cr)
  let bl := fAdd y (fMul (fMul (fInt 2) (fSub one kb)) cb)
  let g := fDiv (fSub (fSub y (fMul kr r)) (fMul kb bl)) (fSub (fSub one kr) kb)
  [r, g, bl]

/-- The PQ EOTF of BT.2100, 1.0 meaning 10,000 cd/m² (log 44). -/
def pqEotf (e : Nat) : Nat :=
  let m1 := fFrac 2610 16384
  let m2 := fFrac (2523 * 128) 4096
  let c1 := fFrac 3424 4096
  let c2 := fFrac (2413 * 32) 4096
  let c3 := fFrac (2392 * 32) 4096
  let p := fPow e (fDiv (fInt 1) m2)
  let d := fSub p c1
  fPow (fDiv (if fLt d 0 then 0 else d) (fSub c2 (fMul c3 p))) (fDiv (fInt 1) m1)

/-- The HLG inverse OETF of BT.2100 (log 44). -/
def hlgInverse (e : Nat) : Nat :=
  let a := fFrac 17883277 100000000
  let b := fSub (fInt 1) (fMul (fInt 4) a)
  let c := fSub (fFrac 1 2) (fMul a (vLog (.code (fMul (fInt 4) a))).1)
  if fLt (fFrac 1 2) e then fDiv (fAdd (vExp (.code (fDiv (fSub e c) a))).1 b) (fInt 12)
  else fDiv (fMul e e) (fInt 3)

/-- The inverse transfer function of LINEAR. -/
def linearOf (m e : Nat) : Nat :=
  if m = 3 then pqEotf e
  else if m = 4 then hlgInverse e
  else fPow e (fDiv (fInt 1) (fFrac 45 100))

/-- Colour conversion of one pixel. -/
def colourOf (blk : List Byte) (q : Pic) (v : List Nat) : List Nat :=
  let m := sbMatrix blk
  let plain (x : Nat) : Nat := fDiv (fInt x) (fInt (2 ^ q.depth - 1))
  if m = 0 then v.map plain
  else
    let col := if q.rgb then (v.take 3).map plain
      else if q.planes.length ≤ 2 then (v.take 3).map (lumaOf (sbFull blk) q.depth) else rgbOf m (sbFull blk) q.depth v
    (if sbLinear blk then col.map (linearOf m) else col) ++ (v.drop 3).map plain

/-! ### Step 6: resizing, R269 -/

/-- Place i and fraction f of an output coordinate in bilinear resizing. -/
def bilinAt (wIn wOut x : Nat) : Nat × Nat :=
  let ρ := fDiv (fInt wIn) (fInt wOut)
  let sx := fSub (fMul (fAdd (fInt x) (fFrac 1 2)) ρ) (fFrac 1 2)
  let sx := if fLt sx 0 then 0 else if fLt (fInt (wIn - 1 : Nat)) sx then fInt (wIn - 1 : Nat) else sx
  let i := fFloor sx
  (i, fSub sx (fInt i))

/-- One row resized from its length. -/
def bilinRow (wOut : Nat) (row : List Nat) : List Nat :=
  let n := row.length
  tab wOut (fun x =>
    let (i, f) := bilinAt n wOut x
    let p0 := row.getD i 0
    let p1 := row.getD (min (i + 1) (n - 1)) 0
    fFma f (fSub p1 p0) p0)

/-- The transpose of rows of `w` columns. -/
def transposeTo (w : Nat) (rows : List (List Nat)) : List (List Nat) :=
  tab w (fun x => rows.map (fun row => row.getD x 0))

/-- Bilinear resizing, rows first and columns second. -/
def bilinear (wOut hOut : Nat) (rows : List (List Nat)) : List (List Nat) :=
  let a := rows.map (bilinRow wOut)
  transposeTo hOut ((transposeTo wOut a).map (bilinRow hOut))

/-- The box of source samples of an output in area resizing. -/
def boxOf (bw bh x y : Nat) (rows : List (List Nat)) : List Nat :=
  ((rows.drop (y * bh)).take bh).flatMap (fun row => (row.drop (x * bw)).take bw)

/-- Area resizing: the exact sum of each box rounded once, divided by its size. -/
def areaResize (wOut hOut wIn hIn : Nat) (rows : List (List Nat)) : List (List Nat) :=
  let bw := wIn / max 1 wOut
  let bh := hIn / max 1 hOut
  tab hOut (fun y => tab wOut (fun x =>
    fDiv (redSum ((boxOf bw bh x y rows).map Src.code)).1 (fInt (bw * bh : Nat))))

/-- A plane resized. -/
def resizePlane (blk : List Byte) (rows : List (List Nat)) : List (List Nat) :=
  if sbResize blk = 1 then bilinear (sbOutW blk) (sbOutH blk) rows
  else if sbResize blk = 2 then areaResize (sbOutW blk) (sbOutH blk) (sbCropW blk) (sbCropH blk) rows
  else rows

/-- The marks of the samples that an output pixel rests on, the largest. -/
def resizeMarks (blk : List Byte) (rows : List (List Nat)) : List (List Nat) :=
  let w := sbCropW blk
  let h := sbCropH blk
  let ow := sbOutW blk
  let oh := sbOutH blk
  let mark (x y : Nat) : Nat := (rows.getD y []).getD x 0
  if sbResize blk = 1 then
    tab oh (fun y => tab ow (fun x =>
      let i := (bilinAt w ow x).1
      let j := (bilinAt h oh y).1
      natMax [mark i j, mark (min (i + 1) (w - 1)) j, mark i (min (j + 1) (h - 1)),
        mark (min (i + 1) (w - 1)) (min (j + 1) (h - 1))]))
  else if sbResize blk = 2 then
    tab oh (fun y => tab ow (fun x => natMax (boxOf (w / max 1 ow) (h / max 1 oh) x y rows)))
  else rows

/-! ### Steps 7 to 10 -/

/-- Flips of slots 2 and 3. -/
def flipPlane (fx fy : Bool) (rows : List (List Nat)) : List (List Nat) :=
  let rows := if fx then rows.map List.reverse else rows
  if fy then rows.reverse else rows

/-- Steps 8 to 10 of one value. -/
def finishOf (p : List Byte) (fmt contrast bright c x : Nat) : Nat :=
  let y := fAdd (fFma contrast (fSub x (fFrac 1 2)) (fFrac 1 2)) bright
  let y := if prNormOff p then y else fMul (fSub y (prMean p c)) (prInvStd p c)
  if fmt = fmFP32 then y else (convFp (ffmtOf fmt) y).1

/-- Width and height of the tensor, R264. -/
def outW (b : List Byte) : Nat := if sbResize b = 0 then sbCropW b else sbOutW b
def outH (b : List Byte) : Nat := if sbResize b = 0 then sbCropH b else sbOutH b

/-- Tensor bytes of `c` channels, R264. -/
def tensorBytes (b : List Byte) (c : Nat) : Nat :=
  let w := fmtBytes (sbFmt b) 1
  if sbChw b then c * outH b * (ceilDiv (outW b * w) 64 * 64) else outH b * (ceilDiv (outW b * c * w) 64 * 64)

/-- Mask bytes of a picture. -/
def maskBytes (b : List Byte) : Nat := ceilDiv (outW b) 16 * ceilDiv (outH b) 16

/-- A row of codes padded to its pitch. -/
def padRow (w : Nat) (codes : List Nat) : List Byte :=
  let bs := (codes.map (toLe w)).flatten
  slice bs 0 (ceilDiv bs.length 64 * 64)

/-- Planes laid out as the tensor. -/
def layTensor (b : List Byte) (planes : List (List (List Nat))) : List Byte :=
  let w := fmtBytes (sbFmt b) 1
  if sbChw b then (planes.flatMap (fun pl => pl.map (padRow w))).flatten
  else (tab (outH b) (fun y => padRow w ((List.range (outW b)).flatMap (fun x =>
    planes.map (fun pl => (pl.getD y []).getD x 0))))).flatten

/-- The largest mark of each 16 × 16 block. -/
def blockMarks (b : List Byte) (marks : List (List Nat)) : List Byte :=
  (List.range (ceilDiv (outH b) 16)).flatMap (fun j => (List.range (ceilDiv (outW b) 16)).map (fun i =>
    BitVec.ofNat 8 (natMax (boxOf 16 16 i j marks))))

/-- The mask of a picture whose pixels are marked by `mk`, with `beyond` beyond the picture: steps 3, 6 and 7. -/
def maskOf (b : List Byte) (aug : Nat → Nat) (q : Pic) (beyond : Nat) (mk : Nat → Nat → Nat) : List Byte :=
  let (x0, y0) := cropAt b aug q
  let marks := tab (sbCropH b) (fun y => tab (sbCropW b) (fun x =>
    if x0 + x < q.w ∧ y0 + y < q.h then mk (x0 + x) (y0 + y) else beyond))
  blockMarks b (flipPlane (decide (aug 2 % 2 = 1)) (decide (aug 3 % 2 = 1)) (resizeMarks b marks))

/-- The entries that a region's marks set. -/
def marksSet (mask : List Byte) : Nat := (mask.filter (fun v => v != 0)).length

/-- The tensor of a picture, R267 Table 8: steps 3 to 10. -/
def tensorOf (b p : List Byte) (aug : Nat → Nat) (q : Pic) : List Byte :=
  let at0 := cropAt b aug q
  let px := tab (sbCropH b) (fun y => tab (sbCropW b) (fun x => picCrop q at0 x y))
  let raw := sbFmt b == fmU8 || sbFmt b == fmU16
  let px := if raw then px else px.map (fun row => row.map (colourOf b q))
  let planes := (List.range (picChans q)).map (fun c => px.map (fun row => row.map (fun v => v.getD c 0)))
  let planes := planes.map (resizePlane b)
  let planes := planes.map (flipPlane (decide (aug 2 % 2 = 1)) (decide (aug 3 % 2 = 1)))
  let planes := if raw then planes
    else planes.zipIdx.map (fun (pl, c) => pl.map (fun row => row.map (finishOf p (sbFmt b) (aug 5) (aug 4) c)))
  layTensor b planes

end Sys2Proof.Machine
end

