-- ==== Sys2Proof/Machine/Audio.lean ====
section
/-! DEFINITION. The media engine's audio path (R264, R271): from coded values through resampling, gain and shift to
samples or mel spectra, and the marks of its units. The step orders that R271 does not give are the model's (log 105). -/

namespace Sys2Proof.Machine

/-! ### Sines by their series, rounded once -/

/-- Fraction bits of the fixed-point values. -/
def aPrec : Nat := 192

/-- Σ (−1)^i / ((2i + 1) x^(2i + 1)), the arc tangent of 1/x, with `n` terms to come, `t` = x^−(2i + 1). -/
def atanInv (x : Nat) : (n i : Nat) → (t : Int) → Int
  | 0, _, _ => 0
  | n + 1, i, t => (if i % 2 = 0 then t / (2 * i + 1 : Nat) else -(t / (2 * i + 1 : Nat))) + atanInv x n (i + 1) (t / (x * x : Nat))

/-- π by Machin's formula. -/
def piFix : Int :=
  let one : Int := 2 ^ aPrec
  16 * atanInv 5 100 0 (one / 5) - 4 * atanInv 239 40 0 (one / 239)

/-- The tail of the series of cos or sin from a term whose successor is divided by (k + 1)(k + 2). -/
def trigSeries (θ : Int) : (n k : Nat) → (t : Int) → Int
  | 0, _, _ => 0
  | n + 1, k, t => t + trigSeries θ n (k + 2) (-(t * θ / 2 ^ aPrec * θ / 2 ^ aPrec / ((k + 1) * (k + 2) : Nat)))

/-- cos and sin of 2π × k / n as FP32 codes. -/
def turnCos (k n : Nat) : Nat :=
  (fFP32.ofNum (Num.ofInt (trigSeries (2 * piFix * (k % n : Nat) / (n : Nat)) 80 0 (2 ^ aPrec)) (-(aPrec : Int)))).1
def turnSinFix (k n : Nat) : Int :=
  let θ := 2 * piFix * (k % n : Nat) / (n : Nat)
  trigSeries θ 80 1 θ
def turnSin (k n : Nat) : Nat := (fFP32.ofNum (Num.ofInt (turnSinFix k n) (-(aPrec : Int)))).1

/-! ### The taps of the resampler -/

/-- Σ (num/den)^k / (k!)² from term k = `t` on, with `n` terms to come: I₀(2√(num/den)). -/
def besselSeries (num den : Nat) : (n k t : Nat) → Nat
  | 0, _, _ => 0
  | n + 1, k, t => t + besselSeries num den n (k + 1) (t * num / (den * ((k + 1) * (k + 1))))

/-- The Kaiser window of β = 8 at a/b of its 32 values on each side, before its division by I₀(8):
I₀(8 √(1 − (a / 32 b)²)). -/
def kaiserFix (a b : Nat) : Nat := besselSeries (1024 * b * b - a * a) (64 * b * b) 80 0 (2 ^ aPrec)

/-- Tap k of a phase, R271: c × sinc(c t) × the window at t, rounded once, where t is the distance from the output's
place to the coded value in coded samples and c the cut-off. -/
def audioTap (rin rout phase k : Nat) : Nat :=
  let b := max 1 rout
  let a := (((31 : Int) - k) * b + phase).natAbs
  let c := Config.audioCutoff rin rout
  let x := c.1 * a
  let y := max 1 c.2 * b
  if x = 0 then (fFP32.round false (c.1 * kaiserFix a b) (max 1 c.2 * kaiserFix 0 1) 0).1
  else
    let s := if x % y = 0 then 0 else turnSinFix (x % (2 * y)) (2 * y)
    (fFP32.round (decide (s < 0)) (s.natAbs * b * kaiserFix a b) (piFix.natAbs * a * kaiserFix 0 1) 0).1

/-! ### Mel spectra -/

/-- −x. -/
def fNeg (a : Nat) : Nat := fSub 0 a

/-- One butterfly with twiddle w: a + w × b and a − w × b, each product and sum rounded. -/
def butterfly (w a b : Nat × Nat) : (Nat × Nat) × (Nat × Nat) :=
  let t := (fSub (fMul w.1 b.1) (fMul w.2 b.2), fAdd (fMul w.1 b.2) (fMul w.2 b.1))
  ((fAdd a.1 t.1, fAdd a.2 t.2), (fSub a.1 t.1, fSub a.2 t.2))

/-- The radix-2 decimation-in-time FFT over 2^k complex values. -/
def fft : Nat → List (Nat × Nat) → List (Nat × Nat)
  | 0, l => l
  | k + 1, l =>
    let n := 2 ^ (k + 1)
    let e := fft k (tab (n / 2) (fun i => l.getD (2 * i) (0, 0)))
    let o := fft k (tab (n / 2) (fun i => l.getD (2 * i + 1) (0, 0)))
    let z := tab (n / 2) (fun i => butterfly (turnCos i n, fNeg (turnSin i n)) (e.getD i (0, 0)) (o.getD i (0, 0)))
    z.map (fun q => q.1) ++ z.map (fun q => q.2)

def prNfft (p : List Byte) : Nat := leAt p 0xA0 2
def prWin (p : List Byte) : Nat := leAt p 0xA2 2
def prHop (p : List Byte) : Nat := leAt p 0xA4 2
def prNmel (p : List Byte) : Nat := leAt p 0xA6 2

/-- The Hann window at n. -/
def hannAt (win n : Nat) : Nat := fSub (fFrac 1 2) (fMul (fFrac 1 2) (turnCos n win))

/-- max(E, 2^-34), then its logarithm. -/
def melLog (e : Nat) : Nat := (vLog (.code (if fLt e (fFrac 1 (2 ^ 34)) then fFrac 1 (2 ^ 34) else e))).1

/-- ln(num/den) for num ≥ den, in units of 2^-tPrec. -/
def lnFix (num den : Nat) : Nat :=
  let k := Nat.log2 (num / den)
  let d := den * 2 ^ k
  2 * (k * (atanhB 1 3).1 + (atanhB (num - d) (num + d)).1)

/-- 700 + f, of a frequency as an FP32 code. -/
def melBase (c : Nat) : Num :=
  match fFP32.decode c with
  | .fin x => (Num.ofInt 700 0).add x
  | _ => Num.ofInt 700 0

/-- The distance from y to x on the mel scale, ln(x/y), of two values 700 + f with x ≥ y. -/
def melDist (x y : Num) : Nat := lnFix (x.m * p2 (x.e - y.e)) (max 1 (y.m * p2 (y.e - x.e)))

/-- The weight of bin k in filter m, R271: of NMEL + 2 points at equal distances on the mel scale from FMIN to FMAX,
the filter is a triangle on that scale over three that follow one another. -/
def melWeight (p : List Byte) (rate m k : Nat) : Nat :=
  let lo := melBase (leAt p 0xA8 4)
  let hi := melBase (leAt p 0xAC 4)
  let f := (Num.ofInt 700 0).add { neg := false, m := k * rate, e := -(Nat.log2 (prNfft p) : Int) }
  let span : Int := melDist hi lo
  let u : Int := melDist f lo * (prNmel p + 1 : Nat) - m * span
  let h := Config.melHeight p rate m
  if f.lt lo || hi.lt f || decide (u < 0) || decide (2 * span < u) then 0
  else (fFP32.round false ((span - (u - span).natAbs).toNat * h.1) (max 1 (span.toNat * h.2)) 0).1

/-- The mel values of the samples of one window. -/
def melFrame (b p : List Byte) (xs : List Nat) : List Nat :=
  let nfft := prNfft p
  let x := tab nfft (fun n => (if n < prWin p then fMul (xs.getD n 0) (hannAt (prWin p) n) else 0, 0))
  let pow := (fft (Nat.log2 nfft) x).map (fun z => fFma z.1 z.1 (fMul z.2 z.2))
  tab (prNmel p) (fun m => melLog (redSum (tab (nfft / 2 + 1) (fun k =>
    Src.code (fMul (melWeight p (sbRate b) m k) (pow.getD k 0))))).1)

/-! ### Coded values -/

/-- Bytes of a PCM value. -/
def pcmBytes (c : HeaderClaim) : Nat := ceilDiv c.depth 8

/-- Coded values per channel of a sample: of PCM what its bytes hold, else what its headers say. -/
def codedLen (b : List Byte) (c : HeaderClaim) (len : Nat) : Nat :=
  if sbCodec b = 0x0A then len / max 1 (c.width * pcmBytes c) else c.height

/-- A coded value as FP32: x / 2^(bits − 1), or as decoded. -/
def audioFp (float : Bool) (bits x : Nat) : Nat :=
  if float then x % 2 ^ 32 else (fFP32.ofNum (Num.ofInt (sgn bits x) (-((bits : Int) - 1)))).1

/-- The coded values of a sample by time: those of every channel, and their mark. Damaged ones are silence, marked 2. -/
def codedValues (b p src : List Byte) (m : Sample) (silent : Nat → Bool) (mark : Nat) : List (List Nat × Nat) :=
  let c := m.claim
  tab (codedLen b c m.len) (fun i =>
    if silent i then (List.replicate c.width 0, mark)
    else (tab c.width (fun ch =>
      if sbCodec b = 0x0A then audioFp c.float (8 * pcmBytes c) (leAt src ((i * c.width + ch) * pcmBytes c) (pcmBytes c))
      else audioFp (c.float || sbCodec b == 0x09) c.depth (Config.decodeAudio b p src m.hist ch i)), 0))

/-! ### Resampling, gain and shift -/

/-- Output samples that `n` coded values give, the last ones at the stream's end: the filter reaches 32 values past an
output's place. -/
def outTotal (rin rout n : Nat) (last : Bool) : Nat :=
  if rin = rout then n else if last then ceilDiv (n * rout) (max 1 rin) else ceilDiv ((n - 32) * rout) (max 1 rin)

/-- Output n of the filter over coded values from place `base` on: 64 products, each rounded, and their exact sum
rounded once. Its mark is that of the value at its place. -/
def resampled (rin rout base : Nat) (l : List (List Nat × Nat)) (chans n : Nat) : List Nat × Nat :=
  let pos := n * rin / max 1 rout
  let phase := n * rin % max 1 rout
  let val (i : Int) (ch : Nat) : Nat := if i < base then 0 else (l.getD (i.toNat - base) ([], 0)).1.getD ch 0
  (tab chans (fun ch =>
    if rin = rout then val pos ch
    else (redSum (tab 64 (fun k =>
      Src.code (fMul (audioTap rin rout phase k) (val ((pos : Int) - 31 + (k : Int)) ch))))).1),
   (l.getD (pos - base) ([], 0)).2)

/-- The last n of a list. -/
def lastOf {α : Type} (n : Nat) (l : List α) : List α := l.drop (l.length - n)

/-- What a sample adds to its stream: the new samples as delayed, and the stream after them. -/
def Stream.audioStep (x : Stream) (rout gain shift : Nat) (last : Bool) (new : List (List Nat × Nat)) :
    List (List Nat × Nat) × Stream :=
  let buf := x.pcm ++ new
  let total := outTotal x.rate rout (x.inCount + new.length) last
  let outs := tab (total - x.outCount) (fun k =>
    let (v, tag) := resampled x.rate rout (x.inCount - x.pcm.length) buf x.chans (x.outCount + k)
    (v.map (fun y => fMul y gain), tag))
  let all := x.outs ++ outs
  let first := x.outCount - x.outs.length
  let line := tab (total - x.outCount) (fun k =>
    let n := x.outCount + k
    if n < shift + first then (List.replicate x.chans 0, 0) else all.getD (n - shift - first) ([], 0))
  (line, { x with
    inCount := x.inCount + new.length, outCount := max total x.outCount, pcm := lastOf 64 buf
    outs := lastOf 65535 all, line := lastOf 4096 (x.line ++ line) })

/-! ### Tensor and mask -/

/-- Frames whose windows end within `n` samples, or at the stream's end those that begin there. -/
def framesIn (p : List Byte) (n : Nat) (last : Bool) : Nat :=
  if last then ceilDiv n (max 1 (prHop p)) else if n < prWin p then 0 else (n - prWin p) / max 1 (prHop p) + 1

/-- The new frames of a sample, each the stream's samples of its window: from `x`, the stream before, its delayed
samples `line`. -/
def newFrames (p : List Byte) (x : Stream) (last : Bool) (line : List (List Nat × Nat)) : List (List (List Nat × Nat)) :=
  let n0 := framesIn p x.outCount false
  let n1 := framesIn p (x.outCount + line.length) last
  let buf := x.line ++ line
  let base := x.outCount - x.line.length
  tab (n1 - n0) (fun k => tab (prWin p) (fun i => buf.getD ((n0 + k) * prHop p + i - base) (List.replicate x.chans 0, 0)))

/-- Bytes of values in OUT_FMT. -/
def audioBytes (b : List Byte) (l : List Nat) : List Byte :=
  (l.map (fun v => toLe (fmtBytes (sbFmt b) 1) (if sbFmt b = fmFP32 then v else (convFp (ffmtOf (sbFmt b)) v).1))).flatten

/-- The tensor of a sample, its frames or samples, and its mask: with MEL channels × frames × NMEL values and a mark
per frame, else samples × channels and a mark per 256 samples. -/
def audioOut (b p : List Byte) (x : Stream) (last : Bool) (line : List (List Nat × Nat)) : List Byte × Nat × List Byte :=
  if sbMel b then
    let fr := newFrames p x last line
    (audioBytes b ((List.range x.chans).flatMap (fun ch => fr.flatMap (fun w => melFrame b p (w.map (fun v => v.1.getD ch 0))))),
     fr.length, fr.map (fun w => BitVec.ofNat 8 (natMax (w.map (fun v => v.2)))))
  else
    (audioBytes b (line.flatMap (fun v => v.1)), line.length,
     (groupsOf 256 line).map (fun g => BitVec.ofNat 8 (natMax (g.map (fun v => v.2)))))

end Sys2Proof.Machine
end

