-- ==== Sys2Proof/Machine/Media.lean ====
section
/-! DEFINITION. The media engine (R255 to R285): MEDIA_OPEN, MEDIA_SUBMIT, MEDIA_CLOSE, the start, end,
delivery and abandonment of samples, and the loss of an engine. -/

namespace Sys2Proof.Machine

/-! ### Other contexts, R284 -/

/-- The engine that takes over from that of die d. -/
def mateDie (d : Die) : Die := ⟨(d.val + 4) % 8, Nat.mod_lt _ (by decide)⟩

/-- The free stream context of an engine with the highest index: it is OFF and serves no moved handle; an
engine that is OFF has none. -/
def State.freeStream (s : State) (e : Die) : Option (Fin 256) :=
  if s.fnIs (.media e) .off then none
  else (List.finRange 256).reverse.find? (fun h =>
    s.fnIs (.stream e h) .off && !(s.fn (.stream e h)).pendingOn && !(s.stream e h).moved)

/-! ### MEDIA_OPEN checks, R258 Table 6 -/

/-- Largest width, height, depth and units of a codec; none for an undefined one. -/
def codecMax : Nat → Option (Nat × Nat × Nat × Nat)
  | 0x01 => some (4096, 2304, 10, 255)
  | 0x02 => some (8192, 4320, 10, 255)
  | 0x03 => some (8192, 4352, 10, 255)
  | 0x04 => some (8192, 8192, 16, 255)
  | 0x05 => some (8192, 8192, 16, 255)
  | 0x06 => some (8192, 8192, 8, 255)
  | 0x07 => some (8192, 8192, 16, 255)
  | 0x08 => some (8, 0, 32, 255)
  | 0x09 => some (8, 0, 255, 255)
  | 0x0A => some (64, 0, 32, 255)
  | 0x82 => some (4096, 2304, 10, 255)
  | 0x84 => some (8192, 8192, 16, 255)
  | 0x85 => some (8192, 8192, 16, 255)
  | 0x88 => some (8, 0, 24, 255)
  | _ => none

/-- Check 0x0301: reserved bits, and codes that Tables 4 and 5 do not define. FREE_SEM, FULL_SEM, CODEC and
KIND have checks of their own (log 45). -/
def openReserved (b p : List Byte) : Bool :=
  decide (bits (leAt b 1 1) 0 0 ≠ 0) || decide (bits (leAt b 1 1) 7 5 ≠ 0) || decide (1 < sbOrder b) ||
  decide (bits (leAt b 0x11 1) 7 4 ≠ 0) || sbResize b == 3 || decide (bits (leAt b 0x12 1) 7 5 ≠ 0) ||
  decide (4 < sbMatrix b) || decide (leAt b 0x13 1 ≠ 0) || decide (leAt b 0x26 2 ≠ 0) ||
  !zeroIn b 0x45 3 || !zeroIn b 0x7C 4 || decide (sbSlots b = 0) || decide (256 < sbSlots b) ||
  !([fmBF16, fmFP16, 0x08, fmU8, fmU16].contains (sbFmt b)) ||
  (List.range 8).any (fun a => !zeroIn p (0x21 + 16 * a) 3 || !zeroIn p (0x2C + 16 * a) 4) ||
  !zeroIn p 0xB3 1 || !zeroIn p 0xB8 8 || !zeroIn p 0xC2 318 || decide (512 < leAt p 0xC0 2) ||
  (sbCodec b == 0x82 && decide (51 < leAt p 0xB0 1)) ||
  (sbCodec b == 0x84 && (decide (8 < leAt p 0xB1 1) || decide (1 < leAt p 0xB2 1)))

/-- Check 0x0303. -/
def openLimits (b : List Byte) : Bool :=
  match codecMax (sbCodec b) with
  | none => true
  | some (w, h, dp, u) =>
    decide (w < sbMaxW b) || decide (h < sbMaxH b) || decide (dp < sbMaxDepth b) || decide (u < sbMaxUnits b) ||
    decide (sbMaxW b = 0) || (sbMaxH b == 0 && !isAudio (sbCodec b)) || decide (sbMaxDepth b = 0) ||
    decide (sbMaxUnits b = 0)

/-- The rates of R271, in Hz. -/
def audioRates : List Nat := [8000, 16000, 22050, 24000, 32000, 44100, 48000, 96000, 192000, 384000]

/-- Mel parameters outside Table 5. -/
def melBad (b p : List Byte) : Bool :=
  let nfft := leAt p 0xA0 2
  let fmin := leAt p 0xA8 4
  let fmax := leAt p 0xAC 4
  !([256, 512, 1024, 2048, 4096].contains nfft) ||
  decide (leAt p 0xA2 2 = 0) || decide (nfft < leAt p 0xA2 2) ||
  decide (leAt p 0xA4 2 = 0) || decide (leAt p 0xA2 2 < leAt p 0xA4 2) ||
  decide (leAt p 0xA6 2 < 16) || decide (256 < leAt p 0xA6 2) ||
  fLt fmin 0 || !fLt fmin fmax || fLt (fFrac (sbRate b) 2) fmax

/-- Check 0x0304: R270, the sizes that RESIZE needs, the output rates of R271, mel parameters, and the raw HWC input of a
picture encoder (R266). -/
def openOutput (b p : List Byte) : Bool :=
  let raw := sbFmt b == fmU8 || sbFmt b == fmU16
  let audio := isAudio (sbCodec b)
  (raw && (decide (sbMatrix b ≠ 0) || decide (sbResize b ≠ 0) || sbMel b || !prNormOff p ||
    decide (augKind p 4 ≠ 0) || decide (augKind p 5 ≠ 0))) ||
  (sbFmt b == fmU8 && decide (8 < sbMaxDepth b)) ||
  (sbResize b == 2 && (decide (sbOutW b = 0) || decide (sbOutH b = 0) ||
    decide (sbCropW b % max 1 (sbOutW b) ≠ 0) || decide (sbCropH b % max 1 (sbOutH b) ≠ 0))) ||
  (sbResize b == 1 && (decide (sbOutW b = 0) || decide (sbOutH b = 0))) ||
  (sbResize b == 0 && (decide (sbOutW b ≠ 0) || decide (sbOutH b ≠ 0))) ||
  decide (8192 < sbOutW b) || decide (8192 < sbOutH b) ||
  (if audio then !audioRates.contains (sbRate b) else sbMel b || decide (sbRate b ≠ 0)) ||
  (audio && sbMel b && melBad b p) ||
  (isEncode (sbCodec b) && !audio && (!raw || sbChw b))

/-- Bytes of the input of an encode of pictures with `c` components, R266. -/
def rawBytes (b : List Byte) (c : Nat) : Nat :=
  sbMaxH b * (ceilDiv (sbMaxW b * c * fmtBytes (sbFmt b) 1) 64 * 64)

/-- Raw size of an encode's input of `len` bytes: of a picture, that of the most components whose tensor the input holds
(R264, R266, log 45). -/
def rawSize (b : List Byte) (len : Nat) : Nat :=
  if isAudio (sbCodec b) then len
  else (([4, 3, 1].map (rawBytes b)).find? (fun r => decide (r ≤ len))).getD (rawBytes b 1)

/-- The largest encode of a sample of a raw size beyond its header, R266. -/
def encodeBound (raw : Nat) : Nat := raw * 1025 / 1024 + 4096

/-- The slot size that SLOT_BYTES must reach: an open does not know whether the input is 4:0:0 or has an alpha
plane, and takes C = 3; nor how many samples an audio unit has, and takes none (log 45). -/
def slotNeed (b : List Byte) : Nat :=
  if isAudio (sbCodec b) then 128 + (if isEncode (sbCodec b) then encodeBound 0 else 0)
  else if isEncode (sbCodec b) then 128 + encodeBound (rawBytes b 3)
  else 128 + tensorBytes b 3 + maskBytes b

/-- An area in HBM inside a context's ranges. -/
def State.hbmArea (s : State) (n : CtxId) (a len : Nat) : Bool := inHbm a && s.jobMay n a len

/-- Check 0x0305. -/
def State.openAreas (s : State) (n : CtxId) (b : List Byte) : Bool :=
  decide (sbSlotBytes b < slotNeed b) || decide (sbSlotBytes b % 4096 ≠ 0) ||
  decide (sbOutAddr b % 4096 ≠ 0) || !s.jobMay n (sbOutAddr b) (sbSlots b * sbSlotBytes b) ||
  decide (sbLateMax b = 0) || decide (16777216 < sbLateMax b) ||
  decide (sbDmgCount b = 0) || decide (16777216 < sbDmgCount b) ||
  decide (sbLateAddr b % 64 ≠ 0) || !s.hbmArea n (sbLateAddr b) (16 * sbLateMax b) ||
  decide (sbDmgAddr b % 64 ≠ 0) || !s.hbmArea n (sbDmgAddr b) (64 * sbDmgCount b) ||
  decide (sbParam b % 64 ≠ 0) || !s.jobMay n (sbParam b) 1024 ||
  decide (sbWork b % 4096 ≠ 0) || !s.hbmArea n (sbWork b) (sbWorkBytes b)

/-- WORK_BYTES of R257. -/
def workNeed (b : List Byte) : Nat :=
  let area := sbMaxW b * sbMaxH b
  let w := ceilDiv (sbMaxDepth b) 8
  if isAudio (sbCodec b) then 2 ^ 20
  else if isInter (sbCodec b) then 17 * area * 3 * w + 2 ^ 20
  else 2 * area * 4 * w + 2 ^ 20

/-- Whether an AUG entry has LO above HI, or an undefined KIND. -/
def augBad (p : List Byte) (a : Nat) : Bool :=
  decide (1 < augKind p a) ||
    (if augFp a then fLt (augHi p a) (augLo p a) else decide (sgn 32 (augHi p a) < sgn 32 (augLo p a)))

/-- The first failing check of Table 6 but the last. -/
def State.openCheck (s : State) (n : CtxId) (b p : List Byte) : Option W16 :=
  firstSome [
    failIf (openReserved b p) 0x0301,
    failIf (codecMax (sbCodec b)).isNone 0x0302,
    failIf (openLimits b) 0x0303,
    failIf (openOutput b p) 0x0304,
    failIf (s.openAreas n b) 0x0305,
    failIf (decide (sbWorkBytes b < workNeed b)) 0x0306,
    failIf (decide (sbFreeSem b / 2 ^ 11 ≠ 0) || decide (sbFullSem b / 2 ^ 11 ≠ 0)) 0x0307,
    failIf (decide (sbBudgetAbs b < 1000)) 0x0308,
    failIf (if sbOrder b = 1 then decide (sbN b = 0) || decide (2 ^ 40 < sbN b) else decide (sbN b ≠ 0)) 0x0309,
    failIf ((List.range 8).any (augBad p)) 0x030A]

/-! ### Start and drain of a stream -/

/-- One round step of the permutation π of R273. -/
def piPass (n h : Nat) (k : Nat × Nat) (epoch x : Nat) : Nat :=
  let (hi, lo) := (List.range 4).foldl (fun (p : Nat × Nat) j =>
    let f := (philox (p.2, 0x80000000 + j, epoch % 2 ^ 32, epoch / 2 ^ 32 % 2 ^ 32) k).1 % 2 ^ h
    (p.2, p.1 ^^^ f)) (x / 2 ^ h % 2 ^ (n - h), x % 2 ^ h)
  hi * 2 ^ h + lo

/-- The cycle walk of R273. -/
def piWalk (n h : Nat) (k : Nat × Nat) (epoch size : Nat) : Nat → Nat → Nat
  | 0, x => x
  | fuel + 1, x =>
    let y := piPass n h k epoch x
    if y < size then y else piWalk n h k epoch size fuel y

/-- ceil_log2. -/
def ceilLog2 (n : Nat) : Nat := if n ≤ 1 then 0 else Nat.log2 (n - 1) + 1

/-- π(i), R273; a walk leaves a cycle of at most 2^n steps. -/
def mediaPi (i size seed epoch : Nat) : Nat :=
  let n := max 2 (ceilLog2 size)
  let n := n + n % 2
  piWalk n (n / 2) (mediaKey seed) epoch size (2 ^ n) i

/-- Accepts a sample of a stream that is ON: in shuffle order it must carry π(i), else it completes with
0x0312 and takes no position (R273). -/
def acceptSample (d : Die) (h : Fin 256) (m : Sample) (s : State) : State :=
  let x := s.stream d h
  if sbOrder x.block = 1 then
    if m.sample ≠ mediaPi x.posInEpoch (sbN x.block) (sbSeed x.block) x.epoch then s.complete m.seq stBadDesc 0x0312
    else
      let wrap := decide (x.posInEpoch + 1 = sbN x.block)
      s.modStream d h (fun x =>
        { x with queue := x.queue ++ [{ m with epoch := x.epoch }]
                 posInEpoch := if wrap then 0 else x.posInEpoch + 1
                 epoch := if wrap then (x.epoch + 1) % 2 ^ 64 else x.epoch })
  else s.modStream d h (fun x => { x with queue := x.queue ++ [{ m with epoch := x.epoch }] })

/-- Whether a waiting sample is accepted now: its stream is ON, or drains and the sample was fetched before the close,
and no MEDIA_SUBMIT fetched earlier has still to start (R260, R272). -/
def State.mayAccept (s : State) (d : Die) (h : Fin 256) (m : Sample) : Bool :=
  (s.fnIs (.stream d h) .on || s.fnIs (.stream d h) .draining) && (s.stream d h).beforeClose m.seq &&
    (s.submitsHeld d h).all (fun q => decide (m.seq < q))

/-- Accepts the waiting samples of a stream that may be, in the order of their fetch. -/
def acceptWaiting (d : Die) (h : Fin 256) (s : State) : State :=
  (s.stream d h).waiting.foldl (fun s m =>
    if s.mayAccept d h m then
      acceptSample d h m (s.modStream d h (fun y => { y with waiting := y.waiting.filter (fun z => z.seq != m.seq) }))
    else s) s

/-- What a stream's work area holds is the engine's own: undefined to a reader (R257). -/
def spoilWork (d : Die) (h : Fin 256) (s : State) : State :=
  s.scramble (sbWork (s.stream d h).block) (sbWorkBytes (s.stream d h).block)

/-- A stream's start-up ends: its MEDIA_OPEN completes (R259), and waiting samples fetched before a close are
accepted (R260). -/
def streamStarted (d : Die) (h : Fin 256) (s : State) : State :=
  let x := s.stream d h
  let s := spoilWork d h (s.modStream d h (fun x => { x with openSeq := none }))
  let s := match x.openSeq with
    | some q => s.answer q stOk 0
    | none => s
  acceptWaiting d h s

/-- A stream that begins with a block, for a descriptor of a context. -/
def freshStream (x : Stream) (n : CtxId) (block param : List Byte) (q : Nat) : Stream :=
  { handle := x.handle, moved := x.moved, owner := some n, block, param, openSeq := some q
    waiting := x.waiting, epoch := sbEpoch block }

/-- A stream's drain ends (R259, R260): its MEDIA_CLOSEs complete; with PENDING_ON the waiting MEDIA_OPEN's
block applies, else every waiting MEDIA_SUBMIT completes with CANCELLED and a moved handle is routed home. -/
def streamDrained (d : Die) (h : Fin 256) (restart : Bool) (s : State) : State :=
  let x := s.stream d h
  let s := x.closeSeqs.foldl (fun s q => s.answer q stOk 0) s
  match restart, x.next, x.owner with
  | true, some (block, param, q), some n => s.modStream d h (fun x => freshStream x n block param q)
  | _, _, _ =>
    let s := x.waiting.foldl (fun s m => s.answer m.seq stCancelled 0) s
    s.modStream d h (fun _ => {})

/-! ### MEDIA_OPEN -/

/-- The stream and parameter block that a MEDIA_OPEN read at its fetch. -/
def Desc.openBlock (x : Desc) : List Byte := slice x.bytes 64 128
def Desc.openParam (x : Desc) : List Byte := slice x.bytes 192 1024

/-- The fetch of a MEDIA_OPEN reads the stream block and the parameter block once (R256) and makes the checks
of Table 6 that rest on them; a block at an illegal address is a job fault. -/
def admitOpen (x : Desc) (s : State) : State :=
  let n := ringCtx x.ring
  let a := leAt x.bytes 0x08 8
  match s.readFault n a 128 with
  | some (c, z) => (s.raise c hubSideDie [n] z).modDesc x.seq (fun y => { y with held := true })
  | none =>
    let b := s.devRead a 128
    let s := s.jobRead n none a 128
    let reads := s.jobMay n (sbParam b) 1024
    let p := if reads then s.devRead (sbParam b) 1024 else List.replicate 1024 0
    let s := if reads then s.jobRead n none (sbParam b) 1024 else s
    match s.openCheck n b p with
    | some dt => s.complete x.seq stBadDesc dt
    | none =>
      match s.badIn (sbParam b) 1024 with
      | some c => (s.raise causeMem hubSideDie [n] c).modDesc x.seq (fun y => { y with held := true })
      | none => s.modDesc x.seq (fun y => { y with bytes := y.bytes ++ b ++ p })

/-- Opens a stream context that is OFF for a handle. -/
def openOn (d : Die) (h : Fin 256) (moved : Bool) (x : Desc) (s : State) : State :=
  let f := FuncId.stream d h
  let s := s.setFn f (s.fn f).enable
  s.modStream d h (fun y => freshStream { y with handle := if moved then leAt x.bytes 2 2 else 0, moved }
    (ringCtx x.ring) x.openBlock x.openParam x.seq)

/-- The engine that a MEDIA_OPEN needs is between OFF and ON, so that the open waits (R14, R24). -/
def State.mediaWaits (s : State) (hd : Nat) : Bool :=
  let e := match s.mediaRoute hd with
    | some (d, _) => d
    | none => mateDie (homeDie hd)
  !s.homeTaken hd && (s.fnIs (.media e) .starting || s.fnIs (.media e) .draining)

/-- A MEDIA_OPEN whose blocks pass starts: it waits for an engine that starts or drains; else check 0x030B, then the
stream opens, or PENDING_ON is set in DRAINING (R258, R259, R284). -/
def startOpen (seq : Nat) (s : State) : State :=
  match s.desc seq with
  | none => s
  | some x =>
    let hd := leAt x.bytes 2 2
    if x.bytes.length ≠ 1216 then s
    else if s.mediaWaits hd then s.modDesc seq (fun y => { y with held := false })
    else
      let s := s.markStarted seq
      let n := ringCtx x.ring
      if s.homeTaken hd && (s.movedTo hd).isNone then s.complete seq stBadDesc 0x030B
      else match s.mediaRoute hd with
        | none =>
          match s.freeStream (mateDie (homeDie hd)) with
          | some h => openOn (mateDie (homeDie hd)) h true x s
          | none => s.complete seq stCancelled 0
        | some (d, h) =>
          let f := s.fn (.stream d h)
          let y := s.stream d h
          match f.st with
          | .off => openOn d h false x s
          | .draining =>
            if f.pendingOn ∨ y.owner ≠ some n then s.complete seq stBadDesc 0x030B
            else (s.setFn (.stream d h) f.enable).modStream d h (fun y => { y with next := some (x.openBlock, x.openParam, seq) })
          | _ => s.complete seq stBadDesc 0x030B

/-- An engine has changed its state: MEDIA_OPENs that waited for it are tried again in fetch order. -/
def mediaRetry (s : State) : State :=
  ((s.descs.filter (fun x => x.ty == 0x09 && decide (x.st = .waiting) && !x.held)).map (fun x => x.seq)).foldl
    (fun s q => startOpen q s) s

/-- MEDIA_OPEN. -/
def execMediaOpen (r : RingId) (s : State) : Host.Outcome State Fault Refusal :=
  .next (fetchThen r (tyIs 0x09) noCheck admitOpen startOpen s)

/-! ### MEDIA_SUBMIT -/

/-- OVERRIDE of a MEDIA_SUBMIT. -/
def Desc.hasOvr (x : Desc) : Bool := decide (bits (leAt x.bytes 1 1) 2 2 = 1)

/-- Checks 0x0313 and 0x0314 of R262. -/
def State.submitCheck (s : State) (x : Desc) : Option W16 :=
  let n := ringCtx x.ring
  let o := s.devRead (leAt x.bytes 0x28 8) 64
  firstSome [
    failIf (!s.jobMay n (leAt x.bytes 0x10 8) (leAt x.bytes 0x18 4)) 0x0313,
    failIf (x.hasOvr && !s.jobMay n (leAt x.bytes 0x28 8) 64) 0x0313,
    failIf (x.hasOvr && !zeroIn o 1 31) 0x0314]

/-- The sample of a MEDIA_SUBMIT. -/
def State.sampleFrom (s : State) (x : Desc) : Sample :=
  { seq := x.seq, sample := leAt x.bytes 0x08 8, src := leAt x.bytes 0x10 8, len := leAt x.bytes 0x18 4
    capture := leAt x.bytes 0x20 8
    ovr := if x.hasOvr then some (s.devRead (leAt x.bytes 0x28 8) 64) else none
    last := decide (bits (leAt x.bytes 1 1) 1 1 = 1), epoch := 0 }

/-- A sample among a stream's waiting ones, in the order of their fetch. -/
def insertSample (m : Sample) (l : List Sample) : List Sample :=
  l.takeWhile (fun z => decide (z.seq < m.seq)) ++ [m] ++ l.dropWhile (fun z => decide (z.seq < m.seq))

/-- Reads the override block of a MEDIA_SUBMIT; an uncorrectable codeword in it is a job fault (R290). -/
def readOvr (x : Desc) (k : State → State) (s : State) : State :=
  let a := leAt x.bytes 0x28 8
  let n := ringCtx x.ring
  if x.hasOvr && s.jobMay n a 64 then
    match s.badIn a 64 with
    | some c => s.raise causeMem hubSideDie [n] c
    | none => k (s.jobRead n none a 64)
  else k s

/-- What a MEDIA_SUBMIT that has begun comes to: refused from another context or by R262, CANCELLED for a stream that is
OFF or served nowhere, else a sample that waits to be accepted (R255, R260, R262). -/
def takeSubmit (seq : Nat) (x : Desc) (s : State) : State :=
  match s.mediaRoute (leAt x.bytes 2 2) with
  | none =>
    readOvr x (fun s => match s.submitCheck x with
      | some dt => s.complete seq stBadDesc dt
      | none => s.complete seq stCancelled 0) s
  | some (d, h) =>
    let off := s.fnIs (.stream d h) .off
    if !off && decide ((s.stream d h).owner ≠ some (ringCtx x.ring)) then s.complete seq stBadDesc 0x0311
    else readOvr x (fun s => match s.submitCheck x with
      | some dt => s.complete seq stBadDesc dt
      | none =>
        if off then s.complete seq stCancelled 0
        else s.modStream d h (fun y => { y with waiting := insertSample (s.sampleFrom x) y.waiting })) s

/-- A MEDIA_SUBMIT starts: its own check and then every sample that now may be is accepted (R260, R272, R273). -/
def startSubmit (seq : Nat) (s : State) : State :=
  match s.desc seq with
  | none => s
  | some x =>
    let s := takeSubmit seq x (s.markStarted seq)
    match s.mediaRoute (leAt x.bytes 2 2) with
    | some (d, h) => acceptWaiting d h s
    | none => s

/-- MEDIA_SUBMIT. -/
def execMediaSubmit (r : RingId) (s : State) : Host.Outcome State Fault Refusal :=
  .next (fetchThen r (tyIs 0x08) noCheck (fun _ s => s) startSubmit s)

/-! ### MEDIA_CLOSE -/

/-- A MEDIA_CLOSE starts: the disable of its stream; it completes when the stream is OFF, at once when it
already is. One that clears PENDING_ON ends the MEDIA_OPEN that waited for the restart with CANCELLED
(log 45). -/
def startClose (seq : Nat) (s : State) : State :=
  match s.desc seq with
  | none => s
  | some x =>
    let s := s.markStarted seq
    let n := ringCtx x.ring
    match s.mediaRoute (leAt x.bytes 2 2) with
    | none => s.complete seq stOk 0
    | some (d, h) =>
      let f := s.fn (.stream d h)
      if f.st = .off then s.complete seq stOk 0
      else if (s.stream d h).owner ≠ some n then s.complete seq stBadDesc 0x0311
      else
        let s := match f.pendingOn, (s.stream d h).next with
          | true, some (_, _, q) => (s.modStream d h (fun y => { y with next := none })).complete q stCancelled 0
          | _, _ => s
        (s.setFn (.stream d h) f.disable).modStream d h (fun y => { y with closeSeqs := y.closeSeqs ++ [seq] })

/-- MEDIA_CLOSE. -/
def execMediaClose (r : RingId) (s : State) : Host.Outcome State Fault Refusal :=
  .next (fetchThen r (tyIs 0x0A) noCheck (fun _ s => s) startClose s)

/-! ### Starting a sample -/

/-- The memory that a sample of a stream is read from and written to: its source, its slot, and the entries of the late
list and the damage ring that come next. -/
def Stream.sampleRuns (x : Stream) (m : Sample) (slot : Nat) : List (Nat × Nat) :=
  let b := x.block
  [(m.src, m.len), (sbOutAddr b + slot * sbSlotBytes b, sbSlotBytes b),
   (sbLateAddr b + 16 * (x.late % sbLateMax b), 16)] ++
    tab (min 16 (sbDmgCount b)) (fun k => (sbDmgAddr b + 64 * ((x.dmg + k) % sbDmgCount b), 64))

/-- Whether the media island runs, and the channels take what a sample reads and writes (R19). -/
def State.sampleUp (s : State) (d : Die) (h : Fin 256) (m : Sample) (slot : Nat) : Bool :=
  s.clockRuns d islMedia && ((s.stream d h).sampleRuns m slot).all (fun r => s.memRuns (some d) r.1 r.2)

/-- The first sample of a stream that could take a slot but for its credit: the engine and the stream run, the owner
is not pre-empted, fewer than min(64, S) samples hold slots, an inter-coded stream decodes none (R261, R263,
R272). -/
def State.slotReady (s : State) (d : Die) (h : Fin 256) : Option (Sample × CtxId) :=
  let x := s.stream d h
  match x.queue.find? (fun m => decide (m.st = .queued)), x.owner with
  | some m, some n =>
    let b := x.block
    let begun := x.queue.filter (fun m => decide (m.st ≠ .queued))
    let run := (s.fnIs (.media d) .on || s.fnIs (.media d) .draining) &&
      (s.fnIs (.stream d h) .on || s.fnIs (.stream d h) .draining) && s.recovery.isNone
    let room := decide (begun.length < min 64 (sbSlots b)) &&
      !(isInter (sbCodec b) && begun.any (fun m => decide (m.st = .decoding)))
    if run && !s.ctxPreempted n && room && s.sampleUp d h m (x.started % max 1 (sbSlots b)) then some (m, n) else none
  | _, _ => none

/-- The value of a stream's FREE_SEM. -/
def State.freeCredits (s : State) (n : CtxId) (b : List Byte) : Nat :=
  s.sem n (bits (sbFreeSem b) 10 8) (bits (sbFreeSem b) 7 0)

/-- The sample that may take a slot now: with a credit available (R263), from the Newel that holds the semaphore (R437,
R438). -/
def State.nextSample (s : State) (d : Die) (h : Fin 256) : Option (Sample × CtxId) :=
  (s.slotReady d h).filter (fun z => decide (0 < s.freeCredits z.2 (s.stream d h).block) &&
    s.newelUp (semDie (sbFreeSem (s.stream d h).block)))

/-- Whether a sample is stale when it is next to take a slot, R283. -/
def State.staleSample (s : State) (b : List Byte) (m : Sample) : Bool :=
  sbLive b && decide (sbMaxAge b ≠ 0) && decide (m.capture ≠ 0) && decide (m.capture + sbMaxAge b * 1000 < s.now)

/-- Changes the sample of a descriptor in a stream. -/
def State.modSample (s : State) (d : Die) (h : Fin 256) (seq : Nat) (f : Sample → Sample) : State :=
  s.modStream d h (fun x => { x with queue := updIf x.queue (fun m => m.seq == seq) f })

/-- The sample before one in delivery order, none where that has been delivered. -/
def Stream.before (x : Stream) (seq : Nat) : Option Sample := (x.queue.takeWhile (fun z => z.seq != seq)).getLast?

/-- Whether the sample before one in delivery order has its output. -/
def Stream.prevReady (x : Stream) (seq : Nat) : Bool :=
  match x.before seq with
  | some m => decide (m.st = .decoded)
  | none => true

/-- The output picture before a sample in delivery order (R277). -/
def Stream.prevOf (x : Stream) (seq : Nat) : Option Pic :=
  match x.before seq with
  | some m => if m.st = .decoded then m.pic else none
  | none => x.prev

/-- Whether a codec's pictures are decoded from one another. -/
def decodesInter (codec : Nat) : Bool := isInter codec && !isEncode codec

/-- Whether a header claims more than the stream's maxima, R279. -/
def overClaim (b : List Byte) (c : HeaderClaim) : Bool :=
  !isEncode (sbCodec b) &&
    (decide (sbMaxW b < c.width) || (!isAudio (sbCodec b) && decide (sbMaxH b < c.height)) ||
     decide (sbMaxDepth b < c.depth) || decide (sbMaxUnits b < c.units))

/-- The size that a sample is taken to have: an encode's and a refused header's are the stream's maxima. -/
def boundClaim (b : List Byte) (c : HeaderClaim) : HeaderClaim :=
  if isEncode (sbCodec b) then { c with width := sbMaxW b, height := sbMaxH b }
  else if overClaim b c then
    { c with width := sbMaxW b, height := if isAudio (sbCodec b) then c.height else sbMaxH b, depth := min c.depth (sbMaxDepth b) }
  else c

/-! ### Damage, R276, R277 -/

/-- A damage record, R276 Table 12; CONCEAL is 0 previous picture, 1 mid-grey, 2 silence. -/
def damageBytes (codec sample conceal extent : Nat) (e : Damage) : List Byte :=
  toLe 8 sample ++ toLe 8 e.byteOffset ++ toLe 4 e.unit ++ toLe 4 e.part ++ toLe 4 e.blockX ++ toLe 4 e.blockY ++
    toLe 2 e.error ++ toLe 1 codec ++ toLe 1 conceal ++ toLe 4 extent ++ toLe 8 e.tDetect ++ toLe 16 0

/-- A write of an engine for its stream's owner; one that may not be made is a job fault of the owner (R26, R291). -/
def State.engineWrite (s : State) (d : Die) (n : CtxId) (a : Nat) (bs : List Byte) : State :=
  match s.writeFault n a bs.length with
  | some (c, z) => s.raise c d.val [n] z
  | none => (s.putBytes a bs).chargeBytes n (some d) a bs.length

/-- Writes the damage records of a sample, at most 16, and counts its events (R276). -/
def State.writeDamage (s : State) (d : Die) (h : Fin 256) (n : CtxId) (m : Sample) (conceal : Nat) (extent : Damage → Nat)
    (l : List Damage) : State :=
  let x := s.stream d h
  let s := (l.take 16).zipIdx.foldl (fun s (e, k) =>
    s.engineWrite d n (sbDmgAddr x.block + 64 * ((x.dmg + k) % sbDmgCount x.block))
      (damageBytes (sbCodec x.block) m.sample conceal (extent e) e)) s
  s.modStream d h (fun y => { y with dmg := y.dmg + min 16 l.length })

/-- The damage events of a sample: the refusal of its header, or what its decode met, each detected within it. -/
def damageOf (m : Sample) (ev : DecodeEv) (now : Nat) : List Damage :=
  if m.refused then
    [{ byteOffset := m.claim.offset, unit := 0, part := 0xFFFFFFFF, blockX := 0, blockY := 0, error := 5, tDetect := m.tStart }]
  else ev.damage.map (fun e => { e with tDetect := max m.tStart (min e.tDetect now) })

/-- A sample with what its damage events make of it. -/
def withDamage (m : Sample) (ev : DecodeEv) (first : Nat) : Sample :=
  { m with concealed := m.refused || m.lost || !ev.damage.isEmpty, dmgFirst := first
           dmgN := if m.refused then 1 else ev.damage.length }

/-! ### Pictures -/

/-- What conceals a whole sample, and its mark: the previous picture, of any size where the header was refused (R279),
else mid-grey. -/
def Stream.wholeConceal (x : Stream) (m : Sample) : Pic × Nat :=
  let q := claimShape m.claim
  match if m.refused then x.prevOf m.seq else sameSize q (x.prevOf m.seq) with
  | some p => (p, 1)
  | none => (picGrey q m.claim.comps, 2)

/-- Whether a sample predicts from concealed data (R278). -/
def Stream.refHit (x : Stream) (m : Sample) (ev : DecodeEv) : Bool :=
  decodesInter (sbCodec x.block) && x.refBad && !m.claim.intra && !ev.refRegion.isEmpty

/-- The picture of a sample after its concealment, and the marks of its regions (R277 to R279). -/
def Stream.pictureOf (x : Stream) (m : Sample) (ev : DecodeEv) (src : List Byte) : Pic × List (List Rect × Nat) :=
  if m.refused || m.lost then
    let (q, k) := x.wholeConceal m
    (q, [([{ x := 0, w := q.w, h := q.h }], k)])
  else
    let q := picBuild (claimShape m.claim) m.claim.comps (Config.decodePicture x.block x.param src m.hist)
    let rs := ev.damage.flatMap (fun e => e.region)
    let k := if (sameSize q (x.prevOf m.seq)).isSome then 1 else 2
    (picConceal q (x.prevOf m.seq) rs, [(rs, k), (if x.refHit m ev then ev.refRegion else [], 3)])

/-! ### Taking a slot -/

/-- Whether what a codec keeps of earlier samples counts for a decode or encode: pictures of H.264, HEVC and AV1, Opus,
and encodes (R253, R272). -/
def keepsHist (codec : Nat) : Bool := isInter codec || codec == 0x09 || isEncode codec

/-- Start times of the pictures of the last second, with those of a sample that starts now; of a refused header, whose
units do not count, one (R254, R279). -/
def Stream.startsWith (x : Stream) (claim : HeaderClaim) (now : Nat) : List Nat :=
  x.starts.filter (fun t => decide (now < t + 10 ^ 9)) ++
    List.replicate (if overClaim x.block claim then 1 else max 1 claim.units) now

/-- A sample as its decode takes it, with what its headers make of it (R278, R279). -/
def Stream.begun (x : Stream) (claim : HeaderClaim) (m : Sample) (now : Nat) : Sample :=
  let b := x.block
  let refused := overClaim b claim
  { m with st := .decoding, slot := x.started % sbSlots b, tStart := now, claim := boundClaim b claim
           hist := if keepsHist (sbCodec b) then x.hist else 0
           refused, lost := decodesInter (sbCodec b) && !refused && x.refLost && !claim.intra
           concealed := refused, dmgFirst := x.dmg, pic := none }

/-- A picture becomes the stream's reference: what concealed it stays in it (R278, R279), and its size is the last. -/
def Stream.referred (x : Stream) (m : Sample) (bad : Bool) (w h : Nat) (q : Pic) (src : List Byte) : Stream :=
  let inter := decodesInter (sbCodec x.block)
  { x with refBad := inter && (bad || (x.refBad && !m.claim.intra)), lastSize := some (w, h)
           hist := if inter then Config.codecHistory x.block x.param src m.hist (some q) else x.hist }

/-- Damage records of a picture; EXTENT is what an event marks of the mask at its output (R276, R279). -/
def pictureDamage (d : Die) (h : Fin 256) (m : Sample) (n : CtxId) (ev : DecodeEv) (q : Pic) (s : State) : State :=
  let x := s.stream d h
  let aug := augValue x.block x.param m q.w q.h
  let extent (e : Damage) : Nat :=
    let mask := maskOf x.block aug q 0 (markAt [(e.region, 1)])
    if m.refused then mask.length else marksSet mask
  let conceal := if (sameSize q (x.prevOf m.seq)).isSome || (m.refused && (x.prevOf m.seq).isSome) then 0 else 1
  s.writeDamage d h n m conceal extent (damageOf m ev s.now)

/-- The decode without output of a stale picture that others may depend on: its damage is concealed and recorded, and it
stays as a reference like an output picture (R276, R278, R283). -/
def dropDecode (d : Die) (h : Fin 256) (claim : HeaderClaim) (m : Sample) (n : CtxId) (src : List Byte) (s : State) : State :=
  let x := s.stream d h
  let ev := claim.drop
  let m := x.begun claim m s.now
  let (q, _) := x.pictureOf m ev src
  let m := withDamage m ev x.dmg
  let s := pictureDamage d h { m with pic := some q } n ev q s
  s.modStream d h (fun y =>
    { y.referred m (m.concealed || y.refHit m ev) q.w q.h q src with
      starts := y.startsWith claim s.now, refLost := m.refused || (y.refLost && !claim.intra) })

/-- A stale sample is dropped; a picture that others may depend on is decoded without output (R283). -/
def sampleDrop (d : Die) (h : Fin 256) (claim : HeaderClaim) (m : Sample) (n : CtxId) (s : State) : State :=
  let inter := decodesInter (sbCodec (s.stream d h).block)
  match if inter then s.readFault n m.src m.len else none with
  | some (c, z) => s.raise c d.val [n] z
  | none =>
    let src := s.devRead m.src m.len
    let s := if inter then dropDecode d h claim m n src (s.jobRead n (some d) m.src m.len) else s
    let s := s.modStream d h (fun y => { y with queue := y.queue.filter (fun z => z.seq != m.seq) })
    (s.bump .medStale d 0 1).complete m.seq stStale 0

/-- A sample takes a credit and the next slot, and its headers are read: the stream's rate and channels are those of its
first sample (R254, R271), and what the codec keeps goes on where pictures do not depend on one another. -/
def sampleBegin (d : Die) (h : Fin 256) (claim : HeaderClaim) (m : Sample) (n : CtxId) (s : State) : State :=
  let x := s.stream d h
  let b := x.block
  let die := bits (sbFreeSem b) 10 8
  let idx := bits (sbFreeSem b) 7 0
  let s := s.setSem n die idx (s.sem n die idx - 1)
  let refused := overClaim b claim
  let inter := decodesInter (sbCodec b)
  let src := s.devRead m.src m.len
  let s := s.modStream d h (fun y =>
    { y with started := y.started + 1
             refLost := inter && (refused || (y.refLost && !claim.intra))
             hist := if inter || refused || !keepsHist (sbCodec b) then y.hist
               else Config.codecHistory b x.param src y.hist none
             rate := if y.rate ≠ 0 then y.rate else if claim.rate = 0 then sbRate b else claim.rate
             chans := if y.chans ≠ 0 then y.chans else (boundClaim b claim).width
             starts := y.startsWith claim s.now })
  s.modSample d h m.seq (fun z => x.begun claim z s.now)

/-- SAMPLE_DECODE_START: a stale sample is dropped; else it takes a slot. -/
def sampleDecodeStart (d : Die) (h : Fin 256) (claim : HeaderClaim) (m : Sample) (n : CtxId) (s : State) : State :=
  if s.staleSample (s.stream d h).block m then sampleDrop d h claim m n s else sampleBegin d h claim m n s

/-- SAMPLE_DECODE_START. -/
def execSampleDecodeStart (d : Die) (h : Fin 256) (claim : HeaderClaim) (s : State) : Host.Outcome State Fault Refusal :=
  .next (match s.nextSample d h with
    | some (m, n) =>
      if s.staleSample (s.stream d h).block m && !s.hubUp then s else sampleDecodeStart d h claim m n s
    | none => s)

/-! ### Loss of an engine, R284 -/

/-- A stream that finds no free context goes OFF: all its submissions complete with CANCELLED. -/
def State.cancelStream (s : State) (d : Die) (h : Fin 256) : State :=
  let x := s.stream d h
  let s := (x.queue ++ x.waiting).foldl (fun s m => s.complete m.seq stCancelled 0) s
  let s := x.closeSeqs.foldl (fun s q => s.complete q stOk 0) s
  let s := (x.openSeq.toList ++ (x.next.map (fun z => z.2.2)).toList).foldl (fun s q => s.complete q stCancelled 0) s
  s.streamOff d h

/-- Moves a stream to a context of engine e; a running sample starts again from its start. -/
def State.moveStream (s : State) (d : Die) (h : Fin 256) (e : Die) (k : Fin 256) : State :=
  let x := s.stream d h
  let hd := s.handleOf d h
  let q := x.queue.map (fun m =>
    if m.st = .decoding then { m with abandonedUs := (s.now - m.tStart) / 1000 } else m)
  let s := (s.setFn (.stream e k) (s.fn (.stream d h))).modStream e k (fun _ => { x with handle := hd, moved := true, queue := q })
  s.streamOff d h

/-- The engine of a die is lost: OFF, reported degraded, and its streams reopen on the engine of die
(d + 4) mod 8 in increasing handle order. -/
def engineLost (d : Die) (s : State) : State :=
  let e := mateDie d
  let s := (s.setFn (.media d) (s.fn (.media d)).forceOff).modDie d (fun x => { x with mediaOut := true })
  let s := s.degraded kMedia d.val 0 0 0 0 0
  let live := (List.finRange 256).filter (fun h => !s.fnIs (.stream d h) .off)
  let live := live.mergeSort (fun a b => decide (s.handleOf d a ≤ s.handleOf d b))
  let s := live.foldl (fun s h =>
    match s.freeStream e with
    | some k => s.moveStream d h e k
    | none => s.cancelStream d h) s
  if s.hubUp then mediaRetry s else s

/-! ### The end of a decode -/

/-- A sample that is being decoded, with its owner. -/
def State.running (s : State) (d : Die) (h : Fin 256) (sample : Nat) : Option (Sample × CtxId) :=
  match (s.stream d h).queue.find? (fun m => m.sample == sample && decide (m.st = .decoding)), (s.stream d h).owner with
  | some m, some n =>
    if s.recovery.isNone && (s.fnIs (.media d) .on || s.fnIs (.media d) .draining) && s.sampleUp d h m m.slot then
      some (m, n)
    else none
  | _, _ => none

/-- Whether `ns` of decoding exceeds the budget, R280: the mean is exact. -/
def overBudget (x : Stream) (ns : Nat) : Bool :=
  let b := x.block
  if sbBudgetAbs b = 0xFFFFFFFF then false
  else decide (sbBudgetAbs b * 1000 < ns) &&
    (decide (x.times.length < 8) || decide (sbBudgetMult b * natSum x.times * 1000 < ns * x.times.length))

/-- Whether an override block overrides a slot. -/
def ovrUsed (m : Sample) : Bool := m.ovr.any (fun o => decide (leAt o 0 1 ≠ 0))

/-- FLAGS of a sample header. -/
def sampleFlags (m : Sample) : Nat :=
  (if m.concealed then 1 else 0) + (if m.refused then 2 else 0) + (if m.late then 4 else 0) +
    (if m.refConcealed then 8 else 0) + (if ovrUsed m then 16 else 0) + (if m.last then 32 else 0)

/-- The 128-byte sample header, R264 Table 7. -/
def headerBytes (b p : List Byte) (m : Sample) (w h maskOff dataBytes : Nat) : List Byte :=
  toLe 8 m.sample ++ toLe 8 m.capture ++ toLe 8 m.tStart ++ toLe 4 m.decodeUs ++ toLe 2 (sampleFlags m) ++
    toLe 2 (min m.dmgN 0xFFFF) ++ toLe 4 m.dmgFirst ++ toLe 2 w ++ toLe 2 h ++ toLe 4 maskOff ++ toLe 4 dataBytes ++
    toLe 16 0 ++ ((List.range 8).flatMap (fun a => toLe 4 (augUsed b p m (m.pic.getD {}) a))) ++ toLe 32 0

/-- Writes a slot: header, tensor and mask, within the slot; a write that may not be made is a job fault of
the owner. -/
def State.writeSlot (s : State) (d : Die) (h : Fin 256) (n : CtxId) (m : Sample) (w ht : Nat) (data mask : List Byte) :
    State :=
  let x := s.stream d h
  let a := sbOutAddr x.block + m.slot * sbSlotBytes x.block
  let bs := (headerBytes x.block x.param m w ht (128 + data.length) data.length ++ data ++ mask).take (sbSlotBytes x.block)
  match s.writeFault n a bs.length with
  | some (c, z) => s.raise c d.val [n] z
  | none =>
    ((s.putBytes a bs).chargeBytes n (some d) a bs.length).modSample d h m.seq (fun _ => { m with st := .decoded })

/-- The end of a picture's decode: damage records, references (R278, R279), then the picture path and the slot. -/
def pictureDone (d : Die) (h : Fin 256) (m : Sample) (n : CtxId) (ev : DecodeEv) (src : List Byte) (s : State) : State :=
  let x := s.stream d h
  let b := x.block
  let p := x.param
  let (q, marks) := x.pictureOf m ev src
  let ref := x.refHit m ev
  let m := { withDamage m ev x.dmg with refConcealed := m.lost || ref, pic := some q }
  let aug := augValue b p m q.w q.h
  let mask := maskOf b aug q 2 (markAt marks)
  let s := pictureDamage d h m n ev q s
  let s := s.modStream d h (fun y => y.referred m (m.concealed || ref) q.w q.h q src)
  s.writeSlot d h n m q.w q.h (tensorOf b p aug q) mask

/-! ### Audio -/

/-- Whether a coded value lies in a region. -/
def inSpans (l : List Rect) (i : Nat) : Bool := l.any (fun r => decide (r.x ≤ i) && decide (i < r.x + r.w))

/-- A stream whose values so far carry no marks. -/
def Stream.unmarked (x : Stream) : Stream :=
  let clear (l : List (List Nat × Nat)) := l.map (fun v => (v.1, 0))
  { x with pcm := clear x.pcm, outs := clear x.outs, line := clear x.line }

/-- Tensor, length and mask of an audio sample whose `silent` values are silence marked `mark`, and the stream after
it. -/
def Stream.audioPath (x : Stream) (m : Sample) (src : List Byte) (silent : Nat → Bool) (mark : Nat) :
    (List Byte × Nat × List Byte) × Stream :=
  let b := x.block
  let p := x.param
  let (line, y) := x.audioStep (sbRate b) (augUsed b p m {} 6) (augUsed b p m {} 7) m.last (codedValues b p src m silent mark)
  (audioOut b p x m.last line, y)

/-- The audio tensor as written: of a raw format, which R271 does not give, each byte is free (log 105). -/
def State.audioTensor (s : State) (b : List Byte) (t : List Byte) : List Byte × State :=
  if sbFmt b = fmU8 ∨ sbFmt b = fmU16 then s.freeBytes t.length else (t, s)

/-- The audio path of a sample, its stream's filter state and its slot; `all` marks every unit. -/
def audioDone (d : Die) (h : Fin 256) (m : Sample) (n : CtxId) (src : List Byte) (silent : Nat → Bool) (mark : Nat)
    (all : Bool) (s : State) : State :=
  let x := s.stream d h
  let ((t, len, mask), y) := x.audioPath m src silent mark
  let s := s.modStream d h (fun z =>
    { z with inCount := y.inCount, outCount := y.outCount, pcm := y.pcm, outs := y.outs, line := y.line })
  let (t, s) := s.audioTensor x.block t
  s.writeSlot d h n m x.chans len t (if all then mask.map (fun _ => BitVec.ofNat 8 mark) else mask)

/-- Damage records of an audio sample; EXTENT is the units that an event's silence marks, of a refused header all
(R279). -/
def audioDamage (d : Die) (h : Fin 256) (m : Sample) (n : CtxId) (ev : DecodeEv) (src : List Byte) (s : State) : State :=
  let x := s.stream d h
  let extent (e : Damage) : Nat :=
    let mask := (x.unmarked.audioPath m src (fun i => m.refused || inSpans e.region i) 1).1.2.2
    if m.refused then mask.length else marksSet mask
  s.writeDamage d h n m 2 extent (damageOf m ev s.now)

/-! ### The end of a decode -/

/-- Whether a sample's end needs the output before it: audio has filter history, and a concealment the previous
picture. -/
def Stream.endReady (x : Stream) (m : Sample) (ev : DecodeEv) : Bool :=
  if isEncode (sbCodec x.block) then true
  else if isAudio (sbCodec x.block) || m.refused || m.lost || !ev.damage.isEmpty then x.prevReady m.seq
  else true

/-- SAMPLE_DECODE_DONE of a sample within its budget: the encode, the audio path or the picture path, with
its damage records, then the slot. -/
def decodeDone (d : Die) (h : Fin 256) (m : Sample) (n : CtxId) (ev : DecodeEv) (s : State) : State :=
  let x := s.stream d h
  let b := x.block
  match s.readFault n m.src m.len with
  | some (c, z) => s.raise c d.val [n] z
  | none =>
    let src := s.devRead m.src m.len
    let m := { m with abandonedUs := max m.abandonedUs ev.abandonedUs, decodeUs := (s.now - m.tStart) / 1000 }
    let s := spoilWork d h (s.jobRead n (some d) m.src m.len)
    if isEncode (sbCodec b) then
      let s := s.modStream d h (fun y => { y with lastSize := some (sbMaxW b, sbMaxH b) })
      s.writeSlot d h n m (sbMaxW b) (sbMaxH b) ((Config.encodeSample b x.param src m.hist).take (encodeBound (rawSize b m.len))) []
    else if isAudio (sbCodec b) then
      let m := withDamage m ev x.dmg
      let s := audioDamage d h m n ev src s
      audioDone d h m n src (fun i => m.refused || ev.damage.any (fun e => inSpans e.region i)) 2 m.refused s
    else pictureDone d h m n ev src s

/-- SAMPLE_DECODE_DONE: a residue mismatch counts, a second one loses the engine (R284). -/
def sampleDecodeDone (d : Die) (h : Fin 256) (m : Sample) (n : CtxId) (ev : DecodeEv) (s : State) : State :=
  let s := s.bump .medCheckCount d 0 (min 2 ev.residue)
  if 2 ≤ ev.residue then engineLost d s else decodeDone d h m n ev s

/-- Time that an attempt abandoned for a residue mismatch took, which no budget counts. -/
def lostNs (m : Sample) (us : Nat) : Nat := 1000 * max m.abandonedUs us

/-- Whether an abandoned attempt fits its sample: it took place, and a mismatch ended it. -/
def abandonOk (m : Sample) (ev : DecodeEv) (now : Nat) : Bool :=
  decide (m.tStart + lostNs m ev.abandonedUs ≤ now) && (decide (0 < ev.residue) || decide (ev.abandonedUs = 0))

/-- SAMPLE_DECODE_DONE. -/
def execSampleDecodeDone (d : Die) (h : Fin 256) (sample : Nat) (ev : DecodeEv) (s : State) :
    Host.Outcome State Fault Refusal :=
  .next (match s.running d h sample with
    | some (m, n) =>
      if abandonOk m ev s.now && (decide (2 ≤ ev.residue) || (s.stream d h).endReady m ev) &&
          !overBudget (s.stream d h) (s.now - m.tStart - lostNs m ev.abandonedUs) then
        sampleDecodeDone d h m n ev s
      else s
    | none => s)

/-! ### Late samples -/

/-- Damage that an abandoned sample met, of a picture. -/
def lateDamage (d : Die) (h : Fin 256) (m : Sample) (n : CtxId) (ev : DecodeEv) (q : Pic) (s : State) : State :=
  let x := s.stream d h
  let aug := augValue x.block x.param m q.w q.h
  s.writeDamage d h n m 1 (fun e => if m.refused then maskBytes x.block
    else marksSet (maskOf x.block aug q 0 (markAt [(e.region, 1)]))) (damageOf m ev s.now)

/-- SAMPLE_LATE: records of the damage met, the late list's entry, then the slot with LATE, mid-grey or silence and a
mask of 4. As a reference an abandoned picture is its concealment (R281). -/
def sampleLate (d : Die) (h : Fin 256) (m : Sample) (n : CtxId) (ev : DecodeEv) (s : State) : State :=
  let x := s.stream d h
  let b := x.block
  let s := s.bump .medCheckCount d 0 (min 1 ev.residue)
  let src := s.devRead m.src m.len
  let m := { m with late := true, decodeUs := (s.now - m.tStart) / 1000, abandonedUs := max m.abandonedUs ev.abandonedUs }
  let s := s.jobRead n (some d) m.src m.len
  let s := (s.engineWrite d n (sbLateAddr b + 16 * (x.late % sbLateMax b)) (toLe 8 m.sample ++ toLe 8 s.now)).modStream d h
    (fun y => { y with late := y.late + 1 })
  if isEncode (sbCodec b) then s.writeSlot d h n m (sbMaxW b) (sbMaxH b) [] []
  else if isAudio (sbCodec b) then
    let m := withDamage m ev x.dmg
    let s := audioDamage d h m n ev src s
    audioDone d h m n src (fun _ => true) 4 true s
  else
    let grey := picGrey (claimShape m.claim) m.claim.comps
    let (q, _) := x.wholeConceal m
    let m := withDamage m ev x.dmg
    let s := lateDamage d h m n ev grey s
    let s := s.modStream d h (fun y => y.referred m true grey.w grey.h q src)
    let aug := augValue b x.param m grey.w grey.h
    let mg := { m with pic := some grey }
    s.writeSlot d h n mg grey.w grey.h (tensorOf b x.param aug grey) ((maskOf b aug grey 4 (fun _ _ => 4)))

/-- SAMPLE_LATE. -/
def execSampleLate (d : Die) (h : Fin 256) (sample : Nat) (s : State) (ev : DecodeEv := {}) :
    Host.Outcome State Fault Refusal :=
  .next (match s.running d h sample with
    | some (m, n) =>
      if abandonOk m ev s.now && decide (ev.residue ≤ 1) &&
          (!isAudio (sbCodec (s.stream d h).block) || (s.stream d h).prevReady m.seq) &&
          overBudget (s.stream d h) (s.now - m.tStart - lostNs m ev.abandonedUs) then
        sampleLate d h m n ev s
      else s
    | none => s)

/-! ### Delivery -/

/-- Status and DETAIL of a delivered sample, R265. -/
def sampleStatus (m : Sample) : Byte × W16 :=
  if m.late then (stLate, 0) else if m.concealed then (stConcealed, BitVec.ofNat 16 (min m.dmgN 0xFFFF)) else (stOk, 0)

/-- The sample that a stream signals next: the engine's clock runs, and the Newel that holds FULL_SEM (R19, R437, R438). -/
def State.deliverable (s : State) (d : Die) (h : Fin 256) : Option (Sample × CtxId) :=
  match (s.stream d h).queue, (s.stream d h).owner with
  | m :: _, some n =>
    let up := s.hubUp && s.clockRuns d islMedia && s.newelUp (semDie (sbFullSem (s.stream d h).block))
    if m.st = .decoded ∧ s.recovery = none ∧ up = true then some (m, n) else none
  | _, _ => none

/-- SAMPLE_DELIVER: FULL_SEM rises, the MEDIA_SUBMIT completes, and the counters follow (R263, R265, R272). -/
def sampleDeliver (d : Die) (h : Fin 256) (m : Sample) (n : CtxId) (s : State) : State :=
  let x := s.stream d h
  let sem := sbFullSem x.block
  match s.semAdd n (bits sem 10 8) (bits sem 7 0) 1 with
  | (s, false) => s
  | (s, true) =>
    let hd := s.handleOf d h
    let times := if m.late || m.refused then x.times else x.times ++ [m.decodeUs]
    let s := s.modStream d h (fun y =>
      { y with queue := y.queue.drop 1, times := times.drop (times.length - 32)
               prev := if isAudio (sbCodec x.block) then none else m.pic })
    let s := s.bump .medSamples d 0 1
    let s := if m.concealed then s.bump .medConcealed d 0 1 else s
    let s := if m.refused then s.bump .medHdrRefused d 0 1 else s
    let s := if m.late then s.bump .medLate d 0 1 else s
    let s := s.traceRec d.val 0x22 0x0B n.val (traceData [hd, m.sample, sampleFlags m])
    let (st, dt) := sampleStatus m
    s.complete m.seq st dt

/-- SAMPLE_DELIVER. -/
def execSampleDeliver (d : Die) (h : Fin 256) (s : State) : Host.Outcome State Fault Refusal :=
  .next (match s.deliverable d h with
    | some (m, n) => sampleDeliver d h m n s
    | none => s)

end Sys2Proof.Machine
end

