-- ==== Sys2Proof/Machine/Faults.lean ====
section
/-! DEFINITION. Job faults and their recovery (R357 to R363), and the loss of a die, the link or a second
bridge, which takes the module out of service (R435, R436). -/

namespace Sys2Proof.Machine

/-! ### The fault point -/

/-- The lowest context of a list; 0 when it is empty. -/
def lowestCtx (l : List CtxId) : Nat := natMinD 0 (l.map (fun n => n.val))

/-- The report among those of one cycle that charges the lowest context. -/
def lowestReport (l : List FaultReport) : Option FaultReport :=
  let low := lowestCtx (l.flatMap (fun r => r.ctxs))
  match l.find? (fun r => r.ctxs.any (fun n => n.val == low)) with
  | some r => some r
  | none => l.head?

/-- Reports after t0 and before recovery ends count in LATER, saturating at 255, and have no other effect. -/
def State.countLater (s : State) (k : Nat) : State :=
  { s.bumpSat .hifFaultInfo 0 0 31 24 k with reports := [] }

/-- The address that HIF_FAULT_ADDR holds for a cause: one only for CAUSE 0x01 and 0x02. -/
def faultAddrOf (cause : Byte) (a : Nat) : Nat := if cause = causeAddr ∨ cause = causeMem then a % 2 ^ 48 else 0

/-- All rings. -/
def allRingIds : List RingId := List.finRange 256

/-- The slots between HEAD and TAIL of each ring, by ring, first slot and number. -/
def State.openSlots (s : State) : List (RingId × Nat × Nat) :=
  allRingIds.filterMap (fun r =>
    let head := s.headSlot r
    let k := (s.regFld .hifRingTail 0 r.val 0 15 0 + s.ringSize r - head) % s.ringSize r
    if s.fnIs (.ring r) .off ∨ k = 0 then none else some (r, head, k))

/-- t0: recovery begins with the reports of the cycle, all of which are charged (R359); HIF_FAULT_INFO and
HIF_FAULT_ADDR are written, the former with LATER 0. -/
def faultPoint (l : List FaultReport) (s : State) : State :=
  match lowestReport l with
  | none => s
  | some r =>
    let charged := dedupKeep (l.flatMap (fun r => r.ctxs))
    let s := s.setReg .hifFaultInfo 0 0 0 (BitVec.ofNat 64 (r.cause.toNat + lowestCtx charged * 2 ^ 8 + r.die * 2 ^ 16))
    let s := s.setReg .hifFaultAddr 0 0 0 (BitVec.ofNat 64 (faultAddrOf r.cause r.addr))
    { s with
      reports := []
      recovery := some { step := 0, cause := r.cause, die := r.die, charged, recorded := lowestCtx charged
                         t0 := s.now, skips := s.openSlots, hubSide := r.hubSide } }

/-- A report of the environment: an uncorrectable error met in job data, or any other cause of Table 5 found by
a unit. -/
def outsideReport (cause : Byte) (d : Die) (hubSide : Bool) (charged : List CtxId) (addr : Nat) : List FaultReport :=
  if 1 ≤ cause.toNat ∧ cause.toNat ≤ 4 ∧ charged ≠ [] then
    [{ cause, die := if hubSide then 0 else d.val, ctxs := charged, addr := addr % 2 ^ 48, hubSide }]
  else []

/-- FAULT_POINT: the waiting reports and the environment's reach HIF in one cycle. -/
def execFaultPoint (cause : Byte) (d : Die) (hubSide : Bool) (charged : List CtxId) (addr : Nat) (s : State) :
    Host.Outcome State Fault Refusal :=
  let l := s.reports ++ (if charged.all (fun n => s.ctxOpen n) then outsideReport cause d hubSide charged addr else [])
  .next (if !s.hubUp || l.isEmpty then s
    else if s.recovery.isSome then s.countLater l.length
    else faultPoint l s)

/-! ### Recovery, R360 Table 6 -/

/-- DIE of the fault record of a job fault: the die that detected it, or the hub (R446). -/
def Recovery.recDie (v : Recovery) : Nat := if v.hubSide then hubDie else v.die

/-- Step 1: HIF_FAULT_TIME, HEAD of each ring set to its TAIL of t0 with the slots skipped, and the fault record of t0; a
doorbell that came since t0 adds slots, which are fetched from step 6 on. -/
def recoverStop (v : Recovery) (s : State) : State :=
  let s := s.setReg .hifFaultTime 0 0 0 (BitVec.ofNat 64 v.t0)
  let s := v.skips.foldl (fun s (r, head, k) =>
    s.setReg .hifRingHead 0 r.val 0 (BitVec.ofNat 64 ((head + k) % s.ringSize r))) s
  let s := { s with arb := { s.arb with grant := none } }
  let s := s.logRec v.t0 0 clsJobFault kJobFault v.recDie 0 v.cause.toNat (s.reg .hifFaultAddr 0 0 0).toNat 0
  v.charged.foldl (fun s n => s.traceRec 8 0x30 0x0A n.val (traceData [v.cause.toNat, n.val])) s

/-- The destination of a COPY or FILL that has not completed is undefined, ended parts too (R314). -/
def scrambleDma (x : Desc) (s : State) : State :=
  if (x.ty = 0x02 ∨ x.ty = 0x03) ∧ x.st = .started then (List.range 16).foldl (fun s k => scramblePart x k s) s else s

/-- What records, DMA descriptors, media slots and collectives were writing is undefined (step 2, R261, R314). -/
def scrambleWrites (s : State) : State :=
  let recs := allDies.flatMap (fun d => allPCores.flatMap (fun p =>
    ((s.core d p).queue.filter (fun x => decide (x.st = .issued))).flatMap (fun x => x.dests)))
  let s := recs.foldl (fun s (a, n) => s.scramble a n) s
  let s := s.descs.foldl (fun s x => scrambleDma x s) s
  let s := allStreams.foldl (fun s (d, h) =>
    let x := s.stream d h
    (x.queue.filter (fun m => decide (m.st ≠ .queued))).foldl (fun s m =>
      s.scramble (sbOutAddr x.block + m.slot * sbSlotBytes x.block) (sbSlotBytes x.block)) s) s
  s.colls.foldl (fun s c => c.writes.foldl (fun s (a, n) => s.scramble a n) s) s

/-- No DISPATCH, switch or credit is left. -/
def State.dropRuns (s : State) : State := { s with disps := [], switches := [], credits := [] }

/-- STATUS and DETAIL of R361 for a context. -/
def faultStatus (v : Recovery) (n : CtxId) : Byte × W16 :=
  if v.charged.contains n then (stJobFault, BitVec.ofNat 16 (v.cause.toNat + v.die % 8 * 2 ^ 8))
  else (stJobLost, BitVec.ofNat 16 (v.cause.toNat + v.recorded * 2 ^ 8))

/-- A DISPATCH that holds its dies ends on them with a job fault: its final samples and its trace records (R481, R485). -/
def dispFaulted (v : Recovery) (y : Disp) (s : State) : State :=
  if y.st = .running then
    (y.dies.foldl (fun s d => finalSample y.ctx d s) s).traceDisp y 0x02 (faultStatus v y.ctx).1.toNat
  else s

/-- Step 2: placed records, TCONVs, DMA parts, samples, collectives and switches end (R261, R314, R363). A
repair under way goes on. -/
def recoverEnd (v : Recovery) (s : State) : State :=
  let s := scrambleWrites s
  let s := s.disps.foldl (fun s y => dispFaulted v y s) s
  let s := allDies.foldl (fun s d =>
    let s := allPCores.foldl (fun s p => s.modCore d p (fun k => { k with queue := [], replay := none })) s
    s.modDie d (fun x => { x with run := none, teaRun := none, walks := [] })) s
  let s := allQueues.foldl (fun s q => s.setDq q []) s
  let s := (allStreams.filter (fun (d, h) => !s.fnIs (.stream d h) .off)).foldl (fun s (d, h) => s.streamOff d h) s
  let s := s.colls.foldl (fun s c => s.dropColl c) s
  { s with hops := [] }.dropRuns

/-- Step 3: cores, flags, semaphores, stall counters and barrier generations are zero, translations, chains
and saved states discarded; loaded plans stay, those loading end, those unloading stay loaded (R140, R525), and
a die that lost a core has its logical indices given out anew (R433). -/
def recoverClear (s : State) : State :=
  let s := allDies.foldl (fun s d =>
    let s := zeroDie d s
    let s := s.modDie d (fun x => { x with tlb := [], lastCtx := none, stale := false })
    if s.hasGap d then s.renumber d else s) s
  let s := (List.finRange 64).foldl (fun s n =>
    if s.ctxOpen n then
      s.modCtx n (fun c => { c with sems := [], stalls := [], bars := [], savedDies := [], savedMem := [], semMoved := [] })
    else s) s
  { s with
    chains := []
    plans := (s.plans.filter (fun p => decide (p.st ≠ .loading))).map (fun p => { p with st := .loaded, unloadSeq := none }) }

/-- Step 4: statuses and event entries of every descriptor in flight, then a flush entry for each ring with
skipped slots (R361, R362); a context without room for its entries waits with them. -/
def recoverStatus (v : Recovery) (s : State) : State :=
  let s := s.descs.foldl (fun s x =>
    let (st, dt) := faultStatus v (ringCtx x.ring)
    s.complete x.seq st dt) s
  let s := v.skips.foldl (fun s (r, first, k) =>
    s.eventPush (ringCtx r)
      { ring := r, index := first, ty := 0, status := (faultStatus v (ringCtx r)).1, detail := BitVec.ofNat 16 k
        time := s.now, seq := none }) s
  (List.finRange 64).foldl (fun s n =>
    if (s.ctx n).evWait.isEmpty then s else s.modCtx n (fun c => { c with evHold := true })) s

/-- In place of step 6 for a loss: the rings leave, every later descriptor is CANCELLED, SERVICE becomes 2, and
a record of CLASS 4 and vector 257 follow (R436 steps 2 to 4). -/
def leaveService (kind die unit : Nat) (s : State) : State :=
  let s := { s with
    hub := { s.hub with outOfService := true }
    fab := { s.fab with admitQ := [], leaveQ := allRings.map (fun i => (i, 0)) }
    recovery := none }
  ((fabPump s).logFault clsOutOfService kind die unit 0 0 0 0).msix vecRepair

/-- Step 6: fetch resumes; reports that came during recovery have counted in LATER. -/
def recoverResume (v : Recovery) (s : State) : State :=
  let s := (s.countLater s.reports.length).bump .hifFaultCount 0 0 1
  match v.loss with
  | some (kind, die, unit) => leaveService kind die unit s
  | none => { s with recovery := none }

/-- The effect of the recovery's next step. -/
def recoveryStep (v : Recovery) (s : State) : State :=
  match v.step with
  | 0 => recoverStop v s
  | 1 => recoverEnd v s
  | 2 => recoverClear s
  | 3 => recoverStatus v s
  | 4 => s.msix vecFault
  | _ => recoverResume v s

/-- RECOVERY_STEP_DONE. -/
def execRecoveryStepDone (s : State) : Host.Outcome State Fault Refusal :=
  .next (match s.recovery with
    | some v =>
      if s.hubUp then
        let s := recoveryStep v s
        { s with recovery := s.recovery.map (fun w => { w with step := v.step + 1 }) }
      else s
    | none => s)

/-! ### Leaving service -/

/-- The module leaves service: a job fault with CAUSE 0x02 of every context that is not OFF, then R436's own
steps. A loss met during a recovery takes effect at its end. Before the module is job-ready nothing runs, and
start-up ends out of service, as SEC_BOOT_STATUS.OOS shows (R459, R460). -/
def lossOf (kind die unit addr : Nat) (s : State) : State :=
  if s.hub.outOfService || s.boot.oos then s
  else if s.boot.stage < 10 then
    { ((s.logFault clsOutOfService kind die unit 0 0 0 0).setRegFld .secBootStatus 0 0 0 9 9 1).msix vecRepair with
      hub := { s.hub with outOfService := true }, boot := { s.boot with oos := true } }
  else
    let open' := (List.finRange 64).filter (fun n => s.ctxOpen n)
    let s := if s.recovery.isSome then s.countLater (s.reports.length + 1)
      else faultPoint (s.reports ++ [{ cause := causeMem, die := if die < 8 then die else 0, ctxs := open', addr
                                       hubSide := decide (8 ≤ die) }]) s
    { s with recovery := s.recovery.map (fun v => { v with loss := some (v.loss.getD (kind, die, unit)) }) }

/-- A die is lost, R435: the spare map records it, and the module leaves service. -/
def loseDie (d : Die) (unit : Nat) (s : State) : State :=
  if (s.die d).lost then s
  else
    let s := s.modDie d (fun x => { x with lost := true })
    let cur := s.store.cur
    let spares := { cur.spares with lostDies := dedupKeep (cur.spares.lostDies ++ [d]) }
    let s := { s with store := { s.store with dirty := true, cur := { cur with spares } } }
    lossOf kDieLost d.val unit (galBase d.val) s

end Sys2Proof.Machine
end

