-- ==== Sys2Proof/Machine/Measure.lean ====
section
/-! DEFINITION. Firmware images as the boot ROM and Yarrow check them (R463, R464), and the measurement log
(R468, R469). -/

namespace Sys2Proof.Machine

/-! ### Images -/

/-- Entry i of COMP: type, offset, length. -/
def compAt (b : List Byte) (i : Nat) : Nat × Nat × Nat :=
  (leAt b (0x20 + 16 * i) 4, leAt b (0x24 + 16 * i) 4, leAt b (0x28 + 16 * i) 4)

/-- The components of an image's header. -/
def compsOf (b : List Byte) : List (Nat × Nat × Nat) := (List.range (min 16 (leAt b 6 2))).map (compAt b)

/-- The header checks of R464: fields in range, reserved fields zero, components within IMAGE_LEN, types 1 to 4 once
each. `len` is the length of the image in its bank or as staged. The list of R464 names neither a component of another
type nor its alignment (log 115). -/
def imageHeaderOk (b : List Byte) (len : Nat) : Bool :=
  let n := leAt b 6 2
  let il := leAt b 8 4
  let comps := compsOf b
  leAt b 0 4 == 0x4D574B43 && leAt b 4 2 == 1 && decide (4 ≤ n) && decide (n ≤ 16) &&
  decide (4096 ≤ il) && decide (il ≤ len) && decide (il ≤ 2 ^ 27) &&
  zeroIn b 0x18 8 && zeroIn b 0x120 224 && zeroIn b 0xA84 1404 &&
  (List.range 16).all (fun i => decide (i < n) || zeroIn b (0x20 + 16 * i) 16) &&
  (List.range n).all (fun i => zeroIn b (0x2C + 16 * i) 4) &&
  comps.all (fun (_, o, k) => decide (o + k ≤ il)) &&
  [1, 2, 3, 4].all (fun t => (comps.filter (fun c => c.1 == t)).length == 1)

/-- The measured digest of the component of a type. -/
def compDigest (b : List Byte) (t : Nat) : BitVec 512 :=
  match (compsOf b).find? (fun c => c.1 == t) with
  | some (_, o, k) => sha512v (slice b o k)
  | none => 0

/-- Whether the DIGEST of the hub firmware matches. -/
def hubDigestOk (b : List Byte) : Bool :=
  (compsOf b).zipIdx.all (fun ((t, o, k), i) => t != 1 || sha512 (slice b o k) == slice b (0x200 + 64 * i) 64)

/-- Whether every DIGEST matches its component. -/
def imageDigestsOk (b : List Byte) : Bool :=
  (compsOf b).zipIdx.all (fun ((_, o, k), i) => sha512 (slice b o k) == slice b (0x200 + 64 * i) 64)

/-- What the checks of R464 and the measurements need of an image. -/
def imageOf (b : List Byte) : Image :=
  { headerOk := imageHeaderOk b b.length
    certOk := Config.imageCertOk (slice b 0x600 1024)
    sigOk := Config.imageSigOk (slice b 0 0xA84)
    hubDigestOk := hubDigestOk b
    digestsOk := imageDigestsOk b
    svn := leAt b 0x0C 4
    header := sha512v (slice b 0 0xA84)
    comps := [1, 2, 3, 4].map (compDigest b) }

/-- The first failing check of R464: 1 header, 2 certificate, 3 signature, 4 SVN, 5 digest; 0 none. -/
def Image.check (x : Image) (floor : Nat) : Nat :=
  if !x.headerOk then 1
  else if !x.certOk then 2
  else if !x.sigOk then 3
  else if x.svn < floor then 4
  else if !x.hubDigestOk || !x.digestsOk then 5
  else 0

/-- The bytes of an image at an address field, when the address and length are allowed: at most 128 MiB, in
host memory or in backed HBM. -/
def State.imageBytes (s : State) (a len : Nat) : Option (List Byte) :=
  let dev := decide (a + len ≤ 0xBC00000000) &&
    (List.range ((a + len - 1) / 2 ^ 30 + 1 - a / 2 ^ 30)).all (fun k => s.hbmBacked ((a / 2 ^ 30 + k) * 2 ^ 30))
  if 0 < len ∧ len ≤ 2 ^ 27 ∧ addrOk a = true ∧ (isHost a || dev) = true then some (s.anyRead a len) else none

/-- The image bank that runs: SEC_BOOT_STATUS.BANK, B when set. -/
def State.runBank (s : State) : Bool := (s.reg .secBootStatus 0 0 0).getLsbD 4

/-- The image of a bank. -/
def State.bankImage (s : State) (b : Bool) : Image := if b then s.store.imgB else s.store.imgA

/-- Replaces the image of a bank. -/
def State.setBankImage (s : State) (b : Bool) (x : Image) : State :=
  { s with store := if b then { s.store with imgB := x } else { s.store with imgA := x } }

/-! ### The log -/

/-- Extends the log register and the log with a block's digest, and sets the block (R468). -/
def State.extend (s : State) (idx : Nat) (dg : BitVec 512) : State :=
  let m := s.meas
  let l := sha512v (toLe 64 m.digest.toNat ++ [BitVec.ofNat 8 idx] ++ toLe 64 dg.toNat)
  let log := if m.log.length < 256 then m.log ++ [{ block := idx, time := s.now, digest := dg }] else m.log
  { s with meas := { blocks := SMap.put m.blocks idx dg, log, count := m.count + 1, digest := l } }

/-- Extends blocks 2 to 6 with an image's values, in index order (R469). -/
def State.extendImage (s : State) (x : Image) : State :=
  (List.range 5).foldl (fun s k => s.extend (k + 2) (if k = 0 then x.header else x.comps.getD (k - 1) 0)) s

/-- Extends block 7 with the security state as it stands: image bank, SVN_FLOOR, development access, active half
(R468 Table 5). -/
def State.extendSecurity (s : State) : State :=
  s.extend 7 (sha512v (Config.securityState s.runBank s.store.cur.svnFloor (s.regFld .trcDev 0 0 0 1 0) s.hub.activeB))

end Sys2Proof.Machine
end

