-- ==== Sys2Proof/Machine/Reset.lean ====
section
/-! DEFINITION. Resets (R452 to R456), the pins that begin them (R504, R505), and the stop of the whole module
(R398). -/

namespace Sys2Proof.Machine

/-! ### What a reset keeps -/

/-- Read-only registers that tell of events since a cold reset: a warm reset keeps them (log 113). -/
def sinceCold : List RegId :=
  [.coreCsumLast, .vetFaultAddr, .vetFaultInfo, .mcScrubPass, .hifFaultInfo, .hifFaultAddr, .hifFaultTime]

/-- The stored values of registers of a kind. -/
def State.regsOf (s : State) (keep : RegRef → Bool) : SMap W64 :=
  s.regs.filter (fun e => match regAt e.1 with
    | some r => keep r
    | none => false)

/-- The RWS registers (R9). -/
def stickyRegs (s : State) : SMap W64 := s.regsOf (fun r => decide (r.id.row.acc = .rws))

/-- What registers hold after a warm reset: the RWS registers and those of `sinceCold`, and of AVL_STORE_STATUS the banks
found invalid since a cold reset. -/
def warmRegs (s : State) : SMap W64 :=
  (s.regsOf (fun r => decide (r.id.row.acc = .rws) || sinceCold.contains r.id || decide (r.id = .avlStoreStatus))).map
    (fun e => if e.1 = RegId.off .avlStoreStatus 0 0 0 then (e.1, e.2 &&& 0xFF00) else e)

/-- The persistent store after a reset: a bank being written stays invalid, the changes not yet written are
lost with a power loss only (R444, R455). -/
def keptStore (s : State) (power : Bool) : Store :=
  let st := s.store
  if power then
    let newest := if st.a.valid ∧ (st.b.valid = false ∨ st.b.seq < st.a.seq) then st.a.data
      else if st.b.valid then st.b.data else { identityOk := false }
    { st with writing := none, dirty := !(st.a.valid || st.b.valid), cur := newest }
  else { st with writing := none, dirty := st.dirty || st.writing.isSome }

/-- The hub halves after a reset: the active half kept by a warm reset unless it failed, else by R439; a module that
has lost a die, or both halves, starts out of service (R436, R459). -/
def keptHub (s : State) (kind : ResetKind) (st : Store) : Hub :=
  let sp := st.cur.spares
  let active := if kind = .warm ∧ (if s.hub.activeB then s.hub.bFailed else s.hub.aFailed) = false then s.hub.activeB
    else sp.hubAFailed
  { activeB := active, aFailed := sp.hubAFailed, bFailed := sp.hubBFailed
    outOfService := if kind = .warm then s.hub.outOfService else !sp.lostDies.isEmpty || (sp.hubAFailed && sp.hubBFailed) }

/-- Bits of SEC_RESET_CAUSE, R477 Table 11. -/
def resetCause (kind : ResetKind) (trigger : Nat) : W64 :=
  BitVec.ofNat 64 (trigger * 2 ^ 8 + (match kind with
    | .powerOn => 0
    | .warm => 1
    | .cold => 2))

/-- The state at the start of a reset: every function OFF, bypasses closed with acceptances withdrawn (R384), descriptors abandoned with their
slots untouched, the log and SPDM connections cleared, what device memory held gone (R453 to R456, R469, R476).
What stays is the host's memory, the persistent store, the pins, and what R452 Table 1 names. -/
def resetTo (kind : ResetKind) (trigger : Nat) (s : State) : State :=
  let store := keptStore s false
  let hub := keptHub s kind store
  let regs := (if kind = .warm then warmRegs s else [])
  let base : State := {
    pending := s.pending, out := s.out ++ withdrawals s.ownAddr s.fab.accepted, free := s.free, hostMem := s.hostMem
    now := if kind = .powerOn then 0 else s.now
    regs, store, hub
    fw := { running := s.fw.running }
    boot := { s.boot with powered := true, stage := if kind = .powerOn then 0 else 1, kind, recovery := false
                          since := if kind = .powerOn then 0 else s.now, linkUp := false, cfgReady := false
                          ssc := decide (kind ≠ .warm) || (s.reg .timeCtl 0 0 0).getLsbD 0
                          modPwrgd := false, thermAlert := false, oos := hub.outOfService }
    fab := { osc := s.fab.osc, freq := s.fab.freq } }
  let base := { base with regionMap := s.regionMap }
  (base.setReg .secResetCause 0 0 0 (resetCause kind trigger)).setRegFld .secBootStatus 0 0 0 3 0 base.boot.stage

/-- A warm reset, with its trigger. -/
def warmReset (trigger : Nat) (s : State) : State := resetTo .warm trigger s

/-- A cold reset, with its trigger. The applied map is all module-interleaved until the stored one is
committed (R31). -/
def coldReset (trigger : Nat) (s : State) : State := { resetTo .cold trigger s with regionMap := [] }

/-- The module stops: both feeds are lost, or both hub halves (R398, R439). Everything is lost but the store;
the bypasses are closed. -/
def moduleStop (s : State) : State :=
  let store := keptStore s true
  { ({} : State) with
    pending := s.pending, out := s.out ++ withdrawals s.ownAddr s.fab.accepted, free := s.free, hostMem := s.hostMem, now := s.now
    store
    fw := { running := s.fw.running }
    boot := { s.boot with powered := false, stage := 0, recovery := false, linkUp := false, cfgReady := false
                          modPwrgd := false, thermAlert := false, dynAddr := none, eid := 0, oos := false } }

/-! ### Pins and link -/

/-- PERST_ASSERT: a low pulse of 1 µs or more is a warm reset (R504); the pin stays low until PERST_DEASSERT. -/
def perstAssert (lowNs : Nat) (s : State) : State :=
  if lowNs < 1000 then s
  else
    let s := { s with boot := { s.boot with perstLow := true } }
    if s.boot.powered then warmReset 2 s else s

/-- PERST_ASSERT. -/
def execPerstAssert (lowNs : Nat) (s : State) : Host.Outcome State Fault Refusal := .next (perstAssert lowNs s)

/-- PERST_DEASSERT: link training may begin (R458). -/
def execPerstDeassert (s : State) : Host.Outcome State Fault Refusal :=
  .next { s with boot := { s.boot with perstLow := false } }

/-- HOT_RESET: a Hot Reset or Link Disable received on the link is a warm reset (R452). -/
def execHotReset (s : State) : Host.Outcome State Fault Refusal :=
  .next (if s.boot.linkUp then warmReset 3 s else s)

/-- RESET_REQ: at 10 ms of RESET_REQ_N low a cold reset begins, which holds at step 2 until the pin returns
high (R504, R505). Without power only the level is taken. -/
def resetReq (lowNs : Nat) (s : State) : State :=
  let s' := { s with boot := { s.boot with resetReqLow := true } }
  if !s.boot.powered then s'
  else if lowNs < 10000000 then s
  else coldReset 1 s'

/-- RESET_REQ. -/
def execResetReq (lowNs : Nat) (s : State) : Host.Outcome State Fault Refusal := .next (resetReq lowNs s)

/-- RESET_REQ_RELEASE: RESET_REQ_N returns high, and start-up goes on (R505). -/
def execResetReqRelease (s : State) : Host.Outcome State Fault Refusal :=
  .next { s with boot := { s.boot with resetReqLow := false } }

/-- Whether a request for a reset through SEC_RESET acts: a privileged path, the key, and STAGE not below 3, which
recovery shows as 15 (R466, R477, R478). -/
def secResetActs (path : Path) (key : W16) (s : State) : Bool :=
  (match path with
   | .dev _ => false
   | _ => true) && key == 0xCA1C && decide (3 ≤ s.regFld .secBootStatus 0 0 0 3 0)

/-- Whether Henlan answers: powered and past step 3 of start-up (R462). -/
def State.henlanUp (s : State) : Bool := s.boot.powered && decide (3 ≤ s.boot.stage)

/-! ### Feeds, R396 to R398 -/

/-- Condition bits of a feed by its voltage in units of 0.1 V: used, LOW, HIGH (R397). -/
def feedBits (v : Nat) : Bool × Bool × Bool :=
  (decide (340 ≤ v) && decide (v ≤ 500), decide (340 ≤ v) && decide (v < 360), decide (480 < v) && decide (v ≤ 500))

/-- Whether a feed is connected. -/
def State.feedUsed (s : State) (f : Feed) : Bool :=
  match f with
  | .a => s.boot.feedA
  | .b => s.boot.feedB

/-- Connects or disconnects a feed. -/
def State.setFeed (s : State) (f : Feed) (used : Bool) : State :=
  { s with boot := match f with
      | .a => { s.boot with feedA := used }
      | .b => { s.boot with feedB := used } }

/-- Shows a feed in PWR_FEED_STATUS. -/
def State.showFeed (s : State) (f : Feed) (used : Bool) (v : Nat) : State :=
  let (_, low, high) := feedBits v
  let k := match f with
    | .a => 0
    | .b => 1
  s.modReg .pwrFeedStatus 0 0 0 (fun w =>
    setFld (setFld (setFld (setFld w (22 + k) (22 + k) (if used then 1 else 0)) (24 + k) (24 + k) (if used && low then 1 else 0))
      (26 + k) (26 + k) (if used && high then 1 else 0)) (10 * k + 9) (10 * k) (min v 1023))

/-- FEED_DISCONNECT: a feed below 34 V or above 50 V is lost: degraded, or with the other one lost too the
module stops. -/
def feedDisconnect (f : Feed) (v : Nat) (s : State) : State :=
  let other := match f with
    | .a => Feed.b
    | .b => Feed.a
  let s := s.setFeed f false
  if s.feedUsed other then
    let s := (s.showFeed f false v).bumpSat .pwrEvents 0 0 7 0 1
    s.degraded kFeed hubDie (match f with
      | .a => 0
      | .b => 1) 0 0 0 0
  else moduleStop s

/-- FEED_DISCONNECT. -/
def execFeedDisconnect (f : Feed) (volt : Nat) (s : State) : Host.Outcome State Fault Refusal :=
  .next (if s.boot.powered && s.feedUsed f && (decide (volt < 340) || decide (500 < volt)) then feedDisconnect f volt s
    else s)

/-- FEED_RECONNECT: a feed that has stayed within 36 to 48 V for 100 ms is taken back, and the report clears. -/
def feedReconnect (f : Feed) (v : Nat) (s : State) : State :=
  (((s.setFeed f true).showFeed f true v).bumpSat .pwrEvents 0 0 7 0 1).setRegFld .avlDegraded 0 0 0 kFeed kFeed 0

/-- FEED_RECONNECT. -/
def execFeedReconnect (f : Feed) (volt : Nat) (s : State) : Host.Outcome State Fault Refusal :=
  .next (if s.boot.powered && !s.feedUsed f && decide (360 ≤ volt) && decide (volt ≤ 480) then feedReconnect f volt s
    else s)

/-- POWER_ON: power-good on a feed after both were disconnected starts a power-on reset; SLOT_ID is sampled
(R452, R503). A feed outside 34 to 50 V is not connected; PWR_FEED_STATUS shows the feeds from the first update on
(log 86). -/
def powerOn (voltA voltB : Nat) (slotId : Fin 16) (s : State) : State :=
  let s := ({ s with boot := { s.boot with slotId } }.setFeed .a (feedBits voltA).1).setFeed .b (feedBits voltB).1
  resetTo .powerOn 0 { s with regionMap := [] }

/-- POWER_ON. -/
def execPowerOn (voltA voltB : Nat) (slotId : Fin 16) (s : State) : Host.Outcome State Fault Refusal :=
  .next (if !s.boot.powered && ((feedBits voltA).1 || (feedBits voltB).1) then powerOn voltA voltB slotId s else s)

end Sys2Proof.Machine
end

