-- ==== Sys2Proof/Machine/Repair.lean ====
section
/-! DEFINITION. Availability (R429 to R449): Gallery banks, bridges, Newel's twin, hub halves, the persistent
store, live firmware update, and the power phases and clock generators of R400 and R408. -/

namespace Sys2Proof.Machine

/-- Whether a die's units run: its rails are on and it is not lost. -/
def State.dieUp (s : State) (d : Die) : Bool := (s.die d).railOn && !(s.die d).lost

/-! ### Gallery banks, R432 -/

/-- SUB of Gallery spare k. -/
def State.galSub (s : State) (d : Die) (k : Nat) : Nat := s.regFld .galSpareMap d.val 0 0 (8 * k + 6) (8 * k)

/-- Gallery spare banks left. -/
def State.galSpares (s : State) (d : Die) : Nat := ((List.range 4).filter (fun k => s.galSub d k == 0x7F)).length

/-- GALLERY_BANK_MIGRATE: the copy to the lowest free spare starts; with none the bank stays in service and
Gallery is degraded. -/
def galleryBankMigrate (d : Die) (bank : Fin 64) (s : State) : State :=
  match (List.range 4).find? (fun k => s.galSub d k == 0x7F) with
  | some k =>
    (s.modReg .galSpareMap d.val 0 0 (fun v => setFld (setFld v (8 * k + 6) (8 * k) bank.val) (8 * k + 7) (8 * k + 7) 1)).modDie d
      (fun x => { x with galAt := SMap.put x.galAt k s.now })
  | none => s.degraded kGalleryBank d.val 0 bank.val 0 0 0

/-- GALLERY_BANK_MIGRATE, once the bank has had 8 corrected errors within 1 s of fabric time (R432); the count starts
again. Yarrow decides it, and waits for a change-over of hub halves (R440). -/
def execGalleryBankMigrate (d : Die) (bank : Fin 64) (s : State) : Host.Outcome State Fault Refusal :=
  .next (if s.dieUp d && s.hubUp && decide (8 ≤ s.boot.stage) && eightCe (SMap.getD (s.die d).galCe bank.val []) s.now then
      galleryBankMigrate d bank (s.modDie d (fun x => { x with galCe := SMap.del x.galCe bank.val }))
    else s)

/-- GALLERY_BANK_SWITCH: the copy ends, and the spare serves. -/
def galleryBankSwitch (d : Die) (k : Fin 4) (s : State) : State :=
  let s := s.setRegFld .galSpareMap d.val 0 0 (8 * k.val + 7) (8 * k.val + 7) 0
  let v := BitVec.ofNat 32 (s.reg .galSpareMap d.val 0 0).toNat
  let cur := s.store.cur
  let spares := { cur.spares with gallery := SMap.put cur.spares.gallery d.val v }
  let s := { s with store := { s.store with dirty := true, cur := { cur with spares } } }
  let left := s.galSpares d
  s.repairedAt (SMap.getD (s.die d).galAt k.val s.now) 0 kGalleryBank d.val 0 (s.galSub d k.val) 0 left (left == 0)

/-- GALLERY_BANK_SWITCH. -/
def galleryBankSwitchEv (d : Die) (k : Fin 4) (s : State) : State :=
  if s.regFld .galSpareMap d.val 0 0 (8 * k.val + 7) (8 * k.val + 7) = 1 then galleryBankSwitch d k s else s

/-! ### Bridges, R434 -/

/-- KIND and UNIT of a bridge: E0 to E9, or H0 and H4. -/
def bridgeKind (b : Bridge) : Nat × Nat := if b.val < 10 then (kBridge, b.val) else (kHubBridge, 4 * (b.val - 10))

/-- BRIDGE_FAIL: the bridge is OFF, its pairs reroute and the module is degraded; a second failure takes the
module out of service. -/
def bridgeFail (b : Bridge) (s : State) : State :=
  let (kind, unit) := bridgeKind b
  let first := s.hub.bridges.isEmpty
  let s := { s with hub := { s.hub with bridges := s.hub.bridges ++ [b] } }
  if first then s.degraded kind hubDie unit 0 500 0 0 else lossOf kind hubDie unit 0 s

/-- BRIDGE_FAIL. -/
def execBridgeFail (b : Bridge) (s : State) : Host.Outcome State Fault Refusal :=
  .next (if s.boot.powered && decide (6 ≤ s.boot.stage) && !s.hub.bridges.contains b then bridgeFail b s else s)

/-! ### Newel's twin, R437, R438 -/

/-- NEWEL_FAIL: the twin sets Newel OFF and takes over; with no twin standing by the die is lost (R435). A failure within
a takeover or a hand-over is handled when that completes (R431). -/
def newelFail (d : Die) (s : State) : State :=
  if (s.die d).takeover then s.modDie d (fun x => { x with newelAgain := true })
  else if (s.die d).twin = .standby then
    s.modDie d (fun x => { x with
      takeover := true, takeAt := s.now, newelOn := false, ctr := { x.ctr with paused := true } })
  else loseDie d 0 s

/-- A failure of Newel that waited for a takeover or a hand-over. -/
def newelNext (d : Die) (s : State) : State :=
  if (s.die d).newelAgain then newelFail d (s.modDie d (fun x => { x with newelAgain := false })) else s

/-- NEWEL_FAIL. -/
def execNewelFail (d : Die) (s : State) : Host.Outcome State Fault Refusal :=
  .next (if s.dieUp d then newelFail d s else s)

/-- TWIN_TAKEOVER_DONE: the twin is the active Newel from its stored state; Vetch's buffer is empty; the die has
no standby left. -/
def twinTakeoverDone (d : Die) (s : State) : State :=
  let s := s.modDie d (fun x => { x with takeover := false, twin := .active, tlb := [] })
  newelNext d (s.repairedSince (s.die d).takeAt kNewel d.val 0 0 0 0 true)

/-- TWIN_TAKEOVER_DONE. -/
def execTwinTakeoverDone (d : Die) (s : State) : Host.Outcome State Fault Refusal :=
  .next (if (s.die d).takeover && !(s.die d).newelOn && !(s.die d).lost then twinTakeoverDone d s else s)

/-- STANDBY_TWIN_FAULT: a standing-by twin goes OFF with no pause, and the die is degraded. -/
def execStandbyTwinFault (d : Die) (s : State) : Host.Outcome State Fault Refusal :=
  .next (if s.dieUp d && decide ((s.die d).twin = .standby) && !(s.die d).takeover then
      (s.modDie d (fun x => { x with twin := .failed })).degraded kNewel d.val 0 0 0 0 0
    else s)

/-- DIE_UNIT_FAILURE: Landing, a controller, a stack or die management fails beyond its part spares (R435). -/
def dieUnitNo : DieUnit → Nat
  | .landing => 0
  | .mc m => m.val
  | .stack m => m.val
  | .management => 0

/-- DIE_UNIT_FAILURE. -/
def execDieUnitFailure (d : Die) (u : DieUnit) (s : State) : Host.Outcome State Fault Refusal :=
  .next (if (s.die d).railOn then loseDie d (dieUnitNo u) s else s)

/-! ### Hub halves, R439 to R441 -/

/-- Marks a hub half failed, in the spare map too. -/
def State.failHalf (s : State) (b : Bool) : State :=
  let cur := s.store.cur
  let spares := if b then { cur.spares with hubBFailed := true } else { cur.spares with hubAFailed := true }
  { s with
    hub := if b then { s.hub with bFailed := true, standbyOk := false } else { s.hub with aFailed := true, standbyOk := false }
    store := { s.store with dirty := true, cur := { cur with spares } } }

/-- A change-over of hub halves begins; a store write in progress leaves its bank invalid (R444). -/
def beginTakeover (requested : Bool) (s : State) : State :=
  { s with
    hub := { s.hub with takeover := true, requested, takeAt := s.now }
    store := { s.store with writing := none, dirty := s.store.dirty || s.store.writing.isSome } }

/-- HUB_HALF_FAIL: the standby takes over, and with none the module stops; within a change-over the failure is handled
when that completes (R431). -/
def hubHalfFail (s : State) : State :=
  if s.hub.takeover then { s with hub := { s.hub with again := true } }
  else if s.hub.standbyOk then beginTakeover false (s.failHalf s.hub.activeB)
  else moduleStop (s.failHalf s.hub.activeB)

/-- HUB_HALF_FAIL. -/
def execHubHalfFail (s : State) : Host.Outcome State Fault Refusal :=
  .next (if s.boot.powered && decide (3 ≤ s.boot.stage) then hubHalfFail s else s)

/-- HUB_TAKEOVER_DONE: the standby half is active, and the messages and completions that waited are sent. A requested change-over leaves the
former half standing by and nothing degraded; a failure leaves no standby (R440, R441). Block 7 holds the active half. -/
def hubTakeoverDone (s : State) : State :=
  let req := s.hub.requested
  let s := { s with hub := { s.hub with activeB := !s.hub.activeB, takeover := false, requested := false, standbyOk := req } }
  let s := s.extendSecurity.msixRelease.answersRelease
  let s := if req then s.repairedSince s.hub.takeAt kHubHalf hubDie 0 1 0 1 false
    else s.repairedSince s.hub.takeAt kHubHalf hubDie 0 0 0 0 true
  if s.hub.again then hubHalfFail { s with hub := { s.hub with again := false } } else s

/-- STANDBY_HALF_FAIL: the standby half fails without a pause, and the module is degraded. -/
def execStandbyHalfFail (s : State) : Host.Outcome State Fault Refusal :=
  .next (if s.hub.standbyOk && s.hubUp then (s.failHalf (!s.hub.activeB)).degraded kHubHalf hubDie 0 0 0 0 0 else s)

/-- HUB_SWAP written to AVL_CTL; ignored while STANDBY_OK is 0 (R441). -/
def hubSwap (s : State) : State := if s.hub.standbyOk then beginTakeover true s else s

/-! ### The persistent store, R442 to R445 -/

/-- The bytes of a store section, R443: the region map as the words of MGT_REGION (log 115), the fault log by index, and
for the others what the module's firmware keeps there. -/
def StoreData.section (x : StoreData) (seq k : Nat) : List Byte :=
  match k with
  | 2 => (tab 752 (fun j => let r := SMap.getD x.regions j (0, 0); toLe 4 (r.1 + 16 * r.2))).flatten
  | 3 => (tab 4096 (fun i => match SMap.find x.log i with
      | some e => e.bytes
      | none => List.replicate 64 0)).flatten
  | 7 => []
  | _ => Config.storeSection k seq

/-- Offset and length of each section: at multiples of 4 KiB from 0x1000. -/
def sectionTable (l : List (List Byte)) : List (Nat × Nat) :=
  (l.foldl (fun (a : List (Nat × Nat) × Nat) b =>
    (a.1 ++ [(a.2, b.length)], a.2 + ceilDiv b.length 4096 * 4096)) ([], 0x1000)).1

/-- Bytes in use of sections, a multiple of 64. -/
def storeLength (l : List (List Byte)) : Nat :=
  ceilDiv (natMax ((sectionTable l).map (fun t => t.1 + t.2))) 64 * 64

/-- A bank's header of Table 4 with DIGEST zero, and its sections behind it. -/
def Bank.body (x : Bank) : List Byte :=
  let l := tab 8 (x.data.section x.seq)
  let head := toLe 4 0x54534B43 ++ toLe 2 1 ++ toLe 2 0 ++ toLe 8 x.seq ++ toLe 4 (storeLength l) ++ toLe 12 0 ++
    ((sectionTable l).map (fun t => toLe 4 t.1 ++ toLe 4 t.2)).flatten
  (((sectionTable l).zip l).foldl (fun b t => slice b 0 t.1.1 ++ t.2) head) |>.take (storeLength l)
    |> fun b => slice b 0 (storeLength l)

/-- The bytes of a configuration bank that the module has written whole, R443: DIGEST is the SHA-512 of the rest. -/
def Bank.bytes (x : Bank) : List Byte := splice x.body 0x80 (sha512 x.body)

/-- Whether bytes are a valid bank: MAGIC, VERSION and LENGTH are correct and DIGEST matches (R445). -/
def bankBytesOk (b : List Byte) : Bool :=
  let n := leAt b 0x10 4
  leAt b 0 4 == 0x54534B43 && leAt b 4 2 == 1 && n % 64 == 0 && decide (0xC0 ≤ n) && decide (n ≤ 2 ^ 23) &&
    slice b 0x80 64 == sha512 (splice (slice b 0 n) 0x80 (List.replicate 64 0))

/-- The newest valid bank: B when set. -/
def Store.newestB (x : Store) : Bool := x.b.valid && (!x.a.valid || decide (x.a.seq < x.b.seq))

/-- SEQ of the newest valid bank; 0 when there is none. -/
def Store.newestSeq (x : Store) : Nat := if x.newestB then x.b.seq else if x.a.valid then x.a.seq else 0

/-- STORE_WRITE: the whole store is written into the bank that does not hold the newest valid copy, which is
invalid until DIGEST is written. -/
def storeWrite (s : State) : State :=
  let st := s.store
  let toB := !(st.newestB) && (st.a.valid || st.b.valid)
  let st := { st with dirty := false, writing := some toB, written := st.cur }
  { s with store := if toB then { st with b := { st.b with valid := false } } else { st with a := { st.a with valid := false } } }

/-- STORE_WRITE. -/
def execStoreWrite (s : State) : Host.Outcome State Fault Refusal :=
  .next (if s.boot.powered && s.hubUp && s.store.dirty && s.store.writing.isNone && decide (2 ≤ s.boot.stage) then storeWrite s
    else s)

/-- STORE_WRITE_DONE: DIGEST is written, and the bank is the newest valid one with the next SEQ. -/
def storeWriteDone (toB : Bool) (s : State) : State :=
  let st := s.store
  let bank : Bank := { valid := true, seq := st.newestSeq + 1, data := st.written }
  { s with store := if toB then { st with writing := none, b := bank } else { st with writing := none, a := bank } }

/-- STORE_WRITE_DONE. -/
def execStoreWriteDone (s : State) : Host.Outcome State Fault Refusal :=
  .next (match s.store.writing with
    | some b => if s.hubUp then storeWriteDone b s else s
    | none => s)

/-! ### Live firmware update, R447 to R449 -/

/-- STATE, RESULT of AVL_FW_STATUS. -/
def State.fwState (s : State) : Nat := s.regFld .avlFwStatus 0 0 0 3 0
def State.setFw (s : State) (state result : Nat) : State :=
  s.modReg .avlFwStatus 0 0 0 (fun v => setFld (setFld v 3 0 state) 11 8 result)

/-- Section 6 selects a bank for the next boot, and NEXT_BANK shows it. -/
def State.selectBank (s : State) (b : Bool) : State :=
  let s := s.setRegFld .avlFwStatus 0 0 0 17 17 (if b then 1 else 0)
  { s with store := { s.store with dirty := true, cur := { s.store.cur with bank := b } } }

/-- STAGE: the copy into the inactive bank starts; what that bank held is gone. Ignored while staging or
activating. -/
def fwStage (s : State) : State :=
  if s.fwState = 1 ∨ s.fwState = 3 then s
  else
    let b := !s.runBank
    let s := s.setBankImage b { s.bankImage b with headerOk := false }
    let s := { s with fw := { s.fw with staged := none } }
    s.setFw 1 0

/-- FW_STAGE_DONE: the copy ends and the image is verified: RESULT 3 for its address or length, 2 for an SVN
below SVN_FLOOR, 1 for any other check (R447, R464, R467). -/
def fwStageDone (s : State) : State :=
  match s.imageBytes (s.reg .avlFwSrc 0 0 0).toNat (s.reg .avlFwLen 0 0 0).toNat with
  | none => s.setFw 0 3
  | some bs =>
    let x := imageOf bs
    let s := s.setBankImage (!s.runBank) x
    let c := x.check s.store.cur.svnFloor
    if c = 0 then { s with fw := { s.fw with staged := some x } }.setFw 2 0
    else s.setFw 0 (if c = 4 then 2 else 1)

/-- FW_STAGE_DONE. -/
def execFwStageDone (s : State) : Host.Outcome State Fault Refusal :=
  .next (if s.fwState = 1 ∧ s.hubUp = true then fwStageDone s else s)

/-- ACTIVATE of a staged image: refused with RESULT 4 without a standby half and standing-by twins (R449). -/
def fwActivate (s : State) : State :=
  if s.fwState ≠ 2 then s
  else if !s.hub.standbyOk || allDies.any (fun d => decide ((s.die d).twin ≠ .standby)) then s.setFw 2 4
  else { s with fw := { s.fw with act := .standbyLoading, switched := [] } }.setFw 3 0

/-- Whether a repair is under way on a die: a firmware switch there waits for it (R431). -/
def State.repairing (s : State) (d : Die) : Bool :=
  (s.die d).takeover || (s.die d).moving.isSome ||
  (List.range 4).any (fun k => s.regFld .galSpareMap d.val 0 0 (8 * k + 7) (8 * k + 7) == 1) ||
  (List.finRange 4).any (fun m => (s.mc d m).mig.isSome || s.regFld .mcStatus d.val m.val 0 5 5 == 1) ||
  allPCores.any (fun p => (s.core d p).retireTo.isSome || (s.core d p).retireWait || (s.core d p).replay.isSome ||
    (List.range 2).any (fun k => s.regFld .coreSpadMap d.val p.val 0 (8 * k + 6) (8 * k + 6) == 1))

/-- The image bank that an activation makes run, with its measurements, section 6 and registers (R448 step 4,
R469). The old halves and Newels then load the new image. -/
def fwSelect (x : Image) (s : State) : State :=
  let b := !s.runBank
  let s := s.selectBank b
  let s := s.setRegFld .avlFwStatus 0 0 0 16 16 (if b then 1 else 0)
  let s := s.setRegFld .secBootStatus 0 0 0 4 4 (if b then 1 else 0)
  let s := s.setReg .secSvn 0 0 0 (BitVec.ofNat 64 x.svn)
  let s := { s with hub := { s.hub with standbyOk := false }, fw := { s.fw with act := .reloading, running := x } }
  (s.extendImage x).extendSecurity

/-- A die by its number. -/
def fwDie (d : Nat) : Die := ⟨d % 8, Nat.mod_lt _ (by decide)⟩

/-- Newel's hand-over to its twin begins: placement on the die pauses (R448 step 3). -/
def handStart (d : Nat) (s : State) : State :=
  s.modDie (fwDie d) (fun z => { z with takeover := true, ctr := { z.ctr with paused := true } })

/-- It ends: in the manner of R438 Vetch starts with an empty buffer, and a failure that waited is handled (R431). -/
def handEnd (d : Nat) (s : State) : State :=
  newelNext (fwDie d) (s.modDie (fwDie d) (fun z => { z with takeover := false, tlb := [] }))

/-- A rollback begins: the switched units are to return to the old image in reverse order, with the same pauses (R449). A
hand-over under way is taken back. -/
def fwRollback (result : Nat) (s : State) : State :=
  let hub := decide (s.fw.act ≠ .standbyLoading)
  let s := match s.fw.act with
    | .handing d => handEnd d s
    | _ => s
  { s with fw := { s.fw with act := .undo s.fw.switched.reverse hub result } }

/-- A rollback ends: the old image's values extend the log, and RESULT is shown (R449, R469). -/
def fwUndone (result : Nat) (s : State) : State :=
  ({ s with fw := { s.fw with act := .idle, switched := [], staged := none } }.extendImage s.fw.running).setFw 5 result

/-- FW_ACTIVATE_STEP_DONE: the next step of R448 or of a rollback. The loaded standby half takes over; the twins load; each
die hands over in turn; the bank is selected; the old units stand by again. Without a standby half or a standing-by twin
to switch to, the activation is rolled back (log 114). -/
def fwStep (x : Image) (s : State) : State :=
  match s.fw.act with
  | .idle => s
  | .standbyLoading =>
    if s.hub.standbyOk then beginTakeover true { s with fw := { s.fw with act := .twinsLoading } } else fwRollback 5 s
  | .twinsLoading => { s with fw := { s.fw with act := .handOver 0 } }
  | .handOver d =>
    if s.repairing (fwDie d) then s
    else if (s.die (fwDie d)).twin ≠ .standby then fwRollback 5 s
    else handStart d { s with fw := { s.fw with act := .handing d } }
  | .handing d =>
    handEnd d { s with fw := { s.fw with
      switched := s.fw.switched ++ [d], act := if 7 ≤ d then .selecting else .handOver (d + 1) } }
  | .selecting => fwSelect x s
  | .reloading =>
    { s with hub := { s.hub with standbyOk := true }, fw := { s.fw with act := .idle, staged := none, switched := [] } }.setFw 4 0
  | .undo [] hub result =>
    if hub && s.hub.standbyOk then beginTakeover true { s with fw := { s.fw with act := .undone result } } else fwUndone result s
  | .undo (d :: l) hub result =>
    if s.repairing (fwDie d) then s else handStart d { s with fw := { s.fw with act := .undoing d l hub result } }
  | .undoing d l hub result => handEnd d { s with fw := { s.fw with act := .undo l hub result } }
  | .undone result => fwUndone result s

/-- FW_ACTIVATE_STEP_DONE. -/
def execFwActivateStepDone (s : State) : Host.Outcome State Fault Refusal :=
  .next (match s.fw.staged with
    | some x => if s.hubUp then fwStep x s else s
    | none => s)

/-- Whether an activation may still be rolled back: until step 4 the standbys keep the old image. -/
def State.fwUndoable (s : State) : Bool :=
  match s.fw.act with
  | .standbyLoading => true
  | .twinsLoading => true
  | .handOver _ => true
  | .handing _ => true
  | .selecting => true
  | _ => false

/-- FW_START_CHECK_FAIL: new firmware fails its start check; RESULT 5. -/
def execFwStartCheckFail (s : State) : Host.Outcome State Fault Refusal :=
  .next (if s.fwUndoable && s.hubUp then fwRollback 5 s else s)

/-- ABORT written to AVL_CTL; RESULT 6. -/
def fwAbort (s : State) : State := if s.fwUndoable then fwRollback 6 s else s

/-- SELECT_NEXT written to AVL_CTL: the staged bank boots at the next cold reset. -/
def fwSelectNext (s : State) : State := if s.fwState = 2 then s.selectBank (!s.runBank) else s

/-! ### Power phases, R400 -/

/-- Where a rail group's fault records and spare map entries lie: its die, or the hub. -/
def railDie (d : Die) (g : Rail) : Nat := if railHub g then hubDie else d.val

/-- The key of a rail group in the spare map. -/
def railKey (d : Die) (g : Rail) : Nat := (if railHub g then 128 else 16 * d.val) + railIdx g

/-- Phases of a rail group that have failed, as the spare map counts them. -/
def State.phasesOut (s : State) (d : Die) (g : Rail) : Nat := SMap.getD s.store.cur.spares.phases (railKey d g) 0

/-- What shows and acts of a rail group with `out` failed phases: PWD_PHASES, and of a third failure and more the
DEGRADED bit and the cap of its islands (R400). -/
def showPhases (d : Die) (g : Rail) (out : Nat) (s : State) : State :=
  let left := railN g + 2 - out
  let s := match railField g with
    | some (hi, lo) => s.setRegFld .pwdPhases d.val 0 0 hi lo left
    | none => s
  if out ≤ 2 then s
  else
    let s := if (railField g).isSome then s.setRegFld .pwdStatus d.val 0 0 (8 + railIdx g) (8 + railIdx g) 1 else s
    (railIslands g).foldl (fun s x => s.modIsland d x (fun i => { i with capRail := railCap d g left })) s

/-- A hub half loses its rails: it fails, the active half as in HUB_HALF_FAIL, a standby without a pause. -/
def hubRailOff (b : Bool) (s : State) : State :=
  if s.hub.activeB = b then hubHalfFail s
  else if s.hub.standbyOk then (s.failHalf b).degraded kHubHalf hubDie 0 0 0 0 0
  else s.failHalf b

/-- A rail group is switched off: the cores of a VCG group are retired; the hub half of a hub rail fails; the standby
rail is only degraded (log 110); any other loses the die, of which VDM's loss leaves no register (R400, R435, R512). -/
def railOff (d : Die) (g : Rail) (s : State) : State :=
  match g with
  | .vcg k => (List.finRange 8).foldl (fun s (j : Fin 8) => retireCore d ⟨8 * k.val + j.val, by omega⟩ s) s
  | .vhubA => hubRailOff false s
  | .vhubB => hubRailOff true s
  | .vstby => s
  | .vdm => (loseDie d (railIdx g) s).modDie d (fun x => { x with railOn := false })
  | _ => loseDie d (railIdx g) s

/-- PHASE_FAIL: the first two failures are repaired; a third degrades the group and caps its islands; with fewer
than half of N phases the group is off. -/
def phaseFail (d : Die) (g : Rail) (s : State) : State :=
  let out := s.phasesOut d g + 1
  let left := railN g + 2 - out
  let cur := s.store.cur
  let spares := { cur.spares with phases := SMap.put cur.spares.phases (railKey d g) out }
  let s := { s with store := { s.store with dirty := true, cur := { cur with spares } } }
  let s := if railHub g then s else s.bumpSat .pwdEvents d.val 0 7 0 1
  let s := showPhases d g out s
  if out ≤ 2 then s.repaired kPhase (railDie d g) (railIdx g) 0 0 0 (2 - out) (out == 2)
  else
    let s := s.degraded kPhase (railDie d g) (railIdx g) 0 0 0 0
    if 2 * left < railN g then railOff d g s else s

/-- PHASE_FAIL. -/
def phaseFailEv (d : Die) (g : Rail) (s : State) : State :=
  if (if railHub g then s.boot.powered else s.dieUp d) && decide (s.phasesOut d g < railN g + 2) then phaseFail d g s
  else s

/-! ### Clock generators, R408 -/

/-- CLKGEN_SWITCH: the die goes to the spare generator, a repaired fault; the loss of that one loses the die. -/
def clkgenSwitch (d : Die) (s : State) : State :=
  if (s.reg .pwdStatus d.val 0 0).getLsbD 0 then loseDie d 0 s
  else
    let s := (s.setRegFld .pwdStatus d.val 0 0 0 0 1).bumpSat .pwdEvents d.val 0 15 8 1
    let s := s.modCtr d (fun c => { c with paused := true })
    s.repaired kClockGen d.val 0 0 20 0 0 true

/-- CLKGEN_SWITCH. -/
def execClkgenSwitch (d : Die) (s : State) : Host.Outcome State Fault Refusal :=
  .next (if s.dieUp d then clkgenSwitch d s else s)

end Sys2Proof.Machine
end

