-- ==== Sys2Proof/Machine/Energy.lean ====
section
/-! DEFINITION. The energy ledger (R412 to R419) and the check of the dies' copies of fabric time (R390, R425). -/

namespace Sys2Proof.Machine

/-- An energy event: MSI-X vector 258 and its count (R352, R423). -/
def State.energyEvent (s : State) : State := (s.bumpSat .pwrEvents 0 0 31 24 1).msix vecEnergy

/-! ### The energy of the domains, R412 -/

/-- A measured energy shared out in proportion to activity: floor(E × w / W) each, what that leaves to the last; in equal
parts when there was no activity (log 112). -/
def shareOut (e : Nat) (w : List Nat) : List Nat :=
  let w := if natSum w = 0 then w.map (fun _ => 1) else w
  let l := w.map (fun x => e * x / natSum w)
  l.zipIdx.map (fun x => if x.2 + 1 = l.length then x.1 + (e - natSum l) else x.1)

/-- A quarter of a rail's energy. -/
def quarter (e g : Nat) : Nat := (shareOut e [1, 1, 1, 1]).getD g 0

/-- The measured energy in nJ of domain `x` in an interval with account `m`, of the dies' meters and the hub's. -/
def domNano (dies : List DieMeas) (hub : Nat) (m : SMap Nat) (x : Nat) : Nat :=
  let z := fun d => dies.getD d {}
  if x < 32 then
    let y := z (x / 4)
    y.vcg.getD (x % 4) 0 + quarter (y.vsh - y.media) (x % 4) + quarter y.vmc (x % 4) + quarter y.vdm (x % 4)
  else if x < 64 then
    let d := (x - 32) / 4
    (shareOut (z d).vhbm (tab 4 (fun k => SMap.getD m (acStack (4 * d + k)) 0))).getD (x % 4) 0
  else if x < 80 then
    let y := z ((x - 64) / 2)
    (shareOut y.vopt [y.words.1, y.words.2]).getD (x % 2) 0
  else if x < 88 then min (z (x - 80)).media (z (x - 80)).vsh
  else hub

/-- The quantity A of domain `x` and context `n`'s part a_n of it, Table 4. A step back of fabric time makes an interval
longer than 100 µs. -/
def domParts (dies : List DieMeas) (m : SMap Nat) (x : Nat) : Nat × List (CtxId × Nat) :=
  let all := List.finRange 64
  if x < 32 then
    let l := all.map (fun n => (n, SMap.getD m (acHold (x / 4) n.val) 0))
    (max ledgerNs (natSum (l.map (fun p => p.2))), l)
  else if x < 64 then
    (SMap.getD m (acStack (x - 32)) 0,
      all.map (fun n => (n, natSum (tab 9 (fun src => SMap.getD m (acReq (x - 32) n.val src) 0)))))
  else if x < 80 then
    (SMap.getD m (acPort (x - 64)) 0, all.map (fun n => (n, SMap.getD m (acPortCtx (x - 64) n.val) 0)))
  else if x < 88 then ((dies.getD (x - 80) {}).medCyc, (dies.getD (x - 80) {}).medParts)
  else (0, [])

/-- Charges a context's share of a domain (R414, R417, R418). -/
def State.charge (s : State) (dom : Nat) (n : CtxId) (e : Nat) : State :=
  let s := s.modCtx n (fun c => { c with
    winUsed := c.winUsed + e
    coreE := if dom < 32 then c.coreE + e else c.coreE
    hbmE := if 32 ≤ dom ∧ dom < 64 then c.hbmE + e else c.hbmE
    portE := if 64 ≤ dom ∧ dom < 80 then c.portE + e else c.portE
    mediaE := if 80 ≤ dom then c.mediaE + e else c.mediaE })
  s.bump .pwrCtxTotal 0 n.val e

/-- The whole µJ that a domain adds with the fraction carried from the interval before (R413). -/
def State.domMicro (s : State) (dies : List DieMeas) (hub : Nat) (m : SMap Nat) (x : Nat) : Nat :=
  (SMap.getD s.ledgerFrac x 0 + domNano dies hub m x) / 1000

/-- One domain of an interval: its whole µJ with the fraction carried, the shares floor(E × a_n / A), and what
they leave (R413, R414). The hub is always unattributed. -/
def ledgerDomain (dies : List DieMeas) (hub : Nat) (m : SMap Nat) (s : State) (x : Nat) : State :=
  let e := s.domMicro dies hub m x
  let s := { s with ledgerFrac := SMap.set s.ledgerFrac x 0 ((SMap.getD s.ledgerFrac x 0 + domNano dies hub m x) % 1000) }
  let s := s.bump .pwrDomEnergy 0 x e
  let (total, l) := domParts dies m x
  let parts := if total = 0 then []
    else (l.filter (fun p => s.ctxOpen p.1 && decide (p.2 ≠ 0))).map (fun (n, a) => (n, e * a / total))
  let s := parts.foldl (fun s (n, k) => s.charge x n k) s
  s.bump .pwrUnattr 0 0 (e - natSum (parts.map (fun p => p.2)))

/-- Whether what meters and counts an interval's readings can be: the cycles of contexts within the island's, once
each. -/
def ledgerOk (dies : List DieMeas) : Bool :=
  dies.all (fun m => decide ((m.medParts.map (fun p => p.1)).Nodup) &&
    decide (natSum (m.medParts.map (fun p => p.2)) ≤ m.medCyc))

/-! ### Windows and DISPATCHes, R415, R416 -/

/-- The window of a context at update instant t: a new one begins with nothing used; else one that is used up is
exhausted, once (R350, R352, R416). -/
def windowAt (t : Nat) (n : CtxId) (s : State) : State :=
  let w := max 1 (s.regFld .hifCtxSched 0 n.val 0 12 0) * 1000000
  let c := s.ctx n
  let start := t / w * w
  let budget := (s.reg .hifCtxEnergyBudget 0 n.val 0).toNat
  let s := if start ≠ c.winStart then
      s.modCtx n (fun c => { c with winStart := start, winUsed := 0, exhausted := false })
    else if budget ≠ 0 ∧ budget ≤ c.winUsed ∧ c.exhausted = false then
      (s.modCtx n (fun c => { c with exhausted := true })).energyEvent
    else s
  s.setReg .pwrCtxWindow 0 n.val 0 (BitVec.ofNat 64 (s.ctx n).winUsed)

/-- The energy of an interval of a DISPATCH that ran in it, of the domains' µJ `es`: its context's charges of the core
groups of its dies, and of the stacks' charges the share of the bytes that came from those dies (R415, log 112). -/
def dispMicro (y : Disp) (m : SMap Nat) (es : List Nat) : Nat :=
  let share := fun (x a total : Nat) => if total = 0 then 0 else es.getD x 0 * a / total
  natSum (y.dies.flatMap (fun d => tab 4 (fun g =>
    share (4 * d.val + g) (SMap.getD m (acHold d.val y.ctx.val) 0) (domParts [] m (4 * d.val)).1))) +
  natSum (tab 32 (fun k =>
    share (32 + k) (natSum (y.dies.map (fun d => SMap.getD m (acReq k y.ctx.val d.val) 0))) (SMap.getD m (acStack k) 0)))

/-- Adds a DISPATCH's energy of an interval; at or above its budget it runs at 700 MHz from here, when it next runs if it
has been pre-empted (R352, R415, R416). -/
def dispEnergy (m : SMap Nat) (es : List Nat) (s : State) (seq : Nat) : State :=
  match s.disp seq with
  | none => s
  | some y =>
    if SMap.getD m (acRan seq) 0 = 0 then s
    else
      let e := y.energy + dispMicro y m es
      let hit := (match y.budget with
        | some b => decide (b ≤ e)
        | none => false) && !y.capped
      let s := s.modDisp seq (fun z => { z with energy := e, capped := z.capped || hit })
      if hit then s.energyEvent else s

/-- Feeds as read at an update instant (R397, R423). -/
def State.readFeeds (s : State) (voltA voltB : Nat) : State :=
  (s.showFeed .a (s.feedUsed .a) voltA).showFeed .b (s.feedUsed .b) voltB

/-- LEDGER_UPDATE of instant `t` with the account of its interval. -/
def ledgerUpdate (t : Nat) (m : SMap Nat) (dies : List DieMeas) (hub inA inB voltA voltB : Nat) (s : State) : State :=
  let es := tab 89 (s.domMicro dies hub m)
  let s := (List.range 89).foldl (ledgerDomain dies hub m) s
  let s := (s.disps.map (fun y => y.seq)).foldl (dispEnergy m es) s
  let s := ((s.bump .pwrInEnergyA 0 0 inA).bump .pwrInEnergyB 0 0 inB).setReg .pwrLedgerTime 0 0 0 (BitVec.ofNat 64 t)
  let s := ((List.finRange 64).filter (fun n => s.ctxOpen n)).foldl (fun s n => windowAt t n s) s
  s.readFeeds voltA voltB

/-- LEDGER_UPDATE: the oldest instant that is due; one that fell within a change-over of hub halves is performed after
it (R440). -/
def execLedgerUpdate (dies : List DieMeas) (hub inA inB voltA voltB : Nat) (s : State) :
    Host.Outcome State Fault Refusal :=
  .next (match s.ledgerQ with
    | (t, m) :: rest =>
      if s.boot.powered && s.hubUp && ledgerOk dies then
        ledgerUpdate t m dies hub inA inB voltA voltB { s with ledgerQ := rest }
      else s
    | [] => s)

/-- ECAL_REFINE: new calibration values, at most once in 24 h, into PWR_ECAL and the store (R419). -/
def ecalRefine (vals : List Nat) (s : State) : State :=
  let s := vals.zipIdx.foldl (fun s (v, k) => s.setReg .pwrEcal 0 k 0 (BitVec.ofNat 64 (v % 65536))) s
  { s with store := { s.store with dirty := true, cur := { s.store.cur with ecal := vals, ecalAt := some s.now } } }

/-- ECAL_REFINE. -/
def execEcalRefine (vals : List Nat) (s : State) : Host.Outcome State Fault Refusal :=
  let late := match s.store.cur.ecalAt with
    | some t => decide (t + 86400 * 10 ^ 9 ≤ s.now) || decide (s.now < t)
    | none => true
  .next (if s.hubUp && decide (10 ≤ s.boot.stage) && decide (vals.length = 19) && late then ecalRefine vals s else s)

/-- DIE_TIME_CHECK: TIME_DIE_OFFSET shows each die's signed offset in ps (R390, R425). -/
def execDieTimeCheck (offsets : List (Die × Int)) (s : State) : Host.Outcome State Fault Refusal :=
  .next (if s.boot.powered then
      offsets.foldl (fun s (d, o) => s.setReg .timeDieOffset 0 d.val 0 (BitVec.ofNat 64 (unsgn 16 o))) s
    else s)

end Sys2Proof.Machine
end

