-- ==== Sys2Proof/Machine/Startup.lean ====
section
/-! DEFINITION. Start-up (R457 to R461), the choice and recovery of firmware banks (R464 to R467), and the PCIe
link's training and narrowing (R319, R320, R458). -/

namespace Sys2Proof.Machine

/-! ### The spare map, R457 step 8 -/

/-- Roles and logical indices of a die's cores by the spare map: retired cores, then the first 28 others in
service in increasing physical index, the rest spare. -/
def State.assignCores (s : State) (d : Die) : State :=
  let retired := s.store.cur.spares.cores
  let good := allPCores.filter (fun p => !retired.contains (d.val, p.val))
  let s := allPCores.foldl (fun s p => s.modCore d p (fun _ =>
    { role := if good.contains p then .spare else .retired })) s
  (good.take 28).zipIdx.foldl (fun s (p, i) =>
    s.modCore d p (fun k => { k with role := .inService, logical := if h : i < 28 then some ⟨i, h⟩ else none })) s

/-- The rail groups of a die. -/
def dieRails : List Rail := [.vcg 0, .vcg 1, .vcg 2, .vcg 3, .vsh, .vmc, .vhbm, .vopt, .vdm]

/-- The units that the spare map names, and the registers that show it. Yarrow knows the units from step 5 on, as the
self-test finds spares there; a read of the registers shows them from step 8 on (R457). -/
def State.applySpares (s : State) : State :=
  let m := s.store.cur.spares
  let s := allDies.foldl (fun s d => s.assignCores d) s
  let s := m.arrays.foldl (fun s (k, v) => s.setReg .coreArrayMap (k / 32) (k % 32) 0 (v.setWidth 64)) s
  let s := m.spads.foldl (fun s (k, v) => s.setReg .coreSpadMap (k / 32) (k % 32) 0 (v.setWidth 64)) s
  let s := m.gallery.foldl (fun s (d, v) => s.setReg .galSpareMap d 0 0 (v.setWidth 64)) s
  let s := m.hbm.foldl (fun s (k, x) =>
    let rows := natSum (x.retiredRows.map (fun e => e.2))
    let s := s.setReg .mcRetire (k / 4) (k % 4) 0 (BitVec.ofNat 64 (rows + x.bankRetired.length * 2 ^ 15))
    let s := s.setReg .mcLaneRepair (k / 4) (k % 4) 0 (BitVec.ofNat 64 (natSum (x.laneUsed.map (fun e => e.2))))
    { s with mcs := SMap.put s.mcs k x }) s
  let s := m.ports.foldl (fun s (k, x, v) =>
    { s.setReg .lndPortStatus (k / 2) (k % 2) 0 (v.setWidth 64) with ports := SMap.put s.ports k { x with trained := false } }) s
  (m.phases.filter (fun e => decide (e.1 < 128))).foldl (fun s (k, out) =>
    match dieRails.find? (fun g => railIdx g == k % 16) with
    | some g => showPhases ⟨k / 16 % 8, Nat.mod_lt _ (by decide)⟩ g out s
    | none => s) s

/-- KINDs whose spares in some unit are used up as the spare map stands, or that it records as lost. -/
def State.worn (s : State) : List Nat :=
  let m := s.store.cur.spares
  (if allDies.any (fun d => (s.spareCores d).isEmpty) then [kCore] else []) ++
  (if m.arrays.any (fun e => linesLeft (e.2.setWidth 64) == 0) then [kArrayLine] else []) ++
  (if m.spads.any (fun e => fld (e.2.setWidth 64) 5 0 != 0x3F && fld (e.2.setWidth 64) 13 8 != 0x3F) then [kSpadBank] else []) ++
  (if m.gallery.any (fun e => s.galSpares ⟨e.1 % 8, Nat.mod_lt _ (by decide)⟩ == 0) then [kGalleryBank] else []) ++
  (if m.hbm.any (fun e => decide (16384 ≤ natSum (e.2.retiredRows.map (fun x => x.2)))) then [kHbmRow] else []) ++
  (if m.hbm.any (fun e => decide (31 ≤ e.2.bankRetired.length)) then [kHbmBank] else []) ++
  (if m.hbm.any (fun e => e.2.laneUsed.any (fun x => decide (2 ≤ x.2))) then [kHbmLane] else []) ++
  (if m.ports.any (fun e => decide (e.2.1.txGood < 9) || decide (e.2.1.rxGood < 9)) then [kFabricLane] else []) ++
  (if m.ports.any (fun e => decide (2 ≤ e.2.1.lasersOut)) then [kLaser] else []) ++
  (if m.phases.any (fun e => decide (2 ≤ e.2)) then [kPhase] else []) ++
  (if m.hubAFailed || m.hubBFailed then [kHubHalf] else []) ++
  (if s.feedUsed .a != s.feedUsed .b then [kFeed] else [])

/-! ### Self-test failures, R459 -/

/-- Retires a core at once: no work runs. -/
def retireNow (d : Die) (p : PCore) (s : State) : State :=
  let s := retireCore d p s
  match (s.core d p).retireTo with
  | some q => coreRetireDone d p q s
  | none => s

/-- A row or column of an array takes a spare, or its core is retired. -/
def testLine (d : Die) (p : PCore) (isRow : Bool) (line : Nat) (s : State) : State :=
  match freeLine (s.reg .coreArrayMap d.val p.val 0) isRow with
  | none => retireNow d p s
  | some lo =>
    let s := s.setRegFld .coreArrayMap d.val p.val 0 (lo + 7) lo line
    let left := linesLeft (s.reg .coreArrayMap d.val p.val 0)
    let detail := if isRow then 0xFE + line * 256 + 0x20000 else line + 0xFE00 + 0x30000
    (s.saveArrayMap d p).repaired kArrayLine d.val p.val detail 22 0 left (left == 0)

/-- A scratchpad bank takes a spare, or its core is retired. -/
def testSpad (d : Die) (p : PCore) (bank : Fin 32) (s : State) : State :=
  let v := s.reg .coreSpadMap d.val p.val 0
  if fld v 5 0 = 0x3F then spadBankSwitch d p 0 (spadBankMigrate d p bank s)
  else if fld v 13 8 = 0x3F then spadBankSwitch d p 1 (spadBankMigrate d p bank s)
  else retireNow d p s

/-- A Gallery bank takes a spare, or stays under ECC. -/
def testGallery (d : Die) (bank : Fin 64) (s : State) : State :=
  match (List.finRange 4).find? (fun k => s.galSub d k.val == 0x7F) with
  | some k => galleryBankSwitch d k (galleryBankMigrate d bank s)
  | none => galleryBankMigrate d bank s

/-- A hub half fails its test: the other one is active, as block 7 shows (R468); with both failed start-up ends out of
service. -/
def testHalf (b : Bool) (s : State) : State :=
  if (if b then s.hub.bFailed else s.hub.aFailed) then s
  else if (if b then s.hub.aFailed else s.hub.bFailed) then lossOf kHubHalf hubDie 0 0 (s.failHalf b)
  else
    let was := s.hub.activeB
    let s := s.failHalf b
    let s := if was = b then { s with hub := { s.hub with activeB := !b } }.extendSecurity else s
    s.repaired kHubHalf hubDie 0 0 0 0 0 true

/-- The migrations under way on a controller end at once, a bank's that the last row's brings on included: no work
runs. -/
def endMigs (d : Die) (m : Mc) (s : State) : State :=
  (List.range 3).foldl (fun s _ => match (s.mc d m).mig with
    | some (b, k) => migrationSwitch d m b k s
    | none => s) s

/-- A bank of a stack fails: it goes to a spare bank, or with none left its rows retire one by one (R294, R295). -/
def testBank (d : Die) (m : Mc) (row : RowId) (s : State) : State :=
  if s.regFld .mcRetire d.val m.val 0 19 15 < 31 then s.startMig d m true (bankKeyOf (rowKey row)) else rowRetire d m row s

/-- A unit that fails self-test is handled as if it had failed in service (R459). -/
def testFail (f : TestFail) (s : State) : State :=
  match f with
  | .core d p => retireNow d p s
  | .arrayRow d p r => testLine d p true r.val s
  | .arrayCol d p c => testLine d p false c.val s
  | .spadBank d p b => testSpad d p b s
  | .galleryBank d b => testGallery d b s
  | .hbmRow d m row => endMigs d m (rowRetire d m row s)
  | .hbmBank d m row => endMigs d m (testBank d m row s)
  | .hbmLane d m pc lane => hbmLaneRepair d m pc lane s
  | .fabricLane p tx lane => fabricLaneSpare p tx lane.val s
  | .laser p k => laserSpare p k.val s
  | .teasel d => (s.modDie d (fun x => { x with teaselOut := true })).degraded kTeasel d.val 0 0 0 0 0
  | .media d => (s.modDie d (fun x => { x with mediaOut := true })).degraded kMedia d.val 0 0 0 0 0
  | .bridge b => if s.hub.bridges.contains b then s else bridgeFail b s
  | .clockGen d => clkgenSwitch d s
  | .dieUnit d => loseDie d 0 s
  | .hubHalf b => testHalf b s

/-! ### The steps -/

/-- SEC_BOOT_STATUS.STAGE and the step of start-up. -/
def State.setStage (s : State) (k : Nat) : State :=
  { s with boot := { s.boot with stage := k } }.setRegFld .secBootStatus 0 0 0 3 0 k

/-- The check that the ROM makes of a bank in step 2: R464 but for the digests of components 2 to 4. -/
def romCheck (x : Image) (floor : Nat) : Nat := { x with digestsOk := true }.check floor

/-- Recovery of R466: neither bank is valid. -/
def enterRecovery (s : State) : State :=
  { s with boot := { s.boot with recovery := true } }.setRegFld .secBootStatus 0 0 0 3 0 15

/-- The image bank that boots, with the registers that show it. -/
def bootFrom (b : Bool) (s : State) : State :=
  let x := s.bankImage b
  let n := if b then 1 else 0
  let s := s.setRegFld .secBootStatus 0 0 0 4 4 n
  let s := s.setReg .secSvn 0 0 0 (BitVec.ofNat 64 x.svn)
  let s := (s.setRegFld .avlFwStatus 0 0 0 16 16 n).setRegFld .avlFwStatus 0 0 0 17 17 (if s.store.cur.bank then 1 else 0)
  { s with fw := { s.fw with running := x } }

/-- The fall back to the other bank: FALLBACK, and section 6 selects that bank (R465). -/
def fallBack (b : Bool) (s : State) : State :=
  bootFrom b ((s.selectBank b).setRegFld .secBootStatus 0 0 0 8 8 1)

/-- Step 2: the ROM reads the store and takes the selected bank, else the other, else recovers. -/
def bootStep2 (s : State) : State :=
  let st := s.store
  let bad := (if st.a.valid then 0 else 1) + (if st.b.valid then 0 else 1)
  let lost := !st.a.valid && !st.b.valid
  let s := { s.bumpSat .avlStoreStatus 0 0 15 8 bad with store := { st with lost, dirty := st.dirty || lost } }
  let s := s.setRegFld .avlStoreStatus 0 0 0 4 4 (if lost then 1 else 0)
  let b := st.cur.bank
  let c := romCheck (s.bankImage b) st.cur.svnFloor
  if c = 0 then (bootFrom b s).setStage 2
  else
    let s := s.setRegFld .secBootStatus 0 0 0 15 12 c
    let c' := romCheck (s.bankImage (!b)) st.cur.svnFloor
    if c' = 0 then (fallBack (!b) s).setStage 2
    else enterRecovery (s.setRegFld .secBootStatus 0 0 0 15 12 c')

/-- Step 3: measurements, the halves unseal the key, the standby half mirrors, the hub firmware starts. -/
def bootStep3 (ev : StartupEv) (s : State) : State :=
  let x := s.fw.running
  let s := ((s.extend 1 Config.bootRom).extend 2 x.header).extend 3 (x.comps.getD 0 0)
  let ok := s.store.cur.identityOk && !s.store.lost
  let a := ev.unsealA && ok && !s.hub.aFailed
  let b := ev.unsealB && ok && !s.hub.bFailed
  let s := s.setReg .secIdentity 0 0 0 (BitVec.ofNat 64 ((if a then 1 else 0) + (if b then 2 else 0) + (if ok then 4 else 0)))
  let s := { s with hub := { s.hub with canSignA := a, canSignB := b, standbyOk := !s.hub.aFailed && !s.hub.bFailed } }
  let s := if s.boot.oos then s.setRegFld .secBootStatus 0 0 0 9 9 1 else s
  s.setStage 3

/-- Step 5: the die rails rise and the remaining components are checked and measured; a failing digest fails the
bank (R464). -/
def bootStep5 (s : State) : State :=
  let x := s.fw.running
  if !x.digestsOk then
    let s := s.setRegFld .secBootStatus 0 0 0 15 12 5
    let other := !s.runBank
    if s.regFld .secBootStatus 0 0 0 8 8 = 1 ∨ romCheck (s.bankImage other) s.store.cur.svnFloor ≠ 0 then enterRecovery s
    else { fallBack other s with meas := {} }.setStage 2
  else
    let s := allDies.foldl (fun s d => s.modDie d (fun z => { z with railOn := true })) s
    let s := s.applySpares
    let s := ((s.extend 4 (x.comps.getD 1 0)).extend 5 (x.comps.getD 2 0)).extend 6 (x.comps.getD 3 0)
    let s := { s.extendSecurity with boot := { s.boot with modPwrgd := true } }
    let s := (List.range 19).foldl (fun s k => s.setReg .pwrEcal 0 k 0 (BitVec.ofNat 64
      (s.store.cur.ecal.getD k (Config.factoryEcal k).toNat))) s
    s.setStage 5

/-- HBM training: every pseudo-channel has trained now, at its stack's temperature (R297, R457). -/
def trainHbm (s : State) : State :=
  allDies.foldl (fun s d => (List.finRange 4).foldl (fun s m =>
    s.modMc d m (fun x => { x with trained := tab 32 (fun pc => (pc, s.now, x.temp)) })) s) s

/-- Steps 6 and 7: units that fail their tests; step 7 trains HBM, and after it all memory is zero (R454). -/
def bootTest (k : Nat) (ev : StartupEv) (s : State) : State :=
  let s := if k = 7 then trainHbm s else s
  let s := ev.fails.foldl (fun s f => testFail f s) s
  let s := if k = 7 then { s with mem := [], scrambled := [], bad := [] } else s
  if s.boot.oos then s.setRegFld .secBootStatus 0 0 0 9 9 1 else s.setStage k

/-- A function that start-up takes to ON. -/
def State.turnOn (s : State) (f : FuncId) : State := s.setFn f { st := .on, en := true }

/-- A map on a machine whose regions are all interleaved: the commit's result, then the map, or the refusal's record. -/
def takeMap (m : List Region) (s : State) : State :=
  let r := s.commitResult m
  let s := s.setRegFld .mgtRegionCommit 0 0 0 2 1 r
  if r = 0 then
    { s with regionMap := (List.range 752).foldl (fun acc j => SMap.set acc j .interleaved (m.getD j .interleaved)) [] }
  else s.logFault 0 0 hubDie 0 r 0 0 0

/-- The stored region map, loaded into the shadow map, is committed; a refused one leaves all regions interleaved, and
the refusal is logged (R30, R31, log 74). -/
def commitStored (s : State) : State :=
  let rows := s.store.cur.regions
  let s := rows.foldl (fun s (j, mode, home) => s.setReg .mgtRegion 0 j 0 (BitVec.ofNat 64 (mode + 16 * home))) s
  takeMap (tab 752 (fun j => rowRegion (SMap.getD rows j (0, 0)))) { s with regionMap := [] }

/-- Step 8: the stored region map is committed (R31); cores in service, Teasel, Vetch, media engines and DMA queues
are ON. -/
def bootStep8 (s : State) : State :=
  let s := commitStored s
  let s := allDies.foldl (fun s d =>
    let s := (s.inService d).foldl (fun s p => s.turnOn (.core d p)) s
    let s := if (s.die d).teaselOut then s else s.turnOn (.teasel d)
    let s := if (s.die d).mediaOut then s else s.turnOn (.media d)
    s.turnOn (.vetch d)) s
  let s := allQueues.foldl (fun s q => s.turnOn (.dmaq q)) s
  let s := s.worn.foldl (fun s k => s.setRegFld .avlDegraded 0 0 0 k k 1) s
  s.setStage 8

/-- Step 9: the ports are enabled and trained; a ring whose port fails is BYPASSED with REASON 3 and the port is
degraded (R461). -/
def bootStep9 (ev : StartupEv) (s : State) : State :=
  let s := (List.finRange 16).foldl (fun (s : State) (p : PortId) =>
    let s := s.turnOn (.port p)
    if ev.portFails.contains p then
      (s.modFring (portRing p) (fun x => { x with st := .bypassed, reason := 3 })).degraded kFabricLane (portDie p).val p.val 0 0 0 0
    else s.modPort p (fun x => { x with trained := true })) s
  (loopTrain s).setStage 9

/-- Step 10: the module is job-ready. -/
def bootStep10 (s : State) : State := (s.setReg .secJobReadyTime 0 0 0 (BitVec.ofNat 64 s.now)).setStage 10

/-- The step that completes next; step 4 waits for the link without holding the others (R457). -/
def State.nextStep (s : State) : Option Nat :=
  let k := s.boot.stage
  if !s.boot.powered || s.boot.recovery then none
  else if k = 1 ∧ s.boot.resetReqLow = true then none
  else if k = 3 then (if s.boot.linkUp then some 4 else if s.boot.oos then none else some 5)
  else if 4 ≤ k ∧ s.boot.oos = true then none
  else if k = 10 then (if s.fab.selfAdmitted then some 11 else none)
  else if k ≤ 9 then some (k + 1) else none

/-- STARTUP_STEP_DONE. -/
def startupStep (k : Nat) (ev : StartupEv) (s : State) : State :=
  match k with
  | 1 => s.setStage 1
  | 2 => bootStep2 s
  | 3 => bootStep3 ev s
  | 4 => { s with boot := { s.boot with cfgReady := true } }.setStage 4
  | 5 => bootStep5 s
  | 6 => bootTest 6 ev s
  | 7 => bootTest 7 ev s
  | 8 => bootStep8 s
  | 9 => bootStep9 ev s
  | 10 => bootStep10 s
  | _ => s.setStage k

/-- STARTUP_STEP_DONE. -/
def execStartupStepDone (ev : StartupEv) (s : State) : Host.Outcome State Fault Refusal :=
  .next (match s.nextStep with
    | some k => startupStep k ev s
    | none => s)

/-! ### SEC_CTL -/

/-- RECOVER: the ROM copies the image, checks it and writes it to bank A; a valid one boots by a cold reset
(R466). HBM does not run in recovery, so the image lies in host memory. -/
def secRecover (s : State) : State :=
  if !s.boot.recovery then s
  else
    let a := (s.reg .secRcvSrc 0 0 0).toNat
    match (if isHost a then s.imageBytes a (s.reg .secRcvLen 0 0 0).toNat else none) with
    | none => s.setRegFld .secBootStatus 0 0 0 15 12 1
    | some bs =>
      let x := imageOf bs
      let s := s.setBankImage false x
      let c := x.check s.store.cur.svnFloor
      if c = 0 then coldReset 4 s else s.setRegFld .secBootStatus 0 0 0 15 12 c

/-- COMMIT_SVN: SVN_FLOOR rises to the SVN of the running image (R467). -/
def secCommitSvn (s : State) : State :=
  let x := s.fw.running.svn
  if s.store.cur.svnFloor < x then
    { s with store := { s.store with dirty := true, cur := { s.store.cur with svnFloor := x } } }.extendSecurity
  else s

/-! ### The link, R319, R320 -/

/-- The widest width whose lanes all remain, with lane reversal: code of WIDTH, reversal. `cap` is MAX_WIDTH. -/
def widthOf (bad : BitVec 16) (cap : Nat) : Option (Nat × Bool) :=
  let ok (lo n : Nat) : Bool := (List.range n).all (fun k => !bad.getLsbD (lo + k))
  let cap := if cap = 3 then 0 else cap
  if cap = 0 ∧ ok 0 16 = true then some (0, false)
  else if cap ≤ 1 ∧ ok 0 8 = true then some (1, false)
  else if cap ≤ 1 ∧ ok 8 8 = true then some (1, true)
  else if ok 0 4 then some (2, false)
  else if ok 12 4 then some (2, true)
  else none

/-- Lanes that a bit vector marks. -/
def laneCount (bad : BitVec 16) : Nat := ((List.range 16).filter (fun k => bad.getLsbD k)).length

/-- HIF_LINK_STATUS, R318 Table 10. -/
def linkStatus (excluded : Nat) (rev : Bool) (width rate : Nat) : W64 :=
  BitVec.ofNat 64 (excluded * 2 ^ 16 + (if rev then 2 ^ 6 else 0) + (if 2 ≤ rate then 2 ^ 5 else 0) + width * 8 + rate)

/-- The link is down; EXCLUDED counts the lanes that training or narrowing has excluded. -/
def linkDown (s : State) : State :=
  { s.setReg .hifLinkStatus 0 0 0 (linkStatus (laneCount s.hub.badLanes) false 3 0) with
    boot := { s.boot with linkUp := false, cfgReady := false } }

/-- LINK_TRAINING: `bad` lanes fail equalisation and `rate`, as RATE codes it, is the highest rate that both ends
support and that passes it, 0 for none. With no width or no rate left the link stays down. -/
def linkTraining (bad : BitVec 16) (rate : Fin 4) (s : State) : State :=
  let s := { s with hub := { s.hub with badLanes := bad } }
  let ctl := s.reg .hifLinkCtl 0 0 0
  let maxRate := if fld ctl 2 0 = 0 ∨ 3 < fld ctl 2 0 then 3 else fld ctl 2 0
  if rate.val = 0 then linkDown s
  else match widthOf bad (fld ctl 4 3) with
    | some (w, rev) =>
      let s := s.setReg .hifLinkStatus 0 0 0 (linkStatus (laneCount bad) rev w (min maxRate rate.val))
      { s with boot := { s.boot with linkUp := true, cfgReady := s.boot.recovery || decide (4 ≤ s.boot.stage) } }
    | none => linkDown s

/-- LINK_TRAINING: at start-up once step 3 has ended and PERST_N is high, and after a loop-back (R458, R491). -/
def execLinkTraining (bad : BitVec 16) (rate : Fin 4) (s : State) : Host.Outcome State Fault Refusal :=
  .next (if s.boot.powered && !s.boot.perstLow && !s.boot.linkUp && !s.hub.linkLoopback &&
      (s.boot.recovery || decide (3 ≤ s.boot.stage)) then linkTraining bad rate s
    else s)

/-- The lanes that a width uses. -/
def lanesOf (w : Nat) (rev : Bool) : List Nat :=
  if w = 0 then List.range 16
  else if w = 1 then (if rev then [8, 9, 10, 11, 12, 13, 14, 15] else List.range 8)
  else if rev then [12, 13, 14, 15] else List.range 4

/-- LINK_NARROW: a failing lane in use takes the link to the next narrower width whose lanes all remain, or down: out
of service (R320, R436). -/
def linkNarrow (lane : Fin 16) (l0p : Bool) (s : State) : State :=
  let v := s.reg .hifLinkStatus 0 0 0
  let w := fld v 4 3
  if !(lanesOf w (v.getLsbD 6)).contains lane.val then s
  else
    let bad := s.hub.badLanes ||| BitVec.ofNat 16 (2 ^ lane.val)
    let s := { s with hub := { s.hub with badLanes := bad } }
    match if w < 2 then widthOf bad (w + 1) else none with
    | some (w', rev') =>
      let s := s.setReg .hifLinkStatus 0 0 0 (linkStatus (laneCount bad) rev' w' (fld v 2 0))
      let s := s.bump .hifLinkEvents 0 0 1
      s.degraded kPcieWidth hubDie 0 lane.val (if l0p then 1000 else 50000) 0 0
    | none => lossOf kPcieWidth hubDie 0 0 (linkDown s)

/-- LINK_NARROW. -/
def execLinkNarrow (lane : Fin 16) (l0p : Bool) (s : State) : Host.Outcome State Fault Refusal :=
  .next (if s.boot.linkUp && decide (s.regFld .hifLinkStatus 0 0 0 4 3 < 3) then linkNarrow lane l0p s else s)

end Sys2Proof.Machine
end

