-- ==== Sys2Proof/Machine/Start.lean ====
section
/-! DEFINITION. The ends of STARTING and DRAINING (R24, R25, and the owning chapters), and the completion of a
FENCE with the starts that it held (R311). -/

namespace Sys2Proof.Machine

/-! ### Held descriptors -/

/-- Starts a descriptor that no FENCE holds any longer, as its type starts. One whose argument block, stream block
or control block could not be read never starts. -/
def startHeld (seq : Nat) (s : State) : State :=
  match s.desc seq with
  | none => s
  | some x =>
    match x.ty with
    | 0x01 => if argsFlag x.bytes && x.bytes.length == 64 then s else startDispatch seq s
    | 0x02 => startDma seq s
    | 0x03 => startDma seq s
    | 0x04 => startDma seq s
    | 0x08 => startSubmit seq s
    | 0x09 => startOpen seq s
    | 0x0A => startClose seq s
    | 0x0C => startUnload seq s
    | 0x0D => startColl seq s
    | 0x0F => energyQuery seq s
    | _ => s.markStarted seq

/-- Starts, in fetch order, every held descriptor that no uncompleted FENCE covers. -/
def releaseHeld (s : State) : State :=
  releaseChains (((s.descs.filter (fun x => x.held)).map (fun x => x.seq)).foldl (fun s q =>
    match s.desc q with
    | some x => if x.held && !s.fenceHeld x then startHeld q s else s
    | none => s) s)

/-- FENCE_COMPLETE: the covered descriptors have completed; their writes and adds have arrived, since in this
model a write arrives at once; with HOST the reread of the descriptor has returned (R311). -/
def fenceComplete (x : Desc) (s : State) : State := releaseHeld (s.complete x.seq stOk 0)

/-- FENCE_COMPLETE. -/
def execFenceComplete (seq : Nat) (s : State) : Host.Outcome State Fault Refusal :=
  .next (match s.started seq 0x05 with
    | some x => if s.coveredDone x then fenceComplete x s else s
    | none => s)

/-! ### STARTING ends -/

/-- Whether the clock that runs a function runs: its island's, or the hub's (R25). -/
def State.fnClock (s : State) : FuncId → Bool
  | .core d p => s.clockRuns d (islCore p)
  | .teasel d => s.clockRuns d islTeasel
  | .vetch d => s.clockRuns d islNewel
  | .media d => s.clockRuns d islMedia
  | .stream d _ => s.clockRuns d islMedia
  | .dmaq q => s.clockRuns (qDie q) islNewel
  | .port p => s.clockRuns (portDie p) islLanding
  | .ctx _ => s.hubUp
  | .ring _ => s.hubUp

/-- Whether the block that holds a function runs: its clock, and the function's die with a unit that has not failed or
been retired. -/
def State.unitRuns (s : State) (f : FuncId) : Bool :=
  s.fnClock f && (match f with
    | .core d p => s.dieUp d && decide ((s.core d p).role ≠ .retired)
    | .teasel d => s.dieUp d && !(s.die d).teaselOut
    | .vetch d => s.dieUp d
    | .media d => s.dieUp d && !(s.die d).mediaOut
    | .stream d _ => s.dieUp d && (s.fnIs (.media d) .on || s.fnIs (.media d) .draining)
    | .dmaq q => s.dieUp (qDie q)
    | .port p => s.dieUp (portDie p)
    | .ctx _ => true
    | .ring _ => true)

/-- STARTING ends, R24 Table 6: a stream completes its MEDIA_OPEN (R259), a port has trained (R369), a queue's
waiting descriptors start (R304), and an engine's waiting MEDIA_OPENs (R285). -/
def startingComplete (f : FuncId) (s : State) : State :=
  let s := s.setFn f (s.fn f).started
  match f with
  | .stream d h => streamStarted d h s
  | .port p => loopTrain (s.modPort p (fun x => { x with trained := true }))
  | .dmaq _ => if s.hubUp then dmaRetry s else s
  | .media _ => if s.hubUp then mediaRetry s else s
  | _ => s

/-- STARTING_COMPLETE. -/
def execStartingComplete (f : FuncId) (s : State) : Host.Outcome State Fault Refusal :=
  .next (if s.fnIs f .starting && s.unitRuns f then startingComplete f s else s)

/-! ### DRAINING ends -/

/-- DRAINING ends, R24 Table 6, with what the owning chapter does then: CONTEXT_OFF (R326), a context with
PENDING_ON starting afresh (log 10), the stream's descriptors (R259, R260), the retirement of a core in service
(R97), and the descriptors that wait for a queue or an engine (R304, R285). -/
def drainComplete (f : FuncId) (s : State) : State :=
  let restart := (s.fn f).pendingOn
  let s := s.setFn f (s.fn f).drained
  match f with
  | .ctx n =>
    let s := contextOff n s
    if restart then s.ctxStart n else s
  | .stream d h => streamDrained d h restart s
  | .port p => s.modPort p (fun x => { x with trained := false })
  | .dmaq _ => if s.hubUp then dmaRetry s else s
  | .media _ => if s.hubUp then mediaRetry s else s
  | .core d p => if !restart ∧ (s.core d p).role = .inService then retireCore d p s else s
  | _ => s

/-- DRAIN_COMPLETE. -/
def execDrainComplete (f : FuncId) (s : State) : Host.Outcome State Fault Refusal :=
  .next (if s.fnIs f .draining && !s.hasWork f && s.fnClock f then drainComplete f s else s)

end Sys2Proof.Machine
end

