-- ==== Sys2Proof/Machine/Spdm.lean ====
section
/-! DEFINITION. The SPDM responder (R470 to R476). What R473 leaves to DMTF DSP0274 (the error codes of requests
out of order, the version and session rules, chunking) is PRESUMED from it (log 47). -/

namespace Sys2Proof.Machine

/-- The connection of a transport. -/
def State.spdm (s : State) (t : Transport) : Spdm :=
  match t with
  | .doe => s.spdmDoe
  | .mctp => s.spdmMctp

/-- Changes the connection of a transport. -/
def State.modSpdm (s : State) (t : Transport) (f : Spdm → Spdm) : State :=
  match t with
  | .doe => { s with spdmDoe := f s.spdmDoe }
  | .mctp => { s with spdmMctp := f s.spdmMctp }

/-- Sends a response. -/
def State.reply (s : State) (t : Transport) (r : SpdmResp) : State := s.emit (.spdm t r)

/-- Whether a transport carries requests: the DOE mailbox on the link from configuration-ready, MCTP from step 1
(R458, R462, R474). -/
def State.spdmCarried (s : State) (t : Transport) : Bool :=
  s.boot.powered &&
  (match t with
   | .doe => s.boot.linkUp && s.boot.cfgReady && !s.hub.linkLoopback && !s.hub.farEnd
   | .mctp => decide (1 ≤ s.boot.stage))

/-- A request that reaches a transport: ERROR Busy until step 3. -/
def spdmAt (t : Transport) (f : State → State) (s : State) : State :=
  if !s.spdmCarried t then s
  else if s.boot.stage < 3 then s.reply t .errBusy
  else f s

/-- A request of a connection that must have reached a stage. -/
def spdmStage (t : Transport) (k : Nat) (f : State → State) (s : State) : State :=
  spdmAt t (fun s => if (s.spdm t).stage < k then s.reply t .errUnexpectedRequest else f s) s

/-- Whether the active half can sign, R472. -/
def State.canSign (s : State) : Bool := !s.store.lost && (if s.hub.activeB then s.hub.canSignB else s.hub.canSignA)

/-- A response that takes time: when that exceeds what the requester's CT exponent allows it is held back, and
ERROR ResponseNotReady is sent. The module's own CT is 2^20 µs (R475). -/
def signedReply (t : Transport) (r : SpdmResp) (s : State) : State :=
  let us := (Config.freeValue 21 s.free).toNat % (2 ^ 20 + 1)
  let token := s.free
  let s := { s with free := s.free + 1 }
  if 2 ^ (s.spdm t).ct < us then
    (s.modSpdm t (fun x => { x with notReady := some (token, r) })).reply t (.errResponseNotReady token)
  else s.reply t r

/-- The blocks of the measurement log as they stand. -/
def State.measBlocks (s : State) : List (Nat × BitVec 512) :=
  (List.range 7).map (fun k => (k + 1, SMap.getD s.meas.blocks (k + 1) 0))

/-- GET_VERSION starts a connection anew; versions 1.2 and 1.3. -/
def getVersion (t : Transport) (s : State) : State :=
  spdmAt t (fun s => (s.modSpdm t (fun x => { stage := 1, nextSession := x.nextSession, handle := x.handle })).reply t
    (.version [0x12, 0x13])) s

/-- GET_CAPABILITIES. -/
def getCapabilities (t : Transport) (version : Byte) (ct : Nat) (s : State) : State :=
  spdmStage t 1 (fun s =>
    if version = 0x12 ∨ version = 0x13 then
      (s.modSpdm t (fun x => { x with stage := 2, ct })).reply t (.capabilities 20)
    else s.reply t .errVersionMismatch) s

/-- The module's algorithms that a request offers; measurements are hashed with SHA-512 whatever it offers. -/
def algsOf (asym hash dhe aead key : Bool) : List SpdmAlg :=
  (if asym then [.asymEcdsaP521] else []) ++ (if hash then [.hashSha512] else []) ++ [.measSha512] ++
    (if dhe then [.dheSecp521r1] else []) ++ (if aead then [.aeadAes256Gcm] else []) ++
    (if key then [.keyScheduleSpdm] else [])

/-- NEGOTIATE_ALGORITHMS selects what the request offers of the module's algorithms: InvalidRequest when it offers none
of them. -/
def negotiateAlgorithms (t : Transport) (asym hash dhe aead key : Bool) (s : State) : State :=
  spdmStage t 2 (fun s =>
    if asym || hash || dhe || aead || key then
      (s.modSpdm t (fun x => { x with stage := 3 })).reply t (.algorithms (algsOf asym hash dhe aead key))
    else s.reply t .errInvalidRequest) s

/-- GET_DIGESTS: slot 0, or no provisioned slot when the active half cannot sign (R472). -/
def getDigests (t : Transport) (s : State) : State :=
  spdmStage t 3 (fun s => s.reply t (.digests (if s.canSign then some (sha512v Config.certChain) else none))) s

/-- GET_CERTIFICATE of slot 0. -/
def getCertificate (t : Transport) (slot : Fin 8) (offset length : Nat) (s : State) : State :=
  spdmStage t 3 (fun s =>
    let chain := Config.certChain
    if slot ≠ 0 ∨ s.canSign = false ∨ chain.length ≤ offset then s.reply t .errInvalidRequest
    else
      let portion := (chain.drop offset).take length
      if Config.spdmTransfer < portion.length then
        let h := (s.spdm t).handle
        (s.modSpdm t (fun x => { x with large := portion, handle := h + 1 })).reply t (.errLargeResponse h)
      else s.reply t (.certificate portion (chain.length - offset - portion.length))) s

/-- The measurement summary hash of a type: none, or of all blocks. -/
def State.summaryOf (s : State) (ty : Byte) : List Byte :=
  if ty = 0xFF then Config.measurementSummary (s.measBlocks.map (fun e => e.2)) else []

/-- The signature over a transcript, with the module's own nonce. -/
def State.signOver (s : State) (transcript : List Byte) : List Byte :=
  Config.sign (transcript ++ toLe 32 (Config.freeValue 256 s.free).toNat)

/-- CHALLENGE. -/
def challenge (t : Transport) (slot : Fin 8) (summary : Byte) (nonce : BitVec 256) (s : State) : State :=
  spdmStage t 3 (fun s =>
    if slot ≠ 0 ∨ (summary ≠ 0 ∧ summary ≠ 0xFF) then s.reply t .errInvalidRequest
    else if !s.canSign then s.reply t .errUnspecified
    else
      let digest := toLe 64 (sha512v Config.certChain).toNat
      let sum := s.summaryOf summary
      signedReply t (.challengeAuth digest sum (s.signOver (digest ++ sum ++ toLe 32 nonce.toNat))) s) s

/-- GET_MEASUREMENTS: one block or all, as they stand at one instant (R475). -/
def getMeasurements (t : Transport) (index : Byte) (signed : Bool) (nonce : BitVec 256) (s : State) : State :=
  spdmStage t 3 (fun s =>
    let blocks := if index = 0xFF then s.measBlocks else s.measBlocks.filter (fun e => decide (e.1 = index.toNat))
    if blocks.isEmpty then s.reply t .errInvalidRequest
    else if !signed then s.reply t (.measurements blocks none)
    else if !s.canSign then s.reply t .errUnspecified
    else
      let body := (blocks.map (fun e => toLe 1 e.1 ++ toLe 64 e.2.toNat)).flatten
      signedReply t (.measurements blocks (some (s.signOver (body ++ toLe 32 nonce.toNat)))) s) s

/-- KEY_EXCHANGE opens one of up to 4 sessions of a transport; mutual authentication is not supported. -/
def keyExchange (t : Transport) (slot : Fin 8) (exchange : List Byte) (mutualAuth : Bool) (s : State) : State :=
  spdmStage t 3 (fun s =>
    if mutualAuth then s.reply t .errUnsupportedRequest
    else if slot ≠ 0 then s.reply t .errInvalidRequest
    else if !s.canSign then s.reply t .errUnspecified
    else if 4 ≤ (s.spdm t).sessions.length then s.reply t .errSessionLimit
    else
      let n := (s.spdm t).nextSession
      let data := Config.exchangeData n exchange
      let sig := s.signOver (exchange ++ data)
      signedReply t (.keyExchangeRsp n data sig) (s.modSpdm t (fun x =>
        { x with sessions := x.sessions ++ [(n, false)], nextSession := n + 1 }))) s

/-- Whether a session of a transport is open, and established. -/
def State.session (s : State) (t : Transport) (n : Nat) : Option Bool :=
  ((s.spdm t).sessions.find? (fun e => e.1 == n)).map (fun e => e.2)

/-- Ends a session. -/
def State.dropSession (s : State) (t : Transport) (n : Nat) : State :=
  s.modSpdm t (fun x => { x with sessions := x.sessions.filter (fun e => e.1 != n) })

/-- FINISH establishes a session, or ends it when its HMAC does not verify. -/
def finish (t : Transport) (n : Nat) (hmacOk : Bool) (s : State) : State :=
  spdmStage t 3 (fun s =>
    match s.session t n with
    | none => s.reply t .errInvalidSession
    | some true => s.reply t .errUnexpectedRequest
    | some false =>
      if hmacOk then (s.modSpdm t (fun x => { x with
          sessions := x.sessions.map (fun e => if e.1 = n then (n, true) else e) })).reply t .finishRsp
      else (s.dropSession t n).reply t .errDecrypt) s

/-- A request inside an established session. -/
def inSession (t : Transport) (n : Nat) (f : State → State) (s : State) : State :=
  spdmStage t 3 (fun s => if s.session t n = some true then f s else s.reply t .errInvalidSession) s

/-- END_SESSION. -/
def endSession (t : Transport) (n : Nat) (s : State) : State :=
  inSession t n (fun s => (s.dropSession t n).reply t .endSessionAck) s

/-- HEARTBEAT. -/
def heartbeat (t : Transport) (n : Nat) (s : State) : State := inSession t n (fun s => s.reply t .heartbeatAck) s

/-- KEY_UPDATE. The keys themselves are not in the model. -/
def keyUpdate (t : Transport) (n : Nat) (s : State) : State := inSession t n (fun s => s.reply t .keyUpdateAck) s

/-- CHUNK_GET: a part of the large response that a handle names. -/
def chunkGet (t : Transport) (handle seqNo : Nat) (s : State) : State :=
  spdmStage t 2 (fun s =>
    let x := s.spdm t
    let n := Config.spdmTransfer
    if x.large.isEmpty ∨ handle + 1 ≠ x.handle ∨ x.large.length ≤ seqNo * n then s.reply t .errInvalidRequest
    else
      let last := decide (x.large.length ≤ seqNo * n + n)
      (s.modSpdm t (fun x => { x with large := if last then [] else x.large })).reply t
        (.chunkResponse handle seqNo last ((x.large.drop (seqNo * n)).take n))) s

/-- RESPOND_IF_READY: the response held back under a token. -/
def respondIfReady (t : Transport) (token : Nat) (s : State) : State :=
  spdmStage t 1 (fun s =>
    match (s.spdm t).notReady with
    | some (k, r) =>
      if k = token then (s.modSpdm t (fun x => { x with notReady := none })).reply t r
      else s.reply t .errUnexpectedRequest
    | none => s.reply t .errUnexpectedRequest) s

/-- GET_CSR, SET_CERTIFICATE, PSK_EXCHANGE, GET_KEY_PAIR_INFO: not supported (Table 6). -/
def spdmUnsupported (t : Transport) (s : State) : State := spdmAt t (fun s => s.reply t .errUnsupportedRequest) s

/-- A request that a large request spells, answered as it is when it comes in one message. -/
def spdmRequest (t : Transport) (r : SpdmReq) (s : State) : State :=
  match r with
  | .getVersion => getVersion t s
  | .getCapabilities v ct => getCapabilities t v ct s
  | .negotiateAlgorithms a h d e k => negotiateAlgorithms t a h d e k s
  | .getDigests => getDigests t s
  | .getCertificate slot off len => getCertificate t slot off len s
  | .challenge slot sum nonce => challenge t slot sum nonce s
  | .getMeasurements ix sg nonce => getMeasurements t ix sg nonce s
  | .keyExchange slot ex m => keyExchange t slot ex m s
  | .finish n ok => finish t n ok s
  | .endSession n => endSession t n s
  | .heartbeat n => heartbeat t n s
  | .keyUpdate n => keyUpdate t n s
  | .respondIfReady k => respondIfReady t k s
  | .unsupported => spdmUnsupported t s

/-- The large request that chunks have spelt: answered, or InvalidRequest where they spell none. -/
def largeRequest (t : Transport) (bs : List Byte) (s : State) : State :=
  match Config.spdmRequest bs with
  | some r => spdmRequest t r s
  | none => s.reply t .errInvalidRequest

/-- CHUNK_SEND: the chunks of a large request arrive in order; after the last one the request is whole, and is
answered. -/
def chunkSend (t : Transport) (handle seqNo : Nat) (last : Bool) (chunk : List Byte) (s : State) : State :=
  spdmStage t 2 (fun s =>
    let x := s.spdm t
    if seqNo = 0 ∨ seqNo = x.chunkNo then
      let all := (if seqNo = 0 then [] else x.chunks) ++ chunk
      let s := (s.modSpdm t (fun x => { x with
        chunks := if last then [] else all, chunkNo := if last then 0 else seqNo + 1 })).reply t (.chunkSendAck handle seqNo)
      if last then largeRequest t all s else s
    else s.reply t .errInvalidRequest) s

/-- The module's 7-bit static address, 0x30 + SLOT_ID (R503). -/
def State.staticAddr (s : State) : BitVec 7 := BitVec.ofNat 7 (0x30 + s.boot.slotId.val)

/-- Whether a target address is the module's: the static one, or the dynamic one under I3C (R503). -/
def State.addressed (s : State) (a : BitVec 7) : Bool := a == s.staticAddr || s.boot.dynAddr == some a

/-- MCTP control messages and address assignments, served from step 1 (R462, R503): SETDASA, sent to the static
address, and ENTDAA give the dynamic address, SET_ENDPOINT_ID the endpoint ID. What is sent to another address is
another device's. -/
def mctpControl (msg : MctpMsg) (s : State) : State :=
  if !s.boot.powered || decide (s.boot.stage < 1) then s
  else match msg with
    | .setdasa dst a => if dst = s.staticAddr then { s with boot := { s.boot with dynAddr := some a } } else s
    | .entdaa a => { s with boot := { s.boot with dynAddr := some a } }
    | .setEndpointId dst e =>
      if s.addressed dst then { s with boot := { s.boot with eid := e } }.emit (.mctpReply e) else s
    | .getEndpointId dst => if s.addressed dst then s.emit (.mctpReply s.boot.eid) else s

end Sys2Proof.Machine
end

