-- ==== Sys2Proof/Machine/Views.lean ====
section
/-! DEFINITION. What a read of each register returns (chapter 20 and the owning chapters' tables): the stored value,
or a view of the state behind it. -/

namespace Sys2Proof.Machine

/-! ### Indices of units -/

def dieOf (d : Nat) : Die := ⟨d % 8, Nat.mod_lt _ (by decide)⟩
def pcoreOf (p : Nat) : PCore := ⟨p % 32, Nat.mod_lt _ (by decide)⟩
def ctxOf (n : Nat) : CtxId := ⟨n % 64, Nat.mod_lt _ (by decide)⟩
def ringOf (r : Nat) : RingId := ⟨r % 256, Nat.mod_lt _ (by decide)⟩
def mcOf (m : Nat) : Mc := ⟨m % 4, Nat.mod_lt _ (by decide)⟩
def strOf (h : Nat) : Fin 256 := ⟨h % 256, Nat.mod_lt _ (by decide)⟩

/-- Port j of die d. -/
def portOf (d j : Nat) : PortId := ⟨(2 * d + j) % 16, Nat.mod_lt _ (by decide)⟩

/-- Queue q of die d. -/
def queueOf (d q : Nat) : QueueId := ⟨(16 * d + q) % 128, Nat.mod_lt _ (by decide)⟩

/-- The function whose state word a register is. -/
def RegRef.func (r : RegRef) : Option FuncId :=
  match r.id with
  | .hifCtxState => some (.ctx (ctxOf r.i))
  | .hifRingState => some (.ring (ringOf r.i))
  | .coreState => some (.core (dieOf r.d) (pcoreOf r.i))
  | .lndPortState => some (.port (portOf r.d r.i))
  | .medState => some (.media (dieOf r.d))
  | .medStreamState => some (.stream (dieOf r.d) (strOf r.i))
  | .teaState => some (.teasel (dieOf r.d))
  | .vetState => some (.vetch (dieOf r.d))
  | .dmaQState => some (.dmaq (queueOf r.d r.i))
  | _ => none

/-- The BAR0 offset of a function's state word. -/
def fnOff : FuncId → Nat
  | .core d p => RegId.off .coreState d.val p.val 0
  | .teasel d => RegId.off .teaState d.val 0 0
  | .vetch d => RegId.off .vetState d.val 0 0
  | .media d => RegId.off .medState d.val 0 0
  | .stream d h => RegId.off .medStreamState d.val h.val 0
  | .dmaq q => RegId.off .dmaQState (q.val / 16) (q.val % 16) 0
  | .port p => RegId.off .lndPortState (p.val / 2) (p.val % 2) 0
  | .ctx n => RegId.off .hifCtxState 0 n.val 0
  | .ring r => RegId.off .hifRingState 0 r.val 0

/-! ### The media engine's load, R254 -/

/-- The Table 3 row of a picture codec: W × H, frame rate, streams. -/
def loadRow (codec : Nat) : Nat × Nat × Nat :=
  let k4 := 3840 * 2160
  match codec with
  | 0x01 => (1920 * 1080, 30, 64)
  | 0x02 => (k4, 60, 8)
  | 0x03 => (k4, 60, 6)
  | 0x04 => (k4, 24, 4)
  | 0x05 => (k4, 24, 4)
  | 0x06 => (k4, 24, 16)
  | 0x07 => (k4, 24, 2)
  | 0x82 => (k4, 60, 4)
  | 0x85 => (k4, 24, 2)
  | _ => (k4, 24, 2)

/-- The load of a stream as a fraction: of audio C × max(1, R / 48,000) over the channels of its row, of pictures
W × H × f over its row. -/
def State.streamLoad (s : State) (x : Stream) : Nat × Nat :=
  let c := sbCodec x.block
  if isAudio c then
    ((if x.chans = 0 then sbMaxW x.block else x.chans) * max 48000 x.rate, 48000 * (if isEncode c then 512 else 1024))
  else
    let (w, h) := x.lastSize.getD (sbMaxW x.block, sbMaxH x.block)
    let f := (x.starts.filter (fun t => decide (s.now < t + 10 ^ 9))).length
    let (wh, fr, k) := loadRow c
    (w * h * f, wh * fr * k)

/-- Open streams on an engine. -/
def State.openStreams (s : State) (d : Die) : List Stream :=
  ((List.finRange 256).filter (fun h => !s.fnIs (.stream d h) .off)).map (fun h => s.stream d h)

/-- A sum of loads in units of 1/1,024, rounded down, at most what the field holds. -/
def loadUnits (l : List (Nat × Nat)) : Nat :=
  let q := l.foldl (fun (a : Nat × Nat) (b : Nat × Nat) => (a.1 * b.2 + b.1 * a.2, a.2 * b.2)) (0, 1)
  min 2047 (q.1 * 1024 / max 1 q.2)

/-- Whether a media loop-back runs on an engine; it counts towards the load (R490). -/
def State.medLoopRuns (s : State) (d : Die) : Bool :=
  s.regFld .medLoopback d.val 0 0 1 0 != 0 && s.regFld .medLoopback d.val 0 0 30 30 == 0

/-- MED_LOAD. -/
def State.medLoad (s : State) (d : Die) : Nat :=
  let (enc, dec) := (s.openStreams d).partition (fun x => isEncode (sbCodec x.block))
  loadUnits (dec.map s.streamLoad) + loadUnits (enc.map s.streamLoad) * 2 ^ 16

/-! ### Records of other blocks -/

/-- Word i of a byte list. -/
def wordAt (b : List Byte) (i : Nat) : Nat := leAt b (4 * i) 4

/-- The 80 bytes of a measurement log entry, R477. -/
def MeasEnt.bytes (x : MeasEnt) : List Byte :=
  toLe 1 x.block ++ List.replicate 7 0 ++ toLe 8 x.time ++ toLe 64 x.digest.toNat

/-- ROLE, R96 Table 9. -/
def Role.code : Role → Nat
  | .inService => 0
  | .spare => 1
  | .retired => 2

/-- CORE_ID. -/
def State.coreIdWord (s : State) (d : Die) (p : PCore) : Nat :=
  let k := s.core d p
  let lg := match k.role, k.logical with
    | .inService, some c => c.val
    | _, _ => 0x1F
  lg + p.val * 2 ^ 8 + k.role.code * 2 ^ 14

/-- AVL_DIE[d], R451 Table 12. -/
def State.avlDieWord (s : State) (d : Die) : Nat :=
  let x := s.die d
  let twin := match x.twin with
    | .standby => 0
    | .active => 1
    | .failed => 2
  let units := if s.boot.stage < 8 then 0x4041C
    else (allPCores.filter (fun p => decide ((s.core d p).role = .inService))).length +
      (s.spareCores d).length * 2 ^ 8 + s.galSpares d * 2 ^ 16
  units + twin * 2 ^ 12 + (if x.lost then 2 ^ 14 else 0)

/-- AVL_STATUS, R451 Table 8. -/
def State.avlStatusWord (s : State) : Nat :=
  (if s.hub.outOfService then 2 else if s.reg .avlDegraded 0 0 0 = 0 then 0 else 1) +
    (if s.hub.activeB then 2 ^ 6 else 0) + (if s.hub.standbyOk then 2 ^ 7 else 0)

/-- Bits 3:0 of AVL_STORE_STATUS. -/
def Store.statusBits (x : Store) : Nat :=
  (if x.a.valid then 1 else 0) + (if x.b.valid then 2 else 0) + (if x.newestB then 4 else 0) +
    (if x.writing.isSome then 8 else 0)

/-- STATE of FAB_RING_STATE. -/
def RingSt.code : RingSt → Nat
  | .bypassed => 0
  | .loopTrained => 1
  | .requested => 2
  | .switching => 3
  | .training => 4
  | .admitted => 5
  | .leaving => 6

/-- FAB_RING_STATE[i], R395 Table 9. -/
def FRingSt.word (x : FRingSt) : Nat :=
  x.st.code + (if x.closed then 2 ^ 4 else 0) + (if x.minusUp then 2 ^ 5 else 0) + (if x.plusUp then 2 ^ 6 else 0) +
    x.reason * 2 ^ 12

/-- FAB_TIME_STATUS: the master is locked to itself. -/
def State.timeStatusWord (s : State) : Nat :=
  let master := decide (s.timeMaster = some s.ownAddr)
  let up := match s.upstream with
    | some i => i.val
    | none => 0
  (if s.fab.locked || master then 1 else 0) + (if master then 2 else 0) + up * 2 ^ 8

/-- LINK of LND_PORT_STATUS: in loop-back, dark while OFF, training until the port has trained or while its ring
trains, else up on the ring or through the bypass path. -/
def State.linkCode (s : State) (p : PortId) : Nat :=
  let r := s.fring (portRing p)
  if s.regFld .lndLoopback (portDie p).val (portNum p) 0 2 0 ≠ 0 then 4
  else if s.fnIs (.port p) .off then 0
  else match r.st with
    | .admitted => if (if p.val < 8 then r.minusUp else r.plusUp) then 3 else 1
    | .switching => 1
    | .training => 1
    | .leaving => 1
    | _ => if (s.port p).trained then 2 else 1

/-- LINK and WIDTH of LND_PORT_STATUS. -/
def State.portBits (s : State) (p : PortId) : Nat :=
  let k := s.linkCode p
  let good := min (s.port p).txGood (s.port p).rxGood
  k + (if k < 2 then 0 else if 8 ≤ good then 8 else if 4 ≤ good then 4 else 0) * 2 ^ 8

/-- TCONVs that wait at Newel for Teasel. -/
def State.teaWaiting (s : State) (d : Die) : Nat :=
  natSum (allPCores.map (fun p => ((s.core d p).queue.filter (fun x =>
    x.op == opTCONV && decide (x.st = .placed))).length))

/-- The context whose stall counters NEW_SEM_STALL shows, R220. -/
def State.stallCtx (s : State) (d : Die) : Option CtxId :=
  match ((s.die d).run.bind (fun q => s.disp q)) with
  | some y => some y.ctx
  | none => (s.die d).lastCtx.filter (fun n => s.ctxOpen n)

/-! ### Registers whose value the model does not compute -/

/-- Whether a register is a cycle counter. -/
def RegRef.isCycle (r : RegRef) : Bool :=
  (List.finRange 43).any (fun x => (cycleRegs x).contains (r.id, r.i))

/-- Registers of readings and counts that no command carries: the light received by a port reads a free value, and
the symbols that a port has corrected grow by a free number between reads (log 38). The width of the value. -/
def RegId.freeBits : RegId → Nat
  | .lndFecCorr => 32
  | .lndRxPower => 16
  | _ => 0

/-! ### The views -/

/-- What a read of a hub register shows. -/
def State.hubView (s : State) (r : RegRef) : Nat :=
  let v := (s.reg r.id r.d r.i r.j).toNat
  match r.id with
  | .hifInflight => s.descs.length
  | .hifCtxEvqProd => (s.ctx (ctxOf r.i)).prod + (if (s.ctx (ctxOf r.i)).phase then 2 ^ 16 else 0)
  | .hifCtxEvqCons => (s.ctx (ctxOf r.i)).cons
  | .hifRingStat => v + s.inflight (ringOf r.i) * 2 ^ 16
  | .secMeasCount => min 256 s.meas.count + (if 256 < s.meas.count then 2 ^ 31 else 0)
  | .secMeasEntry =>
    match s.meas.log[s.regFld .secMeasSel 0 0 0 7 0]? with
    | some e => wordAt e.bytes r.i
    | none => 0
  | .secLogDigest => wordAt (toLe 64 s.meas.digest.toNat) r.i
  | .secSvnFloor => s.store.cur.svnFloor
  | .timeNow => s.now
  | .avlStatus => s.avlStatusWord
  | .avlRepairs => s.store.cur.repairs
  | .avlLogSeq => if s.store.cur.logSeq = 0 then 2 ^ 64 - 1 else s.store.cur.logSeq - 1
  | .avlLogData =>
    match SMap.find s.store.cur.log (s.regFld .avlLogSel 0 0 0 11 0) with
    | some e => wordAt e.bytes r.i
    | none => 0
  | .avlStoreStatus => v + s.store.statusBits
  | .avlStoreSeq => s.store.newestSeq
  | .avlDie => s.avlDieWord (dieOf r.i)
  | .trcCtxSampleSeq => (s.ctx (ctxOf r.i)).sampleSeq
  | .fabRingState => (s.fring (ringNo r.i)).word
  | .fabTimeStatus => s.timeStatusWord
  | .mgtRegion => v + (if s.regionHeld r.i then 2 ^ 7 else 0)
  | _ => v

/-- The die registers that show the spare map, whole or in fields (R457). -/
def spareShown : List RegId := [.coreId, .coreArrayMap, .coreSpadMap, .galSpareMap, .mcRetire, .lndPortStatus]

/-- What a read of a die's register shows; those that show the spare map hold their reset values before step 8 of
start-up (R457). -/
def State.dieView (s : State) (r : RegRef) : Nat :=
  let early := spareShown.contains r.id && decide (s.boot.stage < 8)
  let v := if early then r.id.row.rst else (s.reg r.id r.d r.i r.j).toNat
  let d := dieOf r.d
  match r.id with
  | .newSemStall =>
    match s.stallCtx d with
    | some n => SMap.getD (s.ctx n).stalls (256 * d.val + r.i) 0
    | none => 0
  | .coreId => if early then v else s.coreIdWord d (pcoreOf r.i)
  | .coreAccFlags => (s.core d (pcoreOf r.i)).accFlags.toNat
  | .coreFreq => s.regFld .pwdIsland r.d r.i 0 11 0
  | .lndPortStatus => v + s.portBits (portOf r.d r.i)
  | .mcRedCombUsed => (s.combs.filter (fun c => c.ctrl == 4 * r.d + r.i)).length
  | .medLoad => s.medLoad d
  | .medOpen => (s.openStreams d).length
  | .medStreamHandle =>
    let x := s.stream d (strOf r.i)
    if x.moved then 2 ^ 15 + x.handle else 0
  | .teaQueue => s.teaWaiting d
  | .dmaQLevel => min 0xFFFF (s.dq (queueOf r.d r.i)).length
  | .trdTokens => s.traceTokens r.d / 10000
  | _ => v

/-- What a read of a register shows, as a 64-bit value, and the state after it: a free value is drawn where the
model computes none, and of DMA_Q_LEVEL for the requests in flight. -/
def State.view (s : State) (r : RegRef) : W64 × State :=
  match r.func with
  | some f => ((s.fn f).word, s)
  | none =>
    if r.id.row.acc = .wo then (0, s)
    else
      let k := r.id.freeBits
      if k ≠ 0 then
        let (b, s) := s.freeBits k
        if r.id.row.wide then
          let s := s.bump r.id r.d r.i b.toNat
          (s.reg r.id r.d r.i r.j, s)
        else (b.setWidth 64, s)
      else if r.id.row.die && r.isCycle then
        let s := s.settleCyc (dieOf r.d) (r.id, r.i)
        (s.reg r.id r.d r.i r.j, s)
      else if r.id = .medLoad ∧ s.medLoopRuns (dieOf r.d) = true then
        let depth := s.regFld .medLoopback r.d 0 0 1 0
        let (b, s) := s.freeBits 22
        let v := s.dieView r
        let dec := if depth = 2 then fld (BitVec.ofNat 64 v) 15 0 else min 2047 (fld (BitVec.ofNat 64 v) 15 0 + fld (b.setWidth 64) 10 0)
        let enc := if depth = 1 then fld (BitVec.ofNat 64 v) 31 16 else min 2047 (fld (BitVec.ofNat 64 v) 31 16 + fld (b.setWidth 64) 21 11)
        (BitVec.ofNat 64 (dec + enc * 2 ^ 16), s)
      else if r.id = .dmaQLevel ∧ !(s.dq (queueOf r.d r.i)).isEmpty then
        let lim := s.regFld .dmaQCfg r.d r.i 0 8 0
        let (b, s) := s.freeBits 16
        (BitVec.ofNat 64 (s.dieView r + b.toNat % (lim + 1) * 2 ^ 16), s)
      else (BitVec.ofNat 64 (if r.id.row.die then s.dieView r else s.hubView r), s)

end Sys2Proof.Machine
end

