-- ==== Sys2Proof/Machine/Loopback.lean ====
section
/-! DEFINITION. Loop-backs of PCIe, Miotos, HBM and media interfaces (R393, R490, R491, R494). -/

namespace Sys2Proof.Machine

/-- Whether every job context is OFF. -/
def State.allCtxOff (s : State) : Bool := (List.finRange 64).all (fun n => s.fnIs (.ctx n) .off)

/-! ### PCIe -/

/-- A refused PCIe selection: ERR. -/
def hifLoopRefused (s : State) : State := s.setRegFld .hifLoopback 0 0 0 31 31 1

/-- A selection through HIF_LOOPBACK: depths 1 and 2 only through Henlan, with every context OFF and a time of at
least 1 s; the link goes down. Depth 3 is the partner's to enter. Depth 0 stops a running one, and the link trains
again. -/
def hifLoopSelect (henlan : Bool) (depth seconds : Nat) (s : State) : State :=
  if depth = 0 then
    (s.setReg .hifLoopback 0 0 0 (BitVec.ofNat 64 (seconds * 2 ^ 8 + s.regFld .hifLoopback 0 0 0 30 30 * 2 ^ 30))).setRegFld
      .hifLoopback 0 0 0 1 0 0 |> fun s => { s with hub := { s.hub with linkLoopback := false } }
  else if depth = 3 ∨ !henlan ∨ seconds = 0 ∨ s.hub.linkLoopback = true ∨ !s.allCtxOff then hifLoopRefused s
  else
    let s := linkDown (s.setReg .hifLoopback 0 0 0 (BitVec.ofNat 64 (depth + seconds * 2 ^ 8)))
    { s with hub := { s.hub with linkLoopback := true, loopSince := s.now } }

/-- PCIE_LOOPBACK_END: the time of SECONDS is over; the errors count, DONE is set, and the link trains again. -/
def pcieLoopbackEnd (errors : Nat) (s : State) : State :=
  let s := (s.bump .hifLoopErr 0 0 errors).setRegFld .hifLoopback 0 0 0 30 30 1
  { s with hub := { s.hub with linkLoopback := false } }

/-- PCIE_LOOPBACK_END. -/
def execPcieLoopbackEnd (errors : Nat) (s : State) : Host.Outcome State Fault Refusal :=
  .next (if s.hub.linkLoopback && s.hubUp &&
      decide (s.hub.loopSince + s.regFld .hifLoopback 0 0 0 15 8 * 1000000000 ≤ s.now) then pcieLoopbackEnd errors s
    else s)

/-- FAREND_LOOPBACK_ENTER: the module is slave, the link carries nothing, and HIF_LOOP_ERR counts the loop-back. -/
def execFarendLoopbackEnter (s : State) : Host.Outcome State Fault Refusal :=
  .next (if s.boot.linkUp && !s.hub.farEnd then
      ({ s with hub := { s.hub with farEnd := true } }).bump .hifLoopErr 0 0 1
    else s)

/-- FAREND_LOOPBACK_EXIT. -/
def execFarendLoopbackExit (s : State) : Host.Outcome State Fault Refusal :=
  .next { s with hub := { s.hub with farEnd := false } }

/-! ### Miotos, R393 -/

/-- Whether the ring of a port allows a depth; depth 4 also takes the neighbour's acceptance. -/
def State.lndLoopOk (s : State) (p : PortId) (depth : Nat) (echoOk : Bool) : Bool :=
  let st := (s.fring (portRing p)).st
  if depth = 4 then decide (st = .admitted) && echoOk
  else decide (depth ≤ 5) && (decide (st = .bypassed) || decide (st = .loopTrained))

/-- The traffic of a port's segment goes to the other rail, or comes back. -/
def moveSegment (p : PortId) (away : Bool) (s : State) : State :=
  viewStep (fun s => { s with fab := { s.fab with moved := listPut s.fab.moved (portRing p, decide (8 ≤ p.val)) away } }) s

/-- The ECHO request that a far-end loop-back on an ADMITTED ring needs, to the neighbour on the port's side (R393). -/
def askEcho (p : PortId) (s : State) : State :=
  let i := portRing p
  let plus := decide (8 ≤ p.val)
  match (if (s.fring i).st = .admitted then s.nextOn s.ownAddr (i.val / 2) plus else none) with
  | some b => s.sendNear i plus b 0x13 (askBytes 0 i plus 0)
  | none => s

/-- A selection through LND_LOOPBACK[j]: started, refused with ERR, or with depth 0 stopped. -/
def lndLoopSelect (p : PortId) (depth : Nat) (echoOk : Bool) (s : State) : State :=
  let old := s.regFld .lndLoopback (portDie p).val (portNum p) 0 2 0
  if depth = 0 then
    let s := s.setReg .lndLoopback (portDie p).val (portNum p) 0 0
    if old = 4 then moveSegment p false s else s
  else if s.lndLoopOk p depth echoOk then
    let s := (if depth = 4 then askEcho p s else s).setReg .lndLoopback (portDie p).val (portNum p) 0 (BitVec.ofNat 64 depth)
    if depth = 4 then moveSegment p true s else if old = 4 then moveSegment p false s else s
  else if depth = 4 then (askEcho p s).setRegFld .lndLoopback (portDie p).val (portNum p) 0 8 8 1
  else s.setRegFld .lndLoopback (portDie p).val (portNum p) 0 8 8 1

/-! ### HBM -/

/-- Whether a device address lies in HBM on stack k. -/
def State.onStack (s : State) (k a : Nat) : Bool := inHbm a && decide (s.stackOf a = k)

/-- The addresses of stack k in regions whose content is undefined: written with zero one by one. -/
def State.scrambledOn (s : State) (k : Nat) : List Nat :=
  s.scrambled.flatMap (fun e => ((List.range (2 ^ 30)).map (fun o => e.1 * 2 ^ 30 + o)).filter (fun a => s.onStack k a))

/-- A stack's contents become zero (R454, Table 4). -/
def zeroStack (k : Nat) (s : State) : State :=
  let s := { s with mem := s.mem.filter (fun e => !s.onStack k e.1), bad := s.bad.filter (fun a => !s.onStack k a) }
  (s.scrambledOn k).foldl (fun s a => s.devWrite a [0]) s

/-- A selection through MC_LOOPBACK: depth 3 needs every context OFF. A stop takes the written PC too. -/
def mcLoopSelect (d : Die) (m : Mc) (depth pc : Nat) (s : State) : State :=
  if depth = 0 then s.modReg .mcLoopback d.val m.val 0 (fun v => setFld (setFld v 1 0 0) 8 4 pc)
  else if depth = 3 ∧ !s.allCtxOff then s.setRegFld .mcLoopback d.val m.val 0 31 31 1
  else s.setReg .mcLoopback d.val m.val 0 (BitVec.ofNat 64 (depth + pc * 2 ^ 4))

/-- The pass of an HBM loop-back ends: `errors` bytes mismatch. -/
def mcPassDone (d : Die) (m : Mc) (errors : Nat) (s : State) : State :=
  let depth := s.regFld .mcLoopback d.val m.val 0 1 0
  let s := (s.bump .mcLoopErr d.val m.val errors).setRegFld .mcLoopback d.val m.val 0 30 30 1
  if depth = 3 then zeroStack (4 * d.val + m.val) s else s

/-! ### Media -/

/-- A selection through MED_LOOPBACK: it needs a free stream context. -/
def medLoopSelect (d : Die) (depth : Nat) (s : State) : State :=
  if depth = 0 then s.setRegFld .medLoopback d.val 0 0 1 0 0
  else if (s.freeStream d).isNone then s.setRegFld .medLoopback d.val 0 0 31 31 1
  else s.setReg .medLoopback d.val 0 0 (BitVec.ofNat 64 depth)

/-- The pass of a media loop-back ends: streams checked and mismatching. -/
def medPassDone (d : Die) (checked errors : Nat) (s : State) : State :=
  let s := s.modReg .medLoopResult d.val 0 0 (fun v =>
    setFld (setFld v 15 0 (fld v 15 0 + checked)) 31 16 (fld v 31 16 + errors))
  s.setRegFld .medLoopback d.val 0 0 30 30 1

/-- A fault that a loop-back finds, handled as if found in service (R490): a row or bank of a stack retires, a lane or a
laser moves to a spare, a media engine is lost to its die. With a migration under way on its stack a row waits: its
errors stand, so that it retires next. -/
def loopFault (f : TestFail) (s : State) : State :=
  match f with
  | .hbmRow d m row =>
    if (s.mc d m).mig.isNone then rowRetire d m row s
    else s.modMc d m (fun x => { x with ceTimes := SMap.put x.ceTimes (rowKey row) (List.replicate 4 s.now) })
  | .hbmBank d m row => if (s.mc d m).mig.isNone then testBank d m row s else s
  | .hbmLane d m pc lane => hbmLaneRepair d m pc lane s
  | .fabricLane p tx lane => if s.fnIs (.port p) .off then s else fabricLaneSpare p tx lane.val s
  | .laser p k => if s.fnIs (.port p) .off then s else laserSpare p k.val s
  | .media d => testFail (.media d) s
  | _ => s

/-- LOOPBACK_PASS_DONE at the offset of a loop-back register: a running HBM or media loop-back ends its pass; a
Miotos loop-back, which runs until it is stopped, counts its mismatching symbols. -/
def loopbackPassDone (off checked errors : Nat) (s : State) : State :=
  match regAt off with
  | some r =>
    let v := s.reg r.id r.d r.i r.j
    match r.id with
    | .mcLoopback => if fld v 1 0 ≠ 0 ∧ fld v 30 30 = 0 then mcPassDone (dieOf r.d) (mcOf r.i) errors s else s
    | .medLoopback => if fld v 1 0 ≠ 0 ∧ fld v 30 30 = 0 then medPassDone (dieOf r.d) checked errors s else s
    | .lndLoopback => if fld v 2 0 ≠ 0 then s.bump .lndLoopErr r.d r.i errors else s
    | _ => s
  | none => s

/-- Whether a loop-back runs at the offset of a loop-back register. -/
def State.loopRuns (s : State) (off : Nat) : Bool :=
  match regAt off with
  | some r =>
    let v := s.reg r.id r.d r.i r.j
    match r.id with
    | .mcLoopback => fld v 1 0 != 0 && fld v 30 30 == 0
    | .medLoopback => fld v 1 0 != 0 && fld v 30 30 == 0
    | .lndLoopback => fld v 2 0 != 0
    | _ => false
  | none => false

/-- LOOPBACK_PASS_DONE, with the faults that it finds. -/
def execLoopbackPassDone (off checked errors : Nat) (s : State) (found : List TestFail := []) :
    Host.Outcome State Fault Refusal :=
  .next (if s.loopRuns off then found.foldl (fun s f => loopFault f s) (loopbackPassDone off checked errors s)
    else loopbackPassDone off checked errors s)

end Sys2Proof.Machine
end

