-- ==== Sys2Proof/Machine/Access.lean ====
section
/-! DEFINITION. Register access (R4 to R9, R478, R488, R489, R510 to R514, R521): which paths reach which registers,
reads with their latches, and what a write of each register does. -/

namespace Sys2Proof.Machine

/-! ### Who reaches what -/

/-- Whether BAR accesses reach the module: powered, the link up and carrying traffic, the function configured. -/
def State.barUp (s : State) : Bool :=
  s.boot.powered && s.boot.linkUp && s.boot.cfgReady && !s.hub.linkLoopback && !s.hub.farEnd

/-- Whether an access path reaches the module (R458, R462). -/
def State.pathLive (s : State) : Path → Bool
  | .bar0 => s.barUp
  | .henlan _ => s.henlanUp
  | .dev _ => s.henlanUp

/-- Whether REFCLK_OUT is driven: from step 1 of start-up while TIME_CTL.REFOUT_EN is 1 (R462). -/
def State.refclkOut (s : State) : Bool :=
  s.boot.powered && decide (1 ≤ s.boot.stage) && (s.reg .timeCtl 0 0 0).getLsbD 1

/-- A request on a path that does not reach the module: through Henlan from step 1 on a not-ready reply until step 3
(R462), else no answer. -/
def notReached (path : Path) (s : State) : State :=
  if s.boot.powered && decide (1 ≤ s.boot.stage) then
    match path with
    | .bar0 => s
    | .henlan e => s.emit (.henlanNotReady e)
    | .dev e => s.emit (.henlanNotReady e)
  else s

/-- Writes of one register that reach the hub in the same cycle, in the order in which it applies them: those of BAR0
first (R514). The commands of a run arrive in their own order (log 88). -/
def pathOrder {α : Type} (l : List (Path × α)) : List (Path × α) :=
  l.filter (fun x => decide (x.1 = .bar0)) ++ l.filter (fun x => !decide (x.1 = .bar0))

/-- Whether a path is privileged: BAR0 or Henlan, not the development subset (R478, R488). -/
def privileged : Path → Bool
  | .dev _ => false
  | _ => true

/-- Whether a BAR0 offset lies in the SEC block. -/
def inSec (off : Nat) : Bool := decide (0x10000 ≤ off) && decide (off < 0x20000)

/-- Whether the block at an offset responds: before step 10 only SEC does, in recovery too, but an out-of-service
module answers reads (R436, R458, R466); a die's blocks while its VDM rail is on (R512). -/
def State.blockUp (s : State) (write : Bool) (off : Nat) : Bool :=
  inSec off ||
  (!s.boot.recovery && (decide (10 ≤ s.boot.stage) || (!write && s.hub.outOfService)) &&
    (if 0x100000 ≤ off ∧ off < 0x900000 then (s.die (dieOf (off / 0x100000 - 1))).railOn else true))

/-- Counter registers, which development access of LEVEL 1 reads (R479, R488). -/
def RegId.isCounter (r : RegId) : Bool :=
  ([.hifLinkEvents, .hifBar4Err, .hifInflight, .hifFaultCount, .hifSwitchCount, .hifDeadlineMiss,
    .hifSchedRefused, .hifLoopErr, .pwrEvents, .pwrInEnergyA, .pwrInEnergyB, .pwrUnattr, .pwrDomEnergy,
    .pwrCtxTotal, .pwrCtxWindow, .avlRepairs, .fabUnreach, .fabLost, .newSemStall, .coreCsumCount] : List RegId).contains r ||
  ([.coreReplayCount, .coreEccCe, .coreCycArray, .coreCycSpeedwell, .coreCycVector, .coreCycIssueWait,
    .galEccCe, .galEccUe, .galRdBytes, .galWrBytes, .lndFecCorr, .lndFecUncorr, .lndRetry, .lndDrop,
    .lndTxBytes, .lndRxBytes, .lndLoopErr, .lndTransitBytes, .mcEccCe, .mcEccUe] : List RegId).contains r ||
  ([.mcScrubPass, .mcRetrain, .mcRdBytes, .mcWrBytes, .mcCycBusy, .mcLoopErr, .mcRedCombUsed, .mcRedAdds,
    .mcRedFlushCount, .mcRedEvict, .mcRedLate, .mcRedDup, .medSamples, .medConcealed, .medHdrRefused,
    .medLate, .medStale, .medCycDec, .medCycEnc, .medCheckCount, .medLoopResult] : List RegId).contains r ||
  ([.teaCheckCount, .teaCycBusy, .vetHits, .vetMisses, .vetCycWalk, .vetParityCount, .dmaQBytes,
    .dmaPartFail, .dmaCheckCount, .pwdEvents, .pwdStretchCyc, .pwdDroopCount, .pwdThermalMoves] : List RegId).contains r

/-- The trace registers, which LEVEL 2 also reads. -/
def RegId.isTrace (r : RegId) : Bool :=
  ([.trcCtl, .trcRingBase, .trcRingSize, .trcRingProd, .trcRingCons, .trcDev, .trcLost, .trcCtxSampleBase,
    .trcCtxSampleCfg, .trcCtxSampleSeq, .trdMask, .trdCtxMask, .trdCtxMaskNone, .trdRecords, .trdLost,
    .trdTokens] : List RegId).contains r

/-- Whether development access reaches the register at an offset (R488). -/
def State.devReads (s : State) (off : Nat) : Bool :=
  match regAt off with
  | some r =>
    let level := s.regFld .trcDev 0 0 0 1 0
    (decide (1 ≤ level) && r.id.isCounter) || (decide (2 ≤ level) && r.id.isTrace)
  | none => false

/-- Whether a path may read `size` bytes at an offset: through development access every word's register (R488). -/
def State.mayRead (s : State) (path : Path) (off size : Nat) : Bool :=
  privileged path || (s.devReads off && (decide (size ≤ 4) || s.devReads (off + 4)))

/-! ### Reads -/

/-- The access path that a latch belongs to: BAR0, or the MCTP endpoint, whose development reads come through Henlan too
(R5, R488). -/
def latchPath : Path → Path
  | .dev e => .henlan e
  | p => p

/-- The latch of a path for a register. -/
def State.latch (s : State) (path : Path) (off : Nat) : Option W32 :=
  (s.latches.find? (fun l => decide (l.path = latchPath path) && l.off == off)).map (fun l => l.high)

/-- Releases the latch of a path for a register. -/
def State.unlatch (s : State) (path : Path) (off : Nat) : State :=
  { s with latches := s.latches.filter (fun l => !(decide (l.path = latchPath path) && l.off == off)) }

/-- The byte counts that an RC register packs: four in PWR_EVENTS, three in PWD_EVENTS, whose bits 31:24 are
reserved (R7, R423, R424). -/
def RegId.packed : RegId → Nat
  | .pwrEvents => 4
  | .pwdEvents => 3
  | _ => 0

/-- Adds events to an RC register in its own layout: packed byte counts saturate, others wrap. -/
def rcAdd (r : RegId) (v : W64) (ev : Nat) : W64 :=
  if r.packed ≠ 0 then
    (List.range r.packed).foldl (fun (w : W64) (k : Nat) =>
      setFld w (8 * k + 7) (8 * k) (satAdd (fld w (8 * k + 7) (8 * k)) (bits ev (8 * k + 7) (8 * k)) 255)) v
  else BitVec.ofNat 64 ((v.toNat + ev) % 2 ^ 32)

/-- What a read leaves in a register: an RC register holds the events of the read's own cycle, `ev`; a development
read does not clear it (R9, R489). -/
def afterRead (path : Path) (r : RegRef) (ev : Nat) (s : State) : State :=
  if r.id.row.acc = .rc then
    s.setReg r.id r.d r.i r.j (rcAdd r.id (if privileged path then 0 else s.reg r.id r.d r.i r.j) ev)
  else s

/-- The 32-bit word at an aligned offset, with the effects of reading it: a low word latches the high word, the
high word takes and releases the path's latch (R5). -/
def readWord (path : Path) (off ev : Nat) (s : State) : W32 × State :=
  match regAt off with
  | none => (0, s)
  | some r =>
    let base := r.id.off r.d r.i r.j
    if r.high then
      match s.latch path base with
      | some h => (h, s.unlatch path base)
      | none =>
        let (v, s) := s.view r
        (BitVec.ofNat 32 (v.toNat / 2 ^ 32), s)
    else
      let (v, s) := s.view r
      let s := afterRead path r ev s
      let s := if r.id.row.wide then
          let s := s.unlatch path base
          { s with latches := s.latches ++ [{ path := latchPath path, off := base, high := BitVec.ofNat 32 (v.toNat / 2 ^ 32) }] }
        else s
      (BitVec.ofNat 32 v.toNat, s)

/-- A 64-bit read: a 64-bit register whole, or two registers, the lower first. -/
def readWide (path : Path) (off : Nat) (s : State) : W64 × State :=
  match regAt off with
  | some r =>
    if r.id.row.wide then s.view r
    else
      let (a, s) := readWord path off 0 s
      let (b, s) := readWord path (off + 4) 0 s
      (BitVec.ofNat 64 (a.toNat + b.toNat * 2 ^ 32), s)
  | none =>
    let (b, s) := readWord path (off + 4) 0 s
    (BitVec.ofNat 64 (b.toNat * 2 ^ 32), s)

/-- A read of 4 or 8 bytes: ones in every byte lane where it is not naturally aligned (R6), also where the block does
not respond (log 84); refused to a development requester beyond its level; zero from a block that does not respond. -/
def readAt (path : Path) (off size ev : Nat) (s : State) : State :=
  if !s.pathLive path then notReached path s
  else if (size ≠ 4 ∧ size ≠ 8) ∨ off % size ≠ 0 then s.emit (.readOnes path size)
  else if !s.mayRead path off size then s.emit (.accessRefused path)
  else if !s.blockUp false off then s.emit (.readData path size 0)
  else if size = 4 then
    let (v, s) := readWord path off ev s
    s.emit (.readData path 4 (v.setWidth 64))
  else
    let (v, s) := readWide path off s
    s.emit (.readData path 8 v)

/-! ### Values in effect, R521 -/

/-- A field's value in effect, applied to a written register value. -/
def clampReg (r : RegId) (old v : W64) : W64 :=
  match r with
  | .hifLinkCtl =>
    let v := if fld v 4 3 = 3 then setFld v 4 3 0 else v
    if fld v 2 0 = 0 ∨ 3 < fld v 2 0 then setFld v 2 0 3 else v
  | .hifRingCfg => setFld v 4 0 (max 1 (min 16 (fld v 4 0)))
  | .hifCtxSched =>
    let f := max 700 (min 1600 (fld v 23 13))
    setFld (setFld v 23 13 (f - f % 50)) 12 0 (max 1 (fld v 12 0))
  | .mcScrubCtl => setFld v 7 0 (max 1 (min 168 (fld v 7 0)))
  | .dmaQCfg =>
    let v := if 0x40 < fld v 23 16 then setFld v 23 16 (fld old 23 16) else v
    setFld v 8 0 (max 1 (min 256 (fld v 8 0)))
  | .pwrCap => setFld v 12 0 (max 1500 (min 5000 (fld v 12 0)))
  | .pwdThermCtl => setFld v 7 0 (max 70 (min 93 (fld v 7 0)))
  | .trcDev => if fld v 1 0 = 3 then setFld v 1 0 2 else v
  | .trcCtxSampleCfg => setFld v 4 0 (max 4 (min 16 (fld v 4 0)))
  | .mgtRegion => if fld v 1 0 = 3 then setFld v 1 0 2 else v
  | _ => v

/-- Whether every ring of the module is bypassed: BYPASSED, or LOOP_TRAINED, whose bypass is CLOSED too, since software
sets FAB_ADDR and FAB_DIMS after start-up has trained the rings (R365, R457, log 62). -/
def State.ringsApart (s : State) : Bool :=
  allRings.all (fun i => decide ((s.fring i).st = .bypassed) || decide ((s.fring i).st = .loopTrained))

/-- Whether a register takes a write now: those that are written only while a context or ring is OFF, trace is
not enabled, or every fabric ring is BYPASSED, or a DMA queue is OFF (R301, R324, R327, R354, R365, R484, R492). -/
def State.writable (s : State) (r : RegRef) : Bool :=
  match r.id with
  | .hifCtxCfg => s.fnIs (.ctx (ctxOf r.i)) .off
  | .hifCtxEvqBase => s.fnIs (.ctx (ctxOf r.i)) .off
  | .hifCtxRange => s.fnIs (.ctx (ctxOf r.i)) .off
  | .hifCtxSaveBase => s.fnIs (.ctx (ctxOf r.i)) .off
  | .trcCtxSampleBase => s.fnIs (.ctx (ctxOf r.i)) .off
  | .trcCtxSampleCfg => s.fnIs (.ctx (ctxOf r.i)) .off
  | .hifRingCfg => s.fnIs (.ring (ringOf r.i)) .off
  | .hifRingBase => s.fnIs (.ring (ringOf r.i)) .off
  | .hifRingHead => s.fnIs (.ring (ringOf r.i)) .off
  | .dmaQCfg => s.fnIs (.dmaq (queueOf r.d r.i)) .off
  | .trcRingBase => !(s.reg .trcCtl 0 0 0).getLsbD 0
  | .trcRingSize => !(s.reg .trcCtl 0 0 0).getLsbD 0
  | .fabAddr => s.ringsApart
  | .fabDims => s.ringsApart
  | _ => true

/-- A written value with the bits that take no write as they stand (R7). -/
def maskWrite (mask : Nat) (old v : W64) : W64 :=
  (old &&& ~~~(BitVec.ofNat 64 mask)) ||| (v &&& BitVec.ofNat 64 mask)

/-- Sticky values are part of the store's section 0 (R443). -/
def saveSticky (s : State) : State :=
  { s with store := { s.store with dirty := true, cur := { s.store.cur with sticky := stickyRegs s } } }

/-- Stores a written value in an RW or RWS register. -/
def storeReg (r : RegRef) (v : W64) (s : State) : State :=
  if s.writable r then
    let old := s.reg r.id r.d r.i r.j
    let s := s.setReg r.id r.d r.i r.j (clampReg r.id old (maskWrite r.id.row.mask old v))
    if r.id.row.acc = .rws then saveSticky s else s
  else s

/-! ### Registers whose write acts -/

/-- A W1C write, with the bits that the module sets in the same cycle (R9). -/
def w1cWrite (r : RegRef) (v set : Nat) (s : State) : State :=
  let m := r.id.row.mask
  let s := s.modReg r.id r.d r.i r.j (fun w => w &&& ~~~(BitVec.ofNat 64 (v &&& m)))
  if r.id = .fabEvent then
    ((List.range 5).filter (fun k => set.testBit k)).foldl (fun s k => s.fabEvent k) s
  else s.modReg r.id r.d r.i r.j (fun w => w ||| BitVec.ofNat 64 (set &&& m))

/-- EN written to a function state word. -/
def fnWrite (f : FuncId) (v : W64) (s : State) : State :=
  if v.getLsbD 8 then functionEnable f s
  else match f with
    | .port p => portDisable p s
    | _ => functionDisable f s

/-- SEC_RESET: KEY in bits 31:16, KIND 1 warm, 2 cold (R477, R478). -/
def secReset (path : Path) (v : W64) (s : State) : State :=
  if secResetActs path (BitVec.ofNat 16 (fld v 31 16)) s then
    if fld v 1 0 = 1 then warmReset 4 s else if fld v 1 0 = 2 then coldReset 4 s else s
  else s

/-- SEC_CTL. -/
def secCtl (v : W64) (s : State) : State :=
  let s := if v.getLsbD 0 then secRecover s else s
  if v.getLsbD 1 then secCommitSvn s else s

/-- AVL_CTL: each bit written as 1 is a command, the lowest first. -/
def avlCtl (v : W64) (s : State) : State :=
  let s := if v.getLsbD 0 then hubSwap s else s
  let s := if v.getLsbD 1 then fwStage s else s
  let s := if v.getLsbD 2 then fwActivate s else s
  let s := if v.getLsbD 3 then fwAbort s else s
  if v.getLsbD 4 then fwSelectNext s else s

/-- Whether the trace ring breaks R487: base and size multiples of 1 MiB, wholly in module-interleaved regions of no
context's ranges; a ring without bytes holds no record. -/
def State.traceRingBad (s : State) : Bool :=
  let b := (s.reg .trcRingBase 0 0 0).toNat
  let z := (s.reg .trcRingSize 0 0 0).toNat
  decide (z = 0) || decide (z % 2 ^ 20 ≠ 0) || decide (b % 2 ^ 20 ≠ 0) || decide (0xBC00000000 < b + z) ||
    (List.range ((b + z - 1) / 2 ^ 30 + 1 - b / 2 ^ 30)).any (fun k =>
      decide (s.region (b / 2 ^ 30 + k) ≠ .interleaved) ||
        (List.finRange 64).any (fun n => s.hasRegion n (b / 2 ^ 30 + k)))

/-- TRC_CTL: MODE and RATE, clamped to 1 to 30, are stored; setting EN is refused with ERR when the ring breaks
R487, else records are numbered from 0 again and the ring is written from its start. -/
def traceCtl (v : W64) (s : State) : State :=
  let old := s.reg .trcCtl 0 0 0
  let rate := max 1 (min 30 (fld v 12 8))
  let base := setFld (setFld 0 1 1 (fld v 1 1)) 12 8 rate
  let s := if fld old 12 8 = rate then s else s.settleTokens
  if v.getLsbD 0 = false then s.setReg .trcCtl 0 0 0 base
  else if old.getLsbD 0 then s.setReg .trcCtl 0 0 0 (setFld base 0 0 1)
  else if s.traceRingBad then s.setReg .trcCtl 0 0 0 (setFld base 31 31 1)
  else ({ s with trcSeq := [], trcDrop := [] }.setReg .trcRingProd 0 0 0 0).setReg .trcCtl 0 0 0 (setFld base 0 0 1)

/-- TRC_DEV: a change of LEVEL extends measurement block 7 (R468, R488). -/
def traceDev (r : RegRef) (v : W64) (s : State) : State :=
  let t := storeReg r v s
  if t.regFld .trcDev 0 0 0 1 0 = s.regFld .trcDev 0 0 0 1 0 then t else t.extendSecurity

/-- FAB_TIME_CTL: eligibility as time master changes the time path, and is announced once admitted (R389). -/
def fabTimeCtl (r : RegRef) (v : W64) (s : State) : State :=
  let old := (s.reg .fabTimeCtl 0 0 0).getLsbD 0
  let s := viewStep (fun s => storeReg r v s) s
  if v.getLsbD 0 = old ∨ s.fab.selfAdmitted = false then s
  else s.announce (if old then 5 else 4) 0 s.ownAddr

/-- An MSI-X table entry unmasked sends its pending message (R337, log 7). -/
def msixUnmask (v : Nat) (s : State) : State :=
  if s.hub.msixEnable && !s.hub.msixFnMask && !(s.reg .msixCtl 0 v 0).getLsbD 0 &&
      s.regFld .msixPending 0 (v / 32) 0 (v % 32) (v % 32) == 1 then
    (s.setRegFld .msixPending 0 (v / 32) 0 (v % 32) (v % 32) 0).emit (.msix v)
  else s

/-- What a write of a register does: `v` is its new 64-bit value before masking. -/
def writeReg (path : Path) (r : RegRef) (v : W64) (s : State) : State :=
  match r.func with
  | some f => fnWrite f v s
  | none =>
    match r.id with
    | .hifBar4Ctl => bar4CtlWrite v s
    | .hifLoopback => hifLoopSelect (match path with
        | .henlan _ => true
        | _ => false) (fld v 1 0) (fld v 15 8) s
    | .hifRingStat => w1cWrite r v.toNat 0 s
    | .msixCtl => msixUnmask r.i (storeReg r v s)
    | .secReset => secReset path v s
    | .secCtl => secCtl v s
    | .avlCtl => avlCtl v s
    | .trcCtl => traceCtl v s
    | .trcDev => traceDev r v s
    | .fabDims => if s.ringsApart then sizesSet (storeReg r v s) else s
    | .fabAdmit => fabAdmitWrite (v.setWidth 32) s
    | .fabEvent => w1cWrite r v.toNat 0 s
    | .fabTimeCtl => fabTimeCtl r v s
    | .mgtRegionCommit => if v.getLsbD 0 then regionCommit s else s
    | .lndLoopback =>
      let (b, s) := s.freeBits 1
      lndLoopSelect (portOf r.d r.i) (fld v 2 0) (b == 1) s
    | .mcLoopback => mcLoopSelect (dieOf r.d) (mcOf r.i) (fld v 1 0) (fld v 8 4) s
    | .medLoopback => medLoopSelect (dieOf r.d) (fld v 1 0) s
    | _ => if r.id.row.acc = .rw ∨ r.id.row.acc = .rws then storeReg r v s else s

/-- A 32-bit write of the word at an aligned offset; the other word of a 64-bit register stands. -/
def writeWord (path : Path) (off : Nat) (v : W32) (s : State) : State :=
  match regAt off with
  | none => s
  | some r =>
    let old := (s.reg r.id r.d r.i r.j).toNat
    let new := if !r.id.row.wide then v.toNat
      else if r.high then old % 2 ^ 32 + v.toNat * 2 ^ 32
      else v.toNat + old / 2 ^ 32 * 2 ^ 32
    writeReg path r (BitVec.ofNat 64 new) s

/-- A 64-bit write: a 64-bit register whole, or two registers, the lower first. -/
def writeWide (path : Path) (off : Nat) (v : W64) (s : State) : State :=
  match regAt off with
  | some r =>
    if r.id.row.wide then writeReg path r v s
    else writeWord path (off + 4) (BitVec.ofNat 32 (v.toNat / 2 ^ 32)) (writeWord path off (BitVec.ofNat 32 v.toNat) s)
  | none => writeWord path (off + 4) (BitVec.ofNat 32 (v.toNat / 2 ^ 32)) s

/-- A write to a block that does not respond is ignored; but before step 10 an enable of a context sets its ERR to 6
(R458). -/
def writeEarly (off : Nat) (v : W64) (s : State) : State :=
  match regAt off with
  | some r =>
    if r.id = .hifCtxState ∧ r.high = false ∧ v.getLsbD 8 = true ∧ s.boot.recovery = false ∧ s.boot.stage < 10 then
      contextEnable (ctxOf r.i) s
    else s
  | none => s

/-- A write of 4 or 8 bytes: without effect where it is not naturally aligned (R6), and refused to a development
requester (R489). -/
def writeAt (path : Path) (off size : Nat) (v : W64) (s : State) : State :=
  if !s.pathLive path then notReached path s
  else if !privileged path then s.emit (.accessRefused path)
  else if (size ≠ 4 ∧ size ≠ 8) ∨ off % size ≠ 0 then s
  else if !s.blockUp true off then writeEarly off v s
  else if size = 4 then writeWord path off (v.setWidth 32) s
  else writeWide path off v s

/-! ### Configuration space, R317, R318, R458 -/

/-- Size of base address register pair i, R321 Table 3. -/
def State.barSize (s : State) (i : Nat) : Nat := if i = 0 then 2 ^ 24 else if i = 1 then 2 ^ 18 else s.bar4Size

/-- Base address register pair i as it reads: 64-bit, and the third one prefetchable. -/
def State.barWord (s : State) (i : Nat) : Nat :=
  let a := s.hub.bars.getD i 0
  a - a % s.barSize i + (if i = 2 then 0xC else 4)

/-- Capabilities that the function offers, by ID and place: Power Management, PCI Express and MSI-X, and so no MSI; and
the extended ones: AER, Resizable BAR, DOE, Device 3, and the physical layers of 32 and 64 GT/s (R318, log 7). -/
def capList : List (Nat × Nat) := [(0x01, Config.pmCapOff), (0x10, Config.pcieCapOff), (0x11, Config.msixControlOff - 2)]
def extCapList : List (Nat × Nat) :=
  [(0x0001, 0x100), (0x0015, Config.extCapOff 0), (0x002E, Config.extCapOff 1), (0x002F, Config.extCapOff 2),
   (0x002A, Config.extCapOff 3), (0x0031, Config.extCapOff 4)]

/-- The headers of a list of capabilities: each its ID and the place of the next, the last one `last`. -/
def capHeaders : List (Nat × Nat) → List (Nat × Nat × Nat × Nat)
  | [] => []
  | [(k, o)] => [(o, 2, 0xFFFF, k)]
  | (k, o) :: (k', o') :: rest => (o, 2, 0xFFFF, k + o' * 2 ^ 8) :: capHeaders ((k', o') :: rest)

/-- The same for extended capabilities, whose last one is that of 128 GT/s, its ID free. -/
def extHeaders : List (Nat × Nat) → List (Nat × Nat × Nat × Nat)
  | [] => []
  | [(k, o)] => [(o, 4, 0xFFF0FFFF, k + Config.extCapOff 5 * 2 ^ 20), (Config.extCapOff 5, 4, 0xFFF00000, 0)]
  | (k, o) :: (k', o') :: rest => (o, 4, 0xFFF0FFFF, k + o' * 2 ^ 20) :: extHeaders ((k', o') :: rest)

/-- Fields of configuration space whose content the manual gives: offset, bytes, the bits given and their value. The
identity of R1 and R317; the base address registers; the list of capabilities; MSI-X with 1,024 vectors, its table and
pending bits in BAR0; payloads to 512 B, no Function Level Reset (R453), their control as written, a link of 16 lanes
and up to 128 GT/s, with 64 and 32 GT/s, without L0s and L1; 14-bit tags and L0p; the resizable window of 1 GiB to
512 GiB; and the power state (R318, R321). The places are those of PCI Express, and of a capability free (log 7). -/
def State.cfgFields (s : State) : List (Nat × Nat × Nat × Nat) :=
  let h := s.hub
  let w32 := 2 ^ 32 - 1
  [(0x00, 4, w32, 0x0832CA1C), (0x08, 4, w32, 0x120000A1), (0x2C, 4, w32, 0x0001CA1C),
   (0x10, 8, 2 ^ 64 - 1, s.barWord 0), (0x18, 8, 2 ^ 64 - 1, s.barWord 1), (0x20, 8, 2 ^ 64 - 1, s.barWord 2),
   (Config.msixControlOff, 2, 0xC7FF, 1023 + (if h.msixFnMask then 2 ^ 14 else 0) + (if h.msixEnable then 2 ^ 15 else 0)),
   (Config.msixControlOff + 2, 4, w32, 0x8000), (Config.msixControlOff + 6, 4, w32, 0xC000),
   (0x06, 2, 0x10, 0x10), (0x34, 1, 0xFF, Config.pmCapOff)] ++ capHeaders capList ++ extHeaders extCapList ++
  [(Config.pcieCapOff + 4, 4, 0x10000007, 2), (Config.pcieCapOff + 8, 2, 0x70E0, h.devCtl),
   (Config.pcieCapOff + 0xC, 4, 0xFFF, 0x107), (Config.pcieCapOff + 0x2C, 4, 0xE0, 0xE0),
   (Config.extCapOff 0 + 4, 4, 0xFFFFFFF0, 0x3FF * 2 ^ 14), (Config.extCapOff 0 + 8, 4, 0x3FE7, 4 + 2 ^ 5 + (h.bar4Log2 - 20) * 2 ^ 8),
   (Config.extCapOff 2 + 4, 4, 0xE, 0xE), (Config.pmCapOff + 4, 2, 3, if h.d3hot then 3 else 0)]

/-- A byte of configuration space: what the fields that hold it give, other bits free (log 7). -/
def State.cfgByte (s : State) (off : Nat) : Nat :=
  let free := (Config.cfgSpace off).toNat % 256
  match s.cfgFields.find? (fun f => decide (f.1 ≤ off) && decide (off < f.1 + f.2.1)) with
  | some (o, _, m, v) =>
    let m := m / 2 ^ (8 * (off - o)) % 256
    let v := v / 2 ^ (8 * (off - o)) % 256
    (v &&& m) ||| (free &&& (255 - m))
  | none => free

/-- Sends every pending message that nothing masks any more. -/
def msixSendPending (s : State) : State := (List.range 1024).foldl (fun s v => msixUnmask v s) s

/-- A value of `n` bytes at `o` with the bytes that a write of `size` bytes at `off` reaches. -/
def cfgMerge (o n old off size v : Nat) : Nat :=
  leNat (tab n (fun k => BitVec.ofNat 8
    (if off ≤ o + k ∧ o + k < off + size then v / 2 ^ (8 * (o + k - off)) else old / 2 ^ (8 * k))))

/-- A write of configuration space reaches the base address registers, Device Control, and MSI-X Enable and Function
Mask; entry to D3hot, return to D0 and a BAR resize have commands of their own. -/
def cfgWrite (off size v : Nat) (s : State) : State :=
  let bar (i : Nat) : Nat := cfgMerge (0x10 + 8 * i) 8 (s.barWord i) off size v
  let dev := cfgMerge (Config.pcieCapOff + 8) 2 s.hub.devCtl off size v
  let msix := cfgMerge Config.msixControlOff 2 (s.cfgByte Config.msixControlOff + 2 ^ 8 * s.cfgByte (Config.msixControlOff + 1)) off size v
  let s := { s with hub := { s.hub with
    bars := tab 3 (fun i => bar i - bar i % s.barSize i), devCtl := dev, msixFnMask := msix.testBit 14, msixEnable := msix.testBit 15 } }
  if off < Config.msixControlOff + 2 ∧ Config.msixControlOff < off + size then msixSendPending s else s

/-- A configuration request: Request Retry Status until the function is configuration-ready. -/
def configRequest (off size : Nat) (write : Option Nat) (s : State) : State :=
  if !(s.boot.powered && s.boot.linkUp && !s.hub.linkLoopback && !s.hub.farEnd) then s
  else if !s.boot.cfgReady then s.emit .cfgRetry
  else match write with
    | none => s.emit (.cfgData (leNat ((List.range size).map (fun k => BitVec.ofNat 8 (s.cfgByte (off + k))))))
    | some v => cfgWrite off size v s

/-! ### BAR2 and BAR4 -/

/-- Whether doorbells and BAR4 respond: from step 10, not in recovery. -/
def State.windowUp (s : State) : Bool := s.barUp && !s.boot.recovery && decide (10 ≤ s.boot.stage)

/-- What the accesses of the host and of Henlan, the packets for the module, and what the fabric manager and Yarrow act on
do once they reach the hub. -/
def access (c : Instr) (s : State) : State :=
  match c with
  | .lowWordRead path off => readAt path off 4 0 s
  | .highWordRead path off => readAt path off 4 0 s
  | .misalignedAccess path off size w =>
    match w with
    | none => readAt path off size 0 s
    | some v => writeAt path off size (BitVec.ofNat 64 v) s
  | .registerWrite path off wide v => writeAt path off (if wide then 8 else 4) v s
  | .rcRegisterRead path off ev => readAt path off 4 ev s
  | .w1cWrite path off v set =>
    match regAt off with
    | some r =>
      if s.pathLive path && privileged path && s.blockUp true off && off % 4 == 0 && decide (r.id.row.acc = .w1c) then
        w1cWrite r v.toNat set.toNat s
      else writeAt path off 4 (v.setWidth 64) s
    | none => s
  | .functionEnable path f => writeAt path (fnOff f) 4 0x100 s
  | .functionDisable path f => writeAt path (fnOff f) 4 0 s
  | .regionCommit path => writeAt path (RegId.off .mgtRegionCommit 0 0 0) 4 1 s
  | .coreDisable path d p => writeAt path (fnOff (.core d p)) 4 0 s
  | .contextEnable path n => writeAt path (fnOff (.ctx n)) 4 0x100 s
  | .bar4CtlWrite path v => writeAt path (RegId.off .hifBar4Ctl 0 0 0) 8 v s
  | .barResize log2 => if s.barUp then barResize log2 s else s
  | .bar4Read off len ce => if s.windowUp then bar4Read off len ce s else s
  | .bar4Write off bs => if s.windowUp then bar4Write off bs s else s
  | .configRequest off size w => configRequest off size w s
  | .ringDoorbell off size v => if s.windowUp then ringDoorbellAt off size v s else s
  | .eventDoorbell off size v => if s.windowUp then eventDoorbellAt off size v s else s
  | .d3hotEntry => if s.barUp then { s with hub := { s.hub with d3hot := true } } else s
  | .d0Return => if s.barUp then { s with hub := { s.hub with d3hot := false } } else s
  | .secResetWarm path key => writeAt path (RegId.off .secReset 0 0 0) 4 (BitVec.ofNat 64 (key.toNat * 2 ^ 16 + 1)) s
  | .secResetCold path key => writeAt path (RegId.off .secReset 0 0 0) 4 (BitVec.ofNat 64 (key.toNat * 2 ^ 16 + 2)) s
  | .henlanWarmReset e => if s.henlanUp then warmReset 5 s else notReached (.henlan e) s
  | .henlanColdReset e => if s.henlanUp then coldReset 5 s else notReached (.henlan e) s
  | .secRecover path => writeAt path (RegId.off .secCtl 0 0 0) 4 1 s
  | .secCommitSvn path => writeAt path (RegId.off .secCtl 0 0 0) 4 2 s
  | .getVersion t => getVersion t s
  | .getCapabilities t version ct => getCapabilities t version ct s
  | .negotiateAlgorithms t a h d e k => negotiateAlgorithms t a h d e k s
  | .getDigests t => getDigests t s
  | .getCertificate t slot off len => getCertificate t slot off len s
  | .challenge t slot sum nonce => challenge t slot sum nonce s
  | .getMeasurements t idx signed nonce => getMeasurements t idx signed nonce s
  | .keyExchange t slot ex ma => keyExchange t slot ex ma s
  | .finish t n ok => finish t n ok s
  | .endSession t n => endSession t n s
  | .heartbeat t n => heartbeat t n s
  | .keyUpdate t n _ => keyUpdate t n s
  | .chunkSend t h k last bs => chunkSend t h k last bs s
  | .chunkGet t h k => chunkGet t h k s
  | .respondIfReady t k => respondIfReady t k s
  | .getCsr t => spdmUnsupported t s
  | .setCertificate t => spdmUnsupported t s
  | .pskExchange t => spdmUnsupported t s
  | .getKeyPairInfo t => spdmUnsupported t s
  | .fabAdmitRequest path v => writeAt path (RegId.off .fabAdmit 0 0 0) 4 (v.setWidth 64) s
  | .fabLeaveRequest path v => writeAt path (RegId.off .fabAdmit 0 0 0) 4 (v.setWidth 64) s
  | .lndLoopbackSelect path p depth echoOk =>
    if s.pathLive path && privileged path && s.blockUp true (RegId.off .lndLoopback (p.val / 2) (p.val % 2) 0) then
      lndLoopSelect p depth.val echoOk s
    else writeAt path (RegId.off .lndLoopback (p.val / 2) (p.val % 2) 0) 4 0 s
  | .hubSwap path => writeAt path (RegId.off .avlCtl 0 0 0) 4 1 s
  | .fwStage path => writeAt path (RegId.off .avlCtl 0 0 0) 4 2 s
  | .fwActivate path => writeAt path (RegId.off .avlCtl 0 0 0) 4 4 s
  | .fwAbort path => writeAt path (RegId.off .avlCtl 0 0 0) 4 8 s
  | .fwSelectNext path => writeAt path (RegId.off .avlCtl 0 0 0) 4 16 s
  | .traceEnable path v => writeAt path (RegId.off .trcCtl 0 0 0) 4 (v.setWidth 64) s
  | .devLevelWrite path v => writeAt path (RegId.off .trcDev 0 0 0) 4 (v.setWidth 64) s
  | .hifLoopbackSelect path depth sec =>
    writeAt path (RegId.off .hifLoopback 0 0 0) 4 (BitVec.ofNat 64 (depth.val + sec.toNat * 2 ^ 8)) s
  | .mcLoopbackSelect path d m depth pc =>
    writeAt path (RegId.off .mcLoopback d.val m.val 0) 4 (BitVec.ofNat 64 (depth.val + pc.val * 2 ^ 4)) s
  | .medLoopbackSelect path d depth => writeAt path (RegId.off .medLoopback d.val 0 0) 4 (BitVec.ofNat 64 depth.val) s
  | .loopbackStop path off =>
    match regAt off with
    | some r =>
      if r.id = .hifLoopback ∨ r.id = .lndLoopback ∨ r.id = .mcLoopback ∨ r.id = .medLoopback then writeAt path off 4 0 s
      else s
    | none => s
  | .mctpControlMessage msg => mctpControl msg s
  | .armReceive pkt => receive 0x01 armNote pkt s
  | .contribReceive pkt ce => receive 0x02 (contribNote ce) pkt s
  | .endReceive pkt ce => receive 0x03 (endNote ce) pkt s
  | .shardReceive pkt => receive 0x04 shardNote pkt s
  | .hopReceive pkt => receive 0x05 hopIn pkt s
  | .routeReceive pkt => receive 0x10 routeReceive pkt s
  | .admitReceive pkt => admitReceiveEv pkt s
  | .admitAccept minus plus => admitAcceptEv minus plus s
  | .admitWithdraw pkt => admitWithdrawEv pkt s
  | .admitRequestTimeout i => admitTimeoutEv i s
  | .echoReceive pkt => echoReceiveEv pkt s
  | .switchOpenReported i => switchOpenEv i s
  | .segmentTrained i => segmentTrainedEv i s
  | .trainingTimeout i => trainingTimeoutEv i s
  | .switchClosedReported i => switchClosedEv i s
  | .segmentDown i plus => segmentDownEv i plus s
  | .segmentUp i plus => segmentUpEv i plus s
  | .neighbourLoss i plus k => neighbourLossEv i plus k s
  | .galleryBankSwitch d k => galleryBankSwitchEv d k s
  | .coreRetireDone d p => coreRetireDoneEv d p s
  | .phaseFail d g => phaseFailEv d g s
  | _ => s

/-- Whether an access through BAR4 waits for a stopped island on its way (R19). -/
def State.windowHeld (s : State) : Instr → Bool
  | .bar4Read off len _ => !s.bar4Refuses off len && !s.memRuns none (s.bar4Base + off) len
  | .bar4Write off bs => !s.bar4Refuses off bs.length && !s.memRuns none (s.bar4Base + off) bs.length
  | _ => false

/-- An access that reaches the hub: during a change-over of hub halves it waits (R440, R475, R513), and through BAR4
for a stopped island (R19). -/
def reach (c : Instr) (s : State) : State :=
  if s.hub.takeover || s.windowHeld c then { s with held := s.held ++ [c] } else access c s

/-- What waited for a change-over proceeds in the order it came. -/
def replayHeld (s : State) : State := s.held.foldl (fun s c => reach c s) { s with held := [] }

/-- HUB_TAKEOVER_DONE: what waited for the hub proceeds, descriptors that wait for DMA queues included. -/
def execHubTakeoverDone (s : State) : Host.Outcome State Fault Refusal :=
  .next (if s.hub.takeover then replayHeld (mediaRetry (dmaRetry (hubTakeoverDone s))) else s)

/-- THERMAL_REPORT: what waited for an island that runs again proceeds (R19). -/
def execThermalReport (d : Die) (temps : List (Island × Int)) (hbmTemps : List (Mc × Int)) (s : State) :
    Host.Outcome State Fault Refusal :=
  .next (replayHeld (thermalReport d temps hbmTemps s))

/-- LOW_WORD_READ. -/
def execLowWordRead (path : Path) (off : Nat) (s : State) : Host.Outcome State Fault Refusal :=
  .next (reach (.lowWordRead path off) s)

/-- HIGH_WORD_READ. -/
def execHighWordRead (path : Path) (off : Nat) (s : State) : Host.Outcome State Fault Refusal :=
  .next (reach (.highWordRead path off) s)

/-- MISALIGNED_ACCESS; a naturally aligned access is served as such. -/
def execMisalignedAccess (path : Path) (off size : Nat) (write : Option Nat) (s : State) : Host.Outcome State Fault Refusal :=
  .next (reach (.misalignedAccess path off size write) s)

/-- REGISTER_WRITE. -/
def execRegisterWrite (path : Path) (off : Nat) (wide : Bool) (val : W64) (s : State) : Host.Outcome State Fault Refusal :=
  .next (reach (.registerWrite path off wide val) s)

/-- RC_REGISTER_READ. -/
def execRcRegisterRead (path : Path) (off event : Nat) (s : State) : Host.Outcome State Fault Refusal :=
  .next (reach (.rcRegisterRead path off event) s)

/-- W1C_WRITE. -/
def execW1cWrite (path : Path) (off : Nat) (val set : W32) (s : State) : Host.Outcome State Fault Refusal :=
  .next (reach (.w1cWrite path off val set) s)

/-- FUNCTION_ENABLE. -/
def execFunctionEnable (path : Path) (f : FuncId) (s : State) : Host.Outcome State Fault Refusal :=
  .next (reach (.functionEnable path f) s)

/-- FUNCTION_DISABLE. -/
def execFunctionDisable (path : Path) (f : FuncId) (s : State) : Host.Outcome State Fault Refusal :=
  .next (reach (.functionDisable path f) s)

/-- REGION_COMMIT. -/
def execRegionCommit (path : Path) (s : State) : Host.Outcome State Fault Refusal :=
  .next (reach (.regionCommit path) s)

/-- CORE_DISABLE. -/
def execCoreDisable (path : Path) (d : Die) (p : PCore) (s : State) : Host.Outcome State Fault Refusal :=
  .next (reach (.coreDisable path d p) s)

/-- CONTEXT_ENABLE. -/
def execContextEnable (path : Path) (n : CtxId) (s : State) : Host.Outcome State Fault Refusal :=
  .next (reach (.contextEnable path n) s)

/-- BAR4_CTL_WRITE. -/
def execBar4CtlWrite (path : Path) (val : W64) (s : State) : Host.Outcome State Fault Refusal :=
  .next (reach (.bar4CtlWrite path val) s)

/-- BAR_RESIZE. -/
def execBarResize (log2 : Nat) (s : State) : Host.Outcome State Fault Refusal :=
  .next (reach (.barResize log2) s)

/-- BAR4_READ. -/
def execBar4Read (off len : Nat) (s : State) (ce : List Nat := []) : Host.Outcome State Fault Refusal :=
  .next (reach (.bar4Read off len ce) s)

/-- BAR4_WRITE. -/
def execBar4Write (off : Nat) (bytes : List Byte) (s : State) : Host.Outcome State Fault Refusal :=
  .next (reach (.bar4Write off bytes) s)

/-- CONFIG_REQUEST. -/
def execConfigRequest (off size : Nat) (write : Option Nat) (s : State) : Host.Outcome State Fault Refusal :=
  .next (reach (.configRequest off size write) s)

/-- RING_DOORBELL. -/
def execRingDoorbell (off size : Nat) (val : Option W32) (s : State) : Host.Outcome State Fault Refusal :=
  .next (reach (.ringDoorbell off size val) s)

/-- EVENT_DOORBELL. -/
def execEventDoorbell (off size : Nat) (val : W32) (s : State) : Host.Outcome State Fault Refusal :=
  .next (reach (.eventDoorbell off size val) s)

/-- D3HOT_ENTRY. -/
def execD3hotEntry (s : State) : Host.Outcome State Fault Refusal :=
  .next (reach (.d3hotEntry) s)

/-- D0_RETURN. -/
def execD0Return (s : State) : Host.Outcome State Fault Refusal :=
  .next (reach (.d0Return) s)

/-- SEC_RESET_WARM. -/
def execSecResetWarm (path : Path) (key : W16) (s : State) : Host.Outcome State Fault Refusal :=
  .next (reach (.secResetWarm path key) s)

/-- SEC_RESET_COLD. -/
def execSecResetCold (path : Path) (key : W16) (s : State) : Host.Outcome State Fault Refusal :=
  .next (reach (.secResetCold path key) s)

/-- HENLAN_WARM_RESET. -/
def execHenlanWarmReset (endpoint : Nat) (s : State) : Host.Outcome State Fault Refusal :=
  .next (reach (.henlanWarmReset endpoint) s)

/-- HENLAN_COLD_RESET. -/
def execHenlanColdReset (endpoint : Nat) (s : State) : Host.Outcome State Fault Refusal :=
  .next (reach (.henlanColdReset endpoint) s)

/-- SEC_RECOVER. -/
def execSecRecover (path : Path) (s : State) : Host.Outcome State Fault Refusal :=
  .next (reach (.secRecover path) s)

/-- SEC_COMMIT_SVN. -/
def execSecCommitSvn (path : Path) (s : State) : Host.Outcome State Fault Refusal :=
  .next (reach (.secCommitSvn path) s)

/-- GET_VERSION. -/
def execGetVersion (t : Transport) (s : State) : Host.Outcome State Fault Refusal :=
  .next (reach (.getVersion t) s)

/-- GET_CAPABILITIES. -/
def execGetCapabilities (t : Transport) (version : Byte) (ctExponent : Nat) (s : State) : Host.Outcome State Fault Refusal :=
  .next (reach (.getCapabilities t version ctExponent) s)

/-- NEGOTIATE_ALGORITHMS. -/
def execNegotiateAlgorithms (t : Transport) (asym hash dhe aead keySched : Bool) (s : State) : Host.Outcome State Fault Refusal :=
  .next (reach (.negotiateAlgorithms t asym hash dhe aead keySched) s)

/-- GET_DIGESTS. -/
def execGetDigests (t : Transport) (s : State) : Host.Outcome State Fault Refusal :=
  .next (reach (.getDigests t) s)

/-- GET_CERTIFICATE. -/
def execGetCertificate (t : Transport) (slot : Fin 8) (offset length : Nat) (s : State) : Host.Outcome State Fault Refusal :=
  .next (reach (.getCertificate t slot offset length) s)

/-- CHALLENGE. -/
def execChallenge (t : Transport) (slot : Fin 8) (summary : Byte) (nonce : BitVec 256) (s : State) : Host.Outcome State Fault Refusal :=
  .next (reach (.challenge t slot summary nonce) s)

/-- GET_MEASUREMENTS. -/
def execGetMeasurements (t : Transport) (index : Byte) (signed : Bool) (nonce : BitVec 256) (s : State) : Host.Outcome State Fault Refusal :=
  .next (reach (.getMeasurements t index signed nonce) s)

/-- KEY_EXCHANGE. -/
def execKeyExchange (t : Transport) (slot : Fin 8) (exchange : List Byte) (mutualAuth : Bool) (s : State) : Host.Outcome State Fault Refusal :=
  .next (reach (.keyExchange t slot exchange mutualAuth) s)

/-- FINISH. -/
def execFinish (t : Transport) (session : Nat) (hmacOk : Bool) (s : State) : Host.Outcome State Fault Refusal :=
  .next (reach (.finish t session hmacOk) s)

/-- END_SESSION. -/
def execEndSession (t : Transport) (session : Nat) (s : State) : Host.Outcome State Fault Refusal :=
  .next (reach (.endSession t session) s)

/-- HEARTBEAT. -/
def execHeartbeat (t : Transport) (session : Nat) (s : State) : Host.Outcome State Fault Refusal :=
  .next (reach (.heartbeat t session) s)

/-- KEY_UPDATE. -/
def execKeyUpdate (t : Transport) (session : Nat) (both : Bool) (s : State) : Host.Outcome State Fault Refusal :=
  .next (reach (.keyUpdate t session both) s)

/-- CHUNK_SEND. -/
def execChunkSend (t : Transport) (handle seqNo : Nat) (last : Bool) (chunk : List Byte) (s : State) : Host.Outcome State Fault Refusal :=
  .next (reach (.chunkSend t handle seqNo last chunk) s)

/-- CHUNK_GET. -/
def execChunkGet (t : Transport) (handle seqNo : Nat) (s : State) : Host.Outcome State Fault Refusal :=
  .next (reach (.chunkGet t handle seqNo) s)

/-- RESPOND_IF_READY. -/
def execRespondIfReady (t : Transport) (token : Nat) (s : State) : Host.Outcome State Fault Refusal :=
  .next (reach (.respondIfReady t token) s)

/-- GET_CSR. -/
def execGetCsr (t : Transport) (s : State) : Host.Outcome State Fault Refusal :=
  .next (reach (.getCsr t) s)

/-- SET_CERTIFICATE. -/
def execSetCertificate (t : Transport) (s : State) : Host.Outcome State Fault Refusal :=
  .next (reach (.setCertificate t) s)

/-- PSK_EXCHANGE. -/
def execPskExchange (t : Transport) (s : State) : Host.Outcome State Fault Refusal :=
  .next (reach (.pskExchange t) s)

/-- GET_KEY_PAIR_INFO. -/
def execGetKeyPairInfo (t : Transport) (s : State) : Host.Outcome State Fault Refusal :=
  .next (reach (.getKeyPairInfo t) s)

/-- FAB_ADMIT_REQUEST. -/
def execFabAdmitRequest (path : Path) (val : W32) (s : State) : Host.Outcome State Fault Refusal :=
  .next (reach (.fabAdmitRequest path val) s)

/-- FAB_LEAVE_REQUEST. -/
def execFabLeaveRequest (path : Path) (val : W32) (s : State) : Host.Outcome State Fault Refusal :=
  .next (reach (.fabLeaveRequest path val) s)

/-- LND_LOOPBACK_SELECT. -/
def execLndLoopbackSelect (path : Path) (p : PortId) (depth : Fin 8) (echoOk : Bool) (s : State) : Host.Outcome State Fault Refusal :=
  .next (reach (.lndLoopbackSelect path p depth echoOk) s)

/-- HUB_SWAP. -/
def execHubSwap (path : Path) (s : State) : Host.Outcome State Fault Refusal :=
  .next (reach (.hubSwap path) s)

/-- FW_STAGE. -/
def execFwStage (path : Path) (s : State) : Host.Outcome State Fault Refusal :=
  .next (reach (.fwStage path) s)

/-- FW_ACTIVATE. -/
def execFwActivate (path : Path) (s : State) : Host.Outcome State Fault Refusal :=
  .next (reach (.fwActivate path) s)

/-- FW_ABORT. -/
def execFwAbort (path : Path) (s : State) : Host.Outcome State Fault Refusal :=
  .next (reach (.fwAbort path) s)

/-- FW_SELECT_NEXT. -/
def execFwSelectNext (path : Path) (s : State) : Host.Outcome State Fault Refusal :=
  .next (reach (.fwSelectNext path) s)

/-- TRACE_ENABLE. -/
def execTraceEnable (path : Path) (val : W32) (s : State) : Host.Outcome State Fault Refusal :=
  .next (reach (.traceEnable path val) s)

/-- DEV_LEVEL_WRITE. -/
def execDevLevelWrite (path : Path) (val : W32) (s : State) : Host.Outcome State Fault Refusal :=
  .next (reach (.devLevelWrite path val) s)

/-- HIF_LOOPBACK_SELECT. -/
def execHifLoopbackSelect (path : Path) (depth : Fin 4) (seconds : Byte) (s : State) : Host.Outcome State Fault Refusal :=
  .next (reach (.hifLoopbackSelect path depth seconds) s)

/-- MC_LOOPBACK_SELECT. -/
def execMcLoopbackSelect (path : Path) (d : Die) (m : Mc) (depth : Fin 4) (pc : Fin 32) (s : State) : Host.Outcome State Fault Refusal :=
  .next (reach (.mcLoopbackSelect path d m depth pc) s)

/-- MED_LOOPBACK_SELECT. -/
def execMedLoopbackSelect (path : Path) (d : Die) (depth : Fin 4) (s : State) : Host.Outcome State Fault Refusal :=
  .next (reach (.medLoopbackSelect path d depth) s)

/-- LOOPBACK_STOP. -/
def execLoopbackStop (path : Path) (off : Nat) (s : State) : Host.Outcome State Fault Refusal :=
  .next (reach (.loopbackStop path off) s)

/-- MCTP_CONTROL_MESSAGE. -/
def execMctpControlMessage (msg : MctpMsg) (s : State) : Host.Outcome State Fault Refusal :=
  .next (reach (.mctpControlMessage msg) s)

/-- ARM_RECEIVE. -/
def execArmReceive (pkt : Packet) (s : State) : Host.Outcome State Fault Refusal :=
  .next (reach (.armReceive pkt) s)

/-- SHARD_RECEIVE. -/
def execShardReceive (pkt : Packet) (s : State) : Host.Outcome State Fault Refusal :=
  .next (reach (.shardReceive pkt) s)

/-- HOP_RECEIVE. -/
def execHopReceive (pkt : Packet) (s : State) : Host.Outcome State Fault Refusal :=
  .next (reach (.hopReceive pkt) s)

/-- ROUTE_RECEIVE. -/
def execRouteReceive (pkt : Packet) (s : State) : Host.Outcome State Fault Refusal :=
  .next (reach (.routeReceive pkt) s)

/-- ADMIT_RECEIVE. -/
def execAdmitReceive (pkt : Packet) (s : State) : Host.Outcome State Fault Refusal :=
  .next (reach (.admitReceive pkt) s)

/-- ADMIT_ACCEPT. -/
def execAdmitAccept (minus plus : Packet) (s : State) : Host.Outcome State Fault Refusal :=
  .next (reach (.admitAccept minus plus) s)

/-- ADMIT_WITHDRAW. -/
def execAdmitWithdraw (pkt : Packet) (s : State) : Host.Outcome State Fault Refusal :=
  .next (reach (.admitWithdraw pkt) s)

/-- ADMIT_REQUEST_TIMEOUT. -/
def execAdmitRequestTimeout (i : FRing) (s : State) : Host.Outcome State Fault Refusal :=
  .next (reach (.admitRequestTimeout i) s)

/-- ECHO_RECEIVE. -/
def execEchoReceive (pkt : Packet) (s : State) : Host.Outcome State Fault Refusal :=
  .next (reach (.echoReceive pkt) s)

/-- SWITCH_OPEN_REPORTED. -/
def execSwitchOpenReported (i : FRing) (s : State) : Host.Outcome State Fault Refusal :=
  .next (reach (.switchOpenReported i) s)

/-- SEGMENT_TRAINED. -/
def execSegmentTrained (i : FRing) (s : State) : Host.Outcome State Fault Refusal :=
  .next (reach (.segmentTrained i) s)

/-- TRAINING_TIMEOUT. -/
def execTrainingTimeout (i : FRing) (s : State) : Host.Outcome State Fault Refusal :=
  .next (reach (.trainingTimeout i) s)

/-- SWITCH_CLOSED_REPORTED. -/
def execSwitchClosedReported (i : FRing) (s : State) : Host.Outcome State Fault Refusal :=
  .next (reach (.switchClosedReported i) s)

/-- SEGMENT_DOWN. -/
def execSegmentDown (i : FRing) (plusSide : Bool) (s : State) : Host.Outcome State Fault Refusal :=
  .next (reach (.segmentDown i plusSide) s)

/-- SEGMENT_UP. -/
def execSegmentUp (i : FRing) (plusSide : Bool) (s : State) : Host.Outcome State Fault Refusal :=
  .next (reach (.segmentUp i plusSide) s)

/-- NEIGHBOUR_LOSS. -/
def execNeighbourLoss (i : FRing) (plusSide : Bool) (packets : Nat) (s : State) : Host.Outcome State Fault Refusal :=
  .next (reach (.neighbourLoss i plusSide packets) s)

/-- GALLERY_BANK_SWITCH. -/
def execGalleryBankSwitch (d : Die) (k : Fin 4) (s : State) : Host.Outcome State Fault Refusal :=
  .next (reach (.galleryBankSwitch d k) s)

/-- CORE_RETIRE_DONE. -/
def execCoreRetireDone (d : Die) (p : PCore) (s : State) : Host.Outcome State Fault Refusal :=
  .next (reach (.coreRetireDone d p) s)

/-- PHASE_FAIL. -/
def execPhaseFail (d : Die) (g : Rail) (s : State) : Host.Outcome State Fault Refusal :=
  .next (reach (.phaseFail d g) s)

/-- CONTRIB_RECEIVE. -/
def execContribReceive (pkt : Packet) (s : State) (ce : List Nat := []) : Host.Outcome State Fault Refusal :=
  .next (reach (.contribReceive pkt ce) s)

/-- END_RECEIVE. -/
def execEndReceive (pkt : Packet) (s : State) (ce : List Nat := []) : Host.Outcome State Fault Refusal :=
  .next (reach (.endReceive pkt ce) s)

end Sys2Proof.Machine
end

