-- ==== Sys2Proof/Machine/Dispatch.lean ====
section
/-! DEFINITION. The meaning of every command: one arm per constructor of Instr. -/

namespace Sys2Proof.Machine

/-- A command's effect on everything but the queue. -/
def exec (i : Instr) (s : State) : Host.Outcome State Fault Refusal :=
  match i with
  | .lowWordRead path off => Sys2Proof.Machine.execLowWordRead path off s
  | .highWordRead path off => Sys2Proof.Machine.execHighWordRead path off s
  | .misalignedAccess path off size write => Sys2Proof.Machine.execMisalignedAccess path off size write s
  | .registerWrite path off wide val => Sys2Proof.Machine.execRegisterWrite path off wide val s
  | .rcRegisterRead path off event => Sys2Proof.Machine.execRcRegisterRead path off event s
  | .w1cWrite path off val set => Sys2Proof.Machine.execW1cWrite path off val set s
  | .functionEnable path f => Sys2Proof.Machine.execFunctionEnable path f s
  | .functionDisable path f => Sys2Proof.Machine.execFunctionDisable path f s
  | .startingComplete f => Sys2Proof.Machine.execStartingComplete f s
  | .drainComplete f => Sys2Proof.Machine.execDrainComplete f s
  | .regionCommit path => Sys2Proof.Machine.execRegionCommit path s
  | .regionCommitDone => Sys2Proof.Machine.execRegionCommitDone s
  | .coreDisable path d p => Sys2Proof.Machine.execCoreDisable path d p s
  | .contextEnable path n => Sys2Proof.Machine.execContextEnable path n s
  | .bar4CtlWrite path val => Sys2Proof.Machine.execBar4CtlWrite path val s
  | .barResize log2 => Sys2Proof.Machine.execBarResize log2 s
  | .bar4Read off len ce => Sys2Proof.Machine.execBar4Read off len s ce
  | .bar4Write off bytes => Sys2Proof.Machine.execBar4Write off bytes s
  | .configRequest off size write => Sys2Proof.Machine.execConfigRequest off size write s
  | .ringDoorbell off size val => Sys2Proof.Machine.execRingDoorbell off size val s
  | .eventDoorbell off size val => Sys2Proof.Machine.execEventDoorbell off size val s
  | .slotFetchStall r fail => Sys2Proof.Machine.execSlotFetchStall r fail s
  | .invalidDescriptor r => Sys2Proof.Machine.execInvalidDescriptor r s
  | .dispatch r => Sys2Proof.Machine.execDispatch r s
  | .copy r => Sys2Proof.Machine.execCopy r s
  | .fill r => Sys2Proof.Machine.execFill r s
  | .compare r => Sys2Proof.Machine.execCompare r s
  | .fence r => Sys2Proof.Machine.execFence r s
  | .fenceComplete seq => Sys2Proof.Machine.execFenceComplete seq s
  | .semSignal r => Sys2Proof.Machine.execSemSignal r s
  | .semSignalApply seq => Sys2Proof.Machine.execSemSignalApply seq s
  | .semWait r => Sys2Proof.Machine.execSemWait r s
  | .semWaitSatisfied seq => Sys2Proof.Machine.execSemWaitSatisfied seq s
  | .semWaitTimeout seq => Sys2Proof.Machine.execSemWaitTimeout seq s
  | .timestamp r => Sys2Proof.Machine.execTimestamp r s
  | .timestampWrite seq => Sys2Proof.Machine.execTimestampWrite seq s
  | .energyQuery r => Sys2Proof.Machine.execEnergyQuery r s
  | .mediaOpen r => Sys2Proof.Machine.execMediaOpen r s
  | .mediaSubmit r => Sys2Proof.Machine.execMediaSubmit r s
  | .mediaClose r => Sys2Proof.Machine.execMediaClose r s
  | .planLoad r => Sys2Proof.Machine.execPlanLoad r s
  | .planLoadCheck seq readFail ce => Sys2Proof.Machine.execPlanLoadCheck seq readFail s ce
  | .planUnload r => Sys2Proof.Machine.execPlanUnload r s
  | .planUnloadEffect seq => Sys2Proof.Machine.execPlanUnloadEffect seq s
  | .reduceScatter r => Sys2Proof.Machine.execReduceScatter r s
  | .allGather r => Sys2Proof.Machine.execAllGather r s
  | .allReduce r => Sys2Proof.Machine.execAllReduce r s
  | .exponentMax r => Sys2Proof.Machine.execExponentMax r s
  | .permute r => Sys2Proof.Machine.execPermute r s
  | .holdoffExpiry r => Sys2Proof.Machine.execHoldoffExpiry r s
  | .linkTraining bad rate => Sys2Proof.Machine.execLinkTraining bad rate s
  | .linkNarrow lane l0p => Sys2Proof.Machine.execLinkNarrow lane l0p s
  | .d3hotEntry => Sys2Proof.Machine.execD3hotEntry s
  | .d0Return => Sys2Proof.Machine.execD0Return s
  | .powerOn voltA voltB slotId => Sys2Proof.Machine.execPowerOn voltA voltB slotId s
  | .perstAssert lowNs => Sys2Proof.Machine.execPerstAssert lowNs s
  | .perstDeassert => Sys2Proof.Machine.execPerstDeassert s
  | .hotReset => Sys2Proof.Machine.execHotReset s
  | .resetReq lowNs => Sys2Proof.Machine.execResetReq lowNs s
  | .secResetWarm path key => Sys2Proof.Machine.execSecResetWarm path key s
  | .secResetCold path key => Sys2Proof.Machine.execSecResetCold path key s
  | .henlanWarmReset endpoint => Sys2Proof.Machine.execHenlanWarmReset endpoint s
  | .henlanColdReset endpoint => Sys2Proof.Machine.execHenlanColdReset endpoint s
  | .startupStepDone ev => Sys2Proof.Machine.execStartupStepDone ev s
  | .secRecover path => Sys2Proof.Machine.execSecRecover path s
  | .secCommitSvn path => Sys2Proof.Machine.execSecCommitSvn path s
  | .getVersion t => Sys2Proof.Machine.execGetVersion t s
  | .getCapabilities t version ctExponent => Sys2Proof.Machine.execGetCapabilities t version ctExponent s
  | .negotiateAlgorithms t asym hash dhe aead keySched => Sys2Proof.Machine.execNegotiateAlgorithms t asym hash dhe aead keySched s
  | .getDigests t => Sys2Proof.Machine.execGetDigests t s
  | .getCertificate t slot offset length => Sys2Proof.Machine.execGetCertificate t slot offset length s
  | .challenge t slot summary nonce => Sys2Proof.Machine.execChallenge t slot summary nonce s
  | .getMeasurements t index signed nonce => Sys2Proof.Machine.execGetMeasurements t index signed nonce s
  | .keyExchange t slot exchange mutualAuth => Sys2Proof.Machine.execKeyExchange t slot exchange mutualAuth s
  | .finish t session hmacOk => Sys2Proof.Machine.execFinish t session hmacOk s
  | .endSession t session => Sys2Proof.Machine.execEndSession t session s
  | .heartbeat t session => Sys2Proof.Machine.execHeartbeat t session s
  | .keyUpdate t session both => Sys2Proof.Machine.execKeyUpdate t session both s
  | .chunkSend t handle seqNo last chunk => Sys2Proof.Machine.execChunkSend t handle seqNo last chunk s
  | .chunkGet t handle seqNo => Sys2Proof.Machine.execChunkGet t handle seqNo s
  | .respondIfReady t token => Sys2Proof.Machine.execRespondIfReady t token s
  | .getCsr t => Sys2Proof.Machine.execGetCsr t s
  | .setCertificate t => Sys2Proof.Machine.execSetCertificate t s
  | .pskExchange t => Sys2Proof.Machine.execPskExchange t s
  | .getKeyPairInfo t => Sys2Proof.Machine.execGetKeyPairInfo t s
  | .dispatchStart seq ce => Sys2Proof.Machine.execDispatchStart seq s ce
  | .preemption seq => Sys2Proof.Machine.execPreemption seq s
  | .switchStepDone seq ce => Sys2Proof.Machine.execSwitchStepDone seq s ce
  | .dispatchResume seq => Sys2Proof.Machine.execDispatchResume seq s
  | .dispatchComplete seq => Sys2Proof.Machine.execDispatchComplete seq s
  | .mm d c ev => Sys2Proof.Machine.execMm d c ev s
  | .mv d c ev => Sys2Proof.Machine.execMv d c ev s
  | .conv d c ev => Sys2Proof.Machine.execConv d c ev s
  | .tconv d c ev => Sys2Proof.Machine.execTconv d c ev s
  | .tconvComplete d => Sys2Proof.Machine.execTconvComplete d s
  | .attb d c ev => Sys2Proof.Machine.execAttb d c ev s
  | .stagingFill d c parity ce => Sys2Proof.Machine.execStagingFill d c parity s ce
  | .vetchWalkDone d n va ce => Sys2Proof.Machine.execVetchWalkDone d n va s ce
  | .attm d c ev => Sys2Proof.Machine.execAttm d c ev s
  | .vec d c ev => Sys2Proof.Machine.execVec d c ev s
  | .norm d c ev => Sys2Proof.Machine.execNorm d c ev s
  | .red d c ev => Sys2Proof.Machine.execRed d c ev s
  | .maxPool d c ev => Sys2Proof.Machine.execMaxPool d c ev s
  | .avgPool d c ev => Sys2Proof.Machine.execAvgPool d c ev s
  | .sort d c ev => Sys2Proof.Machine.execSort d c ev s
  | .nms d c ev => Sys2Proof.Machine.execNms d c ev s
  | .boxd d c ev => Sys2Proof.Machine.execBoxd d c ev s
  | .load d c ev => Sys2Proof.Machine.execLoad d c ev s
  | .store d c ev => Sys2Proof.Machine.execStore d c ev s
  | .pref d c ev => Sys2Proof.Machine.execPref d c ev s
  | .rotSend d c ev => Sys2Proof.Machine.execRotSend d c ev s
  | .rotReceive d c => Sys2Proof.Machine.execRotReceive d c s
  | .haloSend d c ev => Sys2Proof.Machine.execHaloSend d c ev s
  | .haloReceive d c => Sys2Proof.Machine.execHaloReceive d c s
  | .racc d c ev => Sys2Proof.Machine.execRacc d c ev s
  | .qsclQuantise d c ev => Sys2Proof.Machine.execQsclQuantise d c ev s
  | .qsclExpScan d c ev => Sys2Proof.Machine.execQsclExpScan d c ev s
  | .dqsc d c ev => Sys2Proof.Machine.execDqsc d c ev s
  | .gnrmPartial d c ev => Sys2Proof.Machine.execGnrmPartial d c ev s
  | .gnrmFinish d c ev => Sys2Proof.Machine.execGnrmFinish d c ev s
  | .gnrmClip d c ev => Sys2Proof.Machine.execGnrmClip d c ev s
  | .rngmApply d c ev => Sys2Proof.Machine.execRngmApply d c ev s
  | .rngmRaw d c ev => Sys2Proof.Machine.execRngmRaw d c ev s
  | .bar d c => Sys2Proof.Machine.execBar d c s
  | .barGenerationComplete n d id => Sys2Proof.Machine.execBarGenerationComplete n d id s
  | .wait d c => Sys2Proof.Machine.execWait d c s
  | .waitSatisfied d c => Sys2Proof.Machine.execWaitSatisfied d c s
  | .signal d c => Sys2Proof.Machine.execSignal d c s
  | .barrierWatchdog d c => Sys2Proof.Machine.execBarrierWatchdog d c s
  | .recordComplete d c pos => Sys2Proof.Machine.execRecordComplete d c pos s
  | .runReplay d c ev => Sys2Proof.Machine.execRunReplay d c ev s
  | .coreRetireDone d p => Sys2Proof.Machine.execCoreRetireDone d p s
  | .spadBankMigrate d p bank => Sys2Proof.Machine.execSpadBankMigrate d p bank s
  | .spadBankSwitch d p spare => Sys2Proof.Machine.execSpadBankSwitch d p spare s
  | .accEccThreshold d p => Sys2Proof.Machine.execAccEccThreshold d p s
  | .armReceive pkt => Sys2Proof.Machine.execArmReceive pkt s
  | .contribReceive pkt ce => Sys2Proof.Machine.execContribReceive pkt s ce
  | .endReceive pkt ce => Sys2Proof.Machine.execEndReceive pkt s ce
  | .shardReceive pkt => Sys2Proof.Machine.execShardReceive pkt s
  | .hopReceive pkt => Sys2Proof.Machine.execHopReceive pkt s
  | .sendClose seq => Sys2Proof.Machine.execSendClose seq s
  | .ownerTimeout seq => Sys2Proof.Machine.execOwnerTimeout seq s
  | .senderTimeout seq => Sys2Proof.Machine.execSenderTimeout seq s
  | .gatherPartTimeout seq part => Sys2Proof.Machine.execGatherPartTimeout seq part s
  | .permuteCycleAbandon seq => Sys2Proof.Machine.execPermuteCycleAbandon seq s
  | .collectiveComplete seq => Sys2Proof.Machine.execCollectiveComplete seq s
  | .sampleDecodeStart d h claim => Sys2Proof.Machine.execSampleDecodeStart d h claim s
  | .sampleDecodeDone d h sample ev => Sys2Proof.Machine.execSampleDecodeDone d h sample ev s
  | .sampleDeliver d h => Sys2Proof.Machine.execSampleDeliver d h s
  | .sampleLate d h sample ev => Sys2Proof.Machine.execSampleLate d h sample s ev
  | .dmaChunkDone q parity ce => Sys2Proof.Machine.execDmaChunkDone q parity s ce
  | .dmaHostReadError q fail => Sys2Proof.Machine.execDmaHostReadError q fail s
  | .dmaComplete seq => Sys2Proof.Machine.execDmaComplete seq s
  | .scrubRead d m block word found => Sys2Proof.Machine.execScrubRead d m block word found s
  | .rowRetire d m row => Sys2Proof.Machine.execRowRetire d m row s
  | .migrationSwitch d m => Sys2Proof.Machine.execMigrationSwitch d m s
  | .hbmLaneRepair d m pc lane => Sys2Proof.Machine.execHbmLaneRepair d m pc lane s
  | .pcRetrain d m pc => Sys2Proof.Machine.execPcRetrain d m pc s
  | .pcRetrainDone d m => Sys2Proof.Machine.execPcRetrainDone d m s
  | .faultPoint cause d hubSide charged addr => Sys2Proof.Machine.execFaultPoint cause d hubSide charged addr s
  | .recoveryStepDone => Sys2Proof.Machine.execRecoveryStepDone s
  | .packetForward inPort pkt => Sys2Proof.Machine.execPacketForward inPort pkt s
  | .codewordLoss p lane count => Sys2Proof.Machine.execCodewordLoss p lane count s
  | .routeReceive pkt => Sys2Proof.Machine.execRouteReceive pkt s
  | .admitReceive pkt => Sys2Proof.Machine.execAdmitReceive pkt s
  | .admitAccept minus plus => Sys2Proof.Machine.execAdmitAccept minus plus s
  | .admitWithdraw pkt => Sys2Proof.Machine.execAdmitWithdraw pkt s
  | .admitRequestTimeout fr => Sys2Proof.Machine.execAdmitRequestTimeout fr s
  | .timeReceive pkt arrivalPs => Sys2Proof.Machine.execTimeReceive pkt arrivalPs s
  | .echoReceive pkt => Sys2Proof.Machine.execEchoReceive pkt s
  | .fabAdmitRequest path val => Sys2Proof.Machine.execFabAdmitRequest path val s
  | .fabLeaveRequest path val => Sys2Proof.Machine.execFabLeaveRequest path val s
  | .switchOpenReported fr => Sys2Proof.Machine.execSwitchOpenReported fr s
  | .segmentTrained fr => Sys2Proof.Machine.execSegmentTrained fr s
  | .trainingTimeout fr => Sys2Proof.Machine.execTrainingTimeout fr s
  | .switchClosedReported fr => Sys2Proof.Machine.execSwitchClosedReported fr s
  | .segmentDown fr plusSide => Sys2Proof.Machine.execSegmentDown fr plusSide s
  | .segmentUp fr plusSide => Sys2Proof.Machine.execSegmentUp fr plusSide s
  | .neighbourLoss fr plusSide packets => Sys2Proof.Machine.execNeighbourLoss fr plusSide packets s
  | .timeExchange => Sys2Proof.Machine.execTimeExchange s
  | .fabricLaneSpare p tx lane => Sys2Proof.Machine.execFabricLaneSpare p tx lane s
  | .laserSpare p laser => Sys2Proof.Machine.execLaserSpare p laser s
  | .lndLoopbackSelect path p depth echoOk => Sys2Proof.Machine.execLndLoopbackSelect path p depth echoOk s
  | .feedDisconnect f volt => Sys2Proof.Machine.execFeedDisconnect f volt s
  | .feedReconnect f volt => Sys2Proof.Machine.execFeedReconnect f volt s
  | .phaseFail d g => Sys2Proof.Machine.execPhaseFail d g s
  | .islandClockRaise d x => Sys2Proof.Machine.execIslandClockRaise d x s
  | .islandClockLower d x => Sys2Proof.Machine.execIslandClockLower d x s
  | .timingMonitor d need => Sys2Proof.Machine.execTimingMonitor d need s
  | .droopStart d x dropMv => Sys2Proof.Machine.execDroopStart d x dropMv s
  | .droopEnd d x cycles lastNs => Sys2Proof.Machine.execDroopEnd d x cycles lastNs s
  | .inputCurrentStep milliamp => Sys2Proof.Machine.execInputCurrentStep milliamp s
  | .powerCapStep watt => Sys2Proof.Machine.execPowerCapStep watt s
  | .clkgenSwitch d => Sys2Proof.Machine.execClkgenSwitch d s
  | .dieTimeCheck offsets => Sys2Proof.Machine.execDieTimeCheck offsets s
  | .thermalReport d temps hbmTemps => Sys2Proof.Machine.execThermalReport d temps hbmTemps s
  | .thermalCapStep d x => Sys2Proof.Machine.execThermalCapStep d x s
  | .thermalMove d p => Sys2Proof.Machine.execThermalMove d p s
  | .ledgerUpdate dies hub inA inB voltA voltB => Sys2Proof.Machine.execLedgerUpdate dies hub inA inB voltA voltB s
  | .counterSample n => Sys2Proof.Machine.execCounterSample n s
  | .ecalRefine vals => Sys2Proof.Machine.execEcalRefine vals s
  | .galleryBankMigrate d bank => Sys2Proof.Machine.execGalleryBankMigrate d bank s
  | .galleryBankSwitch d spare => Sys2Proof.Machine.execGalleryBankSwitch d spare s
  | .bridgeFail b => Sys2Proof.Machine.execBridgeFail b s
  | .newelFail d => Sys2Proof.Machine.execNewelFail d s
  | .twinTakeoverDone d => Sys2Proof.Machine.execTwinTakeoverDone d s
  | .hubHalfFail => Sys2Proof.Machine.execHubHalfFail s
  | .hubTakeoverDone => Sys2Proof.Machine.execHubTakeoverDone s
  | .hubSwap path => Sys2Proof.Machine.execHubSwap path s
  | .storeWrite => Sys2Proof.Machine.execStoreWrite s
  | .storeWriteDone => Sys2Proof.Machine.execStoreWriteDone s
  | .fwStage path => Sys2Proof.Machine.execFwStage path s
  | .fwStageDone => Sys2Proof.Machine.execFwStageDone s
  | .fwActivate path => Sys2Proof.Machine.execFwActivate path s
  | .fwActivateStepDone => Sys2Proof.Machine.execFwActivateStepDone s
  | .fwAbort path => Sys2Proof.Machine.execFwAbort path s
  | .fwStartCheckFail => Sys2Proof.Machine.execFwStartCheckFail s
  | .fwSelectNext path => Sys2Proof.Machine.execFwSelectNext path s
  | .traceEnable path val => Sys2Proof.Machine.execTraceEnable path val s
  | .devLevelWrite path val => Sys2Proof.Machine.execDevLevelWrite path val s
  | .hifLoopbackSelect path depth seconds => Sys2Proof.Machine.execHifLoopbackSelect path depth seconds s
  | .pcieLoopbackEnd errors => Sys2Proof.Machine.execPcieLoopbackEnd errors s
  | .farendLoopbackEnter => Sys2Proof.Machine.execFarendLoopbackEnter s
  | .farendLoopbackExit => Sys2Proof.Machine.execFarendLoopbackExit s
  | .mcLoopbackSelect path d m depth pc => Sys2Proof.Machine.execMcLoopbackSelect path d m depth pc s
  | .medLoopbackSelect path d depth => Sys2Proof.Machine.execMedLoopbackSelect path d depth s
  | .loopbackStop path off => Sys2Proof.Machine.execLoopbackStop path off s
  | .loopbackPassDone off checked errors found => Sys2Proof.Machine.execLoopbackPassDone off checked errors s found
  | .resetReqRelease => Sys2Proof.Machine.execResetReqRelease s
  | .dieUnitFailure d u => Sys2Proof.Machine.execDieUnitFailure d u s
  | .standbyTwinFault d => Sys2Proof.Machine.execStandbyTwinFault d s
  | .standbyHalfFail => Sys2Proof.Machine.execStandbyHalfFail s
  | .mctpControlMessage msg => Sys2Proof.Machine.execMctpControlMessage msg s

end Sys2Proof.Machine
end

