-- ==== Sys2Proof/Machine/Tick.lean ====
section
/-! DEFINITION. The passing of fabric time: what one nanosecond does when no command waits (log 6). -/

namespace Sys2Proof.Machine

/-! ### Waits and their counters, R127, R220, R481 -/

/-- Semaphore waits not completed, by context and semaphore name (R220): issued WAIT records, those of a pre-empted DISPATCH
too, started SEM_WAITs, and streams that wait for a FREE_SEM credit. -/
def State.openWaits (s : State) : List (CtxId × Nat) :=
  let recs := ((s.cores.flatMap (fun e => e.2.queue) ++ s.disps.flatMap (fun y => y.parked.flatMap (fun e => e.2))).filter
    (fun x => x.op == opWAIT && decide (x.st = .issued))).map (fun x => (x.ctx, bits (syncId x.raw.toNat) 10 0))
  let descs := (s.descs.filter (fun x => x.ty == 0x07 && decide (x.st = .started))).map
    (fun x => (ringCtx x.ring, bits (leAt x.bytes 2 2) 10 0))
  let streams := s.streams.filterMap (fun e =>
    let d := dieOf (e.1 / 256)
    let h := strOf e.1
    match s.slotReady d h with
    | some z => if s.freeCredits z.2 e.2.block = 0 then some (z.2, bits (sbFreeSem e.2.block) 10 0) else none
    | none => none)
  dedupKeep (recs ++ descs ++ streams)

/-- The running DISPATCH that holds a die. -/
def State.runningOn (s : State) (d : Die) : Option Disp :=
  ((s.die d).run.bind (fun q => s.disp q)).filter (fun y => decide (y.st = .running))

/-- What the correction of the frequency adds to a nanosecond of the oscillator, a part in 10^9 at a time (R389). -/
def State.freqNs (s : State) : Int :=
  ((s.fab.osc + 1 : Nat) : Int) * s.fab.freq / 1000000000 - (s.fab.osc : Int) * s.fab.freq / 1000000000

/-- The part of a correction that is slewed in a nanosecond of the oscillator: every 10 µs one nanosecond, that is
100 µs per second (R391). -/
def State.slewNs (s : State) : Int :=
  if (s.fab.osc + 1) % 10000 = 0 then (if 0 < s.fab.slew then 1 else if s.fab.slew < 0 then -1 else 0) else 0

/-- The nanoseconds by which fabric time moves in one of the oscillator: 1, the correction of the frequency, and that of
an offset, and never backwards (R389, R391). -/
def State.tickNs (s : State) : Nat := (1 + s.freqNs + s.slewNs).toNat

/-- The stall counters of the semaphores that are waited on, on dies that a DISPATCH of the context holds (R220). -/
def stallTick (k : Nat) (s : State) : State :=
  (s.openWaits.filter (fun w => match s.runningOn (dieOf (w.2 / 256)) with
    | some y => decide (y.ctx = w.1)
    | none => false)).foldl (fun s w => s.modCtx w.1 (fun c =>
      { c with stalls := SMap.set c.stalls w.2 0 (SMap.getD c.stalls w.2 0 + k) })) s

/-! ### Cycle counts, R409 -/

/-- Whether a core has issued an operation of a unit. -/
def unitBusy (l : List Placed) (u : UnitK) : Bool := l.any (fun x => decide (x.unit = u) && decide (x.st = .issued))

/-- What a core's cycle counters count: operations issued on the array, the Speedwells and the vector unit (an ATTB is on
both array and vector unit), and placed ones that have not issued. -/
def coreBusy (l : List Placed) : List Bool :=
  [unitBusy l .array, unitBusy l .speedwell,
    unitBusy l .vector || l.any (fun x => x.op == opATTB && decide (x.st = .issued)),
    l.any (fun x => decide (x.st = .placed))]

/-- Whether a sample of a kind is being decoded or encoded on an engine. -/
def State.medBusy (s : State) (d : Die) (enc : Bool) : Bool :=
  s.streams.any (fun e => decide (e.1 / 256 = d.val) && isEncode (sbCodec e.2.block) == enc &&
    e.2.queue.any (fun m => decide (m.st = .decoding)))

/-- Whether an island has cycles: it is not OFF and its clock runs. -/
def State.cycles (s : State) (d : Die) (x : Island) : Bool := !s.islandOff d x && s.clockRuns d x

/-- The cycle counters of a die whose unit is busy on an island that has cycles. That a controller's address queue is not
empty is not modelled, so that it may be at any time (log 38). -/
def State.busyRegs (s : State) (d : Die) : List Nat :=
  let z := s.die d
  let put := fun (b : Bool) (r : RegId) (i : Nat) => if b then [r.off d.val i 0] else []
  allPCores.flatMap (fun p => if s.cycles d (islCore p) then
      ((coreBusy (s.core d p).queue).zip [RegId.coreCycArray, .coreCycSpeedwell, .coreCycVector, .coreCycIssueWait]).flatMap
        (fun x => put x.1 x.2 p.val)
    else []) ++
  (List.finRange 4).flatMap (fun m => put (s.cycles d (islMc m)) .mcCycBusy m.val) ++
  put (s.cycles d islTeasel && z.teaRun.isSome) .teaCycBusy 0 ++
  put ((s.cycles d islNewel || s.cycles d 41) && s.newelUp d && !z.walks.isEmpty) .vetCycWalk 0 ++
  put (s.cycles d islMedia && s.medBusy d false) .medCycDec 0 ++
  put (s.cycles d islMedia && s.medBusy d true) .medCycEnc 0

/-- The busy time of the dies' cycle counters. -/
def cycTick (k : Nat) (s : State) : State :=
  { s with busyNs := (allDies.flatMap s.busyRegs).foldl (fun m o => SMap.put m o (SMap.getD m o 0 + k)) s.busyNs }

/-- The same of the command counter sets, whose first four counts are summed over the die's logical cores and whose fifth
is Teasel's (R481). -/
def State.ctrBusy (s : State) (d : Die) (seq : Nat) : List Nat :=
  let of := fun (l : List Placed) => l.filter (fun x => x.seq == seq)
  let cores := allPCores.filterMap (fun p => if s.cycles d (islCore p) then some (coreBusy (of (s.core d p).queue)) else none)
  tab 4 (fun i => (cores.filter (fun l => l.getD i false)).length) ++
    [if s.cycles d islTeasel && ((s.die d).teaRun.map (fun x => x.seq)) == some seq then 1 else 0]

/-! ### Time of the waits and the command counters -/

/-- RUN_NS, STALL_NS and the busy times of the command counter sets (R481). -/
def ctrTick (k : Nat) (s : State) : State :=
  { s with dies := s.dies.map (fun e =>
      match s.runningOn (dieOf e.1) with
      | none => e
      | some y =>
        let stalled := allPCores.any (fun p => (s.core (dieOf e.1) p).queue.any (fun x => x.syncWait && x.seq == y.seq))
        let c := e.2.ctr
        let busy := s.ctrBusy (dieOf e.1) y.seq
        (e.1, { e.2 with ctr := { c with
          runNs := c.runNs + k, stallNs := c.stallNs + (if stalled then k else 0)
          cycNs := (c.cycNs.zip busy).map (fun x => x.1 + x.2 * k) } })) }

/-- The running time of their context that issued BARs and WAITs have waited, those of a pre-empted DISPATCH too
(R127, R523). -/
def waitTick (k : Nat) (s : State) : State :=
  let go := fun (x : Placed) => if x.syncWait && s.ctxRuns x.ctx then { x with waited := x.waited + k } else x
  { s with
    cores := s.cores.map (fun e => (e.1, { e.2 with queue := e.2.queue.map go }))
    disps := s.disps.map (fun y => { y with parked := y.parked.map (fun e => (e.1, e.2.map go)) }) }

/-! ### The account of the ledger, R413 to R415 -/

/-- The context that holds a die: of a switch the outgoing one until its save has completed, then the incoming one
(R414). -/
def State.holder (s : State) (d : Die) : Option CtxId :=
  match s.switches.find? (fun w => w.dies.contains d) with
  | some w =>
    let new := (s.disp w.inSeq).map (fun y => y.ctx)
    if w.step < 2 then (s.die d).lastCtx.orElse (fun _ => new) else new
  | none => ((s.die d).run.bind (fun q => s.disp q)).map (fun y => y.ctx)

/-- What a nanosecond adds to the account: the holders of the dies, and the DISPATCHes that run. -/
def acctTick (k : Nat) (s : State) : State :=
  let s := allDies.foldl (fun s d => match s.holder d with
    | some n => s.account (acHold d.val n.val) k
    | none => s) s
  { s with acct := (s.disps.filter (fun y => decide (y.st = .running))).foldl (fun m y => SMap.put m (acRan y.seq) 1) s.acct }

/-- At a multiple of 100 µs the interval ends, and its update is due (R413). -/
def ledgerTick (k : Nat) (s : State) : State :=
  let t := (s.now + k) / ledgerNs * ledgerNs
  if s.now < t then
    { s with acct := [], ledgerQ := if 3 ≤ s.boot.stage then s.ledgerQ ++ [(t, s.acct)] else s.ledgerQ }
  else s

/-- The periodic samples of an instant become due as its cycle ends, and what holds the dies is kept as one begins (R481 to
R483). -/
def sampleTick (k : Nat) (s : State) : State :=
  let t := (s.now + k) / ledgerNs * ledgerNs
  let s := if k = 0 then s
    else allDies.foldl (fun s d => match (s.die d).snap with
      | some (u, o) => (sampleDue u o d s).modDie d (fun x => { x with snap := none })
      | none => s) s
  if s.now < t then allDies.foldl (fun s d => let o := s.heldBy d
    s.modDie d (fun x => { x with snap := some (t, o) })) s else s

/-- Fabric time advances; a correction is slewed at 100 µs per second (R391). -/
def timeTick (s : State) : State :=
  let k := s.tickNs
  { s with now := s.now + k, fab := { s.fab with osc := s.fab.osc + 1, slew := s.fab.slew - s.slewNs } }

/-- One nanosecond of fabric time. -/
def tick (s : State) : State :=
  let k := s.tickNs
  if s.boot.powered then
    timeTick (ledgerTick k (sampleTick k (acctTick k (cycTick k (waitTick k (ctrTick k (stallTick k s)))))))
  else { s with now := s.now + 1 }

end Sys2Proof.Machine
end

