-- ==== Sys2Proof/Safety.lean ====
section
/-! DEFINITION. What a sound state of the module is, in the terms the statements use. -/

namespace Sys2Proof

open Machine

/-- Both memories are in their canonical form. -/
def MemoryOk (s : State) : Prop := s.memWf = true ∧ s.hostWf = true

/-- Descriptors in flight stand in the order of their numbers, which are all below the next number to give, and at
most 512 of the module and 64 of a ring are in flight (R330). -/
def FlightOk (s : State) : Prop :=
  (s.descs.map (fun x => x.seq)).Pairwise (fun a b => a < b) ∧ (∀ x ∈ s.descs, x.seq < s.nextSeq) ∧
    s.descs.length ≤ 512 ∧ ∀ r, s.inflight r ≤ 64

/-- A step that ends in a next state. -/
def StepsTo (s t : State) : Prop := Machine.step s = .next t

/-- A read of the aligned word at a BAR0 offset on a path is answered with what is there: no change-over of hub halves
is under way, the path reaches the module and may read the register, and its block responds (R440, R458, R488). -/
def ReadsAt (s : State) (path : Path) (off : Nat) : Prop :=
  s.hub.takeover = false ∧ s.pathLive path = true ∧ s.mayRead path off 4 = true ∧ s.blockUp false off = true ∧
    off % 4 = 0

/-- A write on a path takes effect at a BAR0 offset: no change-over of hub halves is under way, the path reaches the
module and is privileged, and the block there responds (R440, R458, R489). -/
def WritesAt (s : State) (path : Path) (off : Nat) : Prop :=
  s.hub.takeover = false ∧ s.pathLive path = true ∧ privileged path = true ∧ s.blockUp true off = true

/-- A range takes a hub-side write as bytes alone: it is the host's, or its write meets no uncorrectable codeword in part
(R291) and no collective guards an area (R241). -/
def Clear (s : State) (a len : Nat) : Prop :=
  isHost a = false → s.badPartial a len = none ∧ s.colls.flatMap (fun c => c.guards) = []

/-! ### Reads that count -/

/-- The counters that reads of memory advance: bytes, and corrected errors met (R78, R289, R315, R432, R516). -/
def readCounters : List RegId := [.mcRdBytes, .mcEccCe, .galRdBytes, .galEccCe, .coreEccCe]

/-- From s to t nothing changed but what reads of memory count: the registers of `readCounters`, the times of corrected
errors towards a retirement, the account of the ledger interval, and the draws of free values. -/
structure Counted (s t : State) : Prop where
  same : t = { s with free := t.free, mcs := t.mcs, regs := t.regs, acct := t.acct, dies := t.dies, cores := t.cores }
  reg : ∀ (q : RegId) (d i j : Nat), (∀ c ∈ readCounters, ∀ e k, q.off d i j ≠ c.off e k 0) → t.reg q d i j = s.reg q d i j
  die : ∀ d, t.die d = { s.die d with galCe := (t.die d).galCe }
  mc : ∀ d m, t.mc d m = { s.mc d m with ceTimes := (t.mc d m).ceTimes }
  core : ∀ d p, t.core d p = { s.core d p with ceTimes := (t.core d p).ceTimes }

/-! ### Events that the module records -/

/-- The step from s to t wrote a fault record of a CLASS, KIND, DIE and UNIT, of a fault detected at `time`, into store
section 3, at the index and with the number that the log had come to (R427, R446). -/
def RecordedAt (s t : State) (time cls kind die unit : Nat) : Prop :=
  s.store.cur.logSeq < t.store.cur.logSeq ∧ ∃ r : FaultRec,
    SMap.find t.store.cur.log (s.store.cur.logSeq % 4096) = some r ∧ r.seq = s.store.cur.logSeq ∧ r.time = time ∧
      r.cls = cls ∧ r.kind = kind ∧ r.die = die ∧ r.unit = unit

/-- The same of a fault detected in the step itself. -/
def Recorded (s t : State) (cls kind die unit : Nat) : Prop := RecordedAt s t s.now cls kind die unit

/-- A degraded event: a record of CLASS 3 and the KIND's bit of AVL_DEGRADED (R426). -/
def Degrades (s t : State) (kind die unit : Nat) : Prop :=
  Recorded s t 3 kind die unit ∧ t.regFld .avlDegraded 0 0 0 kind kind = 1

/-- A repaired event: a record of CLASS 1 (R426). -/
def Repairs (s t : State) (kind die unit : Nat) : Prop := Recorded s t 1 kind die unit

/-- A repaired event of a fault detected at `time`. -/
def RepairsAt (s t : State) (time kind die unit : Nat) : Prop := RecordedAt s t time 1 kind die unit

end Sys2Proof
end

