-- ==== Sys2Proof/Certificates/Slice0/Obligations.lean ====
section
/-! DEFINITION. The statements for the provers, drawn from the manual's rules. -/

open Sys2Proof Sys2Proof.Machine

/-- What the module holds at the start of a reset (R452 to R456): everything at its reset value but what the table of
R452 keeps, and, over a warm reset, registers that tell of what was since a cold reset (log 113). -/
def ResetLeaves (kind : ResetKind) (trigger : Nat) (s t : State) : Prop :=
  t = { State.reset with
        pending := s.pending, out := s.out ++ withdrawals s.ownAddr s.fab.accepted, free := s.free, hostMem := s.hostMem
        now := if kind = .powerOn then 0 else s.now
        regionMap := if kind = .warm then s.regionMap else []
        regs := t.regs, store := t.store, hub := t.hub, fw := { running := s.fw.running }, boot := t.boot
        fab := { osc := s.fab.osc, freq := s.fab.freq } } ∧
  t.store = { s.store with writing := none, dirty := s.store.dirty || s.store.writing.isSome } ∧
  t.hub = { activeB := t.hub.activeB, aFailed := s.store.cur.spares.hubAFailed, bFailed := s.store.cur.spares.hubBFailed
            outOfService := t.hub.outOfService } ∧
  (kind = .warm → t.hub.outOfService = s.hub.outOfService ∧
    ((if s.hub.activeB then s.hub.bFailed else s.hub.aFailed) = false → t.hub.activeB = s.hub.activeB)) ∧
  (kind ≠ .warm → t.hub.outOfService = (!s.store.cur.spares.lostDies.isEmpty ||
    (s.store.cur.spares.hubAFailed && s.store.cur.spares.hubBFailed))) ∧ t.boot.oos = t.hub.outOfService ∧
  (kind ≠ .warm ∨ (if s.hub.activeB then s.hub.bFailed else s.hub.aFailed) = true →
    t.hub.activeB = s.store.cur.spares.hubAFailed) ∧
  t.boot.powered = true ∧ t.boot.stage = (if kind = .powerOn then 0 else 1) ∧ t.boot.recovery = false ∧
  t.boot.linkUp = false ∧ t.boot.cfgReady = false ∧ t.boot.modPwrgd = false ∧ t.boot.thermAlert = false ∧
  t.boot.ssc = (kind ≠ .warm || (s.reg .timeCtl 0 0 0).getLsbD 0) ∧ t.boot.perstLow = s.boot.perstLow ∧ t.boot.resetReqLow = s.boot.resetReqLow ∧ t.boot.slotId = s.boot.slotId ∧ t.boot.feedA = s.boot.feedA ∧ t.boot.feedB = s.boot.feedB ∧
  t.regFld .secResetCause 0 0 0 10 8 = trigger ∧
  t.regFld .secResetCause 0 0 0 1 0 = (match kind with
    | .powerOn => 0
    | .warm => 1
    | .cold => 2) ∧
  t.regFld .secBootStatus 0 0 0 3 0 = t.boot.stage ∧
  t.reg .avlStoreStatus 0 0 0 = (if kind = .warm then s.reg .avlStoreStatus 0 0 0 &&& 0xFF00 else 0) ∧
  ∀ (q : RegId) (d i j : Nat) (r : RegRef), regAt (q.off d i j) = some r →
    q.off d i j ∉ [RegId.off .secResetCause 0 0 0, RegId.off .secBootStatus 0 0 0, RegId.off .avlStoreStatus 0 0 0] →
    t.reg q d i j = (if kind = .warm ∧ (r.id.row.acc = .rws ∨ r.id ∈ sinceCold) then s.reg q d i j
      else BitVec.ofNat 64 q.row.rst)

/-- Start-up is under way: powered, not in recovery, not out of service, with a step as the last one completed. -/
def Starting (s : State) (k : Nat) : Prop :=
  s.boot.powered = true ∧ s.boot.recovery = false ∧ s.boot.oos = false ∧ s.boot.stage = k

/-- STAGE and the step of start-up stand at a step, and nothing else of the boot state changed. -/
def AtStep (k : Nat) (s t : State) : Prop :=
  t.boot = { s.boot with stage := k } ∧ t.regFld .secBootStatus 0 0 0 3 0 = k

/-- A function is ON with nothing recorded or pending. -/
def IsOn (f : FuncId) (s : State) : Prop := s.fn f = { st := .on, en := true }

/-- An SPDM request reaches its transport and is answered: no change-over of hub halves is under way, the transport
carries requests, and start-up is past step 3 (R440, R462, R474). -/
def Talks (s : State) (t : Transport) : Prop :=
  s.hub.takeover = false ∧ s.spdmCarried t = true ∧ 3 ≤ s.boot.stage

/-- A response that R475 may hold back: either it is sent, or it waits under the token that ERROR ResponseNotReady
names. The time it takes and the signature within it are free values. -/
def Answers (s u : State) (t : Transport) (r : SpdmResp) : Prop :=
  (u = { s with out := s.out ++ [.spdm t r], free := u.free } ∨
    ∃ k, u = (({ s with free := u.free } : State).modSpdm t (fun x => { x with notReady := some (k, r) })).reply t (.errResponseNotReady k))

/-- A DISPATCH runs from now on: it holds each of its dies under its context, and its run time goes on from where it
stood (R127, R346). -/
def RunsNow (s t : State) (y : Disp) : Prop :=
  (∃ z, t.disp y.seq = some z ∧ z.st = .running ∧ z.begun = true ∧ z.since = s.now ∧ z.runTime = y.runTime ∧
    z.dies = y.dies ∧ z.mhz = y.mhz) ∧
  ∀ d ∈ y.dies, (t.die d).run = some y.seq ∧ (t.die d).lastCtx = some y.ctx ∧ (t.die d).stale = false

/-- A switch of a DISPATCH's dies has begun at its first step (R355). -/
def Switching (s t : State) (y : Disp) (outs : List Nat) : Prop :=
  (t.disp y.seq).map (fun z => z.st) = some .switching ∧
  t.switches = s.switches ++ [{ step := 0, inSeq := y.seq, dies := y.dies, outs, outCtxs := s.outsOn y.dies y.ctx }] ∧
  t.reg .hifSwitchCount 0 0 0 = s.reg .hifSwitchCount 0 0 0 + 1

/-- The next record of a unit of a core is of an opcode and may issue (R61, R62), and it meets no uncorrectable line of
the core (R78, R83). -/
def Issues (s : State) (d : Die) (c : LCore) (op : Nat) (ok : Nat → Bool) (e : Env) : Prop :=
  s.candidate d c (unitOf op) = some e ∧ e.x.op = op ∧ ok e.r = true ∧ s.mayIssue e = true ∧
    badMet (coreBase e.d.val e.p.val) (s.core e.d e.p).badLines ((s.markIssued e).recReads e) = none

/-- A record has left the core that it was placed on. -/
def Gone (e : Env) (t : State) : Prop := ∀ x ∈ (t.core e.d e.p).queue, x.pos ≠ e.x.pos

/-- A record stands on its core as issued. -/
def Stands (e : Env) (t : State) : Prop :=
  ∀ x ∈ (t.core e.d e.p).queue, x.pos = e.x.pos → x.st = .issued ∧ x.issuedAt = t.now

/-- The core has stopped for its retirement onto the spare of its die with the lowest physical index (log 92), which
waits for a move of the die under way (R411). -/
def Retiring (s t : State) (d : Die) (p : PCore) : Prop :=
  (s.core d p).role = .inService → (s.core d p).thermalMove = false → (s.core d p).retireTo = none →
    (s.core d p).retireWait = false → ∀ q l, s.spareCores d = q :: l → (t.core d p).stopped = true ∧
      (t.core d p).since = s.now ∧
      ((s.die d).moving = none → (t.core d p).retireTo = some q) ∧ ((s.die d).moving ≠ none → (t.core d p).retireWait = true)

/-- A step takes the command at the front of the queue and runs it on the state with the rest of the queue. -/
def Obligations.StepRunsFront : Prop :=
  ∀ (c : Instr) (rest : List Instr) (s : State),
    Machine.step { s with pending := c :: rest } = exec c { s with pending := rest }

/-- With no command waiting, one nanosecond of fabric time passes: the model's choice of log 6. -/
def Obligations.IdleStepPassesTime : Prop :=
  ∀ s : State, s.pending = [] →
    ∃ t, Machine.step s = .next t ∧ t.pending = [] ∧ t.out = s.out ∧ t.regs = s.regs ∧ t.mem = s.mem ∧
      t.hostMem = s.hostMem ∧ s.now ≤ t.now ∧ t.now ≤ s.now + 2 ∧ (s.fab.slew = 0 → t.now = s.now + 1)

/-- What a cold reset leaves (R9: the Reset columns; R24; R31; R454). -/
def Obligations.ResetState : Prop :=
  (∀ (r : RegId) (d i j : Nat), State.reset.reg r d i j = BitVec.ofNat 64 r.row.rst) ∧
  (∀ f : FuncId, (State.reset.fn f).st = .off ∧ (State.reset.fn f).en = false ∧
    (State.reset.fn f).pendingOn = false) ∧
  (∀ j, State.reset.region j = .interleaved) ∧ (∀ i, (State.reset.fring i).st = .bypassed) ∧
  State.reset.mem = [] ∧ State.reset.hostMem = [] ∧ State.reset.descs = [] ∧ State.reset.plans = [] ∧
  State.reset.disps = [] ∧ State.reset.colls = [] ∧ State.reset.reports = [] ∧ State.reset.recovery = none ∧
  State.reset.now = 0 ∧ State.reset.boot.stage = 0 ∧
  State.reset.regFld .hifLinkCtl 0 0 0 2 0 = 3 ∧ State.reset.regFld .mcScrubCtl 0 0 0 7 0 = 24 ∧
  State.reset.regFld .pwrCap 0 0 0 12 0 = 5000 ∧ State.reset.regFld .pwdThermCtl 0 0 0 7 0 = 88

/-- The invariants of MemoryStaysCanonical and FlightLimits hold at reset. -/
def Obligations.ResetSound : Prop := MemoryOk State.reset ∧ FlightOk State.reset

/-- Device and host memory stay canonical in every step, for all 233 commands and for the passing of time. -/
def Obligations.MemoryStaysCanonical : Prop :=
  ∀ s t : State, MemoryOk s → StepsTo s t → MemoryOk t

/-- R330: at most 64 descriptors of a ring and at most 512 of the module are in flight, in fetch order, in every step. -/
def Obligations.FlightLimits : Prop :=
  ∀ s t : State, FlightOk s → StepsTo s t → FlightOk t

/-- A command's effect is on everything but the queue, and what was sent stays sent. -/
def Obligations.CommandsKeepTheQueue : Prop :=
  ∀ (c : Instr) (s t : State), exec c s = .next t → t.pending = s.pending ∧ s.out <+: t.out

/-- Read after write at an address field, and its frame. -/
def Obligations.MemoryReadBack : Prop :=
  ∀ (s : State) (a : Nat) (bs : List Byte),
    (s.anyWrite a bs).anyRead a bs.length = bs ∧
    (isHost a = false →
      (∀ j, j < a ∨ a + bs.length ≤ j → (s.anyWrite a bs).devRead j 1 = s.devRead j 1) ∧
      s.anyWrite a bs = { s with mem := (s.anyWrite a bs).mem }) ∧
    (isHost a = true →
      (∀ j, j < hostAddr a ∨ hostAddr a + bs.length ≤ j →
        memByte hostDefault (s.anyWrite a bs).hostMem j = memByte hostDefault s.hostMem j) ∧
      s.anyWrite a bs = { s with hostMem := (s.anyWrite a bs).hostMem })

/-- R5: LOW_WORD_READ and HIGH_WORD_READ; an MCTP endpoint has one latch a register, its development reads included
(R488). -/
def Obligations.LatchedRead : Prop :=
  ∀ (s : State) (path : Path) (off : Nat) (r : RegRef), ReadsAt s path off → regAt off = some r →
    r.id.row.wide = true →
    (∀ e, s.latch (.dev e) (r.id.off r.d r.i r.j) = s.latch (.henlan e) (r.id.off r.d r.i r.j)) ∧
    (r.high = false → ∃ t, exec (.lowWordRead path off) s = .next t ∧
      t.latch path (r.id.off r.d r.i r.j) = some (BitVec.ofNat 32 ((s.view r).1.toNat / 2 ^ 32)) ∧
      (∀ (q : Path) (o : Nat), latchPath q ≠ latchPath path ∨ o ≠ r.id.off r.d r.i r.j → t.latch q o = s.latch q o) ∧
      t.out = s.out ++ [.readData path 4 ((BitVec.ofNat 32 (s.view r).1.toNat).setWidth 64)]) ∧
    (r.high = true → ∀ h, s.latch path (r.id.off r.d r.i r.j) = some h →
      ∃ t, exec (.highWordRead path off) s = .next t ∧ t.latch path (r.id.off r.d r.i r.j) = none ∧
        (∀ (q : Path) (o : Nat), latchPath q ≠ latchPath path ∨ o ≠ r.id.off r.d r.i r.j → t.latch q o = s.latch q o) ∧
        t = { s with latches := t.latches, out := s.out ++ [.readData path 4 (h.setWidth 64)] }) ∧
    (r.high = true → s.latch path (r.id.off r.d r.i r.j) = none →
      ∃ t, exec (.highWordRead path off) s = .next t ∧
        t = { s with free := t.free, regs := t.regs, busyNs := t.busyNs
                     out := s.out ++ [.readData path 4 ((BitVec.ofNat 32 ((s.view r).1.toNat / 2 ^ 32)).setWidth 64)] })

/-- R6: no effect of a write, ones in every byte lane of a read. -/
def Obligations.MisalignedAccess : Prop :=
  ∀ (s : State) (path : Path) (off size : Nat), s.hub.takeover = false → s.pathLive path = true →
    ((size ≠ 4 ∧ size ≠ 8) ∨ off % size ≠ 0) →
    (∀ v, privileged path = true → exec (.misalignedAccess path off size (some v)) s = .next s) ∧
    exec (.misalignedAccess path off size none) s = .next { s with out := s.out ++ [.readOnes path size] }

/-- R7, R9, R521: a write of a register whose write only stores. -/
def Obligations.RegisterWrite : Prop :=
  ∀ (s : State) (path : Path) (off : Nat) (wide : Bool) (v : W64) (r : RegRef), WritesAt s path off →
    regAt off = some r → r.func = none →
    (wide = true → off % 8 = 0 ∧ r.id.row.wide = true) → (wide = false → off % 4 = 0) →
    r.id ∉ ([.hifBar4Ctl, .hifLoopback, .hifRingStat, .msixCtl, .secReset, .secCtl, .avlCtl, .trcCtl, .trcDev,
      .fabDims, .fabAdmit, .fabEvent, .fabTimeCtl, .mgtRegionCommit, .lndLoopback, .mcLoopback, .medLoopback] : List RegId) →
    let old := s.reg r.id r.d r.i r.j
    let word := (v.setWidth 32).toNat
    let new := if wide then v
      else if r.id.row.wide = false then BitVec.ofNat 64 word
      else if r.high then BitVec.ofNat 64 (old.toNat % 2 ^ 32 + word * 2 ^ 32)
      else BitVec.ofNat 64 (word + old.toNat / 2 ^ 32 * 2 ^ 32)
    ((r.id.row.acc = .ro ∨ r.id.row.acc = .rc ∨ s.writable r = false) →
      exec (.registerWrite path off wide v) s = .next s) ∧
    (r.id.row.acc = .rw ∨ r.id.row.acc = .rws → s.writable r = true →
      ∃ t, exec (.registerWrite path off wide v) s = .next t ∧
        t.reg r.id r.d r.i r.j = clampReg r.id old (maskWrite r.id.row.mask old new) ∧
        (∀ (q : RegId) (d i j : Nat), q.off d i j ≠ r.id.off r.d r.i r.j → t.reg q d i j = s.reg q d i j) ∧
        t = { s with regs := t.regs, store := t.store } ∧
        (r.id.row.acc = .rw → t.store = s.store) ∧ (r.id.row.acc = .rws → t.store.dirty = true))

/-- R9 Table 2, W1C and RC. -/
def Obligations.WriteOneAndReadToClear : Prop :=
  (∀ (s : State) (path : Path) (off : Nat) (v set : W32) (r : RegRef), WritesAt s path off → off % 4 = 0 →
    regAt off = some r → r.id.row.acc = .w1c → r.id ≠ .fabEvent →
    ∃ t, exec (.w1cWrite path off v set) s = .next t ∧ t = { s with regs := t.regs } ∧
      t.reg r.id r.d r.i r.j =
        (s.reg r.id r.d r.i r.j &&& ~~~(BitVec.ofNat 64 (v.toNat &&& r.id.row.mask))) |||
          BitVec.ofNat 64 (set.toNat &&& r.id.row.mask) ∧
      (∀ (q : RegId) (d i j : Nat), q.off d i j ≠ r.id.off r.d r.i r.j → t.reg q d i j = s.reg q d i j)) ∧
  (∀ (s : State) (path : Path) (off ev : Nat) (r : RegRef), ReadsAt s path off → privileged path = true →
    regAt off = some r → r.func = none → r.high = false → r.id.row.wide = false → r.id.row.acc = .rc →
    r.id.freeBits = 0 → r.id ∉ ([.dmaQLevel, .medLoad] : List RegId) →
    ∃ t, exec (.rcRegisterRead path off ev) s = .next t ∧ t.reg r.id r.d r.i r.j = rcAdd r.id 0 ev ∧
      (∀ (q : RegId) (d i j : Nat), q.off d i j ≠ r.id.off r.d r.i r.j → t.reg q d i j = s.reg q d i j) ∧
      t = { s with regs := t.regs, out := s.out ++ [.readData path 4 ((BitVec.ofNat 32 (s.view r).1.toNat).setWidth 64)] })

/-- R24 Table 6, an enable written. -/
def Obligations.FunctionEnable : Prop :=
  ∀ (s : State) (path : Path) (f : FuncId), WritesAt s path (fnOff f) → (∀ n, f ≠ .ctx n) →
    ∃ t, exec (.functionEnable path f) s = .next t ∧
      ((∃ d h, f = .stream d h) → t = s) ∧
      ((¬ ∃ d h, f = .stream d h) →
        (t.fn f).en = true ∧ (t.fn f).disableRecorded = ((s.fn f).disableRecorded && decide ((s.fn f).st ≠ .off)) ∧
        (t.fn f).st = (if (s.fn f).st = .off then .starting else (s.fn f).st) ∧
        (t.fn f).pendingOn = (if (s.fn f).st = .draining then true else (s.fn f).pendingOn)) ∧
      (∀ g, g ≠ f → t.fn g = s.fn g) ∧
      ((∀ r, f ≠ .ring r) → t = { s with fns := t.fns }) ∧
      (∀ r, f = .ring r → (s.fn f).st = .off →
        fld (t.reg .hifRingTail 0 r.val 0) 15 0 = fld (s.reg .hifRingHead 0 r.val 0) 15 0)

/-- R24 Table 6, a disable written. -/
def Obligations.FunctionDisable : Prop :=
  ∀ (s : State) (path : Path) (f : FuncId), WritesAt s path (fnOff f) →
    ∃ t, exec (.functionDisable path f) s = .next t ∧
      (∀ d p, f = .core d p → exec (.coreDisable path d p) s = .next t) ∧
      ((∃ d h, f = .stream d h) → t = s) ∧
      ((¬ ∃ d h, f = .stream d h) →
        (t.fn f).en = false ∧ (t.fn f).pendingOn = ((s.fn f).pendingOn && decide ((s.fn f).st ≠ .draining)) ∧
        (t.fn f).st = (if (s.fn f).st = .on then .draining else (s.fn f).st) ∧
        (t.fn f).disableRecorded = (if (s.fn f).st = .starting then true else (s.fn f).disableRecorded)) ∧
      (∀ g, g ≠ f → t.fn g = s.fn g) ∧
      t = { s with fns := t.fns, frings := t.frings, fab := t.fab, regs := t.regs, out := t.out, hub := t.hub, acct := t.acct } ∧
      ((∀ p, f ≠ .port p) → t = { s with fns := t.fns }) ∧
      (∀ p, f = .port p → (s.fn f).st = .on → s.fab.leaveQ = [] → (∀ i, (s.fring i).st.moving = false) →
        ((s.fring (portRing p)).st = .bypassed → (t.fring (portRing p)).st = .bypassed) ∧
        ((s.fring (portRing p)).st ≠ .bypassed → (t.fring (portRing p)).st = .leaving ∧ (t.fring (portRing p)).reason = 4))

/-- R24, R325: an enable written to a context that is OFF. -/
def Obligations.ContextEnable : Prop :=
  ∀ (s : State) (path : Path) (n : CtxId), WritesAt s path (fnOff (.ctx n)) → 10 ≤ s.boot.stage →
    s.hub.outOfService = false → (s.fn (.ctx n)).st = .off →
    ∃ t, exec (.contextEnable path n) s = .next t ∧ exec (.functionEnable path (.ctx n)) s = .next t ∧
      (t.fn (.ctx n)).en = true ∧ (∀ g, g ≠ .ctx n → t.fn g = s.fn g) ∧
      t = { s with fns := t.fns, ctxs := t.ctxs, regs := t.regs, dies := t.dies } ∧
      ((s.rangeBad n = false ∧ s.shareBad n = false ∧ s.evqBad n = false ∧ s.saveBad n = false ∧
        s.sampleBad n = false) →
        (t.fn (.ctx n)).st = .starting ∧ t.regFld .hifCtxCfg 0 n.val 0 31 29 = 0 ∧
        t.reg .pwrCtxTotal 0 n.val 0 = 0 ∧ t.reg .pwrCtxWindow 0 n.val 0 = 0 ∧ (t.ctx n).prod = 0 ∧ (t.ctx n).cons = 0 ∧ (t.ctx n).evWait = [] ∧
        (t.ctx n).sems = [] ∧ (∀ die idx, t.sem n die idx = 0) ∧ (t.ctx n).coreE = 0 ∧ (t.ctx n).winUsed = 0) ∧
      (∀ e, e = (if s.rangeBad n then 1 else if s.shareBad n then 2 else if s.evqBad n then 3
          else if s.saveBad n then 4 else if s.sampleBad n then 7 else 0) → e ≠ 0 →
        (t.fn (.ctx n)).st = .off ∧ t.regFld .hifCtxCfg 0 n.val 0 31 29 = e ∧ t.ctxs = s.ctxs ∧ t.dies = s.dies)

/-- R24 Table 6, start-up completes. -/
def Obligations.StartingEnds : Prop :=
  ∀ (s : State) (f : FuncId), (s.fn f).st = .starting → s.unitRuns f = true →
    ∃ t, exec (.startingComplete f) s = .next t ∧
      t.fn f = { s.fn f with st := if (s.fn f).disableRecorded then .draining else .on, disableRecorded := false } ∧
      (∀ g, g ≠ f → ((∃ d, f = .media d) → ∀ d h, g ≠ .stream d h) → t.fn g = s.fn g) ∧
      (match f with
        | .stream _ _ => True
        | .dmaq _ => True
        | .media _ => True
        | .port p => (t.port p).trained = true
        | _ => t = { s with fns := t.fns })

/-- R24 Table 6, all accepted work has completed; R326. -/
def Obligations.DrainingEnds : Prop :=
  ∀ (s : State) (f : FuncId), (s.fn f).st = .draining → s.hasWork f = false → s.fnClock f = true →
    ∃ t, exec (.drainComplete f) s = .next t ∧
      (t.fn f).st = (if (s.fn f).pendingOn then .starting else .off) ∧ (t.fn f).pendingOn = false ∧
      ((∀ n, f ≠ .ctx n) → ∀ g, g ≠ f → ((∃ d, f = .media d) → ∀ d h, g ≠ .stream d h) → t.fn g = s.fn g) ∧
      (match f with
        | .teasel _ => t = { s with fns := t.fns }
        | .vetch _ => t = { s with fns := t.fns }
        | .ring _ => t = { s with fns := t.fns }
        | .ctx n => (∀ p ∈ t.plans, p.ctx ≠ n) ∧ (∀ c ∈ t.chains, c.ctx ≠ n) ∧ (∀ die idx, t.sem n die idx = 0) ∧
            (t.ctx n).stalls = [] ∧ (∀ r ∈ ctxRings n, (t.fn (.ring r)).st = .off) ∧
            (∀ d h, (s.stream d h).owner = some n → (t.fn (.stream d h)).st = .off)
        | _ => True)

/-- R30. -/
def Obligations.RegionCommit : Prop :=
  (∀ (s : State) (path : Path), WritesAt s path (RegId.off .mgtRegionCommit 0 0 0) →
    (s.commitBusy = true → exec (.regionCommit path) s = .next s) ∧
    (s.commitBusy = false → ∃ t, exec (.regionCommit path) s = .next t ∧ t.commitBusy = true ∧
      t.regFld .mgtRegionCommit 0 0 0 2 1 = 3 ∧ t = { s with commitBusy := true, regs := t.regs } ∧
      (∀ (q : RegId) (d i j : Nat), q.off d i j ≠ RegId.off .mgtRegionCommit 0 0 0 → t.reg q d i j = s.reg q d i j))) ∧
  (∀ s : State, s.commitBusy = true → ∃ t, exec .regionCommitDone s = .next t ∧ t.commitBusy = false ∧
    t.regFld .mgtRegionCommit 0 0 0 2 1 = s.commitResult s.shadowMap ∧
    (∀ (q : RegId) (d i j : Nat), q.off d i j ≠ RegId.off .mgtRegionCommit 0 0 0 → t.reg q d i j = s.reg q d i j) ∧
    t = { s with commitBusy := false, regs := t.regs, free := t.free, regionMap := t.regionMap, mem := t.mem
                 scrambled := t.scrambled, store := t.store } ∧
    (s.commitResult s.shadowMap = 0 →
      (∀ j, j < 752 → t.region j = shadowRegion (s.reg .mgtRegion 0 j 0)) ∧
      (∀ a, (a / 2 ^ 30 < 752 → s.region (a / 2 ^ 30) = shadowRegion (s.reg .mgtRegion 0 (a / 2 ^ 30) 0)) →
        t.devRead a 1 = s.devRead a 1)) ∧
    (s.commitResult s.shadowMap ≠ 0 → t = { s with commitBusy := false, regs := t.regs }) ∧
    (s.commitResult s.shadowMap = 0 ↔ mapValid s.shadowMap = true ∧
      ∀ j, j < 752 → s.regionHeld j = true → s.region j = shadowRegion (s.reg .mgtRegion 0 j 0)))

/-- R323: BAR4_CTL_WRITE, BAR_RESIZE, BAR4_READ, BAR4_WRITE. -/
def Obligations.Bar4Window : Prop :=
  (∀ (s : State) (path : Path) (v : W64), WritesAt s path (RegId.off .hifBar4Ctl 0 0 0) →
    ((0x40 < fld v 23 16 ∨ fld v 47 30 * 2 ^ 30 % s.bar4Size ≠ 0) → exec (.bar4CtlWrite path v) s = .next s) ∧
    (fld v 23 16 ≤ 0x40 → fld v 47 30 * 2 ^ 30 % s.bar4Size = 0 →
      ∃ t, exec (.bar4CtlWrite path v) s = .next t ∧ t.bar4Base = fld v 47 30 * 2 ^ 30 ∧
        t.regFld .hifBar4Ctl 0 0 0 23 16 = fld v 23 16 ∧ t = { s with regs := t.regs })) ∧
  (∀ (s : State) (n : Nat), s.hub.takeover = false → s.barUp = true → 30 ≤ n → n ≤ 39 →
    ∃ t, exec (.barResize n) s = .next t ∧ t.bar4Size = 2 ^ n ∧ t.bar4Base = s.bar4Base - s.bar4Base % 2 ^ n ∧
      t = { s with regs := t.regs, hub := { s.hub with bar4Log2 := n } }) ∧
  (∀ (s : State) (off len : Nat) (ce : List Nat), s.hub.takeover = false → s.windowUp = true →
    (s.bar4Refuses off len = true → ∃ t, exec (.bar4Read off len ce) s = .next t ∧
      t.reg .hifBar4Err 0 0 0 = BitVec.ofNat 64 (((s.reg .hifBar4Err 0 0 0).toNat + 1) % 2 ^ 32) ∧
      t = { s with regs := t.regs, out := s.out ++ [.bar4UnsupportedRequest] }) ∧
    (s.bar4Refuses off len = false → s.memRuns none (s.bar4Base + off) len = true → (s.badIn (s.bar4Base + off) len).isSome →
      ∃ t, exec (.bar4Read off len ce) s = .next t ∧ t = { s with regs := t.regs, out := s.out ++ [.bar4CompleterAbort] }) ∧
    (s.bar4Refuses off len = false → s.memRuns none (s.bar4Base + off) len = false →
      exec (.bar4Read off len ce) s = .next { s with held := s.held ++ [.bar4Read off len ce] }) ∧
    (s.bar4Refuses off len = false → s.memRuns none (s.bar4Base + off) len = true → s.badIn (s.bar4Base + off) len = none →
      ∃ t, exec (.bar4Read off len ce) s = .next t ∧
      t = { s with regs := t.regs, mcs := t.mcs, dies := t.dies, cores := t.cores, acct := t.acct
                   out := s.out ++ [.bar4Data (s.devRead (s.bar4Base + off) len)] })) ∧
  (∀ (s : State) (off : Nat) (bs : List Byte), s.hub.takeover = false → s.windowUp = true →
    (s.bar4Refuses off bs.length = false → s.memRuns none (s.bar4Base + off) bs.length = true) →
    (s.bar4Refuses off bs.length = true ∨ (s.bar4Owner = none ∧ (s.planAreaOf (s.bar4Base + off) bs.length).isSome) →
      ∃ t, exec (.bar4Write off bs) s = .next t ∧ t = { s with regs := t.regs } ∧
        t.reg .hifBar4Err 0 0 0 = BitVec.ofNat 64 (((s.reg .hifBar4Err 0 0 0).toNat + 1) % 2 ^ 32)) ∧
    (∀ n, s.bar4Refuses off bs.length = false → s.bar4Owner = some n → s.planAreaOf (s.bar4Base + off) bs.length = some n →
      ∃ t, exec (.bar4Write off bs) s = .next t ∧
        t = { s with reports := s.reports ++ [{ cause := causeAddr, die := 0, ctxs := [n], addr := (s.bar4Base + off) % 2 ^ 48, hubSide := true }] }) ∧
    (∀ c, s.bar4Refuses off bs.length = false → s.planAreaOf (s.bar4Base + off) bs.length = none →
      s.badPartial (s.bar4Base + off) bs.length = some c →
      (s.bar4Owner = none → exec (.bar4Write off bs) s = .next s) ∧
      (∀ n, s.bar4Owner = some n → exec (.bar4Write off bs) s =
        .next { s with reports := s.reports ++ [{ cause := causeMem, die := 0, ctxs := [n], addr := c % 2 ^ 48, hubSide := true }] })) ∧
    (s.bar4Refuses off bs.length = false → s.planAreaOf (s.bar4Base + off) bs.length = none →
      s.badPartial (s.bar4Base + off) bs.length = none → s.colls.flatMap (fun c => c.guards) = [] →
      ∃ t, exec (.bar4Write off bs) s = .next t ∧ t.devRead (s.bar4Base + off) bs.length = bs ∧
        (∀ a, a < s.bar4Base + off ∨ s.bar4Base + off + bs.length ≤ a → t.devRead a 1 = s.devRead a 1) ∧
        t = { s with regs := t.regs, mem := t.mem, bad := t.bad, acct := t.acct }))

/-- R1, R317, R318, R458, R503. -/
def Obligations.ConfigurationAndPowerStates : Prop :=
  (∀ (s : State) (off size : Nat) (w : Option Nat), s.hub.takeover = false → s.boot.powered = true → s.boot.linkUp = true →
    s.hub.linkLoopback = false → s.hub.farEnd = false →
    (s.boot.cfgReady = false → exec (.configRequest off size w) s = .next { s with out := s.out ++ [.cfgRetry] }) ∧
    (s.boot.cfgReady = true →
      exec (.configRequest 0 4 none) s = .next { s with out := s.out ++ [.cfgData 0x0832CA1C] } ∧
      (∃ v, exec (.configRequest off size none) s = .next { s with out := s.out ++ [.cfgData v] }) ∧
      (∀ v, off ≤ Config.msixControlOff + 1 → Config.msixControlOff + 1 < off + size →
        ∃ t, exec (.configRequest off size (some v)) s = .next t ∧
          t.hub = { s.hub with bars := t.hub.bars, devCtl := t.hub.devCtl
                               msixFnMask := (v / 2 ^ (8 * (Config.msixControlOff + 1 - off))).testBit 6
                               msixEnable := (v / 2 ^ (8 * (Config.msixControlOff + 1 - off))).testBit 7 } ∧
          t = { s with hub := t.hub, regs := t.regs, out := t.out }))) ∧
  (∀ s : State, s.hub.takeover = false → s.barUp = true →
    (∃ t, exec .d3hotEntry s = .next t ∧ t = { s with hub := { s.hub with d3hot := true } } ∧ ∀ r, t.canFetch r = false) ∧
    (∃ t, exec .d0Return s = .next t ∧ t = { s with hub := { s.hub with d3hot := false } })) ∧
  (∀ s : State, s.hub.takeover = false → s.boot.powered = true → 1 ≤ s.boot.stage →
    (∀ dst a, exec (.mctpControlMessage (.setdasa dst a)) s =
      .next (if dst = BitVec.ofNat 7 (0x30 + s.boot.slotId.val) then { s with boot := { s.boot with dynAddr := some a } } else s)) ∧
    (∀ a, exec (.mctpControlMessage (.entdaa a)) s = .next { s with boot := { s.boot with dynAddr := some a } }) ∧
    (∀ dst e, let ours := dst = BitVec.ofNat 7 (0x30 + s.boot.slotId.val) ∨ s.boot.dynAddr = some dst
      (ours → exec (.mctpControlMessage (.setEndpointId dst e)) s =
        .next { s with boot := { s.boot with eid := e }, out := s.out ++ [.mctpReply e] }) ∧
      (ours → exec (.mctpControlMessage (.getEndpointId dst)) s = .next { s with out := s.out ++ [.mctpReply s.boot.eid] }) ∧
      (¬ ours → exec (.mctpControlMessage (.setEndpointId dst e)) s = .next s ∧
        exec (.mctpControlMessage (.getEndpointId dst)) s = .next s)))

/-- R328, R335, R518. -/
def Obligations.Doorbells : Prop :=
  (∀ (s : State) (n : CtxId) (k : Fin 4) (v : W32), s.hub.takeover = false → s.windowUp = true →
    let r : RingId := ⟨4 * n.val + k.val, by omega⟩
    let off := 0x1000 * n.val + 0x40 * k.val
    (∀ size, exec (.ringDoorbell off size none) s = .next { s with out := s.out ++ [.bar2Data size 0] }) ∧
    (∀ size, size ≠ 4 → exec (.ringDoorbell off size (some v)) s = .next s) ∧
    (v.toNat < s.ringSize r → (s.fn (.ring r)).st ≠ .off → v.toNat < 2 ^ 16 →
      ∃ t, exec (.ringDoorbell off 4 (some v)) s = .next t ∧ (t.reg .hifRingTail 0 r.val 0).toNat = v.toNat ∧
        (t.ring r).stopped = false ∧ (∀ q, q ≠ r → t.ring q = s.ring q) ∧
        (∀ (x : RegId) (d i j : Nat), x.off d i j ≠ RegId.off .hifRingTail 0 r.val 0 → t.reg x d i j = s.reg x d i j) ∧
        t = { s with regs := t.regs, rings := t.rings }) ∧
    ((s.ringSize r ≤ v.toNat ∨ (s.fn (.ring r)).st = .off) →
      ∃ t, exec (.ringDoorbell off 4 (some v)) s = .next t ∧ t.regFld .hifRingStat 0 r.val 0 0 0 = 1 ∧
        (∀ (x : RegId) (d i j : Nat), x.off d i j ≠ RegId.off .hifRingStat 0 r.val 0 → t.reg x d i j = s.reg x d i j) ∧
        t = { s with regs := t.regs })) ∧
  (∀ (s : State) (n : CtxId) (v : W32), s.hub.takeover = false → s.windowUp = true →
    ((s.evqSize n ≤ v.toNat ∨ (s.fn (.ctx n)).st = .off) →
      exec (.eventDoorbell (0x1000 * n.val + 0x100) 4 v) s = .next s) ∧
    (∀ size, size ≠ 4 → exec (.eventDoorbell (0x1000 * n.val + 0x100) size v) s = .next s) ∧
    (v.toNat < s.evqSize n → (s.fn (.ctx n)).st ≠ .off → (s.ctx n).evWait = [] →
      ∃ t, exec (.eventDoorbell (0x1000 * n.val + 0x100) 4 v) s = .next t ∧ t.ctx n = { s.ctx n with cons := v.toNat } ∧
        (∀ m, m ≠ n → t.ctx m = s.ctx m) ∧ t = { s with ctxs := t.ctxs }))

/-- R336, by SEM_WAIT_TIMEOUT (R333). -/
def Obligations.DescriptorCompletion : Prop :=
  ∀ (s : State) (seq : Nat) (x : Desc), s.started seq 0x07 = some x → s.limitOver x = true →
    s.semOf x < leAt x.bytes 0x08 4 →
    let n := ringCtx x.ring
    let slot := s.slotAddr x.ring x.slot + 0x38
    let entry := (s.reg .hifCtxEvqBase 0 n.val 0).toNat + 16 * (s.ctx n).prod
    let quad := toLe 8 (statusWord stTimeout 0 s.now)
    let e : EventEnt := { ring := x.ring, index := x.slot, ty := BitVec.ofNat 8 x.ty, status := stTimeout, detail := 0
                          time := s.now, seq := some seq }
    let silent : Prop := leAt x.bytes 1 1 % 2 = 1
    Clear s slot 8 → Clear s entry 16 →
    ∃ t, exec (.semWaitTimeout seq) s = .next t ∧ t.isDone seq = true ∧
      (∀ d i, t.sem n d i = s.sem n d i) ∧ (∀ m, m ≠ n → t.ctx m = s.ctx m) ∧
      t = { s with regs := t.regs, mem := t.mem, hostMem := t.hostMem, bad := t.bad, rings := t.rings, ctxs := t.ctxs
                   descs := t.descs, out := t.out, acct := t.acct } ∧
      (silent → t.anyRead slot 8 = quad ∧ t.desc seq = none ∧ (∀ q, q ≠ seq → t.desc q = s.desc q) ∧
        (t.ring x.ring).semHold ≠ some seq ∧
        t = { s with regs := t.regs, mem := t.mem, hostMem := t.hostMem, bad := t.bad, rings := t.rings, descs := t.descs
                     acct := t.acct } ∧
        (isHost slot = false → t.hostMem = s.hostMem ∧ ∀ a, a < slot ∨ slot + 8 ≤ a → t.devRead a 1 = s.devRead a 1) ∧
        (isHost slot = true → t.mem = s.mem ∧ ∀ a, a < hostAddr slot ∨ hostAddr slot + 8 ≤ a →
          memByte hostDefault t.hostMem a = memByte hostDefault s.hostMem a)) ∧
      (¬ silent → s.evqRoom n = false → t.anyRead slot 8 = quad ∧ (t.desc seq).map (fun y => y.st) = some .done ∧
        (∀ q, q ≠ seq → t.desc q = s.desc q) ∧ (t.ring x.ring).semHold ≠ some seq ∧
        t.ctx n = { s.ctx n with evWait := (s.ctx n).evWait ++ [e] } ∧
        t = { s with regs := t.regs, mem := t.mem, hostMem := t.hostMem, bad := t.bad, rings := t.rings, descs := t.descs
                     ctxs := t.ctxs, acct := t.acct }) ∧
      (¬ silent → (s.ctx n).evWait = [] → s.evqRoom n = true →
        t.anyRead entry 16 = eventBytes e (s.ctx n).phase ∧ t.desc seq = none ∧
        (∀ q, q ≠ seq → t.desc q = s.desc q) ∧
        t.ctx n = { s.ctx n with
          prod := ((s.ctx n).prod + 1) % s.evqSize n, evWait := [], evHold := false
          phase := if ((s.ctx n).prod + 1) % s.evqSize n = 0 then !(s.ctx n).phase else (s.ctx n).phase })

/-- R328 step 3, R329, R330, by FENCE, SEM_SIGNAL, SEM_WAIT, TIMESTAMP and SLOT_FETCH_STALL. -/
def Obligations.SlotFetch : Prop :=
  (∀ (s : State) (r : RingId) (c : Instr) (ty : Nat), FlightOk s →
    (c, ty) ∈ [(Instr.fence r, 0x05), (Instr.semSignal r, 0x06), (Instr.semWait r, 0x07), (Instr.timestamp r, 0x0E)] →
    s.fetchable r = true → leAt (s.headBytes r) 0 1 = ty → s.hub.outOfService = false →
    s.commonCheck (ringCtx r) (s.headBytes r) = none →
    let held : Bool := s.descs.any (fun f => fenceCovers f r)
    let x : Desc := { seq := s.nextSeq, ring := r, slot := s.headSlot r, ty, bytes := s.headBytes r, time := s.now
                      st := if held then .waiting else .started, held }
    ∃ u t, Counted s u ∧ (isHost (s.slotAddr r (s.headSlot r)) = true → u = s) ∧
      exec c s = .next t ∧ t.descs = s.descs ++ [x] ∧ t.nextSeq = s.nextSeq + 1 ∧
      t.reg .hifRingHead 0 r.val 0 = BitVec.ofNat 64 ((s.headSlot r + 1) % s.ringSize r) ∧
      t.regFld .hifRingStat 0 r.val 0 1 1 = 0 ∧
      (∀ q d i j, RegId.off q d i j ≠ RegId.off .hifRingHead 0 r.val 0 →
        RegId.off q d i j ≠ RegId.off .hifRingStat 0 r.val 0 → t.reg q d i j = u.reg q d i j) ∧
      (t.ring r).semHold = (if ty = 0x07 then some s.nextSeq else none) ∧
      (ty = 0x07 → t.arb.grant = none) ∧ (∀ q, q ≠ r → t.ring q = s.ring q) ∧
      t = { u with regs := t.regs, rings := t.rings, descs := t.descs, nextSeq := t.nextSeq, arb := t.arb }) ∧
  (∀ (s : State) (r : RingId) (fail : Option ReadFail), (s.grantFor r).isSome = true →
    (fail = none → ∀ c, s.slotBad r = some c → ∃ t, exec (.slotFetchStall r none) s = .next t ∧
      t = { s with arb := t.arb, reports := s.reports ++
        [{ cause := causeMem, die := 0, ctxs := [ringCtx r], addr := c % 2 ^ 48, hubSide := true }] }) ∧
    (fail.isSome = true ∨ (s.slotBad r = none ∧ ownSet (s.headBytes r) = false) →
    ∃ u t, Counted s u ∧ (fail.isSome = true ∨ isHost (s.slotAddr r (s.headSlot r)) = true → u = s) ∧
      exec (.slotFetchStall r fail) s = .next t ∧ (t.ring r).stopped = true ∧ (∀ q, q ≠ r → t.ring q = s.ring q) ∧
      t.regFld .hifRingStat 0 r.val 0 1 1 = (if fail.isSome then s.regFld .hifRingStat 0 r.val 0 1 1 else 1) ∧
      t.regFld .hifRingStat 0 r.val 0 2 2 = (if fail.isSome then 1 else s.regFld .hifRingStat 0 r.val 0 2 2) ∧
      (∀ q d i j, RegId.off q d i j ≠ RegId.off .hifRingStat 0 r.val 0 → t.reg q d i j = u.reg q d i j) ∧
      t = { u with regs := t.regs, rings := t.rings, arb := t.arb }))

/-- R334 Table 5: the first check that fails sets the status and DETAIL, and nothing of the descriptor runs. -/
def Obligations.RefusedAtFetch : Prop :=
  (∀ (s : State) (r : RingId) (c : Instr) (st : Byte) (dt : W16), FlightOk s → s.fetchable r = true →
    let ty := leAt (s.headBytes r) 0 1
    let op := s.slotOp (s.headBytes r)
    let slot := s.slotAddr r (s.headSlot r) + 0x38
    (c, true) ∈ [(Instr.invalidDescriptor r, ty == 0 || decide (0x0F < ty)), (.dispatch r, ty == 1 && s.chainWaiting.isEmpty),
      (.copy r, ty == 2), (.fill r, ty == 3), (.compare r, ty == 4), (.fence r, ty == 5), (.semSignal r, ty == 6),
      (.semWait r, ty == 7), (.mediaSubmit r, ty == 8), (.mediaOpen r, ty == 9), (.mediaClose r, ty == 0x0A),
      (.planLoad r, ty == 0x0B), (.planUnload r, ty == 0x0C),
      (.reduceScatter r, ty == 0x0D && !([opAG, opAR, opEM, opPM].contains op)), (.allGather r, ty == 0x0D && op == opAG),
      (.allReduce r, ty == 0x0D && op == opAR), (.exponentMax r, ty == 0x0D && op == opEM),
      (.permute r, ty == 0x0D && op == opPM), (.timestamp r, ty == 0x0E), (.energyQuery r, ty == 0x0F)] →
    (if s.hub.outOfService then some (stCancelled, 0) else (s.fetch r).1.commonCheck (ringCtx r) (s.headBytes r)) = some (st, dt) →
    ∃ t, exec c s = .next t ∧ t.isDone s.nextSeq = true ∧ t.nextSeq = s.nextSeq + 1 ∧
      t = { s with regs := t.regs, mem := t.mem, hostMem := t.hostMem, bad := t.bad, rings := t.rings, ctxs := t.ctxs
                   descs := t.descs, nextSeq := t.nextSeq, arb := t.arb, out := t.out, reports := t.reports, free := t.free
                   mcs := t.mcs, dies := t.dies, cores := t.cores, acct := t.acct } ∧
      (leAt (s.headBytes r) 1 1 % 2 = 1 → Clear s slot 8 → t.descs = s.descs ∧ t.ctxs = s.ctxs ∧ t.out = s.out ∧
        t.anyRead slot 8 = toLe 8 (statusWord st dt s.now) ∧
        t.reg .hifRingHead 0 r.val 0 = BitVec.ofNat 64 ((s.headSlot r + 1) % s.ringSize r) ∧
        (isHost slot = false → t.hostMem = s.hostMem ∧ ∀ a, a < slot ∨ slot + 8 ≤ a → t.devRead a 1 = s.devRead a 1) ∧
        (isHost slot = true → t.mem = s.mem ∧ ∀ a, a < hostAddr slot ∨ hostAddr slot + 8 ≤ a →
          memByte hostDefault t.hostMem a = memByte hostDefault s.hostMem a))) ∧
  (∀ (s : State) (n : CtxId) (b : List Byte), leAt b 0 1 = 0 ∨ 0x0F < leAt b 0 1 →
    s.commonCheck n b = some (stBadDesc, 0x0501) ∨ s.commonCheck n b = some (stBadDesc, 0x0502))

/-- R303: chunks, parts and queues of COPY, FILL and COMPARE. -/
def Obligations.DmaStart : Prop :=
  (∀ (s : State) (r : RingId) (c : Instr) (ty : Nat), FlightOk s →
    (c, ty) ∈ [(Instr.copy r, 0x02), (Instr.fill r, 0x03), (Instr.compare r, 0x04)] →
    s.fetchable r = true → leAt (s.headBytes r) 0 1 = ty → s.hub.outOfService = false →
    s.commonCheck (ringCtx r) (s.headBytes r) = none → (s.descs.any (fun f => fenceCovers f r)) = false →
    let x : Desc := { seq := s.nextSeq, ring := r, slot := s.headSlot r, ty, bytes := s.headBytes r, time := s.now }
    s.dmaCheck x = none → (∀ q ∈ x.spread, (s.fn (.dmaq q)).st = .on) →
    ∃ u t, Counted s u ∧ (isHost (s.slotAddr r (s.headSlot r)) = true → u = s) ∧
      exec c s = .next t ∧ t.desc s.nextSeq = some { x with st := .started } ∧
      (∀ q : QueueId, t.dq q = s.dq q ++
        ((List.range 16).filter (fun k => decide (q.val = x.dmaQueue + k % x.dmaSpread) && !(x.partChunks k).isEmpty)).map
          (fun k => { seq := s.nextSeq, part := k, chunks := x.partChunks k })) ∧
      (∀ q d i j, RegId.off q d i j ≠ RegId.off .hifRingHead 0 r.val 0 →
        RegId.off q d i j ≠ RegId.off .hifRingStat 0 r.val 0 → t.reg q d i j = u.reg q d i j) ∧
      t = { u with regs := t.regs, rings := t.rings, descs := t.descs, nextSeq := t.nextSeq, arb := t.arb, dmaq := t.dmaq }) ∧
  (∀ (x : Desc) (k j : Nat), k < 16 → (j ∈ x.partChunks k ↔
    j % 16 = k ∧ 65536 * j < x.dmaLen ∧ (x.dmaMask = 0 ∨ bits x.dmaMask k k = 1)))

/-- R305 to R309: DMA_CHUNK_DONE, DMA_HOST_READ_ERROR, DMA_COMPLETE. -/
def Obligations.DmaWork : Prop :=
  (∀ (s : State) (q : QueueId) (p : DmaPart) (x : Desc) (j parity : Nat) (ce : List Nat), s.dmaFront q = some (p, x, j) →
    parity < 2 → 2 ≤ p.chunks.length → s.colls.flatMap (fun c => c.guards) = [] →
    let off := 65536 * j
    let len := min 65536 (x.dmaLen - off)
    let dst := x.dmaDst + off
    let src := x.dmaSrc + off
    let n := ringCtx x.ring
    ∃ t, exec (.dmaChunkDone q parity ce) s = .next t ∧
      t.dq q = { p with chunks := p.chunks.drop 1, busy := false } :: (s.dq q).drop 1 ∧ (∀ r, r ≠ q → t.dq r = s.dq r) ∧
      (x.ty = 0x02 ∨ x.ty = 0x03 → (x.ty = 0x02 → s.sideFault n false src len = none) → s.sideFault n true dst len = none →
        t.anyRead dst len = (if x.ty = 0x02 then s.anyRead src len else patternAt x.dmaPattern dst len) ∧
        (isHost dst = false → t.hostMem = s.hostMem ∧ ∀ a, a < dst ∨ dst + len ≤ a → t.devRead a 1 = s.devRead a 1) ∧
        (isHost dst = true → t.mem = s.mem ∧ ∀ a, a < hostAddr dst ∨ hostAddr dst + len ≤ a →
          memByte hostDefault t.hostMem a = memByte hostDefault s.hostMem a) ∧
        t = { s with regs := t.regs, mem := t.mem, hostMem := t.hostMem, bad := t.bad, dmaq := t.dmaq, mcs := t.mcs
                     dies := t.dies, cores := t.cores, acct := t.acct }) ∧
      (x.ty = 0x04 → (x.readsSrc = true → s.sideFault n false src len = none) → s.sideFault n false dst len = none →
        let want := if x.readsSrc then s.anyRead src len else patternAt x.dmaPattern dst len
        let d := diffs want (s.anyRead dst len)
        (d = [] → t = { s with regs := t.regs, dmaq := t.dmaq, mcs := t.mcs, dies := t.dies, cores := t.cores, acct := t.acct }) ∧
        (∀ i rest, d = i :: rest → (t.desc x.seq) = some { x with
            cmpFirst := some (min (off + i) (x.cmpFirst.getD (off + i))), cmpCount := x.cmpCount + d.length
            mism := x.mism ||| BitVec.ofNat 16 (2 ^ p.part) } ∧
          t = { s with regs := t.regs, dmaq := t.dmaq, descs := t.descs, mcs := t.mcs, dies := t.dies, cores := t.cores
                       acct := t.acct })) ∧
      (∀ c a, s.sideFault n (x.ty != 0x04) dst len = some (c, a) → (x.readsSrc = true → s.sideFault n false src len = none) →
        t = { s with regs := t.regs, dmaq := t.dmaq
                     reports := s.reports ++ [{ cause := c, die := (qDie q).val, ctxs := [n], addr := a % 2 ^ 48 }] })) ∧
  (∀ (s : State) (q : QueueId) (p : DmaPart) (x : Desc) (j parity : Nat) (ce : List Nat), s.dmaFront q = some (p, x, j) → 2 ≤ parity →
    ∃ t, exec (.dmaChunkDone q parity ce) s = .next t ∧ (t.fn (.dmaq q)).st = .off) ∧
  (∀ (s : State) (q : QueueId) (p : DmaPart) (x : Desc) (j : Nat) (fail : ReadFail), s.dmaFront q = some (p, x, j) →
    x.readsHost = true → x.ty = 0x04 →
    ∃ t, exec (.dmaHostReadError q fail) s = .next t ∧
      (t.desc x.seq).map (fun y => y.failed) = some (x.failed ||| BitVec.ofNat 16 (2 ^ p.part)) ∧
      t.dq q = (s.dq q).filter (fun z => !(z.seq == p.seq && z.part == p.part)) ∧ (∀ r, r ≠ q → t.dq r = s.dq r)) ∧
  (∀ (s : State) (seq : Nat) (x : Desc), x.ty ∈ [0x02, 0x03, 0x04] → s.started seq x.ty = some x → s.dmaOpen seq = false →
    (x.ty = 0x04 → isHost x.dmaResult = true) →
    let slot := s.slotAddr x.ring x.slot + 0x38
    Clear s slot 8 →
    let sd := if x.failed ≠ 0 then (stPartial, x.failed) else if x.mism ≠ 0 then (stMismatch, x.mism)
      else if (List.range 16).all (fun k => (x.partChunks k).isEmpty) then (stOkEmpty, 0) else (stOk, 0)
    ∃ t, exec (.dmaComplete seq) s = .next t ∧ t.isDone seq = true ∧
      (leAt x.bytes 1 1 % 2 = 1 → t.anyRead slot 8 = toLe 8 (statusWord sd.1 sd.2 s.now) ∧ t.desc seq = none ∧
        (x.ty = 0x04 → isHost slot = false →
          t.anyRead x.dmaResult 16 = toLe 8 (x.cmpFirst.getD (2 ^ 64 - 1)) ++ toLe 8 x.cmpCount)))

/-- R311, R312, R333: FENCE_COMPLETE, SEM_SIGNAL_APPLY, SEM_WAIT_SATISFIED, TIMESTAMP_WRITE, ENERGY_QUERY. -/
def Obligations.FencesAndSemaphores : Prop :=
  (∀ (s : State) (seq : Nat) (x y : Desc), FlightOk s → s.started seq 0x05 = some x → s.coveredDone x = true →
    leAt x.bytes 1 1 % 2 = 1 → y ∈ s.descs → y ≠ x → y.held = true → y.ty ∈ [0x05, 0x06, 0x07, 0x0B, 0x0E] → (∀ z ∈ s.descs, z.held = true → z = y) →
    (∀ z ∈ s.descs, fenceCovers z y.ring = true → z.seq = seq ∨ y.seq ≤ z.seq) → s.chainWaiting = [] →
    Clear s (s.slotAddr x.ring x.slot + 0x38) 8 →
    ∃ t, exec (.fenceComplete seq) s = .next t ∧ t.desc seq = none ∧
      t.desc y.seq = some { y with st := .started, held := false, time := s.now } ∧
      (∀ q, q ≠ seq → q ≠ y.seq → t.desc q = s.desc q) ∧
      t = { s with regs := t.regs, mem := t.mem, hostMem := t.hostMem, bad := t.bad, rings := t.rings, descs := t.descs
                   acct := t.acct }) ∧
  (∀ (s : State) (seq : Nat) (x : Desc), s.started seq 0x06 = some x → s.coveredDone x = true →
    let n := ringCtx x.ring
    let d := bits (leAt x.bytes 2 2) 10 8
    let i := bits (leAt x.bytes 2 2) 7 0
    let v := leAt x.bytes 0x08 4
    (s.newelUp (semDie (leAt x.bytes 2 2)) = false → exec (.semSignalApply seq) s = .next s) ∧
    (s.newelUp (semDie (leAt x.bytes 2 2)) = true →
    (s.sem n d i + v < 2 ^ 32 → ∃ t, exec (.semSignalApply seq) s = .next t ∧ t.isDone seq = true ∧
      t.sem n d i = s.sem n d i + v ∧ (∀ m e j, ¬ (m = n ∧ 256 * e + j = 256 * d + i) → t.sem m e j = s.sem m e j)) ∧
    (2 ^ 32 ≤ s.sem n d i + v → exec (.semSignalApply seq) s =
      .next { s with reports := s.reports ++ [{ cause := causeSem, die := d, ctxs := [n], addr := 0 }] }))) ∧
  (∀ (s : State) (seq : Nat) (x : Desc), s.started seq 0x07 = some x →
    let n := ringCtx x.ring
    let d := bits (leAt x.bytes 2 2) 10 8
    let i := bits (leAt x.bytes 2 2) 7 0
    let v := leAt x.bytes 0x08 4
    v ≤ s.sem n d i → s.newelUp (semDie (leAt x.bytes 2 2)) = true → ∃ t, exec (.semWaitSatisfied seq) s = .next t ∧ t.isDone seq = true ∧
      t.sem n d i = (if bits (leAt x.bytes 1 1) 2 2 = 1 then s.sem n d i - v else s.sem n d i) ∧
      (∀ m e j, ¬ (m = n ∧ 256 * e + j = 256 * d + i) → t.sem m e j = s.sem m e j)) ∧
  (∀ (s : State) (seq : Nat) (x : Desc), s.started seq 0x0E = some x → s.earlierOpen seq (fun y => decide (y.ring = x.ring)) = false →
    leAt x.bytes 1 1 % 2 = 1 → isHost (leAt x.bytes 0x08 8) = true → isHost (s.slotAddr x.ring x.slot + 0x38) = false →
    Clear s (s.slotAddr x.ring x.slot + 0x38) 8 →
    ∃ t, exec (.timestampWrite seq) s = .next t ∧ t.desc seq = none ∧ t.anyRead (leAt x.bytes 0x08 8) 8 = toLe 8 s.now ∧
      t.anyRead (s.slotAddr x.ring x.slot + 0x38) 8 = toLe 8 (s.now % 2 ^ 32) ∧
      t = { s with regs := t.regs, mem := t.mem, hostMem := t.hostMem, bad := t.bad, rings := t.rings, descs := t.descs
                   acct := t.acct }) ∧
  (∀ (s : State) (r : RingId), FlightOk s → s.fetchable r = true → leAt (s.headBytes r) 0 1 = 0x0F → s.hub.outOfService = false →
    s.commonCheck (ringCtx r) (s.headBytes r) = none → (s.descs.any (fun f => fenceCovers f r)) = false →
    leAt (s.headBytes r) 1 1 % 2 = 1 → isHost (leAt (s.headBytes r) 0x08 8) = true →
    isHost (s.slotAddr r (s.headSlot r) + 0x38) = false → Clear s (s.slotAddr r (s.headSlot r) + 0x38) 8 →
    ∃ u t, Counted s u ∧ exec (.energyQuery r) s = .next t ∧ t.descs = s.descs ∧ t.nextSeq = s.nextSeq + 1 ∧
      t.anyRead (leAt (s.headBytes r) 0x08 8) 64 = s.ledgerRecord (ringCtx r) ∧
      t = { u with regs := t.regs, mem := t.mem, hostMem := t.hostMem, bad := t.bad, rings := t.rings, nextSeq := t.nextSeq
                   arb := t.arb, acct := t.acct })

/-- R136 to R140: PLAN_LOAD, PLAN_LOAD_CHECK, PLAN_UNLOAD, PLAN_UNLOAD_EFFECT. -/
def Obligations.PlanLifetime : Prop :=
  (∀ (s : State) (r : RingId), FlightOk s → s.fetchable r = true → leAt (s.headBytes r) 0 1 = 0x0B → s.hub.outOfService = false →
    s.commonCheck (ringCtx r) (s.headBytes r) = none → (s.descs.any (fun f => fenceCovers f r)) = false →
    let x : Desc := { seq := s.nextSeq, ring := r, slot := s.headSlot r, ty := 0x0B, bytes := s.headBytes r, time := s.now }
    s.loadFetchCheck x = 0 →
    ∃ u t, Counted s u ∧ exec (.planLoad r) s = .next t ∧ t.desc s.nextSeq = some { x with st := .started } ∧
      t.plans = s.plans ++ [{ ctx := ringCtx r, handle := x.handle, st := .loading, area := x.loadDst, size := x.loadLen, loadSeq := s.nextSeq }] ∧
      t = { u with regs := t.regs, rings := t.rings, descs := t.descs, nextSeq := s.nextSeq + 1, arb := t.arb, plans := t.plans }) ∧
  (∀ (s : State) (seq : Nat) (x : Desc) (p : Plan), s.started seq 0x0B = some x → p ∈ s.plans → p.st = .loading → p.loadSeq = seq →
    isHost x.loadSrc = true → isHost x.loadReport = true → s.memRuns none x.loadDst x.loadLen = true →
    let n := ringCtx x.ring
    let u := s.putBytes x.loadDst (s.anyRead x.loadSrc x.loadLen)
    (s.writeFault n x.loadDst x.loadLen = none →
      ∃ t, exec (.planLoadCheck seq none []) s = .next t ∧ t.isDone seq = true ∧
        (∀ m h, ¬ (m = n ∧ h = x.handle) → t.plan m h = s.plan m h) ∧
        (t.plan n x.handle).map (fun p => p.st) = (match (u.checkCopy n x.loadDst x.loadLen).1 with
          | none => (s.plan n x.handle).map (fun _ =>
              if (u.waitingUnload n x.handle x.seq).isSome then PlanSt.unloading else PlanSt.loaded)
          | some _ => none)) ∧
    (∀ off, off < x.loadLen →
      ∃ t, exec (.planLoadCheck seq (some off) []) s = .next t ∧ t.isDone seq = true ∧ t.plan n x.handle = none ∧
        ∀ m h, ¬ (m = n ∧ h = x.handle) → t.plan m h = s.plan m h)) ∧
  (∀ (s : State) (r : RingId), FlightOk s → s.fetchable r = true → leAt (s.headBytes r) 0 1 = 0x0C → s.hub.outOfService = false →
    s.commonCheck (ringCtx r) (s.headBytes r) = none → (s.descs.any (fun f => fenceCovers f r)) = false →
    let x : Desc := { seq := s.nextSeq, ring := r, slot := s.headSlot r, ty := 0x0C, bytes := s.headBytes r, time := s.now }
    (∀ p, s.plan (ringCtx r) x.handle = some p → p.st = .loaded →
      ∃ u t, Counted s u ∧ exec (.planUnload r) s = .next t ∧ t.desc s.nextSeq = some { x with st := .started } ∧
        t.plan (ringCtx r) x.handle = some { p with st := .unloading, unloadSeq := some s.nextSeq } ∧
        (∀ m h, ¬ (m = ringCtx r ∧ h = x.handle) → t.plan m h = s.plan m h) ∧
        t = { u with regs := t.regs, rings := t.rings, descs := t.descs, nextSeq := s.nextSeq + 1, arb := t.arb, plans := t.plans }) ∧
    (s.plan (ringCtx r) x.handle = none →
      ∃ t, exec (.planUnload r) s = .next t ∧ t.isDone s.nextSeq = true ∧ t.plans = s.plans)) ∧
  (∀ (s : State) (seq : Nat) (x : Desc) (p : Plan), s.started seq 0x0C = some x → s.plan (ringCtx x.ring) x.handle = some p →
    p.st ≠ .loading → p.unloadSeq = some seq → s.namedBefore (ringCtx x.ring) x.handle seq = false →
    ∃ t, exec (.planUnloadEffect seq) s = .next t ∧ t.isDone seq = true ∧ t.plan (ringCtx x.ring) x.handle = none ∧
      t.chains = s.chains.filter (fun c => !(decide (c.ctx = ringCtx x.ring) && c.handle == x.handle)) ∧
      ∀ m h, ¬ (m = ringCtx x.ring ∧ h = x.handle) → t.plan m h = s.plan m h)

/-- R452 Table 1, R477, R478, R504, R505. -/
def Obligations.ResetTriggers : Prop :=
  (∀ (s : State) (ns : Nat), s.boot.powered = true →
    (ns < 1000 → exec (.perstAssert ns) s = .next s) ∧
    (1000 ≤ ns → ∃ t, exec (.perstAssert ns) s = .next t ∧ t.boot.perstLow = true ∧
      ResetLeaves .warm 2 { s with boot := { s.boot with perstLow := true } } t) ∧
    (ns < 10000000 → exec (.resetReq ns) s = .next s) ∧
    (10000000 ≤ ns → ∃ t, exec (.resetReq ns) s = .next t ∧ t.boot.resetReqLow = true ∧ t.nextStep = none ∧
      ResetLeaves .cold 1 { s with boot := { s.boot with resetReqLow := true }, regionMap := [] } t)) ∧
  (∀ s : State, exec .perstDeassert s = .next { s with boot := { s.boot with perstLow := false } } ∧
    exec .resetReqRelease s = .next { s with boot := { s.boot with resetReqLow := false } } ∧
    (s.boot.linkUp = true → ∃ t, exec .hotReset s = .next t ∧ ResetLeaves .warm 3 s t) ∧
    (∀ e, s.hub.takeover = false → s.henlanUp = true →
      (∃ t, exec (.henlanWarmReset e) s = .next t ∧ ResetLeaves .warm 5 s t) ∧
      (∃ t, exec (.henlanColdReset e) s = .next t ∧ ResetLeaves .cold 5 { s with regionMap := [] } t))) ∧
  (∀ (s : State) (path : Path) (key : W16), WritesAt s path (RegId.off .secReset 0 0 0) →
    (key ≠ 0xCA1C ∨ s.regFld .secBootStatus 0 0 0 3 0 < 3 →
      exec (.secResetWarm path key) s = .next s ∧ exec (.secResetCold path key) s = .next s) ∧
    (3 ≤ s.regFld .secBootStatus 0 0 0 3 0 →
      (∃ t, exec (.secResetWarm path 0xCA1C) s = .next t ∧ ResetLeaves .warm 4 s t) ∧
      (∃ t, exec (.secResetCold path 0xCA1C) s = .next t ∧ ResetLeaves .cold 4 { s with regionMap := [] } t))) ∧
  (∀ (s : State) (a b : Nat) (slot : Fin 16), s.boot.powered = false → (340 ≤ a ∧ a ≤ 500) ∨ (340 ≤ b ∧ b ≤ 500) →
    ∃ t, exec (.powerOn a b slot) s = .next t ∧
      ResetLeaves .powerOn 0 { s with
        boot := { s.boot with slotId := slot, feedA := decide (340 ≤ a) && decide (a ≤ 500)
                              feedB := decide (340 ≤ b) && decide (b ≤ 500) }
        regionMap := [] } t)

/-- R457 Table 2, with R460, R464 to R466. -/
def Obligations.StartupSteps : Prop :=
  (∀ (s : State) (ev : StartupEv),
    s.boot.powered = false ∨ s.boot.recovery = true ∨ (4 ≤ s.boot.stage ∧ s.boot.oos = true) ∨
      (s.boot.stage = 1 ∧ s.boot.resetReqLow = true) →
    exec (.startupStepDone ev) s = .next s) ∧
  (∀ (s : State) (ev : StartupEv), Starting s 0 → ∃ t, exec (.startupStepDone ev) s = .next t ∧ AtStep 1 s t) ∧
  (∀ (s : State) (ev : StartupEv), Starting s 1 → s.boot.resetReqLow = false →
    let lost := !s.store.a.valid && !s.store.b.valid
    ∃ t, exec (.startupStepDone ev) s = .next t ∧ t.store.lost = lost ∧
      t.regFld .avlStoreStatus 0 0 0 4 4 = (if lost then 1 else 0) ∧
      (romCheck (s.bankImage s.store.cur.bank) s.store.cur.svnFloor = 0 → AtStep 2 s t ∧
        t.fw.running = s.bankImage s.store.cur.bank ∧ t.runBank = s.store.cur.bank ∧
        t.store = { s.store with lost, dirty := s.store.dirty || lost }) ∧
      (romCheck (s.bankImage s.store.cur.bank) s.store.cur.svnFloor ≠ 0 →
        romCheck (s.bankImage (!s.store.cur.bank)) s.store.cur.svnFloor = 0 → AtStep 2 s t ∧
        t.fw.running = s.bankImage (!s.store.cur.bank) ∧ t.runBank = !s.store.cur.bank ∧
        t.store.cur.bank = !s.store.cur.bank ∧ t.regFld .secBootStatus 0 0 0 8 8 = 1) ∧
      (romCheck (s.bankImage s.store.cur.bank) s.store.cur.svnFloor ≠ 0 →
        romCheck (s.bankImage (!s.store.cur.bank)) s.store.cur.svnFloor ≠ 0 →
        t.boot = { s.boot with recovery := true } ∧ t.regFld .secBootStatus 0 0 0 3 0 = 15 ∧
        t.regFld .secBootStatus 0 0 0 15 12 = romCheck (s.bankImage (!s.store.cur.bank)) s.store.cur.svnFloor)) ∧
  (∀ (s : State) (ev : StartupEv), Starting s 2 → ∃ t, exec (.startupStepDone ev) s = .next t ∧ AtStep 3 s t ∧
    t.meas.count = s.meas.count + 3 ∧ SMap.getD t.meas.blocks 1 0 = Config.bootRom ∧
    SMap.getD t.meas.blocks 2 0 = s.fw.running.header ∧ SMap.getD t.meas.blocks 3 0 = s.fw.running.comps.getD 0 0 ∧
    t.hub.standbyOk = (!s.hub.aFailed && !s.hub.bFailed)) ∧
  (∀ (s : State) (ev : StartupEv), Starting s 3 → s.boot.linkUp = true →
    ∃ t, exec (.startupStepDone ev) s = .next t ∧ t = { s with boot := { s.boot with stage := 4, cfgReady := true }, regs := t.regs }) ∧
  (∀ (s : State) (ev : StartupEv), Starting s 4 ∨ (Starting s 3 ∧ s.boot.linkUp = false) →
    ∃ t, exec (.startupStepDone ev) s = .next t ∧
      (s.fw.running.digestsOk = true → AtStep 5 { s with boot := { s.boot with modPwrgd := true } } t ∧
        (∀ d, (t.die d).railOn = true) ∧
        t.meas.count = s.meas.count + 4 ∧
        SMap.getD t.meas.blocks 4 0 = s.fw.running.comps.getD 1 0 ∧ SMap.getD t.meas.blocks 5 0 = s.fw.running.comps.getD 2 0 ∧
        SMap.getD t.meas.blocks 6 0 = s.fw.running.comps.getD 3 0) ∧
      (s.fw.running.digestsOk = false →
        (s.regFld .secBootStatus 0 0 0 8 8 = 1 ∨ romCheck (s.bankImage (!s.runBank)) s.store.cur.svnFloor ≠ 0 →
          t.boot = { s.boot with recovery := true } ∧ t.regFld .secBootStatus 0 0 0 3 0 = 15) ∧
        (s.regFld .secBootStatus 0 0 0 8 8 ≠ 1 → romCheck (s.bankImage (!s.runBank)) s.store.cur.svnFloor = 0 →
          AtStep 2 s t ∧ t.fw.running = s.bankImage (!s.runBank) ∧ t.runBank = !s.runBank ∧ t.meas = {}))) ∧
  (∀ (s : State), Starting s 5 → ∃ t, exec (.startupStepDone {}) s = .next t ∧ AtStep 6 s t ∧ t = { s with boot := t.boot, regs := t.regs }) ∧
  (∀ (s : State) (ev : StartupEv), Starting s 6 → ∃ t, exec (.startupStepDone ev) s = .next t ∧
    t.mem = [] ∧ t.bad = [] ∧ (∀ a n, t.devRead a n = List.replicate n 0) ∧
    (t.boot.oos = false → t.boot.stage = 7 ∧ t.regFld .secBootStatus 0 0 0 3 0 = 7) ∧
    (t.boot.oos = true → t.regFld .secBootStatus 0 0 0 9 9 = 1)) ∧
  (∀ (s : State) (ev : StartupEv), Starting s 7 → ∃ t, exec (.startupStepDone ev) s = .next t ∧ AtStep 8 s t ∧
    (∀ d p, (s.core d p).role = .inService → IsOn (.core d p) t) ∧ (∀ d, IsOn (.vetch d) t) ∧ (∀ q, IsOn (.dmaq q) t) ∧
    (∀ d, (s.die d).teaselOut = false → IsOn (.teasel d) t) ∧ (∀ d, (s.die d).mediaOut = false → IsOn (.media d) t)) ∧
  (∀ (s : State) (ev : StartupEv), Starting s 8 → ∃ t, exec (.startupStepDone ev) s = .next t ∧ AtStep 9 s t ∧
    ∀ p, IsOn (.port p) t) ∧
  (∀ (s : State) (ev : StartupEv), Starting s 9 → ∃ t, exec (.startupStepDone ev) s = .next t ∧ AtStep 10 s t ∧
    t.reg .secJobReadyTime 0 0 0 = BitVec.ofNat 64 s.now ∧ t = { s with boot := t.boot, regs := t.regs }) ∧
  (∀ (s : State) (ev : StartupEv), Starting s 10 → (s.fab.selfAdmitted = false → exec (.startupStepDone ev) s = .next s) ∧
    (s.fab.selfAdmitted = true → ∃ t, exec (.startupStepDone ev) s = .next t ∧ AtStep 11 s t ∧ t = { s with boot := t.boot, regs := t.regs }))

/-- R473 Table 6 and R474: the connection. -/
def Obligations.SpdmConnection : Prop :=
  (∀ (s : State) (t : Transport) (c : Instr), c ∈ [Instr.getVersion t, .getDigests t, .getCsr t, .pskExchange t] →
    s.hub.takeover = false → s.spdmCarried t = true → s.boot.stage < 3 → exec c s = .next (s.reply t .errBusy)) ∧
  (∀ (s : State) (t : Transport), Talks s t →
    (∃ u, exec (.getVersion t) s = .next ((u : State).reply t (.version [0x12, 0x13])) ∧ (u.spdm t).stage = 1 ∧
      (u.spdm t).sessions = [] ∧ u = s.modSpdm t (fun _ => u.spdm t)) ∧
    (∀ c, c ∈ [Instr.getCsr t, .setCertificate t, .pskExchange t, .getKeyPairInfo t] →
      exec c s = .next (s.reply t .errUnsupportedRequest)) ∧
    (∀ v ct, 1 ≤ (s.spdm t).stage → exec (.getCapabilities t v ct) s =
      (if v = 0x12 ∨ v = 0x13 then .next ((s.modSpdm t (fun x => { x with stage := 2, ct })).reply t (.capabilities 20))
       else .next (s.reply t .errVersionMismatch))) ∧
    (∀ a h d e k, 2 ≤ (s.spdm t).stage → exec (.negotiateAlgorithms t a h d e k) s =
      (if a = false ∧ h = false ∧ d = false ∧ e = false ∧ k = false then .next (s.reply t .errInvalidRequest)
       else .next ((s.modSpdm t (fun x => { x with stage := 3 })).reply t (.algorithms
         ((if a then [.asymEcdsaP521] else []) ++ (if h then [.hashSha512] else []) ++ [.measSha512] ++
           (if d then [.dheSecp521r1] else []) ++ (if e then [.aeadAes256Gcm] else []) ++ (if k then [.keyScheduleSpdm] else [])))))) ∧
    (∀ v ct, (s.spdm t).stage < 1 → exec (.getCapabilities t v ct) s = .next (s.reply t .errUnexpectedRequest)) ∧
    (3 ≤ (s.spdm t).stage →
      exec (.getDigests t) s = .next (s.reply t (.digests (if s.canSign then some (sha512v Config.certChain) else none))) ∧
      (∀ off len, s.canSign = true → off < Config.certChain.length → len ≤ Config.spdmTransfer →
        exec (.getCertificate t 0 off len) s = .next (s.reply t (.certificate ((Config.certChain.drop off).take len)
          (Config.certChain.length - off - ((Config.certChain.drop off).take len).length)))) ∧
      (∀ slot off len, slot ≠ 0 ∨ s.canSign = false → exec (.getCertificate t slot off len) s = .next (s.reply t .errInvalidRequest))) ∧
    (∀ h n last ch, 2 ≤ (s.spdm t).stage → n = (s.spdm t).chunkNo → n ≠ 0 →
      let all := (s.spdm t).chunks ++ ch
      let u := (s.modSpdm t (fun x => { x with
        chunks := if last then [] else all, chunkNo := if last then 0 else n + 1 })).reply t (.chunkSendAck h n)
      (last = false → exec (.chunkSend t h n last ch) s = .next u) ∧
      (last = true → Config.spdmRequest all = some .getDigests → exec (.chunkSend t h n last ch) s = exec (.getDigests t) u) ∧
      (last = true → (∀ off len, Config.spdmRequest all = some (.getCertificate 0 off len) →
        exec (.chunkSend t h n last ch) s = exec (.getCertificate t 0 off len) u)) ∧
      (last = true → Config.spdmRequest all = none → exec (.chunkSend t h n last ch) s = .next (u.reply t .errInvalidRequest))) ∧
    (∀ h n, 2 ≤ (s.spdm t).stage → h + 1 = (s.spdm t).handle → n * Config.spdmTransfer < (s.spdm t).large.length →
      ∃ u last, exec (.chunkGet t h n) s =
        .next ((u : State).reply t (.chunkResponse h n last (((s.spdm t).large.drop (n * Config.spdmTransfer)).take Config.spdmTransfer))) ∧
        (last = true ↔ (s.spdm t).large.length ≤ n * Config.spdmTransfer + Config.spdmTransfer) ∧
        (u.spdm t).large = (if last then [] else (s.spdm t).large) ∧ u = s.modSpdm t (fun _ => u.spdm t)) ∧
    (∀ k r, 1 ≤ (s.spdm t).stage → (s.spdm t).notReady = some (k, r) →
      exec (.respondIfReady t k) s = .next ((s.modSpdm t (fun x => { x with notReady := none })).reply t r)))

/-- R473 Table 6, R475: signed answers and sessions. -/
def Obligations.SpdmSignedAndSessions : Prop :=
  ∀ (s : State) (t : Transport), Talks s t → 3 ≤ (s.spdm t).stage →
    (∀ nonce sum, s.canSign = true → sum = 0 ∨ sum = 0xFF →
      ∃ u sig, exec (.challenge t 0 sum nonce) s = .next u ∧
        Answers s u t (.challengeAuth (toLe 64 (sha512v Config.certChain).toNat) (s.summaryOf sum) sig)) ∧
    (∀ (idx : Byte) nonce, idx = 0xFF ∨ (1 ≤ idx.toNat ∧ idx.toNat ≤ 7) →
      let blocks := if idx = 0xFF then s.measBlocks else [(idx.toNat, SMap.getD s.meas.blocks idx.toNat 0)]
      exec (.getMeasurements t idx false nonce) s = .next (s.reply t (.measurements blocks none)) ∧
      (s.canSign = true → ∃ u sig, exec (.getMeasurements t idx true nonce) s = .next u ∧
        Answers s u t (.measurements blocks (some sig)))) ∧
    (∀ ex, s.canSign = true → (s.spdm t).sessions.length < 4 →
      ∃ u data sig, exec (.keyExchange t 0 ex false) s = .next u ∧
        Answers (s.modSpdm t (fun x => { x with sessions := x.sessions ++ [(x.nextSession, false)], nextSession := x.nextSession + 1 }))
          u t (.keyExchangeRsp (s.spdm t).nextSession data sig)) ∧
    (∀ slot ex, exec (.keyExchange t slot ex true) s = .next (s.reply t .errUnsupportedRequest)) ∧
    (∀ ex, s.canSign = true → 4 ≤ (s.spdm t).sessions.length → exec (.keyExchange t 0 ex false) s = .next (s.reply t .errSessionLimit)) ∧
    (∀ n, s.session t n = some false →
      exec (.finish t n true) s = .next ((s.modSpdm t (fun x => { x with
        sessions := x.sessions.map (fun e => if e.1 = n then (n, true) else e) })).reply t .finishRsp) ∧
      exec (.finish t n false) s = .next ((s.modSpdm t (fun x => { x with
        sessions := x.sessions.filter (fun e => e.1 != n) })).reply t .errDecrypt)) ∧
    (∀ n both, s.session t n = some true →
      exec (.heartbeat t n) s = .next (s.reply t .heartbeatAck) ∧
      exec (.keyUpdate t n both) s = .next (s.reply t .keyUpdateAck) ∧
      exec (.endSession t n) s = .next ((s.modSpdm t (fun x => { x with
        sessions := x.sessions.filter (fun e => e.1 != n) })).reply t .endSessionAck)) ∧
    (∀ n c, s.session t n ≠ some true → c ∈ [Instr.heartbeat t n, .keyUpdate t n true, .endSession t n] →
      exec c s = .next (s.reply t .errInvalidSession))

/-- R466, R467, R487, R488, R492. -/
def Obligations.SecurityControls : Prop :=
  (∀ (s : State) (path : Path), WritesAt s path (RegId.off .secCtl 0 0 0) →
    (s.fw.running.svn ≤ s.store.cur.svnFloor → exec (.secCommitSvn path) s = .next s) ∧
    (s.store.cur.svnFloor < s.fw.running.svn → ∃ t, exec (.secCommitSvn path) s = .next t ∧
      t.store = { s.store with dirty := true, cur := { s.store.cur with svnFloor := s.fw.running.svn } } ∧
      t.meas.count = s.meas.count + 1 ∧ t = { s with store := t.store, meas := t.meas }) ∧
    (s.boot.recovery = false → exec (.secRecover path) s = .next s) ∧
    (∀ bs, s.boot.recovery = true → isHost (s.reg .secRcvSrc 0 0 0).toNat = true →
      s.imageBytes (s.reg .secRcvSrc 0 0 0).toNat (s.reg .secRcvLen 0 0 0).toNat = some bs →
      ((imageOf bs).check s.store.cur.svnFloor = 0 →
        exec (.secRecover path) s = .next (coldReset 4 (s.setBankImage false (imageOf bs)))) ∧
      ((imageOf bs).check s.store.cur.svnFloor ≠ 0 → ∃ t, exec (.secRecover path) s = .next t ∧
        t = { s with store := { s.store with imgA := imageOf bs }, regs := t.regs } ∧
        t.regFld .secBootStatus 0 0 0 15 12 = (imageOf bs).check s.store.cur.svnFloor))) ∧
  (∀ (s : State) (path : Path) (v : W32), WritesAt s path (RegId.off .trcDev 0 0 0) →
    ∃ t, exec (.devLevelWrite path v) s = .next t ∧
      t.regFld .trcDev 0 0 0 1 0 = (if fld (v.setWidth 64) 1 0 = 3 then 2 else fld (v.setWidth 64) 1 0) ∧
      (t.regFld .trcDev 0 0 0 1 0 = s.regFld .trcDev 0 0 0 1 0 → t.meas = s.meas) ∧
      (t.regFld .trcDev 0 0 0 1 0 ≠ s.regFld .trcDev 0 0 0 1 0 → t.meas.count = s.meas.count + 1) ∧
      t = { s with regs := t.regs, store := t.store, meas := t.meas }) ∧
  (∀ (s : State) (path : Path) (v : W32), WritesAt s path (RegId.off .trcCtl 0 0 0) →
    ∃ t, exec (.traceEnable path v) s = .next t ∧
      t.regFld .trcCtl 0 0 0 1 1 = fld (v.setWidth 64) 1 1 ∧
      t.regFld .trcCtl 0 0 0 12 8 = max 1 (min 30 (fld (v.setWidth 64) 12 8)) ∧
      t.regFld .trcCtl 0 0 0 0 0 =
        (if v.getLsbD 0 = true ∧ ((s.reg .trcCtl 0 0 0).getLsbD 0 = true ∨ s.traceRingBad = false) then 1 else 0) ∧
      t.regFld .trcCtl 0 0 0 31 31 =
        (if v.getLsbD 0 = true ∧ (s.reg .trcCtl 0 0 0).getLsbD 0 = false ∧ s.traceRingBad = true then 1 else 0) ∧
      (v.getLsbD 0 = true → (s.reg .trcCtl 0 0 0).getLsbD 0 = false → s.traceRingBad = false →
        t.reg .trcRingProd 0 0 0 = 0 ∧ t.trcSeq = [] ∧ t.trcDrop = []) ∧
      t = { s with regs := t.regs, trcSeq := t.trcSeq, trcDrop := t.trcDrop, trcTok := t.trcTok })

/-- R319, R320: LINK_TRAINING, LINK_NARROW. -/
def Obligations.LinkTraining : Prop :=
  (∀ (s : State) (bad : BitVec 16) (rate : Fin 4), s.boot.powered = true → s.boot.perstLow = false →
    s.boot.linkUp = false → s.hub.linkLoopback = false → (s.boot.recovery = true ∨ 3 ≤ s.boot.stage) →
    let ctl := s.reg .hifLinkCtl 0 0 0
    let cap := if fld ctl 4 3 = 3 then 0 else fld ctl 4 3
    let top := if fld ctl 2 0 = 0 ∨ 3 < fld ctl 2 0 then 3 else fld ctl 2 0
    let count := ((List.range 16).filter (fun k => bad.getLsbD k)).length
    (∀ w rev, rate ≠ 0 → w < 3 → cap ≤ w → (∀ k ∈ lanesOf w rev, bad.getLsbD k = false) →
      (rev = true → ∃ k ∈ lanesOf w false, bad.getLsbD k = true) →
      (∀ w' r', cap ≤ w' → w' < w → ∃ k ∈ lanesOf w' r', bad.getLsbD k = true) →
      ∃ t, exec (.linkTraining bad rate) s = .next t ∧ t.boot.linkUp = true ∧
        t.regFld .hifLinkStatus 0 0 0 4 3 = w ∧ t.regFld .hifLinkStatus 0 0 0 2 0 = min top rate.val ∧
        t.regFld .hifLinkStatus 0 0 0 6 6 = (if rev then 1 else 0) ∧
        t.regFld .hifLinkStatus 0 0 0 5 5 = (if 2 ≤ min top rate.val then 1 else 0) ∧
        t.regFld .hifLinkStatus 0 0 0 20 16 = count ∧
        t = { s with regs := t.regs, boot := t.boot, hub := { s.hub with badLanes := bad } }) ∧
    (rate = 0 ∨ (∀ w' r', cap ≤ w' → w' < 3 → ∃ k ∈ lanesOf w' r', bad.getLsbD k = true) →
      ∃ t, exec (.linkTraining bad rate) s = .next t ∧ t.boot.linkUp = false ∧ t.boot.cfgReady = false ∧
        t.regFld .hifLinkStatus 0 0 0 4 3 = 3 ∧ t.regFld .hifLinkStatus 0 0 0 20 16 = count ∧
        t = { s with regs := t.regs, boot := t.boot, hub := { s.hub with badLanes := bad } })) ∧
  (∀ (s : State) (lane : Fin 16) (l0p : Bool), s.boot.linkUp = true → s.regFld .hifLinkStatus 0 0 0 4 3 < 3 →
    let w := s.regFld .hifLinkStatus 0 0 0 4 3
    let used := lanesOf w ((s.reg .hifLinkStatus 0 0 0).getLsbD 6)
    let bad := s.hub.badLanes ||| BitVec.ofNat 16 (2 ^ lane.val)
    let fits (w' : Nat) (r' : Bool) : Prop := w < w' ∧ ∀ k ∈ lanesOf w' r', bad.getLsbD k = false
    (lane.val ∉ used → exec (.linkNarrow lane l0p) s = .next s) ∧
    (∀ w' r', lane.val ∈ used → w' < 3 → fits w' r' → (r' = true → ¬ fits w' false) →
      (∀ w'' r'', w'' < w' → ¬ fits w'' r'') →
      ∃ t, exec (.linkNarrow lane l0p) s = .next t ∧ t.regFld .hifLinkStatus 0 0 0 4 3 = w' ∧
        t.regFld .hifLinkStatus 0 0 0 6 6 = (if r' then 1 else 0) ∧
        t.regFld .hifLinkStatus 0 0 0 2 0 = s.regFld .hifLinkStatus 0 0 0 2 0 ∧
        t.regFld .hifLinkStatus 0 0 0 20 16 = ((List.range 16).filter (fun k => bad.getLsbD k)).length ∧
        t.hub.badLanes = bad ∧
        (t.reg .hifLinkEvents 0 0 0).toNat = ((s.reg .hifLinkEvents 0 0 0).toNat + 1) % 2 ^ 32 ∧
        Degrades s t 0x0F 0xFF 0 ∧ t.boot = s.boot) ∧
    (lane.val ∈ used → (∀ w' r', w' < 3 → ¬ fits w' r') → s.boot.stage < 10 → s.boot.oos = false →
      s.hub.outOfService = false →
      ∃ t, exec (.linkNarrow lane l0p) s = .next t ∧ t.boot.linkUp = false ∧ t.boot.cfgReady = false ∧
        t.boot.oos = true ∧ t.regFld .secBootStatus 0 0 0 9 9 = 1 ∧ t.hub.outOfService = true ∧
        Recorded s t 4 0x0F 0xFF 0))

/-- R393, R490, R491, R494: the loop-back commands. -/
def Obligations.Loopbacks : Prop :=
  (∀ s : State, (s.boot.linkUp = true → s.hub.farEnd = false → ∃ t, exec .farendLoopbackEnter s = .next t ∧
      t.hub = { s.hub with farEnd := true } ∧
      (t.reg .hifLoopErr 0 0 0).toNat = ((s.reg .hifLoopErr 0 0 0).toNat + 1) % 2 ^ 32 ∧
      t = { s with regs := t.regs, hub := t.hub }) ∧
    exec .farendLoopbackExit s = .next { s with hub := { s.hub with farEnd := false } }) ∧
  (∀ (s : State) (path : Path) (depth : Fin 4) (sec : Byte), WritesAt s path (RegId.off .hifLoopback 0 0 0) → depth ≠ 0 →
    let good : Prop := depth ≠ 3 ∧ (∃ e, path = .henlan e) ∧ sec ≠ 0 ∧ s.hub.linkLoopback = false ∧ s.allCtxOff = true
    (good → ∃ t, exec (.hifLoopbackSelect path depth sec) s = .next t ∧ t.boot.linkUp = false ∧
      t.hub = { s.hub with linkLoopback := true, loopSince := s.now } ∧ t.regFld .hifLinkStatus 0 0 0 4 3 = 3 ∧
      t.reg .hifLoopback 0 0 0 = BitVec.ofNat 64 (depth.val + sec.toNat * 2 ^ 8) ∧
      t = { s with regs := t.regs, boot := t.boot, hub := t.hub }) ∧
    (¬ good → ∃ t, exec (.hifLoopbackSelect path depth sec) s = .next t ∧
      t.reg .hifLoopback 0 0 0 = setFld (s.reg .hifLoopback 0 0 0) 31 31 1 ∧ t = { s with regs := t.regs })) ∧
  (∀ (s : State) (errors : Nat), s.hub.linkLoopback = true → s.hub.takeover = false →
    s.hub.loopSince + s.regFld .hifLoopback 0 0 0 15 8 * 1000000000 ≤ s.now →
    ∃ t, exec (.pcieLoopbackEnd errors) s = .next t ∧ t.hub = { s.hub with linkLoopback := false } ∧
      (t.reg .hifLoopErr 0 0 0).toNat = ((s.reg .hifLoopErr 0 0 0).toNat + errors) % 2 ^ 32 ∧
      t.reg .hifLoopback 0 0 0 = setFld (s.reg .hifLoopback 0 0 0) 30 30 1 ∧ t = { s with regs := t.regs, hub := t.hub }) ∧
  (∀ (s : State) (path : Path) (p : PortId) (depth : Fin 8) (echoOk : Bool),
    WritesAt s path (RegId.off .lndLoopback (p.val / 2) (p.val % 2) 0) → depth ≠ 0 →
    let st := (s.fring (portRing p)).st
    let good : Prop := (depth = 4 ∧ st = .admitted ∧ echoOk = true) ∨
      (depth ≠ 4 ∧ depth.val ≤ 5 ∧ (st = .bypassed ∨ st = .loopTrained))
    (good → ∃ t, exec (.lndLoopbackSelect path p depth echoOk) s = .next t ∧
      t.reg .lndLoopback (p.val / 2) (p.val % 2) 0 = BitVec.ofNat 64 depth.val ∧
      (depth = 4 → (portRing p, decide (8 ≤ p.val)) ∈ t.fab.moved) ∧
      t = { s with regs := t.regs, fab := t.fab, out := t.out, acct := t.acct }) ∧
    (∀ b, depth = 4 → st = .admitted → s.nextOn s.ownAddr ((portRing p).val / 2) (decide (8 ≤ p.val)) = some b →
      ∃ t k, exec (.lndLoopbackSelect path p depth echoOk) s = .next t ∧ Out.packet k ∈ t.out ∧ k.kind = 0x13 ∧
        k.dst = BitVec.ofNat 16 b ∧ k.src = BitVec.ofNat 16 s.ownAddr ∧ k.crc = packetSum k) ∧
    (¬ good → ∃ t, exec (.lndLoopbackSelect path p depth echoOk) s = .next t ∧
      t.reg .lndLoopback (p.val / 2) (p.val % 2) 0 = setFld (s.reg .lndLoopback (p.val / 2) (p.val % 2) 0) 8 8 1 ∧
      t = { s with regs := t.regs, out := t.out, acct := t.acct } ∧ (depth ≠ 4 → t = { s with regs := t.regs }))) ∧
  (∀ (s : State) (path : Path) (d : Die) (m : Mc) (depth : Fin 4) (pc : Fin 32),
    WritesAt s path (RegId.off .mcLoopback d.val m.val 0) → depth ≠ 0 →
    ((depth = 3 → s.allCtxOff = true) → ∃ t, exec (.mcLoopbackSelect path d m depth pc) s = .next t ∧
      t.reg .mcLoopback d.val m.val 0 = BitVec.ofNat 64 (depth.val + pc.val * 2 ^ 4) ∧ t = { s with regs := t.regs }) ∧
    (depth = 3 → s.allCtxOff = false → ∃ t, exec (.mcLoopbackSelect path d m depth pc) s = .next t ∧
      t.reg .mcLoopback d.val m.val 0 = setFld (s.reg .mcLoopback d.val m.val 0) 31 31 1 ∧ t = { s with regs := t.regs })) ∧
  (∀ (s : State) (path : Path) (d : Die) (depth : Fin 4), WritesAt s path (RegId.off .medLoopback d.val 0 0) → depth ≠ 0 →
    ∃ t, exec (.medLoopbackSelect path d depth) s = .next t ∧
      t.reg .medLoopback d.val 0 0 = (if (s.freeStream d).isSome then BitVec.ofNat 64 depth.val
        else setFld (s.reg .medLoopback d.val 0 0) 31 31 1) ∧ t = { s with regs := t.regs }) ∧
  (∀ (s : State) (path : Path),
    (WritesAt s path (RegId.off .hifLoopback 0 0 0) → ∃ t, exec (.loopbackStop path (RegId.off .hifLoopback 0 0 0)) s = .next t ∧
      t.regFld .hifLoopback 0 0 0 1 0 = 0 ∧ t.hub = { s.hub with linkLoopback := false }) ∧
    (∀ p : PortId, WritesAt s path (RegId.off .lndLoopback (p.val / 2) (p.val % 2) 0) →
      ∃ t, exec (.loopbackStop path (RegId.off .lndLoopback (p.val / 2) (p.val % 2) 0)) s = .next t ∧
        t.reg .lndLoopback (p.val / 2) (p.val % 2) 0 = 0 ∧ (s.regFld .lndLoopback (p.val / 2) (p.val % 2) 0 2 0 = 4 →
          (portRing p, decide (8 ≤ p.val)) ∉ t.fab.moved)) ∧
    (∀ (d : Die) (m : Mc), WritesAt s path (RegId.off .mcLoopback d.val m.val 0) →
      ∃ t, exec (.loopbackStop path (RegId.off .mcLoopback d.val m.val 0)) s = .next t ∧
        t.regFld .mcLoopback d.val m.val 0 1 0 = 0 ∧ t = { s with regs := t.regs }) ∧
    (∀ d : Die, WritesAt s path (RegId.off .medLoopback d.val 0 0) →
      ∃ t, exec (.loopbackStop path (RegId.off .medLoopback d.val 0 0)) s = .next t ∧
        t.regFld .medLoopback d.val 0 0 1 0 = 0 ∧ t = { s with regs := t.regs })) ∧
  (∀ (s : State) (checked errors : Nat),
    (∀ (d : Die) (m : Mc), s.regFld .mcLoopback d.val m.val 0 1 0 ≠ 0 → s.regFld .mcLoopback d.val m.val 0 30 30 = 0 →
      ∃ t, exec (.loopbackPassDone (RegId.off .mcLoopback d.val m.val 0) checked errors) s = .next t ∧
        (t.reg .mcLoopErr d.val m.val 0).toNat = ((s.reg .mcLoopErr d.val m.val 0).toNat + errors) % 2 ^ 32 ∧
        t.regFld .mcLoopback d.val m.val 0 30 30 = 1 ∧
        (s.regFld .mcLoopback d.val m.val 0 1 0 = 3 → ∀ a, inHbm a = true → s.stackOf a = 4 * d.val + m.val → t.devRead a 1 = [0]) ∧
        (s.regFld .mcLoopback d.val m.val 0 1 0 ≠ 3 → t.mem = s.mem) ∧
        (∀ a, s.stackOf a ≠ 4 * d.val + m.val → t.devRead a 1 = s.devRead a 1)) ∧
    (∀ d : Die, s.regFld .medLoopback d.val 0 0 1 0 ≠ 0 → s.regFld .medLoopback d.val 0 0 30 30 = 0 →
      checked < 2 ^ 16 - s.regFld .medLoopResult d.val 0 0 15 0 → errors < 2 ^ 16 - s.regFld .medLoopResult d.val 0 0 31 16 →
      ∃ t, exec (.loopbackPassDone (RegId.off .medLoopback d.val 0 0) checked errors) s = .next t ∧
        t.regFld .medLoopResult d.val 0 0 15 0 = s.regFld .medLoopResult d.val 0 0 15 0 + checked ∧
        t.regFld .medLoopResult d.val 0 0 31 16 = s.regFld .medLoopResult d.val 0 0 31 16 + errors ∧
        t.regFld .medLoopback d.val 0 0 30 30 = 1 ∧ t = { s with regs := t.regs }) ∧
    (∀ p : PortId, s.regFld .lndLoopback (p.val / 2) (p.val % 2) 0 2 0 ≠ 0 →
      ∃ t, exec (.loopbackPassDone (RegId.off .lndLoopback (p.val / 2) (p.val % 2) 0) checked errors) s = .next t ∧
        (t.reg .lndLoopErr (p.val / 2) (p.val % 2) 0).toNat =
          ((s.reg .lndLoopErr (p.val / 2) (p.val % 2) 0).toNat + errors) % 2 ^ 32 ∧ t = { s with regs := t.regs }) ∧
    (∀ d : Die, s.regFld .medLoopback d.val 0 0 1 0 ≠ 0 → s.regFld .medLoopback d.val 0 0 30 30 = 0 →
      ∃ t, exec (.loopbackPassDone (RegId.off .medLoopback d.val 0 0) checked errors [.media d]) s = .next t ∧
        (t.die d).mediaOut = true ∧ Degrades s t 0x13 d.val 0 ∧ t.regFld .medLoopback d.val 0 0 30 30 = 1))

/-- R346, R348, R349, R353, R355: DISPATCH_START, DISPATCH_RESUME, PREEMPTION, SWITCH_STEP_DONE, DISPATCH_COMPLETE. -/
def Obligations.Dispatching : Prop :=
  (∀ (s : State) (seq : Nat) (y : Disp) (ce : List Nat), s.disp seq = some y → s.canStart y = true →
    (s.needsSwitch y = true →
      (y.st = .ready → ∃ t, exec (.dispatchStart seq ce) s = .next t ∧ Switching s t y [] ∧
        t = { s with regs := t.regs, disps := t.disps, switches := t.switches, dmaq := t.dmaq }) ∧
      (y.st = .preempted → ∃ t, exec (.dispatchResume seq) s = .next t ∧ Switching s t y [] ∧
        t = { s with regs := t.regs, disps := t.disps, switches := t.switches, dmaq := t.dmaq })) ∧
    (s.needsSwitch y = false →
      (y.st = .ready → ∃ t, exec (.dispatchStart seq ce) s = .next t ∧ RunsNow s t y ∧ t.switches = s.switches ∧
        (y.begun = false → y.role = 1 → t.chainOpen y.ctx y.handle y.group = true) ∧
        (y.deadline = none → t.arb.noDeadline = (y.ctx.val + 1) % 64)) ∧
      (y.st = .preempted → ∃ t, exec (.dispatchResume seq) s = .next t ∧ RunsNow s t y ∧ t.switches = s.switches ∧
        (y.deadline = none → t.arb.noDeadline = (y.ctx.val + 1) % 64)))) ∧
  (∀ (s : State) (seq : Nat) (x : Disp), s.disp seq = some x → x.waits = true → s.firstInOrder x = true →
    s.victims x ≠ [] → s.recovery = none → (∀ d ∈ x.dies, s.newelUp d = true) →
    ∃ t, exec (.preemption seq) s = .next t ∧
      (∀ y ∈ s.victims x, y.seq ≠ seq → (∀ z ∈ s.victims x, z.seq = y.seq → z = y) →
        ∃ z, t.disp y.seq = some z ∧ z.st = .preempted ∧ z.runTime = s.ranNs y) ∧
      (s.freeBut x ((s.victims x).map (fun y => y.seq)) = true → Switching s t x ((s.victims x).map (fun y => y.seq))) ∧
      (s.freeBut x ((s.victims x).map (fun y => y.seq)) = false → t.switches = s.switches)) ∧
  (∀ (s : State) (seq : Nat) (w : Switch) (y : Disp) (ce : List Nat), s.switches.find? (fun v => v.inSeq == seq) = some w →
    s.disp seq = some y → s.recovery = none → (∀ d ∈ w.dies, s.newelUp d = true) →
    (w.step = 0 → (∀ d ∈ w.dies, s.drained d = true) → (∀ n ∈ s.liveOuts w.dies y.ctx, s.dmaBusy n = false) → ∃ t, exec (.switchStepDone seq ce) s = .next t ∧
      (∀ v ∈ t.switches, v.inSeq = seq → v.step = 1) ∧ (∃ v ∈ t.switches, v.inSeq = seq ∧ v.step = 1) ∧
      (∀ d ∈ w.dies, ∀ q, (s.die d).run = some q → (s.disp q).isSome → (t.die d).run = none)) ∧
    (w.step = 1 → ∃ t, exec (.switchStepDone seq ce) s = .next t ∧ (∃ v ∈ t.switches, v.inSeq = seq ∧ v.step = 2) ∧
      (∀ d m, (d, m) ∈ w.outCtxs → s.liveState m d = true → d ∈ (t.ctx m).savedDies)) ∧
    (w.step = 2 → ∃ t, exec (.switchStepDone seq ce) s = .next t ∧ (∃ v ∈ t.switches, v.inSeq = seq ∧ v.step = 3) ∧
      (∀ d ∈ w.dies, d ∉ (t.ctx y.ctx).savedDies ∧ (t.die d).lastCtx = some y.ctx ∧ (t.die d).stale = false)) ∧
    (w.step = 3 → ∃ t, exec (.switchStepDone seq ce) s = .next t ∧ RunsNow s t y ∧ ∀ v ∈ t.switches, v.inSeq ≠ seq)) ∧
  (∀ (s : State) (seq : Nat) (y : Disp), (∃ x, s.desc seq = some x ∧ x.st ≠ .done) → s.disp seq = some y → y.st = .running → s.finished y = true →
    s.recovery = none → s.hub.takeover = false →
    ∃ t, exec (.dispatchComplete seq) s = .next t ∧ t.isDone seq = true ∧ t.disp seq = none ∧
      (∀ d ∈ y.dies, (t.die d).run = none) ∧
      (y.role = 3 → ∀ c ∈ t.chains, ¬ (c.ctx = y.ctx ∧ c.handle = y.handle ∧ c.group = y.group)))

/-- Context n's share of the µJ of domain x in an interval with account m: floor(E × a_n / A) (R414). -/
def shareOf (s : State) (dies : List DieMeas) (hub : Nat) (m : SMap Nat) (n : CtxId) (x : Nat) : Nat :=
  let a := ((domParts dies m x).2.find? (fun p => p.1 == n)).elim 0 (fun p => p.2)
  if s.ctxOpen n = false ∨ (domParts dies m x).1 = 0 then 0
  else (SMap.getD s.ledgerFrac x 0 + domNano dies hub m x) / 1000 * a / (domParts dies m x).1

/-- R397, R413 to R417, R419, R423: LEDGER_UPDATE, ECAL_REFINE. -/
def Obligations.EnergyLedger : Prop :=
  (∀ (s : State) (t0 : Nat) (m : SMap Nat) (rest : List (Nat × SMap Nat)) (dies : List DieMeas) (hub inA inB vA vB : Nat),
    s.boot.powered = true → s.hub.takeover = false → s.ledgerQ = (t0, m) :: rest → ledgerOk dies = true →
    let e := fun x => (SMap.getD s.ledgerFrac x 0 + domNano dies hub m x) / 1000
    let got := fun n => natSum (tab 89 (shareOf s dies hub m n))
    ∃ t, exec (.ledgerUpdate dies hub inA inB vA vB) s = .next t ∧ t.ledgerQ = rest ∧
      t.reg .pwrLedgerTime 0 0 0 = BitVec.ofNat 64 t0 ∧
      (∀ x, x < 89 → t.reg .pwrDomEnergy 0 x 0 = s.reg .pwrDomEnergy 0 x 0 + BitVec.ofNat 64 (e x) ∧
        SMap.getD t.ledgerFrac x 0 = (SMap.getD s.ledgerFrac x 0 + domNano dies hub m x) % 1000) ∧
      (∀ n, s.ctxOpen n = true →
        let w := max 1 (s.regFld .hifCtxSched 0 n.val 0 12 0) * 1000000
        let budget := (s.reg .hifCtxEnergyBudget 0 n.val 0).toNat
        let used := (s.ctx n).winUsed + got n
        let sum (c : Ctx) : Nat := c.coreE + c.hbmE + c.portE + c.mediaE
        t.reg .pwrCtxTotal 0 n.val 0 = s.reg .pwrCtxTotal 0 n.val 0 + BitVec.ofNat 64 (got n) ∧
        sum (t.ctx n) = sum (s.ctx n) + got n ∧ (t.ctx n).winStart = t0 / w * w ∧
        t.reg .pwrCtxWindow 0 n.val 0 = BitVec.ofNat 64 (t.ctx n).winUsed ∧
        (t0 / w * w ≠ (s.ctx n).winStart → (t.ctx n).winUsed = 0 ∧ (t.ctx n).exhausted = false) ∧
        (t0 / w * w = (s.ctx n).winStart → (t.ctx n).winUsed = used ∧
          (t.ctx n).exhausted = ((s.ctx n).exhausted || (decide (budget ≠ 0) && decide (budget ≤ used))))) ∧
      t.reg .pwrUnattr 0 0 0 = s.reg .pwrUnattr 0 0 0 +
        BitVec.ofNat 64 (natSum (tab 89 (fun x => e x - natSum ((List.finRange 64).map (fun n => shareOf s dies hub m n x))))) ∧
      t.reg .pwrInEnergyA 0 0 0 = s.reg .pwrInEnergyA 0 0 0 + BitVec.ofNat 64 inA ∧
      t.reg .pwrInEnergyB 0 0 0 = s.reg .pwrInEnergyB 0 0 0 + BitVec.ofNat 64 inB ∧
      t.regFld .pwrFeedStatus 0 0 0 9 0 = min vA 1023 ∧ t.regFld .pwrFeedStatus 0 0 0 19 10 = min vB 1023 ∧
      t.regFld .pwrFeedStatus 0 0 0 24 24 = (if s.boot.feedA = true ∧ 340 ≤ vA ∧ vA < 360 then 1 else 0) ∧
      t.regFld .pwrFeedStatus 0 0 0 26 26 = (if s.boot.feedA = true ∧ 480 < vA ∧ vA ≤ 500 then 1 else 0) ∧
      t = { s with regs := t.regs, ledgerFrac := t.ledgerFrac, ctxs := t.ctxs, disps := t.disps, out := t.out
                   ledgerQ := rest }) ∧
  (∀ (s : State) (t0 : Nat) (m : SMap Nat) (rest : List (Nat × SMap Nat)) (dies : List DieMeas) (hub inA inB vA vB : Nat)
    (y : Disp) (b : Nat), s.boot.powered = true → s.hub.takeover = false → s.ledgerQ = (t0, m) :: rest →
    ledgerOk dies = true → (∀ n, s.ctxOpen n = false) → s.disps = [y] → SMap.getD m (acRan y.seq) 0 ≠ 0 →
    y.capped = false → y.budget = some b →
    let e := y.energy + dispMicro y m (tab 89 (fun x => (SMap.getD s.ledgerFrac x 0 + domNano dies hub m x) / 1000))
    ∃ t, exec (.ledgerUpdate dies hub inA inB vA vB) s = .next t ∧
      t.disps = [{ y with energy := e, capped := decide (b ≤ e) }] ∧
      t.regFld .pwrEvents 0 0 0 31 24 =
        (if b ≤ e then min 255 (s.regFld .pwrEvents 0 0 0 31 24 + 1) else s.regFld .pwrEvents 0 0 0 31 24)) ∧
  (∀ (s : State) (vals : List Nat), s.hub.takeover = false → 10 ≤ s.boot.stage → vals.length = 19 →
    (∀ v ∈ vals, v < 65536) →
    (s.store.cur.ecalAt = none ∨ ∃ t0, s.store.cur.ecalAt = some t0 ∧ t0 + 86400 * 10 ^ 9 ≤ s.now) →
    ∃ t, exec (.ecalRefine vals) s = .next t ∧
      (∀ k v, vals[k]? = some v → t.regFld .pwrEcal 0 k 0 15 0 = v) ∧
      t.store = { s.store with dirty := true, cur := { s.store.cur with ecal := vals, ecalAt := some s.now } } ∧
      t = { s with regs := t.regs, store := t.store })

/-- R337, R481, R484: COUNTER_SAMPLE, HOLDOFF_EXPIRY. -/
def Obligations.TimedEvents : Prop :=
  (∀ (s : State) (n : CtxId) (d : Die) (t0 : Nat) (c : Counters), (s.die d).due = [(t0, n, c)] →
    (∀ e, e ≠ d → ∀ z ∈ (s.die e).due, z.2.1 ≠ n) → s.ctxOpen n = true → c.cyc.length = 5 →
    s.colls.flatMap (fun x => x.guards) = [] →
    let k := (s.ctx n).sampleSeq
    let a := (s.reg .trcCtxSampleBase 0 n.val 0).toNat + 128 * (k % 2 ^ s.regFld .trcCtxSampleCfg 0 n.val 0 4 0)
    ∃ t, exec (.counterSample n) s = .next t ∧ (t.ctx n).sampleSeq = (k + 1) % 2 ^ 32 ∧
      (t.die d).due = [] ∧ t.devRead a 128 =
        toLe 8 t0 ++ toLe 8 c.epoch.toNat ++ toLe 4 k ++ toLe 1 d.val ++
          toLe 1 ((if c.restored then 2 else 0) + (if c.paused then 4 else 0)) ++ toLe 2 0 ++ toLe 8 c.runNs ++
          toLe 8 c.stallNs ++ (c.cyc.map (toLe 8)).flatten ++ toLe 8 c.hbmRd ++ toLe 8 c.hbmWr ++ toLe 8 c.moveBytes ++
          toLe 8 c.replays ++ List.replicate 16 0 ∧
      (∀ x, x < a ∨ a + 128 ≤ x → t.devRead x 1 = s.devRead x 1) ∧
      (∀ m, m ≠ n → t.ctx m = s.ctx m) ∧
      t = { s with regs := t.regs, mem := t.mem, bad := t.bad, acct := t.acct, ctxs := t.ctxs, dies := t.dies }) ∧
  (∀ (s : State) (r : RingId) (t0 : Nat), (s.ring r).holdoffEnd = some t0 → t0 ≤ s.now → s.hub.takeover = false →
    ((s.ring r).held = true → s.hub.msixEnable = true → s.hub.msixFnMask = false →
      (s.reg .msixCtl 0 r.val 0).getLsbD 0 = false → ∃ t, exec (.holdoffExpiry r) s = .next t ∧ t.out = s.out ++ [.msix r.val] ∧
        (t.ring r).held = false ∧ (t.ring r).holdoffEnd = some (s.now + s.regFld .hifRingCfg 0 r.val 0 15 8 * 1000) ∧
        t = { s with out := t.out, rings := t.rings }) ∧
    ((s.ring r).held = false → ∃ t, exec (.holdoffExpiry r) s = .next t ∧ (t.ring r).holdoffEnd = none ∧
      t = { s with rings := t.rings }))

/-- R263, R265, R272, R279 to R284: SAMPLE_DECODE_START, SAMPLE_DECODE_DONE, SAMPLE_LATE, SAMPLE_DELIVER. -/
def Obligations.MediaSamples : Prop :=
  (∀ (s : State) (d : Die) (h : Fin 256) (claim : HeaderClaim) (m : Sample) (n : CtxId), s.nextSample d h = some (m, n) →
    s.hub.takeover = false →
    ∃ t, exec (.sampleDecodeStart d h claim) s = .next t ∧
      (s.staleSample (s.stream d h).block m = true →
        (decodesInter (sbCodec (s.stream d h).block) = true → s.readFault n m.src m.len = none) → t.isDone m.seq = true ∧ (∀ z ∈ (t.stream d h).queue, z.seq ≠ m.seq) ∧
        (t.reg .medStale d.val 0 0).toNat = ((s.reg .medStale d.val 0 0).toNat + 1) % 2 ^ 32) ∧
      (s.staleSample (s.stream d h).block m = false →
        t.freeCredits n (s.stream d h).block + 1 = s.freeCredits n (s.stream d h).block ∧
        (t.stream d h).started = (s.stream d h).started + 1 ∧
        ∃ z ∈ (t.stream d h).queue, z.seq = m.seq ∧ z.st = .decoding ∧ z.tStart = s.now ∧
          z.slot = (s.stream d h).started % sbSlots (s.stream d h).block ∧ z.refused = overClaim (s.stream d h).block claim)) ∧
  (∀ (s : State) (d : Die) (h : Fin 256) (k : Nat) (ev : DecodeEv) (m : Sample) (n : CtxId), s.running d h k = some (m, n) →
    m.tStart + lostNs m ev.abandonedUs ≤ s.now → (0 < ev.residue ∨ ev.abandonedUs = 0) →
    (2 ≤ ev.residue ∨ (s.stream d h).endReady m ev = true) →
    overBudget (s.stream d h) (s.now - m.tStart - lostNs m ev.abandonedUs) = false →
    ∃ t, exec (.sampleDecodeDone d h k ev) s = .next t ∧
      (2 ≤ ev.residue → (t.die d).mediaOut = true) ∧
      (ev.residue < 2 → s.readFault n m.src m.len = none →
        (∀ len, len ≤ sbSlotBytes (s.stream d h).block →
          s.writeFault n (sbOutAddr (s.stream d h).block + m.slot * sbSlotBytes (s.stream d h).block) len = none) →
        ∃ z ∈ (t.stream d h).queue, z.seq = m.seq ∧ z.st = .decoded ∧ z.slot = m.slot ∧ z.decodeUs = (s.now - m.tStart) / 1000)) ∧
  (∀ (s : State) (d : Die) (h : Fin 256) (k : Nat) (ev : DecodeEv) (m : Sample) (n : CtxId), s.running d h k = some (m, n) →
    m.tStart + lostNs m ev.abandonedUs ≤ s.now → (0 < ev.residue ∨ ev.abandonedUs = 0) → ev.residue ≤ 1 →
    (isAudio (sbCodec (s.stream d h).block) = true → (s.stream d h).prevReady m.seq = true) →
    overBudget (s.stream d h) (s.now - m.tStart - lostNs m ev.abandonedUs) = true →
    (∀ len, len ≤ sbSlotBytes (s.stream d h).block →
      s.writeFault n (sbOutAddr (s.stream d h).block + m.slot * sbSlotBytes (s.stream d h).block) len = none) →
    ∃ t, exec (.sampleLate d h k ev) s = .next t ∧ (t.stream d h).late = (s.stream d h).late + 1 ∧
      (decodesInter (sbCodec (s.stream d h).block) = true → (t.stream d h).refBad = true) ∧
      ∃ z ∈ (t.stream d h).queue, z.seq = m.seq ∧ z.st = .decoded ∧ z.late = true ∧ z.slot = m.slot) ∧
  (∀ (s : State) (d : Die) (h : Fin 256) (m : Sample) (n : CtxId), s.deliverable d h = some (m, n) →
    s.sem n (bits (sbFullSem (s.stream d h).block) 10 8) (bits (sbFullSem (s.stream d h).block) 7 0) + 1 < 2 ^ 32 →
    ∃ t, exec (.sampleDeliver d h) s = .next t ∧ t.isDone m.seq = true ∧ (t.stream d h).queue = (s.stream d h).queue.tail ∧
      t.sem n (bits (sbFullSem (s.stream d h).block) 10 8) (bits (sbFullSem (s.stream d h).block) 7 0) =
        s.sem n (bits (sbFullSem (s.stream d h).block) 10 8) (bits (sbFullSem (s.stream d h).block) 7 0) + 1 ∧
      (t.reg .medSamples d.val 0 0).toNat = ((s.reg .medSamples d.val 0 0).toNat + 1) % 2 ^ 32)

/-- R61, R64, R101 Table 2: a record that may issue takes effect, in the forms MM, MV, CONV, ATTB, ATTM, VEC, NORM, RED,
pooling, SORT, NMS, BOXD, LOAD, STORE, PREF, QSCL, DQSC, GNRM and RNGM; the effects are the model's functions of the
operands (R81, R112, R116, R158, R164, R178 and the rules of each record). -/
def Obligations.TileRecords : Prop :=
  ∀ (s : State) (d : Die) (c : LCore) (ev : RecEv) (i : Instr) (op : Nat) (ok : Nat → Bool) (eff : Env → State → State)
    (e : Env),
    (i, op, ok, eff) ∈ ([(.mm d c ev, opMM, anyRec, arrayEffect), (.mv d c ev, opMV, anyRec, arrayEffect),
      (.conv d c ev, opCONV, anyRec, arrayEffect), (.attb d c ev, opATTB, anyRec, attbEffect),
      (.attm d c ev, opATTM, anyRec, attmEffect), (.vec d c ev, opVEC, anyRec, vecEffect),
      (.norm d c ev, opNORM, anyRec, normEffect), (.red d c ev, opRED, fun r => decide (vFunc r < 0x10), redEffect),
      (.maxPool d c ev, opRED, fun r => vFunc r == 0x10, poolEffect),
      (.avgPool d c ev, opRED, fun r => vFunc r == 0x11, poolEffect), (.sort d c ev, opSORT, anyRec, sortEffect),
      (.nms d c ev, opNMS, anyRec, nmsEffect), (.boxd d c ev, opBOXD, anyRec, boxdEffect),
      (.load d c ev, opLOAD, anyRec, loadEffect), (.store d c ev, opSTORE, anyRec, storeEffect),
      (.pref d c ev, opPREF, anyRec, loadEffect), (.qsclQuantise d c ev, opQSCL, fun r => vFunc r == 0x01, quantEffect),
      (.qsclExpScan d c ev, opQSCL, fun r => vFunc r == 0x02, scanEffect), (.dqsc d c ev, opDQSC, anyRec, dqscEffect),
      (.gnrmPartial d c ev, opGNRM, fun r => vFunc r == 0x01, gnrmPartialEffect),
      (.gnrmFinish d c ev, opGNRM, fun r => vFunc r == 0x02, gnrmFinishEffect),
      (.gnrmClip d c ev, opGNRM, fun r => vFunc r == 0x03, gnrmClipEffect),
      (.rngmApply d c ev, opRNGM, fun r => vFunc r == 0x01, rngmApplyEffect),
      (.rngmRaw d c ev, opRNGM, fun r => vFunc r == 0x02, rngmRawEffect)] :
        List (Instr × Nat × (Nat → Bool) × (Env → State → State))) →
    Issues s d c op ok e →
    (ev = {} → ∃ t, exec i s = .next t ∧ t = effClear eff e (s.markIssued e) ∧ Stands e t ∧
      t = { s with free := t.free, regs := t.regs, mem := t.mem, bad := t.bad, disps := t.disps, reports := t.reports
                   cores := t.cores, dies := t.dies, trcSeq := t.trcSeq, trcDrop := t.trcDrop, trcTok := t.trcTok, acct := t.acct } ∧
      (∀ f p, (f, p) ≠ (e.d, e.p) → t.core f p = s.core f p) ∧
      (isEmptyRec e.r e.y.dims = true → rZfill e.r = false → t = effClear (fun _ u => u) e (s.markIssued e))) ∧
    (ev = { residue := 1 } → (s.markIssued e).residueChecked e = true → isEmptyRec e.r e.y.dims = false →
      exec i s = .next (effClear eff e ((s.markIssued e).countReplay e.d e.p))) ∧
    (∀ m, ev = { csum := some m } → unitOf op = .array → csumAction m ≠ 0 → isEmptyRec e.r e.y.dims = false →
      exec i s = .next (csumMismatch e m false (s.markIssued e)))

/-- R71 to R74, R79, R83: RUN_REPLAY, CORE_RETIRE_DONE, SPAD_BANK_MIGRATE, SPAD_BANK_SWITCH, ACC_ECC_THRESHOLD. Which
spare is taken first is the model's choice of log 92. -/
def Obligations.CoreRepair : Prop :=
  (∀ (s : State) (d : Die) (c : LCore) (e : Env), s.replayNext d c = some e →
    badMet (coreBase e.d.val e.p.val) (s.core e.d e.p).badLines (s.recReads e) = none →
    ∃ t, exec (.runReplay d c {}) s = .next t ∧ (t.core e.d e.p).replay = none ∧ (t.core e.d e.p).replayRun = 0 ∧
      (∀ x ∈ (t.core e.d e.p).queue, x.pos = e.x.pos → x.data = true) ∧
      t.reg .coreReplayCount e.d.val e.p.val 0 =
        BitVec.ofNat 64 (((s.reg .coreReplayCount e.d.val e.p.val 0).toNat + 1) % 2 ^ 32) ∧
      t = effClear effectOf e (((s.countReplay e.d e.p).modPlaced e.d e.p e.x.pos (fun x => { x with data := true })).modCore
        e.d e.p (fun k => { k with replay := none, replayRun := 0 }))) ∧
  (∀ (s : State) (d : Die) (p q : PCore), s.hub.takeover = false → (s.core d p).retireTo = some q →
    s.retireReady d p = true → q ≠ p → (∀ k, (s.core d k).retireWait = false) →
    ∃ t, exec (.coreRetireDone d p) s = .next t ∧ (t.core d q).role = .inService ∧
      (t.core d q).logical = (s.core d p).logical ∧ (t.core d q).queue = (s.core d p).queue ∧
      (t.core d q).accFlags = (s.core d p).accFlags ∧ t.fn (.core d q) = { s.fn (.core d q) with st := .on, en := true } ∧ (t.core d p).queue = [] ∧
      (t.core d p).logical = none ∧ (t.fn (.core d p)).st = .off ∧
      (∀ f k, f ≠ d ∨ (k ≠ p ∧ k ≠ q) → t.core f k = s.core f k) ∧
      ((s.core d p).thermalMove = true → (t.core d p).role = .spare ∧ (t.core d q).movedAt = some s.now ∧
        (t.reg .pwdThermalMoves d.val 0 0).toNat = ((s.reg .pwdThermalMoves d.val 0 0).toNat + 1) % 2 ^ 32 ∧
        t.store = s.store) ∧
      ((s.core d p).thermalMove = false → (t.core d p).role = .retired ∧
        RepairsAt s t (s.core d p).since kCore d.val p.val ∧
        (d.val, p.val) ∈ t.store.cur.spares.cores)) ∧
  (∀ (s : State) (d : Die) (p : PCore) (bank : Fin 32), s.fnIs (.core d p) .on = true → (s.core d p).stopped = false →
    eightCe (SMap.getD (s.core d p).ceTimes bank.val []) s.now = true →
    let v := s.reg .coreSpadMap d.val p.val 0
    ∃ t, exec (.spadBankMigrate d p bank) s = .next t ∧
      (fld v 5 0 = 0x3F → t.reg .coreSpadMap d.val p.val 0 = setFld (setFld v 5 0 bank.val) 6 6 1 ∧
        t = { s with regs := t.regs, cores := t.cores }) ∧
      (fld v 5 0 ≠ 0x3F → fld v 13 8 = 0x3F →
        t.reg .coreSpadMap d.val p.val 0 = setFld (setFld v 13 8 bank.val) 14 14 1 ∧
        t = { s with regs := t.regs, cores := t.cores }) ∧
      (fld v 5 0 ≠ 0x3F → fld v 13 8 ≠ 0x3F → Retiring s t d p)) ∧
  (∀ (s : State) (d : Die) (p : PCore) (spare : Fin 2),
    let v := s.reg .coreSpadMap d.val p.val 0
    fld v (8 * spare.val + 6) (8 * spare.val + 6) = 1 →
    ∃ t, exec (.spadBankSwitch d p spare) s = .next t ∧
      t.reg .coreSpadMap d.val p.val 0 = setFld v (8 * spare.val + 6) (8 * spare.val + 6) 0 ∧
      SMap.find t.store.cur.spares.spads (32 * d.val + p.val) =
        some (BitVec.ofNat 32 (setFld v (8 * spare.val + 6) (8 * spare.val + 6) 0).toNat) ∧
      RepairsAt s t (s.core d p).bankAt kSpadBank d.val p.val ∧ t.cores = s.cores) ∧
  (∀ (s : State) (d : Die) (p : PCore), s.fnIs (.core d p) .on = true → (s.core d p).stopped = false →
    eightCe (SMap.getD (s.core d p).ceTimes 32 []) s.now = true →
    ∃ t, exec (.accEccThreshold d p) s = .next t ∧ t = retireCore d p s ∧ Retiring s t d p)

/-- R121, R122, R228: ROT and HALO, sending and receiving, and RACC. -/
def Obligations.MovesBetweenCores : Prop :=
  (∀ (s : State) (d : Die) (c : LCore) (e : Env) (i : Instr) (op : Nat),
    (i, op) ∈ [(Instr.rotReceive d c, opROT), (.haloReceive d c, opHALO)] →
    s.candidate d c .move true = some e → e.x.op = op → isReceive e.r = true → s.mayIssue e = true →
    badMet (coreBase e.d.val e.p.val) (s.core e.d e.p).badLines ((s.markIssued e).recReads e) = none →
    ∃ t, exec i s = .next t ∧
      t.credits = s.credits ++ [{ op, seq := e.x.seq, rDie := d, rStream := e.x.stream
                                  sDie := ⟨rPeerDie e.r % 8, Nat.mod_lt _ (by decide)⟩, sStream := rPeer e.r, pos := e.x.pos }] ∧
      Stands e t ∧ (∀ x ∈ (t.core e.d e.p).queue, x.pos = e.x.pos → x.data = false) ∧
      t = { s with free := t.free, regs := t.regs, mem := t.mem, bad := t.bad, cores := t.cores, credits := t.credits
                   trcSeq := t.trcSeq, trcDrop := t.trcDrop, trcTok := t.trcTok, acct := t.acct }) ∧
  (∀ (s : State) (d : Die) (c : LCore) (e f : Env) (k : Credit) (i : Instr) (op : Nat),
    (i, op) ∈ [(Instr.rotSend d c {}, opROT), (.haloSend d c {}, opHALO)] →
    Issues s d c op isSend e → s.creditOf e = some k → s.recordAt k.rDie k.rStream k.seq k.pos = some f →
    s.clockRuns f.d (islCore f.p) = true → s.pathRuns (s.diePath e.d.val f.d.val) = true →
    ∃ t, exec i s = .next t ∧ t = effClear sendEffect e (s.markIssued e) ∧ t.credits = s.credits.erase k ∧ Stands e t ∧
      (∀ x ∈ (t.core f.d f.p).queue, x.pos = f.x.pos → x.data = true) ∧ t.reports = s.reports ∧ t.disps = s.disps) ∧
  (∀ (s : State) (d : Die) (c : LCore) (e : Env), Issues s d c opRACC anyRec e → s.raccReady e = true →
    ∃ t, exec (.racc d c {}) s = .next t ∧ t = effClear raccEffect e (s.markIssued e) ∧ Stands e t ∧
      (isEmptyRec e.r e.y.dims = true → t.combs = s.combs ∧ t.colls = s.colls))

/-- R123 to R127, R64: BAR, BAR_GENERATION_COMPLETE, WAIT, WAIT_SATISFIED, SIGNAL, BARRIER_WATCHDOG, RECORD_COMPLETE. -/
def Obligations.SyncRecords : Prop :=
  (∀ (s : State) (d : Die) (c : LCore) (e : Env), s.syncNext opBAR d c State.allBefore = some e →
    ∃ t, exec (.bar d c) s = .next t ∧ Stands e t ∧
      (∃ g ∈ (t.ctx e.x.ctx).bars, genOf e g = true ∧ (e.d.val, e.x.stream) ∈ g.issued) ∧
      ((s.ctx e.x.ctx).bars.any (genOf e) = false → (t.ctx e.x.ctx).bars = (s.ctx e.x.ctx).bars ++
        [{ id := syncId e.r % 64, seq := e.x.seq, die := if barScope e.r = 0 then some e.d else none, gen := e.x.gen
           issued := [(e.d.val, e.x.stream)], count := barCount e.r }]) ∧
      (∀ m, m ≠ e.x.ctx → t.ctx m = s.ctx m) ∧
      t = { s with free := t.free, regs := t.regs, mem := t.mem, bad := t.bad, ctxs := t.ctxs, cores := t.cores
                   trcSeq := t.trcSeq, trcDrop := t.trcDrop, trcTok := t.trcTok, acct := t.acct }) ∧
  (∀ (s : State) (n : CtxId) (d : Die) (id : Fin 64) (g : BarGen), s.barReady n d id.val = some g →
    ∃ t, exec (.barGenerationComplete n d id) s = .next t ∧ (t.ctx n).bars = (s.ctx n).bars.erase g ∧
      (∀ m ∈ g.issued, ∀ e, s.barRecord g m = some e → Gone e t) ∧ (∀ m, m ≠ n → t.ctx m = s.ctx m) ∧
      t = { s with free := t.free, regs := t.regs, mem := t.mem, bad := t.bad, ctxs := t.ctxs, cores := t.cores
                   trcSeq := t.trcSeq, trcDrop := t.trcDrop, trcTok := t.trcTok, acct := t.acct }) ∧
  (∀ (s : State) (d : Die) (c : LCore) (e : Env), s.syncNext opWAIT d c State.allIssued = some e →
    ∃ t, exec (.wait d c) s = .next t ∧ t = s.markIssued e ∧ Stands e t ∧ t.ctxs = s.ctxs) ∧
  (∀ (s : State) (d : Die) (c : LCore) (e : Env) (q : Nat), s.waiting d c opWAIT = some e → s.semGrant d = some (c.val, q) →
    let n := e.x.ctx
    let f := bits (syncId e.r) 10 8
    let i := bits (syncId e.r) 7 0
    ∃ t, exec (.waitSatisfied d c) s = .next t ∧ Gone e t ∧
      t.sem n f i = (if waitConsume e.r then s.sem n f i - syncValue e.r else s.sem n f i) ∧
      (∀ m g j, ¬ (m = n ∧ 256 * g + j = 256 * f + i) → t.sem m g j = s.sem m g j) ∧
      t = { s with free := t.free, regs := t.regs, mem := t.mem, bad := t.bad, ctxs := t.ctxs, arb := t.arb
                   cores := t.cores, trcSeq := t.trcSeq, trcDrop := t.trcDrop, trcTok := t.trcTok, acct := t.acct }) ∧
  (∀ (s : State) (d : Die) (c : LCore) (e : Env), s.syncNext opSIGNAL d c State.signalMay = some e →
    let n := e.x.ctx
    let f := bits (syncId e.r) 10 8
    let i := bits (syncId e.r) 7 0
    (s.sem n f i + syncValue e.r < 2 ^ 32 → ∃ t, exec (.signal d c) s = .next t ∧ Gone e t ∧
      t.sem n f i = s.sem n f i + syncValue e.r ∧
      (∀ m g j, ¬ (m = n ∧ 256 * g + j = 256 * f + i) → t.sem m g j = s.sem m g j) ∧ t.reports = s.reports) ∧
    (2 ^ 32 ≤ s.sem n f i + syncValue e.r → ∃ t, exec (.signal d c) s = .next t ∧
      t.reports = s.reports ++ [{ cause := causeSem, die := f, ctxs := [n], addr := 0 }] ∧ t.ctxs = s.ctxs)) ∧
  (∀ (s : State) (d : Die) (c : LCore) (e : Env), s.watchdogOver d c = some e → exec (.barrierWatchdog d c) s =
    .next { s with reports := s.reports ++ [{ cause := causeWatchdog, die := d.val, ctxs := [e.x.ctx], addr := 0 }] }) ∧
  (∀ (s : State) (d : Die) (c : LCore) (pos : Nat) (p : PCore) (x : Placed) (e : Env), s.phys d c = some p →
    (s.core d p).queue.find? (fun z => z.pos == pos) = some x → x.st = .issued → x.data = true → x.unit ≠ .sync →
    (s.die d).teaRun.map (fun z => (z.stream, z.pos)) ≠ some (x.stream, x.pos) → s.envOf d p x = some e →
    (s.clockRuns d (islCore p) = false → exec (.recordComplete d c pos) s = .next s) ∧
    (s.clockRuns d (islCore p) = true → ∃ t, exec (.recordComplete d c pos) s = .next t ∧
      (t.core d p).queue = (s.core d p).queue.filter (fun z => z.pos != pos) ∧
      t = { s with free := t.free, regs := t.regs, mem := t.mem, bad := t.bad, cores := t.cores
                   trcSeq := t.trcSeq, trcDrop := t.trcDrop, trcTok := t.trcTok, acct := t.acct }))

/-- R93, R95, R173, R175, R176, R191: TCONV, TCONV_COMPLETE, STAGING_FILL, VETCH_WALK_DONE. -/
def Obligations.TeaselAndVetch : Prop :=
  (∀ (s : State) (d : Die) (c : LCore) (e : Env), s.candidate d c .teasel = some e → e.x.op = opTCONV →
    s.tconvReady e = true →
    ((s.die d).teaselOut = false → s.fnIs (.teasel d) .on = true → s.clockRuns d islTeasel = true →
      (s.die d).teaRun = none →
      ∃ t, exec (.tconv d c {}) s = .next t ∧ t = tconvOnTeasel e {} s ∧ (t.die d).teaRun = some e.x ∧ Stands e t) ∧
    ((s.die d).teaselOut = true → s.coreIssues e = true →
      badMet (coreBase e.d.val e.p.val) (s.core e.d e.p).badLines ((s.markIssued e).recReads e) = none →
      ∃ t, exec (.tconv d c {}) s = .next t ∧ t = effClear tconvEffect e (s.markIssued e) ∧ Stands e t)) ∧
  (∀ (s : State) (d : Die) (x : Placed), (s.die d).teaRun = some x → s.clockRuns d islTeasel = true →
    ∃ t, exec (.tconvComplete d) s = .next t ∧ (t.die d).teaRun = none ∧
      (∀ p, s.holderOf d x = some p → ∀ z ∈ (t.core d p).queue, ¬ (z.pos = x.pos ∧ z.stream = x.stream ∧ z.seq = x.seq)) ∧
      t = { s with free := t.free, regs := t.regs, mem := t.mem, bad := t.bad, cores := t.cores, dies := t.dies
                   trcSeq := t.trcSeq, trcDrop := t.trcDrop, trcTok := t.trcTok, acct := t.acct }) ∧
  (∀ (s : State) (d : Die) (c : LCore) (e : Env), s.fillNext d c = some e → s.fillMay e = true →
    let ok := s.opd e (rB e.r 10 2)
    let ov := s.opd e (rB e.r 12 2)
    let pages := dedupKeep (pagesOf ok (e.v 1) ++ pagesOf ov (e.v 1))
    let hit := pages.filter (fun g => (s.tlbFind d e.x.ctx g).isSome)
    let ask := ((pages.filter (fun g => !hit.contains g)).filter
      (fun g => !(s.die d).walks.contains (e.x.ctx, g))).take (16 - (s.die d).walks.length)
    ((∀ g ∈ pages, (s.tlbFind d e.x.ctx g).isSome = true) →
      s.readsFault e.x.ctx (s.stageRuns e ok (e.v 1) ++ s.stageRuns e ov (e.v 1)) = none →
      ∃ t, exec (.stagingFill d c 0 []) s = .next t ∧
        (∀ x ∈ (t.core e.d e.p).queue, x.pos = e.x.pos → x.staged = true) ∧ t.reports = s.reports) ∧
    ((∃ g ∈ pages, s.tlbFind d e.x.ctx g = none) →
      ∃ t, exec (.stagingFill d c 0 []) s = .next t ∧
        (t.die d).walks = (s.die d).walks ++ ask.map (fun g => (e.x.ctx, g)) ∧
        t.reg .vetMisses d.val 0 0 = s.reg .vetMisses d.val 0 0 + BitVec.ofNat 64 ask.length ∧
        t = { s with regs := t.regs, cores := t.cores, dies := t.dies })) ∧
  (∀ (s : State) (d : Die) (n : CtxId) (va : Nat), (s.die d).walks.contains (n, vaPage va) = true →
    let root := SMap.getD (s.die d).roots n.val 0
    let at' := vaPage va * 65536
    s.newelUp d = true → (∀ r ∈ s.walkReads n root at', s.memRuns (some d) r.1 r.2 = true) →
    ∃ t, exec (.vetchWalkDone d n va []) s = .next t ∧ (t.die d).walks = (s.die d).walks.filter (fun w => w != (n, vaPage va)) ∧
      t = { s with regs := t.regs, dies := t.dies, reports := t.reports, acct := t.acct } ∧
      (match s.walk n root at' with
       | .page a => (∃ k ∈ (t.die d).tlb, k.ctx = n ∧ k.page = vaPage va ∧ k.addr = a) ∧ t.reports = s.reports
       | .memory a => t.reports = s.reports ++ [{ cause := causeMem, die := d.val, ctxs := [n], addr := a % 2 ^ 48 }]
       | .fails level reason =>
           t.reg .vetFaultAddr d.val 0 0 = BitVec.ofNat 64 at' ∧
           t.reg .vetFaultInfo d.val 0 0 = BitVec.ofNat 64 (n.val * 1024 + level * 256 + reason) ∧
           t.reports = s.reports ++ [{ cause := causeAddr, die := d.val, ctxs := [n], addr := at' % 2 ^ 48 }]))

/-- R289 to R297: SCRUB_READ, ROW_RETIRE, MIGRATION_SWITCH, HBM_LANE_REPAIR, PC_RETRAIN, PC_RETRAIN_DONE. -/
def Obligations.HbmUpkeep : Prop :=
  (∀ (s : State) (d : Die) (m : Mc) (block : Nat) (word : Fin 8) (found : ScrubFind), s.mcUp d m = true →
    (s.reg .mcScrubCtl d.val m.val 0).getLsbD 8 = true → s.scrubNextOk d m (256 * block + 32 * word) = true →
    let c := 256 * block + 32 * word
    let at' := Config.stackAddr (stackIx d m)
    let last : Prop := ∀ w < hbmWords, s.scrubLeft d m (32 * w) = true → at' (32 * w) ≤ at' c
    ∃ t, exec (.scrubRead d m block word found) s = .next t ∧
      (last → (t.mc d m).scrubLast = none ∧
        (t.reg .mcScrubPass d.val m.val 0).toNat = ((s.reg .mcScrubPass d.val m.val 0).toNat + 1) % 2 ^ 32) ∧
      (¬ last → (t.mc d m).scrubLast = some (at' c) ∧
        t.reg .mcScrubPass d.val m.val 0 = s.reg .mcScrubPass d.val m.val 0) ∧
      (found = .clean → c ∉ s.bad → t.bad = s.bad ∧ (¬ last → t.regs = s.regs)) ∧
      (found = .corrected → c ∉ s.bad → t.bad = s.bad ∧ t.reg .mcEccCe ((s.rowAt c).1 / 4 % 8) ((s.rowAt c).1 % 4) 0 =
        s.reg .mcEccCe ((s.rowAt c).1 / 4 % 8) ((s.rowAt c).1 % 4) 0 + 1) ∧
      (found = .uncorrectable ∨ c ∈ s.bad → c ∈ t.bad ∧
        t.reg .mcUeAddr (s.stackOf c / 4) (s.stackOf c % 4) 0 = BitVec.ofNat 64 (c % 2 ^ 48) ∧
        t.reg .mcEccUe (s.stackOf c / 4) (s.stackOf c % 4) 0 = s.reg .mcEccUe (s.stackOf c / 4) (s.stackOf c % 4) 0 + 1) ∧
      t = { s with regs := t.regs, bad := t.bad, mcs := t.mcs, acct := t.acct }) ∧
  (∀ (s : State) (d : Die) (m : Mc) (row : RowId), s.mcUp d m = true → (s.mc d m).mig = none →
    4 ≤ (recentCe (SMap.getD (s.mc d m).ceTimes (rowKey row) []) s.now).length →
    ∃ t, exec (.rowRetire d m row) s = .next t ∧
      (s.regFld .mcRetire d.val m.val 0 14 0 < 16384 → (t.mc d m).mig = some (false, rowKey row) ∧
        (t.mc d m).migAt = s.now ∧
        t.reg .mcMigrate d.val m.val 0 = BitVec.ofNat 64 (2 ^ 31) ∧ t = { s with regs := t.regs, mcs := t.mcs }) ∧
      (16384 ≤ s.regFld .mcRetire d.val m.val 0 14 0 → t.regFld .mcStatus d.val m.val 0 7 7 = 1 ∧
        Degrades s t kHbmRow d.val (stackIx d m) ∧ t.mcs = s.mcs)) ∧
  (∀ (s : State) (d : Die) (m : Mc) (key : Nat), s.mcUp d m = true →
    let rows := s.regFld .mcRetire d.val m.val 0 14 0
    let banks := s.regFld .mcRetire d.val m.val 0 19 15
    let bk := bankKeyOf key
    let n := SMap.getD (s.mc d m).retiredRows bk 0 + 1
    ((s.mc d m).mig = some (false, key) →
      ∃ t, exec (.migrationSwitch d m) s = .next t ∧ t.regFld .mcRetire d.val m.val 0 14 0 = (rows + 1) % 2 ^ 15 ∧
        SMap.getD (t.mc d m).retiredRows bk 0 = n ∧ RepairsAt s t (s.mc d m).migAt kHbmRow d.val (stackIx d m) ∧
        (t.mc d m).mig = (if 64 ≤ n ∧ banks < 31 then some (true, bk) else none)) ∧
    ((s.mc d m).mig = some (true, key) →
      ∃ t, exec (.migrationSwitch d m) s = .next t ∧ t.regFld .mcRetire d.val m.val 0 19 15 = (banks + 1) % 2 ^ 5 ∧
        (t.mc d m).bankRetired = (s.mc d m).bankRetired ++ [key] ∧ (t.mc d m).mig = none ∧
        (∀ e ∈ (t.mc d m).ceTimes, bankKeyOf e.1 ≠ key) ∧
        RepairsAt s t (s.mc d m).migAt kHbmBank d.val (stackIx d m))) ∧
  (∀ (s : State) (d : Die) (m : Mc) (pc : Fin 32) (lane : Nat), s.mcUp d m = true →
    let used := SMap.getD (s.mc d m).laneUsed pc.val 0
    ∃ t, exec (.hbmLaneRepair d m pc lane) s = .next t ∧
      (used < 2 → SMap.getD (t.mc d m).laneUsed pc.val 0 = used + 1 ∧
        t.regFld .mcLaneRepair d.val m.val 0 6 0 = (s.regFld .mcLaneRepair d.val m.val 0 6 0 + 1) % 2 ^ 7 ∧
        Repairs s t kHbmLane d.val (stackIx d m)) ∧
      (2 ≤ used → t.regFld .mcStatus d.val m.val 0 6 6 = 1 ∧
        t.regFld .mcLaneRepair d.val m.val 0 15 8 = min 255 (s.regFld .mcLaneRepair d.val m.val 0 15 8 + 1) ∧
        Degrades s t kHbmLane d.val (stackIx d m) ∧ t.mcs = s.mcs)) ∧
  (∀ (s : State) (d : Die) (m : Mc) (pc : Fin 32), s.mcUp d m = true → s.regFld .mcStatus d.val m.val 0 5 5 = 0 →
    s.retrainDue d m pc = true →
    ∃ t, exec (.pcRetrain d m pc) s = .next t ∧ t.regFld .mcStatus d.val m.val 0 5 5 = 1 ∧
      t.regFld .mcStatus d.val m.val 0 4 0 = pc.val ∧ t = { s with regs := t.regs }) ∧
  (∀ (s : State) (d : Die) (m : Mc), s.regFld .mcStatus d.val m.val 0 5 5 = 1 →
    ∃ t, exec (.pcRetrainDone d m) s = .next t ∧ t.regFld .mcStatus d.val m.val 0 5 5 = 0 ∧
      t.reg .mcRetrain d.val m.val 0 = s.reg .mcRetrain d.val m.val 0 + 1 ∧
      SMap.getD (t.mc d m).trained (s.regFld .mcStatus d.val m.val 0 4 0) (0, none) = (s.now, (s.mc d m).temp) ∧
      t = { s with regs := t.regs, mcs := t.mcs })

/-- R357 to R363: FAULT_POINT and the steps of RECOVERY_STEP_DONE. -/
def Obligations.JobFaults : Prop :=
  (∀ (s : State) (cause : Byte) (d : Die) (hubSide : Bool) (charged : List CtxId) (addr : Nat), s.hub.takeover = false →
    s.reports = [] → 1 ≤ cause.toNat → cause.toNat ≤ 4 → charged ≠ [] → (∀ n ∈ charged, s.ctxOpen n = true) →
    let die := if hubSide then 0 else d.val
    (s.recovery = none → ∃ t, exec (.faultPoint cause d hubSide charged addr) s = .next t ∧
      t.recovery = some { step := 0, cause, die, charged := dedupKeep charged, recorded := lowestCtx (dedupKeep charged)
                          t0 := s.now, skips := s.openSlots, hubSide } ∧
      t.reg .hifFaultInfo 0 0 0 =
        BitVec.ofNat 64 (cause.toNat + lowestCtx (dedupKeep charged) * 2 ^ 8 + die * 2 ^ 16) ∧
      t.reg .hifFaultAddr 0 0 0 = BitVec.ofNat 64 (if cause = 1 ∨ cause = 2 then addr % 2 ^ 48 else 0) ∧
      t = { s with regs := t.regs, recovery := t.recovery }) ∧
    (∀ v, s.recovery = some v → ∃ t, exec (.faultPoint cause d hubSide charged addr) s = .next t ∧
      t.regFld .hifFaultInfo 0 0 0 31 24 = min 255 (s.regFld .hifFaultInfo 0 0 0 31 24 + 1) ∧ t = { s with regs := t.regs })) ∧
  (∀ (s : State) (v : Recovery), s.hub.takeover = false → s.recovery = some v →
    (v.step = 0 → ∃ t, exec .recoveryStepDone s = .next t ∧ t.reg .hifFaultTime 0 0 0 = BitVec.ofNat 64 v.t0 ∧
      t.arb.grant = none ∧ t.recovery = some { v with step := 1 } ∧
      (∀ (l k : List (RingId × Nat × Nat)) (r : RingId) (head n : Nat), v.skips = l ++ (r, head, n) :: k →
        (∀ z ∈ k, z.1 ≠ r) → t.reg .hifRingHead 0 r.val 0 = BitVec.ofNat 64 ((head + n) % s.ringSize r)) ∧
      RecordedAt s t v.t0 2 kJobFault (if v.hubSide then hubDie else v.die) 0) ∧
    (v.step = 1 → ∃ t, exec .recoveryStepDone s = .next t ∧ t.recovery = some { v with step := 2 } ∧ t.disps = [] ∧
      t.switches = [] ∧ t.credits = [] ∧ t.colls = [] ∧ t.hops = [] ∧ (∀ q, t.dq q = []) ∧
      (∀ d p, (t.core d p).queue = [] ∧ (t.core d p).replay = none) ∧
      (∀ d, (t.die d).run = none ∧ (t.die d).teaRun = none ∧ (t.die d).walks = [])) ∧
    (v.step = 2 → ∃ t, exec .recoveryStepDone s = .next t ∧ t.recovery = some { v with step := 3 } ∧ t.chains = [] ∧
      (∀ p ∈ t.plans, p.st = .loaded) ∧ (∀ d, (t.die d).tlb = [] ∧ (t.die d).lastCtx = none) ∧
      (∀ n, s.ctxOpen n = true → (t.ctx n).bars = [] ∧ (t.ctx n).savedDies = [] ∧ ∀ f i, t.sem n f i = 0)) ∧
    (v.step = 3 → ∃ t, exec .recoveryStepDone s = .next t ∧ t.recovery = some { v with step := 4 } ∧
      (∀ x ∈ s.descs, t.isDone x.seq = true) ∧ ∀ n, (t.ctx n).evWait ≠ [] → (t.ctx n).evHold = true) ∧
    (v.step = 4 → s.hub.msixEnable = true → s.hub.msixFnMask = false → (s.reg .msixCtl 0 vecFault 0).getLsbD 0 = false →
      exec .recoveryStepDone s = .next { s with out := s.out ++ [.msix vecFault], recovery := some { v with step := 5 } }) ∧
    (5 ≤ v.step → v.loss = none → ∃ t, exec .recoveryStepDone s = .next t ∧ t.recovery = none ∧ t.reports = [] ∧
      (t.reg .hifFaultCount 0 0 0).toNat = ((s.reg .hifFaultCount 0 0 0).toNat + 1) % 2 ^ 32 ∧
      t = { s with regs := t.regs, reports := [], recovery := none }) ∧
    (∀ kind die unit, 5 ≤ v.step → v.loss = some (kind, die, unit) → ∃ t, exec .recoveryStepDone s = .next t ∧
      t.recovery = none ∧ t.hub.outOfService = true ∧ Recorded s t 4 kind die unit))

/-- R368, R372 to R377: PACKET_FORWARD, CODEWORD_LOSS, and what a packet for this module does by its KIND: ARM_RECEIVE,
CONTRIB_RECEIVE, END_RECEIVE, SHARD_RECEIVE, HOP_RECEIVE (R234 to R246), ROUTE_RECEIVE (R376). -/
def Obligations.FabricPackets : Prop :=
  (∀ (s : State) (p : PortId) (pkt : Packet), s.portCarries p = true → pkt.dst.toNat ≠ s.ownAddr →
    (∀ h, s.route pkt.src.toNat pkt.dst.toNat pkt.detoured = some h → ∃ out t, exec (.packetForward p pkt) s = .next t ∧
      t.out = s.out ++ [.forwarded (ringPort h.ring h.plus).val out] ∧ out.payload = pkt.payload ∧ out.dst = pkt.dst ∧
      out.src = pkt.src ∧ out.kind = pkt.kind ∧ out.rail = (h.ring.val % 2 == 1) ∧
      out.detoured = (pkt.detoured || h.detour) ∧ out.crc = pkt.crc ^^^ packetSum pkt ^^^ packetSum out ∧
      t = { s with regs := t.regs, out := t.out, acct := t.acct }) ∧
    (s.route pkt.src.toNat pkt.dst.toNat pkt.detoured = none → ∃ t, exec (.packetForward p pkt) s = .next t ∧
      (t.reg .fabUnreach 0 0 0).toNat = ((s.reg .fabUnreach 0 0 0).toNat + 1) % 2 ^ 32 ∧
      t.regFld .fabEvent 0 0 0 3 3 = 1 ∧ t = { s with regs := t.regs, out := t.out, hub := t.hub, acct := t.acct })) ∧
  (∀ (s : State) (p : PortId) (lane : Fin 9) (count : Nat), count ≠ 0 →
    ∃ t, exec (.codewordLoss p lane count) s = .next t ∧
      t.reg .lndFecUncorr (p.val / 2) (p.val % 2) 0 = s.reg .lndFecUncorr (p.val / 2) (p.val % 2) 0 + BitVec.ofNat 64 count ∧
      (t.reg .lndRetry (p.val / 2) (p.val % 2) 0).toNat =
        ((s.reg .lndRetry (p.val / 2) (p.val % 2) 0).toNat + 1) % 2 ^ 32 ∧ t = { s with regs := t.regs }) ∧
  (∀ (s : State) (pkt : Packet) (ce : List Nat) (i : Instr) (kind : Nat) (eff : Packet → State → State),
    (i, kind, eff) ∈ ([(.armReceive pkt, 0x01, armNote), (.contribReceive pkt ce, 0x02, contribNote ce),
      (.endReceive pkt ce, 0x03, endNote ce), (.shardReceive pkt, 0x04, shardNote), (.hopReceive pkt, 0x05, hopIn),
      (.routeReceive pkt, 0x10, routeReceive)] : List (Instr × Nat × (Packet → State → State))) →
    s.portCarries pkt.port = true → pkt.dst.toNat = s.ownAddr → s.hub.takeover = false →
    let rx := s.countRx pkt
    let a := pkt.group.toNat
    let b := pkt.bucket.toNat
    let q := pkt.step.toNat
    let k := pkt.index.toNat % 32
    (pkt.crc = packetSum pkt → pkt.kind.toNat = kind → ∃ t, exec i s = .next t ∧ t = eff pkt rx ∧
      (kind = 0x01 → ∃ z ∈ t.arms, z.group = a ∧ z.bucket = b ∧ z.step = q ∧ z.rank = pkt.asRank.toNat) ∧
      (kind = 0x02 ∨ kind = 0x03 → s.ownerRole pkt = none →
        (t.reg .mcRedLate (k / 4) (k % 4) 0).toNat = ((s.reg .mcRedLate (k / 4) (k % 4) 0).toNat + 1) % 2 ^ 32 ∧
        t = { s with regs := t.regs, acct := t.acct }) ∧
      (kind = 0x04 → (∀ c ∈ s.colls, bkGathers c.block = true → c.isOf a b q = false) → t = rx) ∧
      (∀ c, kind = 0x04 → s.colls = [c] → bkOp c.block = opAR → c.isOf a b q = true → pkt.index.toNat < bkUnits c.block →
        leAt pkt.payload 12 4 = 0 → c.arrived = [] → s.bad = [] →
        t.devRead (bkDst c.block + pkt.index.toNat * 128) 128 = slice (pkt.payload.drop 16) 0 128 ∧
          (t.coll c.seq).map (fun z => z.arrived) = some [pkt.index.toNat]) ∧
      (kind = 0x05 → s.hopColl pkt = none → t.hops = s.hops ++ [pkt] ∧
        t = { s with regs := t.regs, hops := t.hops, acct := t.acct }) ∧
      (kind = 0x10 → t.fab.downSegs = ((routeEntries pkt.payload).foldl (fun f e => viewEntry e.1 e.2.1 e.2.2 f) s.fab).downSegs ∧
        t.fab.admittedAddrs =
          ((routeEntries pkt.payload).foldl (fun f e => viewEntry e.1 e.2.1 e.2.2 f) s.fab).admittedAddrs) ∧
      (∀ tx lane, kind = 0x10 → routeEntries pkt.payload = [(6, tx, lane)] →
        let hi := if tx = 0 then 23 else 19
        t.regFld .lndPortStatus (pkt.port.val / 2) (pkt.port.val % 2) 0 hi (hi - 3) = lane % 16)) ∧
    (pkt.crc ≠ packetSum pkt ∨ kindDefined pkt.kind = false → ∃ t, exec i s = .next t ∧
      (t.reg .lndDrop (pkt.port.val / 2) (pkt.port.val % 2) 0).toNat =
        ((s.reg .lndDrop (pkt.port.val / 2) (pkt.port.val % 2) 0).toNat + 1) % 2 ^ 32 ∧
      t = { s with regs := t.regs, acct := t.acct }))

/-- A good packet of a KIND for this module. -/
def ForUs (s : State) (kind : Nat) (pkt : Packet) : Prop :=
  pktGood pkt = true ∧ pkt.dst.toNat = s.ownAddr ∧ pkt.kind.toNat = kind

/-- A packet of the module's own, with its CRC, to a neighbour by a side of a ring. -/
def Near (s : State) (i : FRing) (plus : Bool) (dst : Nat) (kind : Byte) (payload : List Byte) (k : Packet) : Prop :=
  k.dst = BitVec.ofNat 16 dst ∧ k.src = BitVec.ofNat 16 s.ownAddr ∧ k.kind = kind ∧ k.payload = payload ∧
    k.port = ringPort i plus ∧ k.crc = packetSum k

/-- R383 to R385, R371, R378: the ring states and the view, by ADMIT_RECEIVE, ADMIT_ACCEPT, ADMIT_WITHDRAW,
ADMIT_REQUEST_TIMEOUT, FAB_ADMIT_REQUEST, FAB_LEAVE_REQUEST, SWITCH_OPEN_REPORTED, SEGMENT_TRAINED, TRAINING_TIMEOUT,
SWITCH_CLOSED_REPORTED, SEGMENT_DOWN, SEGMENT_UP, NEIGHBOUR_LOSS. -/
def Obligations.FabricRings : Prop :=
  (∀ (s : State) (pkt : Packet), s.hub.takeover = false → s.boot.powered = true → ForUs s 0x11 pkt → askCode pkt = 0 →
    let i := askRing pkt
    let p := !askPlus pkt
    let c := coord pkt.src.toNat (i.val / 2)
    let dims := BitVec.ofNat 16 (leAt pkt.payload 4 2)
    (s.fring i).st = .admitted →
    (s.acceptsAdmit i p c dims = true → ∃ t l k, exec (.admitReceive pkt) s = .next t ∧ t.out = s.out ++ l ++ [.packet k] ∧
      Near s i p pkt.src.toNat 0x11 (askBytes 1 i (!p) 0) k ∧ (i, p) ∈ t.fab.moved ∧
      (i, p, pkt.src.toNat) ∈ t.fab.accepted ∧
      t = { s with regs := t.regs, fab := t.fab, out := t.out, acct := t.acct }) ∧
    (s.acceptsAdmit i p c dims = false → ∃ t k, exec (.admitReceive pkt) s = .next t ∧ t.out = s.out ++ [.packet k] ∧
      Near s i p pkt.src.toNat 0x11 (askBytes 2 i (!p) 0) k ∧
      t = { s with regs := t.regs, out := t.out, acct := t.acct })) ∧
  (∀ (s : State) (i : FRing), s.hub.takeover = false →
    (∀ minus plus : Packet, s.boot.powered = true → askRing minus = i → (s.fring i).st = .requested → s.portsOn i = true →
      s.accepts minus i false = true → s.accepts plus i true = true → ∃ t, exec (.admitAccept minus plus) s = .next t ∧
      t.fring i = { s.fring i with st := .switching, since := s.now } ∧ (∀ j, j ≠ i → t.fring j = s.fring j) ∧
      t.regFld .fabEvent 0 0 0 1 1 = 1 ∧
      t = { s with regs := t.regs, frings := t.frings, out := t.out, acct := t.acct }) ∧
    (∀ pkt : Packet, s.boot.powered = true → ForUs s 0x11 pkt → askRing pkt = i →
      (askCode pkt = 2 ∨ askCode pkt = 3) ∧ (s.fring i).st = .requested ∨ askCode pkt = 3 ∧ (s.fring i).st = .switching →
      s.fab.leaveQ = [] → i ∉ s.fab.admitQ → ∃ t, exec (.admitWithdraw pkt) s = .next t ∧
      t.fring i = { s.fring i with st := .loopTrained, since := s.now, reason := 1, closed := true }) ∧
    ((s.fring i).st = .requested → (s.fring i).since + 5000000 ≤ s.now → s.fab.leaveQ = [] → i ∉ s.fab.admitQ →
      ∃ t, exec (.admitRequestTimeout i) s = .next t ∧
        t.fring i = { s.fring i with st := .loopTrained, since := s.now, reason := 2 }) ∧
    ((s.fring i).st = .switching → s.portsOn i = true → ∃ t, exec (.switchOpenReported i) s = .next t ∧
      t.fring i = { s.fring i with st := .training, since := s.now, closed := false } ∧
      (∀ j, j ≠ i → t.fring j = s.fring j) ∧ t = { s with regs := t.regs, frings := t.frings, out := t.out }) ∧
    ((s.fring i).st = .training → s.segsShort i = true → s.portsOn i = true → s.fab.leaveQ = [] →
      ∃ t, exec (.segmentTrained i) s = .next t ∧
      t.fring i = { s.fring i with st := .admitted, since := s.now, plusUp := true, minusUp := true, reason := 0 } ∧
      (∀ p, s.segName i p ∉ t.fab.downSegs ∧ (i, p) ∉ t.fab.moved) ∧ t.regFld .fabEvent 0 0 0 0 0 = 1 ∧
      (s.fab.selfAdmitted = false → 1 < s.dimSize (i.val / 2) →
        (∀ j, j ≠ i → 1 < s.dimSize (j.val / 2) → (s.fring j).st = .admitted) →
        t.fab.selfAdmitted = true ∧ s.ownAddr ∈ t.fab.admittedAddrs)) ∧
    ((s.fring i).st = .training → (s.fring i).since + 30000000 ≤ s.now → ∃ t, exec (.trainingTimeout i) s = .next t ∧
      t.fring i = { s.fring i with st := .leaving, since := s.now, plusUp := false, minusUp := false, reason := 3 }) ∧
    ((s.fring i).st = .leaving → ∃ t, exec (.switchClosedReported i) s = .next t ∧ (t.fring i).closed = true ∧
      ((s.port (ringPort i false)).trained = false →
        t.fring i = { s.fring i with st := .bypassed, since := s.now, closed := true })) ∧
    (∀ plus, (s.fring i).st = .admitted → (if plus then (s.fring i).plusUp else (s.fring i).minusUp) = true →
      ∃ t, exec (.segmentDown i plus) s = .next t ∧
        t.fring i = (if plus then { s.fring i with plusUp := false } else { s.fring i with minusUp := false }) ∧
        s.segName i plus ∈ t.fab.downSegs ∧ t.regFld .fabEvent 0 0 0 0 0 = 1 ∧
        (∀ j, j ≠ i → t.fring j = s.fring j)) ∧
    (∀ plus, (s.fring i).st = .admitted → s.segLong s.ownAddr (i.val / 2) plus = false →
      ((if plus then (s.fring i).plusUp else (s.fring i).minusUp) = false ∨ s.fab.moved.contains (i, plus) = true) →
      ∃ t, exec (.segmentUp i plus) s = .next t ∧
        t.fring i = (if plus then { s.fring i with plusUp := true } else { s.fring i with minusUp := true }) ∧
        s.segName i plus ∉ t.fab.downSegs ∧ (i, plus) ∉ t.fab.moved ∧ t.regFld .fabEvent 0 0 0 0 0 = 1 ∧
        (∀ j, j ≠ i → t.fring j = s.fring j)) ∧
    (∀ plus packets, (s.fring i).st = .admitted → packets ≠ 0 → ∃ t, exec (.neighbourLoss i plus packets) s = .next t ∧
      (t.reg .fabLost 0 0 0).toNat = ((s.reg .fabLost 0 0 0).toNat + packets) % 2 ^ 32 ∧
      t.regFld .fabEvent 0 0 0 4 4 = 1 ∧ t = { s with regs := t.regs, out := t.out })) ∧
  (∀ (s : State) (path : Path) (v : W32) (i : FRing), WritesAt s path (RegId.off .fabAdmit 0 0 0) →
    (exec (.fabAdmitRequest path v) s = .next (fabAdmitWrite v s) ∧ exec (.fabLeaveRequest path v) s = .next (fabAdmitWrite v s)) ∧
    (s.fab.admitQ = [] → s.fab.leaveQ = [] → (∀ j, (s.fring j).st.moving = false) →
      ((s.fring i).st = .loopTrained → s.portsOn i = true → v = BitVec.ofNat 32 (2 ^ i.val) →
        ∃ t, exec (.fabAdmitRequest path v) s = .next t ∧ t.fring i = { s.fring i with st := .requested, since := s.now } ∧
          (∀ j, j ≠ i → t.fring j = s.fring j) ∧
          ∀ p b, s.nextOn s.ownAddr (i.val / 2) p = some b →
            ∃ k, Out.packet k ∈ t.out ∧ Near s i p b 0x11 (askBytes 0 i p (s.regFld .fabDims 0 0 0 15 0)) k) ∧
      ((s.fring i).st = .admitted → v = BitVec.ofNat 32 (2 ^ (8 + i.val)) →
        ∃ t, exec (.fabLeaveRequest path v) s = .next t ∧
          t.fring i = { s.fring i with st := .leaving, since := s.now, plusUp := false, minusUp := false, reason := 0 } ∧
          ∀ j, j ≠ i → t.fring j = s.fring j)))

/-- R386 to R393: TIME_RECEIVE, TIME_EXCHANGE, ECHO_RECEIVE, FABRIC_LANE_SPARE, LASER_SPARE. The bound on the
correction of the frequency is the model's choice of log 117, and the layout of the packets that of log 40. -/
def Obligations.FabricTimeAndSpares : Prop :=
  (∀ (s : State) (pkt : Packet) (arrival : Nat), s.portCarries pkt.port = true → ForUs s 0x12 pkt →
    let i := portRing pkt.port
    let plus := decide (8 ≤ pkt.port.val)
    let stamps := SMap.put s.fab.stamps (sideNo i plus) (leAt pkt.payload 0 8, arrival)
    (∀ ps m, s.upstream = some i → s.timeMaster = some m → s.plusFirst s.ownAddr m (i.val / 2) = plus →
      exchangeOffset pkt arrival = some ps →
      ∃ t, exec (.timeReceive pkt arrival) s = .next t ∧ t.reg .fabTimeOffset 0 0 0 = BitVec.ofNat 64 (unsgn 32 ps) ∧
      t.fab = { s.fab with stamps, lastOffset := some s.now, freq := t.fab.freq, locked := t.fab.locked, slew := t.fab.slew } ∧
      -freqMax ≤ t.fab.freq ∧ t.fab.freq ≤ freqMax ∧
      (-1000000 ≤ ps → ps ≤ 1000000 → t.fab.locked = true ∧ t.fab.slew = ps / 1000 ∧
        t = { s with regs := t.regs, fab := t.fab, acct := t.acct }) ∧
      ((ps < -1000000 ∨ 1000000 < ps) →
        ((∀ n, s.fnIs (.ctx n) .off = true) → t.now = ((s.now : Int) + ps / 1000).toNat ∧
          t.reg .fabTimeStep 0 0 0 = BitVec.ofInt 64 (ps / 1000) ∧ t.fab.locked = true ∧ t.fab.slew = 0 ∧
          t = { s with now := t.now, regs := t.regs, fab := t.fab, acct := t.acct }) ∧
        ((∃ n, s.fnIs (.ctx n) .off = false) → t.fab.locked = false ∧ t.fab.slew = ps / 1000 ∧
          t = { s with regs := t.regs, fab := t.fab, acct := t.acct }))) ∧
    (s.upstream ≠ some i ∨ exchangeOffset pkt arrival = none ∨
        (∀ m, s.timeMaster = some m → s.plusFirst s.ownAddr m (i.val / 2) ≠ plus) → ∃ t, exec (.timeReceive pkt arrival) s = .next t ∧
      t = { s with regs := t.regs, fab := { s.fab with stamps }, acct := t.acct })) ∧
  (∀ s : State, s.fab.lastExchange = none ∨ (∃ t0, s.fab.lastExchange = some t0 ∧ t0 + 1000000 ≤ s.now) →
    ∃ t, exec .timeExchange s = .next t ∧
      (∀ i p b, s.ownSegUp i p = true → s.nextOn s.ownAddr (i.val / 2) p = some b → ∃ k, Out.packet k ∈ t.out ∧
        Near s i p b 0x12 (timeBytes (s.now * 1000) (SMap.find s.fab.stamps (sideNo i p))) k) ∧
      t = { s with regs := t.regs, fab := { s.fab with lastExchange := some s.now }, out := t.out, acct := t.acct }) ∧
  (∀ (s : State) (pkt : Packet), s.hub.takeover = false → s.portCarries pkt.port = true → ForUs s 0x13 pkt →
    askCode pkt = 0 → (s.fring (askRing pkt)).st = .admitted →
    let p := !askPlus pkt
    ∃ t l k, exec (.echoReceive pkt) s = .next t ∧ (askRing pkt, p) ∈ t.fab.moved ∧
      t.out = s.out ++ l ++ [.packet k] ∧ Near s (askRing pkt) p pkt.src.toNat 0x13 (askBytes 1 (askRing pkt) (!p) 0) k ∧
      t = { s with regs := t.regs, fab := t.fab, out := t.out, acct := t.acct }) ∧
  (∀ (s : State) (p : PortId) (tx : Bool) (lane : Fin 8), s.fnIs (.port p) .off = false →
    let hi := if tx then 23 else 19
    let x := s.port p
    let n := if tx then min (x.txGood - 1) x.rxGood else min x.txGood (x.rxGood - 1)
    ∃ t, exec (.fabricLaneSpare p tx lane) s = .next t ∧
      t.port p = (if tx then { x with txGood := x.txGood - 1 } else { x with rxGood := x.rxGood - 1 }) ∧
      (s.regFld .lndPortStatus (p.val / 2) (p.val % 2) 0 hi (hi - 3) = 0xF →
        t.regFld .lndPortStatus (p.val / 2) (p.val % 2) 0 hi (hi - 3) = lane.val ∧
        Repairs s t kFabricLane (p.val / 2) p.val) ∧
      (s.regFld .lndPortStatus (p.val / 2) (p.val % 2) 0 hi (hi - 3) ≠ 0xF → n < 8 →
        Degrades s t kFabricLane (p.val / 2) p.val ∧
        (4 ≤ n → t.frings = s.frings) ∧
        (n < 4 → (s.fring (portRing p)).st = .admitted → s.fab.leaveQ = [] → s.fab.admitQ = [] →
          (∀ j, (s.fring j).st.moving = false) →
          (t.fring (portRing p)).st = .leaving ∧ (t.fring (portRing p)).reason = 5))) ∧
  (∀ (s : State) (p : PortId) (laser : Fin 5), s.fnIs (.port p) .off = false →
    ∃ t, exec (.laserSpare p laser) s = .next t ∧
      ((s.port p).lasersOut < 2 → (t.port p).lasersOut = (s.port p).lasersOut + 1 ∧
        t.regFld .lndPortStatus (p.val / 2) (p.val % 2) 0 25 24 = (s.port p).lasersOut + 1 ∧
        Repairs s t kLaser (p.val / 2) p.val ∧ t.frings = s.frings) ∧
      (2 ≤ (s.port p).lasersOut → (t.port p).txGood = (s.port p).txGood - 3 ∧
        (min ((s.port p).txGood - 3) (s.port p).rxGood < 8 → Degrades s t kLaser (p.val / 2) p.val)))

/-- Only one clock island has changed. -/
def OneIsland (s t : State) (d : Die) (x : Island) : Prop := ∀ e y, e ≠ d ∨ y ≠ x → t.island e y = s.island e y

/-- The adaptive rails of a die stand at what its islands need, and each island's regulator 60 mV below its rail at most
(R403). -/
def RailsSet (t : State) (d : Die) : Prop :=
  ∀ g ∈ adaptiveRails, SMap.find (t.die d).railMv (railIdx g) = some (t.railNeed d g) ∧
    ∀ y ∈ railIslands g, (t.island d y).setMv = max (t.island d y).needMv (t.railNeed d g - 60)

/-- The frequency of an island and what it needs are those of a clock step, the rails follow, and no other island of the
module changes but by its rail (R402, R403). -/
def Stepped (s t : State) (d : Die) (x : Island) (f : Nat) : Prop :=
  t.island d x = { s.island d x with
    freq := f, needMv := Config.stepMv d.val x.val (mhzStep f) + s.guardMv d x, setMv := (t.island d x).setMv } ∧
  (∀ y, y ≠ x → t.island d y = { s.island d y with setMv := (t.island d y).setMv }) ∧
  (∀ e, e ≠ d → t.die e = s.die e) ∧ RailsSet t d

/-- R397 to R400, R408, R435: FEED_DISCONNECT, FEED_RECONNECT, PHASE_FAIL, CLKGEN_SWITCH. -/
def Obligations.FeedsAndRails : Prop :=
  (∀ (s : State) (f g : Feed) (volt : Nat), s.boot.powered = true → s.feedUsed f = true → volt < 340 ∨ 500 < volt → g ≠ f →
    (s.feedUsed g = true → ∃ t, exec (.feedDisconnect f volt) s = .next t ∧ t.feedUsed f = false ∧ t.feedUsed g = true ∧
      t.regFld .pwrEvents 0 0 0 7 0 = min 255 (s.regFld .pwrEvents 0 0 0 7 0 + 1) ∧
      Degrades s t kFeed hubDie (if f = .a then 0 else 1) ∧
      (let k := if f = .a then 22 else 23
       t.regFld .pwrFeedStatus 0 0 0 k k = 0) ∧
      t = { s with free := t.free, regs := t.regs, out := t.out, store := t.store, hub := t.hub
                   boot := { s.boot with feedA := t.boot.feedA, feedB := t.boot.feedB } }) ∧
    (s.feedUsed g = false → ∃ t, exec (.feedDisconnect f volt) s = .next t ∧ t.boot.powered = false ∧ t.regs = [] ∧
      t.mem = [] ∧ t.descs = [] ∧ t.fns = [] ∧ t.hostMem = s.hostMem ∧
      t.out = s.out ++ withdrawals s.ownAddr s.fab.accepted)) ∧
  (∀ (s : State) (f : Feed) (volt : Nat), s.boot.powered = true → s.feedUsed f = false → 360 ≤ volt → volt ≤ 480 →
    ∃ t, exec (.feedReconnect f volt) s = .next t ∧ t.feedUsed f = true ∧ (∀ g, g ≠ f → t.feedUsed g = s.feedUsed g) ∧
      t.regFld .avlDegraded 0 0 0 kFeed kFeed = 0 ∧
      t.regFld .pwrEvents 0 0 0 7 0 = min 255 (s.regFld .pwrEvents 0 0 0 7 0 + 1) ∧
      (let k := if f = .a then 22 else 23
       t.regFld .pwrFeedStatus 0 0 0 k k = 1) ∧
      t = { s with regs := t.regs, boot := { s.boot with feedA := t.boot.feedA, feedB := t.boot.feedB } }) ∧
  (∀ (s : State) (d : Die) (g : Rail), s.hub.takeover = false → (if railHub g then s.boot.powered else s.dieUp d) = true →
    s.phasesOut d g < railN g + 2 →
    let out := s.phasesOut d g + 1
    let left := railN g + 2 - out
    ∃ t, exec (.phaseFail d g) s = .next t ∧
      (out ≤ 2 → Repairs s t kPhase (railDie d g) (railIdx g) ∧ t.phasesOut d g = out ∧ t.dies = s.dies ∧
        (∀ hi lo, railField g = some (hi, lo) → t.regFld .pwdPhases d.val 0 0 hi lo = left)) ∧
      (2 < out → railN g ≤ 2 * left ∨ (g ≠ .vhubA ∧ g ≠ .vhubB) → Degrades s t kPhase (railDie d g) (railIdx g)) ∧
      (2 < out → (railField g).isSome = true → t.regFld .pwdStatus d.val 0 0 (8 + railIdx g) (8 + railIdx g) = 1) ∧
      (2 < out → ∀ x ∈ railIslands g, (t.island d x).capRail = railCap d g left) ∧
      (2 < out → 2 * left < railN g → (∀ k, g ≠ .vcg k) → railHub g = false →
        (t.die d).lost = true ∧ (g = .vdm → (t.die d).railOn = false) ∧ d ∈ t.store.cur.spares.lostDies ∧
        ∀ e, e ≠ d → t.die e = s.die e) ∧
      (∀ b : Bool, 2 < out → 2 * left < railN g → g = (if b then Rail.vhubB else .vhubA) →
        (s.hub.activeB = b → s.hub.standbyOk = false → t.boot.powered = false) ∧
        (s.hub.activeB = b → s.hub.standbyOk = true → t.hub.takeover = true) ∧
        (s.hub.activeB ≠ b ∨ s.hub.standbyOk = true → (if b then t.hub.bFailed else t.hub.aFailed) = true ∧
          t.hub.standbyOk = false))) ∧
  (∀ (s : State) (d : Die), s.dieUp d = true →
    ((s.reg .pwdStatus d.val 0 0).getLsbD 0 = false → ∃ t, exec (.clkgenSwitch d) s = .next t ∧
      (t.reg .pwdStatus d.val 0 0).getLsbD 0 = true ∧ (t.die d).ctr.paused = true ∧ Repairs s t kClockGen d.val 0 ∧
      t.regFld .pwdEvents d.val 0 0 15 8 = min 255 (s.regFld .pwdEvents d.val 0 0 15 8 + 1)) ∧
    ((s.reg .pwdStatus d.val 0 0).getLsbD 0 = true → ∃ t, exec (.clkgenSwitch d) s = .next t ∧ (t.die d).lost = true ∧
      d ∈ t.store.cur.spares.lostDies ∧ ∀ e, e ≠ d → t.die e = s.die e))

/-- R390, R402 to R407: ISLAND_CLOCK_RAISE, ISLAND_CLOCK_LOWER, TIMING_MONITOR, DROOP_START, DROOP_END,
INPUT_CURRENT_STEP, POWER_CAP_STEP, DIE_TIME_CHECK. -/
def Obligations.ClocksAndCaps : Prop :=
  (∀ (s : State) (d : Die) (x : Island),
    ((s.island d x).freq < (s.effective d x).1 → ∃ t, exec (.islandClockRaise d x) s = .next t ∧
      Stepped s t d x (if (s.island d x).freq < 700 then 700 else (s.island d x).freq + 50) ∧
      t = { s with free := t.free, regs := t.regs, mem := t.mem, bad := t.bad, dies := t.dies, trcSeq := t.trcSeq
                   trcDrop := t.trcDrop, trcTok := t.trcTok, acct := t.acct }) ∧
    ((s.effective d x).1 < (s.island d x).freq → ∃ t, exec (.islandClockLower d x) s = .next t ∧
      (700 ≤ (s.effective d x).1 → Stepped s t d x (s.effective d x).1) ∧
      ((s.effective d x).1 < 700 → t.island d x = { s.island d x with freq := (s.effective d x).1 } ∧ OneIsland s t d x) ∧
      t = { s with free := t.free, regs := t.regs, mem := t.mem, bad := t.bad, dies := t.dies, trcSeq := t.trcSeq
                   trcDrop := t.trcDrop, trcTok := t.trcTok, acct := t.acct })) ∧
  (∀ (s : State) (d : Die) (need : List (Island × Nat)), (need.map (fun n => n.1)).Nodup →
    ∃ t, exec (.timingMonitor d need) s = .next t ∧ t = { s with dies := t.dies } ∧
      (∀ x mv, (x, mv) ∈ need →
        t.island d x = { s.island d x with needMv := mv + s.guardMv d x, setMv := (t.island d x).setMv }) ∧
      (∀ y, (∀ mv, (y, mv) ∉ need) → t.island d y = { s.island d y with setMv := (t.island d y).setMv }) ∧
      (∀ e, e ≠ d → t.die e = s.die e) ∧ RailsSet t d) ∧
  (∀ (s : State) (d : Die) (x : Island) (dropMv : Nat), 30 ≤ dropMv → (s.island d x).droop = false →
    s.islandOff d x = false → ∃ t, exec (.droopStart d x dropMv) s = .next t ∧
      t.island d x = { s.island d x with droop := true } ∧ OneIsland s t d x ∧
      (t.reg .pwdDroopCount d.val 0 0).toNat = ((s.reg .pwdDroopCount d.val 0 0).toNat + 1) % 2 ^ 32 ∧
      t = { s with regs := t.regs, dies := t.dies }) ∧
  (∀ (s : State) (d : Die) (x : Island) (cycles lastNs : Nat), (s.island d x).droop = true →
    ∃ t, exec (.droopEnd d x cycles lastNs) s = .next t ∧ (t.island d x).droop = false ∧ OneIsland s t d x ∧
      t.reg .pwdStretchCyc d.val 0 0 = s.reg .pwdStretchCyc d.val 0 0 + BitVec.ofNat 64 cycles ∧
      (100000 ≤ lastNs → s.now + 10 ^ 9 ∈ (t.island d x).raised) ∧
      (lastNs < 100000 → ∀ z ∈ (t.island d x).raised, z ∈ (s.island d x).raised) ∧
      t = { s with regs := t.regs, dies := t.dies }) ∧
  (∀ (s : State) (ma : Nat),
    (145000 < ma → s.stepDue s.hub.currentAt 10000 = true ∨ s.hub.currentDown = false →
      ∃ t, exec (.inputCurrentStep ma) s = .next t ∧ t = { s with regs := t.regs, hub := { s.hub with
          currentDown := true, currentAt := some s.now, currentCap := s.hub.currentCap - 1 } } ∧
        (s.hub.currentDown = true → t.regs = s.regs) ∧
        (s.hub.currentDown = false →
          t.regFld .pwrEvents 0 0 0 15 8 = min 255 (s.regFld .pwrEvents 0 0 0 15 8 + 1))) ∧
    (ma < 140000 → s.stepDue s.hub.currentAt 1000000 = true → exec (.inputCurrentStep ma) s = .next { s with hub := { s.hub with
      currentDown := false, currentAt := some s.now, currentCap := min 18 (s.hub.currentCap + 1) } }) ∧
    (ma < 140000 → s.stepDue s.hub.currentAt 1000000 = false → exec (.inputCurrentStep ma) s =
      .next { s with hub := { s.hub with currentDown := false } })) ∧
  (∀ (s : State) (w : Nat),
    let cap := s.regFld .pwrCap 0 0 0 12 0
    ∃ t, exec (.powerCapStep w) s = .next t ∧ t.reg .pwrInputW 0 0 0 = BitVec.ofNat 64 (min w 65535) ∧
      t = { s with regs := t.regs, hub := t.hub } ∧
      (cap < w → s.stepDue s.hub.powerAt 10000000 = true ∨ s.hub.powerDown = false →
        t.hub = { s.hub with powerDown := true, powerAt := some s.now, powerCap := s.hub.powerCap - 1 } ∧
        (s.hub.powerDown = false →
          t.regFld .pwrEvents 0 0 0 23 16 = min 255 (s.regFld .pwrEvents 0 0 0 23 16 + 1))) ∧
      (w * 100 < cap * 98 → s.stepDue s.hub.powerAt 100000000 = true →
        t.hub = { s.hub with powerDown := false, powerAt := some s.now, powerCap := min 18 (s.hub.powerCap + 1) }) ∧
      (w * 100 < cap * 98 → s.stepDue s.hub.powerAt 100000000 = false → t.hub = { s.hub with powerDown := false })) ∧
  (∀ (s : State) (offs : List (Die × Int)), s.boot.powered = true → (offs.map (fun o => o.1)).Nodup →
    ∃ t, exec (.dieTimeCheck offs) s = .next t ∧ t = { s with regs := t.regs } ∧
      ∀ d o, (d, o) ∈ offs → t.reg .timeDieOffset 0 d.val 0 = BitVec.ofNat 64 (unsgn 16 o))

/-- R410, R411: THERMAL_REPORT of an island and a stack, in units of 0.125 °C, THERMAL_CAP_STEP, THERMAL_MOVE. -/
def Obligations.Heat : Prop :=
  (∀ (s : State) (d : Die) (x : Island) (m : Mc) (a b : Int), s.held = [] →
    ∃ t, exec (.thermalReport d [(x, a)] [(m, b)]) s = .next t ∧
      t = { s with regs := t.regs, dies := t.dies, mcs := t.mcs, boot := t.boot } ∧
      (t.island d x).stopped = (if 800 ≤ a then true else if a < 720 then false else (s.island d x).stopped) ∧
      (760 ≤ a → (t.island d x).capThermal = 700 ∧ t.regFld .pwdIsland d.val x.val 0 31 16 = unsgn 16 a) ∧
      (760 ≤ a → a < 32768 → t.boot.thermAlert = true) ∧
      (800 ≤ a → (s.island d x).stopped = false →
        t.regFld .pwdEvents d.val 0 0 23 16 = min 255 (s.regFld .pwdEvents d.val 0 0 23 16 + 1)) ∧
      (t.mc d m).temp = some b ∧
      (t.mc d m).throttled = (if 760 ≤ b then true else if b < 720 then false else (s.mc d m).throttled) ∧
      OneIsland s t d x) ∧
  (∀ (s : State) (d : Die) (x : Island),
    (744 ≤ s.tempOf d x → s.stepDue (s.island d x).capAt 1000000 = true → ∃ t, exec (.thermalCapStep d x) s = .next t ∧
      t.island d x = { s.island d x with capThermal := max 700 ((s.island d x).capThermal - 50), capAt := some s.now } ∧
      OneIsland s t d x ∧ t = { s with dies := t.dies }) ∧
    (s.tempOf d x < 720 → s.stepDue (s.island d x).capAt 10000000 = true → ∃ t, exec (.thermalCapStep d x) s = .next t ∧
      t.island d x = { s.island d x with capThermal := min 1600 ((s.island d x).capThermal + 50), capAt := some s.now } ∧
      OneIsland s t d x ∧ t = { s with dies := t.dies })) ∧
  (∀ (s : State) (d : Die) (p q : PCore), s.coolSpare d p = some q → s.mayMove d p = true →
    ∃ t, exec (.thermalMove d p) s = .next t ∧
      t.core d p = { s.core d p with stopped := true, retireTo := some q, thermalMove := true } ∧
      (t.die d).moving = some p ∧ (∀ e k, e ≠ d ∨ k ≠ p → t.core e k = s.core e k) ∧ (∀ e, e ≠ d → t.die e = s.die e) ∧
      t = { s with cores := t.cores, dies := t.dies })

/-- R432, R434, R435, R437, R438: GALLERY_BANK_MIGRATE, GALLERY_BANK_SWITCH, BRIDGE_FAIL, NEWEL_FAIL, TWIN_TAKEOVER_DONE,
STANDBY_TWIN_FAULT, DIE_UNIT_FAILURE. -/
def Obligations.DieAvailability : Prop :=
  (∀ (s : State) (d : Die) (bank : Fin 64), s.dieUp d = true → s.hub.takeover = false → 8 ≤ s.boot.stage →
    eightCe (SMap.getD (s.die d).galCe bank.val []) s.now = true →
    (∀ k, k < 4 → s.galSub d k = 0x7F → (∀ j, j < k → s.galSub d j ≠ 0x7F) →
      ∃ t, exec (.galleryBankMigrate d bank) s = .next t ∧ t.galSub d k = bank.val ∧
        t.regFld .galSpareMap d.val 0 0 (8 * k + 7) (8 * k + 7) = 1 ∧
        (∀ j, j < 4 → j ≠ k → t.galSub d j = s.galSub d j) ∧
        t.die d = { s.die d with
          galCe := SMap.del (s.die d).galCe bank.val, galAt := SMap.put (s.die d).galAt k s.now } ∧
        (∀ e, e ≠ d → t.die e = s.die e) ∧
        t = { s with regs := t.regs, dies := t.dies }) ∧
    ((∀ k, k < 4 → s.galSub d k ≠ 0x7F) → ∃ t, exec (.galleryBankMigrate d bank) s = .next t ∧
      Degrades s t kGalleryBank d.val 0 ∧ ∀ k, t.galSub d k = s.galSub d k)) ∧
  (∀ (s : State) (d : Die) (k : Fin 4), s.hub.takeover = false →
    s.regFld .galSpareMap d.val 0 0 (8 * k.val + 7) (8 * k.val + 7) = 1 →
    ∃ t, exec (.galleryBankSwitch d k) s = .next t ∧
      t.regFld .galSpareMap d.val 0 0 (8 * k.val + 7) (8 * k.val + 7) = 0 ∧ t.galSub d k.val = s.galSub d k.val ∧
      RepairsAt s t (SMap.getD (s.die d).galAt k.val s.now) kGalleryBank d.val 0 ∧
      SMap.find t.store.cur.spares.gallery d.val = some (BitVec.ofNat 32 (t.reg .galSpareMap d.val 0 0).toNat)) ∧
  (∀ (s : State) (b : Bridge), s.boot.powered = true → 6 ≤ s.boot.stage → s.hub.bridges.contains b = false →
    let k := bridgeKind b
    ∃ t, exec (.bridgeFail b) s = .next t ∧ t.hub.bridges = s.hub.bridges ++ [b] ∧
      (s.hub.bridges = [] → Degrades s t k.1 hubDie k.2) ∧
      (s.hub.bridges ≠ [] → 10 ≤ s.boot.stage → s.hub.outOfService = false → s.boot.oos = false → s.recovery = none →
        t.recovery.map (fun v => v.loss) = some (some (k.1, hubDie, k.2))) ∧
      (s.hub.bridges ≠ [] → s.boot.stage < 10 → s.hub.outOfService = false → s.boot.oos = false →
        t.boot.oos = true ∧ t.regFld .secBootStatus 0 0 0 9 9 = 1 ∧ Recorded s t 4 k.1 hubDie k.2)) ∧
  (∀ (s : State) (d : Die), s.dieUp d = true →
    ((s.die d).twin = .standby → (s.die d).takeover = false → ∃ t, exec (.newelFail d) s = .next t ∧
      t.die d = { s.die d with
        takeover := true, takeAt := s.now, newelOn := false, ctr := { (s.die d).ctr with paused := true } } ∧
      (∀ e, e ≠ d → t.die e = s.die e) ∧ t = { s with dies := t.dies }) ∧
    ((s.die d).twin ≠ .standby → (s.die d).takeover = false → ∃ t, exec (.newelFail d) s = .next t ∧
      (t.die d).lost = true ∧ d ∈ t.store.cur.spares.lostDies) ∧
    ((s.die d).takeover = true → ∃ t, exec (.newelFail d) s = .next t ∧ t.die d = { s.die d with newelAgain := true } ∧
      (∀ e, e ≠ d → t.die e = s.die e) ∧ t = { s with dies := t.dies }) ∧
    ((s.die d).twin = .standby → (s.die d).takeover = false → ∃ t, exec (.standbyTwinFault d) s = .next t ∧
      t.die d = { s.die d with twin := .failed } ∧ (∀ e, e ≠ d → t.die e = s.die e) ∧ Degrades s t kNewel d.val 0)) ∧
  (∀ (s : State) (d : Die), (s.die d).takeover = true → (s.die d).newelOn = false → (s.die d).lost = false →
    ∃ t, exec (.twinTakeoverDone d) s = .next t ∧ (∀ e, e ≠ d → t.die e = s.die e) ∧
      RepairsAt s t (s.die d).takeAt kNewel d.val 0 ∧ t.regFld .avlDegraded 0 0 0 kNewel kNewel = 1 ∧
      ((s.die d).newelAgain = false → t.die d = { s.die d with takeover := false, twin := .active, tlb := [] }) ∧
      ((s.die d).newelAgain = true → t.die d = { s.die d with
        takeover := false, twin := .active, tlb := [], newelAgain := false, lost := true })) ∧
  (∀ (s : State) (d : Die) (u : DieUnit), (s.die d).railOn = true → (s.die d).lost = false →
    ∃ t, exec (.dieUnitFailure d u) s = .next t ∧ (t.die d).lost = true ∧ d ∈ t.store.cur.spares.lostDies ∧
      (∀ e, e ≠ d → t.die e = s.die e) ∧
      (10 ≤ s.boot.stage → s.hub.outOfService = false → s.boot.oos = false → s.recovery = none →
        t.recovery.map (fun v => v.loss) = some (some (kDieLost, d.val, dieUnitNo u))))

/-- R439 to R444: HUB_HALF_FAIL, HUB_TAKEOVER_DONE, HUB_SWAP, STANDBY_HALF_FAIL, STORE_WRITE, STORE_WRITE_DONE. -/
def Obligations.HubHalvesAndStore : Prop :=
  (∀ s : State, s.boot.powered = true → 3 ≤ s.boot.stage →
    (s.hub.takeover = true → exec .hubHalfFail s = .next { s with hub := { s.hub with again := true } }) ∧
    (s.hub.standbyOk = true → s.hub.takeover = false → ∃ t, exec .hubHalfFail s = .next t ∧ t.hub.takeover = true ∧
      t.hub.takeAt = s.now ∧ t.hub.requested = false ∧ t.hub.standbyOk = false ∧ t.hub.activeB = s.hub.activeB ∧
      (if s.hub.activeB then t.hub.bFailed = true ∧ t.store.cur.spares.hubBFailed = true ∧ t.hub.aFailed = s.hub.aFailed
       else t.hub.aFailed = true ∧ t.store.cur.spares.hubAFailed = true ∧ t.hub.bFailed = s.hub.bFailed) ∧
      t.store.writing = none ∧ t = { s with hub := t.hub, store := t.store }) ∧
    (s.hub.standbyOk = false → s.hub.takeover = false → ∃ t, exec .hubHalfFail s = .next t ∧ t.boot.powered = false ∧
      t.regs = [] ∧ t.mem = [] ∧ t.fns = [] ∧ t.hostMem = s.hostMem)) ∧
  (∀ s : State, s.hub.takeover = true → s.held = [] → s.descs = [] → s.hub.answers = [] → s.hub.again = false →
    ∃ t, exec .hubTakeoverDone s = .next t ∧
    t.hub = { s.hub with
      activeB := !s.hub.activeB, takeover := false, requested := false, standbyOk := s.hub.requested, msixHeld := [] } ∧
    (∀ v ∈ s.hub.msixHeld, s.hub.msixEnable = true → s.hub.msixFnMask = false →
      (s.reg .msixCtl 0 v 0).getLsbD 0 = false → Out.msix v ∈ t.out) ∧
    t.meas.count = s.meas.count + 1 ∧ RepairsAt s t s.hub.takeAt kHubHalf hubDie 0 ∧
    (s.hub.requested = false → t.regFld .avlDegraded 0 0 0 kHubHalf kHubHalf = 1) ∧
    (s.hub.requested = true → t.reg .avlDegraded 0 0 0 = s.reg .avlDegraded 0 0 0)) ∧
  (∀ (s : State) (path : Path), WritesAt s path (RegId.off .avlCtl 0 0 0) →
    (s.hub.standbyOk = true → ∃ t, exec (.hubSwap path) s = .next t ∧
      t.hub = { s.hub with takeover := true, requested := true, takeAt := s.now } ∧ t.store.writing = none ∧
      t = { s with hub := t.hub, store := t.store }) ∧
    (s.hub.standbyOk = false → exec (.hubSwap path) s = .next s)) ∧
  (∀ s : State, s.hub.standbyOk = true → s.hub.takeover = false → ∃ t, exec .standbyHalfFail s = .next t ∧
    t.hub.standbyOk = false ∧ t.hub.activeB = s.hub.activeB ∧ t.hub.takeover = false ∧
    (if s.hub.activeB then t.hub.aFailed = true else t.hub.bFailed = true) ∧ Degrades s t kHubHalf hubDie 0) ∧
  (∀ s : State, s.boot.powered = true → s.hub.takeover = false → s.store.dirty = true → s.store.writing = none →
    2 ≤ s.boot.stage → ∃ t, exec .storeWrite s = .next t ∧ t = { s with store := t.store } ∧ t.store.dirty = false ∧
      t.store.written = s.store.cur ∧ t.store.cur = s.store.cur ∧
      (s.store.b.valid = true → (s.store.a.valid = false ∨ s.store.a.seq < s.store.b.seq) →
        t.store.writing = some false ∧ t.store.b = s.store.b ∧ t.store.a.valid = false) ∧
      (s.store.a.valid = true → (s.store.b.valid = false ∨ s.store.b.seq ≤ s.store.a.seq) →
        t.store.writing = some true ∧ t.store.a = s.store.a ∧ t.store.b.valid = false) ∧
      (s.store.a.valid = false → s.store.b.valid = false → t.store.writing = some false)) ∧
  (∀ (s : State) (b : Bool), s.store.writing = some b → s.hub.takeover = false →
    ∃ t, exec .storeWriteDone s = .next t ∧ t = { s with store := t.store } ∧ t.store.writing = none ∧
      t.store.cur = s.store.cur ∧ t.store.dirty = s.store.dirty ∧
      (b = true → t.store.a = s.store.a ∧
        t.store.b = { valid := true, seq := s.store.newestSeq + 1, data := s.store.written }) ∧
      (b = false → t.store.b = s.store.b ∧
        t.store.a = { valid := true, seq := s.store.newestSeq + 1, data := s.store.written }))

/-- RESULT of AVL_FW_STATUS. -/
def fwResult (s : State) : Nat := s.regFld .avlFwStatus 0 0 0 11 8

/-- A rollback has begun: the units switched so far are to go back in reverse order, the hub's halves last where they had
changed over (R449). A hand-over under way is taken back. -/
def Undoes (s t : State) (result : Nat) : Prop :=
  t.fw = { s.fw with act := .undo s.fw.switched.reverse (decide (s.fw.act ≠ .standbyLoading)) result } ∧
  ((∀ d, s.fw.act ≠ .handing d) → t = { s with fw := t.fw }) ∧
  ∀ d : Die, s.fw.act = .handing d.val → (s.die d).newelAgain = false →
    t.die d = { s.die d with takeover := false, tlb := [] } ∧ (∀ e, e ≠ d → t.die e = s.die e) ∧
    t = { s with fw := t.fw, dies := t.dies }

/-- Newel of a die hands over to its twin from here: placement pauses, and nothing else changes (R448 step 3). -/
def HandsOver (s t : State) (d : Die) : Prop :=
  t.die d = { s.die d with takeover := true, ctr := { (s.die d).ctr with paused := true } } ∧
    (∀ e, e ≠ d → t.die e = s.die e) ∧ t = { s with dies := t.dies, fw := t.fw }

/-- The hand-over has ended: Vetch's buffer is empty. -/
def HandedOver (s t : State) (d : Die) : Prop :=
  t.die d = { s.die d with takeover := false, tlb := [] } ∧
    (∀ e, e ≠ d → t.die e = s.die e) ∧ t = { s with dies := t.dies, fw := t.fw }

/-- R447 to R449, R469: FW_STAGE, FW_STAGE_DONE, FW_ACTIVATE, FW_ACTIVATE_STEP_DONE, FW_ABORT, FW_START_CHECK_FAIL,
FW_SELECT_NEXT. -/
def Obligations.FirmwareUpdate : Prop :=
  (∀ (s : State) (path : Path), WritesAt s path (RegId.off .avlCtl 0 0 0) →
    (s.fwState = 1 ∨ s.fwState = 3 → exec (.fwStage path) s = .next s) ∧
    (s.fwState ≠ 1 → s.fwState ≠ 3 → ∃ t, exec (.fwStage path) s = .next t ∧ t.fwState = 1 ∧ fwResult t = 0 ∧
      t.fw = { s.fw with staged := none } ∧
      t.bankImage (!s.runBank) = { s.bankImage (!s.runBank) with headerOk := false } ∧
      t.bankImage s.runBank = s.bankImage s.runBank ∧ t = { s with regs := t.regs, store := t.store, fw := t.fw }) ∧
    (s.fwState ≠ 2 → exec (.fwActivate path) s = .next s ∧ exec (.fwSelectNext path) s = .next s) ∧
    (s.fwState = 2 → s.hub.standbyOk = false ∨ (∃ d, (s.die d).twin ≠ .standby) →
      ∃ t, exec (.fwActivate path) s = .next t ∧ t.fwState = 2 ∧ fwResult t = 4 ∧ t = { s with regs := t.regs }) ∧
    (s.fwState = 2 → s.hub.standbyOk = true → (∀ d, (s.die d).twin = .standby) →
      ∃ t, exec (.fwActivate path) s = .next t ∧ t.fwState = 3 ∧ fwResult t = 0 ∧
        t.fw = { s.fw with act := .standbyLoading, switched := [] } ∧ t = { s with regs := t.regs, fw := t.fw }) ∧
    (s.fwState = 2 → ∃ t, exec (.fwSelectNext path) s = .next t ∧ t.store.cur.bank = !s.runBank ∧
      t.regFld .avlFwStatus 0 0 0 17 17 = (if s.runBank then 0 else 1) ∧
      t = { s with regs := t.regs, store := t.store }) ∧
    (s.fwUndoable = false → exec (.fwAbort path) s = .next s) ∧
    (s.fwUndoable = true → ∃ t, exec (.fwAbort path) s = .next t ∧ Undoes s t 6)) ∧
  (∀ s : State, s.fwUndoable = true → s.hub.takeover = false → ∃ t, exec .fwStartCheckFail s = .next t ∧ Undoes s t 5) ∧
  (∀ s : State, s.fwState = 1 → s.hub.takeover = false →
    let at' := (s.reg .avlFwSrc 0 0 0).toNat
    let len := (s.reg .avlFwLen 0 0 0).toNat
    (s.imageBytes at' len = none → ∃ t, exec .fwStageDone s = .next t ∧ t.fwState = 0 ∧ fwResult t = 3 ∧
      t = { s with regs := t.regs }) ∧
    (∀ bs, s.imageBytes at' len = some bs → ∃ t, exec .fwStageDone s = .next t ∧
      t.bankImage (!s.runBank) = imageOf bs ∧ t.bankImage s.runBank = s.bankImage s.runBank ∧
      ((imageOf bs).check s.store.cur.svnFloor = 0 → t.fwState = 2 ∧ fwResult t = 0 ∧ t.fw.staged = some (imageOf bs)) ∧
      ((imageOf bs).check s.store.cur.svnFloor = 4 → t.fwState = 0 ∧ fwResult t = 2 ∧ t.fw = s.fw) ∧
      ((imageOf bs).check s.store.cur.svnFloor ≠ 0 → (imageOf bs).check s.store.cur.svnFloor ≠ 4 →
        t.fwState = 0 ∧ fwResult t = 1 ∧ t.fw = s.fw))) ∧
  (∀ (s : State) (x : Image), s.fw.staged = some x → s.hub.takeover = false →
    (s.fw.act = .standbyLoading →
      (s.hub.standbyOk = true → ∃ t, exec .fwActivateStepDone s = .next t ∧
        t.hub = { s.hub with takeover := true, requested := true, takeAt := s.now } ∧
        t.fw = { s.fw with act := .twinsLoading } ∧ t = { s with hub := t.hub, store := t.store, fw := t.fw }) ∧
      (s.hub.standbyOk = false → ∃ t, exec .fwActivateStepDone s = .next t ∧ Undoes s t 5)) ∧
    (s.fw.act = .twinsLoading → exec .fwActivateStepDone s = .next { s with fw := { s.fw with act := .handOver 0 } }) ∧
    (∀ d : Die, s.fw.act = .handOver d.val → s.repairing d = false →
      ((s.die d).twin = .standby → ∃ t, exec .fwActivateStepDone s = .next t ∧ HandsOver s t d ∧
        t.fw = { s.fw with act := .handing d.val }) ∧
      ((s.die d).twin ≠ .standby → ∃ t, exec .fwActivateStepDone s = .next t ∧ Undoes s t 5)) ∧
    (∀ d : Die, s.fw.act = .handing d.val → (s.die d).newelAgain = false → ∃ t, exec .fwActivateStepDone s = .next t ∧
      HandedOver s t d ∧ t.fw = { s.fw with
        switched := s.fw.switched ++ [d.val], act := if d.val = 7 then .selecting else .handOver (d.val + 1) }) ∧
    (∀ (d : Die) l hub result, s.fw.act = .undo (d.val :: l) hub result → s.repairing d = false →
      ∃ t, exec .fwActivateStepDone s = .next t ∧ HandsOver s t d ∧ t.fw = { s.fw with act := .undoing d.val l hub result }) ∧
    (∀ (d : Die) l hub result, s.fw.act = .undoing d.val l hub result → (s.die d).newelAgain = false →
      ∃ t, exec .fwActivateStepDone s = .next t ∧ HandedOver s t d ∧ t.fw = { s.fw with act := .undo l hub result }) ∧
    (∀ result, s.fw.act = .undo [] true result → s.hub.standbyOk = true → ∃ t, exec .fwActivateStepDone s = .next t ∧
      t.hub = { s.hub with takeover := true, requested := true, takeAt := s.now } ∧
      t.fw = { s.fw with act := .undone result }) ∧
    (∀ result, s.fw.act = .undo [] false result ∨ s.fw.act = .undone result → ∃ t, exec .fwActivateStepDone s = .next t ∧
      t.fwState = 5 ∧ fwResult t = result % 16 ∧ t.fw = { s.fw with act := .idle, switched := [], staged := none } ∧
      SMap.getD t.meas.blocks 2 0 = s.fw.running.header) ∧
    (s.fw.act = .selecting → ∃ t, exec .fwActivateStepDone s = .next t ∧ t.runBank = !s.runBank ∧
      t.store.cur.bank = !s.runBank ∧ t.fw = { s.fw with act := .reloading, running := x } ∧
      t.reg .secSvn 0 0 0 = BitVec.ofNat 64 x.svn ∧ t.meas.count = s.meas.count + 6 ∧
      SMap.getD t.meas.blocks 2 0 = x.header) ∧
    (s.fw.act = .reloading → ∃ t, exec .fwActivateStepDone s = .next t ∧ t.fwState = 4 ∧ fwResult t = 0 ∧
      t.hub = { s.hub with standbyOk := true } ∧
      t.fw = { s.fw with act := .idle, staged := none, switched := [] }))

/-- What the fetch of a ring's next descriptor rests on: its checks pass, no FENCE holds it, the module is in service. -/
def Fetches (s : State) (r : RingId) (ty : Nat) : Prop :=
  FlightOk s ∧ s.fetchable r = true ∧ leAt (s.headBytes r) 0 1 = ty ∧ s.hub.outOfService = false ∧
    (s.fetch r).1.commonCheck (ringCtx r) (s.headBytes r) = none ∧ s.descs.any (fun f => fenceCovers f r) = false

/-- The descriptor that a fetch takes, as it stands once started, with what its fetch read beyond the slot. -/
def fetched (s : State) (r : RingId) (more : List Byte) : Desc :=
  { seq := s.nextSeq, ring := r, slot := s.headSlot r, ty := leAt (s.headBytes r) 0 1, bytes := s.headBytes r ++ more
    time := s.now, st := .started }

/-- R144, R145, R331, R333, R347: a DISPATCH whose checks and admission pass joins those that wait for their dies. -/
def Obligations.DispatchAdmitted : Prop :=
  ∀ (s : State) (r : RingId) (p : Plan) (img : Img) (b v : Nat) (y : Disp), Fetches s r 0x01 → s.chainWaiting = [] →
    let a := leAt (s.headBytes r) 0x20 8
    let args : Bool := argsFlag (s.headBytes r)
    let z := { fetched s r (if args then s.anyRead a 128 else []) with fetchNo := (s.ring r).fetched + 1 }
    let x := { z with st := .waiting }
    (args = true → isHost a = true ∨ s.readFault (ringCtx r) a 128 = none) →
    s.chainHeld x = false → s.findVariant x = .ok (p, img, b, v) → s.lateChecks x img b v = none →
    s.admission (s.mkDisp x p img b v) = .ok y →
    ∃ u t, Counted s u ∧ exec (.dispatch r) s = .next t ∧ t.disps = s.disps ++ [y] ∧ t.desc s.nextSeq = some z ∧
      t = { u with regs := t.regs, rings := t.rings, descs := t.descs, nextSeq := s.nextSeq + 1, arb := t.arb
                   disps := t.disps }

/-- R255 to R262, R272: MEDIA_OPEN of a stream that is OFF, MEDIA_SUBMIT to a stream of its own context outside shuffle
order, and MEDIA_CLOSE. -/
def Obligations.MediaDescriptors : Prop :=
  ∀ (s : State) (r : RingId) (d : Die) (h : Fin 256),
    let n := ringCtx r
    let hb := s.headBytes r
    s.mediaRoute (leAt hb 2 2) = some (d, h) →
    (Fetches s r 0x09 →
      let a := leAt hb 8 8
      let blk := s.devRead a 128
      let par := s.devRead (sbParam blk) 1024
      s.readFault n a 128 = none → s.openCheck n blk par = none → s.badIn (sbParam blk) 1024 = none →
      s.mediaWaits (leAt hb 2 2) = false → s.homeTaken (leAt hb 2 2) = false → (s.fn (.stream d h)).st = .off →
      ∃ u t, Counted s u ∧ exec (.mediaOpen r) s = .next t ∧ t.fn (.stream d h) = (s.fn (.stream d h)).enable ∧
        (t.fn (.stream d h)).st = .starting ∧ (t.stream d h).owner = some n ∧ (t.stream d h).block = blk ∧
        (t.stream d h).param = par ∧ (t.stream d h).openSeq = some s.nextSeq ∧
        t.desc s.nextSeq = some (fetched s r (blk ++ par)) ∧ (∀ e k, (e, k) ≠ (d, h) → t.stream e k = s.stream e k) ∧
        t = { u with regs := t.regs, fns := t.fns, rings := t.rings, descs := t.descs, nextSeq := s.nextSeq + 1
                     arb := t.arb, streams := t.streams }) ∧
    (Fetches s r 0x08 → s.fnIs (.stream d h) .off = false → (s.stream d h).owner = some n →
      s.submitCheck (fetched s r []) = none → sbOrder (s.stream d h).block ≠ 1 →
      ((fetched s r []).hasOvr = true → s.badIn (leAt hb 0x28 8) 64 = none) →
      ∃ u t, Counted s u ∧ exec (.mediaSubmit r) s = .next t ∧ t.desc s.nextSeq = some (fetched s r []) ∧
        (∃ m ∈ (t.stream d h).queue ++ (t.stream d h).waiting, { m with epoch := 0 } = s.sampleFrom (fetched s r [])) ∧
        (∀ e k, (e, k) ≠ (d, h) → t.stream e k = s.stream e k) ∧
        t = { u with regs := t.regs, rings := t.rings, descs := t.descs, nextSeq := s.nextSeq + 1, arb := t.arb
                     streams := t.streams }) ∧
    (Fetches s r 0x0A → (s.fn (.stream d h)).st ≠ .off → (s.stream d h).owner = some n →
      (s.fn (.stream d h)).pendingOn = false →
      ∃ u t, Counted s u ∧ exec (.mediaClose r) s = .next t ∧ t.fn (.stream d h) = (s.fn (.stream d h)).disable ∧
        (t.stream d h).closeSeqs = (s.stream d h).closeSeqs ++ [s.nextSeq] ∧
        t.desc s.nextSeq = some (fetched s r []) ∧ (∀ e k, (e, k) ≠ (d, h) → t.stream e k = s.stream e k) ∧
        t = { u with regs := t.regs, fns := t.fns, rings := t.rings, descs := t.descs, nextSeq := s.nextSeq + 1
                     arb := t.arb, streams := t.streams }) ∧
    (Fetches s r 0x0A → (s.fn (.stream d h)).st = .off →
      ∃ t, exec (.mediaClose r) s = .next t ∧ t.isDone s.nextSeq = true ∧ t.fns = s.fns ∧ t.streams = s.streams)

/-- R222 to R226, R234: REDUCE_SCATTER, ALL_GATHER, ALL_REDUCE, EXPONENT_MAX, PERMUTE, by the OP of the block. -/
def Obligations.CollectivesStart : Prop :=
  ∀ (s : State) (r : RingId) (c : Instr), Fetches s r 0x0D →
    (c, s.slotOp (s.headBytes r)) ∈ [(Instr.reduceScatter r, opRS), (.allGather r, opAG), (.allReduce r, opAR),
      (.exponentMax r, opEM), (.permute r, opPM)] →
    let n := ringCtx r
    let a := blockAddr (s.headBytes r)
    let blk := s.devRead a 128
    s.readFault n a 128 = none → s.collCheck n blk = none → (tableRuns blk).findSome? (fun x => s.badIn x.1 x.2) = none →
    ∃ t, exec c s = .next t ∧ t.desc s.nextSeq = some (fetched s r blk) ∧ t.nextSeq = s.nextSeq + 1 ∧
      (∃ z ∈ t.colls, z.seq = s.nextSeq ∧ z.ctx = n ∧ z.block = blk ∧ z.table = s.rankTable blk ∧
        z.counts = s.countTable blk ∧ z.map = s.permMap blk ∧ z.start = s.now ∧ z.ownerDone = false) ∧
      (s.colls = [] → s.bad = [] → bkOp blk = opRS → bkCopy blk = false →
        let own := countOf blk (s.countTable blk) (bkOwnRank blk) * bkUnit blk * 8
        let hold := (bkP blk + ((s.rankTable blk).filter (fun e => (entBackup e).isSome)).length) *
          slotBytes blk (s.countTable blk)
        t.devRead (bkShard blk) own = List.replicate own 0 ∧ t.devRead (bkHold blk) hold = List.replicate hold 0)

/-- R235, R237, R240, R242, R243, R247: SEND_CLOSE, OWNER_TIMEOUT, SENDER_TIMEOUT, GATHER_PART_TIMEOUT,
PERMUTE_CYCLE_ABANDON, COLLECTIVE_COMPLETE. -/
def Obligations.CollectivesEnd : Prop :=
  ∀ (s : State) (seq : Nat) (c : Coll), s.coll seq = some c → s.hub.takeover = false → s.recovery = none →
    (s.mayClose c = true → ∃ t, exec (.sendClose seq) s = .next t ∧ (t.coll seq).map (fun z => z.senderDone) = some true ∧
      (bkOp c.block ≠ opEM → ∀ z ∈ t.combs, z.coll ≠ seq) ∧ t.descs = s.descs) ∧
    (bkOwns c.block = true → c.ownerDone = false → s.collOver c c.start = true →
      ∃ t, exec (.ownerTimeout seq) s = .next t ∧
        (t.coll seq).map (fun z => (z.ownerDone, z.ownerTimedOut)) = some (true, true) ∧ t.descs = s.descs) ∧
    (bkOp c.block ≠ opPM → s.collOver c c.start = true → s.unarmed c ≠ [] →
      ∃ t, exec (.senderTimeout seq) s = .next t ∧
        t.coll seq = some { c with senderTimedOut := true, skipOwners := c.skipOwners ++ s.unarmed c } ∧
        (∀ q, q ≠ seq → t.coll q = s.coll q) ∧ t = { s with colls := t.colls }) ∧
    (∀ part : Fin 16, c.serving = true → c.runsPart part.val = true → c.partArrived part.val = false →
      s.collOver c c.gatherFrom = true → ∃ t, exec (.gatherPartTimeout seq part) s = .next t ∧
        t.coll seq = some { c with failedParts := c.failedParts ||| BitVec.ofNat 16 (2 ^ part.val) } ∧
        (∀ q, q ≠ seq → t.coll q = s.coll q) ∧ t = { s with colls := t.colls }) ∧
    (∀ z ∈ c.cycles, bkOp c.block = opPM → z.done = false → s.collOver c z.since = true →
      ∃ t, exec (.permuteCycleAbandon seq) s = .next t ∧
        (t.coll seq).map (fun x => x.cycles.all (fun y => y.head != z.head || (y.done && y.failed))) = some true ∧
        (z.half < 2 → (t.coll seq).map (fun x => x.heads) = some []) ∧ t.descs = s.descs) ∧
    (c.ended = true →
      let sem := bkDoneSem c.block
      let die := bits sem 10 8
      let idx := bits sem 7 0
      (bits sem 15 15 = 1 → s.sem c.ctx die idx + 1 < 2 ^ 32) →
      ∃ t, exec (.collectiveComplete seq) s = .next t ∧ t.isDone seq = true ∧ t.coll seq = none ∧
        t.sem c.ctx die idx = s.sem c.ctx die idx + bits sem 15 15 ∧
        (∀ x, s.desc seq = some x → x.st ≠ .done → leAt x.bytes 1 1 % 2 = 1 →
          let slot := s.slotAddr x.ring x.slot + 0x38
          Clear s slot 8 → t.anyRead slot 8 = toLe 8 (statusWord c.status.1 c.status.2 s.now) ∧
          (isHost slot = true → isHost (bkReport c.block) = false → s.colls = [c] →
            s.writeFault c.ctx (bkReport c.block) 64 = none →
            t.devRead (bkReport c.block) 64 = c.report c.status.1 c.status.2 s.now)))

/-- R4, R24, R30, R323, R383, R441, R447, R452, R477, R487, R491: the commands that are a write of one register do what
that write does. -/
def Obligations.RegisterCommands : Prop :=
  ∀ (s : State) (path : Path) (f : FuncId) (d : Die) (m : Mc) (v : W64) (w : W32) (key : W16) (k : Fin 4) (sec : Byte)
    (pc : Fin 32) (c : Instr) (off : Nat) (wide : Bool) (x : W64), s.hub.takeover = false →
    (c, off, wide, x) ∈ ([(.functionEnable path f, fnOff f, false, 0x100), (.functionDisable path f, fnOff f, false, 0),
      (.regionCommit path, RegId.off .mgtRegionCommit 0 0 0, false, 1), (.bar4CtlWrite path v, RegId.off .hifBar4Ctl 0 0 0, true, v),
      (.secResetWarm path key, RegId.off .secReset 0 0 0, false, BitVec.ofNat 64 (key.toNat * 2 ^ 16 + 1)),
      (.secResetCold path key, RegId.off .secReset 0 0 0, false, BitVec.ofNat 64 (key.toNat * 2 ^ 16 + 2)),
      (.secRecover path, RegId.off .secCtl 0 0 0, false, 1), (.secCommitSvn path, RegId.off .secCtl 0 0 0, false, 2),
      (.fabAdmitRequest path w, RegId.off .fabAdmit 0 0 0, false, w.setWidth 64),
      (.fabLeaveRequest path w, RegId.off .fabAdmit 0 0 0, false, w.setWidth 64),
      (.hubSwap path, RegId.off .avlCtl 0 0 0, false, 1), (.fwStage path, RegId.off .avlCtl 0 0 0, false, 2),
      (.fwActivate path, RegId.off .avlCtl 0 0 0, false, 4), (.fwAbort path, RegId.off .avlCtl 0 0 0, false, 8),
      (.fwSelectNext path, RegId.off .avlCtl 0 0 0, false, 16), (.traceEnable path w, RegId.off .trcCtl 0 0 0, false, w.setWidth 64),
      (.devLevelWrite path w, RegId.off .trcDev 0 0 0, false, w.setWidth 64),
      (.hifLoopbackSelect path k sec, RegId.off .hifLoopback 0 0 0, false, BitVec.ofNat 64 (k.val + sec.toNat * 2 ^ 8)),
      (.mcLoopbackSelect path d m k pc, RegId.off .mcLoopback d.val m.val 0, false, BitVec.ofNat 64 (k.val + pc.val * 2 ^ 4)),
      (.medLoopbackSelect path d k, RegId.off .medLoopback d.val 0 0, false, BitVec.ofNat 64 k.val)] :
        List (Instr × Nat × Bool × W64)) →
    exec c s = exec (.registerWrite path off wide x) s
end

