-- ==== Sys2Proof/Laws/Memory.lean ====
section
/-! SUPPORT. Sparse maps and the two memories: read after write, and the canonical form. -/

namespace Sys2Proof.Machine

section Maps

variable {α : Type}

@[simp] theorem SMap.find_nil (k : Nat) : SMap.find ([] : SMap α) k = none := rfl

@[simp] theorem SMap.find_put_self (m : SMap α) (k : Nat) (v : α) :
    SMap.find (SMap.put m k v) k = some v := by
  induction m with
  | nil => simp [SMap.put, SMap.find]
  | cons e rest ih =>
    obtain ⟨k', v'⟩ := e
    simp only [SMap.put]
    split_ifs with h1 h2
    · simp [SMap.find]
    · simp [SMap.find]
    · have : ¬ k' = k := fun h => h2 h.symm
      simp [SMap.find, this, ih]

theorem SMap.find_put_other (m : SMap α) {k j : Nat} (v : α) (h : j ≠ k) :
    SMap.find (SMap.put m k v) j = SMap.find m j := by
  induction m with
  | nil => simp [SMap.put, SMap.find, Ne.symm h]
  | cons e rest ih =>
    obtain ⟨k', v'⟩ := e
    simp only [SMap.put]
    split_ifs with h1 h2
    · simp [SMap.find, Ne.symm h]
    · subst h2; simp [SMap.find, Ne.symm h]
    · simp only [SMap.find, ih]

@[simp] theorem SMap.getD_put_self (m : SMap α) (k : Nat) (v d : α) :
    SMap.getD (SMap.put m k v) k d = v := by simp [SMap.getD]

theorem SMap.getD_put_other (m : SMap α) {k j : Nat} (v d : α) (h : j ≠ k) :
    SMap.getD (SMap.put m k v) j d = SMap.getD m j d := by simp [SMap.getD, SMap.find_put_other m v h]

theorem SMap.risesFrom_le {b c : Nat} {m : SMap α} (h : b ≤ c) (hm : SMap.risesFrom c m = true) :
    SMap.risesFrom b m = true := by
  cases m with
  | nil => rfl
  | cons e rest =>
    obtain ⟨k, v⟩ := e
    simp only [SMap.risesFrom, Bool.and_eq_true, decide_eq_true_eq] at hm ⊢
    exact ⟨le_trans h hm.1, hm.2⟩

theorem SMap.find_none_of_rises {b k : Nat} {m : SMap α} (h : SMap.risesFrom b m = true) (hk : k < b) :
    SMap.find m k = none := by
  induction m generalizing b with
  | nil => rfl
  | cons e rest ih =>
    obtain ⟨k', v'⟩ := e
    simp only [SMap.risesFrom, Bool.and_eq_true, decide_eq_true_eq] at h
    have h1 : ¬ k' = k := by omega
    simp only [SMap.find, h1, if_false]
    exact ih h.2 (by omega)

theorem SMap.risesFrom_put {b : Nat} {m : SMap α} (k : Nat) (v : α) (h : SMap.risesFrom b m = true)
    (hb : b ≤ k) : SMap.risesFrom b (SMap.put m k v) = true := by
  induction m generalizing b with
  | nil => simp [SMap.put, SMap.risesFrom, hb]
  | cons e rest ih =>
    obtain ⟨k', v'⟩ := e
    simp only [SMap.risesFrom, Bool.and_eq_true, decide_eq_true_eq] at h
    simp only [SMap.put]
    split_ifs with h1 h2
    · simp only [SMap.risesFrom, Bool.and_eq_true, decide_eq_true_eq]
      exact ⟨hb, by omega, h.2⟩
    · subst h2; simp only [SMap.risesFrom, Bool.and_eq_true, decide_eq_true_eq]; exact h
    · simp only [SMap.risesFrom, Bool.and_eq_true, decide_eq_true_eq]
      exact ⟨h.1, ih h.2 (by omega)⟩

theorem SMap.risesFrom_del {b : Nat} {m : SMap α} (k : Nat) (h : SMap.risesFrom b m = true) :
    SMap.risesFrom b (SMap.del m k) = true := by
  induction m generalizing b with
  | nil => rfl
  | cons e rest ih =>
    obtain ⟨k', v'⟩ := e
    simp only [SMap.risesFrom, Bool.and_eq_true, decide_eq_true_eq] at h
    simp only [SMap.del]
    split_ifs with h1
    · exact SMap.risesFrom_le (by omega) (ih h.2)
    · simp only [SMap.risesFrom, Bool.and_eq_true, decide_eq_true_eq]; exact ⟨h.1, ih h.2⟩

theorem SMap.risesFrom_filter {b : Nat} {m : SMap α} (p : Nat × α → Bool) (h : SMap.risesFrom b m = true) :
    SMap.risesFrom b (m.filter p) = true := by
  induction m generalizing b with
  | nil => rfl
  | cons e rest ih =>
    obtain ⟨k', v'⟩ := e
    simp only [SMap.risesFrom, Bool.and_eq_true, decide_eq_true_eq] at h
    simp only [List.filter_cons]
    split_ifs with h1
    · simp only [SMap.risesFrom, Bool.and_eq_true, decide_eq_true_eq]; exact ⟨h.1, ih h.2⟩
    · exact SMap.risesFrom_le (by omega) (ih h.2)

/-- Deleting removes the key. -/
theorem SMap.find_del_self (m : SMap α) (k : Nat) : SMap.find (SMap.del m k) k = none := by
  induction m with
  | nil => rfl
  | cons e rest ih =>
    obtain ⟨k', v'⟩ := e
    simp only [SMap.del]
    split_ifs with h1
    · exact ih
    · simp only [SMap.find, h1, if_false]; exact ih

theorem SMap.find_del_other {m : SMap α} {k j : Nat} (h : j ≠ k) :
    SMap.find (SMap.del m k) j = SMap.find m j := by
  induction m with
  | nil => rfl
  | cons e rest ih =>
    obtain ⟨k', v'⟩ := e
    simp only [SMap.del]
    split_ifs with h1
    · subst h1; rw [ih]; simp [SMap.find, Ne.symm h]
    · simp only [SMap.find, ih]

theorem SMap.mem_put {m : SMap α} {k : Nat} {v : α} {e : Nat × α} (h : e ∈ SMap.put m k v) :
    e = (k, v) ∨ e ∈ m := by
  induction m with
  | nil => simpa [SMap.put] using h
  | cons x rest ih =>
    obtain ⟨k', v'⟩ := x
    simp only [SMap.put] at h
    split_ifs at h with h1 h2
    · simpa using h
    · simp only [List.mem_cons] at h ⊢; tauto
    · simp only [List.mem_cons] at h ⊢
      rcases h with h | h
      · exact .inr (.inl h)
      · rcases ih h with h | h
        · exact .inl h
        · exact .inr (.inr h)

theorem SMap.mem_del {m : SMap α} {k : Nat} {e : Nat × α} (h : e ∈ SMap.del m k) : e ∈ m := by
  induction m with
  | nil => exact h
  | cons x rest ih =>
    obtain ⟨k', v'⟩ := x
    simp only [SMap.del] at h
    split_ifs at h with h1
    · exact List.mem_cons_of_mem _ (ih h)
    · simp only [List.mem_cons] at h ⊢
      rcases h with h | h
      · exact .inl h
      · exact .inr (ih h)

variable [DecidableEq α]

/-- A map in canonical form stays so when a key is set. -/
theorem SMap.wf_set {d : Nat → α} {m : SMap α} (k : Nat) (v : α) (h : SMap.wf d m = true) :
    SMap.wf d (SMap.set m k (d k) v) = true := by
  simp only [SMap.wf, Bool.and_eq_true, List.all_eq_true, decide_eq_true_eq] at h ⊢
  unfold SMap.set
  split_ifs with hv
  · exact ⟨SMap.risesFrom_del k h.1, fun e he => h.2 e (SMap.mem_del he)⟩
  · refine ⟨SMap.risesFrom_put k v h.1 (Nat.zero_le _), fun e he => ?_⟩
    rcases SMap.mem_put he with rfl | he
    · exact hv
    · exact h.2 e he

theorem SMap.getD_set_self (m : SMap α) (k : Nat) (d v : α) : SMap.getD (SMap.set m k d v) k d = v := by
  unfold SMap.set
  split_ifs with hv
  · simp [SMap.getD, SMap.find_del_self m k, hv]
  · simp

theorem SMap.getD_set_other (m : SMap α) {k j : Nat} (d d' v : α) (h : j ≠ k) :
    SMap.getD (SMap.set m k d v) j d' = SMap.getD m j d' := by
  unfold SMap.set
  split_ifs
  · simp [SMap.getD, SMap.find_del_other h]
  · exact SMap.getD_put_other m v d' h

theorem SMap.wf_filter {d : Nat → α} {m : SMap α} (p : Nat × α → Bool) (h : SMap.wf d m = true) :
    SMap.wf d (m.filter p) = true := by
  simp only [SMap.wf, Bool.and_eq_true, List.all_eq_true, decide_eq_true_eq] at h ⊢
  exact ⟨SMap.risesFrom_filter p h.1, fun e he => h.2 e (List.mem_of_mem_filter he)⟩

/-- A map that avoids the keys where two defaults differ is canonical for both. -/
theorem SMap.wf_congr {d d' : Nat → α} {m : SMap α} (hd : ∀ e ∈ m, d e.1 = d' e.1)
    (h : SMap.wf d m = true) : SMap.wf d' m = true := by
  simp only [SMap.wf, Bool.and_eq_true, List.all_eq_true, decide_eq_true_eq] at h ⊢
  exact ⟨h.1, fun e he => by rw [← hd e he]; exact h.2 e he⟩

end Maps

section Memory

variable (d : Nat → Byte)

theorem memSet_wf {m : SMap Byte} (a : Nat) (b : Byte) (h : Memory.wf d m = true) :
    Memory.wf d (memSet d m a b) = true := SMap.wf_set a b h

theorem memWrite_wf {m : SMap Byte} (a : Nat) (bs : List Byte) (h : Memory.wf d m = true) :
    Memory.wf d (memWrite d m a bs) = true := by
  induction bs generalizing m a with
  | nil => exact h
  | cons b rest ih => exact ih _ (memSet_wf d a b h)

theorem Memory.wf_sorted {m : SMap Byte} (h : Memory.wf d m = true) : SMap.sorted m = true := by
  simp only [Memory.wf, SMap.wf, Bool.and_eq_true] at h; exact h.1

theorem memByte_memSet_self (m : SMap Byte) (a : Nat) (b : Byte) :
    memByte d (memSet d m a b) a = b := SMap.getD_set_self m a (d a) b

theorem memByte_memSet_other (m : SMap Byte) {a j : Nat} (b : Byte) (h : j ≠ a) :
    memByte d (memSet d m a b) j = memByte d m j := SMap.getD_set_other m (d a) (d j) b h

/-- A write leaves every byte outside its range alone. -/
theorem memByte_memWrite_other (m : SMap Byte) {a j : Nat} (bs : List Byte) (h : j < a ∨ a + bs.length ≤ j) :
    memByte d (memWrite d m a bs) j = memByte d m j := by
  induction bs generalizing m a with
  | nil => rfl
  | cons b rest ih =>
    simp only [List.length_cons] at h
    rw [memWrite, ih _ (by omega), memByte_memSet_other d m b (by omega)]

/-- A byte written is the byte read. -/
theorem memByte_memWrite {m : SMap Byte} {a : Nat} (bs : List Byte) (i : Nat) (hi : i < bs.length) :
    memByte d (memWrite d m a bs) (a + i) = bs[i] := by
  induction bs generalizing m a i with
  | nil => simp at hi
  | cons b rest ih =>
    rw [memWrite]
    cases i with
    | zero =>
      show memByte d (memWrite d (memSet d m a b) (a + 1) rest) a = b
      rw [memByte_memWrite_other d _ rest (by omega), memByte_memSet_self d _ a b]
    | succ i =>
      have := ih (m := memSet d m a b) (a := a + 1) i (by simpa using hi)
      rw [show a + (i + 1) = a + 1 + i by omega, this]; rfl

/-- The bytes read back after a write of as many are the bytes written. -/
theorem memRead_memWrite {m : SMap Byte} (a : Nat) (bs : List Byte) :
    memRead d (memWrite d m a bs) a bs.length = bs := by
  induction bs generalizing m a with
  | nil => rfl
  | cons b rest ih =>
    have h0 := memByte_memWrite d (a := a) (m := m) (b :: rest) 0 (by simp)
    simp only [Nat.add_zero, List.getElem_cons_zero] at h0
    rw [List.length_cons, memRead, h0]
    exact congrArg (b :: ·) (ih (a + 1))

end Memory

theorem reset_memWf : State.reset.memWf = true := rfl

theorem reset_hostWf : State.reset.hostWf = true := rfl

end Sys2Proof.Machine
end

