-- ==== Sys2Proof/Laws/State.lean ====
section
/-! SUPPORT. What each plain update of the state leaves alone, one lemma per field, and what it reads back as. -/

namespace Sys2Proof.Machine

/-! ### setFn -/

@[simp] theorem State.setFn_pending (s : State) (f : FuncId) (v : Fn) : (s.setFn f v).pending = s.pending := rfl
@[simp] theorem State.setFn_out (s : State) (f : FuncId) (v : Fn) : (s.setFn f v).out = s.out := rfl
@[simp] theorem State.setFn_free (s : State) (f : FuncId) (v : Fn) : (s.setFn f v).free = s.free := rfl
@[simp] theorem State.setFn_now (s : State) (f : FuncId) (v : Fn) : (s.setFn f v).now = s.now := rfl
@[simp] theorem State.setFn_regs (s : State) (f : FuncId) (v : Fn) : (s.setFn f v).regs = s.regs := rfl
@[simp] theorem State.setFn_latches (s : State) (f : FuncId) (v : Fn) : (s.setFn f v).latches = s.latches := rfl
@[simp] theorem State.setFn_mem (s : State) (f : FuncId) (v : Fn) : (s.setFn f v).mem = s.mem := rfl
@[simp] theorem State.setFn_hostMem (s : State) (f : FuncId) (v : Fn) : (s.setFn f v).hostMem = s.hostMem := rfl
@[simp] theorem State.setFn_bad (s : State) (f : FuncId) (v : Fn) : (s.setFn f v).bad = s.bad := rfl
@[simp] theorem State.setFn_scrambled (s : State) (f : FuncId) (v : Fn) : (s.setFn f v).scrambled = s.scrambled := rfl
@[simp] theorem State.setFn_held (s : State) (f : FuncId) (v : Fn) : (s.setFn f v).held = s.held := rfl
@[simp] theorem State.setFn_regionMap (s : State) (f : FuncId) (v : Fn) : (s.setFn f v).regionMap = s.regionMap := rfl
@[simp] theorem State.setFn_commitBusy (s : State) (f : FuncId) (v : Fn) : (s.setFn f v).commitBusy = s.commitBusy := rfl
@[simp] theorem State.setFn_ctxs (s : State) (f : FuncId) (v : Fn) : (s.setFn f v).ctxs = s.ctxs := rfl
@[simp] theorem State.setFn_rings (s : State) (f : FuncId) (v : Fn) : (s.setFn f v).rings = s.rings := rfl
@[simp] theorem State.setFn_nextSeq (s : State) (f : FuncId) (v : Fn) : (s.setFn f v).nextSeq = s.nextSeq := rfl
@[simp] theorem State.setFn_descs (s : State) (f : FuncId) (v : Fn) : (s.setFn f v).descs = s.descs := rfl
@[simp] theorem State.setFn_plans (s : State) (f : FuncId) (v : Fn) : (s.setFn f v).plans = s.plans := rfl
@[simp] theorem State.setFn_chains (s : State) (f : FuncId) (v : Fn) : (s.setFn f v).chains = s.chains := rfl
@[simp] theorem State.setFn_disps (s : State) (f : FuncId) (v : Fn) : (s.setFn f v).disps = s.disps := rfl
@[simp] theorem State.setFn_switches (s : State) (f : FuncId) (v : Fn) : (s.setFn f v).switches = s.switches := rfl
@[simp] theorem State.setFn_recovery (s : State) (f : FuncId) (v : Fn) : (s.setFn f v).recovery = s.recovery := rfl
@[simp] theorem State.setFn_reports (s : State) (f : FuncId) (v : Fn) : (s.setFn f v).reports = s.reports := rfl
@[simp] theorem State.setFn_arb (s : State) (f : FuncId) (v : Fn) : (s.setFn f v).arb = s.arb := rfl
@[simp] theorem State.setFn_cores (s : State) (f : FuncId) (v : Fn) : (s.setFn f v).cores = s.cores := rfl
@[simp] theorem State.setFn_dies (s : State) (f : FuncId) (v : Fn) : (s.setFn f v).dies = s.dies := rfl
@[simp] theorem State.setFn_credits (s : State) (f : FuncId) (v : Fn) : (s.setFn f v).credits = s.credits := rfl
@[simp] theorem State.setFn_colls (s : State) (f : FuncId) (v : Fn) : (s.setFn f v).colls = s.colls := rfl
@[simp] theorem State.setFn_combs (s : State) (f : FuncId) (v : Fn) : (s.setFn f v).combs = s.combs := rfl
@[simp] theorem State.setFn_arms (s : State) (f : FuncId) (v : Fn) : (s.setFn f v).arms = s.arms := rfl
@[simp] theorem State.setFn_hops (s : State) (f : FuncId) (v : Fn) : (s.setFn f v).hops = s.hops := rfl
@[simp] theorem State.setFn_streams (s : State) (f : FuncId) (v : Fn) : (s.setFn f v).streams = s.streams := rfl
@[simp] theorem State.setFn_dmaq (s : State) (f : FuncId) (v : Fn) : (s.setFn f v).dmaq = s.dmaq := rfl
@[simp] theorem State.setFn_mcs (s : State) (f : FuncId) (v : Fn) : (s.setFn f v).mcs = s.mcs := rfl
@[simp] theorem State.setFn_frings (s : State) (f : FuncId) (v : Fn) : (s.setFn f v).frings = s.frings := rfl
@[simp] theorem State.setFn_ports (s : State) (f : FuncId) (v : Fn) : (s.setFn f v).ports = s.ports := rfl
@[simp] theorem State.setFn_fab (s : State) (f : FuncId) (v : Fn) : (s.setFn f v).fab = s.fab := rfl
@[simp] theorem State.setFn_hub (s : State) (f : FuncId) (v : Fn) : (s.setFn f v).hub = s.hub := rfl
@[simp] theorem State.setFn_store (s : State) (f : FuncId) (v : Fn) : (s.setFn f v).store = s.store := rfl
@[simp] theorem State.setFn_meas (s : State) (f : FuncId) (v : Fn) : (s.setFn f v).meas = s.meas := rfl
@[simp] theorem State.setFn_spdmDoe (s : State) (f : FuncId) (v : Fn) : (s.setFn f v).spdmDoe = s.spdmDoe := rfl
@[simp] theorem State.setFn_spdmMctp (s : State) (f : FuncId) (v : Fn) : (s.setFn f v).spdmMctp = s.spdmMctp := rfl
@[simp] theorem State.setFn_boot (s : State) (f : FuncId) (v : Fn) : (s.setFn f v).boot = s.boot := rfl
@[simp] theorem State.setFn_fw (s : State) (f : FuncId) (v : Fn) : (s.setFn f v).fw = s.fw := rfl
@[simp] theorem State.setFn_ledgerFrac (s : State) (f : FuncId) (v : Fn) : (s.setFn f v).ledgerFrac = s.ledgerFrac := rfl
@[simp] theorem State.setFn_trcSeq (s : State) (f : FuncId) (v : Fn) : (s.setFn f v).trcSeq = s.trcSeq := rfl
@[simp] theorem State.setFn_trcDrop (s : State) (f : FuncId) (v : Fn) : (s.setFn f v).trcDrop = s.trcDrop := rfl
@[simp] theorem State.setFn_trcTok (s : State) (f : FuncId) (v : Fn) : (s.setFn f v).trcTok = s.trcTok := rfl
@[simp] theorem State.setFn_busyNs (s : State) (f : FuncId) (v : Fn) : (s.setFn f v).busyNs = s.busyNs := rfl
@[simp] theorem State.setFn_acct (s : State) (f : FuncId) (v : Fn) : (s.setFn f v).acct = s.acct := rfl
@[simp] theorem State.setFn_ledgerQ (s : State) (f : FuncId) (v : Fn) : (s.setFn f v).ledgerQ = s.ledgerQ := rfl

/-! ### modCtx -/

@[simp] theorem State.modCtx_pending (s : State) (n : CtxId) (f : Ctx → Ctx) : (s.modCtx n f).pending = s.pending := rfl
@[simp] theorem State.modCtx_out (s : State) (n : CtxId) (f : Ctx → Ctx) : (s.modCtx n f).out = s.out := rfl
@[simp] theorem State.modCtx_free (s : State) (n : CtxId) (f : Ctx → Ctx) : (s.modCtx n f).free = s.free := rfl
@[simp] theorem State.modCtx_now (s : State) (n : CtxId) (f : Ctx → Ctx) : (s.modCtx n f).now = s.now := rfl
@[simp] theorem State.modCtx_regs (s : State) (n : CtxId) (f : Ctx → Ctx) : (s.modCtx n f).regs = s.regs := rfl
@[simp] theorem State.modCtx_latches (s : State) (n : CtxId) (f : Ctx → Ctx) : (s.modCtx n f).latches = s.latches := rfl
@[simp] theorem State.modCtx_mem (s : State) (n : CtxId) (f : Ctx → Ctx) : (s.modCtx n f).mem = s.mem := rfl
@[simp] theorem State.modCtx_hostMem (s : State) (n : CtxId) (f : Ctx → Ctx) : (s.modCtx n f).hostMem = s.hostMem := rfl
@[simp] theorem State.modCtx_bad (s : State) (n : CtxId) (f : Ctx → Ctx) : (s.modCtx n f).bad = s.bad := rfl
@[simp] theorem State.modCtx_scrambled (s : State) (n : CtxId) (f : Ctx → Ctx) : (s.modCtx n f).scrambled = s.scrambled := rfl
@[simp] theorem State.modCtx_held (s : State) (n : CtxId) (f : Ctx → Ctx) : (s.modCtx n f).held = s.held := rfl
@[simp] theorem State.modCtx_regionMap (s : State) (n : CtxId) (f : Ctx → Ctx) : (s.modCtx n f).regionMap = s.regionMap := rfl
@[simp] theorem State.modCtx_commitBusy (s : State) (n : CtxId) (f : Ctx → Ctx) : (s.modCtx n f).commitBusy = s.commitBusy := rfl
@[simp] theorem State.modCtx_fns (s : State) (n : CtxId) (f : Ctx → Ctx) : (s.modCtx n f).fns = s.fns := rfl
@[simp] theorem State.modCtx_rings (s : State) (n : CtxId) (f : Ctx → Ctx) : (s.modCtx n f).rings = s.rings := rfl
@[simp] theorem State.modCtx_nextSeq (s : State) (n : CtxId) (f : Ctx → Ctx) : (s.modCtx n f).nextSeq = s.nextSeq := rfl
@[simp] theorem State.modCtx_descs (s : State) (n : CtxId) (f : Ctx → Ctx) : (s.modCtx n f).descs = s.descs := rfl
@[simp] theorem State.modCtx_plans (s : State) (n : CtxId) (f : Ctx → Ctx) : (s.modCtx n f).plans = s.plans := rfl
@[simp] theorem State.modCtx_chains (s : State) (n : CtxId) (f : Ctx → Ctx) : (s.modCtx n f).chains = s.chains := rfl
@[simp] theorem State.modCtx_disps (s : State) (n : CtxId) (f : Ctx → Ctx) : (s.modCtx n f).disps = s.disps := rfl
@[simp] theorem State.modCtx_switches (s : State) (n : CtxId) (f : Ctx → Ctx) : (s.modCtx n f).switches = s.switches := rfl
@[simp] theorem State.modCtx_recovery (s : State) (n : CtxId) (f : Ctx → Ctx) : (s.modCtx n f).recovery = s.recovery := rfl
@[simp] theorem State.modCtx_reports (s : State) (n : CtxId) (f : Ctx → Ctx) : (s.modCtx n f).reports = s.reports := rfl
@[simp] theorem State.modCtx_arb (s : State) (n : CtxId) (f : Ctx → Ctx) : (s.modCtx n f).arb = s.arb := rfl
@[simp] theorem State.modCtx_cores (s : State) (n : CtxId) (f : Ctx → Ctx) : (s.modCtx n f).cores = s.cores := rfl
@[simp] theorem State.modCtx_dies (s : State) (n : CtxId) (f : Ctx → Ctx) : (s.modCtx n f).dies = s.dies := rfl
@[simp] theorem State.modCtx_credits (s : State) (n : CtxId) (f : Ctx → Ctx) : (s.modCtx n f).credits = s.credits := rfl
@[simp] theorem State.modCtx_colls (s : State) (n : CtxId) (f : Ctx → Ctx) : (s.modCtx n f).colls = s.colls := rfl
@[simp] theorem State.modCtx_combs (s : State) (n : CtxId) (f : Ctx → Ctx) : (s.modCtx n f).combs = s.combs := rfl
@[simp] theorem State.modCtx_arms (s : State) (n : CtxId) (f : Ctx → Ctx) : (s.modCtx n f).arms = s.arms := rfl
@[simp] theorem State.modCtx_hops (s : State) (n : CtxId) (f : Ctx → Ctx) : (s.modCtx n f).hops = s.hops := rfl
@[simp] theorem State.modCtx_streams (s : State) (n : CtxId) (f : Ctx → Ctx) : (s.modCtx n f).streams = s.streams := rfl
@[simp] theorem State.modCtx_dmaq (s : State) (n : CtxId) (f : Ctx → Ctx) : (s.modCtx n f).dmaq = s.dmaq := rfl
@[simp] theorem State.modCtx_mcs (s : State) (n : CtxId) (f : Ctx → Ctx) : (s.modCtx n f).mcs = s.mcs := rfl
@[simp] theorem State.modCtx_frings (s : State) (n : CtxId) (f : Ctx → Ctx) : (s.modCtx n f).frings = s.frings := rfl
@[simp] theorem State.modCtx_ports (s : State) (n : CtxId) (f : Ctx → Ctx) : (s.modCtx n f).ports = s.ports := rfl
@[simp] theorem State.modCtx_fab (s : State) (n : CtxId) (f : Ctx → Ctx) : (s.modCtx n f).fab = s.fab := rfl
@[simp] theorem State.modCtx_hub (s : State) (n : CtxId) (f : Ctx → Ctx) : (s.modCtx n f).hub = s.hub := rfl
@[simp] theorem State.modCtx_store (s : State) (n : CtxId) (f : Ctx → Ctx) : (s.modCtx n f).store = s.store := rfl
@[simp] theorem State.modCtx_meas (s : State) (n : CtxId) (f : Ctx → Ctx) : (s.modCtx n f).meas = s.meas := rfl
@[simp] theorem State.modCtx_spdmDoe (s : State) (n : CtxId) (f : Ctx → Ctx) : (s.modCtx n f).spdmDoe = s.spdmDoe := rfl
@[simp] theorem State.modCtx_spdmMctp (s : State) (n : CtxId) (f : Ctx → Ctx) : (s.modCtx n f).spdmMctp = s.spdmMctp := rfl
@[simp] theorem State.modCtx_boot (s : State) (n : CtxId) (f : Ctx → Ctx) : (s.modCtx n f).boot = s.boot := rfl
@[simp] theorem State.modCtx_fw (s : State) (n : CtxId) (f : Ctx → Ctx) : (s.modCtx n f).fw = s.fw := rfl
@[simp] theorem State.modCtx_ledgerFrac (s : State) (n : CtxId) (f : Ctx → Ctx) : (s.modCtx n f).ledgerFrac = s.ledgerFrac := rfl
@[simp] theorem State.modCtx_trcSeq (s : State) (n : CtxId) (f : Ctx → Ctx) : (s.modCtx n f).trcSeq = s.trcSeq := rfl
@[simp] theorem State.modCtx_trcDrop (s : State) (n : CtxId) (f : Ctx → Ctx) : (s.modCtx n f).trcDrop = s.trcDrop := rfl
@[simp] theorem State.modCtx_trcTok (s : State) (n : CtxId) (f : Ctx → Ctx) : (s.modCtx n f).trcTok = s.trcTok := rfl
@[simp] theorem State.modCtx_busyNs (s : State) (n : CtxId) (f : Ctx → Ctx) : (s.modCtx n f).busyNs = s.busyNs := rfl
@[simp] theorem State.modCtx_acct (s : State) (n : CtxId) (f : Ctx → Ctx) : (s.modCtx n f).acct = s.acct := rfl
@[simp] theorem State.modCtx_ledgerQ (s : State) (n : CtxId) (f : Ctx → Ctx) : (s.modCtx n f).ledgerQ = s.ledgerQ := rfl

/-! ### modRing -/

@[simp] theorem State.modRing_pending (s : State) (r : RingId) (f : Ring → Ring) : (s.modRing r f).pending = s.pending := rfl
@[simp] theorem State.modRing_out (s : State) (r : RingId) (f : Ring → Ring) : (s.modRing r f).out = s.out := rfl
@[simp] theorem State.modRing_free (s : State) (r : RingId) (f : Ring → Ring) : (s.modRing r f).free = s.free := rfl
@[simp] theorem State.modRing_now (s : State) (r : RingId) (f : Ring → Ring) : (s.modRing r f).now = s.now := rfl
@[simp] theorem State.modRing_regs (s : State) (r : RingId) (f : Ring → Ring) : (s.modRing r f).regs = s.regs := rfl
@[simp] theorem State.modRing_latches (s : State) (r : RingId) (f : Ring → Ring) : (s.modRing r f).latches = s.latches := rfl
@[simp] theorem State.modRing_mem (s : State) (r : RingId) (f : Ring → Ring) : (s.modRing r f).mem = s.mem := rfl
@[simp] theorem State.modRing_hostMem (s : State) (r : RingId) (f : Ring → Ring) : (s.modRing r f).hostMem = s.hostMem := rfl
@[simp] theorem State.modRing_bad (s : State) (r : RingId) (f : Ring → Ring) : (s.modRing r f).bad = s.bad := rfl
@[simp] theorem State.modRing_scrambled (s : State) (r : RingId) (f : Ring → Ring) : (s.modRing r f).scrambled = s.scrambled := rfl
@[simp] theorem State.modRing_held (s : State) (r : RingId) (f : Ring → Ring) : (s.modRing r f).held = s.held := rfl
@[simp] theorem State.modRing_regionMap (s : State) (r : RingId) (f : Ring → Ring) : (s.modRing r f).regionMap = s.regionMap := rfl
@[simp] theorem State.modRing_commitBusy (s : State) (r : RingId) (f : Ring → Ring) : (s.modRing r f).commitBusy = s.commitBusy := rfl
@[simp] theorem State.modRing_fns (s : State) (r : RingId) (f : Ring → Ring) : (s.modRing r f).fns = s.fns := rfl
@[simp] theorem State.modRing_ctxs (s : State) (r : RingId) (f : Ring → Ring) : (s.modRing r f).ctxs = s.ctxs := rfl
@[simp] theorem State.modRing_nextSeq (s : State) (r : RingId) (f : Ring → Ring) : (s.modRing r f).nextSeq = s.nextSeq := rfl
@[simp] theorem State.modRing_descs (s : State) (r : RingId) (f : Ring → Ring) : (s.modRing r f).descs = s.descs := rfl
@[simp] theorem State.modRing_plans (s : State) (r : RingId) (f : Ring → Ring) : (s.modRing r f).plans = s.plans := rfl
@[simp] theorem State.modRing_chains (s : State) (r : RingId) (f : Ring → Ring) : (s.modRing r f).chains = s.chains := rfl
@[simp] theorem State.modRing_disps (s : State) (r : RingId) (f : Ring → Ring) : (s.modRing r f).disps = s.disps := rfl
@[simp] theorem State.modRing_switches (s : State) (r : RingId) (f : Ring → Ring) : (s.modRing r f).switches = s.switches := rfl
@[simp] theorem State.modRing_recovery (s : State) (r : RingId) (f : Ring → Ring) : (s.modRing r f).recovery = s.recovery := rfl
@[simp] theorem State.modRing_reports (s : State) (r : RingId) (f : Ring → Ring) : (s.modRing r f).reports = s.reports := rfl
@[simp] theorem State.modRing_arb (s : State) (r : RingId) (f : Ring → Ring) : (s.modRing r f).arb = s.arb := rfl
@[simp] theorem State.modRing_cores (s : State) (r : RingId) (f : Ring → Ring) : (s.modRing r f).cores = s.cores := rfl
@[simp] theorem State.modRing_dies (s : State) (r : RingId) (f : Ring → Ring) : (s.modRing r f).dies = s.dies := rfl
@[simp] theorem State.modRing_credits (s : State) (r : RingId) (f : Ring → Ring) : (s.modRing r f).credits = s.credits := rfl
@[simp] theorem State.modRing_colls (s : State) (r : RingId) (f : Ring → Ring) : (s.modRing r f).colls = s.colls := rfl
@[simp] theorem State.modRing_combs (s : State) (r : RingId) (f : Ring → Ring) : (s.modRing r f).combs = s.combs := rfl
@[simp] theorem State.modRing_arms (s : State) (r : RingId) (f : Ring → Ring) : (s.modRing r f).arms = s.arms := rfl
@[simp] theorem State.modRing_hops (s : State) (r : RingId) (f : Ring → Ring) : (s.modRing r f).hops = s.hops := rfl
@[simp] theorem State.modRing_streams (s : State) (r : RingId) (f : Ring → Ring) : (s.modRing r f).streams = s.streams := rfl
@[simp] theorem State.modRing_dmaq (s : State) (r : RingId) (f : Ring → Ring) : (s.modRing r f).dmaq = s.dmaq := rfl
@[simp] theorem State.modRing_mcs (s : State) (r : RingId) (f : Ring → Ring) : (s.modRing r f).mcs = s.mcs := rfl
@[simp] theorem State.modRing_frings (s : State) (r : RingId) (f : Ring → Ring) : (s.modRing r f).frings = s.frings := rfl
@[simp] theorem State.modRing_ports (s : State) (r : RingId) (f : Ring → Ring) : (s.modRing r f).ports = s.ports := rfl
@[simp] theorem State.modRing_fab (s : State) (r : RingId) (f : Ring → Ring) : (s.modRing r f).fab = s.fab := rfl
@[simp] theorem State.modRing_hub (s : State) (r : RingId) (f : Ring → Ring) : (s.modRing r f).hub = s.hub := rfl
@[simp] theorem State.modRing_store (s : State) (r : RingId) (f : Ring → Ring) : (s.modRing r f).store = s.store := rfl
@[simp] theorem State.modRing_meas (s : State) (r : RingId) (f : Ring → Ring) : (s.modRing r f).meas = s.meas := rfl
@[simp] theorem State.modRing_spdmDoe (s : State) (r : RingId) (f : Ring → Ring) : (s.modRing r f).spdmDoe = s.spdmDoe := rfl
@[simp] theorem State.modRing_spdmMctp (s : State) (r : RingId) (f : Ring → Ring) : (s.modRing r f).spdmMctp = s.spdmMctp := rfl
@[simp] theorem State.modRing_boot (s : State) (r : RingId) (f : Ring → Ring) : (s.modRing r f).boot = s.boot := rfl
@[simp] theorem State.modRing_fw (s : State) (r : RingId) (f : Ring → Ring) : (s.modRing r f).fw = s.fw := rfl
@[simp] theorem State.modRing_ledgerFrac (s : State) (r : RingId) (f : Ring → Ring) : (s.modRing r f).ledgerFrac = s.ledgerFrac := rfl
@[simp] theorem State.modRing_trcSeq (s : State) (r : RingId) (f : Ring → Ring) : (s.modRing r f).trcSeq = s.trcSeq := rfl
@[simp] theorem State.modRing_trcDrop (s : State) (r : RingId) (f : Ring → Ring) : (s.modRing r f).trcDrop = s.trcDrop := rfl
@[simp] theorem State.modRing_trcTok (s : State) (r : RingId) (f : Ring → Ring) : (s.modRing r f).trcTok = s.trcTok := rfl
@[simp] theorem State.modRing_busyNs (s : State) (r : RingId) (f : Ring → Ring) : (s.modRing r f).busyNs = s.busyNs := rfl
@[simp] theorem State.modRing_acct (s : State) (r : RingId) (f : Ring → Ring) : (s.modRing r f).acct = s.acct := rfl
@[simp] theorem State.modRing_ledgerQ (s : State) (r : RingId) (f : Ring → Ring) : (s.modRing r f).ledgerQ = s.ledgerQ := rfl

/-! ### modCore -/

@[simp] theorem State.modCore_pending (s : State) (d : Die) (p : PCore) (f : Core → Core) : (s.modCore d p f).pending = s.pending := rfl
@[simp] theorem State.modCore_out (s : State) (d : Die) (p : PCore) (f : Core → Core) : (s.modCore d p f).out = s.out := rfl
@[simp] theorem State.modCore_free (s : State) (d : Die) (p : PCore) (f : Core → Core) : (s.modCore d p f).free = s.free := rfl
@[simp] theorem State.modCore_now (s : State) (d : Die) (p : PCore) (f : Core → Core) : (s.modCore d p f).now = s.now := rfl
@[simp] theorem State.modCore_regs (s : State) (d : Die) (p : PCore) (f : Core → Core) : (s.modCore d p f).regs = s.regs := rfl
@[simp] theorem State.modCore_latches (s : State) (d : Die) (p : PCore) (f : Core → Core) : (s.modCore d p f).latches = s.latches := rfl
@[simp] theorem State.modCore_mem (s : State) (d : Die) (p : PCore) (f : Core → Core) : (s.modCore d p f).mem = s.mem := rfl
@[simp] theorem State.modCore_hostMem (s : State) (d : Die) (p : PCore) (f : Core → Core) : (s.modCore d p f).hostMem = s.hostMem := rfl
@[simp] theorem State.modCore_bad (s : State) (d : Die) (p : PCore) (f : Core → Core) : (s.modCore d p f).bad = s.bad := rfl
@[simp] theorem State.modCore_scrambled (s : State) (d : Die) (p : PCore) (f : Core → Core) : (s.modCore d p f).scrambled = s.scrambled := rfl
@[simp] theorem State.modCore_held (s : State) (d : Die) (p : PCore) (f : Core → Core) : (s.modCore d p f).held = s.held := rfl
@[simp] theorem State.modCore_regionMap (s : State) (d : Die) (p : PCore) (f : Core → Core) : (s.modCore d p f).regionMap = s.regionMap := rfl
@[simp] theorem State.modCore_commitBusy (s : State) (d : Die) (p : PCore) (f : Core → Core) : (s.modCore d p f).commitBusy = s.commitBusy := rfl
@[simp] theorem State.modCore_fns (s : State) (d : Die) (p : PCore) (f : Core → Core) : (s.modCore d p f).fns = s.fns := rfl
@[simp] theorem State.modCore_ctxs (s : State) (d : Die) (p : PCore) (f : Core → Core) : (s.modCore d p f).ctxs = s.ctxs := rfl
@[simp] theorem State.modCore_rings (s : State) (d : Die) (p : PCore) (f : Core → Core) : (s.modCore d p f).rings = s.rings := rfl
@[simp] theorem State.modCore_nextSeq (s : State) (d : Die) (p : PCore) (f : Core → Core) : (s.modCore d p f).nextSeq = s.nextSeq := rfl
@[simp] theorem State.modCore_descs (s : State) (d : Die) (p : PCore) (f : Core → Core) : (s.modCore d p f).descs = s.descs := rfl
@[simp] theorem State.modCore_plans (s : State) (d : Die) (p : PCore) (f : Core → Core) : (s.modCore d p f).plans = s.plans := rfl
@[simp] theorem State.modCore_chains (s : State) (d : Die) (p : PCore) (f : Core → Core) : (s.modCore d p f).chains = s.chains := rfl
@[simp] theorem State.modCore_disps (s : State) (d : Die) (p : PCore) (f : Core → Core) : (s.modCore d p f).disps = s.disps := rfl
@[simp] theorem State.modCore_switches (s : State) (d : Die) (p : PCore) (f : Core → Core) : (s.modCore d p f).switches = s.switches := rfl
@[simp] theorem State.modCore_recovery (s : State) (d : Die) (p : PCore) (f : Core → Core) : (s.modCore d p f).recovery = s.recovery := rfl
@[simp] theorem State.modCore_reports (s : State) (d : Die) (p : PCore) (f : Core → Core) : (s.modCore d p f).reports = s.reports := rfl
@[simp] theorem State.modCore_arb (s : State) (d : Die) (p : PCore) (f : Core → Core) : (s.modCore d p f).arb = s.arb := rfl
@[simp] theorem State.modCore_dies (s : State) (d : Die) (p : PCore) (f : Core → Core) : (s.modCore d p f).dies = s.dies := rfl
@[simp] theorem State.modCore_credits (s : State) (d : Die) (p : PCore) (f : Core → Core) : (s.modCore d p f).credits = s.credits := rfl
@[simp] theorem State.modCore_colls (s : State) (d : Die) (p : PCore) (f : Core → Core) : (s.modCore d p f).colls = s.colls := rfl
@[simp] theorem State.modCore_combs (s : State) (d : Die) (p : PCore) (f : Core → Core) : (s.modCore d p f).combs = s.combs := rfl
@[simp] theorem State.modCore_arms (s : State) (d : Die) (p : PCore) (f : Core → Core) : (s.modCore d p f).arms = s.arms := rfl
@[simp] theorem State.modCore_hops (s : State) (d : Die) (p : PCore) (f : Core → Core) : (s.modCore d p f).hops = s.hops := rfl
@[simp] theorem State.modCore_streams (s : State) (d : Die) (p : PCore) (f : Core → Core) : (s.modCore d p f).streams = s.streams := rfl
@[simp] theorem State.modCore_dmaq (s : State) (d : Die) (p : PCore) (f : Core → Core) : (s.modCore d p f).dmaq = s.dmaq := rfl
@[simp] theorem State.modCore_mcs (s : State) (d : Die) (p : PCore) (f : Core → Core) : (s.modCore d p f).mcs = s.mcs := rfl
@[simp] theorem State.modCore_frings (s : State) (d : Die) (p : PCore) (f : Core → Core) : (s.modCore d p f).frings = s.frings := rfl
@[simp] theorem State.modCore_ports (s : State) (d : Die) (p : PCore) (f : Core → Core) : (s.modCore d p f).ports = s.ports := rfl
@[simp] theorem State.modCore_fab (s : State) (d : Die) (p : PCore) (f : Core → Core) : (s.modCore d p f).fab = s.fab := rfl
@[simp] theorem State.modCore_hub (s : State) (d : Die) (p : PCore) (f : Core → Core) : (s.modCore d p f).hub = s.hub := rfl
@[simp] theorem State.modCore_store (s : State) (d : Die) (p : PCore) (f : Core → Core) : (s.modCore d p f).store = s.store := rfl
@[simp] theorem State.modCore_meas (s : State) (d : Die) (p : PCore) (f : Core → Core) : (s.modCore d p f).meas = s.meas := rfl
@[simp] theorem State.modCore_spdmDoe (s : State) (d : Die) (p : PCore) (f : Core → Core) : (s.modCore d p f).spdmDoe = s.spdmDoe := rfl
@[simp] theorem State.modCore_spdmMctp (s : State) (d : Die) (p : PCore) (f : Core → Core) : (s.modCore d p f).spdmMctp = s.spdmMctp := rfl
@[simp] theorem State.modCore_boot (s : State) (d : Die) (p : PCore) (f : Core → Core) : (s.modCore d p f).boot = s.boot := rfl
@[simp] theorem State.modCore_fw (s : State) (d : Die) (p : PCore) (f : Core → Core) : (s.modCore d p f).fw = s.fw := rfl
@[simp] theorem State.modCore_ledgerFrac (s : State) (d : Die) (p : PCore) (f : Core → Core) : (s.modCore d p f).ledgerFrac = s.ledgerFrac := rfl
@[simp] theorem State.modCore_trcSeq (s : State) (d : Die) (p : PCore) (f : Core → Core) : (s.modCore d p f).trcSeq = s.trcSeq := rfl
@[simp] theorem State.modCore_trcDrop (s : State) (d : Die) (p : PCore) (f : Core → Core) : (s.modCore d p f).trcDrop = s.trcDrop := rfl
@[simp] theorem State.modCore_trcTok (s : State) (d : Die) (p : PCore) (f : Core → Core) : (s.modCore d p f).trcTok = s.trcTok := rfl
@[simp] theorem State.modCore_busyNs (s : State) (d : Die) (p : PCore) (f : Core → Core) : (s.modCore d p f).busyNs = s.busyNs := rfl
@[simp] theorem State.modCore_acct (s : State) (d : Die) (p : PCore) (f : Core → Core) : (s.modCore d p f).acct = s.acct := rfl
@[simp] theorem State.modCore_ledgerQ (s : State) (d : Die) (p : PCore) (f : Core → Core) : (s.modCore d p f).ledgerQ = s.ledgerQ := rfl

/-! ### modDie -/

@[simp] theorem State.modDie_pending (s : State) (d : Die) (f : DieSt → DieSt) : (s.modDie d f).pending = s.pending := rfl
@[simp] theorem State.modDie_out (s : State) (d : Die) (f : DieSt → DieSt) : (s.modDie d f).out = s.out := rfl
@[simp] theorem State.modDie_free (s : State) (d : Die) (f : DieSt → DieSt) : (s.modDie d f).free = s.free := rfl
@[simp] theorem State.modDie_now (s : State) (d : Die) (f : DieSt → DieSt) : (s.modDie d f).now = s.now := rfl
@[simp] theorem State.modDie_regs (s : State) (d : Die) (f : DieSt → DieSt) : (s.modDie d f).regs = s.regs := rfl
@[simp] theorem State.modDie_latches (s : State) (d : Die) (f : DieSt → DieSt) : (s.modDie d f).latches = s.latches := rfl
@[simp] theorem State.modDie_mem (s : State) (d : Die) (f : DieSt → DieSt) : (s.modDie d f).mem = s.mem := rfl
@[simp] theorem State.modDie_hostMem (s : State) (d : Die) (f : DieSt → DieSt) : (s.modDie d f).hostMem = s.hostMem := rfl
@[simp] theorem State.modDie_bad (s : State) (d : Die) (f : DieSt → DieSt) : (s.modDie d f).bad = s.bad := rfl
@[simp] theorem State.modDie_scrambled (s : State) (d : Die) (f : DieSt → DieSt) : (s.modDie d f).scrambled = s.scrambled := rfl
@[simp] theorem State.modDie_held (s : State) (d : Die) (f : DieSt → DieSt) : (s.modDie d f).held = s.held := rfl
@[simp] theorem State.modDie_regionMap (s : State) (d : Die) (f : DieSt → DieSt) : (s.modDie d f).regionMap = s.regionMap := rfl
@[simp] theorem State.modDie_commitBusy (s : State) (d : Die) (f : DieSt → DieSt) : (s.modDie d f).commitBusy = s.commitBusy := rfl
@[simp] theorem State.modDie_fns (s : State) (d : Die) (f : DieSt → DieSt) : (s.modDie d f).fns = s.fns := rfl
@[simp] theorem State.modDie_ctxs (s : State) (d : Die) (f : DieSt → DieSt) : (s.modDie d f).ctxs = s.ctxs := rfl
@[simp] theorem State.modDie_rings (s : State) (d : Die) (f : DieSt → DieSt) : (s.modDie d f).rings = s.rings := rfl
@[simp] theorem State.modDie_nextSeq (s : State) (d : Die) (f : DieSt → DieSt) : (s.modDie d f).nextSeq = s.nextSeq := rfl
@[simp] theorem State.modDie_descs (s : State) (d : Die) (f : DieSt → DieSt) : (s.modDie d f).descs = s.descs := rfl
@[simp] theorem State.modDie_plans (s : State) (d : Die) (f : DieSt → DieSt) : (s.modDie d f).plans = s.plans := rfl
@[simp] theorem State.modDie_chains (s : State) (d : Die) (f : DieSt → DieSt) : (s.modDie d f).chains = s.chains := rfl
@[simp] theorem State.modDie_disps (s : State) (d : Die) (f : DieSt → DieSt) : (s.modDie d f).disps = s.disps := rfl
@[simp] theorem State.modDie_switches (s : State) (d : Die) (f : DieSt → DieSt) : (s.modDie d f).switches = s.switches := rfl
@[simp] theorem State.modDie_recovery (s : State) (d : Die) (f : DieSt → DieSt) : (s.modDie d f).recovery = s.recovery := rfl
@[simp] theorem State.modDie_reports (s : State) (d : Die) (f : DieSt → DieSt) : (s.modDie d f).reports = s.reports := rfl
@[simp] theorem State.modDie_arb (s : State) (d : Die) (f : DieSt → DieSt) : (s.modDie d f).arb = s.arb := rfl
@[simp] theorem State.modDie_cores (s : State) (d : Die) (f : DieSt → DieSt) : (s.modDie d f).cores = s.cores := rfl
@[simp] theorem State.modDie_credits (s : State) (d : Die) (f : DieSt → DieSt) : (s.modDie d f).credits = s.credits := rfl
@[simp] theorem State.modDie_colls (s : State) (d : Die) (f : DieSt → DieSt) : (s.modDie d f).colls = s.colls := rfl
@[simp] theorem State.modDie_combs (s : State) (d : Die) (f : DieSt → DieSt) : (s.modDie d f).combs = s.combs := rfl
@[simp] theorem State.modDie_arms (s : State) (d : Die) (f : DieSt → DieSt) : (s.modDie d f).arms = s.arms := rfl
@[simp] theorem State.modDie_hops (s : State) (d : Die) (f : DieSt → DieSt) : (s.modDie d f).hops = s.hops := rfl
@[simp] theorem State.modDie_streams (s : State) (d : Die) (f : DieSt → DieSt) : (s.modDie d f).streams = s.streams := rfl
@[simp] theorem State.modDie_dmaq (s : State) (d : Die) (f : DieSt → DieSt) : (s.modDie d f).dmaq = s.dmaq := rfl
@[simp] theorem State.modDie_mcs (s : State) (d : Die) (f : DieSt → DieSt) : (s.modDie d f).mcs = s.mcs := rfl
@[simp] theorem State.modDie_frings (s : State) (d : Die) (f : DieSt → DieSt) : (s.modDie d f).frings = s.frings := rfl
@[simp] theorem State.modDie_ports (s : State) (d : Die) (f : DieSt → DieSt) : (s.modDie d f).ports = s.ports := rfl
@[simp] theorem State.modDie_fab (s : State) (d : Die) (f : DieSt → DieSt) : (s.modDie d f).fab = s.fab := rfl
@[simp] theorem State.modDie_hub (s : State) (d : Die) (f : DieSt → DieSt) : (s.modDie d f).hub = s.hub := rfl
@[simp] theorem State.modDie_store (s : State) (d : Die) (f : DieSt → DieSt) : (s.modDie d f).store = s.store := rfl
@[simp] theorem State.modDie_meas (s : State) (d : Die) (f : DieSt → DieSt) : (s.modDie d f).meas = s.meas := rfl
@[simp] theorem State.modDie_spdmDoe (s : State) (d : Die) (f : DieSt → DieSt) : (s.modDie d f).spdmDoe = s.spdmDoe := rfl
@[simp] theorem State.modDie_spdmMctp (s : State) (d : Die) (f : DieSt → DieSt) : (s.modDie d f).spdmMctp = s.spdmMctp := rfl
@[simp] theorem State.modDie_boot (s : State) (d : Die) (f : DieSt → DieSt) : (s.modDie d f).boot = s.boot := rfl
@[simp] theorem State.modDie_fw (s : State) (d : Die) (f : DieSt → DieSt) : (s.modDie d f).fw = s.fw := rfl
@[simp] theorem State.modDie_ledgerFrac (s : State) (d : Die) (f : DieSt → DieSt) : (s.modDie d f).ledgerFrac = s.ledgerFrac := rfl
@[simp] theorem State.modDie_trcSeq (s : State) (d : Die) (f : DieSt → DieSt) : (s.modDie d f).trcSeq = s.trcSeq := rfl
@[simp] theorem State.modDie_trcDrop (s : State) (d : Die) (f : DieSt → DieSt) : (s.modDie d f).trcDrop = s.trcDrop := rfl
@[simp] theorem State.modDie_trcTok (s : State) (d : Die) (f : DieSt → DieSt) : (s.modDie d f).trcTok = s.trcTok := rfl
@[simp] theorem State.modDie_busyNs (s : State) (d : Die) (f : DieSt → DieSt) : (s.modDie d f).busyNs = s.busyNs := rfl
@[simp] theorem State.modDie_acct (s : State) (d : Die) (f : DieSt → DieSt) : (s.modDie d f).acct = s.acct := rfl
@[simp] theorem State.modDie_ledgerQ (s : State) (d : Die) (f : DieSt → DieSt) : (s.modDie d f).ledgerQ = s.ledgerQ := rfl

/-! ### modStream -/

@[simp] theorem State.modStream_pending (s : State) (d : Die) (h : Fin 256) (f : Stream → Stream) : (s.modStream d h f).pending = s.pending := rfl
@[simp] theorem State.modStream_out (s : State) (d : Die) (h : Fin 256) (f : Stream → Stream) : (s.modStream d h f).out = s.out := rfl
@[simp] theorem State.modStream_free (s : State) (d : Die) (h : Fin 256) (f : Stream → Stream) : (s.modStream d h f).free = s.free := rfl
@[simp] theorem State.modStream_now (s : State) (d : Die) (h : Fin 256) (f : Stream → Stream) : (s.modStream d h f).now = s.now := rfl
@[simp] theorem State.modStream_regs (s : State) (d : Die) (h : Fin 256) (f : Stream → Stream) : (s.modStream d h f).regs = s.regs := rfl
@[simp] theorem State.modStream_latches (s : State) (d : Die) (h : Fin 256) (f : Stream → Stream) : (s.modStream d h f).latches = s.latches := rfl
@[simp] theorem State.modStream_mem (s : State) (d : Die) (h : Fin 256) (f : Stream → Stream) : (s.modStream d h f).mem = s.mem := rfl
@[simp] theorem State.modStream_hostMem (s : State) (d : Die) (h : Fin 256) (f : Stream → Stream) : (s.modStream d h f).hostMem = s.hostMem := rfl
@[simp] theorem State.modStream_bad (s : State) (d : Die) (h : Fin 256) (f : Stream → Stream) : (s.modStream d h f).bad = s.bad := rfl
@[simp] theorem State.modStream_scrambled (s : State) (d : Die) (h : Fin 256) (f : Stream → Stream) : (s.modStream d h f).scrambled = s.scrambled := rfl
@[simp] theorem State.modStream_held (s : State) (d : Die) (h : Fin 256) (f : Stream → Stream) : (s.modStream d h f).held = s.held := rfl
@[simp] theorem State.modStream_regionMap (s : State) (d : Die) (h : Fin 256) (f : Stream → Stream) : (s.modStream d h f).regionMap = s.regionMap := rfl
@[simp] theorem State.modStream_commitBusy (s : State) (d : Die) (h : Fin 256) (f : Stream → Stream) : (s.modStream d h f).commitBusy = s.commitBusy := rfl
@[simp] theorem State.modStream_fns (s : State) (d : Die) (h : Fin 256) (f : Stream → Stream) : (s.modStream d h f).fns = s.fns := rfl
@[simp] theorem State.modStream_ctxs (s : State) (d : Die) (h : Fin 256) (f : Stream → Stream) : (s.modStream d h f).ctxs = s.ctxs := rfl
@[simp] theorem State.modStream_rings (s : State) (d : Die) (h : Fin 256) (f : Stream → Stream) : (s.modStream d h f).rings = s.rings := rfl
@[simp] theorem State.modStream_nextSeq (s : State) (d : Die) (h : Fin 256) (f : Stream → Stream) : (s.modStream d h f).nextSeq = s.nextSeq := rfl
@[simp] theorem State.modStream_descs (s : State) (d : Die) (h : Fin 256) (f : Stream → Stream) : (s.modStream d h f).descs = s.descs := rfl
@[simp] theorem State.modStream_plans (s : State) (d : Die) (h : Fin 256) (f : Stream → Stream) : (s.modStream d h f).plans = s.plans := rfl
@[simp] theorem State.modStream_chains (s : State) (d : Die) (h : Fin 256) (f : Stream → Stream) : (s.modStream d h f).chains = s.chains := rfl
@[simp] theorem State.modStream_disps (s : State) (d : Die) (h : Fin 256) (f : Stream → Stream) : (s.modStream d h f).disps = s.disps := rfl
@[simp] theorem State.modStream_switches (s : State) (d : Die) (h : Fin 256) (f : Stream → Stream) : (s.modStream d h f).switches = s.switches := rfl
@[simp] theorem State.modStream_recovery (s : State) (d : Die) (h : Fin 256) (f : Stream → Stream) : (s.modStream d h f).recovery = s.recovery := rfl
@[simp] theorem State.modStream_reports (s : State) (d : Die) (h : Fin 256) (f : Stream → Stream) : (s.modStream d h f).reports = s.reports := rfl
@[simp] theorem State.modStream_arb (s : State) (d : Die) (h : Fin 256) (f : Stream → Stream) : (s.modStream d h f).arb = s.arb := rfl
@[simp] theorem State.modStream_cores (s : State) (d : Die) (h : Fin 256) (f : Stream → Stream) : (s.modStream d h f).cores = s.cores := rfl
@[simp] theorem State.modStream_dies (s : State) (d : Die) (h : Fin 256) (f : Stream → Stream) : (s.modStream d h f).dies = s.dies := rfl
@[simp] theorem State.modStream_credits (s : State) (d : Die) (h : Fin 256) (f : Stream → Stream) : (s.modStream d h f).credits = s.credits := rfl
@[simp] theorem State.modStream_colls (s : State) (d : Die) (h : Fin 256) (f : Stream → Stream) : (s.modStream d h f).colls = s.colls := rfl
@[simp] theorem State.modStream_combs (s : State) (d : Die) (h : Fin 256) (f : Stream → Stream) : (s.modStream d h f).combs = s.combs := rfl
@[simp] theorem State.modStream_arms (s : State) (d : Die) (h : Fin 256) (f : Stream → Stream) : (s.modStream d h f).arms = s.arms := rfl
@[simp] theorem State.modStream_hops (s : State) (d : Die) (h : Fin 256) (f : Stream → Stream) : (s.modStream d h f).hops = s.hops := rfl
@[simp] theorem State.modStream_dmaq (s : State) (d : Die) (h : Fin 256) (f : Stream → Stream) : (s.modStream d h f).dmaq = s.dmaq := rfl
@[simp] theorem State.modStream_mcs (s : State) (d : Die) (h : Fin 256) (f : Stream → Stream) : (s.modStream d h f).mcs = s.mcs := rfl
@[simp] theorem State.modStream_frings (s : State) (d : Die) (h : Fin 256) (f : Stream → Stream) : (s.modStream d h f).frings = s.frings := rfl
@[simp] theorem State.modStream_ports (s : State) (d : Die) (h : Fin 256) (f : Stream → Stream) : (s.modStream d h f).ports = s.ports := rfl
@[simp] theorem State.modStream_fab (s : State) (d : Die) (h : Fin 256) (f : Stream → Stream) : (s.modStream d h f).fab = s.fab := rfl
@[simp] theorem State.modStream_hub (s : State) (d : Die) (h : Fin 256) (f : Stream → Stream) : (s.modStream d h f).hub = s.hub := rfl
@[simp] theorem State.modStream_store (s : State) (d : Die) (h : Fin 256) (f : Stream → Stream) : (s.modStream d h f).store = s.store := rfl
@[simp] theorem State.modStream_meas (s : State) (d : Die) (h : Fin 256) (f : Stream → Stream) : (s.modStream d h f).meas = s.meas := rfl
@[simp] theorem State.modStream_spdmDoe (s : State) (d : Die) (h : Fin 256) (f : Stream → Stream) : (s.modStream d h f).spdmDoe = s.spdmDoe := rfl
@[simp] theorem State.modStream_spdmMctp (s : State) (d : Die) (h : Fin 256) (f : Stream → Stream) : (s.modStream d h f).spdmMctp = s.spdmMctp := rfl
@[simp] theorem State.modStream_boot (s : State) (d : Die) (h : Fin 256) (f : Stream → Stream) : (s.modStream d h f).boot = s.boot := rfl
@[simp] theorem State.modStream_fw (s : State) (d : Die) (h : Fin 256) (f : Stream → Stream) : (s.modStream d h f).fw = s.fw := rfl
@[simp] theorem State.modStream_ledgerFrac (s : State) (d : Die) (h : Fin 256) (f : Stream → Stream) : (s.modStream d h f).ledgerFrac = s.ledgerFrac := rfl
@[simp] theorem State.modStream_trcSeq (s : State) (d : Die) (h : Fin 256) (f : Stream → Stream) : (s.modStream d h f).trcSeq = s.trcSeq := rfl
@[simp] theorem State.modStream_trcDrop (s : State) (d : Die) (h : Fin 256) (f : Stream → Stream) : (s.modStream d h f).trcDrop = s.trcDrop := rfl
@[simp] theorem State.modStream_trcTok (s : State) (d : Die) (h : Fin 256) (f : Stream → Stream) : (s.modStream d h f).trcTok = s.trcTok := rfl
@[simp] theorem State.modStream_busyNs (s : State) (d : Die) (h : Fin 256) (f : Stream → Stream) : (s.modStream d h f).busyNs = s.busyNs := rfl
@[simp] theorem State.modStream_acct (s : State) (d : Die) (h : Fin 256) (f : Stream → Stream) : (s.modStream d h f).acct = s.acct := rfl
@[simp] theorem State.modStream_ledgerQ (s : State) (d : Die) (h : Fin 256) (f : Stream → Stream) : (s.modStream d h f).ledgerQ = s.ledgerQ := rfl

/-! ### setDq -/

@[simp] theorem State.setDq_pending (s : State) (q : QueueId) (l : List DmaPart) : (s.setDq q l).pending = s.pending := rfl
@[simp] theorem State.setDq_out (s : State) (q : QueueId) (l : List DmaPart) : (s.setDq q l).out = s.out := rfl
@[simp] theorem State.setDq_free (s : State) (q : QueueId) (l : List DmaPart) : (s.setDq q l).free = s.free := rfl
@[simp] theorem State.setDq_now (s : State) (q : QueueId) (l : List DmaPart) : (s.setDq q l).now = s.now := rfl
@[simp] theorem State.setDq_regs (s : State) (q : QueueId) (l : List DmaPart) : (s.setDq q l).regs = s.regs := rfl
@[simp] theorem State.setDq_latches (s : State) (q : QueueId) (l : List DmaPart) : (s.setDq q l).latches = s.latches := rfl
@[simp] theorem State.setDq_mem (s : State) (q : QueueId) (l : List DmaPart) : (s.setDq q l).mem = s.mem := rfl
@[simp] theorem State.setDq_hostMem (s : State) (q : QueueId) (l : List DmaPart) : (s.setDq q l).hostMem = s.hostMem := rfl
@[simp] theorem State.setDq_bad (s : State) (q : QueueId) (l : List DmaPart) : (s.setDq q l).bad = s.bad := rfl
@[simp] theorem State.setDq_scrambled (s : State) (q : QueueId) (l : List DmaPart) : (s.setDq q l).scrambled = s.scrambled := rfl
@[simp] theorem State.setDq_held (s : State) (q : QueueId) (l : List DmaPart) : (s.setDq q l).held = s.held := rfl
@[simp] theorem State.setDq_regionMap (s : State) (q : QueueId) (l : List DmaPart) : (s.setDq q l).regionMap = s.regionMap := rfl
@[simp] theorem State.setDq_commitBusy (s : State) (q : QueueId) (l : List DmaPart) : (s.setDq q l).commitBusy = s.commitBusy := rfl
@[simp] theorem State.setDq_fns (s : State) (q : QueueId) (l : List DmaPart) : (s.setDq q l).fns = s.fns := rfl
@[simp] theorem State.setDq_ctxs (s : State) (q : QueueId) (l : List DmaPart) : (s.setDq q l).ctxs = s.ctxs := rfl
@[simp] theorem State.setDq_rings (s : State) (q : QueueId) (l : List DmaPart) : (s.setDq q l).rings = s.rings := rfl
@[simp] theorem State.setDq_nextSeq (s : State) (q : QueueId) (l : List DmaPart) : (s.setDq q l).nextSeq = s.nextSeq := rfl
@[simp] theorem State.setDq_descs (s : State) (q : QueueId) (l : List DmaPart) : (s.setDq q l).descs = s.descs := rfl
@[simp] theorem State.setDq_plans (s : State) (q : QueueId) (l : List DmaPart) : (s.setDq q l).plans = s.plans := rfl
@[simp] theorem State.setDq_chains (s : State) (q : QueueId) (l : List DmaPart) : (s.setDq q l).chains = s.chains := rfl
@[simp] theorem State.setDq_disps (s : State) (q : QueueId) (l : List DmaPart) : (s.setDq q l).disps = s.disps := rfl
@[simp] theorem State.setDq_switches (s : State) (q : QueueId) (l : List DmaPart) : (s.setDq q l).switches = s.switches := rfl
@[simp] theorem State.setDq_recovery (s : State) (q : QueueId) (l : List DmaPart) : (s.setDq q l).recovery = s.recovery := rfl
@[simp] theorem State.setDq_reports (s : State) (q : QueueId) (l : List DmaPart) : (s.setDq q l).reports = s.reports := rfl
@[simp] theorem State.setDq_arb (s : State) (q : QueueId) (l : List DmaPart) : (s.setDq q l).arb = s.arb := rfl
@[simp] theorem State.setDq_cores (s : State) (q : QueueId) (l : List DmaPart) : (s.setDq q l).cores = s.cores := rfl
@[simp] theorem State.setDq_dies (s : State) (q : QueueId) (l : List DmaPart) : (s.setDq q l).dies = s.dies := rfl
@[simp] theorem State.setDq_credits (s : State) (q : QueueId) (l : List DmaPart) : (s.setDq q l).credits = s.credits := rfl
@[simp] theorem State.setDq_colls (s : State) (q : QueueId) (l : List DmaPart) : (s.setDq q l).colls = s.colls := rfl
@[simp] theorem State.setDq_combs (s : State) (q : QueueId) (l : List DmaPart) : (s.setDq q l).combs = s.combs := rfl
@[simp] theorem State.setDq_arms (s : State) (q : QueueId) (l : List DmaPart) : (s.setDq q l).arms = s.arms := rfl
@[simp] theorem State.setDq_hops (s : State) (q : QueueId) (l : List DmaPart) : (s.setDq q l).hops = s.hops := rfl
@[simp] theorem State.setDq_streams (s : State) (q : QueueId) (l : List DmaPart) : (s.setDq q l).streams = s.streams := rfl
@[simp] theorem State.setDq_mcs (s : State) (q : QueueId) (l : List DmaPart) : (s.setDq q l).mcs = s.mcs := rfl
@[simp] theorem State.setDq_frings (s : State) (q : QueueId) (l : List DmaPart) : (s.setDq q l).frings = s.frings := rfl
@[simp] theorem State.setDq_ports (s : State) (q : QueueId) (l : List DmaPart) : (s.setDq q l).ports = s.ports := rfl
@[simp] theorem State.setDq_fab (s : State) (q : QueueId) (l : List DmaPart) : (s.setDq q l).fab = s.fab := rfl
@[simp] theorem State.setDq_hub (s : State) (q : QueueId) (l : List DmaPart) : (s.setDq q l).hub = s.hub := rfl
@[simp] theorem State.setDq_store (s : State) (q : QueueId) (l : List DmaPart) : (s.setDq q l).store = s.store := rfl
@[simp] theorem State.setDq_meas (s : State) (q : QueueId) (l : List DmaPart) : (s.setDq q l).meas = s.meas := rfl
@[simp] theorem State.setDq_spdmDoe (s : State) (q : QueueId) (l : List DmaPart) : (s.setDq q l).spdmDoe = s.spdmDoe := rfl
@[simp] theorem State.setDq_spdmMctp (s : State) (q : QueueId) (l : List DmaPart) : (s.setDq q l).spdmMctp = s.spdmMctp := rfl
@[simp] theorem State.setDq_boot (s : State) (q : QueueId) (l : List DmaPart) : (s.setDq q l).boot = s.boot := rfl
@[simp] theorem State.setDq_fw (s : State) (q : QueueId) (l : List DmaPart) : (s.setDq q l).fw = s.fw := rfl
@[simp] theorem State.setDq_ledgerFrac (s : State) (q : QueueId) (l : List DmaPart) : (s.setDq q l).ledgerFrac = s.ledgerFrac := rfl
@[simp] theorem State.setDq_trcSeq (s : State) (q : QueueId) (l : List DmaPart) : (s.setDq q l).trcSeq = s.trcSeq := rfl
@[simp] theorem State.setDq_trcDrop (s : State) (q : QueueId) (l : List DmaPart) : (s.setDq q l).trcDrop = s.trcDrop := rfl
@[simp] theorem State.setDq_trcTok (s : State) (q : QueueId) (l : List DmaPart) : (s.setDq q l).trcTok = s.trcTok := rfl
@[simp] theorem State.setDq_busyNs (s : State) (q : QueueId) (l : List DmaPart) : (s.setDq q l).busyNs = s.busyNs := rfl
@[simp] theorem State.setDq_acct (s : State) (q : QueueId) (l : List DmaPart) : (s.setDq q l).acct = s.acct := rfl
@[simp] theorem State.setDq_ledgerQ (s : State) (q : QueueId) (l : List DmaPart) : (s.setDq q l).ledgerQ = s.ledgerQ := rfl

/-! ### modMc -/

@[simp] theorem State.modMc_pending (s : State) (d : Die) (m : Mc) (f : McSt → McSt) : (s.modMc d m f).pending = s.pending := rfl
@[simp] theorem State.modMc_out (s : State) (d : Die) (m : Mc) (f : McSt → McSt) : (s.modMc d m f).out = s.out := rfl
@[simp] theorem State.modMc_free (s : State) (d : Die) (m : Mc) (f : McSt → McSt) : (s.modMc d m f).free = s.free := rfl
@[simp] theorem State.modMc_now (s : State) (d : Die) (m : Mc) (f : McSt → McSt) : (s.modMc d m f).now = s.now := rfl
@[simp] theorem State.modMc_regs (s : State) (d : Die) (m : Mc) (f : McSt → McSt) : (s.modMc d m f).regs = s.regs := rfl
@[simp] theorem State.modMc_latches (s : State) (d : Die) (m : Mc) (f : McSt → McSt) : (s.modMc d m f).latches = s.latches := rfl
@[simp] theorem State.modMc_mem (s : State) (d : Die) (m : Mc) (f : McSt → McSt) : (s.modMc d m f).mem = s.mem := rfl
@[simp] theorem State.modMc_hostMem (s : State) (d : Die) (m : Mc) (f : McSt → McSt) : (s.modMc d m f).hostMem = s.hostMem := rfl
@[simp] theorem State.modMc_bad (s : State) (d : Die) (m : Mc) (f : McSt → McSt) : (s.modMc d m f).bad = s.bad := rfl
@[simp] theorem State.modMc_scrambled (s : State) (d : Die) (m : Mc) (f : McSt → McSt) : (s.modMc d m f).scrambled = s.scrambled := rfl
@[simp] theorem State.modMc_held (s : State) (d : Die) (m : Mc) (f : McSt → McSt) : (s.modMc d m f).held = s.held := rfl
@[simp] theorem State.modMc_regionMap (s : State) (d : Die) (m : Mc) (f : McSt → McSt) : (s.modMc d m f).regionMap = s.regionMap := rfl
@[simp] theorem State.modMc_commitBusy (s : State) (d : Die) (m : Mc) (f : McSt → McSt) : (s.modMc d m f).commitBusy = s.commitBusy := rfl
@[simp] theorem State.modMc_fns (s : State) (d : Die) (m : Mc) (f : McSt → McSt) : (s.modMc d m f).fns = s.fns := rfl
@[simp] theorem State.modMc_ctxs (s : State) (d : Die) (m : Mc) (f : McSt → McSt) : (s.modMc d m f).ctxs = s.ctxs := rfl
@[simp] theorem State.modMc_rings (s : State) (d : Die) (m : Mc) (f : McSt → McSt) : (s.modMc d m f).rings = s.rings := rfl
@[simp] theorem State.modMc_nextSeq (s : State) (d : Die) (m : Mc) (f : McSt → McSt) : (s.modMc d m f).nextSeq = s.nextSeq := rfl
@[simp] theorem State.modMc_descs (s : State) (d : Die) (m : Mc) (f : McSt → McSt) : (s.modMc d m f).descs = s.descs := rfl
@[simp] theorem State.modMc_plans (s : State) (d : Die) (m : Mc) (f : McSt → McSt) : (s.modMc d m f).plans = s.plans := rfl
@[simp] theorem State.modMc_chains (s : State) (d : Die) (m : Mc) (f : McSt → McSt) : (s.modMc d m f).chains = s.chains := rfl
@[simp] theorem State.modMc_disps (s : State) (d : Die) (m : Mc) (f : McSt → McSt) : (s.modMc d m f).disps = s.disps := rfl
@[simp] theorem State.modMc_switches (s : State) (d : Die) (m : Mc) (f : McSt → McSt) : (s.modMc d m f).switches = s.switches := rfl
@[simp] theorem State.modMc_recovery (s : State) (d : Die) (m : Mc) (f : McSt → McSt) : (s.modMc d m f).recovery = s.recovery := rfl
@[simp] theorem State.modMc_reports (s : State) (d : Die) (m : Mc) (f : McSt → McSt) : (s.modMc d m f).reports = s.reports := rfl
@[simp] theorem State.modMc_arb (s : State) (d : Die) (m : Mc) (f : McSt → McSt) : (s.modMc d m f).arb = s.arb := rfl
@[simp] theorem State.modMc_cores (s : State) (d : Die) (m : Mc) (f : McSt → McSt) : (s.modMc d m f).cores = s.cores := rfl
@[simp] theorem State.modMc_dies (s : State) (d : Die) (m : Mc) (f : McSt → McSt) : (s.modMc d m f).dies = s.dies := rfl
@[simp] theorem State.modMc_credits (s : State) (d : Die) (m : Mc) (f : McSt → McSt) : (s.modMc d m f).credits = s.credits := rfl
@[simp] theorem State.modMc_colls (s : State) (d : Die) (m : Mc) (f : McSt → McSt) : (s.modMc d m f).colls = s.colls := rfl
@[simp] theorem State.modMc_combs (s : State) (d : Die) (m : Mc) (f : McSt → McSt) : (s.modMc d m f).combs = s.combs := rfl
@[simp] theorem State.modMc_arms (s : State) (d : Die) (m : Mc) (f : McSt → McSt) : (s.modMc d m f).arms = s.arms := rfl
@[simp] theorem State.modMc_hops (s : State) (d : Die) (m : Mc) (f : McSt → McSt) : (s.modMc d m f).hops = s.hops := rfl
@[simp] theorem State.modMc_streams (s : State) (d : Die) (m : Mc) (f : McSt → McSt) : (s.modMc d m f).streams = s.streams := rfl
@[simp] theorem State.modMc_dmaq (s : State) (d : Die) (m : Mc) (f : McSt → McSt) : (s.modMc d m f).dmaq = s.dmaq := rfl
@[simp] theorem State.modMc_frings (s : State) (d : Die) (m : Mc) (f : McSt → McSt) : (s.modMc d m f).frings = s.frings := rfl
@[simp] theorem State.modMc_ports (s : State) (d : Die) (m : Mc) (f : McSt → McSt) : (s.modMc d m f).ports = s.ports := rfl
@[simp] theorem State.modMc_fab (s : State) (d : Die) (m : Mc) (f : McSt → McSt) : (s.modMc d m f).fab = s.fab := rfl
@[simp] theorem State.modMc_hub (s : State) (d : Die) (m : Mc) (f : McSt → McSt) : (s.modMc d m f).hub = s.hub := rfl
@[simp] theorem State.modMc_store (s : State) (d : Die) (m : Mc) (f : McSt → McSt) : (s.modMc d m f).store = s.store := rfl
@[simp] theorem State.modMc_meas (s : State) (d : Die) (m : Mc) (f : McSt → McSt) : (s.modMc d m f).meas = s.meas := rfl
@[simp] theorem State.modMc_spdmDoe (s : State) (d : Die) (m : Mc) (f : McSt → McSt) : (s.modMc d m f).spdmDoe = s.spdmDoe := rfl
@[simp] theorem State.modMc_spdmMctp (s : State) (d : Die) (m : Mc) (f : McSt → McSt) : (s.modMc d m f).spdmMctp = s.spdmMctp := rfl
@[simp] theorem State.modMc_boot (s : State) (d : Die) (m : Mc) (f : McSt → McSt) : (s.modMc d m f).boot = s.boot := rfl
@[simp] theorem State.modMc_fw (s : State) (d : Die) (m : Mc) (f : McSt → McSt) : (s.modMc d m f).fw = s.fw := rfl
@[simp] theorem State.modMc_ledgerFrac (s : State) (d : Die) (m : Mc) (f : McSt → McSt) : (s.modMc d m f).ledgerFrac = s.ledgerFrac := rfl
@[simp] theorem State.modMc_trcSeq (s : State) (d : Die) (m : Mc) (f : McSt → McSt) : (s.modMc d m f).trcSeq = s.trcSeq := rfl
@[simp] theorem State.modMc_trcDrop (s : State) (d : Die) (m : Mc) (f : McSt → McSt) : (s.modMc d m f).trcDrop = s.trcDrop := rfl
@[simp] theorem State.modMc_trcTok (s : State) (d : Die) (m : Mc) (f : McSt → McSt) : (s.modMc d m f).trcTok = s.trcTok := rfl
@[simp] theorem State.modMc_busyNs (s : State) (d : Die) (m : Mc) (f : McSt → McSt) : (s.modMc d m f).busyNs = s.busyNs := rfl
@[simp] theorem State.modMc_acct (s : State) (d : Die) (m : Mc) (f : McSt → McSt) : (s.modMc d m f).acct = s.acct := rfl
@[simp] theorem State.modMc_ledgerQ (s : State) (d : Die) (m : Mc) (f : McSt → McSt) : (s.modMc d m f).ledgerQ = s.ledgerQ := rfl

/-! ### modFring -/

@[simp] theorem State.modFring_pending (s : State) (i : FRing) (f : FRingSt → FRingSt) : (s.modFring i f).pending = s.pending := rfl
@[simp] theorem State.modFring_out (s : State) (i : FRing) (f : FRingSt → FRingSt) : (s.modFring i f).out = s.out := rfl
@[simp] theorem State.modFring_free (s : State) (i : FRing) (f : FRingSt → FRingSt) : (s.modFring i f).free = s.free := rfl
@[simp] theorem State.modFring_now (s : State) (i : FRing) (f : FRingSt → FRingSt) : (s.modFring i f).now = s.now := rfl
@[simp] theorem State.modFring_regs (s : State) (i : FRing) (f : FRingSt → FRingSt) : (s.modFring i f).regs = s.regs := rfl
@[simp] theorem State.modFring_latches (s : State) (i : FRing) (f : FRingSt → FRingSt) : (s.modFring i f).latches = s.latches := rfl
@[simp] theorem State.modFring_mem (s : State) (i : FRing) (f : FRingSt → FRingSt) : (s.modFring i f).mem = s.mem := rfl
@[simp] theorem State.modFring_hostMem (s : State) (i : FRing) (f : FRingSt → FRingSt) : (s.modFring i f).hostMem = s.hostMem := rfl
@[simp] theorem State.modFring_bad (s : State) (i : FRing) (f : FRingSt → FRingSt) : (s.modFring i f).bad = s.bad := rfl
@[simp] theorem State.modFring_scrambled (s : State) (i : FRing) (f : FRingSt → FRingSt) : (s.modFring i f).scrambled = s.scrambled := rfl
@[simp] theorem State.modFring_held (s : State) (i : FRing) (f : FRingSt → FRingSt) : (s.modFring i f).held = s.held := rfl
@[simp] theorem State.modFring_regionMap (s : State) (i : FRing) (f : FRingSt → FRingSt) : (s.modFring i f).regionMap = s.regionMap := rfl
@[simp] theorem State.modFring_commitBusy (s : State) (i : FRing) (f : FRingSt → FRingSt) : (s.modFring i f).commitBusy = s.commitBusy := rfl
@[simp] theorem State.modFring_fns (s : State) (i : FRing) (f : FRingSt → FRingSt) : (s.modFring i f).fns = s.fns := rfl
@[simp] theorem State.modFring_ctxs (s : State) (i : FRing) (f : FRingSt → FRingSt) : (s.modFring i f).ctxs = s.ctxs := rfl
@[simp] theorem State.modFring_rings (s : State) (i : FRing) (f : FRingSt → FRingSt) : (s.modFring i f).rings = s.rings := rfl
@[simp] theorem State.modFring_nextSeq (s : State) (i : FRing) (f : FRingSt → FRingSt) : (s.modFring i f).nextSeq = s.nextSeq := rfl
@[simp] theorem State.modFring_descs (s : State) (i : FRing) (f : FRingSt → FRingSt) : (s.modFring i f).descs = s.descs := rfl
@[simp] theorem State.modFring_plans (s : State) (i : FRing) (f : FRingSt → FRingSt) : (s.modFring i f).plans = s.plans := rfl
@[simp] theorem State.modFring_chains (s : State) (i : FRing) (f : FRingSt → FRingSt) : (s.modFring i f).chains = s.chains := rfl
@[simp] theorem State.modFring_disps (s : State) (i : FRing) (f : FRingSt → FRingSt) : (s.modFring i f).disps = s.disps := rfl
@[simp] theorem State.modFring_switches (s : State) (i : FRing) (f : FRingSt → FRingSt) : (s.modFring i f).switches = s.switches := rfl
@[simp] theorem State.modFring_recovery (s : State) (i : FRing) (f : FRingSt → FRingSt) : (s.modFring i f).recovery = s.recovery := rfl
@[simp] theorem State.modFring_reports (s : State) (i : FRing) (f : FRingSt → FRingSt) : (s.modFring i f).reports = s.reports := rfl
@[simp] theorem State.modFring_arb (s : State) (i : FRing) (f : FRingSt → FRingSt) : (s.modFring i f).arb = s.arb := rfl
@[simp] theorem State.modFring_cores (s : State) (i : FRing) (f : FRingSt → FRingSt) : (s.modFring i f).cores = s.cores := rfl
@[simp] theorem State.modFring_dies (s : State) (i : FRing) (f : FRingSt → FRingSt) : (s.modFring i f).dies = s.dies := rfl
@[simp] theorem State.modFring_credits (s : State) (i : FRing) (f : FRingSt → FRingSt) : (s.modFring i f).credits = s.credits := rfl
@[simp] theorem State.modFring_colls (s : State) (i : FRing) (f : FRingSt → FRingSt) : (s.modFring i f).colls = s.colls := rfl
@[simp] theorem State.modFring_combs (s : State) (i : FRing) (f : FRingSt → FRingSt) : (s.modFring i f).combs = s.combs := rfl
@[simp] theorem State.modFring_arms (s : State) (i : FRing) (f : FRingSt → FRingSt) : (s.modFring i f).arms = s.arms := rfl
@[simp] theorem State.modFring_hops (s : State) (i : FRing) (f : FRingSt → FRingSt) : (s.modFring i f).hops = s.hops := rfl
@[simp] theorem State.modFring_streams (s : State) (i : FRing) (f : FRingSt → FRingSt) : (s.modFring i f).streams = s.streams := rfl
@[simp] theorem State.modFring_dmaq (s : State) (i : FRing) (f : FRingSt → FRingSt) : (s.modFring i f).dmaq = s.dmaq := rfl
@[simp] theorem State.modFring_mcs (s : State) (i : FRing) (f : FRingSt → FRingSt) : (s.modFring i f).mcs = s.mcs := rfl
@[simp] theorem State.modFring_ports (s : State) (i : FRing) (f : FRingSt → FRingSt) : (s.modFring i f).ports = s.ports := rfl
@[simp] theorem State.modFring_fab (s : State) (i : FRing) (f : FRingSt → FRingSt) : (s.modFring i f).fab = s.fab := rfl
@[simp] theorem State.modFring_hub (s : State) (i : FRing) (f : FRingSt → FRingSt) : (s.modFring i f).hub = s.hub := rfl
@[simp] theorem State.modFring_store (s : State) (i : FRing) (f : FRingSt → FRingSt) : (s.modFring i f).store = s.store := rfl
@[simp] theorem State.modFring_meas (s : State) (i : FRing) (f : FRingSt → FRingSt) : (s.modFring i f).meas = s.meas := rfl
@[simp] theorem State.modFring_spdmDoe (s : State) (i : FRing) (f : FRingSt → FRingSt) : (s.modFring i f).spdmDoe = s.spdmDoe := rfl
@[simp] theorem State.modFring_spdmMctp (s : State) (i : FRing) (f : FRingSt → FRingSt) : (s.modFring i f).spdmMctp = s.spdmMctp := rfl
@[simp] theorem State.modFring_boot (s : State) (i : FRing) (f : FRingSt → FRingSt) : (s.modFring i f).boot = s.boot := rfl
@[simp] theorem State.modFring_fw (s : State) (i : FRing) (f : FRingSt → FRingSt) : (s.modFring i f).fw = s.fw := rfl
@[simp] theorem State.modFring_ledgerFrac (s : State) (i : FRing) (f : FRingSt → FRingSt) : (s.modFring i f).ledgerFrac = s.ledgerFrac := rfl
@[simp] theorem State.modFring_trcSeq (s : State) (i : FRing) (f : FRingSt → FRingSt) : (s.modFring i f).trcSeq = s.trcSeq := rfl
@[simp] theorem State.modFring_trcDrop (s : State) (i : FRing) (f : FRingSt → FRingSt) : (s.modFring i f).trcDrop = s.trcDrop := rfl
@[simp] theorem State.modFring_trcTok (s : State) (i : FRing) (f : FRingSt → FRingSt) : (s.modFring i f).trcTok = s.trcTok := rfl
@[simp] theorem State.modFring_busyNs (s : State) (i : FRing) (f : FRingSt → FRingSt) : (s.modFring i f).busyNs = s.busyNs := rfl
@[simp] theorem State.modFring_acct (s : State) (i : FRing) (f : FRingSt → FRingSt) : (s.modFring i f).acct = s.acct := rfl
@[simp] theorem State.modFring_ledgerQ (s : State) (i : FRing) (f : FRingSt → FRingSt) : (s.modFring i f).ledgerQ = s.ledgerQ := rfl

/-! ### modPort -/

@[simp] theorem State.modPort_pending (s : State) (p : PortId) (f : PortSt → PortSt) : (s.modPort p f).pending = s.pending := rfl
@[simp] theorem State.modPort_out (s : State) (p : PortId) (f : PortSt → PortSt) : (s.modPort p f).out = s.out := rfl
@[simp] theorem State.modPort_free (s : State) (p : PortId) (f : PortSt → PortSt) : (s.modPort p f).free = s.free := rfl
@[simp] theorem State.modPort_now (s : State) (p : PortId) (f : PortSt → PortSt) : (s.modPort p f).now = s.now := rfl
@[simp] theorem State.modPort_regs (s : State) (p : PortId) (f : PortSt → PortSt) : (s.modPort p f).regs = s.regs := rfl
@[simp] theorem State.modPort_latches (s : State) (p : PortId) (f : PortSt → PortSt) : (s.modPort p f).latches = s.latches := rfl
@[simp] theorem State.modPort_mem (s : State) (p : PortId) (f : PortSt → PortSt) : (s.modPort p f).mem = s.mem := rfl
@[simp] theorem State.modPort_hostMem (s : State) (p : PortId) (f : PortSt → PortSt) : (s.modPort p f).hostMem = s.hostMem := rfl
@[simp] theorem State.modPort_bad (s : State) (p : PortId) (f : PortSt → PortSt) : (s.modPort p f).bad = s.bad := rfl
@[simp] theorem State.modPort_scrambled (s : State) (p : PortId) (f : PortSt → PortSt) : (s.modPort p f).scrambled = s.scrambled := rfl
@[simp] theorem State.modPort_held (s : State) (p : PortId) (f : PortSt → PortSt) : (s.modPort p f).held = s.held := rfl
@[simp] theorem State.modPort_regionMap (s : State) (p : PortId) (f : PortSt → PortSt) : (s.modPort p f).regionMap = s.regionMap := rfl
@[simp] theorem State.modPort_commitBusy (s : State) (p : PortId) (f : PortSt → PortSt) : (s.modPort p f).commitBusy = s.commitBusy := rfl
@[simp] theorem State.modPort_fns (s : State) (p : PortId) (f : PortSt → PortSt) : (s.modPort p f).fns = s.fns := rfl
@[simp] theorem State.modPort_ctxs (s : State) (p : PortId) (f : PortSt → PortSt) : (s.modPort p f).ctxs = s.ctxs := rfl
@[simp] theorem State.modPort_rings (s : State) (p : PortId) (f : PortSt → PortSt) : (s.modPort p f).rings = s.rings := rfl
@[simp] theorem State.modPort_nextSeq (s : State) (p : PortId) (f : PortSt → PortSt) : (s.modPort p f).nextSeq = s.nextSeq := rfl
@[simp] theorem State.modPort_descs (s : State) (p : PortId) (f : PortSt → PortSt) : (s.modPort p f).descs = s.descs := rfl
@[simp] theorem State.modPort_plans (s : State) (p : PortId) (f : PortSt → PortSt) : (s.modPort p f).plans = s.plans := rfl
@[simp] theorem State.modPort_chains (s : State) (p : PortId) (f : PortSt → PortSt) : (s.modPort p f).chains = s.chains := rfl
@[simp] theorem State.modPort_disps (s : State) (p : PortId) (f : PortSt → PortSt) : (s.modPort p f).disps = s.disps := rfl
@[simp] theorem State.modPort_switches (s : State) (p : PortId) (f : PortSt → PortSt) : (s.modPort p f).switches = s.switches := rfl
@[simp] theorem State.modPort_recovery (s : State) (p : PortId) (f : PortSt → PortSt) : (s.modPort p f).recovery = s.recovery := rfl
@[simp] theorem State.modPort_reports (s : State) (p : PortId) (f : PortSt → PortSt) : (s.modPort p f).reports = s.reports := rfl
@[simp] theorem State.modPort_arb (s : State) (p : PortId) (f : PortSt → PortSt) : (s.modPort p f).arb = s.arb := rfl
@[simp] theorem State.modPort_cores (s : State) (p : PortId) (f : PortSt → PortSt) : (s.modPort p f).cores = s.cores := rfl
@[simp] theorem State.modPort_dies (s : State) (p : PortId) (f : PortSt → PortSt) : (s.modPort p f).dies = s.dies := rfl
@[simp] theorem State.modPort_credits (s : State) (p : PortId) (f : PortSt → PortSt) : (s.modPort p f).credits = s.credits := rfl
@[simp] theorem State.modPort_colls (s : State) (p : PortId) (f : PortSt → PortSt) : (s.modPort p f).colls = s.colls := rfl
@[simp] theorem State.modPort_combs (s : State) (p : PortId) (f : PortSt → PortSt) : (s.modPort p f).combs = s.combs := rfl
@[simp] theorem State.modPort_arms (s : State) (p : PortId) (f : PortSt → PortSt) : (s.modPort p f).arms = s.arms := rfl
@[simp] theorem State.modPort_hops (s : State) (p : PortId) (f : PortSt → PortSt) : (s.modPort p f).hops = s.hops := rfl
@[simp] theorem State.modPort_streams (s : State) (p : PortId) (f : PortSt → PortSt) : (s.modPort p f).streams = s.streams := rfl
@[simp] theorem State.modPort_dmaq (s : State) (p : PortId) (f : PortSt → PortSt) : (s.modPort p f).dmaq = s.dmaq := rfl
@[simp] theorem State.modPort_mcs (s : State) (p : PortId) (f : PortSt → PortSt) : (s.modPort p f).mcs = s.mcs := rfl
@[simp] theorem State.modPort_frings (s : State) (p : PortId) (f : PortSt → PortSt) : (s.modPort p f).frings = s.frings := rfl
@[simp] theorem State.modPort_fab (s : State) (p : PortId) (f : PortSt → PortSt) : (s.modPort p f).fab = s.fab := rfl
@[simp] theorem State.modPort_hub (s : State) (p : PortId) (f : PortSt → PortSt) : (s.modPort p f).hub = s.hub := rfl
@[simp] theorem State.modPort_store (s : State) (p : PortId) (f : PortSt → PortSt) : (s.modPort p f).store = s.store := rfl
@[simp] theorem State.modPort_meas (s : State) (p : PortId) (f : PortSt → PortSt) : (s.modPort p f).meas = s.meas := rfl
@[simp] theorem State.modPort_spdmDoe (s : State) (p : PortId) (f : PortSt → PortSt) : (s.modPort p f).spdmDoe = s.spdmDoe := rfl
@[simp] theorem State.modPort_spdmMctp (s : State) (p : PortId) (f : PortSt → PortSt) : (s.modPort p f).spdmMctp = s.spdmMctp := rfl
@[simp] theorem State.modPort_boot (s : State) (p : PortId) (f : PortSt → PortSt) : (s.modPort p f).boot = s.boot := rfl
@[simp] theorem State.modPort_fw (s : State) (p : PortId) (f : PortSt → PortSt) : (s.modPort p f).fw = s.fw := rfl
@[simp] theorem State.modPort_ledgerFrac (s : State) (p : PortId) (f : PortSt → PortSt) : (s.modPort p f).ledgerFrac = s.ledgerFrac := rfl
@[simp] theorem State.modPort_trcSeq (s : State) (p : PortId) (f : PortSt → PortSt) : (s.modPort p f).trcSeq = s.trcSeq := rfl
@[simp] theorem State.modPort_trcDrop (s : State) (p : PortId) (f : PortSt → PortSt) : (s.modPort p f).trcDrop = s.trcDrop := rfl
@[simp] theorem State.modPort_trcTok (s : State) (p : PortId) (f : PortSt → PortSt) : (s.modPort p f).trcTok = s.trcTok := rfl
@[simp] theorem State.modPort_busyNs (s : State) (p : PortId) (f : PortSt → PortSt) : (s.modPort p f).busyNs = s.busyNs := rfl
@[simp] theorem State.modPort_acct (s : State) (p : PortId) (f : PortSt → PortSt) : (s.modPort p f).acct = s.acct := rfl
@[simp] theorem State.modPort_ledgerQ (s : State) (p : PortId) (f : PortSt → PortSt) : (s.modPort p f).ledgerQ = s.ledgerQ := rfl

/-! ### modIsland -/

@[simp] theorem State.modIsland_pending (s : State) (d : Die) (x : Island) (f : IslandSt → IslandSt) : (s.modIsland d x f).pending = s.pending := rfl
@[simp] theorem State.modIsland_out (s : State) (d : Die) (x : Island) (f : IslandSt → IslandSt) : (s.modIsland d x f).out = s.out := rfl
@[simp] theorem State.modIsland_free (s : State) (d : Die) (x : Island) (f : IslandSt → IslandSt) : (s.modIsland d x f).free = s.free := rfl
@[simp] theorem State.modIsland_now (s : State) (d : Die) (x : Island) (f : IslandSt → IslandSt) : (s.modIsland d x f).now = s.now := rfl
@[simp] theorem State.modIsland_regs (s : State) (d : Die) (x : Island) (f : IslandSt → IslandSt) : (s.modIsland d x f).regs = s.regs := rfl
@[simp] theorem State.modIsland_latches (s : State) (d : Die) (x : Island) (f : IslandSt → IslandSt) : (s.modIsland d x f).latches = s.latches := rfl
@[simp] theorem State.modIsland_mem (s : State) (d : Die) (x : Island) (f : IslandSt → IslandSt) : (s.modIsland d x f).mem = s.mem := rfl
@[simp] theorem State.modIsland_hostMem (s : State) (d : Die) (x : Island) (f : IslandSt → IslandSt) : (s.modIsland d x f).hostMem = s.hostMem := rfl
@[simp] theorem State.modIsland_bad (s : State) (d : Die) (x : Island) (f : IslandSt → IslandSt) : (s.modIsland d x f).bad = s.bad := rfl
@[simp] theorem State.modIsland_scrambled (s : State) (d : Die) (x : Island) (f : IslandSt → IslandSt) : (s.modIsland d x f).scrambled = s.scrambled := rfl
@[simp] theorem State.modIsland_held (s : State) (d : Die) (x : Island) (f : IslandSt → IslandSt) : (s.modIsland d x f).held = s.held := rfl
@[simp] theorem State.modIsland_regionMap (s : State) (d : Die) (x : Island) (f : IslandSt → IslandSt) : (s.modIsland d x f).regionMap = s.regionMap := rfl
@[simp] theorem State.modIsland_commitBusy (s : State) (d : Die) (x : Island) (f : IslandSt → IslandSt) : (s.modIsland d x f).commitBusy = s.commitBusy := rfl
@[simp] theorem State.modIsland_fns (s : State) (d : Die) (x : Island) (f : IslandSt → IslandSt) : (s.modIsland d x f).fns = s.fns := rfl
@[simp] theorem State.modIsland_ctxs (s : State) (d : Die) (x : Island) (f : IslandSt → IslandSt) : (s.modIsland d x f).ctxs = s.ctxs := rfl
@[simp] theorem State.modIsland_rings (s : State) (d : Die) (x : Island) (f : IslandSt → IslandSt) : (s.modIsland d x f).rings = s.rings := rfl
@[simp] theorem State.modIsland_nextSeq (s : State) (d : Die) (x : Island) (f : IslandSt → IslandSt) : (s.modIsland d x f).nextSeq = s.nextSeq := rfl
@[simp] theorem State.modIsland_descs (s : State) (d : Die) (x : Island) (f : IslandSt → IslandSt) : (s.modIsland d x f).descs = s.descs := rfl
@[simp] theorem State.modIsland_plans (s : State) (d : Die) (x : Island) (f : IslandSt → IslandSt) : (s.modIsland d x f).plans = s.plans := rfl
@[simp] theorem State.modIsland_chains (s : State) (d : Die) (x : Island) (f : IslandSt → IslandSt) : (s.modIsland d x f).chains = s.chains := rfl
@[simp] theorem State.modIsland_disps (s : State) (d : Die) (x : Island) (f : IslandSt → IslandSt) : (s.modIsland d x f).disps = s.disps := rfl
@[simp] theorem State.modIsland_switches (s : State) (d : Die) (x : Island) (f : IslandSt → IslandSt) : (s.modIsland d x f).switches = s.switches := rfl
@[simp] theorem State.modIsland_recovery (s : State) (d : Die) (x : Island) (f : IslandSt → IslandSt) : (s.modIsland d x f).recovery = s.recovery := rfl
@[simp] theorem State.modIsland_reports (s : State) (d : Die) (x : Island) (f : IslandSt → IslandSt) : (s.modIsland d x f).reports = s.reports := rfl
@[simp] theorem State.modIsland_arb (s : State) (d : Die) (x : Island) (f : IslandSt → IslandSt) : (s.modIsland d x f).arb = s.arb := rfl
@[simp] theorem State.modIsland_cores (s : State) (d : Die) (x : Island) (f : IslandSt → IslandSt) : (s.modIsland d x f).cores = s.cores := rfl
@[simp] theorem State.modIsland_credits (s : State) (d : Die) (x : Island) (f : IslandSt → IslandSt) : (s.modIsland d x f).credits = s.credits := rfl
@[simp] theorem State.modIsland_colls (s : State) (d : Die) (x : Island) (f : IslandSt → IslandSt) : (s.modIsland d x f).colls = s.colls := rfl
@[simp] theorem State.modIsland_combs (s : State) (d : Die) (x : Island) (f : IslandSt → IslandSt) : (s.modIsland d x f).combs = s.combs := rfl
@[simp] theorem State.modIsland_arms (s : State) (d : Die) (x : Island) (f : IslandSt → IslandSt) : (s.modIsland d x f).arms = s.arms := rfl
@[simp] theorem State.modIsland_hops (s : State) (d : Die) (x : Island) (f : IslandSt → IslandSt) : (s.modIsland d x f).hops = s.hops := rfl
@[simp] theorem State.modIsland_streams (s : State) (d : Die) (x : Island) (f : IslandSt → IslandSt) : (s.modIsland d x f).streams = s.streams := rfl
@[simp] theorem State.modIsland_dmaq (s : State) (d : Die) (x : Island) (f : IslandSt → IslandSt) : (s.modIsland d x f).dmaq = s.dmaq := rfl
@[simp] theorem State.modIsland_mcs (s : State) (d : Die) (x : Island) (f : IslandSt → IslandSt) : (s.modIsland d x f).mcs = s.mcs := rfl
@[simp] theorem State.modIsland_frings (s : State) (d : Die) (x : Island) (f : IslandSt → IslandSt) : (s.modIsland d x f).frings = s.frings := rfl
@[simp] theorem State.modIsland_ports (s : State) (d : Die) (x : Island) (f : IslandSt → IslandSt) : (s.modIsland d x f).ports = s.ports := rfl
@[simp] theorem State.modIsland_fab (s : State) (d : Die) (x : Island) (f : IslandSt → IslandSt) : (s.modIsland d x f).fab = s.fab := rfl
@[simp] theorem State.modIsland_hub (s : State) (d : Die) (x : Island) (f : IslandSt → IslandSt) : (s.modIsland d x f).hub = s.hub := rfl
@[simp] theorem State.modIsland_store (s : State) (d : Die) (x : Island) (f : IslandSt → IslandSt) : (s.modIsland d x f).store = s.store := rfl
@[simp] theorem State.modIsland_meas (s : State) (d : Die) (x : Island) (f : IslandSt → IslandSt) : (s.modIsland d x f).meas = s.meas := rfl
@[simp] theorem State.modIsland_spdmDoe (s : State) (d : Die) (x : Island) (f : IslandSt → IslandSt) : (s.modIsland d x f).spdmDoe = s.spdmDoe := rfl
@[simp] theorem State.modIsland_spdmMctp (s : State) (d : Die) (x : Island) (f : IslandSt → IslandSt) : (s.modIsland d x f).spdmMctp = s.spdmMctp := rfl
@[simp] theorem State.modIsland_boot (s : State) (d : Die) (x : Island) (f : IslandSt → IslandSt) : (s.modIsland d x f).boot = s.boot := rfl
@[simp] theorem State.modIsland_fw (s : State) (d : Die) (x : Island) (f : IslandSt → IslandSt) : (s.modIsland d x f).fw = s.fw := rfl
@[simp] theorem State.modIsland_ledgerFrac (s : State) (d : Die) (x : Island) (f : IslandSt → IslandSt) : (s.modIsland d x f).ledgerFrac = s.ledgerFrac := rfl
@[simp] theorem State.modIsland_trcSeq (s : State) (d : Die) (x : Island) (f : IslandSt → IslandSt) : (s.modIsland d x f).trcSeq = s.trcSeq := rfl
@[simp] theorem State.modIsland_trcDrop (s : State) (d : Die) (x : Island) (f : IslandSt → IslandSt) : (s.modIsland d x f).trcDrop = s.trcDrop := rfl
@[simp] theorem State.modIsland_trcTok (s : State) (d : Die) (x : Island) (f : IslandSt → IslandSt) : (s.modIsland d x f).trcTok = s.trcTok := rfl
@[simp] theorem State.modIsland_busyNs (s : State) (d : Die) (x : Island) (f : IslandSt → IslandSt) : (s.modIsland d x f).busyNs = s.busyNs := rfl
@[simp] theorem State.modIsland_acct (s : State) (d : Die) (x : Island) (f : IslandSt → IslandSt) : (s.modIsland d x f).acct = s.acct := rfl
@[simp] theorem State.modIsland_ledgerQ (s : State) (d : Die) (x : Island) (f : IslandSt → IslandSt) : (s.modIsland d x f).ledgerQ = s.ledgerQ := rfl

/-! ### setSem -/

@[simp] theorem State.setSem_pending (s : State) (n : CtxId) (d i v : Nat) : (s.setSem n d i v).pending = s.pending := rfl
@[simp] theorem State.setSem_out (s : State) (n : CtxId) (d i v : Nat) : (s.setSem n d i v).out = s.out := rfl
@[simp] theorem State.setSem_free (s : State) (n : CtxId) (d i v : Nat) : (s.setSem n d i v).free = s.free := rfl
@[simp] theorem State.setSem_now (s : State) (n : CtxId) (d i v : Nat) : (s.setSem n d i v).now = s.now := rfl
@[simp] theorem State.setSem_regs (s : State) (n : CtxId) (d i v : Nat) : (s.setSem n d i v).regs = s.regs := rfl
@[simp] theorem State.setSem_latches (s : State) (n : CtxId) (d i v : Nat) : (s.setSem n d i v).latches = s.latches := rfl
@[simp] theorem State.setSem_mem (s : State) (n : CtxId) (d i v : Nat) : (s.setSem n d i v).mem = s.mem := rfl
@[simp] theorem State.setSem_hostMem (s : State) (n : CtxId) (d i v : Nat) : (s.setSem n d i v).hostMem = s.hostMem := rfl
@[simp] theorem State.setSem_bad (s : State) (n : CtxId) (d i v : Nat) : (s.setSem n d i v).bad = s.bad := rfl
@[simp] theorem State.setSem_scrambled (s : State) (n : CtxId) (d i v : Nat) : (s.setSem n d i v).scrambled = s.scrambled := rfl
@[simp] theorem State.setSem_held (s : State) (n : CtxId) (d i v : Nat) : (s.setSem n d i v).held = s.held := rfl
@[simp] theorem State.setSem_regionMap (s : State) (n : CtxId) (d i v : Nat) : (s.setSem n d i v).regionMap = s.regionMap := rfl
@[simp] theorem State.setSem_commitBusy (s : State) (n : CtxId) (d i v : Nat) : (s.setSem n d i v).commitBusy = s.commitBusy := rfl
@[simp] theorem State.setSem_fns (s : State) (n : CtxId) (d i v : Nat) : (s.setSem n d i v).fns = s.fns := rfl
@[simp] theorem State.setSem_rings (s : State) (n : CtxId) (d i v : Nat) : (s.setSem n d i v).rings = s.rings := rfl
@[simp] theorem State.setSem_nextSeq (s : State) (n : CtxId) (d i v : Nat) : (s.setSem n d i v).nextSeq = s.nextSeq := rfl
@[simp] theorem State.setSem_descs (s : State) (n : CtxId) (d i v : Nat) : (s.setSem n d i v).descs = s.descs := rfl
@[simp] theorem State.setSem_plans (s : State) (n : CtxId) (d i v : Nat) : (s.setSem n d i v).plans = s.plans := rfl
@[simp] theorem State.setSem_chains (s : State) (n : CtxId) (d i v : Nat) : (s.setSem n d i v).chains = s.chains := rfl
@[simp] theorem State.setSem_disps (s : State) (n : CtxId) (d i v : Nat) : (s.setSem n d i v).disps = s.disps := rfl
@[simp] theorem State.setSem_switches (s : State) (n : CtxId) (d i v : Nat) : (s.setSem n d i v).switches = s.switches := rfl
@[simp] theorem State.setSem_recovery (s : State) (n : CtxId) (d i v : Nat) : (s.setSem n d i v).recovery = s.recovery := rfl
@[simp] theorem State.setSem_reports (s : State) (n : CtxId) (d i v : Nat) : (s.setSem n d i v).reports = s.reports := rfl
@[simp] theorem State.setSem_arb (s : State) (n : CtxId) (d i v : Nat) : (s.setSem n d i v).arb = s.arb := rfl
@[simp] theorem State.setSem_cores (s : State) (n : CtxId) (d i v : Nat) : (s.setSem n d i v).cores = s.cores := rfl
@[simp] theorem State.setSem_dies (s : State) (n : CtxId) (d i v : Nat) : (s.setSem n d i v).dies = s.dies := rfl
@[simp] theorem State.setSem_credits (s : State) (n : CtxId) (d i v : Nat) : (s.setSem n d i v).credits = s.credits := rfl
@[simp] theorem State.setSem_colls (s : State) (n : CtxId) (d i v : Nat) : (s.setSem n d i v).colls = s.colls := rfl
@[simp] theorem State.setSem_combs (s : State) (n : CtxId) (d i v : Nat) : (s.setSem n d i v).combs = s.combs := rfl
@[simp] theorem State.setSem_arms (s : State) (n : CtxId) (d i v : Nat) : (s.setSem n d i v).arms = s.arms := rfl
@[simp] theorem State.setSem_hops (s : State) (n : CtxId) (d i v : Nat) : (s.setSem n d i v).hops = s.hops := rfl
@[simp] theorem State.setSem_streams (s : State) (n : CtxId) (d i v : Nat) : (s.setSem n d i v).streams = s.streams := rfl
@[simp] theorem State.setSem_dmaq (s : State) (n : CtxId) (d i v : Nat) : (s.setSem n d i v).dmaq = s.dmaq := rfl
@[simp] theorem State.setSem_mcs (s : State) (n : CtxId) (d i v : Nat) : (s.setSem n d i v).mcs = s.mcs := rfl
@[simp] theorem State.setSem_frings (s : State) (n : CtxId) (d i v : Nat) : (s.setSem n d i v).frings = s.frings := rfl
@[simp] theorem State.setSem_ports (s : State) (n : CtxId) (d i v : Nat) : (s.setSem n d i v).ports = s.ports := rfl
@[simp] theorem State.setSem_fab (s : State) (n : CtxId) (d i v : Nat) : (s.setSem n d i v).fab = s.fab := rfl
@[simp] theorem State.setSem_hub (s : State) (n : CtxId) (d i v : Nat) : (s.setSem n d i v).hub = s.hub := rfl
@[simp] theorem State.setSem_store (s : State) (n : CtxId) (d i v : Nat) : (s.setSem n d i v).store = s.store := rfl
@[simp] theorem State.setSem_meas (s : State) (n : CtxId) (d i v : Nat) : (s.setSem n d i v).meas = s.meas := rfl
@[simp] theorem State.setSem_spdmDoe (s : State) (n : CtxId) (d i v : Nat) : (s.setSem n d i v).spdmDoe = s.spdmDoe := rfl
@[simp] theorem State.setSem_spdmMctp (s : State) (n : CtxId) (d i v : Nat) : (s.setSem n d i v).spdmMctp = s.spdmMctp := rfl
@[simp] theorem State.setSem_boot (s : State) (n : CtxId) (d i v : Nat) : (s.setSem n d i v).boot = s.boot := rfl
@[simp] theorem State.setSem_fw (s : State) (n : CtxId) (d i v : Nat) : (s.setSem n d i v).fw = s.fw := rfl
@[simp] theorem State.setSem_ledgerFrac (s : State) (n : CtxId) (d i v : Nat) : (s.setSem n d i v).ledgerFrac = s.ledgerFrac := rfl
@[simp] theorem State.setSem_trcSeq (s : State) (n : CtxId) (d i v : Nat) : (s.setSem n d i v).trcSeq = s.trcSeq := rfl
@[simp] theorem State.setSem_trcDrop (s : State) (n : CtxId) (d i v : Nat) : (s.setSem n d i v).trcDrop = s.trcDrop := rfl
@[simp] theorem State.setSem_trcTok (s : State) (n : CtxId) (d i v : Nat) : (s.setSem n d i v).trcTok = s.trcTok := rfl
@[simp] theorem State.setSem_busyNs (s : State) (n : CtxId) (d i v : Nat) : (s.setSem n d i v).busyNs = s.busyNs := rfl
@[simp] theorem State.setSem_acct (s : State) (n : CtxId) (d i v : Nat) : (s.setSem n d i v).acct = s.acct := rfl
@[simp] theorem State.setSem_ledgerQ (s : State) (n : CtxId) (d i v : Nat) : (s.setSem n d i v).ledgerQ = s.ledgerQ := rfl

/-! ### emit -/

@[simp] theorem State.emit_pending (s : State) (o : Out) : (s.emit o).pending = s.pending := rfl
@[simp] theorem State.emit_free (s : State) (o : Out) : (s.emit o).free = s.free := rfl
@[simp] theorem State.emit_now (s : State) (o : Out) : (s.emit o).now = s.now := rfl
@[simp] theorem State.emit_regs (s : State) (o : Out) : (s.emit o).regs = s.regs := rfl
@[simp] theorem State.emit_latches (s : State) (o : Out) : (s.emit o).latches = s.latches := rfl
@[simp] theorem State.emit_mem (s : State) (o : Out) : (s.emit o).mem = s.mem := rfl
@[simp] theorem State.emit_hostMem (s : State) (o : Out) : (s.emit o).hostMem = s.hostMem := rfl
@[simp] theorem State.emit_bad (s : State) (o : Out) : (s.emit o).bad = s.bad := rfl
@[simp] theorem State.emit_scrambled (s : State) (o : Out) : (s.emit o).scrambled = s.scrambled := rfl
@[simp] theorem State.emit_held (s : State) (o : Out) : (s.emit o).held = s.held := rfl
@[simp] theorem State.emit_regionMap (s : State) (o : Out) : (s.emit o).regionMap = s.regionMap := rfl
@[simp] theorem State.emit_commitBusy (s : State) (o : Out) : (s.emit o).commitBusy = s.commitBusy := rfl
@[simp] theorem State.emit_fns (s : State) (o : Out) : (s.emit o).fns = s.fns := rfl
@[simp] theorem State.emit_ctxs (s : State) (o : Out) : (s.emit o).ctxs = s.ctxs := rfl
@[simp] theorem State.emit_rings (s : State) (o : Out) : (s.emit o).rings = s.rings := rfl
@[simp] theorem State.emit_nextSeq (s : State) (o : Out) : (s.emit o).nextSeq = s.nextSeq := rfl
@[simp] theorem State.emit_descs (s : State) (o : Out) : (s.emit o).descs = s.descs := rfl
@[simp] theorem State.emit_plans (s : State) (o : Out) : (s.emit o).plans = s.plans := rfl
@[simp] theorem State.emit_chains (s : State) (o : Out) : (s.emit o).chains = s.chains := rfl
@[simp] theorem State.emit_disps (s : State) (o : Out) : (s.emit o).disps = s.disps := rfl
@[simp] theorem State.emit_switches (s : State) (o : Out) : (s.emit o).switches = s.switches := rfl
@[simp] theorem State.emit_recovery (s : State) (o : Out) : (s.emit o).recovery = s.recovery := rfl
@[simp] theorem State.emit_reports (s : State) (o : Out) : (s.emit o).reports = s.reports := rfl
@[simp] theorem State.emit_arb (s : State) (o : Out) : (s.emit o).arb = s.arb := rfl
@[simp] theorem State.emit_cores (s : State) (o : Out) : (s.emit o).cores = s.cores := rfl
@[simp] theorem State.emit_dies (s : State) (o : Out) : (s.emit o).dies = s.dies := rfl
@[simp] theorem State.emit_credits (s : State) (o : Out) : (s.emit o).credits = s.credits := rfl
@[simp] theorem State.emit_colls (s : State) (o : Out) : (s.emit o).colls = s.colls := rfl
@[simp] theorem State.emit_combs (s : State) (o : Out) : (s.emit o).combs = s.combs := rfl
@[simp] theorem State.emit_arms (s : State) (o : Out) : (s.emit o).arms = s.arms := rfl
@[simp] theorem State.emit_hops (s : State) (o : Out) : (s.emit o).hops = s.hops := rfl
@[simp] theorem State.emit_streams (s : State) (o : Out) : (s.emit o).streams = s.streams := rfl
@[simp] theorem State.emit_dmaq (s : State) (o : Out) : (s.emit o).dmaq = s.dmaq := rfl
@[simp] theorem State.emit_mcs (s : State) (o : Out) : (s.emit o).mcs = s.mcs := rfl
@[simp] theorem State.emit_frings (s : State) (o : Out) : (s.emit o).frings = s.frings := rfl
@[simp] theorem State.emit_ports (s : State) (o : Out) : (s.emit o).ports = s.ports := rfl
@[simp] theorem State.emit_fab (s : State) (o : Out) : (s.emit o).fab = s.fab := rfl
@[simp] theorem State.emit_hub (s : State) (o : Out) : (s.emit o).hub = s.hub := rfl
@[simp] theorem State.emit_store (s : State) (o : Out) : (s.emit o).store = s.store := rfl
@[simp] theorem State.emit_meas (s : State) (o : Out) : (s.emit o).meas = s.meas := rfl
@[simp] theorem State.emit_spdmDoe (s : State) (o : Out) : (s.emit o).spdmDoe = s.spdmDoe := rfl
@[simp] theorem State.emit_spdmMctp (s : State) (o : Out) : (s.emit o).spdmMctp = s.spdmMctp := rfl
@[simp] theorem State.emit_boot (s : State) (o : Out) : (s.emit o).boot = s.boot := rfl
@[simp] theorem State.emit_fw (s : State) (o : Out) : (s.emit o).fw = s.fw := rfl
@[simp] theorem State.emit_ledgerFrac (s : State) (o : Out) : (s.emit o).ledgerFrac = s.ledgerFrac := rfl
@[simp] theorem State.emit_trcSeq (s : State) (o : Out) : (s.emit o).trcSeq = s.trcSeq := rfl
@[simp] theorem State.emit_trcDrop (s : State) (o : Out) : (s.emit o).trcDrop = s.trcDrop := rfl
@[simp] theorem State.emit_trcTok (s : State) (o : Out) : (s.emit o).trcTok = s.trcTok := rfl
@[simp] theorem State.emit_busyNs (s : State) (o : Out) : (s.emit o).busyNs = s.busyNs := rfl
@[simp] theorem State.emit_acct (s : State) (o : Out) : (s.emit o).acct = s.acct := rfl
@[simp] theorem State.emit_ledgerQ (s : State) (o : Out) : (s.emit o).ledgerQ = s.ledgerQ := rfl

/-! ### modDesc -/

@[simp] theorem State.modDesc_pending (s : State) (q : Nat) (f : Desc → Desc) : (s.modDesc q f).pending = s.pending := rfl
@[simp] theorem State.modDesc_out (s : State) (q : Nat) (f : Desc → Desc) : (s.modDesc q f).out = s.out := rfl
@[simp] theorem State.modDesc_free (s : State) (q : Nat) (f : Desc → Desc) : (s.modDesc q f).free = s.free := rfl
@[simp] theorem State.modDesc_now (s : State) (q : Nat) (f : Desc → Desc) : (s.modDesc q f).now = s.now := rfl
@[simp] theorem State.modDesc_regs (s : State) (q : Nat) (f : Desc → Desc) : (s.modDesc q f).regs = s.regs := rfl
@[simp] theorem State.modDesc_latches (s : State) (q : Nat) (f : Desc → Desc) : (s.modDesc q f).latches = s.latches := rfl
@[simp] theorem State.modDesc_mem (s : State) (q : Nat) (f : Desc → Desc) : (s.modDesc q f).mem = s.mem := rfl
@[simp] theorem State.modDesc_hostMem (s : State) (q : Nat) (f : Desc → Desc) : (s.modDesc q f).hostMem = s.hostMem := rfl
@[simp] theorem State.modDesc_bad (s : State) (q : Nat) (f : Desc → Desc) : (s.modDesc q f).bad = s.bad := rfl
@[simp] theorem State.modDesc_scrambled (s : State) (q : Nat) (f : Desc → Desc) : (s.modDesc q f).scrambled = s.scrambled := rfl
@[simp] theorem State.modDesc_held (s : State) (q : Nat) (f : Desc → Desc) : (s.modDesc q f).held = s.held := rfl
@[simp] theorem State.modDesc_regionMap (s : State) (q : Nat) (f : Desc → Desc) : (s.modDesc q f).regionMap = s.regionMap := rfl
@[simp] theorem State.modDesc_commitBusy (s : State) (q : Nat) (f : Desc → Desc) : (s.modDesc q f).commitBusy = s.commitBusy := rfl
@[simp] theorem State.modDesc_fns (s : State) (q : Nat) (f : Desc → Desc) : (s.modDesc q f).fns = s.fns := rfl
@[simp] theorem State.modDesc_ctxs (s : State) (q : Nat) (f : Desc → Desc) : (s.modDesc q f).ctxs = s.ctxs := rfl
@[simp] theorem State.modDesc_rings (s : State) (q : Nat) (f : Desc → Desc) : (s.modDesc q f).rings = s.rings := rfl
@[simp] theorem State.modDesc_nextSeq (s : State) (q : Nat) (f : Desc → Desc) : (s.modDesc q f).nextSeq = s.nextSeq := rfl
@[simp] theorem State.modDesc_plans (s : State) (q : Nat) (f : Desc → Desc) : (s.modDesc q f).plans = s.plans := rfl
@[simp] theorem State.modDesc_chains (s : State) (q : Nat) (f : Desc → Desc) : (s.modDesc q f).chains = s.chains := rfl
@[simp] theorem State.modDesc_disps (s : State) (q : Nat) (f : Desc → Desc) : (s.modDesc q f).disps = s.disps := rfl
@[simp] theorem State.modDesc_switches (s : State) (q : Nat) (f : Desc → Desc) : (s.modDesc q f).switches = s.switches := rfl
@[simp] theorem State.modDesc_recovery (s : State) (q : Nat) (f : Desc → Desc) : (s.modDesc q f).recovery = s.recovery := rfl
@[simp] theorem State.modDesc_reports (s : State) (q : Nat) (f : Desc → Desc) : (s.modDesc q f).reports = s.reports := rfl
@[simp] theorem State.modDesc_arb (s : State) (q : Nat) (f : Desc → Desc) : (s.modDesc q f).arb = s.arb := rfl
@[simp] theorem State.modDesc_cores (s : State) (q : Nat) (f : Desc → Desc) : (s.modDesc q f).cores = s.cores := rfl
@[simp] theorem State.modDesc_dies (s : State) (q : Nat) (f : Desc → Desc) : (s.modDesc q f).dies = s.dies := rfl
@[simp] theorem State.modDesc_credits (s : State) (q : Nat) (f : Desc → Desc) : (s.modDesc q f).credits = s.credits := rfl
@[simp] theorem State.modDesc_colls (s : State) (q : Nat) (f : Desc → Desc) : (s.modDesc q f).colls = s.colls := rfl
@[simp] theorem State.modDesc_combs (s : State) (q : Nat) (f : Desc → Desc) : (s.modDesc q f).combs = s.combs := rfl
@[simp] theorem State.modDesc_arms (s : State) (q : Nat) (f : Desc → Desc) : (s.modDesc q f).arms = s.arms := rfl
@[simp] theorem State.modDesc_hops (s : State) (q : Nat) (f : Desc → Desc) : (s.modDesc q f).hops = s.hops := rfl
@[simp] theorem State.modDesc_streams (s : State) (q : Nat) (f : Desc → Desc) : (s.modDesc q f).streams = s.streams := rfl
@[simp] theorem State.modDesc_dmaq (s : State) (q : Nat) (f : Desc → Desc) : (s.modDesc q f).dmaq = s.dmaq := rfl
@[simp] theorem State.modDesc_mcs (s : State) (q : Nat) (f : Desc → Desc) : (s.modDesc q f).mcs = s.mcs := rfl
@[simp] theorem State.modDesc_frings (s : State) (q : Nat) (f : Desc → Desc) : (s.modDesc q f).frings = s.frings := rfl
@[simp] theorem State.modDesc_ports (s : State) (q : Nat) (f : Desc → Desc) : (s.modDesc q f).ports = s.ports := rfl
@[simp] theorem State.modDesc_fab (s : State) (q : Nat) (f : Desc → Desc) : (s.modDesc q f).fab = s.fab := rfl
@[simp] theorem State.modDesc_hub (s : State) (q : Nat) (f : Desc → Desc) : (s.modDesc q f).hub = s.hub := rfl
@[simp] theorem State.modDesc_store (s : State) (q : Nat) (f : Desc → Desc) : (s.modDesc q f).store = s.store := rfl
@[simp] theorem State.modDesc_meas (s : State) (q : Nat) (f : Desc → Desc) : (s.modDesc q f).meas = s.meas := rfl
@[simp] theorem State.modDesc_spdmDoe (s : State) (q : Nat) (f : Desc → Desc) : (s.modDesc q f).spdmDoe = s.spdmDoe := rfl
@[simp] theorem State.modDesc_spdmMctp (s : State) (q : Nat) (f : Desc → Desc) : (s.modDesc q f).spdmMctp = s.spdmMctp := rfl
@[simp] theorem State.modDesc_boot (s : State) (q : Nat) (f : Desc → Desc) : (s.modDesc q f).boot = s.boot := rfl
@[simp] theorem State.modDesc_fw (s : State) (q : Nat) (f : Desc → Desc) : (s.modDesc q f).fw = s.fw := rfl
@[simp] theorem State.modDesc_ledgerFrac (s : State) (q : Nat) (f : Desc → Desc) : (s.modDesc q f).ledgerFrac = s.ledgerFrac := rfl
@[simp] theorem State.modDesc_trcSeq (s : State) (q : Nat) (f : Desc → Desc) : (s.modDesc q f).trcSeq = s.trcSeq := rfl
@[simp] theorem State.modDesc_trcDrop (s : State) (q : Nat) (f : Desc → Desc) : (s.modDesc q f).trcDrop = s.trcDrop := rfl
@[simp] theorem State.modDesc_trcTok (s : State) (q : Nat) (f : Desc → Desc) : (s.modDesc q f).trcTok = s.trcTok := rfl
@[simp] theorem State.modDesc_busyNs (s : State) (q : Nat) (f : Desc → Desc) : (s.modDesc q f).busyNs = s.busyNs := rfl
@[simp] theorem State.modDesc_acct (s : State) (q : Nat) (f : Desc → Desc) : (s.modDesc q f).acct = s.acct := rfl
@[simp] theorem State.modDesc_ledgerQ (s : State) (q : Nat) (f : Desc → Desc) : (s.modDesc q f).ledgerQ = s.ledgerQ := rfl

/-! ### modDisp -/

@[simp] theorem State.modDisp_pending (s : State) (q : Nat) (f : Disp → Disp) : (s.modDisp q f).pending = s.pending := rfl
@[simp] theorem State.modDisp_out (s : State) (q : Nat) (f : Disp → Disp) : (s.modDisp q f).out = s.out := rfl
@[simp] theorem State.modDisp_free (s : State) (q : Nat) (f : Disp → Disp) : (s.modDisp q f).free = s.free := rfl
@[simp] theorem State.modDisp_now (s : State) (q : Nat) (f : Disp → Disp) : (s.modDisp q f).now = s.now := rfl
@[simp] theorem State.modDisp_regs (s : State) (q : Nat) (f : Disp → Disp) : (s.modDisp q f).regs = s.regs := rfl
@[simp] theorem State.modDisp_latches (s : State) (q : Nat) (f : Disp → Disp) : (s.modDisp q f).latches = s.latches := rfl
@[simp] theorem State.modDisp_mem (s : State) (q : Nat) (f : Disp → Disp) : (s.modDisp q f).mem = s.mem := rfl
@[simp] theorem State.modDisp_hostMem (s : State) (q : Nat) (f : Disp → Disp) : (s.modDisp q f).hostMem = s.hostMem := rfl
@[simp] theorem State.modDisp_bad (s : State) (q : Nat) (f : Disp → Disp) : (s.modDisp q f).bad = s.bad := rfl
@[simp] theorem State.modDisp_scrambled (s : State) (q : Nat) (f : Disp → Disp) : (s.modDisp q f).scrambled = s.scrambled := rfl
@[simp] theorem State.modDisp_held (s : State) (q : Nat) (f : Disp → Disp) : (s.modDisp q f).held = s.held := rfl
@[simp] theorem State.modDisp_regionMap (s : State) (q : Nat) (f : Disp → Disp) : (s.modDisp q f).regionMap = s.regionMap := rfl
@[simp] theorem State.modDisp_commitBusy (s : State) (q : Nat) (f : Disp → Disp) : (s.modDisp q f).commitBusy = s.commitBusy := rfl
@[simp] theorem State.modDisp_fns (s : State) (q : Nat) (f : Disp → Disp) : (s.modDisp q f).fns = s.fns := rfl
@[simp] theorem State.modDisp_ctxs (s : State) (q : Nat) (f : Disp → Disp) : (s.modDisp q f).ctxs = s.ctxs := rfl
@[simp] theorem State.modDisp_rings (s : State) (q : Nat) (f : Disp → Disp) : (s.modDisp q f).rings = s.rings := rfl
@[simp] theorem State.modDisp_nextSeq (s : State) (q : Nat) (f : Disp → Disp) : (s.modDisp q f).nextSeq = s.nextSeq := rfl
@[simp] theorem State.modDisp_descs (s : State) (q : Nat) (f : Disp → Disp) : (s.modDisp q f).descs = s.descs := rfl
@[simp] theorem State.modDisp_plans (s : State) (q : Nat) (f : Disp → Disp) : (s.modDisp q f).plans = s.plans := rfl
@[simp] theorem State.modDisp_chains (s : State) (q : Nat) (f : Disp → Disp) : (s.modDisp q f).chains = s.chains := rfl
@[simp] theorem State.modDisp_switches (s : State) (q : Nat) (f : Disp → Disp) : (s.modDisp q f).switches = s.switches := rfl
@[simp] theorem State.modDisp_recovery (s : State) (q : Nat) (f : Disp → Disp) : (s.modDisp q f).recovery = s.recovery := rfl
@[simp] theorem State.modDisp_reports (s : State) (q : Nat) (f : Disp → Disp) : (s.modDisp q f).reports = s.reports := rfl
@[simp] theorem State.modDisp_arb (s : State) (q : Nat) (f : Disp → Disp) : (s.modDisp q f).arb = s.arb := rfl
@[simp] theorem State.modDisp_cores (s : State) (q : Nat) (f : Disp → Disp) : (s.modDisp q f).cores = s.cores := rfl
@[simp] theorem State.modDisp_dies (s : State) (q : Nat) (f : Disp → Disp) : (s.modDisp q f).dies = s.dies := rfl
@[simp] theorem State.modDisp_credits (s : State) (q : Nat) (f : Disp → Disp) : (s.modDisp q f).credits = s.credits := rfl
@[simp] theorem State.modDisp_colls (s : State) (q : Nat) (f : Disp → Disp) : (s.modDisp q f).colls = s.colls := rfl
@[simp] theorem State.modDisp_combs (s : State) (q : Nat) (f : Disp → Disp) : (s.modDisp q f).combs = s.combs := rfl
@[simp] theorem State.modDisp_arms (s : State) (q : Nat) (f : Disp → Disp) : (s.modDisp q f).arms = s.arms := rfl
@[simp] theorem State.modDisp_hops (s : State) (q : Nat) (f : Disp → Disp) : (s.modDisp q f).hops = s.hops := rfl
@[simp] theorem State.modDisp_streams (s : State) (q : Nat) (f : Disp → Disp) : (s.modDisp q f).streams = s.streams := rfl
@[simp] theorem State.modDisp_dmaq (s : State) (q : Nat) (f : Disp → Disp) : (s.modDisp q f).dmaq = s.dmaq := rfl
@[simp] theorem State.modDisp_mcs (s : State) (q : Nat) (f : Disp → Disp) : (s.modDisp q f).mcs = s.mcs := rfl
@[simp] theorem State.modDisp_frings (s : State) (q : Nat) (f : Disp → Disp) : (s.modDisp q f).frings = s.frings := rfl
@[simp] theorem State.modDisp_ports (s : State) (q : Nat) (f : Disp → Disp) : (s.modDisp q f).ports = s.ports := rfl
@[simp] theorem State.modDisp_fab (s : State) (q : Nat) (f : Disp → Disp) : (s.modDisp q f).fab = s.fab := rfl
@[simp] theorem State.modDisp_hub (s : State) (q : Nat) (f : Disp → Disp) : (s.modDisp q f).hub = s.hub := rfl
@[simp] theorem State.modDisp_store (s : State) (q : Nat) (f : Disp → Disp) : (s.modDisp q f).store = s.store := rfl
@[simp] theorem State.modDisp_meas (s : State) (q : Nat) (f : Disp → Disp) : (s.modDisp q f).meas = s.meas := rfl
@[simp] theorem State.modDisp_spdmDoe (s : State) (q : Nat) (f : Disp → Disp) : (s.modDisp q f).spdmDoe = s.spdmDoe := rfl
@[simp] theorem State.modDisp_spdmMctp (s : State) (q : Nat) (f : Disp → Disp) : (s.modDisp q f).spdmMctp = s.spdmMctp := rfl
@[simp] theorem State.modDisp_boot (s : State) (q : Nat) (f : Disp → Disp) : (s.modDisp q f).boot = s.boot := rfl
@[simp] theorem State.modDisp_fw (s : State) (q : Nat) (f : Disp → Disp) : (s.modDisp q f).fw = s.fw := rfl
@[simp] theorem State.modDisp_ledgerFrac (s : State) (q : Nat) (f : Disp → Disp) : (s.modDisp q f).ledgerFrac = s.ledgerFrac := rfl
@[simp] theorem State.modDisp_trcSeq (s : State) (q : Nat) (f : Disp → Disp) : (s.modDisp q f).trcSeq = s.trcSeq := rfl
@[simp] theorem State.modDisp_trcDrop (s : State) (q : Nat) (f : Disp → Disp) : (s.modDisp q f).trcDrop = s.trcDrop := rfl
@[simp] theorem State.modDisp_trcTok (s : State) (q : Nat) (f : Disp → Disp) : (s.modDisp q f).trcTok = s.trcTok := rfl
@[simp] theorem State.modDisp_busyNs (s : State) (q : Nat) (f : Disp → Disp) : (s.modDisp q f).busyNs = s.busyNs := rfl
@[simp] theorem State.modDisp_acct (s : State) (q : Nat) (f : Disp → Disp) : (s.modDisp q f).acct = s.acct := rfl
@[simp] theorem State.modDisp_ledgerQ (s : State) (q : Nat) (f : Disp → Disp) : (s.modDisp q f).ledgerQ = s.ledgerQ := rfl

/-! ### modColl -/

@[simp] theorem State.modColl_pending (s : State) (q : Nat) (f : Coll → Coll) : (s.modColl q f).pending = s.pending := rfl
@[simp] theorem State.modColl_out (s : State) (q : Nat) (f : Coll → Coll) : (s.modColl q f).out = s.out := rfl
@[simp] theorem State.modColl_free (s : State) (q : Nat) (f : Coll → Coll) : (s.modColl q f).free = s.free := rfl
@[simp] theorem State.modColl_now (s : State) (q : Nat) (f : Coll → Coll) : (s.modColl q f).now = s.now := rfl
@[simp] theorem State.modColl_regs (s : State) (q : Nat) (f : Coll → Coll) : (s.modColl q f).regs = s.regs := rfl
@[simp] theorem State.modColl_latches (s : State) (q : Nat) (f : Coll → Coll) : (s.modColl q f).latches = s.latches := rfl
@[simp] theorem State.modColl_mem (s : State) (q : Nat) (f : Coll → Coll) : (s.modColl q f).mem = s.mem := rfl
@[simp] theorem State.modColl_hostMem (s : State) (q : Nat) (f : Coll → Coll) : (s.modColl q f).hostMem = s.hostMem := rfl
@[simp] theorem State.modColl_bad (s : State) (q : Nat) (f : Coll → Coll) : (s.modColl q f).bad = s.bad := rfl
@[simp] theorem State.modColl_scrambled (s : State) (q : Nat) (f : Coll → Coll) : (s.modColl q f).scrambled = s.scrambled := rfl
@[simp] theorem State.modColl_held (s : State) (q : Nat) (f : Coll → Coll) : (s.modColl q f).held = s.held := rfl
@[simp] theorem State.modColl_regionMap (s : State) (q : Nat) (f : Coll → Coll) : (s.modColl q f).regionMap = s.regionMap := rfl
@[simp] theorem State.modColl_commitBusy (s : State) (q : Nat) (f : Coll → Coll) : (s.modColl q f).commitBusy = s.commitBusy := rfl
@[simp] theorem State.modColl_fns (s : State) (q : Nat) (f : Coll → Coll) : (s.modColl q f).fns = s.fns := rfl
@[simp] theorem State.modColl_ctxs (s : State) (q : Nat) (f : Coll → Coll) : (s.modColl q f).ctxs = s.ctxs := rfl
@[simp] theorem State.modColl_rings (s : State) (q : Nat) (f : Coll → Coll) : (s.modColl q f).rings = s.rings := rfl
@[simp] theorem State.modColl_nextSeq (s : State) (q : Nat) (f : Coll → Coll) : (s.modColl q f).nextSeq = s.nextSeq := rfl
@[simp] theorem State.modColl_descs (s : State) (q : Nat) (f : Coll → Coll) : (s.modColl q f).descs = s.descs := rfl
@[simp] theorem State.modColl_plans (s : State) (q : Nat) (f : Coll → Coll) : (s.modColl q f).plans = s.plans := rfl
@[simp] theorem State.modColl_chains (s : State) (q : Nat) (f : Coll → Coll) : (s.modColl q f).chains = s.chains := rfl
@[simp] theorem State.modColl_disps (s : State) (q : Nat) (f : Coll → Coll) : (s.modColl q f).disps = s.disps := rfl
@[simp] theorem State.modColl_switches (s : State) (q : Nat) (f : Coll → Coll) : (s.modColl q f).switches = s.switches := rfl
@[simp] theorem State.modColl_recovery (s : State) (q : Nat) (f : Coll → Coll) : (s.modColl q f).recovery = s.recovery := rfl
@[simp] theorem State.modColl_reports (s : State) (q : Nat) (f : Coll → Coll) : (s.modColl q f).reports = s.reports := rfl
@[simp] theorem State.modColl_arb (s : State) (q : Nat) (f : Coll → Coll) : (s.modColl q f).arb = s.arb := rfl
@[simp] theorem State.modColl_cores (s : State) (q : Nat) (f : Coll → Coll) : (s.modColl q f).cores = s.cores := rfl
@[simp] theorem State.modColl_dies (s : State) (q : Nat) (f : Coll → Coll) : (s.modColl q f).dies = s.dies := rfl
@[simp] theorem State.modColl_credits (s : State) (q : Nat) (f : Coll → Coll) : (s.modColl q f).credits = s.credits := rfl
@[simp] theorem State.modColl_combs (s : State) (q : Nat) (f : Coll → Coll) : (s.modColl q f).combs = s.combs := rfl
@[simp] theorem State.modColl_arms (s : State) (q : Nat) (f : Coll → Coll) : (s.modColl q f).arms = s.arms := rfl
@[simp] theorem State.modColl_hops (s : State) (q : Nat) (f : Coll → Coll) : (s.modColl q f).hops = s.hops := rfl
@[simp] theorem State.modColl_streams (s : State) (q : Nat) (f : Coll → Coll) : (s.modColl q f).streams = s.streams := rfl
@[simp] theorem State.modColl_dmaq (s : State) (q : Nat) (f : Coll → Coll) : (s.modColl q f).dmaq = s.dmaq := rfl
@[simp] theorem State.modColl_mcs (s : State) (q : Nat) (f : Coll → Coll) : (s.modColl q f).mcs = s.mcs := rfl
@[simp] theorem State.modColl_frings (s : State) (q : Nat) (f : Coll → Coll) : (s.modColl q f).frings = s.frings := rfl
@[simp] theorem State.modColl_ports (s : State) (q : Nat) (f : Coll → Coll) : (s.modColl q f).ports = s.ports := rfl
@[simp] theorem State.modColl_fab (s : State) (q : Nat) (f : Coll → Coll) : (s.modColl q f).fab = s.fab := rfl
@[simp] theorem State.modColl_hub (s : State) (q : Nat) (f : Coll → Coll) : (s.modColl q f).hub = s.hub := rfl
@[simp] theorem State.modColl_store (s : State) (q : Nat) (f : Coll → Coll) : (s.modColl q f).store = s.store := rfl
@[simp] theorem State.modColl_meas (s : State) (q : Nat) (f : Coll → Coll) : (s.modColl q f).meas = s.meas := rfl
@[simp] theorem State.modColl_spdmDoe (s : State) (q : Nat) (f : Coll → Coll) : (s.modColl q f).spdmDoe = s.spdmDoe := rfl
@[simp] theorem State.modColl_spdmMctp (s : State) (q : Nat) (f : Coll → Coll) : (s.modColl q f).spdmMctp = s.spdmMctp := rfl
@[simp] theorem State.modColl_boot (s : State) (q : Nat) (f : Coll → Coll) : (s.modColl q f).boot = s.boot := rfl
@[simp] theorem State.modColl_fw (s : State) (q : Nat) (f : Coll → Coll) : (s.modColl q f).fw = s.fw := rfl
@[simp] theorem State.modColl_ledgerFrac (s : State) (q : Nat) (f : Coll → Coll) : (s.modColl q f).ledgerFrac = s.ledgerFrac := rfl
@[simp] theorem State.modColl_trcSeq (s : State) (q : Nat) (f : Coll → Coll) : (s.modColl q f).trcSeq = s.trcSeq := rfl
@[simp] theorem State.modColl_trcDrop (s : State) (q : Nat) (f : Coll → Coll) : (s.modColl q f).trcDrop = s.trcDrop := rfl
@[simp] theorem State.modColl_trcTok (s : State) (q : Nat) (f : Coll → Coll) : (s.modColl q f).trcTok = s.trcTok := rfl
@[simp] theorem State.modColl_busyNs (s : State) (q : Nat) (f : Coll → Coll) : (s.modColl q f).busyNs = s.busyNs := rfl
@[simp] theorem State.modColl_acct (s : State) (q : Nat) (f : Coll → Coll) : (s.modColl q f).acct = s.acct := rfl
@[simp] theorem State.modColl_ledgerQ (s : State) (q : Nat) (f : Coll → Coll) : (s.modColl q f).ledgerQ = s.ledgerQ := rfl

/-! ### devWrite -/

@[simp] theorem State.devWrite_pending (s : State) (a : Nat) (bs : List Byte) : (s.devWrite a bs).pending = s.pending := rfl
@[simp] theorem State.devWrite_out (s : State) (a : Nat) (bs : List Byte) : (s.devWrite a bs).out = s.out := rfl
@[simp] theorem State.devWrite_free (s : State) (a : Nat) (bs : List Byte) : (s.devWrite a bs).free = s.free := rfl
@[simp] theorem State.devWrite_now (s : State) (a : Nat) (bs : List Byte) : (s.devWrite a bs).now = s.now := rfl
@[simp] theorem State.devWrite_regs (s : State) (a : Nat) (bs : List Byte) : (s.devWrite a bs).regs = s.regs := rfl
@[simp] theorem State.devWrite_latches (s : State) (a : Nat) (bs : List Byte) : (s.devWrite a bs).latches = s.latches := rfl
@[simp] theorem State.devWrite_hostMem (s : State) (a : Nat) (bs : List Byte) : (s.devWrite a bs).hostMem = s.hostMem := rfl
@[simp] theorem State.devWrite_bad (s : State) (a : Nat) (bs : List Byte) : (s.devWrite a bs).bad = s.bad := rfl
@[simp] theorem State.devWrite_scrambled (s : State) (a : Nat) (bs : List Byte) : (s.devWrite a bs).scrambled = s.scrambled := rfl
@[simp] theorem State.devWrite_held (s : State) (a : Nat) (bs : List Byte) : (s.devWrite a bs).held = s.held := rfl
@[simp] theorem State.devWrite_regionMap (s : State) (a : Nat) (bs : List Byte) : (s.devWrite a bs).regionMap = s.regionMap := rfl
@[simp] theorem State.devWrite_commitBusy (s : State) (a : Nat) (bs : List Byte) : (s.devWrite a bs).commitBusy = s.commitBusy := rfl
@[simp] theorem State.devWrite_fns (s : State) (a : Nat) (bs : List Byte) : (s.devWrite a bs).fns = s.fns := rfl
@[simp] theorem State.devWrite_ctxs (s : State) (a : Nat) (bs : List Byte) : (s.devWrite a bs).ctxs = s.ctxs := rfl
@[simp] theorem State.devWrite_rings (s : State) (a : Nat) (bs : List Byte) : (s.devWrite a bs).rings = s.rings := rfl
@[simp] theorem State.devWrite_nextSeq (s : State) (a : Nat) (bs : List Byte) : (s.devWrite a bs).nextSeq = s.nextSeq := rfl
@[simp] theorem State.devWrite_descs (s : State) (a : Nat) (bs : List Byte) : (s.devWrite a bs).descs = s.descs := rfl
@[simp] theorem State.devWrite_plans (s : State) (a : Nat) (bs : List Byte) : (s.devWrite a bs).plans = s.plans := rfl
@[simp] theorem State.devWrite_chains (s : State) (a : Nat) (bs : List Byte) : (s.devWrite a bs).chains = s.chains := rfl
@[simp] theorem State.devWrite_disps (s : State) (a : Nat) (bs : List Byte) : (s.devWrite a bs).disps = s.disps := rfl
@[simp] theorem State.devWrite_switches (s : State) (a : Nat) (bs : List Byte) : (s.devWrite a bs).switches = s.switches := rfl
@[simp] theorem State.devWrite_recovery (s : State) (a : Nat) (bs : List Byte) : (s.devWrite a bs).recovery = s.recovery := rfl
@[simp] theorem State.devWrite_reports (s : State) (a : Nat) (bs : List Byte) : (s.devWrite a bs).reports = s.reports := rfl
@[simp] theorem State.devWrite_arb (s : State) (a : Nat) (bs : List Byte) : (s.devWrite a bs).arb = s.arb := rfl
@[simp] theorem State.devWrite_cores (s : State) (a : Nat) (bs : List Byte) : (s.devWrite a bs).cores = s.cores := rfl
@[simp] theorem State.devWrite_dies (s : State) (a : Nat) (bs : List Byte) : (s.devWrite a bs).dies = s.dies := rfl
@[simp] theorem State.devWrite_credits (s : State) (a : Nat) (bs : List Byte) : (s.devWrite a bs).credits = s.credits := rfl
@[simp] theorem State.devWrite_colls (s : State) (a : Nat) (bs : List Byte) : (s.devWrite a bs).colls = s.colls := rfl
@[simp] theorem State.devWrite_combs (s : State) (a : Nat) (bs : List Byte) : (s.devWrite a bs).combs = s.combs := rfl
@[simp] theorem State.devWrite_arms (s : State) (a : Nat) (bs : List Byte) : (s.devWrite a bs).arms = s.arms := rfl
@[simp] theorem State.devWrite_hops (s : State) (a : Nat) (bs : List Byte) : (s.devWrite a bs).hops = s.hops := rfl
@[simp] theorem State.devWrite_streams (s : State) (a : Nat) (bs : List Byte) : (s.devWrite a bs).streams = s.streams := rfl
@[simp] theorem State.devWrite_dmaq (s : State) (a : Nat) (bs : List Byte) : (s.devWrite a bs).dmaq = s.dmaq := rfl
@[simp] theorem State.devWrite_mcs (s : State) (a : Nat) (bs : List Byte) : (s.devWrite a bs).mcs = s.mcs := rfl
@[simp] theorem State.devWrite_frings (s : State) (a : Nat) (bs : List Byte) : (s.devWrite a bs).frings = s.frings := rfl
@[simp] theorem State.devWrite_ports (s : State) (a : Nat) (bs : List Byte) : (s.devWrite a bs).ports = s.ports := rfl
@[simp] theorem State.devWrite_fab (s : State) (a : Nat) (bs : List Byte) : (s.devWrite a bs).fab = s.fab := rfl
@[simp] theorem State.devWrite_hub (s : State) (a : Nat) (bs : List Byte) : (s.devWrite a bs).hub = s.hub := rfl
@[simp] theorem State.devWrite_store (s : State) (a : Nat) (bs : List Byte) : (s.devWrite a bs).store = s.store := rfl
@[simp] theorem State.devWrite_meas (s : State) (a : Nat) (bs : List Byte) : (s.devWrite a bs).meas = s.meas := rfl
@[simp] theorem State.devWrite_spdmDoe (s : State) (a : Nat) (bs : List Byte) : (s.devWrite a bs).spdmDoe = s.spdmDoe := rfl
@[simp] theorem State.devWrite_spdmMctp (s : State) (a : Nat) (bs : List Byte) : (s.devWrite a bs).spdmMctp = s.spdmMctp := rfl
@[simp] theorem State.devWrite_boot (s : State) (a : Nat) (bs : List Byte) : (s.devWrite a bs).boot = s.boot := rfl
@[simp] theorem State.devWrite_fw (s : State) (a : Nat) (bs : List Byte) : (s.devWrite a bs).fw = s.fw := rfl
@[simp] theorem State.devWrite_ledgerFrac (s : State) (a : Nat) (bs : List Byte) : (s.devWrite a bs).ledgerFrac = s.ledgerFrac := rfl
@[simp] theorem State.devWrite_trcSeq (s : State) (a : Nat) (bs : List Byte) : (s.devWrite a bs).trcSeq = s.trcSeq := rfl
@[simp] theorem State.devWrite_trcDrop (s : State) (a : Nat) (bs : List Byte) : (s.devWrite a bs).trcDrop = s.trcDrop := rfl
@[simp] theorem State.devWrite_trcTok (s : State) (a : Nat) (bs : List Byte) : (s.devWrite a bs).trcTok = s.trcTok := rfl
@[simp] theorem State.devWrite_busyNs (s : State) (a : Nat) (bs : List Byte) : (s.devWrite a bs).busyNs = s.busyNs := rfl
@[simp] theorem State.devWrite_acct (s : State) (a : Nat) (bs : List Byte) : (s.devWrite a bs).acct = s.acct := rfl
@[simp] theorem State.devWrite_ledgerQ (s : State) (a : Nat) (bs : List Byte) : (s.devWrite a bs).ledgerQ = s.ledgerQ := rfl

/-! ### setReg -/

@[simp] theorem State.setReg_pending (s : State) (r : RegId) (d i j : Nat) (v : W64) : (s.setReg r d i j v).pending = s.pending := rfl
@[simp] theorem State.setReg_out (s : State) (r : RegId) (d i j : Nat) (v : W64) : (s.setReg r d i j v).out = s.out := rfl
@[simp] theorem State.setReg_free (s : State) (r : RegId) (d i j : Nat) (v : W64) : (s.setReg r d i j v).free = s.free := rfl
@[simp] theorem State.setReg_now (s : State) (r : RegId) (d i j : Nat) (v : W64) : (s.setReg r d i j v).now = s.now := rfl
@[simp] theorem State.setReg_latches (s : State) (r : RegId) (d i j : Nat) (v : W64) : (s.setReg r d i j v).latches = s.latches := rfl
@[simp] theorem State.setReg_mem (s : State) (r : RegId) (d i j : Nat) (v : W64) : (s.setReg r d i j v).mem = s.mem := rfl
@[simp] theorem State.setReg_hostMem (s : State) (r : RegId) (d i j : Nat) (v : W64) : (s.setReg r d i j v).hostMem = s.hostMem := rfl
@[simp] theorem State.setReg_bad (s : State) (r : RegId) (d i j : Nat) (v : W64) : (s.setReg r d i j v).bad = s.bad := rfl
@[simp] theorem State.setReg_scrambled (s : State) (r : RegId) (d i j : Nat) (v : W64) : (s.setReg r d i j v).scrambled = s.scrambled := rfl
@[simp] theorem State.setReg_held (s : State) (r : RegId) (d i j : Nat) (v : W64) : (s.setReg r d i j v).held = s.held := rfl
@[simp] theorem State.setReg_regionMap (s : State) (r : RegId) (d i j : Nat) (v : W64) : (s.setReg r d i j v).regionMap = s.regionMap := rfl
@[simp] theorem State.setReg_commitBusy (s : State) (r : RegId) (d i j : Nat) (v : W64) : (s.setReg r d i j v).commitBusy = s.commitBusy := rfl
@[simp] theorem State.setReg_fns (s : State) (r : RegId) (d i j : Nat) (v : W64) : (s.setReg r d i j v).fns = s.fns := rfl
@[simp] theorem State.setReg_ctxs (s : State) (r : RegId) (d i j : Nat) (v : W64) : (s.setReg r d i j v).ctxs = s.ctxs := rfl
@[simp] theorem State.setReg_rings (s : State) (r : RegId) (d i j : Nat) (v : W64) : (s.setReg r d i j v).rings = s.rings := rfl
@[simp] theorem State.setReg_nextSeq (s : State) (r : RegId) (d i j : Nat) (v : W64) : (s.setReg r d i j v).nextSeq = s.nextSeq := rfl
@[simp] theorem State.setReg_descs (s : State) (r : RegId) (d i j : Nat) (v : W64) : (s.setReg r d i j v).descs = s.descs := rfl
@[simp] theorem State.setReg_plans (s : State) (r : RegId) (d i j : Nat) (v : W64) : (s.setReg r d i j v).plans = s.plans := rfl
@[simp] theorem State.setReg_chains (s : State) (r : RegId) (d i j : Nat) (v : W64) : (s.setReg r d i j v).chains = s.chains := rfl
@[simp] theorem State.setReg_disps (s : State) (r : RegId) (d i j : Nat) (v : W64) : (s.setReg r d i j v).disps = s.disps := rfl
@[simp] theorem State.setReg_switches (s : State) (r : RegId) (d i j : Nat) (v : W64) : (s.setReg r d i j v).switches = s.switches := rfl
@[simp] theorem State.setReg_recovery (s : State) (r : RegId) (d i j : Nat) (v : W64) : (s.setReg r d i j v).recovery = s.recovery := rfl
@[simp] theorem State.setReg_reports (s : State) (r : RegId) (d i j : Nat) (v : W64) : (s.setReg r d i j v).reports = s.reports := rfl
@[simp] theorem State.setReg_arb (s : State) (r : RegId) (d i j : Nat) (v : W64) : (s.setReg r d i j v).arb = s.arb := rfl
@[simp] theorem State.setReg_cores (s : State) (r : RegId) (d i j : Nat) (v : W64) : (s.setReg r d i j v).cores = s.cores := rfl
@[simp] theorem State.setReg_dies (s : State) (r : RegId) (d i j : Nat) (v : W64) : (s.setReg r d i j v).dies = s.dies := rfl
@[simp] theorem State.setReg_credits (s : State) (r : RegId) (d i j : Nat) (v : W64) : (s.setReg r d i j v).credits = s.credits := rfl
@[simp] theorem State.setReg_colls (s : State) (r : RegId) (d i j : Nat) (v : W64) : (s.setReg r d i j v).colls = s.colls := rfl
@[simp] theorem State.setReg_combs (s : State) (r : RegId) (d i j : Nat) (v : W64) : (s.setReg r d i j v).combs = s.combs := rfl
@[simp] theorem State.setReg_arms (s : State) (r : RegId) (d i j : Nat) (v : W64) : (s.setReg r d i j v).arms = s.arms := rfl
@[simp] theorem State.setReg_hops (s : State) (r : RegId) (d i j : Nat) (v : W64) : (s.setReg r d i j v).hops = s.hops := rfl
@[simp] theorem State.setReg_streams (s : State) (r : RegId) (d i j : Nat) (v : W64) : (s.setReg r d i j v).streams = s.streams := rfl
@[simp] theorem State.setReg_dmaq (s : State) (r : RegId) (d i j : Nat) (v : W64) : (s.setReg r d i j v).dmaq = s.dmaq := rfl
@[simp] theorem State.setReg_mcs (s : State) (r : RegId) (d i j : Nat) (v : W64) : (s.setReg r d i j v).mcs = s.mcs := rfl
@[simp] theorem State.setReg_frings (s : State) (r : RegId) (d i j : Nat) (v : W64) : (s.setReg r d i j v).frings = s.frings := rfl
@[simp] theorem State.setReg_ports (s : State) (r : RegId) (d i j : Nat) (v : W64) : (s.setReg r d i j v).ports = s.ports := rfl
@[simp] theorem State.setReg_fab (s : State) (r : RegId) (d i j : Nat) (v : W64) : (s.setReg r d i j v).fab = s.fab := rfl
@[simp] theorem State.setReg_hub (s : State) (r : RegId) (d i j : Nat) (v : W64) : (s.setReg r d i j v).hub = s.hub := rfl
@[simp] theorem State.setReg_store (s : State) (r : RegId) (d i j : Nat) (v : W64) : (s.setReg r d i j v).store = s.store := rfl
@[simp] theorem State.setReg_meas (s : State) (r : RegId) (d i j : Nat) (v : W64) : (s.setReg r d i j v).meas = s.meas := rfl
@[simp] theorem State.setReg_spdmDoe (s : State) (r : RegId) (d i j : Nat) (v : W64) : (s.setReg r d i j v).spdmDoe = s.spdmDoe := rfl
@[simp] theorem State.setReg_spdmMctp (s : State) (r : RegId) (d i j : Nat) (v : W64) : (s.setReg r d i j v).spdmMctp = s.spdmMctp := rfl
@[simp] theorem State.setReg_boot (s : State) (r : RegId) (d i j : Nat) (v : W64) : (s.setReg r d i j v).boot = s.boot := rfl
@[simp] theorem State.setReg_fw (s : State) (r : RegId) (d i j : Nat) (v : W64) : (s.setReg r d i j v).fw = s.fw := rfl
@[simp] theorem State.setReg_ledgerFrac (s : State) (r : RegId) (d i j : Nat) (v : W64) : (s.setReg r d i j v).ledgerFrac = s.ledgerFrac := rfl
@[simp] theorem State.setReg_trcSeq (s : State) (r : RegId) (d i j : Nat) (v : W64) : (s.setReg r d i j v).trcSeq = s.trcSeq := rfl
@[simp] theorem State.setReg_trcDrop (s : State) (r : RegId) (d i j : Nat) (v : W64) : (s.setReg r d i j v).trcDrop = s.trcDrop := rfl
@[simp] theorem State.setReg_trcTok (s : State) (r : RegId) (d i j : Nat) (v : W64) : (s.setReg r d i j v).trcTok = s.trcTok := rfl
@[simp] theorem State.setReg_busyNs (s : State) (r : RegId) (d i j : Nat) (v : W64) : (s.setReg r d i j v).busyNs = s.busyNs := rfl
@[simp] theorem State.setReg_acct (s : State) (r : RegId) (d i j : Nat) (v : W64) : (s.setReg r d i j v).acct = s.acct := rfl
@[simp] theorem State.setReg_ledgerQ (s : State) (r : RegId) (d i j : Nat) (v : W64) : (s.setReg r d i j v).ledgerQ = s.ledgerQ := rfl

/-! ### modReg -/

@[simp] theorem State.modReg_pending (s : State) (r : RegId) (d i j : Nat) (f : W64 → W64) : (s.modReg r d i j f).pending = s.pending := rfl
@[simp] theorem State.modReg_out (s : State) (r : RegId) (d i j : Nat) (f : W64 → W64) : (s.modReg r d i j f).out = s.out := rfl
@[simp] theorem State.modReg_free (s : State) (r : RegId) (d i j : Nat) (f : W64 → W64) : (s.modReg r d i j f).free = s.free := rfl
@[simp] theorem State.modReg_now (s : State) (r : RegId) (d i j : Nat) (f : W64 → W64) : (s.modReg r d i j f).now = s.now := rfl
@[simp] theorem State.modReg_latches (s : State) (r : RegId) (d i j : Nat) (f : W64 → W64) : (s.modReg r d i j f).latches = s.latches := rfl
@[simp] theorem State.modReg_mem (s : State) (r : RegId) (d i j : Nat) (f : W64 → W64) : (s.modReg r d i j f).mem = s.mem := rfl
@[simp] theorem State.modReg_hostMem (s : State) (r : RegId) (d i j : Nat) (f : W64 → W64) : (s.modReg r d i j f).hostMem = s.hostMem := rfl
@[simp] theorem State.modReg_bad (s : State) (r : RegId) (d i j : Nat) (f : W64 → W64) : (s.modReg r d i j f).bad = s.bad := rfl
@[simp] theorem State.modReg_scrambled (s : State) (r : RegId) (d i j : Nat) (f : W64 → W64) : (s.modReg r d i j f).scrambled = s.scrambled := rfl
@[simp] theorem State.modReg_held (s : State) (r : RegId) (d i j : Nat) (f : W64 → W64) : (s.modReg r d i j f).held = s.held := rfl
@[simp] theorem State.modReg_regionMap (s : State) (r : RegId) (d i j : Nat) (f : W64 → W64) : (s.modReg r d i j f).regionMap = s.regionMap := rfl
@[simp] theorem State.modReg_commitBusy (s : State) (r : RegId) (d i j : Nat) (f : W64 → W64) : (s.modReg r d i j f).commitBusy = s.commitBusy := rfl
@[simp] theorem State.modReg_fns (s : State) (r : RegId) (d i j : Nat) (f : W64 → W64) : (s.modReg r d i j f).fns = s.fns := rfl
@[simp] theorem State.modReg_ctxs (s : State) (r : RegId) (d i j : Nat) (f : W64 → W64) : (s.modReg r d i j f).ctxs = s.ctxs := rfl
@[simp] theorem State.modReg_rings (s : State) (r : RegId) (d i j : Nat) (f : W64 → W64) : (s.modReg r d i j f).rings = s.rings := rfl
@[simp] theorem State.modReg_nextSeq (s : State) (r : RegId) (d i j : Nat) (f : W64 → W64) : (s.modReg r d i j f).nextSeq = s.nextSeq := rfl
@[simp] theorem State.modReg_descs (s : State) (r : RegId) (d i j : Nat) (f : W64 → W64) : (s.modReg r d i j f).descs = s.descs := rfl
@[simp] theorem State.modReg_plans (s : State) (r : RegId) (d i j : Nat) (f : W64 → W64) : (s.modReg r d i j f).plans = s.plans := rfl
@[simp] theorem State.modReg_chains (s : State) (r : RegId) (d i j : Nat) (f : W64 → W64) : (s.modReg r d i j f).chains = s.chains := rfl
@[simp] theorem State.modReg_disps (s : State) (r : RegId) (d i j : Nat) (f : W64 → W64) : (s.modReg r d i j f).disps = s.disps := rfl
@[simp] theorem State.modReg_switches (s : State) (r : RegId) (d i j : Nat) (f : W64 → W64) : (s.modReg r d i j f).switches = s.switches := rfl
@[simp] theorem State.modReg_recovery (s : State) (r : RegId) (d i j : Nat) (f : W64 → W64) : (s.modReg r d i j f).recovery = s.recovery := rfl
@[simp] theorem State.modReg_reports (s : State) (r : RegId) (d i j : Nat) (f : W64 → W64) : (s.modReg r d i j f).reports = s.reports := rfl
@[simp] theorem State.modReg_arb (s : State) (r : RegId) (d i j : Nat) (f : W64 → W64) : (s.modReg r d i j f).arb = s.arb := rfl
@[simp] theorem State.modReg_cores (s : State) (r : RegId) (d i j : Nat) (f : W64 → W64) : (s.modReg r d i j f).cores = s.cores := rfl
@[simp] theorem State.modReg_dies (s : State) (r : RegId) (d i j : Nat) (f : W64 → W64) : (s.modReg r d i j f).dies = s.dies := rfl
@[simp] theorem State.modReg_credits (s : State) (r : RegId) (d i j : Nat) (f : W64 → W64) : (s.modReg r d i j f).credits = s.credits := rfl
@[simp] theorem State.modReg_colls (s : State) (r : RegId) (d i j : Nat) (f : W64 → W64) : (s.modReg r d i j f).colls = s.colls := rfl
@[simp] theorem State.modReg_combs (s : State) (r : RegId) (d i j : Nat) (f : W64 → W64) : (s.modReg r d i j f).combs = s.combs := rfl
@[simp] theorem State.modReg_arms (s : State) (r : RegId) (d i j : Nat) (f : W64 → W64) : (s.modReg r d i j f).arms = s.arms := rfl
@[simp] theorem State.modReg_hops (s : State) (r : RegId) (d i j : Nat) (f : W64 → W64) : (s.modReg r d i j f).hops = s.hops := rfl
@[simp] theorem State.modReg_streams (s : State) (r : RegId) (d i j : Nat) (f : W64 → W64) : (s.modReg r d i j f).streams = s.streams := rfl
@[simp] theorem State.modReg_dmaq (s : State) (r : RegId) (d i j : Nat) (f : W64 → W64) : (s.modReg r d i j f).dmaq = s.dmaq := rfl
@[simp] theorem State.modReg_mcs (s : State) (r : RegId) (d i j : Nat) (f : W64 → W64) : (s.modReg r d i j f).mcs = s.mcs := rfl
@[simp] theorem State.modReg_frings (s : State) (r : RegId) (d i j : Nat) (f : W64 → W64) : (s.modReg r d i j f).frings = s.frings := rfl
@[simp] theorem State.modReg_ports (s : State) (r : RegId) (d i j : Nat) (f : W64 → W64) : (s.modReg r d i j f).ports = s.ports := rfl
@[simp] theorem State.modReg_fab (s : State) (r : RegId) (d i j : Nat) (f : W64 → W64) : (s.modReg r d i j f).fab = s.fab := rfl
@[simp] theorem State.modReg_hub (s : State) (r : RegId) (d i j : Nat) (f : W64 → W64) : (s.modReg r d i j f).hub = s.hub := rfl
@[simp] theorem State.modReg_store (s : State) (r : RegId) (d i j : Nat) (f : W64 → W64) : (s.modReg r d i j f).store = s.store := rfl
@[simp] theorem State.modReg_meas (s : State) (r : RegId) (d i j : Nat) (f : W64 → W64) : (s.modReg r d i j f).meas = s.meas := rfl
@[simp] theorem State.modReg_spdmDoe (s : State) (r : RegId) (d i j : Nat) (f : W64 → W64) : (s.modReg r d i j f).spdmDoe = s.spdmDoe := rfl
@[simp] theorem State.modReg_spdmMctp (s : State) (r : RegId) (d i j : Nat) (f : W64 → W64) : (s.modReg r d i j f).spdmMctp = s.spdmMctp := rfl
@[simp] theorem State.modReg_boot (s : State) (r : RegId) (d i j : Nat) (f : W64 → W64) : (s.modReg r d i j f).boot = s.boot := rfl
@[simp] theorem State.modReg_fw (s : State) (r : RegId) (d i j : Nat) (f : W64 → W64) : (s.modReg r d i j f).fw = s.fw := rfl
@[simp] theorem State.modReg_ledgerFrac (s : State) (r : RegId) (d i j : Nat) (f : W64 → W64) : (s.modReg r d i j f).ledgerFrac = s.ledgerFrac := rfl
@[simp] theorem State.modReg_trcSeq (s : State) (r : RegId) (d i j : Nat) (f : W64 → W64) : (s.modReg r d i j f).trcSeq = s.trcSeq := rfl
@[simp] theorem State.modReg_trcDrop (s : State) (r : RegId) (d i j : Nat) (f : W64 → W64) : (s.modReg r d i j f).trcDrop = s.trcDrop := rfl
@[simp] theorem State.modReg_trcTok (s : State) (r : RegId) (d i j : Nat) (f : W64 → W64) : (s.modReg r d i j f).trcTok = s.trcTok := rfl
@[simp] theorem State.modReg_busyNs (s : State) (r : RegId) (d i j : Nat) (f : W64 → W64) : (s.modReg r d i j f).busyNs = s.busyNs := rfl
@[simp] theorem State.modReg_acct (s : State) (r : RegId) (d i j : Nat) (f : W64 → W64) : (s.modReg r d i j f).acct = s.acct := rfl
@[simp] theorem State.modReg_ledgerQ (s : State) (r : RegId) (d i j : Nat) (f : W64 → W64) : (s.modReg r d i j f).ledgerQ = s.ledgerQ := rfl

/-! ### setRegFld -/

@[simp] theorem State.setRegFld_pending (s : State) (r : RegId) (d i j hi lo x : Nat) : (s.setRegFld r d i j hi lo x).pending = s.pending := rfl
@[simp] theorem State.setRegFld_out (s : State) (r : RegId) (d i j hi lo x : Nat) : (s.setRegFld r d i j hi lo x).out = s.out := rfl
@[simp] theorem State.setRegFld_free (s : State) (r : RegId) (d i j hi lo x : Nat) : (s.setRegFld r d i j hi lo x).free = s.free := rfl
@[simp] theorem State.setRegFld_now (s : State) (r : RegId) (d i j hi lo x : Nat) : (s.setRegFld r d i j hi lo x).now = s.now := rfl
@[simp] theorem State.setRegFld_latches (s : State) (r : RegId) (d i j hi lo x : Nat) : (s.setRegFld r d i j hi lo x).latches = s.latches := rfl
@[simp] theorem State.setRegFld_mem (s : State) (r : RegId) (d i j hi lo x : Nat) : (s.setRegFld r d i j hi lo x).mem = s.mem := rfl
@[simp] theorem State.setRegFld_hostMem (s : State) (r : RegId) (d i j hi lo x : Nat) : (s.setRegFld r d i j hi lo x).hostMem = s.hostMem := rfl
@[simp] theorem State.setRegFld_bad (s : State) (r : RegId) (d i j hi lo x : Nat) : (s.setRegFld r d i j hi lo x).bad = s.bad := rfl
@[simp] theorem State.setRegFld_scrambled (s : State) (r : RegId) (d i j hi lo x : Nat) : (s.setRegFld r d i j hi lo x).scrambled = s.scrambled := rfl
@[simp] theorem State.setRegFld_held (s : State) (r : RegId) (d i j hi lo x : Nat) : (s.setRegFld r d i j hi lo x).held = s.held := rfl
@[simp] theorem State.setRegFld_regionMap (s : State) (r : RegId) (d i j hi lo x : Nat) : (s.setRegFld r d i j hi lo x).regionMap = s.regionMap := rfl
@[simp] theorem State.setRegFld_commitBusy (s : State) (r : RegId) (d i j hi lo x : Nat) : (s.setRegFld r d i j hi lo x).commitBusy = s.commitBusy := rfl
@[simp] theorem State.setRegFld_fns (s : State) (r : RegId) (d i j hi lo x : Nat) : (s.setRegFld r d i j hi lo x).fns = s.fns := rfl
@[simp] theorem State.setRegFld_ctxs (s : State) (r : RegId) (d i j hi lo x : Nat) : (s.setRegFld r d i j hi lo x).ctxs = s.ctxs := rfl
@[simp] theorem State.setRegFld_rings (s : State) (r : RegId) (d i j hi lo x : Nat) : (s.setRegFld r d i j hi lo x).rings = s.rings := rfl
@[simp] theorem State.setRegFld_nextSeq (s : State) (r : RegId) (d i j hi lo x : Nat) : (s.setRegFld r d i j hi lo x).nextSeq = s.nextSeq := rfl
@[simp] theorem State.setRegFld_descs (s : State) (r : RegId) (d i j hi lo x : Nat) : (s.setRegFld r d i j hi lo x).descs = s.descs := rfl
@[simp] theorem State.setRegFld_plans (s : State) (r : RegId) (d i j hi lo x : Nat) : (s.setRegFld r d i j hi lo x).plans = s.plans := rfl
@[simp] theorem State.setRegFld_chains (s : State) (r : RegId) (d i j hi lo x : Nat) : (s.setRegFld r d i j hi lo x).chains = s.chains := rfl
@[simp] theorem State.setRegFld_disps (s : State) (r : RegId) (d i j hi lo x : Nat) : (s.setRegFld r d i j hi lo x).disps = s.disps := rfl
@[simp] theorem State.setRegFld_switches (s : State) (r : RegId) (d i j hi lo x : Nat) : (s.setRegFld r d i j hi lo x).switches = s.switches := rfl
@[simp] theorem State.setRegFld_recovery (s : State) (r : RegId) (d i j hi lo x : Nat) : (s.setRegFld r d i j hi lo x).recovery = s.recovery := rfl
@[simp] theorem State.setRegFld_reports (s : State) (r : RegId) (d i j hi lo x : Nat) : (s.setRegFld r d i j hi lo x).reports = s.reports := rfl
@[simp] theorem State.setRegFld_arb (s : State) (r : RegId) (d i j hi lo x : Nat) : (s.setRegFld r d i j hi lo x).arb = s.arb := rfl
@[simp] theorem State.setRegFld_cores (s : State) (r : RegId) (d i j hi lo x : Nat) : (s.setRegFld r d i j hi lo x).cores = s.cores := rfl
@[simp] theorem State.setRegFld_dies (s : State) (r : RegId) (d i j hi lo x : Nat) : (s.setRegFld r d i j hi lo x).dies = s.dies := rfl
@[simp] theorem State.setRegFld_credits (s : State) (r : RegId) (d i j hi lo x : Nat) : (s.setRegFld r d i j hi lo x).credits = s.credits := rfl
@[simp] theorem State.setRegFld_colls (s : State) (r : RegId) (d i j hi lo x : Nat) : (s.setRegFld r d i j hi lo x).colls = s.colls := rfl
@[simp] theorem State.setRegFld_combs (s : State) (r : RegId) (d i j hi lo x : Nat) : (s.setRegFld r d i j hi lo x).combs = s.combs := rfl
@[simp] theorem State.setRegFld_arms (s : State) (r : RegId) (d i j hi lo x : Nat) : (s.setRegFld r d i j hi lo x).arms = s.arms := rfl
@[simp] theorem State.setRegFld_hops (s : State) (r : RegId) (d i j hi lo x : Nat) : (s.setRegFld r d i j hi lo x).hops = s.hops := rfl
@[simp] theorem State.setRegFld_streams (s : State) (r : RegId) (d i j hi lo x : Nat) : (s.setRegFld r d i j hi lo x).streams = s.streams := rfl
@[simp] theorem State.setRegFld_dmaq (s : State) (r : RegId) (d i j hi lo x : Nat) : (s.setRegFld r d i j hi lo x).dmaq = s.dmaq := rfl
@[simp] theorem State.setRegFld_mcs (s : State) (r : RegId) (d i j hi lo x : Nat) : (s.setRegFld r d i j hi lo x).mcs = s.mcs := rfl
@[simp] theorem State.setRegFld_frings (s : State) (r : RegId) (d i j hi lo x : Nat) : (s.setRegFld r d i j hi lo x).frings = s.frings := rfl
@[simp] theorem State.setRegFld_ports (s : State) (r : RegId) (d i j hi lo x : Nat) : (s.setRegFld r d i j hi lo x).ports = s.ports := rfl
@[simp] theorem State.setRegFld_fab (s : State) (r : RegId) (d i j hi lo x : Nat) : (s.setRegFld r d i j hi lo x).fab = s.fab := rfl
@[simp] theorem State.setRegFld_hub (s : State) (r : RegId) (d i j hi lo x : Nat) : (s.setRegFld r d i j hi lo x).hub = s.hub := rfl
@[simp] theorem State.setRegFld_store (s : State) (r : RegId) (d i j hi lo x : Nat) : (s.setRegFld r d i j hi lo x).store = s.store := rfl
@[simp] theorem State.setRegFld_meas (s : State) (r : RegId) (d i j hi lo x : Nat) : (s.setRegFld r d i j hi lo x).meas = s.meas := rfl
@[simp] theorem State.setRegFld_spdmDoe (s : State) (r : RegId) (d i j hi lo x : Nat) : (s.setRegFld r d i j hi lo x).spdmDoe = s.spdmDoe := rfl
@[simp] theorem State.setRegFld_spdmMctp (s : State) (r : RegId) (d i j hi lo x : Nat) : (s.setRegFld r d i j hi lo x).spdmMctp = s.spdmMctp := rfl
@[simp] theorem State.setRegFld_boot (s : State) (r : RegId) (d i j hi lo x : Nat) : (s.setRegFld r d i j hi lo x).boot = s.boot := rfl
@[simp] theorem State.setRegFld_fw (s : State) (r : RegId) (d i j hi lo x : Nat) : (s.setRegFld r d i j hi lo x).fw = s.fw := rfl
@[simp] theorem State.setRegFld_ledgerFrac (s : State) (r : RegId) (d i j hi lo x : Nat) : (s.setRegFld r d i j hi lo x).ledgerFrac = s.ledgerFrac := rfl
@[simp] theorem State.setRegFld_trcSeq (s : State) (r : RegId) (d i j hi lo x : Nat) : (s.setRegFld r d i j hi lo x).trcSeq = s.trcSeq := rfl
@[simp] theorem State.setRegFld_trcDrop (s : State) (r : RegId) (d i j hi lo x : Nat) : (s.setRegFld r d i j hi lo x).trcDrop = s.trcDrop := rfl
@[simp] theorem State.setRegFld_trcTok (s : State) (r : RegId) (d i j hi lo x : Nat) : (s.setRegFld r d i j hi lo x).trcTok = s.trcTok := rfl
@[simp] theorem State.setRegFld_busyNs (s : State) (r : RegId) (d i j hi lo x : Nat) : (s.setRegFld r d i j hi lo x).busyNs = s.busyNs := rfl
@[simp] theorem State.setRegFld_acct (s : State) (r : RegId) (d i j hi lo x : Nat) : (s.setRegFld r d i j hi lo x).acct = s.acct := rfl
@[simp] theorem State.setRegFld_ledgerQ (s : State) (r : RegId) (d i j hi lo x : Nat) : (s.setRegFld r d i j hi lo x).ledgerQ = s.ledgerQ := rfl

/-! ### bump -/

@[simp] theorem State.bump_pending (s : State) (r : RegId) (d i k : Nat) : (s.bump r d i k).pending = s.pending := rfl
@[simp] theorem State.bump_out (s : State) (r : RegId) (d i k : Nat) : (s.bump r d i k).out = s.out := rfl
@[simp] theorem State.bump_free (s : State) (r : RegId) (d i k : Nat) : (s.bump r d i k).free = s.free := rfl
@[simp] theorem State.bump_now (s : State) (r : RegId) (d i k : Nat) : (s.bump r d i k).now = s.now := rfl
@[simp] theorem State.bump_latches (s : State) (r : RegId) (d i k : Nat) : (s.bump r d i k).latches = s.latches := rfl
@[simp] theorem State.bump_mem (s : State) (r : RegId) (d i k : Nat) : (s.bump r d i k).mem = s.mem := rfl
@[simp] theorem State.bump_hostMem (s : State) (r : RegId) (d i k : Nat) : (s.bump r d i k).hostMem = s.hostMem := rfl
@[simp] theorem State.bump_bad (s : State) (r : RegId) (d i k : Nat) : (s.bump r d i k).bad = s.bad := rfl
@[simp] theorem State.bump_scrambled (s : State) (r : RegId) (d i k : Nat) : (s.bump r d i k).scrambled = s.scrambled := rfl
@[simp] theorem State.bump_held (s : State) (r : RegId) (d i k : Nat) : (s.bump r d i k).held = s.held := rfl
@[simp] theorem State.bump_regionMap (s : State) (r : RegId) (d i k : Nat) : (s.bump r d i k).regionMap = s.regionMap := rfl
@[simp] theorem State.bump_commitBusy (s : State) (r : RegId) (d i k : Nat) : (s.bump r d i k).commitBusy = s.commitBusy := rfl
@[simp] theorem State.bump_fns (s : State) (r : RegId) (d i k : Nat) : (s.bump r d i k).fns = s.fns := rfl
@[simp] theorem State.bump_ctxs (s : State) (r : RegId) (d i k : Nat) : (s.bump r d i k).ctxs = s.ctxs := rfl
@[simp] theorem State.bump_rings (s : State) (r : RegId) (d i k : Nat) : (s.bump r d i k).rings = s.rings := rfl
@[simp] theorem State.bump_nextSeq (s : State) (r : RegId) (d i k : Nat) : (s.bump r d i k).nextSeq = s.nextSeq := rfl
@[simp] theorem State.bump_descs (s : State) (r : RegId) (d i k : Nat) : (s.bump r d i k).descs = s.descs := rfl
@[simp] theorem State.bump_plans (s : State) (r : RegId) (d i k : Nat) : (s.bump r d i k).plans = s.plans := rfl
@[simp] theorem State.bump_chains (s : State) (r : RegId) (d i k : Nat) : (s.bump r d i k).chains = s.chains := rfl
@[simp] theorem State.bump_disps (s : State) (r : RegId) (d i k : Nat) : (s.bump r d i k).disps = s.disps := rfl
@[simp] theorem State.bump_switches (s : State) (r : RegId) (d i k : Nat) : (s.bump r d i k).switches = s.switches := rfl
@[simp] theorem State.bump_recovery (s : State) (r : RegId) (d i k : Nat) : (s.bump r d i k).recovery = s.recovery := rfl
@[simp] theorem State.bump_reports (s : State) (r : RegId) (d i k : Nat) : (s.bump r d i k).reports = s.reports := rfl
@[simp] theorem State.bump_arb (s : State) (r : RegId) (d i k : Nat) : (s.bump r d i k).arb = s.arb := rfl
@[simp] theorem State.bump_cores (s : State) (r : RegId) (d i k : Nat) : (s.bump r d i k).cores = s.cores := rfl
@[simp] theorem State.bump_dies (s : State) (r : RegId) (d i k : Nat) : (s.bump r d i k).dies = s.dies := rfl
@[simp] theorem State.bump_credits (s : State) (r : RegId) (d i k : Nat) : (s.bump r d i k).credits = s.credits := rfl
@[simp] theorem State.bump_colls (s : State) (r : RegId) (d i k : Nat) : (s.bump r d i k).colls = s.colls := rfl
@[simp] theorem State.bump_combs (s : State) (r : RegId) (d i k : Nat) : (s.bump r d i k).combs = s.combs := rfl
@[simp] theorem State.bump_arms (s : State) (r : RegId) (d i k : Nat) : (s.bump r d i k).arms = s.arms := rfl
@[simp] theorem State.bump_hops (s : State) (r : RegId) (d i k : Nat) : (s.bump r d i k).hops = s.hops := rfl
@[simp] theorem State.bump_streams (s : State) (r : RegId) (d i k : Nat) : (s.bump r d i k).streams = s.streams := rfl
@[simp] theorem State.bump_dmaq (s : State) (r : RegId) (d i k : Nat) : (s.bump r d i k).dmaq = s.dmaq := rfl
@[simp] theorem State.bump_mcs (s : State) (r : RegId) (d i k : Nat) : (s.bump r d i k).mcs = s.mcs := rfl
@[simp] theorem State.bump_frings (s : State) (r : RegId) (d i k : Nat) : (s.bump r d i k).frings = s.frings := rfl
@[simp] theorem State.bump_ports (s : State) (r : RegId) (d i k : Nat) : (s.bump r d i k).ports = s.ports := rfl
@[simp] theorem State.bump_fab (s : State) (r : RegId) (d i k : Nat) : (s.bump r d i k).fab = s.fab := rfl
@[simp] theorem State.bump_hub (s : State) (r : RegId) (d i k : Nat) : (s.bump r d i k).hub = s.hub := rfl
@[simp] theorem State.bump_store (s : State) (r : RegId) (d i k : Nat) : (s.bump r d i k).store = s.store := rfl
@[simp] theorem State.bump_meas (s : State) (r : RegId) (d i k : Nat) : (s.bump r d i k).meas = s.meas := rfl
@[simp] theorem State.bump_spdmDoe (s : State) (r : RegId) (d i k : Nat) : (s.bump r d i k).spdmDoe = s.spdmDoe := rfl
@[simp] theorem State.bump_spdmMctp (s : State) (r : RegId) (d i k : Nat) : (s.bump r d i k).spdmMctp = s.spdmMctp := rfl
@[simp] theorem State.bump_boot (s : State) (r : RegId) (d i k : Nat) : (s.bump r d i k).boot = s.boot := rfl
@[simp] theorem State.bump_fw (s : State) (r : RegId) (d i k : Nat) : (s.bump r d i k).fw = s.fw := rfl
@[simp] theorem State.bump_ledgerFrac (s : State) (r : RegId) (d i k : Nat) : (s.bump r d i k).ledgerFrac = s.ledgerFrac := rfl
@[simp] theorem State.bump_trcSeq (s : State) (r : RegId) (d i k : Nat) : (s.bump r d i k).trcSeq = s.trcSeq := rfl
@[simp] theorem State.bump_trcDrop (s : State) (r : RegId) (d i k : Nat) : (s.bump r d i k).trcDrop = s.trcDrop := rfl
@[simp] theorem State.bump_trcTok (s : State) (r : RegId) (d i k : Nat) : (s.bump r d i k).trcTok = s.trcTok := rfl
@[simp] theorem State.bump_busyNs (s : State) (r : RegId) (d i k : Nat) : (s.bump r d i k).busyNs = s.busyNs := rfl
@[simp] theorem State.bump_acct (s : State) (r : RegId) (d i k : Nat) : (s.bump r d i k).acct = s.acct := rfl
@[simp] theorem State.bump_ledgerQ (s : State) (r : RegId) (d i k : Nat) : (s.bump r d i k).ledgerQ = s.ledgerQ := rfl

/-! ### bumpSat -/

@[simp] theorem State.bumpSat_pending (s : State) (r : RegId) (d i hi lo k : Nat) : (s.bumpSat r d i hi lo k).pending = s.pending := rfl
@[simp] theorem State.bumpSat_out (s : State) (r : RegId) (d i hi lo k : Nat) : (s.bumpSat r d i hi lo k).out = s.out := rfl
@[simp] theorem State.bumpSat_free (s : State) (r : RegId) (d i hi lo k : Nat) : (s.bumpSat r d i hi lo k).free = s.free := rfl
@[simp] theorem State.bumpSat_now (s : State) (r : RegId) (d i hi lo k : Nat) : (s.bumpSat r d i hi lo k).now = s.now := rfl
@[simp] theorem State.bumpSat_latches (s : State) (r : RegId) (d i hi lo k : Nat) : (s.bumpSat r d i hi lo k).latches = s.latches := rfl
@[simp] theorem State.bumpSat_mem (s : State) (r : RegId) (d i hi lo k : Nat) : (s.bumpSat r d i hi lo k).mem = s.mem := rfl
@[simp] theorem State.bumpSat_hostMem (s : State) (r : RegId) (d i hi lo k : Nat) : (s.bumpSat r d i hi lo k).hostMem = s.hostMem := rfl
@[simp] theorem State.bumpSat_bad (s : State) (r : RegId) (d i hi lo k : Nat) : (s.bumpSat r d i hi lo k).bad = s.bad := rfl
@[simp] theorem State.bumpSat_scrambled (s : State) (r : RegId) (d i hi lo k : Nat) : (s.bumpSat r d i hi lo k).scrambled = s.scrambled := rfl
@[simp] theorem State.bumpSat_held (s : State) (r : RegId) (d i hi lo k : Nat) : (s.bumpSat r d i hi lo k).held = s.held := rfl
@[simp] theorem State.bumpSat_regionMap (s : State) (r : RegId) (d i hi lo k : Nat) : (s.bumpSat r d i hi lo k).regionMap = s.regionMap := rfl
@[simp] theorem State.bumpSat_commitBusy (s : State) (r : RegId) (d i hi lo k : Nat) : (s.bumpSat r d i hi lo k).commitBusy = s.commitBusy := rfl
@[simp] theorem State.bumpSat_fns (s : State) (r : RegId) (d i hi lo k : Nat) : (s.bumpSat r d i hi lo k).fns = s.fns := rfl
@[simp] theorem State.bumpSat_ctxs (s : State) (r : RegId) (d i hi lo k : Nat) : (s.bumpSat r d i hi lo k).ctxs = s.ctxs := rfl
@[simp] theorem State.bumpSat_rings (s : State) (r : RegId) (d i hi lo k : Nat) : (s.bumpSat r d i hi lo k).rings = s.rings := rfl
@[simp] theorem State.bumpSat_nextSeq (s : State) (r : RegId) (d i hi lo k : Nat) : (s.bumpSat r d i hi lo k).nextSeq = s.nextSeq := rfl
@[simp] theorem State.bumpSat_descs (s : State) (r : RegId) (d i hi lo k : Nat) : (s.bumpSat r d i hi lo k).descs = s.descs := rfl
@[simp] theorem State.bumpSat_plans (s : State) (r : RegId) (d i hi lo k : Nat) : (s.bumpSat r d i hi lo k).plans = s.plans := rfl
@[simp] theorem State.bumpSat_chains (s : State) (r : RegId) (d i hi lo k : Nat) : (s.bumpSat r d i hi lo k).chains = s.chains := rfl
@[simp] theorem State.bumpSat_disps (s : State) (r : RegId) (d i hi lo k : Nat) : (s.bumpSat r d i hi lo k).disps = s.disps := rfl
@[simp] theorem State.bumpSat_switches (s : State) (r : RegId) (d i hi lo k : Nat) : (s.bumpSat r d i hi lo k).switches = s.switches := rfl
@[simp] theorem State.bumpSat_recovery (s : State) (r : RegId) (d i hi lo k : Nat) : (s.bumpSat r d i hi lo k).recovery = s.recovery := rfl
@[simp] theorem State.bumpSat_reports (s : State) (r : RegId) (d i hi lo k : Nat) : (s.bumpSat r d i hi lo k).reports = s.reports := rfl
@[simp] theorem State.bumpSat_arb (s : State) (r : RegId) (d i hi lo k : Nat) : (s.bumpSat r d i hi lo k).arb = s.arb := rfl
@[simp] theorem State.bumpSat_cores (s : State) (r : RegId) (d i hi lo k : Nat) : (s.bumpSat r d i hi lo k).cores = s.cores := rfl
@[simp] theorem State.bumpSat_dies (s : State) (r : RegId) (d i hi lo k : Nat) : (s.bumpSat r d i hi lo k).dies = s.dies := rfl
@[simp] theorem State.bumpSat_credits (s : State) (r : RegId) (d i hi lo k : Nat) : (s.bumpSat r d i hi lo k).credits = s.credits := rfl
@[simp] theorem State.bumpSat_colls (s : State) (r : RegId) (d i hi lo k : Nat) : (s.bumpSat r d i hi lo k).colls = s.colls := rfl
@[simp] theorem State.bumpSat_combs (s : State) (r : RegId) (d i hi lo k : Nat) : (s.bumpSat r d i hi lo k).combs = s.combs := rfl
@[simp] theorem State.bumpSat_arms (s : State) (r : RegId) (d i hi lo k : Nat) : (s.bumpSat r d i hi lo k).arms = s.arms := rfl
@[simp] theorem State.bumpSat_hops (s : State) (r : RegId) (d i hi lo k : Nat) : (s.bumpSat r d i hi lo k).hops = s.hops := rfl
@[simp] theorem State.bumpSat_streams (s : State) (r : RegId) (d i hi lo k : Nat) : (s.bumpSat r d i hi lo k).streams = s.streams := rfl
@[simp] theorem State.bumpSat_dmaq (s : State) (r : RegId) (d i hi lo k : Nat) : (s.bumpSat r d i hi lo k).dmaq = s.dmaq := rfl
@[simp] theorem State.bumpSat_mcs (s : State) (r : RegId) (d i hi lo k : Nat) : (s.bumpSat r d i hi lo k).mcs = s.mcs := rfl
@[simp] theorem State.bumpSat_frings (s : State) (r : RegId) (d i hi lo k : Nat) : (s.bumpSat r d i hi lo k).frings = s.frings := rfl
@[simp] theorem State.bumpSat_ports (s : State) (r : RegId) (d i hi lo k : Nat) : (s.bumpSat r d i hi lo k).ports = s.ports := rfl
@[simp] theorem State.bumpSat_fab (s : State) (r : RegId) (d i hi lo k : Nat) : (s.bumpSat r d i hi lo k).fab = s.fab := rfl
@[simp] theorem State.bumpSat_hub (s : State) (r : RegId) (d i hi lo k : Nat) : (s.bumpSat r d i hi lo k).hub = s.hub := rfl
@[simp] theorem State.bumpSat_store (s : State) (r : RegId) (d i hi lo k : Nat) : (s.bumpSat r d i hi lo k).store = s.store := rfl
@[simp] theorem State.bumpSat_meas (s : State) (r : RegId) (d i hi lo k : Nat) : (s.bumpSat r d i hi lo k).meas = s.meas := rfl
@[simp] theorem State.bumpSat_spdmDoe (s : State) (r : RegId) (d i hi lo k : Nat) : (s.bumpSat r d i hi lo k).spdmDoe = s.spdmDoe := rfl
@[simp] theorem State.bumpSat_spdmMctp (s : State) (r : RegId) (d i hi lo k : Nat) : (s.bumpSat r d i hi lo k).spdmMctp = s.spdmMctp := rfl
@[simp] theorem State.bumpSat_boot (s : State) (r : RegId) (d i hi lo k : Nat) : (s.bumpSat r d i hi lo k).boot = s.boot := rfl
@[simp] theorem State.bumpSat_fw (s : State) (r : RegId) (d i hi lo k : Nat) : (s.bumpSat r d i hi lo k).fw = s.fw := rfl
@[simp] theorem State.bumpSat_ledgerFrac (s : State) (r : RegId) (d i hi lo k : Nat) : (s.bumpSat r d i hi lo k).ledgerFrac = s.ledgerFrac := rfl
@[simp] theorem State.bumpSat_trcSeq (s : State) (r : RegId) (d i hi lo k : Nat) : (s.bumpSat r d i hi lo k).trcSeq = s.trcSeq := rfl
@[simp] theorem State.bumpSat_trcDrop (s : State) (r : RegId) (d i hi lo k : Nat) : (s.bumpSat r d i hi lo k).trcDrop = s.trcDrop := rfl
@[simp] theorem State.bumpSat_trcTok (s : State) (r : RegId) (d i hi lo k : Nat) : (s.bumpSat r d i hi lo k).trcTok = s.trcTok := rfl
@[simp] theorem State.bumpSat_busyNs (s : State) (r : RegId) (d i hi lo k : Nat) : (s.bumpSat r d i hi lo k).busyNs = s.busyNs := rfl
@[simp] theorem State.bumpSat_acct (s : State) (r : RegId) (d i hi lo k : Nat) : (s.bumpSat r d i hi lo k).acct = s.acct := rfl
@[simp] theorem State.bumpSat_ledgerQ (s : State) (r : RegId) (d i hi lo k : Nat) : (s.bumpSat r d i hi lo k).ledgerQ = s.ledgerQ := rfl

/-! ### raise -/

@[simp] theorem State.raise_pending (s : State) (c : Byte) (d : Nat) (l : List CtxId) (a : Nat) : (s.raise c d l a).pending = s.pending := rfl
@[simp] theorem State.raise_out (s : State) (c : Byte) (d : Nat) (l : List CtxId) (a : Nat) : (s.raise c d l a).out = s.out := rfl
@[simp] theorem State.raise_free (s : State) (c : Byte) (d : Nat) (l : List CtxId) (a : Nat) : (s.raise c d l a).free = s.free := rfl
@[simp] theorem State.raise_now (s : State) (c : Byte) (d : Nat) (l : List CtxId) (a : Nat) : (s.raise c d l a).now = s.now := rfl
@[simp] theorem State.raise_regs (s : State) (c : Byte) (d : Nat) (l : List CtxId) (a : Nat) : (s.raise c d l a).regs = s.regs := rfl
@[simp] theorem State.raise_latches (s : State) (c : Byte) (d : Nat) (l : List CtxId) (a : Nat) : (s.raise c d l a).latches = s.latches := rfl
@[simp] theorem State.raise_mem (s : State) (c : Byte) (d : Nat) (l : List CtxId) (a : Nat) : (s.raise c d l a).mem = s.mem := rfl
@[simp] theorem State.raise_hostMem (s : State) (c : Byte) (d : Nat) (l : List CtxId) (a : Nat) : (s.raise c d l a).hostMem = s.hostMem := rfl
@[simp] theorem State.raise_bad (s : State) (c : Byte) (d : Nat) (l : List CtxId) (a : Nat) : (s.raise c d l a).bad = s.bad := rfl
@[simp] theorem State.raise_scrambled (s : State) (c : Byte) (d : Nat) (l : List CtxId) (a : Nat) : (s.raise c d l a).scrambled = s.scrambled := rfl
@[simp] theorem State.raise_held (s : State) (c : Byte) (d : Nat) (l : List CtxId) (a : Nat) : (s.raise c d l a).held = s.held := rfl
@[simp] theorem State.raise_regionMap (s : State) (c : Byte) (d : Nat) (l : List CtxId) (a : Nat) : (s.raise c d l a).regionMap = s.regionMap := rfl
@[simp] theorem State.raise_commitBusy (s : State) (c : Byte) (d : Nat) (l : List CtxId) (a : Nat) : (s.raise c d l a).commitBusy = s.commitBusy := rfl
@[simp] theorem State.raise_fns (s : State) (c : Byte) (d : Nat) (l : List CtxId) (a : Nat) : (s.raise c d l a).fns = s.fns := rfl
@[simp] theorem State.raise_ctxs (s : State) (c : Byte) (d : Nat) (l : List CtxId) (a : Nat) : (s.raise c d l a).ctxs = s.ctxs := rfl
@[simp] theorem State.raise_rings (s : State) (c : Byte) (d : Nat) (l : List CtxId) (a : Nat) : (s.raise c d l a).rings = s.rings := rfl
@[simp] theorem State.raise_nextSeq (s : State) (c : Byte) (d : Nat) (l : List CtxId) (a : Nat) : (s.raise c d l a).nextSeq = s.nextSeq := rfl
@[simp] theorem State.raise_descs (s : State) (c : Byte) (d : Nat) (l : List CtxId) (a : Nat) : (s.raise c d l a).descs = s.descs := rfl
@[simp] theorem State.raise_plans (s : State) (c : Byte) (d : Nat) (l : List CtxId) (a : Nat) : (s.raise c d l a).plans = s.plans := rfl
@[simp] theorem State.raise_chains (s : State) (c : Byte) (d : Nat) (l : List CtxId) (a : Nat) : (s.raise c d l a).chains = s.chains := rfl
@[simp] theorem State.raise_disps (s : State) (c : Byte) (d : Nat) (l : List CtxId) (a : Nat) : (s.raise c d l a).disps = s.disps := rfl
@[simp] theorem State.raise_switches (s : State) (c : Byte) (d : Nat) (l : List CtxId) (a : Nat) : (s.raise c d l a).switches = s.switches := rfl
@[simp] theorem State.raise_recovery (s : State) (c : Byte) (d : Nat) (l : List CtxId) (a : Nat) : (s.raise c d l a).recovery = s.recovery := rfl
@[simp] theorem State.raise_arb (s : State) (c : Byte) (d : Nat) (l : List CtxId) (a : Nat) : (s.raise c d l a).arb = s.arb := rfl
@[simp] theorem State.raise_cores (s : State) (c : Byte) (d : Nat) (l : List CtxId) (a : Nat) : (s.raise c d l a).cores = s.cores := rfl
@[simp] theorem State.raise_dies (s : State) (c : Byte) (d : Nat) (l : List CtxId) (a : Nat) : (s.raise c d l a).dies = s.dies := rfl
@[simp] theorem State.raise_credits (s : State) (c : Byte) (d : Nat) (l : List CtxId) (a : Nat) : (s.raise c d l a).credits = s.credits := rfl
@[simp] theorem State.raise_colls (s : State) (c : Byte) (d : Nat) (l : List CtxId) (a : Nat) : (s.raise c d l a).colls = s.colls := rfl
@[simp] theorem State.raise_combs (s : State) (c : Byte) (d : Nat) (l : List CtxId) (a : Nat) : (s.raise c d l a).combs = s.combs := rfl
@[simp] theorem State.raise_arms (s : State) (c : Byte) (d : Nat) (l : List CtxId) (a : Nat) : (s.raise c d l a).arms = s.arms := rfl
@[simp] theorem State.raise_hops (s : State) (c : Byte) (d : Nat) (l : List CtxId) (a : Nat) : (s.raise c d l a).hops = s.hops := rfl
@[simp] theorem State.raise_streams (s : State) (c : Byte) (d : Nat) (l : List CtxId) (a : Nat) : (s.raise c d l a).streams = s.streams := rfl
@[simp] theorem State.raise_dmaq (s : State) (c : Byte) (d : Nat) (l : List CtxId) (a : Nat) : (s.raise c d l a).dmaq = s.dmaq := rfl
@[simp] theorem State.raise_mcs (s : State) (c : Byte) (d : Nat) (l : List CtxId) (a : Nat) : (s.raise c d l a).mcs = s.mcs := rfl
@[simp] theorem State.raise_frings (s : State) (c : Byte) (d : Nat) (l : List CtxId) (a : Nat) : (s.raise c d l a).frings = s.frings := rfl
@[simp] theorem State.raise_ports (s : State) (c : Byte) (d : Nat) (l : List CtxId) (a : Nat) : (s.raise c d l a).ports = s.ports := rfl
@[simp] theorem State.raise_fab (s : State) (c : Byte) (d : Nat) (l : List CtxId) (a : Nat) : (s.raise c d l a).fab = s.fab := rfl
@[simp] theorem State.raise_hub (s : State) (c : Byte) (d : Nat) (l : List CtxId) (a : Nat) : (s.raise c d l a).hub = s.hub := rfl
@[simp] theorem State.raise_store (s : State) (c : Byte) (d : Nat) (l : List CtxId) (a : Nat) : (s.raise c d l a).store = s.store := rfl
@[simp] theorem State.raise_meas (s : State) (c : Byte) (d : Nat) (l : List CtxId) (a : Nat) : (s.raise c d l a).meas = s.meas := rfl
@[simp] theorem State.raise_spdmDoe (s : State) (c : Byte) (d : Nat) (l : List CtxId) (a : Nat) : (s.raise c d l a).spdmDoe = s.spdmDoe := rfl
@[simp] theorem State.raise_spdmMctp (s : State) (c : Byte) (d : Nat) (l : List CtxId) (a : Nat) : (s.raise c d l a).spdmMctp = s.spdmMctp := rfl
@[simp] theorem State.raise_boot (s : State) (c : Byte) (d : Nat) (l : List CtxId) (a : Nat) : (s.raise c d l a).boot = s.boot := rfl
@[simp] theorem State.raise_fw (s : State) (c : Byte) (d : Nat) (l : List CtxId) (a : Nat) : (s.raise c d l a).fw = s.fw := rfl
@[simp] theorem State.raise_ledgerFrac (s : State) (c : Byte) (d : Nat) (l : List CtxId) (a : Nat) : (s.raise c d l a).ledgerFrac = s.ledgerFrac := rfl
@[simp] theorem State.raise_trcSeq (s : State) (c : Byte) (d : Nat) (l : List CtxId) (a : Nat) : (s.raise c d l a).trcSeq = s.trcSeq := rfl
@[simp] theorem State.raise_trcDrop (s : State) (c : Byte) (d : Nat) (l : List CtxId) (a : Nat) : (s.raise c d l a).trcDrop = s.trcDrop := rfl
@[simp] theorem State.raise_trcTok (s : State) (c : Byte) (d : Nat) (l : List CtxId) (a : Nat) : (s.raise c d l a).trcTok = s.trcTok := rfl
@[simp] theorem State.raise_busyNs (s : State) (c : Byte) (d : Nat) (l : List CtxId) (a : Nat) : (s.raise c d l a).busyNs = s.busyNs := rfl
@[simp] theorem State.raise_acct (s : State) (c : Byte) (d : Nat) (l : List CtxId) (a : Nat) : (s.raise c d l a).acct = s.acct := rfl
@[simp] theorem State.raise_ledgerQ (s : State) (c : Byte) (d : Nat) (l : List CtxId) (a : Nat) : (s.raise c d l a).ledgerQ = s.ledgerQ := rfl

/-! ### What an update reads back as -/

@[simp] theorem State.setFn_self (s : State) (f : FuncId) (v : Fn) : (s.setFn f v).fn f = v := by
  simp [State.fn, State.setFn]

@[simp] theorem State.modCtx_self (s : State) (n : CtxId) (f : Ctx → Ctx) : (s.modCtx n f).ctx n = f (s.ctx n) := by
  simp [State.ctx, State.modCtx]

@[simp] theorem State.modRing_self (s : State) (r : RingId) (f : Ring → Ring) :
    (s.modRing r f).ring r = f (s.ring r) := by simp [State.ring, State.modRing]

@[simp] theorem State.modCore_self (s : State) (d : Die) (p : PCore) (f : Core → Core) :
    (s.modCore d p f).core d p = f (s.core d p) := by simp [State.core, State.modCore]

@[simp] theorem State.modDie_self (s : State) (d : Die) (f : DieSt → DieSt) :
    (s.modDie d f).die d = f (s.die d) := by simp [State.die, State.modDie]

@[simp] theorem State.modStream_self (s : State) (d : Die) (h : Fin 256) (f : Stream → Stream) :
    (s.modStream d h f).stream d h = f (s.stream d h) := by simp [State.stream, State.modStream]

@[simp] theorem State.setDq_self (s : State) (q : QueueId) (l : List DmaPart) : (s.setDq q l).dq q = l := by
  simp [State.dq, State.setDq]

@[simp] theorem State.modMc_self (s : State) (d : Die) (m : Mc) (f : McSt → McSt) :
    (s.modMc d m f).mc d m = f (s.mc d m) := by simp [State.mc, State.modMc]

@[simp] theorem State.modFring_self (s : State) (i : FRing) (f : FRingSt → FRingSt) :
    (s.modFring i f).fring i = f (s.fring i) := by simp [State.fring, State.modFring]

@[simp] theorem State.modPort_self (s : State) (p : PortId) (f : PortSt → PortSt) :
    (s.modPort p f).port p = f (s.port p) := by simp [State.port, State.modPort]

@[simp] theorem State.modIsland_self (s : State) (d : Die) (x : Island) (f : IslandSt → IslandSt) :
    (s.modIsland d x f).island d x = f (s.island d x) := by simp [State.island, State.modIsland]

@[simp] theorem State.setReg_self (s : State) (r : RegId) (d i j : Nat) (v : W64) :
    (s.setReg r d i j v).reg r d i j = v := by simp [State.reg, State.setReg]

@[simp] theorem State.modReg_self (s : State) (r : RegId) (d i j : Nat) (f : W64 → W64) :
    (s.modReg r d i j f).reg r d i j = f (s.reg r d i j) := by simp [State.modReg]

/-- A register at another offset keeps its value. -/
theorem State.setReg_other (s : State) {r r' : RegId} {d i j d' i' j' : Nat} (v : W64)
    (h : r'.off d' i' j' ≠ r.off d i j) : (s.setReg r d i j v).reg r' d' i' j' = s.reg r' d' i' j' :=
  SMap.getD_put_other _ _ _ h

/-- Another function keeps its state. -/
theorem State.setFn_other (s : State) {f g : FuncId} (v : Fn) (h : fnKey g ≠ fnKey f) :
    (s.setFn f v).fn g = s.fn g := SMap.getD_put_other _ _ _ h

end Sys2Proof.Machine
end

