-- ==== Sys2Proof/Laws/Access.lean ====
section
/-! SUPPORT. Register access: which register an offset names, and what an access that reaches it does. -/

set_option Elab.async false

namespace Sys2Proof.Machine

theorem locate_die (r : RegId) (d rel : Nat) :
    r.locate d rel = (r.locate 0 rel).map (fun x => { x with d := d }) := by
  unfold RegId.locate
  simp only
  split_ifs <;> rfl

theorem findSome_map {α β γ : Type} (l : List α) (f : α → Option β) (g : β → γ) :
    l.findSome? (fun x => (f x).map g) = (l.findSome? f).map g := by
  induction l with
  | nil => rfl
  | cons a rest ih =>
    simp only [List.findSome?_cons]
    cases f a <;> simp [ih]

/-- The register map repeats with every die (R511). -/
theorem regAt_die (d : Die) (rel : Nat) (h : rel < 0x100000) :
    regAt (0x100000 * (d.val + 1) + rel) = (regAt (0x100000 + rel)).map (fun x => { x with d := d.val }) := by
  have hd := d.isLt
  unfold regAt
  have h1 : ¬ (0x100000 * (d.val + 1) + rel < 0x090000) := by omega
  have h2 : 0x100000 ≤ 0x100000 * (d.val + 1) + rel ∧ 0x100000 * (d.val + 1) + rel < 0x900000 := by omega
  have h3 : ¬ (0x100000 + rel < 0x090000) := by omega
  have h4 : 0x100000 ≤ 0x100000 + rel ∧ 0x100000 + rel < 0x900000 := by omega
  rw [if_neg h1, if_pos h2, if_neg h3, if_pos h4]
  have e1 : (0x100000 * (d.val + 1) + rel) / 0x100000 - 1 = d.val := by omega
  have e2 : (0x100000 * (d.val + 1) + rel) % 0x100000 = rel := by omega
  have e3 : (0x100000 + rel) / 0x100000 - 1 = 0 := by omega
  have e4 : (0x100000 + rel) % 0x100000 = rel := by omega
  simp only [e1, e2, e3, e4]
  rw [← findSome_map]
  congr 1
  funext r
  exact locate_die r d.val rel

/-- The register that holds a function's state word. -/
def fnRef : FuncId → RegRef
  | .core d p => ⟨.coreState, d.val, p.val, 0, false⟩
  | .teasel d => ⟨.teaState, d.val, 0, 0, false⟩
  | .vetch d => ⟨.vetState, d.val, 0, 0, false⟩
  | .media d => ⟨.medState, d.val, 0, 0, false⟩
  | .stream d h => ⟨.medStreamState, d.val, h.val, 0, false⟩
  | .dmaq q => ⟨.dmaQState, q.val / 16, q.val % 16, 0, false⟩
  | .port p => ⟨.lndPortState, p.val / 2, p.val % 2, 0, false⟩
  | .ctx n => ⟨.hifCtxState, 0, n.val, 0, false⟩
  | .ring r => ⟨.hifRingState, 0, r.val, 0, false⟩

theorem regAt_core0 : ∀ p : PCore, regAt (RegId.off .coreState 0 p.val 0) = some ⟨.coreState, 0, p.val, 0, false⟩ := by
  decide +kernel

theorem regAt_stream0 : ∀ h : Fin 256,
    regAt (RegId.off .medStreamState 0 h.val 0) = some ⟨.medStreamState, 0, h.val, 0, false⟩ := by decide +kernel

theorem regAt_tea0 : regAt (RegId.off .teaState 0 0 0) = some ⟨.teaState, 0, 0, 0, false⟩ := by decide +kernel

theorem regAt_vet0 : regAt (RegId.off .vetState 0 0 0) = some ⟨.vetState, 0, 0, 0, false⟩ := by decide +kernel

theorem regAt_med0 : regAt (RegId.off .medState 0 0 0) = some ⟨.medState, 0, 0, 0, false⟩ := by decide +kernel

theorem regAt_dmaq : ∀ q : QueueId, regAt (fnOff (.dmaq q)) = some (fnRef (.dmaq q)) := by decide +kernel

theorem regAt_port : ∀ p : PortId, regAt (fnOff (.port p)) = some (fnRef (.port p)) := by decide +kernel

theorem regAt_ctx : ∀ n : CtxId, regAt (fnOff (.ctx n)) = some (fnRef (.ctx n)) := by decide +kernel

theorem regAt_ring : ∀ r : RingId, regAt (fnOff (.ring r)) = some (fnRef (.ring r)) := by decide +kernel

theorem regAt_off_die (r : RegId) (d : Die) (i j : Nat) (hr : r.row.die = true)
    (h : r.row.base + i * r.row.s1 + j * r.row.s2 < 0x100000) :
    regAt (r.off d.val i j) = (regAt (r.off 0 i j)).map (fun x => { x with d := d.val }) := by
  have e : ∀ k : Nat, r.off k i j = 0x100000 * (k + 1) + (r.row.base + i * r.row.s1 + j * r.row.s2) := by
    intro k; simp only [RegId.off, hr, if_true]; omega
  rw [e d.val, e 0]
  exact regAt_die d _ h

/-- A function's state word lies at its offset (R510, R511). -/
theorem regAt_fnOff (f : FuncId) : regAt (fnOff f) = some (fnRef f) := by
  cases f with
  | core d p =>
    have hp := p.isLt
    exact (regAt_off_die .coreState d p.val 0 rfl (by simp only [RegId.row]; omega)).trans
      (by rw [regAt_core0 p]; rfl)
  | teasel d =>
    exact (regAt_off_die .teaState d 0 0 rfl (by simp only [RegId.row]; omega)).trans
      (by rw [regAt_tea0]; rfl)
  | vetch d =>
    exact (regAt_off_die .vetState d 0 0 rfl (by simp only [RegId.row]; omega)).trans
      (by rw [regAt_vet0]; rfl)
  | media d =>
    exact (regAt_off_die .medState d 0 0 rfl (by simp only [RegId.row]; omega)).trans
      (by rw [regAt_med0]; rfl)
  | stream d h =>
    have hh := h.isLt
    exact (regAt_off_die .medStreamState d h.val 0 rfl (by simp only [RegId.row]; omega)).trans
      (by rw [regAt_stream0 h]; rfl)
  | dmaq q => exact regAt_dmaq q
  | port p => exact regAt_port p
  | ctx n => exact regAt_ctx n
  | ring r => exact regAt_ring r

/-- The state word's register belongs to its function. -/
theorem fnRef_func (f : FuncId) : (fnRef f).func = some f := by
  cases f with
  | core d p => simp [fnRef, RegRef.func, dieOf, pcoreOf, Nat.mod_eq_of_lt, d.isLt, p.isLt]
  | teasel d => simp [fnRef, RegRef.func, dieOf, Nat.mod_eq_of_lt, d.isLt]
  | vetch d => simp [fnRef, RegRef.func, dieOf, Nat.mod_eq_of_lt, d.isLt]
  | media d => simp [fnRef, RegRef.func, dieOf, Nat.mod_eq_of_lt, d.isLt]
  | stream d h => simp [fnRef, RegRef.func, dieOf, strOf, Nat.mod_eq_of_lt, d.isLt, h.isLt]
  | dmaq q =>
    have hq := q.isLt
    simp only [fnRef, RegRef.func, queueOf, Option.some.injEq, FuncId.dmaq.injEq, Fin.ext_iff]; omega
  | port p =>
    have hp := p.isLt
    simp only [fnRef, RegRef.func, portOf, Option.some.injEq, FuncId.port.injEq, Fin.ext_iff]; omega
  | ctx n => simp [fnRef, RegRef.func, ctxOf, Nat.mod_eq_of_lt, n.isLt]
  | ring r => simp [fnRef, RegRef.func, ringOf, Nat.mod_eq_of_lt, r.isLt]

theorem fnOff_mod4 (f : FuncId) : fnOff f % 4 = 0 := by
  cases f <;> simp only [fnOff, RegId.off, RegId.row] <;> simp <;> omega

/-- Functions have keys of their own. -/
theorem fnKey_inj {f g : FuncId} (h : fnKey f = fnKey g) : f = g := by
  cases f <;> cases g <;> simp only [fnKey] at h <;> first
    | (exfalso; omega)
    | (simp only [FuncId.core.injEq, FuncId.teasel.injEq, FuncId.vetch.injEq, FuncId.media.injEq,
        FuncId.stream.injEq, FuncId.dmaq.injEq, FuncId.port.injEq, FuncId.ctx.injEq, FuncId.ring.injEq, Fin.ext_iff]
       omega)

/-- A function's state is its own. -/
theorem setFn_fn_other (s : State) {f g : FuncId} (v : Fn) (h : g ≠ f) : (s.setFn f v).fn g = s.fn g :=
  State.setFn_other s v (fun e => h (fnKey_inj e))

theorem reach_free {c : Instr} {s : State} (h : s.hub.takeover = false) (hw : s.windowHeld c = false) :
    reach c s = access c s := by
  simp [reach, h, hw]

theorem writeAt_word {s : State} {path : Path} {off : Nat} (v : W64) (h : WritesAt s path off) (ha : off % 4 = 0) :
    writeAt path off 4 v s = writeWord path off (v.setWidth 32) s := by
  obtain ⟨-, h1, h2, h3⟩ := h
  simp [writeAt, h1, h2, h3, ha]

theorem readAt_word {s : State} {path : Path} {off : Nat} (ev : Nat) (h : ReadsAt s path off) :
    readAt path off 4 ev s =
      (readWord path off ev s).2.emit (.readData path 4 ((readWord path off ev s).1.setWidth 64)) := by
  obtain ⟨-, h1, h2, h3, h4⟩ := h
  simp [readAt, h1, h2, h3, h4]

/-- EN written to a function's state word. -/
theorem writeAt_fn {s : State} {path : Path} {f : FuncId} (v : W64) (h : WritesAt s path (fnOff f)) :
    writeAt path (fnOff f) 4 v s = fnWrite f ((v.setWidth 32).setWidth 64) s := by
  rw [writeAt_word v h (fnOff_mod4 f)]
  have hw : (fnRef f).id.row.wide = false := by cases f <;> rfl
  simp only [writeWord, regAt_fnOff, hw, Bool.not_false, if_true, writeReg, fnRef_func]
  congr 1
  apply BitVec.eq_of_toNat_eq
  simp

end Sys2Proof.Machine
end

