-- ==== Sys2Proof/Laws/Parts.lean ====
section
/-! SUPPORT. The parts of the state by name, so that one lemma of an operation can list all it may change. -/

namespace Sys2Proof.Machine

/-- A field of `State`. -/
inductive Part where
  | pending | out | free | now | regs | latches | mem | hostMem | bad | scrambled | held | regionMap
  | commitBusy | fns | ctxs | rings | nextSeq | descs | plans | chains | disps | switches | recovery
  | reports | arb | cores | dies | credits | colls | combs | arms | hops | streams | dmaq | mcs | frings
  | ports | fab | hub | store | meas | spdmDoe | spdmMctp | boot | fw | ledgerFrac | trcSeq | trcDrop
  | trcTok | busyNs | acct | ledgerQ
  deriving DecidableEq

/-- Every part of `as` is one of `bs`. -/
def Parts.le (as bs : List Part) : Bool := as.all (fun a => bs.contains a)

theorem Parts.le_trans {as bs cs : List Part} (h : Parts.le as bs = true) (k : Parts.le bs cs = true) :
    Parts.le as cs = true := by
  simp only [Parts.le, List.all_eq_true, List.contains_iff_mem] at *
  exact fun a ha => k a (h a ha)

theorem Parts.le_mem {as bs : List Part} (h : Parts.le as bs = true) {a : Part} (ha : a ∈ as) : a ∈ bs := by
  simp only [Parts.le, List.all_eq_true, List.contains_iff_mem] at h
  exact h a ha

theorem Parts.le_refl (as : List Part) : Parts.le as as = true := by
  simp [Parts.le]

/-- Every part but the queue of commands. -/
def Parts.any : List Part :=
  [.out, .free, .now, .regs, .latches, .mem, .hostMem, .bad, .scrambled, .held, .regionMap, .commitBusy,
   .fns, .ctxs, .rings, .nextSeq, .descs, .plans, .chains, .disps, .switches, .recovery, .reports, .arb,
   .cores, .dies, .credits, .colls, .combs, .arms, .hops, .streams, .dmaq, .mcs, .frings, .ports, .fab,
   .hub, .store, .meas, .spdmDoe, .spdmMctp, .boot, .fw, .ledgerFrac, .trcSeq, .trcDrop, .trcTok, .busyNs,
   .acct, .ledgerQ]

/-- `s` with the listed parts as `t` has them. -/
def State.overlay (l : List Part) (s t : State) : State where
  pending := bif l.contains .pending then t.pending else s.pending
  out := bif l.contains .out then t.out else s.out
  free := bif l.contains .free then t.free else s.free
  now := bif l.contains .now then t.now else s.now
  regs := bif l.contains .regs then t.regs else s.regs
  latches := bif l.contains .latches then t.latches else s.latches
  mem := bif l.contains .mem then t.mem else s.mem
  hostMem := bif l.contains .hostMem then t.hostMem else s.hostMem
  bad := bif l.contains .bad then t.bad else s.bad
  scrambled := bif l.contains .scrambled then t.scrambled else s.scrambled
  held := bif l.contains .held then t.held else s.held
  regionMap := bif l.contains .regionMap then t.regionMap else s.regionMap
  commitBusy := bif l.contains .commitBusy then t.commitBusy else s.commitBusy
  fns := bif l.contains .fns then t.fns else s.fns
  ctxs := bif l.contains .ctxs then t.ctxs else s.ctxs
  rings := bif l.contains .rings then t.rings else s.rings
  nextSeq := bif l.contains .nextSeq then t.nextSeq else s.nextSeq
  descs := bif l.contains .descs then t.descs else s.descs
  plans := bif l.contains .plans then t.plans else s.plans
  chains := bif l.contains .chains then t.chains else s.chains
  disps := bif l.contains .disps then t.disps else s.disps
  switches := bif l.contains .switches then t.switches else s.switches
  recovery := bif l.contains .recovery then t.recovery else s.recovery
  reports := bif l.contains .reports then t.reports else s.reports
  arb := bif l.contains .arb then t.arb else s.arb
  cores := bif l.contains .cores then t.cores else s.cores
  dies := bif l.contains .dies then t.dies else s.dies
  credits := bif l.contains .credits then t.credits else s.credits
  colls := bif l.contains .colls then t.colls else s.colls
  combs := bif l.contains .combs then t.combs else s.combs
  arms := bif l.contains .arms then t.arms else s.arms
  hops := bif l.contains .hops then t.hops else s.hops
  streams := bif l.contains .streams then t.streams else s.streams
  dmaq := bif l.contains .dmaq then t.dmaq else s.dmaq
  mcs := bif l.contains .mcs then t.mcs else s.mcs
  frings := bif l.contains .frings then t.frings else s.frings
  ports := bif l.contains .ports then t.ports else s.ports
  fab := bif l.contains .fab then t.fab else s.fab
  hub := bif l.contains .hub then t.hub else s.hub
  store := bif l.contains .store then t.store else s.store
  meas := bif l.contains .meas then t.meas else s.meas
  spdmDoe := bif l.contains .spdmDoe then t.spdmDoe else s.spdmDoe
  spdmMctp := bif l.contains .spdmMctp then t.spdmMctp else s.spdmMctp
  boot := bif l.contains .boot then t.boot else s.boot
  fw := bif l.contains .fw then t.fw else s.fw
  ledgerFrac := bif l.contains .ledgerFrac then t.ledgerFrac else s.ledgerFrac
  trcSeq := bif l.contains .trcSeq then t.trcSeq else s.trcSeq
  trcDrop := bif l.contains .trcDrop then t.trcDrop else s.trcDrop
  trcTok := bif l.contains .trcTok then t.trcTok else s.trcTok
  busyNs := bif l.contains .busyNs then t.busyNs else s.busyNs
  acct := bif l.contains .acct then t.acct else s.acct
  ledgerQ := bif l.contains .ledgerQ then t.ledgerQ else s.ledgerQ

@[simp] theorem State.overlay_self (l : List Part) (s : State) : s.overlay l s = s := by
  simp [State.overlay]

/-- `t` is `s` but for the listed parts. -/
def Within (l : List Part) (s t : State) : Prop := t = s.overlay l t

theorem Within.refl (l : List Part) (s : State) : Within l s s := (State.overlay_self l s).symm

theorem Within.pending {l : List Part} {s t : State} (h : Within l s t) (hl : l.contains .pending = false) :
    t.pending = s.pending := by
  have := congrArg State.pending h
  simp only [State.overlay, hl, cond_false] at this
  exact this

theorem Within.out {l : List Part} {s t : State} (h : Within l s t) (hl : l.contains .out = false) :
    t.out = s.out := by
  have := congrArg State.out h
  simp only [State.overlay, hl, cond_false] at this
  exact this

theorem Within.free {l : List Part} {s t : State} (h : Within l s t) (hl : l.contains .free = false) :
    t.free = s.free := by
  have := congrArg State.free h
  simp only [State.overlay, hl, cond_false] at this
  exact this

theorem Within.now {l : List Part} {s t : State} (h : Within l s t) (hl : l.contains .now = false) :
    t.now = s.now := by
  have := congrArg State.now h
  simp only [State.overlay, hl, cond_false] at this
  exact this

theorem Within.regs {l : List Part} {s t : State} (h : Within l s t) (hl : l.contains .regs = false) :
    t.regs = s.regs := by
  have := congrArg State.regs h
  simp only [State.overlay, hl, cond_false] at this
  exact this

theorem Within.latches {l : List Part} {s t : State} (h : Within l s t) (hl : l.contains .latches = false) :
    t.latches = s.latches := by
  have := congrArg State.latches h
  simp only [State.overlay, hl, cond_false] at this
  exact this

theorem Within.mem {l : List Part} {s t : State} (h : Within l s t) (hl : l.contains .mem = false) :
    t.mem = s.mem := by
  have := congrArg State.mem h
  simp only [State.overlay, hl, cond_false] at this
  exact this

theorem Within.hostMem {l : List Part} {s t : State} (h : Within l s t) (hl : l.contains .hostMem = false) :
    t.hostMem = s.hostMem := by
  have := congrArg State.hostMem h
  simp only [State.overlay, hl, cond_false] at this
  exact this

theorem Within.bad {l : List Part} {s t : State} (h : Within l s t) (hl : l.contains .bad = false) :
    t.bad = s.bad := by
  have := congrArg State.bad h
  simp only [State.overlay, hl, cond_false] at this
  exact this

theorem Within.scrambled {l : List Part} {s t : State} (h : Within l s t) (hl : l.contains .scrambled = false) :
    t.scrambled = s.scrambled := by
  have := congrArg State.scrambled h
  simp only [State.overlay, hl, cond_false] at this
  exact this

theorem Within.held {l : List Part} {s t : State} (h : Within l s t) (hl : l.contains .held = false) :
    t.held = s.held := by
  have := congrArg State.held h
  simp only [State.overlay, hl, cond_false] at this
  exact this

theorem Within.regionMap {l : List Part} {s t : State} (h : Within l s t) (hl : l.contains .regionMap = false) :
    t.regionMap = s.regionMap := by
  have := congrArg State.regionMap h
  simp only [State.overlay, hl, cond_false] at this
  exact this

theorem Within.commitBusy {l : List Part} {s t : State} (h : Within l s t) (hl : l.contains .commitBusy = false) :
    t.commitBusy = s.commitBusy := by
  have := congrArg State.commitBusy h
  simp only [State.overlay, hl, cond_false] at this
  exact this

theorem Within.fns {l : List Part} {s t : State} (h : Within l s t) (hl : l.contains .fns = false) :
    t.fns = s.fns := by
  have := congrArg State.fns h
  simp only [State.overlay, hl, cond_false] at this
  exact this

theorem Within.ctxs {l : List Part} {s t : State} (h : Within l s t) (hl : l.contains .ctxs = false) :
    t.ctxs = s.ctxs := by
  have := congrArg State.ctxs h
  simp only [State.overlay, hl, cond_false] at this
  exact this

theorem Within.rings {l : List Part} {s t : State} (h : Within l s t) (hl : l.contains .rings = false) :
    t.rings = s.rings := by
  have := congrArg State.rings h
  simp only [State.overlay, hl, cond_false] at this
  exact this

theorem Within.nextSeq {l : List Part} {s t : State} (h : Within l s t) (hl : l.contains .nextSeq = false) :
    t.nextSeq = s.nextSeq := by
  have := congrArg State.nextSeq h
  simp only [State.overlay, hl, cond_false] at this
  exact this

theorem Within.descs {l : List Part} {s t : State} (h : Within l s t) (hl : l.contains .descs = false) :
    t.descs = s.descs := by
  have := congrArg State.descs h
  simp only [State.overlay, hl, cond_false] at this
  exact this

theorem Within.plans {l : List Part} {s t : State} (h : Within l s t) (hl : l.contains .plans = false) :
    t.plans = s.plans := by
  have := congrArg State.plans h
  simp only [State.overlay, hl, cond_false] at this
  exact this

theorem Within.chains {l : List Part} {s t : State} (h : Within l s t) (hl : l.contains .chains = false) :
    t.chains = s.chains := by
  have := congrArg State.chains h
  simp only [State.overlay, hl, cond_false] at this
  exact this

theorem Within.disps {l : List Part} {s t : State} (h : Within l s t) (hl : l.contains .disps = false) :
    t.disps = s.disps := by
  have := congrArg State.disps h
  simp only [State.overlay, hl, cond_false] at this
  exact this

theorem Within.switches {l : List Part} {s t : State} (h : Within l s t) (hl : l.contains .switches = false) :
    t.switches = s.switches := by
  have := congrArg State.switches h
  simp only [State.overlay, hl, cond_false] at this
  exact this

theorem Within.recovery {l : List Part} {s t : State} (h : Within l s t) (hl : l.contains .recovery = false) :
    t.recovery = s.recovery := by
  have := congrArg State.recovery h
  simp only [State.overlay, hl, cond_false] at this
  exact this

theorem Within.reports {l : List Part} {s t : State} (h : Within l s t) (hl : l.contains .reports = false) :
    t.reports = s.reports := by
  have := congrArg State.reports h
  simp only [State.overlay, hl, cond_false] at this
  exact this

theorem Within.arb {l : List Part} {s t : State} (h : Within l s t) (hl : l.contains .arb = false) :
    t.arb = s.arb := by
  have := congrArg State.arb h
  simp only [State.overlay, hl, cond_false] at this
  exact this

theorem Within.cores {l : List Part} {s t : State} (h : Within l s t) (hl : l.contains .cores = false) :
    t.cores = s.cores := by
  have := congrArg State.cores h
  simp only [State.overlay, hl, cond_false] at this
  exact this

theorem Within.dies {l : List Part} {s t : State} (h : Within l s t) (hl : l.contains .dies = false) :
    t.dies = s.dies := by
  have := congrArg State.dies h
  simp only [State.overlay, hl, cond_false] at this
  exact this

theorem Within.credits {l : List Part} {s t : State} (h : Within l s t) (hl : l.contains .credits = false) :
    t.credits = s.credits := by
  have := congrArg State.credits h
  simp only [State.overlay, hl, cond_false] at this
  exact this

theorem Within.colls {l : List Part} {s t : State} (h : Within l s t) (hl : l.contains .colls = false) :
    t.colls = s.colls := by
  have := congrArg State.colls h
  simp only [State.overlay, hl, cond_false] at this
  exact this

theorem Within.combs {l : List Part} {s t : State} (h : Within l s t) (hl : l.contains .combs = false) :
    t.combs = s.combs := by
  have := congrArg State.combs h
  simp only [State.overlay, hl, cond_false] at this
  exact this

theorem Within.arms {l : List Part} {s t : State} (h : Within l s t) (hl : l.contains .arms = false) :
    t.arms = s.arms := by
  have := congrArg State.arms h
  simp only [State.overlay, hl, cond_false] at this
  exact this

theorem Within.hops {l : List Part} {s t : State} (h : Within l s t) (hl : l.contains .hops = false) :
    t.hops = s.hops := by
  have := congrArg State.hops h
  simp only [State.overlay, hl, cond_false] at this
  exact this

theorem Within.streams {l : List Part} {s t : State} (h : Within l s t) (hl : l.contains .streams = false) :
    t.streams = s.streams := by
  have := congrArg State.streams h
  simp only [State.overlay, hl, cond_false] at this
  exact this

theorem Within.dmaq {l : List Part} {s t : State} (h : Within l s t) (hl : l.contains .dmaq = false) :
    t.dmaq = s.dmaq := by
  have := congrArg State.dmaq h
  simp only [State.overlay, hl, cond_false] at this
  exact this

theorem Within.mcs {l : List Part} {s t : State} (h : Within l s t) (hl : l.contains .mcs = false) :
    t.mcs = s.mcs := by
  have := congrArg State.mcs h
  simp only [State.overlay, hl, cond_false] at this
  exact this

theorem Within.frings {l : List Part} {s t : State} (h : Within l s t) (hl : l.contains .frings = false) :
    t.frings = s.frings := by
  have := congrArg State.frings h
  simp only [State.overlay, hl, cond_false] at this
  exact this

theorem Within.ports {l : List Part} {s t : State} (h : Within l s t) (hl : l.contains .ports = false) :
    t.ports = s.ports := by
  have := congrArg State.ports h
  simp only [State.overlay, hl, cond_false] at this
  exact this

theorem Within.fab {l : List Part} {s t : State} (h : Within l s t) (hl : l.contains .fab = false) :
    t.fab = s.fab := by
  have := congrArg State.fab h
  simp only [State.overlay, hl, cond_false] at this
  exact this

theorem Within.hub {l : List Part} {s t : State} (h : Within l s t) (hl : l.contains .hub = false) :
    t.hub = s.hub := by
  have := congrArg State.hub h
  simp only [State.overlay, hl, cond_false] at this
  exact this

theorem Within.store {l : List Part} {s t : State} (h : Within l s t) (hl : l.contains .store = false) :
    t.store = s.store := by
  have := congrArg State.store h
  simp only [State.overlay, hl, cond_false] at this
  exact this

theorem Within.meas {l : List Part} {s t : State} (h : Within l s t) (hl : l.contains .meas = false) :
    t.meas = s.meas := by
  have := congrArg State.meas h
  simp only [State.overlay, hl, cond_false] at this
  exact this

theorem Within.spdmDoe {l : List Part} {s t : State} (h : Within l s t) (hl : l.contains .spdmDoe = false) :
    t.spdmDoe = s.spdmDoe := by
  have := congrArg State.spdmDoe h
  simp only [State.overlay, hl, cond_false] at this
  exact this

theorem Within.spdmMctp {l : List Part} {s t : State} (h : Within l s t) (hl : l.contains .spdmMctp = false) :
    t.spdmMctp = s.spdmMctp := by
  have := congrArg State.spdmMctp h
  simp only [State.overlay, hl, cond_false] at this
  exact this

theorem Within.boot {l : List Part} {s t : State} (h : Within l s t) (hl : l.contains .boot = false) :
    t.boot = s.boot := by
  have := congrArg State.boot h
  simp only [State.overlay, hl, cond_false] at this
  exact this

theorem Within.fw {l : List Part} {s t : State} (h : Within l s t) (hl : l.contains .fw = false) :
    t.fw = s.fw := by
  have := congrArg State.fw h
  simp only [State.overlay, hl, cond_false] at this
  exact this

theorem Within.ledgerFrac {l : List Part} {s t : State} (h : Within l s t) (hl : l.contains .ledgerFrac = false) :
    t.ledgerFrac = s.ledgerFrac := by
  have := congrArg State.ledgerFrac h
  simp only [State.overlay, hl, cond_false] at this
  exact this

theorem Within.trcSeq {l : List Part} {s t : State} (h : Within l s t) (hl : l.contains .trcSeq = false) :
    t.trcSeq = s.trcSeq := by
  have := congrArg State.trcSeq h
  simp only [State.overlay, hl, cond_false] at this
  exact this

theorem Within.trcDrop {l : List Part} {s t : State} (h : Within l s t) (hl : l.contains .trcDrop = false) :
    t.trcDrop = s.trcDrop := by
  have := congrArg State.trcDrop h
  simp only [State.overlay, hl, cond_false] at this
  exact this

theorem Within.trcTok {l : List Part} {s t : State} (h : Within l s t) (hl : l.contains .trcTok = false) :
    t.trcTok = s.trcTok := by
  have := congrArg State.trcTok h
  simp only [State.overlay, hl, cond_false] at this
  exact this

theorem Within.busyNs {l : List Part} {s t : State} (h : Within l s t) (hl : l.contains .busyNs = false) :
    t.busyNs = s.busyNs := by
  have := congrArg State.busyNs h
  simp only [State.overlay, hl, cond_false] at this
  exact this

theorem Within.acct {l : List Part} {s t : State} (h : Within l s t) (hl : l.contains .acct = false) :
    t.acct = s.acct := by
  have := congrArg State.acct h
  simp only [State.overlay, hl, cond_false] at this
  exact this

theorem Within.ledgerQ {l : List Part} {s t : State} (h : Within l s t) (hl : l.contains .ledgerQ = false) :
    t.ledgerQ = s.ledgerQ := by
  have := congrArg State.ledgerQ h
  simp only [State.overlay, hl, cond_false] at this
  exact this

/-- Parts that agree one by one. -/
theorem Within.intro {l : List Part} {s t : State}
    (h0 : l.contains .pending = false → t.pending = s.pending)
    (h1 : l.contains .out = false → t.out = s.out)
    (h2 : l.contains .free = false → t.free = s.free)
    (h3 : l.contains .now = false → t.now = s.now)
    (h4 : l.contains .regs = false → t.regs = s.regs)
    (h5 : l.contains .latches = false → t.latches = s.latches)
    (h6 : l.contains .mem = false → t.mem = s.mem)
    (h7 : l.contains .hostMem = false → t.hostMem = s.hostMem)
    (h8 : l.contains .bad = false → t.bad = s.bad)
    (h9 : l.contains .scrambled = false → t.scrambled = s.scrambled)
    (h10 : l.contains .held = false → t.held = s.held)
    (h11 : l.contains .regionMap = false → t.regionMap = s.regionMap)
    (h12 : l.contains .commitBusy = false → t.commitBusy = s.commitBusy)
    (h13 : l.contains .fns = false → t.fns = s.fns)
    (h14 : l.contains .ctxs = false → t.ctxs = s.ctxs)
    (h15 : l.contains .rings = false → t.rings = s.rings)
    (h16 : l.contains .nextSeq = false → t.nextSeq = s.nextSeq)
    (h17 : l.contains .descs = false → t.descs = s.descs)
    (h18 : l.contains .plans = false → t.plans = s.plans)
    (h19 : l.contains .chains = false → t.chains = s.chains)
    (h20 : l.contains .disps = false → t.disps = s.disps)
    (h21 : l.contains .switches = false → t.switches = s.switches)
    (h22 : l.contains .recovery = false → t.recovery = s.recovery)
    (h23 : l.contains .reports = false → t.reports = s.reports)
    (h24 : l.contains .arb = false → t.arb = s.arb)
    (h25 : l.contains .cores = false → t.cores = s.cores)
    (h26 : l.contains .dies = false → t.dies = s.dies)
    (h27 : l.contains .credits = false → t.credits = s.credits)
    (h28 : l.contains .colls = false → t.colls = s.colls)
    (h29 : l.contains .combs = false → t.combs = s.combs)
    (h30 : l.contains .arms = false → t.arms = s.arms)
    (h31 : l.contains .hops = false → t.hops = s.hops)
    (h32 : l.contains .streams = false → t.streams = s.streams)
    (h33 : l.contains .dmaq = false → t.dmaq = s.dmaq)
    (h34 : l.contains .mcs = false → t.mcs = s.mcs)
    (h35 : l.contains .frings = false → t.frings = s.frings)
    (h36 : l.contains .ports = false → t.ports = s.ports)
    (h37 : l.contains .fab = false → t.fab = s.fab)
    (h38 : l.contains .hub = false → t.hub = s.hub)
    (h39 : l.contains .store = false → t.store = s.store)
    (h40 : l.contains .meas = false → t.meas = s.meas)
    (h41 : l.contains .spdmDoe = false → t.spdmDoe = s.spdmDoe)
    (h42 : l.contains .spdmMctp = false → t.spdmMctp = s.spdmMctp)
    (h43 : l.contains .boot = false → t.boot = s.boot)
    (h44 : l.contains .fw = false → t.fw = s.fw)
    (h45 : l.contains .ledgerFrac = false → t.ledgerFrac = s.ledgerFrac)
    (h46 : l.contains .trcSeq = false → t.trcSeq = s.trcSeq)
    (h47 : l.contains .trcDrop = false → t.trcDrop = s.trcDrop)
    (h48 : l.contains .trcTok = false → t.trcTok = s.trcTok)
    (h49 : l.contains .busyNs = false → t.busyNs = s.busyNs)
    (h50 : l.contains .acct = false → t.acct = s.acct)
    (h51 : l.contains .ledgerQ = false → t.ledgerQ = s.ledgerQ) : Within l s t := by
  have e : ∀ {α : Type} (b : Bool) (x y : α), (b = false → x = y) → x = bif b then x else y := by
    intro α b x y h; cases b <;> simp_all
  unfold Within State.overlay
  cases t
  simp only at *
  congr 1
  · exact e _ _ _ h0
  · exact e _ _ _ h1
  · exact e _ _ _ h2
  · exact e _ _ _ h3
  · exact e _ _ _ h4
  · exact e _ _ _ h5
  · exact e _ _ _ h6
  · exact e _ _ _ h7
  · exact e _ _ _ h8
  · exact e _ _ _ h9
  · exact e _ _ _ h10
  · exact e _ _ _ h11
  · exact e _ _ _ h12
  · exact e _ _ _ h13
  · exact e _ _ _ h14
  · exact e _ _ _ h15
  · exact e _ _ _ h16
  · exact e _ _ _ h17
  · exact e _ _ _ h18
  · exact e _ _ _ h19
  · exact e _ _ _ h20
  · exact e _ _ _ h21
  · exact e _ _ _ h22
  · exact e _ _ _ h23
  · exact e _ _ _ h24
  · exact e _ _ _ h25
  · exact e _ _ _ h26
  · exact e _ _ _ h27
  · exact e _ _ _ h28
  · exact e _ _ _ h29
  · exact e _ _ _ h30
  · exact e _ _ _ h31
  · exact e _ _ _ h32
  · exact e _ _ _ h33
  · exact e _ _ _ h34
  · exact e _ _ _ h35
  · exact e _ _ _ h36
  · exact e _ _ _ h37
  · exact e _ _ _ h38
  · exact e _ _ _ h39
  · exact e _ _ _ h40
  · exact e _ _ _ h41
  · exact e _ _ _ h42
  · exact e _ _ _ h43
  · exact e _ _ _ h44
  · exact e _ _ _ h45
  · exact e _ _ _ h46
  · exact e _ _ _ h47
  · exact e _ _ _ h48
  · exact e _ _ _ h49
  · exact e _ _ _ h50
  · exact e _ _ _ h51

/-- What holds of fewer parts holds of more. -/
theorem Within.mono {a b : List Part} {s t : State} (h : Within a s t) (hl : Parts.le a b = true) : Within b s t := by
  have e : ∀ p : Part, b.contains p = false → a.contains p = false := by
    intro p hp
    rw [Bool.eq_false_iff, ne_eq, List.contains_iff_mem] at *
    exact fun hm => hp (Parts.le_mem hl hm)
  exact Within.intro
    (fun k => h.pending (e _ k))
    (fun k => h.out (e _ k))
    (fun k => h.free (e _ k))
    (fun k => h.now (e _ k))
    (fun k => h.regs (e _ k))
    (fun k => h.latches (e _ k))
    (fun k => h.mem (e _ k))
    (fun k => h.hostMem (e _ k))
    (fun k => h.bad (e _ k))
    (fun k => h.scrambled (e _ k))
    (fun k => h.held (e _ k))
    (fun k => h.regionMap (e _ k))
    (fun k => h.commitBusy (e _ k))
    (fun k => h.fns (e _ k))
    (fun k => h.ctxs (e _ k))
    (fun k => h.rings (e _ k))
    (fun k => h.nextSeq (e _ k))
    (fun k => h.descs (e _ k))
    (fun k => h.plans (e _ k))
    (fun k => h.chains (e _ k))
    (fun k => h.disps (e _ k))
    (fun k => h.switches (e _ k))
    (fun k => h.recovery (e _ k))
    (fun k => h.reports (e _ k))
    (fun k => h.arb (e _ k))
    (fun k => h.cores (e _ k))
    (fun k => h.dies (e _ k))
    (fun k => h.credits (e _ k))
    (fun k => h.colls (e _ k))
    (fun k => h.combs (e _ k))
    (fun k => h.arms (e _ k))
    (fun k => h.hops (e _ k))
    (fun k => h.streams (e _ k))
    (fun k => h.dmaq (e _ k))
    (fun k => h.mcs (e _ k))
    (fun k => h.frings (e _ k))
    (fun k => h.ports (e _ k))
    (fun k => h.fab (e _ k))
    (fun k => h.hub (e _ k))
    (fun k => h.store (e _ k))
    (fun k => h.meas (e _ k))
    (fun k => h.spdmDoe (e _ k))
    (fun k => h.spdmMctp (e _ k))
    (fun k => h.boot (e _ k))
    (fun k => h.fw (e _ k))
    (fun k => h.ledgerFrac (e _ k))
    (fun k => h.trcSeq (e _ k))
    (fun k => h.trcDrop (e _ k))
    (fun k => h.trcTok (e _ k))
    (fun k => h.busyNs (e _ k))
    (fun k => h.acct (e _ k))
    (fun k => h.ledgerQ (e _ k))

theorem Within.trans {l : List Part} {s t u : State} (h : Within l s t) (k : Within l t u) : Within l s u :=
  Within.intro
    (fun e => (k.pending e).trans (h.pending e))
    (fun e => (k.out e).trans (h.out e))
    (fun e => (k.free e).trans (h.free e))
    (fun e => (k.now e).trans (h.now e))
    (fun e => (k.regs e).trans (h.regs e))
    (fun e => (k.latches e).trans (h.latches e))
    (fun e => (k.mem e).trans (h.mem e))
    (fun e => (k.hostMem e).trans (h.hostMem e))
    (fun e => (k.bad e).trans (h.bad e))
    (fun e => (k.scrambled e).trans (h.scrambled e))
    (fun e => (k.held e).trans (h.held e))
    (fun e => (k.regionMap e).trans (h.regionMap e))
    (fun e => (k.commitBusy e).trans (h.commitBusy e))
    (fun e => (k.fns e).trans (h.fns e))
    (fun e => (k.ctxs e).trans (h.ctxs e))
    (fun e => (k.rings e).trans (h.rings e))
    (fun e => (k.nextSeq e).trans (h.nextSeq e))
    (fun e => (k.descs e).trans (h.descs e))
    (fun e => (k.plans e).trans (h.plans e))
    (fun e => (k.chains e).trans (h.chains e))
    (fun e => (k.disps e).trans (h.disps e))
    (fun e => (k.switches e).trans (h.switches e))
    (fun e => (k.recovery e).trans (h.recovery e))
    (fun e => (k.reports e).trans (h.reports e))
    (fun e => (k.arb e).trans (h.arb e))
    (fun e => (k.cores e).trans (h.cores e))
    (fun e => (k.dies e).trans (h.dies e))
    (fun e => (k.credits e).trans (h.credits e))
    (fun e => (k.colls e).trans (h.colls e))
    (fun e => (k.combs e).trans (h.combs e))
    (fun e => (k.arms e).trans (h.arms e))
    (fun e => (k.hops e).trans (h.hops e))
    (fun e => (k.streams e).trans (h.streams e))
    (fun e => (k.dmaq e).trans (h.dmaq e))
    (fun e => (k.mcs e).trans (h.mcs e))
    (fun e => (k.frings e).trans (h.frings e))
    (fun e => (k.ports e).trans (h.ports e))
    (fun e => (k.fab e).trans (h.fab e))
    (fun e => (k.hub e).trans (h.hub e))
    (fun e => (k.store e).trans (h.store e))
    (fun e => (k.meas e).trans (h.meas e))
    (fun e => (k.spdmDoe e).trans (h.spdmDoe e))
    (fun e => (k.spdmMctp e).trans (h.spdmMctp e))
    (fun e => (k.boot e).trans (h.boot e))
    (fun e => (k.fw e).trans (h.fw e))
    (fun e => (k.ledgerFrac e).trans (h.ledgerFrac e))
    (fun e => (k.trcSeq e).trans (h.trcSeq e))
    (fun e => (k.trcDrop e).trans (h.trcDrop e))
    (fun e => (k.trcTok e).trans (h.trcTok e))
    (fun e => (k.busyNs e).trans (h.busyNs e))
    (fun e => (k.acct e).trans (h.acct e))
    (fun e => (k.ledgerQ e).trans (h.ledgerQ e))

end Sys2Proof.Machine
end

