-- ==== Sys2Proof/Laws/Keeps.lean ====
section
/-! SUPPORT. What every operation of the module keeps: the canonical form of both memories, the order of the
descriptors in flight, the queue of commands, what the module has already sent, and every part of the state that its
lemma does not list. -/

namespace Sys2Proof.Machine

/-- From `s` to `t` both memories stay canonical, the descriptors in flight stay numbered in order, the queue of
commands is left alone, what was sent stays sent, and only the listed parts change. -/
structure Keeps (ps : List Part) (s t : State) : Prop where
  mem : MemoryOk s → MemoryOk t
  flight : FlightOk s → FlightOk t
  queue : t.pending = s.pending
  out : s.out <+: t.out
  rest : Within ps s t

variable {ps : List Part} {s0 : State}

theorem Keeps.refl (ps : List Part) (s : State) : Keeps ps s s := ⟨id, id, rfl, List.prefix_refl _, Within.refl ps s⟩

theorem Keeps.trans {s t u : State} (h : Keeps ps s t) (k : Keeps ps t u) : Keeps ps s u :=
  ⟨fun m => k.mem (h.mem m), fun m => k.flight (h.flight m), k.queue.trans h.queue, h.out.trans k.out,
    h.rest.trans k.rest⟩

theorem FlightOk.ofEq {s t : State} (h : FlightOk s) (h6 : t.descs = s.descs) (h7 : t.nextSeq = s.nextSeq) :
    FlightOk t := by
  unfold FlightOk State.inflight at h ⊢; rw [h6, h7]; exact h

/-- Parts whose change by itself keeps all. -/
def Parts.plain (l : List Part) : Bool :=
  !(l.contains .mem || l.contains .hostMem || l.contains .scrambled || l.contains .pending || l.contains .out ||
    l.contains .descs || l.contains .nextSeq)

/-- An update of the listed parts, none of them memory, the queue, what was sent, or what is in flight. -/
theorem Keeps.upd {s t : State} (p : List Part) (hl : Parts.le p ps = true) (hp : Parts.plain p = true)
    (ht : Within p s t) (h : Keeps ps s0 s) : Keeps ps s0 t := by
  simp only [Parts.plain, Bool.not_eq_true', Bool.or_eq_false_iff] at hp
  obtain ⟨⟨⟨⟨⟨⟨h1, h2⟩, h3⟩, h4⟩, h5⟩, h6⟩, h7⟩ := hp
  refine ⟨fun m => ?_, fun m => FlightOk.ofEq (h.flight m) (ht.descs h6) (ht.nextSeq h7), (ht.pending h4).trans h.queue,
    (ht.out h5).symm ▸ h.out, h.rest.trans (ht.mono hl)⟩
  have := h.mem m
  unfold MemoryOk State.memWf State.hostWf at this ⊢
  have hd : t.devDefault = s.devDefault := by funext a; simp only [State.devDefault, ht.scrambled h3]
  rw [ht.mem h1, ht.hostMem h2, hd]; exact this

theorem Keeps.ofEqL {α : Type} {p : State × α} {t : State} {a : α} (e : p = (t, a)) (h : Keeps ps s0 p.1) :
    Keeps ps s0 t := by rw [e] at h; exact h

theorem Keeps.ofEqR {α : Type} {p : α × State} {t : State} {a : α} (e : p = (a, t)) (h : Keeps ps s0 p.2) :
    Keeps ps s0 t := by rw [e] at h; exact h

theorem Keeps.ite {c : Prop} [Decidable c] {a b : State} (ha : Keeps ps s0 a) (hb : Keeps ps s0 b) :
    Keeps ps s0 (if c then a else b) := by split <;> assumption

theorem Keeps.dite {c : Prop} [Decidable c] {a : c → State} {b : ¬ c → State} (ha : ∀ h, Keeps ps s0 (a h))
    (hb : ∀ h, Keeps ps s0 (b h)) : Keeps ps s0 (if h : c then a h else b h) := by
  split
  · exact ha _
  · exact hb _

theorem Keeps.foldl {α : Type} {f : State → α → State} {l : List α} {s : State} (hs : Keeps ps s0 s)
    (hf : ∀ t a, Keeps ps s0 t → Keeps ps s0 (f t a)) : Keeps ps s0 (l.foldl f s) := by
  induction l generalizing s with
  | nil => exact hs
  | cons a rest ih => exact ih (hf s a hs)

theorem Keeps.foldlPair {α β : Type} {f : State × β → α → State × β} {l : List α} {p : State × β}
    (hs : Keeps ps s0 p.1) (hf : ∀ q a, Keeps ps s0 q.1 → Keeps ps s0 (f q a).1) : Keeps ps s0 (l.foldl f p).1 := by
  induction l generalizing p with
  | nil => exact hs
  | cons a rest ih => exact ih (hf p a hs)

theorem Keeps.foldlPairR {α β : Type} {f : β × State → α → β × State} {l : List α} {p : β × State}
    (hs : Keeps ps s0 p.2) (hf : ∀ q a, Keeps ps s0 q.2 → Keeps ps s0 (f q a).2) : Keeps ps s0 (l.foldl f p).2 := by
  induction l generalizing p with
  | nil => exact hs
  | cons a rest ih => exact ih (hf p a hs)

theorem Keeps.next {s t : State} (h : Keeps ps s0 s)
    (e : (Host.Outcome.next s : Host.Outcome State Fault Refusal) = .next t) : Keeps ps s0 t := by
  cases e; exact h

/-- An update of the listed parts, whatever they are, of which memory, flight, queue and output are kept each by its
own proof. -/
theorem Keeps.change {s t : State} (p : List Part) (hl : Parts.le p ps = true) (hp : p.contains .pending = false)
    (ht : Within p s t) (hm : MemoryOk s → MemoryOk t) (hf : FlightOk s → FlightOk t) (ho : s.out <+: t.out)
    (h : Keeps ps s0 s) : Keeps ps s0 t :=
  ⟨fun m => hm (h.mem m), fun m => hf (h.flight m), (ht.pending hp).trans h.queue, h.out.trans ho,
    h.rest.trans (ht.mono hl)⟩

theorem MemoryOk.ofEq {s t : State} (h : MemoryOk s) (h1 : t.mem = s.mem) (h2 : t.hostMem = s.hostMem)
    (h3 : t.scrambled = s.scrambled) : MemoryOk t := by
  unfold MemoryOk State.memWf State.hostWf at h ⊢
  have hd : t.devDefault = s.devDefault := by funext a; simp only [State.devDefault, h3]
  rw [h1, h2, hd]; exact h

theorem State.devWrite_keeps {s : State} (a : Nat) (bs : List Byte) (hl : Parts.le [.mem] ps = true)
    (h : Keeps ps s0 s) : Keeps ps s0 (s.devWrite a bs) := by
  refine Keeps.change [.mem] hl rfl rfl (fun m => ?_) (fun m => FlightOk.ofEq m rfl rfl) (List.prefix_refl _) h
  exact ⟨memWrite_wf s.devDefault a bs m.1, m.2⟩

theorem State.anyWrite_keeps {s : State} (a : Nat) (bs : List Byte) (hl : Parts.le [.mem, .hostMem] ps = true)
    (h : Keeps ps s0 s) : Keeps ps s0 (s.anyWrite a bs) := by
  unfold State.anyWrite
  split
  · refine Keeps.change [.hostMem] (Parts.le_trans rfl hl) rfl rfl (fun m => ?_) (fun m => FlightOk.ofEq m rfl rfl)
      (List.prefix_refl _) h
    exact ⟨m.1, memWrite_wf hostDefault _ bs m.2⟩
  · exact State.devWrite_keeps a bs (Parts.le_trans rfl hl) h

/-- Dropping listed bytes, which then read as their default. -/
theorem Keeps.filterMem {s t : State} (p : List Part) (f : Nat × Byte → Bool) (hm : t.mem = s.mem.filter f)
    (hl : Parts.le p ps = true) (hp : Parts.plain (p.erase .mem) = true) (ht : Within p s t) (h : Keeps ps s0 s) :
    Keeps ps s0 t := by
  simp only [Parts.plain, Bool.not_eq_true', Bool.or_eq_false_iff] at hp
  obtain ⟨⟨⟨⟨⟨⟨-, h2⟩, h3⟩, h4⟩, h5⟩, h6⟩, h7⟩ := hp
  have e : ∀ x : Part, x ≠ .mem → (p.erase .mem).contains x = false → p.contains x = false := by
    intro x hx hc
    rw [Bool.eq_false_iff, ne_eq, List.contains_iff_mem] at *
    exact fun hm => hc ((List.mem_erase_of_ne hx).2 hm)
  refine Keeps.change p hl (e _ (by decide) h4) ht (fun m => ?_)
    (fun m => FlightOk.ofEq m (ht.descs (e _ (by decide) h6)) (ht.nextSeq (e _ (by decide) h7)))
    (by rw [ht.out (e _ (by decide) h5)]) h
  have hd : t.devDefault = s.devDefault := by
    funext a; simp only [State.devDefault, ht.scrambled (e _ (by decide) h3)]
  unfold MemoryOk State.memWf State.hostWf at m ⊢
  rw [hm, hd, ht.hostMem (e _ (by decide) h2)]
  exact ⟨SMap.wf_filter f m.1, m.2⟩

/-- Descriptors that leave flight. -/
theorem Keeps.filterDescs {s : State} (p : Desc → Bool) (hl : Parts.le [.descs] ps = true) (h : Keeps ps s0 s) :
    Keeps ps s0 { s with descs := s.descs.filter p } := by
  refine Keeps.change [.descs] hl rfl rfl (fun m => MemoryOk.ofEq m rfl rfl rfl) (fun m => ?_) (List.prefix_refl _) h
  obtain ⟨h1, h2, h3, h4⟩ := m
  exact ⟨h1.sublist (List.filter_sublist.map _), fun x hx => h2 x (List.mem_filter.1 hx).1,
    (List.length_filter_le _ _).trans h3, fun r => (List.filter_sublist.filter _).length_le.trans (h4 r)⟩

/-- Descriptors in flight that change but for their numbers. -/
theorem State.modDesc_keeps {s : State} (seq : Nat) (f : Desc → Desc) (hl : Parts.le [.descs] ps = true)
    (h : Keeps ps s0 s) : Keeps ps s0 (s.modDesc seq f) := by
  refine Keeps.change [.descs] hl rfl rfl (fun m => MemoryOk.ofEq m rfl rfl rfl) (fun m => ?_) (List.prefix_refl _) h
  obtain ⟨h1, h2, h3, h4⟩ := m
  have he : ∀ x : Desc, (if (x.seq == seq) = true then { f x with seq := x.seq, ring := x.ring } else x).seq = x.seq := by
    intro x; split <;> rfl
  have hr : ∀ x : Desc, (if (x.seq == seq) = true then { f x with seq := x.seq, ring := x.ring } else x).ring = x.ring := by
    intro x; split <;> rfl
  refine ⟨?_, fun x hx => ?_, ?_, fun r => ?_⟩
  · have : (s.modDesc seq f).descs.map (fun x => x.seq) = s.descs.map (fun x => x.seq) := by
      simp only [State.modDesc, updIf, List.map_map]
      exact List.map_congr_left (fun x _ => he x)
    rw [this]; exact h1
  · obtain ⟨y, hy, rfl⟩ := List.mem_map.1 hx
    rw [he]; exact h2 y hy
  · simp only [State.modDesc, updIf, List.length_map]; exact h3
  · have : (s.modDesc seq f).inflight r = s.inflight r := by
      simp only [State.inflight, State.modDesc, updIf, List.filter_map, List.length_map]
      congr 1
      exact List.filter_congr (fun x _ => by simp only [Function.comp, hr])
    rw [this]; exact h4 r

/-- A descriptor that enters flight with the next number. -/
theorem Keeps.addDesc {s t : State} (x : Desc) (p : List Part) (hl : Parts.le p ps = true) (ht : Within p s t)
    (hx : x.seq = s.nextSeq) (hn : s.descs.length < 512) (hr : s.inflight x.ring < 64) (h1 : t.mem = s.mem)
    (h2 : t.hostMem = s.hostMem) (h3 : t.scrambled = s.scrambled) (h4 : p.contains .pending = false) (h5 : t.out = s.out)
    (h6 : t.descs = s.descs ++ [x]) (h7 : t.nextSeq = s.nextSeq + 1) (h : Keeps ps s0 s) : Keeps ps s0 t := by
  refine Keeps.change p hl h4 ht (fun m => MemoryOk.ofEq m h1 h2 h3) (fun m => ?_) (by rw [h5]) h
  obtain ⟨n1, n2, n3, n4⟩ := m
  unfold FlightOk State.inflight
  rw [h6, h7]
  refine ⟨?_, fun y hy => ?_, ?_, fun r => ?_⟩
  · rw [List.map_append, List.pairwise_append]
    refine ⟨n1, by simp, fun a ha b hb => ?_⟩
    obtain ⟨y, hy, rfl⟩ := List.mem_map.1 ha
    simp only [List.map_cons, List.map_nil, List.mem_singleton] at hb
    rw [hb, hx]; exact n2 y hy
  · rcases List.mem_append.1 hy with hy | hy
    · exact Nat.lt_succ_of_lt (n2 y hy)
    · rw [List.mem_singleton] at hy; rw [hy, hx]; exact Nat.lt_succ_self _
  · rw [List.length_append]; exact hn
  · rw [List.filter_append, List.length_append]
    by_cases hq : x.ring = r
    · subst hq
      have := List.length_filter_le (fun y => decide (y.ring = x.ring)) [x]
      simp only [List.length_singleton] at this
      simp only [State.inflight] at hr
      omega
    · have hz : [x].filter (fun y => decide (y.ring = r)) = [] := by simp [hq]
      rw [hz]
      exact n4 r

/-- What is sent is sent after what was. -/
theorem Keeps.sends {s t : State} (p : List Part) (o : List Out) (ho : t.out = s.out ++ o) (hl : Parts.le p ps = true)
    (hp : Parts.plain (p.erase .out) = true) (ht : Within p s t) (h : Keeps ps s0 s) : Keeps ps s0 t := by
  simp only [Parts.plain, Bool.not_eq_true', Bool.or_eq_false_iff] at hp
  obtain ⟨⟨⟨⟨⟨⟨h1, h2⟩, h3⟩, h4⟩, -⟩, h6⟩, h7⟩ := hp
  have e : ∀ x : Part, x ≠ .out → (p.erase .out).contains x = false → p.contains x = false := by
    intro x hx hc
    rw [Bool.eq_false_iff, ne_eq, List.contains_iff_mem] at *
    exact fun hm => hc ((List.mem_erase_of_ne hx).2 hm)
  exact Keeps.change p hl (e _ (by decide) h4) ht
    (fun m => MemoryOk.ofEq m (ht.mem (e _ (by decide) h1)) (ht.hostMem (e _ (by decide) h2))
      (ht.scrambled (e _ (by decide) h3)))
    (fun m => FlightOk.ofEq m (ht.descs (e _ (by decide) h6)) (ht.nextSeq (e _ (by decide) h7)))
    (ho ▸ List.prefix_append _ _) h

theorem State.emit_keeps {s : State} (o : Out) (hl : Parts.le [.out] ps = true) (h : Keeps ps s0 s) :
    Keeps ps s0 (s.emit o) := by
  exact Keeps.sends [.out] [o] rfl hl rfl rfl h

end Sys2Proof.Machine
end

