-- ==== Sys2Proof/Laws/KeepsCore.lean ====
section
/-! SUPPORT. What is kept (Laws/Keeps.lean) by
the shared operations, registers, completion, functions and rings,
one lemma an operation: the parts of the state that it lists are all that the operation may change. -/

namespace Sys2Proof.Machine

set_option maxRecDepth 4096

variable {ps : List Part} {s0 : State}

/-! ### Ops -/

theorem State.setFn_keeps {f : FuncId} {v : Fn} (hl : Parts.le [.fns] ps = true) {s : State} (hs : Keeps ps s0 s) :
    Keeps ps s0 (State.setFn s f v) := by
  unfold State.setFn
  refine Keeps.upd [.fns] hl rfl rfl ?_
  exact hs

theorem State.modCtx_keeps {n : CtxId} {f : Ctx → Ctx} (hl : Parts.le [.ctxs] ps = true) {s : State}
    (hs : Keeps ps s0 s) : Keeps ps s0 (State.modCtx s n f) := by
  unfold State.modCtx
  refine Keeps.upd [.ctxs] hl rfl rfl ?_
  exact hs

theorem State.modRing_keeps {r : RingId} {f : Ring → Ring} (hl : Parts.le [.rings] ps = true) {s : State}
    (hs : Keeps ps s0 s) : Keeps ps s0 (State.modRing s r f) := by
  unfold State.modRing
  refine Keeps.upd [.rings] hl rfl rfl ?_
  exact hs

theorem State.modCore_keeps {d : Die} {p : PCore} {f : Core → Core} (hl : Parts.le [.cores] ps = true) {s : State}
    (hs : Keeps ps s0 s) : Keeps ps s0 (State.modCore s d p f) := by
  unfold State.modCore
  refine Keeps.upd [.cores] hl rfl rfl ?_
  exact hs

theorem State.modDie_keeps {d : Die} {f : DieSt → DieSt} (hl : Parts.le [.dies] ps = true) {s : State}
    (hs : Keeps ps s0 s) : Keeps ps s0 (State.modDie s d f) := by
  unfold State.modDie
  refine Keeps.upd [.dies] hl rfl rfl ?_
  exact hs

theorem State.modStream_keeps {d : Die} {h : Fin 256} {f : Stream → Stream} (hl : Parts.le [.streams] ps = true)
    {s : State} (hs : Keeps ps s0 s) : Keeps ps s0 (State.modStream s d h f) := by
  unfold State.modStream
  refine Keeps.upd [.streams] hl rfl rfl ?_
  exact hs

theorem State.setDq_keeps {q : QueueId} {l' : List DmaPart} (hl : Parts.le [.dmaq] ps = true) {s : State}
    (hs : Keeps ps s0 s) : Keeps ps s0 (State.setDq s q l') := by
  unfold State.setDq
  refine Keeps.upd [.dmaq] hl rfl rfl ?_
  exact hs

theorem State.modMc_keeps {d : Die} {m : Mc} {f : McSt → McSt} (hl : Parts.le [.mcs] ps = true) {s : State}
    (hs : Keeps ps s0 s) : Keeps ps s0 (State.modMc s d m f) := by
  unfold State.modMc
  refine Keeps.upd [.mcs] hl rfl rfl ?_
  exact hs

theorem State.modFring_keeps {i : FRing} {f : FRingSt → FRingSt} (hl : Parts.le [.frings] ps = true) {s : State}
    (hs : Keeps ps s0 s) : Keeps ps s0 (State.modFring s i f) := by
  unfold State.modFring
  refine Keeps.upd [.frings] hl rfl rfl ?_
  exact hs

theorem State.modPort_keeps {p : PortId} {f : PortSt → PortSt} (hl : Parts.le [.ports] ps = true) {s : State}
    (hs : Keeps ps s0 s) : Keeps ps s0 (State.modPort s p f) := by
  unfold State.modPort
  refine Keeps.upd [.ports] hl rfl rfl ?_
  exact hs

theorem State.modIsland_keeps {d : Die} {x : Island} {f : IslandSt → IslandSt} (hl : Parts.le [.dies] ps = true)
    {s : State} (hs : Keeps ps s0 s) : Keeps ps s0 (State.modIsland s d x f) := by
  unfold State.modIsland
  refine State.modDie_keeps hl ?_
  exact hs

theorem State.setSem_keeps {n : CtxId} {die : ℕ} {idx : ℕ} {v : ℕ} (hl : Parts.le [.ctxs] ps = true) {s : State}
    (hs : Keeps ps s0 s) : Keeps ps s0 (State.setSem s n die idx v) := by
  unfold State.setSem
  refine State.modCtx_keeps hl ?_
  exact hs

theorem State.setStall_keeps {n : CtxId} {key : ℕ} {v : ℕ} (hl : Parts.le [.ctxs] ps = true) {s : State}
    (hs : Keeps ps s0 s) : Keeps ps s0 (State.setStall s n key v) := by
  unfold State.setStall
  refine State.modCtx_keeps hl ?_
  exact hs

theorem State.account_keeps {key : ℕ} {v : ℕ} (hl : Parts.le [.acct] ps = true) {s : State} (hs : Keeps ps s0 s) :
    Keeps ps s0 (State.account s key v) := by
  unfold State.account
  refine Keeps.upd [.acct] hl rfl rfl ?_
  exact hs

theorem State.freeBits_keeps {w : ℕ} (hl : Parts.le [.free] ps = true) {s : State} (hs : Keeps ps s0 s) : Keeps ps s0
    (State.freeBits s w).2 := by
  unfold State.freeBits
  dsimp -zeta only
  refine Keeps.upd [.free] hl rfl rfl ?_
  exact hs

theorem State.freeBytes_keeps {a1 : ℕ} (hl : Parts.le [.free] ps = true) {s : State} (hs : Keeps ps s0 s) : Keeps ps
    s0 (State.freeBytes s a1).2 := by
  induction a1 generalizing s with
  | zero =>
    unfold State.freeBytes
    exact hs
  | succ n ih =>
    unfold State.freeBytes
    extract_lets +onlyGivenNames x1
    clear_value x1
    split
    rename_i y2 y3 y4 y5
    have hy4 : Keeps ps s0 y4 := by
      refine Keeps.ofEqR y5 ?_
      apply ih
      refine Keeps.upd [.free] hl rfl rfl ?_
      exact hs
    exact hy4

theorem State.scramble_keeps {a : ℕ} {n : ℕ} (hl : Parts.le [.free, .hostMem, .mem] ps = true) {s : State}
    (hs : Keeps ps s0 s) : Keeps ps s0 (State.scramble s a n) := by
  unfold State.scramble
  split
  rename_i y1 y2 y3 y4
  have hy3 : Keeps ps s0 y3 := by
    refine Keeps.ofEqR y4 ?_
    refine State.freeBytes_keeps (Parts.le_trans rfl hl) ?_
    exact hs
  refine State.anyWrite_keeps _ _ (Parts.le_trans rfl hl) ?_
  exact hy3

theorem State.devScramble_keeps {a : ℕ} {n : ℕ} (hl : Parts.le [.free, .mem] ps = true) {s : State}
    (hs : Keeps ps s0 s) : Keeps ps s0 (State.devScramble s a n) := by
  unfold State.devScramble
  split
  rename_i y1 y2 y3 y4
  have hy3 : Keeps ps s0 y3 := by
    refine Keeps.ofEqR y4 ?_
    refine State.freeBytes_keeps (Parts.le_trans rfl hl) ?_
    exact hs
  refine State.devWrite_keeps _ _ (Parts.le_trans rfl hl) ?_
  exact hy3

theorem State.modDisp_keeps {seq : ℕ} {f : Disp → Disp} (hl : Parts.le [.disps] ps = true) {s : State}
    (hs : Keeps ps s0 s) : Keeps ps s0 (State.modDisp s seq f) := by
  unfold State.modDisp
  refine Keeps.upd [.disps] hl rfl rfl ?_
  exact hs

theorem State.modColl_keeps {seq : ℕ} {f : Coll → Coll} (hl : Parts.le [.colls] ps = true) {s : State}
    (hs : Keeps ps s0 s) : Keeps ps s0 (State.modColl s seq f) := by
  unfold State.modColl
  refine Keeps.upd [.colls] hl rfl rfl ?_
  exact hs

/-! ### Regs -/

theorem State.setReg_keeps {r : RegId} {d : ℕ} {i : ℕ} {j : ℕ} {v : W64} (hl : Parts.le [.regs] ps = true) {s : State}
    (hs : Keeps ps s0 s) : Keeps ps s0 (State.setReg s r d i j v) := by
  unfold State.setReg
  refine Keeps.upd [.regs] hl rfl rfl ?_
  exact hs

theorem State.modReg_keeps {r : RegId} {d : ℕ} {i : ℕ} {j : ℕ} {f : W64 → W64} (hl : Parts.le [.regs] ps = true)
    {s : State} (hs : Keeps ps s0 s) : Keeps ps s0 (State.modReg s r d i j f) := by
  unfold State.modReg
  refine State.setReg_keeps hl ?_
  exact hs

theorem State.setRegFld_keeps {r : RegId} {d : ℕ} {i : ℕ} {j : ℕ} {hi : ℕ} {lo : ℕ} {x : ℕ}
    (hl : Parts.le [.regs] ps = true) {s : State} (hs : Keeps ps s0 s) : Keeps ps s0
    (State.setRegFld s r d i j hi lo x) := by
  unfold State.setRegFld
  refine State.modReg_keeps hl ?_
  exact hs

theorem State.bump_keeps {r : RegId} {d : ℕ} {i : ℕ} {k : ℕ} (hl : Parts.le [.regs] ps = true) {s : State}
    (hs : Keeps ps s0 s) : Keeps ps s0 (State.bump s r d i k) := by
  unfold State.bump
  refine State.modReg_keeps hl ?_
  exact hs

theorem State.bumpSat_keeps {r : RegId} {d : ℕ} {i : ℕ} {hi : ℕ} {lo : ℕ} {k : ℕ} (hl : Parts.le [.regs] ps = true)
    {s : State} (hs : Keeps ps s0 s) : Keeps ps s0 (State.bumpSat s r d i hi lo k) := by
  unfold State.bumpSat
  refine State.modReg_keeps hl ?_
  exact hs

/-! ### Map -/

theorem State.countBytes_keeps {write : Bool} {a : ℕ} {len : ℕ} (hl : Parts.le [.acct, .regs] ps = true) {s : State}
    (hs : Keeps ps s0 s) : Keeps ps s0 (State.countBytes s write a len) := by
  unfold State.countBytes
  refine Keeps.ite ?_ ?_
  · exact hs
  · refine Keeps.ite ?_ ?_
    · refine Keeps.foldl ?_ (fun t3 a1 ht2 => ?_)
      · exact hs
      · split
        extract_lets +onlyGivenNames x4
        clear_value x4
        refine State.account_keeps (Parts.le_trans rfl hl) ?_
        refine State.bump_keeps (Parts.le_trans rfl hl) ?_
        exact ht2
    · split
      · refine State.bump_keeps (Parts.le_trans rfl hl) ?_
        exact hs
      · exact hs

theorem State.chargeBytes_keeps {n : CtxId} {src : Option Die} {a : ℕ} {len : ℕ} (hl : Parts.le [.acct] ps = true)
    {s : State} (hs : Keeps ps s0 s) : Keeps ps s0 (State.chargeBytes s n src a len) := by
  unfold State.chargeBytes
  refine Keeps.ite ?_ ?_
  · refine Keeps.foldl ?_ (fun t3 a1 ht2 => ?_)
    · exact hs
    · split
      refine State.account_keeps hl ?_
      exact ht2
  · exact hs

theorem State.clearBad_keeps {a : ℕ} {len : ℕ} (hl : Parts.le [.bad] ps = true) {s : State} (hs : Keeps ps s0 s) :
    Keeps ps s0 (State.clearBad s a len) := by
  unfold State.clearBad
  refine Keeps.upd [.bad] hl rfl rfl ?_
  exact hs

theorem State.spoil_keeps {a : ℕ} {len : ℕ} (hl : Parts.le [.free, .mem] ps = true) {s : State} (hs : Keeps ps s0 s) :
    Keeps ps s0 (State.spoil s a len) := by
  unfold State.spoil
  refine Keeps.ite ?_ ?_
  · exact hs
  · refine Keeps.foldl ?_ (fun t3 a1 ht2 => ?_)
    · exact hs
    · split
      extract_lets +onlyGivenNames x4
      clear_value x4
      extract_lets +onlyGivenNames x5
      clear_value x5
      refine Keeps.ite ?_ ?_
      · refine State.devScramble_keeps hl ?_
        exact ht2
      · exact ht2

theorem State.putBytes_keeps {a : ℕ} {bs : List Byte} (hl : Parts.le [.free, .mem, .acct, .regs, .bad] ps = true)
    {s : State} (hs : Keeps ps s0 s) : Keeps ps s0 (State.putBytes s a bs) := by
  unfold State.putBytes
  refine State.spoil_keeps (Parts.le_trans rfl hl) ?_
  refine State.countBytes_keeps (Parts.le_trans rfl hl) ?_
  refine State.clearBad_keeps (Parts.le_trans rfl hl) ?_
  refine State.devWrite_keeps _ _ (Parts.le_trans rfl hl) ?_
  exact hs

theorem State.collPut_keeps {a : ℕ} {bs : List Byte} (hl : Parts.le [.acct, .regs, .bad, .mem] ps = true) {s : State}
    (hs : Keeps ps s0 s) : Keeps ps s0 (State.collPut s a bs) := by
  unfold State.collPut
  refine State.countBytes_keeps (Parts.le_trans rfl hl) ?_
  refine State.clearBad_keeps (Parts.le_trans rfl hl) ?_
  refine State.devWrite_keeps _ _ (Parts.le_trans rfl hl) ?_
  exact hs

theorem State.ownPut_keeps {a : ℕ} {bs : List Byte} (hl : Parts.le [.free, .mem, .acct, .regs, .bad] ps = true)
    {s : State} (hs : Keeps ps s0 s) : Keeps ps s0 (State.ownPut s a bs) := by
  unfold State.ownPut
  refine Keeps.ite ?_ ?_
  · exact hs
  · refine State.putBytes_keeps hl ?_
    exact hs

theorem State.countHbmCe_keeps {a : ℕ} (hl : Parts.le [.mcs, .regs] ps = true) {s : State} (hs : Keeps ps s0 s) :
    Keeps ps s0 (State.countHbmCe s a) := by
  unfold State.countHbmCe
  split
  extract_lets +onlyGivenNames x1
  clear_value x1
  extract_lets +onlyGivenNames x2
  clear_value x2
  refine State.modMc_keeps (Parts.le_trans rfl hl) ?_
  refine State.bump_keeps (Parts.le_trans rfl hl) ?_
  exact hs

theorem State.countGalCe_keeps {g : ℕ} {off : ℕ} (hl : Parts.le [.dies, .regs] ps = true) {s : State}
    (hs : Keeps ps s0 s) : Keeps ps s0 (State.countGalCe s g off) := by
  unfold State.countGalCe
  refine State.modDie_keeps (Parts.le_trans rfl hl) ?_
  refine State.bump_keeps (Parts.le_trans rfl hl) ?_
  exact hs

theorem State.countCoreCe_keeps {d : Die} {p : PCore} {off : ℕ} (hl : Parts.le [.cores, .regs] ps = true) {s : State}
    (hs : Keeps ps s0 s) : Keeps ps s0 (State.countCoreCe s d p off) := by
  unfold State.countCoreCe
  refine State.modCore_keeps (Parts.le_trans rfl hl) ?_
  refine State.bump_keeps (Parts.le_trans rfl hl) ?_
  exact hs

theorem State.countCeAt_keeps {a : ℕ} (hl : Parts.le [.mcs, .regs, .dies, .cores] ps = true) {s : State}
    (hs : Keeps ps s0 s) : Keeps ps s0 (State.countCeAt s a) := by
  unfold State.countCeAt
  refine Keeps.ite ?_ ?_
  · refine State.countHbmCe_keeps (Parts.le_trans rfl hl) ?_
    exact hs
  · split
    · refine State.countGalCe_keeps (Parts.le_trans rfl hl) ?_
      exact hs
    · refine State.countCoreCe_keeps (Parts.le_trans rfl hl) ?_
      exact hs
    · exact hs

theorem State.countCes_keeps {runs : List (ℕ × ℕ)} {ce : List ℕ}
    (hl : Parts.le [.mcs, .regs, .dies, .cores] ps = true) {s : State} (hs : Keeps ps s0 s) : Keeps ps s0
    (State.countCes s runs ce) := by
  unfold State.countCes
  refine Keeps.foldl ?_ (fun t3 a1 ht2 => ?_)
  · exact hs
  · refine State.countCeAt_keeps hl ?_
    exact ht2

theorem State.readCe_keeps {a : ℕ} {len : ℕ} {ce : List ℕ} (hl : Parts.le [.mcs, .regs, .dies, .cores] ps = true)
    {s : State} (hs : Keeps ps s0 s) : Keeps ps s0 (State.readCe s a len ce) := by
  unfold State.readCe
  refine State.countCes_keeps hl ?_
  exact hs

theorem State.freeSome_keeps {α : Type} {l' : List α} (hl : Parts.le [.free] ps = true) {s : State}
    (hs : Keeps ps s0 s) : Keeps ps s0 (State.freeSome s l').2 := by
  unfold State.freeSome
  extract_lets +onlyGivenNames x1
  clear_value x1
  dsimp -zeta only
  refine Keeps.upd [.free] hl rfl rfl ?_
  exact hs

theorem State.freeCe_keeps {a : ℕ} {len : ℕ} (hl : Parts.le [.free, .mcs, .regs, .dies, .cores] ps = true) {s : State}
    (hs : Keeps ps s0 s) : Keeps ps s0 (State.freeCe s a len) := by
  unfold State.freeCe
  split
  · exact hs
  · split
    rename_i y1 y2 y3 y4
    have hy3 : Keeps ps s0 y3 := by
      refine Keeps.ofEqR y4 ?_
      refine State.freeSome_keeps (Parts.le_trans rfl hl) ?_
      exact hs
    refine Keeps.foldl ?_ (fun t7 a5 ht6 => ?_)
    · exact hy3
    · refine State.countCeAt_keeps (Parts.le_trans rfl hl) ?_
      exact ht6

theorem State.jobRead_keeps {n : CtxId} {src : Option Die} {a : ℕ} {len : ℕ}
    (hl : Parts.le [.free, .mcs, .regs, .dies, .cores, .acct] ps = true) {s : State} (hs : Keeps ps s0 s) : Keeps ps
    s0 (State.jobRead s n src a len) := by
  unfold State.jobRead
  refine State.freeCe_keeps (Parts.le_trans rfl hl) ?_
  refine State.chargeBytes_keeps (Parts.le_trans rfl hl) ?_
  refine State.countBytes_keeps (Parts.le_trans rfl hl) ?_
  exact hs

theorem State.countRuns_keeps {write : Bool} {runs : List (ℕ × ℕ)} (hl : Parts.le [.acct, .regs] ps = true)
    {s : State} (hs : Keeps ps s0 s) : Keeps ps s0 (State.countRuns s write runs) := by
  unfold State.countRuns
  refine Keeps.foldl ?_ (fun t3 a1 ht2 => ?_)
  · exact hs
  · split
    refine State.countBytes_keeps hl ?_
    exact ht2

theorem State.chargeRuns_keeps {n : CtxId} {src : Option Die} {runs : List (ℕ × ℕ)} (hl : Parts.le [.acct] ps = true)
    {s : State} (hs : Keeps ps s0 s) : Keeps ps s0 (State.chargeRuns s n src runs) := by
  unfold State.chargeRuns
  refine Keeps.foldl ?_ (fun t3 a1 ht2 => ?_)
  · exact hs
  · refine State.chargeBytes_keeps hl ?_
    exact ht2

theorem State.countUe_keeps {a : ℕ} (hl : Parts.le [.regs] ps = true) {s : State} (hs : Keeps ps s0 s) : Keeps ps s0
    (State.countUe s a) := by
  unfold State.countUe
  extract_lets +onlyGivenNames x1
  clear_value x1
  refine State.setReg_keeps hl ?_
  refine State.bump_keeps hl ?_
  exact hs

/-! ### Completion -/

theorem State.settleTokens_keeps (hl : Parts.le [.trcTok] ps = true) {s : State} (hs : Keeps ps s0 s) : Keeps ps s0
    (State.settleTokens s) := by
  unfold State.settleTokens
  refine Keeps.upd [.trcTok] hl rfl rfl ?_
  exact hs

theorem State.traceWrite_keeps {src : ℕ} {unit : ℕ} {kind : ℕ} {ctx : ℕ} {data : List Byte}
    (hl : Parts.le [.free, .mem, .acct, .regs, .bad, .trcSeq] ps = true) {s : State} (hs : Keeps ps s0 s) : Keeps ps
    s0 (State.traceWrite s src unit kind ctx data) := by
  unfold State.traceWrite
  extract_lets +onlyGivenNames x1
  clear_value x1
  extract_lets +onlyGivenNames x2
  clear_value x2
  extract_lets +onlyGivenNames x3
  clear_value x3
  extract_lets +onlyGivenNames x4
  clear_value x4
  extract_lets +onlyGivenNames x5
  have hx5 : Keeps ps s0 x5 := by
    subst x5
    refine State.ownPut_keeps (Parts.le_trans rfl hl) ?_
    exact hs
  clear_value x5
  extract_lets +onlyGivenNames x6
  have hx6 : Keeps ps s0 x6 := by
    subst x6
    refine Keeps.upd [.trcSeq] (Parts.le_trans rfl hl) rfl rfl ?_
    exact hx5
  clear_value x6
  extract_lets +onlyGivenNames x7
  have hx7 : Keeps ps s0 x7 := by
    subst x7
    refine State.setReg_keeps (Parts.le_trans rfl hl) ?_
    exact hx6
  clear_value x7
  refine Keeps.ite ?_ ?_
  · refine State.bump_keeps (Parts.le_trans rfl hl) ?_
    exact hx7
  · exact hx7

theorem State.traceRec_keeps {src : ℕ} {unit : ℕ} {kind : ℕ} {ctx : ℕ} {data : List Byte}
    (hl : Parts.le [.trcTok, .free, .mem, .acct, .regs, .bad, .trcSeq, .trcDrop] ps = true) {s : State}
    (hs : Keeps ps s0 s) : Keeps ps s0 (State.traceRec s src unit kind ctx data) := by
  unfold State.traceRec
  refine Keeps.ite ?_ ?_
  · extract_lets +onlyGivenNames x1
    clear_value x1
    extract_lets +onlyGivenNames x2
    clear_value x2
    extract_lets +onlyGivenNames x3
    clear_value x3
    extract_lets +onlyGivenNames x4
    clear_value x4
    refine Keeps.ite ?_ ?_
    · extract_lets +onlyGivenNames x5
      have hx5 : Keeps ps s0 x5 := by
        subst x5
        refine Keeps.upd [.trcTok] (Parts.le_trans rfl hl) rfl rfl ?_
        exact hs
      clear_value x5
      extract_lets +onlyGivenNames x6
      have hx6 : Keeps ps s0 x6 := by
        subst x6
        refine State.traceWrite_keeps (Parts.le_trans rfl hl) ?_
        exact hx5
      clear_value x6
      extract_lets +onlyGivenNames x7
      have hx7 : Keeps ps s0 x7 := by
        subst x7
        refine Keeps.ite ?_ ?_
        · exact hx5
        · refine Keeps.upd [.trcDrop] (Parts.le_trans rfl hl) rfl rfl ?_
          exact hx6
      clear_value x7
      refine State.traceWrite_keeps (Parts.le_trans rfl hl) ?_
      exact hx7
    · extract_lets +onlyGivenNames x8
      have hx8 : Keeps ps s0 x8 := by
        subst x8
        refine Keeps.upd [.trcDrop, .trcTok] (Parts.le_trans rfl hl) rfl rfl ?_
        exact hs
      clear_value x8
      refine Keeps.ite ?_ ?_
      · refine State.bump_keeps (Parts.le_trans rfl hl) ?_
        exact hx8
      · refine State.bump_keeps (Parts.le_trans rfl hl) ?_
        exact hx8
  · exact hs

theorem State.msixSend_keeps {v : ℕ} (hl : Parts.le [.regs, .out] ps = true) {s : State} (hs : Keeps ps s0 s) : Keeps
    ps s0 (State.msixSend s v) := by
  unfold State.msixSend
  refine Keeps.ite ?_ ?_
  · refine Keeps.ite ?_ ?_
    · refine State.modReg_keeps (Parts.le_trans rfl hl) ?_
      exact hs
    · refine State.emit_keeps _ (Parts.le_trans rfl hl) ?_
      exact hs
  · exact hs

theorem State.msix_keeps {v : ℕ} (hl : Parts.le [.hub, .regs, .out] ps = true) {s : State} (hs : Keeps ps s0 s) :
    Keeps ps s0 (State.msix s v) := by
  unfold State.msix
  refine Keeps.ite ?_ ?_
  · refine Keeps.upd [.hub] (Parts.le_trans rfl hl) rfl rfl ?_
    exact hs
  · refine State.msixSend_keeps (Parts.le_trans rfl hl) ?_
    exact hs

theorem State.msixRelease_keeps (hl : Parts.le [.regs, .out, .hub] ps = true) {s : State} (hs : Keeps ps s0 s) : Keeps
    ps s0 (State.msixRelease s) := by
  unfold State.msixRelease
  refine Keeps.foldl ?_ (fun t3 a1 ht2 => ?_)
  · refine Keeps.upd [.hub] (Parts.le_trans rfl hl) rfl rfl ?_
    exact hs
  · refine State.msixSend_keeps (Parts.le_trans rfl hl) ?_
    exact ht2

theorem State.ringMsix_keeps {r : RingId} (hl : Parts.le [.rings, .hub, .regs, .out] ps = true) {s : State}
    (hs : Keeps ps s0 s) : Keeps ps s0 (State.ringMsix s r) := by
  unfold State.ringMsix
  extract_lets +onlyGivenNames x1
  clear_value x1
  extract_lets +onlyGivenNames x2
  clear_value x2
  refine Keeps.ite ?_ ?_
  · split
    · refine Keeps.ite ?_ ?_
      · refine State.modRing_keeps (Parts.le_trans rfl hl) ?_
        exact hs
      · refine Keeps.ite ?_ ?_
        · refine State.modRing_keeps (Parts.le_trans rfl hl) ?_
          refine State.msix_keeps (Parts.le_trans rfl hl) ?_
          exact hs
        · refine State.modRing_keeps (Parts.le_trans rfl hl) ?_
          refine State.msix_keeps (Parts.le_trans rfl hl) ?_
          exact hs
    · refine Keeps.ite ?_ ?_
      · refine State.msix_keeps (Parts.le_trans rfl hl) ?_
        exact hs
      · refine State.modRing_keeps (Parts.le_trans rfl hl) ?_
        refine State.msix_keeps (Parts.le_trans rfl hl) ?_
        exact hs
  · exact hs

theorem State.logRec_keeps {time : ℕ} {pause : ℕ} {cls : ℕ} {kind : ℕ} {die : ℕ} {unit : ℕ} {detail : ℕ} {addr : ℕ}
    {left : ℕ} (hl : Parts.le [.store] ps = true) {s : State} (hs : Keeps ps s0 s) : Keeps ps s0
    (State.logRec s time pause cls kind die unit detail addr left) := by
  unfold State.logRec
  extract_lets +onlyGivenNames x1
  clear_value x1
  extract_lets +onlyGivenNames x2
  clear_value x2
  refine Keeps.upd [.store] hl rfl rfl ?_
  exact hs

theorem State.logFault_keeps {cls : ℕ} {kind : ℕ} {die : ℕ} {unit : ℕ} {detail : ℕ} {pauseMax : ℕ} {addr : ℕ}
    {left : ℕ} (hl : Parts.le [.store, .free] ps = true) {s : State} (hs : Keeps ps s0 s) : Keeps ps s0
    (State.logFault s cls kind die unit detail pauseMax addr left) := by
  unfold State.logFault
  refine State.logRec_keeps (Parts.le_trans rfl hl) ?_
  refine Keeps.upd [.free] (Parts.le_trans rfl hl) rfl rfl ?_
  exact hs

theorem State.traceRepair_keeps {kind : ℕ} {unit : ℕ} {pause : ℕ}
    (hl : Parts.le [.trcTok, .free, .mem, .acct, .regs, .bad, .trcSeq, .trcDrop] ps = true) {s : State}
    (hs : Keeps ps s0 s) : Keeps ps s0 (State.traceRepair s kind unit pause) := by
  unfold State.traceRepair
  refine State.traceRec_keeps hl ?_
  exact hs

theorem State.repairedAt_keeps {time : ℕ} {pause : ℕ} {kind : ℕ} {die : ℕ} {unit : ℕ} {detail : ℕ} {addr : ℕ}
    {left : ℕ} {last : Bool}
    (hl : Parts.le [.trcTok, .free, .mem, .acct, .regs, .bad, .trcSeq, .trcDrop, .store, .hub, .out] ps = true)
    {s : State} (hs : Keeps ps s0 s) : Keeps ps s0 (State.repairedAt s time pause kind die unit detail addr left last)
    := by
  unfold State.repairedAt
  extract_lets +onlyGivenNames x1
  have hx1 : Keeps ps s0 x1 := by
    subst x1
    refine State.traceRepair_keeps (Parts.le_trans rfl hl) ?_
    refine State.logRec_keeps (Parts.le_trans rfl hl) ?_
    exact hs
  clear_value x1
  extract_lets +onlyGivenNames x2
  have hx2 : Keeps ps s0 x2 := by
    subst x2
    refine Keeps.ite ?_ ?_
    · refine State.setRegFld_keeps (Parts.le_trans rfl hl) ?_
      refine State.logRec_keeps (Parts.le_trans rfl hl) ?_
      exact hx1
    · exact hx1
  clear_value x2
  refine State.msix_keeps (Parts.le_trans rfl hl) ?_
  exact hx2

theorem State.repaired_keeps {kind : ℕ} {die : ℕ} {unit : ℕ} {detail : ℕ} {pauseMax : ℕ} {addr : ℕ} {left : ℕ}
    {last : Bool}
    (hl : Parts.le [.trcTok, .free, .mem, .acct, .regs, .bad, .trcSeq, .trcDrop, .store, .hub, .out] ps = true)
    {s : State} (hs : Keeps ps s0 s) : Keeps ps s0 (State.repaired s kind die unit detail pauseMax addr left last) :=
    by
  unfold State.repaired
  refine State.repairedAt_keeps hl ?_
  refine Keeps.upd [.free] (Parts.le_trans rfl hl) rfl rfl ?_
  exact hs

theorem State.repairedSince_keeps {time : ℕ} {kind : ℕ} {die : ℕ} {unit : ℕ} {detail : ℕ} {addr : ℕ} {left : ℕ}
    {last : Bool}
    (hl : Parts.le [.trcTok, .free, .mem, .acct, .regs, .bad, .trcSeq, .trcDrop, .store, .hub, .out] ps = true)
    {s : State} (hs : Keeps ps s0 s) : Keeps ps s0 (State.repairedSince s time kind die unit detail addr left last) :=
    by
  unfold State.repairedSince
  refine State.repairedAt_keeps hl ?_
  exact hs

theorem State.degraded_keeps {kind : ℕ} {die : ℕ} {unit : ℕ} {detail : ℕ} {pauseMax : ℕ} {addr : ℕ} {left : ℕ}
    (hl : Parts.le [.store, .free, .hub, .regs, .out] ps = true) {s : State} (hs : Keeps ps s0 s) : Keeps ps s0
    (State.degraded s kind die unit detail pauseMax addr left) := by
  unfold State.degraded
  extract_lets +onlyGivenNames x1
  have hx1 : Keeps ps s0 x1 := by
    subst x1
    refine State.logFault_keeps (Parts.le_trans rfl hl) ?_
    exact hs
  clear_value x1
  refine State.msix_keeps (Parts.le_trans rfl hl) ?_
  refine State.setRegFld_keeps (Parts.le_trans rfl hl) ?_
  exact hx1

theorem State.raise_keeps {cause : Byte} {die : ℕ} {ctxs : List CtxId} {addr : ℕ} (hl : Parts.le [.reports] ps = true)
    {s : State} (hs : Keeps ps s0 s) : Keeps ps s0 (State.raise s cause die ctxs addr) := by
  unfold State.raise
  refine Keeps.upd [.reports] hl rfl rfl ?_
  exact hs

theorem State.hubPut_keeps {n : CtxId} {a : ℕ} {bs : List Byte}
    (hl : Parts.le [.hostMem, .mem, .reports, .acct, .free, .regs, .bad] ps = true) {s : State} (hs : Keeps ps s0 s) :
    Keeps ps s0 (State.hubPut s n a bs) := by
  unfold State.hubPut
  refine Keeps.ite ?_ ?_
  · refine State.anyWrite_keeps _ _ (Parts.le_trans rfl hl) ?_
    exact hs
  · split
    · refine Keeps.ite ?_ ?_
      · exact hs
      · refine State.raise_keeps (Parts.le_trans rfl hl) ?_
        exact hs
    · refine State.chargeBytes_keeps (Parts.le_trans rfl hl) ?_
      refine State.putBytes_keeps (Parts.le_trans rfl hl) ?_
      exact hs

theorem State.eventWrite_keeps {n : CtxId} {e : EventEnt}
    (hl : Parts.le [.hostMem, .mem, .reports, .acct, .free, .regs, .bad, .ctxs, .descs, .rings, .hub, .out] ps = true)
    {s : State} (hs : Keeps ps s0 s) : Keeps ps s0 (State.eventWrite s n e) := by
  unfold State.eventWrite
  extract_lets +onlyGivenNames x1
  clear_value x1
  extract_lets +onlyGivenNames x2
  clear_value x2
  extract_lets +onlyGivenNames x3
  have hx3 : Keeps ps s0 x3 := by
    subst x3
    refine State.hubPut_keeps (Parts.le_trans rfl hl) ?_
    exact hs
  clear_value x3
  extract_lets +onlyGivenNames x4
  have hx4 : Keeps ps s0 x4 := by
    subst x4
    refine State.modCtx_keeps (Parts.le_trans rfl hl) ?_
    exact hx3
  clear_value x4
  extract_lets +onlyGivenNames x5
  have hx5 : Keeps ps s0 x5 := by
    subst x5
    split
    · refine Keeps.filterDescs _ (Parts.le_trans rfl hl) ?_
      exact hx4
    · exact hx4
  clear_value x5
  refine State.ringMsix_keeps (Parts.le_trans rfl hl) ?_
  exact hx5

theorem State.eventDrainN_keeps {n : CtxId} {a2 : ℕ}
    (hl : Parts.le [.hostMem, .mem, .reports, .acct, .free, .regs, .bad, .ctxs, .descs, .rings, .hub, .out] ps = true)
    {s : State} (hs : Keeps ps s0 s) : Keeps ps s0 (State.eventDrainN s n a2) := by
  induction a2 generalizing s n with
  | zero =>
    unfold State.eventDrainN
    exact hs
  | succ n ih =>
    unfold State.eventDrainN
    split
    · exact hs
    · refine Keeps.ite ?_ ?_
      · apply ih
        refine State.eventWrite_keeps hl ?_
        refine State.modCtx_keeps (Parts.le_trans rfl hl) ?_
        exact hs
      · exact hs

theorem State.eventDrain_keeps {n : CtxId}
    (hl : Parts.le [.hostMem, .mem, .reports, .acct, .free, .regs, .bad, .ctxs, .descs, .rings, .hub, .out] ps = true)
    {s : State} (hs : Keeps ps s0 s) : Keeps ps s0 (State.eventDrain s n) := by
  unfold State.eventDrain
  extract_lets +onlyGivenNames x1
  have hx1 : Keeps ps s0 x1 := by
    subst x1
    refine State.eventDrainN_keeps hl ?_
    exact hs
  clear_value x1
  refine Keeps.ite ?_ ?_
  · refine State.modCtx_keeps (Parts.le_trans rfl hl) ?_
    exact hx1
  · exact hx1

theorem State.eventPush_keeps {n : CtxId} {e : EventEnt}
    (hl : Parts.le [.hostMem, .mem, .reports, .acct, .free, .regs, .bad, .ctxs, .descs, .rings, .hub, .out] ps = true)
    {s : State} (hs : Keeps ps s0 s) : Keeps ps s0 (State.eventPush s n e) := by
  unfold State.eventPush
  refine State.eventDrain_keeps hl ?_
  refine State.modCtx_keeps (Parts.le_trans rfl hl) ?_
  exact hs

theorem State.complete_keeps {seq : ℕ} {status : Byte} {detail : W16}
    (hl : Parts.le [.hostMem, .mem, .reports, .acct, .free, .regs, .bad, .rings, .descs, .ctxs, .hub, .out] ps = true)
    {s : State} (hs : Keeps ps s0 s) : Keeps ps s0 (State.complete s seq status detail) := by
  unfold State.complete
  split
  · exact hs
  · refine Keeps.ite ?_ ?_
    · exact hs
    · extract_lets +onlyGivenNames x1
      have hx1 : Keeps ps s0 x1 := by
        subst x1
        refine State.hubPut_keeps (Parts.le_trans rfl hl) ?_
        exact hs
      clear_value x1
      extract_lets +onlyGivenNames x2
      have hx2 : Keeps ps s0 x2 := by
        subst x2
        refine State.modRing_keeps (Parts.le_trans rfl hl) ?_
        exact hx1
      clear_value x2
      refine Keeps.ite ?_ ?_
      · refine Keeps.filterDescs _ (Parts.le_trans rfl hl) ?_
        exact hx2
      · extract_lets +onlyGivenNames x3
        have hx3 : Keeps ps s0 x3 := by
          subst x3
          refine State.modDesc_keeps _ _ (Parts.le_trans rfl hl) ?_
          exact hx2
        clear_value x3
        refine State.eventPush_keeps (Parts.le_trans rfl hl) ?_
        exact hx3

theorem State.answer_keeps {seq : ℕ} {status : Byte} {detail : W16}
    (hl : Parts.le [.hub, .hostMem, .mem, .reports, .acct, .free, .regs, .bad, .rings, .descs, .ctxs, .out] ps = true)
    {s : State} (hs : Keeps ps s0 s) : Keeps ps s0 (State.answer s seq status detail) := by
  unfold State.answer
  refine Keeps.ite ?_ ?_
  · refine Keeps.upd [.hub] (Parts.le_trans rfl hl) rfl rfl ?_
    exact hs
  · refine State.complete_keeps (Parts.le_trans rfl hl) ?_
    exact hs

theorem State.answersRelease_keeps
    (hl : Parts.le [.hostMem, .mem, .reports, .acct, .free, .regs, .bad, .rings, .descs, .ctxs, .hub, .out] ps = true)
    {s : State} (hs : Keeps ps s0 s) : Keeps ps s0 (State.answersRelease s) := by
  unfold State.answersRelease
  refine Keeps.foldl ?_ (fun t3 a1 ht2 => ?_)
  · refine Keeps.upd [.hub] (Parts.le_trans rfl hl) rfl rfl ?_
    exact hs
  · refine State.complete_keeps hl ?_
    exact ht2

/-! ### Functions -/

theorem SMap.getD_foldl_put {l : List ℕ} {g j : ℕ} {m : SMap ℕ} (h : j ∉ l) :
    SMap.getD (l.foldl (fun acc j => SMap.put acc j g) m) j 0 = SMap.getD m j 0 := by
  induction l generalizing m with
  | nil => rfl
  | cons a rest ih =>
    simp only [List.mem_cons, not_or] at h
    rw [List.foldl_cons, ih h.2, SMap.getD_put_other m g 0 h.1]

/-- Regions whose contents become undefined: nothing of theirs stays listed. -/
theorem State.applyMap_keeps {m : List Region} (hl : Parts.le [.free, .mem, .scrambled, .regionMap] ps = true)
    {s : State} (hs : Keeps ps s0 s) :
    Keeps ps s0 (State.applyMap s m) := by
  unfold State.applyMap
  extract_lets l g
  clear_value l g
  refine Keeps.change [.free, .mem, .scrambled, .regionMap] hl rfl rfl (fun k => ?_)
      (fun k => FlightOk.ofEq k rfl rfl) (List.prefix_refl _) hs
  obtain ⟨k1, k2⟩ := k
  refine ⟨?_, k2⟩
  unfold State.memWf at k1 ⊢
  refine SMap.wf_congr (d := s.devDefault) ?_ (SMap.wf_filter _ k1)
  intro e he
  have hn := (List.mem_filter.mp he).2
  simp only [Bool.not_eq_true', List.contains_eq_mem, decide_eq_false_iff_not] at hn
  simp only [State.devDefault, SMap.getD_foldl_put hn]

theorem regionCommit_keeps (hl : Parts.le [.regs, .commitBusy] ps = true) {s : State} (hs : Keeps ps s0 s) : Keeps ps
    s0 (regionCommit s) := by
  unfold regionCommit
  refine Keeps.ite ?_ ?_
  · exact hs
  · refine State.setRegFld_keeps (Parts.le_trans rfl hl) ?_
    refine Keeps.upd [.commitBusy] (Parts.le_trans rfl hl) rfl rfl ?_
    exact hs

theorem regionCommitDone_keeps
    (hl : Parts.le [.regs, .commitBusy, .free, .mem, .scrambled, .regionMap, .store] ps = true) {s : State}
    (hs : Keeps ps s0 s) : Keeps ps s0 (regionCommitDone s) := by
  unfold regionCommitDone
  extract_lets +onlyGivenNames x1
  clear_value x1
  extract_lets +onlyGivenNames x2
  clear_value x2
  extract_lets +onlyGivenNames x3
  have hx3 : Keeps ps s0 x3 := by
    subst x3
    refine State.setRegFld_keeps (Parts.le_trans rfl hl) ?_
    refine Keeps.upd [.commitBusy] (Parts.le_trans rfl hl) rfl rfl ?_
    exact hs
  clear_value x3
  refine Keeps.ite ?_ ?_
  · extract_lets +onlyGivenNames x4
    have hx4 : Keeps ps s0 x4 := by
      subst x4
      refine State.applyMap_keeps (Parts.le_trans rfl hl) ?_
      exact hx3
    clear_value x4
    refine Keeps.upd [.store] (Parts.le_trans rfl hl) rfl rfl ?_
    exact hx4
  · exact hx3

theorem execRegionCommitDone_keeps
    (hl : Parts.le [.regs, .commitBusy, .free, .mem, .scrambled, .regionMap, .store] ps = true) {s : State}
    (hs : Keeps ps s0 s) {s' : State} (e : execRegionCommitDone s = .next s') : Keeps ps s0 s' := by
  unfold execRegionCommitDone at e
  refine Keeps.next ?_ e
  refine Keeps.ite ?_ ?_
  · refine regionCommitDone_keeps hl ?_
    exact hs
  · exact hs

theorem State.ctxStart_keeps {n : CtxId} (hl : Parts.le [.ctxs, .dies, .regs] ps = true) {s : State}
    (hs : Keeps ps s0 s) : Keeps ps s0 (State.ctxStart s n) := by
  unfold State.ctxStart
  extract_lets +onlyGivenNames x1
  clear_value x1
  extract_lets +onlyGivenNames x2
  have hx2 : Keeps ps s0 x2 := by
    subst x2
    refine Keeps.upd [.ctxs, .dies] (Parts.le_trans rfl hl) rfl rfl ?_
    exact hs
  clear_value x2
  refine State.setReg_keeps (Parts.le_trans rfl hl) ?_
  refine State.setReg_keeps (Parts.le_trans rfl hl) ?_
  exact hx2

theorem contextEnable_keeps {n : CtxId} (hl : Parts.le [.regs, .ctxs, .dies, .fns] ps = true) {s : State}
    (hs : Keeps ps s0 s) : Keeps ps s0 (contextEnable n s) := by
  unfold contextEnable
  refine Keeps.ite ?_ ?_
  · extract_lets +onlyGivenNames x1
    clear_value x1
    extract_lets +onlyGivenNames x2
    have hx2 : Keeps ps s0 x2 := by
      subst x2
      refine State.setRegFld_keeps (Parts.le_trans rfl hl) ?_
      exact hs
    clear_value x2
    refine Keeps.ite ?_ ?_
    · exact hx2
    · refine Keeps.ite ?_ ?_
      · extract_lets +onlyGivenNames x3
        have hx3 : Keeps ps s0 x3 := by
          subst x3
          refine State.ctxStart_keeps (Parts.le_trans rfl hl) ?_
          exact hx2
        clear_value x3
        refine State.setFn_keeps (Parts.le_trans rfl hl) ?_
        exact hx3
      · refine State.setFn_keeps (Parts.le_trans rfl hl) ?_
        exact hx2
  · refine State.setFn_keeps (Parts.le_trans rfl hl) ?_
    exact hs

theorem State.streamOff_keeps {d : Die} {h : Fin 256} (hl : Parts.le [.streams, .fns] ps = true) {s : State}
    (hs : Keeps ps s0 s) : Keeps ps s0 (State.streamOff s d h) := by
  unfold State.streamOff
  refine State.modStream_keeps (Parts.le_trans rfl hl) ?_
  refine State.setFn_keeps (Parts.le_trans rfl hl) ?_
  exact hs

theorem State.keepPart_keeps {n : CtxId} {d : Die} (hl : Parts.le [.ctxs] ps = true) {s : State} (hs : Keeps ps s0 s)
    : Keeps ps s0 (State.keepPart s n d) := by
  unfold State.keepPart
  extract_lets +onlyGivenNames x1
  clear_value x1
  refine State.modCtx_keeps hl ?_
  exact hs

theorem chainLostOn_keeps {c : Chain} {d : Die} (hl : Parts.le [.free, .cores, .hostMem, .mem] ps = true) {s : State}
    (hs : Keeps ps s0 s) : Keeps ps s0 (chainLostOn c d s) := by
  unfold chainLostOn
  refine Keeps.foldl ?_ (fun t3 a1 ht2 => ?_)
  · exact hs
  · split
    · refine Keeps.ite ?_ ?_
      · split
        rename_i y4 y5 y6 y7
        have hy6 : Keeps ps s0 y6 := by
          refine Keeps.ofEqR y7 ?_
          refine State.freeBits_keeps (Parts.le_trans rfl hl) ?_
          exact ht2
        refine State.modCore_keeps (Parts.le_trans rfl hl) ?_
        refine State.scramble_keeps (Parts.le_trans rfl hl) ?_
        exact hy6
      · exact ht2
    · exact ht2

theorem chainLostSaved_keeps {c : Chain} {d : Die} (hl : Parts.le [.free, .hostMem, .mem, .ctxs] ps = true)
    {s : State} (hs : Keeps ps s0 s) : Keeps ps s0 (chainLostSaved c d s) := by
  unfold chainLostSaved
  extract_lets +onlyGivenNames x1
  clear_value x1
  extract_lets +onlyGivenNames x2
  clear_value x2
  extract_lets +onlyGivenNames x3
  have hx3 : Keeps ps s0 x3 := by
    subst x3
    refine State.scramble_keeps (Parts.le_trans rfl hl) ?_
    refine State.scramble_keeps (Parts.le_trans rfl hl) ?_
    exact hs
  clear_value x3
  refine Keeps.ite ?_ ?_
  · refine State.keepPart_keeps (Parts.le_trans rfl hl) ?_
    exact hx3
  · exact hx3

theorem State.chainLost_keeps {c : Chain} (hl : Parts.le [.free, .cores, .hostMem, .mem, .ctxs] ps = true) {s : State}
    (hs : Keeps ps s0 s) : Keeps ps s0 (State.chainLost s c) := by
  unfold State.chainLost
  refine Keeps.foldl ?_ (fun t3 a1 ht2 => ?_)
  · exact hs
  · extract_lets +onlyGivenNames x4
    have hx4 : Keeps ps s0 x4 := by
      subst x4
      refine Keeps.ite ?_ ?_
      · refine chainLostOn_keeps (Parts.le_trans rfl hl) ?_
        exact ht2
      · exact ht2
    clear_value x4
    refine Keeps.ite ?_ ?_
    · refine chainLostSaved_keeps (Parts.le_trans rfl hl) ?_
      exact hx4
    · exact hx4

theorem State.closeChains_keeps {p : Chain → Bool}
    (hl : Parts.le [.free, .cores, .hostMem, .mem, .ctxs, .chains] ps = true) {s : State} (hs : Keeps ps s0 s) : Keeps
    ps s0 (State.closeChains s p) := by
  unfold State.closeChains
  extract_lets +onlyGivenNames x1
  clear_value x1
  refine Keeps.foldl ?_ (fun t4 a2 ht3 => ?_)
  · refine Keeps.upd [.chains] (Parts.le_trans rfl hl) rfl rfl ?_
    exact hs
  · refine State.chainLost_keeps (Parts.le_trans rfl hl) ?_
    exact ht3

theorem State.staleDies_keeps {n : CtxId} (hl : Parts.le [.dies] ps = true) {s : State} (hs : Keeps ps s0 s) : Keeps
    ps s0 (State.staleDies s n) := by
  unfold State.staleDies
  refine Keeps.foldl ?_ (fun t3 a1 ht2 => ?_)
  · exact hs
  · refine State.modDie_keeps hl ?_
    exact ht2

theorem contextOff_keeps {n : CtxId}
    (hl : Parts.le [.plans, .dies, .free, .cores, .hostMem, .mem, .ctxs, .chains, .streams, .fns] ps = true)
    {s : State} (hs : Keeps ps s0 s) : Keeps ps s0 (contextOff n s) := by
  unfold contextOff
  extract_lets +onlyGivenNames x1
  have hx1 : Keeps ps s0 x1 := by
    subst x1
    refine Keeps.upd [.plans] (Parts.le_trans rfl hl) rfl rfl ?_
    exact hs
  clear_value x1
  extract_lets +onlyGivenNames x2
  have hx2 : Keeps ps s0 x2 := by
    subst x2
    refine State.staleDies_keeps (Parts.le_trans rfl hl) ?_
    refine State.closeChains_keeps (Parts.le_trans rfl hl) ?_
    exact hx1
  clear_value x2
  extract_lets +onlyGivenNames x3
  have hx3 : Keeps ps s0 x3 := by
    subst x3
    refine State.modCtx_keeps (Parts.le_trans rfl hl) ?_
    exact hx2
  clear_value x3
  extract_lets +onlyGivenNames x4
  have hx4 : Keeps ps s0 x4 := by
    subst x4
    refine Keeps.foldl ?_ (fun t7 a5 ht6 => ?_)
    · exact hx3
    · split
      refine State.streamOff_keeps (Parts.le_trans rfl hl) ?_
      exact ht6
  clear_value x4
  refine Keeps.foldl ?_ (fun t10 a8 ht9 => ?_)
  · exact hx4
  · refine State.setFn_keeps (Parts.le_trans rfl hl) ?_
    exact ht9

theorem ringLeaveOff_keeps {r : RingId} (hl : Parts.le [.rings, .regs] ps = true) {s : State} (hs : Keeps ps s0 s) :
    Keeps ps s0 (ringLeaveOff r s) := by
  unfold ringLeaveOff
  extract_lets +onlyGivenNames x1
  clear_value x1
  refine State.modRing_keeps (Parts.le_trans rfl hl) ?_
  refine State.setReg_keeps (Parts.le_trans rfl hl) ?_
  exact hs

theorem functionEnable_keeps {f : FuncId} (hl : Parts.le [.regs, .ctxs, .dies, .fns, .rings] ps = true) {s : State}
    (hs : Keeps ps s0 s) : Keeps ps s0 (functionEnable f s) := by
  unfold functionEnable
  refine Keeps.ite ?_ ?_
  · split
    · refine contextEnable_keeps (Parts.le_trans rfl hl) ?_
      exact hs
    · extract_lets +onlyGivenNames x1
      have hx1 : Keeps ps s0 x1 := by
        subst x1
        refine Keeps.ite ?_ ?_
        · refine ringLeaveOff_keeps (Parts.le_trans rfl hl) ?_
          exact hs
        · exact hs
      clear_value x1
      refine State.setFn_keeps (Parts.le_trans rfl hl) ?_
      exact hx1
    · refine State.setFn_keeps (Parts.le_trans rfl hl) ?_
      exact hs
  · exact hs

theorem functionDisable_keeps {f : FuncId} (hl : Parts.le [.fns] ps = true) {s : State} (hs : Keeps ps s0 s) : Keeps
    ps s0 (functionDisable f s) := by
  unfold functionDisable
  refine Keeps.ite ?_ ?_
  · refine State.setFn_keeps hl ?_
    exact hs
  · exact hs

/-! ### Rings -/

theorem ringDoorbell_keeps {r : RingId} {val : W32} (hl : Parts.le [.regs, .rings] ps = true) {s : State}
    (hs : Keeps ps s0 s) : Keeps ps s0 (ringDoorbell r val s) := by
  unfold ringDoorbell
  refine Keeps.ite ?_ ?_
  · refine State.setRegFld_keeps (Parts.le_trans rfl hl) ?_
    exact hs
  · refine State.modRing_keeps (Parts.le_trans rfl hl) ?_
    refine State.setReg_keeps (Parts.le_trans rfl hl) ?_
    exact hs

theorem ringDoorbellAt_keeps {off : ℕ} {size : ℕ} {val : Option W32} (hl : Parts.le [.out, .regs, .rings] ps = true)
    {s : State} (hs : Keeps ps s0 s) : Keeps ps s0 (ringDoorbellAt off size val s) := by
  unfold ringDoorbellAt
  split
  · refine State.emit_keeps _ (Parts.le_trans rfl hl) ?_
    exact hs
  · refine Keeps.ite ?_ ?_
    · refine ringDoorbell_keeps (Parts.le_trans rfl hl) ?_
      exact hs
    · exact hs
  · exact hs

theorem eventDoorbell_keeps {n : CtxId} {val : W32}
    (hl : Parts.le [.hostMem, .mem, .reports, .acct, .free, .regs, .bad, .ctxs, .descs, .rings, .hub, .out] ps = true)
    {s : State} (hs : Keeps ps s0 s) : Keeps ps s0 (eventDoorbell n val s) := by
  unfold eventDoorbell
  refine Keeps.ite ?_ ?_
  · exact hs
  · refine State.eventDrain_keeps hl ?_
    refine State.modCtx_keeps (Parts.le_trans rfl hl) ?_
    exact hs

theorem eventDoorbellAt_keeps {off : ℕ} {size : ℕ} {val : W32}
    (hl : Parts.le [.hostMem, .mem, .reports, .acct, .free, .regs, .bad, .ctxs, .descs, .rings, .hub, .out] ps = true)
    {s : State} (hs : Keeps ps s0 s) : Keeps ps s0 (eventDoorbellAt off size val s) := by
  unfold eventDoorbellAt
  split
  · refine Keeps.ite ?_ ?_
    · refine eventDoorbell_keeps hl ?_
      exact hs
    · exact hs
  · exact hs

theorem arbitrate_req {req : Nat → Bool} {q n i k : Nat} (h : arbitrate req q n = some (i, k)) : req i = true := by
  unfold arbitrate at h
  rw [Option.map_eq_some_iff] at h
  obtain ⟨j, hj, he⟩ := h
  have := List.find?_some hj
  cases he
  exact this

/-- Only a ring below both limits is granted (R330). -/
theorem State.fetchable_room {s : State} {r : RingId} (h : s.fetchable r = true) :
    s.descs.length < 512 ∧ s.inflight r < 64 := by
  have hc : s.canFetch r = true := by
    unfold State.fetchable at h
    rw [Bool.and_eq_true, Bool.and_eq_true] at h
    obtain ⟨y, hy⟩ := Option.isSome_iff_exists.1 h.1.1
    have hf : ∀ z, (match arbitrate s.fetchReq s.arb.fetch 256 with
        | some (i, q) => if i = r.val then some (8, q) else none
        | none => none) = some z → s.canFetch r = true := by
      intro z hz
      split at hz
      · rename_i i q ha
        split at hz
        · rename_i hi
          have := arbitrate_req ha
          unfold State.fetchReq at this
          subst hi
          rw [dif_pos r.isLt] at this
          exact this
        · cases hz
      · cases hz
    unfold State.grantFor at hy
    simp only at hy
    split at hy
    · split at hy
      · rename_i hk
        split at hy
        · rename_i hg; rw [← hg]; exact hk.2
        · cases hy
      · exact hf y hy
    · exact hf y hy
  unfold State.canFetch at hc
  simp only [Bool.and_eq_true, decide_eq_true_eq] at hc
  exact ⟨hc.2, hc.1.2⟩

theorem State.fetch_keeps {r : RingId}
    (hl : Parts.le [.free, .mcs, .regs, .dies, .cores, .acct, .rings, .nextSeq, .descs, .arb] ps = true) {s : State}
    (hf : s.fetchable r = true)
    (hs : Keeps ps s0 s) : Keeps ps s0 (State.fetch s r).1 := by
  have hr := State.fetchable_room hf
  unfold State.fetch
  extract_lets slot b ty x s1 s2 s3 s4
  have w : Within [.free, .mcs, .regs, .acct, .dies, .cores, .rings] s s4 :=
    (show Keeps [.free, .mcs, .regs, .acct, .dies, .cores, .rings] s s4 from by
      refine State.modRing_keeps rfl ?_
      refine State.setRegFld_keeps rfl ?_
      refine State.setReg_keeps rfl ?_
      exact State.jobRead_keeps rfl (Keeps.refl _ s)).rest
  have h4 : Keeps ps s0 s4 := by
    refine State.modRing_keeps (Parts.le_trans rfl hl) ?_
    refine State.setRegFld_keeps (Parts.le_trans rfl hl) ?_
    refine State.setReg_keeps (Parts.le_trans rfl hl) ?_
    exact State.jobRead_keeps (Parts.le_trans rfl hl) hs
  have hd := w.descs rfl
  have hn := w.nextSeq rfl
  clear_value s4
  refine Keeps.addDesc (s := s4) x [.descs, .nextSeq, .arb] (Parts.le_trans rfl hl) rfl hn.symm (hd ▸ hr.1) ?_
    rfl rfl rfl rfl rfl rfl rfl h4
  unfold State.inflight at hr ⊢
  rw [hd]
  exact hr.2

theorem slotFetchStall_keeps {r : RingId} {fail : Option ReadFail}
    (hl : Parts.le [.arb, .rings, .regs, .reports, .free, .mcs, .dies, .cores, .acct] ps = true) {s : State}
    (hs : Keeps ps s0 s) : Keeps ps s0 (slotFetchStall r fail s) := by
  unfold slotFetchStall
  extract_lets +onlyGivenNames x1
  clear_value x1
  extract_lets +onlyGivenNames x2
  clear_value x2
  extract_lets +onlyGivenNames x3
  have hx3 : Keeps ps s0 x3 := by
    subst x3
    refine Keeps.upd [.arb] (Parts.le_trans rfl hl) rfl rfl ?_
    exact hs
  clear_value x3
  split
  · refine State.modRing_keeps (Parts.le_trans rfl hl) ?_
    refine State.setRegFld_keeps (Parts.le_trans rfl hl) ?_
    exact hx3
  · split
    · refine State.raise_keeps (Parts.le_trans rfl hl) ?_
      exact hx3
    · refine Keeps.ite ?_ ?_
      · exact hx3
      · extract_lets +onlyGivenNames x4
        have hx4 : Keeps ps s0 x4 := by
          subst x4
          refine State.jobRead_keeps (Parts.le_trans rfl hl) ?_
          exact hx3
        clear_value x4
        refine State.modRing_keeps (Parts.le_trans rfl hl) ?_
        refine State.setRegFld_keeps (Parts.le_trans rfl hl) ?_
        exact hx4

theorem execSlotFetchStall_keeps {r : RingId} {fail : Option ReadFail}
    (hl : Parts.le [.arb, .rings, .regs, .reports, .free, .mcs, .dies, .cores, .acct] ps = true) {s : State}
    (hs : Keeps ps s0 s) {s' : State} (e : execSlotFetchStall r fail s = .next s') : Keeps ps s0 s' := by
  unfold execSlotFetchStall at e
  refine Keeps.next ?_ e
  refine Keeps.ite ?_ ?_
  · refine slotFetchStall_keeps hl ?_
    exact hs
  · exact hs

theorem State.illegal_keeps {n : CtxId} {a : ℕ} (hl : Parts.le [.reports] ps = true) {s : State} (hs : Keeps ps s0 s)
    : Keeps ps s0 (State.illegal s n a) := by
  unfold State.illegal
  refine State.raise_keeps hl ?_
  exact hs

theorem State.markStarted_keeps {seq : ℕ} (hl : Parts.le [.descs] ps = true) {s : State} (hs : Keeps ps s0 s) : Keeps
    ps s0 (State.markStarted s seq) := by
  unfold State.markStarted
  refine State.modDesc_keeps _ _ hl ?_
  exact hs

theorem fetchThen_keeps {r : RingId} {ok : List Byte → Bool} {check : State → Desc → Option (Byte × W16)}
    {atFetch : Desc → State → State} {start : ℕ → State → State}
        (hl : Parts.le [.free, .mcs, .regs, .dies, .cores, .acct, .rings, .nextSeq, .descs, .arb, .hostMem, .mem,
          .reports, .bad, .ctxs, .hub, .out] ps = true)
    (hatFetch : ∀ x t, Keeps ps s0 t → Keeps ps s0 (atFetch x t))
        (hstart : ∀ q t, Keeps ps s0 t → Keeps ps s0 (start q t))
    {s : State} (hs : Keeps ps s0 s) : Keeps ps s0 (fetchThen r ok check atFetch start s) := by
  unfold fetchThen
  split
  · rename_i hf
    rw [Bool.and_eq_true] at hf
    have hx : Keeps ps s0 (s.fetch r).1 := State.fetch_keeps (Parts.le_trans rfl hl) hf.1 hs
    dsimp -zeta only
    refine Keeps.ite ?_ ?_
    · exact State.complete_keeps (Parts.le_trans rfl hl) hx
    · split
      · exact State.complete_keeps (Parts.le_trans rfl hl) hx
      · split
        · exact State.complete_keeps (Parts.le_trans rfl hl) hx
        · extract_lets y
          have hy : Keeps ps s0 y := hatFetch _ _ hx
          clear_value y
          refine Keeps.ite hy (Keeps.ite ?_ (hstart _ _ hy))
          exact State.modDesc_keeps _ _ (Parts.le_trans rfl hl) hy
  · exact hs

theorem fetchAs_keeps {r : RingId} {ok : List Byte → Bool} {check : State → Desc → Option (Byte × W16)}
    {start : ℕ → State → State}
    (hl : Parts.le [.free, .mcs, .regs, .dies, .cores, .acct, .rings, .nextSeq, .descs, .arb, .hostMem, .mem,
      .reports, .bad, .ctxs, .hub, .out] ps = true) (hstart : ∀ b0 t, Keeps ps s0 t → Keeps ps s0 (start b0 t))
    {s : State} (hs : Keeps ps s0 s) : Keeps ps s0 (fetchAs r ok check start s) := by
  unfold fetchAs
  refine fetchThen_keeps hl ?_ ?_ ?_
  · intro a1 t2 ht3
    exact ht3
  · intro a4 t5 ht6
    apply hstart
    exact ht6
  · exact hs

theorem execInvalidDescriptor_keeps {r : RingId}
    (hl : Parts.le [.free, .mcs, .regs, .dies, .cores, .acct, .rings, .nextSeq, .descs, .arb, .hostMem, .mem,
      .reports, .bad, .ctxs, .hub, .out] ps = true) {s : State} (hs : Keeps ps s0 s) {s' : State}
    (e : execInvalidDescriptor r s = .next s') : Keeps ps s0 s' := by
  unfold execInvalidDescriptor at e
  refine Keeps.next ?_ e
  refine fetchAs_keeps hl ?_ ?_
  · intro a1 t2 ht3
    exact ht3
  · exact hs

theorem execFence_keeps {r : RingId}
    (hl : Parts.le [.free, .mcs, .regs, .dies, .cores, .acct, .rings, .nextSeq, .descs, .arb, .hostMem, .mem,
      .reports, .bad, .ctxs, .hub, .out] ps = true) {s : State} (hs : Keeps ps s0 s) {s' : State}
    (e : execFence r s = .next s') : Keeps ps s0 s' := by
  unfold execFence at e
  refine Keeps.next ?_ e
  refine fetchAs_keeps hl ?_ ?_
  · intro a1 t2 ht3
    refine State.markStarted_keeps (Parts.le_trans rfl hl) ?_
    exact ht3
  · exact hs

theorem execSemSignal_keeps {r : RingId}
    (hl : Parts.le [.free, .mcs, .regs, .dies, .cores, .acct, .rings, .nextSeq, .descs, .arb, .hostMem, .mem,
      .reports, .bad, .ctxs, .hub, .out] ps = true) {s : State} (hs : Keeps ps s0 s) {s' : State}
    (e : execSemSignal r s = .next s') : Keeps ps s0 s' := by
  unfold execSemSignal at e
  refine Keeps.next ?_ e
  refine fetchAs_keeps hl ?_ ?_
  · intro a1 t2 ht3
    refine State.markStarted_keeps (Parts.le_trans rfl hl) ?_
    exact ht3
  · exact hs

theorem State.semAdd_keeps {n : CtxId} {die : ℕ} {idx : ℕ} {v : ℕ} (hl : Parts.le [.reports, .ctxs] ps = true)
    {s : State} (hs : Keeps ps s0 s) : Keeps ps s0 (State.semAdd s n die idx v).1 := by
  unfold State.semAdd
  extract_lets +onlyGivenNames x1
  clear_value x1
  split
  · dsimp -zeta only
    refine State.raise_keeps (Parts.le_trans rfl hl) ?_
    exact hs
  · dsimp -zeta only
    refine State.setSem_keeps (Parts.le_trans rfl hl) ?_
    exact hs

theorem semSignalApply_keeps {x : Desc}
    (hl : Parts.le [.reports, .ctxs, .hostMem, .mem, .acct, .free, .regs, .bad, .rings, .descs, .hub, .out] ps = true)
    {s : State} (hs : Keeps ps s0 s) : Keeps ps s0 (semSignalApply x s) := by
  unfold semSignalApply
  extract_lets +onlyGivenNames x1
  clear_value x1
  extract_lets +onlyGivenNames x2
  clear_value x2
  split
  · rename_i y3 y4 y5
    have hy4 : Keeps ps s0 y4 := by
      refine Keeps.ofEqL y5 ?_
      refine State.semAdd_keeps (Parts.le_trans rfl hl) ?_
      exact hs
    refine State.complete_keeps (Parts.le_trans rfl hl) ?_
    exact hy4
  · rename_i y6 y7 y8
    have hy7 : Keeps ps s0 y7 := by
      refine Keeps.ofEqL y8 ?_
      refine State.semAdd_keeps (Parts.le_trans rfl hl) ?_
      exact hs
    exact hy7

theorem execSemSignalApply_keeps {seq : ℕ}
    (hl : Parts.le [.reports, .ctxs, .hostMem, .mem, .acct, .free, .regs, .bad, .rings, .descs, .hub, .out] ps = true)
    {s : State} (hs : Keeps ps s0 s) {s' : State} (e : execSemSignalApply seq s = .next s') : Keeps ps s0 s' := by
  unfold execSemSignalApply at e
  refine Keeps.next ?_ e
  split
  · refine Keeps.ite ?_ ?_
    · refine semSignalApply_keeps hl ?_
      exact hs
    · exact hs
  · exact hs

theorem execSemWait_keeps {r : RingId}
    (hl : Parts.le [.free, .mcs, .regs, .dies, .cores, .acct, .rings, .nextSeq, .descs, .arb, .hostMem, .mem,
      .reports, .bad, .ctxs, .hub, .out] ps = true) {s : State} (hs : Keeps ps s0 s) {s' : State}
    (e : execSemWait r s = .next s') : Keeps ps s0 s' := by
  unfold execSemWait at e
  refine Keeps.next ?_ e
  refine fetchAs_keeps hl ?_ ?_
  · intro a1 t2 ht3
    refine State.markStarted_keeps (Parts.le_trans rfl hl) ?_
    exact ht3
  · exact hs

theorem semWaitSatisfied_keeps {x : Desc}
    (hl : Parts.le [.ctxs, .hostMem, .mem, .reports, .acct, .free, .regs, .bad, .rings, .descs, .hub, .out] ps = true)
    {s : State} (hs : Keeps ps s0 s) : Keeps ps s0 (semWaitSatisfied x s) := by
  unfold semWaitSatisfied
  extract_lets +onlyGivenNames x1
  clear_value x1
  extract_lets +onlyGivenNames x2
  have hx2 : Keeps ps s0 x2 := by
    subst x2
    refine Keeps.ite ?_ ?_
    · refine State.setSem_keeps (Parts.le_trans rfl hl) ?_
      exact hs
    · exact hs
  clear_value x2
  refine State.complete_keeps (Parts.le_trans rfl hl) ?_
  exact hx2

theorem execSemWaitSatisfied_keeps {seq : ℕ}
    (hl : Parts.le [.ctxs, .hostMem, .mem, .reports, .acct, .free, .regs, .bad, .rings, .descs, .hub, .out] ps = true)
    {s : State} (hs : Keeps ps s0 s) {s' : State} (e : execSemWaitSatisfied seq s = .next s') : Keeps ps s0 s' := by
  unfold execSemWaitSatisfied at e
  refine Keeps.next ?_ e
  split
  · refine Keeps.ite ?_ ?_
    · refine semWaitSatisfied_keeps hl ?_
      exact hs
    · exact hs
  · exact hs

theorem execSemWaitTimeout_keeps {seq : ℕ}
    (hl : Parts.le [.hostMem, .mem, .reports, .acct, .free, .regs, .bad, .rings, .descs, .ctxs, .hub, .out] ps = true)
    {s : State} (hs : Keeps ps s0 s) {s' : State} (e : execSemWaitTimeout seq s = .next s') : Keeps ps s0 s' := by
  unfold execSemWaitTimeout at e
  refine Keeps.next ?_ e
  split
  · refine Keeps.ite ?_ ?_
    · refine State.complete_keeps hl ?_
      exact hs
    · exact hs
  · exact hs

theorem execTimestamp_keeps {r : RingId}
    (hl : Parts.le [.free, .mcs, .regs, .dies, .cores, .acct, .rings, .nextSeq, .descs, .arb, .hostMem, .mem,
      .reports, .bad, .ctxs, .hub, .out] ps = true) {s : State} (hs : Keeps ps s0 s) {s' : State}
    (e : execTimestamp r s = .next s') : Keeps ps s0 s' := by
  unfold execTimestamp at e
  refine Keeps.next ?_ e
  refine fetchAs_keeps hl ?_ ?_
  · intro a1 t2 ht3
    refine State.markStarted_keeps (Parts.le_trans rfl hl) ?_
    exact ht3
  · exact hs

theorem holdoffExpiry_keeps {r : RingId} (hl : Parts.le [.rings, .hub, .regs, .out] ps = true) {s : State}
    (hs : Keeps ps s0 s) : Keeps ps s0 (holdoffExpiry r s) := by
  unfold holdoffExpiry
  extract_lets +onlyGivenNames x1
  clear_value x1
  refine Keeps.ite ?_ ?_
  · refine State.modRing_keeps (Parts.le_trans rfl hl) ?_
    refine State.msix_keeps (Parts.le_trans rfl hl) ?_
    exact hs
  · refine State.modRing_keeps (Parts.le_trans rfl hl) ?_
    exact hs

theorem execHoldoffExpiry_keeps {r : RingId} (hl : Parts.le [.rings, .hub, .regs, .out] ps = true) {s : State}
    (hs : Keeps ps s0 s) {s' : State} (e : execHoldoffExpiry r s = .next s') : Keeps ps s0 s' := by
  unfold execHoldoffExpiry at e
  refine Keeps.next ?_ e
  split
  · refine Keeps.ite ?_ ?_
    · refine holdoffExpiry_keeps hl ?_
      exact hs
    · exact hs
  · exact hs

/-! ### Memory -/

theorem State.hubWrite_keeps {n : CtxId} {a : ℕ} {bs : List Byte}
    (hl : Parts.le [.hostMem, .mem, .reports, .acct, .free, .regs, .bad] ps = true) {s : State} (hs : Keeps ps s0 s) :
    Keeps ps s0 (State.hubWrite s n a bs).1 := by
  unfold State.hubWrite
  split
  · dsimp -zeta only
    refine State.anyWrite_keeps _ _ (Parts.le_trans rfl hl) ?_
    exact hs
  · split
    · dsimp -zeta only
      refine State.raise_keeps (Parts.le_trans rfl hl) ?_
      exact hs
    · dsimp -zeta only
      refine State.chargeBytes_keeps (Parts.le_trans rfl hl) ?_
      refine State.putBytes_keeps (Parts.le_trans rfl hl) ?_
      exact hs

theorem timestampWrite_keeps {x : Desc}
    (hl : Parts.le [.hostMem, .mem, .reports, .acct, .free, .regs, .bad, .rings, .descs, .ctxs, .hub, .out] ps = true)
    {s : State} (hs : Keeps ps s0 s) : Keeps ps s0 (timestampWrite x s) := by
  unfold timestampWrite
  split
  · rename_i y1 y2 y3
    have hy2 : Keeps ps s0 y2 := by
      refine Keeps.ofEqL y3 ?_
      refine State.hubWrite_keeps (Parts.le_trans rfl hl) ?_
      exact hs
    refine State.complete_keeps hl ?_
    exact hy2
  · rename_i y4 y5 y6
    have hy5 : Keeps ps s0 y5 := by
      refine Keeps.ofEqL y6 ?_
      refine State.hubWrite_keeps (Parts.le_trans rfl hl) ?_
      exact hs
    exact hy5

theorem execTimestampWrite_keeps {seq : ℕ}
    (hl : Parts.le [.hostMem, .mem, .reports, .acct, .free, .regs, .bad, .rings, .descs, .ctxs, .hub, .out] ps = true)
    {s : State} (hs : Keeps ps s0 s) {s' : State} (e : execTimestampWrite seq s = .next s') : Keeps ps s0 s' := by
  unfold execTimestampWrite at e
  refine Keeps.next ?_ e
  split
  · refine Keeps.ite ?_ ?_
    · exact hs
    · refine timestampWrite_keeps hl ?_
      exact hs
  · exact hs

theorem energyQuery_keeps {q : ℕ}
    (hl : Parts.le [.hostMem, .mem, .reports, .acct, .free, .regs, .bad, .descs, .rings, .ctxs, .hub, .out] ps = true)
    {s : State} (hs : Keeps ps s0 s) : Keeps ps s0 (energyQuery q s) := by
  unfold energyQuery
  split
  · extract_lets +onlyGivenNames x1
    clear_value x1
    split
    · rename_i y2 y3 y4
      have hy3 : Keeps ps s0 y3 := by
        refine Keeps.ofEqL y4 ?_
        refine State.hubWrite_keeps (Parts.le_trans rfl hl) ?_
        refine State.markStarted_keeps (Parts.le_trans rfl hl) ?_
        exact hs
      refine State.complete_keeps (Parts.le_trans rfl hl) ?_
      exact hy3
    · rename_i y5 y6 y7
      have hy6 : Keeps ps s0 y6 := by
        refine Keeps.ofEqL y7 ?_
        refine State.hubWrite_keeps (Parts.le_trans rfl hl) ?_
        refine State.markStarted_keeps (Parts.le_trans rfl hl) ?_
        exact hs
      exact hy6
  · exact hs

theorem execEnergyQuery_keeps {r : RingId}
    (hl : Parts.le [.free, .mcs, .regs, .dies, .cores, .acct, .rings, .nextSeq, .descs, .arb, .hostMem, .mem,
      .reports, .bad, .ctxs, .hub, .out] ps = true) {s : State} (hs : Keeps ps s0 s) {s' : State}
    (e : execEnergyQuery r s = .next s') : Keeps ps s0 s' := by
  unfold execEnergyQuery at e
  refine Keeps.next ?_ e
  refine fetchAs_keeps hl ?_ ?_
  · intro a1 t2 ht3
    refine energyQuery_keeps (Parts.le_trans rfl hl) ?_
    exact ht3
  · exact hs

theorem bar4CtlWrite_keeps {val : W64} (hl : Parts.le [.regs] ps = true) {s : State} (hs : Keeps ps s0 s) : Keeps ps
    s0 (bar4CtlWrite val s) := by
  unfold bar4CtlWrite
  extract_lets +onlyGivenNames x1
  clear_value x1
  extract_lets +onlyGivenNames x2
  clear_value x2
  refine Keeps.ite ?_ ?_
  · exact hs
  · refine State.setReg_keeps hl ?_
    exact hs

theorem barResize_keeps {log2 : ℕ} (hl : Parts.le [.hub, .regs] ps = true) {s : State} (hs : Keeps ps s0 s) : Keeps ps
    s0 (barResize log2 s) := by
  unfold barResize
  refine Keeps.ite ?_ ?_
  · extract_lets +onlyGivenNames x1
    clear_value x1
    extract_lets +onlyGivenNames x2
    have hx2 : Keeps ps s0 x2 := by
      subst x2
      refine Keeps.upd [.hub] (Parts.le_trans rfl hl) rfl rfl ?_
      exact hs
    clear_value x2
    extract_lets +onlyGivenNames x3
    clear_value x3
    refine State.setRegFld_keeps (Parts.le_trans rfl hl) ?_
    exact hx2
  · exact hs

theorem bar4Read_keeps {off : ℕ} {len : ℕ} {ce : List ℕ}
    (hl : Parts.le [.out, .regs, .mcs, .dies, .cores, .acct] ps = true) {s : State} (hs : Keeps ps s0 s) : Keeps ps s0
    (bar4Read off len ce s) := by
  unfold bar4Read
  extract_lets +onlyGivenNames x1
  clear_value x1
  refine Keeps.ite ?_ ?_
  · refine State.emit_keeps _ (Parts.le_trans rfl hl) ?_
    refine State.bump_keeps (Parts.le_trans rfl hl) ?_
    exact hs
  · split
    · refine State.emit_keeps _ (Parts.le_trans rfl hl) ?_
      refine State.countUe_keeps (Parts.le_trans rfl hl) ?_
      exact hs
    · refine State.emit_keeps _ (Parts.le_trans rfl hl) ?_
      refine State.readCe_keeps (Parts.le_trans rfl hl) ?_
      refine State.countBytes_keeps (Parts.le_trans rfl hl) ?_
      exact hs

theorem bar4Write_keeps {off : ℕ} {bs : List Byte}
    (hl : Parts.le [.regs, .reports, .free, .mem, .acct, .bad] ps = true) {s : State} (hs : Keeps ps s0 s) : Keeps ps
    s0 (bar4Write off bs s) := by
  unfold bar4Write
  extract_lets +onlyGivenNames x1
  clear_value x1
  extract_lets +onlyGivenNames x2
  clear_value x2
  refine Keeps.ite ?_ ?_
  · refine State.bump_keeps (Parts.le_trans rfl hl) ?_
    exact hs
  · split
    · refine State.bump_keeps (Parts.le_trans rfl hl) ?_
      exact hs
    · split
      · refine State.illegal_keeps (Parts.le_trans rfl hl) ?_
        exact hs
      · refine State.raise_keeps (Parts.le_trans rfl hl) ?_
        exact hs
      · exact hs
      · refine State.putBytes_keeps (Parts.le_trans rfl hl) ?_
        exact hs

theorem scrubRead_keeps {d : Die} {m : Mc} {addr : ℕ} {found : ScrubFind}
    (hl : Parts.le [.acct, .mcs, .regs, .bad] ps = true) {s : State} (hs : Keeps ps s0 s) : Keeps ps s0
    (scrubRead d m addr found s) := by
  unfold scrubRead
  extract_lets +onlyGivenNames x1
  clear_value x1
  extract_lets +onlyGivenNames x2
  have hx2 : Keeps ps s0 x2 := by
    subst x2
    refine State.account_keeps (Parts.le_trans rfl hl) ?_
    exact hs
  clear_value x2
  extract_lets +onlyGivenNames x3
  clear_value x3
  extract_lets +onlyGivenNames x4
  have hx4 : Keeps ps s0 x4 := by
    subst x4
    refine State.countUe_keeps (Parts.le_trans rfl hl) ?_
    exact hx2
  clear_value x4
  extract_lets +onlyGivenNames x5
  have hx5 : Keeps ps s0 x5 := by
    subst x5
    split
    · exact hx2
    · refine State.countHbmCe_keeps (Parts.le_trans rfl hl) ?_
      exact hx2
    · refine Keeps.upd [.bad] (Parts.le_trans rfl hl) rfl rfl ?_
      exact hx4
  clear_value x5
  extract_lets +onlyGivenNames x6
  clear_value x6
  extract_lets +onlyGivenNames x7
  have hx7 : Keeps ps s0 x7 := by
    subst x7
    refine State.modMc_keeps (Parts.le_trans rfl hl) ?_
    exact hx5
  clear_value x7
  refine Keeps.ite ?_ ?_
  · exact hx7
  · refine State.modMc_keeps (Parts.le_trans rfl hl) ?_
    refine State.bump_keeps (Parts.le_trans rfl hl) ?_
    exact hx7

theorem execScrubRead_keeps {d : Die} {m : Mc} {block : ℕ} {word : Fin 8} {found : ScrubFind}
    (hl : Parts.le [.acct, .mcs, .regs, .bad] ps = true) {s : State} (hs : Keeps ps s0 s) {s' : State}
    (e : execScrubRead d m block word found s = .next s') : Keeps ps s0 s' := by
  unfold execScrubRead at e
  refine Keeps.next ?_ e
  refine Keeps.ite ?_ ?_
  · refine scrubRead_keeps hl ?_
    exact hs
  · exact hs

theorem State.startMig_keeps {d : Die} {m : Mc} {isBank : Bool} {key : ℕ} (hl : Parts.le [.mcs, .regs] ps = true)
    {s : State} (hs : Keeps ps s0 s) : Keeps ps s0 (State.startMig s d m isBank key) := by
  unfold State.startMig
  refine State.modMc_keeps (Parts.le_trans rfl hl) ?_
  refine State.setReg_keeps (Parts.le_trans rfl hl) ?_
  exact hs

theorem rowRetire_keeps {d : Die} {m : Mc} {row : RowId}
    (hl : Parts.le [.mcs, .regs, .store, .free, .hub, .out] ps = true) {s : State} (hs : Keeps ps s0 s) : Keeps ps s0
    (rowRetire d m row s) := by
  unfold rowRetire
  refine Keeps.ite ?_ ?_
  · refine State.startMig_keeps (Parts.le_trans rfl hl) ?_
    exact hs
  · extract_lets +onlyGivenNames x1
    have hx1 : Keeps ps s0 x1 := by
      subst x1
      refine State.setRegFld_keeps (Parts.le_trans rfl hl) ?_
      exact hs
    clear_value x1
    refine State.degraded_keeps (Parts.le_trans rfl hl) ?_
    exact hx1

theorem execRowRetire_keeps {d : Die} {m : Mc} {row : RowId}
    (hl : Parts.le [.mcs, .regs, .store, .free, .hub, .out] ps = true) {s : State} (hs : Keeps ps s0 s) {s' : State}
    (e : execRowRetire d m row s = .next s') : Keeps ps s0 s' := by
  unfold execRowRetire at e
  refine Keeps.next ?_ e
  refine Keeps.ite ?_ ?_
  · refine rowRetire_keeps hl ?_
    exact hs
  · exact hs

theorem State.saveHbmMap_keeps {d : Die} {m : Mc} (hl : Parts.le [.store] ps = true) {s : State} (hs : Keeps ps s0 s)
    : Keeps ps s0 (State.saveHbmMap s d m) := by
  unfold State.saveHbmMap
  extract_lets +onlyGivenNames x1
  clear_value x1
  extract_lets +onlyGivenNames x2
  clear_value x2
  extract_lets +onlyGivenNames x3
  clear_value x3
  refine Keeps.upd [.store] hl rfl rfl ?_
  exact hs

theorem migrationSwitch_keeps {d : Die} {m : Mc} {isBank : Bool} {key : ℕ}
    (hl : Parts.le [.regs, .acct, .mcs, .store, .trcTok, .free, .mem, .bad, .trcSeq, .trcDrop, .hub, .out] ps = true)
    {s : State} (hs : Keeps ps s0 s) : Keeps ps s0 (migrationSwitch d m isBank key s) := by
  unfold migrationSwitch
  extract_lets +onlyGivenNames x1
  have hx1 : Keeps ps s0 x1 := by
    subst x1
    refine Keeps.foldl ?_ (fun t4 a2 ht3 => ?_)
    · exact hs
    · refine State.countUe_keeps (Parts.le_trans rfl hl) ?_
      exact ht3
  clear_value x1
  extract_lets +onlyGivenNames x5
  have hx5 : Keeps ps s0 x5 := by
    subst x5
    refine State.account_keeps (Parts.le_trans rfl hl) ?_
    exact hx1
  clear_value x5
  extract_lets +onlyGivenNames x6
  have hx6 : Keeps ps s0 x6 := by
    subst x6
    refine State.modMc_keeps (Parts.le_trans rfl hl) ?_
    refine State.setReg_keeps (Parts.le_trans rfl hl) ?_
    exact hx5
  clear_value x6
  extract_lets +onlyGivenNames x7
  clear_value x7
  extract_lets +onlyGivenNames x8
  clear_value x8
  refine Keeps.ite ?_ ?_
  · extract_lets +onlyGivenNames x9
    clear_value x9
    extract_lets +onlyGivenNames x10
    have hx10 : Keeps ps s0 x10 := by
      subst x10
      refine State.setRegFld_keeps (Parts.le_trans rfl hl) ?_
      exact hx6
    clear_value x10
    extract_lets +onlyGivenNames x11
    have hx11 : Keeps ps s0 x11 := by
      subst x11
      refine State.setRegFld_keeps (Parts.le_trans rfl hl) ?_
      exact hx10
    clear_value x11
    extract_lets +onlyGivenNames x12
    have hx12 : Keeps ps s0 x12 := by
      subst x12
      refine State.modMc_keeps (Parts.le_trans rfl hl) ?_
      exact hx11
    clear_value x12
    refine State.saveHbmMap_keeps (Parts.le_trans rfl hl) ?_
    refine State.repairedAt_keeps (Parts.le_trans rfl hl) ?_
    exact hx12
  · extract_lets +onlyGivenNames x13
    clear_value x13
    extract_lets +onlyGivenNames x14
    clear_value x14
    extract_lets +onlyGivenNames x15
    have hx15 : Keeps ps s0 x15 := by
      subst x15
      refine State.setRegFld_keeps (Parts.le_trans rfl hl) ?_
      exact hx6
    clear_value x15
    extract_lets +onlyGivenNames x16
    have hx16 : Keeps ps s0 x16 := by
      subst x16
      refine State.modMc_keeps (Parts.le_trans rfl hl) ?_
      exact hx15
    clear_value x16
    extract_lets +onlyGivenNames x17
    have hx17 : Keeps ps s0 x17 := by
      subst x17
      refine State.saveHbmMap_keeps (Parts.le_trans rfl hl) ?_
      refine State.repairedAt_keeps (Parts.le_trans rfl hl) ?_
      exact hx16
    clear_value x17
    refine Keeps.ite ?_ ?_
    · refine State.startMig_keeps (Parts.le_trans rfl hl) ?_
      exact hx17
    · exact hx17

theorem execMigrationSwitch_keeps {d : Die} {m : Mc}
    (hl : Parts.le [.regs, .acct, .mcs, .store, .trcTok, .free, .mem, .bad, .trcSeq, .trcDrop, .hub, .out] ps = true)
    {s : State} (hs : Keeps ps s0 s) {s' : State} (e : execMigrationSwitch d m s = .next s') : Keeps ps s0 s' := by
  unfold execMigrationSwitch at e
  refine Keeps.next ?_ e
  split
  · refine Keeps.ite ?_ ?_
    · refine migrationSwitch_keeps hl ?_
      exact hs
    · exact hs
  · exact hs

theorem hbmLaneRepair_keeps {d : Die} {m : Mc} {pc : Fin 32} {lane : ℕ}
    (hl : Parts.le [.mcs, .regs, .store, .trcTok, .free, .mem, .acct, .bad, .trcSeq, .trcDrop, .hub, .out] ps = true)
    {s : State} (hs : Keeps ps s0 s) : Keeps ps s0 (hbmLaneRepair d m pc lane s) := by
  unfold hbmLaneRepair
  extract_lets +onlyGivenNames x1
  clear_value x1
  refine Keeps.ite ?_ ?_
  · extract_lets +onlyGivenNames x2
    have hx2 : Keeps ps s0 x2 := by
      subst x2
      refine State.modMc_keeps (Parts.le_trans rfl hl) ?_
      exact hs
    clear_value x2
    extract_lets +onlyGivenNames x3
    have hx3 : Keeps ps s0 x3 := by
      subst x3
      refine State.setRegFld_keeps (Parts.le_trans rfl hl) ?_
      exact hx2
    clear_value x3
    refine State.saveHbmMap_keeps (Parts.le_trans rfl hl) ?_
    refine State.repaired_keeps (Parts.le_trans rfl hl) ?_
    exact hx3
  · extract_lets +onlyGivenNames x4
    have hx4 : Keeps ps s0 x4 := by
      subst x4
      refine State.setRegFld_keeps (Parts.le_trans rfl hl) ?_
      exact hs
    clear_value x4
    extract_lets +onlyGivenNames x5
    have hx5 : Keeps ps s0 x5 := by
      subst x5
      refine State.bumpSat_keeps (Parts.le_trans rfl hl) ?_
      exact hx4
    clear_value x5
    refine State.degraded_keeps (Parts.le_trans rfl hl) ?_
    exact hx5

theorem execHbmLaneRepair_keeps {d : Die} {m : Mc} {pc : Fin 32} {lane : ℕ}
    (hl : Parts.le [.mcs, .regs, .store, .trcTok, .free, .mem, .acct, .bad, .trcSeq, .trcDrop, .hub, .out] ps = true)
    {s : State} (hs : Keeps ps s0 s) {s' : State} (e : execHbmLaneRepair d m pc lane s = .next s') : Keeps ps s0 s' :=
    by
  unfold execHbmLaneRepair at e
  refine Keeps.next ?_ e
  refine Keeps.ite ?_ ?_
  · refine hbmLaneRepair_keeps hl ?_
    exact hs
  · exact hs

theorem pcRetrain_keeps {d : Die} {m : Mc} {pc : Fin 32} (hl : Parts.le [.regs] ps = true) {s : State}
    (hs : Keeps ps s0 s) : Keeps ps s0 (pcRetrain d m pc s) := by
  unfold pcRetrain
  refine State.modReg_keeps hl ?_
  exact hs

theorem execPcRetrain_keeps {d : Die} {m : Mc} {pc : Fin 32} (hl : Parts.le [.regs] ps = true) {s : State}
    (hs : Keeps ps s0 s) {s' : State} (e : execPcRetrain d m pc s = .next s') : Keeps ps s0 s' := by
  unfold execPcRetrain at e
  refine Keeps.next ?_ e
  refine Keeps.ite ?_ ?_
  · refine pcRetrain_keeps hl ?_
    exact hs
  · exact hs

theorem pcRetrainDone_keeps {d : Die} {m : Mc} (hl : Parts.le [.mcs, .regs] ps = true) {s : State}
    (hs : Keeps ps s0 s) : Keeps ps s0 (pcRetrainDone d m s) := by
  unfold pcRetrainDone
  extract_lets +onlyGivenNames x1
  clear_value x1
  extract_lets +onlyGivenNames x2
  have hx2 : Keeps ps s0 x2 := by
    subst x2
    refine State.modMc_keeps (Parts.le_trans rfl hl) ?_
    exact hs
  clear_value x2
  refine State.bump_keeps (Parts.le_trans rfl hl) ?_
  refine State.modReg_keeps (Parts.le_trans rfl hl) ?_
  exact hx2

theorem execPcRetrainDone_keeps {d : Die} {m : Mc} (hl : Parts.le [.mcs, .regs] ps = true) {s : State}
    (hs : Keeps ps s0 s) {s' : State} (e : execPcRetrainDone d m s = .next s') : Keeps ps s0 s' := by
  unfold execPcRetrainDone at e
  refine Keeps.next ?_ e
  refine Keeps.ite ?_ ?_
  · refine pcRetrainDone_keeps hl ?_
    exact hs
  · exact hs

/-! ### Operands -/

theorem State.putElem_keeps {l' : Loc} {i : ℕ} {j : ℕ} {c : ℕ} (hl : Parts.le [.mem] ps = true) {s : State}
    (hs : Keeps ps s0 s) : Keeps ps s0 (State.putElem s l' i j c) := by
  unfold State.putElem
  split
  refine Keeps.ite ?_ ?_
  · refine State.devWrite_keeps _ _ hl ?_
    exact hs
  · refine Keeps.ite ?_ ?_
    · refine State.devWrite_keeps _ _ hl ?_
      exact hs
    · refine State.devWrite_keeps _ _ hl ?_
      exact hs

theorem State.putRow_keeps {l' : Loc} {i : ℕ} {j : ℕ} {a4 : List ℕ} (hl : Parts.le [.mem] ps = true) {s : State}
    (hs : Keeps ps s0 s) : Keeps ps s0 (State.putRow s l' i j a4) := by
  induction a4 generalizing s l' i j with
  | nil =>
    unfold State.putRow
    exact hs
  | cons b rest ih =>
    unfold State.putRow
    apply ih
    refine State.putElem_keeps hl ?_
    exact hs

theorem State.putRows_keeps {l' : Loc} {i : ℕ} {a3 : List (List ℕ)} (hl : Parts.le [.mem] ps = true) {s : State}
    (hs : Keeps ps s0 s) : Keeps ps s0 (State.putRows s l' i a3) := by
  induction a3 generalizing s l' i with
  | nil =>
    unfold State.putRows
    exact hs
  | cons b rest ih =>
    unfold State.putRows
    apply ih
    refine State.putRow_keeps hl ?_
    exact hs

theorem State.putScales_keeps {l' : Loc} {i : ℕ} {a3 : List (List ℕ)} (hl : Parts.le [.mem] ps = true) {s : State}
    (hs : Keeps ps s0 s) : Keeps ps s0 (State.putScales s l' i a3) := by
  induction a3 generalizing s l' i with
  | nil =>
    unfold State.putScales
    exact hs
  | cons b rest ih =>
    unfold State.putScales
    apply ih
    refine State.devWrite_keeps _ _ hl ?_
    exact hs

end Sys2Proof.Machine
end

