-- ==== Sys2Proof/Laws/Counted.lean ====
section
/-! SUPPORT. What a read of memory that counts can change (Counted of Safety.lean). -/

namespace Sys2Proof

open Machine

theorem Counted.refl (s : State) : Counted s s := ⟨rfl, fun _ _ _ _ _ => rfl, fun _ => rfl, fun _ _ => rfl, fun _ _ => rfl⟩

theorem Counted.trans {s t u : State} (h : Counted s t) (k : Counted t u) : Counted s u := by
  refine ⟨?_, fun q d i j a => (k.reg q d i j a).trans (h.reg q d i j a), fun d => ?_, fun d m => ?_, fun d p => ?_⟩
  · conv_lhs => rw [k.same, h.same]
  · rw [k.die d, h.die d]
  · rw [k.mc d m, h.mc d m]
  · rw [k.core d p, h.core d p]

theorem Counted.foldl {α : Type} {f : State → α → State} (l : List α) (s : State) (hf : ∀ t a, Counted t (f t a)) :
    Counted s (l.foldl f s) := by
  induction l generalizing s with
  | nil => exact Counted.refl s
  | cons a l ih => exact (hf s a).trans (ih _)

/-- A read counter goes on by a number. -/
theorem Counted.bump (s : State) {c : RegId} (hc : c ∈ readCounters) (d i k : Nat) : Counted s (s.bump c d i k) :=
  ⟨rfl, fun _ _ _ _ h => State.setReg_other _ _ (h c hc d i), fun _ => rfl, fun _ _ => rfl, fun _ _ => rfl⟩

theorem Counted.account (s : State) (key v : Nat) : Counted s (s.account key v) :=
  ⟨rfl, fun _ _ _ _ _ => rfl, fun _ => rfl, fun _ _ => rfl, fun _ _ => rfl⟩

theorem Counted.modMc (s : State) (d : Die) (m : Mc) (f : McSt → McSt) (hf : ∀ x, f x = { x with ceTimes := (f x).ceTimes }) :
    Counted s (s.modMc d m f) := by
  refine ⟨rfl, fun _ _ _ _ _ => rfl, fun _ => rfl, fun e k => ?_, fun _ _ => rfl⟩
  unfold State.modMc State.mc
  by_cases h : 4 * e.val + k.val = 4 * d.val + m.val
  · simp only [h, SMap.getD_put_self]
    exact hf _
  · simp only [SMap.getD_put_other _ _ _ h]

theorem Counted.modDie (s : State) (d : Die) (f : DieSt → DieSt) (hf : ∀ x, f x = { x with galCe := (f x).galCe }) :
    Counted s (s.modDie d f) := by
  refine ⟨rfl, fun _ _ _ _ _ => rfl, fun e => ?_, fun _ _ => rfl, fun _ _ => rfl⟩
  unfold State.modDie State.die
  by_cases h : e.val = d.val
  · simp only [h, SMap.getD_put_self]
    exact hf _
  · simp only [SMap.getD_put_other _ _ _ h]

theorem Counted.modCore (s : State) (d : Die) (p : PCore) (f : Core → Core)
    (hf : ∀ x, f x = { x with ceTimes := (f x).ceTimes }) : Counted s (s.modCore d p f) := by
  refine ⟨rfl, fun _ _ _ _ _ => rfl, fun _ => rfl, fun _ _ => rfl, fun e k => ?_⟩
  unfold State.modCore State.core
  by_cases h : 32 * e.val + k.val = 32 * d.val + p.val
  · simp only [h, SMap.getD_put_self]
    exact hf _
  · simp only [SMap.getD_put_other _ _ _ h]

theorem Counted.draw (s : State) : Counted s { s with free := s.free + 1 } :=
  ⟨rfl, fun _ _ _ _ _ => rfl, fun _ => rfl, fun _ _ => rfl, fun _ _ => rfl⟩

theorem countBytes_counted (s : State) (a len : Nat) : Counted s (s.countBytes false a len) := by
  unfold State.countBytes
  by_cases h1 : len = 0
  · rw [if_pos h1]; exact Counted.refl s
  · rw [if_neg h1]
    by_cases h2 : inHbm a = true
    · rw [if_pos h2]
      exact Counted.foldl _ s fun t p => (Counted.bump t (c := .mcRdBytes) (by decide) _ _ _).trans (Counted.account _ _ _)
    · rw [if_neg h2]
      split
      · exact Counted.bump s (c := .galRdBytes) (by decide) _ _ _
      · exact Counted.refl s

theorem chargeBytes_counted (s : State) (n : CtxId) (src : Option Die) (a len : Nat) :
    Counted s (s.chargeBytes n src a len) := by
  unfold State.chargeBytes
  split_ifs
  · exact Counted.foldl _ s fun t p => Counted.account _ _ _
  · exact Counted.refl s

theorem countHbmCe_counted (s : State) (a : Nat) : Counted s (s.countHbmCe a) := by
  unfold State.countHbmCe
  dsimp only
  refine Counted.trans ?_ (Counted.modMc _ _ _ _ fun _ => rfl)
  exact Counted.bump s (c := .mcEccCe) (by decide) _ _ _

theorem countGalCe_counted (s : State) (g off : Nat) : Counted s (s.countGalCe g off) :=
  Counted.trans (Counted.bump s (c := .galEccCe) (by decide) _ _ _) (Counted.modDie _ _ _ fun _ => rfl)

theorem countCoreCe_counted (s : State) (d : Die) (p : PCore) (off : Nat) : Counted s (s.countCoreCe d p off) :=
  Counted.trans (Counted.bump s (c := .coreEccCe) (by decide) _ _ _) (Counted.modCore _ _ _ _ fun _ => rfl)

theorem countCeAt_counted (s : State) (a : Nat) : Counted s (s.countCeAt a) := by
  unfold State.countCeAt
  by_cases h : inHbm a = true
  · rw [if_pos h]; exact countHbmCe_counted s a
  · rw [if_neg h]
    split
    · exact countGalCe_counted s _ _
    · exact countCoreCe_counted s _ _ _
    · exact Counted.refl s

theorem countCes_counted (s : State) (runs : List (Nat × Nat)) (ce : List Nat) : Counted s (s.countCes runs ce) :=
  Counted.foldl _ s countCeAt_counted

theorem freeCe_counted (s : State) (a len : Nat) : Counted s (s.freeCe a len) := by
  unfold State.freeCe
  split
  · exact Counted.refl s
  · exact (Counted.draw s).trans (Counted.foldl _ _ countCeAt_counted)

/-- A read that the hub or an engine makes counts, and does nothing else. -/
theorem jobRead_counted (s : State) (n : CtxId) (src : Option Die) (a len : Nat) : Counted s (s.jobRead n src a len) :=
  ((countBytes_counted s a len).trans (chargeBytes_counted _ n src a len)).trans (freeCe_counted _ a len)

/-- No Gallery window holds a host address. -/
theorem galOf_host {a : Nat} (h : isHost a = true) : galOf a = none := by
  unfold isHost at h
  unfold galOf
  rw [decide_eq_true_eq] at h
  split_ifs <;> first | rfl | omega

theorem inHbm_host {a : Nat} (h : isHost a = true) : inHbm a = false := by
  unfold isHost at h
  unfold inHbm
  rw [decide_eq_true_eq] at h
  rw [decide_eq_false_iff_not]
  omega

/-- A read of host memory counts nothing. -/
theorem jobRead_host (s : State) (n : CtxId) (src : Option Die) {a : Nat} (len : Nat) (h : isHost a = true) :
    s.jobRead n src a len = s := by
  have h1 := inHbm_host h
  have h2 := galOf_host h
  have e1 : s.countBytes false a len = s := by unfold State.countBytes; rw [h1, h2]; exact ite_self s
  have e2 : s.chargeBytes n src a len = s := by unfold State.chargeBytes; rw [h1]; rfl
  have e3 : eccLines a len = [] := by
    unfold eccLines; rw [h1, h2]; simp
  unfold State.jobRead
  rw [e1, e2]
  unfold State.freeCe
  rw [e3]

/-- Registers of the module's own block are no read counters. -/
theorem Counted.hubReg {s t : State} (h : Counted s t) {q : RegId} {d i j : Nat} (hq : q.off d i j < 0x100000) :
    t.reg q d i j = s.reg q d i j := by
  refine h.reg q d i j fun c hc e k he => ?_
  simp only [readCounters, List.mem_cons, List.not_mem_nil, or_false] at hc
  rw [he] at hq
  rcases hc with rfl | rfl | rfl | rfl | rfl <;> simp only [RegId.off, RegId.row, if_true] at hq <;> omega

end Sys2Proof
end

