-- ==== Sys2Proof/Laws/Fields.lean ====
section
/-! SUPPORT. Reading a field of a register value back after a field of it was set. -/

namespace Sys2Proof.Machine

theorem parts_eq (x p q : Nat) : x = x / (p * q) * (p * q) + x / p % q * p + x % p := by
  have h1 : x = x / p * p + x % p := (Nat.div_add_mod' x p).symm
  have h2 : x / p = x / p / q * q + x / p % q := (Nat.div_add_mod' (x / p) q).symm
  have h3 : x / (p * q) = x / p / q := (Nat.div_div_eq_div_mul x p q).symm
  rw [h3]
  conv_lhs => rw [h1, h2]
  rw [Nat.add_mul, Nat.mul_assoc, Nat.mul_comm q p]

/-- A value with a field replaced, by the parts above, in and below the field. -/
theorem setBits_eq (x hi lo v : Nat) :
    setBits x hi lo v = x / (2 ^ lo * 2 ^ (hi + 1 - lo)) * (2 ^ lo * 2 ^ (hi + 1 - lo)) +
      v % 2 ^ (hi + 1 - lo) * 2 ^ lo + x % 2 ^ lo := by
  have h := parts_eq x (2 ^ lo) (2 ^ (hi + 1 - lo))
  unfold setBits bits
  omega

theorem setBits_lt {x hi lo v : Nat} (hl : lo ≤ hi) (hh : hi < 64) (hx : x < 2 ^ 64) : setBits x hi lo v < 2 ^ 64 := by
  rw [setBits_eq]
  have hw : 2 ^ lo * 2 ^ (hi + 1 - lo) = 2 ^ (hi + 1) := by rw [← pow_add]; congr 1; omega
  rw [hw]
  have hp : 0 < 2 ^ lo := Nat.two_pow_pos _
  have h1 : v % 2 ^ (hi + 1 - lo) * 2 ^ lo + x % 2 ^ lo < 2 ^ (hi + 1) := by
    have a := Nat.mod_lt v (Nat.two_pow_pos (hi + 1 - lo))
    have b := Nat.mod_lt x hp
    have c : (v % 2 ^ (hi + 1 - lo) + 1) * 2 ^ lo ≤ 2 ^ (hi + 1 - lo) * 2 ^ lo := Nat.mul_le_mul_right _ a
    rw [Nat.mul_comm (2 ^ (hi + 1 - lo)), hw, Nat.add_mul, Nat.one_mul] at c
    omega
  have h2 : (2 : Nat) ^ 64 = 2 ^ (64 - (hi + 1)) * 2 ^ (hi + 1) := by rw [← pow_add]; congr 1; omega
  have h3 : x / 2 ^ (hi + 1) < 2 ^ (64 - (hi + 1)) := by
    rw [Nat.div_lt_iff_lt_mul (Nat.two_pow_pos _), ← h2]; exact hx
  have h4 : (x / 2 ^ (hi + 1) + 1) * 2 ^ (hi + 1) ≤ 2 ^ (64 - (hi + 1)) * 2 ^ (hi + 1) := Nat.mul_le_mul_right _ h3
  rw [← h2, Nat.add_mul, Nat.one_mul] at h4
  omega

/-- A field just set reads as what was stored. -/
theorem fld_setFld_self (v : W64) {hi lo x : Nat} (hl : lo ≤ hi) (hh : hi < 64) (hx : x < 2 ^ (hi + 1 - lo)) :
    fld (setFld v hi lo x) hi lo = x := by
  unfold fld setFld
  rw [BitVec.toNat_ofNat, Nat.mod_eq_of_lt (setBits_lt hl hh v.isLt), setBits_eq]
  unfold bits
  have hp : 0 < 2 ^ lo := Nat.two_pow_pos _
  have hb : v.toNat % 2 ^ lo < 2 ^ lo := Nat.mod_lt _ hp
  have : (v.toNat / (2 ^ lo * 2 ^ (hi + 1 - lo)) * (2 ^ lo * 2 ^ (hi + 1 - lo)) + x % 2 ^ (hi + 1 - lo) * 2 ^ lo +
      v.toNat % 2 ^ lo) = (v.toNat / (2 ^ lo * 2 ^ (hi + 1 - lo)) * 2 ^ (hi + 1 - lo) + x % 2 ^ (hi + 1 - lo)) * 2 ^ lo +
      v.toNat % 2 ^ lo := by ring
  rw [this, Nat.add_comm, Nat.add_mul_div_right _ _ hp, Nat.div_eq_of_lt hb, Nat.zero_add, Nat.add_comm,
    Nat.add_mul_mod_self_right, Nat.mod_mod, Nat.mod_eq_of_lt hx]

/-- A field above or below the one set reads as before. -/
theorem fld_setFld_other (v : W64) {hi lo x hi' lo' : Nat} (hl : lo ≤ hi) (hh : hi < 64)
    (h : hi' < lo ∨ hi < lo') (hl' : lo' ≤ hi') : fld (setFld v hi lo x) hi' lo' = fld v hi' lo' := by
  unfold fld setFld
  rw [BitVec.toNat_ofNat, Nat.mod_eq_of_lt (setBits_lt hl hh v.isLt)]
  generalize v.toNat = n
  have hw : 2 ^ lo * 2 ^ (hi + 1 - lo) = 2 ^ (hi + 1) := by rw [← pow_add]; congr 1; omega
  rw [setBits_eq, hw]
  have hp : 0 < 2 ^ lo := Nat.two_pow_pos _
  rcases h with h | h
  · -- below: both agree modulo 2 ^ lo
    have key : ∀ m, bits m hi' lo' = bits (m % 2 ^ lo) hi' lo' := by
      intro m
      unfold bits
      have e : 2 ^ lo = 2 ^ lo' * 2 ^ (lo - lo') := by rw [← pow_add]; congr 1; omega
      have e2 : 2 ^ (lo - lo') = 2 ^ (hi' + 1 - lo') * 2 ^ (lo - (hi' + 1)) := by rw [← pow_add]; congr 1; omega
      rw [e, Nat.mod_mul_right_div_self, e2, Nat.mod_mul_right_mod]
    rw [key, key n]
    congr 1
    have e : 2 ^ (hi + 1) = 2 ^ (hi + 1 - lo) * 2 ^ lo := by rw [← pow_add]; congr 1; omega
    rw [e, ← Nat.mul_assoc, ← Nat.add_mul, Nat.add_comm, Nat.add_mul_mod_self_right, Nat.mod_mod]
  · -- above: both agree after division by 2 ^ (hi + 1)
    have key : ∀ m, bits m hi' lo' = (m / 2 ^ (hi + 1)) / 2 ^ (lo' - (hi + 1)) % 2 ^ (hi' + 1 - lo') := by
      intro m
      unfold bits
      rw [Nat.div_div_eq_div_mul, ← pow_add]
      congr 3; omega
    rw [key, key n]
    congr 2
    have h1 : x % 2 ^ (hi + 1 - lo) * 2 ^ lo + n % 2 ^ lo < 2 ^ (hi + 1) := by
      have a := Nat.mod_lt x (Nat.two_pow_pos (hi + 1 - lo))
      have b := Nat.mod_lt n hp
      have c : (x % 2 ^ (hi + 1 - lo) + 1) * 2 ^ lo ≤ 2 ^ (hi + 1 - lo) * 2 ^ lo := Nat.mul_le_mul_right _ a
      rw [Nat.mul_comm (2 ^ (hi + 1 - lo)), hw, Nat.add_mul, Nat.one_mul] at c
      omega
    rw [Nat.add_assoc, Nat.add_comm, Nat.add_mul_div_right _ _ (Nat.two_pow_pos _), Nat.div_eq_of_lt h1, Nat.zero_add]

end Sys2Proof.Machine
end

