-- ==== Sys2Proof/Laws/Reports.lean ====
section
/-! SUPPORT. What every family reports through leaves alone, one lemma a field. -/

namespace Sys2Proof.Machine

/-! ### anyWrite -/

/-- A write of host or device memory changes these parts only. -/
theorem State.anyWrite_within (s : State) (a : Nat) (bs : List Byte) :
    Within [.mem, .hostMem] s (s.anyWrite a bs) :=
  (State.anyWrite_keeps _ _ rfl (Keeps.refl _ s)).rest

@[simp] theorem State.anyWrite_pending (s : State) (a : Nat) (bs : List Byte) : (s.anyWrite a bs).pending = s.pending :=
  (State.anyWrite_within s a bs).pending rfl
@[simp] theorem State.anyWrite_out (s : State) (a : Nat) (bs : List Byte) : (s.anyWrite a bs).out = s.out :=
  (State.anyWrite_within s a bs).out rfl
@[simp] theorem State.anyWrite_free (s : State) (a : Nat) (bs : List Byte) : (s.anyWrite a bs).free = s.free :=
  (State.anyWrite_within s a bs).free rfl
@[simp] theorem State.anyWrite_now (s : State) (a : Nat) (bs : List Byte) : (s.anyWrite a bs).now = s.now :=
  (State.anyWrite_within s a bs).now rfl
@[simp] theorem State.anyWrite_regs (s : State) (a : Nat) (bs : List Byte) : (s.anyWrite a bs).regs = s.regs :=
  (State.anyWrite_within s a bs).regs rfl
@[simp] theorem State.anyWrite_latches (s : State) (a : Nat) (bs : List Byte) : (s.anyWrite a bs).latches = s.latches :=
  (State.anyWrite_within s a bs).latches rfl
@[simp] theorem State.anyWrite_bad (s : State) (a : Nat) (bs : List Byte) : (s.anyWrite a bs).bad = s.bad :=
  (State.anyWrite_within s a bs).bad rfl
@[simp] theorem State.anyWrite_scrambled (s : State) (a : Nat) (bs : List Byte) : (s.anyWrite a bs).scrambled = s.scrambled :=
  (State.anyWrite_within s a bs).scrambled rfl
@[simp] theorem State.anyWrite_held (s : State) (a : Nat) (bs : List Byte) : (s.anyWrite a bs).held = s.held :=
  (State.anyWrite_within s a bs).held rfl
@[simp] theorem State.anyWrite_regionMap (s : State) (a : Nat) (bs : List Byte) : (s.anyWrite a bs).regionMap = s.regionMap :=
  (State.anyWrite_within s a bs).regionMap rfl
@[simp] theorem State.anyWrite_commitBusy (s : State) (a : Nat) (bs : List Byte) : (s.anyWrite a bs).commitBusy = s.commitBusy :=
  (State.anyWrite_within s a bs).commitBusy rfl
@[simp] theorem State.anyWrite_fns (s : State) (a : Nat) (bs : List Byte) : (s.anyWrite a bs).fns = s.fns :=
  (State.anyWrite_within s a bs).fns rfl
@[simp] theorem State.anyWrite_ctxs (s : State) (a : Nat) (bs : List Byte) : (s.anyWrite a bs).ctxs = s.ctxs :=
  (State.anyWrite_within s a bs).ctxs rfl
@[simp] theorem State.anyWrite_rings (s : State) (a : Nat) (bs : List Byte) : (s.anyWrite a bs).rings = s.rings :=
  (State.anyWrite_within s a bs).rings rfl
@[simp] theorem State.anyWrite_nextSeq (s : State) (a : Nat) (bs : List Byte) : (s.anyWrite a bs).nextSeq = s.nextSeq :=
  (State.anyWrite_within s a bs).nextSeq rfl
@[simp] theorem State.anyWrite_descs (s : State) (a : Nat) (bs : List Byte) : (s.anyWrite a bs).descs = s.descs :=
  (State.anyWrite_within s a bs).descs rfl
@[simp] theorem State.anyWrite_plans (s : State) (a : Nat) (bs : List Byte) : (s.anyWrite a bs).plans = s.plans :=
  (State.anyWrite_within s a bs).plans rfl
@[simp] theorem State.anyWrite_chains (s : State) (a : Nat) (bs : List Byte) : (s.anyWrite a bs).chains = s.chains :=
  (State.anyWrite_within s a bs).chains rfl
@[simp] theorem State.anyWrite_disps (s : State) (a : Nat) (bs : List Byte) : (s.anyWrite a bs).disps = s.disps :=
  (State.anyWrite_within s a bs).disps rfl
@[simp] theorem State.anyWrite_switches (s : State) (a : Nat) (bs : List Byte) : (s.anyWrite a bs).switches = s.switches :=
  (State.anyWrite_within s a bs).switches rfl
@[simp] theorem State.anyWrite_recovery (s : State) (a : Nat) (bs : List Byte) : (s.anyWrite a bs).recovery = s.recovery :=
  (State.anyWrite_within s a bs).recovery rfl
@[simp] theorem State.anyWrite_reports (s : State) (a : Nat) (bs : List Byte) : (s.anyWrite a bs).reports = s.reports :=
  (State.anyWrite_within s a bs).reports rfl
@[simp] theorem State.anyWrite_arb (s : State) (a : Nat) (bs : List Byte) : (s.anyWrite a bs).arb = s.arb :=
  (State.anyWrite_within s a bs).arb rfl
@[simp] theorem State.anyWrite_cores (s : State) (a : Nat) (bs : List Byte) : (s.anyWrite a bs).cores = s.cores :=
  (State.anyWrite_within s a bs).cores rfl
@[simp] theorem State.anyWrite_dies (s : State) (a : Nat) (bs : List Byte) : (s.anyWrite a bs).dies = s.dies :=
  (State.anyWrite_within s a bs).dies rfl
@[simp] theorem State.anyWrite_credits (s : State) (a : Nat) (bs : List Byte) : (s.anyWrite a bs).credits = s.credits :=
  (State.anyWrite_within s a bs).credits rfl
@[simp] theorem State.anyWrite_colls (s : State) (a : Nat) (bs : List Byte) : (s.anyWrite a bs).colls = s.colls :=
  (State.anyWrite_within s a bs).colls rfl
@[simp] theorem State.anyWrite_combs (s : State) (a : Nat) (bs : List Byte) : (s.anyWrite a bs).combs = s.combs :=
  (State.anyWrite_within s a bs).combs rfl
@[simp] theorem State.anyWrite_arms (s : State) (a : Nat) (bs : List Byte) : (s.anyWrite a bs).arms = s.arms :=
  (State.anyWrite_within s a bs).arms rfl
@[simp] theorem State.anyWrite_hops (s : State) (a : Nat) (bs : List Byte) : (s.anyWrite a bs).hops = s.hops :=
  (State.anyWrite_within s a bs).hops rfl
@[simp] theorem State.anyWrite_streams (s : State) (a : Nat) (bs : List Byte) : (s.anyWrite a bs).streams = s.streams :=
  (State.anyWrite_within s a bs).streams rfl
@[simp] theorem State.anyWrite_dmaq (s : State) (a : Nat) (bs : List Byte) : (s.anyWrite a bs).dmaq = s.dmaq :=
  (State.anyWrite_within s a bs).dmaq rfl
@[simp] theorem State.anyWrite_mcs (s : State) (a : Nat) (bs : List Byte) : (s.anyWrite a bs).mcs = s.mcs :=
  (State.anyWrite_within s a bs).mcs rfl
@[simp] theorem State.anyWrite_frings (s : State) (a : Nat) (bs : List Byte) : (s.anyWrite a bs).frings = s.frings :=
  (State.anyWrite_within s a bs).frings rfl
@[simp] theorem State.anyWrite_ports (s : State) (a : Nat) (bs : List Byte) : (s.anyWrite a bs).ports = s.ports :=
  (State.anyWrite_within s a bs).ports rfl
@[simp] theorem State.anyWrite_fab (s : State) (a : Nat) (bs : List Byte) : (s.anyWrite a bs).fab = s.fab :=
  (State.anyWrite_within s a bs).fab rfl
@[simp] theorem State.anyWrite_hub (s : State) (a : Nat) (bs : List Byte) : (s.anyWrite a bs).hub = s.hub :=
  (State.anyWrite_within s a bs).hub rfl
@[simp] theorem State.anyWrite_store (s : State) (a : Nat) (bs : List Byte) : (s.anyWrite a bs).store = s.store :=
  (State.anyWrite_within s a bs).store rfl
@[simp] theorem State.anyWrite_meas (s : State) (a : Nat) (bs : List Byte) : (s.anyWrite a bs).meas = s.meas :=
  (State.anyWrite_within s a bs).meas rfl
@[simp] theorem State.anyWrite_spdmDoe (s : State) (a : Nat) (bs : List Byte) : (s.anyWrite a bs).spdmDoe = s.spdmDoe :=
  (State.anyWrite_within s a bs).spdmDoe rfl
@[simp] theorem State.anyWrite_spdmMctp (s : State) (a : Nat) (bs : List Byte) : (s.anyWrite a bs).spdmMctp = s.spdmMctp :=
  (State.anyWrite_within s a bs).spdmMctp rfl
@[simp] theorem State.anyWrite_boot (s : State) (a : Nat) (bs : List Byte) : (s.anyWrite a bs).boot = s.boot :=
  (State.anyWrite_within s a bs).boot rfl
@[simp] theorem State.anyWrite_fw (s : State) (a : Nat) (bs : List Byte) : (s.anyWrite a bs).fw = s.fw :=
  (State.anyWrite_within s a bs).fw rfl
@[simp] theorem State.anyWrite_ledgerFrac (s : State) (a : Nat) (bs : List Byte) : (s.anyWrite a bs).ledgerFrac = s.ledgerFrac :=
  (State.anyWrite_within s a bs).ledgerFrac rfl
@[simp] theorem State.anyWrite_trcSeq (s : State) (a : Nat) (bs : List Byte) : (s.anyWrite a bs).trcSeq = s.trcSeq :=
  (State.anyWrite_within s a bs).trcSeq rfl
@[simp] theorem State.anyWrite_trcDrop (s : State) (a : Nat) (bs : List Byte) : (s.anyWrite a bs).trcDrop = s.trcDrop :=
  (State.anyWrite_within s a bs).trcDrop rfl
@[simp] theorem State.anyWrite_trcTok (s : State) (a : Nat) (bs : List Byte) : (s.anyWrite a bs).trcTok = s.trcTok :=
  (State.anyWrite_within s a bs).trcTok rfl
@[simp] theorem State.anyWrite_busyNs (s : State) (a : Nat) (bs : List Byte) : (s.anyWrite a bs).busyNs = s.busyNs :=
  (State.anyWrite_within s a bs).busyNs rfl
@[simp] theorem State.anyWrite_acct (s : State) (a : Nat) (bs : List Byte) : (s.anyWrite a bs).acct = s.acct :=
  (State.anyWrite_within s a bs).acct rfl
@[simp] theorem State.anyWrite_ledgerQ (s : State) (a : Nat) (bs : List Byte) : (s.anyWrite a bs).ledgerQ = s.ledgerQ :=
  (State.anyWrite_within s a bs).ledgerQ rfl

/-! ### putBytes -/

/-- A device write that has been allowed changes these parts only. -/
theorem State.putBytes_within (s : State) (a : Nat) (bs : List Byte) :
    Within [.free, .mem, .acct, .regs, .bad] s (s.putBytes a bs) :=
  (State.putBytes_keeps rfl (Keeps.refl _ s)).rest

@[simp] theorem State.putBytes_pending (s : State) (a : Nat) (bs : List Byte) : (s.putBytes a bs).pending = s.pending :=
  (State.putBytes_within s a bs).pending rfl
@[simp] theorem State.putBytes_out (s : State) (a : Nat) (bs : List Byte) : (s.putBytes a bs).out = s.out :=
  (State.putBytes_within s a bs).out rfl
@[simp] theorem State.putBytes_now (s : State) (a : Nat) (bs : List Byte) : (s.putBytes a bs).now = s.now :=
  (State.putBytes_within s a bs).now rfl
@[simp] theorem State.putBytes_latches (s : State) (a : Nat) (bs : List Byte) : (s.putBytes a bs).latches = s.latches :=
  (State.putBytes_within s a bs).latches rfl
@[simp] theorem State.putBytes_hostMem (s : State) (a : Nat) (bs : List Byte) : (s.putBytes a bs).hostMem = s.hostMem :=
  (State.putBytes_within s a bs).hostMem rfl
@[simp] theorem State.putBytes_scrambled (s : State) (a : Nat) (bs : List Byte) : (s.putBytes a bs).scrambled = s.scrambled :=
  (State.putBytes_within s a bs).scrambled rfl
@[simp] theorem State.putBytes_held (s : State) (a : Nat) (bs : List Byte) : (s.putBytes a bs).held = s.held :=
  (State.putBytes_within s a bs).held rfl
@[simp] theorem State.putBytes_regionMap (s : State) (a : Nat) (bs : List Byte) : (s.putBytes a bs).regionMap = s.regionMap :=
  (State.putBytes_within s a bs).regionMap rfl
@[simp] theorem State.putBytes_commitBusy (s : State) (a : Nat) (bs : List Byte) : (s.putBytes a bs).commitBusy = s.commitBusy :=
  (State.putBytes_within s a bs).commitBusy rfl
@[simp] theorem State.putBytes_fns (s : State) (a : Nat) (bs : List Byte) : (s.putBytes a bs).fns = s.fns :=
  (State.putBytes_within s a bs).fns rfl
@[simp] theorem State.putBytes_ctxs (s : State) (a : Nat) (bs : List Byte) : (s.putBytes a bs).ctxs = s.ctxs :=
  (State.putBytes_within s a bs).ctxs rfl
@[simp] theorem State.putBytes_rings (s : State) (a : Nat) (bs : List Byte) : (s.putBytes a bs).rings = s.rings :=
  (State.putBytes_within s a bs).rings rfl
@[simp] theorem State.putBytes_nextSeq (s : State) (a : Nat) (bs : List Byte) : (s.putBytes a bs).nextSeq = s.nextSeq :=
  (State.putBytes_within s a bs).nextSeq rfl
@[simp] theorem State.putBytes_descs (s : State) (a : Nat) (bs : List Byte) : (s.putBytes a bs).descs = s.descs :=
  (State.putBytes_within s a bs).descs rfl
@[simp] theorem State.putBytes_plans (s : State) (a : Nat) (bs : List Byte) : (s.putBytes a bs).plans = s.plans :=
  (State.putBytes_within s a bs).plans rfl
@[simp] theorem State.putBytes_chains (s : State) (a : Nat) (bs : List Byte) : (s.putBytes a bs).chains = s.chains :=
  (State.putBytes_within s a bs).chains rfl
@[simp] theorem State.putBytes_disps (s : State) (a : Nat) (bs : List Byte) : (s.putBytes a bs).disps = s.disps :=
  (State.putBytes_within s a bs).disps rfl
@[simp] theorem State.putBytes_switches (s : State) (a : Nat) (bs : List Byte) : (s.putBytes a bs).switches = s.switches :=
  (State.putBytes_within s a bs).switches rfl
@[simp] theorem State.putBytes_recovery (s : State) (a : Nat) (bs : List Byte) : (s.putBytes a bs).recovery = s.recovery :=
  (State.putBytes_within s a bs).recovery rfl
@[simp] theorem State.putBytes_reports (s : State) (a : Nat) (bs : List Byte) : (s.putBytes a bs).reports = s.reports :=
  (State.putBytes_within s a bs).reports rfl
@[simp] theorem State.putBytes_arb (s : State) (a : Nat) (bs : List Byte) : (s.putBytes a bs).arb = s.arb :=
  (State.putBytes_within s a bs).arb rfl
@[simp] theorem State.putBytes_cores (s : State) (a : Nat) (bs : List Byte) : (s.putBytes a bs).cores = s.cores :=
  (State.putBytes_within s a bs).cores rfl
@[simp] theorem State.putBytes_dies (s : State) (a : Nat) (bs : List Byte) : (s.putBytes a bs).dies = s.dies :=
  (State.putBytes_within s a bs).dies rfl
@[simp] theorem State.putBytes_credits (s : State) (a : Nat) (bs : List Byte) : (s.putBytes a bs).credits = s.credits :=
  (State.putBytes_within s a bs).credits rfl
@[simp] theorem State.putBytes_colls (s : State) (a : Nat) (bs : List Byte) : (s.putBytes a bs).colls = s.colls :=
  (State.putBytes_within s a bs).colls rfl
@[simp] theorem State.putBytes_combs (s : State) (a : Nat) (bs : List Byte) : (s.putBytes a bs).combs = s.combs :=
  (State.putBytes_within s a bs).combs rfl
@[simp] theorem State.putBytes_arms (s : State) (a : Nat) (bs : List Byte) : (s.putBytes a bs).arms = s.arms :=
  (State.putBytes_within s a bs).arms rfl
@[simp] theorem State.putBytes_hops (s : State) (a : Nat) (bs : List Byte) : (s.putBytes a bs).hops = s.hops :=
  (State.putBytes_within s a bs).hops rfl
@[simp] theorem State.putBytes_streams (s : State) (a : Nat) (bs : List Byte) : (s.putBytes a bs).streams = s.streams :=
  (State.putBytes_within s a bs).streams rfl
@[simp] theorem State.putBytes_dmaq (s : State) (a : Nat) (bs : List Byte) : (s.putBytes a bs).dmaq = s.dmaq :=
  (State.putBytes_within s a bs).dmaq rfl
@[simp] theorem State.putBytes_mcs (s : State) (a : Nat) (bs : List Byte) : (s.putBytes a bs).mcs = s.mcs :=
  (State.putBytes_within s a bs).mcs rfl
@[simp] theorem State.putBytes_frings (s : State) (a : Nat) (bs : List Byte) : (s.putBytes a bs).frings = s.frings :=
  (State.putBytes_within s a bs).frings rfl
@[simp] theorem State.putBytes_ports (s : State) (a : Nat) (bs : List Byte) : (s.putBytes a bs).ports = s.ports :=
  (State.putBytes_within s a bs).ports rfl
@[simp] theorem State.putBytes_fab (s : State) (a : Nat) (bs : List Byte) : (s.putBytes a bs).fab = s.fab :=
  (State.putBytes_within s a bs).fab rfl
@[simp] theorem State.putBytes_hub (s : State) (a : Nat) (bs : List Byte) : (s.putBytes a bs).hub = s.hub :=
  (State.putBytes_within s a bs).hub rfl
@[simp] theorem State.putBytes_store (s : State) (a : Nat) (bs : List Byte) : (s.putBytes a bs).store = s.store :=
  (State.putBytes_within s a bs).store rfl
@[simp] theorem State.putBytes_meas (s : State) (a : Nat) (bs : List Byte) : (s.putBytes a bs).meas = s.meas :=
  (State.putBytes_within s a bs).meas rfl
@[simp] theorem State.putBytes_spdmDoe (s : State) (a : Nat) (bs : List Byte) : (s.putBytes a bs).spdmDoe = s.spdmDoe :=
  (State.putBytes_within s a bs).spdmDoe rfl
@[simp] theorem State.putBytes_spdmMctp (s : State) (a : Nat) (bs : List Byte) : (s.putBytes a bs).spdmMctp = s.spdmMctp :=
  (State.putBytes_within s a bs).spdmMctp rfl
@[simp] theorem State.putBytes_boot (s : State) (a : Nat) (bs : List Byte) : (s.putBytes a bs).boot = s.boot :=
  (State.putBytes_within s a bs).boot rfl
@[simp] theorem State.putBytes_fw (s : State) (a : Nat) (bs : List Byte) : (s.putBytes a bs).fw = s.fw :=
  (State.putBytes_within s a bs).fw rfl
@[simp] theorem State.putBytes_ledgerFrac (s : State) (a : Nat) (bs : List Byte) : (s.putBytes a bs).ledgerFrac = s.ledgerFrac :=
  (State.putBytes_within s a bs).ledgerFrac rfl
@[simp] theorem State.putBytes_trcSeq (s : State) (a : Nat) (bs : List Byte) : (s.putBytes a bs).trcSeq = s.trcSeq :=
  (State.putBytes_within s a bs).trcSeq rfl
@[simp] theorem State.putBytes_trcDrop (s : State) (a : Nat) (bs : List Byte) : (s.putBytes a bs).trcDrop = s.trcDrop :=
  (State.putBytes_within s a bs).trcDrop rfl
@[simp] theorem State.putBytes_trcTok (s : State) (a : Nat) (bs : List Byte) : (s.putBytes a bs).trcTok = s.trcTok :=
  (State.putBytes_within s a bs).trcTok rfl
@[simp] theorem State.putBytes_busyNs (s : State) (a : Nat) (bs : List Byte) : (s.putBytes a bs).busyNs = s.busyNs :=
  (State.putBytes_within s a bs).busyNs rfl
@[simp] theorem State.putBytes_ledgerQ (s : State) (a : Nat) (bs : List Byte) : (s.putBytes a bs).ledgerQ = s.ledgerQ :=
  (State.putBytes_within s a bs).ledgerQ rfl

/-! ### hubPut -/

/-- A status quadword or an event entry changes these parts only. -/
theorem State.hubPut_within (s : State) (n : CtxId) (a : Nat) (bs : List Byte) :
    Within [.hostMem, .mem, .reports, .acct, .free, .regs, .bad] s (s.hubPut n a bs) :=
  (State.hubPut_keeps rfl (Keeps.refl _ s)).rest

@[simp] theorem State.hubPut_pending (s : State) (n : CtxId) (a : Nat) (bs : List Byte) : (s.hubPut n a bs).pending = s.pending :=
  (State.hubPut_within s n a bs).pending rfl
@[simp] theorem State.hubPut_out (s : State) (n : CtxId) (a : Nat) (bs : List Byte) : (s.hubPut n a bs).out = s.out :=
  (State.hubPut_within s n a bs).out rfl
@[simp] theorem State.hubPut_now (s : State) (n : CtxId) (a : Nat) (bs : List Byte) : (s.hubPut n a bs).now = s.now :=
  (State.hubPut_within s n a bs).now rfl
@[simp] theorem State.hubPut_latches (s : State) (n : CtxId) (a : Nat) (bs : List Byte) : (s.hubPut n a bs).latches = s.latches :=
  (State.hubPut_within s n a bs).latches rfl
@[simp] theorem State.hubPut_scrambled (s : State) (n : CtxId) (a : Nat) (bs : List Byte) : (s.hubPut n a bs).scrambled = s.scrambled :=
  (State.hubPut_within s n a bs).scrambled rfl
@[simp] theorem State.hubPut_held (s : State) (n : CtxId) (a : Nat) (bs : List Byte) : (s.hubPut n a bs).held = s.held :=
  (State.hubPut_within s n a bs).held rfl
@[simp] theorem State.hubPut_regionMap (s : State) (n : CtxId) (a : Nat) (bs : List Byte) : (s.hubPut n a bs).regionMap = s.regionMap :=
  (State.hubPut_within s n a bs).regionMap rfl
@[simp] theorem State.hubPut_commitBusy (s : State) (n : CtxId) (a : Nat) (bs : List Byte) : (s.hubPut n a bs).commitBusy = s.commitBusy :=
  (State.hubPut_within s n a bs).commitBusy rfl
@[simp] theorem State.hubPut_fns (s : State) (n : CtxId) (a : Nat) (bs : List Byte) : (s.hubPut n a bs).fns = s.fns :=
  (State.hubPut_within s n a bs).fns rfl
@[simp] theorem State.hubPut_ctxs (s : State) (n : CtxId) (a : Nat) (bs : List Byte) : (s.hubPut n a bs).ctxs = s.ctxs :=
  (State.hubPut_within s n a bs).ctxs rfl
@[simp] theorem State.hubPut_rings (s : State) (n : CtxId) (a : Nat) (bs : List Byte) : (s.hubPut n a bs).rings = s.rings :=
  (State.hubPut_within s n a bs).rings rfl
@[simp] theorem State.hubPut_nextSeq (s : State) (n : CtxId) (a : Nat) (bs : List Byte) : (s.hubPut n a bs).nextSeq = s.nextSeq :=
  (State.hubPut_within s n a bs).nextSeq rfl
@[simp] theorem State.hubPut_descs (s : State) (n : CtxId) (a : Nat) (bs : List Byte) : (s.hubPut n a bs).descs = s.descs :=
  (State.hubPut_within s n a bs).descs rfl
@[simp] theorem State.hubPut_plans (s : State) (n : CtxId) (a : Nat) (bs : List Byte) : (s.hubPut n a bs).plans = s.plans :=
  (State.hubPut_within s n a bs).plans rfl
@[simp] theorem State.hubPut_chains (s : State) (n : CtxId) (a : Nat) (bs : List Byte) : (s.hubPut n a bs).chains = s.chains :=
  (State.hubPut_within s n a bs).chains rfl
@[simp] theorem State.hubPut_disps (s : State) (n : CtxId) (a : Nat) (bs : List Byte) : (s.hubPut n a bs).disps = s.disps :=
  (State.hubPut_within s n a bs).disps rfl
@[simp] theorem State.hubPut_switches (s : State) (n : CtxId) (a : Nat) (bs : List Byte) : (s.hubPut n a bs).switches = s.switches :=
  (State.hubPut_within s n a bs).switches rfl
@[simp] theorem State.hubPut_recovery (s : State) (n : CtxId) (a : Nat) (bs : List Byte) : (s.hubPut n a bs).recovery = s.recovery :=
  (State.hubPut_within s n a bs).recovery rfl
@[simp] theorem State.hubPut_arb (s : State) (n : CtxId) (a : Nat) (bs : List Byte) : (s.hubPut n a bs).arb = s.arb :=
  (State.hubPut_within s n a bs).arb rfl
@[simp] theorem State.hubPut_cores (s : State) (n : CtxId) (a : Nat) (bs : List Byte) : (s.hubPut n a bs).cores = s.cores :=
  (State.hubPut_within s n a bs).cores rfl
@[simp] theorem State.hubPut_dies (s : State) (n : CtxId) (a : Nat) (bs : List Byte) : (s.hubPut n a bs).dies = s.dies :=
  (State.hubPut_within s n a bs).dies rfl
@[simp] theorem State.hubPut_credits (s : State) (n : CtxId) (a : Nat) (bs : List Byte) : (s.hubPut n a bs).credits = s.credits :=
  (State.hubPut_within s n a bs).credits rfl
@[simp] theorem State.hubPut_colls (s : State) (n : CtxId) (a : Nat) (bs : List Byte) : (s.hubPut n a bs).colls = s.colls :=
  (State.hubPut_within s n a bs).colls rfl
@[simp] theorem State.hubPut_combs (s : State) (n : CtxId) (a : Nat) (bs : List Byte) : (s.hubPut n a bs).combs = s.combs :=
  (State.hubPut_within s n a bs).combs rfl
@[simp] theorem State.hubPut_arms (s : State) (n : CtxId) (a : Nat) (bs : List Byte) : (s.hubPut n a bs).arms = s.arms :=
  (State.hubPut_within s n a bs).arms rfl
@[simp] theorem State.hubPut_hops (s : State) (n : CtxId) (a : Nat) (bs : List Byte) : (s.hubPut n a bs).hops = s.hops :=
  (State.hubPut_within s n a bs).hops rfl
@[simp] theorem State.hubPut_streams (s : State) (n : CtxId) (a : Nat) (bs : List Byte) : (s.hubPut n a bs).streams = s.streams :=
  (State.hubPut_within s n a bs).streams rfl
@[simp] theorem State.hubPut_dmaq (s : State) (n : CtxId) (a : Nat) (bs : List Byte) : (s.hubPut n a bs).dmaq = s.dmaq :=
  (State.hubPut_within s n a bs).dmaq rfl
@[simp] theorem State.hubPut_mcs (s : State) (n : CtxId) (a : Nat) (bs : List Byte) : (s.hubPut n a bs).mcs = s.mcs :=
  (State.hubPut_within s n a bs).mcs rfl
@[simp] theorem State.hubPut_frings (s : State) (n : CtxId) (a : Nat) (bs : List Byte) : (s.hubPut n a bs).frings = s.frings :=
  (State.hubPut_within s n a bs).frings rfl
@[simp] theorem State.hubPut_ports (s : State) (n : CtxId) (a : Nat) (bs : List Byte) : (s.hubPut n a bs).ports = s.ports :=
  (State.hubPut_within s n a bs).ports rfl
@[simp] theorem State.hubPut_fab (s : State) (n : CtxId) (a : Nat) (bs : List Byte) : (s.hubPut n a bs).fab = s.fab :=
  (State.hubPut_within s n a bs).fab rfl
@[simp] theorem State.hubPut_hub (s : State) (n : CtxId) (a : Nat) (bs : List Byte) : (s.hubPut n a bs).hub = s.hub :=
  (State.hubPut_within s n a bs).hub rfl
@[simp] theorem State.hubPut_store (s : State) (n : CtxId) (a : Nat) (bs : List Byte) : (s.hubPut n a bs).store = s.store :=
  (State.hubPut_within s n a bs).store rfl
@[simp] theorem State.hubPut_meas (s : State) (n : CtxId) (a : Nat) (bs : List Byte) : (s.hubPut n a bs).meas = s.meas :=
  (State.hubPut_within s n a bs).meas rfl
@[simp] theorem State.hubPut_spdmDoe (s : State) (n : CtxId) (a : Nat) (bs : List Byte) : (s.hubPut n a bs).spdmDoe = s.spdmDoe :=
  (State.hubPut_within s n a bs).spdmDoe rfl
@[simp] theorem State.hubPut_spdmMctp (s : State) (n : CtxId) (a : Nat) (bs : List Byte) : (s.hubPut n a bs).spdmMctp = s.spdmMctp :=
  (State.hubPut_within s n a bs).spdmMctp rfl
@[simp] theorem State.hubPut_boot (s : State) (n : CtxId) (a : Nat) (bs : List Byte) : (s.hubPut n a bs).boot = s.boot :=
  (State.hubPut_within s n a bs).boot rfl
@[simp] theorem State.hubPut_fw (s : State) (n : CtxId) (a : Nat) (bs : List Byte) : (s.hubPut n a bs).fw = s.fw :=
  (State.hubPut_within s n a bs).fw rfl
@[simp] theorem State.hubPut_ledgerFrac (s : State) (n : CtxId) (a : Nat) (bs : List Byte) : (s.hubPut n a bs).ledgerFrac = s.ledgerFrac :=
  (State.hubPut_within s n a bs).ledgerFrac rfl
@[simp] theorem State.hubPut_trcSeq (s : State) (n : CtxId) (a : Nat) (bs : List Byte) : (s.hubPut n a bs).trcSeq = s.trcSeq :=
  (State.hubPut_within s n a bs).trcSeq rfl
@[simp] theorem State.hubPut_trcDrop (s : State) (n : CtxId) (a : Nat) (bs : List Byte) : (s.hubPut n a bs).trcDrop = s.trcDrop :=
  (State.hubPut_within s n a bs).trcDrop rfl
@[simp] theorem State.hubPut_trcTok (s : State) (n : CtxId) (a : Nat) (bs : List Byte) : (s.hubPut n a bs).trcTok = s.trcTok :=
  (State.hubPut_within s n a bs).trcTok rfl
@[simp] theorem State.hubPut_busyNs (s : State) (n : CtxId) (a : Nat) (bs : List Byte) : (s.hubPut n a bs).busyNs = s.busyNs :=
  (State.hubPut_within s n a bs).busyNs rfl
@[simp] theorem State.hubPut_ledgerQ (s : State) (n : CtxId) (a : Nat) (bs : List Byte) : (s.hubPut n a bs).ledgerQ = s.ledgerQ :=
  (State.hubPut_within s n a bs).ledgerQ rfl

/-! ### jobRead -/

/-- A read for a context that counts changes these parts only. -/
theorem State.jobRead_within (s : State) (n : CtxId) (src : Option Die) (a len : Nat) :
    Within [.free, .mcs, .regs, .dies, .cores, .acct] s (s.jobRead n src a len) :=
  (State.jobRead_keeps rfl (Keeps.refl _ s)).rest

@[simp] theorem State.jobRead_pending (s : State) (n : CtxId) (src : Option Die) (a len : Nat) : (s.jobRead n src a len).pending = s.pending :=
  (State.jobRead_within s n src a len).pending rfl
@[simp] theorem State.jobRead_out (s : State) (n : CtxId) (src : Option Die) (a len : Nat) : (s.jobRead n src a len).out = s.out :=
  (State.jobRead_within s n src a len).out rfl
@[simp] theorem State.jobRead_now (s : State) (n : CtxId) (src : Option Die) (a len : Nat) : (s.jobRead n src a len).now = s.now :=
  (State.jobRead_within s n src a len).now rfl
@[simp] theorem State.jobRead_latches (s : State) (n : CtxId) (src : Option Die) (a len : Nat) : (s.jobRead n src a len).latches = s.latches :=
  (State.jobRead_within s n src a len).latches rfl
@[simp] theorem State.jobRead_mem (s : State) (n : CtxId) (src : Option Die) (a len : Nat) : (s.jobRead n src a len).mem = s.mem :=
  (State.jobRead_within s n src a len).mem rfl
@[simp] theorem State.jobRead_hostMem (s : State) (n : CtxId) (src : Option Die) (a len : Nat) : (s.jobRead n src a len).hostMem = s.hostMem :=
  (State.jobRead_within s n src a len).hostMem rfl
@[simp] theorem State.jobRead_bad (s : State) (n : CtxId) (src : Option Die) (a len : Nat) : (s.jobRead n src a len).bad = s.bad :=
  (State.jobRead_within s n src a len).bad rfl
@[simp] theorem State.jobRead_scrambled (s : State) (n : CtxId) (src : Option Die) (a len : Nat) : (s.jobRead n src a len).scrambled = s.scrambled :=
  (State.jobRead_within s n src a len).scrambled rfl
@[simp] theorem State.jobRead_held (s : State) (n : CtxId) (src : Option Die) (a len : Nat) : (s.jobRead n src a len).held = s.held :=
  (State.jobRead_within s n src a len).held rfl
@[simp] theorem State.jobRead_regionMap (s : State) (n : CtxId) (src : Option Die) (a len : Nat) : (s.jobRead n src a len).regionMap = s.regionMap :=
  (State.jobRead_within s n src a len).regionMap rfl
@[simp] theorem State.jobRead_commitBusy (s : State) (n : CtxId) (src : Option Die) (a len : Nat) : (s.jobRead n src a len).commitBusy = s.commitBusy :=
  (State.jobRead_within s n src a len).commitBusy rfl
@[simp] theorem State.jobRead_fns (s : State) (n : CtxId) (src : Option Die) (a len : Nat) : (s.jobRead n src a len).fns = s.fns :=
  (State.jobRead_within s n src a len).fns rfl
@[simp] theorem State.jobRead_ctxs (s : State) (n : CtxId) (src : Option Die) (a len : Nat) : (s.jobRead n src a len).ctxs = s.ctxs :=
  (State.jobRead_within s n src a len).ctxs rfl
@[simp] theorem State.jobRead_rings (s : State) (n : CtxId) (src : Option Die) (a len : Nat) : (s.jobRead n src a len).rings = s.rings :=
  (State.jobRead_within s n src a len).rings rfl
@[simp] theorem State.jobRead_nextSeq (s : State) (n : CtxId) (src : Option Die) (a len : Nat) : (s.jobRead n src a len).nextSeq = s.nextSeq :=
  (State.jobRead_within s n src a len).nextSeq rfl
@[simp] theorem State.jobRead_descs (s : State) (n : CtxId) (src : Option Die) (a len : Nat) : (s.jobRead n src a len).descs = s.descs :=
  (State.jobRead_within s n src a len).descs rfl
@[simp] theorem State.jobRead_plans (s : State) (n : CtxId) (src : Option Die) (a len : Nat) : (s.jobRead n src a len).plans = s.plans :=
  (State.jobRead_within s n src a len).plans rfl
@[simp] theorem State.jobRead_chains (s : State) (n : CtxId) (src : Option Die) (a len : Nat) : (s.jobRead n src a len).chains = s.chains :=
  (State.jobRead_within s n src a len).chains rfl
@[simp] theorem State.jobRead_disps (s : State) (n : CtxId) (src : Option Die) (a len : Nat) : (s.jobRead n src a len).disps = s.disps :=
  (State.jobRead_within s n src a len).disps rfl
@[simp] theorem State.jobRead_switches (s : State) (n : CtxId) (src : Option Die) (a len : Nat) : (s.jobRead n src a len).switches = s.switches :=
  (State.jobRead_within s n src a len).switches rfl
@[simp] theorem State.jobRead_recovery (s : State) (n : CtxId) (src : Option Die) (a len : Nat) : (s.jobRead n src a len).recovery = s.recovery :=
  (State.jobRead_within s n src a len).recovery rfl
@[simp] theorem State.jobRead_reports (s : State) (n : CtxId) (src : Option Die) (a len : Nat) : (s.jobRead n src a len).reports = s.reports :=
  (State.jobRead_within s n src a len).reports rfl
@[simp] theorem State.jobRead_arb (s : State) (n : CtxId) (src : Option Die) (a len : Nat) : (s.jobRead n src a len).arb = s.arb :=
  (State.jobRead_within s n src a len).arb rfl
@[simp] theorem State.jobRead_credits (s : State) (n : CtxId) (src : Option Die) (a len : Nat) : (s.jobRead n src a len).credits = s.credits :=
  (State.jobRead_within s n src a len).credits rfl
@[simp] theorem State.jobRead_colls (s : State) (n : CtxId) (src : Option Die) (a len : Nat) : (s.jobRead n src a len).colls = s.colls :=
  (State.jobRead_within s n src a len).colls rfl
@[simp] theorem State.jobRead_combs (s : State) (n : CtxId) (src : Option Die) (a len : Nat) : (s.jobRead n src a len).combs = s.combs :=
  (State.jobRead_within s n src a len).combs rfl
@[simp] theorem State.jobRead_arms (s : State) (n : CtxId) (src : Option Die) (a len : Nat) : (s.jobRead n src a len).arms = s.arms :=
  (State.jobRead_within s n src a len).arms rfl
@[simp] theorem State.jobRead_hops (s : State) (n : CtxId) (src : Option Die) (a len : Nat) : (s.jobRead n src a len).hops = s.hops :=
  (State.jobRead_within s n src a len).hops rfl
@[simp] theorem State.jobRead_streams (s : State) (n : CtxId) (src : Option Die) (a len : Nat) : (s.jobRead n src a len).streams = s.streams :=
  (State.jobRead_within s n src a len).streams rfl
@[simp] theorem State.jobRead_dmaq (s : State) (n : CtxId) (src : Option Die) (a len : Nat) : (s.jobRead n src a len).dmaq = s.dmaq :=
  (State.jobRead_within s n src a len).dmaq rfl
@[simp] theorem State.jobRead_frings (s : State) (n : CtxId) (src : Option Die) (a len : Nat) : (s.jobRead n src a len).frings = s.frings :=
  (State.jobRead_within s n src a len).frings rfl
@[simp] theorem State.jobRead_ports (s : State) (n : CtxId) (src : Option Die) (a len : Nat) : (s.jobRead n src a len).ports = s.ports :=
  (State.jobRead_within s n src a len).ports rfl
@[simp] theorem State.jobRead_fab (s : State) (n : CtxId) (src : Option Die) (a len : Nat) : (s.jobRead n src a len).fab = s.fab :=
  (State.jobRead_within s n src a len).fab rfl
@[simp] theorem State.jobRead_hub (s : State) (n : CtxId) (src : Option Die) (a len : Nat) : (s.jobRead n src a len).hub = s.hub :=
  (State.jobRead_within s n src a len).hub rfl
@[simp] theorem State.jobRead_store (s : State) (n : CtxId) (src : Option Die) (a len : Nat) : (s.jobRead n src a len).store = s.store :=
  (State.jobRead_within s n src a len).store rfl
@[simp] theorem State.jobRead_meas (s : State) (n : CtxId) (src : Option Die) (a len : Nat) : (s.jobRead n src a len).meas = s.meas :=
  (State.jobRead_within s n src a len).meas rfl
@[simp] theorem State.jobRead_spdmDoe (s : State) (n : CtxId) (src : Option Die) (a len : Nat) : (s.jobRead n src a len).spdmDoe = s.spdmDoe :=
  (State.jobRead_within s n src a len).spdmDoe rfl
@[simp] theorem State.jobRead_spdmMctp (s : State) (n : CtxId) (src : Option Die) (a len : Nat) : (s.jobRead n src a len).spdmMctp = s.spdmMctp :=
  (State.jobRead_within s n src a len).spdmMctp rfl
@[simp] theorem State.jobRead_boot (s : State) (n : CtxId) (src : Option Die) (a len : Nat) : (s.jobRead n src a len).boot = s.boot :=
  (State.jobRead_within s n src a len).boot rfl
@[simp] theorem State.jobRead_fw (s : State) (n : CtxId) (src : Option Die) (a len : Nat) : (s.jobRead n src a len).fw = s.fw :=
  (State.jobRead_within s n src a len).fw rfl
@[simp] theorem State.jobRead_ledgerFrac (s : State) (n : CtxId) (src : Option Die) (a len : Nat) : (s.jobRead n src a len).ledgerFrac = s.ledgerFrac :=
  (State.jobRead_within s n src a len).ledgerFrac rfl
@[simp] theorem State.jobRead_trcSeq (s : State) (n : CtxId) (src : Option Die) (a len : Nat) : (s.jobRead n src a len).trcSeq = s.trcSeq :=
  (State.jobRead_within s n src a len).trcSeq rfl
@[simp] theorem State.jobRead_trcDrop (s : State) (n : CtxId) (src : Option Die) (a len : Nat) : (s.jobRead n src a len).trcDrop = s.trcDrop :=
  (State.jobRead_within s n src a len).trcDrop rfl
@[simp] theorem State.jobRead_trcTok (s : State) (n : CtxId) (src : Option Die) (a len : Nat) : (s.jobRead n src a len).trcTok = s.trcTok :=
  (State.jobRead_within s n src a len).trcTok rfl
@[simp] theorem State.jobRead_busyNs (s : State) (n : CtxId) (src : Option Die) (a len : Nat) : (s.jobRead n src a len).busyNs = s.busyNs :=
  (State.jobRead_within s n src a len).busyNs rfl
@[simp] theorem State.jobRead_ledgerQ (s : State) (n : CtxId) (src : Option Die) (a len : Nat) : (s.jobRead n src a len).ledgerQ = s.ledgerQ :=
  (State.jobRead_within s n src a len).ledgerQ rfl

/-! ### msix -/

/-- An MSI-X message changes these parts only. -/
theorem State.msix_within (s : State) (v : Nat) :
    Within [.hub, .regs, .out] s (s.msix v) :=
  (State.msix_keeps rfl (Keeps.refl _ s)).rest

@[simp] theorem State.msix_pending (s : State) (v : Nat) : (s.msix v).pending = s.pending :=
  (State.msix_within s v).pending rfl
@[simp] theorem State.msix_free (s : State) (v : Nat) : (s.msix v).free = s.free :=
  (State.msix_within s v).free rfl
@[simp] theorem State.msix_now (s : State) (v : Nat) : (s.msix v).now = s.now :=
  (State.msix_within s v).now rfl
@[simp] theorem State.msix_latches (s : State) (v : Nat) : (s.msix v).latches = s.latches :=
  (State.msix_within s v).latches rfl
@[simp] theorem State.msix_mem (s : State) (v : Nat) : (s.msix v).mem = s.mem :=
  (State.msix_within s v).mem rfl
@[simp] theorem State.msix_hostMem (s : State) (v : Nat) : (s.msix v).hostMem = s.hostMem :=
  (State.msix_within s v).hostMem rfl
@[simp] theorem State.msix_bad (s : State) (v : Nat) : (s.msix v).bad = s.bad :=
  (State.msix_within s v).bad rfl
@[simp] theorem State.msix_scrambled (s : State) (v : Nat) : (s.msix v).scrambled = s.scrambled :=
  (State.msix_within s v).scrambled rfl
@[simp] theorem State.msix_held (s : State) (v : Nat) : (s.msix v).held = s.held :=
  (State.msix_within s v).held rfl
@[simp] theorem State.msix_regionMap (s : State) (v : Nat) : (s.msix v).regionMap = s.regionMap :=
  (State.msix_within s v).regionMap rfl
@[simp] theorem State.msix_commitBusy (s : State) (v : Nat) : (s.msix v).commitBusy = s.commitBusy :=
  (State.msix_within s v).commitBusy rfl
@[simp] theorem State.msix_fns (s : State) (v : Nat) : (s.msix v).fns = s.fns :=
  (State.msix_within s v).fns rfl
@[simp] theorem State.msix_ctxs (s : State) (v : Nat) : (s.msix v).ctxs = s.ctxs :=
  (State.msix_within s v).ctxs rfl
@[simp] theorem State.msix_rings (s : State) (v : Nat) : (s.msix v).rings = s.rings :=
  (State.msix_within s v).rings rfl
@[simp] theorem State.msix_nextSeq (s : State) (v : Nat) : (s.msix v).nextSeq = s.nextSeq :=
  (State.msix_within s v).nextSeq rfl
@[simp] theorem State.msix_descs (s : State) (v : Nat) : (s.msix v).descs = s.descs :=
  (State.msix_within s v).descs rfl
@[simp] theorem State.msix_plans (s : State) (v : Nat) : (s.msix v).plans = s.plans :=
  (State.msix_within s v).plans rfl
@[simp] theorem State.msix_chains (s : State) (v : Nat) : (s.msix v).chains = s.chains :=
  (State.msix_within s v).chains rfl
@[simp] theorem State.msix_disps (s : State) (v : Nat) : (s.msix v).disps = s.disps :=
  (State.msix_within s v).disps rfl
@[simp] theorem State.msix_switches (s : State) (v : Nat) : (s.msix v).switches = s.switches :=
  (State.msix_within s v).switches rfl
@[simp] theorem State.msix_recovery (s : State) (v : Nat) : (s.msix v).recovery = s.recovery :=
  (State.msix_within s v).recovery rfl
@[simp] theorem State.msix_reports (s : State) (v : Nat) : (s.msix v).reports = s.reports :=
  (State.msix_within s v).reports rfl
@[simp] theorem State.msix_arb (s : State) (v : Nat) : (s.msix v).arb = s.arb :=
  (State.msix_within s v).arb rfl
@[simp] theorem State.msix_cores (s : State) (v : Nat) : (s.msix v).cores = s.cores :=
  (State.msix_within s v).cores rfl
@[simp] theorem State.msix_dies (s : State) (v : Nat) : (s.msix v).dies = s.dies :=
  (State.msix_within s v).dies rfl
@[simp] theorem State.msix_credits (s : State) (v : Nat) : (s.msix v).credits = s.credits :=
  (State.msix_within s v).credits rfl
@[simp] theorem State.msix_colls (s : State) (v : Nat) : (s.msix v).colls = s.colls :=
  (State.msix_within s v).colls rfl
@[simp] theorem State.msix_combs (s : State) (v : Nat) : (s.msix v).combs = s.combs :=
  (State.msix_within s v).combs rfl
@[simp] theorem State.msix_arms (s : State) (v : Nat) : (s.msix v).arms = s.arms :=
  (State.msix_within s v).arms rfl
@[simp] theorem State.msix_hops (s : State) (v : Nat) : (s.msix v).hops = s.hops :=
  (State.msix_within s v).hops rfl
@[simp] theorem State.msix_streams (s : State) (v : Nat) : (s.msix v).streams = s.streams :=
  (State.msix_within s v).streams rfl
@[simp] theorem State.msix_dmaq (s : State) (v : Nat) : (s.msix v).dmaq = s.dmaq :=
  (State.msix_within s v).dmaq rfl
@[simp] theorem State.msix_mcs (s : State) (v : Nat) : (s.msix v).mcs = s.mcs :=
  (State.msix_within s v).mcs rfl
@[simp] theorem State.msix_frings (s : State) (v : Nat) : (s.msix v).frings = s.frings :=
  (State.msix_within s v).frings rfl
@[simp] theorem State.msix_ports (s : State) (v : Nat) : (s.msix v).ports = s.ports :=
  (State.msix_within s v).ports rfl
@[simp] theorem State.msix_fab (s : State) (v : Nat) : (s.msix v).fab = s.fab :=
  (State.msix_within s v).fab rfl
@[simp] theorem State.msix_store (s : State) (v : Nat) : (s.msix v).store = s.store :=
  (State.msix_within s v).store rfl
@[simp] theorem State.msix_meas (s : State) (v : Nat) : (s.msix v).meas = s.meas :=
  (State.msix_within s v).meas rfl
@[simp] theorem State.msix_spdmDoe (s : State) (v : Nat) : (s.msix v).spdmDoe = s.spdmDoe :=
  (State.msix_within s v).spdmDoe rfl
@[simp] theorem State.msix_spdmMctp (s : State) (v : Nat) : (s.msix v).spdmMctp = s.spdmMctp :=
  (State.msix_within s v).spdmMctp rfl
@[simp] theorem State.msix_boot (s : State) (v : Nat) : (s.msix v).boot = s.boot :=
  (State.msix_within s v).boot rfl
@[simp] theorem State.msix_fw (s : State) (v : Nat) : (s.msix v).fw = s.fw :=
  (State.msix_within s v).fw rfl
@[simp] theorem State.msix_ledgerFrac (s : State) (v : Nat) : (s.msix v).ledgerFrac = s.ledgerFrac :=
  (State.msix_within s v).ledgerFrac rfl
@[simp] theorem State.msix_trcSeq (s : State) (v : Nat) : (s.msix v).trcSeq = s.trcSeq :=
  (State.msix_within s v).trcSeq rfl
@[simp] theorem State.msix_trcDrop (s : State) (v : Nat) : (s.msix v).trcDrop = s.trcDrop :=
  (State.msix_within s v).trcDrop rfl
@[simp] theorem State.msix_trcTok (s : State) (v : Nat) : (s.msix v).trcTok = s.trcTok :=
  (State.msix_within s v).trcTok rfl
@[simp] theorem State.msix_busyNs (s : State) (v : Nat) : (s.msix v).busyNs = s.busyNs :=
  (State.msix_within s v).busyNs rfl
@[simp] theorem State.msix_acct (s : State) (v : Nat) : (s.msix v).acct = s.acct :=
  (State.msix_within s v).acct rfl
@[simp] theorem State.msix_ledgerQ (s : State) (v : Nat) : (s.msix v).ledgerQ = s.ledgerQ :=
  (State.msix_within s v).ledgerQ rfl

/-! ### traceRec -/

/-- A trace record changes these parts only. -/
theorem State.traceRec_within (s : State) (src unit kind ctx : Nat) (data : List Byte) :
    Within [.trcTok, .free, .mem, .acct, .regs, .bad, .trcSeq, .trcDrop] s (s.traceRec src unit kind ctx data) :=
  (State.traceRec_keeps rfl (Keeps.refl _ s)).rest

@[simp] theorem State.traceRec_pending (s : State) (src unit kind ctx : Nat) (data : List Byte) : (s.traceRec src unit kind ctx data).pending = s.pending :=
  (State.traceRec_within s src unit kind ctx data).pending rfl
@[simp] theorem State.traceRec_out (s : State) (src unit kind ctx : Nat) (data : List Byte) : (s.traceRec src unit kind ctx data).out = s.out :=
  (State.traceRec_within s src unit kind ctx data).out rfl
@[simp] theorem State.traceRec_now (s : State) (src unit kind ctx : Nat) (data : List Byte) : (s.traceRec src unit kind ctx data).now = s.now :=
  (State.traceRec_within s src unit kind ctx data).now rfl
@[simp] theorem State.traceRec_latches (s : State) (src unit kind ctx : Nat) (data : List Byte) : (s.traceRec src unit kind ctx data).latches = s.latches :=
  (State.traceRec_within s src unit kind ctx data).latches rfl
@[simp] theorem State.traceRec_hostMem (s : State) (src unit kind ctx : Nat) (data : List Byte) : (s.traceRec src unit kind ctx data).hostMem = s.hostMem :=
  (State.traceRec_within s src unit kind ctx data).hostMem rfl
@[simp] theorem State.traceRec_scrambled (s : State) (src unit kind ctx : Nat) (data : List Byte) : (s.traceRec src unit kind ctx data).scrambled = s.scrambled :=
  (State.traceRec_within s src unit kind ctx data).scrambled rfl
@[simp] theorem State.traceRec_held (s : State) (src unit kind ctx : Nat) (data : List Byte) : (s.traceRec src unit kind ctx data).held = s.held :=
  (State.traceRec_within s src unit kind ctx data).held rfl
@[simp] theorem State.traceRec_regionMap (s : State) (src unit kind ctx : Nat) (data : List Byte) : (s.traceRec src unit kind ctx data).regionMap = s.regionMap :=
  (State.traceRec_within s src unit kind ctx data).regionMap rfl
@[simp] theorem State.traceRec_commitBusy (s : State) (src unit kind ctx : Nat) (data : List Byte) : (s.traceRec src unit kind ctx data).commitBusy = s.commitBusy :=
  (State.traceRec_within s src unit kind ctx data).commitBusy rfl
@[simp] theorem State.traceRec_fns (s : State) (src unit kind ctx : Nat) (data : List Byte) : (s.traceRec src unit kind ctx data).fns = s.fns :=
  (State.traceRec_within s src unit kind ctx data).fns rfl
@[simp] theorem State.traceRec_ctxs (s : State) (src unit kind ctx : Nat) (data : List Byte) : (s.traceRec src unit kind ctx data).ctxs = s.ctxs :=
  (State.traceRec_within s src unit kind ctx data).ctxs rfl
@[simp] theorem State.traceRec_rings (s : State) (src unit kind ctx : Nat) (data : List Byte) : (s.traceRec src unit kind ctx data).rings = s.rings :=
  (State.traceRec_within s src unit kind ctx data).rings rfl
@[simp] theorem State.traceRec_nextSeq (s : State) (src unit kind ctx : Nat) (data : List Byte) : (s.traceRec src unit kind ctx data).nextSeq = s.nextSeq :=
  (State.traceRec_within s src unit kind ctx data).nextSeq rfl
@[simp] theorem State.traceRec_descs (s : State) (src unit kind ctx : Nat) (data : List Byte) : (s.traceRec src unit kind ctx data).descs = s.descs :=
  (State.traceRec_within s src unit kind ctx data).descs rfl
@[simp] theorem State.traceRec_plans (s : State) (src unit kind ctx : Nat) (data : List Byte) : (s.traceRec src unit kind ctx data).plans = s.plans :=
  (State.traceRec_within s src unit kind ctx data).plans rfl
@[simp] theorem State.traceRec_chains (s : State) (src unit kind ctx : Nat) (data : List Byte) : (s.traceRec src unit kind ctx data).chains = s.chains :=
  (State.traceRec_within s src unit kind ctx data).chains rfl
@[simp] theorem State.traceRec_disps (s : State) (src unit kind ctx : Nat) (data : List Byte) : (s.traceRec src unit kind ctx data).disps = s.disps :=
  (State.traceRec_within s src unit kind ctx data).disps rfl
@[simp] theorem State.traceRec_switches (s : State) (src unit kind ctx : Nat) (data : List Byte) : (s.traceRec src unit kind ctx data).switches = s.switches :=
  (State.traceRec_within s src unit kind ctx data).switches rfl
@[simp] theorem State.traceRec_recovery (s : State) (src unit kind ctx : Nat) (data : List Byte) : (s.traceRec src unit kind ctx data).recovery = s.recovery :=
  (State.traceRec_within s src unit kind ctx data).recovery rfl
@[simp] theorem State.traceRec_reports (s : State) (src unit kind ctx : Nat) (data : List Byte) : (s.traceRec src unit kind ctx data).reports = s.reports :=
  (State.traceRec_within s src unit kind ctx data).reports rfl
@[simp] theorem State.traceRec_arb (s : State) (src unit kind ctx : Nat) (data : List Byte) : (s.traceRec src unit kind ctx data).arb = s.arb :=
  (State.traceRec_within s src unit kind ctx data).arb rfl
@[simp] theorem State.traceRec_cores (s : State) (src unit kind ctx : Nat) (data : List Byte) : (s.traceRec src unit kind ctx data).cores = s.cores :=
  (State.traceRec_within s src unit kind ctx data).cores rfl
@[simp] theorem State.traceRec_dies (s : State) (src unit kind ctx : Nat) (data : List Byte) : (s.traceRec src unit kind ctx data).dies = s.dies :=
  (State.traceRec_within s src unit kind ctx data).dies rfl
@[simp] theorem State.traceRec_credits (s : State) (src unit kind ctx : Nat) (data : List Byte) : (s.traceRec src unit kind ctx data).credits = s.credits :=
  (State.traceRec_within s src unit kind ctx data).credits rfl
@[simp] theorem State.traceRec_colls (s : State) (src unit kind ctx : Nat) (data : List Byte) : (s.traceRec src unit kind ctx data).colls = s.colls :=
  (State.traceRec_within s src unit kind ctx data).colls rfl
@[simp] theorem State.traceRec_combs (s : State) (src unit kind ctx : Nat) (data : List Byte) : (s.traceRec src unit kind ctx data).combs = s.combs :=
  (State.traceRec_within s src unit kind ctx data).combs rfl
@[simp] theorem State.traceRec_arms (s : State) (src unit kind ctx : Nat) (data : List Byte) : (s.traceRec src unit kind ctx data).arms = s.arms :=
  (State.traceRec_within s src unit kind ctx data).arms rfl
@[simp] theorem State.traceRec_hops (s : State) (src unit kind ctx : Nat) (data : List Byte) : (s.traceRec src unit kind ctx data).hops = s.hops :=
  (State.traceRec_within s src unit kind ctx data).hops rfl
@[simp] theorem State.traceRec_streams (s : State) (src unit kind ctx : Nat) (data : List Byte) : (s.traceRec src unit kind ctx data).streams = s.streams :=
  (State.traceRec_within s src unit kind ctx data).streams rfl
@[simp] theorem State.traceRec_dmaq (s : State) (src unit kind ctx : Nat) (data : List Byte) : (s.traceRec src unit kind ctx data).dmaq = s.dmaq :=
  (State.traceRec_within s src unit kind ctx data).dmaq rfl
@[simp] theorem State.traceRec_mcs (s : State) (src unit kind ctx : Nat) (data : List Byte) : (s.traceRec src unit kind ctx data).mcs = s.mcs :=
  (State.traceRec_within s src unit kind ctx data).mcs rfl
@[simp] theorem State.traceRec_frings (s : State) (src unit kind ctx : Nat) (data : List Byte) : (s.traceRec src unit kind ctx data).frings = s.frings :=
  (State.traceRec_within s src unit kind ctx data).frings rfl
@[simp] theorem State.traceRec_ports (s : State) (src unit kind ctx : Nat) (data : List Byte) : (s.traceRec src unit kind ctx data).ports = s.ports :=
  (State.traceRec_within s src unit kind ctx data).ports rfl
@[simp] theorem State.traceRec_fab (s : State) (src unit kind ctx : Nat) (data : List Byte) : (s.traceRec src unit kind ctx data).fab = s.fab :=
  (State.traceRec_within s src unit kind ctx data).fab rfl
@[simp] theorem State.traceRec_hub (s : State) (src unit kind ctx : Nat) (data : List Byte) : (s.traceRec src unit kind ctx data).hub = s.hub :=
  (State.traceRec_within s src unit kind ctx data).hub rfl
@[simp] theorem State.traceRec_store (s : State) (src unit kind ctx : Nat) (data : List Byte) : (s.traceRec src unit kind ctx data).store = s.store :=
  (State.traceRec_within s src unit kind ctx data).store rfl
@[simp] theorem State.traceRec_meas (s : State) (src unit kind ctx : Nat) (data : List Byte) : (s.traceRec src unit kind ctx data).meas = s.meas :=
  (State.traceRec_within s src unit kind ctx data).meas rfl
@[simp] theorem State.traceRec_spdmDoe (s : State) (src unit kind ctx : Nat) (data : List Byte) : (s.traceRec src unit kind ctx data).spdmDoe = s.spdmDoe :=
  (State.traceRec_within s src unit kind ctx data).spdmDoe rfl
@[simp] theorem State.traceRec_spdmMctp (s : State) (src unit kind ctx : Nat) (data : List Byte) : (s.traceRec src unit kind ctx data).spdmMctp = s.spdmMctp :=
  (State.traceRec_within s src unit kind ctx data).spdmMctp rfl
@[simp] theorem State.traceRec_boot (s : State) (src unit kind ctx : Nat) (data : List Byte) : (s.traceRec src unit kind ctx data).boot = s.boot :=
  (State.traceRec_within s src unit kind ctx data).boot rfl
@[simp] theorem State.traceRec_fw (s : State) (src unit kind ctx : Nat) (data : List Byte) : (s.traceRec src unit kind ctx data).fw = s.fw :=
  (State.traceRec_within s src unit kind ctx data).fw rfl
@[simp] theorem State.traceRec_ledgerFrac (s : State) (src unit kind ctx : Nat) (data : List Byte) : (s.traceRec src unit kind ctx data).ledgerFrac = s.ledgerFrac :=
  (State.traceRec_within s src unit kind ctx data).ledgerFrac rfl
@[simp] theorem State.traceRec_busyNs (s : State) (src unit kind ctx : Nat) (data : List Byte) : (s.traceRec src unit kind ctx data).busyNs = s.busyNs :=
  (State.traceRec_within s src unit kind ctx data).busyNs rfl
@[simp] theorem State.traceRec_ledgerQ (s : State) (src unit kind ctx : Nat) (data : List Byte) : (s.traceRec src unit kind ctx data).ledgerQ = s.ledgerQ :=
  (State.traceRec_within s src unit kind ctx data).ledgerQ rfl

/-! ### traceRepair -/

/-- The trace record of a repair changes these parts only. -/
theorem State.traceRepair_within (s : State) (k u p : Nat) :
    Within [.trcTok, .free, .mem, .acct, .regs, .bad, .trcSeq, .trcDrop] s (s.traceRepair k u p) :=
  (State.traceRepair_keeps rfl (Keeps.refl _ s)).rest

@[simp] theorem State.traceRepair_pending (s : State) (k u p : Nat) : (s.traceRepair k u p).pending = s.pending :=
  (State.traceRepair_within s k u p).pending rfl
@[simp] theorem State.traceRepair_out (s : State) (k u p : Nat) : (s.traceRepair k u p).out = s.out :=
  (State.traceRepair_within s k u p).out rfl
@[simp] theorem State.traceRepair_now (s : State) (k u p : Nat) : (s.traceRepair k u p).now = s.now :=
  (State.traceRepair_within s k u p).now rfl
@[simp] theorem State.traceRepair_latches (s : State) (k u p : Nat) : (s.traceRepair k u p).latches = s.latches :=
  (State.traceRepair_within s k u p).latches rfl
@[simp] theorem State.traceRepair_hostMem (s : State) (k u p : Nat) : (s.traceRepair k u p).hostMem = s.hostMem :=
  (State.traceRepair_within s k u p).hostMem rfl
@[simp] theorem State.traceRepair_scrambled (s : State) (k u p : Nat) : (s.traceRepair k u p).scrambled = s.scrambled :=
  (State.traceRepair_within s k u p).scrambled rfl
@[simp] theorem State.traceRepair_held (s : State) (k u p : Nat) : (s.traceRepair k u p).held = s.held :=
  (State.traceRepair_within s k u p).held rfl
@[simp] theorem State.traceRepair_regionMap (s : State) (k u p : Nat) : (s.traceRepair k u p).regionMap = s.regionMap :=
  (State.traceRepair_within s k u p).regionMap rfl
@[simp] theorem State.traceRepair_commitBusy (s : State) (k u p : Nat) : (s.traceRepair k u p).commitBusy = s.commitBusy :=
  (State.traceRepair_within s k u p).commitBusy rfl
@[simp] theorem State.traceRepair_fns (s : State) (k u p : Nat) : (s.traceRepair k u p).fns = s.fns :=
  (State.traceRepair_within s k u p).fns rfl
@[simp] theorem State.traceRepair_ctxs (s : State) (k u p : Nat) : (s.traceRepair k u p).ctxs = s.ctxs :=
  (State.traceRepair_within s k u p).ctxs rfl
@[simp] theorem State.traceRepair_rings (s : State) (k u p : Nat) : (s.traceRepair k u p).rings = s.rings :=
  (State.traceRepair_within s k u p).rings rfl
@[simp] theorem State.traceRepair_nextSeq (s : State) (k u p : Nat) : (s.traceRepair k u p).nextSeq = s.nextSeq :=
  (State.traceRepair_within s k u p).nextSeq rfl
@[simp] theorem State.traceRepair_descs (s : State) (k u p : Nat) : (s.traceRepair k u p).descs = s.descs :=
  (State.traceRepair_within s k u p).descs rfl
@[simp] theorem State.traceRepair_plans (s : State) (k u p : Nat) : (s.traceRepair k u p).plans = s.plans :=
  (State.traceRepair_within s k u p).plans rfl
@[simp] theorem State.traceRepair_chains (s : State) (k u p : Nat) : (s.traceRepair k u p).chains = s.chains :=
  (State.traceRepair_within s k u p).chains rfl
@[simp] theorem State.traceRepair_disps (s : State) (k u p : Nat) : (s.traceRepair k u p).disps = s.disps :=
  (State.traceRepair_within s k u p).disps rfl
@[simp] theorem State.traceRepair_switches (s : State) (k u p : Nat) : (s.traceRepair k u p).switches = s.switches :=
  (State.traceRepair_within s k u p).switches rfl
@[simp] theorem State.traceRepair_recovery (s : State) (k u p : Nat) : (s.traceRepair k u p).recovery = s.recovery :=
  (State.traceRepair_within s k u p).recovery rfl
@[simp] theorem State.traceRepair_reports (s : State) (k u p : Nat) : (s.traceRepair k u p).reports = s.reports :=
  (State.traceRepair_within s k u p).reports rfl
@[simp] theorem State.traceRepair_arb (s : State) (k u p : Nat) : (s.traceRepair k u p).arb = s.arb :=
  (State.traceRepair_within s k u p).arb rfl
@[simp] theorem State.traceRepair_cores (s : State) (k u p : Nat) : (s.traceRepair k u p).cores = s.cores :=
  (State.traceRepair_within s k u p).cores rfl
@[simp] theorem State.traceRepair_dies (s : State) (k u p : Nat) : (s.traceRepair k u p).dies = s.dies :=
  (State.traceRepair_within s k u p).dies rfl
@[simp] theorem State.traceRepair_credits (s : State) (k u p : Nat) : (s.traceRepair k u p).credits = s.credits :=
  (State.traceRepair_within s k u p).credits rfl
@[simp] theorem State.traceRepair_colls (s : State) (k u p : Nat) : (s.traceRepair k u p).colls = s.colls :=
  (State.traceRepair_within s k u p).colls rfl
@[simp] theorem State.traceRepair_combs (s : State) (k u p : Nat) : (s.traceRepair k u p).combs = s.combs :=
  (State.traceRepair_within s k u p).combs rfl
@[simp] theorem State.traceRepair_arms (s : State) (k u p : Nat) : (s.traceRepair k u p).arms = s.arms :=
  (State.traceRepair_within s k u p).arms rfl
@[simp] theorem State.traceRepair_hops (s : State) (k u p : Nat) : (s.traceRepair k u p).hops = s.hops :=
  (State.traceRepair_within s k u p).hops rfl
@[simp] theorem State.traceRepair_streams (s : State) (k u p : Nat) : (s.traceRepair k u p).streams = s.streams :=
  (State.traceRepair_within s k u p).streams rfl
@[simp] theorem State.traceRepair_dmaq (s : State) (k u p : Nat) : (s.traceRepair k u p).dmaq = s.dmaq :=
  (State.traceRepair_within s k u p).dmaq rfl
@[simp] theorem State.traceRepair_mcs (s : State) (k u p : Nat) : (s.traceRepair k u p).mcs = s.mcs :=
  (State.traceRepair_within s k u p).mcs rfl
@[simp] theorem State.traceRepair_frings (s : State) (k u p : Nat) : (s.traceRepair k u p).frings = s.frings :=
  (State.traceRepair_within s k u p).frings rfl
@[simp] theorem State.traceRepair_ports (s : State) (k u p : Nat) : (s.traceRepair k u p).ports = s.ports :=
  (State.traceRepair_within s k u p).ports rfl
@[simp] theorem State.traceRepair_fab (s : State) (k u p : Nat) : (s.traceRepair k u p).fab = s.fab :=
  (State.traceRepair_within s k u p).fab rfl
@[simp] theorem State.traceRepair_hub (s : State) (k u p : Nat) : (s.traceRepair k u p).hub = s.hub :=
  (State.traceRepair_within s k u p).hub rfl
@[simp] theorem State.traceRepair_store (s : State) (k u p : Nat) : (s.traceRepair k u p).store = s.store :=
  (State.traceRepair_within s k u p).store rfl
@[simp] theorem State.traceRepair_meas (s : State) (k u p : Nat) : (s.traceRepair k u p).meas = s.meas :=
  (State.traceRepair_within s k u p).meas rfl
@[simp] theorem State.traceRepair_spdmDoe (s : State) (k u p : Nat) : (s.traceRepair k u p).spdmDoe = s.spdmDoe :=
  (State.traceRepair_within s k u p).spdmDoe rfl
@[simp] theorem State.traceRepair_spdmMctp (s : State) (k u p : Nat) : (s.traceRepair k u p).spdmMctp = s.spdmMctp :=
  (State.traceRepair_within s k u p).spdmMctp rfl
@[simp] theorem State.traceRepair_boot (s : State) (k u p : Nat) : (s.traceRepair k u p).boot = s.boot :=
  (State.traceRepair_within s k u p).boot rfl
@[simp] theorem State.traceRepair_fw (s : State) (k u p : Nat) : (s.traceRepair k u p).fw = s.fw :=
  (State.traceRepair_within s k u p).fw rfl
@[simp] theorem State.traceRepair_ledgerFrac (s : State) (k u p : Nat) : (s.traceRepair k u p).ledgerFrac = s.ledgerFrac :=
  (State.traceRepair_within s k u p).ledgerFrac rfl
@[simp] theorem State.traceRepair_busyNs (s : State) (k u p : Nat) : (s.traceRepair k u p).busyNs = s.busyNs :=
  (State.traceRepair_within s k u p).busyNs rfl
@[simp] theorem State.traceRepair_ledgerQ (s : State) (k u p : Nat) : (s.traceRepair k u p).ledgerQ = s.ledgerQ :=
  (State.traceRepair_within s k u p).ledgerQ rfl

/-! ### logFault -/

/-- A fault record changes these parts only. -/
theorem State.logFault_within (s : State) (c k d u x p a l : Nat) :
    Within [.store, .free] s (s.logFault c k d u x p a l) :=
  (State.logFault_keeps rfl (Keeps.refl _ s)).rest

@[simp] theorem State.logFault_pending (s : State) (c k d u x p a l : Nat) : (s.logFault c k d u x p a l).pending = s.pending :=
  (State.logFault_within s c k d u x p a l).pending rfl
@[simp] theorem State.logFault_out (s : State) (c k d u x p a l : Nat) : (s.logFault c k d u x p a l).out = s.out :=
  (State.logFault_within s c k d u x p a l).out rfl
@[simp] theorem State.logFault_now (s : State) (c k d u x p a l : Nat) : (s.logFault c k d u x p a l).now = s.now :=
  (State.logFault_within s c k d u x p a l).now rfl
@[simp] theorem State.logFault_regs (s : State) (c k d u x p a l : Nat) : (s.logFault c k d u x p a l).regs = s.regs :=
  (State.logFault_within s c k d u x p a l).regs rfl
@[simp] theorem State.logFault_latches (s : State) (c k d u x p a l : Nat) : (s.logFault c k d u x p a l).latches = s.latches :=
  (State.logFault_within s c k d u x p a l).latches rfl
@[simp] theorem State.logFault_mem (s : State) (c k d u x p a l : Nat) : (s.logFault c k d u x p a l).mem = s.mem :=
  (State.logFault_within s c k d u x p a l).mem rfl
@[simp] theorem State.logFault_hostMem (s : State) (c k d u x p a l : Nat) : (s.logFault c k d u x p a l).hostMem = s.hostMem :=
  (State.logFault_within s c k d u x p a l).hostMem rfl
@[simp] theorem State.logFault_bad (s : State) (c k d u x p a l : Nat) : (s.logFault c k d u x p a l).bad = s.bad :=
  (State.logFault_within s c k d u x p a l).bad rfl
@[simp] theorem State.logFault_scrambled (s : State) (c k d u x p a l : Nat) : (s.logFault c k d u x p a l).scrambled = s.scrambled :=
  (State.logFault_within s c k d u x p a l).scrambled rfl
@[simp] theorem State.logFault_held (s : State) (c k d u x p a l : Nat) : (s.logFault c k d u x p a l).held = s.held :=
  (State.logFault_within s c k d u x p a l).held rfl
@[simp] theorem State.logFault_regionMap (s : State) (c k d u x p a l : Nat) : (s.logFault c k d u x p a l).regionMap = s.regionMap :=
  (State.logFault_within s c k d u x p a l).regionMap rfl
@[simp] theorem State.logFault_commitBusy (s : State) (c k d u x p a l : Nat) : (s.logFault c k d u x p a l).commitBusy = s.commitBusy :=
  (State.logFault_within s c k d u x p a l).commitBusy rfl
@[simp] theorem State.logFault_fns (s : State) (c k d u x p a l : Nat) : (s.logFault c k d u x p a l).fns = s.fns :=
  (State.logFault_within s c k d u x p a l).fns rfl
@[simp] theorem State.logFault_ctxs (s : State) (c k d u x p a l : Nat) : (s.logFault c k d u x p a l).ctxs = s.ctxs :=
  (State.logFault_within s c k d u x p a l).ctxs rfl
@[simp] theorem State.logFault_rings (s : State) (c k d u x p a l : Nat) : (s.logFault c k d u x p a l).rings = s.rings :=
  (State.logFault_within s c k d u x p a l).rings rfl
@[simp] theorem State.logFault_nextSeq (s : State) (c k d u x p a l : Nat) : (s.logFault c k d u x p a l).nextSeq = s.nextSeq :=
  (State.logFault_within s c k d u x p a l).nextSeq rfl
@[simp] theorem State.logFault_descs (s : State) (c k d u x p a l : Nat) : (s.logFault c k d u x p a l).descs = s.descs :=
  (State.logFault_within s c k d u x p a l).descs rfl
@[simp] theorem State.logFault_plans (s : State) (c k d u x p a l : Nat) : (s.logFault c k d u x p a l).plans = s.plans :=
  (State.logFault_within s c k d u x p a l).plans rfl
@[simp] theorem State.logFault_chains (s : State) (c k d u x p a l : Nat) : (s.logFault c k d u x p a l).chains = s.chains :=
  (State.logFault_within s c k d u x p a l).chains rfl
@[simp] theorem State.logFault_disps (s : State) (c k d u x p a l : Nat) : (s.logFault c k d u x p a l).disps = s.disps :=
  (State.logFault_within s c k d u x p a l).disps rfl
@[simp] theorem State.logFault_switches (s : State) (c k d u x p a l : Nat) : (s.logFault c k d u x p a l).switches = s.switches :=
  (State.logFault_within s c k d u x p a l).switches rfl
@[simp] theorem State.logFault_recovery (s : State) (c k d u x p a l : Nat) : (s.logFault c k d u x p a l).recovery = s.recovery :=
  (State.logFault_within s c k d u x p a l).recovery rfl
@[simp] theorem State.logFault_reports (s : State) (c k d u x p a l : Nat) : (s.logFault c k d u x p a l).reports = s.reports :=
  (State.logFault_within s c k d u x p a l).reports rfl
@[simp] theorem State.logFault_arb (s : State) (c k d u x p a l : Nat) : (s.logFault c k d u x p a l).arb = s.arb :=
  (State.logFault_within s c k d u x p a l).arb rfl
@[simp] theorem State.logFault_cores (s : State) (c k d u x p a l : Nat) : (s.logFault c k d u x p a l).cores = s.cores :=
  (State.logFault_within s c k d u x p a l).cores rfl
@[simp] theorem State.logFault_dies (s : State) (c k d u x p a l : Nat) : (s.logFault c k d u x p a l).dies = s.dies :=
  (State.logFault_within s c k d u x p a l).dies rfl
@[simp] theorem State.logFault_credits (s : State) (c k d u x p a l : Nat) : (s.logFault c k d u x p a l).credits = s.credits :=
  (State.logFault_within s c k d u x p a l).credits rfl
@[simp] theorem State.logFault_colls (s : State) (c k d u x p a l : Nat) : (s.logFault c k d u x p a l).colls = s.colls :=
  (State.logFault_within s c k d u x p a l).colls rfl
@[simp] theorem State.logFault_combs (s : State) (c k d u x p a l : Nat) : (s.logFault c k d u x p a l).combs = s.combs :=
  (State.logFault_within s c k d u x p a l).combs rfl
@[simp] theorem State.logFault_arms (s : State) (c k d u x p a l : Nat) : (s.logFault c k d u x p a l).arms = s.arms :=
  (State.logFault_within s c k d u x p a l).arms rfl
@[simp] theorem State.logFault_hops (s : State) (c k d u x p a l : Nat) : (s.logFault c k d u x p a l).hops = s.hops :=
  (State.logFault_within s c k d u x p a l).hops rfl
@[simp] theorem State.logFault_streams (s : State) (c k d u x p a l : Nat) : (s.logFault c k d u x p a l).streams = s.streams :=
  (State.logFault_within s c k d u x p a l).streams rfl
@[simp] theorem State.logFault_dmaq (s : State) (c k d u x p a l : Nat) : (s.logFault c k d u x p a l).dmaq = s.dmaq :=
  (State.logFault_within s c k d u x p a l).dmaq rfl
@[simp] theorem State.logFault_mcs (s : State) (c k d u x p a l : Nat) : (s.logFault c k d u x p a l).mcs = s.mcs :=
  (State.logFault_within s c k d u x p a l).mcs rfl
@[simp] theorem State.logFault_frings (s : State) (c k d u x p a l : Nat) : (s.logFault c k d u x p a l).frings = s.frings :=
  (State.logFault_within s c k d u x p a l).frings rfl
@[simp] theorem State.logFault_ports (s : State) (c k d u x p a l : Nat) : (s.logFault c k d u x p a l).ports = s.ports :=
  (State.logFault_within s c k d u x p a l).ports rfl
@[simp] theorem State.logFault_fab (s : State) (c k d u x p a l : Nat) : (s.logFault c k d u x p a l).fab = s.fab :=
  (State.logFault_within s c k d u x p a l).fab rfl
@[simp] theorem State.logFault_hub (s : State) (c k d u x p a l : Nat) : (s.logFault c k d u x p a l).hub = s.hub :=
  (State.logFault_within s c k d u x p a l).hub rfl
@[simp] theorem State.logFault_meas (s : State) (c k d u x p a l : Nat) : (s.logFault c k d u x p a l).meas = s.meas :=
  (State.logFault_within s c k d u x p a l).meas rfl
@[simp] theorem State.logFault_spdmDoe (s : State) (c k d u x p a l : Nat) : (s.logFault c k d u x p a l).spdmDoe = s.spdmDoe :=
  (State.logFault_within s c k d u x p a l).spdmDoe rfl
@[simp] theorem State.logFault_spdmMctp (s : State) (c k d u x p a l : Nat) : (s.logFault c k d u x p a l).spdmMctp = s.spdmMctp :=
  (State.logFault_within s c k d u x p a l).spdmMctp rfl
@[simp] theorem State.logFault_boot (s : State) (c k d u x p a l : Nat) : (s.logFault c k d u x p a l).boot = s.boot :=
  (State.logFault_within s c k d u x p a l).boot rfl
@[simp] theorem State.logFault_fw (s : State) (c k d u x p a l : Nat) : (s.logFault c k d u x p a l).fw = s.fw :=
  (State.logFault_within s c k d u x p a l).fw rfl
@[simp] theorem State.logFault_ledgerFrac (s : State) (c k d u x p a l : Nat) : (s.logFault c k d u x p a l).ledgerFrac = s.ledgerFrac :=
  (State.logFault_within s c k d u x p a l).ledgerFrac rfl
@[simp] theorem State.logFault_trcSeq (s : State) (c k d u x p a l : Nat) : (s.logFault c k d u x p a l).trcSeq = s.trcSeq :=
  (State.logFault_within s c k d u x p a l).trcSeq rfl
@[simp] theorem State.logFault_trcDrop (s : State) (c k d u x p a l : Nat) : (s.logFault c k d u x p a l).trcDrop = s.trcDrop :=
  (State.logFault_within s c k d u x p a l).trcDrop rfl
@[simp] theorem State.logFault_trcTok (s : State) (c k d u x p a l : Nat) : (s.logFault c k d u x p a l).trcTok = s.trcTok :=
  (State.logFault_within s c k d u x p a l).trcTok rfl
@[simp] theorem State.logFault_busyNs (s : State) (c k d u x p a l : Nat) : (s.logFault c k d u x p a l).busyNs = s.busyNs :=
  (State.logFault_within s c k d u x p a l).busyNs rfl
@[simp] theorem State.logFault_acct (s : State) (c k d u x p a l : Nat) : (s.logFault c k d u x p a l).acct = s.acct :=
  (State.logFault_within s c k d u x p a l).acct rfl
@[simp] theorem State.logFault_ledgerQ (s : State) (c k d u x p a l : Nat) : (s.logFault c k d u x p a l).ledgerQ = s.ledgerQ :=
  (State.logFault_within s c k d u x p a l).ledgerQ rfl

/-! ### repaired -/

/-- A repaired event changes these parts only. -/
theorem State.repaired_within (s : State) (k d u x p a l : Nat) (b : Bool) :
    Within [.trcTok, .free, .mem, .acct, .regs, .bad, .trcSeq, .trcDrop, .store, .hub, .out] s (s.repaired k d u x p a l b) :=
  (State.repaired_keeps rfl (Keeps.refl _ s)).rest

@[simp] theorem State.repaired_pending (s : State) (k d u x p a l : Nat) (b : Bool) : (s.repaired k d u x p a l b).pending = s.pending :=
  (State.repaired_within s k d u x p a l b).pending rfl
@[simp] theorem State.repaired_now (s : State) (k d u x p a l : Nat) (b : Bool) : (s.repaired k d u x p a l b).now = s.now :=
  (State.repaired_within s k d u x p a l b).now rfl
@[simp] theorem State.repaired_latches (s : State) (k d u x p a l : Nat) (b : Bool) : (s.repaired k d u x p a l b).latches = s.latches :=
  (State.repaired_within s k d u x p a l b).latches rfl
@[simp] theorem State.repaired_hostMem (s : State) (k d u x p a l : Nat) (b : Bool) : (s.repaired k d u x p a l b).hostMem = s.hostMem :=
  (State.repaired_within s k d u x p a l b).hostMem rfl
@[simp] theorem State.repaired_scrambled (s : State) (k d u x p a l : Nat) (b : Bool) : (s.repaired k d u x p a l b).scrambled = s.scrambled :=
  (State.repaired_within s k d u x p a l b).scrambled rfl
@[simp] theorem State.repaired_held (s : State) (k d u x p a l : Nat) (b : Bool) : (s.repaired k d u x p a l b).held = s.held :=
  (State.repaired_within s k d u x p a l b).held rfl
@[simp] theorem State.repaired_regionMap (s : State) (k d u x p a l : Nat) (b : Bool) : (s.repaired k d u x p a l b).regionMap = s.regionMap :=
  (State.repaired_within s k d u x p a l b).regionMap rfl
@[simp] theorem State.repaired_commitBusy (s : State) (k d u x p a l : Nat) (b : Bool) : (s.repaired k d u x p a l b).commitBusy = s.commitBusy :=
  (State.repaired_within s k d u x p a l b).commitBusy rfl
@[simp] theorem State.repaired_fns (s : State) (k d u x p a l : Nat) (b : Bool) : (s.repaired k d u x p a l b).fns = s.fns :=
  (State.repaired_within s k d u x p a l b).fns rfl
@[simp] theorem State.repaired_ctxs (s : State) (k d u x p a l : Nat) (b : Bool) : (s.repaired k d u x p a l b).ctxs = s.ctxs :=
  (State.repaired_within s k d u x p a l b).ctxs rfl
@[simp] theorem State.repaired_rings (s : State) (k d u x p a l : Nat) (b : Bool) : (s.repaired k d u x p a l b).rings = s.rings :=
  (State.repaired_within s k d u x p a l b).rings rfl
@[simp] theorem State.repaired_nextSeq (s : State) (k d u x p a l : Nat) (b : Bool) : (s.repaired k d u x p a l b).nextSeq = s.nextSeq :=
  (State.repaired_within s k d u x p a l b).nextSeq rfl
@[simp] theorem State.repaired_descs (s : State) (k d u x p a l : Nat) (b : Bool) : (s.repaired k d u x p a l b).descs = s.descs :=
  (State.repaired_within s k d u x p a l b).descs rfl
@[simp] theorem State.repaired_plans (s : State) (k d u x p a l : Nat) (b : Bool) : (s.repaired k d u x p a l b).plans = s.plans :=
  (State.repaired_within s k d u x p a l b).plans rfl
@[simp] theorem State.repaired_chains (s : State) (k d u x p a l : Nat) (b : Bool) : (s.repaired k d u x p a l b).chains = s.chains :=
  (State.repaired_within s k d u x p a l b).chains rfl
@[simp] theorem State.repaired_disps (s : State) (k d u x p a l : Nat) (b : Bool) : (s.repaired k d u x p a l b).disps = s.disps :=
  (State.repaired_within s k d u x p a l b).disps rfl
@[simp] theorem State.repaired_switches (s : State) (k d u x p a l : Nat) (b : Bool) : (s.repaired k d u x p a l b).switches = s.switches :=
  (State.repaired_within s k d u x p a l b).switches rfl
@[simp] theorem State.repaired_recovery (s : State) (k d u x p a l : Nat) (b : Bool) : (s.repaired k d u x p a l b).recovery = s.recovery :=
  (State.repaired_within s k d u x p a l b).recovery rfl
@[simp] theorem State.repaired_reports (s : State) (k d u x p a l : Nat) (b : Bool) : (s.repaired k d u x p a l b).reports = s.reports :=
  (State.repaired_within s k d u x p a l b).reports rfl
@[simp] theorem State.repaired_arb (s : State) (k d u x p a l : Nat) (b : Bool) : (s.repaired k d u x p a l b).arb = s.arb :=
  (State.repaired_within s k d u x p a l b).arb rfl
@[simp] theorem State.repaired_cores (s : State) (k d u x p a l : Nat) (b : Bool) : (s.repaired k d u x p a l b).cores = s.cores :=
  (State.repaired_within s k d u x p a l b).cores rfl
@[simp] theorem State.repaired_dies (s : State) (k d u x p a l : Nat) (b : Bool) : (s.repaired k d u x p a l b).dies = s.dies :=
  (State.repaired_within s k d u x p a l b).dies rfl
@[simp] theorem State.repaired_credits (s : State) (k d u x p a l : Nat) (b : Bool) : (s.repaired k d u x p a l b).credits = s.credits :=
  (State.repaired_within s k d u x p a l b).credits rfl
@[simp] theorem State.repaired_colls (s : State) (k d u x p a l : Nat) (b : Bool) : (s.repaired k d u x p a l b).colls = s.colls :=
  (State.repaired_within s k d u x p a l b).colls rfl
@[simp] theorem State.repaired_combs (s : State) (k d u x p a l : Nat) (b : Bool) : (s.repaired k d u x p a l b).combs = s.combs :=
  (State.repaired_within s k d u x p a l b).combs rfl
@[simp] theorem State.repaired_arms (s : State) (k d u x p a l : Nat) (b : Bool) : (s.repaired k d u x p a l b).arms = s.arms :=
  (State.repaired_within s k d u x p a l b).arms rfl
@[simp] theorem State.repaired_hops (s : State) (k d u x p a l : Nat) (b : Bool) : (s.repaired k d u x p a l b).hops = s.hops :=
  (State.repaired_within s k d u x p a l b).hops rfl
@[simp] theorem State.repaired_streams (s : State) (k d u x p a l : Nat) (b : Bool) : (s.repaired k d u x p a l b).streams = s.streams :=
  (State.repaired_within s k d u x p a l b).streams rfl
@[simp] theorem State.repaired_dmaq (s : State) (k d u x p a l : Nat) (b : Bool) : (s.repaired k d u x p a l b).dmaq = s.dmaq :=
  (State.repaired_within s k d u x p a l b).dmaq rfl
@[simp] theorem State.repaired_mcs (s : State) (k d u x p a l : Nat) (b : Bool) : (s.repaired k d u x p a l b).mcs = s.mcs :=
  (State.repaired_within s k d u x p a l b).mcs rfl
@[simp] theorem State.repaired_frings (s : State) (k d u x p a l : Nat) (b : Bool) : (s.repaired k d u x p a l b).frings = s.frings :=
  (State.repaired_within s k d u x p a l b).frings rfl
@[simp] theorem State.repaired_ports (s : State) (k d u x p a l : Nat) (b : Bool) : (s.repaired k d u x p a l b).ports = s.ports :=
  (State.repaired_within s k d u x p a l b).ports rfl
@[simp] theorem State.repaired_fab (s : State) (k d u x p a l : Nat) (b : Bool) : (s.repaired k d u x p a l b).fab = s.fab :=
  (State.repaired_within s k d u x p a l b).fab rfl
@[simp] theorem State.repaired_meas (s : State) (k d u x p a l : Nat) (b : Bool) : (s.repaired k d u x p a l b).meas = s.meas :=
  (State.repaired_within s k d u x p a l b).meas rfl
@[simp] theorem State.repaired_spdmDoe (s : State) (k d u x p a l : Nat) (b : Bool) : (s.repaired k d u x p a l b).spdmDoe = s.spdmDoe :=
  (State.repaired_within s k d u x p a l b).spdmDoe rfl
@[simp] theorem State.repaired_spdmMctp (s : State) (k d u x p a l : Nat) (b : Bool) : (s.repaired k d u x p a l b).spdmMctp = s.spdmMctp :=
  (State.repaired_within s k d u x p a l b).spdmMctp rfl
@[simp] theorem State.repaired_boot (s : State) (k d u x p a l : Nat) (b : Bool) : (s.repaired k d u x p a l b).boot = s.boot :=
  (State.repaired_within s k d u x p a l b).boot rfl
@[simp] theorem State.repaired_fw (s : State) (k d u x p a l : Nat) (b : Bool) : (s.repaired k d u x p a l b).fw = s.fw :=
  (State.repaired_within s k d u x p a l b).fw rfl
@[simp] theorem State.repaired_ledgerFrac (s : State) (k d u x p a l : Nat) (b : Bool) : (s.repaired k d u x p a l b).ledgerFrac = s.ledgerFrac :=
  (State.repaired_within s k d u x p a l b).ledgerFrac rfl
@[simp] theorem State.repaired_busyNs (s : State) (k d u x p a l : Nat) (b : Bool) : (s.repaired k d u x p a l b).busyNs = s.busyNs :=
  (State.repaired_within s k d u x p a l b).busyNs rfl
@[simp] theorem State.repaired_ledgerQ (s : State) (k d u x p a l : Nat) (b : Bool) : (s.repaired k d u x p a l b).ledgerQ = s.ledgerQ :=
  (State.repaired_within s k d u x p a l b).ledgerQ rfl

/-! ### degraded -/

/-- A degraded event changes these parts only. -/
theorem State.degraded_within (s : State) (k d u x p a l : Nat) :
    Within [.store, .free, .hub, .regs, .out] s (s.degraded k d u x p a l) :=
  (State.degraded_keeps rfl (Keeps.refl _ s)).rest

@[simp] theorem State.degraded_pending (s : State) (k d u x p a l : Nat) : (s.degraded k d u x p a l).pending = s.pending :=
  (State.degraded_within s k d u x p a l).pending rfl
@[simp] theorem State.degraded_now (s : State) (k d u x p a l : Nat) : (s.degraded k d u x p a l).now = s.now :=
  (State.degraded_within s k d u x p a l).now rfl
@[simp] theorem State.degraded_latches (s : State) (k d u x p a l : Nat) : (s.degraded k d u x p a l).latches = s.latches :=
  (State.degraded_within s k d u x p a l).latches rfl
@[simp] theorem State.degraded_mem (s : State) (k d u x p a l : Nat) : (s.degraded k d u x p a l).mem = s.mem :=
  (State.degraded_within s k d u x p a l).mem rfl
@[simp] theorem State.degraded_hostMem (s : State) (k d u x p a l : Nat) : (s.degraded k d u x p a l).hostMem = s.hostMem :=
  (State.degraded_within s k d u x p a l).hostMem rfl
@[simp] theorem State.degraded_bad (s : State) (k d u x p a l : Nat) : (s.degraded k d u x p a l).bad = s.bad :=
  (State.degraded_within s k d u x p a l).bad rfl
@[simp] theorem State.degraded_scrambled (s : State) (k d u x p a l : Nat) : (s.degraded k d u x p a l).scrambled = s.scrambled :=
  (State.degraded_within s k d u x p a l).scrambled rfl
@[simp] theorem State.degraded_held (s : State) (k d u x p a l : Nat) : (s.degraded k d u x p a l).held = s.held :=
  (State.degraded_within s k d u x p a l).held rfl
@[simp] theorem State.degraded_regionMap (s : State) (k d u x p a l : Nat) : (s.degraded k d u x p a l).regionMap = s.regionMap :=
  (State.degraded_within s k d u x p a l).regionMap rfl
@[simp] theorem State.degraded_commitBusy (s : State) (k d u x p a l : Nat) : (s.degraded k d u x p a l).commitBusy = s.commitBusy :=
  (State.degraded_within s k d u x p a l).commitBusy rfl
@[simp] theorem State.degraded_fns (s : State) (k d u x p a l : Nat) : (s.degraded k d u x p a l).fns = s.fns :=
  (State.degraded_within s k d u x p a l).fns rfl
@[simp] theorem State.degraded_ctxs (s : State) (k d u x p a l : Nat) : (s.degraded k d u x p a l).ctxs = s.ctxs :=
  (State.degraded_within s k d u x p a l).ctxs rfl
@[simp] theorem State.degraded_rings (s : State) (k d u x p a l : Nat) : (s.degraded k d u x p a l).rings = s.rings :=
  (State.degraded_within s k d u x p a l).rings rfl
@[simp] theorem State.degraded_nextSeq (s : State) (k d u x p a l : Nat) : (s.degraded k d u x p a l).nextSeq = s.nextSeq :=
  (State.degraded_within s k d u x p a l).nextSeq rfl
@[simp] theorem State.degraded_descs (s : State) (k d u x p a l : Nat) : (s.degraded k d u x p a l).descs = s.descs :=
  (State.degraded_within s k d u x p a l).descs rfl
@[simp] theorem State.degraded_plans (s : State) (k d u x p a l : Nat) : (s.degraded k d u x p a l).plans = s.plans :=
  (State.degraded_within s k d u x p a l).plans rfl
@[simp] theorem State.degraded_chains (s : State) (k d u x p a l : Nat) : (s.degraded k d u x p a l).chains = s.chains :=
  (State.degraded_within s k d u x p a l).chains rfl
@[simp] theorem State.degraded_disps (s : State) (k d u x p a l : Nat) : (s.degraded k d u x p a l).disps = s.disps :=
  (State.degraded_within s k d u x p a l).disps rfl
@[simp] theorem State.degraded_switches (s : State) (k d u x p a l : Nat) : (s.degraded k d u x p a l).switches = s.switches :=
  (State.degraded_within s k d u x p a l).switches rfl
@[simp] theorem State.degraded_recovery (s : State) (k d u x p a l : Nat) : (s.degraded k d u x p a l).recovery = s.recovery :=
  (State.degraded_within s k d u x p a l).recovery rfl
@[simp] theorem State.degraded_reports (s : State) (k d u x p a l : Nat) : (s.degraded k d u x p a l).reports = s.reports :=
  (State.degraded_within s k d u x p a l).reports rfl
@[simp] theorem State.degraded_arb (s : State) (k d u x p a l : Nat) : (s.degraded k d u x p a l).arb = s.arb :=
  (State.degraded_within s k d u x p a l).arb rfl
@[simp] theorem State.degraded_cores (s : State) (k d u x p a l : Nat) : (s.degraded k d u x p a l).cores = s.cores :=
  (State.degraded_within s k d u x p a l).cores rfl
@[simp] theorem State.degraded_dies (s : State) (k d u x p a l : Nat) : (s.degraded k d u x p a l).dies = s.dies :=
  (State.degraded_within s k d u x p a l).dies rfl
@[simp] theorem State.degraded_credits (s : State) (k d u x p a l : Nat) : (s.degraded k d u x p a l).credits = s.credits :=
  (State.degraded_within s k d u x p a l).credits rfl
@[simp] theorem State.degraded_colls (s : State) (k d u x p a l : Nat) : (s.degraded k d u x p a l).colls = s.colls :=
  (State.degraded_within s k d u x p a l).colls rfl
@[simp] theorem State.degraded_combs (s : State) (k d u x p a l : Nat) : (s.degraded k d u x p a l).combs = s.combs :=
  (State.degraded_within s k d u x p a l).combs rfl
@[simp] theorem State.degraded_arms (s : State) (k d u x p a l : Nat) : (s.degraded k d u x p a l).arms = s.arms :=
  (State.degraded_within s k d u x p a l).arms rfl
@[simp] theorem State.degraded_hops (s : State) (k d u x p a l : Nat) : (s.degraded k d u x p a l).hops = s.hops :=
  (State.degraded_within s k d u x p a l).hops rfl
@[simp] theorem State.degraded_streams (s : State) (k d u x p a l : Nat) : (s.degraded k d u x p a l).streams = s.streams :=
  (State.degraded_within s k d u x p a l).streams rfl
@[simp] theorem State.degraded_dmaq (s : State) (k d u x p a l : Nat) : (s.degraded k d u x p a l).dmaq = s.dmaq :=
  (State.degraded_within s k d u x p a l).dmaq rfl
@[simp] theorem State.degraded_mcs (s : State) (k d u x p a l : Nat) : (s.degraded k d u x p a l).mcs = s.mcs :=
  (State.degraded_within s k d u x p a l).mcs rfl
@[simp] theorem State.degraded_frings (s : State) (k d u x p a l : Nat) : (s.degraded k d u x p a l).frings = s.frings :=
  (State.degraded_within s k d u x p a l).frings rfl
@[simp] theorem State.degraded_ports (s : State) (k d u x p a l : Nat) : (s.degraded k d u x p a l).ports = s.ports :=
  (State.degraded_within s k d u x p a l).ports rfl
@[simp] theorem State.degraded_fab (s : State) (k d u x p a l : Nat) : (s.degraded k d u x p a l).fab = s.fab :=
  (State.degraded_within s k d u x p a l).fab rfl
@[simp] theorem State.degraded_meas (s : State) (k d u x p a l : Nat) : (s.degraded k d u x p a l).meas = s.meas :=
  (State.degraded_within s k d u x p a l).meas rfl
@[simp] theorem State.degraded_spdmDoe (s : State) (k d u x p a l : Nat) : (s.degraded k d u x p a l).spdmDoe = s.spdmDoe :=
  (State.degraded_within s k d u x p a l).spdmDoe rfl
@[simp] theorem State.degraded_spdmMctp (s : State) (k d u x p a l : Nat) : (s.degraded k d u x p a l).spdmMctp = s.spdmMctp :=
  (State.degraded_within s k d u x p a l).spdmMctp rfl
@[simp] theorem State.degraded_boot (s : State) (k d u x p a l : Nat) : (s.degraded k d u x p a l).boot = s.boot :=
  (State.degraded_within s k d u x p a l).boot rfl
@[simp] theorem State.degraded_fw (s : State) (k d u x p a l : Nat) : (s.degraded k d u x p a l).fw = s.fw :=
  (State.degraded_within s k d u x p a l).fw rfl
@[simp] theorem State.degraded_ledgerFrac (s : State) (k d u x p a l : Nat) : (s.degraded k d u x p a l).ledgerFrac = s.ledgerFrac :=
  (State.degraded_within s k d u x p a l).ledgerFrac rfl
@[simp] theorem State.degraded_trcSeq (s : State) (k d u x p a l : Nat) : (s.degraded k d u x p a l).trcSeq = s.trcSeq :=
  (State.degraded_within s k d u x p a l).trcSeq rfl
@[simp] theorem State.degraded_trcDrop (s : State) (k d u x p a l : Nat) : (s.degraded k d u x p a l).trcDrop = s.trcDrop :=
  (State.degraded_within s k d u x p a l).trcDrop rfl
@[simp] theorem State.degraded_trcTok (s : State) (k d u x p a l : Nat) : (s.degraded k d u x p a l).trcTok = s.trcTok :=
  (State.degraded_within s k d u x p a l).trcTok rfl
@[simp] theorem State.degraded_busyNs (s : State) (k d u x p a l : Nat) : (s.degraded k d u x p a l).busyNs = s.busyNs :=
  (State.degraded_within s k d u x p a l).busyNs rfl
@[simp] theorem State.degraded_acct (s : State) (k d u x p a l : Nat) : (s.degraded k d u x p a l).acct = s.acct :=
  (State.degraded_within s k d u x p a l).acct rfl
@[simp] theorem State.degraded_ledgerQ (s : State) (k d u x p a l : Nat) : (s.degraded k d u x p a l).ledgerQ = s.ledgerQ :=
  (State.degraded_within s k d u x p a l).ledgerQ rfl

end Sys2Proof.Machine
end

