-- ==== Sys2Proof/Laws/Descriptors.lean ====
section
/-! SUPPORT. What fetching and completing a descriptor, writing an event entry, and a write of memory can do. -/

namespace Sys2Proof.Machine

theorem Fn_enable_facts (x : Fn) : x.enable.en = true ∧ x.enable.disableRecorded = (x.disableRecorded && decide (x.st ≠ .off)) ∧
    x.enable.st = (if x.st = .off then .starting else x.st) ∧
    x.enable.pendingOn = (if x.st = .draining then true else x.pendingOn) := by
  obtain ⟨st, en, p, d⟩ := x
  cases st <;> simp [Fn.enable]


theorem foldl_same {α β : Type} (p : State → β) (l : List α) (f : State → α → State) (s : State)
    (h : ∀ t a, p (f t a) = p t) : p (l.foldl f s) = p s := by
  induction l generalizing s with
  | nil => rfl
  | cons a l ih => exact (ih (f s a)).trans (h s a)


theorem fold_inv {α : Type} (P : State → Prop) (l : List α) (f : State → α → State) (s : State) (h0 : P s)
    (hf : ∀ u a, P u → P (f u a)) : P (l.foldl f s) := by
  induction l generalizing s with
  | nil => exact h0
  | cons a l ih => exact ih _ (hf _ _ h0)


theorem toLe_length (n x : Nat) : (toLe n x).length = n := by
  induction n generalizing x with
  | zero => rfl
  | succ n ih => simp [toLe, ih]

theorem anyRead_write_self (s : State) (a : Nat) (bs : List Byte) : (s.anyWrite a bs).anyRead a bs.length = bs := by
  unfold State.anyWrite State.anyRead
  split
  · exact memRead_memWrite hostDefault _ bs
  · exact memRead_memWrite s.devDefault a bs

theorem anyWrite_frame (s : State) (a : Nat) (bs : List Byte) :
    s.anyWrite a bs = { s with mem := (s.anyWrite a bs).mem, hostMem := (s.anyWrite a bs).hostMem } := by
  unfold State.anyWrite State.devWrite
  split <;> rfl

theorem anyRead_congr (s t : State) (h1 : t.mem = s.mem) (h2 : t.hostMem = s.hostMem) (h3 : t.scrambled = s.scrambled) (a n : Nat) :
    t.anyRead a n = s.anyRead a n := by
  have : t.devDefault = s.devDefault := by funext a; simp only [State.devDefault, h3]
  simp only [State.anyRead, State.devRead, h1, h2, this]

theorem countBytes_frame (s : State) (w : Bool) (a len : Nat) :
    s.countBytes w a len = { s with regs := (s.countBytes w a len).regs, acct := (s.countBytes w a len).acct } :=
  (State.countBytes_keeps (ps := [.regs, .acct]) rfl (Keeps.refl _ s)).rest

theorem chargeBytes_frame (s : State) (n : CtxId) (src : Option Die) (a len : Nat) :
    s.chargeBytes n src a len = { s with acct := (s.chargeBytes n src a len).acct } :=
  (State.chargeBytes_keeps (ps := [.acct]) rfl (Keeps.refl _ s)).rest

/-- A device write that has been allowed, while no open collective guards an area: the bytes, counters in registers, and
the errors of the codewords it covers. -/
theorem putBytes_plain (s : State) (a : Nat) (bs : List Byte) (hc : s.colls.flatMap (fun c => c.guards) = []) :
    s.putBytes a bs = { s with regs := (s.putBytes a bs).regs, acct := (s.putBytes a bs).acct, mem := memWrite s.devDefault s.mem a bs,
                               bad := s.bad.filter (fun c => !(decide (a ≤ c) && decide (c + 32 ≤ a + bs.length))) } := by
  unfold State.putBytes
  have hg : ∀ u : State, u.colls = s.colls → u.spoil a bs.length = u := by
    intro u hu
    unfold State.spoil
    rw [hu, hc]
    simp
  rw [hg]
  · rw [countBytes_frame]; rfl
  · rw [countBytes_frame]; rfl

/-- A hub-side write that is clear is that of its bytes, with counters in registers and covered errors gone. -/
theorem hubPut_clear (s : State) (n : CtxId) (a : Nat) (bs : List Byte) (h : Clear s a bs.length) :
    s.hubPut n a bs = { s.anyWrite a bs with regs := (s.hubPut n a bs).regs, bad := (s.hubPut n a bs).bad,
                                             acct := (s.hubPut n a bs).acct } := by
  unfold State.hubPut
  cases hh : isHost a with
  | true => rw [if_pos rfl]
  | false =>
    rw [if_neg (by decide), (h hh).1]
    have hw : s.anyWrite a bs = s.devWrite a bs := by unfold State.anyWrite; rw [hh]; rfl
    rw [hw]
    dsimp only
    rw [chargeBytes_frame, putBytes_plain s a bs (h hh).2]
    rfl

theorem hubPut_read (s : State) (n : CtxId) (a : Nat) (bs : List Byte) (h : Clear s a bs.length) :
    (s.hubPut n a bs).anyRead a bs.length = bs := by
  rw [hubPut_clear s n a bs h]
  exact anyRead_write_self s a bs

theorem find_filter_ne (l : List Desc) (q seq : Nat) (h : q ≠ seq) :
    (l.filter (fun y => y.seq != seq)).find? (fun y => y.seq == q) = l.find? (fun y => y.seq == q) := by
  rw [List.find?_filter]
  congr 1; funext y
  by_cases hy : y.seq = q
  · simp [hy, h]
  · simp [hy]

theorem find_filter_gone (l : List Desc) (seq : Nat) :
    (l.filter (fun y => y.seq != seq)).find? (fun y => y.seq == seq) = none := by
  rw [List.find?_eq_none]; intro y hy; rw [List.mem_filter] at hy; simpa using hy.2

theorem find_updIf (l : List Desc) (q seq : Nat) (f : Desc → Desc) (hf : ∀ y, (f y).seq = y.seq) :
    (updIf l (fun y => y.seq == seq) f).find? (fun y => y.seq == q) =
      (l.find? (fun y => y.seq == q)).map (fun y => if q = seq then f y else y) := by
  induction l with
  | nil => rfl
  | cons y l ih =>
    simp only [updIf, List.map_cons, List.find?_cons] at ih ⊢
    have hs : (if (y.seq == seq) = true then f y else y).seq = y.seq := by split; exact hf y; rfl
    rw [hs]
    by_cases h2 : y.seq = q
    · rw [show (y.seq == q) = true from beq_iff_eq.2 h2]
      simp only [Option.map_some]
      by_cases h1 : y.seq = seq
      · rw [if_pos (beq_iff_eq.2 h1), if_pos (h2.symm.trans h1)]
      · rw [if_neg (fun e => h1 (beq_iff_eq.1 e)), if_neg (fun e => h1 (h2.trans e))]
    · rw [show (y.seq == q) = false from beq_eq_false_iff_ne.2 h2]
      exact ih

theorem complete_open (s : State) (seq : Nat) (st : Byte) (dt : W16) (x : Desc) (h : s.desc seq = some x) (hx : x.st ≠ .done) :
    s.complete seq st dt = (
      let s := s.hubPut (ringCtx x.ring) (s.slotAddr x.ring x.slot + 0x38) (toLe 8 (statusWord st dt s.now))
      let s := s.modRing x.ring (fun r => { r with semHold := if r.semHold = some seq then none else r.semHold })
      if (leAt x.bytes 1 1) % 2 = 1 then { s with descs := s.descs.filter (fun y => y.seq != seq) }
      else
        let s := s.modDesc seq (fun y => { y with st := .done, status := st, detail := dt })
        s.eventPush (ringCtx x.ring) { ring := x.ring, index := x.slot, ty := BitVec.ofNat 8 x.ty, status := st, detail := dt, time := s.now, seq := some seq }) := by
  unfold State.complete
  rw [h]
  simp only [hx, if_false]

theorem ringMsix_frame (s : State) (r : RingId) : s.ringMsix r = { s with
    regs := (s.ringMsix r).regs, rings := (s.ringMsix r).rings, out := (s.ringMsix r).out, hub := (s.ringMsix r).hub } :=
  (State.ringMsix_keeps (ps := [.regs, .rings, .out, .hub]) rfl (Keeps.refl _ s)).rest

def doneAll (seq : Nat) (t : State) : Prop := ∀ y ∈ t.descs, y.seq = seq → y.st = .done

theorem doneAll_isDone (seq : Nat) (t : State) (h : doneAll seq t) : t.isDone seq = true := by
  unfold State.isDone
  cases hd : t.desc seq with
  | none => rfl
  | some y =>
    simp only
    rw [decide_eq_true_eq]
    have h1 := List.find?_some hd
    have h2 := List.mem_of_find?_eq_some hd
    exact h y h2 (by simpa using h1)
/-- What writing the event entries of a context may do to descriptors in flight and to contexts. -/
structure EvRel (n : CtxId) (s t : State) : Prop where
  descs : ∀ y ∈ t.descs, y ∈ s.descs
  other : ∀ m, m ≠ n → t.ctx m = s.ctx m
  sems : (t.ctx n).sems = (s.ctx n).sems

theorem EvRel.ofEq (n : CtxId) {s t : State} (h1 : t.descs = s.descs) (h2 : t.ctxs = s.ctxs) : EvRel n s t := by
  refine ⟨fun y hy => h1 ▸ hy, fun m _ => ?_, ?_⟩ <;> simp only [State.ctx, h2]

theorem EvRel.refl (n : CtxId) (s : State) : EvRel n s s := EvRel.ofEq n rfl rfl

theorem EvRel.trans {n : CtxId} {s t u : State} (h : EvRel n s t) (k : EvRel n t u) : EvRel n s u :=
  ⟨fun y hy => h.descs y (k.descs y hy), fun m hm => (k.other m hm).trans (h.other m hm), k.sems.trans h.sems⟩

theorem EvRel.modCtx (n : CtxId) (s : State) (f : Ctx → Ctx) (hf : ∀ c, (f c).sems = c.sems) : EvRel n s (s.modCtx n f) := by
  refine ⟨fun _ h => h, fun m hm => ?_, ?_⟩
  · exact SMap.getD_put_other _ _ _ (fun e => hm (Fin.ext e))
  · rw [State.modCtx_self]; exact hf _

theorem EvRel.eventWrite (n : CtxId) (s : State) (e : EventEnt) : EvRel n s (s.eventWrite n e) := by
  unfold State.eventWrite
  simp only
  have h1 : EvRel n s (s.hubPut n ((s.reg .hifCtxEvqBase 0 n.val 0).toNat + 16 * (s.ctx n).prod)
      (eventBytes e (s.ctx n).phase)) := EvRel.ofEq n (by simp) (by simp)
  generalize State.hubPut s n _ _ = u at h1 ⊢
  generalize hv : State.modCtx u n _ = v
  have h2 : EvRel n u v := by rw [← hv]; exact EvRel.modCtx n u _ (fun c => rfl)
  have h3 : ∀ w, EvRel n v w → EvRel n v (w.ringMsix e.ring) := by
    intro w hw
    refine hw.trans ?_
    rw [ringMsix_frame]
    exact EvRel.ofEq n rfl rfl
  refine h1.trans (h2.trans (h3 _ ?_))
  split
  · exact ⟨fun y hy => (List.mem_filter.1 hy).1, fun _ _ => rfl, rfl⟩
  · exact EvRel.refl _ _

theorem EvRel.drainN (n : CtxId) (k : Nat) (s : State) : EvRel n s (s.eventDrainN n k) := by
  induction k generalizing s with
  | zero => exact EvRel.refl _ _
  | succ k ih =>
    unfold State.eventDrainN
    split
    · exact EvRel.refl _ _
    · split
      · rename_i e rest _ _
        exact (EvRel.modCtx n s (fun c => { c with evWait := rest }) (fun c => rfl)).trans ((EvRel.eventWrite n _ e).trans (ih _))
      · exact EvRel.refl _ _

/-- Draining ends with the hold of a context that has no entry left waiting. -/
theorem eventDrain_eq (s : State) (n : CtxId) : s.eventDrain n = (
    let w := s.eventDrainN n (s.ctx n).evWait.length
    if (w.ctx n).evHold && (w.ctx n).evWait.isEmpty then w.modCtx n (fun c => { c with evHold := false }) else w) := rfl

theorem EvRel.drain (n : CtxId) (s : State) : EvRel n s (s.eventDrain n) := by
  rw [eventDrain_eq]
  dsimp only
  refine (EvRel.drainN n (s.ctx n).evWait.length s).trans ?_
  split
  · exact EvRel.modCtx n _ _ (fun _ => rfl)
  · exact EvRel.refl _ _

theorem EvRel.push (n : CtxId) (s : State) (e : EventEnt) : EvRel n s (s.eventPush n e) :=
  (EvRel.modCtx n s (fun c => { c with evWait := c.evWait ++ [e] }) (fun _ => rfl)).trans (EvRel.drain n _)

/-- The end of a hold changes its own field only, and after it a context without waiting entries is not held. -/
theorem unhold_facts (w : State) (n : CtxId) (hw : (w.ctx n).evWait = []) :
    let v := if (w.ctx n).evHold && (w.ctx n).evWait.isEmpty then w.modCtx n (fun c => { c with evHold := false }) else w
    v = { w with ctxs := v.ctxs } ∧ v.ctx n = { w.ctx n with evHold := false } := by
  intro v
  by_cases h : (w.ctx n).evHold = true
  · have hv : v = w.modCtx n (fun c => { c with evHold := false }) := by
      simp only [v, h, hw, List.isEmpty_nil, Bool.and_self, if_true]
    rw [hv]
    exact ⟨rfl, State.modCtx_self w n _⟩
  · have h' : (w.ctx n).evHold = false := Bool.eq_false_iff.2 h
    have hv : v = w := by simp only [v, h', Bool.false_and, Bool.false_eq_true, if_false]
    rw [hv]
    exact ⟨rfl, by rw [← h']⟩

theorem drain_full (n : CtxId) (k : Nat) (s : State) (h : s.evqRoom n = false) : s.eventDrainN n k = s := by
  cases k with
  | zero => rfl
  | succ k =>
    unfold State.eventDrainN
    split
    · rfl
    · rw [h]; simp

theorem EvRel.isDone {n : CtxId} {s t : State} (h : EvRel n s t) {seq : Nat} (hd : doneAll seq s) : doneAll seq t :=
  fun y hy he => hd y (h.descs y hy) he

theorem complete_isDone (s : State) (seq : Nat) (st : Byte) (dt : W16) : (s.complete seq st dt).isDone seq = true := by
  cases h : s.desc seq with
  | none => simp [State.complete, h, State.isDone]
  | some x =>
    by_cases hx : x.st = .done
    · simp [State.complete, h, hx, State.isDone]
    · rw [complete_open s seq st dt x h hx]
      simp only
      split
      · unfold State.isDone State.desc
        rw [find_filter_gone]
      · apply doneAll_isDone
        apply EvRel.isDone (EvRel.push _ _ _)
        intro y hy he
        simp only [State.modDesc, updIf, List.mem_map] at hy
        obtain ⟨z, hz, rfl⟩ := hy
        by_cases hzz : z.seq = seq
        · rw [if_pos (beq_iff_eq.2 hzz)]
        · rw [if_neg (fun e => hzz (beq_iff_eq.1 e))] at he
          exact absurd he hzz

theorem evqRoom_congr (s t : State) (n : CtxId) (h1 : t.regs = s.regs) (h2 : (t.ctx n).prod = (s.ctx n).prod) (h3 : (t.ctx n).cons = (s.ctx n).cons) :
    t.evqRoom n = s.evqRoom n := by
  unfold State.evqRoom State.evqSize State.regFld State.reg
  simp only [h1]
  rw [decide_eq_decide, h2, h3]

theorem eventWrite_facts (z : State) (n : CtxId) (e : EventEnt) (seq : Nat) (he : e.seq = some seq)
    (hc : Clear z ((z.reg .hifCtxEvqBase 0 n.val 0).toNat + 16 * (z.ctx n).prod) 16) :
    let r := z.eventWrite n e
    r.anyRead ((z.reg .hifCtxEvqBase 0 n.val 0).toNat + 16 * (z.ctx n).prod) 16 = eventBytes e (z.ctx n).phase ∧
    r.descs = z.descs.filter (fun x => x.seq != seq) ∧
    r.ctx n = { z.ctx n with prod := ((z.ctx n).prod + 1) % z.evqSize n
                             phase := if ((z.ctx n).prod + 1) % z.evqSize n = 0 then !(z.ctx n).phase else (z.ctx n).phase } := by
  intro r
  have hlen : (eventBytes e (z.ctx n).phase).length = 16 := by simp [eventBytes, toLe_length]
  have hrd := hubPut_read z n _ (eventBytes e (z.ctx n).phase) (hlen ▸ hc)
  rw [hlen] at hrd
  have hyc : (z.hubPut n ((z.reg .hifCtxEvqBase 0 n.val 0).toNat + 16 * (z.ctx n).prod) (eventBytes e (z.ctx n).phase)).ctx n =
      z.ctx n := by simp only [State.ctx, State.hubPut_ctxs]
  have hyd := State.hubPut_descs z n ((z.reg .hifCtxEvqBase 0 n.val 0).toNat + 16 * (z.ctx n).prod) (eventBytes e (z.ctx n).phase)
  have hr : z.eventWrite n e = r := rfl
  clear_value r
  unfold State.eventWrite at hr
  simp only [he] at hr
  generalize z.hubPut n ((z.reg .hifCtxEvqBase 0 n.val 0).toNat + 16 * (z.ctx n).prod) (eventBytes e (z.ctx n).phase) = y
    at hrd hyc hyd hr
  generalize hw : y.modCtx n _ = w at hr
  have hwc := State.modCtx_self y n (fun c => { c with prod := ((z.ctx n).prod + 1) % z.evqSize n, phase := if ((z.ctx n).prod + 1) % z.evqSize n = 0 then !c.phase else c.phase })
  rw [hw] at hwc
  have hwm : w.mem = y.mem ∧ w.hostMem = y.hostMem ∧ w.scrambled = y.scrambled ∧ w.descs = y.descs := by rw [← hw]; exact ⟨rfl, rfl, rfl, rfl⟩
  have hrf := ringMsix_frame ({ w with descs := w.descs.filter (fun x => x.seq != seq) }) e.ring
  rw [hr] at hrf
  refine ⟨?_, ?_, ?_⟩
  · rw [← hrd]
    refine anyRead_congr y r ?_ ?_ ?_ _ _
    · rw [hrf]; exact hwm.1
    · rw [hrf]; exact hwm.2.1
    · rw [hrf]; exact hwm.2.2.1
  · rw [hrf]
    change w.descs.filter _ = _
    rw [hwm.2.2.2, hyd]
  · rw [hrf]
    change w.ctx n = _
    rw [hwc, hyc]

theorem push_room (u : State) (n : CtxId) (e : EventEnt) (seq : Nat) (he : e.seq = some seq) (hew : (u.ctx n).evWait = [])
    (hroom : u.evqRoom n = true) (hc : Clear u ((u.reg .hifCtxEvqBase 0 n.val 0).toNat + 16 * (u.ctx n).prod) 16) :
    let r := u.eventPush n e
    r.anyRead ((u.reg .hifCtxEvqBase 0 n.val 0).toNat + 16 * (u.ctx n).prod) 16 = eventBytes e (u.ctx n).phase ∧
    r.descs = u.descs.filter (fun x => x.seq != seq) ∧
    r.ctx n = { u.ctx n with prod := ((u.ctx n).prod + 1) % u.evqSize n
                             phase := if ((u.ctx n).prod + 1) % u.evqSize n = 0 then !(u.ctx n).phase else (u.ctx n).phase
                             evHold := false } := by
  have hp : (u.modCtx n (fun c => { c with evWait := c.evWait ++ [e] })).eventDrainN n
      ((u.modCtx n (fun c => { c with evWait := c.evWait ++ [e] })).ctx n).evWait.length = (((u.modCtx n (fun c => { c with evWait := c.evWait ++ [e] })).modCtx n (fun c => { c with evWait := [] })).eventWrite n e) := by
    rw [State.modCtx_self]
    simp only [hew, List.nil_append, List.length_cons, List.length_nil]
    unfold State.eventDrainN
    rw [State.modCtx_self]
    simp only [hew, List.nil_append]
    have hroom2 : (u.modCtx n (fun c => { c with evWait := c.evWait ++ [e] })).evqRoom n = true := by
      rw [← hroom]
      exact evqRoom_congr _ _ _ rfl (by rw [State.modCtx_self]) (by rw [State.modCtx_self])
    rw [if_pos hroom2]
    rfl
  generalize hz : ((u.modCtx n (fun c => { c with evWait := c.evWait ++ [e] })).modCtx n (fun c => { c with evWait := [] })) = z at hp
  have hzc : z.ctx n = u.ctx n := by
    rw [← hz, State.modCtx_self, State.modCtx_self]
    revert hew
    generalize u.ctx n = c
    intro hew
    cases c
    simp only at hew
    simp only [hew]
  have h2 : z.reg .hifCtxEvqBase 0 n.val 0 = u.reg .hifCtxEvqBase 0 n.val 0 := by rw [← hz]; rfl
  have hcz : Clear z ((z.reg .hifCtxEvqBase 0 n.val 0).toNat + 16 * (z.ctx n).prod) 16 := by
    rw [h2, hzc]
    have e1 : z.bad = u.bad := by rw [← hz]; rfl
    have e2 : z.colls = u.colls := by rw [← hz]; rfl
    intro hh
    have := hc hh
    unfold State.badPartial at this ⊢
    rw [e1, e2]; exact this
  have hk := eventWrite_facts z n e seq he hcz
  have h3 : z.descs = u.descs := by rw [← hz]; rfl
  have h4 : z.evqSize n = u.evqSize n := by rw [← hz]; rfl
  rw [hzc, h2, h3, h4] at hk
  have hr : u.eventPush n e = (
      let w := z.eventWrite n e
      if (w.ctx n).evHold && (w.ctx n).evWait.isEmpty then w.modCtx n (fun c => { c with evHold := false }) else w) := by
    unfold State.eventPush
    rw [eventDrain_eq, hp]
  generalize z.eventWrite n e = w at hk hr
  obtain ⟨k1, k2, k3⟩ := hk
  have hv := unhold_facts w n (by rw [k3]; exact hew)
  dsimp only at hv hr ⊢
  rw [← hr] at hv
  generalize u.eventPush n e = v at hv ⊢
  obtain ⟨v1, v2⟩ := hv
  refine ⟨?_, ?_, ?_⟩
  · rw [← k1]
    exact anyRead_congr w v (by rw [v1]) (by rw [v1]) (by rw [v1]) _ _
  · rw [v1]; exact k2
  · rw [v2, k3]

theorem frame_rings (s w v : State) (hw : w = { s with mem := w.mem, hostMem := w.hostMem }) (hv : v = { w with rings := v.rings }) :
    v = { s with mem := v.mem, hostMem := v.hostMem, rings := v.rings } := by
  have h1 : v.mem = w.mem := by have := congrArg State.mem hv; exact this
  have h2 : v.hostMem = w.hostMem := by have := congrArg State.hostMem hv; exact this
  have h3 := hv.trans (congrArg (fun u : State => { u with rings := v.rings }) hw)
  rw [h1, h2]
  exact h3

theorem anyWrite_dev (s : State) (a : Nat) (bs : List Byte) (hh : isHost a = false) :
    (s.anyWrite a bs).hostMem = s.hostMem ∧ ∀ b, b < a ∨ a + bs.length ≤ b → (s.anyWrite a bs).devRead b 1 = s.devRead b 1 := by
  unfold State.anyWrite
  rw [if_neg (by rw [hh]; decide)]
  refine ⟨rfl, fun b hb => ?_⟩
  simp only [State.devRead, memRead]
  exact congrArg (· :: []) (memByte_memWrite_other s.devDefault s.mem _ hb)

theorem anyWrite_host (s : State) (a : Nat) (bs : List Byte) (hh : isHost a = true) :
    (s.anyWrite a bs).mem = s.mem ∧ ∀ b, b < hostAddr a ∨ hostAddr a + bs.length ≤ b →
      memByte hostDefault (s.anyWrite a bs).hostMem b = memByte hostDefault s.hostMem b := by
  unfold State.anyWrite
  rw [if_pos hh]
  exact ⟨rfl, fun b hb => memByte_memWrite_other hostDefault s.hostMem _ hb⟩

theorem started_some {s : State} {seq ty : Nat} {x : Desc} (h : s.started seq ty = some x) :
    s.desc seq = some x ∧ x.st = .started ∧ x.ty = ty := by
  unfold State.started at h
  rw [Option.filter_eq_some_iff] at h
  obtain ⟨h1, h2⟩ := h
  simp only [Bool.and_eq_true, beq_iff_eq, decide_eq_true_eq] at h2
  exact ⟨h1, h2.1.1.2, h2.1.1.1⟩


/-- A read that counts leaves the size of a ring alone. -/
theorem jobRead_ringSize (s : State) (n : CtxId) (src : Option Die) (a len : Nat) (r : RingId) :
    (s.jobRead n src a len).ringSize r = s.ringSize r := by
  have hr := r.isLt
  unfold State.ringSize State.regFld
  rw [(jobRead_counted s n src a len).hubReg (q := .hifRingCfg)]
  simp only [RegId.off, RegId.row]; simp; omega

/-- The fetch of a slot, after the read of the slot has counted. -/
theorem fetch_eq (s : State) (r : RingId) :
    (s.fetch r).1 = (
      let u := s.jobRead (ringCtx r) none (s.slotAddr r (s.headSlot r)) 64
      { ((u.setReg .hifRingHead 0 r.val 0 (BitVec.ofNat 64 ((s.headSlot r + 1) % s.ringSize r))).setRegFld .hifRingStat 0
            r.val 0 1 1 0).modRing r (fun y => { y with
              fetched := y.fetched + 1
              semHold := if leAt (s.headBytes r) 0 1 = 0x07 then some (s.fetch r).2.seq else none }) with
        descs := s.descs ++ [(s.fetch r).2]
        nextSeq := s.nextSeq + 1
        arb := { s.arb with fetch := ((s.grantFor r).getD (0, s.arb.fetch)).2
                            grant := if leAt (s.headBytes r) 0 1 = 0x07 then none
                                     else some (r, ((s.grantFor r).getD (0, s.arb.fetch)).1 - 1) } }) := by
  unfold State.fetch
  simp only [State.modRing_descs, State.setRegFld_descs, State.setReg_descs, State.jobRead_descs, State.modRing_nextSeq,
    State.setRegFld_nextSeq, State.setReg_nextSeq, State.jobRead_nextSeq, State.modRing_arb, State.setRegFld_arb,
    State.setReg_arb, State.jobRead_arb, jobRead_ringSize]

theorem fetch_descs (s : State) (r : RingId) : (s.fetch r).1.descs = s.descs ++ [(s.fetch r).2] := by rw [fetch_eq]

theorem fetch_hub (s : State) (r : RingId) : (s.fetch r).1.hub = s.hub := by
  rw [fetch_eq]
  exact State.jobRead_hub _ _ _ _ _

theorem fetch_regionMap (s : State) (r : RingId) : (s.fetch r).1.regionMap = s.regionMap := by
  rw [fetch_eq]
  exact State.jobRead_regionMap _ _ _ _ _

/-- What a fetch changes, its counting included. -/
theorem fetch_frame (s : State) (r : RingId) :
    let t := (s.fetch r).1
    t = { s with free := t.free, mcs := t.mcs, regs := t.regs, acct := t.acct, dies := t.dies, cores := t.cores
                 rings := t.rings, descs := t.descs, nextSeq := s.nextSeq + 1, arb := t.arb } := by
  intro t
  have h := (jobRead_counted s (ringCtx r) none (s.slotAddr r (s.headSlot r)) 64).same
  have ht : t = (s.fetch r).1 := rfl
  rw [fetch_eq] at ht
  generalize s.jobRead (ringCtx r) none (s.slotAddr r (s.headSlot r)) 64 = u at h ht
  rw [ht, h]
  rfl

theorem fetch_desc (s : State) (r : RingId) (h : FlightOk s) : (s.fetch r).1.desc s.nextSeq = some (s.fetch r).2 := by
  have hn : s.descs.find? (fun x => x.seq == s.nextSeq) = none := by
    rw [List.find?_eq_none]
    intro x hx
    have := h.2.1 x hx
    simp only [beq_iff_eq]; omega
  unfold State.desc
  rw [fetch_descs, List.find?_append, hn]
  simp [State.fetch]

theorem mod_last (l : List Desc) (x : Desc) (f : Desc → Desc) (hl : ∀ y ∈ l, y.seq < x.seq) :
    updIf (l ++ [x]) (fun y => y.seq == x.seq) f = l ++ [f x] := by
  unfold updIf
  rw [List.map_append]
  congr 1
  · conv_rhs => rw [← List.map_id l]
    refine List.map_congr_left (fun y hy => ?_)
    have := hl y hy
    rw [if_neg (by simp only [beq_iff_eq]; omega)]; rfl
  · simp

theorem fetch_mod (s : State) (r : RingId) (f : Desc → Desc) (h : FlightOk s) :
    (s.fetch r).1.modDesc s.nextSeq f = { (s.fetch r).1 with descs := s.descs ++ [{ f (s.fetch r).2 with seq := s.nextSeq, ring := r }] } := by
  unfold State.modDesc
  have := mod_last s.descs (s.fetch r).2 (fun x => { f x with seq := x.seq, ring := x.ring }) h.2.1
  rw [fetch_descs]
  change ({ (s.fetch r).1 with descs := updIf (s.descs ++ [(s.fetch r).2]) (fun x => x.seq == (s.fetch r).2.seq) _ } : State) = _
  rw [this]
  rfl


theorem fetch_regs (s : State) (r : RingId) :
    (s.fetch r).1.reg .hifRingHead 0 r.val 0 = BitVec.ofNat 64 ((s.headSlot r + 1) % s.ringSize r) ∧
    (s.fetch r).1.regFld .hifRingStat 0 r.val 0 1 1 = 0 ∧
    (∀ q d i j, RegId.off q d i j ≠ RegId.off .hifRingHead 0 r.val 0 →
        RegId.off q d i j ≠ RegId.off .hifRingStat 0 r.val 0 →
        (s.fetch r).1.reg q d i j = (s.jobRead (ringCtx r) none (s.slotAddr r (s.headSlot r)) 64).reg q d i j) := by
  rw [fetch_eq]
  generalize s.jobRead (ringCtx r) none (s.slotAddr r (s.headSlot r)) 64 = u
  refine ⟨?_, ?_, fun q d i j h1 h2 => ?_⟩
  · change ((u.setReg .hifRingHead 0 r.val 0 _).setRegFld .hifRingStat 0 r.val 0 1 1 0).reg .hifRingHead 0 r.val 0 = _
    unfold State.setRegFld State.modReg
    rw [State.setReg_other, State.setReg_self]
    simp [RegId.off, RegId.row]
  · change fld (((u.setReg .hifRingHead 0 r.val 0 _).setRegFld .hifRingStat 0 r.val 0 1 1 0).reg .hifRingStat 0 r.val 0) 1 1 = _
    unfold State.setRegFld
    rw [State.modReg_self]
    exact fld_setFld_self _ (by decide) (by decide) (by decide)
  · change ((u.setReg .hifRingHead 0 r.val 0 _).setRegFld .hifRingStat 0 r.val 0 1 1 0).reg q d i j = _
    unfold State.setRegFld State.modReg
    rw [State.setReg_other _ _ h2, State.setReg_other _ _ h1]

/-- Registers of the module's own block other than the ring's HEAD and STAT read as before. -/
theorem fetch_hubReg (s : State) (r : RingId) {q : RegId} {d i j : Nat} (hq : q.off d i j < 0x100000)
    (h1 : RegId.off q d i j ≠ RegId.off .hifRingHead 0 r.val 0) (h2 : RegId.off q d i j ≠ RegId.off .hifRingStat 0 r.val 0) :
    (s.fetch r).1.reg q d i j = s.reg q d i j :=
  ((fetch_regs s r).2.2 q d i j h1 h2).trans ((jobRead_counted s _ _ _ _).hubReg hq)

theorem fetch_ring (s : State) (r : RingId) :
    ((s.fetch r).1.ring r).semHold = (if leAt (s.headBytes r) 0 1 = 0x07 then some s.nextSeq else none) := by
  rw [fetch_eq]
  dsimp only
  generalize State.setRegFld _ _ _ _ _ _ _ _ = u
  change (State.ring (u.modRing r (fun y => { y with fetched := y.fetched + 1, semHold := if leAt (s.headBytes r) 0 1 = 0x07 then some s.nextSeq else none })) r).semHold = _
  rw [State.modRing_self]

theorem commonCheck_noDisp (s u : State) (n : CtxId) (b : List Byte) (h : leAt b 0 1 ≠ 1) : u.commonCheck n b = s.commonCheck n b := by
  have hf : argsFlag b = false := by unfold argsFlag; simp [h]
  unfold State.commonCheck State.arg0Set
  simp only [hf, Bool.false_and]

theorem fetchThen_pass (s : State) (r : RingId) (ok check atF start) (hf : s.fetchable r = true) (hk : ok (s.headBytes r) = true)
    (ho : s.hub.outOfService = false) (hc : (s.fetch r).1.commonCheck (ringCtx r) (s.headBytes r) = none)
    (hch : check (s.fetch r).1 (s.fetch r).2 = none) :
    fetchThen r ok check atF start s =
      (let u := atF (s.fetch r).2 (s.fetch r).1
       if u.isDone s.nextSeq then u
       else if u.fenceHeld (s.fetch r).2 then u.modDesc s.nextSeq (fun y => { y with held := true })
       else start s.nextSeq u) := by
  unfold fetchThen
  rw [hf, hk]
  simp only [Bool.and_self, if_true]
  have h1 : (s.fetch r).1.hub.outOfService = false := by rw [fetch_hub]; exact ho
  have h2 : (s.fetch r).1.commonCheck (ringCtx (s.fetch r).2.ring) (s.fetch r).2.bytes = none := hc
  rw [h1, h2, hch]
  rfl

theorem fenceHeld_fetch (s : State) (r : RingId) (h : FlightOk s) :
    (s.fetch r).1.fenceHeld (s.fetch r).2 = s.descs.any (fun f => fenceCovers f r) := by
  unfold State.fenceHeld
  rw [fetch_descs, List.any_append]
  have e1 : [(s.fetch r).2].any (fun f => decide (f.seq < (s.fetch r).2.seq) && fenceCovers f (s.fetch r).2.ring) = false := by simp
  rw [e1, Bool.or_false]
  have : ∀ (l : List Desc), (∀ y ∈ l, y.seq < s.nextSeq) →
      l.any (fun f => decide (f.seq < (s.fetch r).2.seq) && fenceCovers f (s.fetch r).2.ring) = l.any (fun f => fenceCovers f r) := by
    intro l hl
    induction l with
    | nil => rfl
    | cons y l ih =>
      rw [List.any_cons, List.any_cons, ih (fun z hz => hl z (List.mem_cons_of_mem _ hz))]
      have hy : decide (y.seq < (s.fetch r).2.seq) = true := decide_eq_true (hl y List.mem_cons_self)
      rw [hy, Bool.true_and]; rfl
  exact this _ h.2.1

theorem fetch_open (s : State) (r : RingId) (h : FlightOk s) : (s.fetch r).1.isDone s.nextSeq = false := by
  unfold State.isDone
  rw [fetch_desc s r h]
  rfl


/-- Completing a descriptor adds none to those in flight: each that stays was there, or is done. -/
theorem complete_rel (s : State) (seq : Nat) (st : Byte) (dt : W16) :
    ∀ y ∈ (s.complete seq st dt).descs, y ∈ s.descs ∨ y.st = .done := by
  cases h : s.desc seq with
  | none => simp only [State.complete, h]; exact fun y hy => .inl hy
  | some x =>
    by_cases hx : x.st = .done
    · simp only [State.complete, h, hx, if_true]; exact fun y hy => .inl hy
    · rw [complete_open s seq st dt x h hx]
      simp only
      have hw := State.hubPut_descs s (ringCtx x.ring) (s.slotAddr x.ring x.slot + 0x38) (toLe 8 (statusWord st dt s.now))
      generalize s.hubPut (ringCtx x.ring) (s.slotAddr x.ring x.slot + 0x38) (toLe 8 (statusWord st dt s.now)) = w at hw ⊢
      split
      · intro y hy
        exact .inl (hw ▸ (List.mem_filter.1 hy).1)
      · intro y hy
        have := (EvRel.push _ _ _).descs y hy
        simp only [State.modDesc, updIf, List.mem_map] at this
        obtain ⟨z, hz, rfl⟩ := this
        split
        · exact .inr rfl
        · exact .inl (hw ▸ hz)

/-- Completing a descriptor leaves every semaphore alone. -/
theorem complete_sems (s : State) (seq : Nat) (st : Byte) (dt : W16) (m : CtxId) :
    ((s.complete seq st dt).ctx m).sems = (s.ctx m).sems := by
  cases h : s.desc seq with
  | none => simp [State.complete, h]
  | some x =>
    by_cases hx : x.st = .done
    · simp [State.complete, h, hx]
    · rw [complete_open s seq st dt x h hx]
      simp only
      have hw := State.hubPut_ctxs s (ringCtx x.ring) (s.slotAddr x.ring x.slot + 0x38) (toLe 8 (statusWord st dt s.now))
      generalize s.hubPut (ringCtx x.ring) (s.slotAddr x.ring x.slot + 0x38) (toLe 8 (statusWord st dt s.now)) = w at hw ⊢
      split
      · change (w.ctx m).sems = _
        simp only [State.ctx, hw]
      · generalize hu : State.modDesc _ seq _ = u
        have huc : u.ctxs = s.ctxs := by rw [← hu]; exact hw
        have hr := EvRel.push (ringCtx x.ring) u { ring := x.ring, index := x.slot, ty := BitVec.ofNat 8 x.ty, status := st, detail := dt, time := u.now, seq := some seq }
        generalize u.eventPush (ringCtx x.ring) _ = t at hr
        have huu : ∀ k, u.ctx k = s.ctx k := by intro k; simp only [State.ctx, huc]
        by_cases hm : m = ringCtx x.ring
        · subst hm; rw [hr.sems, huu]
        · rw [hr.other m hm, huu]

theorem complete_doneAll (s : State) (seq : Nat) (st : Byte) (dt : W16) (x : Desc) (h : s.desc seq = some x) (hx : x.st ≠ .done) :
    doneAll seq (s.complete seq st dt) := by
  rw [complete_open s seq st dt x h hx]
  simp only
  split
  · intro y hy he
    have := (List.mem_filter.1 hy).2
    simp [he] at this
  · apply EvRel.isDone (EvRel.push _ _ _)
    intro y hy he
    simp only [State.modDesc, updIf, List.mem_map] at hy
    obtain ⟨z, hz, rfl⟩ := hy
    by_cases hzz : z.seq = seq
    · rw [if_pos (beq_iff_eq.2 hzz)]
    · rw [if_neg (fun e => hzz (beq_iff_eq.1 e))] at he
      exact absurd he hzz

/-- A SILENT descriptor completes with its status quadword alone. -/
theorem silent_facts (s : State) (seq : Nat) (st : Byte) (dt : W16) (x : Desc) (h : s.desc seq = some x) (hx : x.st ≠ .done)
    (hs : leAt x.bytes 1 1 % 2 = 1) (hc : Clear s (s.slotAddr x.ring x.slot + 0x38) 8) :
    let t := s.complete seq st dt
    let slot := s.slotAddr x.ring x.slot + 0x38
    t = { s with regs := t.regs, acct := t.acct, mem := t.mem, hostMem := t.hostMem, bad := t.bad, rings := t.rings
                 descs := s.descs.filter (fun y => y.seq != seq) } ∧
    t.anyRead slot 8 = toLe 8 (statusWord st dt s.now) ∧
    (isHost slot = false → t.hostMem = s.hostMem ∧ ∀ a, a < slot ∨ slot + 8 ≤ a → t.devRead a 1 = s.devRead a 1) ∧
    (isHost slot = true → t.mem = s.mem ∧ ∀ a, a < hostAddr slot ∨ hostAddr slot + 8 ≤ a →
          memByte hostDefault t.hostMem a = memByte hostDefault s.hostMem a) := by
  intro t slot
  have ht : s.complete seq st dt = t := rfl
  clear_value t
  rw [complete_open s seq st dt x h hx] at ht
  simp only [hs, if_true] at ht
  have hwf := hubPut_clear s (ringCtx x.ring) slot (toLe 8 (statusWord st dt s.now)) (by rw [toLe_length]; exact hc)
  have haf := anyWrite_frame s slot (toLe 8 (statusWord st dt s.now))
  have hq := anyRead_write_self s slot (toLe 8 (statusWord st dt s.now))
  have hd := anyWrite_dev s slot (toLe 8 (statusWord st dt s.now))
  have hh := anyWrite_host s slot (toLe 8 (statusWord st dt s.now))
  rw [toLe_length] at hq hd hh
  change ({ (State.modRing (s.hubPut (ringCtx x.ring) slot (toLe 8 (statusWord st dt s.now))) x.ring _) with descs := _ } : State) = t
    at ht
  generalize s.hubPut (ringCtx x.ring) slot (toLe 8 (statusWord st dt s.now)) = w at ht hwf
  generalize s.anyWrite slot (toLe 8 (statusWord st dt s.now)) = u at hwf haf hq hd hh
  have hsc : u.scrambled = s.scrambled := by rw [haf]
  have hm : t.mem = u.mem ∧ t.hostMem = u.hostMem ∧ t.scrambled = u.scrambled := by
    rw [← ht, hwf]; exact ⟨rfl, rfl, rfl⟩
  refine ⟨?_, ?_, fun k => ?_, fun k => ?_⟩
  · rw [← ht, hwf, haf]
    rfl
  · rw [← hq]; exact anyRead_congr u _ hm.1 hm.2.1 hm.2.2 _ _
  · obtain ⟨a, b⟩ := hd k
    refine ⟨hm.2.1.trans a, fun z hz => ?_⟩
    rw [← b z hz]
    have e : t.devDefault = u.devDefault := by funext q; simp only [State.devDefault, hm.2.2]
    simp only [State.devRead]
    rw [e, hm.1]
  · obtain ⟨a, b⟩ := hh k
    refine ⟨hm.1.trans a, fun z hz => ?_⟩
    rw [← b z hz]
    exact congrArg (fun m => memByte hostDefault m z) hm.2.1

theorem modDesc_self {s : State} {seq : Nat} {x : Desc} (f : Desc → Desc) (h : s.desc seq = some x) :
    (s.modDesc seq f).desc seq = some { f x with seq := x.seq, ring := x.ring } := by
  unfold State.modDesc State.desc at *
  have := find_updIf s.descs seq seq (fun x => { f x with seq := x.seq, ring := x.ring }) (fun y => rfl)
  rw [h] at this
  simpa using this

theorem modDesc_other {s : State} {seq q : Nat} (f : Desc → Desc) (h : q ≠ seq) :
    (s.modDesc seq f).desc q = s.desc q := by
  unfold State.modDesc State.desc
  have := find_updIf s.descs q seq (fun x => { f x with seq := x.seq, ring := x.ring }) (fun y => rfl)
  refine this.trans ?_
  simp [h]

theorem memRead_length (d : Nat → Byte) (m : SMap Byte) (a n : Nat) : (memRead d m a n).length = n := by
  induction n generalizing a with
  | zero => rfl
  | succ n ih => simp only [memRead, List.length_cons, ih]

theorem anyRead_length (s : State) (a n : Nat) : (s.anyRead a n).length = n := by
  unfold State.anyRead State.devRead
  split <;> exact memRead_length _ _ _ _

/-- Which HBM a context holds rests on its ranges and the region map only. -/
theorem hbmInRanges_congr (s t : State) (n : CtxId)
    (h1 : ∀ j, j < 4 → t.reg .hifCtxRange 0 n.val j = s.reg .hifCtxRange 0 n.val j) (h3 : t.regionMap = s.regionMap)
    (a len : Nat) : t.hbmInRanges n a len = s.hbmInRanges n a len := by
  have hr : ∀ j, t.region j = s.region j := by intro j; simp only [State.region, h3]
  have hb : ∀ x, t.hbmBacked x = s.hbmBacked x := by intro x; simp only [State.hbmBacked, hr]
  have hh : ∀ j, t.hasRegion n j = s.hasRegion n j := by
    intro j
    have : t.ranges n = s.ranges n := by
      unfold State.ranges
      congr 1
      exact List.map_congr_left (fun i hi => by rw [h1 i (List.mem_range.1 hi)])
    simp only [State.hasRegion, this]
  unfold State.hbmInRanges
  simp only [hb, hh]

/-- What a job may access rests on ranges, shares and the region map only. -/
theorem jobMay_congr (s t : State) (h1 : ∀ (n : CtxId) j, j < 4 → t.reg .hifCtxRange 0 n.val j = s.reg .hifCtxRange 0 n.val j)
    (h2 : ∀ n : CtxId, t.reg .hifCtxCfg 0 n.val 0 = s.reg .hifCtxCfg 0 n.val 0) (h3 : t.regionMap = s.regionMap)
    (n : CtxId) (a len : Nat) : t.jobMay n a len = s.jobMay n a len := by
  unfold State.jobMay State.galInShare State.share
  simp only [hbmInRanges_congr s t n (h1 n) h3, h2]

/-- A fetch changes registers of its ring only, so what jobs may access stands. -/
theorem fetch_ranges (s : State) (r : RingId) :
    (∀ (n : CtxId) j, j < 4 → (s.fetch r).1.reg .hifCtxRange 0 n.val j = s.reg .hifCtxRange 0 n.val j) ∧
    (∀ n : CtxId, (s.fetch r).1.reg .hifCtxCfg 0 n.val 0 = s.reg .hifCtxCfg 0 n.val 0) := by
  have hr := r.isLt
  refine ⟨fun n j hj => ?_, fun n => ?_⟩ <;>
  · have hn := n.isLt
    refine fetch_hubReg s r ?_ ?_ ?_ <;>
    · simp only [RegId.off, RegId.row]; simp; omega

theorem fetch_jobMay (s : State) (r : RingId) (n : CtxId) (a len : Nat) : (s.fetch r).1.jobMay n a len = s.jobMay n a len :=
  jobMay_congr s _ (fetch_ranges s r).1 (fetch_ranges s r).2 (fetch_regionMap s r) n a len

theorem readFault_congr (s t : State) (h : ∀ n a len, t.jobMay n a len = s.jobMay n a len) (hb : t.bad = s.bad)
    (n : CtxId) (a len : Nat) : t.readFault n a len = s.readFault n a len := by
  unfold State.readFault State.badIn
  simp only [h, hb]

theorem writeFault_congr (s t : State) (h : ∀ n a len, t.jobMay n a len = s.jobMay n a len) (hb : t.bad = s.bad)
    (hp : t.plans = s.plans) (n : CtxId) (a len : Nat) : t.writeFault n a len = s.writeFault n a len := by
  unfold State.writeFault State.badPartial State.planAreaOf
  simp only [h, hb, hp]

end Sys2Proof.Machine
end

