-- ==== Sys2Proof/Laws/Lookup.lean ====
section
/-! SUPPORT. What an update of one part of the state leaves of the others, single bits of registers, and folds that
reach each element once. -/

namespace Sys2Proof.Machine

/-! ### Other parts -/

theorem State.modCtx_other (s : State) {n m : CtxId} (f : Ctx → Ctx) (h : m ≠ n) : (s.modCtx n f).ctx m = s.ctx m :=
  SMap.getD_put_other _ _ _ (fun e => h (Fin.ext e))

theorem State.modRing_other (s : State) {r q : RingId} (f : Ring → Ring) (h : q ≠ r) : (s.modRing r f).ring q = s.ring q :=
  SMap.getD_put_other _ _ _ (fun e => h (Fin.ext e))

theorem State.modDie_other (s : State) {d e : Die} (f : DieSt → DieSt) (h : e ≠ d) : (s.modDie d f).die e = s.die e :=
  SMap.getD_put_other _ _ _ (fun x => h (Fin.ext x))

theorem State.modCore_other (s : State) {d e : Die} {p q : PCore} (f : Core → Core) (h : (e, q) ≠ (d, p)) :
    (s.modCore d p f).core e q = s.core e q :=
  SMap.getD_put_other _ _ _ (fun x => h (by
    have hp := p.isLt; have hq := q.isLt
    have h1 : e.val = d.val := by omega
    have h2 : q.val = p.val := by omega
    rw [Fin.ext h1, Fin.ext h2]))

theorem State.modStream_other (s : State) {d e : Die} {h k : Fin 256} (f : Stream → Stream) (hn : (e, k) ≠ (d, h)) :
    (s.modStream d h f).stream e k = s.stream e k :=
  SMap.getD_put_other _ _ _ (fun x => hn (by
    have hp := h.isLt; have hq := k.isLt
    simp only [strKey] at x
    have h1 : e.val = d.val := by omega
    have h2 : k.val = h.val := by omega
    rw [Fin.ext h1, Fin.ext h2]))

theorem State.modMc_other (s : State) {d e : Die} {m k : Mc} (f : McSt → McSt) (h : (e, k) ≠ (d, m)) :
    (s.modMc d m f).mc e k = s.mc e k :=
  SMap.getD_put_other _ _ _ (fun x => h (by
    have hp := m.isLt; have hq := k.isLt
    have h1 : e.val = d.val := by omega
    have h2 : k.val = m.val := by omega
    rw [Fin.ext h1, Fin.ext h2]))

theorem State.modFring_other (s : State) {i j : FRing} (f : FRingSt → FRingSt) (h : j ≠ i) :
    (s.modFring i f).fring j = s.fring j :=
  SMap.getD_put_other _ _ _ (fun e => h (Fin.ext e))

theorem State.modPort_other (s : State) {p q : PortId} (f : PortSt → PortSt) (h : q ≠ p) : (s.modPort p f).port q = s.port q :=
  SMap.getD_put_other _ _ _ (fun e => h (Fin.ext e))

theorem State.modIsland_other (s : State) {d e : Die} {x y : Island} (f : IslandSt → IslandSt) (h : (e, y) ≠ (d, x)) :
    (s.modIsland d x f).island e y = s.island e y := by
  unfold State.modIsland State.island
  by_cases hd : e = d
  · subst hd
    rw [State.modDie_self]
    exact SMap.getD_put_other _ _ _ (fun z => h (by rw [Fin.ext z]))
  · rw [State.modDie_other _ _ hd]

theorem find_upd {α : Type} (l : List α) (k : α → Nat) (q n : Nat) (f : α → α) (hf : ∀ y, k (f y) = k y) :
    (updIf l (fun x => k x == n) f).find? (fun x => k x == q) =
      (l.find? (fun x => k x == q)).map (fun x => if q = n then f x else x) := by
  unfold updIf
  induction l with
  | nil => rfl
  | cons a l ih =>
    simp only [List.map_cons, List.find?_cons]
    by_cases h : k a = q
    · have e1 : (k a == q) = true := by simp [h]
      have e2 : (k (if (k a == n) = true then f a else a) == q) = true := by
        split
        · rw [hf]; exact e1
        · exact e1
      rw [e1, e2]
      simp only [Option.map_some]
      by_cases hn : q = n
      · rw [if_pos hn, if_pos (by simp [h, hn])]
      · rw [if_neg hn, if_neg (by simp [h, hn])]
    · have e1 : (k a == q) = false := by simp [h]
      have e2 : (k (if (k a == n) = true then f a else a) == q) = false := by
        split
        · rw [hf]; exact e1
        · exact e1
      rw [e1, e2]; exact ih

theorem State.modDisp_disp (s : State) (q n : Nat) (f : Disp → Disp) (hf : ∀ y, (f y).seq = y.seq) :
    (s.modDisp n f).disp q = (s.disp q).map (fun x => if q = n then f x else x) :=
  find_upd s.disps (fun x => x.seq) q n f hf

theorem State.modColl_coll (s : State) (q n : Nat) (f : Coll → Coll) (hf : ∀ y, (f y).seq = y.seq) :
    (s.modColl n f).coll q = (s.coll q).map (fun x => if q = n then f x else x) :=
  find_upd s.colls (fun x => x.seq) q n f hf

/-! ### Single bits -/

theorem bit_fld (w : W64) (k : Nat) : w.getLsbD k = decide (fld w k k = 1) := by
  have e : fld w k k = w.toNat / 2 ^ k % 2 := by
    simp only [fld, bits]
    have : k + 1 - k = 1 := by omega
    rw [this, pow_one]
  rw [e]
  simp only [BitVec.getLsbD, Nat.testBit, Nat.shiftRight_eq_div_pow]
  rcases Nat.mod_two_eq_zero_or_one (w.toNat / 2 ^ k) with h | h <;> simp [h, Nat.one_and_eq_mod_two]

theorem setFld_bit_other (v : W64) {hi lo k : Nat} (x : Nat) (hl : lo ≤ hi) (hh : hi < 64) (h : k < lo ∨ hi < k) :
    (setFld v hi lo x).getLsbD k = v.getLsbD k := by
  rw [bit_fld, bit_fld, fld_setFld_other v hl hh (by rcases h with h | h <;> omega) (Nat.le_refl _)]

theorem setFld_bit_self (v : W64) (k x : Nat) (hk : k < 64) (hx : x < 2) : (setFld v k k x).getLsbD k = decide (x = 1) := by
  have h1 : k + 1 - k = 1 := by omega
  rw [bit_fld, fld_setFld_self v (Nat.le_refl _) hk (by rw [h1]; exact hx)]

theorem State.setRegFld_self (s : State) (r : RegId) (d i j : Nat) {hi lo x : Nat} (hl : lo ≤ hi) (hh : hi < 64)
    (hx : x < 2 ^ (hi + 1 - lo)) : (s.setRegFld r d i j hi lo x).regFld r d i j hi lo = x := by
  simp only [State.setRegFld, State.modReg, State.regFld, State.setReg_self]
  exact fld_setFld_self _ hl hh hx

theorem State.setRegFld_field (s : State) (r : RegId) (d i j : Nat) {hi lo x hi' lo' : Nat} (hl : lo ≤ hi) (hh : hi < 64)
    (h : hi' < lo ∨ hi < lo') (hl' : lo' ≤ hi') :
    (s.setRegFld r d i j hi lo x).regFld r d i j hi' lo' = s.regFld r d i j hi' lo' := by
  simp only [State.setRegFld, State.modReg, State.regFld, State.setReg_self]
  exact fld_setFld_other _ hl hh h hl'

theorem State.setRegFld_other (s : State) {r q : RegId} {d i j d' i' j' : Nat} (hi lo x : Nat)
    (h : q.off d' i' j' ≠ r.off d i j) : (s.setRegFld r d i j hi lo x).reg q d' i' j' = s.reg q d' i' j' :=
  State.setReg_other _ _ h

/-! ### A write of a 32-bit register that takes effect -/

theorem writeAt_narrow {s : State} {path : Path} {r : RegId} {d i j : Nat} (v : W64) (h : WritesAt s path (r.off d i j))
    (hr : regAt (r.off d i j) = some ⟨r, d, i, j, false⟩) (hw : r.row.wide = false) (ha : r.off d i j % 4 = 0) :
    writeAt path (r.off d i j) 4 v s = writeReg path ⟨r, d, i, j, false⟩ (BitVec.ofNat 64 (v.toNat % 2 ^ 32)) s := by
  rw [writeAt_word v h ha]
  simp only [writeWord, hr, hw, Bool.not_false, if_true, BitVec.toNat_setWidth]

/-! ### Folds -/

theorem foldl_hits' {α : Type} (I P : State → Prop) (l : List α) (f : State → α → State) (a : α) (s : State) (ha : a ∈ l)
    (h0 : I s) (hi : ∀ t b, I t → I (f t b)) (hit : ∀ t, I t → P (f t a)) (keep : ∀ t b, P t → P (f t b)) :
    P (l.foldl f s) := by
  induction l generalizing s with
  | nil => cases ha
  | cons b l ih =>
    rw [List.foldl_cons]
    rcases List.mem_cons.1 ha with h | h
    · subst h
      exact fold_inv P l f _ (hit s h0) (fun t b ht => keep t b ht)
    · exact ih _ h (hi s b h0)

theorem foldl_hits {α : Type} (P : State → Prop) (l : List α) (f : State → α → State) (a : α) (s : State) (ha : a ∈ l)
    (hit : ∀ t, P (f t a)) (keep : ∀ t b, P t → P (f t b)) : P (l.foldl f s) :=
  foldl_hits' (fun _ => True) P l f a s ha trivial (fun _ _ _ => trivial) (fun t _ => hit t) keep

end Sys2Proof.Machine
end

