-- ==== Sys2Proof/Laws/Events.lean ====
section
/-! SUPPORT. What a fault record, a repaired and a degraded event do (R426, R427, R446). -/

namespace Sys2Proof

open Machine

theorem RecordedAt.of_logRec (s : State) (time pause cls kind die unit detail addr left : Nat) :
    RecordedAt s (s.logRec time pause cls kind die unit detail addr left) time cls kind die unit :=
  ⟨Nat.lt_succ_self _, _, SMap.find_put_self _ _ _, rfl, rfl, rfl, rfl, rfl, rfl⟩

theorem Recorded.of_logFault (s : State) (cls kind die unit detail pm addr left : Nat) :
    Recorded s (s.logFault cls kind die unit detail pm addr left) cls kind die unit :=
  ⟨Nat.lt_succ_self _, _, SMap.find_put_self _ _ _, rfl, rfl, rfl, rfl, rfl, rfl⟩

theorem RecordedAt.congr {s s' t t' : State} {time cls kind die unit : Nat} (h : RecordedAt s t time cls kind die unit)
    (h1 : s'.store.cur.logSeq = s.store.cur.logSeq) (h3 : t'.store.cur = t.store.cur) :
    RecordedAt s' t' time cls kind die unit := by
  obtain ⟨hl, r, a, b, c⟩ := h
  exact ⟨by rw [h1, h3]; exact hl, r, by rw [h1, h3]; exact a, by rw [h1]; exact b, c⟩

theorem Recorded.congr {s s' t t' : State} {cls kind die unit : Nat} (h : Recorded s t cls kind die unit)
    (h1 : s'.store.cur.logSeq = s.store.cur.logSeq) (h2 : s'.now = s.now) (h3 : t'.store.cur = t.store.cur) :
    Recorded s' t' cls kind die unit := by
  unfold Recorded
  rw [h2]
  exact RecordedAt.congr h h1 h3

theorem RecordedAt.also {s t : State} {time cls kind die unit : Nat} (h : RecordedAt s t time cls kind die unit)
    (hs : t.store.cur.logSeq = s.store.cur.logSeq + 1) (tm p c k d u x a l : Nat) :
    RecordedAt s (t.logRec tm p c k d u x a l) time cls kind die unit := by
  obtain ⟨hl, r, h1, h2⟩ := h
  refine ⟨Nat.lt_succ_of_lt hl, r, ?_, h2⟩
  have : s.store.cur.logSeq % 4096 ≠ t.store.cur.logSeq % 4096 := by omega
  exact (SMap.find_put_other _ _ this).trans h1

theorem Machine.State.regFld_congr {s t : State} (h : t.regs = s.regs) (q : RegId) (d i j hi lo : Nat) :
    t.regFld q d i j hi lo = s.regFld q d i j hi lo := by
  unfold State.regFld State.reg
  rw [h]

theorem Machine.State.reg_congr {s t : State} (h : t.regs = s.regs) (q : RegId) (d i j : Nat) :
    t.reg q d i j = s.reg q d i j := by
  unfold State.reg
  rw [h]

theorem Machine.State.bump_self (s : State) (r : RegId) (d i k : Nat) (h : r.row.wide = false) :
    ((s.bump r d i k).reg r d i 0).toNat = ((s.reg r d i 0).toNat + k) % 2 ^ 32 := by
  unfold State.bump State.modReg
  rw [State.setReg_self, h]
  simp only [Bool.false_eq_true, if_false, BitVec.toNat_ofNat]
  exact Nat.mod_eq_of_lt (by have := Nat.mod_lt ((s.reg r d i 0).toNat + k) (show 2 ^ 32 > 0 by decide); omega)

theorem Machine.State.bump_other (s : State) {r q : RegId} {d i d' i' j' : Nat} (k : Nat)
    (h : q.off d' i' j' ≠ r.off d i 0) : (s.bump r d i k).reg q d' i' j' = s.reg q d' i' j' :=
  State.setReg_other _ _ h

theorem Machine.State.msix_frame (s : State) (v : Nat) :
    s.msix v = { s with hub := (s.msix v).hub, regs := (s.msix v).regs, out := (s.msix v).out } := State.msix_within s v

/-- A message changes the hub only in the messages that wait for a change-over. -/
theorem Machine.State.msix_hub (s : State) (v : Nat) :
    (s.msix v).hub = { s.hub with msixHeld := (s.msix v).hub.msixHeld } := by
  unfold State.msix State.msixSend
  split
  · rfl
  · split
    · split <;> rfl
    · rfl

theorem Machine.State.msix_reg (s : State) (v : Nat) {q : RegId} {d i j : Nat}
    (h : q.off d i j ≠ RegId.off .msixPending 0 (v / 32) 0) : (s.msix v).reg q d i j = s.reg q d i j := by
  unfold State.msix State.msixSend
  split
  · rfl
  · split
    · split
      · exact State.setReg_other _ _ h
      · rfl
    · rfl

theorem Machine.State.degraded_frame (s : State) (k d u x pm a l : Nat) :
    s.degraded k d u x pm a l = { s with
      free := (s.degraded k d u x pm a l).free
      store := (s.degraded k d u x pm a l).store
      hub := (s.degraded k d u x pm a l).hub
      regs := (s.degraded k d u x pm a l).regs
      out := (s.degraded k d u x pm a l).out } := State.degraded_within s k d u x pm a l

theorem Machine.State.degraded_reg (s : State) (k d u x pm a l : Nat) {q : RegId} {e i j : Nat}
    (h : q.off e i j ≠ RegId.off .avlDegraded 0 0 0) (hp : q.off e i j ≠ RegId.off .msixPending 0 8 0) :
    (s.degraded k d u x pm a l).reg q e i j = s.reg q e i j := by
  unfold State.degraded
  rw [State.msix_reg _ _ hp]
  exact State.setReg_other _ _ h

theorem Machine.State.degraded_event (s : State) (k d u x pm a l : Nat) (hk : k < 64) :
    Degrades s (s.degraded k d u x pm a l) k d u := by
  refine ⟨Recorded.congr (Recorded.of_logFault s clsDegraded k d u x pm a l) rfl rfl (by unfold State.degraded; rw [State.msix_store]; rfl), ?_⟩
  unfold State.degraded State.regFld
  rw [State.msix_reg _ _ (by decide +kernel)]
  exact State.setRegFld_self _ _ _ _ _ (Nat.le_refl k) hk (by
    have : k + 1 - k = 1 := by omega
    rw [this]; decide)

/-- A register that counts no bytes of memory. -/
def Machine.Uncounted (q : RegId) (d i j : Nat) : Prop :=
  ∀ e k, q.off d i j ≠ RegId.off .mcWrBytes e k 0 ∧ q.off d i j ≠ RegId.off .mcRdBytes e k 0 ∧
    q.off d i j ≠ RegId.off .galWrBytes e 0 0 ∧ q.off d i j ≠ RegId.off .galRdBytes e 0 0

theorem Machine.State.countBytes_reg (s : State) (w : Bool) (a len : Nat) {q : RegId} {d i j : Nat} (h : Uncounted q d i j) :
    (s.countBytes w a len).reg q d i j = s.reg q d i j := by
  unfold State.countBytes
  split
  · rfl
  · split
    · refine foldl_same (fun t => t.reg q d i j) _ _ s (fun t x => ?_)
      dsimp only
      refine (State.reg_congr (t := State.account _ _ _) rfl q d i j).trans ?_
      split
      · exact State.bump_other t _ (h _ _).1
      · exact State.bump_other t _ (h _ _).2.1
    · split
      · split
        · exact State.bump_other s _ (h _ 0).2.2.1
        · exact State.bump_other s _ (h _ 0).2.2.2
      · rfl

theorem Machine.State.spoil_regs (s : State) (a n : Nat) : (s.spoil a n).regs = s.regs :=
  (State.spoil_keeps (ps := [.free, .mem, .hostMem]) rfl (Keeps.refl _ s)).rest.regs rfl

theorem Machine.State.putBytes_reg (s : State) (a : Nat) (bs : List Byte) {q : RegId} {d i j : Nat} (h : Uncounted q d i j) :
    (s.putBytes a bs).reg q d i j = s.reg q d i j := by
  unfold State.putBytes
  exact (State.reg_congr (State.spoil_regs _ _ _) q d i j).trans (State.countBytes_reg _ true a bs.length h)

theorem Machine.State.ownPut_reg (s : State) (a : Nat) (bs : List Byte) {q : RegId} {d i j : Nat} (h : Uncounted q d i j) :
    (s.ownPut a bs).reg q d i j = s.reg q d i j := by
  unfold State.ownPut
  split
  · rfl
  · exact State.putBytes_reg s a bs h

theorem Machine.State.hubPut_reg (s : State) (n : CtxId) (a : Nat) (bs : List Byte) {q : RegId} {d i j : Nat}
    (h : Uncounted q d i j) : (s.hubPut n a bs).reg q d i j = s.reg q d i j := by
  unfold State.hubPut
  split
  · exact State.reg_congr (State.anyWrite_regs _ _ _) q d i j
  · split
    · split <;> rfl
    · rw [chargeBytes_frame]
      exact State.putBytes_reg s a bs h

/-- A register that no trace record touches: the ring's producer offset and the counts of records, drops and bytes. -/
structure Machine.Untraced (q : RegId) (d i j : Nat) : Prop where
  prod : q.off d i j ≠ RegId.off .trcRingProd 0 0 0
  records : ∀ k, q.off d i j ≠ RegId.off .trdRecords k 0 0
  lost : q.off d i j ≠ RegId.off .trcLost 0 0 0
  dieLost : ∀ k, q.off d i j ≠ RegId.off .trdLost k 0 0
  bytes : Uncounted q d i j

theorem Machine.State.traceWrite_reg (s : State) (src unit kind ctx : Nat) (data : List Byte) {q : RegId} {d i j : Nat}
    (h : Untraced q d i j) : (s.traceWrite src unit kind ctx data).reg q d i j = s.reg q d i j := by
  unfold State.traceWrite
  dsimp only
  generalize hu : s.ownPut _ _ = u
  have e : u.reg q d i j = s.reg q d i j := by rw [← hu]; exact State.ownPut_reg s _ _ h.bytes
  split
  · exact ((State.setReg_other _ _ (h.records src)).trans (State.setReg_other _ _ h.prod)).trans e
  · exact (State.setReg_other _ _ h.prod).trans e

theorem Machine.State.ite_reg {c : Prop} [Decidable c] {a b s : State} {q : RegId} {d i j : Nat}
    (ha : a.reg q d i j = s.reg q d i j) (hb : b.reg q d i j = s.reg q d i j) :
    (if c then a else b).reg q d i j = s.reg q d i j := by split <;> assumption

theorem Machine.State.traceRec_reg (s : State) (src unit kind ctx : Nat) (data : List Byte) {q : RegId} {d i j : Nat}
    (h : Untraced q d i j) : (s.traceRec src unit kind ctx data).reg q d i j = s.reg q d i j := by
  unfold State.traceRec
  split
  · extract_lets dd tok drop k
    clear_value k drop tok
    split
    · refine (State.traceWrite_reg _ _ _ _ _ _ h).trans ?_
      exact State.ite_reg rfl (State.traceWrite_reg _ src unit 0x0E 0x40 _ h)
    · split
      · exact State.setReg_other _ _ (h.dieLost src)
      · exact State.setReg_other _ _ h.lost
  · rfl

theorem Machine.State.repairedAt_event (s : State) (time p k d u x a l : Nat) (last : Bool) :
    RepairsAt s (s.repairedAt time p k d u x a l last) time k d u := by
  have h1 := RecordedAt.of_logRec s time p clsRepaired k d u x a l
  have e1 : ((s.logRec time p clsRepaired k d u x a l).traceRepair k u p).store =
      (s.logRec time p clsRepaired k d u x a l).store := State.traceRepair_store _ _ _ _
  have h2 : RecordedAt s ((s.logRec time p clsRepaired k d u x a l).traceRepair k u p) time clsRepaired k d u :=
    RecordedAt.congr h1 rfl (by rw [e1])
  unfold State.repairedAt
  dsimp only
  split
  · refine RecordedAt.congr (RecordedAt.also h2 ?_ time 0 clsDegraded k d u x a l) rfl (by rw [State.msix_store]; rfl)
    rw [e1]; rfl
  · exact RecordedAt.congr h2 rfl (by rw [State.msix_store])

theorem Machine.State.repaired_event (s : State) (k d u x pm a l : Nat) (last : Bool) :
    Repairs s (s.repaired k d u x pm a l last) k d u :=
  RecordedAt.congr (State.repairedAt_event { s with free := s.free + 1 } s.now (s.pauseOf pm) k d u x a l last) rfl rfl

theorem Machine.State.repairedAt_reg (s : State) (time p k d u x a l : Nat) (last : Bool) {q : RegId} {e i j : Nat}
    (h : q.off e i j ≠ RegId.off .avlDegraded 0 0 0) (hp : q.off e i j ≠ RegId.off .msixPending 0 8 0)
    (ht : Untraced q e i j) : (s.repairedAt time p k d u x a l last).reg q e i j = s.reg q e i j := by
  unfold State.repairedAt
  dsimp only
  rw [State.msix_reg _ _ hp]
  split
  · exact (State.setReg_other _ _ h).trans (State.traceRec_reg _ _ _ _ _ _ ht)
  · exact State.traceRec_reg _ _ _ _ _ _ ht

theorem Machine.State.repaired_reg (s : State) (k d u x pm a l : Nat) (last : Bool) {q : RegId} {e i j : Nat}
    (h : q.off e i j ≠ RegId.off .avlDegraded 0 0 0) (hp : q.off e i j ≠ RegId.off .msixPending 0 8 0)
    (ht : Untraced q e i j) : (s.repaired k d u x pm a l last).reg q e i j = s.reg q e i j :=
  State.repairedAt_reg { s with free := s.free + 1 } _ _ k d u x a l last h hp ht

theorem Machine.State.repairedAt_last (s : State) (time p k d u x a l : Nat) (hk : k < 64) :
    (s.repairedAt time p k d u x a l true).regFld .avlDegraded 0 0 0 k k = 1 := by
  unfold State.repairedAt State.regFld
  dsimp only
  rw [State.msix_reg _ _ (by decide +kernel), if_pos rfl]
  exact State.setRegFld_self _ _ _ _ _ (Nat.le_refl k) hk (by
    have : k + 1 - k = 1 := by omega
    rw [this]; decide)

theorem Machine.State.repaired_last (s : State) (k d u x pm a l : Nat) (hk : k < 64) :
    (s.repaired k d u x pm a l true).regFld .avlDegraded 0 0 0 k k = 1 :=
  State.repairedAt_last { s with free := s.free + 1 } _ _ k d u x a l hk

theorem Degrades.congr {s s' t t' : State} {kind die unit : Nat} (h : Degrades s t kind die unit)
    (h1 : s'.store.cur.logSeq = s.store.cur.logSeq) (h2 : s'.now = s.now) (h3 : t'.store.cur = t.store.cur)
    (h4 : t'.reg .avlDegraded 0 0 0 = t.reg .avlDegraded 0 0 0) : Degrades s' t' kind die unit :=
  ⟨Recorded.congr h.1 h1 h2 h3, by
    have := h.2
    unfold State.regFld at this ⊢
    rw [h4]; exact this⟩

/-- A fold in which one element establishes a property that every element keeps. -/
theorem Machine.foldl_hits_mem {α : Type} (I P : State → Prop) (l : List α) (f : State → α → State) (a : α) (s : State) (ha : a ∈ l)
    (h0 : I s) (hi : ∀ t, ∀ b ∈ l, I t → I (f t b)) (hit : ∀ t, I t → P (f t a)) (keep : ∀ t, ∀ b ∈ l, I t → P t → P (f t b)) :
    P (l.foldl f s) := by
  have key : ∀ (l' : List α) (t : State), (∀ b ∈ l', b ∈ l) → I t → P t → P (l'.foldl f t) := by
    intro l'
    induction l' with
    | nil => intro t _ _ h; exact h
    | cons b l' ih =>
      intro t hm hI hP
      exact ih _ (fun c hc => hm c (List.mem_cons_of_mem _ hc)) (hi t b (hm b List.mem_cons_self) hI) (keep t b (hm b List.mem_cons_self) hI hP)
  have main : ∀ (l' : List α) (t : State), (∀ b ∈ l', b ∈ l) → I t → a ∈ l' → P (l'.foldl f t) := by
    intro l'
    induction l' with
    | nil => intro t _ _ h; exact absurd h (by simp)
    | cons b l' ih =>
      intro t hm hI ha'
      by_cases e : a ∈ l'
      · exact ih _ (fun c hc => hm c (List.mem_cons_of_mem _ hc)) (hi t b (hm b List.mem_cons_self) hI) e
      · have : a = b := by
          rcases List.mem_cons.1 ha' with h | h
          · exact h
          · exact absurd h e
        subst this
        exact key l' _ (fun c hc => hm c (List.mem_cons_of_mem _ hc)) (hi t a (hm a List.mem_cons_self) hI) (hit t hI)
  exact main l s (fun _ h => h) h0 ha

theorem Machine.foldl_hits_mem' {α : Type} (P : State → Prop) (l : List α) (f : State → α → State) (a : α) (s : State) (ha : a ∈ l)
    (hit : ∀ t, P (f t a)) (keep : ∀ t, ∀ b ∈ l, P t → P (f t b)) : P (l.foldl f s) :=
  foldl_hits_mem (fun _ => True) P l f a s ha trivial (fun _ _ _ _ => trivial) (fun t _ => hit t) (fun t b hb _ h => keep t b hb h)

/-- A change of the view touches FAB_EVENT, a message and the lock with its slew beyond the change itself. -/
theorem viewStep_frame (f : State → State) (s : State) :
    ∃ (x : Bool) (y : Int) (z : Option Nat), viewStep f s = { f s with
      fab := { (f s).fab with locked := x, slew := y, lastOffset := z }
      hub := (viewStep f s).hub
      regs := (viewStep f s).regs
      out := (viewStep f s).out } := by
  unfold viewStep
  dsimp only
  split
  · exact ⟨_, _, _, rfl⟩
  · split
    · refine ⟨(f s).fab.locked, (f s).fab.slew, (f s).fab.lastOffset, ?_⟩
      unfold State.fabEvent
      rw [State.msix_frame]
      rfl
    · refine ⟨false, 0, none, ?_⟩
      unfold State.fabEvent
      rw [State.msix_frame]
      rfl

theorem viewStep_reg (f : State → State) (s : State) {q : RegId} {d i j : Nat}
    (h : q.off d i j ≠ RegId.off .fabEvent 0 0 0) (hp : q.off d i j ≠ RegId.off .msixPending 0 8 0) :
    (viewStep f s).reg q d i j = (f s).reg q d i j := by
  have e : ∀ t : State, (t.fabEvent 2).reg q d i j = t.reg q d i j := by
    intro t
    unfold State.fabEvent
    rw [State.msix_reg _ _ hp]
    exact State.setReg_other _ _ h
  unfold viewStep
  dsimp only
  split
  · rfl
  · rw [e]
    split <;> rfl

end Sys2Proof
end

