-- ==== Sys2Proof/Laws/KeepsTiles.lean ====
section
/-! SUPPORT. What is kept (Laws/Keeps.lean) by
records on the cores,
one lemma an operation: the parts of the state that it lists are all that the operation may change. -/

namespace Sys2Proof.Machine

set_option maxRecDepth 4096

variable {ps : List Part} {s0 : State}

/-! ### Tiles -/

theorem State.modPlaced_keeps {d : Die} {p : PCore} {pos : ℕ} {f : Placed → Placed} (hl : Parts.le [.cores] ps = true)
    {s : State} (hs : Keeps ps s0 s) : Keeps ps s0 (State.modPlaced s d p pos f) := by
  unfold State.modPlaced
  refine State.modCore_keeps hl ?_
  exact hs

theorem State.markIssued_keeps {e : Env}
    (hl : Parts.le [.trcTok, .free, .mem, .acct, .regs, .bad, .trcSeq, .trcDrop, .cores] ps = true) {s : State}
    (hs : Keeps ps s0 s) : Keeps ps s0 (State.markIssued s e) := by
  unfold State.markIssued
  refine State.traceRec_keeps (Parts.le_trans rfl hl) ?_
  refine State.modPlaced_keeps (Parts.le_trans rfl hl) ?_
  exact hs

theorem State.markDone_keeps {e : Env}
    (hl : Parts.le [.trcTok, .free, .mem, .acct, .regs, .bad, .trcSeq, .trcDrop, .cores] ps = true) {s : State}
    (hs : Keeps ps s0 s) : Keeps ps s0 (State.markDone s e) := by
  unfold State.markDone
  refine State.traceRec_keeps (Parts.le_trans rfl hl) ?_
  refine State.modCore_keeps (Parts.le_trans rfl hl) ?_
  exact hs

theorem State.modCtr_keeps {d : Die} {f : Counters → Counters} (hl : Parts.le [.dies] ps = true) {s : State}
    (hs : Keeps ps s0 s) : Keeps ps s0 (State.modCtr s d f) := by
  unfold State.modCtr
  refine State.modDie_keeps hl ?_
  exact hs

theorem State.putSlotFlags_keeps {d : Die} {p : PCore} {keep : Bool} {l' : List (ℕ × Fl)}
    (hl : Parts.le [.cores] ps = true) {s : State} (hs : Keeps ps s0 s) : Keeps ps s0
    (State.putSlotFlags s d p keep l').1 := by
  unfold State.putSlotFlags
  extract_lets +onlyGivenNames x1
  clear_value x1
  dsimp -zeta only
  refine State.modCore_keeps hl ?_
  exact hs

theorem State.noteFl_keeps {seq : ℕ} {f : Fl} (hl : Parts.le [.disps] ps = true) {s : State} (hs : Keeps ps s0 s) :
    Keeps ps s0 (State.noteFl s seq f) := by
  unfold State.noteFl
  refine Keeps.ite ?_ ?_
  · refine State.modDisp_keeps hl ?_
    exact hs
  · exact hs

theorem State.useRuns_keeps {e : Env} {write : Bool} {runs : List (ℕ × ℕ)}
    (hl : Parts.le [.acct, .regs, .dies] ps = true) {s : State} (hs : Keeps ps s0 s) : Keeps ps s0
    (State.useRuns s e write runs) := by
  unfold State.useRuns
  extract_lets +onlyGivenNames x1
  clear_value x1
  extract_lets +onlyGivenNames x2
  have hx2 : Keeps ps s0 x2 := by
    subst x2
    refine State.chargeRuns_keeps (Parts.le_trans rfl hl) ?_
    refine State.countRuns_keeps (Parts.le_trans rfl hl) ?_
    exact hs
  clear_value x2
  refine Keeps.ite ?_ ?_
  · exact hx2
  · refine State.modCtr_keeps (Parts.le_trans rfl hl) ?_
    exact hx2

theorem guarded_keeps {e : Env} {reads : List (ℕ × ℕ)} {writes : List (ℕ × ℕ)} {k : State → State}
    (hl : Parts.le [.reports, .free, .mem, .acct, .regs, .dies, .cores] ps = true)
    (hk : ∀ t, Keeps ps s0 t → Keeps ps s0 (k t)) {s : State} (hs : Keeps ps s0 s) : Keeps ps s0
    (guarded e reads writes k s) := by
  unfold guarded
  split
  · refine State.raise_keeps (Parts.le_trans rfl hl) ?_
    exact hs
  · split
    · refine State.raise_keeps (Parts.le_trans rfl hl) ?_
      exact hs
    · extract_lets +onlyGivenNames x1
      have hx1 : Keeps ps s0 x1 := by
        subst x1
        refine Keeps.foldl ?_ (fun t4 a2 ht3 => ?_)
        · apply hk
          refine State.useRuns_keeps (Parts.le_trans rfl hl) ?_
          refine State.useRuns_keeps (Parts.le_trans rfl hl) ?_
          exact hs
        · split
          refine State.spoil_keeps (Parts.le_trans rfl hl) ?_
          exact ht3
      clear_value x1
      refine State.modPlaced_keeps (Parts.le_trans rfl hl) ?_
      exact hx1

theorem State.storeMat_keeps {l' : Loc} {codes : List (List ℕ)} {scales : List (List ℕ)}
    (hl : Parts.le [.mem, .bad] ps = true) {s : State} (hs : Keeps ps s0 s) : Keeps ps s0
    (State.storeMat s l' codes scales) := by
  unfold State.storeMat
  extract_lets +onlyGivenNames x1
  have hx1 : Keeps ps s0 x1 := by
    subst x1
    refine State.putRows_keeps (Parts.le_trans rfl hl) ?_
    exact hs
  clear_value x1
  extract_lets +onlyGivenNames x2
  have hx2 : Keeps ps s0 x2 := by
    subst x2
    refine Keeps.ite ?_ ?_
    · refine State.putScales_keeps (Parts.le_trans rfl hl) ?_
      exact hx1
    · exact hx1
  clear_value x2
  refine Keeps.foldl ?_ (fun t5 a3 ht4 => ?_)
  · exact hx2
  · split
    refine State.clearBad_keeps (Parts.le_trans rfl hl) ?_
    exact ht4

theorem State.putStats_keeps {a : ℕ} {stats : List (ℕ × ℕ)} (hl : Parts.le [.mem] ps = true) {s : State}
    (hs : Keeps ps s0 s) : Keeps ps s0 (State.putStats s a stats) := by
  unfold State.putStats
  refine State.devWrite_keeps _ _ hl ?_
  exact hs

theorem State.renumber_keeps {d : Die} (hl : Parts.le [.cores] ps = true) {s : State} (hs : Keeps ps s0 s) : Keeps ps
    s0 (State.renumber s d) := by
  unfold State.renumber
  refine Keeps.foldl ?_ (fun t3 a1 ht2 => ?_)
  · exact hs
  · split
    refine Keeps.dite (fun c4 => ?_) (fun c5 => ?_)
    · refine State.modCore_keeps hl ?_
      exact ht2
    · exact ht2

theorem State.saveRetired_keeps {d : Die} {p : PCore} (hl : Parts.le [.store] ps = true) {s : State}
    (hs : Keeps ps s0 s) : Keeps ps s0 (State.saveRetired s d p) := by
  unfold State.saveRetired
  refine Keeps.upd [.store] hl rfl rfl ?_
  exact hs

theorem coreLost_keeps {d : Die} {p : PCore}
    (hl : Parts.le [.cores, .fns, .store, .free, .hub, .regs, .out, .reports] ps = true) {s : State}
    (hs : Keeps ps s0 s) : Keeps ps s0 (coreLost d p s) := by
  unfold coreLost
  extract_lets +onlyGivenNames x1
  clear_value x1
  extract_lets +onlyGivenNames x2
  have hx2 : Keeps ps s0 x2 := by
    subst x2
    refine State.modCore_keeps (Parts.le_trans rfl hl) ?_
    exact hs
  clear_value x2
  extract_lets +onlyGivenNames x3
  have hx3 : Keeps ps s0 x3 := by
    subst x3
    refine State.setFn_keeps (Parts.le_trans rfl hl) ?_
    exact hx2
  clear_value x3
  extract_lets +onlyGivenNames x4
  have hx4 : Keeps ps s0 x4 := by
    subst x4
    refine State.degraded_keeps (Parts.le_trans rfl hl) ?_
    refine State.saveRetired_keeps (Parts.le_trans rfl hl) ?_
    exact hx3
  clear_value x4
  refine Keeps.ite ?_ ?_
  · refine State.renumber_keeps (Parts.le_trans rfl hl) ?_
    exact hx4
  · refine State.raise_keeps (Parts.le_trans rfl hl) ?_
    exact hx4

theorem spareLost_keeps {d : Die} {p : PCore}
    (hl : Parts.le [.store, .cores, .trcTok, .free, .mem, .acct, .regs, .bad, .trcSeq, .trcDrop, .hub, .out, .dies,
      .fns, .reports] ps = true) {s : State} (hs : Keeps ps s0 s) : Keeps ps s0 (spareLost d p s) := by
  unfold spareLost
  extract_lets +onlyGivenNames x1
  have hx1 : Keeps ps s0 x1 := by
    subst x1
    refine State.saveRetired_keeps (Parts.le_trans rfl hl) ?_
    refine State.modCore_keeps (Parts.le_trans rfl hl) ?_
    exact hs
  clear_value x1
  extract_lets +onlyGivenNames x2
  clear_value x2
  extract_lets +onlyGivenNames x3
  have hx3 : Keeps ps s0 x3 := by
    subst x3
    refine State.repaired_keeps (Parts.le_trans rfl hl) ?_
    exact hx1
  clear_value x3
  split
  · exact hx3
  · split
    · refine State.modCore_keeps (Parts.le_trans rfl hl) ?_
      exact hx3
    · refine Keeps.ite ?_ ?_
      · refine State.modDie_keeps (Parts.le_trans rfl hl) ?_
        refine State.modCore_keeps (Parts.le_trans rfl hl) ?_
        exact hx3
      · refine coreLost_keeps (Parts.le_trans rfl hl) ?_
        exact hx3

theorem retireStart_keeps {d : Die} {p : PCore}
    (hl : Parts.le [.cores, .fns, .store, .free, .hub, .regs, .out, .reports] ps = true) {s : State}
    (hs : Keeps ps s0 s) : Keeps ps s0 (retireStart d p s) := by
  unfold retireStart
  refine Keeps.ite ?_ ?_
  · exact hs
  · split
    · refine State.modCore_keeps (Parts.le_trans rfl hl) ?_
      exact hs
    · refine coreLost_keeps hl ?_
      exact hs

theorem retireWaiting_keeps {d : Die}
    (hl : Parts.le [.cores, .store, .trcTok, .free, .mem, .acct, .regs, .bad, .trcSeq, .trcDrop, .hub, .out, .dies,
      .fns, .reports] ps = true) {s : State} (hs : Keeps ps s0 s) : Keeps ps s0 (retireWaiting d s) := by
  unfold retireWaiting
  refine Keeps.ite ?_ ?_
  · exact hs
  · refine Keeps.foldl ?_ (fun t3 a1 ht2 => ?_)
    · exact hs
    · extract_lets +onlyGivenNames x4
      have hx4 : Keeps ps s0 x4 := by
        subst x4
        refine State.modCore_keeps (Parts.le_trans rfl hl) ?_
        exact ht2
      clear_value x4
      split
      · exact hx4
      · refine spareLost_keeps (Parts.le_trans rfl hl) ?_
        exact hx4
      · refine retireStart_keeps (Parts.le_trans rfl hl) ?_
        exact hx4

theorem retireCore_keeps {d : Die} {p : PCore}
    (hl : Parts.le [.cores, .store, .trcTok, .free, .mem, .acct, .regs, .bad, .trcSeq, .trcDrop, .hub, .out, .dies,
      .fns, .reports] ps = true) {s : State} (hs : Keeps ps s0 s) : Keeps ps s0 (retireCore d p s) := by
  unfold retireCore
  split
  · exact hs
  · refine retireWaiting_keeps hl ?_
    refine spareLost_keeps (Parts.le_trans rfl hl) ?_
    exact hs
  · extract_lets +onlyGivenNames x1
    have hx1 : Keeps ps s0 x1 := by
      subst x1
      refine State.modCtr_keeps (Parts.le_trans rfl hl) ?_
      exact hs
    clear_value x1
    extract_lets +onlyGivenNames x2
    have hx2 : Keeps ps s0 x2 := by
      subst x2
      refine Keeps.ite ?_ ?_
      · exact hx1
      · refine State.modCore_keeps (Parts.le_trans rfl hl) ?_
        exact hx1
    clear_value x2
    refine Keeps.ite ?_ ?_
    · refine State.modCore_keeps (Parts.le_trans rfl hl) ?_
      exact hx2
    · refine retireStart_keeps (Parts.le_trans rfl hl) ?_
      exact hx2

theorem State.clearRange_keeps {a len : ℕ} (hl : Parts.le [.mem] ps = true) {s : State} (hs : Keeps ps s0 s) :
    Keeps ps s0 (State.clearRange s a len) := by
  unfold State.clearRange
  exact Keeps.filterMem [.mem] _ rfl hl rfl rfl hs

theorem State.copyRange_keeps {src : ℕ} {dst : ℕ} {len : ℕ} (hl : Parts.le [.mem] ps = true) {s : State}
    (hs : Keeps ps s0 s) : Keeps ps s0 (State.copyRange s src dst len) := by
  unfold State.copyRange
  extract_lets +onlyGivenNames x1
  clear_value x1
  refine Keeps.foldl ?_ (fun t4 a2 ht3 => ?_)
  · refine State.clearRange_keeps hl ?_
    exact hs
  · refine State.devWrite_keeps _ _ hl ?_
    exact ht3

theorem coreMoved_keeps {d : Die} {p : PCore} {q : PCore} {role : Role} (hl : Parts.le [.mem, .cores, .fns] ps = true)
    {s : State} (hs : Keeps ps s0 s) : Keeps ps s0 (coreMoved d p q role s) := by
  unfold coreMoved
  extract_lets +onlyGivenNames x1
  clear_value x1
  extract_lets +onlyGivenNames x2
  have hx2 : Keeps ps s0 x2 := by
    subst x2
    refine State.copyRange_keeps (Parts.le_trans rfl hl) ?_
    exact hs
  clear_value x2
  extract_lets +onlyGivenNames x3
  have hx3 : Keeps ps s0 x3 := by
    subst x3
    refine State.modCore_keeps (Parts.le_trans rfl hl) ?_
    exact hx2
  clear_value x3
  extract_lets +onlyGivenNames x4
  clear_value x4
  extract_lets +onlyGivenNames x5
  have hx5 : Keeps ps s0 x5 := by
    subst x5
    refine State.setFn_keeps (Parts.le_trans rfl hl) ?_
    exact hx3
  clear_value x5
  extract_lets +onlyGivenNames x6
  have hx6 : Keeps ps s0 x6 := by
    subst x6
    refine State.modCore_keeps (Parts.le_trans rfl hl) ?_
    exact hx5
  clear_value x6
  refine State.setFn_keeps (Parts.le_trans rfl hl) ?_
  exact hx6

theorem coreRetireDone_keeps {d : Die} {p : PCore} {q : PCore}
    (hl : Parts.le [.cores, .store, .trcTok, .free, .mem, .acct, .regs, .bad, .trcSeq, .trcDrop, .hub, .out, .dies,
      .fns, .reports] ps = true) {s : State} (hs : Keeps ps s0 s) : Keeps ps s0 (coreRetireDone d p q s) := by
  unfold coreRetireDone
  refine Keeps.ite ?_ ?_
  · refine retireWaiting_keeps hl ?_
    refine State.bump_keeps (Parts.le_trans rfl hl) ?_
    refine State.modDie_keeps (Parts.le_trans rfl hl) ?_
    refine coreMoved_keeps (Parts.le_trans rfl hl) ?_
    exact hs
  · extract_lets +onlyGivenNames x1
    clear_value x1
    extract_lets +onlyGivenNames x2
    have hx2 : Keeps ps s0 x2 := by
      subst x2
      refine coreMoved_keeps (Parts.le_trans rfl hl) ?_
      exact hs
    clear_value x2
    extract_lets +onlyGivenNames x3
    clear_value x3
    refine State.repairedSince_keeps (Parts.le_trans rfl hl) ?_
    refine State.saveRetired_keeps (Parts.le_trans rfl hl) ?_
    exact hx2

theorem coreRetireDoneEv_keeps {d : Die} {p : PCore}
    (hl : Parts.le [.cores, .store, .trcTok, .free, .mem, .acct, .regs, .bad, .trcSeq, .trcDrop, .hub, .out, .dies,
      .fns, .reports] ps = true) {s : State} (hs : Keeps ps s0 s) : Keeps ps s0 (coreRetireDoneEv d p s) := by
  unfold coreRetireDoneEv
  split
  · refine Keeps.ite ?_ ?_
    · refine coreRetireDone_keeps hl ?_
      exact hs
    · exact hs
  · exact hs

theorem State.csumLast_keeps {e : Env} {action : ℕ} {slot : ℕ} {row : ℕ} {col : ℕ} (hl : Parts.le [.regs] ps = true)
    {s : State} (hs : Keeps ps s0 s) : Keeps ps s0 (State.csumLast s e action slot row col) := by
  unfold State.csumLast
  refine State.setReg_keeps hl ?_
  exact hs

theorem State.saveArrayMap_keeps {d : Die} {p : PCore} (hl : Parts.le [.store] ps = true) {s : State}
    (hs : Keeps ps s0 s) : Keeps ps s0 (State.saveArrayMap s d p) := by
  unfold State.saveArrayMap
  extract_lets +onlyGivenNames x1
  clear_value x1
  refine Keeps.upd [.store] hl rfl rfl ?_
  exact hs

theorem csumMismatch_keeps {e : Env} {m : Csum} {again : Bool}
    (hl : Parts.le [.regs, .cores, .dies, .store, .trcTok, .free, .mem, .acct, .bad, .trcSeq, .trcDrop, .hub, .out,
      .fns, .reports] ps = true) {s : State} (hs : Keeps ps s0 s) : Keeps ps s0 (csumMismatch e m again s) := by
  unfold csumMismatch
  extract_lets +onlyGivenNames x1
  clear_value x1
  extract_lets +onlyGivenNames x2
  clear_value x2
  extract_lets +onlyGivenNames x3
  clear_value x3
  extract_lets +onlyGivenNames x4
  clear_value x4
  extract_lets +onlyGivenNames x5
  have hx5 : Keeps ps s0 x5 := by
    subst x5
    refine State.bump_keeps (Parts.le_trans rfl hl) ?_
    exact hs
  clear_value x5
  extract_lets +onlyGivenNames x6
  have hx6 : Keeps ps s0 x6 := by
    subst x6
    refine State.modPlaced_keeps (Parts.le_trans rfl hl) ?_
    exact hx5
  clear_value x6
  extract_lets +onlyGivenNames x7
  have hx7 : Keeps ps s0 x7 := by
    subst x7
    refine State.modCore_keeps (Parts.le_trans rfl hl) ?_
    exact hx6
  clear_value x7
  extract_lets +onlyGivenNames x8
  have hx8 : Keeps ps s0 x8 := by
    subst x8
    refine State.modCtr_keeps (Parts.le_trans rfl hl) ?_
    exact hx7
  clear_value x8
  extract_lets +onlyGivenNames x9
  clear_value x9
  extract_lets +onlyGivenNames x10
  clear_value x10
  extract_lets +onlyGivenNames x11
  clear_value x11
  refine Keeps.ite ?_ ?_
  · refine retireCore_keeps (Parts.le_trans rfl hl) ?_
    refine State.csumLast_keeps (Parts.le_trans rfl hl) ?_
    exact hx8
  · refine Keeps.ite ?_ ?_
    · refine State.repaired_keeps (Parts.le_trans rfl hl) ?_
      refine State.csumLast_keeps (Parts.le_trans rfl hl) ?_
      exact hx8
    · split
      · refine retireCore_keeps (Parts.le_trans rfl hl) ?_
        refine State.csumLast_keeps (Parts.le_trans rfl hl) ?_
        exact hx8
      · extract_lets +onlyGivenNames x12
        have hx12 : Keeps ps s0 x12 := by
          subst x12
          refine State.setRegFld_keeps (Parts.le_trans rfl hl) ?_
          exact hx8
        clear_value x12
        extract_lets +onlyGivenNames x13
        clear_value x13
        refine State.repaired_keeps (Parts.le_trans rfl hl) ?_
        refine State.saveArrayMap_keeps (Parts.le_trans rfl hl) ?_
        refine State.csumLast_keeps (Parts.le_trans rfl hl) ?_
        exact hx12

theorem State.countReplay_keeps {d : Die} {p : PCore} (hl : Parts.le [.dies, .regs] ps = true) {s : State}
    (hs : Keeps ps s0 s) : Keeps ps s0 (State.countReplay s d p) := by
  unfold State.countReplay
  refine State.modCtr_keeps (Parts.le_trans rfl hl) ?_
  refine State.bump_keeps (Parts.le_trans rfl hl) ?_
  exact hs

theorem residueRetire_keeps {e : Env}
    (hl : Parts.le [.cores, .dies, .regs, .store, .trcTok, .free, .mem, .acct, .bad, .trcSeq, .trcDrop, .hub, .out,
      .fns, .reports] ps = true) {s : State} (hs : Keeps ps s0 s) : Keeps ps s0 (residueRetire e s) := by
  unfold residueRetire
  extract_lets +onlyGivenNames x1
  have hx1 : Keeps ps s0 x1 := by
    subst x1
    refine State.modPlaced_keeps (Parts.le_trans rfl hl) ?_
    refine State.countReplay_keeps (Parts.le_trans rfl hl) ?_
    exact hs
  clear_value x1
  refine retireCore_keeps (Parts.le_trans rfl hl) ?_
  refine State.modCore_keeps (Parts.le_trans rfl hl) ?_
  exact hx1

theorem State.clearLines_keeps {d : Die} {p : PCore} {runs : List (ℕ × ℕ)} (hl : Parts.le [.cores] ps = true)
    {s : State} (hs : Keeps ps s0 s) : Keeps ps s0 (State.clearLines s d p runs) := by
  unfold State.clearLines
  refine Keeps.ite ?_ ?_
  · exact hs
  · refine State.modCore_keeps hl ?_
    exact hs

theorem effClear_keeps {eff : Env → State → State} {e : Env} (hl : Parts.le [.cores] ps = true)
    (heff : ∀ b0 t, Keeps ps s0 t → Keeps ps s0 (eff b0 t)) {s : State} (hs : Keeps ps s0 s) : Keeps ps s0
    (effClear eff e s) := by
  unfold effClear
  extract_lets +onlyGivenNames x1
  have hx1 : Keeps ps s0 x1 := by
    subst x1
    apply heff
    exact hs
  clear_value x1
  refine Keeps.ite ?_ ?_
  · refine State.clearLines_keeps hl ?_
    exact hx1
  · exact hx1

theorem withEcc_keeps {e : Env} {ev : RecEv} {k : State → State}
    (hl : Parts.le [.mcs, .regs, .dies, .cores, .reports] ps = true) (hk : ∀ t, Keeps ps s0 t → Keeps ps s0 (k t))
    {s : State} (hs : Keeps ps s0 s) : Keeps ps s0 (withEcc e ev k s) := by
  unfold withEcc
  extract_lets +onlyGivenNames x1
  clear_value x1
  extract_lets +onlyGivenNames x2
  clear_value x2
  extract_lets +onlyGivenNames x3
  have hx3 : Keeps ps s0 x3 := by
    subst x3
    refine State.countCes_keeps (Parts.le_trans rfl hl) ?_
    exact hs
  clear_value x3
  extract_lets +onlyGivenNames x4
  clear_value x4
  extract_lets +onlyGivenNames x5
  have hx5 : Keeps ps s0 x5 := by
    subst x5
    refine Keeps.ite ?_ ?_
    · exact hx3
    · refine State.modCore_keeps (Parts.le_trans rfl hl) ?_
      exact hx3
  clear_value x5
  split
  · refine State.raise_keeps (Parts.le_trans rfl hl) ?_
    exact hx5
  · apply hk
    exact hx5

theorem runIssued_keeps {eff : Env → State → State} {e : Env} {ev : RecEv}
    (hl : Parts.le [.mcs, .regs, .dies, .cores, .reports, .store, .trcTok, .free, .mem, .acct, .bad, .trcSeq,
      .trcDrop, .hub, .out, .fns] ps = true) (heff : ∀ b0 t, Keeps ps s0 t → Keeps ps s0 (eff b0 t)) {s : State}
    (hs : Keeps ps s0 s) : Keeps ps s0 (runIssued eff e ev s) := by
  unfold runIssued
  refine withEcc_keeps (Parts.le_trans rfl hl) ?_ ?_
  · intro t1 ht2
    extract_lets +onlyGivenNames x3
    clear_value x3
    split
    · refine Keeps.ite ?_ ?_
      · refine csumMismatch_keeps (Parts.le_trans rfl hl) ?_
        exact ht2
      · refine effClear_keeps (Parts.le_trans rfl hl) ?_ ?_
        · intro a4 t5 ht6
          apply heff
          exact ht6
        · exact ht2
    · refine Keeps.ite ?_ ?_
      · refine effClear_keeps (Parts.le_trans rfl hl) ?_ ?_
        · intro a7 t8 ht9
          apply heff
          exact ht9
        · exact ht2
      · refine Keeps.ite ?_ ?_
        · refine effClear_keeps (Parts.le_trans rfl hl) ?_ ?_
          · intro a10 t11 ht12
            apply heff
            exact ht12
          · refine State.countReplay_keeps (Parts.le_trans rfl hl) ?_
            exact ht2
        · refine residueRetire_keeps (Parts.le_trans rfl hl) ?_
          exact ht2
  · exact hs

theorem runOn_keeps {u : UnitK} {op : ℕ} {ok : ℕ → Bool} {eff : Env → State → State} {d : Die} {c : LCore}
    {ev : RecEv} {recv : Bool}
    (hl : Parts.le [.mcs, .regs, .dies, .cores, .reports, .store, .trcTok, .free, .mem, .acct, .bad, .trcSeq,
      .trcDrop, .hub, .out, .fns] ps = true) (heff : ∀ b0 t, Keeps ps s0 t → Keeps ps s0 (eff b0 t)) {s : State}
    (hs : Keeps ps s0 s) : Keeps ps s0 (runOn u op ok eff d c ev s recv) := by
  unfold runOn
  split
  · exact hs
  · refine Keeps.ite ?_ ?_
    · refine runIssued_keeps hl ?_ ?_
      · intro a1 t2 ht3
        apply heff
        exact ht3
      · refine State.markIssued_keeps (Parts.le_trans rfl hl) ?_
        exact hs
    · exact hs

theorem runRecord_keeps {op : ℕ} {ok : ℕ → Bool} {eff : Env → State → State} {d : Die} {c : LCore} {ev : RecEv}
    (hl : Parts.le [.mcs, .regs, .dies, .cores, .reports, .store, .trcTok, .free, .mem, .acct, .bad, .trcSeq,
      .trcDrop, .hub, .out, .fns] ps = true) (heff : ∀ b0 t, Keeps ps s0 t → Keeps ps s0 (eff b0 t)) {s : State}
    (hs : Keeps ps s0 s) : Keeps ps s0 (runRecord op ok eff d c ev s) := by
  unfold runRecord
  refine runOn_keeps hl ?_ ?_
  · intro a1 t2 ht3
    apply heff
    exact ht3
  · exact hs

theorem execRecordComplete_keeps {d : Die} {c : LCore} {pos : ℕ}
    (hl : Parts.le [.trcTok, .free, .mem, .acct, .regs, .bad, .trcSeq, .trcDrop, .cores] ps = true) {s : State}
    (hs : Keeps ps s0 s) {s' : State} (e : execRecordComplete d c pos s = .next s') : Keeps ps s0 s' := by
  unfold execRecordComplete at e
  refine Keeps.next ?_ e
  split
  · exact hs
  · split
    · exact hs
    · refine Keeps.ite ?_ ?_
      · split
        · refine State.markDone_keeps hl ?_
          exact hs
        · exact hs
      · exact hs

theorem spadBankMigrate_keeps {d : Die} {p : PCore} {bank : Fin 32}
    (hl : Parts.le [.cores, .regs, .store, .trcTok, .free, .mem, .acct, .bad, .trcSeq, .trcDrop, .hub, .out, .dies,
      .fns, .reports] ps = true) {s : State} (hs : Keeps ps s0 s) : Keeps ps s0 (spadBankMigrate d p bank s) := by
  unfold spadBankMigrate
  extract_lets +onlyGivenNames x1
  have hx1 : Keeps ps s0 x1 := by
    subst x1
    refine State.modCore_keeps (Parts.le_trans rfl hl) ?_
    exact hs
  clear_value x1
  extract_lets +onlyGivenNames x2
  clear_value x2
  refine Keeps.ite ?_ ?_
  · refine State.setReg_keeps (Parts.le_trans rfl hl) ?_
    exact hx1
  · refine Keeps.ite ?_ ?_
    · refine State.setReg_keeps (Parts.le_trans rfl hl) ?_
      exact hx1
    · refine retireCore_keeps (Parts.le_trans rfl hl) ?_
      exact hx1

theorem execSpadBankMigrate_keeps {d : Die} {p : PCore} {bank : Fin 32}
    (hl : Parts.le [.cores, .regs, .store, .trcTok, .free, .mem, .acct, .bad, .trcSeq, .trcDrop, .hub, .out, .dies,
      .fns, .reports] ps = true) {s : State} (hs : Keeps ps s0 s) {s' : State}
    (e : execSpadBankMigrate d p bank s = .next s') : Keeps ps s0 s' := by
  unfold execSpadBankMigrate at e
  refine Keeps.next ?_ e
  refine Keeps.ite ?_ ?_
  · refine spadBankMigrate_keeps hl ?_
    exact hs
  · exact hs

theorem spadBankSwitch_keeps {d : Die} {p : PCore} {spare : Fin 2}
    (hl : Parts.le [.regs, .store, .trcTok, .free, .mem, .acct, .bad, .trcSeq, .trcDrop, .hub, .out] ps = true)
    {s : State} (hs : Keeps ps s0 s) : Keeps ps s0 (spadBankSwitch d p spare s) := by
  unfold spadBankSwitch
  extract_lets +onlyGivenNames x1
  clear_value x1
  extract_lets +onlyGivenNames x2
  clear_value x2
  extract_lets +onlyGivenNames x3
  have hx3 : Keeps ps s0 x3 := by
    subst x3
    refine State.setReg_keeps (Parts.le_trans rfl hl) ?_
    exact hs
  clear_value x3
  extract_lets +onlyGivenNames x4
  clear_value x4
  extract_lets +onlyGivenNames x5
  clear_value x5
  extract_lets +onlyGivenNames x6
  clear_value x6
  extract_lets +onlyGivenNames x7
  clear_value x7
  extract_lets +onlyGivenNames x8
  have hx8 : Keeps ps s0 x8 := by
    subst x8
    refine Keeps.upd [.store] (Parts.le_trans rfl hl) rfl rfl ?_
    exact hx3
  clear_value x8
  extract_lets +onlyGivenNames x9
  clear_value x9
  refine State.repairedAt_keeps (Parts.le_trans rfl hl) ?_
  exact hx8

theorem execSpadBankSwitch_keeps {d : Die} {p : PCore} {spare : Fin 2}
    (hl : Parts.le [.regs, .store, .trcTok, .free, .mem, .acct, .bad, .trcSeq, .trcDrop, .hub, .out] ps = true)
    {s : State} (hs : Keeps ps s0 s) {s' : State} (e : execSpadBankSwitch d p spare s = .next s') : Keeps ps s0 s' :=
    by
  unfold execSpadBankSwitch at e
  refine Keeps.next ?_ e
  refine Keeps.ite ?_ ?_
  · refine spadBankSwitch_keeps hl ?_
    exact hs
  · exact hs

theorem execAccEccThreshold_keeps {d : Die} {p : PCore}
    (hl : Parts.le [.cores, .store, .trcTok, .free, .mem, .acct, .regs, .bad, .trcSeq, .trcDrop, .hub, .out, .dies,
      .fns, .reports] ps = true) {s : State} (hs : Keeps ps s0 s) {s' : State}
    (e : execAccEccThreshold d p s = .next s') : Keeps ps s0 s' := by
  unfold execAccEccThreshold at e
  refine Keeps.next ?_ e
  refine Keeps.ite ?_ ?_
  · refine retireCore_keeps hl ?_
    exact hs
  · exact hs

/-! ### Array -/

theorem State.putOut_keeps {e : Env} {o : OutRes} (hl : Parts.le [.mem, .bad] ps = true) {s : State}
    (hs : Keeps ps s0 s) : Keeps ps s0 (State.putOut s e o) := by
  unfold State.putOut
  extract_lets +onlyGivenNames x1
  have hx1 : Keeps ps s0 x1 := by
    subst x1
    refine Keeps.ite ?_ ?_
    · refine State.storeMat_keeps hl ?_
      exact hs
    · exact hs
  clear_value x1
  refine Keeps.ite ?_ ?_
  · refine State.putStats_keeps (Parts.le_trans rfl hl) ?_
    exact hx1
  · exact hx1

theorem arrayEffect_keeps {e : Env}
    (hl : Parts.le [.reports, .free, .mem, .acct, .regs, .dies, .cores, .disps, .bad] ps = true) {s : State}
    (hs : Keeps ps s0 s) : Keeps ps s0 (arrayEffect e s) := by
  unfold arrayEffect
  refine Keeps.ite ?_ ?_
  · refine guarded_keeps (Parts.le_trans rfl hl) ?_ ?_
    · intro t1 ht2
      extract_lets +onlyGivenNames x3
      clear_value x3
      extract_lets +onlyGivenNames x4
      clear_value x4
      extract_lets +onlyGivenNames x5
      clear_value x5
      extract_lets +onlyGivenNames x6
      clear_value x6
      extract_lets +onlyGivenNames x7
      clear_value x7
      extract_lets +onlyGivenNames x8
      clear_value x8
      extract_lets +onlyGivenNames x9
      have hx9 : Keeps ps s0 x9 := by
        subst x9
        refine State.putRows_keeps (Parts.le_trans rfl hl) ?_
        exact ht2
      clear_value x9
      split
      rename_i y10 y11 y12 y13
      have hy11 : Keeps ps s0 y11 := by
        refine Keeps.ofEqL y13 ?_
        refine State.putSlotFlags_keeps (Parts.le_trans rfl hl) ?_
        exact hx9
      extract_lets +onlyGivenNames x14
      clear_value x14
      refine State.noteFl_keeps (Parts.le_trans rfl hl) ?_
      refine State.putOut_keeps (Parts.le_trans rfl hl) ?_
      exact hy11
    · exact hs
  · refine Keeps.ite ?_ ?_
    · refine State.noteFl_keeps (Parts.le_trans rfl hl) ?_
      exact hs
    · exact hs

theorem execMm_keeps {d : Die} {c : LCore} {ev : RecEv}
    (hl : Parts.le [.mcs, .regs, .dies, .cores, .reports, .store, .trcTok, .free, .mem, .acct, .bad, .trcSeq,
      .trcDrop, .hub, .out, .fns, .disps] ps = true) {s : State} (hs : Keeps ps s0 s) {s' : State}
    (e : execMm d c ev s = .next s') : Keeps ps s0 s' := by
  unfold execMm at e
  refine Keeps.next ?_ e
  refine runRecord_keeps (Parts.le_trans rfl hl) ?_ ?_
  · intro a1 t2 ht3
    refine arrayEffect_keeps (Parts.le_trans rfl hl) ?_
    exact ht3
  · exact hs

theorem execMv_keeps {d : Die} {c : LCore} {ev : RecEv}
    (hl : Parts.le [.mcs, .regs, .dies, .cores, .reports, .store, .trcTok, .free, .mem, .acct, .bad, .trcSeq,
      .trcDrop, .hub, .out, .fns, .disps] ps = true) {s : State} (hs : Keeps ps s0 s) {s' : State}
    (e : execMv d c ev s = .next s') : Keeps ps s0 s' := by
  unfold execMv at e
  refine Keeps.next ?_ e
  refine runRecord_keeps (Parts.le_trans rfl hl) ?_ ?_
  · intro a1 t2 ht3
    refine arrayEffect_keeps (Parts.le_trans rfl hl) ?_
    exact ht3
  · exact hs

theorem execConv_keeps {d : Die} {c : LCore} {ev : RecEv}
    (hl : Parts.le [.mcs, .regs, .dies, .cores, .reports, .store, .trcTok, .free, .mem, .acct, .bad, .trcSeq,
      .trcDrop, .hub, .out, .fns, .disps] ps = true) {s : State} (hs : Keeps ps s0 s) {s' : State}
    (e : execConv d c ev s = .next s') : Keeps ps s0 s' := by
  unfold execConv at e
  refine Keeps.next ?_ e
  refine runRecord_keeps (Parts.le_trans rfl hl) ?_ ?_
  · intro a1 t2 ht3
    refine arrayEffect_keeps (Parts.le_trans rfl hl) ?_
    exact ht3
  · exact hs

theorem tconvEffect_keeps {e : Env}
    (hl : Parts.le [.reports, .free, .mem, .acct, .regs, .dies, .cores, .disps, .bad] ps = true) {s : State}
    (hs : Keeps ps s0 s) : Keeps ps s0 (tconvEffect e s) := by
  unfold tconvEffect
  refine Keeps.ite ?_ ?_
  · split
    · refine State.raise_keeps (Parts.le_trans rfl hl) ?_
      exact hs
    · refine guarded_keeps (Parts.le_trans rfl hl) ?_ ?_
      · intro t1 ht2
        extract_lets +onlyGivenNames x3
        clear_value x3
        extract_lets +onlyGivenNames x4
        clear_value x4
        extract_lets +onlyGivenNames x5
        clear_value x5
        refine State.noteFl_keeps (Parts.le_trans rfl hl) ?_
        refine State.putOut_keeps (Parts.le_trans rfl hl) ?_
        exact ht2
      · exact hs
  · exact hs

theorem teaselFails_keeps {d : Die} (hl : Parts.le [.fns, .dies, .store, .free, .hub, .regs, .out] ps = true)
    {s : State} (hs : Keeps ps s0 s) : Keeps ps s0 (teaselFails d s) := by
  unfold teaselFails
  extract_lets +onlyGivenNames x1
  have hx1 : Keeps ps s0 x1 := by
    subst x1
    refine State.setFn_keeps (Parts.le_trans rfl hl) ?_
    exact hs
  clear_value x1
  extract_lets +onlyGivenNames x2
  have hx2 : Keeps ps s0 x2 := by
    subst x2
    refine State.modDie_keeps (Parts.le_trans rfl hl) ?_
    exact hx1
  clear_value x2
  refine State.degraded_keeps (Parts.le_trans rfl hl) ?_
  exact hx2

theorem tconvOnTeasel_keeps {e : Env} {ev : RecEv}
    (hl : Parts.le [.trcTok, .free, .mem, .acct, .regs, .bad, .trcSeq, .trcDrop, .cores, .mcs, .dies, .reports,
      .disps, .fns, .store, .hub, .out] ps = true) {s : State} (hs : Keeps ps s0 s) : Keeps ps s0
    (tconvOnTeasel e ev s) := by
  unfold tconvOnTeasel
  extract_lets +onlyGivenNames x1
  have hx1 : Keeps ps s0 x1 := by
    subst x1
    refine State.traceRec_keeps (Parts.le_trans rfl hl) ?_
    refine State.modPlaced_keeps (Parts.le_trans rfl hl) ?_
    exact hs
  clear_value x1
  extract_lets +onlyGivenNames x2
  have hx2 : Keeps ps s0 x2 := by
    subst x2
    refine State.countCes_keeps (Parts.le_trans rfl hl) ?_
    refine State.modDie_keeps (Parts.le_trans rfl hl) ?_
    exact hx1
  clear_value x2
  refine Keeps.ite ?_ ?_
  · refine tconvEffect_keeps (Parts.le_trans rfl hl) ?_
    exact hx2
  · extract_lets +onlyGivenNames x3
    have hx3 : Keeps ps s0 x3 := by
      subst x3
      refine State.bump_keeps (Parts.le_trans rfl hl) ?_
      exact hx2
    clear_value x3
    extract_lets +onlyGivenNames x4
    have hx4 : Keeps ps s0 x4 := by
      subst x4
      refine State.modCtr_keeps (Parts.le_trans rfl hl) ?_
      exact hx3
    clear_value x4
    refine Keeps.ite ?_ ?_
    · refine tconvEffect_keeps (Parts.le_trans rfl hl) ?_
      exact hx4
    · refine State.modPlaced_keeps (Parts.le_trans rfl hl) ?_
      refine teaselFails_keeps (Parts.le_trans rfl hl) ?_
      exact hx4

theorem tconv_keeps {d : Die} {c : LCore} {ev : RecEv}
    (hl : Parts.le [.mcs, .regs, .dies, .cores, .reports, .store, .trcTok, .free, .mem, .acct, .bad, .trcSeq,
      .trcDrop, .hub, .out, .fns, .disps] ps = true) {s : State} (hs : Keeps ps s0 s) : Keeps ps s0 (tconv d c ev s)
    := by
  unfold tconv
  split
  · exact hs
  · refine Keeps.ite ?_ ?_
    · refine Keeps.ite ?_ ?_
      · refine Keeps.ite ?_ ?_
        · refine runIssued_keeps (Parts.le_trans rfl hl) ?_ ?_
          · intro a1 t2 ht3
            refine tconvEffect_keeps (Parts.le_trans rfl hl) ?_
            exact ht3
          · refine State.markIssued_keeps (Parts.le_trans rfl hl) ?_
            exact hs
        · exact hs
      · refine Keeps.ite ?_ ?_
        · refine tconvOnTeasel_keeps (Parts.le_trans rfl hl) ?_
          exact hs
        · exact hs
    · exact hs

theorem execTconv_keeps {d : Die} {c : LCore} {ev : RecEv}
    (hl : Parts.le [.mcs, .regs, .dies, .cores, .reports, .store, .trcTok, .free, .mem, .acct, .bad, .trcSeq,
      .trcDrop, .hub, .out, .fns, .disps] ps = true) {s : State} (hs : Keeps ps s0 s) {s' : State}
    (e : execTconv d c ev s = .next s') : Keeps ps s0 s' := by
  unfold execTconv at e
  refine Keeps.next ?_ e
  refine tconv_keeps hl ?_
  exact hs

theorem tconvComplete_keeps {d : Die} {x : Placed} (hl : Parts.le [.dies, .cores] ps = true) {s : State}
    (hs : Keeps ps s0 s) : Keeps ps s0 (tconvComplete d x s) := by
  unfold tconvComplete
  extract_lets +onlyGivenNames x1
  have hx1 : Keeps ps s0 x1 := by
    subst x1
    refine State.modDie_keeps (Parts.le_trans rfl hl) ?_
    exact hs
  clear_value x1
  split
  · refine State.modCore_keeps (Parts.le_trans rfl hl) ?_
    exact hx1
  · exact hx1

theorem execTconvComplete_keeps {d : Die}
    (hl : Parts.le [.trcTok, .free, .mem, .acct, .regs, .bad, .trcSeq, .trcDrop, .dies, .cores] ps = true) {s : State}
    (hs : Keeps ps s0 s) {s' : State} (e : execTconvComplete d s = .next s') : Keeps ps s0 s' := by
  unfold execTconvComplete at e
  refine Keeps.next ?_ e
  split
  · refine Keeps.ite ?_ ?_
    · refine State.traceRec_keeps (Parts.le_trans rfl hl) ?_
      refine tconvComplete_keeps (Parts.le_trans rfl hl) ?_
      exact hs
    · exact hs
  · exact hs

/-! ### Vector -/

theorem State.putResult_keeps {e : Env} {ix : ℕ} {tc : ℕ} {isInt : Bool} {outfmt : ℕ} {shift : ℕ}
    {cells : List (List Res)} (hl : Parts.le [.mem, .bad, .disps, .cores] ps = true) {s : State} (hs : Keeps ps s0 s)
    : Keeps ps s0 (State.putResult s e ix tc isInt outfmt shift cells) := by
  unfold State.putResult
  extract_lets +onlyGivenNames x1
  clear_value x1
  extract_lets +onlyGivenNames x2
  clear_value x2
  extract_lets +onlyGivenNames x3
  clear_value x3
  extract_lets +onlyGivenNames x4
  clear_value x4
  extract_lets +onlyGivenNames x5
  have hx5 : Keeps ps s0 x5 := by
    subst x5
    refine State.storeMat_keeps (Parts.le_trans rfl hl) ?_
    exact hs
  clear_value x5
  refine Keeps.ite ?_ ?_
  · refine State.noteFl_keeps (Parts.le_trans rfl hl) ?_
    refine State.putSlotFlags_keeps (Parts.le_trans rfl hl) ?_
    exact hx5
  · refine State.noteFl_keeps (Parts.le_trans rfl hl) ?_
    exact hx5

theorem State.putInZ_keeps {e : Env} {tc : ℕ} {cells : List (List Res)}
    (hl : Parts.le [.mem, .bad, .disps, .cores] ps = true) {s : State} (hs : Keeps ps s0 s) : Keeps ps s0
    (State.putInZ s e tc cells) := by
  unfold State.putInZ
  extract_lets +onlyGivenNames x1
  clear_value x1
  extract_lets +onlyGivenNames x2
  clear_value x2
  refine State.putResult_keeps hl ?_
  exact hs

theorem vecEffect_keeps {e : Env} (hl : Parts.le [.mem, .bad, .disps, .cores] ps = true) {s : State}
    (hs : Keeps ps s0 s) : Keeps ps s0 (vecEffect e s) := by
  unfold vecEffect
  refine Keeps.ite ?_ ?_
  · exact hs
  · refine State.putResult_keeps hl ?_
    exact hs

theorem execVec_keeps {d : Die} {c : LCore} {ev : RecEv}
    (hl : Parts.le [.mcs, .regs, .dies, .cores, .reports, .store, .trcTok, .free, .mem, .acct, .bad, .trcSeq,
      .trcDrop, .hub, .out, .fns, .disps] ps = true) {s : State} (hs : Keeps ps s0 s) {s' : State}
    (e : execVec d c ev s = .next s') : Keeps ps s0 s' := by
  unfold execVec at e
  refine Keeps.next ?_ e
  refine runRecord_keeps (Parts.le_trans rfl hl) ?_ ?_
  · intro a1 t2 ht3
    refine vecEffect_keeps (Parts.le_trans rfl hl) ?_
    exact ht3
  · exact hs

theorem normEffect_keeps {e : Env} (hl : Parts.le [.mem, .bad, .disps, .cores] ps = true) {s : State}
    (hs : Keeps ps s0 s) : Keeps ps s0 (normEffect e s) := by
  unfold normEffect
  refine Keeps.ite ?_ ?_
  · exact hs
  · extract_lets +onlyGivenNames x1
    clear_value x1
    extract_lets +onlyGivenNames x2
    clear_value x2
    split
    extract_lets +onlyGivenNames x3
    clear_value x3
    extract_lets +onlyGivenNames x4
    clear_value x4
    refine State.putResult_keeps hl ?_
    exact hs

theorem execNorm_keeps {d : Die} {c : LCore} {ev : RecEv}
    (hl : Parts.le [.mcs, .regs, .dies, .cores, .reports, .store, .trcTok, .free, .mem, .acct, .bad, .trcSeq,
      .trcDrop, .hub, .out, .fns, .disps] ps = true) {s : State} (hs : Keeps ps s0 s) {s' : State}
    (e : execNorm d c ev s = .next s') : Keeps ps s0 s' := by
  unfold execNorm at e
  refine Keeps.next ?_ e
  refine runRecord_keeps (Parts.le_trans rfl hl) ?_ ?_
  · intro a1 t2 ht3
    refine normEffect_keeps (Parts.le_trans rfl hl) ?_
    exact ht3
  · exact hs

theorem redEffect_keeps {e : Env} (hl : Parts.le [.mem, .bad, .disps, .cores] ps = true) {s : State}
    (hs : Keeps ps s0 s) : Keeps ps s0 (redEffect e s) := by
  unfold redEffect
  refine Keeps.ite ?_ ?_
  · exact hs
  · extract_lets +onlyGivenNames x1
    clear_value x1
    refine Keeps.ite ?_ ?_
    · refine State.putResult_keeps hl ?_
      exact hs
    · refine State.putResult_keeps hl ?_
      exact hs

theorem execRed_keeps {d : Die} {c : LCore} {ev : RecEv}
    (hl : Parts.le [.mcs, .regs, .dies, .cores, .reports, .store, .trcTok, .free, .mem, .acct, .bad, .trcSeq,
      .trcDrop, .hub, .out, .fns, .disps] ps = true) {s : State} (hs : Keeps ps s0 s) {s' : State}
    (e : execRed d c ev s = .next s') : Keeps ps s0 s' := by
  unfold execRed at e
  refine Keeps.next ?_ e
  refine runRecord_keeps (Parts.le_trans rfl hl) ?_ ?_
  · intro a1 t2 ht3
    refine redEffect_keeps (Parts.le_trans rfl hl) ?_
    exact ht3
  · exact hs

theorem poolEffect_keeps {e : Env} (hl : Parts.le [.mem, .bad, .disps, .cores] ps = true) {s : State}
    (hs : Keeps ps s0 s) : Keeps ps s0 (poolEffect e s) := by
  unfold poolEffect
  refine Keeps.ite ?_ ?_
  · exact hs
  · extract_lets +onlyGivenNames x1
    clear_value x1
    extract_lets +onlyGivenNames x2
    clear_value x2
    extract_lets +onlyGivenNames x3
    clear_value x3
    extract_lets +onlyGivenNames x4
    clear_value x4
    extract_lets +onlyGivenNames x5
    clear_value x5
    refine State.putResult_keeps hl ?_
    exact hs

theorem execMaxPool_keeps {d : Die} {c : LCore} {ev : RecEv}
    (hl : Parts.le [.mcs, .regs, .dies, .cores, .reports, .store, .trcTok, .free, .mem, .acct, .bad, .trcSeq,
      .trcDrop, .hub, .out, .fns, .disps] ps = true) {s : State} (hs : Keeps ps s0 s) {s' : State}
    (e : execMaxPool d c ev s = .next s') : Keeps ps s0 s' := by
  unfold execMaxPool at e
  refine Keeps.next ?_ e
  refine runRecord_keeps (Parts.le_trans rfl hl) ?_ ?_
  · intro a1 t2 ht3
    refine poolEffect_keeps (Parts.le_trans rfl hl) ?_
    exact ht3
  · exact hs

theorem execAvgPool_keeps {d : Die} {c : LCore} {ev : RecEv}
    (hl : Parts.le [.mcs, .regs, .dies, .cores, .reports, .store, .trcTok, .free, .mem, .acct, .bad, .trcSeq,
      .trcDrop, .hub, .out, .fns, .disps] ps = true) {s : State} (hs : Keeps ps s0 s) {s' : State}
    (e : execAvgPool d c ev s = .next s') : Keeps ps s0 s' := by
  unfold execAvgPool at e
  refine Keeps.next ?_ e
  refine runRecord_keeps (Parts.le_trans rfl hl) ?_ ?_
  · intro a1 t2 ht3
    refine poolEffect_keeps (Parts.le_trans rfl hl) ?_
    exact ht3
  · exact hs

theorem boxdEffect_keeps {e : Env} (hl : Parts.le [.mem, .bad, .disps, .cores] ps = true) {s : State}
    (hs : Keeps ps s0 s) : Keeps ps s0 (boxdEffect e s) := by
  unfold boxdEffect
  refine Keeps.ite ?_ ?_
  · exact hs
  · extract_lets +onlyGivenNames x1
    clear_value x1
    extract_lets +onlyGivenNames x2
    clear_value x2
    extract_lets +onlyGivenNames x3
    clear_value x3
    refine State.putResult_keeps hl ?_
    exact hs

theorem execBoxd_keeps {d : Die} {c : LCore} {ev : RecEv}
    (hl : Parts.le [.mcs, .regs, .dies, .cores, .reports, .store, .trcTok, .free, .mem, .acct, .bad, .trcSeq,
      .trcDrop, .hub, .out, .fns, .disps] ps = true) {s : State} (hs : Keeps ps s0 s) {s' : State}
    (e : execBoxd d c ev s = .next s') : Keeps ps s0 s' := by
  unfold execBoxd at e
  refine Keeps.next ?_ e
  refine runRecord_keeps (Parts.le_trans rfl hl) ?_ ?_
  · intro a1 t2 ht3
    refine boxdEffect_keeps (Parts.le_trans rfl hl) ?_
    exact ht3
  · exact hs

theorem sortEffect_keeps {e : Env} (hl : Parts.le [.disps, .mem, .bad, .cores] ps = true) {s : State}
    (hs : Keeps ps s0 s) : Keeps ps s0 (sortEffect e s) := by
  unfold sortEffect
  refine Keeps.ite ?_ ?_
  · exact hs
  · extract_lets +onlyGivenNames x1
    clear_value x1
    extract_lets +onlyGivenNames x2
    clear_value x2
    extract_lets +onlyGivenNames x3
    clear_value x3
    extract_lets +onlyGivenNames x4
    clear_value x4
    extract_lets +onlyGivenNames x5
    clear_value x5
    extract_lets +onlyGivenNames x6
    clear_value x6
    refine State.noteFl_keeps (Parts.le_trans rfl hl) ?_
    refine State.putResult_keeps (Parts.le_trans rfl hl) ?_
    exact hs

theorem execSort_keeps {d : Die} {c : LCore} {ev : RecEv}
    (hl : Parts.le [.mcs, .regs, .dies, .cores, .reports, .store, .trcTok, .free, .mem, .acct, .bad, .trcSeq,
      .trcDrop, .hub, .out, .fns, .disps] ps = true) {s : State} (hs : Keeps ps s0 s) {s' : State}
    (e : execSort d c ev s = .next s') : Keeps ps s0 s' := by
  unfold execSort at e
  refine Keeps.next ?_ e
  refine runRecord_keeps (Parts.le_trans rfl hl) ?_ ?_
  · intro a1 t2 ht3
    refine sortEffect_keeps (Parts.le_trans rfl hl) ?_
    exact ht3
  · exact hs

theorem nmsEffect_keeps {e : Env} (hl : Parts.le [.reports, .disps, .mem] ps = true) {s : State} (hs : Keeps ps s0 s)
    : Keeps ps s0 (nmsEffect e s) := by
  unfold nmsEffect
  extract_lets +onlyGivenNames x1
  clear_value x1
  extract_lets +onlyGivenNames x2
  clear_value x2
  extract_lets +onlyGivenNames x3
  clear_value x3
  extract_lets +onlyGivenNames x4
  clear_value x4
  extract_lets +onlyGivenNames x5
  clear_value x5
  extract_lets +onlyGivenNames x6
  clear_value x6
  extract_lets +onlyGivenNames x7
  clear_value x7
  extract_lets +onlyGivenNames x8
  clear_value x8
  extract_lets +onlyGivenNames x9
  clear_value x9
  extract_lets +onlyGivenNames x10
  clear_value x10
  extract_lets +onlyGivenNames x11
  clear_value x11
  extract_lets +onlyGivenNames x12
  clear_value x12
  refine Keeps.ite ?_ ?_
  · refine State.raise_keeps (Parts.le_trans rfl hl) ?_
    exact hs
  · extract_lets +onlyGivenNames x13
    clear_value x13
    extract_lets +onlyGivenNames x14
    clear_value x14
    extract_lets +onlyGivenNames x15
    clear_value x15
    extract_lets +onlyGivenNames x16
    clear_value x16
    split
    extract_lets +onlyGivenNames x17
    clear_value x17
    refine Keeps.ite ?_ ?_
    · refine State.raise_keeps (Parts.le_trans rfl hl) ?_
      exact hs
    · refine State.noteFl_keeps (Parts.le_trans rfl hl) ?_
      refine State.putRow_keeps (Parts.le_trans rfl hl) ?_
      exact hs

theorem execNms_keeps {d : Die} {c : LCore} {ev : RecEv}
    (hl : Parts.le [.mcs, .regs, .dies, .cores, .reports, .store, .trcTok, .free, .mem, .acct, .bad, .trcSeq,
      .trcDrop, .hub, .out, .fns, .disps] ps = true) {s : State} (hs : Keeps ps s0 s) {s' : State}
    (e : execNms d c ev s = .next s') : Keeps ps s0 s' := by
  unfold execNms at e
  refine Keeps.next ?_ e
  refine runRecord_keeps (Parts.le_trans rfl hl) ?_ ?_
  · intro a1 t2 ht3
    refine nmsEffect_keeps (Parts.le_trans rfl hl) ?_
    exact ht3
  · exact hs

/-! ### Attention -/

theorem State.tlbPut_keeps {d : Die} {n : CtxId} {page : ℕ} {addr : ℕ} (hl : Parts.le [.dies] ps = true) {s : State}
    (hs : Keeps ps s0 s) : Keeps ps s0 (State.tlbPut s d n page addr) := by
  unfold State.tlbPut
  refine State.modDie_keeps hl ?_
  exact hs

theorem vetchWalkDone_keeps {d : Die} {n : CtxId} {page : ℕ} {ce : List ℕ}
    (hl : Parts.le [.mcs, .regs, .dies, .cores, .acct, .reports] ps = true) {s : State} (hs : Keeps ps s0 s) : Keeps
    ps s0 (vetchWalkDone d n page ce s) := by
  unfold vetchWalkDone
  extract_lets +onlyGivenNames x1
  clear_value x1
  extract_lets +onlyGivenNames x2
  clear_value x2
  extract_lets +onlyGivenNames x3
  clear_value x3
  extract_lets +onlyGivenNames x4
  have hx4 : Keeps ps s0 x4 := by
    subst x4
    refine State.countCes_keeps (Parts.le_trans rfl hl) ?_
    refine State.chargeRuns_keeps (Parts.le_trans rfl hl) ?_
    refine State.countRuns_keeps (Parts.le_trans rfl hl) ?_
    exact hs
  clear_value x4
  extract_lets +onlyGivenNames x5
  have hx5 : Keeps ps s0 x5 := by
    subst x5
    refine State.modDie_keeps (Parts.le_trans rfl hl) ?_
    exact hx4
  clear_value x5
  split
  · refine State.tlbPut_keeps (Parts.le_trans rfl hl) ?_
    exact hx5
  · refine State.raise_keeps (Parts.le_trans rfl hl) ?_
    exact hx5
  · extract_lets +onlyGivenNames x6
    have hx6 : Keeps ps s0 x6 := by
      subst x6
      refine State.setReg_keeps (Parts.le_trans rfl hl) ?_
      exact hx5
    clear_value x6
    extract_lets +onlyGivenNames x7
    have hx7 : Keeps ps s0 x7 := by
      subst x7
      refine State.setReg_keeps (Parts.le_trans rfl hl) ?_
      exact hx6
    clear_value x7
    refine State.raise_keeps (Parts.le_trans rfl hl) ?_
    exact hx7

theorem execVetchWalkDone_keeps {d : Die} {n : CtxId} {va : ℕ} {ce : List ℕ}
    (hl : Parts.le [.mcs, .regs, .dies, .cores, .acct, .reports] ps = true) {s : State} (hs : Keeps ps s0 s)
    {s' : State} (e : execVetchWalkDone d n va s ce = .next s') : Keeps ps s0 s' := by
  unfold execVetchWalkDone at e
  refine Keeps.next ?_ e
  refine Keeps.ite ?_ ?_
  · refine vetchWalkDone_keeps hl ?_
    exact hs
  · exact hs

theorem State.stageCopy_keeps {e : Env} {o : Opd} {dst : ℕ} {kv : ℕ} (hl : Parts.le [.mem] ps = true) {s : State}
    (hs : Keeps ps s0 s) : Keeps ps s0 (State.stageCopy s e o dst kv) := by
  unfold State.stageCopy
  extract_lets +onlyGivenNames x1
  clear_value x1
  refine Keeps.foldl ?_ (fun t4 a2 ht3 => ?_)
  · exact hs
  · extract_lets +onlyGivenNames x5
    clear_value x5
    refine State.devWrite_keeps _ _ hl ?_
    exact ht3

theorem stageFill_keeps {e : Env} (hl : Parts.le [.reports, .free, .mem, .acct, .regs, .dies, .cores] ps = true)
    {s : State} (hs : Keeps ps s0 s) : Keeps ps s0 (stageFill e s) := by
  unfold stageFill
  extract_lets +onlyGivenNames x1
  clear_value x1
  extract_lets +onlyGivenNames x2
  clear_value x2
  extract_lets +onlyGivenNames x3
  clear_value x3
  extract_lets +onlyGivenNames x4
  clear_value x4
  extract_lets +onlyGivenNames x5
  clear_value x5
  extract_lets +onlyGivenNames x6
  clear_value x6
  extract_lets +onlyGivenNames x7
  clear_value x7
  extract_lets +onlyGivenNames x8
  clear_value x8
  refine guarded_keeps hl ?_ ?_
  · intro t9 ht10
    extract_lets +onlyGivenNames x11
    have hx11 : Keeps ps s0 x11 := by
      subst x11
      refine State.clearLines_keeps (Parts.le_trans rfl hl) ?_
      exact ht10
    clear_value x11
    extract_lets +onlyGivenNames x12
    have hx12 : Keeps ps s0 x12 := by
      subst x12
      refine State.stageCopy_keeps (Parts.le_trans rfl hl) ?_
      exact hx11
    clear_value x12
    extract_lets +onlyGivenNames x13
    have hx13 : Keeps ps s0 x13 := by
      subst x13
      refine State.stageCopy_keeps (Parts.le_trans rfl hl) ?_
      exact hx12
    clear_value x13
    extract_lets +onlyGivenNames x14
    have hx14 : Keeps ps s0 x14 := by
      subst x14
      refine State.putSlotFlags_keeps (Parts.le_trans rfl hl) ?_
      exact hx13
    clear_value x14
    refine State.modPlaced_keeps (Parts.le_trans rfl hl) ?_
    exact hx14
  · exact hs

theorem stagingFill_keeps {e : Env} {parity : ℕ} {ce : List ℕ}
    (hl : Parts.le [.dies, .regs, .cores, .reports, .free, .mem, .acct, .mcs] ps = true) {s : State}
    (hs : Keeps ps s0 s) : Keeps ps s0 (stagingFill e parity ce s) := by
  unfold stagingFill
  extract_lets +onlyGivenNames x1
  clear_value x1
  extract_lets +onlyGivenNames x2
  clear_value x2
  extract_lets +onlyGivenNames x3
  clear_value x3
  extract_lets +onlyGivenNames x4
  clear_value x4
  extract_lets +onlyGivenNames x5
  have hx5 : Keeps ps s0 x5 := by
    subst x5
    refine Keeps.ite ?_ ?_
    · exact hs
    · refine State.modDie_keeps (Parts.le_trans rfl hl) ?_
      refine State.bump_keeps (Parts.le_trans rfl hl) ?_
      exact hs
  clear_value x5
  extract_lets +onlyGivenNames x6
  clear_value x6
  extract_lets +onlyGivenNames x7
  clear_value x7
  extract_lets +onlyGivenNames x8
  clear_value x8
  extract_lets +onlyGivenNames x9
  have hx9 : Keeps ps s0 x9 := by
    subst x9
    refine Keeps.ite ?_ ?_
    · exact hx5
    · refine State.bump_keeps (Parts.le_trans rfl hl) ?_
      exact hx5
  clear_value x9
  extract_lets +onlyGivenNames x10
  have hx10 : Keeps ps s0 x10 := by
    subst x10
    refine State.modDie_keeps (Parts.le_trans rfl hl) ?_
    refine State.bump_keeps (Parts.le_trans rfl hl) ?_
    exact hx9
  clear_value x10
  extract_lets +onlyGivenNames x11
  have hx11 : Keeps ps s0 x11 := by
    subst x11
    refine State.modPlaced_keeps (Parts.le_trans rfl hl) ?_
    exact hx10
  clear_value x11
  refine Keeps.ite ?_ ?_
  · refine stageFill_keeps (Parts.le_trans rfl hl) ?_
    refine State.countCes_keeps (Parts.le_trans rfl hl) ?_
    exact hx11
  · exact hx11

theorem execStagingFill_keeps {d : Die} {c : LCore} {parity : ℕ} {ce : List ℕ}
    (hl : Parts.le [.dies, .regs, .cores, .reports, .free, .mem, .acct, .mcs] ps = true) {s : State}
    (hs : Keeps ps s0 s) {s' : State} (e : execStagingFill d c parity s ce = .next s') : Keeps ps s0 s' := by
  unfold execStagingFill at e
  refine Keeps.next ?_ e
  split
  · refine Keeps.ite ?_ ?_
    · refine stagingFill_keeps hl ?_
      exact hs
    · exact hs
  · exact hs

theorem State.putAtt_keeps {e : Env} {a2 : List (AttRow × ℕ)} (hl : Parts.le [.mem] ps = true) {s : State}
    (hs : Keeps ps s0 s) : Keeps ps s0 (State.putAtt s e a2) := by
  induction a2 generalizing s e with
  | nil =>
    unfold State.putAtt
    exact hs
  | cons b rest ih =>
    unfold State.putAtt
    extract_lets +onlyGivenNames x1
    clear_value x1
    extract_lets +onlyGivenNames x2
    clear_value x2
    extract_lets +onlyGivenNames x3
    clear_value x3
    extract_lets +onlyGivenNames x4
    have hx4 : Keeps ps s0 x4 := by
      subst x4
      refine State.putElem_keeps hl ?_
      refine State.putElem_keeps hl ?_
      exact hs
    clear_value x4
    apply ih
    refine State.putRow_keeps hl ?_
    exact hx4

theorem attbEffect_keeps {e : Env}
    (hl : Parts.le [.reports, .free, .mem, .acct, .regs, .dies, .cores, .disps] ps = true) {s : State}
    (hs : Keeps ps s0 s) : Keeps ps s0 (attbEffect e s) := by
  unfold attbEffect
  refine Keeps.ite ?_ ?_
  · exact hs
  · extract_lets +onlyGivenNames x1
    clear_value x1
    extract_lets +onlyGivenNames x2
    clear_value x2
    refine guarded_keeps (Parts.le_trans rfl hl) ?_ ?_
    · intro t3 ht4
      extract_lets +onlyGivenNames x5
      clear_value x5
      extract_lets +onlyGivenNames x6
      have hx6 : Keeps ps s0 x6 := by
        subst x6
        refine State.putAtt_keeps (Parts.le_trans rfl hl) ?_
        exact ht4
      clear_value x6
      split
      rename_i y7 y8 y9 y10
      have hy8 : Keeps ps s0 y8 := by
        refine Keeps.ofEqL y10 ?_
        refine State.putSlotFlags_keeps (Parts.le_trans rfl hl) ?_
        exact hx6
      refine State.noteFl_keeps (Parts.le_trans rfl hl) ?_
      exact hy8
    · exact hs

theorem execAttb_keeps {d : Die} {c : LCore} {ev : RecEv}
    (hl : Parts.le [.mcs, .regs, .dies, .cores, .reports, .store, .trcTok, .free, .mem, .acct, .bad, .trcSeq,
      .trcDrop, .hub, .out, .fns, .disps] ps = true) {s : State} (hs : Keeps ps s0 s) {s' : State}
    (e : execAttb d c ev s = .next s') : Keeps ps s0 s' := by
  unfold execAttb at e
  refine Keeps.next ?_ e
  refine runRecord_keeps (Parts.le_trans rfl hl) ?_ ?_
  · intro a1 t2 ht3
    refine attbEffect_keeps (Parts.le_trans rfl hl) ?_
    exact ht3
  · exact hs

theorem attmEffect_keeps {e : Env}
    (hl : Parts.le [.reports, .free, .mem, .acct, .regs, .dies, .cores, .disps, .bad] ps = true) {s : State}
    (hs : Keeps ps s0 s) : Keeps ps s0 (attmEffect e s) := by
  unfold attmEffect
  refine Keeps.ite ?_ ?_
  · exact hs
  · extract_lets +onlyGivenNames x1
    clear_value x1
    extract_lets +onlyGivenNames x2
    clear_value x2
    extract_lets +onlyGivenNames x3
    clear_value x3
    extract_lets +onlyGivenNames x4
    clear_value x4
    extract_lets +onlyGivenNames x5
    clear_value x5
    refine guarded_keeps (Parts.le_trans rfl hl) ?_ ?_
    · intro t6 ht7
      extract_lets +onlyGivenNames x8
      clear_value x8
      extract_lets +onlyGivenNames x9
      have hx9 : Keeps ps s0 x9 := by
        subst x9
        refine Keeps.ite ?_ ?_
        · refine State.putAtt_keeps (Parts.le_trans rfl hl) ?_
          exact ht7
        · exact ht7
      clear_value x9
      extract_lets +onlyGivenNames x10
      have hx10 : Keeps ps s0 x10 := by
        subst x10
        refine State.putSlotFlags_keeps (Parts.le_trans rfl hl) ?_
        exact hx9
      clear_value x10
      extract_lets +onlyGivenNames x11
      have hx11 : Keeps ps s0 x11 := by
        subst x11
        refine State.noteFl_keeps (Parts.le_trans rfl hl) ?_
        exact hx10
      clear_value x11
      refine Keeps.ite ?_ ?_
      · extract_lets +onlyGivenNames x12
        clear_value x12
        extract_lets +onlyGivenNames x13
        clear_value x13
        refine State.noteFl_keeps (Parts.le_trans rfl hl) ?_
        refine State.storeMat_keeps (Parts.le_trans rfl hl) ?_
        exact hx11
      · exact hx11
    · exact hs

theorem execAttm_keeps {d : Die} {c : LCore} {ev : RecEv}
    (hl : Parts.le [.mcs, .regs, .dies, .cores, .reports, .store, .trcTok, .free, .mem, .acct, .bad, .trcSeq,
      .trcDrop, .hub, .out, .fns, .disps] ps = true) {s : State} (hs : Keeps ps s0 s) {s' : State}
    (e : execAttm d c ev s = .next s') : Keeps ps s0 s' := by
  unfold execAttm at e
  refine Keeps.next ?_ e
  refine runRecord_keeps (Parts.le_trans rfl hl) ?_ ?_
  · intro a1 t2 ht3
    refine attmEffect_keeps (Parts.le_trans rfl hl) ?_
    exact ht3
  · exact hs

/-! ### Training -/

theorem quantEffect_keeps {e : Env} (hl : Parts.le [.mem, .bad, .disps, .cores] ps = true) {s : State}
    (hs : Keeps ps s0 s) : Keeps ps s0 (quantEffect e s) := by
  unfold quantEffect
  refine Keeps.ite ?_ ?_
  · exact hs
  · extract_lets +onlyGivenNames x1
    clear_value x1
    extract_lets +onlyGivenNames x2
    clear_value x2
    refine State.putResult_keeps hl ?_
    exact hs

theorem execQsclQuantise_keeps {d : Die} {c : LCore} {ev : RecEv}
    (hl : Parts.le [.mcs, .regs, .dies, .cores, .reports, .store, .trcTok, .free, .mem, .acct, .bad, .trcSeq,
      .trcDrop, .hub, .out, .fns, .disps] ps = true) {s : State} (hs : Keeps ps s0 s) {s' : State}
    (e : execQsclQuantise d c ev s = .next s') : Keeps ps s0 s' := by
  unfold execQsclQuantise at e
  refine Keeps.next ?_ e
  refine runRecord_keeps (Parts.le_trans rfl hl) ?_ ?_
  · intro a1 t2 ht3
    refine quantEffect_keeps (Parts.le_trans rfl hl) ?_
    exact ht3
  · exact hs

theorem scanEffect_keeps {e : Env} (hl : Parts.le [.mem, .disps] ps = true) {s : State} (hs : Keeps ps s0 s) : Keeps
    ps s0 (scanEffect e s) := by
  unfold scanEffect
  refine Keeps.ite ?_ ?_
  · exact hs
  · extract_lets +onlyGivenNames x1
    clear_value x1
    extract_lets +onlyGivenNames x2
    clear_value x2
    extract_lets +onlyGivenNames x3
    clear_value x3
    extract_lets +onlyGivenNames x4
    clear_value x4
    extract_lets +onlyGivenNames x5
    have hx5 : Keeps ps s0 x5 := by
      subst x5
      refine Keeps.foldl ?_ (fun t8 a6 ht7 => ?_)
      · exact hs
      · split
        · exact ht7
        · extract_lets +onlyGivenNames x9
          clear_value x9
          refine State.devWrite_keeps _ _ (Parts.le_trans rfl hl) ?_
          exact ht7
    clear_value x5
    refine State.noteFl_keeps (Parts.le_trans rfl hl) ?_
    exact hx5

theorem execQsclExpScan_keeps {d : Die} {c : LCore} {ev : RecEv}
    (hl : Parts.le [.mcs, .regs, .dies, .cores, .reports, .store, .trcTok, .free, .mem, .acct, .bad, .trcSeq,
      .trcDrop, .hub, .out, .fns, .disps] ps = true) {s : State} (hs : Keeps ps s0 s) {s' : State}
    (e : execQsclExpScan d c ev s = .next s') : Keeps ps s0 s' := by
  unfold execQsclExpScan at e
  refine Keeps.next ?_ e
  refine runRecord_keeps (Parts.le_trans rfl hl) ?_ ?_
  · intro a1 t2 ht3
    refine scanEffect_keeps (Parts.le_trans rfl hl) ?_
    exact ht3
  · exact hs

theorem dqscEffect_keeps {e : Env} (hl : Parts.le [.mem, .bad, .disps, .cores] ps = true) {s : State}
    (hs : Keeps ps s0 s) : Keeps ps s0 (dqscEffect e s) := by
  unfold dqscEffect
  refine Keeps.ite ?_ ?_
  · exact hs
  · extract_lets +onlyGivenNames x1
    clear_value x1
    extract_lets +onlyGivenNames x2
    clear_value x2
    refine State.putResult_keeps hl ?_
    exact hs

theorem execDqsc_keeps {d : Die} {c : LCore} {ev : RecEv}
    (hl : Parts.le [.mcs, .regs, .dies, .cores, .reports, .store, .trcTok, .free, .mem, .acct, .bad, .trcSeq,
      .trcDrop, .hub, .out, .fns, .disps] ps = true) {s : State} (hs : Keeps ps s0 s) {s' : State}
    (e : execDqsc d c ev s = .next s') : Keeps ps s0 s' := by
  unfold execDqsc at e
  refine Keeps.next ?_ e
  refine runRecord_keeps (Parts.le_trans rfl hl) ?_ ?_
  · intro a1 t2 ht3
    refine dqscEffect_keeps (Parts.le_trans rfl hl) ?_
    exact ht3
  · exact hs

theorem gnrmPartialEffect_keeps {e : Env} (hl : Parts.le [.mem] ps = true) {s : State} (hs : Keeps ps s0 s) : Keeps ps
    s0 (gnrmPartialEffect e s) := by
  unfold gnrmPartialEffect
  refine Keeps.ite ?_ ?_
  · exact hs
  · extract_lets +onlyGivenNames x1
    clear_value x1
    extract_lets +onlyGivenNames x2
    clear_value x2
    split
    refine Keeps.ite ?_ ?_
    · refine State.putRow_keeps hl ?_
      exact hs
    · extract_lets +onlyGivenNames x3
      clear_value x3
      extract_lets +onlyGivenNames x4
      clear_value x4
      refine State.putRow_keeps hl ?_
      exact hs

theorem execGnrmPartial_keeps {d : Die} {c : LCore} {ev : RecEv}
    (hl : Parts.le [.mcs, .regs, .dies, .cores, .reports, .store, .trcTok, .free, .mem, .acct, .bad, .trcSeq,
      .trcDrop, .hub, .out, .fns] ps = true) {s : State} (hs : Keeps ps s0 s) {s' : State}
    (e : execGnrmPartial d c ev s = .next s') : Keeps ps s0 s' := by
  unfold execGnrmPartial at e
  refine Keeps.next ?_ e
  refine runRecord_keeps hl ?_ ?_
  · intro a1 t2 ht3
    refine gnrmPartialEffect_keeps (Parts.le_trans rfl hl) ?_
    exact ht3
  · exact hs

theorem gnrmFinishEffect_keeps {e : Env} (hl : Parts.le [.mem, .cores, .disps] ps = true) {s : State}
    (hs : Keeps ps s0 s) : Keeps ps s0 (gnrmFinishEffect e s) := by
  unfold gnrmFinishEffect
  refine Keeps.ite ?_ ?_
  · exact hs
  · extract_lets +onlyGivenNames x1
    clear_value x1
    extract_lets +onlyGivenNames x2
    clear_value x2
    split
    extract_lets +onlyGivenNames x3
    have hx3 : Keeps ps s0 x3 := by
      subst x3
      refine State.putRow_keeps (Parts.le_trans rfl hl) ?_
      exact hs
    clear_value x3
    extract_lets +onlyGivenNames x4
    have hx4 : Keeps ps s0 x4 := by
      subst x4
      refine Keeps.ite ?_ ?_
      · refine State.putSlotFlags_keeps (Parts.le_trans rfl hl) ?_
        exact hx3
      · exact hx3
    clear_value x4
    refine State.noteFl_keeps (Parts.le_trans rfl hl) ?_
    exact hx4

theorem execGnrmFinish_keeps {d : Die} {c : LCore} {ev : RecEv}
    (hl : Parts.le [.mcs, .regs, .dies, .cores, .reports, .store, .trcTok, .free, .mem, .acct, .bad, .trcSeq,
      .trcDrop, .hub, .out, .fns, .disps] ps = true) {s : State} (hs : Keeps ps s0 s) {s' : State}
    (e : execGnrmFinish d c ev s = .next s') : Keeps ps s0 s' := by
  unfold execGnrmFinish at e
  refine Keeps.next ?_ e
  refine runRecord_keeps (Parts.le_trans rfl hl) ?_ ?_
  · intro a1 t2 ht3
    refine gnrmFinishEffect_keeps (Parts.le_trans rfl hl) ?_
    exact ht3
  · exact hs

theorem gnrmClipEffect_keeps {e : Env} (hl : Parts.le [.mem, .bad, .disps, .cores] ps = true) {s : State}
    (hs : Keeps ps s0 s) : Keeps ps s0 (gnrmClipEffect e s) := by
  unfold gnrmClipEffect
  refine Keeps.ite ?_ ?_
  · exact hs
  · extract_lets +onlyGivenNames x1
    clear_value x1
    extract_lets +onlyGivenNames x2
    clear_value x2
    refine State.putInZ_keeps hl ?_
    exact hs

theorem execGnrmClip_keeps {d : Die} {c : LCore} {ev : RecEv}
    (hl : Parts.le [.mcs, .regs, .dies, .cores, .reports, .store, .trcTok, .free, .mem, .acct, .bad, .trcSeq,
      .trcDrop, .hub, .out, .fns, .disps] ps = true) {s : State} (hs : Keeps ps s0 s) {s' : State}
    (e : execGnrmClip d c ev s = .next s') : Keeps ps s0 s' := by
  unfold execGnrmClip at e
  refine Keeps.next ?_ e
  refine runRecord_keeps (Parts.le_trans rfl hl) ?_ ?_
  · intro a1 t2 ht3
    refine gnrmClipEffect_keeps (Parts.le_trans rfl hl) ?_
    exact ht3
  · exact hs

theorem rngmApplyEffect_keeps {e : Env} (hl : Parts.le [.mem, .bad, .disps, .cores] ps = true) {s : State}
    (hs : Keeps ps s0 s) : Keeps ps s0 (rngmApplyEffect e s) := by
  unfold rngmApplyEffect
  refine Keeps.ite ?_ ?_
  · exact hs
  · extract_lets +onlyGivenNames x1
    clear_value x1
    extract_lets +onlyGivenNames x2
    clear_value x2
    refine State.putInZ_keeps hl ?_
    exact hs

theorem execRngmApply_keeps {d : Die} {c : LCore} {ev : RecEv}
    (hl : Parts.le [.mcs, .regs, .dies, .cores, .reports, .store, .trcTok, .free, .mem, .acct, .bad, .trcSeq,
      .trcDrop, .hub, .out, .fns, .disps] ps = true) {s : State} (hs : Keeps ps s0 s) {s' : State}
    (e : execRngmApply d c ev s = .next s') : Keeps ps s0 s' := by
  unfold execRngmApply at e
  refine Keeps.next ?_ e
  refine runRecord_keeps (Parts.le_trans rfl hl) ?_ ?_
  · intro a1 t2 ht3
    refine rngmApplyEffect_keeps (Parts.le_trans rfl hl) ?_
    exact ht3
  · exact hs

theorem rngmRawEffect_keeps {e : Env} (hl : Parts.le [.mem, .bad, .disps, .cores] ps = true) {s : State}
    (hs : Keeps ps s0 s) : Keeps ps s0 (rngmRawEffect e s) := by
  unfold rngmRawEffect
  refine Keeps.ite ?_ ?_
  · exact hs
  · extract_lets +onlyGivenNames x1
    clear_value x1
    refine State.putResult_keeps hl ?_
    exact hs

theorem execRngmRaw_keeps {d : Die} {c : LCore} {ev : RecEv}
    (hl : Parts.le [.mcs, .regs, .dies, .cores, .reports, .store, .trcTok, .free, .mem, .acct, .bad, .trcSeq,
      .trcDrop, .hub, .out, .fns, .disps] ps = true) {s : State} (hs : Keeps ps s0 s) {s' : State}
    (e : execRngmRaw d c ev s = .next s') : Keeps ps s0 s' := by
  unfold execRngmRaw at e
  refine Keeps.next ?_ e
  refine runRecord_keeps (Parts.le_trans rfl hl) ?_ ?_
  · intro a1 t2 ht3
    refine rngmRawEffect_keeps (Parts.le_trans rfl hl) ?_
    exact ht3
  · exact hs

/-! ### Moves -/

theorem State.moveMat_keeps {src : Loc} {dst : Loc} {r : ℕ} {c : ℕ} (hl : Parts.le [.mem, .bad] ps = true) {s : State}
    (hs : Keeps ps s0 s) : Keeps ps s0 (State.moveMat s src dst r c) := by
  unfold State.moveMat
  extract_lets +onlyGivenNames x1
  clear_value x1
  extract_lets +onlyGivenNames x2
  clear_value x2
  extract_lets +onlyGivenNames x3
  have hx3 : Keeps ps s0 x3 := by
    subst x3
    refine State.putRows_keeps (Parts.le_trans rfl hl) ?_
    exact hs
  clear_value x3
  extract_lets +onlyGivenNames x4
  have hx4 : Keeps ps s0 x4 := by
    subst x4
    refine Keeps.ite ?_ ?_
    · refine State.putScales_keeps (Parts.le_trans rfl hl) ?_
      exact hx3
    · exact hx3
  clear_value x4
  refine Keeps.foldl ?_ (fun t7 a5 ht6 => ?_)
  · exact hx4
  · split
    refine State.clearBad_keeps (Parts.le_trans rfl hl) ?_
    exact ht6

theorem State.countMove_keeps {d : Die} {n : ℕ} (hl : Parts.le [.dies] ps = true) {s : State} (hs : Keeps ps s0 s) :
    Keeps ps s0 (State.countMove s d n) := by
  unfold State.countMove
  refine State.modCtr_keeps hl ?_
  exact hs

theorem State.clearSlots_keeps {e : Env} {l' : Loc} {first : ℕ} {r : ℕ} {c : ℕ} (hl : Parts.le [.cores] ps = true)
    {s : State} (hs : Keeps ps s0 s) : Keeps ps s0 (State.clearSlots s e l' first r c) := by
  unfold State.clearSlots
  refine Keeps.ite ?_ ?_
  · refine State.putSlotFlags_keeps hl ?_
    exact hs
  · exact hs

theorem loadEffect_keeps {e : Env}
    (hl : Parts.le [.reports, .free, .mem, .acct, .regs, .dies, .cores, .bad] ps = true) {s : State}
    (hs : Keeps ps s0 s) : Keeps ps s0 (loadEffect e s) := by
  unfold loadEffect
  refine Keeps.ite ?_ ?_
  · exact hs
  · extract_lets +onlyGivenNames x1
    clear_value x1
    extract_lets +onlyGivenNames x2
    clear_value x2
    refine guarded_keeps (Parts.le_trans rfl hl) ?_ ?_
    · intro t3 ht4
      extract_lets +onlyGivenNames x5
      have hx5 : Keeps ps s0 x5 := by
        subst x5
        refine State.moveMat_keeps (Parts.le_trans rfl hl) ?_
        exact ht4
      clear_value x5
      extract_lets +onlyGivenNames x6
      have hx6 : Keeps ps s0 x6 := by
        subst x6
        refine State.clearSlots_keeps (Parts.le_trans rfl hl) ?_
        exact hx5
      clear_value x6
      refine State.countMove_keeps (Parts.le_trans rfl hl) ?_
      exact hx6
    · exact hs

theorem execLoad_keeps {d : Die} {c : LCore} {ev : RecEv}
    (hl : Parts.le [.mcs, .regs, .dies, .cores, .reports, .store, .trcTok, .free, .mem, .acct, .bad, .trcSeq,
      .trcDrop, .hub, .out, .fns] ps = true) {s : State} (hs : Keeps ps s0 s) {s' : State}
    (e : execLoad d c ev s = .next s') : Keeps ps s0 s' := by
  unfold execLoad at e
  refine Keeps.next ?_ e
  refine runRecord_keeps hl ?_ ?_
  · intro a1 t2 ht3
    refine loadEffect_keeps (Parts.le_trans rfl hl) ?_
    exact ht3
  · exact hs

theorem execPref_keeps {d : Die} {c : LCore} {ev : RecEv}
    (hl : Parts.le [.mcs, .regs, .dies, .cores, .reports, .store, .trcTok, .free, .mem, .acct, .bad, .trcSeq,
      .trcDrop, .hub, .out, .fns] ps = true) {s : State} (hs : Keeps ps s0 s) {s' : State}
    (e : execPref d c ev s = .next s') : Keeps ps s0 s' := by
  unfold execPref at e
  refine Keeps.next ?_ e
  refine runRecord_keeps hl ?_ ?_
  · intro a1 t2 ht3
    refine loadEffect_keeps (Parts.le_trans rfl hl) ?_
    exact ht3
  · exact hs

theorem storeEffect_keeps {e : Env}
    (hl : Parts.le [.reports, .free, .mem, .acct, .regs, .dies, .cores, .disps, .bad] ps = true) {s : State}
    (hs : Keeps ps s0 s) : Keeps ps s0 (storeEffect e s) := by
  unfold storeEffect
  refine Keeps.ite ?_ ?_
  · exact hs
  · extract_lets +onlyGivenNames x1
    clear_value x1
    extract_lets +onlyGivenNames x2
    clear_value x2
    extract_lets +onlyGivenNames x3
    clear_value x3
    extract_lets +onlyGivenNames x4
    clear_value x4
    refine Keeps.ite ?_ ?_
    · refine guarded_keeps (Parts.le_trans rfl hl) ?_ ?_
      · intro t5 ht6
        extract_lets +onlyGivenNames x7
        clear_value x7
        refine State.countMove_keeps (Parts.le_trans rfl hl) ?_
        refine State.noteFl_keeps (Parts.le_trans rfl hl) ?_
        refine State.storeMat_keeps (Parts.le_trans rfl hl) ?_
        exact ht6
      · exact hs
    · refine guarded_keeps (Parts.le_trans rfl hl) ?_ ?_
      · intro t8 ht9
        refine State.countMove_keeps (Parts.le_trans rfl hl) ?_
        refine State.moveMat_keeps (Parts.le_trans rfl hl) ?_
        exact ht9
      · exact hs

theorem execStore_keeps {d : Die} {c : LCore} {ev : RecEv}
    (hl : Parts.le [.mcs, .regs, .dies, .cores, .reports, .store, .trcTok, .free, .mem, .acct, .bad, .trcSeq,
      .trcDrop, .hub, .out, .fns, .disps] ps = true) {s : State} (hs : Keeps ps s0 s) {s' : State}
    (e : execStore d c ev s = .next s') : Keeps ps s0 s' := by
  unfold execStore at e
  refine Keeps.next ?_ e
  refine runRecord_keeps (Parts.le_trans rfl hl) ?_ ?_
  · intro a1 t2 ht3
    refine storeEffect_keeps (Parts.le_trans rfl hl) ?_
    exact ht3
  · exact hs

theorem receiveEffect_keeps {e : Env} (hl : Parts.le [.cores, .credits] ps = true) {s : State} (hs : Keeps ps s0 s) :
    Keeps ps s0 (receiveEffect e s) := by
  unfold receiveEffect
  extract_lets +onlyGivenNames x1
  have hx1 : Keeps ps s0 x1 := by
    subst x1
    refine State.modPlaced_keeps (Parts.le_trans rfl hl) ?_
    exact hs
  clear_value x1
  refine Keeps.upd [.credits] (Parts.le_trans rfl hl) rfl rfl ?_
  exact hx1

theorem sendEffect_keeps {e : Env} (hl : Parts.le [.cores, .dies, .mem, .bad, .credits] ps = true) {s : State}
    (hs : Keeps ps s0 s) : Keeps ps s0 (sendEffect e s) := by
  unfold sendEffect
  split
  · exact hs
  · split
    · exact hs
    · extract_lets +onlyGivenNames x1
      clear_value x1
      extract_lets +onlyGivenNames x2
      clear_value x2
      extract_lets +onlyGivenNames x3
      have hx3 : Keeps ps s0 x3 := by
        subst x3
        refine Keeps.ite ?_ ?_
        · exact hs
        · refine State.clearLines_keeps (Parts.le_trans rfl hl) ?_
          refine State.countMove_keeps (Parts.le_trans rfl hl) ?_
          refine State.moveMat_keeps (Parts.le_trans rfl hl) ?_
          exact hs
      clear_value x3
      extract_lets +onlyGivenNames x4
      have hx4 : Keeps ps s0 x4 := by
        subst x4
        refine Keeps.ite ?_ ?_
        · exact hx3
        · refine State.clearSlots_keeps (Parts.le_trans rfl hl) ?_
          exact hx3
      clear_value x4
      extract_lets +onlyGivenNames x5
      have hx5 : Keeps ps s0 x5 := by
        subst x5
        refine State.modPlaced_keeps (Parts.le_trans rfl hl) ?_
        exact hx4
      clear_value x5
      refine Keeps.upd [.credits] (Parts.le_trans rfl hl) rfl rfl ?_
      exact hx5

theorem runSend_keeps {op : ℕ} {d : Die} {c : LCore} {ev : RecEv}
    (hl : Parts.le [.mcs, .regs, .dies, .cores, .reports, .store, .trcTok, .free, .mem, .acct, .bad, .trcSeq,
      .trcDrop, .hub, .out, .fns, .credits] ps = true) {s : State} (hs : Keeps ps s0 s) : Keeps ps s0
    (runSend op d c ev s) := by
  unfold runSend
  split
  · exact hs
  · refine Keeps.ite ?_ ?_
    · refine runOn_keeps (Parts.le_trans rfl hl) ?_ ?_
      · intro a1 t2 ht3
        refine sendEffect_keeps (Parts.le_trans rfl hl) ?_
        exact ht3
      · exact hs
    · exact hs

theorem execRotSend_keeps {d : Die} {c : LCore} {ev : RecEv}
    (hl : Parts.le [.mcs, .regs, .dies, .cores, .reports, .store, .trcTok, .free, .mem, .acct, .bad, .trcSeq,
      .trcDrop, .hub, .out, .fns, .credits] ps = true) {s : State} (hs : Keeps ps s0 s) {s' : State}
    (e : execRotSend d c ev s = .next s') : Keeps ps s0 s' := by
  unfold execRotSend at e
  refine Keeps.next ?_ e
  refine runSend_keeps hl ?_
  exact hs

theorem execRotReceive_keeps {d : Die} {c : LCore}
    (hl : Parts.le [.mcs, .regs, .dies, .cores, .reports, .store, .trcTok, .free, .mem, .acct, .bad, .trcSeq,
      .trcDrop, .hub, .out, .fns, .credits] ps = true) {s : State} (hs : Keeps ps s0 s) {s' : State}
    (e : execRotReceive d c s = .next s') : Keeps ps s0 s' := by
  unfold execRotReceive at e
  refine Keeps.next ?_ e
  refine runOn_keeps (Parts.le_trans rfl hl) ?_ ?_
  · intro a1 t2 ht3
    refine receiveEffect_keeps (Parts.le_trans rfl hl) ?_
    exact ht3
  · exact hs

theorem execHaloSend_keeps {d : Die} {c : LCore} {ev : RecEv}
    (hl : Parts.le [.mcs, .regs, .dies, .cores, .reports, .store, .trcTok, .free, .mem, .acct, .bad, .trcSeq,
      .trcDrop, .hub, .out, .fns, .credits] ps = true) {s : State} (hs : Keeps ps s0 s) {s' : State}
    (e : execHaloSend d c ev s = .next s') : Keeps ps s0 s' := by
  unfold execHaloSend at e
  refine Keeps.next ?_ e
  refine runSend_keeps hl ?_
  exact hs

theorem execHaloReceive_keeps {d : Die} {c : LCore}
    (hl : Parts.le [.mcs, .regs, .dies, .cores, .reports, .store, .trcTok, .free, .mem, .acct, .bad, .trcSeq,
      .trcDrop, .hub, .out, .fns, .credits] ps = true) {s : State} (hs : Keeps ps s0 s) {s' : State}
    (e : execHaloReceive d c s = .next s') : Keeps ps s0 s' := by
  unfold execHaloReceive at e
  refine Keeps.next ?_ e
  refine runOn_keeps (Parts.le_trans rfl hl) ?_ ?_
  · intro a1 t2 ht3
    refine receiveEffect_keeps (Parts.le_trans rfl hl) ?_
    exact ht3
  · exact hs

theorem barIssue_keeps {e : Env}
    (hl : Parts.le [.ctxs, .trcTok, .free, .mem, .acct, .regs, .bad, .trcSeq, .trcDrop, .cores] ps = true) {s : State}
    (hs : Keeps ps s0 s) : Keeps ps s0 (barIssue e s) := by
  unfold barIssue
  extract_lets +onlyGivenNames x1
  clear_value x1
  refine State.modCtx_keeps (Parts.le_trans rfl hl) ?_
  refine State.markIssued_keeps (Parts.le_trans rfl hl) ?_
  exact hs

theorem execBar_keeps {d : Die} {c : LCore}
    (hl : Parts.le [.ctxs, .trcTok, .free, .mem, .acct, .regs, .bad, .trcSeq, .trcDrop, .cores] ps = true) {s : State}
    (hs : Keeps ps s0 s) {s' : State} (e : execBar d c s = .next s') : Keeps ps s0 s' := by
  unfold execBar at e
  refine Keeps.next ?_ e
  split
  · refine barIssue_keeps hl ?_
    exact hs
  · exact hs

theorem barGenerationComplete_keeps {n : CtxId} {g : BarGen}
    (hl : Parts.le [.trcTok, .free, .mem, .acct, .regs, .bad, .trcSeq, .trcDrop, .cores, .ctxs] ps = true) {s : State}
    (hs : Keeps ps s0 s) : Keeps ps s0 (barGenerationComplete n g s) := by
  unfold barGenerationComplete
  extract_lets +onlyGivenNames x1
  have hx1 : Keeps ps s0 x1 := by
    subst x1
    refine Keeps.foldl ?_ (fun t4 a2 ht3 => ?_)
    · exact hs
    · split
      · refine State.markDone_keeps (Parts.le_trans rfl hl) ?_
        exact ht3
      · exact ht3
  clear_value x1
  extract_lets +onlyGivenNames x5
  have hx5 : Keeps ps s0 x5 := by
    subst x5
    refine State.modCtx_keeps (Parts.le_trans rfl hl) ?_
    exact hx1
  clear_value x5
  refine Keeps.foldl ?_ (fun t8 a6 ht7 => ?_)
  · exact hx5
  · refine State.traceRec_keeps (Parts.le_trans rfl hl) ?_
    exact ht7

theorem execBarGenerationComplete_keeps {n : CtxId} {d : Die} {id : Fin 64}
    (hl : Parts.le [.trcTok, .free, .mem, .acct, .regs, .bad, .trcSeq, .trcDrop, .cores, .ctxs] ps = true) {s : State}
    (hs : Keeps ps s0 s) {s' : State} (e : execBarGenerationComplete n d id s = .next s') : Keeps ps s0 s' := by
  unfold execBarGenerationComplete at e
  refine Keeps.next ?_ e
  split
  · refine barGenerationComplete_keeps hl ?_
    exact hs
  · exact hs

theorem execWait_keeps {d : Die} {c : LCore}
    (hl : Parts.le [.trcTok, .free, .mem, .acct, .regs, .bad, .trcSeq, .trcDrop, .cores] ps = true) {s : State}
    (hs : Keeps ps s0 s) {s' : State} (e : execWait d c s = .next s') : Keeps ps s0 s' := by
  unfold execWait at e
  refine Keeps.next ?_ e
  split
  · refine State.markIssued_keeps hl ?_
    exact hs
  · exact hs

theorem waitSatisfied_keeps {e : Env} {q : ℕ}
    (hl : Parts.le [.ctxs, .arb, .trcTok, .free, .mem, .acct, .regs, .bad, .trcSeq, .trcDrop, .cores] ps = true)
    {s : State} (hs : Keeps ps s0 s) : Keeps ps s0 (waitSatisfied e q s) := by
  unfold waitSatisfied
  extract_lets +onlyGivenNames x1
  clear_value x1
  extract_lets +onlyGivenNames x2
  clear_value x2
  extract_lets +onlyGivenNames x3
  have hx3 : Keeps ps s0 x3 := by
    subst x3
    refine State.setSem_keeps (Parts.le_trans rfl hl) ?_
    exact hs
  clear_value x3
  extract_lets +onlyGivenNames x4
  clear_value x4
  extract_lets +onlyGivenNames x5
  have hx5 : Keeps ps s0 x5 := by
    subst x5
    refine Keeps.upd [.arb] (Parts.le_trans rfl hl) rfl rfl ?_
    exact hx3
  clear_value x5
  refine State.traceRec_keeps (Parts.le_trans rfl hl) ?_
  refine State.markDone_keeps (Parts.le_trans rfl hl) ?_
  exact hx5

theorem execWaitSatisfied_keeps {d : Die} {c : LCore}
    (hl : Parts.le [.ctxs, .arb, .trcTok, .free, .mem, .acct, .regs, .bad, .trcSeq, .trcDrop, .cores] ps = true)
    {s : State} (hs : Keeps ps s0 s) {s' : State} (e : execWaitSatisfied d c s = .next s') : Keeps ps s0 s' := by
  unfold execWaitSatisfied at e
  refine Keeps.next ?_ e
  split
  · refine Keeps.ite ?_ ?_
    · refine waitSatisfied_keeps hl ?_
      exact hs
    · exact hs
  · exact hs

theorem signalIssue_keeps {e : Env}
    (hl : Parts.le [.reports, .ctxs, .trcTok, .free, .mem, .acct, .regs, .bad, .trcSeq, .trcDrop, .cores] ps = true)
    {s : State} (hs : Keeps ps s0 s) : Keeps ps s0 (signalIssue e s) := by
  unfold signalIssue
  extract_lets +onlyGivenNames x1
  clear_value x1
  split
  · rename_i y2 y3 y4
    have hy3 : Keeps ps s0 y3 := by
      refine Keeps.ofEqL y4 ?_
      refine State.semAdd_keeps (Parts.le_trans rfl hl) ?_
      refine State.markIssued_keeps (Parts.le_trans rfl hl) ?_
      exact hs
    refine State.markDone_keeps (Parts.le_trans rfl hl) ?_
    exact hy3
  · rename_i y5 y6 y7
    have hy6 : Keeps ps s0 y6 := by
      refine Keeps.ofEqL y7 ?_
      refine State.semAdd_keeps (Parts.le_trans rfl hl) ?_
      refine State.markIssued_keeps (Parts.le_trans rfl hl) ?_
      exact hs
    exact hy6

theorem execSignal_keeps {d : Die} {c : LCore}
    (hl : Parts.le [.reports, .ctxs, .trcTok, .free, .mem, .acct, .regs, .bad, .trcSeq, .trcDrop, .cores] ps = true)
    {s : State} (hs : Keeps ps s0 s) {s' : State} (e : execSignal d c s = .next s') : Keeps ps s0 s' := by
  unfold execSignal at e
  refine Keeps.next ?_ e
  split
  · refine signalIssue_keeps hl ?_
    exact hs
  · exact hs

theorem execBarrierWatchdog_keeps {d : Die} {c : LCore} (hl : Parts.le [.reports] ps = true) {s : State}
    (hs : Keeps ps s0 s) {s' : State} (e : execBarrierWatchdog d c s = .next s') : Keeps ps s0 s' := by
  unfold execBarrierWatchdog at e
  refine Keeps.next ?_ e
  split
  · refine State.raise_keeps hl ?_
    exact hs
  · exact hs

/-! ### Replay -/

theorem effectOf_keeps {e : Env}
    (hl : Parts.le [.reports, .free, .mem, .acct, .regs, .dies, .cores, .disps, .bad] ps = true) {s : State}
    (hs : Keeps ps s0 s) : Keeps ps s0 (effectOf e s) := by
  unfold effectOf
  extract_lets +onlyGivenNames x1
  clear_value x1
  extract_lets +onlyGivenNames x2
  clear_value x2
  refine Keeps.ite ?_ ?_
  · refine attbEffect_keeps (Parts.le_trans rfl hl) ?_
    exact hs
  · refine Keeps.ite ?_ ?_
    · refine attmEffect_keeps hl ?_
      exact hs
    · refine Keeps.ite ?_ ?_
      · refine tconvEffect_keeps hl ?_
        exact hs
      · refine Keeps.ite ?_ ?_
        · refine arrayEffect_keeps hl ?_
          exact hs
        · refine Keeps.ite ?_ ?_
          · refine vecEffect_keeps (Parts.le_trans rfl hl) ?_
            exact hs
          · refine Keeps.ite ?_ ?_
            · refine normEffect_keeps (Parts.le_trans rfl hl) ?_
              exact hs
            · refine Keeps.ite ?_ ?_
              · refine Keeps.ite ?_ ?_
                · refine redEffect_keeps (Parts.le_trans rfl hl) ?_
                  exact hs
                · refine poolEffect_keeps (Parts.le_trans rfl hl) ?_
                  exact hs
              · refine Keeps.ite ?_ ?_
                · refine sortEffect_keeps (Parts.le_trans rfl hl) ?_
                  exact hs
                · refine Keeps.ite ?_ ?_
                  · refine nmsEffect_keeps (Parts.le_trans rfl hl) ?_
                    exact hs
                  · refine Keeps.ite ?_ ?_
                    · refine boxdEffect_keeps (Parts.le_trans rfl hl) ?_
                      exact hs
                    · refine Keeps.ite ?_ ?_
                      · refine Keeps.ite ?_ ?_
                        · refine quantEffect_keeps (Parts.le_trans rfl hl) ?_
                          exact hs
                        · refine scanEffect_keeps (Parts.le_trans rfl hl) ?_
                          exact hs
                      · refine Keeps.ite ?_ ?_
                        · refine dqscEffect_keeps (Parts.le_trans rfl hl) ?_
                          exact hs
                        · refine Keeps.ite ?_ ?_
                          · refine Keeps.ite ?_ ?_
                            · refine gnrmPartialEffect_keeps (Parts.le_trans rfl hl) ?_
                              exact hs
                            · refine Keeps.ite ?_ ?_
                              · refine gnrmFinishEffect_keeps (Parts.le_trans rfl hl) ?_
                                exact hs
                              · refine gnrmClipEffect_keeps (Parts.le_trans rfl hl) ?_
                                exact hs
                          · refine Keeps.ite ?_ ?_
                            · refine Keeps.ite ?_ ?_
                              · refine rngmApplyEffect_keeps (Parts.le_trans rfl hl) ?_
                                exact hs
                              · refine rngmRawEffect_keeps (Parts.le_trans rfl hl) ?_
                                exact hs
                            · refine Keeps.ite ?_ ?_
                              · refine storeEffect_keeps hl ?_
                                exact hs
                              · exact hs

theorem runReplay_keeps {e : Env} {ev : RecEv}
    (hl : Parts.le [.mcs, .regs, .dies, .cores, .reports, .free, .mem, .acct, .disps, .bad, .store, .trcTok, .trcSeq,
      .trcDrop, .hub, .out, .fns] ps = true) {s : State} (hs : Keeps ps s0 s) : Keeps ps s0 (runReplay e ev s) := by
  unfold runReplay
  refine withEcc_keeps (Parts.le_trans rfl hl) ?_ ?_
  · intro t1 ht2
    extract_lets +onlyGivenNames x3
    have hx3 : ∀ t, Keeps ps s0 t → Keeps ps s0 (x3 t) := by
      subst x3
      intro t4 ht5
      beta_reduce
      refine effClear_keeps (Parts.le_trans rfl hl) ?_ ?_
      · intro a6 t7 ht8
        refine effectOf_keeps (Parts.le_trans rfl hl) ?_
        exact ht8
      · refine State.modCore_keeps (Parts.le_trans rfl hl) ?_
        refine State.modPlaced_keeps (Parts.le_trans rfl hl) ?_
        exact ht5
    clear_value x3
    extract_lets +onlyGivenNames x9
    clear_value x9
    split
    · refine Keeps.ite ?_ ?_
      · refine csumMismatch_keeps (Parts.le_trans rfl hl) ?_
        exact ht2
      · apply hx3
        exact ht2
    · refine Keeps.ite ?_ ?_
      · apply hx3
        exact ht2
      · refine Keeps.ite ?_ ?_
        · apply hx3
          refine State.countReplay_keeps (Parts.le_trans rfl hl) ?_
          exact ht2
        · refine residueRetire_keeps (Parts.le_trans rfl hl) ?_
          exact ht2
  · refine State.countReplay_keeps (Parts.le_trans rfl hl) ?_
    exact hs

theorem execRunReplay_keeps {d : Die} {c : LCore} {ev : RecEv}
    (hl : Parts.le [.mcs, .regs, .dies, .cores, .reports, .free, .mem, .acct, .disps, .bad, .store, .trcTok, .trcSeq,
      .trcDrop, .hub, .out, .fns] ps = true) {s : State} (hs : Keeps ps s0 s) {s' : State}
    (e : execRunReplay d c ev s = .next s') : Keeps ps s0 s' := by
  unfold execRunReplay at e
  refine Keeps.next ?_ e
  split
  · refine runReplay_keeps hl ?_
    exact hs
  · exact hs

end Sys2Proof.Machine
end

