-- ==== Sys2Proof/Laws/KeepsJobs.lean ====
section
/-! SUPPORT. What is kept (Laws/Keeps.lean) by
plans, the loader, clocks, the scheduler and the DMA queues,
one lemma an operation: the parts of the state that it lists are all that the operation may change. -/

namespace Sys2Proof.Machine

set_option maxRecDepth 4096

variable {ps : List Part} {s0 : State}

/-! ### Loader -/

theorem State.modPlan_keeps {n : CtxId} {h : ℕ} {f : Plan → Plan} (hl : Parts.le [.plans] ps = true) {s : State}
    (hs : Keeps ps s0 s) : Keeps ps s0 (State.modPlan s n h f) := by
  unfold State.modPlan
  refine Keeps.upd [.plans] hl rfl rfl ?_
  exact hs

theorem State.dropPlan_keeps {n : CtxId} {h : ℕ} (hl : Parts.le [.plans] ps = true) {s : State} (hs : Keeps ps s0 s) :
    Keeps ps s0 (State.dropPlan s n h) := by
  unfold State.dropPlan
  refine Keeps.upd [.plans] hl rfl rfl ?_
  exact hs

theorem loadDone_keeps {x : Desc} {r : Rep} {digest : List Byte} {fin : State → State}
    (hl : Parts.le [.hostMem, .mem, .reports, .acct, .free, .regs, .bad, .rings, .descs, .ctxs, .hub, .out] ps = true)
    (hfin : ∀ t, Keeps ps s0 t → Keeps ps s0 (fin t)) {s : State} (hs : Keeps ps s0 s) : Keeps ps s0
    (loadDone x r digest fin s) := by
  unfold loadDone
  split
  · rename_i y1 y2 y3
    have hy2 : Keeps ps s0 y2 := by
      refine Keeps.ofEqL y3 ?_
      refine State.hubWrite_keeps (Parts.le_trans rfl hl) ?_
      exact hs
    refine State.complete_keeps hl ?_
    apply hfin
    exact hy2
  · rename_i y4 y5 y6
    have hy5 : Keeps ps s0 y5 := by
      refine Keeps.ofEqL y6 ?_
      refine State.hubWrite_keeps (Parts.le_trans rfl hl) ?_
      exact hs
    exact hy5

theorem loadRefused_keeps {x : Desc} {r : Rep}
    (hl : Parts.le [.free, .hostMem, .mem, .reports, .acct, .regs, .bad, .rings, .descs, .ctxs, .hub, .out] ps = true)
    {s : State} (hs : Keeps ps s0 s) : Keeps ps s0 (loadRefused x r s) := by
  unfold loadRefused
  split
  rename_i y1 y2 y3 y4
  have hy3 : Keeps ps s0 y3 := by
    refine Keeps.ofEqR y4 ?_
    refine State.freeBytes_keeps (Parts.le_trans rfl hl) ?_
    exact hs
  refine loadDone_keeps (Parts.le_trans rfl hl) ?_ ?_
  · intro t5 ht6
    dsimp -zeta only [id]
    exact ht6
  · exact hy3

theorem admitLoad_keeps {x : Desc}
    (hl : Parts.le [.plans, .free, .hostMem, .mem, .reports, .acct, .regs, .bad, .rings, .descs, .ctxs, .hub, .out]
      ps = true) {s : State} (hs : Keeps ps s0 s) : Keeps ps s0 (admitLoad x s) := by
  unfold admitLoad
  extract_lets +onlyGivenNames x1
  clear_value x1
  extract_lets +onlyGivenNames x2
  clear_value x2
  refine Keeps.ite ?_ ?_
  · refine Keeps.upd [.plans] (Parts.le_trans rfl hl) rfl rfl ?_
    exact hs
  · refine loadRefused_keeps (Parts.le_trans rfl hl) ?_
    exact hs

theorem execPlanLoad_keeps {r : RingId}
    (hl : Parts.le [.free, .mcs, .regs, .dies, .cores, .acct, .rings, .nextSeq, .descs, .arb, .hostMem, .mem,
      .reports, .bad, .ctxs, .hub, .out, .plans] ps = true) {s : State} (hs : Keeps ps s0 s) {s' : State}
    (e : execPlanLoad r s = .next s') : Keeps ps s0 s' := by
  unfold execPlanLoad at e
  refine Keeps.next ?_ e
  refine fetchThen_keeps (Parts.le_trans rfl hl) ?_ ?_ ?_
  · intro a1 t2 ht3
    refine admitLoad_keeps (Parts.le_trans rfl hl) ?_
    exact ht3
  · intro a4 t5 ht6
    refine State.markStarted_keeps (Parts.le_trans rfl hl) ?_
    exact ht6
  · exact hs

theorem planLoaded_keeps {n : CtxId} {h : ℕ} {load : ℕ} {depth : ℕ} (hl : Parts.le [.plans] ps = true) {s : State}
    (hs : Keeps ps s0 s) : Keeps ps s0 (planLoaded n h load depth s) := by
  unfold planLoaded
  extract_lets +onlyGivenNames x1
  clear_value x1
  refine State.modPlan_keeps hl ?_
  exact hs

theorem loadChecked_keeps {x : Desc}
    (hl : Parts.le [.hostMem, .mem, .reports, .acct, .free, .regs, .bad, .rings, .descs, .ctxs, .hub, .out, .plans]
      ps = true) {s : State} (hs : Keeps ps s0 s) : Keeps ps s0 (loadChecked x s) := by
  unfold loadChecked
  extract_lets +onlyGivenNames x1
  clear_value x1
  split
  split
  · refine loadDone_keeps (Parts.le_trans rfl hl) ?_ ?_
    · intro t2 ht3
      dsimp -zeta only [id]
      exact ht3
    · refine State.dropPlan_keeps (Parts.le_trans rfl hl) ?_
      exact hs
  · refine loadDone_keeps (Parts.le_trans rfl hl) ?_ ?_
    · intro t4 ht5
      refine planLoaded_keeps (Parts.le_trans rfl hl) ?_
      exact ht5
    · exact hs

theorem planLoadCheck_keeps {x : Desc} {readFail : Option ℕ} {ce : List ℕ}
    (hl : Parts.le [.reports, .free, .hostMem, .mem, .acct, .regs, .bad, .rings, .descs, .ctxs, .hub, .out, .plans,
      .mcs, .dies, .cores] ps = true) {s : State} (hs : Keeps ps s0 s) : Keeps ps s0 (planLoadCheck x readFail ce s)
    := by
  unfold planLoadCheck
  extract_lets +onlyGivenNames x1
  clear_value x1
  extract_lets +onlyGivenNames x2
  clear_value x2
  extract_lets +onlyGivenNames x3
  clear_value x3
  split
  · refine State.raise_keeps (Parts.le_trans rfl hl) ?_
    exact hs
  · split
    · refine loadRefused_keeps (Parts.le_trans rfl hl) ?_
      refine State.dropPlan_keeps (Parts.le_trans rfl hl) ?_
      refine State.scramble_keeps (Parts.le_trans rfl hl) ?_
      exact hs
    · split
      · refine State.raise_keeps (Parts.le_trans rfl hl) ?_
        exact hs
      · extract_lets +onlyGivenNames x4
        clear_value x4
        extract_lets +onlyGivenNames x5
        have hx5 : Keeps ps s0 x5 := by
          subst x5
          refine Keeps.ite ?_ ?_
          · exact hs
          · refine State.readCe_keeps (Parts.le_trans rfl hl) ?_
            refine State.chargeBytes_keeps (Parts.le_trans rfl hl) ?_
            refine State.countBytes_keeps (Parts.le_trans rfl hl) ?_
            exact hs
        clear_value x5
        refine loadChecked_keeps (Parts.le_trans rfl hl) ?_
        refine State.chargeBytes_keeps (Parts.le_trans rfl hl) ?_
        refine State.putBytes_keeps (Parts.le_trans rfl hl) ?_
        exact hx5

theorem execPlanLoadCheck_keeps {seq : ℕ} {readFail : Option ℕ} {ce : List ℕ}
    (hl : Parts.le [.reports, .free, .hostMem, .mem, .acct, .regs, .bad, .rings, .descs, .ctxs, .hub, .out, .plans,
      .mcs, .dies, .cores] ps = true) {s : State} (hs : Keeps ps s0 s) {s' : State}
    (e : execPlanLoadCheck seq readFail s ce = .next s') : Keeps ps s0 s' := by
  unfold execPlanLoadCheck at e
  refine Keeps.next ?_ e
  split
  · refine Keeps.ite ?_ ?_
    · refine planLoadCheck_keeps hl ?_
      exact hs
    · exact hs
  · exact hs

theorem admitUnload_keeps {x : Desc} (hl : Parts.le [.plans] ps = true) {s : State} (hs : Keeps ps s0 s) : Keeps ps s0
    (admitUnload x s) := by
  unfold admitUnload
  extract_lets +onlyGivenNames x1
  clear_value x1
  split
  · refine Keeps.ite ?_ ?_
    · refine State.modPlan_keeps hl ?_
      exact hs
    · exact hs
  · exact hs

theorem startUnload_keeps {seq : ℕ}
    (hl : Parts.le [.descs, .hostMem, .mem, .reports, .acct, .free, .regs, .bad, .rings, .ctxs, .hub, .out] ps = true)
    {s : State} (hs : Keeps ps s0 s) : Keeps ps s0 (startUnload seq s) := by
  unfold startUnload
  split
  · exact hs
  · split
    · refine Keeps.ite ?_ ?_
      · refine State.markStarted_keeps (Parts.le_trans rfl hl) ?_
        exact hs
      · refine State.complete_keeps (Parts.le_trans rfl hl) ?_
        exact hs
    · refine State.complete_keeps (Parts.le_trans rfl hl) ?_
      exact hs

theorem execPlanUnload_keeps {r : RingId}
    (hl : Parts.le [.free, .mcs, .regs, .dies, .cores, .acct, .rings, .nextSeq, .descs, .arb, .hostMem, .mem,
      .reports, .bad, .ctxs, .hub, .out, .plans] ps = true) {s : State} (hs : Keeps ps s0 s) {s' : State}
    (e : execPlanUnload r s = .next s') : Keeps ps s0 s' := by
  unfold execPlanUnload at e
  refine Keeps.next ?_ e
  refine fetchThen_keeps (Parts.le_trans rfl hl) ?_ ?_ ?_
  · intro a1 t2 ht3
    refine admitUnload_keeps (Parts.le_trans rfl hl) ?_
    exact ht3
  · intro a4 t5 ht6
    refine startUnload_keeps (Parts.le_trans rfl hl) ?_
    exact ht6
  · exact hs

theorem planUnloadEffect_keeps {x : Desc}
    (hl : Parts.le [.hostMem, .mem, .reports, .acct, .free, .regs, .bad, .rings, .descs, .ctxs, .hub, .out, .cores,
      .chains, .plans] ps = true) {s : State} (hs : Keeps ps s0 s) : Keeps ps s0 (planUnloadEffect x s) := by
  unfold planUnloadEffect
  extract_lets +onlyGivenNames x1
  clear_value x1
  split
  · refine State.complete_keeps (Parts.le_trans rfl hl) ?_
    exact hs
  · refine Keeps.ite ?_ ?_
    · exact hs
    · refine Keeps.ite ?_ ?_
      · refine State.complete_keeps (Parts.le_trans rfl hl) ?_
        exact hs
      · refine Keeps.ite ?_ ?_
        · exact hs
        · refine State.complete_keeps (Parts.le_trans rfl hl) ?_
          refine State.closeChains_keeps (Parts.le_trans rfl hl) ?_
          refine State.dropPlan_keeps (Parts.le_trans rfl hl) ?_
          exact hs

theorem execPlanUnloadEffect_keeps {seq : ℕ}
    (hl : Parts.le [.hostMem, .mem, .reports, .acct, .free, .regs, .bad, .rings, .descs, .ctxs, .hub, .out, .cores,
      .chains, .plans] ps = true) {s : State} (hs : Keeps ps s0 s) {s' : State}
    (e : execPlanUnloadEffect seq s = .next s') : Keeps ps s0 s' := by
  unfold execPlanUnloadEffect at e
  refine Keeps.next ?_ e
  split
  · refine planUnloadEffect_keeps hl ?_
    exact hs
  · exact hs

/-! ### Clocks -/

theorem State.setFreq_keeps {d : Die} {x : Island} {f : ℕ}
    (hl : Parts.le [.trcTok, .free, .mem, .acct, .regs, .bad, .trcSeq, .trcDrop, .dies] ps = true) {s : State}
    (hs : Keeps ps s0 s) : Keeps ps s0 (State.setFreq s d x f) := by
  unfold State.setFreq
  refine State.traceRec_keeps (Parts.le_trans rfl hl) ?_
  refine State.modIsland_keeps (Parts.le_trans rfl hl) ?_
  exact hs

theorem setRail_keeps {d : Die} {g : Rail} (hl : Parts.le [.dies] ps = true) {s : State} (hs : Keeps ps s0 s) : Keeps
    ps s0 (setRail d s g) := by
  unfold setRail
  extract_lets +onlyGivenNames x1
  clear_value x1
  extract_lets +onlyGivenNames x2
  have hx2 : Keeps ps s0 x2 := by
    subst x2
    refine State.modDie_keeps hl ?_
    exact hs
  clear_value x2
  refine Keeps.foldl ?_ (fun t5 a3 ht4 => ?_)
  · exact hx2
  · refine State.modIsland_keeps hl ?_
    exact ht4

theorem setRails_keeps {d : Die} (hl : Parts.le [.dies] ps = true) {s : State} (hs : Keeps ps s0 s) : Keeps ps s0
    (setRails d s) := by
  unfold setRails
  refine Keeps.foldl ?_ (fun t3 a1 ht2 => ?_)
  · exact hs
  · refine setRail_keeps hl ?_
    exact ht2

theorem State.needStep_keeps {d : Die} {x : Island} {f : ℕ} (hl : Parts.le [.dies] ps = true) {s : State}
    (hs : Keeps ps s0 s) : Keeps ps s0 (State.needStep s d x f) := by
  unfold State.needStep
  refine setRails_keeps hl ?_
  refine State.modIsland_keeps hl ?_
  exact hs

theorem execIslandClockRaise_keeps {d : Die} {x : Island}
    (hl : Parts.le [.trcTok, .free, .mem, .acct, .regs, .bad, .trcSeq, .trcDrop, .dies] ps = true) {s : State}
    (hs : Keeps ps s0 s) {s' : State} (e : execIslandClockRaise d x s = .next s') : Keeps ps s0 s' := by
  unfold execIslandClockRaise at e
  refine Keeps.next ?_ e
  refine Keeps.ite ?_ ?_
  · refine State.setFreq_keeps hl ?_
    refine State.needStep_keeps (Parts.le_trans rfl hl) ?_
    exact hs
  · exact hs

theorem execIslandClockLower_keeps {d : Die} {x : Island}
    (hl : Parts.le [.trcTok, .free, .mem, .acct, .regs, .bad, .trcSeq, .trcDrop, .dies] ps = true) {s : State}
    (hs : Keeps ps s0 s) {s' : State} (e : execIslandClockLower d x s = .next s') : Keeps ps s0 s' := by
  unfold execIslandClockLower at e
  refine Keeps.next ?_ e
  refine Keeps.ite ?_ ?_
  · refine Keeps.ite ?_ ?_
    · refine State.setFreq_keeps hl ?_
      exact hs
    · refine State.needStep_keeps (Parts.le_trans rfl hl) ?_
      refine State.setFreq_keeps hl ?_
      exact hs
  · exact hs

theorem execTimingMonitor_keeps {d : Die} {need : List (Island × ℕ)} (hl : Parts.le [.dies] ps = true) {s : State}
    (hs : Keeps ps s0 s) {s' : State} (e : execTimingMonitor d need s = .next s') : Keeps ps s0 s' := by
  unfold execTimingMonitor at e
  refine Keeps.next ?_ e
  refine setRails_keeps hl ?_
  refine Keeps.foldl ?_ (fun t3 a1 ht2 => ?_)
  · exact hs
  · split
    refine State.modIsland_keeps hl ?_
    exact ht2

theorem execDroopStart_keeps {d : Die} {x : Island} {dropMv : ℕ} (hl : Parts.le [.regs, .dies] ps = true) {s : State}
    (hs : Keeps ps s0 s) {s' : State} (e : execDroopStart d x dropMv s = .next s') : Keeps ps s0 s' := by
  unfold execDroopStart at e
  refine Keeps.next ?_ e
  refine Keeps.ite ?_ ?_
  · refine State.bump_keeps (Parts.le_trans rfl hl) ?_
    refine State.modIsland_keeps (Parts.le_trans rfl hl) ?_
    exact hs
  · exact hs

theorem execDroopEnd_keeps {d : Die} {x : Island} {cycles : ℕ} {lastNs : ℕ} (hl : Parts.le [.regs, .dies] ps = true)
    {s : State} (hs : Keeps ps s0 s) {s' : State} (e : execDroopEnd d x cycles lastNs s = .next s') : Keeps ps s0 s'
    := by
  unfold execDroopEnd at e
  refine Keeps.next ?_ e
  refine Keeps.ite ?_ ?_
  · refine State.bump_keeps (Parts.le_trans rfl hl) ?_
    refine State.modIsland_keeps (Parts.le_trans rfl hl) ?_
    exact hs
  · exact hs

theorem inputCurrentStep_keeps {milliamp : ℕ} (hl : Parts.le [.regs, .hub] ps = true) {s : State} (hs : Keeps ps s0 s)
    : Keeps ps s0 (inputCurrentStep milliamp s) := by
  unfold inputCurrentStep
  extract_lets +onlyGivenNames x1
  clear_value x1
  extract_lets +onlyGivenNames x2
  clear_value x2
  extract_lets +onlyGivenNames x3
  clear_value x3
  extract_lets +onlyGivenNames x4
  clear_value x4
  extract_lets +onlyGivenNames x5
  have hx5 : Keeps ps s0 x5 := by
    subst x5
    refine Keeps.ite ?_ ?_
    · refine State.bumpSat_keeps (Parts.le_trans rfl hl) ?_
      exact hs
    · exact hs
  clear_value x5
  refine Keeps.upd [.hub] (Parts.le_trans rfl hl) rfl rfl ?_
  exact hx5

theorem execInputCurrentStep_keeps {milliamp : ℕ} (hl : Parts.le [.regs, .hub] ps = true) {s : State}
    (hs : Keeps ps s0 s) {s' : State} (e : execInputCurrentStep milliamp s = .next s') : Keeps ps s0 s' := by
  unfold execInputCurrentStep at e
  refine Keeps.next ?_ e
  refine inputCurrentStep_keeps hl ?_
  exact hs

theorem powerCapStep_keeps {watt : ℕ} (hl : Parts.le [.regs, .hub] ps = true) {s : State} (hs : Keeps ps s0 s) : Keeps
    ps s0 (powerCapStep watt s) := by
  unfold powerCapStep
  extract_lets +onlyGivenNames x1
  clear_value x1
  extract_lets +onlyGivenNames x2
  clear_value x2
  extract_lets +onlyGivenNames x3
  clear_value x3
  extract_lets +onlyGivenNames x4
  clear_value x4
  extract_lets +onlyGivenNames x5
  clear_value x5
  extract_lets +onlyGivenNames x6
  have hx6 : Keeps ps s0 x6 := by
    subst x6
    refine State.setReg_keeps (Parts.le_trans rfl hl) ?_
    exact hs
  clear_value x6
  extract_lets +onlyGivenNames x7
  have hx7 : Keeps ps s0 x7 := by
    subst x7
    refine Keeps.ite ?_ ?_
    · refine State.bumpSat_keeps (Parts.le_trans rfl hl) ?_
      exact hx6
    · exact hx6
  clear_value x7
  refine Keeps.upd [.hub] (Parts.le_trans rfl hl) rfl rfl ?_
  exact hx7

theorem execPowerCapStep_keeps {watt : ℕ} (hl : Parts.le [.regs, .hub] ps = true) {s : State} (hs : Keeps ps s0 s)
    {s' : State} (e : execPowerCapStep watt s = .next s') : Keeps ps s0 s' := by
  unfold execPowerCapStep at e
  refine Keeps.next ?_ e
  refine powerCapStep_keeps hl ?_
  exact hs

theorem State.settleCyc_keeps {d : Die} {c : RegId × ℕ} (hl : Parts.le [.regs, .free, .busyNs] ps = true) {s : State}
    (hs : Keeps ps s0 s) : Keeps ps s0 (State.settleCyc s d c) := by
  unfold State.settleCyc
  extract_lets +onlyGivenNames x1
  clear_value x1
  refine State.bump_keeps (Parts.le_trans rfl hl) ?_
  refine Keeps.upd [.free, .busyNs] (Parts.le_trans rfl hl) rfl rfl ?_
  exact hs

theorem islandHeat_keeps {d : Die} {x : Island} {t : ℤ} (hl : Parts.le [.regs, .dies] ps = true) {s : State}
    (hs : Keeps ps s0 s) : Keeps ps s0 (islandHeat d x t s) := by
  unfold islandHeat
  extract_lets +onlyGivenNames x1
  clear_value x1
  extract_lets +onlyGivenNames x2
  clear_value x2
  extract_lets +onlyGivenNames x3
  have hx3 : Keeps ps s0 x3 := by
    subst x3
    refine Keeps.ite ?_ ?_
    · refine State.bumpSat_keeps (Parts.le_trans rfl hl) ?_
      exact hs
    · exact hs
  clear_value x3
  refine State.modIsland_keeps (Parts.le_trans rfl hl) ?_
  exact hx3

theorem thermalReport_keeps {d : Die} {temps : List (Island × ℤ)} {hbmTemps : List (Mc × ℤ)}
    (hl : Parts.le [.regs, .dies, .mcs, .boot] ps = true) {s : State} (hs : Keeps ps s0 s) : Keeps ps s0
    (thermalReport d temps hbmTemps s) := by
  unfold thermalReport
  extract_lets +onlyGivenNames x1
  have hx1 : Keeps ps s0 x1 := by
    subst x1
    refine Keeps.foldl ?_ (fun t4 a2 ht3 => ?_)
    · exact hs
    · split
      refine islandHeat_keeps (Parts.le_trans rfl hl) ?_
      exact ht3
  clear_value x1
  extract_lets +onlyGivenNames x5
  have hx5 : Keeps ps s0 x5 := by
    subst x5
    refine Keeps.foldl ?_ (fun t8 a6 ht7 => ?_)
    · exact hx1
    · extract_lets +onlyGivenNames x9
      clear_value x9
      refine State.setReg_keeps (Parts.le_trans rfl hl) ?_
      exact ht7
  clear_value x5
  extract_lets +onlyGivenNames x10
  have hx10 : Keeps ps s0 x10 := by
    subst x10
    refine Keeps.foldl ?_ (fun t13 a11 ht12 => ?_)
    · exact hx5
    · split
      refine State.modMc_keeps (Parts.le_trans rfl hl) ?_
      exact ht12
  clear_value x10
  refine Keeps.upd [.boot] (Parts.le_trans rfl hl) rfl rfl ?_
  exact hx10

theorem thermalCapStep_keeps {d : Die} {x : Island} (hl : Parts.le [.dies] ps = true) {s : State} (hs : Keeps ps s0 s)
    : Keeps ps s0 (thermalCapStep d x s) := by
  unfold thermalCapStep
  extract_lets +onlyGivenNames x1
  clear_value x1
  extract_lets +onlyGivenNames x2
  clear_value x2
  refine Keeps.ite ?_ ?_
  · refine State.modIsland_keeps hl ?_
    exact hs
  · refine Keeps.ite ?_ ?_
    · refine State.modIsland_keeps hl ?_
      exact hs
    · exact hs

theorem execThermalCapStep_keeps {d : Die} {x : Island} (hl : Parts.le [.dies] ps = true) {s : State}
    (hs : Keeps ps s0 s) {s' : State} (e : execThermalCapStep d x s = .next s') : Keeps ps s0 s' := by
  unfold execThermalCapStep at e
  refine Keeps.next ?_ e
  refine thermalCapStep_keeps hl ?_
  exact hs

theorem moveStart_keeps {d : Die} {p : PCore} {q : PCore} (hl : Parts.le [.dies, .cores] ps = true) {s : State}
    (hs : Keeps ps s0 s) : Keeps ps s0 (moveStart d p q s) := by
  unfold moveStart
  refine State.modDie_keeps (Parts.le_trans rfl hl) ?_
  refine State.modCore_keeps (Parts.le_trans rfl hl) ?_
  exact hs

theorem execThermalMove_keeps {d : Die} {p : PCore} (hl : Parts.le [.dies, .cores] ps = true) {s : State}
    (hs : Keeps ps s0 s) {s' : State} (e : execThermalMove d p s = .next s') : Keeps ps s0 s' := by
  unfold execThermalMove at e
  refine Keeps.next ?_ e
  split
  · refine Keeps.ite ?_ ?_
    · refine moveStart_keeps hl ?_
      exact hs
    · exact hs
  · exact hs

/-! ### Sched -/

theorem refuseDispatch_keeps {x : Desc} {e : Byte × ℕ} {late : Bool}
    (hl : Parts.le [.hostMem, .mem, .reports, .acct, .free, .regs, .bad, .rings, .descs, .ctxs, .hub, .out] ps = true)
    {s : State} (hs : Keeps ps s0 s) : Keeps ps s0 (refuseDispatch x e late s) := by
  unfold refuseDispatch
  refine State.complete_keeps hl ?_
  refine Keeps.ite ?_ ?_
  · refine State.bump_keeps (Parts.le_trans rfl hl) ?_
    exact hs
  · exact hs

theorem decideDispatch_keeps {x : Desc}
    (hl : Parts.le [.hostMem, .mem, .reports, .acct, .free, .regs, .bad, .rings, .descs, .ctxs, .hub, .out, .disps]
      ps = true) {s : State} (hs : Keeps ps s0 s) : Keeps ps s0 (decideDispatch x s) := by
  unfold decideDispatch
  split
  · refine refuseDispatch_keeps (Parts.le_trans rfl hl) ?_
    exact hs
  · split
    · refine refuseDispatch_keeps (Parts.le_trans rfl hl) ?_
      exact hs
    · split
      · refine refuseDispatch_keeps (Parts.le_trans rfl hl) ?_
        exact hs
      · extract_lets +onlyGivenNames x1
        have hx1 : Keeps ps s0 x1 := by
          subst x1
          refine State.markStarted_keeps (Parts.le_trans rfl hl) ?_
          exact hs
        clear_value x1
        refine Keeps.upd [.disps] (Parts.le_trans rfl hl) rfl rfl ?_
        exact hx1

theorem startDispatch_keeps {seq : ℕ}
    (hl : Parts.le [.descs, .hostMem, .mem, .reports, .acct, .free, .regs, .bad, .rings, .ctxs, .hub, .out, .disps]
      ps = true) {s : State} (hs : Keeps ps s0 s) : Keeps ps s0 (startDispatch seq s) := by
  unfold startDispatch
  split
  · exact hs
  · refine Keeps.ite ?_ ?_
    · refine State.modDesc_keeps _ _ (Parts.le_trans rfl hl) ?_
      exact hs
    · refine decideDispatch_keeps (Parts.le_trans rfl hl) ?_
      exact hs

theorem releaseChains_keeps
    (hl : Parts.le [.descs, .hostMem, .mem, .reports, .acct, .free, .regs, .bad, .rings, .ctxs, .hub, .out, .disps]
      ps = true) {s : State} (hs : Keeps ps s0 s) : Keeps ps s0 (releaseChains s) := by
  unfold releaseChains
  refine Keeps.foldl ?_ (fun t3 a1 ht2 => ?_)
  · exact hs
  · refine startDispatch_keeps hl ?_
    exact ht2

theorem admitDispatch_keeps {x : Desc}
    (hl : Parts.le [.descs, .reports, .free, .mcs, .regs, .dies, .cores, .acct] ps = true) {s : State}
    (hs : Keeps ps s0 s) : Keeps ps s0 (admitDispatch x s) := by
  unfold admitDispatch
  extract_lets +onlyGivenNames x1
  have hx1 : Keeps ps s0 x1 := by
    subst x1
    refine State.modDesc_keeps _ _ (Parts.le_trans rfl hl) ?_
    exact hs
  clear_value x1
  refine Keeps.ite ?_ ?_
  · extract_lets +onlyGivenNames x2
    clear_value x2
    split
    · refine State.modDesc_keeps _ _ (Parts.le_trans rfl hl) ?_
      refine State.raise_keeps (Parts.le_trans rfl hl) ?_
      exact hx1
    · refine State.jobRead_keeps (Parts.le_trans rfl hl) ?_
      refine State.modDesc_keeps _ _ (Parts.le_trans rfl hl) ?_
      exact hx1
  · exact hx1

theorem execDispatch_keeps {r : RingId}
    (hl : Parts.le [.descs, .hostMem, .mem, .reports, .acct, .free, .regs, .bad, .rings, .ctxs, .hub, .out, .disps,
      .mcs, .dies, .cores, .nextSeq, .arb] ps = true) {s : State} (hs : Keeps ps s0 s) {s' : State}
    (e : execDispatch r s = .next s') : Keeps ps s0 s' := by
  unfold execDispatch at e
  refine Keeps.next ?_ e
  refine releaseChains_keeps (Parts.le_trans rfl hl) ?_
  refine fetchThen_keeps (Parts.le_trans rfl hl) ?_ ?_ ?_
  · intro a1 t2 ht3
    refine admitDispatch_keeps (Parts.le_trans rfl hl) ?_
    exact ht3
  · intro a4 t5 ht6
    split
    · refine Keeps.ite ?_ ?_
      · exact ht6
      · refine startDispatch_keeps (Parts.le_trans rfl hl) ?_
        exact ht6
    · exact ht6
  · exact hs

theorem readSection_keeps {y : Disp} {d : Die} {off : ℕ} {ce : List ℕ}
    (hl : Parts.le [.mcs, .regs, .dies, .cores, .acct, .reports] ps = true) {s : State} (hs : Keeps ps s0 s) : Keeps
    ps s0 (readSection y d off ce s) := by
  unfold readSection
  extract_lets +onlyGivenNames x1
  clear_value x1
  extract_lets +onlyGivenNames x2
  have hx2 : Keeps ps s0 x2 := by
    subst x2
    refine State.countCes_keeps (Parts.le_trans rfl hl) ?_
    refine State.chargeRuns_keeps (Parts.le_trans rfl hl) ?_
    refine State.countRuns_keeps (Parts.le_trans rfl hl) ?_
    exact hs
  clear_value x2
  split
  · refine State.raise_keeps (Parts.le_trans rfl hl) ?_
    exact hx2
  · exact hx2

theorem placeStream_keeps {y : Disp} {d : Die} {off : ℕ} {depth : ℕ} {k : ℕ} (hl : Parts.le [.cores] ps = true)
    {s : State} (hs : Keeps ps s0 s) : Keeps ps s0 (placeStream y d off depth k s) := by
  unfold placeStream
  split
  · exact hs
  · split
    · exact hs
    · extract_lets +onlyGivenNames x1
      clear_value x1
      extract_lets +onlyGivenNames x2
      clear_value x2
      extract_lets +onlyGivenNames x3
      clear_value x3
      extract_lets +onlyGivenNames x4
      clear_value x4
      extract_lets +onlyGivenNames x5
      clear_value x5
      extract_lets +onlyGivenNames x6
      clear_value x6
      refine State.modCore_keeps hl ?_
      exact hs

theorem State.setPlan_keeps {d : Die} {mhz : ℕ} (hl : Parts.le [.dies] ps = true) {s : State} (hs : Keeps ps s0 s) :
    Keeps ps s0 (State.setPlan s d mhz) := by
  unfold State.setPlan
  refine Keeps.foldl ?_ (fun t3 a1 ht2 => ?_)
  · exact hs
  · refine State.modIsland_keeps hl ?_
    exact ht2

theorem State.traceDisp_keeps {y : Disp} {kind : ℕ} {v : ℕ}
    (hl : Parts.le [.trcTok, .free, .mem, .acct, .regs, .bad, .trcSeq, .trcDrop] ps = true) {s : State}
    (hs : Keeps ps s0 s) : Keeps ps s0 (State.traceDisp s y kind v) := by
  unfold State.traceDisp
  refine Keeps.foldl ?_ (fun t3 a1 ht2 => ?_)
  · exact hs
  · refine State.traceRec_keeps hl ?_
    exact ht2

theorem startDie_keeps {y : Disp} {d : Die} (hl : Parts.le [.dies] ps = true) {s : State} (hs : Keeps ps s0 s) : Keeps
    ps s0 (startDie y d s) := by
  unfold startDie
  extract_lets +onlyGivenNames x1
  clear_value x1
  extract_lets +onlyGivenNames x2
  clear_value x2
  refine State.modDie_keeps hl ?_
  exact hs

theorem holdDies_keeps {y : Disp} (hl : Parts.le [.dies] ps = true) {s : State} (hs : Keeps ps s0 s) : Keeps ps s0
    (holdDies y s) := by
  unfold holdDies
  refine Keeps.foldl ?_ (fun t3 a1 ht2 => ?_)
  · exact hs
  · refine State.setPlan_keeps hl ?_
    refine State.modDie_keeps hl ?_
    exact ht2

theorem beginDispatch_keeps {y : Disp} {ce : List ℕ}
    (hl : Parts.le [.dies, .mcs, .regs, .cores, .acct, .reports, .chains, .trcTok, .free, .mem, .bad, .trcSeq,
      .trcDrop] ps = true) {s : State} (hs : Keeps ps s0 s) : Keeps ps s0 (beginDispatch y ce s) := by
  unfold beginDispatch
  extract_lets +onlyGivenNames x1
  clear_value x1
  extract_lets +onlyGivenNames x2
  have hx2 : Keeps ps s0 x2 := by
    subst x2
    refine Keeps.foldl ?_ (fun t5 a3 ht4 => ?_)
    · exact hs
    · refine startDie_keeps (Parts.le_trans rfl hl) ?_
      exact ht4
  clear_value x2
  extract_lets +onlyGivenNames x6
  have hx6 : Keeps ps s0 x6 := by
    subst x6
    refine holdDies_keeps (Parts.le_trans rfl hl) ?_
    exact hx2
  clear_value x6
  extract_lets +onlyGivenNames x7
  have hx7 : Keeps ps s0 x7 := by
    subst x7
    refine Keeps.foldl ?_ (fun t10 a8 ht9 => ?_)
    · exact hx6
    · split
      refine readSection_keeps (Parts.le_trans rfl hl) ?_
      exact ht9
  clear_value x7
  extract_lets +onlyGivenNames x11
  have hx11 : Keeps ps s0 x11 := by
    subst x11
    refine Keeps.foldl ?_ (fun t14 a12 ht13 => ?_)
    · exact hx7
    · split
      refine Keeps.foldl ?_ (fun t17 a15 ht16 => ?_)
      · exact ht13
      · refine placeStream_keeps (Parts.le_trans rfl hl) ?_
        exact ht16
  clear_value x11
  extract_lets +onlyGivenNames x18
  have hx18 : Keeps ps s0 x18 := by
    subst x18
    refine Keeps.ite ?_ ?_
    · refine Keeps.upd [.chains] (Parts.le_trans rfl hl) rfl rfl ?_
      exact hx11
    · exact hx11
  clear_value x18
  refine State.traceDisp_keeps (Parts.le_trans rfl hl) ?_
  exact hx18

theorem resumeDispatch_keeps {y : Disp}
    (hl : Parts.le [.dies, .cores, .trcTok, .free, .mem, .acct, .regs, .bad, .trcSeq, .trcDrop, .disps] ps = true)
    {s : State} (hs : Keeps ps s0 s) : Keeps ps s0 (resumeDispatch y s) := by
  unfold resumeDispatch
  extract_lets +onlyGivenNames x1
  have hx1 : Keeps ps s0 x1 := by
    subst x1
    refine Keeps.foldl ?_ (fun t4 a2 ht3 => ?_)
    · exact hs
    · refine State.modDie_keeps (Parts.le_trans rfl hl) ?_
      exact ht3
  clear_value x1
  extract_lets +onlyGivenNames x5
  have hx5 : Keeps ps s0 x5 := by
    subst x5
    refine holdDies_keeps (Parts.le_trans rfl hl) ?_
    exact hx1
  clear_value x5
  extract_lets +onlyGivenNames x6
  have hx6 : Keeps ps s0 x6 := by
    subst x6
    refine Keeps.foldl ?_ (fun t9 a7 ht8 => ?_)
    · exact hx5
    · split
      refine Keeps.dite (fun c10 => ?_) (fun c11 => ?_)
      · extract_lets +onlyGivenNames x12
        clear_value x12
        split
        · refine State.modCore_keeps (Parts.le_trans rfl hl) ?_
          exact ht8
        · exact ht8
      · exact ht8
  clear_value x6
  refine State.traceDisp_keeps (Parts.le_trans rfl hl) ?_
  refine State.modDisp_keeps (Parts.le_trans rfl hl) ?_
  exact hx6

theorem goDispatch_keeps {y : Disp} {ce : List ℕ}
    (hl : Parts.le [.dies, .cores, .trcTok, .free, .mem, .acct, .regs, .bad, .trcSeq, .trcDrop, .disps, .mcs,
      .reports, .chains, .arb] ps = true) {s : State} (hs : Keeps ps s0 s) : Keeps ps s0 (goDispatch y ce s) := by
  unfold goDispatch
  extract_lets +onlyGivenNames x1
  have hx1 : Keeps ps s0 x1 := by
    subst x1
    refine Keeps.ite ?_ ?_
    · refine resumeDispatch_keeps (Parts.le_trans rfl hl) ?_
      exact hs
    · refine beginDispatch_keeps (Parts.le_trans rfl hl) ?_
      exact hs
  clear_value x1
  extract_lets +onlyGivenNames x2
  have hx2 : Keeps ps s0 x2 := by
    subst x2
    refine State.modDisp_keeps (Parts.le_trans rfl hl) ?_
    exact hx1
  clear_value x2
  refine Keeps.ite ?_ ?_
  · refine Keeps.upd [.arb] (Parts.le_trans rfl hl) rfl rfl ?_
    exact hx2
  · exact hx2

theorem parkDie_keeps {y : Disp} {d : Die} (hl : Parts.le [.cores, .disps, .dies] ps = true) {s : State}
    (hs : Keeps ps s0 s) : Keeps ps s0 (parkDie y d s) := by
  unfold parkDie
  extract_lets +onlyGivenNames x1
  have hx1 : Keeps ps s0 x1 := by
    subst x1
    refine Keeps.foldl ?_ (fun t4 a2 ht3 => ?_)
    · exact hs
    · split
      · exact ht3
      · extract_lets +onlyGivenNames x5
        clear_value x5
        refine Keeps.ite ?_ ?_
        · exact ht3
        · refine State.modCore_keeps (Parts.le_trans rfl hl) ?_
          refine State.modDisp_keeps (Parts.le_trans rfl hl) ?_
          exact ht3
  clear_value x1
  refine State.modDie_keeps (Parts.le_trans rfl hl) ?_
  refine State.modDisp_keeps (Parts.le_trans rfl hl) ?_
  exact hx1

theorem State.stopDma_keeps {n : CtxId} (hl : Parts.le [.dmaq] ps = true) {s : State} (hs : Keeps ps s0 s) : Keeps ps
    s0 (State.stopDma s n) := by
  unfold State.stopDma
  refine Keeps.ite ?_ ?_
  · exact hs
  · refine Keeps.foldl ?_ (fun t3 a1 ht2 => ?_)
    · exact hs
    · split
      · refine Keeps.ite ?_ ?_
        · refine State.setDq_keeps hl ?_
          exact ht2
        · exact ht2
      · exact ht2

theorem preemptDisp_keeps {y : Disp}
    (hl : Parts.le [.dmaq, .trcTok, .free, .mem, .acct, .regs, .bad, .trcSeq, .trcDrop, .disps] ps = true) {s : State}
    (hs : Keeps ps s0 s) : Keeps ps s0 (preemptDisp y s) := by
  unfold preemptDisp
  extract_lets +onlyGivenNames x1
  have hx1 : Keeps ps s0 x1 := by
    subst x1
    refine Keeps.ite ?_ ?_
    · exact hs
    · refine State.stopDma_keeps (Parts.le_trans rfl hl) ?_
      exact hs
  clear_value x1
  refine State.traceDisp_keeps (Parts.le_trans rfl hl) ?_
  refine State.modDisp_keeps (Parts.le_trans rfl hl) ?_
  exact hx1

theorem beginSwitch_keeps {y : Disp} {outs : List ℕ} (hl : Parts.le [.dmaq, .regs, .disps, .switches] ps = true)
    {s : State} (hs : Keeps ps s0 s) : Keeps ps s0 (beginSwitch y outs s) := by
  unfold beginSwitch
  extract_lets +onlyGivenNames x1
  have hx1 : Keeps ps s0 x1 := by
    subst x1
    refine Keeps.foldl ?_ (fun t4 a2 ht3 => ?_)
    · exact hs
    · refine State.stopDma_keeps (Parts.le_trans rfl hl) ?_
      exact ht3
  clear_value x1
  extract_lets +onlyGivenNames x5
  have hx5 : Keeps ps s0 x5 := by
    subst x5
    refine State.modReg_keeps (Parts.le_trans rfl hl) ?_
    exact hx1
  clear_value x5
  extract_lets +onlyGivenNames x6
  have hx6 : Keeps ps s0 x6 := by
    subst x6
    refine State.modDisp_keeps (Parts.le_trans rfl hl) ?_
    exact hx5
  clear_value x6
  refine Keeps.upd [.switches] (Parts.le_trans rfl hl) rfl rfl ?_
  exact hx6

theorem preemption_keeps {x : Disp}
    (hl : Parts.le [.dmaq, .trcTok, .free, .mem, .acct, .regs, .bad, .trcSeq, .trcDrop, .disps, .switches] ps = true)
    {s : State} (hs : Keeps ps s0 s) : Keeps ps s0 (preemption x s) := by
  unfold preemption
  extract_lets +onlyGivenNames x1
  clear_value x1
  extract_lets +onlyGivenNames x2
  clear_value x2
  extract_lets +onlyGivenNames x3
  clear_value x3
  extract_lets +onlyGivenNames x4
  have hx4 : Keeps ps s0 x4 := by
    subst x4
    refine Keeps.foldl ?_ (fun t7 a5 ht6 => ?_)
    · exact hs
    · refine preemptDisp_keeps (Parts.le_trans rfl hl) ?_
      exact ht6
  clear_value x4
  refine Keeps.ite ?_ ?_
  · refine beginSwitch_keeps (Parts.le_trans rfl hl) ?_
    exact hx4
  · exact hx4

theorem execPreemption_keeps {seq : ℕ}
    (hl : Parts.le [.dmaq, .trcTok, .free, .mem, .acct, .regs, .bad, .trcSeq, .trcDrop, .disps, .switches] ps = true)
    {s : State} (hs : Keeps ps s0 s) {s' : State} (e : execPreemption seq s = .next s') : Keeps ps s0 s' := by
  unfold execPreemption at e
  refine Keeps.next ?_ e
  split
  · refine Keeps.ite ?_ ?_
    · refine preemption_keeps hl ?_
      exact hs
    · exact hs
  · exact hs

theorem parkOthers_keeps {y : Disp} (hl : Parts.le [.cores, .disps, .dies] ps = true) {s : State} (hs : Keeps ps s0 s)
    : Keeps ps s0 (parkOthers y s) := by
  unfold parkOthers
  refine Keeps.foldl ?_ (fun t3 a1 ht2 => ?_)
  · exact hs
  · split
    · split
      · refine Keeps.ite ?_ ?_
        · refine parkDie_keeps hl ?_
          exact ht2
        · exact ht2
      · exact ht2
    · exact ht2

theorem takeDies_keeps {y : Disp} {ce : List ℕ}
    (hl : Parts.le [.dmaq, .regs, .disps, .switches, .cores, .dies, .trcTok, .free, .mem, .acct, .bad, .trcSeq,
      .trcDrop, .mcs, .reports, .chains, .arb] ps = true) {s : State} (hs : Keeps ps s0 s) : Keeps ps s0
    (takeDies y ce s) := by
  unfold takeDies
  refine Keeps.ite ?_ ?_
  · refine beginSwitch_keeps (Parts.le_trans rfl hl) ?_
    exact hs
  · extract_lets +onlyGivenNames x1
    have hx1 : Keeps ps s0 x1 := by
      subst x1
      refine parkOthers_keeps (Parts.le_trans rfl hl) ?_
      exact hs
    clear_value x1
    split
    · refine goDispatch_keeps (Parts.le_trans rfl hl) ?_
      exact hx1
    · exact hx1

theorem execDispatchStart_keeps {seq : ℕ} {ce : List ℕ}
    (hl : Parts.le [.dmaq, .regs, .disps, .switches, .cores, .dies, .trcTok, .free, .mem, .acct, .bad, .trcSeq,
      .trcDrop, .mcs, .reports, .chains, .arb] ps = true) {s : State} (hs : Keeps ps s0 s) {s' : State}
    (e : execDispatchStart seq s ce = .next s') : Keeps ps s0 s' := by
  unfold execDispatchStart at e
  refine Keeps.next ?_ e
  split
  · refine Keeps.ite ?_ ?_
    · refine takeDies_keeps hl ?_
      exact hs
    · exact hs
  · exact hs

theorem execDispatchResume_keeps {seq : ℕ}
    (hl : Parts.le [.dmaq, .regs, .disps, .switches, .cores, .dies, .trcTok, .free, .mem, .acct, .bad, .trcSeq,
      .trcDrop, .mcs, .reports, .chains, .arb] ps = true) {s : State} (hs : Keeps ps s0 s) {s' : State}
    (e : execDispatchResume seq s = .next s') : Keeps ps s0 s' := by
  unfold execDispatchResume at e
  refine Keeps.next ?_ e
  split
  · refine Keeps.ite ?_ ?_
    · refine takeDies_keeps hl ?_
      exact hs
    · exact hs
  · exact hs

theorem State.copyBytes_keeps {src : ℕ} {dst : ℕ} {len : ℕ} (hl : Parts.le [.mem] ps = true) {s : State}
    (hs : Keeps ps s0 s) : Keeps ps s0 (State.copyBytes s src dst len) := by
  unfold State.copyBytes
  refine Keeps.foldl ?_ (fun t3 a1 ht2 => ?_)
  · exact hs
  · refine State.devWrite_keeps _ _ hl ?_
    exact ht2

theorem State.savedRange_keeps {n : CtxId} {d : Die} {a : ℕ} {len : ℕ} (hl : Parts.le [.acct, .regs, .bad] ps = true)
    {s : State} (hs : Keeps ps s0 s) : Keeps ps s0 (State.savedRange s n d a len) := by
  unfold State.savedRange
  refine State.chargeBytes_keeps (Parts.le_trans rfl hl) ?_
  refine State.countBytes_keeps (Parts.le_trans rfl hl) ?_
  refine State.clearBad_keeps (Parts.le_trans rfl hl) ?_
  exact hs

theorem State.moveFault_keeps {n : CtxId} {d : Die} {a : Option ℕ} (hl : Parts.le [.reports] ps = true) {s : State}
    (hs : Keeps ps s0 s) : Keeps ps s0 (State.moveFault s n d a) := by
  unfold State.moveFault
  split
  · refine State.raise_keeps hl ?_
    exact hs
  · exact hs

theorem writePart_keeps {n : CtxId} {d : Die} (hl : Parts.le [.mem, .acct, .regs, .free, .hostMem, .bad] ps = true)
    {s : State} (hs : Keeps ps s0 s) : Keeps ps s0 (writePart n d s) := by
  unfold writePart
  extract_lets +onlyGivenNames x1
  clear_value x1
  extract_lets +onlyGivenNames x2
  have hx2 : Keeps ps s0 x2 := by
    subst x2
    refine Keeps.foldl ?_ (fun t5 a3 ht4 => ?_)
    · exact hs
    · split
      · refine State.copyBytes_keeps (Parts.le_trans rfl hl) ?_
        exact ht4
      · exact ht4
  clear_value x2
  split
  extract_lets +onlyGivenNames x6
  have hx6 : Keeps ps s0 x6 := by
    subst x6
    refine State.countBytes_keeps (Parts.le_trans rfl hl) ?_
    refine State.copyBytes_keeps (Parts.le_trans rfl hl) ?_
    exact hx2
  clear_value x6
  extract_lets +onlyGivenNames x7
  have hx7 : Keeps ps s0 x7 := by
    subst x7
    refine State.devWrite_keeps _ _ (Parts.le_trans rfl hl) ?_
    exact hx6
  clear_value x7
  extract_lets +onlyGivenNames x8
  have hx8 : Keeps ps s0 x8 := by
    subst x8
    refine State.scramble_keeps (Parts.le_trans rfl hl) ?_
    exact hx7
  clear_value x8
  refine State.savedRange_keeps (Parts.le_trans rfl hl) ?_
  refine State.savedRange_keeps (Parts.le_trans rfl hl) ?_
  refine State.savedRange_keeps (Parts.le_trans rfl hl) ?_
  exact hx8

theorem saveDie_keeps {n : CtxId} {d : Die} {ce : List ℕ}
    (hl : Parts.le [.mcs, .regs, .dies, .cores, .reports, .ctxs, .mem, .acct, .free, .hostMem, .bad] ps = true)
    {s : State} (hs : Keeps ps s0 s) : Keeps ps s0 (saveDie n d ce s) := by
  unfold saveDie
  split
  extract_lets +onlyGivenNames x1
  have hx1 : Keeps ps s0 x1 := by
    subst x1
    refine State.readCe_keeps (Parts.le_trans rfl hl) ?_
    exact hs
  clear_value x1
  extract_lets +onlyGivenNames x2
  have hx2 : Keeps ps s0 x2 := by
    subst x2
    refine State.moveFault_keeps (Parts.le_trans rfl hl) ?_
    exact hx1
  clear_value x2
  extract_lets +onlyGivenNames x3
  have hx3 : Keeps ps s0 x3 := by
    subst x3
    refine State.keepPart_keeps (Parts.le_trans rfl hl) ?_
    refine writePart_keeps (Parts.le_trans rfl hl) ?_
    exact hx2
  clear_value x3
  refine State.modCtx_keeps (Parts.le_trans rfl hl) ?_
  exact hx3

theorem restorePos_keeps {n : CtxId} {d : Die} (hl : Parts.le [.free, .disps, .ctxs] ps = true) {s : State}
    (hs : Keeps ps s0 s) : Keeps ps s0 (restorePos n d s) := by
  unfold restorePos
  extract_lets +onlyGivenNames x1
  have hx1 : Keeps ps s0 x1 := by
    subst x1
    refine Keeps.foldl ?_ (fun t4 a2 ht3 => ?_)
    · exact hs
    · refine Keeps.foldl ?_ (fun t7 a5 ht6 => ?_)
      · exact ht3
      · split
        rename_i y8 y9 y10 y11
        have hy10 : Keeps ps s0 y10 := by
          refine Keeps.ofEqR y11 ?_
          refine State.freeSome_keeps (Parts.le_trans rfl hl) ?_
          exact ht6
        refine State.modDisp_keeps (Parts.le_trans rfl hl) ?_
        exact hy10
  clear_value x1
  refine Keeps.foldl ?_ (fun t14 a12 ht13 => ?_)
  · exact hx1
  · split
    rename_i y15 y16 y17 y18
    have hy17 : Keeps ps s0 y17 := by
      refine Keeps.ofEqR y18 ?_
      refine State.freeSome_keeps (Parts.le_trans rfl hl) ?_
      exact ht13
    refine State.modCtx_keeps (Parts.le_trans rfl hl) ?_
    exact hy17

theorem restoreLost_keeps {n : CtxId} {d : Die}
    (hl : Parts.le [.free, .disps, .ctxs, .cores, .hostMem, .mem] ps = true) {s : State} (hs : Keeps ps s0 s) : Keeps
    ps s0 (restoreLost n d s) := by
  unfold restoreLost
  extract_lets +onlyGivenNames x1
  have hx1 : Keeps ps s0 x1 := by
    subst x1
    refine restorePos_keeps (Parts.le_trans rfl hl) ?_
    exact hs
  clear_value x1
  extract_lets +onlyGivenNames x2
  have hx2 : Keeps ps s0 x2 := by
    subst x2
    refine Keeps.foldl ?_ (fun t5 a3 ht4 => ?_)
    · exact hx1
    · split
      · split
        rename_i y6 y7 y8 y9
        have hy8 : Keeps ps s0 y8 := by
          refine Keeps.ofEqR y9 ?_
          refine State.freeBits_keeps (Parts.le_trans rfl hl) ?_
          exact ht4
        refine State.modCore_keeps (Parts.le_trans rfl hl) ?_
        refine State.scramble_keeps (Parts.le_trans rfl hl) ?_
        exact hy8
      · exact ht4
  clear_value x2
  extract_lets +onlyGivenNames x10
  have hx10 : Keeps ps s0 x10 := by
    subst x10
    refine Keeps.foldl ?_ (fun t13 a11 ht12 => ?_)
    · exact hx2
    · split
      rename_i y14 y15 y16 y17
      have hy16 : Keeps ps s0 y16 := by
        refine Keeps.ofEqR y17 ?_
        refine State.freeBits_keeps (Parts.le_trans rfl hl) ?_
        exact ht12
      refine State.setSem_keeps (Parts.le_trans rfl hl) ?_
      exact hy16
  clear_value x10
  refine Keeps.foldl ?_ (fun t20 a18 ht19 => ?_)
  · exact hx10
  · split
    rename_i y21 y22 y23 y24
    have hy23 : Keeps ps s0 y23 := by
      refine Keeps.ofEqR y24 ?_
      refine State.freeBits_keeps (Parts.le_trans rfl hl) ?_
      exact ht19
    refine State.setStall_keeps (Parts.le_trans rfl hl) ?_
    exact hy23

theorem readPart_keeps {n : CtxId} {d : Die} (hl : Parts.le [.cores, .mem, .ctxs] ps = true) {s : State}
    (hs : Keeps ps s0 s) : Keeps ps s0 (readPart n d s) := by
  unfold readPart
  extract_lets +onlyGivenNames x1
  clear_value x1
  extract_lets +onlyGivenNames x2
  clear_value x2
  extract_lets +onlyGivenNames x3
  have hx3 : Keeps ps s0 x3 := by
    subst x3
    refine Keeps.foldl ?_ (fun t6 a4 ht5 => ?_)
    · exact hs
    · split
      · refine State.modCore_keeps (Parts.le_trans rfl hl) ?_
        refine State.copyBytes_keeps (Parts.le_trans rfl hl) ?_
        exact ht5
      · exact ht5
  clear_value x3
  refine Keeps.foldl ?_ (fun t9 a7 ht8 => ?_)
  · exact hx3
  · extract_lets +onlyGivenNames x10
    have hx10 : Keeps ps s0 x10 := by
      subst x10
      refine State.setStall_keeps (Parts.le_trans rfl hl) ?_
      exact ht8
    clear_value x10
    refine Keeps.ite ?_ ?_
    · exact hx10
    · refine State.setSem_keeps (Parts.le_trans rfl hl) ?_
      exact hx10

theorem restoreDie_keeps {n : CtxId} {d : Die} {ce : List ℕ}
    (hl : Parts.le [.mcs, .regs, .dies, .cores, .acct, .reports, .ctxs, .mem, .free, .disps, .hostMem] ps = true)
    {s : State} (hs : Keeps ps s0 s) : Keeps ps s0 (restoreDie n d ce s) := by
  unfold restoreDie
  extract_lets +onlyGivenNames x1
  clear_value x1
  extract_lets +onlyGivenNames x2
  clear_value x2
  extract_lets +onlyGivenNames x3
  clear_value x3
  extract_lets +onlyGivenNames x4
  have hx4 : Keeps ps s0 x4 := by
    subst x4
    refine State.countCes_keeps (Parts.le_trans rfl hl) ?_
    refine State.chargeRuns_keeps (Parts.le_trans rfl hl) ?_
    refine State.countRuns_keeps (Parts.le_trans rfl hl) ?_
    exact hs
  clear_value x4
  extract_lets +onlyGivenNames x5
  have hx5 : Keeps ps s0 x5 := by
    subst x5
    refine State.moveFault_keeps (Parts.le_trans rfl hl) ?_
    exact hx4
  clear_value x5
  extract_lets +onlyGivenNames x6
  have hx6 : Keeps ps s0 x6 := by
    subst x6
    refine State.modCtx_keeps (Parts.le_trans rfl hl) ?_
    exact hx5
  clear_value x6
  extract_lets +onlyGivenNames x7
  have hx7 : Keeps ps s0 x7 := by
    subst x7
    refine Keeps.ite ?_ ?_
    · refine readPart_keeps (Parts.le_trans rfl hl) ?_
      exact hx6
    · refine restoreLost_keeps (Parts.le_trans rfl hl) ?_
      exact hx6
  clear_value x7
  extract_lets +onlyGivenNames x8
  have hx8 : Keeps ps s0 x8 := by
    subst x8
    refine State.modCtx_keeps (Parts.le_trans rfl hl) ?_
    exact hx7
  clear_value x8
  refine Keeps.foldl ?_ (fun t11 a9 ht10 => ?_)
  · exact hx8
  · refine State.modCore_keeps (Parts.le_trans rfl hl) ?_
    exact ht10

theorem zeroDie_keeps {d : Die} (hl : Parts.le [.cores, .mem] ps = true) {s : State} (hs : Keeps ps s0 s) : Keeps ps
    s0 (zeroDie d s) := by
  unfold zeroDie
  refine Keeps.foldl ?_ (fun t3 a1 ht2 => ?_)
  · exact hs
  · refine State.modCore_keeps (Parts.le_trans rfl hl) ?_
    refine State.clearRange_keeps (Parts.le_trans rfl hl) ?_
    exact ht2

theorem switchEffect_keeps {w : Switch} {y : Disp} {ce : List ℕ}
    (hl : Parts.le [.cores, .disps, .dies, .mcs, .regs, .reports, .ctxs, .mem, .acct, .free, .hostMem, .bad, .trcTok,
      .trcSeq, .trcDrop, .chains, .arb] ps = true) {s : State} (hs : Keeps ps s0 s) : Keeps ps s0
    (switchEffect w y ce s) := by
  unfold switchEffect
  refine Keeps.ite ?_ ?_
  · refine Keeps.foldl ?_ (fun t3 a1 ht2 => ?_)
    · exact hs
    · split
      · split
        · refine parkDie_keeps (Parts.le_trans rfl hl) ?_
          exact ht2
        · exact ht2
      · exact ht2
  · refine Keeps.ite ?_ ?_
    · refine Keeps.foldl ?_ (fun t6 a4 ht5 => ?_)
      · exact hs
      · split
        refine Keeps.ite ?_ ?_
        · refine saveDie_keeps (Parts.le_trans rfl hl) ?_
          exact ht5
        · exact ht5
    · refine Keeps.ite ?_ ?_
      · refine Keeps.foldl ?_ (fun t9 a7 ht8 => ?_)
        · exact hs
        · extract_lets +onlyGivenNames x10
          have hx10 : Keeps ps s0 x10 := by
            subst x10
            refine Keeps.ite ?_ ?_
            · refine restoreDie_keeps (Parts.le_trans rfl hl) ?_
              exact ht8
            · refine Keeps.ite ?_ ?_
              · refine zeroDie_keeps (Parts.le_trans rfl hl) ?_
                exact ht8
              · exact ht8
          clear_value x10
          refine State.modDie_keeps (Parts.le_trans rfl hl) ?_
          exact hx10
      · refine goDispatch_keeps (Parts.le_trans rfl hl) ?_
        exact hs

theorem traceSwitch_keeps {w : Switch} {y : Disp} {outs : List (Die × CtxId)}
    (hl : Parts.le [.trcTok, .free, .mem, .acct, .regs, .bad, .trcSeq, .trcDrop] ps = true) {s : State}
    (hs : Keeps ps s0 s) : Keeps ps s0 (traceSwitch w y outs s) := by
  unfold traceSwitch
  refine Keeps.foldl ?_ (fun t3 a1 ht2 => ?_)
  · exact hs
  · extract_lets +onlyGivenNames x4
    clear_value x4
    refine State.traceRec_keeps hl ?_
    exact ht2

theorem switchStepDone_keeps {w : Switch} {y : Disp} {ce : List ℕ}
    (hl : Parts.le [.trcTok, .free, .mem, .acct, .regs, .bad, .trcSeq, .trcDrop, .cores, .disps, .dies, .mcs,
      .reports, .ctxs, .hostMem, .chains, .arb, .switches] ps = true) {s : State} (hs : Keeps ps s0 s) : Keeps ps s0
    (switchStepDone w y ce s) := by
  unfold switchStepDone
  extract_lets +onlyGivenNames x1
  have hx1 : Keeps ps s0 x1 := by
    subst x1
    refine traceSwitch_keeps (Parts.le_trans rfl hl) ?_
    refine switchEffect_keeps (Parts.le_trans rfl hl) ?_
    exact hs
  clear_value x1
  extract_lets +onlyGivenNames x2
  clear_value x2
  refine Keeps.upd [.switches] (Parts.le_trans rfl hl) rfl rfl ?_
  exact hx1

theorem execSwitchStepDone_keeps {seq : ℕ} {ce : List ℕ}
    (hl : Parts.le [.trcTok, .free, .mem, .acct, .regs, .bad, .trcSeq, .trcDrop, .cores, .disps, .dies, .mcs,
      .reports, .ctxs, .hostMem, .chains, .arb, .switches] ps = true) {s : State} (hs : Keeps ps s0 s) {s' : State}
    (e : execSwitchStepDone seq s ce = .next s') : Keeps ps s0 s' := by
  unfold execSwitchStepDone at e
  refine Keeps.next ?_ e
  split
  · refine Keeps.ite ?_ ?_
    · refine switchStepDone_keeps hl ?_
      exact hs
    · exact hs
  · exact hs

theorem State.settleCtr_keeps {c : Counters} (hl : Parts.le [.free] ps = true) {s : State} (hs : Keeps ps s0 s) :
    Keeps ps s0 (State.settleCtr s c).2 := by
  unfold State.settleCtr
  dsimp -zeta only
  refine Keeps.upd [.free] hl rfl rfl ?_
  exact hs

theorem writeSample_keeps {t : ℕ} {n : CtxId} {d : Die} {c : Counters} {final : Bool}
    (hl : Parts.le [.ctxs, .free, .mem, .acct, .regs, .bad] ps = true) {s : State} (hs : Keeps ps s0 s) : Keeps ps s0
    (writeSample t n d c final s) := by
  unfold writeSample
  extract_lets +onlyGivenNames x1
  clear_value x1
  extract_lets +onlyGivenNames x2
  clear_value x2
  extract_lets +onlyGivenNames x3
  clear_value x3
  extract_lets +onlyGivenNames x4
  clear_value x4
  extract_lets +onlyGivenNames x5
  clear_value x5
  refine State.modCtx_keeps (Parts.le_trans rfl hl) ?_
  refine State.putBytes_keeps (Parts.le_trans rfl hl) ?_
  exact hs

theorem writeDue_keeps {p : CtxId → Bool} {d : Die}
    (hl : Parts.le [.ctxs, .free, .mem, .acct, .regs, .bad, .dies] ps = true) {s : State} (hs : Keeps ps s0 s) : Keeps
    ps s0 (writeDue p d s) := by
  unfold writeDue
  extract_lets +onlyGivenNames x1
  clear_value x1
  extract_lets +onlyGivenNames x2
  have hx2 : Keeps ps s0 x2 := by
    subst x2
    refine Keeps.foldl ?_ (fun t5 a3 ht4 => ?_)
    · exact hs
    · refine writeSample_keeps (Parts.le_trans rfl hl) ?_
      exact ht4
  clear_value x2
  refine State.modDie_keeps (Parts.le_trans rfl hl) ?_
  exact hx2

theorem finalSample_keeps {n : CtxId} {d : Die}
    (hl : Parts.le [.ctxs, .free, .mem, .acct, .regs, .bad, .dies] ps = true) {s : State} (hs : Keeps ps s0 s) : Keeps
    ps s0 (finalSample n d s) := by
  unfold finalSample
  extract_lets +onlyGivenNames x1
  have hx1 : Keeps ps s0 x1 := by
    subst x1
    refine writeDue_keeps hl ?_
    exact hs
  clear_value x1
  split
  rename_i y2 y3 y4 y5
  have hy4 : Keeps ps s0 y4 := by
    refine Keeps.ofEqR y5 ?_
    refine State.settleCtr_keeps (Parts.le_trans rfl hl) ?_
    exact hx1
  refine State.modDie_keeps (Parts.le_trans rfl hl) ?_
  refine writeSample_keeps (Parts.le_trans rfl hl) ?_
  exact hy4

theorem dispatchComplete_keeps {y : Disp}
    (hl : Parts.le [.ctxs, .free, .mem, .acct, .regs, .bad, .dies, .chains, .trcTok, .trcSeq, .trcDrop, .disps,
      .descs, .hostMem, .reports, .rings, .hub, .out] ps = true) {s : State} (hs : Keeps ps s0 s) : Keeps ps s0
    (dispatchComplete y s) := by
  unfold dispatchComplete
  extract_lets +onlyGivenNames x1
  have hx1 : Keeps ps s0 x1 := by
    subst x1
    refine Keeps.foldl ?_ (fun t4 a2 ht3 => ?_)
    · exact hs
    · refine finalSample_keeps (Parts.le_trans rfl hl) ?_
      exact ht3
  clear_value x1
  extract_lets +onlyGivenNames x5
  have hx5 : Keeps ps s0 x5 := by
    subst x5
    refine Keeps.ite ?_ ?_
    · refine Keeps.upd [.chains] (Parts.le_trans rfl hl) rfl rfl ?_
      exact hx1
    · exact hx1
  clear_value x5
  extract_lets +onlyGivenNames x6
  clear_value x6
  extract_lets +onlyGivenNames x7
  have hx7 : Keeps ps s0 x7 := by
    subst x7
    refine Keeps.ite ?_ ?_
    · refine State.modReg_keeps (Parts.le_trans rfl hl) ?_
      exact hx5
    · exact hx5
  clear_value x7
  split
  extract_lets +onlyGivenNames x8
  have hx8 : Keeps ps s0 x8 := by
    subst x8
    refine State.traceDisp_keeps (Parts.le_trans rfl hl) ?_
    exact hx7
  clear_value x8
  extract_lets +onlyGivenNames x9
  have hx9 : Keeps ps s0 x9 := by
    subst x9
    refine Keeps.upd [.disps] (Parts.le_trans rfl hl) rfl rfl ?_
    exact hx8
  clear_value x9
  refine releaseChains_keeps (Parts.le_trans rfl hl) ?_
  refine State.complete_keeps (Parts.le_trans rfl hl) ?_
  exact hx9

theorem execDispatchComplete_keeps {seq : ℕ}
    (hl : Parts.le [.ctxs, .free, .mem, .acct, .regs, .bad, .dies, .chains, .trcTok, .trcSeq, .trcDrop, .disps,
      .descs, .hostMem, .reports, .rings, .hub, .out] ps = true) {s : State} (hs : Keeps ps s0 s) {s' : State}
    (e : execDispatchComplete seq s = .next s') : Keeps ps s0 s' := by
  unfold execDispatchComplete at e
  refine Keeps.next ?_ e
  split
  · refine Keeps.ite ?_ ?_
    · refine dispatchComplete_keeps hl ?_
      exact hs
    · exact hs
  · exact hs

theorem sampleDue_keeps {t : ℕ} {o : Option (CtxId × Counters)} {d : Die} (hl : Parts.le [.free, .dies] ps = true)
    {s : State} (hs : Keeps ps s0 s) : Keeps ps s0 (sampleDue t o d s) := by
  unfold sampleDue
  split
  · refine Keeps.ite ?_ ?_
    · split
      rename_i y1 y2 y3 y4
      have hy3 : Keeps ps s0 y3 := by
        refine Keeps.ofEqR y4 ?_
        refine State.settleCtr_keeps (Parts.le_trans rfl hl) ?_
        exact hs
      refine State.modDie_keeps (Parts.le_trans rfl hl) ?_
      exact hy3
    · exact hs
  · exact hs

theorem counterSample_keeps {n : CtxId} (hl : Parts.le [.ctxs, .free, .mem, .acct, .regs, .bad, .dies] ps = true)
    {s : State} (hs : Keeps ps s0 s) : Keeps ps s0 (counterSample n s) := by
  unfold counterSample
  refine Keeps.foldl ?_ (fun t3 a1 ht2 => ?_)
  · exact hs
  · refine writeDue_keeps hl ?_
    exact ht2

theorem execCounterSample_keeps {n : CtxId} (hl : Parts.le [.ctxs, .free, .mem, .acct, .regs, .bad, .dies] ps = true)
    {s : State} (hs : Keeps ps s0 s) {s' : State} (e : execCounterSample n s = .next s') : Keeps ps s0 s' := by
  unfold execCounterSample at e
  refine Keeps.next ?_ e
  refine counterSample_keeps hl ?_
  exact hs

/-! ### Dma -/

theorem assignParts_keeps {x : Desc} (hl : Parts.le [.dmaq] ps = true) {s : State} (hs : Keeps ps s0 s) : Keeps ps s0
    (assignParts x s) := by
  unfold assignParts
  refine Keeps.foldl ?_ (fun t3 a1 ht2 => ?_)
  · exact hs
  · split
    · refine Keeps.ite ?_ ?_
      · exact ht2
      · refine State.setDq_keeps hl ?_
        exact ht2
    · exact ht2

theorem startDma_keeps {seq : ℕ}
    (hl : Parts.le [.hostMem, .mem, .reports, .acct, .free, .regs, .bad, .rings, .descs, .ctxs, .hub, .out, .dmaq] ps
      = true) {s : State} (hs : Keeps ps s0 s) : Keeps ps s0 (startDma seq s) := by
  unfold startDma
  split
  · exact hs
  · refine Keeps.ite ?_ ?_
    · refine State.complete_keeps (Parts.le_trans rfl hl) ?_
      exact hs
    · refine Keeps.ite ?_ ?_
      · refine assignParts_keeps (Parts.le_trans rfl hl) ?_
        refine State.markStarted_keeps (Parts.le_trans rfl hl) ?_
        exact hs
      · refine State.modDesc_keeps _ _ (Parts.le_trans rfl hl) ?_
        exact hs

theorem dmaRetry_keeps
    (hl : Parts.le [.hostMem, .mem, .reports, .acct, .free, .regs, .bad, .rings, .descs, .ctxs, .hub, .out, .dmaq] ps
      = true) {s : State} (hs : Keeps ps s0 s) : Keeps ps s0 (dmaRetry s) := by
  unfold dmaRetry
  refine Keeps.foldl ?_ (fun t3 a1 ht2 => ?_)
  · exact hs
  · refine startDma_keeps hl ?_
    exact ht2

theorem execCopy_keeps {r : RingId}
    (hl : Parts.le [.free, .mcs, .regs, .dies, .cores, .acct, .rings, .nextSeq, .descs, .arb, .hostMem, .mem,
      .reports, .bad, .ctxs, .hub, .out, .dmaq] ps = true) {s : State} (hs : Keeps ps s0 s) {s' : State}
    (e : execCopy r s = .next s') : Keeps ps s0 s' := by
  unfold execCopy at e
  refine Keeps.next ?_ e
  refine fetchAs_keeps (Parts.le_trans rfl hl) ?_ ?_
  · intro a1 t2 ht3
    refine startDma_keeps (Parts.le_trans rfl hl) ?_
    exact ht3
  · exact hs

theorem execFill_keeps {r : RingId}
    (hl : Parts.le [.free, .mcs, .regs, .dies, .cores, .acct, .rings, .nextSeq, .descs, .arb, .hostMem, .mem,
      .reports, .bad, .ctxs, .hub, .out, .dmaq] ps = true) {s : State} (hs : Keeps ps s0 s) {s' : State}
    (e : execFill r s = .next s') : Keeps ps s0 s' := by
  unfold execFill at e
  refine Keeps.next ?_ e
  refine fetchAs_keeps (Parts.le_trans rfl hl) ?_ ?_
  · intro a1 t2 ht3
    refine startDma_keeps (Parts.le_trans rfl hl) ?_
    exact ht3
  · exact hs

theorem execCompare_keeps {r : RingId}
    (hl : Parts.le [.free, .mcs, .regs, .dies, .cores, .acct, .rings, .nextSeq, .descs, .arb, .hostMem, .mem,
      .reports, .bad, .ctxs, .hub, .out, .dmaq] ps = true) {s : State} (hs : Keeps ps s0 s) {s' : State}
    (e : execCompare r s = .next s') : Keeps ps s0 s' := by
  unfold execCompare at e
  refine Keeps.next ?_ e
  refine fetchAs_keeps (Parts.le_trans rfl hl) ?_ ?_
  · intro a1 t2 ht3
    refine startDma_keeps (Parts.le_trans rfl hl) ?_
    exact ht3
  · exact hs

theorem State.countSide_keeps {q : QueueId} {n : CtxId} {a : ℕ} {len : ℕ} (hl : Parts.le [.acct, .regs] ps = true)
    {s : State} (hs : Keeps ps s0 s) : Keeps ps s0 (State.countSide s q n a len) := by
  unfold State.countSide
  refine Keeps.ite ?_ ?_
  · exact hs
  · refine State.chargeBytes_keeps (Parts.le_trans rfl hl) ?_
    refine State.countBytes_keeps hl ?_
    exact hs

theorem State.putSide_keeps {q : QueueId} {n : CtxId} {a : ℕ} {bs : List Byte}
    (hl : Parts.le [.hostMem, .mem, .acct, .free, .regs, .bad] ps = true) {s : State} (hs : Keeps ps s0 s) : Keeps ps
    s0 (State.putSide s q n a bs) := by
  unfold State.putSide
  refine Keeps.ite ?_ ?_
  · refine State.anyWrite_keeps _ _ (Parts.le_trans rfl hl) ?_
    exact hs
  · refine State.chargeBytes_keeps (Parts.le_trans rfl hl) ?_
    refine State.putBytes_keeps (Parts.le_trans rfl hl) ?_
    exact hs

theorem noteDiffs_keeps {x : Desc} {part : ℕ} {off : ℕ} {l' : List ℕ} (hl : Parts.le [.descs] ps = true) {s : State}
    (hs : Keeps ps s0 s) : Keeps ps s0 (noteDiffs x part off l' s) := by
  unfold noteDiffs
  split
  · exact hs
  · refine State.modDesc_keeps _ _ hl ?_
    exact hs

theorem State.sideCe_keeps {a : ℕ} {len : ℕ} {ce : List ℕ} (hl : Parts.le [.mcs, .regs, .dies, .cores] ps = true)
    {s : State} (hs : Keeps ps s0 s) : Keeps ps s0 (State.sideCe s a len ce) := by
  unfold State.sideCe
  refine Keeps.ite ?_ ?_
  · exact hs
  · refine State.readCe_keeps hl ?_
    exact hs

theorem chunkEffect_keeps {q : QueueId} {x : Desc} {part : ℕ} {j : ℕ} {ce : List ℕ}
    (hl : Parts.le [.reports, .acct, .regs, .mcs, .dies, .cores, .descs, .hostMem, .mem, .free, .bad] ps = true)
    {s : State} (hs : Keeps ps s0 s) : Keeps ps s0 (chunkEffect q x part j ce s) := by
  unfold chunkEffect
  extract_lets +onlyGivenNames x1
  clear_value x1
  split
  extract_lets +onlyGivenNames x2
  clear_value x2
  extract_lets +onlyGivenNames x3
  clear_value x3
  extract_lets +onlyGivenNames x4
  clear_value x4
  split
  · refine State.raise_keeps (Parts.le_trans rfl hl) ?_
    exact hs
  · refine Keeps.ite ?_ ?_
    · extract_lets +onlyGivenNames x5
      have hx5 : Keeps ps s0 x5 := by
        subst x5
        refine State.countSide_keeps (Parts.le_trans rfl hl) ?_
        refine Keeps.ite ?_ ?_
        · refine State.sideCe_keeps (Parts.le_trans rfl hl) ?_
          refine State.countSide_keeps (Parts.le_trans rfl hl) ?_
          exact hs
        · exact hs
      clear_value x5
      extract_lets +onlyGivenNames x6
      have hx6 : Keeps ps s0 x6 := by
        subst x6
        refine State.sideCe_keeps (Parts.le_trans rfl hl) ?_
        exact hx5
      clear_value x6
      extract_lets +onlyGivenNames x7
      clear_value x7
      refine noteDiffs_keeps (Parts.le_trans rfl hl) ?_
      exact hx6
    · extract_lets +onlyGivenNames x8
      clear_value x8
      extract_lets +onlyGivenNames x9
      have hx9 : Keeps ps s0 x9 := by
        subst x9
        refine Keeps.ite ?_ ?_
        · refine State.sideCe_keeps (Parts.le_trans rfl hl) ?_
          refine State.countSide_keeps (Parts.le_trans rfl hl) ?_
          exact hs
        · exact hs
      clear_value x9
      refine State.bump_keeps (Parts.le_trans rfl hl) ?_
      refine State.putSide_keeps (Parts.le_trans rfl hl) ?_
      exact hx9

theorem endPart_keeps {q : QueueId} {p : DmaPart} {n : CtxId} {status : Byte}
    (hl : Parts.le [.trcTok, .free, .mem, .acct, .regs, .bad, .trcSeq, .trcDrop, .dmaq] ps = true) {s : State}
    (hs : Keeps ps s0 s) : Keeps ps s0 (endPart q p n status s) := by
  unfold endPart
  refine State.traceRec_keeps (Parts.le_trans rfl hl) ?_
  refine State.setDq_keeps (Parts.le_trans rfl hl) ?_
  exact hs

theorem scramblePart_keeps {x : Desc} {part : ℕ} (hl : Parts.le [.free, .hostMem, .mem] ps = true) {s : State}
    (hs : Keeps ps s0 s) : Keeps ps s0 (scramblePart x part s) := by
  unfold scramblePart
  refine Keeps.ite ?_ ?_
  · exact hs
  · refine Keeps.foldl ?_ (fun t3 a1 ht2 => ?_)
    · exact hs
    · split
      refine Keeps.foldl ?_ (fun t6 a4 ht5 => ?_)
      · exact ht2
      · refine Keeps.ite ?_ ?_
        · refine State.scramble_keeps hl ?_
          exact ht5
        · exact ht5

theorem failPart_keeps {q : QueueId} {p : DmaPart} {x : Desc}
    (hl : Parts.le [.regs, .free, .hostMem, .mem, .descs, .trcTok, .acct, .bad, .trcSeq, .trcDrop, .dmaq] ps = true)
    {s : State} (hs : Keeps ps s0 s) : Keeps ps s0 (failPart q p x s) := by
  unfold failPart
  extract_lets +onlyGivenNames x1
  have hx1 : Keeps ps s0 x1 := by
    subst x1
    refine State.bump_keeps (Parts.le_trans rfl hl) ?_
    refine scramblePart_keeps (Parts.le_trans rfl hl) ?_
    exact hs
  clear_value x1
  extract_lets +onlyGivenNames x2
  have hx2 : Keeps ps s0 x2 := by
    subst x2
    refine State.modDesc_keeps _ _ (Parts.le_trans rfl hl) ?_
    exact hx1
  clear_value x2
  refine endPart_keeps (Parts.le_trans rfl hl) ?_
  exact hx2

theorem movePart_keeps {q : QueueId} {p : DmaPart}
    (hl : Parts.le [.dmaq, .regs, .free, .hostMem, .mem, .descs, .trcTok, .acct, .bad, .trcSeq, .trcDrop] ps = true)
    {s : State} (hs : Keeps ps s0 s) : Keeps ps s0 (movePart q p s) := by
  unfold movePart
  split
  · exact hs
  · split
    · refine State.setDq_keeps (Parts.le_trans rfl hl) ?_
      refine State.setDq_keeps (Parts.le_trans rfl hl) ?_
      exact hs
    · refine failPart_keeps (Parts.le_trans rfl hl) ?_
      exact hs

theorem queueFail_keeps {q : QueueId} {p : DmaPart} {x : Desc}
    (hl : Parts.le [.regs, .free, .hostMem, .mem, .descs, .trcTok, .acct, .bad, .trcSeq, .trcDrop, .dmaq, .fns,
      .reports, .rings, .ctxs, .hub, .out, .store] ps = true) {s : State} (hs : Keeps ps s0 s) : Keeps ps s0
    (queueFail q p x s) := by
  unfold queueFail
  extract_lets +onlyGivenNames x1
  have hx1 : Keeps ps s0 x1 := by
    subst x1
    refine failPart_keeps (Parts.le_trans rfl hl) ?_
    exact hs
  clear_value x1
  extract_lets +onlyGivenNames x2
  have hx2 : Keeps ps s0 x2 := by
    subst x2
    refine State.setFn_keeps (Parts.le_trans rfl hl) ?_
    exact hx1
  clear_value x2
  extract_lets +onlyGivenNames x3
  have hx3 : Keeps ps s0 x3 := by
    subst x3
    refine Keeps.foldl ?_ (fun t6 a4 ht5 => ?_)
    · exact hx2
    · refine movePart_keeps (Parts.le_trans rfl hl) ?_
      exact ht5
  clear_value x3
  refine dmaRetry_keeps (Parts.le_trans rfl hl) ?_
  refine State.degraded_keeps (Parts.le_trans rfl hl) ?_
  exact hx3

theorem dmaChunkDone_keeps {q : QueueId} {p : DmaPart} {x : Desc} {j : ℕ} {parity : ℕ} {ce : List ℕ}
    (hl : Parts.le [.regs, .free, .hostMem, .mem, .descs, .trcTok, .acct, .bad, .trcSeq, .trcDrop, .dmaq, .fns,
      .reports, .rings, .ctxs, .hub, .out, .store, .mcs, .dies, .cores] ps = true) {s : State} (hs : Keeps ps s0 s) :
    Keeps ps s0 (dmaChunkDone q p x j parity ce s) := by
  unfold dmaChunkDone
  extract_lets +onlyGivenNames x1
  have hx1 : Keeps ps s0 x1 := by
    subst x1
    refine State.bump_keeps (Parts.le_trans rfl hl) ?_
    exact hs
  clear_value x1
  refine Keeps.ite ?_ ?_
  · refine queueFail_keeps (Parts.le_trans rfl hl) ?_
    exact hx1
  · extract_lets +onlyGivenNames x2
    have hx2 : Keeps ps s0 x2 := by
      subst x2
      refine chunkEffect_keeps (Parts.le_trans rfl hl) ?_
      exact hx1
    clear_value x2
    extract_lets +onlyGivenNames x3
    clear_value x3
    refine Keeps.ite ?_ ?_
    · extract_lets +onlyGivenNames x4
      clear_value x4
      refine endPart_keeps (Parts.le_trans rfl hl) ?_
      exact hx2
    · refine State.setDq_keeps (Parts.le_trans rfl hl) ?_
      exact hx2

theorem execDmaChunkDone_keeps {q : QueueId} {parity : ℕ} {ce : List ℕ}
    (hl : Parts.le [.regs, .free, .hostMem, .mem, .descs, .trcTok, .acct, .bad, .trcSeq, .trcDrop, .dmaq, .fns,
      .reports, .rings, .ctxs, .hub, .out, .store, .mcs, .dies, .cores] ps = true) {s : State} (hs : Keeps ps s0 s)
    {s' : State} (e : execDmaChunkDone q parity s ce = .next s') : Keeps ps s0 s' := by
  unfold execDmaChunkDone at e
  refine Keeps.next ?_ e
  split
  · refine dmaChunkDone_keeps hl ?_
    exact hs
  · exact hs

theorem execDmaHostReadError_keeps {q : QueueId} {a1 : ReadFail}
    (hl : Parts.le [.regs, .free, .hostMem, .mem, .descs, .trcTok, .acct, .bad, .trcSeq, .trcDrop, .dmaq] ps = true)
    {s : State} (hs : Keeps ps s0 s) {s' : State} (e : execDmaHostReadError q a1 s = .next s') : Keeps ps s0 s' := by
  unfold execDmaHostReadError at e
  refine Keeps.next ?_ e
  split
  · refine Keeps.ite ?_ ?_
    · refine failPart_keeps hl ?_
      exact hs
    · exact hs
  · exact hs

theorem dmaComplete_keeps {x : Desc}
    (hl : Parts.le [.hostMem, .mem, .reports, .acct, .free, .regs, .bad, .rings, .descs, .ctxs, .hub, .out] ps = true)
    {s : State} (hs : Keeps ps s0 s) : Keeps ps s0 (dmaComplete x s) := by
  unfold dmaComplete
  split
  refine Keeps.ite ?_ ?_
  · split
    · rename_i y1 y2 y3
      have hy2 : Keeps ps s0 y2 := by
        refine Keeps.ofEqL y3 ?_
        refine State.hubWrite_keeps (Parts.le_trans rfl hl) ?_
        exact hs
      refine State.complete_keeps hl ?_
      exact hy2
    · rename_i y4 y5 y6
      have hy5 : Keeps ps s0 y5 := by
        refine Keeps.ofEqL y6 ?_
        refine State.hubWrite_keeps (Parts.le_trans rfl hl) ?_
        exact hs
      exact hy5
  · refine State.complete_keeps hl ?_
    exact hs

theorem execDmaComplete_keeps {seq : ℕ}
    (hl : Parts.le [.hostMem, .mem, .reports, .acct, .free, .regs, .bad, .rings, .descs, .ctxs, .hub, .out] ps = true)
    {s : State} (hs : Keeps ps s0 s) {s' : State} (e : execDmaComplete seq s = .next s') : Keeps ps s0 s' := by
  unfold execDmaComplete at e
  refine Keeps.next ?_ e
  split
  · refine Keeps.ite ?_ ?_
    · exact hs
    · refine dmaComplete_keeps hl ?_
      exact hs
  · exact hs

end Sys2Proof.Machine
end

