-- ==== Sys2Proof/Laws/KeepsFabric.lean ====
section
/-! SUPPORT. What is kept (Laws/Keeps.lean) by
fabric, collectives and media,
one lemma an operation: the parts of the state that it lists are all that the operation may change. -/

namespace Sys2Proof.Machine

set_option maxRecDepth 4096

variable {ps : List Part} {s0 : State}

/-! ### Fabric -/

theorem State.fabEvent_keeps {bit : ℕ} (hl : Parts.le [.hub, .regs, .out] ps = true) {s : State} (hs : Keeps ps s0 s)
    : Keeps ps s0 (State.fabEvent s bit) := by
  unfold State.fabEvent
  refine State.msix_keeps hl ?_
  refine State.setRegFld_keeps (Parts.le_trans rfl hl) ?_
  exact hs

theorem State.unreach_keeps (hl : Parts.le [.hub, .regs, .out] ps = true) {s : State} (hs : Keeps ps s0 s) : Keeps ps
    s0 (State.unreach s) := by
  unfold State.unreach
  refine State.fabEvent_keeps hl ?_
  refine State.bump_keeps (Parts.le_trans rfl hl) ?_
  exact hs

theorem State.accountPort_keeps {p : PortId} {n : Option CtxId} {len : ℕ} (hl : Parts.le [.acct] ps = true)
    {s : State} (hs : Keeps ps s0 s) : Keeps ps s0 (State.accountPort s p n len) := by
  unfold State.accountPort
  extract_lets +onlyGivenNames x1
  have hx1 : Keeps ps s0 x1 := by
    subst x1
    refine State.account_keeps hl ?_
    exact hs
  clear_value x1
  split
  · refine State.account_keeps hl ?_
    exact hx1
  · exact hx1

theorem leaveBy_keeps {h : Hop} {pkt : Packet} {sameDim : Bool} (hl : Parts.le [.acct, .regs] ps = true) {s : State}
    (hs : Keeps ps s0 s) : Keeps ps s0 (leaveBy h pkt sameDim s).1 := by
  unfold leaveBy
  extract_lets +onlyGivenNames x1
  clear_value x1
  extract_lets +onlyGivenNames x2
  clear_value x2
  dsimp -zeta only
  refine State.accountPort_keeps (Parts.le_trans rfl hl) ?_
  refine State.bump_keeps (Parts.le_trans rfl hl) ?_
  exact hs

theorem State.sendPacket_keeps {pkt : Packet} (hl : Parts.le [.acct, .regs, .out, .hub] ps = true) {s : State}
    (hs : Keeps ps s0 s) : Keeps ps s0 (State.sendPacket s pkt) := by
  unfold State.sendPacket
  refine Keeps.ite ?_ ?_
  · split
    · split
      rename_i y1 y2 y3 y4
      have hy2 : Keeps ps s0 y2 := by
        refine Keeps.ofEqL y4 ?_
        refine leaveBy_keeps (Parts.le_trans rfl hl) ?_
        exact hs
      refine State.emit_keeps _ (Parts.le_trans rfl hl) ?_
      exact hy2
    · refine State.unreach_keeps (Parts.le_trans rfl hl) ?_
      exact hs
  · refine State.unreach_keeps (Parts.le_trans rfl hl) ?_
    exact hs

theorem State.sendNear_keeps {i : FRing} {plus : Bool} {dst : ℕ} {kind : ℕ} {payload : List Byte}
    (hl : Parts.le [.out, .acct, .regs] ps = true) {s : State} (hs : Keeps ps s0 s) : Keeps ps s0
    (State.sendNear s i plus dst kind payload) := by
  unfold State.sendNear
  extract_lets +onlyGivenNames x1
  clear_value x1
  extract_lets +onlyGivenNames x2
  clear_value x2
  refine State.emit_keeps _ (Parts.le_trans rfl hl) ?_
  refine State.accountPort_keeps (Parts.le_trans rfl hl) ?_
  refine State.bump_keeps (Parts.le_trans rfl hl) ?_
  exact hs

theorem State.countRx_keeps {k : Packet} (hl : Parts.le [.acct, .regs] ps = true) {s : State} (hs : Keeps ps s0 s) :
    Keeps ps s0 (State.countRx s k) := by
  unfold State.countRx
  refine State.accountPort_keeps (Parts.le_trans rfl hl) ?_
  refine State.bump_keeps (Parts.le_trans rfl hl) ?_
  exact hs

theorem packetForward_keeps {p : PortId} {pkt : Packet} (hl : Parts.le [.acct, .regs, .hub, .out] ps = true)
    {s : State} (hs : Keeps ps s0 s) : Keeps ps s0 (packetForward p pkt s) := by
  unfold packetForward
  extract_lets +onlyGivenNames x1
  have hx1 : Keeps ps s0 x1 := by
    subst x1
    refine State.countRx_keeps (Parts.le_trans rfl hl) ?_
    exact hs
  clear_value x1
  split
  · refine State.unreach_keeps (Parts.le_trans rfl hl) ?_
    exact hx1
  · split
    rename_i y2 y3 y4 y5
    have hy3 : Keeps ps s0 y3 := by
      refine Keeps.ofEqL y5 ?_
      refine leaveBy_keeps (Parts.le_trans rfl hl) ?_
      exact hx1
    extract_lets +onlyGivenNames x6
    have hx6 : Keeps ps s0 x6 := by
      subst x6
      refine Keeps.foldl ?_ (fun t9 a7 ht8 => ?_)
      · exact hy3
      · refine State.bump_keeps (Parts.le_trans rfl hl) ?_
        exact ht8
    clear_value x6
    refine State.emit_keeps _ (Parts.le_trans rfl hl) ?_
    exact hx6

theorem execPacketForward_keeps {inPort : PortId} {pkt : Packet} (hl : Parts.le [.acct, .regs, .hub, .out] ps = true)
    {s : State} (hs : Keeps ps s0 s) {s' : State} (e : execPacketForward inPort pkt s = .next s') : Keeps ps s0 s' :=
    by
  unfold execPacketForward at e
  refine Keeps.next ?_ e
  refine Keeps.ite ?_ ?_
  · refine packetForward_keeps hl ?_
    exact hs
  · exact hs

theorem takeIn_keeps {kind : ℕ} {eff : Packet → State → State} {pkt : Packet} (hl : Parts.le [.acct, .regs] ps = true)
    (heff : ∀ b0 t, Keeps ps s0 t → Keeps ps s0 (eff b0 t)) {s : State} (hs : Keeps ps s0 s) : Keeps ps s0
    (takeIn kind eff pkt s) := by
  unfold takeIn
  extract_lets +onlyGivenNames x1
  have hx1 : Keeps ps s0 x1 := by
    subst x1
    refine State.countRx_keeps hl ?_
    exact hs
  clear_value x1
  refine Keeps.ite ?_ ?_
  · refine State.bump_keeps (Parts.le_trans rfl hl) ?_
    exact hx1
  · refine Keeps.ite ?_ ?_
    · apply heff
      exact hx1
    · exact hx1

theorem receive_keeps {kind : ℕ} {eff : Packet → State → State} {pkt : Packet}
    (hl : Parts.le [.acct, .regs] ps = true) (heff : ∀ b0 t, Keeps ps s0 t → Keeps ps s0 (eff b0 t)) {s : State}
    (hs : Keeps ps s0 s) : Keeps ps s0 (receive kind eff pkt s) := by
  unfold receive
  refine Keeps.ite ?_ ?_
  · refine takeIn_keeps hl ?_ ?_
    · intro a1 t2 ht3
      apply heff
      exact ht3
    · exact hs
  · exact hs

theorem receiveAdmit_keeps {eff : Packet → State → State} {pkt : Packet} (hl : Parts.le [.acct, .regs] ps = true)
    (heff : ∀ b0 t, Keeps ps s0 t → Keeps ps s0 (eff b0 t)) {s : State} (hs : Keeps ps s0 s) : Keeps ps s0
    (receiveAdmit eff pkt s) := by
  unfold receiveAdmit
  refine Keeps.ite ?_ ?_
  · refine takeIn_keeps hl ?_ ?_
    · intro a1 t2 ht3
      apply heff
      exact ht3
    · exact hs
  · exact hs

theorem execCodewordLoss_keeps {p : PortId} {a1 : Fin 9} {count : ℕ} (hl : Parts.le [.regs] ps = true) {s : State}
    (hs : Keeps ps s0 s) {s' : State} (e : execCodewordLoss p a1 count s = .next s') : Keeps ps s0 s' := by
  unfold execCodewordLoss at e
  refine Keeps.next ?_ e
  refine Keeps.ite ?_ ?_
  · exact hs
  · refine State.bump_keeps hl ?_
    refine State.bump_keeps hl ?_
    exact hs

theorem viewStep_keeps {f : State → State} (hl : Parts.le [.fab, .hub, .regs, .out] ps = true)
    (hf : ∀ t, Keeps ps s0 t → Keeps ps s0 (f t)) {s : State} (hs : Keeps ps s0 s) : Keeps ps s0 (viewStep f s) := by
  unfold viewStep
  extract_lets +onlyGivenNames x1
  have hx1 : Keeps ps s0 x1 := by
    subst x1
    apply hf
    exact hs
  clear_value x1
  refine Keeps.ite ?_ ?_
  · exact hx1
  · extract_lets +onlyGivenNames x2
    clear_value x2
    extract_lets +onlyGivenNames x3
    have hx3 : Keeps ps s0 x3 := by
      subst x3
      refine Keeps.ite ?_ ?_
      · exact hx1
      · refine Keeps.upd [.fab] (Parts.le_trans rfl hl) rfl rfl ?_
        exact hx1
    clear_value x3
    refine State.fabEvent_keeps (Parts.le_trans rfl hl) ?_
    exact hx3

theorem State.announce_keeps {code : ℕ} {ring : ℕ} {addr : ℕ} (hl : Parts.le [.acct, .regs, .out, .hub] ps = true)
    {s : State} (hs : Keeps ps s0 s) : Keeps ps s0 (State.announce s code ring addr) := by
  unfold State.announce
  refine Keeps.foldl ?_ (fun t3 a1 ht2 => ?_)
  · exact hs
  · refine State.sendPacket_keeps hl ?_
    exact ht2

theorem State.savePort_keeps {p : PortId} (hl : Parts.le [.store] ps = true) {s : State} (hs : Keeps ps s0 s) : Keeps
    ps s0 (State.savePort s p) := by
  unfold State.savePort
  extract_lets +onlyGivenNames x1
  clear_value x1
  refine Keeps.upd [.store] hl rfl rfl ?_
  exact hs

theorem setLane_keeps {p : PortId} {tx : Bool} {lane : ℕ} (hl : Parts.le [.store, .regs] ps = true) {s : State}
    (hs : Keeps ps s0 s) : Keeps ps s0 (setLane p tx lane s) := by
  unfold setLane
  extract_lets +onlyGivenNames x1
  clear_value x1
  refine State.savePort_keeps (Parts.le_trans rfl hl) ?_
  refine State.setRegFld_keeps (Parts.le_trans rfl hl) ?_
  exact hs

theorem routeReceive_keeps {pkt : Packet} (hl : Parts.le [.store, .regs, .fab, .hub, .out] ps = true) {s : State}
    (hs : Keeps ps s0 s) : Keeps ps s0 (routeReceive pkt s) := by
  unfold routeReceive
  extract_lets +onlyGivenNames x1
  clear_value x1
  extract_lets +onlyGivenNames x2
  have hx2 : Keeps ps s0 x2 := by
    subst x2
    refine Keeps.foldl ?_ (fun t5 a3 ht4 => ?_)
    · exact hs
    · split
      refine Keeps.ite ?_ ?_
      · refine setLane_keeps (Parts.le_trans rfl hl) ?_
        exact ht4
      · exact ht4
  clear_value x2
  extract_lets +onlyGivenNames x6
  have hx6 : Keeps ps s0 x6 := by
    subst x6
    refine viewStep_keeps (Parts.le_trans rfl hl) ?_ ?_
    · intro t7 ht8
      refine Keeps.upd [.fab] (Parts.le_trans rfl hl) rfl rfl ?_
      exact ht8
    · exact hx2
  clear_value x6
  refine Keeps.ite ?_ ?_
  · refine State.fabEvent_keeps (Parts.le_trans rfl hl) ?_
    exact hx6
  · exact hx6

theorem State.setRing_keeps {i : FRing} {st : RingSt} {f : FRingSt → FRingSt}
    (hl : Parts.le [.hub, .regs, .out, .frings] ps = true) {s : State} (hs : Keeps ps s0 s) : Keeps ps s0
    (State.setRing s i st f) := by
  unfold State.setRing
  refine State.fabEvent_keeps (Parts.le_trans rfl hl) ?_
  refine State.modFring_keeps (Parts.le_trans rfl hl) ?_
  exact hs

theorem loopTrain_keeps (hl : Parts.le [.hub, .regs, .out, .frings] ps = true) {s : State} (hs : Keeps ps s0 s) :
    Keeps ps s0 (loopTrain s) := by
  unfold loopTrain
  refine Keeps.foldl ?_ (fun t3 a1 ht2 => ?_)
  · exact hs
  · refine Keeps.ite ?_ ?_
    · refine State.setRing_keeps hl ?_
      exact ht2
    · exact ht2

theorem sizesSet_keeps (hl : Parts.le [.hub, .regs, .out, .frings] ps = true) {s : State} (hs : Keeps ps s0 s) : Keeps
    ps s0 (sizesSet s) := by
  unfold sizesSet
  refine loopTrain_keeps hl ?_
  refine Keeps.foldl ?_ (fun t3 a1 ht2 => ?_)
  · exact hs
  · refine Keeps.ite ?_ ?_
    · refine State.setRing_keeps hl ?_
      exact ht2
    · exact ht2

theorem addrLeaves_keeps (hl : Parts.le [.acct, .regs, .out, .hub, .fab] ps = true) {s : State} (hs : Keeps ps s0 s) :
    Keeps ps s0 (addrLeaves s) := by
  unfold addrLeaves
  refine Keeps.ite ?_ ?_
  · refine State.announce_keeps (Parts.le_trans rfl hl) ?_
    refine viewStep_keeps (Parts.le_trans rfl hl) ?_ ?_
    · intro t1 ht2
      refine Keeps.upd [.fab] (Parts.le_trans rfl hl) rfl rfl ?_
      exact ht2
    · exact hs
  · exact hs

theorem withdrawRing_keeps {i : FRing} (hl : Parts.le [.out, .acct, .regs, .fab] ps = true) {s : State}
    (hs : Keeps ps s0 s) : Keeps ps s0 (withdrawRing i s) := by
  unfold withdrawRing
  extract_lets +onlyGivenNames x1
  clear_value x1
  extract_lets +onlyGivenNames x2
  have hx2 : Keeps ps s0 x2 := by
    subst x2
    refine Keeps.foldl ?_ (fun t5 a3 ht4 => ?_)
    · exact hs
    · refine State.sendNear_keeps (Parts.le_trans rfl hl) ?_
      exact ht4
  clear_value x2
  refine Keeps.upd [.fab] (Parts.le_trans rfl hl) rfl rfl ?_
  exact hx2

theorem segsChange_keeps {i : FRing} {sides : List Bool} {up : Bool} {f : State → State}
    (hl : Parts.le [.fab, .hub, .regs, .out, .acct] ps = true) (hf : ∀ t, Keeps ps s0 t → Keeps ps s0 (f t))
    {s : State} (hs : Keeps ps s0 s) : Keeps ps s0 (segsChange i sides up f s) := by
  unfold segsChange
  extract_lets +onlyGivenNames x1
  clear_value x1
  extract_lets +onlyGivenNames x2
  have hx2 : Keeps ps s0 x2 := by
    subst x2
    refine viewStep_keeps (Parts.le_trans rfl hl) ?_ ?_
    · intro t3 ht4
      extract_lets +onlyGivenNames x5
      have hx5 : Keeps ps s0 x5 := by
        subst x5
        apply hf
        exact ht4
      clear_value x5
      refine Keeps.upd [.fab] (Parts.le_trans rfl hl) rfl rfl ?_
      exact hx5
    · exact hs
  clear_value x2
  refine Keeps.foldl ?_ (fun t8 a6 ht7 => ?_)
  · exact hx2
  · refine State.announce_keeps (Parts.le_trans rfl hl) ?_
    refine State.fabEvent_keeps (Parts.le_trans rfl hl) ?_
    exact ht7

theorem ringLeave_keeps {i : FRing} {reason : ℕ} (hl : Parts.le [.acct, .regs, .out, .hub, .fab, .frings] ps = true)
    {s : State} (hs : Keeps ps s0 s) : Keeps ps s0 (ringLeave i reason s) := by
  unfold ringLeave
  refine addrLeaves_keeps (Parts.le_trans rfl hl) ?_
  refine segsChange_keeps (Parts.le_trans rfl hl) ?_ ?_
  · intro t1 ht2
    refine State.setRing_keeps (Parts.le_trans rfl hl) ?_
    refine withdrawRing_keeps (Parts.le_trans rfl hl) ?_
    exact ht2
  · exact hs

theorem pumpLeave_keeps (hl : Parts.le [.fab, .acct, .regs, .out, .hub, .frings] ps = true) {s : State}
    (hs : Keeps ps s0 s) : Keeps ps s0 (pumpLeave s) := by
  unfold pumpLeave
  extract_lets +onlyGivenNames x1
  clear_value x1
  extract_lets +onlyGivenNames x2
  clear_value x2
  extract_lets +onlyGivenNames x3
  have hx3 : Keeps ps s0 x3 := by
    subst x3
    refine Keeps.upd [.fab] (Parts.le_trans rfl hl) rfl rfl ?_
    exact hs
  clear_value x3
  refine Keeps.ite ?_ ?_
  · exact hx3
  · split
    · refine Keeps.ite ?_ ?_
      · exact hx3
      · refine ringLeave_keeps (Parts.le_trans rfl hl) ?_
        refine Keeps.upd [.fab] (Parts.le_trans rfl hl) rfl rfl ?_
        exact hx3
    · exact hx3

theorem askNeighbours_keeps {i : FRing} (hl : Parts.le [.out, .acct, .regs] ps = true) {s : State}
    (hs : Keeps ps s0 s) : Keeps ps s0 (askNeighbours i s) := by
  unfold askNeighbours
  refine Keeps.foldl ?_ (fun t3 a1 ht2 => ?_)
  · exact hs
  · split
    · refine State.sendNear_keeps hl ?_
      exact ht2
    · exact ht2

theorem pumpAdmit_keeps (hl : Parts.le [.fab, .out, .acct, .regs, .hub, .frings] ps = true) {s : State}
    (hs : Keeps ps s0 s) : Keeps ps s0 (pumpAdmit s) := by
  unfold pumpAdmit
  extract_lets +onlyGivenNames x1
  clear_value x1
  extract_lets +onlyGivenNames x2
  clear_value x2
  extract_lets +onlyGivenNames x3
  have hx3 : Keeps ps s0 x3 := by
    subst x3
    refine Keeps.upd [.fab] (Parts.le_trans rfl hl) rfl rfl ?_
    exact hs
  clear_value x3
  refine Keeps.ite ?_ ?_
  · exact hx3
  · split
    · refine Keeps.ite ?_ ?_
      · exact hx3
      · refine askNeighbours_keeps (Parts.le_trans rfl hl) ?_
        refine State.setRing_keeps (Parts.le_trans rfl hl) ?_
        refine Keeps.upd [.fab] (Parts.le_trans rfl hl) rfl rfl ?_
        exact hx3
    · exact hx3

theorem fabPump_keeps (hl : Parts.le [.fab, .out, .acct, .regs, .hub, .frings] ps = true) {s : State}
    (hs : Keeps ps s0 s) : Keeps ps s0 (fabPump s) := by
  unfold fabPump
  refine pumpAdmit_keeps hl ?_
  refine pumpLeave_keeps (Parts.le_trans rfl hl) ?_
  exact hs

theorem askLeave_keeps {i : FRing} {reason : ℕ} (hl : Parts.le [.fab, .out, .acct, .regs, .hub, .frings] ps = true)
    {s : State} (hs : Keeps ps s0 s) : Keeps ps s0 (askLeave i reason s) := by
  unfold askLeave
  refine fabPump_keeps hl ?_
  refine Keeps.upd [.fab] (Parts.le_trans rfl hl) rfl rfl ?_
  exact hs

theorem portDisable_keeps {p : PortId} (hl : Parts.le [.fns, .fab, .out, .acct, .regs, .hub, .frings] ps = true)
    {s : State} (hs : Keeps ps s0 s) : Keeps ps s0 (portDisable p s) := by
  unfold portDisable
  extract_lets +onlyGivenNames x1
  have hx1 : Keeps ps s0 x1 := by
    subst x1
    refine functionDisable_keeps (Parts.le_trans rfl hl) ?_
    exact hs
  clear_value x1
  refine Keeps.ite ?_ ?_
  · refine askLeave_keeps (Parts.le_trans rfl hl) ?_
    exact hx1
  · exact hx1

theorem fabAdmitWrite_keeps {val : W32} (hl : Parts.le [.fab, .out, .acct, .regs, .hub, .frings] ps = true)
    {s : State} (hs : Keeps ps s0 s) : Keeps ps s0 (fabAdmitWrite val s) := by
  unfold fabAdmitWrite
  extract_lets +onlyGivenNames x1
  clear_value x1
  extract_lets +onlyGivenNames x2
  clear_value x2
  extract_lets +onlyGivenNames x3
  clear_value x3
  refine fabPump_keeps hl ?_
  refine Keeps.upd [.fab] (Parts.le_trans rfl hl) rfl rfl ?_
  exact hs

theorem admitJudge_keeps {pkt : Packet} (hl : Parts.le [.out, .acct, .regs, .fab, .hub] ps = true) {s : State}
    (hs : Keeps ps s0 s) : Keeps ps s0 (admitJudge pkt s) := by
  unfold admitJudge
  extract_lets +onlyGivenNames x1
  clear_value x1
  extract_lets +onlyGivenNames x2
  clear_value x2
  extract_lets +onlyGivenNames x3
  clear_value x3
  refine Keeps.ite ?_ ?_
  · exact hs
  · refine Keeps.ite ?_ ?_
    · refine State.sendNear_keeps (Parts.le_trans rfl hl) ?_
      refine viewStep_keeps (Parts.le_trans rfl hl) ?_ ?_
      · intro t4 ht5
        refine Keeps.upd [.fab] (Parts.le_trans rfl hl) rfl rfl ?_
        exact ht5
      · exact hs
    · refine State.sendNear_keeps (Parts.le_trans rfl hl) ?_
      exact hs

theorem admitReceiveEv_keeps {pkt : Packet} (hl : Parts.le [.acct, .regs, .out, .fab, .hub] ps = true) {s : State}
    (hs : Keeps ps s0 s) : Keeps ps s0 (admitReceiveEv pkt s) := by
  unfold admitReceiveEv
  refine receiveAdmit_keeps (Parts.le_trans rfl hl) ?_ ?_
  · intro a1 t2 ht3
    refine admitJudge_keeps (Parts.le_trans rfl hl) ?_
    exact ht3
  · exact hs

theorem admitAcceptEv_keeps {minus : Packet} {plus : Packet}
    (hl : Parts.le [.acct, .regs, .hub, .out, .frings] ps = true) {s : State} (hs : Keeps ps s0 s) : Keeps ps s0
    (admitAcceptEv minus plus s) := by
  unfold admitAcceptEv
  extract_lets +onlyGivenNames x1
  clear_value x1
  extract_lets +onlyGivenNames x2
  have hx2 : Keeps ps s0 x2 := by
    subst x2
    refine receiveAdmit_keeps (Parts.le_trans rfl hl) ?_ ?_
    · intro a3 t4 ht5
      exact ht5
    · refine receiveAdmit_keeps (Parts.le_trans rfl hl) ?_ ?_
      · intro a6 t7 ht8
        exact ht8
      · exact hs
  clear_value x2
  refine Keeps.ite ?_ ?_
  · refine State.setRing_keeps (Parts.le_trans rfl hl) ?_
    exact hx2
  · exact hx2

theorem admitRefused_keeps {pkt : Packet} (hl : Parts.le [.fab, .out, .acct, .regs, .hub, .frings] ps = true)
    {s : State} (hs : Keeps ps s0 s) : Keeps ps s0 (admitRefused pkt s) := by
  unfold admitRefused
  extract_lets +onlyGivenNames x1
  clear_value x1
  refine Keeps.ite ?_ ?_
  · refine fabPump_keeps hl ?_
    refine State.setRing_keeps (Parts.le_trans rfl hl) ?_
    exact hs
  · exact hs

theorem admitWithdrawEv_keeps {pkt : Packet} (hl : Parts.le [.acct, .regs, .fab, .out, .hub, .frings] ps = true)
    {s : State} (hs : Keeps ps s0 s) : Keeps ps s0 (admitWithdrawEv pkt s) := by
  unfold admitWithdrawEv
  refine receiveAdmit_keeps (Parts.le_trans rfl hl) ?_ ?_
  · intro a1 t2 ht3
    refine admitRefused_keeps (Parts.le_trans rfl hl) ?_
    exact ht3
  · exact hs

theorem admitTimeoutEv_keeps {i : FRing} (hl : Parts.le [.fab, .out, .acct, .regs, .hub, .frings] ps = true)
    {s : State} (hs : Keeps ps s0 s) : Keeps ps s0 (admitTimeoutEv i s) := by
  unfold admitTimeoutEv
  refine Keeps.ite ?_ ?_
  · refine fabPump_keeps hl ?_
    refine State.setRing_keeps (Parts.le_trans rfl hl) ?_
    exact hs
  · exact hs

theorem switchOpenEv_keeps {i : FRing} (hl : Parts.le [.hub, .regs, .out, .frings] ps = true) {s : State}
    (hs : Keeps ps s0 s) : Keeps ps s0 (switchOpenEv i s) := by
  unfold switchOpenEv
  refine Keeps.ite ?_ ?_
  · refine State.setRing_keeps hl ?_
    exact hs
  · exact hs

theorem segmentTrained_keeps {i : FRing} (hl : Parts.le [.fab, .hub, .regs, .out, .acct, .frings] ps = true)
    {s : State} (hs : Keeps ps s0 s) : Keeps ps s0 (segmentTrained i s) := by
  unfold segmentTrained
  extract_lets +onlyGivenNames x1
  have hx1 : Keeps ps s0 x1 := by
    subst x1
    refine segsChange_keeps (Parts.le_trans rfl hl) ?_ ?_
    · intro t2 ht3
      refine State.setRing_keeps (Parts.le_trans rfl hl) ?_
      exact ht3
    · exact hs
  clear_value x1
  extract_lets +onlyGivenNames x4
  clear_value x4
  extract_lets +onlyGivenNames x5
  have hx5 : Keeps ps s0 x5 := by
    subst x5
    refine viewStep_keeps (Parts.le_trans rfl hl) ?_ ?_
    · intro t6 ht7
      refine Keeps.upd [.fab] (Parts.le_trans rfl hl) rfl rfl ?_
      exact ht7
    · exact hx1
  clear_value x5
  extract_lets +onlyGivenNames x8
  have hx8 : Keeps ps s0 x8 := by
    subst x8
    refine State.announce_keeps (Parts.le_trans rfl hl) ?_
    exact hx5
  clear_value x8
  extract_lets +onlyGivenNames x9
  have hx9 : Keeps ps s0 x9 := by
    subst x9
    refine Keeps.ite ?_ ?_
    · refine Keeps.ite ?_ ?_
      · refine State.announce_keeps (Parts.le_trans rfl hl) ?_
        exact hx8
      · exact hx8
    · exact hx1
  clear_value x9
  refine fabPump_keeps (Parts.le_trans rfl hl) ?_
  exact hx9

theorem segmentTrainedEv_keeps {i : FRing} (hl : Parts.le [.fab, .hub, .regs, .out, .acct, .frings] ps = true)
    {s : State} (hs : Keeps ps s0 s) : Keeps ps s0 (segmentTrainedEv i s) := by
  unfold segmentTrainedEv
  refine Keeps.ite ?_ ?_
  · refine segmentTrained_keeps hl ?_
    exact hs
  · exact hs

theorem trainingTimeoutEv_keeps {i : FRing} (hl : Parts.le [.fab, .out, .acct, .regs, .hub, .frings] ps = true)
    {s : State} (hs : Keeps ps s0 s) : Keeps ps s0 (trainingTimeoutEv i s) := by
  unfold trainingTimeoutEv
  refine Keeps.ite ?_ ?_
  · refine fabPump_keeps hl ?_
    refine ringLeave_keeps (Parts.le_trans rfl hl) ?_
    exact hs
  · exact hs

theorem switchClosedEv_keeps {i : FRing} (hl : Parts.le [.fab, .out, .acct, .regs, .hub, .frings] ps = true)
    {s : State} (hs : Keeps ps s0 s) : Keeps ps s0 (switchClosedEv i s) := by
  unfold switchClosedEv
  refine Keeps.ite ?_ ?_
  · refine fabPump_keeps hl ?_
    refine loopTrain_keeps (Parts.le_trans rfl hl) ?_
    refine State.setRing_keeps (Parts.le_trans rfl hl) ?_
    exact hs
  · exact hs

theorem segmentChange_keeps {i : FRing} {plus : Bool} {up : Bool}
    (hl : Parts.le [.fab, .hub, .regs, .out, .acct, .frings] ps = true) {s : State} (hs : Keeps ps s0 s) : Keeps ps s0
    (segmentChange i plus up s) := by
  unfold segmentChange
  refine segsChange_keeps (Parts.le_trans rfl hl) ?_ ?_
  · intro t1 ht2
    refine State.modFring_keeps (Parts.le_trans rfl hl) ?_
    exact ht2
  · exact hs

theorem segmentDownEv_keeps {i : FRing} {plusSide : Bool}
    (hl : Parts.le [.fab, .hub, .regs, .out, .acct, .frings] ps = true) {s : State} (hs : Keeps ps s0 s) : Keeps ps s0
    (segmentDownEv i plusSide s) := by
  unfold segmentDownEv
  refine Keeps.ite ?_ ?_
  · refine segmentChange_keeps hl ?_
    exact hs
  · exact hs

theorem segmentUpEv_keeps {i : FRing} {plusSide : Bool}
    (hl : Parts.le [.fab, .hub, .regs, .out, .acct, .frings] ps = true) {s : State} (hs : Keeps ps s0 s) : Keeps ps s0
    (segmentUpEv i plusSide s) := by
  unfold segmentUpEv
  refine Keeps.ite ?_ ?_
  · refine segmentChange_keeps hl ?_
    exact hs
  · exact hs

theorem neighbourLossEv_keeps {i : FRing} {a1 : Bool} {packets : ℕ} (hl : Parts.le [.hub, .regs, .out] ps = true)
    {s : State} (hs : Keeps ps s0 s) : Keeps ps s0 (neighbourLossEv i a1 packets s) := by
  unfold neighbourLossEv
  refine Keeps.ite ?_ ?_
  · refine State.fabEvent_keeps hl ?_
    refine State.bump_keeps (Parts.le_trans rfl hl) ?_
    exact hs
  · exact hs

theorem echoAsked_keeps {pkt : Packet} (hl : Parts.le [.out, .acct, .regs, .fab, .hub] ps = true) {s : State}
    (hs : Keeps ps s0 s) : Keeps ps s0 (echoAsked pkt s) := by
  unfold echoAsked
  extract_lets +onlyGivenNames x1
  clear_value x1
  extract_lets +onlyGivenNames x2
  clear_value x2
  refine Keeps.ite ?_ ?_
  · refine State.sendNear_keeps (Parts.le_trans rfl hl) ?_
    refine viewStep_keeps (Parts.le_trans rfl hl) ?_ ?_
    · intro t3 ht4
      refine Keeps.upd [.fab] (Parts.le_trans rfl hl) rfl rfl ?_
      exact ht4
    · exact hs
  · exact hs

theorem echoReceiveEv_keeps {pkt : Packet} (hl : Parts.le [.acct, .regs, .out, .fab, .hub] ps = true) {s : State}
    (hs : Keeps ps s0 s) : Keeps ps s0 (echoReceiveEv pkt s) := by
  unfold echoReceiveEv
  refine receive_keeps (Parts.le_trans rfl hl) ?_ ?_
  · intro a1 t2 ht3
    refine echoAsked_keeps (Parts.le_trans rfl hl) ?_
    exact ht3
  · exact hs

theorem timeStep_keeps {ns : ℤ} (hl : Parts.le [.regs, .now] ps = true) {s : State} (hs : Keeps ps s0 s) : Keeps ps s0
    (timeStep ns s) := by
  unfold timeStep
  refine State.setReg_keeps (Parts.le_trans rfl hl) ?_
  refine Keeps.upd [.now] (Parts.le_trans rfl hl) rfl rfl ?_
  exact hs

theorem freqStep_keeps {ps' : ℤ} (hl : Parts.le [.fab] ps = true) {s : State} (hs : Keeps ps s0 s) : Keeps ps s0
    (freqStep ps' s) := by
  unfold freqStep
  extract_lets +onlyGivenNames x1
  clear_value x1
  refine Keeps.upd [.fab] hl rfl rfl ?_
  exact hs

theorem timeReceive_keeps {ps' : ℤ} (hl : Parts.le [.fab, .regs, .now] ps = true) {s : State} (hs : Keeps ps s0 s) :
    Keeps ps s0 (timeReceive ps' s) := by
  unfold timeReceive
  extract_lets +onlyGivenNames x1
  have hx1 : Keeps ps s0 x1 := by
    subst x1
    refine freqStep_keeps (Parts.le_trans rfl hl) ?_
    refine State.setReg_keeps (Parts.le_trans rfl hl) ?_
    exact hs
  clear_value x1
  extract_lets +onlyGivenNames x2
  clear_value x2
  extract_lets +onlyGivenNames x3
  clear_value x3
  extract_lets +onlyGivenNames x4
  have hx4 : Keeps ps s0 x4 := by
    subst x4
    refine Keeps.upd [.fab] (Parts.le_trans rfl hl) rfl rfl ?_
    exact hx1
  clear_value x4
  refine Keeps.ite ?_ ?_
  · extract_lets +onlyGivenNames x5
    have hx5 : Keeps ps s0 x5 := by
      subst x5
      refine timeStep_keeps (Parts.le_trans rfl hl) ?_
      exact hx4
    clear_value x5
    refine Keeps.upd [.fab] (Parts.le_trans rfl hl) rfl rfl ?_
    exact hx5
  · refine Keeps.upd [.fab] (Parts.le_trans rfl hl) rfl rfl ?_
    exact hx4

theorem timeNote_keeps {arrival : ℕ} {k : Packet} (hl : Parts.le [.fab, .regs, .now] ps = true) {s : State}
    (hs : Keeps ps s0 s) : Keeps ps s0 (timeNote arrival k s) := by
  unfold timeNote
  extract_lets +onlyGivenNames x1
  clear_value x1
  extract_lets +onlyGivenNames x2
  clear_value x2
  extract_lets +onlyGivenNames x3
  clear_value x3
  extract_lets +onlyGivenNames x4
  have hx4 : Keeps ps s0 x4 := by
    subst x4
    refine Keeps.upd [.fab] (Parts.le_trans rfl hl) rfl rfl ?_
    exact hs
  clear_value x4
  extract_lets +onlyGivenNames x5
  clear_value x5
  split
  · refine Keeps.ite ?_ ?_
    · refine timeReceive_keeps hl ?_
      exact hx4
    · exact hx4
  · exact hx4

theorem execTimeReceive_keeps {pkt : Packet} {arrivalPs : ℕ} (hl : Parts.le [.acct, .regs, .fab, .now] ps = true)
    {s : State} (hs : Keeps ps s0 s) {s' : State} (e : execTimeReceive pkt arrivalPs s = .next s') : Keeps ps s0 s' :=
    by
  unfold execTimeReceive at e
  refine Keeps.next ?_ e
  refine receive_keeps (Parts.le_trans rfl hl) ?_ ?_
  · intro a1 t2 ht3
    refine timeNote_keeps (Parts.le_trans rfl hl) ?_
    exact ht3
  · exact hs

theorem timeExchange_keeps (hl : Parts.le [.fab, .out, .acct, .regs] ps = true) {s : State} (hs : Keeps ps s0 s) :
    Keeps ps s0 (timeExchange s) := by
  unfold timeExchange
  extract_lets +onlyGivenNames x1
  clear_value x1
  extract_lets +onlyGivenNames x2
  have hx2 : Keeps ps s0 x2 := by
    subst x2
    refine Keeps.upd [.fab] (Parts.le_trans rfl hl) rfl rfl ?_
    exact hs
  clear_value x2
  refine Keeps.foldl ?_ (fun t5 a3 ht4 => ?_)
  · exact hx2
  · refine Keeps.foldl ?_ (fun t8 a6 ht7 => ?_)
    · exact ht4
    · split
      · refine State.sendNear_keeps (Parts.le_trans rfl hl) ?_
        exact ht7
      · exact ht7

theorem execTimeExchange_keeps (hl : Parts.le [.fab, .out, .acct, .regs] ps = true) {s : State} (hs : Keeps ps s0 s)
    {s' : State} (e : execTimeExchange s = .next s') : Keeps ps s0 s' := by
  unfold execTimeExchange at e
  refine Keeps.next ?_ e
  split
  · refine Keeps.ite ?_ ?_
    · refine timeExchange_keeps hl ?_
      exact hs
    · exact hs
  · refine timeExchange_keeps hl ?_
    exact hs

theorem portWidth_keeps {p : PortId} {kind : ℕ} {detail : ℕ}
    (hl : Parts.le [.store, .free, .hub, .regs, .out, .fab, .acct, .frings] ps = true) {s : State}
    (hs : Keeps ps s0 s) : Keeps ps s0 (portWidth p kind detail s) := by
  unfold portWidth
  extract_lets +onlyGivenNames x1
  clear_value x1
  extract_lets +onlyGivenNames x2
  clear_value x2
  refine Keeps.ite ?_ ?_
  · extract_lets +onlyGivenNames x3
    have hx3 : Keeps ps s0 x3 := by
      subst x3
      refine State.degraded_keeps (Parts.le_trans rfl hl) ?_
      exact hs
    clear_value x3
    extract_lets +onlyGivenNames x4
    clear_value x4
    refine Keeps.ite ?_ ?_
    · refine askLeave_keeps (Parts.le_trans rfl hl) ?_
      exact hx3
    · exact hx3
  · exact hs

theorem tellLane_keeps {p : PortId} {tx : Bool} {lane : ℕ} (hl : Parts.le [.out, .acct, .regs] ps = true) {s : State}
    (hs : Keeps ps s0 s) : Keeps ps s0 (tellLane p tx lane s) := by
  unfold tellLane
  extract_lets +onlyGivenNames x1
  clear_value x1
  extract_lets +onlyGivenNames x2
  clear_value x2
  split
  · refine State.sendNear_keeps hl ?_
    exact hs
  · exact hs

theorem fabricLaneSpare_keeps {p : PortId} {tx : Bool} {lane : ℕ}
    (hl : Parts.le [.ports, .trcTok, .free, .mem, .acct, .regs, .bad, .trcSeq, .trcDrop, .store, .hub, .out, .fab,
      .frings] ps = true) {s : State} (hs : Keeps ps s0 s) : Keeps ps s0 (fabricLaneSpare p tx lane s) := by
  unfold fabricLaneSpare
  extract_lets +onlyGivenNames x1
  clear_value x1
  extract_lets +onlyGivenNames x2
  have hx2 : Keeps ps s0 x2 := by
    subst x2
    refine State.modPort_keeps (Parts.le_trans rfl hl) ?_
    exact hs
  clear_value x2
  refine Keeps.ite ?_ ?_
  · refine State.repaired_keeps (Parts.le_trans rfl hl) ?_
    refine tellLane_keeps (Parts.le_trans rfl hl) ?_
    refine setLane_keeps (Parts.le_trans rfl hl) ?_
    exact hx2
  · refine portWidth_keeps (Parts.le_trans rfl hl) ?_
    exact hx2

theorem execFabricLaneSpare_keeps {p : PortId} {tx : Bool} {lane : Fin 8}
    (hl : Parts.le [.ports, .trcTok, .free, .mem, .acct, .regs, .bad, .trcSeq, .trcDrop, .store, .hub, .out, .fab,
      .frings] ps = true) {s : State} (hs : Keeps ps s0 s) {s' : State}
    (e : execFabricLaneSpare p tx lane s = .next s') : Keeps ps s0 s' := by
  unfold execFabricLaneSpare at e
  refine Keeps.next ?_ e
  refine Keeps.ite ?_ ?_
  · exact hs
  · refine fabricLaneSpare_keeps hl ?_
    exact hs

theorem laserSpare_keeps {p : PortId} {laser : ℕ}
    (hl : Parts.le [.ports, .regs, .trcTok, .free, .mem, .acct, .bad, .trcSeq, .trcDrop, .store, .hub, .out, .fab,
      .frings] ps = true) {s : State} (hs : Keeps ps s0 s) : Keeps ps s0 (laserSpare p laser s) := by
  unfold laserSpare
  extract_lets +onlyGivenNames x1
  clear_value x1
  refine Keeps.ite ?_ ?_
  · extract_lets +onlyGivenNames x2
    have hx2 : Keeps ps s0 x2 := by
      subst x2
      refine State.modPort_keeps (Parts.le_trans rfl hl) ?_
      exact hs
    clear_value x2
    extract_lets +onlyGivenNames x3
    have hx3 : Keeps ps s0 x3 := by
      subst x3
      refine State.setRegFld_keeps (Parts.le_trans rfl hl) ?_
      exact hx2
    clear_value x3
    refine State.repaired_keeps (Parts.le_trans rfl hl) ?_
    refine State.savePort_keeps (Parts.le_trans rfl hl) ?_
    exact hx3
  · refine portWidth_keeps (Parts.le_trans rfl hl) ?_
    refine State.modPort_keeps (Parts.le_trans rfl hl) ?_
    exact hs

theorem execLaserSpare_keeps {p : PortId} {laser : Fin 5}
    (hl : Parts.le [.ports, .regs, .trcTok, .free, .mem, .acct, .bad, .trcSeq, .trcDrop, .store, .hub, .out, .fab,
      .frings] ps = true) {s : State} (hs : Keeps ps s0 s) {s' : State} (e : execLaserSpare p laser s = .next s') :
    Keeps ps s0 s' := by
  unfold execLaserSpare at e
  refine Keeps.next ?_ e
  refine Keeps.ite ?_ ?_
  · exact hs
  · refine laserSpare_keeps hl ?_
    exact hs

/-! ### Collectives -/

theorem State.tell_keeps {eff : Packet → State → State} {pkt : Packet}
    (hl : Parts.le [.acct, .regs, .out, .hub] ps = true) (heff : ∀ b0 t, Keeps ps s0 t → Keeps ps s0 (eff b0 t))
    {s : State} (hs : Keeps ps s0 s) : Keeps ps s0 (State.tell s eff pkt) := by
  unfold State.tell
  refine Keeps.ite ?_ ?_
  · apply heff
    exact hs
  · refine State.sendPacket_keeps hl ?_
    exact hs

theorem State.countLate_keeps {ctrl : ℕ} (hl : Parts.le [.regs] ps = true) {s : State} (hs : Keeps ps s0 s) : Keeps ps
    s0 (State.countLate s ctrl) := by
  unfold State.countLate
  refine State.bump_keeps hl ?_
  exact hs

theorem State.collFault_keeps {n : CtxId} {a : ℕ} (hl : Parts.le [.reports] ps = true) {s : State}
    (hs : Keeps ps s0 s) : Keeps ps s0 (State.collFault s n a) := by
  unfold State.collFault
  refine State.raise_keeps hl ?_
  exact hs

theorem State.collWrite_keeps {n : CtxId} {a : ℕ} {bs : List Byte}
    (hl : Parts.le [.reports, .acct, .regs, .bad, .mem] ps = true) {s : State} (hs : Keeps ps s0 s) : Keeps ps s0
    (State.collWrite s n a bs) := by
  unfold State.collWrite
  split
  · refine State.collFault_keeps (Parts.le_trans rfl hl) ?_
    exact hs
  · refine State.chargeBytes_keeps (Parts.le_trans rfl hl) ?_
    refine State.collPut_keeps (Parts.le_trans rfl hl) ?_
    exact hs

theorem State.collRead_keeps {n : CtxId} {a : ℕ} {len : ℕ}
    (hl : Parts.le [.reports, .free, .mcs, .regs, .dies, .cores, .acct] ps = true) {s : State} (hs : Keeps ps s0 s) :
    Keeps ps s0 (State.collRead s n a len).1 := by
  unfold State.collRead
  split
  · dsimp -zeta only
    refine State.collFault_keeps (Parts.le_trans rfl hl) ?_
    exact hs
  · dsimp -zeta only
    refine State.jobRead_keeps (Parts.le_trans rfl hl) ?_
    exact hs

theorem shardNote_keeps {pkt : Packet} (hl : Parts.le [.reports, .acct, .regs, .bad, .mem, .colls] ps = true)
    {s : State} (hs : Keeps ps s0 s) : Keeps ps s0 (shardNote pkt s) := by
  unfold shardNote
  split
  · exact hs
  · extract_lets +onlyGivenNames x1
    clear_value x1
    extract_lets +onlyGivenNames x2
    clear_value x2
    extract_lets +onlyGivenNames x3
    clear_value x3
    extract_lets +onlyGivenNames x4
    clear_value x4
    refine Keeps.ite ?_ ?_
    · exact hs
    · extract_lets +onlyGivenNames x5
      clear_value x5
      extract_lets +onlyGivenNames x6
      have hx6 : Keeps ps s0 x6 := by
        subst x6
        refine Keeps.ite ?_ ?_
        · refine State.collWrite_keeps (Parts.le_trans rfl hl) ?_
          exact hs
        · refine State.collWrite_keeps (Parts.le_trans rfl hl) ?_
          exact hs
      clear_value x6
      extract_lets +onlyGivenNames x7
      have hx7 : Keeps ps s0 x7 := by
        subst x7
        refine Keeps.ite ?_ ?_
        · refine State.collWrite_keeps (Parts.le_trans rfl hl) ?_
          exact hx6
        · exact hx6
      clear_value x7
      extract_lets +onlyGivenNames x8
      clear_value x8
      refine State.modColl_keeps (Parts.le_trans rfl hl) ?_
      exact hx7

theorem unitData_keeps {c : Coll} {u : ℕ}
    (hl : Parts.le [.reports, .free, .mcs, .regs, .dies, .cores, .acct] ps = true) {s : State} (hs : Keeps ps s0 s) :
    Keeps ps s0 (unitData c u s).1 := by
  unfold unitData
  extract_lets +onlyGivenNames x1
  clear_value x1
  split
  · exact hs
  · refine State.collRead_keeps hl ?_
    exact hs

theorem Coll.scaleByte_keeps {c : Coll} {k : ℕ} {u : ℕ}
    (hl : Parts.le [.reports, .free, .mcs, .regs, .dies, .cores, .acct] ps = true) {s : State} (hs : Keeps ps s0 s) :
    Keeps ps s0 (Coll.scaleByte c k u s).1 := by
  unfold Coll.scaleByte
  split
  · rename_i y1 y2 y3 y4
    have hy2 : Keeps ps s0 y2 := by
      refine Keeps.ofEqL y4 ?_
      refine State.collRead_keeps hl ?_
      exact hs
    exact hy2
  · rename_i y5 y6 y7
    have hy6 : Keeps ps s0 y6 := by
      refine Keeps.ofEqL y7 ?_
      refine State.collRead_keeps hl ?_
      exact hs
    exact hy6

theorem unitScale_keeps {c : Coll} {u : ℕ}
    (hl : Parts.le [.reports, .free, .mcs, .regs, .dies, .cores, .acct] ps = true) {s : State} (hs : Keeps ps s0 s) :
    Keeps ps s0 (unitScale c u s).1 := by
  unfold unitScale
  split
  · refine Coll.scaleByte_keeps hl ?_
    exact hs
  · exact hs

theorem serveUnit_keeps {c : Coll} {r : ℕ} {u : ℕ}
    (hl : Parts.le [.reports, .free, .mcs, .regs, .dies, .cores, .acct, .out, .hub, .bad, .mem, .colls] ps = true)
    {s : State} (hs : Keeps ps s0 s) : Keeps ps s0 (serveUnit c r u s) := by
  unfold serveUnit
  split
  · rename_i y1 y2 y3
    have hy2 : Keeps ps s0 y2 := by
      refine Keeps.ofEqL y3 ?_
      refine unitScale_keeps (Parts.le_trans rfl hl) ?_
      exact hs
    exact hy2
  · rename_i y4 y5 y6 y7
    have hy5 : Keeps ps s0 y5 := by
      refine Keeps.ofEqL y7 ?_
      refine unitScale_keeps (Parts.le_trans rfl hl) ?_
      exact hs
    split
    · rename_i y8 y9 y10
      have hy9 : Keeps ps s0 y9 := by
        refine Keeps.ofEqL y10 ?_
        refine unitData_keeps (Parts.le_trans rfl hl) ?_
        exact hy5
      exact hy9
    · rename_i y11 y12 y13 y14
      have hy12 : Keeps ps s0 y12 := by
        refine Keeps.ofEqL y14 ?_
        refine unitData_keeps (Parts.le_trans rfl hl) ?_
        exact hy5
      refine Keeps.foldl ?_ (fun t17 a15 ht16 => ?_)
      · exact hy12
      · refine State.tell_keeps (Parts.le_trans rfl hl) ?_ ?_
        · intro a18 t19 ht20
          refine shardNote_keeps (Parts.le_trans rfl hl) ?_
          exact ht20
        · exact ht16

theorem State.useArm_keeps {c : Coll} {r : ℕ} (hl : Parts.le [.arms] ps = true) {s : State} (hs : Keeps ps s0 s) :
    Keeps ps s0 (State.useArm s c r) := by
  unfold State.useArm
  refine Keeps.upd [.arms] hl rfl rfl ?_
  exact hs

theorem serveRank_keeps {seq : ℕ} {r : ℕ}
    (hl : Parts.le [.arms, .colls, .reports, .free, .mcs, .regs, .dies, .cores, .acct, .out, .hub, .bad, .mem] ps =
      true) {s : State} (hs : Keeps ps s0 s) : Keeps ps s0 (serveRank seq r s) := by
  unfold serveRank
  split
  · exact hs
  · extract_lets +onlyGivenNames x1
    clear_value x1
    extract_lets +onlyGivenNames x2
    have hx2 : Keeps ps s0 x2 := by
      subst x2
      refine State.useArm_keeps (Parts.le_trans rfl hl) ?_
      refine State.modColl_keeps (Parts.le_trans rfl hl) ?_
      exact hs
    clear_value x2
    refine Keeps.ite ?_ ?_
    · refine Keeps.foldl ?_ (fun t5 a3 ht4 => ?_)
      · exact hx2
      · refine serveUnit_keeps (Parts.le_trans rfl hl) ?_
        exact ht4
    · exact hx2

theorem skipLate_keeps {a : Arm} (hl : Parts.le [.colls] ps = true) {s : State} (hs : Keeps ps s0 s) : Keeps ps s0
    (skipLate a s) := by
  unfold skipLate
  refine Keeps.ite ?_ ?_
  · exact hs
  · extract_lets +onlyGivenNames x1
    clear_value x1
    refine Keeps.upd [.colls] hl rfl rfl ?_
    exact hs

theorem serveWaiting_keeps {seq : ℕ}
    (hl : Parts.le [.arms, .colls, .reports, .free, .mcs, .regs, .dies, .cores, .acct, .out, .hub, .bad, .mem] ps =
      true) {s : State} (hs : Keeps ps s0 s) : Keeps ps s0 (serveWaiting seq s) := by
  unfold serveWaiting
  split
  · exact hs
  · refine Keeps.foldl ?_ (fun t3 a1 ht2 => ?_)
    · exact hs
    · refine serveRank_keeps hl ?_
      exact ht2

theorem armNote_keeps {pkt : Packet}
    (hl : Parts.le [.colls, .arms, .reports, .free, .mcs, .regs, .dies, .cores, .acct, .out, .hub, .bad, .mem] ps =
      true) {s : State} (hs : Keeps ps s0 s) : Keeps ps s0 (armNote pkt s) := by
  unfold armNote
  extract_lets +onlyGivenNames x1
  clear_value x1
  extract_lets +onlyGivenNames x2
  clear_value x2
  extract_lets +onlyGivenNames x3
  clear_value x3
  extract_lets +onlyGivenNames x4
  have hx4 : Keeps ps s0 x4 := by
    subst x4
    refine skipLate_keeps (Parts.le_trans rfl hl) ?_
    exact hs
  clear_value x4
  extract_lets +onlyGivenNames x5
  have hx5 : Keeps ps s0 x5 := by
    subst x5
    refine Keeps.upd [.arms] (Parts.le_trans rfl hl) rfl rfl ?_
    exact hx4
  clear_value x5
  refine Keeps.foldl ?_ (fun t8 a6 ht7 => ?_)
  · exact hx5
  · refine serveRank_keeps (Parts.le_trans rfl hl) ?_
    exact ht7

theorem writeScales_keeps {c : Coll}
    (hl : Parts.le [.reports, .free, .mcs, .regs, .dies, .cores, .acct, .bad, .mem] ps = true) {s : State}
    (hs : Keeps ps s0 s) : Keeps ps s0 (writeScales c s) := by
  unfold writeScales
  extract_lets +onlyGivenNames x1
  clear_value x1
  refine Keeps.ite ?_ ?_
  · refine Keeps.foldl ?_ (fun t4 a2 ht3 => ?_)
    · exact hs
    · extract_lets +onlyGivenNames x5
      clear_value x5
      split
      · rename_i y6 y7 y8
        have hy7 : Keeps ps s0 y7 := by
          refine Keeps.ofEqL y8 ?_
          refine Coll.scaleByte_keeps (Parts.le_trans rfl hl) ?_
          exact ht3
        exact hy7
      · rename_i y9 y10 y11 y12
        have hy10 : Keeps ps s0 y10 := by
          refine Keeps.ofEqL y12 ?_
          refine Coll.scaleByte_keeps (Parts.le_trans rfl hl) ?_
          exact ht3
        refine State.collWrite_keeps (Parts.le_trans rfl hl) ?_
        exact hy10
  · exact hs

theorem Coll.countCopy_keeps {c : Coll} {r : RegId} {key : ℕ} (hl : Parts.le [.regs] ps = true) {s : State}
    (hs : Keeps ps s0 s) : Keeps ps s0 (Coll.countCopy c r key s) := by
  unfold Coll.countCopy
  refine Keeps.foldl ?_ (fun t3 a1 ht2 => ?_)
  · exact hs
  · refine State.bump_keeps hl ?_
    exact ht2

theorem ownerEnd_keeps {seq : ℕ} {timedOut : Bool}
    (hl : Parts.le [.regs, .reports, .free, .mcs, .dies, .cores, .acct, .bad, .mem, .colls, .arms, .out, .hub] ps =
      true) {s : State} (hs : Keeps ps s0 s) : Keeps ps s0 (ownerEnd seq timedOut s) := by
  unfold ownerEnd
  split
  · exact hs
  · extract_lets +onlyGivenNames x1
    have hx1 : Keeps ps s0 x1 := by
      subst x1
      refine Keeps.foldl ?_ (fun t4 a2 ht3 => ?_)
      · refine writeScales_keeps (Parts.le_trans rfl hl) ?_
        exact hs
      · refine Coll.countCopy_keeps (Parts.le_trans rfl hl) ?_
        exact ht3
    clear_value x1
    extract_lets +onlyGivenNames x5
    have hx5 : Keeps ps s0 x5 := by
      subst x5
      refine State.modColl_keeps (Parts.le_trans rfl hl) ?_
      exact hx1
    clear_value x5
    refine Keeps.ite ?_ ?_
    · refine serveWaiting_keeps (Parts.le_trans rfl hl) ?_
      exact hx5
    · exact hx5

theorem addInto_keeps {x : CtxId} {src : ℕ} {dst : ℕ} {n : ℕ} {ce : List ℕ}
    (hl : Parts.le [.mcs, .regs, .dies, .cores, .acct, .reports, .mem] ps = true) {s : State} (hs : Keeps ps s0 s) :
    Keeps ps s0 (addInto x src dst n ce s) := by
  unfold addInto
  extract_lets +onlyGivenNames x1
  have hx1 : Keeps ps s0 x1 := by
    subst x1
    refine State.countCes_keeps (Parts.le_trans rfl hl) ?_
    refine State.chargeRuns_keeps (Parts.le_trans rfl hl) ?_
    refine State.countBytes_keeps (Parts.le_trans rfl hl) ?_
    exact hs
  clear_value x1
  split
  · refine State.collFault_keeps (Parts.le_trans rfl hl) ?_
    exact hx1
  · refine State.countBytes_keeps (Parts.le_trans rfl hl) ?_
    refine Keeps.foldl ?_ (fun t4 a2 ht3 => ?_)
    · exact hx1
    · extract_lets +onlyGivenNames x5
      clear_value x5
      extract_lets +onlyGivenNames x6
      clear_value x6
      refine State.bump_keeps (Parts.le_trans rfl hl) ?_
      refine State.devWrite_keeps _ _ (Parts.le_trans rfl hl) ?_
      exact ht3

theorem commitOne_keeps {c : Coll} {copy : ℕ} {ce : List ℕ}
    (hl : Parts.le [.mcs, .regs, .dies, .cores, .acct, .reports, .mem, .colls, .trcTok, .free, .bad, .trcSeq,
      .trcDrop] ps = true) {s : State} (hs : Keeps ps s0 s) : Keeps ps s0 (commitOne c copy ce s) := by
  unfold commitOne
  extract_lets +onlyGivenNames x1
  clear_value x1
  extract_lets +onlyGivenNames x2
  clear_value x2
  extract_lets +onlyGivenNames x3
  clear_value x3
  extract_lets +onlyGivenNames x4
  clear_value x4
  extract_lets +onlyGivenNames x5
  have hx5 : Keeps ps s0 x5 := by
    subst x5
    refine Keeps.ite ?_ ?_
    · exact hs
    · refine addInto_keeps (Parts.le_trans rfl hl) ?_
      exact hs
  clear_value x5
  extract_lets +onlyGivenNames x6
  have hx6 : Keeps ps s0 x6 := by
    subst x6
    refine State.modColl_keeps (Parts.le_trans rfl hl) ?_
    exact hx5
  clear_value x6
  refine State.traceRec_keeps (Parts.le_trans rfl hl) ?_
  exact hx6

theorem commitRun_keeps {seq : ℕ} {ce : List ℕ} {a2 : ℕ}
    (hl : Parts.le [.regs, .reports, .free, .mcs, .dies, .cores, .acct, .bad, .mem, .colls, .arms, .out, .hub,
      .trcTok, .trcSeq, .trcDrop] ps = true) {s : State} (hs : Keeps ps s0 s) : Keeps ps s0 (commitRun seq ce a2 s) :=
    by
  induction a2 generalizing seq ce s with
  | zero =>
    unfold commitRun
    exact hs
  | succ n ih =>
    unfold commitRun
    split
    · exact hs
    · refine Keeps.ite ?_ ?_
      · refine ownerEnd_keeps (Parts.le_trans rfl hl) ?_
        exact hs
      · split
        · exact hs
        · apply ih
          refine commitOne_keeps (Parts.le_trans rfl hl) ?_
          exact hs

theorem copyComplete_keeps {c : Coll} {key : ℕ} {ce : List ℕ}
    (hl : Parts.le [.regs, .colls, .reports, .free, .mcs, .dies, .cores, .acct, .bad, .mem, .arms, .out, .hub,
      .trcTok, .trcSeq, .trcDrop] ps = true) {s : State} (hs : Keeps ps s0 s) : Keeps ps s0 (copyComplete c key ce s)
    := by
  unfold copyComplete
  extract_lets +onlyGivenNames x1
  clear_value x1
  refine Keeps.ite ?_ ?_
  · refine Coll.countCopy_keeps (Parts.le_trans rfl hl) ?_
    refine State.modColl_keeps (Parts.le_trans rfl hl) ?_
    exact hs
  · refine commitRun_keeps (Parts.le_trans rfl hl) ?_
    refine State.modColl_keeps (Parts.le_trans rfl hl) ?_
    exact hs

theorem addValues_keeps {x : CtxId} {a : ℕ} {vals : List ℕ} {ce : List ℕ}
    (hl : Parts.le [.mcs, .regs, .dies, .cores, .acct, .reports, .mem] ps = true) {s : State} (hs : Keeps ps s0 s) :
    Keeps ps s0 (addValues x a vals ce s) := by
  unfold addValues
  extract_lets +onlyGivenNames x1
  clear_value x1
  extract_lets +onlyGivenNames x2
  have hx2 : Keeps ps s0 x2 := by
    subst x2
    refine State.readCe_keeps (Parts.le_trans rfl hl) ?_
    refine State.chargeBytes_keeps (Parts.le_trans rfl hl) ?_
    exact hs
  clear_value x2
  split
  · refine State.collFault_keeps (Parts.le_trans rfl hl) ?_
    exact hx2
  · refine State.bump_keeps (Parts.le_trans rfl hl) ?_
    refine State.countBytes_keeps (Parts.le_trans rfl hl) ?_
    refine Keeps.foldl ?_ (fun t5 a3 ht4 => ?_)
    · exact hx2
    · split
      refine State.devWrite_keeps _ _ (Parts.le_trans rfl hl) ?_
      exact ht4

theorem addContrib_keeps {c : Coll} {key : ℕ} {pkt : Packet} {ce : List ℕ}
    (hl : Parts.le [.colls, .mcs, .regs, .dies, .cores, .acct, .reports, .mem] ps = true) {s : State}
    (hs : Keeps ps s0 s) : Keeps ps s0 (addContrib c key pkt ce s) := by
  unfold addContrib
  extract_lets +onlyGivenNames x1
  clear_value x1
  extract_lets +onlyGivenNames x2
  clear_value x2
  extract_lets +onlyGivenNames x3
  clear_value x3
  extract_lets +onlyGivenNames x4
  clear_value x4
  extract_lets +onlyGivenNames x5
  clear_value x5
  refine Keeps.ite ?_ ?_
  · refine State.modColl_keeps (Parts.le_trans rfl hl) ?_
    exact hs
  · extract_lets +onlyGivenNames x6
    clear_value x6
    extract_lets +onlyGivenNames x7
    have hx7 : Keeps ps s0 x7 := by
      subst x7
      refine Keeps.ite ?_ ?_
      · refine addValues_keeps (Parts.le_trans rfl hl) ?_
        exact hs
      · exact hs
    clear_value x7
    extract_lets +onlyGivenNames x8
    clear_value x8
    extract_lets +onlyGivenNames x9
    clear_value x9
    refine State.modColl_keeps (Parts.le_trans rfl hl) ?_
    exact hx7

theorem noteCopy_keeps {seq : ℕ} {key : ℕ} {ctrl : ℕ} {ce : List ℕ} {f : Coll → Coll}
    (hl : Parts.le [.colls, .regs, .reports, .free, .mcs, .dies, .cores, .acct, .bad, .mem, .arms, .out, .hub,
      .trcTok, .trcSeq, .trcDrop] ps = true) {s : State} (hs : Keeps ps s0 s) : Keeps ps s0
    (noteCopy seq key ctrl ce f s) := by
  unfold noteCopy
  extract_lets +onlyGivenNames x1
  clear_value x1
  extract_lets +onlyGivenNames x2
  clear_value x2
  extract_lets +onlyGivenNames x3
  have hx3 : Keeps ps s0 x3 := by
    subst x3
    refine State.modColl_keeps (Parts.le_trans rfl hl) ?_
    exact hs
  clear_value x3
  split
  · exact hx3
  · refine Keeps.ite ?_ ?_
    · refine copyComplete_keeps (Parts.le_trans rfl hl) ?_
      exact hx3
    · exact hx3

theorem contribNote_keeps {ce : List ℕ} {pkt : Packet}
    (hl : Parts.le [.regs, .colls, .reports, .free, .mcs, .dies, .cores, .acct, .bad, .mem, .arms, .out, .hub,
      .trcTok, .trcSeq, .trcDrop] ps = true) {s : State} (hs : Keeps ps s0 s) : Keeps ps s0 (contribNote ce pkt s) :=
    by
  unfold contribNote
  extract_lets +onlyGivenNames x1
  clear_value x1
  split
  · refine State.countLate_keeps (Parts.le_trans rfl hl) ?_
    exact hs
  · split
    · refine State.countLate_keeps (Parts.le_trans rfl hl) ?_
      exact hs
    · refine noteCopy_keeps (Parts.le_trans rfl hl) ?_
      refine addContrib_keeps (Parts.le_trans rfl hl) ?_
      exact hs

theorem endNote_keeps {ce : List ℕ} {pkt : Packet}
    (hl : Parts.le [.regs, .colls, .reports, .free, .mcs, .dies, .cores, .acct, .bad, .mem, .arms, .out, .hub,
      .trcTok, .trcSeq, .trcDrop] ps = true) {s : State} (hs : Keeps ps s0 s) : Keeps ps s0 (endNote ce pkt s) := by
  unfold endNote
  extract_lets +onlyGivenNames x1
  clear_value x1
  split
  · refine State.countLate_keeps (Parts.le_trans rfl hl) ?_
    exact hs
  · split
    · refine State.countLate_keeps (Parts.le_trans rfl hl) ?_
      exact hs
    · refine noteCopy_keeps (Parts.le_trans rfl hl) ?_
      exact hs

theorem flushEntry_keeps {z : Comb}
    (hl : Parts.le [.combs, .colls, .acct, .regs, .out, .hub, .reports, .free, .mcs, .dies, .cores, .bad, .mem,
      .arms, .trcTok, .trcSeq, .trcDrop] ps = true) {s : State} (hs : Keeps ps s0 s) : Keeps ps s0 (flushEntry z s) :=
    by
  unfold flushEntry
  extract_lets +onlyGivenNames x1
  have hx1 : Keeps ps s0 x1 := by
    subst x1
    refine Keeps.upd [.combs] (Parts.le_trans rfl hl) rfl rfl ?_
    exact hs
  clear_value x1
  split
  · exact hx1
  · extract_lets +onlyGivenNames x2
    have hx2 : Keeps ps s0 x2 := by
      subst x2
      refine State.modColl_keeps (Parts.le_trans rfl hl) ?_
      exact hx1
    clear_value x2
    extract_lets +onlyGivenNames x3
    clear_value x3
    extract_lets +onlyGivenNames x4
    clear_value x4
    extract_lets +onlyGivenNames x5
    clear_value x5
    refine State.tell_keeps (Parts.le_trans rfl hl) ?_ ?_
    · intro a6 t7 ht8
      refine contribNote_keeps (Parts.le_trans rfl hl) ?_
      exact ht8
    · exact hx2

theorem combine_keeps {c : Coll} {owner : ℕ} {line : ℕ} {e : ℤ} {cells : List (ℕ × ℤ)}
    (hl : Parts.le [.combs, .colls, .acct, .regs, .out, .hub, .reports, .free, .mcs, .dies, .cores, .bad, .mem,
      .arms, .trcTok, .trcSeq, .trcDrop] ps = true) {s : State} (hs : Keeps ps s0 s) : Keeps ps s0
    (combine c owner line e cells s) := by
  unfold combine
  extract_lets +onlyGivenNames x1
  clear_value x1
  extract_lets +onlyGivenNames x2
  clear_value x2
  extract_lets +onlyGivenNames x3
  clear_value x3
  extract_lets +onlyGivenNames x4
  have hx4 : Keeps ps s0 x4 := by
    subst x4
    split
    · refine Keeps.ite ?_ ?_
      · refine flushEntry_keeps hl ?_
        refine State.bump_keeps (Parts.le_trans rfl hl) ?_
        exact hs
      · exact hs
    · exact hs
  clear_value x4
  extract_lets +onlyGivenNames x5
  have hx5 : Keeps ps s0 x5 := by
    subst x5
    refine Keeps.ite ?_ ?_
    · exact hs
    · refine Keeps.upd [.combs] (Parts.le_trans rfl hl) rfl rfl ?_
      exact hx4
  clear_value x5
  extract_lets +onlyGivenNames x6
  clear_value x6
  extract_lets +onlyGivenNames x7
  have hx7 : Keeps ps s0 x7 := by
    subst x7
    refine Keeps.upd [.combs] (Parts.le_trans rfl hl) rfl rfl ?_
    exact hx5
  clear_value x7
  extract_lets +onlyGivenNames x8
  have hx8 : Keeps ps s0 x8 := by
    subst x8
    refine State.bump_keeps (Parts.le_trans rfl hl) ?_
    exact hx7
  clear_value x8
  split
  · refine Keeps.ite ?_ ?_
    · refine flushEntry_keeps hl ?_
      refine State.bump_keeps (Parts.le_trans rfl hl) ?_
      exact hx8
    · exact hx8
  · exact hx8

theorem addLine_keeps {c : Coll} {owner : ℕ} {line : ℕ} {cells : List (ℕ × ℤ)}
    (hl : Parts.le [.combs, .colls, .acct, .regs, .out, .hub, .reports, .free, .mcs, .dies, .cores, .bad, .mem,
      .arms, .trcTok, .trcSeq, .trcDrop] ps = true) {s : State} (hs : Keeps ps s0 s) : Keeps ps s0
    (addLine c owner line cells s) := by
  unfold addLine
  refine Keeps.ite ?_ ?_
  · refine combine_keeps hl ?_
    exact hs
  · split
    · rename_i y1 y2 y3 y4
      have hy2 : Keeps ps s0 y2 := by
        refine Keeps.ofEqL y4 ?_
        refine Coll.scaleByte_keeps (Parts.le_trans rfl hl) ?_
        exact hs
      refine combine_keeps hl ?_
      exact hy2
    · rename_i y5 y6 y7
      have hy6 : Keeps ps s0 y6 := by
        refine Keeps.ofEqL y7 ?_
        refine Coll.scaleByte_keeps (Parts.le_trans rfl hl) ?_
        exact hs
      exact hy6

theorem raccEffect_keeps {e : Env}
    (hl : Parts.le [.reports, .dies, .combs, .colls, .acct, .regs, .out, .hub, .free, .mcs, .cores, .bad, .mem,
      .arms, .trcTok, .trcSeq, .trcDrop] ps = true) {s : State} (hs : Keeps ps s0 s) : Keeps ps s0 (raccEffect e s) :=
    by
  unfold raccEffect
  refine Keeps.ite ?_ ?_
  · exact hs
  · split
    · exact hs
    · extract_lets +onlyGivenNames x1
      clear_value x1
      refine Keeps.ite ?_ ?_
      · refine State.raise_keeps (Parts.le_trans rfl hl) ?_
        exact hs
      · extract_lets +onlyGivenNames x2
        clear_value x2
        refine Keeps.ite ?_ ?_
        · refine State.countMove_keeps (Parts.le_trans rfl hl) ?_
          refine Keeps.foldl ?_ (fun t5 a3 ht4 => ?_)
          · exact hs
          · refine addLine_keeps (Parts.le_trans rfl hl) ?_
            exact ht4
        · refine State.modColl_keeps (Parts.le_trans rfl hl) ?_
          exact hs

theorem execRacc_keeps {d : Die} {c : LCore} {ev : RecEv}
    (hl : Parts.le [.mcs, .regs, .dies, .cores, .reports, .store, .trcTok, .free, .mem, .acct, .bad, .trcSeq,
      .trcDrop, .hub, .out, .fns, .combs, .colls, .arms] ps = true) {s : State} (hs : Keeps ps s0 s) {s' : State}
    (e : execRacc d c ev s = .next s') : Keeps ps s0 s' := by
  unfold execRacc at e
  refine Keeps.next ?_ e
  split
  · exact hs
  · refine Keeps.ite ?_ ?_
    · refine runRecord_keeps (Parts.le_trans rfl hl) ?_ ?_
      · intro a1 t2 ht3
        refine raccEffect_keeps (Parts.le_trans rfl hl) ?_
        exact ht3
      · exact hs
    · exact hs

theorem sendExps_keeps {c : Coll} {o : ℕ}
    (hl : Parts.le [.reports, .free, .mcs, .regs, .dies, .cores, .acct, .combs, .colls, .out, .hub, .bad, .mem,
      .arms, .trcTok, .trcSeq, .trcDrop] ps = true) {s : State} (hs : Keeps ps s0 s) : Keeps ps s0 (sendExps c o s) :=
    by
  unfold sendExps
  extract_lets +onlyGivenNames x1
  clear_value x1
  extract_lets +onlyGivenNames x2
  clear_value x2
  refine Keeps.ite ?_ ?_
  · exact hs
  · refine Keeps.foldl ?_ (fun t5 a3 ht4 => ?_)
    · exact hs
    · extract_lets +onlyGivenNames x6
      clear_value x6
      extract_lets +onlyGivenNames x7
      clear_value x7
      split
      · rename_i y8 y9 y10
        have hy9 : Keeps ps s0 y9 := by
          refine Keeps.ofEqL y10 ?_
          refine State.collRead_keeps (Parts.le_trans rfl hl) ?_
          exact ht4
        exact hy9
      · rename_i y11 y12 y13 y14
        have hy12 : Keeps ps s0 y12 := by
          refine Keeps.ofEqL y14 ?_
          refine State.collRead_keeps (Parts.le_trans rfl hl) ?_
          exact ht4
        extract_lets +onlyGivenNames x15
        clear_value x15
        refine flushEntry_keeps (Parts.le_trans rfl hl) ?_
        exact hy12

theorem sendClose_keeps {seq : ℕ}
    (hl : Parts.le [.reports, .free, .mcs, .regs, .dies, .cores, .acct, .combs, .colls, .out, .hub, .bad, .mem,
      .arms, .trcTok, .trcSeq, .trcDrop] ps = true) {s : State} (hs : Keeps ps s0 s) : Keeps ps s0 (sendClose seq s)
    := by
  unfold sendClose
  split
  · exact hs
  · extract_lets +onlyGivenNames x1
    clear_value x1
    extract_lets +onlyGivenNames x2
    have hx2 : Keeps ps s0 x2 := by
      subst x2
      refine Keeps.ite ?_ ?_
      · refine Keeps.foldl ?_ (fun t5 a3 ht4 => ?_)
        · exact hs
        · refine sendExps_keeps hl ?_
          exact ht4
      · refine Keeps.foldl ?_ (fun t8 a6 ht7 => ?_)
        · exact hs
        · refine flushEntry_keeps (Parts.le_trans rfl hl) ?_
          exact ht7
    clear_value x2
    extract_lets +onlyGivenNames x9
    have hx9 : Keeps ps s0 x9 := by
      subst x9
      refine Keeps.foldl ?_ (fun t12 a10 ht11 => ?_)
      · exact hx2
      · extract_lets +onlyGivenNames x13
        clear_value x13
        extract_lets +onlyGivenNames x14
        clear_value x14
        refine State.tell_keeps (Parts.le_trans rfl hl) ?_ ?_
        · intro a15 t16 ht17
          refine endNote_keeps (Parts.le_trans rfl hl) ?_
          exact ht17
        · exact ht11
    clear_value x9
    refine State.modColl_keeps (Parts.le_trans rfl hl) ?_
    exact hx9

theorem execSendClose_keeps {seq : ℕ}
    (hl : Parts.le [.reports, .free, .mcs, .regs, .dies, .cores, .acct, .combs, .colls, .out, .hub, .bad, .mem,
      .arms, .trcTok, .trcSeq, .trcDrop] ps = true) {s : State} (hs : Keeps ps s0 s) {s' : State}
    (e : execSendClose seq s = .next s') : Keeps ps s0 s' := by
  unfold execSendClose at e
  refine Keeps.next ?_ e
  split
  · refine Keeps.ite ?_ ?_
    · refine sendClose_keeps hl ?_
      exact hs
    · exact hs
  · exact hs

theorem execOwnerTimeout_keeps {seq : ℕ}
    (hl : Parts.le [.regs, .reports, .free, .mcs, .dies, .cores, .acct, .bad, .mem, .colls, .arms, .out, .hub] ps =
      true) {s : State} (hs : Keeps ps s0 s) {s' : State} (e : execOwnerTimeout seq s = .next s') : Keeps ps s0 s' :=
    by
  unfold execOwnerTimeout at e
  refine Keeps.next ?_ e
  split
  · refine Keeps.ite ?_ ?_
    · refine ownerEnd_keeps hl ?_
      exact hs
    · exact hs
  · exact hs

theorem execSenderTimeout_keeps {seq : ℕ} (hl : Parts.le [.colls] ps = true) {s : State} (hs : Keeps ps s0 s)
    {s' : State} (e : execSenderTimeout seq s = .next s') : Keeps ps s0 s' := by
  unfold execSenderTimeout at e
  refine Keeps.next ?_ e
  split
  · refine Keeps.ite ?_ ?_
    · refine State.modColl_keeps hl ?_
      exact hs
    · exact hs
  · exact hs

theorem execGatherPartTimeout_keeps {seq : ℕ} {part : Fin 16} (hl : Parts.le [.colls] ps = true) {s : State}
    (hs : Keeps ps s0 s) {s' : State} (e : execGatherPartTimeout seq part s = .next s') : Keeps ps s0 s' := by
  unfold execGatherPartTimeout at e
  refine Keeps.next ?_ e
  split
  · refine Keeps.ite ?_ ?_
    · refine State.modColl_keeps hl ?_
      exact hs
    · exact hs
  · exact hs

theorem Coll.tellRank_keeps {c : Coll} {act : Packet → State → State} {rank : ℕ} {pkt : Packet}
    (hl : Parts.le [.acct, .regs, .out, .hub] ps = true) (hact : ∀ b0 t, Keeps ps s0 t → Keeps ps s0 (act b0 t))
    {s : State} (hs : Keeps ps s0 s) : Keeps ps s0 (Coll.tellRank c act rank pkt s) := by
  unfold Coll.tellRank
  refine Keeps.ite ?_ ?_
  · apply hact
    exact hs
  · refine State.tell_keeps hl ?_ ?_
    · intro a1 t2 ht3
      apply hact
      exact ht3
    · exact hs

theorem sendUnit_keeps {act : Packet → State → State} {c : Coll} {kind : ℕ} {x : ℕ} {data : List Byte}
    (hl : Parts.le [.acct, .regs, .out, .hub] ps = true) (hact : ∀ b0 t, Keeps ps s0 t → Keeps ps s0 (act b0 t))
    {s : State} (hs : Keeps ps s0 s) : Keeps ps s0 (sendUnit act c kind x data s) := by
  unfold sendUnit
  refine Keeps.foldl ?_ (fun t3 a1 ht2 => ?_)
  · exact hs
  · refine Coll.tellRank_keeps hl ?_ ?_
    · intro a4 t5 ht6
      apply hact
      exact ht6
    · exact ht2

theorem State.modCycle_keeps {seq : ℕ} {h : ℕ} {f : PermCycle → PermCycle} (hl : Parts.le [.colls] ps = true)
    {s : State} (hs : Keeps ps s0 s) : Keeps ps s0 (State.modCycle s seq h f) := by
  unfold State.modCycle
  refine State.modColl_keeps hl ?_
  exact hs

theorem sendFrom_keeps {act : Packet → State → State} {c : Coll} {kind : ℕ} {x : ℕ} {a : ℕ}
    (hl : Parts.le [.reports, .free, .mcs, .regs, .dies, .cores, .acct, .out, .hub] ps = true)
    (hact : ∀ b0 t, Keeps ps s0 t → Keeps ps s0 (act b0 t)) {s : State} (hs : Keeps ps s0 s) : Keeps ps s0
    (sendFrom act c kind x a s) := by
  unfold sendFrom
  split
  · rename_i y1 y2 y3 y4
    have hy2 : Keeps ps s0 y2 := by
      refine Keeps.ofEqL y4 ?_
      refine State.collRead_keeps (Parts.le_trans rfl hl) ?_
      exact hs
    refine sendUnit_keeps (Parts.le_trans rfl hl) ?_ ?_
    · intro a5 t6 ht7
      apply hact
      exact ht7
    · exact hy2
  · rename_i y8 y9 y10
    have hy9 : Keeps ps s0 y9 := by
      refine Keeps.ofEqL y10 ?_
      refine State.collRead_keeps (Parts.le_trans rfl hl) ?_
      exact hs
    exact hy9

theorem nextMove_keeps {act : Packet → State → State} {c : Coll} {z : PermCycle}
    (hl : Parts.le [.reports, .free, .mcs, .regs, .dies, .cores, .acct, .out, .hub] ps = true)
    (hact : ∀ b0 t, Keeps ps s0 t → Keeps ps s0 (act b0 t)) {s : State} (hs : Keeps ps s0 s) : Keeps ps s0
    (nextMove act c z s) := by
  unfold nextMove
  extract_lets +onlyGivenNames x1
  clear_value x1
  refine Keeps.ite ?_ ?_
  · refine sendFrom_keeps hl ?_ ?_
    · intro a2 t3 ht4
      apply hact
      exact ht4
    · exact hs
  · refine Coll.tellRank_keeps (Parts.le_trans rfl hl) ?_ ?_
    · intro a5 t6 ht7
      apply hact
      exact ht7
    · exact hs

theorem startCycle_keeps {act : Packet → State → State} {c : Coll} {h : ℕ} {half : ℕ}
    (hl : Parts.le [.colls, .reports, .free, .mcs, .regs, .dies, .cores, .acct, .out, .hub, .bad, .mem] ps = true)
    (hact : ∀ b0 t, Keeps ps s0 t → Keeps ps s0 (act b0 t)) {s : State} (hs : Keeps ps s0 s) : Keeps ps s0
    (startCycle act c h half s) := by
  unfold startCycle
  extract_lets +onlyGivenNames x1
  clear_value x1
  extract_lets +onlyGivenNames x2
  have hx2 : Keeps ps s0 x2 := by
    subst x2
    refine State.modColl_keeps (Parts.le_trans rfl hl) ?_
    exact hs
  clear_value x2
  refine Keeps.ite ?_ ?_
  · split
    · rename_i y3 y4 y5 y6
      have hy4 : Keeps ps s0 y4 := by
        refine Keeps.ofEqL y6 ?_
        refine State.collRead_keeps (Parts.le_trans rfl hl) ?_
        exact hx2
      refine nextMove_keeps (Parts.le_trans rfl hl) ?_ ?_
      · intro a7 t8 ht9
        apply hact
        exact ht9
      · refine State.collWrite_keeps (Parts.le_trans rfl hl) ?_
        exact hy4
    · rename_i y10 y11 y12
      have hy11 : Keeps ps s0 y11 := by
        refine Keeps.ofEqL y12 ?_
        refine State.collRead_keeps (Parts.le_trans rfl hl) ?_
        exact hx2
      exact hy11
  · exact hx2

theorem leadMore_keeps {act : Packet → State → State} {seq : ℕ} {a2 : ℕ}
    (hl : Parts.le [.colls, .reports, .free, .mcs, .regs, .dies, .cores, .acct, .out, .hub, .bad, .mem] ps = true)
    (hact : ∀ b0 t, Keeps ps s0 t → Keeps ps s0 (act b0 t)) {s : State} (hs : Keeps ps s0 s) : Keeps ps s0
    (leadMore act seq a2 s) := by
  induction a2 generalizing s with
  | zero =>
    unfold leadMore
    exact hs
  | succ n ih =>
    unfold leadMore
    split
    · exact hs
    · split
      · apply ih
        refine startCycle_keeps hl ?_ ?_
        · intro a1 t2 ht3
          apply hact
          exact ht3
        · refine State.modColl_keeps (Parts.le_trans rfl hl) ?_
          exact hs
      · exact hs

theorem hopAdvance_keeps {act : Packet → State → State} {c : Coll} {x : ℕ}
    (hl : Parts.le [.colls, .reports, .free, .mcs, .regs, .dies, .cores, .acct, .out, .hub, .bad, .mem] ps = true)
    (hact : ∀ b0 t, Keeps ps s0 t → Keeps ps s0 (act b0 t)) {s : State} (hs : Keeps ps s0 s) : Keeps ps s0
    (hopAdvance act c x s) := by
  unfold hopAdvance
  split
  · exact hs
  · extract_lets +onlyGivenNames x1
    clear_value x1
    refine Keeps.ite ?_ ?_
    · extract_lets +onlyGivenNames x2
      have hx2 : Keeps ps s0 x2 := by
        subst x2
        refine State.modColl_keeps (Parts.le_trans rfl hl) ?_
        refine State.modCycle_keeps (Parts.le_trans rfl hl) ?_
        exact hs
      clear_value x2
      refine leadMore_keeps hl ?_ ?_
      · intro a3 t4 ht5
        apply hact
        exact ht5
      · exact hx2
    · extract_lets +onlyGivenNames x6
      clear_value x6
      refine nextMove_keeps (Parts.le_trans rfl hl) ?_ ?_
      · intro a7 t8 ht9
        apply hact
        exact ht9
      · refine State.modCycle_keeps (Parts.le_trans rfl hl) ?_
        exact hs

theorem hopLanded_keeps {act : Packet → State → State} {c : Coll} {x : ℕ}
    (hl : Parts.le [.colls, .acct, .regs, .out, .hub] ps = true)
    (hact : ∀ b0 t, Keeps ps s0 t → Keeps ps s0 (act b0 t)) {s : State} (hs : Keeps ps s0 s) : Keeps ps s0
    (hopLanded act c x s) := by
  unfold hopLanded
  extract_lets +onlyGivenNames x1
  clear_value x1
  extract_lets +onlyGivenNames x2
  clear_value x2
  extract_lets +onlyGivenNames x3
  have hx3 : Keeps ps s0 x3 := by
    subst x3
    refine State.modColl_keeps (Parts.le_trans rfl hl) ?_
    exact hs
  clear_value x3
  extract_lets +onlyGivenNames x4
  have hx4 : Keeps ps s0 x4 := by
    subst x4
    refine Keeps.ite ?_ ?_
    · refine State.modCycle_keeps (Parts.le_trans rfl hl) ?_
      exact hx3
    · exact hx3
  clear_value x4
  extract_lets +onlyGivenNames x5
  clear_value x5
  refine Coll.tellRank_keeps (Parts.le_trans rfl hl) ?_ ?_
  · intro a6 t7 ht8
    apply hact
    exact ht8
  · exact hx4

theorem hopPiece_keeps {act : Packet → State → State} {c : Coll} {x : ℕ} {last : Bool} {pkt : Packet}
    (hl : Parts.le [.reports, .acct, .regs, .bad, .mem, .colls, .out, .hub] ps = true)
    (hact : ∀ b0 t, Keeps ps s0 t → Keeps ps s0 (act b0 t)) {s : State} (hs : Keeps ps s0 s) : Keeps ps s0
    (hopPiece act c x last pkt s) := by
  unfold hopPiece
  extract_lets +onlyGivenNames x1
  clear_value x1
  extract_lets +onlyGivenNames x2
  clear_value x2
  extract_lets +onlyGivenNames x3
  clear_value x3
  refine Keeps.ite ?_ ?_
  · exact hs
  · extract_lets +onlyGivenNames x4
    clear_value x4
    extract_lets +onlyGivenNames x5
    have hx5 : Keeps ps s0 x5 := by
      subst x5
      refine State.collWrite_keeps (Parts.le_trans rfl hl) ?_
      exact hs
    clear_value x5
    extract_lets +onlyGivenNames x6
    have hx6 : Keeps ps s0 x6 := by
      subst x6
      refine State.modColl_keeps (Parts.le_trans rfl hl) ?_
      exact hx5
    clear_value x6
    refine Keeps.ite ?_ ?_
    · exact hx6
    · refine Keeps.ite ?_ ?_
      · refine State.modColl_keeps (Parts.le_trans rfl hl) ?_
        refine State.modCycle_keeps (Parts.le_trans rfl hl) ?_
        exact hx6
      · refine hopLanded_keeps (Parts.le_trans rfl hl) ?_ ?_
        · intro a7 t8 ht9
          apply hact
          exact ht9
        · exact hx6

theorem hopAct_keeps {act : Packet → State → State} {c : Coll} {pkt : Packet}
    (hl : Parts.le [.colls, .reports, .free, .mcs, .regs, .dies, .cores, .acct, .out, .hub, .bad, .mem] ps = true)
    (hact : ∀ b0 t, Keeps ps s0 t → Keeps ps s0 (act b0 t)) {s : State} (hs : Keeps ps s0 s) : Keeps ps s0
    (hopAct act c pkt s) := by
  unfold hopAct
  extract_lets +onlyGivenNames x1
  clear_value x1
  extract_lets +onlyGivenNames x2
  clear_value x2
  extract_lets +onlyGivenNames x3
  have hx3 : Keeps ps s0 x3 := by
    subst x3
    refine State.modCycle_keeps (Parts.le_trans rfl hl) ?_
    exact hs
  clear_value x3
  refine Keeps.ite ?_ ?_
  · refine sendFrom_keeps (Parts.le_trans rfl hl) ?_ ?_
    · intro a4 t5 ht6
      apply hact
      exact ht6
    · exact hx3
  · refine Keeps.ite ?_ ?_
    · refine hopAdvance_keeps hl ?_ ?_
      · intro a7 t8 ht9
        apply hact
        exact ht9
      · exact hx3
    · refine hopPiece_keeps (Parts.le_trans rfl hl) ?_ ?_
      · intro a10 t11 ht12
        apply hact
        exact ht12
      · exact hx3

theorem hopNote_keeps {a0 : ℕ} {a1 : Packet}
    (hl : Parts.le [.hops, .colls, .reports, .free, .mcs, .regs, .dies, .cores, .acct, .out, .hub, .bad, .mem] ps =
      true) {s : State} (hs : Keeps ps s0 s) : Keeps ps s0 (hopNote a0 a1 s) := by
  induction a0 generalizing a1 s with
  | zero =>
    unfold hopNote
    exact hs
  | succ n ih =>
    unfold hopNote
    split
    · refine Keeps.upd [.hops] (Parts.le_trans rfl hl) rfl rfl ?_
      exact hs
    · refine hopAct_keeps (Parts.le_trans rfl hl) ?_ ?_
      · intro a1 t2 ht3
        apply ih
        exact ht3
      · exact hs

theorem hopIn_keeps {pkt : Packet}
    (hl : Parts.le [.hops, .colls, .reports, .free, .mcs, .regs, .dies, .cores, .acct, .out, .hub, .bad, .mem] ps =
      true) {s : State} (hs : Keeps ps s0 s) : Keeps ps s0 (hopIn pkt s) := by
  unfold hopIn
  refine hopNote_keeps hl ?_
  exact hs

theorem startPermute_keeps {seq : ℕ}
    (hl : Parts.le [.colls, .reports, .free, .mcs, .regs, .dies, .cores, .acct, .out, .hub, .bad, .mem, .hops] ps =
      true) {s : State} (hs : Keeps ps s0 s) : Keeps ps s0 (startPermute seq s) := by
  unfold startPermute
  split
  · exact hs
  · extract_lets +onlyGivenNames x1
    clear_value x1
    extract_lets +onlyGivenNames x2
    have hx2 : Keeps ps s0 x2 := by
      subst x2
      refine Keeps.foldl ?_ (fun t5 a3 ht4 => ?_)
      · exact hs
      · refine startCycle_keeps (Parts.le_trans rfl hl) ?_ ?_
        · intro a6 t7 ht8
          refine hopIn_keeps (Parts.le_trans rfl hl) ?_
          exact ht8
        · exact ht4
    clear_value x2
    extract_lets +onlyGivenNames x9
    clear_value x9
    extract_lets +onlyGivenNames x10
    have hx10 : Keeps ps s0 x10 := by
      subst x10
      refine leadMore_keeps (Parts.le_trans rfl hl) ?_ ?_
      · intro a11 t12 ht13
        refine hopIn_keeps (Parts.le_trans rfl hl) ?_
        exact ht13
      · refine State.modColl_keeps (Parts.le_trans rfl hl) ?_
        exact hx2
    clear_value x10
    extract_lets +onlyGivenNames x14
    clear_value x14
    refine Keeps.foldl ?_ (fun t17 a15 ht16 => ?_)
    · refine Keeps.upd [.hops] (Parts.le_trans rfl hl) rfl rfl ?_
      exact hx10
    · refine hopIn_keeps (Parts.le_trans rfl hl) ?_
      exact ht16

theorem abandonCycle_keeps {seq : ℕ} {z : PermCycle}
    (hl : Parts.le [.colls, .reports, .free, .mcs, .regs, .dies, .cores, .acct, .out, .hub, .hops, .bad, .mem] ps =
      true) {s : State} (hs : Keeps ps s0 s) : Keeps ps s0 (abandonCycle seq z s) := by
  unfold abandonCycle
  split
  · exact hs
  · extract_lets +onlyGivenNames x1
    clear_value x1
    extract_lets +onlyGivenNames x2
    have hx2 : Keeps ps s0 x2 := by
      subst x2
      refine State.modCycle_keeps (Parts.le_trans rfl hl) ?_
      exact hs
    clear_value x2
    extract_lets +onlyGivenNames x3
    have hx3 : Keeps ps s0 x3 := by
      subst x3
      refine State.modColl_keeps (Parts.le_trans rfl hl) ?_
      exact hx2
    clear_value x3
    refine Keeps.ite ?_ ?_
    · refine sendFrom_keeps (Parts.le_trans rfl hl) ?_ ?_
      · intro a4 t5 ht6
        refine hopIn_keeps (Parts.le_trans rfl hl) ?_
        exact ht6
      · exact hx3
    · exact hx3

theorem permuteAbandon_keeps {c : Coll}
    (hl : Parts.le [.colls, .reports, .free, .mcs, .regs, .dies, .cores, .acct, .out, .hub, .hops, .bad, .mem] ps =
      true) {s : State} (hs : Keeps ps s0 s) : Keeps ps s0 (permuteAbandon c s) := by
  unfold permuteAbandon
  extract_lets +onlyGivenNames x1
  clear_value x1
  extract_lets +onlyGivenNames x2
  clear_value x2
  extract_lets +onlyGivenNames x3
  clear_value x3
  extract_lets +onlyGivenNames x4
  have hx4 : Keeps ps s0 x4 := by
    subst x4
    refine Keeps.ite ?_ ?_
    · refine State.modColl_keeps (Parts.le_trans rfl hl) ?_
      exact hs
    · exact hs
  clear_value x4
  refine Keeps.foldl ?_ (fun t7 a5 ht6 => ?_)
  · exact hx4
  · refine abandonCycle_keeps hl ?_
    exact ht6

theorem execPermuteCycleAbandon_keeps {seq : ℕ}
    (hl : Parts.le [.colls, .reports, .free, .mcs, .regs, .dies, .cores, .acct, .out, .hub, .hops, .bad, .mem] ps =
      true) {s : State} (hs : Keeps ps s0 s) {s' : State} (e : execPermuteCycleAbandon seq s = .next s') : Keeps ps s0
    s' := by
  unfold execPermuteCycleAbandon at e
  refine Keeps.next ?_ e
  split
  · refine Keeps.ite ?_ ?_
    · refine permuteAbandon_keeps hl ?_
      exact hs
    · exact hs
  · exact hs

theorem State.dropColl_keeps {c : Coll} (hl : Parts.le [.colls, .combs, .arms] ps = true) {s : State}
    (hs : Keeps ps s0 s) : Keeps ps s0 (State.dropColl s c) := by
  unfold State.dropColl
  extract_lets +onlyGivenNames x1
  clear_value x1
  extract_lets +onlyGivenNames x2
  clear_value x2
  refine Keeps.upd [.colls, .combs, .arms] hl rfl rfl ?_
  exact hs

theorem collectiveComplete_keeps {c : Coll}
    (hl : Parts.le [.colls, .combs, .arms, .hostMem, .mem, .reports, .acct, .free, .regs, .bad, .ctxs, .rings,
      .descs, .hub, .out] ps = true) {s : State} (hs : Keeps ps s0 s) : Keeps ps s0 (collectiveComplete c s) := by
  unfold collectiveComplete
  split
  extract_lets +onlyGivenNames x1
  have hx1 : Keeps ps s0 x1 := by
    subst x1
    refine State.dropColl_keeps (Parts.le_trans rfl hl) ?_
    exact hs
  clear_value x1
  extract_lets +onlyGivenNames x2
  have hx2 : Keeps ps s0 x2 := by
    subst x2
    refine State.hubWrite_keeps (Parts.le_trans rfl hl) ?_
    exact hx1
  clear_value x2
  extract_lets +onlyGivenNames x3
  clear_value x3
  refine Keeps.ite ?_ ?_
  · split
    · rename_i y4 y5 y6
      have hy5 : Keeps ps s0 y5 := by
        refine Keeps.ofEqL y6 ?_
        refine State.semAdd_keeps (Parts.le_trans rfl hl) ?_
        exact hx2
      refine State.complete_keeps (Parts.le_trans rfl hl) ?_
      exact hy5
    · rename_i y7 y8 y9
      have hy8 : Keeps ps s0 y8 := by
        refine Keeps.ofEqL y9 ?_
        refine State.semAdd_keeps (Parts.le_trans rfl hl) ?_
        exact hx2
      exact hy8
  · refine State.complete_keeps (Parts.le_trans rfl hl) ?_
    exact hx2

theorem execCollectiveComplete_keeps {seq : ℕ}
    (hl : Parts.le [.colls, .combs, .arms, .hostMem, .mem, .reports, .acct, .free, .regs, .bad, .ctxs, .rings,
      .descs, .hub, .out] ps = true) {s : State} (hs : Keeps ps s0 s) {s' : State}
    (e : execCollectiveComplete seq s = .next s') : Keeps ps s0 s' := by
  unfold execCollectiveComplete at e
  refine Keeps.next ?_ e
  split
  · refine Keeps.ite ?_ ?_
    · refine collectiveComplete_keeps hl ?_
      exact hs
    · exact hs
  · exact hs

theorem admitColl_keeps {x : Desc}
    (hl : Parts.le [.descs, .reports, .free, .mcs, .regs, .dies, .cores, .acct, .hostMem, .mem, .bad, .rings, .ctxs,
      .hub, .out] ps = true) {s : State} (hs : Keeps ps s0 s) : Keeps ps s0 (admitColl x s) := by
  unfold admitColl
  extract_lets +onlyGivenNames x1
  clear_value x1
  extract_lets +onlyGivenNames x2
  clear_value x2
  split
  · refine State.modDesc_keeps _ _ (Parts.le_trans rfl hl) ?_
    refine State.raise_keeps (Parts.le_trans rfl hl) ?_
    exact hs
  · extract_lets +onlyGivenNames x3
    clear_value x3
    extract_lets +onlyGivenNames x4
    have hx4 : Keeps ps s0 x4 := by
      subst x4
      refine State.jobRead_keeps (Parts.le_trans rfl hl) ?_
      exact hs
    clear_value x4
    split
    · extract_lets +onlyGivenNames x5
      have hx5 : Keeps ps s0 x5 := by
        subst x5
        refine Keeps.foldl ?_ (fun t8 a6 ht7 => ?_)
        · exact hx4
        · refine State.jobRead_keeps (Parts.le_trans rfl hl) ?_
          exact ht7
      clear_value x5
      split
      · refine State.modDesc_keeps _ _ (Parts.le_trans rfl hl) ?_
        refine State.collFault_keeps (Parts.le_trans rfl hl) ?_
        exact hx5
      · refine State.modDesc_keeps _ _ (Parts.le_trans rfl hl) ?_
        exact hx5
    · extract_lets +onlyGivenNames x9
      clear_value x9
      extract_lets +onlyGivenNames x10
      have hx10 : Keeps ps s0 x10 := by
        subst x10
        refine Keeps.ite ?_ ?_
        · refine State.hubWrite_keeps (Parts.le_trans rfl hl) ?_
          exact hx4
        · exact hx4
      clear_value x10
      refine State.complete_keeps (Parts.le_trans rfl hl) ?_
      exact hx10

theorem sendArms_keeps {c : Coll}
    (hl : Parts.le [.acct, .regs, .out, .hub, .colls, .arms, .reports, .free, .mcs, .dies, .cores, .bad, .mem] ps =
      true) {s : State} (hs : Keeps ps s0 s) : Keeps ps s0 (sendArms c s) := by
  unfold sendArms
  refine Keeps.foldl ?_ (fun t3 a1 ht2 => ?_)
  · exact hs
  · refine Keeps.ite ?_ ?_
    · exact ht2
    · refine State.tell_keeps (Parts.le_trans rfl hl) ?_ ?_
      · intro a4 t5 ht6
        refine armNote_keeps (Parts.le_trans rfl hl) ?_
        exact ht6
      · exact ht2

theorem serveIfGather_keeps {seq : ℕ}
    (hl : Parts.le [.arms, .colls, .reports, .free, .mcs, .regs, .dies, .cores, .acct, .out, .hub, .bad, .mem] ps =
      true) {s : State} (hs : Keeps ps s0 s) : Keeps ps s0 (serveIfGather seq s) := by
  unfold serveIfGather
  split
  · refine Keeps.ite ?_ ?_
    · refine serveWaiting_keeps hl ?_
      exact hs
    · exact hs
  · exact hs

theorem startColl_keeps {seq : ℕ}
    (hl : Parts.le [.reports, .acct, .regs, .bad, .mem, .descs, .colls, .free, .mcs, .dies, .cores, .out, .hub,
      .hops, .arms] ps = true) {s : State} (hs : Keeps ps s0 s) : Keeps ps s0 (startColl seq s) := by
  unfold startColl
  split
  · exact hs
  · refine Keeps.ite ?_ ?_
    · exact hs
    · extract_lets +onlyGivenNames x1
      clear_value x1
      extract_lets +onlyGivenNames x2
      clear_value x2
      extract_lets +onlyGivenNames x3
      clear_value x3
      extract_lets +onlyGivenNames x4
      clear_value x4
      extract_lets +onlyGivenNames x5
      clear_value x5
      extract_lets +onlyGivenNames x6
      clear_value x6
      extract_lets +onlyGivenNames x7
      clear_value x7
      extract_lets +onlyGivenNames x8
      clear_value x8
      extract_lets +onlyGivenNames x9
      clear_value x9
      extract_lets +onlyGivenNames x10
      have hx10 : Keeps ps s0 x10 := by
        subst x10
        refine Keeps.foldl ?_ (fun t13 a11 ht12 => ?_)
        · refine State.markStarted_keeps (Parts.le_trans rfl hl) ?_
          exact hs
        · split
          refine State.collWrite_keeps (Parts.le_trans rfl hl) ?_
          exact ht12
      clear_value x10
      extract_lets +onlyGivenNames x14
      have hx14 : Keeps ps s0 x14 := by
        subst x14
        refine Keeps.upd [.colls] (Parts.le_trans rfl hl) rfl rfl ?_
        exact hx10
      clear_value x14
      refine Keeps.ite ?_ ?_
      · refine startPermute_keeps (Parts.le_trans rfl hl) ?_
        exact hx14
      · refine Keeps.ite ?_ ?_
        · exact hx14
        · refine serveIfGather_keeps (Parts.le_trans rfl hl) ?_
          refine sendArms_keeps (Parts.le_trans rfl hl) ?_
          exact hx14

theorem fetchColl_keeps {op : ℕ} {r : RingId}
    (hl : Parts.le [.free, .mcs, .regs, .dies, .cores, .acct, .rings, .nextSeq, .descs, .arb, .hostMem, .mem,
      .reports, .bad, .ctxs, .hub, .out, .colls, .hops, .arms] ps = true) {s : State} (hs : Keeps ps s0 s) : Keeps ps
    s0 (fetchColl op r s) := by
  unfold fetchColl
  refine fetchThen_keeps (Parts.le_trans rfl hl) ?_ ?_ ?_
  · intro a1 t2 ht3
    refine admitColl_keeps (Parts.le_trans rfl hl) ?_
    exact ht3
  · intro a4 t5 ht6
    refine startColl_keeps (Parts.le_trans rfl hl) ?_
    exact ht6
  · exact hs

theorem execReduceScatter_keeps {r : RingId}
    (hl : Parts.le [.free, .mcs, .regs, .dies, .cores, .acct, .rings, .nextSeq, .descs, .arb, .hostMem, .mem,
      .reports, .bad, .ctxs, .hub, .out, .colls, .hops, .arms] ps = true) {s : State} (hs : Keeps ps s0 s)
    {s' : State} (e : execReduceScatter r s = .next s') : Keeps ps s0 s' := by
  unfold execReduceScatter at e
  refine Keeps.next ?_ e
  refine fetchThen_keeps (Parts.le_trans rfl hl) ?_ ?_ ?_
  · intro a1 t2 ht3
    refine admitColl_keeps (Parts.le_trans rfl hl) ?_
    exact ht3
  · intro a4 t5 ht6
    refine startColl_keeps (Parts.le_trans rfl hl) ?_
    exact ht6
  · exact hs

theorem execAllGather_keeps {r : RingId}
    (hl : Parts.le [.free, .mcs, .regs, .dies, .cores, .acct, .rings, .nextSeq, .descs, .arb, .hostMem, .mem,
      .reports, .bad, .ctxs, .hub, .out, .colls, .hops, .arms] ps = true) {s : State} (hs : Keeps ps s0 s)
    {s' : State} (e : execAllGather r s = .next s') : Keeps ps s0 s' := by
  unfold execAllGather at e
  refine Keeps.next ?_ e
  refine fetchColl_keeps hl ?_
  exact hs

theorem execAllReduce_keeps {r : RingId}
    (hl : Parts.le [.free, .mcs, .regs, .dies, .cores, .acct, .rings, .nextSeq, .descs, .arb, .hostMem, .mem,
      .reports, .bad, .ctxs, .hub, .out, .colls, .hops, .arms] ps = true) {s : State} (hs : Keeps ps s0 s)
    {s' : State} (e : execAllReduce r s = .next s') : Keeps ps s0 s' := by
  unfold execAllReduce at e
  refine Keeps.next ?_ e
  refine fetchColl_keeps hl ?_
  exact hs

theorem execExponentMax_keeps {r : RingId}
    (hl : Parts.le [.free, .mcs, .regs, .dies, .cores, .acct, .rings, .nextSeq, .descs, .arb, .hostMem, .mem,
      .reports, .bad, .ctxs, .hub, .out, .colls, .hops, .arms] ps = true) {s : State} (hs : Keeps ps s0 s)
    {s' : State} (e : execExponentMax r s = .next s') : Keeps ps s0 s' := by
  unfold execExponentMax at e
  refine Keeps.next ?_ e
  refine fetchColl_keeps hl ?_
  exact hs

theorem execPermute_keeps {r : RingId}
    (hl : Parts.le [.free, .mcs, .regs, .dies, .cores, .acct, .rings, .nextSeq, .descs, .arb, .hostMem, .mem,
      .reports, .bad, .ctxs, .hub, .out, .colls, .hops, .arms] ps = true) {s : State} (hs : Keeps ps s0 s)
    {s' : State} (e : execPermute r s = .next s') : Keeps ps s0 s' := by
  unfold execPermute at e
  refine Keeps.next ?_ e
  refine fetchColl_keeps hl ?_
  exact hs

/-! ### Media -/

theorem acceptSample_keeps {d : Die} {h : Fin 256} {m : Sample}
    (hl : Parts.le [.hostMem, .mem, .reports, .acct, .free, .regs, .bad, .rings, .descs, .ctxs, .hub, .out, .streams]
      ps = true) {s : State} (hs : Keeps ps s0 s) : Keeps ps s0 (acceptSample d h m s) := by
  unfold acceptSample
  extract_lets +onlyGivenNames x1
  clear_value x1
  refine Keeps.ite ?_ ?_
  · refine Keeps.ite ?_ ?_
    · refine State.complete_keeps (Parts.le_trans rfl hl) ?_
      exact hs
    · extract_lets +onlyGivenNames x2
      clear_value x2
      refine State.modStream_keeps (Parts.le_trans rfl hl) ?_
      exact hs
  · refine State.modStream_keeps (Parts.le_trans rfl hl) ?_
    exact hs

theorem acceptWaiting_keeps {d : Die} {h : Fin 256}
    (hl : Parts.le [.hostMem, .mem, .reports, .acct, .free, .regs, .bad, .rings, .descs, .ctxs, .hub, .out, .streams]
      ps = true) {s : State} (hs : Keeps ps s0 s) : Keeps ps s0 (acceptWaiting d h s) := by
  unfold acceptWaiting
  refine Keeps.foldl ?_ (fun t3 a1 ht2 => ?_)
  · exact hs
  · refine Keeps.ite ?_ ?_
    · refine acceptSample_keeps hl ?_
      refine State.modStream_keeps (Parts.le_trans rfl hl) ?_
      exact ht2
    · exact ht2

theorem spoilWork_keeps {d : Die} {h : Fin 256} (hl : Parts.le [.free, .hostMem, .mem] ps = true) {s : State}
    (hs : Keeps ps s0 s) : Keeps ps s0 (spoilWork d h s) := by
  unfold spoilWork
  refine State.scramble_keeps hl ?_
  exact hs

theorem streamStarted_keeps {d : Die} {h : Fin 256}
    (hl : Parts.le [.free, .hostMem, .mem, .streams, .hub, .reports, .acct, .regs, .bad, .rings, .descs, .ctxs, .out]
      ps = true) {s : State} (hs : Keeps ps s0 s) : Keeps ps s0 (streamStarted d h s) := by
  unfold streamStarted
  extract_lets +onlyGivenNames x1
  clear_value x1
  extract_lets +onlyGivenNames x2
  have hx2 : Keeps ps s0 x2 := by
    subst x2
    refine spoilWork_keeps (Parts.le_trans rfl hl) ?_
    refine State.modStream_keeps (Parts.le_trans rfl hl) ?_
    exact hs
  clear_value x2
  extract_lets +onlyGivenNames x3
  have hx3 : Keeps ps s0 x3 := by
    subst x3
    split
    · refine State.answer_keeps (Parts.le_trans rfl hl) ?_
      exact hx2
    · exact hx2
  clear_value x3
  refine acceptWaiting_keeps (Parts.le_trans rfl hl) ?_
  exact hx3

theorem streamDrained_keeps {d : Die} {h : Fin 256} {restart : Bool}
    (hl : Parts.le [.hub, .hostMem, .mem, .reports, .acct, .free, .regs, .bad, .rings, .descs, .ctxs, .out, .streams]
      ps = true) {s : State} (hs : Keeps ps s0 s) : Keeps ps s0 (streamDrained d h restart s) := by
  unfold streamDrained
  extract_lets +onlyGivenNames x1
  clear_value x1
  extract_lets +onlyGivenNames x2
  have hx2 : Keeps ps s0 x2 := by
    subst x2
    refine Keeps.foldl ?_ (fun t5 a3 ht4 => ?_)
    · exact hs
    · refine State.answer_keeps (Parts.le_trans rfl hl) ?_
      exact ht4
  clear_value x2
  split
  · refine State.modStream_keeps (Parts.le_trans rfl hl) ?_
    exact hx2
  · extract_lets +onlyGivenNames x6
    have hx6 : Keeps ps s0 x6 := by
      subst x6
      refine Keeps.foldl ?_ (fun t9 a7 ht8 => ?_)
      · exact hx2
      · refine State.answer_keeps (Parts.le_trans rfl hl) ?_
        exact ht8
    clear_value x6
    refine State.modStream_keeps (Parts.le_trans rfl hl) ?_
    exact hx6

theorem admitOpen_keeps {x : Desc}
    (hl : Parts.le [.descs, .reports, .free, .mcs, .regs, .dies, .cores, .acct, .hostMem, .mem, .bad, .rings, .ctxs,
      .hub, .out] ps = true) {s : State} (hs : Keeps ps s0 s) : Keeps ps s0 (admitOpen x s) := by
  unfold admitOpen
  extract_lets +onlyGivenNames x1
  clear_value x1
  extract_lets +onlyGivenNames x2
  clear_value x2
  split
  · refine State.modDesc_keeps _ _ (Parts.le_trans rfl hl) ?_
    refine State.raise_keeps (Parts.le_trans rfl hl) ?_
    exact hs
  · extract_lets +onlyGivenNames x3
    clear_value x3
    extract_lets +onlyGivenNames x4
    have hx4 : Keeps ps s0 x4 := by
      subst x4
      refine State.jobRead_keeps (Parts.le_trans rfl hl) ?_
      exact hs
    clear_value x4
    extract_lets +onlyGivenNames x5
    clear_value x5
    extract_lets +onlyGivenNames x6
    clear_value x6
    extract_lets +onlyGivenNames x7
    have hx7 : Keeps ps s0 x7 := by
      subst x7
      refine Keeps.ite ?_ ?_
      · refine State.jobRead_keeps (Parts.le_trans rfl hl) ?_
        exact hx4
      · exact hx4
    clear_value x7
    split
    · refine State.complete_keeps (Parts.le_trans rfl hl) ?_
      exact hx7
    · split
      · refine State.modDesc_keeps _ _ (Parts.le_trans rfl hl) ?_
        refine State.raise_keeps (Parts.le_trans rfl hl) ?_
        exact hx7
      · refine State.modDesc_keeps _ _ (Parts.le_trans rfl hl) ?_
        exact hx7

theorem openOn_keeps {d : Die} {h : Fin 256} {moved : Bool} {x : Desc} (hl : Parts.le [.fns, .streams] ps = true)
    {s : State} (hs : Keeps ps s0 s) : Keeps ps s0 (openOn d h moved x s) := by
  unfold openOn
  extract_lets +onlyGivenNames x1
  clear_value x1
  extract_lets +onlyGivenNames x2
  have hx2 : Keeps ps s0 x2 := by
    subst x2
    refine State.setFn_keeps (Parts.le_trans rfl hl) ?_
    exact hs
  clear_value x2
  refine State.modStream_keeps (Parts.le_trans rfl hl) ?_
  exact hx2

theorem startOpen_keeps {seq : ℕ}
    (hl : Parts.le [.descs, .hostMem, .mem, .reports, .acct, .free, .regs, .bad, .rings, .ctxs, .hub, .out, .fns,
      .streams] ps = true) {s : State} (hs : Keeps ps s0 s) : Keeps ps s0 (startOpen seq s) := by
  unfold startOpen
  split
  · exact hs
  · extract_lets +onlyGivenNames x1
    clear_value x1
    refine Keeps.ite ?_ ?_
    · exact hs
    · refine Keeps.ite ?_ ?_
      · refine State.modDesc_keeps _ _ (Parts.le_trans rfl hl) ?_
        exact hs
      · extract_lets +onlyGivenNames x2
        have hx2 : Keeps ps s0 x2 := by
          subst x2
          refine State.markStarted_keeps (Parts.le_trans rfl hl) ?_
          exact hs
        clear_value x2
        extract_lets +onlyGivenNames x3
        clear_value x3
        refine Keeps.ite ?_ ?_
        · refine State.complete_keeps (Parts.le_trans rfl hl) ?_
          exact hx2
        · split
          · split
            · refine openOn_keeps (Parts.le_trans rfl hl) ?_
              exact hx2
            · refine State.complete_keeps (Parts.le_trans rfl hl) ?_
              exact hx2
          · extract_lets +onlyGivenNames x4
            clear_value x4
            extract_lets +onlyGivenNames x5
            clear_value x5
            split
            · refine openOn_keeps (Parts.le_trans rfl hl) ?_
              exact hx2
            · refine Keeps.ite ?_ ?_
              · refine State.complete_keeps (Parts.le_trans rfl hl) ?_
                exact hx2
              · refine State.modStream_keeps (Parts.le_trans rfl hl) ?_
                refine State.setFn_keeps (Parts.le_trans rfl hl) ?_
                exact hx2
            · refine State.complete_keeps (Parts.le_trans rfl hl) ?_
              exact hx2

theorem mediaRetry_keeps
    (hl : Parts.le [.descs, .hostMem, .mem, .reports, .acct, .free, .regs, .bad, .rings, .ctxs, .hub, .out, .fns,
      .streams] ps = true) {s : State} (hs : Keeps ps s0 s) : Keeps ps s0 (mediaRetry s) := by
  unfold mediaRetry
  refine Keeps.foldl ?_ (fun t3 a1 ht2 => ?_)
  · exact hs
  · refine startOpen_keeps hl ?_
    exact ht2

theorem execMediaOpen_keeps {r : RingId}
    (hl : Parts.le [.free, .mcs, .regs, .dies, .cores, .acct, .rings, .nextSeq, .descs, .arb, .hostMem, .mem,
      .reports, .bad, .ctxs, .hub, .out, .fns, .streams] ps = true) {s : State} (hs : Keeps ps s0 s) {s' : State}
    (e : execMediaOpen r s = .next s') : Keeps ps s0 s' := by
  unfold execMediaOpen at e
  refine Keeps.next ?_ e
  refine fetchThen_keeps (Parts.le_trans rfl hl) ?_ ?_ ?_
  · intro a1 t2 ht3
    refine admitOpen_keeps (Parts.le_trans rfl hl) ?_
    exact ht3
  · intro a4 t5 ht6
    refine startOpen_keeps (Parts.le_trans rfl hl) ?_
    exact ht6
  · exact hs

theorem readOvr_keeps {x : Desc} {k : State → State}
    (hl : Parts.le [.reports, .free, .mcs, .regs, .dies, .cores, .acct] ps = true)
    (hk : ∀ t, Keeps ps s0 t → Keeps ps s0 (k t)) {s : State} (hs : Keeps ps s0 s) : Keeps ps s0 (readOvr x k s) := by
  unfold readOvr
  extract_lets +onlyGivenNames x1
  clear_value x1
  extract_lets +onlyGivenNames x2
  clear_value x2
  refine Keeps.ite ?_ ?_
  · split
    · refine State.raise_keeps (Parts.le_trans rfl hl) ?_
      exact hs
    · apply hk
      refine State.jobRead_keeps (Parts.le_trans rfl hl) ?_
      exact hs
  · apply hk
    exact hs

theorem takeSubmit_keeps {seq : ℕ} {x : Desc}
    (hl : Parts.le [.reports, .free, .mcs, .regs, .dies, .cores, .acct, .hostMem, .mem, .bad, .rings, .descs, .ctxs,
      .hub, .out, .streams] ps = true) {s : State} (hs : Keeps ps s0 s) : Keeps ps s0 (takeSubmit seq x s) := by
  unfold takeSubmit
  split
  · refine readOvr_keeps (Parts.le_trans rfl hl) ?_ ?_
    · intro t1 ht2
      split
      · refine State.complete_keeps (Parts.le_trans rfl hl) ?_
        exact ht2
      · refine State.complete_keeps (Parts.le_trans rfl hl) ?_
        exact ht2
    · exact hs
  · extract_lets +onlyGivenNames x3
    clear_value x3
    refine Keeps.ite ?_ ?_
    · refine State.complete_keeps (Parts.le_trans rfl hl) ?_
      exact hs
    · refine readOvr_keeps (Parts.le_trans rfl hl) ?_ ?_
      · intro t4 ht5
        split
        · refine State.complete_keeps (Parts.le_trans rfl hl) ?_
          exact ht5
        · refine Keeps.ite ?_ ?_
          · refine State.complete_keeps (Parts.le_trans rfl hl) ?_
            exact ht5
          · refine State.modStream_keeps (Parts.le_trans rfl hl) ?_
            exact ht5
      · exact hs

theorem startSubmit_keeps {seq : ℕ}
    (hl : Parts.le [.reports, .free, .mcs, .regs, .dies, .cores, .acct, .hostMem, .mem, .bad, .rings, .descs, .ctxs,
      .hub, .out, .streams] ps = true) {s : State} (hs : Keeps ps s0 s) : Keeps ps s0 (startSubmit seq s) := by
  unfold startSubmit
  split
  · exact hs
  · extract_lets +onlyGivenNames x1
    have hx1 : Keeps ps s0 x1 := by
      subst x1
      refine takeSubmit_keeps hl ?_
      refine State.markStarted_keeps (Parts.le_trans rfl hl) ?_
      exact hs
    clear_value x1
    split
    · refine acceptWaiting_keeps (Parts.le_trans rfl hl) ?_
      exact hx1
    · exact hx1

theorem execMediaSubmit_keeps {r : RingId}
    (hl : Parts.le [.free, .mcs, .regs, .dies, .cores, .acct, .rings, .nextSeq, .descs, .arb, .hostMem, .mem,
      .reports, .bad, .ctxs, .hub, .out, .streams] ps = true) {s : State} (hs : Keeps ps s0 s) {s' : State}
    (e : execMediaSubmit r s = .next s') : Keeps ps s0 s' := by
  unfold execMediaSubmit at e
  refine Keeps.next ?_ e
  refine fetchThen_keeps (Parts.le_trans rfl hl) ?_ ?_ ?_
  · intro a1 t2 ht3
    exact ht3
  · intro a4 t5 ht6
    refine startSubmit_keeps (Parts.le_trans rfl hl) ?_
    exact ht6
  · exact hs

theorem startClose_keeps {seq : ℕ}
    (hl : Parts.le [.descs, .hostMem, .mem, .reports, .acct, .free, .regs, .bad, .rings, .ctxs, .hub, .out, .streams,
      .fns] ps = true) {s : State} (hs : Keeps ps s0 s) : Keeps ps s0 (startClose seq s) := by
  unfold startClose
  split
  · exact hs
  · extract_lets +onlyGivenNames x1
    have hx1 : Keeps ps s0 x1 := by
      subst x1
      refine State.markStarted_keeps (Parts.le_trans rfl hl) ?_
      exact hs
    clear_value x1
    extract_lets +onlyGivenNames x2
    clear_value x2
    split
    · refine State.complete_keeps (Parts.le_trans rfl hl) ?_
      exact hx1
    · extract_lets +onlyGivenNames x3
      clear_value x3
      refine Keeps.ite ?_ ?_
      · refine State.complete_keeps (Parts.le_trans rfl hl) ?_
        exact hx1
      · refine Keeps.ite ?_ ?_
        · refine State.complete_keeps (Parts.le_trans rfl hl) ?_
          exact hx1
        · extract_lets +onlyGivenNames x4
          have hx4 : Keeps ps s0 x4 := by
            subst x4
            split
            · refine State.complete_keeps (Parts.le_trans rfl hl) ?_
              refine State.modStream_keeps (Parts.le_trans rfl hl) ?_
              exact hx1
            · exact hx1
          clear_value x4
          refine State.modStream_keeps (Parts.le_trans rfl hl) ?_
          refine State.setFn_keeps (Parts.le_trans rfl hl) ?_
          exact hx4

theorem execMediaClose_keeps {r : RingId}
    (hl : Parts.le [.free, .mcs, .regs, .dies, .cores, .acct, .rings, .nextSeq, .descs, .arb, .hostMem, .mem,
      .reports, .bad, .ctxs, .hub, .out, .streams, .fns] ps = true) {s : State} (hs : Keeps ps s0 s) {s' : State}
    (e : execMediaClose r s = .next s') : Keeps ps s0 s' := by
  unfold execMediaClose at e
  refine Keeps.next ?_ e
  refine fetchThen_keeps (Parts.le_trans rfl hl) ?_ ?_ ?_
  · intro a1 t2 ht3
    exact ht3
  · intro a4 t5 ht6
    refine startClose_keeps (Parts.le_trans rfl hl) ?_
    exact ht6
  · exact hs

theorem State.modSample_keeps {d : Die} {h : Fin 256} {seq : ℕ} {f : Sample → Sample}
    (hl : Parts.le [.streams] ps = true) {s : State} (hs : Keeps ps s0 s) : Keeps ps s0 (State.modSample s d h seq f)
    := by
  unfold State.modSample
  refine State.modStream_keeps hl ?_
  exact hs

theorem State.engineWrite_keeps {d : Die} {n : CtxId} {a : ℕ} {bs : List Byte}
    (hl : Parts.le [.reports, .acct, .free, .mem, .regs, .bad] ps = true) {s : State} (hs : Keeps ps s0 s) : Keeps ps
    s0 (State.engineWrite s d n a bs) := by
  unfold State.engineWrite
  split
  · refine State.raise_keeps (Parts.le_trans rfl hl) ?_
    exact hs
  · refine State.chargeBytes_keeps (Parts.le_trans rfl hl) ?_
    refine State.putBytes_keeps (Parts.le_trans rfl hl) ?_
    exact hs

theorem State.writeDamage_keeps {d : Die} {h : Fin 256} {n : CtxId} {m : Sample} {conceal : ℕ} {extent : Damage → ℕ}
    {l' : List Damage} (hl : Parts.le [.reports, .acct, .free, .mem, .regs, .bad, .streams] ps = true) {s : State}
    (hs : Keeps ps s0 s) : Keeps ps s0 (State.writeDamage s d h n m conceal extent l') := by
  unfold State.writeDamage
  extract_lets +onlyGivenNames x1
  clear_value x1
  extract_lets +onlyGivenNames x2
  have hx2 : Keeps ps s0 x2 := by
    subst x2
    refine Keeps.foldl ?_ (fun t5 a3 ht4 => ?_)
    · exact hs
    · split
      refine State.engineWrite_keeps (Parts.le_trans rfl hl) ?_
      exact ht4
  clear_value x2
  refine State.modStream_keeps (Parts.le_trans rfl hl) ?_
  exact hx2

theorem pictureDamage_keeps {d : Die} {h : Fin 256} {m : Sample} {n : CtxId} {ev : DecodeEv} {q : Pic}
    (hl : Parts.le [.reports, .acct, .free, .mem, .regs, .bad, .streams] ps = true) {s : State} (hs : Keeps ps s0 s) :
    Keeps ps s0 (pictureDamage d h m n ev q s) := by
  unfold pictureDamage
  extract_lets +onlyGivenNames x1
  clear_value x1
  extract_lets +onlyGivenNames x2
  clear_value x2
  extract_lets +onlyGivenNames x3
  clear_value x3
  extract_lets +onlyGivenNames x4
  clear_value x4
  refine State.writeDamage_keeps hl ?_
  exact hs

theorem dropDecode_keeps {d : Die} {h : Fin 256} {claim : HeaderClaim} {m : Sample} {n : CtxId} {src : List Byte}
    (hl : Parts.le [.reports, .acct, .free, .mem, .regs, .bad, .streams] ps = true) {s : State} (hs : Keeps ps s0 s) :
    Keeps ps s0 (dropDecode d h claim m n src s) := by
  unfold dropDecode
  extract_lets +onlyGivenNames x1
  clear_value x1
  extract_lets +onlyGivenNames x2
  clear_value x2
  extract_lets +onlyGivenNames x3
  clear_value x3
  split
  extract_lets +onlyGivenNames x4
  clear_value x4
  extract_lets +onlyGivenNames x5
  have hx5 : Keeps ps s0 x5 := by
    subst x5
    refine pictureDamage_keeps hl ?_
    exact hs
  clear_value x5
  refine State.modStream_keeps (Parts.le_trans rfl hl) ?_
  exact hx5

theorem sampleDrop_keeps {d : Die} {h : Fin 256} {claim : HeaderClaim} {m : Sample} {n : CtxId}
    (hl : Parts.le [.reports, .acct, .free, .mem, .regs, .bad, .streams, .mcs, .dies, .cores, .hostMem, .rings,
      .descs, .ctxs, .hub, .out] ps = true) {s : State} (hs : Keeps ps s0 s) : Keeps ps s0
    (sampleDrop d h claim m n s) := by
  unfold sampleDrop
  extract_lets +onlyGivenNames x1
  clear_value x1
  split
  · refine State.raise_keeps (Parts.le_trans rfl hl) ?_
    exact hs
  · extract_lets +onlyGivenNames x2
    clear_value x2
    extract_lets +onlyGivenNames x3
    have hx3 : Keeps ps s0 x3 := by
      subst x3
      refine Keeps.ite ?_ ?_
      · refine dropDecode_keeps (Parts.le_trans rfl hl) ?_
        refine State.jobRead_keeps (Parts.le_trans rfl hl) ?_
        exact hs
      · exact hs
    clear_value x3
    extract_lets +onlyGivenNames x4
    have hx4 : Keeps ps s0 x4 := by
      subst x4
      refine State.modStream_keeps (Parts.le_trans rfl hl) ?_
      exact hx3
    clear_value x4
    refine State.complete_keeps (Parts.le_trans rfl hl) ?_
    refine State.bump_keeps (Parts.le_trans rfl hl) ?_
    exact hx4

theorem sampleBegin_keeps {d : Die} {h : Fin 256} {claim : HeaderClaim} {m : Sample} {n : CtxId}
    (hl : Parts.le [.ctxs, .streams] ps = true) {s : State} (hs : Keeps ps s0 s) : Keeps ps s0
    (sampleBegin d h claim m n s) := by
  unfold sampleBegin
  extract_lets +onlyGivenNames x1
  clear_value x1
  extract_lets +onlyGivenNames x2
  clear_value x2
  extract_lets +onlyGivenNames x3
  clear_value x3
  extract_lets +onlyGivenNames x4
  clear_value x4
  extract_lets +onlyGivenNames x5
  have hx5 : Keeps ps s0 x5 := by
    subst x5
    refine State.setSem_keeps (Parts.le_trans rfl hl) ?_
    exact hs
  clear_value x5
  extract_lets +onlyGivenNames x6
  clear_value x6
  extract_lets +onlyGivenNames x7
  clear_value x7
  extract_lets +onlyGivenNames x8
  clear_value x8
  extract_lets +onlyGivenNames x9
  have hx9 : Keeps ps s0 x9 := by
    subst x9
    refine State.modStream_keeps (Parts.le_trans rfl hl) ?_
    exact hx5
  clear_value x9
  refine State.modSample_keeps (Parts.le_trans rfl hl) ?_
  exact hx9

theorem sampleDecodeStart_keeps {d : Die} {h : Fin 256} {claim : HeaderClaim} {m : Sample} {n : CtxId}
    (hl : Parts.le [.reports, .acct, .free, .mem, .regs, .bad, .streams, .mcs, .dies, .cores, .hostMem, .rings,
      .descs, .ctxs, .hub, .out] ps = true) {s : State} (hs : Keeps ps s0 s) : Keeps ps s0
    (sampleDecodeStart d h claim m n s) := by
  unfold sampleDecodeStart
  refine Keeps.ite ?_ ?_
  · refine sampleDrop_keeps hl ?_
    exact hs
  · refine sampleBegin_keeps (Parts.le_trans rfl hl) ?_
    exact hs

theorem execSampleDecodeStart_keeps {d : Die} {h : Fin 256} {claim : HeaderClaim}
    (hl : Parts.le [.reports, .acct, .free, .mem, .regs, .bad, .streams, .mcs, .dies, .cores, .hostMem, .rings,
      .descs, .ctxs, .hub, .out] ps = true) {s : State} (hs : Keeps ps s0 s) {s' : State}
    (e : execSampleDecodeStart d h claim s = .next s') : Keeps ps s0 s' := by
  unfold execSampleDecodeStart at e
  refine Keeps.next ?_ e
  split
  · refine Keeps.ite ?_ ?_
    · exact hs
    · refine sampleDecodeStart_keeps hl ?_
      exact hs
  · exact hs

theorem State.cancelStream_keeps {d : Die} {h : Fin 256}
    (hl : Parts.le [.hostMem, .mem, .reports, .acct, .free, .regs, .bad, .rings, .descs, .ctxs, .hub, .out, .streams,
      .fns] ps = true) {s : State} (hs : Keeps ps s0 s) : Keeps ps s0 (State.cancelStream s d h) := by
  unfold State.cancelStream
  extract_lets +onlyGivenNames x1
  clear_value x1
  extract_lets +onlyGivenNames x2
  have hx2 : Keeps ps s0 x2 := by
    subst x2
    refine Keeps.foldl ?_ (fun t5 a3 ht4 => ?_)
    · exact hs
    · refine State.complete_keeps (Parts.le_trans rfl hl) ?_
      exact ht4
  clear_value x2
  extract_lets +onlyGivenNames x6
  have hx6 : Keeps ps s0 x6 := by
    subst x6
    refine Keeps.foldl ?_ (fun t9 a7 ht8 => ?_)
    · exact hx2
    · refine State.complete_keeps (Parts.le_trans rfl hl) ?_
      exact ht8
  clear_value x6
  extract_lets +onlyGivenNames x10
  have hx10 : Keeps ps s0 x10 := by
    subst x10
    refine Keeps.foldl ?_ (fun t13 a11 ht12 => ?_)
    · exact hx6
    · refine State.complete_keeps (Parts.le_trans rfl hl) ?_
      exact ht12
  clear_value x10
  refine State.streamOff_keeps (Parts.le_trans rfl hl) ?_
  exact hx10

theorem State.moveStream_keeps {d : Die} {h : Fin 256} {e : Die} {k : Fin 256}
    (hl : Parts.le [.streams, .fns] ps = true) {s : State} (hs : Keeps ps s0 s) : Keeps ps s0
    (State.moveStream s d h e k) := by
  unfold State.moveStream
  extract_lets +onlyGivenNames x1
  clear_value x1
  extract_lets +onlyGivenNames x2
  clear_value x2
  extract_lets +onlyGivenNames x3
  clear_value x3
  extract_lets +onlyGivenNames x4
  have hx4 : Keeps ps s0 x4 := by
    subst x4
    refine State.modStream_keeps (Parts.le_trans rfl hl) ?_
    refine State.setFn_keeps (Parts.le_trans rfl hl) ?_
    exact hs
  clear_value x4
  refine State.streamOff_keeps hl ?_
  exact hx4

theorem engineLost_keeps {d : Die}
    (hl : Parts.le [.dies, .fns, .store, .free, .hub, .regs, .out, .streams, .hostMem, .mem, .reports, .acct, .bad,
      .rings, .descs, .ctxs] ps = true) {s : State} (hs : Keeps ps s0 s) : Keeps ps s0 (engineLost d s) := by
  unfold engineLost
  extract_lets +onlyGivenNames x1
  clear_value x1
  extract_lets +onlyGivenNames x2
  have hx2 : Keeps ps s0 x2 := by
    subst x2
    refine State.modDie_keeps (Parts.le_trans rfl hl) ?_
    refine State.setFn_keeps (Parts.le_trans rfl hl) ?_
    exact hs
  clear_value x2
  extract_lets +onlyGivenNames x3
  have hx3 : Keeps ps s0 x3 := by
    subst x3
    refine State.degraded_keeps (Parts.le_trans rfl hl) ?_
    exact hx2
  clear_value x3
  extract_lets +onlyGivenNames x4
  clear_value x4
  extract_lets +onlyGivenNames x5
  clear_value x5
  extract_lets +onlyGivenNames x6
  have hx6 : Keeps ps s0 x6 := by
    subst x6
    refine Keeps.foldl ?_ (fun t9 a7 ht8 => ?_)
    · exact hx3
    · split
      · refine State.moveStream_keeps (Parts.le_trans rfl hl) ?_
        exact ht8
      · refine State.cancelStream_keeps (Parts.le_trans rfl hl) ?_
        exact ht8
  clear_value x6
  refine Keeps.ite ?_ ?_
  · refine mediaRetry_keeps (Parts.le_trans rfl hl) ?_
    exact hx6
  · exact hx6

theorem State.writeSlot_keeps {d : Die} {h : Fin 256} {n : CtxId} {m : Sample} {w : ℕ} {ht : ℕ} {data : List Byte}
    {mask : List Byte} (hl : Parts.le [.reports, .streams, .acct, .free, .mem, .regs, .bad] ps = true) {s : State}
    (hs : Keeps ps s0 s) : Keeps ps s0 (State.writeSlot s d h n m w ht data mask) := by
  unfold State.writeSlot
  extract_lets +onlyGivenNames x1
  clear_value x1
  extract_lets +onlyGivenNames x2
  clear_value x2
  extract_lets +onlyGivenNames x3
  clear_value x3
  split
  · refine State.raise_keeps (Parts.le_trans rfl hl) ?_
    exact hs
  · refine State.modSample_keeps (Parts.le_trans rfl hl) ?_
    refine State.chargeBytes_keeps (Parts.le_trans rfl hl) ?_
    refine State.putBytes_keeps (Parts.le_trans rfl hl) ?_
    exact hs

theorem pictureDone_keeps {d : Die} {h : Fin 256} {m : Sample} {n : CtxId} {ev : DecodeEv} {src : List Byte}
    (hl : Parts.le [.reports, .acct, .free, .mem, .regs, .bad, .streams] ps = true) {s : State} (hs : Keeps ps s0 s) :
    Keeps ps s0 (pictureDone d h m n ev src s) := by
  unfold pictureDone
  extract_lets +onlyGivenNames x1
  clear_value x1
  extract_lets +onlyGivenNames x2
  clear_value x2
  extract_lets +onlyGivenNames x3
  clear_value x3
  split
  extract_lets +onlyGivenNames x4
  clear_value x4
  extract_lets +onlyGivenNames x5
  clear_value x5
  extract_lets +onlyGivenNames x6
  clear_value x6
  extract_lets +onlyGivenNames x7
  clear_value x7
  extract_lets +onlyGivenNames x8
  clear_value x8
  extract_lets +onlyGivenNames x9
  have hx9 : Keeps ps s0 x9 := by
    subst x9
    refine pictureDamage_keeps hl ?_
    exact hs
  clear_value x9
  extract_lets +onlyGivenNames x10
  have hx10 : Keeps ps s0 x10 := by
    subst x10
    refine State.modStream_keeps (Parts.le_trans rfl hl) ?_
    exact hx9
  clear_value x10
  refine State.writeSlot_keeps (Parts.le_trans rfl hl) ?_
  exact hx10

theorem State.audioTensor_keeps {b : List Byte} {t : List Byte} (hl : Parts.le [.free] ps = true) {s : State}
    (hs : Keeps ps s0 s) : Keeps ps s0 (State.audioTensor s b t).2 := by
  unfold State.audioTensor
  split
  · refine State.freeBytes_keeps hl ?_
    exact hs
  · exact hs

theorem audioDone_keeps {d : Die} {h : Fin 256} {m : Sample} {n : CtxId} {src : List Byte} {silent : ℕ → Bool}
    {mark : ℕ} {all : Bool} (hl : Parts.le [.streams, .free, .reports, .acct, .mem, .regs, .bad] ps = true)
    {s : State} (hs : Keeps ps s0 s) : Keeps ps s0 (audioDone d h m n src silent mark all s) := by
  unfold audioDone
  extract_lets +onlyGivenNames x1
  clear_value x1
  split
  extract_lets +onlyGivenNames x2
  have hx2 : Keeps ps s0 x2 := by
    subst x2
    refine State.modStream_keeps (Parts.le_trans rfl hl) ?_
    exact hs
  clear_value x2
  split
  rename_i y3 y4 y5 y6
  have hy5 : Keeps ps s0 y5 := by
    refine Keeps.ofEqR y6 ?_
    refine State.audioTensor_keeps (Parts.le_trans rfl hl) ?_
    exact hx2
  refine State.writeSlot_keeps (Parts.le_trans rfl hl) ?_
  exact hy5

theorem audioDamage_keeps {d : Die} {h : Fin 256} {m : Sample} {n : CtxId} {ev : DecodeEv} {src : List Byte}
    (hl : Parts.le [.reports, .acct, .free, .mem, .regs, .bad, .streams] ps = true) {s : State} (hs : Keeps ps s0 s) :
    Keeps ps s0 (audioDamage d h m n ev src s) := by
  unfold audioDamage
  extract_lets +onlyGivenNames x1
  clear_value x1
  extract_lets +onlyGivenNames x2
  clear_value x2
  refine State.writeDamage_keeps hl ?_
  exact hs

theorem decodeDone_keeps {d : Die} {h : Fin 256} {m : Sample} {n : CtxId} {ev : DecodeEv}
    (hl : Parts.le [.reports, .free, .hostMem, .mem, .mcs, .regs, .dies, .cores, .acct, .streams, .bad] ps = true)
    {s : State} (hs : Keeps ps s0 s) : Keeps ps s0 (decodeDone d h m n ev s) := by
  unfold decodeDone
  extract_lets +onlyGivenNames x1
  clear_value x1
  extract_lets +onlyGivenNames x2
  clear_value x2
  split
  · refine State.raise_keeps (Parts.le_trans rfl hl) ?_
    exact hs
  · extract_lets +onlyGivenNames x3
    clear_value x3
    extract_lets +onlyGivenNames x4
    clear_value x4
    extract_lets +onlyGivenNames x5
    have hx5 : Keeps ps s0 x5 := by
      subst x5
      refine spoilWork_keeps (Parts.le_trans rfl hl) ?_
      refine State.jobRead_keeps (Parts.le_trans rfl hl) ?_
      exact hs
    clear_value x5
    refine Keeps.ite ?_ ?_
    · extract_lets +onlyGivenNames x6
      have hx6 : Keeps ps s0 x6 := by
        subst x6
        refine State.modStream_keeps (Parts.le_trans rfl hl) ?_
        exact hx5
      clear_value x6
      refine State.writeSlot_keeps (Parts.le_trans rfl hl) ?_
      exact hx6
    · refine Keeps.ite ?_ ?_
      · extract_lets +onlyGivenNames x7
        clear_value x7
        extract_lets +onlyGivenNames x8
        have hx8 : Keeps ps s0 x8 := by
          subst x8
          refine audioDamage_keeps (Parts.le_trans rfl hl) ?_
          exact hx5
        clear_value x8
        refine audioDone_keeps (Parts.le_trans rfl hl) ?_
        exact hx8
      · refine pictureDone_keeps (Parts.le_trans rfl hl) ?_
        exact hx5

theorem sampleDecodeDone_keeps {d : Die} {h : Fin 256} {m : Sample} {n : CtxId} {ev : DecodeEv}
    (hl : Parts.le [.regs, .dies, .fns, .store, .free, .hub, .out, .streams, .hostMem, .mem, .reports, .acct, .bad,
      .rings, .descs, .ctxs, .mcs, .cores] ps = true) {s : State} (hs : Keeps ps s0 s) : Keeps ps s0
    (sampleDecodeDone d h m n ev s) := by
  unfold sampleDecodeDone
  extract_lets +onlyGivenNames x1
  have hx1 : Keeps ps s0 x1 := by
    subst x1
    refine State.bump_keeps (Parts.le_trans rfl hl) ?_
    exact hs
  clear_value x1
  refine Keeps.ite ?_ ?_
  · refine engineLost_keeps (Parts.le_trans rfl hl) ?_
    exact hx1
  · refine decodeDone_keeps (Parts.le_trans rfl hl) ?_
    exact hx1

theorem execSampleDecodeDone_keeps {d : Die} {h : Fin 256} {sample : ℕ} {ev : DecodeEv}
    (hl : Parts.le [.regs, .dies, .fns, .store, .free, .hub, .out, .streams, .hostMem, .mem, .reports, .acct, .bad,
      .rings, .descs, .ctxs, .mcs, .cores] ps = true) {s : State} (hs : Keeps ps s0 s) {s' : State}
    (e : execSampleDecodeDone d h sample ev s = .next s') : Keeps ps s0 s' := by
  unfold execSampleDecodeDone at e
  refine Keeps.next ?_ e
  split
  · refine Keeps.ite ?_ ?_
    · refine sampleDecodeDone_keeps hl ?_
      exact hs
    · exact hs
  · exact hs

theorem lateDamage_keeps {d : Die} {h : Fin 256} {m : Sample} {n : CtxId} {ev : DecodeEv} {q : Pic}
    (hl : Parts.le [.reports, .acct, .free, .mem, .regs, .bad, .streams] ps = true) {s : State} (hs : Keeps ps s0 s) :
    Keeps ps s0 (lateDamage d h m n ev q s) := by
  unfold lateDamage
  extract_lets +onlyGivenNames x1
  clear_value x1
  extract_lets +onlyGivenNames x2
  clear_value x2
  refine State.writeDamage_keeps hl ?_
  exact hs

theorem sampleLate_keeps {d : Die} {h : Fin 256} {m : Sample} {n : CtxId} {ev : DecodeEv}
    (hl : Parts.le [.regs, .free, .mcs, .dies, .cores, .acct, .streams, .reports, .mem, .bad] ps = true) {s : State}
    (hs : Keeps ps s0 s) : Keeps ps s0 (sampleLate d h m n ev s) := by
  unfold sampleLate
  extract_lets +onlyGivenNames x1
  clear_value x1
  extract_lets +onlyGivenNames x2
  clear_value x2
  extract_lets +onlyGivenNames x3
  have hx3 : Keeps ps s0 x3 := by
    subst x3
    refine State.bump_keeps (Parts.le_trans rfl hl) ?_
    exact hs
  clear_value x3
  extract_lets +onlyGivenNames x4
  clear_value x4
  extract_lets +onlyGivenNames x5
  clear_value x5
  extract_lets +onlyGivenNames x6
  have hx6 : Keeps ps s0 x6 := by
    subst x6
    refine State.jobRead_keeps (Parts.le_trans rfl hl) ?_
    exact hx3
  clear_value x6
  extract_lets +onlyGivenNames x7
  have hx7 : Keeps ps s0 x7 := by
    subst x7
    refine State.modStream_keeps (Parts.le_trans rfl hl) ?_
    refine State.engineWrite_keeps (Parts.le_trans rfl hl) ?_
    exact hx6
  clear_value x7
  refine Keeps.ite ?_ ?_
  · refine State.writeSlot_keeps (Parts.le_trans rfl hl) ?_
    exact hx7
  · refine Keeps.ite ?_ ?_
    · extract_lets +onlyGivenNames x8
      clear_value x8
      extract_lets +onlyGivenNames x9
      have hx9 : Keeps ps s0 x9 := by
        subst x9
        refine audioDamage_keeps (Parts.le_trans rfl hl) ?_
        exact hx7
      clear_value x9
      refine audioDone_keeps (Parts.le_trans rfl hl) ?_
      exact hx9
    · extract_lets +onlyGivenNames x10
      clear_value x10
      split
      extract_lets +onlyGivenNames x11
      clear_value x11
      extract_lets +onlyGivenNames x12
      have hx12 : Keeps ps s0 x12 := by
        subst x12
        refine lateDamage_keeps (Parts.le_trans rfl hl) ?_
        exact hx7
      clear_value x12
      extract_lets +onlyGivenNames x13
      have hx13 : Keeps ps s0 x13 := by
        subst x13
        refine State.modStream_keeps (Parts.le_trans rfl hl) ?_
        exact hx12
      clear_value x13
      extract_lets +onlyGivenNames x14
      clear_value x14
      extract_lets +onlyGivenNames x15
      clear_value x15
      refine State.writeSlot_keeps (Parts.le_trans rfl hl) ?_
      exact hx13

theorem execSampleLate_keeps {d : Die} {h : Fin 256} {sample : ℕ} {ev : DecodeEv}
    (hl : Parts.le [.regs, .free, .mcs, .dies, .cores, .acct, .streams, .reports, .mem, .bad] ps = true) {s : State}
    (hs : Keeps ps s0 s) {s' : State} (e : execSampleLate d h sample s ev = .next s') : Keeps ps s0 s' := by
  unfold execSampleLate at e
  refine Keeps.next ?_ e
  split
  · refine Keeps.ite ?_ ?_
    · refine sampleLate_keeps hl ?_
      exact hs
    · exact hs
  · exact hs

theorem sampleDeliver_keeps {d : Die} {h : Fin 256} {m : Sample} {n : CtxId}
    (hl : Parts.le [.reports, .ctxs, .streams, .regs, .trcTok, .free, .mem, .acct, .bad, .trcSeq, .trcDrop, .hostMem,
      .rings, .descs, .hub, .out] ps = true) {s : State} (hs : Keeps ps s0 s) : Keeps ps s0 (sampleDeliver d h m n s)
    := by
  unfold sampleDeliver
  extract_lets +onlyGivenNames x1
  clear_value x1
  extract_lets +onlyGivenNames x2
  clear_value x2
  split
  · rename_i y3 y4 y5
    have hy4 : Keeps ps s0 y4 := by
      refine Keeps.ofEqL y5 ?_
      refine State.semAdd_keeps (Parts.le_trans rfl hl) ?_
      exact hs
    exact hy4
  · rename_i y6 y7 y8
    have hy7 : Keeps ps s0 y7 := by
      refine Keeps.ofEqL y8 ?_
      refine State.semAdd_keeps (Parts.le_trans rfl hl) ?_
      exact hs
    extract_lets +onlyGivenNames x9
    clear_value x9
    extract_lets +onlyGivenNames x10
    clear_value x10
    extract_lets +onlyGivenNames x11
    have hx11 : Keeps ps s0 x11 := by
      subst x11
      refine State.modStream_keeps (Parts.le_trans rfl hl) ?_
      exact hy7
    clear_value x11
    extract_lets +onlyGivenNames x12
    have hx12 : Keeps ps s0 x12 := by
      subst x12
      refine State.bump_keeps (Parts.le_trans rfl hl) ?_
      exact hx11
    clear_value x12
    extract_lets +onlyGivenNames x13
    have hx13 : Keeps ps s0 x13 := by
      subst x13
      refine Keeps.ite ?_ ?_
      · refine State.bump_keeps (Parts.le_trans rfl hl) ?_
        exact hx12
      · exact hx12
    clear_value x13
    extract_lets +onlyGivenNames x14
    have hx14 : Keeps ps s0 x14 := by
      subst x14
      refine Keeps.ite ?_ ?_
      · refine State.bump_keeps (Parts.le_trans rfl hl) ?_
        exact hx13
      · exact hx13
    clear_value x14
    extract_lets +onlyGivenNames x15
    have hx15 : Keeps ps s0 x15 := by
      subst x15
      refine Keeps.ite ?_ ?_
      · refine State.bump_keeps (Parts.le_trans rfl hl) ?_
        exact hx14
      · exact hx14
    clear_value x15
    extract_lets +onlyGivenNames x16
    have hx16 : Keeps ps s0 x16 := by
      subst x16
      refine State.traceRec_keeps (Parts.le_trans rfl hl) ?_
      exact hx15
    clear_value x16
    split
    refine State.complete_keeps (Parts.le_trans rfl hl) ?_
    exact hx16

theorem execSampleDeliver_keeps {d : Die} {h : Fin 256}
    (hl : Parts.le [.reports, .ctxs, .streams, .regs, .trcTok, .free, .mem, .acct, .bad, .trcSeq, .trcDrop, .hostMem,
      .rings, .descs, .hub, .out] ps = true) {s : State} (hs : Keeps ps s0 s) {s' : State}
    (e : execSampleDeliver d h s = .next s') : Keeps ps s0 s' := by
  unfold execSampleDeliver at e
  refine Keeps.next ?_ e
  split
  · refine sampleDeliver_keeps hl ?_
    exact hs
  · exact hs

end Sys2Proof.Machine
end

