-- ==== Sys2Proof/Laws/KeepsModule.lean ====
section
/-! SUPPORT. What is kept (Laws/Keeps.lean) by
faults, resets, repair, energy, start-up, security and loopback,
one lemma an operation: the parts of the state that it lists are all that the operation may change. -/

namespace Sys2Proof.Machine

set_option maxRecDepth 4096

variable {ps : List Part} {s0 : State}

/-! ### Faults -/

theorem State.countLater_keeps {k : ℕ} (hl : Parts.le [.regs, .reports] ps = true) {s : State} (hs : Keeps ps s0 s) :
    Keeps ps s0 (State.countLater s k) := by
  unfold State.countLater
  extract_lets +onlyGivenNames x1
  have hx1 : Keeps ps s0 x1 := by
    subst x1
    refine State.bumpSat_keeps (Parts.le_trans rfl hl) ?_
    exact hs
  clear_value x1
  refine Keeps.upd [.reports] (Parts.le_trans rfl hl) rfl rfl ?_
  exact hx1

theorem faultPoint_keeps {l' : List FaultReport} (hl : Parts.le [.regs, .recovery, .reports] ps = true) {s : State}
    (hs : Keeps ps s0 s) : Keeps ps s0 (faultPoint l' s) := by
  unfold faultPoint
  split
  · exact hs
  · extract_lets +onlyGivenNames x1
    clear_value x1
    extract_lets +onlyGivenNames x2
    have hx2 : Keeps ps s0 x2 := by
      subst x2
      refine State.setReg_keeps (Parts.le_trans rfl hl) ?_
      exact hs
    clear_value x2
    extract_lets +onlyGivenNames x3
    have hx3 : Keeps ps s0 x3 := by
      subst x3
      refine State.setReg_keeps (Parts.le_trans rfl hl) ?_
      exact hx2
    clear_value x3
    refine Keeps.upd [.recovery, .reports] (Parts.le_trans rfl hl) rfl rfl ?_
    exact hx3

theorem execFaultPoint_keeps {cause : Byte} {d : Die} {hubSide : Bool} {charged : List CtxId} {addr : ℕ}
    (hl : Parts.le [.regs, .reports, .recovery] ps = true) {s : State} (hs : Keeps ps s0 s) {s' : State}
    (e : execFaultPoint cause d hubSide charged addr s = .next s') : Keeps ps s0 s' := by
  unfold execFaultPoint at e
  refine Keeps.next ?_ e
  refine Keeps.ite ?_ ?_
  · exact hs
  · refine Keeps.ite ?_ ?_
    · refine State.countLater_keeps (Parts.le_trans rfl hl) ?_
      exact hs
    · refine faultPoint_keeps (Parts.le_trans rfl hl) ?_
      exact hs

theorem recoverStop_keeps {v : Recovery}
    (hl : Parts.le [.regs, .arb, .store, .trcTok, .free, .mem, .acct, .bad, .trcSeq, .trcDrop] ps = true) {s : State}
    (hs : Keeps ps s0 s) : Keeps ps s0 (recoverStop v s) := by
  unfold recoverStop
  extract_lets +onlyGivenNames x1
  have hx1 : Keeps ps s0 x1 := by
    subst x1
    refine State.setReg_keeps (Parts.le_trans rfl hl) ?_
    exact hs
  clear_value x1
  extract_lets +onlyGivenNames x2
  have hx2 : Keeps ps s0 x2 := by
    subst x2
    refine Keeps.foldl ?_ (fun t5 a3 ht4 => ?_)
    · exact hx1
    · split
      refine State.setReg_keeps (Parts.le_trans rfl hl) ?_
      exact ht4
  clear_value x2
  extract_lets +onlyGivenNames x6
  clear_value x6
  extract_lets +onlyGivenNames x7
  have hx7 : Keeps ps s0 x7 := by
    subst x7
    refine Keeps.upd [.arb] (Parts.le_trans rfl hl) rfl rfl ?_
    exact hx2
  clear_value x7
  extract_lets +onlyGivenNames x8
  have hx8 : Keeps ps s0 x8 := by
    subst x8
    refine State.logRec_keeps (Parts.le_trans rfl hl) ?_
    exact hx7
  clear_value x8
  refine Keeps.foldl ?_ (fun t11 a9 ht10 => ?_)
  · exact hx8
  · refine State.traceRec_keeps (Parts.le_trans rfl hl) ?_
    exact ht10

theorem scrambleDma_keeps {x : Desc} (hl : Parts.le [.free, .hostMem, .mem] ps = true) {s : State}
    (hs : Keeps ps s0 s) : Keeps ps s0 (scrambleDma x s) := by
  unfold scrambleDma
  refine Keeps.ite ?_ ?_
  · refine Keeps.foldl ?_ (fun t3 a1 ht2 => ?_)
    · exact hs
    · refine scramblePart_keeps hl ?_
      exact ht2
  · exact hs

theorem scrambleWrites_keeps (hl : Parts.le [.free, .hostMem, .mem] ps = true) {s : State} (hs : Keeps ps s0 s) :
    Keeps ps s0 (scrambleWrites s) := by
  unfold scrambleWrites
  extract_lets +onlyGivenNames x1
  clear_value x1
  extract_lets +onlyGivenNames x2
  have hx2 : Keeps ps s0 x2 := by
    subst x2
    refine Keeps.foldl ?_ (fun t5 a3 ht4 => ?_)
    · exact hs
    · split
      refine State.scramble_keeps hl ?_
      exact ht4
  clear_value x2
  extract_lets +onlyGivenNames x6
  have hx6 : Keeps ps s0 x6 := by
    subst x6
    refine Keeps.foldl ?_ (fun t9 a7 ht8 => ?_)
    · exact hx2
    · refine scrambleDma_keeps hl ?_
      exact ht8
  clear_value x6
  extract_lets +onlyGivenNames x10
  have hx10 : Keeps ps s0 x10 := by
    subst x10
    refine Keeps.foldl ?_ (fun t13 a11 ht12 => ?_)
    · exact hx6
    · split
      extract_lets +onlyGivenNames x14
      clear_value x14
      refine Keeps.foldl ?_ (fun t17 a15 ht16 => ?_)
      · exact ht12
      · refine State.scramble_keeps hl ?_
        exact ht16
  clear_value x10
  refine Keeps.foldl ?_ (fun t20 a18 ht19 => ?_)
  · exact hx10
  · refine Keeps.foldl ?_ (fun t23 a21 ht22 => ?_)
    · exact ht19
    · split
      refine State.scramble_keeps hl ?_
      exact ht22

theorem State.dropRuns_keeps (hl : Parts.le [.disps, .switches, .credits] ps = true) {s : State} (hs : Keeps ps s0 s)
    : Keeps ps s0 (State.dropRuns s) := by
  unfold State.dropRuns
  refine Keeps.upd [.disps, .switches, .credits] hl rfl rfl ?_
  exact hs

theorem dispFaulted_keeps {v : Recovery} {y : Disp}
    (hl : Parts.le [.trcTok, .free, .mem, .acct, .regs, .bad, .trcSeq, .trcDrop, .ctxs, .dies] ps = true) {s : State}
    (hs : Keeps ps s0 s) : Keeps ps s0 (dispFaulted v y s) := by
  unfold dispFaulted
  refine Keeps.ite ?_ ?_
  · refine State.traceDisp_keeps (Parts.le_trans rfl hl) ?_
    refine Keeps.foldl ?_ (fun t3 a1 ht2 => ?_)
    · exact hs
    · refine finalSample_keeps (Parts.le_trans rfl hl) ?_
      exact ht2
  · exact hs

theorem recoverEnd_keeps {v : Recovery}
    (hl : Parts.le [.free, .hostMem, .mem, .trcTok, .acct, .regs, .bad, .trcSeq, .trcDrop, .ctxs, .dies, .cores,
      .dmaq, .streams, .fns, .colls, .combs, .arms, .disps, .switches, .credits, .hops] ps = true) {s : State}
    (hs : Keeps ps s0 s) : Keeps ps s0 (recoverEnd v s) := by
  unfold recoverEnd
  extract_lets +onlyGivenNames x1
  have hx1 : Keeps ps s0 x1 := by
    subst x1
    refine scrambleWrites_keeps (Parts.le_trans rfl hl) ?_
    exact hs
  clear_value x1
  extract_lets +onlyGivenNames x2
  have hx2 : Keeps ps s0 x2 := by
    subst x2
    refine Keeps.foldl ?_ (fun t5 a3 ht4 => ?_)
    · exact hx1
    · refine dispFaulted_keeps (Parts.le_trans rfl hl) ?_
      exact ht4
  clear_value x2
  extract_lets +onlyGivenNames x6
  have hx6 : Keeps ps s0 x6 := by
    subst x6
    refine Keeps.foldl ?_ (fun t9 a7 ht8 => ?_)
    · exact hx2
    · extract_lets +onlyGivenNames x10
      have hx10 : Keeps ps s0 x10 := by
        subst x10
        refine Keeps.foldl ?_ (fun t13 a11 ht12 => ?_)
        · exact ht8
        · refine State.modCore_keeps (Parts.le_trans rfl hl) ?_
          exact ht12
      clear_value x10
      refine State.modDie_keeps (Parts.le_trans rfl hl) ?_
      exact hx10
  clear_value x6
  extract_lets +onlyGivenNames x14
  have hx14 : Keeps ps s0 x14 := by
    subst x14
    refine Keeps.foldl ?_ (fun t17 a15 ht16 => ?_)
    · exact hx6
    · refine State.setDq_keeps (Parts.le_trans rfl hl) ?_
      exact ht16
  clear_value x14
  extract_lets +onlyGivenNames x18
  have hx18 : Keeps ps s0 x18 := by
    subst x18
    refine Keeps.foldl ?_ (fun t21 a19 ht20 => ?_)
    · exact hx14
    · split
      refine State.streamOff_keeps (Parts.le_trans rfl hl) ?_
      exact ht20
  clear_value x18
  extract_lets +onlyGivenNames x22
  have hx22 : Keeps ps s0 x22 := by
    subst x22
    refine Keeps.foldl ?_ (fun t25 a23 ht24 => ?_)
    · exact hx18
    · refine State.dropColl_keeps (Parts.le_trans rfl hl) ?_
      exact ht24
  clear_value x22
  refine State.dropRuns_keeps (Parts.le_trans rfl hl) ?_
  refine Keeps.upd [.hops] (Parts.le_trans rfl hl) rfl rfl ?_
  exact hx22

theorem recoverClear_keeps (hl : Parts.le [.cores, .mem, .dies, .ctxs, .plans, .chains] ps = true) {s : State}
    (hs : Keeps ps s0 s) : Keeps ps s0 (recoverClear s) := by
  unfold recoverClear
  extract_lets +onlyGivenNames x1
  have hx1 : Keeps ps s0 x1 := by
    subst x1
    refine Keeps.foldl ?_ (fun t4 a2 ht3 => ?_)
    · exact hs
    · extract_lets +onlyGivenNames x5
      have hx5 : Keeps ps s0 x5 := by
        subst x5
        refine zeroDie_keeps (Parts.le_trans rfl hl) ?_
        exact ht3
      clear_value x5
      extract_lets +onlyGivenNames x6
      have hx6 : Keeps ps s0 x6 := by
        subst x6
        refine State.modDie_keeps (Parts.le_trans rfl hl) ?_
        exact hx5
      clear_value x6
      refine Keeps.ite ?_ ?_
      · refine State.renumber_keeps (Parts.le_trans rfl hl) ?_
        exact hx6
      · exact hx6
  clear_value x1
  extract_lets +onlyGivenNames x7
  have hx7 : Keeps ps s0 x7 := by
    subst x7
    refine Keeps.foldl ?_ (fun t10 a8 ht9 => ?_)
    · exact hx1
    · refine Keeps.ite ?_ ?_
      · refine State.modCtx_keeps (Parts.le_trans rfl hl) ?_
        exact ht9
      · exact ht9
  clear_value x7
  refine Keeps.upd [.plans, .chains] (Parts.le_trans rfl hl) rfl rfl ?_
  exact hx7

theorem recoverStatus_keeps {v : Recovery}
    (hl : Parts.le [.hostMem, .mem, .reports, .acct, .free, .regs, .bad, .rings, .descs, .ctxs, .hub, .out] ps = true)
    {s : State} (hs : Keeps ps s0 s) : Keeps ps s0 (recoverStatus v s) := by
  unfold recoverStatus
  extract_lets +onlyGivenNames x1
  have hx1 : Keeps ps s0 x1 := by
    subst x1
    refine Keeps.foldl ?_ (fun t4 a2 ht3 => ?_)
    · exact hs
    · split
      refine State.complete_keeps hl ?_
      exact ht3
  clear_value x1
  extract_lets +onlyGivenNames x5
  have hx5 : Keeps ps s0 x5 := by
    subst x5
    refine Keeps.foldl ?_ (fun t8 a6 ht7 => ?_)
    · exact hx1
    · split
      refine State.eventPush_keeps (Parts.le_trans rfl hl) ?_
      exact ht7
  clear_value x5
  refine Keeps.foldl ?_ (fun t11 a9 ht10 => ?_)
  · exact hx5
  · refine Keeps.ite ?_ ?_
    · exact ht10
    · refine State.modCtx_keeps (Parts.le_trans rfl hl) ?_
      exact ht10

theorem leaveService_keeps {kind : ℕ} {die : ℕ} {unit : ℕ}
    (hl : Parts.le [.recovery, .fab, .hub, .regs, .out, .store, .free, .acct, .frings] ps = true) {s : State}
    (hs : Keeps ps s0 s) : Keeps ps s0 (leaveService kind die unit s) := by
  unfold leaveService
  extract_lets +onlyGivenNames x1
  clear_value x1
  extract_lets +onlyGivenNames x2
  clear_value x2
  extract_lets +onlyGivenNames x3
  have hx3 : Keeps ps s0 x3 := by
    subst x3
    refine Keeps.upd [.recovery, .fab, .hub] (Parts.le_trans rfl hl) rfl rfl ?_
    exact hs
  clear_value x3
  refine State.msix_keeps (Parts.le_trans rfl hl) ?_
  refine State.logFault_keeps (Parts.le_trans rfl hl) ?_
  refine fabPump_keeps (Parts.le_trans rfl hl) ?_
  exact hx3

theorem recoverResume_keeps {v : Recovery}
    (hl : Parts.le [.regs, .reports, .recovery, .fab, .hub, .out, .store, .free, .acct, .frings] ps = true)
    {s : State} (hs : Keeps ps s0 s) : Keeps ps s0 (recoverResume v s) := by
  unfold recoverResume
  extract_lets +onlyGivenNames x1
  have hx1 : Keeps ps s0 x1 := by
    subst x1
    refine State.bump_keeps (Parts.le_trans rfl hl) ?_
    refine State.countLater_keeps (Parts.le_trans rfl hl) ?_
    exact hs
  clear_value x1
  split
  · refine leaveService_keeps (Parts.le_trans rfl hl) ?_
    exact hx1
  · refine Keeps.upd [.recovery] (Parts.le_trans rfl hl) rfl rfl ?_
    exact hx1

theorem recoveryStep_keeps {v : Recovery}
    (hl : Parts.le [.regs, .arb, .store, .trcTok, .free, .mem, .acct, .bad, .trcSeq, .trcDrop, .hostMem, .ctxs,
      .dies, .cores, .dmaq, .streams, .fns, .colls, .combs, .arms, .disps, .switches, .credits, .hops, .plans,
      .chains, .reports, .rings, .descs, .hub, .out, .recovery, .fab, .frings] ps = true) {s : State}
    (hs : Keeps ps s0 s) : Keeps ps s0 (recoveryStep v s) := by
  unfold recoveryStep
  split
  · refine recoverStop_keeps (Parts.le_trans rfl hl) ?_
    exact hs
  · refine recoverEnd_keeps (Parts.le_trans rfl hl) ?_
    exact hs
  · refine recoverClear_keeps (Parts.le_trans rfl hl) ?_
    exact hs
  · refine recoverStatus_keeps (Parts.le_trans rfl hl) ?_
    exact hs
  · refine State.msix_keeps (Parts.le_trans rfl hl) ?_
    exact hs
  · refine recoverResume_keeps (Parts.le_trans rfl hl) ?_
    exact hs

theorem execRecoveryStepDone_keeps
    (hl : Parts.le [.regs, .arb, .store, .trcTok, .free, .mem, .acct, .bad, .trcSeq, .trcDrop, .hostMem, .ctxs,
      .dies, .cores, .dmaq, .streams, .fns, .colls, .combs, .arms, .disps, .switches, .credits, .hops, .plans,
      .chains, .reports, .rings, .descs, .hub, .out, .recovery, .fab, .frings] ps = true) {s : State}
    (hs : Keeps ps s0 s) {s' : State} (e : execRecoveryStepDone s = .next s') : Keeps ps s0 s' := by
  unfold execRecoveryStepDone at e
  refine Keeps.next ?_ e
  split
  · refine Keeps.ite ?_ ?_
    · extract_lets +onlyGivenNames x1
      have hx1 : Keeps ps s0 x1 := by
        subst x1
        refine recoveryStep_keeps hl ?_
        exact hs
      clear_value x1
      refine Keeps.upd [.recovery] (Parts.le_trans rfl hl) rfl rfl ?_
      exact hx1
    · exact hs
  · exact hs

theorem lossOf_keeps {kind : ℕ} {die : ℕ} {unit : ℕ} {addr : ℕ}
    (hl : Parts.le [.hub, .regs, .out, .store, .free, .boot, .reports, .recovery] ps = true) {s : State}
    (hs : Keeps ps s0 s) : Keeps ps s0 (lossOf kind die unit addr s) := by
  unfold lossOf
  refine Keeps.ite ?_ ?_
  · exact hs
  · refine Keeps.ite ?_ ?_
    · extract_lets +onlyGivenNames x1
      have hx1 : Keeps ps s0 x1 := by
        subst x1
        refine State.msix_keeps (Parts.le_trans rfl hl) ?_
        refine State.setRegFld_keeps (Parts.le_trans rfl hl) ?_
        refine State.logFault_keeps (Parts.le_trans rfl hl) ?_
        exact hs
      clear_value x1
      refine Keeps.upd [.hub, .boot] (Parts.le_trans rfl hl) rfl rfl ?_
      exact hx1
    · extract_lets +onlyGivenNames x2
      clear_value x2
      extract_lets +onlyGivenNames x3
      have hx3 : Keeps ps s0 x3 := by
        subst x3
        refine Keeps.ite ?_ ?_
        · refine State.countLater_keeps (Parts.le_trans rfl hl) ?_
          exact hs
        · refine faultPoint_keeps (Parts.le_trans rfl hl) ?_
          exact hs
      clear_value x3
      refine Keeps.upd [.recovery] (Parts.le_trans rfl hl) rfl rfl ?_
      exact hx3

theorem loseDie_keeps {d : Die} {unit : ℕ}
    (hl : Parts.le [.dies, .store, .hub, .regs, .out, .free, .boot, .reports, .recovery] ps = true) {s : State}
    (hs : Keeps ps s0 s) : Keeps ps s0 (loseDie d unit s) := by
  unfold loseDie
  refine Keeps.ite ?_ ?_
  · exact hs
  · extract_lets +onlyGivenNames x1
    have hx1 : Keeps ps s0 x1 := by
      subst x1
      refine State.modDie_keeps (Parts.le_trans rfl hl) ?_
      exact hs
    clear_value x1
    extract_lets +onlyGivenNames x2
    clear_value x2
    extract_lets +onlyGivenNames x3
    clear_value x3
    extract_lets +onlyGivenNames x4
    clear_value x4
    extract_lets +onlyGivenNames x5
    clear_value x5
    extract_lets +onlyGivenNames x6
    have hx6 : Keeps ps s0 x6 := by
      subst x6
      refine Keeps.upd [.store] (Parts.le_trans rfl hl) rfl rfl ?_
      exact hx1
    clear_value x6
    refine lossOf_keeps (Parts.le_trans rfl hl) ?_
    exact hx6

/-! ### Measure -/

theorem State.setBankImage_keeps {b : Bool} {x : Image} (hl : Parts.le [.store] ps = true) {s : State}
    (hs : Keeps ps s0 s) : Keeps ps s0 (State.setBankImage s b x) := by
  unfold State.setBankImage
  refine Keeps.upd [.store] hl rfl rfl ?_
  exact hs

theorem State.extend_keeps {idx : ℕ} {dg : BitVec 512} (hl : Parts.le [.meas] ps = true) {s : State}
    (hs : Keeps ps s0 s) : Keeps ps s0 (State.extend s idx dg) := by
  unfold State.extend
  extract_lets +onlyGivenNames x1
  clear_value x1
  extract_lets +onlyGivenNames x2
  clear_value x2
  extract_lets +onlyGivenNames x3
  clear_value x3
  refine Keeps.upd [.meas] hl rfl rfl ?_
  exact hs

theorem State.extendImage_keeps {x : Image} (hl : Parts.le [.meas] ps = true) {s : State} (hs : Keeps ps s0 s) : Keeps
    ps s0 (State.extendImage s x) := by
  unfold State.extendImage
  refine Keeps.foldl ?_ (fun t3 a1 ht2 => ?_)
  · exact hs
  · refine State.extend_keeps hl ?_
    exact ht2

theorem State.extendSecurity_keeps (hl : Parts.le [.meas] ps = true) {s : State} (hs : Keeps ps s0 s) : Keeps ps s0
    (State.extendSecurity s) := by
  unfold State.extendSecurity
  refine State.extend_keeps hl ?_
  exact hs

/-! ### Reset -/

/-- A state begun anew: memory lists nothing and nothing is in flight. -/
theorem Keeps.fresh {s t : State} (p : List Part) (hl : Parts.le p ps = true) (hp : p.contains .pending = false)
    (ht : Within p s t) (h1 : t.mem = []) (h2 : t.hostMem = s.hostMem) (ho : s.out <+: t.out) (h6 : t.descs = [])
    (h : Keeps ps s0 s) : Keeps ps s0 t := by
  refine Keeps.change p hl hp ht (fun m => ⟨?_, ?_⟩) (fun _ => ?_) ho h
  · unfold State.memWf; rw [h1]; rfl
  · unfold State.hostWf; rw [h2]; exact m.2
  · unfold FlightOk
    rw [h6]
    exact ⟨List.Pairwise.nil, fun x hx => (by cases hx), Nat.zero_le _, fun r => by
      unfold State.inflight; rw [h6]; exact Nat.zero_le _⟩

theorem resetTo_keeps {kind : ResetKind} {trigger : ℕ} (hl : Parts.le Parts.any ps = true) {s : State}
    (hs : Keeps ps s0 s) :
    Keeps ps s0 (resetTo kind trigger s) := by
  unfold resetTo
  extract_lets store hub regs boot base base2
  have hb : Keeps ps s0 base := Keeps.fresh (s := s) Parts.any hl rfl rfl rfl rfl (List.prefix_append _ _) rfl hs
  have hb2 : Keeps ps s0 base2 := Keeps.upd [.regionMap] (Parts.le_trans rfl hl) rfl rfl hb
  exact State.setRegFld_keeps (Parts.le_trans rfl hl) (State.setReg_keeps (Parts.le_trans rfl hl) hb2)

theorem warmReset_keeps {trigger : ℕ} (hl : Parts.le Parts.any ps = true) {s : State} (hs : Keeps ps s0 s) : Keeps ps
    s0 (warmReset trigger s) := by
  unfold warmReset
  refine resetTo_keeps hl ?_
  exact hs

theorem coldReset_keeps {trigger : ℕ} (hl : Parts.le Parts.any ps = true) {s : State} (hs : Keeps ps s0 s) : Keeps ps
    s0 (coldReset trigger s) := by
  unfold coldReset
  extract_lets +onlyGivenNames x1
  have hx1 : Keeps ps s0 x1 := by
    subst x1
    refine resetTo_keeps hl ?_
    exact hs
  clear_value x1
  refine Keeps.upd [.regionMap] (Parts.le_trans rfl hl) rfl rfl ?_
  exact hx1

theorem moduleStop_keeps (hl : Parts.le Parts.any ps = true) {s : State} (hs : Keeps ps s0 s) :
    Keeps ps s0 (moduleStop s) := by
  unfold moduleStop
  exact Keeps.fresh (s := s) Parts.any hl rfl rfl rfl rfl (List.prefix_append _ _) rfl hs

theorem perstAssert_keeps {lowNs : ℕ} (hl : Parts.le Parts.any ps = true) {s : State} (hs : Keeps ps s0 s) : Keeps ps
    s0 (perstAssert lowNs s) := by
  unfold perstAssert
  refine Keeps.ite ?_ ?_
  · exact hs
  · extract_lets +onlyGivenNames x1
    clear_value x1
    extract_lets +onlyGivenNames x2
    have hx2 : Keeps ps s0 x2 := by
      subst x2
      refine Keeps.upd [.boot] (Parts.le_trans rfl hl) rfl rfl ?_
      exact hs
    clear_value x2
    refine Keeps.ite ?_ ?_
    · refine warmReset_keeps (Parts.le_trans rfl hl) ?_
      exact hx2
    · exact hx2

theorem execPerstAssert_keeps {lowNs : ℕ} (hl : Parts.le Parts.any ps = true) {s : State} (hs : Keeps ps s0 s)
    {s' : State} (e : execPerstAssert lowNs s = .next s') : Keeps ps s0 s' := by
  unfold execPerstAssert at e
  refine Keeps.next ?_ e
  refine perstAssert_keeps hl ?_
  exact hs

theorem execPerstDeassert_keeps (hl : Parts.le [.boot] ps = true) {s : State} (hs : Keeps ps s0 s) {s' : State}
    (e : execPerstDeassert s = .next s') : Keeps ps s0 s' := by
  unfold execPerstDeassert at e
  refine Keeps.next ?_ e
  refine Keeps.upd [.boot] hl rfl rfl ?_
  exact hs

theorem execHotReset_keeps (hl : Parts.le Parts.any ps = true) {s : State} (hs : Keeps ps s0 s) {s' : State}
    (e : execHotReset s = .next s') : Keeps ps s0 s' := by
  unfold execHotReset at e
  refine Keeps.next ?_ e
  refine Keeps.ite ?_ ?_
  · refine warmReset_keeps hl ?_
    exact hs
  · exact hs

theorem resetReq_keeps {lowNs : ℕ} (hl : Parts.le Parts.any ps = true) {s : State} (hs : Keeps ps s0 s) : Keeps ps s0
    (resetReq lowNs s) := by
  unfold resetReq
  extract_lets +onlyGivenNames x1
  clear_value x1
  extract_lets +onlyGivenNames x2
  have hx2 : Keeps ps s0 x2 := by
    subst x2
    refine Keeps.upd [.boot] (Parts.le_trans rfl hl) rfl rfl ?_
    exact hs
  clear_value x2
  refine Keeps.ite ?_ ?_
  · exact hx2
  · refine Keeps.ite ?_ ?_
    · exact hs
    · refine coldReset_keeps (Parts.le_trans rfl hl) ?_
      exact hx2

theorem execResetReq_keeps {lowNs : ℕ} (hl : Parts.le Parts.any ps = true) {s : State} (hs : Keeps ps s0 s)
    {s' : State} (e : execResetReq lowNs s = .next s') : Keeps ps s0 s' := by
  unfold execResetReq at e
  refine Keeps.next ?_ e
  refine resetReq_keeps hl ?_
  exact hs

theorem execResetReqRelease_keeps (hl : Parts.le [.boot] ps = true) {s : State} (hs : Keeps ps s0 s) {s' : State}
    (e : execResetReqRelease s = .next s') : Keeps ps s0 s' := by
  unfold execResetReqRelease at e
  refine Keeps.next ?_ e
  refine Keeps.upd [.boot] hl rfl rfl ?_
  exact hs

theorem State.setFeed_keeps {f : Feed} {used : Bool} (hl : Parts.le [.boot] ps = true) {s : State}
    (hs : Keeps ps s0 s) : Keeps ps s0 (State.setFeed s f used) := by
  unfold State.setFeed
  refine Keeps.upd [.boot] hl rfl rfl ?_
  exact hs

theorem State.showFeed_keeps {f : Feed} {used : Bool} {v : ℕ} (hl : Parts.le [.regs] ps = true) {s : State}
    (hs : Keeps ps s0 s) : Keeps ps s0 (State.showFeed s f used v) := by
  unfold State.showFeed
  split
  extract_lets +onlyGivenNames x1
  clear_value x1
  refine State.modReg_keeps hl ?_
  exact hs

theorem feedDisconnect_keeps {f : Feed} {v : ℕ} (hl : Parts.le Parts.any ps = true) {s : State} (hs : Keeps ps s0 s) :
    Keeps ps s0 (feedDisconnect f v s) := by
  unfold feedDisconnect
  extract_lets +onlyGivenNames x1
  clear_value x1
  extract_lets +onlyGivenNames x2
  have hx2 : Keeps ps s0 x2 := by
    subst x2
    refine State.setFeed_keeps (Parts.le_trans rfl hl) ?_
    exact hs
  clear_value x2
  refine Keeps.ite ?_ ?_
  · extract_lets +onlyGivenNames x3
    have hx3 : Keeps ps s0 x3 := by
      subst x3
      refine State.bumpSat_keeps (Parts.le_trans rfl hl) ?_
      refine State.showFeed_keeps (Parts.le_trans rfl hl) ?_
      exact hx2
    clear_value x3
    refine State.degraded_keeps (Parts.le_trans rfl hl) ?_
    exact hx3
  · refine moduleStop_keeps (Parts.le_trans rfl hl) ?_
    exact hx2

theorem execFeedDisconnect_keeps {f : Feed} {volt : ℕ} (hl : Parts.le Parts.any ps = true) {s : State}
    (hs : Keeps ps s0 s) {s' : State} (e : execFeedDisconnect f volt s = .next s') : Keeps ps s0 s' := by
  unfold execFeedDisconnect at e
  refine Keeps.next ?_ e
  refine Keeps.ite ?_ ?_
  · refine feedDisconnect_keeps hl ?_
    exact hs
  · exact hs

theorem feedReconnect_keeps {f : Feed} {v : ℕ} (hl : Parts.le [.regs, .boot] ps = true) {s : State}
    (hs : Keeps ps s0 s) : Keeps ps s0 (feedReconnect f v s) := by
  unfold feedReconnect
  refine State.setRegFld_keeps (Parts.le_trans rfl hl) ?_
  refine State.bumpSat_keeps (Parts.le_trans rfl hl) ?_
  refine State.showFeed_keeps (Parts.le_trans rfl hl) ?_
  refine State.setFeed_keeps (Parts.le_trans rfl hl) ?_
  exact hs

theorem execFeedReconnect_keeps {f : Feed} {volt : ℕ} (hl : Parts.le [.regs, .boot] ps = true) {s : State}
    (hs : Keeps ps s0 s) {s' : State} (e : execFeedReconnect f volt s = .next s') : Keeps ps s0 s' := by
  unfold execFeedReconnect at e
  refine Keeps.next ?_ e
  refine Keeps.ite ?_ ?_
  · refine feedReconnect_keeps hl ?_
    exact hs
  · exact hs

theorem powerOn_keeps {voltA : ℕ} {voltB : ℕ} {slotId : Fin 16} (hl : Parts.le Parts.any ps = true) {s : State}
    (hs : Keeps ps s0 s) : Keeps ps s0 (powerOn voltA voltB slotId s) := by
  unfold powerOn
  extract_lets +onlyGivenNames x1
  clear_value x1
  extract_lets +onlyGivenNames x2
  have hx2 : Keeps ps s0 x2 := by
    subst x2
    refine State.setFeed_keeps (Parts.le_trans rfl hl) ?_
    refine State.setFeed_keeps (Parts.le_trans rfl hl) ?_
    refine Keeps.upd [.boot] (Parts.le_trans rfl hl) rfl rfl ?_
    exact hs
  clear_value x2
  refine resetTo_keeps (Parts.le_trans rfl hl) ?_
  refine Keeps.upd [.regionMap] (Parts.le_trans rfl hl) rfl rfl ?_
  exact hx2

theorem execPowerOn_keeps {voltA : ℕ} {voltB : ℕ} {slotId : Fin 16} (hl : Parts.le Parts.any ps = true) {s : State}
    (hs : Keeps ps s0 s) {s' : State} (e : execPowerOn voltA voltB slotId s = .next s') : Keeps ps s0 s' := by
  unfold execPowerOn at e
  refine Keeps.next ?_ e
  refine Keeps.ite ?_ ?_
  · refine powerOn_keeps hl ?_
    exact hs
  · exact hs

/-! ### Repair -/

theorem galleryBankMigrate_keeps {d : Die} {bank : Fin 64}
    (hl : Parts.le [.dies, .regs, .store, .free, .hub, .out] ps = true) {s : State} (hs : Keeps ps s0 s) : Keeps ps s0
    (galleryBankMigrate d bank s) := by
  unfold galleryBankMigrate
  split
  · refine State.modDie_keeps (Parts.le_trans rfl hl) ?_
    refine State.modReg_keeps (Parts.le_trans rfl hl) ?_
    exact hs
  · refine State.degraded_keeps (Parts.le_trans rfl hl) ?_
    exact hs

theorem execGalleryBankMigrate_keeps {d : Die} {bank : Fin 64}
    (hl : Parts.le [.dies, .regs, .store, .free, .hub, .out] ps = true) {s : State} (hs : Keeps ps s0 s) {s' : State}
    (e : execGalleryBankMigrate d bank s = .next s') : Keeps ps s0 s' := by
  unfold execGalleryBankMigrate at e
  refine Keeps.next ?_ e
  refine Keeps.ite ?_ ?_
  · refine galleryBankMigrate_keeps hl ?_
    refine State.modDie_keeps (Parts.le_trans rfl hl) ?_
    exact hs
  · exact hs

theorem galleryBankSwitch_keeps {d : Die} {k : Fin 4}
    (hl : Parts.le [.regs, .store, .trcTok, .free, .mem, .acct, .bad, .trcSeq, .trcDrop, .hub, .out] ps = true)
    {s : State} (hs : Keeps ps s0 s) : Keeps ps s0 (galleryBankSwitch d k s) := by
  unfold galleryBankSwitch
  extract_lets +onlyGivenNames x1
  have hx1 : Keeps ps s0 x1 := by
    subst x1
    refine State.setRegFld_keeps (Parts.le_trans rfl hl) ?_
    exact hs
  clear_value x1
  extract_lets +onlyGivenNames x2
  clear_value x2
  extract_lets +onlyGivenNames x3
  clear_value x3
  extract_lets +onlyGivenNames x4
  clear_value x4
  extract_lets +onlyGivenNames x5
  clear_value x5
  extract_lets +onlyGivenNames x6
  clear_value x6
  extract_lets +onlyGivenNames x7
  have hx7 : Keeps ps s0 x7 := by
    subst x7
    refine Keeps.upd [.store] (Parts.le_trans rfl hl) rfl rfl ?_
    exact hx1
  clear_value x7
  extract_lets +onlyGivenNames x8
  clear_value x8
  refine State.repairedAt_keeps (Parts.le_trans rfl hl) ?_
  exact hx7

theorem galleryBankSwitchEv_keeps {d : Die} {k : Fin 4}
    (hl : Parts.le [.regs, .store, .trcTok, .free, .mem, .acct, .bad, .trcSeq, .trcDrop, .hub, .out] ps = true)
    {s : State} (hs : Keeps ps s0 s) : Keeps ps s0 (galleryBankSwitchEv d k s) := by
  unfold galleryBankSwitchEv
  refine Keeps.ite ?_ ?_
  · refine galleryBankSwitch_keeps hl ?_
    exact hs
  · exact hs

theorem bridgeFail_keeps {b : Bridge}
    (hl : Parts.le [.hub, .store, .free, .regs, .out, .boot, .reports, .recovery] ps = true) {s : State}
    (hs : Keeps ps s0 s) : Keeps ps s0 (bridgeFail b s) := by
  unfold bridgeFail
  split
  extract_lets +onlyGivenNames x1
  clear_value x1
  extract_lets +onlyGivenNames x2
  clear_value x2
  extract_lets +onlyGivenNames x3
  have hx3 : Keeps ps s0 x3 := by
    subst x3
    refine Keeps.upd [.hub] (Parts.le_trans rfl hl) rfl rfl ?_
    exact hs
  clear_value x3
  refine Keeps.ite ?_ ?_
  · refine State.degraded_keeps (Parts.le_trans rfl hl) ?_
    exact hx3
  · refine lossOf_keeps (Parts.le_trans rfl hl) ?_
    exact hx3

theorem execBridgeFail_keeps {b : Bridge}
    (hl : Parts.le [.hub, .store, .free, .regs, .out, .boot, .reports, .recovery] ps = true) {s : State}
    (hs : Keeps ps s0 s) {s' : State} (e : execBridgeFail b s = .next s') : Keeps ps s0 s' := by
  unfold execBridgeFail at e
  refine Keeps.next ?_ e
  refine Keeps.ite ?_ ?_
  · refine bridgeFail_keeps hl ?_
    exact hs
  · exact hs

theorem newelFail_keeps {d : Die}
    (hl : Parts.le [.dies, .store, .hub, .regs, .out, .free, .boot, .reports, .recovery] ps = true) {s : State}
    (hs : Keeps ps s0 s) : Keeps ps s0 (newelFail d s) := by
  unfold newelFail
  refine Keeps.ite ?_ ?_
  · refine State.modDie_keeps (Parts.le_trans rfl hl) ?_
    exact hs
  · refine Keeps.ite ?_ ?_
    · refine State.modDie_keeps (Parts.le_trans rfl hl) ?_
      exact hs
    · refine loseDie_keeps hl ?_
      exact hs

theorem newelNext_keeps {d : Die}
    (hl : Parts.le [.dies, .store, .hub, .regs, .out, .free, .boot, .reports, .recovery] ps = true) {s : State}
    (hs : Keeps ps s0 s) : Keeps ps s0 (newelNext d s) := by
  unfold newelNext
  refine Keeps.ite ?_ ?_
  · refine newelFail_keeps hl ?_
    refine State.modDie_keeps (Parts.le_trans rfl hl) ?_
    exact hs
  · exact hs

theorem execNewelFail_keeps {d : Die}
    (hl : Parts.le [.dies, .store, .hub, .regs, .out, .free, .boot, .reports, .recovery] ps = true) {s : State}
    (hs : Keeps ps s0 s) {s' : State} (e : execNewelFail d s = .next s') : Keeps ps s0 s' := by
  unfold execNewelFail at e
  refine Keeps.next ?_ e
  refine Keeps.ite ?_ ?_
  · refine newelFail_keeps hl ?_
    exact hs
  · exact hs

theorem twinTakeoverDone_keeps {d : Die}
    (hl : Parts.le [.dies, .store, .hub, .regs, .out, .free, .boot, .reports, .recovery, .trcTok, .mem, .acct, .bad,
      .trcSeq, .trcDrop] ps = true) {s : State} (hs : Keeps ps s0 s) : Keeps ps s0 (twinTakeoverDone d s) := by
  unfold twinTakeoverDone
  extract_lets +onlyGivenNames x1
  have hx1 : Keeps ps s0 x1 := by
    subst x1
    refine State.modDie_keeps (Parts.le_trans rfl hl) ?_
    exact hs
  clear_value x1
  refine newelNext_keeps (Parts.le_trans rfl hl) ?_
  refine State.repairedSince_keeps (Parts.le_trans rfl hl) ?_
  exact hx1

theorem execTwinTakeoverDone_keeps {d : Die}
    (hl : Parts.le [.dies, .store, .hub, .regs, .out, .free, .boot, .reports, .recovery, .trcTok, .mem, .acct, .bad,
      .trcSeq, .trcDrop] ps = true) {s : State} (hs : Keeps ps s0 s) {s' : State}
    (e : execTwinTakeoverDone d s = .next s') : Keeps ps s0 s' := by
  unfold execTwinTakeoverDone at e
  refine Keeps.next ?_ e
  refine Keeps.ite ?_ ?_
  · refine twinTakeoverDone_keeps hl ?_
    exact hs
  · exact hs

theorem execStandbyTwinFault_keeps {d : Die} (hl : Parts.le [.store, .free, .hub, .regs, .out, .dies] ps = true)
    {s : State} (hs : Keeps ps s0 s) {s' : State} (e : execStandbyTwinFault d s = .next s') : Keeps ps s0 s' := by
  unfold execStandbyTwinFault at e
  refine Keeps.next ?_ e
  refine Keeps.ite ?_ ?_
  · refine State.degraded_keeps (Parts.le_trans rfl hl) ?_
    refine State.modDie_keeps (Parts.le_trans rfl hl) ?_
    exact hs
  · exact hs

theorem execDieUnitFailure_keeps {d : Die} {u : DieUnit}
    (hl : Parts.le [.dies, .store, .hub, .regs, .out, .free, .boot, .reports, .recovery] ps = true) {s : State}
    (hs : Keeps ps s0 s) {s' : State} (e : execDieUnitFailure d u s = .next s') : Keeps ps s0 s' := by
  unfold execDieUnitFailure at e
  refine Keeps.next ?_ e
  refine Keeps.ite ?_ ?_
  · refine loseDie_keeps hl ?_
    exact hs
  · exact hs

theorem State.failHalf_keeps {b : Bool} (hl : Parts.le [.hub, .store] ps = true) {s : State} (hs : Keeps ps s0 s) :
    Keeps ps s0 (State.failHalf s b) := by
  unfold State.failHalf
  extract_lets +onlyGivenNames x1
  clear_value x1
  extract_lets +onlyGivenNames x2
  clear_value x2
  extract_lets +onlyGivenNames x3
  clear_value x3
  refine Keeps.upd [.hub, .store] hl rfl rfl ?_
  exact hs

theorem beginTakeover_keeps {requested : Bool} (hl : Parts.le [.hub, .store] ps = true) {s : State}
    (hs : Keeps ps s0 s) : Keeps ps s0 (beginTakeover requested s) := by
  unfold beginTakeover
  refine Keeps.upd [.hub, .store] hl rfl rfl ?_
  exact hs

theorem hubHalfFail_keeps (hl : Parts.le Parts.any ps = true) {s : State} (hs : Keeps ps s0 s) : Keeps ps s0
    (hubHalfFail s) := by
  unfold hubHalfFail
  refine Keeps.ite ?_ ?_
  · refine Keeps.upd [.hub] (Parts.le_trans rfl hl) rfl rfl ?_
    exact hs
  · refine Keeps.ite ?_ ?_
    · refine beginTakeover_keeps (Parts.le_trans rfl hl) ?_
      refine State.failHalf_keeps (Parts.le_trans rfl hl) ?_
      exact hs
    · refine moduleStop_keeps (Parts.le_trans rfl hl) ?_
      refine State.failHalf_keeps (Parts.le_trans rfl hl) ?_
      exact hs

theorem execHubHalfFail_keeps (hl : Parts.le Parts.any ps = true) {s : State} (hs : Keeps ps s0 s) {s' : State}
    (e : execHubHalfFail s = .next s') : Keeps ps s0 s' := by
  unfold execHubHalfFail at e
  refine Keeps.next ?_ e
  refine Keeps.ite ?_ ?_
  · refine hubHalfFail_keeps hl ?_
    exact hs
  · exact hs

theorem hubTakeoverDone_keeps (hl : Parts.le Parts.any ps = true) {s : State} (hs : Keeps ps s0 s) : Keeps ps s0
    (hubTakeoverDone s) := by
  unfold hubTakeoverDone
  extract_lets +onlyGivenNames x1
  clear_value x1
  extract_lets +onlyGivenNames x2
  clear_value x2
  extract_lets +onlyGivenNames x3
  have hx3 : Keeps ps s0 x3 := by
    subst x3
    refine Keeps.upd [.hub] (Parts.le_trans rfl hl) rfl rfl ?_
    exact hs
  clear_value x3
  extract_lets +onlyGivenNames x4
  have hx4 : Keeps ps s0 x4 := by
    subst x4
    refine State.answersRelease_keeps (Parts.le_trans rfl hl) ?_
    refine State.msixRelease_keeps (Parts.le_trans rfl hl) ?_
    refine State.extendSecurity_keeps (Parts.le_trans rfl hl) ?_
    exact hx3
  clear_value x4
  extract_lets +onlyGivenNames x5
  have hx5 : Keeps ps s0 x5 := by
    subst x5
    refine Keeps.ite ?_ ?_
    · refine State.repairedSince_keeps (Parts.le_trans rfl hl) ?_
      exact hx4
    · refine State.repairedSince_keeps (Parts.le_trans rfl hl) ?_
      exact hx4
  clear_value x5
  refine Keeps.ite ?_ ?_
  · refine hubHalfFail_keeps (Parts.le_trans rfl hl) ?_
    refine Keeps.upd [.hub] (Parts.le_trans rfl hl) rfl rfl ?_
    exact hx5
  · exact hx5

theorem execStandbyHalfFail_keeps (hl : Parts.le [.store, .free, .hub, .regs, .out] ps = true) {s : State}
    (hs : Keeps ps s0 s) {s' : State} (e : execStandbyHalfFail s = .next s') : Keeps ps s0 s' := by
  unfold execStandbyHalfFail at e
  refine Keeps.next ?_ e
  refine Keeps.ite ?_ ?_
  · refine State.degraded_keeps hl ?_
    refine State.failHalf_keeps (Parts.le_trans rfl hl) ?_
    exact hs
  · exact hs

theorem hubSwap_keeps (hl : Parts.le [.hub, .store] ps = true) {s : State} (hs : Keeps ps s0 s) : Keeps ps s0
    (hubSwap s) := by
  unfold hubSwap
  refine Keeps.ite ?_ ?_
  · refine beginTakeover_keeps hl ?_
    exact hs
  · exact hs

theorem storeWrite_keeps (hl : Parts.le [.store] ps = true) {s : State} (hs : Keeps ps s0 s) : Keeps ps s0
    (storeWrite s) := by
  unfold storeWrite
  extract_lets +onlyGivenNames x1
  clear_value x1
  extract_lets +onlyGivenNames x2
  clear_value x2
  extract_lets +onlyGivenNames x3
  clear_value x3
  refine Keeps.upd [.store] hl rfl rfl ?_
  exact hs

theorem execStoreWrite_keeps (hl : Parts.le [.store] ps = true) {s : State} (hs : Keeps ps s0 s) {s' : State}
    (e : execStoreWrite s = .next s') : Keeps ps s0 s' := by
  unfold execStoreWrite at e
  refine Keeps.next ?_ e
  refine Keeps.ite ?_ ?_
  · refine storeWrite_keeps hl ?_
    exact hs
  · exact hs

theorem storeWriteDone_keeps {toB : Bool} (hl : Parts.le [.store] ps = true) {s : State} (hs : Keeps ps s0 s) : Keeps
    ps s0 (storeWriteDone toB s) := by
  unfold storeWriteDone
  extract_lets +onlyGivenNames x1
  clear_value x1
  extract_lets +onlyGivenNames x2
  clear_value x2
  refine Keeps.upd [.store] hl rfl rfl ?_
  exact hs

theorem execStoreWriteDone_keeps (hl : Parts.le [.store] ps = true) {s : State} (hs : Keeps ps s0 s) {s' : State}
    (e : execStoreWriteDone s = .next s') : Keeps ps s0 s' := by
  unfold execStoreWriteDone at e
  refine Keeps.next ?_ e
  split
  · refine Keeps.ite ?_ ?_
    · refine storeWriteDone_keeps hl ?_
      exact hs
    · exact hs
  · exact hs

theorem State.setFw_keeps {state : ℕ} {result : ℕ} (hl : Parts.le [.regs] ps = true) {s : State} (hs : Keeps ps s0 s)
    : Keeps ps s0 (State.setFw s state result) := by
  unfold State.setFw
  refine State.modReg_keeps hl ?_
  exact hs

theorem State.selectBank_keeps {b : Bool} (hl : Parts.le [.regs, .store] ps = true) {s : State} (hs : Keeps ps s0 s) :
    Keeps ps s0 (State.selectBank s b) := by
  unfold State.selectBank
  extract_lets +onlyGivenNames x1
  have hx1 : Keeps ps s0 x1 := by
    subst x1
    refine State.setRegFld_keeps (Parts.le_trans rfl hl) ?_
    exact hs
  clear_value x1
  refine Keeps.upd [.store] (Parts.le_trans rfl hl) rfl rfl ?_
  exact hx1

theorem fwStage_keeps (hl : Parts.le [.store, .fw, .regs] ps = true) {s : State} (hs : Keeps ps s0 s) : Keeps ps s0
    (fwStage s) := by
  unfold fwStage
  refine Keeps.ite ?_ ?_
  · exact hs
  · extract_lets +onlyGivenNames x1
    clear_value x1
    extract_lets +onlyGivenNames x2
    clear_value x2
    extract_lets +onlyGivenNames x3
    have hx3 : Keeps ps s0 x3 := by
      subst x3
      refine State.setBankImage_keeps (Parts.le_trans rfl hl) ?_
      exact hs
    clear_value x3
    extract_lets +onlyGivenNames x4
    clear_value x4
    extract_lets +onlyGivenNames x5
    have hx5 : Keeps ps s0 x5 := by
      subst x5
      refine Keeps.upd [.fw] (Parts.le_trans rfl hl) rfl rfl ?_
      exact hx3
    clear_value x5
    refine State.setFw_keeps (Parts.le_trans rfl hl) ?_
    exact hx5

theorem fwStageDone_keeps (hl : Parts.le [.regs, .store, .fw] ps = true) {s : State} (hs : Keeps ps s0 s) : Keeps ps
    s0 (fwStageDone s) := by
  unfold fwStageDone
  split
  · refine State.setFw_keeps (Parts.le_trans rfl hl) ?_
    exact hs
  · extract_lets +onlyGivenNames x1
    clear_value x1
    extract_lets +onlyGivenNames x2
    have hx2 : Keeps ps s0 x2 := by
      subst x2
      refine State.setBankImage_keeps (Parts.le_trans rfl hl) ?_
      exact hs
    clear_value x2
    extract_lets +onlyGivenNames x3
    clear_value x3
    refine Keeps.ite ?_ ?_
    · refine State.setFw_keeps (Parts.le_trans rfl hl) ?_
      refine Keeps.upd [.fw] (Parts.le_trans rfl hl) rfl rfl ?_
      exact hx2
    · refine State.setFw_keeps (Parts.le_trans rfl hl) ?_
      exact hx2

theorem execFwStageDone_keeps (hl : Parts.le [.regs, .store, .fw] ps = true) {s : State} (hs : Keeps ps s0 s)
    {s' : State} (e : execFwStageDone s = .next s') : Keeps ps s0 s' := by
  unfold execFwStageDone at e
  refine Keeps.next ?_ e
  refine Keeps.ite ?_ ?_
  · refine fwStageDone_keeps hl ?_
    exact hs
  · exact hs

theorem fwActivate_keeps (hl : Parts.le [.regs, .fw] ps = true) {s : State} (hs : Keeps ps s0 s) : Keeps ps s0
    (fwActivate s) := by
  unfold fwActivate
  refine Keeps.ite ?_ ?_
  · exact hs
  · refine Keeps.ite ?_ ?_
    · refine State.setFw_keeps (Parts.le_trans rfl hl) ?_
      exact hs
    · refine State.setFw_keeps (Parts.le_trans rfl hl) ?_
      refine Keeps.upd [.fw] (Parts.le_trans rfl hl) rfl rfl ?_
      exact hs

theorem fwSelect_keeps {x : Image} (hl : Parts.le [.regs, .store, .hub, .fw, .meas] ps = true) {s : State}
    (hs : Keeps ps s0 s) : Keeps ps s0 (fwSelect x s) := by
  unfold fwSelect
  extract_lets +onlyGivenNames x1
  clear_value x1
  extract_lets +onlyGivenNames x2
  have hx2 : Keeps ps s0 x2 := by
    subst x2
    refine State.selectBank_keeps (Parts.le_trans rfl hl) ?_
    exact hs
  clear_value x2
  extract_lets +onlyGivenNames x3
  have hx3 : Keeps ps s0 x3 := by
    subst x3
    refine State.setRegFld_keeps (Parts.le_trans rfl hl) ?_
    exact hx2
  clear_value x3
  extract_lets +onlyGivenNames x4
  have hx4 : Keeps ps s0 x4 := by
    subst x4
    refine State.setRegFld_keeps (Parts.le_trans rfl hl) ?_
    exact hx3
  clear_value x4
  extract_lets +onlyGivenNames x5
  have hx5 : Keeps ps s0 x5 := by
    subst x5
    refine State.setReg_keeps (Parts.le_trans rfl hl) ?_
    exact hx4
  clear_value x5
  extract_lets +onlyGivenNames x6
  clear_value x6
  extract_lets +onlyGivenNames x7
  clear_value x7
  extract_lets +onlyGivenNames x8
  have hx8 : Keeps ps s0 x8 := by
    subst x8
    refine Keeps.upd [.hub, .fw] (Parts.le_trans rfl hl) rfl rfl ?_
    exact hx5
  clear_value x8
  refine State.extendSecurity_keeps (Parts.le_trans rfl hl) ?_
  refine State.extendImage_keeps (Parts.le_trans rfl hl) ?_
  exact hx8

theorem handStart_keeps {d : ℕ} (hl : Parts.le [.dies] ps = true) {s : State} (hs : Keeps ps s0 s) : Keeps ps s0
    (handStart d s) := by
  unfold handStart
  refine State.modDie_keeps hl ?_
  exact hs

theorem handEnd_keeps {d : ℕ}
    (hl : Parts.le [.dies, .store, .hub, .regs, .out, .free, .boot, .reports, .recovery] ps = true) {s : State}
    (hs : Keeps ps s0 s) : Keeps ps s0 (handEnd d s) := by
  unfold handEnd
  refine newelNext_keeps hl ?_
  refine State.modDie_keeps (Parts.le_trans rfl hl) ?_
  exact hs

theorem fwRollback_keeps {result : ℕ}
    (hl : Parts.le [.dies, .store, .hub, .regs, .out, .free, .boot, .reports, .recovery, .fw] ps = true) {s : State}
    (hs : Keeps ps s0 s) : Keeps ps s0 (fwRollback result s) := by
  unfold fwRollback
  extract_lets +onlyGivenNames x1
  clear_value x1
  extract_lets +onlyGivenNames x2
  have hx2 : Keeps ps s0 x2 := by
    subst x2
    split
    · refine handEnd_keeps (Parts.le_trans rfl hl) ?_
      exact hs
    · exact hs
  clear_value x2
  refine Keeps.upd [.fw] (Parts.le_trans rfl hl) rfl rfl ?_
  exact hx2

theorem fwUndone_keeps {result : ℕ} (hl : Parts.le [.regs, .meas, .fw] ps = true) {s : State} (hs : Keeps ps s0 s) :
    Keeps ps s0 (fwUndone result s) := by
  unfold fwUndone
  refine State.setFw_keeps (Parts.le_trans rfl hl) ?_
  refine State.extendImage_keeps (Parts.le_trans rfl hl) ?_
  refine Keeps.upd [.fw] (Parts.le_trans rfl hl) rfl rfl ?_
  exact hs

theorem fwStep_keeps {x : Image}
    (hl : Parts.le [.hub, .store, .fw, .dies, .regs, .out, .free, .boot, .reports, .recovery, .meas] ps = true)
    {s : State} (hs : Keeps ps s0 s) : Keeps ps s0 (fwStep x s) := by
  unfold fwStep
  split
  · exact hs
  · refine Keeps.ite ?_ ?_
    · refine beginTakeover_keeps (Parts.le_trans rfl hl) ?_
      refine Keeps.upd [.fw] (Parts.le_trans rfl hl) rfl rfl ?_
      exact hs
    · refine fwRollback_keeps (Parts.le_trans rfl hl) ?_
      exact hs
  · refine Keeps.upd [.fw] (Parts.le_trans rfl hl) rfl rfl ?_
    exact hs
  · refine Keeps.ite ?_ ?_
    · exact hs
    · refine Keeps.ite ?_ ?_
      · refine fwRollback_keeps (Parts.le_trans rfl hl) ?_
        exact hs
      · refine handStart_keeps (Parts.le_trans rfl hl) ?_
        refine Keeps.upd [.fw] (Parts.le_trans rfl hl) rfl rfl ?_
        exact hs
  · refine handEnd_keeps (Parts.le_trans rfl hl) ?_
    refine Keeps.upd [.fw] (Parts.le_trans rfl hl) rfl rfl ?_
    exact hs
  · refine fwSelect_keeps (Parts.le_trans rfl hl) ?_
    exact hs
  · refine State.setFw_keeps (Parts.le_trans rfl hl) ?_
    refine Keeps.upd [.hub, .fw] (Parts.le_trans rfl hl) rfl rfl ?_
    exact hs
  · refine Keeps.ite ?_ ?_
    · refine beginTakeover_keeps (Parts.le_trans rfl hl) ?_
      refine Keeps.upd [.fw] (Parts.le_trans rfl hl) rfl rfl ?_
      exact hs
    · refine fwUndone_keeps (Parts.le_trans rfl hl) ?_
      exact hs
  · refine Keeps.ite ?_ ?_
    · exact hs
    · refine handStart_keeps (Parts.le_trans rfl hl) ?_
      refine Keeps.upd [.fw] (Parts.le_trans rfl hl) rfl rfl ?_
      exact hs
  · refine handEnd_keeps (Parts.le_trans rfl hl) ?_
    refine Keeps.upd [.fw] (Parts.le_trans rfl hl) rfl rfl ?_
    exact hs
  · refine fwUndone_keeps (Parts.le_trans rfl hl) ?_
    exact hs

theorem execFwActivateStepDone_keeps
    (hl : Parts.le [.hub, .store, .fw, .dies, .regs, .out, .free, .boot, .reports, .recovery, .meas] ps = true)
    {s : State} (hs : Keeps ps s0 s) {s' : State} (e : execFwActivateStepDone s = .next s') : Keeps ps s0 s' := by
  unfold execFwActivateStepDone at e
  refine Keeps.next ?_ e
  split
  · refine Keeps.ite ?_ ?_
    · refine fwStep_keeps hl ?_
      exact hs
    · exact hs
  · exact hs

theorem execFwStartCheckFail_keeps
    (hl : Parts.le [.dies, .store, .hub, .regs, .out, .free, .boot, .reports, .recovery, .fw] ps = true) {s : State}
    (hs : Keeps ps s0 s) {s' : State} (e : execFwStartCheckFail s = .next s') : Keeps ps s0 s' := by
  unfold execFwStartCheckFail at e
  refine Keeps.next ?_ e
  refine Keeps.ite ?_ ?_
  · refine fwRollback_keeps hl ?_
    exact hs
  · exact hs

theorem fwAbort_keeps
    (hl : Parts.le [.dies, .store, .hub, .regs, .out, .free, .boot, .reports, .recovery, .fw] ps = true) {s : State}
    (hs : Keeps ps s0 s) : Keeps ps s0 (fwAbort s) := by
  unfold fwAbort
  refine Keeps.ite ?_ ?_
  · refine fwRollback_keeps hl ?_
    exact hs
  · exact hs

theorem fwSelectNext_keeps (hl : Parts.le [.regs, .store] ps = true) {s : State} (hs : Keeps ps s0 s) : Keeps ps s0
    (fwSelectNext s) := by
  unfold fwSelectNext
  refine Keeps.ite ?_ ?_
  · refine State.selectBank_keeps hl ?_
    exact hs
  · exact hs

theorem showPhases_keeps {d : Die} {g : Rail} {out : ℕ} (hl : Parts.le [.regs, .dies] ps = true) {s : State}
    (hs : Keeps ps s0 s) : Keeps ps s0 (showPhases d g out s) := by
  unfold showPhases
  extract_lets +onlyGivenNames x1
  clear_value x1
  extract_lets +onlyGivenNames x2
  have hx2 : Keeps ps s0 x2 := by
    subst x2
    split
    · refine State.setRegFld_keeps (Parts.le_trans rfl hl) ?_
      exact hs
    · exact hs
  clear_value x2
  refine Keeps.ite ?_ ?_
  · exact hx2
  · extract_lets +onlyGivenNames x3
    have hx3 : Keeps ps s0 x3 := by
      subst x3
      refine Keeps.ite ?_ ?_
      · refine State.setRegFld_keeps (Parts.le_trans rfl hl) ?_
        exact hx2
      · exact hx2
    clear_value x3
    refine Keeps.foldl ?_ (fun t6 a4 ht5 => ?_)
    · exact hx3
    · refine State.modIsland_keeps (Parts.le_trans rfl hl) ?_
      exact ht5

theorem hubRailOff_keeps {b : Bool} (hl : Parts.le Parts.any ps = true) {s : State} (hs : Keeps ps s0 s) : Keeps ps s0
    (hubRailOff b s) := by
  unfold hubRailOff
  refine Keeps.ite ?_ ?_
  · refine hubHalfFail_keeps hl ?_
    exact hs
  · refine Keeps.ite ?_ ?_
    · refine State.degraded_keeps (Parts.le_trans rfl hl) ?_
      refine State.failHalf_keeps (Parts.le_trans rfl hl) ?_
      exact hs
    · refine State.failHalf_keeps (Parts.le_trans rfl hl) ?_
      exact hs

theorem railOff_keeps {d : Die} {g : Rail} (hl : Parts.le Parts.any ps = true) {s : State} (hs : Keeps ps s0 s) :
    Keeps ps s0 (railOff d g s) := by
  unfold railOff
  split
  · refine Keeps.foldl ?_ (fun t3 a1 ht2 => ?_)
    · exact hs
    · refine retireCore_keeps (Parts.le_trans rfl hl) ?_
      exact ht2
  · refine hubRailOff_keeps (Parts.le_trans rfl hl) ?_
    exact hs
  · refine hubRailOff_keeps (Parts.le_trans rfl hl) ?_
    exact hs
  · exact hs
  · refine State.modDie_keeps (Parts.le_trans rfl hl) ?_
    refine loseDie_keeps (Parts.le_trans rfl hl) ?_
    exact hs
  · refine loseDie_keeps (Parts.le_trans rfl hl) ?_
    exact hs

theorem phaseFail_keeps {d : Die} {g : Rail} (hl : Parts.le Parts.any ps = true) {s : State} (hs : Keeps ps s0 s) :
    Keeps ps s0 (phaseFail d g s) := by
  unfold phaseFail
  extract_lets +onlyGivenNames x1
  clear_value x1
  extract_lets +onlyGivenNames x2
  clear_value x2
  extract_lets +onlyGivenNames x3
  clear_value x3
  extract_lets +onlyGivenNames x4
  clear_value x4
  extract_lets +onlyGivenNames x5
  clear_value x5
  extract_lets +onlyGivenNames x6
  clear_value x6
  extract_lets +onlyGivenNames x7
  have hx7 : Keeps ps s0 x7 := by
    subst x7
    refine Keeps.upd [.store] (Parts.le_trans rfl hl) rfl rfl ?_
    exact hs
  clear_value x7
  extract_lets +onlyGivenNames x8
  have hx8 : Keeps ps s0 x8 := by
    subst x8
    refine Keeps.ite ?_ ?_
    · exact hx7
    · refine State.bumpSat_keeps (Parts.le_trans rfl hl) ?_
      exact hx7
  clear_value x8
  extract_lets +onlyGivenNames x9
  have hx9 : Keeps ps s0 x9 := by
    subst x9
    refine showPhases_keeps (Parts.le_trans rfl hl) ?_
    exact hx8
  clear_value x9
  refine Keeps.ite ?_ ?_
  · refine State.repaired_keeps (Parts.le_trans rfl hl) ?_
    exact hx9
  · extract_lets +onlyGivenNames x10
    have hx10 : Keeps ps s0 x10 := by
      subst x10
      refine State.degraded_keeps (Parts.le_trans rfl hl) ?_
      exact hx9
    clear_value x10
    refine Keeps.ite ?_ ?_
    · refine railOff_keeps (Parts.le_trans rfl hl) ?_
      exact hx10
    · exact hx10

theorem phaseFailEv_keeps {d : Die} {g : Rail} (hl : Parts.le Parts.any ps = true) {s : State} (hs : Keeps ps s0 s) :
    Keeps ps s0 (phaseFailEv d g s) := by
  unfold phaseFailEv
  refine Keeps.ite ?_ ?_
  · refine phaseFail_keeps hl ?_
    exact hs
  · exact hs

theorem clkgenSwitch_keeps {d : Die}
    (hl : Parts.le [.dies, .store, .hub, .regs, .out, .free, .boot, .reports, .recovery, .trcTok, .mem, .acct, .bad,
      .trcSeq, .trcDrop] ps = true) {s : State} (hs : Keeps ps s0 s) : Keeps ps s0 (clkgenSwitch d s) := by
  unfold clkgenSwitch
  refine Keeps.ite ?_ ?_
  · refine loseDie_keeps (Parts.le_trans rfl hl) ?_
    exact hs
  · extract_lets +onlyGivenNames x1
    have hx1 : Keeps ps s0 x1 := by
      subst x1
      refine State.bumpSat_keeps (Parts.le_trans rfl hl) ?_
      refine State.setRegFld_keeps (Parts.le_trans rfl hl) ?_
      exact hs
    clear_value x1
    extract_lets +onlyGivenNames x2
    have hx2 : Keeps ps s0 x2 := by
      subst x2
      refine State.modCtr_keeps (Parts.le_trans rfl hl) ?_
      exact hx1
    clear_value x2
    refine State.repaired_keeps (Parts.le_trans rfl hl) ?_
    exact hx2

theorem execClkgenSwitch_keeps {d : Die}
    (hl : Parts.le [.dies, .store, .hub, .regs, .out, .free, .boot, .reports, .recovery, .trcTok, .mem, .acct, .bad,
      .trcSeq, .trcDrop] ps = true) {s : State} (hs : Keeps ps s0 s) {s' : State}
    (e : execClkgenSwitch d s = .next s') : Keeps ps s0 s' := by
  unfold execClkgenSwitch at e
  refine Keeps.next ?_ e
  refine Keeps.ite ?_ ?_
  · refine clkgenSwitch_keeps hl ?_
    exact hs
  · exact hs

/-! ### Energy -/

theorem State.energyEvent_keeps (hl : Parts.le [.hub, .regs, .out] ps = true) {s : State} (hs : Keeps ps s0 s) : Keeps
    ps s0 (State.energyEvent s) := by
  unfold State.energyEvent
  refine State.msix_keeps hl ?_
  refine State.bumpSat_keeps (Parts.le_trans rfl hl) ?_
  exact hs

theorem State.charge_keeps {dom : ℕ} {n : CtxId} {e : ℕ} (hl : Parts.le [.ctxs, .regs] ps = true) {s : State}
    (hs : Keeps ps s0 s) : Keeps ps s0 (State.charge s dom n e) := by
  unfold State.charge
  extract_lets +onlyGivenNames x1
  have hx1 : Keeps ps s0 x1 := by
    subst x1
    refine State.modCtx_keeps (Parts.le_trans rfl hl) ?_
    exact hs
  clear_value x1
  refine State.bump_keeps (Parts.le_trans rfl hl) ?_
  exact hx1

theorem ledgerDomain_keeps {dies : List DieMeas} {hub : ℕ} {m : SMap ℕ} {x : ℕ}
    (hl : Parts.le [.ledgerFrac, .regs, .ctxs] ps = true) {s : State} (hs : Keeps ps s0 s) : Keeps ps s0
    (ledgerDomain dies hub m s x) := by
  unfold ledgerDomain
  extract_lets +onlyGivenNames x1
  clear_value x1
  extract_lets +onlyGivenNames x2
  have hx2 : Keeps ps s0 x2 := by
    subst x2
    refine Keeps.upd [.ledgerFrac] (Parts.le_trans rfl hl) rfl rfl ?_
    exact hs
  clear_value x2
  extract_lets +onlyGivenNames x3
  have hx3 : Keeps ps s0 x3 := by
    subst x3
    refine State.bump_keeps (Parts.le_trans rfl hl) ?_
    exact hx2
  clear_value x3
  split
  extract_lets +onlyGivenNames x4
  clear_value x4
  extract_lets +onlyGivenNames x5
  have hx5 : Keeps ps s0 x5 := by
    subst x5
    refine Keeps.foldl ?_ (fun t8 a6 ht7 => ?_)
    · exact hx3
    · split
      refine State.charge_keeps (Parts.le_trans rfl hl) ?_
      exact ht7
  clear_value x5
  refine State.bump_keeps (Parts.le_trans rfl hl) ?_
  exact hx5

theorem windowAt_keeps {t : ℕ} {n : CtxId} (hl : Parts.le [.ctxs, .hub, .regs, .out] ps = true) {s : State}
    (hs : Keeps ps s0 s) : Keeps ps s0 (windowAt t n s) := by
  unfold windowAt
  extract_lets +onlyGivenNames x1
  clear_value x1
  extract_lets +onlyGivenNames x2
  clear_value x2
  extract_lets +onlyGivenNames x3
  clear_value x3
  extract_lets +onlyGivenNames x4
  clear_value x4
  extract_lets +onlyGivenNames x5
  have hx5 : Keeps ps s0 x5 := by
    subst x5
    refine Keeps.ite ?_ ?_
    · refine State.modCtx_keeps (Parts.le_trans rfl hl) ?_
      exact hs
    · refine Keeps.ite ?_ ?_
      · refine State.energyEvent_keeps (Parts.le_trans rfl hl) ?_
        refine State.modCtx_keeps (Parts.le_trans rfl hl) ?_
        exact hs
      · exact hs
  clear_value x5
  refine State.setReg_keeps (Parts.le_trans rfl hl) ?_
  exact hx5

theorem dispEnergy_keeps {m : SMap ℕ} {es : List ℕ} {seq : ℕ} (hl : Parts.le [.disps, .hub, .regs, .out] ps = true)
    {s : State} (hs : Keeps ps s0 s) : Keeps ps s0 (dispEnergy m es s seq) := by
  unfold dispEnergy
  split
  · exact hs
  · refine Keeps.ite ?_ ?_
    · exact hs
    · extract_lets +onlyGivenNames x1
      clear_value x1
      extract_lets +onlyGivenNames x2
      clear_value x2
      extract_lets +onlyGivenNames x3
      have hx3 : Keeps ps s0 x3 := by
        subst x3
        refine State.modDisp_keeps (Parts.le_trans rfl hl) ?_
        exact hs
      clear_value x3
      refine Keeps.ite ?_ ?_
      · refine State.energyEvent_keeps (Parts.le_trans rfl hl) ?_
        exact hx3
      · exact hx3

theorem State.readFeeds_keeps {voltA : ℕ} {voltB : ℕ} (hl : Parts.le [.regs] ps = true) {s : State}
    (hs : Keeps ps s0 s) : Keeps ps s0 (State.readFeeds s voltA voltB) := by
  unfold State.readFeeds
  refine State.showFeed_keeps hl ?_
  refine State.showFeed_keeps hl ?_
  exact hs

theorem ledgerUpdate_keeps {t : ℕ} {m : SMap ℕ} {dies : List DieMeas} {hub : ℕ} {inA : ℕ} {inB : ℕ} {voltA : ℕ}
    {voltB : ℕ} (hl : Parts.le [.ledgerFrac, .regs, .ctxs, .disps, .hub, .out] ps = true) {s : State}
    (hs : Keeps ps s0 s) : Keeps ps s0 (ledgerUpdate t m dies hub inA inB voltA voltB s) := by
  unfold ledgerUpdate
  extract_lets +onlyGivenNames x1
  clear_value x1
  extract_lets +onlyGivenNames x2
  have hx2 : Keeps ps s0 x2 := by
    subst x2
    refine Keeps.foldl ?_ (fun t5 a3 ht4 => ?_)
    · exact hs
    · refine ledgerDomain_keeps (Parts.le_trans rfl hl) ?_
      exact ht4
  clear_value x2
  extract_lets +onlyGivenNames x6
  have hx6 : Keeps ps s0 x6 := by
    subst x6
    refine Keeps.foldl ?_ (fun t9 a7 ht8 => ?_)
    · exact hx2
    · refine dispEnergy_keeps (Parts.le_trans rfl hl) ?_
      exact ht8
  clear_value x6
  extract_lets +onlyGivenNames x10
  have hx10 : Keeps ps s0 x10 := by
    subst x10
    refine State.setReg_keeps (Parts.le_trans rfl hl) ?_
    refine State.bump_keeps (Parts.le_trans rfl hl) ?_
    refine State.bump_keeps (Parts.le_trans rfl hl) ?_
    exact hx6
  clear_value x10
  extract_lets +onlyGivenNames x11
  have hx11 : Keeps ps s0 x11 := by
    subst x11
    refine Keeps.foldl ?_ (fun t14 a12 ht13 => ?_)
    · exact hx10
    · refine windowAt_keeps (Parts.le_trans rfl hl) ?_
      exact ht13
  clear_value x11
  refine State.readFeeds_keeps (Parts.le_trans rfl hl) ?_
  exact hx11

theorem execLedgerUpdate_keeps {dies : List DieMeas} {hub : ℕ} {inA : ℕ} {inB : ℕ} {voltA : ℕ} {voltB : ℕ}
    (hl : Parts.le [.ledgerFrac, .regs, .ctxs, .disps, .hub, .out, .ledgerQ] ps = true) {s : State}
    (hs : Keeps ps s0 s) {s' : State} (e : execLedgerUpdate dies hub inA inB voltA voltB s = .next s') : Keeps ps s0
    s' := by
  unfold execLedgerUpdate at e
  refine Keeps.next ?_ e
  split
  · refine Keeps.ite ?_ ?_
    · refine ledgerUpdate_keeps (Parts.le_trans rfl hl) ?_
      refine Keeps.upd [.ledgerQ] (Parts.le_trans rfl hl) rfl rfl ?_
      exact hs
    · exact hs
  · exact hs

theorem ecalRefine_keeps {vals : List ℕ} (hl : Parts.le [.regs, .store] ps = true) {s : State} (hs : Keeps ps s0 s) :
    Keeps ps s0 (ecalRefine vals s) := by
  unfold ecalRefine
  extract_lets +onlyGivenNames x1
  have hx1 : Keeps ps s0 x1 := by
    subst x1
    refine Keeps.foldl ?_ (fun t4 a2 ht3 => ?_)
    · exact hs
    · split
      refine State.setReg_keeps (Parts.le_trans rfl hl) ?_
      exact ht3
  clear_value x1
  refine Keeps.upd [.store] (Parts.le_trans rfl hl) rfl rfl ?_
  exact hx1

theorem execEcalRefine_keeps {vals : List ℕ} (hl : Parts.le [.regs, .store] ps = true) {s : State}
    (hs : Keeps ps s0 s) {s' : State} (e : execEcalRefine vals s = .next s') : Keeps ps s0 s' := by
  unfold execEcalRefine at e
  refine Keeps.next ?_ e
  refine Keeps.ite ?_ ?_
  · refine ecalRefine_keeps hl ?_
    exact hs
  · exact hs

theorem execDieTimeCheck_keeps {offsets : List (Die × ℤ)} (hl : Parts.le [.regs] ps = true) {s : State}
    (hs : Keeps ps s0 s) {s' : State} (e : execDieTimeCheck offsets s = .next s') : Keeps ps s0 s' := by
  unfold execDieTimeCheck at e
  refine Keeps.next ?_ e
  refine Keeps.ite ?_ ?_
  · refine Keeps.foldl ?_ (fun t3 a1 ht2 => ?_)
    · exact hs
    · split
      refine State.setReg_keeps hl ?_
      exact ht2
  · exact hs

/-! ### Startup -/

theorem State.assignCores_keeps {d : Die} (hl : Parts.le [.cores] ps = true) {s : State} (hs : Keeps ps s0 s) : Keeps
    ps s0 (State.assignCores s d) := by
  unfold State.assignCores
  extract_lets +onlyGivenNames x1
  clear_value x1
  extract_lets +onlyGivenNames x2
  clear_value x2
  extract_lets +onlyGivenNames x3
  have hx3 : Keeps ps s0 x3 := by
    subst x3
    refine Keeps.foldl ?_ (fun t6 a4 ht5 => ?_)
    · exact hs
    · refine State.modCore_keeps hl ?_
      exact ht5
  clear_value x3
  refine Keeps.foldl ?_ (fun t9 a7 ht8 => ?_)
  · exact hx3
  · split
    refine State.modCore_keeps hl ?_
    exact ht8

theorem State.applySpares_keeps (hl : Parts.le [.cores, .regs, .mcs, .ports, .dies] ps = true) {s : State}
    (hs : Keeps ps s0 s) : Keeps ps s0 (State.applySpares s) := by
  unfold State.applySpares
  extract_lets +onlyGivenNames x1
  clear_value x1
  extract_lets +onlyGivenNames x2
  have hx2 : Keeps ps s0 x2 := by
    subst x2
    refine Keeps.foldl ?_ (fun t5 a3 ht4 => ?_)
    · exact hs
    · refine State.assignCores_keeps (Parts.le_trans rfl hl) ?_
      exact ht4
  clear_value x2
  extract_lets +onlyGivenNames x6
  have hx6 : Keeps ps s0 x6 := by
    subst x6
    refine Keeps.foldl ?_ (fun t9 a7 ht8 => ?_)
    · exact hx2
    · split
      refine State.setReg_keeps (Parts.le_trans rfl hl) ?_
      exact ht8
  clear_value x6
  extract_lets +onlyGivenNames x10
  have hx10 : Keeps ps s0 x10 := by
    subst x10
    refine Keeps.foldl ?_ (fun t13 a11 ht12 => ?_)
    · exact hx6
    · split
      refine State.setReg_keeps (Parts.le_trans rfl hl) ?_
      exact ht12
  clear_value x10
  extract_lets +onlyGivenNames x14
  have hx14 : Keeps ps s0 x14 := by
    subst x14
    refine Keeps.foldl ?_ (fun t17 a15 ht16 => ?_)
    · exact hx10
    · split
      refine State.setReg_keeps (Parts.le_trans rfl hl) ?_
      exact ht16
  clear_value x14
  extract_lets +onlyGivenNames x18
  have hx18 : Keeps ps s0 x18 := by
    subst x18
    refine Keeps.foldl ?_ (fun t21 a19 ht20 => ?_)
    · exact hx14
    · split
      extract_lets +onlyGivenNames x22
      clear_value x22
      extract_lets +onlyGivenNames x23
      have hx23 : Keeps ps s0 x23 := by
        subst x23
        refine State.setReg_keeps (Parts.le_trans rfl hl) ?_
        exact ht20
      clear_value x23
      extract_lets +onlyGivenNames x24
      have hx24 : Keeps ps s0 x24 := by
        subst x24
        refine State.setReg_keeps (Parts.le_trans rfl hl) ?_
        exact hx23
      clear_value x24
      refine Keeps.upd [.mcs] (Parts.le_trans rfl hl) rfl rfl ?_
      exact hx24
  clear_value x18
  extract_lets +onlyGivenNames x25
  have hx25 : Keeps ps s0 x25 := by
    subst x25
    refine Keeps.foldl ?_ (fun t28 a26 ht27 => ?_)
    · exact hx18
    · split
      extract_lets +onlyGivenNames x29
      have hx29 : Keeps ps s0 x29 := by
        subst x29
        refine State.setReg_keeps (Parts.le_trans rfl hl) ?_
        exact ht27
      clear_value x29
      refine Keeps.upd [.ports] (Parts.le_trans rfl hl) rfl rfl ?_
      exact hx29
  clear_value x25
  refine Keeps.foldl ?_ (fun t32 a30 ht31 => ?_)
  · exact hx25
  · split
    split
    · refine showPhases_keeps (Parts.le_trans rfl hl) ?_
      exact ht31
    · exact ht31

theorem retireNow_keeps {d : Die} {p : PCore}
    (hl : Parts.le [.cores, .store, .trcTok, .free, .mem, .acct, .regs, .bad, .trcSeq, .trcDrop, .hub, .out, .dies,
      .fns, .reports] ps = true) {s : State} (hs : Keeps ps s0 s) : Keeps ps s0 (retireNow d p s) := by
  unfold retireNow
  extract_lets +onlyGivenNames x1
  have hx1 : Keeps ps s0 x1 := by
    subst x1
    refine retireCore_keeps hl ?_
    exact hs
  clear_value x1
  split
  · refine coreRetireDone_keeps hl ?_
    exact hx1
  · exact hx1

theorem testLine_keeps {d : Die} {p : PCore} {isRow : Bool} {line : ℕ}
    (hl : Parts.le [.cores, .store, .trcTok, .free, .mem, .acct, .regs, .bad, .trcSeq, .trcDrop, .hub, .out, .dies,
      .fns, .reports] ps = true) {s : State} (hs : Keeps ps s0 s) : Keeps ps s0 (testLine d p isRow line s) := by
  unfold testLine
  split
  · refine retireNow_keeps hl ?_
    exact hs
  · extract_lets +onlyGivenNames x1
    have hx1 : Keeps ps s0 x1 := by
      subst x1
      refine State.setRegFld_keeps (Parts.le_trans rfl hl) ?_
      exact hs
    clear_value x1
    extract_lets +onlyGivenNames x2
    clear_value x2
    extract_lets +onlyGivenNames x3
    clear_value x3
    refine State.repaired_keeps (Parts.le_trans rfl hl) ?_
    refine State.saveArrayMap_keeps (Parts.le_trans rfl hl) ?_
    exact hx1

theorem testSpad_keeps {d : Die} {p : PCore} {bank : Fin 32}
    (hl : Parts.le [.regs, .store, .trcTok, .free, .mem, .acct, .bad, .trcSeq, .trcDrop, .hub, .out, .cores, .dies,
      .fns, .reports] ps = true) {s : State} (hs : Keeps ps s0 s) : Keeps ps s0 (testSpad d p bank s) := by
  unfold testSpad
  extract_lets +onlyGivenNames x1
  clear_value x1
  refine Keeps.ite ?_ ?_
  · refine spadBankSwitch_keeps (Parts.le_trans rfl hl) ?_
    refine spadBankMigrate_keeps (Parts.le_trans rfl hl) ?_
    exact hs
  · refine Keeps.ite ?_ ?_
    · refine spadBankSwitch_keeps (Parts.le_trans rfl hl) ?_
      refine spadBankMigrate_keeps (Parts.le_trans rfl hl) ?_
      exact hs
    · refine retireNow_keeps (Parts.le_trans rfl hl) ?_
      exact hs

theorem testGallery_keeps {d : Die} {bank : Fin 64}
    (hl : Parts.le [.regs, .store, .trcTok, .free, .mem, .acct, .bad, .trcSeq, .trcDrop, .hub, .out, .dies] ps = true)
    {s : State} (hs : Keeps ps s0 s) : Keeps ps s0 (testGallery d bank s) := by
  unfold testGallery
  split
  · refine galleryBankSwitch_keeps (Parts.le_trans rfl hl) ?_
    refine galleryBankMigrate_keeps (Parts.le_trans rfl hl) ?_
    exact hs
  · refine galleryBankMigrate_keeps (Parts.le_trans rfl hl) ?_
    exact hs

theorem testHalf_keeps {b : Bool}
    (hl : Parts.le [.hub, .regs, .out, .store, .free, .boot, .reports, .recovery, .meas, .trcTok, .mem, .acct, .bad,
      .trcSeq, .trcDrop] ps = true) {s : State} (hs : Keeps ps s0 s) : Keeps ps s0 (testHalf b s) := by
  unfold testHalf
  refine Keeps.ite ?_ ?_
  · exact hs
  · refine Keeps.ite ?_ ?_
    · refine lossOf_keeps (Parts.le_trans rfl hl) ?_
      refine State.failHalf_keeps (Parts.le_trans rfl hl) ?_
      exact hs
    · extract_lets +onlyGivenNames x1
      clear_value x1
      extract_lets +onlyGivenNames x2
      have hx2 : Keeps ps s0 x2 := by
        subst x2
        refine State.failHalf_keeps (Parts.le_trans rfl hl) ?_
        exact hs
      clear_value x2
      extract_lets +onlyGivenNames x3
      clear_value x3
      extract_lets +onlyGivenNames x4
      have hx4 : Keeps ps s0 x4 := by
        subst x4
        refine Keeps.ite ?_ ?_
        · refine State.extendSecurity_keeps (Parts.le_trans rfl hl) ?_
          refine Keeps.upd [.hub] (Parts.le_trans rfl hl) rfl rfl ?_
          exact hx2
        · exact hx2
      clear_value x4
      refine State.repaired_keeps (Parts.le_trans rfl hl) ?_
      exact hx4

theorem endMigs_keeps {d : Die} {m : Mc}
    (hl : Parts.le [.regs, .acct, .mcs, .store, .trcTok, .free, .mem, .bad, .trcSeq, .trcDrop, .hub, .out] ps = true)
    {s : State} (hs : Keeps ps s0 s) : Keeps ps s0 (endMigs d m s) := by
  unfold endMigs
  refine Keeps.foldl ?_ (fun t3 a1 ht2 => ?_)
  · exact hs
  · split
    · refine migrationSwitch_keeps hl ?_
      exact ht2
    · exact ht2

theorem testBank_keeps {d : Die} {m : Mc} {row : RowId}
    (hl : Parts.le [.mcs, .regs, .store, .free, .hub, .out] ps = true) {s : State} (hs : Keeps ps s0 s) : Keeps ps s0
    (testBank d m row s) := by
  unfold testBank
  refine Keeps.ite ?_ ?_
  · refine State.startMig_keeps (Parts.le_trans rfl hl) ?_
    exact hs
  · refine rowRetire_keeps hl ?_
    exact hs

theorem testFail_keeps {f : TestFail}
    (hl : Parts.le [.cores, .store, .trcTok, .free, .mem, .acct, .regs, .bad, .trcSeq, .trcDrop, .hub, .out, .dies,
      .fns, .reports, .mcs, .ports, .fab, .frings, .boot, .recovery, .meas] ps = true) {s : State}
    (hs : Keeps ps s0 s) : Keeps ps s0 (testFail f s) := by
  unfold testFail
  split
  · refine retireNow_keeps (Parts.le_trans rfl hl) ?_
    exact hs
  · refine testLine_keeps (Parts.le_trans rfl hl) ?_
    exact hs
  · refine testLine_keeps (Parts.le_trans rfl hl) ?_
    exact hs
  · refine testSpad_keeps (Parts.le_trans rfl hl) ?_
    exact hs
  · refine testGallery_keeps (Parts.le_trans rfl hl) ?_
    exact hs
  · refine endMigs_keeps (Parts.le_trans rfl hl) ?_
    refine rowRetire_keeps (Parts.le_trans rfl hl) ?_
    exact hs
  · refine endMigs_keeps (Parts.le_trans rfl hl) ?_
    refine testBank_keeps (Parts.le_trans rfl hl) ?_
    exact hs
  · refine hbmLaneRepair_keeps (Parts.le_trans rfl hl) ?_
    exact hs
  · refine fabricLaneSpare_keeps (Parts.le_trans rfl hl) ?_
    exact hs
  · refine laserSpare_keeps (Parts.le_trans rfl hl) ?_
    exact hs
  · refine State.degraded_keeps (Parts.le_trans rfl hl) ?_
    refine State.modDie_keeps (Parts.le_trans rfl hl) ?_
    exact hs
  · refine State.degraded_keeps (Parts.le_trans rfl hl) ?_
    refine State.modDie_keeps (Parts.le_trans rfl hl) ?_
    exact hs
  · refine Keeps.ite ?_ ?_
    · exact hs
    · refine bridgeFail_keeps (Parts.le_trans rfl hl) ?_
      exact hs
  · refine clkgenSwitch_keeps (Parts.le_trans rfl hl) ?_
    exact hs
  · refine loseDie_keeps (Parts.le_trans rfl hl) ?_
    exact hs
  · refine testHalf_keeps (Parts.le_trans rfl hl) ?_
    exact hs

theorem State.setStage_keeps {k : ℕ} (hl : Parts.le [.regs, .boot] ps = true) {s : State} (hs : Keeps ps s0 s) : Keeps
    ps s0 (State.setStage s k) := by
  unfold State.setStage
  refine State.setRegFld_keeps (Parts.le_trans rfl hl) ?_
  refine Keeps.upd [.boot] (Parts.le_trans rfl hl) rfl rfl ?_
  exact hs

theorem enterRecovery_keeps (hl : Parts.le [.regs, .boot] ps = true) {s : State} (hs : Keeps ps s0 s) : Keeps ps s0
    (enterRecovery s) := by
  unfold enterRecovery
  refine State.setRegFld_keeps (Parts.le_trans rfl hl) ?_
  refine Keeps.upd [.boot] (Parts.le_trans rfl hl) rfl rfl ?_
  exact hs

theorem bootFrom_keeps {b : Bool} (hl : Parts.le [.regs, .fw] ps = true) {s : State} (hs : Keeps ps s0 s) : Keeps ps
    s0 (bootFrom b s) := by
  unfold bootFrom
  extract_lets +onlyGivenNames x1
  clear_value x1
  extract_lets +onlyGivenNames x2
  clear_value x2
  extract_lets +onlyGivenNames x3
  have hx3 : Keeps ps s0 x3 := by
    subst x3
    refine State.setRegFld_keeps (Parts.le_trans rfl hl) ?_
    exact hs
  clear_value x3
  extract_lets +onlyGivenNames x4
  have hx4 : Keeps ps s0 x4 := by
    subst x4
    refine State.setReg_keeps (Parts.le_trans rfl hl) ?_
    exact hx3
  clear_value x4
  extract_lets +onlyGivenNames x5
  have hx5 : Keeps ps s0 x5 := by
    subst x5
    refine State.setRegFld_keeps (Parts.le_trans rfl hl) ?_
    refine State.setRegFld_keeps (Parts.le_trans rfl hl) ?_
    exact hx4
  clear_value x5
  refine Keeps.upd [.fw] (Parts.le_trans rfl hl) rfl rfl ?_
  exact hx5

theorem fallBack_keeps {b : Bool} (hl : Parts.le [.regs, .fw, .store] ps = true) {s : State} (hs : Keeps ps s0 s) :
    Keeps ps s0 (fallBack b s) := by
  unfold fallBack
  refine bootFrom_keeps (Parts.le_trans rfl hl) ?_
  refine State.setRegFld_keeps (Parts.le_trans rfl hl) ?_
  refine State.selectBank_keeps (Parts.le_trans rfl hl) ?_
  exact hs

theorem bootStep2_keeps (hl : Parts.le [.regs, .store, .boot, .fw] ps = true) {s : State} (hs : Keeps ps s0 s) : Keeps
    ps s0 (bootStep2 s) := by
  unfold bootStep2
  extract_lets +onlyGivenNames x1
  clear_value x1
  extract_lets +onlyGivenNames x2
  clear_value x2
  extract_lets +onlyGivenNames x3
  clear_value x3
  extract_lets +onlyGivenNames x4
  have hx4 : Keeps ps s0 x4 := by
    subst x4
    refine State.bumpSat_keeps (Parts.le_trans rfl hl) ?_
    exact hs
  clear_value x4
  extract_lets +onlyGivenNames x5
  have hx5 : Keeps ps s0 x5 := by
    subst x5
    refine Keeps.upd [.store] (Parts.le_trans rfl hl) rfl rfl ?_
    exact hx4
  clear_value x5
  extract_lets +onlyGivenNames x6
  have hx6 : Keeps ps s0 x6 := by
    subst x6
    refine State.setRegFld_keeps (Parts.le_trans rfl hl) ?_
    exact hx5
  clear_value x6
  extract_lets +onlyGivenNames x7
  clear_value x7
  extract_lets +onlyGivenNames x8
  clear_value x8
  refine Keeps.ite ?_ ?_
  · refine State.setStage_keeps (Parts.le_trans rfl hl) ?_
    refine bootFrom_keeps (Parts.le_trans rfl hl) ?_
    exact hx6
  · extract_lets +onlyGivenNames x9
    have hx9 : Keeps ps s0 x9 := by
      subst x9
      refine State.setRegFld_keeps (Parts.le_trans rfl hl) ?_
      exact hx6
    clear_value x9
    extract_lets +onlyGivenNames x10
    clear_value x10
    refine Keeps.ite ?_ ?_
    · refine State.setStage_keeps (Parts.le_trans rfl hl) ?_
      refine fallBack_keeps (Parts.le_trans rfl hl) ?_
      exact hx9
    · refine enterRecovery_keeps (Parts.le_trans rfl hl) ?_
      refine State.setRegFld_keeps (Parts.le_trans rfl hl) ?_
      exact hx9

theorem bootStep3_keeps {ev : StartupEv} (hl : Parts.le [.meas, .regs, .hub, .boot] ps = true) {s : State}
    (hs : Keeps ps s0 s) : Keeps ps s0 (bootStep3 ev s) := by
  unfold bootStep3
  extract_lets +onlyGivenNames x1
  clear_value x1
  extract_lets +onlyGivenNames x2
  have hx2 : Keeps ps s0 x2 := by
    subst x2
    refine State.extend_keeps (Parts.le_trans rfl hl) ?_
    refine State.extend_keeps (Parts.le_trans rfl hl) ?_
    refine State.extend_keeps (Parts.le_trans rfl hl) ?_
    exact hs
  clear_value x2
  extract_lets +onlyGivenNames x3
  clear_value x3
  extract_lets +onlyGivenNames x4
  clear_value x4
  extract_lets +onlyGivenNames x5
  clear_value x5
  extract_lets +onlyGivenNames x6
  have hx6 : Keeps ps s0 x6 := by
    subst x6
    refine State.setReg_keeps (Parts.le_trans rfl hl) ?_
    exact hx2
  clear_value x6
  extract_lets +onlyGivenNames x7
  clear_value x7
  extract_lets +onlyGivenNames x8
  have hx8 : Keeps ps s0 x8 := by
    subst x8
    refine Keeps.upd [.hub] (Parts.le_trans rfl hl) rfl rfl ?_
    exact hx6
  clear_value x8
  extract_lets +onlyGivenNames x9
  have hx9 : Keeps ps s0 x9 := by
    subst x9
    refine Keeps.ite ?_ ?_
    · refine State.setRegFld_keeps (Parts.le_trans rfl hl) ?_
      exact hx8
    · exact hx8
  clear_value x9
  refine State.setStage_keeps (Parts.le_trans rfl hl) ?_
  exact hx9

theorem bootStep5_keeps (hl : Parts.le [.regs, .boot, .fw, .store, .meas, .dies, .cores, .mcs, .ports] ps = true)
    {s : State} (hs : Keeps ps s0 s) : Keeps ps s0 (bootStep5 s) := by
  unfold bootStep5
  extract_lets +onlyGivenNames x1
  clear_value x1
  refine Keeps.ite ?_ ?_
  · extract_lets +onlyGivenNames x2
    have hx2 : Keeps ps s0 x2 := by
      subst x2
      refine State.setRegFld_keeps (Parts.le_trans rfl hl) ?_
      exact hs
    clear_value x2
    extract_lets +onlyGivenNames x3
    clear_value x3
    refine Keeps.ite ?_ ?_
    · refine enterRecovery_keeps (Parts.le_trans rfl hl) ?_
      exact hx2
    · refine State.setStage_keeps (Parts.le_trans rfl hl) ?_
      extract_lets +onlyGivenNames x4
      have hx4 : Keeps ps s0 x4 := by
        subst x4
        refine fallBack_keeps (Parts.le_trans rfl hl) ?_
        exact hx2
      clear_value x4
      refine Keeps.upd [.meas] (Parts.le_trans rfl hl) rfl rfl ?_
      exact hx4
  · extract_lets +onlyGivenNames x5
    have hx5 : Keeps ps s0 x5 := by
      subst x5
      refine Keeps.foldl ?_ (fun t8 a6 ht7 => ?_)
      · exact hs
      · refine State.modDie_keeps (Parts.le_trans rfl hl) ?_
        exact ht7
    clear_value x5
    extract_lets +onlyGivenNames x9
    have hx9 : Keeps ps s0 x9 := by
      subst x9
      refine State.applySpares_keeps (Parts.le_trans rfl hl) ?_
      exact hx5
    clear_value x9
    extract_lets +onlyGivenNames x10
    have hx10 : Keeps ps s0 x10 := by
      subst x10
      refine State.extend_keeps (Parts.le_trans rfl hl) ?_
      refine State.extend_keeps (Parts.le_trans rfl hl) ?_
      refine State.extend_keeps (Parts.le_trans rfl hl) ?_
      exact hx9
    clear_value x10
    extract_lets +onlyGivenNames x11
    have hx11 : Keeps ps s0 x11 := by
      subst x11
      refine State.extendSecurity_keeps (Parts.le_trans rfl hl) ?_
      exact hx10
    clear_value x11
    extract_lets +onlyGivenNames x12
    clear_value x12
    extract_lets +onlyGivenNames x13
    have hx13 : Keeps ps s0 x13 := by
      subst x13
      refine Keeps.upd [.boot] (Parts.le_trans rfl hl) rfl rfl ?_
      exact hx11
    clear_value x13
    extract_lets +onlyGivenNames x14
    have hx14 : Keeps ps s0 x14 := by
      subst x14
      refine Keeps.foldl ?_ (fun t17 a15 ht16 => ?_)
      · exact hx13
      · refine State.setReg_keeps (Parts.le_trans rfl hl) ?_
        exact ht16
    clear_value x14
    refine State.setStage_keeps (Parts.le_trans rfl hl) ?_
    exact hx14

theorem trainHbm_keeps (hl : Parts.le [.mcs] ps = true) {s : State} (hs : Keeps ps s0 s) : Keeps ps s0 (trainHbm s) :=
    by
  unfold trainHbm
  refine Keeps.foldl ?_ (fun t3 a1 ht2 => ?_)
  · exact hs
  · refine Keeps.foldl ?_ (fun t6 a4 ht5 => ?_)
    · exact ht2
    · refine State.modMc_keeps hl ?_
      exact ht5

theorem bootTest_keeps {k : ℕ} {ev : StartupEv}
    (hl : Parts.le [.mcs, .cores, .store, .trcTok, .free, .mem, .acct, .regs, .bad, .trcSeq, .trcDrop, .hub, .out,
      .dies, .fns, .reports, .ports, .fab, .frings, .boot, .recovery, .meas, .scrambled] ps = true) {s : State}
    (hs : Keeps ps s0 s) :
    Keeps ps s0 (bootTest k ev s) := by
  unfold bootTest
  extract_lets w x y
  have hw : Keeps ps s0 w := Keeps.ite (trainHbm_keeps (Parts.le_trans rfl hl) hs) hs
  clear_value w
  have hx : Keeps ps s0 x := Keeps.foldl hw (fun _ _ ht => testFail_keeps (Parts.le_trans rfl hl) ht)
  clear_value x
  have hy : Keeps ps s0 y := by
    refine Keeps.ite ?_ hx
    refine Keeps.change [.mem, .scrambled, .bad] (Parts.le_trans rfl hl) rfl rfl (fun m => ⟨?_, m.2⟩)
      (fun m => FlightOk.ofEq m rfl rfl) (List.prefix_refl _) hx
    rfl
  exact Keeps.ite (State.setRegFld_keeps (Parts.le_trans rfl hl) hy) (State.setStage_keeps (Parts.le_trans rfl hl) hy)

theorem State.turnOn_keeps {f : FuncId} (hl : Parts.le [.fns] ps = true) {s : State} (hs : Keeps ps s0 s) : Keeps ps
    s0 (State.turnOn s f) := by
  unfold State.turnOn
  refine State.setFn_keeps hl ?_
  exact hs

theorem takeMap_keeps {m : List Region} (hl : Parts.le [.regs, .regionMap, .store, .free] ps = true) {s : State}
    (hs : Keeps ps s0 s) : Keeps ps s0 (takeMap m s) := by
  unfold takeMap
  extract_lets +onlyGivenNames x1
  clear_value x1
  extract_lets +onlyGivenNames x2
  have hx2 : Keeps ps s0 x2 := by
    subst x2
    refine State.setRegFld_keeps (Parts.le_trans rfl hl) ?_
    exact hs
  clear_value x2
  refine Keeps.ite ?_ ?_
  · refine Keeps.upd [.regionMap] (Parts.le_trans rfl hl) rfl rfl ?_
    exact hx2
  · refine State.logFault_keeps (Parts.le_trans rfl hl) ?_
    exact hx2

theorem commitStored_keeps (hl : Parts.le [.regs, .regionMap, .store, .free] ps = true) {s : State}
    (hs : Keeps ps s0 s) : Keeps ps s0 (commitStored s) := by
  unfold commitStored
  extract_lets +onlyGivenNames x1
  clear_value x1
  extract_lets +onlyGivenNames x2
  have hx2 : Keeps ps s0 x2 := by
    subst x2
    refine Keeps.foldl ?_ (fun t5 a3 ht4 => ?_)
    · exact hs
    · split
      refine State.setReg_keeps (Parts.le_trans rfl hl) ?_
      exact ht4
  clear_value x2
  refine takeMap_keeps hl ?_
  refine Keeps.upd [.regionMap] (Parts.le_trans rfl hl) rfl rfl ?_
  exact hx2

theorem bootStep8_keeps (hl : Parts.le [.regs, .regionMap, .store, .free, .fns, .boot] ps = true) {s : State}
    (hs : Keeps ps s0 s) : Keeps ps s0 (bootStep8 s) := by
  unfold bootStep8
  extract_lets +onlyGivenNames x1
  have hx1 : Keeps ps s0 x1 := by
    subst x1
    refine commitStored_keeps (Parts.le_trans rfl hl) ?_
    exact hs
  clear_value x1
  extract_lets +onlyGivenNames x2
  have hx2 : Keeps ps s0 x2 := by
    subst x2
    refine Keeps.foldl ?_ (fun t5 a3 ht4 => ?_)
    · exact hx1
    · extract_lets +onlyGivenNames x6
      have hx6 : Keeps ps s0 x6 := by
        subst x6
        refine Keeps.foldl ?_ (fun t9 a7 ht8 => ?_)
        · exact ht4
        · refine State.turnOn_keeps (Parts.le_trans rfl hl) ?_
          exact ht8
      clear_value x6
      extract_lets +onlyGivenNames x10
      have hx10 : Keeps ps s0 x10 := by
        subst x10
        refine Keeps.ite ?_ ?_
        · exact hx6
        · refine State.turnOn_keeps (Parts.le_trans rfl hl) ?_
          exact hx6
      clear_value x10
      extract_lets +onlyGivenNames x11
      have hx11 : Keeps ps s0 x11 := by
        subst x11
        refine Keeps.ite ?_ ?_
        · exact hx10
        · refine State.turnOn_keeps (Parts.le_trans rfl hl) ?_
          exact hx10
      clear_value x11
      refine State.turnOn_keeps (Parts.le_trans rfl hl) ?_
      exact hx11
  clear_value x2
  extract_lets +onlyGivenNames x12
  have hx12 : Keeps ps s0 x12 := by
    subst x12
    refine Keeps.foldl ?_ (fun t15 a13 ht14 => ?_)
    · exact hx2
    · refine State.turnOn_keeps (Parts.le_trans rfl hl) ?_
      exact ht14
  clear_value x12
  extract_lets +onlyGivenNames x16
  have hx16 : Keeps ps s0 x16 := by
    subst x16
    refine Keeps.foldl ?_ (fun t19 a17 ht18 => ?_)
    · exact hx12
    · refine State.setRegFld_keeps (Parts.le_trans rfl hl) ?_
      exact ht18
  clear_value x16
  refine State.setStage_keeps (Parts.le_trans rfl hl) ?_
  exact hx16

theorem bootStep9_keeps {ev : StartupEv}
    (hl : Parts.le [.fns, .store, .free, .hub, .regs, .out, .frings, .ports, .boot] ps = true) {s : State}
    (hs : Keeps ps s0 s) : Keeps ps s0 (bootStep9 ev s) := by
  unfold bootStep9
  extract_lets +onlyGivenNames x1
  have hx1 : Keeps ps s0 x1 := by
    subst x1
    refine Keeps.foldl ?_ (fun t4 a2 ht3 => ?_)
    · exact hs
    · extract_lets +onlyGivenNames x5
      have hx5 : Keeps ps s0 x5 := by
        subst x5
        refine State.turnOn_keeps (Parts.le_trans rfl hl) ?_
        exact ht3
      clear_value x5
      refine Keeps.ite ?_ ?_
      · refine State.degraded_keeps (Parts.le_trans rfl hl) ?_
        refine State.modFring_keeps (Parts.le_trans rfl hl) ?_
        exact hx5
      · refine State.modPort_keeps (Parts.le_trans rfl hl) ?_
        exact hx5
  clear_value x1
  refine State.setStage_keeps (Parts.le_trans rfl hl) ?_
  refine loopTrain_keeps (Parts.le_trans rfl hl) ?_
  exact hx1

theorem bootStep10_keeps (hl : Parts.le [.regs, .boot] ps = true) {s : State} (hs : Keeps ps s0 s) : Keeps ps s0
    (bootStep10 s) := by
  unfold bootStep10
  refine State.setStage_keeps hl ?_
  refine State.setReg_keeps (Parts.le_trans rfl hl) ?_
  exact hs

theorem startupStep_keeps {k : ℕ} {ev : StartupEv}
    (hl : Parts.le [.regs, .boot, .store, .fw, .meas, .hub, .dies, .cores, .mcs, .ports, .trcTok, .free, .mem, .acct,
      .bad, .trcSeq, .trcDrop, .out, .fns, .reports, .fab, .frings, .recovery, .scrambled, .regionMap] ps = true)
    {s : State} (hs : Keeps ps s0 s) : Keeps ps s0 (startupStep k ev s) := by
  unfold startupStep
  split
  · refine State.setStage_keeps (Parts.le_trans rfl hl) ?_
    exact hs
  · refine bootStep2_keeps (Parts.le_trans rfl hl) ?_
    exact hs
  · refine bootStep3_keeps (Parts.le_trans rfl hl) ?_
    exact hs
  · refine State.setStage_keeps (Parts.le_trans rfl hl) ?_
    refine Keeps.upd [.boot] (Parts.le_trans rfl hl) rfl rfl ?_
    exact hs
  · refine bootStep5_keeps (Parts.le_trans rfl hl) ?_
    exact hs
  · refine bootTest_keeps (Parts.le_trans rfl hl) ?_
    exact hs
  · refine bootTest_keeps (Parts.le_trans rfl hl) ?_
    exact hs
  · refine bootStep8_keeps (Parts.le_trans rfl hl) ?_
    exact hs
  · refine bootStep9_keeps (Parts.le_trans rfl hl) ?_
    exact hs
  · refine bootStep10_keeps (Parts.le_trans rfl hl) ?_
    exact hs
  · refine State.setStage_keeps (Parts.le_trans rfl hl) ?_
    exact hs

theorem execStartupStepDone_keeps {ev : StartupEv}
    (hl : Parts.le [.regs, .boot, .store, .fw, .meas, .hub, .dies, .cores, .mcs, .ports, .trcTok, .free, .mem, .acct,
      .bad, .trcSeq, .trcDrop, .out, .fns, .reports, .fab, .frings, .recovery, .scrambled, .regionMap] ps = true)
    {s : State} (hs : Keeps ps s0 s) {s' : State} (e : execStartupStepDone ev s = .next s') : Keeps ps s0 s' := by
  unfold execStartupStepDone at e
  refine Keeps.next ?_ e
  split
  · refine startupStep_keeps hl ?_
    exact hs
  · exact hs

theorem secRecover_keeps (hl : Parts.le Parts.any ps = true) {s : State} (hs : Keeps ps s0 s) : Keeps ps s0
    (secRecover s) := by
  unfold secRecover
  refine Keeps.ite ?_ ?_
  · exact hs
  · extract_lets +onlyGivenNames x1
    clear_value x1
    split
    · refine State.setRegFld_keeps (Parts.le_trans rfl hl) ?_
      exact hs
    · extract_lets +onlyGivenNames x2
      clear_value x2
      extract_lets +onlyGivenNames x3
      have hx3 : Keeps ps s0 x3 := by
        subst x3
        refine State.setBankImage_keeps (Parts.le_trans rfl hl) ?_
        exact hs
      clear_value x3
      extract_lets +onlyGivenNames x4
      clear_value x4
      refine Keeps.ite ?_ ?_
      · refine coldReset_keeps (Parts.le_trans rfl hl) ?_
        exact hx3
      · refine State.setRegFld_keeps (Parts.le_trans rfl hl) ?_
        exact hx3

theorem secCommitSvn_keeps (hl : Parts.le [.meas, .store] ps = true) {s : State} (hs : Keeps ps s0 s) : Keeps ps s0
    (secCommitSvn s) := by
  unfold secCommitSvn
  extract_lets +onlyGivenNames x1
  clear_value x1
  refine Keeps.ite ?_ ?_
  · refine State.extendSecurity_keeps (Parts.le_trans rfl hl) ?_
    refine Keeps.upd [.store] (Parts.le_trans rfl hl) rfl rfl ?_
    exact hs
  · exact hs

theorem linkDown_keeps (hl : Parts.le [.regs, .boot] ps = true) {s : State} (hs : Keeps ps s0 s) : Keeps ps s0
    (linkDown s) := by
  unfold linkDown
  extract_lets +onlyGivenNames x1
  have hx1 : Keeps ps s0 x1 := by
    subst x1
    refine State.setReg_keeps (Parts.le_trans rfl hl) ?_
    exact hs
  clear_value x1
  refine Keeps.upd [.boot] (Parts.le_trans rfl hl) rfl rfl ?_
  exact hx1

theorem linkTraining_keeps {bad : BitVec 16} {rate : Fin 4} (hl : Parts.le [.hub, .regs, .boot] ps = true) {s : State}
    (hs : Keeps ps s0 s) : Keeps ps s0 (linkTraining bad rate s) := by
  unfold linkTraining
  extract_lets +onlyGivenNames x1
  clear_value x1
  extract_lets +onlyGivenNames x2
  have hx2 : Keeps ps s0 x2 := by
    subst x2
    refine Keeps.upd [.hub] (Parts.le_trans rfl hl) rfl rfl ?_
    exact hs
  clear_value x2
  extract_lets +onlyGivenNames x3
  clear_value x3
  extract_lets +onlyGivenNames x4
  clear_value x4
  refine Keeps.ite ?_ ?_
  · refine linkDown_keeps (Parts.le_trans rfl hl) ?_
    exact hx2
  · split
    · extract_lets +onlyGivenNames x5
      have hx5 : Keeps ps s0 x5 := by
        subst x5
        refine State.setReg_keeps (Parts.le_trans rfl hl) ?_
        exact hx2
      clear_value x5
      refine Keeps.upd [.boot] (Parts.le_trans rfl hl) rfl rfl ?_
      exact hx5
    · refine linkDown_keeps (Parts.le_trans rfl hl) ?_
      exact hx2

theorem execLinkTraining_keeps {bad : BitVec 16} {rate : Fin 4} (hl : Parts.le [.hub, .regs, .boot] ps = true)
    {s : State} (hs : Keeps ps s0 s) {s' : State} (e : execLinkTraining bad rate s = .next s') : Keeps ps s0 s' := by
  unfold execLinkTraining at e
  refine Keeps.next ?_ e
  refine Keeps.ite ?_ ?_
  · refine linkTraining_keeps hl ?_
    exact hs
  · exact hs

theorem linkNarrow_keeps {lane : Fin 16} {l0p : Bool}
    (hl : Parts.le [.hub, .regs, .store, .free, .out, .boot, .reports, .recovery] ps = true) {s : State}
    (hs : Keeps ps s0 s) : Keeps ps s0 (linkNarrow lane l0p s) := by
  unfold linkNarrow
  extract_lets +onlyGivenNames x1
  clear_value x1
  extract_lets +onlyGivenNames x2
  clear_value x2
  refine Keeps.ite ?_ ?_
  · exact hs
  · extract_lets +onlyGivenNames x3
    clear_value x3
    extract_lets +onlyGivenNames x4
    clear_value x4
    extract_lets +onlyGivenNames x5
    have hx5 : Keeps ps s0 x5 := by
      subst x5
      refine Keeps.upd [.hub] (Parts.le_trans rfl hl) rfl rfl ?_
      exact hs
    clear_value x5
    split
    · extract_lets +onlyGivenNames x6
      have hx6 : Keeps ps s0 x6 := by
        subst x6
        refine State.setReg_keeps (Parts.le_trans rfl hl) ?_
        exact hx5
      clear_value x6
      extract_lets +onlyGivenNames x7
      have hx7 : Keeps ps s0 x7 := by
        subst x7
        refine State.bump_keeps (Parts.le_trans rfl hl) ?_
        exact hx6
      clear_value x7
      refine State.degraded_keeps (Parts.le_trans rfl hl) ?_
      exact hx7
    · refine lossOf_keeps (Parts.le_trans rfl hl) ?_
      refine linkDown_keeps (Parts.le_trans rfl hl) ?_
      exact hx5

theorem execLinkNarrow_keeps {lane : Fin 16} {l0p : Bool}
    (hl : Parts.le [.hub, .regs, .store, .free, .out, .boot, .reports, .recovery] ps = true) {s : State}
    (hs : Keeps ps s0 s) {s' : State} (e : execLinkNarrow lane l0p s = .next s') : Keeps ps s0 s' := by
  unfold execLinkNarrow at e
  refine Keeps.next ?_ e
  refine Keeps.ite ?_ ?_
  · refine linkNarrow_keeps hl ?_
    exact hs
  · exact hs

/-! ### Start -/

theorem startHeld_keeps {seq : ℕ}
    (hl : Parts.le [.descs, .hostMem, .mem, .reports, .acct, .free, .regs, .bad, .rings, .ctxs, .hub, .out, .disps,
      .dmaq, .mcs, .dies, .cores, .streams, .fns, .colls, .hops, .arms] ps = true) {s : State} (hs : Keeps ps s0 s) :
    Keeps ps s0 (startHeld seq s) := by
  unfold startHeld
  split
  · exact hs
  · split
    · refine Keeps.ite ?_ ?_
      · exact hs
      · refine startDispatch_keeps (Parts.le_trans rfl hl) ?_
        exact hs
    · refine startDma_keeps (Parts.le_trans rfl hl) ?_
      exact hs
    · refine startDma_keeps (Parts.le_trans rfl hl) ?_
      exact hs
    · refine startDma_keeps (Parts.le_trans rfl hl) ?_
      exact hs
    · refine startSubmit_keeps (Parts.le_trans rfl hl) ?_
      exact hs
    · refine startOpen_keeps (Parts.le_trans rfl hl) ?_
      exact hs
    · refine startClose_keeps (Parts.le_trans rfl hl) ?_
      exact hs
    · refine startUnload_keeps (Parts.le_trans rfl hl) ?_
      exact hs
    · refine startColl_keeps (Parts.le_trans rfl hl) ?_
      exact hs
    · refine energyQuery_keeps (Parts.le_trans rfl hl) ?_
      exact hs
    · refine State.markStarted_keeps (Parts.le_trans rfl hl) ?_
      exact hs

theorem releaseHeld_keeps
    (hl : Parts.le [.descs, .hostMem, .mem, .reports, .acct, .free, .regs, .bad, .rings, .ctxs, .hub, .out, .disps,
      .dmaq, .mcs, .dies, .cores, .streams, .fns, .colls, .hops, .arms] ps = true) {s : State} (hs : Keeps ps s0 s) :
    Keeps ps s0 (releaseHeld s) := by
  unfold releaseHeld
  refine releaseChains_keeps (Parts.le_trans rfl hl) ?_
  refine Keeps.foldl ?_ (fun t3 a1 ht2 => ?_)
  · exact hs
  · split
    · refine Keeps.ite ?_ ?_
      · refine startHeld_keeps hl ?_
        exact ht2
      · exact ht2
    · exact ht2

theorem fenceComplete_keeps {x : Desc}
    (hl : Parts.le [.descs, .hostMem, .mem, .reports, .acct, .free, .regs, .bad, .rings, .ctxs, .hub, .out, .disps,
      .dmaq, .mcs, .dies, .cores, .streams, .fns, .colls, .hops, .arms] ps = true) {s : State} (hs : Keeps ps s0 s) :
    Keeps ps s0 (fenceComplete x s) := by
  unfold fenceComplete
  refine releaseHeld_keeps hl ?_
  refine State.complete_keeps (Parts.le_trans rfl hl) ?_
  exact hs

theorem execFenceComplete_keeps {seq : ℕ}
    (hl : Parts.le [.descs, .hostMem, .mem, .reports, .acct, .free, .regs, .bad, .rings, .ctxs, .hub, .out, .disps,
      .dmaq, .mcs, .dies, .cores, .streams, .fns, .colls, .hops, .arms] ps = true) {s : State} (hs : Keeps ps s0 s)
    {s' : State} (e : execFenceComplete seq s = .next s') : Keeps ps s0 s' := by
  unfold execFenceComplete at e
  refine Keeps.next ?_ e
  split
  · refine Keeps.ite ?_ ?_
    · refine fenceComplete_keeps hl ?_
      exact hs
    · exact hs
  · exact hs

theorem startingComplete_keeps {f : FuncId}
    (hl : Parts.le [.fns, .free, .hostMem, .mem, .streams, .hub, .reports, .acct, .regs, .bad, .rings, .descs, .ctxs,
      .out, .frings, .ports, .dmaq] ps = true) {s : State} (hs : Keeps ps s0 s) : Keeps ps s0 (startingComplete f s)
    := by
  unfold startingComplete
  extract_lets +onlyGivenNames x1
  have hx1 : Keeps ps s0 x1 := by
    subst x1
    refine State.setFn_keeps (Parts.le_trans rfl hl) ?_
    exact hs
  clear_value x1
  split
  · refine streamStarted_keeps (Parts.le_trans rfl hl) ?_
    exact hx1
  · refine loopTrain_keeps (Parts.le_trans rfl hl) ?_
    refine State.modPort_keeps (Parts.le_trans rfl hl) ?_
    exact hx1
  · refine Keeps.ite ?_ ?_
    · refine dmaRetry_keeps (Parts.le_trans rfl hl) ?_
      exact hx1
    · exact hx1
  · refine Keeps.ite ?_ ?_
    · refine mediaRetry_keeps (Parts.le_trans rfl hl) ?_
      exact hx1
    · exact hx1
  · exact hx1

theorem execStartingComplete_keeps {f : FuncId}
    (hl : Parts.le [.fns, .free, .hostMem, .mem, .streams, .hub, .reports, .acct, .regs, .bad, .rings, .descs, .ctxs,
      .out, .frings, .ports, .dmaq] ps = true) {s : State} (hs : Keeps ps s0 s) {s' : State}
    (e : execStartingComplete f s = .next s') : Keeps ps s0 s' := by
  unfold execStartingComplete at e
  refine Keeps.next ?_ e
  refine Keeps.ite ?_ ?_
  · refine startingComplete_keeps hl ?_
    exact hs
  · exact hs

theorem drainComplete_keeps {f : FuncId}
    (hl : Parts.le [.fns, .plans, .dies, .free, .cores, .hostMem, .mem, .ctxs, .chains, .streams, .regs, .hub,
      .reports, .acct, .bad, .rings, .descs, .out, .ports, .dmaq, .store, .trcTok, .trcSeq, .trcDrop] ps = true)
    {s : State} (hs : Keeps ps s0 s) : Keeps ps s0 (drainComplete f s) := by
  unfold drainComplete
  extract_lets +onlyGivenNames x1
  clear_value x1
  extract_lets +onlyGivenNames x2
  have hx2 : Keeps ps s0 x2 := by
    subst x2
    refine State.setFn_keeps (Parts.le_trans rfl hl) ?_
    exact hs
  clear_value x2
  split
  · extract_lets +onlyGivenNames x3
    have hx3 : Keeps ps s0 x3 := by
      subst x3
      refine contextOff_keeps (Parts.le_trans rfl hl) ?_
      exact hx2
    clear_value x3
    refine Keeps.ite ?_ ?_
    · refine State.ctxStart_keeps (Parts.le_trans rfl hl) ?_
      exact hx3
    · exact hx3
  · refine streamDrained_keeps (Parts.le_trans rfl hl) ?_
    exact hx2
  · refine State.modPort_keeps (Parts.le_trans rfl hl) ?_
    exact hx2
  · refine Keeps.ite ?_ ?_
    · refine dmaRetry_keeps (Parts.le_trans rfl hl) ?_
      exact hx2
    · exact hx2
  · refine Keeps.ite ?_ ?_
    · refine mediaRetry_keeps (Parts.le_trans rfl hl) ?_
      exact hx2
    · exact hx2
  · refine Keeps.ite ?_ ?_
    · refine retireCore_keeps (Parts.le_trans rfl hl) ?_
      exact hx2
    · exact hx2
  · exact hx2

theorem execDrainComplete_keeps {f : FuncId}
    (hl : Parts.le [.fns, .plans, .dies, .free, .cores, .hostMem, .mem, .ctxs, .chains, .streams, .regs, .hub,
      .reports, .acct, .bad, .rings, .descs, .out, .ports, .dmaq, .store, .trcTok, .trcSeq, .trcDrop] ps = true)
    {s : State} (hs : Keeps ps s0 s) {s' : State} (e : execDrainComplete f s = .next s') : Keeps ps s0 s' := by
  unfold execDrainComplete at e
  refine Keeps.next ?_ e
  refine Keeps.ite ?_ ?_
  · refine drainComplete_keeps hl ?_
    exact hs
  · exact hs

/-! ### Spdm -/

theorem State.modSpdm_keeps {t : Transport} {f : Spdm → Spdm} (hl : Parts.le [.spdmDoe, .spdmMctp] ps = true)
    {s : State} (hs : Keeps ps s0 s) : Keeps ps s0 (State.modSpdm s t f) := by
  unfold State.modSpdm
  split
  · refine Keeps.upd [.spdmDoe] (Parts.le_trans rfl hl) rfl rfl ?_
    exact hs
  · refine Keeps.upd [.spdmMctp] (Parts.le_trans rfl hl) rfl rfl ?_
    exact hs

theorem State.reply_keeps {t : Transport} {r : SpdmResp} (hl : Parts.le [.out] ps = true) {s : State}
    (hs : Keeps ps s0 s) : Keeps ps s0 (State.reply s t r) := by
  unfold State.reply
  refine State.emit_keeps _ hl ?_
  exact hs

theorem spdmAt_keeps {t : Transport} {f : State → State} (hl : Parts.le [.out] ps = true)
    (hf : ∀ t, Keeps ps s0 t → Keeps ps s0 (f t)) {s : State} (hs : Keeps ps s0 s) : Keeps ps s0 (spdmAt t f s) := by
  unfold spdmAt
  refine Keeps.ite ?_ ?_
  · exact hs
  · refine Keeps.ite ?_ ?_
    · refine State.reply_keeps hl ?_
      exact hs
    · apply hf
      exact hs

theorem spdmStage_keeps {t : Transport} {k : ℕ} {f : State → State} (hl : Parts.le [.out] ps = true)
    (hf : ∀ t, Keeps ps s0 t → Keeps ps s0 (f t)) {s : State} (hs : Keeps ps s0 s) : Keeps ps s0 (spdmStage t k f s)
    := by
  unfold spdmStage
  refine spdmAt_keeps hl ?_ ?_
  · intro t1 ht2
    refine Keeps.ite ?_ ?_
    · refine State.reply_keeps hl ?_
      exact ht2
    · apply hf
      exact ht2
  · exact hs

theorem signedReply_keeps {t : Transport} {r : SpdmResp} (hl : Parts.le [.free, .out, .spdmDoe, .spdmMctp] ps = true)
    {s : State} (hs : Keeps ps s0 s) : Keeps ps s0 (signedReply t r s) := by
  unfold signedReply
  extract_lets +onlyGivenNames x1
  dsimp only
  refine Keeps.ite ?_ ?_
  · refine State.reply_keeps (Parts.le_trans rfl hl) ?_
    refine State.modSpdm_keeps (Parts.le_trans rfl hl) ?_
    refine Keeps.upd [.free] (Parts.le_trans rfl hl) rfl rfl ?_
    exact hs
  · refine State.reply_keeps (Parts.le_trans rfl hl) ?_
    refine Keeps.upd [.free] (Parts.le_trans rfl hl) rfl rfl ?_
    exact hs

theorem getVersion_keeps {t : Transport} (hl : Parts.le [.out, .spdmDoe, .spdmMctp] ps = true) {s : State}
    (hs : Keeps ps s0 s) : Keeps ps s0 (getVersion t s) := by
  unfold getVersion
  refine spdmAt_keeps (Parts.le_trans rfl hl) ?_ ?_
  · intro t1 ht2
    refine State.reply_keeps (Parts.le_trans rfl hl) ?_
    refine State.modSpdm_keeps (Parts.le_trans rfl hl) ?_
    exact ht2
  · exact hs

theorem getCapabilities_keeps {t : Transport} {version : Byte} {ct : ℕ}
    (hl : Parts.le [.out, .spdmDoe, .spdmMctp] ps = true) {s : State} (hs : Keeps ps s0 s) : Keeps ps s0
    (getCapabilities t version ct s) := by
  unfold getCapabilities
  refine spdmStage_keeps (Parts.le_trans rfl hl) ?_ ?_
  · intro t1 ht2
    refine Keeps.ite ?_ ?_
    · refine State.reply_keeps (Parts.le_trans rfl hl) ?_
      refine State.modSpdm_keeps (Parts.le_trans rfl hl) ?_
      exact ht2
    · refine State.reply_keeps (Parts.le_trans rfl hl) ?_
      exact ht2
  · exact hs

theorem negotiateAlgorithms_keeps {t : Transport} {asym : Bool} {hash : Bool} {dhe : Bool} {aead : Bool} {key : Bool}
    (hl : Parts.le [.out, .spdmDoe, .spdmMctp] ps = true) {s : State} (hs : Keeps ps s0 s) : Keeps ps s0
    (negotiateAlgorithms t asym hash dhe aead key s) := by
  unfold negotiateAlgorithms
  refine spdmStage_keeps (Parts.le_trans rfl hl) ?_ ?_
  · intro t1 ht2
    refine Keeps.ite ?_ ?_
    · refine State.reply_keeps (Parts.le_trans rfl hl) ?_
      refine State.modSpdm_keeps (Parts.le_trans rfl hl) ?_
      exact ht2
    · refine State.reply_keeps (Parts.le_trans rfl hl) ?_
      exact ht2
  · exact hs

theorem getDigests_keeps {t : Transport} (hl : Parts.le [.out] ps = true) {s : State} (hs : Keeps ps s0 s) : Keeps ps
    s0 (getDigests t s) := by
  unfold getDigests
  refine spdmStage_keeps hl ?_ ?_
  · intro t1 ht2
    refine State.reply_keeps hl ?_
    exact ht2
  · exact hs

theorem getCertificate_keeps {t : Transport} {slot : Fin 8} {offset : ℕ} {length : ℕ}
    (hl : Parts.le [.out, .spdmDoe, .spdmMctp] ps = true) {s : State} (hs : Keeps ps s0 s) : Keeps ps s0
    (getCertificate t slot offset length s) := by
  unfold getCertificate
  refine spdmStage_keeps (Parts.le_trans rfl hl) ?_ ?_
  · intro t1 ht2
    extract_lets +onlyGivenNames x3
    clear_value x3
    refine Keeps.ite ?_ ?_
    · refine State.reply_keeps (Parts.le_trans rfl hl) ?_
      exact ht2
    · extract_lets +onlyGivenNames x4
      clear_value x4
      refine Keeps.ite ?_ ?_
      · extract_lets +onlyGivenNames x5
        clear_value x5
        refine State.reply_keeps (Parts.le_trans rfl hl) ?_
        refine State.modSpdm_keeps (Parts.le_trans rfl hl) ?_
        exact ht2
      · refine State.reply_keeps (Parts.le_trans rfl hl) ?_
        exact ht2
  · exact hs

theorem challenge_keeps {t : Transport} {slot : Fin 8} {summary : Byte} {nonce : BitVec 256}
    (hl : Parts.le [.out, .free, .spdmDoe, .spdmMctp] ps = true) {s : State} (hs : Keeps ps s0 s) : Keeps ps s0
    (challenge t slot summary nonce s) := by
  unfold challenge
  refine spdmStage_keeps (Parts.le_trans rfl hl) ?_ ?_
  · intro t1 ht2
    refine Keeps.ite ?_ ?_
    · refine State.reply_keeps (Parts.le_trans rfl hl) ?_
      exact ht2
    · refine Keeps.ite ?_ ?_
      · refine State.reply_keeps (Parts.le_trans rfl hl) ?_
        exact ht2
      · extract_lets +onlyGivenNames x3
        clear_value x3
        extract_lets +onlyGivenNames x4
        clear_value x4
        refine signedReply_keeps (Parts.le_trans rfl hl) ?_
        exact ht2
  · exact hs

theorem getMeasurements_keeps {t : Transport} {index : Byte} {signed : Bool} {nonce : BitVec 256}
    (hl : Parts.le [.out, .free, .spdmDoe, .spdmMctp] ps = true) {s : State} (hs : Keeps ps s0 s) : Keeps ps s0
    (getMeasurements t index signed nonce s) := by
  unfold getMeasurements
  refine spdmStage_keeps (Parts.le_trans rfl hl) ?_ ?_
  · intro t1 ht2
    extract_lets +onlyGivenNames x3
    clear_value x3
    refine Keeps.ite ?_ ?_
    · refine State.reply_keeps (Parts.le_trans rfl hl) ?_
      exact ht2
    · refine Keeps.ite ?_ ?_
      · refine State.reply_keeps (Parts.le_trans rfl hl) ?_
        exact ht2
      · refine Keeps.ite ?_ ?_
        · refine State.reply_keeps (Parts.le_trans rfl hl) ?_
          exact ht2
        · extract_lets +onlyGivenNames x4
          clear_value x4
          refine signedReply_keeps (Parts.le_trans rfl hl) ?_
          exact ht2
  · exact hs

theorem keyExchange_keeps {t : Transport} {slot : Fin 8} {exchange : List Byte} {mutualAuth : Bool}
    (hl : Parts.le [.out, .free, .spdmDoe, .spdmMctp] ps = true) {s : State} (hs : Keeps ps s0 s) : Keeps ps s0
    (keyExchange t slot exchange mutualAuth s) := by
  unfold keyExchange
  refine spdmStage_keeps (Parts.le_trans rfl hl) ?_ ?_
  · intro t1 ht2
    refine Keeps.ite ?_ ?_
    · refine State.reply_keeps (Parts.le_trans rfl hl) ?_
      exact ht2
    · refine Keeps.ite ?_ ?_
      · refine State.reply_keeps (Parts.le_trans rfl hl) ?_
        exact ht2
      · refine Keeps.ite ?_ ?_
        · refine State.reply_keeps (Parts.le_trans rfl hl) ?_
          exact ht2
        · refine Keeps.ite ?_ ?_
          · refine State.reply_keeps (Parts.le_trans rfl hl) ?_
            exact ht2
          · extract_lets +onlyGivenNames x3
            clear_value x3
            extract_lets +onlyGivenNames x4
            clear_value x4
            extract_lets +onlyGivenNames x5
            clear_value x5
            refine signedReply_keeps (Parts.le_trans rfl hl) ?_
            refine State.modSpdm_keeps (Parts.le_trans rfl hl) ?_
            exact ht2
  · exact hs

theorem State.dropSession_keeps {t : Transport} {n : ℕ} (hl : Parts.le [.spdmDoe, .spdmMctp] ps = true) {s : State}
    (hs : Keeps ps s0 s) : Keeps ps s0 (State.dropSession s t n) := by
  unfold State.dropSession
  refine State.modSpdm_keeps hl ?_
  exact hs

theorem finish_keeps {t : Transport} {n : ℕ} {hmacOk : Bool} (hl : Parts.le [.out, .spdmDoe, .spdmMctp] ps = true)
    {s : State} (hs : Keeps ps s0 s) : Keeps ps s0 (finish t n hmacOk s) := by
  unfold finish
  refine spdmStage_keeps (Parts.le_trans rfl hl) ?_ ?_
  · intro t1 ht2
    split
    · refine State.reply_keeps (Parts.le_trans rfl hl) ?_
      exact ht2
    · refine State.reply_keeps (Parts.le_trans rfl hl) ?_
      exact ht2
    · refine Keeps.ite ?_ ?_
      · refine State.reply_keeps (Parts.le_trans rfl hl) ?_
        refine State.modSpdm_keeps (Parts.le_trans rfl hl) ?_
        exact ht2
      · refine State.reply_keeps (Parts.le_trans rfl hl) ?_
        refine State.dropSession_keeps (Parts.le_trans rfl hl) ?_
        exact ht2
  · exact hs

theorem inSession_keeps {t : Transport} {n : ℕ} {f : State → State} (hl : Parts.le [.out] ps = true)
    (hf : ∀ t, Keeps ps s0 t → Keeps ps s0 (f t)) {s : State} (hs : Keeps ps s0 s) : Keeps ps s0 (inSession t n f s)
    := by
  unfold inSession
  refine spdmStage_keeps hl ?_ ?_
  · intro t1 ht2
    refine Keeps.ite ?_ ?_
    · apply hf
      exact ht2
    · refine State.reply_keeps hl ?_
      exact ht2
  · exact hs

theorem endSession_keeps {t : Transport} {n : ℕ} (hl : Parts.le [.out, .spdmDoe, .spdmMctp] ps = true) {s : State}
    (hs : Keeps ps s0 s) : Keeps ps s0 (endSession t n s) := by
  unfold endSession
  refine inSession_keeps (Parts.le_trans rfl hl) ?_ ?_
  · intro t1 ht2
    refine State.reply_keeps (Parts.le_trans rfl hl) ?_
    refine State.dropSession_keeps (Parts.le_trans rfl hl) ?_
    exact ht2
  · exact hs

theorem heartbeat_keeps {t : Transport} {n : ℕ} (hl : Parts.le [.out] ps = true) {s : State} (hs : Keeps ps s0 s) :
    Keeps ps s0 (heartbeat t n s) := by
  unfold heartbeat
  refine inSession_keeps hl ?_ ?_
  · intro t1 ht2
    refine State.reply_keeps hl ?_
    exact ht2
  · exact hs

theorem keyUpdate_keeps {t : Transport} {n : ℕ} (hl : Parts.le [.out] ps = true) {s : State} (hs : Keeps ps s0 s) :
    Keeps ps s0 (keyUpdate t n s) := by
  unfold keyUpdate
  refine inSession_keeps hl ?_ ?_
  · intro t1 ht2
    refine State.reply_keeps hl ?_
    exact ht2
  · exact hs

theorem chunkGet_keeps {t : Transport} {handle : ℕ} {seqNo : ℕ} (hl : Parts.le [.out, .spdmDoe, .spdmMctp] ps = true)
    {s : State} (hs : Keeps ps s0 s) : Keeps ps s0 (chunkGet t handle seqNo s) := by
  unfold chunkGet
  refine spdmStage_keeps (Parts.le_trans rfl hl) ?_ ?_
  · intro t1 ht2
    extract_lets +onlyGivenNames x3
    clear_value x3
    extract_lets +onlyGivenNames x4
    clear_value x4
    refine Keeps.ite ?_ ?_
    · refine State.reply_keeps (Parts.le_trans rfl hl) ?_
      exact ht2
    · extract_lets +onlyGivenNames x5
      clear_value x5
      refine State.reply_keeps (Parts.le_trans rfl hl) ?_
      refine State.modSpdm_keeps (Parts.le_trans rfl hl) ?_
      exact ht2
  · exact hs

theorem respondIfReady_keeps {t : Transport} {token : ℕ} (hl : Parts.le [.out, .spdmDoe, .spdmMctp] ps = true)
    {s : State} (hs : Keeps ps s0 s) : Keeps ps s0 (respondIfReady t token s) := by
  unfold respondIfReady
  refine spdmStage_keeps (Parts.le_trans rfl hl) ?_ ?_
  · intro t1 ht2
    split
    · refine Keeps.ite ?_ ?_
      · refine State.reply_keeps (Parts.le_trans rfl hl) ?_
        refine State.modSpdm_keeps (Parts.le_trans rfl hl) ?_
        exact ht2
      · refine State.reply_keeps (Parts.le_trans rfl hl) ?_
        exact ht2
    · refine State.reply_keeps (Parts.le_trans rfl hl) ?_
      exact ht2
  · exact hs

theorem spdmUnsupported_keeps {t : Transport} (hl : Parts.le [.out] ps = true) {s : State} (hs : Keeps ps s0 s) :
    Keeps ps s0 (spdmUnsupported t s) := by
  unfold spdmUnsupported
  refine spdmAt_keeps hl ?_ ?_
  · intro t1 ht2
    refine State.reply_keeps hl ?_
    exact ht2
  · exact hs

theorem spdmRequest_keeps {t : Transport} {r : SpdmReq} (hl : Parts.le [.out, .spdmDoe, .spdmMctp, .free] ps = true)
    {s : State} (hs : Keeps ps s0 s) : Keeps ps s0 (spdmRequest t r s) := by
  unfold spdmRequest
  split
  · refine getVersion_keeps (Parts.le_trans rfl hl) ?_
    exact hs
  · refine getCapabilities_keeps (Parts.le_trans rfl hl) ?_
    exact hs
  · refine negotiateAlgorithms_keeps (Parts.le_trans rfl hl) ?_
    exact hs
  · refine getDigests_keeps (Parts.le_trans rfl hl) ?_
    exact hs
  · refine getCertificate_keeps (Parts.le_trans rfl hl) ?_
    exact hs
  · refine challenge_keeps (Parts.le_trans rfl hl) ?_
    exact hs
  · refine getMeasurements_keeps (Parts.le_trans rfl hl) ?_
    exact hs
  · refine keyExchange_keeps (Parts.le_trans rfl hl) ?_
    exact hs
  · refine finish_keeps (Parts.le_trans rfl hl) ?_
    exact hs
  · refine endSession_keeps (Parts.le_trans rfl hl) ?_
    exact hs
  · refine heartbeat_keeps (Parts.le_trans rfl hl) ?_
    exact hs
  · refine keyUpdate_keeps (Parts.le_trans rfl hl) ?_
    exact hs
  · refine respondIfReady_keeps (Parts.le_trans rfl hl) ?_
    exact hs
  · refine spdmUnsupported_keeps (Parts.le_trans rfl hl) ?_
    exact hs

theorem largeRequest_keeps {t : Transport} {bs : List Byte}
    (hl : Parts.le [.out, .spdmDoe, .spdmMctp, .free] ps = true) {s : State} (hs : Keeps ps s0 s) : Keeps ps s0
    (largeRequest t bs s) := by
  unfold largeRequest
  split
  · refine spdmRequest_keeps hl ?_
    exact hs
  · refine State.reply_keeps (Parts.le_trans rfl hl) ?_
    exact hs

theorem chunkSend_keeps {t : Transport} {handle : ℕ} {seqNo : ℕ} {last : Bool} {chunk : List Byte}
    (hl : Parts.le [.out, .spdmDoe, .spdmMctp, .free] ps = true) {s : State} (hs : Keeps ps s0 s) : Keeps ps s0
    (chunkSend t handle seqNo last chunk s) := by
  unfold chunkSend
  refine spdmStage_keeps (Parts.le_trans rfl hl) ?_ ?_
  · intro t1 ht2
    extract_lets +onlyGivenNames x3
    clear_value x3
    refine Keeps.ite ?_ ?_
    · extract_lets +onlyGivenNames x4
      clear_value x4
      extract_lets +onlyGivenNames x5
      have hx5 : Keeps ps s0 x5 := by
        subst x5
        refine State.reply_keeps (Parts.le_trans rfl hl) ?_
        refine State.modSpdm_keeps (Parts.le_trans rfl hl) ?_
        exact ht2
      clear_value x5
      refine Keeps.ite ?_ ?_
      · refine largeRequest_keeps hl ?_
        exact hx5
      · exact hx5
    · refine State.reply_keeps (Parts.le_trans rfl hl) ?_
      exact ht2
  · exact hs

theorem mctpControl_keeps {msg : MctpMsg} (hl : Parts.le [.boot, .out] ps = true) {s : State} (hs : Keeps ps s0 s) :
    Keeps ps s0 (mctpControl msg s) := by
  unfold mctpControl
  refine Keeps.ite ?_ ?_
  · exact hs
  · split
    · refine Keeps.ite ?_ ?_
      · refine Keeps.upd [.boot] (Parts.le_trans rfl hl) rfl rfl ?_
        exact hs
      · exact hs
    · refine Keeps.upd [.boot] (Parts.le_trans rfl hl) rfl rfl ?_
      exact hs
    · refine Keeps.ite ?_ ?_
      · refine State.emit_keeps _ (Parts.le_trans rfl hl) ?_
        refine Keeps.upd [.boot] (Parts.le_trans rfl hl) rfl rfl ?_
        exact hs
      · exact hs
    · refine Keeps.ite ?_ ?_
      · refine State.emit_keeps _ (Parts.le_trans rfl hl) ?_
        exact hs
      · exact hs

/-! ### Views -/

theorem State.view_keeps {r : RegRef} (hl : Parts.le [.free, .regs, .busyNs] ps = true) {s : State}
    (hs : Keeps ps s0 s) : Keeps ps s0 (State.view s r).2 := by
  unfold State.view
  split
  · exact hs
  · split
    · exact hs
    · extract_lets +onlyGivenNames x1
      clear_value x1
      split
      · split
        rename_i y2 y3 y4 y5
        have hy4 : Keeps ps s0 y4 := by
          refine Keeps.ofEqR y5 ?_
          refine State.freeBits_keeps (Parts.le_trans rfl hl) ?_
          exact hs
        split
        · extract_lets +onlyGivenNames x6
          have hx6 : Keeps ps s0 x6 := by
            subst x6
            refine State.bump_keeps (Parts.le_trans rfl hl) ?_
            exact hy4
          clear_value x6
          exact hx6
        · exact hy4
      · split
        · extract_lets +onlyGivenNames x7
          have hx7 : Keeps ps s0 x7 := by
            subst x7
            refine State.settleCyc_keeps (Parts.le_trans rfl hl) ?_
            exact hs
          clear_value x7
          exact hx7
        · split
          · extract_lets +onlyGivenNames x8
            clear_value x8
            split
            rename_i y9 y10 y11 y12
            have hy11 : Keeps ps s0 y11 := by
              refine Keeps.ofEqR y12 ?_
              refine State.freeBits_keeps (Parts.le_trans rfl hl) ?_
              exact hs
            exact hy11
          · split
            · extract_lets +onlyGivenNames x13
              clear_value x13
              split
              rename_i y14 y15 y16 y17
              have hy16 : Keeps ps s0 y16 := by
                refine Keeps.ofEqR y17 ?_
                refine State.freeBits_keeps (Parts.le_trans rfl hl) ?_
                exact hs
              exact hy16
            · exact hs

/-! ### Loopback -/

theorem hifLoopRefused_keeps (hl : Parts.le [.regs] ps = true) {s : State} (hs : Keeps ps s0 s) : Keeps ps s0
    (hifLoopRefused s) := by
  unfold hifLoopRefused
  refine State.setRegFld_keeps hl ?_
  exact hs

theorem hifLoopSelect_keeps {henlan : Bool} {depth : ℕ} {seconds : ℕ} (hl : Parts.le [.hub, .regs, .boot] ps = true)
    {s : State} (hs : Keeps ps s0 s) : Keeps ps s0 (hifLoopSelect henlan depth seconds s) := by
  unfold hifLoopSelect
  refine Keeps.ite ?_ ?_
  · beta_reduce
    refine Keeps.upd [.hub] (Parts.le_trans rfl hl) rfl rfl ?_
    refine State.setRegFld_keeps (Parts.le_trans rfl hl) ?_
    refine State.setReg_keeps (Parts.le_trans rfl hl) ?_
    exact hs
  · refine Keeps.ite ?_ ?_
    · refine hifLoopRefused_keeps (Parts.le_trans rfl hl) ?_
      exact hs
    · extract_lets +onlyGivenNames x1
      have hx1 : Keeps ps s0 x1 := by
        subst x1
        refine linkDown_keeps (Parts.le_trans rfl hl) ?_
        refine State.setReg_keeps (Parts.le_trans rfl hl) ?_
        exact hs
      clear_value x1
      refine Keeps.upd [.hub] (Parts.le_trans rfl hl) rfl rfl ?_
      exact hx1

theorem pcieLoopbackEnd_keeps {errors : ℕ} (hl : Parts.le [.regs, .hub] ps = true) {s : State} (hs : Keeps ps s0 s) :
    Keeps ps s0 (pcieLoopbackEnd errors s) := by
  unfold pcieLoopbackEnd
  extract_lets +onlyGivenNames x1
  have hx1 : Keeps ps s0 x1 := by
    subst x1
    refine State.setRegFld_keeps (Parts.le_trans rfl hl) ?_
    refine State.bump_keeps (Parts.le_trans rfl hl) ?_
    exact hs
  clear_value x1
  refine Keeps.upd [.hub] (Parts.le_trans rfl hl) rfl rfl ?_
  exact hx1

theorem execPcieLoopbackEnd_keeps {errors : ℕ} (hl : Parts.le [.regs, .hub] ps = true) {s : State}
    (hs : Keeps ps s0 s) {s' : State} (e : execPcieLoopbackEnd errors s = .next s') : Keeps ps s0 s' := by
  unfold execPcieLoopbackEnd at e
  refine Keeps.next ?_ e
  refine Keeps.ite ?_ ?_
  · refine pcieLoopbackEnd_keeps hl ?_
    exact hs
  · exact hs

theorem execFarendLoopbackEnter_keeps (hl : Parts.le [.regs, .hub] ps = true) {s : State} (hs : Keeps ps s0 s)
    {s' : State} (e : execFarendLoopbackEnter s = .next s') : Keeps ps s0 s' := by
  unfold execFarendLoopbackEnter at e
  refine Keeps.next ?_ e
  refine Keeps.ite ?_ ?_
  · refine State.bump_keeps (Parts.le_trans rfl hl) ?_
    refine Keeps.upd [.hub] (Parts.le_trans rfl hl) rfl rfl ?_
    exact hs
  · exact hs

theorem execFarendLoopbackExit_keeps (hl : Parts.le [.hub] ps = true) {s : State} (hs : Keeps ps s0 s) {s' : State}
    (e : execFarendLoopbackExit s = .next s') : Keeps ps s0 s' := by
  unfold execFarendLoopbackExit at e
  refine Keeps.next ?_ e
  refine Keeps.upd [.hub] hl rfl rfl ?_
  exact hs

theorem moveSegment_keeps {p : PortId} {away : Bool} (hl : Parts.le [.fab, .hub, .regs, .out] ps = true) {s : State}
    (hs : Keeps ps s0 s) : Keeps ps s0 (moveSegment p away s) := by
  unfold moveSegment
  refine viewStep_keeps hl ?_ ?_
  · intro t1 ht2
    refine Keeps.upd [.fab] (Parts.le_trans rfl hl) rfl rfl ?_
    exact ht2
  · exact hs

theorem askEcho_keeps {p : PortId} (hl : Parts.le [.out, .acct, .regs] ps = true) {s : State} (hs : Keeps ps s0 s) :
    Keeps ps s0 (askEcho p s) := by
  unfold askEcho
  extract_lets +onlyGivenNames x1
  clear_value x1
  extract_lets +onlyGivenNames x2
  clear_value x2
  split
  · refine State.sendNear_keeps hl ?_
    exact hs
  · exact hs

theorem lndLoopSelect_keeps {p : PortId} {depth : ℕ} {echoOk : Bool}
    (hl : Parts.le [.regs, .fab, .hub, .out, .acct] ps = true) {s : State} (hs : Keeps ps s0 s) : Keeps ps s0
    (lndLoopSelect p depth echoOk s) := by
  unfold lndLoopSelect
  extract_lets +onlyGivenNames x1
  clear_value x1
  refine Keeps.ite ?_ ?_
  · extract_lets +onlyGivenNames x2
    have hx2 : Keeps ps s0 x2 := by
      subst x2
      refine State.setReg_keeps (Parts.le_trans rfl hl) ?_
      exact hs
    clear_value x2
    refine Keeps.ite ?_ ?_
    · refine moveSegment_keeps (Parts.le_trans rfl hl) ?_
      exact hx2
    · exact hx2
  · refine Keeps.ite ?_ ?_
    · extract_lets +onlyGivenNames x3
      have hx3 : Keeps ps s0 x3 := by
        subst x3
        refine State.setReg_keeps (Parts.le_trans rfl hl) ?_
        refine Keeps.ite ?_ ?_
        · refine askEcho_keeps (Parts.le_trans rfl hl) ?_
          exact hs
        · exact hs
      clear_value x3
      refine Keeps.ite ?_ ?_
      · refine moveSegment_keeps (Parts.le_trans rfl hl) ?_
        exact hx3
      · refine Keeps.ite ?_ ?_
        · refine moveSegment_keeps (Parts.le_trans rfl hl) ?_
          exact hx3
        · exact hx3
    · refine Keeps.ite ?_ ?_
      · refine State.setRegFld_keeps (Parts.le_trans rfl hl) ?_
        refine askEcho_keeps (Parts.le_trans rfl hl) ?_
        exact hs
      · refine State.setRegFld_keeps (Parts.le_trans rfl hl) ?_
        exact hs

theorem zeroStack_keeps {k : ℕ} (hl : Parts.le [.mem, .bad] ps = true) {s : State} (hs : Keeps ps s0 s) :
    Keeps ps s0 (zeroStack k s) := by
  unfold zeroStack
  extract_lets x
  have hx : Keeps ps s0 x := Keeps.filterMem [.mem, .bad] _ rfl hl rfl rfl hs
  clear_value x
  exact Keeps.foldl hx (fun _ _ ht => State.devWrite_keeps _ _ (Parts.le_trans rfl hl) ht)

theorem mcLoopSelect_keeps {d : Die} {m : Mc} {depth : ℕ} {pc : ℕ} (hl : Parts.le [.regs] ps = true) {s : State}
    (hs : Keeps ps s0 s) : Keeps ps s0 (mcLoopSelect d m depth pc s) := by
  unfold mcLoopSelect
  refine Keeps.ite ?_ ?_
  · refine State.modReg_keeps hl ?_
    exact hs
  · refine Keeps.ite ?_ ?_
    · refine State.setRegFld_keeps hl ?_
      exact hs
    · refine State.setReg_keeps hl ?_
      exact hs

theorem mcPassDone_keeps {d : Die} {m : Mc} {errors : ℕ} (hl : Parts.le [.regs, .mem, .bad] ps = true) {s : State}
    (hs : Keeps ps s0 s) : Keeps ps s0 (mcPassDone d m errors s) := by
  unfold mcPassDone
  extract_lets +onlyGivenNames x1
  clear_value x1
  extract_lets +onlyGivenNames x2
  have hx2 : Keeps ps s0 x2 := by
    subst x2
    refine State.setRegFld_keeps (Parts.le_trans rfl hl) ?_
    refine State.bump_keeps (Parts.le_trans rfl hl) ?_
    exact hs
  clear_value x2
  refine Keeps.ite ?_ ?_
  · refine zeroStack_keeps (Parts.le_trans rfl hl) ?_
    exact hx2
  · exact hx2

theorem medLoopSelect_keeps {d : Die} {depth : ℕ} (hl : Parts.le [.regs] ps = true) {s : State} (hs : Keeps ps s0 s) :
    Keeps ps s0 (medLoopSelect d depth s) := by
  unfold medLoopSelect
  refine Keeps.ite ?_ ?_
  · refine State.setRegFld_keeps hl ?_
    exact hs
  · refine Keeps.ite ?_ ?_
    · refine State.setRegFld_keeps hl ?_
      exact hs
    · refine State.setReg_keeps hl ?_
      exact hs

theorem medPassDone_keeps {d : Die} {checked : ℕ} {errors : ℕ} (hl : Parts.le [.regs] ps = true) {s : State}
    (hs : Keeps ps s0 s) : Keeps ps s0 (medPassDone d checked errors s) := by
  unfold medPassDone
  extract_lets +onlyGivenNames x1
  have hx1 : Keeps ps s0 x1 := by
    subst x1
    refine State.modReg_keeps hl ?_
    exact hs
  clear_value x1
  refine State.setRegFld_keeps hl ?_
  exact hx1

theorem loopFault_keeps {f : TestFail}
    (hl : Parts.le [.mcs, .regs, .store, .free, .hub, .out, .trcTok, .mem, .acct, .bad, .trcSeq, .trcDrop, .ports,
      .fab, .frings, .cores, .dies, .fns, .reports, .boot, .recovery, .meas] ps = true) {s : State}
    (hs : Keeps ps s0 s) : Keeps ps s0 (loopFault f s) := by
  unfold loopFault
  split
  · refine Keeps.ite ?_ ?_
    · refine rowRetire_keeps (Parts.le_trans rfl hl) ?_
      exact hs
    · refine State.modMc_keeps (Parts.le_trans rfl hl) ?_
      exact hs
  · refine Keeps.ite ?_ ?_
    · refine testBank_keeps (Parts.le_trans rfl hl) ?_
      exact hs
    · exact hs
  · refine hbmLaneRepair_keeps (Parts.le_trans rfl hl) ?_
    exact hs
  · refine Keeps.ite ?_ ?_
    · exact hs
    · refine fabricLaneSpare_keeps (Parts.le_trans rfl hl) ?_
      exact hs
  · refine Keeps.ite ?_ ?_
    · exact hs
    · refine laserSpare_keeps (Parts.le_trans rfl hl) ?_
      exact hs
  · refine testFail_keeps (Parts.le_trans rfl hl) ?_
    exact hs
  · exact hs

theorem loopbackPassDone_keeps {off : ℕ} {checked : ℕ} {errors : ℕ} (hl : Parts.le [.regs, .mem, .bad] ps = true)
    {s : State} (hs : Keeps ps s0 s) : Keeps ps s0 (loopbackPassDone off checked errors s) := by
  unfold loopbackPassDone
  split
  · extract_lets +onlyGivenNames x1
    clear_value x1
    split
    · refine Keeps.ite ?_ ?_
      · refine mcPassDone_keeps hl ?_
        exact hs
      · exact hs
    · refine Keeps.ite ?_ ?_
      · refine medPassDone_keeps (Parts.le_trans rfl hl) ?_
        exact hs
      · exact hs
    · refine Keeps.ite ?_ ?_
      · refine State.bump_keeps (Parts.le_trans rfl hl) ?_
        exact hs
      · exact hs
    · exact hs
  · exact hs

theorem execLoopbackPassDone_keeps {off : ℕ} {checked : ℕ} {errors : ℕ} {found : List TestFail}
    (hl : Parts.le [.mcs, .regs, .store, .free, .hub, .out, .trcTok, .mem, .acct, .bad, .trcSeq, .trcDrop, .ports,
      .fab, .frings, .cores, .dies, .fns, .reports, .boot, .recovery, .meas] ps = true) {s : State}
    (hs : Keeps ps s0 s) {s' : State} (e : execLoopbackPassDone off checked errors s found = .next s') : Keeps ps s0
    s' := by
  unfold execLoopbackPassDone at e
  refine Keeps.next ?_ e
  refine Keeps.ite ?_ ?_
  · refine Keeps.foldl ?_ (fun t3 a1 ht2 => ?_)
    · refine loopbackPassDone_keeps (Parts.le_trans rfl hl) ?_
      exact hs
    · refine loopFault_keeps hl ?_
      exact ht2
  · refine loopbackPassDone_keeps (Parts.le_trans rfl hl) ?_
    exact hs

end Sys2Proof.Machine
end

