-- ==== Sys2Proof/Laws/KeepsAccess.lean ====
section
/-! SUPPORT. What is kept (Laws/Keeps.lean) by
accesses from outside and the tick,
one lemma an operation: the parts of the state that it lists are all that the operation may change. -/

namespace Sys2Proof.Machine

set_option maxRecDepth 4096

variable {ps : List Part} {s0 : State}

/-! ### Access -/

theorem notReached_keeps {path : Path} (hl : Parts.le [.out] ps = true) {s : State} (hs : Keeps ps s0 s) : Keeps ps s0
    (notReached path s) := by
  unfold notReached
  refine Keeps.ite ?_ ?_
  · split
    · exact hs
    · refine State.emit_keeps _ hl ?_
      exact hs
    · refine State.emit_keeps _ hl ?_
      exact hs
  · exact hs

theorem State.unlatch_keeps {path : Path} {off : ℕ} (hl : Parts.le [.latches] ps = true) {s : State}
    (hs : Keeps ps s0 s) : Keeps ps s0 (State.unlatch s path off) := by
  unfold State.unlatch
  refine Keeps.upd [.latches] hl rfl rfl ?_
  exact hs

theorem afterRead_keeps {path : Path} {r : RegRef} {ev : ℕ} (hl : Parts.le [.regs] ps = true) {s : State}
    (hs : Keeps ps s0 s) : Keeps ps s0 (afterRead path r ev s) := by
  unfold afterRead
  refine Keeps.ite ?_ ?_
  · refine State.setReg_keeps hl ?_
    exact hs
  · exact hs

theorem readWord_keeps {path : Path} {off : ℕ} {ev : ℕ} (hl : Parts.le [.latches, .free, .regs, .busyNs] ps = true)
    {s : State} (hs : Keeps ps s0 s) : Keeps ps s0 (readWord path off ev s).2 := by
  unfold readWord
  split
  · exact hs
  · extract_lets +onlyGivenNames x1
    clear_value x1
    split
    · split
      · dsimp -zeta only
        refine State.unlatch_keeps (Parts.le_trans rfl hl) ?_
        exact hs
      · split
        rename_i y2 y3 y4 y5
        have hy4 : Keeps ps s0 y4 := by
          refine Keeps.ofEqR y5 ?_
          refine State.view_keeps (Parts.le_trans rfl hl) ?_
          exact hs
        exact hy4
    · split
      rename_i y6 y7 y8 y9
      have hy8 : Keeps ps s0 y8 := by
        refine Keeps.ofEqR y9 ?_
        refine State.view_keeps (Parts.le_trans rfl hl) ?_
        exact hs
      extract_lets +onlyGivenNames x10
      have hx10 : Keeps ps s0 x10 := by
        subst x10
        refine afterRead_keeps (Parts.le_trans rfl hl) ?_
        exact hy8
      clear_value x10
      extract_lets +onlyGivenNames x11
      have hx11 : Keeps ps s0 x11 := by
        subst x11
        refine State.unlatch_keeps (Parts.le_trans rfl hl) ?_
        exact hx10
      clear_value x11
      extract_lets +onlyGivenNames x12
      have hx12 : Keeps ps s0 x12 := by
        subst x12
        refine Keeps.ite ?_ ?_
        · refine Keeps.upd [.latches] (Parts.le_trans rfl hl) rfl rfl ?_
          exact hx11
        · exact hx10
      clear_value x12
      exact hx12

theorem readWide_keeps {path : Path} {off : ℕ} (hl : Parts.le [.free, .regs, .busyNs, .latches] ps = true) {s : State}
    (hs : Keeps ps s0 s) : Keeps ps s0 (readWide path off s).2 := by
  unfold readWide
  split
  · split
    · refine State.view_keeps (Parts.le_trans rfl hl) ?_
      exact hs
    · split
      rename_i y1 y2 y3 y4
      have hy3 : Keeps ps s0 y3 := by
        refine Keeps.ofEqR y4 ?_
        refine readWord_keeps (Parts.le_trans rfl hl) ?_
        exact hs
      split
      rename_i y5 y6 y7 y8
      have hy7 : Keeps ps s0 y7 := by
        refine Keeps.ofEqR y8 ?_
        refine readWord_keeps (Parts.le_trans rfl hl) ?_
        exact hy3
      exact hy7
  · split
    rename_i y9 y10 y11 y12
    have hy11 : Keeps ps s0 y11 := by
      refine Keeps.ofEqR y12 ?_
      refine readWord_keeps (Parts.le_trans rfl hl) ?_
      exact hs
    exact hy11

theorem readAt_keeps {path : Path} {off : ℕ} {size : ℕ} {ev : ℕ}
    (hl : Parts.le [.out, .latches, .free, .regs, .busyNs] ps = true) {s : State} (hs : Keeps ps s0 s) : Keeps ps s0
    (readAt path off size ev s) := by
  unfold readAt
  refine Keeps.ite ?_ ?_
  · refine notReached_keeps (Parts.le_trans rfl hl) ?_
    exact hs
  · refine Keeps.ite ?_ ?_
    · refine State.emit_keeps _ (Parts.le_trans rfl hl) ?_
      exact hs
    · refine Keeps.ite ?_ ?_
      · refine State.emit_keeps _ (Parts.le_trans rfl hl) ?_
        exact hs
      · refine Keeps.ite ?_ ?_
        · refine State.emit_keeps _ (Parts.le_trans rfl hl) ?_
          exact hs
        · refine Keeps.ite ?_ ?_
          · split
            rename_i y1 y2 y3 y4
            have hy3 : Keeps ps s0 y3 := by
              refine Keeps.ofEqR y4 ?_
              refine readWord_keeps (Parts.le_trans rfl hl) ?_
              exact hs
            refine State.emit_keeps _ (Parts.le_trans rfl hl) ?_
            exact hy3
          · split
            rename_i y5 y6 y7 y8
            have hy7 : Keeps ps s0 y7 := by
              refine Keeps.ofEqR y8 ?_
              refine readWide_keeps (Parts.le_trans rfl hl) ?_
              exact hs
            refine State.emit_keeps _ (Parts.le_trans rfl hl) ?_
            exact hy7

theorem saveSticky_keeps (hl : Parts.le [.store] ps = true) {s : State} (hs : Keeps ps s0 s) : Keeps ps s0
    (saveSticky s) := by
  unfold saveSticky
  refine Keeps.upd [.store] hl rfl rfl ?_
  exact hs

theorem storeReg_keeps {r : RegRef} {v : W64} (hl : Parts.le [.regs, .store] ps = true) {s : State}
    (hs : Keeps ps s0 s) : Keeps ps s0 (storeReg r v s) := by
  unfold storeReg
  refine Keeps.ite ?_ ?_
  · extract_lets +onlyGivenNames x1
    clear_value x1
    extract_lets +onlyGivenNames x2
    have hx2 : Keeps ps s0 x2 := by
      subst x2
      refine State.setReg_keeps (Parts.le_trans rfl hl) ?_
      exact hs
    clear_value x2
    refine Keeps.ite ?_ ?_
    · refine saveSticky_keeps (Parts.le_trans rfl hl) ?_
      exact hx2
    · exact hx2
  · exact hs

theorem w1cWrite_keeps {r : RegRef} {v : ℕ} {set : ℕ} (hl : Parts.le [.regs, .hub, .out] ps = true) {s : State}
    (hs : Keeps ps s0 s) : Keeps ps s0 (w1cWrite r v set s) := by
  unfold w1cWrite
  extract_lets +onlyGivenNames x1
  clear_value x1
  extract_lets +onlyGivenNames x2
  have hx2 : Keeps ps s0 x2 := by
    subst x2
    refine State.modReg_keeps (Parts.le_trans rfl hl) ?_
    exact hs
  clear_value x2
  refine Keeps.ite ?_ ?_
  · refine Keeps.foldl ?_ (fun t5 a3 ht4 => ?_)
    · exact hx2
    · refine State.fabEvent_keeps (Parts.le_trans rfl hl) ?_
      exact ht4
  · refine State.modReg_keeps (Parts.le_trans rfl hl) ?_
    exact hx2

theorem fnWrite_keeps {f : FuncId} {v : W64}
    (hl : Parts.le [.regs, .ctxs, .dies, .fns, .rings, .fab, .out, .acct, .hub, .frings] ps = true) {s : State}
    (hs : Keeps ps s0 s) : Keeps ps s0 (fnWrite f v s) := by
  unfold fnWrite
  refine Keeps.ite ?_ ?_
  · refine functionEnable_keeps (Parts.le_trans rfl hl) ?_
    exact hs
  · split
    · refine portDisable_keeps (Parts.le_trans rfl hl) ?_
      exact hs
    · refine functionDisable_keeps (Parts.le_trans rfl hl) ?_
      exact hs

theorem secReset_keeps {path : Path} {v : W64} (hl : Parts.le Parts.any ps = true) {s : State} (hs : Keeps ps s0 s) :
    Keeps ps s0 (secReset path v s) := by
  unfold secReset
  refine Keeps.ite ?_ ?_
  · refine Keeps.ite ?_ ?_
    · refine warmReset_keeps hl ?_
      exact hs
    · refine Keeps.ite ?_ ?_
      · refine coldReset_keeps hl ?_
        exact hs
      · exact hs
  · exact hs

theorem secCtl_keeps {v : W64} (hl : Parts.le Parts.any ps = true) {s : State} (hs : Keeps ps s0 s) : Keeps ps s0
    (secCtl v s) := by
  unfold secCtl
  extract_lets +onlyGivenNames x1
  have hx1 : Keeps ps s0 x1 := by
    subst x1
    refine Keeps.ite ?_ ?_
    · refine secRecover_keeps hl ?_
      exact hs
    · exact hs
  clear_value x1
  refine Keeps.ite ?_ ?_
  · refine secCommitSvn_keeps (Parts.le_trans rfl hl) ?_
    exact hx1
  · exact hx1

theorem avlCtl_keeps {v : W64}
    (hl : Parts.le [.hub, .store, .fw, .regs, .dies, .out, .free, .boot, .reports, .recovery] ps = true) {s : State}
    (hs : Keeps ps s0 s) : Keeps ps s0 (avlCtl v s) := by
  unfold avlCtl
  extract_lets +onlyGivenNames x1
  have hx1 : Keeps ps s0 x1 := by
    subst x1
    refine Keeps.ite ?_ ?_
    · refine hubSwap_keeps (Parts.le_trans rfl hl) ?_
      exact hs
    · exact hs
  clear_value x1
  extract_lets +onlyGivenNames x2
  have hx2 : Keeps ps s0 x2 := by
    subst x2
    refine Keeps.ite ?_ ?_
    · refine fwStage_keeps (Parts.le_trans rfl hl) ?_
      exact hx1
    · exact hx1
  clear_value x2
  extract_lets +onlyGivenNames x3
  have hx3 : Keeps ps s0 x3 := by
    subst x3
    refine Keeps.ite ?_ ?_
    · refine fwActivate_keeps (Parts.le_trans rfl hl) ?_
      exact hx2
    · exact hx2
  clear_value x3
  extract_lets +onlyGivenNames x4
  have hx4 : Keeps ps s0 x4 := by
    subst x4
    refine Keeps.ite ?_ ?_
    · refine fwAbort_keeps (Parts.le_trans rfl hl) ?_
      exact hx3
    · exact hx3
  clear_value x4
  refine Keeps.ite ?_ ?_
  · refine fwSelectNext_keeps (Parts.le_trans rfl hl) ?_
    exact hx4
  · exact hx4

theorem traceCtl_keeps {v : W64} (hl : Parts.le [.trcTok, .regs, .trcSeq, .trcDrop] ps = true) {s : State}
    (hs : Keeps ps s0 s) : Keeps ps s0 (traceCtl v s) := by
  unfold traceCtl
  extract_lets +onlyGivenNames x1
  clear_value x1
  extract_lets +onlyGivenNames x2
  clear_value x2
  extract_lets +onlyGivenNames x3
  clear_value x3
  extract_lets +onlyGivenNames x4
  have hx4 : Keeps ps s0 x4 := by
    subst x4
    refine Keeps.ite ?_ ?_
    · exact hs
    · refine State.settleTokens_keeps (Parts.le_trans rfl hl) ?_
      exact hs
  clear_value x4
  refine Keeps.ite ?_ ?_
  · refine State.setReg_keeps (Parts.le_trans rfl hl) ?_
    exact hx4
  · refine Keeps.ite ?_ ?_
    · refine State.setReg_keeps (Parts.le_trans rfl hl) ?_
      exact hx4
    · refine Keeps.ite ?_ ?_
      · refine State.setReg_keeps (Parts.le_trans rfl hl) ?_
        exact hx4
      · refine State.setReg_keeps (Parts.le_trans rfl hl) ?_
        refine State.setReg_keeps (Parts.le_trans rfl hl) ?_
        refine Keeps.upd [.trcSeq, .trcDrop] (Parts.le_trans rfl hl) rfl rfl ?_
        exact hx4

theorem traceDev_keeps {r : RegRef} {v : W64} (hl : Parts.le [.regs, .store, .meas] ps = true) {s : State}
    (hs : Keeps ps s0 s) : Keeps ps s0 (traceDev r v s) := by
  unfold traceDev
  extract_lets +onlyGivenNames x1
  have hx1 : Keeps ps s0 x1 := by
    subst x1
    refine storeReg_keeps (Parts.le_trans rfl hl) ?_
    exact hs
  clear_value x1
  refine Keeps.ite ?_ ?_
  · exact hx1
  · refine State.extendSecurity_keeps (Parts.le_trans rfl hl) ?_
    exact hx1

theorem fabTimeCtl_keeps {r : RegRef} {v : W64} (hl : Parts.le [.fab, .hub, .regs, .out, .store, .acct] ps = true)
    {s : State} (hs : Keeps ps s0 s) : Keeps ps s0 (fabTimeCtl r v s) := by
  unfold fabTimeCtl
  extract_lets +onlyGivenNames x1
  clear_value x1
  extract_lets +onlyGivenNames x2
  have hx2 : Keeps ps s0 x2 := by
    subst x2
    refine viewStep_keeps (Parts.le_trans rfl hl) ?_ ?_
    · intro t3 ht4
      refine storeReg_keeps (Parts.le_trans rfl hl) ?_
      exact ht4
    · exact hs
  clear_value x2
  refine Keeps.ite ?_ ?_
  · exact hx2
  · refine State.announce_keeps (Parts.le_trans rfl hl) ?_
    exact hx2

theorem msixUnmask_keeps {v : ℕ} (hl : Parts.le [.out, .regs] ps = true) {s : State} (hs : Keeps ps s0 s) : Keeps ps
    s0 (msixUnmask v s) := by
  unfold msixUnmask
  refine Keeps.ite ?_ ?_
  · refine State.emit_keeps _ (Parts.le_trans rfl hl) ?_
    refine State.setRegFld_keeps (Parts.le_trans rfl hl) ?_
    exact hs
  · exact hs

theorem writeReg_keeps {path : Path} {r : RegRef} {v : W64} (hl : Parts.le Parts.any ps = true) {s : State}
    (hs : Keeps ps s0 s) : Keeps ps s0 (writeReg path r v s) := by
  unfold writeReg
  split
  · refine fnWrite_keeps (Parts.le_trans rfl hl) ?_
    exact hs
  · split
    · refine bar4CtlWrite_keeps (Parts.le_trans rfl hl) ?_
      exact hs
    · refine hifLoopSelect_keeps (Parts.le_trans rfl hl) ?_
      exact hs
    · refine w1cWrite_keeps (Parts.le_trans rfl hl) ?_
      exact hs
    · refine msixUnmask_keeps (Parts.le_trans rfl hl) ?_
      refine storeReg_keeps (Parts.le_trans rfl hl) ?_
      exact hs
    · refine secReset_keeps (Parts.le_trans rfl hl) ?_
      exact hs
    · refine secCtl_keeps (Parts.le_trans rfl hl) ?_
      exact hs
    · refine avlCtl_keeps (Parts.le_trans rfl hl) ?_
      exact hs
    · refine traceCtl_keeps (Parts.le_trans rfl hl) ?_
      exact hs
    · refine traceDev_keeps (Parts.le_trans rfl hl) ?_
      exact hs
    · refine Keeps.ite ?_ ?_
      · refine sizesSet_keeps (Parts.le_trans rfl hl) ?_
        refine storeReg_keeps (Parts.le_trans rfl hl) ?_
        exact hs
      · exact hs
    · refine fabAdmitWrite_keeps (Parts.le_trans rfl hl) ?_
      exact hs
    · refine w1cWrite_keeps (Parts.le_trans rfl hl) ?_
      exact hs
    · refine fabTimeCtl_keeps (Parts.le_trans rfl hl) ?_
      exact hs
    · refine Keeps.ite ?_ ?_
      · refine regionCommit_keeps (Parts.le_trans rfl hl) ?_
        exact hs
      · exact hs
    · split
      rename_i y1 y2 y3 y4
      have hy3 : Keeps ps s0 y3 := by
        refine Keeps.ofEqR y4 ?_
        refine State.freeBits_keeps (Parts.le_trans rfl hl) ?_
        exact hs
      refine lndLoopSelect_keeps (Parts.le_trans rfl hl) ?_
      exact hy3
    · refine mcLoopSelect_keeps (Parts.le_trans rfl hl) ?_
      exact hs
    · refine medLoopSelect_keeps (Parts.le_trans rfl hl) ?_
      exact hs
    · refine Keeps.ite ?_ ?_
      · refine storeReg_keeps (Parts.le_trans rfl hl) ?_
        exact hs
      · exact hs

theorem writeWord_keeps {path : Path} {off : ℕ} {v : W32} (hl : Parts.le Parts.any ps = true) {s : State}
    (hs : Keeps ps s0 s) : Keeps ps s0 (writeWord path off v s) := by
  unfold writeWord
  split
  · exact hs
  · extract_lets +onlyGivenNames x1
    clear_value x1
    extract_lets +onlyGivenNames x2
    clear_value x2
    refine writeReg_keeps hl ?_
    exact hs

theorem writeWide_keeps {path : Path} {off : ℕ} {v : W64} (hl : Parts.le Parts.any ps = true) {s : State}
    (hs : Keeps ps s0 s) : Keeps ps s0 (writeWide path off v s) := by
  unfold writeWide
  split
  · refine Keeps.ite ?_ ?_
    · refine writeReg_keeps hl ?_
      exact hs
    · refine writeWord_keeps hl ?_
      refine writeWord_keeps hl ?_
      exact hs
  · refine writeWord_keeps hl ?_
    exact hs

theorem writeEarly_keeps {off : ℕ} {v : W64} (hl : Parts.le [.regs, .ctxs, .dies, .fns] ps = true) {s : State}
    (hs : Keeps ps s0 s) : Keeps ps s0 (writeEarly off v s) := by
  unfold writeEarly
  split
  · refine Keeps.ite ?_ ?_
    · refine contextEnable_keeps hl ?_
      exact hs
    · exact hs
  · exact hs

theorem writeAt_keeps {path : Path} {off : ℕ} {size : ℕ} {v : W64} (hl : Parts.le Parts.any ps = true) {s : State}
    (hs : Keeps ps s0 s) : Keeps ps s0 (writeAt path off size v s) := by
  unfold writeAt
  refine Keeps.ite ?_ ?_
  · refine notReached_keeps (Parts.le_trans rfl hl) ?_
    exact hs
  · refine Keeps.ite ?_ ?_
    · refine State.emit_keeps _ (Parts.le_trans rfl hl) ?_
      exact hs
    · refine Keeps.ite ?_ ?_
      · exact hs
      · refine Keeps.ite ?_ ?_
        · refine writeEarly_keeps (Parts.le_trans rfl hl) ?_
          exact hs
        · refine Keeps.ite ?_ ?_
          · refine writeWord_keeps (Parts.le_trans rfl hl) ?_
            exact hs
          · refine writeWide_keeps (Parts.le_trans rfl hl) ?_
            exact hs

theorem msixSendPending_keeps (hl : Parts.le [.out, .regs] ps = true) {s : State} (hs : Keeps ps s0 s) : Keeps ps s0
    (msixSendPending s) := by
  unfold msixSendPending
  refine Keeps.foldl ?_ (fun t3 a1 ht2 => ?_)
  · exact hs
  · refine msixUnmask_keeps hl ?_
    exact ht2

theorem cfgWrite_keeps {off : ℕ} {size : ℕ} {v : ℕ} (hl : Parts.le [.hub, .out, .regs] ps = true) {s : State}
    (hs : Keeps ps s0 s) : Keeps ps s0 (cfgWrite off size v s) := by
  unfold cfgWrite
  extract_lets +onlyGivenNames x1
  clear_value x1
  extract_lets +onlyGivenNames x2
  clear_value x2
  extract_lets +onlyGivenNames x3
  clear_value x3
  extract_lets +onlyGivenNames x4
  clear_value x4
  extract_lets +onlyGivenNames x5
  have hx5 : Keeps ps s0 x5 := by
    subst x5
    refine Keeps.upd [.hub] (Parts.le_trans rfl hl) rfl rfl ?_
    exact hs
  clear_value x5
  refine Keeps.ite ?_ ?_
  · refine msixSendPending_keeps (Parts.le_trans rfl hl) ?_
    exact hx5
  · exact hx5

theorem configRequest_keeps {off : ℕ} {size : ℕ} {write : Option ℕ} (hl : Parts.le [.out, .hub, .regs] ps = true)
    {s : State} (hs : Keeps ps s0 s) : Keeps ps s0 (configRequest off size write s) := by
  unfold configRequest
  refine Keeps.ite ?_ ?_
  · exact hs
  · refine Keeps.ite ?_ ?_
    · refine State.emit_keeps _ (Parts.le_trans rfl hl) ?_
      exact hs
    · split
      · refine State.emit_keeps _ (Parts.le_trans rfl hl) ?_
        exact hs
      · refine cfgWrite_keeps (Parts.le_trans rfl hl) ?_
        exact hs

theorem access_keeps {c : Instr} (hl : Parts.le Parts.any ps = true) {s : State} (hs : Keeps ps s0 s) : Keeps ps s0
    (access c s) := by
  unfold access
  split
  · refine readAt_keeps (Parts.le_trans rfl hl) ?_
    exact hs
  · refine readAt_keeps (Parts.le_trans rfl hl) ?_
    exact hs
  · split
    · refine readAt_keeps (Parts.le_trans rfl hl) ?_
      exact hs
    · refine writeAt_keeps (Parts.le_trans rfl hl) ?_
      exact hs
  · refine writeAt_keeps (Parts.le_trans rfl hl) ?_
    exact hs
  · refine readAt_keeps (Parts.le_trans rfl hl) ?_
    exact hs
  · split
    · refine Keeps.ite ?_ ?_
      · refine w1cWrite_keeps (Parts.le_trans rfl hl) ?_
        exact hs
      · refine writeAt_keeps (Parts.le_trans rfl hl) ?_
        exact hs
    · exact hs
  · refine writeAt_keeps (Parts.le_trans rfl hl) ?_
    exact hs
  · refine writeAt_keeps (Parts.le_trans rfl hl) ?_
    exact hs
  · refine writeAt_keeps (Parts.le_trans rfl hl) ?_
    exact hs
  · refine writeAt_keeps (Parts.le_trans rfl hl) ?_
    exact hs
  · refine writeAt_keeps (Parts.le_trans rfl hl) ?_
    exact hs
  · refine writeAt_keeps (Parts.le_trans rfl hl) ?_
    exact hs
  · refine Keeps.ite ?_ ?_
    · refine barResize_keeps (Parts.le_trans rfl hl) ?_
      exact hs
    · exact hs
  · refine Keeps.ite ?_ ?_
    · refine bar4Read_keeps (Parts.le_trans rfl hl) ?_
      exact hs
    · exact hs
  · refine Keeps.ite ?_ ?_
    · refine bar4Write_keeps (Parts.le_trans rfl hl) ?_
      exact hs
    · exact hs
  · refine configRequest_keeps (Parts.le_trans rfl hl) ?_
    exact hs
  · refine Keeps.ite ?_ ?_
    · refine ringDoorbellAt_keeps (Parts.le_trans rfl hl) ?_
      exact hs
    · exact hs
  · refine Keeps.ite ?_ ?_
    · refine eventDoorbellAt_keeps (Parts.le_trans rfl hl) ?_
      exact hs
    · exact hs
  · refine Keeps.ite ?_ ?_
    · refine Keeps.upd [.hub] (Parts.le_trans rfl hl) rfl rfl ?_
      exact hs
    · exact hs
  · refine Keeps.ite ?_ ?_
    · refine Keeps.upd [.hub] (Parts.le_trans rfl hl) rfl rfl ?_
      exact hs
    · exact hs
  · refine writeAt_keeps (Parts.le_trans rfl hl) ?_
    exact hs
  · refine writeAt_keeps (Parts.le_trans rfl hl) ?_
    exact hs
  · refine Keeps.ite ?_ ?_
    · refine warmReset_keeps (Parts.le_trans rfl hl) ?_
      exact hs
    · refine notReached_keeps (Parts.le_trans rfl hl) ?_
      exact hs
  · refine Keeps.ite ?_ ?_
    · refine coldReset_keeps (Parts.le_trans rfl hl) ?_
      exact hs
    · refine notReached_keeps (Parts.le_trans rfl hl) ?_
      exact hs
  · refine writeAt_keeps (Parts.le_trans rfl hl) ?_
    exact hs
  · refine writeAt_keeps (Parts.le_trans rfl hl) ?_
    exact hs
  · refine getVersion_keeps (Parts.le_trans rfl hl) ?_
    exact hs
  · refine getCapabilities_keeps (Parts.le_trans rfl hl) ?_
    exact hs
  · refine negotiateAlgorithms_keeps (Parts.le_trans rfl hl) ?_
    exact hs
  · refine getDigests_keeps (Parts.le_trans rfl hl) ?_
    exact hs
  · refine getCertificate_keeps (Parts.le_trans rfl hl) ?_
    exact hs
  · refine challenge_keeps (Parts.le_trans rfl hl) ?_
    exact hs
  · refine getMeasurements_keeps (Parts.le_trans rfl hl) ?_
    exact hs
  · refine keyExchange_keeps (Parts.le_trans rfl hl) ?_
    exact hs
  · refine finish_keeps (Parts.le_trans rfl hl) ?_
    exact hs
  · refine endSession_keeps (Parts.le_trans rfl hl) ?_
    exact hs
  · refine heartbeat_keeps (Parts.le_trans rfl hl) ?_
    exact hs
  · refine keyUpdate_keeps (Parts.le_trans rfl hl) ?_
    exact hs
  · refine chunkSend_keeps (Parts.le_trans rfl hl) ?_
    exact hs
  · refine chunkGet_keeps (Parts.le_trans rfl hl) ?_
    exact hs
  · refine respondIfReady_keeps (Parts.le_trans rfl hl) ?_
    exact hs
  · refine spdmUnsupported_keeps (Parts.le_trans rfl hl) ?_
    exact hs
  · refine spdmUnsupported_keeps (Parts.le_trans rfl hl) ?_
    exact hs
  · refine spdmUnsupported_keeps (Parts.le_trans rfl hl) ?_
    exact hs
  · refine spdmUnsupported_keeps (Parts.le_trans rfl hl) ?_
    exact hs
  · refine writeAt_keeps (Parts.le_trans rfl hl) ?_
    exact hs
  · refine writeAt_keeps (Parts.le_trans rfl hl) ?_
    exact hs
  · refine Keeps.ite ?_ ?_
    · refine lndLoopSelect_keeps (Parts.le_trans rfl hl) ?_
      exact hs
    · refine writeAt_keeps (Parts.le_trans rfl hl) ?_
      exact hs
  · refine writeAt_keeps (Parts.le_trans rfl hl) ?_
    exact hs
  · refine writeAt_keeps (Parts.le_trans rfl hl) ?_
    exact hs
  · refine writeAt_keeps (Parts.le_trans rfl hl) ?_
    exact hs
  · refine writeAt_keeps (Parts.le_trans rfl hl) ?_
    exact hs
  · refine writeAt_keeps (Parts.le_trans rfl hl) ?_
    exact hs
  · refine writeAt_keeps (Parts.le_trans rfl hl) ?_
    exact hs
  · refine writeAt_keeps (Parts.le_trans rfl hl) ?_
    exact hs
  · refine writeAt_keeps (Parts.le_trans rfl hl) ?_
    exact hs
  · refine writeAt_keeps (Parts.le_trans rfl hl) ?_
    exact hs
  · refine writeAt_keeps (Parts.le_trans rfl hl) ?_
    exact hs
  · split
    · refine Keeps.ite ?_ ?_
      · refine writeAt_keeps (Parts.le_trans rfl hl) ?_
        exact hs
      · exact hs
    · exact hs
  · refine mctpControl_keeps (Parts.le_trans rfl hl) ?_
    exact hs
  · refine receive_keeps (Parts.le_trans rfl hl) ?_ ?_
    · intro a1 t2 ht3
      refine armNote_keeps (Parts.le_trans rfl hl) ?_
      exact ht3
    · exact hs
  · refine receive_keeps (Parts.le_trans rfl hl) ?_ ?_
    · intro a4 t5 ht6
      refine contribNote_keeps (Parts.le_trans rfl hl) ?_
      exact ht6
    · exact hs
  · refine receive_keeps (Parts.le_trans rfl hl) ?_ ?_
    · intro a7 t8 ht9
      refine endNote_keeps (Parts.le_trans rfl hl) ?_
      exact ht9
    · exact hs
  · refine receive_keeps (Parts.le_trans rfl hl) ?_ ?_
    · intro a10 t11 ht12
      refine shardNote_keeps (Parts.le_trans rfl hl) ?_
      exact ht12
    · exact hs
  · refine receive_keeps (Parts.le_trans rfl hl) ?_ ?_
    · intro a13 t14 ht15
      refine hopIn_keeps (Parts.le_trans rfl hl) ?_
      exact ht15
    · exact hs
  · refine receive_keeps (Parts.le_trans rfl hl) ?_ ?_
    · intro a16 t17 ht18
      refine routeReceive_keeps (Parts.le_trans rfl hl) ?_
      exact ht18
    · exact hs
  · refine admitReceiveEv_keeps (Parts.le_trans rfl hl) ?_
    exact hs
  · refine admitAcceptEv_keeps (Parts.le_trans rfl hl) ?_
    exact hs
  · refine admitWithdrawEv_keeps (Parts.le_trans rfl hl) ?_
    exact hs
  · refine admitTimeoutEv_keeps (Parts.le_trans rfl hl) ?_
    exact hs
  · refine echoReceiveEv_keeps (Parts.le_trans rfl hl) ?_
    exact hs
  · refine switchOpenEv_keeps (Parts.le_trans rfl hl) ?_
    exact hs
  · refine segmentTrainedEv_keeps (Parts.le_trans rfl hl) ?_
    exact hs
  · refine trainingTimeoutEv_keeps (Parts.le_trans rfl hl) ?_
    exact hs
  · refine switchClosedEv_keeps (Parts.le_trans rfl hl) ?_
    exact hs
  · refine segmentDownEv_keeps (Parts.le_trans rfl hl) ?_
    exact hs
  · refine segmentUpEv_keeps (Parts.le_trans rfl hl) ?_
    exact hs
  · refine neighbourLossEv_keeps (Parts.le_trans rfl hl) ?_
    exact hs
  · refine galleryBankSwitchEv_keeps (Parts.le_trans rfl hl) ?_
    exact hs
  · refine coreRetireDoneEv_keeps (Parts.le_trans rfl hl) ?_
    exact hs
  · refine phaseFailEv_keeps (Parts.le_trans rfl hl) ?_
    exact hs
  · exact hs

theorem reach_keeps {c : Instr} (hl : Parts.le Parts.any ps = true) {s : State} (hs : Keeps ps s0 s) : Keeps ps s0
    (reach c s) := by
  unfold reach
  refine Keeps.ite ?_ ?_
  · refine Keeps.upd [.held] (Parts.le_trans rfl hl) rfl rfl ?_
    exact hs
  · refine access_keeps (Parts.le_trans rfl hl) ?_
    exact hs

theorem replayHeld_keeps (hl : Parts.le Parts.any ps = true) {s : State} (hs : Keeps ps s0 s) : Keeps ps s0
    (replayHeld s) := by
  unfold replayHeld
  refine Keeps.foldl ?_ (fun t3 a1 ht2 => ?_)
  · refine Keeps.upd [.held] (Parts.le_trans rfl hl) rfl rfl ?_
    exact hs
  · refine reach_keeps hl ?_
    exact ht2

theorem execHubTakeoverDone_keeps (hl : Parts.le Parts.any ps = true) {s : State} (hs : Keeps ps s0 s) {s' : State}
    (e : execHubTakeoverDone s = .next s') : Keeps ps s0 s' := by
  unfold execHubTakeoverDone at e
  refine Keeps.next ?_ e
  refine Keeps.ite ?_ ?_
  · refine replayHeld_keeps hl ?_
    refine mediaRetry_keeps (Parts.le_trans rfl hl) ?_
    refine dmaRetry_keeps (Parts.le_trans rfl hl) ?_
    refine hubTakeoverDone_keeps (Parts.le_trans rfl hl) ?_
    exact hs
  · exact hs

theorem execThermalReport_keeps {d : Die} {temps : List (Island × ℤ)} {hbmTemps : List (Mc × ℤ)}
    (hl : Parts.le Parts.any ps = true) {s : State} (hs : Keeps ps s0 s) {s' : State}
    (e : execThermalReport d temps hbmTemps s = .next s') : Keeps ps s0 s' := by
  unfold execThermalReport at e
  refine Keeps.next ?_ e
  refine replayHeld_keeps hl ?_
  refine thermalReport_keeps (Parts.le_trans rfl hl) ?_
  exact hs

theorem execLowWordRead_keeps {path : Path} {off : ℕ} (hl : Parts.le Parts.any ps = true) {s : State}
    (hs : Keeps ps s0 s) {s' : State} (e : execLowWordRead path off s = .next s') : Keeps ps s0 s' := by
  unfold execLowWordRead at e
  refine Keeps.next ?_ e
  refine reach_keeps hl ?_
  exact hs

theorem execHighWordRead_keeps {path : Path} {off : ℕ} (hl : Parts.le Parts.any ps = true) {s : State}
    (hs : Keeps ps s0 s) {s' : State} (e : execHighWordRead path off s = .next s') : Keeps ps s0 s' := by
  unfold execHighWordRead at e
  refine Keeps.next ?_ e
  refine reach_keeps hl ?_
  exact hs

theorem execMisalignedAccess_keeps {path : Path} {off : ℕ} {size : ℕ} {write : Option ℕ}
    (hl : Parts.le Parts.any ps = true) {s : State} (hs : Keeps ps s0 s) {s' : State}
    (e : execMisalignedAccess path off size write s = .next s') : Keeps ps s0 s' := by
  unfold execMisalignedAccess at e
  refine Keeps.next ?_ e
  refine reach_keeps hl ?_
  exact hs

theorem execRegisterWrite_keeps {path : Path} {off : ℕ} {wide : Bool} {val : W64} (hl : Parts.le Parts.any ps = true)
    {s : State} (hs : Keeps ps s0 s) {s' : State} (e : execRegisterWrite path off wide val s = .next s') : Keeps ps s0
    s' := by
  unfold execRegisterWrite at e
  refine Keeps.next ?_ e
  refine reach_keeps hl ?_
  exact hs

theorem execRcRegisterRead_keeps {path : Path} {off : ℕ} {event : ℕ} (hl : Parts.le Parts.any ps = true) {s : State}
    (hs : Keeps ps s0 s) {s' : State} (e : execRcRegisterRead path off event s = .next s') : Keeps ps s0 s' := by
  unfold execRcRegisterRead at e
  refine Keeps.next ?_ e
  refine reach_keeps hl ?_
  exact hs

theorem execW1cWrite_keeps {path : Path} {off : ℕ} {val : W32} {set : W32} (hl : Parts.le Parts.any ps = true)
    {s : State} (hs : Keeps ps s0 s) {s' : State} (e : execW1cWrite path off val set s = .next s') : Keeps ps s0 s' :=
    by
  unfold execW1cWrite at e
  refine Keeps.next ?_ e
  refine reach_keeps hl ?_
  exact hs

theorem execFunctionEnable_keeps {path : Path} {f : FuncId} (hl : Parts.le Parts.any ps = true) {s : State}
    (hs : Keeps ps s0 s) {s' : State} (e : execFunctionEnable path f s = .next s') : Keeps ps s0 s' := by
  unfold execFunctionEnable at e
  refine Keeps.next ?_ e
  refine reach_keeps hl ?_
  exact hs

theorem execFunctionDisable_keeps {path : Path} {f : FuncId} (hl : Parts.le Parts.any ps = true) {s : State}
    (hs : Keeps ps s0 s) {s' : State} (e : execFunctionDisable path f s = .next s') : Keeps ps s0 s' := by
  unfold execFunctionDisable at e
  refine Keeps.next ?_ e
  refine reach_keeps hl ?_
  exact hs

theorem execRegionCommit_keeps {path : Path} (hl : Parts.le Parts.any ps = true) {s : State} (hs : Keeps ps s0 s)
    {s' : State} (e : execRegionCommit path s = .next s') : Keeps ps s0 s' := by
  unfold execRegionCommit at e
  refine Keeps.next ?_ e
  refine reach_keeps hl ?_
  exact hs

theorem execCoreDisable_keeps {path : Path} {d : Die} {p : PCore} (hl : Parts.le Parts.any ps = true) {s : State}
    (hs : Keeps ps s0 s) {s' : State} (e : execCoreDisable path d p s = .next s') : Keeps ps s0 s' := by
  unfold execCoreDisable at e
  refine Keeps.next ?_ e
  refine reach_keeps hl ?_
  exact hs

theorem execContextEnable_keeps {path : Path} {n : CtxId} (hl : Parts.le Parts.any ps = true) {s : State}
    (hs : Keeps ps s0 s) {s' : State} (e : execContextEnable path n s = .next s') : Keeps ps s0 s' := by
  unfold execContextEnable at e
  refine Keeps.next ?_ e
  refine reach_keeps hl ?_
  exact hs

theorem execBar4CtlWrite_keeps {path : Path} {val : W64} (hl : Parts.le Parts.any ps = true) {s : State}
    (hs : Keeps ps s0 s) {s' : State} (e : execBar4CtlWrite path val s = .next s') : Keeps ps s0 s' := by
  unfold execBar4CtlWrite at e
  refine Keeps.next ?_ e
  refine reach_keeps hl ?_
  exact hs

theorem execBarResize_keeps {log2 : ℕ} (hl : Parts.le Parts.any ps = true) {s : State} (hs : Keeps ps s0 s)
    {s' : State} (e : execBarResize log2 s = .next s') : Keeps ps s0 s' := by
  unfold execBarResize at e
  refine Keeps.next ?_ e
  refine reach_keeps hl ?_
  exact hs

theorem execBar4Read_keeps {off : ℕ} {len : ℕ} {ce : List ℕ} (hl : Parts.le Parts.any ps = true) {s : State}
    (hs : Keeps ps s0 s) {s' : State} (e : execBar4Read off len s ce = .next s') : Keeps ps s0 s' := by
  unfold execBar4Read at e
  refine Keeps.next ?_ e
  refine reach_keeps hl ?_
  exact hs

theorem execBar4Write_keeps {off : ℕ} {bytes : List Byte} (hl : Parts.le Parts.any ps = true) {s : State}
    (hs : Keeps ps s0 s) {s' : State} (e : execBar4Write off bytes s = .next s') : Keeps ps s0 s' := by
  unfold execBar4Write at e
  refine Keeps.next ?_ e
  refine reach_keeps hl ?_
  exact hs

theorem execConfigRequest_keeps {off : ℕ} {size : ℕ} {write : Option ℕ} (hl : Parts.le Parts.any ps = true)
    {s : State} (hs : Keeps ps s0 s) {s' : State} (e : execConfigRequest off size write s = .next s') : Keeps ps s0 s'
    := by
  unfold execConfigRequest at e
  refine Keeps.next ?_ e
  refine reach_keeps hl ?_
  exact hs

theorem execRingDoorbell_keeps {off : ℕ} {size : ℕ} {val : Option W32} (hl : Parts.le Parts.any ps = true) {s : State}
    (hs : Keeps ps s0 s) {s' : State} (e : execRingDoorbell off size val s = .next s') : Keeps ps s0 s' := by
  unfold execRingDoorbell at e
  refine Keeps.next ?_ e
  refine reach_keeps hl ?_
  exact hs

theorem execEventDoorbell_keeps {off : ℕ} {size : ℕ} {val : W32} (hl : Parts.le Parts.any ps = true) {s : State}
    (hs : Keeps ps s0 s) {s' : State} (e : execEventDoorbell off size val s = .next s') : Keeps ps s0 s' := by
  unfold execEventDoorbell at e
  refine Keeps.next ?_ e
  refine reach_keeps hl ?_
  exact hs

theorem execD3hotEntry_keeps (hl : Parts.le Parts.any ps = true) {s : State} (hs : Keeps ps s0 s) {s' : State}
    (e : execD3hotEntry s = .next s') : Keeps ps s0 s' := by
  unfold execD3hotEntry at e
  refine Keeps.next ?_ e
  refine reach_keeps hl ?_
  exact hs

theorem execD0Return_keeps (hl : Parts.le Parts.any ps = true) {s : State} (hs : Keeps ps s0 s) {s' : State}
    (e : execD0Return s = .next s') : Keeps ps s0 s' := by
  unfold execD0Return at e
  refine Keeps.next ?_ e
  refine reach_keeps hl ?_
  exact hs

theorem execSecResetWarm_keeps {path : Path} {key : W16} (hl : Parts.le Parts.any ps = true) {s : State}
    (hs : Keeps ps s0 s) {s' : State} (e : execSecResetWarm path key s = .next s') : Keeps ps s0 s' := by
  unfold execSecResetWarm at e
  refine Keeps.next ?_ e
  refine reach_keeps hl ?_
  exact hs

theorem execSecResetCold_keeps {path : Path} {key : W16} (hl : Parts.le Parts.any ps = true) {s : State}
    (hs : Keeps ps s0 s) {s' : State} (e : execSecResetCold path key s = .next s') : Keeps ps s0 s' := by
  unfold execSecResetCold at e
  refine Keeps.next ?_ e
  refine reach_keeps hl ?_
  exact hs

theorem execHenlanWarmReset_keeps {endpoint : ℕ} (hl : Parts.le Parts.any ps = true) {s : State} (hs : Keeps ps s0 s)
    {s' : State} (e : execHenlanWarmReset endpoint s = .next s') : Keeps ps s0 s' := by
  unfold execHenlanWarmReset at e
  refine Keeps.next ?_ e
  refine reach_keeps hl ?_
  exact hs

theorem execHenlanColdReset_keeps {endpoint : ℕ} (hl : Parts.le Parts.any ps = true) {s : State} (hs : Keeps ps s0 s)
    {s' : State} (e : execHenlanColdReset endpoint s = .next s') : Keeps ps s0 s' := by
  unfold execHenlanColdReset at e
  refine Keeps.next ?_ e
  refine reach_keeps hl ?_
  exact hs

theorem execSecRecover_keeps {path : Path} (hl : Parts.le Parts.any ps = true) {s : State} (hs : Keeps ps s0 s)
    {s' : State} (e : execSecRecover path s = .next s') : Keeps ps s0 s' := by
  unfold execSecRecover at e
  refine Keeps.next ?_ e
  refine reach_keeps hl ?_
  exact hs

theorem execSecCommitSvn_keeps {path : Path} (hl : Parts.le Parts.any ps = true) {s : State} (hs : Keeps ps s0 s)
    {s' : State} (e : execSecCommitSvn path s = .next s') : Keeps ps s0 s' := by
  unfold execSecCommitSvn at e
  refine Keeps.next ?_ e
  refine reach_keeps hl ?_
  exact hs

theorem execGetVersion_keeps {t : Transport} (hl : Parts.le Parts.any ps = true) {s : State} (hs : Keeps ps s0 s)
    {s' : State} (e : execGetVersion t s = .next s') : Keeps ps s0 s' := by
  unfold execGetVersion at e
  refine Keeps.next ?_ e
  refine reach_keeps hl ?_
  exact hs

theorem execGetCapabilities_keeps {t : Transport} {version : Byte} {ctExponent : ℕ}
    (hl : Parts.le Parts.any ps = true) {s : State} (hs : Keeps ps s0 s) {s' : State}
    (e : execGetCapabilities t version ctExponent s = .next s') : Keeps ps s0 s' := by
  unfold execGetCapabilities at e
  refine Keeps.next ?_ e
  refine reach_keeps hl ?_
  exact hs

theorem execNegotiateAlgorithms_keeps {t : Transport} {asym : Bool} {hash : Bool} {dhe : Bool} {aead : Bool}
    {keySched : Bool} (hl : Parts.le Parts.any ps = true) {s : State} (hs : Keeps ps s0 s) {s' : State}
    (e : execNegotiateAlgorithms t asym hash dhe aead keySched s = .next s') : Keeps ps s0 s' := by
  unfold execNegotiateAlgorithms at e
  refine Keeps.next ?_ e
  refine reach_keeps hl ?_
  exact hs

theorem execGetDigests_keeps {t : Transport} (hl : Parts.le Parts.any ps = true) {s : State} (hs : Keeps ps s0 s)
    {s' : State} (e : execGetDigests t s = .next s') : Keeps ps s0 s' := by
  unfold execGetDigests at e
  refine Keeps.next ?_ e
  refine reach_keeps hl ?_
  exact hs

theorem execGetCertificate_keeps {t : Transport} {slot : Fin 8} {offset : ℕ} {length : ℕ}
    (hl : Parts.le Parts.any ps = true) {s : State} (hs : Keeps ps s0 s) {s' : State}
    (e : execGetCertificate t slot offset length s = .next s') : Keeps ps s0 s' := by
  unfold execGetCertificate at e
  refine Keeps.next ?_ e
  refine reach_keeps hl ?_
  exact hs

theorem execChallenge_keeps {t : Transport} {slot : Fin 8} {summary : Byte} {nonce : BitVec 256}
    (hl : Parts.le Parts.any ps = true) {s : State} (hs : Keeps ps s0 s) {s' : State}
    (e : execChallenge t slot summary nonce s = .next s') : Keeps ps s0 s' := by
  unfold execChallenge at e
  refine Keeps.next ?_ e
  refine reach_keeps hl ?_
  exact hs

theorem execGetMeasurements_keeps {t : Transport} {index : Byte} {signed : Bool} {nonce : BitVec 256}
    (hl : Parts.le Parts.any ps = true) {s : State} (hs : Keeps ps s0 s) {s' : State}
    (e : execGetMeasurements t index signed nonce s = .next s') : Keeps ps s0 s' := by
  unfold execGetMeasurements at e
  refine Keeps.next ?_ e
  refine reach_keeps hl ?_
  exact hs

theorem execKeyExchange_keeps {t : Transport} {slot : Fin 8} {exchange : List Byte} {mutualAuth : Bool}
    (hl : Parts.le Parts.any ps = true) {s : State} (hs : Keeps ps s0 s) {s' : State}
    (e : execKeyExchange t slot exchange mutualAuth s = .next s') : Keeps ps s0 s' := by
  unfold execKeyExchange at e
  refine Keeps.next ?_ e
  refine reach_keeps hl ?_
  exact hs

theorem execFinish_keeps {t : Transport} {session : ℕ} {hmacOk : Bool} (hl : Parts.le Parts.any ps = true) {s : State}
    (hs : Keeps ps s0 s) {s' : State} (e : execFinish t session hmacOk s = .next s') : Keeps ps s0 s' := by
  unfold execFinish at e
  refine Keeps.next ?_ e
  refine reach_keeps hl ?_
  exact hs

theorem execEndSession_keeps {t : Transport} {session : ℕ} (hl : Parts.le Parts.any ps = true) {s : State}
    (hs : Keeps ps s0 s) {s' : State} (e : execEndSession t session s = .next s') : Keeps ps s0 s' := by
  unfold execEndSession at e
  refine Keeps.next ?_ e
  refine reach_keeps hl ?_
  exact hs

theorem execHeartbeat_keeps {t : Transport} {session : ℕ} (hl : Parts.le Parts.any ps = true) {s : State}
    (hs : Keeps ps s0 s) {s' : State} (e : execHeartbeat t session s = .next s') : Keeps ps s0 s' := by
  unfold execHeartbeat at e
  refine Keeps.next ?_ e
  refine reach_keeps hl ?_
  exact hs

theorem execKeyUpdate_keeps {t : Transport} {session : ℕ} {both : Bool} (hl : Parts.le Parts.any ps = true)
    {s : State} (hs : Keeps ps s0 s) {s' : State} (e : execKeyUpdate t session both s = .next s') : Keeps ps s0 s' :=
    by
  unfold execKeyUpdate at e
  refine Keeps.next ?_ e
  refine reach_keeps hl ?_
  exact hs

theorem execChunkSend_keeps {t : Transport} {handle : ℕ} {seqNo : ℕ} {last : Bool} {chunk : List Byte}
    (hl : Parts.le Parts.any ps = true) {s : State} (hs : Keeps ps s0 s) {s' : State}
    (e : execChunkSend t handle seqNo last chunk s = .next s') : Keeps ps s0 s' := by
  unfold execChunkSend at e
  refine Keeps.next ?_ e
  refine reach_keeps hl ?_
  exact hs

theorem execChunkGet_keeps {t : Transport} {handle : ℕ} {seqNo : ℕ} (hl : Parts.le Parts.any ps = true) {s : State}
    (hs : Keeps ps s0 s) {s' : State} (e : execChunkGet t handle seqNo s = .next s') : Keeps ps s0 s' := by
  unfold execChunkGet at e
  refine Keeps.next ?_ e
  refine reach_keeps hl ?_
  exact hs

theorem execRespondIfReady_keeps {t : Transport} {token : ℕ} (hl : Parts.le Parts.any ps = true) {s : State}
    (hs : Keeps ps s0 s) {s' : State} (e : execRespondIfReady t token s = .next s') : Keeps ps s0 s' := by
  unfold execRespondIfReady at e
  refine Keeps.next ?_ e
  refine reach_keeps hl ?_
  exact hs

theorem execGetCsr_keeps {t : Transport} (hl : Parts.le Parts.any ps = true) {s : State} (hs : Keeps ps s0 s)
    {s' : State} (e : execGetCsr t s = .next s') : Keeps ps s0 s' := by
  unfold execGetCsr at e
  refine Keeps.next ?_ e
  refine reach_keeps hl ?_
  exact hs

theorem execSetCertificate_keeps {t : Transport} (hl : Parts.le Parts.any ps = true) {s : State} (hs : Keeps ps s0 s)
    {s' : State} (e : execSetCertificate t s = .next s') : Keeps ps s0 s' := by
  unfold execSetCertificate at e
  refine Keeps.next ?_ e
  refine reach_keeps hl ?_
  exact hs

theorem execPskExchange_keeps {t : Transport} (hl : Parts.le Parts.any ps = true) {s : State} (hs : Keeps ps s0 s)
    {s' : State} (e : execPskExchange t s = .next s') : Keeps ps s0 s' := by
  unfold execPskExchange at e
  refine Keeps.next ?_ e
  refine reach_keeps hl ?_
  exact hs

theorem execGetKeyPairInfo_keeps {t : Transport} (hl : Parts.le Parts.any ps = true) {s : State} (hs : Keeps ps s0 s)
    {s' : State} (e : execGetKeyPairInfo t s = .next s') : Keeps ps s0 s' := by
  unfold execGetKeyPairInfo at e
  refine Keeps.next ?_ e
  refine reach_keeps hl ?_
  exact hs

theorem execFabAdmitRequest_keeps {path : Path} {val : W32} (hl : Parts.le Parts.any ps = true) {s : State}
    (hs : Keeps ps s0 s) {s' : State} (e : execFabAdmitRequest path val s = .next s') : Keeps ps s0 s' := by
  unfold execFabAdmitRequest at e
  refine Keeps.next ?_ e
  refine reach_keeps hl ?_
  exact hs

theorem execFabLeaveRequest_keeps {path : Path} {val : W32} (hl : Parts.le Parts.any ps = true) {s : State}
    (hs : Keeps ps s0 s) {s' : State} (e : execFabLeaveRequest path val s = .next s') : Keeps ps s0 s' := by
  unfold execFabLeaveRequest at e
  refine Keeps.next ?_ e
  refine reach_keeps hl ?_
  exact hs

theorem execLndLoopbackSelect_keeps {path : Path} {p : PortId} {depth : Fin 8} {echoOk : Bool}
    (hl : Parts.le Parts.any ps = true) {s : State} (hs : Keeps ps s0 s) {s' : State}
    (e : execLndLoopbackSelect path p depth echoOk s = .next s') : Keeps ps s0 s' := by
  unfold execLndLoopbackSelect at e
  refine Keeps.next ?_ e
  refine reach_keeps hl ?_
  exact hs

theorem execHubSwap_keeps {path : Path} (hl : Parts.le Parts.any ps = true) {s : State} (hs : Keeps ps s0 s)
    {s' : State} (e : execHubSwap path s = .next s') : Keeps ps s0 s' := by
  unfold execHubSwap at e
  refine Keeps.next ?_ e
  refine reach_keeps hl ?_
  exact hs

theorem execFwStage_keeps {path : Path} (hl : Parts.le Parts.any ps = true) {s : State} (hs : Keeps ps s0 s)
    {s' : State} (e : execFwStage path s = .next s') : Keeps ps s0 s' := by
  unfold execFwStage at e
  refine Keeps.next ?_ e
  refine reach_keeps hl ?_
  exact hs

theorem execFwActivate_keeps {path : Path} (hl : Parts.le Parts.any ps = true) {s : State} (hs : Keeps ps s0 s)
    {s' : State} (e : execFwActivate path s = .next s') : Keeps ps s0 s' := by
  unfold execFwActivate at e
  refine Keeps.next ?_ e
  refine reach_keeps hl ?_
  exact hs

theorem execFwAbort_keeps {path : Path} (hl : Parts.le Parts.any ps = true) {s : State} (hs : Keeps ps s0 s)
    {s' : State} (e : execFwAbort path s = .next s') : Keeps ps s0 s' := by
  unfold execFwAbort at e
  refine Keeps.next ?_ e
  refine reach_keeps hl ?_
  exact hs

theorem execFwSelectNext_keeps {path : Path} (hl : Parts.le Parts.any ps = true) {s : State} (hs : Keeps ps s0 s)
    {s' : State} (e : execFwSelectNext path s = .next s') : Keeps ps s0 s' := by
  unfold execFwSelectNext at e
  refine Keeps.next ?_ e
  refine reach_keeps hl ?_
  exact hs

theorem execTraceEnable_keeps {path : Path} {val : W32} (hl : Parts.le Parts.any ps = true) {s : State}
    (hs : Keeps ps s0 s) {s' : State} (e : execTraceEnable path val s = .next s') : Keeps ps s0 s' := by
  unfold execTraceEnable at e
  refine Keeps.next ?_ e
  refine reach_keeps hl ?_
  exact hs

theorem execDevLevelWrite_keeps {path : Path} {val : W32} (hl : Parts.le Parts.any ps = true) {s : State}
    (hs : Keeps ps s0 s) {s' : State} (e : execDevLevelWrite path val s = .next s') : Keeps ps s0 s' := by
  unfold execDevLevelWrite at e
  refine Keeps.next ?_ e
  refine reach_keeps hl ?_
  exact hs

theorem execHifLoopbackSelect_keeps {path : Path} {depth : Fin 4} {seconds : Byte} (hl : Parts.le Parts.any ps = true)
    {s : State} (hs : Keeps ps s0 s) {s' : State} (e : execHifLoopbackSelect path depth seconds s = .next s') : Keeps
    ps s0 s' := by
  unfold execHifLoopbackSelect at e
  refine Keeps.next ?_ e
  refine reach_keeps hl ?_
  exact hs

theorem execMcLoopbackSelect_keeps {path : Path} {d : Die} {m : Mc} {depth : Fin 4} {pc : Fin 32}
    (hl : Parts.le Parts.any ps = true) {s : State} (hs : Keeps ps s0 s) {s' : State}
    (e : execMcLoopbackSelect path d m depth pc s = .next s') : Keeps ps s0 s' := by
  unfold execMcLoopbackSelect at e
  refine Keeps.next ?_ e
  refine reach_keeps hl ?_
  exact hs

theorem execMedLoopbackSelect_keeps {path : Path} {d : Die} {depth : Fin 4} (hl : Parts.le Parts.any ps = true)
    {s : State} (hs : Keeps ps s0 s) {s' : State} (e : execMedLoopbackSelect path d depth s = .next s') : Keeps ps s0
    s' := by
  unfold execMedLoopbackSelect at e
  refine Keeps.next ?_ e
  refine reach_keeps hl ?_
  exact hs

theorem execLoopbackStop_keeps {path : Path} {off : ℕ} (hl : Parts.le Parts.any ps = true) {s : State}
    (hs : Keeps ps s0 s) {s' : State} (e : execLoopbackStop path off s = .next s') : Keeps ps s0 s' := by
  unfold execLoopbackStop at e
  refine Keeps.next ?_ e
  refine reach_keeps hl ?_
  exact hs

theorem execMctpControlMessage_keeps {msg : MctpMsg} (hl : Parts.le Parts.any ps = true) {s : State}
    (hs : Keeps ps s0 s) {s' : State} (e : execMctpControlMessage msg s = .next s') : Keeps ps s0 s' := by
  unfold execMctpControlMessage at e
  refine Keeps.next ?_ e
  refine reach_keeps hl ?_
  exact hs

theorem execArmReceive_keeps {pkt : Packet} (hl : Parts.le Parts.any ps = true) {s : State} (hs : Keeps ps s0 s)
    {s' : State} (e : execArmReceive pkt s = .next s') : Keeps ps s0 s' := by
  unfold execArmReceive at e
  refine Keeps.next ?_ e
  refine reach_keeps hl ?_
  exact hs

theorem execShardReceive_keeps {pkt : Packet} (hl : Parts.le Parts.any ps = true) {s : State} (hs : Keeps ps s0 s)
    {s' : State} (e : execShardReceive pkt s = .next s') : Keeps ps s0 s' := by
  unfold execShardReceive at e
  refine Keeps.next ?_ e
  refine reach_keeps hl ?_
  exact hs

theorem execHopReceive_keeps {pkt : Packet} (hl : Parts.le Parts.any ps = true) {s : State} (hs : Keeps ps s0 s)
    {s' : State} (e : execHopReceive pkt s = .next s') : Keeps ps s0 s' := by
  unfold execHopReceive at e
  refine Keeps.next ?_ e
  refine reach_keeps hl ?_
  exact hs

theorem execRouteReceive_keeps {pkt : Packet} (hl : Parts.le Parts.any ps = true) {s : State} (hs : Keeps ps s0 s)
    {s' : State} (e : execRouteReceive pkt s = .next s') : Keeps ps s0 s' := by
  unfold execRouteReceive at e
  refine Keeps.next ?_ e
  refine reach_keeps hl ?_
  exact hs

theorem execAdmitReceive_keeps {pkt : Packet} (hl : Parts.le Parts.any ps = true) {s : State} (hs : Keeps ps s0 s)
    {s' : State} (e : execAdmitReceive pkt s = .next s') : Keeps ps s0 s' := by
  unfold execAdmitReceive at e
  refine Keeps.next ?_ e
  refine reach_keeps hl ?_
  exact hs

theorem execAdmitAccept_keeps {minus : Packet} {plus : Packet} (hl : Parts.le Parts.any ps = true) {s : State}
    (hs : Keeps ps s0 s) {s' : State} (e : execAdmitAccept minus plus s = .next s') : Keeps ps s0 s' := by
  unfold execAdmitAccept at e
  refine Keeps.next ?_ e
  refine reach_keeps hl ?_
  exact hs

theorem execAdmitWithdraw_keeps {pkt : Packet} (hl : Parts.le Parts.any ps = true) {s : State} (hs : Keeps ps s0 s)
    {s' : State} (e : execAdmitWithdraw pkt s = .next s') : Keeps ps s0 s' := by
  unfold execAdmitWithdraw at e
  refine Keeps.next ?_ e
  refine reach_keeps hl ?_
  exact hs

theorem execAdmitRequestTimeout_keeps {i : FRing} (hl : Parts.le Parts.any ps = true) {s : State} (hs : Keeps ps s0 s)
    {s' : State} (e : execAdmitRequestTimeout i s = .next s') : Keeps ps s0 s' := by
  unfold execAdmitRequestTimeout at e
  refine Keeps.next ?_ e
  refine reach_keeps hl ?_
  exact hs

theorem execEchoReceive_keeps {pkt : Packet} (hl : Parts.le Parts.any ps = true) {s : State} (hs : Keeps ps s0 s)
    {s' : State} (e : execEchoReceive pkt s = .next s') : Keeps ps s0 s' := by
  unfold execEchoReceive at e
  refine Keeps.next ?_ e
  refine reach_keeps hl ?_
  exact hs

theorem execSwitchOpenReported_keeps {i : FRing} (hl : Parts.le Parts.any ps = true) {s : State} (hs : Keeps ps s0 s)
    {s' : State} (e : execSwitchOpenReported i s = .next s') : Keeps ps s0 s' := by
  unfold execSwitchOpenReported at e
  refine Keeps.next ?_ e
  refine reach_keeps hl ?_
  exact hs

theorem execSegmentTrained_keeps {i : FRing} (hl : Parts.le Parts.any ps = true) {s : State} (hs : Keeps ps s0 s)
    {s' : State} (e : execSegmentTrained i s = .next s') : Keeps ps s0 s' := by
  unfold execSegmentTrained at e
  refine Keeps.next ?_ e
  refine reach_keeps hl ?_
  exact hs

theorem execTrainingTimeout_keeps {i : FRing} (hl : Parts.le Parts.any ps = true) {s : State} (hs : Keeps ps s0 s)
    {s' : State} (e : execTrainingTimeout i s = .next s') : Keeps ps s0 s' := by
  unfold execTrainingTimeout at e
  refine Keeps.next ?_ e
  refine reach_keeps hl ?_
  exact hs

theorem execSwitchClosedReported_keeps {i : FRing} (hl : Parts.le Parts.any ps = true) {s : State}
    (hs : Keeps ps s0 s) {s' : State} (e : execSwitchClosedReported i s = .next s') : Keeps ps s0 s' := by
  unfold execSwitchClosedReported at e
  refine Keeps.next ?_ e
  refine reach_keeps hl ?_
  exact hs

theorem execSegmentDown_keeps {i : FRing} {plusSide : Bool} (hl : Parts.le Parts.any ps = true) {s : State}
    (hs : Keeps ps s0 s) {s' : State} (e : execSegmentDown i plusSide s = .next s') : Keeps ps s0 s' := by
  unfold execSegmentDown at e
  refine Keeps.next ?_ e
  refine reach_keeps hl ?_
  exact hs

theorem execSegmentUp_keeps {i : FRing} {plusSide : Bool} (hl : Parts.le Parts.any ps = true) {s : State}
    (hs : Keeps ps s0 s) {s' : State} (e : execSegmentUp i plusSide s = .next s') : Keeps ps s0 s' := by
  unfold execSegmentUp at e
  refine Keeps.next ?_ e
  refine reach_keeps hl ?_
  exact hs

theorem execNeighbourLoss_keeps {i : FRing} {plusSide : Bool} {packets : ℕ} (hl : Parts.le Parts.any ps = true)
    {s : State} (hs : Keeps ps s0 s) {s' : State} (e : execNeighbourLoss i plusSide packets s = .next s') : Keeps ps
    s0 s' := by
  unfold execNeighbourLoss at e
  refine Keeps.next ?_ e
  refine reach_keeps hl ?_
  exact hs

theorem execGalleryBankSwitch_keeps {d : Die} {k : Fin 4} (hl : Parts.le Parts.any ps = true) {s : State}
    (hs : Keeps ps s0 s) {s' : State} (e : execGalleryBankSwitch d k s = .next s') : Keeps ps s0 s' := by
  unfold execGalleryBankSwitch at e
  refine Keeps.next ?_ e
  refine reach_keeps hl ?_
  exact hs

theorem execCoreRetireDone_keeps {d : Die} {p : PCore} (hl : Parts.le Parts.any ps = true) {s : State}
    (hs : Keeps ps s0 s) {s' : State} (e : execCoreRetireDone d p s = .next s') : Keeps ps s0 s' := by
  unfold execCoreRetireDone at e
  refine Keeps.next ?_ e
  refine reach_keeps hl ?_
  exact hs

theorem execPhaseFail_keeps {d : Die} {g : Rail} (hl : Parts.le Parts.any ps = true) {s : State} (hs : Keeps ps s0 s)
    {s' : State} (e : execPhaseFail d g s = .next s') : Keeps ps s0 s' := by
  unfold execPhaseFail at e
  refine Keeps.next ?_ e
  refine reach_keeps hl ?_
  exact hs

theorem execContribReceive_keeps {pkt : Packet} {ce : List ℕ} (hl : Parts.le Parts.any ps = true) {s : State}
    (hs : Keeps ps s0 s) {s' : State} (e : execContribReceive pkt s ce = .next s') : Keeps ps s0 s' := by
  unfold execContribReceive at e
  refine Keeps.next ?_ e
  refine reach_keeps hl ?_
  exact hs

theorem execEndReceive_keeps {pkt : Packet} {ce : List ℕ} (hl : Parts.le Parts.any ps = true) {s : State}
    (hs : Keeps ps s0 s) {s' : State} (e : execEndReceive pkt s ce = .next s') : Keeps ps s0 s' := by
  unfold execEndReceive at e
  refine Keeps.next ?_ e
  refine reach_keeps hl ?_
  exact hs

/-! ### Tick -/

theorem stallTick_keeps {k : ℕ} (hl : Parts.le [.ctxs] ps = true) {s : State} (hs : Keeps ps s0 s) : Keeps ps s0
    (stallTick k s) := by
  unfold stallTick
  refine Keeps.foldl ?_ (fun t3 a1 ht2 => ?_)
  · exact hs
  · refine State.modCtx_keeps hl ?_
    exact ht2

theorem cycTick_keeps {k : ℕ} (hl : Parts.le [.busyNs] ps = true) {s : State} (hs : Keeps ps s0 s) : Keeps ps s0
    (cycTick k s) := by
  unfold cycTick
  refine Keeps.upd [.busyNs] hl rfl rfl ?_
  exact hs

theorem ctrTick_keeps {k : ℕ} (hl : Parts.le [.dies] ps = true) {s : State} (hs : Keeps ps s0 s) : Keeps ps s0
    (ctrTick k s) := by
  unfold ctrTick
  refine Keeps.upd [.dies] hl rfl rfl ?_
  exact hs

theorem waitTick_keeps {k : ℕ} (hl : Parts.le [.disps, .cores] ps = true) {s : State} (hs : Keeps ps s0 s) : Keeps ps
    s0 (waitTick k s) := by
  unfold waitTick
  extract_lets +onlyGivenNames x1
  clear_value x1
  refine Keeps.upd [.disps, .cores] hl rfl rfl ?_
  exact hs

theorem acctTick_keeps {k : ℕ} (hl : Parts.le [.acct] ps = true) {s : State} (hs : Keeps ps s0 s) : Keeps ps s0
    (acctTick k s) := by
  unfold acctTick
  extract_lets +onlyGivenNames x1
  have hx1 : Keeps ps s0 x1 := by
    subst x1
    refine Keeps.foldl ?_ (fun t4 a2 ht3 => ?_)
    · exact hs
    · split
      · refine State.account_keeps hl ?_
        exact ht3
      · exact ht3
  clear_value x1
  refine Keeps.upd [.acct] hl rfl rfl ?_
  exact hx1

theorem ledgerTick_keeps {k : ℕ} (hl : Parts.le [.acct, .ledgerQ] ps = true) {s : State} (hs : Keeps ps s0 s) : Keeps
    ps s0 (ledgerTick k s) := by
  unfold ledgerTick
  extract_lets +onlyGivenNames x1
  clear_value x1
  refine Keeps.ite ?_ ?_
  · refine Keeps.upd [.acct, .ledgerQ] hl rfl rfl ?_
    exact hs
  · exact hs

theorem sampleTick_keeps {k : ℕ} (hl : Parts.le [.dies, .free] ps = true) {s : State} (hs : Keeps ps s0 s) : Keeps ps
    s0 (sampleTick k s) := by
  unfold sampleTick
  extract_lets +onlyGivenNames x1
  clear_value x1
  extract_lets +onlyGivenNames x2
  have hx2 : Keeps ps s0 x2 := by
    subst x2
    refine Keeps.ite ?_ ?_
    · exact hs
    · refine Keeps.foldl ?_ (fun t5 a3 ht4 => ?_)
      · exact hs
      · split
        · refine State.modDie_keeps (Parts.le_trans rfl hl) ?_
          refine sampleDue_keeps (Parts.le_trans rfl hl) ?_
          exact ht4
        · exact ht4
  clear_value x2
  refine Keeps.ite ?_ ?_
  · refine Keeps.foldl ?_ (fun t8 a6 ht7 => ?_)
    · exact hx2
    · extract_lets +onlyGivenNames x9
      clear_value x9
      refine State.modDie_keeps (Parts.le_trans rfl hl) ?_
      exact ht7
  · exact hx2

theorem timeTick_keeps (hl : Parts.le [.now, .fab] ps = true) {s : State} (hs : Keeps ps s0 s) : Keeps ps s0
    (timeTick s) := by
  unfold timeTick
  extract_lets +onlyGivenNames x1
  clear_value x1
  refine Keeps.upd [.now, .fab] hl rfl rfl ?_
  exact hs

theorem tick_keeps
    (hl : Parts.le [.now, .fab, .acct, .ledgerQ, .dies, .free, .busyNs, .disps, .cores, .ctxs] ps = true) {s : State}
    (hs : Keeps ps s0 s) : Keeps ps s0 (tick s) := by
  unfold tick
  extract_lets +onlyGivenNames x1
  clear_value x1
  refine Keeps.ite ?_ ?_
  · refine timeTick_keeps (Parts.le_trans rfl hl) ?_
    refine ledgerTick_keeps (Parts.le_trans rfl hl) ?_
    refine sampleTick_keeps (Parts.le_trans rfl hl) ?_
    refine acctTick_keeps (Parts.le_trans rfl hl) ?_
    refine cycTick_keeps (Parts.le_trans rfl hl) ?_
    refine waitTick_keeps (Parts.le_trans rfl hl) ?_
    refine ctrTick_keeps (Parts.le_trans rfl hl) ?_
    refine stallTick_keeps (Parts.le_trans rfl hl) ?_
    exact hs
  · refine Keeps.upd [.now] (Parts.le_trans rfl hl) rfl rfl ?_
    exact hs

end Sys2Proof.Machine
end

