-- ==== Sys2Proof/Laws/Writes.lean ====
section
/-! SUPPORT. What device writes, fresh values and their counters leave alone. -/

namespace Sys2Proof.Machine

theorem State.freeBytes_frame (n : Nat) (s : State) : (s.freeBytes n).2 = { s with free := (s.freeBytes n).2.free } :=
  (State.freeBytes_keeps (ps := [.free]) rfl (Keeps.refl _ s)).rest

theorem State.freeBytes_length (n : Nat) (s : State) : (s.freeBytes n).1.length = n := by
  induction n generalizing s with
  | zero => rfl
  | succ n ih =>
    unfold State.freeBytes
    exact congrArg (· + 1) (ih { s with free := s.free + 1 })

theorem State.spoil_bad (s : State) (a n : Nat) : (s.spoil a n).bad = s.bad :=
  (State.spoil_keeps (ps := [.free, .mem, .hostMem]) rfl (Keeps.refl _ s)).rest.bad rfl

/-- A device write clears the errors of the codewords it covers. -/
theorem State.putBytes_bad (s : State) (a : Nat) (bs : List Byte) :
    (s.putBytes a bs).bad = s.bad.filter (fun c => !(decide (a ≤ c) && decide (c + 32 ≤ a + bs.length))) := by
  unfold State.putBytes
  rw [State.spoil_bad, countBytes_frame]
  rfl

theorem State.bump_wide (s : State) (r : RegId) (d i k : Nat) (h : r.row.wide = true) :
    (s.bump r d i k).reg r d i 0 = s.reg r d i 0 + BitVec.ofNat 64 k := by
  unfold State.bump State.modReg
  rw [State.setReg_self]
  exact if_pos h

/-- An offset within its block. -/
def RegId.rel (r : RegId) (i j : Nat) : Nat := r.row.base + i * r.row.s1 + j * r.row.s2

theorem off_die {r : RegId} (h : r.row.die = true) (d i j : Nat) : r.off d i j = 0x100000 * (d + 1) + r.rel i j := by
  unfold RegId.off RegId.rel
  rw [if_pos h]
  omega

theorem off_hub {r : RegId} (h : r.row.die = false) (d i j : Nat) : r.off d i j = r.rel i j := by
  unfold RegId.off RegId.rel
  rw [if_neg (by rw [h]; decide)]
  omega

/-- Registers of dies at other places of their blocks are different registers. -/
theorem off_ne_dies {r q : RegId} {i j i' j' : Nat} (hr : r.row.die = true) (hq : q.row.die = true) (lr : r.rel i j < 0x100000)
    (lq : q.rel i' j' < 0x100000) (h : r.rel i j ≠ q.rel i' j') (d d' : Nat) : r.off d i j ≠ q.off d' i' j' := by
  rw [off_die hr, off_die hq]
  omega

/-- A register of a die is none of the module's own. -/
theorem off_ne_hub {r q : RegId} {i' j' : Nat} (hr : r.row.die = true) (hq : q.row.die = false) (lq : q.rel i' j' < 0x100000)
    (d i j d' : Nat) : r.off d i j ≠ q.off d' i' j' := by
  rw [off_die hr, off_hub hq]
  omega

theorem off_die_le {r : RegId} (hr : r.row.die = true) (d i j : Nat) : 0x100000 ≤ r.off d i j := by
  rw [off_die hr]
  omega

theorem notPending_rel : ∀ v, v < 9 → RegId.rel .msixPending v 0 < 0x100000 := by decide +kernel

theorem trace_hub_lt : RegId.off .trcRingProd 0 0 0 < 0x100000 ∧ RegId.off .trcLost 0 0 0 < 0x100000 := by decide +kernel

/-- A trace record changes no register of a die but its trace counters and the counters of bytes. -/
theorem State.traceRec_reg_die (s : State) (src unit kind ctx : Nat) (data : List Byte) {q : RegId} {d i j : Nat}
    (hq : q.row.die = true) (lq : q.rel i j < 0x100000) (h2 : q.rel i j ≠ RegId.rel .trdRecords 0 0)
    (h4 : q.rel i j ≠ RegId.rel .trdLost 0 0) (hu : Uncounted q d i j) :
    (s.traceRec src unit kind ctx data).reg q d i j = s.reg q d i j := by
  have h := off_die_le hq d i j
  have h1 := trace_hub_lt.1
  have h3 := trace_hub_lt.2
  exact State.traceRec_reg s src unit kind ctx data
    { prod := by omega
      records := fun k => off_ne_dies hq (by decide) lq (by decide +kernel) h2 d k
      lost := by omega
      dieLost := fun k => off_ne_dies hq (by decide) lq (by decide +kernel) h4 d k
      bytes := hu }

/-- A register that holds no pending messages. -/
def NotPending (q : RegId) (d i j : Nat) : Prop := ∀ v, v < 9 → q.off d i j ≠ RegId.off .msixPending 0 v 0

theorem NotPending.die {r : RegId} (hr : r.row.die = true) (d i j : Nat) : NotPending r d i j :=
  fun v hv => off_ne_hub hr rfl (notPending_rel v hv) d i j 0

theorem State.ringMsix_reg (s : State) (r : RingId) {q : RegId} {d i j : Nat} (h : NotPending q d i j) :
    (s.ringMsix r).reg q d i j = s.reg q d i j := by
  have hm : (s.msix r.val).reg q d i j = s.reg q d i j := State.msix_reg s r.val (h _ (by have := r.isLt; omega))
  unfold State.ringMsix
  dsimp only
  split
  · split
    · split
      · rfl
      · split
        · exact hm
        · exact hm
    · split
      · exact hm
      · exact hm
  · rfl

theorem State.eventWrite_reg (s : State) (n : CtxId) (e : EventEnt) {q : RegId} {d i j : Nat} (h : NotPending q d i j)
    (hu : Uncounted q d i j) : (s.eventWrite n e).reg q d i j = s.reg q d i j := by
  unfold State.eventWrite
  dsimp only
  rw [State.ringMsix_reg _ _ h]
  cases e.seq with
  | none => exact State.hubPut_reg s n _ _ hu
  | some x => exact State.hubPut_reg s n _ _ hu

theorem State.eventDrainN_reg (n : CtxId) (k : Nat) (s : State) {q : RegId} {d i j : Nat} (h : NotPending q d i j)
    (hu : Uncounted q d i j) : (s.eventDrainN n k).reg q d i j = s.reg q d i j := by
  induction k generalizing s with
  | zero => rfl
  | succ k ih =>
    unfold State.eventDrainN
    split
    · rfl
    · split
      · rw [ih, State.eventWrite_reg _ _ _ h hu]; rfl
      · rfl

theorem State.eventPush_reg (s : State) (n : CtxId) (e : EventEnt) {q : RegId} {d i j : Nat} (h : NotPending q d i j)
    (hu : Uncounted q d i j) : (s.eventPush n e).reg q d i j = s.reg q d i j := by
  unfold State.eventPush
  rw [eventDrain_eq]
  dsimp only
  exact State.ite_reg (State.eventDrainN_reg n _ (s.modCtx n _) h hu) (State.eventDrainN_reg n _ (s.modCtx n _) h hu)

/-- A completion changes no register but those of pending messages and the counters of bytes. -/
theorem State.complete_reg (s : State) (seq : Nat) (st : Byte) (dt : W16) {q : RegId} {d i j : Nat} (h : NotPending q d i j)
    (hu : Uncounted q d i j) : (s.complete seq st dt).reg q d i j = s.reg q d i j := by
  unfold State.complete
  split
  · rfl
  · split
    · rfl
    · rename_i x _ _
      have e := State.hubPut_reg s (ringCtx x.ring) (s.slotAddr x.ring x.slot + 0x38) (toLe 8 (statusWord st dt s.now)) hu
      generalize s.hubPut (ringCtx x.ring) (s.slotAddr x.ring x.slot + 0x38) (toLe 8 (statusWord st dt s.now)) = w at e ⊢
      dsimp only
      split
      · exact e
      · exact (State.eventPush_reg _ _ _ h hu).trans e

/-- No uncorrectable codeword is met in part, once fewer of them stand. -/
theorem badPartial_mono {s t : State} (h : ∀ c ∈ t.bad, c ∈ s.bad) (a n : Nat) (hs : s.badPartial a n = none) :
    t.badPartial a n = none := by
  unfold State.badPartial at hs ⊢
  rw [List.find?_eq_none] at hs ⊢
  exact fun c hc => hs c (h c hc)

/-- A write that may be made stays one while ranges and plans stand and errors only clear. -/
theorem writeFault_mono {s t : State} (h1 : ∀ n a len, t.jobMay n a len = s.jobMay n a len) (h2 : t.plans = s.plans)
    (h3 : ∀ c ∈ t.bad, c ∈ s.bad) {n : CtxId} {a len : Nat} (hs : s.writeFault n a len = none) : t.writeFault n a len = none := by
  unfold State.writeFault at hs ⊢
  have hp : t.planAreaOf a len = s.planAreaOf a len := by unfold State.planAreaOf; rw [h2]
  rw [h1, hp]
  split at hs
  · rename_i hc
    rw [if_pos hc]
    have : s.badPartial a len = none := by
      cases hb : s.badPartial a len with
      | none => rfl
      | some c => rw [hb] at hs; cases hs
    rw [badPartial_mono h3 a len this]; rfl
  · cases hs

end Sys2Proof.Machine
end

