-- ==== Sys2Proof/WellFormed.lean ====
section
/-! DEFINITION. Which commands are well formed: what a sender of a command can send at all. The
meanings are total; a command that is not well formed names nothing a host, a neighbour or the
world could do. -/

namespace Sys2Proof

/-- The largest payload of a fabric packet, R372. -/
def maxPayload : Nat := 4096

/-- A fabric packet a port can receive. -/
def Packet.wf (p : Packet) : Bool := decide (p.payload.length ≤ maxPayload)

/-- An access of R6 that is not an aligned access of 4 or 8 bytes. -/
def misWf (off size : Nat) : Bool :=
  decide (1 ≤ size) && !((size == 4 || size == 8) && off % size == 0)

/-- A finding of a test that names a row or a lane that exists (R286). -/
def TestFail.wf : TestFail → Bool
  | .hbmRow _ _ row => decide (row.row < 16384)
  | .hbmBank _ _ row => decide (row.row < 16384)
  | .hbmLane _ _ _ lane => decide (lane < 64)
  | _ => true

/-- Whether a command is well formed. -/
def Instr.wf : Instr → Bool
  | .lowWordRead _ off => off % 4 == 0
  | .highWordRead _ off => off % 8 == 4
  | .misalignedAccess _ off size _ => misWf off size
  | .registerWrite _ off wide _ => off % (if wide then 8 else 4) == 0
  | .rcRegisterRead _ off _ => off % 4 == 0
  | .w1cWrite _ off _ _ => off % 4 == 0
  | .barResize log2 => decide (30 ≤ log2) && decide (log2 ≤ 39)
  | .bar4Read _ len _ => decide (1 ≤ len)
  | .bar4Write _ bs => decide (1 ≤ bs.length)
  | .configRequest off size _ => (size == 1 || size == 2 || size == 4) && off % size == 0
  | .armReceive p => p.wf
  | .contribReceive p _ => p.wf
  | .endReceive p _ => p.wf
  | .shardReceive p => p.wf
  | .hopReceive p => p.wf
  | .packetForward _ p => p.wf
  | .routeReceive p => p.wf
  | .admitReceive p => p.wf
  | .admitAccept p q => p.wf && q.wf
  | .admitWithdraw p => p.wf
  | .timeReceive p _ => p.wf
  | .echoReceive p => p.wf
  | .startupStepDone ev => ev.fails.all TestFail.wf
  | .loopbackPassDone _ _ _ found => found.all TestFail.wf
  | .codewordLoss _ _ n => decide (1 ≤ n)
  | .hbmLaneRepair _ _ _ lane => decide (lane < 64)
  | .rowRetire _ _ row => decide (row.row < 16384)
  | .chunkSend _ _ _ _ c => decide (1 ≤ c.length)
  | _ => true

end Sys2Proof
end

