-- ==== Sys2Proof/Tests/Slice0.lean ====
section
/-! SUPPORT. The model's own tests: ill-formed terms refused, small steps, and witnesses of the statements' hypotheses. -/

set_option Elab.async false

namespace Sys2Proof.Tests

open Sys2Proof Sys2Proof.Machine

/-- A module in service: start-up is over, the link is up, the function is configured and every die has power. -/
def svc : State := { State.reset with
  boot := { powered := true, stage := 10, linkUp := true, cfgReady := true, modPwrgd := true }
  hub := { State.reset.hub with standbyOk := true, msixEnable := true }
  dies := (List.range 8).map (fun d => (d, { railOn := true })) }

/-- The module in service with one function in a state. -/
def svcFn (f : FuncId) (v : Fn) : State := svc.setFn f v

/-- A module in service whose ring 4 (of context 1) is ON with one slot pending: a descriptor of 64 bytes at its head. -/
def svcSlot (bytes : List Byte) : State :=
  let s := (svcFn (.ctx 1) { st := .on }).setFn (.ring 4) { st := .on }
  let s := (s.setReg .hifRingTail 0 4 0 1).setReg .hifRingCfg 0 4 0 4
  s.anyWrite 0 bytes

/-- 64 bytes of a descriptor of a type, flags and its fields from byte 2, with OWN set. -/
def slotOf (ty flags : Byte) (fields : List Byte) : List Byte :=
  [ty, flags] ++ fields ++ List.replicate (61 - fields.length) 0 ++ [0x80]

/-- The hypothesis of IdleStepPassesTime is met. -/
theorem wit_idle : State.reset.pending = [] ∧ State.reset.fab.slew = 0 := by decide

/-- The hypotheses of MemoryStaysCanonical are met. -/
theorem wit_memory : ∃ t, MemoryOk State.reset ∧ StepsTo State.reset t := ⟨_, by unfold MemoryOk; decide, rfl⟩

/-- The hypotheses of FlightLimits are met. -/
theorem wit_flight : ∃ t, FlightOk State.reset ∧ StepsTo State.reset t :=
  ⟨_, ⟨List.Pairwise.nil, fun x hx => (by cases hx), Nat.zero_le _, fun _ => Nat.zero_le _⟩, rfl⟩

/-- The hypothesis of CommandsKeepTheQueue is met. -/
theorem wit_queue : ∃ t, exec .d0Return State.reset = .next t := ⟨_, rfl⟩

/-- The hypotheses of LatchedRead are met: TIME_NOW, without and with a latch. -/
theorem wit_latch : ReadsAt svc .bar0 0x30000 ∧ regAt 0x30000 = some ⟨.timeNow, 0, 0, 0, false⟩ ∧
    RegId.timeNow.row.wide = true ∧ ReadsAt svc .bar0 0x30004 ∧ regAt 0x30004 = some ⟨.timeNow, 0, 0, 0, true⟩ ∧
    svc.latch .bar0 0x30000 = none ∧
    State.latch { svc with latches := [⟨.bar0, 0x30000, 5⟩] } .bar0 0x30000 = some 5 := by
  unfold ReadsAt; decide +kernel

/-- The hypotheses of MisalignedAccess are met on a privileged and on a development path: a size that is neither 4 nor 8,
and each size at an offset that is no multiple of it. -/
theorem wit_misaligned : svc.hub.takeover = false ∧ svc.pathLive .bar0 = true ∧ privileged .bar0 = true ∧
    svc.pathLive (.dev 0) = true ∧ privileged (.dev 0) = false ∧ (2 : Nat) ≠ 4 ∧ (2 : Nat) ≠ 8 ∧ (16 : Nat) ≠ 8 ∧
    0x30002 % 4 ≠ 0 ∧ 0x30004 % 8 ≠ 0 := by decide

/-- The hypotheses of RegisterWrite are met: MC_SCRUB_CTL; HIF_LINK_CTL, which is RWS; MC_STATUS, which is read only;
a range of a context that is ON. -/
theorem wit_write : WritesAt svc .bar0 0x160020 ∧ regAt 0x160020 = some ⟨.mcScrubCtl, 0, 0, 0, false⟩ ∧
    RegId.mcScrubCtl.row.acc = .rw ∧ svc.writable ⟨.mcScrubCtl, 0, 0, 0, false⟩ = true ∧
    (⟨.mcScrubCtl, 0, 0, 0, false⟩ : RegRef).func = none ∧ regAt 4 = some ⟨.hifLinkCtl, 0, 0, 0, false⟩ ∧
    WritesAt svc .bar0 4 ∧ RegId.hifLinkCtl.row.acc = .rws ∧
    svc.writable ⟨.hifLinkCtl, 0, 0, 0, false⟩ = true ∧ (⟨.hifLinkCtl, 0, 0, 0, false⟩ : RegRef).func = none ∧
    regAt 0x160000 = some ⟨.mcStatus, 0, 0, 0, false⟩ ∧ WritesAt svc .bar0 0x160000 ∧ RegId.mcStatus.row.acc = .ro ∧
    (svcFn (.ctx 3) { st := .on }).writable ⟨.hifCtxRange, 0, 3, 1, false⟩ = false := by
  unfold WritesAt; decide +kernel

/-- A 64-bit write meets the hypotheses of RegisterWrite too: the submission ring base of ring 1. -/
theorem wit_write64 : WritesAt svc .bar0 0x2028 ∧ regAt 0x2028 = some ⟨.hifRingBase, 0, 1, 0, false⟩ ∧
    RegId.hifRingBase.row.wide = true ∧ 0x2028 % 8 = 0 ∧ svc.writable ⟨.hifRingBase, 0, 1, 0, false⟩ = true := by
  unfold WritesAt; decide +kernel

/-- The hypotheses of WriteOneAndReadToClear are met: HIF_RING_STAT of ring 0, and HIF_LINK_EVENTS. -/
theorem wit_w1c : WritesAt svc .bar0 0x2018 ∧ regAt 0x2018 = some ⟨.hifRingStat, 0, 0, 0, false⟩ ∧
    RegId.hifRingStat.row.acc = .w1c ∧ ReadsAt svc .bar0 0x8 ∧ regAt 0x8 = some ⟨.hifLinkEvents, 0, 0, 0, false⟩ ∧
    RegId.hifLinkEvents.row.acc = .rc ∧ RegId.hifLinkEvents.row.wide = false ∧ RegId.hifLinkEvents.freeBits = 0 ∧
    (⟨.hifLinkEvents, 0, 0, 0, false⟩ : RegRef).func = none := by
  unfold WritesAt ReadsAt; decide +kernel

/-- The hypotheses of FunctionEnable are met, in each state of R24. -/
theorem wit_enable : WritesAt svc .bar0 (fnOff (.core 0 1)) ∧ WritesAt svc .bar0 (fnOff (.ring 5)) ∧
    (svc.fn (.ring 5)).st = .off ∧ WritesAt svc .bar0 (fnOff (.stream 0 3)) ∧
    WritesAt (svcFn (.dmaq 2) { st := .draining }) .bar0 (fnOff (.dmaq 2)) ∧ ∀ n, FuncId.dmaq 2 ≠ .ctx n := by
  unfold WritesAt
  refine ⟨?_, ?_, ?_, ?_, ?_, fun n h => by cases h⟩ <;> decide +kernel

/-- The hypotheses of FunctionDisable are met: a core, a port whose ring is admitted, a stream. -/
theorem wit_disable : WritesAt svc .bar0 (fnOff (.core 7 31)) ∧ WritesAt svc (.henlan 1) (fnOff (.stream 7 255)) ∧
    WritesAt (svcFn (.port 3) { st := .on }) .bar0 (fnOff (.port 3)) ∧
    ((svcFn (.port 3) { st := .on }).fn (.port 3)).st = .on ∧ (svcFn (.port 3) { st := .on }).fab.leaveQ = [] ∧
    (∀ i, ((svcFn (.port 3) { st := .on }).fring i).st.moving = false) ∧
    (((svcFn (.port 3) { st := .on }).modFring (portRing 3) (fun x => { x with st := .admitted })).fring (portRing 3)).st ≠ .bypassed := by
  unfold WritesAt
  refine ⟨?_, ?_, ?_, ?_, ?_, ?_, ?_⟩ <;> decide +kernel

/-- A module in service whose context 0 has regions 0 to 3, an event ring of 64 entries, a save area and a sample
ring there. -/
def svcCtx : State :=
  ((((svc.setReg .hifCtxCfg 0 0 0 0x6000000).setReg .hifCtxRange 0 0 0 0x40000).setReg .hifCtxEvqBase 0 0 0 0x1000)
    |>.setReg .hifCtxSaveBase 0 0 0 0).setReg .trcCtxSampleBase 0 0 0 0

/-- The hypotheses of ContextEnable are met, with no check failing, and with check 1 failing. -/
theorem wit_ctx : WritesAt svcCtx .bar0 (fnOff (.ctx 0)) ∧ 10 ≤ svcCtx.boot.stage ∧ svcCtx.hub.outOfService = false ∧
    (svcCtx.fn (.ctx 0)).st = .off ∧ svcCtx.rangeBad 0 = false ∧ svcCtx.shareBad 0 = false ∧
    svcCtx.evqBad 0 = false ∧ svcCtx.saveBad 0 = false ∧ svcCtx.sampleBad 0 = false := by
  unfold WritesAt; decide +kernel

/-- A check that fails: the range passes region 751. -/
theorem wit_ctx_bad : (svc.setReg .hifCtxRange 0 0 0 0x402F0).rangeBad 0 = true := by decide +kernel

/-- The hypotheses of StartingEnds are met, without and with a recorded disable, and for a port. -/
theorem wit_starting : ((svcFn (.core 0 1) { st := .starting }).fn (.core 0 1)).st = .starting ∧
    (svcFn (.core 0 1) { st := .starting }).unitRuns (.core 0 1) = true ∧
    ((svcFn (.ctx 5) { st := .starting, disableRecorded := true }).fn (.ctx 5)).st = .starting ∧
    (svcFn (.ctx 5) { st := .starting, disableRecorded := true }).unitRuns (.ctx 5) = true ∧
    ((svcFn (.port 2) { st := .starting }).fn (.port 2)).st = .starting ∧
    (svcFn (.port 2) { st := .starting }).unitRuns (.port 2) = true := by decide +kernel

/-- The hypotheses of DrainingEnds are met: a context with and without PENDING_ON, a core, a ring. -/
theorem wit_draining : ((svcFn (.ctx 5) { st := .draining, pendingOn := true }).fn (.ctx 5)).st = .draining ∧
    (svcFn (.ctx 5) { st := .draining, pendingOn := true }).hasWork (.ctx 5) = false ∧ svc.fnClock (.ctx 5) = true ∧
    ((svcFn (.core 1 2) { st := .draining }).fn (.core 1 2)).st = .draining ∧
    (svcFn (.core 1 2) { st := .draining }).hasWork (.core 1 2) = false ∧ svc.fnClock (.core 1 2) = true ∧
    ((svcFn (.ring 9) { st := .draining }).fn (.ring 9)).st = .draining ∧
    (svcFn (.ring 9) { st := .draining }).hasWork (.ring 9) = false ∧ svc.fnClock (.ring 9) = true := by decide +kernel

/-- A commit that applies, and two that do not: region 0 homed on die 1 (an equal map otherwise), homed on die 1 while
held, and a shadow map that breaks R29. -/
def svcCommit (n : Nat) : State :=
  (List.range n).foldl (fun s j => s.setReg .mgtRegion 0 j 0 0x11) { svc with commitBusy := true }

/-- The hypotheses of RegionCommit are met, in each case. -/
theorem wit_commit : WritesAt svc .bar0 (RegId.off .mgtRegionCommit 0 0 0) ∧ svc.commitBusy = false ∧
    (svcCommit 1).commitBusy = true ∧ (svcCommit 0).commitResult (svcCommit 0).shadowMap = 0 := by
  unfold WritesAt; decide +kernel

/-- The hypotheses of Bar4Window are met: BAR4 at 0 without an owner, an aligned and a misaligned BASE, accesses inside
and beyond the window, an uncorrectable codeword, a loaded plan area with and without its owner. -/
theorem wit_bar4 : WritesAt svc .bar0 (RegId.off .hifBar4Ctl 0 0 0) ∧ svc.windowUp = true ∧ svc.barUp = true ∧
    fld (0x1000400000 : W64) 47 30 * 2 ^ 30 % svc.bar4Size = 0 ∧ fld (0x40400000 : W64) 47 30 * 2 ^ 30 % svc.bar4Size ≠ 0 ∧
    svc.bar4Refuses 0 64 = false ∧ svc.bar4Refuses 0xFFFFFFFF8 16 = true ∧ svc.badIn (svc.bar4Base + 0) 64 = none ∧
    (({ svc with bad := [32] } : State).badIn 0 64).isSome = true ∧ svc.bar4Owner = none ∧
    svc.memRuns none (svc.bar4Base + 0) 64 = true ∧
    (svc.modIsland 0 islLanding (fun x => { x with stopped := true })).memRuns none (svc.bar4Base + 0) 64 = false ∧
    svc.planAreaOf 0 64 = none ∧ svc.badPartial 0 64 = none ∧ svc.colls.flatMap (fun c => c.guards) = [] := by
  unfold WritesAt; decide +kernel

/-- BAR4 owned by context 5, whose loaded plan lies at 0. -/
def svcOwned : State :=
  { svc.setReg .hifBar4Ctl 0 0 0 0x50000 with plans := [{ ctx := 5, handle := 0, st := .loaded, area := 0, size := 4096, loadSeq := 0 }] }
    |>.setReg .hifCtxRange 0 5 0 0x40000

/-- The plan-area cases of Bar4Window are met. -/
theorem wit_bar4_plan : svcOwned.bar4Owner = some 5 ∧ svcOwned.bar4Refuses 0 64 = false ∧
    svcOwned.planAreaOf (svcOwned.bar4Base + 0) 64 = some 5 ∧ svcOwned.windowUp = true ∧
    svcOwned.memRuns none (svcOwned.bar4Base + 0) 64 = true ∧
    (({ svc with plans := svcOwned.plans } : State).planAreaOf 0 64).isSome = true := by decide +kernel

/-- The hypotheses of ConfigurationAndPowerStates are met, before and after the function is configuration-ready. -/
theorem wit_config : svc.hub.takeover = false ∧ svc.boot.powered = true ∧ svc.boot.linkUp = true ∧
    svc.hub.linkLoopback = false ∧ svc.hub.farEnd = false ∧ svc.boot.cfgReady = true ∧ svc.barUp = true ∧
    1 ≤ svc.boot.stage ∧ ({ svc.boot with cfgReady := false } : Boot).cfgReady = false := by decide

/-- A write of the MSI-X control byte meets its hypotheses. -/
theorem wit_config_msix : Config.msixControlOff ≤ Config.msixControlOff + 1 ∧
    Config.msixControlOff + 1 < Config.msixControlOff + 4 := by omega

/-- The hypotheses of Doorbells are met: a ring that is ON and one that is OFF, a value below and at the size, and a
context that is ON with no entry waiting. -/
theorem wit_doorbell : svc.windowUp = true ∧ ((1 : W32)).toNat < (svcFn (.ring 5) { st := .on }).ringSize 5 ∧
    (svcFn (.ring 5) { st := .on }).ringSize 5 ≤ (2 : W32).toNat ∧
    ((svcFn (.ring 5) { st := .on }).fn (.ring 5)).st ≠ .off ∧ (svc.fn (.ring 5)).st = .off ∧
    ((3 : W32)).toNat < (svcFn (.ctx 5) { st := .on }).evqSize 5 ∧ ((svcFn (.ctx 5) { st := .on }).ctx 5).evWait = [] ∧
    ((svcFn (.ctx 5) { st := .on }).fn (.ctx 5)).st ≠ .off := by decide +kernel

/-- A module in service with a started SEM_WAIT of LIMIT 1 µs for the value 1 on ring 4 of context 1, silent or not,
its event ring with room or full. -/
def svcWait (flags : Byte) (cons : Nat) : State :=
  { svc with
    now := 5000
    nextSeq := 8
    ctxs := [(1, { cons })]
    descs := [{ seq := 7, ring := 4, slot := 2, ty := 7, st := .started, time := 0
                bytes := [7, flags, 0, 0, 0, 0, 0, 0, 1, 0, 0, 0, 1, 0, 0, 0] }] }

/-- The hypotheses of DescriptorCompletion are met: SILENT; not SILENT with room; not SILENT with the ring full. -/
theorem wit_completion : ((svcWait 1 0).started 7 0x07).isSome = true ∧
    ((svcWait 1 0).started 7 0x07).any (fun x => (svcWait 1 0).limitOver x && decide ((svcWait 1 0).semOf x < leAt x.bytes 0x08 4)) = true ∧
    leAt [7, (1 : Byte)] 1 1 % 2 = 1 ∧ leAt [7, (0 : Byte)] 1 1 % 2 ≠ 1 ∧
    ((svcWait 0 5).started 7 0x07).isSome = true ∧ (svcWait 0 5).evqRoom 1 = true ∧ ((svcWait 0 5).ctx 1).evWait = [] ∧
    (svcWait 0 1).evqRoom 1 = false ∧ (∀ f, Clear (svcWait f 0) ((svcWait f 0).slotAddr 4 2 + 0x38) 8) ∧
    ∀ f, Clear (svcWait f 0) (((svcWait f 0).reg .hifCtxEvqBase 0 1 0).toNat + 16 * ((svcWait f 0).ctx 1).prod) 16 := by
  refine ⟨?_, ?_, ?_, ?_, ?_, ?_, ?_, ?_, fun f _ => ⟨rfl, rfl⟩, fun f _ => ⟨rfl, rfl⟩⟩ <;> decide +kernel

/-- The hypotheses of SlotFetch are met for each of its commands, and where the fetcher stops. -/
theorem wit_slotFetch : ([(5, slotOf 5 0 []), (6, slotOf 6 0 [0, 0, 0, 0, 0, 0, 1]), (7, slotOf 7 0 []), (0x0E, slotOf 0x0E 0 [])].all
      (fun (ty, b) => (svcSlot b).fetchable 4 && decide (leAt ((svcSlot b).headBytes 4) 0 1 = ty) &&
        !(svcSlot b).hub.outOfService && ((svcSlot b).commonCheck 1 ((svcSlot b).headBytes 4)).isNone)) = true ∧
    ((svcSlot []).grantFor 4).isSome = true ∧ ownSet ((svcSlot []).headBytes 4) = false ∧ ∀ b, FlightOk (svcSlot b) := by
  refine ⟨by decide +kernel, by decide +kernel, by decide +kernel, fun b =>
    ⟨List.Pairwise.nil, fun x hx => (by cases hx), Nat.zero_le _, fun r => Nat.zero_le _⟩⟩

/-- The case of SlotFetch in which the slot meets an uncorrectable codeword is met. -/
theorem wit_slotBad : (let s := { svcSlot (slotOf 5 0 []) with bad := [0] }
    s.slotBad 4 = some 0 ∧ (s.grantFor 4).isSome = true) ∧ (svcSlot []).slotBad 4 = none := by decide +kernel

/-- The hypotheses of RefusedAtFetch are met for each command: a reserved bit of byte 0x37 is set; each OP of a
collective block. -/
theorem wit_refused : ([(0 : Byte), 2, 3, 4, 5, 6, 7, 8, 9, 0x0A, 0x0B, 0x0C, 0x0D, 0x0E, 0x0F, 1].all (fun ty =>
      let s := svcSlot (slotOf ty 1 (List.replicate 53 0 ++ [1]))
      s.fetchable 4 && decide (leAt (s.headBytes 4) 0 1 = ty.toNat) && s.chainWaiting.isEmpty &&
        decide ((s.fetch 4).1.commonCheck 1 (s.headBytes 4) = some (stBadDesc, 0x0501)))) = true ∧
    ([(0 : Byte), 2, 3, 4, 5].all (fun op =>
      let s := (svcSlot (slotOf 0x0D 1 ([0, 0, 0, 0, 0, 0, 0, 0, 0x80] ++ List.replicate 44 0 ++ [1]))).devWrite 0x800000 [op]
      decide (s.slotOp (s.headBytes 4) = op.toNat))) = true ∧
    (svcSlot (slotOf 5 1 (List.replicate 53 0 ++ [1]))).hub.outOfService = false ∧
    ∀ b, Clear (svcSlot b) ((svcSlot b).slotAddr 4 ((svcSlot b).headSlot 4) + 0x38) 8 := by
  refine ⟨?_, ?_, ?_, fun b _ => ⟨rfl, rfl⟩⟩ <;> decide +kernel

/-- The hypotheses of DmaStart are met: a COPY, a FILL and a COMPARE of 128 KiB on queues 2 and 3. -/
def svcDma (ty : Byte) : State :=
  let s := svcSlot (slotOf ty 0 ([2, 2, 0, 0] ++ (if ty = 4 then [1, 0] else [0, 0]) ++ [0, 0, 2, 0, 0, 0, 0, 0] ++
    (if ty = 2 then [0, 0, 0, 4, 0, 0, 0, 0] else [0, 0, 0, 0, 0, 0, 0, 0]) ++ [0, 0, 0, 8, 0, 0, 0, 0]))
  let s := (s.setFn (.dmaq 2) { st := .on }).setFn (.dmaq 3) { st := .on }
  (s.setReg .dmaQCfg 0 2 0 0x400000).setReg .dmaQCfg 0 3 0 0x400000

theorem wit_dmaStart : ([(2 : Byte), 3, 4].all (fun ty =>
      let s := svcDma ty
      let x : Desc := { seq := s.nextSeq, ring := 4, slot := s.headSlot 4, ty := ty.toNat, bytes := s.headBytes 4, time := s.now }
      s.fetchable 4 && decide (leAt (s.headBytes 4) 0 1 = ty.toNat) && (s.commonCheck 1 (s.headBytes 4)).isNone &&
        (s.dmaCheck x).isNone && x.spread.all (fun q => s.fnIs (.dmaq q) .on) && s.descs.isEmpty && !s.hub.outOfService)) = true := by
  decide +kernel

/-- A module in service with a started transfer of 128 KiB: chunks 0 and 16 of its part 0 on queue 2, or nothing left;
a FILL into device memory, or a COMPARE of host memory with PATTERN. -/
def svcWork (ty : Byte) (left : Bool) : State :=
  let s := (svcFn (.ctx 1) { st := .on }).setFn (.dmaq 2) { st := .on }
  let s := s.setReg .hifCtxRange 0 1 0 0x40000
  { s with
    nextSeq := 8
    dmaq := if left then [(2, [{ seq := 7, part := 0, chunks := [0, 16] }])] else []
    descs := [{ seq := 7, ring := 4, slot := 0, ty := ty.toNat, st := .started
                bytes := slotOf ty 1 ([2, 1, 0, 0, 1, 0] ++ [0, 0, 0x20, 0, 0, 0, 0, 0] ++ [0, 0, 0, 0, 0, 0, 0, 0] ++
                  [0, 0, 0, 8, 0, 0, 0, if ty = 4 then 0x80 else 0] ++ [1, 2, 3, 4, 5, 6, 7, 8] ++ [0, 0, 0, 0, 0, 0, 0, 0x80]) }] }

/-- The hypotheses of DmaWork are met. -/
theorem wit_dmaWork : ((svcWork 3 true).dmaFront 2).isSome = true ∧
    ((svcWork 3 true).dmaFront 2).any (fun (p, x, _) => p.chunks.length == 2 && ((svcWork 3 true).sideFault 1 true x.dmaDst 65536).isNone) = true ∧
    ((svcWork 4 true).dmaFront 2).any (fun (_, x, _) => x.readsHost && x.ty == 4 && ((svcWork 4 true).sideFault 1 false x.dmaDst 65536).isNone) = true ∧
    (svcWork 3 true).colls = [] ∧ ((svcWork 3 false).started 7 3).isSome = true ∧ (svcWork 3 false).dmaOpen 7 = false ∧
    ((svcWork 4 false).started 7 4).any (fun x => isHost x.dmaResult) = true ∧
    ∀ ty l, Clear (svcWork ty l) ((svcWork ty l).slotAddr 4 0 + 0x38) 8 := by
  refine ⟨?_, ?_, ?_, ?_, ?_, ?_, ?_, fun ty l _ => ⟨rfl, rfl⟩⟩ <;> decide +kernel

/-- A module in service with one started descriptor of a type, silent, on ring 4 of context 1, and a held SEM_SIGNAL
after it. -/
def svcOrder (ty : Byte) (b : List Byte) : State :=
  { svc with
    now := 5000
    nextSeq := 9
    descs := [{ seq := 7, ring := 4, slot := 2, ty := ty.toNat, st := .started, time := 0, bytes := slotOf ty 1 b },
      { seq := 8, ring := 4, slot := 3, ty := 6, held := true, bytes := slotOf 6 0 [0, 0, 0, 0, 0, 0, 1] }] }

/-- The hypotheses of FencesAndSemaphores are met: a FENCE, a SEM_SIGNAL below and at the limit, a SEM_WAIT for 0 with and
without CONSUME, a TIMESTAMP and an ENERGY_QUERY to host address 0x1000. -/
theorem wit_orders : ((svcOrder 5 []).started 7 5).any (fun x => (svcOrder 5 []).coveredDone x) = true ∧
    (svcOrder 5 []).chainWaiting = [] ∧
    (svcOrder 5 []).descs.all (fun z => (!z.held || z.seq == 8) && (!fenceCovers z 4 || z.seq == 7 || 8 ≤ z.seq)) = true ∧
    Clear (svcOrder 5 []) ((svcOrder 5 []).slotAddr 4 2 + 0x38) 8 ∧
    (svcOrder 0x0E []).earlierOpen 7 (fun y => decide (y.ring = 4)) = false ∧
    ((svcOrder 6 [0, 0, 0, 0, 0, 0, 1]).started 7 6).any (fun x => (svcOrder 6 [0, 0, 0, 0, 0, 0, 1]).coveredDone x) = true ∧
    2 ^ 32 ≤ (((svcOrder 6 [0, 0, 0, 0, 0, 0, 0xFF, 0xFF, 0xFF, 0xFF]).setSem 1 0 0 1).sem 1 0 0) + leAt (slotOf 6 1 [0, 0, 0, 0, 0, 0, 0xFF, 0xFF, 0xFF, 0xFF]) 0x08 4 ∧
    ((svcOrder 7 []).started 7 7).isSome = true ∧ svc.newelUp (semDie 0) = true ∧
    (svc.modDie 0 (fun x => { x with takeover := true })).newelUp (semDie 0) = false ∧
    ((svcOrder 0x0E [0, 0, 0, 0, 0, 0, 0, 0x10, 0, 0, 0, 0, 0, 0x80]).started 7 0x0E).any (fun x => isHost (leAt x.bytes 8 8)) = true ∧
    isHost ((svcOrder 0x0E []).slotAddr 4 2 + 0x38) = false ∧
    (let s := svcSlot (slotOf 0x0F 1 [0, 0, 0, 0, 0, 0, 0, 0x10, 0, 0, 0, 0, 0, 0x80])
     s.fetchable 4 = true ∧ leAt (s.headBytes 4) 0 1 = 0x0F ∧ s.commonCheck 1 (s.headBytes 4) = none ∧
      isHost (leAt (s.headBytes 4) 8 8) = true ∧ isHost (s.slotAddr 4 (s.headSlot 4) + 0x38) = false ∧
      s.descs.any (fun f => fenceCovers f 4) = false) := by
  unfold Clear; decide +kernel

/-- A module in service with a started descriptor of a type on ring 4 of context 1, which holds region 0, and a plan under
handle 3 in a state. -/
def svcPlan (ty : Nat) (st : PlanSt) (b : List Byte) : State :=
  { (svcFn (.ctx 1) { st := .on }).setReg .hifCtxRange 0 1 0 0x40000 with
    nextSeq := 8
    plans := [{ ctx := 1, handle := 3, st, area := 0x10000, size := 4096, loadSeq := 7, unloadSeq := some 7 }]
    descs := [{ seq := 7, ring := 4, slot := 2, ty, st := .started, bytes := slotOf (BitVec.ofNat 8 ty) 1 b }] }

/-- A PLAN_LOAD of an image of `len` bytes at host address 0x1000 under handle 3, its area at 0x10000. -/
def loadFields (len : Byte) : List Byte :=
  [3, 0, 0, 0, 0, 0] ++ [0, 0x10, 0, 0, 0, 0, 0, 0x80] ++ [0, len, 0, 0, 0, 0, 0, 0] ++ [0, 0, 1, 0, 0, 0, 0, 0] ++
    [0, 0x20, 0, 0, 0, 0, 0, 0x80]

/-- The hypotheses of PlanLifetime are met: a PLAN_LOAD at its fetch; one whose copy ends and fails a check; a
PLAN_UNLOAD at its fetch with and without a plan, and in effect. -/
theorem wit_plans :
    (let s := (svcSlot (slotOf 0x0B 1 (loadFields 0x10))).setReg .hifCtxRange 0 1 0 0x40000
     s.fetchable 4 = true ∧ leAt (s.headBytes 4) 0 1 = 0x0B ∧ s.commonCheck 1 (s.headBytes 4) = none ∧
      s.loadFetchCheck { seq := 0, ring := 4, slot := 0, ty := 0x0B, bytes := s.headBytes 4, time := s.now } = 0) ∧
    (let s := svcPlan 0x0B .loading (loadFields 0)
     (s.started 7 0x0B).any (fun x => isHost x.loadSrc && isHost x.loadReport && (s.writeFault 1 x.loadDst x.loadLen).isNone && s.memRuns none x.loadDst x.loadLen &&
       ((s.putBytes x.loadDst (s.anyRead x.loadSrc x.loadLen)).checkCopy 1 x.loadDst x.loadLen).1.isSome) = true) ∧
    (let s := { svcSlot (slotOf 0x0C 1 [3]) with plans := [{ ctx := 1, handle := 3, st := .loaded, area := 0, size := 4096, loadSeq := 0 }] }
     s.fetchable 4 = true ∧ s.commonCheck 1 (s.headBytes 4) = none ∧ (s.plan 1 3).isSome = true ∧ (s.plan 1 4) = none) ∧
    (let s := svcPlan 0x0C .unloading [3]
     (s.started 7 0x0C).any (fun x => x.handle == 3) = true ∧ s.namedBefore 1 3 7 = false) := by
  decide +kernel

/-- The hypotheses of ResetTriggers are met: a module in service, with STAGE 10; an unpowered module. -/
theorem wit_resets : svc.boot.powered = true ∧ svc.boot.linkUp = true ∧ svc.hub.takeover = false ∧ svc.henlanUp = true ∧
    WritesAt svc .bar0 (RegId.off .secReset 0 0 0) ∧ WritesAt svc (.henlan 0) (RegId.off .secReset 0 0 0) ∧
    3 ≤ (svc.setStage 10).regFld .secBootStatus 0 0 0 3 0 ∧
    (svc.setStage 2).regFld .secBootStatus 0 0 0 3 0 < 3 ∧
    WritesAt (svc.setStage 10) .bar0 (RegId.off .secReset 0 0 0) ∧ WritesAt (svc.setStage 2) .bar0 (RegId.off .secReset 0 0 0) ∧
    ({ svc with boot := { svc.boot with powered := false } } : State).boot.powered = false := by
  unfold WritesAt; decide +kernel

/-- A module in start-up with a step completed and an image in each bank. -/
def svcBoot (k : Nat) (a b : Image) : State :=
  { State.reset with boot := { powered := true, stage := k }, store := { State.reset.store with imgA := a, imgB := b } }

/-- The hypotheses of StartupSteps are met at every step, with good and bad images, with and without the link, and out
of power, in recovery and out of service. -/
theorem wit_startup : (∀ k : Fin 11, Starting (svcBoot k.val {} {}) k.val) ∧
    (svcBoot 1 {} {}).boot.resetReqLow = false ∧ romCheck ((svcBoot 1 {} {}).bankImage false) 0 = 0 ∧
    romCheck ((svcBoot 1 { headerOk := false } {}).bankImage false) 0 ≠ 0 ∧
    romCheck ((svcBoot 1 { headerOk := false } {}).bankImage true) 0 = 0 ∧
    romCheck ((svcBoot 1 { headerOk := false } { svn := 0, sigOk := false }).bankImage true) 0 ≠ 0 ∧
    (svcBoot 3 {} {}).boot.linkUp = false ∧ (svcBoot 4 {} {}).fw.running.digestsOk = true ∧
    ({ svcBoot 4 {} {} with fw := { running := { digestsOk := false } } } : State).fw.running.digestsOk = false ∧
    (svcBoot 4 {} {}).regFld .secBootStatus 0 0 0 8 8 ≠ 1 ∧
    romCheck ((svcBoot 4 {} {}).bankImage (!(svcBoot 4 {} {}).runBank)) 0 = 0 ∧
    ((svcBoot 4 {} {}).setRegFld .secBootStatus 0 0 0 8 8 1).regFld .secBootStatus 0 0 0 8 8 = 1 ∧
    (svcBoot 10 {} {}).fab.selfAdmitted = false ∧ ({ svcBoot 4 {} {} with boot := { powered := true, stage := 4, oos := true } } : State).boot.oos = true := by
  unfold Starting; decide +kernel

/-- A requester that has negotiated on both transports, with a session, a waiting response and a large one. -/
def svcSpdm : State :=
  let c : Spdm := { stage := 3, sessions := [(7, true), (8, false)], nextSession := 9, notReady := some (5, .heartbeatAck)
                    chunks := [1], chunkNo := 1, large := [1], handle := 1 }
  { svc with spdmDoe := c, spdmMctp := c, hub := { svc.hub with canSignA := true } }

/-- The hypotheses of SpdmConnection are met on both transports, before and after step 3. -/
theorem wit_spdm : Talks svcSpdm .doe ∧ Talks svcSpdm .mctp ∧ 3 ≤ (svcSpdm.spdm .doe).stage ∧ svcSpdm.canSign = true ∧
    (svcSpdm.spdm .mctp).notReady = some (5, .heartbeatAck) ∧ (svcSpdm.spdm .doe).chunkNo ≠ 0 ∧
    0 + 1 = (svcSpdm.spdm .doe).handle ∧ 0 * Config.spdmTransfer < (svcSpdm.spdm .doe).large.length ∧
    (svc.spdm .doe).stage < 1 ∧ Talks svc .doe ∧ svc.canSign = false ∧
    (svc.setStage 2).spdmCarried .mctp = true ∧ (svc.setStage 2).boot.stage < 3 := by
  unfold Talks
  rw [Nat.zero_mul]
  decide +kernel

/-- The hypotheses of SpdmSignedAndSessions are met: an established and a half-open session, four sessions. -/
theorem wit_sessions : Talks svcSpdm .doe ∧ 3 ≤ (svcSpdm.spdm .doe).stage ∧ svcSpdm.canSign = true ∧
    (svcSpdm.spdm .doe).sessions.length < 4 ∧ svcSpdm.session .doe 8 = some false ∧ svcSpdm.session .doe 7 = some true ∧
    svcSpdm.session .doe 1 ≠ some true ∧ Talks { svcSpdm with spdmDoe := { stage := 3, sessions := [(0, true), (1, true), (2, true), (3, true)] } } .doe ∧
    4 ≤ (({ svcSpdm with spdmDoe := { stage := 3, sessions := [(0, true), (1, true), (2, true), (3, true)] } } : State).spdm .doe).sessions.length := by
  unfold Talks; decide +kernel

/-- The hypotheses of SecurityControls are met: in service with an SVN to commit, in recovery with an image in host
memory, with a good and a bad trace ring. -/
theorem wit_controls : WritesAt svc .bar0 (RegId.off .secCtl 0 0 0) ∧ WritesAt svc .bar0 (RegId.off .trcDev 0 0 0) ∧
    WritesAt svc .bar0 (RegId.off .trcCtl 0 0 0) ∧ svc.traceRingBad = true ∧
    (svc.setReg .trcRingSize 0 0 0 0x100000).traceRingBad = false ∧ svc.fw.running.svn ≤ svc.store.cur.svnFloor ∧
    ({ svc with fw := { running := { svn := 1 } } } : State).store.cur.svnFloor < 1 ∧
    (let r := { svc with boot := { svc.boot with recovery := true, stage := 1 } }
     let r := (r.setReg .secRcvSrc 0 0 0 0x8000000000000000).setReg .secRcvLen 0 0 0 64
     WritesAt r .bar0 (RegId.off .secCtl 0 0 0) ∧ r.boot.recovery = true ∧ isHost (r.reg .secRcvSrc 0 0 0).toNat = true ∧
     (r.imageBytes (r.reg .secRcvSrc 0 0 0).toNat (r.reg .secRcvLen 0 0 0).toNat).isSome = true) ∧
    (imageOf []).check 0 ≠ 0 := by
  unfold WritesAt; decide +kernel

/-- The hypotheses of LinkTraining are met before training: lane 9 fails and the link trains x8 on lanes 0 to 7, lane 5
fails and it trains on lanes 8 to 15, every lane fails and it trains at no width. -/
theorem wit_train : (let s : State := { svc with boot := { svc.boot with linkUp := false } }
    s.boot.powered = true ∧ s.boot.perstLow = false ∧ s.hub.linkLoopback = false ∧ 3 ≤ s.boot.stage ∧
      fld (s.reg .hifLinkCtl 0 0 0) 4 3 = 0) ∧
    (∀ k ∈ lanesOf 1 false, (0x200#16).getLsbD k = false) ∧ (∀ r', ∃ k ∈ lanesOf 0 r', (0x200#16).getLsbD k = true) ∧
    (∀ k ∈ lanesOf 1 true, (0x20#16).getLsbD k = false) ∧ (∃ k ∈ lanesOf 1 false, (0x20#16).getLsbD k = true) ∧
    (∀ w' < 3, ∀ r', ∃ k ∈ lanesOf w' r', (0xFFFF#16).getLsbD k = true) := by decide +kernel

/-- The hypotheses of LinkTraining are met in service: lane 9 is not in use, lane 5 of an x8 link leaves lanes 0 to 3, lane
2 of an x8 link the reversed x4; and before job-ready lane 2 of an x4 link with lane 13 out leaves none. -/
theorem wit_narrow : (let s := svc.setReg .hifLinkStatus 0 0 0 (linkStatus 1 false 1 3)
      s.boot.linkUp = true ∧ s.regFld .hifLinkStatus 0 0 0 4 3 = 1 ∧ (s.reg .hifLinkStatus 0 0 0).getLsbD 6 = false ∧
      s.hub.badLanes = 0 ∧ (9 : Nat) ∉ lanesOf 1 false) ∧
    (5 : Nat) ∈ lanesOf 1 false ∧ (∀ k ∈ lanesOf 2 false, (0x20#16).getLsbD k = false) ∧
    (2 : Nat) ∈ lanesOf 1 false ∧ (∀ k ∈ lanesOf 2 true, (0x4#16).getLsbD k = false) ∧
    (∃ k ∈ lanesOf 2 false, (0x4#16).getLsbD k = true) ∧
    (let s := svc.setReg .hifLinkStatus 0 0 0 (linkStatus 2 false 2 3)
      let s : State := { s with boot := { s.boot with stage := 9 }, hub := { s.hub with badLanes := 0x2000 } }
      s.boot.linkUp = true ∧ s.regFld .hifLinkStatus 0 0 0 4 3 = 2 ∧ (2 : Nat) ∈ lanesOf 2 false ∧ s.boot.stage < 10 ∧
        s.boot.oos = false ∧ s.hub.outOfService = false) := by decide +kernel

/-- The hypotheses of Loopbacks are met in service: through Henlan for 1 s, on a bypassed port, and with a pass of
depth 3 running. -/
theorem wit_loopbacks : WritesAt svc (.henlan 0) (RegId.off .hifLoopback 0 0 0) ∧ svc.allCtxOff = true ∧
    svc.hub.linkLoopback = false ∧ svc.boot.linkUp = true ∧ svc.hub.farEnd = false ∧
    WritesAt svc .bar0 (RegId.off .lndLoopback 2 1 0) ∧ (svc.fring (portRing 5)).st = .bypassed ∧
    (let s : State := { svc.setReg .hifLoopback 0 0 0 0x101 with now := 1000000000, hub := { svc.hub with linkLoopback := true } }
     s.hub.loopSince + s.regFld .hifLoopback 0 0 0 15 8 * 1000000000 ≤ s.now) ∧
    WritesAt svc (.henlan 0) (RegId.off .lndLoopback 2 1 0) ∧
    ((svc.modFring (portRing 5) (fun x => { x with st := .admitted })).fring (portRing 5)).st = .admitted ∧
    WritesAt svc .bar0 (RegId.off .mcLoopback 7 3 0) ∧ WritesAt svc .bar0 (RegId.off .medLoopback 7 0 0) ∧
    (svc.setReg .mcLoopback 7 3 0 3).regFld .mcLoopback 7 3 0 1 0 = 3 ∧
    (svc.setReg .mcLoopback 7 3 0 3).regFld .mcLoopback 7 3 0 30 30 = 0 ∧
    (svc.setReg .medLoopback 7 0 0 1).regFld .medLoopback 7 0 0 1 0 = 1 ∧
    (svc.setReg .lndLoopback 2 1 0 2).regFld .lndLoopback 2 1 0 2 0 = 2 ∧ inHbm 0x1C000 = true ∧ svc.stackOf 0x1C000 = 28 ∧
    ringPort 0 true = 8 ∧ portRing 8 = 0 ∧ (let s := (svc.setReg .fabDims 0 0 0 1).modFring 0 (fun x => { x with st := .admitted })
     let s : State := { s with fab := { s.fab with admittedAddrs := [1] } }
     (s.fring (portRing 8)).st = .admitted ∧ s.nextOn s.ownAddr ((portRing 8).val / 2) true = some 1) := by
  unfold WritesAt; decide +kernel

/-- A DISPATCH of context 1 on die 0. -/
def dspOf (seq : Nat) (st : DispSt) (deadline : Option Nat) : Disp :=
  { seq, ctx := if seq = 1 then 1 else 2, ring := 4, slot := 0, fetchNo := 0, handle := 0, entry := 0, variant := 0, dies := [0]
    sections := [], ndim := 0, dims := [], args := [], deadline, budget := none, cost := 0, mhz := 1400, watchdogMs := 0
    role := 0, group := 0, st }

/-- The hypotheses of Dispatching are met: a ready DISPATCH alone, with and without a switch; one with a deadline in the
way of another context's; a switch at each step; and a running one that has finished. -/
theorem wit_dispatch : (let s := { svc with disps := [dspOf 1 .ready none] }
    s.canStart (dspOf 1 .ready none) = true ∧ s.needsSwitch (dspOf 1 .ready none) = false ∧
    (let u := s.modDie 0 (fun x => { x with lastCtx := some 2 })
     u.canStart (dspOf 1 .ready none) = true ∧ u.needsSwitch (dspOf 1 .ready none) = true)) ∧
    (let s := { svc with disps := [dspOf 1 .ready (some 9), dspOf 2 .running none] }.modDie 0 (fun x => { x with run := some 2 })
     s.firstInOrder (dspOf 1 .ready (some 9)) = true ∧ s.victims (dspOf 1 .ready (some 9)) = [dspOf 2 .running none] ∧
     s.freeBut (dspOf 1 .ready (some 9)) [2] = true ∧ s.newelUp 0 = true) ∧
    (let s := { svc with disps := [dspOf 1 .switching none, dspOf 2 .preempted none],
                         switches := [{ step := 1, inSeq := 1, dies := [0], outs := [2], outCtxs := [(0, 2)] }] }.modDie 0
        (fun x => { x with run := some 2, lastCtx := some 2 })
     s.drained 0 = true ∧ (s.disp 2).isSome = true ∧ s.liveState 2 0 = true ∧ (∀ d ∈ [(0 : Die)], s.newelUp d = true) ∧
       (∀ n ∈ s.liveOuts [0] 1, s.dmaBusy n = false) ∧ 2 ∈ s.liveOuts [0] 1 ∧ (s.switches.find? (fun v => v.inSeq == 1)).isSome = true ∧
       s.recovery = none) ∧
    (let s := { svc with disps := [dspOf 1 .running none] }
     s.finished (dspOf 1 .running none) = true ∧ s.recovery = none ∧ s.hub.takeover = false) ∧
    (∃ x, (svcOrder 1 []).desc 7 = some x ∧ x.st ≠ .done) := by
  refine ⟨?_, ?_, ?_, ?_, _, rfl, ?_⟩ <;> decide +kernel

/-- The example of R419 as an account and as readings: contexts 2 and 5 held die 7 for 35 and 65 µs, and the group of
domain 28 took 7,403 µJ. -/
def exAccount : SMap Nat := [(acHold 7 2, 35000), (acHold 7 5, 65000)]
def exDies : List DieMeas := List.replicate 7 ({} : DieMeas) ++ [({ vcg := [7403000, 0, 0, 0] } : DieMeas)]

/-- A module in service with contexts 2 and 5 ON and an interval to account for. -/
def svcLedger : State :=
  { (svcFn (.ctx 2) { st := .on }).setFn (.ctx 5) { st := .on } with now := 200000, ledgerQ := [(200000, exAccount)] }

/-- The hypotheses of EnergyLedger are met, with the shares of R419's example; a feed at each bound of R397; a DISPATCH at
its budget, with no context open; and a refinement. -/
theorem wit_ledger : svcLedger.boot.powered = true ∧ svcLedger.hub.takeover = false ∧ ledgerOk exDies = true ∧
    svcLedger.ctxOpen 2 = true ∧ shareOf svcLedger exDies 0 exAccount 2 28 = 2591 ∧
    shareOf svcLedger exDies 0 exAccount 5 28 = 4811 ∧ svcLedger.boot.feedA = true ∧
    ((340 : Nat) < 360 ∧ ¬ (360 : Nat) < 360 ∧ (480 : Nat) < 481 ∧ (500 : Nat) ≤ 500) ∧
    (let y := { dspOf 1 .running none with budget := some 0 }
     let s : State := { svc with disps := [y], ledgerQ := [(100000, [(acRan 1, 5)])] }
     s.boot.powered = true ∧ s.hub.takeover = false ∧ SMap.getD [(acRan 1, 5)] (acRan y.seq) 0 ≠ 0 ∧ y.capped = false) ∧
    (∀ n, svc.ctxOpen n = false) ∧ svc.store.cur.ecalAt = none ∧ 10 ≤ svc.boot.stage ∧ (List.replicate 19 302).length = 19 := by
  decide +kernel

/-- The hypotheses of TimedEvents are met: a sample of context 1 on die 0 is due; ring 4 has held an event back, and none. -/
theorem wit_timed : (let s := (svcFn (.ctx 1) { st := .on }).modDie 0 (fun x => { x with due := [(1000000, 1, {})] })
      (s.die 0).due = [(1000000, 1, {})] ∧ (∀ e, e ≠ 0 → (s.die e).due = []) ∧ s.ctxOpen 1 = true ∧
      ({} : Counters).cyc.length = 5 ∧ s.colls = []) ∧
    (let s := svc.modRing 4 (fun x => { x with held := true, holdoffEnd := some 0 })
     (s.ring 4).holdoffEnd = some 0 ∧ (s.ring 4).held = true ∧ s.hub.msixFnMask = false ∧ svc.hub.msixEnable = true ∧
       s.hub.takeover = false) ∧
    ((svc.modRing 4 (fun x => { x with holdoffEnd := some 0 })).ring 4).held = false ∧
    (svc.setReg .msixCtl 0 4 0 0).regFld .msixCtl 0 4 0 0 0 = 0 := by decide +kernel

/-- A record as a number: opcode, FUNC, the byte at 18 that holds DIR and PEER_DIE, and extents of one element. -/
def recOf (op f dir : Nat) : Nat :=
  op + 2 ^ 96 + 2 ^ 112 + 2 ^ 128 + dir * 2 ^ 144 + 2 ^ 152 + f * 2 ^ 168

/-- A record placed for the DISPATCH 1 of context 1. -/
def plOf (pos : Nat) (st : PlSt) (raw : Nat) : Placed :=
  { seq := 1, ctx := 1, stream := 0, idx := pos, raw := BitVec.ofNat 256 raw, opdBase := 0, pos, st }

/-- A module in service that runs DISPATCH 1 of context 1 on die 0, with records on physical core 0, its logical core 0. -/
def svcRun (q : List Placed) : State :=
  let s := ((svcFn (.ctx 1) { st := .on }).setFn (.core 0 0) { st := .on, en := true }).setFn (.teasel 0) { st := .on, en := true }
  let s := (s.setFn (.vetch 0) { st := .on, en := true }).modCore 0 0 (fun k =>
    { k with role := .inService, logical := some 0, queue := q, nextPos := 9 })
  { s with disps := [dspOf 1 .running none], nextSeq := 2 }

/-- Whether the next record of an opcode may issue in `Issues`. -/
def issuesB (s : State) (op : Nat) (ok : Nat → Bool) : Bool :=
  (s.candidate 0 0 (unitOf op)).any (fun e => e.x.op == op && ok e.r && s.mayIssue e &&
    (badMet (coreBase e.d.val e.p.val) (s.core e.d e.p).badLines ((s.markIssued e).recReads e)).isNone)

/-- The hypotheses of TileRecords are met for each of its forms. -/
theorem wit_tile : ([(opMM, 0, anyRec), (opMV, 0, anyRec), (opCONV, 0, anyRec), (opATTB, 0, anyRec), (opATTM, 0, anyRec),
      (opVEC, 1, anyRec), (opNORM, 1, anyRec), (opRED, 0x0F, fun r => decide (vFunc r < 0x10)),
      (opRED, 0x10, fun r => vFunc r == 0x10), (opRED, 0x11, fun r => vFunc r == 0x11), (opSORT, 0, anyRec), (opNMS, 0, anyRec),
      (opBOXD, 0, anyRec), (opLOAD, 0, anyRec), (opSTORE, 0, anyRec), (opPREF, 0, anyRec),
      (opQSCL, 1, fun r => vFunc r == 0x01), (opQSCL, 2, fun r => vFunc r == 0x02), (opDQSC, 0, anyRec),
      (opGNRM, 1, fun r => vFunc r == 0x01), (opGNRM, 2, fun r => vFunc r == 0x02), (opGNRM, 3, fun r => vFunc r == 0x03),
      (opRNGM, 1, fun r => vFunc r == 0x01), (opRNGM, 2, fun r => vFunc r == 0x02)] : List (Nat × Nat × (Nat → Bool))).all
    (fun (op, f, ok) => issuesB (svcRun [plOf 0 .placed (recOf op f 0)]) op ok) = true := by decide +kernel

/-- Its cases are met: an empty record, a residue mismatch of a VEC with elements, a checksum mismatch of an MM. -/
theorem wit_tile_cases : (let s := svcRun [plOf 0 .placed opVEC]
      issuesB s opVEC anyRec = true ∧ (s.candidate 0 0 .vector).any (fun e => isEmptyRec e.r e.y.dims && !rZfill e.r) = true) ∧
    (let s := svcRun [plOf 0 .placed (recOf opVEC 1 1)]
     issuesB s opVEC anyRec = true ∧
      (s.candidate 0 0 .vector).any (fun e => (s.markIssued e).residueChecked e && !isEmptyRec e.r e.y.dims) = true) ∧
    (let s := svcRun [plOf 0 .placed (recOf opMM 1 1 + 2 ^ 176)]
     issuesB s opMM anyRec = true ∧ (s.candidate 0 0 .array).any (fun e => !isEmptyRec e.r e.y.dims) = true) ∧
    unitOf opMM = .array ∧ csumAction { run := 0, rows := [3], cols := [5] } = 2 := by decide +kernel

/-- Core 0 of die 0 has met a mismatch and its record awaits replay; or it has stopped for a move to core 28, thermal or
not, its records not issued. -/
def svcRepair (thermal : Bool) : State :=
  ((svcRun [plOf 0 .placed (recOf opMM 1 1)]).modCore 0 28 (fun k => { k with role := .spare })).modCore 0 0 (fun k =>
    { k with stopped := true, retireTo := some 28, thermalMove := thermal })

/-- The hypotheses of CoreRepair are met in each clause: eight corrected errors of a bank and of the accumulator store;
both spare banks free, the first in use, both in use; and a copy to spare 1 under way. -/
theorem wit_repair : ((svcRun [plOf 0 .issued (recOf opMM 1 1)]).modCore 0 0 (fun k => { k with replay := some 0 })).replayNext 0 0 ≠ none ∧
    (∀ th, ((svcRepair th).core 0 0).retireTo = some 28 ∧ (svcRepair th).retireReady 0 0 = true ∧
      ((svcRepair th).core 0 0).thermalMove = th) ∧
    (let s := (svcRun []).modCore 0 0 (fun k => { k with ceTimes := [(5, List.replicate 8 0), (32, List.replicate 8 0)] })
     s.fnIs (.core 0 0) .on = true ∧ (s.core 0 0).stopped = false ∧ eightCe (SMap.getD (s.core 0 0).ceTimes 5 []) s.now = true ∧
       eightCe (SMap.getD (s.core 0 0).ceTimes 32 []) s.now = true ∧ fld (s.reg .coreSpadMap 0 0 0) 5 0 = 0x3F ∧
       fld ((s.setReg .coreSpadMap 0 0 0 0x3F01).reg .coreSpadMap 0 0 0) 13 8 = 0x3F ∧
       fld ((s.setReg .coreSpadMap 0 0 0 0x0201).reg .coreSpadMap 0 0 0) 13 8 ≠ 0x3F ∧
       (s.core 0 0).role = .inService ∧ (s.core 0 0).retireTo = none ∧ s.spareCores 0 ≠ []) ∧
    fld ((svc.setReg .coreSpadMap 0 0 0 0x4201).reg .coreSpadMap 0 0 0) 14 14 = 1 := by
  refine ⟨by decide +kernel, ?_, by decide +kernel, by decide +kernel⟩
  intro th; cases th <;> decide +kernel

/-- Its cases are met: no core of the module waits for a move, a move of the die is under way, and none. -/
theorem wit_retiring : svc.hub.takeover = false ∧ (∀ th k, ((svcRepair th).core 0 k).retireWait = false) ∧
    ((svcRun []).die 0).moving = none ∧ (((svcRun []).modDie 0 (fun x => { x with moving := some 3 })).die 0).moving ≠ none ∧
    ((svcRun []).core 0 0).retireWait = false ∧ ((svcRun []).core 0 0).thermalMove = false := by
  refine ⟨rfl, ?_, ?_, ?_, ?_, ?_⟩
  · intro th; cases th <;> decide +kernel
  all_goals decide +kernel

/-- Two cores of die 0 that exchange data: core 0 sends to stream 1 on core 1, whose receive has issued and granted its
credit. -/
def svcSend (op : Nat) : State :=
  let k : Placed := { plOf 0 .issued (op + 0x80 * 2 ^ 144) with stream := 1, data := false }
  let s := (svcRun [plOf 0 .placed (op + 2 ^ 136)]).modCore 0 1 (fun z =>
    { z with role := .inService, logical := some 1, queue := [k] })
  { s with credits := [{ op, seq := 1, rDie := 0, rStream := 1, sDie := 0, sStream := 0, pos := 0 }] }

/-- The hypotheses of MovesBetweenCores are met by ROT and HALO, receiving and sending. -/
theorem wit_moves : ([opROT, opHALO].all (fun op =>
      let s := svcRun [plOf 0 .placed (op + 0x80 * 2 ^ 144)]
      (s.candidate 0 0 .move true).any (fun e => e.x.op == op && isReceive e.r && s.mayIssue e &&
        (badMet (coreBase 0 0) (s.core 0 0).badLines ((s.markIssued e).recReads e)).isNone))) = true ∧
    ([opROT, opHALO].all (fun op =>
      let s := svcSend op
      issuesB s op isSend && (s.candidate 0 0 .move).any (fun e => (s.creditOf e).any (fun k =>
        (s.recordAt k.rDie k.rStream k.seq k.pos).any (fun f =>
          s.clockRuns f.d (islCore f.p) && s.pathRuns (s.diePath e.d.val f.d.val)))))) = true := by decide +kernel

/-- A RACC of an armed owner of an open REDUCE_SCATTER meets them too, empty and not. -/
theorem wit_racc : ([opRACC, recOf opRACC 0 0].all (fun r =>
      let s : State := { svcRun [plOf 0 .placed r] with colls := [{ seq := 5, ctx := 1, block := List.replicate 128 0, start := 0, skipOwners := [0] }] }
      issuesB s opRACC anyRec && (s.candidate 0 0 .move).any (fun e => s.raccReady e && (isEmptyRec e.r e.y.dims == decide (r = opRACC))))) = true := by
  decide +kernel

/-- The hypotheses of SyncRecords are met: a BAR, a complete generation of one, a WAIT, a granted WAIT, a SIGNAL within and
past the limit. -/
theorem wit_sync : ((svcRun [plOf 0 .placed opBAR]).syncNext opBAR 0 0 State.allBefore).isSome = true ∧
    (((svcRun [plOf 0 .issued opBAR]).modCtx 1 (fun c => { c with
      bars := [{ id := 0, seq := 1, die := some 0, gen := 0, issued := [(0, 0)], count := 1 }] })).barReady 1 0 0).isSome = true ∧
    ((svcRun [plOf 0 .placed opWAIT]).syncNext opWAIT 0 0 State.allIssued).isSome = true ∧
    ((svcRun [plOf 0 .issued opWAIT]).waiting 0 0 opWAIT).isSome = true ∧
    (((svcRun [plOf 0 .issued opWAIT]).semGrant 0).any (fun g => g.1 == 0)) = true ∧
    (((svcRun [plOf 0 .placed (opSIGNAL + 2 ^ 128)]).syncNext opSIGNAL 0 0 State.signalMay).any (fun e =>
      decide ((svcRun []).sem 1 0 0 + syncValue e.r < 2 ^ 32) && syncValue e.r == 1)) = true ∧
    (let s := (svcRun [plOf 0 .placed (opSIGNAL + 2 ^ 128)]).setSem 1 0 0 (2 ^ 32 - 1)
     (s.syncNext opSIGNAL 0 0 State.signalMay).isSome = true ∧ s.sem 1 0 0 + 1 = 2 ^ 32) := by decide +kernel

/-- The hypotheses of its clauses on BARRIER_WATCHDOG and RECORD_COMPLETE are met. -/
theorem wit_sync_done : ((svcRun [{ plOf 0 .issued opBAR with waited := 1 }]).watchdogOver 0 0).isSome = true ∧
    (let s := svcRun [plOf 0 .issued (recOf opMM 1 1)]
     s.clockRuns 0 (islCore 0) = true ∧
     (s.modIsland 0 (islCore 0) (fun x => { x with stopped := true })).clockRuns 0 (islCore 0) = false ∧
     s.phys 0 0 = some 0 ∧ ((s.core 0 0).queue.find? (fun z => z.pos == 0)).any (fun x =>
       decide (x.st = .issued) && x.data && decide (x.unit ≠ .sync) && (s.envOf 0 0 x).isSome) = true ∧
     (s.die 0).teaRun = none) := by decide +kernel

/-- The hypotheses of TeaselAndVetch are met: a TCONV for Teasel and for the core, and one that Teasel runs. -/
theorem wit_teasel : (let s := svcRun [plOf 0 .placed (recOf opTCONV 0 1)]
      (s.candidate 0 0 .teasel).any (fun e => e.x.op == opTCONV && s.tconvReady e && s.coreIssues e) = true ∧
      (s.die 0).teaselOut = false ∧ s.fnIs (.teasel 0) .on = true ∧ s.clockRuns 0 islTeasel = true ∧ (s.die 0).teaRun = none) ∧
    (let s := (svcRun [plOf 0 .placed (recOf opTCONV 0 1)]).modDie 0 (fun x => { x with teaselOut := true })
     (s.candidate 0 0 .teasel).any (fun e => e.x.op == opTCONV && s.tconvReady e && s.coreIssues e &&
       (badMet (coreBase 0 0) (s.core 0 0).badLines ((s.markIssued e).recReads e)).isNone) = true ∧ (s.die 0).teaselOut = true) ∧
    (let s := (svcRun [plOf 0 .issued (recOf opTCONV 0 1)]).modDie 0 (fun x => { x with teaRun := some (plOf 0 .issued (recOf opTCONV 0 1)) })
     s.clockRuns 0 islTeasel = true ∧ (s.die 0).teaRun.isSome = true ∧ (s.holderOf 0 (plOf 0 .issued (recOf opTCONV 0 1))).isSome = true) := by decide +kernel

/-- Die 0 with a paged ATTB of one token at virtual address 0, region 0 in its context's range. -/
def svcPaged (tlb : List TlbEnt) : State :=
  ((svcRun [plOf 0 .placed (recOf opATTB 0 1 + 2 ^ 160 + 2 ^ 186)]).setReg .hifCtxRange 0 1 0 0x40000).modDie 0 (fun x => { x with tlb })

/-- Its clauses on Vetch are met: a fill of a paged ATTB with its page translated and not; a walk that ends in a page, one
that fails at level 1, and one that meets an uncorrectable codeword. -/
theorem wit_fill : (let s := svcPaged [⟨0, 0, 1, 0, 0x10000⟩]
      (s.fillNext 0 0).any (fun e => s.fillMay e && (s.readsFault 1 (s.stageRuns e (s.opd e (rB e.r 10 2)) (e.v 1) ++
        s.stageRuns e (s.opd e (rB e.r 12 2)) (e.v 1))).isNone && !(pagesOf (s.opd e (rB e.r 10 2)) (e.v 1)).isEmpty &&
        (pagesOf (s.opd e (rB e.r 10 2)) (e.v 1) ++ pagesOf (s.opd e (rB e.r 12 2)) (e.v 1)).all (fun g => (s.tlbFind 0 1 g).isSome)) = true) ∧
    (let s := svcPaged []
     (s.fillNext 0 0).any (fun e => s.fillMay e && !(pagesOf (s.opd e (rB e.r 10 2)) (e.v 1)).isEmpty) = true ∧ s.tlbFind 0 1 0 = none) ∧
    (let s := (svcPaged []).modDie 0 (fun x => { x with walks := [(1, vaPage 0)] })
     let t := ((s.devWrite 0 (toLe 8 0x4001)).devWrite 0x4000 (toLe 8 0x8001)).devWrite 0x8000 (toLe 8 0x10001)
     (s.die 0).walks.contains (1, vaPage 0) = true ∧ (s.walkReads 1 0 0).all (fun r => s.memRuns (some 0) r.1 r.2) = true ∧
       s.walk 1 0 0 = .fails 1 0 ∧ t.walk 1 0 0 = .page 0x10000 ∧
       (t.walkReads 1 0 0).all (fun r => t.memRuns (some 0) r.1 r.2) = true ∧
       ({ s with bad := [32] } : State).walk 1 0 0 = .memory 32) := by decide +kernel

/-- Of the naturals below a bound that meet a condition, one of the least and one of the greatest value of a function. -/
theorem least_of (f : Nat → Nat) (P : Nat → Prop) (h : ∃ w, P w) : ∃ w, P w ∧ ∀ v, P v → f w ≤ f v := by
  classical
  have h' : ∃ n w, P w ∧ f w = n := h.elim fun w hw => ⟨f w, w, hw, rfl⟩
  obtain ⟨w, hw, e⟩ := Nat.find_spec h'
  exact ⟨w, hw, fun v hv => e ▸ Nat.find_min' h' ⟨v, hv, rfl⟩⟩

theorem greatest_of (f : Nat → Nat) (P : Nat → Prop) (b : Nat) (hb : ∀ w, P w → w < b) (h : ∃ w, P w) :
    ∃ w, P w ∧ ∀ v, P v → f v ≤ f w := by
  classical
  obtain ⟨w, hw, hm⟩ := ((Finset.range b).filter P).exists_max_image f
    (h.elim fun w hw => ⟨w, Finset.mem_filter.2 ⟨Finset.mem_range.2 (hb w hw), hw⟩⟩)
  exact ⟨w, (Finset.mem_filter.1 hw).2, fun v hv => hm v (Finset.mem_filter.2 ⟨Finset.mem_range.2 (hb v hv), hv⟩)⟩

/-- Controller 0 of die 7 scrubbing, its last codeword read at a stack address or none yet. -/
def svcScrub (last : Option Nat) : State :=
  (svc.setReg .mcScrubCtl 7 0 0 0x118).modMc 7 0 (fun x => { x with scrubLast := last })

/-- A codeword to read next, found from the words left. -/
theorem scrub_next (last : Option Nat) (w : Nat) (hl : (svcScrub last).scrubLeft 7 0 (32 * w) = true)
    (hm : ∀ v < hbmWords, (svcScrub last).scrubLeft 7 0 (32 * v) = true →
      Config.stackAddr 28 (32 * w) ≤ Config.stackAddr 28 (32 * v)) :
    (svcScrub last).scrubNextOk 7 0 (256 * (w / 8) + 32 * (w % 8)) = true := by
  have e : (256 * (w / 8) + 32 * (w % 8)) / 32 * 32 = 32 * w := by omega
  have hd : ((svcScrub last).mc 7 0).scrubNext ≤ (svcScrub last).now := Nat.zero_le _
  simp only [State.scrubNextOk, e, Bool.and_eq_true, decide_eq_true_eq]
  exact ⟨⟨hl, hd⟩, hm⟩

/-- The hypotheses of HbmUpkeep on SCRUB_READ are met on controller 0 of die 7, whose stack 28 holds codeword 0x1C000: by the
first codeword of a pass, and by one that ends a pass. -/
theorem wit_scrub : (∀ l, (svcScrub l).mcUp 7 0 = true ∧ ((svcScrub l).reg .mcScrubCtl 7 0 0).getLsbD 8 = true) ∧
    (∃ block, ∃ word : Fin 8, (svcScrub none).scrubNextOk 7 0 (256 * block + 32 * word) = true) ∧
    ∃ l block, ∃ word : Fin 8, (svcScrub l).scrubNextOk 7 0 (256 * block + 32 * word) = true ∧
      ∀ w < hbmWords, (svcScrub l).scrubLeft 7 0 (32 * w) = true →
        Config.stackAddr 28 (32 * w) ≤ Config.stackAddr 28 (256 * block + 32 * word) := by
  have h0 : ∃ w, w < hbmWords ∧ (svcScrub none).scrubLeft 7 0 (32 * w) = true :=
    ⟨0xE00, by decide, by decide +kernel⟩
  refine ⟨fun l => ⟨rfl, (show _ from (by decide +kernel : ((svcScrub none).reg .mcScrubCtl 7 0 0).getLsbD 8 = true))⟩, ?_, ?_⟩
  · obtain ⟨w, ⟨hw, hl⟩, hm⟩ := least_of (fun w => Config.stackAddr 28 (32 * w)) _ h0
    exact ⟨w / 8, ⟨w % 8, by omega⟩, scrub_next none w hl fun v hv h => hm v ⟨hv, h⟩⟩
  · obtain ⟨w, ⟨hw, hl⟩, hm⟩ := greatest_of (fun w => Config.stackAddr 28 (32 * w)) _ hbmWords (fun _ h => h.1) h0
    have e : 256 * (w / 8) + 32 * (w % 8) = 32 * w := by omega
    have left : ∀ l v, (svcScrub l).scrubLeft 7 0 (32 * v) = true → (svcScrub none).scrubLeft 7 0 (32 * v) = true := by
      intro l v h
      have h := (Bool.and_eq_true_iff.1 h).1
      exact Bool.and_eq_true_iff.2 ⟨h, rfl⟩
    by_cases hz : Config.stackAddr 28 (32 * w) = 0
    · refine ⟨none, w / 8, ⟨w % 8, by omega⟩, scrub_next none w hl fun v hv h => by omega, fun v hv h => ?_⟩
      simpa only [e] using hm v ⟨hv, h⟩
    · let l := some (Config.stackAddr 28 (32 * w) - 1)
      have hlt : ∀ v, (svcScrub l).scrubLeft 7 0 (32 * v) = true → Config.stackAddr 28 (32 * w) ≤ Config.stackAddr 28 (32 * v) := by
        intro v h
        have h : Config.stackAddr 28 (32 * w) - 1 < Config.stackAddr 28 (32 * v) := of_decide_eq_true (Bool.and_eq_true_iff.1 h).2
        omega
      have hw' : (svcScrub l).scrubLeft 7 0 (32 * w) = true :=
        Bool.and_eq_true_iff.2 ⟨(Bool.and_eq_true_iff.1 hl).1,
          decide_eq_true (show Config.stackAddr 28 (32 * w) - 1 < Config.stackAddr 28 (32 * w) by omega)⟩
      refine ⟨l, w / 8, ⟨w % 8, by omega⟩, scrub_next l w hw' fun v _ h => hlt v h, fun v hv h => ?_⟩
      simpa only [e] using hm v ⟨hv, left l v h⟩

/-- The other hypotheses of HbmUpkeep are met: a codeword known bad; a row with four corrected codewords, spare rows left and
none left; migrations of a row and a bank; a pseudo-channel with no and with both spare lanes in use; one due for training,
and one in training. -/
theorem wit_hbm : (0x1C000 : Nat) ∈ ({ svcScrub none with bad := [0x1C000] } : State).bad ∧ (svcScrub none).bad = [] ∧
    (let s := svc.modMc 0 0 (fun x => { x with ceTimes := [(rowKey { pc := 0, bank := 0, row := 5 }, [0, 0, 0, 0])] })
     s.mcUp 0 0 = true ∧ (s.mc 0 0).mig = none ∧
       4 ≤ (recentCe (SMap.getD (s.mc 0 0).ceTimes (rowKey { pc := 0, bank := 0, row := 5 }) []) s.now).length ∧
       s.regFld .mcRetire 0 0 0 14 0 < 16384 ∧ 16384 ≤ (s.setReg .mcRetire 0 0 0 0x4000).regFld .mcRetire 0 0 0 14 0) ∧
    (∀ b, ((svc.modMc 0 0 (fun x => { x with mig := some (b, 5) })).mc 0 0).mig = some (b, 5)) ∧
    SMap.getD (svc.mc 0 0).laneUsed 3 0 < 2 ∧
    2 ≤ SMap.getD ((svc.modMc 0 0 (fun x => { x with laneUsed := [(3, 2)] })).mc 0 0).laneUsed 3 0 ∧
    (let s : State := { svc with now := 500000000 }
     s.retrainDue 0 0 3 = true ∧ s.regFld .mcStatus 0 0 0 5 5 = 0 ∧ (s.setReg .mcStatus 0 0 0 0x23).regFld .mcStatus 0 0 0 5 5 = 1) := by
  decide +kernel

/-- A module in service with contexts 1 and 2 open, a recovery at a step, and a slot still to fetch. -/
def svcFault (step : Nat) (loss : Option (Nat × Nat × Nat)) : State :=
  { (svcSlot []).setFn (.ctx 2) { st := .on } with
    recovery := some { step, cause := 1, die := 0, charged := [1, 2], recorded := 1, t0 := 5, skips := [(4, 0, 1)], loss } }

/-- The hypotheses of JobFaults are met, with no recovery and with one; at each of its steps, with a slot still to fetch; and
with a loss at its end. -/
theorem wit_faults : (∀ n ∈ [(1 : CtxId), 2], ({ svcFault 0 none with recovery := none } : State).ctxOpen n = true) ∧
    (svcFault 0 none).hub.takeover = false ∧ (svcFault 0 none).reports = [] ∧ (svcFault 0 none).fnIs (.ring 4) .off = false ∧
    ((svcFault 0 none).regFld .hifRingTail 0 4 0 15 0 + (svcFault 0 none).ringSize 4 - (svcFault 0 none).headSlot 4) %
      (svcFault 0 none).ringSize 4 ≠ 0 ∧
    (svcFault 4 none).hub.msixEnable = true ∧ (svcFault 4 none).hub.msixFnMask = false ∧
    (((svcFault 4 none).setReg .msixCtl 0 vecFault 0 0).reg .msixCtl 0 vecFault 0).getLsbD 0 = false ∧
    (svcFault 2 none).ctxOpen 1 = true ∧ (svcFault 0 none).openSlots ≠ [] ∧
    (((svcFault 3 none).modCtx 1 (fun c => { c with evWait := [{ ring := 4, index := 0, ty := 5, status := 0, detail := 0, time := 0, seq := none }] })).ctx 1).evWait ≠ [] ∧
    (∀ k l, (svcFault k l).recovery.isSome = true) := by
  refine ⟨?_, ?_, ?_, ?_, ?_, ?_, ?_, ?_, ?_, ?_, ?_, fun k l => rfl⟩ <;> decide +kernel

/-- A module at address 0 of a dimension of two modules, both admitted, rings 0 and 1 with both segments up. -/
def svcFab : State :=
  let s := (svc.setReg .fabDims 0 0 0 1).modFring 0 (fun x => { x with st := .admitted, plusUp := true, minusUp := true })
  let s := s.modFring 1 (fun x => { x with st := .admitted, plusUp := true, minusUp := true })
  { s with fab := { s.fab with admittedAddrs := [0, 1], selfAdmitted := true, masters := [1] } }

/-- A packet for an address, with its CRC. -/
def pktTo (dst : W16) (kind : Byte) (detoured : Bool) : Packet :=
  { ({ dst, src := 1, kind, detoured } : Packet) with crc := packetSum { dst, src := 1, kind, detoured } }

/-- The hypotheses of FabricPackets are met: transit with and without a route; each KIND for this module, whole, with a
wrong CRC, and of an undefined KIND. -/
theorem wit_packets : svcFab.portCarries 0 = true ∧ svcFab.ownAddr = 0 ∧ (svcFab.route 1 1 false).isSome = true ∧
    svcFab.route 1 0x10 true = none ∧ svcFab.hub.takeover = false ∧ svcFab.colls = [] ∧
    ([(0x01 : Byte), 0x02, 0x03, 0x04, 0x05, 0x10].all (fun k => decide ((pktTo 0 k false).crc = packetSum (pktTo 0 k false)) &&
      decide ((pktTo 0 k false).port = 0))) = true ∧
    (pktTo 0 1 false).crc + 1 ≠ packetSum { pktTo 0 1 false with crc := (pktTo 0 1 false).crc + 1 } ∧
    kindDefined (0x7F : Byte) = false := by decide +kernel

/-- A ROUTE that tells of a moved lane is met, for each direction. -/
theorem wit_laneMap : routeEntries (routeEntry 6 0 3) = [(6, 0, 3)] ∧ routeEntries (routeEntry 6 1 7) = [(6, 1, 7)] := by
  decide +kernel

/-- A collective block of an OP with one rank and one unit, its limit 1 µs. -/
def blkOf (op : Byte) : List Byte :=
  let b := [op, 0, 0, 0, 1, 0, 2, 0, 1, 0, 0, 0, 0, 0, 0, 0, 3] ++ List.replicate 7 0 ++ [1] ++ List.replicate 63 0 ++ [1]
  b ++ List.replicate (128 - b.length) 0

/-- A collective of an OP in progress. -/
def collOf (op : Byte) : Coll := { seq := 7, ctx := 1, block := blkOf op, start := 0 }

/-- A SHARD of an open ALL_REDUCE meets them, and one that no role awaits. -/
theorem wit_shard : bkOp (collOf 3).block = opAR ∧ (collOf 3).isOf 1 2 3 = true ∧ 0 < bkUnits (collOf 3).block ∧
    (collOf 3).arrived = [] ∧ svcFab.bad = [] ∧ leAt ([] : List Byte) 12 4 = 0 ∧
    svcFab.ownerRole (pktTo 0 2 false) = none ∧ svcFab.hopColl (pktTo 0 5 false) = none := by decide +kernel

/-- A module in service whose ring 0 is in a state since 0, at a time. -/
def svcRing (st : RingSt) (now : Nat) : State :=
  let s := (svc.setReg .fabDims 0 0 0 1).modFring 0 (fun x => { x with st })
  { s with now, fab := { s.fab with admittedAddrs := [1] } }

/-- The hypotheses of FabricRings are met: an ADMIT request that this module accepts and one that it refuses; a ring in each
of its states; each timeout; a short segment that is down, and one whose traffic is moved. -/
theorem wit_rings : (let s := (svcFab.setReg .fabDims 0 0 0 3).setReg .fabAddr 0 0 0 0
      let s := { s with fab := { s.fab with admittedAddrs := [0, 2] } }
      (s.fring 0).st = .admitted ∧ s.hub.takeover = false ∧ s.acceptsAdmit 0 true 1 3 = true ∧ s.acceptsAdmit 0 true 2 3 = false) ∧
    (∀ st, ((svcRing st 0).fring 0).st = st ∧ (svcRing st 0).fab.leaveQ = [] ∧ (0 : FRing) ∉ (svcRing st 0).fab.admitQ) ∧
    ((svcRing .requested 5000000).fring 0).since + 5000000 ≤ (svcRing .requested 5000000).now ∧
    ((svcRing .training 30000000).fring 0).since + 30000000 ≤ (svcRing .training 30000000).now ∧
    (svcRing .training 0).segsShort 0 = true ∧ (svcRing .training 0).fab.selfAdmitted = false ∧ 1 < (svcRing .training 0).dimSize 0 ∧
    (∀ j, j ≠ 0 → 1 < ((svcRing .training 0).modFring 1 (fun x => { x with st := .admitted })).dimSize (j.val / 2) →
      (((svcRing .training 0).modFring 1 (fun x => { x with st := .admitted })).fring j).st = .admitted) ∧
    ((svcRing .leaving 0).port (ringPort 0 false)).trained = false ∧
    (svcFab.fring 0).plusUp = true ∧ (svcFab.fring 0).minusUp = true ∧ (∀ p, svcFab.segLong svcFab.ownAddr 0 p = false) ∧
    ((svcRing .admitted 0).fring 0).plusUp = false ∧
    ({ svcFab with fab := { svcFab.fab with moved := [(0, true)] } } : State).fab.moved.contains (0, true) = true := by
  refine ⟨by decide +kernel, fun st => ⟨rfl, rfl, List.not_mem_nil⟩, ?_, ?_, ?_, ?_, ?_, ?_, ?_, ?_, ?_, ?_, ?_, ?_⟩ <;> decide +kernel

/-- Its clauses on FAB_ADMIT are met: a ring LOOP_TRAINED with both ports ON, and one ADMITTED, with nothing else moving. -/
theorem wit_admit : (let s := ((svcRing .loopTrained 0).setFn (.port (ringPort 0 false)) { st := .on }).setFn (.port (ringPort 0 true)) { st := .on }
      WritesAt s .bar0 (RegId.off .fabAdmit 0 0 0) ∧ s.fab.admitQ = [] ∧ s.fab.leaveQ = [] ∧ (∀ j, (s.fring j).st.moving = false) ∧
      (s.fring 0).st = .loopTrained ∧ s.portsOn 0 = true) ∧ (∀ j, ((svcRing .admitted 0).fring j).st.moving = false) := by
  unfold WritesAt; decide +kernel

/-- A good packet for the module at address 0. -/
def pktOf (kind : Byte) (src : W16) (port : PortId) (payload : List Byte) : Packet :=
  { ({ dst := 0, src, kind, port, payload } : Packet) with crc := packetSum { dst := 0, src, kind, port, payload } }

/-- Both ports of ring 0 are ON. -/
def svcPorts (st : RingSt) : State :=
  ((svcRing st 0).setFn (.port (ringPort 0 false)) { st := .on }).setFn (.port (ringPort 0 true)) { st := .on }

/-- The module at address 0 of a dimension of four, with 0 and 2 admitted; a request for ring 0 from an address. -/
def svcFour : State :=
  { svcFab.setReg .fabDims 0 0 0 3 with fab := { svcFab.fab with admittedAddrs := [0, 2] } }
def askOf (src : W16) : Packet := pktOf 0x11 src (ringPort 0 true) (askBytes 0 0 false 3)

/-- An answer or withdrawal for ring 0, of one of its sides. -/
def ansOf (code : Nat) (plus : Bool) : Packet := pktOf 0x11 1 (ringPort 0 plus) (askBytes code 0 plus 0)

/-- The packets of FabricRings are met: a request that this module accepts and one that it refuses; an acceptance of each
neighbour for a ring REQUESTED; a refusal, and a withdrawal for a ring REQUESTED and SWITCHING. -/
theorem wit_ask : svcFour.boot.powered = true ∧ svcFour.hub.takeover = false ∧ (svcFour.fring 0).st = .admitted ∧
    ForUs svcFour 0x11 (askOf 1) ∧ ForUs svcFour 0x11 (askOf 2) ∧ askCode (askOf 1) = 0 ∧ askRing (askOf 1) = 0 ∧
    svcFour.acceptsAdmit 0 (!askPlus (askOf 1)) (coord 1 0) (BitVec.ofNat 16 (leAt (askOf 1).payload 4 2)) = true ∧
    svcFour.acceptsAdmit 0 (!askPlus (askOf 2)) (coord 2 0) (BitVec.ofNat 16 (leAt (askOf 2).payload 4 2)) = false := by
  unfold ForUs; decide +kernel
theorem wit_answers : ((svcPorts .requested).fring 0).st = .requested ∧ (svcPorts .requested).portsOn 0 = true ∧
    askRing (ansOf 1 false) = 0 ∧ (svcPorts .requested).accepts (ansOf 1 false) 0 false = true ∧
    (svcPorts .requested).accepts (ansOf 1 true) 0 true = true ∧ (svcPorts .switching).portsOn 0 = true ∧
    (svcPorts .training).portsOn 0 = true ∧ (svcPorts .training).segsShort 0 = true ∧
    ForUs svc 0x11 (ansOf 2 true) ∧ askRing (ansOf 2 true) = 0 ∧ askCode (ansOf 2 true) = 2 ∧
    ForUs svc 0x11 (ansOf 3 true) ∧ askRing (ansOf 3 true) = 0 ∧ askCode (ansOf 3 true) = 3 ∧
    (svcPorts .loopTrained).nextOn (svcPorts .loopTrained).ownAddr 0 true = some 1 := by
  unfold ForUs; decide +kernel

/-- A TIME packet of the module at address 1, with its transmit stamp and the arrival there of one sent here at 0; an ECHO
request from it. -/
def timeOf (port : PortId) (tx at' : Nat) : Packet := pktOf 0x12 1 port (toLe 8 tx ++ toLe 8 0 ++ toLe 8 at')
def echoOf : Packet := pktOf 0x13 1 8 (askBytes 0 0 false 0)

/-- The packets of FabricTimeAndSpares are met: an exchange that gives an offset within, at and beyond 1 µs, on the segment to
the master and on the other, and one that gives none; an ECHO request. -/
theorem wit_exchange : svcFab.upstream = some (portRing 8) ∧ svcFab.timeMaster = some 1 ∧ svcFab.plusFirst 0 1 0 = true ∧
    svcFab.portCarries 0 = true ∧ svcFab.portCarries 8 = true ∧ ForUs svcFab 0x12 (timeOf 0 2000 1000) ∧
    ForUs svcFab 0x12 (timeOf 8 2000 1000) ∧
    exchangeOffset (timeOf 8 2000 1000) 1000 = some 1000 ∧ exchangeOffset (timeOf 8 2000000 1000000) 1000 = some 1499500 ∧
    exchangeOffset (timeOf 8 1000000 1000000) 0 = some 1000000 ∧ exchangeOffset (timeOf 8 0 0) 2000000 = some (-1000000) ∧
    exchangeOffset (pktOf 0x12 1 8 (timeBytes 5 none)) 7 = none ∧
    ForUs svcFab 0x13 echoOf ∧ askCode echoOf = 0 ∧ (svcFab.fring (askRing echoOf)).st = .admitted ∧
    svcFab.ownSegUp 0 true = true ∧ svcFab.nextOn svcFab.ownAddr 0 true = some 1 := by
  unfold ForUs; decide +kernel

/-- The hypotheses of FabricTimeAndSpares are met: an upstream module, with no context open and with one; an exchange of
time due; a port ON with its spare lane free, then used, then below four lanes; a spare laser and none. -/
theorem wit_time : svcFab.upstream = some 0 ∧ svcFab.hub.takeover = false ∧ (∀ n, svcFab.fnIs (.ctx n) .off = true) ∧
    (svcFab.setFn (.ctx 1) { st := .on }).fnIs (.ctx 1) .off = false ∧ svcFab.fab.lastExchange = none ∧
    (svcFab.setFn (.port 0) { st := .on }).fnIs (.port 0) .off = false ∧
    (svcFab.setFn (.port 0) { st := .on }).regFld .lndPortStatus 0 0 0 23 20 = 0xF ∧
    (let s := ((svcFab.setFn (.port 0) { st := .on }).setReg .lndPortStatus 0 0 0 0).modPort 0 (fun x => { x with txGood := 4 })
     s.regFld .lndPortStatus 0 0 0 23 20 ≠ 0xF ∧ min ((s.port 0).txGood - 1) (s.port 0).rxGood < 4 ∧
       (s.fring (portRing 0)).st = .admitted ∧ s.fab.leaveQ = [] ∧ s.fab.admitQ = [] ∧ ∀ j, (s.fring j).st.moving = false) ∧
    (svcFab.port 0).lasersOut < 2 ∧ 2 ≤ ((svcFab.modPort 0 (fun x => { x with lasersOut := 2 })).port 0).lasersOut := by decide +kernel

/-- The spare map with a number of failed phases of a rail group of die 0 or of the hub. -/
def svcPhases (g : Rail) (n : Nat) : State :=
  { svc with store := { svc.store with cur := { svc.store.cur with spares := { phases := [(railKey 0 g, n)] } } } }

/-- The hypotheses of FeedsAndRails are met: both feeds, then one; a feed that reconnects; every phase to fail of VMC, of
VDM and of a hub half's rail, active with a standby and without, and standing by; a die on its first and on its second clock
generator. -/
theorem wit_feeds : svc.boot.powered = true ∧ svc.feedUsed .a = true ∧ svc.feedUsed .b = true ∧
    ({ svc with boot := { svc.boot with feedB := false } } : State).feedUsed .b = false ∧
    ({ svc with boot := { svc.boot with feedB := false } } : State).feedUsed .a = true ∧
    svc.dieUp 0 = true ∧
    ([Rail.vmc, .vdm, .vcg 3, .vhubA, .vhubB, .vstby].all (fun g => (List.range (railN g + 2)).all (fun n =>
      (svcPhases g n).dieUp 0 && (svcPhases g n).boot.powered && (svcPhases g n).phasesOut 0 g == n))) = true ∧
    svc.hub.takeover = false ∧ svc.hub.activeB = false ∧ svc.hub.standbyOk = true ∧
    ({ svc with hub := { svc.hub with standbyOk := false } } : State).hub.standbyOk = false ∧
    2 * (railN .vmc + 2 - (railN .vmc + 2)) < railN .vmc ∧ railHub .vhubA = true ∧ railHub .vmc = false ∧
    (svc.reg .pwdStatus 0 0 0).getLsbD 0 = false ∧ ((svc.setReg .pwdStatus 0 0 0 1).reg .pwdStatus 0 0 0).getLsbD 0 = true := by
  decide +kernel

/-- The hypotheses of ClocksAndCaps are met: an island below and above the frequency it may have; a droop to start and one
to end; the current cap in and out of a step down; the power cap. -/
theorem wit_clocks : (let s := svcRun []
      (s.island 0 (coreIsland 0)).freq < (s.effective 0 (coreIsland 0)).1 ∧
      (let t := s.modIsland 0 (coreIsland 0) (fun x => { x with freq := 1600, capThermal := 700 })
       (t.effective 0 (coreIsland 0)).1 < (t.island 0 (coreIsland 0)).freq ∧ 700 ≤ (t.effective 0 (coreIsland 0)).1) ∧
      (let t := s.modIsland 0 (coreIsland 0) (fun x => { x with freq := 1600, stopped := true })
       (t.effective 0 (coreIsland 0)).1 < 700) ∧
      (s.island 0 (coreIsland 0)).droop = false ∧ s.islandOff 0 (coreIsland 0) = false) ∧
    ((svc.modIsland 0 0 (fun x => { x with droop := true })).island 0 0).droop = true ∧
    ([((0 : Island), 700)].map (fun n => n.1)).Nodup ∧ svc.stepDue svc.hub.currentAt 10000 = true ∧ svc.hub.currentDown = false ∧
    ({ svc with hub := { svc.hub with currentDown := true } } : State).hub.currentDown = true ∧
    ({ svc with hub := { svc.hub with currentAt := some 0, powerAt := some 0 }, now := 9999 } : State).stepDue (some 0) 10000 = false ∧
    svc.regFld .pwrCap 0 0 0 12 0 = 5000 ∧ svc.stepDue svc.hub.powerAt 100000000 = true ∧ svc.hub.powerDown = false ∧
    ([((0 : Die), (-5 : Int))].map (fun o => o.1)).Nodup := by decide +kernel

/-- The hypotheses of Heat are met: nothing held; an island at 93 °C and one below 90 °C; a hot core with a cool spare. -/
theorem wit_heat : svc.held = [] ∧ 744 ≤ (svc.setReg .pwdIsland 0 3 0 (744 * 65536)).tempOf 0 3 ∧ svc.tempOf 0 3 < 720 ∧
    svc.stepDue (svc.island 0 3).capAt 1000000 = true ∧ svc.stepDue (svc.island 0 3).capAt 10000000 = true ∧
    (let s := ((svcRun []).setReg .pwdIsland 0 (coreIsland 0).val 0 (744 * 65536)).setReg .pwdThermCtl 0 0 0 0x158
     let s := { s.modIsland 0 (coreIsland 0) (fun x => { x with hotSince := some 0 }) with now := 10000000 }
     s.coolSpare 0 0 = some 1 ∧ s.mayMove 0 0 = true) := by decide +kernel

/-- The hypotheses of DieAvailability are met: a bank with eight corrected errors, a Gallery spare free, the last one free, none free, and a copy to one under
way; a first and a second bridge; a die with its standby twin, without, and in a take-over. -/
theorem wit_die : svc.dieUp 0 = true ∧ 8 ≤ svc.boot.stage ∧ svc.galSub 0 0 = 0x7F ∧
    (let s := svc.modDie 0 (fun x => { x with galCe := [(5, List.replicate 8 svc.now)] })
     s.dieUp 0 = true ∧ s.galSub 0 0 = 0x7F ∧ eightCe (SMap.getD (s.die 0).galCe 5 []) s.now = true) ∧
    (let s := svc.setReg .galSpareMap 0 0 0 0x7F030201
     s.galSub 0 3 = 0x7F ∧ ∀ j, j < 3 → s.galSub 0 j ≠ 0x7F) ∧
    (∀ k, k < 4 → (svc.setReg .galSpareMap 0 0 0 0x04030201).galSub 0 k ≠ 0x7F) ∧
    (svc.setReg .galSpareMap 0 0 0 0x7F7F7F81).regFld .galSpareMap 0 0 0 7 7 = 1 ∧ svc.hub.bridges = [] ∧
    svc.hub.outOfService = false ∧ svc.boot.oos = false ∧ svc.recovery = none ∧ 10 ≤ svc.boot.stage ∧
    ({ svc with hub := { svc.hub with bridges := [0] } } : State).hub.bridges.contains 1 = false ∧
    (svc.die 0).twin = .standby ∧ (svc.die 0).takeover = false ∧
    ((svc.modDie 0 (fun x => { x with twin := .failed })).die 0).twin ≠ .standby ∧
    ((svc.modDie 0 (fun x => { x with takeover := true })).die 0).takeover = true ∧
    (svc.modDie 0 (fun x => { x with takeover := true })).dieUp 0 = true ∧
    (∀ again, let s := svc.modDie 0 (fun x => { x with takeover := true, newelOn := false, newelAgain := again })
      (s.die 0).takeover = true ∧ (s.die 0).newelOn = false ∧ (s.die 0).lost = false ∧ (s.die 0).newelAgain = again) ∧
    (let s := svc.setStage 7
     6 ≤ s.boot.stage ∧ s.boot.stage < 10) := by decide +kernel

/-- The hypotheses of HubHalvesAndStore are met: a standby ready and not, a change-over under way with nothing waiting;
changes to write with bank A newer, with bank B newer and with neither valid; a write to each bank. -/
theorem wit_hub : svc.boot.powered = true ∧ 3 ≤ svc.boot.stage ∧ svc.hub.standbyOk = true ∧ svc.hub.takeover = false ∧
    svc.held = [] ∧ svc.descs = [] ∧ WritesAt svc .bar0 (RegId.off .avlCtl 0 0 0) ∧
    ({ svc with store := { svc.store with dirty := true } } : State).store.dirty = true ∧ svc.store.writing = none ∧
    svc.store.a.valid = true ∧ svc.store.b.valid = false ∧
    svc.hub.answers = [] ∧ svc.hub.again = false ∧
    (∀ r, let s : State := { svc with hub := { svc.hub with takeover := true, requested := r, msixHeld := [7] } }
      s.hub.takeover = true ∧ 7 ∈ s.hub.msixHeld ∧ s.hub.requested = r) ∧
    (let t : Store := { svc.store with b := { valid := true, seq := 2 } }
     t.b.valid = true ∧ t.a.seq < t.b.seq) ∧ ({ svc.store with a := { valid := false } } : Store).a.valid = false := by
  unfold WritesAt; decide +kernel

/-- A module in service in a state of firmware update, with a staged image at a step of its activation. -/
def svcFw (st : Nat) (act : FwAct) : State := { svc.setFw st 0 with fw := { act, staged := some {} } }

/-- The hypotheses of FirmwareUpdate are met in each state and at each step, and with an image in host memory and with
none. -/
theorem wit_fw : WritesAt (svcFw 2 .idle) .bar0 (RegId.off .avlCtl 0 0 0) ∧ (∀ k < 6, (svcFw k .idle).fwState = k) ∧
    (svcFw 2 .idle).hub.standbyOk = true ∧ (∀ d, ((svcFw 2 .idle).die d).twin = .standby) ∧ (svcFw 3 .idle).fwUndoable = false ∧
    (svcFw 3 .standbyLoading).fwUndoable = true ∧ (svcFw 3 (.handOver 0)).fwUndoable = true ∧ (svcFw 3 .idle).hub.takeover = false ∧
    (svcFw 3 .idle).fw.staged = some {} ∧ (∀ d, (svcFw 3 (.handOver 0)).repairing d = false) ∧
    (∀ act ∈ [FwAct.handing 0, .undo [3] true 5, .undoing 3 [] true 6, .undo [] true 5, .undo [] false 6, .undone 5, .selecting, .reloading],
      (svcFw 3 act).fw.act = act ∧ (svcFw 3 act).fw.staged = some {} ∧ ((svcFw 3 act).die 0).newelAgain = false ∧
        (svcFw 3 act).repairing 3 = false ∧ (svcFw 3 act).hub.standbyOk = true) ∧
    ({ svcFw 3 .standbyLoading with hub := { svc.hub with standbyOk := false } } : State).hub.standbyOk = false ∧
    (((svcFw 3 (.handOver 0)).modDie 0 (fun x => { x with twin := .failed })).die 0).twin ≠ .standby ∧
    (svcFw 1 .idle).imageBytes ((svcFw 1 .idle).reg .avlFwSrc 0 0 0).toNat ((svcFw 1 .idle).reg .avlFwLen 0 0 0).toNat = none ∧
    (let s := ((svcFw 1 .idle).setReg .avlFwSrc 0 0 0 0x8000000000000000).setReg .avlFwLen 0 0 0 1
     (s.imageBytes (s.reg .avlFwSrc 0 0 0).toNat (s.reg .avlFwLen 0 0 0).toNat).isSome = true) ∧ (imageOf [0]).headerOk = false := by
  unfold WritesAt; decide +kernel

/-- A descriptor of a type in ring 4's slot, silent, whose context 1 holds region 0, with bytes written in the region. -/
def svcFetch (ty : Byte) (fields : List Byte) (mem : List (Nat × List Byte)) : State :=
  mem.foldl (fun s x => s.devWrite x.1 x.2) ((svcSlot (slotOf ty 1 fields)).setReg .hifCtxRange 0 1 0 0x40000)

/-- The hypotheses of a fetch hold where they evaluate to true. -/
theorem fetches_of (s : State) (ty : Nat) (h0 : s.descs = [])
    (h : (s.fetchable 4 && leAt (s.headBytes 4) 0 1 == ty && !s.hub.outOfService &&
      ((s.fetch 4).1.commonCheck 1 (s.headBytes 4)).isNone) = true) : Fetches s 4 ty := by
  simp only [Bool.and_eq_true, beq_iff_eq, Bool.not_eq_true', Option.isNone_iff_eq_none] at h
  obtain ⟨⟨⟨h1, h2⟩, h3⟩, h4⟩ := h
  refine ⟨⟨?_, ?_, ?_, ?_⟩, h1, h2, h3, h4, ?_⟩ <;> simp [h0, State.inflight]

/-- A DISPATCH of handle 3, entry 0, without a deadline, of a loaded plan with one entry on die 0 without streams; its ring
lies in host memory. -/
def svcDispatch (flags : Byte) : State :=
  let f : List Byte := [3, 0, 0, 0, 0, 0] ++ List.replicate 8 0xFF ++ List.replicate 16 0 ++ toLe 8 0x20000
  { ((svcFetch 1 f [ (0x10010, [1]), (0x10018, [0x40]), (0x10040, [1]), (0x10058, [0x80]), (0x10080, [0xC0])]).setReg .hifRingBase 0 4 0 (BitVec.ofNat 64 (2 ^ 63))).anyWrite (2 ^ 63)
      (slotOf 1 flags f) with
    plans := [{ ctx := 1, handle := 3, st := .loaded, area := 0x10000, size := 4096, loadSeq := 0 }], nextSeq := 7 }

/-- The hypotheses of DispatchAdmitted are met, without and with ARGS. -/
theorem wit_admitted : (∀ f, f = 1 ∨ f = 3 → Fetches (svcDispatch f) 4 0x01) ∧ (svcDispatch 1).chainWaiting = [] ∧
    argsFlag ((svcDispatch 1).headBytes 4) = false ∧ argsFlag ((svcDispatch 3).headBytes 4) = true ∧
    (svcDispatch 3).readFault 1 0x20000 128 = none ∧
    ([(1 : Byte), 3].all (fun f =>
      let s := svcDispatch f
      let x : Desc := { fetched s 4 (if argsFlag (s.headBytes 4) then s.anyRead 0x20000 128 else []) with fetchNo := 1, st := .waiting }
      !s.chainHeld x && (match s.findVariant x with
        | .ok (p, img, b, v) => (s.lateChecks x img b v).isNone && (match s.admission (s.mkDisp x p img b v) with
          | .ok _ => true
          | .error _ => false)
        | .error _ => false))) = true := by
  refine ⟨?_, by decide +kernel, by decide +kernel, by decide +kernel, by decide +kernel, by decide +kernel⟩
  rintro f (rfl | rfl) <;> exact fetches_of _ _ rfl (by decide +kernel)

/-- A stream block of an audio stream of one channel and one slot, with a number of slot bytes. -/
def sbOf (codec live : Byte) (slot : Nat) : List Byte :=
  [codec, live] ++ toLe 2 1 ++ toLe 2 0 ++ [16, 1] ++ List.replicate 8 0 ++ [0x06, 0, 0, 0] ++ toLe 4 slot ++ toLe 8 0x20000 ++
    toLe 2 1 ++ toLe 2 1 ++ toLe 2 2 ++ List.replicate 26 0 ++ toLe 4 1000 ++ List.replicate 4 0 ++ toLe 4 1 ++ toLe 4 1 ++
    toLe 8 0x30000 ++ toLe 8 0x31000 ++ toLe 4 1 ++ toLe 4 8000 ++ toLe 8 0x11000 ++ toLe 8 0x100000 ++ toLe 4 0x100000 ++ toLe 4 0

/-- A media descriptor of handle 0, its engine on die 0 ON, its stream in a state and owned by context 1. -/
def svcMedia (ty : Byte) (st : FnSt) : State :=
  let f : List Byte := [0, 0, 0, 0, 0, 0] ++ (if ty = 0x09 then toLe 8 0x10000 else toLe 8 0) ++ toLe 8 0 ++ (if ty = 0x08 then toLe 4 64 else [])
  let s := (svcFetch ty f [(0x10000, sbOf 0x0A 0 4096)]).setFn (.media 0) { st := .on }
  if st = .off then s else (s.setFn (.stream 0 0) { st }).modStream 0 0 (fun x => { x with owner := some 1, block := sbOf 0x0A 0 4096 })

/-- The hypotheses of MediaDescriptors are met: an open of a stream that is OFF, a submit to an open one, a close of an open
one and of one that is OFF. -/
theorem wit_media : Fetches (svcMedia 0x09 .off) 4 0x09 ∧ Fetches (svcMedia 0x08 .on) 4 0x08 ∧ Fetches (svcMedia 0x0A .on) 4 0x0A ∧
    Fetches (svcMedia 0x0A .off) 4 0x0A ∧
    (∀ t ∈ [((0x09 : Byte), FnSt.off), (0x08, .on), (0x0A, .on), (0x0A, .off)],
      leAt ((svcMedia t.1 t.2).headBytes 4) 2 2 = 0 ∧ (svcMedia t.1 t.2).mediaRoute 0 = some (0, 0) ∧
        ((svcMedia t.1 t.2).fn (.stream 0 0)).st = t.2) ∧
    (let s := svcMedia 0x09 .off
     s.readFault 1 0x10000 128 = none ∧ s.openCheck 1 (s.devRead 0x10000 128) (s.devRead 0x11000 1024) = none ∧
      s.badIn 0x11000 1024 = none ∧ s.mediaWaits 0 = false ∧ s.homeTaken 0 = false) ∧
    (let s := svcMedia 0x08 .on
     (fetched s 4 []).hasOvr = false ∧ (s.stream 0 0).owner = some 1 ∧ s.submitCheck (fetched s 4 []) = none ∧ sbOrder (s.stream 0 0).block = 0) ∧
    ((svcMedia 0x0A .on).fn (.stream 0 0)).pendingOn = false :=
  ⟨fetches_of _ _ rfl (by decide +kernel), fetches_of _ _ rfl (by decide +kernel), fetches_of _ _ rfl (by decide +kernel),
    fetches_of _ _ rfl (by decide +kernel), by decide +kernel, by decide +kernel, by decide +kernel, by decide +kernel⟩

/-- A stream of context 1 on die 0 with one sample in a state, one credit in FREE_SEM, at a time. -/
def svcSample (st : SampleSt) (live : Byte) (codec : Byte) (now : Nat) : State :=
  let s := ((svcFetch 0x08 [] []).setFn (.media 0) { st := .on }).setFn (.stream 0 0) { st := .on }
  let s := (s.setSem 1 0 1 1).modStream 0 0 (fun x => { x with
    owner := some 1, block := sbOf codec live 128
    queue := [{ seq := 7, sample := 0, src := 0, len := 64, capture := 1, ovr := none, last := false, epoch := 0, st }] })
  { s with now }

/-- The hypotheses of MediaSamples are met: a sample that takes a slot, stale and not; one in decoding, within its budget,
with one and two residue mismatches, and past it; one to deliver. -/
theorem wit_samples : ((svcSample .queued 0 0x0A 5000).nextSample 0 0).isSome = true ∧ (svcSample .queued 0 0x0A 0).hub.takeover = false ∧
    ((svcSample .queued 0 0x0A 5000).nextSample 0 0).any (fun x =>
      !(svcSample .queued 0 0x0A 5000).staleSample ((svcSample .queued 0 0x0A 5000).stream 0 0).block x.1) = true ∧
    ((svcSample .queued 8 0x0A 5000).nextSample 0 0).any (fun x =>
      (svcSample .queued 8 0x0A 5000).staleSample ((svcSample .queued 8 0x0A 5000).stream 0 0).block x.1) = true ∧
    ([(5000, false), (1000001, true)].all (fun (now, late) =>
      let s := svcSample .decoding 0 0x0A now
      (s.running 0 0 0).any (fun x => decide (x.1.tStart + lostNs x.1 0 ≤ s.now) && (s.stream 0 0).endReady x.1 {} &&
        (s.stream 0 0).prevReady 7 && (overBudget (s.stream 0 0) (s.now - x.1.tStart - lostNs x.1 0) == late) &&
        (s.readFault 1 x.1.src x.1.len).isNone))) = true ∧
    (∀ len, len ≤ sbSlotBytes ((svcSample .decoding 0 0x0A 5000).stream 0 0).block →
      (svcSample .decoding 0 0x0A 5000).writeFault 1 0x20000 len = none) ∧
    ((svcSample .decoded 0 0x0A 5000).deliverable 0 0).isSome = true ∧ (svcSample .decoded 0 0x0A 5000).sem 1 0 2 + 1 < 2 ^ 32 := by
  decide +kernel

/-- A collective block of an OP of one rank and one plain unit in region 0. -/
def blkAt (op : Byte) : List Byte :=
  let b := [op, if op = 4 then 0 else 1] ++ toLe 2 0 ++ toLe 2 1 ++ toLe 2 2 ++ toLe 4 2 ++ toLe 4 1 ++ toLe 8 3 ++ toLe 4 1 ++ toLe 4 0 ++
    toLe 8 0x10000 ++ toLe 8 0 ++ toLe 8 0x11000 ++ toLe 8 0x12000 ++ toLe 8 0x13000 ++ toLe 8 0x14000 ++ toLe 8 0x15000 ++ toLe 4 1 ++
    List.replicate 12 0 ++ toLe 4 64 ++ toLe 4 1 ++ toLe 8 0x16000
  b ++ List.replicate (128 - b.length) 0

/-- A COLLECTIVE of an OP at its fetch, with its block and tables in region 0. -/
def svcColl (op : Byte) : State :=
  svcFetch 0x0D ([0, 0, 0, 0, 0, 0] ++ toLe 8 0x20000) [(0x20000, blkAt op), (0x10004, List.replicate 4 0xFF), (0x1000C, List.replicate 4 0xFF),
    (0x16004, [1])]

/-- The hypotheses of CollectivesStart are met for each OP. -/
theorem wit_coll : (∀ op ∈ [(1 : Byte), 2, 3, 4, 5],
      let s := svcColl op
      s.slotOp (s.headBytes 4) = op.toNat ∧ blockAddr (s.headBytes 4) = 0x20000 ∧ s.readFault 1 0x20000 128 = none ∧
        s.collCheck 1 (s.devRead 0x20000 128) = none ∧
        (tableRuns (s.devRead 0x20000 128)).findSome? (fun x => s.badIn x.1 x.2) = none ∧ s.colls = [] ∧ s.bad = []) := by
  decide +kernel

/-- The fetch of each is met. -/
theorem wit_coll_fetch : Fetches (svcColl 1) 4 0x0D ∧ Fetches (svcColl 2) 4 0x0D ∧ Fetches (svcColl 3) 4 0x0D ∧
    Fetches (svcColl 4) 4 0x0D ∧ Fetches (svcColl 5) 4 0x0D :=
  ⟨fetches_of _ _ rfl (by decide +kernel), fetches_of _ _ rfl (by decide +kernel), fetches_of _ _ rfl (by decide +kernel),
    fetches_of _ _ rfl (by decide +kernel), fetches_of _ _ rfl (by decide +kernel)⟩

/-- A module at 1 µs with an open collective of an OP whose silent descriptor stands in a host ring. -/
def svcOpen (c : Coll) : State :=
  { ((svcOrder 0x0D []).setReg .hifCtxRange 0 1 0 0x40000).setReg .hifRingBase 0 4 0 (BitVec.ofNat 64 (2 ^ 63)) with
    now := 1000, colls := [c] }

/-- The hypotheses of CollectivesEnd are met: sending to close, an owner and a sender past the limit, a part that has not
arrived, a cycle past it, and a collective that has ended, with its semaphore. -/
theorem wit_coll_end : (let c : Coll := { seq := 7, ctx := 1, block := blkAt 1, start := 0 }
      let s := svcOpen c
      s.coll 7 = some c ∧ s.hub.takeover = false ∧ s.recovery = none ∧ s.mayClose c = true ∧ bkOwns c.block = true ∧
        c.ownerDone = false ∧ s.collOver c c.start = true ∧ s.unarmed c = [0, 1]) ∧
    (let c : Coll := { seq := 7, ctx := 1, block := blkAt 2, start := 0 }
     c.serving = true ∧ c.runsPart 0 = true ∧ c.partArrived 0 = false ∧ (svcOpen c).collOver c c.gatherFrom = true) ∧
    (let c : Coll := { seq := 7, ctx := 1, block := blkAt 5, start := 0, cycles := [{ head := 0, x := 0, half := 0 }] }
     bkOp c.block = opPM ∧ (svcOpen c).collOver c 0 = true) ∧
    (let c : Coll := { seq := 7, ctx := 1, block := blkAt 1, start := 0, senderDone := true, ownerDone := true }
     let s := svcOpen c
     c.ended = true ∧ bits (bkDoneSem c.block) 15 15 = 0 ∧ (s.desc 7).any (fun x => decide (x.st ≠ .done) && leAt x.bytes 1 1 % 2 == 1) = true ∧
       isHost (s.slotAddr 4 2 + 0x38) = true ∧ isHost (bkReport c.block) = false ∧ s.writeFault 1 (bkReport c.block) 64 = none) := by
  decide +kernel

/-- The hypothesis of RegisterCommands is met. -/
theorem wit_commands : svc.hub.takeover = false := by decide

/-! ### Ill-formed commands are refused -/

theorem test_wf_offsets : (Instr.lowWordRead .bar0 2).wf = false ∧ (Instr.highWordRead .bar0 8).wf = false ∧
    (Instr.registerWrite .bar0 4 true 0).wf = false ∧ (Instr.registerWrite .bar0 6 false 0).wf = false ∧
    (Instr.rcRegisterRead .bar0 1 0).wf = false ∧ (Instr.w1cWrite .bar0 3 0 0).wf = false := by decide
theorem test_wf_offsets_ok : (Instr.lowWordRead .bar0 8).wf = true ∧ (Instr.highWordRead .bar0 12).wf = true ∧
    (Instr.registerWrite .bar0 8 true 0).wf = true ∧ (Instr.registerWrite .bar0 4 false 0).wf = true := by decide
theorem test_wf_misaligned : (Instr.misalignedAccess .bar0 0 0 none).wf = false ∧
    (Instr.misalignedAccess .bar0 4 4 none).wf = false ∧ (Instr.misalignedAccess .bar0 8 8 (some 0)).wf = false ∧
    (Instr.misalignedAccess .bar0 4 8 none).wf = true ∧ (Instr.misalignedAccess .bar0 0 2 none).wf = true := by decide
theorem test_wf_windows : (Instr.barResize 29).wf = false ∧ (Instr.barResize 40).wf = false ∧ (Instr.barResize 39).wf = true ∧
    (Instr.bar4Read 0 0 []).wf = false ∧ (Instr.bar4Write 0 []).wf = false ∧ (Instr.configRequest 0 3 none).wf = false ∧
    (Instr.configRequest 2 4 none).wf = false ∧ (Instr.configRequest 4 4 none).wf = true := by decide
/-- A packet whose payload is one byte longer than R372 allows, and one as long as it allows. -/
def longPkt (n : Nat) : Packet := { dst := 0, src := 0, kind := 0, payload := List.replicate n 0 }

theorem test_wf_payload : (longPkt 4097).wf = false ∧ (longPkt 4096).wf = true := by decide +kernel
theorem test_wf_packets : ∀ p : Packet, p.wf = false →
    (Instr.armReceive p).wf = false ∧ (Instr.contribReceive p []).wf = false ∧ (Instr.endReceive p []).wf = false ∧
    (Instr.shardReceive p).wf = false ∧ (Instr.hopReceive p).wf = false ∧ (∀ q, (Instr.packetForward q p).wf = false) ∧
    (Instr.routeReceive p).wf = false ∧ (Instr.admitReceive p).wf = false ∧ (∀ q, (Instr.admitAccept p q).wf = false) ∧
    (Instr.admitWithdraw p).wf = false ∧ (∀ t, (Instr.timeReceive p t).wf = false) ∧ (Instr.echoReceive p).wf = false :=
  fun _ h => ⟨h, h, h, h, h, fun _ => h, h, h, fun q => by simp [Instr.wf, h], h, fun _ => h, h⟩
theorem test_wf_numbers : (Instr.codewordLoss 0 0 0).wf = false ∧ (Instr.hbmLaneRepair 0 0 0 64).wf = false ∧
    (Instr.rowRetire 0 0 ⟨0, 0, 16384⟩).wf = false ∧ (Instr.chunkSend .doe 0 0 true []).wf = false ∧
    (Instr.hbmLaneRepair 0 0 0 63).wf = true ∧ (Instr.rowRetire 0 0 ⟨0, 0, 16383⟩).wf = true := by decide

/-! ### The manual's worked examples -/

/-- The arbiter of R21: q = 0, requesters 1 and 3 for three cycles, then only 1 (01_module_architecture.md). -/
theorem test_arbiter : arbitrate (fun i => i == 1 || i == 3) 0 4 = some (1, 2) ∧
    arbitrate (fun i => i == 1 || i == 3) 2 4 = some (3, 0) ∧ arbitrate (fun i => i == 1) 2 4 = some (1, 2) := by decide

/-- MC_RED_LATE of controller 2 on die 5, and HIF_RING_STATE of ring 13 (20_register_map_and_status_codes.md). -/
theorem test_offsets : RegId.off .mcRedLate 5 2 0 = 0x66B020 ∧ fnOff (.ring 13) = 0x21A0 := by decide

/-- The norm finish of R215's example: norm 48, clip factor 0x3F2A_AAAB for MAX_NORM 32, NEXT_EN 13
(08_training_support.md). -/
theorem test_norm_finish : normFinish 12 154618822656 0 0x42000000 =
    ([0x45100000, 0x42400000, 0x3F2AAAAB, 13], flNone) := by decide +kernel

/-- A mismatch of row 37 and columns 5 and 100 retires the row (R71 Table 4, 03_compute_core.md). -/
theorem test_csum : csumAction { rows := [37], cols := [5, 100] } = 2 := by decide

/-- The path of Table 10's route from die 1 to die 7, dies 2 and 3 over E1, E2 and E9 (14_miotos_fabric.md). -/
theorem test_die_path : State.reset.diePath 1 7 = [1, 2, 3, 7] := by decide

/-- Hand calculation by R246: of 0 → 2 → 0 with 1 and 3 in place the one cycle's smallest index is 0. -/
theorem test_cycles : cycleHeads [2, 1, 0, 3] = [0] := by decide

end Sys2Proof.Tests
end

section
/-! SUPPORT. Reads and writes of registers by the access commands: latches, what a word read returns and leaves, and what
a write of a plain register, a W1C write and a read to clear do (R4 to R9). -/

namespace Sys2Proof

open Machine

theorem ReadsAt.free {s : State} {path : Path} {off : Nat} (h : ReadsAt s path off) : s.hub.takeover = false := by
  obtain ⟨hfree, -⟩ := h
  exact hfree

theorem WritesAt.free {s : State} {path : Path} {off : Nat} (h : WritesAt s path off) : s.hub.takeover = false := by
  obtain ⟨hfree, -⟩ := h
  exact hfree

theorem WritesAt.privileged {s : State} {path : Path} {off : Nat} (h : WritesAt s path off) : privileged path = true := by
  obtain ⟨-, -, hpriv, -⟩ := h
  exact hpriv

end Sys2Proof

namespace Sys2Proof.Machine

/-! ### An access that reaches the hub at once -/

theorem exec_lowWordRead {s : State} (path : Path) (off : Nat) (h : s.hub.takeover = false) :
    exec (.lowWordRead path off) s = .next (readAt path off 4 0 s) :=
  congrArg Host.Outcome.next (reach_free h rfl)

theorem exec_highWordRead {s : State} (path : Path) (off : Nat) (h : s.hub.takeover = false) :
    exec (.highWordRead path off) s = .next (readAt path off 4 0 s) :=
  congrArg Host.Outcome.next (reach_free h rfl)

theorem exec_misalignedRead {s : State} (path : Path) (off size : Nat) (h : s.hub.takeover = false) :
    exec (.misalignedAccess path off size none) s = .next (readAt path off size 0 s) :=
  congrArg Host.Outcome.next (reach_free h rfl)

theorem exec_misalignedWrite {s : State} (path : Path) (off size v : Nat) (h : s.hub.takeover = false) :
    exec (.misalignedAccess path off size (some v)) s = .next (writeAt path off size (BitVec.ofNat 64 v) s) :=
  congrArg Host.Outcome.next (reach_free h rfl)

theorem exec_registerWrite {s : State} (path : Path) (off : Nat) (wide : Bool) (v : W64) (h : s.hub.takeover = false) :
    exec (.registerWrite path off wide v) s = .next (writeAt path off (if wide then 8 else 4) v s) :=
  congrArg Host.Outcome.next (reach_free h rfl)

theorem exec_rcRegisterRead {s : State} (path : Path) (off ev : Nat) (h : s.hub.takeover = false) :
    exec (.rcRegisterRead path off ev) s = .next (readAt path off 4 ev s) :=
  congrArg Host.Outcome.next (reach_free h rfl)

/-- W1C_WRITE of a W1C register that takes effect carries the bits that the module sets in the same cycle (R9). -/
theorem exec_w1cWrite {s : State} {path : Path} {off : Nat} {r : RegRef} (v set : W32) (h : WritesAt s path off)
    (ha : off % 4 = 0) (hr : regAt off = some r) (hacc : r.id.row.acc = .w1c) :
    exec (.w1cWrite path off v set) s = .next (w1cWrite r v.toNat set.toNat s) := by
  obtain ⟨hfree, hlive, hpriv, hup⟩ := h
  refine congrArg Host.Outcome.next ((reach_free hfree rfl).trans ?_)
  simp [access, hr, hlive, hpriv, hup, ha, hacc]

/-! ### Latches, R5 -/

theorem State.latch_congr {s t : State} (h : t.latches = s.latches) (q : Path) (o : Nat) : t.latch q o = s.latch q o := by
  unfold State.latch
  rw [h]

@[simp] theorem State.latch_unlatch_self (s : State) (path : Path) (off : Nat) : (s.unlatch path off).latch path off = none := by
  unfold State.latch State.unlatch
  rw [List.find?_filter, Option.map_eq_none_iff, List.find?_eq_none]
  intro l _
  cases decide (l.path = latchPath path) && l.off == off <;> decide

theorem State.latch_unlatch_other (s : State) {path q : Path} {off o : Nat} (h : latchPath q ≠ latchPath path ∨ o ≠ off) :
    (s.unlatch path off).latch q o = s.latch q o := by
  unfold State.latch State.unlatch
  rw [List.find?_filter]
  congr 2
  funext l
  by_cases hl : l.path = latchPath q ∧ l.off = o
  · obtain ⟨hp, ho⟩ := hl
    rw [hp, ho]
    rcases h with h | h <;> simp [h]
  · have hmiss : (decide (l.path = latchPath q) && l.off == o) = false := by simpa using hl
    simp [hmiss]

/-- The latch of a path for a register holds a high word, in place of what it held (R5). -/
def State.relatch (s : State) (path : Path) (off : Nat) (high : W32) : State :=
  { s.unlatch path off with
    latches := (s.unlatch path off).latches ++ [{ path := latchPath path, off := off, high := high }] }

@[simp] theorem State.latch_relatch_self (s : State) (path : Path) (off : Nat) (high : W32) :
    (s.relatch path off high).latch path off = some high := by
  have hnone := s.latch_unlatch_self path off
  unfold State.latch at hnone ⊢
  rw [Option.map_eq_none_iff] at hnone
  simp [State.relatch, List.find?_append, hnone]

theorem State.latch_relatch_other (s : State) {path q : Path} {off o : Nat} (high : W32)
    (h : latchPath q ≠ latchPath path ∨ o ≠ off) : (s.relatch path off high).latch q o = s.latch q o := by
  rw [← s.latch_unlatch_other h]
  unfold State.latch State.relatch
  have hnew : (decide (latchPath path = latchPath q) && off == o) = false := by
    rcases h with h | h <;> simp [Ne.symm h]
  simp [List.find?_append, hnew]

/-! ### What reading a word does -/

/-- Reading a register draws free values and brings its own counter up to now. -/
theorem State.view_frame (s : State) (r : RegRef) :
    (s.view r).2 = { s with free := (s.view r).2.free, regs := (s.view r).2.regs, busyNs := (s.view r).2.busyNs } :=
  (State.view_keeps (ps := [.free, .regs, .busyNs]) rfl (Keeps.refl _ s)).rest

theorem afterRead_frame (path : Path) (r : RegRef) (ev : Nat) (s : State) :
    afterRead path r ev s = { s with regs := (afterRead path r ev s).regs } :=
  (afterRead_keeps (ps := [.regs]) rfl (Keeps.refl _ s)).rest

section
variable {s : State} {off : Nat} {r : RegRef} (path : Path) (ev : Nat)

theorem readWord_latched (hr : regAt off = some r) (hh : r.high = true) {h : W32}
    (hl : s.latch path (r.id.off r.d r.i r.j) = some h) :
    readWord path off ev s = (h, s.unlatch path (r.id.off r.d r.i r.j)) := by
  simp [readWord, hr, hh, hl]

theorem readWord_unlatched (hr : regAt off = some r) (hh : r.high = true)
    (hl : s.latch path (r.id.off r.d r.i r.j) = none) :
    readWord path off ev s = (BitVec.ofNat 32 ((s.view r).1.toNat / 2 ^ 32), (s.view r).2) := by
  simp [readWord, hr, hh, hl]

theorem readWord_low_wide (hr : regAt off = some r) (hh : r.high = false) (hw : r.id.row.wide = true) :
    readWord path off ev s = (BitVec.ofNat 32 (s.view r).1.toNat,
      (afterRead path r ev (s.view r).2).relatch path (r.id.off r.d r.i r.j)
        (BitVec.ofNat 32 ((s.view r).1.toNat / 2 ^ 32))) := by
  simp [readWord, hr, hh, hw, State.relatch]

theorem readWord_narrow (hr : regAt off = some r) (hh : r.high = false) (hw : r.id.row.wide = false) :
    readWord path off ev s = (BitVec.ofNat 32 (s.view r).1.toNat, afterRead path r ev (s.view r).2) := by
  simp [readWord, hr, hh, hw]

end

theorem readAt_misaligned {s : State} {path : Path} {off size : Nat} (ev : Nat) (hlive : s.pathLive path = true)
    (hm : (size ≠ 4 ∧ size ≠ 8) ∨ off % size ≠ 0) : readAt path off size ev s = s.emit (.readOnes path size) := by
  simp only [readAt, hlive, Bool.not_true, Bool.false_eq_true, if_false, if_pos hm]

theorem writeAt_misaligned {s : State} {path : Path} {off size : Nat} (v : W64) (hlive : s.pathLive path = true)
    (hpriv : privileged path = true) (hm : (size ≠ 4 ∧ size ≠ 8) ∨ off % size ≠ 0) : writeAt path off size v s = s := by
  simp only [writeAt, hlive, hpriv, Bool.not_true, Bool.false_eq_true, if_false, if_pos hm]

/-! ### What a write does -/

/-- The registers whose write acts, beside the state words of functions. -/
def actingRegs : List RegId :=
  [.hifBar4Ctl, .hifLoopback, .hifRingStat, .msixCtl, .secReset, .secCtl, .avlCtl, .trcCtl, .trcDev,
    .fabDims, .fabAdmit, .fabEvent, .fabTimeCtl, .mgtRegionCommit, .lndLoopback, .mcLoopback, .medLoopback]

/-- A write of any other register stores, or does nothing. -/
theorem writeReg_plain {r : RegRef} (path : Path) (v : W64) (s : State) (hf : r.func = none) (hr : r.id ∉ actingRegs) :
    writeReg path r v s = if r.id.row.acc = .rw ∨ r.id.row.acc = .rws then storeReg r v s else s := by
  unfold writeReg
  rw [hf]
  dsimp only
  split
  case h_18 => rfl
  all_goals
    rename_i hid
    exact absurd (hid ▸ by decide) hr

theorem storeReg_unwritable {r : RegRef} {s : State} (v : W64) (h : s.writable r = false) : storeReg r v s = s := by
  simp [storeReg, h]

/-- What a register holds after a value is stored in it (R7, R521). -/
def State.stored (s : State) (r : RegRef) (v : W64) : W64 :=
  clampReg r.id (s.reg r.id r.d r.i r.j) (maskWrite r.id.row.mask (s.reg r.id r.d r.i r.j) v)

theorem storeReg_rw {r : RegRef} {s : State} (v : W64) (h : s.writable r = true) (hacc : r.id.row.acc = .rw) :
    storeReg r v s = s.setReg r.id r.d r.i r.j (s.stored r v) := by
  simp [storeReg, h, hacc, State.stored]

theorem storeReg_rws {r : RegRef} {s : State} (v : W64) (h : s.writable r = true) (hacc : r.id.row.acc = .rws) :
    storeReg r v s = saveSticky (s.setReg r.id r.d r.i r.j (s.stored r v)) := by
  simp [storeReg, h, hacc, State.stored]

/-- The value that a write gives a register before masking: the word that is not written stands (R4). -/
def written (wide : Bool) (r : RegRef) (old v : W64) : W64 :=
  if wide then v
  else if r.id.row.wide = false then BitVec.ofNat 64 (v.setWidth 32).toNat
  else if r.high then BitVec.ofNat 64 (old.toNat % 2 ^ 32 + (v.setWidth 32).toNat * 2 ^ 32)
  else BitVec.ofNat 64 ((v.setWidth 32).toNat + old.toNat / 2 ^ 32 * 2 ^ 32)

theorem writeWord_at {off : Nat} {r : RegRef} (path : Path) (v : W64) (s : State) (hr : regAt off = some r) :
    writeWord path off (v.setWidth 32) s = writeReg path r (written false r (s.reg r.id r.d r.i r.j) v) s := by
  cases hw : r.id.row.wide <;> cases hh : r.high <;> simp [writeWord, written, hr, hw, hh]

theorem writeAt_wide {s : State} {path : Path} {off : Nat} {r : RegRef} (v : W64) (h : WritesAt s path off)
    (ha : off % 8 = 0) (hr : regAt off = some r) (hw : r.id.row.wide = true) :
    writeAt path off 8 v s = writeReg path r v s := by
  obtain ⟨-, hlive, hpriv, hup⟩ := h
  simp [writeAt, hlive, hpriv, hup, ha, writeWide, hr, hw]

/-- An aligned write of a word, or of a 64-bit register whole, reaches its register. -/
theorem writeAt_register {s : State} {path : Path} {off : Nat} {r : RegRef} {wide : Bool} (v : W64)
    (h : WritesAt s path off) (hr : regAt off = some r) (h8 : wide = true → off % 8 = 0 ∧ r.id.row.wide = true)
    (h4 : wide = false → off % 4 = 0) :
    writeAt path off (if wide then 8 else 4) v s = writeReg path r (written wide r (s.reg r.id r.d r.i r.j) v) s := by
  cases wide with
  | false => exact (writeAt_word v h (h4 rfl)).trans (writeWord_at path v s hr)
  | true => exact writeAt_wide v h (h8 rfl).1 hr (h8 rfl).2

theorem w1cWrite_plain {r : RegRef} (v set : Nat) (s : State) (h : r.id ≠ .fabEvent) :
    w1cWrite r v set s = (s.modReg r.id r.d r.i r.j (fun w => w &&& ~~~(BitVec.ofNat 64 (v &&& r.id.row.mask)))).modReg
      r.id r.d r.i r.j (fun w => w ||| BitVec.ofNat 64 (set &&& r.id.row.mask)) :=
  if_neg h

/-! ### Registers that a read only shows -/

theorem cycleRegs_ro : ∀ (x : Island), ∀ c ∈ cycleRegs x, c.1.row.acc = .ro := by decide +kernel

theorem RegRef.isCycle_ro {r : RegRef} (h : r.isCycle = true) : r.id.row.acc = .ro := by
  obtain ⟨x, -, hx⟩ := List.any_eq_true.1 h
  exact cycleRegs_ro x _ (List.contains_iff_mem.1 hx)

/-- A read of a read-to-clear register without free bits shows what it holds and draws nothing. -/
theorem State.view_rc {s : State} {r : RegRef} (hf : r.func = none) (hacc : r.id.row.acc = .rc)
    (hfree : r.id.freeBits = 0) (hne : r.id ∉ ([.dmaQLevel, .medLoad] : List RegId)) : (s.view r).2 = s := by
  have hcyc : r.isCycle = false := by
    by_contra hc
    have := RegRef.isCycle_ro (by simpa using hc)
    exact absurd (this.symm.trans hacc) (by decide)
  simp only [List.mem_cons, List.not_mem_nil, or_false, not_or] at hne
  obtain ⟨hlevel, hload⟩ := hne
  simp [State.view, hf, hacc, hfree, hcyc, hlevel, hload]

theorem afterRead_rc {path : Path} {r : RegRef} (ev : Nat) (s : State) (hpriv : privileged path = true)
    (hacc : r.id.row.acc = .rc) : afterRead path r ev s = s.setReg r.id r.d r.i r.j (rcAdd r.id 0 ev) := by
  simp [afterRead, hacc, hpriv]

end Sys2Proof.Machine
end

section
/-! SUPPORT. Which registers a reset keeps, and what every reset and its triggers leave (R452 to R456, R477, R504, R505). -/

namespace Sys2Proof.Machine

/-! ### Which register an offset names -/

theorem locate_sound {q : RegId} {d rel : Nat} {r : RegRef} (h : q.locate d rel = some r) :
    r.id = q ∧ r.i < q.row.n1 ∧ r.j < q.row.n2 ∧ (r.high = true → q.row.wide = true) ∧
      rel = q.row.base + r.i * q.row.s1 + r.j * q.row.s2 + (if r.high then 4 else 0) := by
  unfold RegId.locate at h
  dsimp only at h
  split at h
  · cases h
  · split at h
    · rename_i hbase hplace
      obtain ⟨hi, hj, hz⟩ := hplace
      cases h
      have h1 := Nat.div_add_mod' (rel - q.row.base) q.row.s1
      have h2 := Nat.div_add_mod' ((rel - q.row.base) % q.row.s1) q.row.s2
      refine ⟨rfl, hi, hj, fun hh => ?_, ?_⟩
      · rcases hz with hz | hz
        · rw [hz] at hh; cases hh
        · exact hz.1
      · rcases hz with hz | ⟨-, hz⟩ <;> rw [hz] at h2 ⊢ <;> simp <;> omega
    · cases h

theorem regAt_locate {off : Nat} {r : RegRef} (h : regAt off = some r) :
    (r.id ∈ RegId.hubAll ∧ r.id.locate 0 off = some r) ∨
      (r.id ∈ RegId.dieAll ∧ ∃ d, r.id.locate d (off % 0x100000) = some r) := by
  unfold regAt at h
  split at h
  · obtain ⟨q, hq, hl⟩ := List.exists_of_findSome?_eq_some h
    exact .inl ((locate_sound hl).1 ▸ ⟨hq, hl⟩)
  · split at h
    · obtain ⟨q, hq, hl⟩ := List.exists_of_findSome?_eq_some h
      exact .inr ((locate_sound hl).1 ▸ ⟨hq, _, hl⟩)
    · cases h

/-- AVL_STORE_STATUS lies at its offset alone. -/
theorem regAt_storeStatus {off : Nat} {r : RegRef} (h : regAt off = some r) (hid : r.id = .avlStoreStatus) :
    off = RegId.off .avlStoreStatus 0 0 0 := by
  rcases regAt_locate h with ⟨-, hl⟩ | ⟨hmem, -⟩
  · rw [hid] at hl
    obtain ⟨-, hi, hj, hwide, hoff⟩ := locate_sound hl
    have hlow : r.high = false := by
      cases hh : r.high with
      | false => rfl
      | true => exact absurd (hwide hh) (by decide)
    rw [hoff, hlow, Nat.lt_one_iff.1 hi, Nat.lt_one_iff.1 hj]
    rfl
  · rw [hid] at hmem
    exact absurd hmem (by decide)

theorem regAt_off_storeStatus :
    regAt (RegId.off .avlStoreStatus 0 0 0) = some ⟨.avlStoreStatus, 0, 0, 0, false⟩ := by decide +kernel

theorem regAt_off_secReset : regAt (RegId.off .secReset 0 0 0) = some ⟨.secReset, 0, 0, 0, false⟩ := by decide +kernel

/-! ### The registers that a reset keeps -/

theorem SMap.find_filter_key {α : Type} (m : SMap α) {f : Nat × α → Bool} (p : Nat → Bool) (hf : ∀ e, f e = p e.1)
    (k : Nat) : SMap.find (m.filter f) k = if p k then SMap.find m k else none := by
  induction m with
  | nil => simp
  | cons e rest ih =>
    obtain ⟨a, v⟩ := e
    rw [List.filter_cons, hf]
    by_cases hk : a = k
    · subst hk
      cases hp : p a <;> simp [SMap.find, hp, ih]
    · cases hp : p a <;> simp [SMap.find, hk, ih]

theorem SMap.find_map_val {α : Type} (m : SMap α) {f : Nat × α → Nat × α} (g : Nat → α → α)
    (hf : ∀ e, f e = (e.1, g e.1 e.2)) (k : Nat) : SMap.find (m.map f) k = (SMap.find m k).map (g k) := by
  induction m with
  | nil => rfl
  | cons e rest ih =>
    rw [List.map_cons, hf]
    simp only [SMap.find]
    split
    · rename_i hk
      rw [hk]; rfl
    · exact ih

/-- Whether a warm reset keeps a register, whole or in part (R452, log 113). -/
def keptWarm (r : RegRef) : Bool :=
  decide (r.id.row.acc = .rws) || sinceCold.contains r.id || decide (r.id = .avlStoreStatus)

theorem State.find_regsOf (s : State) (keep : RegRef → Bool) (k : Nat) :
    SMap.find (s.regsOf keep) k = if (regAt k).any keep then SMap.find s.regs k else none :=
  SMap.find_filter_key s.regs (fun a => (regAt a).any keep) (fun e => by cases regAt e.1 <;> rfl) k

theorem find_warmRegs (s : State) (k : Nat) :
    SMap.find (warmRegs s) k = if (regAt k).any keptWarm then
      (SMap.find s.regs k).map (fun v => if k = RegId.off .avlStoreStatus 0 0 0 then v &&& 0xFF00 else v) else none := by
  unfold warmRegs
  rw [SMap.find_map_val _ (fun a v => if a = RegId.off .avlStoreStatus 0 0 0 then v &&& 0xFF00 else v)
    (fun e => by split <;> rfl), State.find_regsOf]
  exact apply_ite (Option.map _) _ _ _

/-- Of AVL_STORE_STATUS a warm reset keeps the banks found invalid. -/
theorem getD_warmRegs_storeStatus (s : State) :
    SMap.getD (warmRegs s) (RegId.off .avlStoreStatus 0 0 0) (BitVec.ofNat 64 RegId.avlStoreStatus.row.rst) =
      s.reg .avlStoreStatus 0 0 0 &&& 0xFF00 := by
  have hkept : (regAt (RegId.off .avlStoreStatus 0 0 0)).any keptWarm = true := by
    rw [regAt_off_storeStatus]; decide
  unfold State.reg SMap.getD
  rw [find_warmRegs, if_pos hkept]
  cases SMap.find s.regs (RegId.off .avlStoreStatus 0 0 0) with
  | none => decide
  | some v => simp

/-- Every other register keeps its value or takes its reset value. -/
theorem getD_warmRegs {s : State} {q : RegId} {d i j : Nat} {r : RegRef} (hr : regAt (q.off d i j) = some r)
    (hne : q.off d i j ≠ RegId.off .avlStoreStatus 0 0 0) :
    SMap.getD (warmRegs s) (q.off d i j) (BitVec.ofNat 64 q.row.rst) =
      if r.id.row.acc = .rws ∨ r.id ∈ sinceCold then s.reg q d i j else BitVec.ofNat 64 q.row.rst := by
  have hid : r.id ≠ .avlStoreStatus := fun h => hne (regAt_storeStatus hr h)
  have hkept : (regAt (q.off d i j)).any keptWarm = decide (r.id.row.acc = .rws ∨ r.id ∈ sinceCold) := by
    simp [hr, keptWarm, hid]
  unfold State.reg SMap.getD
  rw [find_warmRegs, hkept]
  by_cases hc : r.id.row.acc = .rws ∨ r.id ∈ sinceCold
  · simp [hc, hne]
  · simp [hc]

/-! ### What a reset leaves in registers -/

/-- KIND of SEC_RESET_CAUSE (R477 Table 11). -/
def ResetKind.code : ResetKind → Nat
  | .powerOn => 0
  | .warm => 1
  | .cold => 2

theorem resetTo_cause (kind : ResetKind) (trigger : Nat) (s : State) :
    (resetTo kind trigger s).reg .secResetCause 0 0 0 = resetCause kind trigger := by
  unfold resetTo
  dsimp only
  rw [State.setRegFld_other _ _ _ _ (by decide), State.setReg_self]

theorem fld_resetCause_trigger (kind : ResetKind) {trigger : Nat} (h : trigger < 8) :
    fld (resetCause kind trigger) 10 8 = trigger := by
  cases kind <;> simp only [fld, bits, resetCause, BitVec.toNat_ofNat] <;> omega

theorem fld_resetCause_kind (kind : ResetKind) (trigger : Nat) :
    fld (resetCause kind trigger) 1 0 = kind.code := by
  cases kind <;> simp only [fld, bits, resetCause, ResetKind.code, BitVec.toNat_ofNat] <;> omega

theorem resetTo_stage_lt (kind : ResetKind) (trigger : Nat) (s : State) : (resetTo kind trigger s).boot.stage < 16 := by
  cases kind with
  | powerOn => exact Nat.zero_lt_succ 15
  | warm => exact Nat.one_lt_succ_succ 14
  | cold => exact Nat.one_lt_succ_succ 14

theorem resetTo_stage (kind : ResetKind) (trigger : Nat) (s : State) :
    (resetTo kind trigger s).regFld .secBootStatus 0 0 0 3 0 = (resetTo kind trigger s).boot.stage :=
  State.setRegFld_self _ .secBootStatus 0 0 0 (by decide) (by decide) (resetTo_stage_lt kind trigger s)

theorem resetTo_reg (kind : ResetKind) (trigger : Nat) (s : State) {q : RegId} {d i j : Nat}
    (hc : q.off d i j ≠ RegId.off .secResetCause 0 0 0) (hb : q.off d i j ≠ RegId.off .secBootStatus 0 0 0) :
    (resetTo kind trigger s).reg q d i j =
      SMap.getD (if kind = .warm then warmRegs s else []) (q.off d i j) (BitVec.ofNat 64 q.row.rst) :=
  (State.setRegFld_other _ _ _ _ hb).trans (State.setReg_other _ _ hc)

theorem resetTo_storeStatus (kind : ResetKind) (trigger : Nat) (s : State) :
    (resetTo kind trigger s).reg .avlStoreStatus 0 0 0 =
      if kind = .warm then s.reg .avlStoreStatus 0 0 0 &&& 0xFF00 else 0 := by
  rw [resetTo_reg kind trigger s (by decide) (by decide)]
  by_cases hk : kind = .warm
  · rw [if_pos hk, if_pos hk]
    exact getD_warmRegs_storeStatus s
  · rw [if_neg hk, if_neg hk]
    rfl

theorem resetTo_reg_kept (kind : ResetKind) (trigger : Nat) (s : State) {q : RegId} {d i j : Nat} {r : RegRef}
    (hr : regAt (q.off d i j) = some r)
    (hne : q.off d i j ∉ [RegId.off .secResetCause 0 0 0, RegId.off .secBootStatus 0 0 0, RegId.off .avlStoreStatus 0 0 0]) :
    (resetTo kind trigger s).reg q d i j =
      if kind = .warm ∧ (r.id.row.acc = .rws ∨ r.id ∈ sinceCold) then s.reg q d i j else BitVec.ofNat 64 q.row.rst := by
  simp only [List.mem_cons, List.not_mem_nil, or_false, not_or] at hne
  obtain ⟨hcause, hboot, hstore⟩ := hne
  rw [resetTo_reg kind trigger s hcause hboot]
  by_cases hk : kind = .warm
  · rw [if_pos hk, getD_warmRegs hr hstore]
    simp [hk]
  · rw [if_neg hk, if_neg (fun h => hk h.1)]
    rfl

/-! ### The active hub half, R439 -/

theorem keptHub_warm (s : State) (st : Store) (h : (if s.hub.activeB then s.hub.bFailed else s.hub.aFailed) = false) :
    (keptHub s .warm st).activeB = s.hub.activeB :=
  if_pos ⟨rfl, h⟩

theorem keptHub_fresh {s : State} {kind : ResetKind} (st : Store)
    (h : kind ≠ .warm ∨ (if s.hub.activeB then s.hub.bFailed else s.hub.aFailed) = true) :
    (keptHub s kind st).activeB = st.cur.spares.hubAFailed :=
  if_neg fun ⟨hk, hf⟩ => h.elim (fun hn => hn hk) (fun ht => by rw [hf] at ht; cases ht)

/-- What the module holds at the start of a reset (R452 to R456). -/
theorem resetLeaves_resetTo (kind : ResetKind) {trigger : Nat} (s : State) (ht : trigger < 8) :
    ResetLeaves kind trigger s
      { resetTo kind trigger s with regionMap := if kind = .warm then s.regionMap else [] } := by
  have hcause := resetTo_cause kind trigger s
  refine ⟨rfl, rfl, rfl, fun hk => ?_, fun hk => if_neg hk, rfl, keptHub_fresh _, rfl, rfl, rfl, rfl, rfl, rfl, rfl, rfl,
    rfl, rfl, rfl, rfl, rfl, ?_, ?_, resetTo_stage kind trigger s, resetTo_storeStatus kind trigger s,
    fun q d i j r hr hne => resetTo_reg_kept kind trigger s hr hne⟩
  · subst hk
    exact ⟨rfl, keptHub_warm s _⟩
  · exact (congrArg (fld · 10 8) hcause).trans (fld_resetCause_trigger kind ht)
  · refine (congrArg (fld · 1 0) hcause).trans ((fld_resetCause_kind kind trigger).trans ?_)
    cases kind <;> rfl

theorem resetLeaves_warm {trigger : Nat} (s : State) (ht : trigger < 8) :
    ResetLeaves .warm trigger s (warmReset trigger s) :=
  resetLeaves_resetTo .warm s ht

theorem resetLeaves_cold {trigger : Nat} (s : State) (ht : trigger < 8) :
    ResetLeaves .cold trigger { s with regionMap := [] } (coldReset trigger s) :=
  resetLeaves_resetTo .cold { s with regionMap := [] } ht

/-- A module with nothing mapped as its feeds come up, with the SLOT_ID sampled and the feeds in 34 to 50 V taken
(R397, R503). -/
def State.fed (s : State) (a b : Nat) (slot : Fin 16) : State :=
  { s with
    boot := { s.boot with slotId := slot, feedA := decide (340 ≤ a) && decide (a ≤ 500)
                          feedB := decide (340 ≤ b) && decide (b ≤ 500) }
    regionMap := [] }

theorem powerOn_fed (a b : Nat) (slot : Fin 16) (s : State) :
    powerOn a b slot s = resetTo .powerOn 0 (s.fed a b slot) := rfl

theorem resetLeaves_powerOn (a b : Nat) (slot : Fin 16) (s : State) :
    ResetLeaves .powerOn 0 (s.fed a b slot) (powerOn a b slot s) := by
  rw [powerOn_fed]
  exact resetLeaves_resetTo .powerOn (s.fed a b slot) (by decide)

/-! ### SEC_RESET -/

theorem secResetActs_privileged {path : Path} (key : W16) (s : State) (h : privileged path = true) :
    secResetActs path key s = (key == 0xCA1C && decide (3 ≤ s.regFld .secBootStatus 0 0 0 3 0)) := by
  cases path with
  | bar0 => rfl
  | henlan e => rfl
  | dev e => cases h

/-- A write of SEC_RESET takes its key from bits 31:16 and its kind from bits 1:0 (R477). -/
theorem writeAt_secReset {s : State} {path : Path} (key : W16) {k : Nat} (hk : k < 4)
    (h : WritesAt s path (RegId.off .secReset 0 0 0)) :
    writeAt path (RegId.off .secReset 0 0 0) 4 (BitVec.ofNat 64 (key.toNat * 2 ^ 16 + k)) s =
      if secResetActs path key s then (if k = 1 then warmReset 4 s else if k = 2 then coldReset 4 s else s) else s := by
  have hlt := key.isLt
  rw [writeAt_narrow _ h regAt_off_secReset rfl (by decide)]
  have hval : (BitVec.ofNat 64 (key.toNat * 2 ^ 16 + k)).toNat % 2 ^ 32 = key.toNat * 2 ^ 16 + k := by
    rw [BitVec.toNat_ofNat]; omega
  rw [hval]
  have hkey : BitVec.ofNat 16 (fld (BitVec.ofNat 64 (key.toNat * 2 ^ 16 + k)) 31 16) = key := by
    apply BitVec.eq_of_toNat_eq
    simp only [fld, bits, BitVec.toNat_ofNat]
    omega
  have hkind : fld (BitVec.ofNat 64 (key.toNat * 2 ^ 16 + k)) 1 0 = k := by
    simp only [fld, bits, BitVec.toNat_ofNat]
    omega
  show secReset path (BitVec.ofNat 64 (key.toNat * 2 ^ 16 + k)) s = _
  unfold secReset
  rw [hkey, hkind]

theorem exec_secResetWarm {s : State} {path : Path} (key : W16) (h : WritesAt s path (RegId.off .secReset 0 0 0)) :
    exec (.secResetWarm path key) s = .next (if secResetActs path key s then warmReset 4 s else s) :=
  congrArg Host.Outcome.next ((reach_free h.free rfl).trans (writeAt_secReset key (k := 1) (by decide) h))

theorem exec_secResetCold {s : State} {path : Path} (key : W16) (h : WritesAt s path (RegId.off .secReset 0 0 0)) :
    exec (.secResetCold path key) s = .next (if secResetActs path key s then coldReset 4 s else s) :=
  congrArg Host.Outcome.next ((reach_free h.free rfl).trans (writeAt_secReset key (k := 2) (by decide) h))

theorem exec_henlanWarmReset {s : State} (e : Nat) (hfree : s.hub.takeover = false) (hup : s.henlanUp = true) :
    exec (.henlanWarmReset e) s = .next (warmReset 5 s) :=
  congrArg Host.Outcome.next ((reach_free hfree rfl).trans (if_pos hup))

theorem exec_henlanColdReset {s : State} (e : Nat) (hfree : s.hub.takeover = false) (hup : s.henlanUp = true) :
    exec (.henlanColdReset e) s = .next (coldReset 5 s) :=
  congrArg Host.Outcome.next ((reach_free hfree rfl).trans (if_pos hup))

/-! ### Pins and feeds -/

theorem perstAssert_short {ns : Nat} (s : State) (h : ns < 1000) : perstAssert ns s = s := if_pos h

theorem perstAssert_long {ns : Nat} {s : State} (h : 1000 ≤ ns) (hp : s.boot.powered = true) :
    perstAssert ns s = warmReset 2 { s with boot := { s.boot with perstLow := true } } := by
  simp [perstAssert, Nat.not_lt.2 h, hp]

theorem resetReq_short {ns : Nat} {s : State} (h : ns < 10000000) (hp : s.boot.powered = true) : resetReq ns s = s := by
  simp [resetReq, h, hp]

theorem resetReq_long {ns : Nat} {s : State} (h : 10000000 ≤ ns) (hp : s.boot.powered = true) :
    resetReq ns s = coldReset 1 { s with boot := { s.boot with resetReqLow := true } } := by
  simp [resetReq, Nat.not_lt.2 h, hp]

theorem exec_powerOn {s : State} {a b : Nat} (slot : Fin 16) (hp : s.boot.powered = false)
    (hf : (340 ≤ a ∧ a ≤ 500) ∨ (340 ≤ b ∧ b ≤ 500)) :
    exec (.powerOn a b slot) s = .next (powerOn a b slot s) := by
  have hgood : ((feedBits a).1 || (feedBits b).1) = true := by simpa [feedBits] using hf
  refine congrArg Host.Outcome.next (if_pos ?_)
  rw [hp, hgood]
  rfl

end Sys2Proof.Machine
end

section
/-! SUPPORT. Configuration requests, power states and MCTP control messages (R317, R318, R458, R503). -/

namespace Sys2Proof.Machine

/-! ### Configuration requests, R317, R318, R458 -/

section
variable {s : State} (off size : Nat) (w : Option Nat)

theorem exec_configRequest (hfree : s.hub.takeover = false) :
    exec (.configRequest off size w) s = .next (configRequest off size w s) :=
  congrArg Host.Outcome.next (reach_free hfree rfl)

theorem configRequest_retry (hp : s.boot.powered = true) (hl : s.boot.linkUp = true) (hloop : s.hub.linkLoopback = false)
    (hfar : s.hub.farEnd = false) (hcfg : s.boot.cfgReady = false) :
    configRequest off size w s = { s with out := s.out ++ [.cfgRetry] } := by
  simp [configRequest, hp, hl, hloop, hfar, hcfg, State.emit]

theorem configRequest_read (hp : s.boot.powered = true) (hl : s.boot.linkUp = true) (hloop : s.hub.linkLoopback = false)
    (hfar : s.hub.farEnd = false) (hcfg : s.boot.cfgReady = true) :
    configRequest off size none s = { s with out := s.out ++
      [.cfgData (leNat ((List.range size).map (fun k => BitVec.ofNat 8 (s.cfgByte (off + k)))))] } := by
  simp [configRequest, hp, hl, hloop, hfar, hcfg, State.emit]

theorem configRequest_write (v : Nat) (hp : s.boot.powered = true) (hl : s.boot.linkUp = true)
    (hloop : s.hub.linkLoopback = false) (hfar : s.hub.farEnd = false) (hcfg : s.boot.cfgReady = true) :
    configRequest off size (some v) s = cfgWrite off size v s := by
  simp [configRequest, hp, hl, hloop, hfar, hcfg]

end

/-- The first four bytes of configuration space are those of vendor and device (R1). -/
theorem State.cfgByte_identity (s : State) {k : Nat} (h : k < 4) : s.cfgByte k = 0x0832CA1C / 2 ^ (8 * k) % 256 := by
  have hfields : s.cfgFields = (0x00, 4, 2 ^ 32 - 1, 0x0832CA1C) :: s.cfgFields.tail := rfl
  have hmask : (2 ^ 32 - 1) / 2 ^ (8 * k) % 256 = 255 := by interval_cases k <;> rfl
  unfold State.cfgByte
  rw [hfields, List.find?_cons_of_pos (by simpa using h)]
  simp only [Nat.sub_zero, hmask, Nat.sub_self, Nat.and_zero, Nat.or_zero]
  exact (Nat.and_two_pow_sub_one_eq_mod _ 8).trans (Nat.mod_mod _ _)

theorem State.cfgRead_identity (s : State) :
    leNat ((List.range 4).map (fun k => BitVec.ofNat 8 (s.cfgByte (0 + k)))) = 0x0832CA1C := by
  have hbytes : (List.range 4).map (fun k => BitVec.ofNat 8 (s.cfgByte (0 + k))) =
      (List.range 4).map (fun k => BitVec.ofNat 8 (0x0832CA1C / 2 ^ (8 * k) % 256)) :=
    List.map_congr_left fun k hk => by rw [Nat.zero_add, State.cfgByte_identity s (List.mem_range.1 hk)]
  rw [hbytes]
  simp [List.range, List.range.loop, leNat]

theorem msixSendPending_hub (s : State) : (msixSendPending s).hub = s.hub :=
  (msixSendPending_keeps (ps := [.out, .regs]) rfl (Keeps.refl _ s)).rest.hub rfl

theorem Within.hub_regs_out {s t : State} (h : Within [.hub, .out, .regs] s t) :
    t = { s with hub := t.hub, regs := t.regs, out := t.out } := h

theorem cfgWrite_frame (off size v : Nat) (s : State) :
    cfgWrite off size v s = { s with hub := (cfgWrite off size v s).hub, regs := (cfgWrite off size v s).regs
                                     out := (cfgWrite off size v s).out } :=
  (cfgWrite_keeps (ps := [.hub, .out, .regs]) rfl (Keeps.refl _ s)).rest.hub_regs_out

/-- The bits of the second byte of a merged word are those written, where the write reaches that byte. -/
theorem testBit_cfgMerge {o off size k : Nat} (old v : Nat) (h1 : off ≤ o + 1) (h2 : o + 1 < off + size) (hk : k < 8) :
    (cfgMerge o 2 old off size v).testBit (8 + k) = (v / 2 ^ (8 * (o + 1 - off))).testBit k := by
  unfold cfgMerge tab
  rw [show List.range 2 = [0, 1] from rfl]
  simp only [List.map_cons, List.map_nil, leNat, if_pos (And.intro h1 h2), Nat.mul_zero, Nat.add_zero]
  rw [Nat.add_comm _ (256 * _), show 256 = 2 ^ 8 from rfl, Nat.testBit_two_pow_mul_add _ (BitVec.isLt _),
    if_neg (by omega), Nat.add_sub_cancel_left, BitVec.toNat_ofNat, Nat.testBit_mod_two_pow]
  simp [hk]

/-- A write of the byte of MSI-X Enable and Function Mask sets them as written (R318, log 7). -/
theorem cfgWrite_hub {off size : Nat} (v : Nat) (s : State) (h1 : off ≤ Config.msixControlOff + 1)
    (h2 : Config.msixControlOff + 1 < off + size) : (cfgWrite off size v s).hub = { s.hub with
      bars := (cfgWrite off size v s).hub.bars, devCtl := (cfgWrite off size v s).hub.devCtl
      msixFnMask := (v / 2 ^ (8 * (Config.msixControlOff + 1 - off))).testBit 6
      msixEnable := (v / 2 ^ (8 * (Config.msixControlOff + 1 - off))).testBit 7 } := by
  have hmask := fun old => testBit_cfgMerge (k := 6) old v h1 h2 (by decide)
  have henable := fun old => testBit_cfgMerge (k := 7) old v h1 h2 (by decide)
  rw [← hmask, ← henable]
  unfold cfgWrite
  dsimp only
  split
  · rw [msixSendPending_hub]
  · rfl

/-! ### Power states, R317 -/

theorem exec_d3hotEntry {s : State} (hfree : s.hub.takeover = false) (hup : s.barUp = true) :
    exec .d3hotEntry s = .next { s with hub := { s.hub with d3hot := true } } :=
  congrArg Host.Outcome.next ((reach_free hfree rfl).trans (if_pos hup))

theorem exec_d0Return {s : State} (hfree : s.hub.takeover = false) (hup : s.barUp = true) :
    exec .d0Return s = .next { s with hub := { s.hub with d3hot := false } } :=
  congrArg Host.Outcome.next ((reach_free hfree rfl).trans (if_pos hup))

theorem State.canFetch_d3hot {s : State} (h : s.hub.d3hot = true) (r : RingId) : s.canFetch r = false := by
  simp [State.canFetch, h]

/-! ### MCTP control messages, R503 -/

theorem State.addressed_iff (s : State) (dst : BitVec 7) :
    s.addressed dst = true ↔ dst = BitVec.ofNat 7 (0x30 + s.boot.slotId.val) ∨ s.boot.dynAddr = some dst := by
  simp [State.addressed, State.staticAddr]

theorem exec_mctpControlMessage {s : State} (msg : MctpMsg) (hfree : s.hub.takeover = false) :
    exec (.mctpControlMessage msg) s = .next (mctpControl msg s) :=
  congrArg Host.Outcome.next (reach_free hfree rfl)

/-! From step 1 of start-up each message is served. -/

section
variable {s : State} (hp : s.boot.powered = true) (hst : 1 ≤ s.boot.stage)
include hp hst

theorem mctpControl_setdasa (dst a : BitVec 7) : mctpControl (.setdasa dst a) s =
    if dst = s.staticAddr then { s with boot := { s.boot with dynAddr := some a } } else s := by
  simp [mctpControl, hp, Nat.ne_of_gt hst]

theorem mctpControl_entdaa (a : BitVec 7) :
    mctpControl (.entdaa a) s = { s with boot := { s.boot with dynAddr := some a } } := by
  simp [mctpControl, hp, Nat.ne_of_gt hst]

theorem mctpControl_setEndpointId (dst : BitVec 7) (e : Byte) : mctpControl (.setEndpointId dst e) s =
    if s.addressed dst then { s with boot := { s.boot with eid := e }, out := s.out ++ [.mctpReply e] } else s := by
  simp [mctpControl, hp, Nat.ne_of_gt hst, State.emit]

theorem mctpControl_getEndpointId (dst : BitVec 7) : mctpControl (.getEndpointId dst) s =
    if s.addressed dst then { s with out := s.out ++ [.mctpReply s.boot.eid] } else s := by
  simp [mctpControl, hp, Nat.ne_of_gt hst, State.emit]

end

end Sys2Proof.Machine
end

section
/-! The statements of scope and register access, settled. -/

namespace Sys2Proof

open Machine

/-- Settles O3: the state after reset lists nothing, so every lookup gives its default. -/
theorem resetState : Obligations.ResetState := by
  unfold Obligations.ResetState
  refine ⟨fun r d i j => rfl, fun f => ⟨rfl, rfl, rfl⟩, fun j => rfl, fun i => rfl, rfl, rfl, rfl, rfl, rfl, rfl, rfl, rfl,
    rfl, rfl, ?_⟩
  decide

/-- Settles O8: both memories read back what was written and keep every byte outside the range. -/
theorem memoryReadBack : Obligations.MemoryReadBack := by
  unfold Obligations.MemoryReadBack
  intro s a bs
  refine ⟨anyRead_write_self s a bs, fun hd => ?_, fun hh => ?_⟩
  · obtain ⟨hhost, hrest⟩ := anyWrite_dev s a bs hd
    exact ⟨hrest, (anyWrite_frame s a bs).trans (by rw [hhost])⟩
  · obtain ⟨hdev, hrest⟩ := anyWrite_host s a bs hh
    exact ⟨hrest, (anyWrite_frame s a bs).trans (by rw [hdev])⟩

/-- Settles O9: a word read is its low or high half with the latch it leaves, takes or does not find. -/
theorem latchedRead : Obligations.LatchedRead := by
  unfold Obligations.LatchedRead
  intro s path off r h hr hw
  have hfree := h.free
  refine ⟨fun e => rfl, fun hh => ?_, fun hh x hx => ?_, fun hh hx => ?_⟩
  · refine ⟨_, exec_lowWordRead path off hfree, ?_⟩
    rw [readAt_word 0 h, readWord_low_wide path 0 hr hh hw]
    have hkept : (afterRead path r 0 (s.view r).2).latches = s.latches := by
      rw [afterRead_frame, State.view_frame]
    have hsent : (afterRead path r 0 (s.view r).2).out = s.out := by
      rw [afterRead_frame, State.view_frame]
    exact ⟨State.latch_relatch_self _ _ _ _,
      fun q o hne => (State.latch_relatch_other _ _ hne).trans (State.latch_congr hkept q o),
      congrArg (· ++ _) hsent⟩
  · refine ⟨_, exec_highWordRead path off hfree, ?_⟩
    rw [readAt_word 0 h, readWord_latched path 0 hr hh hx]
    exact ⟨State.latch_unlatch_self _ _ _, fun q o hne => State.latch_unlatch_other _ hne, rfl⟩
  · refine ⟨_, exec_highWordRead path off hfree, ?_⟩
    rw [readAt_word 0 h, readWord_unlatched path 0 hr hh hx]
    exact congrArg (fun u : State => u.emit _) (State.view_frame s r)

/-- Settles O10: the test for alignment comes before the block is asked. -/
theorem misalignedAccess : Obligations.MisalignedAccess := by
  unfold Obligations.MisalignedAccess
  intro s path off size hfree hlive hm
  refine ⟨fun v hpriv => ?_, ?_⟩
  · rw [exec_misalignedWrite path off size v hfree, writeAt_misaligned _ hlive hpriv hm]
  · rw [exec_misalignedRead path off size hfree, readAt_misaligned 0 hlive hm]
    rfl

/-- Settles O11: a plain register's write is `storeReg` where the row allows a write, and nothing elsewhere. -/
theorem registerWrite : Obligations.RegisterWrite := by
  unfold Obligations.RegisterWrite
  intro s path off wide v r h hr hf h8 h4 hplain old word new
  have hexec : exec (.registerWrite path off wide v) s =
      .next (if r.id.row.acc = .rw ∨ r.id.row.acc = .rws then storeReg r new s else s) := by
    rw [exec_registerWrite path off wide v h.free, writeAt_register v h hr h8 h4]
    exact congrArg Host.Outcome.next (writeReg_plain path _ s hf hplain)
  rw [hexec]
  refine ⟨fun hnot => ?_, fun hacc hwr => ?_⟩
  · rcases hnot with hro | hrc | hno
    · simp [hro]
    · simp [hrc]
    · simp [storeReg_unwritable new hno]
  · rw [if_pos hacc]
    refine ⟨_, rfl, ?_⟩
    rcases hacc with hrw | hrws
    · rw [storeReg_rw new hwr hrw]
      exact ⟨State.setReg_self _ _ _ _ _ _, fun q d i j hne => State.setReg_other _ _ hne, rfl, fun _ => rfl,
        fun hrws => absurd (hrw.symm.trans hrws) (by decide)⟩
    · rw [storeReg_rws new hwr hrws]
      exact ⟨State.setReg_self _ _ _ _ _ _, fun q d i j hne => State.setReg_other s _ hne, rfl,
        fun hrw => absurd (hrws.symm.trans hrw) (by decide), fun _ => rfl⟩

/-- Settles O12: a W1C write is two updates of the one register; an RC read shows the register and stores the events of
its own cycle. -/
theorem writeOneAndReadToClear : Obligations.WriteOneAndReadToClear := by
  unfold Obligations.WriteOneAndReadToClear
  constructor
  · intro s path off v set r h ha hr hacc hne
    refine ⟨_, exec_w1cWrite v set h ha hr hacc, ?_⟩
    rw [w1cWrite_plain _ _ _ hne]
    refine ⟨rfl, ?_, fun q d i j hq => ?_⟩
    · rw [State.modReg_self, State.modReg_self]
    · exact (State.setReg_other _ _ hq).trans (State.setReg_other _ _ hq)
  · intro s path off ev r h hpriv hr hf hh hw hacc hfree hne
    refine ⟨_, exec_rcRegisterRead path off ev h.free, ?_⟩
    rw [readAt_word ev h, readWord_narrow path ev hr hh hw, State.view_rc hf hacc hfree hne, afterRead_rc ev s hpriv hacc]
    exact ⟨State.setReg_self _ _ _ _ _ _, fun q d i j hq => State.setReg_other s _ hq, rfl⟩

/-- Settles O20: by the three groups of commands: configuration requests, power states, MCTP control messages. -/
theorem configurationAndPowerStates : Obligations.ConfigurationAndPowerStates := by
  unfold Obligations.ConfigurationAndPowerStates
  refine ⟨fun s off size w hfree hp hl hloop hfar => ⟨fun hcfg => ?_, fun hcfg => ⟨?_, ?_, fun v h1 h2 => ?_⟩⟩,
    fun s hfree hup => ⟨?_, ?_⟩, fun s hfree hp hst => ⟨fun dst a => ?_, fun a => ?_, fun dst e => ?_⟩⟩
  · rw [exec_configRequest off size w hfree, configRequest_retry off size w hp hl hloop hfar hcfg]
  · rw [exec_configRequest 0 4 none hfree, configRequest_read 0 4 hp hl hloop hfar hcfg, State.cfgRead_identity]
  · exact ⟨_, (exec_configRequest off size none hfree).trans
      (congrArg Host.Outcome.next (configRequest_read off size hp hl hloop hfar hcfg))⟩
  · refine ⟨_, exec_configRequest off size (some v) hfree, ?_⟩
    rw [configRequest_write off size v hp hl hloop hfar hcfg]
    exact ⟨cfgWrite_hub v s h1 h2, cfgWrite_frame off size v s⟩
  · exact ⟨_, exec_d3hotEntry hfree hup, rfl, State.canFetch_d3hot rfl⟩
  · exact ⟨_, exec_d0Return hfree hup, rfl⟩
  · rw [exec_mctpControlMessage _ hfree, mctpControl_setdasa hp hst]
    rfl
  · rw [exec_mctpControlMessage _ hfree, mctpControl_entdaa hp hst]
  · intro ours
    rw [exec_mctpControlMessage _ hfree, exec_mctpControlMessage _ hfree, mctpControl_setEndpointId hp hst,
      mctpControl_getEndpointId hp hst]
    have hours : s.addressed dst = true ↔ ours := s.addressed_iff dst
    exact ⟨fun h => by rw [if_pos (hours.2 h)], fun h => by rw [if_pos (hours.2 h)],
      fun h => ⟨by rw [if_neg (fun c => h (hours.1 c))], by rw [if_neg (fun c => h (hours.1 c))]⟩⟩

/-- Settles O29: every trigger leads to `resetTo`, and `resetLeaves_resetTo` says what that keeps. -/
theorem resetTriggers : Obligations.ResetTriggers := by
  unfold Obligations.ResetTriggers
  refine ⟨fun s ns hp => ⟨fun h => ?_, fun h => ?_, fun h => ?_, fun h => ?_⟩, fun s => ⟨rfl, rfl, fun hl => ?_,
    fun e hfree hup => ⟨?_, ?_⟩⟩, fun s path key h => ⟨fun hno => ?_, fun h3 => ?_⟩, fun s a b slot hp hf => ?_⟩
  · exact congrArg Host.Outcome.next (perstAssert_short s h)
  · exact ⟨_, congrArg Host.Outcome.next (perstAssert_long h hp), rfl, resetLeaves_warm _ (by decide)⟩
  · exact congrArg Host.Outcome.next (resetReq_short h hp)
  · exact ⟨_, congrArg Host.Outcome.next (resetReq_long h hp), rfl, rfl, resetLeaves_cold _ (by decide)⟩
  · exact ⟨_, congrArg Host.Outcome.next (if_pos hl), resetLeaves_warm s (by decide)⟩
  · exact ⟨_, exec_henlanWarmReset e hfree hup, resetLeaves_warm s (by decide)⟩
  · exact ⟨_, exec_henlanColdReset e hfree hup, resetLeaves_cold s (by decide)⟩
  · have hacts : secResetActs path key s = false := by
      rw [secResetActs_privileged key s h.privileged]
      simpa [imp_iff_not_or] using hno
    rw [exec_secResetWarm key h, exec_secResetCold key h, hacts]
    exact ⟨rfl, rfl⟩
  · have hacts : secResetActs path 0xCA1C s = true := by
      rw [secResetActs_privileged _ s h.privileged]
      simpa using h3
    refine ⟨⟨_, exec_secResetWarm _ h, ?_⟩, ⟨_, exec_secResetCold _ h, ?_⟩⟩
    · rw [if_pos hacts]
      exact resetLeaves_warm s (by decide)
    · rw [if_pos hacts]
      exact resetLeaves_cold s (by decide)
  · exact ⟨_, exec_powerOn slot hp hf, resetLeaves_powerOn a b slot s⟩

end Sys2Proof
end

section
/-! SUPPORT. What every command and every step keeps: the exec lemmas of Laws/Keeps*.lean put together. -/

namespace Sys2Proof.Machine

/-- Every command may change any part of the state but the queue; it keeps both memories canonical, the order of the
descriptors in flight and what was sent. -/
theorem exec_keeps {c : Instr} {s t : State} (h : exec c s = .next t) : Keeps Parts.any s t := by
  cases c with
  | lowWordRead => exact execLowWordRead_keeps rfl (Keeps.refl _ s) h
  | highWordRead => exact execHighWordRead_keeps rfl (Keeps.refl _ s) h
  | misalignedAccess => exact execMisalignedAccess_keeps rfl (Keeps.refl _ s) h
  | registerWrite => exact execRegisterWrite_keeps rfl (Keeps.refl _ s) h
  | rcRegisterRead => exact execRcRegisterRead_keeps rfl (Keeps.refl _ s) h
  | w1cWrite => exact execW1cWrite_keeps rfl (Keeps.refl _ s) h
  | functionEnable => exact execFunctionEnable_keeps rfl (Keeps.refl _ s) h
  | functionDisable => exact execFunctionDisable_keeps rfl (Keeps.refl _ s) h
  | startingComplete => exact execStartingComplete_keeps rfl (Keeps.refl _ s) h
  | drainComplete => exact execDrainComplete_keeps rfl (Keeps.refl _ s) h
  | regionCommit => exact execRegionCommit_keeps rfl (Keeps.refl _ s) h
  | regionCommitDone => exact execRegionCommitDone_keeps rfl (Keeps.refl _ s) h
  | coreDisable => exact execCoreDisable_keeps rfl (Keeps.refl _ s) h
  | contextEnable => exact execContextEnable_keeps rfl (Keeps.refl _ s) h
  | bar4CtlWrite => exact execBar4CtlWrite_keeps rfl (Keeps.refl _ s) h
  | barResize => exact execBarResize_keeps rfl (Keeps.refl _ s) h
  | bar4Read => exact execBar4Read_keeps rfl (Keeps.refl _ s) h
  | bar4Write => exact execBar4Write_keeps rfl (Keeps.refl _ s) h
  | configRequest => exact execConfigRequest_keeps rfl (Keeps.refl _ s) h
  | ringDoorbell => exact execRingDoorbell_keeps rfl (Keeps.refl _ s) h
  | eventDoorbell => exact execEventDoorbell_keeps rfl (Keeps.refl _ s) h
  | slotFetchStall => exact execSlotFetchStall_keeps rfl (Keeps.refl _ s) h
  | invalidDescriptor => exact execInvalidDescriptor_keeps rfl (Keeps.refl _ s) h
  | dispatch => exact execDispatch_keeps rfl (Keeps.refl _ s) h
  | copy => exact execCopy_keeps rfl (Keeps.refl _ s) h
  | fill => exact execFill_keeps rfl (Keeps.refl _ s) h
  | compare => exact execCompare_keeps rfl (Keeps.refl _ s) h
  | fence => exact execFence_keeps rfl (Keeps.refl _ s) h
  | fenceComplete => exact execFenceComplete_keeps rfl (Keeps.refl _ s) h
  | semSignal => exact execSemSignal_keeps rfl (Keeps.refl _ s) h
  | semSignalApply => exact execSemSignalApply_keeps rfl (Keeps.refl _ s) h
  | semWait => exact execSemWait_keeps rfl (Keeps.refl _ s) h
  | semWaitSatisfied => exact execSemWaitSatisfied_keeps rfl (Keeps.refl _ s) h
  | semWaitTimeout => exact execSemWaitTimeout_keeps rfl (Keeps.refl _ s) h
  | timestamp => exact execTimestamp_keeps rfl (Keeps.refl _ s) h
  | timestampWrite => exact execTimestampWrite_keeps rfl (Keeps.refl _ s) h
  | energyQuery => exact execEnergyQuery_keeps rfl (Keeps.refl _ s) h
  | mediaOpen => exact execMediaOpen_keeps rfl (Keeps.refl _ s) h
  | mediaSubmit => exact execMediaSubmit_keeps rfl (Keeps.refl _ s) h
  | mediaClose => exact execMediaClose_keeps rfl (Keeps.refl _ s) h
  | planLoad => exact execPlanLoad_keeps rfl (Keeps.refl _ s) h
  | planLoadCheck => exact execPlanLoadCheck_keeps rfl (Keeps.refl _ s) h
  | planUnload => exact execPlanUnload_keeps rfl (Keeps.refl _ s) h
  | planUnloadEffect => exact execPlanUnloadEffect_keeps rfl (Keeps.refl _ s) h
  | reduceScatter => exact execReduceScatter_keeps rfl (Keeps.refl _ s) h
  | allGather => exact execAllGather_keeps rfl (Keeps.refl _ s) h
  | allReduce => exact execAllReduce_keeps rfl (Keeps.refl _ s) h
  | exponentMax => exact execExponentMax_keeps rfl (Keeps.refl _ s) h
  | permute => exact execPermute_keeps rfl (Keeps.refl _ s) h
  | holdoffExpiry => exact execHoldoffExpiry_keeps rfl (Keeps.refl _ s) h
  | linkTraining => exact execLinkTraining_keeps rfl (Keeps.refl _ s) h
  | linkNarrow => exact execLinkNarrow_keeps rfl (Keeps.refl _ s) h
  | d3hotEntry => exact execD3hotEntry_keeps rfl (Keeps.refl _ s) h
  | d0Return => exact execD0Return_keeps rfl (Keeps.refl _ s) h
  | powerOn => exact execPowerOn_keeps rfl (Keeps.refl _ s) h
  | perstAssert => exact execPerstAssert_keeps rfl (Keeps.refl _ s) h
  | perstDeassert => exact execPerstDeassert_keeps rfl (Keeps.refl _ s) h
  | hotReset => exact execHotReset_keeps rfl (Keeps.refl _ s) h
  | resetReq => exact execResetReq_keeps rfl (Keeps.refl _ s) h
  | secResetWarm => exact execSecResetWarm_keeps rfl (Keeps.refl _ s) h
  | secResetCold => exact execSecResetCold_keeps rfl (Keeps.refl _ s) h
  | henlanWarmReset => exact execHenlanWarmReset_keeps rfl (Keeps.refl _ s) h
  | henlanColdReset => exact execHenlanColdReset_keeps rfl (Keeps.refl _ s) h
  | startupStepDone => exact execStartupStepDone_keeps rfl (Keeps.refl _ s) h
  | secRecover => exact execSecRecover_keeps rfl (Keeps.refl _ s) h
  | secCommitSvn => exact execSecCommitSvn_keeps rfl (Keeps.refl _ s) h
  | getVersion => exact execGetVersion_keeps rfl (Keeps.refl _ s) h
  | getCapabilities => exact execGetCapabilities_keeps rfl (Keeps.refl _ s) h
  | negotiateAlgorithms => exact execNegotiateAlgorithms_keeps rfl (Keeps.refl _ s) h
  | getDigests => exact execGetDigests_keeps rfl (Keeps.refl _ s) h
  | getCertificate => exact execGetCertificate_keeps rfl (Keeps.refl _ s) h
  | challenge => exact execChallenge_keeps rfl (Keeps.refl _ s) h
  | getMeasurements => exact execGetMeasurements_keeps rfl (Keeps.refl _ s) h
  | keyExchange => exact execKeyExchange_keeps rfl (Keeps.refl _ s) h
  | finish => exact execFinish_keeps rfl (Keeps.refl _ s) h
  | endSession => exact execEndSession_keeps rfl (Keeps.refl _ s) h
  | heartbeat => exact execHeartbeat_keeps rfl (Keeps.refl _ s) h
  | keyUpdate => exact execKeyUpdate_keeps rfl (Keeps.refl _ s) h
  | chunkSend => exact execChunkSend_keeps rfl (Keeps.refl _ s) h
  | chunkGet => exact execChunkGet_keeps rfl (Keeps.refl _ s) h
  | respondIfReady => exact execRespondIfReady_keeps rfl (Keeps.refl _ s) h
  | getCsr => exact execGetCsr_keeps rfl (Keeps.refl _ s) h
  | setCertificate => exact execSetCertificate_keeps rfl (Keeps.refl _ s) h
  | pskExchange => exact execPskExchange_keeps rfl (Keeps.refl _ s) h
  | getKeyPairInfo => exact execGetKeyPairInfo_keeps rfl (Keeps.refl _ s) h
  | dispatchStart => exact execDispatchStart_keeps rfl (Keeps.refl _ s) h
  | preemption => exact execPreemption_keeps rfl (Keeps.refl _ s) h
  | switchStepDone => exact execSwitchStepDone_keeps rfl (Keeps.refl _ s) h
  | dispatchResume => exact execDispatchResume_keeps rfl (Keeps.refl _ s) h
  | dispatchComplete => exact execDispatchComplete_keeps rfl (Keeps.refl _ s) h
  | mm => exact execMm_keeps rfl (Keeps.refl _ s) h
  | mv => exact execMv_keeps rfl (Keeps.refl _ s) h
  | conv => exact execConv_keeps rfl (Keeps.refl _ s) h
  | tconv => exact execTconv_keeps rfl (Keeps.refl _ s) h
  | tconvComplete => exact execTconvComplete_keeps rfl (Keeps.refl _ s) h
  | attb => exact execAttb_keeps rfl (Keeps.refl _ s) h
  | stagingFill => exact execStagingFill_keeps rfl (Keeps.refl _ s) h
  | vetchWalkDone => exact execVetchWalkDone_keeps rfl (Keeps.refl _ s) h
  | attm => exact execAttm_keeps rfl (Keeps.refl _ s) h
  | vec => exact execVec_keeps rfl (Keeps.refl _ s) h
  | norm => exact execNorm_keeps rfl (Keeps.refl _ s) h
  | red => exact execRed_keeps rfl (Keeps.refl _ s) h
  | maxPool => exact execMaxPool_keeps rfl (Keeps.refl _ s) h
  | avgPool => exact execAvgPool_keeps rfl (Keeps.refl _ s) h
  | sort => exact execSort_keeps rfl (Keeps.refl _ s) h
  | nms => exact execNms_keeps rfl (Keeps.refl _ s) h
  | boxd => exact execBoxd_keeps rfl (Keeps.refl _ s) h
  | load => exact execLoad_keeps rfl (Keeps.refl _ s) h
  | store => exact execStore_keeps rfl (Keeps.refl _ s) h
  | pref => exact execPref_keeps rfl (Keeps.refl _ s) h
  | rotSend => exact execRotSend_keeps rfl (Keeps.refl _ s) h
  | rotReceive => exact execRotReceive_keeps rfl (Keeps.refl _ s) h
  | haloSend => exact execHaloSend_keeps rfl (Keeps.refl _ s) h
  | haloReceive => exact execHaloReceive_keeps rfl (Keeps.refl _ s) h
  | racc => exact execRacc_keeps rfl (Keeps.refl _ s) h
  | qsclQuantise => exact execQsclQuantise_keeps rfl (Keeps.refl _ s) h
  | qsclExpScan => exact execQsclExpScan_keeps rfl (Keeps.refl _ s) h
  | dqsc => exact execDqsc_keeps rfl (Keeps.refl _ s) h
  | gnrmPartial => exact execGnrmPartial_keeps rfl (Keeps.refl _ s) h
  | gnrmFinish => exact execGnrmFinish_keeps rfl (Keeps.refl _ s) h
  | gnrmClip => exact execGnrmClip_keeps rfl (Keeps.refl _ s) h
  | rngmApply => exact execRngmApply_keeps rfl (Keeps.refl _ s) h
  | rngmRaw => exact execRngmRaw_keeps rfl (Keeps.refl _ s) h
  | bar => exact execBar_keeps rfl (Keeps.refl _ s) h
  | barGenerationComplete => exact execBarGenerationComplete_keeps rfl (Keeps.refl _ s) h
  | wait => exact execWait_keeps rfl (Keeps.refl _ s) h
  | waitSatisfied => exact execWaitSatisfied_keeps rfl (Keeps.refl _ s) h
  | signal => exact execSignal_keeps rfl (Keeps.refl _ s) h
  | barrierWatchdog => exact execBarrierWatchdog_keeps rfl (Keeps.refl _ s) h
  | recordComplete => exact execRecordComplete_keeps rfl (Keeps.refl _ s) h
  | runReplay => exact execRunReplay_keeps rfl (Keeps.refl _ s) h
  | coreRetireDone => exact execCoreRetireDone_keeps rfl (Keeps.refl _ s) h
  | spadBankMigrate => exact execSpadBankMigrate_keeps rfl (Keeps.refl _ s) h
  | spadBankSwitch => exact execSpadBankSwitch_keeps rfl (Keeps.refl _ s) h
  | accEccThreshold => exact execAccEccThreshold_keeps rfl (Keeps.refl _ s) h
  | armReceive => exact execArmReceive_keeps rfl (Keeps.refl _ s) h
  | contribReceive => exact execContribReceive_keeps rfl (Keeps.refl _ s) h
  | endReceive => exact execEndReceive_keeps rfl (Keeps.refl _ s) h
  | shardReceive => exact execShardReceive_keeps rfl (Keeps.refl _ s) h
  | hopReceive => exact execHopReceive_keeps rfl (Keeps.refl _ s) h
  | sendClose => exact execSendClose_keeps rfl (Keeps.refl _ s) h
  | ownerTimeout => exact execOwnerTimeout_keeps rfl (Keeps.refl _ s) h
  | senderTimeout => exact execSenderTimeout_keeps rfl (Keeps.refl _ s) h
  | gatherPartTimeout => exact execGatherPartTimeout_keeps rfl (Keeps.refl _ s) h
  | permuteCycleAbandon => exact execPermuteCycleAbandon_keeps rfl (Keeps.refl _ s) h
  | collectiveComplete => exact execCollectiveComplete_keeps rfl (Keeps.refl _ s) h
  | sampleDecodeStart => exact execSampleDecodeStart_keeps rfl (Keeps.refl _ s) h
  | sampleDecodeDone => exact execSampleDecodeDone_keeps rfl (Keeps.refl _ s) h
  | sampleDeliver => exact execSampleDeliver_keeps rfl (Keeps.refl _ s) h
  | sampleLate => exact execSampleLate_keeps rfl (Keeps.refl _ s) h
  | dmaChunkDone => exact execDmaChunkDone_keeps rfl (Keeps.refl _ s) h
  | dmaHostReadError q fail => exact execDmaHostReadError_keeps (a1 := fail) rfl (Keeps.refl _ s) h
  | dmaComplete => exact execDmaComplete_keeps rfl (Keeps.refl _ s) h
  | scrubRead => exact execScrubRead_keeps rfl (Keeps.refl _ s) h
  | rowRetire => exact execRowRetire_keeps rfl (Keeps.refl _ s) h
  | migrationSwitch => exact execMigrationSwitch_keeps rfl (Keeps.refl _ s) h
  | hbmLaneRepair => exact execHbmLaneRepair_keeps rfl (Keeps.refl _ s) h
  | pcRetrain => exact execPcRetrain_keeps rfl (Keeps.refl _ s) h
  | pcRetrainDone => exact execPcRetrainDone_keeps rfl (Keeps.refl _ s) h
  | faultPoint => exact execFaultPoint_keeps rfl (Keeps.refl _ s) h
  | recoveryStepDone => exact execRecoveryStepDone_keeps rfl (Keeps.refl _ s) h
  | packetForward => exact execPacketForward_keeps rfl (Keeps.refl _ s) h
  | codewordLoss p lane count => exact execCodewordLoss_keeps (a1 := lane) rfl (Keeps.refl _ s) h
  | routeReceive => exact execRouteReceive_keeps rfl (Keeps.refl _ s) h
  | admitReceive => exact execAdmitReceive_keeps rfl (Keeps.refl _ s) h
  | admitAccept => exact execAdmitAccept_keeps rfl (Keeps.refl _ s) h
  | admitWithdraw => exact execAdmitWithdraw_keeps rfl (Keeps.refl _ s) h
  | admitRequestTimeout => exact execAdmitRequestTimeout_keeps rfl (Keeps.refl _ s) h
  | timeReceive => exact execTimeReceive_keeps rfl (Keeps.refl _ s) h
  | echoReceive => exact execEchoReceive_keeps rfl (Keeps.refl _ s) h
  | fabAdmitRequest => exact execFabAdmitRequest_keeps rfl (Keeps.refl _ s) h
  | fabLeaveRequest => exact execFabLeaveRequest_keeps rfl (Keeps.refl _ s) h
  | switchOpenReported => exact execSwitchOpenReported_keeps rfl (Keeps.refl _ s) h
  | segmentTrained => exact execSegmentTrained_keeps rfl (Keeps.refl _ s) h
  | trainingTimeout => exact execTrainingTimeout_keeps rfl (Keeps.refl _ s) h
  | switchClosedReported => exact execSwitchClosedReported_keeps rfl (Keeps.refl _ s) h
  | segmentDown => exact execSegmentDown_keeps rfl (Keeps.refl _ s) h
  | segmentUp => exact execSegmentUp_keeps rfl (Keeps.refl _ s) h
  | neighbourLoss => exact execNeighbourLoss_keeps rfl (Keeps.refl _ s) h
  | timeExchange => exact execTimeExchange_keeps rfl (Keeps.refl _ s) h
  | fabricLaneSpare => exact execFabricLaneSpare_keeps rfl (Keeps.refl _ s) h
  | laserSpare => exact execLaserSpare_keeps rfl (Keeps.refl _ s) h
  | lndLoopbackSelect => exact execLndLoopbackSelect_keeps rfl (Keeps.refl _ s) h
  | feedDisconnect => exact execFeedDisconnect_keeps rfl (Keeps.refl _ s) h
  | feedReconnect => exact execFeedReconnect_keeps rfl (Keeps.refl _ s) h
  | phaseFail => exact execPhaseFail_keeps rfl (Keeps.refl _ s) h
  | islandClockRaise => exact execIslandClockRaise_keeps rfl (Keeps.refl _ s) h
  | islandClockLower => exact execIslandClockLower_keeps rfl (Keeps.refl _ s) h
  | timingMonitor => exact execTimingMonitor_keeps rfl (Keeps.refl _ s) h
  | droopStart => exact execDroopStart_keeps rfl (Keeps.refl _ s) h
  | droopEnd => exact execDroopEnd_keeps rfl (Keeps.refl _ s) h
  | inputCurrentStep => exact execInputCurrentStep_keeps rfl (Keeps.refl _ s) h
  | powerCapStep => exact execPowerCapStep_keeps rfl (Keeps.refl _ s) h
  | clkgenSwitch => exact execClkgenSwitch_keeps rfl (Keeps.refl _ s) h
  | dieTimeCheck => exact execDieTimeCheck_keeps rfl (Keeps.refl _ s) h
  | thermalReport => exact execThermalReport_keeps rfl (Keeps.refl _ s) h
  | thermalCapStep => exact execThermalCapStep_keeps rfl (Keeps.refl _ s) h
  | thermalMove => exact execThermalMove_keeps rfl (Keeps.refl _ s) h
  | ledgerUpdate => exact execLedgerUpdate_keeps rfl (Keeps.refl _ s) h
  | counterSample => exact execCounterSample_keeps rfl (Keeps.refl _ s) h
  | ecalRefine => exact execEcalRefine_keeps rfl (Keeps.refl _ s) h
  | galleryBankMigrate => exact execGalleryBankMigrate_keeps rfl (Keeps.refl _ s) h
  | galleryBankSwitch => exact execGalleryBankSwitch_keeps rfl (Keeps.refl _ s) h
  | bridgeFail => exact execBridgeFail_keeps rfl (Keeps.refl _ s) h
  | newelFail => exact execNewelFail_keeps rfl (Keeps.refl _ s) h
  | twinTakeoverDone => exact execTwinTakeoverDone_keeps rfl (Keeps.refl _ s) h
  | hubHalfFail => exact execHubHalfFail_keeps rfl (Keeps.refl _ s) h
  | hubTakeoverDone => exact execHubTakeoverDone_keeps rfl (Keeps.refl _ s) h
  | hubSwap => exact execHubSwap_keeps rfl (Keeps.refl _ s) h
  | storeWrite => exact execStoreWrite_keeps rfl (Keeps.refl _ s) h
  | storeWriteDone => exact execStoreWriteDone_keeps rfl (Keeps.refl _ s) h
  | fwStage => exact execFwStage_keeps rfl (Keeps.refl _ s) h
  | fwStageDone => exact execFwStageDone_keeps rfl (Keeps.refl _ s) h
  | fwActivate => exact execFwActivate_keeps rfl (Keeps.refl _ s) h
  | fwActivateStepDone => exact execFwActivateStepDone_keeps rfl (Keeps.refl _ s) h
  | fwAbort => exact execFwAbort_keeps rfl (Keeps.refl _ s) h
  | fwStartCheckFail => exact execFwStartCheckFail_keeps rfl (Keeps.refl _ s) h
  | fwSelectNext => exact execFwSelectNext_keeps rfl (Keeps.refl _ s) h
  | traceEnable => exact execTraceEnable_keeps rfl (Keeps.refl _ s) h
  | devLevelWrite => exact execDevLevelWrite_keeps rfl (Keeps.refl _ s) h
  | hifLoopbackSelect => exact execHifLoopbackSelect_keeps rfl (Keeps.refl _ s) h
  | pcieLoopbackEnd => exact execPcieLoopbackEnd_keeps rfl (Keeps.refl _ s) h
  | farendLoopbackEnter => exact execFarendLoopbackEnter_keeps rfl (Keeps.refl _ s) h
  | farendLoopbackExit => exact execFarendLoopbackExit_keeps rfl (Keeps.refl _ s) h
  | mcLoopbackSelect => exact execMcLoopbackSelect_keeps rfl (Keeps.refl _ s) h
  | medLoopbackSelect => exact execMedLoopbackSelect_keeps rfl (Keeps.refl _ s) h
  | loopbackStop => exact execLoopbackStop_keeps rfl (Keeps.refl _ s) h
  | loopbackPassDone => exact execLoopbackPassDone_keeps rfl (Keeps.refl _ s) h
  | resetReqRelease => exact execResetReqRelease_keeps rfl (Keeps.refl _ s) h
  | dieUnitFailure => exact execDieUnitFailure_keeps rfl (Keeps.refl _ s) h
  | standbyTwinFault => exact execStandbyTwinFault_keeps rfl (Keeps.refl _ s) h
  | standbyHalfFail => exact execStandbyHalfFail_keeps rfl (Keeps.refl _ s) h
  | mctpControlMessage => exact execMctpControlMessage_keeps rfl (Keeps.refl _ s) h

/-- A step keeps both memories canonical: it passes time, or takes a command from the queue and runs it. -/
theorem step_memoryOk {s t : State} (h : step s = .next t) (hs : MemoryOk s) : MemoryOk t := by
  unfold step at h
  split at h
  · cases h
    exact (tick_keeps (Parts.le_refl _) (Keeps.refl _ s)).mem hs
  · rename_i rest _
    have hrest : MemoryOk { s with pending := rest } := MemoryOk.ofEq hs rfl rfl rfl
    exact (exec_keeps h).mem hrest

end Sys2Proof.Machine
end

section
/-! SUPPORT. Function state words (R24, R25): what an enable, a disable and the end of STARTING do to a function's state, and what
the commands that write a state word do. -/

namespace Sys2Proof.Machine

/-! ### The transitions of R24 Table 6 -/

theorem Fn.disable_facts (x : Fn) : x.disable.en = false ∧
    x.disable.pendingOn = (x.pendingOn && decide (x.st ≠ .draining)) ∧
    x.disable.st = (if x.st = .on then .draining else x.st) ∧
    x.disable.disableRecorded = (if x.st = .starting then true else x.disableRecorded) := by
  obtain ⟨st, en, p, d⟩ := x
  cases st <;> simp [Fn.disable]

theorem Fn.started_starting {x : Fn} (h : x.st = .starting) :
    x.started = { x with st := if x.disableRecorded then .draining else .on, disableRecorded := false } := by
  obtain ⟨st, en, p, d⟩ := x
  cases h
  cases d <;> rfl

theorem Fn.drained_draining {x : Fn} (h : x.st = .draining) :
    x.drained = { x with st := if x.pendingOn then .starting else .off, pendingOn := false } := by
  obtain ⟨st, en, p, d⟩ := x
  cases h
  cases p <;> rfl

/-! ### Functions of a state -/

theorem State.fn_congr {s t : State} (h : t.fns = s.fns) (f : FuncId) : t.fn f = s.fn f := by
  unfold State.fn
  rw [h]

theorem State.fnIs_iff {s : State} {f : FuncId} {x : FnSt} : s.fnIs f x = true ↔ (s.fn f).st = x := decide_eq_true_iff

theorem State.fnIs_of {s : State} {f : FuncId} {x : FnSt} (h : (s.fn f).st = x) : s.fnIs f x = true :=
  State.fnIs_iff.2 h

/-! ### Writes of EN -/

/-- Whether a function is a media stream, whose EN is read only (R259). -/
theorem enWritable_iff (f : FuncId) : enWritable f = true ↔ ¬ ∃ d h, f = .stream d h := by
  cases f <;> simp [enWritable]

theorem functionEnable_readOnly {f : FuncId} (s : State) (hw : enWritable f = false) : functionEnable f s = s := by
  unfold functionEnable
  rw [if_neg (by rw [hw]; decide)]

theorem functionEnable_plain {f : FuncId} (s : State) (hw : enWritable f = true) (hc : ∀ n, f ≠ .ctx n)
    (hr : ∀ r, f ≠ .ring r) : functionEnable f s = s.setFn f (s.fn f).enable := by
  cases f with
  | ctx n => exact absurd rfl (hc n)
  | ring r => exact absurd rfl (hr r)
  | stream d h => cases hw
  | _ => rfl

theorem ringLeaveOff_fns (r : RingId) (s : State) : (ringLeaveOff r s).fns = s.fns := rfl

/-- A ring that leaves OFF takes TAIL from HEAD (R327). -/
theorem ringLeaveOff_tail (r : RingId) (s : State) :
    fld ((ringLeaveOff r s).reg .hifRingTail 0 r.val 0) 15 0 = fld (s.reg .hifRingHead 0 r.val 0) 15 0 := by
  have h : (ringLeaveOff r s).reg .hifRingTail 0 r.val 0 = BitVec.ofNat 64 (fld (s.reg .hifRingHead 0 r.val 0) 15 0) :=
    State.setReg_self _ _ _ _ _ _
  rw [h]
  simp only [fld, bits, BitVec.toNat_ofNat]
  omega

theorem functionEnable_ring (r : RingId) (s : State) : functionEnable (.ring r) s =
    (if s.fnIs (.ring r) .off then ringLeaveOff r s else s).setFn (.ring r) (s.fn (.ring r)).enable := by
  by_cases h : s.fnIs (.ring r) .off = true <;> simp [functionEnable, enWritable, h, State.fn_congr (ringLeaveOff_fns r s)]

/-- An enable reaches the function that it is written to, and no other. -/
theorem functionEnable_fn {f : FuncId} (s : State) (hw : enWritable f = true) (hc : ∀ n, f ≠ .ctx n) :
    (functionEnable f s).fn f = (s.fn f).enable ∧ ∀ g, g ≠ f → (functionEnable f s).fn g = s.fn g := by
  by_cases hr : ∃ r, f = .ring r
  · obtain ⟨r, rfl⟩ := hr
    rw [functionEnable_ring]
    have hfns : (if s.fnIs (.ring r) .off then ringLeaveOff r s else s).fns = s.fns := by split <;> rfl
    exact ⟨State.setFn_self _ _ _, fun g hg => (setFn_fn_other _ _ hg).trans (State.fn_congr hfns g)⟩
  · rw [functionEnable_plain s hw hc (fun r e => hr ⟨r, e⟩)]
    exact ⟨State.setFn_self _ _ _, fun g hg => setFn_fn_other _ _ hg⟩

theorem functionDisable_eq {f : FuncId} (s : State) (hw : enWritable f = true) :
    functionDisable f s = s.setFn f (s.fn f).disable := if_pos hw

/-! ### The commands -/

theorem exec_functionEnable {s : State} {path : Path} {f : FuncId} (h : WritesAt s path (fnOff f)) :
    exec (.functionEnable path f) s = .next (functionEnable f s) :=
  congrArg Host.Outcome.next ((reach_free h.free rfl).trans ((writeAt_fn 0x100 h).trans (if_pos (by decide))))

theorem exec_contextEnable {s : State} {path : Path} {n : CtxId} (h : WritesAt s path (fnOff (.ctx n))) :
    exec (.contextEnable path n) s = .next (contextEnable n s) :=
  congrArg Host.Outcome.next ((reach_free h.free rfl).trans ((writeAt_fn 0x100 h).trans (if_pos (by decide))))

/-- A write of EN = 0: a port's ring follows its port (R369). -/
def disableOf (f : FuncId) (s : State) : State :=
  match f with
  | .port p => portDisable p s
  | _ => functionDisable f s

theorem writeAt_disable {s : State} {path : Path} {f : FuncId} (h : WritesAt s path (fnOff f)) :
    writeAt path (fnOff f) 4 0 s = disableOf f s := by
  rw [writeAt_fn 0 h]
  unfold fnWrite
  rw [if_neg (by decide)]
  cases f <;> rfl

theorem exec_functionDisable {s : State} {path : Path} {f : FuncId} (h : WritesAt s path (fnOff f)) :
    exec (.functionDisable path f) s = .next (disableOf f s) :=
  congrArg Host.Outcome.next ((reach_free h.free rfl).trans (writeAt_disable h))

theorem exec_coreDisable {s : State} {path : Path} {d : Die} {p : PCore} (h : WritesAt s path (fnOff (.core d p))) :
    exec (.coreDisable path d p) s = .next (disableOf (.core d p) s) :=
  congrArg Host.Outcome.next ((reach_free h.free rfl).trans (writeAt_disable h))

theorem exec_eq_registerWrite {c : Instr} {s : State} {path : Path} {off : Nat} {wide : Bool} {x : W64}
    (hfree : s.hub.takeover = false) (hc : exec c s = .next (reach c s)) (hw : s.windowHeld c = false)
    (ha : access c s = writeAt path off (if wide then 8 else 4) x s) :
    exec c s = exec (.registerWrite path off wide x) s := by
  rw [hc, reach_free hfree hw, ha, exec_registerWrite path off wide x hfree]

end Sys2Proof.Machine
end

section
/-! SUPPORT. A disable written to a port takes its ring to LEAVING (R369): the way of a ring that is asked to leave while none
moves and none waits (R383, R385). -/

namespace Sys2Proof.Machine

/-! ### What keeps the rings -/

theorem State.fring_congr {s t : State} (h : t.frings = s.frings) (i : FRing) : t.fring i = s.fring i := by
  unfold State.fring
  rw [h]

theorem State.fabEvent_frings (s : State) (k : Nat) : (s.fabEvent k).frings = s.frings :=
  (State.fabEvent_keeps (ps := Parts.any.erase .frings) rfl (Keeps.refl _ s)).rest.frings rfl

theorem State.announce_frings (s : State) (c r a : Nat) : (s.announce c r a).frings = s.frings :=
  (State.announce_keeps (ps := Parts.any.erase .frings) rfl (Keeps.refl _ s)).rest.frings rfl

theorem addrLeaves_frings (s : State) : (addrLeaves s).frings = s.frings :=
  (addrLeaves_keeps (ps := Parts.any.erase .frings) rfl (Keeps.refl _ s)).rest.frings rfl

theorem askNeighbours_frings (i : FRing) (s : State) : (askNeighbours i s).frings = s.frings :=
  (askNeighbours_keeps (ps := Parts.any.erase .frings) rfl (Keeps.refl _ s)).rest.frings rfl

theorem viewStep_frings (f : State → State) (s : State) : (viewStep f s).frings = (f s).frings := by
  obtain ⟨x, y, z, h⟩ := viewStep_frame f s
  rw [h]

/-! ### A ring changes its state -/

theorem State.setRing_self (s : State) (i : FRing) (st : RingSt) (f : FRingSt → FRingSt) :
    (s.setRing i st f).fring i = { f (s.fring i) with st, since := s.now } := by
  unfold State.setRing
  rw [State.fring_congr (State.fabEvent_frings _ 1), State.modFring_self]

theorem State.setRing_other (s : State) {i j : FRing} (st : RingSt) (f : FRingSt → FRingSt) (h : j ≠ i) :
    (s.setRing i st f).fring j = s.fring j := by
  unfold State.setRing
  rw [State.fring_congr (State.fabEvent_frings _ 1), State.modFring_other _ _ h]

theorem segsChange_frings (i : FRing) (sides : List Bool) (up : Bool) (f : State → State) (s : State) :
    (segsChange i sides up f s).frings = (f s).frings := by
  unfold segsChange
  rw [foldl_same State.frings _ _ _ fun t a => (State.announce_frings _ _ _ _).trans (State.fabEvent_frings t 0),
    viewStep_frings]

theorem ringLeave_self (i : FRing) (reason : Nat) (s : State) :
    ((ringLeave i reason s).fring i).st = .leaving ∧ ((ringLeave i reason s).fring i).reason = reason := by
  have h : (ringLeave i reason s).fring i =
      ((withdrawRing i s).setRing i .leaving (fun x => { x with reason, plusUp := false, minusUp := false })).fring i :=
    State.fring_congr ((addrLeaves_frings _).trans (segsChange_frings i _ false _ s)) i
  rw [h, State.setRing_self]
  exact ⟨rfl, rfl⟩

/-! ### The fabric manager goes on -/

/-- The fabric manager requests the admission of LOOP_TRAINED rings only. -/
theorem pumpAdmit_fring {i : FRing} (s : State) (h : (s.fring i).st ≠ .loopTrained) :
    (pumpAdmit s).fring i = s.fring i := by
  unfold pumpAdmit
  dsimp only
  split
  · rfl
  · split
    · rename_i j rest hq
      split
      · rfl
      · have hj : j ∈ s.fab.admitQ.filter (fun i => decide ((s.fring i).st = .loopTrained) && s.portsOn i) :=
          hq ▸ List.mem_cons_self
        have hne : i ≠ j := by
          rintro rfl
          simp [h] at hj
        rw [State.fring_congr (askNeighbours_frings j _), State.setRing_other _ _ _ hne]
        rfl
    · rfl

/-- The state with other rings waiting to leave. -/
def State.withLeaveQ (s : State) (q : List (FRing × Nat)) : State := { s with fab := { s.fab with leaveQ := q } }

section
variable {i : FRing} {s : State} (hm : ∀ j, (s.fring j).st.moving = false)
include hm

theorem no_ring_leaving : ¬ (allRings.any fun j => decide ((s.fring j).st = .leaving)) = true := by
  rw [Bool.not_eq_true, List.any_eq_false]
  intro j _ hj
  have := hm j
  rw [of_decide_eq_true hj] at this
  cases this

/-- The one ring that waits to leave leaves, when it may. -/
theorem pumpLeave_leaves {reason : Nat} (hq : s.fab.leaveQ = [(i, reason)]) (hmay : s.mayLeave (i, reason) = true) :
    pumpLeave s = ringLeave i reason (s.withLeaveQ []) := by
  have hother : ¬ (s.fring (otherRail i)).st.moving = true := by rw [hm]; decide
  unfold pumpLeave
  rw [hq, List.filter_singleton, hmay]
  exact (if_neg (no_ring_leaving hm)).trans (if_neg hother)

/-- A ring that may not leave is only dropped from those that wait. -/
theorem pumpLeave_drops {reason : Nat} (hq : s.fab.leaveQ = [(i, reason)]) (hmay : s.mayLeave (i, reason) = false) :
    pumpLeave s = s.withLeaveQ [] := by
  unfold pumpLeave
  rw [hq, List.filter_singleton, hmay]
  exact if_neg (no_ring_leaving hm)

variable (hq : s.fab.leaveQ = [])
include hq

omit hm in
/-- A ring that asks to leave while none waits is the one that the fabric manager takes. -/
theorem askLeave_alone (reason : Nat) :
    askLeave i reason s = pumpAdmit (pumpLeave (s.withLeaveQ [(i, reason)])) := by
  unfold askLeave fabPump queueLeave
  rw [hq]
  rfl

theorem askLeave_bypassed (reason : Nat) (hb : (s.fring i).st = .bypassed) : ((askLeave i reason s).fring i).st = .bypassed := by
  have hmay : (s.withLeaveQ [(i, reason)]).mayLeave (i, reason) = false := by
    have hst : ((s.withLeaveQ [(i, reason)]).fring i).st = .bypassed := hb
    simp [State.mayLeave, hst]
  rw [askLeave_alone hq, pumpLeave_drops (s := s.withLeaveQ [(i, reason)]) hm rfl hmay]
  have hne : (s.fring i).st ≠ .loopTrained := by rw [hb]; decide
  exact (congrArg FRingSt.st (pumpAdmit_fring (s.withLeaveQ []) hne)).trans hb

/-- A ring whose port is disabled leaves from any state at rest but BYPASSED. -/
theorem askLeave_leaving (hb : (s.fring i).st ≠ .bypassed) :
    ((askLeave i 4 s).fring i).st = .leaving ∧ ((askLeave i 4 s).fring i).reason = 4 := by
  have hl : (s.fring i).st ≠ .leaving := fun e => by have := hm i; rw [e] at this; cases this
  have hmay : (s.withLeaveQ [(i, 4)]).mayLeave (i, 4) = true := by
    have hst : ((s.withLeaveQ [(i, 4)]).fring i).st = (s.fring i).st := rfl
    simp [State.mayLeave, hst, hb, hl]
  rw [askLeave_alone hq, pumpLeave_leaves (s := s.withLeaveQ [(i, 4)]) hm rfl hmay]
  have hself := ringLeave_self i 4 (s.withLeaveQ [])
  exact (pumpAdmit_fring _ (by rw [hself.1]; decide)).symm ▸ hself

end

/-! ### The port -/

theorem askLeave_fns (i : FRing) (reason : Nat) (s : State) : (askLeave i reason s).fns = s.fns :=
  (askLeave_keeps (ps := Parts.any.erase .fns) rfl (Keeps.refl _ s)).rest.fns rfl

theorem portDisable_on {p : PortId} {s : State} (h : (s.fn (.port p)).st = .on) :
    portDisable p s = askLeave (portRing p) 4 (s.setFn (.port p) (s.fn (.port p)).disable) := by
  have hd : (functionDisable (.port p) s).fnIs (.port p) .draining = true := by
    rw [functionDisable_eq s rfl]
    refine State.fnIs_of ?_
    rw [State.setFn_self, (Fn.disable_facts _).2.2.1, if_pos h]
  exact (if_pos hd).trans (congrArg _ (functionDisable_eq s rfl))

theorem portDisable_fns (p : PortId) (s : State) :
    (portDisable p s).fns = (s.setFn (.port p) (s.fn (.port p)).disable).fns := by
  unfold portDisable
  extract_lets t
  have ht : t = s.setFn (.port p) (s.fn (.port p)).disable := functionDisable_eq s rfl
  split
  · rw [askLeave_fns, ht]
  · rw [ht]

/-- What a disable of a port may change. -/
theorem portDisable_within (p : PortId) (s : State) :
    Within [.fns, .fab, .out, .acct, .regs, .hub, .frings] s (portDisable p s) :=
  (portDisable_keeps rfl (Keeps.refl _ s)).rest

/-- A disable of anything but a port changes function states only. -/
theorem disableOf_plain {f : FuncId} (s : State) (h : ∀ p, f ≠ .port p) : disableOf f s = functionDisable f s := by
  cases f with
  | port p => exact absurd rfl (h p)
  | _ => rfl

theorem disableOf_fns {f : FuncId} (s : State) (hw : enWritable f = true) :
    (disableOf f s).fns = (s.setFn f (s.fn f).disable).fns := by
  cases f with
  | port p => exact portDisable_fns p s
  | _ => exact congrArg State.fns (functionDisable_eq s hw)

end Sys2Proof.Machine
end

section
/-! SUPPORT. The enable of a context (R324, R325): what starts afresh, and what a refusal leaves. -/

namespace Sys2Proof.Machine

/-- The registers that an enable writes lie apart. -/
theorem ctxRegs_apart (n : CtxId) :
    RegId.off .hifCtxCfg 0 n.val 0 ≠ RegId.off .pwrCtxTotal 0 n.val 0 ∧
    RegId.off .hifCtxCfg 0 n.val 0 ≠ RegId.off .pwrCtxWindow 0 n.val 0 ∧
    RegId.off .pwrCtxTotal 0 n.val 0 ≠ RegId.off .pwrCtxWindow 0 n.val 0 := by
  have hn := n.isLt
  simp only [RegId.off, RegId.row, Bool.false_eq_true, if_false]
  omega

/-- A context that has started: nothing of its life before is left (R325, R326, R335, R417). -/
structure Fresh (n : CtxId) (s t : State) : Prop where
  cfg : t.reg .hifCtxCfg 0 n.val 0 = s.reg .hifCtxCfg 0 n.val 0
  total : t.reg .pwrCtxTotal 0 n.val 0 = 0
  window : t.reg .pwrCtxWindow 0 n.val 0 = 0
  ctx : ∃ w, t.ctx n = { winStart := w, phase := true }

theorem State.ctxStart_fresh (s : State) (n : CtxId) : Fresh n s (s.ctxStart n) := by
  obtain ⟨h1, h2, h3⟩ := ctxRegs_apart n
  unfold State.ctxStart
  extract_lets w u
  refine ⟨?_, ?_, State.setReg_self _ _ _ _ _ _, _, SMap.getD_put_self _ _ _ _⟩
  · rw [State.setReg_other _ _ h2, State.setReg_other _ _ h1]
    rfl
  · rw [State.setReg_other _ _ h3, State.setReg_self]

/-- What the start of a context may change. -/
theorem State.ctxStart_within (s : State) (n : CtxId) : Within [.ctxs, .dies, .regs] s (s.ctxStart n) :=
  (State.ctxStart_keeps rfl (Keeps.refl _ s)).rest

/-- The checks of R325 in their order, once start-up is over and while the module is in service. -/
theorem State.enableErr_inService {s : State} (n : CtxId) (hst : 10 ≤ s.boot.stage) (hoos : s.hub.outOfService = false) :
    s.enableErr n = (if s.rangeBad n then 1 else if s.shareBad n then 2 else if s.evqBad n then 3
      else if s.saveBad n then 4 else if s.sampleBad n then 7 else 0) := by
  unfold State.enableErr
  rw [if_neg (by omega), hoos, if_neg (by decide)]

theorem State.enableErr_cases {s : State} (n : CtxId) (hst : 10 ≤ s.boot.stage) : s.enableErr n < 8 ∧ s.enableErr n ≠ 6 := by
  unfold State.enableErr
  rw [if_neg (by omega)]
  repeat' split
  all_goals decide

section
variable {s : State} {n : CtxId} (hoff : (s.fn (.ctx n)).st = .off)
include hoff

theorem contextEnable_accepted (he : s.enableErr n = 0) : contextEnable n s =
    ((s.setRegFld .hifCtxCfg 0 n.val 0 31 29 0).ctxStart n).setFn (.ctx n) (s.fn (.ctx n)).enable := by
  have hfn : ((s.setRegFld .hifCtxCfg 0 n.val 0 31 29 0).ctxStart n).fn (.ctx n) = s.fn (.ctx n) :=
    State.fn_congr ((State.ctxStart_within _ n).fns rfl) _
  unfold contextEnable
  rw [if_pos (State.fnIs_of hoff), he]
  exact congrArg (fun x => State.setFn _ (.ctx n) x.enable) hfn

theorem contextEnable_refused (he : s.enableErr n ≠ 0) (h6 : s.enableErr n ≠ 6) : contextEnable n s =
    (s.setRegFld .hifCtxCfg 0 n.val 0 31 29 (s.enableErr n)).setFn (.ctx n) { s.fn (.ctx n) with en := true } := by
  unfold contextEnable
  rw [if_pos (State.fnIs_of hoff)]
  exact (if_neg h6).trans (if_neg he)

end

/-- An enable of a context reaches its function alone. -/
theorem contextEnable_fn_other {n : CtxId} {s : State} {g : FuncId} (h : g ≠ .ctx n) : (contextEnable n s).fn g = s.fn g := by
  unfold contextEnable
  extract_lets e u v
  split
  · split
    · rfl
    · split
      · exact (setFn_fn_other _ _ h).trans (State.fn_congr ((State.ctxStart_within _ n).fns rfl) g)
      · exact setFn_fn_other _ _ h
  · exact setFn_fn_other _ _ h

theorem contextEnable_within (n : CtxId) (s : State) : Within [.fns, .ctxs, .regs, .dies] s (contextEnable n s) :=
  (contextEnable_keeps rfl (Keeps.refl _ s)).rest

end Sys2Proof.Machine
end

section
/-! SUPPORT. The ends of STARTING and DRAINING (R24): which functions they reach, and what a context that ends leaves (R326). -/

namespace Sys2Proof.Machine

/-! ### Operations that reach no function, or media streams only -/

theorem State.complete_fns (s : State) (q : Nat) (st : Byte) (dt : W16) : (s.complete q st dt).fns = s.fns :=
  (State.complete_keeps (ps := Parts.any.erase .fns) rfl (Keeps.refl _ s)).rest.fns rfl

theorem dmaRetry_fns (s : State) : (dmaRetry s).fns = s.fns :=
  (dmaRetry_keeps (ps := Parts.any.erase .fns) rfl (Keeps.refl _ s)).rest.fns rfl

theorem loopTrain_fns (s : State) : (loopTrain s).fns = s.fns :=
  (loopTrain_keeps (ps := Parts.any.erase .fns) rfl (Keeps.refl _ s)).rest.fns rfl

theorem loopTrain_ports (s : State) : (loopTrain s).ports = s.ports :=
  (loopTrain_keeps (ps := Parts.any.erase .ports) rfl (Keeps.refl _ s)).rest.ports rfl

theorem streamStarted_fns (d : Die) (h : Fin 256) (s : State) : (streamStarted d h s).fns = s.fns :=
  (streamStarted_keeps (ps := Parts.any.erase .fns) rfl (Keeps.refl _ s)).rest.fns rfl

theorem streamDrained_fns (d : Die) (h : Fin 256) (restart : Bool) (s : State) : (streamDrained d h restart s).fns = s.fns :=
  (streamDrained_keeps (ps := Parts.any.erase .fns) rfl (Keeps.refl _ s)).rest.fns rfl

theorem openOn_fn_other {d : Die} {h : Fin 256} {moved : Bool} {x : Desc} (s : State) {g : FuncId} (hg : g ≠ .stream d h) :
    (openOn d h moved x s).fn g = s.fn g := setFn_fn_other _ _ hg

/-- The start of a MEDIA_OPEN reaches media streams only. -/
theorem startOpen_fn {g : FuncId} (hg : ∀ d h, g ≠ .stream d h) (q : Nat) (s : State) : (startOpen q s).fn g = s.fn g := by
  have hdone : ∀ st dt, ((s.markStarted q).complete q st dt).fn g = s.fn g := fun st dt =>
    (State.fn_congr (State.complete_fns _ _ _ _) g).trans rfl
  unfold startOpen
  split
  · rfl
  · dsimp only
    split
    · rfl
    · split
      · rfl
      · split
        · exact hdone _ _
        · split
          · split
            · exact openOn_fn_other _ (hg _ _)
            · exact hdone _ _
          · split
            · exact openOn_fn_other _ (hg _ _)
            · split
              · exact hdone _ _
              · exact setFn_fn_other _ _ (hg _ _)
            · exact hdone _ _

theorem mediaRetry_fn {g : FuncId} (hg : ∀ d h, g ≠ .stream d h) (s : State) : (mediaRetry s).fn g = s.fn g :=
  foldl_same (fun s => s.fn g) _ _ _ fun t q => startOpen_fn hg q t

/-! ### STARTING ends -/

theorem exec_startingComplete {s : State} {f : FuncId} (h : (s.fn f).st = .starting) (hr : s.unitRuns f = true) :
    exec (.startingComplete f) s = .next (startingComplete f s) :=
  congrArg Host.Outcome.next (if_pos (by rw [State.fnIs_of h, hr]; rfl))

/-- The end of STARTING reaches its function, and for a media engine the streams that wait for it too (R285). -/
theorem startingComplete_fn (s : State) (f g : FuncId) (hg : (∃ d, f = .media d) → ∀ d h, g ≠ .stream d h) :
    (startingComplete f s).fn g = (s.setFn f (s.fn f).started).fn g := by
  unfold startingComplete
  extract_lets u
  cases f with
  | stream d h => exact State.fn_congr (streamStarted_fns d h u) g
  | port p => exact State.fn_congr (loopTrain_fns _) g
  | dmaq q =>
    dsimp only
    split
    · exact State.fn_congr (dmaRetry_fns u) g
    · rfl
  | media d =>
    dsimp only
    split
    · exact mediaRetry_fn (hg ⟨d, rfl⟩) u
    · rfl
  | _ => rfl

theorem State.port_congr {s t : State} (h : t.ports = s.ports) (p : PortId) : t.port p = s.port p := by
  unfold State.port
  rw [h]

theorem startingComplete_port (s : State) (p : PortId) : ((startingComplete (.port p) s).port p).trained = true := by
  have h : startingComplete (.port p) s =
      loopTrain ((s.setFn (.port p) (s.fn (.port p)).started).modPort p (fun x => { x with trained := true })) := rfl
  rw [h, State.port_congr (loopTrain_ports _), State.modPort_self]

/-! ### DRAINING ends -/

theorem exec_drainComplete {s : State} {f : FuncId} (h : (s.fn f).st = .draining) (hw : s.hasWork f = false)
    (hc : s.fnClock f = true) : exec (.drainComplete f) s = .next (drainComplete f s) :=
  congrArg Host.Outcome.next (if_pos (by rw [State.fnIs_of h, hw, hc]; rfl))

/-- A core that is lost goes OFF, and reaches no other function. -/
theorem coreLost_fn (d : Die) (p : PCore) (s : State) :
    ((coreLost d p s).fn (.core d p) = (s.fn (.core d p)).forceOff) ∧
    ∀ g, g ≠ .core d p → (coreLost d p s).fn g = s.fn g := by
  have hfns : (coreLost d p s).fns = (s.setFn (.core d p) (s.fn (.core d p)).forceOff).fns := by
    unfold coreLost
    extract_lets live u v w
    have hw : w.fns = (s.setFn (.core d p) (s.fn (.core d p)).forceOff).fns := State.degraded_fns _ _ _ _ _ _ _ _
    split
    · exact ((State.renumber_keeps (ps := Parts.any.erase .fns) rfl (Keeps.refl _ w)).rest.fns rfl).trans hw
    · exact hw
  exact ⟨(State.fn_congr hfns _).trans (State.setFn_self _ _ _),
    fun g hg => (State.fn_congr hfns g).trans (setFn_fn_other _ _ hg)⟩

/-- What the start of a core's retirement may do to the functions: the core's own stands, or goes OFF with the core. -/
def RetireFns (d : Die) (p : PCore) (s t : State) : Prop :=
  (t.fn (.core d p) = s.fn (.core d p) ∨ t.fn (.core d p) = (s.fn (.core d p)).forceOff) ∧
    ∀ g, g ≠ .core d p → t.fn g = s.fn g

theorem RetireFns.of_fns {d : Die} {p : PCore} {s t : State} (h : t.fns = s.fns) : RetireFns d p s t :=
  ⟨.inl (State.fn_congr h _), fun g _ => State.fn_congr h g⟩

theorem retireStart_fns (d : Die) (p : PCore) (s : State) : RetireFns d p s (retireStart d p s) := by
  unfold retireStart
  split
  · exact .of_fns rfl
  · split
    · exact .of_fns rfl
    · exact ⟨.inr (coreLost_fn d p s).1, (coreLost_fn d p s).2⟩

theorem modCtr_fns (s : State) (d : Die) (f : Counters → Counters) : (s.modCtr d f).fns = s.fns :=
  (State.modCtr_keeps (ps := Parts.any.erase .fns) rfl (Keeps.refl _ s)).rest.fns rfl

/-- Retiring a core in service leaves its function, or sends it OFF where no spare is left (R433); no other function
changes. -/
theorem retireCore_fns {d : Die} {p : PCore} {s : State} (hr : (s.core d p).role = .inService) :
    RetireFns d p s (retireCore d p s) := by
  unfold retireCore
  split
  case h_1 h => exact absurd (hr.symm.trans h) (by decide)
  case h_2 h => exact absurd (hr.symm.trans h) (by decide)
  case h_3 =>
    extract_lets u v
    have hv : v.fns = s.fns := by
      dsimp only [v]
      split
      · exact modCtr_fns s d (fun c => { c with paused := true })
      · exact modCtr_fns s d (fun c => { c with paused := true })
    split
    · exact .of_fns (t := v.modCore _ _ _) hv
    · obtain ⟨hself, hother⟩ := retireStart_fns d p v
      rw [State.fn_congr hv] at hself
      exact ⟨hself, fun g hg => (hother g hg).trans (State.fn_congr hv g)⟩

/-! ### What a context that ends leaves (R326) -/

/-- A context that ends, before its streams and rings go OFF: its plans and chains, what it left on dies, and its own
records. -/
def ctxCleared (n : CtxId) (s : State) : State :=
  ((({ s with plans := s.plans.filter (fun p => decide (p.ctx ≠ n)) }.closeChains (fun c => decide (c.ctx = n))).staleDies
    n).modCtx n (fun c => { c with sems := [], stalls := [], bars := [], savedDies := [], savedMem := [], semMoved := [] }))

/-- The media streams of a context. -/
def ctxStreams (n : CtxId) (s : State) : List (Die × Fin 256) :=
  allStreams.filter (fun (d, h) => decide ((s.stream d h).owner = some n))

/-- Streams sent OFF one after another. -/
def streamsOff (l : List (Die × Fin 256)) (s : State) : State := l.foldl (fun s (d, h) => s.streamOff d h) s

/-- Rings sent OFF one after another. -/
def ringsOff (l : List RingId) (s : State) : State :=
  l.foldl (fun s r => s.setFn (.ring r) (s.fn (.ring r)).forceOff) s

theorem contextOff_eq (n : CtxId) (s : State) :
    contextOff n s = ringsOff (ctxRings n) (streamsOff (ctxStreams n (ctxCleared n s)) (ctxCleared n s)) := rfl

theorem closeChains_chains (s : State) (p : Chain → Bool) : (s.closeChains p).chains = s.chains.filter (fun c => !p c) := by
  unfold State.closeChains
  exact foldl_same (fun s => s.chains) _ _ _ fun t c =>
    (State.chainLost_keeps (ps := Parts.any.erase .chains) rfl (Keeps.refl _ t)).rest.chains rfl

/-- What is left of the plans, the chains and the record of a context once they are cleared; functions and streams stand. -/
theorem ctxCleared_facts (n : CtxId) (s : State) :
    (∀ p ∈ (ctxCleared n s).plans, p.ctx ≠ n) ∧ (∀ c ∈ (ctxCleared n s).chains, c.ctx ≠ n) ∧
    ((ctxCleared n s).ctx n).sems = [] ∧ ((ctxCleared n s).ctx n).stalls = [] ∧
    (ctxCleared n s).fns = s.fns ∧ (ctxCleared n s).streams = s.streams := by
  unfold ctxCleared
  generalize hu : ({ s with plans := _ } : State).closeChains _ = u
  have hplans : u.plans = s.plans.filter (fun p => decide (p.ctx ≠ n)) := by
    rw [← hu]
    exact (State.closeChains_keeps (ps := Parts.any.erase .plans) rfl (Keeps.refl _ _)).rest.plans rfl
  have hchains : u.chains = s.chains.filter (fun c => !decide (c.ctx = n)) := by
    rw [← hu]
    exact closeChains_chains _ _
  have hfns : u.fns = s.fns := by
    rw [← hu]
    exact (State.closeChains_keeps (ps := Parts.any.erase .fns) rfl (Keeps.refl _ _)).rest.fns rfl
  have hstreams : u.streams = s.streams := by
    rw [← hu]
    exact (State.closeChains_keeps (ps := Parts.any.erase .streams) rfl (Keeps.refl _ _)).rest.streams rfl
  have hv : Within [.dies] u (u.staleDies n) := (State.staleDies_keeps rfl (Keeps.refl _ u)).rest
  refine ⟨?_, ?_, ?_, ?_, ?_, ?_⟩
  · intro p hp
    have hp' : p ∈ u.plans := by rw [← hv.plans rfl]; exact hp
    rw [hplans] at hp'
    simpa using (List.mem_filter.1 hp').2
  · intro c hc
    have hc' : c ∈ u.chains := by rw [← hv.chains rfl]; exact hc
    rw [hchains] at hc'
    simpa using (List.mem_filter.1 hc').2
  · rw [State.modCtx_self]
  · rw [State.modCtx_self]
  · exact (hv.fns rfl).trans hfns
  · exact (hv.streams rfl).trans hstreams

theorem streamOff_fn_self (s : State) (d : Die) (h : Fin 256) :
    (s.streamOff d h).fn (.stream d h) = (s.fn (.stream d h)).forceOff := State.setFn_self _ _ _

theorem streamOff_fn_other (s : State) {d : Die} {h : Fin 256} {g : FuncId} (hg : g ≠ .stream d h) :
    (s.streamOff d h).fn g = s.fn g := setFn_fn_other _ _ hg

/-- Streams sent OFF are OFF, and no function but a stream changes. -/
theorem streamsOff_off {l : List (Die × Fin 256)} {d : Die} {h : Fin 256} (hm : (d, h) ∈ l) (s : State) :
    ((streamsOff l s).fn (.stream d h)).st = .off := by
  refine foldl_hits (fun t => (t.fn (.stream d h)).st = .off) _ _ (d, h) s hm (fun t => ?_) fun t x ht => ?_
  · exact congrArg Fn.st (streamOff_fn_self t d h)
  · by_cases hx : FuncId.stream d h = .stream x.1 x.2
    · obtain ⟨rfl, rfl⟩ := FuncId.stream.inj hx
      exact congrArg Fn.st (streamOff_fn_self t _ _)
    · exact (congrArg Fn.st (streamOff_fn_other t hx)).trans ht

theorem streamsOff_fn {g : FuncId} (hg : ∀ d h, g ≠ .stream d h) (l : List (Die × Fin 256)) (s : State) :
    (streamsOff l s).fn g = s.fn g :=
  foldl_same (fun t => t.fn g) _ _ _ fun t x => streamOff_fn_other t (hg x.1 x.2)

theorem streamsOff_within (l : List (Die × Fin 256)) (s : State) : Within [.streams, .fns] s (streamsOff l s) :=
  (Keeps.foldl (Keeps.refl _ s) fun _ _ h => State.streamOff_keeps rfl h).rest

theorem ringsOff_off {l : List RingId} {r : RingId} (hm : r ∈ l) (s : State) : ((ringsOff l s).fn (.ring r)).st = .off := by
  refine foldl_hits (fun t => (t.fn (.ring r)).st = .off) _ _ r s hm (fun t => ?_) fun t x ht => ?_
  · exact congrArg Fn.st (State.setFn_self _ _ _)
  · by_cases hx : FuncId.ring r = .ring x
    · obtain rfl := FuncId.ring.inj hx
      exact congrArg Fn.st (State.setFn_self _ _ _)
    · exact (congrArg Fn.st (setFn_fn_other t _ hx)).trans ht

theorem ringsOff_fn {g : FuncId} (hg : ∀ r, g ≠ .ring r) (l : List RingId) (s : State) : (ringsOff l s).fn g = s.fn g :=
  foldl_same (fun t => t.fn g) _ _ _ fun t r => setFn_fn_other t _ (hg r)

theorem ringsOff_within (l : List RingId) (s : State) : Within [.fns] s (ringsOff l s) :=
  (Keeps.foldl (Keeps.refl _ s) fun _ _ h => State.setFn_keeps rfl h).rest

/-- A context that is OFF: its plans, chains, semaphores, stall counters, rings and streams are gone. -/
structure ContextGone (n : CtxId) (s t : State) : Prop where
  self : t.fn (.ctx n) = s.fn (.ctx n)
  plans : ∀ p ∈ t.plans, p.ctx ≠ n
  chains : ∀ c ∈ t.chains, c.ctx ≠ n
  sem : ∀ die idx, t.sem n die idx = 0
  stalls : (t.ctx n).stalls = []
  rings : ∀ r ∈ ctxRings n, (t.fn (.ring r)).st = .off
  streams : ∀ d h, (s.stream d h).owner = some n → (t.fn (.stream d h)).st = .off

theorem State.sem_of_empty {s : State} {n : CtxId} (h : (s.ctx n).sems = []) (die idx : Nat) : s.sem n die idx = 0 := by
  unfold State.sem
  rw [h]
  rfl

theorem State.ctx_congr {s t : State} (h : t.ctxs = s.ctxs) (n : CtxId) : t.ctx n = s.ctx n := by
  unfold State.ctx
  rw [h]

theorem State.stream_congr {s t : State} (h : t.streams = s.streams) (d : Die) (k : Fin 256) :
    t.stream d k = s.stream d k := by
  unfold State.stream
  rw [h]

theorem mem_ctxStreams {n : CtxId} {s : State} {d : Die} {h : Fin 256} (ho : (s.stream d h).owner = some n) :
    (d, h) ∈ ctxStreams n s := by
  refine List.mem_filter.2 ⟨?_, decide_eq_true ho⟩
  exact List.mem_flatMap.2 ⟨d, List.mem_finRange d, List.mem_map.2 ⟨h, List.mem_finRange h, rfl⟩⟩

theorem contextOff_gone (n : CtxId) (s : State) : ContextGone n s (contextOff n s) := by
  rw [contextOff_eq]
  obtain ⟨hplans, hchains, hsems, hstalls, hfns, hstreams⟩ := ctxCleared_facts n s
  generalize ctxCleared n s = u at *
  have hv := streamsOff_within (ctxStreams n u) u
  have hw := ringsOff_within (ctxRings n) (streamsOff (ctxStreams n u) u)
  have hctx : (ringsOff (ctxRings n) (streamsOff (ctxStreams n u) u)).ctx n = u.ctx n :=
    State.ctx_congr ((hw.ctxs rfl).trans (hv.ctxs rfl)) n
  constructor
  case self =>
    rw [ringsOff_fn (fun r => FuncId.noConfusion), streamsOff_fn (fun d h => FuncId.noConfusion), State.fn_congr hfns]
  case plans => rw [hw.plans rfl, hv.plans rfl]; exact hplans
  case chains => rw [hw.chains rfl, hv.chains rfl]; exact hchains
  case sem => exact State.sem_of_empty ((congrArg Ctx.sems hctx).trans hsems)
  case stalls => exact (congrArg Ctx.stalls hctx).trans hstalls
  case rings => exact fun r hr => ringsOff_off hr _
  case streams =>
    intro d h ho
    rw [ringsOff_fn (fun r => FuncId.noConfusion)]
    exact streamsOff_off (mem_ctxStreams (by rwa [State.stream_congr hstreams])) u

/-- A context that starts afresh after it has gone holds no more than one that stays OFF. -/
theorem ContextGone.ctxStart {n : CtxId} {s t : State} (h : ContextGone n s t) : ContextGone n s (t.ctxStart n) := by
  have hw := State.ctxStart_within t n
  obtain ⟨w, hctx⟩ := (State.ctxStart_fresh t n).ctx
  have hfn := State.fn_congr (hw.fns rfl)
  constructor
  case self => exact (hfn _).trans h.self
  case plans => rw [hw.plans rfl]; exact h.plans
  case chains => rw [hw.chains rfl]; exact h.chains
  case sem => exact State.sem_of_empty (congrArg Ctx.sems hctx)
  case stalls => exact congrArg Ctx.stalls hctx
  case rings => exact fun r hr => (congrArg Fn.st (hfn _)).trans (h.rings r hr)
  case streams => exact fun d k ho => (congrArg Fn.st (hfn _)).trans (h.streams d k ho)

theorem drainComplete_ctx (n : CtxId) (s : State) :
    ContextGone n (s.setFn (.ctx n) (s.fn (.ctx n)).drained) (drainComplete (.ctx n) s) := by
  have h := contextOff_gone n (s.setFn (.ctx n) (s.fn (.ctx n)).drained)
  unfold drainComplete
  dsimp only
  split
  · exact h.ctxStart
  · exact h

/-- The end of DRAINING of a function that is no context reaches that function only, and for a media engine the streams
that wait for it too (R285). -/
theorem drainComplete_fn_other (s : State) {f g : FuncId} (hf : ∀ n, f ≠ .ctx n) (hg : g ≠ f)
    (hm : (∃ d, f = .media d) → ∀ d h, g ≠ .stream d h) : (drainComplete f s).fn g = s.fn g := by
  rw [← setFn_fn_other s (s.fn f).drained hg]
  unfold drainComplete
  extract_lets restart u
  cases f with
  | ctx n => exact absurd rfl (hf n)
  | stream d h => exact State.fn_congr (streamDrained_fns d h restart u) g
  | dmaq q =>
    dsimp only
    split
    · exact State.fn_congr (dmaRetry_fns u) g
    · rfl
  | media d =>
    dsimp only
    split
    · exact mediaRetry_fn (hm ⟨d, rfl⟩) u
    · rfl
  | core d p =>
    dsimp only
    split
    case isTrue h => exact (retireCore_fns h.2).2 g hg
    case isFalse => rfl
  | _ => rfl

/-- The state and PENDING_ON of a function after its drain. A core that stays OFF and has no spare is lost, and OFF all the
same. -/
theorem drainComplete_fn_self {s : State} {f : FuncId} (hd : (s.fn f).st = .draining) :
    ((drainComplete f s).fn f).st = (if (s.fn f).pendingOn then .starting else .off) ∧
      ((drainComplete f s).fn f).pendingOn = false := by
  have hu : ((s.setFn f (s.fn f).drained).fn f).st = (if (s.fn f).pendingOn then .starting else .off) ∧
      ((s.setFn f (s.fn f).drained).fn f).pendingOn = false := by
    rw [State.setFn_self, Fn.drained_draining hd]
    exact ⟨rfl, rfl⟩
  have hsame {t : State} (h : t.fn f = (s.setFn f (s.fn f).drained).fn f) :
      (t.fn f).st = (if (s.fn f).pendingOn then .starting else .off) ∧ (t.fn f).pendingOn = false := by
    rw [h]
    exact hu
  cases f with
  | ctx n => exact hsame (drainComplete_ctx n s).self
  | stream d h => exact hsame (State.fn_congr (streamDrained_fns d h _ _) _)
  | dmaq q =>
    refine hsame ?_
    unfold drainComplete
    dsimp only
    split
    · exact State.fn_congr (dmaRetry_fns _) _
    · rfl
  | media d =>
    refine hsame ?_
    unfold drainComplete
    dsimp only
    split
    · exact mediaRetry_fn (fun d h => FuncId.noConfusion) _
    · rfl
  | core d p =>
    unfold drainComplete
    dsimp only
    split
    case isTrue h =>
      rcases (retireCore_fns h.2).1 with hs | hs
      · exact hsame hs
      · have hoff : (s.fn (.core d p)).pendingOn = false := by simpa using h.1
        rw [hs, hoff]
        exact ⟨rfl, rfl⟩
    case isFalse => exact hu
  | _ => exact hu

end Sys2Proof.Machine
end

section
/-! SUPPORT. The commit of the region map (R30). -/

namespace Sys2Proof.Machine

theorem exec_regionCommit {s : State} {path : Path} (h : WritesAt s path (RegId.off .mgtRegionCommit 0 0 0)) :
    exec (.regionCommit path) s = .next (regionCommit s) := by
  have hr : regAt (RegId.off .mgtRegionCommit 0 0 0) = some ⟨.mgtRegionCommit, 0, 0, 0, false⟩ := by decide +kernel
  have hgo : writeReg path ⟨.mgtRegionCommit, 0, 0, 0, false⟩ (BitVec.ofNat 64 ((1 : W64).toNat % 2 ^ 32)) s =
      regionCommit s := by
    show (if (BitVec.ofNat 64 ((1 : W64).toNat % 2 ^ 32)).getLsbD 0 then _ else s) = _
    exact if_pos (by decide)
  exact congrArg Host.Outcome.next ((reach_free h.free rfl).trans ((writeAt_narrow 1 h hr rfl (by decide)).trans hgo))

theorem regionCommit_busy {s : State} (h : s.commitBusy = true) : regionCommit s = s := if_pos h

theorem regionCommit_idle {s : State} (h : s.commitBusy = false) :
    regionCommit s = { s with commitBusy := true }.setRegFld .mgtRegionCommit 0 0 0 2 1 3 :=
  if_neg (by rw [h]; decide)

theorem exec_regionCommitDone {s : State} (h : s.commitBusy = true) :
    exec .regionCommitDone s = .next (regionCommitDone s) := congrArg Host.Outcome.next (if_pos h)

/-! ### The check of a map -/

theorem tab_getD {α : Type} (f : Nat → α) (d : α) {n j : Nat} (h : j < n) : (tab n f).getD j d = f j := by
  simp [tab, List.getD, h]

theorem shadowMap_getD (s : State) {j : Nat} (h : j < 752) :
    s.shadowMap.getD j .interleaved = shadowRegion (s.reg .mgtRegion 0 j 0) := tab_getD _ _ h

theorem commitResult_lt (s : State) (m : List Region) : s.commitResult m < 4 := by
  unfold State.commitResult
  split
  · decide
  · split <;> decide

/-- A commit applies when the map keeps R29 and no held region would change. -/
theorem commitResult_zero_iff (s : State) (m : List Region) : s.commitResult m = 0 ↔
    mapValid m = true ∧ ∀ j, j < 752 → s.regionHeld j = true → s.region j = m.getD j .interleaved := by
  unfold State.commitResult
  split
  case isTrue h =>
    simp only [Bool.not_eq_true'] at h
    simp [h]
  case isFalse h =>
    have hv : mapValid m = true := by simpa using h
    have hany : ((List.range 752).any (fun j =>
        decide (m.getD j .interleaved ≠ s.region j) && s.regionHeld j) = false) ↔
        ∀ j, j < 752 → s.regionHeld j = true → s.region j = m.getD j .interleaved := by
      simp only [List.any_eq_false, List.mem_range, Bool.and_eq_true, decide_eq_true_eq, not_and]
      refine forall_congr' fun j => forall_congr' fun _ => ⟨fun hc hh => ?_, fun hc hn hh => hn (hc hh).symm⟩
      by_contra hne
      exact hc (Ne.symm hne) hh
    rw [← hany]
    split
    case isTrue hb => rw [hb]; simp
    case isFalse hb => rw [Bool.eq_false_of_not_eq_true hb]; exact ⟨fun _ => ⟨hv, rfl⟩, fun _ => rfl⟩

/-! ### The applied map -/

/-- A map written key by key holds at each key what was written for it. -/
theorem SMap.getD_foldl_set {α : Type} [DecidableEq α] (d : α) (v : Nat → α) (l : List Nat) (m : SMap α) (k : Nat) :
    SMap.getD (l.foldl (fun acc j => SMap.set acc j d (v j)) m) k d = if k ∈ l then v k else SMap.getD m k d := by
  induction l generalizing m with
  | nil => rfl
  | cons a l ih =>
    rw [List.foldl_cons, ih]
    by_cases hk : k ∈ l
    · simp [hk]
    · by_cases ha : k = a
      · subst ha
        simp [SMap.getD_set_self]
      · simp [hk, ha, SMap.getD_set_other]

theorem applyMap_region (s : State) (m : List Region) {j : Nat} (h : j < 752) :
    (s.applyMap m).region j = m.getD j .interleaved := by
  unfold State.region State.applyMap
  rw [SMap.getD_foldl_set, if_pos (List.mem_range.2 h)]

/-- The regions that a map changes. -/
def changedBy (s : State) (m : List Region) : List Nat :=
  (List.range 752).filter (fun j => decide (m.getD j .interleaved ≠ s.region j))

theorem applyMap_scrambled (s : State) (m : List Region) : (s.applyMap m).scrambled =
    (changedBy s m).foldl (fun acc j => SMap.put acc j (s.free + 1)) s.scrambled := by
  unfold State.applyMap changedBy
  dsimp only

theorem applyMap_mem (s : State) (m : List Region) :
    (s.applyMap m).mem = s.mem.filter (fun e => !((changedBy s m).contains (e.1 / 2 ^ 30))) := by
  unfold State.applyMap changedBy
  dsimp only

theorem not_mem_changedBy {s : State} {m : List Region} {j : Nat} (h : j < 752 → s.region j = m.getD j .interleaved) :
    j ∉ changedBy s m := by
  intro hm
  obtain ⟨hlt, hne⟩ := List.mem_filter.1 hm
  exact of_decide_eq_true hne (h (List.mem_range.1 hlt)).symm

/-- A byte of a region that a map leaves as it is reads as before. -/
theorem applyMap_devRead (s : State) (m : List Region) {a : Nat}
    (h : a / 2 ^ 30 < 752 → s.region (a / 2 ^ 30) = m.getD (a / 2 ^ 30) .interleaved) :
    (s.applyMap m).devRead a 1 = s.devRead a 1 := by
  have hn := not_mem_changedBy h
  have hdef : (s.applyMap m).devDefault a = s.devDefault a := by
    unfold State.devDefault
    rw [applyMap_scrambled, SMap.getD_foldl_put hn]
  have hfind : SMap.find (s.applyMap m).mem a = SMap.find s.mem a := by
    have hc : ((changedBy s m).contains (a / 2 ^ 30)) = false := by simpa using hn
    rw [applyMap_mem, SMap.find_filter_key s.mem (fun k => !((changedBy s m).contains (k / 2 ^ 30))) (fun _ => rfl), hc]
    exact if_pos rfl
  have hbyte : memByte (s.applyMap m).devDefault (s.applyMap m).mem a = memByte s.devDefault s.mem a := by
    unfold memByte SMap.getD
    rw [hdef, hfind]
  exact congrArg (fun b => [b]) hbyte

/-! ### The end of a commit -/

/-- The state in which a commit's result is shown. -/
def resultShown (s : State) : State :=
  { s with commitBusy := false }.setRegFld .mgtRegionCommit 0 0 0 2 1 (s.commitResult s.shadowMap)

theorem regionCommitDone_refused {s : State} (h : s.commitResult s.shadowMap ≠ 0) : regionCommitDone s = resultShown s := by
  unfold regionCommitDone resultShown
  extract_lets m r u
  exact if_neg h

theorem regionCommitDone_applied {s : State} (h : s.commitResult s.shadowMap = 0) :
    regionCommitDone s = { (resultShown s).applyMap s.shadowMap with
      store := { s.store with dirty := true, cur := { s.store.cur with regions := regionRows s.shadowMap } } } := by
  unfold regionCommitDone resultShown
  extract_lets m r u v
  exact if_pos h

theorem regionCommitDone_regs (s : State) : (regionCommitDone s).regs = (resultShown s).regs := by
  by_cases h : s.commitResult s.shadowMap = 0
  · rw [regionCommitDone_applied h]
    rfl
  · rw [regionCommitDone_refused h]

theorem regionCommitDone_busy (s : State) : (regionCommitDone s).commitBusy = false := by
  by_cases h : s.commitResult s.shadowMap = 0
  · rw [regionCommitDone_applied h]
    have hkeep : ((resultShown s).applyMap s.shadowMap).commitBusy = (resultShown s).commitBusy :=
      (State.applyMap_keeps (ps := Parts.any.erase .commitBusy) rfl (Keeps.refl _ (resultShown s))).rest.commitBusy rfl
    generalize (resultShown s).applyMap s.shadowMap = u at hkeep
    exact hkeep
  · rw [regionCommitDone_refused h]
    rfl

theorem regionCommitDone_frame (s : State) : regionCommitDone s =
    { s with commitBusy := false, regs := (regionCommitDone s).regs, free := (regionCommitDone s).free
             regionMap := (regionCommitDone s).regionMap, mem := (regionCommitDone s).mem
             scrambled := (regionCommitDone s).scrambled, store := (regionCommitDone s).store } := by
  have h : Within [.regs, .commitBusy, .free, .mem, .scrambled, .regionMap, .store] s (regionCommitDone s) :=
    (regionCommitDone_keeps rfl (Keeps.refl _ s)).rest
  have hb := regionCommitDone_busy s
  generalize regionCommitDone s = t at h hb
  rw [← hb]
  exact h

/-- An applied commit reads as its map. -/
theorem regionCommitDone_region {s : State} (h : s.commitResult s.shadowMap = 0) {j : Nat} (hj : j < 752) :
    (regionCommitDone s).region j = shadowRegion (s.reg .mgtRegion 0 j 0) := by
  rw [← shadowMap_getD s hj, ← applyMap_region (resultShown s) _ hj, regionCommitDone_applied h]
  unfold State.region
  dsimp only

theorem regionCommitDone_devRead {s : State} (h : s.commitResult s.shadowMap = 0) {a : Nat}
    (ha : a / 2 ^ 30 < 752 → s.region (a / 2 ^ 30) = shadowRegion (s.reg .mgtRegion 0 (a / 2 ^ 30) 0)) :
    (regionCommitDone s).devRead a 1 = s.devRead a 1 := by
  have hm := applyMap_devRead (resultShown s) s.shadowMap fun hlt => (ha hlt).trans (shadowMap_getD s hlt).symm
  rw [regionCommitDone_applied h]
  generalize (resultShown s).applyMap s.shadowMap = u at hm
  exact hm

end Sys2Proof.Machine
end

section
/-! SUPPORT. The BAR4 window (R321, R323): its register, and what its accesses do. -/

namespace Sys2Proof.Machine

/-! ### HIF_BAR4_CTL -/

theorem fld_lt (v : W64) (hi lo : Nat) : fld v hi lo < 2 ^ (hi + 1 - lo) := Nat.mod_lt _ (Nat.two_pow_pos _)

/-- A field that a mask holds whole stands. -/
theorem fld_and (v : W64) {m hi lo : Nat} (h : ∀ i, i < hi + 1 - lo → m.testBit (lo + i) = true) :
    fld (BitVec.ofNat 64 (v.toNat &&& m)) hi lo = fld v hi lo := by
  have hlt : v.toNat &&& m < 2 ^ 64 := Nat.lt_of_le_of_lt Nat.and_le_left v.isLt
  unfold fld bits
  rw [BitVec.toNat_ofNat, Nat.mod_eq_of_lt hlt]
  refine Nat.eq_of_testBit_eq fun i => ?_
  simp only [Nat.testBit_mod_two_pow, Nat.testBit_div_two_pow, Nat.testBit_and]
  by_cases hi : i < hi + 1 - lo
  · rw [Nat.add_comm i lo, h i hi, Bool.and_true]
  · simp [hi]

theorem exec_bar4CtlWrite {s : State} {path : Path} (v : W64) (h : WritesAt s path (RegId.off .hifBar4Ctl 0 0 0)) :
    exec (.bar4CtlWrite path v) s = .next (bar4CtlWrite v s) := by
  have hr : regAt (RegId.off .hifBar4Ctl 0 0 0) = some ⟨.hifBar4Ctl, 0, 0, 0, false⟩ := by decide +kernel
  exact congrArg Host.Outcome.next ((reach_free h.free rfl).trans (writeAt_wide v h (by decide) hr rfl))

theorem bar4CtlWrite_bad {s : State} {v : W64} (h : 0x40 < fld v 23 16 ∨ fld v 47 30 * 2 ^ 30 % s.bar4Size ≠ 0) :
    bar4CtlWrite v s = s := if_pos h

theorem bar4CtlWrite_good {s : State} {v : W64} (ho : fld v 23 16 ≤ 0x40) (hb : fld v 47 30 * 2 ^ 30 % s.bar4Size = 0) :
    bar4CtlWrite v s = s.setReg .hifBar4Ctl 0 0 0 (BitVec.ofNat 64 (v.toNat &&& RegId.hifBar4Ctl.row.mask)) :=
  if_neg (by rw [not_or]; exact ⟨by omega, not_not.2 hb⟩)

/-- The fields of HIF_BAR4_CTL are those of the value written. -/
theorem bar4CtlWrite_fields {s : State} {v : W64} (ho : fld v 23 16 ≤ 0x40) (hb : fld v 47 30 * 2 ^ 30 % s.bar4Size = 0) :
    (bar4CtlWrite v s).bar4Base = fld v 47 30 * 2 ^ 30 ∧
    (bar4CtlWrite v s).regFld .hifBar4Ctl 0 0 0 23 16 = fld v 23 16 := by
  rw [bar4CtlWrite_good ho hb]
  unfold State.bar4Base State.regFld
  rw [State.setReg_self, fld_and v (hi := 47) (lo := 30) (by decide), fld_and v (hi := 23) (lo := 16) (by decide)]
  exact ⟨rfl, rfl⟩

theorem exec_barResize {s : State} {n : Nat} (ht : s.hub.takeover = false) (hu : s.barUp = true) :
    exec (.barResize n) s = .next (barResize n s) :=
  congrArg Host.Outcome.next ((reach_free ht rfl).trans (if_pos hu))

theorem barResize_eq {n : Nat} (s : State) (h : 30 ≤ n ∧ n ≤ 39) : barResize n s =
    { s with hub := { s.hub with bar4Log2 := n } }.setRegFld .hifBar4Ctl 0 0 0 47 30
      ((s.bar4Base - s.bar4Base % 2 ^ n) / 2 ^ 30) := if_pos h

/-- A resize clears the bits of BASE below the new size. -/
theorem barResize_base {n : Nat} (s : State) (h : 30 ≤ n ∧ n ≤ 39) :
    (barResize n s).bar4Base = s.bar4Base - s.bar4Base % 2 ^ n := by
  have hd : 2 ^ 30 ∣ s.bar4Base := ⟨_, Nat.mul_comm _ _⟩
  have hdn : 2 ^ 30 ∣ s.bar4Base - s.bar4Base % 2 ^ n :=
    Nat.dvd_sub hd ((Nat.dvd_mod_iff (Nat.pow_dvd_pow 2 h.1)).2 hd)
  have hlt : (s.bar4Base - s.bar4Base % 2 ^ n) / 2 ^ 30 < 2 ^ (47 + 1 - 30) := by
    refine Nat.lt_of_le_of_lt (Nat.div_le_div_right (Nat.sub_le _ _)) ?_
    unfold State.bar4Base
    rw [Nat.mul_div_cancel _ (Nat.two_pow_pos 30)]
    exact fld_lt _ 47 30
  rw [barResize_eq s h]
  exact (congrArg (· * 2 ^ 30) (State.setRegFld_self _ _ _ _ _ (by decide) (by decide) hlt)).trans (Nat.div_mul_cancel hdn)

/-! ### Reads -/

/-- A 32-bit counter after a count, which wraps (log 8). -/
theorem bump_narrow (s : State) {r : RegId} (d i k : Nat) (h : r.row.wide = false) :
    (s.bump r d i k).reg r d i 0 = BitVec.ofNat 64 (((s.reg r d i 0).toNat + k) % 2 ^ 32) := by
  rw [← State.bump_self s r d i k h, BitVec.ofNat_toNat, BitVec.setWidth_eq]

theorem exec_bar4Read {s : State} {off len : Nat} {ce : List Nat} (ht : s.hub.takeover = false) (hu : s.windowUp = true)
    (hr : s.bar4Refuses off len = true ∨ s.memRuns none (s.bar4Base + off) len = true) :
    exec (.bar4Read off len ce) s = .next (bar4Read off len ce s) := by
  have hw : s.windowHeld (.bar4Read off len ce) = false := by
    unfold State.windowHeld
    rcases hr with h | h <;> simp [h]
  exact congrArg Host.Outcome.next ((reach_free ht hw).trans (if_pos hu))

/-- A read whose way passes a stopped island waits in the hub (R19). -/
theorem exec_bar4Read_held {s : State} {off len : Nat} {ce : List Nat} (hr : s.bar4Refuses off len = false)
    (hm : s.memRuns none (s.bar4Base + off) len = false) :
    exec (.bar4Read off len ce) s = .next { s with held := s.held ++ [.bar4Read off len ce] } := by
  have hw : s.windowHeld (.bar4Read off len ce) = true := by
    unfold State.windowHeld
    simp [hr, hm]
  exact congrArg Host.Outcome.next (if_pos (by rw [hw, Bool.or_true]))

theorem bar4Read_refused {s : State} {off len : Nat} (ce : List Nat) (h : s.bar4Refuses off len = true) :
    bar4Read off len ce s = (s.bump .hifBar4Err 0 0 1).emit .bar4UnsupportedRequest := if_pos h

theorem bar4Read_bad {s : State} {off len c : Nat} (ce : List Nat) (h : s.bar4Refuses off len = false)
    (hc : s.badIn (s.bar4Base + off) len = some c) :
    bar4Read off len ce s = (s.countUe c).emit .bar4CompleterAbort := by
  unfold bar4Read
  dsimp only
  rw [h, hc]
  rfl

theorem bar4Read_good {s : State} {off len : Nat} (ce : List Nat) (h : s.bar4Refuses off len = false)
    (hc : s.badIn (s.bar4Base + off) len = none) :
    bar4Read off len ce s = ((s.countBytes false (s.bar4Base + off) len).readCe (s.bar4Base + off) len ce).emit
      (.bar4Data (s.devRead (s.bar4Base + off) len)) := by
  unfold bar4Read
  dsimp only
  rw [h, hc]
  rfl

theorem bar4Read_good_frame {s : State} {off len : Nat} (ce : List Nat) (h : s.bar4Refuses off len = false)
    (hc : s.badIn (s.bar4Base + off) len = none) :
    bar4Read off len ce s = { s with
      regs := (bar4Read off len ce s).regs, mcs := (bar4Read off len ce s).mcs, dies := (bar4Read off len ce s).dies
      cores := (bar4Read off len ce s).cores, acct := (bar4Read off len ce s).acct
      out := s.out ++ [.bar4Data (s.devRead (s.bar4Base + off) len)] } := by
  rw [bar4Read_good ce h hc]
  have hw : Within [.regs, .mcs, .dies, .cores, .acct] s
      ((s.countBytes false (s.bar4Base + off) len).readCe (s.bar4Base + off) len ce) :=
    (State.readCe_keeps rfl (State.countBytes_keeps rfl (Keeps.refl _ s))).rest
  generalize (s.countBytes false (s.bar4Base + off) len).readCe (s.bar4Base + off) len ce = u at hw
  generalize s.devRead (s.bar4Base + off) len = bs
  exact congrArg (State.emit · (.bar4Data bs)) hw

/-! ### Writes -/

theorem exec_bar4Write {s : State} {off : Nat} {bs : List Byte} (ht : s.hub.takeover = false) (hu : s.windowUp = true)
    (hr : s.bar4Refuses off bs.length = false → s.memRuns none (s.bar4Base + off) bs.length = true) :
    exec (.bar4Write off bs) s = .next (bar4Write off bs s) := by
  have hw : s.windowHeld (.bar4Write off bs) = false := by
    unfold State.windowHeld
    cases h : s.bar4Refuses off bs.length with
    | true => simp [h]
    | false => simp [hr h]
  exact congrArg Host.Outcome.next ((reach_free ht hw).trans (if_pos hu))

theorem bar4Write_refused {s : State} {off : Nat} {bs : List Byte} (h : s.bar4Refuses off bs.length = true) :
    bar4Write off bs s = s.bump .hifBar4Err 0 0 1 := if_pos h

/-- Without an owner a write into a loaded plan area is dropped and counted (R138). -/
theorem bar4Write_plan_unowned {s : State} {off : Nat} {bs : List Byte} (ho : s.bar4Owner = none)
    (hp : (s.planAreaOf (s.bar4Base + off) bs.length).isSome) : bar4Write off bs s = s.bump .hifBar4Err 0 0 1 := by
  obtain ⟨m, hm⟩ := Option.isSome_iff_exists.1 hp
  unfold bar4Write
  dsimp only
  rw [ho, hm]
  exact ite_self _

theorem bar4Write_plan_owned {s : State} {off : Nat} {bs : List Byte} {n : CtxId}
    (h : s.bar4Refuses off bs.length = false) (ho : s.bar4Owner = some n)
    (hp : s.planAreaOf (s.bar4Base + off) bs.length = some n) : bar4Write off bs s = s.illegal n (s.bar4Base + off) := by
  unfold bar4Write
  dsimp only
  rw [h, ho, hp, if_neg (by decide)]
  dsimp only
  rw [if_pos rfl]
  rfl

theorem bar4Write_partial_unowned {s : State} {off c : Nat} {bs : List Byte} (h : s.bar4Refuses off bs.length = false)
    (ho : s.bar4Owner = none) (hp : s.planAreaOf (s.bar4Base + off) bs.length = none)
    (hc : s.badPartial (s.bar4Base + off) bs.length = some c) : bar4Write off bs s = s := by
  unfold bar4Write
  dsimp only
  rw [h, ho, hp, hc]
  rfl

theorem bar4Write_partial_owned {s : State} {off c : Nat} {bs : List Byte} {n : CtxId}
    (h : s.bar4Refuses off bs.length = false) (ho : s.bar4Owner = some n)
    (hp : s.planAreaOf (s.bar4Base + off) bs.length = none)
    (hc : s.badPartial (s.bar4Base + off) bs.length = some c) :
    bar4Write off bs s = s.raise causeMem hubSideDie [n] c := by
  unfold bar4Write
  dsimp only
  rw [h, ho, hp, hc]
  rfl

theorem bar4Write_plain {s : State} {off : Nat} {bs : List Byte} (h : s.bar4Refuses off bs.length = false)
    (hp : s.planAreaOf (s.bar4Base + off) bs.length = none)
    (hc : s.badPartial (s.bar4Base + off) bs.length = none) :
    bar4Write off bs s = s.putBytes (s.bar4Base + off) bs := by
  unfold bar4Write
  dsimp only
  rw [h, hp, hc]
  cases s.bar4Owner <;> rfl

/-- What device memory reads as after a plain device write. -/
theorem putBytes_reads {s : State} (a : Nat) (bs : List Byte) (hc : s.colls.flatMap (fun c => c.guards) = []) :
    (s.putBytes a bs).devRead a bs.length = bs ∧
    ∀ b, b < a ∨ a + bs.length ≤ b → (s.putBytes a bs).devRead b 1 = s.devRead b 1 := by
  rw [putBytes_plain s a bs hc]
  exact ⟨memRead_memWrite s.devDefault a bs, fun b hb =>
    congrArg (· :: []) (memByte_memWrite_other s.devDefault s.mem bs hb)⟩

theorem putBytes_frame {s : State} (a : Nat) (bs : List Byte) (hc : s.colls.flatMap (fun c => c.guards) = []) :
    s.putBytes a bs = { s with regs := (s.putBytes a bs).regs, mem := (s.putBytes a bs).mem, bad := (s.putBytes a bs).bad
                               acct := (s.putBytes a bs).acct } := by
  have h := putBytes_plain s a bs hc
  have hmem := congrArg State.mem h
  have hbad := congrArg State.bad h
  generalize s.putBytes a bs = t at h hmem hbad
  rw [hmem, hbad]
  exact h

theorem raise_hubSide (s : State) (cause : Byte) (n : CtxId) (a : Nat) : s.raise cause hubSideDie [n] a =
    { s with reports := s.reports ++ [{ cause, die := 0, ctxs := [n], addr := a % 2 ^ 48, hubSide := true }] } := rfl

end Sys2Proof.Machine
end

section
/-! SUPPORT. The start-up steps up to the rise of the die rails (R457, R464 to R466). -/

namespace Sys2Proof.Machine

/-! ### Which step completes next -/

theorem exec_startupStepDone {s : State} {k : Nat} (ev : StartupEv) (h : s.nextStep = some k) :
    exec (.startupStepDone ev) s = .next (startupStep k ev s) :=
  congrArg Host.Outcome.next (by rw [h])

theorem exec_startupStepDone_none {s : State} (ev : StartupEv) (h : s.nextStep = none) :
    exec (.startupStepDone ev) s = .next s := congrArg Host.Outcome.next (by rw [h])

theorem nextStep_starting {s : State} {k : Nat} (h : Starting s k) : s.nextStep =
    (if k = 1 ∧ s.boot.resetReqLow = true then none
    else if k = 3 then (if s.boot.linkUp then some 4 else some 5)
    else if k = 10 then (if s.fab.selfAdmitted then some 11 else none)
    else if k ≤ 9 then some (k + 1) else none) := by
  obtain ⟨hp, hr, ho, rfl⟩ := h
  simp [State.nextStep, hp, hr, ho]

/-- A step that waits for nothing completes after the one before it. -/
theorem nextStep_succ {s : State} {k : Nat} (h : Starting s k) (h1 : k ≠ 1) (h3 : k ≠ 3) (h9 : k ≤ 9) :
    s.nextStep = some (k + 1) := by
  rw [nextStep_starting h, if_neg (fun hk => h1 hk.1), if_neg h3, if_neg (by omega), if_pos h9]

theorem nextStep_none {s : State} (h : s.boot.powered = false ∨ s.boot.recovery = true ∨
    (4 ≤ s.boot.stage ∧ s.boot.oos = true) ∨ (s.boot.stage = 1 ∧ s.boot.resetReqLow = true)) : s.nextStep = none := by
  unfold State.nextStep
  dsimp only
  split
  · rfl
  · next hup =>
    simp only [Bool.or_eq_true, Bool.not_eq_true', not_or, Bool.not_eq_false, Bool.not_eq_true] at hup
    rcases h with h | h | ⟨h4, ho⟩ | hreq
    · exact absurd (h.symm.trans hup.1) (by decide)
    · exact absurd (h.symm.trans hup.2) (by decide)
    · rw [if_neg (fun hk => absurd hk.1 (by omega)), if_neg (by omega), if_pos ⟨h4, ho⟩]
    · rw [if_pos hreq]

/-! ### STAGE -/

theorem setStage_boot (s : State) (k : Nat) : (s.setStage k).boot = { s.boot with stage := k } := rfl

theorem setStage_stage (s : State) {k : Nat} (hk : k < 16) : (s.setStage k).regFld .secBootStatus 0 0 0 3 0 = k :=
  State.setRegFld_self _ _ _ _ _ (by decide) (by decide) hk

theorem setStage_status (s : State) (k : Nat) {hi lo : Nat} (h : 3 < lo) (hl : lo ≤ hi) :
    (s.setStage k).regFld .secBootStatus 0 0 0 hi lo = s.regFld .secBootStatus 0 0 0 hi lo :=
  State.setRegFld_field _ _ _ _ _ (by decide) (by decide) (.inr h) hl

theorem setStage_other (s : State) (k : Nat) {q : RegId} {d i j : Nat} (h : q.off d i j ≠ RegId.off .secBootStatus 0 0 0) :
    (s.setStage k).reg q d i j = s.reg q d i j := State.setRegFld_other _ _ _ _ h

theorem atStep_setStage {s u : State} {k : Nat} (hu : u.boot = s.boot) (hk : k < 16) : AtStep k s (u.setStage k) :=
  ⟨by rw [setStage_boot, hu], setStage_stage u hk⟩

/-! ### Step 2: the bank that boots -/

/-- The state once the ROM has read the store: LOST and the count of bad banks (R445). -/
def storeRead (s : State) : State :=
  { s.bumpSat .avlStoreStatus 0 0 15 8 ((if s.store.a.valid then 0 else 1) + (if s.store.b.valid then 0 else 1)) with
    store := { s.store with
      lost := !s.store.a.valid && !s.store.b.valid
      dirty := s.store.dirty || (!s.store.a.valid && !s.store.b.valid) } }.setRegFld .avlStoreStatus 0 0 0 4 4
    (if !s.store.a.valid && !s.store.b.valid then 1 else 0)

theorem storeRead_lost (s : State) : (storeRead s).regFld .avlStoreStatus 0 0 0 4 4 =
    if !s.store.a.valid && !s.store.b.valid then 1 else 0 := by
  refine State.setRegFld_self _ _ _ _ _ (by decide) (by decide) ?_
  split <;> decide

theorem storeRead_boot (s : State) : (storeRead s).boot = s.boot := rfl

theorem storeRead_store (s : State) : (storeRead s).store = { s.store with
    lost := !s.store.a.valid && !s.store.b.valid
    dirty := s.store.dirty || (!s.store.a.valid && !s.store.b.valid) } := rfl

/-- The check of a bank that shows in RESULT. -/
def bankCheck (s : State) (b : Bool) : Nat := romCheck (s.bankImage b) s.store.cur.svnFloor

theorem romCheck_lt (x : Image) (floor : Nat) : romCheck x floor < 16 := by
  unfold romCheck Image.check
  split_ifs <;> decide

theorem State.bankImage_congr {s t : State} (h : t.store.imgA = s.store.imgA) (h' : t.store.imgB = s.store.imgB) (b : Bool) :
    t.bankImage b = s.bankImage b := by
  unfold State.bankImage
  rw [h, h']

theorem storeRead_bankImage (s : State) (b : Bool) : (storeRead s).bankImage b = s.bankImage b :=
  State.bankImage_congr (s := s) (t := storeRead s) rfl rfl b

/-- The choice of the bank, over the state in which the ROM has read the store. -/
theorem bootStep2_eq (s : State) : bootStep2 s =
    (let u := storeRead s
    let b := s.store.cur.bank
    let c := romCheck (u.bankImage b) s.store.cur.svnFloor
    if c = 0 then (bootFrom b u).setStage 2
    else
      let v := u.setRegFld .secBootStatus 0 0 0 15 12 c
      let c' := romCheck (v.bankImage (!b)) s.store.cur.svnFloor
      if c' = 0 then (fallBack (!b) v).setStage 2
      else enterRecovery (v.setRegFld .secBootStatus 0 0 0 15 12 c')) := by
  unfold bootStep2 storeRead
  rfl

theorem bootStep2_cases (s : State) : bootStep2 s =
    if bankCheck s s.store.cur.bank = 0 then (bootFrom s.store.cur.bank (storeRead s)).setStage 2
    else
      let v := (storeRead s).setRegFld .secBootStatus 0 0 0 15 12 (bankCheck s s.store.cur.bank)
      if bankCheck s (!s.store.cur.bank) = 0 then (fallBack (!s.store.cur.bank) v).setStage 2
      else enterRecovery (v.setRegFld .secBootStatus 0 0 0 15 12 (bankCheck s (!s.store.cur.bank))) := by
  rw [bootStep2_eq]
  dsimp only
  rw [storeRead_bankImage,
    State.bankImage_congr (s := s) (t := (storeRead s).setRegFld .secBootStatus 0 0 0 15 12 _) rfl rfl]
  unfold bankCheck
  rfl

theorem bootStep2_selected {s : State} (h : bankCheck s s.store.cur.bank = 0) :
    bootStep2 s = (bootFrom s.store.cur.bank (storeRead s)).setStage 2 := by
  rw [bootStep2_cases, if_pos h]

theorem bootStep2_other {s : State} (h : bankCheck s s.store.cur.bank ≠ 0) (h' : bankCheck s (!s.store.cur.bank) = 0) :
    bootStep2 s = (fallBack (!s.store.cur.bank) ((storeRead s).setRegFld .secBootStatus 0 0 0 15 12
      (bankCheck s s.store.cur.bank))).setStage 2 := by
  rw [bootStep2_cases, if_neg h]
  exact if_pos h'

theorem bootStep2_none {s : State} (h : bankCheck s s.store.cur.bank ≠ 0) (h' : bankCheck s (!s.store.cur.bank) ≠ 0) :
    bootStep2 s = enterRecovery (((storeRead s).setRegFld .secBootStatus 0 0 0 15 12
      (bankCheck s s.store.cur.bank)).setRegFld .secBootStatus 0 0 0 15 12 (bankCheck s (!s.store.cur.bank))) := by
  rw [bootStep2_cases, if_neg h]
  exact if_neg h'

theorem State.runBank_eq (s : State) : s.runBank = decide (s.regFld .secBootStatus 0 0 0 4 4 = 1) := bit_fld _ _

theorem setStage_runBank (s : State) (k : Nat) : (s.setStage k).runBank = s.runBank := by
  rw [State.runBank_eq, State.runBank_eq, setStage_status _ _ (by decide) (by decide)]

/-- A state in which a bank has booted: BANK shows it, and its image runs. -/
structure BootedFrom (b : Bool) (s t : State) : Prop where
  boot : t.boot = s.boot
  store : t.store = s.store
  running : t.fw.running = s.bankImage b
  bank : t.runBank = b
  status : ∀ hi lo, 4 < lo → lo ≤ hi → t.regFld .secBootStatus 0 0 0 hi lo = s.regFld .secBootStatus 0 0 0 hi lo
  avlStore : t.reg .avlStoreStatus 0 0 0 = s.reg .avlStoreStatus 0 0 0

/-- The registers that show the bank that boots. -/
def bankShown (b : Bool) (s : State) : State :=
  (((s.setRegFld .secBootStatus 0 0 0 4 4 (if b then 1 else 0)).setReg .secSvn 0 0 0
    (BitVec.ofNat 64 (s.bankImage b).svn)).setRegFld .avlFwStatus 0 0 0 16 16 (if b then 1 else 0)).setRegFld
      .avlFwStatus 0 0 0 17 17 (if s.store.cur.bank then 1 else 0)

theorem bootFrom_eq (b : Bool) (s : State) :
    bootFrom b s = { bankShown b s with fw := { (bankShown b s).fw with running := s.bankImage b } } := by
  unfold bootFrom bankShown
  rfl

theorem reg_of_fw (s : State) (f : Fw) (q : RegId) : ({ s with fw := f } : State).reg q 0 0 0 = s.reg q 0 0 0 := rfl

theorem bootFrom_reg (b : Bool) (s : State) (q : RegId) :
    (bootFrom b s).reg q 0 0 0 = (bankShown b s).reg q 0 0 0 := by
  rw [bootFrom_eq, reg_of_fw]

theorem bankShown_status (b : Bool) (s : State) : (bankShown b s).reg .secBootStatus 0 0 0 =
    (s.setRegFld .secBootStatus 0 0 0 4 4 (if b then 1 else 0)).reg .secBootStatus 0 0 0 := by
  unfold bankShown
  rw [State.setRegFld_other _ _ _ _ (by decide), State.setRegFld_other _ _ _ _ (by decide),
    State.setReg_other _ _ (by decide)]

theorem bankShown_avlStore (b : Bool) (s : State) :
    (bankShown b s).reg .avlStoreStatus 0 0 0 = s.reg .avlStoreStatus 0 0 0 := by
  unfold bankShown
  rw [State.setRegFld_other _ _ _ _ (by decide), State.setRegFld_other _ _ _ _ (by decide),
    State.setReg_other _ _ (by decide), State.setRegFld_other _ _ _ _ (by decide)]

theorem bootFrom_booted (b : Bool) (s : State) : BootedFrom b s (bootFrom b s) := by
  have hfld : ∀ hi lo, (bootFrom b s).regFld .secBootStatus 0 0 0 hi lo =
      (s.setRegFld .secBootStatus 0 0 0 4 4 (if b then 1 else 0)).regFld .secBootStatus 0 0 0 hi lo :=
    fun hi lo => congrArg (fld · hi lo) ((bootFrom_reg b s _).trans (bankShown_status b s))
  constructor
  case boot => rw [bootFrom_eq]; rfl
  case store => rw [bootFrom_eq]; rfl
  case running => rw [bootFrom_eq]
  case bank =>
    rw [State.runBank_eq, hfld, State.setRegFld_self _ _ _ _ _ (by decide) (by decide) (by split <;> decide)]
    cases b <;> rfl
  case status =>
    intro hi lo h hl
    rw [hfld, State.setRegFld_field _ _ _ _ _ (by decide) (by decide) (.inr h) hl]
  case avlStore => exact (bootFrom_reg b s _).trans (bankShown_avlStore b s)

/-- What the fall back to a bank shows (R465). -/
structure FellBack (b : Bool) (s t : State) : Prop where
  boot : t.boot = s.boot
  lost : t.store.lost = s.store.lost
  selected : t.store.cur.bank = b
  running : t.fw.running = s.bankImage b
  bank : t.runBank = b
  flag : t.regFld .secBootStatus 0 0 0 8 8 = 1
  avlStore : t.reg .avlStoreStatus 0 0 0 = s.reg .avlStoreStatus 0 0 0

theorem fallBack_fellBack (b : Bool) (s : State) : FellBack b s (fallBack b s) := by
  obtain ⟨hboot, hstore, hrun, hbank, hstatus, havl⟩ :=
    bootFrom_booted b ((s.selectBank b).setRegFld .secBootStatus 0 0 0 8 8 1)
  refine ⟨hboot, congrArg (·.lost) hstore, congrArg (·.cur.bank) hstore, hrun, hbank, ?_, havl.trans ?_⟩
  · exact (hstatus 8 8 (by decide) (by decide)).trans
      (State.setRegFld_self _ _ _ _ _ (by decide) (by decide) (by decide))
  · exact (State.setRegFld_other _ _ _ _ (by decide)).trans (State.setRegFld_other _ _ _ _ (by decide))

theorem enterRecovery_eq (s : State) : enterRecovery s =
    { s with boot := { s.boot with recovery := true } }.setRegFld .secBootStatus 0 0 0 3 0 15 := rfl

theorem enterRecovery_boot (s : State) : (enterRecovery s).boot = { s.boot with recovery := true } := rfl

theorem enterRecovery_store (s : State) : (enterRecovery s).store = s.store := rfl

theorem enterRecovery_stage (s : State) : (enterRecovery s).regFld .secBootStatus 0 0 0 3 0 = 15 := by
  rw [enterRecovery_eq, State.setRegFld_self _ _ _ _ _ (by decide) (by decide) (by decide)]

theorem enterRecovery_status (s : State) {hi lo : Nat} (h : 3 < lo) (hl : lo ≤ hi) :
    (enterRecovery s).regFld .secBootStatus 0 0 0 hi lo = s.regFld .secBootStatus 0 0 0 hi lo := by
  rw [enterRecovery_eq, State.setRegFld_field _ _ _ _ _ (by decide) (by decide) (.inr h) hl]
  rfl

theorem enterRecovery_other (s : State) {q : RegId} {d i j : Nat} (h : q.off d i j ≠ RegId.off .secBootStatus 0 0 0) :
    (enterRecovery s).reg q d i j = s.reg q d i j := by
  rw [enterRecovery_eq, State.setRegFld_other _ _ _ _ h]
  rfl

/-- LOST of the store's status in a state that has it as the ROM read it. -/
theorem lost_of_storeRead {s t : State} (h : t.reg .avlStoreStatus 0 0 0 = (storeRead s).reg .avlStoreStatus 0 0 0) :
    t.regFld .avlStoreStatus 0 0 0 4 4 = if !s.store.a.valid && !s.store.b.valid then 1 else 0 :=
  (congrArg (fld · 4 4) h).trans (storeRead_lost s)

theorem lost_of_storeRead_stage {s t : State} (k : Nat)
    (h : t.reg .avlStoreStatus 0 0 0 = (storeRead s).reg .avlStoreStatus 0 0 0) :
    (t.setStage k).regFld .avlStoreStatus 0 0 0 4 4 = if !s.store.a.valid && !s.store.b.valid then 1 else 0 :=
  lost_of_storeRead ((setStage_other t k (by decide)).trans h)

/-- The state in which the selected bank's failing check shows. -/
def checkShown (s : State) : State :=
  (storeRead s).setRegFld .secBootStatus 0 0 0 15 12 (bankCheck s s.store.cur.bank)

theorem checkShown_avlStore (s : State) :
    (checkShown s).reg .avlStoreStatus 0 0 0 = (storeRead s).reg .avlStoreStatus 0 0 0 :=
  State.setRegFld_other _ _ _ _ (by decide)

theorem checkShown_boot (s : State) : (checkShown s).boot = s.boot := rfl

theorem checkShown_bankImage (s : State) (b : Bool) : (checkShown s).bankImage b = s.bankImage b :=
  State.bankImage_congr (s := s) (t := checkShown s) rfl rfl b

/-- The selected bank boots. -/
theorem bootStep2_selected_facts {s : State} (h : bankCheck s s.store.cur.bank = 0) : AtStep 2 s (bootStep2 s) ∧
    (bootStep2 s).fw.running = s.bankImage s.store.cur.bank ∧ (bootStep2 s).runBank = s.store.cur.bank ∧
    (bootStep2 s).store = { s.store with
      lost := !s.store.a.valid && !s.store.b.valid
      dirty := s.store.dirty || (!s.store.a.valid && !s.store.b.valid) } := by
  obtain ⟨hboot, hstore, hrun, hbank, -, -⟩ := bootFrom_booted s.store.cur.bank (storeRead s)
  rw [bootStep2_selected h]
  generalize bootFrom s.store.cur.bank (storeRead s) = t at hboot hstore hrun hbank
  refine ⟨atStep_setStage (hboot.trans (storeRead_boot s)) (by decide), hrun.trans ?_,
    (setStage_runBank t 2).trans hbank, hstore.trans (storeRead_store s)⟩
  exact storeRead_bankImage s _

/-- The other bank boots, and is selected. -/
theorem bootStep2_other_facts {s : State} (h : bankCheck s s.store.cur.bank ≠ 0)
    (h' : bankCheck s (!s.store.cur.bank) = 0) : AtStep 2 s (bootStep2 s) ∧
    (bootStep2 s).fw.running = s.bankImage (!s.store.cur.bank) ∧ (bootStep2 s).runBank = (!s.store.cur.bank) ∧
    (bootStep2 s).store.cur.bank = (!s.store.cur.bank) ∧ (bootStep2 s).regFld .secBootStatus 0 0 0 8 8 = 1 := by
  obtain ⟨hboot, -, hselected, hrun, hbank, hflag, -⟩ := fallBack_fellBack (!s.store.cur.bank) (checkShown s)
  have heq : bootStep2 s = (fallBack (!s.store.cur.bank) (checkShown s)).setStage 2 := bootStep2_other h h'
  rw [heq]
  generalize fallBack (!s.store.cur.bank) (checkShown s) = t at hboot hselected hrun hbank hflag
  refine ⟨atStep_setStage (hboot.trans (checkShown_boot s)) (by decide), hrun.trans (checkShown_bankImage s _),
    (setStage_runBank t 2).trans hbank, hselected, (setStage_status t 2 (by decide) (by decide)).trans hflag⟩

/-- With neither bank valid start-up ends in recovery. -/
theorem bootStep2_none_facts {s : State} (h : bankCheck s s.store.cur.bank ≠ 0)
    (h' : bankCheck s (!s.store.cur.bank) ≠ 0) : (bootStep2 s).boot = { s.boot with recovery := true } ∧
    (bootStep2 s).regFld .secBootStatus 0 0 0 3 0 = 15 ∧
    (bootStep2 s).regFld .secBootStatus 0 0 0 15 12 = bankCheck s (!s.store.cur.bank) := by
  rw [bootStep2_none h h']
  refine ⟨rfl, enterRecovery_stage _, ?_⟩
  rw [enterRecovery_status _ (by decide) (by decide)]
  exact State.setRegFld_self _ _ _ _ _ (by decide) (by decide) (romCheck_lt _ _)

theorem bootStep2_lost (s : State) : (bootStep2 s).store.lost = (!s.store.a.valid && !s.store.b.valid) := by
  by_cases h : bankCheck s s.store.cur.bank = 0
  · exact congrArg (·.lost) (bootStep2_selected_facts h).2.2.2
  · by_cases h' : bankCheck s (!s.store.cur.bank) = 0
    · have heq : bootStep2 s = (fallBack (!s.store.cur.bank) (checkShown s)).setStage 2 := bootStep2_other h h'
      have hlost := (fallBack_fellBack (!s.store.cur.bank) (checkShown s)).lost
      rw [heq]
      generalize fallBack (!s.store.cur.bank) (checkShown s) = t at hlost
      exact hlost.trans (congrArg (·.lost) (storeRead_store s))
    · rw [bootStep2_none h h', enterRecovery_store, State.setRegFld_store, State.setRegFld_store, storeRead_store]

theorem bootStep2_lostShown (s : State) : (bootStep2 s).regFld .avlStoreStatus 0 0 0 4 4 =
    if !s.store.a.valid && !s.store.b.valid then 1 else 0 := by
  by_cases h : bankCheck s s.store.cur.bank = 0
  · rw [bootStep2_selected h]
    exact lost_of_storeRead_stage 2 (bootFrom_booted _ _).avlStore
  · by_cases h' : bankCheck s (!s.store.cur.bank) = 0
    · have heq : bootStep2 s = (fallBack (!s.store.cur.bank) (checkShown s)).setStage 2 := bootStep2_other h h'
      rw [heq]
      exact lost_of_storeRead_stage 2 ((fallBack_fellBack _ _).avlStore.trans (checkShown_avlStore s))
    · rw [bootStep2_none h h']
      refine lost_of_storeRead ?_
      rw [enterRecovery_other _ (by decide), State.setRegFld_other _ _ _ _ (by decide)]
      exact checkShown_avlStore s

/-! ### Step 3: the measurements of the hub's firmware -/

theorem extend_blocks_self (s : State) (i : Nat) (dg : BitVec 512) : SMap.getD (s.extend i dg).meas.blocks i 0 = dg :=
  SMap.getD_put_self _ _ _ _

theorem extend_blocks_other (s : State) {i k : Nat} (dg : BitVec 512) (h : k ≠ i) :
    SMap.getD (s.extend i dg).meas.blocks k 0 = SMap.getD s.meas.blocks k 0 := SMap.getD_put_other _ _ _ h

/-- The state with blocks 1 to 3 measured. -/
def measuredHub (s : State) : State :=
  ((s.extend 1 Config.bootRom).extend 2 s.fw.running.header).extend 3 (s.fw.running.comps.getD 0 0)

theorem measuredHub_blocks (s : State) :
    (measuredHub s).meas.count = s.meas.count + 3 ∧ SMap.getD (measuredHub s).meas.blocks 1 0 = Config.bootRom ∧
    SMap.getD (measuredHub s).meas.blocks 2 0 = s.fw.running.header ∧
    SMap.getD (measuredHub s).meas.blocks 3 0 = s.fw.running.comps.getD 0 0 := by
  unfold measuredHub
  refine ⟨rfl, ?_, ?_, extend_blocks_self _ _ _⟩
  · rw [extend_blocks_other _ _ (by decide), extend_blocks_other _ _ (by decide), extend_blocks_self]
  · rw [extend_blocks_other _ _ (by decide), extend_blocks_self]

theorem bootStep3_facts (ev : StartupEv) (s : State) : AtStep 3 s (bootStep3 ev s) ∧
    (bootStep3 ev s).meas = (measuredHub s).meas ∧ (bootStep3 ev s).hub.standbyOk = (!s.hub.aFailed && !s.hub.bFailed) := by
  unfold bootStep3
  extract_lets x u ok a b v w y z
  have hy : y.boot = s.boot ∧ y.meas = (measuredHub s).meas ∧ y.hub.standbyOk = (!s.hub.aFailed && !s.hub.bFailed) :=
    ⟨rfl, rfl, rfl⟩
  clear_value y
  have hz : z.boot = s.boot ∧ z.meas = (measuredHub s).meas ∧ z.hub.standbyOk = (!s.hub.aFailed && !s.hub.bFailed) := by
    dsimp only [z]
    split
    · exact hy
    · exact hy
  exact ⟨atStep_setStage hz.1 (by decide), hz.2⟩

/-! ### Step 5: the die rails and the other components -/

/-- Every die has its rails. -/
def RailsOn (s : State) : Prop := ∀ d, (s.die d).railOn = true

theorem State.die_congr {s t : State} (h : t.dies = s.dies) (d : Die) : t.die d = s.die d := by
  unfold State.die
  rw [h]

theorem State.core_congr {s t : State} (h : t.cores = s.cores) (d : Die) (p : PCore) : t.core d p = s.core d p := by
  unfold State.core
  rw [h]

theorem RailsOn.of_dies {s t : State} (h : RailsOn s) (hd : t.dies = s.dies) : RailsOn t :=
  fun d => (congrArg DieSt.railOn (State.die_congr hd d)).trans (h d)

/-- A change of an island leaves the rails. -/
theorem RailsOn.modIsland {s : State} (h : RailsOn s) (d : Die) (x : Island) (f : IslandSt → IslandSt) :
    RailsOn (s.modIsland d x f) := by
  intro e
  by_cases he : e = d
  · subst he
    exact (congrArg DieSt.railOn (State.modDie_self _ _ _)).trans (h e)
  · exact (congrArg DieSt.railOn (State.modDie_other _ _ he)).trans (h e)

theorem RailsOn.showPhases {s : State} (h : RailsOn s) (d : Die) (g : Rail) (out : Nat) : RailsOn (showPhases d g out s) := by
  unfold Machine.showPhases
  extract_lets left u v
  have hu : u.dies = s.dies := by
    dsimp only [u]
    split <;> rfl
  split
  · exact h.of_dies hu
  · have hv : v.dies = s.dies := by
      dsimp only [v]
      split
      · exact hu
      · exact hu
    exact fold_inv RailsOn _ _ _ (h.of_dies hv) fun t x ht => ht.modIsland d x _

theorem RailsOn.applySpares {s : State} (h : RailsOn s) : RailsOn s.applySpares := by
  unfold State.applySpares
  extract_lets m cores arrays spads gallery hbm ports
  have hcores : RailsOn cores := fold_inv RailsOn _ _ _ h fun t d ht =>
    ht.of_dies ((State.assignCores_keeps (ps := Parts.any.erase .dies) rfl (Keeps.refl _ t)).rest.dies rfl)
  have harrays : RailsOn arrays := fold_inv RailsOn _ _ _ hcores fun t x ht => ht
  have hspads : RailsOn spads := fold_inv RailsOn _ _ _ harrays fun t x ht => ht
  have hgallery : RailsOn gallery := fold_inv RailsOn _ _ _ hspads fun t x ht => ht
  have hhbm : RailsOn hbm := fold_inv RailsOn _ _ _ hgallery fun t x ht => ht
  have hports : RailsOn ports := fold_inv RailsOn _ _ _ hhbm fun t x ht => ht
  refine fold_inv RailsOn _ _ _ hports fun t x ht => ?_
  dsimp only
  split
  · exact ht.showPhases _ _ _
  · exact ht

/-- The state once the rails of all dies are up. -/
def railsRaised (s : State) : State := allDies.foldl (fun s d => s.modDie d (fun z => { z with railOn := true })) s

theorem railsRaised_on (s : State) : RailsOn (railsRaised s) := by
  intro d
  refine foldl_hits (fun t => (t.die d).railOn = true) _ _ d s (List.mem_finRange d) (fun t => ?_) fun t e ht => ?_
  · exact congrArg DieSt.railOn (State.modDie_self _ _ _)
  · by_cases he : d = e
    · subst he
      exact congrArg DieSt.railOn (State.modDie_self _ _ _)
    · exact (congrArg DieSt.railOn (State.modDie_other _ _ he)).trans ht

/-- The state with blocks 4 to 6 measured. -/
def measuredDies (x : Image) (s : State) : State :=
  ((s.extend 4 (x.comps.getD 1 0)).extend 5 (x.comps.getD 2 0)).extend 6 (x.comps.getD 3 0)

theorem measuredDies_blocks (x : Image) (s : State) :
    (measuredDies x s).extendSecurity.meas.count = s.meas.count + 4 ∧
    SMap.getD (measuredDies x s).extendSecurity.meas.blocks 4 0 = x.comps.getD 1 0 ∧
    SMap.getD (measuredDies x s).extendSecurity.meas.blocks 5 0 = x.comps.getD 2 0 ∧
    SMap.getD (measuredDies x s).extendSecurity.meas.blocks 6 0 = x.comps.getD 3 0 := by
  unfold measuredDies State.extendSecurity
  refine ⟨rfl, ?_, ?_, ?_⟩
  · rw [extend_blocks_other _ _ (by decide), extend_blocks_other _ _ (by decide), extend_blocks_other _ _ (by decide),
      extend_blocks_self]
  · rw [extend_blocks_other _ _ (by decide), extend_blocks_other _ _ (by decide), extend_blocks_self]
  · rw [extend_blocks_other _ _ (by decide), extend_blocks_self]

/-- The stored calibrations of the energy meters in their registers. -/
def calibrated (s : State) : State :=
  (List.range 19).foldl (fun s k => s.setReg .pwrEcal 0 k 0 (BitVec.ofNat 64
    (s.store.cur.ecal.getD k (Config.factoryEcal k).toNat))) s

theorem calibrated_within (s : State) : Within [.regs] s (calibrated s) :=
  (Keeps.foldl (Keeps.refl _ s) fun _ _ h => State.setReg_keeps rfl h).rest

/-- The state at the end of step 5 but for STAGE. -/
def diesUp (s : State) : State :=
  let u := measuredDies s.fw.running (railsRaised s).applySpares
  calibrated { u.extendSecurity with boot := { u.boot with modPwrgd := true } }

theorem bootStep5_passed {s : State} (h : s.fw.running.digestsOk = true) : bootStep5 s = (diesUp s).setStage 5 := by
  unfold bootStep5 diesUp calibrated measuredDies railsRaised
  dsimp only
  rw [h, if_neg (by decide)]

theorem measuredDies_within (x : Image) (s : State) : Within [.meas] s (measuredDies x s) :=
  (State.extend_keeps rfl (State.extend_keeps rfl (State.extend_keeps rfl (Keeps.refl _ s)))).rest

/-- What raising the rails and taking the spare map may change. -/
theorem sparesTaken_within (s : State) :
    Within [.cores, .regs, .mcs, .ports, .dies] s (railsRaised s).applySpares :=
  (State.applySpares_keeps rfl (Keeps.foldl (Keeps.refl _ s) fun _ _ h => State.modDie_keeps rfl h)).rest

theorem diesUp_facts (s : State) : (diesUp s).boot = { s.boot with modPwrgd := true } ∧ RailsOn (diesUp s) ∧
    (diesUp s).meas = (measuredDies s.fw.running (railsRaised s).applySpares).extendSecurity.meas ∧
    (railsRaised s).applySpares.meas = s.meas := by
  have hspares := sparesTaken_within s
  have hrails : RailsOn (railsRaised s).applySpares := (railsRaised_on s).applySpares
  unfold diesUp
  generalize (railsRaised s).applySpares = u at hspares hrails
  have hmeas := measuredDies_within s.fw.running u
  generalize measuredDies s.fw.running u = v at hmeas
  extract_lets w
  have hcal := calibrated_within { w.extendSecurity with boot := { w.boot with modPwrgd := true } }
  generalize calibrated _ = t at hcal
  have hboot : w.boot = s.boot := (hmeas.boot rfl).trans (hspares.boot rfl)
  refine ⟨(hcal.boot rfl).trans ?_, hrails.of_dies ((hcal.dies rfl).trans (hmeas.dies rfl)), hcal.meas rfl, hspares.meas rfl⟩
  rw [hboot]

/-- The state in which a failing digest shows. -/
def digestShown (s : State) : State := s.setRegFld .secBootStatus 0 0 0 15 12 5

theorem digestShown_boot (s : State) : (digestShown s).boot = s.boot := rfl

theorem digestShown_status (s : State) {hi lo : Nat} (h : hi < 12) (hl : lo ≤ hi) :
    (digestShown s).regFld .secBootStatus 0 0 0 hi lo = s.regFld .secBootStatus 0 0 0 hi lo :=
  State.setRegFld_field _ _ _ _ _ (by decide) (by decide) (.inl h) hl

theorem digestShown_runBank (s : State) : (digestShown s).runBank = s.runBank := by
  rw [State.runBank_eq, State.runBank_eq, digestShown_status s (by decide) (by decide)]

theorem bootStep5_failed {s : State} (h : s.fw.running.digestsOk = false) : bootStep5 s =
    if s.regFld .secBootStatus 0 0 0 8 8 = 1 ∨ romCheck (s.bankImage (!s.runBank)) s.store.cur.svnFloor ≠ 0 then
      enterRecovery (digestShown s)
    else { fallBack (!s.runBank) (digestShown s) with meas := {} }.setStage 2 := by
  rw [← digestShown_runBank s, ← digestShown_status s (hi := 8) (lo := 8) (by decide) (by decide)]
  exact if_pos (by rw [h]; decide)

theorem bootStep5_passed_facts {s : State} (h : s.fw.running.digestsOk = true) :
    AtStep 5 { s with boot := { s.boot with modPwrgd := true } } (bootStep5 s) ∧ (∀ d, ((bootStep5 s).die d).railOn = true) ∧
    (bootStep5 s).meas.count = s.meas.count + 4 ∧
    SMap.getD (bootStep5 s).meas.blocks 4 0 = s.fw.running.comps.getD 1 0 ∧
    SMap.getD (bootStep5 s).meas.blocks 5 0 = s.fw.running.comps.getD 2 0 ∧
    SMap.getD (bootStep5 s).meas.blocks 6 0 = s.fw.running.comps.getD 3 0 := by
  obtain ⟨hboot, hrails, hmeas, hbefore⟩ := diesUp_facts s
  have hblocks := measuredDies_blocks s.fw.running (railsRaised s).applySpares
  rw [← hmeas, hbefore] at hblocks
  rw [bootStep5_passed h]
  generalize diesUp s = t at hboot hrails hblocks
  exact ⟨atStep_setStage hboot (by decide), hrails.of_dies rfl, hblocks⟩

/-- A failing digest of the bank that start-up fell back to, or with no other bank valid, ends in recovery. -/
theorem bootStep5_recovers {s : State} (hd : s.fw.running.digestsOk = false)
    (h : s.regFld .secBootStatus 0 0 0 8 8 = 1 ∨ romCheck (s.bankImage (!s.runBank)) s.store.cur.svnFloor ≠ 0) :
    (bootStep5 s).boot = { s.boot with recovery := true } ∧ (bootStep5 s).regFld .secBootStatus 0 0 0 3 0 = 15 := by
  rw [bootStep5_failed hd, if_pos h]
  exact ⟨(enterRecovery_boot _).trans (by rw [digestShown_boot]), enterRecovery_stage _⟩

/-- A state that fell back, at step 2 with its measurements gone. -/
theorem FellBack.restarted {b : Bool} {s t : State} (h : FellBack b (digestShown s) t) :
    AtStep 2 s ({ t with meas := {} }.setStage 2) ∧ ({ t with meas := {} }.setStage 2).fw.running = s.bankImage b ∧
    ({ t with meas := {} }.setStage 2).runBank = b ∧ ({ t with meas := {} }.setStage 2).meas = {} := by
  obtain ⟨hboot, -, -, hrun, hbank, -, -⟩ := h
  refine ⟨atStep_setStage (hboot.trans rfl) (by decide), hrun.trans (State.bankImage_congr rfl rfl _), ?_, rfl⟩
  rw [setStage_runBank]
  unfold State.runBank State.reg at hbank ⊢
  exact hbank

/-- Otherwise start-up is at step 2 again, from the other bank, with no measurement. -/
theorem bootStep5_fallsBack {s : State} (hd : s.fw.running.digestsOk = false) (hf : s.regFld .secBootStatus 0 0 0 8 8 ≠ 1)
    (hc : romCheck (s.bankImage (!s.runBank)) s.store.cur.svnFloor = 0) :
    AtStep 2 s (bootStep5 s) ∧ (bootStep5 s).fw.running = s.bankImage (!s.runBank) ∧
    (bootStep5 s).runBank = (!s.runBank) ∧ (bootStep5 s).meas = {} := by
  rw [(bootStep5_failed hd).trans (if_neg (not_or.2 ⟨hf, not_not.2 hc⟩))]
  exact (fallBack_fellBack (!s.runBank) (digestShown s)).restarted

end Sys2Proof.Machine
end

section
/-! SUPPORT. The start-up steps from the self-tests to job-ready (R457 to R461). -/

namespace Sys2Proof.Machine

/-! ### Steps 6 and 7: self-test -/

theorem bootTest_six (s : State) : bootTest 6 {} s =
    if s.boot.oos then s.setRegFld .secBootStatus 0 0 0 9 9 1 else s.setStage 6 := rfl

/-- The state after step 7's tests: all memory is zero (R454). -/
def tested (ev : StartupEv) (s : State) : State :=
  { ev.fails.foldl (fun s f => testFail f s) (trainHbm s) with mem := [], scrambled := [], bad := [] }

theorem bootTest_seven (ev : StartupEv) (s : State) : bootTest 7 ev s =
    if (tested ev s).boot.oos then (tested ev s).setRegFld .secBootStatus 0 0 0 9 9 1 else (tested ev s).setStage 7 := by
  unfold bootTest tested
  rfl

/-- Memory without an entry and without an undefined region reads as zero. -/
theorem devRead_empty {s : State} (hm : s.mem = []) (hs : s.scrambled = []) (a n : Nat) :
    s.devRead a n = List.replicate n 0 := by
  have hbyte : ∀ b, memByte s.devDefault s.mem b = 0 := by
    intro b
    unfold memByte State.devDefault
    rw [hm, hs]
    rfl
  unfold State.devRead
  induction n generalizing a with
  | zero => rfl
  | succ n ih => rw [memRead, hbyte, ih, List.replicate_succ]

/-- What step 7 leaves. -/
theorem bootTest_seven_facts (ev : StartupEv) (s : State) :
    (bootTest 7 ev s).mem = [] ∧ (bootTest 7 ev s).bad = [] ∧ (bootTest 7 ev s).scrambled = [] ∧
    ((bootTest 7 ev s).boot.oos = false →
      (bootTest 7 ev s).boot.stage = 7 ∧ (bootTest 7 ev s).regFld .secBootStatus 0 0 0 3 0 = 7) ∧
    ((bootTest 7 ev s).boot.oos = true → (bootTest 7 ev s).regFld .secBootStatus 0 0 0 9 9 = 1) := by
  rw [bootTest_seven]
  have hmem : (tested ev s).mem = [] := rfl
  have hbad : (tested ev s).bad = [] := rfl
  have hscr : (tested ev s).scrambled = [] := rfl
  generalize tested ev s = u at hmem hbad hscr
  split
  case isTrue ho =>
    refine ⟨hmem, hbad, hscr, fun hf => ?_, fun _ => ?_⟩
    · exact absurd (ho.symm.trans hf) (by decide)
    · rw [State.setRegFld_self _ _ _ _ _ (by decide) (by decide) (by decide)]
  case isFalse ho =>
    exact ⟨hmem, hbad, hscr, fun _ => ⟨rfl, setStage_stage u (by decide)⟩, fun ht => absurd ht ho⟩

/-! ### Functions that start-up takes to ON -/

theorem isOn_self_turnOn (s : State) (f : FuncId) : IsOn f (s.turnOn f) := State.setFn_self _ _ _

theorem isOn_of_fns {f : FuncId} {s t : State} (h : IsOn f s) (ht : t.fns = s.fns) : IsOn f t :=
  (State.fn_congr ht f).trans h

/-- A function that is ON stays so while others are taken to ON. -/
theorem isOn_turnOn {f : FuncId} {s : State} (h : IsOn f s) (g : FuncId) : IsOn f (s.turnOn g) := by
  by_cases hg : f = g
  · subst hg
    exact isOn_self_turnOn s f
  · exact (setFn_fn_other _ _ hg).trans h

/-! ### Step 8: cores, engines, Vetch and queues -/

/-- The cores in service of a die go ON. -/
def coresOn (s : State) (d : Die) : State := (s.inService d).foldl (fun s p => s.turnOn (.core d p)) s

/-- Teasel goes ON where a die has it. -/
def teaselOn (s : State) (d : Die) : State := if (s.die d).teaselOut then s else s.turnOn (.teasel d)

/-- The media engine goes ON where a die has it. -/
def mediaOn (s : State) (d : Die) : State := if (s.die d).mediaOut then s else s.turnOn (.media d)

/-- What step 8 turns on of a die. -/
def dieOn (s : State) (d : Die) : State := (mediaOn (teaselOn (coresOn s d) d) d).turnOn (.vetch d)

/-- What step 8 turns on. -/
def allOn (s : State) : State := allQueues.foldl (fun s q => s.turnOn (.dmaq q)) (allDies.foldl dieOn s)

/-- The units whose spares are used up, in AVL_DEGRADED. -/
def wornShown (s : State) : State := s.worn.foldl (fun s k => s.setRegFld .avlDegraded 0 0 0 k k 1) s

theorem bootStep8_eq (s : State) : bootStep8 s = (wornShown (allOn (commitStored s))).setStage 8 := by
  unfold bootStep8 wornShown allOn
  rfl

theorem coresOn_within (s : State) (d : Die) : Within [.fns] s (coresOn s d) :=
  (Keeps.foldl (Keeps.refl _ s) fun _ _ h => State.turnOn_keeps rfl h).rest

theorem teaselOn_within (s : State) (d : Die) : Within [.fns] s (teaselOn s d) := by
  unfold teaselOn
  split
  · exact (Keeps.refl _ s).rest
  · exact (State.turnOn_keeps rfl (Keeps.refl _ s)).rest

theorem mediaOn_within (s : State) (d : Die) : Within [.fns] s (mediaOn s d) := by
  unfold mediaOn
  split
  · exact (Keeps.refl _ s).rest
  · exact (State.turnOn_keeps rfl (Keeps.refl _ s)).rest

theorem isOn_coresOn {f : FuncId} {s : State} (h : IsOn f s) (d : Die) : IsOn f (coresOn s d) :=
  fold_inv (IsOn f) _ _ _ h fun _ _ ht => isOn_turnOn ht _

theorem isOn_teaselOn {f : FuncId} {s : State} (h : IsOn f s) (d : Die) : IsOn f (teaselOn s d) := by
  unfold teaselOn
  split
  · exact h
  · exact isOn_turnOn h _

theorem isOn_mediaOn {f : FuncId} {s : State} (h : IsOn f s) (d : Die) : IsOn f (mediaOn s d) := by
  unfold mediaOn
  split
  · exact h
  · exact isOn_turnOn h _

theorem isOn_dieOn {f : FuncId} {s : State} (h : IsOn f s) (d : Die) : IsOn f (dieOn s d) :=
  isOn_turnOn (isOn_mediaOn (isOn_teaselOn (isOn_coresOn h d) d) d) _

/-- What is to go ON of a die, by the state of its units. -/
structure DieIsOn (s : State) (d : Die) (t : State) : Prop where
  core : ∀ p, (s.core d p).role = .inService → IsOn (.core d p) t
  vetch : IsOn (.vetch d) t
  teasel : (s.die d).teaselOut = false → IsOn (.teasel d) t
  media : (s.die d).mediaOut = false → IsOn (.media d) t

/-- What is ON of a die stays so through a change that leaves functions ON. -/
theorem DieIsOn.mono {s t u : State} {d : Die} (h : DieIsOn s d t) (hu : ∀ f, IsOn f t → IsOn f u) : DieIsOn s d u :=
  ⟨fun p hp => hu _ (h.core p hp), hu _ h.vetch, fun ho => hu _ (h.teasel ho), fun ho => hu _ (h.media ho)⟩

theorem dieOn_on (s : State) (d : Die) : DieIsOn s d (dieOn s d) := by
  have hc := coresOn_within s d
  have ht := teaselOn_within (coresOn s d) d
  constructor
  case core =>
    intro p hp
    have hon : IsOn (.core d p) (coresOn s d) := by
      refine foldl_hits (IsOn (.core d p)) _ _ p s ?_ (fun t => isOn_self_turnOn t _) fun t q h => isOn_turnOn h _
      exact List.mem_filter.2 ⟨List.mem_finRange p, decide_eq_true hp⟩
    exact isOn_turnOn (isOn_mediaOn (isOn_teaselOn hon d) d) _
  case vetch => exact isOn_self_turnOn _ _
  case teasel =>
    intro ho
    have hon : IsOn (.teasel d) (teaselOn (coresOn s d) d) := by
      unfold teaselOn
      rw [State.die_congr (hc.dies rfl), ho]
      exact isOn_self_turnOn _ _
    exact isOn_turnOn (isOn_mediaOn hon d) _
  case media =>
    intro ho
    have hon : IsOn (.media d) (mediaOn (teaselOn (coresOn s d) d) d) := by
      unfold mediaOn
      rw [State.die_congr ((ht.dies rfl).trans (hc.dies rfl)), ho]
      exact isOn_self_turnOn _ _
    exact isOn_turnOn hon _

theorem turnOn_within (s : State) (f : FuncId) : Within [.fns] s (s.turnOn f) :=
  (State.turnOn_keeps rfl (Keeps.refl _ s)).rest

theorem dieOn_within (s : State) (d : Die) : Within [.fns] s (dieOn s d) :=
  ((coresOn_within s d).trans (teaselOn_within _ d)).trans ((mediaOn_within _ d).trans (turnOn_within _ _))

theorem DieIsOn.congr {s s' t : State} {d : Die} (h : DieIsOn s' d t) (hc : s'.cores = s.cores) (hd : s'.dies = s.dies) :
    DieIsOn s d t := by
  obtain ⟨hcore, hvetch, hteasel, hmedia⟩ := h
  rw [State.die_congr hd] at hteasel hmedia
  refine ⟨fun p hp => hcore p ?_, hvetch, hteasel, hmedia⟩
  rw [State.core_congr hc]
  exact hp

theorem allDies_on (s : State) (d : Die) : DieIsOn s d (allDies.foldl dieOn s) := by
  refine foldl_hits' (fun t => t.cores = s.cores ∧ t.dies = s.dies) (DieIsOn s d) _ _ d s (List.mem_finRange d)
    ⟨rfl, rfl⟩ (fun t e ht => ?_) (fun t ht => (dieOn_on t d).congr ht.1 ht.2) fun t e ht => ht.mono fun f hf => isOn_dieOn hf e
  have hw := dieOn_within t e
  exact ⟨(hw.cores rfl).trans ht.1, (hw.dies rfl).trans ht.2⟩

theorem allOn_die (s : State) (d : Die) : DieIsOn s d (allOn s) :=
  (allDies_on s d).mono fun f hf => fold_inv (IsOn f) _ _ _ hf fun _ _ ht => isOn_turnOn ht _

theorem allOn_queue (s : State) (q : QueueId) : IsOn (.dmaq q) (allOn s) :=
  foldl_hits (IsOn (.dmaq q)) _ _ q _ (List.mem_finRange q) (fun t => isOn_self_turnOn t _) fun _ _ h => isOn_turnOn h _

theorem allOn_within (s : State) : Within [.fns] s (allOn s) :=
  fold_inv (Within [.fns] s) _ _ _
    (fold_inv (Within [.fns] s) _ _ _ (Within.refl _ s) fun _ d h => h.trans (dieOn_within _ d))
    fun _ q h => h.trans (turnOn_within _ (.dmaq q))

theorem wornShown_within (s : State) : Within [.regs] s (wornShown s) :=
  (Keeps.foldl (Keeps.refl _ s) fun _ _ h => State.setRegFld_keeps rfl h).rest

/-- What step 8 leaves. -/
theorem bootStep8_facts (s : State) : AtStep 8 s (bootStep8 s) ∧ (∀ d, DieIsOn s d (bootStep8 s)) ∧
    ∀ q, IsOn (.dmaq q) (bootStep8 s) := by
  have hcommit : Within [.regs, .regionMap, .store, .free] s (commitStored s) :=
    (commitStored_keeps rfl (Keeps.refl _ s)).rest
  rw [bootStep8_eq]
  generalize commitStored s = u at hcommit
  have hon := allOn_within u
  have hdie := allOn_die u
  have hqueue := allOn_queue u
  generalize allOn u = v at hon hdie hqueue
  have hworn := wornShown_within v
  generalize wornShown v = w at hworn
  have hfns : (w.setStage 8).fns = v.fns := hworn.fns rfl
  refine ⟨atStep_setStage ((hworn.boot rfl).trans ((hon.boot rfl).trans (hcommit.boot rfl))) (by decide), fun d => ?_,
    fun q => isOn_of_fns (hqueue q) hfns⟩
  exact ((hdie d).congr (hcommit.cores rfl) (hcommit.dies rfl)).mono fun f hf => isOn_of_fns hf hfns

/-! ### Step 9: the ports -/

/-- A port is enabled, and trains or fails (R461). -/
def portUp (ev : StartupEv) (s : State) (p : PortId) : State :=
  if ev.portFails.contains p then
    ((s.turnOn (.port p)).modFring (portRing p) (fun x => { x with st := .bypassed, reason := 3 })).degraded kFabricLane
      (portDie p).val p.val 0 0 0 0
  else (s.turnOn (.port p)).modPort p (fun x => { x with trained := true })

theorem bootStep9_eq (ev : StartupEv) (s : State) :
    bootStep9 ev s = (loopTrain ((List.finRange 16).foldl (portUp ev) s)).setStage 9 := by
  unfold bootStep9
  rfl

theorem portUp_fns (ev : StartupEv) (s : State) (p : PortId) : (portUp ev s p).fns = (s.turnOn (.port p)).fns := by
  unfold portUp
  split
  · exact State.degraded_fns _ _ _ _ _ _ _ _
  · rfl

theorem portUp_boot (ev : StartupEv) (s : State) (p : PortId) : (portUp ev s p).boot = s.boot := by
  unfold portUp
  split
  · exact State.degraded_boot _ _ _ _ _ _ _ _
  · rfl

theorem portsUp_on (ev : StartupEv) (s : State) (p : PortId) : IsOn (.port p) ((List.finRange 16).foldl (portUp ev) s) :=
  foldl_hits (IsOn (.port p)) _ _ p s (List.mem_finRange p)
    (fun t => isOn_of_fns (isOn_self_turnOn t _) (portUp_fns ev t p)) fun t q h => isOn_of_fns (isOn_turnOn h _) (portUp_fns ev t q)

/-- What step 9 leaves. -/
theorem bootStep9_facts (ev : StartupEv) (s : State) :
    AtStep 9 s (bootStep9 ev s) ∧ ∀ p, IsOn (.port p) (bootStep9 ev s) := by
  have hboot : ((List.finRange 16).foldl (portUp ev) s).boot = s.boot :=
    foldl_same (fun t => t.boot) _ _ _ fun t p => portUp_boot ev t p
  have hon := portsUp_on ev s
  rw [bootStep9_eq]
  generalize (List.finRange 16).foldl (portUp ev) s = u at hboot hon
  have hloop : (loopTrain u).boot = u.boot :=
    (loopTrain_keeps (ps := Parts.any.erase .boot) rfl (Keeps.refl _ u)).rest.boot rfl
  have hfns := loopTrain_fns u
  generalize loopTrain u = v at hloop hfns
  exact ⟨atStep_setStage (hloop.trans hboot) (by decide), fun p => isOn_of_fns (hon p) hfns⟩

/-! ### Step 10: job-ready -/

theorem bootStep10_time (s : State) : (bootStep10 s).reg .secJobReadyTime 0 0 0 = BitVec.ofNat 64 s.now := by
  unfold bootStep10
  rw [setStage_other _ _ (by decide), State.setReg_self]

end Sys2Proof.Machine
end

section
/-! The statements of the module architecture, settled. -/

namespace Sys2Proof

open Machine

/-- Settles O5: each command keeps both memories canonical, and so does the passing of time. -/
theorem memoryStaysCanonical : Obligations.MemoryStaysCanonical := by
  unfold Obligations.MemoryStaysCanonical
  exact fun s t hs h => step_memoryOk h hs

/-- Settles O13: a write of EN = 1 is `functionEnable`, which changes one function as Table 6 says. -/
theorem functionEnable : Obligations.FunctionEnable := by
  unfold Obligations.FunctionEnable
  intro s path f h hctx
  refine ⟨_, exec_functionEnable h, ?_, fun hns => ?_, fun g hg => ?_, fun hr => ?_, ?_⟩
  · rintro ⟨d, k, rfl⟩
    rfl
  · rw [(functionEnable_fn s ((enWritable_iff f).2 hns) hctx).1]
    exact Fn_enable_facts _
  · by_cases hw : enWritable f = true
    · exact (functionEnable_fn s hw hctx).2 g hg
    · rw [functionEnable_readOnly s (by simpa using hw)]
  · by_cases hw : enWritable f = true
    · rw [functionEnable_plain s hw hctx hr]
      rfl
    · rw [functionEnable_readOnly s (by simpa using hw)]
  · rintro r rfl hoff
    rw [functionEnable_ring, if_pos (State.fnIs_of hoff)]
    exact ringLeaveOff_tail r s

/-- Settles O14: a write of EN = 0 is `disableOf`, which changes one function as Table 6 says; a port that drains asks its
ring to leave. -/
theorem functionDisable : Obligations.FunctionDisable := by
  unfold Obligations.FunctionDisable
  intro s path f h
  refine ⟨_, exec_functionDisable h, ?_, ?_, fun hns => ?_, fun g hg => ?_, ?_, fun hp => ?_, ?_⟩
  · rintro d p rfl
    exact exec_coreDisable h
  · rintro ⟨d, k, rfl⟩
    rfl
  · rw [State.fn_congr (disableOf_fns s ((enWritable_iff f).2 hns)), State.setFn_self]
    exact Fn.disable_facts _
  · by_cases hw : enWritable f = true
    · rw [State.fn_congr (disableOf_fns s hw), setFn_fn_other _ _ hg]
    · cases f <;> first | rfl | exact absurd rfl hw
  · by_cases hp : ∃ p, f = .port p
    · obtain ⟨p, rfl⟩ := hp
      exact portDisable_within p s
    · rw [disableOf_plain s (fun p e => hp ⟨p, e⟩)]
      unfold Machine.functionDisable
      split <;> rfl
  · rw [disableOf_plain s hp]
    unfold Machine.functionDisable
    split <;> rfl
  · rintro p rfl hon hq hm
    show ((s.fring (portRing p)).st = .bypassed → ((portDisable p s).fring (portRing p)).st = .bypassed) ∧
      ((s.fring (portRing p)).st ≠ .bypassed → ((portDisable p s).fring (portRing p)).st = .leaving ∧
        ((portDisable p s).fring (portRing p)).reason = 4)
    rw [portDisable_on hon]
    exact ⟨askLeave_bypassed (s := s.setFn (.port p) (s.fn (.port p)).disable) hm hq 4,
      askLeave_leaving (s := s.setFn (.port p) (s.fn (.port p)).disable) hm hq⟩

/-- Settles O15: with no check failing the context starts afresh, else only ERR and EN are written. -/
theorem contextEnable : Obligations.ContextEnable := by
  unfold Obligations.ContextEnable
  intro s path n h hst hoos hoff
  have herr := State.enableErr_inService n hst hoos
  obtain ⟨hlt, h6⟩ := State.enableErr_cases n hst
  refine ⟨_, exec_contextEnable h, exec_functionEnable h, ?_, fun g hg => contextEnable_fn_other hg,
    contextEnable_within n s, ?_, ?_⟩
  · by_cases he : s.enableErr n = 0
    · rw [contextEnable_accepted hoff he, State.setFn_self, (Fn_enable_facts _).1]
    · rw [contextEnable_refused hoff he h6, State.setFn_self]
  · rintro ⟨h1, h2, h3, h4, h7⟩
    have he : s.enableErr n = 0 := by rw [herr, h1, h2, h3, h4, h7]; rfl
    rw [contextEnable_accepted hoff he]
    obtain ⟨hcfg, htotal, hwindow, w, hctx⟩ := State.ctxStart_fresh (s.setRegFld .hifCtxCfg 0 n.val 0 31 29 0) n
    generalize (s.setRegFld .hifCtxCfg 0 n.val 0 31 29 0).ctxStart n = u at hcfg htotal hwindow hctx
    have hctx' : (u.setFn (.ctx n) (s.fn (.ctx n)).enable).ctx n = { winStart := w, phase := true } := hctx
    refine ⟨?_, ?_, htotal, hwindow, ?_⟩
    · rw [State.setFn_self, (Fn_enable_facts _).2.2.1, if_pos hoff]
    · exact (congrArg (fld · 31 29) hcfg).trans (State.setRegFld_self s _ _ _ _ (by decide) (by decide) (by decide))
    · unfold State.sem
      rw [hctx']
      exact ⟨rfl, rfl, rfl, rfl, fun _ _ => rfl, rfl, rfl⟩
  · rintro e rfl hne
    rw [← herr] at hne ⊢
    rw [contextEnable_refused hoff hne h6, State.setFn_self]
    exact ⟨hoff, State.setRegFld_self s _ _ _ _ (by decide) (by decide) hlt, rfl, rfl⟩

/-- Settles O16: only the function's own word moves, but for what waited for a queue, an engine or a port. -/
theorem startingEnds : Obligations.StartingEnds := by
  unfold Obligations.StartingEnds
  intro s f hst hrun
  refine ⟨_, exec_startingComplete hst hrun, ?_, fun g hg hm => ?_, ?_⟩
  · have hm : (∃ d, f = .media d) → ∀ d h, f ≠ .stream d h := by
      rintro ⟨d, rfl⟩ e h
      exact FuncId.noConfusion
    rw [startingComplete_fn s f f hm, State.setFn_self, Fn.started_starting hst]
  · rw [startingComplete_fn s f g hm, setFn_fn_other _ _ hg]
  · cases f with
    | stream d h => trivial
    | dmaq q => trivial
    | media d => trivial
    | port p => exact startingComplete_port s p
    | _ => rfl

/-- Settles O17: by the function's own word after its drain, and for a context by what CONTEXT_OFF leaves. -/
theorem drainingEnds : Obligations.DrainingEnds := by
  unfold Obligations.DrainingEnds
  intro s f hst hwork hclock
  obtain ⟨h1, h2⟩ := drainComplete_fn_self hst
  refine ⟨_, exec_drainComplete hst hwork hclock, h1, h2, fun hf g hg hm => drainComplete_fn_other s hf hg hm, ?_⟩
  cases f with
  | ctx n =>
    obtain ⟨_, hplans, hchains, hsem, hstalls, hrings, hstreams⟩ := drainComplete_ctx n s
    exact ⟨hplans, hchains, hsem, hstalls, hrings, hstreams⟩
  | teasel d => rfl
  | vetch d => rfl
  | ring r => rfl
  | _ => trivial

/-- Settles O18: the write only marks the commit, and its end applies the whole map or none of it. -/
theorem regionCommit : Obligations.RegionCommit := by
  unfold Obligations.RegionCommit
  refine ⟨fun s path h => ⟨fun hb => ?_, fun hb => ?_⟩, fun s hb => ?_⟩
  · rw [exec_regionCommit h, regionCommit_busy hb]
  · refine ⟨_, exec_regionCommit h, ?_⟩
    rw [regionCommit_idle hb]
    exact ⟨rfl, State.setRegFld_self _ _ _ _ _ (by decide) (by decide) (by decide), rfl,
      fun q d i j hq => State.setRegFld_other _ _ _ _ hq⟩
  · refine ⟨_, exec_regionCommitDone hb, ?_, ?_, ?_, regionCommitDone_frame s, fun h0 => ⟨fun j hj => ?_, fun a ha => ?_⟩,
      fun hne => ?_, ?_⟩
    · exact regionCommitDone_busy s
    · exact (State.regFld_congr (regionCommitDone_regs s) _ _ _ _ _ _).trans
        (State.setRegFld_self _ _ _ _ _ (by decide) (by decide) (commitResult_lt _ _))
    · intro q d i j hq
      exact (State.reg_congr (regionCommitDone_regs s) _ _ _ _).trans (State.setRegFld_other _ _ _ _ hq)
    · exact regionCommitDone_region h0 hj
    · exact regionCommitDone_devRead h0 ha
    · rw [regionCommitDone_refused hne]
      rfl
    · rw [commitResult_zero_iff]
      refine and_congr_right fun _ => forall_congr' fun j => forall_congr' fun hj => ?_
      rw [shadowMap_getD s hj]

/-- Settles O19: case by case of the window's register, its reads and its writes. -/
theorem bar4Window : Obligations.Bar4Window := by
  unfold Obligations.Bar4Window
  refine ⟨fun s path v h => ⟨fun hbad => ?_, fun ho hb => ?_⟩, fun s n ht hu h30 h39 => ?_,
    fun s off len ce ht hu => ⟨fun hr => ?_, fun hr hm hbad => ?_, fun hr hm => exec_bar4Read_held hr hm,
      fun hr hm hbad => ?_⟩,
    fun s off bs ht hu hm => ?_⟩
  · rw [exec_bar4CtlWrite v h, bar4CtlWrite_bad hbad]
  · obtain ⟨hbase, howner⟩ := bar4CtlWrite_fields ho hb
    refine ⟨_, exec_bar4CtlWrite v h, hbase, howner, ?_⟩
    rw [bar4CtlWrite_good ho hb]
    rfl
  · refine ⟨_, exec_barResize ht hu, ?_, barResize_base s ⟨h30, h39⟩, ?_⟩
    · rw [barResize_eq s ⟨h30, h39⟩]
      rfl
    · rw [barResize_eq s ⟨h30, h39⟩]
      rfl
  · refine ⟨_, exec_bar4Read ht hu (.inl hr), ?_⟩
    rw [bar4Read_refused ce hr]
    exact ⟨bump_narrow s 0 0 1 rfl, rfl⟩
  · obtain ⟨c, hc⟩ := Option.isSome_iff_exists.1 hbad
    refine ⟨_, exec_bar4Read ht hu (.inr hm), ?_⟩
    rw [bar4Read_bad ce hr hc]
    rfl
  · exact ⟨_, exec_bar4Read ht hu (.inr hm), bar4Read_good_frame ce hr hbad⟩
  · refine ⟨fun hdrop => ?_, fun n hr ho hp => ?_, fun c hr hp hc => ⟨fun ho => ?_, fun n ho => ?_⟩, fun hr hp hc hg => ?_⟩
    · refine ⟨_, exec_bar4Write ht hu hm, ?_⟩
      have hcount : bar4Write off bs s = s.bump .hifBar4Err 0 0 1 := by
        rcases hdrop with hr | ⟨ho, hp⟩
        · exact bar4Write_refused hr
        · exact bar4Write_plan_unowned ho hp
      rw [hcount]
      exact ⟨rfl, bump_narrow s 0 0 1 rfl⟩
    · refine ⟨_, exec_bar4Write ht hu hm, ?_⟩
      rw [bar4Write_plan_owned hr ho hp]
      exact raise_hubSide s causeAddr n _
    · rw [exec_bar4Write ht hu hm, bar4Write_partial_unowned hr ho hp hc]
    · rw [exec_bar4Write ht hu hm, bar4Write_partial_owned hr ho hp hc, raise_hubSide]
    · obtain ⟨hself, hother⟩ := putBytes_reads (s.bar4Base + off) bs hg
      refine ⟨_, exec_bar4Write ht hu hm, ?_⟩
      rw [bar4Write_plain hr hp hc]
      exact ⟨hself, hother, putBytes_frame _ bs hg⟩

/-- Settles O30: step by step, each from the state that the one before it leaves. -/
theorem startupSteps : Obligations.StartupSteps := by
  unfold Obligations.StartupSteps
  refine ⟨fun s ev h => exec_startupStepDone_none ev (nextStep_none h), fun s ev h => ?_, fun s ev h hreq => ?_,
    fun s ev h => ?_, fun s ev h hl => ?_, fun s ev h => ?_, fun s h => ?_, fun s ev h => ?_, fun s ev h => ?_,
    fun s ev h => ?_, fun s ev h => ?_, fun s ev h => ⟨fun ha => ?_, fun ha => ?_⟩⟩
  · exact ⟨_, exec_startupStepDone ev (nextStep_succ h (by decide) (by decide) (by decide)), atStep_setStage rfl (by decide)⟩
  · have hnext : s.nextStep = some 2 := by
      rw [nextStep_starting h, hreq]
      rfl
    exact ⟨_, exec_startupStepDone ev hnext, bootStep2_lost s, bootStep2_lostShown s, bootStep2_selected_facts,
      bootStep2_other_facts, bootStep2_none_facts⟩
  · obtain ⟨hat, hmeas, hstandby⟩ := bootStep3_facts ev s
    refine ⟨_, exec_startupStepDone ev (nextStep_succ h (by decide) (by decide) (by decide)), hat, ?_⟩
    obtain ⟨hcount, h1, h2, h3⟩ := measuredHub_blocks s
    rw [← hmeas] at hcount h1 h2 h3
    exact ⟨hcount, h1, h2, h3, hstandby⟩
  · have hnext : s.nextStep = some 4 := by
      rw [nextStep_starting h, hl]
      rfl
    exact ⟨_, exec_startupStepDone ev hnext, rfl⟩
  · have hnext : s.nextStep = some 5 := by
      rcases h with h | ⟨h, hl⟩
      · exact nextStep_succ h (by decide) (by decide) (by decide)
      · rw [nextStep_starting h, hl]
        rfl
    exact ⟨_, exec_startupStepDone ev hnext, bootStep5_passed_facts,
      fun hd => ⟨bootStep5_recovers hd, bootStep5_fallsBack hd⟩⟩
  · obtain ⟨hp, hr, ho, hs⟩ := id h
    refine ⟨_, exec_startupStepDone {} (nextStep_succ h (by decide) (by decide) (by decide)), ?_⟩
    have hsix : startupStep 6 {} s = s.setStage 6 := (bootTest_six s).trans (if_neg (by rw [ho]; decide))
    rw [hsix]
    exact ⟨atStep_setStage rfl (by decide), rfl⟩
  · obtain ⟨hmem, hbad, hscr, hserv, hoos⟩ := bootTest_seven_facts ev s
    exact ⟨_, exec_startupStepDone ev (nextStep_succ h (by decide) (by decide) (by decide)), hmem, hbad,
      fun a n => devRead_empty hmem hscr a n, hserv, hoos⟩
  · obtain ⟨hat, hdie, hqueue⟩ := bootStep8_facts s
    exact ⟨_, exec_startupStepDone ev (nextStep_succ h (by decide) (by decide) (by decide)), hat,
      fun d p hp => (hdie d).core p hp, fun d => (hdie d).vetch, hqueue, fun d ho => (hdie d).teasel ho,
      fun d ho => (hdie d).media ho⟩
  · exact ⟨_, exec_startupStepDone ev (nextStep_succ h (by decide) (by decide) (by decide)), bootStep9_facts ev s⟩
  · exact ⟨_, exec_startupStepDone ev (nextStep_succ h (by decide) (by decide) (by decide)), atStep_setStage rfl (by decide),
      bootStep10_time s, rfl⟩
  · refine exec_startupStepDone_none ev ?_
    rw [nextStep_starting h, ha]
    rfl
  · have hnext : s.nextStep = some 11 := by
      rw [nextStep_starting h, ha]
      rfl
    exact ⟨_, exec_startupStepDone ev hnext, atStep_setStage rfl (by decide), rfl⟩

/-- Settles O60: each of the commands reaches the hub as the write of its register. -/
theorem registerCommands : Obligations.RegisterCommands := by
  unfold Obligations.RegisterCommands
  intro s path f d m v w key k sec pc c off wide x hfree hmem
  simp only [List.mem_cons, Prod.mk.injEq, List.not_mem_nil, or_false] at hmem
  rcases hmem with ⟨rfl, rfl, rfl, rfl⟩ | ⟨rfl, rfl, rfl, rfl⟩ | ⟨rfl, rfl, rfl, rfl⟩ | ⟨rfl, rfl, rfl, rfl⟩ |
    ⟨rfl, rfl, rfl, rfl⟩ | ⟨rfl, rfl, rfl, rfl⟩ | ⟨rfl, rfl, rfl, rfl⟩ | ⟨rfl, rfl, rfl, rfl⟩ | ⟨rfl, rfl, rfl, rfl⟩ |
    ⟨rfl, rfl, rfl, rfl⟩ | ⟨rfl, rfl, rfl, rfl⟩ | ⟨rfl, rfl, rfl, rfl⟩ | ⟨rfl, rfl, rfl, rfl⟩ | ⟨rfl, rfl, rfl, rfl⟩ |
    ⟨rfl, rfl, rfl, rfl⟩ | ⟨rfl, rfl, rfl, rfl⟩ | ⟨rfl, rfl, rfl, rfl⟩ | ⟨rfl, rfl, rfl, rfl⟩ | ⟨rfl, rfl, rfl, rfl⟩ |
    ⟨rfl, rfl, rfl, rfl⟩
  all_goals exact exec_eq_registerWrite hfree rfl rfl rfl

end Sys2Proof
end

section
/-! SUPPORT. TileRecords: a state in which an NMS of an extent of 0 issues and still writes its kept list. -/

namespace Sys2Proof.Machine

/-- The DISPATCH 1 of context 1, running on die 0. -/
def tileDisp : Disp :=
  { seq := 1, ctx := 1, ring := 4, slot := 0, fetchNo := 0, handle := 0, entry := 0, variant := 0, dies := [0]
    sections := [], ndim := 0, dims := [], args := [], deadline := none, budget := none, cost := 0, mhz := 1400, watchdogMs := 0
    role := 0, group := 0, st := .running }

/-- An NMS record that stands first on its core: extents of 0, ZFILL clear, and every operand index 0. -/
def emptyNms : Placed :=
  { seq := 1, ctx := 1, stream := 0, idx := 0, raw := BitVec.ofNat 256 opNMS, opdBase := 0, pos := 0, st := .placed }

/-- A powered module whose core 0 of die 0 runs `emptyNms`, and whose scratchpad there begins with the byte 1: the
candidate count that the record reads is 1, and its limit is 0. -/
def emptyNmsState : State :=
  let s := { State.reset with
    boot := { powered := true, stage := 10, linkUp := true, cfgReady := true, modPwrgd := true }
    dies := (List.range 8).map (fun d => (d, { railOn := true }))
    disps := [tileDisp] }
  ((s.setFn (.core 0 0) { st := .on, en := true }).modCore 0 0 (fun k =>
    { k with role := .inService, logical := some 0, queue := [emptyNms] })).devWrite (coreBase 0 0) [1]

/-- `emptyNms` in its environment. -/
def emptyNmsEnv : Env := { d := 0, p := 0, x := emptyNms, y := tileDisp }

theorem issues_emptyNms : Issues emptyNmsState 0 0 opNMS anyRec emptyNmsEnv := by
  unfold Issues
  decide +kernel

/-- R110 gives an empty record without ZFILL no effect; the model's NMS writes its count of kept candidates all the
same. -/
theorem nmsEffect_emptyNms : ((effClear nmsEffect emptyNmsEnv (emptyNmsState.markIssued emptyNmsEnv)).devRead
      (coreBase 0 0) 1 == (effClear (fun _ u => u) emptyNmsEnv (emptyNmsState.markIssued emptyNmsEnv)).devRead
      (coreBase 0 0) 1) = false := by decide +kernel

end Sys2Proof.Machine
end

section
/-! PROOFS. TileRecords. -/

namespace Sys2Proof

open Machine

/-- Refutes O40: an empty NMS record without ZFILL is given its effect like any other, and writes the number of its kept
candidates. -/
theorem not_tileRecords : ¬ Obligations.TileRecords := by
  unfold Obligations.TileRecords
  intro h
  obtain ⟨hclean, -, -⟩ := h emptyNmsState 0 0 {} (.nms 0 0 {}) opNMS anyRec nmsEffect emptyNmsEnv (by simp)
    issues_emptyNms
  obtain ⟨t, -, ht, -, -, -, hempty⟩ := hclean rfl
  have hsame := ht.symm.trans (hempty (by decide +kernel) (by decide +kernel))
  simpa [hsame] using nmsEffect_emptyNms

end Sys2Proof
end

section
/-! SUPPORT. One record of a core: how issuing and completing change its core, when it is gone, and what the semaphores of
a context read after one is set. -/

namespace Sys2Proof.Machine

/-! ### A placed record -/

@[simp] theorem State.modPlaced_now (s : State) (d : Die) (p : PCore) (pos : Nat) (f : Placed → Placed) :
    (s.modPlaced d p pos f).now = s.now := rfl

@[simp] theorem State.modPlaced_dies (s : State) (d : Die) (p : PCore) (pos : Nat) (f : Placed → Placed) :
    (s.modPlaced d p pos f).dies = s.dies := rfl

@[simp] theorem State.modPlaced_reports (s : State) (d : Die) (p : PCore) (pos : Nat) (f : Placed → Placed) :
    (s.modPlaced d p pos f).reports = s.reports := rfl

theorem State.modPlaced_core (s : State) (d : Die) (p : PCore) (pos : Nat) (f : Placed → Placed) :
    (s.modPlaced d p pos f).core d p =
      { s.core d p with queue := updIf (s.core d p).queue (fun x => x.pos == pos) f } := by
  unfold State.modPlaced
  exact State.modCore_self s d p _

theorem State.modPlaced_other (s : State) {d e : Die} {p q : PCore} (pos : Nat) (f : Placed → Placed)
    (h : (e, q) ≠ (d, p)) : (s.modPlaced d p pos f).core e q = s.core e q :=
  State.modCore_other s _ h

/-- The record at a place that was changed is the change of one that stood there. -/
theorem State.modPlaced_at {s : State} {d : Die} {p : PCore} {pos : Nat} {f : Placed → Placed}
    {x : Placed} (hx : x ∈ ((s.modPlaced d p pos f).core d p).queue) (hpos : x.pos = pos) :
    ∃ z ∈ (s.core d p).queue, z.pos = pos ∧ x = f z := by
  rw [State.modPlaced_core] at hx
  obtain ⟨z, hz, rfl⟩ := List.mem_map.1 hx
  by_cases hat : (z.pos == pos) = true
  · exact ⟨z, hz, by simpa using hat, by simp [hat]⟩
  · simp only [hat, Bool.false_eq_true, if_false] at hpos
    exact absurd (beq_iff_eq.2 hpos) hat

theorem State.markIssued_core (s : State) (e : Env) : (s.markIssued e).core e.d e.p =
    { s.core e.d e.p with
      queue := updIf (s.core e.d e.p).queue (fun x => x.pos == e.x.pos)
        (fun x => { x with st := .issued, issuedAt := s.now }) } := by
  unfold State.markIssued
  rw [State.core_congr (State.traceRec_cores ..), State.modPlaced_core]

theorem State.markIssued_other (s : State) (e : Env) {d : Die} {p : PCore} (h : (d, p) ≠ (e.d, e.p)) :
    (s.markIssued e).core d p = s.core d p := by
  unfold State.markIssued
  rw [State.core_congr (State.traceRec_cores ..), State.modPlaced_other _ _ _ h]

theorem State.markDone_core (s : State) (e : Env) : (s.markDone e).core e.d e.p =
    { s.core e.d e.p with queue := (s.core e.d e.p).queue.filter (fun x => x.pos != e.x.pos) } := by
  unfold State.markDone
  rw [State.core_congr (State.traceRec_cores ..), State.modCore_self]

theorem State.markDone_other (s : State) (e : Env) {d : Die} {p : PCore} (h : (d, p) ≠ (e.d, e.p)) :
    (s.markDone e).core d p = s.core d p := by
  unfold State.markDone
  rw [State.core_congr (State.traceRec_cores ..), State.modCore_other _ _ h]

theorem State.markIssued_within (s : State) (e : Env) :
    Within [.cores, .trcSeq, .trcDrop, .trcTok, .mem, .bad, .regs, .acct, .free] s (s.markIssued e) :=
  (State.markIssued_keeps rfl (Keeps.refl _ s)).rest

theorem State.markDone_within (s : State) (e : Env) :
    Within [.cores, .trcSeq, .trcDrop, .trcTok, .mem, .bad, .regs, .acct, .free] s (s.markDone e) :=
  (State.markDone_keeps rfl (Keeps.refl _ s)).rest

theorem stands_congr {e : Env} {s t : State} (h : Stands e s) (hc : t.cores = s.cores) (hn : t.now = s.now) :
    Stands e t := by
  unfold Stands at h ⊢
  rwa [State.core_congr hc, hn]

theorem stands_modPlaced_issued (s : State) (e : Env) :
    Stands e (s.modPlaced e.d e.p e.x.pos (fun x => { x with st := .issued, issuedAt := s.now })) := by
  intro x hx hpos
  obtain ⟨z, -, -, rfl⟩ := State.modPlaced_at hx hpos
  exact ⟨rfl, rfl⟩

/-- A record that issues stands as issued now. -/
theorem stands_markIssued (s : State) (e : Env) : Stands e (s.markIssued e) :=
  stands_congr (stands_modPlaced_issued s e) (State.traceRec_cores ..) (State.traceRec_now ..)

/-- A record that completes is gone. -/
theorem gone_markDone (s : State) (e : Env) : Gone e (s.markDone e) := by
  intro x hx hpos
  rw [State.markDone_core] at hx
  simp [hpos] at hx

theorem gone_congr {e : Env} {s t : State} (h : Gone e s) (hc : t.cores = s.cores) : Gone e t := by
  unfold Gone at h ⊢
  rwa [State.core_congr hc]

/-- A record that is gone stays gone when another completes. -/
theorem gone_markDone_of_gone {e : Env} {s : State} (h : Gone e s) (f : Env) : Gone e (s.markDone f) := by
  intro x hx
  by_cases hp : (e.d, e.p) = (f.d, f.p)
  · obtain ⟨hd, hp⟩ := Prod.mk.inj hp
    rw [hd, hp, State.markDone_core] at hx
    exact h x (by rw [hd, hp]; exact (List.mem_filter.1 hx).1)
  · rw [State.markDone_other s f hp] at hx
    exact h x hx

/-! ### Semaphores -/

theorem State.sem_congr {s t : State} (h : t.ctxs = s.ctxs) (n : CtxId) (f i : Nat) : t.sem n f i = s.sem n f i := by
  unfold State.sem
  rw [State.ctx_congr h]

theorem State.sem_setSem_self (s : State) (n : CtxId) (f i v : Nat) : (s.setSem n f i v).sem n f i = v := by
  unfold State.sem State.setSem
  rw [State.modCtx_self]
  exact SMap.getD_set_self _ _ _ _

theorem State.sem_setSem_other (s : State) {n m : CtxId} {f i g j : Nat} (v : Nat)
    (h : ¬ (m = n ∧ 256 * g + j = 256 * f + i)) : (s.setSem n f i v).sem m g j = s.sem m g j := by
  unfold State.sem State.setSem
  by_cases hm : m = n
  · subst hm
    rw [State.modCtx_self]
    exact SMap.getD_set_other _ _ _ _ (fun hk => h ⟨rfl, hk⟩)
  · rw [State.modCtx_other _ _ hm]

/-- An addition that fits sets the semaphore. -/
theorem State.semAdd_fits {s : State} {n : CtxId} {f i v : Nat} (h : s.sem n f i + v < 2 ^ 32) :
    s.semAdd n f i v = (s.setSem n f i (s.sem n f i + v), true) := by
  unfold State.semAdd
  exact if_neg (Nat.not_le.2 h)

/-- An addition past 2^32 − 1 is a job fault. -/
theorem State.semAdd_overflows {s : State} {n : CtxId} {f i v : Nat} (h : 2 ^ 32 ≤ s.sem n f i + v) :
    s.semAdd n f i v = (s.raise causeSem f [n] 0, false) := by
  unfold State.semAdd
  exact if_pos h

/-- A fault of a unit on a die is reported with that die. -/
theorem State.raise_die (s : State) (c : Byte) {d : Nat} (h : d < 8) (l : List CtxId) (a : Nat) : s.raise c d l a =
    { s with reports := s.reports ++ [{ cause := c, die := d, ctxs := l, addr := a % 2 ^ 48 }] } := by
  unfold State.raise hubDie
  have hd : d ≠ 0xFF := by omega
  simp [hd]

end Sys2Proof.Machine
end

section
/-! SUPPORT. SyncRecords: BAR, WAIT, SIGNAL, the watchdog and RECORD_COMPLETE. -/

namespace Sys2Proof.Machine

theorem bits_ten_eight_lt (v : Nat) : bits v 10 8 < 8 := by
  simp only [bits]
  exact Nat.mod_lt _ (by decide)

/-! ### BAR -/

theorem barIssue_within (e : Env) (s : State) :
    Within [.ctxs, .cores, .trcSeq, .trcDrop, .trcTok, .mem, .bad, .regs, .acct, .free] s (barIssue e s) :=
  (barIssue_keeps rfl (Keeps.refl _ s)).rest

theorem barIssue_cores (e : Env) (s : State) : (barIssue e s).cores = (s.markIssued e).cores := rfl

theorem State.ctx_markIssued (s : State) (e : Env) (n : CtxId) : (s.markIssued e).ctx n = s.ctx n :=
  State.ctx_congr ((s.markIssued_within e).ctxs rfl) n

/-- A BAR that joins a generation stands in it. -/
theorem barIssue_joins {e : Env} {s : State} (h : (s.ctx e.x.ctx).bars.any (genOf e) = true) :
    ((barIssue e s).ctx e.x.ctx).bars = updIf (s.ctx e.x.ctx).bars (genOf e)
      (fun g => { g with issued := g.issued ++ [(e.d.val, e.x.stream)] }) := by
  unfold barIssue
  rw [State.modCtx_self, State.ctx_markIssued, if_pos h]

/-- A BAR whose generation no one has joined opens it. -/
theorem barIssue_opens {e : Env} {s : State} (h : (s.ctx e.x.ctx).bars.any (genOf e) = false) :
    ((barIssue e s).ctx e.x.ctx).bars = (s.ctx e.x.ctx).bars ++
      [{ id := syncId e.r % 64, seq := e.x.seq, die := if barScope e.r = 0 then some e.d else none, gen := e.x.gen
         issued := [(e.d.val, e.x.stream)], count := barCount e.r }] := by
  unfold barIssue
  rw [State.modCtx_self, State.ctx_markIssued, if_neg (by simp [h])]

theorem barIssue_stands_in_generation (e : Env) (s : State) :
    ∃ g ∈ ((barIssue e s).ctx e.x.ctx).bars, genOf e g = true ∧ (e.d.val, e.x.stream) ∈ g.issued := by
  cases hany : (s.ctx e.x.ctx).bars.any (genOf e) with
  | true =>
    obtain ⟨g, hg, hgen⟩ := List.any_eq_true.1 hany
    rw [barIssue_joins hany]
    exact ⟨{ g with issued := g.issued ++ [(e.d.val, e.x.stream)] }, List.mem_map.2 ⟨g, hg, by simp [hgen]⟩, hgen,
      List.mem_append_right _ (List.mem_singleton.2 rfl)⟩
  | false =>
    rw [barIssue_opens hany]
    exact ⟨_, List.mem_append_right _ (List.mem_singleton.2 rfl), by simp [genOf], List.mem_singleton.2 rfl⟩

theorem barIssue_ctx_other {e : Env} {s : State} {m : CtxId} (h : m ≠ e.x.ctx) : (barIssue e s).ctx m = s.ctx m := by
  unfold barIssue
  rw [State.modCtx_other _ _ h, State.ctx_markIssued]

/-! ### The completion of a generation -/

/-- Cores whose queues have only lost records, by their places. -/
structure Shrunk (s u : State) : Prop where
  core : ∀ d p, ∃ keep : Nat → Bool,
    u.core d p = { s.core d p with queue := (s.core d p).queue.filter (fun x => keep x.pos) }
  disps : u.disps = s.disps

theorem Shrunk.refl (s : State) : Shrunk s s := ⟨fun _ _ => ⟨fun _ => true, by simp⟩, rfl⟩

theorem Shrunk.markDone {s u : State} (h : Shrunk s u) (e : Env) : Shrunk s (u.markDone e) := by
  refine ⟨fun d p => ?_, ((u.markDone_within e).disps rfl).trans h.disps⟩
  obtain ⟨keep, hk⟩ := h.core d p
  by_cases hp : (d, p) = (e.d, e.p)
  · obtain ⟨rfl, rfl⟩ := Prod.mk.inj hp
    refine ⟨fun q => q != e.x.pos && keep q, ?_⟩
    rw [State.markDone_core, hk, List.filter_filter]
  · exact ⟨keep, by rw [State.markDone_other u e hp, hk]⟩

theorem Shrunk.phys {s u : State} (h : Shrunk s u) (d : Die) (c : LCore) : u.phys d c = s.phys d c := by
  unfold State.phys
  congr 1
  funext p
  obtain ⟨keep, hk⟩ := h.core d p
  rw [hk]

theorem Shrunk.envOf {s u : State} (h : Shrunk s u) (d : Die) (p : PCore) (x : Placed) :
    u.envOf d p x = s.envOf d p x := by
  unfold State.envOf State.disp
  rw [h.disps]

/-- What a filter by another test keeps is still the first of its kind. -/
theorem find?_filter_of_keep {α : Type} {l : List α} {p k : α → Bool} {x : α} (h : l.find? p = some x)
    (hx : k x = true) :
    (l.filter k).find? p = some x := by
  induction l with
  | nil => simp at h
  | cons a rest ih =>
    cases hp : p a with
    | true =>
      obtain rfl : a = x := by simpa [List.find?_cons, hp] using h
      simp [hx, hp]
    | false =>
      have hr : rest.find? p = some x := by simpa [List.find?_cons, hp] using h
      cases hk : k a with
      | true => simpa [hk, hp] using ih hr
      | false => simpa [hk] using ih hr

/-- The BAR of a participant: where it stands, its core, and the record. -/
theorem State.barRecord_eq_some {s : State} {g : BarGen} {m : Nat × Nat} {e : Env} (h : s.barRecord g m = some e) :
    ∃ hm : m.1 < 8, ∃ c p x, streamCore m.2 = some c ∧ s.phys ⟨m.1, hm⟩ c = some p ∧
      (s.core ⟨m.1, hm⟩ p).queue.find? (fun x => x.op == opBAR && decide (x.st = .issued) && x.seq == g.seq &&
        x.gen == g.gen && syncId x.raw.toNat % 64 == g.id) = some x ∧ s.envOf ⟨m.1, hm⟩ p x = some e := by
  unfold State.barRecord at h
  split at h
  case isTrue hm =>
    split at h
    · cases h
    case h_2 c hc =>
      split at h
      · cases h
      case h_2 p hp =>
        split at h
        · cases h
        case h_2 x hx => exact ⟨hm, c, p, x, hc, hp, hx, h⟩
  case isFalse => cases h

theorem State.envOf_eq_some {s : State} {d : Die} {p : PCore} {x : Placed} {e : Env} (h : s.envOf d p x = some e) :
    e.d = d ∧ e.p = p ∧ e.x = x := by
  unfold State.envOf at h
  obtain ⟨y, -, rfl⟩ := Option.map_eq_some_iff.1 h
  exact ⟨rfl, rfl, rfl⟩

/-- A participant's BAR is found again after others have left, unless it has left. -/
theorem Shrunk.barRecord {s u : State} (h : Shrunk s u) {g : BarGen} {m : Nat × Nat} {e : Env}
    (he : s.barRecord g m = some e) : Gone e u ∨ u.barRecord g m = some e := by
  obtain ⟨hm, c, p, x, hc, hp, hx, hv⟩ := State.barRecord_eq_some he
  obtain ⟨hd, rfl, rfl⟩ := State.envOf_eq_some hv
  obtain ⟨keep, hk⟩ := h.core e.d e.p
  cases hkeep : keep e.x.pos with
  | true =>
    right
    rw [hd] at hk
    have hfind := find?_filter_of_keep (k := fun z => keep z.pos) hx hkeep
    unfold State.barRecord
    simp only [dif_pos hm, hc, h.phys, hp, hk, hfind, h.envOf, hv]
  | false =>
    left
    intro z hz hpos
    rw [hk] at hz
    simpa [hpos, hkeep] using (List.mem_filter.1 hz).2

/-- One participant's BAR completes. -/
def completeBar (g : BarGen) (s : State) (m : Nat × Nat) : State :=
  match s.barRecord g m with
  | some e => s.markDone e
  | none => s

theorem completeBar_none {g : BarGen} {s : State} {m : Nat × Nat} (h : s.barRecord g m = none) :
    completeBar g s m = s := by
  unfold completeBar
  rw [h]

theorem completeBar_some {g : BarGen} {s : State} {m : Nat × Nat} {e : Env} (h : s.barRecord g m = some e) :
    completeBar g s m = s.markDone e := by
  unfold completeBar
  rw [h]

theorem completeBar_ctxs (g : BarGen) (s : State) (m : Nat × Nat) : (completeBar g s m).ctxs = s.ctxs := by
  cases h : s.barRecord g m with
  | none => rw [completeBar_none h]
  | some e => rw [completeBar_some h]; exact (s.markDone_within e).ctxs rfl

theorem Shrunk.completeBar {s u : State} (h : Shrunk s u) (g : BarGen) (m : Nat × Nat) : Shrunk s (completeBar g u m) := by
  cases hm : u.barRecord g m with
  | none => rwa [completeBar_none hm]
  | some e => rw [completeBar_some hm]; exact h.markDone e

theorem gone_completeBar_of_gone {e : Env} {s : State} (h : Gone e s) (g : BarGen) (m : Nat × Nat) :
    Gone e (completeBar g s m) := by
  cases hm : s.barRecord g m with
  | none => rwa [completeBar_none hm]
  | some f => rw [completeBar_some hm]; exact gone_markDone_of_gone h f

/-- The BARs of a generation leave, the generation goes, and each die that took part writes a trace record. -/
theorem barGenerationComplete_eq (n : CtxId) (g : BarGen) (s : State) : barGenerationComplete n g s =
    (dedupKeep (g.issued.map (fun m => m.1))).foldl (fun s d => s.traceRec d 0x20 0x05 n.val (traceData [g.id, g.gen]))
      ((g.issued.foldl (completeBar g) s).modCtx n (fun c => { c with bars := c.bars.erase g })) := rfl

theorem barGenerationComplete_ctxs (n : CtxId) (g : BarGen) (s : State) : (barGenerationComplete n g s).ctxs =
    (s.modCtx n (fun c => { c with bars := c.bars.erase g })).ctxs := by
  have hleft : (g.issued.foldl (completeBar g) s).ctxs = s.ctxs := foldl_same State.ctxs _ _ _ (completeBar_ctxs g)
  rw [barGenerationComplete_eq, foldl_same State.ctxs _ _ _ (fun t d => State.traceRec_ctxs ..)]
  unfold State.modCtx
  rw [State.ctx_congr hleft]
  simp only [hleft]

/-- Every participant's BAR is gone: each is found when its turn comes, or has left with another at its place. -/
theorem barGenerationComplete_gone (n : CtxId) {g : BarGen} {s : State} {m : Nat × Nat} (hm : m ∈ g.issued) {e : Env}
    (he : s.barRecord g m = some e) : Gone e (barGenerationComplete n g s) := by
  have hleft : Gone e (g.issued.foldl (completeBar g) s) := by
    refine foldl_hits' (Shrunk s) (Gone e) _ _ m s hm (Shrunk.refl s) (fun u b hu => hu.completeBar g b) (fun u hu => ?_)
      (fun u b hu => gone_completeBar_of_gone hu g b)
    rcases hu.barRecord he with hgone | hfound
    · exact gone_completeBar_of_gone hgone g m
    · rw [completeBar_some hfound]; exact gone_markDone u e
  rw [barGenerationComplete_eq]
  exact gone_congr hleft (foldl_same State.cores _ _ _ (fun t d => State.traceRec_cores ..))

/-! ### WAIT and SIGNAL -/

theorem State.sem_markIssued (s : State) (e : Env) (n : CtxId) (f i : Nat) : (s.markIssued e).sem n f i = s.sem n f i :=
  State.sem_congr ((s.markIssued_within e).ctxs rfl) n f i

theorem State.sem_markDone (s : State) (e : Env) (n : CtxId) (f i : Nat) : (s.markDone e).sem n f i = s.sem n f i :=
  State.sem_congr ((s.markDone_within e).ctxs rfl) n f i

/-- A satisfied WAIT changes the contexts as the semaphore it sets does. -/
theorem waitSatisfied_ctxs (e : Env) (q : Nat) (s : State) : (waitSatisfied e q s).ctxs =
    (s.setSem e.x.ctx (bits (syncId e.r) 10 8) (bits (syncId e.r) 7 0)
      (s.semNamed e - if waitConsume e.r then syncValue e.r else 0)).ctxs := by
  unfold waitSatisfied
  rw [State.traceRec_ctxs, (State.markDone_within _ e).ctxs rfl]

theorem gone_waitSatisfied (e : Env) (q : Nat) (s : State) : Gone e (waitSatisfied e q s) := by
  unfold waitSatisfied
  exact gone_congr (gone_markDone _ e) (State.traceRec_cores ..)

theorem signalIssue_fits {e : Env} {s : State}
    (h : s.sem e.x.ctx (bits (syncId e.r) 10 8) (bits (syncId e.r) 7 0) + syncValue e.r < 2 ^ 32) : signalIssue e s =
    ((s.markIssued e).setSem e.x.ctx (bits (syncId e.r) 10 8) (bits (syncId e.r) 7 0)
      (s.sem e.x.ctx (bits (syncId e.r) 10 8) (bits (syncId e.r) 7 0) + syncValue e.r)).markDone e := by
  unfold signalIssue
  dsimp only
  rw [State.semAdd_fits (by rwa [State.sem_markIssued]), State.sem_markIssued]

theorem signalIssue_overflows {e : Env} {s : State}
    (h : 2 ^ 32 ≤ s.sem e.x.ctx (bits (syncId e.r) 10 8) (bits (syncId e.r) 7 0) + syncValue e.r) : signalIssue e s =
    { s.markIssued e with reports := (s.markIssued e).reports ++
        [{ cause := causeSem, die := bits (syncId e.r) 10 8, ctxs := [e.x.ctx], addr := 0 }] } := by
  unfold signalIssue
  dsimp only
  rw [State.semAdd_overflows (by rwa [State.sem_markIssued])]
  exact State.raise_die _ _ (bits_ten_eight_lt _) _ _

/-! ### RECORD_COMPLETE -/

/-- A core whose clock is stopped keeps its records. -/
theorem execRecordComplete_stopped {s : State} {d : Die} {c : LCore} {p : PCore} (pos : Nat) (hp : s.phys d c = some p)
    (hclk : s.clockRuns d (islCore p) = false) : execRecordComplete d c pos s = .next s := by
  unfold execRecordComplete
  simp only [hp, hclk]
  split <;> simp

/-- An issued record whose data is done and that Teasel does not run leaves its core. -/
theorem execRecordComplete_done {s : State} {d : Die} {c : LCore} {p : PCore} {pos : Nat} {x : Placed} {e : Env}
    (hp : s.phys d c = some p) (hx : (s.core d p).queue.find? (fun z => z.pos == pos) = some x) (hst : x.st = .issued)
    (hdata : x.data = true) (hunit : x.unit ≠ .sync)
    (htea : (s.die d).teaRun.map (fun z => (z.stream, z.pos)) ≠ some (x.stream, x.pos)) (he : s.envOf d p x = some e)
    (hclk : s.clockRuns d (islCore p) = true) : execRecordComplete d c pos s = .next (s.markDone e) := by
  unfold execRecordComplete
  simp only [hp, hx]
  rw [if_pos ⟨hclk, hst, hdata, hunit, htea⟩]
  simp only [he]

end Sys2Proof.Machine
end

section
/-! PROOFS. SyncRecords. -/

namespace Sys2Proof

open Machine

theorem bar_issues {s : State} {d : Die} {c : LCore} {e : Env} (h : s.syncNext opBAR d c State.allBefore = some e) :
    exec (.bar d c) s = .next (barIssue e s) := by
  show execBar d c s = _
  unfold execBar
  rw [h]

theorem barGeneration_completes {s : State} {n : CtxId} {d : Die} {id : Fin 64} {g : BarGen}
    (h : s.barReady n d id.val = some g) :
    exec (.barGenerationComplete n d id) s = .next (barGenerationComplete n g s) := by
  show execBarGenerationComplete n d id s = _
  unfold execBarGenerationComplete
  rw [h]

theorem wait_issues {s : State} {d : Die} {c : LCore} {e : Env} (h : s.syncNext opWAIT d c State.allIssued = some e) :
    exec (.wait d c) s = .next (s.markIssued e) := by
  show execWait d c s = _
  unfold execWait
  rw [h]

theorem wait_satisfies {s : State} {d : Die} {c : LCore} {e : Env} {q : Nat} (h : s.waiting d c opWAIT = some e)
    (hg : s.semGrant d = some (c.val, q)) : exec (.waitSatisfied d c) s = .next (waitSatisfied e q s) := by
  show execWaitSatisfied d c s = _
  unfold execWaitSatisfied
  rw [h, hg]
  simp

theorem signal_issues {s : State} {d : Die} {c : LCore} {e : Env} (h : s.syncNext opSIGNAL d c State.signalMay = some e) :
    exec (.signal d c) s = .next (signalIssue e s) := by
  show execSignal d c s = _
  unfold execSignal
  rw [h]

/-- Settles O43: each sync record by what it does to its core and its context's semaphores and barriers; a generation's
completion by following its participants' queues, which only lose records. -/
theorem syncRecords : Obligations.SyncRecords := by
  unfold Obligations.SyncRecords
  refine ⟨?_, ?_, ?_, ?_, ?_, ?_, ?_⟩
  · intro s d c e h
    exact ⟨_, bar_issues h, stands_congr (stands_markIssued s e) rfl rfl, barIssue_stands_in_generation e s, barIssue_opens,
      fun m hm => barIssue_ctx_other hm, barIssue_within e s⟩
  · intro s n d id g h
    have hctx := barGenerationComplete_ctxs n g s
    refine ⟨_, barGeneration_completes h, ?_, fun m hm e he => barGenerationComplete_gone n hm he, fun m hm => ?_,
      (barGenerationComplete_keeps (ps := [.ctxs, .cores, .trcSeq, .trcDrop, .trcTok, .mem, .bad, .regs, .acct, .free]) rfl
        (Keeps.refl _ s)).rest⟩
    · rw [State.ctx_congr hctx, State.modCtx_self]
    · rw [State.ctx_congr hctx, State.modCtx_other _ _ hm]
  · intro s d c e h
    exact ⟨_, wait_issues h, rfl, stands_markIssued s e, (s.markIssued_within e).ctxs rfl⟩
  · intro s d c e q h hg
    have hctx := waitSatisfied_ctxs e q s
    refine ⟨_, wait_satisfies h hg, gone_waitSatisfied e q s, ?_, fun m g j hother => ?_,
      (waitSatisfied_keeps (ps := [.ctxs, .arb, .cores, .trcSeq, .trcDrop, .trcTok, .mem, .bad, .regs, .acct, .free]) rfl
        (Keeps.refl _ s)).rest⟩
    · rw [State.sem_congr hctx, State.sem_setSem_self, State.semNamed]
      split <;> simp
    · rw [State.sem_congr hctx, State.sem_setSem_other _ _ hother]
  · intro s d c e h
    refine ⟨fun hfits => ?_, fun hover => ?_⟩
    · refine ⟨_, signal_issues h, ?_⟩
      rw [signalIssue_fits hfits]
      refine ⟨gone_markDone _ e, ?_, fun m g j hother => ?_, ?_⟩
      · rw [State.sem_markDone, State.sem_setSem_self]
      · rw [State.sem_markDone, State.sem_setSem_other _ _ hother, State.sem_markIssued]
      · rw [(State.markDone_within _ e).reports rfl, State.setSem_reports, (s.markIssued_within e).reports rfl]
    · refine ⟨_, signal_issues h, ?_⟩
      rw [signalIssue_overflows hover]
      exact ⟨by rw [(s.markIssued_within e).reports rfl], (s.markIssued_within e).ctxs rfl⟩
  · intro s d c e h
    show execBarrierWatchdog d c s = _
    unfold execBarrierWatchdog
    rw [h]
    exact congrArg _ (State.raise_die s _ d.isLt _ _)
  · intro s d c pos p x e hp hx hst hdata hunit htea he
    obtain ⟨rfl, rfl, rfl⟩ := State.envOf_eq_some he
    refine ⟨execRecordComplete_stopped pos hp, fun hclk =>
      ⟨_, execRecordComplete_done hp hx hst hdata hunit htea he hclk, ?_, s.markDone_within e⟩⟩
    have hpos : e.x.pos = pos := by simpa using List.find?_some hx
    rw [State.markDone_core, hpos]

end Sys2Proof
end

section
/-! SUPPORT. What the effect of a record leaves alone: the records of its own core but for the destinations noted, what
the core is to replay, the operation that Teasel runs, and every register that counts no bytes of memory. -/

namespace Sys2Proof.Machine

/-- From `s` to `t` a core keeps its records, but for their noted destinations, and what it is to replay; every Teasel
keeps its operation, and only the counters of bytes change among the registers. -/
structure RecordFrame (d : Die) (p : PCore) (s t : State) : Prop where
  queue : ∀ z ∈ (t.core d p).queue, ∃ x ∈ (s.core d p).queue, ∃ w, z = { x with dests := w }
  replay : (t.core d p).replay = (s.core d p).replay
  replayRun : (t.core d p).replayRun = (s.core d p).replayRun
  teaRun : ∀ f, (t.die f).teaRun = (s.die f).teaRun
  reg : ∀ {q f i j}, Uncounted q f i j → t.reg q f i j = s.reg q f i j

namespace RecordFrame

variable {d : Die} {p : PCore} {s t u : State}

/-- A step whose cores, dies and registers stand. -/
theorem of_parts (hc : t.cores = s.cores) (hd : t.dies = s.dies) (hr : t.regs = s.regs) : RecordFrame d p s t where
  queue z hz := ⟨z, by rwa [State.core_congr hc] at hz, z.dests, rfl⟩
  replay := by rw [State.core_congr hc]
  replayRun := by rw [State.core_congr hc]
  teaRun f := by rw [State.die_congr hd]
  reg _ := State.reg_congr hr _ _ _ _

theorem refl (d : Die) (p : PCore) (s : State) : RecordFrame d p s s := of_parts rfl rfl rfl

theorem of_within {ps : List Part} (h : Within ps s t) (hc : ps.contains .cores = false) (hd : ps.contains .dies = false)
    (hr : ps.contains .regs = false) : RecordFrame d p s t := of_parts (h.cores hc) (h.dies hd) (h.regs hr)

theorem trans (h : RecordFrame d p s t) (k : RecordFrame d p t u) : RecordFrame d p s u where
  queue z hz := by
    obtain ⟨y, hy, w, rfl⟩ := k.queue z hz
    obtain ⟨x, hx, v, rfl⟩ := h.queue y hy
    exact ⟨x, hx, w, rfl⟩
  replay := k.replay.trans h.replay
  replayRun := k.replayRun.trans h.replayRun
  teaRun f := (k.teaRun f).trans (h.teaRun f)
  reg hq := (k.reg hq).trans (h.reg hq)

theorem ite {c : Prop} [Decidable c] (ht : RecordFrame d p s t) (hu : RecordFrame d p s u) :
    RecordFrame d p s (if c then t else u) := by split <;> assumption

theorem foldl {α : Type} (l : List α) (f : State → α → State) (s : State) (h : ∀ t a, RecordFrame d p t (f t a)) :
    RecordFrame d p s (l.foldl f s) :=
  fold_inv (RecordFrame d p s) l f s (refl d p s) (fun t a ht => ht.trans (h t a))

/-- A change of the core that keeps its records and its replay. -/
theorem modCore {f : Core → Core} (hq : (f (s.core d p)).queue = (s.core d p).queue)
    (hr : (f (s.core d p)).replay = (s.core d p).replay) (hn : (f (s.core d p)).replayRun = (s.core d p).replayRun) :
    RecordFrame d p s (s.modCore d p f) where
  queue z hz := ⟨z, by rwa [State.modCore_self, hq] at hz, z.dests, rfl⟩
  replay := by rw [State.modCore_self, hr]
  replayRun := by rw [State.modCore_self, hn]
  teaRun _ := rfl
  reg _ := rfl

/-- Noting the destinations of a record. -/
theorem noteDests (pos : Nat) (w : List (Nat × Nat)) :
    RecordFrame d p s (s.modPlaced d p pos (fun x => { x with dests := w })) where
  queue z hz := by
    rw [State.modPlaced_core] at hz
    obtain ⟨x, hx, rfl⟩ := List.mem_map.1 hz
    by_cases hpos : (x.pos == pos) = true
    · exact ⟨x, hx, w, by simp [hpos]⟩
    · exact ⟨x, hx, x.dests, by simp [hpos]⟩
  replay := by rw [State.modPlaced_core]
  replayRun := by rw [State.modPlaced_core]
  teaRun _ := rfl
  reg _ := rfl

theorem modCtr (f : Die) (g : Counters → Counters) : RecordFrame d p s (s.modCtr f g) where
  queue z hz := ⟨z, hz, z.dests, rfl⟩
  replay := rfl
  replayRun := rfl
  teaRun h := by
    unfold State.modCtr
    by_cases hf : h = f
    · subst hf; rw [State.modDie_self]
    · rw [State.modDie_other _ _ hf]
  reg _ := rfl

end RecordFrame

variable {e : Env}

/-! ### What records are made of -/

theorem noteFl_frame (d : Die) (p : PCore) (s : State) (q : Nat) (f : Fl) : RecordFrame d p s (s.noteFl q f) :=
  .of_within (State.noteFl_keeps (ps := [.disps]) rfl (Keeps.refl _ s)).rest rfl rfl rfl

theorem raise_frame (d : Die) (p : PCore) (s : State) (c : Byte) (n : Nat) (l : List CtxId) (a : Nat) :
    RecordFrame d p s (s.raise c n l a) := .of_parts rfl rfl rfl

theorem storeMat_frame (d : Die) (p : PCore) (s : State) (l : Loc) (codes scales : List (List Nat)) :
    RecordFrame d p s (s.storeMat l codes scales) :=
  .of_within (State.storeMat_keeps (ps := [.mem, .bad]) rfl (Keeps.refl _ s)).rest rfl rfl rfl

theorem putRow_frame (d : Die) (p : PCore) (s : State) (l : Loc) (i j : Nat) (w : List Nat) :
    RecordFrame d p s (s.putRow l i j w) :=
  .of_within (State.putRow_keeps (ps := [.mem]) rfl (Keeps.refl _ s)).rest rfl rfl rfl

theorem putRows_frame (d : Die) (p : PCore) (s : State) (l : Loc) (i : Nat) (w : List (List Nat)) :
    RecordFrame d p s (s.putRows l i w) :=
  .of_within (State.putRows_keeps (ps := [.mem]) rfl (Keeps.refl _ s)).rest rfl rfl rfl

theorem putOut_frame (d : Die) (p : PCore) (s : State) (e : Env) (o : OutRes) : RecordFrame d p s (s.putOut e o) :=
  .of_within (State.putOut_keeps (ps := [.mem, .bad]) rfl (Keeps.refl _ s)).rest rfl rfl rfl

theorem putAtt_frame (d : Die) (p : PCore) (s : State) (e : Env) (l : List (AttRow × Nat)) :
    RecordFrame d p s (s.putAtt e l) :=
  .of_within (State.putAtt_keeps (ps := [.mem]) rfl (Keeps.refl _ s)).rest rfl rfl rfl

theorem moveMat_frame (d : Die) (p : PCore) (s : State) (src dst : Loc) (r c : Nat) :
    RecordFrame d p s (s.moveMat src dst r c) :=
  .of_within (State.moveMat_keeps (ps := [.mem, .bad]) rfl (Keeps.refl _ s)).rest rfl rfl rfl

theorem spoil_frame (d : Die) (p : PCore) (s : State) (a n : Nat) : RecordFrame d p s (s.spoil a n) :=
  .of_within (State.spoil_keeps (ps := [.free, .mem]) rfl (Keeps.refl _ s)).rest rfl rfl rfl

theorem countMove_frame (d : Die) (p : PCore) (s : State) (f : Die) (n : Nat) : RecordFrame d p s (s.countMove f n) :=
  .modCtr f _

theorem putSlotFlags_frame (d : Die) (p : PCore) (s : State) (keep : Bool) (l : List (Nat × Fl)) :
    RecordFrame d p s (s.putSlotFlags d p keep l).1 := by
  unfold State.putSlotFlags
  dsimp only
  exact .modCore rfl rfl rfl

theorem clearLines_frame (d : Die) (p : PCore) (s : State) (runs : List (Nat × Nat)) :
    RecordFrame d p s (s.clearLines d p runs) := by
  unfold State.clearLines
  exact .ite (.refl d p s) (.modCore rfl rfl rfl)

theorem countRuns_reg (s : State) (w : Bool) (runs : List (Nat × Nat)) {q : RegId} {d i j : Nat} (h : Uncounted q d i j) :
    (s.countRuns w runs).reg q d i j = s.reg q d i j :=
  foldl_same (fun t => t.reg q d i j) _ _ _ (fun t a => State.countBytes_reg t w a.1 a.2 h)

theorem countRuns_within (s : State) (w : Bool) (runs : List (Nat × Nat)) : Within [.acct, .regs] s (s.countRuns w runs) :=
  (State.countRuns_keeps rfl (Keeps.refl _ s)).rest

theorem chargeRuns_within (s : State) (n : CtxId) (src : Option Die) (runs : List (Nat × Nat)) :
    Within [.acct] s (s.chargeRuns n src runs) := (State.chargeRuns_keeps rfl (Keeps.refl _ s)).rest

theorem countRuns_frame (d : Die) (p : PCore) (s : State) (w : Bool) (runs : List (Nat × Nat)) :
    RecordFrame d p s (s.countRuns w runs) where
  queue z hz := ⟨z, by rwa [State.core_congr ((countRuns_within s w runs).cores rfl)] at hz, z.dests, rfl⟩
  replay := by rw [State.core_congr ((countRuns_within s w runs).cores rfl)]
  replayRun := by rw [State.core_congr ((countRuns_within s w runs).cores rfl)]
  teaRun f := by rw [State.die_congr ((countRuns_within s w runs).dies rfl)]
  reg hq := countRuns_reg s w runs hq

theorem useRuns_frame (d : Die) (p : PCore) (s : State) (e : Env) (w : Bool) (runs : List (Nat × Nat)) :
    RecordFrame d p s (s.useRuns e w runs) := by
  have hcount : RecordFrame d p s ((s.countRuns w runs).chargeRuns e.x.ctx (some e.d) runs) :=
    (countRuns_frame d p s w runs).trans (.of_within (chargeRuns_within _ e.x.ctx (some e.d) runs) rfl rfl rfl)
  unfold State.useRuns
  exact .ite hcount (hcount.trans (.modCtr e.d _))

/-- A guarded step leaves alone what the step inside it does. -/
theorem guarded_frame (reads writes : List (Nat × Nat)) {k : State → State}
    (hk : ∀ t, RecordFrame e.d e.p t (k t)) (s : State) : RecordFrame e.d e.p s (guarded e reads writes k s) := by
  unfold guarded
  split
  · exact raise_frame ..
  · split
    · exact raise_frame ..
    · exact ((((useRuns_frame _ _ s e false reads).trans (useRuns_frame _ _ _ e true writes)).trans (hk _)).trans
        (.foldl writes _ _ (fun t a => spoil_frame _ _ t a.1 a.2))).trans (.noteDests e.x.pos writes)

/-! ### The effects of records -/

theorem putResult_frame (e : Env) (s : State) (ix tc : Nat) (isInt : Bool) (outfmt shift : Nat) (cells : List (List Res)) :
    RecordFrame e.d e.p s (s.putResult e ix tc isInt outfmt shift cells) := by
  unfold State.putResult
  dsimp only
  exact .ite (((storeMat_frame _ _ s _ _ _).trans (putSlotFlags_frame ..)).trans (noteFl_frame ..))
    ((storeMat_frame _ _ s _ _ _).trans (noteFl_frame ..))

theorem putInZ_frame (e : Env) (s : State) (tc : Nat) (cells : List (List Res)) :
    RecordFrame e.d e.p s (s.putInZ e tc cells) := putResult_frame ..

theorem arrayEffect_frame (e : Env) (s : State) : RecordFrame e.d e.p s (arrayEffect e s) := by
  unfold arrayEffect
  refine .ite (guarded_frame _ _ (fun t => ?_) s) (.ite (noteFl_frame ..) (.refl _ _ s))
  exact (((putRows_frame _ _ t _ _ _).trans (putSlotFlags_frame ..)).trans (putOut_frame ..)).trans (noteFl_frame ..)

theorem tconvEffect_frame (e : Env) (s : State) : RecordFrame e.d e.p s (tconvEffect e s) := by
  unfold tconvEffect
  refine .ite ?_ (.refl _ _ s)
  split
  · exact raise_frame ..
  · exact guarded_frame _ _ (fun t => (putOut_frame _ _ t e _).trans (noteFl_frame ..)) s

theorem attbEffect_frame (e : Env) (s : State) : RecordFrame e.d e.p s (attbEffect e s) := by
  unfold attbEffect
  exact .ite (.refl _ _ s) (guarded_frame _ _ (fun t =>
    ((putAtt_frame _ _ t e _).trans (putSlotFlags_frame ..)).trans (noteFl_frame ..)) s)

theorem attmEffect_frame (e : Env) (s : State) : RecordFrame e.d e.p s (attmEffect e s) := by
  unfold attmEffect
  refine .ite (.refl _ _ s) (guarded_frame _ _ (fun t => ?_) s)
  dsimp only
  generalize tab (e.v 0) _ = outs
  have hrows := RecordFrame.ite (c := named e.r 8 = true)
    (putAtt_frame e.d e.p t e ((outs.map (fun x => x.row)).zipIdx)) (.refl _ _ t)
  have hflags := hrows.trans (putSlotFlags_frame _ _ _ true (attSlotFl e.r outs))
  exact .ite (((hflags.trans (noteFl_frame ..)).trans (storeMat_frame ..)).trans (noteFl_frame ..))
    (hflags.trans (noteFl_frame ..))

theorem vecEffect_frame (e : Env) (s : State) : RecordFrame e.d e.p s (vecEffect e s) := by
  unfold vecEffect
  exact .ite (.refl _ _ s) (putResult_frame ..)

theorem normEffect_frame (e : Env) (s : State) : RecordFrame e.d e.p s (normEffect e s) := by
  unfold normEffect
  exact .ite (.refl _ _ s) (putResult_frame ..)

theorem redEffect_frame (e : Env) (s : State) : RecordFrame e.d e.p s (redEffect e s) := by
  unfold redEffect
  exact .ite (.refl _ _ s) (.ite (putResult_frame ..) (putResult_frame ..))

theorem poolEffect_frame (e : Env) (s : State) : RecordFrame e.d e.p s (poolEffect e s) := by
  unfold poolEffect
  exact .ite (.refl _ _ s) (putResult_frame ..)

theorem sortEffect_frame (e : Env) (s : State) : RecordFrame e.d e.p s (sortEffect e s) := by
  unfold sortEffect
  exact .ite (.refl _ _ s) ((putResult_frame e s ..).trans (noteFl_frame ..))

theorem nmsEffect_frame (e : Env) (s : State) : RecordFrame e.d e.p s (nmsEffect e s) :=
  .of_within (nmsEffect_keeps (ps := [.reports, .disps, .mem]) rfl (Keeps.refl _ s)).rest rfl rfl rfl

theorem boxdEffect_frame (e : Env) (s : State) : RecordFrame e.d e.p s (boxdEffect e s) := by
  unfold boxdEffect
  exact .ite (.refl _ _ s) (putResult_frame ..)

theorem quantEffect_frame (e : Env) (s : State) : RecordFrame e.d e.p s (quantEffect e s) := by
  unfold quantEffect
  exact .ite (.refl _ _ s) (putResult_frame ..)

theorem scanEffect_frame (e : Env) (s : State) : RecordFrame e.d e.p s (scanEffect e s) :=
  .of_within (scanEffect_keeps (ps := [.mem, .disps]) rfl (Keeps.refl _ s)).rest rfl rfl rfl

theorem dqscEffect_frame (e : Env) (s : State) : RecordFrame e.d e.p s (dqscEffect e s) := by
  unfold dqscEffect
  exact .ite (.refl _ _ s) (putResult_frame ..)

theorem gnrmPartialEffect_frame (e : Env) (s : State) : RecordFrame e.d e.p s (gnrmPartialEffect e s) :=
  .of_within (gnrmPartialEffect_keeps (ps := [.mem]) rfl (Keeps.refl _ s)).rest rfl rfl rfl

theorem gnrmFinishEffect_frame (e : Env) (s : State) : RecordFrame e.d e.p s (gnrmFinishEffect e s) := by
  unfold gnrmFinishEffect
  dsimp only
  exact .ite (.refl _ _ s) ((RecordFrame.ite ((putRow_frame _ _ s ..).trans (putSlotFlags_frame ..))
    (putRow_frame _ _ s ..)).trans (noteFl_frame ..))

theorem gnrmClipEffect_frame (e : Env) (s : State) : RecordFrame e.d e.p s (gnrmClipEffect e s) := by
  unfold gnrmClipEffect
  exact .ite (.refl _ _ s) (putInZ_frame ..)

theorem rngmApplyEffect_frame (e : Env) (s : State) : RecordFrame e.d e.p s (rngmApplyEffect e s) := by
  unfold rngmApplyEffect
  exact .ite (.refl _ _ s) (putInZ_frame ..)

theorem rngmRawEffect_frame (e : Env) (s : State) : RecordFrame e.d e.p s (rngmRawEffect e s) := by
  unfold rngmRawEffect
  exact .ite (.refl _ _ s) (putResult_frame ..)

theorem storeEffect_frame (e : Env) (s : State) : RecordFrame e.d e.p s (storeEffect e s) := by
  unfold storeEffect
  exact .ite (.refl _ _ s) (.ite
    (guarded_frame _ _ (fun t => ((storeMat_frame _ _ t _ _ _).trans (noteFl_frame ..)).trans (countMove_frame ..)) s)
    (guarded_frame _ _ (fun t => (moveMat_frame _ _ t _ _ _ _).trans (countMove_frame ..)) s))

/-- The effect of any record that is checked leaves alone what `RecordFrame` says. -/
theorem effectOf_frame (e : Env) (s : State) : RecordFrame e.d e.p s (effectOf e s) := by
  unfold effectOf
  exact .ite (attbEffect_frame e s) <| .ite (attmEffect_frame e s) <| .ite (tconvEffect_frame e s) <|
    .ite (arrayEffect_frame e s) <| .ite (vecEffect_frame e s) <| .ite (normEffect_frame e s) <|
    .ite (.ite (redEffect_frame e s) (poolEffect_frame e s)) <| .ite (sortEffect_frame e s) <|
    .ite (nmsEffect_frame e s) <| .ite (boxdEffect_frame e s) <|
    .ite (.ite (quantEffect_frame e s) (scanEffect_frame e s)) <| .ite (dqscEffect_frame e s) <|
    .ite (.ite (gnrmPartialEffect_frame e s) (.ite (gnrmFinishEffect_frame e s) (gnrmClipEffect_frame e s))) <|
    .ite (.ite (rngmApplyEffect_frame e s) (rngmRawEffect_frame e s)) <|
    .ite (storeEffect_frame e s) (.refl _ _ s)

theorem effClear_frame {eff : Env → State → State} (e : Env) (s : State) (h : RecordFrame e.d e.p s (eff e s)) :
    RecordFrame e.d e.p s (effClear eff e s) := by
  unfold effClear
  exact .ite (h.trans (clearLines_frame ..)) h

/-- A record that stands as issued still does after such a step. -/
theorem RecordFrame.stands {s t : State} (h : RecordFrame e.d e.p s t) (hnow : t.now = s.now) (hs : Stands e s) :
    Stands e t := by
  intro z hz hpos
  obtain ⟨x, hx, w, rfl⟩ := h.queue z hz
  rw [hnow]
  exact hs x hx hpos

end Sys2Proof.Machine
end

section
/-! SUPPORT. What reads of memory rest on: the bytes, their errors, and what a context may access. Steps that leave these
alone leave every operand, fault and walk as it is. -/

namespace Sys2Proof.Machine

/-- From `s` to `t` device memory, its errors and what each context may access stand. -/
structure SameReads (s t : State) : Prop where
  mem : t.mem = s.mem
  scrambled : t.scrambled = s.scrambled
  bad : t.bad = s.bad
  regionMap : t.regionMap = s.regionMap
  range : ∀ (n : CtxId) j, j < 4 → t.reg .hifCtxRange 0 n.val j = s.reg .hifCtxRange 0 n.val j
  cfg : ∀ n : CtxId, t.reg .hifCtxCfg 0 n.val 0 = s.reg .hifCtxCfg 0 n.val 0

theorem uncounted_hifCtxRange (n : CtxId) {j : Nat} (hj : j < 4) : Uncounted .hifCtxRange 0 n.val j := by
  intro e k
  have hn := n.isLt
  simp only [RegId.off, RegId.row]
  simp
  omega

theorem uncounted_hifCtxCfg (n : CtxId) : Uncounted .hifCtxCfg 0 n.val 0 := by
  intro e k
  have hn := n.isLt
  simp only [RegId.off, RegId.row]
  simp
  omega

namespace SameReads

variable {s t u : State}

/-- A step that changes other parts and counts bytes. -/
theorem of_within {ps : List Part} (h : Within ps s t) (hm : ps.contains .mem = false) (hsc : ps.contains .scrambled = false)
    (hb : ps.contains .bad = false) (hr : ps.contains .regionMap = false)
    (hreg : ∀ {q f i j}, Uncounted q f i j → t.reg q f i j = s.reg q f i j) : SameReads s t where
  mem := h.mem hm
  scrambled := h.scrambled hsc
  bad := h.bad hb
  regionMap := h.regionMap hr
  range n _ hj := hreg (uncounted_hifCtxRange n hj)
  cfg n := hreg (uncounted_hifCtxCfg n)

theorem refl (s : State) : SameReads s s := ⟨rfl, rfl, rfl, rfl, fun _ _ _ => rfl, fun _ => rfl⟩

theorem trans (h : SameReads s t) (k : SameReads t u) : SameReads s u where
  mem := k.mem.trans h.mem
  scrambled := k.scrambled.trans h.scrambled
  bad := k.bad.trans h.bad
  regionMap := k.regionMap.trans h.regionMap
  range n j hj := (k.range n j hj).trans (h.range n j hj)
  cfg n := (k.cfg n).trans (h.cfg n)

/-- A count in a block of a die's registers. -/
theorem bump (s : State) {r : RegId} (hr : r.row.die = true) (d i k : Nat) : SameReads s (s.bump r d i k) where
  mem := rfl
  scrambled := rfl
  bad := rfl
  regionMap := rfl
  range n j hj := State.bump_other s _ (by
    have hn := n.isLt
    rw [off_die hr]
    simp only [RegId.off, RegId.row]
    simp
    omega)
  cfg n := State.bump_other s _ (by
    have hn := n.isLt
    rw [off_die hr]
    simp only [RegId.off, RegId.row]
    simp
    omega)

theorem devNat (h : SameReads s t) (a n : Nat) : t.devNat a n = s.devNat a n := by
  have hd : t.devDefault = s.devDefault := by
    funext b
    unfold State.devDefault
    rw [h.scrambled]
  unfold State.devNat State.devRead
  rw [h.mem, hd]

theorem opd (h : SameReads s t) (e : Env) (ix : Nat) : t.opd e ix = s.opd e ix := by
  unfold State.opd
  rw [h.devNat]

theorem jobMay (h : SameReads s t) (n : CtxId) (a len : Nat) : t.jobMay n a len = s.jobMay n a len :=
  jobMay_congr s t h.range h.cfg h.regionMap n a len

theorem readsFault (h : SameReads s t) (n : CtxId) (l : List (Nat × Nat)) : t.readsFault n l = s.readsFault n l := by
  have hfault : t.readFault n = s.readFault n := by
    funext a len
    exact readFault_congr s t h.jobMay h.bad n a len
  unfold State.readsFault
  rw [hfault]

theorem walkStep (h : SameReads s t) (n : CtxId) (level table ix : Nat) :
    t.walkStep n level table ix = s.walkStep n level table ix := by
  unfold State.walkStep State.badIn
  simp only [h.jobMay, h.devNat, h.bad]

theorem walk (h : SameReads s t) (n : CtxId) (root va : Nat) : t.walk n root va = s.walk n root va := by
  have hstep : t.walkStep n = s.walkStep n := by
    funext level table ix
    exact h.walkStep n level table ix
  unfold State.walk
  rw [hstep]

end SameReads

/-- No corrected errors named, none counted. -/
@[simp] theorem State.countCes_nil (s : State) (runs : List (Nat × Nat)) : s.countCes runs [] = s := rfl

/-- A wide counter goes up by what is counted. -/
theorem State.bump_self_wide (s : State) {r : RegId} (h : r.row.wide = true) (d i k : Nat) :
    (s.bump r d i k).reg r d i 0 = s.reg r d i 0 + BitVec.ofNat 64 k := by
  unfold State.bump
  rw [State.modReg_self, if_pos h]

end Sys2Proof.Machine
end

section
/-! SUPPORT. A record that issues without an error found, and Teasel. -/

namespace Sys2Proof.Machine

/-- With no new error named and none met, a record takes its effect. -/
theorem withEcc_clean {e : Env} {k : State → State} {s : State}
    (h : badMet (coreBase e.d.val e.p.val) (s.core e.d e.p).badLines (s.recReads e) = none) : withEcc e {} k s = k s := by
  have hbad : newBad (coreBase e.d.val e.p.val) [] (s.recReads e) = [] := rfl
  unfold withEcc
  simp only [State.countCes_nil, hbad, List.isEmpty_nil, if_true, h]

/-- A record that issues with nothing befalling it takes its effect. -/
theorem runIssued_clean {eff : Env → State → State} {e : Env} {s : State}
    (h : badMet (coreBase e.d.val e.p.val) (s.core e.d e.p).badLines (s.recReads e) = none) :
    runIssued eff e {} s = effClear eff e s := by
  unfold runIssued
  rw [withEcc_clean h]
  simp

theorem State.markIssued_badLines (s : State) (e : Env) :
    ((s.markIssued e).core e.d e.p).badLines = (s.core e.d e.p).badLines := by rw [State.markIssued_core]

/-- A candidate is a record of a core of the die. -/
theorem State.candidate_die {s : State} {d : Die} {c : LCore} {u : UnitK} {recv : Bool} {e : Env}
    (h : s.candidate d c u recv = some e) : e.d = d := by
  unfold State.candidate at h
  split at h
  · cases h
  · split at h
    · cases h
    · exact (State.envOf_eq_some h).1

/-! ### TCONV -/

/-- A TCONV is sent to an idle Teasel in service. -/
theorem tconv_sent {s : State} {d : Die} {c : LCore} {e : Env} (ev : RecEv) (h : s.candidate d c .teasel = some e)
    (hop : e.x.op = opTCONV) (hready : s.tconvReady e = true) (hout : (s.die d).teaselOut = false)
    (hon : s.fnIs (.teasel d) .on = true) (hclk : s.clockRuns d islTeasel = true) (hrun : (s.die d).teaRun = none) :
    tconv d c ev s = tconvOnTeasel e ev s := by
  unfold tconv
  simp [h, hop, hready, hout, hon, hclk, hrun]

/-- With Teasel out of service a TCONV issues on its core. -/
theorem tconv_onCore {s : State} {d : Die} {c : LCore} {e : Env} (ev : RecEv) (h : s.candidate d c .teasel = some e)
    (hop : e.x.op = opTCONV) (hready : s.tconvReady e = true) (hout : (s.die d).teaselOut = true)
    (hissue : s.coreIssues e = true) : tconv d c ev s = runIssued tconvEffect e ev (s.markIssued e) := by
  unfold tconv
  simp [h, hop, hready, hout, hissue]

/-- A TCONV marked as issued and running on Teasel. -/
def teaselStarts (e : Env) (s : State) : State :=
  ((s.modPlaced e.d e.p e.x.pos (fun x => { x with st := .issued, issuedAt := s.now })).traceRec
    e.d.val 0x23 0x03 e.x.ctx.val (traceData [e.x.stream, e.x.idx, e.x.op])).modDie e.d
      (fun x => { x with teaRun := some e.x })

theorem tconvOnTeasel_clean (e : Env) (s : State) : tconvOnTeasel e {} s = tconvEffect e (teaselStarts e s) := by
  unfold tconvOnTeasel
  simp only [State.countCes_nil, true_or, if_true]
  rfl

theorem teaRun_teaselStarts (e : Env) (s : State) : ((teaselStarts e s).die e.d).teaRun = some e.x := by
  unfold teaselStarts
  rw [State.modDie_self]

theorem stands_teaselStarts (e : Env) (s : State) : Stands e (teaselStarts e s) :=
  stands_congr (stands_modPlaced_issued s e) (State.traceRec_cores ..) (State.traceRec_now ..)

theorem tconvEffect_now (e : Env) (s : State) : (tconvEffect e s).now = s.now :=
  (tconvEffect_keeps (ps := [.reports, .free, .mem, .acct, .regs, .dies, .cores, .disps, .bad]) rfl (Keeps.refl _ s)).rest.now
    rfl

theorem effClear_tconvEffect_now (e : Env) (s : State) : (effClear tconvEffect e s).now = s.now :=
  (effClear_keeps (ps := [.reports, .free, .mem, .acct, .regs, .dies, .cores, .disps, .bad]) rfl
    (fun _ _ ht => tconvEffect_keeps rfl ht) (Keeps.refl _ s)).rest.now rfl

/-! ### TCONV_COMPLETE -/

theorem tconvComplete_teaRun (d : Die) (x : Placed) (s : State) : ((tconvComplete d x s).die d).teaRun = none := by
  unfold tconvComplete
  dsimp only
  split
  · rw [State.die_congr (State.modCore_dies ..), State.modDie_self]
  · rw [State.modDie_self]

/-- The record has left the core that held it. -/
theorem tconvComplete_leaves {d : Die} {x : Placed} {s : State} {p : PCore} (h : s.holderOf d x = some p) :
    ∀ z ∈ ((tconvComplete d x s).core d p).queue, ¬ (z.pos = x.pos ∧ z.stream = x.stream ∧ z.seq = x.seq) := by
  intro z hz
  have hsame : (s.modDie d (fun y => { y with teaRun := none })).holderOf d x = some p := h
  unfold tconvComplete at hz
  simp only [hsame, State.modCore_self, List.mem_filter] at hz
  rintro ⟨hpos, hstream, hseq⟩
  simp [hpos, hstream, hseq] at hz

theorem execTconvComplete_runs {s : State} {d : Die} {x : Placed} (h : (s.die d).teaRun = some x)
    (hclk : s.clockRuns d islTeasel = true) : execTconvComplete d s =
    .next ((tconvComplete d x s).traceRec d.val 0x23 0x04 x.ctx.val (traceData [x.stream, x.idx, x.op])) := by
  unfold execTconvComplete
  simp only [h, hclk, if_true]

end Sys2Proof.Machine
end

section
/-! SUPPORT. Vetch: staging fills and table walks. -/

namespace Sys2Proof.Machine

/-! ### Staging fills -/

/-- The pages that a fill needs. -/
def State.fillPages (s : State) (e : Env) : List Nat :=
  dedupKeep (pagesOf (s.opd e (rB e.r 10 2)) (e.v 1) ++ pagesOf (s.opd e (rB e.r 12 2)) (e.v 1))

/-- Those of them that Vetch holds. -/
def State.fillHits (s : State) (e : Env) : List Nat :=
  (s.fillPages e).filter (fun g => (s.tlbFind e.d e.x.ctx g).isSome)

/-- The pages that a fill asks for: those not held and not asked for yet, as many as there is room for. -/
def State.fillAsks (s : State) (e : Env) : List Nat :=
  (((s.fillPages e).filter (fun g => !(s.fillHits e).contains g)).filter
    (fun g => !(s.die e.d).walks.contains (e.x.ctx, g))).take (16 - (s.die e.d).walks.length)

/-- The hits of a fill's first look into the buffer are counted. -/
def countHits (e : Env) (s : State) : State :=
  if e.x.asked then s else s.bump .vetHits e.d.val 0 (s.fillHits e).length

/-- A fill asks for pages. -/
def askPages (e : Env) (s : State) : State :=
  (((countHits e s).bump .vetMisses e.d.val 0 (s.fillAsks e).length).modDie e.d (fun x =>
    { x with walks := x.walks ++ (s.fillAsks e).map (fun g => (e.x.ctx, g)) })).modPlaced e.d e.p e.x.pos
      (fun x => { x with asked := true })

/-- A fill in which Vetch finds no parity error. -/
theorem stagingFill_clean (e : Env) (s : State) : stagingFill e 0 [] s =
    if (s.fillPages e).all (fun g => (s.fillHits e).contains g) then stageFill e (askPages e s) else askPages e s := by
  unfold stagingFill
  simp only [List.take_zero, List.isEmpty_nil, if_true, List.contains_nil, Bool.not_false, List.filter_true,
    State.countCes_nil]
  rfl

theorem State.mem_fillHits {s : State} {e : Env} {g : Nat} (h : g ∈ s.fillPages e) :
    (s.fillHits e).contains g = (s.tlbFind e.d e.x.ctx g).isSome := by
  cases hf : (s.tlbFind e.d e.x.ctx g).isSome with
  | true => exact List.contains_iff_mem.2 (List.mem_filter.2 ⟨h, hf⟩)
  | false =>
    rw [Bool.eq_false_iff]
    intro hc
    have := (List.mem_filter.1 (List.contains_iff_mem.1 hc)).2
    rw [hf] at this
    cases this

/-- A fill whose pages are all held runs. -/
theorem stagingFill_runs {e : Env} {s : State} (h : ∀ g ∈ s.fillPages e, (s.tlbFind e.d e.x.ctx g).isSome = true) :
    stagingFill e 0 [] s = stageFill e (askPages e s) := by
  rw [stagingFill_clean, if_pos]
  exact List.all_eq_true.2 (fun g hg => by rw [State.mem_fillHits hg]; exact h g hg)

/-- A fill with a page missing asks for pages. -/
theorem stagingFill_waits {e : Env} {s : State} (h : ∃ g ∈ s.fillPages e, s.tlbFind e.d e.x.ctx g = none) :
    stagingFill e 0 [] s = askPages e s := by
  obtain ⟨g, hg, hnone⟩ := h
  rw [stagingFill_clean, if_neg]
  intro hall
  have := List.all_eq_true.1 hall g hg
  rw [State.mem_fillHits hg, hnone] at this
  cases this

theorem countHits_dies (e : Env) (s : State) : (countHits e s).dies = s.dies := by
  unfold countHits
  split <;> rfl

theorem countHits_reads (e : Env) (s : State) : SameReads s (countHits e s) := by
  unfold countHits
  split
  · exact .refl s
  · exact .bump s rfl _ _ _

theorem countHits_within (e : Env) (s : State) : Within [.regs] s (countHits e s) := by
  unfold countHits
  split <;> rfl

theorem askPages_die (e : Env) (s : State) : (askPages e s).die e.d =
    { s.die e.d with walks := (s.die e.d).walks ++ (s.fillAsks e).map (fun g => (e.x.ctx, g)) } := by
  unfold askPages
  rw [State.die_congr (State.modPlaced_dies ..), State.modDie_self, State.die_congr (State.bump_dies ..),
    State.die_congr (countHits_dies e s)]

theorem askPages_misses (e : Env) (s : State) : (askPages e s).reg .vetMisses e.d.val 0 0 =
    s.reg .vetMisses e.d.val 0 0 + BitVec.ofNat 64 (s.fillAsks e).length := by
  have hhits : (countHits e s).reg .vetMisses e.d.val 0 0 = s.reg .vetMisses e.d.val 0 0 := by
    unfold countHits
    split
    · rfl
    · exact State.bump_other s _ (by simp [RegId.off, RegId.row])
  show ((countHits e s).bump .vetMisses e.d.val 0 _).reg .vetMisses e.d.val 0 0 = _
  rw [State.bump_self_wide _ rfl, hhits]

theorem askPages_within (e : Env) (s : State) : Within [.regs, .dies, .cores] s (askPages e s) := by
  have h := (countHits_within e s).mono (b := [.regs, .dies, .cores]) rfl
  exact h.trans rfl

theorem askPages_reads (e : Env) (s : State) : SameReads s (askPages e s) :=
  (countHits_reads e s).trans ((SameReads.bump _ (r := .vetMisses) rfl _ _ _).trans
    ⟨rfl, rfl, rfl, rfl, fun _ _ _ => rfl, fun _ => rfl⟩)

/-- The runs that a fill reads, keys and values. -/
def State.fillReads (s : State) (e : Env) : List (Nat × Nat) :=
  s.stageRuns e (s.opd e (rB e.r 10 2)) (e.v 1) ++ s.stageRuns e (s.opd e (rB e.r 12 2)) (e.v 1)

/-- What a fill reads rests on memory and the translations held. -/
theorem SameReads.fillReads {s t : State} (h : SameReads s t) {e : Env} (ht : (t.die e.d).tlb = (s.die e.d).tlb) :
    t.fillReads e = s.fillReads e := by
  unfold State.fillReads State.stageRuns State.tlbFind
  rw [ht, h.opd, h.opd]

/-- A guarded step whose reads and writes are allowed. -/
theorem guarded_allowed {e : Env} {reads writes : List (Nat × Nat)} {s : State} (k : State → State)
    (hr : s.readsFault e.x.ctx reads = none) (hw : s.writesFault e.x.ctx writes = none) : guarded e reads writes k s =
    (writes.foldl (fun s r => s.spoil r.1 r.2) (k ((s.useRuns e false reads).useRuns e true writes))).modPlaced e.d e.p
      e.x.pos (fun x => { x with dests := writes }) := by
  unfold guarded
  simp only [hr, hw]

/-- The copy that a fill makes, once its reads are allowed. -/
def stageCopies (e : Env) (ok ov : Opd) (s : State) : State :=
  let nk := stageSlots (e.t 1) ok.fmt
  let base := coreBase e.d.val e.p.val + 0x800000
  let m := aMslot e.r
  let w := fun (o : Opd) => e.t 1 * 128 * (fmtHalfBytes o.fmt / 2)
  let s := s.clearLines e.d e.p [(base + 0x10000 * (m + 1), w ok), (base + 0x10000 * (m + 1 + nk), w ov)]
  let s := s.stageCopy e ok (base + 0x10000 * (m + 1)) (e.v 1)
  let s := s.stageCopy e ov (base + 0x10000 * (m + 1 + nk)) (e.v 1)
  (s.putSlotFlags e.d e.p false (tab (nk + stageSlots (e.t 1) ov.fmt) (fun k => (m + 1 + k, flNone)))).1

theorem stageCopies_reports (e : Env) (ok ov : Opd) (s : State) : (stageCopies e ok ov s).reports = s.reports :=
  (State.putSlotFlags_keeps (ps := [.cores, .mem]) rfl (State.stageCopy_keeps rfl (State.stageCopy_keeps rfl
    (State.clearLines_keeps rfl (Keeps.refl _ s))))).rest.reports rfl

theorem useRuns_reports (e : Env) (s : State) (w : Bool) (runs : List (Nat × Nat)) :
    (s.useRuns e w runs).reports = s.reports :=
  (State.useRuns_keeps (ps := [.acct, .regs, .dies]) rfl (Keeps.refl _ s)).rest.reports rfl

theorem stageFill_eq (e : Env) (s : State) : stageFill e s =
    guarded e (s.fillReads e) []
      (fun u => (stageCopies e (s.opd e (rB e.r 10 2)) (s.opd e (rB e.r 12 2)) u).modPlaced e.d e.p e.x.pos
        (fun x => { x with staged := true })) s := rfl

/-- A fill whose reads are allowed copies and stages its record. -/
theorem stageFill_allowed {e : Env} {s : State} (h : s.readsFault e.x.ctx (s.fillReads e) = none) :
    (∀ x ∈ ((stageFill e s).core e.d e.p).queue, x.pos = e.x.pos → x.staged = true) ∧
      (stageFill e s).reports = s.reports := by
  rw [stageFill_eq, guarded_allowed _ h rfl, List.foldl_nil]
  refine ⟨fun x hx hpos => ?_, ?_⟩
  · obtain ⟨y, hy, hypos, rfl⟩ := State.modPlaced_at hx hpos
    obtain ⟨z, -, -, rfl⟩ := State.modPlaced_at hy hypos
    rfl
  · rw [State.modPlaced_reports, State.modPlaced_reports, stageCopies_reports, useRuns_reports, useRuns_reports]

theorem State.fillNext_die {s : State} {d : Die} {c : LCore} {e : Env} (h : s.fillNext d c = some e) : e.d = d := by
  unfold State.fillNext at h
  split at h
  · cases h
  · split at h
    · cases h
    · exact (State.envOf_eq_some h).1

theorem execStagingFill_runs {s : State} {d : Die} {c : LCore} {e : Env} (parity : Nat) (ce : List Nat)
    (h : s.fillNext d c = some e) (hm : s.fillMay e = true) :
    execStagingFill d c parity s ce = .next (stagingFill e parity ce s) := by
  unfold execStagingFill
  simp only [h, hm, if_true]

/-! ### Walks -/

/-- The lines that a walk may read. -/
def State.walkLines (s : State) (n : CtxId) (root va : Nat) : List (Nat × Nat) :=
  (s.walkReads n root va).filter (fun r => s.jobMay n r.1 r.2)

/-- A walk ends: its reads are counted, and it is outstanding no more. -/
def walkEnds (d : Die) (n : CtxId) (page : Nat) (lines : List (Nat × Nat)) (s : State) : State :=
  ((s.countRuns false lines).chargeRuns n (some d) lines).modDie d (fun x =>
    { x with walks := x.walks.filter (fun w => w != (n, page)) })

theorem countRuns_chargeRuns_within (d : Die) (n : CtxId) (lines : List (Nat × Nat)) (s : State) :
    Within [.acct, .regs] s ((s.countRuns false lines).chargeRuns n (some d) lines) :=
  (countRuns_within s false lines).trans ((chargeRuns_within _ n (some d) lines).mono rfl)

theorem walkEnds_walks (d : Die) (n : CtxId) (page : Nat) (lines : List (Nat × Nat)) (s : State) :
    ((walkEnds d n page lines s).die d).walks = (s.die d).walks.filter (fun w => w != (n, page)) := by
  unfold walkEnds
  rw [State.modDie_self, State.die_congr ((countRuns_chargeRuns_within d n lines s).dies rfl)]

theorem walkEnds_within (d : Die) (n : CtxId) (page : Nat) (lines : List (Nat × Nat)) (s : State) :
    Within [.regs, .dies, .reports, .acct] s (walkEnds d n page lines s) :=
  ((countRuns_chargeRuns_within d n lines s).mono rfl).trans rfl

theorem walkEnds_reports (d : Die) (n : CtxId) (page : Nat) (lines : List (Nat × Nat)) (s : State) :
    (walkEnds d n page lines s).reports = s.reports := (countRuns_chargeRuns_within d n lines s).reports rfl

theorem walkEnds_reads (d : Die) (n : CtxId) (page : Nat) (lines : List (Nat × Nat)) (s : State) :
    SameReads s (walkEnds d n page lines s) := by
  refine (SameReads.of_within (countRuns_chargeRuns_within d n lines s) rfl rfl rfl rfl (fun hq => ?_)).trans
    ⟨rfl, rfl, rfl, rfl, fun _ _ _ => rfl, fun _ => rfl⟩
  exact (State.reg_congr ((chargeRuns_within _ n (some d) lines).regs rfl) _ _ _ _).trans (countRuns_reg s false lines hq)

/-- How a walk that has ended is answered. -/
def walkAnswer (d : Die) (n : CtxId) (page : Nat) (r : WalkRes) (s : State) : State :=
  match r with
  | .page a => s.tlbPut d n page a
  | .memory a => s.raise causeMem d.val [n] a
  | .fails level reason =>
    ((s.setReg .vetFaultAddr d.val 0 0 (BitVec.ofNat 64 (page * 65536))).setReg .vetFaultInfo d.val 0 0
      (BitVec.ofNat 64 (n.val * 1024 + level * 256 + reason))).raise causeAddr d.val [n] (page * 65536)

/-- A walk ends as the tables say when it ends. -/
theorem vetchWalkDone_clean (d : Die) (n : CtxId) (page : Nat) (s : State) : vetchWalkDone d n page [] s =
    walkAnswer d n page (s.walk n (SMap.getD (s.die d).roots n.val 0) (page * 65536))
      (walkEnds d n page (s.walkLines n (SMap.getD (s.die d).roots n.val 0) (page * 65536)) s) := by
  rw [← (walkEnds_reads d n page (s.walkLines n (SMap.getD (s.die d).roots n.val 0) (page * 65536)) s).walk]
  unfold vetchWalkDone walkAnswer
  rfl

/-- A translation placed is held. -/
theorem tlbPut_holds (s : State) (d : Die) (n : CtxId) (page a : Nat) :
    ∃ k ∈ ((s.tlbPut d n page a).die d).tlb, k.ctx = n ∧ k.page = page ∧ k.addr = a := by
  unfold State.tlbPut
  rw [State.modDie_self]
  dsimp only
  split
  case h_1 w _ => exact ⟨⟨page % 64, w, n, page, a⟩, List.mem_append_right _ (List.mem_singleton.2 rfl), rfl, rfl, rfl⟩
  case h_2 =>
    exact ⟨⟨page % 64, SMap.getD (s.die d).tlbPtr (page % 64) 0, n, page, a⟩,
      List.mem_append_right _ (List.mem_singleton.2 rfl), rfl, rfl, rfl⟩

theorem tlbPut_walks (s : State) (d : Die) (n : CtxId) (page a : Nat) :
    ((s.tlbPut d n page a).die d).walks = (s.die d).walks := by
  unfold State.tlbPut
  rw [State.modDie_self]
  dsimp only
  split <;> rfl

theorem walkAnswer_walks (d : Die) (n : CtxId) (page : Nat) (r : WalkRes) (s : State) :
    ((walkAnswer d n page r s).die d).walks = (s.die d).walks := by
  cases r with
  | page a => exact tlbPut_walks s d n page a
  | fails level reason => rfl
  | memory a => rfl

theorem walkAnswer_within (d : Die) (n : CtxId) (page : Nat) (r : WalkRes) (s : State) :
    Within [.regs, .dies, .reports, .acct] s (walkAnswer d n page r s) := by
  cases r <;> rfl

/-- A walk that fails is recorded and reported. -/
theorem walkAnswer_fails (d : Die) (n : CtxId) (page level reason : Nat) (s : State) :
    (walkAnswer d n page (.fails level reason) s).reg .vetFaultAddr d.val 0 0 = BitVec.ofNat 64 (page * 65536) ∧
    (walkAnswer d n page (.fails level reason) s).reg .vetFaultInfo d.val 0 0 =
      BitVec.ofNat 64 (n.val * 1024 + level * 256 + reason) ∧
    (walkAnswer d n page (.fails level reason) s).reports = s.reports ++
      [{ cause := causeAddr, die := d.val, ctxs := [n], addr := page * 65536 % 2 ^ 48 }] := by
  unfold walkAnswer
  dsimp only
  rw [State.raise_die _ _ d.isLt]
  refine ⟨?_, State.setReg_self _ _ _ _ _ _, rfl⟩
  exact (State.setReg_other _ _ (by simp [RegId.off, RegId.row])).trans (State.setReg_self _ _ _ _ _ _)

theorem execVetchWalkDone_runs {s : State} {d : Die} {n : CtxId} {va : Nat} (ce : List Nat)
    (hw : (s.die d).walks.contains (n, vaPage va) = true) (hup : s.newelUp d = true)
    (hrun : ∀ r ∈ s.walkReads n (SMap.getD (s.die d).roots n.val 0) (vaPage va * 65536),
      s.memRuns (some d) r.1 r.2 = true) :
    execVetchWalkDone d n va s ce = .next (vetchWalkDone d n (vaPage va) ce s) := by
  unfold execVetchWalkDone
  rw [hw, hup, if_pos]
  simpa using hrun

end Sys2Proof.Machine
end

section
/-! PROOFS. TeaselAndVetch. -/

namespace Sys2Proof

open Machine

/-- A TCONV sent to Teasel stands as issued, and Teasel runs it. -/
theorem tconvOnTeasel_runs (e : Env) (s : State) :
    ((tconvOnTeasel e {} s).die e.d).teaRun = some e.x ∧ Stands e (tconvOnTeasel e {} s) := by
  rw [tconvOnTeasel_clean]
  have hframe := tconvEffect_frame e (teaselStarts e s)
  exact ⟨(hframe.teaRun e.d).trans (teaRun_teaselStarts e s),
    hframe.stands (tconvEffect_now e _) (stands_teaselStarts e s)⟩

/-- A TCONV that has run on its core stands as issued. -/
theorem stands_tconvOnCore (e : Env) (s : State) : Stands e (effClear tconvEffect e (s.markIssued e)) :=
  (effClear_frame e _ (tconvEffect_frame e _)).stands (effClear_tconvEffect_now e _) (stands_markIssued s e)

/-- Settles O44: TCONV by the frame of its effect, a fill by what its asking for pages leaves alone, and a walk by its
tables, which counting its reads leaves alone. -/
theorem teaselAndVetch : Obligations.TeaselAndVetch := by
  unfold Obligations.TeaselAndVetch
  refine ⟨?_, ?_, ?_, ?_⟩
  · intro s d c e h hop hready
    obtain rfl := State.candidate_die h
    exact ⟨fun hout hon hclk hrun => ⟨_, congrArg Host.Outcome.next (tconv_sent {} h hop hready hout hon hclk hrun), rfl,
        tconvOnTeasel_runs e s⟩,
      fun hout hissue hbad => ⟨_, congrArg Host.Outcome.next ((tconv_onCore {} h hop hready hout hissue).trans
        (runIssued_clean (by rwa [State.markIssued_badLines]))), rfl, stands_tconvOnCore e s⟩⟩
  · intro s d x h hclk
    refine ⟨_, execTconvComplete_runs h hclk, ?_, fun p hp => ?_, ?_⟩
    · rw [State.die_congr (State.traceRec_dies ..), tconvComplete_teaRun]
    · rw [State.core_congr (State.traceRec_cores ..)]
      exact tconvComplete_leaves hp
    · exact (State.traceRec_keeps (ps := [.cores, .dies, .trcSeq, .trcDrop, .trcTok, .mem, .bad, .regs, .acct, .free]) rfl
        (tconvComplete_keeps rfl (Keeps.refl _ s))).rest
  · intro s d c e h hm
    obtain rfl := State.fillNext_die h
    refine ⟨fun hall hfault => ?_, fun hmiss => ⟨_, execStagingFill_runs 0 [] h hm, ?_⟩⟩
    · refine ⟨_, execStagingFill_runs 0 [] h hm, ?_⟩
      rw [stagingFill_runs hall]
      have hreads := askPages_reads e s
      obtain ⟨hstaged, hreports⟩ := stageFill_allowed (e := e) (s := askPages e s) (by
        rw [hreads.readsFault, hreads.fillReads (by rw [askPages_die])]
        exact hfault)
      exact ⟨hstaged, hreports.trans ((askPages_within e s).reports rfl)⟩
    · rw [stagingFill_waits hmiss]
      exact ⟨by rw [askPages_die]; rfl, askPages_misses e s, askPages_within e s⟩
  · intro s d n va hw root at' hup hrun
    refine ⟨_, execVetchWalkDone_runs [] hw hup hrun, ?_⟩
    rw [vetchWalkDone_clean]
    refine ⟨?_, ?_, ?_⟩
    · rw [walkAnswer_walks, walkEnds_walks]
    · exact (walkEnds_within ..).trans (walkAnswer_within ..)
    · generalize s.walk n _ _ = r
      cases r with
      | page a => exact ⟨tlbPut_holds _ d n (vaPage va) a, walkEnds_reports d n (vaPage va) _ s⟩
      | fails level reason => 
        rw [← walkEnds_reports d n (vaPage va) _ s]
        exact walkAnswer_fails d n (vaPage va) level reason _
      | memory a =>
        show (State.raise _ _ _ _ _).reports = _
        rw [State.raise_die _ _ d.isLt, ← walkEnds_reports d n (vaPage va) _ s]

end Sys2Proof
end

section
/-! SUPPORT. Replays: the record that a core replays takes its effect, and nothing is left to replay. -/

namespace Sys2Proof.Machine

/-- What a record reads rests on memory. -/
theorem SameReads.recReads {s t : State} (h : SameReads s t) (e : Env) : t.recReads e = s.recReads e := by
  have hdev : t.devNat = s.devNat := by
    funext a n
    exact h.devNat a n
  unfold State.recReads State.opdRuns State.uses State.slotReads State.elem State.loc State.opd
  rw [hdev]

theorem countReplay_cores (s : State) (d : Die) (p : PCore) : (s.countReplay d p).cores = s.cores := rfl

theorem countReplay_reads (s : State) (d : Die) (p : PCore) : SameReads s (s.countReplay d p) :=
  (SameReads.bump s (r := .coreReplayCount) rfl d.val p.val 1).trans
    ⟨rfl, rfl, rfl, rfl, fun _ _ _ => rfl, fun _ => rfl⟩

theorem countReplay_reg (s : State) (d : Die) (p : PCore) : (s.countReplay d p).reg .coreReplayCount d.val p.val 0 =
    BitVec.ofNat 64 (((s.reg .coreReplayCount d.val p.val 0).toNat + 1) % 2 ^ 32) :=
  bump_narrow s d.val p.val 1 rfl

/-- The replayed record's data stand, and the core has nothing to replay. -/
def replayEnds (e : Env) (s : State) : State :=
  (s.modPlaced e.d e.p e.x.pos (fun x => { x with data := true })).modCore e.d e.p
    (fun k => { k with replay := none, replayRun := 0 })

theorem replayEnds_core (e : Env) (s : State) : (replayEnds e s).core e.d e.p =
    { (s.modPlaced e.d e.p e.x.pos (fun x => { x with data := true })).core e.d e.p with replay := none, replayRun := 0 } :=
  State.modCore_self _ e.d e.p _

theorem replayEnds_data {e : Env} {s : State} {x : Placed} (hx : x ∈ ((replayEnds e s).core e.d e.p).queue)
    (hpos : x.pos = e.x.pos) : x.data = true := by
  rw [replayEnds_core] at hx
  obtain ⟨z, -, -, rfl⟩ := State.modPlaced_at hx hpos
  rfl

/-- A replay that nothing befalls takes the record's effect. -/
theorem runReplay_clean {e : Env} {s : State}
    (h : badMet (coreBase e.d.val e.p.val) (s.core e.d e.p).badLines (s.recReads e) = none) :
    runReplay e {} s = effClear effectOf e (replayEnds e (s.countReplay e.d e.p)) := by
  unfold runReplay
  rw [withEcc_clean (by rwa [State.core_congr (countReplay_cores s e.d e.p), (countReplay_reads s e.d e.p).recReads])]
  simp only [or_true, if_true]
  rfl

theorem uncounted_coreReplayCount (d : Nat) (p : PCore) : Uncounted .coreReplayCount d p.val 0 := by
  intro e k
  have hp := p.isLt
  simp only [RegId.off, RegId.row]
  simp
  omega

theorem execRunReplay_runs {s : State} {d : Die} {c : LCore} {e : Env} (ev : RecEv) (h : s.replayNext d c = some e) :
    execRunReplay d c ev s = .next (runReplay e ev s) := by
  unfold execRunReplay
  rw [h]

end Sys2Proof.Machine
end

section
/-! SUPPORT. Cores that leave service: a core's state moved to its spare, and the start of a retirement. -/

namespace Sys2Proof.Machine

/-! ### The move to a spare -/

theorem coreMoved_within (d : Die) (p q : PCore) (role : Role) (s : State) :
    Within [.mem, .cores, .fns] s (coreMoved d p q role s) := (coreMoved_keeps rfl (Keeps.refl _ s)).rest

theorem copyRange_cores (s : State) (src dst len : Nat) : (s.copyRange src dst len).cores = s.cores :=
  (State.copyRange_keeps (ps := [.mem]) rfl (Keeps.refl _ s)).rest.cores rfl

theorem copyRange_fns (s : State) (src dst len : Nat) : (s.copyRange src dst len).fns = s.fns :=
  (State.copyRange_keeps (ps := [.mem]) rfl (Keeps.refl _ s)).rest.fns rfl

theorem copyRange_now (s : State) (src dst len : Nat) : (s.copyRange src dst len).now = s.now :=
  (State.copyRange_keeps (ps := [.mem]) rfl (Keeps.refl _ s)).rest.now rfl

/-- The spare holds what the core held. -/
theorem coreMoved_spare {d : Die} {p q : PCore} (hq : q ≠ p) (role : Role) (s : State) :
    (coreMoved d p q role s).core d q = { s.core d q with
      role := .inService, logical := (s.core d p).logical, queue := (s.core d p).queue, nextPos := (s.core d p).nextPos
      accFlags := (s.core d p).accFlags, replay := (s.core d p).replay, replayRun := (s.core d p).replayRun, stopped := false
      badLines := (s.core d p).badLines
      movedAt := if (s.core d p).thermalMove then some s.now else (s.core d p).movedAt } := by
  unfold coreMoved
  dsimp only
  rw [State.core_congr (State.setFn_cores ..), State.modCore_other _ _ (fun h => hq (Prod.mk.inj h).2),
    State.core_congr (State.setFn_cores ..), State.modCore_self, State.core_congr (copyRange_cores ..), copyRange_now]

/-- The core that was moved holds nothing. -/
theorem coreMoved_old {d : Die} {p q : PCore} (hq : q ≠ p) (role : Role) (s : State) :
    (coreMoved d p q role s).core d p = { s.core d p with
      role, logical := none, queue := [], replay := none, retireTo := none, stopped := false, thermalMove := false
      badLines := [] } := by
  unfold coreMoved
  dsimp only
  rw [State.core_congr (State.setFn_cores ..), State.modCore_self, State.core_congr (State.setFn_cores ..),
    State.modCore_other _ _ (fun h => hq (Prod.mk.inj h).2.symm), State.core_congr (copyRange_cores ..)]

theorem coreMoved_other {d f : Die} {p q k : PCore} (h : f ≠ d ∨ (k ≠ p ∧ k ≠ q)) (role : Role) (s : State) :
    (coreMoved d p q role s).core f k = s.core f k := by
  have hp : (f, k) ≠ (d, p) := by rintro ⟨⟩; simp at h
  have hq : (f, k) ≠ (d, q) := by rintro ⟨⟩; simp at h
  unfold coreMoved
  dsimp only
  rw [State.core_congr (State.setFn_cores ..), State.modCore_other _ _ hp, State.core_congr (State.setFn_cores ..),
    State.modCore_other _ _ hq, State.core_congr (copyRange_cores ..)]

theorem coreMoved_fn_spare {d : Die} {p q : PCore} (hq : q ≠ p) (role : Role) (s : State) :
    (coreMoved d p q role s).fn (.core d q) = { s.fn (.core d q) with st := .on, en := true } := by
  unfold coreMoved
  dsimp only
  rw [setFn_fn_other _ _ (by simpa using hq), State.fn_congr (State.modCore_fns ..), State.setFn_self,
    State.fn_congr (State.modCore_fns ..), State.fn_congr (copyRange_fns ..)]

theorem coreMoved_fn_old (d : Die) (p q : PCore) (role : Role) (s : State) :
    ((coreMoved d p q role s).fn (.core d p)).st = .off := by
  unfold coreMoved
  dsimp only
  rw [State.setFn_self]
  rfl

/-- From `s` to `t` core `p` of a die has given what it held to core `q`, and no other core changed. -/
structure MovedTo (d : Die) (p q : PCore) (s t : State) : Prop where
  role : (t.core d q).role = .inService
  logical : (t.core d q).logical = (s.core d p).logical
  queue : (t.core d q).queue = (s.core d p).queue
  accFlags : (t.core d q).accFlags = (s.core d p).accFlags
  on : t.fn (.core d q) = { s.fn (.core d q) with st := .on, en := true }
  oldQueue : (t.core d p).queue = []
  oldLogical : (t.core d p).logical = none
  oldOff : (t.fn (.core d p)).st = .off
  others : ∀ f k, f ≠ d ∨ (k ≠ p ∧ k ≠ q) → t.core f k = s.core f k

/-- A step whose cores and functions are those of a moved core. -/
theorem MovedTo.of_coreMoved {d : Die} {p q : PCore} (hq : q ≠ p) {role : Role} {s t : State}
    (hc : t.cores = (coreMoved d p q role s).cores) (hf : t.fns = (coreMoved d p q role s).fns) : MovedTo d p q s t where
  role := by rw [State.core_congr hc, coreMoved_spare hq]
  logical := by rw [State.core_congr hc, coreMoved_spare hq]
  queue := by rw [State.core_congr hc, coreMoved_spare hq]
  accFlags := by rw [State.core_congr hc, coreMoved_spare hq]
  on := by rw [State.fn_congr hf, coreMoved_fn_spare hq]
  oldQueue := by rw [State.core_congr hc, coreMoved_old hq]
  oldLogical := by rw [State.core_congr hc, coreMoved_old hq]
  oldOff := by rw [State.fn_congr hf, coreMoved_fn_old]
  others f k h := by rw [State.core_congr hc, coreMoved_other h]

/-- A move leaves no retirement of the die waiting where none waited. -/
theorem coreMoved_retireWait {d : Die} {p q : PCore} (hq : q ≠ p) (role : Role) {s : State}
    (h : ∀ k, (s.core d k).retireWait = false) (k : PCore) : ((coreMoved d p q role s).core d k).retireWait = false := by
  by_cases hkq : k = q
  · rw [hkq, coreMoved_spare hq]; exact h q
  · by_cases hkp : k = p
    · rw [hkp, coreMoved_old hq]; exact h p
    · rw [coreMoved_other (.inr ⟨hkp, hkq⟩)]; exact h k

/-- With no retirement waiting, none starts. -/
theorem retireWaiting_none {d : Die} {s : State} (h : ∀ k, (s.core d k).retireWait = false) : retireWaiting d s = s := by
  have hnone : allPCores.filter (fun p => (s.core d p).retireWait) = [] :=
    List.filter_eq_nil_iff.2 (fun k _ => by simp [h k])
  unfold retireWaiting
  rw [hnone]
  split <;> rfl

/-- A thermal move ends: the state stands on the spare, and the move is counted. -/
def moveEnds (d : Die) (p q : PCore) (s : State) : State :=
  ((coreMoved d p q .spare s).modDie d (fun x => { x with moving := none })).bump .pwdThermalMoves d.val 0 1

theorem moveEnds_cores (d : Die) (p q : PCore) (s : State) :
    (moveEnds d p q s).cores = (coreMoved d p q .spare s).cores := rfl

theorem coreRetireDone_thermal {d : Die} {p q : PCore} {s : State} (hq : q ≠ p) (ht : (s.core d p).thermalMove = true)
    (hw : ∀ k, (s.core d k).retireWait = false) : coreRetireDone d p q s = moveEnds d p q s := by
  unfold coreRetireDone
  rw [if_pos ht]
  exact retireWaiting_none (s := moveEnds d p q s) (fun k => by
    rw [State.core_congr (moveEnds_cores d p q s)]; exact coreMoved_retireWait hq .spare hw k)

theorem coreRetireDone_retired {d : Die} {p q : PCore} {s : State} (ht : (s.core d p).thermalMove = false) :
    coreRetireDone d p q s = ((coreMoved d p q .retired s).saveRetired d p).repairedSince (s.core d p).since kCore d.val p.val
      0 0 ((coreMoved d p q .retired s).spareCores d).length (((coreMoved d p q .retired s).spareCores d).length == 0) := by
  unfold coreRetireDone
  rw [if_neg (by simp [ht])]

theorem coreRetireDoneEv_runs {d : Die} {p q : PCore} {s : State} (h : (s.core d p).retireTo = some q)
    (hr : s.retireReady d p = true) : coreRetireDoneEv d p s = coreRetireDone d p q s := by
  unfold coreRetireDoneEv
  rw [h]
  exact if_pos hr

/-- A repaired event leaves the spare map alone. -/
theorem repairedAt_spares (s : State) (time pause k d u x a l : Nat) (last : Bool) :
    (s.repairedAt time pause k d u x a l last).store.cur.spares = s.store.cur.spares := by
  unfold State.repairedAt
  dsimp only
  rw [State.msix_store]
  split
  · show ((s.logRec time pause clsRepaired k d u x a l).traceRepair k u pause).store.cur.spares = _
    rw [State.traceRepair_store]
    rfl
  · rw [State.traceRepair_store]
    rfl

theorem repairedAt_within (s : State) (time pause k d u x a l : Nat) (last : Bool) :
    Within [.trcTok, .free, .mem, .acct, .regs, .bad, .trcSeq, .trcDrop, .store, .hub, .out] s
      (s.repairedAt time pause k d u x a l last) := (State.repairedAt_keeps rfl (Keeps.refl _ s)).rest

theorem repairedSince_within (s : State) (since k d u x a l : Nat) (last : Bool) :
    Within [.trcTok, .free, .mem, .acct, .regs, .bad, .trcSeq, .trcDrop, .store, .hub, .out] s
      (s.repairedSince since k d u x a l last) := repairedAt_within ..

/-! ### Retirement starts -/

/-- Which cores are free spares rests on the roles of a die's cores and the moves under way. -/
theorem spareCores_congr {s t : State} {d : Die} (hrole : ∀ k, (t.core d k).role = (s.core d k).role)
    (hto : ∀ k, (t.core d k).retireTo = (s.core d k).retireTo) : t.spareCores d = s.spareCores d := by
  unfold State.spareCores
  simp only [hrole, hto]

/-- A change of one core that keeps its role and its move keeps the free spares. -/
theorem spareCores_modCore (s : State) (d : Die) (p : PCore) {f : Core → Core}
    (hrole : (f (s.core d p)).role = (s.core d p).role) (hto : (f (s.core d p)).retireTo = (s.core d p).retireTo) :
    (s.modCore d p f).spareCores d = s.spareCores d := by
  refine spareCores_congr (fun k => ?_) (fun k => ?_) <;>
  · by_cases hk : k = p
    · subst hk
      rw [State.modCore_self]
      assumption
    · rw [State.modCore_other _ _ (fun h => hk (Prod.mk.inj h).2)]

/-- A core is found faulty: its die pauses, and the time is kept. -/
def retireFound (d : Die) (p : PCore) (s : State) : State :=
  (s.modCtr d (fun c => { c with paused := true })).modCore d p (fun k => { k with since := s.now })

theorem retireFound_core (d : Die) (p : PCore) (s : State) :
    (retireFound d p s).core d p = { s.core d p with since := s.now } := State.modCore_self _ d p _

theorem retireFound_moving (d : Die) (p : PCore) (s : State) : ((retireFound d p s).die d).moving = (s.die d).moving := by
  unfold retireFound State.modCtr
  rw [State.die_congr (State.modCore_dies ..), State.modDie_self]

theorem retireFound_spares (d : Die) (p : PCore) (s : State) : (retireFound d p s).spareCores d = s.spareCores d :=
  spareCores_modCore _ d p rfl rfl

/-- The retirement of a core in service that none holds yet. -/
theorem retireCore_inService {d : Die} {p : PCore} {s : State} (hrole : (s.core d p).role = .inService)
    (hto : (s.core d p).retireTo = none) (hwait : (s.core d p).retireWait = false) : retireCore d p s =
    if (s.die d).moving.isSome then (retireFound d p s).modCore d p (fun k => { k with stopped := true, retireWait := true })
    else retireStart d p (retireFound d p s) := by
  have hk : (s.modCtr d (fun c => { c with paused := true })).core d p = s.core d p := rfl
  unfold retireCore
  rw [hrole]
  dsimp only
  rw [hk, hwait, hto, ← retireFound_moving d p s]
  simp only [Option.isSome_none, Bool.false_and, Bool.or_false, Bool.false_eq_true, if_false]
  rfl

/-- A core starts its retirement onto the first free spare. -/
theorem retireStart_takes {d : Die} {p q : PCore} {l : List PCore} {s : State} (hto : (s.core d p).retireTo = none)
    (hspare : s.spareCores d = q :: l) :
    retireStart d p s = s.modCore d p (fun k => { k with stopped := true, retireTo := some q }) := by
  unfold retireStart
  rw [hto, if_neg (by simp), hspare]

/-- A core in service that no retirement holds stops, and takes the first spare or waits for a move. -/
theorem retiring_retireCore (d : Die) (p : PCore) (s : State) : Retiring s (retireCore d p s) d p := by
  intro hrole _ hto hwait q l hspare
  rw [retireCore_inService hrole hto hwait]
  cases hmoving : (s.die d).moving with
  | some m =>
    rw [if_pos (Option.isSome_some (a := m)), State.modCore_self, retireFound_core]
    exact ⟨rfl, rfl, fun h => absurd h (by simp), fun _ => rfl⟩
  | none =>
    rw [if_neg (by simp), retireStart_takes (by rw [retireFound_core]; exact hto) (by rw [retireFound_spares]; exact hspare),
      State.modCore_self, retireFound_core]
    exact ⟨rfl, rfl, fun _ => rfl, fun h => absurd rfl h⟩

/-! ### Banks -/

/-- The errors of a bank are no longer counted towards its copy, which starts now. -/
def bankFound (d : Die) (p : PCore) (bank : Fin 32) (s : State) : State :=
  s.modCore d p (fun k => { k with ceTimes := SMap.del k.ceTimes bank.val, bankAt := s.now })

theorem bankFound_core (d : Die) (p : PCore) (bank : Fin 32) (s : State) : (bankFound d p bank s).core d p =
    { s.core d p with ceTimes := SMap.del (s.core d p).ceTimes bank.val, bankAt := s.now } := State.modCore_self _ d p _

/-- A retirement for want of a spare bank is one of the core as it was. -/
theorem retiring_bankFound (d : Die) (p : PCore) (bank : Fin 32) (s : State) :
    Retiring s (retireCore d p (bankFound d p bank s)) d p := by
  have h := retiring_retireCore d p (bankFound d p bank s)
  unfold Retiring at h ⊢
  rwa [bankFound_core, show (bankFound d p bank s).spareCores d = s.spareCores d from spareCores_modCore s d p rfl rfl] at h

/-- The copy goes into the lower spare bank, else the other, else the core is retired. -/
theorem spadBankMigrate_eq (d : Die) (p : PCore) (bank : Fin 32) (s : State) : spadBankMigrate d p bank s =
    if fld (s.reg .coreSpadMap d.val p.val 0) 5 0 = 0x3F then
      (bankFound d p bank s).setReg .coreSpadMap d.val p.val 0
        (setFld (setFld (s.reg .coreSpadMap d.val p.val 0) 5 0 bank.val) 6 6 1)
    else if fld (s.reg .coreSpadMap d.val p.val 0) 13 8 = 0x3F then
      (bankFound d p bank s).setReg .coreSpadMap d.val p.val 0
        (setFld (setFld (s.reg .coreSpadMap d.val p.val 0) 13 8 bank.val) 14 14 1)
    else retireCore d p (bankFound d p bank s) := rfl

theorem execSpadBankMigrate_runs {s : State} {d : Die} {p : PCore} {bank : Fin 32} (hon : s.fnIs (.core d p) .on = true)
    (hrun : (s.core d p).stopped = false) (hce : eightCe (SMap.getD (s.core d p).ceTimes bank.val []) s.now = true) :
    execSpadBankMigrate d p bank s = .next (spadBankMigrate d p bank s) := by
  unfold execSpadBankMigrate
  rw [hon, hrun, hce]
  rfl

theorem execAccEccThreshold_runs {s : State} {d : Die} {p : PCore} (hon : s.fnIs (.core d p) .on = true)
    (hrun : (s.core d p).stopped = false) (hce : eightCe (SMap.getD (s.core d p).ceTimes 32 []) s.now = true) :
    execAccEccThreshold d p s = .next (retireCore d p s) := by
  unfold execAccEccThreshold
  rw [hon, hrun, hce]
  rfl

/-- No trace record touches a register of a die but its trace counters and the counters of bytes. -/
theorem untraced_die {q : RegId} {d i j : Nat} (hq : q.row.die = true) (lq : q.rel i j < 0x100000)
    (hrec : q.rel i j ≠ RegId.rel .trdRecords 0 0) (hlost : q.rel i j ≠ RegId.rel .trdLost 0 0)
    (hu : Uncounted q d i j) :
    Untraced q d i j where
  prod := off_ne_hub hq (by decide) (by decide +kernel) _ _ _ _
  records k := off_ne_dies hq (by decide) lq (by decide +kernel) hrec d k
  lost := off_ne_hub hq (by decide) (by decide +kernel) _ _ _ _
  dieLost k := off_ne_dies hq (by decide) lq (by decide +kernel) hlost d k
  bytes := hu

theorem uncounted_coreSpadMap (d : Nat) (p : PCore) : Uncounted .coreSpadMap d p.val 0 := by
  intro e k
  have hp := p.isLt
  simp only [RegId.off, RegId.row]
  simp
  omega

theorem untraced_coreSpadMap (d : Nat) (p : PCore) : Untraced .coreSpadMap d p.val 0 := by
  have hp := p.isLt
  refine untraced_die rfl ?_ ?_ ?_ (uncounted_coreSpadMap d p) <;>
  · simp only [RegId.rel, RegId.row]
    omega

/-- The copy of a bank ends: CORE_SPAD_MAP has MIG clear. -/
def bankServes (d : Die) (p : PCore) (spare : Fin 2) (s : State) : State :=
  s.setReg .coreSpadMap d.val p.val 0
    (setFld (s.reg .coreSpadMap d.val p.val 0) (8 * spare.val + 6) (8 * spare.val + 6) 0)

/-- The spare map keeps CORE_SPAD_MAP. -/
def saveSpadMap (d : Die) (p : PCore) (s : State) : State :=
  { s with store := { s.store with
    dirty := true
    cur := { s.store.cur with spares := { s.store.cur.spares with
      spads := SMap.put s.store.cur.spares.spads (32 * d.val + p.val)
        (BitVec.ofNat 32 (s.reg .coreSpadMap d.val p.val 0).toNat) } } } }

/-- The switch of a bank: the map, its place in the store, and a repaired event of the fault that started the copy. -/
theorem spadBankSwitch_eq (d : Die) (p : PCore) (spare : Fin 2) (s : State) : ∃ detail left last,
    spadBankSwitch d p spare s = (saveSpadMap d p (bankServes d p spare s)).repairedAt (s.core d p).bankAt 0 kSpadBank d.val
      p.val detail 0 left last := ⟨_, _, _, rfl⟩

theorem execSpadBankSwitch_runs {s : State} {d : Die} {p : PCore} {spare : Fin 2}
    (h : fld (s.reg .coreSpadMap d.val p.val 0) (8 * spare.val + 6) (8 * spare.val + 6) = 1) :
    execSpadBankSwitch d p spare s = .next (spadBankSwitch d p spare s) := by
  unfold execSpadBankSwitch
  exact congrArg _ (if_pos h)

end Sys2Proof.Machine
end

section
/-! PROOFS. CoreRepair. -/

namespace Sys2Proof

open Machine

/-- The replay of an interrupted record. -/
theorem runReplay_settles {s : State} {d : Die} {c : LCore} {e : Env} (h : s.replayNext d c = some e)
    (hbad : badMet (coreBase e.d.val e.p.val) (s.core e.d e.p).badLines (s.recReads e) = none) :
    ∃ t, exec (.runReplay d c {}) s = .next t ∧ (t.core e.d e.p).replay = none ∧ (t.core e.d e.p).replayRun = 0 ∧
      (∀ x ∈ (t.core e.d e.p).queue, x.pos = e.x.pos → x.data = true) ∧
      t.reg .coreReplayCount e.d.val e.p.val 0 =
        BitVec.ofNat 64 (((s.reg .coreReplayCount e.d.val e.p.val 0).toNat + 1) % 2 ^ 32) ∧
      t = effClear effectOf e (replayEnds e (s.countReplay e.d e.p)) := by
  have hframe := effClear_frame e (replayEnds e (s.countReplay e.d e.p)) (effectOf_frame e _)
  refine ⟨_, execRunReplay_runs {} h, ?_⟩
  rw [runReplay_clean hbad]
  refine ⟨?_, ?_, fun x hx hpos => ?_, ?_, rfl⟩
  · rw [hframe.replay, replayEnds_core]
  · rw [hframe.replayRun, replayEnds_core]
  · obtain ⟨z, hz, w, rfl⟩ := hframe.queue x hx
    exact replayEnds_data (x := z) hz hpos
  · exact (hframe.reg (uncounted_coreReplayCount _ e.p)).trans (countReplay_reg s e.d e.p)

theorem coreRetireDone_runs {s : State} {d : Die} {p q : PCore} (hfree : s.hub.takeover = false)
    (hto : (s.core d p).retireTo = some q) (hready : s.retireReady d p = true) :
    exec (.coreRetireDone d p) s = .next (coreRetireDone d p q s) := by
  rw [← coreRetireDoneEv_runs hto hready]
  exact congrArg Host.Outcome.next (reach_free (c := .coreRetireDone d p) hfree rfl)

/-- A thermal move that completes: the old core is a spare, and the move is counted. -/
theorem moveEnds_settles {s : State} {d : Die} {p q : PCore} (hq : q ≠ p) (ht : (s.core d p).thermalMove = true) :
    ((moveEnds d p q s).core d p).role = .spare ∧ ((moveEnds d p q s).core d q).movedAt = some s.now ∧
      ((moveEnds d p q s).reg .pwdThermalMoves d.val 0 0).toNat =
        ((s.reg .pwdThermalMoves d.val 0 0).toNat + 1) % 2 ^ 32 ∧ (moveEnds d p q s).store = s.store := by
  have hwithin := coreMoved_within d p q .spare s
  have hcore := State.core_congr (moveEnds_cores d p q s)
  refine ⟨by rw [hcore, coreMoved_old hq], by rw [hcore, coreMoved_spare hq, ht, if_pos rfl], ?_, hwithin.store rfl⟩
  rw [← State.reg_congr (hwithin.regs rfl) .pwdThermalMoves d.val 0 0]
  exact State.bump_self _ .pwdThermalMoves d.val 0 1 rfl

/-- A retirement that completes: the old core is retired, recorded in the spare map and reported. -/
theorem retired_settles {s t : State} {d : Die} {p q : PCore} {since left : Nat} {last : Bool} (hq : q ≠ p)
    (ht : t = ((coreMoved d p q .retired s).saveRetired d p).repairedSince since kCore d.val p.val 0 0 left last) :
    MovedTo d p q s t ∧ (t.core d p).role = .retired ∧ RepairsAt s t since kCore d.val p.val ∧
      (d.val, p.val) ∈ t.store.cur.spares.cores := by
  have hwithin := repairedSince_within ((coreMoved d p q .retired s).saveRetired d p) since kCore d.val p.val 0 0 left last
  rw [← ht] at hwithin
  have hc : t.cores = (coreMoved d p q .retired s).cores := hwithin.cores rfl
  have hstore := (coreMoved_within d p q .retired s).store rfl
  refine ⟨.of_coreMoved hq hc (hwithin.fns rfl), by rw [State.core_congr hc, coreMoved_old hq], ?_, ?_⟩
  · rw [ht]
    refine RecordedAt.congr (State.repairedAt_event ((coreMoved d p q .retired s).saveRetired d p) ..) ?_ rfl
    show s.store.cur.logSeq = (coreMoved d p q .retired s).store.cur.logSeq
    rw [hstore]
  · rw [ht]
    unfold State.repairedSince
    rw [repairedAt_spares]
    exact List.mem_append_right _ (List.mem_singleton.2 rfl)

/-- A retirement, or a thermal move, that completes. -/
theorem coreRetireDone_settles {s : State} {d : Die} {p q : PCore} (hq : q ≠ p)
    (hw : ∀ k, (s.core d k).retireWait = false) :
    MovedTo d p q s (coreRetireDone d p q s) ∧
      ((s.core d p).thermalMove = true → ((coreRetireDone d p q s).core d p).role = .spare ∧
        ((coreRetireDone d p q s).core d q).movedAt = some s.now ∧
        ((coreRetireDone d p q s).reg .pwdThermalMoves d.val 0 0).toNat =
          ((s.reg .pwdThermalMoves d.val 0 0).toNat + 1) % 2 ^ 32 ∧
        (coreRetireDone d p q s).store = s.store) ∧
      ((s.core d p).thermalMove = false → ((coreRetireDone d p q s).core d p).role = .retired ∧
        RepairsAt s (coreRetireDone d p q s) (s.core d p).since kCore d.val p.val ∧
        (d.val, p.val) ∈ (coreRetireDone d p q s).store.cur.spares.cores) := by
  cases ht : (s.core d p).thermalMove with
  | true =>
    rw [coreRetireDone_thermal hq ht hw]
    exact ⟨.of_coreMoved hq (moveEnds_cores d p q s) rfl, fun _ => moveEnds_settles hq ht, fun h => absurd h (by simp)⟩
  | false =>
    obtain ⟨hmoved, hretired⟩ := retired_settles hq (coreRetireDone_retired (q := q) ht)
    exact ⟨hmoved, fun h => absurd h (by simp), fun _ => hretired⟩

/-- Settles O41: a replay by the frame of its effect, a move by what each core holds after it, a retirement by its first
steps, and the switch of a bank by its repaired event. -/
theorem coreRepair : Obligations.CoreRepair := by
  unfold Obligations.CoreRepair
  refine ⟨fun s d c e h hbad => runReplay_settles h hbad,
    ?_, ?_, ?_, ?_⟩
  · intro s d p q hfree hto hready hq hw
    obtain ⟨hmoved, hthermal, hretired⟩ := coreRetireDone_settles hq hw
    exact ⟨_, coreRetireDone_runs hfree hto hready, hmoved.role, hmoved.logical, hmoved.queue, hmoved.accFlags, hmoved.on,
      hmoved.oldQueue, hmoved.oldLogical, hmoved.oldOff, hmoved.others, hthermal, hretired⟩
  · intro s d p bank hon hrun hce v
    refine ⟨_, execSpadBankMigrate_runs hon hrun hce, ?_⟩
    rw [spadBankMigrate_eq]
    refine ⟨fun hlow => ?_, fun hlow hhigh => ?_, fun hlow hhigh => ?_⟩
    · rw [if_pos hlow]
      exact ⟨State.setReg_self .., rfl⟩
    · rw [if_neg hlow, if_pos hhigh]
      exact ⟨State.setReg_self .., rfl⟩
    · rw [if_neg hlow, if_neg hhigh]
      exact retiring_bankFound d p bank s
  · intro s d p spare v hmig
    refine ⟨_, execSpadBankSwitch_runs hmig, ?_⟩
    obtain ⟨detail, left, last, heq⟩ := spadBankSwitch_eq d p spare s
    rw [heq]
    refine ⟨?_, ?_, ?_, (repairedAt_within ..).cores rfl⟩
    · rw [State.repairedAt_reg _ _ _ _ _ _ _ _ _ _ (off_ne_hub rfl rfl (by decide +kernel) _ _ _ _)
        (off_ne_hub rfl rfl (by decide +kernel) _ _ _ _) (untraced_coreSpadMap _ p)]
      exact State.setReg_self ..
    · rw [repairedAt_spares]
      refine (SMap.find_put_self _ _ _).trans ?_
      unfold bankServes
      rw [State.setReg_self]
    · exact RecordedAt.congr (State.repairedAt_event (saveSpadMap d p (bankServes d p spare s)) (s.core d p).bankAt 0 kSpadBank
        d.val p.val detail 0 left last) rfl rfl
  · intro s d p hon hrun hce
    exact ⟨_, execAccEccThreshold_runs hon hrun hce, rfl, retiring_retireCore d p s⟩

end Sys2Proof
end

section
/-! SUPPORT. FENCE, SEM_SIGNAL, SEM_WAIT, TIMESTAMP and ENERGY_QUERY: what completes, and what a completing FENCE lets
start (R311, R312, R333, R418). -/

namespace Sys2Proof.Machine

/-! ### Descriptors in flight by their numbers -/

/-- A descriptor in flight is the one of its number. -/
theorem desc_of_mem {s : State} (h : FlightOk s) {y : Desc} (hy : y ∈ s.descs) : s.desc y.seq = some y := by
  have hnodup : (s.descs.map (fun x => x.seq)).Nodup := h.1.imp (fun hlt => Nat.ne_of_lt hlt)
  cases hfind : s.desc y.seq with
  | none => exact absurd (List.find?_eq_none.1 hfind y hy) (by simp)
  | some z =>
    have hseq : z.seq = y.seq := by simpa using List.find?_some hfind
    rw [List.inj_on_of_nodup_map hnodup (List.mem_of_find?_eq_some hfind) hy hseq]

theorem seq_ne_of_mem {s : State} (h : FlightOk s) {x y : Desc} (hx : x ∈ s.descs) (hy : y ∈ s.descs) (hne : y ≠ x) :
    y.seq ≠ x.seq := fun hseq =>
  hne (Option.some.inj ((desc_of_mem h hy).symm.trans (hseq ▸ desc_of_mem h hx)))

/-- The only held descriptor of those in flight. -/
theorem held_eq_singleton {s : State} (h : FlightOk s) {y : Desc} (hy : y ∈ s.descs) (hheld : y.held = true)
    (honly : ∀ z ∈ s.descs, z.held = true → z = y) : s.descs.filter (fun x => x.held) = [y] := by
  have hnodup : (s.descs.map (fun x => x.seq)).Nodup := h.1.imp (fun hlt => Nat.ne_of_lt hlt)
  refine List.perm_singleton.1 ((List.perm_ext_iff_of_nodup (hnodup.of_map.filter _) (List.nodup_singleton y)).2 fun z => ?_)
  rw [List.mem_filter, List.mem_singleton]
  exact ⟨fun hz => honly z hz.1 hz.2, by rintro rfl; exact ⟨hy, hheld⟩⟩

/-! ### What a completing FENCE lets start, R311 -/

/-- A held descriptor of a type without a start of its own is marked as started. -/
theorem startHeld_plain {s : State} {y : Desc} (hy : s.desc y.seq = some y) (hty : y.ty ∈ [0x05, 0x06, 0x07, 0x0B, 0x0E]) :
    startHeld y.seq s = s.markStarted y.seq := by
  unfold startHeld
  rw [hy]
  simp only [List.mem_cons, List.not_mem_nil, or_false] at hty
  obtain hty | hty | hty | hty | hty := hty <;> simp only [hty]

/-- With no DISPATCH waiting for its chain alone, none is decided. -/
theorem releaseChains_none {s : State} (h : s.chainWaiting = []) : releaseChains s = s := by
  unfold releaseChains
  rw [h]
  rfl

theorem chainWaiting_nil_iff {s : State} :
    s.chainWaiting = [] ↔ ∀ x ∈ s.descs, (x.ty == 0x01 && decide (x.st = .waiting) && !x.held) = false := by
  unfold State.chainWaiting
  rw [List.map_eq_nil_iff, List.filter_eq_nil_iff]
  simp only [Bool.not_eq_true]

/-- A descriptor that is marked as started waits for no chain, and the others wait as before. -/
theorem chainWaiting_markStarted {s : State} (seq : Nat) (h : s.chainWaiting = []) :
    (s.markStarted seq).chainWaiting = [] := by
  rw [chainWaiting_nil_iff] at h ⊢
  intro x hx
  obtain ⟨z, hz, rfl⟩ := List.mem_map.1 (show x ∈ (s.descs.map _) from hx)
  split
  · simp
  · exact h z hz

/-- The one held descriptor, which no FENCE covers any longer, starts. -/
theorem releaseHeld_one {s : State} {y : Desc} (hheld : s.descs.filter (fun x => x.held) = [y]) (hy : s.desc y.seq = some y)
    (hty : y.ty ∈ [0x05, 0x06, 0x07, 0x0B, 0x0E]) (hfree : s.fenceHeld y = false) (hchain : s.chainWaiting = []) :
    releaseHeld s = s.markStarted y.seq := by
  have hmem : y ∈ s.descs.filter (fun x => x.held) := by rw [hheld]; exact List.mem_singleton.2 rfl
  have hyheld : y.held = true := (List.mem_filter.1 hmem).2
  unfold releaseHeld
  simp only [hheld, List.map_cons, List.map_nil, List.foldl_cons, List.foldl_nil, hy, hyheld, hfree, Bool.not_false,
    Bool.and_self, if_true]
  rw [startHeld_plain hy hty, releaseChains_none (chainWaiting_markStarted _ hchain)]

/-- An open SILENT FENCE `x` whose completion lets the one held descriptor `y`, of a plain type, start. -/
structure FenceFrees (s : State) (x y : Desc) : Prop where
  flight : FlightOk s
  here : s.desc x.seq = some x
  isOpen : x.st ≠ .done
  silent : leAt x.bytes 1 1 % 2 = 1
  clear : Clear s (s.slotAddr x.ring x.slot + 0x38) 8
  mem : y ∈ s.descs
  ne : y ≠ x
  held : y.held = true
  only : ∀ z ∈ s.descs, z.held = true → z = y
  plain : y.ty ∈ [0x05, 0x06, 0x07, 0x0B, 0x0E]
  covers : ∀ z ∈ s.descs, fenceCovers z y.ring = true → z.seq = x.seq ∨ y.seq ≤ z.seq
  chain : s.chainWaiting = []

namespace FenceFrees

variable {s : State} {x y : Desc} (h : FenceFrees s x y)

include h

theorem seq_ne : y.seq ≠ x.seq := seq_ne_of_mem h.flight (List.mem_of_find?_eq_some h.here) h.mem h.ne

/-- The FENCE completes as a SILENT descriptor does. -/
theorem complete_frame : let t := s.complete x.seq stOk 0
    t = { s with regs := t.regs, acct := t.acct, mem := t.mem, hostMem := t.hostMem, bad := t.bad, rings := t.rings
                 descs := s.descs.filter (fun z => z.seq != x.seq) } := by
  obtain ⟨hframe, -⟩ := silent_facts s x.seq stOk 0 x h.here h.isOpen h.silent h.clear
  exact hframe

theorem complete_descs : (s.complete x.seq stOk 0).descs = s.descs.filter (fun z => z.seq != x.seq) :=
  congrArg State.descs h.complete_frame

theorem complete_desc {q : Nat} (hq : q ≠ x.seq) : (s.complete x.seq stOk 0).desc q = s.desc q := by
  unfold State.desc
  rw [h.complete_descs]
  exact find_filter_ne _ _ _ hq

theorem complete_held : (s.complete x.seq stOk 0).desc y.seq = some y :=
  (h.complete_desc h.seq_ne).trans (desc_of_mem h.flight h.mem)

/-- No FENCE that is left holds `y`. -/
theorem complete_fenceHeld : (s.complete x.seq stOk 0).fenceHeld y = false := by
  unfold State.fenceHeld
  rw [h.complete_descs, List.any_eq_false]
  intro z hz
  obtain ⟨hz, hzx⟩ := List.mem_filter.1 hz
  simp only [Bool.and_eq_true, decide_eq_true_eq, not_and]
  intro hlt hcov
  exact absurd ((h.covers z hz hcov).resolve_left (by simpa using hzx)) (Nat.not_le.2 hlt)

/-- The FENCE leaves its ring, and the held descriptor starts. -/
theorem fenceComplete_eq : fenceComplete x s = (s.complete x.seq stOk 0).markStarted y.seq := by
  refine releaseHeld_one ?_ h.complete_held h.plain h.complete_fenceHeld ?_
  · rw [h.complete_descs, List.filter_comm, held_eq_singleton h.flight h.mem h.held h.only]
    simp [h.seq_ne]
  · have hchain := chainWaiting_nil_iff.1 h.chain
    rw [chainWaiting_nil_iff, h.complete_descs]
    exact fun z hz => hchain z (List.mem_filter.1 hz).1

/-- What stands once the FENCE has completed: the FENCE is gone, the held descriptor has started now, and every other is
as it was. -/
theorem fenceComplete_settles : let t := fenceComplete x s
    t.desc x.seq = none ∧ t.desc y.seq = some { y with st := .started, held := false, time := s.now } ∧
      (∀ q, q ≠ x.seq → q ≠ y.seq → t.desc q = s.desc q) ∧
      t = { s with regs := t.regs, mem := t.mem, hostMem := t.hostMem, bad := t.bad, rings := t.rings, descs := t.descs
                   acct := t.acct } := by
  dsimp only
  rw [h.fenceComplete_eq]
  refine ⟨(modDesc_other _ h.seq_ne.symm).trans ?_, (modDesc_self _ h.complete_held).trans ?_,
    fun q hqx hqy => (modDesc_other _ hqy).trans (h.complete_desc hqx), ?_⟩
  · unfold State.desc
    rw [h.complete_descs]
    exact find_filter_gone _ _
  · rw [h.complete_frame]
  · rw [h.complete_frame]
    rfl

end FenceFrees

/-! ### Semaphores: SEM_SIGNAL and SEM_WAIT, R125, R312, R333 -/

theorem sem_complete (s : State) (seq : Nat) (st : Byte) (dt : W16) (n : CtxId) (f i : Nat) :
    (s.complete seq st dt).sem n f i = s.sem n f i := by
  unfold State.sem
  rw [complete_sems]

/-- VALUE that fits is added, and the SEM_SIGNAL completes. -/
theorem semSignalApply_fits {x : Desc} {s : State}
    (h : s.sem (ringCtx x.ring) (bits (leAt x.bytes 2 2) 10 8) (bits (leAt x.bytes 2 2) 7 0) + leAt x.bytes 0x08 4 < 2 ^ 32) :
    semSignalApply x s = (s.setSem (ringCtx x.ring) (bits (leAt x.bytes 2 2) 10 8) (bits (leAt x.bytes 2 2) 7 0)
      (s.sem (ringCtx x.ring) (bits (leAt x.bytes 2 2) 10 8) (bits (leAt x.bytes 2 2) 7 0) + leAt x.bytes 0x08 4)).complete
        x.seq stOk 0 := by
  unfold semSignalApply
  simp only [State.semAdd_fits h]

/-- VALUE that does not fit is a job fault. -/
theorem semSignalApply_overflows {x : Desc} {s : State}
    (h : 2 ^ 32 ≤ s.sem (ringCtx x.ring) (bits (leAt x.bytes 2 2) 10 8) (bits (leAt x.bytes 2 2) 7 0) + leAt x.bytes 0x08 4) :
    semSignalApply x s = s.raise causeSem (bits (leAt x.bytes 2 2) 10 8) [ringCtx x.ring] 0 := by
  unfold semSignalApply
  simp only [State.semAdd_overflows h]

/-- A SEM_WAIT that is satisfied completes, and takes VALUE from its semaphore just when CONSUME is set. -/
theorem semWaitSatisfied_sem (x : Desc) (s : State) :
    let n := ringCtx x.ring
    let d := bits (leAt x.bytes 2 2) 10 8
    let i := bits (leAt x.bytes 2 2) 7 0
    (semWaitSatisfied x s).sem n d i =
        (if bits (leAt x.bytes 1 1) 2 2 = 1 then s.sem n d i - leAt x.bytes 0x08 4 else s.sem n d i) ∧
      ∀ m e j, ¬ (m = n ∧ 256 * e + j = 256 * d + i) → (semWaitSatisfied x s).sem m e j = s.sem m e j := by
  unfold semWaitSatisfied
  dsimp only
  split
  · exact ⟨(sem_complete ..).trans (State.sem_setSem_self ..), fun m e j hother =>
      (sem_complete ..).trans (State.sem_setSem_other _ _ hother)⟩
  · exact ⟨sem_complete .., fun m e j _ => sem_complete ..⟩

theorem semWaitSatisfied_isDone (x : Desc) (s : State) : (semWaitSatisfied x s).isDone x.seq = true :=
  complete_isDone _ x.seq stOk 0

/-! ### A host write and its SILENT completion: TIMESTAMP and ENERGY_QUERY, R333 -/

theorem clear_congr {s t : State} (hb : t.bad = s.bad) (hc : t.colls = s.colls) {a n : Nat} (h : Clear s a n) : Clear t a n := by
  unfold Clear State.badPartial at h ⊢
  rwa [hb, hc]

theorem State.slotAddr_congr {s t : State} {r : RingId} (h : t.reg .hifRingBase 0 r.val 0 = s.reg .hifRingBase 0 r.val 0)
    (k : Nat) : t.slotAddr r k = s.slotAddr r k := by
  unfold State.slotAddr
  rw [h]

theorem hubWrite_host (s : State) (n : CtxId) {a : Nat} (bs : List Byte) (h : isHost a = true) :
    s.hubWrite n a bs = (s.anyWrite a bs, true) := by
  unfold State.hubWrite
  exact if_pos h

/-- Bytes written to host memory before a SILENT descriptor completes in device memory stand beside its status quadword. -/
theorem hostWrite_complete {s : State} {q : Nat} {x : Desc} (hx : s.desc q = some x) (hopen : x.st ≠ .done)
    (hsilent : leAt x.bytes 1 1 % 2 = 1) {a : Nat} (ha : isHost a = true) (hslot : isHost (s.slotAddr x.ring x.slot + 0x38) = false)
    (hclear : Clear s (s.slotAddr x.ring x.slot + 0x38) 8) (bs : List Byte) (st : Byte) (dt : W16) :
    let t := (s.anyWrite a bs).complete q st dt
    t.anyRead a bs.length = bs ∧
      t.anyRead (s.slotAddr x.ring x.slot + 0x38) 8 = toLe 8 (statusWord st dt s.now) ∧
      t = { s with regs := t.regs, acct := t.acct, mem := t.mem, hostMem := t.hostMem, bad := t.bad, rings := t.rings
                   descs := s.descs.filter (fun y => y.seq != q) } := by
  have haddr : (s.anyWrite a bs).slotAddr x.ring x.slot = s.slotAddr x.ring x.slot :=
    State.slotAddr_congr (State.reg_congr (State.anyWrite_regs ..) ..) _
  have hopened : (s.anyWrite a bs).desc q = some x := by
    unfold State.desc
    rw [State.anyWrite_descs]
    exact hx
  obtain ⟨hframe, hstatus, hdevice, -⟩ := silent_facts (s.anyWrite a bs) q st dt x hopened hopen hsilent
    (haddr ▸ clear_congr (State.anyWrite_bad ..) (State.anyWrite_colls ..) hclear)
  rw [haddr] at hstatus hdevice
  obtain ⟨hhost, -⟩ := hdevice hslot
  refine ⟨?_, by rw [hstatus, State.anyWrite_now], ?_⟩
  · conv_rhs => rw [← anyRead_write_self s a bs]
    unfold State.anyRead
    rw [ha, if_pos rfl, if_pos rfl, hhost]
  · rw [hframe, anyWrite_frame]

/-- TIMESTAMP_WRITE at a host address writes the fabric time there and completes. -/
theorem timestampWrite_host {x : Desc} (s : State) (h : isHost (leAt x.bytes 0x08 8) = true) :
    timestampWrite x s = (s.anyWrite (leAt x.bytes 0x08 8) (toLe 8 s.now)).complete x.seq stOk 0 := by
  unfold timestampWrite
  rw [hubWrite_host s _ _ h]

/-- A TIMESTAMP with no earlier open descriptor of its ring writes at once when its address is the host's. -/
theorem execTimestampWrite_host {s : State} {x : Desc} (hx : s.started x.seq 0x0E = some x)
    (hfirst : s.earlierOpen x.seq (fun y => decide (y.ring = x.ring)) = false) (h : isHost (leAt x.bytes 0x08 8) = true) :
    execTimestampWrite x.seq s =
      .next ((s.anyWrite (leAt x.bytes 0x08 8) (toLe 8 s.now)).complete x.seq stOk 0) := by
  have hside : s.sideRuns none (leAt x.bytes 0x08 8) 8 = true := by
    unfold State.sideRuns
    rw [h, Bool.true_or]
  unfold execTimestampWrite
  rw [hx]
  simp only [hfirst, hside, Bool.not_true, Bool.or_false, Bool.false_eq_true, if_false]
  rw [timestampWrite_host s h]

/-- The status quadword of an OK holds the low half of the time. -/
theorem statusWord_ok (time : Nat) : statusWord stOk 0 time = time % 2 ^ 32 := by
  simp [statusWord, stOk]

/-! ### The ledger record, R418 -/

theorem ledgerRecord_length (s : State) (n : CtxId) : (s.ledgerRecord n).length = 64 := by
  unfold State.ledgerRecord
  simp [toLe_length]

theorem ledgerRecord_congr {s t : State} (ht : t.reg .pwrLedgerTime 0 0 0 = s.reg .pwrLedgerTime 0 0 0)
    (hc : t.ctxs = s.ctxs) (hd : t.disps = s.disps) (n : CtxId) : t.ledgerRecord n = s.ledgerRecord n := by
  unfold State.ledgerRecord
  rw [ht, State.ctx_congr hc, hd]

/-- A fetch leaves the ledger's time and the places of rings alone. -/
theorem fetch_pwrLedgerTime (s : State) (r : RingId) :
    (s.fetch r).1.reg .pwrLedgerTime 0 0 0 = s.reg .pwrLedgerTime 0 0 0 := by
  refine fetch_hubReg s r (by decide) ?_ ?_ <;>
  · simp [RegId.off, RegId.row]
    omega

theorem fetch_slotAddr (s : State) (r : RingId) (k : Nat) : (s.fetch r).1.slotAddr r k = s.slotAddr r k := by
  have hr := r.isLt
  refine State.slotAddr_congr (fetch_hubReg s r ?_ ?_ ?_) k <;>
  · simp only [RegId.off, RegId.row, if_false, Bool.false_eq_true]
    omega

/-- A fetched ENERGY_QUERY as it starts. -/
def queryStarted (s : State) (r : RingId) : Desc :=
  { (s.fetch r).2 with st := .started, held := false, time := (s.fetch r).1.now }

theorem queryStarted_desc {s : State} (r : RingId) (h : FlightOk s) :
    ((s.fetch r).1.markStarted s.nextSeq).desc s.nextSeq = some (queryStarted s r) := by
  unfold State.markStarted
  rw [modDesc_self _ (fetch_desc s r h)]
  rfl

theorem energyQuery_host {s : State} {q : Nat} {x : Desc} (hx : s.desc q = some x) (h : isHost (leAt x.bytes 0x08 8) = true) :
    energyQuery q s = ((s.markStarted q).anyWrite (leAt x.bytes 0x08 8) (s.ledgerRecord (ringCtx x.ring))).complete q stOk 0 := by
  unfold energyQuery
  simp only [hx, hubWrite_host _ _ _ h]

/-- The state once a fetched ENERGY_QUERY has written its record to host memory and completed. -/
def queryAnswered (s : State) (r : RingId) : State :=
  (((s.fetch r).1.markStarted s.nextSeq).anyWrite (leAt (s.headBytes r) 0x08 8) (s.ledgerRecord (ringCtx r))).complete
    s.nextSeq stOk 0

/-- An ENERGY_QUERY whose checks pass and that no FENCE holds writes its record at its fetch and completes. -/
theorem execEnergyQuery_host {s : State} {r : RingId} (hok : FlightOk s) (hf : s.fetchable r = true)
    (hty : leAt (s.headBytes r) 0 1 = 0x0F) (hout : s.hub.outOfService = false)
    (hcheck : s.commonCheck (ringCtx r) (s.headBytes r) = none) (hfence : (s.descs.any (fun f => fenceCovers f r)) = false)
    (h : isHost (leAt (s.headBytes r) 0x08 8) = true) :
    execEnergyQuery r s = .next (queryAnswered s r) := by
  have hrecord : (s.fetch r).1.ledgerRecord (ringCtx r) = s.ledgerRecord (ringCtx r) :=
    ledgerRecord_congr (fetch_pwrLedgerTime s r) (by rw [fetch_frame]) (by rw [fetch_frame]) _
  have hpass : (s.fetch r).1.commonCheck (ringCtx r) (s.headBytes r) = none :=
    (commonCheck_noDisp s _ _ _ (by rw [hty]; decide)).trans hcheck
  unfold execEnergyQuery fetchAs
  rw [fetchThen_pass s r _ _ _ _ hf (by simp [tyIs, hty]) hout hpass rfl]
  simp only [fetch_open s r hok, fenceHeld_fetch s r hok, hfence, Bool.false_eq_true, if_false]
  rw [energyQuery_host (fetch_desc s r hok) h]
  exact congrArg (fun bs => Host.Outcome.next ((((s.fetch r).1.markStarted s.nextSeq).anyWrite
    (leAt (s.headBytes r) 0x08 8) bs).complete s.nextSeq stOk 0)) hrecord

/-- Of what it reads, a fetch and the start of what it fetched change these parts only. -/
theorem markStarted_fetch (s : State) (r : RingId) :
    let u := s.jobRead (ringCtx r) none (s.slotAddr r (s.headSlot r)) 64
    let v := (s.fetch r).1.markStarted s.nextSeq
    v = { u with regs := v.regs, rings := v.rings, descs := v.descs, nextSeq := v.nextSeq, arb := v.arb } := by
  intro u v
  have hv : v = (s.fetch r).1.markStarted s.nextSeq := rfl
  rw [fetch_eq] at hv
  change v = State.markStarted { State.modRing (State.setRegFld (State.setReg u _ _ _ _ _) _ _ _ _ _ _ _) _ _ with
    descs := _, nextSeq := _, arb := _ } _ at hv
  clear_value u v
  rw [hv]
  rfl

/-- A fetched descriptor that has left the ring leaves those in flight as they were. -/
theorem fetched_gone {s : State} (r : RingId) (h : FlightOk s) :
    ((s.fetch r).1.markStarted s.nextSeq).descs.filter (fun y => y.seq != s.nextSeq) = s.descs := by
  unfold State.markStarted
  rw [fetch_mod s r _ h, List.filter_append, List.filter_eq_self.2 (fun y hy => ?_)]
  · simp
  · have := h.2.1 y hy
    simp only [bne_iff_ne]
    omega

/-- What stands once a fetched SILENT ENERGY_QUERY has completed: its record in host memory, and of the rest what the fetch
counts and what a status quadword changes. -/
theorem queryAnswered_settles {s : State} {r : RingId} (hok : FlightOk s) (hsilent : leAt (s.headBytes r) 1 1 % 2 = 1)
    (hhost : isHost (leAt (s.headBytes r) 0x08 8) = true) (hslot : isHost (s.slotAddr r (s.headSlot r) + 0x38) = false)
    (hclear : Clear s (s.slotAddr r (s.headSlot r) + 0x38) 8) :
    let u := s.jobRead (ringCtx r) none (s.slotAddr r (s.headSlot r)) 64
    let t := queryAnswered s r
    t.descs = s.descs ∧ t.nextSeq = s.nextSeq + 1 ∧
      t.anyRead (leAt (s.headBytes r) 0x08 8) 64 = s.ledgerRecord (ringCtx r) ∧
      t = { u with regs := t.regs, mem := t.mem, hostMem := t.hostMem, bad := t.bad, rings := t.rings, nextSeq := t.nextSeq
                   arb := t.arb, acct := t.acct } := by
  intro u t
  have haddr : ((s.fetch r).1.markStarted s.nextSeq).slotAddr r (s.headSlot r) = s.slotAddr r (s.headSlot r) :=
    fetch_slotAddr s r _
  have hclear' : Clear ((s.fetch r).1.markStarted s.nextSeq) (s.slotAddr r (s.headSlot r) + 0x38) 8 :=
    clear_congr (s := s) (by unfold State.markStarted State.modDesc; rw [fetch_frame])
      (by unfold State.markStarted State.modDesc; rw [fetch_frame]) hclear
  obtain ⟨hread, -, hframe⟩ := hostWrite_complete (queryStarted_desc r hok) DescSt.noConfusion hsilent hhost
    (haddr ▸ hslot) (haddr ▸ hclear') (s.ledgerRecord (ringCtx r)) stOk 0
  rw [ledgerRecord_length] at hread
  change t = _ at hframe
  rw [fetched_gone r hok] at hframe
  refine ⟨by rw [hframe], ?_, hread, ?_⟩
  · rw [hframe]
    exact congrArg State.nextSeq (fetch_frame s r)
  · have hsame := markStarted_fetch s r
    have hdescs : u.descs = s.descs := State.jobRead_descs ..
    change _ = ({ u with regs := _, rings := _, descs := _, nextSeq := _, arb := _ } : State) at hsame
    generalize (s.fetch r).1.markStarted s.nextSeq = v at hframe hsame
    clear_value t u
    rw [hframe, hsame, ← hdescs]

end Sys2Proof.Machine
end

section
/-! PROOFS. FencesAndSemaphores. -/

namespace Sys2Proof

open Machine

/-- Settles O27: a FENCE by the one descriptor it held, the semaphore descriptors by what they read and set, and a
TIMESTAMP and an ENERGY_QUERY by their host write, which the status quadword in device memory leaves alone. -/
theorem fencesAndSemaphores : Obligations.FencesAndSemaphores := by
  unfold Obligations.FencesAndSemaphores
  refine ⟨?_, ?_, ?_, ?_, ?_⟩
  · intro s seq x y hok hstart hdone hsilent hy hne hheld hty honly hcover hchain hclear
    obtain ⟨hx, hst, -⟩ := started_some hstart
    obtain rfl : x.seq = seq := by simpa using List.find?_some hx
    have hfence : FenceFrees s x y :=
      ⟨hok, hx, by rw [hst]; decide, hsilent, hclear, hy, hne, hheld, honly, hty, hcover, hchain⟩
    refine ⟨fenceComplete x s, ?_, hfence.fenceComplete_settles⟩
    show execFenceComplete x.seq s = _
    unfold execFenceComplete
    simp only [hstart, hdone, if_true]
  · intro s seq x hstart hdone n d i v
    obtain ⟨hx, -, -⟩ := started_some hstart
    obtain rfl : x.seq = seq := by simpa using List.find?_some hx
    have hexec : exec (.semSignalApply x.seq) s =
        .next (if s.coveredDone x && s.semUp x then semSignalApply x s else s) := by
      show execSemSignalApply x.seq s = _
      unfold execSemSignalApply
      rw [hstart]
    rw [hdone, Bool.true_and] at hexec
    refine ⟨fun hdown => ?_, fun hup => ⟨fun hfits => ?_, fun hover => ?_⟩⟩
    · rw [hexec, if_neg (by rw [State.semUp, hdown]; decide)]
    · refine ⟨semSignalApply x s, by rw [hexec, if_pos (show s.semUp x = true from hup)], ?_⟩
      rw [semSignalApply_fits hfits]
      exact ⟨complete_isDone .., (sem_complete ..).trans (State.sem_setSem_self ..), fun m e j hother =>
        (sem_complete ..).trans (State.sem_setSem_other _ _ hother)⟩
    · rw [hexec, if_pos (show s.semUp x = true from hup), semSignalApply_overflows hover,
        State.raise_die s _ (bits_ten_eight_lt _)]
      rfl
  · intro s seq x hstart n d i v hat hup
    obtain ⟨hx, -, -⟩ := started_some hstart
    obtain rfl : x.seq = seq := by simpa using List.find?_some hx
    obtain ⟨hsem, hother⟩ := semWaitSatisfied_sem x s
    refine ⟨semWaitSatisfied x s, ?_, semWaitSatisfied_isDone x s, hsem, hother⟩
    show execSemWaitSatisfied x.seq s = _
    unfold execSemWaitSatisfied
    simp only [hstart]
    rw [if_pos ⟨hat, hup⟩]
  · intro s seq x hstart hfirst hsilent hhost hslot hclear
    obtain ⟨hx, hst, -⟩ := started_some hstart
    obtain rfl : x.seq = seq := by simpa using List.find?_some hx
    obtain ⟨hread, hstatus, hframe⟩ :=
      hostWrite_complete hx (by rw [hst]; decide) hsilent hhost hslot hclear (toLe 8 s.now) stOk 0
    refine ⟨_, execTimestampWrite_host hstart hfirst hhost, ?_, hread, by rw [hstatus, statusWord_ok], ?_⟩
    · rw [hframe]
      exact find_filter_gone _ _
    · conv_lhs => rw [hframe]
      rw [hframe]
  · intro s r hok hf hty hout hcheck hfence hsilent hhost hslot hclear
    exact ⟨_, queryAnswered s r, jobRead_counted .., execEnergyQuery_host hok hf hty hout hcheck hfence hhost,
      queryAnswered_settles hok hsilent hhost hslot hclear⟩

end Sys2Proof
end

section
/-! SUPPORT. A view of the state that stands from one state to another: the relation that the facts about queues, dies,
DISPATCHes and saved states share. -/

namespace Sys2Proof.Machine

/-- From `s` to `t` a view of the state stands. -/
structure Same {β : Type} (p : State → β) (s t : State) : Prop where
  same : p t = p s

namespace Same

variable {α β γ : Type} {p : State → β} {s t u : State}

theorem app {p : State → γ → β} (h : Same p s t) (a : γ) : p t a = p s a := congrFun h.same a

theorem refl (s : State) : Same p s s := ⟨rfl⟩

theorem trans (h : Same p s t) (k : Same p t u) : Same p s u := ⟨k.same.trans h.same⟩

theorem ite {c : Prop} [Decidable c] (ht : Same p s t) (hu : Same p s u) : Same p s (if c then t else u) := by
  split <;> assumption

theorem foldl (l : List α) {f : State → α → State} (s : State) (h : ∀ t a, Same p t (f t a)) : Same p s (l.foldl f s) :=
  ⟨foldl_same p l f s fun t a => (h t a).same⟩

end Same

end Sys2Proof.Machine
end

section
/-! SUPPORT. Steps that leave the records of every core where they are, among them all that a RACC sets off: its lines at
their combining controllers, and what comes of the CONTRIBs that these send to the module itself (R228 to R245). -/

namespace Sys2Proof.Machine

/-- The records of each core. -/
def State.queues (s : State) (d : Die) (p : PCore) : List Placed := (s.core d p).queue

/-- From `s` to `t` every core keeps its records. -/
abbrev SameQueues : State → State → Prop := Same State.queues

namespace SameQueues

variable {s t : State}

theorem queue (h : SameQueues s t) (d : Die) (p : PCore) : (t.core d p).queue = (s.core d p).queue :=
  congrFun (h.app d) p

theorem of_cores (h : t.cores = s.cores) : SameQueues s t :=
  ⟨funext fun d => funext fun p => by rw [State.queues, State.core_congr h]; rfl⟩

theorem of_within {ps : List Part} (h : Within ps s t) (hc : ps.contains .cores = false) : SameQueues s t :=
  of_cores (h.cores hc)

theorem of_counted (h : Counted s t) : SameQueues s t :=
  ⟨funext fun d => funext fun p => by rw [State.queues, h.core d p]; rfl⟩

theorem modCore {d : Die} {p : PCore} {f : Core → Core} (h : ∀ k, (f k).queue = k.queue) : SameQueues s (s.modCore d p f) := by
  refine ⟨funext fun e => funext fun q => ?_⟩
  by_cases he : (e, q) = (d, p)
  · obtain ⟨rfl, rfl⟩ := Prod.mk.inj he
    rw [State.queues, State.modCore_self, h]
    rfl
  · rw [State.queues, State.modCore_other _ _ he]
    rfl

theorem stands {e : Env} (h : SameQueues s t) (hnow : t.now = s.now) (hs : Stands e s) : Stands e t := by
  unfold Stands at hs ⊢
  rwa [h.queue, hnow]

end SameQueues

/-! ### Reads and writes of a collective -/

variable (s : State)

theorem collRead_sameQueues (n : CtxId) (a len : Nat) : SameQueues s (s.collRead n a len).1 := by
  unfold State.collRead
  split
  · exact SameQueues.of_cores rfl
  · exact SameQueues.of_counted (jobRead_counted ..)

theorem collWrite_sameQueues (n : CtxId) (a : Nat) (bs : List Byte) : SameQueues s (s.collWrite n a bs) :=
  SameQueues.of_within (State.collWrite_keeps (ps := [.reports, .acct, .regs, .bad, .mem]) rfl (Keeps.refl _ s)).rest rfl

theorem scaleByte_sameQueues (c : Coll) (k u : Nat) : SameQueues s (c.scaleByte k u s).1 := by
  have hread := collRead_sameQueues s c.ctx (bkScaleArr c.block k + u) 1
  unfold Coll.scaleByte
  split <;> rename_i heq <;> rwa [heq] at hread

theorem tell_sameQueues {eff : Packet → State → State} (pkt : Packet) (h : ∀ t, SameQueues t (eff pkt t)) :
    SameQueues s (s.tell eff pkt) :=
  .ite (h s) (SameQueues.of_within (State.sendPacket_keeps (ps := [.acct, .regs, .out, .hub]) rfl (Keeps.refl _ s)).rest rfl)

theorem countBytes_sameQueues (w : Bool) (a len : Nat) : SameQueues s (s.countBytes w a len) :=
  SameQueues.of_within (State.countBytes_keeps (ps := [.regs, .acct]) rfl (Keeps.refl _ s)).rest rfl

theorem bump_sameQueues (r : RegId) (d i k : Nat) : SameQueues s (s.bump r d i k) := SameQueues.of_cores rfl

theorem modColl_sameQueues (seq : Nat) (f : Coll → Coll) : SameQueues s (s.modColl seq f) := SameQueues.of_cores rfl

/-! ### Units served to ranks, R243 to R245 -/

theorem shardNote_sameQueues (pkt : Packet) : SameQueues s (shardNote pkt s) :=
  SameQueues.of_within (shardNote_keeps (ps := [.reports, .acct, .regs, .bad, .mem, .colls]) rfl (Keeps.refl _ s)).rest rfl

theorem unitScale_sameQueues (c : Coll) (u : Nat) : SameQueues s (unitScale c u s).1 := by
  unfold unitScale
  split
  · exact scaleByte_sameQueues ..
  · exact .refl s

theorem unitData_sameQueues (c : Coll) (u : Nat) : SameQueues s (unitData c u s).1 := by
  unfold unitData
  dsimp only
  split
  · exact .refl s
  · exact collRead_sameQueues ..

theorem serveUnit_sameQueues (c : Coll) (r u : Nat) : SameQueues s (serveUnit c r u s) := by
  have hscale := unitScale_sameQueues s c u
  unfold serveUnit
  split <;> rename_i t _ heq <;> rw [heq] at hscale
  · exact hscale
  · have hdata := unitData_sameQueues t c u
    split <;> rename_i heq' <;> rw [heq'] at hdata
    · exact hscale.trans hdata
    · exact (hscale.trans hdata).trans (.foldl _ _ fun v k => tell_sameQueues v _ fun w => shardNote_sameQueues w _)

theorem serveRank_sameQueues (seq r : Nat) : SameQueues s (serveRank seq r s) := by
  unfold serveRank
  split
  · exact .refl s
  · have harm : ∀ c, SameQueues s ((s.modColl seq (fun c => { c with served := c.served ++ [r] })).useArm c r) :=
      fun _ => SameQueues.of_cores rfl
    exact .ite ((harm _).trans (.foldl _ _ fun v k => serveUnit_sameQueues v ..)) (harm _)

theorem serveWaiting_sameQueues (seq : Nat) : SameQueues s (serveWaiting seq s) := by
  unfold serveWaiting
  split
  · exact .refl s
  · exact .foldl _ _ fun v r => serveRank_sameQueues v seq r

/-! ### The owner role, R235 to R239 -/

theorem writeScales_sameQueues (c : Coll) : SameQueues s (writeScales c s) := by
  unfold writeScales
  refine .ite (.foldl _ _ fun v k => ?_) (.refl s)
  have hscale := scaleByte_sameQueues v c (bkStep c.block) (c.first (bkOwnRank c.block) + k)
  dsimp only
  split <;> rename_i heq <;> rw [heq] at hscale
  · exact hscale
  · exact hscale.trans (collWrite_sameQueues ..)

theorem countCopy_sameQueues (c : Coll) (r : RegId) (key : Nat) : SameQueues s (c.countCopy r key s) :=
  SameQueues.of_within (Coll.countCopy_keeps (ps := [.regs]) rfl (Keeps.refl _ s)).rest rfl

theorem ownerEnd_sameQueues (seq : Nat) (timedOut : Bool) : SameQueues s (ownerEnd seq timedOut s) := by
  unfold ownerEnd
  split
  · exact .refl s
  · rename_i c _
    have hcount : SameQueues s (c.lateCopies.foldl (fun s key => c.countCopy .mcRedLate key s) (writeScales c s)) :=
      (writeScales_sameQueues s c).trans (.foldl _ _ fun v key => countCopy_sameQueues v ..)
    exact .ite (hcount.trans ((modColl_sameQueues ..).trans (serveWaiting_sameQueues ..))) (hcount.trans (modColl_sameQueues ..))

theorem addInto_sameQueues (x : CtxId) (src dst n : Nat) (ce : List Nat) : SameQueues s (addInto x src dst n ce s) := by
  have hcount : SameQueues s (((s.countBytes false src (8 * n)).chargeRuns x none [(src, 8 * n), (dst, 8 * n)]).countCes
      [(src, 8 * n), (dst, 8 * n)] ce) :=
    ((SameQueues.of_counted (countBytes_counted ..)).trans (SameQueues.of_within (chargeRuns_within ..) rfl)).trans
      (SameQueues.of_counted (countCes_counted ..))
  unfold addInto
  dsimp only
  split
  · exact hcount.trans (SameQueues.of_cores rfl)
  · refine (hcount.trans ?_).trans (countBytes_sameQueues ..)
    exact .foldl _ _ fun v k => SameQueues.of_cores rfl

theorem traceRec_sameQueues (src unit kind ctx : Nat) (data : List Byte) : SameQueues s (s.traceRec src unit kind ctx data) :=
  SameQueues.of_cores (State.traceRec_cores ..)

theorem commitOne_sameQueues (c : Coll) (copy : Nat) (ce : List Nat) : SameQueues s (commitOne c copy ce s) := by
  unfold commitOne
  exact ((Same.ite (.refl s) (addInto_sameQueues ..)).trans (modColl_sameQueues ..)).trans (traceRec_sameQueues ..)

theorem commitRun_sameQueues (seq : Nat) (ce : List Nat) (k : Nat) : SameQueues s (commitRun seq ce k s) := by
  induction k generalizing s with
  | zero => exact .refl s
  | succ k ih =>
    unfold commitRun
    split
    · exact .refl s
    · refine .ite (ownerEnd_sameQueues ..) ?_
      split
      · exact .refl s
      · exact (commitOne_sameQueues ..).trans (ih _)

theorem copyComplete_sameQueues (c : Coll) (key : Nat) (ce : List Nat) : SameQueues s (copyComplete c key ce s) :=
  .ite ((modColl_sameQueues ..).trans (countCopy_sameQueues ..)) ((modColl_sameQueues ..).trans (commitRun_sameQueues ..))

/-! ### CONTRIB, R235 -/

theorem addValues_sameQueues (x : CtxId) (a : Nat) (vals ce : List Nat) : SameQueues s (addValues x a vals ce s) := by
  have hcount : SameQueues s ((s.chargeBytes x none a 128).readCe a 128 ce) :=
    (SameQueues.of_counted (chargeBytes_counted ..)).trans (SameQueues.of_counted (countCes_counted ..))
  unfold addValues
  dsimp only
  split
  · exact hcount.trans (SameQueues.of_cores rfl)
  · refine ((hcount.trans ?_).trans (countBytes_sameQueues ..)).trans (bump_sameQueues ..)
    exact .foldl _ _ fun v k => SameQueues.of_cores rfl

theorem addContrib_sameQueues (c : Coll) (key : Nat) (pkt : Packet) (ce : List Nat) :
    SameQueues s (addContrib c key pkt ce s) := by
  unfold addContrib
  exact .ite (modColl_sameQueues ..) ((Same.ite (addValues_sameQueues ..) (.refl s)).trans (modColl_sameQueues ..))

theorem noteCopy_sameQueues (seq key ctrl : Nat) (ce : List Nat) (f : Coll → Coll) :
    SameQueues s (noteCopy seq key ctrl ce f s) := by
  unfold noteCopy
  dsimp only
  split
  · exact modColl_sameQueues ..
  · exact .ite ((modColl_sameQueues ..).trans (copyComplete_sameQueues ..)) (modColl_sameQueues ..)

theorem contribNote_sameQueues (ce : List Nat) (pkt : Packet) : SameQueues s (contribNote ce pkt s) := by
  unfold contribNote
  dsimp only
  split
  · exact SameQueues.of_cores rfl
  · split
    · exact SameQueues.of_cores rfl
    · exact (addContrib_sameQueues ..).trans (noteCopy_sameQueues ..)

/-! ### RACC, R228 to R233 -/

theorem flushEntry_sameQueues (z : Comb) : SameQueues s (flushEntry z s) := by
  unfold flushEntry
  dsimp only
  split
  · exact SameQueues.of_cores rfl
  · refine Same.trans ?_ (tell_sameQueues _ _ fun t => contribNote_sameQueues t ..)
    exact SameQueues.of_cores rfl

theorem combine_sameQueues (c : Coll) (owner line : Nat) (e : Int) (cells : List (Nat × Int)) :
    SameQueues s (combine c owner line e cells s) := by
  unfold combine
  extract_lets k isIt full room placed scaled added counted
  clear_value full
  have hroom : SameQueues s room := by
    cases full with
    | nil => exact .refl s
    | cons z _ => exact .ite ((bump_sameQueues ..).trans (flushEntry_sameQueues ..)) (.refl s)
  have hplaced : SameQueues s placed := .ite (.refl s) (hroom.trans (SameQueues.of_cores rfl))
  have hcounted : SameQueues s counted := hplaced.trans (SameQueues.of_cores rfl)
  clear_value counted
  split
  · exact .ite (hcounted.trans ((bump_sameQueues ..).trans (flushEntry_sameQueues ..))) hcounted
  · exact hcounted

theorem addLine_sameQueues (c : Coll) (owner line : Nat) (cells : List (Nat × Int)) :
    SameQueues s (addLine c owner line cells s) := by
  unfold addLine
  refine .ite (combine_sameQueues ..) ?_
  have hscale := scaleByte_sameQueues s c (bkStep c.block) (16 * line / 4096)
  split <;> rename_i heq <;> rw [heq] at hscale
  · exact hscale.trans (combine_sameQueues ..)
  · exact hscale

theorem raccEffect_sameQueues (e : Env) : SameQueues s (raccEffect e s) := by
  unfold raccEffect
  refine .ite (.refl s) ?_
  split
  · exact .refl s
  · refine .ite (SameQueues.of_cores rfl) (.ite (Same.trans (.foldl _ _ fun t x => addLine_sameQueues t ..) (SameQueues.of_cores rfl))
      (modColl_sameQueues ..))

end Sys2Proof.Machine
end

section
/-! SUPPORT. MovesBetweenCores: a receive grants its credit, a send uses it up, and a RACC keeps the records of its core. -/

namespace Sys2Proof.Machine

/-- A record command runs the candidate of its unit that is of its opcode and may issue. -/
theorem runOn_issues {u : UnitK} {op : Nat} {ok : Nat → Bool} {d : Die} {c : LCore} {recv : Bool} {s : State} {e : Env}
    (eff : Env → State → State) (ev : RecEv) (h : s.candidate d c u recv = some e) (hop : e.x.op = op) (hok : ok e.r = true)
    (hmay : s.mayIssue e = true) : runOn u op ok eff d c ev s recv = runIssued eff e ev (s.markIssued e) := by
  unfold runOn
  simp [h, hop, hok, hmay]

/-- A record that issues with nothing befalling it takes its effect. -/
theorem runOn_clean {u : UnitK} {op : Nat} {ok : Nat → Bool} {d : Die} {c : LCore} {recv : Bool} {s : State} {e : Env}
    (eff : Env → State → State) (h : s.candidate d c u recv = some e) (hop : e.x.op = op) (hok : ok e.r = true)
    (hmay : s.mayIssue e = true)
    (hbad : badMet (coreBase e.d.val e.p.val) (s.core e.d e.p).badLines ((s.markIssued e).recReads e) = none) :
    runOn u op ok eff d c {} s recv = effClear eff e (s.markIssued e) := by
  rw [runOn_issues eff {} h hop hok hmay, runIssued_clean (by rwa [State.markIssued_badLines])]

theorem stands_modPlaced {e : Env} {s : State} {d : Die} {p : PCore} {pos : Nat} {f : Placed → Placed}
    (hf : ∀ x, (f x).pos = x.pos ∧ (f x).st = x.st ∧ (f x).issuedAt = x.issuedAt) (h : Stands e s) :
    Stands e (s.modPlaced d p pos f) := by
  intro x hx hpos
  by_cases hp : (e.d, e.p) = (d, p)
  · obtain ⟨rfl, rfl⟩ := Prod.mk.inj hp
    rw [State.modPlaced_core] at hx
    obtain ⟨z, hz, rfl⟩ := List.mem_map.1 hx
    obtain ⟨hfpos, hfst, hfat⟩ := hf z
    by_cases hat : (z.pos == pos) = true
    · simp only [hat, if_true] at hpos ⊢
      rw [hfst, hfat]
      exact h z hz (hfpos ▸ hpos)
    · simp only [hat, Bool.false_eq_true, if_false] at hpos ⊢
      exact h z hz hpos
  · rw [State.modPlaced_other _ _ _ hp] at hx
    exact h x hx hpos

/-! ### Receiving, R122 -/

theorem recv_of_isReceive {e : Env} (hop : e.x.op = opROT ∨ e.x.op = opHALO) (h : isReceive e.r = true) : e.x.recv = true := by
  unfold isReceive Env.r at h
  unfold Placed.recv
  obtain hop | hop := hop <;> simp [hop, h]

/-- A receive clears no lines: what it writes comes with its send. -/
theorem effClear_receive {e : Env} (s : State) (h : e.x.recv = true) : effClear receiveEffect e s = receiveEffect e s := by
  unfold effClear
  simp [h]

theorem receiveEffect_credits (e : Env) (s : State) : (receiveEffect e s).credits = s.credits ++
    [{ op := e.x.op, seq := e.x.seq, rDie := e.d, rStream := e.x.stream
       sDie := ⟨rPeerDie e.r % 8, Nat.mod_lt _ (by decide)⟩, sStream := rPeer e.r, pos := e.x.pos }] := rfl

theorem receiveEffect_stands {e : Env} {s : State} (h : Stands e s) : Stands e (receiveEffect e s) :=
  stands_congr (stands_modPlaced (d := e.d) (p := e.p) (pos := e.x.pos) (f := fun x => { x with data := false })
    (fun _ => ⟨rfl, rfl, rfl⟩) h) rfl rfl

/-- A receive waits for its data. -/
theorem receiveEffect_data {e : Env} {s : State} {x : Placed} (hx : x ∈ ((receiveEffect e s).core e.d e.p).queue)
    (hpos : x.pos = e.x.pos) : x.data = false := by
  obtain ⟨z, -, -, rfl⟩ := State.modPlaced_at (s := s) (f := fun x => { x with data := false }) hx hpos
  rfl

theorem receive_within (e : Env) (s : State) :
    Within [.free, .regs, .mem, .bad, .cores, .credits, .trcSeq, .trcDrop, .trcTok, .acct] s
      (receiveEffect e (s.markIssued e)) :=
  (receiveEffect_keeps rfl (State.markIssued_keeps rfl (Keeps.refl _ s))).rest

/-! ### Sending, R122 -/

/-- Issuing a record leaves every record of every core at its place, of its DISPATCH. -/
theorem markIssued_queue (s : State) (e : Env) (d : Die) (p : PCore) : ∃ g : Placed → Placed,
    (∀ x, (g x).pos = x.pos ∧ (g x).seq = x.seq) ∧
      (s.markIssued e).core d p = { s.core d p with queue := (s.core d p).queue.map g } := by
  by_cases hp : (d, p) = (e.d, e.p)
  · obtain ⟨rfl, rfl⟩ := Prod.mk.inj hp
    refine ⟨_, fun x => ?_, s.markIssued_core e⟩
    split <;> exact ⟨rfl, rfl⟩
  · exact ⟨id, fun _ => ⟨rfl, rfl⟩, by rw [s.markIssued_other e hp, List.map_id]⟩

theorem markIssued_phys (s : State) (e : Env) (d : Die) (c : LCore) : (s.markIssued e).phys d c = s.phys d c := by
  unfold State.phys
  congr 1
  funext p
  obtain ⟨g, -, hg⟩ := markIssued_queue s e d p
  rw [hg]

/-- What is found at a place of a stream's core. -/
theorem recordAt_some {s : State} {d : Die} {stream seq pos : Nat} {f : Env} (h : s.recordAt d stream seq pos = some f) :
    f.d = d ∧ f.x.pos = pos ∧ ∃ c, streamCore stream = some c ∧ s.phys d c = some f.p ∧
      (s.core d f.p).queue.find? (fun x => x.pos == pos && x.seq == seq) = some f.x ∧ s.envOf d f.p f.x = some f := by
  unfold State.recordAt at h
  split at h
  · cases h
  · rename_i c hc
    split at h
    · cases h
    · rename_i p hp
      split at h
      · cases h
      · rename_i x hx
        obtain ⟨rfl, rfl, rfl⟩ := State.envOf_eq_some h
        have hat := List.find?_some hx
        simp only [Bool.and_eq_true, beq_iff_eq] at hat
        exact ⟨rfl, hat.1, c, hc, hp, hx, h⟩

/-- While a record issues, the record at a place stays there. -/
theorem recordAt_markIssued {s : State} (e : Env) {d : Die} {stream seq pos : Nat} {f : Env}
    (h : s.recordAt d stream seq pos = some f) :
    ∃ g, (s.markIssued e).recordAt d stream seq pos = some g ∧ g.d = f.d ∧ g.p = f.p ∧ g.x.pos = f.x.pos := by
  obtain ⟨hd, hpos, c, hc, hp, hx, henv⟩ := recordAt_some h
  obtain ⟨m, hm, hcore⟩ := markIssued_queue s e d f.p
  obtain ⟨y, hy, -⟩ := Option.map_eq_some_iff.1 henv
  have hdisp : (s.markIssued e).disp (m f.x).seq = some y := by
    unfold State.disp
    rw [(s.markIssued_within e).disps rfl, (hm f.x).2]
    exact hy
  have hfound : ((s.markIssued e).core d f.p).queue.find? (fun x => x.pos == pos && x.seq == seq) = some (m f.x) := by
    rw [hcore, List.find?_map]
    have hsame : ((fun x : Placed => x.pos == pos && x.seq == seq) ∘ m) = fun x => x.pos == pos && x.seq == seq := by
      funext x
      simp only [Function.comp, (hm x).1, (hm x).2]
    rw [hsame, hx]
    rfl
  refine ⟨{ d, p := f.p, x := m f.x, y }, ?_, hd.symm, rfl, (hm f.x).1⟩
  unfold State.recordAt
  simp only [hc, markIssued_phys, hp, hfound, State.envOf, hdisp, Option.map_some]

theorem creditOf_congr {s t : State} (h : t.credits = s.credits) (e : Env) : t.creditOf e = s.creditOf e := by
  unfold State.creditOf
  rw [h]

theorem clearLines_sameQueues (s : State) (d : Die) (p : PCore) (runs : List (Nat × Nat)) :
    SameQueues s (s.clearLines d p runs) := .ite (.refl s) (SameQueues.modCore fun _ => rfl)

theorem clearSlots_sameQueues (s : State) (e : Env) (l : Loc) (first r c : Nat) :
    SameQueues s (s.clearSlots e l first r c) := by
  unfold State.clearSlots State.putSlotFlags
  dsimp only
  exact .ite (SameQueues.modCore fun _ => rfl) (.refl s)

theorem countMove_sameQueues (s : State) (d : Die) (n : Nat) : SameQueues s (s.countMove d n) := SameQueues.of_cores rfl

theorem moveMat_sameQueues (s : State) (src dst : Loc) (r c : Nat) : SameQueues s (s.moveMat src dst r c) :=
  SameQueues.of_within (State.moveMat_keeps (ps := [.mem, .bad]) rfl (Keeps.refl _ s)).rest rfl

theorem effClear_sameQueues {eff : Env → State → State} {e : Env} {s : State} (h : SameQueues s (eff e s)) :
    SameQueues s (effClear eff e s) := .ite (h.trans (clearLines_sameQueues ..)) h

/-- A send's data move into the receiver's destination, the receiver's record has its data, and the credit is used up. -/
theorem sendEffect_eq {e f : Env} {k : Credit} {s : State} (hk : s.creditOf e = some k)
    (hf : s.recordAt k.rDie k.rStream k.seq k.pos = some f) : ∃ u, SameQueues s u ∧
      Within [.mem, .bad, .dies, .cores] s u ∧
      sendEffect e s = { u.modPlaced f.d f.p f.x.pos (fun x => { x with data := true }) with credits := u.credits.erase k } := by
  unfold sendEffect
  rw [hk]
  dsimp only
  rw [hf]
  refine ⟨_, ?_, ?_, rfl⟩
  · refine .ite ?_ (Same.trans ?_ (clearSlots_sameQueues ..)) <;>
    · exact .ite (.refl s) (((moveMat_sameQueues ..).trans (countMove_sameQueues ..)).trans (clearLines_sameQueues ..))
  · refine (Keeps.ite ?_ (State.clearSlots_keeps rfl ?_)).rest <;>
    · exact Keeps.ite (Keeps.refl _ s)
        (State.clearLines_keeps rfl (State.countMove_keeps rfl (State.moveMat_keeps rfl (Keeps.refl _ s))))

section Send

variable {e f : Env} {k : Credit} {s : State} (hk : s.creditOf e = some k)
  (hf : s.recordAt k.rDie k.rStream k.seq k.pos = some f)

include hk hf

/-- A send that issues with its credit: the credit is used up, the record stands, its receiver has its data, and nothing
is reported. -/
theorem send_settles : let t := effClear sendEffect e (s.markIssued e)
    t.credits = s.credits.erase k ∧ Stands e t ∧
      (∀ x ∈ (t.core f.d f.p).queue, x.pos = f.x.pos → x.data = true) ∧ t.reports = s.reports ∧ t.disps = s.disps := by
  intro t
  obtain ⟨g, hg, hd, hp, hpos⟩ := recordAt_markIssued e hf
  have hmark := s.markIssued_within e
  obtain ⟨u, hqueues, hu, hsend⟩ := sendEffect_eq ((creditOf_congr (hmark.credits rfl) e).trans hk) hg
  rw [hd, hp, hpos] at hsend
  have hclear : SameQueues (sendEffect e (s.markIssued e)) t := .ite (clearLines_sameQueues ..) (.refl _)
  have hrest : Within [.cores] (sendEffect e (s.markIssued e)) t :=
    (Keeps.ite (State.clearLines_keeps rfl (Keeps.refl _ _)) (Keeps.refl _ _)).rest
  have hsent : Stands e (sendEffect e (s.markIssued e)) := by
    rw [hsend]
    exact stands_congr (stands_modPlaced (d := f.d) (p := f.p) (pos := f.x.pos) (f := fun x => { x with data := true })
      (fun _ => ⟨rfl, rfl, rfl⟩) (hqueues.stands (hu.now rfl) (stands_markIssued s e))) rfl rfl
  refine ⟨?_, hclear.stands (hrest.now rfl) hsent, fun x hx hat => ?_, ?_, ?_⟩
  · rw [hrest.credits rfl, hsend]
    show u.credits.erase k = _
    rw [hu.credits rfl, hmark.credits rfl]
  · rw [hclear.queue, hsend] at hx
    obtain ⟨z, -, -, rfl⟩ := State.modPlaced_at (s := u) (f := fun x => { x with data := true }) hx hat
    rfl
  · rw [hrest.reports rfl, hsend]
    exact (hu.reports rfl).trans (hmark.reports rfl)
  · rw [hrest.disps rfl, hsend]
    exact (hu.disps rfl).trans (hmark.disps rfl)

theorem sendOpen_of_clocks (hcore : s.clockRuns f.d (islCore f.p) = true)
    (hpath : s.pathRuns (s.diePath e.d.val f.d.val) = true) : s.sendOpen e = true := by
  unfold State.sendOpen
  simp only [hk, hf, hcore, hpath, Bool.and_self]

end Send

/-- A send that may issue, open to its receiver, takes its effect. -/
theorem runSend_clean {op : Nat} {d : Die} {c : LCore} {s : State} {e : Env} (hu : unitOf op = .move)
    (h : Issues s d c op isSend e) (hopen : s.sendOpen e = true) :
    runSend op d c {} s = effClear sendEffect e (s.markIssued e) := by
  obtain ⟨hcand, hop, hok, hmay, hbad⟩ := h
  rw [hu] at hcand
  unfold runSend
  rw [hcand]
  simp only [hopen, if_true]
  exact runOn_clean sendEffect hcand hop hok hmay hbad

/-! ### RACC, R228 -/

theorem raccEffect_stands {e : Env} {s : State} (h : Stands e s) : Stands e (effClear raccEffect e s) := by
  refine SameQueues.stands (effClear_sameQueues (raccEffect_sameQueues s e)) ?_ h
  exact (effClear_keeps (ps := [.reports, .dies, .combs, .colls, .acct, .regs, .out, .hub, .free, .mcs, .cores, .bad, .mem,
    .arms, .trcTok, .trcSeq, .trcDrop]) rfl (fun _ _ ht => raccEffect_keeps rfl ht) (Keeps.refl _ s)).rest.now rfl

/-- An empty RACC reaches no combining buffer and no collective. -/
theorem raccEffect_empty {e : Env} (s : State) (h : isEmptyRec e.r e.y.dims = true) :
    (effClear raccEffect e s).combs = s.combs ∧ (effClear raccEffect e s).colls = s.colls := by
  have hnone : raccEffect e s = s := by
    unfold raccEffect
    exact if_pos h
  have hrest : Within [.cores] s (effClear raccEffect e s) := by
    unfold effClear
    rw [hnone]
    exact (Keeps.ite (State.clearLines_keeps rfl (Keeps.refl _ _)) (Keeps.refl _ _)).rest
  exact ⟨hrest.combs rfl, hrest.colls rfl⟩

end Sys2Proof.Machine
end

section
/-! PROOFS. MovesBetweenCores. -/

namespace Sys2Proof

open Machine

/-- A receive that may issue grants its credit. -/
theorem receive_grants {s : State} {d : Die} {c : LCore} {e : Env} {op : Nat} (hmove : op = opROT ∨ op = opHALO)
    (hcand : s.candidate d c .move true = some e) (hop : e.x.op = op) (hrecv : isReceive e.r = true)
    (hmay : s.mayIssue e = true)
    (hbad : badMet (coreBase e.d.val e.p.val) (s.core e.d e.p).badLines ((s.markIssued e).recReads e) = none) :
    runOn .move op isReceive receiveEffect d c {} s true = receiveEffect e (s.markIssued e) := by
  rw [runOn_clean receiveEffect hcand hop hrecv hmay hbad, effClear_receive _ (recv_of_isReceive (hop ▸ hmove) hrecv)]

/-- Settles O42: a receive by its credit, a send by following its receiver's record through the issue of its own, and a
RACC by the cores' records, which nothing that its lines set off moves. -/
theorem movesBetweenCores : Obligations.MovesBetweenCores := by
  unfold Obligations.MovesBetweenCores
  refine ⟨?_, ?_, ?_⟩
  · intro s d c e i op hi hcand hop hrecv hmay hbad
    have hmark := s.markIssued_within e
    have hexec : exec i s = .next (receiveEffect e (s.markIssued e)) := by
      simp only [List.mem_cons, List.not_mem_nil, or_false, Prod.mk.injEq] at hi
      obtain ⟨rfl, rfl⟩ | ⟨rfl, rfl⟩ := hi
      · exact congrArg Host.Outcome.next (receive_grants (.inl rfl) hcand hop hrecv hmay hbad)
      · exact congrArg Host.Outcome.next (receive_grants (.inr rfl) hcand hop hrecv hmay hbad)
    refine ⟨_, hexec, ?_, receiveEffect_stands (stands_markIssued s e), fun x hx hpos => receiveEffect_data hx hpos,
      receive_within e s⟩
    rw [receiveEffect_credits, hmark.credits rfl, hop, State.candidate_die hcand]
  · intro s d c e f k i op hi hissues hk hf hcore hpath
    have hopen := sendOpen_of_clocks hk hf hcore hpath
    have hexec : exec i s = .next (effClear sendEffect e (s.markIssued e)) := by
      simp only [List.mem_cons, List.not_mem_nil, or_false, Prod.mk.injEq] at hi
      obtain ⟨rfl, rfl⟩ | ⟨rfl, rfl⟩ := hi
      · exact congrArg Host.Outcome.next (runSend_clean (by decide) hissues hopen)
      · exact congrArg Host.Outcome.next (runSend_clean (by decide) hissues hopen)
    exact ⟨_, hexec, rfl, send_settles hk hf⟩
  · intro s d c e hissues hready
    obtain ⟨hcand, hop, hok, hmay, hbad⟩ := hissues
    refine ⟨effClear raccEffect e (s.markIssued e), ?_, rfl, raccEffect_stands (stands_markIssued s e), fun hempty => ?_⟩
    · show execRacc d c {} s = _
      unfold execRacc runRecord
      rw [hcand]
      simp only [hready, if_true]
      rw [runOn_clean raccEffect hcand hop hok hmay hbad]
    · obtain ⟨hcombs, hcolls⟩ := raccEffect_empty (s.markIssued e) hempty
      exact ⟨hcombs.trans ((s.markIssued_within e).combs rfl), hcolls.trans ((s.markIssued_within e).colls rfl)⟩

end Sys2Proof
end

section
/-! SUPPORT. The dies of DISPATCHes: which DISPATCH holds a die and whose state stands on it, through a start, a
resumption and a pre-emption (R346, R348, R353). -/

namespace Sys2Proof.Machine

/-! ### What holds a die -/

/-- The DISPATCH that holds a die, the context whose state stands on it, and whether that has closed. -/
def DieSt.hold (x : DieSt) : Option Nat × Option CtxId × Bool := (x.run, x.lastCtx, x.stale)

/-- What holds each die. -/
def State.holds (s : State) (d : Die) : Option Nat × Option CtxId × Bool := (s.die d).hold

abbrev SameHold : State → State → Prop := Same State.holds

namespace SameHold

variable {s t : State}

theorem of_dies (h : t.dies = s.dies) : SameHold s t := ⟨funext fun d => by rw [State.holds, State.die_congr h]; rfl⟩

theorem of_within {ps : List Part} (h : Within ps s t) (hd : ps.contains .dies = false) : SameHold s t :=
  of_dies (h.dies hd)

theorem of_counted (h : Counted s t) : SameHold s t := ⟨funext fun d => by rw [State.holds, h.die d]; rfl⟩

theorem modDie {d : Die} {f : DieSt → DieSt} (h : ∀ x, (f x).hold = x.hold) : SameHold s (s.modDie d f) := by
  refine ⟨funext fun e => ?_⟩
  by_cases he : e = d
  · rw [State.holds, he, State.modDie_self, h]; rfl
  · rw [State.holds, State.modDie_other _ _ he]; rfl

end SameHold

variable (s : State)

theorem setPlan_sameHold (d : Die) (mhz : Nat) : SameHold s (s.setPlan d mhz) :=
  .foldl _ _ fun _ _ => SameHold.modDie fun _ => rfl

theorem traceDisp_sameHold (y : Disp) (kind v : Nat) : SameHold s (s.traceDisp y kind v) :=
  SameHold.of_within (State.traceDisp_keeps (ps := [.trcTok, .free, .mem, .acct, .regs, .bad, .trcSeq, .trcDrop]) rfl
    (Keeps.refl _ s)).rest rfl

theorem countRead_sameHold (n : CtxId) (d : Option Die) (runs : List (Nat × Nat)) (ce : List Nat) :
    SameHold s (((s.countRuns false runs).chargeRuns n d runs).countCes runs ce) :=
  ((SameHold.of_within (countRuns_within ..) rfl).trans (SameHold.of_within (chargeRuns_within ..) rfl)).trans
    (SameHold.of_counted (countCes_counted ..))

theorem readSection_sameHold (y : Disp) (d : Die) (off : Nat) (ce : List Nat) :
    SameHold s (readSection y d off ce s) := by
  have hcount := countRead_sameHold s y.ctx (some d) (s.planRuns y off) ce
  unfold readSection
  dsimp only
  split
  · exact hcount.trans (SameHold.of_dies rfl)
  · exact hcount

theorem placeStream_sameHold (y : Disp) (d : Die) (off depth k : Nat) : SameHold s (placeStream y d off depth k s) :=
  SameHold.of_within (placeStream_keeps (ps := [.cores]) rfl (Keeps.refl _ s)).rest rfl

/-- One die of a DISPATCH that takes its dies. -/
def holdDie (y : Disp) (s : State) (d : Die) : State :=
  (s.modDie d (fun x => { x with run := some y.seq, lastCtx := some y.ctx, stale := false })).setPlan d y.mhz

theorem holdDies_eq (y : Disp) : holdDies y s = y.dies.foldl (holdDie y) s := rfl

theorem holdDie_self (y : Disp) (d : Die) : (holdDie y s d).holds d = (some y.seq, some y.ctx, false) := by
  rw [holdDie, (setPlan_sameHold _ d y.mhz).app d, State.holds, State.modDie_self]
  rfl

theorem holdDie_other (y : Disp) {d e : Die} (h : d ≠ e) : (holdDie y s e).holds d = s.holds d := by
  rw [holdDie, (setPlan_sameHold _ e y.mhz).app d, State.holds, State.modDie_other _ _ h]
  rfl

/-- A DISPATCH that takes its dies holds each of them, with its context's state on it. -/
theorem holdDies_holds {y : Disp} {d : Die} (hd : d ∈ y.dies) :
    (holdDies y s).holds d = (some y.seq, some y.ctx, false) := by
  rw [holdDies_eq]
  refine foldl_hits (fun t => t.holds d = (some y.seq, some y.ctx, false)) y.dies _ d s hd
    (fun t => holdDie_self t y d) fun t e ht => ?_
  by_cases hde : d = e
  · exact hde ▸ holdDie_self t y d
  · exact (holdDie_other t y hde).trans ht

/-! ### A DISPATCH begins or goes on -/

theorem beginDispatch_holds (y : Disp) (ce : List Nat) {d : Die} (hd : d ∈ y.dies) :
    (beginDispatch y ce s).holds d = (some y.seq, some y.ctx, false) := by
  unfold beginDispatch
  extract_lets depth started held fetched placed headed
  refine ((traceDisp_sameHold ..).app d).trans ?_
  have hplace : SameHold held placed := .trans (.foldl _ _ fun t x => readSection_sameHold ..)
    (.foldl _ _ fun t x => .foldl _ _ fun u k => placeStream_sameHold ..)
  have hhead : SameHold held headed := .ite (hplace.trans (SameHold.of_dies rfl)) hplace
  exact (hhead.app d).trans (holdDies_holds _ hd)

theorem resumeDispatch_holds (y : Disp) {d : Die} (hd : d ∈ y.dies) :
    (resumeDispatch y s).holds d = (some y.seq, some y.ctx, false) := by
  unfold resumeDispatch
  extract_lets counted held placed
  have hplace : SameHold held placed := by
    refine .foldl _ _ fun t x => ?_
    dsimp only
    split
    · split
      · exact SameHold.of_dies rfl
      · exact .refl _
    · exact .refl _
  refine ((traceDisp_sameHold ..).app d).trans ?_
  exact ((hplace.trans (SameHold.of_dies rfl)).app d).trans (holdDies_holds _ hd)

end Sys2Proof.Machine
end

section
/-! SUPPORT. A waiting DISPATCH takes its dies at once: it runs, and nothing else of any DISPATCH moves but the records
and counters that it leaves or takes (R346, R348). -/

namespace Sys2Proof.Machine

/-! ### What parking leaves of a DISPATCH -/

/-- A DISPATCH without the records and counters that it keeps while it is off the cores. -/
def Disp.bare (y : Disp) : Disp := { y with parked := [], ctrs := [] }

theorem Disp.eq_of_bare {y z : Disp} (h : z.bare = y.bare) : z = { y with parked := z.parked, ctrs := z.ctrs } := by
  obtain ⟨⟩ := y
  obtain ⟨⟩ := z
  simpa [Disp.bare] using h

theorem State.modDisp_self {s : State} {q : Nat} {y : Disp} (f : Disp → Disp) (hy : s.disp q = some y)
    (hf : ∀ z, (f z).seq = z.seq) : (s.modDisp q f).disp q = some (f y) := by
  rw [State.modDisp_disp _ _ _ _ hf, hy, Option.map_some, if_pos rfl]

/-- Each DISPATCH without what it keeps while it is off the cores. -/
def State.bareDisps (s : State) (q : Nat) : Option Disp := (s.disp q).map Disp.bare

/-- From `s` to `t` the DISPATCHes stand but for what they keep while they are off the cores. -/
abbrev SameDisps : State → State → Prop := Same State.bareDisps

namespace SameDisps

variable {s t : State}

theorem of_disps (h : t.disps = s.disps) : SameDisps s t :=
  ⟨funext fun q => by rw [State.bareDisps, State.disp, h]; rfl⟩

theorem modDisp {n : Nat} {f : Disp → Disp} (h : ∀ y, (f y).bare = y.bare) : SameDisps s (s.modDisp n f) := by
  refine ⟨funext fun q => ?_⟩
  rw [State.bareDisps, State.modDisp_disp _ _ _ _ fun y => by rw [Disp.eq_of_bare (h y)], Option.map_map]
  refine congrArg (fun g => (s.disp q).map g) (funext fun y => ?_)
  simp only [Function.comp]
  split
  · exact h y
  · rfl

theorem modCore {d : Die} {p : PCore} {f : Core → Core} (h : SameDisps s t) : SameDisps s (t.modCore d p f) :=
  h.trans (of_disps rfl)

theorem modDie {d : Die} {f : DieSt → DieSt} (h : SameDisps s t) : SameDisps s (t.modDie d f) := h.trans (of_disps rfl)

/-- A DISPATCH is still there. -/
theorem disp {q : Nat} {y : Disp} (h : SameDisps s t) (hy : s.disp q = some y) :
    ∃ l c, t.disp q = some { y with parked := l, ctrs := c } := by
  have hb := h.app q
  rw [State.bareDisps, State.bareDisps, hy, Option.map_some, Option.map_eq_some_iff] at hb
  obtain ⟨z, hz, hbare⟩ := hb
  exact ⟨z.parked, z.ctrs, hz.trans (congrArg some (Disp.eq_of_bare hbare))⟩

theorem isSome (q : Nat) (h : SameDisps s t) : (t.disp q).isSome = (s.disp q).isSome := by
  have hb := congrArg Option.isSome (h.app q)
  simpa only [State.bareDisps, Option.isSome_map] using hb

end SameDisps

theorem runsNow_of_parked {s u t : State} {y : Disp} {l : SMap (List Placed)} {c : SMap Counters}
    (h : RunsNow u t { y with parked := l, ctrs := c }) (hnow : u.now = s.now) : RunsNow s t y := by
  obtain ⟨⟨x, hx, hst, hbegun, hsince, hfields⟩, hhold⟩ := h
  exact ⟨⟨x, hx, hst, hbegun, hsince.trans hnow, hfields⟩, hhold⟩

/-! ### A DISPATCH runs -/

variable (s : State)

theorem parkDie_sameDisps (y : Disp) (d : Die) : SameDisps s (parkDie y d s) := by
  unfold parkDie
  extract_lets left
  have hleft : SameDisps s left := by
    refine .foldl _ _ fun t p => ?_
    split
    · exact .refl _
    · exact .ite (.refl _) (SameDisps.modCore (SameDisps.modDisp fun _ => rfl))
  exact SameDisps.modDie (hleft.trans (SameDisps.modDisp fun _ => rfl))

theorem parkOthers_sameDisps (y : Disp) : SameDisps s (parkOthers y s) := by
  refine .foldl _ _ fun t d => ?_
  split
  · split
    · exact .ite (parkDie_sameDisps ..) (.refl _)
    · exact .refl _
  · exact .refl _

theorem traceDisp_within (y : Disp) (kind v : Nat) :
    Within [.trcTok, .free, .mem, .acct, .regs, .bad, .trcSeq, .trcDrop] s (s.traceDisp y kind v) :=
  (State.traceDisp_keeps rfl (Keeps.refl _ s)).rest

theorem beginDispatch_within (y : Disp) (ce : List Nat) :
    Within [.dies, .mcs, .regs, .cores, .acct, .reports, .chains, .trcTok, .free, .mem, .bad, .trcSeq, .trcDrop] s
      (beginDispatch y ce s) :=
  (beginDispatch_keeps rfl (Keeps.refl _ s)).rest

theorem resumeDispatch_sameDisps (y : Disp) : SameDisps s (resumeDispatch y s) := by
  unfold resumeDispatch
  extract_lets counted held placed
  have hcount : SameDisps s counted := .foldl _ _ fun t d => SameDisps.of_disps rfl
  have hheld : SameDisps counted held :=
    SameDisps.of_disps ((holdDies_keeps (ps := [.dies]) rfl (Keeps.refl _ counted)).rest.disps rfl)
  have hplace : SameDisps held placed := by
    refine .foldl _ _ fun t x => ?_
    dsimp only
    split
    · split
      · exact SameDisps.of_disps rfl
      · exact .refl _
    · exact .refl _
  refine Same.trans ?_ (SameDisps.of_disps ((traceDisp_within ..).disps rfl))
  exact (hcount.trans hheld).trans (hplace.trans (SameDisps.modDisp fun _ => rfl))

theorem beginDispatch_chainOpen {y : Disp} (ce : List Nat) (h : y.role = 1) :
    (beginDispatch y ce s).chainOpen y.ctx y.handle y.group = true := by
  unfold beginDispatch
  extract_lets depth started held fetched placed headed
  rw [State.chainOpen, (traceDisp_within headed y 0x01 y.variant).chains rfl]
  simp [headed, h]

/-- The state in which a DISPATCH has begun or gone on, before it is marked as running. -/
def takenUp (y : Disp) (ce : List Nat) (s : State) : State :=
  if y.begun then resumeDispatch y s else beginDispatch y ce s

theorem takenUp_sameDisps (y : Disp) (ce : List Nat) : SameDisps s (takenUp y ce s) :=
  .ite (resumeDispatch_sameDisps ..) (SameDisps.of_disps ((beginDispatch_within ..).disps rfl))

theorem takenUp_holds (y : Disp) (ce : List Nat) {d : Die} (hd : d ∈ y.dies) :
    (takenUp y ce s).holds d = (some y.seq, some y.ctx, false) := by
  unfold takenUp
  split
  · exact resumeDispatch_holds s y hd
  · exact beginDispatch_holds s y ce hd

/-- A DISPATCH is marked as running. -/
def markRunning (y : Disp) (now : Nat) (s : State) : State :=
  s.modDisp y.seq (fun z => { z with st := .running, begun := true, since := now })

theorem goDispatch_eq (y : Disp) (ce : List Nat) : goDispatch y ce s =
    (let t := markRunning y (takenUp y ce s).now (takenUp y ce s)
     if y.deadline.isNone then { t with arb := { t.arb with noDeadline := (y.ctx.val + 1) % 64 } } else t) := rfl

theorem goDispatch_within (y : Disp) (ce : List Nat) :
    Within [.dies, .cores, .trcTok, .free, .mem, .acct, .regs, .bad, .trcSeq, .trcDrop, .disps, .mcs, .reports, .chains,
      .arb] s (goDispatch y ce s) :=
  (goDispatch_keeps rfl (Keeps.refl _ s)).rest

theorem goDispatch_dies (y : Disp) (ce : List Nat) : (goDispatch y ce s).dies = (takenUp y ce s).dies := by
  rw [goDispatch_eq]; split <;> rfl

theorem goDispatch_chains (y : Disp) (ce : List Nat) : (goDispatch y ce s).chains = (takenUp y ce s).chains := by
  rw [goDispatch_eq]; split <;> rfl

theorem goDispatch_disps (y : Disp) (ce : List Nat) :
    (goDispatch y ce s).disps = (markRunning y (takenUp y ce s).now (takenUp y ce s)).disps := by
  rw [goDispatch_eq]; split <;> rfl

theorem goDispatch_noDeadline {y : Disp} (ce : List Nat) (h : y.deadline = none) :
    (goDispatch y ce s).arb.noDeadline = (y.ctx.val + 1) % 64 := by
  rw [goDispatch_eq, h]; rfl

theorem goDispatch_chainOpen {y : Disp} (ce : List Nat) (hbegun : y.begun = false) (hrole : y.role = 1) :
    (goDispatch y ce s).chainOpen y.ctx y.handle y.group = true := by
  have h := beginDispatch_chainOpen s ce hrole
  rw [State.chainOpen] at h ⊢
  rwa [goDispatch_chains, takenUp, hbegun]

variable {s} in
theorem goDispatch_runsNow {y : Disp} (ce : List Nat) (hy : s.disp y.seq = some y) : RunsNow s (goDispatch y ce s) y := by
  have hnow : (takenUp y ce s).now = s.now := ((goDispatch_within s y ce).now rfl) ▸ by rw [goDispatch_eq]; split <;> rfl
  obtain ⟨l, c, hz⟩ := (takenUp_sameDisps s y ce).disp hy
  refine ⟨⟨{ y with parked := l, ctrs := c, st := .running, begun := true, since := s.now }, ?_, rfl, rfl, rfl, rfl, rfl, rfl⟩,
    fun d hd => ?_⟩
  · rw [State.disp, goDispatch_disps, hnow]
    exact State.modDisp_self _ hz fun _ => rfl
  · have hh := takenUp_holds s y ce hd
    rw [State.holds, ← State.die_congr (goDispatch_dies s y ce)] at hh
    simpa [DieSt.hold] using hh

end Sys2Proof.Machine
end

section
/-! SUPPORT. Pre-emptions and the start of a switch: which DISPATCHes change their state, and that the count and the list
of switches change by that switch alone (R348, R353, R355). -/

namespace Sys2Proof.Machine

theorem seq_of_disp {s : State} {q : Nat} {y : Disp} (h : s.disp q = some y) : y.seq = q := by
  simpa using List.find?_some h

theorem disp_isSome_of_mem {s : State} {y : Disp} (h : y ∈ s.disps) : (s.disp y.seq).isSome = true :=
  List.find?_isSome.2 ⟨y, h, by simp⟩

/-! ### The count of switches -/

theorem untraced_hifSwitchCount : Untraced .hifSwitchCount 0 0 0 where
  prod := by decide
  records k := (off_ne_hub (by decide) (by decide) (by decide) k 0 0 0).symm
  lost := by decide
  dieLost k := (off_ne_hub (by decide) (by decide) (by decide) k 0 0 0).symm
  bytes d k := by
    refine ⟨?_, ?_, ?_, ?_⟩ <;> exact (off_ne_hub (by decide) (by decide) (by decide) _ _ _ 0).symm

variable (s : State)

theorem traceDisp_reg (y : Disp) (kind v : Nat) {q : RegId} {d i j : Nat} (h : Untraced q d i j) :
    (s.traceDisp y kind v).reg q d i j = s.reg q d i j :=
  foldl_same (fun t => t.reg q d i j) _ _ s fun t _ => State.traceRec_reg t _ _ _ _ _ h

/-! ### A pre-emption -/

theorem stopDma_within (n : CtxId) : Within [.dmaq] s (s.stopDma n) := (State.stopDma_keeps rfl (Keeps.refl _ s)).rest

/-- The state in which the queues of a DISPATCH that is pre-empted have stopped (R314, R523). -/
def queuesStopped (y : Disp) (s : State) : State :=
  if s.disps.any (fun z => decide (z.ctx = y.ctx) && decide (z.st = .running) && z.seq != y.seq) then s else s.stopDma y.ctx

theorem queuesStopped_within (y : Disp) : Within [.dmaq] s (queuesStopped y s) := by
  unfold queuesStopped
  split
  · exact .refl _ s
  · exact stopDma_within ..

/-- A DISPATCH is marked as pre-empted. -/
def markPreempted (y : Disp) (s : State) : State :=
  s.modDisp y.seq (fun z => { z with st := .preempted, runTime := s.ranNs y })

theorem preemptDisp_eq (y : Disp) :
    preemptDisp y s = (markPreempted y (queuesStopped y s)).traceDisp y 0x02 0xFF := rfl

theorem preemptDisp_within (y : Disp) :
    Within [.dmaq, .trcTok, .free, .mem, .acct, .regs, .bad, .trcSeq, .trcDrop, .disps] s (preemptDisp y s) :=
  (preemptDisp_keeps rfl (Keeps.refl _ s)).rest

theorem preemptDisp_reg (y : Disp) {q : RegId} {d i j : Nat} (h : Untraced q d i j) :
    (preemptDisp y s).reg q d i j = s.reg q d i j := by
  rw [preemptDisp_eq, traceDisp_reg _ _ _ _ h]
  exact State.reg_congr ((queuesStopped_within s y).regs rfl) q d i j

theorem ranNs_congr {t : State} (h : t.now = s.now) (y : Disp) : t.ranNs y = s.ranNs y := by
  rw [State.ranNs, State.ranNs, h]

theorem preemptDisp_disp (y : Disp) (q : Nat) : (preemptDisp y s).disp q =
    (s.disp q).map (fun z => if q = y.seq then { z with st := .preempted, runTime := s.ranNs y } else z) := by
  have hq := queuesStopped_within s y
  rw [preemptDisp_eq, State.disp, (traceDisp_within ..).disps rfl, ← State.disp, markPreempted,
    ranNs_congr s (hq.now rfl) y, State.disp, State.disp, ← hq.disps rfl]
  exact State.modDisp_disp _ _ _ _ fun _ => rfl

/-- The victims of a pre-emption are pre-empted one after the other (R348). -/
def preemptAll (v : List Disp) (s : State) : State := v.foldl (fun s y => preemptDisp y s) s

theorem preemptAll_within (v : List Disp) :
    Within [.dmaq, .trcTok, .free, .mem, .acct, .regs, .bad, .trcSeq, .trcDrop, .disps] s (preemptAll v s) :=
  fold_inv (Within _ s) _ _ s (.refl _ s) fun t y h => h.trans (preemptDisp_within t y)

theorem preemptAll_reg (v : List Disp) {q : RegId} {d i j : Nat} (h : Untraced q d i j) :
    (preemptAll v s).reg q d i j = s.reg q d i j :=
  foldl_same (fun t => t.reg q d i j) _ _ s fun t y => preemptDisp_reg t y h

theorem preemptAll_isSome (v : List Disp) (q : Nat) : ((preemptAll v s).disp q).isSome = (s.disp q).isSome :=
  foldl_same (fun t => (t.disp q).isSome) _ _ s fun t y => by rw [preemptDisp_disp, Option.isSome_map]

/-- A DISPATCH is pre-empted, its run time brought up to now. -/
structure Preempted (s t : State) (y : Disp) : Prop where
  now : t.now = s.now
  disp : ∃ z, t.disp y.seq = some z ∧ z.st = .preempted ∧ z.runTime = s.ranNs y

variable {s}

theorem preemptDisp_preempts {t : State} {y : Disp} (hnow : t.now = s.now) (hy : (t.disp y.seq).isSome = true) :
    Preempted s (preemptDisp y t) y := by
  refine ⟨((preemptDisp_within t y).now rfl).trans hnow, ?_⟩
  obtain ⟨z, hz⟩ := Option.isSome_iff_exists.1 hy
  refine ⟨{ z with st := .preempted, runTime := t.ranNs y }, ?_, rfl, ranNs_congr s hnow y⟩
  rw [preemptDisp_disp, hz, Option.map_some, if_pos rfl]

theorem Preempted.preemptDisp_other {t : State} {y z : Disp} (h : Preempted s t y) (hne : y.seq ≠ z.seq) :
    Preempted s (preemptDisp z t) y := by
  refine ⟨((preemptDisp_within t z).now rfl).trans h.now, ?_⟩
  obtain ⟨x, hx, hst⟩ := h.disp
  exact ⟨x, by rw [preemptDisp_disp, hx, Option.map_some, if_neg hne], hst⟩

theorem preemptAll_preempts {v : List Disp} {y : Disp} (hy : y ∈ v) (hthere : (s.disp y.seq).isSome = true)
    (hone : ∀ z ∈ v, z.seq = y.seq → z = y) : Preempted s (preemptAll v s) y := by
  refine foldl_hits_mem (fun t => t.now = s.now ∧ (t.disp y.seq).isSome = true) (fun t => Preempted s t y) v _ y s hy
    ⟨rfl, hthere⟩ ?_ (fun t ht => preemptDisp_preempts ht.1 ht.2) ?_
  · rintro t z - ⟨hnow, hsome⟩
    exact ⟨((preemptDisp_within t z).now rfl).trans hnow, by rw [preemptDisp_disp, Option.isSome_map, hsome]⟩
  · rintro t z hz - ht
    by_cases hseq : z.seq = y.seq
    · obtain ⟨x, hx, -⟩ := ht.disp
      rw [hone z hz hseq]
      exact preemptDisp_preempts ht.now (by rw [hx]; rfl)
    · exact ht.preemptDisp_other (Ne.symm hseq)

/-! ### A switch begins -/

theorem beginSwitch_frame (y : Disp) (outs : List Nat) (s : State) : beginSwitch y outs s =
    { s with regs := (beginSwitch y outs s).regs, disps := (beginSwitch y outs s).disps
             switches := (beginSwitch y outs s).switches, dmaq := (beginSwitch y outs s).dmaq } :=
  (beginSwitch_keeps (ps := [.dmaq, .regs, .disps, .switches]) rfl (Keeps.refl _ s)).rest

/-- The state in which the queues of the contexts whose state a switch saves have stopped (R314). -/
def outsStopped (y : Disp) (s : State) : State := (s.liveOuts y.dies y.ctx).foldl State.stopDma s

theorem outsStopped_within (y : Disp) : Within [.dmaq] s (outsStopped y s) :=
  fold_inv (Within _ s) _ _ s (.refl _ s) fun t n h => h.trans (stopDma_within t n)

theorem beginSwitch_switches (y : Disp) (outs : List Nat) (s : State) : (beginSwitch y outs s).switches =
    (outsStopped y s).switches ++
      [{ step := 0, inSeq := y.seq, dies := y.dies, outs, outCtxs := (outsStopped y s).outsOn y.dies y.ctx }] := rfl

theorem beginSwitch_disp (y : Disp) (outs : List Nat) (s : State) (q : Nat) : (beginSwitch y outs s).disp q =
    (s.disp q).map (fun z => if q = y.seq then { z with st := .switching } else z) := by
  rw [State.disp, State.disp, ← (outsStopped_within (s := s) y).disps rfl]
  exact State.modDisp_disp _ _ _ _ fun _ => rfl

theorem outsOn_congr {t : State} (h : t.dies = s.dies) (dies : List Die) (n : CtxId) : t.outsOn dies n = s.outsOn dies n := by
  simp only [State.outsOn, State.die_congr h]

theorem beginSwitch_switching {y : Disp} (outs : List Nat) (hy : (s.disp y.seq).isSome = true) :
    Switching s (beginSwitch y outs s) y outs := by
  have hw := outsStopped_within (s := s) y
  refine ⟨?_, ?_, ?_⟩
  · obtain ⟨z, hz⟩ := Option.isSome_iff_exists.1 hy
    rw [beginSwitch_disp, hz, Option.map_some, if_pos rfl]
    rfl
  · rw [beginSwitch_switches, hw.switches rfl, outsOn_congr (hw.dies rfl)]
  · rw [← State.reg_congr (hw.regs rfl)]
    exact State.modReg_self (outsStopped y s) .hifSwitchCount 0 0 0 (fun v => v + 1)

/-- A switch that begins after steps that leave the dies, the switches and their count begins where these left off. -/
theorem switching_congr {u t : State} {y : Disp} {outs : List Nat} (h : Switching u t y outs) (hd : u.dies = s.dies)
    (hs : u.switches = s.switches) (hc : u.reg .hifSwitchCount 0 0 0 = s.reg .hifSwitchCount 0 0 0) : Switching s t y outs := by
  obtain ⟨hst, hsw, hcount⟩ := h
  exact ⟨hst, by rw [hsw, hs, outsOn_congr hd], by rw [hcount, hc]⟩

/-! ### PREEMPTION -/

theorem execPreemption_eq {seq : Nat} {x : Disp} (hx : s.disp seq = some x) (hwaits : x.waits = true)
    (hfirst : s.firstInOrder x = true) (hv : s.victims x ≠ []) (hrec : s.recovery = none)
    (hup : ∀ d ∈ x.dies, s.newelUp d = true) : exec (.preemption seq) s = .next (preemption x s) := by
  show execPreemption seq s = _
  have hall : x.dies.all (fun d => s.newelUp d) = true := List.all_eq_true.2 hup
  simp [execPreemption, hx, hwaits, hfirst, hv, hrec, hall]

theorem preemption_eq (x : Disp) (s : State) : preemption x s =
    if s.freeBut x ((s.victims x).map (fun y => y.seq)) then
      beginSwitch x ((s.victims x).map (fun y => y.seq)) (preemptAll (s.victims x) s)
    else preemptAll (s.victims x) s := rfl

theorem mem_of_victim {x y : Disp} (h : y ∈ s.victims x) : y ∈ s.disps := by
  unfold State.victims at h
  split at h
  · cases h
  · exact List.mem_of_mem_filter h

/-- Every victim but the incoming DISPATCH itself stays pre-empted when the switch begins. -/
theorem preemption_preempts {x y : Disp} (hy : y ∈ s.victims x) (hne : y.seq ≠ x.seq)
    (hone : ∀ z ∈ s.victims x, z.seq = y.seq → z = y) :
    ∃ z, (preemption x s).disp y.seq = some z ∧ z.st = .preempted ∧ z.runTime = s.ranNs y := by
  obtain ⟨z, hz, hst⟩ := (preemptAll_preempts hy (disp_isSome_of_mem (mem_of_victim hy)) hone).disp
  refine ⟨z, ?_, hst⟩
  rw [preemption_eq]
  split
  · rw [beginSwitch_disp, hz, Option.map_some, if_neg hne]
  · exact hz

theorem preemption_switching {x : Disp} (hx : (s.disp x.seq).isSome = true)
    (hfree : s.freeBut x ((s.victims x).map (fun y => y.seq)) = true) :
    Switching s (preemption x s) x ((s.victims x).map (fun y => y.seq)) := by
  have hw := preemptAll_within s (s.victims x)
  rw [preemption_eq, if_pos hfree]
  have hthere : ((preemptAll (s.victims x) s).disp x.seq).isSome = true := by rw [preemptAll_isSome, hx]
  exact switching_congr (beginSwitch_switching _ hthere) (hw.dies rfl) (hw.switches rfl)
    (preemptAll_reg s _ untraced_hifSwitchCount)

theorem preemption_waits {x : Disp} (hfree : s.freeBut x ((s.victims x).map (fun y => y.seq)) = false) :
    (preemption x s).switches = s.switches := by
  rw [preemption_eq, if_neg (by rw [hfree]; decide)]
  exact (preemptAll_within s _).switches rfl

end Sys2Proof.Machine
end

section
/-! SUPPORT. A waiting DISPATCH takes its dies, and the steps of a switch: what parks, what is saved, what is restored and
who runs at its end (R346, R353 to R355). -/

namespace Sys2Proof.Machine

variable {s : State}

/-! ### A start and a resumption -/

theorem execDispatchStart_eq {seq : Nat} {y : Disp} (ce : List Nat) (hy : s.disp seq = some y) (hst : y.st = .ready)
    (hc : s.canStart y = true) : exec (.dispatchStart seq ce) s = .next (takeDies y ce s) := by
  show execDispatchStart seq s ce = _
  simp [execDispatchStart, hy, hst, hc]

theorem execDispatchResume_eq {seq : Nat} {y : Disp} (hy : s.disp seq = some y) (hst : y.st = .preempted)
    (hc : s.canStart y = true) : exec (.dispatchResume seq) s = .next (takeDies y [] s) := by
  show execDispatchResume seq s = _
  simp [execDispatchResume, hy, hst, hc]

theorem takeDies_switches {y : Disp} (ce : List Nat) (h : s.needsSwitch y = true) : takeDies y ce s = beginSwitch y [] s :=
  if_pos h

theorem takeDies_goes {y : Disp} (ce : List Nat) (hy : s.disp y.seq = some y) (h : s.needsSwitch y = false) : ∃ l c,
    (parkOthers y s).disp y.seq = some { y with parked := l, ctrs := c } ∧
      takeDies y ce s = goDispatch { y with parked := l, ctrs := c } ce (parkOthers y s) := by
  obtain ⟨l, c, hz⟩ := (parkOthers_sameDisps s y).disp hy
  refine ⟨l, c, hz, ?_⟩
  unfold takeDies
  rw [if_neg (by rw [h]; decide)]
  simp only [hz]

/-- A DISPATCH whose dies need no switch runs at once. -/
theorem takeDies_settles {y : Disp} (ce : List Nat) (hy : s.disp y.seq = some y) (h : s.needsSwitch y = false) :
    let t := takeDies y ce s
    RunsNow s t y ∧ t.switches = s.switches ∧
      (y.begun = false → y.role = 1 → t.chainOpen y.ctx y.handle y.group = true) ∧
      (y.deadline = none → t.arb.noDeadline = (y.ctx.val + 1) % 64) := by
  obtain ⟨l, c, hz, ht⟩ := takeDies_goes ce hy h
  have hpark : Within [.cores, .disps, .dies] s (parkOthers y s) := (parkOthers_keeps rfl (Keeps.refl _ s)).rest
  have hgo := goDispatch_within (parkOthers y s) { y with parked := l, ctrs := c } ce
  have hruns := goDispatch_runsNow (y := { y with parked := l, ctrs := c }) ce hz
  rw [ht]
  exact ⟨runsNow_of_parked hruns (hpark.now rfl), (hgo.switches rfl).trans (hpark.switches rfl),
    goDispatch_chainOpen _ (y := { y with parked := l, ctrs := c }) ce,
    goDispatch_noDeadline _ (y := { y with parked := l, ctrs := c }) ce⟩

/-! ### A step of a switch -/

theorem execSwitchStepDone_eq {seq : Nat} {w : Switch} {y : Disp} (ce : List Nat)
    (hw : s.switches.find? (fun v => v.inSeq == seq) = some w) (hy : s.disp seq = some y) (hrec : s.recovery = none)
    (hup : ∀ d ∈ w.dies, s.newelUp d = true) (hstep : w.step ≠ 0 ∨ s.switchDrained w y = true) :
    exec (.switchStepDone seq ce) s = .next (switchStepDone w y ce s) := by
  show execSwitchStepDone seq s ce = _
  have hall : w.dies.all (fun d => s.newelUp d) = true := List.all_eq_true.2 hup
  simp only [execSwitchStepDone, hw, hy, hrec, hall]
  rw [if_pos]
  simpa using hstep

theorem traceSwitch_within (w : Switch) (y : Disp) (outs : List (Die × CtxId)) (t : State) :
    Within [.trcTok, .free, .mem, .acct, .regs, .bad, .trcSeq, .trcDrop] t (traceSwitch w y outs t) :=
  (traceSwitch_keeps rfl (Keeps.refl _ t)).rest

/-- A step adds its trace records and its own progress to its effect. -/
theorem switchStepDone_effect (w : Switch) (y : Disp) (ce : List Nat) (s : State) :
    (switchStepDone w y ce s).dies = (switchEffect w y ce s).dies ∧
      (switchStepDone w y ce s).ctxs = (switchEffect w y ce s).ctxs ∧
      (switchStepDone w y ce s).disps = (switchEffect w y ce s).disps := by
  have h := traceSwitch_within w y w.outCtxs (switchEffect w y ce s)
  exact ⟨h.dies rfl, h.ctxs rfl, h.disps rfl⟩

theorem switchEffect_switches (w : Switch) (y : Disp) (ce : List Nat) (s : State) :
    (switchEffect w y ce s).switches = s.switches :=
  (switchEffect_keeps (ps := [.cores, .disps, .dies, .mcs, .regs, .reports, .ctxs, .mem, .acct, .free, .hostMem, .bad,
    .trcTok, .trcSeq, .trcDrop, .chains, .arb]) rfl (Keeps.refl _ s)).rest.switches rfl

theorem switchStepDone_switches (w : Switch) (y : Disp) (ce : List Nat) (s : State) :
    (switchStepDone w y ce s).switches =
      if w.step + 1 = 4 then s.switches.filter (fun v => v.inSeq != w.inSeq)
      else updIf s.switches (fun v => v.inSeq == w.inSeq) (fun _ => { w with step := w.step + 1 }) := by
  have h := ((traceSwitch_within w y w.outCtxs (switchEffect w y ce s)).switches rfl).trans (switchEffect_switches w y ce s)
  rw [← h]
  rfl

/-- Before its last step a switch goes on to the next one. -/
theorem switchStepDone_next {seq : Nat} {w : Switch} (y : Disp) (ce : List Nat) (h4 : w.step + 1 ≠ 4)
    (hw : s.switches.find? (fun v => v.inSeq == seq) = some w) :
    (∀ v ∈ (switchStepDone w y ce s).switches, v.inSeq = seq → v.step = w.step + 1) ∧
      ∃ v ∈ (switchStepDone w y ce s).switches, v.inSeq = seq ∧ v.step = w.step + 1 := by
  have hseq : w.inSeq = seq := by simpa using List.find?_some hw
  rw [switchStepDone_switches, if_neg h4, updIf, hseq]
  constructor
  · intro v hv hvs
    obtain ⟨u, -, rfl⟩ := List.mem_map.1 hv
    split at hvs
    · rw [if_pos ‹_›]
    · next hu => exact absurd (beq_iff_eq.2 hvs) hu
  · exact ⟨{ w with step := w.step + 1 }, List.mem_map.2 ⟨w, List.mem_of_find?_eq_some hw, by simp [hseq]⟩, hseq, rfl⟩

/-! ### The first step: what stands on the dies is parked -/

theorem parkDie_run (z : Disp) (d e : Die) (s : State) :
    ((parkDie z d s).die e).run = if e = d then none else (s.die e).run := by
  unfold parkDie
  extract_lets left
  have hleft : left.dies = s.dies := by
    refine foldl_same (fun t => t.dies) _ _ s fun t p => ?_
    dsimp only
    split
    · rfl
    · split <;> rfl
  split
  · next he => rw [he, State.modDie_self]
  · next he =>
    rw [State.modDie_other _ _ he]
    clear_value left
    exact congrArg DieSt.run (State.die_congr (t := left.modDisp _ _) hleft e)

/-- The DISPATCH that stands on a die leaves it. -/
def leaveDie (s : State) (d : Die) : State :=
  match (s.die d).run with
  | some q => match s.disp q with
    | some z => parkDie z d s
    | none => s
  | none => s

theorem switchEffect_first {w : Switch} (y : Disp) (ce : List Nat) (s : State) (h : w.step = 0) :
    switchEffect w y ce s = w.dies.foldl leaveDie s := if_pos h

theorem leaveDie_sameDisps (s : State) (d : Die) : SameDisps s (leaveDie s d) := by
  unfold leaveDie
  split
  · split
    · exact parkDie_sameDisps ..
    · exact .refl _
  · exact .refl _

theorem leaveDie_run (s : State) (d e : Die) :
    ((leaveDie s d).die e).run = (s.die e).run ∨ ((leaveDie s d).die e).run = none := by
  unfold leaveDie
  split
  · split
    · rw [parkDie_run]
      split
      · exact .inr rfl
      · exact .inl rfl
    · exact .inl rfl
  · exact .inl rfl

theorem leaveDie_self {d : Die} (h : ∀ q, (s.die d).run = some q → (s.disp q).isSome = true) :
    ((leaveDie s d).die d).run = none := by
  unfold leaveDie
  split
  · next q hq =>
    obtain ⟨z, hz⟩ := Option.isSome_iff_exists.1 (h q hq)
    simp only [hz, parkDie_run, if_true]
  · assumption

theorem leaveDies_run {dies : List Die} {d : Die} (hd : d ∈ dies)
    (h : ∀ q, (s.die d).run = some q → (s.disp q).isSome = true) : ((dies.foldl leaveDie s).die d).run = none := by
  refine foldl_hits' (fun t => ∀ q, (t.die d).run = some q → (t.disp q).isSome = true) (fun t => (t.die d).run = none)
    dies leaveDie d s hd h ?_ (fun t ht => leaveDie_self ht) ?_
  · intro t e ht q hq
    rw [SameDisps.isSome q (leaveDie_sameDisps t e)]
    rcases leaveDie_run t e d with hrun | hrun
    · exact ht q (hrun ▸ hq)
    · rw [hrun] at hq; cases hq
  · intro t e ht
    rcases leaveDie_run t e d with hrun | hrun
    · exact hrun.trans ht
    · exact hrun

/-! ### The second step: live state is saved -/

/-- The dies on which each context's state is saved. -/
def State.saved (s : State) (m : CtxId) : List Die := (s.ctx m).savedDies

abbrev SameSaved : State → State → Prop := Same State.saved

namespace SameSaved

variable {s t : State}

theorem of_ctxs (h : t.ctxs = s.ctxs) : SameSaved s t := ⟨funext fun m => by rw [State.saved, State.ctx_congr h]; rfl⟩

theorem of_within {ps : List Part} (h : Within ps s t) (hc : ps.contains .ctxs = false) : SameSaved s t :=
  of_ctxs (h.ctxs hc)

theorem modCtx {n : CtxId} {f : Ctx → Ctx} (h : ∀ c, (f c).savedDies = c.savedDies) : SameSaved s (s.modCtx n f) := by
  refine ⟨funext fun m => ?_⟩
  by_cases hm : m = n
  · rw [State.saved, hm, State.modCtx_self, h]; rfl
  · rw [State.saved, State.modCtx_other _ _ hm]; rfl

theorem of_freeBits {w : Nat} {v : BitVec w} (h : s.freeBits w = (v, t)) : SameSaved s t := by
  cases h
  exact of_ctxs rfl

theorem of_freeSome {α : Type} {l k : List α} (h : s.freeSome l = (k, t)) : SameSaved s t := by
  cases h
  exact of_ctxs rfl

theorem modCore (d : Die) (p : PCore) (f : Core → Core) : SameSaved s (s.modCore d p f) := of_ctxs rfl

theorem modDisp (q : Nat) (f : Disp → Disp) : SameSaved s (s.modDisp q f) := of_ctxs rfl

theorem keepPart (n : CtxId) (d : Die) : SameSaved s (s.keepPart n d) := by
  unfold State.keepPart
  exact modCtx fun _ => rfl

end SameSaved

theorem writePart_within (n : CtxId) (d : Die) (s : State) :
    Within [.mem, .acct, .regs, .free, .hostMem, .bad] s (writePart n d s) := (writePart_keeps rfl (Keeps.refl _ s)).rest

theorem moveFault_within (n : CtxId) (d : Die) (a : Option Nat) (s : State) : Within [.reports] s (s.moveFault n d a) :=
  (State.moveFault_keeps rfl (Keeps.refl _ s)).rest

theorem readCe_within (a len : Nat) (ce : List Nat) (s : State) :
    Within [.mcs, .regs, .dies, .cores] s (s.readCe a len ce) := (State.readCe_keeps rfl (Keeps.refl _ s)).rest

/-- A save writes its part and adds the die to those of the context's saved state. -/
theorem saveDie_eq (n : CtxId) (d : Die) (ce : List Nat) (s : State) : ∃ t, SameSaved s t ∧
    saveDie n d ce s = t.modCtx n (fun c => { c with
      savedDies := c.savedDies ++ [d], semMoved := c.semMoved.filter (fun k => k / 256 ≠ d.val) }) := by
  refine ⟨(writePart n d ((s.readCe (galBase d.val + (s.share n).1) (s.share n).2 ce).moveFault n d _)).keepPart n d,
    ?_, rfl⟩
  refine Same.trans ?_ (SameSaved.keepPart n d)
  refine Same.trans ?_ (SameSaved.of_within (writePart_within ..) rfl)
  exact (SameSaved.of_within (readCe_within ..) rfl).trans (SameSaved.of_within (moveFault_within ..) rfl)

theorem saveDie_saved (n m : CtxId) (d : Die) (ce : List Nat) (s : State) :
    (saveDie n d ce s).saved m = if m = n then s.saved n ++ [d] else s.saved m := by
  obtain ⟨t, ht, hsave⟩ := saveDie_eq n d ce s
  rw [hsave, ← ht.app n, ← ht.app m]
  split
  · next hm => rw [State.saved, hm, State.modCtx_self]; rfl
  · next hm => rw [State.saved, State.modCtx_other _ _ hm]; rfl

theorem saveDie_within (n : CtxId) (d : Die) (ce : List Nat) (s : State) :
    Within [.mcs, .regs, .dies, .cores, .reports, .ctxs, .mem, .acct, .free, .hostMem, .bad] s (saveDie n d ce s) :=
  (saveDie_keeps rfl (Keeps.refl _ s)).rest

theorem liveState_congr {t : State} (hd : t.disps = s.disps) (hc : t.chains = s.chains) (n : CtxId) (d : Die) :
    t.liveState n d = s.liveState n d := by
  rw [State.liveState, State.liveState, hd, hc]

/-- A context's state on a die is saved where it is live. -/
def saveOut (ce : List Nat) (s : State) (o : Die × CtxId) : State :=
  if s.liveState o.2 o.1 then saveDie o.2 o.1 ce s else s

theorem switchEffect_second {w : Switch} (y : Disp) (ce : List Nat) (s : State) (h : w.step = 1) :
    switchEffect w y ce s = w.outCtxs.foldl (saveOut ce) s := by
  unfold switchEffect
  rw [if_neg (by omega), if_pos h]
  rfl

theorem saveOut_live (ce : List Nat) (s : State) (o : Die × CtxId) (n : CtxId) (d : Die) :
    (saveOut ce s o).liveState n d = s.liveState n d := by
  unfold saveOut
  split
  · have h := saveDie_within o.2 o.1 ce s
    exact liveState_congr (h.disps rfl) (h.chains rfl) n d
  · rfl

theorem saveOut_saved {ce : List Nat} {o : Die × CtxId} {m : CtxId} {d : Die} (h : d ∈ s.saved m) :
    d ∈ (saveOut ce s o).saved m := by
  unfold saveOut
  split
  · rw [saveDie_saved]
    split
    · next hm => exact List.mem_append_left _ (hm ▸ h)
    · exact h
  · exact h

theorem saveOuts_saved {outs : List (Die × CtxId)} {d : Die} {m : CtxId} (ce : List Nat) (hd : (d, m) ∈ outs)
    (hlive : s.liveState m d = true) : d ∈ (outs.foldl (saveOut ce) s).saved m := by
  refine foldl_hits' (fun t => t.liveState m d = true) (fun t => d ∈ t.saved m) outs (saveOut ce) (d, m) s hd hlive
    (fun t o ht => (saveOut_live ce t o m d).trans ht) (fun t ht => ?_) (fun t o ht => saveOut_saved ht)
  rw [saveOut, if_pos ht, saveDie_saved, if_pos rfl]
  simp

/-! ### The third step: the incoming context's state comes -/

theorem setSem_sameSaved (n : CtxId) (f i v : Nat) (s : State) : SameSaved s (s.setSem n f i v) :=
  SameSaved.modCtx fun _ => rfl

theorem setStall_sameSaved (n : CtxId) (k v : Nat) (s : State) : SameSaved s (s.setStall n k v) :=
  SameSaved.modCtx fun _ => rfl

theorem copyBytes_within (src dst len : Nat) (s : State) : Within [.mem] s (s.copyBytes src dst len) :=
  (State.copyBytes_keeps rfl (Keeps.refl _ s)).rest

theorem scramble_within (a n : Nat) (s : State) : Within [.free, .hostMem, .mem] s (s.scramble a n) :=
  (State.scramble_keeps rfl (Keeps.refl _ s)).rest

theorem readPart_sameSaved (n : CtxId) (d : Die) (s : State) : SameSaved s (readPart n d s) := by
  unfold readPart
  extract_lets a moved cores
  have hcores : SameSaved s cores := by
    refine .foldl _ _ fun t c => ?_
    split
    · next p _ =>
      exact (SameSaved.of_within (copyBytes_within ..) rfl).trans (SameSaved.modCore ..)
    · exact .refl _
  refine hcores.trans (.foldl _ _ fun t i => ?_)
  exact .ite (setStall_sameSaved ..) ((setStall_sameSaved ..).trans (setSem_sameSaved ..))

theorem restorePos_sameSaved (n : CtxId) (d : Die) (s : State) : SameSaved s (restorePos n d s) := by
  unfold restorePos
  extract_lets placed
  have hplaced : SameSaved s placed := by
    refine .foldl _ _ fun t y => .foldl _ _ fun u e => ?_
    split
    · next hfree => exact (SameSaved.of_freeSome hfree).trans (SameSaved.modDisp ..)
  refine hplaced.trans (.foldl _ _ fun t g => ?_)
  split
  · next hfree => exact (SameSaved.of_freeSome hfree).trans (SameSaved.modCtx fun _ => rfl)

theorem restoreLost_sameSaved (n : CtxId) (d : Die) (s : State) : SameSaved s (restoreLost n d s) := by
  unfold restoreLost
  extract_lets pos cores sems
  have hcores : SameSaved pos cores := by
    refine .foldl _ _ fun t c => ?_
    split
    · split
      · next hfree =>
        exact ((SameSaved.of_freeBits hfree).trans (SameSaved.of_within (scramble_within ..) rfl)).trans
          (SameSaved.modCore ..)
    · exact .refl _
  have hsems : SameSaved cores sems := by
    refine .foldl _ _ fun t i => ?_
    split
    · next hfree => exact (SameSaved.of_freeBits hfree).trans (setSem_sameSaved ..)
  refine ((restorePos_sameSaved n d s).trans hcores).trans (hsems.trans (.foldl _ _ fun t i => ?_))
  split
  · next hfree => exact (SameSaved.of_freeBits hfree).trans (setStall_sameSaved ..)

/-- The dies that a restore leaves in a context's list of saved ones. -/
theorem restoreDie_saved (n : CtxId) (d : Die) (ce : List Nat) (s : State) :
    (restoreDie n d ce s).saved n = (s.saved n).filter (fun x => x ≠ d) := by
  unfold restoreDie
  extract_lets a runs kept counted faulted taken back done
  have hcount : SameSaved s counted := ((SameSaved.of_within (countRuns_within ..) rfl).trans
    (SameSaved.of_within (chargeRuns_within ..) rfl)).trans (SameSaved.of_within
      (State.countCes_keeps (ps := [.mcs, .regs, .dies, .cores]) rfl (Keeps.refl _ _)).rest rfl)
  have hfault : SameSaved counted faulted :=
    SameSaved.of_within (moveFault_within ..) rfl
  have hback : SameSaved taken back := .ite (readPart_sameSaved ..) (restoreLost_sameSaved ..)
  have hdone : SameSaved back done := SameSaved.modCtx fun _ => rfl
  have hlines : SameSaved done ((done.inService d).foldl
      (fun s p => s.modCore d p (fun k => { k with badLines := [] })) done) := .foldl _ _ fun t p => SameSaved.modCore ..
  rw [((hback.trans hdone).trans hlines).app n, ← (hcount.trans hfault).app n]
  exact congrArg Ctx.savedDies (State.modCtx_self _ _ _)

theorem restoreDie_sameHold (n : CtxId) (d : Die) (ce : List Nat) (s : State) : SameHold s (restoreDie n d ce s) := by
  unfold restoreDie
  extract_lets a runs kept counted faulted taken back done
  have hcount : SameHold s counted := countRead_sameHold ..
  have hfault : SameHold counted faulted :=
    SameHold.of_within (moveFault_within ..) rfl
  have hback : SameHold taken back := .ite
    (SameHold.of_within (readPart_keeps (ps := [.cores, .mem, .ctxs]) rfl (Keeps.refl _ taken)).rest rfl)
    (SameHold.of_within (restoreLost_keeps (ps := [.free, .disps, .ctxs, .cores, .hostMem, .mem]) rfl
      (Keeps.refl _ taken)).rest rfl)
  have htaken : SameHold faulted taken := SameHold.of_dies rfl
  have hdone : SameHold back done := SameHold.of_dies rfl
  exact ((hcount.trans hfault).trans htaken).trans ((hback.trans hdone).trans (.foldl _ _ fun t p => SameHold.of_dies rfl))

/-- What stands on a die becomes the incoming DISPATCH's context's state there: its saved one, or zeros where another
context's stood. -/
def bringState (y : Disp) (ce : List Nat) (s : State) (d : Die) : State :=
  if (s.ctx y.ctx).savedDies.contains d then restoreDie y.ctx d ce s
  else if (s.die d).stale || (match (s.die d).lastCtx with
      | some m => decide (m ≠ y.ctx)
      | none => false) then zeroDie d s
  else s

/-- A die's part of the third step. -/
def enterDie (y : Disp) (ce : List Nat) (s : State) (d : Die) : State :=
  (bringState y ce s d).modDie d (fun x => { x with lastCtx := some y.ctx, stale := false })

theorem switchEffect_third {w : Switch} (y : Disp) (ce : List Nat) (s : State) (h : w.step = 2) :
    switchEffect w y ce s = w.dies.foldl (enterDie y ce) s := by
  unfold switchEffect
  rw [if_neg (by omega), if_neg (by omega), if_pos h]
  rfl

theorem zeroDie_within (d : Die) (s : State) : Within [.cores, .mem] s (zeroDie d s) :=
  (zeroDie_keeps rfl (Keeps.refl _ s)).rest

theorem bringState_saved (y : Disp) (ce : List Nat) (s : State) (d : Die) :
    (bringState y ce s d).saved y.ctx = (s.saved y.ctx).filter (fun x => x ≠ d) := by
  unfold bringState
  split
  · exact restoreDie_saved ..
  · next hd =>
    have hno : (s.saved y.ctx).filter (fun x => x ≠ d) = s.saved y.ctx :=
      List.filter_eq_self.2 fun e he => decide_eq_true fun hed => hd (List.contains_iff_mem.2 (hed ▸ he))
    rw [hno]
    exact (Same.ite (SameSaved.of_within (zeroDie_within d s) rfl) (.refl _)).app y.ctx

theorem bringState_sameHold (y : Disp) (ce : List Nat) (s : State) (d : Die) : SameHold s (bringState y ce s d) :=
  .ite (restoreDie_sameHold ..) (.ite (SameHold.of_within (zeroDie_within d s) rfl) (.refl _))

/-- No saved state of a DISPATCH's context is left on a die, on which its state now stands. -/
def Entered (y : Disp) (d : Die) (t : State) : Prop :=
  d ∉ (t.ctx y.ctx).savedDies ∧ (t.die d).lastCtx = some y.ctx ∧ (t.die d).stale = false

theorem enterDie_saved (y : Disp) (ce : List Nat) (s : State) (d : Die) :
    ((enterDie y ce s d).ctx y.ctx).savedDies = (s.saved y.ctx).filter (fun x => x ≠ d) :=
  bringState_saved ..

theorem enterDie_enters (y : Disp) (ce : List Nat) (s : State) (d : Die) : Entered y d (enterDie y ce s d) := by
  refine ⟨?_, ?_, ?_⟩
  · rw [enterDie_saved]
    simp
  all_goals rw [enterDie, State.modDie_self]

theorem Entered.enterDie {y : Disp} {d : Die} (h : Entered y d s) (ce : List Nat) (e : Die) :
    Entered y d (enterDie y ce s e) := by
  obtain ⟨hsaved, hlast, hstale⟩ := h
  by_cases hde : d = e
  · exact hde ▸ enterDie_enters y ce s d
  have hhold := (bringState_sameHold y ce s e).app d
  simp only [State.holds, DieSt.hold, Prod.mk.injEq] at hhold
  obtain ⟨-, hl, hs⟩ := hhold
  refine ⟨fun hd => hsaved ?_, ?_, ?_⟩
  · rw [enterDie_saved] at hd
    exact List.mem_of_mem_filter hd
  · rw [Machine.enterDie, State.modDie_other _ _ hde, hl, hlast]
  · rw [Machine.enterDie, State.modDie_other _ _ hde, hs, hstale]

theorem enterDies_enters {y : Disp} {dies : List Die} {d : Die} (hd : d ∈ dies) (ce : List Nat) :
    Entered y d (dies.foldl (enterDie y ce) s) :=
  foldl_hits (Entered y d) dies (enterDie y ce) d s hd (fun t => enterDie_enters y ce t d) fun _ e ht => ht.enterDie ce e

/-! ### The fourth step: the incoming DISPATCH runs -/

theorem switchEffect_fourth {w : Switch} (y : Disp) (ce : List Nat) (s : State) (h : w.step = 3) :
    switchEffect w y ce s = goDispatch y ce s := by
  unfold switchEffect
  rw [if_neg (by omega), if_neg (by omega), if_neg (by omega)]

theorem runsNow_congr {t u : State} {y : Disp} (h : RunsNow s t y) (hdies : u.dies = t.dies) (hdisps : u.disps = t.disps) :
    RunsNow s u y := by
  obtain ⟨hz, hhold⟩ := h
  refine ⟨?_, fun d hd => ?_⟩
  · rw [State.disp, hdisps]
    exact hz
  · rw [State.die_congr hdies]
    exact hhold d hd

end Sys2Proof.Machine
end

section
/-! SUPPORT. The completion of a DISPATCH: its descriptor is done, it is gone, and the DISPATCHes that its chain held and
that start now bring it back nowhere (R149, R339). -/

namespace Sys2Proof.Machine

/-! ### A DISPATCH that is gone -/

/-- No descriptor of a number is open and no DISPATCH of that number is there. -/
structure Ended (q : Nat) (t : State) : Prop where
  done : doneAll q t
  gone : t.disp q = none

variable {s t : State} {q : Nat}

/-- A DISPATCH that has ended stays so when no descriptor but a done one comes and no DISPATCH changes. -/
theorem Ended.of_rel (h : Ended q s) (hdescs : ∀ y ∈ t.descs, y ∈ s.descs ∨ y.st = .done) (hdisps : t.disps = s.disps) :
    Ended q t := by
  refine ⟨fun y hy hseq => ?_, ?_⟩
  · rcases hdescs y hy with hy | hdone
    · exact h.done y hy hseq
    · exact hdone
  · rw [State.disp, hdisps]
    exact h.gone

theorem Ended.modDesc (h : Ended q s) (r : Nat) (f : Desc → Desc) (hf : r ≠ q ∨ ∀ y, (f y).st = y.st) :
    Ended q (s.modDesc r f) := by
  refine ⟨fun y hy hseq => ?_, h.gone⟩
  obtain ⟨z, hz, rfl⟩ := List.mem_map.1 hy
  split at hseq
  · next hr =>
    rw [if_pos hr]
    have hzq : z.seq = q := hseq
    rcases hf with hne | hf
    · exact absurd (hzq ▸ (beq_iff_eq.1 hr).symm) hne
    · exact (hf z).trans (h.done z hz hzq)
  · next hr =>
    rw [if_neg hr]
    exact h.done z hz hseq

theorem complete_disps (s : State) (r : Nat) (st : Byte) (dt : W16) : (s.complete r st dt).disps = s.disps :=
  (State.complete_keeps (ps := [.hostMem, .mem, .reports, .acct, .free, .regs, .bad, .rings, .descs, .ctxs, .hub, .out]) rfl
    (Keeps.refl _ s)).rest.disps rfl

theorem Ended.complete (h : Ended q s) (r : Nat) (st : Byte) (dt : W16) : Ended q (s.complete r st dt) :=
  h.of_rel (complete_rel s r st dt) (complete_disps s r st dt)

theorem Ended.refuse (h : Ended q s) (x : Desc) (e : Byte × Nat) (late : Bool) : Ended q (refuseDispatch x e late s) := by
  unfold refuseDispatch
  refine Ended.complete ?_ _ _ _
  split
  · exact ⟨h.done, h.gone⟩
  · exact h

/-- A result that passes a check is that of what follows the check. -/
theorem ok_of_check {ε α : Type} {c : Prop} [Decidable c] {e : ε} {a : Except ε α} {x : α}
    (h : (if c then .error e else a) = Except.ok x) : a = .ok x := by
  split at h
  · cases h
  · exact h

/-- The DISPATCH that is admitted is that of the descriptor. -/
theorem admission_seq {y z : Disp} (h : s.admission y = .ok z) : z.seq = y.seq := by
  have hwalk := ok_of_check (ok_of_check h)
  split at hwalk
  · cases hwalk
  · cases ok_of_check (ok_of_check hwalk)
    rfl

theorem Ended.enters (h : Ended q s) {r : Nat} {y : Disp} (hr : r ≠ q) (hy : y.seq = r) :
    Ended q { s.markStarted r with disps := s.disps ++ [y] } := by
  have hm : Ended q (s.markStarted r) := h.modDesc r _ (.inl hr)
  refine ⟨hm.done, ?_⟩
  have hgone : s.disps.find? (fun x => x.seq == q) = none := h.gone
  show (s.disps ++ [y]).find? (fun x => x.seq == q) = none
  rw [List.find?_append, hgone]
  simp [hy, hr]

theorem Ended.decide (h : Ended q s) {x : Desc} (hx : x.seq ≠ q) : Ended q (decideDispatch x s) := by
  unfold decideDispatch
  split
  · exact h.refuse ..
  · split
    · exact h.refuse ..
    · split
      · exact h.refuse ..
      · next hy => exact h.enters hx (admission_seq hy)

theorem Ended.start (h : Ended q s) {r : Nat} (hr : r ≠ q) : Ended q (startDispatch r s) := by
  unfold startDispatch
  split
  · exact h
  · next x hx =>
    have hseq : x.seq = r := by simpa using List.find?_some hx
    split
    · exact h.modDesc _ _ (.inr fun _ => rfl)
    · exact h.decide (hseq ▸ hr)

/-- A chain holds no DISPATCH whose descriptors are done. -/
theorem Ended.not_waiting (h : Ended q s) {r : Nat} (hr : r ∈ s.chainWaiting) : r ≠ q := by
  rintro rfl
  obtain ⟨x, hx, hseq⟩ := List.mem_map.1 hr
  obtain ⟨hmem, hwaits⟩ := List.mem_filter.1 hx
  have hdone := h.done x hmem hseq
  simp [hdone] at hwaits

theorem Ended.releaseChains (h : Ended q s) : Ended q (releaseChains s) :=
  List.foldlRecOn s.chainWaiting (fun s q => startDispatch q s) (motive := Ended q) h
    fun _ ht _ hr => ht.start (h.not_waiting hr)

/-! ### Its dies -/

theorem writeSample_within (k : Nat) (n : CtxId) (d : Die) (c : Counters) (final : Bool) (s : State) :
    Within [.ctxs, .free, .mem, .acct, .regs, .bad] s (writeSample k n d c final s) :=
  (writeSample_keeps rfl (Keeps.refl _ s)).rest

theorem writeDue_sameHold (p : CtxId → Bool) (d : Die) (s : State) : SameHold s (writeDue p d s) := by
  unfold writeDue
  extract_lets due written
  have hw : SameHold s written := .foldl _ _ fun t x => SameHold.of_within (writeSample_within ..) rfl
  exact hw.trans (SameHold.modDie fun _ => rfl)

theorem settleCtr_sameHold {c k : Counters} (h : s.settleCtr c = (k, t)) : SameHold s t := by
  cases h
  exact SameHold.of_dies rfl

/-- A final sample is written and its die freed. -/
theorem finalSample_eq (n : CtxId) (d : Die) (s : State) : ∃ t f, SameHold s t ∧ (∀ x, DieSt.run (f x) = none) ∧
    finalSample n d s = t.modDie d f := by
  unfold finalSample
  extract_lets due
  have hdue : SameHold s due := writeDue_sameHold ..
  clear_value due
  split
  next c u hc =>
  exact ⟨writeSample u.now n d c true u, _, (hdue.trans (settleCtr_sameHold hc)).trans
    (SameHold.of_within (writeSample_within ..) rfl), fun _ => rfl, rfl⟩

/-- A final sample frees its die and no other. -/
theorem finalSample_run (n : CtxId) (d e : Die) (s : State) :
    ((finalSample n d s).die e).run = if e = d then none else (s.die e).run := by
  obtain ⟨t, f, ht, hf, heq⟩ := finalSample_eq n d s
  rw [heq]
  split
  · next he => rw [he, State.modDie_self, hf]
  · next he =>
    rw [State.modDie_other _ _ he]
    exact congrArg Prod.fst (ht.app e)

/-- The dies of a completing DISPATCH are sampled for the last time. -/
def sampleDies (y : Disp) (s : State) : State := y.dies.foldl (fun s d => finalSample y.ctx d s) s

theorem sampleDies_run {y : Disp} {d : Die} (hd : d ∈ y.dies) (s : State) : ((sampleDies y s).die d).run = none := by
  refine foldl_hits (fun t => (t.die d).run = none) y.dies _ d s hd (fun t => ?_) fun t e ht => ?_
  · rw [finalSample_run, if_pos rfl]
  · rw [finalSample_run]
    split
    · rfl
    · exact ht

/-! ### The completion -/

theorem sampleDies_within (y : Disp) (s : State) :
    Within [.ctxs, .free, .mem, .acct, .regs, .bad, .dies] s (sampleDies y s) :=
  fold_inv (Within _ s) _ _ s (.refl _ s) fun t _ h => h.trans (finalSample_keeps rfl (Keeps.refl _ t)).rest

/-- A tail closes its chain. -/
def chainClosed (y : Disp) (s : State) : State :=
  if y.role = 3 then
    { s with chains := s.chains.filter (fun c =>
        !(decide (c.ctx = y.ctx) && c.handle == y.handle && c.group == y.group)) }
  else s

/-- A missed deadline is counted (R349). -/
def missCounted (y : Disp) (s : State) : State :=
  let late := match y.deadline with
    | some t => decide (t < s.now)
    | none => false
  if late then s.modReg .hifDeadlineMiss 0 0 0 (fun v => v + 1) else s

/-- The state in which a DISPATCH is taken out, before its descriptor completes. -/
def takenOut (y : Disp) (s : State) : State :=
  let u := (missCounted y (chainClosed y (sampleDies y s))).traceDisp y 0x02 y.status.1.toNat
  { u with disps := u.disps.filter (fun z => z.seq != y.seq) }

theorem dispatchComplete_eq (y : Disp) (s : State) :
    dispatchComplete y s = releaseChains ((takenOut y s).complete y.seq y.status.1 y.status.2) := rfl

theorem chainClosed_within (y : Disp) (s : State) : Within [.chains] s (chainClosed y s) := by
  unfold chainClosed
  split
  · exact rfl
  · exact .refl _ s

theorem missCounted_within (y : Disp) (s : State) : Within [.regs] s (missCounted y s) := by
  unfold missCounted
  extract_lets late
  split
  · exact rfl
  · exact .refl _ s

theorem takenOut_dies (y : Disp) (s : State) : (takenOut y s).dies = (sampleDies y s).dies :=
  ((traceDisp_within ..).dies rfl).trans (((missCounted_within ..).dies rfl).trans ((chainClosed_within ..).dies rfl))

theorem takenOut_chains (y : Disp) (s : State) : (takenOut y s).chains = (chainClosed y (sampleDies y s)).chains :=
  ((traceDisp_within ..).chains rfl).trans ((missCounted_within ..).chains rfl)

theorem takenOut_descs (y : Disp) (s : State) : (takenOut y s).descs = s.descs :=
  ((traceDisp_within ..).descs rfl).trans (((missCounted_within ..).descs rfl).trans
    (((chainClosed_within ..).descs rfl).trans ((sampleDies_within ..).descs rfl)))

theorem takenOut_gone (y : Disp) (s : State) : (takenOut y s).disp y.seq = none := by
  refine List.find?_eq_none.2 fun z hz => ?_
  obtain ⟨-, hne⟩ := List.mem_filter.1 hz
  simpa using hne

/-- What completes and what a chain lets go then changes neither dies nor chains. -/
theorem completed_within (q : Nat) (st : Byte) (dt : W16) (s : State) :
    Within [.descs, .hostMem, .mem, .reports, .acct, .free, .regs, .bad, .rings, .ctxs, .hub, .out, .disps] s
      (releaseChains (s.complete q st dt)) :=
  (releaseChains_keeps rfl (State.complete_keeps rfl (Keeps.refl _ s))).rest

theorem dispatchComplete_run {y : Disp} {d : Die} (hd : d ∈ y.dies) (s : State) :
    ((dispatchComplete y s).die d).run = none := by
  rw [dispatchComplete_eq, State.die_congr ((completed_within ..).dies rfl), State.die_congr (takenOut_dies y s)]
  exact sampleDies_run hd s

theorem dispatchComplete_chains {y : Disp} (h : y.role = 3) (s : State) :
    ∀ c ∈ (dispatchComplete y s).chains, ¬ (c.ctx = y.ctx ∧ c.handle = y.handle ∧ c.group = y.group) := by
  rw [dispatchComplete_eq, (completed_within ..).chains rfl, takenOut_chains, chainClosed, if_pos h]
  rintro c hc ⟨hctx, hhandle, hgroup⟩
  obtain ⟨-, hne⟩ := List.mem_filter.1 hc
  simp [hctx, hhandle, hgroup] at hne

theorem dispatchComplete_ended {y : Disp} {x : Desc} (hx : s.desc y.seq = some x) (hopen : x.st ≠ .done) :
    Ended y.seq (dispatchComplete y s) := by
  have hdesc : (takenOut y s).desc y.seq = some x := by rw [State.desc, takenOut_descs]; exact hx
  rw [dispatchComplete_eq]
  refine Ended.releaseChains ⟨complete_doneAll _ _ _ _ x hdesc hopen, ?_⟩
  rw [State.disp, complete_disps]
  exact takenOut_gone y s

theorem execDispatchComplete_eq {seq : Nat} {y : Disp} (hy : s.disp seq = some y) (hst : y.st = .running)
    (hfin : s.finished y = true) (hrec : s.recovery = none) (hhub : s.hub.takeover = false) :
    exec (.dispatchComplete seq) s = .next (dispatchComplete y s) := by
  show execDispatchComplete seq s = _
  have hup : s.hubUp = true := by rw [State.hubUp, hhub]; rfl
  simp [execDispatchComplete, hy, hst, hfin, hrec, hup]

end Sys2Proof.Machine
end

section
/-! SUPPORT. The four steps of a switch, each with the progress it makes (R355 Table 3). -/

namespace Sys2Proof.Machine

variable {s : State} {seq : Nat} {w : Switch}

theorem switchStepDone_first (y : Disp) (ce : List Nat) (hw : s.switches.find? (fun v => v.inSeq == seq) = some w)
    (h : w.step = 0) : let t := switchStepDone w y ce s
    (∀ v ∈ t.switches, v.inSeq = seq → v.step = 1) ∧ (∃ v ∈ t.switches, v.inSeq = seq ∧ v.step = 1) ∧
      ∀ d ∈ w.dies, ∀ q, (s.die d).run = some q → (s.disp q).isSome → (t.die d).run = none := by
  obtain ⟨hall, hone⟩ := switchStepDone_next y ce (by omega) hw
  rw [h] at hall hone
  refine ⟨hall, hone, fun d hd q hq hthere => ?_⟩
  rw [State.die_congr (switchStepDone_effect w y ce s).1, switchEffect_first y ce s h]
  refine leaveDies_run hd fun r hr => ?_
  rw [hq, Option.some.injEq] at hr
  exact hr ▸ hthere

theorem switchStepDone_second (y : Disp) (ce : List Nat) (hw : s.switches.find? (fun v => v.inSeq == seq) = some w)
    (h : w.step = 1) : let t := switchStepDone w y ce s
    (∃ v ∈ t.switches, v.inSeq = seq ∧ v.step = 2) ∧
      ∀ d m, (d, m) ∈ w.outCtxs → s.liveState m d = true → d ∈ (t.ctx m).savedDies := by
  obtain ⟨-, hone⟩ := switchStepDone_next y ce (by omega) hw
  rw [h] at hone
  refine ⟨hone, fun d m hout hlive => ?_⟩
  rw [State.ctx_congr (switchStepDone_effect w y ce s).2.1, switchEffect_second y ce s h]
  exact saveOuts_saved ce hout hlive

theorem switchStepDone_third (y : Disp) (ce : List Nat) (hw : s.switches.find? (fun v => v.inSeq == seq) = some w)
    (h : w.step = 2) : let t := switchStepDone w y ce s
    (∃ v ∈ t.switches, v.inSeq = seq ∧ v.step = 3) ∧
      ∀ d ∈ w.dies, d ∉ (t.ctx y.ctx).savedDies ∧ (t.die d).lastCtx = some y.ctx ∧ (t.die d).stale = false := by
  obtain ⟨-, hone⟩ := switchStepDone_next y ce (by omega) hw
  obtain ⟨hdies, hctxs, -⟩ := switchStepDone_effect w y ce s
  rw [h] at hone
  refine ⟨hone, fun d hd => ?_⟩
  rw [State.ctx_congr hctxs, State.die_congr hdies, switchEffect_third y ce s h]
  exact enterDies_enters hd ce

theorem switchStepDone_fourth {y : Disp} (ce : List Nat) (hw : s.switches.find? (fun v => v.inSeq == seq) = some w)
    (hy : s.disp y.seq = some y) (h : w.step = 3) : let t := switchStepDone w y ce s
    RunsNow s t y ∧ ∀ v ∈ t.switches, v.inSeq ≠ seq := by
  have hseq : w.inSeq = seq := by simpa using List.find?_some hw
  obtain ⟨hdies, -, hdisps⟩ := switchStepDone_effect w y ce s
  rw [switchEffect_fourth y ce s h] at hdies hdisps
  refine ⟨runsNow_congr (goDispatch_runsNow ce hy) hdies hdisps, fun v hv => ?_⟩
  rw [switchStepDone_switches, if_pos (by omega), hseq] at hv
  obtain ⟨-, hne⟩ := List.mem_filter.1 hv
  simpa using hne

theorem switchDrained_of_parts {y : Disp} (hcores : ∀ d ∈ w.dies, s.drained d = true)
    (hdma : ∀ n ∈ s.liveOuts w.dies y.ctx, s.dmaBusy n = false) : s.switchDrained w y = true := by
  have h1 : w.dies.all (fun d => s.drained d) = true := List.all_eq_true.2 hcores
  have h2 : (s.liveOuts w.dies y.ctx).all (fun n => !s.dmaBusy n) = true :=
    List.all_eq_true.2 fun n hn => by rw [hdma n hn]; rfl
  rw [State.switchDrained, h1, h2]
  rfl

end Sys2Proof.Machine
end

section
/-! PROOFS. Dispatching. -/

namespace Sys2Proof

open Machine

/-- Settles O36: a waiting DISPATCH takes its dies at once or by a switch, each step of a switch has its effect and makes
its progress, and a finished DISPATCH ends, frees its dies and closes its chain. -/
theorem dispatching : Obligations.Dispatching := by
  refine ⟨?_, ?_, ?_, ?_⟩
  · intro s seq y ce hy hcan
    have hseq : s.disp y.seq = some y := (seq_of_disp hy).symm ▸ hy
    have hthere : (s.disp y.seq).isSome = true := by rw [hseq]; rfl
    refine ⟨fun hneeds => ⟨fun hst => ?_, fun hst => ?_⟩, fun hneeds => ⟨fun hst => ?_, fun hst => ?_⟩⟩
    · refine ⟨_, execDispatchStart_eq ce hy hst hcan, ?_⟩
      rw [takeDies_switches ce hneeds]
      exact ⟨beginSwitch_switching [] hthere, beginSwitch_frame y [] s⟩
    · refine ⟨_, execDispatchResume_eq hy hst hcan, ?_⟩
      rw [takeDies_switches [] hneeds]
      exact ⟨beginSwitch_switching [] hthere, beginSwitch_frame y [] s⟩
    · exact ⟨_, execDispatchStart_eq ce hy hst hcan, takeDies_settles ce hseq hneeds⟩
    · obtain ⟨hruns, hsw, -, harb⟩ := takeDies_settles [] hseq hneeds
      exact ⟨_, execDispatchResume_eq hy hst hcan, hruns, hsw, harb⟩
  · intro s seq x hx hwaits hfirst hv hrec hup
    have hseq := seq_of_disp hx
    subst hseq
    refine ⟨_, execPreemption_eq hx hwaits hfirst hv hrec hup, fun y hy hne hone => preemption_preempts hy hne hone,
      fun hfree => preemption_switching (by rw [hx]; rfl) hfree, preemption_waits⟩
  · intro s seq w y ce hw hy hrec hup
    have hexec := execSwitchStepDone_eq (y := y) ce hw hy hrec hup
    refine ⟨fun h hcores hdma => ?_, fun h => ?_, fun h => ?_, fun h => ?_⟩
    · exact ⟨_, hexec (.inr (switchDrained_of_parts hcores hdma)), switchStepDone_first y ce hw h⟩
    · exact ⟨_, hexec (.inl (by omega)), switchStepDone_second y ce hw h⟩
    · exact ⟨_, hexec (.inl (by omega)), switchStepDone_third y ce hw h⟩
    · exact ⟨_, hexec (.inl (by omega)), switchStepDone_fourth ce hw ((seq_of_disp hy).symm ▸ hy) h⟩
  · rintro s seq y ⟨x, hx, hopen⟩ hy hst hfin hrec hhub
    have hseq := seq_of_disp hy
    subst hseq
    have hended := dispatchComplete_ended hx hopen
    exact ⟨_, execDispatchComplete_eq hy hst hfin hrec hhub, doneAll_isDone _ _ hended.done, hended.gone,
      fun d hd => dispatchComplete_run hd s, fun hrole => dispatchComplete_chains hrole s⟩

end Sys2Proof
end

section
/-! SUPPORT. Plans under their handles: their loading and unloading (R136 to R141), the image's checks after its copy, and
what becomes of a handle when a plan is dropped. -/

namespace Sys2Proof.Machine

/-! ### The plan under a handle -/

theorem State.plan_congr {s t : State} (h : t.plans = s.plans) (n : CtxId) (k : Nat) : t.plan n k = s.plan n k := by
  unfold State.plan
  rw [h]

/-- An update that a search does not look at changes what the search finds and not whether it finds. -/
theorem find_updIf_of_keeps {α : Type} (l : List α) (p q : α → Bool) {f : α → α} (hf : ∀ x, q (f x) = q x) :
    (updIf l p f).find? q = (l.find? q).map (fun x => if p x then f x else x) := by
  unfold updIf
  rw [List.find?_map]
  have hsame : (q ∘ fun x => if p x = true then f x else x) = q := funext fun x => by
    dsimp only [Function.comp]
    split
    · exact hf x
    · rfl
  rw [hsame]

/-- An update of a plan that stays under its handle. -/
def KeepsHandle (f : Plan → Plan) : Prop := ∀ p, (f p).ctx = p.ctx ∧ (f p).handle = p.handle

section
variable {s : State} {n : CtxId} {k : Nat} {f : Plan → Plan}

theorem State.modPlan_plan (hf : KeepsHandle f) (m : CtxId) (j : Nat) :
    (s.modPlan n k f).plan m j = (s.plan m j).map (fun p => if p.ctx = n ∧ p.handle = k then f p else p) := by
  refine (find_updIf_of_keeps s.plans _ _ fun p => ?_).trans ?_
  · rw [(hf p).1, (hf p).2]
  · simp only [Bool.and_eq_true, decide_eq_true_eq, beq_iff_eq]
    rfl

theorem State.plan_key {m : CtxId} {j : Nat} {p : Plan} (h : s.plan m j = some p) : p.ctx = m ∧ p.handle = j := by
  simpa using List.find?_some h

theorem State.modPlan_self (hf : KeepsHandle f) :
    (s.modPlan n k f).plan n k = (s.plan n k).map f := by
  rw [State.modPlan_plan hf]
  exact Option.map_congr fun p hp => if_pos (State.plan_key hp)

theorem State.modPlan_other (hf : KeepsHandle f) {m : CtxId} {j : Nat}
    (hne : ¬ (m = n ∧ j = k)) : (s.modPlan n k f).plan m j = s.plan m j := by
  rw [State.modPlan_plan hf]
  refine (Option.map_congr fun p hp => if_neg ?_).trans Option.map_id_apply
  obtain ⟨rfl, rfl⟩ := State.plan_key hp
  exact hne

end

/-- From `s` to `t` the plan under a handle of a context is gone, and the others stand. -/
structure PlanGone (n : CtxId) (k : Nat) (s t : State) : Prop where
  gone : t.plan n k = none
  others : ∀ m j, ¬ (m = n ∧ j = k) → t.plan m j = s.plan m j

theorem PlanGone.of_dropped {n : CtxId} {k : Nat} {s t : State} (h : t.plans = (s.dropPlan n k).plans) :
    PlanGone n k s t := by
  refine ⟨?_, fun m j hne => ?_⟩ <;> rw [State.plan_congr h]
  · refine List.find?_eq_none.2 fun p hp => ?_
    obtain ⟨-, hkept⟩ := List.mem_filter.1 hp
    simpa only [Bool.not_eq_true, Bool.not_eq_true'] using hkept
  · refine (List.find?_filter ..).trans (congrArg (s.plans.find? ·) (funext fun p => ?_))
    by_cases hp : p.ctx = m ∧ p.handle = j
    · obtain ⟨rfl, rfl⟩ := hp
      have hmiss : (decide (p.ctx = n) && p.handle == k) = false := by simpa using hne
      simp [hmiss]
    · have hmiss : (decide (p.ctx = m) && p.handle == j) = false := by simpa using hp
      simp [hmiss]

/-! ### Operations that leave plans alone -/

theorem State.complete_plans (s : State) (q : Nat) (st : Byte) (dt : W16) : (s.complete q st dt).plans = s.plans :=
  (State.complete_keeps (ps := Parts.any.erase .plans) rfl (Keeps.refl _ s)).rest.plans rfl

theorem State.complete_chains (s : State) (q : Nat) (st : Byte) (dt : W16) : (s.complete q st dt).chains = s.chains :=
  (State.complete_keeps (ps := Parts.any.erase .chains) rfl (Keeps.refl _ s)).rest.chains rfl

theorem State.closeChains_plans (s : State) (p : Chain → Bool) : (s.closeChains p).plans = s.plans :=
  (State.closeChains_keeps (ps := Parts.any.erase .plans) rfl (Keeps.refl _ s)).rest.plans rfl

theorem State.freeBytes_plans (s : State) (k : Nat) : (s.freeBytes k).2.plans = s.plans :=
  (State.freeBytes_keeps (ps := [.free]) rfl (Keeps.refl _ s)).rest.plans rfl

theorem State.scramble_plans (s : State) (a k : Nat) : (s.scramble a k).plans = s.plans :=
  (State.scramble_keeps (ps := [.free, .hostMem, .mem]) rfl (Keeps.refl _ s)).rest.plans rfl

/-! ### The end of a load whose report goes to host memory, R136, R141 -/

theorem loadDone_host {x : Desc} (r : Rep) (digest : List Byte) (fin : State → State) (s : State)
    (h : isHost x.loadReport = true) : loadDone x r digest fin s =
      (fin (s.anyWrite x.loadReport (reportBytes r digest))).complete x.seq (checkStatus r.code)
        (BitVec.ofNat 16 r.code) := by
  unfold loadDone
  rw [hubWrite_host s _ _ h]

/-- A load that is dropped ends its descriptor. -/
theorem loadDone_dropped {x : Desc} {n : CtxId} {k : Nat} (r : Rep) (digest : List Byte) {s t : State}
    (h : isHost x.loadReport = true) (ht : t.plans = (s.dropPlan n k).plans) :
    (loadDone x r digest id t).isDone x.seq = true ∧ PlanGone n k s (loadDone x r digest id t) := by
  rw [loadDone_host r digest id t h]
  exact ⟨complete_isDone .., .of_dropped ((State.complete_plans ..).trans ((State.anyWrite_plans ..).trans ht))⟩

/-- A refused load gives its handle up and ends its descriptor. -/
theorem loadRefused_dropped {x : Desc} {n : CtxId} {k : Nat} (r : Rep) {s t : State}
    (h : isHost x.loadReport = true) (ht : t.plans = (s.dropPlan n k).plans) :
    (loadRefused x r t).isDone x.seq = true ∧ PlanGone n k s (loadRefused x r t) :=
  loadDone_dropped r (t.freeBytes 64).1 h ((State.freeBytes_plans t 64).trans ht)

theorem State.waitingUnload_congr {s t : State} (h : t.descs = s.descs) (n : CtxId) (k load : Nat) :
    t.waitingUnload n k load = s.waitingUnload n k load := by
  unfold State.waitingUnload
  rw [h]

/-- What becomes of a plan whose image passes: it is loaded, or being unloaded when an unload waits (R140). -/
def Plan.checked (unload : Option Nat) (depth : Nat) (p : Plan) : Plan :=
  { p with st := if unload.isSome then .unloading else .loaded, unloadSeq := unload, depth }

theorem Plan.checked_keepsHandle (unload : Option Nat) (depth : Nat) : KeepsHandle (Plan.checked unload depth) :=
  fun _ => ⟨rfl, rfl⟩

theorem planLoaded_eq (n : CtxId) (k load depth : Nat) (s : State) :
    planLoaded n k load depth s = s.modPlan n k (Plan.checked (s.waitingUnload n k load) depth) := rfl

/-- From `s` to `t` a PLAN_LOAD whose image stands in `u` has ended: its plan is loaded, or being unloaded, when the image
passes its checks, and dropped when it fails one. -/
structure LoadEnds (x : Desc) (u s t : State) : Prop where
  done : t.isDone x.seq = true
  others : ∀ m j, ¬ (m = ringCtx x.ring ∧ j = x.handle) → t.plan m j = s.plan m j
  passed : (u.checkCopy (ringCtx x.ring) x.loadDst x.loadLen).1 = none →
    (t.plan (ringCtx x.ring) x.handle).map (fun p => p.st) =
      (s.plan (ringCtx x.ring) x.handle).map (fun _ =>
        if (u.waitingUnload (ringCtx x.ring) x.handle x.seq).isSome then PlanSt.unloading else PlanSt.loaded)
  refused : ∀ r, (u.checkCopy (ringCtx x.ring) x.loadDst x.loadLen).1 = some r →
    t.plan (ringCtx x.ring) x.handle = none

/-- The checks after the copy end the load. -/
theorem loadChecked_ends {x : Desc} (s : State) (h : isHost x.loadReport = true) : LoadEnds x s s (loadChecked x s) := by
  unfold loadChecked
  dsimp only
  split
  next r hcheck =>
    obtain ⟨hdone, hgone⟩ := loadDone_dropped (n := ringCtx x.ring) (k := x.handle) r
      (s.checkCopy (ringCtx x.ring) x.loadDst x.loadLen).2 h (s := s) rfl
    exact ⟨hdone, hgone.others, fun hpass => absurd (hpass.symm.trans hcheck) (by simp), fun _ _ => hgone.gone⟩
  next hcheck =>
    rw [loadDone_host _ _ _ _ h]
    rw [planLoaded_eq]
    refine ⟨complete_isDone .., fun m j hne => ?_, fun _ => ?_,
      fun r hfail => absurd (hcheck.symm.trans hfail) (by simp)⟩
    · rw [State.plan_congr (State.complete_plans ..), State.modPlan_other (Plan.checked_keepsHandle _ _) hne,
        State.plan_congr (State.anyWrite_plans ..)]
    · rw [State.plan_congr (State.complete_plans ..), State.modPlan_self (Plan.checked_keepsHandle _ _), Option.map_map,
        State.plan_congr (State.anyWrite_plans ..), State.waitingUnload_congr (State.anyWrite_descs ..)]
      rfl

/-! ### The copy of a host source -/

theorem checkCopy_chargeBytes (s : State) (m : CtxId) (src : Option Die) (a k : Nat) (n : CtxId) (dst len : Nat) :
    (s.chargeBytes m src a k).checkCopy n dst len = s.checkCopy n dst len := by
  rw [chargeBytes_frame]
  rfl

/-- The image as it stands in its area once copied. -/
def State.copied (s : State) (x : Desc) : State := s.putBytes x.loadDst (s.anyRead x.loadSrc x.loadLen)

theorem planLoadCheck_host {x : Desc} {s : State} (ce : List Nat) (hsrc : isHost x.loadSrc = true)
    (hfault : s.writeFault (ringCtx x.ring) x.loadDst x.loadLen = none) : planLoadCheck x none ce s =
      loadChecked x ((s.copied x).chargeBytes (ringCtx x.ring) none x.loadDst (s.anyRead x.loadSrc x.loadLen).length) := by
  unfold planLoadCheck
  simp only [hsrc, if_true, hfault]
  rfl

/-- A load whose source is the host's and whose area takes the copy ends by the checks of what was copied. -/
theorem planLoadCheck_ends {x : Desc} {s : State} (ce : List Nat) (hsrc : isHost x.loadSrc = true)
    (hrep : isHost x.loadReport = true) (hfault : s.writeFault (ringCtx x.ring) x.loadDst x.loadLen = none) :
    LoadEnds x (s.copied x) s (planLoadCheck x none ce s) := by
  have hends := loadChecked_ends
    ((s.copied x).chargeBytes (ringCtx x.ring) none x.loadDst (s.anyRead x.loadSrc x.loadLen).length) hrep
  rw [← planLoadCheck_host ce hsrc hfault] at hends
  obtain ⟨hdone, hothers, hpassed, hrefused⟩ := hends
  simp only [checkCopy_chargeBytes] at hpassed hrefused
  have hplans : ((s.copied x).chargeBytes (ringCtx x.ring) none x.loadDst (s.anyRead x.loadSrc x.loadLen).length).plans =
      s.plans := by
    rw [chargeBytes_frame]
    exact State.putBytes_plans ..
  have hdescs : ((s.copied x).chargeBytes (ringCtx x.ring) none x.loadDst (s.anyRead x.loadSrc x.loadLen).length).descs =
      (s.copied x).descs := by rw [chargeBytes_frame]
  refine ⟨hdone, fun m j hne => (hothers m j hne).trans (State.plan_congr hplans m j), fun hpass => ?_, hrefused⟩
  rw [hpassed hpass, State.plan_congr hplans, State.waitingUnload_congr hdescs]

/-- A source whose read failed is refused, and the plan dropped. -/
theorem planLoadCheck_unread {x : Desc} (s : State) (off : Nat) (ce : List Nat) (hsrc : isHost x.loadSrc = true)
    (hrep : isHost x.loadReport = true) : (planLoadCheck x (some off) ce s).isDone x.seq = true ∧
      PlanGone (ringCtx x.ring) x.handle s (planLoadCheck x (some off) ce s) := by
  unfold planLoadCheck
  simp only [hsrc, if_true]
  refine loadRefused_dropped _ hrep ?_
  unfold State.dropPlan
  rw [State.scramble_plans]

/-- A PLAN_LOAD whose source is the host's is checked once the clocks on the way to its area run. -/
theorem execPlanLoadCheck_host {s : State} {x : Desc} {p : Plan} {fail : Option Nat} (ce : List Nat)
    (hstart : s.started x.seq 0x0B = some x) (hp : p ∈ s.plans) (hst : p.st = .loading) (hload : p.loadSeq = x.seq)
    (hsrc : isHost x.loadSrc = true) (hruns : s.memRuns none x.loadDst x.loadLen = true)
    (hfail : ∀ off ∈ fail, off < x.loadLen) :
    exec (.planLoadCheck x.seq fail ce) s = .next (planLoadCheck x fail ce s) := by
  have hloading : s.plans.any (fun p => decide (p.st = .loading) && p.loadSeq == x.seq) = true :=
    List.any_eq_true.2 ⟨p, hp, by simp [hst, hload]⟩
  have hside : s.sideRuns none x.loadSrc x.loadLen = true := by rw [State.sideRuns, hsrc, Bool.true_or]
  show execPlanLoadCheck x.seq fail s ce = _
  unfold execPlanLoadCheck
  simp only [hstart, hloading, hside, hruns, Bool.and_true, Bool.true_and]
  cases fail with
  | none => rfl
  | some off => simp [hfail off rfl]

end Sys2Proof.Machine
end

section
/-! SUPPORT. A fetched descriptor whose checks pass, and what it may change before it starts (R328 to R334). -/

namespace Sys2Proof.Machine

/-- A fetched descriptor of a type, before its start. -/
def taken (s : State) (r : RingId) (ty : Nat) : Desc :=
  { seq := s.nextSeq, ring := r, slot := s.headSlot r, ty, bytes := s.headBytes r, time := s.now }

theorem fetch_taken {s : State} {r : RingId} {ty : Nat} (hty : leAt (s.headBytes r) 0 1 = ty) :
    (s.fetch r).2 = taken s r ty := by
  subst hty
  rfl

/-- A fetch whose checks pass starts its descriptor, unless what is done at the fetch has ended it or a FENCE holds it. -/
theorem fetchThen_starts {s : State} {r : RingId} {ty : Nat} {atFetch : Desc → State → State}
    (start : Nat → State → State)
    (hf : s.fetchable r = true) (hty : leAt (s.headBytes r) 0 1 = ty) (hout : s.hub.outOfService = false)
    (hcheck : (s.fetch r).1.commonCheck (ringCtx r) (s.headBytes r) = none) {u : State}
    (hu : atFetch (taken s r ty) (s.fetch r).1 = u) (hopen : u.isDone s.nextSeq = false)
    (hfree : u.fenceHeld (taken s r ty) = false) :
    fetchThen r (tyIs ty) noCheck atFetch start s = start s.nextSeq u := by
  rw [fetchThen_pass s r _ _ _ _ hf (by simp [tyIs, hty]) hout hcheck rfl, fetch_taken hty]
  simp only [hu, hopen, hfree, Bool.false_eq_true, if_false]

/-- Of the state after its read of the slot a fetch changes the ring's place, the descriptors and the arbiter. -/
theorem fetch_within_read (s : State) (r : RingId) :
    Within [.regs, .rings, .descs, .nextSeq, .arb] (s.jobRead (ringCtx r) none (s.slotAddr r (s.headSlot r)) 64)
      (s.fetch r).1 := by
  rw [fetch_eq]
  generalize s.jobRead (ringCtx r) none (s.slotAddr r (s.headSlot r)) 64 = u
  rfl

theorem fetch_nextSeq (s : State) (r : RingId) : (s.fetch r).1.nextSeq = s.nextSeq + 1 :=
  congrArg State.nextSeq (fetch_frame s r)

theorem fetch_plans (s : State) (r : RingId) : (s.fetch r).1.plans = s.plans := by rw [fetch_frame]

theorem fetch_now (s : State) (r : RingId) : (s.fetch r).1.now = s.now := by rw [fetch_frame]

/-- A plan descriptor that starts at its fetch changes plans beside what the fetch changes. -/
theorem fetch_plans_settle {s t : State} {r : RingId} (h : Within [.descs, .plans] (s.fetch r).1 t) :
    ∃ u, Counted s u ∧ t = { u with regs := t.regs, rings := t.rings, descs := t.descs, nextSeq := s.nextSeq + 1
                                    arb := t.arb, plans := t.plans } := by
  refine ⟨_, jobRead_counted s (ringCtx r) none (s.slotAddr r (s.headSlot r)) 64, ?_⟩
  have hread : Within [.regs, .rings, .descs, .nextSeq, .arb, .plans] _ t :=
    ((fetch_within_read s r).mono rfl).trans (h.mono rfl)
  rw [← fetch_nextSeq s r, ← h.nextSeq rfl]
  exact hread

end Sys2Proof.Machine
end

section
/-! SUPPORT. PLAN_LOAD and PLAN_UNLOAD at their fetch, and the effect of an unload (R136, R139, R140). -/

namespace Sys2Proof.Machine

/-- A ring's PLAN_LOAD or PLAN_UNLOAD is next to be fetched, its common checks pass and no FENCE holds it. -/
structure PlanFetch (s : State) (r : RingId) (ty : Nat) : Prop where
  flight : FlightOk s
  fetchable : s.fetchable r = true
  typed : leAt (s.headBytes r) 0 1 = ty
  inService : s.hub.outOfService = false
  checked : s.commonCheck (ringCtx r) (s.headBytes r) = none
  free : s.descs.any (fun f => fenceCovers f r) = false
  noDispatch : ty ≠ 1

namespace PlanFetch

variable {s : State} {r : RingId} {ty : Nat} (h : PlanFetch s r ty)

include h

theorem desc {u : State} (hu : u.descs = (s.fetch r).1.descs) : u.desc s.nextSeq = some (taken s r ty) := by
  rw [State.desc, hu, ← fetch_taken h.typed]
  exact fetch_desc s r h.flight

/-- With descriptors left alone at the fetch, the plan descriptor starts. -/
theorem starts {atFetch : Desc → State → State} (start : Nat → State → State) {u : State}
    (hu : atFetch (taken s r ty) (s.fetch r).1 = u) (hdescs : u.descs = (s.fetch r).1.descs) :
    fetchThen r (tyIs ty) noCheck atFetch start s = start s.nextSeq u := by
  have hcheck : (s.fetch r).1.commonCheck (ringCtx r) (s.headBytes r) = none :=
    (commonCheck_noDisp s _ _ _ (h.typed ▸ h.noDispatch)).trans h.checked
  refine fetchThen_starts start h.fetchable h.typed h.inService hcheck hu ?_ ?_
  · rw [State.isDone, h.desc hdescs]
    rfl
  · rw [State.fenceHeld, hdescs, ← fetch_taken h.typed]
    exact (fenceHeld_fetch s r h.flight).trans h.free

/-- What stands once it has started, with plans changed at the fetch. -/
theorem marked {w : State} (hw : Within [.plans] (s.fetch r).1 w) : let t := w.markStarted s.nextSeq
    t.desc s.nextSeq = some { taken s r ty with st := .started } ∧
      ∃ u, Counted s u ∧ t = { u with regs := t.regs, rings := t.rings, descs := t.descs, nextSeq := s.nextSeq + 1
                                      arb := t.arb, plans := t.plans } := by
  dsimp only
  have hnow : w.now = s.now := (hw.now rfl).trans (fetch_now s r)
  have hstart : Within [.descs] w (w.markStarted s.nextSeq) := rfl
  refine ⟨?_, fetch_plans_settle ((hw.mono rfl).trans (hstart.mono rfl))⟩
  rw [State.markStarted, hnow]
  exact modDesc_self _ (h.desc (hw.descs rfl))

end PlanFetch

/-! ### PLAN_LOAD -/

theorem loadFetchCheck_fetch (s : State) (r : RingId) (x : Desc) : (s.fetch r).1.loadFetchCheck x = s.loadFetchCheck x := by
  unfold State.loadFetchCheck
  simp only [hbmInRanges_congr s _ _ ((fetch_ranges s r).1 _) (fetch_regionMap s r), State.plan_congr (fetch_plans s r),
    fetch_plans]

/-- The plan that a PLAN_LOAD puts in use at its fetch. -/
def Desc.loading (x : Desc) : Plan :=
  { ctx := ringCtx x.ring, handle := x.handle, st := .loading, area := x.loadDst, size := x.loadLen, loadSeq := x.seq }

/-- A plan put in use. -/
def State.addPlan (s : State) (p : Plan) : State := { s with plans := s.plans ++ [p] }

theorem admitLoad_accepts {x : Desc} {s : State} (h : s.loadFetchCheck x = 0) : admitLoad x s = s.addPlan x.loading := by
  unfold admitLoad
  rw [if_pos h]
  rfl

/-- An accepted PLAN_LOAD puts its plan in use as loading, and starts. -/
theorem planLoad_settles {s : State} {r : RingId} (h : PlanFetch s r 0x0B) (hcheck : s.loadFetchCheck (taken s r 0x0B) = 0) :
    ∃ u t, Counted s u ∧ exec (.planLoad r) s = .next t ∧
      t.desc s.nextSeq = some { taken s r 0x0B with st := .started } ∧ t.plans = s.plans ++ [(taken s r 0x0B).loading] ∧
      t = { u with regs := t.regs, rings := t.rings, descs := t.descs, nextSeq := s.nextSeq + 1, arb := t.arb
                   plans := t.plans } := by
  have hexec := h.starts (fun q s => s.markStarted q) (admitLoad_accepts ((loadFetchCheck_fetch ..).trans hcheck)) rfl
  obtain ⟨hdesc, u, hu, hframe⟩ := h.marked (w := (s.fetch r).1.addPlan (taken s r 0x0B).loading) rfl
  exact ⟨u, _, hu, congrArg Host.Outcome.next hexec, hdesc, congrArg (· ++ [_]) (fetch_plans s r), hframe⟩

/-! ### PLAN_UNLOAD -/

/-- A plan that a PLAN_UNLOAD unloads. -/
def Plan.unloadedBy (seq : Nat) (p : Plan) : Plan := { p with st := .unloading, unloadSeq := some seq }

theorem Plan.unloadedBy_keepsHandle (seq : Nat) : KeepsHandle (Plan.unloadedBy seq) := fun _ => ⟨rfl, rfl⟩

theorem admitUnload_loaded {x : Desc} {s : State} {p : Plan} (h : s.plan (ringCtx x.ring) x.handle = some p)
    (hst : p.st = .loaded) : admitUnload x s = s.modPlan (ringCtx x.ring) x.handle (Plan.unloadedBy x.seq) := by
  unfold admitUnload
  simp only [h, hst, if_true]
  rfl

theorem admitUnload_unknown {x : Desc} {s : State} (h : s.plan (ringCtx x.ring) x.handle = none) : admitUnload x s = s := by
  unfold admitUnload
  simp only [h]

/-- An unload that has its plan waits for its effect. -/
theorem startUnload_marks {s : State} {q : Nat} {x : Desc} {p : Plan} (hx : s.desc q = some x)
    (hp : s.plan (ringCtx x.ring) x.handle = some p) (hq : p.unloadSeq = some q) : startUnload q s = s.markStarted q := by
  unfold startUnload
  simp only [hx, hp, hq, or_true, if_true]

theorem startUnload_unknown {s : State} {q : Nat} {x : Desc} (hx : s.desc q = some x)
    (hp : s.plan (ringCtx x.ring) x.handle = none) : startUnload q s = s.complete q stOkEmpty 0 := by
  unfold startUnload
  simp only [hx, hp]

/-- The PLAN_UNLOAD of a loaded plan makes it unloading, and starts. -/
theorem planUnload_settles {s : State} {r : RingId} {p : Plan} (h : PlanFetch s r 0x0C)
    (hp : s.plan (ringCtx r) (taken s r 0x0C).handle = some p) (hst : p.st = .loaded) :
    ∃ u t, Counted s u ∧ exec (.planUnload r) s = .next t ∧
      t.desc s.nextSeq = some { taken s r 0x0C with st := .started } ∧
      t.plan (ringCtx r) (taken s r 0x0C).handle = some { p with st := .unloading, unloadSeq := some s.nextSeq } ∧
      (∀ m j, ¬ (m = ringCtx r ∧ j = (taken s r 0x0C).handle) → t.plan m j = s.plan m j) ∧
      t = { u with regs := t.regs, rings := t.rings, descs := t.descs, nextSeq := s.nextSeq + 1, arb := t.arb
                   plans := t.plans } := by
  have hfetched : (s.fetch r).1.plan (ringCtx r) (taken s r 0x0C).handle = some p :=
    (State.plan_congr (fetch_plans s r) ..).trans hp
  have hexec := h.starts startUnload (admitUnload_loaded hfetched hst) rfl
  change _ = startUnload _ ((s.fetch r).1.modPlan (ringCtx r) (taken s r 0x0C).handle (Plan.unloadedBy s.nextSeq)) at hexec
  have hkeeps := Plan.unloadedBy_keepsHandle s.nextSeq
  have hself := State.modPlan_self (s := (s.fetch r).1) (n := ringCtx r) (k := (taken s r 0x0C).handle) hkeeps
  rw [hfetched] at hself
  obtain ⟨hdesc, u, hu, hframe⟩ := h.marked
    (w := (s.fetch r).1.modPlan (ringCtx r) (taken s r 0x0C).handle (Plan.unloadedBy s.nextSeq)) rfl
  exact ⟨u, _, hu, congrArg Host.Outcome.next (hexec.trans (startUnload_marks (h.desc rfl) hself rfl)), hdesc, hself,
    fun m j hne => (State.modPlan_other hkeeps hne).trans (State.plan_congr (fetch_plans s r) ..), hframe⟩

/-- The PLAN_UNLOAD of an unknown handle completes at once, and no plan changes. -/
theorem planUnload_empty {s : State} {r : RingId} (h : PlanFetch s r 0x0C)
    (hp : s.plan (ringCtx r) (taken s r 0x0C).handle = none) :
    ∃ t, exec (.planUnload r) s = .next t ∧ t.isDone s.nextSeq = true ∧ t.plans = s.plans := by
  have hfetched : (s.fetch r).1.plan (ringCtx r) (taken s r 0x0C).handle = none :=
    (State.plan_congr (fetch_plans s r) ..).trans hp
  have hexec := h.starts startUnload (admitUnload_unknown hfetched) rfl
  rw [startUnload_unknown (h.desc rfl) hfetched] at hexec
  exact ⟨_, congrArg Host.Outcome.next hexec, complete_isDone .., (State.complete_plans ..).trans (fetch_plans s r)⟩

/-- An unload takes effect when no earlier open DISPATCH names its plan: the plan and its chains go. -/
theorem planUnloadEffect_settles {s : State} {x : Desc} {p : Plan} (hp : s.plan (ringCtx x.ring) x.handle = some p)
    (hst : p.st ≠ .loading) (hseq : p.unloadSeq = some x.seq)
    (hnamed : s.namedBefore (ringCtx x.ring) x.handle x.seq = false) : let t := planUnloadEffect x s
    t.isDone x.seq = true ∧ PlanGone (ringCtx x.ring) x.handle s t ∧
      t.chains = s.chains.filter (fun c => !(decide (c.ctx = ringCtx x.ring) && c.handle == x.handle)) := by
  unfold planUnloadEffect
  simp only [hp, hst, hseq, hnamed, false_and, ne_eq, not_true, Bool.false_eq_true, if_false]
  exact ⟨complete_isDone .., .of_dropped ((State.complete_plans ..).trans (State.closeChains_plans ..)),
    (State.complete_chains ..).trans (closeChains_chains ..)⟩

end Sys2Proof.Machine
end

section
/-! PROOFS. PlanLifetime. -/

namespace Sys2Proof

open Machine

/-- Settles O28: a PLAN_LOAD and a PLAN_UNLOAD by what their fetch does to the plan under their handle, the end of a copy by
the checks of the image, and an unload by its effect. -/
theorem planLifetime : Obligations.PlanLifetime := by
  refine ⟨?_, ?_, ?_, ?_⟩
  · intro s r hok hf hty hout hcheck hfence x hload
    exact planLoad_settles ⟨hok, hf, hty, hout, hcheck, hfence, by decide⟩ hload
  · intro s seq x p hstart hp hst hload hsrc hrep hruns n u
    obtain ⟨hx, -, -⟩ := started_some hstart
    obtain rfl : x.seq = seq := by simpa using List.find?_some hx
    refine ⟨fun hfault => ?_, fun off hoff => ?_⟩
    · have hends := planLoadCheck_ends [] hsrc hrep hfault
      refine ⟨_, execPlanLoadCheck_host [] hstart hp hst hload hsrc hruns (by simp), hends.done, hends.others, ?_⟩
      split
      next hpass => exact hends.passed hpass
      next r hfail => rw [hends.refused r hfail]; rfl
    · obtain ⟨hdone, hgone⟩ := planLoadCheck_unread s off [] hsrc hrep
      exact ⟨_, execPlanLoadCheck_host [] hstart hp hst hload hsrc hruns (by simpa using hoff), hdone,
        hgone.gone, hgone.others⟩
  · intro s r hok hf hty hout hcheck hfence x
    have hfetch : PlanFetch s r 0x0C := ⟨hok, hf, hty, hout, hcheck, hfence, by decide⟩
    exact ⟨fun p hp hst => planUnload_settles hfetch hp hst, planUnload_empty hfetch⟩
  · intro s seq x p hstart hp hst hunload hnamed
    obtain ⟨hx, -, -⟩ := started_some hstart
    obtain rfl : x.seq = seq := by simpa using List.find?_some hx
    obtain ⟨hdone, hgone, hchains⟩ := planUnloadEffect_settles hp hst hunload hnamed
    refine ⟨planUnloadEffect x s, ?_, hdone, hgone.gone, hchains, hgone.others⟩
    show execPlanUnloadEffect x.seq s = _
    unfold execPlanUnloadEffect
    rw [hstart]

end Sys2Proof
end

section
/-! SUPPORT. What the checks and the admission of a DISPATCH read (R144, R145, R343 to R351), and that they stand between
states that agree on it. -/

namespace Sys2Proof.Machine

/-- A hub register that the admission of a DISPATCH reads: a context's schedule, its budgets, an energy calibration. -/
def ReadAtAdmission (q : RegId) (i : Nat) : Prop :=
  (q ∈ [RegId.hifCtxSched, .hifCtxEnergyBudget, .hifCtxDispEnergy] ∧ i < 64) ∨ (q = .pwrEcal ∧ i < 32)

/-- The registers that an admission reads lie in the hub's block, apart from the places of rings. -/
theorem ReadAtAdmission.apart {q : RegId} {i : Nat} (h : ReadAtAdmission q i) (r : RingId) : q.off 0 i 0 < 0x100000 ∧
    q.off 0 i 0 ≠ RegId.off .hifRingHead 0 r.val 0 ∧ q.off 0 i 0 ≠ RegId.off .hifRingStat 0 r.val 0 := by
  have hr := r.isLt
  obtain ⟨hq, hi⟩ | ⟨rfl, hi⟩ := h
  · simp only [List.mem_cons, List.not_mem_nil, or_false] at hq
    obtain rfl | rfl | rfl := hq <;>
    · simp only [RegId.off, RegId.row, Bool.false_eq_true, if_false]
      omega
  · simp only [RegId.off, RegId.row, Bool.false_eq_true, if_false]
    omega

/-- States that agree on what the checks and the admission of a DISPATCH read. -/
structure SameChecks (s t : State) : Prop where
  now : t.now = s.now
  plans : t.plans = s.plans
  chains : t.chains = s.chains
  disps : t.disps = s.disps
  ctxs : t.ctxs = s.ctxs
  devRead : ∀ a n, t.devRead a n = s.devRead a n
  noDeadline : t.arb.noDeadline = s.arb.noDeadline
  reg : ∀ q i, ReadAtAdmission q i → t.reg q 0 i 0 = s.reg q 0 i 0
  lastCtx : ∀ d, (t.die d).lastCtx = (s.die d).lastCtx
  role : ∀ d p, (t.core d p).role = (s.core d p).role

namespace SameChecks

variable {s t : State} (h : SameChecks s t)

include h

/-! ### The plan, its image and its variants -/

theorem planImg (p : Plan) : t.planImg p = s.planImg p := by
  unfold State.planImg State.img
  simp only [h.devRead]

theorem findVariant (x : Desc) : t.findVariant x = s.findVariant x := by
  unfold State.findVariant
  simp only [State.plan_congr h.plans, h.planImg]

theorem lateChecks (x : Desc) (img : Img) (b v : Nat) : t.lateChecks x img b v = s.lateChecks x img b v := by
  unfold State.lateChecks State.chainOpen
  rw [h.chains]

theorem groupOf (x : Desc) : t.groupOf x = s.groupOf x := by
  unfold State.groupOf
  simp only [State.plan_congr h.plans, h.planImg]

/-! ### Registers of contexts, and budgets -/

theorem sched (n : CtxId) (hi lo : Nat) : t.regFld .hifCtxSched 0 n.val 0 hi lo = s.regFld .hifCtxSched 0 n.val 0 hi lo :=
  congrArg (fld · hi lo) (h.reg _ _ (.inl ⟨by decide, n.isLt⟩))

theorem fmax (n : CtxId) : t.fmax n = s.fmax n := h.sched ..

theorem marginNs (n : CtxId) : t.marginNs n = s.marginNs n := congrArg (· * 50000) (h.sched ..)

theorem energyBudget (n : CtxId) : t.energyBudget n = s.energyBudget n :=
  congrArg BitVec.toNat (h.reg _ _ (.inl ⟨by decide, n.isLt⟩))

theorem windowUsed (n : CtxId) : t.windowUsed n = s.windowUsed n := by
  unfold State.windowUsed State.windowNs
  rw [State.ctx_congr h.ctxs, h.now, h.sched]

theorem mkDisp (x : Desc) (p : Plan) (img : Img) (b v : Nat) : t.mkDisp x p img b v = s.mkDisp x p img b v := by
  unfold State.mkDisp State.ownBudget
  rw [h.reg .hifCtxDispEnergy _ (.inl ⟨by decide, (ringCtx x.ring).isLt⟩)]

theorem tooManyStreams (y : Disp) : t.tooManyStreams y = s.tooManyStreams y := by
  unfold State.tooManyStreams State.inService State.devNat
  simp only [h.devRead, h.role]

theorem estimate {y : Disp} (hy : y.mhz < 2 ^ 11) : t.estimate y = s.estimate y := by
  have hstep : mhzStep y.mhz < 32 := by
    unfold mhzStep
    omega
  unfold State.estimate State.regFld
  rw [h.reg .pwrEcal _ (.inr ⟨rfl, hstep⟩)]

/-! ### The order of deadlines, R346, and the walk over a die, R347 -/

theorem before (y z : Disp) : t.before y z = s.before y z := by
  unfold State.before State.orderKey
  rw [h.noDeadline]

theorem ordInsert (y : Disp) (l : List Disp) : t.ordInsert y l = s.ordInsert y l := by
  induction l with
  | nil => rfl
  | cons z l ih => simp only [State.ordInsert, h.before, ih]

theorem walkList (d : Die) (y : Disp) : t.walkList d y = s.walkList d y := by
  unfold State.walkList
  simp only [h.disps, h.ordInsert]

theorem walkDie (clock margin : Disp → Nat) (l : List Disp) (prev : Option CtxId) (time : ℚ) :
    t.walkDie clock margin l prev time = s.walkDie clock margin l prev time := by
  induction l generalizing prev time with
  | nil => rfl
  | cons y l ih => simp only [State.walkDie, ranNs_congr s h.now, ih]

theorem deadlineWalk (clock margin : Disp → Nat) (y : Disp) :
    t.deadlineWalk clock margin y = s.deadlineWalk clock margin y := by
  unfold State.deadlineWalk
  simp only [h.walkDie, h.walkList, h.lastCtx, h.now]

theorem planMhz (y : Disp) : t.planMhz y = s.planMhz y := by
  unfold State.planMhz
  simp only [h.fmax, h.marginNs, h.deadlineWalk]

end SameChecks

theorem State.fmax_lt (s : State) (n : CtxId) : s.fmax n < 2 ^ 11 := fld_lt ..

/-- A planned clock is FMAX or a step no higher. -/
theorem State.planMhz_le (s : State) (y : Disp) : s.planMhz y ≤ s.fmax y.ctx := by
  unfold State.planMhz
  dsimp only
  split
  · exact Nat.le_refl _
  · cases hstep : List.find? _ (tab 19 stepMhz) with
    | none => exact Nat.le_refl _
    | some f =>
      have hfound := List.find?_some hstep
      rw [Bool.and_eq_true, decide_eq_true_eq] at hfound
      exact hfound.1

theorem SameChecks.admission {s t : State} (h : SameChecks s t) (y : Disp) : t.admission y = s.admission y := by
  have hest : t.estimate { y with mhz := s.planMhz y } = s.estimate { y with mhz := s.planMhz y } :=
    h.estimate (Nat.lt_of_le_of_lt (s.planMhz_le y) (s.fmax_lt y.ctx))
  unfold State.admission
  simp only [h.energyBudget, h.windowUsed, h.tooManyStreams, h.fmax, h.deadlineWalk, h.planMhz, hest]

end Sys2Proof.Machine
end

section
/-! SUPPORT. A fetched DISPATCH with its argument block, and its way to the admitted ones (R331, R333, R347). -/

namespace Sys2Proof.Machine

/-! ### What reads count outside the registers -/

/-- From `s` to `t` dies, controllers and cores changed by no more than what reads of memory count there. -/
structure Tallies (s t : State) : Prop where
  die : ∀ d, t.die d = { s.die d with galCe := (t.die d).galCe }
  mc : ∀ d m, t.mc d m = { s.mc d m with ceTimes := (t.mc d m).ceTimes }
  core : ∀ d p, t.core d p = { s.core d p with ceTimes := (t.core d p).ceTimes }

namespace Tallies

variable {s t u : State}

theorem of_counted (h : Counted s t) : Tallies s t := ⟨h.die, h.mc, h.core⟩

theorem trans (h : Tallies s t) (k : Tallies t u) : Tallies s u := by
  refine ⟨fun d => ?_, fun d m => ?_, fun d p => ?_⟩
  · rw [k.die d, h.die d]
  · rw [k.mc d m, h.mc d m]
  · rw [k.core d p, h.core d p]

theorem congr (h : Tallies s t) (hd : u.dies = t.dies) (hm : u.mcs = t.mcs) (hc : u.cores = t.cores) : Tallies s u := by
  refine ⟨fun d => ?_, fun d m => ?_, fun d p => ?_⟩
  · rw [State.die_congr hd]
    exact h.die d
  · have hmc : u.mc d m = t.mc d m := by rw [State.mc, hm]; rfl
    rw [hmc]
    exact h.mc d m
  · rw [State.core_congr hc]
    exact h.core d p

/-- `s` with what reads have counted in `t` outside the registers. -/
def tallied (s t : State) : State :=
  { s with free := t.free, mcs := t.mcs, acct := t.acct, dies := t.dies, cores := t.cores }

theorem counted (h : Tallies s t) : Counted s (tallied s t) := ⟨rfl, fun _ _ _ _ _ => rfl, h.die, h.mc, h.core⟩

end Tallies

/-! ### A fetched descriptor behind those in flight -/

/-- From `s` to `t` a ring's next descriptor is fetched and stands as `x` behind those in flight; beside it only the
ring's place, the arbiter and the counts of what was read changed. -/
structure Joined (s : State) (x : Desc) (t : State) : Prop where
  within : Within [.free, .mcs, .regs, .acct, .dies, .cores, .rings, .descs, .nextSeq, .arb] s t
  tallies : Tallies s t
  reg : ∀ q i, ReadAtAdmission q i → t.reg q 0 i 0 = s.reg q 0 i 0
  noDeadline : t.arb.noDeadline = s.arb.noDeadline
  nextSeq : t.nextSeq = s.nextSeq + 1
  seq : x.seq = s.nextSeq
  descs : t.descs = s.descs ++ [x]

theorem fetch_joined {s : State} {r : RingId} (hf : s.fetchable r = true) : Joined s (s.fetch r).2 (s.fetch r).1 := by
  have hread := Tallies.of_counted (jobRead_counted s (ringCtx r) none (s.slotAddr r (s.headSlot r)) 64)
  have hwithin := fetch_within_read s r
  refine ⟨(State.fetch_keeps rfl hf (Keeps.refl _ s)).rest, ?_, fun q i hq => ?_, ?_, fetch_nextSeq s r, rfl,
    fetch_descs s r⟩
  · exact hread.congr (hwithin.dies rfl) (hwithin.mcs rfl) (hwithin.cores rfl)
  · obtain ⟨hhub, hhead, hstat⟩ := hq.apart r
    exact fetch_hubReg s r hhub hhead hstat
  · rw [fetch_eq]

theorem fetch_fetched (s : State) (r : RingId) : ((s.fetch r).1.ring r).fetched = (s.ring r).fetched + 1 := by
  have hrings := State.jobRead_rings s (ringCtx r) none (s.slotAddr r (s.headSlot r)) 64
  rw [fetch_eq]
  generalize s.jobRead (ringCtx r) none (s.slotAddr r (s.headSlot r)) 64 = u at hrings ⊢
  have hring : u.ring r = s.ring r := by rw [State.ring, hrings]; rfl
  rw [← hring]
  exact congrArg Ring.fetched (State.modRing_self u r (fun y =>
    { y with fetched := y.fetched + 1, semHold := if leAt (s.headBytes r) 0 1 = 0x07 then some s.nextSeq else none }))

theorem seq_lt_next {s : State} (h : FlightOk s) {y : Desc} (hy : y ∈ s.descs) : y.seq < s.nextSeq := by
  obtain ⟨-, hlt, -⟩ := h
  exact hlt y hy

namespace Joined

variable {s t : State} {x : Desc} (h : Joined s x t)

include h

theorem sameChecks : SameChecks s t where
  now := h.within.now rfl
  plans := h.within.plans rfl
  chains := h.within.chains rfl
  disps := h.within.disps rfl
  ctxs := h.within.ctxs rfl
  devRead a n := by
    have hdefault : t.devDefault = s.devDefault := funext fun q => by rw [State.devDefault, h.within.scrambled rfl]; rfl
    rw [State.devRead, hdefault, h.within.mem rfl]
    rfl
  noDeadline := h.noDeadline
  reg := h.reg
  lastCtx d := by rw [h.tallies.die d]
  role d p := by rw [h.tallies.core d p]

theorem anyRead (a n : Nat) : t.anyRead a n = s.anyRead a n :=
  anyRead_congr s t (h.within.mem rfl) (h.within.hostMem rfl) (h.within.scrambled rfl) a n

/-- A read on behalf of the descriptor counts. -/
theorem jobRead (n : CtxId) (src : Option Die) (a len : Nat) : Joined s x (t.jobRead n src a len) where
  within := h.within.trans ((State.jobRead_within t n src a len).mono rfl)
  tallies := h.tallies.trans (.of_counted (jobRead_counted t n src a len))
  reg q i hq := ((jobRead_counted t n src a len).hubReg (hq.apart 0).1).trans (h.reg q i hq)
  noDeadline := (congrArg _ (State.jobRead_arb ..)).trans h.noDeadline
  nextSeq := (State.jobRead_nextSeq ..).trans h.nextSeq
  seq := h.seq
  descs := (State.jobRead_descs ..).trans h.descs

theorem modDesc (hok : FlightOk s) (f : Desc → Desc) :
    Joined s { f x with seq := x.seq, ring := x.ring } (t.modDesc s.nextSeq f) where
  within := h.within.trans (show Within _ t (t.modDesc s.nextSeq f) from rfl)
  tallies := h.tallies.congr rfl rfl rfl
  reg := h.reg
  noDeadline := h.noDeadline
  nextSeq := h.nextSeq
  seq := h.seq
  descs := by
    rw [State.modDesc, h.descs, ← h.seq]
    exact mod_last s.descs x _ fun y hy => h.seq ▸ seq_lt_next hok hy

theorem desc (hok : FlightOk s) : t.desc s.nextSeq = some x := by
  have hnone : s.descs.find? (fun y => y.seq == s.nextSeq) = none :=
    List.find?_eq_none.2 fun y hy => by simpa using Nat.ne_of_lt (seq_lt_next hok hy)
  rw [State.desc, h.descs, List.find?_append, hnone]
  simp [h.seq]

/-- It is not among the descriptors that came before it. -/
theorem earlierOpen (p : Desc → Bool) : t.earlierOpen x.seq p = s.earlierOpen x.seq p := by
  rw [State.earlierOpen, h.descs, List.any_append]
  simp [State.earlierOpen]

theorem fenceHeld {z : Desc} (hz : z.seq = s.nextSeq) : t.fenceHeld z = s.fenceHeld z := by
  rw [State.fenceHeld, h.descs, List.any_append]
  simp [State.fenceHeld, h.seq, hz]

theorem chainHeld : t.chainHeld x = s.chainHeld x := by
  unfold State.chainHeld
  simp only [h.sameChecks.groupOf, h.earlierOpen]

/-- With none waiting for its chain before, and the new one started, none waits. -/
theorem chainWaiting (hst : x.st = .started) (hs : s.chainWaiting = []) : t.chainWaiting = [] := by
  rw [chainWaiting_nil_iff] at hs ⊢
  intro y hy
  rw [h.descs, List.mem_append, List.mem_singleton] at hy
  obtain hy | rfl := hy
  · exact hs y hy
  · simp [hst]

end Joined

/-! ### The argument block, R331, R333 -/

/-- The argument block that the fetch of a DISPATCH reads beyond the slot. -/
def argBlock (s : State) (r : RingId) : List Byte :=
  if argsFlag (s.headBytes r) then s.anyRead (leAt (s.headBytes r) 0x20 8) 128 else []

/-- A fetched DISPATCH before its start. -/
def fetchedDispatch (s : State) (r : RingId) : Desc :=
  { fetched s r (argBlock s r) with st := .waiting, fetchNo := (s.ring r).fetched + 1 }

/-- The argument block of a DISPATCH may be read. -/
def ArgsReadable (s : State) (r : RingId) : Prop :=
  argsFlag (s.headBytes r) = true →
    isHost (leAt (s.headBytes r) 0x20 8) = true ∨ s.readFault (ringCtx r) (leAt (s.headBytes r) 0x20 8) 128 = none

/-- A descriptor with its number among the fetches of its ring. -/
def numbered (x : Desc) (s : State) : State := s.modDesc x.seq (fun y => { y with fetchNo := (s.ring x.ring).fetched })

theorem admitDispatch_plain {x : Desc} (s : State) (h : argsFlag x.bytes = false) : admitDispatch x s = numbered x s := by
  unfold admitDispatch
  rw [h]
  rfl

theorem admitDispatch_args {x : Desc} {s : State} (h : argsFlag x.bytes = true)
    (hread : isHost (leAt x.bytes 0x20 8) = true ∨
      (numbered x s).readFault (ringCtx x.ring) (leAt x.bytes 0x20 8) 128 = none) : admitDispatch x s =
      ((numbered x s).modDesc x.seq (fun y => { y with bytes := y.bytes ++ (numbered x s).anyRead (leAt x.bytes 0x20 8) 128
        })).jobRead (ringCtx x.ring) none (leAt x.bytes 0x20 8) 128 := by
  unfold admitDispatch
  obtain hhost | hclear := hread
  · simp only [h, hhost, if_true]
    rfl
  · unfold numbered at hclear
    simp only [h, hclear, ite_self, if_true]
    rfl

/-- The fetch of a DISPATCH whose argument block may be read takes it in with the block. -/
theorem admitDispatch_joined {s : State} {r : RingId} (hok : FlightOk s) (hf : s.fetchable r = true)
    (hargs : ArgsReadable s r) : Joined s (fetchedDispatch s r) (admitDispatch (s.fetch r).2 (s.fetch r).1) := by
  have hjoined := (fetch_joined hf).modDesc hok (fun y => { y with fetchNo := ((s.fetch r).1.ring r).fetched })
  change Joined s _ (numbered (s.fetch r).2 (s.fetch r).1) at hjoined
  have hfault := readFault_congr s (numbered (s.fetch r).2 (s.fetch r).1) (fetch_jobMay s r) (hjoined.within.bad rfl)
  unfold fetchedDispatch argBlock
  rw [← fetch_fetched]
  cases hflag : argsFlag (s.headBytes r) with
  | false =>
    rw [admitDispatch_plain (x := (s.fetch r).2) _ hflag, if_neg (by decide)]
    unfold fetched
    rw [List.append_nil]
    exact hjoined
  | true =>
    have hread := (hargs hflag).imp_right fun hclear => (hfault ..).trans hclear
    rw [admitDispatch_args (x := (s.fetch r).2) hflag hread, hjoined.anyRead, if_pos rfl]
    exact (hjoined.modDesc hok (fun y =>
      { y with bytes := y.bytes ++ s.anyRead (leAt (s.headBytes r) 0x20 8) 128 })).jobRead ..

/-! ### The decision, R347 -/

/-- The checks and the admission of a fetched DISPATCH pass. -/
structure Admits (s : State) (x : Desc) (y : Disp) : Prop where
  chain : s.chainHeld x = false
  passes : ∃ p img b v, s.findVariant x = .ok (p, img, b, v) ∧ s.lateChecks x img b v = none ∧
    s.admission (s.mkDisp x p img b v) = .ok y

theorem Admits.joined {s t : State} {x : Desc} {y : Disp} (h : Admits s x y) (ht : Joined s x t) : Admits t x y := by
  obtain ⟨hchain, p, img, b, v, hfind, hlate, hadm⟩ := h
  have hsame := ht.sameChecks
  refine ⟨ht.chainHeld.trans hchain, p, img, b, v, (hsame.findVariant x).trans hfind,
    (hsame.lateChecks ..).trans hlate, ?_⟩
  rw [hsame.mkDisp, hsame.admission, hadm]

/-- A DISPATCH that starts and stands last among the admitted ones. -/
def State.enlist (s : State) (y : Disp) (seq : Nat) : State := { s.markStarted seq with disps := s.disps ++ [y] }

theorem startDispatch_admits {s : State} {x : Desc} {y : Disp} {q : Nat} (hx : s.desc q = some x) (h : Admits s x y)
    (hq : x.seq = q) : startDispatch q s = s.enlist y q := by
  obtain ⟨hchain, p, img, b, v, hfind, hlate, hadm⟩ := h
  unfold startDispatch decideDispatch
  simp only [hx, hchain, hfind, hlate, hadm, hq, Bool.false_eq_true, if_false]
  rfl

namespace Joined

variable {s t : State} {x : Desc} (h : Joined s x t)

include h

/-- A fetched DISPATCH that is admitted has started, and with none waiting for its chain before none waits. -/
theorem enlist_descs (hok : FlightOk s) (y : Disp) :
    (t.enlist y s.nextSeq).desc s.nextSeq = some { x with st := .started, held := false, time := s.now } ∧
      (s.chainWaiting = [] → (t.enlist y s.nextSeq).chainWaiting = []) := by
  have hstarted := h.modDesc hok (fun z => { z with st := .started, held := false, time := t.now })
  rw [← h.within.now rfl]
  exact ⟨hstarted.desc hok, hstarted.chainWaiting rfl⟩

/-- Admission changes the descriptors, the ring's place, the arbiter, the admitted DISPATCHes and the counts of what was
read. -/
theorem enlist_frame (y : Disp) : let v := t.enlist y s.nextSeq
    v.disps = s.disps ++ [y] ∧ ∃ u, Counted s u ∧
      v = { u with regs := v.regs, rings := v.rings, descs := v.descs, nextSeq := s.nextSeq + 1, arb := v.arb
                   disps := v.disps } := by
  refine ⟨congrArg (· ++ [y]) (h.within.disps rfl), _, h.tallies.counted, ?_⟩
  rw [← h.nextSeq]
  exact congrArg (fun w : State => { w with descs := (t.enlist y s.nextSeq).descs, disps := t.disps ++ [y] }) h.within

end Joined

/-- A fetched DISPATCH whose checks and admission pass joins the admitted ones. -/
theorem execDispatch_admits {s : State} {r : RingId} {y : Disp} (h : Fetches s r 0x01) (hwaiting : s.chainWaiting = [])
    (hargs : ArgsReadable s r) (hadmits : Admits s (fetchedDispatch s r) y) :
    execDispatch r s = .next ((admitDispatch (s.fetch r).2 (s.fetch r).1).enlist y s.nextSeq) := by
  obtain ⟨hok, hf, hty, hout, hcheck, hfence⟩ := h
  have hjoined := admitDispatch_joined hok hf hargs
  have hfree := (hjoined.fenceHeld rfl).trans
    (((fetch_joined hf).fenceHeld rfl).symm.trans ((fenceHeld_fetch s r hok).trans hfence))
  rw [fetch_taken hty] at hjoined hfree ⊢
  have hdesc := hjoined.desc hok
  have hopen : (admitDispatch (taken s r 0x01) (s.fetch r).1).isDone s.nextSeq = false := by
    rw [State.isDone, hdesc]
    rfl
  have hheld : (fetchedDispatch s r).held = false := rfl
  obtain ⟨-, hnone⟩ := hjoined.enlist_descs hok y
  unfold execDispatch
  rw [fetchThen_starts _ hf hty hout hcheck rfl hopen hfree]
  simp only [hdesc, hheld, Bool.false_eq_true, if_false]
  rw [startDispatch_admits hdesc (hadmits.joined hjoined) rfl, releaseChains_none (hnone hwaiting)]

end Sys2Proof.Machine
end

section
/-! PROOFS. DispatchAdmitted. -/

namespace Sys2Proof

open Machine

/-- Settles O56: the fetch takes the DISPATCH in with its argument block and leaves all that its checks and its admission
read as it was, so that it is admitted as they made it. -/
theorem dispatchAdmitted : Obligations.DispatchAdmitted := by
  intro s r p img b v y hfetch hwaiting a args z x hargs hchain hfind hlate hadm
  obtain ⟨hok, hf, -⟩ := id hfetch
  have hjoined := admitDispatch_joined hok hf hargs
  obtain ⟨hdesc, -⟩ := hjoined.enlist_descs hok y
  obtain ⟨hdisps, u, hu, hframe⟩ := hjoined.enlist_frame y
  exact ⟨u, _, hu, execDispatch_admits hfetch hwaiting hargs ⟨hchain, p, img, b, v, hfind, hlate, hadm⟩, hdisps, hdesc,
    hframe⟩

end Sys2Proof
end


section
/-! SUPPORT. Packets that are forwarded by their route, and codewords lost (R368, R374 to R377). -/

namespace Sys2Proof.Machine

/-! ### What a route rests on -/

/-- From `s` to `t` the view and the rings stand, and with them the module's address and the sizes of the dimensions. -/
structure SameView (s t : State) : Prop where
  fab : t.fab = s.fab
  frings : t.frings = s.frings
  dims : t.reg .fabDims 0 0 0 = s.reg .fabDims 0 0 0
  addr : t.reg .fabAddr 0 0 0 = s.reg .fabAddr 0 0 0

namespace SameView

variable {s t : State} (h : SameView s t)

include h

theorem ownAddr : t.ownAddr = s.ownAddr := by
  unfold State.ownAddr State.regFld
  rw [h.addr]

theorem dimSize (j : Nat) : t.dimSize j = s.dimSize j := by
  unfold State.dimSize State.regFld
  rw [h.dims]

theorem inView (a : Nat) : t.inView a = s.inView a := by
  unfold State.inView
  rw [h.fab]

theorem nextOn (a j : Nat) (plus : Bool) : t.nextOn a j plus = s.nextOn a j plus := by
  unfold State.nextOn
  simp only [h.dimSize, h.inView]

theorem segLong (a j : Nat) (plus : Bool) : t.segLong a j plus = s.segLong a j plus := by
  unfold State.segLong
  simp only [h.nextOn, h.dimSize]

theorem ownSegView (i : FRing) (plus : Bool) : t.ownSegView i plus = s.ownSegView i plus := by
  unfold State.ownSegView
  simp only [State.fring_congr h.frings, h.segLong, h.ownAddr]

theorem ownSegUp (i : FRing) (plus : Bool) : t.ownSegUp i plus = s.ownSegUp i plus := by
  unfold State.ownSegUp
  rw [h.ownSegView, h.fab]

theorem segUp (a b : Nat) (i : FRing) (plus : Bool) : t.segUp a b i plus = s.segUp a b i plus := by
  unfold State.segUp
  rw [h.fab, h.segLong, h.ownAddr, h.ownSegView]

theorem pathUp (i : FRing) (plus : Bool) (y k a : Nat) : t.pathUp i plus y k a = s.pathUp i plus y k a := by
  induction k generalizing a with
  | zero => rfl
  | succ k ih => simp only [State.pathUp, h.nextOn, h.segUp, ih]

theorem routeDim (a src dst j : Nat) : t.routeDim a src dst j = s.routeDim a src dst j := by
  unfold State.routeDim State.plusFirst
  simp only [h.dimSize, h.pathUp]

theorem viewRoute (src dst : Nat) (detoured : Bool) : t.viewRoute src dst detoured = s.viewRoute src dst detoured := by
  unfold State.viewRoute
  simp only [h.ownAddr, h.routeDim, h.dimSize, h.nextOn, h.segUp]

theorem route (src dst : Nat) (detoured : Bool) : t.route src dst detoured = s.route src dst detoured := by
  unfold State.route
  simp only [h.viewRoute, h.ownSegUp]

end SameView

/-! ### The count of a packet that arrives -/

theorem State.countRx_within (s : State) (k : Packet) : Within [.acct, .regs] s (s.countRx k) :=
  (State.countRx_keeps rfl (Keeps.refl _ s)).rest

theorem State.account_reg (s : State) (key v : Nat) (q : RegId) (d i j : Nat) :
    (s.account key v).reg q d i j = s.reg q d i j := rfl

theorem State.accountPort_reg (s : State) (p : PortId) (n : Option CtxId) (len : Nat) (q : RegId) (d i j : Nat) :
    (s.accountPort p n len).reg q d i j = s.reg q d i j := by
  cases n <;> rfl

/-- Of the registers it changes the count of received bytes alone. -/
theorem State.countRx_reg (s : State) (k : Packet) {q : RegId} {d i j : Nat}
    (h : ∀ e n, q.off d i j ≠ RegId.off .lndRxBytes e n 0) : (s.countRx k).reg q d i j = s.reg q d i j :=
  (State.accountPort_reg ..).trans (State.bump_other s _ (h _ _))

theorem countRx_sameView (s : State) (k : Packet) : SameView s (s.countRx k) where
  fab := (s.countRx_within k).fab rfl
  frings := (s.countRx_within k).frings rfl
  dims := s.countRx_reg k fun e n => (off_ne_hub rfl rfl (by decide) e n 0 0).symm
  addr := s.countRx_reg k fun e n => (off_ne_hub rfl rfl (by decide) e n 0 0).symm

/-! ### PACKET_FORWARD -/

/-- The packet that leaves by a hop: its header marked, and its CRC changed as the header was. -/
theorem leaveBy_packet (h : Hop) (pkt : Packet) (sameDim : Bool) (s : State) : let out := (leaveBy h pkt sameDim s).2
    out.port = ringPort h.ring h.plus ∧ out.payload = pkt.payload ∧ out.dst = pkt.dst ∧ out.src = pkt.src ∧
      out.kind = pkt.kind ∧ out.rail = (h.ring.val % 2 == 1) ∧ out.detoured = (pkt.detoured || h.detour) ∧
      out.crc = pkt.crc ^^^ packetSum pkt ^^^ packetSum out :=
  ⟨rfl, rfl, rfl, rfl, rfl, rfl, rfl, rfl⟩

theorem leaveBy_within (h : Hop) (pkt : Packet) (sameDim : Bool) (s : State) :
    Within [.acct, .regs] s (leaveBy h pkt sameDim s).1 :=
  (leaveBy_keeps rfl (Keeps.refl _ s)).rest

/-- The bytes of a packet in transit, counted at each die on its way. -/
def State.countTransit (s : State) (dies : List Nat) (len : Nat) : State :=
  dies.foldl (fun s d => s.bump .lndTransitBytes d 0 len) s

theorem State.countTransit_within (s : State) (dies : List Nat) (len : Nat) :
    Within [.acct, .regs] s (s.countTransit dies len) :=
  (Keeps.foldl (Keeps.refl _ s) fun _ _ ht => State.bump_keeps rfl ht).rest

/-- A packet with a route leaves by its hop, and its bytes are counted on the way. -/
theorem packetForward_routed {p : PortId} {pkt : Packet} {s : State} {h : Hop}
    (hr : s.route pkt.src.toNat pkt.dst.toNat pkt.detoured = some h) :
    ∃ u out, Within [.acct, .regs] s u ∧ packetForward p pkt s = u.emit (.forwarded (ringPort h.ring h.plus).val out) ∧
      out.payload = pkt.payload ∧ out.dst = pkt.dst ∧ out.src = pkt.src ∧ out.kind = pkt.kind ∧
      out.rail = (h.ring.val % 2 == 1) ∧ out.detoured = (pkt.detoured || h.detour) ∧
      out.crc = pkt.crc ^^^ packetSum pkt ^^^ packetSum out := by
  have hroute := (countRx_sameView s { pkt with port := p }).route pkt.src.toNat pkt.dst.toNat pkt.detoured
  have hrx := s.countRx_within { pkt with port := p }
  unfold packetForward
  rw [hr] at hroute
  dsimp only
  rw [hroute]
  dsimp only
  generalize s.countRx { pkt with port := p } = v at hrx
  generalize (h.ring.val / 2 == (portRing p).val / 2) = same
  obtain ⟨hport, hpacket⟩ := leaveBy_packet h pkt same v
  have hleave := leaveBy_within h pkt same v
  rw [hport]
  exact ⟨State.countTransit _ _ _, _, (hrx.trans hleave).trans (State.countTransit_within ..), rfl, hpacket⟩

theorem packetForward_unreachable {p : PortId} {pkt : Packet} {s : State}
    (hr : s.route pkt.src.toNat pkt.dst.toNat pkt.detoured = none) :
    packetForward p pkt s = (s.countRx { pkt with port := p }).unreach := by
  unfold packetForward
  dsimp only
  rw [(countRx_sameView s { pkt with port := p }).route, hr]

/-- A discarded packet is counted in FAB_UNREACH and shown in FAB_EVENT. -/
theorem State.unreach_regs (s : State) : (s.unreach.reg .fabUnreach 0 0 0).toNat = ((s.reg .fabUnreach 0 0 0).toNat + 1) % 2 ^ 32 ∧
    s.unreach.regFld .fabEvent 0 0 0 3 3 = 1 := by
  unfold State.unreach State.fabEvent
  constructor
  · rw [State.msix_reg _ _ (by decide), State.setRegFld_other _ _ _ _ (by decide), State.bump_self _ _ _ _ _ rfl]
  · rw [State.regFld, State.msix_reg _ _ (by decide)]
    exact State.setRegFld_self _ _ _ _ _ (by decide) (by decide) (by decide)

theorem State.unreach_within (s : State) : Within [.hub, .regs, .out] s s.unreach :=
  (State.unreach_keeps rfl (Keeps.refl _ s)).rest

theorem exec_packetForward {p : PortId} {pkt : Packet} {s : State} (hp : s.portCarries p = true)
    (hdst : pkt.dst.toNat ≠ s.ownAddr) : exec (.packetForward p pkt) s = .next (packetForward p pkt s) :=
  congrArg Host.Outcome.next (if_pos (by simp [hp, hdst]))

/-! ### CODEWORD_LOSS, R368 -/

/-- Codewords lost are counted, and their replay once. -/
theorem exec_codewordLoss {p : PortId} {lane : Fin 9} {count : Nat} (s : State) (h : count ≠ 0) :
    exec (.codewordLoss p lane count) s =
      .next ((s.bump .lndFecUncorr (p.val / 2) (p.val % 2) count).bump .lndRetry (p.val / 2) (p.val % 2) 1) :=
  congrArg Host.Outcome.next (if_neg h)

theorem codewordLoss_regs (s : State) (p : PortId) (count : Nat) :
    let t := (s.bump .lndFecUncorr (p.val / 2) (p.val % 2) count).bump .lndRetry (p.val / 2) (p.val % 2) 1
    t.reg .lndFecUncorr (p.val / 2) (p.val % 2) 0 =
        s.reg .lndFecUncorr (p.val / 2) (p.val % 2) 0 + BitVec.ofNat 64 count ∧
      (t.reg .lndRetry (p.val / 2) (p.val % 2) 0).toNat = ((s.reg .lndRetry (p.val / 2) (p.val % 2) 0).toNat + 1) % 2 ^ 32 := by
  have hn : p.val % 2 < 2 := Nat.mod_lt _ (by decide)
  have hne : ∀ d, RegId.off .lndFecUncorr d (p.val % 2) 0 ≠ RegId.off .lndRetry d (p.val % 2) 0 := fun d =>
    off_ne_dies rfl rfl (by simp only [RegId.rel, RegId.row]; omega) (by simp only [RegId.rel, RegId.row]; omega)
      (by simp only [RegId.rel, RegId.row]; omega) d d
  dsimp only
  constructor
  · rw [State.bump_other _ _ (hne _), State.bump_self_wide _ rfl]
  · rw [State.bump_self _ _ _ _ _ rfl, State.bump_other _ _ (hne _).symm]

end Sys2Proof.Machine
end

section
/-! SUPPORT. Packets for this module, taken by their KIND (R234 to R246, R372, R376). -/

namespace Sys2Proof.Machine

/-! ### An open collective of a number -/

theorem State.modColl_self {s : State} {q : Nat} {c : Coll} (f : Coll → Coll) (hf : ∀ y, (f y).seq = y.seq)
    (h : s.coll q = some c) : (s.modColl q f).coll q = some (f c) := by
  rw [State.modColl_coll s q q f hf, h, Option.map_some, if_pos rfl]

theorem State.modColl_other {s : State} {q n : Nat} (f : Coll → Coll) (hf : ∀ y, (f y).seq = y.seq) (h : q ≠ n) :
    (s.modColl n f).coll q = s.coll q := by
  rw [State.modColl_coll s q n f hf]
  simp [h]

theorem State.coll_congr {s t : State} (h : t.colls = s.colls) (q : Nat) : t.coll q = s.coll q := by
  unfold State.coll
  rw [h]

/-! ### Receiving -/

/-- The command that receives a KIND, with the effect of the KIND. -/
structure Receives (pkt : Packet) (ce : List Nat) (i : Instr) (kind : Nat) (eff : Packet → State → State) : Prop where
  defined : [0x01, 0x02, 0x03, 0x04, 0x05, 0x10, 0x11, 0x12, 0x13].contains kind = true
  exec : ∀ s : State, s.hub.takeover = false → Machine.exec i s = .next (receive kind eff pkt s)
  arm : kind = 0x01 → eff = armNote
  owner : kind = 0x02 ∨ kind = 0x03 → eff = contribNote ce ∨ eff = endNote ce
  shard : kind = 0x04 → eff = shardNote
  hop : kind = 0x05 → eff = hopIn
  route : kind = 0x10 → eff = routeReceive

theorem receives_of_mem {pkt : Packet} {ce : List Nat} {i : Instr} {kind : Nat} {eff : Packet → State → State}
    (h : (i, kind, eff) ∈ ([(.armReceive pkt, 0x01, armNote), (.contribReceive pkt ce, 0x02, contribNote ce),
      (.endReceive pkt ce, 0x03, endNote ce), (.shardReceive pkt, 0x04, shardNote), (.hopReceive pkt, 0x05, hopIn),
      (.routeReceive pkt, 0x10, routeReceive)] : List (Instr × Nat × (Packet → State → State)))) :
    Receives pkt ce i kind eff := by
  have hexec : ∀ {c : Instr} {k : Nat} {f : Packet → State → State}, (∀ s : State, s.windowHeld c = false) →
      (∀ s, Machine.exec c s = .next (reach c s)) → (∀ s, access c s = receive k f pkt s) →
      ∀ s : State, s.hub.takeover = false → Machine.exec c s = .next (receive k f pkt s) :=
    fun hw he ha s ht => (he s).trans (congrArg Host.Outcome.next ((reach_free ht (hw s)).trans (ha s)))
  simp only [List.mem_cons, Prod.mk.injEq, List.not_mem_nil, or_false] at h
  obtain ⟨rfl, rfl, rfl⟩ | ⟨rfl, rfl, rfl⟩ | ⟨rfl, rfl, rfl⟩ | ⟨rfl, rfl, rfl⟩ | ⟨rfl, rfl, rfl⟩ | ⟨rfl, rfl, rfl⟩ := h <;>
    exact ⟨rfl, hexec (fun _ => rfl) (fun _ => rfl) (fun _ => rfl), by simp, by simp, by simp, by simp, by simp⟩

section
variable {pkt : Packet} {kind : Nat} {eff : Packet → State → State} {s : State} (hp : s.portCarries pkt.port = true)
  (hdst : pkt.dst.toNat = s.ownAddr)
include hp hdst

/-- A whole packet of the KIND that a command receives has its effect. -/
theorem receive_good (hcrc : pkt.crc = packetSum pkt) (hkind : pkt.kind.toNat = kind)
    (hdef : [0x01, 0x02, 0x03, 0x04, 0x05, 0x10, 0x11, 0x12, 0x13].contains kind = true) :
    receive kind eff pkt s = eff pkt (s.countRx pkt) := by
  have hgood : pktGood pkt = true := by
    unfold pktGood kindDefined
    rw [hkind, hdef, decide_eq_true hcrc]
    rfl
  unfold receive takeIn
  simp [hp, hdst, hgood, hkind]

/-- A packet whose CRC fails or whose KIND is undefined is discarded and counted. -/
theorem receive_bad (h : pkt.crc ≠ packetSum pkt ∨ kindDefined pkt.kind = false) :
    receive kind eff pkt s = (s.countRx pkt).bump .lndDrop (pkt.port.val / 2) (pkt.port.val % 2) 1 := by
  have hbad : pktGood pkt = false := by
    unfold pktGood
    obtain h | h := h <;> simp [h]
  unfold receive takeIn
  simp [hp, hdst, hbad]
  rfl

end

/-- Other counters of a die's units go on from what they were when a packet arrived. -/
theorem countRx_bump (s : State) (pkt : Packet) {r : RegId} {d i : Nat} (hr : r.row.die = true) (hw : r.row.wide = false)
    (hlt : r.rel i 0 < 0x100000) (hne : ∀ n, r.rel i 0 ≠ RegId.rel .lndRxBytes (n % 2) 0) :
    (((s.countRx pkt).bump r d i 1).reg r d i 0).toNat = ((s.reg r d i 0).toNat + 1) % 2 ^ 32 ∧
      (s.countRx pkt).bump r d i 1 = { s with regs := ((s.countRx pkt).bump r d i 1).regs
                                              acct := ((s.countRx pkt).bump r d i 1).acct } := by
  have hrx : (s.countRx pkt).reg r d i 0 = s.reg r d i 0 := by
    refine (State.accountPort_reg ..).trans (State.bump_other s _ ?_)
    exact off_ne_dies hr rfl hlt (by simp only [RegId.rel, RegId.row]; omega) (hne _) d _
  refine ⟨by rw [State.bump_self _ _ _ _ _ hw, hrx], ?_⟩
  exact (State.bump_keeps rfl (State.countRx_keeps (ps := [.acct, .regs]) rfl (Keeps.refl _ s))).rest

theorem countRx_lndDrop (s : State) (pkt : Packet) (d : Nat) {i : Nat} (hi : i < 2) :
    (((s.countRx pkt).bump .lndDrop d i 1).reg .lndDrop d i 0).toNat = ((s.reg .lndDrop d i 0).toNat + 1) % 2 ^ 32 ∧
      (s.countRx pkt).bump .lndDrop d i 1 = { s with regs := ((s.countRx pkt).bump .lndDrop d i 1).regs
                                                     acct := ((s.countRx pkt).bump .lndDrop d i 1).acct } :=
  countRx_bump s pkt rfl rfl (by simp only [RegId.rel, RegId.row]; omega)
    (fun n => by simp only [RegId.rel, RegId.row]; omega)

/-! ### ARM, R234 -/

theorem serveRank_arms (seq r : Nat) (s : State) : ∃ c : Option Coll, (serveRank seq r s).arms =
    match c with
    | none => s.arms
    | some c => updIf s.arms (Arm.of c r) (fun a => { a with fresh := a.fresh - 1 }) := by
  unfold serveRank
  cases s.coll seq with
  | none => exact ⟨none, rfl⟩
  | some c =>
    refine ⟨some c, ?_⟩
    dsimp only
    split
    · exact foldl_same State.arms _ _ _ fun t k => (serveUnit_keeps (ps := Parts.any.erase .arms) rfl (Keeps.refl _ t)).rest.arms rfl
    · rfl

/-- An ARM of a group, bucket, step and rank is recorded. -/
def ArmNoted (group bucket step rank : Nat) (s : State) : Prop :=
  ∃ z ∈ s.arms, z.group = group ∧ z.bucket = bucket ∧ z.step = step ∧ z.rank = rank

theorem serveRank_armNoted {group bucket step rank : Nat} {s : State} (seq r : Nat) (h : ArmNoted group bucket step rank s) :
    ArmNoted group bucket step rank (serveRank seq r s) := by
  obtain ⟨z, hz, hof⟩ := h
  obtain ⟨c, harms⟩ := serveRank_arms seq r s
  unfold ArmNoted
  rw [harms]
  cases c with
  | none => exact ⟨z, hz, hof⟩
  | some c =>
    refine ⟨_, List.mem_map_of_mem hz, ?_⟩
    split <;> exact hof

theorem armNote_noted (pkt : Packet) (s : State) :
    ArmNoted pkt.group.toNat pkt.bucket.toNat pkt.step.toNat pkt.asRank.toNat (armNote pkt s) := by
  unfold armNote
  exact fold_inv (ArmNoted _ _ _ _) _ _ _ ⟨_, List.mem_append_right _ (List.mem_singleton_self _), rfl, rfl, rfl, rfl⟩
    fun t c ht => serveRank_armNoted _ _ ht

/-! ### CONTRIB and END without an open owner role, R238 -/

theorem ownerRole_congr {s t : State} (h : t.colls = s.colls) (pkt : Packet) : t.ownerRole pkt = s.ownerRole pkt := by
  unfold State.ownerRole
  rw [h]

theorem contribNote_late {ce : List Nat} {pkt : Packet} {s : State} (h : s.ownerRole pkt = none) :
    contribNote ce pkt s = s.countLate (pkt.index.toNat % 32) := by
  unfold contribNote
  rw [h]
  rfl

theorem endNote_late {ce : List Nat} {pkt : Packet} {s : State} (h : s.ownerRole pkt = none) :
    endNote ce pkt s = s.countLate (pkt.index.toNat % 32) := by
  unfold endNote
  rw [h]
  rfl

/-- A message for no open owner role is counted as late at the controller of its line, and changes nothing else. -/
theorem countRx_late (s : State) (pkt : Packet) : let k := pkt.index.toNat % 32
    let t := (s.countRx pkt).countLate k
    (t.reg .mcRedLate (k / 4) (k % 4) 0).toNat = ((s.reg .mcRedLate (k / 4) (k % 4) 0).toNat + 1) % 2 ^ 32 ∧
      t = { s with regs := t.regs, acct := t.acct } :=
  countRx_bump s pkt rfl rfl (by simp only [RegId.rel, RegId.row]; omega)
    (fun n => by simp only [RegId.rel, RegId.row]; omega)

/-! ### SHARD, R243, R244 -/

theorem shardNote_unknown {pkt : Packet} {s : State}
    (h : ∀ c ∈ s.colls, bkGathers c.block = true → c.isOf pkt.group.toNat pkt.bucket.toNat pkt.step.toNat = false) :
    shardNote pkt s = s := by
  have hnone : s.colls.find? (fun c => bkGathers c.block && c.isOf pkt.group.toNat pkt.bucket.toNat pkt.step.toNat) = none := by
    refine List.find?_eq_none.2 fun c hc => ?_
    by_cases hg : bkGathers c.block = true
    · simp [h c hc hg]
    · simp [hg]
  unfold shardNote
  rw [hnone]

theorem State.badPartial_nil {s : State} (h : s.bad = []) (a n : Nat) : s.badPartial a n = none := by
  unfold State.badPartial
  rw [h]
  rfl

/-- A write that meets no error is that of its bytes, with what it counts. -/
theorem collWrite_clean {s : State} (n : CtxId) {a : Nat} {bs : List Byte} (h : s.badPartial a bs.length = none) :
    Within [.acct, .regs, .bad] (s.devWrite a bs) (s.collWrite n a bs) := by
  unfold State.collWrite
  rw [h]
  refine (State.chargeBytes_keeps rfl (State.countBytes_keeps rfl ?_)).rest
  exact State.clearBad_keeps rfl (Keeps.refl _ _)

theorem devRead_congr {s t : State} (hm : t.mem = s.mem) (hs : t.scrambled = s.scrambled) (a n : Nat) :
    t.devRead a n = s.devRead a n := by
  have hd : t.devDefault = s.devDefault := funext fun b => by rw [State.devDefault, hs]; rfl
  rw [State.devRead, hm, hd]
  rfl

theorem devRead_devWrite (s : State) (a : Nat) (bs : List Byte) : (s.devWrite a bs).devRead a bs.length = bs :=
  memRead_memWrite s.devDefault a bs

theorem collWrite_devRead {s : State} (n : CtxId) {a : Nat} {bs : List Byte} (h : s.badPartial a bs.length = none) :
    (s.collWrite n a bs).devRead a bs.length = bs := by
  have hw := collWrite_clean n h
  exact (devRead_congr (hw.mem rfl) (hw.scrambled rfl) _ _).trans (devRead_devWrite ..)

theorem slice_length (bs : List Byte) (off n : Nat) : (slice bs off n).length = n := by
  simp [slice]

/-- The gather that a SHARD is for, alone open, with an ALL_REDUCE's units still to come. -/
structure FirstShard (s : State) (c : Coll) (pkt : Packet) : Prop where
  alone : s.colls = [c]
  allReduce : bkOp c.block = opAR
  isOf : c.isOf pkt.group.toNat pkt.bucket.toNat pkt.step.toNat = true
  unit : pkt.index.toNat < bkUnits c.block
  piece : leAt pkt.payload 12 4 = 0
  first : c.arrived = []
  sound : s.bad = []

/-- A piece of a unit counted as arrived, with its owner's state. -/
def Coll.arrive (id u : Nat) (st : Nat × Bool × Nat) (c : Coll) : Coll :=
  { c with arrived := c.arrived ++ [id], ownerStates := SMap.put c.ownerStates (c.ownerOf u) st }

namespace FirstShard

variable {s : State} {c : Coll} {pkt : Packet} (h : FirstShard s c pkt)

include h

theorem unitBytes : c.unitBytes = 128 := by
  unfold Coll.unitBytes
  rw [h.allReduce]
  rfl

theorem pieces : c.pieces = 1 := by
  unfold Coll.pieces
  rw [h.unitBytes]
  rfl

theorem find : s.colls.find? (fun c => bkGathers c.block && c.isOf pkt.group.toNat pkt.bucket.toNat pkt.step.toNat) = some c := by
  have hgathers : bkGathers c.block = true := by simp [bkGathers, h.allReduce]
  rw [h.alone, List.find?_cons, hgathers, h.isOf]
  rfl

/-- It is written at its unit's place and counted as arrived. -/
theorem shardNote_eq : ∃ st, shardNote pkt s = (s.collWrite c.ctx (bkDst c.block + pkt.index.toNat * 128)
    (slice (pkt.payload.drop 16) 0 128)).modColl c.seq (Coll.arrive pkt.index.toNat pkt.index.toNat st) := by
  have hopen : ¬ (bkUnits c.block ≤ pkt.index.toNat ∨ c.pieces ≤ 0 ∨
      c.arrived.contains (pkt.index.toNat * c.pieces + 0) = true) := by
    simp [h.pieces, h.first, h.unit]
  have hnotMax : ¬ bkOp c.block = opEM := by rw [h.allReduce]; decide
  have hunscaled : ¬ (bkOp c.block = opAG ∧ bkGatherScale c.block = true) := fun e => by
    rw [h.allReduce] at e
    exact absurd e.1 (by decide)
  refine ⟨(leAt pkt.payload 0 4, decide (leAt pkt.payload 8 1 ≠ 0), leAt pkt.payload 4 4), ?_⟩
  unfold shardNote
  rw [h.find]
  dsimp only
  rw [h.piece, if_neg hopen, if_neg hnotMax, if_neg hunscaled, h.unitBytes, h.pieces, Nat.mul_one]
  rfl

theorem lands : let t := shardNote pkt s
    t.devRead (bkDst c.block + pkt.index.toNat * 128) 128 = slice (pkt.payload.drop 16) 0 128 ∧
      (t.coll c.seq).map (fun z => z.arrived) = some [pkt.index.toNat] := by
  obtain ⟨st, heq⟩ := h.shardNote_eq
  have hread := collWrite_devRead (s := s) c.ctx (a := bkDst c.block + pkt.index.toNat * 128)
    (bs := slice (pkt.payload.drop 16) 0 128) (State.badPartial_nil h.sound _ _)
  have hcolls := (State.collWrite_keeps (n := c.ctx) (a := bkDst c.block + pkt.index.toNat * 128)
    (bs := slice (pkt.payload.drop 16) 0 128) (ps := Parts.any.erase .colls) rfl (Keeps.refl _ s)).rest.colls rfl
  have hcoll : s.coll c.seq = some c := by simp [State.coll, h.alone]
  rw [slice_length] at hread
  dsimp only
  rw [heq, State.modColl_self (Coll.arrive _ _ st) (fun _ => rfl) ((State.coll_congr hcolls _).trans hcoll)]
  exact ⟨hread, by simp [Coll.arrive, h.first]⟩

end FirstShard

/-! ### HOP before its PERMUTE, R246 -/

theorem hopColl_congr {s t : State} (h : t.colls = s.colls) (pkt : Packet) : t.hopColl pkt = s.hopColl pkt := by
  unfold State.hopColl
  rw [h]

theorem hopIn_kept {pkt : Packet} {s : State} (h : s.hopColl pkt = none) : hopIn pkt s = { s with hops := s.hops ++ [pkt] } := by
  unfold hopIn hopNote
  rw [h]

/-! ### ROUTE, R376, R386 -/

/-- The view takes what a ROUTE announces: segments and addresses as its entries say. -/
theorem routeReceive_view (pkt : Packet) (s : State) : let t := routeReceive pkt s
    let f := (routeEntries pkt.payload).foldl (fun f e => viewEntry e.1 e.2.1 e.2.2 f) s.fab
    t.fab.downSegs = f.downSegs ∧ t.fab.admittedAddrs = f.admittedAddrs := by
  unfold routeReceive
  extract_lets l lanes viewed
  have hlanes : lanes.fab = s.fab :=
    (Keeps.foldl (Keeps.refl (Parts.any.erase .fab) s) fun t e ht => Keeps.ite (setLane_keeps rfl ht) ht).rest.fab rfl
  have hviewed : ∃ x y z, viewed.fab = { l.foldl (fun f e => viewEntry e.1 e.2.1 e.2.2 f) s.fab with
      locked := x, slew := y, lastOffset := z } := by
    obtain ⟨x, y, z, heq⟩ := viewStep_frame (fun s => { s with fab := l.foldl (fun f (c, i, a) => viewEntry c i a f) s.fab }) lanes
    refine ⟨x, y, z, ?_⟩
    rw [show viewed = _ from heq, hlanes]
  have hevent : (if l.any (fun (c, _, _) => decide (c ≤ 1)) = true then viewed.fabEvent 0 else viewed).fab = viewed.fab :=
    (Keeps.ite (State.fabEvent_keeps (ps := Parts.any.erase .fab) rfl (Keeps.refl _ _)) (Keeps.refl _ _)).rest.fab rfl
  obtain ⟨x, y, z, hfab⟩ := hviewed
  rw [hevent, hfab]
  exact ⟨rfl, rfl⟩

theorem setLane_lane (p : PortId) (tx : Bool) {lane : Nat} (hlane : lane < 16) (s : State) :
    let hi := if tx then 23 else 19
    (setLane p tx lane s).regFld .lndPortStatus (p.val / 2) (p.val % 2) 0 hi (hi - 3) = lane := by
  cases tx <;> exact State.setRegFld_self _ _ _ _ _ (by decide) (by decide) hlane

/-- A ROUTE that only tells of a lane map sets the lane of the port that it came by, in the direction opposite. -/
theorem routeReceive_lane {pkt : Packet} {tx lane : Nat} (s : State) (h : routeEntries pkt.payload = [(6, tx, lane)]) :
    let hi := if tx = 0 then 23 else 19
    (routeReceive pkt s).regFld .lndPortStatus (pkt.port.val / 2) (pkt.port.val % 2) 0 hi (hi - 3) = lane % 16 := by
  have hlane := setLane_lane pkt.port (tx == 0) (Nat.mod_lt lane (show 16 > 0 by decide)) s
  unfold routeReceive
  simp only [h, List.foldl_cons, List.foldl_nil, List.any_cons, List.any_nil, if_true]
  simp only [beq_iff_eq] at hlane
  rw [if_neg (by simp), State.regFld, viewStep_reg _ _ (off_ne_hub rfl rfl (by decide) _ _ _ _)
    (off_ne_hub rfl rfl (by decide) _ _ _ _)]
  exact hlane

end Sys2Proof.Machine
end

section
/-! PROOFS. FabricPackets. -/

namespace Sys2Proof

open Machine

/-- Settles O47: a packet in transit by the route, which its count at the port leaves alone; a packet for this module by
its CRC and KIND, with one lemma for the effect of each KIND. -/
theorem fabricPackets : Obligations.FabricPackets := by
  unfold Obligations.FabricPackets
  refine ⟨?_, ?_, ?_⟩
  · intro s p pkt hp hdst
    refine ⟨fun h hroute => ?_, fun hroute => ?_⟩
    · obtain ⟨u, out, hu, heq, hpayload, hto, hfrom, hkind, hrail, hdetour, hcrc⟩ := packetForward_routed (p := p) hroute
      have hframe : Within [.regs, .out, .acct] s (packetForward p pkt s) := by
        rw [heq]
        exact (hu.mono rfl).trans (show Within _ u (u.emit _) from rfl)
      refine ⟨out, _, exec_packetForward hp hdst, ?_, hpayload, hto, hfrom, hkind, hrail, hdetour, hcrc, hframe⟩
      rw [heq]
      exact congrArg (· ++ _) (hu.out rfl)
    · have heq := packetForward_unreachable (p := p) hroute
      have hrx := s.countRx_within { pkt with port := p }
      obtain ⟨hcount, hevent⟩ := (s.countRx { pkt with port := p }).unreach_regs
      rw [State.countRx_reg s _ fun e n => (off_ne_hub rfl rfl (by decide) e n 0 0).symm] at hcount
      have hframe : Within [.regs, .out, .hub, .acct] s (packetForward p pkt s) := by
        rw [heq]
        exact (hrx.mono rfl).trans ((State.unreach_within _).mono rfl)
      exact ⟨_, exec_packetForward hp hdst, heq ▸ hcount, heq ▸ hevent, hframe⟩
  · intro s p lane count hcount
    obtain ⟨hlost, hretry⟩ := codewordLoss_regs s p count
    exact ⟨_, exec_codewordLoss s hcount, hlost, hretry, rfl⟩
  · intro s pkt ce i kind eff hmem hp hdst htake rx a b q k
    have hr := receives_of_mem hmem
    have hrx := s.countRx_within pkt
    refine ⟨fun hcrc hkind => ?_, fun hbad => ?_⟩
    · refine ⟨_, (hr.exec s htake).trans (congrArg _ (receive_good hp hdst hcrc hkind hr.defined)), rfl, fun hk => ?_,
        fun hk hrole => ?_, fun hk hnone => ?_, fun c hk halone hop hof hunit hpiece hfirst hsound => ?_,
        fun hk hnone => ?_, fun hk => ?_, fun tx lane hk hentries => ?_⟩
      · rw [hr.arm hk]
        exact armNote_noted pkt rx
      · have hlate : eff pkt rx = rx.countLate k := by
          have hrole' := (ownerRole_congr (hrx.colls rfl) pkt).trans hrole
          obtain rfl | rfl := hr.owner hk
          · exact contribNote_late hrole'
          · exact endNote_late hrole'
        rw [hlate]
        exact countRx_late s pkt
      · rw [hr.shard hk]
        refine shardNote_unknown ?_
        rw [hrx.colls rfl]
        exact hnone
      · rw [hr.shard hk]
        exact FirstShard.lands ⟨(hrx.colls rfl).trans halone, hop, hof, hunit, hpiece, hfirst, (hrx.bad rfl).trans hsound⟩
      · rw [hr.hop hk, hopIn_kept ((hopColl_congr (hrx.colls rfl) pkt).trans hnone)]
        have hframe : Within [.regs, .hops, .acct] s { rx with hops := rx.hops ++ [pkt] } :=
          (hrx.mono rfl).trans (show Within _ rx { rx with hops := rx.hops ++ [pkt] } from rfl)
        exact ⟨congrArg (· ++ [pkt]) (hrx.hops rfl), hframe⟩
      · rw [hr.route hk, ← hrx.fab rfl]
        exact routeReceive_view pkt rx
      · rw [hr.route hk]
        exact routeReceive_lane rx hentries
    · obtain ⟨hcount, hframe⟩ := countRx_lndDrop s pkt (pkt.port.val / 2) (Nat.mod_lt pkt.port.val (show 2 > 0 by decide))
      exact ⟨_, (hr.exec s htake).trans (congrArg _ (receive_bad hp hdst hbad)), hcount, hframe⟩

end Sys2Proof
end

section
/-! SUPPORT. What the collectives open on the module keep while their messages come and go: their number, what they opened
with and the end of their owner role (R234 to R247). -/

namespace Sys2Proof.Machine

/-! ### A view of the open collectives -/

/-- From `s` to `t` each open collective keeps what `g` shows of it. -/
abbrev SameColls {β : Type} (g : Coll → β) : State → State → Prop := Same (fun s => s.colls.map g)

theorem map_updIf {β : Type} {g : Coll → β} {f : Coll → Coll} (h : ∀ c, g (f c) = g c) (l : List Coll) (p : Coll → Bool) :
    (updIf l p f).map g = l.map g := by
  unfold updIf
  rw [List.map_map]
  refine List.map_congr_left fun c _ => ?_
  dsimp only [Function.comp]
  split
  · exact h c
  · rfl

namespace SameColls

variable {β γ : Type} {g : Coll → β} {s t : State}

theorem of_colls (h : t.colls = s.colls) : SameColls g s t := ⟨congrArg (List.map g) h⟩

theorem of_within {ps : List Part} (h : Within ps s t) (hc : ps.contains .colls = false) : SameColls g s t :=
  of_colls (h.colls hc)

theorem modColl (q : Nat) {f : Coll → Coll} (h : ∀ c, g (f c) = g c := by exact fun _ => rfl) :
    SameColls g s (s.modColl q f) :=
  ⟨map_updIf h _ _⟩

theorem comp (h : SameColls g s t) (k : β → γ) : SameColls (k ∘ g) s t := by
  have hmap := congrArg (List.map k) h.same
  simp only [List.map_map] at hmap
  exact ⟨hmap⟩

/-- The collective of a number shows what it showed. -/
theorem coll (h : SameColls g s t) {k : β → Nat} (hk : ∀ c, k (g c) = c.seq) (q : Nat) :
    (t.coll q).map g = (s.coll q).map g := by
  have hfind : ∀ l : List Coll, (l.find? (fun c => c.seq == q)).map g = (l.map g).find? (fun x => k x == q) := fun l => by
    rw [List.find?_map]
    simp only [Function.comp_def, hk]
  unfold State.coll
  rw [hfind, hfind, h.same]

/-- A collective still shows what it showed among those open. -/
theorem mem (h : SameColls g s t) {c : Coll} (hc : c ∈ s.colls) : ∃ z ∈ t.colls, g z = g c := by
  have hg : g c ∈ t.colls.map g := h.same ▸ List.mem_map_of_mem hc
  obtain ⟨z, hz, heq⟩ := List.mem_map.1 hg
  exact ⟨z, hz, heq⟩

/-- A message that comes at once keeps it when its effect does; one that is sent always does. -/
theorem tell {eff : Packet → State → State} (pkt : Packet) (h : ∀ t, SameColls g t (eff pkt t)) :
    SameColls g s (s.tell eff pkt) :=
  .ite (h s) (of_within (State.sendPacket_keeps (ps := [.acct, .regs, .out, .hub]) rfl (Keeps.refl _ s)).rest rfl)

theorem collWrite (n : CtxId) (a : Nat) (bs : List Byte) : SameColls g s (s.collWrite n a bs) :=
  of_within (State.collWrite_keeps (ps := [.reports, .acct, .regs, .bad, .mem]) rfl (Keeps.refl _ s)).rest rfl

/-- A read keeps it, whether it meets an error or not. -/
theorem of_read {n : CtxId} {a len : Nat} {r : Option (List Byte)} (h : s.collRead n a len = (t, r)) : SameColls g s t := by
  have hread : SameColls g s (s.collRead n a len).1 := of_within
    (State.collRead_keeps (ps := [.reports, .free, .mcs, .regs, .dies, .cores, .acct]) rfl (Keeps.refl _ s)).rest rfl
  rwa [h] at hread

end SameColls

/-- What a collective opened with, and the end of its owner role. -/
def Coll.opened (c : Coll) : Coll :=
  { seq := c.seq, ctx := c.ctx, block := c.block, table := c.table, counts := c.counts, map := c.map, start := c.start
    ownerDone := c.ownerDone, ownerTimedOut := c.ownerTimedOut }

/-- From `s` to `t` no collective opens or closes, and no owner role ends. -/
abbrev SameOpened : State → State → Prop := SameColls Coll.opened

/-- From `s` to `t` no collective opens or closes. -/
abbrev SameSeqs : State → State → Prop := SameColls Coll.seq

theorem SameOpened.seqs {s t : State} (h : SameOpened s t) : SameSeqs s t := h.comp Coll.seq

variable (s : State)

/-! ### ARM and SHARD: units served to ranks, R234, R243 to R245 -/

theorem shardNote_sameOpened (pkt : Packet) : SameOpened s (shardNote pkt s) := by
  unfold shardNote
  split
  · exact .refl s
  · extract_lets u b k id data written scaled st
    have hwritten : SameOpened s written := .ite (SameColls.collWrite ..) (SameColls.collWrite ..)
    have hscaled : SameOpened s scaled := .ite (hwritten.trans (SameColls.collWrite ..)) hwritten
    exact .ite (.refl s) (hscaled.trans (SameColls.modColl _))

theorem serveUnit_sameOpened (c : Coll) (r u : Nat) : SameOpened s (serveUnit c r u s) := by
  have hscale : SameOpened s (unitScale c u s).1 := SameColls.of_within
    (unitScale_keeps (ps := [.reports, .free, .mcs, .regs, .dies, .cores, .acct]) rfl (Keeps.refl _ s)).rest rfl
  unfold serveUnit
  split <;> rename_i t _ heq <;> rw [heq] at hscale
  · exact hscale
  · have hdata : SameOpened t (unitData c u t).1 := SameColls.of_within
      (unitData_keeps (ps := [.reports, .free, .mcs, .regs, .dies, .cores, .acct]) rfl (Keeps.refl _ t)).rest rfl
    split <;> rename_i heq' <;> rw [heq'] at hdata
    · exact hscale.trans hdata
    · exact (hscale.trans hdata).trans (.foldl _ _ fun v k => SameColls.tell _ fun w => shardNote_sameOpened w _)

theorem serveRank_sameOpened (seq r : Nat) : SameOpened s (serveRank seq r s) := by
  unfold serveRank
  split
  · exact .refl s
  · rename_i c _
    have harm : SameOpened s ((s.modColl seq (fun c => { c with served := c.served ++ [r] })).useArm c r) :=
      Same.trans (SameColls.modColl _) (SameColls.of_colls rfl)
    exact .ite (harm.trans (.foldl _ _ fun v k => serveUnit_sameOpened v ..)) harm

theorem serveWaiting_sameOpened (seq : Nat) : SameOpened s (serveWaiting seq s) := by
  unfold serveWaiting
  split
  · exact .refl s
  · exact .foldl _ _ fun v r => serveRank_sameOpened v seq r

theorem skipLate_sameOpened (a : Arm) : SameOpened s (skipLate a s) := by
  unfold skipLate
  exact .ite (.refl s) ⟨map_updIf (by exact fun _ => rfl) _ _⟩

theorem armNote_sameOpened (pkt : Packet) : SameOpened s (armNote pkt s) := by
  unfold armNote
  extract_lets a same was skipped noted
  have hnoted : SameOpened skipped noted := SameColls.of_colls rfl
  exact ((skipLate_sameOpened s a).trans hnoted).trans (.foldl _ _ fun v c => serveRank_sameOpened v ..)

theorem sendArms_sameOpened (c : Coll) : SameOpened s (sendArms c s) := by
  unfold sendArms
  exact .foldl _ _ fun v r => .ite (.refl v) (SameColls.tell _ fun w => armNote_sameOpened w _)

theorem serveIfGather_sameOpened (seq : Nat) : SameOpened s (serveIfGather seq s) := by
  unfold serveIfGather
  split
  · exact .ite (serveWaiting_sameOpened ..) (.refl s)
  · exact .refl s

/-! ### HOP: the moves of a permute, R246 -/

section
variable {act : Packet → State → State} (hact : ∀ t pkt, SameOpened t (act pkt t))

theorem modCycle_sameOpened (q h : Nat) (f : PermCycle → PermCycle) : SameOpened s (s.modCycle q h f) :=
  SameColls.modColl _

include hact

theorem tellRank_sameOpened (c : Coll) (rank : Nat) (pkt : Packet) : SameOpened s (c.tellRank act rank pkt s) :=
  .ite (hact s pkt) (SameColls.tell _ fun t => hact t _)

theorem sendUnit_sameOpened (c : Coll) (kind x : Nat) (data : List Byte) : SameOpened s (sendUnit act c kind x data s) :=
  .foldl _ _ fun t _ => tellRank_sameOpened t hact ..

theorem sendFrom_sameOpened (c : Coll) (kind x a : Nat) : SameOpened s (sendFrom act c kind x a s) := by
  unfold sendFrom
  split <;> rename_i heq
  · exact (SameColls.of_read heq).trans (sendUnit_sameOpened _ hact ..)
  · exact SameColls.of_read heq

theorem nextMove_sameOpened (c : Coll) (z : PermCycle) : SameOpened s (nextMove act c z s) :=
  .ite (sendFrom_sameOpened s hact ..) (tellRank_sameOpened s hact ..)

theorem startCycle_sameOpened (c : Coll) (h half : Nat) : SameOpened s (startCycle act c h half s) := by
  unfold startCycle
  extract_lets z t
  have hadd : SameOpened s t := SameColls.modColl _
  refine .ite ?_ hadd
  split <;> rename_i heq
  · exact (hadd.trans (SameColls.of_read heq)).trans (Same.trans (SameColls.collWrite ..) (nextMove_sameOpened _ hact ..))
  · exact hadd.trans (SameColls.of_read heq)

theorem leadMore_sameOpened (seq k : Nat) : SameOpened s (leadMore act seq k s) := by
  induction k generalizing s with
  | zero => exact .refl s
  | succ k ih =>
    unfold leadMore
    split
    · exact .refl s
    · split
      · exact (Same.trans (SameColls.modColl _) (startCycle_sameOpened _ hact ..)).trans (ih _)
      · exact .refl s

theorem hopAdvance_sameOpened (c : Coll) (x : Nat) : SameOpened s (hopAdvance act c x s) := by
  unfold hopAdvance
  split
  · exact .refl s
  · refine .ite ?_ ((modCycle_sameOpened ..).trans (nextMove_sameOpened _ hact ..))
    exact ((modCycle_sameOpened ..).trans (SameColls.modColl _)).trans (leadMore_sameOpened _ hact ..)

theorem hopLanded_sameOpened (c : Coll) (x : Nat) : SameOpened s (hopLanded act c x s) := by
  have hland : ∀ landed, SameOpened s (s.modColl c.seq (fun c => { c with landed })) := fun _ => SameColls.modColl _
  unfold hopLanded
  exact Same.trans (.ite ((hland _).trans (modCycle_sameOpened ..)) (hland _)) (tellRank_sameOpened _ hact ..)

theorem hopPiece_sameOpened (c : Coll) (x : Nat) (last : Bool) (pkt : Packet) :
    SameOpened s (hopPiece act c x last pkt s) := by
  unfold hopPiece
  extract_lets k key had data written noted
  have hnoted : SameOpened s noted := Same.trans (SameColls.collWrite ..) (SameColls.modColl _)
  exact .ite (.refl s) (.ite hnoted (.ite
    (hnoted.trans ((modCycle_sameOpened ..).trans (SameColls.modColl _))) (hnoted.trans (hopLanded_sameOpened _ hact ..))))

theorem hopAct_sameOpened (c : Coll) (pkt : Packet) : SameOpened s (hopAct act c pkt s) := by
  unfold hopAct
  exact (modCycle_sameOpened ..).trans (.ite (sendFrom_sameOpened _ hact ..)
    (.ite (hopAdvance_sameOpened _ hact ..) (hopPiece_sameOpened _ hact ..)))

end

theorem hopNote_sameOpened (k : Nat) (pkt : Packet) : SameOpened s (hopNote k pkt s) := by
  induction k generalizing pkt s with
  | zero => exact .refl s
  | succ k ih =>
    unfold hopNote
    split
    · exact SameColls.of_colls rfl
    · exact hopAct_sameOpened s (fun t p => ih t p) ..

theorem hopIn_sameOpened (pkt : Packet) : SameOpened s (hopIn pkt s) := hopNote_sameOpened ..

theorem startPermute_sameOpened (seq : Nat) : SameOpened s (startPermute seq s) := by
  have hhop : ∀ t pkt, SameOpened t (hopIn pkt t) := hopIn_sameOpened
  unfold startPermute
  split
  · exact .refl s
  · extract_lets heads others own led kept
    have hothers : SameOpened s others := .foldl _ _ fun t h => startCycle_sameOpened t hhop ..
    have hled : SameOpened others led := Same.trans (SameColls.modColl _) (leadMore_sameOpened _ hhop ..)
    have hkept : SameOpened led { led with hops := led.hops.filter (fun p => !kept p) } := SameColls.of_colls rfl
    exact ((hothers.trans hled).trans hkept).trans (.foldl _ _ fun t p => hhop t p)

end Sys2Proof.Machine
end

section
/-! SUPPORT. The sender and owner roles of a collective (R235 to R239): no collective opens or closes by them, and a closing
sender leaves no combining entry. -/

namespace Sys2Proof.Machine

variable (s : State)

/-! ### The owner role -/

theorem writeScales_colls (c : Coll) : (writeScales c s).colls = s.colls :=
  (writeScales_keeps (ps := Parts.any.erase .colls) rfl (Keeps.refl _ s)).rest.colls rfl

theorem countCopy_colls (c : Coll) (r : RegId) (key : Nat) : (c.countCopy r key s).colls = s.colls :=
  (Coll.countCopy_keeps (ps := Parts.any.erase .colls) rfl (Keeps.refl _ s)).rest.colls rfl

/-- A collective whose owner role has ended, complete or by timeout. -/
def Coll.endOwner (timedOut : Bool) (now : Nat) (c : Coll) : Coll :=
  { c with ownerDone := true, ownerTimedOut := timedOut, gatherFrom := now }

/-- What the end of an owner role does before a gather serves: its scales are written and its late copies counted. -/
def ownerWritten (c : Coll) (s : State) : State :=
  c.lateCopies.foldl (fun s key => c.countCopy .mcRedLate key s) (writeScales c s)

theorem ownerWritten_colls (c : Coll) : (ownerWritten c s).colls = s.colls :=
  (foldl_same State.colls _ _ _ fun t _ => countCopy_colls t ..).trans (writeScales_colls ..)

variable {s} in
theorem ownerEnd_eq {seq : Nat} {c : Coll} (timedOut : Bool) (h : s.coll seq = some c) :
    let t := (ownerWritten c s).modColl seq (Coll.endOwner timedOut (ownerWritten c s).now)
    ownerEnd seq timedOut s = if bkGathers c.block then serveWaiting seq t else t := by
  unfold ownerEnd
  rw [h]
  rfl

variable {s} in
/-- The owner role of a collective ends as asked, and serving ranks leaves it so. -/
theorem ownerEnd_ends {seq : Nat} {c : Coll} (timedOut : Bool) (h : s.coll seq = some c) :
    ((ownerEnd seq timedOut s).coll seq).map (fun z => (z.ownerDone, z.ownerTimedOut)) = some (true, timedOut) := by
  have hc := (State.coll_congr (ownerWritten_colls s c) seq).trans h
  have hended := State.modColl_self (Coll.endOwner timedOut (ownerWritten c s).now) (fun _ => rfl) hc
  rw [ownerEnd_eq timedOut h]
  generalize (ownerWritten c s).modColl seq _ = t at hended
  have hserved : SameOpened t (if bkGathers c.block then serveWaiting seq t else t) :=
    .ite (serveWaiting_sameOpened ..) (.refl t)
  have hshown := hserved.coll (k := Coll.seq) (fun _ => rfl) seq
  rw [hended] at hshown
  have hends := congrArg (Option.map fun z : Coll => (z.ownerDone, z.ownerTimedOut)) hshown
  rw [Option.map_map] at hends
  exact hends

theorem ownerEnd_sameSeqs (seq : Nat) (timedOut : Bool) : SameSeqs s (ownerEnd seq timedOut s) := by
  cases h : s.coll seq with
  | none =>
    unfold ownerEnd
    rw [h]
    exact .refl s
  | some c =>
    have hended : SameSeqs s ((ownerWritten c s).modColl seq (Coll.endOwner timedOut (ownerWritten c s).now)) :=
      Same.trans (SameColls.of_colls (ownerWritten_colls s c)) (SameColls.modColl _)
    rw [ownerEnd_eq timedOut h]
    exact .ite (hended.trans (serveWaiting_sameOpened ..).seqs) hended

theorem commitOne_sameSeqs (c : Coll) (copy : Nat) (ce : List Nat) : SameSeqs s (commitOne c copy ce s) := by
  have hadd : ∀ x src dst n, SameSeqs s (addInto x src dst n ce s) := fun x src dst n => SameColls.of_colls
    ((addInto_keeps (ps := Parts.any.erase .colls) rfl (Keeps.refl _ s)).rest.colls rfl)
  have htrace : ∀ (t : State) src unit kind ctx data, SameSeqs t (t.traceRec src unit kind ctx data) :=
    fun t _ _ _ _ _ => SameColls.of_colls
      ((State.traceRec_keeps (ps := Parts.any.erase .colls) rfl (Keeps.refl _ t)).rest.colls rfl)
  unfold commitOne
  exact (Same.trans (.ite (.refl s) (hadd ..)) (SameColls.modColl _)).trans (htrace ..)

theorem commitRun_sameSeqs (seq : Nat) (ce : List Nat) (k : Nat) : SameSeqs s (commitRun seq ce k s) := by
  induction k generalizing s with
  | zero => exact .refl s
  | succ k ih =>
    unfold commitRun
    split
    · exact .refl s
    · refine .ite (ownerEnd_sameSeqs ..) ?_
      split
      · exact .refl s
      · exact (commitOne_sameSeqs ..).trans (ih _)

theorem copyComplete_sameSeqs (c : Coll) (key : Nat) (ce : List Nat) : SameSeqs s (copyComplete c key ce s) :=
  .ite (Same.trans (SameColls.modColl _) (SameColls.of_colls (countCopy_colls ..)))
    (Same.trans (SameColls.modColl _) (commitRun_sameSeqs ..))

/-! ### CONTRIB and END -/

theorem noteCopy_sameSeqs (seq key ctrl : Nat) (ce : List Nat) {f : Coll → Coll} (hf : ∀ c, (f c).seq = c.seq) :
    SameSeqs s (noteCopy seq key ctrl ce f s) := by
  unfold noteCopy
  extract_lets was id noted
  have hnoted : SameSeqs s noted := SameColls.modColl _ hf
  split
  · exact hnoted
  · exact .ite (hnoted.trans (copyComplete_sameSeqs ..)) hnoted

theorem addContrib_sameSeqs (c : Coll) (key : Nat) (pkt : Packet) (ce : List Nat) :
    SameSeqs s (addContrib c key pkt ce s) := by
  have hadd : ∀ x a vals, SameSeqs s (addValues x a vals ce s) := fun x a vals => SameColls.of_colls
    ((addValues_keeps (ps := Parts.any.erase .colls) rfl (Keeps.refl _ s)).rest.colls rfl)
  unfold addContrib
  exact .ite (SameColls.modColl _) (Same.trans (.ite (hadd ..) (.refl s)) (SameColls.modColl _))

theorem contribNote_sameSeqs (ce : List Nat) (pkt : Packet) : SameSeqs s (contribNote ce pkt s) := by
  unfold contribNote
  dsimp only
  split
  · exact SameColls.of_colls rfl
  · split
    · exact SameColls.of_colls rfl
    · exact (addContrib_sameSeqs ..).trans (noteCopy_sameSeqs _ _ _ _ _ fun _ => rfl)

theorem endNote_sameSeqs (ce : List Nat) (pkt : Packet) : SameSeqs s (endNote ce pkt s) := by
  unfold endNote
  dsimp only
  split
  · exact SameColls.of_colls rfl
  · split
    · exact SameColls.of_colls rfl
    · exact noteCopy_sameSeqs _ _ _ _ _ fun _ => rfl

/-! ### SEND_CLOSE, R235 -/

theorem flushEntry_sameSeqs (z : Comb) : SameSeqs s (flushEntry z s) := by
  unfold flushEntry
  extract_lets t
  have ht : SameSeqs s t := SameColls.of_colls rfl
  split
  · exact ht
  · exact (ht.trans (SameColls.modColl _)).trans (SameColls.tell _ fun t => contribNote_sameSeqs t ..)

theorem tell_combs {eff : Packet → State → State} (pkt : Packet) (h : (eff pkt s).combs = s.combs) :
    (s.tell eff pkt).combs = s.combs := by
  unfold State.tell
  split
  · exact h
  · exact (State.sendPacket_keeps (ps := Parts.any.erase .combs) rfl (Keeps.refl _ s)).rest.combs rfl

/-- A flushed entry leaves the combining buffers, and what comes of its CONTRIB leaves them alone. -/
theorem flushEntry_combs (z : Comb) : (flushEntry z s).combs = s.combs.erase z := by
  unfold flushEntry
  dsimp only
  split
  · rfl
  · refine (tell_combs _ _ ?_).trans rfl
    exact (contribNote_keeps (ps := Parts.any.erase .combs) rfl (Keeps.refl _ _)).rest.combs rfl

theorem flushEntries_combs (l : List Comb) : (l.foldl (fun s z => flushEntry z s) s).combs = s.combs.diff l := by
  induction l generalizing s with
  | nil => rfl
  | cons z l ih => rw [List.foldl_cons, ih, flushEntry_combs, List.diff_cons]

/-- Of the combining entries none is left of those for which a test holds once these are taken out. -/
theorem diff_filter_none (l : List Comb) (p : Comb → Bool) : ∀ z ∈ l.diff (l.filter p), p z = false := by
  intro z hz
  by_contra hp
  have hcount := List.count_pos_iff.2 hz
  rw [List.count_diff, List.count_filter (by simpa using hp)] at hcount
  omega

theorem sendExps_sameSeqs (c : Coll) (o : Nat) : SameSeqs s (sendExps c o s) := by
  unfold sendExps
  refine .ite (.refl s) (.foldl _ _ fun t k => ?_)
  dsimp only
  split <;> rename_i heq
  · exact SameColls.of_read heq
  · exact (SameColls.of_read heq).trans (flushEntry_sameSeqs ..)

/-- What a closing sender still sends of its data: the exponents of the pass, or its combining entries in the order of
their allocation. -/
def sendRest (seq : Nat) (c : Coll) (owners : List Nat) (s : State) : State :=
  if bkOp c.block = opEM then owners.foldl (fun s o => sendExps c o s) s
  else (s.combs.filter (fun z => z.coll == seq)).foldl (fun s z => flushEntry z s) s

/-- END to each owner, with the count of what it was sent. -/
def sendEnds (seq : Nat) (c : Coll) (owners : List Nat) (s : State) : State :=
  owners.foldl (fun s o =>
    let n := ((s.coll seq).map (fun c => SMap.getD c.sent o 0)).getD 0
    s.tell (endNote []) { c.msg s o 0x03 with
      copy := bkCopy c.block, index := BitVec.ofNat 32 (c.first o * bkUnit c.block / 16), payload := toLe 16 n }) s

theorem sendRest_sameSeqs (seq : Nat) (c : Coll) (owners : List Nat) : SameSeqs s (sendRest seq c owners s) :=
  .ite (.foldl _ _ fun t o => sendExps_sameSeqs t c o) (.foldl _ _ fun t z => flushEntry_sameSeqs t z)

theorem sendEnds_sameSeqs (seq : Nat) (c : Coll) (owners : List Nat) : SameSeqs s (sendEnds seq c owners s) :=
  .foldl _ _ fun _ _ => SameColls.tell _ fun u => endNote_sameSeqs u ..

/-- A reduction's entries are gone once they are sent. -/
theorem sendRest_combs (seq : Nat) {c : Coll} (owners : List Nat) (hop : bkOp c.block ≠ opEM) :
    ∀ z ∈ (sendRest seq c owners s).combs, z.coll ≠ seq := by
  intro z hz
  unfold sendRest at hz
  rw [if_neg hop, flushEntries_combs] at hz
  simpa using diff_filter_none s.combs (fun z => z.coll == seq) z hz

theorem sendEnds_combs (seq : Nat) (c : Coll) (owners : List Nat) : (sendEnds seq c owners s).combs = s.combs :=
  foldl_same State.combs _ _ _ fun _ _ => tell_combs _ _
    ((endNote_keeps (ps := Parts.any.erase .combs) rfl (Keeps.refl _ _)).rest.combs rfl)

variable {s}

theorem sendClose_eq {seq : Nat} {c : Coll} (h : s.coll seq = some c) :
    let owners := (List.range (bkP c.block)).filter (fun r => s.armedFor c r && !c.skipOwners.contains r)
    sendClose seq s = (sendEnds seq c owners (sendRest seq c owners s)).modColl seq (fun c => { c with senderDone := true }) := by
  unfold sendClose
  rw [h]
  rfl

/-- A sender that closes is done, and leaves no combining entry of a reduction. -/
theorem sendClose_closes {seq : Nat} {c : Coll} (h : s.coll seq = some c) : let t := sendClose seq s
    (t.coll seq).map (fun z => z.senderDone) = some true ∧ (bkOp c.block ≠ opEM → ∀ z ∈ t.combs, z.coll ≠ seq) ∧
      t.descs = s.descs := by
  have hdescs := (sendClose_keeps (seq := seq) (ps := Parts.any.erase .descs) rfl (Keeps.refl _ s)).rest.descs rfl
  have heq := sendClose_eq h
  dsimp only at heq ⊢
  generalize (List.range (bkP c.block)).filter _ = owners at heq
  have hkept : SameSeqs s (sendEnds seq c owners (sendRest seq c owners s)) :=
    (sendRest_sameSeqs s seq c owners).trans (sendEnds_sameSeqs _ seq c owners)
  have hopen := hkept.coll (k := id) (fun _ => rfl) seq
  rw [h] at hopen
  obtain ⟨d, hd, -⟩ := Option.map_eq_some_iff.1 hopen
  refine ⟨?_, fun hop => ?_, hdescs⟩
  · rw [heq, State.modColl_self (fun c => { c with senderDone := true }) (fun _ => rfl) hd]
    rfl
  · rw [heq, State.modColl_combs, sendEnds_combs]
    exact sendRest_combs s seq owners hop

theorem exec_sendClose {seq : Nat} {c : Coll} (h : s.coll seq = some c) (hhub : s.hub.takeover = false)
    (hrec : s.recovery = none) (hmay : s.mayClose c = true) : exec (.sendClose seq) s = .next (sendClose seq s) := by
  show execSendClose seq s = _
  unfold execSendClose
  simp [h, State.hubUp, hhub, hrec, hmay]

end Sys2Proof.Machine
end

section
/-! SUPPORT. Cycles of a permute that are given up (R247). -/

namespace Sys2Proof.Machine

/-! ### What giving up cycles may change of a collective -/

/-- From `c` to `d` the heads still to lead stand, and cycles change, if at all, towards done and failed. -/
structure Abandons (c d : Coll) : Prop where
  seq : d.seq = c.seq
  heads : d.heads = c.heads
  cycles : ∀ z ∈ d.cycles, ∃ y ∈ c.cycles, z.head = y.head ∧ (y.done = true → z.done = true) ∧
    (y.failed = true → z.failed = true)

/-- Nothing changes but parts that cycles and heads do not rest on. -/
theorem Abandons.of_eq {c d : Coll} (hs : d.seq = c.seq) (hh : d.heads = c.heads) (hc : d.cycles = c.cycles) : Abandons c d :=
  ⟨hs, hh, fun z hz => ⟨z, hc ▸ hz, rfl, id, id⟩⟩

/-- Cycles changed towards done and failed. -/
theorem Abandons.of_cycles (c : Coll) (p : PermCycle → Bool) {f : PermCycle → PermCycle}
    (hf : ∀ y, (f y).head = y.head ∧ (y.done = true → (f y).done = true) ∧ (y.failed = true → (f y).failed = true)) :
    Abandons c { c with cycles := updIf c.cycles p f } := by
  refine ⟨rfl, rfl, fun z hz => ?_⟩
  obtain ⟨y, hy, rfl⟩ := List.mem_map.1 hz
  refine ⟨y, hy, ?_⟩
  split
  · exact hf y
  · exact ⟨rfl, id, id⟩

/-- A property that giving up cycles keeps. -/
def KeptByAbandons (Q : Coll → Prop) : Prop := ∀ c d, Abandons c d → Q c → Q d

/-- The cycles of a head are done, as failed. -/
def Coll.givenUp (h : Nat) (c : Coll) : Prop := ∀ y ∈ c.cycles, y.head = h → y.done = true ∧ y.failed = true

theorem givenUp_kept (h : Nat) : KeptByAbandons (Coll.givenUp h) := by
  intro c d hcd hc z hz hhead
  obtain ⟨y, hy, heq, hdone, hfailed⟩ := hcd.cycles z hz
  obtain ⟨hyd, hyf⟩ := hc y hy (heq ▸ hhead)
  exact ⟨hdone hyd, hfailed hyf⟩

theorem noHeads_kept (led : Prop) : KeptByAbandons (fun c => led → c.heads = []) :=
  fun _ _ hcd hc hled => hcd.heads.trans (hc hled)

theorem KeptByAbandons.and {P Q : Coll → Prop} (hP : KeptByAbandons P) (hQ : KeptByAbandons Q) :
    KeptByAbandons (fun c => P c ∧ Q c) :=
  fun c d h hc => ⟨hP c d h hc.1, hQ c d h hc.2⟩

/-! ### The open collective of a number has a property -/

/-- The collective of a number is open and has a property. -/
def State.CollHas (s : State) (seq : Nat) (Q : Coll → Prop) : Prop := ∃ c, s.coll seq = some c ∧ Q c

variable {s t : State} {seq : Nat} {Q : Coll → Prop}

theorem State.CollHas.congr (h : s.CollHas seq Q) (ht : t.colls = s.colls) : t.CollHas seq Q := by
  obtain ⟨c, hc, hq⟩ := h
  exact ⟨c, (State.coll_congr ht seq).trans hc, hq⟩

/-- A change of a collective establishes what it makes of the property. -/
theorem State.CollHas.modify {P : Coll → Prop} {f : Coll → Coll} (h : s.CollHas seq Q) (hf : ∀ c, (f c).seq = c.seq)
    (hP : ∀ c, Q c → P (f c)) : (s.modColl seq f).CollHas seq P := by
  obtain ⟨c, hc, hq⟩ := h
  exact ⟨f c, State.modColl_self f hf hc, hP c hq⟩

section
variable (hQ : KeptByAbandons Q)
include hQ

theorem modColl_collHas {q : Nat} {f : Coll → Coll} (hf : ∀ c, Abandons c (f c)) (h : s.CollHas seq Q) :
    (s.modColl q f).CollHas seq Q := by
  by_cases hq : q = seq
  · subst hq
    exact h.modify (fun c => (hf c).seq) fun c => hQ c _ (hf c)
  · obtain ⟨c, hc, hqc⟩ := h
    exact ⟨c, (State.modColl_other f (fun c => (hf c).seq) (Ne.symm hq)).trans hc, hqc⟩

theorem modCycle_collHas {q g : Nat} {f : PermCycle → PermCycle}
    (hf : ∀ y, (f y).head = y.head ∧ (y.done = true → (f y).done = true) ∧ (y.failed = true → (f y).failed = true))
    (h : s.CollHas seq Q) : (s.modCycle q g f).CollHas seq Q :=
  modColl_collHas hQ (fun c => Abandons.of_cycles c _ hf) h

/-! ### The head's unit of a cycle that is given up -/

/-- A message with the head's unit ends the cycle at its index as failed. -/
theorem hopPiece_last_collHas (act : Packet → State → State) (c : Coll) (x : Nat) (pkt : Packet) (h : s.CollHas seq Q) :
    (hopPiece act c x true pkt s).CollHas seq Q := by
  unfold hopPiece
  extract_lets k key had data written noted
  have hwritten : written.CollHas seq Q := h.congr
    ((State.collWrite_keeps (ps := Parts.any.erase .colls) rfl (Keeps.refl _ s)).rest.colls rfl)
  have hnoted : noted.CollHas seq Q := modColl_collHas hQ (fun _ => .of_eq rfl rfl rfl) hwritten
  split
  · exact h
  · split
    · exact hnoted
    · rw [if_pos rfl]
      exact modColl_collHas hQ (fun _ => .of_eq rfl rfl rfl)
        (modCycle_collHas hQ (fun y => ⟨rfl, fun _ => rfl, fun _ => rfl⟩) hnoted)

theorem hopAct_head_collHas (act : Packet → State → State) (c : Coll) {pkt : Packet} (hk : leAt pkt.payload 0 4 = hopHead)
    (h : s.CollHas seq Q) : (hopAct act c pkt s).CollHas seq Q := by
  unfold hopAct
  rw [hk]
  refine hopPiece_last_collHas hQ act c _ pkt (modCycle_collHas hQ (fun y => ?_) h)
  split <;> exact ⟨rfl, id, id⟩

theorem hopIn_head_collHas {pkt : Packet} (hk : leAt pkt.payload 0 4 = hopHead) (h : s.CollHas seq Q) :
    (hopIn pkt s).CollHas seq Q := by
  unfold hopIn hopNote
  split
  · exact h.congr rfl
  · exact hopAct_head_collHas hQ _ _ hk h

end

theorem hop_kind (c : Coll) (s : State) (rank x k : Nat) (data : List Byte) :
    leAt (c.hop s rank hopHead x k data).payload 0 4 = hopHead := rfl

section
variable (hQ : KeptByAbandons Q)
include hQ

theorem tellRank_head_collHas (c : Coll) (rank : Nat) {pkt : Packet} (hk : leAt pkt.payload 0 4 = hopHead)
    (h : s.CollHas seq Q) : (c.tellRank hopIn rank pkt s).CollHas seq Q := by
  unfold Coll.tellRank State.tell
  split
  · exact hopIn_head_collHas hQ hk h
  · split
    · exact hopIn_head_collHas hQ hk h
    · exact h.congr ((State.sendPacket_keeps (ps := Parts.any.erase .colls) rfl (Keeps.refl _ s)).rest.colls rfl)

theorem sendFrom_head_collHas (c : Coll) (x a : Nat) (h : s.CollHas seq Q) :
    (sendFrom hopIn c hopHead x a s).CollHas seq Q := by
  have hread : ∀ {t : State} {r}, s.collRead c.ctx a (bkUnitBytes c.block) = (t, r) → t.CollHas seq Q := fun heq => by
    have hcolls := (State.collRead_keeps (n := c.ctx) (a := a) (len := bkUnitBytes c.block)
      (ps := Parts.any.erase .colls) rfl (Keeps.refl _ s)).rest.colls rfl
    rw [heq] at hcolls
    exact h.congr hcolls
  unfold sendFrom
  split <;> rename_i heq
  · exact fold_inv (fun u => u.CollHas seq Q) _ _ _ (hread heq) fun u k hu => tellRank_head_collHas hQ c _ (hop_kind ..) hu
  · exact hread heq

/-! ### PERMUTE_CYCLE_ABANDON, R247 -/

/-- What follows once a cycle is marked: its part fails, and a leader writes its staged unit. -/
theorem abandonCycle_after (c : Coll) (z : PermCycle) (f : Coll → Coll) (hf : ∀ c, Abandons c (f c)) (led : Bool)
    (h : s.CollHas seq Q) : (if led then sendFrom hopIn c hopHead z.x (c.stageAt z.half) (s.modColl seq f)
      else s.modColl seq f).CollHas seq Q := by
  have hmod := modColl_collHas (q := seq) hQ hf h
  split
  · exact sendFrom_head_collHas hQ _ _ _ hmod
  · exact hmod

end

/-- A cycle that is given up is done, as failed, and what else is known of its collective stands. -/
theorem abandonCycle_collHas (hQ : KeptByAbandons Q) (z : PermCycle) (h : s.CollHas seq Q) :
    (abandonCycle seq z s).CollHas seq (fun c => c.givenUp z.head ∧ Q c) := by
  obtain ⟨c, hc, hq⟩ := id h
  have hmark : (s.modCycle seq z.head (fun y => { y with done := true, failed := true })).CollHas seq
      (fun c => c.givenUp z.head ∧ Q c) := by
    refine h.modify (fun _ => rfl) fun d hd => ⟨fun y hy hhead => ?_, hQ d _ (Abandons.of_cycles d _ fun y =>
      ⟨rfl, fun _ => rfl, fun _ => rfl⟩) hd⟩
    obtain ⟨w, -, rfl⟩ := List.mem_map.1 hy
    by_cases hw : (w.head == z.head) = true
    · simp [hw]
    · rw [if_neg hw] at hhead
      exact absurd (by simpa using hhead) hw
  unfold abandonCycle
  rw [hc]
  exact abandonCycle_after ((givenUp_kept z.head).and hQ) c z _ (by exact fun _ => .of_eq rfl rfl rfl) _ hmark

/-- Each cycle of a permute that passes its limit is given up, and its leader leads no more. -/
theorem permuteAbandon_givesUp {c : Coll} {z : PermCycle} (h : s.coll c.seq = some c) (hz : z ∈ c.cycles)
    (hopen : z.done = false) (hover : s.collOver c z.since = true) :
    (permuteAbandon c s).CollHas c.seq (fun d => d.givenUp z.head ∧ (z.half < 2 → d.heads = [])) := by
  unfold permuteAbandon
  extract_lets late led out idle
  have hlate : z ∈ late := List.mem_filter.2 ⟨hz, by simp [hopen, hover]⟩
  have hout : z ∈ out := by
    show z ∈ (if led then _ else late)
    split
    · exact List.mem_append_left _ hlate
    · exact hlate
  have hidle : idle.CollHas c.seq (fun d => z.half < 2 → d.heads = []) := by
    by_cases hhalf : z.half < 2
    · have hled : led = true := List.any_eq_true.2 ⟨z, hlate, decide_eq_true hhalf⟩
      show (if led = true then _ else s).CollHas c.seq _
      rw [if_pos hled]
      exact ⟨_, State.modColl_self (fun c => { c with heads := [] }) (fun _ => rfl) h, fun _ => rfl⟩
    · have hcoll : (if led = true then s.modColl c.seq (fun c => { c with heads := [] }) else s).coll c.seq ≠ none := by
        split
        · rw [State.modColl_self (fun c => { c with heads := [] }) (fun _ => rfl) h]
          exact Option.some_ne_none _
        · rw [h]
          exact Option.some_ne_none _
      obtain ⟨d, hd⟩ := Option.ne_none_iff_exists'.1 hcoll
      exact ⟨d, hd, fun hlt => absurd hlt hhalf⟩
  refine foldl_hits' (fun t => t.CollHas c.seq (fun d => z.half < 2 → d.heads = []))
    (fun t => t.CollHas c.seq (fun d => d.givenUp z.head ∧ (z.half < 2 → d.heads = []))) out _ z _ hout hidle ?_ ?_ ?_
  · intro t y ht
    obtain ⟨d, hd, -, hheads⟩ := abandonCycle_collHas (noHeads_kept _) y ht
    exact ⟨d, hd, hheads⟩
  · exact fun t ht => abandonCycle_collHas (noHeads_kept _) z ht
  · intro t y ht
    obtain ⟨d, hd, -, hboth⟩ := abandonCycle_collHas ((givenUp_kept z.head).and (noHeads_kept _)) y ht
    exact ⟨d, hd, hboth⟩

theorem exec_permuteCycleAbandon {c : Coll} (h : s.coll seq = some c) (hhub : s.hub.takeover = false)
    (hrec : s.recovery = none) (hop : bkOp c.block = opPM) :
    exec (.permuteCycleAbandon seq) s = .next (permuteAbandon c s) := by
  show execPermuteCycleAbandon seq s = _
  unfold execPermuteCycleAbandon
  simp [h, State.hubUp, hhub, hrec, hop]

end Sys2Proof.Machine
end

section
/-! SUPPORT. The limits of a collective and its completion (R237, R240, R242, R243, R332, R339). -/

namespace Sys2Proof.Machine

variable {s : State} {seq : Nat} {c : Coll}

/-! ### Limits -/

theorem exec_ownerTimeout (h : s.coll seq = some c) (hhub : s.hub.takeover = false) (hrec : s.recovery = none)
    (howns : bkOwns c.block = true) (hopen : c.ownerDone = false) (hover : s.collOver c c.start = true) :
    exec (.ownerTimeout seq) s = .next (ownerEnd seq true s) := by
  show execOwnerTimeout seq s = _
  unfold execOwnerTimeout
  simp [h, State.hubUp, hhub, hrec, howns, hopen, hover]

/-- A sender that leaves owners out. -/
def Coll.leaveOut (owners : Coll → List Nat) (c : Coll) : Coll :=
  { c with senderTimedOut := true, skipOwners := c.skipOwners ++ owners c }

theorem exec_senderTimeout (h : s.coll seq = some c) (hhub : s.hub.takeover = false) (hrec : s.recovery = none)
    (hop : bkOp c.block ≠ opPM) (hover : s.collOver c c.start = true) (hlate : s.unarmed c ≠ []) :
    exec (.senderTimeout seq) s = .next (s.modColl seq (Coll.leaveOut s.unarmed)) := by
  show execSenderTimeout seq s = _
  unfold execSenderTimeout
  rw [h]
  exact congrArg Host.Outcome.next (if_pos (by simp [State.hubUp, hhub, hrec, hop, hover, hlate]))

/-- A gather with a part that failed. -/
def Coll.failGather (part : Fin 16) (c : Coll) : Coll :=
  { c with failedParts := c.failedParts ||| BitVec.ofNat 16 (2 ^ part.val) }

theorem exec_gatherPartTimeout (part : Fin 16) (h : s.coll seq = some c) (hhub : s.hub.takeover = false)
    (hrec : s.recovery = none) (hserving : c.serving = true) (hruns : c.runsPart part.val = true)
    (harrived : c.partArrived part.val = false) (hover : s.collOver c c.gatherFrom = true) :
    exec (.gatherPartTimeout seq part) s = .next (s.modColl seq (Coll.failGather part)) := by
  show execGatherPartTimeout seq part s = _
  unfold execGatherPartTimeout
  rw [h]
  exact congrArg Host.Outcome.next (if_pos (by simp [State.hubUp, hhub, hrec, hserving, hruns, harrived, hover]))

/-- A change of one collective that keeps its number changes no other, and nothing else. -/
theorem modColl_settles {f : Coll → Coll} (hf : ∀ y, (f y).seq = y.seq) (h : s.coll seq = some c) :
    let t := s.modColl seq f
    t.coll seq = some (f c) ∧ (∀ q, q ≠ seq → t.coll q = s.coll q) ∧ t = { s with colls := t.colls } :=
  ⟨State.modColl_self f hf h, fun _ hq => State.modColl_other f hf hq, rfl⟩

/-! ### The report and DONE_SEM -/

theorem Coll.report_length (c : Coll) (st : Byte) (dt : W16) (now : Nat) : (c.report st dt now).length = 64 := by
  unfold Coll.report
  simp [toLe_length]

/-- A completed collective off the module, with its report in memory. -/
def reported (c : Coll) (s : State) : State :=
  ((s.dropColl c).hubWrite c.ctx (bkReport c.block) (c.report c.status.1 c.status.2 (s.dropColl c).now)).1

/-- DONE_SEM of a completed collective, when it is valid, goes up by 1. -/
def signalled (c : Coll) (s : State) : State :=
  let sem := bkDoneSem c.block
  if bits sem 15 15 = 1 then s.setSem c.ctx (bits sem 10 8) (bits sem 7 0) (s.sem c.ctx (bits sem 10 8) (bits sem 7 0) + 1)
  else s

theorem reported_within (c : Coll) (s : State) :
    Within [.colls, .combs, .arms, .hostMem, .mem, .reports, .acct, .free, .regs, .bad] s (reported c s) :=
  (State.hubWrite_keeps rfl (State.dropColl_keeps rfl (Keeps.refl _ s))).rest

theorem signalled_within (c : Coll) (s : State) : Within [.ctxs] s (signalled c s) :=
  (Keeps.ite (State.setSem_keeps rfl (Keeps.refl _ s)) (Keeps.refl _ s)).rest

theorem collectiveComplete_eq (hfits : bits (bkDoneSem c.block) 15 15 = 1 →
      s.sem c.ctx (bits (bkDoneSem c.block) 10 8) (bits (bkDoneSem c.block) 7 0) + 1 < 2 ^ 32) :
    collectiveComplete c s = (signalled c (reported c s)).complete c.seq c.status.1 c.status.2 := by
  have hroom : bits (bkDoneSem c.block) 15 15 = 1 →
      (reported c s).sem c.ctx (bits (bkDoneSem c.block) 10 8) (bits (bkDoneSem c.block) 7 0) + 1 < 2 ^ 32 := by
    rw [State.sem_congr ((reported_within c s).ctxs rfl)]
    exact hfits
  unfold collectiveComplete signalled reported at *
  generalize c.status = status at *
  obtain ⟨st, dt⟩ := status
  dsimp only at *
  split
  next hvalid => rw [State.semAdd_fits (hroom hvalid)]
  next => rfl

theorem exec_collectiveComplete (h : s.coll seq = some c) (hhub : s.hub.takeover = false) (hrec : s.recovery = none)
    (hended : c.ended = true) : exec (.collectiveComplete seq) s = .next (collectiveComplete c s) := by
  show execCollectiveComplete seq s = _
  unfold execCollectiveComplete
  simp [h, State.hubUp, hhub, hrec, hended]

theorem signalled_sem (c : Coll) (s : State) : let sem := bkDoneSem c.block
    (signalled c s).sem c.ctx (bits sem 10 8) (bits sem 7 0) =
      s.sem c.ctx (bits sem 10 8) (bits sem 7 0) + bits sem 15 15 := by
  have hbit : bits (bkDoneSem c.block) 15 15 < 2 := Nat.mod_lt _ (by decide)
  unfold signalled
  dsimp only
  split
  next hvalid => rw [State.sem_setSem_self, hvalid]
  next hinvalid =>
    have hzero : bits (bkDoneSem c.block) 15 15 = 0 := by omega
    rw [hzero, Nat.add_zero]

/-! ### What the status quadword rests on -/

theorem hubWrite_reg (s : State) (n : CtxId) (a : Nat) (bs : List Byte) {q : RegId} {d i j : Nat} (h : Uncounted q d i j) :
    (s.hubWrite n a bs).1.reg q d i j = s.reg q d i j := by
  unfold State.hubWrite
  split
  · exact State.reg_congr (State.anyWrite_regs ..) ..
  · split
    · rfl
    · exact (State.reg_congr (t := (s.putBytes a bs).chargeBytes n none a bs.length)
        ((State.chargeBytes_keeps (ps := [.acct]) rfl (Keeps.refl _ _)).rest.regs rfl) ..).trans (State.putBytes_reg s a bs h)

/-- A write brings no new error. -/
theorem hubWrite_bad (s : State) (n : CtxId) (a : Nat) (bs : List Byte) : (s.hubWrite n a bs).1.bad.Sublist s.bad := by
  unfold State.hubWrite
  split
  · rw [State.anyWrite_bad]
  · split
    · exact List.Sublist.refl _
    · rw [show ((s.putBytes a bs).chargeBytes n none a bs.length).bad = (s.putBytes a bs).bad from
        (State.chargeBytes_keeps (ps := [.acct]) rfl (Keeps.refl _ _)).rest.bad rfl, State.putBytes_bad]
      exact List.filter_sublist

theorem clear_of_fewer {s t : State} (hb : t.bad.Sublist s.bad) (hc : t.colls.Sublist s.colls) {a n : Nat} (h : Clear s a n) :
    Clear t a n := by
  intro ha
  obtain ⟨hbad, hguards⟩ := h ha
  refine ⟨List.find?_eq_none.2 fun x hx => List.find?_eq_none.1 hbad x (hb.subset hx), ?_⟩
  rw [List.flatMap_eq_nil_iff] at hguards ⊢
  exact fun z hz => hguards z (hc.subset hz)

theorem uncounted_hifRingBase (r : RingId) : Uncounted .hifRingBase 0 r.val 0 := by
  intro e k
  have hr := r.isLt
  simp only [RegId.off, RegId.row, if_true, Bool.false_eq_true, if_false]
  omega

/-- A completed collective has left the module before its descriptor completes. -/
theorem reported_colls (c : Coll) (s : State) : (reported c s).colls = s.colls.filter (fun z => z.seq != c.seq) :=
  (State.hubWrite_keeps (ps := Parts.any.erase .colls) rfl (Keeps.refl _ (s.dropColl c))).rest.colls rfl

theorem reported_clear (c : Coll) {a n : Nat} (h : Clear s a n) : Clear (signalled c (reported c s)) a n := by
  have hsignal := signalled_within c (reported c s)
  refine clear_of_fewer (s := s) ?_ ?_ h
  · rw [hsignal.bad rfl]
    exact hubWrite_bad (s.dropColl c) ..
  · rw [hsignal.colls rfl, reported_colls]
    exact List.filter_sublist

theorem reported_slotAddr (c : Coll) (s : State) (r : RingId) (k : Nat) :
    (signalled c (reported c s)).slotAddr r k = s.slotAddr r k :=
  State.slotAddr_congr ((State.reg_congr ((signalled_within c _).regs rfl) ..).trans
    (hubWrite_reg (s.dropColl c) _ _ _ (uncounted_hifRingBase r))) k

/-- The report of the only open collective stands in device memory. -/
theorem reported_devRead (halone : s.colls = [c]) (hdev : isHost (bkReport c.block) = false)
    (hmay : s.writeFault c.ctx (bkReport c.block) 64 = none) :
    (reported c s).devRead (bkReport c.block) 64 = c.report c.status.1 c.status.2 s.now := by
  have hlen := c.report_length c.status.1 c.status.2 s.now
  have hmay' : (s.dropColl c).writeFault c.ctx (bkReport c.block) (c.report c.status.1 c.status.2 s.now).length = none := by
    rw [hlen]
    exact hmay
  have hcolls : (s.dropColl c).colls.flatMap (fun z => z.guards) = [] := by
    show (s.colls.filter (fun z => z.seq != c.seq)).flatMap _ = []
    rw [halone]
    simp
  show ((s.dropColl c).hubWrite c.ctx (bkReport c.block) (c.report c.status.1 c.status.2 s.now)).1.devRead _ _ = _
  unfold State.hubWrite
  rw [hdev, hmay', if_neg (by decide)]
  dsimp only
  generalize c.report c.status.1 c.status.2 s.now = bs at hlen
  rw [← hlen, chargeBytes_frame, putBytes_plain _ _ _ hcolls]
  exact devRead_devWrite (s.dropColl c) _ bs

/-! ### COLLECTIVE_COMPLETE, R240 -/

/-- A collective that completes leaves the module, its descriptor is done and DONE_SEM counts it. -/
theorem collectiveComplete_settles (h : s.coll seq = some c)
    (hfits : bits (bkDoneSem c.block) 15 15 = 1 →
      s.sem c.ctx (bits (bkDoneSem c.block) 10 8) (bits (bkDoneSem c.block) 7 0) + 1 < 2 ^ 32) :
    let sem := bkDoneSem c.block
    let t := collectiveComplete c s
    t.isDone seq = true ∧ t.coll seq = none ∧
      t.sem c.ctx (bits sem 10 8) (bits sem 7 0) = s.sem c.ctx (bits sem 10 8) (bits sem 7 0) + bits sem 15 15 := by
  obtain rfl : c.seq = seq := by simpa using List.find?_some h
  dsimp only
  rw [collectiveComplete_eq hfits]
  refine ⟨complete_isDone .., ?_, ?_⟩
  · have hcolls := (State.complete_keeps (seq := c.seq) (status := c.status.1) (detail := c.status.2)
      (ps := Parts.any.erase .colls) rfl
      (Keeps.refl _ (signalled c (reported c s)))).rest.colls rfl
    rw [State.coll, hcolls, (signalled_within c _).colls rfl, reported_colls]
    exact List.find?_eq_none.2 fun z hz => by simpa using (List.mem_filter.1 hz).2
  · rw [sem_complete, signalled_sem, State.sem_congr ((reported_within c s).ctxs rfl)]

/-- A SILENT descriptor then holds its status quadword, and the report stands in device memory. -/
theorem collectiveComplete_writes {x : Desc} (h : s.coll seq = some c)
    (hfits : bits (bkDoneSem c.block) 15 15 = 1 →
      s.sem c.ctx (bits (bkDoneSem c.block) 10 8) (bits (bkDoneSem c.block) 7 0) + 1 < 2 ^ 32)
    (hx : s.desc seq = some x) (hopen : x.st ≠ .done) (hsilent : leAt x.bytes 1 1 % 2 = 1)
    (hclear : Clear s (s.slotAddr x.ring x.slot + 0x38) 8) :
    let slot := s.slotAddr x.ring x.slot + 0x38
    let t := collectiveComplete c s
    t.anyRead slot 8 = toLe 8 (statusWord c.status.1 c.status.2 s.now) ∧
      (isHost slot = true → isHost (bkReport c.block) = false → s.colls = [c] →
        s.writeFault c.ctx (bkReport c.block) 64 = none →
        t.devRead (bkReport c.block) 64 = c.report c.status.1 c.status.2 s.now) := by
  obtain rfl : c.seq = seq := by simpa using List.find?_some h
  have hsignal := signalled_within c (reported c s)
  have hreport := reported_within c s
  have hdesc : (signalled c (reported c s)).desc c.seq = some x := by
    rw [State.desc, hsignal.descs rfl, hreport.descs rfl]
    exact hx
  have hslot := reported_slotAddr c s x.ring x.slot
  obtain ⟨hframe, hstatus, -, hhost⟩ := silent_facts (signalled c (reported c s)) c.seq c.status.1 c.status.2 x hdesc hopen
    hsilent (hslot.symm ▸ reported_clear c hclear)
  rw [hslot] at hstatus hhost
  rw [hsignal.now rfl, hreport.now rfl] at hstatus
  dsimp only
  rw [collectiveComplete_eq hfits]
  refine ⟨hstatus, fun hh hdev halone hmay => ?_⟩
  obtain ⟨hmem, -⟩ := hhost hh
  have hscrambled := congrArg State.scrambled hframe
  rw [devRead_congr (hmem.trans (hsignal.mem rfl)) (hscrambled.trans (hsignal.scrambled rfl))]
  exact reported_devRead halone hdev hmay

end Sys2Proof.Machine
end

section
/-! PROOFS. CollectivesEnd. -/

namespace Sys2Proof

open Machine

/-- Settles O59: each role's end by what it changes of its collective, which the messages that follow keep, and the
completion by its report, DONE_SEM and status in their order. -/
theorem collectivesEnd : Obligations.CollectivesEnd := by
  unfold Obligations.CollectivesEnd
  intro s seq c h hhub hrec
  refine ⟨fun hmay => ?_, fun howns hopen hover => ?_, fun hop hover hlate => ?_,
    fun part hserving hruns harrived hover => ?_, fun z hz hop hopen hover => ?_, fun hended => ?_⟩
  · exact ⟨_, exec_sendClose h hhub hrec hmay, sendClose_closes h⟩
  · refine ⟨_, exec_ownerTimeout h hhub hrec howns hopen hover, ownerEnd_ends true h, ?_⟩
    exact (ownerEnd_keeps (ps := Parts.any.erase .descs) rfl (Keeps.refl _ s)).rest.descs rfl
  · exact ⟨_, exec_senderTimeout h hhub hrec hop hover hlate, modColl_settles (fun _ => rfl) h⟩
  · exact ⟨_, exec_gatherPartTimeout part h hhub hrec hserving hruns harrived hover, modColl_settles (fun _ => rfl) h⟩
  · obtain rfl : c.seq = seq := by simpa using List.find?_some h
    obtain ⟨d, hd, hgiven, hheads⟩ := permuteAbandon_givesUp h hz hopen hover
    refine ⟨_, exec_permuteCycleAbandon h hhub hrec hop, ?_, fun hhalf => ?_,
      (permuteAbandon_keeps (ps := Parts.any.erase .descs) rfl (Keeps.refl _ s)).rest.descs rfl⟩
    · rw [hd, Option.map_some, Option.some.injEq, List.all_eq_true]
      intro y hy
      by_cases hhead : y.head = z.head
      · obtain ⟨hdone, hfailed⟩ := hgiven y hy hhead
        simp [hdone, hfailed]
      · simp [hhead]
    · rw [hd, Option.map_some, hheads hhalf]
  · intro sem die idx hfits
    obtain ⟨hdone, hgone, hsem⟩ := collectiveComplete_settles h hfits
    exact ⟨_, exec_collectiveComplete h hhub hrec hended, hdone, hgone, hsem, fun x hx hopen hsilent hclear =>
      collectiveComplete_writes h hfits hx hopen hsilent hclear⟩

end Sys2Proof
end


section
/-! SUPPORT. A COLLECTIVE that is fetched with a block that passes, and its start (R222 to R226, R234, R241, R246). -/

namespace Sys2Proof.Machine

/-! ### The fetch of a block -/

/-- A fetched COLLECTIVE before its start, with its block. -/
def takenWith (s : State) (r : RingId) (blk : List Byte) : Desc :=
  { taken s r (leAt (s.headBytes r) 0 1) with bytes := s.headBytes r ++ blk }

/-- A read on behalf of a fetched descriptor counts, and leaves what the context may use. -/
theorem hbmInRanges_fetch_jobRead (s : State) (r : RingId) (m n : CtxId) (src : Option Die) (a len b k : Nat) :
    ((s.fetch r).1.jobRead m src a len).hbmInRanges n b k = s.hbmInRanges n b k := by
  obtain ⟨hranges, -⟩ := fetch_ranges s r
  refine hbmInRanges_congr s _ n (fun j hj => ?_) ?_ b k
  · refine ((jobRead_counted (s.fetch r).1 m src a len).hubReg ?_).trans (hranges n j hj)
    have hn := n.isLt
    simp only [RegId.off, RegId.row, Bool.false_eq_true, if_false]
    omega
  · rw [State.jobRead_regionMap, fetch_regionMap]

section
variable {s t : State} {x : Desc} (h : Joined s x t)

include h

theorem Joined.rankTable (b : List Byte) : t.rankTable b = s.rankTable b := by
  unfold State.rankTable State.devNat
  simp only [h.sameChecks.devRead]

theorem Joined.countTable (b : List Byte) : t.countTable b = s.countTable b := by
  unfold State.countTable State.devNat
  simp only [h.sameChecks.devRead]

theorem Joined.permMap (b : List Byte) : t.permMap b = s.permMap b := by
  unfold State.permMap State.devNat
  simp only [h.sameChecks.devRead]

theorem Joined.badIn (a n : Nat) : t.badIn a n = s.badIn a n := by
  unfold State.badIn
  rw [h.within.bad rfl]

/-- A descriptor that has no block yet is no open collective. -/
theorem Joined.openColls (hlen : x.bytes.length ≠ 192) : t.openColls = s.openColls := by
  unfold State.openColls
  rw [h.descs, List.filter_append, List.filter_cons_of_neg (by simp [hlen]), List.filter_nil, List.append_nil]

/-- The checks of a block rest on the open collectives, the tables and the areas that the context may use. -/
theorem Joined.collCheck (hlen : x.bytes.length ≠ 192) (hmay : ∀ n a k, t.hbmInRanges n a k = s.hbmInRanges n a k)
    (n : CtxId) (b : List Byte) : t.collCheck n b = s.collCheck n b := by
  have harea : ∀ a k, t.areaIn n a k = s.areaIn n a k := fun a k => by
    unfold State.areaIn
    rw [hmay]
  have hreport : t.reportOk n b = s.reportOk n b := by
    unfold State.reportOk
    rw [harea]
  unfold State.collCheck
  simp only [h.openColls hlen, h.rankTable, h.countTable, h.permMap, harea, hreport]

theorem Joined.jobReads (n : CtxId) (runs : List (Nat × Nat)) :
    Joined s x (runs.foldl (fun t r => t.jobRead n none r.1 r.2) t) := by
  induction runs generalizing t with
  | nil => exact h
  | cons r runs ih => exact ih (h.jobRead n none r.1 r.2)

end

theorem headBytes_length (s : State) (r : RingId) : (s.headBytes r).length = 64 := anyRead_length ..

/-- A COLLECTIVE whose block may be read and passes its checks, with sound tables, takes in its block. -/
theorem admitColl_passes {s : State} {x : Desc} {n : CtxId} {a : Nat} {b : List Byte} (hn : ringCtx x.ring = n)
    (ha : blockAddr x.bytes = a) (hb : s.devRead a 128 = b) (hread : s.readFault n a 128 = none)
    (hcheck : (s.jobRead n none a 128).collCheck n b = none) :
    let u := (tableRuns b).foldl (fun t r => t.jobRead n none r.1 r.2) (s.jobRead n none a 128)
    (tableRuns b).findSome? (fun r => u.badIn r.1 r.2) = none →
      admitColl x s = u.modDesc x.seq (fun y => { y with bytes := y.bytes ++ b }) := by
  subst hn ha hb
  intro u htables
  unfold admitColl
  simp only [hread, hcheck]
  rw [show (tableRuns _).findSome? _ = none from htables]

/-- The fetch of such a COLLECTIVE leaves it with its block behind the descriptors in flight. -/
theorem admitColl_joined {s : State} {r : RingId} {blk : List Byte} (hok : FlightOk s) (hf : s.fetchable r = true)
    (hblk : s.devRead (blockAddr (s.headBytes r)) 128 = blk)
    (hread : s.readFault (ringCtx r) (blockAddr (s.headBytes r)) 128 = none)
    (hcheck : s.collCheck (ringCtx r) blk = none)
    (htables : (tableRuns blk).findSome? (fun x => s.badIn x.1 x.2) = none) :
    Joined s (takenWith s r blk) (admitColl (s.fetch r).2 (s.fetch r).1) := by
  have hjoined := fetch_joined hf
  have hblock := hjoined.jobRead (ringCtx r) none (blockAddr (s.headBytes r)) 128
  have htabled := hblock.jobReads (ringCtx r) (tableRuns blk)
  have hfault := readFault_congr s (s.fetch r).1 (fetch_jobMay s r) (hjoined.within.bad rfl) (ringCtx r)
    (blockAddr (s.headBytes r)) 128
  have hlen : (s.fetch r).2.bytes.length ≠ 192 := by
    show (s.headBytes r).length ≠ 192
    rw [headBytes_length]
    decide
  have hpass := hblock.collCheck hlen (fun n a k => hbmInRanges_fetch_jobRead s r (ringCtx r) n none _ _ a k) (ringCtx r) blk
  have hadmit := admitColl_passes (x := (s.fetch r).2) (n := ringCtx r) (a := blockAddr (s.headBytes r)) rfl rfl
    ((hjoined.sameChecks.devRead ..).trans hblk) (hfault.trans hread) (hpass.trans hcheck)
    (by simpa only [htabled.badIn] using htables)
  rw [hadmit]
  exact htabled.modDesc hok (fun y => { y with bytes := y.bytes ++ blk })

/-! ### The start of a collective -/

/-- The areas that a collective sums into: its own shard and its holding area (R241). -/
def sumRuns (b : List Byte) (table counts : List Nat) : List (Nat × Nat) :=
  (if bkOwns b && bkOp b != opEM then [(bkShard b, countOf b counts (bkOwnRank b) * bkUnit b * 8)] else []) ++
    (if bkOwns b then
      [(bkHold b, (bkP b + (table.filter (fun e => (entBackup e).isSome)).length) * slotBytes b counts)] else [])

/-- The scales that a collective sets. -/
def scaleRuns (b : List Byte) : List (Nat × Nat) :=
  if (bkOp b == opRS && !bkPlain b) || (bkOp b == opAG && bkGatherScale b) || bkOp b == opEM then
    [(bkScaleArr b (bkStep b + 1), bkUnits b)] else []

/-- The collective that a fetched descriptor opens. -/
def opening (seq : Nat) (x : Desc) (s : State) : Coll :=
  let b := x.bytes.drop 64
  { seq, ctx := ringCtx x.ring, block := b, table := s.rankTable b, counts := s.countTable b, map := s.permMap b
    start := s.now, guards := sumRuns b (s.rankTable b) (s.countTable b) ++ scaleRuns b, gatherFrom := s.now }

/-- Areas of a context written with zeros. -/
def State.zeroRuns (s : State) (n : CtxId) (runs : List (Nat × Nat)) : State :=
  runs.foldl (fun s r => s.collWrite n r.1 (List.replicate r.2 0)) s

/-- A collective that joins the open ones. -/
def State.joinColl (s : State) (c : Coll) : State := { s with colls := s.colls ++ [c] }

/-- The roles of a collective begin: its cycles, or its ARMs and the ranks that its gather serves. -/
def beginRoles (c : Coll) (s : State) : State :=
  if bkOp c.block = opPM then startPermute c.seq s
  else if bkOp c.block = opRS ∧ bkCopy c.block = true then s
  else serveIfGather c.seq (sendArms c s)

theorem startColl_opens {s : State} {seq : Nat} {x : Desc} (hx : s.desc seq = some x) (hlen : x.bytes.length = 192) :
    startColl seq s = beginRoles (opening seq x s)
      (((s.markStarted seq).zeroRuns (ringCtx x.ring)
        (sumRuns (x.bytes.drop 64) (s.rankTable (x.bytes.drop 64)) (s.countTable (x.bytes.drop 64)))).joinColl
          (opening seq x s)) := by
  unfold startColl
  rw [hx]
  exact if_neg (not_not_intro hlen)

theorem beginRoles_sameOpened (c : Coll) (s : State) : SameOpened s (beginRoles c s) :=
  .ite (startPermute_sameOpened ..) (.ite (.refl s) ((sendArms_sameOpened ..).trans (serveIfGather_sameOpened ..)))

theorem beginRoles_within (c : Coll) (s : State) :
    Within [.arms, .colls, .reports, .free, .mcs, .regs, .dies, .cores, .acct, .out, .hub, .bad, .mem, .hops] s
      (beginRoles c s) :=
  (Keeps.ite (startPermute_keeps rfl (Keeps.refl _ s)) (Keeps.ite (Keeps.refl _ s)
    (serveIfGather_keeps rfl (sendArms_keeps rfl (Keeps.refl _ s))))).rest

theorem zeroRuns_within (s : State) (n : CtxId) (runs : List (Nat × Nat)) :
    Within [.reports, .acct, .regs, .bad, .mem] s (s.zeroRuns n runs) :=
  (Keeps.foldl (Keeps.refl _ s) fun _ _ h => State.collWrite_keeps rfl h).rest

theorem takenWith_drop (s : State) (r : RingId) (blk : List Byte) : (takenWith s r blk).bytes.drop 64 = blk :=
  List.drop_left' (headBytes_length s r)

theorem takenWith_length (s : State) (r : RingId) {blk : List Byte} (h : blk.length = 128) :
    (takenWith s r blk).bytes.length = 192 := by
  show (s.headBytes r ++ blk).length = 192
  rw [List.length_append, headBytes_length, h]

/-- The collective that a fetched block opens holds the tables as they stood before the fetch. -/
theorem opening_block {s u : State} {r : RingId} {blk : List Byte} (h : Joined s (takenWith s r blk) u) :
    let c := opening s.nextSeq (takenWith s r blk) u
    c.block = blk ∧ c.table = s.rankTable blk ∧ c.counts = s.countTable blk ∧ c.map = s.permMap blk := by
  unfold opening
  rw [takenWith_drop]
  exact ⟨rfl, h.rankTable blk, h.countTable blk, h.permMap blk⟩

/-- What two collectives with one view hold alike. -/
theorem Coll.of_opened {z c : Coll} (h : z.opened = c.opened) : z.seq = c.seq ∧ z.ctx = c.ctx ∧ z.block = c.block ∧
    z.table = c.table ∧ z.counts = c.counts ∧ z.map = c.map ∧ z.start = c.start ∧ z.ownerDone = c.ownerDone := by
  unfold Coll.opened at h
  injection h with hseq hctx hblock htable hcounts hmap hstart
  exact ⟨hseq, hctx, hblock, htable, hcounts, hmap, hstart, ‹_›⟩

/-- A COLLECTIVE that holds its block opens with its tables, its descriptor started. -/
theorem startColl_settles {s u : State} {r : RingId} {blk : List Byte} (hok : FlightOk s)
    (h : Joined s (takenWith s r blk) u) (hblk : blk.length = 128) :
    let t := startColl s.nextSeq u
    t.desc s.nextSeq = some (fetched s r blk) ∧ t.nextSeq = s.nextSeq + 1 ∧
      ∃ z ∈ t.colls, z.seq = s.nextSeq ∧ z.ctx = ringCtx r ∧ z.block = blk ∧ z.table = s.rankTable blk ∧
        z.counts = s.countTable blk ∧ z.map = s.permMap blk ∧ z.start = s.now ∧ z.ownerDone = false := by
  have hstarted := h.modDesc hok (fun y => { y with st := .started, held := false, time := u.now })
  dsimp only
  rw [startColl_opens (h.desc hok) (takenWith_length s r hblk), takenWith_drop]
  generalize hc : opening s.nextSeq (takenWith s r blk) u = c
  generalize hz : (u.markStarted s.nextSeq).zeroRuns _ _ = zeroed
  have hzero : Within _ (u.markStarted s.nextSeq) zeroed := hz ▸ zeroRuns_within ..
  have hroles := beginRoles_within c (zeroed.joinColl c)
  refine ⟨?_, ?_, ?_⟩
  · rw [State.desc, hroles.descs rfl]
    show zeroed.descs.find? _ = _
    rw [hzero.descs rfl]
    refine (hstarted.desc hok).trans ?_
    rw [h.within.now rfl]
    rfl
  · rw [hroles.nextSeq rfl]
    show zeroed.nextSeq = _
    rw [hzero.nextSeq rfl]
    exact h.nextSeq
  · obtain ⟨z, hmem, hopened⟩ := SameColls.mem (beginRoles_sameOpened c (zeroed.joinColl c))
      (show c ∈ zeroed.colls ++ [c] from List.mem_append_right _ (List.mem_singleton_self c))
    obtain ⟨hseq, hctx, hblock, htable, hcounts, hmap, hstart, howner⟩ := Coll.of_opened hopened
    subst hc
    obtain ⟨hb, htb, hco, hma⟩ := opening_block h
    exact ⟨z, hmem, hseq, hctx, hblock.trans hb, htable.trans htb, hcounts.trans hco, hmap.trans hma,
      hstart.trans (h.within.now rfl), howner⟩

end Sys2Proof.Machine
end


section
/-! SUPPORT. The areas that a reduction sums into read zero once it has opened alone (R223, R241). -/

namespace Sys2Proof.Machine

/-! ### Areas written with zeros -/

theorem memRead_zeros_iff (d : Nat → Byte) (m : SMap Byte) (a n : Nat) :
    memRead d m a n = List.replicate n 0 ↔ ∀ j, a ≤ j → j < a + n → memByte d m j = 0 := by
  induction n generalizing a with
  | zero => exact ⟨fun _ j hle hlt => absurd hlt (by omega), fun _ => rfl⟩
  | succ n ih =>
    rw [memRead, List.replicate_succ, List.cons.injEq, ih]
    refine ⟨fun ⟨hfirst, hrest⟩ j hle hlt => ?_,
      fun h => ⟨h a (by omega) (by omega), fun j hle hlt => h j (by omega) (by omega)⟩⟩
    obtain rfl | hne := Nat.eq_or_lt_of_le hle
    · exact hfirst
    · exact hrest j (by omega) (by omega)

/-- A byte that reads zero reads zero after a write of zeros anywhere. -/
theorem memByte_memWrite_zeros {d : Nat → Byte} {m : SMap Byte} {j : Nat} (a k : Nat) (h : memByte d m j = 0) :
    memByte d (memWrite d m a (List.replicate k 0)) j = 0 := by
  by_cases hin : a ≤ j ∧ j < a + k
  · obtain ⟨i, rfl⟩ := Nat.exists_eq_add_of_le hin.1
    rw [memByte_memWrite d _ i (by simp; omega), List.getElem_replicate]
  · rw [memByte_memWrite_other d m _ (by simp; omega)]
    exact h

/-- On a module without uncorrectable codewords a write of a collective brings none. -/
theorem collWrite_bad {s : State} (n : CtxId) (a : Nat) (bs : List Byte) (h : s.bad = []) : (s.collWrite n a bs).bad = [] := by
  have hput : Within [.acct, .regs] ((s.devWrite a bs).clearBad a bs.length) (s.collWrite n a bs) := by
    unfold State.collWrite
    rw [State.badPartial_nil h]
    exact (State.chargeBytes_keeps rfl (State.countBytes_keeps rfl (Keeps.refl _ _))).rest
  rw [hput.bad rfl]
  show s.bad.filter _ = []
  rw [h]
  rfl

/-- A write of zeros by a collective keeps bytes that read zero. -/
theorem collWrite_zeros {s : State} (n : CtxId) {a k : Nat} (b l : Nat) (hbad : s.bad = [])
    (h : s.devRead a k = List.replicate k 0) :
    (s.collWrite n b (List.replicate l 0)).devRead a k = List.replicate k 0 := by
  have hw := collWrite_clean n (State.badPartial_nil hbad b (List.replicate l 0).length)
  rw [devRead_congr (hw.mem rfl) (hw.scrambled rfl)]
  exact (memRead_zeros_iff ..).2 fun j hle hlt =>
    memByte_memWrite_zeros b l ((memRead_zeros_iff ..).1 h j hle hlt)

/-- Areas written with zeros read zero, and so do those that did before. -/
theorem zeroRuns_devRead {s : State} (n : CtxId) (runs : List (Nat × Nat)) (hbad : s.bad = []) {a k : Nat}
    (h : (a, k) ∈ runs ∨ s.devRead a k = List.replicate k 0) :
    (s.zeroRuns n runs).devRead a k = List.replicate k 0 := by
  induction runs generalizing s with
  | nil => simpa [State.zeroRuns] using h
  | cons r runs ih =>
    refine ih (s := s.collWrite n r.1 (List.replicate r.2 0)) (collWrite_bad n _ _ hbad) ?_
    rw [List.mem_cons, or_assoc] at h
    obtain rfl | hrest | hzero := h
    · have hread := collWrite_devRead (s := s) n (a := a) (bs := List.replicate k 0) (State.badPartial_nil hbad ..)
      rw [List.length_replicate] at hread
      exact .inr hread
    · exact .inl hrest
    · exact .inr (collWrite_zeros n _ _ hbad hzero)

/-! ### ARMs while no gather serves -/

/-- No open collective serves the ranks that arm. -/
def State.idle (s : State) : Prop := ∀ z ∈ s.colls, z.serving = false

theorem Coll.serving_of_opened {z c : Coll} (h : z.opened = c.opened) : z.serving = c.serving := by
  obtain ⟨-, -, hblock, -, -, -, -, howner⟩ := Coll.of_opened h
  unfold Coll.serving
  rw [hblock, howner]

theorem SameOpened.idle {s t : State} (h : SameOpened s t) (hs : s.idle) : t.idle := by
  intro z hz
  have hmem : z.opened ∈ s.colls.map Coll.opened := h.same ▸ List.mem_map_of_mem hz
  obtain ⟨c, hc, heq⟩ := List.mem_map.1 hmem
  exact (Coll.serving_of_opened heq).symm.trans (hs c hc)

/-- An ARM that no gather waits for is recorded, and a sender may leave its rank out. -/
theorem armNote_idle {s : State} (hs : s.idle) (pkt : Packet) : Within [.colls, .arms] s (armNote pkt s) := by
  have hskip := fun a => (skipLate_keeps (a := a) (ps := [.colls, .arms]) rfl (Keeps.refl _ s)).rest
  unfold armNote
  extract_lets a same was skipped noted
  have hidle : skipped.idle := SameOpened.idle (skipLate_sameOpened s a) hs
  have hnone : noted.colls.filter (fun c => c.serving && c.isOf a.group a.bucket a.step && !c.served.contains a.rank) = [] :=
    List.filter_eq_nil_iff.2 fun z hz => by simp [hidle z hz]
  rw [hnone]
  exact (hskip a).trans (show Within _ skipped noted from rfl)

/-- From `s` to `t` ARMs went out or were recorded, and no open collective serves. -/
structure Armed (s t : State) : Prop where
  idle : t.idle
  within : Within [.colls, .arms, .acct, .regs, .out, .hub] s t

theorem Armed.tell {s t : State} (h : Armed s t) (pkt : Packet) : Armed s (t.tell armNote pkt) := by
  refine ⟨SameOpened.idle (SameColls.tell pkt fun v => armNote_sameOpened v pkt) h.idle, h.within.trans ?_⟩
  unfold State.tell
  split
  · exact (armNote_idle h.idle pkt).mono rfl
  · exact (State.sendPacket_keeps rfl (Keeps.refl _ t)).rest

theorem sendArms_armed {s : State} (hs : s.idle) (c : Coll) : Armed s (sendArms c s) := by
  unfold sendArms
  refine List.foldlRecOn _ _ (motive := Armed s) ⟨hs, Within.refl _ s⟩ fun t ht r _ => ?_
  split
  · exact ht
  · exact ht.tell _

theorem serveIfGather_idle {s : State} (hs : s.idle) (seq : Nat) : serveIfGather seq s = s := by
  unfold serveIfGather
  split
  next c hc => rw [hs c (List.mem_of_find?_eq_some hc), if_neg (by decide)]
  next => rfl

/-- A reduction that opens alone leaves the memory as it is once its areas are zero. -/
theorem beginRoles_reduce {c : Coll} {s : State} (hop : bkOp c.block = opRS) (hcopy : bkCopy c.block = false) (hs : s.idle) :
    Within [.colls, .arms, .acct, .regs, .out, .hub] s (beginRoles c s) := by
  have harmed := sendArms_armed hs c
  unfold beginRoles
  rw [if_neg (by rw [hop]; decide), if_neg (by rw [hcopy]; exact fun h => Bool.false_ne_true h.2),
    serveIfGather_idle harmed.idle]
  exact harmed.within

/-- A reduction sums into its own shard and into its holding area. -/
theorem sumRuns_reduce {b : List Byte} (hop : bkOp b = opRS) (hcopy : bkCopy b = false) (table counts : List Nat) :
    sumRuns b table counts = [(bkShard b, countOf b counts (bkOwnRank b) * bkUnit b * 8),
      (bkHold b, (bkP b + (table.filter (fun e => (entBackup e).isSome)).length) * slotBytes b counts)] := by
  have howns : bkOwns b = true := by simp [bkOwns, hop, hcopy]
  unfold sumRuns
  rw [howns, hop]
  rfl

theorem serving_opening {q : Nat} {x : Desc} {s : State} (hop : bkOp (opening q x s).block = opRS) :
    (opening q x s).serving = false := by
  have hgather : bkGathers (opening q x s).block = false := by
    unfold bkGathers
    rw [hop]
    rfl
  unfold Coll.serving
  rw [hop, hgather]
  rfl

/-- A REDUCE_SCATTER that opens alone leaves the areas that it sums into zero. -/
theorem startColl_zeros {s u : State} {r : RingId} {blk : List Byte} (hok : FlightOk s) (h : Joined s (takenWith s r blk) u)
    (hblk : blk.length = 128) (hcolls : s.colls = []) (hbad : s.bad = []) (hop : bkOp blk = opRS) (hcopy : bkCopy blk = false)
    {a k : Nat} (hrun : (a, k) ∈ sumRuns blk (s.rankTable blk) (s.countTable blk)) :
    (startColl s.nextSeq u).devRead a k = List.replicate k 0 := by
  obtain ⟨hb, -, -, -⟩ := opening_block h
  rw [startColl_opens (h.desc hok) (takenWith_length s r hblk), takenWith_drop, h.rankTable, h.countTable]
  generalize hruns : sumRuns blk (s.rankTable blk) (s.countTable blk) = runs at hrun ⊢
  have hzero := zeroRuns_within (u.markStarted s.nextSeq) (ringCtx r) runs
  have hread := zeroRuns_devRead (s := u.markStarted s.nextSeq) (ringCtx r) runs ((h.within.bad rfl).trans hbad)
    (.inl hrun)
  have hidle : (((u.markStarted s.nextSeq).zeroRuns (ringCtx r) runs).joinColl
      (opening s.nextSeq (takenWith s r blk) u)).idle := by
    intro z hz
    have hnone : ((u.markStarted s.nextSeq).zeroRuns (ringCtx r) runs).colls = [] :=
      (hzero.colls rfl).trans ((h.within.colls rfl).trans hcolls)
    rw [State.joinColl, hnone, List.nil_append, List.mem_singleton] at hz
    rw [hz]
    exact serving_opening (hb.symm ▸ hop)
  have hroles := beginRoles_reduce (hb.symm ▸ hop) (hb.symm ▸ hcopy) hidle
  exact (devRead_congr (hroles.mem rfl) (hroles.scrambled rfl) a k).trans hread

end Sys2Proof.Machine
end

section
/-! PROOFS. CollectivesStart. -/

namespace Sys2Proof.Machine

/-- A COLLECTIVE whose checks pass at its fetch starts with its block. -/
theorem fetchColl_starts {s : State} {r : RingId} {ok : List Byte → Bool} {blk : List Byte} (h : Fetches s r 0x0D)
    (hok : ok (s.headBytes r) = true) (hblk : s.devRead (blockAddr (s.headBytes r)) 128 = blk)
    (hread : s.readFault (ringCtx r) (blockAddr (s.headBytes r)) 128 = none) (hcheck : s.collCheck (ringCtx r) blk = none)
    (htables : (tableRuns blk).findSome? (fun x => s.badIn x.1 x.2) = none) :
    ∃ u, Joined s (takenWith s r blk) u ∧ fetchThen r ok noCheck admitColl startColl s = startColl s.nextSeq u := by
  obtain ⟨hflight, hf, -, hout, hcommon, hfence⟩ := h
  have hjoined := admitColl_joined hflight hf hblk hread hcheck htables
  have hopen : (admitColl (s.fetch r).2 (s.fetch r).1).isDone s.nextSeq = false := by
    rw [State.isDone, hjoined.desc hflight]
    rfl
  have hfree : (admitColl (s.fetch r).2 (s.fetch r).1).fenceHeld (s.fetch r).2 = false := by
    rw [hjoined.fenceHeld rfl, ← (fetch_joined hf).fenceHeld rfl, fenceHeld_fetch s r hflight]
    exact hfence
  refine ⟨_, hjoined, ?_⟩
  rw [fetchThen_pass s r ok noCheck admitColl startColl hf hok hout hcommon rfl]
  simp only [hopen, hfree, Bool.false_eq_true, if_false]

/-- Each of the five commands fetches a COLLECTIVE of its OP. -/
theorem exec_collective {s : State} {r : RingId} {c : Instr} (hty : leAt (s.headBytes r) 0 1 = 0x0D)
    (hc : (c, s.slotOp (s.headBytes r)) ∈ [(Instr.reduceScatter r, opRS), (.allGather r, opAG), (.allReduce r, opAR),
      (.exponentMax r, opEM), (.permute r, opPM)]) :
    ∃ ok : List Byte → Bool, ok (s.headBytes r) = true ∧
      exec c s = .next (fetchThen r ok noCheck admitColl startColl s) := by
  have htype : tyIs 0x0D (s.headBytes r) = true := by simp [tyIs, hty]
  simp only [List.mem_cons, Prod.mk.injEq, List.not_mem_nil, or_false] at hc
  obtain ⟨rfl, hop⟩ | ⟨rfl, hop⟩ | ⟨rfl, hop⟩ | ⟨rfl, hop⟩ | ⟨rfl, hop⟩ := hc
  all_goals exact ⟨_, by rw [htype, hop]; decide, rfl⟩

end Sys2Proof.Machine

namespace Sys2Proof

open Machine

/-- Settles O58: the fetch takes the block in behind those in flight, the start opens it with its tables, which its roles
keep, and a reduction alone on the module writes nothing over its zeros. -/
theorem collectivesStart : Obligations.CollectivesStart := by
  unfold Obligations.CollectivesStart
  intro s r c h hc n a blk hread hcheck htables
  obtain ⟨hok, -, hty, -⟩ := id h
  obtain ⟨ok, hpass, hexec⟩ := exec_collective hty hc
  obtain ⟨u, hjoined, hstart⟩ := fetchColl_starts h hpass rfl hread hcheck htables
  have hblk : blk.length = 128 := memRead_length ..
  obtain ⟨hdesc, hnext, hopens⟩ := startColl_settles hok hjoined hblk
  refine ⟨_, hexec.trans (congrArg _ hstart), hdesc, hnext, hopens, fun hcolls hbad hop hcopy => ?_⟩
  have hzeros {a k : Nat} := startColl_zeros (a := a) (k := k) hok hjoined hblk hcolls hbad hop hcopy
  rw [sumRuns_reduce hop hcopy] at hzeros
  exact ⟨hzeros List.mem_cons_self, hzeros (List.mem_cons_of_mem _ (List.mem_singleton_self _))⟩

end Sys2Proof
end

section
/-! SUPPORT. The delivery of a media sample counts in MED_SAMPLES, which has 64 bits (Table 13 of *The media engine*). -/

namespace Sys2Proof.Machine

theorem uncounted_medSamples (d : Nat) : Uncounted .medSamples d 0 0 := by
  intro e k
  simp only [RegId.off, RegId.row]
  simp
  omega

theorem untraced_medSamples (d : Nat) : Untraced .medSamples d 0 0 :=
  untraced_die rfl (by decide) (by decide) (by decide) (uncounted_medSamples d)

/-- Another media counter of any die is at another offset. -/
theorem bumpIf_medSamples (s : State) {c : RegId} (hc : c ∈ [RegId.medConcealed, .medHdrRefused, .medLate]) (b : Bool)
    (d k : Nat) : (if b then s.bump c d 0 k else s).reg .medSamples d 0 0 = s.reg .medSamples d 0 0 := by
  refine State.ite_reg (State.setReg_other _ _ ?_) rfl
  simp only [List.mem_cons, List.not_mem_nil, or_false] at hc
  obtain rfl | rfl | rfl := hc <;>
  · refine off_ne_dies rfl rfl ?_ ?_ ?_ _ _ <;> decide

/-- R263, R265: a delivered sample adds 1 to the 64 bits of MED_SAMPLES. -/
theorem sampleDeliver_medSamples {s : State} {d : Die} {h : Fin 256} {m : Sample} {n : CtxId}
    (hfits : s.sem n (bits (sbFullSem (s.stream d h).block) 10 8) (bits (sbFullSem (s.stream d h).block) 7 0) + 1 < 2 ^ 32) :
    (sampleDeliver d h m n s).reg .medSamples d.val 0 0 = s.reg .medSamples d.val 0 0 + 1 := by
  unfold sampleDeliver
  dsimp only
  rw [State.semAdd_fits hfits]
  dsimp only
  rw [State.complete_reg _ _ _ _ (NotPending.die rfl _ _ _) (uncounted_medSamples _),
    State.traceRec_reg _ _ _ _ _ _ (untraced_medSamples _), bumpIf_medSamples _ (by decide),
    bumpIf_medSamples _ (by decide), bumpIf_medSamples _ (by decide), State.bump_wide _ _ _ _ _ rfl]
  rfl

/-- A deliverable sample is delivered. -/
theorem exec_sampleDeliver {s : State} {d : Die} {h : Fin 256} {m : Sample} {n : CtxId}
    (hm : s.deliverable d h = some (m, n)) : exec (.sampleDeliver d h) s = .next (sampleDeliver d h m n s) := by
  show execSampleDeliver d h s = _
  unfold execSampleDeliver
  rw [hm]

/-- A sample of the MEDIA_SUBMIT 7, decoded on time in slot 0. -/
def decodedSample : Sample :=
  { seq := 7, sample := 0, src := 0, len := 64, capture := 0, ovr := none, last := false, epoch := 0, st := .decoded }

/-- A powered module whose die 0 has delivered 2^32 − 1 samples, with `decodedSample` next on its stream 0, of context 1. -/
def fullCountState : State :=
  let s := { State.reset with
    boot := { powered := true, stage := 10, linkUp := true, cfgReady := true, modPwrgd := true }
    dies := (List.range 8).map (fun d => (d, { railOn := true }))
    descs := [{ seq := 7, ring := 4, slot := 0, ty := 0x08, bytes := [], st := .started }], nextSeq := 8 }
  (((s.setFn (.media 0) { st := .on, en := true }).setFn (.stream 0 0) { st := .on, en := true }).modStream 0 0 (fun x =>
    { x with owner := some 1, queue := [decodedSample] })).setReg .medSamples (0 : Die).val 0 0 0xFFFFFFFF

theorem deliverable_fullCount : fullCountState.deliverable 0 0 = some (decodedSample, 1) := by decide +kernel

theorem fullSem_fullCount :
    fullCountState.sem 1 (bits (sbFullSem (fullCountState.stream 0 0).block) 10 8)
      (bits (sbFullSem (fullCountState.stream 0 0).block) 7 0) + 1 < 2 ^ 32 := by decide +kernel

end Sys2Proof.Machine
end

section
/-! PROOFS. MediaSamples. -/

namespace Sys2Proof

open Machine

/-- Refutes O39: MED_SAMPLES has 64 bits, so the sample delivered after 2^32 − 1 others takes it to 2^32, where the
statement has it wrap to 0. -/
theorem not_mediaSamples : ¬ Obligations.MediaSamples := by
  unfold Obligations.MediaSamples
  rintro ⟨-, -, -, hdeliver⟩
  obtain ⟨t, ht, -, -, -, hcount⟩ := hdeliver fullCountState 0 0 decodedSample 1 deliverable_fullCount fullSem_fullCount
  obtain rfl : sampleDeliver 0 0 decodedSample 1 fullCountState = t :=
    Host.Outcome.next.inj ((exec_sampleDeliver deliverable_fullCount).symm.trans ht)
  have hfull : fullCountState.reg .medSamples (0 : Die).val 0 0 = 0xFFFFFFFF := State.setReg_self ..
  rw [sampleDeliver_medSamples fullSem_fullCount, hfull] at hcount
  exact absurd hcount (by decide)

end Sys2Proof
end

section
/-! SUPPORT. A fetched descriptor on its way to its start: what passes its checks starts, and what only counts or joins
stays framed (R328 to R333). -/

namespace Sys2Proof.Machine

/-- A fetched descriptor that its fetch has joined and not ended starts. -/
theorem fetches_starts {s : State} {r : RingId} {ty : Nat} (h : Fetches s r ty) {x : Desc}
    {atFetch : Desc → State → State} (start : Nat → State → State)
    (hx : Joined s x (atFetch (s.fetch r).2 (s.fetch r).1)) (hst : x.st = .waiting) :
    fetchThen r (tyIs ty) noCheck atFetch start s = start s.nextSeq (atFetch (s.fetch r).2 (s.fetch r).1) := by
  obtain ⟨hflight, hf, hty, hout, hcommon, hfence⟩ := h
  have hopen : (atFetch (s.fetch r).2 (s.fetch r).1).isDone s.nextSeq = false := by
    rw [State.isDone, hx.desc hflight]
    exact decide_eq_false (by rw [hst]; decide)
  have hfree : (atFetch (s.fetch r).2 (s.fetch r).1).fenceHeld (s.fetch r).2 = false := by
    rw [hx.fenceHeld rfl, ← (fetch_joined hf).fenceHeld rfl, fenceHeld_fetch s r hflight]
    exact hfence
  rw [fetchThen_pass s r _ _ _ _ hf (by simp [tyIs, hty]) hout hcommon rfl]
  simp only [hopen, hfree, Bool.false_eq_true, if_false]

section
variable {s t : State} {x : Desc} (h : Joined s x t)

include h

theorem Joined.streams : t.streams = s.streams := h.within.streams rfl

theorem Joined.fn (f : FuncId) : t.fn f = s.fn f := State.fn_congr (h.within.fns rfl) f

theorem Joined.stream (d : Die) (k : Fin 256) : t.stream d k = s.stream d k := State.stream_congr h.streams d k

/-- A descriptor starts, behind those in flight. -/
theorem Joined.markStarted (hok : FlightOk s) :
    Joined s { x with st := .started, held := false, time := s.now } (t.markStarted s.nextSeq) := by
  rw [← h.within.now rfl]
  exact h.modDesc hok (fun y => { y with st := .started, held := false, time := t.now })

/-- What a step changes of a state in which the descriptor has joined, it changes beside the ring's place, the arbiter
and the counts of what was read. -/
theorem Joined.settles {u : State} {qs : List Part} (k : Within qs t u)
    (hl : Parts.le [.regs, .rings, .descs, .nextSeq, .arb] qs = true) : Within qs (Tallies.tallied s t) u :=
  (Within.mono (show Within [.regs, .rings, .descs, .nextSeq, .arb] (Tallies.tallied s t) t from h.within) hl).trans k

end

/-! ### Fields of a slot -/

/-- A field that lies in the slot is the same with what the fetch read beyond it. -/
theorem leAt_append {bs : List Byte} {off n : Nat} (h : off + n ≤ bs.length) (more : List Byte) :
    leAt (bs ++ more) off n = leAt bs off n := by
  unfold leAt slice
  rw [List.drop_append_of_le_length (by omega), List.take_append_of_le_length (by rw [List.length_drop]; omega)]

theorem takenWith_handle (s : State) (r : RingId) (blk : List Byte) :
    leAt (takenWith s r blk).bytes 2 2 = leAt (s.headBytes r) 2 2 :=
  leAt_append (by rw [headBytes_length]; decide) blk

/-! ### The context that a handle names, R255, R284 -/

/-- Where a handle leads rests on the functions and the handles that the streams serve. -/
theorem mediaRoute_congr {s t : State} (hf : t.fns = s.fns)
    (hs : ∀ d h, (t.stream d h).moved = (s.stream d h).moved ∧ (t.stream d h).handle = (s.stream d h).handle) (x : Nat) :
    t.mediaRoute x = s.mediaRoute x := by
  have hm : ∀ d h, (t.stream d h).moved = (s.stream d h).moved := fun d h => (hs d h).1
  have hh : ∀ d h, (t.stream d h).handle = (s.stream d h).handle := fun d h => (hs d h).2
  unfold State.mediaRoute State.movedTo State.homeTaken State.fnIs
  simp only [hm, hh, State.fn_congr hf]

section
variable {s t : State} {x : Desc} (h : Joined s x t)

include h

theorem Joined.mediaRoute (q : Nat) : t.mediaRoute q = s.mediaRoute q :=
  mediaRoute_congr (h.within.fns rfl) (fun d k => by rw [h.stream]; exact ⟨rfl, rfl⟩) q

theorem Joined.homeTaken (q : Nat) : t.homeTaken q = s.homeTaken q := by
  unfold State.homeTaken
  rw [h.stream]

theorem Joined.mediaWaits (q : Nat) : t.mediaWaits q = s.mediaWaits q := by
  unfold State.mediaWaits State.fnIs
  simp only [h.mediaRoute, h.homeTaken, h.fn]

end

end Sys2Proof.Machine
end

section
/-! SUPPORT. MEDIA_OPEN at its fetch and its start, of a stream context that is OFF (R255 to R259). -/

namespace Sys2Proof.Machine

/-! ### Checks that all pass -/

theorem failIf_eq_none {α : Type} {b : Bool} {c : α} : failIf b c = none ↔ b = false := by
  unfold failIf
  cases b <;> simp

theorem eq_none_of_firstSome {α : Type} {l : List (Option α)} (h : firstSome l = none) : ∀ x ∈ l, x = none := by
  induction l with
  | nil => exact fun x hx => absurd hx List.not_mem_nil
  | cons a l ih =>
    cases a with
    | some a => cases h
    | none => exact List.forall_mem_cons.2 ⟨rfl, ih h⟩

/-- A read that counts leaves what jobs may access. -/
theorem jobRead_jobMay (s : State) (m : CtxId) (src : Option Die) (b k : Nat) (n : CtxId) (a len : Nat) :
    (s.jobRead m src b k).jobMay n a len = s.jobMay n a len := by
  have hcounted := jobRead_counted s m src b k
  refine jobMay_congr s _ (fun n j hj => hcounted.hubReg ?_) (fun n => hcounted.hubReg ?_)
    (State.jobRead_regionMap ..) n a len <;>
  · have hn := n.isLt
    simp only [RegId.off, RegId.row, Bool.false_eq_true, if_false]
    omega

theorem openCheck_congr {s t : State} (h : ∀ n a len, t.jobMay n a len = s.jobMay n a len) (n : CtxId) (b p : List Byte) :
    t.openCheck n b p = s.openCheck n b p := by
  unfold State.openCheck State.openAreas State.hbmArea
  simp only [h]

/-- Check 0x0305 of R258 covers the parameter block. -/
theorem openCheck_param {s : State} {n : CtxId} {b p : List Byte} (h : s.openCheck n b p = none) :
    s.jobMay n (sbParam b) 1024 = true := by
  have hareas := failIf_eq_none.1 (eq_none_of_firstSome h (failIf (s.openAreas n b) 0x0305) (by simp))
  unfold State.openAreas at hareas
  simp only [Bool.or_eq_false_iff, Bool.not_eq_false'] at hareas
  obtain ⟨⟨⟨-, hparam⟩, -⟩, -⟩ := hareas
  exact hparam

/-! ### The fetch -/

/-- A MEDIA_OPEN whose blocks may be read and pass takes them in. -/
theorem admitOpen_passes {x : Desc} {s : State} {n : CtxId} {a : Nat} {b p : List Byte} (hn : ringCtx x.ring = n)
    (ha : leAt x.bytes 0x08 8 = a) (hb : s.devRead a 128 = b) (hread : s.readFault n a 128 = none) :
    let u := s.jobRead n none a 128
    let v := u.jobRead n none (sbParam b) 1024
    u.jobMay n (sbParam b) 1024 = true → u.devRead (sbParam b) 1024 = p → v.openCheck n b p = none →
      v.badIn (sbParam b) 1024 = none →
      admitOpen x s = v.modDesc x.seq (fun y => { y with bytes := y.bytes ++ b ++ p }) := by
  subst hn ha hb
  intro u v hmay hp hcheck hbad
  subst hp
  unfold admitOpen
  simp only [hread]
  simp only [show State.jobMay (s.jobRead _ none _ 128) _ _ 1024 = true from hmay, if_true]
  rw [show State.openCheck _ _ _ _ = none from hcheck]
  dsimp only
  rw [show State.badIn _ _ 1024 = none from hbad]

/-- The fetch of such a MEDIA_OPEN leaves it with its blocks behind the descriptors in flight. -/
theorem admitOpen_joined {s : State} {r : RingId} {blk par : List Byte} (hok : FlightOk s) (hf : s.fetchable r = true)
    (hblk : s.devRead (leAt (s.headBytes r) 8 8) 128 = blk) (hpar : s.devRead (sbParam blk) 1024 = par)
    (hread : s.readFault (ringCtx r) (leAt (s.headBytes r) 8 8) 128 = none)
    (hcheck : s.openCheck (ringCtx r) blk par = none) (hbad : s.badIn (sbParam blk) 1024 = none) :
    Joined s (takenWith s r (blk ++ par)) (admitOpen (s.fetch r).2 (s.fetch r).1) := by
  have hjoined := fetch_joined hf
  have hblock := hjoined.jobRead (ringCtx r) none (leAt (s.headBytes r) 8 8) 128
  have hboth := hblock.jobRead (ringCtx r) none (sbParam blk) 1024
  have hmay : ∀ n a len, ((s.fetch r).1.jobRead (ringCtx r) none (leAt (s.headBytes r) 8 8) 128).jobMay n a len =
      s.jobMay n a len := fun n a len => (jobRead_jobMay ..).trans (fetch_jobMay s r n a len)
  have hfault := readFault_congr s (s.fetch r).1 (fetch_jobMay s r) (hjoined.within.bad rfl) (ringCtx r)
    (leAt (s.headBytes r) 8 8) 128
  have hpass := openCheck_congr (fun n a len => (jobRead_jobMay _ (ringCtx r) none (sbParam blk) 1024 n a len).trans
    (hmay n a len)) (ringCtx r) blk par
  rw [admitOpen_passes (x := (s.fetch r).2) (n := ringCtx r) (a := leAt (s.headBytes r) 8 8) (b := blk) (p := par) rfl rfl
    ((hjoined.sameChecks.devRead ..).trans hblk) (hfault.trans hread) ((hmay ..).trans (openCheck_param hcheck))
    ((hblock.sameChecks.devRead ..).trans hpar) (hpass.trans hcheck) ((hboth.badIn ..).trans hbad)]
  unfold takenWith
  rw [← List.append_assoc]
  exact hboth.modDesc hok (fun y => { y with bytes := y.bytes ++ blk ++ par })

/-! ### The start -/

/-- Bytes in the middle of a list. -/
theorem slice_append_append (a b c : List Byte) : slice (a ++ (b ++ c)) a.length b.length = b := by
  unfold slice
  simp

theorem takenWith_openBlock (s : State) (r : RingId) {blk par : List Byte} (hblk : blk.length = 128) :
    (takenWith s r (blk ++ par)).openBlock = blk := by
  have h := slice_append_append (s.headBytes r) blk par
  rwa [headBytes_length, hblk] at h

theorem takenWith_openParam (s : State) (r : RingId) {blk par : List Byte} (hblk : blk.length = 128)
    (hpar : par.length = 1024) : (takenWith s r (blk ++ par)).openParam = par := by
  have h := slice_append_append (s.headBytes r ++ blk) par []
  rwa [List.length_append, headBytes_length, hblk, hpar, List.append_nil, List.append_assoc] at h

/-- A MEDIA_OPEN with its blocks opens the context that it names, which is OFF, when its engine is OFF or ON. -/
theorem startOpen_opens {s : State} {q : Nat} {x : Desc} {d : Die} {h : Fin 256} (hx : s.desc q = some x)
    (hlen : x.bytes.length = 1216) (hwaits : s.mediaWaits (leAt x.bytes 2 2) = false)
    (hhome : s.homeTaken (leAt x.bytes 2 2) = false) (hroute : s.mediaRoute (leAt x.bytes 2 2) = some (d, h))
    (hoff : (s.fn (.stream d h)).st = .off) : startOpen q s = openOn d h false x (s.markStarted q) := by
  have hhome' : (s.markStarted q).homeTaken (leAt x.bytes 2 2) = false := hhome
  have hroute' : (s.markStarted q).mediaRoute (leAt x.bytes 2 2) = some (d, h) := hroute
  have hoff' : ((s.markStarted q).fn (.stream d h)).st = .off := hoff
  unfold startOpen
  simp only [hx, hlen, hwaits, hhome', hroute', hoff', ne_eq, not_true, Bool.false_and, Bool.false_eq_true, if_false]

theorem openOn_within (d : Die) (h : Fin 256) (moved : Bool) (x : Desc) (s : State) :
    Within [.fns, .streams] s (openOn d h moved x s) := (openOn_keeps rfl (Keeps.refl _ s)).rest

theorem openOn_stream_other {d e : Die} {h k : Fin 256} {moved : Bool} {x : Desc} {s : State} (hne : (e, k) ≠ (d, h)) :
    (openOn d h moved x s).stream e k = s.stream e k := State.modStream_other _ _ hne

theorem openOn_stream (d : Die) (h : Fin 256) (moved : Bool) (x : Desc) (s : State) :
    (openOn d h moved x s).stream d h =
      freshStream { s.stream d h with handle := if moved then leAt x.bytes 2 2 else 0, moved } (ringCtx x.ring)
        x.openBlock x.openParam x.seq := State.modStream_self ..

theorem openOn_fn (d : Die) (h : Fin 256) (moved : Bool) (x : Desc) (s : State) :
    (openOn d h moved x s).fn (.stream d h) = (s.fn (.stream d h)).enable := State.setFn_self ..

theorem Fn.enable_off {f : Fn} (h : f.st = .off) : f.enable.st = .starting := by
  unfold Fn.enable
  rw [h]

end Sys2Proof.Machine
end

section
/-! SUPPORT. MEDIA_OPEN of a stream context that is OFF, from its fetch to the open stream (R255 to R259). -/

namespace Sys2Proof.Machine

/-- A MEDIA_OPEN that passes its checks opens its stream context, which is OFF, with the fetched blocks. -/
theorem mediaOpen_settles {s : State} {r : RingId} {d : Die} {h : Fin 256} {blk par : List Byte} (hfetch : Fetches s r 0x09)
    (hroute : s.mediaRoute (leAt (s.headBytes r) 2 2) = some (d, h))
    (hblk : s.devRead (leAt (s.headBytes r) 8 8) 128 = blk) (hpar : s.devRead (sbParam blk) 1024 = par)
    (hread : s.readFault (ringCtx r) (leAt (s.headBytes r) 8 8) 128 = none)
    (hcheck : s.openCheck (ringCtx r) blk par = none) (hbad : s.badIn (sbParam blk) 1024 = none)
    (hwaits : s.mediaWaits (leAt (s.headBytes r) 2 2) = false) (hhome : s.homeTaken (leAt (s.headBytes r) 2 2) = false)
    (hoff : (s.fn (.stream d h)).st = .off) :
    ∃ u t, Counted s u ∧ exec (.mediaOpen r) s = .next t ∧ t.fn (.stream d h) = (s.fn (.stream d h)).enable ∧
      (t.fn (.stream d h)).st = .starting ∧ (t.stream d h).owner = some (ringCtx r) ∧ (t.stream d h).block = blk ∧
      (t.stream d h).param = par ∧ (t.stream d h).openSeq = some s.nextSeq ∧
      t.desc s.nextSeq = some (fetched s r (blk ++ par)) ∧ (∀ e k, (e, k) ≠ (d, h) → t.stream e k = s.stream e k) ∧
      t = { u with regs := t.regs, fns := t.fns, rings := t.rings, descs := t.descs, nextSeq := s.nextSeq + 1
                   arb := t.arb, streams := t.streams } := by
  obtain ⟨hok, hf, -⟩ := id hfetch
  have hjoined := admitOpen_joined hok hf hblk hpar hread hcheck hbad
  have hexec := fetches_starts hfetch startOpen hjoined rfl
  generalize admitOpen (s.fetch r).2 (s.fetch r).1 = v at hjoined hexec
  have hlblk : blk.length = 128 := hblk ▸ memRead_length ..
  have hlpar : par.length = 1024 := hpar ▸ memRead_length ..
  have hhandle := takenWith_handle s r (blk ++ par)
  have hlen : (takenWith s r (blk ++ par)).bytes.length = 1216 := by
    show (s.headBytes r ++ (blk ++ par)).length = 1216
    rw [List.length_append, List.length_append, headBytes_length, hlblk, hlpar]
  rw [startOpen_opens (hjoined.desc hok) hlen (by rwa [hjoined.mediaWaits, hhandle])
    (by rwa [hjoined.homeTaken, hhandle]) (by rwa [hjoined.mediaRoute, hhandle]) (by rwa [hjoined.fn])] at hexec
  have hstarted := hjoined.markStarted hok
  generalize v.markStarted s.nextSeq = w at hstarted hexec
  have hopens := openOn_within d h false (takenWith s r (blk ++ par)) w
  have hfn := (openOn_fn d h false (takenWith s r (blk ++ par)) w).trans (congrArg Fn.enable (hstarted.fn _))
  have hstream := openOn_stream d h false (takenWith s r (blk ++ par)) w
  rw [takenWith_openBlock s r hlblk, takenWith_openParam s r hlblk hlpar] at hstream
  refine ⟨_, _, hstarted.tallies.counted, congrArg Host.Outcome.next hexec, hfn,
    (congrArg Fn.st hfn).trans (Fn.enable_off hoff), congrArg Stream.owner hstream, congrArg Stream.block hstream,
    congrArg Stream.param hstream, congrArg Stream.openSeq hstream, ?_,
    fun e k hne => (openOn_stream_other hne).trans (hstarted.stream e k), ?_⟩
  · rw [State.desc, hopens.descs rfl]
    exact hstarted.desc hok
  · rw [← hstarted.nextSeq, ← hopens.nextSeq rfl]
    exact hstarted.settles (qs := [.regs, .fns, .rings, .descs, .nextSeq, .arb, .streams]) (hopens.mono rfl) rfl

end Sys2Proof.Machine
end

section
/-! SUPPORT. MEDIA_CLOSE, of a stream that is not OFF and of one that is (R259, R260). -/

namespace Sys2Proof.Machine

/-- A MEDIA_CLOSE by the owner of a stream that is not OFF, with no restart waiting, disables it. -/
def closing (seq : Nat) (d : Die) (h : Fin 256) (s : State) : State :=
  (s.setFn (.stream d h) (s.fn (.stream d h)).disable).modStream d h (fun y => { y with closeSeqs := y.closeSeqs ++ [seq] })

theorem startClose_disables {s : State} {q : Nat} {x : Desc} {d : Die} {h : Fin 256} (hx : s.desc q = some x)
    (hroute : s.mediaRoute (leAt x.bytes 2 2) = some (d, h)) (hopen : (s.fn (.stream d h)).st ≠ .off)
    (howner : (s.stream d h).owner = some (ringCtx x.ring)) (hpending : (s.fn (.stream d h)).pendingOn = false) :
    startClose q s = closing q d h (s.markStarted q) := by
  have hroute' : (s.markStarted q).mediaRoute (leAt x.bytes 2 2) = some (d, h) := hroute
  have howner' : ((s.markStarted q).stream d h).owner = some (ringCtx x.ring) := howner
  have hfn : (s.markStarted q).fn (.stream d h) = s.fn (.stream d h) := rfl
  unfold startClose closing
  simp only [hx, hroute', howner', hfn, hopen, hpending, ne_eq, not_true, if_false]

theorem startClose_off {s : State} {q : Nat} {x : Desc} {d : Die} {h : Fin 256} (hx : s.desc q = some x)
    (hroute : s.mediaRoute (leAt x.bytes 2 2) = some (d, h)) (hoff : (s.fn (.stream d h)).st = .off) :
    startClose q s = (s.markStarted q).complete q stOk 0 := by
  have hroute' : (s.markStarted q).mediaRoute (leAt x.bytes 2 2) = some (d, h) := hroute
  have hoff' : ((s.markStarted q).fn (.stream d h)).st = .off := hoff
  unfold startClose
  simp only [hx, hroute', hoff', if_true]

theorem closing_within (q : Nat) (d : Die) (h : Fin 256) (s : State) : Within [.fns, .streams] s (closing q d h s) := rfl

theorem State.complete_streams (s : State) (q : Nat) (st : Byte) (dt : W16) : (s.complete q st dt).streams = s.streams :=
  (State.complete_keeps (ps := Parts.any.erase .streams) rfl (Keeps.refl _ s)).rest.streams rfl

/-- A MEDIA_CLOSE of a stream that is not OFF disables it, and waits for its end. -/
theorem mediaClose_settles {s : State} {r : RingId} {d : Die} {h : Fin 256} (hfetch : Fetches s r 0x0A)
    (hroute : s.mediaRoute (leAt (s.headBytes r) 2 2) = some (d, h)) (hopen : (s.fn (.stream d h)).st ≠ .off)
    (howner : (s.stream d h).owner = some (ringCtx r)) (hpending : (s.fn (.stream d h)).pendingOn = false) :
    ∃ u t, Counted s u ∧ exec (.mediaClose r) s = .next t ∧ t.fn (.stream d h) = (s.fn (.stream d h)).disable ∧
      (t.stream d h).closeSeqs = (s.stream d h).closeSeqs ++ [s.nextSeq] ∧
      t.desc s.nextSeq = some (fetched s r []) ∧ (∀ e k, (e, k) ≠ (d, h) → t.stream e k = s.stream e k) ∧
      t = { u with regs := t.regs, fns := t.fns, rings := t.rings, descs := t.descs, nextSeq := s.nextSeq + 1
                   arb := t.arb, streams := t.streams } := by
  obtain ⟨hok, hf, -⟩ := id hfetch
  have hjoined := fetch_joined hf
  have hexec := fetches_starts (atFetch := fun _ s => s) hfetch startClose hjoined rfl
  rw [startClose_disables (hjoined.desc hok) ((hjoined.mediaRoute _).trans hroute) (by rwa [hjoined.fn])
    (by rwa [hjoined.stream]) (by rwa [hjoined.fn])] at hexec
  have hstarted := hjoined.markStarted hok
  generalize (s.fetch r).1.markStarted s.nextSeq = w at hstarted hexec
  have hcloses := closing_within s.nextSeq d h w
  refine ⟨_, _, hstarted.tallies.counted, congrArg Host.Outcome.next hexec,
    (State.setFn_self ..).trans (congrArg Fn.disable (hstarted.fn _)), ?_, ?_,
    fun e k hne => (State.modStream_other _ _ hne).trans (hstarted.stream e k), ?_⟩
  · rw [← hstarted.stream]
    exact congrArg Stream.closeSeqs (State.modStream_self ..)
  · unfold fetched
    rw [List.append_nil]
    exact hstarted.desc hok
  · rw [← hstarted.nextSeq, ← hcloses.nextSeq rfl]
    exact hstarted.settles (qs := [.regs, .fns, .rings, .descs, .nextSeq, .arb, .streams]) (hcloses.mono rfl) rfl

/-- A MEDIA_CLOSE of a stream that is OFF completes at once. -/
theorem mediaClose_completes {s : State} {r : RingId} {d : Die} {h : Fin 256} (hfetch : Fetches s r 0x0A)
    (hroute : s.mediaRoute (leAt (s.headBytes r) 2 2) = some (d, h)) (hoff : (s.fn (.stream d h)).st = .off) :
    ∃ t, exec (.mediaClose r) s = .next t ∧ t.isDone s.nextSeq = true ∧ t.fns = s.fns ∧ t.streams = s.streams := by
  obtain ⟨hok, hf, -⟩ := id hfetch
  have hjoined := fetch_joined hf
  have hexec := fetches_starts (atFetch := fun _ s => s) hfetch startClose hjoined rfl
  rw [startClose_off (hjoined.desc hok) ((hjoined.mediaRoute _).trans hroute) (by rwa [hjoined.fn])] at hexec
  exact ⟨_, congrArg Host.Outcome.next hexec, complete_isDone .., (State.complete_fns ..).trans (hjoined.within.fns rfl),
    (State.complete_streams ..).trans hjoined.streams⟩

end Sys2Proof.Machine
end

section
/-! SUPPORT. Samples that a stream accepts outside shuffle order: what the acceptance moves, and that no sample is lost
(R260, R272). -/

namespace Sys2Proof.Machine

/-- From `s` to `t` nothing changed but which samples a stream holds, queued and waiting. -/
structure Requeued (d : Die) (h : Fin 256) (s t : State) : Prop where
  within : Within [.streams] s t
  self : t.stream d h = { s.stream d h with queue := (t.stream d h).queue, waiting := (t.stream d h).waiting }
  other : ∀ e k, (e, k) ≠ (d, h) → t.stream e k = s.stream e k

namespace Requeued

variable {d : Die} {h : Fin 256} {s t u : State}

theorem refl (d : Die) (h : Fin 256) (s : State) : Requeued d h s s := ⟨Within.refl _ s, rfl, fun _ _ _ => rfl⟩

theorem trans (hst : Requeued d h s t) (htu : Requeued d h t u) : Requeued d h s u := by
  refine ⟨hst.within.trans htu.within, ?_, fun e k hne => (htu.other e k hne).trans (hst.other e k hne)⟩
  rw [htu.self, hst.self]

theorem modStream {f : Stream → Stream} (hf : ∀ x, f x = { x with queue := (f x).queue, waiting := (f x).waiting }) :
    Requeued d h s (s.modStream d h f) := by
  refine ⟨rfl, ?_, fun e k hne => State.modStream_other _ _ hne⟩
  rw [State.modStream_self]
  exact hf _

section
variable (hst : Requeued d h s t)

include hst

theorem block : (t.stream d h).block = (s.stream d h).block := by rw [hst.self]

/-- The handle that each context serves stands. -/
theorem mediaRoute (x : Nat) : t.mediaRoute x = s.mediaRoute x := by
  refine mediaRoute_congr (hst.within.fns rfl) (fun e k => ?_) x
  by_cases he : (e, k) = (d, h)
  · obtain ⟨rfl, rfl⟩ := Prod.mk.inj he
    rw [hst.self]
    exact ⟨rfl, rfl⟩
  · rw [hst.other e k he]
    exact ⟨rfl, rfl⟩

/-- Which samples may be accepted does not rest on those that the stream holds. -/
theorem mayAccept (m : Sample) : t.mayAccept d h m = s.mayAccept d h m := by
  have hclose : (t.stream d h).closeSeqs = (s.stream d h).closeSeqs := by rw [hst.self]
  have howner : (t.stream d h).owner = (s.stream d h).owner := by rw [hst.self]
  unfold State.mayAccept State.submitsHeld Stream.beforeClose State.fnIs
  simp only [hst.mediaRoute, hclose, howner, hst.within.descs rfl, State.fn_congr (hst.within.fns rfl)]

end

end Requeued

/-! ### One waiting sample -/

/-- Whether a sample may be accepted rests on its number. -/
theorem mayAccept_seq {s : State} {d : Die} {h : Fin 256} {m z : Sample} (hseq : z.seq = m.seq) :
    s.mayAccept d h z = s.mayAccept d h m := by
  unfold State.mayAccept
  rw [hseq]

/-- One waiting sample accepted, if it may be. -/
def acceptOne (d : Die) (h : Fin 256) (s : State) (m : Sample) : State :=
  if s.mayAccept d h m then
    acceptSample d h m (s.modStream d h (fun y => { y with waiting := y.waiting.filter (fun z => z.seq != m.seq) }))
  else s

theorem acceptWaiting_eq (d : Die) (h : Fin 256) (s : State) :
    acceptWaiting d h s = (s.stream d h).waiting.foldl (acceptOne d h) s := rfl

section
variable {d : Die} {h : Fin 256} {s : State} (hord : sbOrder (s.stream d h).block ≠ 1)

include hord

theorem acceptSample_queues (m : Sample) : acceptSample d h m s =
    s.modStream d h (fun x => { x with queue := x.queue ++ [{ m with epoch := x.epoch }] }) := if_neg hord

theorem acceptOne_accepts {m : Sample} (hmay : s.mayAccept d h m = true) :
    Requeued d h s (acceptOne d h s m) ∧
      ((acceptOne d h s m).stream d h).waiting = (s.stream d h).waiting.filter (fun z => z.seq != m.seq) ∧
      ((acceptOne d h s m).stream d h).queue = (s.stream d h).queue ++ [{ m with epoch := (s.stream d h).epoch }] := by
  have hleaves : Requeued d h s (s.modStream d h (fun y => { y with waiting := y.waiting.filter (fun z => z.seq != m.seq) })) :=
    .modStream fun _ => rfl
  unfold acceptOne
  rw [if_pos hmay, acceptSample_queues (by rwa [hleaves.block])]
  refine ⟨hleaves.trans (.modStream fun _ => rfl), ?_, ?_⟩
  · rw [State.modStream_self, State.modStream_self]
  · rw [State.modStream_self, State.modStream_self]

theorem acceptOne_requeued (m : Sample) : Requeued d h s (acceptOne d h s m) := by
  by_cases hmay : s.mayAccept d h m = true
  · obtain ⟨haccept, -⟩ := acceptOne_accepts hord hmay
    exact haccept
  · rw [acceptOne, if_neg hmay]
    exact .refl d h s

/-- A queued sample stays queued. -/
theorem acceptOne_queue {z : Sample} (m : Sample) (hz : z ∈ (s.stream d h).queue) :
    z ∈ ((acceptOne d h s m).stream d h).queue := by
  by_cases hmay : s.mayAccept d h m = true
  · obtain ⟨-, -, hqueue⟩ := acceptOne_accepts hord hmay
    rw [hqueue]
    exact List.mem_append_left _ hz
  · rwa [acceptOne, if_neg hmay]

/-- A waiting sample stays waiting while none of its number is accepted. -/
theorem acceptOne_waiting {z m : Sample} (hz : z ∈ (s.stream d h).waiting)
    (hm : m.seq = z.seq → s.mayAccept d h m = false) : z ∈ ((acceptOne d h s m).stream d h).waiting := by
  by_cases hmay : s.mayAccept d h m = true
  · obtain ⟨-, hwaiting, -⟩ := acceptOne_accepts hord hmay
    have hne : z.seq ≠ m.seq := fun hseq => absurd (hm hseq.symm) (by rw [hmay]; decide)
    rw [hwaiting]
    exact List.mem_filter.2 ⟨hz, by simpa using hne⟩
  · rwa [acceptOne, if_neg hmay]

end

/-! ### Every waiting sample, in the order of their fetch -/

section
variable {d : Die} {h : Fin 256}

theorem acceptOnes_requeued (l : List Sample) {s : State} (hord : sbOrder (s.stream d h).block ≠ 1) :
    Requeued d h s (l.foldl (acceptOne d h) s) := by
  induction l generalizing s with
  | nil => exact .refl d h s
  | cons m l ih =>
    have hone := acceptOne_requeued hord m
    exact hone.trans (ih (by rwa [hone.block]))

theorem acceptOnes_queue (l : List Sample) {s : State} {z : Sample} (hord : sbOrder (s.stream d h).block ≠ 1)
    (hz : z ∈ (s.stream d h).queue) : z ∈ ((l.foldl (acceptOne d h) s).stream d h).queue := by
  induction l generalizing s with
  | nil => exact hz
  | cons m l ih => exact ih (by rwa [(acceptOne_requeued hord m).block]) (acceptOne_queue hord m hz)

theorem acceptOnes_waiting {l : List Sample} {s : State} {z : Sample} (hord : sbOrder (s.stream d h).block ≠ 1)
    (hz : z ∈ (s.stream d h).waiting) (hl : ∀ m ∈ l, m.seq = z.seq → s.mayAccept d h m = false) :
    z ∈ ((l.foldl (acceptOne d h) s).stream d h).waiting := by
  induction l generalizing s with
  | nil => exact hz
  | cons m l ih =>
    have hone := acceptOne_requeued hord m
    refine ih (by rwa [hone.block]) (acceptOne_waiting hord hz (hl m List.mem_cons_self)) fun y hy hseq => ?_
    rw [hone.mayAccept]
    exact hl y (List.mem_cons_of_mem _ hy) hseq

/-- A waiting sample is accepted into the queue or waits on. -/
theorem acceptWaiting_holds {s : State} {m : Sample} (hord : sbOrder (s.stream d h).block ≠ 1)
    (hm : m ∈ (s.stream d h).waiting) :
    ∃ z ∈ ((acceptWaiting d h s).stream d h).queue ++ ((acceptWaiting d h s).stream d h).waiting,
      { z with epoch := 0 } = { m with epoch := 0 } := by
  rw [acceptWaiting_eq]
  by_cases hmay : s.mayAccept d h m = true
  · obtain ⟨l, k, hw⟩ := List.append_of_mem hm
    rw [hw, List.foldl_append, List.foldl_cons]
    have hfirst := acceptOnes_requeued l hord
    generalize l.foldl (acceptOne d h) s = t at hfirst
    have hord' : sbOrder (t.stream d h).block ≠ 1 := by rwa [hfirst.block]
    obtain ⟨haccept, -, hqueue⟩ := acceptOne_accepts hord' ((hfirst.mayAccept m).trans hmay)
    have hqueued : { m with epoch := (t.stream d h).epoch } ∈ ((acceptOne d h t m).stream d h).queue := by
      rw [hqueue]
      exact List.mem_append_right _ (List.mem_singleton_self _)
    exact ⟨_, List.mem_append_left _ (acceptOnes_queue k (by rwa [haccept.block]) hqueued), rfl⟩
  · refine ⟨m, List.mem_append_right _ (acceptOnes_waiting hord hm fun z _ hseq => ?_), rfl⟩
    rw [mayAccept_seq hseq]
    exact Bool.eq_false_iff.2 hmay

end

end Sys2Proof.Machine
end

section
/-! SUPPORT. MEDIA_SUBMIT to a stream of its own context outside shuffle order (R260, R262, R272). -/

namespace Sys2Proof.Machine

/-! ### The override block and the sample -/

/-- The override block of a MEDIA_SUBMIT that has one is read. -/
def ovrRead (x : Desc) (s : State) : State :=
  if x.hasOvr then s.jobRead (ringCtx x.ring) none (leAt x.bytes 0x28 8) 64 else s

theorem readOvr_reads {x : Desc} (k : State → State) {s : State}
    (hclear : x.hasOvr = true →
      s.jobMay (ringCtx x.ring) (leAt x.bytes 0x28 8) 64 = true ∧ s.badIn (leAt x.bytes 0x28 8) 64 = none) :
    readOvr x k s = k (ovrRead x s) := by
  unfold readOvr ovrRead
  cases hovr : x.hasOvr with
  | false => rfl
  | true =>
    obtain ⟨hmay, hbad⟩ := hclear hovr
    simp only [hmay, hbad, Bool.and_self, if_true]

theorem ovrRead_jobMay (x : Desc) (s : State) (n : CtxId) (a len : Nat) : (ovrRead x s).jobMay n a len = s.jobMay n a len := by
  unfold ovrRead
  split
  · exact jobRead_jobMay ..
  · rfl

theorem Joined.ovrRead {s t : State} {y : Desc} (h : Joined s y t) (x : Desc) : Joined s y (ovrRead x t) := by
  unfold Machine.ovrRead
  split
  · exact h.jobRead ..
  · exact h

/-- Check 0x0313 of R262 covers the override block. -/
theorem submitCheck_ovr {s : State} {x : Desc} (h : s.submitCheck x = none) (hovr : x.hasOvr = true) :
    s.jobMay (ringCtx x.ring) (leAt x.bytes 0x28 8) 64 = true := by
  have hblock := failIf_eq_none.1 (eq_none_of_firstSome h
    (failIf (x.hasOvr && !s.jobMay (ringCtx x.ring) (leAt x.bytes 0x28 8) 64) 0x0313) (by simp))
  simpa [hovr] using hblock

theorem submitCheck_congr {s t : State} (hmay : ∀ n a len, t.jobMay n a len = s.jobMay n a len)
    (hread : ∀ a n, t.devRead a n = s.devRead a n) (x : Desc) : t.submitCheck x = s.submitCheck x := by
  unfold State.submitCheck
  simp only [hmay, hread]

theorem sampleFrom_congr {s t : State} (hread : ∀ a n, t.devRead a n = s.devRead a n) (x : Desc) :
    t.sampleFrom x = s.sampleFrom x := by
  unfold State.sampleFrom
  simp only [hread]

/-- A sample that waits for its acceptance in the order of its fetch. -/
def State.addWaiting (s : State) (d : Die) (h : Fin 256) (m : Sample) : State :=
  s.modStream d h (fun y => { y with waiting := insertSample m y.waiting })

theorem addWaiting_requeued (s : State) (d : Die) (h : Fin 256) (m : Sample) : Requeued d h s (s.addWaiting d h m) :=
  .modStream fun _ => rfl

theorem addWaiting_mem (s : State) (d : Die) (h : Fin 256) (m : Sample) : m ∈ ((s.addWaiting d h m).stream d h).waiting := by
  rw [State.addWaiting, State.modStream_self]
  simp [insertSample]

/-! ### The start -/

/-- A MEDIA_SUBMIT by the owner of a stream that is not OFF, whose checks pass, adds its sample to those that wait. -/
theorem takeSubmit_waits {s : State} {q : Nat} {x : Desc} {d : Die} {h : Fin 256}
    (hroute : s.mediaRoute (leAt x.bytes 2 2) = some (d, h)) (hopen : s.fnIs (.stream d h) .off = false)
    (howner : (s.stream d h).owner = some (ringCtx x.ring))
    (hcheck : s.submitCheck x = none) (hread : ∀ a n, (ovrRead x s).devRead a n = s.devRead a n)
    (hbad : x.hasOvr = true → s.badIn (leAt x.bytes 0x28 8) 64 = none) :
    takeSubmit q x s = (ovrRead x s).addWaiting d h (s.sampleFrom x) := by
  have hpass := (submitCheck_congr (ovrRead_jobMay x s) hread x).trans hcheck
  unfold takeSubmit
  simp only [hroute, hopen, howner, Bool.not_false, Bool.true_and, ne_eq, not_true, decide_false, Bool.false_eq_true, if_false]
  rw [readOvr_reads _ fun hovr => ⟨submitCheck_ovr hcheck hovr, hbad hovr⟩]
  simp only [hpass, sampleFrom_congr hread]
  rfl

/-- Such a MEDIA_SUBMIT starts with its sample among those that wait, and then what may be is accepted. -/
theorem startSubmit_accepts {s : State} {q : Nat} {x : Desc} {d : Die} {h : Fin 256} (hx : s.desc q = some x)
    {w : State} (htake : takeSubmit q x (s.markStarted q) = w) (hroute : w.mediaRoute (leAt x.bytes 2 2) = some (d, h)) :
    startSubmit q s = acceptWaiting d h w := by
  unfold startSubmit
  simp only [hx, htake, hroute]

section
variable {s : State} {r : RingId} {d : Die} {h : Fin 256} (hfetch : Fetches s r 0x08)
  (hroute : s.mediaRoute (leAt (s.headBytes r) 2 2) = some (d, h)) (hopen : s.fnIs (.stream d h) .off = false)
  (howner : (s.stream d h).owner = some (ringCtx r)) (hcheck : s.submitCheck (fetched s r []) = none)
  (hbad : (fetched s r []).hasOvr = true → s.badIn (leAt (s.headBytes r) 0x28 8) 64 = none)

include hfetch hroute hopen howner hcheck hbad

/-- The fetch of a MEDIA_SUBMIT that passes its checks leaves it started, with its sample among those that wait. -/
theorem exec_mediaSubmit_accepts : ∃ v, Joined s (fetched s r []) v ∧
    exec (.mediaSubmit r) s = .next (acceptWaiting d h (v.addWaiting d h (s.sampleFrom (fetched s r [])))) := by
  obtain ⟨hok, hf, -⟩ := id hfetch
  have hfetched : fetched s r [] = { (s.fetch r).2 with st := .started } := by
    unfold fetched
    rw [List.append_nil]
    rfl
  rw [hfetched] at hcheck hbad ⊢
  change s.submitCheck (s.fetch r).2 = none at hcheck
  have hjoined := fetch_joined hf
  have hstarted := hjoined.markStarted hok
  have hread := hstarted.ovrRead (s.fetch r).2
  have hmay : ∀ n a len, ((s.fetch r).1.markStarted s.nextSeq).jobMay n a len = s.jobMay n a len := fetch_jobMay s r
  have htake := takeSubmit_waits (q := s.nextSeq) (x := (s.fetch r).2) ((hstarted.mediaRoute _).trans hroute)
    (by rwa [State.fnIs, hstarted.fn]) (by rwa [hstarted.stream])
    ((submitCheck_congr hmay hstarted.sameChecks.devRead _).trans hcheck)
    (fun a n => (hread.sameChecks.devRead a n).trans (hstarted.sameChecks.devRead a n).symm)
    (fun hovr => (hstarted.badIn ..).trans (hbad hovr))
  rw [sampleFrom_congr hstarted.sameChecks.devRead] at htake
  have hroutes := ((addWaiting_requeued _ d h (s.sampleFrom (s.fetch r).2)).mediaRoute _).trans
    ((hread.mediaRoute _).trans hroute)
  refine ⟨_, hread, congrArg Host.Outcome.next ?_⟩
  exact (fetches_starts (atFetch := fun _ s => s) hfetch startSubmit hjoined rfl).trans
    (startSubmit_accepts (hjoined.desc hok) htake hroutes)

/-- A MEDIA_SUBMIT that passes its checks adds its sample to its stream. -/
theorem mediaSubmit_settles (hord : sbOrder (s.stream d h).block ≠ 1) :
    ∃ u t, Counted s u ∧ exec (.mediaSubmit r) s = .next t ∧ t.desc s.nextSeq = some (fetched s r []) ∧
      (∃ m ∈ (t.stream d h).queue ++ (t.stream d h).waiting, { m with epoch := 0 } = s.sampleFrom (fetched s r [])) ∧
      (∀ e k, (e, k) ≠ (d, h) → t.stream e k = s.stream e k) ∧
      t = { u with regs := t.regs, rings := t.rings, descs := t.descs, nextSeq := s.nextSeq + 1, arb := t.arb
                   streams := t.streams } := by
  obtain ⟨v, hread, hexec⟩ := exec_mediaSubmit_accepts hfetch hroute hopen howner hcheck hbad
  obtain ⟨hok, -⟩ := hfetch
  have hadds := addWaiting_requeued v d h (s.sampleFrom (fetched s r []))
  have hwaits := addWaiting_mem v d h (s.sampleFrom (fetched s r []))
  generalize v.addWaiting d h (s.sampleFrom (fetched s r [])) = w at hadds hwaits hexec
  have hordw : sbOrder (w.stream d h).block ≠ 1 := by rwa [hadds.block, hread.stream]
  have hmoves := hadds.trans (acceptOnes_requeued (w.stream d h).waiting hordw)
  rw [← acceptWaiting_eq] at hmoves
  refine ⟨_, _, hread.tallies.counted, hexec, ?_, acceptWaiting_holds hordw hwaits,
    fun e k hne => (hmoves.other e k hne).trans (hread.stream e k), ?_⟩
  · rw [State.desc, hmoves.within.descs rfl]
    exact hread.desc hok
  · rw [← hread.nextSeq, ← hmoves.within.nextSeq rfl]
    exact hread.settles (qs := [.regs, .rings, .descs, .nextSeq, .arb, .streams]) (hmoves.within.mono rfl) rfl

end

end Sys2Proof.Machine
end

section
/-! PROOFS. MediaDescriptors. -/

namespace Sys2Proof

open Machine

/-- Settles O57: a fetched descriptor that passes its checks starts on the stream that its handle names; an open takes in
its blocks, a submit loses no sample as the waiting ones are accepted, and a close disables its stream or completes. -/
theorem mediaDescriptors : Obligations.MediaDescriptors := by
  unfold Obligations.MediaDescriptors
  intro s r d h _ _ hroute
  exact ⟨fun hfetch hread hcheck hbad hwaits hhome hoff =>
      mediaOpen_settles hfetch hroute rfl rfl hread hcheck hbad hwaits hhome hoff,
    fun hfetch hopen howner hcheck hord hbad => mediaSubmit_settles hfetch hroute hopen howner hcheck hbad hord,
    fun hfetch hopen howner hpending => mediaClose_settles hfetch hroute hopen howner hpending,
    fun hfetch hoff => mediaClose_completes hfetch hroute hoff⟩

end Sys2Proof
end

section
/-! SUPPORT. A slot that is taken by a FENCE, SEM_SIGNAL, SEM_WAIT or TIMESTAMP, and a slot at which the fetcher stops
(R311, R328 to R330, R290). -/

namespace Sys2Proof.Machine

/-! ### A slot that is taken -/

/-- Whether an earlier FENCE whose scope takes in a ring has not completed. -/
def State.fenced (s : State) (r : RingId) : Bool := s.descs.any (fun f => fenceCovers f r)

/-- A fetched descriptor whose type starts with nothing but a mark: started, or held by an earlier FENCE. -/
def marked (s : State) (r : RingId) : State :=
  if s.fenced r then (s.fetch r).1.modDesc s.nextSeq (fun y => { y with held := true })
  else (s.fetch r).1.markStarted s.nextSeq

/-- Once its checks pass, a descriptor that starts with a mark is marked or held. -/
theorem fetchAs_marks {s : State} {r : RingId} {ty : Nat} (hok : FlightOk s) (hf : s.fetchable r = true)
    (hty : leAt (s.headBytes r) 0 1 = ty) (hout : s.hub.outOfService = false)
    (hcheck : s.commonCheck (ringCtx r) (s.headBytes r) = none) (hplain : ty ≠ 1) :
    fetchAs r (tyIs ty) noCheck (fun q s => s.markStarted q) s = marked s r := by
  have hpass : (s.fetch r).1.commonCheck (ringCtx r) (s.headBytes r) = none :=
    (commonCheck_noDisp s _ _ _ (hty ▸ hplain)).trans hcheck
  unfold fetchAs marked State.fenced
  rw [fetchThen_pass s r _ _ _ _ hf (by simp [tyIs, hty]) hout hpass rfl]
  simp only [fetch_open s r hok, fenceHeld_fetch s r hok, Bool.false_eq_true, if_false]

/-- The mark changes nothing of the fetched state but its last descriptor. -/
theorem marked_eq {s : State} (r : RingId) (hok : FlightOk s) :
    marked s r = { (s.fetch r).1 with descs := s.descs ++ [{ (s.fetch r).2 with
      st := if s.fenced r then .waiting else .started, held := s.fenced r }] } := by
  unfold marked
  cases s.fenced r with
  | true => exact fetch_mod s r _ hok
  | false =>
    refine (fetch_mod s r _ hok).trans ?_
    rw [fetch_now]
    rfl

theorem fetch_grant (s : State) (r : RingId) (hty : leAt (s.headBytes r) 0 1 = 0x07) : (s.fetch r).1.arb.grant = none := by
  rw [fetch_eq]
  exact if_pos hty

theorem fetch_ring_other (s : State) {r q : RingId} (h : q ≠ r) : (s.fetch r).1.ring q = s.ring q := by
  have hrings := State.jobRead_rings s (ringCtx r) none (s.slotAddr r (s.headSlot r)) 64
  rw [fetch_eq, State.ring, State.ring, ← hrings]
  exact SMap.getD_put_other _ _ _ fun e => h (Fin.ext e)

/-! ### A slot at which the ring stops -/

theorem exec_slotFetchStall {s : State} {r : RingId} {fail : Option ReadFail} (hg : (s.grantFor r).isSome = true)
    (h : fail.isSome || (s.slotBad r).isSome || !ownSet (s.headBytes r)) :
    exec (.slotFetchStall r fail) s = .next (slotFetchStall r fail s) := by
  show execSlotFetchStall r fail s = _
  unfold execSlotFetchStall
  rw [hg, h]
  rfl

/-- The grant ends. -/
def State.grantEnds (s : State) (r : RingId) : State :=
  { s with arb := { s.arb with fetch := ((s.grantFor r).getD (0, s.arb.fetch)).2, grant := none } }

/-- A ring stops at its slot, with a flag of HIF_RING_STAT. -/
def State.stopsWith (s : State) (r : RingId) (k : Nat) : State :=
  (s.setRegFld .hifRingStat 0 r.val 0 k k 1).modRing r (fun x => { x with stopped := true })

theorem slotFetchStall_bad {s : State} {r : RingId} {c : Nat} (h : s.slotBad r = some c) :
    slotFetchStall r none s = (s.grantEnds r).raise causeMem hubSideDie [ringCtx r] c := by
  unfold slotFetchStall
  extract_lets +onlyGivenNames q a u
  rw [show u.slotBad r = some c from h]
  rfl

theorem slotFetchStall_failed (s : State) (r : RingId) (f : ReadFail) :
    slotFetchStall r (some f) s = (s.grantEnds r).stopsWith r 2 := rfl

theorem slotFetchStall_notOwned {s : State} {r : RingId} (hbad : s.slotBad r = none)
    (hown : ownSet (s.headBytes r) = false) : slotFetchStall r none s =
      ((s.grantEnds r).jobRead (ringCtx r) none (s.slotAddr r (s.headSlot r)) 64).stopsWith r 1 := by
  unfold slotFetchStall
  extract_lets +onlyGivenNames q a u
  rw [show u.slotBad r = none from hbad, show u.headBytes r = s.headBytes r from rfl, hown]
  rfl

/-- What the stop of a ring leaves: its flag is set, and the other registers and rings stand. -/
structure Stops (r : RingId) (k : Nat) (s t : State) : Prop where
  stopped : (t.ring r).stopped = true
  rings : ∀ q, q ≠ r → t.ring q = s.ring q
  flag : t.regFld .hifRingStat 0 r.val 0 k k = 1
  flags : ∀ n, n ≠ k → t.regFld .hifRingStat 0 r.val 0 n n = s.regFld .hifRingStat 0 r.val 0 n n
  reg : ∀ q d i j, RegId.off q d i j ≠ RegId.off .hifRingStat 0 r.val 0 → t.reg q d i j = s.reg q d i j
  within : Within [.regs, .rings] s t

theorem State.stopsWith_stops (s : State) (r : RingId) {k : Nat} (hk : k < 64) : Stops r k s (s.stopsWith r k) where
  stopped := congrArg Ring.stopped (State.modRing_self (s.setRegFld .hifRingStat 0 r.val 0 k k 1) r _)
  rings _ h := State.modRing_other (s.setRegFld .hifRingStat 0 r.val 0 k k 1) _ h
  flag := State.setRegFld_self s _ _ _ _ (Nat.le_refl k) hk (by
    rw [show k + 1 - k = 1 by omega]
    decide)
  flags _ h := State.setRegFld_field s _ _ _ _ (Nat.le_refl k) hk (by omega) (Nat.le_refl _)
  reg _ _ _ _ h := State.setRegFld_other s _ _ _ h
  within := rfl

/-- A read that counts with the arbiter moved counts as much with the arbiter as it was. -/
theorem counted_grantEnds {s t : State} {r : RingId} (h : Counted (s.grantEnds r) t) : Counted s { t with arb := s.arb } where
  same := by
    conv_lhs => rw [h.same]
    rfl
  reg := h.reg
  die := h.die
  mc := h.mc
  core := h.core

theorem hifRingStat_lt (r : RingId) : RegId.off .hifRingStat 0 r.val 0 < 0x100000 := by
  have hr := r.isLt
  simp only [RegId.off, RegId.row]
  simp
  omega

end Sys2Proof.Machine
end

section
/-! PROOFS. SlotFetch. -/

namespace Sys2Proof

open Machine

/-- The four commands whose descriptors start with a mark are a fetch by their TYPE. -/
theorem exec_marking {s : State} {r : RingId} {c : Instr} {ty : Nat}
    (h : (c, ty) ∈ [(Instr.fence r, 0x05), (Instr.semSignal r, 0x06), (Instr.semWait r, 0x07), (Instr.timestamp r, 0x0E)]) :
    ty ≠ 1 ∧ exec c s = .next (fetchAs r (tyIs ty) noCheck (fun q s => s.markStarted q) s) := by
  simp only [List.mem_cons, List.not_mem_nil, or_false, Prod.mk.injEq] at h
  obtain ⟨rfl, rfl⟩ | ⟨rfl, rfl⟩ | ⟨rfl, rfl⟩ | ⟨rfl, rfl⟩ := h <;> exact ⟨by decide, rfl⟩

/-- A ring that stops for a read that fails, or at a slot with OWN clear. -/
theorem slotFetchStall_stops {s : State} {r : RingId} {fail : Option ReadFail} (hg : (s.grantFor r).isSome = true)
    (h : fail.isSome = true ∨ (s.slotBad r = none ∧ ownSet (s.headBytes r) = false)) :
    ∃ u t v, Counted s u ∧ (fail.isSome = true ∨ isHost (s.slotAddr r (s.headSlot r)) = true → u = s) ∧
      exec (.slotFetchStall r fail) s = .next t ∧ Within [.arb] u v ∧ Stops r (if fail.isSome then 2 else 1) v t := by
  cases fail with
  | some f =>
    exact ⟨s, _, s.grantEnds r, .refl s, fun _ => rfl, exec_slotFetchStall hg rfl, rfl,
      slotFetchStall_failed s r f ▸ State.stopsWith_stops _ r (show 2 < 64 by decide)⟩
  | none =>
    obtain h | ⟨hbad, hown⟩ := h
    · exact absurd h (by decide)
    refine ⟨{ (s.grantEnds r).jobRead (ringCtx r) none (s.slotAddr r (s.headSlot r)) 64 with arb := s.arb }, _, _,
      counted_grantEnds (jobRead_counted ..), fun hhost => ?_, exec_slotFetchStall hg (by simp [hown]), ?_,
      slotFetchStall_notOwned hbad hown ▸ State.stopsWith_stops _ r (show 1 < 64 by decide)⟩
    · rw [jobRead_host _ _ _ _ (hhost.resolve_left (by decide))]
      rfl
    · rfl

/-- Settles O23: a slot that passes is fetched whole and its descriptor marked or held, and a stop sets one flag of the
ring beside the counts of what was read. -/
theorem slotFetch : Obligations.SlotFetch := by
  unfold Obligations.SlotFetch
  refine ⟨?_, fun s r fail hg => ⟨?_, fun h => ?_⟩⟩
  · intro s r c ty hok hc hf hty hout hcheck held x
    obtain ⟨hplain, hexec⟩ := exec_marking (s := s) hc
    rw [fetchAs_marks hok hf hty hout hcheck hplain, marked_eq r hok] at hexec
    obtain ⟨hhead, hstat, hregs⟩ := fetch_regs s r
    refine ⟨_, _, jobRead_counted s (ringCtx r) none (s.slotAddr r (s.headSlot r)) 64, fun hhost => jobRead_host _ _ _ _ hhost,
      hexec, ?_, fetch_nextSeq s r, hhead, hstat, hregs, hty ▸ fetch_ring s r, fun h7 => fetch_grant s r (hty.trans h7),
      fun q hq => fetch_ring_other s hq, ?_⟩
    · rw [fetch_taken hty]
      rfl
    · exact (fetch_within_read s r).trans (show Within _ _ { (s.fetch r).1 with descs := _ } from rfl)
  · rintro rfl c hbad
    refine ⟨_, exec_slotFetchStall hg (by simp [hbad]), ?_⟩
    rw [slotFetchStall_bad hbad]
    rfl
  · obtain ⟨u, t, v, hcount, hhost, hexec, hv, hstop⟩ := slotFetchStall_stops hg h
    have hstat : u.reg .hifRingStat 0 r.val 0 = s.reg .hifRingStat 0 r.val 0 := hcount.hubReg (hifRingStat_lt r)
    have hvreg : ∀ q d i j, v.reg q d i j = u.reg q d i j := fun q d i j => State.reg_congr (hv.regs rfl) q d i j
    have hfld : ∀ n, v.regFld .hifRingStat 0 r.val 0 n n = s.regFld .hifRingStat 0 r.val 0 n n := fun n => by
      rw [State.regFld, hvreg, hstat]
      rfl
    refine ⟨u, t, hcount, hhost, hexec, hstop.stopped, fun q hq => ?_, ?_, ?_, fun q d i j hq =>
      (hstop.reg q d i j hq).trans (hvreg q d i j), ?_⟩
    · rw [hstop.rings q hq, State.ring, hv.rings rfl, hcount.same]
      rfl
    · cases fail with
      | some f => exact (hstop.flags 1 (show 1 ≠ 2 by decide)).trans (hfld 1)
      | none => exact hstop.flag
    · cases fail with
      | some f => exact hstop.flag
      | none => exact (hstop.flags 2 (show 2 ≠ 1 by decide)).trans (hfld 2)
    · exact (hv.mono (b := [.regs, .rings, .arb]) rfl).trans (hstop.within.mono rfl)

end Sys2Proof
end

section
/-! SUPPORT. The start of a COPY, FILL or COMPARE: its checks rest on what its fetch leaves alone, and its parts go to the
queues of its spread (R302 to R304). -/

namespace Sys2Proof.Machine

/-! ### Registers of DMA queues -/

/-- A corrected error counts in the registers of corrected errors only. -/
theorem State.countCeAt_reg (s : State) (a : Nat) {q : RegId} {d i j : Nat}
    (hmc : ∀ e k, q.off d i j ≠ RegId.off .mcEccCe e k 0) (hgal : ∀ e, q.off d i j ≠ RegId.off .galEccCe e 0 0)
    (hcore : ∀ e (k : PCore), q.off d i j ≠ RegId.off .coreEccCe e k.val 0) :
    (s.countCeAt a).reg q d i j = s.reg q d i j := by
  unfold State.countCeAt
  split
  · exact State.bump_other s 1 (hmc _ _)
  · split
    · exact State.bump_other s 1 (hgal _)
    · exact State.bump_other s 1 (hcore _ _)
    · rfl

/-- A read that counts leaves a register alone that is no counter of bytes or corrected errors. -/
theorem State.jobRead_reg (s : State) (n : CtxId) (src : Option Die) (a len : Nat) {q : RegId} {d i j : Nat}
    (hbytes : Uncounted q d i j) (hmc : ∀ e k, q.off d i j ≠ RegId.off .mcEccCe e k 0)
    (hgal : ∀ e, q.off d i j ≠ RegId.off .galEccCe e 0 0)
    (hcore : ∀ e (k : PCore), q.off d i j ≠ RegId.off .coreEccCe e k.val 0) :
    (s.jobRead n src a len).reg q d i j = s.reg q d i j := by
  have hcount : ((s.countBytes false a len).chargeBytes n src a len).reg q d i j = s.reg q d i j := by
    rw [chargeBytes_frame]
    exact State.countBytes_reg s false a len hbytes
  refine Eq.trans ?_ hcount
  unfold State.jobRead State.freeCe
  split
  · rfl
  · exact foldl_same (fun t => t.reg q d i j) _ _ _ fun t c => State.countCeAt_reg t c hmc hgal hcore

theorem fetch_dmaQCfg (s : State) (r : RingId) (d : Die) {i : Nat} (hi : i < 16) :
    (s.fetch r).1.reg .dmaQCfg d.val i 0 = s.reg .dmaQCfg d.val i 0 := by
  obtain ⟨-, -, hregs⟩ := fetch_regs s r
  have hr := r.isLt
  refine (hregs _ _ _ _ ?_ ?_).trans (State.jobRead_reg _ _ _ _ _ (fun e k => ?_) (fun e k => ?_) (fun e => ?_) fun e k => ?_)
  case refine_6 =>
    have hk := k.isLt
    simp only [RegId.off, RegId.row, if_true]
    omega
  all_goals
    simp only [RegId.off, RegId.row, if_true, Bool.false_eq_true, if_false]
    omega

/-! ### The checks -/

/-- The checks of R304 rest on the owners and states of the queues. -/
theorem dmaCheck_congr {s t : State} (howner : ∀ q, t.qOwner q = s.qOwner q) (hfn : t.fns = s.fns) (x : Desc) :
    t.dmaCheck x = s.dmaCheck x := by
  unfold State.dmaCheck State.fnIs
  simp only [howner, State.fn_congr hfn]

theorem fetch_dmaCheck (s : State) (r : RingId) (x : Desc) : (s.fetch r).1.dmaCheck x = s.dmaCheck x :=
  dmaCheck_congr (fun q => congrArg (fun v => fld v 23 16) (fetch_dmaQCfg s r (qDie q) (Nat.mod_lt q.val (by decide))))
    (by rw [fetch_frame]) x

/-- The queues of a descriptor that passes the checks exist, and there is one. -/
theorem dmaCheck_queues {s : State} {x : Desc} (h : s.dmaCheck x = none) :
    0 < x.dmaSpread ∧ x.dmaQueue + x.dmaSpread ≤ 128 := by
  have hall := eq_none_of_firstSome h
  simp only [List.forall_mem_cons, failIf_eq_none, Bool.or_eq_false_iff, decide_eq_false_iff_not] at hall
  obtain ⟨⟨hrange, -⟩, ⟨hpower, -⟩, -⟩ := hall
  refine ⟨Nat.pos_of_ne_zero fun h0 => ?_, by omega⟩
  rw [h0] at hpower
  exact absurd hpower (by decide)

/-- Queue number `k` of a spread that lies among the 128 queues. -/
theorem spread_get {x : Desc} (hrange : x.dmaQueue + x.dmaSpread ≤ 128) {k : Nat} (hk : k < x.dmaSpread) :
    x.spread[k]? = some ⟨x.dmaQueue + k, by omega⟩ := by
  have hmap : x.spread = (List.range x.dmaSpread).map (fun k => ⟨(x.dmaQueue + k) % 128, Nat.mod_lt _ (by decide)⟩) := by
    rw [← List.filterMap_eq_map]
    refine List.filterMap_congr fun i hi => ?_
    have hlt := List.mem_range.1 hi
    have h128 : x.dmaQueue + i < 128 := by omega
    rw [dif_pos h128]
    simp only [Function.comp, Nat.mod_eq_of_lt h128]
  rw [hmap, List.getElem?_map, List.getElem?_range hk]
  simp only [Option.map_some, Nat.mod_eq_of_lt (show x.dmaQueue + k < 128 by omega)]

/-! ### The parts on their queues -/

theorem State.setDq_other (s : State) {q r : QueueId} (l : List DmaPart) (h : r ≠ q) : (s.setDq q l).dq r = s.dq r :=
  SMap.getD_put_other _ _ _ (fun e => h (Fin.ext e))

/-- A part with the chunks it has to perform. -/
def Desc.partOf (x : Desc) (k : Nat) : DmaPart := { seq := x.seq, part := k, chunks := x.partChunks k }

/-- One part put behind those of its queue, unless it has no chunk to perform. -/
def assignPart (x : Desc) (s : State) (k : Nat) : State :=
  match x.spread[k % max 1 x.dmaSpread]? with
  | some q => if (x.partChunks k).isEmpty then s else s.setDq q (s.dq q ++ [x.partOf k])
  | none => s

/-- Whether part `k` goes to a queue. -/
def Desc.partGoes (x : Desc) (q : QueueId) (k : Nat) : Bool :=
  decide (q.val = x.dmaQueue + k % x.dmaSpread) && !(x.partChunks k).isEmpty

section
variable {x : Desc} (hpos : 0 < x.dmaSpread) (hrange : x.dmaQueue + x.dmaSpread ≤ 128)

include hpos hrange

theorem assignPart_dq (s : State) (k : Nat) (q : QueueId) :
    (assignPart x s k).dq q = s.dq q ++ if x.partGoes q k then [x.partOf k] else [] := by
  have hk := Nat.mod_lt k hpos
  unfold assignPart Desc.partGoes
  rw [Nat.max_eq_right hpos, spread_get hrange hk]
  dsimp only
  by_cases hempty : (x.partChunks k).isEmpty = true
  · simp [hempty]
  · rw [if_neg hempty]
    by_cases hq : q.val = x.dmaQueue + k % x.dmaSpread
    · rw [← show q = ⟨x.dmaQueue + k % x.dmaSpread, by omega⟩ from Fin.ext hq, State.setDq_self]
      simp [hempty, hq]
    · rw [State.setDq_other _ _ fun e => hq (congrArg Fin.val e)]
      simp [hq]

theorem assignPart_foldl_dq (l : List Nat) (s : State) (q : QueueId) :
    (l.foldl (assignPart x) s).dq q = s.dq q ++ (l.filter (x.partGoes q)).map x.partOf := by
  induction l generalizing s with
  | nil => simp
  | cons k l ih =>
    rw [List.foldl_cons, ih, assignPart_dq hpos hrange, List.append_assoc, List.filter_cons]
    cases x.partGoes q k <;> rfl

end

theorem assignParts_within (x : Desc) (s : State) : Within [.dmaq] s (assignParts x s) :=
  (assignParts_keeps rfl (Keeps.refl _ s)).rest

/-! ### The start -/

/-- With every queue of its spread ON, a fetched transfer starts. -/
theorem startDma_starts {s : State} {q : Nat} {x : Desc} (hx : s.desc q = some x)
    (hon : ∀ k ∈ x.spread, (s.fn (.dmaq k)).st = .on) : startDma q s = assignParts x (s.markStarted q) := by
  have hoff : x.spread.any (fun k => s.fnIs (.dmaq k) .off) = false :=
    List.any_eq_false.2 fun k hk => by simp [State.fnIs, hon k hk]
  have hall : x.spread.all (fun k => s.fnIs (.dmaq k) .on) = true :=
    List.all_eq_true.2 fun k hk => State.fnIs_of (hon k hk)
  unfold startDma
  simp only [hx, hoff, hall, Bool.false_eq_true, if_false, if_true]

theorem exec_transfer {s : State} {r : RingId} {c : Instr} {ty : Nat}
    (h : (c, ty) ∈ [(Instr.copy r, 0x02), (Instr.fill r, 0x03), (Instr.compare r, 0x04)]) :
    ty ≠ 1 ∧ exec c s = .next (fetchAs r (tyIs ty) State.dmaCheck startDma s) := by
  simp only [List.mem_cons, List.not_mem_nil, or_false, Prod.mk.injEq] at h
  obtain ⟨rfl, rfl⟩ | ⟨rfl, rfl⟩ | ⟨rfl, rfl⟩ := h <;> exact ⟨by decide, rfl⟩

/-- A transfer that passes its checks, is held by no FENCE, and finds its queues ON starts at its fetch. -/
theorem fetchAs_transfers {s : State} {r : RingId} {ty : Nat} (hok : FlightOk s) (hf : s.fetchable r = true)
    (hty : leAt (s.headBytes r) 0 1 = ty) (hout : s.hub.outOfService = false)
    (hcheck : s.commonCheck (ringCtx r) (s.headBytes r) = none) (hplain : ty ≠ 1)
    (hfence : s.descs.any (fun f => fenceCovers f r) = false) (hdma : s.dmaCheck (taken s r ty) = none)
    (hon : ∀ q ∈ (taken s r ty).spread, (s.fn (.dmaq q)).st = .on) :
    fetchAs r (tyIs ty) State.dmaCheck startDma s =
      assignParts (taken s r ty) ((s.fetch r).1.markStarted s.nextSeq) := by
  have hpass : (s.fetch r).1.commonCheck (ringCtx r) (s.headBytes r) = none :=
    (commonCheck_noDisp s _ _ _ (hty ▸ hplain)).trans hcheck
  have hdma' : (s.fetch r).1.dmaCheck (s.fetch r).2 = none := by
    rw [fetch_taken hty, fetch_dmaCheck]
    exact hdma
  unfold fetchAs
  rw [fetchThen_pass s r _ _ _ _ hf (by simp [tyIs, hty]) hout hpass hdma']
  simp only [fetch_open s r hok, fenceHeld_fetch s r hok, hfence, Bool.false_eq_true, if_false]
  have hdesc := fetch_desc s r hok
  rw [fetch_taken hty] at hdesc
  refine startDma_starts hdesc fun q hq => ?_
  rw [State.fn_congr (show (s.fetch r).1.fns = s.fns by rw [fetch_frame])]
  exact hon q hq

/-! ### Chunks -/

/-- The chunks of a part: each sixteenth from the part's number on that begins below LENGTH. -/
theorem mem_partChunks (x : Desc) {k j : Nat} (hk : k < 16) :
    j ∈ x.partChunks k ↔ j % 16 = k ∧ 65536 * j < x.dmaLen ∧ (x.dmaMask = 0 ∨ bits x.dmaMask k k = 1) := by
  unfold Desc.partChunks
  split
  next hmask =>
    simp only [List.mem_map, List.mem_range, ceilDiv, hmask, and_true]
    constructor
    · rintro ⟨i, hi, rfl⟩
      omega
    · rintro ⟨hpart, hlen⟩
      exact ⟨j / 16, by omega, by omega⟩
  next hmask => simp [hmask]

end Sys2Proof.Machine
end

section
/-! PROOFS. DmaStart. -/

namespace Sys2Proof

open Machine

/-- Settles O25: the fetch and the mark change the ring's place and the descriptor, and each part in turn joins the queue
that its number picks from the spread. -/
theorem dmaStart : Obligations.DmaStart := by
  unfold Obligations.DmaStart
  refine ⟨?_, fun x k j hk => mem_partChunks x hk⟩
  intro s r c ty hok hc hf hty hout hcheck hfence x hdma hon
  obtain ⟨hplain, hexec⟩ := exec_transfer (s := s) hc
  rw [fetchAs_transfers hok hf hty hout hcheck hplain hfence hdma hon] at hexec
  obtain ⟨hpos, hrange⟩ := dmaCheck_queues hdma
  obtain ⟨-, -, hregs⟩ := fetch_regs s r
  have hparts := assignParts_within (taken s r ty) ((s.fetch r).1.markStarted s.nextSeq)
  have hdq : ∀ q, ((s.fetch r).1.markStarted s.nextSeq).dq q = s.dq q := fun q =>
    congrArg (fun m => SMap.getD m q.val []) (show (s.fetch r).1.dmaq = s.dmaq by rw [fetch_frame])
  refine ⟨_, _, jobRead_counted s (ringCtx r) none (s.slotAddr r (s.headSlot r)) 64, fun hhost => jobRead_host _ _ _ _ hhost,
    hexec, ?_, fun q => ?_, fun q d i j hhead hstat => ?_, ?_⟩
  · rw [State.desc, hparts.descs rfl, State.markStarted, fetch_now]
    exact modDesc_self (x := taken s r ty) _ (fetch_taken hty ▸ fetch_desc s r hok)
  · rw [← hdq]
    exact assignPart_foldl_dq hpos hrange (List.range 16) _ q
  · exact (State.reg_congr (hparts.regs rfl) q d i j).trans (hregs q d i j hhead hstat)
  · have hstart : Within [.regs, .rings, .descs, .nextSeq, .arb] _ ((s.fetch r).1.markStarted s.nextSeq) :=
      markStarted_fetch s r
    exact (hstart.mono (b := [.regs, .rings, .descs, .nextSeq, .arb, .dmaq]) rfl).trans (hparts.mono rfl)

end Sys2Proof
end

section
/-! SUPPORT. What a chunk of a transfer moves, compares or reports (R26, R290, R305 to R307). -/

namespace Sys2Proof.Machine

/-! ### Writes of bytes alone -/

/-- From `s` to `t` bytes are written at an address field, and no other byte of either memory. -/
structure Puts (s t : State) (a : Nat) (bs : List Byte) : Prop where
  read : t.anyRead a bs.length = bs
  device : isHost a = false →
    t.hostMem = s.hostMem ∧ ∀ j, j < a ∨ a + bs.length ≤ j → t.devRead j 1 = s.devRead j 1
  host : isHost a = true → t.mem = s.mem ∧ ∀ j, j < hostAddr a ∨ hostAddr a + bs.length ≤ j →
    memByte hostDefault t.hostMem j = memByte hostDefault s.hostMem j

namespace Puts

variable {s t u : State} {a : Nat} {bs : List Byte}

theorem of_anyWrite (hm : t.mem = (s.anyWrite a bs).mem) (hh : t.hostMem = (s.anyWrite a bs).hostMem)
    (hs : t.scrambled = s.scrambled) : Puts s t a bs := by
  have hsw : t.scrambled = (s.anyWrite a bs).scrambled := hs.trans (State.anyWrite_scrambled ..).symm
  refine ⟨(anyRead_congr _ t hm hh hsw a _).trans (anyRead_write_self s a bs), fun hdev => ?_, fun hhost => ?_⟩
  · obtain ⟨hsame, hrest⟩ := anyWrite_dev s a bs hdev
    exact ⟨hh.trans hsame, fun j hj => (devRead_congr hm hsw j 1).trans (hrest j hj)⟩
  · obtain ⟨hsame, hrest⟩ := anyWrite_host s a bs hhost
    exact ⟨hm.trans hsame, fun j hj => (congrArg (fun m => memByte hostDefault m j) hh).trans (hrest j hj)⟩

/-- What stood before a step that leaves the memories alone stands before the write too. -/
theorem after (h : Puts t u a bs) (hm : t.mem = s.mem) (hh : t.hostMem = s.hostMem) (hs : t.scrambled = s.scrambled) :
    Puts s u a bs where
  read := h.read
  device hdev := ⟨(h.device hdev).1.trans hh, fun j hj => ((h.device hdev).2 j hj).trans (devRead_congr hm hs j 1)⟩
  host hhost := ⟨(h.host hhost).1.trans hm, fun j hj => by rw [(h.host hhost).2 j hj, hh]⟩

end Puts

/-- The bytes of a chunk are written while no open collective guards an area. -/
theorem putSide_puts {s : State} (q : QueueId) (n : CtxId) (a : Nat) (bs : List Byte)
    (hfree : s.colls.flatMap (fun c => c.guards) = []) : Puts s (s.putSide q n a bs) a bs ∧
      Within [.regs, .mem, .hostMem, .bad, .acct] s (s.putSide q n a bs) := by
  unfold State.putSide
  cases hh : isHost a with
  | true =>
    rw [if_pos rfl]
    exact ⟨.of_anyWrite rfl rfl (State.anyWrite_scrambled ..), (State.anyWrite_within s a bs).mono rfl⟩
  | false =>
    have hmem : (s.anyWrite a bs).mem = memWrite s.devDefault s.mem a bs ∧ (s.anyWrite a bs).hostMem = s.hostMem := by
      unfold State.anyWrite
      rw [hh]
      exact ⟨rfl, rfl⟩
    rw [if_neg (by decide), chargeBytes_frame, putBytes_plain s a bs hfree]
    exact ⟨.of_anyWrite hmem.1.symm hmem.2.symm rfl, rfl⟩

/-! ### The ranges of a chunk, and its fault -/

def Desc.chunkLen (x : Desc) (j : Nat) : Nat := min 65536 (x.dmaLen - 65536 * j)
def Desc.chunkSrc (x : Desc) (j : Nat) : Nat := x.dmaSrc + 65536 * j
def Desc.chunkDst (x : Desc) (j : Nat) : Nat := x.dmaDst + 65536 * j

/-- The fault of a chunk: of its source first, then of its destination. -/
def State.chunkFault (s : State) (x : Desc) (j : Nat) : Option (Byte × Nat) :=
  firstSome [
    if x.readsSrc then s.sideFault (ringCtx x.ring) false (x.chunkSrc j) (x.chunkLen j) else none,
    s.sideFault (ringCtx x.ring) (x.ty != 0x04) (x.chunkDst j) (x.chunkLen j)]

/-- With no fault of the source a chunk's fault is that of its destination. -/
theorem chunkFault_dst {s : State} {x : Desc} {j : Nat}
    (h : x.readsSrc = true → s.sideFault (ringCtx x.ring) false (x.chunkSrc j) (x.chunkLen j) = none) :
    s.chunkFault x j = s.sideFault (ringCtx x.ring) (x.ty != 0x04) (x.chunkDst j) (x.chunkLen j) := by
  have hsrc : (if x.readsSrc then s.sideFault (ringCtx x.ring) false (x.chunkSrc j) (x.chunkLen j) else none) = none := by
    split
    next hr => exact h hr
    next => rfl
  unfold State.chunkFault
  rw [hsrc]
  cases s.sideFault (ringCtx x.ring) (x.ty != 0x04) (x.chunkDst j) (x.chunkLen j) <;> rfl

theorem chunkFault_congr {s t : State} (h : SameReads s t) (hp : t.plans = s.plans) (x : Desc) (j : Nat) :
    t.chunkFault x j = s.chunkFault x j := by
  unfold State.chunkFault State.sideFault
  simp only [readFault_congr s t h.jobMay h.bad, writeFault_congr s t h.jobMay h.bad hp]

/-! ### COPY and FILL -/

/-- The bytes that a COPY or FILL moves with a chunk. -/
def State.chunkBytes (s : State) (x : Desc) (j : Nat) : List Byte :=
  if x.ty = 0x02 then s.anyRead (x.chunkSrc j) (x.chunkLen j) else patternAt x.dmaPattern (x.chunkDst j) (x.chunkLen j)

theorem chunkBytes_length (s : State) (x : Desc) (j : Nat) : (s.chunkBytes x j).length = x.chunkLen j := by
  unfold State.chunkBytes
  split
  · exact anyRead_length ..
  · simp [patternAt, tab]

/-- What the read of one side of a chunk counts. -/
def State.readSide (s : State) (q : QueueId) (n : CtxId) (a len : Nat) (ce : List Nat) : State :=
  (s.countSide q n a len).sideCe a len ce

theorem readSide_within (s : State) (q : QueueId) (n : CtxId) (a len : Nat) (ce : List Nat) :
    Within [.regs, .mcs, .dies, .cores, .acct] s (s.readSide q n a len ce) :=
  (State.sideCe_keeps rfl (State.countSide_keeps rfl (Keeps.refl _ s))).rest

/-- A COPY's or FILL's chunk without a fault. -/
def chunkMove (q : QueueId) (x : Desc) (j : Nat) (ce : List Nat) (s : State) : State :=
  ((if x.ty = 0x02 then s.readSide q (ringCtx x.ring) (x.chunkSrc j) (x.chunkLen j) ce else s).putSide q (ringCtx x.ring)
    (x.chunkDst j) (s.chunkBytes x j)).bump .dmaQBytes (qDie q).val (qNum q) (x.chunkLen j)

theorem chunkMove_puts {s : State} (q : QueueId) (x : Desc) (j : Nat) (ce : List Nat)
    (hfree : s.colls.flatMap (fun c => c.guards) = []) : Puts s (chunkMove q x j ce s) (x.chunkDst j) (s.chunkBytes x j) ∧
      Within [.regs, .mem, .hostMem, .bad, .mcs, .dies, .cores, .acct] s (chunkMove q x j ce s) := by
  have hread : Within [.regs, .mcs, .dies, .cores, .acct] s
      (if x.ty = 0x02 then s.readSide q (ringCtx x.ring) (x.chunkSrc j) (x.chunkLen j) ce else s) := by
    split
    · exact readSide_within ..
    · exact .refl _ s
  obtain ⟨hputs, hwithin⟩ := putSide_puts q (ringCtx x.ring) (x.chunkDst j) (s.chunkBytes x j) (hread.colls rfl ▸ hfree)
  have hputs := hputs.after (hread.mem rfl) (hread.hostMem rfl) (hread.scrambled rfl)
  exact ⟨⟨hputs.read, hputs.device, hputs.host⟩, (hread.mono rfl).trans ((hwithin.mono rfl).trans rfl)⟩

/-! ### COMPARE -/

/-- The offsets at which a COMPARE's chunk differs. -/
def State.chunkDiffs (s : State) (x : Desc) (j : Nat) : List Nat :=
  diffs (if x.readsSrc then s.anyRead (x.chunkSrc j) (x.chunkLen j) else patternAt x.dmaPattern (x.chunkDst j) (x.chunkLen j))
    (s.anyRead (x.chunkDst j) (x.chunkLen j))

/-- What the reads of a COMPARE's chunk count. -/
def chunkCounted (q : QueueId) (x : Desc) (j : Nat) (ce : List Nat) (s : State) : State :=
  (if x.readsSrc then s.readSide q (ringCtx x.ring) (x.chunkSrc j) (x.chunkLen j) ce else s).readSide q (ringCtx x.ring)
    (x.chunkDst j) (x.chunkLen j) ce

theorem chunkCounted_within (q : QueueId) (x : Desc) (j : Nat) (ce : List Nat) (s : State) :
    Within [.regs, .mcs, .dies, .cores, .acct] s (chunkCounted q x j ce s) := by
  refine Within.trans ?_ (readSide_within ..)
  split
  · exact readSide_within ..
  · exact .refl _ s

/-- A COMPARE's chunk without a fault. -/
def chunkCompare (q : QueueId) (x : Desc) (part j : Nat) (ce : List Nat) (s : State) : State :=
  noteDiffs x part (65536 * j) ((chunkCounted q x j ce s).chunkDiffs x j) (chunkCounted q x j ce s)

theorem chunkDiffs_congr {s t : State} (hm : t.mem = s.mem) (hh : t.hostMem = s.hostMem) (hs : t.scrambled = s.scrambled)
    (x : Desc) (j : Nat) : t.chunkDiffs x j = s.chunkDiffs x j := by
  unfold State.chunkDiffs
  simp only [anyRead_congr s t hm hh hs]

theorem chunkCompare_eq (q : QueueId) (x : Desc) (part j : Nat) (ce : List Nat) (s : State) : chunkCompare q x part j ce s =
    noteDiffs x part (65536 * j) (s.chunkDiffs x j) (chunkCounted q x j ce s) := by
  have hread := chunkCounted_within q x j ce s
  unfold chunkCompare
  rw [chunkDiffs_congr (hread.mem rfl) (hread.hostMem rfl) (hread.scrambled rfl)]

/-! ### The effect of a chunk -/

/-- A chunk raises its fault, or else compares or moves. -/
theorem chunkEffect_eq (q : QueueId) (x : Desc) (part j : Nat) (ce : List Nat) (s : State) : chunkEffect q x part j ce s =
    (s.chunkFault x j).elim (if x.ty = 0x04 then chunkCompare q x part j ce s else chunkMove q x j ce s)
      (fun f => s.raise f.1 (qDie q).val [ringCtx x.ring] f.2) := by
  unfold chunkEffect State.chunkFault
  dsimp only [Desc.chunkRange, Desc.chunkSrc, Desc.chunkDst, Desc.chunkLen]
  generalize firstSome _ = f
  cases f <;> rfl

/-- What a queue works on is its first part, of a descriptor in flight. -/
theorem dmaFront_desc {s : State} {q : QueueId} {p : DmaPart} {x : Desc} {j : Nat} (h : s.dmaFront q = some (p, x, j)) :
    s.desc x.seq = some x ∧ x.seq = p.seq := by
  have hdesc : s.desc p.seq = some x := by
    unfold State.dmaFront at h
    split at h
    · split at h
      · split at h
        · split at h
          · cases h
          · simp only [Option.some.injEq, Prod.mk.injEq] at h
            obtain ⟨rfl, rfl, -⟩ := h
            assumption
        · cases h
      · cases h
    · cases h
  have hseq : x.seq = p.seq := by simpa using List.find?_some hdesc
  exact ⟨hseq ▸ hdesc, hseq⟩

theorem exec_dmaChunkDone {s : State} {q : QueueId} {p : DmaPart} {x : Desc} {j : Nat} (parity : Nat) (ce : List Nat)
    (h : s.dmaFront q = some (p, x, j)) :
    exec (.dmaChunkDone q parity ce) s = .next (dmaChunkDone q p x j parity ce s) := by
  show execDmaChunkDone q parity s ce = _
  unfold execDmaChunkDone
  rw [h]

/-- The count of parity mismatches of a chunk. -/
def State.checkCounted (s : State) (q : QueueId) (parity : Nat) : State :=
  s.bump .dmaCheckCount (qDie q).val 0 (min parity 2)

theorem checkCounted_sameReads (s : State) (q : QueueId) (parity : Nat) : SameReads s (s.checkCounted q parity) :=
  SameReads.bump s rfl _ _ _

/-- With more chunks to do, a part goes on with the next. -/
theorem dmaChunkDone_goesOn (q : QueueId) {p : DmaPart} (x : Desc) (j : Nat) {parity : Nat} (ce : List Nat) (s : State)
    (hparity : parity < 2) (hmore : 2 ≤ p.chunks.length) : ∃ l, dmaChunkDone q p x j parity ce s =
      (chunkEffect q x p.part j ce (s.checkCounted q parity)).setDq q ({ p with chunks := p.chunks.drop 1, busy := false } :: l) ∧
      l = (s.dq q).drop 1 := by
  have hrest : (p.chunks.drop 1).isEmpty = false := by
    rw [List.isEmpty_eq_false_iff, ← List.length_pos_iff, List.length_drop]
    omega
  have hdmaq : (chunkEffect q x p.part j ce (s.checkCounted q parity)).dmaq = s.dmaq :=
    (chunkEffect_keeps (ps := [.reports, .acct, .regs, .mcs, .dies, .cores, .descs, .hostMem, .mem, .free, .bad]) rfl
      (Keeps.refl _ _)).rest.dmaq rfl
  refine ⟨_, ?_, by rw [← show (chunkEffect q x p.part j ce (s.checkCounted q parity)).dq q = s.dq q by
    rw [State.dq, hdmaq]; rfl]⟩
  unfold dmaChunkDone
  rw [if_neg (by omega)]
  simp only [hrest, Bool.false_eq_true, if_false]
  rfl

/-! ### A queue whose parity check fails -/

theorem movePart_fns (q : QueueId) (p : DmaPart) (s : State) : (movePart q p s).fns = s.fns :=
  (movePart_keeps (ps := [.dmaq, .regs, .free, .hostMem, .mem, .descs, .trcTok, .acct, .bad, .trcSeq, .trcDrop]) rfl
    (Keeps.refl _ s)).rest.fns rfl

theorem queueFail_off (q : QueueId) (p : DmaPart) (x : Desc) (s : State) : ((queueFail q p x s).fn (.dmaq q)).st = .off := by
  have hmoved : ∀ u : State, ((u.dq q).foldl (fun s z => movePart q z s) u).fns = u.fns := fun u =>
    foldl_same State.fns _ _ u fun t z => movePart_fns q z t
  unfold queueFail
  rw [State.fn_congr (dmaRetry_fns _), State.fn_congr (State.degraded_fns ..), State.fn_congr (hmoved _), State.setFn_self]
  rfl

theorem dmaChunkDone_parityFails (q : QueueId) (p : DmaPart) (x : Desc) (j : Nat) {parity : Nat} (ce : List Nat) (s : State)
    (h : 2 ≤ parity) : dmaChunkDone q p x j parity ce s = queueFail q p x (s.checkCounted q parity) := by
  unfold dmaChunkDone
  exact if_pos h

/-! ### A host read that fails -/

theorem exec_dmaHostReadError {s : State} {q : QueueId} {p : DmaPart} {x : Desc} {j : Nat} (fail : ReadFail)
    (h : s.dmaFront q = some (p, x, j)) (hread : x.readsHost = true) :
    exec (.dmaHostReadError q fail) s = .next (failPart q p x s) := by
  show execDmaHostReadError q fail s = _
  unfold execDmaHostReadError
  rw [h]
  simp only [hread, if_true]

/-- A COMPARE's part that fails is marked in its descriptor and leaves its queue. -/
theorem failPart_compare (q : QueueId) (p : DmaPart) {x : Desc} {s : State} (hx : s.desc x.seq = some x) (hty : x.ty = 0x04) :
    let t := failPart q p x s
    (t.desc x.seq).map (fun y => y.failed) = some (x.failed ||| BitVec.ofNat 16 (2 ^ p.part)) ∧
      t.dq q = (s.dq q).filter (fun z => !(z.seq == p.seq && z.part == p.part)) ∧ (∀ r, r ≠ q → t.dq r = s.dq r) := by
  have hscramble : scramblePart x p.part s = s := by
    unfold scramblePart
    exact if_pos hty
  have hdesc := modDesc_self (s := s.bump .dmaPartFail (qDie q).val 0 1)
    (fun y => { y with failed := y.failed ||| BitVec.ofNat 16 (2 ^ p.part) }) hx
  unfold failPart endPart
  rw [hscramble]
  refine ⟨?_, ?_, fun r hr => ?_⟩
  · rw [State.desc, State.traceRec_descs]
    exact congrArg (Option.map _) hdesc
  · rw [State.dq, State.traceRec_dmaq]
    exact State.setDq_self ..
  · rw [State.dq, State.traceRec_dmaq]
    exact State.setDq_other _ _ hr

/-! ### Completion -/

/-- A descriptor in flight has one type. -/
theorem started_other {s : State} {q ty k : Nat} {x : Desc} (h : s.started q ty = some x) (hk : k ≠ ty) :
    s.started q k = none := by
  obtain ⟨hx, -, hty⟩ := started_some h
  unfold State.started
  rw [hx]
  simp [Option.filter, hty, Ne.symm hk]

theorem exec_dmaComplete {s : State} {seq : Nat} {x : Desc} (hty : x.ty ∈ [0x02, 0x03, 0x04])
    (hx : s.started seq x.ty = some x) (hdone : s.dmaOpen seq = false)
    (hhost : x.ty = 0x04 → isHost x.dmaResult = true) : exec (.dmaComplete seq) s = .next (dmaComplete x s) := by
  have hfind : ((s.started seq 0x02).orElse fun _ => (s.started seq 0x03).orElse fun _ => s.started seq 0x04) = some x := by
    simp only [List.mem_cons, List.not_mem_nil, or_false] at hty
    obtain h | h | h := hty <;> rw [h] at hx
    · rw [hx]
      rfl
    · rw [hx, started_other hx (by decide)]
      rfl
    · rw [hx, started_other hx (by decide), started_other hx (by decide)]
      rfl
  have hside : (x.ty == 0x04 && !s.sideRuns none x.dmaResult 16) = false := by
    by_cases h : x.ty = 0x04
    · simp [State.sideRuns, hhost h]
    · simp [h]
  show execDmaComplete seq s = _
  unfold execDmaComplete
  rw [hfind]
  simp only [hdone, hside, Bool.or_self, Bool.false_eq_true, if_false]

/-- A COMPARE writes its findings to host memory and completes. -/
theorem dmaComplete_compare {s : State} {x : Desc} (hty : x.ty = 0x04) (hhost : isHost x.dmaResult = true) :
    dmaComplete x s = (s.anyWrite x.dmaResult x.cmpBlock).complete x.seq x.dmaStatus.1 x.dmaStatus.2 := by
  unfold dmaComplete
  simp only [hty, if_true, hubWrite_host s _ _ hhost]

theorem dmaComplete_moves {s : State} {x : Desc} (hty : x.ty ≠ 0x04) :
    dmaComplete x s = s.complete x.seq x.dmaStatus.1 x.dmaStatus.2 := by
  unfold dmaComplete
  simp only [hty, if_false]

/-- A SILENT descriptor that completes leaves flight with its status quadword written. -/
theorem complete_silent {s : State} {x : Desc} (hx : s.desc x.seq = some x) (hopen : x.st ≠ .done)
    (hsilent : leAt x.bytes 1 1 % 2 = 1) (hclear : Clear s (s.slotAddr x.ring x.slot + 0x38) 8) (st : Byte) (dt : W16) :
    let t := s.complete x.seq st dt
    t.anyRead (s.slotAddr x.ring x.slot + 0x38) 8 = toLe 8 (statusWord st dt s.now) ∧ t.desc x.seq = none := by
  obtain ⟨hframe, hread, -⟩ := silent_facts s x.seq st dt x hx hopen hsilent hclear
  refine ⟨hread, ?_⟩
  rw [hframe]
  exact find_filter_gone _ _

/-- The same with bytes written to host memory first. -/
theorem hostWrite_complete_silent {s : State} {x : Desc} (hx : s.desc x.seq = some x) (hopen : x.st ≠ .done)
    (hsilent : leAt x.bytes 1 1 % 2 = 1) (hclear : Clear s (s.slotAddr x.ring x.slot + 0x38) 8) (a : Nat) (bs : List Byte)
    (st : Byte) (dt : W16) : let t := (s.anyWrite a bs).complete x.seq st dt
    t.anyRead (s.slotAddr x.ring x.slot + 0x38) 8 = toLe 8 (statusWord st dt s.now) ∧ t.desc x.seq = none := by
  have haddr : (s.anyWrite a bs).slotAddr x.ring x.slot = s.slotAddr x.ring x.slot :=
    State.slotAddr_congr (State.reg_congr (State.anyWrite_regs ..) ..) _
  have hx' : (s.anyWrite a bs).desc x.seq = some x := by
    rw [State.desc, State.anyWrite_descs]
    exact hx
  have h := complete_silent hx' hopen hsilent
    (haddr ▸ clear_congr (State.anyWrite_bad ..) (State.anyWrite_colls ..) hclear) st dt
  rw [haddr, State.anyWrite_now] at h
  exact h

theorem cmpBlock_length (x : Desc) : x.cmpBlock.length = 16 := by
  unfold Desc.cmpBlock
  rw [List.length_append, toLe_length, toLe_length]

end Sys2Proof.Machine
end

section
/-! PROOFS. DmaWork. -/

namespace Sys2Proof

open Machine

/-- A chunk that its part goes on after: what it moves, what it finds, or the fault that it raises. -/
theorem dmaChunkDone_settles {s : State} {q : QueueId} {p : DmaPart} {x : Desc} {j parity : Nat} (ce : List Nat)
    (hfront : s.dmaFront q = some (p, x, j)) (hparity : parity < 2) (hmore : 2 ≤ p.chunks.length)
    (hfree : s.colls.flatMap (fun c => c.guards) = []) : let t := dmaChunkDone q p x j parity ce s
    (t.dq q = { p with chunks := p.chunks.drop 1, busy := false } :: (s.dq q).drop 1 ∧ ∀ r, r ≠ q → t.dq r = s.dq r) ∧
    (x.ty ≠ 0x04 → s.chunkFault x j = none → Puts s t (x.chunkDst j) (s.chunkBytes x j) ∧
      Within [.regs, .mem, .hostMem, .bad, .dmaq, .mcs, .dies, .cores, .acct] s t) ∧
    (x.ty = 0x04 → s.chunkFault x j = none →
      (s.chunkDiffs x j = [] → Within [.regs, .dmaq, .mcs, .dies, .cores, .acct] s t) ∧
      (∀ i rest, s.chunkDiffs x j = i :: rest → t.desc x.seq = some { x with
          cmpFirst := some (min (65536 * j + i) (x.cmpFirst.getD (65536 * j + i)))
          cmpCount := x.cmpCount + (s.chunkDiffs x j).length, mism := x.mism ||| BitVec.ofNat 16 (2 ^ p.part) } ∧
        Within [.regs, .dmaq, .descs, .mcs, .dies, .cores, .acct] s t)) ∧
    (∀ c a, s.chunkFault x j = some (c, a) → t = { s with
      regs := t.regs, dmaq := t.dmaq
      reports := s.reports ++ [{ cause := c, die := (qDie q).val, ctxs := [ringCtx x.ring], addr := a % 2 ^ 48 }] }) := by
  obtain ⟨hx, -⟩ := dmaFront_desc hfront
  obtain ⟨l, ht, hl⟩ := dmaChunkDone_goesOn q x j ce s hparity hmore
  have hsame := checkCounted_sameReads s q parity
  have hcount : Within [.regs] s (s.checkCounted q parity) := rfl
  have hbytes : (s.checkCounted q parity).chunkBytes x j = s.chunkBytes x j := rfl
  have hdiffs : (s.checkCounted q parity).chunkDiffs x j = s.chunkDiffs x j := rfl
  have hdmaq : ∀ r, (chunkEffect q x p.part j ce (s.checkCounted q parity)).dq r = s.dq r := fun r =>
    congrArg (fun m => SMap.getD m r.val []) ((chunkEffect_keeps (ps := [.reports, .acct, .regs, .mcs, .dies, .cores, .descs,
      .hostMem, .mem, .free, .bad]) rfl (Keeps.refl _ (s.checkCounted q parity))).rest.dmaq rfl)
  rw [chunkEffect_eq, chunkFault_congr hsame rfl] at ht hdmaq
  subst hl
  dsimp only
  rw [ht]
  refine ⟨⟨State.setDq_self .., fun r hr => (State.setDq_other _ _ hr).trans (hdmaq r)⟩, fun hty hfault => ?_,
    fun hty hfault => ?_, fun c a hfault => ?_⟩ <;> rw [hfault]
  · obtain ⟨hputs, hwithin⟩ := chunkMove_puts q x j ce (s := s.checkCounted q parity) hfree
    rw [Option.elim, if_neg hty]
    have hputs := hputs.after (s := s) rfl rfl rfl
    exact ⟨⟨hputs.read, hputs.device, hputs.host⟩, (hcount.mono rfl).trans ((hwithin.mono rfl).trans rfl)⟩
  · have hread := chunkCounted_within q x j ce (s.checkCounted q parity)
    rw [Option.elim, if_pos hty, chunkCompare_eq, hdiffs]
    refine ⟨fun hnone => ?_, fun i rest hsome => ?_⟩
    · rw [hnone]
      exact (hcount.mono rfl).trans ((hread.mono rfl).trans rfl)
    · rw [hsome]
      have hx' : (chunkCounted q x j ce (s.checkCounted q parity)).desc x.seq = some x := by
        rw [State.desc, hread.descs rfl]
        exact hx
      exact ⟨modDesc_self _ hx', (hcount.mono rfl).trans ((hread.mono rfl).trans rfl)⟩
  · rw [Option.elim, State.raise_die _ _ (qDie q).isLt]
    rfl

/-- Settles O26: a chunk moves, compares or raises its fault after the count of parity checks, and the rest of what a queue
does to its first part follows its branches. -/
theorem dmaWork : Obligations.DmaWork := by
  unfold Obligations.DmaWork
  refine ⟨?_, ?_, ?_, ?_⟩
  · intro s q p x j parity ce hfront hparity hmore hfree off len dst src n
    obtain ⟨⟨hq, hothers⟩, hmove, hcompare, hraise⟩ := dmaChunkDone_settles ce hfront hparity hmore hfree
    refine ⟨_, exec_dmaChunkDone parity ce hfront, hq, hothers, fun hty hsrc hdst => ?_, fun hty hsrc hdst => ?_,
      fun c a hdst hsrc => hraise c a ((chunkFault_dst hsrc).trans hdst)⟩
    · have hne : x.ty ≠ 0x04 := by omega
      have hsrc' : x.readsSrc = true → s.sideFault n false src len = none := fun hr =>
        hsrc (by simpa [Desc.readsSrc, hne] using hr)
      have hw : (x.ty != 0x04) = true := by simpa using hne
      obtain ⟨hputs, hframe⟩ := hmove hne ((chunkFault_dst hsrc').trans (hw ▸ hdst))
      obtain ⟨hread, hdevice, hhost⟩ := hputs
      rw [chunkBytes_length] at hread hdevice hhost
      exact ⟨hread, hdevice, hhost, hframe⟩
    · have hw : (x.ty != 0x04) = false := by simp [hty]
      obtain ⟨hnone, hsome⟩ := hcompare hty ((chunkFault_dst hsrc).trans (hw ▸ hdst))
      exact ⟨hnone, hsome⟩
  · intro s q p x j parity ce hfront hparity
    refine ⟨_, exec_dmaChunkDone parity ce hfront, ?_⟩
    rw [dmaChunkDone_parityFails q p x j ce s hparity]
    exact queueFail_off ..
  · intro s q p x j fail hfront hread hty
    obtain ⟨hx, -⟩ := dmaFront_desc hfront
    exact ⟨_, exec_dmaHostReadError fail hfront hread, failPart_compare q p hx hty⟩
  · intro s seq x hty hx hdone hhost slot hclear sd
    obtain ⟨hdesc, hst, -⟩ := started_some hx
    obtain rfl : x.seq = seq := by simpa using List.find?_some hdesc
    have hopen : x.st ≠ .done := by
      rw [hst]
      decide
    refine ⟨_, exec_dmaComplete hty hx hdone hhost, ?_⟩
    by_cases h4 : x.ty = 0x04
    · rw [dmaComplete_compare h4 (hhost h4)]
      refine ⟨complete_isDone .., fun hsilent => ?_⟩
      obtain ⟨hstatus, hgone⟩ := hostWrite_complete_silent hdesc hopen hsilent hclear x.dmaResult x.cmpBlock
        x.dmaStatus.1 x.dmaStatus.2
      refine ⟨hstatus, hgone, fun _ hdev => ?_⟩
      obtain ⟨hread, -⟩ :=
        hostWrite_complete hdesc hopen hsilent (hhost h4) hdev hclear x.cmpBlock x.dmaStatus.1 x.dmaStatus.2
      rw [cmpBlock_length] at hread
      exact hread
    · rw [dmaComplete_moves h4]
      refine ⟨complete_isDone .., fun hsilent => ?_⟩
      obtain ⟨hstatus, hgone⟩ := complete_silent hdesc hopen hsilent hclear x.dmaStatus.1 x.dmaStatus.2
      exact ⟨hstatus, hgone, fun h => absurd h h4⟩

end Sys2Proof
end

section
/-! SUPPORT. Registers of the memory controllers: which operations leave them alone (Table 17 of *Memory and DMA*). -/

namespace Sys2Proof.Machine

/-- The registers of a memory controller that scrub, retirement, lane repair and retraining use, and its byte counters. -/
def mcRegs : List RegId :=
  [.mcStatus, .mcEccCe, .mcEccUe, .mcUeAddr, .mcScrubPass, .mcRetire, .mcMigrate, .mcLaneRepair, .mcRetrain, .mcRdBytes,
   .mcWrBytes]

theorem mcRegs_row : ∀ q ∈ mcRegs, q.row.die = true ∧ q.row.s1 = 0x4000 ∧ 0x60000 ≤ q.row.base ∧ q.row.base < 0x61000 := by
  decide

theorem mcRegs_base : ∀ q ∈ mcRegs, ∀ r ∈ mcRegs, q ≠ r → q.row.base ≠ r.row.base := by decide

theorem mcReg_off {q : RegId} (hq : q ∈ mcRegs) (d i : Nat) :
    q.off d i 0 = 0x100000 * (d + 1) + (q.row.base + i * 0x4000) := by
  obtain ⟨hdie, hstride, -⟩ := mcRegs_row q hq
  rw [off_die hdie, RegId.rel, hstride, Nat.zero_mul]
  rfl

/-- Two registers of controllers are different ones, whichever their controllers are. -/
theorem mcReg_ne {q r : RegId} (hq : q ∈ mcRegs) (hr : r ∈ mcRegs) (h : q ≠ r) (d i e k : Nat) :
    q.off d i 0 ≠ r.off e k 0 := by
  obtain ⟨-, -, hq1, hq2⟩ := mcRegs_row q hq
  obtain ⟨-, -, hr1, hr2⟩ := mcRegs_row r hr
  have hbase := mcRegs_base q hq r hr h
  rw [mcReg_off hq, mcReg_off hr]
  omega

theorem mcReg_ne_hub {q r : RegId} {i' j' : Nat} (hq : q ∈ mcRegs) (hr : r.row.die = false) (lr : r.rel i' j' < 0x100000)
    (d i : Nat) : q.off d i 0 ≠ r.off 0 i' j' := by
  obtain ⟨hdie, -⟩ := mcRegs_row q hq
  exact off_ne_hub hdie hr lr d i 0 0

/-- No trace record touches a register of a controller but its byte counters. -/
theorem untraced_mc {q : RegId} (hq : q ∈ mcRegs) (hrd : q ≠ .mcRdBytes) (hwr : q ≠ .mcWrBytes) (d : Nat) (m : Mc) :
    Untraced q d m.val 0 := by
  obtain ⟨hdie, hstride, h1, h2⟩ := mcRegs_row q hq
  have hm := m.isLt
  have hrel : q.rel m.val 0 = q.row.base + m.val * 0x4000 := by rw [RegId.rel, hstride, Nat.zero_mul, Nat.add_zero]
  refine untraced_die hdie (by omega) ?_ ?_ fun e k =>
    ⟨mcReg_ne hq (by decide) hwr _ _ _ _, mcReg_ne hq (by decide) hrd _ _ _ _, ?_, ?_⟩
  · rw [hrel, show RegId.rel .trdRecords 0 0 = 0xB0018 from rfl]
    omega
  · rw [hrel, show RegId.rel .trdLost 0 0 = 0xB0020 from rfl]
    omega
  · rw [mcReg_off hq, off_die (r := .galWrBytes) rfl, show RegId.rel .galWrBytes 0 0 = 0x40020 from rfl]
    omega
  · rw [mcReg_off hq, off_die (r := .galRdBytes) rfl, show RegId.rel .galRdBytes 0 0 = 0x40018 from rfl]
    omega

theorem repairedAt_mc (s : State) (time p k die u x a l : Nat) (last : Bool) {q : RegId} (hq : q ∈ mcRegs)
    (hrd : q ≠ .mcRdBytes) (hwr : q ≠ .mcWrBytes) (d : Nat) (m : Mc) :
    (s.repairedAt time p k die u x a l last).reg q d m.val 0 = s.reg q d m.val 0 :=
  State.repairedAt_reg s _ _ _ _ _ _ _ _ _ (mcReg_ne_hub hq rfl (by decide +kernel) _ _)
    (mcReg_ne_hub hq rfl (by decide +kernel) _ _)
    (untraced_mc hq hrd hwr d m)

theorem degraded_mc (s : State) (k die u x pm a l : Nat) {q : RegId} (hq : q ∈ mcRegs) (d i : Nat) :
    (s.degraded k die u x pm a l).reg q d i 0 = s.reg q d i 0 :=
  State.degraded_reg s _ _ _ _ _ _ _ (mcReg_ne_hub hq rfl (by decide +kernel) _ _) (mcReg_ne_hub hq rfl (by decide +kernel) _ _)

/-- An uncorrectable codeword counts, and its address is kept, in two registers of its controller. -/
theorem countUe_mc (s : State) (a : Nat) {q : RegId} (hq : q ∈ mcRegs) (hcount : q ≠ .mcEccUe) (haddr : q ≠ .mcUeAddr)
    (d i : Nat) : (s.countUe a).reg q d i 0 = s.reg q d i 0 :=
  (State.setReg_other _ _ (mcReg_ne hq (by decide) haddr _ _ _ _)).trans
    (State.bump_other s 1 (mcReg_ne hq (by decide) hcount _ _ _ _))

/-- A field reads back what fits it of what was stored. -/
theorem fld_setFld_mod (v : W64) {hi lo : Nat} (x : Nat) (hl : lo ≤ hi) (hh : hi < 64) :
    fld (setFld v hi lo x) hi lo = x % 2 ^ (hi + 1 - lo) := by
  have hmod : setFld v hi lo x = setFld v hi lo (x % 2 ^ (hi + 1 - lo)) := by
    unfold setFld setBits
    rw [Nat.mod_mod]
  rw [hmod]
  exact fld_setFld_self v hl hh (Nat.mod_lt _ (Nat.two_pow_pos _))

theorem State.setRegFld_mod (s : State) (r : RegId) (d i j : Nat) {hi lo : Nat} (x : Nat) (hl : lo ≤ hi) (hh : hi < 64) :
    (s.setRegFld r d i j hi lo x).regFld r d i j hi lo = x % 2 ^ (hi + 1 - lo) := by
  rw [State.regFld, State.setRegFld, State.modReg_self]
  exact fld_setFld_mod _ x hl hh

theorem State.mc_congr {s t : State} (h : t.mcs = s.mcs) (d : Die) (m : Mc) : t.mc d m = s.mc d m := by
  rw [State.mc, h]
  rfl

end Sys2Proof.Machine
end

section
/-! SUPPORT. Scrub reads: the codeword met, and the end of a pass (R289, R290, R292). -/

namespace Sys2Proof.Machine

/-! ### The codeword met -/

theorem countHbmCe_counts (s : State) (a : Nat) :
    (s.countHbmCe a).reg .mcEccCe ((s.rowAt a).1 / 4 % 8) ((s.rowAt a).1 % 4) 0 =
      s.reg .mcEccCe ((s.rowAt a).1 / 4 % 8) ((s.rowAt a).1 % 4) 0 + 1 := by
  unfold State.countHbmCe
  exact State.bump_wide s .mcEccCe _ _ 1 rfl

theorem countUe_counts (s : State) (a : Nat) :
    (s.countUe a).reg .mcEccUe (s.stackOf a / 4) (s.stackOf a % 4) 0 =
      s.reg .mcEccUe (s.stackOf a / 4) (s.stackOf a % 4) 0 + 1 :=
  (State.setReg_other _ _ (mcReg_ne (by decide) (by decide) (by decide) _ _ _ _)).trans
    (State.bump_wide s .mcEccUe _ _ 1 rfl)

/-- What a scrub read's codeword counts, an uncorrectable one met before with it. -/
def scrubMet (c : Nat) (found : ScrubFind) (s : State) : State :=
  match (if s.bad.contains c then .uncorrectable else found) with
  | .clean => s
  | .corrected => s.countHbmCe c
  | .uncorrectable => { s.countUe c with bad := if s.bad.contains c then s.bad else s.bad ++ [c] }

section
variable {s : State} {c : Nat} {found : ScrubFind}

theorem scrubMet_clean (h : found = .clean) (hc : c ∉ s.bad) : scrubMet c found s = s := by
  unfold scrubMet
  rw [if_neg (by simpa using hc), h]

theorem scrubMet_corrected (h : found = .corrected) (hc : c ∉ s.bad) : scrubMet c found s = s.countHbmCe c := by
  unfold scrubMet
  rw [if_neg (by simpa using hc), h]

theorem scrubMet_uncorrectable (h : found = .uncorrectable ∨ c ∈ s.bad) :
    scrubMet c found s = { s.countUe c with bad := if s.bad.contains c then s.bad else s.bad ++ [c] } := by
  have hmet : (if s.bad.contains c then ScrubFind.uncorrectable else found) = .uncorrectable := by
    split
    next => rfl
    next hc => exact h.resolve_right (by simpa using hc)
  unfold scrubMet
  rw [hmet]

/-- A codeword met is clean, corrected or uncorrectable. -/
theorem scrubMet_cases (c : Nat) (found : ScrubFind) (s : State) : scrubMet c found s = s ∨
    scrubMet c found s = s.countHbmCe c ∨
    scrubMet c found s = { s.countUe c with bad := if s.bad.contains c then s.bad else s.bad ++ [c] } := by
  by_cases hc : c ∈ s.bad
  · exact .inr (.inr (scrubMet_uncorrectable (.inr hc)))
  · cases found with
    | clean => exact .inl (scrubMet_clean rfl hc)
    | corrected => exact .inr (.inl (scrubMet_corrected rfl hc))
    | uncorrectable => exact .inr (.inr (scrubMet_uncorrectable (.inl rfl)))

theorem scrubMet_within (c : Nat) (found : ScrubFind) (s : State) : Within [.regs, .bad, .mcs] s (scrubMet c found s) := by
  obtain h | h | h := scrubMet_cases c found s <;> rw [h]
  · exact .refl _ s
  · exact rfl
  · exact rfl

theorem scrubMet_pass (c : Nat) (found : ScrubFind) (s : State) (d i : Nat) :
    (scrubMet c found s).reg .mcScrubPass d i 0 = s.reg .mcScrubPass d i 0 := by
  obtain h | h | h := scrubMet_cases c found s <;> rw [h]
  · exact State.bump_other s 1 (mcReg_ne (by decide) (by decide) (by decide) _ _ _ _)
  · exact countUe_mc s c (by decide) (by decide) (by decide) d i

end

/-! ### The pass -/

/-- A pass has come to a codeword. -/
def scrubMoved (d : Die) (m : Mc) (c : Nat) (s : State) : State :=
  s.modMc d m (fun x => { x with
    scrubLast := some (Config.stackAddr (stackIx d m) c)
    scrubNext := s.now + s.scrubPeriod d m / max 1 (s.scrubTotal d m) })

/-- A pass has ended. -/
def passEnds (d : Die) (m : Mc) (s : State) : State :=
  (s.bump .mcScrubPass d.val m.val 1).modMc d m (fun x => { x with scrubLast := none })

/-- A scrub read before its pass may end: the codeword met, and the pass come to it. -/
def scrubCome (d : Die) (m : Mc) (c : Nat) (found : ScrubFind) (s : State) : State :=
  scrubMoved d m c (scrubMet c found (s.account (acStack (stackIx d m)) 32))

/-- A codeword is the last of those that a pass has left. -/
def ScrubLast (s : State) (d : Die) (m : Mc) (c : Nat) : Prop :=
  ∀ w < hbmWords, s.scrubLeft d m (32 * w) = true →
    Config.stackAddr (stackIx d m) (32 * w) ≤ Config.stackAddr (stackIx d m) c

theorem scrubRead_eq (d : Die) (m : Mc) {c : Nat} (found : ScrubFind) (s : State) (hc : c / 32 * 32 = c) :
    scrubRead d m c found s = if (scrubCome d m c found s).scrubMore d m then scrubCome d m c found s
      else passEnds d m (scrubCome d m c found s) := by
  unfold scrubRead scrubCome scrubMet
  simp only [hc]
  generalize s.account (acStack (stackIx d m)) 32 = v
  generalize (if v.bad.contains c = true then ScrubFind.uncorrectable else found) = met
  cases met with
  | clean => rfl
  | corrected => rfl
  | uncorrectable => rfl

/-- Codewords are left in a pass once it has come to one, unless that was the last of those left before. -/
theorem scrubMore_moved {s v : State} {d : Die} {m : Mc} {c : Nat} (hleft : s.scrubLeft d m c = true)
    (hmap : v.regionMap = s.regionMap) : (scrubMoved d m c v).scrubMore d m = true ↔ ¬ ScrubLast s d m c := by
  have hregion : ∀ j, v.region j = s.region j := fun j => by rw [State.region, hmap]; rfl
  have hmoved : ∀ a, (scrubMoved d m c v).scrubLeft d m a = (s.hbmBacked a && s.stackOf a == stackIx d m &&
      decide (Config.stackAddr (stackIx d m) c < Config.stackAddr (stackIx d m) a)) := by
    intro a
    have hback : (scrubMoved d m c v).hbmBacked a = s.hbmBacked a := by
      unfold State.hbmBacked
      rw [← hregion]
      rfl
    have hstack : (scrubMoved d m c v).stackOf a = s.stackOf a := by
      unfold State.stackOf
      rw [← hregion]
      rfl
    unfold State.scrubLeft
    rw [hback, hstack, scrubMoved, State.modMc_self]
  unfold State.scrubMore ScrubLast
  simp only [hmoved, Bool.and_eq_true, beq_iff_eq, decide_eq_true_eq, not_forall, not_le]
  constructor
  · rintro ⟨w, hw, ⟨hback, hstack⟩, hlt⟩
    refine ⟨w, hw, ?_, hlt⟩
    unfold State.scrubLeft at hleft ⊢
    rw [hback, hstack]
    simp only [beq_self_eq_true, Bool.and_self, Bool.true_and]
    split
    next l hl =>
      rw [hl] at hleft
      simp only [Bool.and_eq_true, decide_eq_true_eq] at hleft
      exact decide_eq_true (lt_trans hleft.2 hlt)
    next => rfl
  · rintro ⟨w, hw, hwleft, hlt⟩
    unfold State.scrubLeft at hwleft
    simp only [Bool.and_eq_true, beq_iff_eq] at hwleft
    exact ⟨w, hw, hwleft.1, hlt⟩

theorem passEnds_mc (d : Die) (m : Mc) (s : State) {q : RegId} (hq : q ∈ mcRegs) (h : q ≠ .mcScrubPass) (e i : Nat) :
    (passEnds d m s).reg q e i 0 = s.reg q e i 0 :=
  State.bump_other s 1 (mcReg_ne hq (by decide) h _ _ _ _)

theorem codeword_start (block : Nat) (word : Fin 8) :
    (256 * block + 32 * word.val) / 32 * 32 = 256 * block + 32 * word.val := by
  omega

theorem exec_scrubRead {s : State} {d : Die} {m : Mc} {block : Nat} {word : Fin 8} (found : ScrubFind)
    (hup : s.mcUp d m = true) (hon : (s.reg .mcScrubCtl d.val m.val 0).getLsbD 8 = true) (hnext : s.scrubNextOk d m (256 * block + 32 * word) = true) :
    exec (.scrubRead d m block word found) s = .next (scrubRead d m (256 * block + 32 * word) found s) := by
  show execScrubRead d m block word found s = _
  unfold execScrubRead
  rw [if_pos (by rw [hup, hon, hnext, Bool.and_self, Bool.and_self])]

theorem scrubNextOk_left {s : State} {d : Die} {m : Mc} {block : Nat} {word : Fin 8}
    (h : s.scrubNextOk d m (256 * block + 32 * word) = true) : s.scrubLeft d m (256 * block + 32 * word) = true := by
  unfold State.scrubNextOk at h
  rw [codeword_start] at h
  simp only [Bool.and_eq_true] at h
  exact h.1.1

/-! ### What a scrub read leaves -/

theorem scrubCome_within (s : State) (d : Die) (m : Mc) (c : Nat) (found : ScrubFind) :
    Within [.regs, .bad, .mcs, .acct] s (scrubCome d m c found s) :=
  Within.trans (t := s.account (acStack (stackIx d m)) 32) rfl (((scrubMet_within _ found _).mono rfl).trans rfl)

section
variable {s : State} {d : Die} {m : Mc} {c : Nat} (found : ScrubFind) (hc : c / 32 * 32 = c)

theorem scrubCome_more (hleft : s.scrubLeft d m c = true) :
    (scrubCome d m c found s).scrubMore d m = true ↔ ¬ ScrubLast s d m c :=
  scrubMore_moved hleft (((scrubMet_within _ found _).regionMap rfl).trans rfl)

include hc

theorem scrubRead_last (hleft : s.scrubLeft d m c = true) (h : ScrubLast s d m c) :
    scrubRead d m c found s = passEnds d m (scrubCome d m c found s) := by
  rw [scrubRead_eq d m found s hc, if_neg fun hmore => (scrubCome_more found hleft).mp hmore h]

theorem scrubRead_more (hleft : s.scrubLeft d m c = true) (h : ¬ ScrubLast s d m c) :
    scrubRead d m c found s = scrubCome d m c found s := by
  rw [scrubRead_eq d m found s hc, if_pos ((scrubCome_more found hleft).mpr h)]

variable (s d m)

theorem scrubRead_bad :
    (scrubRead d m c found s).bad = (scrubMet c found (s.account (acStack (stackIx d m)) 32)).bad := by
  rw [scrubRead_eq d m found s hc]
  split <;> rfl

theorem scrubRead_reg {q : RegId} (hq : q ∈ mcRegs) (h : q ≠ .mcScrubPass) (e i : Nat) :
    (scrubRead d m c found s).reg q e i 0 = (scrubMet c found (s.account (acStack (stackIx d m)) 32)).reg q e i 0 := by
  rw [scrubRead_eq d m found s hc]
  split
  · rfl
  · exact passEnds_mc d m _ hq h e i

theorem scrubRead_within : Within [.regs, .bad, .mcs, .acct] s (scrubRead d m c found s) := by
  rw [scrubRead_eq d m found s hc]
  split
  · exact scrubCome_within ..
  · exact (scrubCome_within ..).trans rfl

end

/-! ### The clauses of a scrub read -/

section
variable {s : State} {d : Die} {m : Mc} {c : Nat} {found : ScrubFind} (hc : c / 32 * 32 = c)
include hc

theorem scrubRead_ends_pass (hleft : s.scrubLeft d m c = true) (h : ScrubLast s d m c) :
    ((scrubRead d m c found s).mc d m).scrubLast = none ∧
      ((scrubRead d m c found s).reg .mcScrubPass d.val m.val 0).toNat =
        ((s.reg .mcScrubPass d.val m.val 0).toNat + 1) % 2 ^ 32 := by
  rw [scrubRead_last found hc hleft h]
  refine ⟨by rw [passEnds, State.modMc_self], (State.bump_self _ _ _ _ _ rfl).trans ?_⟩
  rw [show (scrubCome d m c found s).reg .mcScrubPass d.val m.val 0 = s.reg .mcScrubPass d.val m.val 0 from
    scrubMet_pass c found (s.account (acStack (stackIx d m)) 32) d m]

theorem scrubRead_moves_pass (hleft : s.scrubLeft d m c = true) (h : ¬ ScrubLast s d m c) :
    ((scrubRead d m c found s).mc d m).scrubLast = some (Config.stackAddr (stackIx d m) c) ∧
      (scrubRead d m c found s).reg .mcScrubPass d.val m.val 0 = s.reg .mcScrubPass d.val m.val 0 := by
  rw [scrubRead_more found hc hleft h]
  exact ⟨by rw [scrubCome, scrubMoved, State.modMc_self], scrubMet_pass c found (s.account (acStack (stackIx d m)) 32) d m⟩

theorem scrubRead_clean (hleft : s.scrubLeft d m c = true) (hfound : found = .clean) (hbad : c ∉ s.bad) :
    (scrubRead d m c found s).bad = s.bad ∧ (¬ ScrubLast s d m c → (scrubRead d m c found s).regs = s.regs) := by
  have hmet : scrubMet c found (s.account (acStack (stackIx d m)) 32) = s.account (acStack (stackIx d m)) 32 :=
    scrubMet_clean hfound hbad
  refine ⟨?_, fun h => ?_⟩
  · rw [scrubRead_bad s d m found hc, hmet]
    rfl
  · rw [scrubRead_more found hc hleft h, scrubCome, hmet]
    rfl

theorem scrubRead_corrected (hfound : found = .corrected) (hbad : c ∉ s.bad) :
    (scrubRead d m c found s).bad = s.bad ∧
      (scrubRead d m c found s).reg .mcEccCe ((s.rowAt c).1 / 4 % 8) ((s.rowAt c).1 % 4) 0 =
        s.reg .mcEccCe ((s.rowAt c).1 / 4 % 8) ((s.rowAt c).1 % 4) 0 + 1 := by
  have hmet : scrubMet c found (s.account (acStack (stackIx d m)) 32) =
      (s.account (acStack (stackIx d m)) 32).countHbmCe c := scrubMet_corrected hfound hbad
  rw [scrubRead_bad s d m found hc, scrubRead_reg s d m found hc (by decide) (by decide), hmet]
  exact ⟨rfl, countHbmCe_counts (s.account (acStack (stackIx d m)) 32) c⟩

theorem scrubRead_uncorrectable (h : found = .uncorrectable ∨ c ∈ s.bad) : c ∈ (scrubRead d m c found s).bad ∧
    (scrubRead d m c found s).reg .mcUeAddr (s.stackOf c / 4) (s.stackOf c % 4) 0 = BitVec.ofNat 64 (c % 2 ^ 48) ∧
    (scrubRead d m c found s).reg .mcEccUe (s.stackOf c / 4) (s.stackOf c % 4) 0 =
      s.reg .mcEccUe (s.stackOf c / 4) (s.stackOf c % 4) 0 + 1 := by
  have hmet := scrubMet_uncorrectable (s := s.account (acStack (stackIx d m)) 32) h
  rw [scrubRead_bad s d m found hc, scrubRead_reg s d m found hc (by decide) (by decide),
    scrubRead_reg s d m found hc (by decide) (by decide), hmet]
  refine ⟨?_, State.setReg_self .., ?_⟩
  · dsimp only
    split
    next hin => simpa using hin
    next => exact List.mem_append_right _ (List.mem_singleton_self c)
  · exact countUe_counts (s.account (acStack (stackIx d m)) 32) c

end

/-- Within what a scrub read may change, as the frame is written out. -/
theorem scrub_frame {s t : State} (h : Within [.regs, .bad, .mcs, .acct] s t) :
    t = { s with regs := t.regs, bad := t.bad, mcs := t.mcs, acct := t.acct } := h

end Sys2Proof.Machine
end

section
/-! SUPPORT. Retirement of rows and banks, and repair of lanes (R293 to R296). -/

namespace Sys2Proof.Machine

/-- A record stands in the log of a state with the same log. -/
theorem recordedAt_of_log {s s' t t' : State} {time cls kind die unit : Nat} (h : RecordedAt s t time cls kind die unit)
    (hbefore : s'.store.cur.logSeq = s.store.cur.logSeq) (hseq : t'.store.cur.logSeq = t.store.cur.logSeq)
    (hlog : t'.store.cur.log = t.store.cur.log) : RecordedAt s' t' time cls kind die unit := by
  unfold RecordedAt at h ⊢
  rw [hbefore, hseq, hlog]
  exact h

/-! ### Retirement starts -/

theorem exec_rowRetire {s : State} {d : Die} {m : Mc} {row : RowId} (hup : s.mcUp d m = true) (hmig : (s.mc d m).mig = none)
    (hce : 4 ≤ (recentCe (SMap.getD (s.mc d m).ceTimes (rowKey row) []) s.now).length) :
    exec (.rowRetire d m row) s = .next (rowRetire d m row s) := by
  show execRowRetire d m row s = _
  unfold execRowRetire
  rw [if_pos (by rw [hup, hmig, decide_eq_true hce]; rfl)]

theorem rowRetire_starts {s : State} {d : Die} {m : Mc} (row : RowId) (h : s.regFld .mcRetire d.val m.val 0 14 0 < 16384) :
    rowRetire d m row s = s.startMig d m false (rowKey row) := if_pos h

theorem rowRetire_degrades {s : State} {d : Die} {m : Mc} (row : RowId)
    (h : 16384 ≤ s.regFld .mcRetire d.val m.val 0 14 0) : rowRetire d m row s =
      (s.setRegFld .mcStatus d.val m.val 0 7 7 1).degraded kHbmRow d.val (stackIx d m) row.row 0 0 0 :=
  if_neg (Nat.not_lt.mpr h)

theorem startMig_mc (s : State) (d : Die) (m : Mc) (isBank : Bool) (key : Nat) :
    (s.startMig d m isBank key).mc d m = { s.mc d m with mig := some (isBank, key), migAt := s.now } := State.modMc_self ..

theorem startMig_other (s : State) (d : Die) (m : Mc) (isBank : Bool) (key : Nat) {q : RegId} (hq : q ∈ mcRegs)
    (h : q ≠ .mcMigrate) (e i : Nat) : (s.startMig d m isBank key).reg q e i 0 = s.reg q e i 0 :=
  State.setReg_other _ _ (mcReg_ne hq (by decide) h _ _ _ _)

/-! ### Retirement ends -/

/-- A migration's copy: the uncorrectable codewords it meets count, and its bytes. -/
def migCopied (d : Die) (m : Mc) (isBank : Bool) (key : Nat) (s : State) : State :=
  ((s.migrationUes d m isBank key).foldl State.countUe s).account (acStack (stackIx d m))
    (if isBank then 2 * 16384 * 1024 else 2 * 1024)

/-- A migration is over. -/
def migEnds (d : Die) (m : Mc) (s : State) : State :=
  (s.setReg .mcMigrate d.val m.val 0 0).modMc d m (fun x => { x with mig := none })

/-- The spare of a row serves. -/
def rowServed (d : Die) (m : Mc) (key : Nat) (s : State) : State :=
  (s.setRegFld .mcRetire d.val m.val 0 14 0 (s.regFld .mcRetire d.val m.val 0 14 0 + 1)).modMc d m (fun x => { x with
    retiredRows := SMap.put x.retiredRows (bankKeyOf key) (SMap.getD (s.mc d m).retiredRows (bankKeyOf key) 0 + 1)
    ceTimes := SMap.del x.ceTimes key })

/-- The spare of a bank serves. -/
def bankServed (d : Die) (m : Mc) (key : Nat) (s : State) : State :=
  ((s.setRegFld .mcRetire d.val m.val 0 19 15 (s.regFld .mcRetire d.val m.val 0 19 15 + 1)).setRegFld .mcRetire d.val m.val 0
    14 0 (s.regFld .mcRetire d.val m.val 0 14 0 - SMap.getD (s.mc d m).retiredRows key 0)).modMc d m (fun x => { x with
      retiredRows := SMap.del x.retiredRows key, bankRetired := x.bankRetired ++ [key]
      ceTimes := x.ceTimes.filter (fun e => bankKeyOf e.1 != key) })

/-- The record of a migration that is over, and the spare map with it. -/
def migRecorded (d : Die) (m : Mc) (kind detail left : Nat) (last : Bool) (s : State) : State :=
  (s.repairedAt (s.mc d m).migAt 0 kind d.val (stackIx d m) detail 0 left last).saveHbmMap d m

section
variable (s : State) (d : Die) (m : Mc) (key : Nat)

theorem exec_migrationSwitch {s : State} {d : Die} {m : Mc} {isBank : Bool} {key : Nat} (hup : s.mcUp d m = true)
    (hmig : (s.mc d m).mig = some (isBank, key)) :
    exec (.migrationSwitch d m) s = .next (migrationSwitch d m isBank key s) := by
  show execMigrationSwitch d m s = _
  unfold execMigrationSwitch
  rw [hmig]
  exact congrArg _ (if_pos hup)

theorem migrationSwitch_row : ∃ detail left last,
    migrationSwitch d m false key s =
      (let u := migEnds d m (migCopied d m false key s)
       let t := migRecorded d m kHbmRow detail left last (rowServed d m key u)
       if 64 ≤ SMap.getD (u.mc d m).retiredRows (bankKeyOf key) 0 + 1 ∧ u.regFld .mcRetire d.val m.val 0 19 15 < 31
         then t.startMig d m true (bankKeyOf key) else t) :=
  ⟨_, _, _, rfl⟩

theorem migrationSwitch_bank : ∃ detail left last,
    migrationSwitch d m true key s =
      migRecorded d m kHbmBank detail left last (bankServed d m key (migEnds d m (migCopied d m true key s))) :=
  ⟨_, _, _, rfl⟩

theorem migCopied_mcs (isBank : Bool) : (migCopied d m isBank key s).mcs = s.mcs :=
  foldl_same (fun u => u.mcs) _ State.countUe s fun _ _ => rfl

theorem migCopied_store (isBank : Bool) : (migCopied d m isBank key s).store = s.store :=
  foldl_same (fun u => u.store) _ State.countUe s fun _ _ => rfl

theorem migCopied_retire (isBank : Bool) :
    (migCopied d m isBank key s).reg .mcRetire d.val m.val 0 = s.reg .mcRetire d.val m.val 0 :=
  foldl_same (fun u => u.reg .mcRetire d.val m.val 0) _ State.countUe s fun u a =>
    countUe_mc u a (by decide) (by decide) (by decide) _ _

theorem migEnds_mc (isBank : Bool) :
    (migEnds d m (migCopied d m isBank key s)).mc d m = { s.mc d m with mig := none } := by
  rw [migEnds, State.modMc_self]
  exact congrArg (fun x : McSt => { x with mig := none }) (State.mc_congr (migCopied_mcs s d m key isBank) d m)

theorem migEnds_retire (isBank : Bool) (hi lo : Nat) :
    (migEnds d m (migCopied d m isBank key s)).regFld .mcRetire d.val m.val 0 hi lo =
      s.regFld .mcRetire d.val m.val 0 hi lo :=
  congrArg (fld · hi lo) ((State.setReg_other _ _ (mcReg_ne (by decide) (by decide) (by decide) _ _ _ _)).trans
    (migCopied_retire s d m key isBank))

theorem rowServed_mc : (rowServed d m key s).mc d m = { s.mc d m with
    retiredRows := SMap.put (s.mc d m).retiredRows (bankKeyOf key) (SMap.getD (s.mc d m).retiredRows (bankKeyOf key) 0 + 1)
    ceTimes := SMap.del (s.mc d m).ceTimes key } := by
  rw [rowServed, State.modMc_self]
  rfl

theorem rowServed_retire : (rowServed d m key s).regFld .mcRetire d.val m.val 0 14 0 =
    (s.regFld .mcRetire d.val m.val 0 14 0 + 1) % 2 ^ 15 :=
  State.setRegFld_mod s _ _ _ _ _ (by decide) (by decide)

theorem rowServed_store : (rowServed d m key s).store = s.store := rfl

theorem bankServed_mc : (bankServed d m key s).mc d m = { s.mc d m with
    retiredRows := SMap.del (s.mc d m).retiredRows key, bankRetired := (s.mc d m).bankRetired ++ [key]
    ceTimes := (s.mc d m).ceTimes.filter (fun e => bankKeyOf e.1 != key) } := by
  rw [bankServed, State.modMc_self]
  rfl

theorem bankServed_retire : (bankServed d m key s).regFld .mcRetire d.val m.val 0 19 15 =
    (s.regFld .mcRetire d.val m.val 0 19 15 + 1) % 2 ^ 5 :=
  (State.setRegFld_field _ _ _ _ _ (by decide) (by decide) (by decide) (by decide)).trans
    (State.setRegFld_mod s _ _ _ _ _ (by decide) (by decide))

theorem bankServed_store : (bankServed d m key s).store = s.store := rfl

theorem migRecorded_mc (kind detail left : Nat) (last : Bool) : (migRecorded d m kind detail left last s).mc d m = s.mc d m :=
  State.mc_congr ((repairedAt_within ..).mcs rfl) d m

theorem migRecorded_retire (kind detail left : Nat) (last : Bool) (hi lo : Nat) :
    (migRecorded d m kind detail left last s).regFld .mcRetire d.val m.val 0 hi lo = s.regFld .mcRetire d.val m.val 0 hi lo :=
  congrArg (fld · hi lo) (repairedAt_mc s _ _ _ _ _ _ _ _ _ (by decide) (by decide) (by decide) d m)

theorem migRecorded_repairs (kind detail left : Nat) (last : Bool) :
    RepairsAt s (migRecorded d m kind detail left last s) (s.mc d m).migAt kind d.val (stackIx d m) :=
  recordedAt_of_log (State.repairedAt_event ..) rfl rfl rfl

end

end Sys2Proof.Machine
end
section
/-! SUPPORT. Lane repair and retraining (R296, R297). -/

namespace Sys2Proof.Machine

/-! ### Lane repair -/

theorem exec_hbmLaneRepair {s : State} {d : Die} {m : Mc} (pc : Fin 32) (lane : Nat) (hup : s.mcUp d m = true) :
    exec (.hbmLaneRepair d m pc lane) s = .next (hbmLaneRepair d m pc lane s) := by
  show execHbmLaneRepair d m pc lane s = _
  unfold execHbmLaneRepair
  rw [if_pos hup]

/-- A spare lane of a pseudo-channel serves. -/
def laneServed (d : Die) (m : Mc) (pc : Fin 32) (s : State) : State :=
  (s.setRegFld .mcLaneRepair d.val m.val 0 6 0 (s.regFld .mcLaneRepair d.val m.val 0 6 0 + 1)).modMc d m (fun x => { x with
    laneUsed := SMap.put x.laneUsed pc.val (SMap.getD (s.mc d m).laneUsed pc.val 0 + 1) })

/-- A lane that no spare is left for. -/
def laneStays (d : Die) (m : Mc) (s : State) : State :=
  (s.setRegFld .mcStatus d.val m.val 0 6 6 1).bumpSat .mcLaneRepair d.val m.val 15 8 1

section
variable {s : State} {d : Die} {m : Mc} {pc : Fin 32}

theorem hbmLaneRepair_repairs (lane : Nat) (h : SMap.getD (s.mc d m).laneUsed pc.val 0 < 2) : ∃ left last,
    hbmLaneRepair d m pc lane s =
      ((laneServed d m pc s).repaired kHbmLane d.val (stackIx d m) lane 200 0 left last).saveHbmMap d m :=
  ⟨_, _, if_pos h⟩

theorem hbmLaneRepair_degrades (lane : Nat) (h : 2 ≤ SMap.getD (s.mc d m).laneUsed pc.val 0) :
    hbmLaneRepair d m pc lane s = (laneStays d m s).degraded kHbmLane d.val (stackIx d m) lane 200 0 0 :=
  if_neg (Nat.not_lt.mpr h)

variable (s d m pc)

theorem laneServed_used : SMap.getD ((laneServed d m pc s).mc d m).laneUsed pc.val 0 =
    SMap.getD (s.mc d m).laneUsed pc.val 0 + 1 := by
  rw [laneServed, State.modMc_self]
  exact SMap.getD_put_self ..

theorem laneServed_count : (laneServed d m pc s).regFld .mcLaneRepair d.val m.val 0 6 0 =
    (s.regFld .mcLaneRepair d.val m.val 0 6 0 + 1) % 2 ^ 7 :=
  State.setRegFld_mod _ _ _ _ _ _ (by decide) (by decide)

theorem laneStays_status : (laneStays d m s).regFld .mcStatus d.val m.val 0 6 6 = 1 := by
  rw [State.regFld, show (laneStays d m s).reg .mcStatus d.val m.val 0 = (s.setRegFld .mcStatus d.val m.val 0 6 6 1).reg
    .mcStatus d.val m.val 0 from State.setReg_other _ _ (mcReg_ne (by decide) (by decide) (by decide) _ _ _ _)]
  exact State.setRegFld_self _ _ _ _ _ (by decide) (by decide) (by decide)

theorem laneStays_count : (laneStays d m s).regFld .mcLaneRepair d.val m.val 0 15 8 =
    min 255 (s.regFld .mcLaneRepair d.val m.val 0 15 8 + 1) := by
  have hother : (s.setRegFld .mcStatus d.val m.val 0 6 6 1).reg .mcLaneRepair d.val m.val 0 =
      s.reg .mcLaneRepair d.val m.val 0 :=
    State.setRegFld_other _ _ _ _ (mcReg_ne (by decide) (by decide) (by decide) _ _ _ _)
  have hfits : satAdd (s.regFld .mcLaneRepair d.val m.val 0 15 8) 1 255 < 2 ^ (15 + 1 - 8) :=
    lt_of_le_of_lt (Nat.min_le_right _ _) (by decide)
  rw [State.regFld, laneStays, State.bumpSat, State.modReg_self, hother]
  exact (fld_setFld_self _ (by decide) (by decide) hfits).trans (Nat.min_comm _ _)

end

/-! ### Retraining -/

theorem exec_pcRetrain {s : State} {d : Die} {m : Mc} {pc : Fin 32} (hup : s.mcUp d m = true)
    (hidle : s.regFld .mcStatus d.val m.val 0 5 5 = 0) (hdue : s.retrainDue d m pc = true) :
    exec (.pcRetrain d m pc) s = .next (pcRetrain d m pc s) := by
  show execPcRetrain d m pc s = _
  unfold execPcRetrain
  rw [if_pos (by rw [hup, hdue, decide_eq_true hidle]; rfl)]

theorem exec_pcRetrainDone {s : State} {d : Die} {m : Mc} (h : s.regFld .mcStatus d.val m.val 0 5 5 = 1) :
    exec (.pcRetrainDone d m) s = .next (pcRetrainDone d m s) := by
  show execPcRetrainDone d m s = _
  unfold execPcRetrainDone
  rw [if_pos h]

section
variable (s : State) (d : Die) (m : Mc)

theorem pcRetrain_runs (pc : Fin 32) : (pcRetrain d m pc s).regFld .mcStatus d.val m.val 0 5 5 = 1 := by
  rw [State.regFld, pcRetrain, State.modReg_self, fld_setFld_other _ (by decide) (by decide) (by decide) (by decide)]
  exact fld_setFld_self _ (by decide) (by decide) (by decide)

theorem pcRetrain_channel (pc : Fin 32) : (pcRetrain d m pc s).regFld .mcStatus d.val m.val 0 4 0 = pc.val := by
  rw [State.regFld, pcRetrain, State.modReg_self]
  exact fld_setFld_self _ (by decide) (by decide) pc.isLt

theorem pcRetrainDone_idle : (pcRetrainDone d m s).regFld .mcStatus d.val m.val 0 5 5 = 0 := by
  unfold State.regFld pcRetrainDone
  rw [State.bump_other _ 1 (mcReg_ne (by decide) (by decide) (by decide) _ _ _ _), State.modReg_self,
    fld_setFld_other _ (by decide) (by decide) (by decide) (by decide)]
  exact fld_setFld_self _ (by decide) (by decide) (by decide)

theorem pcRetrainDone_count : (pcRetrainDone d m s).reg .mcRetrain d.val m.val 0 = s.reg .mcRetrain d.val m.val 0 + 1 := by
  unfold pcRetrainDone
  rw [State.bump_wide _ _ _ _ _ rfl]
  exact congrArg (· + 1) (State.setReg_other _ _ (mcReg_ne (by decide) (by decide) (by decide) _ _ _ _))

theorem pcRetrainDone_trained :
    SMap.getD ((pcRetrainDone d m s).mc d m).trained (s.regFld .mcStatus d.val m.val 0 4 0) (0, none) =
      (s.now, (s.mc d m).temp) := by
  have hmc : (pcRetrainDone d m s).mc d m = { s.mc d m with
      trained := SMap.put (s.mc d m).trained (s.regFld .mcStatus d.val m.val 0 4 0) (s.now, (s.mc d m).temp) } :=
    State.modMc_self s d m (fun x => { x with
      trained := SMap.put x.trained (s.regFld .mcStatus d.val m.val 0 4 0) (s.now, x.temp) })
  rw [hmc]
  exact SMap.getD_put_self ..

end

end Sys2Proof.Machine
end

section
/-! PROOFS. HbmUpkeep. -/

namespace Sys2Proof
open Machine

theorem rowRetire_settles (s : State) (d : Die) (m : Mc) (row : RowId) :
    (s.regFld .mcRetire d.val m.val 0 14 0 < 16384 → ((rowRetire d m row s).mc d m).mig = some (false, rowKey row) ∧
        ((rowRetire d m row s).mc d m).migAt = s.now ∧
        (rowRetire d m row s).reg .mcMigrate d.val m.val 0 = BitVec.ofNat 64 (2 ^ 31) ∧
        rowRetire d m row s = { s with regs := (rowRetire d m row s).regs, mcs := (rowRetire d m row s).mcs }) ∧
      (16384 ≤ s.regFld .mcRetire d.val m.val 0 14 0 →
        (rowRetire d m row s).regFld .mcStatus d.val m.val 0 7 7 = 1 ∧
        Degrades s (rowRetire d m row s) kHbmRow d.val (stackIx d m) ∧ (rowRetire d m row s).mcs = s.mcs) := by
  refine ⟨fun h => ?_, fun h => ?_⟩
  · rw [rowRetire_starts row h]
    exact ⟨by rw [startMig_mc], by rw [startMig_mc], State.setReg_self .., rfl⟩
  · rw [rowRetire_degrades row h]
    have hrecord := State.degraded_event (s.setRegFld .mcStatus d.val m.val 0 7 7 1) kHbmRow d.val (stackIx d m) row.row 0 0 0
      (by decide)
    refine ⟨?_, hrecord.congr rfl rfl rfl rfl, State.degraded_mcs ..⟩
    rw [State.regFld, degraded_mc _ _ _ _ _ _ _ _ (by decide)]
    exact State.setRegFld_self _ _ _ _ _ (by decide) (by decide) (by decide)

/-- A migration that is over is recorded with the time at which it began. -/
theorem migRecorded_since {s v : State} {d : Die} {m : Mc} {isBank : Bool} {key : Nat} (kind detail left : Nat) (last : Bool)
    (hat : (v.mc d m).migAt = ((migEnds d m (migCopied d m isBank key s)).mc d m).migAt)
    (hstore : v.store = (migEnds d m (migCopied d m isBank key s)).store) :
    RepairsAt s (migRecorded d m kind detail left last v) (s.mc d m).migAt kind d.val (stackIx d m) := by
  have h := migRecorded_repairs v d m kind detail left last
  rw [hat, migEnds_mc] at h
  refine recordedAt_of_log h ?_ rfl rfl
  rw [hstore]
  exact congrArg (·.cur.logSeq) (migCopied_store s d m key isBank).symm

/-- A row's migration over: the row counts, its record is written, and a bank with 64 rows retired is next. -/
theorem migrationSwitch_row_settles (s : State) (d : Die) (m : Mc) (key : Nat) :
    (migrationSwitch d m false key s).regFld .mcRetire d.val m.val 0 14 0 =
        (s.regFld .mcRetire d.val m.val 0 14 0 + 1) % 2 ^ 15 ∧
      SMap.getD ((migrationSwitch d m false key s).mc d m).retiredRows (bankKeyOf key) 0 =
        SMap.getD (s.mc d m).retiredRows (bankKeyOf key) 0 + 1 ∧
      RepairsAt s (migrationSwitch d m false key s) (s.mc d m).migAt kHbmRow d.val (stackIx d m) ∧
      ((migrationSwitch d m false key s).mc d m).mig =
        (if 64 ≤ SMap.getD (s.mc d m).retiredRows (bankKeyOf key) 0 + 1 ∧ s.regFld .mcRetire d.val m.val 0 19 15 < 31 then
          some (true, bankKeyOf key) else none) := by
  obtain ⟨detail, left, last, ht⟩ := migrationSwitch_row s d m key
  dsimp only at ht
  rw [ht]
  have hmc := migEnds_mc s d m key false
  have hretire := migEnds_retire s d m key false
  have hrecord : RepairsAt s (migRecorded d m kHbmRow detail left last (rowServed d m key
      (migEnds d m (migCopied d m false key s)))) (s.mc d m).migAt kHbmRow d.val (stackIx d m) :=
    migRecorded_since (isBank := false) (key := key) _ _ _ _ (by rw [rowServed_mc]) (rowServed_store ..)
  rw [hmc, hretire]
  have hserved := rowServed_mc (migEnds d m (migCopied d m false key s)) d m key
  have hcount := rowServed_retire (migEnds d m (migCopied d m false key s)) d m key
  rw [hmc] at hserved
  rw [hretire] at hcount
  generalize rowServed d m key (migEnds d m (migCopied d m false key s)) = v at hrecord hserved hcount ⊢
  have hrows := (migRecorded_retire v d m kHbmRow detail left last 14 0).trans hcount
  have hstays := (migRecorded_mc v d m kHbmRow detail left last).trans hserved
  split
  · exact ⟨(congrArg (fld · 14 0) (startMig_other _ d m true _ (by decide) (by decide) _ _)).trans hrows,
      by rw [startMig_mc, hstays]; exact SMap.getD_put_self .., hrecord, by rw [startMig_mc]⟩
  · exact ⟨hrows, by rw [hstays]; exact SMap.getD_put_self .., hrecord, by rw [hstays]⟩

/-- A bank's migration over: the bank counts and is retired, its corrected errors go, and its record is written. -/
theorem migrationSwitch_bank_settles (s : State) (d : Die) (m : Mc) (key : Nat) :
    (migrationSwitch d m true key s).regFld .mcRetire d.val m.val 0 19 15 =
        (s.regFld .mcRetire d.val m.val 0 19 15 + 1) % 2 ^ 5 ∧
      ((migrationSwitch d m true key s).mc d m).bankRetired = (s.mc d m).bankRetired ++ [key] ∧
      ((migrationSwitch d m true key s).mc d m).mig = none ∧
      (∀ e ∈ ((migrationSwitch d m true key s).mc d m).ceTimes, bankKeyOf e.1 ≠ key) ∧
      RepairsAt s (migrationSwitch d m true key s) (s.mc d m).migAt kHbmBank d.val (stackIx d m) := by
  obtain ⟨detail, left, last, ht⟩ := migrationSwitch_bank s d m key
  have hrecord := migRecorded_since (key := key) (isBank := true) (s := s) kHbmBank detail left last
    (v := bankServed d m key (migEnds d m (migCopied d m true key s))) (by rw [bankServed_mc]) (bankServed_store ..)
  have hmc := migRecorded_mc (bankServed d m key (migEnds d m (migCopied d m true key s))) d m kHbmBank detail left last
  rw [bankServed_mc, migEnds_mc] at hmc
  rw [ht, hmc, migRecorded_retire, bankServed_retire, migEnds_retire]
  refine ⟨rfl, rfl, rfl, fun e he => ?_, hrecord⟩
  dsimp only at he
  simpa using (List.mem_filter.mp he).2

/-- A failing lane takes a spare of its pseudo-channel, or stays in service and degrades its controller. -/
theorem hbmLaneRepair_settles (s : State) (d : Die) (m : Mc) (pc : Fin 32) (lane : Nat) :
    (SMap.getD (s.mc d m).laneUsed pc.val 0 < 2 →
      SMap.getD ((hbmLaneRepair d m pc lane s).mc d m).laneUsed pc.val 0 = SMap.getD (s.mc d m).laneUsed pc.val 0 + 1 ∧
        (hbmLaneRepair d m pc lane s).regFld .mcLaneRepair d.val m.val 0 6 0 =
          (s.regFld .mcLaneRepair d.val m.val 0 6 0 + 1) % 2 ^ 7 ∧
        Repairs s (hbmLaneRepair d m pc lane s) kHbmLane d.val (stackIx d m)) ∧
      (2 ≤ SMap.getD (s.mc d m).laneUsed pc.val 0 →
        (hbmLaneRepair d m pc lane s).regFld .mcStatus d.val m.val 0 6 6 = 1 ∧
        (hbmLaneRepair d m pc lane s).regFld .mcLaneRepair d.val m.val 0 15 8 =
          min 255 (s.regFld .mcLaneRepair d.val m.val 0 15 8 + 1) ∧
        Degrades s (hbmLaneRepair d m pc lane s) kHbmLane d.val (stackIx d m) ∧
        (hbmLaneRepair d m pc lane s).mcs = s.mcs) := by
  refine ⟨fun h => ?_, fun h => ?_⟩
  · obtain ⟨left, last, ht⟩ := hbmLaneRepair_repairs lane h
    rw [ht]
    refine ⟨?_, ?_, recordedAt_of_log (State.repaired_event (laneServed d m pc s) kHbmLane d.val (stackIx d m) lane 200 0
      left last) rfl rfl rfl⟩
    · exact (congrArg (fun x : McSt => SMap.getD x.laneUsed pc.val 0) (State.mc_congr (State.repaired_mcs ..) d m)).trans
        (laneServed_used s d m pc)
    · exact (congrArg (fld · 6 0) (repairedAt_mc { laneServed d m pc s with free := _ } _ _ _ _ _ _ _ _ _ (by decide)
        (by decide) (by decide) d m)).trans (laneServed_count s d m pc)
  · rw [hbmLaneRepair_degrades lane h]
    have hrecord := State.degraded_event (laneStays d m s) kHbmLane d.val (stackIx d m) lane 200 0 0 (by decide)
    refine ⟨?_, ?_, hrecord.congr rfl rfl rfl rfl, State.degraded_mcs ..⟩
    · rw [State.regFld, degraded_mc _ _ _ _ _ _ _ _ (by decide)]
      exact laneStays_status s d m
    · rw [State.regFld, degraded_mc _ _ _ _ _ _ _ _ (by decide)]
      exact laneStays_count s d m

/-- Settles O45: each command comes to its update of the controller, whose clauses are lemmas of their own, with the rules
that say what counts and records leave alone. -/
theorem hbmUpkeep : Obligations.HbmUpkeep := by
  unfold Obligations.HbmUpkeep
  refine ⟨?_, ?_, ?_, ?_, ?_, ?_⟩
  · intro s d m block word found hup hon hnext
    have hexec := exec_scrubRead found hup hon hnext
    have hleft := scrubNextOk_left hnext
    have hc := codeword_start block word
    generalize 256 * block + 32 * word.val = c at hexec hleft hc ⊢
    exact ⟨_, hexec, scrubRead_ends_pass hc hleft, scrubRead_moves_pass hc hleft, scrubRead_clean hc hleft,
      scrubRead_corrected hc, scrubRead_uncorrectable hc, scrub_frame (scrubRead_within s d m found hc)⟩
  · intro s d m row hup hmig hce
    exact ⟨_, exec_rowRetire hup hmig hce, rowRetire_settles s d m row⟩
  · intro s d m key hup rows banks bk n
    exact ⟨fun hmig => ⟨_, exec_migrationSwitch hup hmig, migrationSwitch_row_settles s d m key⟩,
      fun hmig => ⟨_, exec_migrationSwitch hup hmig, migrationSwitch_bank_settles s d m key⟩⟩
  · intro s d m pc lane hup used
    exact ⟨_, exec_hbmLaneRepair pc lane hup, hbmLaneRepair_settles s d m pc lane⟩
  · intro s d m pc hup hidle hdue
    exact ⟨_, exec_pcRetrain hup hidle hdue, pcRetrain_runs s d m pc, pcRetrain_channel s d m pc, rfl⟩
  · intro s d m hbusy
    exact ⟨_, exec_pcRetrainDone hbusy, pcRetrainDone_idle s d m, pcRetrainDone_count s d m, pcRetrainDone_trained s d m, rfl⟩

end Sys2Proof
end

section
/-! SUPPORT. The limits on descriptors in flight (R330), at reset and along every step. -/

namespace Sys2Proof.Machine

theorem reset_flightOk : FlightOk State.reset :=
  ⟨List.Pairwise.nil, fun _ hx => absurd hx List.not_mem_nil, Nat.zero_le _, fun _ => Nat.zero_le _⟩

/-- A step keeps the limits and the numbering: it passes time, or takes a command from the queue and runs it. -/
theorem step_flightOk {s t : State} (h : step s = .next t) (hs : FlightOk s) : FlightOk t := by
  unfold step at h
  split at h
  · cases h
    exact (tick_keeps (Parts.le_refl _) (Keeps.refl _ s)).flight hs
  · exact (exec_keeps h).flight (FlightOk.ofEq hs rfl rfl)

end Sys2Proof.Machine
end

section
/-! SUPPORT. The event doorbell (R335, R518), and a context that a recovery still holds with no entry left waiting. -/

namespace Sys2Proof.Machine

theorem eventDoorbellCtx_page (n : CtxId) : eventDoorbellCtx (0x1000 * n.val + 0x100) = some n := by
  have hn := n.isLt
  have hpage : (0x1000 * n.val + 0x100) / 0x1000 = n.val := by omega
  unfold eventDoorbellCtx pageCtx
  rw [if_pos (by omega), dif_pos (by omega)]
  exact congrArg some (Fin.ext hpage)

theorem exec_eventDoorbell {s : State} (n : CtxId) (v : W32) (hfree : s.hub.takeover = false) (hup : s.windowUp = true) :
    exec (.eventDoorbell (0x1000 * n.val + 0x100) 4 v) s = .next (eventDoorbell n v s) := by
  refine congrArg Host.Outcome.next ((reach_free hfree rfl).trans ((if_pos hup).trans ?_))
  unfold eventDoorbellAt
  rw [eventDoorbellCtx_page]
  rfl

/-- An event doorbell that takes effect with no entry waiting records the consumer index, and ends the hold of a
recovery (R360). -/
theorem eventDoorbell_ctx {s : State} {n : CtxId} {v : W32} (hv : v.toNat < s.evqSize n) (hon : (s.fn (.ctx n)).st ≠ .off)
    (hwait : (s.ctx n).evWait = []) :
    (eventDoorbell n v s).ctx n = { s.ctx n with cons := v.toNat, evHold := false } := by
  have hcond : ¬ (s.evqSize n ≤ v.toNat ∨ s.fnIs (.ctx n) .off = true) := by
    rw [State.fnIs_iff]
    exact fun h => h.elim (Nat.not_le.2 hv) hon
  have hself := State.modCtx_self s n (fun c => { c with cons := v.toNat })
  obtain ⟨-, hend⟩ := unhold_facts (s.modCtx n (fun c => { c with cons := v.toNat })) n (by rw [hself]; exact hwait)
  unfold eventDoorbell
  rw [if_neg hcond, eventDrain_eq, hself, hwait]
  exact hend.trans (by rw [hself])

/-- A module in service whose context 1 is ON, held, and without an entry that waits. -/
def heldState : State :=
  { State.reset with
    boot := { powered := true, stage := 10, linkUp := true, cfgReady := true, modPwrgd := true }
    ctxs := [(1, { evHold := true })] }.setFn (.ctx 1) { st := .on }

end Sys2Proof.Machine
end

section
/-! The statements of doorbells and of the limits in flight, settled. -/

namespace Sys2Proof

open Machine

/-- Settles O4: the state after reset lists no byte and no descriptor. -/
theorem resetSound : Obligations.ResetSound := by
  unfold Obligations.ResetSound
  exact ⟨⟨reset_memWf, reset_hostWf⟩, reset_flightOk⟩

/-- Settles O6: each command keeps the limits and the numbering, and so does the passing of time. -/
theorem flightLimits : Obligations.FlightLimits := by
  unfold Obligations.FlightLimits
  exact fun s t hs h => step_flightOk h hs

/-- Refutes O21: the event doorbell of a context that is held with no entry waiting ends the hold (R360), where the
statement has the consumer index change and nothing else. -/
theorem not_doorbells : ¬ Obligations.Doorbells := by
  unfold Obligations.Doorbells
  rintro ⟨-, hevent⟩
  have hfree : heldState.hub.takeover = false := rfl
  have hup : heldState.windowUp = true := by decide
  have hv : (0 : W32).toNat < heldState.evqSize 1 := by decide +kernel
  have hon : (heldState.fn (.ctx 1)).st ≠ .off := by decide
  obtain ⟨-, -, hrecords⟩ := hevent heldState 1 0 hfree hup
  obtain ⟨t, ht, hctx, -⟩ := hrecords hv hon rfl
  obtain rfl : eventDoorbell 1 0 heldState = t := Host.Outcome.next.inj ((exec_eventDoorbell 1 0 hfree hup).symm.trans ht)
  rw [eventDoorbell_ctx hv hon rfl] at hctx
  exact absurd (congrArg Ctx.evHold hctx) (by decide)

end Sys2Proof
end

section
/-! SUPPORT. DescriptorCompletion: a SEM_WAIT that times out behind an event entry for which there is room. -/

namespace Sys2Proof.Machine

/-- A SEM_WAIT whose LIMIT has expired below its VALUE completes with WAIT_TIMEOUT. -/
theorem exec_semWaitTimeout {s : State} {seq : Nat} {x : Desc} (hstart : s.started seq 0x07 = some x)
    (hover : s.limitOver x = true) (hbelow : s.semOf x < leAt x.bytes 0x08 4) :
    exec (.semWaitTimeout seq) s = .next (s.complete seq stTimeout 0) := by
  show execSemWaitTimeout seq s = _
  unfold execSemWaitTimeout
  simp only [hstart]
  rw [if_pos ⟨hover, hbelow⟩]

/-- A started SEM_WAIT of LIMIT 1 µs for the value 1 on ring 4, of context 1. -/
def lateWait : Desc :=
  { seq := 7, ring := 4, slot := 2, ty := 7, st := .started, bytes := [7, 0, 0, 0, 0, 0, 0, 0, 1, 0, 0, 0, 1, 0, 0, 0] }

/-- An event entry of ring 4 that waits for room. -/
def olderEntry : EventEnt :=
  { ring := 4, index := 1, ty := 7, status := stOk, detail := 0, time := 0, seq := none }

/-- A module in service with `lateWait` in flight and `olderEntry` waiting, whose event ring at device address 0 has room
from entry 1 on; the codeword at 32, which holds entry 2, has an uncorrectable error. -/
def lateWaitState : State :=
  { State.reset with
    boot := { powered := true, stage := 10, linkUp := true, cfgReady := true, modPwrgd := true }
    now := 5000
    nextSeq := 8
    bad := [32]
    ctxs := [(1, { prod := 1, evWait := [olderEntry] })]
    descs := [lateWait] }

theorem started_lateWait : lateWaitState.started 7 0x07 = some lateWait := by decide +kernel

theorem limitOver_lateWait : lateWaitState.limitOver lateWait = true := by decide +kernel

theorem semOf_lateWait : lateWaitState.semOf lateWait < leAt lateWait.bytes 0x08 4 := by decide +kernel

theorem slot_lateWait : Clear lateWaitState (lateWaitState.slotAddr 4 2 + 0x38) 8 :=
  fun _ => ⟨by decide +kernel, rfl⟩

theorem entry_lateWait : Clear lateWaitState
    ((lateWaitState.reg .hifCtxEvqBase 0 1 0).toNat + 16 * (lateWaitState.ctx 1).prod) 16 :=
  fun _ => ⟨by decide +kernel, rfl⟩

/-- The older entry takes the room at entry 1, and that of the SEM_WAIT meets the error in part, which is a job fault of
the context (R291). -/
theorem complete_lateWait_raises : (lateWaitState.complete 7 stTimeout 0).reports ≠ [] := by decide +kernel

end Sys2Proof.Machine
end

section
/-! PROOFS. DescriptorCompletion. -/

namespace Sys2Proof

open Machine

/-- Refutes O22: with an older entry waiting while there is room, two entries are written, and the second may meet an
uncorrectable codeword and report a job fault, where the frame has the reports stand. -/
theorem not_descriptorCompletion : ¬ Obligations.DescriptorCompletion := by
  unfold Obligations.DescriptorCompletion
  intro h
  obtain ⟨t, ht, -, -, -, hframe, -⟩ := h lateWaitState 7 lateWait started_lateWait limitOver_lateWait semOf_lateWait
    slot_lateWait entry_lateWait
  obtain rfl : lateWaitState.complete 7 stTimeout 0 = t := Host.Outcome.next.inj
    ((exec_semWaitTimeout started_lateWait limitOver_lateWait semOf_lateWait).symm.trans ht)
  exact complete_lateWait_raises (congrArg State.reports hframe)

end Sys2Proof
end

section
/-! SUPPORT. A descriptor that fails a check at its fetch (R334, R436): it is fetched and completed, and nothing else. -/

namespace Sys2Proof.Machine

/-! ### Only a ring that may be fetched is granted -/

theorem State.canFetch_of_arbitrate {s : State} {r : RingId} {i q : Nat}
    (h : arbitrate s.fetchReq s.arb.fetch 256 = some (i, q)) (hi : i = r.val) : s.canFetch r = true := by
  have hreq := arbitrate_req h
  subst hi
  rwa [State.fetchReq, dif_pos r.isLt] at hreq

theorem State.canFetch_of_granted {s : State} {r : RingId} (h : (s.grantFor r).isSome = true) : s.canFetch r = true := by
  unfold State.grantFor at h
  extract_lets fresh at h
  have hfresh : fresh.isSome = true → s.canFetch r = true := by
    intro hf
    dsimp only [fresh] at hf
    split at hf
    · split at hf
      · exact State.canFetch_of_arbitrate ‹_› ‹_›
      · cases hf
    · cases hf
  split at h
  · split at h
    · next hlasts =>
      split at h
      · next hg => exact hg ▸ hlasts.2
      · cases h
    · exact hfresh h
  · exact hfresh h

/-- Nothing is fetched within a change-over of hub halves (R440). -/
theorem State.fetchable_free {s : State} {r : RingId} (h : s.fetchable r = true) : s.hub.takeover = false := by
  have hcan : s.canFetch r = true := by
    simp only [State.fetchable, Bool.and_eq_true] at h
    exact State.canFetch_of_granted h.1.1
  simp only [State.canFetch, State.hubUp, Bool.and_eq_true, Bool.not_eq_true'] at hcan
  tauto

/-! ### Outside a change-over of hub halves a completion leaves the hub alone -/

section
variable {s : State} (h : s.hub.takeover = false)

include h

theorem State.msix_hub_of_free (v : Nat) : (s.msix v).hub = s.hub := by
  unfold State.msix State.msixSend
  rw [h, if_neg (by decide)]
  split
  · split <;> rfl
  · rfl

theorem State.ringMsix_hub_of_free (r : RingId) : (s.ringMsix r).hub = s.hub := by
  have hsent := State.msix_hub_of_free h r.val
  unfold State.ringMsix
  dsimp only
  split
  · split
    · split
      · rfl
      · split
        · exact hsent
        · exact hsent
    · split
      · exact hsent
      · exact hsent
  · rfl

theorem State.eventWrite_hub_of_free (n : CtxId) (e : EventEnt) : (s.eventWrite n e).hub = s.hub := by
  unfold State.eventWrite
  dsimp only
  have hput := State.hubPut_hub s n ((s.reg .hifCtxEvqBase 0 n.val 0).toNat + 16 * (s.ctx n).prod)
    (eventBytes e (s.ctx n).phase)
  generalize s.hubPut n _ _ = u at hput ⊢
  have hfree : u.hub.takeover = false := by rw [hput, h]
  cases e.seq with
  | none => exact (State.ringMsix_hub_of_free (s := u.modCtx n _) hfree e.ring).trans hput
  | some q => exact (State.ringMsix_hub_of_free (s := { u.modCtx n _ with descs := _ }) hfree e.ring).trans hput

omit h in
theorem State.eventDrainN_hub_of_free (n : CtxId) (k : Nat) (s : State) (h : s.hub.takeover = false) :
    (s.eventDrainN n k).hub = s.hub := by
  induction k generalizing s with
  | zero => rfl
  | succ k ih =>
    unfold State.eventDrainN
    split
    · rfl
    · next e rest _ =>
      split
      · have hwrite := State.eventWrite_hub_of_free (s := s.modCtx n (fun c => { c with evWait := rest })) h n e
        exact (ih _ (by rw [hwrite]; exact h)).trans hwrite
      · rfl

theorem State.eventPush_hub_of_free (n : CtxId) (e : EventEnt) : (s.eventPush n e).hub = s.hub := by
  unfold State.eventPush
  rw [eventDrain_eq]
  dsimp only
  split
  · exact State.eventDrainN_hub_of_free n _ (s.modCtx n _) h
  · exact State.eventDrainN_hub_of_free n _ (s.modCtx n _) h

theorem State.complete_hub_of_free (seq : Nat) (st : Byte) (dt : W16) : (s.complete seq st dt).hub = s.hub := by
  unfold State.complete
  split
  · rfl
  · next x _ =>
    split
    · rfl
    · have hput := State.hubPut_hub s (ringCtx x.ring) (s.slotAddr x.ring x.slot + 0x38) (toLe 8 (statusWord st dt s.now))
      generalize s.hubPut (ringCtx x.ring) _ _ = u at hput ⊢
      have hfree : u.hub.takeover = false := by rw [hput, h]
      dsimp only
      split
      · exact hput
      · exact (State.eventPush_hub_of_free (s := (u.modRing _ _).modDesc _ _) hfree _ _).trans hput

end

/-! ### The commands that fetch a descriptor -/

/-- The commands that fetch the slot at a ring's HEAD, each with whether the slot's TYPE, and OP of a collective block, is
its own. -/
def fetchCommands (s : State) (r : RingId) : List (Instr × Bool) :=
  let ty := leAt (s.headBytes r) 0 1
  let op := s.slotOp (s.headBytes r)
  [(.invalidDescriptor r, ty == 0 || decide (0x0F < ty)), (.dispatch r, ty == 1 && s.chainWaiting.isEmpty),
    (.copy r, ty == 2), (.fill r, ty == 3), (.compare r, ty == 4), (.fence r, ty == 5), (.semSignal r, ty == 6),
    (.semWait r, ty == 7), (.mediaSubmit r, ty == 8), (.mediaOpen r, ty == 9), (.mediaClose r, ty == 0x0A),
    (.planLoad r, ty == 0x0B), (.planUnload r, ty == 0x0C),
    (.reduceScatter r, ty == 0x0D && !([opAG, opAR, opEM, opPM].contains op)), (.allGather r, ty == 0x0D && op == opAG),
    (.allReduce r, ty == 0x0D && op == opAR), (.exponentMax r, ty == 0x0D && op == opEM),
    (.permute r, ty == 0x0D && op == opPM), (.timestamp r, ty == 0x0E), (.energyQuery r, ty == 0x0F)]

/-- The status and DETAIL with which a descriptor is refused at its fetch: CANCELLED out of service, else what the common
checks find. -/
def State.refusal (s : State) (r : RingId) : Option (Byte × W16) :=
  if s.hub.outOfService then some (stCancelled, 0) else (s.fetch r).1.commonCheck (ringCtx r) (s.headBytes r)

/-- A refused descriptor is fetched and completes. -/
def State.refused (s : State) (r : RingId) (st : Byte) (dt : W16) : State := (s.fetch r).1.complete s.nextSeq st dt

theorem fetchThen_refused {s : State} {r : RingId} {ok : List Byte → Bool} {st : Byte} {dt : W16}
    (check : State → Desc → Option (Byte × W16)) (atFetch : Desc → State → State) (start : Nat → State → State)
    (hf : s.fetchable r = true) (hok : ok (s.headBytes r) = true) (h : s.refusal r = some (st, dt)) :
    fetchThen r ok check atFetch start s = s.refused r st dt := by
  unfold fetchThen
  rw [if_pos (by rw [hf, hok]; rfl)]
  show (if (s.fetch r).1.hub.outOfService then _ else _) = _
  rw [fetch_hub]
  unfold State.refusal at h
  cases hout : s.hub.outOfService with
  | true =>
    rw [hout] at h
    cases h
    rfl
  | false =>
    rw [hout, if_neg (by decide)] at h
    show (match (s.fetch r).1.commonCheck (ringCtx r) (s.headBytes r) with
      | some (st, dt) => (s.fetch r).1.complete s.nextSeq st dt
      | none => _) = _
    rw [h]
    rfl

/-- Each of the commands but DISPATCH is a fetch of what it names. -/
theorem exec_fetches {s : State} {r : RingId} {c : Instr} (h : (c, true) ∈ fetchCommands s r) (hc : c ≠ .dispatch r) :
    ∃ ok check atFetch start, exec c s = .next (fetchThen r ok check atFetch start s) ∧ ok (s.headBytes r) = true := by
  simp only [fetchCommands, List.mem_cons, List.not_mem_nil, or_false, Prod.mk.injEq] at h
  obtain ⟨rfl, hok⟩ | ⟨rfl, -⟩ | ⟨rfl, hok⟩ | ⟨rfl, hok⟩ | ⟨rfl, hok⟩ | ⟨rfl, hok⟩ | ⟨rfl, hok⟩ | ⟨rfl, hok⟩ | ⟨rfl, hok⟩ |
    ⟨rfl, hok⟩ | ⟨rfl, hok⟩ | ⟨rfl, hok⟩ | ⟨rfl, hok⟩ | ⟨rfl, hok⟩ | ⟨rfl, hok⟩ | ⟨rfl, hok⟩ | ⟨rfl, hok⟩ | ⟨rfl, hok⟩ |
    ⟨rfl, hok⟩ | ⟨rfl, hok⟩ := h
  case inr.inl => exact absurd rfl hc
  all_goals exact ⟨_, _, _, _, rfl, hok.symm⟩

/-- A refused descriptor leaves no DISPATCH waiting for its chain where none waited. -/
theorem refused_chainWaiting {s : State} {r : RingId} (st : Byte) (dt : W16) (hok : FlightOk s) (h : s.chainWaiting = []) :
    (s.refused r st dt).chainWaiting = [] := by
  rw [chainWaiting_nil_iff] at h ⊢
  intro y hy
  have hdone : y.st = .done → (y.ty == 0x01 && decide (y.st = .waiting) && !y.held) = false := fun hst => by simp [hst]
  rcases complete_rel _ _ _ _ y hy with hmem | hst
  · rw [fetch_descs, List.mem_append, List.mem_singleton] at hmem
    rcases hmem with hold | hnew
    · exact h y hold
    · exact hdone (complete_doneAll _ _ st dt _ (fetch_desc s r hok) DescSt.noConfusion y hy (by rw [hnew]; rfl))
  · exact hdone hst

/-- Each of the commands refuses a descriptor alike. -/
theorem exec_refuses {s : State} {r : RingId} {c : Instr} {st : Byte} {dt : W16} (hc : (c, true) ∈ fetchCommands s r)
    (hok : FlightOk s) (hf : s.fetchable r = true) (h : s.refusal r = some (st, dt)) :
    exec c s = .next (s.refused r st dt) := by
  by_cases hd : c = .dispatch r
  · subst hd
    obtain ⟨hty, hchain⟩ : leAt (s.headBytes r) 0 1 = 1 ∧ s.chainWaiting = [] := by
      simpa [fetchCommands] using hc
    show execDispatch r s = _
    unfold execDispatch
    rw [fetchThen_refused _ _ _ hf (by simp [tyIs, hty]) h, releaseChains_none (refused_chainWaiting st dt hok hchain)]
  · obtain ⟨ok, check, atFetch, start, hexec, hty⟩ := exec_fetches hc hd
    rw [hexec, fetchThen_refused check atFetch start hf hty h]

/-! ### What a refusal leaves -/

theorem refused_nextSeq (s : State) (r : RingId) (st : Byte) (dt : W16) : (s.refused r st dt).nextSeq = s.nextSeq + 1 :=
  ((State.complete_keeps (ps := Parts.any.erase .nextSeq) rfl (Keeps.refl _ (s.fetch r).1)).rest.nextSeq rfl).trans
    (fetch_nextSeq s r)

/-- A refusal makes nothing of what its descriptor asks for. -/
theorem refused_frame {s : State} {r : RingId} (st : Byte) (dt : W16) (hf : s.fetchable r = true) : let t := s.refused r st dt
    t = { s with regs := t.regs, mem := t.mem, hostMem := t.hostMem, bad := t.bad, rings := t.rings, ctxs := t.ctxs
                 descs := t.descs, nextSeq := t.nextSeq, arb := t.arb, out := t.out, reports := t.reports, free := t.free
                 mcs := t.mcs, dies := t.dies, cores := t.cores, acct := t.acct } := by
  intro t
  have hhub : t.hub = s.hub :=
    (State.complete_hub_of_free (by rw [fetch_hub]; exact State.fetchable_free hf) _ _ _).trans (fetch_hub s r)
  have hwithin : Within [.regs, .mem, .hostMem, .bad, .rings, .ctxs, .descs, .nextSeq, .arb, .out, .reports, .free, .mcs, .dies,
      .cores, .acct, .hub] s t := (State.complete_keeps rfl (State.fetch_keeps rfl hf (Keeps.refl _ s))).rest
  clear_value t
  change t = { s with regs := _, mem := _, hostMem := _, bad := _, rings := _, ctxs := _, descs := _, nextSeq := _, arb := _
                      out := _, reports := _, free := _, mcs := _, dies := _, cores := _, acct := _, hub := t.hub } at hwithin
  rw [hhub] at hwithin
  exact hwithin

/-- A fetched descriptor that leaves flight leaves the others as they were. -/
theorem fetch_descs_gone {s : State} (r : RingId) (h : FlightOk s) :
    (s.fetch r).1.descs.filter (fun y => y.seq != s.nextSeq) = s.descs := by
  rw [fetch_descs, List.filter_append, List.filter_eq_self.2 fun y hy => ?_]
  · simp [State.fetch]
  · have hlt := h.2.1 y hy
    simp only [bne_iff_ne]
    omega

theorem uncounted_hifRingHead (r : RingId) : Uncounted .hifRingHead 0 r.val 0 := by
  intro e k
  have hr := r.isLt
  simp only [RegId.off, RegId.row, if_true, Bool.false_eq_true, if_false]
  omega

theorem notPending_hifRingHead (r : RingId) : NotPending .hifRingHead 0 r.val 0 := by
  intro v hv
  have hr := r.isLt
  simp only [RegId.off, RegId.row, Bool.false_eq_true, if_false]
  omega

/-- The ring goes on behind the refused descriptor. -/
theorem refused_head (s : State) (r : RingId) (st : Byte) (dt : W16) : (s.refused r st dt).reg .hifRingHead 0 r.val 0 =
    BitVec.ofNat 64 ((s.headSlot r + 1) % s.ringSize r) := by
  obtain ⟨hhead, -, -⟩ := fetch_regs s r
  exact (State.complete_reg _ _ _ _ (notPending_hifRingHead r) (uncounted_hifRingHead r)).trans hhead

/-- A SILENT descriptor that is refused leaves its status quadword behind, and no other byte. -/
theorem refused_silent {s : State} {r : RingId} (st : Byte) (dt : W16) (hok : FlightOk s)
    (hsilent : leAt (s.headBytes r) 1 1 % 2 = 1) (hclear : Clear s (s.slotAddr r (s.headSlot r) + 0x38) 8) :
    let t := s.refused r st dt
    let slot := s.slotAddr r (s.headSlot r) + 0x38
    t.descs = s.descs ∧ t.ctxs = s.ctxs ∧ t.out = s.out ∧ t.anyRead slot 8 = toLe 8 (statusWord st dt s.now) ∧
      (isHost slot = false → t.hostMem = s.hostMem ∧ ∀ a, a < slot ∨ slot + 8 ≤ a → t.devRead a 1 = s.devRead a 1) ∧
      (isHost slot = true → t.mem = s.mem ∧ ∀ a, a < hostAddr slot ∨ hostAddr slot + 8 ≤ a →
        memByte hostDefault t.hostMem a = memByte hostDefault s.hostMem a) := by
  intro t slot
  have hmem : (s.fetch r).1.mem = s.mem := by rw [fetch_frame]
  have hhost : (s.fetch r).1.hostMem = s.hostMem := by rw [fetch_frame]
  have hscr : (s.fetch r).1.scrambled = s.scrambled := by rw [fetch_frame]
  have hslot : (s.fetch r).1.slotAddr (s.fetch r).2.ring (s.fetch r).2.slot + 0x38 = slot :=
    congrArg (· + 0x38) (fetch_slotAddr s r _)
  have hfacts := silent_facts (s.fetch r).1 s.nextSeq st dt (s.fetch r).2 (fetch_desc s r hok) DescSt.noConfusion hsilent
    (by rw [hslot]; exact clear_congr (by rw [fetch_frame]) (by rw [fetch_frame]) hclear)
  dsimp only at hfacts
  rw [hslot, fetch_descs_gone r hok, fetch_now] at hfacts
  obtain ⟨hframe, hquad, hdevice, hhosted⟩ := hfacts
  have hctxs : t.ctxs = (s.fetch r).1.ctxs := (congrArg State.ctxs hframe :)
  have hout : t.out = (s.fetch r).1.out := (congrArg State.out hframe :)
  refine ⟨(congrArg State.descs hframe :), hctxs.trans (by rw [fetch_frame]), hout.trans (by rw [fetch_frame]), hquad,
    fun hd => ?_, fun hh => ?_⟩
  · obtain ⟨hsame, hrest⟩ := hdevice hd
    exact ⟨hsame.trans hhost, fun a ha => (hrest a ha).trans (devRead_congr hmem hscr a 1)⟩
  · obtain ⟨hsame, hrest⟩ := hhosted hh
    exact ⟨hsame.trans hmem, fun a ha => (hrest a ha).trans (by rw [hhost])⟩

/-- A TYPE that no descriptor has fails check 1 or check 2. -/
theorem commonCheck_type (s : State) (n : CtxId) {b : List Byte} (h : leAt b 0 1 = 0 ∨ 0x0F < leAt b 0 1) :
    s.commonCheck n b = some (stBadDesc, 0x0501) ∨ s.commonCheck n b = some (stBadDesc, 0x0502) := by
  have hty : (leAt b 0 1 == 0 || decide (0x0F < leAt b 0 1)) = true := by simpa using h
  unfold State.commonCheck
  dsimp only
  rw [hty]
  cases reservedSet b || s.arg0Set n b with
  | true => exact .inl rfl
  | false => exact .inr rfl

end Sys2Proof.Machine
end

section
/-! PROOFS. RefusedAtFetch. -/

namespace Sys2Proof

open Machine

/-- Settles O24: each command fetches the descriptor and completes it, and what a completion changes is the frame. -/
theorem refusedAtFetch : Obligations.RefusedAtFetch := by
  unfold Obligations.RefusedAtFetch
  refine ⟨?_, fun s n b h => commonCheck_type s n h⟩
  intro s r c st dt hok hf ty op slot hc hfail
  refine ⟨_, exec_refuses hc hok hf hfail, complete_isDone .., refused_nextSeq s r st dt, refused_frame st dt hf,
    fun hsilent hclear => ?_⟩
  obtain ⟨hdescs, hctxs, hout, hquad, hdevice, hhost⟩ := refused_silent st dt hok hsilent hclear
  exact ⟨hdescs, hctxs, hout, hquad, refused_head s r st dt, hdevice, hhost⟩

end Sys2Proof
end

section
/-! SUPPORT. COUNTER_SAMPLE and HOLDOFF_EXPIRY: the samples of one die and context among those of all (R481 to R484), and
the end of a holdoff period (R337). -/

namespace Sys2Proof.Machine

/-! ### One periodic sample -/

/-- The address of the next entry of a context's sample ring (R484). -/
def State.sampleAddr (s : State) (n : CtxId) : Nat :=
  (s.reg .trcCtxSampleBase 0 n.val 0).toNat + 128 * ((s.ctx n).sampleSeq % 2 ^ s.regFld .trcCtxSampleCfg 0 n.val 0 4 0)

/-- The 128 bytes of a periodic sample (R481 Table 1): instant, SEQ, die and counts. -/
def sampleBytes (t0 k : Nat) (d : Die) (c : Counters) : List Byte :=
  toLe 8 t0 ++ toLe 8 c.epoch.toNat ++ toLe 4 k ++ toLe 1 d.val ++
    toLe 1 ((if c.restored then 2 else 0) + (if c.paused then 4 else 0)) ++ toLe 2 0 ++ toLe 8 c.runNs ++
    toLe 8 c.stallNs ++ (c.cyc.map (toLe 8)).flatten ++ toLe 8 c.hbmRd ++ toLe 8 c.hbmWr ++ toLe 8 c.moveBytes ++
    toLe 8 c.replays ++ List.replicate 16 0

theorem sampleBytes_length (t0 k : Nat) (d : Die) {c : Counters} (h : c.cyc.length = 5) :
    (sampleBytes t0 k d c).length = 128 := by
  have hcyc : (c.cyc.map (toLe 8)).flatten.length = 40 := by
    rw [List.length_flatten, List.map_map, show List.length ∘ toLe 8 = fun _ => 8 from funext (toLe_length 8), List.map_const',
      List.sum_replicate, h]
    rfl
  unfold sampleBytes
  simp only [List.length_append, toLe_length, List.length_replicate, hcyc]

/-- A periodic sample is its bytes at the next entry, and the next SEQ. -/
theorem writeSample_periodic (t0 : Nat) (n : CtxId) (d : Die) (c : Counters) (s : State) :
    writeSample t0 n d c false s = (s.putBytes (s.sampleAddr n) (sampleBytes t0 (s.ctx n).sampleSeq d c)).modCtx n
      (fun z => { z with sampleSeq := ((s.ctx n).sampleSeq + 1) % 2 ^ 32 }) := by
  simp only [writeSample, sampleBytes, State.sampleAddr, Bool.false_eq_true, if_false, Nat.zero_add]

/-- What the sample of die `d` for instant `t0` leaves in context `n`, beside the dies. -/
structure Sampled (t0 : Nat) (n : CtxId) (d : Die) (c : Counters) (s t : State) : Prop where
  seq : (t.ctx n).sampleSeq = ((s.ctx n).sampleSeq + 1) % 2 ^ 32
  read : t.devRead (s.sampleAddr n) 128 = sampleBytes t0 (s.ctx n).sampleSeq d c
  bytes : ∀ a, a < s.sampleAddr n ∨ s.sampleAddr n + 128 ≤ a → t.devRead a 1 = s.devRead a 1
  ctx : ∀ m, m ≠ n → t.ctx m = s.ctx m
  within : Within [.regs, .mem, .bad, .acct, .ctxs, .dies] s t

namespace Sampled

variable {t0 : Nat} {n : CtxId} {d : Die} {c : Counters} {s t u : State}

/-- A step that changes dies alone before a sample takes nothing from it. -/
theorem before (h : Within [.dies] s t) (k : Sampled t0 n d c t u) : Sampled t0 n d c s u := by
  have hctx : ∀ m, t.ctx m = s.ctx m := State.ctx_congr (h.ctxs rfl)
  have hread : ∀ a j, t.devRead a j = s.devRead a j := devRead_congr (h.mem rfl) (h.scrambled rfl)
  have haddr : t.sampleAddr n = s.sampleAddr n := by
    rw [State.sampleAddr, hctx, State.reg_congr (h.regs rfl), State.regFld_congr (h.regs rfl)]
    rfl
  obtain ⟨hseq, hsample, hbytes, hothers, hwithin⟩ := k
  rw [hctx] at hseq hsample
  rw [haddr] at hsample hbytes
  exact ⟨hseq, hsample, fun a ha => (hbytes a ha).trans (hread a 1), fun m hm => (hothers m hm).trans (hctx m),
    (h.mono rfl).trans hwithin⟩

/-- The same of such a step after it. -/
theorem after (k : Sampled t0 n d c s t) (h : Within [.dies] t u) : Sampled t0 n d c s u where
  seq := by rw [State.ctx_congr (h.ctxs rfl), k.seq]
  read := (devRead_congr (h.mem rfl) (h.scrambled rfl) _ _).trans k.read
  bytes a ha := (devRead_congr (h.mem rfl) (h.scrambled rfl) a 1).trans (k.bytes a ha)
  ctx m hm := (State.ctx_congr (h.ctxs rfl) m).trans (k.ctx m hm)
  within := k.within.trans (h.mono rfl)

end Sampled

/-- With no guarded area, bytes put are bytes written. -/
theorem devRead_putBytes_plain {s : State} (a : Nat) (bs : List Byte) (h : s.colls.flatMap (fun x => x.guards) = [])
    (b k : Nat) : (s.putBytes a bs).devRead b k = (s.devWrite a bs).devRead b k := by
  have hput := putBytes_plain s a bs h
  generalize s.putBytes a bs = u at hput ⊢
  have hscr : u.scrambled = s.scrambled := (congrArg State.scrambled hput :)
  exact devRead_congr (congrArg State.mem hput :) (hscr.trans (State.devWrite_scrambled s a bs).symm) b k

theorem devRead_devWrite_other (s : State) {a b : Nat} {bs : List Byte} (h : b < a ∨ a + bs.length ≤ b) :
    (s.devWrite a bs).devRead b 1 = s.devRead b 1 :=
  congrArg (· :: []) (memByte_memWrite_other s.devDefault s.mem bs h)

/-- Where a sample leaves no byte undefined, it changes its bytes and their counts, and the context. -/
theorem Within.sample_of_free {s t : State} (h : Within [.ctxs, .free, .mem, .acct, .regs, .bad] s t)
    (hfree : t.free = s.free) : Within [.regs, .mem, .bad, .acct, .ctxs, .dies] s t := by
  change t = { s with ctxs := t.ctxs, free := t.free, mem := t.mem, acct := t.acct, regs := t.regs, bad := t.bad } at h
  rw [hfree] at h
  exact (show Within [.regs, .mem, .bad, .acct, .ctxs] s t from h).mono rfl

theorem State.modDie_within (s : State) (d : Die) (f : DieSt → DieSt) : Within [.dies] s (s.modDie d f) := rfl

theorem writeSample_sampled {s : State} (t0 : Nat) (n : CtxId) (d : Die) {c : Counters} (hcyc : c.cyc.length = 5)
    (hfree : s.colls.flatMap (fun x => x.guards) = []) : Sampled t0 n d c s (writeSample t0 n d c false s) := by
  have hlen := sampleBytes_length t0 (s.ctx n).sampleSeq d hcyc
  have hwithin := writeSample_within t0 n d c false s
  rw [writeSample_periodic] at hwithin ⊢
  generalize hbs : sampleBytes t0 (s.ctx n).sampleSeq d c = bs at hlen hwithin ⊢
  have hput := devRead_putBytes_plain (s.sampleAddr n) bs hfree
  have hctx := State.putBytes_ctxs s (s.sampleAddr n) bs
  have hrand : (s.putBytes (s.sampleAddr n) bs).free = s.free :=
    (congrArg State.free (putBytes_plain s (s.sampleAddr n) bs hfree) :)
  generalize s.putBytes (s.sampleAddr n) bs = u at hput hctx hrand hwithin ⊢
  exact
    { seq := by rw [State.modCtx_self]
      read := by
        rw [hbs, ← hlen]
        exact (hput _ _).trans (devRead_devWrite s _ bs)
      bytes := fun a ha => (hput a 1).trans (devRead_devWrite_other s (by rw [hlen]; exact ha))
      ctx := fun m hm => (State.modCtx_other u _ hm).trans (State.ctx_congr hctx m)
      within := Within.sample_of_free hwithin hrand }

/-! ### The dies that owe none -/

/-- From `s` to `t` every die is as it was, and so is everything else. -/
structure DiesStand (s t : State) : Prop where
  die : ∀ d, t.die d = s.die d
  within : Within [.dies] s t

theorem DiesStand.trans {s t u : State} (h : DiesStand s t) (k : DiesStand t u) : DiesStand s u :=
  ⟨fun d => (k.die d).trans (h.die d), h.within.trans k.within⟩

/-- A die that owes no sample to the contexts asked for writes none. -/
theorem writeDue_none {s : State} {p : CtxId → Bool} {d : Die} (h : ∀ x ∈ (s.die d).due, p x.2.1 = false) :
    DiesStand s (writeDue p d s) := by
  have hnone : (s.die d).due.filter (fun x => p x.2.1 && s.ctxOpen x.2.1) = [] :=
    List.filter_eq_nil_iff.2 fun x hx => by simp [h x hx]
  have hall : (s.die d).due.filter (fun x => !p x.2.1) = (s.die d).due :=
    List.filter_eq_self.2 fun x hx => by simp [h x hx]
  unfold writeDue
  dsimp only
  rw [hnone, hall]
  refine ⟨fun e => ?_, rfl⟩
  by_cases he : e = d
  · subst he
    exact State.modDie_self s e _
  · exact State.modDie_other s _ he

theorem writeDues_none {p : CtxId → Bool} (l : List Die) (s : State) (h : ∀ d ∈ l, ∀ x ∈ (s.die d).due, p x.2.1 = false) :
    DiesStand s (l.foldl (fun s d => writeDue p d s) s) := by
  induction l generalizing s with
  | nil => exact ⟨fun _ => rfl, rfl⟩
  | cons d l ih =>
    have hfirst : DiesStand s (writeDue p d s) := writeDue_none (h d List.mem_cons_self)
    exact hfirst.trans (ih _ fun e he => by rw [hfirst.die]; exact h e (List.mem_cons_of_mem _ he))

/-- A die that owes one sample, to an open context asked for, writes it and owes none. -/
theorem writeDue_one {s : State} {p : CtxId → Bool} {d : Die} {t0 : Nat} {n : CtxId} {c : Counters}
    (h : (s.die d).due = [(t0, n, c)]) (hp : p n = true) (hopen : s.ctxOpen n = true) :
    writeDue p d s = (writeSample t0 n d c false s).modDie d (fun z => { z with due := [] }) := by
  unfold writeDue
  simp [h, hp, hopen]

/-- The only sample that is due for a context is written, and its die owes none. -/
theorem counterSample_one {s : State} {n : CtxId} {d : Die} {t0 : Nat} {c : Counters}
    (hdue : (s.die d).due = [(t0, n, c)]) (hothers : ∀ e, e ≠ d → ∀ z ∈ (s.die e).due, z.2.1 ≠ n)
    (hopen : s.ctxOpen n = true) (hcyc : c.cyc.length = 5) (hfree : s.colls.flatMap (fun x => x.guards) = []) :
    Sampled t0 n d c s (counterSample n s) ∧ ((counterSample n s).die d).due = [] := by
  obtain ⟨before, after, hsplit⟩ := List.append_of_mem (List.mem_finRange d)
  have hnodup : (before ++ d :: after).Nodup := hsplit ▸ List.nodup_finRange 8
  obtain ⟨-, htail, hbefore⟩ := List.nodup_append.1 hnodup
  have hafter : d ∉ after := (List.nodup_cons.1 htail).1
  have hq : ∀ e, e ≠ d → ∀ z ∈ (s.die e).due, decide (z.2.1 = n) = false := fun e he z hz =>
    decide_eq_false (hothers e he z hz)
  unfold counterSample allDies
  rw [hsplit, List.foldl_append, List.foldl_cons]
  have hu := writeDues_none (p := fun m => decide (m = n)) before s fun e he =>
    hq e (hbefore e he d List.mem_cons_self)
  generalize before.foldl (fun s e => writeDue (fun m => decide (m = n)) e s) s = u at hu ⊢
  have hopen' : u.ctxOpen n = true := by
    rw [State.ctxOpen, State.fn_congr (hu.within.fns rfl)]
    exact hopen
  have hwritten := writeSample_sampled (s := u) t0 n d hcyc (by rw [hu.within.colls rfl]; exact hfree)
  have hone := writeDue_one (s := u) (p := fun m => decide (m = n)) ((congrArg DieSt.due (hu.die d)).trans hdue) (by simp)
    hopen'
  rw [hone]
  have hdies : ∀ e, e ≠ d → ((writeSample t0 n d c false u).modDie d (fun z => { z with due := [] })).die e = s.die e :=
    fun e he => (State.modDie_other _ _ he).trans
      ((State.die_congr ((writeSample_within t0 n d c false u).dies rfl) e).trans (hu.die e))
  have hrest := writeDues_none (p := fun m => decide (m = n)) after
    ((writeSample t0 n d c false u).modDie d (fun z => { z with due := [] })) fun e he => by
      have hne : e ≠ d := fun h => hafter (h ▸ he)
      rw [hdies e hne]
      exact hq e hne
  refine ⟨((hwritten.before hu.within).after (State.modDie_within ..)).after hrest.within, ?_⟩
  rw [hrest.die, State.modDie_self]

/-! ### The end of a holdoff period, R337 -/

theorem exec_holdoffExpiry {s : State} {r : RingId} {t0 : Nat} (hend : (s.ring r).holdoffEnd = some t0) (hdue : t0 ≤ s.now) :
    exec (.holdoffExpiry r) s = .next (holdoffExpiry r s) := by
  show execHoldoffExpiry r s = _
  unfold execHoldoffExpiry
  simp only [hend]
  rw [if_pos hdue]

/-- A message on a vector that nothing masks is sent. -/
theorem State.msix_sends {s : State} {v : Nat} (hfree : s.hub.takeover = false) (hon : s.hub.msixEnable = true)
    (hfn : s.hub.msixFnMask = false) (hmask : (s.reg .msixCtl 0 v 0).getLsbD 0 = false) : s.msix v = s.emit (.msix v) := by
  rw [State.msix, hfree, if_neg (by decide), State.msixSend, hon, hfn, hmask]
  rfl

theorem holdoffExpiry_held {s : State} {r : RingId} (h : (s.ring r).held = true) : holdoffExpiry r s =
    (s.msix r.val).modRing r (fun x =>
      { x with held := false, holdoffEnd := some (s.now + s.regFld .hifRingCfg 0 r.val 0 15 8 * 1000) }) := by
  unfold holdoffExpiry
  rw [h]
  rfl

theorem holdoffExpiry_quiet {s : State} {r : RingId} (h : (s.ring r).held = false) :
    holdoffExpiry r s = s.modRing r (fun x => { x with holdoffEnd := none }) := by
  unfold holdoffExpiry
  rw [h]
  rfl

end Sys2Proof.Machine
end

section
/-! PROOFS. TimedEvents. -/

namespace Sys2Proof

open Machine

/-- Settles O38: of the dies only one owes a sample, which is written; and a holdoff period ends with a message or without. -/
theorem timedEvents : Obligations.TimedEvents := by
  unfold Obligations.TimedEvents
  refine ⟨?_, ?_⟩
  · intro s n d t0 c hdue hothers hopen hcyc hfree k a
    obtain ⟨hsample, hnone⟩ := counterSample_one hdue hothers hopen hcyc hfree
    exact ⟨_, rfl, hsample.seq, hnone, hsample.read, hsample.bytes, hsample.ctx, hsample.within⟩
  · intro s r t0 hend hdue hfree
    have hexec := exec_holdoffExpiry hend hdue
    refine ⟨fun hheld hon hfn hmask => ⟨_, hexec, ?_⟩, fun hheld => ⟨_, hexec, ?_⟩⟩
    · rw [holdoffExpiry_held hheld, State.msix_sends hfree hon hfn hmask]
      exact ⟨rfl, by rw [State.modRing_self], by rw [State.modRing_self], rfl⟩
    · rw [holdoffExpiry_quiet hheld]
      exact ⟨by rw [State.modRing_self], rfl⟩

end Sys2Proof
end

section
/-! SUPPORT. The PCIe link: what HIF_LINK_STATUS shows, the widest width left, and how training and narrowing end (R318 to
R320, R436). -/

namespace Sys2Proof.Machine

/-! ### HIF_LINK_STATUS, R318 Table 10 -/

theorem laneCount_lt (bad : BitVec 16) : laneCount bad < 32 := by
  have hle : laneCount bad ≤ 16 := List.length_filter_le ..
  omega

/-- The fields of HIF_LINK_STATUS. -/
structure LinkShows (v : W64) (n : Nat) (reversed : Bool) (w q : Nat) : Prop where
  width : fld v 4 3 = w
  rate : fld v 2 0 = q
  rev : fld v 6 6 = if reversed then 1 else 0
  flit : fld v 5 5 = if 2 ≤ q then 1 else 0
  excluded : fld v 20 16 = n

theorem linkStatus_shows {excluded width rate : Nat} (rev : Bool) (he : excluded < 32) (hw : width < 4) (hr : rate < 8) :
    LinkShows (linkStatus excluded rev width rate) excluded rev width rate := by
  have hv : (linkStatus excluded rev width rate).toNat =
      excluded * 65536 + (if rev then 64 else 0) + (if 2 ≤ rate then 32 else 0) + width * 8 + rate := by
    refine (BitVec.toNat_ofNat ..).trans (Nat.mod_eq_of_lt ?_)
    split <;> split <;> omega
  constructor <;>
  · rw [fld, bits, hv]
    cases rev <;> by_cases hflit : 2 ≤ rate <;> simp only [hflit, Bool.false_eq_true, if_true, if_false] <;> omega

/-! ### The widest width, R319 -/

/-- Whether every lane of a width passes. -/
def lanesPass (bad : BitVec 16) (w : Nat) (rev : Bool) : Bool := (lanesOf w rev).all (fun k => !bad.getLsbD k)

theorem lanesPass_iff {bad : BitVec 16} {w : Nat} {rev : Bool} :
    lanesPass bad w rev = true ↔ ∀ k ∈ lanesOf w rev, bad.getLsbD k = false := by
  simp [lanesPass]

theorem lanesPass_false_iff {bad : BitVec 16} {w : Nat} {rev : Bool} :
    lanesPass bad w rev = false ↔ ∃ k ∈ lanesOf w rev, bad.getLsbD k = true := by
  simp [lanesPass]

/-- The widths in the order in which they are tried. -/
theorem widthOf_eq (bad : BitVec 16) {cap : Nat} (hcap : cap < 3) : widthOf bad cap =
    if cap = 0 ∧ lanesPass bad 0 false = true then some (0, false)
    else if cap ≤ 1 ∧ lanesPass bad 1 false = true then some (1, false)
    else if cap ≤ 1 ∧ lanesPass bad 1 true = true then some (1, true)
    else if lanesPass bad 2 false then some (2, false)
    else if lanesPass bad 2 true then some (2, true)
    else none := by
  unfold widthOf
  dsimp only
  rw [if_neg (show cap ≠ 3 by omega)]
  rfl

/-- No MAX_WIDTH and the widest are one. -/
theorem widthOf_cap (bad : BitVec 16) (cap : Nat) : widthOf bad cap = widthOf bad (if cap = 3 then 0 else cap) := by
  split
  · next h => rw [h]; rfl
  · rfl

/-- A width that passes, its lanes unreversed where both ways pass, is taken when no wider one passes. -/
theorem widthOf_widest {bad : BitVec 16} {cap w : Nat} {rev : Bool} (hw : w < 3) (hcap : cap ≤ w)
    (hpass : lanesPass bad w rev = true) (hrev : rev = true → lanesPass bad w false = false)
    (hwider : ∀ v r, cap ≤ v → v < w → lanesPass bad v r = false) : widthOf bad cap = some (w, rev) := by
  have hfull : 0 < w → ¬ (cap = 0 ∧ lanesPass bad 0 false = true) := fun h ⟨h0, hp⟩ => by
    rw [hwider 0 false (by omega) h] at hp
    cases hp
  have hhalf : ∀ r, 1 < w → ¬ (cap ≤ 1 ∧ lanesPass bad 1 r = true) := fun r h ⟨h1, hp⟩ => by
    rw [hwider 1 r h1 h] at hp
    cases hp
  have hplain : ∀ p : Prop, rev = true → ¬ (p ∧ lanesPass bad w false = true) := fun p hr ⟨_, hp⟩ => by
    rw [hrev hr] at hp
    cases hp
  rw [widthOf_eq bad (by omega)]
  obtain rfl | rfl | rfl : w = 0 ∨ w = 1 ∨ w = 2 := by omega
  · cases rev with
    | false => exact if_pos ⟨by omega, hpass⟩
    | true => exact absurd ((hrev rfl).symm.trans hpass) (by decide)
  · rw [if_neg (hfull (by decide))]
    cases rev with
    | false => exact if_pos ⟨hcap, hpass⟩
    | true => rw [if_neg (hplain _ rfl), if_pos ⟨hcap, hpass⟩]
  · rw [if_neg (hfull (by decide)), if_neg (hhalf false (by decide)), if_neg (hhalf true (by decide))]
    cases rev with
    | false => exact if_pos hpass
    | true => rw [hrev rfl, if_neg (by decide), if_pos hpass]

theorem widthOf_none {bad : BitVec 16} {cap : Nat} (hcap : cap < 3)
    (h : ∀ w r, cap ≤ w → w < 3 → lanesPass bad w r = false) : widthOf bad cap = none := by
  have hhalf : ∀ r, ¬ (cap ≤ 1 ∧ lanesPass bad 1 r = true) := fun r ⟨h1, hp⟩ => by
    rw [h 1 r h1 (by decide)] at hp
    cases hp
  have hfull : ¬ (cap = 0 ∧ lanesPass bad 0 false = true) := fun ⟨h0, hp⟩ => by
    rw [h 0 false (by omega) (by decide)] at hp
    cases hp
  rw [widthOf_eq bad hcap, if_neg hfull, if_neg (hhalf false), if_neg (hhalf true), h 2 false (by omega) (by decide),
    h 2 true (by omega) (by decide)]
  rfl

/-! ### Training, R319 -/

/-- MAX_RATE in effect. -/
def State.maxRate (s : State) : Nat :=
  if fld (s.reg .hifLinkCtl 0 0 0) 2 0 = 0 ∨ 3 < fld (s.reg .hifLinkCtl 0 0 0) 2 0 then 3
  else fld (s.reg .hifLinkCtl 0 0 0) 2 0

/-- The state with the lanes that training or narrowing excludes. -/
def State.excluding (s : State) (bad : BitVec 16) : State := { s with hub := { s.hub with badLanes := bad } }

theorem exec_linkTraining {s : State} (bad : BitVec 16) (rate : Fin 4) (hpow : s.boot.powered = true)
    (hperst : s.boot.perstLow = false) (hdown : s.boot.linkUp = false) (hloop : s.hub.linkLoopback = false)
    (hstage : s.boot.recovery = true ∨ 3 ≤ s.boot.stage) :
    exec (.linkTraining bad rate) s = .next (linkTraining bad rate s) := by
  refine congrArg Host.Outcome.next (if_pos ?_)
  simp [hpow, hperst, hdown, hloop, hstage]

theorem linkTraining_up {s : State} {bad : BitVec 16} {rate : Fin 4} {w : Nat} {rev : Bool} (hrate : rate ≠ 0)
    (hw : widthOf bad (fld (s.reg .hifLinkCtl 0 0 0) 4 3) = some (w, rev)) : linkTraining bad rate s =
      { (s.excluding bad).setReg .hifLinkStatus 0 0 0 (linkStatus (laneCount bad) rev w (min s.maxRate rate.val)) with
        boot := { s.boot with linkUp := true, cfgReady := s.boot.recovery || decide (4 ≤ s.boot.stage) } } := by
  unfold linkTraining
  dsimp only
  rw [if_neg (show ¬ rate.val = 0 from fun h => hrate (Fin.ext h))]
  show (match widthOf bad (fld (s.reg .hifLinkCtl 0 0 0) 4 3) with
    | some (w, rev) => _
    | none => _) = _
  rw [hw]
  rfl

theorem linkTraining_down {s : State} {bad : BitVec 16} {rate : Fin 4}
    (h : rate = 0 ∨ widthOf bad (fld (s.reg .hifLinkCtl 0 0 0) 4 3) = none) :
    linkTraining bad rate s = linkDown (s.excluding bad) := by
  unfold linkTraining
  dsimp only
  by_cases hrate : rate.val = 0
  · rw [if_pos hrate]
    rfl
  · rw [if_neg hrate]
    show (match widthOf bad (fld (s.reg .hifLinkCtl 0 0 0) 4 3) with
      | some (w, rev) => _
      | none => _) = _
    rw [h.resolve_left fun e => hrate (congrArg Fin.val e)]
    rfl

theorem linkDown_shows (s : State) :
    LinkShows ((linkDown s).reg .hifLinkStatus 0 0 0) (laneCount s.hub.badLanes) false 3 0 := by
  rw [show (linkDown s).reg .hifLinkStatus 0 0 0 = _ from State.setReg_self s .hifLinkStatus 0 0 0 _]
  exact linkStatus_shows false (laneCount_lt _) (by decide) (by decide)

/-! ### Leaving service before the module is job-ready, R459 -/

theorem lossOf_starting {s : State} (kind die unit addr : Nat) (hos : s.hub.outOfService = false) (hoos : s.boot.oos = false)
    (hstage : s.boot.stage < 10) : let t := lossOf kind die unit addr s
    t.boot = { s.boot with oos := true } ∧ t.hub.outOfService = true ∧ t.regFld .secBootStatus 0 0 0 9 9 = 1 ∧
      Recorded s t 4 kind die unit := by
  have heq : lossOf kind die unit addr s =
      { ((s.logFault clsOutOfService kind die unit 0 0 0 0).setRegFld .secBootStatus 0 0 0 9 9 1).msix vecRepair with
        hub := { s.hub with outOfService := true }, boot := { s.boot with oos := true } } := by
    unfold lossOf
    rw [hos, hoos, if_neg (by decide), if_pos hstage]
  dsimp only
  rw [heq]
  refine ⟨rfl, rfl, ?_, ?_⟩
  · refine (congrArg (fld · 9 9) (State.msix_reg _ vecRepair (q := .secBootStatus) (by decide))).trans ?_
    exact State.setRegFld_self _ .secBootStatus 0 0 0 (by decide) (by decide) (by decide)
  · exact (Recorded.of_logFault s clsOutOfService kind die unit 0 0 0 0).congr rfl rfl
      (congrArg Store.cur (State.msix_store ..))

/-! ### Narrowing, R320 -/

/-- The lanes excluded once a lane has failed. -/
def State.lanesWithout (s : State) (lane : Fin 16) : BitVec 16 := s.hub.badLanes ||| BitVec.ofNat 16 (2 ^ lane.val)

/-- The lanes that the link uses. -/
def State.lanesUsed (s : State) : List Nat :=
  lanesOf (s.regFld .hifLinkStatus 0 0 0 4 3) ((s.reg .hifLinkStatus 0 0 0).getLsbD 6)

/-- The link at its next narrower width, with the event counted. -/
def State.narrowedTo (s : State) (bad : BitVec 16) (w : Nat) (rev : Bool) : State :=
  ((s.excluding bad).setReg .hifLinkStatus 0 0 0
    (linkStatus (laneCount bad) rev w (s.regFld .hifLinkStatus 0 0 0 2 0))).bump .hifLinkEvents 0 0 1

theorem exec_linkNarrow {s : State} (lane : Fin 16) (l0p : Bool) (hup : s.boot.linkUp = true)
    (hw : s.regFld .hifLinkStatus 0 0 0 4 3 < 3) : exec (.linkNarrow lane l0p) s = .next (linkNarrow lane l0p s) := by
  refine congrArg Host.Outcome.next (if_pos ?_)
  simp [hup, hw]

theorem linkNarrow_unused {s : State} {lane : Fin 16} (l0p : Bool) (h : lane.val ∉ s.lanesUsed) :
    linkNarrow lane l0p s = s := by
  unfold linkNarrow
  refine if_pos ?_
  show (!s.lanesUsed.contains lane.val) = true
  simpa using h

/-- A lane in use that fails takes the link to the next narrower width, or down. -/
theorem linkNarrow_used {s : State} {lane : Fin 16} (l0p : Bool) (h : lane.val ∈ s.lanesUsed) : linkNarrow lane l0p s =
    match if s.regFld .hifLinkStatus 0 0 0 4 3 < 2 then
        widthOf (s.lanesWithout lane) (s.regFld .hifLinkStatus 0 0 0 4 3 + 1) else none with
    | some (w, rev) =>
      (s.narrowedTo (s.lanesWithout lane) w rev).degraded kPcieWidth hubDie 0 lane.val (if l0p then 1000 else 50000) 0 0
    | none => lossOf kPcieWidth hubDie 0 0 (linkDown (s.excluding (s.lanesWithout lane))) := by
  unfold linkNarrow
  refine (if_neg ?_).trans rfl
  show ¬ (!s.lanesUsed.contains lane.val) = true
  simpa using h

/-- What a narrowing leaves: the fields of HIF_LINK_STATUS, the lanes, one event more, and a degraded event. -/
theorem narrowed_settles (s : State) (bad : BitVec 16) {w : Nat} (rev : Bool) (x pm : Nat) (hw : w < 3) :
    let t := (s.narrowedTo bad w rev).degraded kPcieWidth hubDie 0 x pm 0 0
    LinkShows (t.reg .hifLinkStatus 0 0 0) (laneCount bad) rev w (s.regFld .hifLinkStatus 0 0 0 2 0) ∧
      t.hub.badLanes = bad ∧
      (t.reg .hifLinkEvents 0 0 0).toNat = ((s.reg .hifLinkEvents 0 0 0).toNat + 1) % 2 ^ 32 ∧
      Degrades s t 0x0F 0xFF 0 ∧ t.boot = s.boot := by
  intro t
  have hreg : ∀ q : RegId, q.off 0 0 0 ≠ RegId.off .avlDegraded 0 0 0 → q.off 0 0 0 ≠ RegId.off .msixPending 0 8 0 →
      t.reg q 0 0 0 = (s.narrowedTo bad w rev).reg q 0 0 0 := fun q h1 h2 => State.degraded_reg _ _ _ _ _ _ _ _ h1 h2
  have hrate : s.regFld .hifLinkStatus 0 0 0 2 0 < 8 := Nat.mod_lt _ (by decide)
  refine ⟨?_, ?_, ?_, ?_, ?_⟩
  · rw [hreg .hifLinkStatus (by decide) (by decide), State.narrowedTo, State.bump_other _ _ (by decide), State.setReg_self]
    exact linkStatus_shows rev (laneCount_lt bad) (by omega) hrate
  · exact congrArg Hub.badLanes (State.msix_hub _ _)
  · rw [hreg .hifLinkEvents (by decide) (by decide), State.narrowedTo, State.bump_self _ _ _ _ _ rfl]
    exact congrArg (fun v : W64 => (v.toNat + 1) % 2 ^ 32) (State.setReg_other (s.excluding bad) _ (by decide))
  · exact (State.degraded_event (s.narrowedTo bad w rev) kPcieWidth hubDie 0 x pm 0 0 (by decide)).congr rfl rfl rfl rfl
  · exact State.degraded_boot ..

end Sys2Proof.Machine
end

section
/-! PROOFS. LinkTraining. -/

namespace Sys2Proof

open Machine

/-- Settles O34: training and narrowing take the first width of `widthOf` whose lanes pass, and the fields of
HIF_LINK_STATUS are those stored. -/
theorem linkTraining : Obligations.LinkTraining := by
  unfold Obligations.LinkTraining
  refine ⟨?_, ?_⟩
  · intro s bad rate hpow hperst hdown hloop hstage ctl cap top count
    have hexec := exec_linkTraining bad rate hpow hperst hdown hloop hstage
    have hcap : widthOf bad (fld (s.reg .hifLinkCtl 0 0 0) 4 3) = widthOf bad cap := widthOf_cap bad _
    have hlow : cap < 3 := by
      have h4 : fld ctl 4 3 < 4 := Nat.mod_lt _ (by decide)
      show (if fld ctl 4 3 = 3 then 0 else fld ctl 4 3) < 3
      split <;> omega
    refine ⟨fun w rev hrate hw hle hpass hrev hwider => ?_, fun h => ?_⟩
    · have hwidth := widthOf_widest hw hle (lanesPass_iff.2 hpass) (fun hr => lanesPass_false_iff.2 (hrev hr))
        fun v r h1 h2 => lanesPass_false_iff.2 (hwider v r h1 h2)
      rw [linkTraining_up hrate (hcap.trans hwidth)] at hexec
      have hlt : min s.maxRate rate.val < 8 := by have := rate.isLt; omega
      obtain ⟨hshow, hrates, hrevs, hflit, hexcluded⟩ := linkStatus_shows (width := w) rev (laneCount_lt bad) (by omega) hlt
      refine ⟨_, hexec, rfl, ?_, ?_, ?_, ?_, ?_, rfl⟩
      all_goals refine (congrArg (fld · _ _) (State.setReg_self (s.excluding bad) .hifLinkStatus 0 0 0 _)).trans ?_
      · exact hshow
      · exact hrates
      · exact hrevs
      · exact hflit
      · exact hexcluded
    · have hnone : rate = 0 ∨ widthOf bad (fld (s.reg .hifLinkCtl 0 0 0) 4 3) = none :=
        h.imp_right fun hall => hcap.trans (widthOf_none hlow fun w r h1 h2 => lanesPass_false_iff.2 (hall w r h1 h2))
      rw [linkTraining_down hnone] at hexec
      obtain ⟨hshow, -, -, -, hexcluded⟩ := linkDown_shows (s.excluding bad)
      exact ⟨_, hexec, rfl, rfl, hshow, hexcluded, rfl⟩
  · intro s lane l0p hup hlt w used bad fits
    have hexec := exec_linkNarrow lane l0p hup hlt
    have hfits : ∀ {v r}, w < v → ¬ fits v r → lanesPass bad v r = false := fun hv hno =>
      Bool.eq_false_iff.2 fun hp => hno ⟨hv, lanesPass_iff.1 hp⟩
    refine ⟨fun hunused => ?_, fun v rev hused hv hfit hrev hwider => ?_, fun hused hnone hstage hoos hos => ?_⟩
    · rw [hexec, linkNarrow_unused l0p hunused]
    · obtain ⟨hnarrower, hpass⟩ := hfit
      have hwidth : widthOf (s.lanesWithout lane) (s.regFld .hifLinkStatus 0 0 0 4 3 + 1) = some (v, rev) :=
        widthOf_widest hv hnarrower (lanesPass_iff.2 hpass) (fun hr => hfits hnarrower (hrev hr))
          fun x r h1 h2 => hfits h1 (hwider x r h2)
      rw [linkNarrow_used l0p hused, if_pos (show w < 2 by omega), hwidth] at hexec
      obtain ⟨⟨hshow, hrates, hrevs, -, hexcluded⟩, hbad, hevents, hdegrades, hboot⟩ :=
        narrowed_settles s bad rev lane.val (if l0p then 1000 else 50000) hv
      exact ⟨_, hexec, hshow, hrevs, hrates, hexcluded, hbad, hevents, hdegrades, hboot⟩
    · have hwidth : (if s.regFld .hifLinkStatus 0 0 0 4 3 < 2 then
          widthOf (s.lanesWithout lane) (s.regFld .hifLinkStatus 0 0 0 4 3 + 1) else none) = none := by
        split
        · exact widthOf_none (by omega) fun x r h1 h2 => hfits h1 (hnone x r h2)
        · rfl
      rw [linkNarrow_used l0p hused, hwidth] at hexec
      obtain ⟨hboot, hout, hstatus, hrecorded⟩ := lossOf_starting (s := linkDown (s.excluding bad)) kPcieWidth hubDie 0 0
        hos hoos hstage
      refine ⟨_, hexec, ?_, ?_, ?_, hstatus, hout, hrecorded.congr rfl rfl rfl⟩
      · exact congrArg Boot.linkUp hboot
      · exact congrArg Boot.cfgReady hboot
      · exact congrArg Boot.oos hboot

end Sys2Proof
end
